-- ==== Sys2Proof/Word.lean ====
section
/-! DEFINITION. The words of the machine: a register is 64 bits (R12), a physical address is 48 bits (R9). -/

namespace Sys2Proof

/-- The value of one register (R12). -/
abbrev Word := BitVec 64

/-- A physical address (R9). -/
abbrev PAddr := BitVec 48

/-- A byte of memory. -/
abbrev Byte := BitVec 8

end Sys2Proof
end

