-- ==== Sys2Proof/Syntax.lean ====
section
/-! DEFINITION. The commands of the block: one constructor per row of spec/opcode_table.json, with its operands. -/

namespace Sys2Proof

/-- Who issues an access (R29, R455). -/
inductive Agent where
  | hart (h : Nat) | newt | basecamp | jtag | device
  deriving DecidableEq, Repr

/-- The tags of an access: its world, and the instance number and generation it carries if an instance
initiated it (R29). -/
structure Issuer where
  sealed : Bool
  vi : Option Nat
  gen : Nat
  agent : Agent
  deriving DecidableEq, Repr

/-- The fields of a time message, Table 2.4; times count 2⁻¹⁶ ns. -/
structure TimeMsg where
  announce : Bool
  seq : Nat
  state : Nat
  txTime : Nat
  echoTx : Nat
  echoRx : Nat
  candRun : Nat
  candPrio : Nat
  candSerial : Nat
  candId : Nat
  annSeq : Nat
  hops : Nat
  tscale : Nat
  period : Nat
  origin : Nat
  base : Nat
  swValid : Bool
  swPeriod : Nat
  swFrame : Nat
  deriving DecidableEq, Repr

/-- The privilege modes of a hart, numbered as Table 18.11 does. -/
inductive PrivMode where
  | u | s | vu | vs | m
  deriving DecidableEq, Repr, Inhabited

/-- Where a register write goes: an address with an access size, or a CSR of a hart written in a mode. -/
inductive RegTarget where
  | addr (a : PAddr) (size : Nat)
  | csr (h : Fin 216) (num : Fin 4096) (mode : PrivMode)
  deriving DecidableEq, Repr

/-- What a hart records of a sampled instruction (SKSMPPC, SKSMPADDR, SKSMPINFO). -/
structure Sample where
  /-- Instructions retired by the hart so far. -/
  retired : Nat
  pc : Word
  addr : Word
  latency : Nat
  /-- Bits 9 to 3 of SKSMPINFO. -/
  marks : Nat
  mode : PrivMode
  deriving DecidableEq, Repr

/-- The AMO operations of the A extension, on 4 or 8 bytes. -/
inductive AmoOp where
  | swap | add | xor | and | or | min | max | minu | maxu
  deriving DecidableEq, Repr

/-- What an access of a core, or a prefetch, asks of its caches. -/
inductive AccKind where
  | load | fetch
  /-- An AMO and an LR of 4 or 8 bytes, and an SC with its bytes (R121). -/
  | amo (op : AmoOp) (wide : Bool) (value : Word) | lr (wide : Bool) | sc (bytes : List Nat)
  /-- Bytes stored from the access's offset in the line. -/
  | store (bytes : List Nat)
  /-- A prefetch into L1D or into L2 (R148). -/
  | prefL1 | prefL2
  deriving DecidableEq, Repr, Inhabited

/-- An access of hart `h` to a line of HBM: its byte offset in the line, world, class and PC, and the mode it is made in. World and
class are what the mode, the cluster and the windows give it (`State.accessTagged`). -/
structure Access where
  h : Nat
  line : Nat
  off : Nat
  kind : AccKind
  sealed : Bool
  reserved : Bool
  pc : Nat
  mode : PrivMode
  deriving DecidableEq, Repr, Inhabited

/-- An access to Piton memory (R160). -/
inductive PitonKind where
  | load (size : Nat) | store (bytes : List Nat) | amo (op : AmoOp) (wide : Bool) (value : Word) | lrsc | fetch (size : Nat)
  deriving DecidableEq, Repr

/-- The coherence messages (Table 7.2). -/
inductive CohKind where
  | rdS | rdX | upg | wb | cmo | ncRd | ncWr | snpS | snpI | snpC | rspI | rspK | rspId | rspKd | rspEvd
  | dataS | dataE | gntX | fack | wbAck | wbStale | cmp | nak
  deriving DecidableEq, Repr, Inhabited

/-- The fields of a coherence message (Tables 7.2 and 8.3); a kind uses those it carries. -/
structure CohMsg where
  /-- Source identifier (Table 7.1); homes send 0x40 + h. -/
  src : Nat
  line : Nat
  txn : Nat
  sealed : Bool
  vi : Option Nat
  gen : Nat
  reserved : Bool
  /-- SHR, KEEP or DISC. -/
  flag : Bool
  /-- CMO: 0 CLN, 1 FLS, 2 INV. -/
  op : Nat
  /-- WB tag, or NAK code. -/
  tag : Nat
  mask : Nat
  data : List Nat
  poison : Bool
  /-- Error status of a reply (R428). -/
  err : Bool
  /-- A field that Table 7.2 or 8.3 does not allow (code 0x01 of Table 7.9). -/
  malformed : Bool
  deriving DecidableEq, Repr, Inhabited

/-- A CDP message: the fields of its header (Table 8.3), and the 16-byte units behind it (R188). -/
structure CdpMsg where
  opcode : Nat
  sealed : Bool
  cls : Fin 4
  vc : Fin 4
  /-- DATA. -/
  data : Bool
  poison : Bool
  /-- SHR, KEEP or DISC, by opcode. -/
  flag : Bool
  /-- OP: the operation of a CMO, or the size of an IO access as a power of two. -/
  op : Fin 4
  source : Nat
  tag : Nat
  txn : Nat
  vi : Option Nat
  gen : Nat
  pa : PAddr
  body : List Nat
  deriving DecidableEq, Repr, Inhabited

/-- What a die sends in parameter exchange (Table 8.6). -/
structure PeerParams where
  verMaj : Nat
  verMin : Nat
  cls : Fin 4
  vendor : Nat
  spares : Fin 4
  credits : List Nat
  failedRx : Nat
  failedTx : Nat
  deriving DecidableEq, Repr

/-- The message of a mesh packet (Table 8.4). -/
inductive MeshOp where
  | coh (k : CohKind) | ioRd | ioWr | ioCmp
  deriving DecidableEq, Repr, Inhabited

/-- The code of a message (Table 8.4). -/
def MeshOp.code : MeshOp → Nat
  | .coh .rdS => 0x01 | .coh .rdX => 0x02 | .coh .upg => 0x03 | .coh .wb => 0x04 | .coh .cmo => 0x05
  | .coh .ncRd => 0x06 | .coh .ncWr => 0x07 | .coh .snpS => 0x10 | .coh .snpI => 0x11 | .coh .snpC => 0x12
  | .coh .rspI => 0x18 | .coh .rspK => 0x19 | .coh .rspId => 0x1A | .coh .rspKd => 0x1B | .coh .rspEvd => 0x1C
  | .coh .dataS => 0x20 | .coh .dataE => 0x21 | .coh .gntX => 0x22 | .coh .fack => 0x23 | .coh .wbAck => 0x24
  | .coh .wbStale => 0x25 | .coh .cmp => 0x26 | .coh .nak => 0x27 | .ioRd => 0x30 | .ioWr => 0x31 | .ioCmp => 0x32

/-- Units behind the header of a message, by opcode and DATA (R188): a line, the byte mask of an NC_WR, and the one unit of an
IO_WR or of an IO_CMP that answers a read. -/
def cdpTail (opcode : Nat) (data read : Bool) : Nat :=
  if opcode = 0x31 then 1
  else if opcode = 0x32 then (if read then 1 else 0)
  else (if data then 4 else 0) + (if opcode = 0x07 then 1 else 0)

/-- The units behind the header of a message are those its opcode and DATA call for; an IO_CMP carries one for a read. -/
def CdpMsg.bodyOk (m : CdpMsg) : Bool := [false, true].any (fun r => m.body.length == cdpTail m.opcode m.data r)

/-- What the hub sends in parameter exchange (Table 8.6). -/
structure HubParams where
  verMaj : Nat
  verMin : Nat
  site : Nat
  credits : List Nat
  failedRx : Nat
  failedTx : Nat
  deriving DecidableEq, Repr, Inhabited

/-- A message handed to a network interface (R208) at port `sport` of node `src`, for port `dport` of node `dst`: `bulk` is
its issuer's mark on a non-caching message, `promoted` that it is a snoop of a promoted transaction (R174). A snoop goes to
the dies of the mask `dies` instead, one copy each (R212). -/
structure MeshPkt where
  op : MeshOp
  msg : CdpMsg
  bulk : Bool
  promoted : Bool
  dies : Fin 4096
  src : Fin 100
  sport : Fin 4
  dst : Fin 100
  dport : Fin 4
  issuer : Issuer
  deriving DecidableEq, Repr

/-- How a flit arrives on a mesh link (R217). -/
inductive LinkError where
  | none | single | uncorrectable
  deriving DecidableEq, Repr

/-- How read data comes back from a stack (R237). -/
inductive EccResult where
  | clean | corrected | uncorrectable
  deriving DecidableEq, Repr

/-- A request that a home hands its controller (R230): class 0 reserved, 1 coherence request, 2 bulk. -/
structure McReq where
  write : Bool
  cls : Fin 3
  line : Nat
  data : Nat
  poison : Bool
  /-- The tags of the access. -/
  sealed : Bool
  vi : Option Nat
  /-- The number that the home gave the read (R172). -/
  id : Nat
  deriving DecidableEq, Repr

/-- The eyes that training finds on a byte lane (MC_TRAIN_LANE). -/
structure LaneEye where
  rdCtr : Nat
  rdWidth : Nat
  wrCtr : Nat
  wrWidth : Nat
  rdVref : Nat
  wrVref : Nat
  deriving DecidableEq, Repr

/-- What training brought: whether its steps succeeded, and the eyes of the lanes. -/
structure TrainRun where
  ok : Bool
  lanes : List LaneEye
  deriving DecidableEq, Repr

/-- A doorbell of a submission channel: the manager's (a write of QE_CH_DB), or an instance's (a write of VI_T_SQDB or
VI_T_CQDB). -/
inductive Doorbell where
  | manager (ch : Fin 128) | tenant (v : Fin 256)
  deriving DecidableEq, Repr

/-- What a producer brings to a queue (R260): its source, the bytes of the whole packet, and the bytes that arrive now.
A packet that has begun takes its later bytes from the same source. -/
structure Arriving where
  src : Nat
  total : Nat
  data : List Nat
  deriving DecidableEq, Repr, Inhabited

/-- A fabric packet (Table 12.8); `fvc` is its channel, `reservedBad` says that a reserved bit is not zero. -/
structure FabPkt where
  ptype : Nat
  fvc : Nat
  rsv : Bool
  sealed : Bool
  vi : Option Nat
  gen : Nat
  dst : Nat
  src : Nat
  hops : Nat
  epoch : Nat
  txn : Nat
  status : Nat
  ackReq : Bool
  rackReq : Bool
  sync : Bool
  len : Nat
  aop : Nat
  sz4 : Bool
  queue : Nat
  offset : Nat
  data : List Nat
  reservedBad : Bool
  deriving DecidableEq, Repr, Inhabited

/-- A fabric flit as a port receives it (Table 12.3): whether its CRC fails, its KIND and whether a reserved bit is set, its
sequence number, what it acknowledges, the credits it returns for FV1 to FV4, its channel, the corrected FEC symbols, and the
packet that ends in it. -/
structure FabFlit where
  crcBad : Bool
  kind : Fin 16
  reservedBad : Bool
  seq : Fin 4096
  ack : Option (Fin 4096)
  credit : List Nat
  fvc : Fin 8
  fec : Nat
  pkt : Option FabPkt
  deriving DecidableEq, Repr

/-- A TRAIN payload (Table 12.5). -/
structure FabTrain where
  verMaj : Nat
  verMin : Nat
  modes : Nat
  idValid : Bool
  id : Nat
  resume : Option Nat
  serial : Nat
  credits : List Nat
  deriving DecidableEq, Repr, Inhabited

/-- A record of agreement (R303), with its digest as four words. -/
structure FabRec where
  epoch : Nat
  prio : Nat
  serial : Nat
  digest : List Nat
  frame : Nat
  deriving DecidableEq, Repr, Inhabited

/-- A BEACON payload (Table 12.7). -/
structure FabBeacon where
  id : Nat
  idValid : Bool
  hold : Bool
  quar : Bool
  interval : Nat
  prio : Nat
  frame : Nat
  serial : Nat
  epoch : Nat
  best : FabRec
  deriving DecidableEq, Repr, Inhabited

/-- An access of a core to the remote window (R308). -/
inductive RemoteKind where
  | load (size : Nat) | store (bytes : List Nat) | amo (op : AmoOp) (wide : Bool) (value : Word) | lrsc | fetch
  deriving DecidableEq, Repr, Inhabited

/-- What a JTAG debug module asks (R352). -/
inductive JtagReq where
  /-- The identification register (R2). -/
  | idcode
  | halt (h : Nat)
  | resume (h : Nat)
  /-- A read or write of memory or of a register, of 1, 2, 4 or 8 bytes. -/
  | read (addr size : Nat)
  | write (addr size : Nat) (value : Word)
  /-- A register of a halted hart: x1 to x31 at 1 to 31, the PC at 32, a CSR at 0x1000 + its number. -/
  | readHart (h n : Nat)
  | writeHart (h n : Nat) (value : Word)
  deriving DecidableEq, Repr

/-- What an inbound PCIe request asks (R375): a memory read, a memory write, an AtomicOp (0 FetchAdd, 1 Swap, 2 CAS, of 4
or 8 bytes), a configuration request, or a TLP that is malformed or breaks the credits. -/
inductive TlpKind where
  | read (n : Nat) | write (bytes : List Nat) | atomic (op : Fin 3) (wide : Bool) (value compare : Nat) | config (write : Bool)
  | malformed
  deriving DecidableEq, Repr

/-- An inbound PCIe request: its function and BAR0 offset in the endpoint role, its Requester ID bus and address in the
root role. -/
structure Tlp where
  fn : Fin 8
  bus : Fin 256
  addr : Nat
  kind : TlpKind
  deriving DecidableEq, Repr

/-- The commands, in the order of the table. -/
inductive Instr where
  /-- REGISTER_WRITE, R10 -/
  | registerWrite (c : Issuer) (target : RegTarget) (value : Word)
  /-- TICK, R41 -/
  | tick
  /-- PERIOD_SWITCH, R44 -/
  | periodSwitch
  /-- TB_TIME_READ, R40 -/
  | tbTimeRead (c : Issuer)
  /-- TICK_EN_WRITE, R42: a write of TB_CTRL -/
  | tickEnWrite (c : Issuer) (value : Word)
  /-- TICKS_STOP, R42 -/
  | ticksStop
  /-- SWITCH_ARM, R44: a write of TB_SWITCH -/
  | switchArm (c : Issuer) (value : Word)
  /-- RESTEP_WRITE, R53: a write of TB_CTRL -/
  | restepWrite (c : Issuer) (value : Word)
  /-- RESTEP, R53 -/
  | restep
  /-- PPS_IN_EDGE, R49 -/
  | ppsInEdge (rising : Bool)
  /-- AS_SOURCE_UPDATE, R48: a Sync of the slave lane; reference minus local, in 2⁻¹⁶ ns -/
  | asSourceUpdate (lane : Fin 4) (offset : Int) (interval : Nat)
  /-- SOURCE_UPDATE_MISSED, R48 -/
  | sourceUpdateMissed
  /-- ACQ_TIMEOUT, R49 -/
  | acqTimeout
  /-- PPS_OUT_PULSE, R47 -/
  | ppsOutPulse
  /-- TIME_MESSAGE_SEND, R59 -/
  | timeMessageSend
  /-- TIME_MESSAGE_RX, R60 -/
  | timeMessageRx (port : Fin 8) (m : TimeMsg)
  /-- ELECTION_SETTLE, R56 -/
  | electionSettle
  /-- SUMMIT_LOST, R57 -/
  | summitLost
  /-- PARENT_LOST, R62 -/
  | parentLost
  /-- CSQ_START, R70: a write of CSQ_CTRL -/
  | csqStart (c : Issuer) (q : Fin 32) (value : Word)
  /-- CSQ_STOP, R70: a write of CSQ_CTRL -/
  | csqStop (c : Issuer) (q : Fin 32) (value : Word)
  /-- CSQ_IMEM_WRITE, R100: a 64-bit store to instruction memory -/
  | csqImemWrite (c : Issuer) (q : Fin 32) (a : Fin 2048) (value : Word)
  /-- CSQ_FLAG_SET, R82 -/
  | csqFlagSet (c : Issuer) (q : Fin 32) (value : Word)
  /-- HALT, R91 -/
  | halt (q : Fin 32)
  /-- MOVI, R79 -/
  | movi (q : Fin 32)
  /-- ADDI, R79 -/
  | addi (q : Fin 32)
  /-- SUB, R79 -/
  | sub (q : Fin 32)
  /-- AND, R79 -/
  | and (q : Fin 32)
  /-- OR, R79 -/
  | or (q : Fin 32)
  /-- SHL, R79 -/
  | shl (q : Fin 32)
  /-- BR, R80 -/
  | br (q : Fin 32)
  /-- LOOP, R80 -/
  | loop (q : Fin 32)
  /-- WAITT, R81 -/
  | waitt (q : Fin 32)
  /-- WAITT_FIRE, R75 -/
  | waittFire (q : Fin 32)
  /-- WAITE, R82 -/
  | waite (q : Fin 32)
  /-- WAITE_END, R82 -/
  | waiteEnd (q : Fin 32)
  /-- LAUNCH, R83 -/
  | launch (q : Fin 32)
  /-- LAUNCH_COMPLETION, R106: of the accepted launch with this number -/
  | launchCompletion (id : Nat)
  /-- SLOT_EXPIRE, R84 -/
  | slotExpire (q : Fin 32) (slot : Fin 32)
  /-- POST, R86 -/
  | post (q : Fin 32)
  /-- FLAG_DELIVER, R78: the oldest POST under way -/
  | flagDeliver
  /-- CHK, R85 -/
  | chk (q : Fin 32)
  /-- CHK_END, R85 -/
  | chkEnd (q : Fin 32)
  /-- OVERRUN_SKIP, R96 -/
  | overrunSkip (q : Fin 32)
  /-- SYNC, R87 -/
  | sync (q : Fin 32)
  /-- SYNC_RELEASE, R87: of the barrier in which the sequencer waits -/
  | syncRelease (q : Fin 32)
  /-- SYNC_DEADLINE, R87 -/
  | syncDeadline (q : Fin 32)
  /-- CAIRN, R88 -/
  | cairn (q : Fin 32)
  /-- FENCE, R89 -/
  | fence (q : Fin 32)
  /-- FENCE_END, R89 -/
  | fenceEnd (q : Fin 32)
  /-- YIELD, R90 -/
  | yield (q : Fin 32)
  /-- GRANT_END, R116 -/
  | grantEnd (entry : Fin 256)
  /-- REFRESH_WINDOW_END, R110 -/
  | refreshWindowEnd (g : Fin 16)
  /-- INJECTOR_LAUNCH_WORD, R133: of the injector launch with this number -/
  | injectorLaunchWord (id : Nat)
  /-- WORLD_SWITCH_GO, R320: a write of SKWSW by a hart -/
  | worldSwitchGo (h : Fin 216) (c : Issuer) (value : Word)
  /-- WORLD_SWITCH_GO_WITHDRAW, R320 -/
  | worldSwitchGoWithdraw (h : Fin 216)
  /-- WORLD_SWITCH_DONE, R321: of cluster `cl` of a die -/
  | worldSwitchDone (die : Fin 12) (cl : Fin 9)
  /-- TIMER_COMPARE, R125 -/
  | timerCompare (h : Fin 216)
  /-- WFI, R138 -/
  | wfi (h : Fin 216) (mode : PrivMode)
  /-- INTERRUPT_WAKE, R138 -/
  | interruptWake (h : Fin 216)
  /-- MSI_WRITE, R132 -/
  | msiWrite (c : Issuer) (addr : PAddr) (data : Nat)
  /-- APLIC_SOURCE, R131: a wired source takes a level -/
  | aplicSource (src : Fin 512) (level : Bool)
  /-- LOCKSTEP_MISMATCH, R137 -/
  | lockstepMismatch (die : Fin 12) (cl : Fin 9) (pc : Word)
  /-- SAMPLE_CHOSEN, R140 -/
  | sampleChosen (h : Fin 216) (r : Sample)
  /-- SAMPLE_ACK, R140: a write of SKSMPCFG -/
  | sampleAck (h : Fin 216) (value : Word)
  /-- PREFETCH_ISSUE, R148: stream `idx` of prefetcher `unit` of a die: 0 to 17 the L1D prefetchers, 18 to 26 those of L2 -/
  | prefetchIssue (die : Fin 12) (unit : Fin 27) (idx : Fin 32)
  /-- CBO_CLEAN, R153 -/
  | cboClean (h : Fin 216) (mode : PrivMode) (line : Nat)
  /-- CBO_FLUSH, R153 -/
  | cboFlush (h : Fin 216) (mode : PrivMode) (line : Nat)
  /-- CBO_INVAL, R153 -/
  | cboInval (h : Fin 216) (mode : PrivMode) (line : Nat)
  /-- CBO_ZERO, R153 -/
  | cboZero (h : Fin 216) (mode : PrivMode) (line : Nat)
  /-- SWOP_CLEAN, R156: a write of WLD_SWOP -/
  | swopClean (c : Issuer) (die : Fin 12) (value : Word)
  /-- SWOP_INVALIDATE, R156: a write of WLD_SWOP -/
  | swopInvalidate (c : Issuer) (die : Fin 12) (value : Word)
  /-- SWOP_CLEAN_INVALIDATE, R156: a write of WLD_SWOP -/
  | swopCleanInvalidate (c : Issuer) (die : Fin 12) (value : Word)
  /-- SWOP_DONE, R156 -/
  | swopDone (die : Fin 12)
  /-- PITON_MODE_CHANGE, R158: a write of WLD_L3WAY -/
  | pitonModeChange (c : Issuer) (die : Fin 12) (slice : Fin 4) (value : Word)
  /-- PITON_CHANGE_DONE, R158 -/
  | pitonChangeDone (die : Fin 12) (slice : Fin 4)
  /-- PITON_ACCESS, R160 -/
  | pitonAccess (c : Issuer) (addr : PAddr) (k : PitonKind)
  /-- RING_BROADCAST, R165: an access of a core reaches its caches and, if they cannot serve it, the ring -/
  | ringBroadcast (a : Access)
  /-- L3_EVICTION, R165: the line in a way of an L2 (unit 0 to 8) or an L3 slice (unit 9 to 12) leaves it -/
  | l3Eviction (die : Fin 12) (unit : Fin 13) (set : Nat) (way : Fin 16)
  /-- RD_S, R172 -/
  | rdS (m : CohMsg)
  /-- RD_X, R172 -/
  | rdX (m : CohMsg)
  /-- UPG, R172 -/
  | upg (m : CohMsg)
  /-- WB, R175 -/
  | wb (m : CohMsg)
  /-- CMO, R172 -/
  | cmo (m : CohMsg)
  /-- NC_RD, R172 -/
  | ncRd (m : CohMsg)
  /-- NC_WR, R172 -/
  | ncWr (m : CohMsg)
  /-- HOME_TXN_START, R173 -/
  | homeTxnStart (home : Fin 32) (line : Nat)
  /-- FILTER_ALLOC_RETRY, R178 -/
  | filterAllocRetry (home : Fin 32) (line : Nat)
  /-- SNP_S, R169 -/
  | snpS (die : Fin 12) (m : CohMsg)
  /-- SNP_I, R169 -/
  | snpI (die : Fin 12) (m : CohMsg)
  /-- SNP_C, R169 -/
  | snpC (die : Fin 12) (m : CohMsg)
  /-- RSP_I, R175 -/
  | rspI (m : CohMsg)
  /-- RSP_K, R175 -/
  | rspK (m : CohMsg)
  /-- RSP_ID, R175 -/
  | rspId (m : CohMsg)
  /-- RSP_KD, R175 -/
  | rspKd (m : CohMsg)
  /-- RSP_EVD, R175 -/
  | rspEvd (m : CohMsg)
  /-- DATA_S, R169 -/
  | dataS (die : Fin 12) (m : CohMsg)
  /-- DATA_E, R169 -/
  | dataE (die : Fin 12) (m : CohMsg)
  /-- GNT_X, R169 -/
  | gntX (die : Fin 12) (m : CohMsg)
  /-- FACK, R175 -/
  | fack (m : CohMsg)
  /-- WB_ACK, R169 -/
  | wbAck (die : Fin 12) (m : CohMsg)
  /-- WB_STALE, R169 -/
  | wbStale (die : Fin 12) (m : CohMsg)
  /-- CMP, R428: at the agent with this source identifier -/
  | cmp (agent : Fin 32) (m : CohMsg)
  /-- SNOOP_TIMEOUT, R181 -/
  | snoopTimeout (home : Fin 32) (line : Nat)
  /-- IO_RD, R188: a read of a hart of the die, of 1, 2, 4 or 8 bytes -/
  | ioRd (die : Fin 12) (c : Issuer) (addr : PAddr) (size : Nat)
  /-- IO_WR, R188 -/
  | ioWr (die : Fin 12) (c : Issuer) (addr : PAddr) (size : Nat) (value : Word)
  /-- IO_CMP, R188: status and read data for the requester -/
  | ioCmp (die : Fin 12) (err : Bool) (value : Word)
  /-- CDP_MSG_FLIT, R187 -/
  | cdpMsgFlit (link : Fin 48) (wire : BitVec 1024)
  /-- CDP_IDLE_FLIT, R186 -/
  | cdpIdleFlit (link : Fin 48) (wire : BitVec 1024)
  /-- CDP_LNAK, R187 -/
  | cdpLnak (link : Fin 48) (wire : BitVec 1024)
  /-- CDP_RESUME, R190 -/
  | cdpResume (link : Fin 48) (wire : BitVec 1024)
  /-- LINK_TRAIN, R193 -/
  | linkTrain (link : Fin 48)
  /-- PARAM_EXCHANGE, R194 -/
  | paramExchange (link : Fin 48) (p : PeerParams)
  /-- EXCHANGE_TIMEOUT, R195 -/
  | exchangeTimeout (link : Fin 48)
  /-- LINK_TRAIN_DONE, R193: lanes that failed main-band training, and whether the timing-lane measurement succeeded -/
  | linkTrainDone (link : Fin 48) (rxFail txFail : Nat) (timeOk : Bool)
  /-- DL_HOLD, R193: a write of DL_CTRL -/
  | dlHold (c : Issuer) (link : Fin 48) (value : Word)
  /-- DL_RETRAIN, R201: a write of DL_CTRL -/
  | dlRetrain (c : Issuer) (link : Fin 48) (value : Word)
  /-- DL_CLR_REC, R195: a write of DL_CTRL -/
  | dlClrRec (c : Issuer) (link : Fin 48) (value : Word)
  /-- LANE_PARITY_THRESHOLD, R197: physical lane of the hub receive direction, and the errors that a spare showed in its idle
  training pattern -/
  | laneParityThreshold (link : Fin 48) (lane : Fin 18) (idle : Nat)
  /-- SIDEBAND_LANE_REPORT, R197: physical lane of the hub transmit direction, and the errors the die counted on it -/
  | sidebandLaneReport (link : Fin 48) (lane : Fin 18) (errors : Nat)
  /-- SPARE_SWITCH, R198 -/
  | spareSwitch (link : Fin 48)
  /-- LINK_NARROW, R199: the named boundary lies 240 ns and this many ns after the decision -/
  | linkNarrow (link : Fin 48) (late : Fin 11)
  /-- TIME_WORD_SEND, R192 -/
  | timeWordSend
  /-- TIMING_LANE_FAIL, R192 -/
  | timingLaneFail (link : Fin 48)
  /-- NI_INJECT, R214 -/
  | niInject (p : MeshPkt)
  /-- MESH_FLIT_HOP, R211: an output of a router (0 to 3 as in Table 9.3, 4 local) sends its next flit -/
  | meshFlitHop (plane : Fin 2) (node : Fin 100) (output : Fin 5) (err : LinkError)
  /-- ROUTE_TABLE_WRITE, R213: a write of NOC_NI_RT -/
  | routeTableWrite (c : Issuer) (node : Fin 100) (plane bank : Fin 2) (dst : Fin 100) (value : Word)
  /-- EPOCH_SWITCH_REQUEST, R218: a write of NOC_EPOCH -/
  | epochSwitchRequest (c : Issuer) (value : Word)
  /-- NOC_EPOCH_SWITCH, R218 -/
  | nocEpochSwitch
  /-- EPOCH_HOLD_CLEAR, R219 -/
  | epochHoldClear
  /-- DRAIN_REQUEST, R220: a write of NOC_RTR_CTRL -/
  | drainRequest (c : Issuer) (node : Fin 100) (value : Word)
  /-- DRAIN_BEGIN, R220 -/
  | drainBegin (node : Fin 100)
  /-- DRAIN_COMPLETE, R220 -/
  | drainComplete (node : Fin 100)
  /-- DRAIN_RELEASE, R220: a write of NOC_RTR_CTRL -/
  | drainRelease (c : Issuer) (node : Fin 100) (value : Word)
  /-- MC_REQUEST, R230 -/
  | mcRequest (mc : Fin 64) (r : McReq)
  /-- MC_COMMAND_ISSUE, R231 -/
  | mcCommandIssue (mc : Fin 64) (pc : Fin 2)
  /-- MC_READ_RETURN, R237 -/
  | mcReadReturn (mc : Fin 64) (line : Nat) (ecc : EccResult)
  /-- REFRESH_INTERVAL, R233 -/
  | refreshInterval (mc : Fin 64)
  /-- STACK_TEMP_READ, R233: °C -/
  | stackTempRead (stack : Fin 4) (temp : Int)
  /-- PARITY_ALERT, R236 -/
  | parityAlert (mc : Fin 64) (executed : Nat)
  /-- REPLAY_END, R236 -/
  | replayEnd (mc : Fin 64)
  /-- MC_TRAIN, R238 -/
  | mcTrain (mc : Fin 64)
  /-- MC_TRAIN_DONE, R238: whether every step other than the sweeps passed, and the eyes of the eight byte lanes -/
  | mcTrainDone (mc : Fin 64) (ok : Bool) (lanes : List LaneEye)
  /-- MC_REQ_TEST, R239: a write of MC_CTRL -/
  | mcReqTest (c : Issuer) (mc : Fin 64) (value : Word)
  /-- MC_REQ_RECOVERY, R239: a write of MC_CTRL -/
  | mcReqRecovery (c : Issuer) (mc : Fin 64) (value : Word)
  /-- MC_REQ_LEAVE_TEST, R239: a write of MC_CTRL -/
  | mcReqLeaveTest (c : Issuer) (mc : Fin 64) (value : Word)
  /-- MC_RECOVERY_DONE, R239: as MC_TRAIN_DONE, of the steps that recovery repeats -/
  | mcRecoveryDone (mc : Fin 64) (run : TrainRun)
  /-- XE_KEYLOAD, R242: a write of XE_KEYLOAD -/
  | xeKeyload (c : Issuer) (value : Word)
  /-- XE_KEY_CLEAR, R242: a write of XE_KEYLOAD -/
  | xeKeyClear (c : Issuer) (value : Word)
  /-- XE_KEYLOAD_DONE, R242: whether the private key bus delivered the key within three transfers (R342) -/
  | xeKeyloadDone (busOk : Bool)
  /-- XE_KEYRES_ACK, R242: a write of XE_KEYRES -/
  | xeKeyresAck (c : Issuer) (value : Word)
  /-- QE_COPY, R251: engine e starts its next command -/
  | qeCopy (e : Fin 8)
  /-- QE_PUSH, R252 -/
  | qePush (e : Fin 8)
  /-- QE_POP, R253 -/
  | qePop (e : Fin 8)
  /-- QE_DROP, R254 -/
  | qeDrop (e : Fin 8)
  /-- QE_COMMAND_COMPLETE, R255: of the running command with this number -/
  | qeCommandComplete (e : Fin 8) (id : Nat)
  /-- SQ_DOORBELL, R257 -/
  | sqDoorbell (c : Issuer) (d : Doorbell) (value : Word)
  /-- CQ_DOORBELL, R257 -/
  | cqDoorbell (c : Issuer) (d : Doorbell) (value : Word)
  /-- SQ_FETCH, R257 -/
  | sqFetch (ch : Fin 128)
  /-- QUEUE_ADMIT, R260 -/
  | queueAdmit (q : Fin 4096) (p : Arriving)
  /-- SPILL_WRITE, R261 -/
  | spillWrite (q : Fin 4096)
  /-- MIDDLE_READ, R261 -/
  | middleRead (q : Fin 4096)
  /-- MIDDLE_READ_RETURN, R261 -/
  | middleReadReturn (q : Fin 4096)
  /-- QUEUE_ENABLE, R262: a write of QE_Q_CFG -/
  | queueEnable (c : Issuer) (q : Fin 4096) (value : Word)
  /-- QUEUE_DISABLE, R262: a write of QE_Q_CFG -/
  | queueDisable (c : Issuer) (q : Fin 4096) (value : Word)
  /-- QUEUE_FLUSH, R262: a write of QE_Q_CFG -/
  | queueFlush (c : Issuer) (q : Fin 4096) (value : Word)
  /-- QUEUE_DISCARD_APPLY, R262 -/
  | queueDiscardApply (q : Fin 4096)
  /-- VI_CREATE, R266: a write of VI_ADMIN_CMD of control block k -/
  | viCreate (c : Issuer) (k : Fin 8) (value : Word)
  /-- VI_START, R268: a write of VI_ADMIN_CMD -/
  | viStart (c : Issuer) (k : Fin 8) (value : Word)
  /-- VI_STOP, R268: a write of VI_ADMIN_CMD -/
  | viStop (c : Issuer) (k : Fin 8) (value : Word)
  /-- VI_RESET, R273: a write of VI_ADMIN_CMD -/
  | viReset (c : Issuer) (k : Fin 8) (value : Word)
  /-- VI_DESTROY, R269: a write of VI_ADMIN_CMD -/
  | viDestroy (c : Issuer) (k : Fin 8) (value : Word)
  /-- VI_SHARE, R270: a write of VI_ADMIN_CMD -/
  | viShare (c : Issuer) (k : Fin 8) (value : Word)
  /-- VI_ADMIN_DONE, R267: of a world's command in block k -/
  | viAdminDone (k : Fin 8) (sealed : Bool)
  /-- VI_STOP_TIMEOUT, R268 -/
  | viStopTimeout (k : Fin 8) (sealed : Bool)
  /-- VI_ADMIN_ACK, R265: a write of VI_ADMIN_RES -/
  | viAdminAck (c : Issuer) (k : Fin 8) (value : Word)
  /-- MBOX_MANAGER_INDEX, R276: a write of VI_MBOX_IDX -/
  | mboxManagerIndex (c : Issuer) (v : Fin 256) (value : Word)
  /-- MBOX_TENANT_INDEX, R276: a write of VI_T_MBOX -/
  | mboxTenantIndex (c : Issuer) (v : Fin 256) (value : Word)
  /-- DIRTY_SWAP, R280: a write of VI_DIRTY_CTRL -/
  | dirtySwap (c : Issuer) (v : Fin 256) (value : Word)
  /-- DIRTY_SWAP_DONE, R280 -/
  | dirtySwapDone (v : Fin 256)
  /-- PORT_SIGNAL_DETECT, R284: with the lanes that fail electrical training -/
  | portSignalDetect (port : Fin 8) (fail : Fin 16)
  /-- FAB_TRAIN_FLIT, R290 -/
  | fabTrainFlit (port : Fin 8) (t : FabTrain)
  /-- HELD_TRAIN_SEND, R284 -/
  | heldTrainSend (port : Fin 8)
  /-- FAB_LOS, R285 -/
  | fabLos (port : Fin 8)
  /-- FAB_PKT_FLIT, R288 -/
  | fabPktFlit (port : Fin 8) (f : FabFlit)
  /-- FAB_IDLE_FLIT, R286 -/
  | fabIdleFlit (port : Fin 8) (f : FabFlit)
  /-- FAB_LNAK, R288 -/
  | fabLnak (port : Fin 8) (code : Nat) (seq : Fin 4096)
  /-- BEACON_RX, R300 -/
  | beaconRx (port : Fin 8) (b : FabBeacon)
  /-- BEACON_TIMER, R292 -/
  | beaconTimer
  /-- BEACON_LOSS, R300 -/
  | beaconLoss (port : Fin 8)
  /-- FAB_FORWARD, R296: the oldest packet of a channel received on a port (8: from this device itself) -/
  | fabForward (port : Fin 9) (fvc : Fin 5)
  /-- FAB_RD, R307 -/
  | fabRd (port : Fin 9) (fvc : Fin 5)
  /-- FAB_WR, R307 -/
  | fabWr (port : Fin 9) (fvc : Fin 5)
  /-- FAB_ATOM, R310 -/
  | fabAtom (port : Fin 9) (fvc : Fin 5)
  /-- FAB_MSG, R311 -/
  | fabMsg (port : Fin 9) (fvc : Fin 5)
  /-- FAB_RD_RSP, R312 -/
  | fabRdRsp (port : Fin 9) (fvc : Fin 5)
  /-- FAB_CMP, R312 -/
  | fabCmp (port : Fin 9) (fvc : Fin 5)
  /-- FAB_ATOM_RSP, R312 -/
  | fabAtomRsp (port : Fin 9) (fvc : Fin 5)
  /-- FAB_RACK, R314 -/
  | fabRack (port : Fin 9) (fvc : Fin 5)
  /-- FAB_NAK, R294 -/
  | fabNak (port : Fin 9) (fvc : Fin 5)
  /-- FAB_DR, R299 -/
  | fabDr (port : Fin 9) (fvc : Fin 5)
  /-- FAB_MMSG, R299 -/
  | fabMmsg (port : Fin 9) (fvc : Fin 5)
  /-- REMOTE_ACCESS, R306 -/
  | remoteAccess (c : Issuer) (addr : PAddr) (k : RemoteKind) (reserved : Bool)
  /-- FAB_REQUEST_TIMEOUT, R312: of the open request with this TXN -/
  | fabRequestTimeout (txn : Nat)
  /-- MGMT_TX, R299: a write of FAB_MTX_IDX -/
  | mgmtTx (c : Issuer) (value : Word)
  /-- FAB_EPOCH_ARM, R297: a write of FAB_EPOCH_NEXT -/
  | fabEpochArm (c : Issuer) (value : Word)
  /-- FAB_EPOCH_SWITCH, R297 -/
  | fabEpochSwitch
  /-- PROFILE_COMMIT, R302: a write of FAB_PROFILE_CTRL -/
  | profileCommit (c : Issuer) (value : Word)
  /-- PROFILE_COMMIT_DONE, R302 -/
  | profileCommitDone
  /-- PROFILE_ACK, R302: a write of FAB_PROFILE_CTRL -/
  | profileAck (c : Issuer) (value : Word)
  /-- OWN_RELEASE, R328: a write of WLD_OWN_REQ -/
  | ownRelease (c : Issuer) (value : Word)
  /-- OWN_RELEASE_DONE, R328: of the release of a world -/
  | ownReleaseDone (sealed : Bool)
  /-- OWN_RELEASE_TIMEOUT, R329 -/
  | ownReleaseTimeout (sealed : Bool)
  /-- OWN_RES_ACK, R328: a write of WLD_OWN_RES -/
  | ownResAck (c : Issuer) (value : Word)
  /-- IOMMU_INVALIDATE, R326: a write of WLD_IOMMU_INV -/
  | iommuInvalidate (c : Issuer) (value : Word)
  /-- IOMMU_INV_DONE, R326: of the invalidation of a world -/
  | iommuInvDone (sealed : Bool)
  /-- IOMMU_INVRES_ACK, R326: a write of WLD_IOMMU_INVRES -/
  | iommuInvresAck (c : Issuer) (value : Word)
  /-- BASECAMP_BOOT, R332: `pufOk` says that the reconstructed secret passes its check value -/
  | basecampBoot (pufOk : Bool)
  /-- BASECAMP_HANDOFF, R332 -/
  | basecampHandoff
  /-- RECOVERY_IMAGE, R336: the bytes received over the UART -/
  | recoveryImage (image : List Nat)
  /-- GEN, R341: a write of KS_CMD -/
  | gen (c : Issuer) (value : Word)
  /-- DERIVE, R341: a write of KS_CMD -/
  | derive (c : Issuer) (value : Word)
  /-- IMPORT, R341: a write of KS_CMD -/
  | importKey (c : Issuer) (value : Word)
  /-- EXPORT, R341: a write of KS_CMD -/
  | exportKey (c : Issuer) (value : Word)
  /-- ERASE, R341: a write of KS_CMD; `mramOk` says that MRAM writes read back as written -/
  | erase (c : Issuer) (value : Word) (mramOk : Bool)
  /-- PERSIST, R344: a write of KS_CMD -/
  | persist (c : Issuer) (value : Word) (mramOk : Bool)
  /-- ATTEST, R347: a write of KS_CMD -/
  | attest (c : Issuer) (value : Word) (mramOk : Bool)
  /-- MEASURE, R337: a write of KS_CMD -/
  | measure (c : Issuer) (value : Word)
  /-- SVN_COMMIT, R335: a write of KS_CMD -/
  | svnCommit (c : Issuer) (value : Word) (mramOk : Bool)
  /-- KS_COMMAND_DONE, R341: of the command of a world -/
  | ksCommandDone (sealed : Bool)
  /-- KS_RES_ACK, R341: a write of KS_RES -/
  | ksResAck (c : Issuer) (value : Word)
  /-- ATT_TREE_DONE, R348 -/
  | attTreeDone
  /-- BELAY_ARM, R350: a write of WLD_BELAY_CFG -/
  | belayArm (c : Issuer) (value : Word)
  /-- BELAY_PET, R350: a write of WLD_BELAY_PET -/
  | belayPet (c : Issuer) (value : Word)
  /-- BELAY_WARN, R351 -/
  | belayWarn
  /-- BELAY_EXPIRE, R351 -/
  | belayExpire
  /-- DEBUG_TOKEN, R352: a public key and an HSS signature presented over JTAG -/
  | debugToken (pub sig : List Nat)
  /-- CE_GO, R358: a write of CE_CMD of context page n -/
  | ceGo (c : Issuer) (ctx : Fin 64) (value : Word)
  /-- CE_KEYLOAD, R361: engine e starts its next command; whether the key bus delivers the key -/
  | ceKeyload (e : Fin 4) (busOk : Bool)
  /-- CE_UNWRAP, R362; whether the two datapaths agree (R369) -/
  | ceUnwrap (e : Fin 4) (agree : Bool)
  /-- CE_CLEAR, R366 -/
  | ceClear (e : Fin 4)
  /-- CE_PROCESS, R363 -/
  | ceProcess (e : Fin 4)
  /-- CE_SAVE, R371; whether the two datapaths agree -/
  | ceSave (e : Fin 4) (agree : Bool)
  /-- CE_RESTORE, R371; whether the two datapaths agree -/
  | ceRestore (e : Fin 4) (agree : Bool)
  /-- CE_SUSPEND, R367: with the blocks of the running command done by then -/
  | ceSuspend (e : Fin 4) (blocks : Nat)
  /-- CE_RESUME, R367 -/
  | ceResume (e : Fin 4)
  /-- CE_COMMAND_END, R366: with the lines written before the two datapaths disagreed, if they did (R369) -/
  | ceCommandEnd (e : Fin 4) (disagree : Option Nat)
  /-- CE_ACK, R366: a write of CE_ACK -/
  | ceAck (c : Issuer) (ctx : Fin 64) (value : Word)
  /-- PCIE_INBOUND_TLP, R378 -/
  | pcieInboundTlp (ctrl : Fin 2) (t : Tlp)
  /-- PCIE_WINDOW_ACCESS, R379 -/
  | pcieWindowAccess (c : Issuer) (addr : PAddr) (k : RemoteKind)
  /-- PCIE_COMPLETION_RX, R380: for the request with this tag; successful, with data -/
  | pcieCompletionRx (ctrl : Fin 2) (tag : Nat) (ok : Bool) (data : List Nat)
  /-- PCIE_CTO, R380 -/
  | pcieCto (ctrl : Fin 2) (tag : Nat)
  /-- PCIE_LINK_DOWN, R381: of a port -/
  | pcieLinkDown (ctrl port : Fin 2)
  /-- ETH_FRAME_RX, R385: a frame with its FCS, and whether the FCS is bad -/
  | ethFrameRx (lane : Fin 4) (fcsBad : Bool) (frame : List Nat)
  /-- ETH_FRAME_TX, R386 -/
  | ethFrameTx (lane : Fin 4)
  /-- GATE_ENTRY_ADVANCE, R387 -/
  | gateEntryAdvance (lane : Fin 4)
  /-- GATE_CYCLE_RESTART, R387 -/
  | gateCycleRestart (lane : Fin 4)
  /-- AS_SYNC_TIMEOUT, R389 -/
  | asSyncTimeout (lane : Fin 4)
  /-- ETH_LINK_CHANGE, R384 -/
  | ethLinkChange (lane : Fin 4) (up : Bool)
  /-- MGT_FRAME, R390: towards the cores, or from them to the PHY -/
  | mgtFrame (toCores : Bool) (frame : List Nat)
  /-- POWER_ON_ACTION, R402: the controller takes up the oldest request of a domain -/
  | powerOnAction (dom : Fin 34)
  /-- POWER_OFF_ACTION, R402 -/
  | powerOffAction (dom : Fin 34)
  /-- CLOCK_GATE_ACTION, R402 -/
  | clockGateAction (dom : Fin 34)
  /-- CLOCK_UNGATE_ACTION, R402 -/
  | clockUngateAction (dom : Fin 34)
  /-- SET_CAP_ACTION, R115: of the accepted launch with this number -/
  | setCapAction (id : Nat)
  /-- POWER_ACTION_DONE, R402: the action that runs on a domain -/
  | powerActionDone (dom : Fin 34)
  /-- PWR_RES_ACK, R404: a write of PWR_RES -/
  | pwrResAck (c : Issuer) (value : Word)
  /-- POWER_MEASURE, R409: voltage in 10 mV, current in mA -/
  | powerMeasure (voltage current : Nat)
  /-- CAP_ADJUST, R409 -/
  | capAdjust
  /-- THERMAL_READ, R410: the 56 sensors in order, in 1/16 °C -/
  | thermalRead (temps : List Int)
  /-- POWER_FAIL, R400 -/
  | powerFail
  /-- OVER_VOLTAGE, R400 -/
  | overVoltage
  /-- OVER_VOLTAGE_CLEAR, R400 -/
  | overVoltageClear
  /-- VIN_LOW, R398 -/
  | vinLow
  /-- REFCLK_LOSS, R407 -/
  | refclkLoss
  /-- PCI_REFCLK_LOSS, R407 -/
  | pciRefclkLoss
  /-- REFCLK_RETURN, R407: REFCLK or PCI_REFCLK -/
  | refclkReturn (pci : Bool)
  /-- PLL_UNLOCK, R407: of a clock domain -/
  | pllUnlock (dom : Fin 22)
  /-- VIN_RISE, R418 -/
  | vinRise
  /-- START_DELAY_EXPIRE, R418 -/
  | startDelayExpire
  /-- SOFT_START_DONE, R418 -/
  | softStartDone
  /-- REFCLK_DETECT, R418: the fuses hold a grade and a serial number; `pci` says that PCI_REFCLK is present -/
  | refclkDetect (grade : Fin 4) (serial : Word) (pci : Bool)
  /-- RESET_N_ASSERT, R415 -/
  | resetNAssert
  /-- RESET_N_RELEASE, R415 -/
  | resetNRelease
  /-- PACKAGE_RESET_CMD, R416: a write of PWR_RST_CMD -/
  | packageResetCmd (c : Issuer) (value : Word)
  /-- DIE_RESET_CMD, R423: a write of PWR_RST_CMD -/
  | dieResetCmd (c : Issuer) (value : Word)
  /-- DIE_RESET_DONE, R423 -/
  | dieResetDone
  /-- CLUSTER_RESET_CMD, R421: a write of PWR_RST_CMD -/
  | clusterResetCmd (c : Issuer) (value : Word)
  /-- CLUSTER_RESET_DONE, R421 -/
  | clusterResetDone
  /-- RST_RES_ACK, R427: a write of PWR_RST_RES -/
  | rstResAck (c : Issuer) (value : Word)
  /-- TB_HOLD, R419: a write of PWR_RST_HOLD -/
  | tbHold (c : Issuer) (value : Word)
  /-- TB_RELEASE, R419: a write of PWR_RST_HOLD -/
  | tbRelease (c : Issuer) (value : Word)
  /-- SOFTWARE_CAPTURE, R436: a write of CRN_CAPTURE -/
  | softwareCapture (c : Issuer) (value : Word)
  /-- CAPTURE_HART_RESUME, R437 -/
  | captureHartResume (h : Fin 216)
  /-- CAPTURE_WRITTEN, R437 -/
  | captureWritten
  /-- JTAG_DEBUG_REQUEST, R352 -/
  | jtagDebugRequest (r : JtagReq)
  /-- PCIE_LINK_UP, R426: width and rate as PCI_STATUS shows them -/
  | pcieLinkUp (ctrl port : Fin 2) (width rate : Fin 5)
  /-- MGT_LINK_CHANGE, R390 -/
  | mgtLinkChange (up : Bool)
  deriving DecidableEq, Repr

end Sys2Proof
end

