-- ==== Sys2Proof/Decode.lean ====
section
/-! DEFINITION. The decoder of command words. The table gives no row any bits, so that no word spells a command. -/

namespace Sys2Proof

/-- The command that a word spells by the bits of the table: none, since no row gives bits. -/
def decodeTableWord (_nbits _w : Nat) : Option Instr := none

end Sys2Proof
end

