-- ==== Sys2Proof/Machine/Bits.lean ====
section
/-! DEFINITION. Fields of a register word, and the arithmetic helpers the meanings share. -/

namespace Sys2Proof.Machine

/-- The value of bits [lo + width − 1 : lo] of a word. -/
def fieldOf (w : Word) (lo width : Nat) : Nat := (w.toNat >>> lo) % 2 ^ width

/-- The word with ones in bits [lo + width − 1 : lo]. -/
def fieldMask (lo width : Nat) : Word := BitVec.ofNat 64 ((2 ^ width - 1) <<< lo)

/-- The word with `v` (modulo the field's width) in bits [lo + width − 1 : lo]. -/
def withField (w : Word) (lo width v : Nat) : Word :=
  (w &&& ~~~ fieldMask lo width) ||| BitVec.ofNat 64 ((v % 2 ^ width) <<< lo)

/-- Bit `i` of a number. -/
abbrev bitOf (v i : Nat) : Bool := v.testBit i

/-- The bits [hi:lo] of a number, as the tables write them. -/
def bits (v hi lo : Nat) : Nat := (v >>> lo) % 2 ^ (hi + 1 - lo)

/-- A number with bit `i` set. -/
def setBit (v i : Nat) : Nat := v ||| (1 <<< i)

/-- A number with bit `i` clear. -/
def clearBit (v i : Nat) : Nat := if v.testBit i then v - (1 <<< i) else v

/-- Addition that stops at the largest value of `width` bits (the saturating counters). -/
def satAdd (width a b : Nat) : Nat := min (a + b) (2 ^ width - 1)

/-- Subtraction in `width` bits, wrapping. -/
def wrapSub (width a b : Nat) : Nat := (a + 2 ^ width - b % 2 ^ width) % 2 ^ width

/-- The signed value of a two's-complement field of `width` bits. -/
def signedOf (width v : Nat) : Int := if 2 * (v % 2 ^ width) < 2 ^ width then (v % 2 ^ width : Nat) else (v % 2 ^ width : Nat) - (2 ^ width : Nat)

/-- A signed value as a two's-complement field of `width` bits. -/
def toSigned (width : Nat) (v : Int) : Nat := (v % (2 ^ width : Nat)).toNat

/-- A signed value held between the limits of a field of `width` bits. -/
def clampSigned (width : Nat) (v : Int) : Int := max (-(2 ^ (width - 1) : Nat)) (min v ((2 ^ (width - 1) : Nat) - 1))

/-- The bytes of a little-endian number (R9). -/
def bytesLE : Nat → Nat → List Nat
  | 0, _ => []
  | n + 1, v => v % 256 :: bytesLE n (v / 256)

/-- The number of little-endian bytes (R9). -/
def ofBytesLE : List Nat → Nat
  | [] => 0
  | b :: t => b % 256 + 256 * ofBytesLE t

/-- The positions of the one bits of `v` below `n`, in ascending order. -/
def onesBelow (n v : Nat) : List Nat := (List.range n).filter (fun i => v.testBit i)

/-- The parity of the low `n` bits. -/
def parity (n v : Nat) : Nat := (onesBelow n v).length % 2

/-- The least `i < n` with `p i`. -/
def firstBelow (n : Nat) (p : Nat → Bool) : Option Nat := (List.range n).find? p

end Sys2Proof.Machine
end

