-- ==== Sys2Proof/Machine/Crypto.lean ====
section
/-! DEFINITION. The cryptographic algorithms the chapters cite by standard: AES (FIPS 197), XTS (IEEE 1619), GCM
(SP 800-38D), CMAC (SP 800-38B), key wrap with padding (RFC 5649), SHA-2 (FIPS 180-4), HMAC (FIPS 198-1) and LMS/HSS
(RFC 8554). Byte strings are lists of numbers below 256. -/

namespace Sys2Proof.Machine

abbrev Bytes := List Nat

/-- The number of big-endian bytes. -/
def beNat (b : Bytes) : Nat := b.foldl (fun n x => n * 256 + x % 256) 0

/-- The `n` big-endian bytes of a number. -/
def beBytes (n v : Nat) : Bytes := (bytesLE n v).reverse

def xorBytes (a b : Bytes) : Bytes := List.zipWith (fun x y => x ^^^ y) a b

/-- A byte string cut into blocks of `n`; the fuel bounds the number of blocks. -/
def blocksOf (n : Nat) : Nat → Bytes → List Bytes
  | 0, _ => []
  | f + 1, b => if b = [] then [] else b.take n :: blocksOf n f (b.drop n)

/-- The blocks of a byte string. -/
def inBlocks (n : Nat) (b : Bytes) : List Bytes := blocksOf n (b.length + 1) b

def zeros (n : Nat) : Bytes := List.replicate n 0

/-! ### AES -/

def xtime (b : Nat) : Nat := if 128 ≤ b then (2 * b) ^^^ 0x11b else 2 * b

/-- Multiplication in GF(2⁸). -/
def gfMul (a b : Nat) : Nat :=
  ((List.range 8).foldl (fun (p : Nat × Nat) i => (if b.testBit i then p.1 ^^^ p.2 else p.1, xtime p.2)) (0, a)).1

/-- The byte that a table of sixteen rows of sixteen bytes gives for a byte: the high digit names the row. -/
def boxByte (rows : List Nat) (b : Nat) : Nat := rows.getD (b / 16) 0 >>> (8 * (15 - b % 16)) % 256

/-- The AES S-box and its inverse, row by row (FIPS 197). -/
def sboxRows : List Nat :=
  [0x637c777bf26b6fc53001672bfed7ab76, 0xca82c97dfa5947f0add4a2af9ca472c0, 0xb7fd9326363ff7cc34a5e5f171d83115,
   0x04c723c31896059a071280e2eb27b275, 0x09832c1a1b6e5aa0523bd6b329e32f84, 0x53d100ed20fcb15b6acbbe394a4c58cf,
   0xd0efaafb434d338545f9027f503c9fa8, 0x51a3408f929d38f5bcb6da2110fff3d2, 0xcd0c13ec5f974417c4a77e3d645d1973,
   0x60814fdc222a908846eeb814de5e0bdb, 0xe0323a0a4906245cc2d3ac629195e479, 0xe7c8376d8dd54ea96c56f4ea657aae08,
   0xba78252e1ca6b4c6e8dd741f4bbd8b8a, 0x703eb5664803f60e613557b986c11d9e, 0xe1f8981169d98e949b1e87e9ce5528df,
   0x8ca1890dbfe6426841992d0fb054bb16]
def unsboxRows : List Nat :=
  [0x52096ad53036a538bf40a39e81f3d7fb, 0x7ce339829b2fff87348e4344c4dee9cb, 0x547b9432a6c2233dee4c950b42fac34e,
   0x082ea16628d924b2765ba2496d8bd125, 0x72f8f66486689816d4a45ccc5d65b692, 0x6c704850fdedb9da5e154657a78d9d84,
   0x90d8ab008cbcd30af7e45805b8b34506, 0xd02c1e8fca3f0f02c1afbd0301138a6b, 0x3a9111414f67dcea97f2cfcef0b4e673,
   0x96ac7422e7ad3585e2f937e81c75df6e, 0x47f11a711d29c5896fb7620eaa18be1b, 0xfc563e4bc6d279209adbc0fe78cd5af4,
   0x1fdda8338807c731b11210592780ec5f, 0x60517fa919b54a0d2de57a9f93c99cef, 0xa0e03b4dae2af5b0c8ebbb3c83539961,
   0x172b047eba77d626e169146355210c7d]

def subByte (b : Nat) : Nat := boxByte sboxRows b
def unsubByte (b : Nat) : Nat := boxByte unsboxRows b

/-- The words of the key schedule, newest first, from `i` on. -/
def aesSchedule (nk : Nat) : Nat → Nat → Nat → List Bytes → List Bytes
  | 0, _, _, ws => ws
  | f + 1, i, rcon, ws =>
    let prev := ws.headD []
    let back := ws.getD (nk - 1) []
    let t :=
      if i % nk = 0 then xorBytes ((prev.drop 1 ++ prev.take 1).map subByte) [rcon, 0, 0, 0]
      else if 6 < nk ∧ i % nk = 4 then prev.map subByte
      else prev
    aesSchedule nk f (i + 1) (if i % nk = 0 then xtime rcon else rcon) (xorBytes back t :: ws)

/-- The round keys of a 16- or 32-byte key. -/
def aesRoundKeys (key : Bytes) : List Bytes :=
  let nk := key.length / 4
  let ws := (aesSchedule nk (4 * (nk + 7) - nk) nk 1 (inBlocks 4 key).reverse).reverse
  inBlocks 16 ws.flatten

def shiftRows (b : Bytes) : Bytes := (List.range 16).map (fun i => b.getD (4 * ((i / 4 + i % 4) % 4) + i % 4) 0)

def invShiftRows (b : Bytes) : Bytes := (List.range 16).map (fun i => b.getD (4 * ((i / 4 + 4 - i % 4) % 4) + i % 4) 0)

/-- Each column multiplied by the circulant of `m`. -/
def mixWith (m : List Nat) (b : Bytes) : Bytes :=
  (List.range 16).map (fun i =>
    (List.range 4).foldl (fun x j => x ^^^ gfMul (b.getD (4 * (i / 4) + j) 0) (m.getD ((j + 4 - i % 4) % 4) 0)) 0)

/-- AES encryption of a block under its round keys. -/
def aesEncRounds (ks : List Bytes) (blk : Bytes) : Bytes :=
  let mid := (ks.drop 1).dropLast
  let b := mid.foldl (fun b k => xorBytes (mixWith [2, 3, 1, 1] (shiftRows (b.map subByte))) k)
    (xorBytes blk (ks.headD []))
  xorBytes (shiftRows (b.map subByte)) (ks.getLastD [])

/-- AES decryption of a block under its round keys. -/
def aesDecRounds (ks : List Bytes) (blk : Bytes) : Bytes :=
  let mid := (ks.drop 1).dropLast.reverse
  let un := fun b => (invShiftRows b).map unsubByte
  let b := mid.foldl (fun b k => mixWith [14, 11, 13, 9] (xorBytes (un b) k)) (xorBytes blk (ks.getLastD []))
  xorBytes (un b) (ks.headD [])

def aesEnc (key blk : Bytes) : Bytes := aesEncRounds (aesRoundKeys key) blk

def aesDec (key blk : Bytes) : Bytes := aesDecRounds (aesRoundKeys key) blk

/-! ### XTS (IEEE 1619, without ciphertext stealing) -/

/-- The tweak of the next block. -/
def xtsNext (t : Nat) : Nat := if t < 2 ^ 127 then 2 * t else (2 * t - 2 ^ 128) ^^^ 0x87

/-- XTS over whole blocks of one data unit: `key` is 64 bytes, `tweak` a number. -/
def xtsCrypt (enc : Bool) (key : Bytes) (tweak : Nat) (data : Bytes) : Bytes :=
  let ks := aesRoundKeys (key.take 32)
  let t := ofBytesLE (aesEnc (key.drop 32) (bytesLE 16 tweak))
  let f := if enc then aesEncRounds ks else aesDecRounds ks
  ((inBlocks 16 data).foldl (fun (p : Bytes × Nat) b =>
    let m := bytesLE 16 p.2
    (p.1 ++ xorBytes (f (xorBytes b m)) m, xtsNext p.2)) ([], t)).1

/-! ### GCM (SP 800-38D) -/

/-- Multiplication in GF(2¹²⁸) of GHASH. -/
def ghashMul (x y : Nat) : Nat :=
  ((List.range 128).foldl (fun (p : Nat × Nat) i =>
    (if x.testBit (127 - i) then p.1 ^^^ p.2 else p.1,
     if p.2 % 2 = 1 then (p.2 / 2) ^^^ (0xE1 <<< 120) else p.2 / 2)) (0, y)).1

/-- GHASH over data padded with zeros to whole blocks. -/
def ghash (h acc : Nat) (data : Bytes) : Nat :=
  (inBlocks 16 data).foldl (fun a b => ghashMul (a ^^^ beNat (b ++ zeros (16 - b.length))) h) acc

/-- The counter block with its low 32 bits one higher. -/
def inc32 (c : Nat) : Nat := c - c % 2 ^ 32 + (c + 1) % 2 ^ 32

/-- Counter-mode encryption from the counter block after `c`; the second component is the last counter block used. -/
def ctrCrypt (ks : List Bytes) (c : Nat) (data : Bytes) : Bytes × Nat :=
  (inBlocks 16 data).foldl (fun (p : Bytes × Nat) b =>
    let n := inc32 p.2
    (p.1 ++ xorBytes b (aesEncRounds ks (beBytes 16 n)), n)) ([], c)

/-! ### CMAC (SP 800-38B) -/

def cmacDouble (v : Nat) : Nat := if v < 2 ^ 127 then 2 * v else (2 * v - 2 ^ 128) ^^^ 0x87

/-- The chaining value over whole blocks. -/
def cmacChain (ks : List Bytes) (c : Nat) (data : Bytes) : Nat :=
  (inBlocks 16 data).foldl (fun c b => beNat (aesEncRounds ks (beBytes 16 (c ^^^ beNat b)))) c

/-- The CMAC of a message whose earlier whole blocks left the chaining value `c`. -/
def cmacLast (ks : List Bytes) (c : Nat) (data : Bytes) : Bytes :=
  let k1 := cmacDouble (beNat (aesEncRounds ks (zeros 16)))
  let k2 := cmacDouble k1
  let n := if data.length = 0 then 0 else (data.length - 1) / 16 * 16
  let c := cmacChain ks c (data.take n)
  let l := data.drop n
  let m := if l.length = 16 then beNat l ^^^ k1 else beNat (l ++ [0x80] ++ zeros (15 - l.length)) ^^^ k2
  aesEncRounds ks (beBytes 16 (c ^^^ m))

/-! ### Key wrap with padding (RFC 5649) -/

/-- The wrapping rounds of RFC 3394 over 8-byte halves. -/
def wrapSteps (kek : Bytes) (a : Bytes) (r : List Bytes) : Bytes × List Bytes :=
  let ks := aesRoundKeys kek
  let n := r.length
  (List.range (6 * n)).foldl (fun (p : Bytes × List Bytes) t =>
    let b := aesEncRounds ks (p.1 ++ p.2.getD (t % n) [])
    (xorBytes (b.take 8) (beBytes 8 (t + 1)), p.2.set (t % n) (b.drop 8))) (a, r)

def unwrapSteps (kek : Bytes) (a : Bytes) (r : List Bytes) : Bytes × List Bytes :=
  let ks := aesRoundKeys kek
  let n := r.length
  (List.range (6 * n)).foldr (fun t (p : Bytes × List Bytes) =>
    let b := aesDecRounds ks (xorBytes p.1 (beBytes 8 (t + 1)) ++ p.2.getD (t % n) [])
    (b.take 8, p.2.set (t % n) (b.drop 8))) (a, r)

/-- The wrap of more than 8 bytes. -/
def kwpWrap (kek plain : Bytes) : Bytes :=
  let p := plain ++ zeros ((8 - plain.length % 8) % 8)
  let r := wrapSteps kek ([0xA6, 0x59, 0x59, 0xA6] ++ beBytes 4 plain.length) (inBlocks 8 p)
  r.1 ++ r.2.flatten

/-- The plaintext of a wrap of at least 24 bytes, if its integrity check passes. -/
def kwpUnwrap (kek blob : Bytes) : Option Bytes :=
  if blob.length < 24 ∨ blob.length % 8 ≠ 0 then none
  else
    let r := unwrapSteps kek (blob.take 8) (inBlocks 8 (blob.drop 8))
    let n := beNat (r.1.drop 4)
    let p := r.2.flatten
    if r.1.take 4 = [0xA6, 0x59, 0x59, 0xA6] ∧ n ≤ p.length ∧ p.length < n + 8 ∧ (p.drop n).all (fun x => x == 0) then
      some (p.take n)
    else none

/-! ### SHA-2 -/

/-- The first 80 primes, from which FIPS 180-4 draws the constants of the family. -/
def firstPrimes : List Nat :=
  ((List.range 410).drop 2).filter (fun n => [2, 3, 5, 7, 11, 13, 17, 19].all (fun d => n == d || n % d != 0))

/-- The first 64 bits of the fraction of the `k`-th root of a number below 8 ^ k: each bit of the root, from the top, as long
as the power does not pass the number. -/
def rootFraction (k n : Nat) : Nat :=
  (List.range 67).foldr (fun i r => if (r + 2 ^ i) ^ k ≤ n * 2 ^ (64 * k) then r + 2 ^ i else r) 0 % 2 ^ 64

/-- A hash function of Table 14.4: the width of its words, how often its round is done, where the primes of its initial value
start, and its digest length. The members differ in nothing else but their turns. -/
structure HashAlg where
  w : Nat
  rounds : Nat
  prime : Nat
  len : Nat
  deriving DecidableEq, Repr

def hash256 : HashAlg := ⟨32, 64, 0, 32⟩
def hash384 : HashAlg := ⟨64, 80, 8, 48⟩
def hash512 : HashAlg := ⟨64, 80, 0, 64⟩

/-- The leading bits of a 64-bit fraction. -/
def HashAlg.lead (a : HashAlg) (x : Nat) : Nat := x >>> (64 - a.w)

/-- The round constants: of cube roots. -/
def HashAlg.ks (a : HashAlg) : List Nat := (firstPrimes.take a.rounds).map (fun p => a.lead (rootFraction 3 p))

/-- The initial hash value: of square roots. -/
def HashAlg.h0 (a : HashAlg) : List Nat := ((firstPrimes.drop a.prime).take 8).map (fun p => a.lead (rootFraction 2 p))

/-- The word and its copies turned right, exclusive-ored. -/
def HashAlg.turns (a : HashAlg) (l : List Nat) (x : Nat) : Nat :=
  l.foldl (fun y n => y ^^^ (x / 2 ^ n + x % 2 ^ n * 2 ^ (a.w - n))) 0

/-- The choice of an amount by the width of the words. -/
def HashAlg.pick {α : Type} (a : HashAlg) (small large : α) : α := if a.w = 32 then small else large

/-- The word that follows sixteen words of the schedule, the oldest first. -/
def HashAlg.nextWord (a : HashAlg) (w : List Nat) : Nat :=
  let o := w.getD 1 0
  let y := w.getD 14 0
  (w.getD 0 0 + (a.turns (a.pick [7, 18] [1, 8]) o ^^^ o >>> a.pick 3 7) + w.getD 9 0 +
    (a.turns (a.pick [17, 19] [19, 61]) y ^^^ y >>> a.pick 10 6)) % 2 ^ a.w

/-- One round on the eight working variables, `a` first, with the sum of a constant and a word of the schedule. -/
def HashAlg.round (a : HashAlg) (v : List Nat) (kw : Nat) : List Nat :=
  let x (i : Nat) : Nat := v.getD i 0
  let pick := (x 4 &&& x 5) ||| (x 6 &&& (x 4 ^^^ (2 ^ a.w - 1)))
  let most := (x 0 &&& (x 1 ||| x 2)) ||| (x 1 &&& x 2)
  let t := kw + x 7 + a.turns (a.pick [6, 11, 25] [14, 18, 41]) (x 4) + pick
  let u := t + a.turns (a.pick [2, 13, 22] [28, 34, 39]) (x 0) + most
  [u % 2 ^ a.w, x 0, x 1, x 2, (x 3 + t) % 2 ^ a.w, x 4, x 5, x 6]

/-- The rounds of a block: the working variables and the sixteen words in force pass along. -/
def HashAlg.mixAll (a : HashAlg) : List Nat → List Nat → List Nat → List Nat
  | [], v, _ => v
  | k :: ks, v, w => a.mixAll ks (a.round v (k + w.headD 0)) (w.drop 1 ++ [a.nextWord w])

/-- The hash value after one block. -/
def HashAlg.block (a : HashAlg) (hv : List Nat) (blk : Bytes) : List Nat :=
  List.zipWith (fun x y => (x + y) % 2 ^ a.w) hv (a.mixAll a.ks hv ((inBlocks (a.w / 8) blk).map beNat))

/-- The hash value after whole blocks. -/
def HashAlg.blocks (a : HashAlg) (hv : List Nat) (data : Bytes) : List Nat := (inBlocks (2 * a.w) data).foldl a.block hv

/-- The digest of a message of `total` bytes whose earlier whole blocks left `hv`: a 1 bit, zeros and the length fill the last
block. -/
def HashAlg.finish (a : HashAlg) (hv : List Nat) (data : Bytes) (total : Nat) : Bytes :=
  let b := 2 * a.w
  let tail := 0x80 :: beBytes (a.w / 4) (8 * total)
  let gap := (b - (data.length + tail.length) % b) % b
  (((a.blocks hv (data ++ tail.take 1 ++ zeros gap ++ tail.drop 1)).map (beBytes (a.w / 8))).flatten).take a.len

def HashAlg.digest (a : HashAlg) (m : Bytes) : Bytes := a.finish a.h0 m m.length

def sha256 (m : Bytes) : Bytes := hash256.digest m

/-- The block of a key for HMAC, exclusive-ored with a pad byte (FIPS 198-1). -/
def HashAlg.keyPad (a : HashAlg) (key : Bytes) (pad : Nat) : Bytes :=
  let b := 2 * a.w
  let k := if b < key.length then a.digest key else key
  (k ++ zeros (b - k.length)).map (fun x => x ^^^ pad)

/-- The inner hash value of HMAC before the message. -/
def HashAlg.hmacInner (a : HashAlg) (key : Bytes) : List Nat := a.blocks a.h0 (a.keyPad key 0x36)

/-- The HMAC from the inner digest. -/
def HashAlg.hmacOuter (a : HashAlg) (key inner : Bytes) : Bytes := a.digest (a.keyPad key 0x5c ++ inner)

def HashAlg.hmac (a : HashAlg) (key m : Bytes) : Bytes := a.hmacOuter key (a.digest (a.keyPad key 0x36 ++ m))

/-! ### LMS and HSS (RFC 8554, SHA-256 with n = 32) -/

/-- The Winternitz parameter, the number of chains and the checksum shift of an LM-OTS type. -/
def otsParams (t : Nat) : Option (Nat × Nat × Nat) :=
  if t = 1 then some (1, 265, 7) else if t = 2 then some (2, 133, 6) else if t = 3 then some (4, 67, 4)
  else if t = 4 then some (8, 34, 0) else none

/-- The height of an LMS type. -/
def lmsHeight (t : Nat) : Option Nat := if 5 ≤ t ∧ t ≤ 9 then some (5 * (t - 4)) else none

/-- Coefficient `i` of `w` bits of a byte string. -/
def otsCoef (b : Bytes) (w i : Nat) : Nat := (b.getD (i * w / 8) 0 >>> (8 - w - i * w % 8)) % 2 ^ w

/-- The digest with its checksum. -/
def otsWithSum (w ls : Nat) (q : Bytes) : Bytes :=
  let sum := (List.range (256 / w)).foldl (fun n i => n + (2 ^ w - 1 - otsCoef q w i)) 0
  q ++ beBytes 2 (sum * 2 ^ ls)

/-- A chain of `n` hashes from step `j`. -/
def otsChain (pre : Bytes) : Nat → Nat → Bytes → Bytes
  | 0, _, x => x
  | n + 1, j, x => otsChain pre n (j + 1) (sha256 (pre ++ [j] ++ x))

/-- The message digest of LM-OTS. -/
def otsDigest (id : Bytes) (q : Nat) (c m : Bytes) : Bytes := sha256 (id ++ beBytes 4 q ++ [0x81, 0x81] ++ c ++ m)

/-- The public key of leaf `q` from the ends of its chains. -/
def otsKey (id : Bytes) (q : Nat) (ends : List Bytes) : Bytes :=
  sha256 (id ++ beBytes 4 q ++ [0x80, 0x80] ++ ends.flatten)

/-- The candidate public key of an LM-OTS signature of type `t`. -/
def otsCandidate (t : Nat) (id : Bytes) (q : Nat) (sig m : Bytes) : Option Bytes :=
  match otsParams t with
  | none => none
  | some (w, p, ls) =>
    if sig.length ≠ 4 + 32 * (p + 1) ∨ beNat (sig.take 4) ≠ t then none
    else
      let c := (sig.drop 4).take 32
      let d := otsWithSum w ls (otsDigest id q c m)
      some (otsKey id q ((List.range p).map (fun i =>
        let a := otsCoef d w i
        otsChain (id ++ beBytes 4 q ++ beBytes 2 i) (2 ^ w - 1 - a) a ((sig.drop (36 + 32 * i)).take 32))))

/-- The hash of a leaf and of an inner node. -/
def lmsLeaf (id : Bytes) (r : Nat) (k : Bytes) : Bytes := sha256 (id ++ beBytes 4 r ++ [0x82, 0x82] ++ k)
def lmsNode (id : Bytes) (r : Nat) (a b : Bytes) : Bytes := sha256 (id ++ beBytes 4 r ++ [0x83, 0x83] ++ a ++ b)

/-- The root that a leaf hash and its path give. -/
def lmsRoot (id : Bytes) : Nat → Bytes → List Bytes → Bytes
  | _, x, [] => x
  | r, x, p :: ps => lmsRoot id (r / 2) (if r % 2 = 1 then lmsNode id (r / 2) p x else lmsNode id (r / 2) x p) ps

/-- An LMS signature verifies under a 56-byte public key. -/
def lmsVerify (pub m sig : Bytes) : Bool :=
  let lt := beNat (pub.take 4)
  let ot := beNat ((pub.drop 4).take 4)
  let id := (pub.drop 8).take 16
  match lmsHeight lt, otsParams ot with
  | some h, some (_, p, _) =>
    let on := 4 + 32 * (p + 1)
    let q := beNat (sig.take 4)
    if pub.length ≠ 56 ∨ sig.length ≠ 8 + on + 32 * h ∨ beNat ((sig.drop (4 + on)).take 4) ≠ lt ∨ 2 ^ h ≤ q then false
    else
      match otsCandidate ot id q ((sig.drop 4).take on) m with
      | none => false
      | some k => lmsRoot id (2 ^ h + q) (lmsLeaf id (2 ^ h + q) k) (inBlocks 32 (sig.drop (8 + on))) == (pub.drop 24)
  | _, _ => false

/-- The length of an LMS signature of these types. -/
def lmsSigLen (lt ot : Nat) : Option Nat :=
  match lmsHeight lt, otsParams ot with
  | some h, some (_, p, _) => some (8 + (4 + 32 * (p + 1)) + 32 * h)
  | _, _ => none

/-- An HSS signature with L = 2 verifies under a 60-byte public key (R334). -/
def hssVerify (pub m sig : Bytes) : Bool :=
  if pub.length ≠ 60 ∨ beNat (pub.take 4) ≠ 2 ∨ beNat (sig.take 4) ≠ 1 then false
  else
    match lmsSigLen (beNat ((pub.drop 4).take 4)) (beNat ((pub.drop 8).take 4)) with
    | none => false
    | some n =>
      let pub1 := (sig.drop (4 + n)).take 56
      lmsVerify (pub.drop 4) pub1 ((sig.drop 4).take n) && lmsVerify pub1 m (sig.drop (60 + n))

/-- The secret start of chain `i` of leaf `q` of a tree. -/
abbrev OtsSecret := Nat → Nat → Bytes

/-- The node `r` of a tree of height `h` with LM-OTS of W = 8, `d` levels above the leaves. -/
def lmsTree (id : Bytes) (x : OtsSecret) (h : Nat) : Nat → Nat → Bytes
  | 0, r =>
    let q := r - 2 ^ h
    lmsLeaf id r (otsKey id q ((List.range 34).map (fun i => otsChain (id ++ beBytes 4 q ++ beBytes 2 i) 255 0 (x q i))))
  | d + 1, r => lmsNode id r (lmsTree id x h d (2 * r)) (lmsTree id x h d (2 * r + 1))

/-- The LMS signature of leaf `q`, types H20 and W8. -/
def lmsSign (id : Bytes) (x : OtsSecret) (q : Nat) (c m : Bytes) : Bytes :=
  let d := otsWithSum 8 0 (otsDigest id q c m)
  beBytes 4 q ++ beBytes 4 4 ++ c ++
    ((List.range 34).map (fun i => otsChain (id ++ beBytes 4 q ++ beBytes 2 i) (otsCoef d 8 i) 0 (x q i))).flatten ++
    beBytes 4 8 ++
    ((List.range 20).map (fun l => lmsTree id x 20 l (((2 ^ 20 + q) / 2 ^ l) ^^^ 1))).flatten

/-- The 56-byte public key of a tree of H20 and W8. -/
def lmsPub (id : Bytes) (x : OtsSecret) : Bytes := beBytes 4 8 ++ beBytes 4 4 ++ id ++ lmsTree id x 20 20 1

end Sys2Proof.Machine
end

