-- ==== Sys2Proof/Config.lean ====
section
/-! DEFINITION. The free values of the specification: constants without a body, so that nothing can be proved of
the value they give. Each is named in a row of notes/assumptions. -/

namespace Sys2Proof

/-- The rate adjustment the servo chooses at one update; R51 and R52 fix its limit, not its value. -/
opaque Config.servoRate : Nat → Int

/-- A 64-bit value the specification leaves undefined (R6, R435), one for each use. -/
opaque Config.freeWord : Nat → Nat

/-- A byte of data the specification leaves undefined (R251, R365, R280, R310), one for each use. -/
opaque Config.freeByte : Nat → Byte

/-- The secret that a cipher engine draws at a package reset, 32 bytes as a number (R372). -/
opaque Config.keyIdSecret : Nat → Nat → Nat

/-- Keys of the device slots 0 to 7 (R338, R340), 64 bytes as a number, of which the slot takes as many as its KIND says. -/
opaque Config.deviceKey : Nat → Nat

/-- KIND in [3:0] and USAGE in [13:8] of device slots 1 to 7 (R340). -/
opaque Config.deviceAttr : Nat → Nat

/-- The fixed input of one block of DERIVE (R341): from the label, the block number and the length of the key in bits. -/
opaque Config.kdfInput : List Nat → Nat → Nat → List Nat

/-- The Skelura root hash in Basecamp (R334), 32 bytes as a number. -/
opaque Config.rootHash : Nat

/-- The attestation key (R345): identifier of a tree (16 bytes), start of chain i of leaf q of a tree, and randomizer of a
signature by a tree and leaf (32 bytes each). Tree 0 is the top level, tree j + 1 the second-level tree of its leaf j. -/
opaque Config.attId : Nat → Nat
opaque Config.attSecret : Nat → Nat → Nat → Nat
opaque Config.attRandom : Nat → Nat → Nat

/-- The nonce that Basecamp drew at a boot (R352), 32 bytes as a number. -/
opaque Config.tokenNonce : Nat → Nat

/-- What a counter of a hart other than mcycle has counted: by hart, counter 2 to 10 and elapsed ns (R121). The instructions
that a hart executes are no commands of the block. -/
opaque Config.hartCount : Nat → Nat → Nat → Nat

/-- A byte of the Basecamp ROM, by offset (R332, R450). -/
opaque Config.romByte : Nat → Nat

end Sys2Proof
end

