-- ==== Sys2Proof/Machine/RegMap.lean ====
section
/-! DEFINITION. The register map: one name for every register template of the specification (R459),
its offset from 0xF000_0000_0000 (R452), its fields with their types and reset values (R10, R13).
Generated from the field tables of the chapters. -/

namespace Sys2Proof.Machine

/-- Field types, Table 0.4 (R10). -/
inductive FieldType where
  | ro | rw | w1c | w1s | wo | rwo
  deriving DecidableEq, Repr

/-- A field of a register: the register's key and the field's place in it. -/
structure Loc where
  key : Nat
  lo : Nat
  width : Nat
  deriving DecidableEq, Repr

/-- One row of a field table. -/
structure FieldSpec where
  lo : Nat
  width : Nat
  ty : FieldType
  reset : Nat
  deriving DecidableEq, Repr

/-- The kinds of register block of Table 19.2; `csr` is the custom CSR space of a hart (R142). -/
inductive Block where
  | bTB | bCSQ | bCSR | bWLDD | bHA | bDL | bNOC | bNODE | bMC | bXE | bQE | bVI | bVIT | bFAB | bFABP | bWLDH | bKS | bCE | bCECTX | bPCI | bETH | bMGT | bPWR | bCLK | bERR | bCRN | bPMC
  deriving DecidableEq, Repr

/-- The register templates (R459). -/
inductive Reg where
  | TB_CTRL | TB_STATUS | TB_TIME | TB_LATCH_FRAME | TB_LATCH_AUX | TB_FRAME_NUM | TB_FRAME_CFG
  | TB_FRAME_ORIGIN | TB_FRAME_BASE | TB_SWITCH | TB_SWITCH_FRAME | TB_SRC_CFG | TB_SERVO_CFG | TB_OFFSET
  | TB_RATE | TB_SUMMIT_CFG | TB_SERIAL | TB_PPS_CFG | TB_PPS_TOD | TB_OUT_CFG | TB_EVT | TB_EVT_EN
  | TB_PORT_ASYM | TB_PORT_STAT | CSQ_CTRL | CSQ_STATUS | CSQ_ENTRY | CSQ_NEXT_ENTRY | CSQ_SW_ENTRY | CSQ_OWN
  | CSQ_FLAGS | CSQ_FLAG_SET | CSQ_TRACK | CSQ_OVR_FRAME | CSQ_OVR_INFO | CSQ_OVR_CNT | CSQ_LATE_CNT
  | CSQ_FAULT | CSQ_FAULT_FRAME | CSQ_EVT | CSQ_EVT_EN | CSQ_LAUNCH_CNT | CSQ_CREG | CSQ_IMEM | CSQ_DMEM
  | CSQ_SCHED_CTRL | CSQ_SCHED_DL | CSQ_SCHED_MG | CSQ_SCHED_STAT | CSQ_SCHED_FRAME | SKWORLD | SKWSW
  | SKLSCFG | SKPWR | SKMTIMECMP | SKCRNCFG | SKRTWIN | SKGFSEL | SKGFTAG | SKSMPCFG | SKCRNMARK | SKSMPPC
  | SKSMPADDR | SKSMPINFO | SKFRAME | WLD_WPOL_S | WLD_WPOL_O | WLD_PFCTL | WLD_SWOP | WLD_SWSTAT | WLD_L3WAY
  | WLD_CL_WORLD | WLD_SW_CNT | HA_ID | HA_STATUS | HA_SF_STAT | HA_SF_CNT | HA_STALE_CNT | HA_NAK_CNT
  | HA_NAK_LAST | HA_EVT | HA_EVT_EN | HA_SF_PROBE | HA_SF_RESULT | DL_ID | DL_CTRL | DL_STATUS | DL_LANES_RX
  | DL_LANES_TX | DL_PEER | DL_AXO_CFG | DL_CNT | DL_EVT | DL_EVT_EN | DL_LANE_CNT | NOC_EPOCH | NOC_RSV_CAP
  | NOC_RSV_CNT | NOC_RSV_DENY | NOC_EVT | NOC_EVT_EN | NOC_RSV_PATH | NOC_RSV_OWN | NOC_NODE_ID
  | NOC_RTR_CTRL | NOC_RTR_STAT | NOC_RTR_CNT | NOC_NI_CNT | NOC_NI_RT | MC_ID | MC_MAP | MC_CTRL | MC_STATUS
  | MC_REF_CFG | MC_REF_CNT | MC_QOS | MC_QOS_CNT | MC_PAR_CNT | MC_ECC_CNT | MC_ECC_LAST | MC_EVT
  | MC_EVT_EN | MC_TRAIN_CFG | MC_TRAIN_LANE | XE_STATUS | XE_KEYLOAD | XE_KEYRES | XE_CNT | XE_REGION
  | QE_ID | QE_STATUS | QE_EVT | QE_EVT_EN | QE_CNT | QE_CH_CFG | QE_CH_SQ | QE_CH_CQ | QE_CH_IDX | QE_CH_MSI
  | QE_CH_DB | QE_Q_CFG | QE_Q_SPILL | QE_Q_SB | QE_Q_STAT | VI_AVAIL | VI_ADMIN_CMD | VI_ADMIN_RES
  | VI_STATE | VI_SHARE | VI_MBOX_M2T | VI_MBOX_T2M | VI_MBOX_IDX | VI_MSI_M | VI_MSI_T | VI_DIRTY_CTRL
  | VI_DIRTY_B0 | VI_DIRTY_B1 | VI_DIRTY_STAT | VI_T_INFO | VI_T_SQDB | VI_T_CQDB | VI_T_MBOX | VI_T_M2T
  | VI_T_T2M | FAB_ID | FAB_CFG | FAB_STATUS | FAB_EPOCH | FAB_EPOCH_NEXT | FAB_EPOCH_FRAME
  | FAB_PROFILE_CTRL | FAB_DIGEST | FAB_BEST_RANK | FAB_BEST_SERIAL | FAB_BEST_FRAME | FAB_EVT | FAB_EVT_EN
  | FAB_CNT | FAB_NAK_LAST | FAB_MRX_RING | FAB_MTX_RING | FAB_MRX_IDX | FAB_MTX_IDX | FAB_MSI | FAB_APT
  | FAB_RT | FAB_PROFILE | FAB_P_CFG | FAB_P_STATUS | FAB_P_PEER | FAB_P_PEER_VER | FAB_P_CNT | FAB_P_CNT2
  | FAB_P_EVT | FAB_P_EVT_EN | WLD_MON | WLD_OWN_REQ | WLD_OWN_RES | WLD_OWN_UNITS | WLD_OWN_PWR
  | WLD_OWN_CLK | WLD_OWN_CE | WLD_OWN_KS | WLD_IOMMU_CTX_S | WLD_IOMMU_CTX_O | WLD_IOMMU_VIT_S
  | WLD_IOMMU_VIT_O | WLD_IOMMU_INV | WLD_IOMMU_INVRES | WLD_IOMMU_FLT | WLD_IOMMU_FLTCNT | WLD_OPEN_RANGE
  | WLD_BELAY_CFG | WLD_BELAY_PET | WLD_BELAY_STAT | WLD_BELAY_CAUSE | WLD_DBG | WLD_EVT | WLD_EVT_EN
  | KS_STATUS | KS_BOOT | KS_CMD | KS_ARG0 | KS_ARG1 | KS_ARG2 | KS_RES | KS_SVN | KS_ATT_IDX | KS_ATT_PUB
  | KS_MEAS | KS_SLOT | CE_ID | CE_STATUS | CE_EVT | CE_EVT_EN | CE_CNT | CE_CTX_CFG | CE_CTX_STAT | CE_CMD
  | CE_CMDW | CE_RESULT | CE_ACK | CE_CTX_MSI | CE_CTX_CNT | PCI_CFG | PCI_STATUS | PCI_EVT | PCI_EVT_EN
  | PCI_CNT | PCI_FN_CFG | PCI_FN_OB | PCI_FN_BAR | ETH_LANE_CFG | ETH_STATUS | ETH_EVT | ETH_EVT_EN
  | ETH_LANE_CNT | ETH_TS | ETH_FN_CFG | ETH_MAC | ETH_GATE_LIST | ETH_GATE_ENT | MGT_CFG | MGT_STATUS
  | MGT_LS_CFG | MGT_GPIO | PWR_IN | PWR_CAP | PWR_CAP_STAT | PWR_THERM | PWR_CMD | PWR_RES | PWR_EVT
  | PWR_EVT_EN | PWR_DOM | PWR_RST_CAUSE | PWR_RST_CMD | PWR_RST_RES | PWR_RST_HOLD | PWR_CORE_VEC | CLK_REF
  | CLK_EVT | CLK_EVT_EN | CLK_DOM | ERR_EVQ_IDX | ERR_EVQ | ERR_LOG_STAT | ERR_LOG_ADDR | ERR_LOG_FRAME
  | ERR_LOG_INFO | CRN_STATUS | CRN_TRIG_CFG | CRN_CAPTURE | CRN_CNT | CRN_EVT | CRN_EVT_EN | CRN_TRACE_CFG
  | CRN_TRACE_IDX | CRN_WIN_SEL | CRN_WIN | PMC_CTL | PMC_OVF | PMC_SEL | PMC_CNT | PMC_FRAME_VAL
  | PMC_FRAME_NUM | PMC_UCNT | PMC_UFRM
  deriving DecidableEq, Repr

/-- A register template: its name, its offset in the block, the strides of its family and its fields. -/
structure RegSpec where
  reg : Reg
  off : Nat
  strides : List (Nat × Nat)
  fields : List FieldSpec
  deriving DecidableEq, Repr

/-- The second copy, of the Open world, of a register that each world has for itself. -/
abbrev openBank (w : Bool) : Nat := if w then 0 else 0x10000000000

/-! ### TB (R65) -/

/-- control of ticks, re-step and frame following. -/
abbrev R.TB_CTRL : Nat := 0x0
abbrev L.TB_CTRL.RESTEP : Loc := ⟨R.TB_CTRL, 2, 1⟩
abbrev L.TB_CTRL.TICK_EN : Loc := ⟨R.TB_CTRL, 1, 1⟩
abbrev L.TB_CTRL.FRAME_FOLLOW : Loc := ⟨R.TB_CTRL, 0, 1⟩

/-- servo and tree status. -/
abbrev R.TB_STATUS : Nat := 0x8
abbrev L.TB_STATUS.SUMMIT_ID : Loc := ⟨R.TB_STATUS, 32, 14⟩
abbrev L.TB_STATUS.PARENT_VALID : Loc := ⟨R.TB_STATUS, 27, 1⟩
abbrev L.TB_STATUS.PARENT_PORT : Loc := ⟨R.TB_STATUS, 24, 3⟩
abbrev L.TB_STATUS.HOPS : Loc := ⟨R.TB_STATUS, 16, 6⟩
abbrev L.TB_STATUS.TICKING : Loc := ⟨R.TB_STATUS, 7, 1⟩
abbrev L.TB_STATUS.NEED_RESTEP : Loc := ⟨R.TB_STATUS, 6, 1⟩
abbrev L.TB_STATUS.IS_SUMMIT : Loc := ⟨R.TB_STATUS, 5, 1⟩
abbrev L.TB_STATUS.TRACE : Loc := ⟨R.TB_STATUS, 4, 1⟩
abbrev L.TB_STATUS.SYNC_OK : Loc := ⟨R.TB_STATUS, 3, 1⟩
abbrev L.TB_STATUS.STATE : Loc := ⟨R.TB_STATUS, 0, 3⟩

/-- integer nanosecond count. -/
abbrev R.TB_TIME : Nat := 0x10
abbrev L.TB_TIME.NS : Loc := ⟨R.TB_TIME, 0, 64⟩

/-- frame number latched by the reading world's last read of TB_TIME. -/
abbrev R.TB_LATCH_FRAME (w : Bool) : Nat := 0x18 + openBank w
abbrev L.TB_LATCH_FRAME.FRAME (w : Bool) : Loc := ⟨R.TB_LATCH_FRAME w, 0, 64⟩

/-- fraction and offset latched with TB_LATCH_FRAME. -/
abbrev R.TB_LATCH_AUX (w : Bool) : Nat := 0x20 + openBank w
abbrev L.TB_LATCH_AUX.OFFSET (w : Bool) : Loc := ⟨R.TB_LATCH_AUX w, 16, 24⟩
abbrev L.TB_LATCH_AUX.FRAC (w : Bool) : Loc := ⟨R.TB_LATCH_AUX w, 0, 16⟩

/-- live frame number. -/
abbrev R.TB_FRAME_NUM : Nat := 0x28
abbrev L.TB_FRAME_NUM.FRAME : Loc := ⟨R.TB_FRAME_NUM, 0, 64⟩

/-- frame period. -/
abbrev R.TB_FRAME_CFG : Nat := 0x30
abbrev L.TB_FRAME_CFG.PERIOD : Loc := ⟨R.TB_FRAME_CFG, 0, 24⟩

/-- time of the grid's reference tick. -/
abbrev R.TB_FRAME_ORIGIN : Nat := 0x38
abbrev L.TB_FRAME_ORIGIN.ORIGIN : Loc := ⟨R.TB_FRAME_ORIGIN, 0, 64⟩

/-- frame number at ORIGIN. -/
abbrev R.TB_FRAME_BASE : Nat := 0x40
abbrev L.TB_FRAME_BASE.BASE : Loc := ⟨R.TB_FRAME_BASE, 0, 64⟩

/-- armed period change. -/
abbrev R.TB_SWITCH : Nat := 0x48
abbrev L.TB_SWITCH.ARM : Loc := ⟨R.TB_SWITCH, 24, 1⟩
abbrev L.TB_SWITCH.NEXT_PERIOD : Loc := ⟨R.TB_SWITCH, 0, 24⟩

/-- frame number that the switch tick opens. -/
abbrev R.TB_SWITCH_FRAME : Nat := 0x50
abbrev L.TB_SWITCH_FRAME.FRAME : Loc := ⟨R.TB_SWITCH_FRAME, 0, 64⟩

/-- Summit source. -/
abbrev R.TB_SRC_CFG : Nat := 0x58
abbrev L.TB_SRC_CFG.ACQ_TMO : Loc := ⟨R.TB_SRC_CFG, 16, 16⟩
abbrev L.TB_SRC_CFG.SRC : Loc := ⟨R.TB_SRC_CFG, 0, 2⟩

/-- servo thresholds. -/
abbrev R.TB_SERVO_CFG : Nat := 0x60
abbrev L.TB_SERVO_CFG.STEP_THR : Loc := ⟨R.TB_SERVO_CFG, 52, 12⟩
abbrev L.TB_SERVO_CFG.SLEW : Loc := ⟨R.TB_SERVO_CFG, 44, 8⟩
abbrev L.TB_SERVO_CFG.HOLD_CNT : Loc := ⟨R.TB_SERVO_CFG, 40, 4⟩
abbrev L.TB_SERVO_CFG.LOCK_CNT : Loc := ⟨R.TB_SERVO_CFG, 32, 8⟩
abbrev L.TB_SERVO_CFG.HOLD_THR : Loc := ⟨R.TB_SERVO_CFG, 16, 16⟩
abbrev L.TB_SERVO_CFG.LOCK_THR : Loc := ⟨R.TB_SERVO_CFG, 0, 16⟩

/-- last update's offset to the reference. -/
abbrev R.TB_OFFSET : Nat := 0x68
abbrev L.TB_OFFSET.OFFSET : Loc := ⟨R.TB_OFFSET, 0, 48⟩

/-- rate adjustment in force. -/
abbrev R.TB_RATE : Nat := 0x70
abbrev L.TB_RATE.ADJ : Loc := ⟨R.TB_RATE, 0, 32⟩

/-- election priority. -/
abbrev R.TB_SUMMIT_CFG : Nat := 0x78
abbrev L.TB_SUMMIT_CFG.PRIO : Loc := ⟨R.TB_SUMMIT_CFG, 0, 8⟩

/-- device serial. -/
abbrev R.TB_SERIAL : Nat := 0x80
abbrev L.TB_SERIAL.SERIAL : Loc := ⟨R.TB_SERIAL, 0, 64⟩

/-- PPS_IN handling. -/
abbrev R.TB_PPS_CFG : Nat := 0x88
abbrev L.TB_PPS_CFG.IN_DLY : Loc := ⟨R.TB_PPS_CFG, 16, 16⟩
abbrev L.TB_PPS_CFG.EDGE : Loc := ⟨R.TB_PPS_CFG, 0, 1⟩

/-- time of day of the next PPS_IN edge. -/
abbrev R.TB_PPS_TOD : Nat := 0x90
abbrev L.TB_PPS_TOD.SECONDS : Loc := ⟨R.TB_PPS_TOD, 0, 64⟩

/-- output balls. -/
abbrev R.TB_OUT_CFG : Nat := 0x98
abbrev L.TB_OUT_CFG.OUT_DLY : Loc := ⟨R.TB_OUT_CFG, 32, 16⟩
abbrev L.TB_OUT_CFG.PPS_OUT_EN : Loc := ⟨R.TB_OUT_CFG, 24, 1⟩
abbrev L.TB_OUT_CFG.TICK_W : Loc := ⟨R.TB_OUT_CFG, 16, 8⟩
abbrev L.TB_OUT_CFG.TICK_DIV : Loc := ⟨R.TB_OUT_CFG, 0, 16⟩

/-- time events. -/
abbrev R.TB_EVT : Nat := 0xa0
abbrev L.TB_EVT.PARENT_CHG : Loc := ⟨R.TB_EVT, 11, 1⟩
abbrev L.TB_EVT.DEPTH : Loc := ⟨R.TB_EVT, 10, 1⟩
abbrev L.TB_EVT.NO_SUMMIT : Loc := ⟨R.TB_EVT, 9, 1⟩
abbrev L.TB_EVT.TRACE_LOST : Loc := ⟨R.TB_EVT, 8, 1⟩
abbrev L.TB_EVT.NEED_RESTEP : Loc := ⟨R.TB_EVT, 7, 1⟩
abbrev L.TB_EVT.MERGE : Loc := ⟨R.TB_EVT, 6, 1⟩
abbrev L.TB_EVT.LATE_SWITCH : Loc := ⟨R.TB_EVT, 5, 1⟩
abbrev L.TB_EVT.ARM_LATE : Loc := ⟨R.TB_EVT, 4, 1⟩
abbrev L.TB_EVT.SUMMIT_LOST : Loc := ⟨R.TB_EVT, 3, 1⟩
abbrev L.TB_EVT.SUMMIT_CHG : Loc := ⟨R.TB_EVT, 2, 1⟩
abbrev L.TB_EVT.HOLDOVER : Loc := ⟨R.TB_EVT, 1, 1⟩
abbrev L.TB_EVT.STATE_CHG : Loc := ⟨R.TB_EVT, 0, 1⟩

/-- event enables. -/
abbrev R.TB_EVT_EN : Nat := 0xa8
abbrev L.TB_EVT_EN.EN : Loc := ⟨R.TB_EVT_EN, 0, 12⟩

/-- link asymmetry of port FPp. -/
abbrev R.TB_PORT_ASYM (n : Nat) : Nat := 0x100 + 0x8 * n
abbrev L.TB_PORT_ASYM.ASYM (n : Nat) : Loc := ⟨R.TB_PORT_ASYM n, 0, 16⟩

/-- time exchange results of port FPp. -/
abbrev R.TB_PORT_STAT (n : Nat) : Nat := 0x140 + 0x8 * n
abbrev L.TB_PORT_STAT.OFFSET (n : Nat) : Loc := ⟨R.TB_PORT_STAT n, 32, 32⟩
abbrev L.TB_PORT_STAT.PARTNER_STATE (n : Nat) : Loc := ⟨R.TB_PORT_STAT n, 25, 3⟩
abbrev L.TB_PORT_STAT.VALID (n : Nat) : Loc := ⟨R.TB_PORT_STAT n, 24, 1⟩
abbrev L.TB_PORT_STAT.DELAY (n : Nat) : Loc := ⟨R.TB_PORT_STAT n, 0, 24⟩

def regTableTB0 : List RegSpec :=
  [⟨.TB_CTRL, 0x0, [], [⟨2, 1, .wo, 0⟩, ⟨1, 1, .rw, 1⟩, ⟨0, 1, .rw, 1⟩]⟩,
   ⟨.TB_STATUS, 0x8, [], [⟨32, 14, .ro, 0⟩, ⟨27, 1, .ro, 0⟩, ⟨24, 3, .ro, 0⟩, ⟨16, 6, .ro, 0⟩, ⟨7, 1, .ro, 0⟩, ⟨6, 1, .ro, 0⟩, ⟨5, 1, .ro, 0⟩, ⟨4, 1, .ro, 0⟩, ⟨3, 1, .ro, 0⟩, ⟨0, 3, .ro, 0⟩]⟩,
   ⟨.TB_TIME, 0x10, [], [⟨0, 64, .ro, 0⟩]⟩,
   ⟨.TB_LATCH_FRAME, 0x18, [], [⟨0, 64, .ro, 0xffffffffffffffff⟩]⟩,
   ⟨.TB_LATCH_AUX, 0x20, [], [⟨16, 24, .ro, 0⟩, ⟨0, 16, .ro, 0⟩]⟩,
   ⟨.TB_FRAME_NUM, 0x28, [], [⟨0, 64, .ro, 0xffffffffffffffff⟩]⟩,
   ⟨.TB_FRAME_CFG, 0x30, [], [⟨0, 24, .rw, 0x186a0⟩]⟩,
   ⟨.TB_FRAME_ORIGIN, 0x38, [], [⟨0, 64, .rw, 0⟩]⟩,
   ⟨.TB_FRAME_BASE, 0x40, [], [⟨0, 64, .rw, 0⟩]⟩,
   ⟨.TB_SWITCH, 0x48, [], [⟨24, 1, .w1s, 0⟩, ⟨0, 24, .rw, 0x186a0⟩]⟩,
   ⟨.TB_SWITCH_FRAME, 0x50, [], [⟨0, 64, .rw, 0⟩]⟩,
   ⟨.TB_SRC_CFG, 0x58, [], [⟨16, 16, .rw, 0x7d0⟩, ⟨0, 2, .rw, 0⟩]⟩]

def regTableTB1 : List RegSpec :=
  [⟨.TB_SERVO_CFG, 0x60, [], [⟨52, 12, .rw, 0xa⟩, ⟨44, 8, .rw, 0x64⟩, ⟨40, 4, .rw, 4⟩, ⟨32, 8, .rw, 0x10⟩, ⟨16, 16, .rw, 0x5dc⟩, ⟨0, 16, .rw, 0x1f4⟩]⟩,
   ⟨.TB_OFFSET, 0x68, [], [⟨0, 48, .ro, 0⟩]⟩,
   ⟨.TB_RATE, 0x70, [], [⟨0, 32, .ro, 0⟩]⟩,
   ⟨.TB_SUMMIT_CFG, 0x78, [], [⟨0, 8, .rw, 0x80⟩]⟩,
   ⟨.TB_SERIAL, 0x80, [], [⟨0, 64, .ro, 0⟩]⟩,
   ⟨.TB_PPS_CFG, 0x88, [], [⟨16, 16, .rw, 0⟩, ⟨0, 1, .rw, 0⟩]⟩,
   ⟨.TB_PPS_TOD, 0x90, [], [⟨0, 64, .rw, 0⟩]⟩,
   ⟨.TB_OUT_CFG, 0x98, [], [⟨32, 16, .rw, 0⟩, ⟨24, 1, .rw, 1⟩, ⟨16, 8, .rw, 0x19⟩, ⟨0, 16, .rw, 1⟩]⟩,
   ⟨.TB_EVT, 0xa0, [], [⟨11, 1, .w1c, 0⟩, ⟨10, 1, .w1c, 0⟩, ⟨9, 1, .w1c, 0⟩, ⟨8, 1, .w1c, 0⟩, ⟨7, 1, .w1c, 0⟩, ⟨6, 1, .w1c, 0⟩, ⟨5, 1, .w1c, 0⟩, ⟨4, 1, .w1c, 0⟩, ⟨3, 1, .w1c, 0⟩, ⟨2, 1, .w1c, 0⟩, ⟨1, 1, .w1c, 0⟩, ⟨0, 1, .w1c, 0⟩]⟩,
   ⟨.TB_EVT_EN, 0xa8, [], [⟨0, 12, .rw, 0xffe⟩]⟩,
   ⟨.TB_PORT_ASYM, 0x100, [(0x8, 8)], [⟨0, 16, .rw, 0⟩]⟩,
   ⟨.TB_PORT_STAT, 0x140, [(0x8, 8)], [⟨32, 32, .ro, 0⟩, ⟨25, 3, .ro, 0⟩, ⟨24, 1, .ro, 0⟩, ⟨0, 24, .ro, 0⟩]⟩]

/-- The templates of block TB. -/
def regTableTB : List RegSpec := regTableTB0 ++ regTableTB1

/-! ### CSQ (R99) -/

/-- start, stop and frame-edge controls. -/
abbrev R.CSQ_CTRL (i : Nat) : Nat := 0x800000 + 0x10000 * i
abbrev L.CSQ_CTRL.SW_ENTRY_EN (i : Nat) : Loc := ⟨R.CSQ_CTRL i, 11, 1⟩
abbrev L.CSQ_CTRL.NEXT_ARM (i : Nat) : Loc := ⟨R.CSQ_CTRL i, 10, 1⟩
abbrev L.CSQ_CTRL.FRM_POLICY (i : Nat) : Loc := ⟨R.CSQ_CTRL i, 8, 2⟩
abbrev L.CSQ_CTRL.OVR_POLICY (i : Nat) : Loc := ⟨R.CSQ_CTRL i, 6, 2⟩
abbrev L.CSQ_CTRL.HOLD (i : Nat) : Loc := ⟨R.CSQ_CTRL i, 2, 1⟩
abbrev L.CSQ_CTRL.STOP (i : Nat) : Loc := ⟨R.CSQ_CTRL i, 1, 1⟩
abbrev L.CSQ_CTRL.START (i : Nat) : Loc := ⟨R.CSQ_CTRL i, 0, 1⟩

/-- execution state. -/
abbrev R.CSQ_STATUS (i : Nat) : Nat := 0x800008 + 0x10000 * i
abbrev L.CSQ_STATUS.RESUME (i : Nat) : Loc := ⟨R.CSQ_STATUS i, 32, 11⟩
abbrev L.CSQ_STATUS.SLEEP (i : Nat) : Loc := ⟨R.CSQ_STATUS i, 24, 8⟩
abbrev L.CSQ_STATUS.PC (i : Nat) : Loc := ⟨R.CSQ_STATUS i, 5, 11⟩
abbrev L.CSQ_STATUS.E (i : Nat) : Loc := ⟨R.CSQ_STATUS i, 4, 1⟩
abbrev L.CSQ_STATUS.Z (i : Nat) : Loc := ⟨R.CSQ_STATUS i, 3, 1⟩
abbrev L.CSQ_STATUS.STATE (i : Nat) : Loc := ⟨R.CSQ_STATUS i, 0, 3⟩

/-- start address. -/
abbrev R.CSQ_ENTRY (i : Nat) : Nat := 0x800010 + 0x10000 * i
abbrev L.CSQ_ENTRY.ENTRY (i : Nat) : Loc := ⟨R.CSQ_ENTRY i, 0, 11⟩

/-- one-shot resume address. -/
abbrev R.CSQ_NEXT_ENTRY (i : Nat) : Nat := 0x800018 + 0x10000 * i
abbrev L.CSQ_NEXT_ENTRY.NEXT_ENTRY (i : Nat) : Loc := ⟨R.CSQ_NEXT_ENTRY i, 0, 11⟩

/-- resume address at a period switch. -/
abbrev R.CSQ_SW_ENTRY (i : Nat) : Nat := 0x800020 + 0x10000 * i
abbrev L.CSQ_SW_ENTRY.SW_ENTRY (i : Nat) : Loc := ⟨R.CSQ_SW_ENTRY i, 0, 11⟩

/-- ownership view. -/
abbrev R.CSQ_OWN (i : Nat) : Nat := 0x800028 + 0x10000 * i
abbrev L.CSQ_OWN.VI_VALID (i : Nat) : Loc := ⟨R.CSQ_OWN i, 24, 1⟩
abbrev L.CSQ_OWN.VI (i : Nat) : Loc := ⟨R.CSQ_OWN i, 16, 8⟩
abbrev L.CSQ_OWN.WORLD (i : Nat) : Loc := ⟨R.CSQ_OWN i, 8, 1⟩
abbrev L.CSQ_OWN.NUMBER (i : Nat) : Loc := ⟨R.CSQ_OWN i, 0, 5⟩

/-- event bits. -/
abbrev R.CSQ_FLAGS (i : Nat) : Nat := 0x800030 + 0x10000 * i
abbrev L.CSQ_FLAGS.BELL (i : Nat) : Loc := ⟨R.CSQ_FLAGS i, 33, 1⟩
abbrev L.CSQ_FLAGS.DONE (i : Nat) : Loc := ⟨R.CSQ_FLAGS i, 32, 1⟩
abbrev L.CSQ_FLAGS.F (i : Nat) : Loc := ⟨R.CSQ_FLAGS i, 0, 32⟩

/-- software setting of event bits. -/
abbrev R.CSQ_FLAG_SET (i : Nat) : Nat := 0x800038 + 0x10000 * i
abbrev L.CSQ_FLAG_SET.BELL (i : Nat) : Loc := ⟨R.CSQ_FLAG_SET i, 33, 1⟩
abbrev L.CSQ_FLAG_SET.F (i : Nat) : Loc := ⟨R.CSQ_FLAG_SET i, 0, 32⟩

/-- launch slots. -/
abbrev R.CSQ_TRACK (i : Nat) : Nat := 0x800040 + 0x10000 * i
abbrev L.CSQ_TRACK.DONE_OPEN (i : Nat) : Loc := ⟨R.CSQ_TRACK i, 32, 32⟩
abbrev L.CSQ_TRACK.BUSY (i : Nat) : Loc := ⟨R.CSQ_TRACK i, 0, 32⟩

/-- frame of the last overrun. -/
abbrev R.CSQ_OVR_FRAME (i : Nat) : Nat := 0x800048 + 0x10000 * i
abbrev L.CSQ_OVR_FRAME.FRAME (i : Nat) : Loc := ⟨R.CSQ_OVR_FRAME i, 0, 64⟩

/-- details of the last overrun. -/
abbrev R.CSQ_OVR_INFO (i : Nat) : Nat := 0x800050 + 0x10000 * i
abbrev L.CSQ_OVR_INFO.DEADLINE (i : Nat) : Loc := ⟨R.CSQ_OVR_INFO i, 40, 24⟩
abbrev L.CSQ_OVR_INFO.TARGET (i : Nat) : Loc := ⟨R.CSQ_OVR_INFO i, 32, 8⟩
abbrev L.CSQ_OVR_INFO.KIND (i : Nat) : Loc := ⟨R.CSQ_OVR_INFO i, 16, 1⟩
abbrev L.CSQ_OVR_INFO.PC (i : Nat) : Loc := ⟨R.CSQ_OVR_INFO i, 0, 11⟩

/-- overrun counts, saturating, cleared by START. -/
abbrev R.CSQ_OVR_CNT (i : Nat) : Nat := 0x800058 + 0x10000 * i
abbrev L.CSQ_OVR_CNT.FRAME_OVR (i : Nat) : Loc := ⟨R.CSQ_OVR_CNT i, 32, 32⟩
abbrev L.CSQ_OVR_CNT.CHK_MISS (i : Nat) : Loc := ⟨R.CSQ_OVR_CNT i, 0, 32⟩

/-- late waits and held ticks, saturating. -/
abbrev R.CSQ_LATE_CNT (i : Nat) : Nat := 0x800060 + 0x10000 * i
abbrev L.CSQ_LATE_CNT.HELD (i : Nat) : Loc := ⟨R.CSQ_LATE_CNT i, 32, 32⟩
abbrev L.CSQ_LATE_CNT.WAITT_LATE (i : Nat) : Loc := ⟨R.CSQ_LATE_CNT i, 0, 32⟩

/-- last fault. -/
abbrev R.CSQ_FAULT (i : Nat) : Nat := 0x800068 + 0x10000 * i
abbrev L.CSQ_FAULT.PC (i : Nat) : Loc := ⟨R.CSQ_FAULT i, 8, 11⟩
abbrev L.CSQ_FAULT.CODE (i : Nat) : Loc := ⟨R.CSQ_FAULT i, 0, 8⟩

/-- frame of the last fault. -/
abbrev R.CSQ_FAULT_FRAME (i : Nat) : Nat := 0x800070 + 0x10000 * i
abbrev L.CSQ_FAULT_FRAME.FRAME (i : Nat) : Loc := ⟨R.CSQ_FAULT_FRAME i, 0, 64⟩

/-- sequencer events. -/
abbrev R.CSQ_EVT (i : Nat) : Nat := 0x800078 + 0x10000 * i
abbrev L.CSQ_EVT.ECC_CORR (i : Nat) : Loc := ⟨R.CSQ_EVT i, 9, 1⟩
abbrev L.CSQ_EVT.OWNER_CHG (i : Nat) : Loc := ⟨R.CSQ_EVT i, 8, 1⟩
abbrev L.CSQ_EVT.TICK_LOSS (i : Nat) : Loc := ⟨R.CSQ_EVT i, 7, 1⟩
abbrev L.CSQ_EVT.SYNC_TMO (i : Nat) : Loc := ⟨R.CSQ_EVT i, 6, 1⟩
abbrev L.CSQ_EVT.LATE (i : Nat) : Loc := ⟨R.CSQ_EVT i, 5, 1⟩
abbrev L.CSQ_EVT.REFUSED (i : Nat) : Loc := ⟨R.CSQ_EVT i, 4, 1⟩
abbrev L.CSQ_EVT.FRAME_OVR (i : Nat) : Loc := ⟨R.CSQ_EVT i, 3, 1⟩
abbrev L.CSQ_EVT.CHK_MISS (i : Nat) : Loc := ⟨R.CSQ_EVT i, 2, 1⟩
abbrev L.CSQ_EVT.HALT (i : Nat) : Loc := ⟨R.CSQ_EVT i, 1, 1⟩
abbrev L.CSQ_EVT.FAULT (i : Nat) : Loc := ⟨R.CSQ_EVT i, 0, 1⟩

/-- event enables. -/
abbrev R.CSQ_EVT_EN (i : Nat) : Nat := 0x800080 + 0x10000 * i
abbrev L.CSQ_EVT_EN.EN (i : Nat) : Loc := ⟨R.CSQ_EVT_EN i, 0, 10⟩

/-- launch counts, saturating. -/
abbrev R.CSQ_LAUNCH_CNT (i : Nat) : Nat := 0x800088 + 0x10000 * i
abbrev L.CSQ_LAUNCH_CNT.REFUSED (i : Nat) : Loc := ⟨R.CSQ_LAUNCH_CNT i, 32, 32⟩
abbrev L.CSQ_LAUNCH_CNT.ACCEPTED (i : Nat) : Loc := ⟨R.CSQ_LAUNCH_CNT i, 0, 32⟩

/-- cadence register Cn, for n = 0 to 15. -/
abbrev R.CSQ_CREG (i n : Nat) : Nat := 0x800100 + 0x10000 * i + 0x8 * n
abbrev L.CSQ_CREG.VALUE (i n : Nat) : Loc := ⟨R.CSQ_CREG i n, 0, 64⟩

/-- instruction word at address a, for a = 0 to 2,047. -/
abbrev R.CSQ_IMEM (i n : Nat) : Nat := 0x804000 + 0x10000 * i + 0x8 * n
abbrev L.CSQ_IMEM.WORD (i n : Nat) : Loc := ⟨R.CSQ_IMEM i n, 0, 64⟩

/-- descriptor word w, for w = 0 to 2,047; descriptor i occupies words 8 × i to 8 × i + 7. -/
abbrev R.CSQ_DMEM (i n : Nat) : Nat := 0x808000 + 0x10000 * i + 0x8 * n
abbrev L.CSQ_DMEM.WORD (i n : Nat) : Loc := ⟨R.CSQ_DMEM i n, 0, 64⟩

/-- enable of the reserved-schedule record. -/
abbrev R.CSQ_SCHED_CTRL (i : Nat) : Nat := 0x800090 + 0x10000 * i
abbrev L.CSQ_SCHED_CTRL.EN (i : Nat) : Loc := ⟨R.CSQ_SCHED_CTRL i, 0, 1⟩

/-- die links the schedule relies on. -/
abbrev R.CSQ_SCHED_DL (i : Nat) : Nat := 0x800098 + 0x10000 * i
abbrev L.CSQ_SCHED_DL.DL (i : Nat) : Loc := ⟨R.CSQ_SCHED_DL i, 0, 48⟩

/-- refresh groups the schedule relies on. -/
abbrev R.CSQ_SCHED_MG (i : Nat) : Nat := 0x8000a0 + 0x10000 * i
abbrev L.CSQ_SCHED_MG.MG (i : Nat) : Loc := ⟨R.CSQ_SCHED_MG i, 0, 16⟩

/-- validity and reasons. -/
abbrev R.CSQ_SCHED_STAT (i : Nat) : Nat := 0x8000a8 + 0x10000 * i
abbrev L.CSQ_SCHED_STAT.VALID (i : Nat) : Loc := ⟨R.CSQ_SCHED_STAT i, 7, 1⟩
abbrev L.CSQ_SCHED_STAT.TICK_LOSS (i : Nat) : Loc := ⟨R.CSQ_SCHED_STAT i, 5, 1⟩
abbrev L.CSQ_SCHED_STAT.MG_MODE (i : Nat) : Loc := ⟨R.CSQ_SCHED_STAT i, 4, 1⟩
abbrev L.CSQ_SCHED_STAT.FORCED (i : Nat) : Loc := ⟨R.CSQ_SCHED_STAT i, 3, 1⟩
abbrev L.CSQ_SCHED_STAT.RSV_DENIED (i : Nat) : Loc := ⟨R.CSQ_SCHED_STAT i, 2, 1⟩
abbrev L.CSQ_SCHED_STAT.DL_DOWN (i : Nat) : Loc := ⟨R.CSQ_SCHED_STAT i, 1, 1⟩
abbrev L.CSQ_SCHED_STAT.DL_WIDTH (i : Nat) : Loc := ⟨R.CSQ_SCHED_STAT i, 0, 1⟩

/-- frame in which VALID last fell. -/
abbrev R.CSQ_SCHED_FRAME (i : Nat) : Nat := 0x8000b0 + 0x10000 * i
abbrev L.CSQ_SCHED_FRAME.FRAME (i : Nat) : Loc := ⟨R.CSQ_SCHED_FRAME i, 0, 64⟩

def regTableCSQ0 : List RegSpec :=
  [⟨.CSQ_CTRL, 0x0, [], [⟨11, 1, .rw, 0⟩, ⟨10, 1, .w1s, 0⟩, ⟨8, 2, .rw, 1⟩, ⟨6, 2, .rw, 0⟩, ⟨2, 1, .rw, 0⟩, ⟨1, 1, .wo, 0⟩, ⟨0, 1, .wo, 0⟩]⟩,
   ⟨.CSQ_STATUS, 0x8, [], [⟨32, 11, .ro, 0⟩, ⟨24, 8, .ro, 0⟩, ⟨5, 11, .ro, 0⟩, ⟨4, 1, .ro, 0⟩, ⟨3, 1, .ro, 0⟩, ⟨0, 3, .ro, 0⟩]⟩,
   ⟨.CSQ_ENTRY, 0x10, [], [⟨0, 11, .rw, 0⟩]⟩,
   ⟨.CSQ_NEXT_ENTRY, 0x18, [], [⟨0, 11, .rw, 0⟩]⟩,
   ⟨.CSQ_SW_ENTRY, 0x20, [], [⟨0, 11, .rw, 0⟩]⟩,
   ⟨.CSQ_OWN, 0x28, [], [⟨24, 1, .ro, 0⟩, ⟨16, 8, .ro, 0⟩, ⟨8, 1, .ro, 1⟩, ⟨0, 5, .ro, 0⟩]⟩,
   ⟨.CSQ_FLAGS, 0x30, [], [⟨33, 1, .w1c, 0⟩, ⟨32, 1, .w1c, 0⟩, ⟨0, 32, .w1c, 0⟩]⟩,
   ⟨.CSQ_FLAG_SET, 0x38, [], [⟨33, 1, .wo, 0⟩, ⟨0, 32, .wo, 0⟩]⟩,
   ⟨.CSQ_TRACK, 0x40, [], [⟨32, 32, .ro, 0⟩, ⟨0, 32, .ro, 0⟩]⟩,
   ⟨.CSQ_OVR_FRAME, 0x48, [], [⟨0, 64, .ro, 0xffffffffffffffff⟩]⟩,
   ⟨.CSQ_OVR_INFO, 0x50, [], [⟨40, 24, .ro, 0⟩, ⟨32, 8, .ro, 0⟩, ⟨16, 1, .ro, 0⟩, ⟨0, 11, .ro, 0⟩]⟩,
   ⟨.CSQ_OVR_CNT, 0x58, [], [⟨32, 32, .ro, 0⟩, ⟨0, 32, .ro, 0⟩]⟩]

def regTableCSQ1 : List RegSpec :=
  [⟨.CSQ_LATE_CNT, 0x60, [], [⟨32, 32, .ro, 0⟩, ⟨0, 32, .ro, 0⟩]⟩,
   ⟨.CSQ_FAULT, 0x68, [], [⟨8, 11, .ro, 0⟩, ⟨0, 8, .ro, 0⟩]⟩,
   ⟨.CSQ_FAULT_FRAME, 0x70, [], [⟨0, 64, .ro, 0xffffffffffffffff⟩]⟩,
   ⟨.CSQ_EVT, 0x78, [], [⟨9, 1, .w1c, 0⟩, ⟨8, 1, .w1c, 0⟩, ⟨7, 1, .w1c, 0⟩, ⟨6, 1, .w1c, 0⟩, ⟨5, 1, .w1c, 0⟩, ⟨4, 1, .w1c, 0⟩, ⟨3, 1, .w1c, 0⟩, ⟨2, 1, .w1c, 0⟩, ⟨1, 1, .w1c, 0⟩, ⟨0, 1, .w1c, 0⟩]⟩,
   ⟨.CSQ_EVT_EN, 0x80, [], [⟨0, 10, .rw, 0x1df⟩]⟩,
   ⟨.CSQ_LAUNCH_CNT, 0x88, [], [⟨32, 32, .ro, 0⟩, ⟨0, 32, .ro, 0⟩]⟩,
   ⟨.CSQ_CREG, 0x100, [(0x8, 16)], [⟨0, 64, .rw, 0⟩]⟩,
   ⟨.CSQ_IMEM, 0x4000, [(0x8, 2048)], [⟨0, 64, .rw, 0⟩]⟩,
   ⟨.CSQ_DMEM, 0x8000, [(0x8, 2048)], [⟨0, 64, .rw, 0⟩]⟩,
   ⟨.CSQ_SCHED_CTRL, 0x90, [], [⟨0, 1, .rw, 0⟩]⟩,
   ⟨.CSQ_SCHED_DL, 0x98, [], [⟨0, 48, .rw, 0⟩]⟩,
   ⟨.CSQ_SCHED_MG, 0xa0, [], [⟨0, 16, .rw, 0⟩]⟩]

def regTableCSQ2 : List RegSpec :=
  [⟨.CSQ_SCHED_STAT, 0xa8, [], [⟨7, 1, .ro, 0⟩, ⟨5, 1, .w1c, 0⟩, ⟨4, 1, .w1c, 0⟩, ⟨3, 1, .w1c, 0⟩, ⟨2, 1, .w1c, 0⟩, ⟨1, 1, .w1c, 0⟩, ⟨0, 1, .w1c, 0⟩]⟩,
   ⟨.CSQ_SCHED_FRAME, 0xb0, [], [⟨0, 64, .ro, 0xffffffffffffffff⟩]⟩]

/-- The templates of block CSQ. -/
def regTableCSQ : List RegSpec := regTableCSQ0 ++ regTableCSQ1 ++ regTableCSQ2

/-! ### CSR (R142) -/

/-- world of the cluster. -/
abbrev R.SKWORLD (i : Nat) : Nat := 0x1000000fc0 + 0x1000 * i
abbrev L.SKWORLD.SWITCHING (i : Nat) : Loc := ⟨R.SKWORLD i, 1, 1⟩
abbrev L.SKWORLD.WORLD (i : Nat) : Loc := ⟨R.SKWORLD i, 0, 1⟩

/-- world switch request. -/
abbrev R.SKWSW (i : Nat) : Nat := 0x10000007c0 + 0x1000 * i
abbrev L.SKWSW.TARGET (i : Nat) : Loc := ⟨R.SKWSW i, 1, 1⟩
abbrev L.SKWSW.GO (i : Nat) : Loc := ⟨R.SKWSW i, 0, 1⟩

/-- lockstep control, meaningful on core 0. -/
abbrev R.SKLSCFG (i : Nat) : Nat := 0x10000007c1 + 0x1000 * i
abbrev L.SKLSCFG.MM_SEEN (i : Nat) : Loc := ⟨R.SKLSCFG i, 2, 1⟩
abbrev L.SKLSCFG.ACTIVE (i : Nat) : Loc := ⟨R.SKLSCFG i, 1, 1⟩
abbrev L.SKLSCFG.PAIR (i : Nat) : Loc := ⟨R.SKLSCFG i, 0, 1⟩

/-- depth of WFI. -/
abbrev R.SKPWR (i : Nat) : Nat := 0x10000007c2 + 0x1000 * i
abbrev L.SKPWR.DEPTH (i : Nat) : Loc := ⟨R.SKPWR i, 0, 1⟩

/-- machine timer compare. -/
abbrev R.SKMTIMECMP (i : Nat) : Nat := 0x10000007c3 + 0x1000 * i
abbrev L.SKMTIMECMP.CMP (i : Nat) : Loc := ⟨R.SKMTIMECMP i, 0, 64⟩

/-- Cairn participation. -/
abbrev R.SKCRNCFG (i : Nat) : Nat := 0x10000007c4 + 0x1000 * i
abbrev L.SKCRNCFG.INCLUDE (i : Nat) : Loc := ⟨R.SKCRNCFG i, 0, 1⟩

/-- reserved-class window n, for n = 0 to 3. -/
abbrev R.SKRTWIN (i n : Nat) : Nat := 0x10000005c0 + 0x1000 * i + n
abbrev L.SKRTWIN.EN (i n : Nat) : Loc := ⟨R.SKRTWIN i n, 63, 1⟩
abbrev L.SKRTWIN.LOG2SZ (i n : Nat) : Loc := ⟨R.SKRTWIN i n, 48, 6⟩
abbrev L.SKRTWIN.BASE (i n : Nat) : Loc := ⟨R.SKRTWIN i n, 12, 36⟩

/-- guest file selection. -/
abbrev R.SKGFSEL (i : Nat) : Nat := 0x10000005c4 + 0x1000 * i
abbrev L.SKGFSEL.G (i : Nat) : Loc := ⟨R.SKGFSEL i, 0, 4⟩

/-- instance of guest file SKGFSEL.G. -/
abbrev R.SKGFTAG (i : Nat) : Nat := 0x10000005c5 + 0x1000 * i
abbrev L.SKGFTAG.VI_VALID (i : Nat) : Loc := ⟨R.SKGFTAG i, 8, 1⟩
abbrev L.SKGFTAG.VI (i : Nat) : Loc := ⟨R.SKGFTAG i, 0, 8⟩

/-- sampling control. -/
abbrev R.SKSMPCFG (i : Nat) : Nat := 0x10000005c6 + 0x1000 * i
abbrev L.SKSMPCFG.MODES (i : Nat) : Loc := ⟨R.SKSMPCFG i, 16, 4⟩
abbrev L.SKSMPCFG.INTERVAL (i : Nat) : Loc := ⟨R.SKSMPCFG i, 8, 4⟩
abbrev L.SKSMPCFG.ACK (i : Nat) : Loc := ⟨R.SKSMPCFG i, 1, 1⟩
abbrev L.SKSMPCFG.EN (i : Nat) : Loc := ⟨R.SKSMPCFG i, 0, 1⟩

/-- software mark carried into captures. -/
abbrev R.SKCRNMARK (i : Nat) : Nat := 0x10000005c7 + 0x1000 * i
abbrev L.SKCRNMARK.MARK (i : Nat) : Loc := ⟨R.SKCRNMARK i, 0, 32⟩

/-- PC of the sampled instruction. -/
abbrev R.SKSMPPC (i : Nat) : Nat := 0x1000000dc0 + 0x1000 * i
abbrev L.SKSMPPC.PC (i : Nat) : Loc := ⟨R.SKSMPPC i, 0, 64⟩

/-- data address of the sampled instruction. -/
abbrev R.SKSMPADDR (i : Nat) : Nat := 0x1000000dc1 + 0x1000 * i
abbrev L.SKSMPADDR.ADDR (i : Nat) : Loc := ⟨R.SKSMPADDR i, 0, 64⟩

/-- outcome of the sampled instruction. -/
abbrev R.SKSMPINFO (i : Nat) : Nat := 0x1000000dc2 + 0x1000 * i
abbrev L.SKSMPINFO.VALID (i : Nat) : Loc := ⟨R.SKSMPINFO i, 63, 1⟩
abbrev L.SKSMPINFO.DROPPED (i : Nat) : Loc := ⟨R.SKSMPINFO i, 48, 15⟩
abbrev L.SKSMPINFO.LATENCY (i : Nat) : Loc := ⟨R.SKSMPINFO i, 32, 16⟩
abbrev L.SKSMPINFO.RSV (i : Nat) : Loc := ⟨R.SKSMPINFO i, 9, 1⟩
abbrev L.SKSMPINFO.MISPRED (i : Nat) : Loc := ⟨R.SKSMPINFO i, 8, 1⟩
abbrev L.SKSMPINFO.TLB_MISS (i : Nat) : Loc := ⟨R.SKSMPINFO i, 7, 1⟩
abbrev L.SKSMPINFO.REMOTE (i : Nat) : Loc := ⟨R.SKSMPINFO i, 6, 1⟩
abbrev L.SKSMPINFO.L3_MISS (i : Nat) : Loc := ⟨R.SKSMPINFO i, 5, 1⟩
abbrev L.SKSMPINFO.L2_MISS (i : Nat) : Loc := ⟨R.SKSMPINFO i, 4, 1⟩
abbrev L.SKSMPINFO.L1_MISS (i : Nat) : Loc := ⟨R.SKSMPINFO i, 3, 1⟩
abbrev L.SKSMPINFO.MODE (i : Nat) : Loc := ⟨R.SKSMPINFO i, 0, 3⟩

/-- frame number and offset. -/
abbrev R.SKFRAME (i : Nat) : Nat := 0x1000000cc0 + 0x1000 * i
abbrev L.SKFRAME.FRAME (i : Nat) : Loc := ⟨R.SKFRAME i, 24, 40⟩
abbrev L.SKFRAME.OFFSET (i : Nat) : Loc := ⟨R.SKFRAME i, 0, 24⟩

def regTableCSR0 : List RegSpec :=
  [⟨.SKWORLD, 0xfc0, [], [⟨1, 1, .ro, 0⟩, ⟨0, 1, .ro, 1⟩]⟩,
   ⟨.SKWSW, 0x7c0, [], [⟨1, 1, .rw, 1⟩, ⟨0, 1, .wo, 0⟩]⟩,
   ⟨.SKLSCFG, 0x7c1, [], [⟨2, 1, .w1c, 0⟩, ⟨1, 1, .ro, 0⟩, ⟨0, 1, .rw, 0⟩]⟩,
   ⟨.SKPWR, 0x7c2, [], [⟨0, 1, .rw, 0⟩]⟩,
   ⟨.SKMTIMECMP, 0x7c3, [], [⟨0, 64, .rw, 0xffffffffffffffff⟩]⟩,
   ⟨.SKCRNCFG, 0x7c4, [], [⟨0, 1, .rw, 1⟩]⟩,
   ⟨.SKRTWIN, 0x5c0, [(0x1, 4)], [⟨63, 1, .rw, 0⟩, ⟨48, 6, .rw, 0xc⟩, ⟨12, 36, .rw, 0⟩]⟩,
   ⟨.SKGFSEL, 0x5c4, [], [⟨0, 4, .rw, 1⟩]⟩,
   ⟨.SKGFTAG, 0x5c5, [], [⟨8, 1, .rw, 0⟩, ⟨0, 8, .rw, 0⟩]⟩,
   ⟨.SKSMPCFG, 0x5c6, [], [⟨16, 4, .rw, 0⟩, ⟨8, 4, .rw, 4⟩, ⟨1, 1, .wo, 0⟩, ⟨0, 1, .rw, 0⟩]⟩,
   ⟨.SKCRNMARK, 0x5c7, [], [⟨0, 32, .rw, 0⟩]⟩,
   ⟨.SKSMPPC, 0xdc0, [], [⟨0, 64, .ro, 0⟩]⟩]

def regTableCSR1 : List RegSpec :=
  [⟨.SKSMPADDR, 0xdc1, [], [⟨0, 64, .ro, 0⟩]⟩,
   ⟨.SKSMPINFO, 0xdc2, [], [⟨63, 1, .ro, 0⟩, ⟨48, 15, .ro, 0⟩, ⟨32, 16, .ro, 0⟩, ⟨9, 1, .ro, 0⟩, ⟨8, 1, .ro, 0⟩, ⟨7, 1, .ro, 0⟩, ⟨6, 1, .ro, 0⟩, ⟨5, 1, .ro, 0⟩, ⟨4, 1, .ro, 0⟩, ⟨3, 1, .ro, 0⟩, ⟨0, 3, .ro, 0⟩]⟩,
   ⟨.SKFRAME, 0xcc0, [], [⟨24, 40, .ro, 0⟩, ⟨0, 24, .ro, 0⟩]⟩]

/-- The templates of block CSR. -/
def regTableCSR : List RegSpec := regTableCSR0 ++ regTableCSR1

/-! ### WLDD (R162) -/

/-- Sealed-world write-policy region n, for n = 0 to 3; writable by the Sealed world only. -/
abbrev R.WLD_WPOL_S (i n : Nat) : Nat := 0x1c02000 + 0x10000 * i + 0x8 * n
abbrev L.WLD_WPOL_S.EN (i n : Nat) : Loc := ⟨R.WLD_WPOL_S i n, 63, 1⟩
abbrev L.WLD_WPOL_S.LOG2SZ (i n : Nat) : Loc := ⟨R.WLD_WPOL_S i n, 48, 6⟩
abbrev L.WLD_WPOL_S.BASE (i n : Nat) : Loc := ⟨R.WLD_WPOL_S i n, 12, 36⟩
abbrev L.WLD_WPOL_S.PFOFF (i n : Nat) : Loc := ⟨R.WLD_WPOL_S i n, 2, 1⟩
abbrev L.WLD_WPOL_S.POLICY (i n : Nat) : Loc := ⟨R.WLD_WPOL_S i n, 0, 2⟩

/-- Open-world write-policy region n, for n = 0 to 3; same fields as WLD_WPOL_Sn; writable by either … -/
abbrev R.WLD_WPOL_O (i n : Nat) : Nat := 0x1c02020 + 0x10000 * i + 0x8 * n
abbrev L.WLD_WPOL_O.EN (i n : Nat) : Loc := ⟨R.WLD_WPOL_O i n, 63, 1⟩
abbrev L.WLD_WPOL_O.LOG2SZ (i n : Nat) : Loc := ⟨R.WLD_WPOL_O i n, 48, 6⟩
abbrev L.WLD_WPOL_O.BASE (i n : Nat) : Loc := ⟨R.WLD_WPOL_O i n, 12, 36⟩
abbrev L.WLD_WPOL_O.PFOFF (i n : Nat) : Loc := ⟨R.WLD_WPOL_O i n, 2, 1⟩
abbrev L.WLD_WPOL_O.POLICY (i n : Nat) : Loc := ⟨R.WLD_WPOL_O i n, 0, 2⟩

/-- prefetch enables and distances. -/
abbrev R.WLD_PFCTL (i : Nat) : Nat := 0x1c02040 + 0x10000 * i
abbrev L.WLD_PFCTL.L2_DIST (i : Nat) : Loc := ⟨R.WLD_PFCTL i, 36, 5⟩
abbrev L.WLD_PFCTL.L1_DIST (i : Nat) : Loc := ⟨R.WLD_PFCTL i, 32, 4⟩
abbrev L.WLD_PFCTL.L2_EN (i : Nat) : Loc := ⟨R.WLD_PFCTL i, 18, 9⟩
abbrev L.WLD_PFCTL.L1_EN (i : Nat) : Loc := ⟨R.WLD_PFCTL i, 0, 18⟩

/-- set-and-way operation; Sealed world only. -/
abbrev R.WLD_SWOP (i : Nat) : Nat := 0x1c02048 + 0x10000 * i
abbrev L.WLD_SWOP.GO (i : Nat) : Loc := ⟨R.WLD_SWOP i, 63, 1⟩
abbrev L.WLD_SWOP.SET (i : Nat) : Loc := ⟨R.WLD_SWOP i, 20, 14⟩
abbrev L.WLD_SWOP.WAY (i : Nat) : Loc := ⟨R.WLD_SWOP i, 16, 4⟩
abbrev L.WLD_SWOP.ALL (i : Nat) : Loc := ⟨R.WLD_SWOP i, 9, 1⟩
abbrev L.WLD_SWOP.UNIT (i : Nat) : Loc := ⟨R.WLD_SWOP i, 4, 5⟩
abbrev L.WLD_SWOP.LEVEL (i : Nat) : Loc := ⟨R.WLD_SWOP i, 2, 2⟩
abbrev L.WLD_SWOP.OP (i : Nat) : Loc := ⟨R.WLD_SWOP i, 0, 2⟩

/-- set-and-way status. -/
abbrev R.WLD_SWSTAT (i : Nat) : Nat := 0x1c02050 + 0x10000 * i
abbrev L.WLD_SWSTAT.ERR (i : Nat) : Loc := ⟨R.WLD_SWSTAT i, 2, 1⟩
abbrev L.WLD_SWSTAT.DONE (i : Nat) : Loc := ⟨R.WLD_SWSTAT i, 1, 1⟩
abbrev L.WLD_SWSTAT.BUSY (i : Nat) : Loc := ⟨R.WLD_SWSTAT i, 0, 1⟩

/-- way ownership and Piton mode of slice s, for s = 0 to 3. -/
abbrev R.WLD_L3WAY (i n : Nat) : Nat := 0x1c02080 + 0x10000 * i + 0x8 * n
abbrev L.WLD_L3WAY.BUSY (i n : Nat) : Loc := ⟨R.WLD_L3WAY i n, 48, 1⟩
abbrev L.WLD_L3WAY.OWNER (i n : Nat) : Loc := ⟨R.WLD_L3WAY i n, 32, 16⟩
abbrev L.WLD_L3WAY.PITON (i n : Nat) : Loc := ⟨R.WLD_L3WAY i n, 4, 12⟩

/-- world of each cluster. -/
abbrev R.WLD_CL_WORLD (i : Nat) : Nat := 0x1c00000 + 0x10000 * i
abbrev L.WLD_CL_WORLD.SWITCHING (i : Nat) : Loc := ⟨R.WLD_CL_WORLD i, 16, 9⟩
abbrev L.WLD_CL_WORLD.WORLD (i : Nat) : Loc := ⟨R.WLD_CL_WORLD i, 0, 9⟩

/-- world switches completed on the die, saturating. -/
abbrev R.WLD_SW_CNT (i : Nat) : Nat := 0x1c00008 + 0x10000 * i
abbrev L.WLD_SW_CNT.COUNT (i : Nat) : Loc := ⟨R.WLD_SW_CNT i, 0, 32⟩

def regTableWLDD0 : List RegSpec :=
  [⟨.WLD_WPOL_S, 0x2000, [(0x8, 4)], [⟨63, 1, .rw, 0⟩, ⟨48, 6, .rw, 0xc⟩, ⟨12, 36, .rw, 0⟩, ⟨2, 1, .rw, 0⟩, ⟨0, 2, .rw, 0⟩]⟩,
   ⟨.WLD_WPOL_O, 0x2020, [(0x8, 4)], [⟨63, 1, .rw, 0⟩, ⟨48, 6, .rw, 0xc⟩, ⟨12, 36, .rw, 0⟩, ⟨2, 1, .rw, 0⟩, ⟨0, 2, .rw, 0⟩]⟩,
   ⟨.WLD_PFCTL, 0x2040, [], [⟨36, 5, .rw, 8⟩, ⟨32, 4, .rw, 4⟩, ⟨18, 9, .rw, 0x1ff⟩, ⟨0, 18, .rw, 0x3ffff⟩]⟩,
   ⟨.WLD_SWOP, 0x2048, [], [⟨63, 1, .wo, 0⟩, ⟨20, 14, .rw, 0⟩, ⟨16, 4, .rw, 0⟩, ⟨9, 1, .rw, 0⟩, ⟨4, 5, .rw, 0⟩, ⟨2, 2, .rw, 0⟩, ⟨0, 2, .rw, 0⟩]⟩,
   ⟨.WLD_SWSTAT, 0x2050, [], [⟨2, 1, .w1c, 0⟩, ⟨1, 1, .w1c, 0⟩, ⟨0, 1, .ro, 0⟩]⟩,
   ⟨.WLD_L3WAY, 0x2080, [(0x8, 4)], [⟨48, 1, .ro, 0⟩, ⟨32, 16, .ro, 0xffff⟩, ⟨4, 12, .rw, 0⟩]⟩,
   ⟨.WLD_CL_WORLD, 0x0, [], [⟨16, 9, .ro, 0⟩, ⟨0, 9, .ro, 0x1ff⟩]⟩,
   ⟨.WLD_SW_CNT, 0x8, [], [⟨0, 32, .ro, 0⟩]⟩]

/-- The templates of block WLDD. -/
def regTableWLDD : List RegSpec := regTableWLDD0

/-! ### HA (R183) -/

/-- identity of the home. -/
abbrev R.HA_ID (i : Nat) : Nat := 0xa00000 + 0x10000 * i
abbrev L.HA_ID.NUMBER (i : Nat) : Loc := ⟨R.HA_ID i, 0, 5⟩

/-- caching agents, stop and occupancy. -/
abbrev R.HA_STATUS (i : Nat) : Nat := 0xa00008 + 0x10000 * i
abbrev L.HA_STATUS.CA (i : Nat) : Loc := ⟨R.HA_STATUS i, 32, 12⟩
abbrev L.HA_STATUS.STOPPED (i : Nat) : Loc := ⟨R.HA_STATUS i, 16, 1⟩
abbrev L.HA_STATUS.TRK_USED (i : Nat) : Loc := ⟨R.HA_STATUS i, 0, 9⟩

/-- filter occupancy. -/
abbrev R.HA_SF_STAT (i : Nat) : Nat := 0xa00010 + 0x10000 * i
abbrev L.HA_SF_STAT.VALID (i : Nat) : Loc := ⟨R.HA_SF_STAT i, 32, 20⟩
abbrev L.HA_SF_STAT.BI_USED (i : Nat) : Loc := ⟨R.HA_SF_STAT i, 0, 5⟩

/-- filter counts. -/
abbrev R.HA_SF_CNT (i : Nat) : Nat := 0xa00018 + 0x10000 * i
abbrev L.HA_SF_CNT.BI (i : Nat) : Loc := ⟨R.HA_SF_CNT i, 32, 32⟩
abbrev L.HA_SF_CNT.RETRY (i : Nat) : Loc := ⟨R.HA_SF_CNT i, 0, 32⟩

/-- stale writebacks. -/
abbrev R.HA_STALE_CNT (i : Nat) : Nat := 0xa00020 + 0x10000 * i
abbrev L.HA_STALE_CNT.STALE (i : Nat) : Loc := ⟨R.HA_STALE_CNT i, 0, 32⟩

/-- partner violations. -/
abbrev R.HA_NAK_CNT (i : Nat) : Nat := 0xa00028 + 0x10000 * i
abbrev L.HA_NAK_CNT.NAK (i : Nat) : Loc := ⟨R.HA_NAK_CNT i, 0, 32⟩

/-- last refused message. -/
abbrev R.HA_NAK_LAST (i : Nat) : Nat := 0xa00030 + 0x10000 * i
abbrev L.HA_NAK_LAST.CODE (i : Nat) : Loc := ⟨R.HA_NAK_LAST i, 56, 8⟩
abbrev L.HA_NAK_LAST.AGENT (i : Nat) : Loc := ⟨R.HA_NAK_LAST i, 48, 8⟩
abbrev L.HA_NAK_LAST.LINE (i : Nat) : Loc := ⟨R.HA_NAK_LAST i, 6, 42⟩

/-- home events. -/
abbrev R.HA_EVT (i : Nat) : Nat := 0xa00038 + 0x10000 * i
abbrev L.HA_EVT.FATAL (i : Nat) : Loc := ⟨R.HA_EVT i, 2, 1⟩
abbrev L.HA_EVT.RETRY (i : Nat) : Loc := ⟨R.HA_EVT i, 1, 1⟩
abbrev L.HA_EVT.NAK (i : Nat) : Loc := ⟨R.HA_EVT i, 0, 1⟩

/-- event enables. -/
abbrev R.HA_EVT_EN (i : Nat) : Nat := 0xa00040 + 0x10000 * i
abbrev L.HA_EVT_EN.EN (i : Nat) : Loc := ⟨R.HA_EVT_EN i, 0, 3⟩

/-- filter lookup request. -/
abbrev R.HA_SF_PROBE (i : Nat) : Nat := 0xa00048 + 0x10000 * i
abbrev L.HA_SF_PROBE.GO (i : Nat) : Loc := ⟨R.HA_SF_PROBE i, 63, 1⟩
abbrev L.HA_SF_PROBE.LINE (i : Nat) : Loc := ⟨R.HA_SF_PROBE i, 6, 42⟩

/-- filter lookup result. A read before READY returns READY at 0 and every other field all ones. … -/
abbrev R.HA_SF_RESULT (i : Nat) : Nat := 0xa00050 + 0x10000 * i
abbrev L.HA_SF_RESULT.READY (i : Nat) : Loc := ⟨R.HA_SF_RESULT i, 63, 1⟩
abbrev L.HA_SF_RESULT.HIT (i : Nat) : Loc := ⟨R.HA_SF_RESULT i, 62, 1⟩
abbrev L.HA_SF_RESULT.STATE (i : Nat) : Loc := ⟨R.HA_SF_RESULT i, 60, 2⟩
abbrev L.HA_SF_RESULT.PRESENCE (i : Nat) : Loc := ⟨R.HA_SF_RESULT i, 48, 12⟩
abbrev L.HA_SF_RESULT.OPEN (i : Nat) : Loc := ⟨R.HA_SF_RESULT i, 47, 1⟩
abbrev L.HA_SF_RESULT.WAY (i : Nat) : Loc := ⟨R.HA_SF_RESULT i, 40, 4⟩
abbrev L.HA_SF_RESULT.SET (i : Nat) : Loc := ⟨R.HA_SF_RESULT i, 0, 15⟩

def regTableHA0 : List RegSpec :=
  [⟨.HA_ID, 0x0, [], [⟨0, 5, .ro, 0⟩]⟩,
   ⟨.HA_STATUS, 0x8, [], [⟨32, 12, .ro, 0⟩, ⟨16, 1, .ro, 0⟩, ⟨0, 9, .ro, 0⟩]⟩,
   ⟨.HA_SF_STAT, 0x10, [], [⟨32, 20, .ro, 0⟩, ⟨0, 5, .ro, 0⟩]⟩,
   ⟨.HA_SF_CNT, 0x18, [], [⟨32, 32, .ro, 0⟩, ⟨0, 32, .ro, 0⟩]⟩,
   ⟨.HA_STALE_CNT, 0x20, [], [⟨0, 32, .ro, 0⟩]⟩,
   ⟨.HA_NAK_CNT, 0x28, [], [⟨0, 32, .ro, 0⟩]⟩,
   ⟨.HA_NAK_LAST, 0x30, [], [⟨56, 8, .ro, 0⟩, ⟨48, 8, .ro, 0⟩, ⟨6, 42, .ro, 0⟩]⟩,
   ⟨.HA_EVT, 0x38, [], [⟨2, 1, .w1c, 0⟩, ⟨1, 1, .w1c, 0⟩, ⟨0, 1, .w1c, 0⟩]⟩,
   ⟨.HA_EVT_EN, 0x40, [], [⟨0, 3, .rw, 5⟩]⟩,
   ⟨.HA_SF_PROBE, 0x48, [], [⟨63, 1, .wo, 0⟩, ⟨6, 42, .rw, 0⟩]⟩,
   ⟨.HA_SF_RESULT, 0x50, [], [⟨63, 1, .ro, 0⟩, ⟨62, 1, .ro, 1⟩, ⟨60, 2, .ro, 3⟩, ⟨48, 12, .ro, 0xfff⟩, ⟨47, 1, .ro, 1⟩, ⟨40, 4, .ro, 0xf⟩, ⟨0, 15, .ro, 0x7fff⟩]⟩]

/-- The templates of block HA. -/
def regTableHA : List RegSpec := regTableHA0

/-! ### DL (R204) -/

/-- identity of the link. -/
abbrev R.DL_ID (i : Nat) : Nat := 0x1800000 + 0x10000 * i
abbrev L.DL_ID.SITE (i : Nat) : Loc := ⟨R.DL_ID i, 6, 4⟩
abbrev L.DL_ID.NUMBER (i : Nat) : Loc := ⟨R.DL_ID i, 0, 6⟩

/-- link control. -/
abbrev R.DL_CTRL (i : Nat) : Nat := 0x1800008 + 0x10000 * i
abbrev L.DL_CTRL.CLR_REC (i : Nat) : Loc := ⟨R.DL_CTRL i, 3, 1⟩
abbrev L.DL_CTRL.HOLD (i : Nat) : Loc := ⟨R.DL_CTRL i, 2, 1⟩
abbrev L.DL_CTRL.RETRAIN (i : Nat) : Loc := ⟨R.DL_CTRL i, 1, 1⟩
abbrev L.DL_CTRL.AXO_EN (i : Nat) : Loc := ⟨R.DL_CTRL i, 0, 1⟩

/-- state and width. -/
abbrev R.DL_STATUS (i : Nat) : Nat := 0x1800010 + 0x10000 * i
abbrev L.DL_STATUS.MM_REASON (i : Nat) : Loc := ⟨R.DL_STATUS i, 24, 8⟩
abbrev L.DL_STATUS.LNAK_LAST (i : Nat) : Loc := ⟨R.DL_STATUS i, 16, 8⟩
abbrev L.DL_STATUS.CARRY (i : Nat) : Loc := ⟨R.DL_STATUS i, 12, 4⟩
abbrev L.DL_STATUS.EXCH_FAIL (i : Nat) : Loc := ⟨R.DL_STATUS i, 8, 2⟩
abbrev L.DL_STATUS.TIME_OK (i : Nat) : Loc := ⟨R.DL_STATUS i, 6, 1⟩
abbrev L.DL_STATUS.UPPER (i : Nat) : Loc := ⟨R.DL_STATUS i, 5, 1⟩
abbrev L.DL_STATUS.X8 (i : Nat) : Loc := ⟨R.DL_STATUS i, 4, 1⟩
abbrev L.DL_STATUS.STATE (i : Nat) : Loc := ⟨R.DL_STATUS i, 0, 3⟩

/-- record and spares of the hub receive direction. -/
abbrev R.DL_LANES_RX (i : Nat) : Nat := 0x1800018 + 0x10000 * i
abbrev L.DL_LANES_RX.SP1_FOR (i : Nat) : Loc := ⟨R.DL_LANES_RX i, 40, 5⟩
abbrev L.DL_LANES_RX.SP0_FOR (i : Nat) : Loc := ⟨R.DL_LANES_RX i, 32, 5⟩
abbrev L.DL_LANES_RX.FAILED (i : Nat) : Loc := ⟨R.DL_LANES_RX i, 0, 18⟩

/-- record and spares of the hub transmit direction; same fields as DL_LANES_RX. -/
abbrev R.DL_LANES_TX (i : Nat) : Nat := 0x1800020 + 0x10000 * i
abbrev L.DL_LANES_TX.SP1_FOR (i : Nat) : Loc := ⟨R.DL_LANES_TX i, 40, 5⟩
abbrev L.DL_LANES_TX.SP0_FOR (i : Nat) : Loc := ⟨R.DL_LANES_TX i, 32, 5⟩
abbrev L.DL_LANES_TX.FAILED (i : Nat) : Loc := ⟨R.DL_LANES_TX i, 0, 18⟩

/-- parameters the die sent. -/
abbrev R.DL_PEER (i : Nat) : Nat := 0x1800028 + 0x10000 * i
abbrev L.DL_PEER.SPARES (i : Nat) : Loc := ⟨R.DL_PEER i, 34, 2⟩
abbrev L.DL_PEER.CLASS (i : Nat) : Loc := ⟨R.DL_PEER i, 32, 2⟩
abbrev L.DL_PEER.VENDOR (i : Nat) : Loc := ⟨R.DL_PEER i, 16, 16⟩
abbrev L.DL_PEER.VER_MAJ (i : Nat) : Loc := ⟨R.DL_PEER i, 8, 8⟩
abbrev L.DL_PEER.VER_MIN (i : Nat) : Loc := ⟨R.DL_PEER i, 0, 8⟩

/-- repair thresholds. -/
abbrev R.DL_AXO_CFG (i : Nat) : Nat := 0x1800030 + 0x10000 * i
abbrev L.DL_AXO_CFG.WINDOW (i : Nat) : Loc := ⟨R.DL_AXO_CFG i, 16, 16⟩
abbrev L.DL_AXO_CFG.THR (i : Nat) : Loc := ⟨R.DL_AXO_CFG i, 0, 8⟩

/-- link error counts. -/
abbrev R.DL_CNT (i : Nat) : Nat := 0x1800038 + 0x10000 * i
abbrev L.DL_CNT.LNAK (i : Nat) : Loc := ⟨R.DL_CNT i, 48, 16⟩
abbrev L.DL_CNT.REPLAY (i : Nat) : Loc := ⟨R.DL_CNT i, 24, 24⟩
abbrev L.DL_CNT.CRC_ERR (i : Nat) : Loc := ⟨R.DL_CNT i, 0, 24⟩

/-- link events. -/
abbrev R.DL_EVT (i : Nat) : Nat := 0x1800040 + 0x10000 * i
abbrev L.DL_EVT.PEER_VIOL (i : Nat) : Loc := ⟨R.DL_EVT i, 7, 1⟩
abbrev L.DL_EVT.TIME_LANE (i : Nat) : Loc := ⟨R.DL_EVT i, 6, 1⟩
abbrev L.DL_EVT.MISMATCH (i : Nat) : Loc := ⟨R.DL_EVT i, 5, 1⟩
abbrev L.DL_EVT.DOWN (i : Nat) : Loc := ⟨R.DL_EVT i, 4, 1⟩
abbrev L.DL_EVT.NARROW (i : Nat) : Loc := ⟨R.DL_EVT i, 3, 1⟩
abbrev L.DL_EVT.SUB (i : Nat) : Loc := ⟨R.DL_EVT i, 2, 1⟩
abbrev L.DL_EVT.LANE (i : Nat) : Loc := ⟨R.DL_EVT i, 1, 1⟩
abbrev L.DL_EVT.RETRAIN (i : Nat) : Loc := ⟨R.DL_EVT i, 0, 1⟩

/-- event enables. -/
abbrev R.DL_EVT_EN (i : Nat) : Nat := 0x1800048 + 0x10000 * i
abbrev L.DL_EVT_EN.EN (i : Nat) : Loc := ⟨R.DL_EVT_EN i, 0, 8⟩

/-- parity errors of physical lane n. For n = 0 to 17, the counts are those of the hub receive … -/
abbrev R.DL_LANE_CNT (i n : Nat) : Nat := 0x1800100 + 0x10000 * i + 0x8 * n
abbrev L.DL_LANE_CNT.TOTAL (i n : Nat) : Loc := ⟨R.DL_LANE_CNT i n, 32, 32⟩
abbrev L.DL_LANE_CNT.WINDOW_CNT (i n : Nat) : Loc := ⟨R.DL_LANE_CNT i n, 0, 16⟩

def regTableDL0 : List RegSpec :=
  [⟨.DL_ID, 0x0, [], [⟨6, 4, .ro, 0⟩, ⟨0, 6, .ro, 0⟩]⟩,
   ⟨.DL_CTRL, 0x8, [], [⟨3, 1, .wo, 0⟩, ⟨2, 1, .rw, 0⟩, ⟨1, 1, .wo, 0⟩, ⟨0, 1, .rw, 1⟩]⟩,
   ⟨.DL_STATUS, 0x10, [], [⟨24, 8, .ro, 0⟩, ⟨16, 8, .ro, 0⟩, ⟨12, 4, .ro, 0⟩, ⟨8, 2, .ro, 0⟩, ⟨6, 1, .ro, 0⟩, ⟨5, 1, .ro, 0⟩, ⟨4, 1, .ro, 0⟩, ⟨0, 3, .ro, 0⟩]⟩,
   ⟨.DL_LANES_RX, 0x18, [], [⟨40, 5, .ro, 0x1f⟩, ⟨32, 5, .ro, 0x1f⟩, ⟨0, 18, .w1s, 0⟩]⟩,
   ⟨.DL_LANES_TX, 0x20, [], [⟨40, 5, .ro, 0x1f⟩, ⟨32, 5, .ro, 0x1f⟩, ⟨0, 18, .w1s, 0⟩]⟩,
   ⟨.DL_PEER, 0x28, [], [⟨34, 2, .ro, 0⟩, ⟨32, 2, .ro, 0⟩, ⟨16, 16, .ro, 0⟩, ⟨8, 8, .ro, 0⟩, ⟨0, 8, .ro, 0⟩]⟩,
   ⟨.DL_AXO_CFG, 0x30, [], [⟨16, 16, .rw, 0x3e8⟩, ⟨0, 8, .rw, 0x10⟩]⟩,
   ⟨.DL_CNT, 0x38, [], [⟨48, 16, .ro, 0⟩, ⟨24, 24, .ro, 0⟩, ⟨0, 24, .ro, 0⟩]⟩,
   ⟨.DL_EVT, 0x40, [], [⟨7, 1, .w1c, 0⟩, ⟨6, 1, .w1c, 0⟩, ⟨5, 1, .w1c, 0⟩, ⟨4, 1, .w1c, 0⟩, ⟨3, 1, .w1c, 0⟩, ⟨2, 1, .w1c, 0⟩, ⟨1, 1, .w1c, 0⟩, ⟨0, 1, .w1c, 0⟩]⟩,
   ⟨.DL_EVT_EN, 0x48, [], [⟨0, 8, .rw, 0xff⟩]⟩,
   ⟨.DL_LANE_CNT, 0x100, [(0x8, 36)], [⟨32, 32, .ro, 0⟩, ⟨0, 16, .ro, 0⟩]⟩]

/-- The templates of block DL. -/
def regTableDL : List RegSpec := regTableDL0

/-! ### NOC (R226) -/

/-- route epoch control. -/
abbrev R.NOC_EPOCH : Nat := 0x10000
abbrev L.NOC_EPOCH.EPOCH : Loc := ⟨R.NOC_EPOCH, 32, 32⟩
abbrev L.NOC_EPOCH.SWITCH : Loc := ⟨R.NOC_EPOCH, 2, 1⟩
abbrev L.NOC_EPOCH.PENDING : Loc := ⟨R.NOC_EPOCH, 1, 1⟩
abbrev L.NOC_EPOCH.ACTIVE : Loc := ⟨R.NOC_EPOCH, 0, 1⟩

/-- VC0 capacity per link. -/
abbrev R.NOC_RSV_CAP : Nat := 0x10010
abbrev L.NOC_RSV_CAP.CAP : Loc := ⟨R.NOC_RSV_CAP, 0, 6⟩

/-- grant counts. -/
abbrev R.NOC_RSV_CNT : Nat := 0x10018
abbrev L.NOC_RSV_CNT.DENIED : Loc := ⟨R.NOC_RSV_CNT, 32, 32⟩
abbrev L.NOC_RSV_CNT.GRANTED : Loc := ⟨R.NOC_RSV_CNT, 0, 32⟩

/-- last refusal. -/
abbrev R.NOC_RSV_DENY : Nat := 0x10020
abbrev L.NOC_RSV_DENY.ENTRY : Loc := ⟨R.NOC_RSV_DENY, 32, 8⟩
abbrev L.NOC_RSV_DENY.CAUSE : Loc := ⟨R.NOC_RSV_DENY, 24, 2⟩
abbrev L.NOC_RSV_DENY.PLANE : Loc := ⟨R.NOC_RSV_DENY, 16, 1⟩
abbrev L.NOC_RSV_DENY.DIR : Loc := ⟨R.NOC_RSV_DENY, 8, 2⟩
abbrev L.NOC_RSV_DENY.NODE : Loc := ⟨R.NOC_RSV_DENY, 0, 7⟩

/-- mesh events. -/
abbrev R.NOC_EVT : Nat := 0x10030
abbrev L.NOC_EVT.NODE : Loc := ⟨R.NOC_EVT, 7, 7⟩
abbrev L.NOC_EVT.NO_ROUTE : Loc := ⟨R.NOC_EVT, 5, 1⟩
abbrev L.NOC_EVT.RETRY : Loc := ⟨R.NOC_EVT, 4, 1⟩
abbrev L.NOC_EVT.DEMOTED : Loc := ⟨R.NOC_EVT, 3, 1⟩
abbrev L.NOC_EVT.RSV_DENIED : Loc := ⟨R.NOC_EVT, 2, 1⟩
abbrev L.NOC_EVT.EPOCH : Loc := ⟨R.NOC_EVT, 1, 1⟩
abbrev L.NOC_EVT.DRAINED : Loc := ⟨R.NOC_EVT, 0, 1⟩

/-- event enables. -/
abbrev R.NOC_EVT_EN : Nat := 0x10038
abbrev L.NOC_EVT_EN.EN : Loc := ⟨R.NOC_EVT_EN, 0, 6⟩

/-- reservation entry i, for i = 0 to 255. While NOC_RSV_OWN.ACTIVE is 1, a write is a violation. … -/
abbrev R.NOC_RSV_PATH (n : Nat) : Nat := 0x11000 + 0x10 * n
abbrev L.NOC_RSV_PATH.EN (n : Nat) : Loc := ⟨R.NOC_RSV_PATH n, 63, 1⟩
abbrev L.NOC_RSV_PATH.SNP_SITES (n : Nat) : Loc := ⟨R.NOC_RSV_PATH n, 48, 12⟩
abbrev L.NOC_RSV_PATH.SNP_BW (n : Nat) : Loc := ⟨R.NOC_RSV_PATH n, 40, 6⟩
abbrev L.NOC_RSV_PATH.BW (n : Nat) : Loc := ⟨R.NOC_RSV_PATH n, 32, 6⟩
abbrev L.NOC_RSV_PATH.BURST (n : Nat) : Loc := ⟨R.NOC_RSV_PATH n, 24, 5⟩
abbrev L.NOC_RSV_PATH.SRC (n : Nat) : Loc := ⟨R.NOC_RSV_PATH n, 16, 8⟩
abbrev L.NOC_RSV_PATH.DST (n : Nat) : Loc := ⟨R.NOC_RSV_PATH n, 0, 16⟩

/-- owner and state of entry i. -/
abbrev R.NOC_RSV_OWN (n : Nat) : Nat := 0x11008 + 0x10 * n
abbrev L.NOC_RSV_OWN.ACTIVE (n : Nat) : Loc := ⟨R.NOC_RSV_OWN n, 63, 1⟩
abbrev L.NOC_RSV_OWN.END (n : Nat) : Loc := ⟨R.NOC_RSV_OWN n, 24, 24⟩
abbrev L.NOC_RSV_OWN.WORLD (n : Nat) : Loc := ⟨R.NOC_RSV_OWN n, 9, 1⟩
abbrev L.NOC_RSV_OWN.VI_VALID (n : Nat) : Loc := ⟨R.NOC_RSV_OWN n, 8, 1⟩
abbrev L.NOC_RSV_OWN.VI (n : Nat) : Loc := ⟨R.NOC_RSV_OWN n, 0, 8⟩

def regTableNOC0 : List RegSpec :=
  [⟨.NOC_EPOCH, 0x0, [], [⟨32, 32, .ro, 0⟩, ⟨2, 1, .wo, 0⟩, ⟨1, 1, .ro, 0⟩, ⟨0, 1, .ro, 0⟩]⟩,
   ⟨.NOC_RSV_CAP, 0x10, [], [⟨0, 6, .rw, 0x20⟩]⟩,
   ⟨.NOC_RSV_CNT, 0x18, [], [⟨32, 32, .ro, 0⟩, ⟨0, 32, .ro, 0⟩]⟩,
   ⟨.NOC_RSV_DENY, 0x20, [], [⟨32, 8, .ro, 0⟩, ⟨24, 2, .ro, 0⟩, ⟨16, 1, .ro, 0⟩, ⟨8, 2, .ro, 0⟩, ⟨0, 7, .ro, 0⟩]⟩,
   ⟨.NOC_EVT, 0x30, [], [⟨7, 7, .ro, 0⟩, ⟨5, 1, .w1c, 0⟩, ⟨4, 1, .w1c, 0⟩, ⟨3, 1, .w1c, 0⟩, ⟨2, 1, .w1c, 0⟩, ⟨1, 1, .w1c, 0⟩, ⟨0, 1, .w1c, 0⟩]⟩,
   ⟨.NOC_EVT_EN, 0x38, [], [⟨0, 6, .rw, 0x37⟩]⟩,
   ⟨.NOC_RSV_PATH, 0x1000, [(0x10, 256)], [⟨63, 1, .rw, 0⟩, ⟨48, 12, .rw, 0⟩, ⟨40, 6, .rw, 0⟩, ⟨32, 6, .rw, 0⟩, ⟨24, 5, .rw, 4⟩, ⟨16, 8, .rw, 0⟩, ⟨0, 16, .rw, 0⟩]⟩,
   ⟨.NOC_RSV_OWN, 0x1008, [(0x10, 256)], [⟨63, 1, .ro, 0⟩, ⟨24, 24, .ro, 0⟩, ⟨9, 1, .rw, 1⟩, ⟨8, 1, .rw, 0⟩, ⟨0, 8, .rw, 0⟩]⟩]

/-- The templates of block NOC. -/
def regTableNOC : List RegSpec := regTableNOC0

/-! ### NODE (R226) -/

/-- identity of the node. -/
abbrev R.NOC_NODE_ID (i : Nat) : Nat := 0x2000000 + 0x10000 * i
abbrev L.NOC_NODE_ID.NODE (i : Nat) : Loc := ⟨R.NOC_NODE_ID i, 0, 7⟩

/-- router control. -/
abbrev R.NOC_RTR_CTRL (i : Nat) : Nat := 0x2000008 + 0x10000 * i
abbrev L.NOC_RTR_CTRL.MODE (i : Nat) : Loc := ⟨R.NOC_RTR_CTRL i, 1, 1⟩
abbrev L.NOC_RTR_CTRL.DRAIN (i : Nat) : Loc := ⟨R.NOC_RTR_CTRL i, 0, 1⟩

/-- router state. -/
abbrev R.NOC_RTR_STAT (i : Nat) : Nat := 0x2000010 + 0x10000 * i
abbrev L.NOC_RTR_STAT.DRAIN_WAIT (i : Nat) : Loc := ⟨R.NOC_RTR_STAT i, 2, 1⟩
abbrev L.NOC_RTR_STAT.DRAINED (i : Nat) : Loc := ⟨R.NOC_RTR_STAT i, 1, 1⟩
abbrev L.NOC_RTR_STAT.MODE (i : Nat) : Loc := ⟨R.NOC_RTR_STAT i, 0, 1⟩

/-- link error counts of the node's input links. -/
abbrev R.NOC_RTR_CNT (i : Nat) : Nat := 0x2000018 + 0x10000 * i
abbrev L.NOC_RTR_CNT.CORR (i : Nat) : Loc := ⟨R.NOC_RTR_CNT i, 32, 32⟩
abbrev L.NOC_RTR_CNT.RETRY (i : Nat) : Loc := ⟨R.NOC_RTR_CNT i, 0, 32⟩

/-- VC0 use at the node's NI. -/
abbrev R.NOC_NI_CNT (i : Nat) : Nat := 0x2000020 + 0x10000 * i
abbrev L.NOC_NI_CNT.DEMOTED (i : Nat) : Loc := ⟨R.NOC_NI_CNT i, 32, 32⟩
abbrev L.NOC_NI_CNT.VC0 (i : Nat) : Loc := ⟨R.NOC_NI_CNT i, 0, 32⟩

/-- route to destination node n, for plane P (0 A, 1 B), bank b and n = 0 to 99. Writes follow R213. … -/
abbrev R.NOC_NI_RT (i m n : Nat) : Nat := 0x2001000 + 0x10000 * i + 0x400 * m + 0x8 * n
abbrev L.NOC_NI_RT.VALID (i m n : Nat) : Loc := ⟨R.NOC_NI_RT i m n, 63, 1⟩
abbrev L.NOC_NI_RT.LEN (i m n : Nat) : Loc := ⟨R.NOC_NI_RT i m n, 40, 5⟩
abbrev L.NOC_NI_RT.ROUTE (i m n : Nat) : Loc := ⟨R.NOC_NI_RT i m n, 0, 36⟩

def regTableNODE0 : List RegSpec :=
  [⟨.NOC_NODE_ID, 0x0, [], [⟨0, 7, .ro, 0⟩]⟩,
   ⟨.NOC_RTR_CTRL, 0x8, [], [⟨1, 1, .rw, 1⟩, ⟨0, 1, .rw, 0⟩]⟩,
   ⟨.NOC_RTR_STAT, 0x10, [], [⟨2, 1, .ro, 0⟩, ⟨1, 1, .ro, 0⟩, ⟨0, 1, .ro, 1⟩]⟩,
   ⟨.NOC_RTR_CNT, 0x18, [], [⟨32, 32, .ro, 0⟩, ⟨0, 32, .ro, 0⟩]⟩,
   ⟨.NOC_NI_CNT, 0x20, [], [⟨32, 32, .ro, 0⟩, ⟨0, 32, .ro, 0⟩]⟩,
   ⟨.NOC_NI_RT, 0x1000, [(0x400, 4), (0x8, 100)], [⟨63, 1, .rw, 1⟩, ⟨40, 5, .rw, 0⟩, ⟨0, 36, .rw, 0⟩]⟩]

/-- The templates of block NODE. -/
def regTableNODE : List RegSpec := regTableNODE0

/-! ### MC (R244) -/

/-- identity of the controller. -/
abbrev R.MC_ID (i : Nat) : Nat := 0x1000000 + 0x10000 * i
abbrev L.MC_ID.NUMBER (i : Nat) : Loc := ⟨R.MC_ID i, 0, 6⟩

/-- address order; held in MC0; in other instances it reads MC0's value and writes are ignored. -/
abbrev R.MC_MAP (i : Nat) : Nat := 0x1000008 + 0x10000 * i
abbrev L.MC_MAP.ORDER (i : Nat) : Loc := ⟨R.MC_MAP i, 0, 2⟩

/-- mode requests. -/
abbrev R.MC_CTRL (i : Nat) : Nat := 0x1000010 + 0x10000 * i
abbrev L.MC_CTRL.AUTO_RECOVER (i : Nat) : Loc := ⟨R.MC_CTRL i, 8, 1⟩
abbrev L.MC_CTRL.REQ (i : Nat) : Loc := ⟨R.MC_CTRL i, 0, 2⟩

/-- mode, refresh and queue state. -/
abbrev R.MC_STATUS (i : Nat) : Nat := 0x1000018 + 0x10000 * i
abbrev L.MC_STATUS.WQ_USED (i : Nat) : Loc := ⟨R.MC_STATUS i, 40, 7⟩
abbrev L.MC_STATUS.RT_USED (i : Nat) : Loc := ⟨R.MC_STATUS i, 32, 5⟩
abbrev L.MC_STATUS.OWED (i : Nat) : Loc := ⟨R.MC_STATUS i, 28, 4⟩
abbrev L.MC_STATUS.RATE (i : Nat) : Loc := ⟨R.MC_STATUS i, 24, 2⟩
abbrev L.MC_STATUS.TEMP (i : Nat) : Loc := ⟨R.MC_STATUS i, 16, 8⟩
abbrev L.MC_STATUS.WIN_OPEN (i : Nat) : Loc := ⟨R.MC_STATUS i, 6, 1⟩
abbrev L.MC_STATUS.PANIC (i : Nat) : Loc := ⟨R.MC_STATUS i, 5, 1⟩
abbrev L.MC_STATUS.REPLAY (i : Nat) : Loc := ⟨R.MC_STATUS i, 4, 1⟩
abbrev L.MC_STATUS.MODE (i : Nat) : Loc := ⟨R.MC_STATUS i, 0, 3⟩

/-- refresh timing. -/
abbrev R.MC_REF_CFG (i : Nat) : Nat := 0x1000020 + 0x10000 * i
abbrev L.MC_REF_CFG.GUARD (i : Nat) : Loc := ⟨R.MC_REF_CFG i, 48, 8⟩
abbrev L.MC_REF_CFG.TRFC_PB (i : Nat) : Loc := ⟨R.MC_REF_CFG i, 32, 8⟩
abbrev L.MC_REF_CFG.TRFC_AB (i : Nat) : Loc := ⟨R.MC_REF_CFG i, 16, 16⟩
abbrev L.MC_REF_CFG.TREFI (i : Nat) : Loc := ⟨R.MC_REF_CFG i, 0, 16⟩

/-- refresh counts. -/
abbrev R.MC_REF_CNT (i : Nat) : Nat := 0x1000028 + 0x10000 * i
abbrev L.MC_REF_CNT.FORCED (i : Nat) : Loc := ⟨R.MC_REF_CNT i, 40, 24⟩
abbrev L.MC_REF_CNT.FORCED_CUR (i : Nat) : Loc := ⟨R.MC_REF_CNT i, 32, 8⟩
abbrev L.MC_REF_CNT.WINDOW (i : Nat) : Loc := ⟨R.MC_REF_CNT i, 0, 32⟩

/-- panic, watermarks and ageing. -/
abbrev R.MC_QOS (i : Nat) : Nat := 0x1000030 + 0x10000 * i
abbrev L.MC_QOS.PAGE_IDLE (i : Nat) : Loc := ⟨R.MC_QOS i, 48, 8⟩
abbrev L.MC_QOS.STARVE (i : Nat) : Loc := ⟨R.MC_QOS i, 32, 16⟩
abbrev L.MC_QOS.WR_LO (i : Nat) : Loc := ⟨R.MC_QOS i, 24, 7⟩
abbrev L.MC_QOS.WR_HI (i : Nat) : Loc := ⟨R.MC_QOS i, 16, 7⟩
abbrev L.MC_QOS.PANIC_OFF (i : Nat) : Loc := ⟨R.MC_QOS i, 8, 5⟩
abbrev L.MC_QOS.PANIC_ON (i : Nat) : Loc := ⟨R.MC_QOS i, 0, 5⟩

/-- panic counts. -/
abbrev R.MC_QOS_CNT (i : Nat) : Nat := 0x1000038 + 0x10000 * i
abbrev L.MC_QOS_CNT.PANIC_US (i : Nat) : Loc := ⟨R.MC_QOS_CNT i, 32, 32⟩
abbrev L.MC_QOS_CNT.PANIC (i : Nat) : Loc := ⟨R.MC_QOS_CNT i, 0, 32⟩

/-- parity counts. -/
abbrev R.MC_PAR_CNT (i : Nat) : Nat := 0x1000040 + 0x10000 * i
abbrev L.MC_PAR_CNT.REPLAY (i : Nat) : Loc := ⟨R.MC_PAR_CNT i, 32, 32⟩
abbrev L.MC_PAR_CNT.ALERT (i : Nat) : Loc := ⟨R.MC_PAR_CNT i, 0, 32⟩

/-- ECC counts. -/
abbrev R.MC_ECC_CNT (i : Nat) : Nat := 0x1000048 + 0x10000 * i
abbrev L.MC_ECC_CNT.UE (i : Nat) : Loc := ⟨R.MC_ECC_CNT i, 32, 32⟩
abbrev L.MC_ECC_CNT.CE (i : Nat) : Loc := ⟨R.MC_ECC_CNT i, 0, 32⟩

/-- latest ECC event. -/
abbrev R.MC_ECC_LAST (i : Nat) : Nat := 0x1000050 + 0x10000 * i
abbrev L.MC_ECC_LAST.KIND (i : Nat) : Loc := ⟨R.MC_ECC_LAST i, 62, 2⟩
abbrev L.MC_ECC_LAST.PC (i : Nat) : Loc := ⟨R.MC_ECC_LAST i, 48, 1⟩
abbrev L.MC_ECC_LAST.LINE (i : Nat) : Loc := ⟨R.MC_ECC_LAST i, 6, 42⟩

/-- controller events. -/
abbrev R.MC_EVT (i : Nat) : Nat := 0x1000058 + 0x10000 * i
abbrev L.MC_EVT.NOT_READY (i : Nat) : Loc := ⟨R.MC_EVT i, 10, 1⟩
abbrev L.MC_EVT.TEMP_RATE (i : Nat) : Loc := ⟨R.MC_EVT i, 9, 1⟩
abbrev L.MC_EVT.MODE_CHG (i : Nat) : Loc := ⟨R.MC_EVT i, 8, 1⟩
abbrev L.MC_EVT.TRAIN_FAIL (i : Nat) : Loc := ⟨R.MC_EVT i, 7, 1⟩
abbrev L.MC_EVT.ECC_UE (i : Nat) : Loc := ⟨R.MC_EVT i, 6, 1⟩
abbrev L.MC_EVT.ECC_CE (i : Nat) : Loc := ⟨R.MC_EVT i, 5, 1⟩
abbrev L.MC_EVT.REPLAY_FAIL (i : Nat) : Loc := ⟨R.MC_EVT i, 4, 1⟩
abbrev L.MC_EVT.PAR_ALERT (i : Nat) : Loc := ⟨R.MC_EVT i, 3, 1⟩
abbrev L.MC_EVT.FORCED2 (i : Nat) : Loc := ⟨R.MC_EVT i, 2, 1⟩
abbrev L.MC_EVT.FORCED (i : Nat) : Loc := ⟨R.MC_EVT i, 1, 1⟩
abbrev L.MC_EVT.PANIC (i : Nat) : Loc := ⟨R.MC_EVT i, 0, 1⟩

/-- event enables. -/
abbrev R.MC_EVT_EN (i : Nat) : Nat := 0x1000060 + 0x10000 * i
abbrev L.MC_EVT_EN.EN (i : Nat) : Loc := ⟨R.MC_EVT_EN i, 0, 11⟩

/-- training criterion. -/
abbrev R.MC_TRAIN_CFG (i : Nat) : Nat := 0x1000068 + 0x10000 * i
abbrev L.MC_TRAIN_CFG.MIN_EYE (i : Nat) : Loc := ⟨R.MC_TRAIN_CFG i, 0, 7⟩

/-- results of byte lane n, for n = 0 to 7; lanes 0 to 3 form PC0 and lanes 4 to 7 form PC1. -/
abbrev R.MC_TRAIN_LANE (i n : Nat) : Nat := 0x1000100 + 0x10000 * i + 0x8 * n
abbrev L.MC_TRAIN_LANE.PASS (i n : Nat) : Loc := ⟨R.MC_TRAIN_LANE i n, 63, 1⟩
abbrev L.MC_TRAIN_LANE.WR_VREF (i n : Nat) : Loc := ⟨R.MC_TRAIN_LANE i n, 40, 6⟩
abbrev L.MC_TRAIN_LANE.RD_VREF (i n : Nat) : Loc := ⟨R.MC_TRAIN_LANE i n, 32, 6⟩
abbrev L.MC_TRAIN_LANE.WR_WIDTH (i n : Nat) : Loc := ⟨R.MC_TRAIN_LANE i n, 24, 7⟩
abbrev L.MC_TRAIN_LANE.WR_CTR (i n : Nat) : Loc := ⟨R.MC_TRAIN_LANE i n, 16, 7⟩
abbrev L.MC_TRAIN_LANE.RD_WIDTH (i n : Nat) : Loc := ⟨R.MC_TRAIN_LANE i n, 8, 7⟩
abbrev L.MC_TRAIN_LANE.RD_CTR (i n : Nat) : Loc := ⟨R.MC_TRAIN_LANE i n, 0, 7⟩

def regTableMC0 : List RegSpec :=
  [⟨.MC_ID, 0x0, [], [⟨0, 6, .ro, 0⟩]⟩,
   ⟨.MC_MAP, 0x8, [], [⟨0, 2, .rw, 0⟩]⟩,
   ⟨.MC_CTRL, 0x10, [], [⟨8, 1, .rw, 1⟩, ⟨0, 2, .wo, 0⟩]⟩,
   ⟨.MC_STATUS, 0x18, [], [⟨40, 7, .ro, 0⟩, ⟨32, 5, .ro, 0⟩, ⟨28, 4, .ro, 0⟩, ⟨24, 2, .ro, 0⟩, ⟨16, 8, .ro, 0⟩, ⟨6, 1, .ro, 0⟩, ⟨5, 1, .ro, 0⟩, ⟨4, 1, .ro, 0⟩, ⟨0, 3, .ro, 0⟩]⟩,
   ⟨.MC_REF_CFG, 0x20, [], [⟨48, 8, .rw, 0xf0⟩, ⟨32, 8, .rw, 0x28⟩, ⟨16, 16, .rw, 0x15e⟩, ⟨0, 16, .rw, 0xf3c⟩]⟩,
   ⟨.MC_REF_CNT, 0x28, [], [⟨40, 24, .ro, 0⟩, ⟨32, 8, .ro, 0⟩, ⟨0, 32, .ro, 0⟩]⟩,
   ⟨.MC_QOS, 0x30, [], [⟨48, 8, .rw, 0x64⟩, ⟨32, 16, .rw, 0x7d0⟩, ⟨24, 7, .rw, 0x10⟩, ⟨16, 7, .rw, 0x30⟩, ⟨8, 5, .rw, 4⟩, ⟨0, 5, .rw, 0xc⟩]⟩,
   ⟨.MC_QOS_CNT, 0x38, [], [⟨32, 32, .ro, 0⟩, ⟨0, 32, .ro, 0⟩]⟩,
   ⟨.MC_PAR_CNT, 0x40, [], [⟨32, 32, .ro, 0⟩, ⟨0, 32, .ro, 0⟩]⟩,
   ⟨.MC_ECC_CNT, 0x48, [], [⟨32, 32, .ro, 0⟩, ⟨0, 32, .ro, 0⟩]⟩,
   ⟨.MC_ECC_LAST, 0x50, [], [⟨62, 2, .ro, 0⟩, ⟨48, 1, .ro, 0⟩, ⟨6, 42, .ro, 0⟩]⟩,
   ⟨.MC_EVT, 0x58, [], [⟨10, 1, .w1c, 0⟩, ⟨9, 1, .w1c, 0⟩, ⟨8, 1, .w1c, 0⟩, ⟨7, 1, .w1c, 0⟩, ⟨6, 1, .w1c, 0⟩, ⟨5, 1, .w1c, 0⟩, ⟨4, 1, .w1c, 0⟩, ⟨3, 1, .w1c, 0⟩, ⟨2, 1, .w1c, 0⟩, ⟨1, 1, .w1c, 0⟩, ⟨0, 1, .w1c, 0⟩]⟩]

def regTableMC1 : List RegSpec :=
  [⟨.MC_EVT_EN, 0x60, [], [⟨0, 11, .rw, 0x7de⟩]⟩,
   ⟨.MC_TRAIN_CFG, 0x68, [], [⟨0, 7, .rw, 0x18⟩]⟩,
   ⟨.MC_TRAIN_LANE, 0x100, [(0x8, 8)], [⟨63, 1, .ro, 0⟩, ⟨40, 6, .ro, 0⟩, ⟨32, 6, .ro, 0⟩, ⟨24, 7, .ro, 0⟩, ⟨16, 7, .ro, 0⟩, ⟨8, 7, .ro, 0⟩, ⟨0, 7, .ro, 0⟩]⟩]

/-- The templates of block MC. -/
def regTableMC : List RegSpec := regTableMC0 ++ regTableMC1

/-! ### XE (R245) -/

/-- keys held. -/
abbrev R.XE_STATUS (i : Nat) : Nat := 0x1400000 + 0x10000 * i
abbrev L.XE_STATUS.KEY_VALID (i : Nat) : Loc := ⟨R.XE_STATUS i, 0, 16⟩

/-- key load command of the accessing world. -/
abbrev R.XE_KEYLOAD (w : Bool) (i : Nat) : Nat := 0x1400008 + 0x10000 * i + openBank w
abbrev L.XE_KEYLOAD.GO (w : Bool) (i : Nat) : Loc := ⟨R.XE_KEYLOAD w i, 63, 1⟩
abbrev L.XE_KEYLOAD.CLEAR (w : Bool) (i : Nat) : Loc := ⟨R.XE_KEYLOAD w i, 20, 1⟩
abbrev L.XE_KEYLOAD.INDEX (w : Bool) (i : Nat) : Loc := ⟨R.XE_KEYLOAD w i, 16, 4⟩
abbrev L.XE_KEYLOAD.SLOT (w : Bool) (i : Nat) : Loc := ⟨R.XE_KEYLOAD w i, 0, 8⟩

/-- key load result of the accessing world. -/
abbrev R.XE_KEYRES (w : Bool) (i : Nat) : Nat := 0x1400010 + 0x10000 * i + openBank w
abbrev L.XE_KEYRES.READY (w : Bool) (i : Nat) : Loc := ⟨R.XE_KEYRES w i, 63, 1⟩
abbrev L.XE_KEYRES.ACK (w : Bool) (i : Nat) : Loc := ⟨R.XE_KEYRES w i, 62, 1⟩
abbrev L.XE_KEYRES.STATUS (w : Bool) (i : Nat) : Loc := ⟨R.XE_KEYRES w i, 0, 8⟩

/-- engine counts. -/
abbrev R.XE_CNT (i : Nat) : Nat := 0x1400018 + 0x10000 * i
abbrev L.XE_CNT.KEY_MISS (i : Nat) : Loc := ⟨R.XE_CNT i, 32, 32⟩
abbrev L.XE_CNT.BYPASS (i : Nat) : Loc := ⟨R.XE_CNT i, 0, 32⟩

/-- encryption region r, for r = 0 to 15. -/
abbrev R.XE_REGION (i n : Nat) : Nat := 0x1400100 + 0x10000 * i + 0x8 * n
abbrev L.XE_REGION.EN (i n : Nat) : Loc := ⟨R.XE_REGION i n, 63, 1⟩
abbrev L.XE_REGION.WORLD (i n : Nat) : Loc := ⟨R.XE_REGION i n, 62, 1⟩
abbrev L.XE_REGION.LOG2SZ (i n : Nat) : Loc := ⟨R.XE_REGION i n, 50, 6⟩
abbrev L.XE_REGION.BASE (i n : Nat) : Loc := ⟨R.XE_REGION i n, 21, 27⟩
abbrev L.XE_REGION.INDEX (i n : Nat) : Loc := ⟨R.XE_REGION i n, 0, 4⟩

def regTableXE0 : List RegSpec :=
  [⟨.XE_STATUS, 0x0, [], [⟨0, 16, .ro, 0⟩]⟩,
   ⟨.XE_KEYLOAD, 0x8, [], [⟨63, 1, .wo, 0⟩, ⟨20, 1, .wo, 0⟩, ⟨16, 4, .wo, 0⟩, ⟨0, 8, .wo, 0⟩]⟩,
   ⟨.XE_KEYRES, 0x10, [], [⟨63, 1, .ro, 0⟩, ⟨62, 1, .wo, 0⟩, ⟨0, 8, .ro, 0xff⟩]⟩,
   ⟨.XE_CNT, 0x18, [], [⟨32, 32, .ro, 0⟩, ⟨0, 32, .ro, 0⟩]⟩,
   ⟨.XE_REGION, 0x100, [(0x8, 16)], [⟨63, 1, .rw, 0⟩, ⟨62, 1, .rw, 1⟩, ⟨50, 6, .rw, 0x15⟩, ⟨21, 27, .rw, 0⟩, ⟨0, 4, .rw, 0⟩]⟩]

/-- The templates of block XE. -/
def regTableXE : List RegSpec := regTableXE0

/-! ### QE (R281) -/

/-- identity of the engine. -/
abbrev R.QE_ID (i : Nat) : Nat := 0x400000 + 0x10000 * i
abbrev L.QE_ID.NUMBER (i : Nat) : Loc := ⟨R.QE_ID i, 0, 3⟩

/-- engine state. -/
abbrev R.QE_STATUS (i : Nat) : Nat := 0x400008 + 0x10000 * i
abbrev L.QE_STATUS.WORLD (i : Nat) : Loc := ⟨R.QE_STATUS i, 32, 1⟩
abbrev L.QE_STATUS.VI (i : Nat) : Loc := ⟨R.QE_STATUS i, 24, 8⟩
abbrev L.QE_STATUS.VI_VALID (i : Nat) : Loc := ⟨R.QE_STATUS i, 16, 1⟩
abbrev L.QE_STATUS.ACTIVE (i : Nat) : Loc := ⟨R.QE_STATUS i, 8, 4⟩
abbrev L.QE_STATUS.PENDING (i : Nat) : Loc := ⟨R.QE_STATUS i, 0, 5⟩

/-- engine events. -/
abbrev R.QE_EVT (i : Nat) : Nat := 0x400010 + 0x10000 * i
abbrev L.QE_EVT.CQ_FULL (i : Nat) : Loc := ⟨R.QE_EVT i, 3, 1⟩
abbrev L.QE_EVT.SPILL_ERR (i : Nat) : Loc := ⟨R.QE_EVT i, 2, 1⟩
abbrev L.QE_EVT.CMD_ERR (i : Nat) : Loc := ⟨R.QE_EVT i, 1, 1⟩
abbrev L.QE_EVT.OVERRUN (i : Nat) : Loc := ⟨R.QE_EVT i, 0, 1⟩

/-- event enables. -/
abbrev R.QE_EVT_EN (i : Nat) : Nat := 0x400018 + 0x10000 * i
abbrev L.QE_EVT_EN.EN (i : Nat) : Loc := ⟨R.QE_EVT_EN i, 0, 4⟩

/-- engine counts. -/
abbrev R.QE_CNT (i : Nat) : Nat := 0x400020 + 0x10000 * i
abbrev L.QE_CNT.CMDS (i : Nat) : Loc := ⟨R.QE_CNT i, 32, 32⟩
abbrev L.QE_CNT.KIB (i : Nat) : Loc := ⟨R.QE_CNT i, 0, 32⟩

/-- channel c, for c = 0 to 15. -/
abbrev R.QE_CH_CFG (i n : Nat) : Nat := 0x401000 + 0x10000 * i + 0x40 * n
abbrev L.QE_CH_CFG.EN (i n : Nat) : Loc := ⟨R.QE_CH_CFG i n, 63, 1⟩
abbrev L.QE_CH_CFG.VI_VALID (i n : Nat) : Loc := ⟨R.QE_CH_CFG i n, 8, 1⟩
abbrev L.QE_CH_CFG.VI (i n : Nat) : Loc := ⟨R.QE_CH_CFG i n, 0, 8⟩

/-- submission and completion rings of channel c. -/
abbrev R.QE_CH_SQ (i n : Nat) : Nat := 0x401008 + 0x10000 * i + 0x40 * n
abbrev L.QE_CH_SQ.LOG2N (i n : Nat) : Loc := ⟨R.QE_CH_SQ i n, 48, 4⟩
abbrev L.QE_CH_SQ.BASE (i n : Nat) : Loc := ⟨R.QE_CH_SQ i n, 12, 36⟩

/-- submission and completion rings of channel c. -/
abbrev R.QE_CH_CQ (i n : Nat) : Nat := 0x401010 + 0x10000 * i + 0x40 * n
abbrev L.QE_CH_CQ.LOG2N (i n : Nat) : Loc := ⟨R.QE_CH_CQ i n, 48, 4⟩
abbrev L.QE_CH_CQ.BASE (i n : Nat) : Loc := ⟨R.QE_CH_CQ i n, 12, 36⟩

/-- ring indices of channel c. -/
abbrev R.QE_CH_IDX (i n : Nat) : Nat := 0x401018 + 0x10000 * i + 0x40 * n
abbrev L.QE_CH_IDX.CQ_HEAD (i n : Nat) : Loc := ⟨R.QE_CH_IDX i n, 48, 16⟩
abbrev L.QE_CH_IDX.CQ_TAIL (i n : Nat) : Loc := ⟨R.QE_CH_IDX i n, 32, 16⟩
abbrev L.QE_CH_IDX.SQ_TAIL (i n : Nat) : Loc := ⟨R.QE_CH_IDX i n, 16, 16⟩
abbrev L.QE_CH_IDX.SQ_HEAD (i n : Nat) : Loc := ⟨R.QE_CH_IDX i n, 0, 16⟩

/-- interrupt of channel c. -/
abbrev R.QE_CH_MSI (i n : Nat) : Nat := 0x401020 + 0x10000 * i + 0x40 * n
abbrev L.QE_CH_MSI.EN (i n : Nat) : Loc := ⟨R.QE_CH_MSI i n, 63, 1⟩
abbrev L.QE_CH_MSI.DATA (i n : Nat) : Loc := ⟨R.QE_CH_MSI i n, 48, 11⟩
abbrev L.QE_CH_MSI.ADDR (i n : Nat) : Loc := ⟨R.QE_CH_MSI i n, 2, 46⟩

/-- manager doorbell of channel c. -/
abbrev R.QE_CH_DB (i n : Nat) : Nat := 0x401028 + 0x10000 * i + 0x40 * n
abbrev L.QE_CH_DB.CQ_V (i n : Nat) : Loc := ⟨R.QE_CH_DB i n, 33, 1⟩
abbrev L.QE_CH_DB.SQ_V (i n : Nat) : Loc := ⟨R.QE_CH_DB i n, 32, 1⟩
abbrev L.QE_CH_DB.CQ_HEAD (i n : Nat) : Loc := ⟨R.QE_CH_DB i n, 16, 16⟩
abbrev L.QE_CH_DB.SQ_TAIL (i n : Nat) : Loc := ⟨R.QE_CH_DB i n, 0, 16⟩

/-- queue i, for i = 0 to 511. -/
abbrev R.QE_Q_CFG (i n : Nat) : Nat := 0x404000 + 0x10000 * i + 0x20 * n
abbrev L.QE_Q_CFG.EN (i n : Nat) : Loc := ⟨R.QE_Q_CFG i n, 63, 1⟩
abbrev L.QE_Q_CFG.FLUSH (i n : Nat) : Loc := ⟨R.QE_Q_CFG i n, 62, 1⟩
abbrev L.QE_Q_CFG.WORLD (i n : Nat) : Loc := ⟨R.QE_Q_CFG i n, 61, 1⟩
abbrev L.QE_Q_CFG.VI_VALID (i n : Nat) : Loc := ⟨R.QE_Q_CFG i n, 60, 1⟩
abbrev L.QE_Q_CFG.VI (i n : Nat) : Loc := ⟨R.QE_Q_CFG i n, 52, 8⟩
abbrev L.QE_Q_CFG.LIMIT (i n : Nat) : Loc := ⟨R.QE_Q_CFG i n, 0, 19⟩

/-- spill region of queue i. -/
abbrev R.QE_Q_SPILL (i n : Nat) : Nat := 0x404008 + 0x10000 * i + 0x20 * n
abbrev L.QE_Q_SPILL.LOG2SZ (i n : Nat) : Loc := ⟨R.QE_Q_SPILL i n, 48, 6⟩
abbrev L.QE_Q_SPILL.BASE (i n : Nat) : Loc := ⟨R.QE_Q_SPILL i n, 12, 36⟩

/-- sideband array of queue i. -/
abbrev R.QE_Q_SB (i n : Nat) : Nat := 0x404010 + 0x10000 * i + 0x20 * n
abbrev L.QE_Q_SB.SB_BASE (i n : Nat) : Loc := ⟨R.QE_Q_SB i n, 6, 42⟩

/-- state of queue i. -/
abbrev R.QE_Q_STAT (i n : Nat) : Nat := 0x404018 + 0x10000 * i + 0x20 * n
abbrev L.QE_Q_STAT.OVERRUN (i n : Nat) : Loc := ⟨R.QE_Q_STAT i n, 63, 1⟩
abbrev L.QE_Q_STAT.FULL (i n : Nat) : Loc := ⟨R.QE_Q_STAT i n, 62, 1⟩
abbrev L.QE_Q_STAT.DISCARD (i n : Nat) : Loc := ⟨R.QE_Q_STAT i n, 61, 1⟩
abbrev L.QE_Q_STAT.STATE (i n : Nat) : Loc := ⟨R.QE_Q_STAT i n, 59, 2⟩
abbrev L.QE_Q_STAT.DROPS (i n : Nat) : Loc := ⟨R.QE_Q_STAT i n, 40, 16⟩
abbrev L.QE_Q_STAT.OCC (i n : Nat) : Loc := ⟨R.QE_Q_STAT i n, 0, 19⟩

def regTableQE0 : List RegSpec :=
  [⟨.QE_ID, 0x0, [], [⟨0, 3, .ro, 0⟩]⟩,
   ⟨.QE_STATUS, 0x8, [], [⟨32, 1, .ro, 1⟩, ⟨24, 8, .ro, 0⟩, ⟨16, 1, .ro, 0⟩, ⟨8, 4, .ro, 0⟩, ⟨0, 5, .ro, 0⟩]⟩,
   ⟨.QE_EVT, 0x10, [], [⟨3, 1, .w1c, 0⟩, ⟨2, 1, .w1c, 0⟩, ⟨1, 1, .w1c, 0⟩, ⟨0, 1, .w1c, 0⟩]⟩,
   ⟨.QE_EVT_EN, 0x18, [], [⟨0, 4, .rw, 6⟩]⟩,
   ⟨.QE_CNT, 0x20, [], [⟨32, 32, .ro, 0⟩, ⟨0, 32, .ro, 0⟩]⟩,
   ⟨.QE_CH_CFG, 0x1000, [(0x40, 16)], [⟨63, 1, .rw, 0⟩, ⟨8, 1, .ro, 0⟩, ⟨0, 8, .ro, 0⟩]⟩,
   ⟨.QE_CH_SQ, 0x1008, [(0x40, 16)], [⟨48, 4, .rw, 3⟩, ⟨12, 36, .rw, 0⟩]⟩,
   ⟨.QE_CH_CQ, 0x1010, [(0x40, 16)], [⟨48, 4, .rw, 3⟩, ⟨12, 36, .rw, 0⟩]⟩,
   ⟨.QE_CH_IDX, 0x1018, [(0x40, 16)], [⟨48, 16, .ro, 0⟩, ⟨32, 16, .ro, 0⟩, ⟨16, 16, .ro, 0⟩, ⟨0, 16, .ro, 0⟩]⟩,
   ⟨.QE_CH_MSI, 0x1020, [(0x40, 16)], [⟨63, 1, .rw, 0⟩, ⟨48, 11, .rw, 0⟩, ⟨2, 46, .rw, 0⟩]⟩,
   ⟨.QE_CH_DB, 0x1028, [(0x40, 16)], [⟨33, 1, .wo, 0⟩, ⟨32, 1, .wo, 0⟩, ⟨16, 16, .wo, 0⟩, ⟨0, 16, .wo, 0⟩]⟩,
   ⟨.QE_Q_CFG, 0x4000, [(0x20, 512)], [⟨63, 1, .rw, 0⟩, ⟨62, 1, .wo, 0⟩, ⟨61, 1, .ro, 1⟩, ⟨60, 1, .ro, 0⟩, ⟨52, 8, .ro, 0⟩, ⟨0, 19, .rw, 0x10⟩]⟩]

def regTableQE1 : List RegSpec :=
  [⟨.QE_Q_SPILL, 0x4008, [(0x20, 512)], [⟨48, 6, .rw, 0xc⟩, ⟨12, 36, .rw, 0⟩]⟩,
   ⟨.QE_Q_SB, 0x4010, [(0x20, 512)], [⟨6, 42, .rw, 0⟩]⟩,
   ⟨.QE_Q_STAT, 0x4018, [(0x20, 512)], [⟨63, 1, .w1c, 0⟩, ⟨62, 1, .ro, 0⟩, ⟨61, 1, .ro, 0⟩, ⟨59, 2, .ro, 0⟩, ⟨40, 16, .ro, 0⟩, ⟨0, 19, .ro, 0⟩]⟩]

/-- The templates of block QE. -/
def regTableQE : List RegSpec := regTableQE0 ++ regTableQE1

/-! ### VI (R282) -/

/-- instances available to the Open world; writable by the Sealed world only. -/
abbrev R.VI_AVAIL (i : Nat) : Nat := 0x480000 + 0x10000 * i
abbrev L.VI_AVAIL.OPEN (i : Nat) : Loc := ⟨R.VI_AVAIL i, 0, 32⟩

/-- administration command of the accessing world. -/
abbrev R.VI_ADMIN_CMD (w : Bool) (i : Nat) : Nat := 0x480008 + 0x10000 * i + openBank w
abbrev L.VI_ADMIN_CMD.GO (w : Bool) (i : Nat) : Loc := ⟨R.VI_ADMIN_CMD w i, 63, 1⟩
abbrev L.VI_ADMIN_CMD.VI (w : Bool) (i : Nat) : Loc := ⟨R.VI_ADMIN_CMD w i, 57, 5⟩
abbrev L.VI_ADMIN_CMD.CMD (w : Bool) (i : Nat) : Loc := ⟨R.VI_ADMIN_CMD w i, 48, 4⟩
abbrev L.VI_ADMIN_CMD.REC (w : Bool) (i : Nat) : Loc := ⟨R.VI_ADMIN_CMD w i, 6, 42⟩

/-- result of the accessing world's command. -/
abbrev R.VI_ADMIN_RES (w : Bool) (i : Nat) : Nat := 0x480010 + 0x10000 * i + openBank w
abbrev L.VI_ADMIN_RES.READY (w : Bool) (i : Nat) : Loc := ⟨R.VI_ADMIN_RES w i, 63, 1⟩
abbrev L.VI_ADMIN_RES.ACK (w : Bool) (i : Nat) : Loc := ⟨R.VI_ADMIN_RES w i, 62, 1⟩
abbrev L.VI_ADMIN_RES.GEN (w : Bool) (i : Nat) : Loc := ⟨R.VI_ADMIN_RES w i, 8, 8⟩
abbrev L.VI_ADMIN_RES.STATUS (w : Bool) (i : Nat) : Loc := ⟨R.VI_ADMIN_RES w i, 0, 8⟩

/-- state of instance j. -/
abbrev R.VI_STATE (i n : Nat) : Nat := 0x481000 + 0x10000 * i + 0x80 * n
abbrev L.VI_STATE.LATE (i n : Nat) : Loc := ⟨R.VI_STATE i n, 32, 32⟩
abbrev L.VI_STATE.PEND (i n : Nat) : Loc := ⟨R.VI_STATE i n, 24, 1⟩
abbrev L.VI_STATE.GEN (i n : Nat) : Loc := ⟨R.VI_STATE i n, 16, 8⟩
abbrev L.VI_STATE.WORLD (i n : Nat) : Loc := ⟨R.VI_STATE i n, 8, 1⟩
abbrev L.VI_STATE.STATE (i n : Nat) : Loc := ⟨R.VI_STATE i n, 0, 3⟩

/-- share word in force, in the layout of Table 11.8 word 7; RO, reset 0. -/
abbrev R.VI_SHARE (i n : Nat) : Nat := 0x481008 + 0x10000 * i + 0x80 * n
abbrev L.VI_SHARE.QLIMIT (i n : Nat) : Loc := ⟨R.VI_SHARE i n, 40, 19⟩
abbrev L.VI_SHARE.BW (i n : Nat) : Loc := ⟨R.VI_SHARE i n, 16, 24⟩
abbrev L.VI_SHARE.BUDGET (i n : Nat) : Loc := ⟨R.VI_SHARE i n, 0, 16⟩

/-- mailbox rings, as the tenant addresses them. -/
abbrev R.VI_MBOX_M2T (i n : Nat) : Nat := 0x481010 + 0x10000 * i + 0x80 * n
abbrev L.VI_MBOX_M2T.LOG2N (i n : Nat) : Loc := ⟨R.VI_MBOX_M2T i n, 48, 4⟩
abbrev L.VI_MBOX_M2T.BASE (i n : Nat) : Loc := ⟨R.VI_MBOX_M2T i n, 12, 36⟩

/-- mailbox rings, as the tenant addresses them. -/
abbrev R.VI_MBOX_T2M (i n : Nat) : Nat := 0x481018 + 0x10000 * i + 0x80 * n
abbrev L.VI_MBOX_T2M.LOG2N (i n : Nat) : Loc := ⟨R.VI_MBOX_T2M i n, 48, 4⟩
abbrev L.VI_MBOX_T2M.BASE (i n : Nat) : Loc := ⟨R.VI_MBOX_T2M i n, 12, 36⟩

/-- mailbox indices, manager view. -/
abbrev R.VI_MBOX_IDX (i n : Nat) : Nat := 0x481020 + 0x10000 * i + 0x80 * n
abbrev L.VI_MBOX_IDX.T2M_PROD (i n : Nat) : Loc := ⟨R.VI_MBOX_IDX i n, 48, 16⟩
abbrev L.VI_MBOX_IDX.T2M_CONS (i n : Nat) : Loc := ⟨R.VI_MBOX_IDX i n, 32, 16⟩
abbrev L.VI_MBOX_IDX.M2T_CONS (i n : Nat) : Loc := ⟨R.VI_MBOX_IDX i n, 16, 16⟩
abbrev L.VI_MBOX_IDX.M2T_PROD (i n : Nat) : Loc := ⟨R.VI_MBOX_IDX i n, 0, 16⟩

/-- manager and tenant mailbox interrupts; same fields as QE_CH_MSI. -/
abbrev R.VI_MSI_M (i n : Nat) : Nat := 0x481028 + 0x10000 * i + 0x80 * n
abbrev L.VI_MSI_M.EN (i n : Nat) : Loc := ⟨R.VI_MSI_M i n, 63, 1⟩
abbrev L.VI_MSI_M.DATA (i n : Nat) : Loc := ⟨R.VI_MSI_M i n, 48, 11⟩
abbrev L.VI_MSI_M.ADDR (i n : Nat) : Loc := ⟨R.VI_MSI_M i n, 2, 46⟩

/-- manager and tenant mailbox interrupts; same fields as QE_CH_MSI. -/
abbrev R.VI_MSI_T (i n : Nat) : Nat := 0x481030 + 0x10000 * i + 0x80 * n
abbrev L.VI_MSI_T.EN (i n : Nat) : Loc := ⟨R.VI_MSI_T i n, 63, 1⟩
abbrev L.VI_MSI_T.DATA (i n : Nat) : Loc := ⟨R.VI_MSI_T i n, 48, 11⟩
abbrev L.VI_MSI_T.ADDR (i n : Nat) : Loc := ⟨R.VI_MSI_T i n, 2, 46⟩

/-- dirty-page logging. -/
abbrev R.VI_DIRTY_CTRL (i n : Nat) : Nat := 0x481038 + 0x10000 * i + 0x80 * n
abbrev L.VI_DIRTY_CTRL.EN (i n : Nat) : Loc := ⟨R.VI_DIRTY_CTRL i n, 63, 1⟩
abbrev L.VI_DIRTY_CTRL.SWAP (i n : Nat) : Loc := ⟨R.VI_DIRTY_CTRL i n, 62, 1⟩
abbrev L.VI_DIRTY_CTRL.ACTIVE (i n : Nat) : Loc := ⟨R.VI_DIRTY_CTRL i n, 61, 1⟩
abbrev L.VI_DIRTY_CTRL.BUSY (i n : Nat) : Loc := ⟨R.VI_DIRTY_CTRL i n, 60, 1⟩
abbrev L.VI_DIRTY_CTRL.PAGES (i n : Nat) : Loc := ⟨R.VI_DIRTY_CTRL i n, 0, 32⟩

/-- bitmap bases. -/
abbrev R.VI_DIRTY_B0 (i n : Nat) : Nat := 0x481040 + 0x10000 * i + 0x80 * n
abbrev L.VI_DIRTY_B0.BASE (i n : Nat) : Loc := ⟨R.VI_DIRTY_B0 i n, 12, 36⟩

/-- bitmap bases. -/
abbrev R.VI_DIRTY_B1 (i n : Nat) : Nat := 0x481048 + 0x10000 * i + 0x80 * n
abbrev L.VI_DIRTY_B1.BASE (i n : Nat) : Loc := ⟨R.VI_DIRTY_B1 i n, 12, 36⟩

/-- logging status. -/
abbrev R.VI_DIRTY_STAT (i n : Nat) : Nat := 0x481050 + 0x10000 * i + 0x80 * n
abbrev L.VI_DIRTY_STAT.OVF (i n : Nat) : Loc := ⟨R.VI_DIRTY_STAT i n, 0, 1⟩

def regTableVI0 : List RegSpec :=
  [⟨.VI_AVAIL, 0x0, [], [⟨0, 32, .rw, 0⟩]⟩,
   ⟨.VI_ADMIN_CMD, 0x8, [], [⟨63, 1, .wo, 0⟩, ⟨57, 5, .rw, 0⟩, ⟨48, 4, .rw, 0⟩, ⟨6, 42, .rw, 0⟩]⟩,
   ⟨.VI_ADMIN_RES, 0x10, [], [⟨63, 1, .ro, 0⟩, ⟨62, 1, .wo, 0⟩, ⟨8, 8, .ro, 0xff⟩, ⟨0, 8, .ro, 0xff⟩]⟩,
   ⟨.VI_STATE, 0x1000, [(0x80, 32)], [⟨32, 32, .ro, 0⟩, ⟨24, 1, .ro, 0⟩, ⟨16, 8, .ro, 0⟩, ⟨8, 1, .ro, 0⟩, ⟨0, 3, .ro, 0⟩]⟩,
   ⟨.VI_SHARE, 0x1008, [(0x80, 32)], [⟨40, 19, .ro, 0⟩, ⟨16, 24, .ro, 0⟩, ⟨0, 16, .ro, 0⟩]⟩,
   ⟨.VI_MBOX_M2T, 0x1010, [(0x80, 32)], [⟨48, 4, .rw, 3⟩, ⟨12, 36, .rw, 0⟩]⟩,
   ⟨.VI_MBOX_T2M, 0x1018, [(0x80, 32)], [⟨48, 4, .rw, 3⟩, ⟨12, 36, .rw, 0⟩]⟩,
   ⟨.VI_MBOX_IDX, 0x1020, [(0x80, 32)], [⟨48, 16, .ro, 0⟩, ⟨32, 16, .rw, 0⟩, ⟨16, 16, .ro, 0⟩, ⟨0, 16, .rw, 0⟩]⟩,
   ⟨.VI_MSI_M, 0x1028, [(0x80, 32)], [⟨63, 1, .rw, 0⟩, ⟨48, 11, .rw, 0⟩, ⟨2, 46, .rw, 0⟩]⟩,
   ⟨.VI_MSI_T, 0x1030, [(0x80, 32)], [⟨63, 1, .rw, 0⟩, ⟨48, 11, .rw, 0⟩, ⟨2, 46, .rw, 0⟩]⟩,
   ⟨.VI_DIRTY_CTRL, 0x1038, [(0x80, 32)], [⟨63, 1, .rw, 0⟩, ⟨62, 1, .wo, 0⟩, ⟨61, 1, .ro, 0⟩, ⟨60, 1, .ro, 0⟩, ⟨0, 32, .rw, 0⟩]⟩,
   ⟨.VI_DIRTY_B0, 0x1040, [(0x80, 32)], [⟨12, 36, .rw, 0⟩]⟩]

def regTableVI1 : List RegSpec :=
  [⟨.VI_DIRTY_B1, 0x1048, [(0x80, 32)], [⟨12, 36, .rw, 0⟩]⟩,
   ⟨.VI_DIRTY_STAT, 0x1050, [(0x80, 32)], [⟨0, 1, .w1c, 0⟩]⟩]

/-- The templates of block VI. -/
def regTableVI : List RegSpec := regTableVI0 ++ regTableVI1

/-! ### VIT (R282) -/

/-- instance view. -/
abbrev R.VI_T_INFO (i : Nat) : Nat := 0x500000 + 0x1000 * i
abbrev L.VI_T_INFO.VI (i : Nat) : Loc := ⟨R.VI_T_INFO i, 24, 8⟩
abbrev L.VI_T_INFO.GEN (i : Nat) : Loc := ⟨R.VI_T_INFO i, 16, 8⟩
abbrev L.VI_T_INFO.STATE (i : Nat) : Loc := ⟨R.VI_T_INFO i, 0, 3⟩

/-- tenant doorbells for SQ_TAIL and CQ_HEAD. A channel not assigned to instance v is a violation. -/
abbrev R.VI_T_SQDB (i : Nat) : Nat := 0x500008 + 0x1000 * i
abbrev L.VI_T_SQDB.INDEX (i : Nat) : Loc := ⟨R.VI_T_SQDB i, 16, 16⟩
abbrev L.VI_T_SQDB.CH (i : Nat) : Loc := ⟨R.VI_T_SQDB i, 0, 7⟩

/-- tenant doorbells for SQ_TAIL and CQ_HEAD. A channel not assigned to instance v is a violation. -/
abbrev R.VI_T_CQDB (i : Nat) : Nat := 0x500010 + 0x1000 * i
abbrev L.VI_T_CQDB.INDEX (i : Nat) : Loc := ⟨R.VI_T_CQDB i, 16, 16⟩
abbrev L.VI_T_CQDB.CH (i : Nat) : Loc := ⟨R.VI_T_CQDB i, 0, 7⟩

/-- mailbox indices, tenant view. -/
abbrev R.VI_T_MBOX (i : Nat) : Nat := 0x500018 + 0x1000 * i
abbrev L.VI_T_MBOX.T2M_PROD (i : Nat) : Loc := ⟨R.VI_T_MBOX i, 48, 16⟩
abbrev L.VI_T_MBOX.T2M_CONS (i : Nat) : Loc := ⟨R.VI_T_MBOX i, 32, 16⟩
abbrev L.VI_T_MBOX.M2T_CONS (i : Nat) : Loc := ⟨R.VI_T_MBOX i, 16, 16⟩
abbrev L.VI_T_MBOX.M2T_PROD (i : Nat) : Loc := ⟨R.VI_T_MBOX i, 0, 16⟩

/-- copies of VI_MBOX_M2T and VI_MBOX_T2M; RO. -/
abbrev R.VI_T_M2T (i : Nat) : Nat := 0x500020 + 0x1000 * i
abbrev L.VI_T_M2T.LOG2N (i : Nat) : Loc := ⟨R.VI_T_M2T i, 48, 4⟩
abbrev L.VI_T_M2T.BASE (i : Nat) : Loc := ⟨R.VI_T_M2T i, 12, 36⟩

/-- copies of VI_MBOX_M2T and VI_MBOX_T2M; RO. -/
abbrev R.VI_T_T2M (i : Nat) : Nat := 0x500028 + 0x1000 * i
abbrev L.VI_T_T2M.LOG2N (i : Nat) : Loc := ⟨R.VI_T_T2M i, 48, 4⟩
abbrev L.VI_T_T2M.BASE (i : Nat) : Loc := ⟨R.VI_T_T2M i, 12, 36⟩

def regTableVIT0 : List RegSpec :=
  [⟨.VI_T_INFO, 0x0, [], [⟨24, 8, .ro, 0⟩, ⟨16, 8, .ro, 0⟩, ⟨0, 3, .ro, 0⟩]⟩,
   ⟨.VI_T_SQDB, 0x8, [], [⟨16, 16, .wo, 0⟩, ⟨0, 7, .wo, 0⟩]⟩,
   ⟨.VI_T_CQDB, 0x10, [], [⟨16, 16, .wo, 0⟩, ⟨0, 7, .wo, 0⟩]⟩,
   ⟨.VI_T_MBOX, 0x18, [], [⟨48, 16, .rw, 0⟩, ⟨32, 16, .ro, 0⟩, ⟨16, 16, .rw, 0⟩, ⟨0, 16, .ro, 0⟩]⟩,
   ⟨.VI_T_M2T, 0x20, [], [⟨48, 4, .ro, 3⟩, ⟨12, 36, .ro, 0⟩]⟩,
   ⟨.VI_T_T2M, 0x28, [], [⟨48, 4, .ro, 3⟩, ⟨12, 36, .ro, 0⟩]⟩]

/-- The templates of block VIT. -/
def regTableVIT : List RegSpec := regTableVIT0

/-! ### FAB (R316) -/

/-- device identifier. -/
abbrev R.FAB_ID : Nat := 0x40000
abbrev L.FAB_ID.ID_VALID : Loc := ⟨R.FAB_ID, 14, 1⟩
abbrev L.FAB_ID.ID : Loc := ⟨R.FAB_ID, 0, 14⟩

/-- fabric parameters. -/
abbrev R.FAB_CFG : Nat := 0x40008
abbrev L.FAB_CFG.TMO : Loc := ⟨R.FAB_CFG, 32, 32⟩
abbrev L.FAB_CFG.PRIO : Loc := ⟨R.FAB_CFG, 16, 8⟩
abbrev L.FAB_CFG.MAX_HOPS : Loc := ⟨R.FAB_CFG, 0, 6⟩

/-- membership. -/
abbrev R.FAB_STATUS : Nat := 0x40010
abbrev L.FAB_STATUS.OPEN_REQ : Loc := ⟨R.FAB_STATUS, 16, 11⟩
abbrev L.FAB_STATUS.REASON : Loc := ⟨R.FAB_STATUS, 1, 3⟩
abbrev L.FAB_STATUS.QUAR : Loc := ⟨R.FAB_STATUS, 0, 1⟩

/-- epoch in force. -/
abbrev R.FAB_EPOCH : Nat := 0x40018
abbrev L.FAB_EPOCH.EPOCH : Loc := ⟨R.FAB_EPOCH, 32, 32⟩
abbrev L.FAB_EPOCH.OLD_VALID : Loc := ⟨R.FAB_EPOCH, 1, 1⟩
abbrev L.FAB_EPOCH.ACTIVE : Loc := ⟨R.FAB_EPOCH, 0, 1⟩

/-- armed switch. -/
abbrev R.FAB_EPOCH_NEXT : Nat := 0x40020
abbrev L.FAB_EPOCH_NEXT.NEXT : Loc := ⟨R.FAB_EPOCH_NEXT, 32, 32⟩
abbrev L.FAB_EPOCH_NEXT.ARM : Loc := ⟨R.FAB_EPOCH_NEXT, 0, 1⟩

/-- switch frame. -/
abbrev R.FAB_EPOCH_FRAME : Nat := 0x40028
abbrev L.FAB_EPOCH_FRAME.FRAME : Loc := ⟨R.FAB_EPOCH_FRAME, 0, 64⟩

/-- digest computation. -/
abbrev R.FAB_PROFILE_CTRL : Nat := 0x40030
abbrev L.FAB_PROFILE_CTRL.COMMIT : Loc := ⟨R.FAB_PROFILE_CTRL, 63, 1⟩
abbrev L.FAB_PROFILE_CTRL.READY : Loc := ⟨R.FAB_PROFILE_CTRL, 62, 1⟩
abbrev L.FAB_PROFILE_CTRL.ACK : Loc := ⟨R.FAB_PROFILE_CTRL, 61, 1⟩
abbrev L.FAB_PROFILE_CTRL.STATUS : Loc := ⟨R.FAB_PROFILE_CTRL, 0, 8⟩

/-- digest bytes 8k to 8k + 7, for k = 0 to 3. -/
abbrev R.FAB_DIGEST (n : Nat) : Nat := 0x40040 + 0x8 * n
abbrev L.FAB_DIGEST.DIGEST (n : Nat) : Loc := ⟨R.FAB_DIGEST n, 0, 64⟩

/-- best record in force. -/
abbrev R.FAB_BEST_RANK : Nat := 0x40060
abbrev L.FAB_BEST_RANK.EPOCH : Loc := ⟨R.FAB_BEST_RANK, 32, 32⟩
abbrev L.FAB_BEST_RANK.PRIO : Loc := ⟨R.FAB_BEST_RANK, 0, 8⟩

/-- best record in force. -/
abbrev R.FAB_BEST_SERIAL : Nat := 0x40068
abbrev L.FAB_BEST_SERIAL.SERIAL : Loc := ⟨R.FAB_BEST_SERIAL, 0, 64⟩

/-- best record in force. -/
abbrev R.FAB_BEST_FRAME : Nat := 0x40070
abbrev L.FAB_BEST_FRAME.FRAME : Loc := ⟨R.FAB_BEST_FRAME, 0, 64⟩

/-- device events. -/
abbrev R.FAB_EVT : Nat := 0x40078
abbrev L.FAB_EVT.STALE_EPOCH : Loc := ⟨R.FAB_EVT, 8, 1⟩
abbrev L.FAB_EVT.MGMT_RX : Loc := ⟨R.FAB_EVT, 7, 1⟩
abbrev L.FAB_EVT.PEER_VIOL : Loc := ⟨R.FAB_EVT, 6, 1⟩
abbrev L.FAB_EVT.TIMEOUT : Loc := ⟨R.FAB_EVT, 5, 1⟩
abbrev L.FAB_EVT.REMOTE_ERR : Loc := ⟨R.FAB_EVT, 4, 1⟩
abbrev L.FAB_EVT.NAK : Loc := ⟨R.FAB_EVT, 3, 1⟩
abbrev L.FAB_EVT.ARM_LATE : Loc := ⟨R.FAB_EVT, 2, 1⟩
abbrev L.FAB_EVT.EPOCH_SW : Loc := ⟨R.FAB_EVT, 1, 1⟩
abbrev L.FAB_EVT.QUAR_CHG : Loc := ⟨R.FAB_EVT, 0, 1⟩

/-- event enables. -/
abbrev R.FAB_EVT_EN : Nat := 0x40080
abbrev L.FAB_EVT_EN.EN : Loc := ⟨R.FAB_EVT_EN, 0, 9⟩

/-- device counts. -/
abbrev R.FAB_CNT : Nat := 0x40088
abbrev L.FAB_CNT.PEER_VIOL : Loc := ⟨R.FAB_CNT, 48, 16⟩
abbrev L.FAB_CNT.STALE : Loc := ⟨R.FAB_CNT, 32, 16⟩
abbrev L.FAB_CNT.LATE : Loc := ⟨R.FAB_CNT, 16, 16⟩
abbrev L.FAB_CNT.TIMEOUT : Loc := ⟨R.FAB_CNT, 0, 16⟩

/-- last violation or NAK received. -/
abbrev R.FAB_NAK_LAST : Nat := 0x40090
abbrev L.FAB_NAK_LAST.STATUS : Loc := ⟨R.FAB_NAK_LAST, 24, 8⟩
abbrev L.FAB_NAK_LAST.PTYPE : Loc := ⟨R.FAB_NAK_LAST, 16, 8⟩
abbrev L.FAB_NAK_LAST.SRC_ID : Loc := ⟨R.FAB_NAK_LAST, 0, 14⟩

/-- management rings of 256-byte entries. -/
abbrev R.FAB_MRX_RING : Nat := 0x400a0
abbrev L.FAB_MRX_RING.LOG2N : Loc := ⟨R.FAB_MRX_RING, 48, 4⟩
abbrev L.FAB_MRX_RING.BASE : Loc := ⟨R.FAB_MRX_RING, 12, 36⟩

/-- management rings of 256-byte entries. -/
abbrev R.FAB_MTX_RING : Nat := 0x400b0
abbrev L.FAB_MTX_RING.LOG2N : Loc := ⟨R.FAB_MTX_RING, 48, 4⟩
abbrev L.FAB_MTX_RING.BASE : Loc := ⟨R.FAB_MTX_RING, 12, 36⟩

/-- ring indices under the validity rule of R257. -/
abbrev R.FAB_MRX_IDX : Nat := 0x400a8
abbrev L.FAB_MRX_IDX.CONS : Loc := ⟨R.FAB_MRX_IDX, 16, 16⟩
abbrev L.FAB_MRX_IDX.PROD : Loc := ⟨R.FAB_MRX_IDX, 0, 16⟩

/-- ring indices under the validity rule of R257. -/
abbrev R.FAB_MTX_IDX : Nat := 0x400b8
abbrev L.FAB_MTX_IDX.CONS : Loc := ⟨R.FAB_MTX_IDX, 16, 16⟩
abbrev L.FAB_MTX_IDX.PROD : Loc := ⟨R.FAB_MTX_IDX, 0, 16⟩

/-- management interrupt; same fields as QE_CH_MSI. -/
abbrev R.FAB_MSI : Nat := 0x400c0
abbrev L.FAB_MSI.EN : Loc := ⟨R.FAB_MSI, 63, 1⟩
abbrev L.FAB_MSI.DATA : Loc := ⟨R.FAB_MSI, 48, 11⟩
abbrev L.FAB_MSI.ADDR : Loc := ⟨R.FAB_MSI, 2, 46⟩

/-- aperture a, for a = 0 to 15. -/
abbrev R.FAB_APT (n : Nat) : Nat := 0x40100 + 0x8 * n
abbrev L.FAB_APT.EN (n : Nat) : Loc := ⟨R.FAB_APT n, 63, 1⟩
abbrev L.FAB_APT.WORLD (n : Nat) : Loc := ⟨R.FAB_APT n, 62, 1⟩
abbrev L.FAB_APT.VI_VALID (n : Nat) : Loc := ⟨R.FAB_APT n, 61, 1⟩
abbrev L.FAB_APT.VI (n : Nat) : Loc := ⟨R.FAB_APT n, 53, 8⟩
abbrev L.FAB_APT.MSG_OK (n : Nat) : Loc := ⟨R.FAB_APT n, 52, 1⟩
abbrev L.FAB_APT.ATOM_OK (n : Nat) : Loc := ⟨R.FAB_APT n, 51, 1⟩
abbrev L.FAB_APT.WR_OK (n : Nat) : Loc := ⟨R.FAB_APT n, 50, 1⟩
abbrev L.FAB_APT.RD_OK (n : Nat) : Loc := ⟨R.FAB_APT n, 49, 1⟩
abbrev L.FAB_APT.BASE (n : Nat) : Loc := ⟨R.FAB_APT n, 28, 20⟩

/-- route entry n of bank b, for b = 0 to 1 and n = 0 to 255; a write to the active bank is a violation. -/
abbrev R.FAB_RT (m n : Nat) : Nat := 0x41000 + 0x800 * m + 0x8 * n
abbrev L.FAB_RT.ALT_V (m n : Nat) : Loc := ⟨R.FAB_RT m n, 15, 1⟩
abbrev L.FAB_RT.ALT_PORT (m n : Nat) : Loc := ⟨R.FAB_RT m n, 8, 3⟩
abbrev L.FAB_RT.PRI_V (m n : Nat) : Loc := ⟨R.FAB_RT m n, 7, 1⟩
abbrev L.FAB_RT.PRI_PORT (m n : Nat) : Loc := ⟨R.FAB_RT m n, 0, 3⟩

/-- profile word w, for w = 0 to 127. -/
abbrev R.FAB_PROFILE (n : Nat) : Nat := 0x44000 + 0x8 * n
abbrev L.FAB_PROFILE.WORD (n : Nat) : Loc := ⟨R.FAB_PROFILE n, 0, 64⟩

def regTableFAB0 : List RegSpec :=
  [⟨.FAB_ID, 0x0, [], [⟨14, 1, .rw, 0⟩, ⟨0, 14, .rw, 0⟩]⟩,
   ⟨.FAB_CFG, 0x8, [], [⟨32, 32, .rw, 0x3e8⟩, ⟨16, 8, .rw, 0x80⟩, ⟨0, 6, .rw, 0x10⟩]⟩,
   ⟨.FAB_STATUS, 0x10, [], [⟨16, 11, .ro, 0⟩, ⟨1, 3, .ro, 1⟩, ⟨0, 1, .ro, 1⟩]⟩,
   ⟨.FAB_EPOCH, 0x18, [], [⟨32, 32, .ro, 0⟩, ⟨1, 1, .ro, 0⟩, ⟨0, 1, .ro, 0⟩]⟩,
   ⟨.FAB_EPOCH_NEXT, 0x20, [], [⟨32, 32, .rw, 0⟩, ⟨0, 1, .w1s, 0⟩]⟩,
   ⟨.FAB_EPOCH_FRAME, 0x28, [], [⟨0, 64, .rw, 0⟩]⟩,
   ⟨.FAB_PROFILE_CTRL, 0x30, [], [⟨63, 1, .wo, 0⟩, ⟨62, 1, .ro, 0⟩, ⟨61, 1, .wo, 0⟩, ⟨0, 8, .ro, 0xff⟩]⟩,
   ⟨.FAB_DIGEST, 0x40, [(0x8, 4)], [⟨0, 64, .ro, 0⟩]⟩,
   ⟨.FAB_BEST_RANK, 0x60, [], [⟨32, 32, .ro, 0⟩, ⟨0, 8, .ro, 0⟩]⟩,
   ⟨.FAB_BEST_SERIAL, 0x68, [], [⟨0, 64, .ro, 0⟩]⟩,
   ⟨.FAB_BEST_FRAME, 0x70, [], [⟨0, 64, .ro, 0⟩]⟩,
   ⟨.FAB_EVT, 0x78, [], [⟨8, 1, .w1c, 0⟩, ⟨7, 1, .w1c, 0⟩, ⟨6, 1, .w1c, 0⟩, ⟨5, 1, .w1c, 0⟩, ⟨4, 1, .w1c, 0⟩, ⟨3, 1, .w1c, 0⟩, ⟨2, 1, .w1c, 0⟩, ⟨1, 1, .w1c, 0⟩, ⟨0, 1, .w1c, 0⟩]⟩]

def regTableFAB1 : List RegSpec :=
  [⟨.FAB_EVT_EN, 0x80, [], [⟨0, 9, .rw, 0x17f⟩]⟩,
   ⟨.FAB_CNT, 0x88, [], [⟨48, 16, .ro, 0⟩, ⟨32, 16, .ro, 0⟩, ⟨16, 16, .ro, 0⟩, ⟨0, 16, .ro, 0⟩]⟩,
   ⟨.FAB_NAK_LAST, 0x90, [], [⟨24, 8, .ro, 0⟩, ⟨16, 8, .ro, 0⟩, ⟨0, 14, .ro, 0⟩]⟩,
   ⟨.FAB_MRX_RING, 0xa0, [], [⟨48, 4, .rw, 3⟩, ⟨12, 36, .rw, 0⟩]⟩,
   ⟨.FAB_MTX_RING, 0xb0, [], [⟨48, 4, .rw, 3⟩, ⟨12, 36, .rw, 0⟩]⟩,
   ⟨.FAB_MRX_IDX, 0xa8, [], [⟨16, 16, .rw, 0⟩, ⟨0, 16, .ro, 0⟩]⟩,
   ⟨.FAB_MTX_IDX, 0xb8, [], [⟨16, 16, .ro, 0⟩, ⟨0, 16, .rw, 0⟩]⟩,
   ⟨.FAB_MSI, 0xc0, [], [⟨63, 1, .rw, 0⟩, ⟨48, 11, .rw, 0⟩, ⟨2, 46, .rw, 0⟩]⟩,
   ⟨.FAB_APT, 0x100, [(0x8, 16)], [⟨63, 1, .rw, 0⟩, ⟨62, 1, .rw, 1⟩, ⟨61, 1, .rw, 0⟩, ⟨53, 8, .rw, 0⟩, ⟨52, 1, .rw, 0⟩, ⟨51, 1, .rw, 0⟩, ⟨50, 1, .rw, 0⟩, ⟨49, 1, .rw, 0⟩, ⟨28, 20, .rw, 0⟩]⟩,
   ⟨.FAB_RT, 0x1000, [(0x800, 2), (0x8, 256)], [⟨15, 1, .rw, 0⟩, ⟨8, 3, .rw, 0⟩, ⟨7, 1, .rw, 0⟩, ⟨0, 3, .rw, 0⟩]⟩,
   ⟨.FAB_PROFILE, 0x4000, [(0x8, 128)], [⟨0, 64, .rw, 0⟩]⟩]

/-- The templates of block FAB. -/
def regTableFAB : List RegSpec := regTableFAB0 ++ regTableFAB1

/-! ### FABP (R316) -/

/-- port control. -/
abbrev R.FAB_P_CFG (i : Nat) : Nat := 0x200000 + 0x10000 * i
abbrev L.FAB_P_CFG.OPEN_ONLY (i : Nat) : Loc := ⟨R.FAB_P_CFG i, 7, 1⟩
abbrev L.FAB_P_CFG.MODE (i : Nat) : Loc := ⟨R.FAB_P_CFG i, 3, 2⟩
abbrev L.FAB_P_CFG.X2_OK (i : Nat) : Loc := ⟨R.FAB_P_CFG i, 2, 1⟩
abbrev L.FAB_P_CFG.EN (i : Nat) : Loc := ⟨R.FAB_P_CFG i, 0, 1⟩

/-- port and partner state. -/
abbrev R.FAB_P_STATUS (i : Nat) : Nat := 0x200008 + 0x10000 * i
abbrev L.FAB_P_STATUS.PARTNER_ID (i : Nat) : Loc := ⟨R.FAB_P_STATUS i, 36, 14⟩
abbrev L.FAB_P_STATUS.PARTNER_ID_VALID (i : Nat) : Loc := ⟨R.FAB_P_STATUS i, 35, 1⟩
abbrev L.FAB_P_STATUS.PARTNER_HOLD (i : Nat) : Loc := ⟨R.FAB_P_STATUS i, 34, 1⟩
abbrev L.FAB_P_STATUS.PARTNER_QUAR (i : Nat) : Loc := ⟨R.FAB_P_STATUS i, 33, 1⟩
abbrev L.FAB_P_STATUS.BEACON_SEEN (i : Nat) : Loc := ⟨R.FAB_P_STATUS i, 32, 1⟩
abbrev L.FAB_P_STATUS.WIDTH (i : Nat) : Loc := ⟨R.FAB_P_STATUS i, 6, 2⟩
abbrev L.FAB_P_STATUS.MODE (i : Nat) : Loc := ⟨R.FAB_P_STATUS i, 4, 2⟩
abbrev L.FAB_P_STATUS.STATE (i : Nat) : Loc := ⟨R.FAB_P_STATUS i, 0, 3⟩

/-- partner serial. -/
abbrev R.FAB_P_PEER (i : Nat) : Nat := 0x200010 + 0x10000 * i
abbrev L.FAB_P_PEER.SERIAL (i : Nat) : Loc := ⟨R.FAB_P_PEER i, 0, 64⟩

/-- partner version. -/
abbrev R.FAB_P_PEER_VER (i : Nat) : Nat := 0x200018 + 0x10000 * i
abbrev L.FAB_P_PEER_VER.VER_MAJ (i : Nat) : Loc := ⟨R.FAB_P_PEER_VER i, 8, 8⟩
abbrev L.FAB_P_PEER_VER.VER_MIN (i : Nat) : Loc := ⟨R.FAB_P_PEER_VER i, 0, 8⟩

/-- link counts. -/
abbrev R.FAB_P_CNT (i : Nat) : Nat := 0x200020 + 0x10000 * i
abbrev L.FAB_P_CNT.LNAK (i : Nat) : Loc := ⟨R.FAB_P_CNT i, 48, 16⟩
abbrev L.FAB_P_CNT.REPLAY (i : Nat) : Loc := ⟨R.FAB_P_CNT i, 32, 16⟩
abbrev L.FAB_P_CNT.CRC_ERR (i : Nat) : Loc := ⟨R.FAB_P_CNT i, 0, 32⟩

/-- correction and loss counts. -/
abbrev R.FAB_P_CNT2 (i : Nat) : Nat := 0x200028 + 0x10000 * i
abbrev L.FAB_P_CNT2.FEC_CORR (i : Nat) : Loc := ⟨R.FAB_P_CNT2 i, 32, 32⟩
abbrev L.FAB_P_CNT2.LOST_FLITS (i : Nat) : Loc := ⟨R.FAB_P_CNT2 i, 16, 16⟩
abbrev L.FAB_P_CNT2.LOSS (i : Nat) : Loc := ⟨R.FAB_P_CNT2 i, 0, 16⟩

/-- port events. -/
abbrev R.FAB_P_EVT (i : Nat) : Nat := 0x200030 + 0x10000 * i
abbrev L.FAB_P_EVT.WIDTH (i : Nat) : Loc := ⟨R.FAB_P_EVT i, 8, 1⟩
abbrev L.FAB_P_EVT.FRAME_MISMATCH (i : Nat) : Loc := ⟨R.FAB_P_EVT i, 7, 1⟩
abbrev L.FAB_P_EVT.PEER_VIOL (i : Nat) : Loc := ⟨R.FAB_P_EVT i, 6, 1⟩
abbrev L.FAB_P_EVT.RETRAIN (i : Nat) : Loc := ⟨R.FAB_P_EVT i, 5, 1⟩
abbrev L.FAB_P_EVT.VERSION (i : Nat) : Loc := ⟨R.FAB_P_EVT i, 4, 1⟩
abbrev L.FAB_P_EVT.BEACON_LOSS (i : Nat) : Loc := ⟨R.FAB_P_EVT i, 3, 1⟩
abbrev L.FAB_P_EVT.LOS (i : Nat) : Loc := ⟨R.FAB_P_EVT i, 2, 1⟩
abbrev L.FAB_P_EVT.PARTNER_LOST (i : Nat) : Loc := ⟨R.FAB_P_EVT i, 1, 1⟩
abbrev L.FAB_P_EVT.UP (i : Nat) : Loc := ⟨R.FAB_P_EVT i, 0, 1⟩

/-- event enables. -/
abbrev R.FAB_P_EVT_EN (i : Nat) : Nat := 0x200038 + 0x10000 * i
abbrev L.FAB_P_EVT_EN.EN (i : Nat) : Loc := ⟨R.FAB_P_EVT_EN i, 0, 9⟩

def regTableFABP0 : List RegSpec :=
  [⟨.FAB_P_CFG, 0x0, [], [⟨7, 1, .rw, 0⟩, ⟨3, 2, .rw, 0⟩, ⟨2, 1, .rw, 1⟩, ⟨0, 1, .rw, 0⟩]⟩,
   ⟨.FAB_P_STATUS, 0x8, [], [⟨36, 14, .ro, 0⟩, ⟨35, 1, .ro, 0⟩, ⟨34, 1, .ro, 0⟩, ⟨33, 1, .ro, 0⟩, ⟨32, 1, .ro, 0⟩, ⟨6, 2, .ro, 0⟩, ⟨4, 2, .ro, 0⟩, ⟨0, 3, .ro, 0⟩]⟩,
   ⟨.FAB_P_PEER, 0x10, [], [⟨0, 64, .ro, 0⟩]⟩,
   ⟨.FAB_P_PEER_VER, 0x18, [], [⟨8, 8, .ro, 0⟩, ⟨0, 8, .ro, 0⟩]⟩,
   ⟨.FAB_P_CNT, 0x20, [], [⟨48, 16, .ro, 0⟩, ⟨32, 16, .ro, 0⟩, ⟨0, 32, .ro, 0⟩]⟩,
   ⟨.FAB_P_CNT2, 0x28, [], [⟨32, 32, .ro, 0⟩, ⟨16, 16, .ro, 0⟩, ⟨0, 16, .ro, 0⟩]⟩,
   ⟨.FAB_P_EVT, 0x30, [], [⟨8, 1, .w1c, 0⟩, ⟨7, 1, .w1c, 0⟩, ⟨6, 1, .w1c, 0⟩, ⟨5, 1, .w1c, 0⟩, ⟨4, 1, .w1c, 0⟩, ⟨3, 1, .w1c, 0⟩, ⟨2, 1, .w1c, 0⟩, ⟨1, 1, .w1c, 0⟩, ⟨0, 1, .w1c, 0⟩]⟩,
   ⟨.FAB_P_EVT_EN, 0x38, [], [⟨0, 9, .rw, 0x1ff⟩]⟩]

/-- The templates of block FABP. -/
def regTableFABP : List RegSpec := regTableFABP0

/-! ### WLDH (R354) -/

/-- world monitor region; written by Basecamp. -/
abbrev R.WLD_MON : Nat := 0x30000
abbrev L.WLD_MON.LOG2SZ : Loc := ⟨R.WLD_MON, 48, 6⟩
abbrev L.WLD_MON.BASE : Loc := ⟨R.WLD_MON, 12, 36⟩

/-- release request of the writer's world. -/
abbrev R.WLD_OWN_REQ (w : Bool) : Nat := 0x30008 + openBank w
abbrev L.WLD_OWN_REQ.GO (w : Bool) : Loc := ⟨R.WLD_OWN_REQ w, 63, 1⟩
abbrev L.WLD_OWN_REQ.TYPE (w : Bool) : Loc := ⟨R.WLD_OWN_REQ w, 16, 4⟩
abbrev L.WLD_OWN_REQ.INDEX (w : Bool) : Loc := ⟨R.WLD_OWN_REQ w, 0, 12⟩

/-- release result of the reader's world. -/
abbrev R.WLD_OWN_RES (w : Bool) : Nat := 0x30010 + openBank w
abbrev L.WLD_OWN_RES.READY (w : Bool) : Loc := ⟨R.WLD_OWN_RES w, 63, 1⟩
abbrev L.WLD_OWN_RES.ACK (w : Bool) : Loc := ⟨R.WLD_OWN_RES w, 62, 1⟩
abbrev L.WLD_OWN_RES.STATUS (w : Bool) : Loc := ⟨R.WLD_OWN_RES w, 0, 8⟩

/-- owners; bit 1 Sealed, 0 Open. -/
abbrev R.WLD_OWN_UNITS : Nat := 0x30018
abbrev L.WLD_OWN_UNITS.CAIRN : Loc := ⟨R.WLD_OWN_UNITS, 56, 1⟩
abbrev L.WLD_OWN_UNITS.PCI_FN : Loc := ⟨R.WLD_OWN_UNITS, 40, 16⟩
abbrev L.WLD_OWN_UNITS.ETH_FN : Loc := ⟨R.WLD_OWN_UNITS, 32, 8⟩
abbrev L.WLD_OWN_UNITS.MG : Loc := ⟨R.WLD_OWN_UNITS, 16, 16⟩
abbrev L.WLD_OWN_UNITS.FP : Loc := ⟨R.WLD_OWN_UNITS, 8, 8⟩
abbrev L.WLD_OWN_UNITS.QE : Loc := ⟨R.WLD_OWN_UNITS, 0, 8⟩

/-- owners of power domains [33:0], clock domains [21:0] and cipher contexts [63:0]. Bits above … -/
abbrev R.WLD_OWN_PWR : Nat := 0x30020
abbrev L.WLD_OWN_PWR.OWN : Loc := ⟨R.WLD_OWN_PWR, 0, 34⟩

/-- owners of power domains [33:0], clock domains [21:0] and cipher contexts [63:0]. Bits above … -/
abbrev R.WLD_OWN_CLK : Nat := 0x30028
abbrev L.WLD_OWN_CLK.OWN : Loc := ⟨R.WLD_OWN_CLK, 0, 22⟩

/-- owners of power domains [33:0], clock domains [21:0] and cipher contexts [63:0]. Bits above … -/
abbrev R.WLD_OWN_CE : Nat := 0x30030
abbrev L.WLD_OWN_CE.OWN : Loc := ⟨R.WLD_OWN_CE, 0, 64⟩

/-- owners of key slots 64k to 64k + 63, for k = 0 to 3; RO, reset all ones. -/
abbrev R.WLD_OWN_KS (n : Nat) : Nat := 0x30038 + 0x8 * n
abbrev L.WLD_OWN_KS.OWN (n : Nat) : Loc := ⟨R.WLD_OWN_KS n, 0, 64⟩

/-- no-instance context; the Sealed copy is written by the Sealed world, and the Open copy by the … -/
abbrev R.WLD_IOMMU_CTX_S : Nat := 0x30080
abbrev L.WLD_IOMMU_CTX_S.MODE : Loc := ⟨R.WLD_IOMMU_CTX_S, 60, 4⟩
abbrev L.WLD_IOMMU_CTX_S.PPN : Loc := ⟨R.WLD_IOMMU_CTX_S, 0, 44⟩

/-- no-instance context; the Sealed copy is written by the Sealed world, and the Open copy by the … -/
abbrev R.WLD_IOMMU_CTX_O : Nat := 0x30088
abbrev L.WLD_IOMMU_CTX_O.MODE : Loc := ⟨R.WLD_IOMMU_CTX_O, 60, 4⟩
abbrev L.WLD_IOMMU_CTX_O.PPN : Loc := ⟨R.WLD_IOMMU_CTX_O, 0, 44⟩

/-- instance table base; writers as for the context registers. -/
abbrev R.WLD_IOMMU_VIT_S : Nat := 0x30090
abbrev L.WLD_IOMMU_VIT_S.EN : Loc := ⟨R.WLD_IOMMU_VIT_S, 63, 1⟩
abbrev L.WLD_IOMMU_VIT_S.BASE : Loc := ⟨R.WLD_IOMMU_VIT_S, 12, 36⟩

/-- instance table base; writers as for the context registers. -/
abbrev R.WLD_IOMMU_VIT_O : Nat := 0x30098
abbrev L.WLD_IOMMU_VIT_O.EN : Loc := ⟨R.WLD_IOMMU_VIT_O, 63, 1⟩
abbrev L.WLD_IOMMU_VIT_O.BASE : Loc := ⟨R.WLD_IOMMU_VIT_O, 12, 36⟩

/-- invalidation of the writer's world. -/
abbrev R.WLD_IOMMU_INV (w : Bool) : Nat := 0x300a0 + openBank w
abbrev L.WLD_IOMMU_INV.GO (w : Bool) : Loc := ⟨R.WLD_IOMMU_INV w, 63, 1⟩
abbrev L.WLD_IOMMU_INV.SCOPE (w : Bool) : Loc := ⟨R.WLD_IOMMU_INV w, 56, 2⟩
abbrev L.WLD_IOMMU_INV.VI (w : Bool) : Loc := ⟨R.WLD_IOMMU_INV w, 48, 8⟩
abbrev L.WLD_IOMMU_INV.PAGE (w : Bool) : Loc := ⟨R.WLD_IOMMU_INV w, 12, 36⟩

/-- READY in [63] RO, ACK in [62] WO; other bits keep 0 and read 0. -/
abbrev R.WLD_IOMMU_INVRES (w : Bool) : Nat := 0x300a8 + openBank w
abbrev L.WLD_IOMMU_INVRES.READY (w : Bool) : Loc := ⟨R.WLD_IOMMU_INVRES w, 63, 1⟩
abbrev L.WLD_IOMMU_INVRES.ACK (w : Bool) : Loc := ⟨R.WLD_IOMMU_INVRES w, 62, 1⟩

/-- first fault of the reader's world. -/
abbrev R.WLD_IOMMU_FLT (w : Bool) : Nat := 0x300b0 + openBank w
abbrev L.WLD_IOMMU_FLT.VALID (w : Bool) : Loc := ⟨R.WLD_IOMMU_FLT w, 63, 1⟩
abbrev L.WLD_IOMMU_FLT.CAUSE (w : Bool) : Loc := ⟨R.WLD_IOMMU_FLT w, 56, 7⟩
abbrev L.WLD_IOMMU_FLT.SRC (w : Bool) : Loc := ⟨R.WLD_IOMMU_FLT w, 48, 8⟩
abbrev L.WLD_IOMMU_FLT.ADDR (w : Bool) : Loc := ⟨R.WLD_IOMMU_FLT w, 0, 48⟩

/-- COUNT in [31:0] RO, the faults of the reader's world since its VALID was last cleared, saturating. -/
abbrev R.WLD_IOMMU_FLTCNT (w : Bool) : Nat := 0x300b8 + openBank w
abbrev L.WLD_IOMMU_FLTCNT.COUNT (w : Bool) : Loc := ⟨R.WLD_IOMMU_FLTCNT w, 0, 32⟩

/-- Open range r, for r = 0 to 15; written by the Sealed world only. -/
abbrev R.WLD_OPEN_RANGE (n : Nat) : Nat := 0x30100 + 0x8 * n
abbrev L.WLD_OPEN_RANGE.EN (n : Nat) : Loc := ⟨R.WLD_OPEN_RANGE n, 63, 1⟩
abbrev L.WLD_OPEN_RANGE.LOG2SZ (n : Nat) : Loc := ⟨R.WLD_OPEN_RANGE n, 48, 6⟩
abbrev L.WLD_OPEN_RANGE.BASE (n : Nat) : Loc := ⟨R.WLD_OPEN_RANGE n, 12, 36⟩

/-- watchdog setting; Sealed writes only. -/
abbrev R.WLD_BELAY_CFG : Nat := 0x30200
abbrev L.WLD_BELAY_CFG.EN : Loc := ⟨R.WLD_BELAY_CFG, 63, 1⟩
abbrev L.WLD_BELAY_CFG.TIMEOUT : Loc := ⟨R.WLD_BELAY_CFG, 32, 16⟩
abbrev L.WLD_BELAY_CFG.MIN : Loc := ⟨R.WLD_BELAY_CFG, 16, 16⟩
abbrev L.WLD_BELAY_CFG.GRACE : Loc := ⟨R.WLD_BELAY_CFG, 0, 16⟩

/-- KEY in [15:0] WO, R350; other bits keep 0 and read 0. -/
abbrev R.WLD_BELAY_PET : Nat := 0x30208
abbrev L.WLD_BELAY_PET.KEY : Loc := ⟨R.WLD_BELAY_PET, 0, 16⟩

/-- watchdog state. -/
abbrev R.WLD_BELAY_STAT : Nat := 0x30210
abbrev L.WLD_BELAY_STAT.STAGE : Loc := ⟨R.WLD_BELAY_STAT, 32, 2⟩
abbrev L.WLD_BELAY_STAT.LEFT : Loc := ⟨R.WLD_BELAY_STAT, 16, 16⟩
abbrev L.WLD_BELAY_STAT.NEXT : Loc := ⟨R.WLD_BELAY_STAT, 0, 16⟩

/-- last Belay reset; kept across package and Belay resets; cleared by power-on, and CAUSE also by a … -/
abbrev R.WLD_BELAY_CAUSE : Nat := 0x30218
abbrev L.WLD_BELAY_CAUSE.CAUSE : Loc := ⟨R.WLD_BELAY_CAUSE, 62, 2⟩
abbrev L.WLD_BELAY_CAUSE.FRAME : Loc := ⟨R.WLD_BELAY_CAUSE, 0, 62⟩

/-- debug levels. -/
abbrev R.WLD_DBG : Nat := 0x30300
abbrev L.WLD_DBG.BELAY_HOLD : Loc := ⟨R.WLD_DBG, 2, 1⟩
abbrev L.WLD_DBG.SEALED_EN : Loc := ⟨R.WLD_DBG, 1, 1⟩
abbrev L.WLD_DBG.OPEN_EN : Loc := ⟨R.WLD_DBG, 0, 1⟩

/-- world events; Sealed writes only, under R354. -/
abbrev R.WLD_EVT : Nat := 0x30308
abbrev L.WLD_EVT.DEBUG : Loc := ⟨R.WLD_EVT, 3, 1⟩
abbrev L.WLD_EVT.IOMMU_FLT : Loc := ⟨R.WLD_EVT, 2, 1⟩
abbrev L.WLD_EVT.OWN_CHG : Loc := ⟨R.WLD_EVT, 1, 1⟩
abbrev L.WLD_EVT.BELAY_WARN : Loc := ⟨R.WLD_EVT, 0, 1⟩

/-- EN in [3:0] RW, reset 0xF, Sealed writes only under R354; bit n enables WLD_EVT bit n towards … -/
abbrev R.WLD_EVT_EN : Nat := 0x30310
abbrev L.WLD_EVT_EN.EN : Loc := ⟨R.WLD_EVT_EN, 0, 4⟩

def regTableWLDH0 : List RegSpec :=
  [⟨.WLD_MON, 0x0, [], [⟨48, 6, .rwo, 0xc⟩, ⟨12, 36, .rwo, 0⟩]⟩,
   ⟨.WLD_OWN_REQ, 0x8, [], [⟨63, 1, .wo, 0⟩, ⟨16, 4, .rw, 0⟩, ⟨0, 12, .rw, 0⟩]⟩,
   ⟨.WLD_OWN_RES, 0x10, [], [⟨63, 1, .ro, 0⟩, ⟨62, 1, .wo, 0⟩, ⟨0, 8, .ro, 0xff⟩]⟩,
   ⟨.WLD_OWN_UNITS, 0x18, [], [⟨56, 1, .ro, 1⟩, ⟨40, 16, .ro, 0xffff⟩, ⟨32, 8, .ro, 0xff⟩, ⟨16, 16, .ro, 0xffff⟩, ⟨8, 8, .ro, 0xff⟩, ⟨0, 8, .ro, 0xff⟩]⟩,
   ⟨.WLD_OWN_PWR, 0x20, [], [⟨0, 34, .ro, 0x3ffffffff⟩]⟩,
   ⟨.WLD_OWN_CLK, 0x28, [], [⟨0, 22, .ro, 0x3fffff⟩]⟩,
   ⟨.WLD_OWN_CE, 0x30, [], [⟨0, 64, .ro, 0xffffffffffffffff⟩]⟩,
   ⟨.WLD_OWN_KS, 0x38, [(0x8, 4)], [⟨0, 64, .ro, 0xffffffffffffffff⟩]⟩,
   ⟨.WLD_IOMMU_CTX_S, 0x80, [], [⟨60, 4, .rw, 0⟩, ⟨0, 44, .rw, 0⟩]⟩,
   ⟨.WLD_IOMMU_CTX_O, 0x88, [], [⟨60, 4, .rw, 0⟩, ⟨0, 44, .rw, 0⟩]⟩,
   ⟨.WLD_IOMMU_VIT_S, 0x90, [], [⟨63, 1, .rw, 0⟩, ⟨12, 36, .rw, 0⟩]⟩,
   ⟨.WLD_IOMMU_VIT_O, 0x98, [], [⟨63, 1, .rw, 0⟩, ⟨12, 36, .rw, 0⟩]⟩]

def regTableWLDH1 : List RegSpec :=
  [⟨.WLD_IOMMU_INV, 0xa0, [], [⟨63, 1, .wo, 0⟩, ⟨56, 2, .rw, 0⟩, ⟨48, 8, .rw, 0⟩, ⟨12, 36, .rw, 0⟩]⟩,
   ⟨.WLD_IOMMU_INVRES, 0xa8, [], [⟨63, 1, .ro, 0⟩, ⟨62, 1, .wo, 0⟩]⟩,
   ⟨.WLD_IOMMU_FLT, 0xb0, [], [⟨63, 1, .w1c, 0⟩, ⟨56, 7, .ro, 0⟩, ⟨48, 8, .ro, 0⟩, ⟨0, 48, .ro, 0⟩]⟩,
   ⟨.WLD_IOMMU_FLTCNT, 0xb8, [], [⟨0, 32, .ro, 0⟩]⟩,
   ⟨.WLD_OPEN_RANGE, 0x100, [(0x8, 16)], [⟨63, 1, .rw, 0⟩, ⟨48, 6, .rw, 0xc⟩, ⟨12, 36, .rw, 0⟩]⟩,
   ⟨.WLD_BELAY_CFG, 0x200, [], [⟨63, 1, .rw, 0⟩, ⟨32, 16, .rw, 0x3e8⟩, ⟨16, 16, .rw, 0⟩, ⟨0, 16, .rw, 0x64⟩]⟩,
   ⟨.WLD_BELAY_PET, 0x208, [], [⟨0, 16, .wo, 0⟩]⟩,
   ⟨.WLD_BELAY_STAT, 0x210, [], [⟨32, 2, .ro, 0⟩, ⟨16, 16, .ro, 0⟩, ⟨0, 16, .ro, 0xace1⟩]⟩,
   ⟨.WLD_BELAY_CAUSE, 0x218, [], [⟨62, 2, .w1c, 0⟩, ⟨0, 62, .ro, 0⟩]⟩,
   ⟨.WLD_DBG, 0x300, [], [⟨2, 1, .rw, 0⟩, ⟨1, 1, .ro, 0⟩, ⟨0, 1, .rw, 0⟩]⟩,
   ⟨.WLD_EVT, 0x308, [], [⟨3, 1, .w1c, 0⟩, ⟨2, 1, .w1c, 0⟩, ⟨1, 1, .w1c, 0⟩, ⟨0, 1, .w1c, 0⟩]⟩,
   ⟨.WLD_EVT_EN, 0x310, [], [⟨0, 4, .rw, 0xf⟩]⟩]

/-- The templates of block WLDH. -/
def regTableWLDH : List RegSpec := regTableWLDH0 ++ regTableWLDH1

/-! ### KS (R355) -/

/-- root-of-trust state. -/
abbrev R.KS_STATUS : Nat := 0x20000
abbrev L.KS_STATUS.PUF_OK : Loc := ⟨R.KS_STATUS, 3, 1⟩
abbrev L.KS_STATUS.OWNER : Loc := ⟨R.KS_STATUS, 2, 1⟩
abbrev L.KS_STATUS.DEBUG : Loc := ⟨R.KS_STATUS, 1, 1⟩
abbrev L.KS_STATUS.IDX_READY : Loc := ⟨R.KS_STATUS, 0, 1⟩

/-- boot outcome. -/
abbrev R.KS_BOOT : Nat := 0x20008
abbrev L.KS_BOOT.RECOVERY : Loc := ⟨R.KS_BOOT, 16, 1⟩
abbrev L.KS_BOOT.CAUSE : Loc := ⟨R.KS_BOOT, 8, 8⟩
abbrev L.KS_BOOT.SLOT : Loc := ⟨R.KS_BOOT, 4, 1⟩
abbrev L.KS_BOOT.STAGE : Loc := ⟨R.KS_BOOT, 0, 4⟩

/-- command of the accessing world. -/
abbrev R.KS_CMD (w : Bool) : Nat := 0x20010 + openBank w
abbrev L.KS_CMD.GO (w : Bool) : Loc := ⟨R.KS_CMD w, 63, 1⟩
abbrev L.KS_CMD.USAGE (w : Bool) : Loc := ⟨R.KS_CMD w, 30, 6⟩
abbrev L.KS_CMD.KIND (w : Bool) : Loc := ⟨R.KS_CMD w, 24, 4⟩
abbrev L.KS_CMD.PARENT (w : Bool) : Loc := ⟨R.KS_CMD w, 16, 8⟩
abbrev L.KS_CMD.SLOT (w : Bool) : Loc := ⟨R.KS_CMD w, 8, 8⟩
abbrev L.KS_CMD.CMD (w : Bool) : Loc := ⟨R.KS_CMD w, 0, 4⟩

/-- ADDR and ADDR2 in [47:0] RW, reset 0; ADDR2 is used by ATTEST only. -/
abbrev R.KS_ARG0 (w : Bool) : Nat := 0x20018 + openBank w
abbrev L.KS_ARG0.ADDR (w : Bool) : Loc := ⟨R.KS_ARG0 w, 0, 48⟩

/-- ADDR and ADDR2 in [47:0] RW, reset 0; ADDR2 is used by ATTEST only. -/
abbrev R.KS_ARG1 (w : Bool) : Nat := 0x20020 + openBank w
abbrev L.KS_ARG1.ADDR2 (w : Bool) : Loc := ⟨R.KS_ARG1 w, 0, 48⟩

/-- LEN in [15:0] RW, reset 0x0000; blob bytes, 32, 48 or 80, the RFC 5649 wraps of the attribute … -/
abbrev R.KS_ARG2 (w : Bool) : Nat := 0x20028 + openBank w
abbrev L.KS_ARG2.LEN (w : Bool) : Loc := ⟨R.KS_ARG2 w, 0, 16⟩

/-- result of the accessing world; READY in [63] RO, reset 0b0; ACK in [62] WO; STATUS in [7:0] RO, … -/
abbrev R.KS_RES (w : Bool) : Nat := 0x20030 + openBank w
abbrev L.KS_RES.READY (w : Bool) : Loc := ⟨R.KS_RES w, 63, 1⟩
abbrev L.KS_RES.ACK (w : Bool) : Loc := ⟨R.KS_RES w, 62, 1⟩
abbrev L.KS_RES.STATUS (w : Bool) : Loc := ⟨R.KS_RES w, 0, 8⟩

/-- SVN floors, RO, reset HW from the key partition: MGMT [15:0], MONITOR [31:16], SEALED [47:32], … -/
abbrev R.KS_SVN : Nat := 0x20038
abbrev L.KS_SVN.USER : Loc := ⟨R.KS_SVN, 48, 16⟩
abbrev L.KS_SVN.SEALED : Loc := ⟨R.KS_SVN, 32, 16⟩
abbrev L.KS_SVN.MONITOR : Loc := ⟨R.KS_SVN, 16, 16⟩
abbrev L.KS_SVN.MGMT : Loc := ⟨R.KS_SVN, 0, 16⟩

/-- next attestation index. -/
abbrev R.KS_ATT_IDX : Nat := 0x20040
abbrev L.KS_ATT_IDX.NEXT : Loc := ⟨R.KS_ATT_IDX, 0, 41⟩

/-- bytes 8k to 8k + 7 of the attestation public key, for k = 0 to 7; RO, reset HW; bytes 60 to 63 … -/
abbrev R.KS_ATT_PUB (n : Nat) : Nat := 0x20080 + 0x8 * n
abbrev L.KS_ATT_PUB.PUB (n : Nat) : Loc := ⟨R.KS_ATT_PUB n, 0, 64⟩

/-- bytes 8k to 8k + 7 of MEASn, for n = 0 to 7 and k = 0 to 3; RO, reset 0. -/
abbrev R.KS_MEAS (m n : Nat) : Nat := 0x20100 + 0x20 * m + 0x8 * n
abbrev L.KS_MEAS.MEAS (m n : Nat) : Loc := ⟨R.KS_MEAS m n, 0, 64⟩

/-- attributes of slot n, for n = 0 to 255. -/
abbrev R.KS_SLOT (n : Nat) : Nat := 0x21000 + 0x8 * n
abbrev L.KS_SLOT.PERSIST (n : Nat) : Loc := ⟨R.KS_SLOT n, 16, 1⟩
abbrev L.KS_SLOT.USAGE (n : Nat) : Loc := ⟨R.KS_SLOT n, 8, 6⟩
abbrev L.KS_SLOT.KIND (n : Nat) : Loc := ⟨R.KS_SLOT n, 0, 4⟩

def regTableKS0 : List RegSpec :=
  [⟨.KS_STATUS, 0x0, [], [⟨3, 1, .ro, 0⟩, ⟨2, 1, .ro, 0⟩, ⟨1, 1, .ro, 0⟩, ⟨0, 1, .ro, 0⟩]⟩,
   ⟨.KS_BOOT, 0x8, [], [⟨16, 1, .ro, 0⟩, ⟨8, 8, .ro, 0⟩, ⟨4, 1, .ro, 0⟩, ⟨0, 4, .ro, 0⟩]⟩,
   ⟨.KS_CMD, 0x10, [], [⟨63, 1, .wo, 0⟩, ⟨30, 6, .rw, 0⟩, ⟨24, 4, .rw, 0⟩, ⟨16, 8, .rw, 0⟩, ⟨8, 8, .rw, 0⟩, ⟨0, 4, .rw, 0⟩]⟩,
   ⟨.KS_ARG0, 0x18, [], [⟨0, 48, .rw, 0⟩]⟩,
   ⟨.KS_ARG1, 0x20, [], [⟨0, 48, .rw, 0⟩]⟩,
   ⟨.KS_ARG2, 0x28, [], [⟨0, 16, .rw, 0⟩]⟩,
   ⟨.KS_RES, 0x30, [], [⟨63, 1, .ro, 0⟩, ⟨62, 1, .wo, 0⟩, ⟨0, 8, .ro, 0xff⟩]⟩,
   ⟨.KS_SVN, 0x38, [], [⟨48, 16, .ro, 0⟩, ⟨32, 16, .ro, 0⟩, ⟨16, 16, .ro, 0⟩, ⟨0, 16, .ro, 0⟩]⟩,
   ⟨.KS_ATT_IDX, 0x40, [], [⟨0, 41, .ro, 0⟩]⟩,
   ⟨.KS_ATT_PUB, 0x80, [(0x8, 8)], [⟨0, 64, .ro, 0⟩]⟩,
   ⟨.KS_MEAS, 0x100, [(0x20, 8), (0x8, 4)], [⟨0, 64, .ro, 0⟩]⟩,
   ⟨.KS_SLOT, 0x1000, [(0x8, 256)], [⟨16, 1, .ro, 0⟩, ⟨8, 6, .ro, 0⟩, ⟨0, 4, .ro, 0⟩]⟩]

/-- The templates of block KS. -/
def regTableKS : List RegSpec := regTableKS0

/-! ### CE (R374) -/

/-- identity of the engine. -/
abbrev R.CE_ID (i : Nat) : Nat := 0x300000 + 0x10000 * i
abbrev L.CE_ID.NUMBER (i : Nat) : Loc := ⟨R.CE_ID i, 0, 2⟩

/-- engine activity. -/
abbrev R.CE_STATUS (i : Nat) : Nat := 0x300008 + 0x10000 * i
abbrev L.CE_STATUS.PENDING (i : Nat) : Loc := ⟨R.CE_STATUS i, 16, 5⟩
abbrev L.CE_STATUS.SUSP_VALID (i : Nat) : Loc := ⟨R.CE_STATUS i, 12, 1⟩
abbrev L.CE_STATUS.SUSP_CTX (i : Nat) : Loc := ⟨R.CE_STATUS i, 8, 4⟩
abbrev L.CE_STATUS.RUNNING (i : Nat) : Loc := ⟨R.CE_STATUS i, 4, 1⟩
abbrev L.CE_STATUS.RUN_CTX (i : Nat) : Loc := ⟨R.CE_STATUS i, 0, 4⟩

/-- engine events. -/
abbrev R.CE_EVT (i : Nat) : Nat := 0x300010 + 0x10000 * i
abbrev L.CE_EVT.SUSPEND (i : Nat) : Loc := ⟨R.CE_EVT i, 4, 1⟩
abbrev L.CE_EVT.KEYBUS (i : Nat) : Loc := ⟨R.CE_EVT i, 3, 1⟩
abbrev L.CE_EVT.CMD_ERR (i : Nat) : Loc := ⟨R.CE_EVT i, 2, 1⟩
abbrev L.CE_EVT.AUTH_FAIL (i : Nat) : Loc := ⟨R.CE_EVT i, 1, 1⟩
abbrev L.CE_EVT.MISMATCH (i : Nat) : Loc := ⟨R.CE_EVT i, 0, 1⟩

/-- event enables. -/
abbrev R.CE_EVT_EN (i : Nat) : Nat := 0x300018 + 0x10000 * i
abbrev L.CE_EVT_EN.EN (i : Nat) : Loc := ⟨R.CE_EVT_EN i, 0, 5⟩

/-- engine counts. -/
abbrev R.CE_CNT (i : Nat) : Nat := 0x300020 + 0x10000 * i
abbrev L.CE_CNT.MISMATCH (i : Nat) : Loc := ⟨R.CE_CNT i, 48, 16⟩
abbrev L.CE_CNT.AUTH_FAIL (i : Nat) : Loc := ⟨R.CE_CNT i, 32, 16⟩
abbrev L.CE_CNT.CMDS (i : Nat) : Loc := ⟨R.CE_CNT i, 0, 32⟩

def regTableCE0 : List RegSpec :=
  [⟨.CE_ID, 0x0, [], [⟨0, 2, .ro, 0⟩]⟩,
   ⟨.CE_STATUS, 0x8, [], [⟨16, 5, .ro, 0⟩, ⟨12, 1, .ro, 0⟩, ⟨8, 4, .ro, 0⟩, ⟨4, 1, .ro, 0⟩, ⟨0, 4, .ro, 0⟩]⟩,
   ⟨.CE_EVT, 0x10, [], [⟨4, 1, .w1c, 0⟩, ⟨3, 1, .w1c, 0⟩, ⟨2, 1, .w1c, 0⟩, ⟨1, 1, .w1c, 0⟩, ⟨0, 1, .w1c, 0⟩]⟩,
   ⟨.CE_EVT_EN, 0x18, [], [⟨0, 5, .rw, 0xd⟩]⟩,
   ⟨.CE_CNT, 0x20, [], [⟨48, 16, .ro, 0⟩, ⟨32, 16, .ro, 0⟩, ⟨0, 32, .ro, 0⟩]⟩]

/-- The templates of block CE. -/
def regTableCE : List RegSpec := regTableCE0

/-! ### CECTX (R374) -/

/-- manager settings of the context. -/
abbrev R.CE_CTX_CFG (i : Nat) : Nat := 0x340000 + 0x1000 * i
abbrev L.CE_CTX_CFG.URG_OK (i : Nat) : Loc := ⟨R.CE_CTX_CFG i, 17, 1⟩
abbrev L.CE_CTX_CFG.KEK_VALID (i : Nat) : Loc := ⟨R.CE_CTX_CFG i, 16, 1⟩
abbrev L.CE_CTX_CFG.KEK_SLOT (i : Nat) : Loc := ⟨R.CE_CTX_CFG i, 8, 8⟩

/-- context state. -/
abbrev R.CE_CTX_STAT (i : Nat) : Nat := 0x340008 + 0x1000 * i
abbrev L.CE_CTX_STAT.VI (i : Nat) : Loc := ⟨R.CE_CTX_STAT i, 56, 8⟩
abbrev L.CE_CTX_STAT.VI_VALID (i : Nat) : Loc := ⟨R.CE_CTX_STAT i, 55, 1⟩
abbrev L.CE_CTX_STAT.WORLD (i : Nat) : Loc := ⟨R.CE_CTX_STAT i, 54, 1⟩
abbrev L.CE_CTX_STAT.KEY_ID (i : Nat) : Loc := ⟨R.CE_CTX_STAT i, 16, 32⟩
abbrev L.CE_CTX_STAT.ALG (i : Nat) : Loc := ⟨R.CE_CTX_STAT i, 12, 4⟩
abbrev L.CE_CTX_STAT.EXPORTABLE (i : Nat) : Loc := ⟨R.CE_CTX_STAT i, 7, 1⟩
abbrev L.CE_CTX_STAT.KEY_SRC (i : Nat) : Loc := ⟨R.CE_CTX_STAT i, 5, 2⟩
abbrev L.CE_CTX_STAT.KEYED (i : Nat) : Loc := ⟨R.CE_CTX_STAT i, 4, 1⟩
abbrev L.CE_CTX_STAT.STATE (i : Nat) : Loc := ⟨R.CE_CTX_STAT i, 0, 3⟩

/-- command start. -/
abbrev R.CE_CMD (i : Nat) : Nat := 0x340010 + 0x1000 * i
abbrev L.CE_CMD.GO (i : Nat) : Loc := ⟨R.CE_CMD i, 63, 1⟩
abbrev L.CE_CMD.URGENT (i : Nat) : Loc := ⟨R.CE_CMD i, 62, 1⟩

/-- command word w, for w = 1 to 7. -/
abbrev R.CE_CMDW (i n : Nat) : Nat := 0x340018 + 0x1000 * i + 0x8 * n
abbrev L.CE_CMDW.WORD (i n : Nat) : Loc := ⟨R.CE_CMDW i n, 0, 64⟩

/-- result of the last command. -/
abbrev R.CE_RESULT (i : Nat) : Nat := 0x340050 + 0x1000 * i
abbrev L.CE_RESULT.READY (i : Nat) : Loc := ⟨R.CE_RESULT i, 63, 1⟩
abbrev L.CE_RESULT.DATA (i : Nat) : Loc := ⟨R.CE_RESULT i, 0, 63⟩

/-- result acknowledgement. -/
abbrev R.CE_ACK (i : Nat) : Nat := 0x340058 + 0x1000 * i
abbrev L.CE_ACK.ACK (i : Nat) : Loc := ⟨R.CE_ACK i, 0, 1⟩

/-- completion interrupt; same fields as QE_CH_MSI. -/
abbrev R.CE_CTX_MSI (i : Nat) : Nat := 0x340060 + 0x1000 * i
abbrev L.CE_CTX_MSI.EN (i : Nat) : Loc := ⟨R.CE_CTX_MSI i, 63, 1⟩
abbrev L.CE_CTX_MSI.DATA (i : Nat) : Loc := ⟨R.CE_CTX_MSI i, 48, 11⟩
abbrev L.CE_CTX_MSI.ADDR (i : Nat) : Loc := ⟨R.CE_CTX_MSI i, 2, 46⟩

/-- context counts. -/
abbrev R.CE_CTX_CNT (i : Nat) : Nat := 0x340068 + 0x1000 * i
abbrev L.CE_CTX_CNT.SUSP (i : Nat) : Loc := ⟨R.CE_CTX_CNT i, 32, 32⟩
abbrev L.CE_CTX_CNT.CMDS (i : Nat) : Loc := ⟨R.CE_CTX_CNT i, 0, 32⟩

def regTableCECTX0 : List RegSpec :=
  [⟨.CE_CTX_CFG, 0x0, [], [⟨17, 1, .rw, 0⟩, ⟨16, 1, .rw, 0⟩, ⟨8, 8, .rw, 0⟩]⟩,
   ⟨.CE_CTX_STAT, 0x8, [], [⟨56, 8, .ro, 0⟩, ⟨55, 1, .ro, 0⟩, ⟨54, 1, .ro, 1⟩, ⟨16, 32, .ro, 0⟩, ⟨12, 4, .ro, 0⟩, ⟨7, 1, .ro, 0⟩, ⟨5, 2, .ro, 0⟩, ⟨4, 1, .ro, 0⟩, ⟨0, 3, .ro, 0⟩]⟩,
   ⟨.CE_CMD, 0x10, [], [⟨63, 1, .wo, 0⟩, ⟨62, 1, .wo, 0⟩]⟩,
   ⟨.CE_CMDW, 0x18, [(0x8, 7)], [⟨0, 64, .rw, 0⟩]⟩,
   ⟨.CE_RESULT, 0x50, [], [⟨63, 1, .ro, 0⟩, ⟨0, 63, .ro, 0x7fffffffffffffff⟩]⟩,
   ⟨.CE_ACK, 0x58, [], [⟨0, 1, .wo, 0⟩]⟩,
   ⟨.CE_CTX_MSI, 0x60, [], [⟨63, 1, .rw, 0⟩, ⟨48, 11, .rw, 0⟩, ⟨2, 46, .rw, 0⟩]⟩,
   ⟨.CE_CTX_CNT, 0x68, [], [⟨32, 32, .ro, 0⟩, ⟨0, 32, .ro, 0⟩]⟩]

/-- The templates of block CECTX. -/
def regTableCECTX : List RegSpec := regTableCECTX0

/-! ### PCI (R392) -/

/-- controller configuration. -/
abbrev R.PCI_CFG (i : Nat) : Nat := 0xc0000 + 0x10000 * i
abbrev L.PCI_CFG.CTO (i : Nat) : Loc := ⟨R.PCI_CFG i, 16, 16⟩
abbrev L.PCI_CFG.BIF (i : Nat) : Loc := ⟨R.PCI_CFG i, 3, 2⟩
abbrev L.PCI_CFG.ROLE (i : Nat) : Loc := ⟨R.PCI_CFG i, 2, 1⟩
abbrev L.PCI_CFG.EN (i : Nat) : Loc := ⟨R.PCI_CFG i, 0, 1⟩

/-- link state of ports 0 and 1. -/
abbrev R.PCI_STATUS (i : Nat) : Nat := 0xc0008 + 0x10000 * i
abbrev L.PCI_STATUS.P1 (i : Nat) : Loc := ⟨R.PCI_STATUS i, 16, 8⟩
abbrev L.PCI_STATUS.P0_UP (i : Nat) : Loc := ⟨R.PCI_STATUS i, 7, 1⟩
abbrev L.PCI_STATUS.P0_WIDTH (i : Nat) : Loc := ⟨R.PCI_STATUS i, 4, 3⟩
abbrev L.PCI_STATUS.P0_RATE (i : Nat) : Loc := ⟨R.PCI_STATUS i, 0, 3⟩

/-- controller events. -/
abbrev R.PCI_EVT (i : Nat) : Nat := 0xc0010 + 0x10000 * i
abbrev L.PCI_EVT.NO_FN (i : Nat) : Loc := ⟨R.PCI_EVT i, 3, 1⟩
abbrev L.PCI_EVT.PEER_VIOL (i : Nat) : Loc := ⟨R.PCI_EVT i, 2, 1⟩
abbrev L.PCI_EVT.CTO (i : Nat) : Loc := ⟨R.PCI_EVT i, 1, 1⟩
abbrev L.PCI_EVT.LINK_DOWN (i : Nat) : Loc := ⟨R.PCI_EVT i, 0, 1⟩

/-- EN in [3:0] RW, reset 0xF; bit n enables PCI_EVT bit n towards the management cores and the … -/
abbrev R.PCI_EVT_EN (i : Nat) : Nat := 0xc0018 + 0x10000 * i
abbrev L.PCI_EVT_EN.EN (i : Nat) : Loc := ⟨R.PCI_EVT_EN i, 0, 4⟩

/-- VIOL in [31:0] RO, reset 0; violations under R381. -/
abbrev R.PCI_CNT (i : Nat) : Nat := 0xc0020 + 0x10000 * i
abbrev L.PCI_CNT.VIOL (i : Nat) : Loc := ⟨R.PCI_CNT i, 0, 32⟩

/-- function k, for k = 0 to 7. -/
abbrev R.PCI_FN_CFG (i n : Nat) : Nat := 0xc0100 + 0x10000 * i + 0x20 * n
abbrev L.PCI_FN_CFG.EN (i n : Nat) : Loc := ⟨R.PCI_FN_CFG i n, 63, 1⟩
abbrev L.PCI_FN_CFG.WORLD (i n : Nat) : Loc := ⟨R.PCI_FN_CFG i n, 62, 1⟩
abbrev L.PCI_FN_CFG.VI_VALID (i n : Nat) : Loc := ⟨R.PCI_FN_CFG i n, 61, 1⟩
abbrev L.PCI_FN_CFG.VI (i n : Nat) : Loc := ⟨R.PCI_FN_CFG i n, 53, 8⟩
abbrev L.PCI_FN_CFG.BUS_HI (i n : Nat) : Loc := ⟨R.PCI_FN_CFG i n, 24, 8⟩
abbrev L.PCI_FN_CFG.BUS_LO (i n : Nat) : Loc := ⟨R.PCI_FN_CFG i n, 16, 8⟩

/-- BASE in [63:36] RW, reset 0, PCIe address bits [63:36] of the slice under R379; other bits keep … -/
abbrev R.PCI_FN_OB (i n : Nat) : Nat := 0xc0108 + 0x10000 * i + 0x20 * n
abbrev L.PCI_FN_OB.BASE (i n : Nat) : Loc := ⟨R.PCI_FN_OB i n, 36, 28⟩

/-- BASE in [47:20] RW, reset 0, device address bits [47:20] of BAR0 in the endpoint role; other … -/
abbrev R.PCI_FN_BAR (i n : Nat) : Nat := 0xc0110 + 0x10000 * i + 0x20 * n
abbrev L.PCI_FN_BAR.BASE (i n : Nat) : Loc := ⟨R.PCI_FN_BAR i n, 20, 28⟩

def regTablePCI0 : List RegSpec :=
  [⟨.PCI_CFG, 0x0, [], [⟨16, 16, .rw, 0x2710⟩, ⟨3, 2, .rw, 0⟩, ⟨2, 1, .rw, 0⟩, ⟨0, 1, .rw, 0⟩]⟩,
   ⟨.PCI_STATUS, 0x8, [], [⟨16, 8, .ro, 0⟩, ⟨7, 1, .ro, 0⟩, ⟨4, 3, .ro, 0⟩, ⟨0, 3, .ro, 0⟩]⟩,
   ⟨.PCI_EVT, 0x10, [], [⟨3, 1, .w1c, 0⟩, ⟨2, 1, .w1c, 0⟩, ⟨1, 1, .w1c, 0⟩, ⟨0, 1, .w1c, 0⟩]⟩,
   ⟨.PCI_EVT_EN, 0x18, [], [⟨0, 4, .rw, 0xf⟩]⟩,
   ⟨.PCI_CNT, 0x20, [], [⟨0, 32, .ro, 0⟩]⟩,
   ⟨.PCI_FN_CFG, 0x100, [(0x20, 8)], [⟨63, 1, .rw, 0⟩, ⟨62, 1, .ro, 1⟩, ⟨61, 1, .ro, 0⟩, ⟨53, 8, .ro, 0⟩, ⟨24, 8, .rw, 0⟩, ⟨16, 8, .rw, 0⟩]⟩,
   ⟨.PCI_FN_OB, 0x108, [(0x20, 8)], [⟨36, 28, .rw, 0⟩]⟩,
   ⟨.PCI_FN_BAR, 0x110, [(0x20, 8)], [⟨20, 28, .rw, 0⟩]⟩]

/-- The templates of block PCI. -/
def regTablePCI : List RegSpec := regTablePCI0

/-! ### ETH (R393) -/

/-- lane l, for l = 0 to 3. -/
abbrev R.ETH_LANE_CFG (n : Nat) : Nat := 0x50000 + 0x8 * n
abbrev L.ETH_LANE_CFG.AS_ROLE (n : Nat) : Loc := ⟨R.ETH_LANE_CFG n, 6, 2⟩
abbrev L.ETH_LANE_CFG.FEC (n : Nat) : Loc := ⟨R.ETH_LANE_CFG n, 4, 2⟩
abbrev L.ETH_LANE_CFG.SPEED (n : Nat) : Loc := ⟨R.ETH_LANE_CFG n, 2, 1⟩
abbrev L.ETH_LANE_CFG.EN (n : Nat) : Loc := ⟨R.ETH_LANE_CFG n, 0, 1⟩

/-- link and gate state. -/
abbrev R.ETH_STATUS : Nat := 0x50020
abbrev L.ETH_STATUS.LIST_VALID : Loc := ⟨R.ETH_STATUS, 36, 4⟩
abbrev L.ETH_STATUS.LINK : Loc := ⟨R.ETH_STATUS, 32, 4⟩
abbrev L.ETH_STATUS.LIST : Loc := ⟨R.ETH_STATUS, 0, 32⟩

/-- LINK in [0], RX_DROP in [1] and AS_TMO in [2], each W1C with reset 0b0; other bits keep 0 and … -/
abbrev R.ETH_EVT : Nat := 0x50028
abbrev L.ETH_EVT.AS_TMO : Loc := ⟨R.ETH_EVT, 2, 1⟩
abbrev L.ETH_EVT.RX_DROP : Loc := ⟨R.ETH_EVT, 1, 1⟩
abbrev L.ETH_EVT.LINK : Loc := ⟨R.ETH_EVT, 0, 1⟩

/-- EN in [2:0] RW, reset 0x7; bit n enables ETH_EVT bit n towards the management cores and the … -/
abbrev R.ETH_EVT_EN : Nat := 0x50030
abbrev L.ETH_EVT_EN.EN : Loc := ⟨R.ETH_EVT_EN, 0, 3⟩

/-- lane counts, saturating. -/
abbrev R.ETH_LANE_CNT (n : Nat) : Nat := 0x50040 + 0x8 * n
abbrev L.ETH_LANE_CNT.TX_BAD (n : Nat) : Loc := ⟨R.ETH_LANE_CNT n, 48, 16⟩
abbrev L.ETH_LANE_CNT.FCS_ERR (n : Nat) : Loc := ⟨R.ETH_LANE_CNT n, 32, 16⟩
abbrev L.ETH_LANE_CNT.RX_DROP (n : Nat) : Loc := ⟨R.ETH_LANE_CNT n, 0, 32⟩

/-- TIME in [63:0] RO, reset 0. It holds the last event-message timestamp of lane l, in ns in … -/
abbrev R.ETH_TS (n : Nat) : Nat := 0x50060 + 0x8 * n
abbrev L.ETH_TS.TIME (n : Nat) : Loc := ⟨R.ETH_TS n, 0, 64⟩

/-- function f, for f = 0 to 7. -/
abbrev R.ETH_FN_CFG (n : Nat) : Nat := 0x50100 + 0x8 * n
abbrev L.ETH_FN_CFG.EN (n : Nat) : Loc := ⟨R.ETH_FN_CFG n, 63, 1⟩
abbrev L.ETH_FN_CFG.WORLD (n : Nat) : Loc := ⟨R.ETH_FN_CFG n, 62, 1⟩
abbrev L.ETH_FN_CFG.VI_VALID (n : Nat) : Loc := ⟨R.ETH_FN_CFG n, 61, 1⟩
abbrev L.ETH_FN_CFG.VI (n : Nat) : Loc := ⟨R.ETH_FN_CFG n, 53, 8⟩
abbrev L.ETH_FN_CFG.LANES (n : Nat) : Loc := ⟨R.ETH_FN_CFG n, 32, 4⟩
abbrev L.ETH_FN_CFG.TXQ (n : Nat) : Loc := ⟨R.ETH_FN_CFG n, 16, 12⟩
abbrev L.ETH_FN_CFG.RXQ (n : Nat) : Loc := ⟨R.ETH_FN_CFG n, 0, 12⟩

/-- address entry m, for m = 0 to 31. -/
abbrev R.ETH_MAC (n : Nat) : Nat := 0x50200 + 0x8 * n
abbrev L.ETH_MAC.EN (n : Nat) : Loc := ⟨R.ETH_MAC n, 63, 1⟩
abbrev L.ETH_MAC.FN (n : Nat) : Loc := ⟨R.ETH_MAC n, 48, 3⟩
abbrev L.ETH_MAC.MAC (n : Nat) : Loc := ⟨R.ETH_MAC n, 0, 48⟩

/-- list n, for n = 0 to 255. -/
abbrev R.ETH_GATE_LIST (n : Nat) : Nat := 0x50800 + 0x8 * n
abbrev L.ETH_GATE_LIST.COUNT (n : Nat) : Loc := ⟨R.ETH_GATE_LIST n, 16, 13⟩
abbrev L.ETH_GATE_LIST.START (n : Nat) : Loc := ⟨R.ETH_GATE_LIST n, 0, 12⟩

/-- gate entry e, for e = 0 to 4,095. -/
abbrev R.ETH_GATE_ENT (n : Nat) : Nat := 0x58000 + 0x8 * n
abbrev L.ETH_GATE_ENT.GATES (n : Nat) : Loc := ⟨R.ETH_GATE_ENT n, 32, 8⟩
abbrev L.ETH_GATE_ENT.INTERVAL (n : Nat) : Loc := ⟨R.ETH_GATE_ENT n, 0, 24⟩

def regTableETH0 : List RegSpec :=
  [⟨.ETH_LANE_CFG, 0x0, [(0x8, 4)], [⟨6, 2, .rw, 0⟩, ⟨4, 2, .rw, 0⟩, ⟨2, 1, .rw, 1⟩, ⟨0, 1, .rw, 0⟩]⟩,
   ⟨.ETH_STATUS, 0x20, [], [⟨36, 4, .ro, 0⟩, ⟨32, 4, .ro, 0⟩, ⟨0, 32, .ro, 0⟩]⟩,
   ⟨.ETH_EVT, 0x28, [], [⟨2, 1, .w1c, 0⟩, ⟨1, 1, .w1c, 0⟩, ⟨0, 1, .w1c, 0⟩]⟩,
   ⟨.ETH_EVT_EN, 0x30, [], [⟨0, 3, .rw, 7⟩]⟩,
   ⟨.ETH_LANE_CNT, 0x40, [(0x8, 4)], [⟨48, 16, .ro, 0⟩, ⟨32, 16, .ro, 0⟩, ⟨0, 32, .ro, 0⟩]⟩,
   ⟨.ETH_TS, 0x60, [(0x8, 4)], [⟨0, 64, .ro, 0⟩]⟩,
   ⟨.ETH_FN_CFG, 0x100, [(0x8, 8)], [⟨63, 1, .rw, 0⟩, ⟨62, 1, .ro, 1⟩, ⟨61, 1, .ro, 0⟩, ⟨53, 8, .ro, 0⟩, ⟨32, 4, .rw, 0⟩, ⟨16, 12, .rw, 0⟩, ⟨0, 12, .rw, 0⟩]⟩,
   ⟨.ETH_MAC, 0x200, [(0x8, 32)], [⟨63, 1, .rw, 0⟩, ⟨48, 3, .rw, 0⟩, ⟨0, 48, .rw, 0⟩]⟩,
   ⟨.ETH_GATE_LIST, 0x800, [(0x8, 256)], [⟨16, 13, .rw, 0⟩, ⟨0, 12, .rw, 0⟩]⟩,
   ⟨.ETH_GATE_ENT, 0x8000, [(0x8, 4096)], [⟨32, 8, .rw, 0xff⟩, ⟨0, 24, .rw, 0x40⟩]⟩]

/-- The templates of block ETH. -/
def regTableETH : List RegSpec := regTableETH0

/-! ### MGT (R390) -/

/-- management port. -/
abbrev R.MGT_CFG : Nat := 0x60000
abbrev L.MGT_CFG.SPEED : Loc := ⟨R.MGT_CFG, 1, 1⟩
abbrev L.MGT_CFG.EN : Loc := ⟨R.MGT_CFG, 0, 1⟩

/-- LINK in [0] RO, reset 0b0; other bits keep 0 and read 0. -/
abbrev R.MGT_STATUS : Nat := 0x60008
abbrev L.MGT_STATUS.LINK : Loc := ⟨R.MGT_STATUS, 0, 1⟩

/-- low-speed interfaces. -/
abbrev R.MGT_LS_CFG : Nat := 0x60010
abbrev L.MGT_LS_CFG.GPIO_OUT : Loc := ⟨R.MGT_LS_CFG, 16, 16⟩
abbrev L.MGT_LS_CFG.SMB_EN : Loc := ⟨R.MGT_LS_CFG, 8, 1⟩
abbrev L.MGT_LS_CFG.SMB_ADDR : Loc := ⟨R.MGT_LS_CFG, 0, 7⟩

/-- OUT in [31:16] RW, reset 0x0000, the levels driven on output pins; IN in [15:0] RO, reset HW, … -/
abbrev R.MGT_GPIO : Nat := 0x60018
abbrev L.MGT_GPIO.OUT : Loc := ⟨R.MGT_GPIO, 16, 16⟩
abbrev L.MGT_GPIO.IN : Loc := ⟨R.MGT_GPIO, 0, 16⟩

def regTableMGT0 : List RegSpec :=
  [⟨.MGT_CFG, 0x0, [], [⟨1, 1, .rw, 0⟩, ⟨0, 1, .rw, 0⟩]⟩,
   ⟨.MGT_STATUS, 0x8, [], [⟨0, 1, .ro, 0⟩]⟩,
   ⟨.MGT_LS_CFG, 0x10, [], [⟨16, 16, .rw, 0⟩, ⟨8, 1, .rw, 1⟩, ⟨0, 7, .rw, 0x4c⟩]⟩,
   ⟨.MGT_GPIO, 0x18, [], [⟨16, 16, .rw, 0⟩, ⟨0, 16, .ro, 0⟩]⟩]

/-- The templates of block MGT. -/
def regTableMGT : List RegSpec := regTableMGT0

/-! ### PWR (R412) -/

/-- input measurement. -/
abbrev R.PWR_IN : Nat := 0x70000
abbrev L.PWR_IN.POWER : Loc := ⟨R.PWR_IN, 32, 16⟩
abbrev L.PWR_IN.CURRENT : Loc := ⟨R.PWR_IN, 16, 16⟩
abbrev L.PWR_IN.VOLTAGE : Loc := ⟨R.PWR_IN, 0, 16⟩

/-- cap and exemptions. -/
abbrev R.PWR_CAP : Nat := 0x70008
abbrev L.PWR_CAP.KEEP : Loc := ⟨R.PWR_CAP, 16, 12⟩
abbrev L.PWR_CAP.CAP : Loc := ⟨R.PWR_CAP, 0, 9⟩

/-- cap state. -/
abbrev R.PWR_CAP_STAT : Nat := 0x70010
abbrev L.PWR_CAP_STAT.THERMAL : Loc := ⟨R.PWR_CAP_STAT, 33, 1⟩
abbrev L.PWR_CAP_STAT.UNMET : Loc := ⟨R.PWR_CAP_STAT, 32, 1⟩
abbrev L.PWR_CAP_STAT.STEP : Loc := ⟨R.PWR_CAP_STAT, 0, 24⟩

/-- temperature. -/
abbrev R.PWR_THERM : Nat := 0x70018
abbrev L.PWR_THERM.GRADE : Loc := ⟨R.PWR_THERM, 32, 2⟩
abbrev L.PWR_THERM.STATE : Loc := ⟨R.PWR_THERM, 24, 3⟩
abbrev L.PWR_THERM.SENSOR : Loc := ⟨R.PWR_THERM, 16, 8⟩
abbrev L.PWR_THERM.TJ : Loc := ⟨R.PWR_THERM, 0, 16⟩

/-- power request of the writer's world. -/
abbrev R.PWR_CMD (w : Bool) : Nat := 0x70020 + openBank w
abbrev L.PWR_CMD.GO (w : Bool) : Loc := ⟨R.PWR_CMD w, 63, 1⟩
abbrev L.PWR_CMD.ACTION (w : Bool) : Loc := ⟨R.PWR_CMD w, 8, 4⟩
abbrev L.PWR_CMD.DOMAIN (w : Bool) : Loc := ⟨R.PWR_CMD w, 0, 6⟩

/-- result of the reader's world. -/
abbrev R.PWR_RES (w : Bool) : Nat := 0x70028 + openBank w
abbrev L.PWR_RES.READY (w : Bool) : Loc := ⟨R.PWR_RES w, 63, 1⟩
abbrev L.PWR_RES.ACK (w : Bool) : Loc := ⟨R.PWR_RES w, 62, 1⟩
abbrev L.PWR_RES.STATUS (w : Bool) : Loc := ⟨R.PWR_RES w, 0, 8⟩

/-- power events. -/
abbrev R.PWR_EVT : Nat := 0x70030
abbrev L.PWR_EVT.VIN_LOW : Loc := ⟨R.PWR_EVT, 6, 1⟩
abbrev L.PWR_EVT.TJ_LOW : Loc := ⟨R.PWR_EVT, 5, 1⟩
abbrev L.PWR_EVT.THERM_HOT : Loc := ⟨R.PWR_EVT, 4, 1⟩
abbrev L.PWR_EVT.THERM_WARN : Loc := ⟨R.PWR_EVT, 3, 1⟩
abbrev L.PWR_EVT.CAP_UNMET : Loc := ⟨R.PWR_EVT, 2, 1⟩
abbrev L.PWR_EVT.REFUSED : Loc := ⟨R.PWR_EVT, 1, 1⟩
abbrev L.PWR_EVT.DOM_CHG : Loc := ⟨R.PWR_EVT, 0, 1⟩

/-- event enables. -/
abbrev R.PWR_EVT_EN : Nat := 0x70038
abbrev L.PWR_EVT_EN.EN : Loc := ⟨R.PWR_EVT_EN, 0, 7⟩

/-- state of domain n, for n = 0 to 33. -/
abbrev R.PWR_DOM (n : Nat) : Nat := 0x70100 + 0x8 * n
abbrev L.PWR_DOM.SEALED_ONLY (n : Nat) : Loc := ⟨R.PWR_DOM n, 8, 1⟩
abbrev L.PWR_DOM.BUSY (n : Nat) : Loc := ⟨R.PWR_DOM n, 3, 1⟩
abbrev L.PWR_DOM.STATE (n : Nat) : Loc := ⟨R.PWR_DOM n, 0, 2⟩

/-- triggers of the resets since power-on. -/
abbrev R.PWR_RST_CAUSE : Nat := 0x70040
abbrev L.PWR_RST_CAUSE.TRIP : Loc := ⟨R.PWR_RST_CAUSE, 6, 1⟩
abbrev L.PWR_RST_CAUSE.OVER_V : Loc := ⟨R.PWR_RST_CAUSE, 5, 1⟩
abbrev L.PWR_RST_CAUSE.POWER_FAIL : Loc := ⟨R.PWR_RST_CAUSE, 4, 1⟩
abbrev L.PWR_RST_CAUSE.BELAY : Loc := ⟨R.PWR_RST_CAUSE, 3, 1⟩
abbrev L.PWR_RST_CAUSE.SOFT : Loc := ⟨R.PWR_RST_CAUSE, 2, 1⟩
abbrev L.PWR_RST_CAUSE.PIN : Loc := ⟨R.PWR_RST_CAUSE, 1, 1⟩
abbrev L.PWR_RST_CAUSE.POWER_ON : Loc := ⟨R.PWR_RST_CAUSE, 0, 1⟩

/-- reset request; Sealed world only. -/
abbrev R.PWR_RST_CMD : Nat := 0x70048
abbrev L.PWR_RST_CMD.GO : Loc := ⟨R.PWR_RST_CMD, 63, 1⟩
abbrev L.PWR_RST_CMD.KIND : Loc := ⟨R.PWR_RST_CMD, 8, 2⟩
abbrev L.PWR_RST_CMD.DIE : Loc := ⟨R.PWR_RST_CMD, 4, 4⟩
abbrev L.PWR_RST_CMD.CLUSTER : Loc := ⟨R.PWR_RST_CMD, 0, 4⟩

/-- result of the last die or cluster reset. -/
abbrev R.PWR_RST_RES : Nat := 0x70050
abbrev L.PWR_RST_RES.READY : Loc := ⟨R.PWR_RST_RES, 63, 1⟩
abbrev L.PWR_RST_RES.ACK : Loc := ⟨R.PWR_RST_RES, 62, 1⟩
abbrev L.PWR_RST_RES.STATUS : Loc := ⟨R.PWR_RST_RES, 0, 8⟩

/-- time-base hold; Sealed world only. -/
abbrev R.PWR_RST_HOLD : Nat := 0x70058
abbrev L.PWR_RST_HOLD.TB : Loc := ⟨R.PWR_RST_HOLD, 0, 1⟩

/-- hart start address. -/
abbrev R.PWR_CORE_VEC : Nat := 0x70060
abbrev L.PWR_CORE_VEC.VALID : Loc := ⟨R.PWR_CORE_VEC, 63, 1⟩
abbrev L.PWR_CORE_VEC.VEC : Loc := ⟨R.PWR_CORE_VEC, 2, 46⟩

def regTablePWR0 : List RegSpec :=
  [⟨.PWR_IN, 0x0, [], [⟨32, 16, .ro, 0⟩, ⟨16, 16, .ro, 0⟩, ⟨0, 16, .ro, 0⟩]⟩,
   ⟨.PWR_CAP, 0x8, [], [⟨16, 12, .rw, 0⟩, ⟨0, 9, .rw, 0x190⟩]⟩,
   ⟨.PWR_CAP_STAT, 0x10, [], [⟨33, 1, .ro, 0⟩, ⟨32, 1, .ro, 0⟩, ⟨0, 24, .ro, 0⟩]⟩,
   ⟨.PWR_THERM, 0x18, [], [⟨32, 2, .ro, 0⟩, ⟨24, 3, .ro, 0⟩, ⟨16, 8, .ro, 0⟩, ⟨0, 16, .ro, 0⟩]⟩,
   ⟨.PWR_CMD, 0x20, [], [⟨63, 1, .wo, 0⟩, ⟨8, 4, .rw, 0⟩, ⟨0, 6, .rw, 0⟩]⟩,
   ⟨.PWR_RES, 0x28, [], [⟨63, 1, .ro, 0⟩, ⟨62, 1, .wo, 0⟩, ⟨0, 8, .ro, 0xff⟩]⟩,
   ⟨.PWR_EVT, 0x30, [], [⟨6, 1, .w1c, 0⟩, ⟨5, 1, .w1c, 0⟩, ⟨4, 1, .w1c, 0⟩, ⟨3, 1, .w1c, 0⟩, ⟨2, 1, .w1c, 0⟩, ⟨1, 1, .w1c, 0⟩, ⟨0, 1, .w1c, 0⟩]⟩,
   ⟨.PWR_EVT_EN, 0x38, [], [⟨0, 7, .rw, 0x7e⟩]⟩,
   ⟨.PWR_DOM, 0x100, [(0x8, 34)], [⟨8, 1, .ro, 0⟩, ⟨3, 1, .ro, 0⟩, ⟨0, 2, .ro, 0⟩]⟩,
   ⟨.PWR_RST_CAUSE, 0x40, [], [⟨6, 1, .w1c, 0⟩, ⟨5, 1, .w1c, 0⟩, ⟨4, 1, .w1c, 0⟩, ⟨3, 1, .w1c, 0⟩, ⟨2, 1, .w1c, 0⟩, ⟨1, 1, .w1c, 0⟩, ⟨0, 1, .w1c, 0⟩]⟩,
   ⟨.PWR_RST_CMD, 0x48, [], [⟨63, 1, .wo, 0⟩, ⟨8, 2, .rw, 0⟩, ⟨4, 4, .rw, 0⟩, ⟨0, 4, .rw, 0⟩]⟩,
   ⟨.PWR_RST_RES, 0x50, [], [⟨63, 1, .ro, 0⟩, ⟨62, 1, .wo, 0⟩, ⟨0, 8, .ro, 0xff⟩]⟩]

def regTablePWR1 : List RegSpec :=
  [⟨.PWR_RST_HOLD, 0x58, [], [⟨0, 1, .rw, 1⟩]⟩,
   ⟨.PWR_CORE_VEC, 0x60, [], [⟨63, 1, .ro, 0⟩, ⟨2, 46, .ro, 0⟩]⟩]

/-- The templates of block PWR. -/
def regTablePWR : List RegSpec := regTablePWR0 ++ regTablePWR1

/-! ### CLK (R413) -/

/-- reference inputs. -/
abbrev R.CLK_REF : Nat := 0x80000
abbrev L.CLK_REF.PCI_REF_OK : Loc := ⟨R.CLK_REF, 1, 1⟩
abbrev L.CLK_REF.REF_OK : Loc := ⟨R.CLK_REF, 0, 1⟩

/-- clock events. -/
abbrev R.CLK_EVT : Nat := 0x80008
abbrev L.CLK_EVT.UNLOCK : Loc := ⟨R.CLK_EVT, 2, 1⟩
abbrev L.CLK_EVT.PCI_REF_LOSS : Loc := ⟨R.CLK_EVT, 1, 1⟩
abbrev L.CLK_EVT.REF_LOSS : Loc := ⟨R.CLK_EVT, 0, 1⟩

/-- event enables. -/
abbrev R.CLK_EVT_EN : Nat := 0x80010
abbrev L.CLK_EVT_EN.EN : Loc := ⟨R.CLK_EVT_EN, 0, 3⟩

/-- clock domain n, for n = 0 to 21. -/
abbrev R.CLK_DOM (n : Nat) : Nat := 0x80100 + 0x8 * n
abbrev L.CLK_DOM.FREQ (n : Nat) : Loc := ⟨R.CLK_DOM n, 32, 16⟩
abbrev L.CLK_DOM.LOCK (n : Nat) : Loc := ⟨R.CLK_DOM n, 8, 1⟩
abbrev L.CLK_DOM.EFF (n : Nat) : Loc := ⟨R.CLK_DOM n, 2, 2⟩
abbrev L.CLK_DOM.FSEL (n : Nat) : Loc := ⟨R.CLK_DOM n, 0, 2⟩

def regTableCLK0 : List RegSpec :=
  [⟨.CLK_REF, 0x0, [], [⟨1, 1, .ro, 0⟩, ⟨0, 1, .ro, 0⟩]⟩,
   ⟨.CLK_EVT, 0x8, [], [⟨2, 1, .w1c, 0⟩, ⟨1, 1, .w1c, 0⟩, ⟨0, 1, .w1c, 0⟩]⟩,
   ⟨.CLK_EVT_EN, 0x10, [], [⟨0, 3, .rw, 7⟩]⟩,
   ⟨.CLK_DOM, 0x100, [(0x8, 22)], [⟨32, 16, .ro, 0⟩, ⟨8, 1, .ro, 0⟩, ⟨2, 2, .ro, 0⟩, ⟨0, 2, .rw, 0⟩]⟩]

/-- The templates of block CLK. -/
def regTableCLK : List RegSpec := regTableCLK0

/-! ### ERR (R446) -/

/-- event queue indices. -/
abbrev R.ERR_EVQ_IDX : Nat := 0x90000
abbrev L.ERR_EVQ_IDX.DROPPED : Loc := ⟨R.ERR_EVQ_IDX, 48, 16⟩
abbrev L.ERR_EVQ_IDX.CONS : Loc := ⟨R.ERR_EVQ_IDX, 16, 16⟩
abbrev L.ERR_EVQ_IDX.PROD : Loc := ⟨R.ERR_EVQ_IDX, 0, 16⟩

/-- entry k, for k = 0 to 511, in four 64-bit words of Table 18.5; RO, reset 0. -/
abbrev R.ERR_EVQ (m n : Nat) : Nat := 0x94000 + 0x20 * m + 0x8 * n
abbrev L.ERR_EVQ.WORD (m n : Nat) : Loc := ⟨R.ERR_EVQ m n, 0, 64⟩

/-- state of log n, for n = 0 to 511. -/
abbrev R.ERR_LOG_STAT (n : Nat) : Nat := 0x98000 + 0x20 * n
abbrev L.ERR_LOG_STAT.VALID (n : Nat) : Loc := ⟨R.ERR_LOG_STAT n, 63, 1⟩
abbrev L.ERR_LOG_STAT.COUNT (n : Nat) : Loc := ⟨R.ERR_LOG_STAT n, 32, 16⟩
abbrev L.ERR_LOG_STAT.DETAIL (n : Nat) : Loc := ⟨R.ERR_LOG_STAT n, 8, 8⟩
abbrev L.ERR_LOG_STAT.CAUSE (n : Nat) : Loc := ⟨R.ERR_LOG_STAT n, 0, 8⟩

/-- address of the first record. -/
abbrev R.ERR_LOG_ADDR (n : Nat) : Nat := 0x98008 + 0x20 * n
abbrev L.ERR_LOG_ADDR.WORLD (n : Nat) : Loc := ⟨R.ERR_LOG_ADDR n, 63, 1⟩
abbrev L.ERR_LOG_ADDR.VI_VALID (n : Nat) : Loc := ⟨R.ERR_LOG_ADDR n, 62, 1⟩
abbrev L.ERR_LOG_ADDR.VI (n : Nat) : Loc := ⟨R.ERR_LOG_ADDR n, 54, 8⟩
abbrev L.ERR_LOG_ADDR.ADDR (n : Nat) : Loc := ⟨R.ERR_LOG_ADDR n, 0, 48⟩

/-- FRAME in [63:0] RO, reset all ones; the frame number of the first record. -/
abbrev R.ERR_LOG_FRAME (n : Nat) : Nat := 0x98010 + 0x20 * n
abbrev L.ERR_LOG_FRAME.FRAME (n : Nat) : Loc := ⟨R.ERR_LOG_FRAME n, 0, 64⟩

/-- detail of the first record. -/
abbrev R.ERR_LOG_INFO (n : Nat) : Nat := 0x98018 + 0x20 * n
abbrev L.ERR_LOG_INFO.AUX (n : Nat) : Loc := ⟨R.ERR_LOG_INFO n, 24, 16⟩
abbrev L.ERR_LOG_INFO.OFFSET (n : Nat) : Loc := ⟨R.ERR_LOG_INFO n, 0, 24⟩

def regTableERR0 : List RegSpec :=
  [⟨.ERR_EVQ_IDX, 0x0, [], [⟨48, 16, .ro, 0⟩, ⟨16, 16, .rw, 0⟩, ⟨0, 16, .ro, 0⟩]⟩,
   ⟨.ERR_EVQ, 0x4000, [(0x20, 512), (0x8, 4)], [⟨0, 64, .ro, 0⟩]⟩,
   ⟨.ERR_LOG_STAT, 0x8000, [(0x20, 512)], [⟨63, 1, .w1c, 0⟩, ⟨32, 16, .ro, 0⟩, ⟨8, 8, .ro, 0⟩, ⟨0, 8, .ro, 0⟩]⟩,
   ⟨.ERR_LOG_ADDR, 0x8008, [(0x20, 512)], [⟨63, 1, .ro, 0⟩, ⟨62, 1, .ro, 0⟩, ⟨54, 8, .ro, 0⟩, ⟨0, 48, .ro, 0⟩]⟩,
   ⟨.ERR_LOG_FRAME, 0x8010, [(0x20, 512)], [⟨0, 64, .ro, 0xffffffffffffffff⟩]⟩,
   ⟨.ERR_LOG_INFO, 0x8018, [(0x20, 512)], [⟨24, 16, .ro, 0⟩, ⟨0, 24, .ro, 0⟩]⟩]

/-- The templates of block ERR. -/
def regTableERR : List RegSpec := regTableERR0

/-! ### CRN (R447) -/

/-- capture state. -/
abbrev R.CRN_STATUS : Nat := 0xa0000
abbrev L.CRN_STATUS.BUSY : Loc := ⟨R.CRN_STATUS, 8, 1⟩
abbrev L.CRN_STATUS.FULL : Loc := ⟨R.CRN_STATUS, 0, 4⟩

/-- trigger settings. -/
abbrev R.CRN_TRIG_CFG : Nat := 0xa0008
abbrev L.CRN_TRIG_CFG.ERR_MASK : Loc := ⟨R.CRN_TRIG_CFG, 32, 32⟩
abbrev L.CRN_TRIG_CFG.TRIG_PROFILE : Loc := ⟨R.CRN_TRIG_CFG, 8, 8⟩
abbrev L.CRN_TRIG_CFG.LS_EN : Loc := ⟨R.CRN_TRIG_CFG, 0, 1⟩

/-- GO in [63] WO starts a SOFTWARE capture; PROFILE in [7:0] WO, with bits 7 to 4 reserved under … -/
abbrev R.CRN_CAPTURE : Nat := 0xa0010
abbrev L.CRN_CAPTURE.GO : Loc := ⟨R.CRN_CAPTURE, 63, 1⟩
abbrev L.CRN_CAPTURE.PROFILE : Loc := ⟨R.CRN_CAPTURE, 0, 8⟩

/-- CAPTURES in [31:0] and MISSED in [63:32], RO, reset 0, saturating. -/
abbrev R.CRN_CNT : Nat := 0xa0018
abbrev L.CRN_CNT.MISSED : Loc := ⟨R.CRN_CNT, 32, 32⟩
abbrev L.CRN_CNT.CAPTURES : Loc := ⟨R.CRN_CNT, 0, 32⟩

/-- CAPTURED in [0], MISSED in [1] and TRACE_FULL in [2], each W1C with reset 0b0; other bits keep 0 … -/
abbrev R.CRN_EVT : Nat := 0xa0020
abbrev L.CRN_EVT.TRACE_FULL : Loc := ⟨R.CRN_EVT, 2, 1⟩
abbrev L.CRN_EVT.MISSED : Loc := ⟨R.CRN_EVT, 1, 1⟩
abbrev L.CRN_EVT.CAPTURED : Loc := ⟨R.CRN_EVT, 0, 1⟩

/-- EN in [2:0] RW, reset 0x7; bit n enables CRN_EVT bit n towards the management cores and the … -/
abbrev R.CRN_EVT_EN : Nat := 0xa0028
abbrev L.CRN_EVT_EN.EN : Loc := ⟨R.CRN_EVT_EN, 0, 3⟩

/-- trace ring mode. -/
abbrev R.CRN_TRACE_CFG : Nat := 0xa0030
abbrev L.CRN_TRACE_CFG.FROZEN : Loc := ⟨R.CRN_TRACE_CFG, 1, 1⟩
abbrev L.CRN_TRACE_CFG.STOP : Loc := ⟨R.CRN_TRACE_CFG, 0, 1⟩

/-- trace indices. -/
abbrev R.CRN_TRACE_IDX : Nat := 0xa0038
abbrev L.CRN_TRACE_IDX.DROPPED : Loc := ⟨R.CRN_TRACE_IDX, 48, 16⟩
abbrev L.CRN_TRACE_IDX.CONS : Loc := ⟨R.CRN_TRACE_IDX, 16, 16⟩
abbrev L.CRN_TRACE_IDX.PROD : Loc := ⟨R.CRN_TRACE_IDX, 0, 16⟩

/-- PAGE in [7:0] RW, reset 0x00; pages 0 to 135, and other values store 135. Other bits keep 0 and … -/
abbrev R.CRN_WIN_SEL : Nat := 0xa0040
abbrev L.CRN_WIN_SEL.PAGE : Loc := ⟨R.CRN_WIN_SEL, 0, 8⟩

/-- word w of the selected page, for w = 0 to 4,095; RO, reset 0. -/
abbrev R.CRN_WIN (n : Nat) : Nat := 0xa8000 + 0x8 * n
abbrev L.CRN_WIN.WORD (n : Nat) : Loc := ⟨R.CRN_WIN n, 0, 64⟩

def regTableCRN0 : List RegSpec :=
  [⟨.CRN_STATUS, 0x0, [], [⟨8, 1, .ro, 0⟩, ⟨0, 4, .w1c, 0⟩]⟩,
   ⟨.CRN_TRIG_CFG, 0x8, [], [⟨32, 32, .rw, 0⟩, ⟨8, 8, .rw, 7⟩, ⟨0, 1, .rw, 0⟩]⟩,
   ⟨.CRN_CAPTURE, 0x10, [], [⟨63, 1, .wo, 0⟩, ⟨0, 8, .wo, 0⟩]⟩,
   ⟨.CRN_CNT, 0x18, [], [⟨32, 32, .ro, 0⟩, ⟨0, 32, .ro, 0⟩]⟩,
   ⟨.CRN_EVT, 0x20, [], [⟨2, 1, .w1c, 0⟩, ⟨1, 1, .w1c, 0⟩, ⟨0, 1, .w1c, 0⟩]⟩,
   ⟨.CRN_EVT_EN, 0x28, [], [⟨0, 3, .rw, 7⟩]⟩,
   ⟨.CRN_TRACE_CFG, 0x30, [], [⟨1, 1, .rw, 0⟩, ⟨0, 1, .rw, 0⟩]⟩,
   ⟨.CRN_TRACE_IDX, 0x38, [], [⟨48, 16, .ro, 0⟩, ⟨16, 16, .rw, 0⟩, ⟨0, 16, .ro, 0⟩]⟩,
   ⟨.CRN_WIN_SEL, 0x40, [], [⟨0, 8, .rw, 0⟩]⟩,
   ⟨.CRN_WIN, 0x8000, [(0x8, 4096)], [⟨0, 64, .ro, 0⟩]⟩]

/-- The templates of block CRN. -/
def regTableCRN : List RegSpec := regTableCRN0

/-! ### PMC (R448) -/

/-- FREEZE in [0] RW, reset 0b0, Sealed writes only; 1 stops every counter. Other bits keep 0 and … -/
abbrev R.PMC_CTL : Nat := 0xb0000
abbrev L.PMC_CTL.FREEZE : Loc := ⟨R.PMC_CTL, 0, 1⟩

/-- OVF in [15:0] W1C, reset 0x0000; bit i is counter i. Bits of the other world's counters read 0, … -/
abbrev R.PMC_OVF : Nat := 0xb0008
abbrev L.PMC_OVF.OVF : Loc := ⟨R.PMC_OVF, 0, 16⟩

/-- selection of counter i, for i = 0 to 15. -/
abbrev R.PMC_SEL (n : Nat) : Nat := 0xb0100 + 0x20 * n
abbrev L.PMC_SEL.EN (n : Nat) : Loc := ⟨R.PMC_SEL n, 63, 1⟩
abbrev L.PMC_SEL.FRAME (n : Nat) : Loc := ⟨R.PMC_SEL n, 62, 1⟩
abbrev L.PMC_SEL.WORLD (n : Nat) : Loc := ⟨R.PMC_SEL n, 61, 1⟩
abbrev L.PMC_SEL.ALLW (n : Nat) : Loc := ⟨R.PMC_SEL n, 60, 1⟩
abbrev L.PMC_SEL.VI_VALID (n : Nat) : Loc := ⟨R.PMC_SEL n, 59, 1⟩
abbrev L.PMC_SEL.VI (n : Nat) : Loc := ⟨R.PMC_SEL n, 51, 8⟩
abbrev L.PMC_SEL.UNIT (n : Nat) : Loc := ⟨R.PMC_SEL n, 32, 8⟩
abbrev L.PMC_SEL.INST (n : Nat) : Loc := ⟨R.PMC_SEL n, 16, 7⟩
abbrev L.PMC_SEL.EVENT (n : Nat) : Loc := ⟨R.PMC_SEL n, 0, 8⟩

/-- VALUE in [47:0] RW, reset 0; the count, wrapping under R443. -/
abbrev R.PMC_CNT (n : Nat) : Nat := 0xb0108 + 0x20 * n
abbrev L.PMC_CNT.VALUE (n : Nat) : Loc := ⟨R.PMC_CNT n, 0, 48⟩

/-- VALUE in [47:0] RO, reset 0; the last frame's count. -/
abbrev R.PMC_FRAME_VAL (n : Nat) : Nat := 0xb0110 + 0x20 * n
abbrev L.PMC_FRAME_VAL.VALUE (n : Nat) : Loc := ⟨R.PMC_FRAME_VAL n, 0, 48⟩

/-- FRAME in [63:0] RO, reset all ones; the frame of PMC_FRAME_VAL. -/
abbrev R.PMC_FRAME_NUM (n : Nat) : Nat := 0xb0118 + 0x20 * n
abbrev L.PMC_FRAME_NUM.FRAME (n : Nat) : Loc := ⟨R.PMC_FRAME_NUM n, 0, 64⟩

/-- mirror of PMC_CNT in the user page of a world (R445); user page 0 Sealed, 1 Open -/
abbrev R.PMC_UCNT (m n : Nat) : Nat := 0xb1000 + 0x1000 * m + 0x8 * n
abbrev L.PMC_UCNT.VALUE (m n : Nat) : Loc := ⟨R.PMC_UCNT m n, 0, 48⟩

/-- mirror of PMC_FRAME_VAL in the user page of a world (R445) -/
abbrev R.PMC_UFRM (m n : Nat) : Nat := 0xb1080 + 0x1000 * m + 0x8 * n
abbrev L.PMC_UFRM.VALUE (m n : Nat) : Loc := ⟨R.PMC_UFRM m n, 0, 48⟩

def regTablePMC0 : List RegSpec :=
  [⟨.PMC_CTL, 0x0, [], [⟨0, 1, .rw, 0⟩]⟩,
   ⟨.PMC_OVF, 0x8, [], [⟨0, 16, .w1c, 0⟩]⟩,
   ⟨.PMC_SEL, 0x100, [(0x20, 16)], [⟨63, 1, .rw, 0⟩, ⟨62, 1, .rw, 0⟩, ⟨61, 1, .rw, 1⟩, ⟨60, 1, .rw, 0⟩, ⟨59, 1, .rw, 0⟩, ⟨51, 8, .rw, 0⟩, ⟨32, 8, .rw, 0⟩, ⟨16, 7, .rw, 0⟩, ⟨0, 8, .rw, 0⟩]⟩,
   ⟨.PMC_CNT, 0x108, [(0x20, 16)], [⟨0, 48, .rw, 0⟩]⟩,
   ⟨.PMC_FRAME_VAL, 0x110, [(0x20, 16)], [⟨0, 48, .ro, 0⟩]⟩,
   ⟨.PMC_FRAME_NUM, 0x118, [(0x20, 16)], [⟨0, 64, .ro, 0xffffffffffffffff⟩]⟩,
   ⟨.PMC_UCNT, 0x1000, [(0x1000, 2), (0x8, 16)], [⟨0, 48, .ro, 0⟩]⟩,
   ⟨.PMC_UFRM, 0x1080, [(0x1000, 2), (0x8, 16)], [⟨0, 48, .ro, 0⟩]⟩]

/-- The templates of block PMC. -/
def regTablePMC : List RegSpec := regTablePMC0

/-- The templates of a block. -/
def blockRegs : Block → List RegSpec
  | .bTB => regTableTB
  | .bCSQ => regTableCSQ
  | .bCSR => regTableCSR
  | .bWLDD => regTableWLDD
  | .bHA => regTableHA
  | .bDL => regTableDL
  | .bNOC => regTableNOC
  | .bNODE => regTableNODE
  | .bMC => regTableMC
  | .bXE => regTableXE
  | .bQE => regTableQE
  | .bVI => regTableVI
  | .bVIT => regTableVIT
  | .bFAB => regTableFAB
  | .bFABP => regTableFABP
  | .bWLDH => regTableWLDH
  | .bKS => regTableKS
  | .bCE => regTableCE
  | .bCECTX => regTableCECTX
  | .bPCI => regTablePCI
  | .bETH => regTableETH
  | .bMGT => regTableMGT
  | .bPWR => regTablePWR
  | .bCLK => regTableCLK
  | .bERR => regTableERR
  | .bCRN => regTableCRN
  | .bPMC => regTablePMC

end Sys2Proof.Machine
end

