-- ==== Sys2Proof/Machine/ResetValues.lean ====
section
/-! DEFINITION. The reset value of every register (R13), and the register a key names. -/

namespace Sys2Proof.Machine

/-- The block and its instance that own slot `t` of register space (Table 19.2). The 4 KiB pages of CE contexts and
of VI tenants count one instance each. -/
def slotBlock (t : Nat) : Option (Block × Nat) :=
  if t = 0 then some (.bTB, 0) else if t = 1 then some (.bNOC, 0) else if t = 2 then some (.bKS, 0)
  else if t = 3 then some (.bWLDH, 0) else if t = 4 then some (.bFAB, 0) else if t = 5 then some (.bETH, 0)
  else if t = 6 then some (.bMGT, 0) else if t = 7 then some (.bPWR, 0) else if t = 8 then some (.bCLK, 0)
  else if t = 9 then some (.bERR, 0) else if t = 0xA then some (.bCRN, 0) else if t = 0xB then some (.bPMC, 0)
  else if t < 0xE then (if 0xC ≤ t then some (.bPCI, t - 0xC) else none)
  else if t < 0x20 then none
  else if t < 0x28 then some (.bFABP, t - 0x20)
  else if t < 0x30 then none
  else if t < 0x34 then some (.bCE, t - 0x30)
  else if t < 0x38 then some (.bCECTX, 16 * (t - 0x34))
  else if t < 0x40 then none
  else if t < 0x48 then some (.bQE, t - 0x40)
  else if t < 0x50 then some (.bVI, t - 0x48)
  else if t < 0x60 then some (.bVIT, 16 * (t - 0x50))
  else if t < 0x80 then none
  else if t < 0xA0 then some (.bCSQ, t - 0x80)
  else if t < 0xC0 then some (.bHA, t - 0xA0)
  else if t < 0x100 then none
  else if t < 0x140 then some (.bMC, t - 0x100)
  else if t < 0x180 then some (.bXE, t - 0x140)
  else if t < 0x1B0 then some (.bDL, t - 0x180)
  else if t < 0x1C0 then none
  else if t < 0x1CC then some (.bWLDD, t - 0x1C0)
  else if t < 0x200 then none
  else if t < 0x264 then some (.bNODE, t - 0x200)
  else none

/-- The block, its instance and the offset in the instance, of a register space offset. -/
def keyBlock (k : Nat) : Option (Block × Nat × Nat) :=
  match slotBlock (k / 0x10000) with
  | none => none
  | some (b, i) =>
    match b with
    | .bCECTX | .bVIT => some (b, i + k % 0x10000 / 0x1000, k % 0x1000)
    | _ => some (b, i, k % 0x10000)

/-- The indices of an offset in the strides of a family, if it is one of its registers. -/
def strideIndex : List (Nat × Nat) → Nat → Option (List Nat)
  | [], d => if d = 0 then some [] else none
  | (st, c) :: t, d =>
    if d / st < c then (strideIndex t (d % st)).map (fun l => d / st :: l) else none

/-- A register instance: template, block instance and family indices. -/
structure RegInst where
  spec : RegSpec
  inst : Nat
  idx : List Nat
  deriving DecidableEq, Repr

/-- The template among `ts` that holds offset `o`. -/
def findTemplate (i o : Nat) : List RegSpec → Option RegInst
  | [] => none
  | t :: ts =>
    if t.off ≤ o then
      match strideIndex t.strides (o - t.off) with
      | some l => some ⟨t, i, l⟩
      | none => findTemplate i o ts
    else findTemplate i o ts

/-- The register at a key of register space, or of the custom CSRs of a hart. -/
def findReg (k : Nat) : Option RegInst :=
  if 0x1000000000 ≤ k then
    findTemplate (k % 0x1000000000 / 0x1000) (k % 0x1000) (blockRegs .bCSR)
  else
    match keyBlock k with
    | none => none
    | some (b, i, o) => findTemplate i o (blockRegs b)

/-- The Reset column of a template. -/
def specReset : List FieldSpec → Nat
  | [] => 0
  | f :: t => ((f.reset % 2 ^ f.width) <<< f.lo) + specReset t

/-- The default route from a node to another (R213): hops east or west, then north or south; its length and its hop
codes. -/
def defaultRoute (src dst : Nat) : Nat × Nat :=
  let dx := dst % 10 - src % 10 + (src % 10 - dst % 10)
  let dy := dst / 10 - src / 10 + (src / 10 - dst / 10)
  let h := if src % 10 ≤ dst % 10 then 0 else 2
  let v := if src / 10 ≤ dst / 10 then 1 else 3
  (dx + dy, (4 ^ dx - 1) / 3 * h + (4 ^ dy - 1) / 3 * v * 4 ^ dx)

/-- The frequency of a clock domain in MHz (Table 16.8); for the SerDes domains, whose rates vary by port, 0. -/
def clkReset (n : Nat) : Nat :=
  if n < 12 then 2600 else if n = 12 then 1000 else if n = 13 then 2400 else if n < 18 then 1600 else if n = 21 then 500 else 0

/-- The fields of type HW that the instance number or a table of the manual gives (R13); the rest read 0 until
start-up loads them. -/
def hwReset (r : Reg) (i : Nat) (idx : List Nat) : Nat :=
  match r with
  | .CSQ_OWN | .HA_ID | .NOC_NODE_ID | .MC_ID | .QE_ID | .CE_ID => i
  | .DL_ID => ((i / 4) <<< 6) + i
  | .VI_T_INFO => i <<< 24
  | .NOC_NI_RT =>
    let p := defaultRoute i (idx.getD 1 0)
    (p.1 <<< 40) + p.2
  | .PWR_DOM =>
    let n := idx.getD 0 0
    (if 24 ≤ n ∧ n ≤ 28 then 256 else 0) + (if n = 24 then 1 else 0)
  | .CLK_DOM => (clkReset (idx.getD 0 0)) <<< 32
  | .PWR_RST_CAUSE => 1
  | _ => 0

/-- The value of the register at key `k` after reset. -/
def regReset (k : Nat) : Word :=
  match findReg (k % 0x10000000000) with
  | none => 0
  | some r => BitVec.ofNat 64 (specReset r.spec.fields + hwReset r.spec.reg r.inst r.idx)

end Sys2Proof.Machine
end

