-- ==== Sys2Proof/Machine/SMap.lean ====
section
/-! DEFINITION. Sparse maps: a list of keys and values with one canonical form (keys strictly rising, no value equal
to what an unlisted key reads as), so that equal maps are equal data. -/

namespace Sys2Proof.Machine

/-- A sparse map from numbers, as plain data. -/
abbrev SMap (α : Type) := List (Nat × α)

/-- The value at key `k`; an unlisted key reads as `d k`. -/
def SMap.look {α : Type} (d : Nat → α) : SMap α → Nat → α
  | [], k => d k
  | (a, v) :: t, k => if k = a then v else SMap.look d t k

/-- The map without key `k`. -/
def SMap.drop {α : Type} (m : SMap α) (k : Nat) : SMap α :=
  match m with
  | [] => []
  | (a, v) :: t => if a = k then SMap.drop t k else (a, v) :: SMap.drop t k

/-- The pair put before the first larger key. -/
def SMap.place {α : Type} (k : Nat) (v : α) : SMap α → SMap α
  | [] => [(k, v)]
  | (a, u) :: t => if k < a then (k, v) :: (a, u) :: t else (a, u) :: SMap.place k v t

/-- The map with `v` at key `k`; writing what an unlisted key reads as removes the entry. -/
def SMap.store {α : Type} [DecidableEq α] (d : Nat → α) (m : SMap α) (k : Nat) (v : α) : SMap α :=
  if v = d k then SMap.drop m k else SMap.place k v (SMap.drop m k)

/-- The keys rise strictly. -/
def SMap.rising {α : Type} : SMap α → Bool
  | [] => true
  | [_] => true
  | (a, _) :: (b, v) :: t => decide (a < b) && SMap.rising ((b, v) :: t)

/-- The canonical form: keys strictly rising, no entry equal to what an unlisted key reads as. -/
def SMap.wf {α : Type} [DecidableEq α] (d : Nat → α) (m : SMap α) : Bool :=
  SMap.rising m && m.all (fun p => decide (p.2 ≠ d p.1))

/-- The value at key `k` of a map whose unlisted keys read as the default value. -/
def SMap.get {α : Type} [Inhabited α] (m : SMap α) (k : Nat) : α := SMap.look (fun _ => default) m k

/-- The map with `v` at key `k`, unlisted keys reading as the default value. -/
def SMap.set {α : Type} [Inhabited α] [DecidableEq α] (m : SMap α) (k : Nat) (v : α) : SMap α :=
  SMap.store (fun _ => default) m k v

end Sys2Proof.Machine
end

