-- ==== Sys2Proof/Machine/State.lean ====
section
/-! DEFINITION. The state of the block as plain data: every register of the specification in one sparse map, memory,
and the state the chapters name beside their registers. -/

namespace Sys2Proof.Machine

/-- Faults that stop the block. The specification gives the block no condition that stops it without an effect of
its own (a fatal stop, R433, is a state it names), so no meaning raises one. -/
inductive Fault where
  /-- Raised by nobody: kept so that the type is not empty. Safe. -/
  | never
  deriving DecidableEq, Repr

/-- Refusals of the model. -/
inductive Refusal where
  /-- A command the model gives no meaning yet, by mnemonic; raised by Dispatch only. Safe: the run stops. -/
  | notModelled (mnemonic : String)
  deriving DecidableEq, Repr

/-- How the last access was answered (R428): nothing yet, done, done with data, or an error response. -/
inductive Resp where
  | none | ok | data (v : Word) | error
  /-- The access raises an exception in its hart: illegal instruction or virtual instruction (R128, R142). -/
  | illegal | virtualInstr | accessFault | misaligned
  /-- Done with data of more than eight bytes. -/
  | bytes (d : List Nat)
  deriving DecidableEq, Repr, Inhabited

/-- An output ball (16). -/
inductive Ball where
  | tickOut | ppsOut | faultN | resetOutN
  deriving DecidableEq, Repr, Inhabited

/-- An Axolotl action under way (R198, R199, R201): spares for logical lanes, each with its direction (true for hub transmit),
lane and spare; a narrowing to a half; or the link going DOWN. -/
inductive DlAction where
  | none
  | spare (fixes : List (Bool × Nat × Nat))
  | narrow (upper : Bool)
  | down
  deriving DecidableEq, Repr, Inhabited

/-- What the block sends out or to a part of itself that answers by a later command, in order. -/
inductive Out where
  /-- A pulse on a ball: the counter value it marks, its width in ns and its advance in ps (R47). -/
  | pulse (ball : Ball) (at_ width advance : Nat)
  /-- A ball that pulses falls before its pulse ends, at a counter value: it drives only while TICKING is 1 (R47). -/
  | cut (ball : Ball) (at_ : Nat)
  /-- A time message on a fabric port (R59). -/
  | time (port : Nat) (m : TimeMsg)
  /-- A coherence message to an agent, or to home h as 0x100 + h (R167). -/
  | coh (k : CohKind) (dst : Nat) (m : CohMsg)
  /-- The copy of a snoop multicast for a die, through the die link that carries the line's slice; MCAST is set (R212). -/
  | snoop (k : CohKind) (die link : Nat) (m : CohMsg)
  /-- A read that a home hands its controller, with the number that its data comes back under (R230, R172). -/
  | mcRead (mc : Nat) (cls : Nat) (line id : Nat)
  /-- A message a link took, on its way to the mesh. -/
  | cdpMsg (link : Nat) (m : CdpMsg)
  /-- A flit the hub sends on a link (Table 8.2). -/
  | cdpFlit (link wire : Nat)
  /-- A time word on a timing lane: counter in ns and fraction (R192). -/
  | timeWord (link ns frac : Nat)
  /-- A launch word on a timing lane, with word 1 of its descriptor (R192). -/
  | launchWord (link word : Nat)
  /-- The hub's part of a parameter exchange (Table 8.6, R193); `force` has both ends train again from step 2 first (R195). -/
  | dlOffer (link : Nat) (force : Bool) (p : HubParams)
  /-- A sideband message that names an Axolotl action: lanes and spares, or the half, and the switch flit (R198, R199). -/
  | axolotl (link : Nat) (action : DlAction) (flit : Nat)
  /-- A packet that its network interface passes to an endpoint port (R211). -/
  | mesh (p : MeshPkt) (vc : Nat)
  /-- A PKT flit on a fabric port: its SEQ and channel, the packet that ends in it, ACK_SEQ if meaningful, and the credits
  returned for FV1 to FV4 (R286). -/
  | fabFlit (port seq fvc : Nat) (p : Option FabPkt) (ack : Option Nat) (credit : List Nat)
  /-- An IDLE flit on a fabric port: the next SEQ, ACK_SEQ if meaningful, and the credits returned (R286). -/
  | fabIdle (port seq : Nat) (ack : Option Nat) (credit : List Nat)
  /-- An LNAK on a fabric port, with its code and SEQ (R288, R289). -/
  | fabLnak (port code seq : Nat)
  /-- A TRAIN flit (R290). -/
  | fabTrain (port : Nat) (t : FabTrain)
  /-- A BEACON flit (R292). -/
  | fabBeacon (port : Nat) (b : FabBeacon)
  /-- A completion of a PCIe controller: 0 success, 1 unsupported, 2 retry status, 4 abort; and its data. -/
  | pciCpl (ctrl status : Nat) (data : List Nat)
  /-- A PCIe request of a function: its controller, port and function, address, tag if non-posted, and write bytes or
  length read. -/
  | pciReq (ctrl port fn addr : Nat) (tag : Option Nat) (data : List Nat ⊕ Nat)
  /-- An AER error message (root role) or an error message upstream (R381). -/
  | pciError (ctrl : Nat)
  /-- A frame leaves an Ethernet lane, of a class. -/
  | ethFrame (lane cls : Nat) (frame : List Nat)
  /-- A management frame to the Newt cores, or to the PHY. -/
  | mgtFrame (toCores : Bool) (frame : List Nat)
  deriving DecidableEq, Repr, Inhabited

/-! ### Time base (02) -/

/-- A candidate for Summit and its rank (R55). -/
structure Cand where
  notRunning : Nat
  prio : Nat
  serial : Nat
  id : Nat
  annSeq : Nat
  deriving DecidableEq, Repr, Inhabited

/-- What a port heard in the last announcement of its partner (Table 2.4). -/
structure Heard where
  serial : Nat
  annSeq : Nat
  hops : Nat
  tscale : Nat
  period : Nat
  origin : Nat
  base : Nat
  /-- The switch record it carries (R45). -/
  swValid : Bool
  swPeriod : Nat
  swFrame : Nat
  /-- When the candidate's sequence number last advanced on this port. -/
  freshAt : Nat
  deriving DecidableEq, Repr, Inhabited

/-- The time exchange of one fabric port (R59, R60). -/
structure TbPort where
  sent : Nat
  echoTx : Nat
  echoRx : Nat
  lastRx : Nat
  heardAny : Bool
  offset : Int
  heard : Option Heard
  deriving DecidableEq, Repr, Inhabited

/-- The Summit's frame grid and armed switch, as announcements carry them (Table 2.4). -/
structure SumGrid where
  period : Nat
  origin : Nat
  base : Nat
  swValid : Bool
  swPeriod : Nat
  swFrame : Nat
  deriving DecidableEq, Repr, Inhabited

/-- The time base: counter, servo, election and time exchange (R37 to R62). -/
structure TimeBase where
  /-- The 64-bit count of nanoseconds (R37). -/
  ns : Nat
  /-- The 42-bit fraction (R37). -/
  frac : Nat
  /-- The lowest count that the current cycle reached: comparisons with lower values have fired (R39). -/
  reached : Nat
  /-- The grid instant handled last, so that one instant is one tick. -/
  lastTick : Option Nat
  /-- The multiple of 10⁹ ns handled last (R47). -/
  lastPps : Option Nat
  /-- The counts at which the pulses under way on TICK_OUT and PPS_OUT end (R47). -/
  tickEnd : Nat
  ppsEnd : Nat
  /-- The elapsed ns in which the servo last left LOCK with SYNC_OK at 1 (R54). -/
  syncFell : Option Nat
  /-- The last tick was the tick of a period switch (R44). -/
  switchTick : Bool
  /-- A re-step is requested (R53). -/
  restepReq : Bool
  /-- The best candidate known (R56); `bestSelf`: it is this device. -/
  best : Option Cand
  bestSelf : Bool
  /-- Since when the best candidate has stayed unchanged (R56). -/
  bestSince : Nat
  /-- When the best candidate's sequence number last advanced (R57). -/
  bestFresh : Nat
  settled : Bool
  /-- Last announcement sequence number seen of a candidate, plus 1, by serial (R56). -/
  seen : SMap Nat
  /-- Sequence number at which a candidate was struck, plus 1, by serial (R57). -/
  struck : SMap Nat
  /-- Timescale identifier (R58). -/
  tscale : Nat
  /-- The device's own announcement sequence number (R57). -/
  annSeq : Nat
  /-- The counter has been stepped in this ACQUIRE (R38). -/
  stepped : Bool
  rateUpd : Nat
  lockCnt : Nat
  holdCnt : Nat
  acqStart : Nat
  /-- Consecutive source updates within, and missed or out of, the trace threshold (R48). -/
  goodUpd : Nat
  badUpd : Nat
  lastUpd : Nat
  missedUpd : Nat
  ports : SMap TbPort
  /-- The Summit's grid as the parent relayed it last (R46, R59). -/
  sumGrid : Option SumGrid
  /-- The switch that came into force last: its period and the frame it opened (R45). -/
  swDone : Option (Nat × Nat)
  /-- SERIAL of the Summit that the election settled on last (R65). -/
  summitSerial : Option Nat
  deriving DecidableEq, Repr, Inhabited

/-! ### Sequencers and launches (03, 04) -/

/-- What a launch slot records beside its bits in CSQ_TRACK (R84). -/
structure Slot where
  seq : Nat
  target : Nat
  status : Nat
  time : Nat
  offset : Nat
  /-- Ticks between launch and completion, saturated at 255. -/
  frames : Nat
  /-- Ticks passed since the completion. -/
  after : Nat
  deriving DecidableEq, Repr, Inhabited

/-- The wait a sequencer in WAIT is inside (R75, R81 to R89). -/
inductive Wait where
  | none
  | waitt (v : Nat)
  | waite (mask d rd : Nat) (clear : Bool)
  | chk (h d rd : Nat)
  | sync (mask d : Nat)
  | fence (done : Nat)
  deriving DecidableEq, Repr, Inhabited

/-- The state of a sequencer beside its registers (R66). -/
structure Csq where
  /-- When its next instruction begins, in elapsed ns (R74). -/
  readyAt : Nat
  wait : Wait
  /-- SKIP under way: when it executes the YIELD, and the address of the CHK (R96). -/
  skip : Option (Nat × Nat)
  /-- The sequence number of its next launch (Table 3.6). -/
  seqNext : Nat
  deriving DecidableEq, Repr, Inhabited

/-- A POST whose flags are not yet visible (R78). -/
structure PostMsg where
  src : Nat
  dst : Nat
  flags : Nat
  at_ : Nat
  deriving DecidableEq, Repr, Inhabited

/-- An accepted launch whose completion has not been recorded (R105, R106). -/
structure Launch where
  id : Nat
  target : Nat
  csq : Nat
  slot : Nat
  seq : Nat
  sealed : Bool
  vi : Option Nat
  gen : Nat
  fs : Bool
  /-- The eight descriptor words, word 1 replaced under ARG (R107). -/
  desc : List Nat
  /-- The VC0 grant was refused (R117). -/
  rsvDenied : Bool
  acceptAt : Nat
  started : Bool
  /-- Accepted, but a line that its start reads or writes must wait at its home, or an older launch of the unit does. -/
  held : Bool
  /-- The status with which its queue engine turned it away at acceptance, 0 if none (R106). -/
  judged : Nat
  /-- The status the unit reports, once its completion point is reached. -/
  status : Option Nat
  deriving DecidableEq, Repr, Inhabited

/-- The ownable resources (R30), and the channels that are assigned with their engine. -/
inductive Res where
  | pwr (n : Nat) | clk (n : Nat) | csq (n : Nat) | qe (n : Nat) | queue (n : Nat) | ch (n : Nat) | ce (n : Nat)
  | eth (n : Nat) | pci (n : Nat) | fp (n : Nat) | mg (n : Nat) | l3 (n : Nat) | ks (n : Nat) | cairn
  deriving DecidableEq, Repr, Inhabited

/-! ### Harts (05) -/

/-- What a hart does (Table 5.2): held in reset, running, in WFI or NAP, stopped by a lockstep mismatch or a fatal
stop, or stalled in a write of SKWSW. OFF follows from the die's core domain. -/
inductive HartRun where
  | held | run | wfi | nap | stopped | switching
  deriving DecidableEq, Repr, Inhabited

/-- A write-combining buffer of a core (Table 6.2, WNA): a line, the bytes stored so far, and the tags of the stores. -/
structure WcBuf where
  line : Nat
  mask : Nat
  data : List Nat
  sealed : Bool
  reserved : Bool
  deriving DecidableEq, Repr, Inhabited

/-- A hart beside its registers. -/
structure Hart where
  run : HartRun
  mode : PrivMode
  /-- A GO of SKWSW waits for the partner core since `goAt` (R320). -/
  goWait : Bool
  goAt : Nat
  /-- The TARGET of the waiting GO, 1 Sealed. -/
  goTarget : Bool
  /-- Halted by the debug module (R352). -/
  halted : Bool
  /-- Core cycles counted up to `cycAt`, in thousandths (R122). -/
  cycles : Nat
  cycAt : Nat
  /-- The count of retired instructions at which the sampling interval ends, and whether its choice has been made (R140). -/
  smpEnd : Nat
  smpDone : Bool
  /-- The write-combining buffer (R147). -/
  wc : Option WcBuf
  deriving DecidableEq, Repr, Inhabited

/-- An interrupt file (R132): pending and enabled identities as bits, delivery and threshold. -/
structure IntFile where
  pend : Nat
  en : Nat
  delivery : Nat
  threshold : Nat
  deriving DecidableEq, Repr, Inhabited

/-- A request that a die sent to a home and that ends with CMP (R172): an NC_WR of a hart, or a CMO with its operation; under
`waits` the CMO has not been sent, because an earlier NC_WR of the die on its line is still to be performed (R153). -/
structure DieReq where
  h : Nat
  line : Nat
  txn : Nat
  op : Option Nat
  sealed : Bool
  waits : Bool
  deriving DecidableEq, Repr, Inhabited

/-- A compute-die site beside its registers. -/
structure Die where
  /-- A die reset runs (R423). -/
  resetting : Bool
  /-- Bit 2c + k: core k of cluster c has failed (R123, R135). -/
  failed : Nat
  /-- The site holds a die of another make (R22). -/
  otherMake : Bool
  /-- The die has left the package: only a die reset lets it take part again (R203). -/
  left : Bool
  /-- Requests that wait for their CMP. -/
  sent : List DieReq
  /-- TXNs of the IO_RDs sent to the die whose IO_CMP has not come: it carries a unit of data (R188). -/
  reads : List Nat
  deriving DecidableEq, Repr, Inhabited

/-- A source of the APLIC: its line, and whether it is pending. -/
structure AplicSrc where
  level : Bool
  pend : Bool
  deriving DecidableEq, Repr, Inhabited

/-! ### Caches (06) -/

/-- A cache line: 0 S, 1 E, 2 M (in L1, 2 is modified and any other value clean). -/
structure CLine where
  valid : Bool
  line : Nat
  st : Nat
  data : List Nat
  /-- An uncorrectable error in its data (R237, R429). -/
  poison : Bool
  /-- Brought by a prefetch and not yet used (R148). -/
  pref : Bool
  /-- In L1D: the line is the reservation set of its hart's last LR (R121). -/
  resv : Bool
  deriving DecidableEq, Repr, Inhabited

/-- A prefetch stream (R148): trained by load PC or by page; addresses in bytes for L1D, in lines for L2. -/
structure Stream where
  key : Nat
  last : Nat
  stride : Int
  seen : Nat
  /-- Lines issued ahead of the last access. -/
  ahead : Nat
  sealed : Bool
  h : Nat
  deriving DecidableEq, Repr, Inhabited

/-! ### Coherence (07) -/

/-- The transient states of a line in its slice (Table 7.3). -/
inductive SliceSt where
  | stable | isD | ixD | sxA | miA | mkA
  deriving DecidableEq, Repr, Inhabited

/-- A line with an open transaction in its slice (R166, R169): its eviction buffer, the tag of its WB and the accesses
that wait. -/
structure SliceTxn where
  st : SliceSt
  tag : Nat
  data : List Nat
  poison : Bool
  waiting : List Access
  deriving DecidableEq, Repr, Inhabited

/-- An open transaction of a home (R173). -/
structure HomeTxn where
  line : Nat
  /-- A back-invalidation (R179). -/
  back : Bool
  kind : CohKind
  req : CohMsg
  /-- Snoops sent and snoops unanswered, by die, the kind sent and when. -/
  asked : Nat
  snoops : Nat
  snoopKind : CohKind
  sentAt : Nat
  /-- Dies that answered with a kept copy. -/
  kept : Nat
  reserved : Bool
  /-- The class it arrived with, by which entries are counted (R173). -/
  own : Bool
  needMem : Bool
  /-- The number of its memory read. -/
  readId : Nat
  mem : Option (List Nat × Bool × Bool)
  /-- Modified data returned by a snoop, that which waits for WQ (R168, R230), and whether memory refused it. -/
  data : Option (List Nat × Bool)
  toWrite : Option (List Nat × Bool)
  refused : Bool
  /-- Stale records: die and tag (R175). -/
  stale : List (Nat × Nat)
  held : List CohMsg
  /-- UPG granted without data. -/
  grant : Bool
  allocWait : Bool
  replied : Bool
  wantFack : Bool
  deriving DecidableEq, Repr, Inhabited

/-- What a home answered to the request of a device for a line (R163): source, line, and of a read the data. -/
structure DevAnsw where
  src : Nat
  line : Nat
  write : Bool
  err : Bool
  data : List Nat
  poison : Bool
  deriving DecidableEq, Repr, Inhabited

/-- A home agent beside its registers: open transactions, requests that wait in order of arrival, and requests that
found no entry and wait in the mesh; answers that devices have not taken, and the access of a device that the command under
way could not perform at once: a request for the home, or none where it only waits. -/
structure Home where
  txns : List HomeTxn
  waiting : List (CohKind × CohMsg)
  held : List (CohKind × CohMsg)
  dev : List DevAnsw
  ask : Option (Option CohKind × CohMsg)
  /-- The next number of a memory read, and the next transaction identifier of a back-invalidation or a device's request. -/
  seq : Nat
  deriving DecidableEq, Repr, Inhabited

/-- A way of a snoop filter (R176): state 0 taken for a reply to come, 1 S, 2 O. -/
structure SfEnt where
  valid : Bool
  line : Nat
  st : Nat
  pres : Nat
  deriving DecidableEq, Repr, Inhabited

/-! ### Die links (08) -/

/-- A message that a link is receiving: its units so far, those still to come, and whether it is being dropped (R191). -/
structure RxPart where
  units : List Nat
  need : Nat
  drop : Bool
  deriving DecidableEq, Repr, Inhabited

/-- A flit kept for replay (R187), with the messages that end in it and their slices. -/
structure TxFlit where
  seq : Nat
  wire : Nat
  ends : List (Nat × CdpMsg)
  deriving DecidableEq, Repr, Inhabited

/-- A die link beside its registers, at the hub end. -/
structure Link where
  /-- SEQ expected next, and the last that failed while its resend is awaited (R187). -/
  rxSeq : Nat
  rxFail : Option Nat
  /-- A flit was accepted since training, and something is to be acknowledged or returned (R186). -/
  rxAny : Bool
  due : Bool
  /-- The message under way, and the units of the hub's buffer: free, and to be returned, by channel (R189). -/
  rxPart : RxPart
  rxFree : List Nat
  owed : List Nat
  /-- SEQ of the hub's next flit, the replay buffer, oldest first, and the SEQ refused last. -/
  txSeq : Nat
  replay : List TxFlit
  txRefused : Option Nat
  /-- The message under way with its slice and the units still to send. -/
  txPart : Option (Nat × CdpMsg × List Nat)
  /-- Credits towards the die, by virtual channel; messages that wait, with their slices: first those sent again (R190). -/
  credit : List Nat
  resend : List (Nat × CdpMsg)
  txWait : List (Nat × CdpMsg)
  /-- What was not acknowledged when the link left ACTIVE, until a RESUME: SEQ, slice and message (R190). -/
  lost : List (Nat × Nat × CdpMsg)
  /-- Flits sent since VC3 waits (R189). -/
  starve : Nat
  /-- Went DOWN under HOLD or R199: only RETRAIN or a reset leaves it (R193). -/
  wentDown : Bool
  /-- The parameter exchange of this training was accepted; a forced retraining has run (R195). -/
  exchanged : Bool
  forced : Bool
  trainAt : Nat
  action : DlAction
  decidedAt : Nat
  /-- The lanes judged by the action, and those found failing during it: direction and lane (R201). -/
  group : List (Bool × Nat)
  waitLanes : List (Bool × Nat)
  /-- Good flits received since the decision (R198). -/
  copyGood : Nat
  /-- Start of the parity window (R197). -/
  winAt : Nat
  deriving DecidableEq, Repr, Inhabited

/-! ### Mesh (09) -/

/-- A flit in the mesh: its packet, whether it is the packet's first, and its 608 bits (R207): payload below, header above. -/
structure MeshFlit where
  pkt : Nat
  first : Bool
  bits : Nat
  deriving DecidableEq, Repr, Inhabited

/-- A packet in the mesh, its channel and the epoch of its injection. -/
structure MeshFlight where
  pkt : MeshPkt
  vc : Nat
  epoch : Nat
  deriving DecidableEq, Repr

/-- What a network interface keeps of an open request (R208): the requester and its TXN, the tags and the address. -/
structure MeshOpen where
  who : Nat
  txn : Nat
  vi : Option Nat
  gen : Nat
  pa : PAddr
  /-- OP of the request: the size of an IO access. -/
  op : Fin 4
  deriving DecidableEq, Repr

/-- An activation that a launch asks for (R116): when, on the clock and on the counter, and the tick that follows; the frame,
the entry and the length; and the launch. -/
structure GrantAsk where
  at_ : Nat
  atNs : Nat
  tick : Nat
  frame : Nat
  entry : Nat
  len : Nat
  sealed : Bool
  vi : Option Nat
  launch : Nat
  csq : Nat
  deriving DecidableEq, Repr

/-- A grant of a VC0 reservation (R116, R224): its end on the counter, whether EN was cleared meanwhile, and the bucket of
each source port in 1/80 flit with the time it was last filled. -/
structure VcGrant where
  endNs : Nat
  offEn : Bool
  buckets : List (Nat × Nat)
  deriving DecidableEq, Repr, Inhabited

/-- The mesh beside its registers. -/
structure Mesh where
  /-- Packets under way, by number, and the number of the next. -/
  flights : SMap (Option MeshFlight)
  next : Nat
  /-- Flits of each NI that no router took yet, at (2 node + plane) × 4 + VC. -/
  ni : SMap (List MeshFlit)
  /-- Input buffers, at ((2 node + plane) × 5 + port) × 4 + VC. -/
  buf : SMap (List MeshFlit)
  /-- The input port a channel of an output is taken by, plus 1, and the input port it served last. -/
  lock : SMap Nat
  served : SMap Nat
  /-- Flits that an output sent since VC3 waited; for NIs at 4000 + 2 node + plane. -/
  starve : SMap Nat
  /-- Flits that an output sends before any other, at ((2 node + plane) × 5 + output) × 4: one that bypasses the buffers
  (R216), or one to be resent (R217); each with its channel and input port. -/
  outQ : SMap (List (Nat × Nat × MeshFlit))
  /-- Packets that their NI holds (R219). -/
  held : List MeshPkt
  /-- Open requests, and the answers still due to packets that travelled on VC0 (R210): to whom, from whom,
  the TXN, and whether the answer is a FACK. -/
  openReqs : List MeshOpen
  vc0Due : List (Nat × Nat × Nat × Bool)
  /-- The switch requested: at the tick at this count, or at once (R218). -/
  await : Option (Option Nat)
  grants : SMap (Option VcGrant)
  /-- Activations not yet judged (R223). -/
  asks : List GrantAsk
  deriving DecidableEq, Repr, Inhabited

/-! ### Memory controllers (10) -/

/-- What a read of a line gives: an error response, or data that may be poisoned. -/
structure LineAns where
  err : Bool
  data : List Nat
  poison : Bool
  deriving DecidableEq, Repr, Inhabited

/-- A request held by a controller, and when it was accepted; of a read, what memory held then and the error its words held: 0
none, 1 correctable, 2 uncorrectable (R230, R237). -/
structure McEnt where
  line : Nat
  at_ : Nat
  sealed : Bool
  vi : Option Nat
  ans : LineAns
  ecc : Nat
  /-- The number of the read (R172). -/
  id : Nat
  deriving DecidableEq, Repr, Inhabited

/-- A command that a controller keeps for replay (R236): an access, an all-bank refresh, or the refresh of a bank. -/
inductive McKept where
  | access (e : McEnt) | refab | refpb (bank : Nat)
  deriving DecidableEq, Repr, Inhabited

/-- A requested change of mode that runs (R238, R239). -/
inductive McChange where
  | none | train | leaveTest | recovery
  deriving DecidableEq, Repr, Inhabited

/-- A memory controller beside its registers. -/
structure Mc where
  rt : List McEnt
  cr : List McEnt
  bk : List McEnt
  wq : List McEnt
  /-- Reads issued to the stack whose data has not returned. -/
  issued : List McEnt
  /-- Corrected lines that wait for room in WQ (R237). -/
  fixes : List Nat
  /-- Commands issued last, kept for 64 ns, with the time of issue (R236). -/
  retry : List (Nat × McKept)
  /-- The alert under way came then. -/
  alertAt : Nat
  /-- Start of the last REFpb sequence, plus 1; 0 before the first (R233). -/
  pbAt : Nat
  /-- The contents are lost: only training leaves FAILED (R229). -/
  failed : Bool
  /-- When the next temperature reading is due (R233). -/
  tempAt : Nat
  /-- Writes left of the batch of rule 2, by pseudo-channel (R231). -/
  batch : SMap Nat
  /-- Rule 5 runs: WQ held WR_HI entries and has not come down to WR_LO. -/
  draining : Bool
  /-- Opening and end of the refresh window, in elapsed ns. -/
  winAt : Nat
  winEnd : Nat
  /-- The last refresh interval boundary. -/
  refAt : Nat
  /-- The rate that the last temperature reading calls for. -/
  rateWant : Nat
  change : McChange
  changeAt : Nat
  /-- When each pseudo-channel is free again after a refresh. -/
  busy : SMap Nat
  panicAt : Nat
  /-- Time in panic up to its last fall, in ns. -/
  panicNs : Nat
  /-- Requests that reached it in RECOVERY (R229). -/
  held : List McReq
  /-- The contents were given up in TEST (R239): the number of the free values that the lines hold, and the lines written since. -/
  lost : Option Nat
  known : SMap Bool
  /-- Open rows: row plus 1 by 64 × pseudo-channel + 16 × stack ID + bank, and the time of the last hit. -/
  rows : SMap Nat
  rowHit : SMap Nat
  deriving DecidableEq, Repr, Inhabited

/-- A key load of the XE engines (R242). -/
structure XeLoad where
  sealed : Bool
  slot : Nat
  index : Nat
  clear : Bool
  at_ : Nat
  deriving DecidableEq, Repr, Inhabited

/-! ### Translation (13) -/

/-- An entry of the IOTLB (R325): world, instance with its generation, and 4 KiB page; the page it maps to and the bits
R, W, A, D of its leaf as bits 0 to 3. -/
structure TlbEnt where
  sealed : Bool
  vi : Option Nat
  gen : Nat
  page : Nat
  frame : Nat
  perm : Nat
  deriving DecidableEq, Repr, Inhabited

/-! ### Queue engines and instances (11) -/

/-- A 64-byte entry of a queue with its sideband byte's parts (R259). -/
structure QEntry where
  data : List Nat
  bytes : Nat
  sop : Bool
  eop : Bool
  deriving DecidableEq, Repr, Inhabited

/-- A packet that arrives at a queue: bytes that came and no entry holds yet, and entries made of it so far. A refused
packet's entries are ignored; under `drop` they are discarded as they arrive. -/
structure QArrival where
  src : Nat
  total : Nat
  got : Nat
  buf : List Nat
  sent : Nat
  drop : Bool
  refused : Bool
  deriving DecidableEq, Repr, Inhabited

/-- A spill queue beside its registers (R259 to R262): head, tail, the middle as first entry and count, the entries a
middle read asks for, packets that arrive, and writes that wait for the running operation. -/
structure SpillQ where
  head : List QEntry
  tail : List QEntry
  midAt : Nat
  mid : Nat
  reading : Nat
  arrivals : List QArrival
  apply : Bool
  deriving DecidableEq, Repr, Inhabited

/-- A command of a queue engine (R250, R257): of a launch, or of a channel with TAG and CINT. -/
structure QCmd where
  id : Nat
  launch : Option Nat
  ch : Nat
  tag : Nat
  cint : Bool
  /-- The number of its source: the sequencer, or 64 plus the channel. -/
  source : Nat
  issuer : Issuer
  op : Nat
  len : Nat
  npkt : Nat
  queue : Nat
  ord : Bool
  rsv : Bool
  src : Nat
  dst : Nat
  res : Nat
  started : Bool
  /-- The order of starting on its engine (R256). -/
  seq : Nat
  /-- Bytes moved, or the place reached at DST. -/
  pos : Nat
  /-- A fabric request of the command is open (R308). -/
  remote : Bool
  /-- It wrote to the remote window, whose pages are marked when it ends (R279). -/
  far : Bool
  /-- The transaction identifiers of its posted writes (R313). -/
  posted : List Nat
  /-- Lines of the piece that a POP writes, header first, which are still to be written, and the payload of the whole piece. -/
  rest : List QEntry
  load : Nat
  /-- The piece is the last one: its packet still arrives, or does not fit (R253). -/
  last : Option Bool
  fin : Bool
  status : Nat
  bytes : Nat
  pkts : Nat
  split : Bool
  dropped : Bool
  partly : Bool
  empty : Bool
  deriving DecidableEq, Repr

/-- A queue engine beside its registers: fetched and running commands in order, the number of the next, the channel
served last, and the payload bytes written. -/
structure QEng where
  cmds : List QCmd
  next : Nat
  /-- Commands started so far. -/
  starts : Nat
  lastCh : Nat
  bytes : Nat
  deriving DecidableEq, Repr, Inhabited

/-- An administration command in progress (R265): instance, command, status to be reported, and when it was accepted. -/
structure ViAdmin where
  v : Nat
  cmd : Nat
  status : Nat
  at_ : Nat
  /-- Resources that refuse new work until READY (R267). -/
  held : List Res
  deriving DecidableEq, Repr, Inhabited

/-! ### Cipher engines (14) -/

/-- A command of a cipher engine, of a launch or of a context's registers: its context n, words 1 to 7, the tags of its
accesses, and whether it carries an instance (R361). -/
structure CeCmd where
  id : Nat
  launch : Option Nat
  ctx : Nat
  urgent : Bool
  words : List Nat
  issuer : Issuer
  fromVi : Bool
  started : Bool
  /-- Suspended now, and suspended at least once. -/
  susp : Bool
  wasSusp : Bool
  /-- Bytes of the segment done. -/
  pos : Nat
  fin : Bool
  status : Nat
  detail : Nat
  tagBad : Bool
  bytes : Nat
  /-- Nanosecond of acceptance. -/
  at_ : Nat
  deriving DecidableEq, Repr

/-- A cipher engine beside its registers: its commands in order of acceptance, the number of the next, and when its
last urgent command ended. -/
structure CeEng where
  cmds : List CeCmd
  next : Nat
  urgentEnd : Nat
  /-- Payload bytes written (R443). -/
  bytes : Nat
  deriving DecidableEq, Repr, Inhabited

/-- A cipher context beside its registers: its state when no command of it is accepted (0 IDLE, 1 OPEN, 5 ERROR), its key
with its attributes, and its open message (Table 14.7). -/
structure CeCtx where
  base : Nat
  key : List Nat
  kind : Nat
  usage : Nat
  alg : Nat
  dir : Nat
  alen : Nat
  clen : Nat
  j0 : Nat
  chain : Nat
  acc : Nat
  hash : List Nat
  /-- The final block of a hash or CMAC message, held until its end. -/
  tail : List Nat
  deriving DecidableEq, Repr, Inhabited

/-! ### Device fabric (12) -/

/-- A packet that waits at a port, and its flits still to leave. -/
structure FabWait where
  pkt : FabPkt
  left : Nat
  /-- Launched sends name their port and launch (R314). -/
  launch : Option Nat
  /-- The port on which it arrived, which it does not leave by (R296). -/
  arr : Option Nat
  deriving DecidableEq, Repr, Inhabited

/-- A fabric port beside its registers. -/
structure FabPort where
  txSeq : Nat
  rxSeq : Nat
  rxFail : Option Nat
  /-- The last PKT flit accepted before the current training, if any. -/
  rxLast : Option Nat
  /-- Credits towards the partner for FV1 to FV4. -/
  credit : List Nat
  wait : List FabWait
  /-- Unacknowledged flits: SEQ, channel, and the packet that ends in each. -/
  replay : List (Nat × Nat × Option FabPkt)
  /-- Flits sent since FV3 waited. -/
  starve : Nat
  elecOk : Bool
  beaconAt : Nat
  interval : Nat
  trainSentAt : Nat
  /-- Places of the receive buffers of FV1 to FV4 that the partner may fill (Table 12.4), credits not yet returned to it, and
  whether an accepted flit is not yet acknowledged (R286, R289). -/
  room : List Nat
  owed : List Nat
  ackDue : Bool
  deriving DecidableEq, Repr, Inhabited

/-- Who made an open request (Table 12.12). -/
inductive FabUser where
  | core (h : Agent) (k : RemoteKind)
  | qe (e id : Nat)
  | launch (id : Nat)
  deriving DecidableEq, Repr

/-- An open request (R312): its packet, its user, and the port it must leave by, if one is named. -/
structure FabOpen where
  pkt : FabPkt
  user : FabUser
  port : Option Nat
  sentAt : Nat
  deriving DecidableEq, Repr

/-- The fabric device block beside its registers. -/
structure Fab where
  ports : SMap FabPort
  opens : List FabOpen
  /-- Requests that wait for one of the 1,024 places. -/
  later : List FabOpen
  nextTxn : Nat
  /-- TXN of requests that ended by timeout. -/
  timedOut : List Nat
  /-- Best record received on each port. -/
  recs : SMap (Option FabRec)
  best : Option FabRec
  /-- The epoch before the last switch, and the count at that switch (R298). -/
  prevEpoch : Option Nat
  prevAt : Nat
  /-- Packets that have come in, in the order of arrival, each with its port; 8 for those of this device to itself. -/
  inbox : List (Nat × FabPkt)
  beaconAt : Nat
  commit : Option Nat
  deriving DecidableEq, Repr, Inhabited

/-! ### External interfaces (15) -/

/-- Who made an outbound non-posted request: a core, or a launch that reads to a local address. -/
inductive PciUser where
  | core (h : Agent) | launch (id loc : Nat)
  deriving DecidableEq, Repr

/-- An open non-posted request of a PCIe controller (R375, R380). -/
structure PciReq where
  ctrl : Nat
  port : Nat
  fn : Nat
  tag : Nat
  addr : Nat
  len : Nat
  got : List Nat
  issuer : Issuer
  user : PciUser
  sent : Bool
  sentAt : Nat
  deriving DecidableEq, Repr

/-- An Ethernet lane beside its registers: BASE of the list in force, the entry in progress (none before the first BASE)
and its start, the tick of the frame whose cycle has begun, the staged lists with their BASE and launch, the end of the
frame it transmits, and the last Sync with the interval in force. -/
structure EthLane where
  base : Nat
  entry : Option Nat
  entryAt : Nat
  cycleOf : Option Nat
  staged : List (Nat × Nat × Nat)
  txEnd : Nat
  syncAt : Nat
  /-- The sync interval in force in ns, 0 for the default of 125 ms (R48, R389). -/
  syncEvery : Nat
  deriving DecidableEq, Repr, Inhabited

/-! ### Worlds and root of trust (13) -/

/-- A release under way, accepted at an instant (R328). -/
structure OwnReq where
  res : Res
  at_ : Nat
  deriving DecidableEq, Repr, Inhabited

/-- An IOMMU invalidation that has not reached READY (R326): its scope, instance and page. -/
structure InvReq where
  scope : Nat
  vi : Nat
  page : Nat
  deriving DecidableEq, Repr, Inhabited

/-- A key-store command that has not reached READY (R341): its status, or none while an ATTEST waits for the next tree
(R348) with its index, its input and the address of its output. -/
structure KsReq where
  status : Option Nat
  index : Nat
  input : List Nat
  addr2 : Nat
  deriving DecidableEq, Repr, Inhabited

/-- A persisted record of the key partition (R344); sequence number 0 is no record. -/
structure KeyRec where
  seq : Nat
  kind : Nat
  usage : Nat
  key : List Nat
  deriving DecidableEq, Repr, Inhabited

/-- What the key partition keeps (R344): owner key hash, SVN floors as KS_SVN shows them, key records (2n + r), and the
number of the newest second-level tree computed. -/
structure Nv where
  ownerHash : Option (List Nat)
  svn : Nat
  recs : SMap KeyRec
  tree : Nat
  deriving DecidableEq, Repr, Inhabited

/-- The key store and Basecamp beside their registers. -/
structure Ks where
  /-- The command of each world, Sealed at 1 (R341). -/
  reqs : SMap (Option KsReq)
  /-- SVNs of the images booted: MGMT, MONITOR, SEALED, user (R335). -/
  booted : List (Option Nat)
  /-- The verified MGMT body that waits for step 7 (R332). -/
  mgmt : List Nat
  /-- ENTRY of the verified MONITOR image, which PWR_CORE_VEC takes at step 7 (R427). -/
  entry : Nat
  /-- Bit k: Newt core k is released (R332, R418). -/
  newt : Nat
  /-- The computation of the next second-level tree runs (R348). -/
  treeBusy : Bool
  deriving DecidableEq, Repr, Inhabited

/-- Belay (R350, R351), in elapsed ns: when its stage and the time since the last pet began to count, since when
BELAY_HOLD holds the count, and whether a bad pet led to WARN. -/
structure Belay where
  since : Nat
  lastPet : Option Nat
  heldAt : Option Nat
  bad : Bool
  deriving DecidableEq, Repr, Inhabited

/-! ### Power and reset (16, 17) -/

/-- Who made a power request: a launch, the PWR_CMD of a world, or a die reset that waits in line (R404, R423). -/
inductive PwrBy where
  | launch (id : Nat) | cmd (sealed : Bool) | dieReset
  deriving DecidableEq, Repr, Inhabited

/-- A request on a power domain, and whether its action runs. -/
structure PwrReq where
  action : Nat
  by_ : PwrBy
  started : Bool
  /-- Nanosecond of arrival. -/
  at_ : Nat
  deriving DecidableEq, Repr, Inhabited

/-- How far the package is out of reset (R418, R400, R411): no supply; the start delay; soft start; waiting for REFCLK
at step 4; started; held with RESET_N low; held after a power fail or an over-voltage; tripped. -/
inductive Phase where
  | unpowered | delay | soft | waitRef | on | pin | powerFail | overVoltage | tripped
  deriving DecidableEq, Repr

/-- A die or cluster reset requested through PWR_RST_CMD that has no result yet (R421, R423). -/
inductive RstReq where
  | die (d : Nat) (phase : Nat) | cluster (d c : Nat) (started : Bool)
  deriving DecidableEq, Repr, Inhabited

/-- The power controller and the reset sequence. -/
structure Pwr where
  phase : Phase
  /-- The RESET_N ball is low. -/
  resetLow : Bool
  /-- Requests of each power domain, oldest first (R404). -/
  reqs : SMap (List PwrReq)
  rst : Option RstReq
  /-- Input power of the last millisecond in units of 10 µW, newest first (R409). -/
  samples : List Nat
  /-- The count `below` of R409. -/
  below : Nat
  /-- PWR_OK is released; THERM_N is asserted (R396, R411). -/
  pwrOk : Bool
  thermN : Bool
  /-- Nanosecond of the last write of PWR_CAP (R409). -/
  capAt : Option Nat
  deriving DecidableEq, Repr

/-- The power controller after a reset: the conversion stage regulates, and start-up waits at step 4 (R415, R418). -/
def Pwr.reset : Pwr where
  phase := .waitRef
  resetLow := false
  reqs := []
  rst := none
  samples := []
  below := 0
  pwrOk := true
  thermN := false
  capAt := none

/-! ### Errors and Cairn (18) -/

/-- A capture: what its header and records hold (Tables 18.9 to 18.11). The registers of the capture instant stand
in `regs` and the harts recorded in `harts`; the bytes of the slot are computed from them when the window is read. -/
structure Capture where
  written : Bool
  profile : Nat
  trigger : Nat
  /-- Owner of the capture, 1 Sealed. -/
  sealed : Bool
  fs : Bool
  syncOk : Bool
  frame : Nat
  time : Nat
  frac : Nat
  offset : Nat
  timeEnd : Nat
  /-- The instant in elapsed ns, for triggers of one nanosecond (R439). -/
  at_ : Nat
  regs : SMap Word
  /-- Registers and states of the harts recorded, their interrupt files and the tags of their guest files. -/
  harts : SMap Word
  hst : SMap Hart
  files : SMap IntFile
  gftag : SMap Nat
  /-- The compute-die sites at the instant. -/
  dies : SMap Die
  belay : Belay
  /-- Harts recorded between instructions (R433). -/
  incomplete : List Nat
  deriving DecidableEq, Repr, Inhabited

/-! ### The state -/

/-- What decides the effect of a write by field type (R10, R11), each by key. -/
structure FieldOps where
  /-- Bits of RWO fields written since the reset of their block. -/
  done : SMap Word
  /-- Bits that hardware has set in this cycle of the time clock. -/
  raised : SMap Word
  /-- Bits that W1S writes have set in this cycle of the time clock. -/
  asked : SMap Word
  /-- What a log recorded in this cycle, by the key of its first register: how many records, the words of the first in
  their order, and for an error log whether the log holds that one (R430, R327). -/
  fresh : SMap (List Word)
  /-- Entries that the event queue has taken in this cycle (R431). -/
  entries : Nat
  deriving DecidableEq, Repr, Inhabited

/-- The whole state of the block. -/
structure State where
  /-- Every register, by key: its offset from 0xF000_0000_0000, or the key of a hart's CSR (R452, R142). -/
  regs : SMap Word
  /-- The registers of the harts that the privileged architecture names, by `hartKey` (Table 18.11). -/
  hregs : SMap Word
  /-- Memory by physical address (Table 19.1); an unlisted byte reads 0. -/
  mem : List Host.Cell
  /-- Nanoseconds since the start of the run. -/
  up : Nat
  /-- How the last access was answered. -/
  resp : Resp
  /-- What was sent, oldest first. -/
  out : List Out
  /-- Free values used so far; the model's own field. -/
  free : Nat
  /-- The management cores have an interrupt pending (R431). -/
  newtIrq : Bool
  fieldOps : FieldOps
  tb : TimeBase
  hart : SMap Hart
  /-- Interrupt files, file f of hart h at 32h + f: 0 supervisor, 1 to 15 guest, 16 machine. -/
  files : SMap IntFile
  /-- SKGFTAG of guest file g of hart h at 16h + g. -/
  gftag : SMap Nat
  die : SMap Die
  aplic : SMap AplicSrc
  /-- Registers of the APLIC domains, by domain × 0x10000 + offset. -/
  aplicRegs : SMap Nat
  /-- Harts paused for the capture in progress (R141). -/
  paused : List Nat
  csq : SMap Csq
  /-- Launch slots, slot k of CSQn at 32n + k. -/
  slots : SMap Slot
  posts : List PostMsg
  /-- Accepted launches in order of acceptance, and the number of the next. -/
  launches : List Launch
  nextLaunch : Nat
  /-- When each unit accepted its last launch, by target code (R77). -/
  unitAccept : SMap Nat
  /-- Errors in protected memories, 1 correctable, 2 uncorrectable: sequencer memory words by register key (R98), and from
  2^60 on the entries of `eccSf`, `eccHome`, `eccTag` and `eccSlice` (R143, R176, R181). No command makes one. -/
  ecc : SMap Nat
  /-- Resources whose release is being prepared (R329). -/
  releasing : List Res
  /-- Accepted launches of each instance in this frame (R83, R271). -/
  viUsed : SMap Nat
  mc : SMap Mc
  /-- Lines of HBM stored with the pattern of poisoned data (R237), by line number. -/
  poison : SMap Bool
  /-- Keys held by the XE engines, by index (R240), and the key loads accepted, the first of them running (R242). -/
  xeKeys : SMap (List Nat)
  xeLoads : List XeLoad
  /-- Keys of the key-store slots, by slot (R339). -/
  slotKey : SMap (List Nat)
  /-- Cache lines, by die, structure, set and way, and the replacement trees, by die, structure, set (and world in L3). -/
  cache : SMap CLine
  plru : SMap Nat
  /-- Prefetch streams, stream k of prefetcher u of a die at 32 × (27 d + u) + k. -/
  streams : SMap Stream
  /-- Ways whose Piton change runs, by slice 4d + s (R158). -/
  pitonBusy : SMap Nat
  /-- Lines with an open transaction in their slice, by die and line number. -/
  slices : SMap SliceTxn
  /-- The tag of the next WB of slice 4d + s (R166), and at 64 + 4d + s the identifier of its next transaction (R167). -/
  wbTag : SMap Nat
  /-- Accesses that found no free transaction entry and wait on the ring. -/
  ring : List Access
  homes : SMap Home
  /-- Snoop filters, way w of set s of home h at (32768 h + s) × 16 + w, and their trees. -/
  sf : SMap SfEnt
  sfPlru : SMap Nat
  /-- FAULT_N is asserted (R396). -/
  faultN : Bool
  /-- Every fabric, PCIe, Ethernet and management transmitter is electrically idle after a fatal stop (R433). -/
  txIdle : Bool
  links : SMap Link
  /-- When the last time word was sent (R192). -/
  timeWordAt : Nat
  mesh : Mesh
  /-- Cached translations, newest first (R325). -/
  iotlb : List TlbEnt
  /-- Queues by number, and queue engines. -/
  queues : SMap SpillQ
  qe : SMap QEng
  /-- Payload bytes written by the commands of each instance in this frame (R271). -/
  viBytes : SMap Nat
  /-- The share word that waits for the tick (R270), and the administration command of each world and block, at 2k + w. -/
  viPend : SMap Nat
  viAdmin : SMap (Option ViAdmin)
  fab : Fab
  /-- Cipher engines and contexts. -/
  ce : SMap CeEng
  cectx : SMap CeCtx
  /-- Package resets since power-on: the engines draw their KEY_ID secret at each (R372). -/
  boots : Nat
  /-- Open PCIe requests, and the tag of the next. -/
  pciOpen : List PciReq
  pciTag : Nat
  eth : SMap EthLane
  /-- The release and the IOMMU invalidation of each world, Sealed at 1 (R328, R326). -/
  ownReq : SMap (Option OwnReq)
  invReq : SMap (Option InvReq)
  nv : Nv
  ks : Ks
  belay : Belay
  pwr : Pwr
  /-- The four capture slots (R436), and the slot being written (R439). -/
  caps : SMap Capture
  capBusy : Option Nat
  /-- The trace ring, by word (R440). -/
  trace : SMap Word
  /-- Commands waiting, first in, first out. -/
  pending : List Instr
  deriving DecidableEq, Repr

/-- The register at key `k`. -/
def State.rd (s : State) (k : Nat) : Word := SMap.look regReset s.regs k

/-- The state with `w` in the register at key `k`. -/
def State.wr (s : State) (k : Nat) (w : Word) : State := { s with regs := SMap.store regReset s.regs k w }

/-- The state after reset: every register at its reset value (R13), memory with nothing listed, nothing under way. -/
def State.reset : State where
  regs := []
  hregs := []
  mem := []
  up := 0
  resp := .none
  out := []
  free := 0
  newtIrq := false
  fieldOps := { done := [], raised := [], asked := [], fresh := [], entries := 0 }
  tb := default
  hart := []
  files := []
  gftag := []
  die := []
  aplic := []
  aplicRegs := []
  paused := []
  csq := []
  slots := []
  posts := []
  launches := []
  nextLaunch := 0
  unitAccept := []
  ecc := []
  releasing := []
  viUsed := []
  mc := []
  poison := []
  xeKeys := []
  xeLoads := []
  slotKey := []
  cache := []
  plru := []
  streams := []
  pitonBusy := []
  slices := []
  wbTag := []
  ring := []
  homes := []
  sf := []
  sfPlru := []
  faultN := false
  txIdle := false
  links := []
  timeWordAt := 0
  mesh := default
  iotlb := []
  queues := []
  qe := []
  viBytes := []
  viPend := []
  viAdmin := []
  fab := default
  ce := []
  cectx := []
  boots := 0
  pciOpen := []
  pciTag := 0
  eth := []
  ownReq := []
  invReq := []
  nv := default
  ks := default
  belay := default
  pwr := Pwr.reset
  caps := []
  capBusy := none
  trace := []
  pending := []

end Sys2Proof.Machine
end

