-- ==== Sys2Proof/Machine/Ops.lean ====
section
/-! DEFINITION. The named operations the meanings share: fields of registers, memory, frame time, error
logs, the event queue and captures. -/

namespace Sys2Proof.Machine

/-- What a command answers. -/
abbrev Result := Host.Outcome State Fault Refusal

/-! ### Fields of registers -/

/-- The value of a field. -/
def State.get (s : State) (l : Loc) : Nat := fieldOf (s.rd l.key) l.lo l.width

/-- The state with `v` in a field. -/
def State.put (s : State) (l : Loc) (v : Nat) : State := s.wr l.key (withField (s.rd l.key) l.lo l.width v)

/-- A field as a condition. -/
abbrev State.on (s : State) (l : Loc) : Prop := s.get l = 1

/-- A counter field, saturating. -/
def State.addSat (s : State) (l : Loc) (n : Nat) : State := s.put l (satAdd l.width (s.get l) n)

/-- One more in a saturating counter. -/
def State.inc (s : State) (l : Loc) : State := s.addSat l 1

/-- Bit `i` of a field set. -/
def State.setBitOf (s : State) (l : Loc) (i : Nat) : State := s.put l (setBit (s.get l) i)

/-- Bit `i` of a field cleared. -/
def State.clearBitOf (s : State) (l : Loc) (i : Nat) : State := s.put l (clearBit (s.get l) i)

/-- Hardware sets bits of a register in this cycle, as a W1C write of the same cycle finds them (R11). -/
def State.noteRaised (s : State) (k : Nat) (m : Word) : State :=
  { s with fieldOps := { s.fieldOps with raised := SMap.set s.fieldOps.raised k (SMap.get s.fieldOps.raised k ||| m) } }

/-- Hardware sets a one-bit field that software clears by writing 1. -/
def State.raise (s : State) (l : Loc) : State := (s.put l 1).noteRaised l.key (fieldMask l.lo l.width)

/-- Hardware sets bit `i` of such a field. -/
def State.raiseBit (s : State) (l : Loc) (i : Nat) : State := (s.setBitOf l i).noteRaised l.key (fieldMask (l.lo + i) 1)

/-- Hardware sets the bits of `m` in such a field. -/
def State.raiseBits (s : State) (l : Loc) (m : Nat) : State :=
  (s.put l (s.get l ||| m)).noteRaised l.key (withField 0 l.lo l.width m)

/-- A log keeps a record of this cycle: its words, if it is the first, and one more (R430, R327). -/
def State.noteFresh (s : State) (k : Nat) (ws : List Word) : State :=
  let new := match SMap.get s.fieldOps.fresh k with
    | [] => 1#64 :: ws
    | n :: old => (n + 1) :: old
  { s with fieldOps := { s.fieldOps with fresh := SMap.set s.fieldOps.fresh k new } }

/-- A W1S write sets bits of a register in this cycle (R11). -/
def State.noteAsked (s : State) (k : Nat) (m : Word) : State :=
  { s with fieldOps := { s.fieldOps with asked := SMap.set s.fieldOps.asked k (SMap.get s.fieldOps.asked k ||| m) } }

/-- A W1S write sets a one-bit field (R10, R11). -/
def State.ask (s : State) (l : Loc) : State := (s.put l 1).noteAsked l.key (fieldMask l.lo l.width)

/-- Hardware clears a one-bit W1S field; a write of the same cycle that set it stands (R11). -/
def State.dropAsk (s : State) (l : Loc) : State :=
  if SMap.get s.fieldOps.asked l.key &&& fieldMask l.lo l.width = 0 then s.put l 0 else s

/-- The operation done for each member of a list, in order. -/
def State.forAll {α : Type} (s : State) (l : List α) (f : State → α → State) : State := l.foldl f s

/-- The operation done only if the condition holds. -/
def State.when (s : State) (c : Prop) [Decidable c] (f : State → State) : State := if c then f s else s

/-! ### Registers of the harts -/

/-- Key of a register of hart `h`: x1 to x31 at 1 to 31, the PC at 0x20, f0 to f31 at 0x40, v0 to v31 at 0x100 in
eight words each, and CSR number c at 0x1000 + c. -/
abbrev hartKey (h n : Nat) : Nat := h * 0x10000 + n

/-- A register of a hart; registers of the harts hold 0 at reset. -/
def State.hreg (s : State) (h n : Nat) : Word := SMap.get s.hregs (hartKey h n)

/-- The state with a register of a hart written. -/
def State.setHreg (s : State) (h n : Nat) (v : Word) : State :=
  { s with hregs := SMap.set s.hregs (hartKey h n) v }

/-- A CSR of a hart, by number. -/
abbrev State.csr (s : State) (h c : Nat) : Nat := (s.hreg h (0x1000 + c)).toNat

/-- A CSR of a hart written. -/
def State.setCsr (s : State) (h c v : Nat) : State := s.setHreg h (0x1000 + c) (BitVec.ofNat 64 v)

/-! ### Memory -/

/-- What an address of memory that nothing has written reads as. -/
def memDefault : Nat → BitVec 8 := fun _ => 0

/-- One byte of memory. -/
def State.readByte (s : State) (a : Nat) : BitVec 8 := SMap.look memDefault s.mem a

/-- One byte of memory written. -/
def State.writeByte (s : State) (a : Nat) (b : BitVec 8) : State := { s with mem := SMap.store memDefault s.mem a b }

/-- The canonical form of memory: addresses strictly rising, no entry equal to what an unlisted address reads as. -/
def Memory.wf (m : List Host.Cell) : Bool := SMap.wf memDefault m

/-- `n` bytes of memory from `a`. -/
def State.readBytes (s : State) (a : Nat) : Nat → List (BitVec 8)
  | 0 => []
  | n + 1 => s.readByte a :: s.readBytes (a + 1) n

/-- Bytes written from `a` on. -/
def State.writeBytes (s : State) (a : Nat) : List (BitVec 8) → State
  | [] => s
  | b :: t => (s.writeByte a b).writeBytes (a + 1) t

/-- A little-endian number of `n` bytes in memory (R9). -/
def State.readLE (s : State) (a n : Nat) : Nat := ofBytesLE ((s.readBytes a n).map BitVec.toNat)

/-- A little-endian number of `n` bytes written to memory (R9). -/
def State.writeLE (s : State) (a n v : Nat) : State := s.writeBytes a ((bytesLE n v).map (BitVec.ofNat 8))

/-! ### Answers, messages, free values -/

/-- The access is answered. -/
def State.answer (s : State) (r : Resp) : State := { s with resp := r }

/-- A message or a pin change leaves. -/
def State.send (s : State) (o : Out) : State := { s with out := s.out ++ [o] }

/-- One free value is used up. -/
def State.useFree (s : State) : State := { s with free := s.free + 1 }

/-- A word's code error is gone. -/
def State.dropEcc (s : State) (k : Nat) : State := { s with ecc := SMap.drop s.ecc k }

/-! ### Time -/

/-- The 106-bit value of the counter, in 2⁻⁴² ns (R37). -/
def State.tbValue (s : State) : Nat := s.tb.ns * 2 ^ 42 + s.tb.frac

/-- What one cycle of the time clock adds: 1 ns plus TB_RATE.ADJ (R37). -/
def State.tbStep (s : State) : Nat := ((2 ^ 42 : Nat) + signedOf 32 (s.get L.TB_RATE.ADJ) : Int).toNat

/-- The counter at a 106-bit value, reached without a count between the two. -/
def State.setTbValue (s : State) (v : Nat) : State :=
  { s with tb := { s.tb with ns := v / 2 ^ 42 % 2 ^ 64, frac := v % 2 ^ 42, reached := v / 2 ^ 42 % 2 ^ 64 } }

/-- Ticks are launched. -/
abbrev State.ticking (s : State) : Prop := s.get L.TB_STATUS.TICKING = 1

abbrev State.period (s : State) : Nat := s.get L.TB_FRAME_CFG.PERIOD
abbrev State.origin (s : State) : Nat := s.get L.TB_FRAME_ORIGIN.ORIGIN
abbrev State.base (s : State) : Nat := s.get L.TB_FRAME_BASE.BASE

/-- All ones: no frame (R42). -/
abbrev noFrame : Nat := 2 ^ 64 - 1

/-- The frame number at a time of the grid (R41). -/
def State.frameAt (s : State) (t : Nat) : Nat := (s.base + (t - s.origin) / s.period) % 2 ^ 64

/-- The live frame number, all ones while TICKING is 0 (R41, R42). -/
def State.frame (s : State) : Nat := if s.ticking then s.frameAt s.tb.ns else noFrame

/-- The live frame offset, 0 while TICKING is 0 (R41, R42). -/
def State.offset (s : State) : Nat := if s.ticking then (s.tb.ns - s.origin) % s.period else 0

/-- The visible fraction of the counter, in 2⁻¹⁶ ns (R37). -/
def State.visFrac (s : State) : Nat := s.tb.frac / 2 ^ 26

/-- The counter in 2⁻¹⁶ ns, as timestamps carry it (R37). -/
def State.stamp (s : State) : Nat := s.tb.ns * 2 ^ 16 + s.visFrac

/-- An instant of the counter that the current cycle reaches: a comparison with it fires in this cycle (R39). -/
def State.reaches (s : State) (t : Nat) : Bool := decide (s.tb.reached ≤ t ∧ t ≤ s.tb.ns)

/-- The tick instant (R41) that this cycle reaches and that is not handled, or the next one. -/
def State.nextTick (s : State) : Nat :=
  if s.tb.ns < s.origin then s.origin
  else
    let g := s.origin + (s.tb.ns - s.origin) / s.period * s.period
    if s.reaches g ∧ s.tb.lastTick ≠ some g then g else g + s.period

/-! ### Event queue, events -/

/-- The place of an entry among those of its nanosecond (R431, R430): its log, records before events, and the cause. -/
def evqRank (w0 : Nat) : Nat := (w0 % 512 * 2 + bits w0 32 32) * 256 + bits w0 23 16

/-- How many of the `n` entries before `p` come after an entry of rank `r`. -/
def State.evqAfter (s : State) (r : Nat) : Nat → Nat → Nat
  | _, 0 => 0
  | p, n + 1 => if r < evqRank (s.rd (R.ERR_EVQ ((p - 1) % 512) 0)).toNat then s.evqAfter r (p - 1) n + 1 else 0

/-- The `n` entries before `p` move one place on. -/
def State.evqShift (s : State) : Nat → Nat → State
  | _, 0 => s
  | p, n + 1 =>
    let a := (p - 1) % 512
    let b := p % 512
    let s := s.wr (R.ERR_EVQ b 0) (s.rd (R.ERR_EVQ a 0))
    let s := s.wr (R.ERR_EVQ b 1) (s.rd (R.ERR_EVQ a 1))
    let s := s.wr (R.ERR_EVQ b 2) (s.rd (R.ERR_EVQ a 2))
    let s := s.wr (R.ERR_EVQ b 3) (s.rd (R.ERR_EVQ a 3))
    s.evqShift (p - 1) n

/-- One more entry was taken in this cycle; the management cores are interrupted. -/
def State.noteEntry (s : State) : State :=
  { s with newtIrq := true, fieldOps := { s.fieldOps with entries := s.fieldOps.entries + 1 } }

/-- An entry of the event queue (R431, Table 18.5), in its place among those of its nanosecond. A full queue drops it; the
management cores are interrupted. -/
def State.evqPush (s : State) (w0 w1 w2 w3 : Nat) : State :=
  let p := s.get L.ERR_EVQ_IDX.PROD
  let held := wrapSub 16 p (s.get L.ERR_EVQ_IDX.CONS)
  if held ≥ 512 then s.inc L.ERR_EVQ_IDX.DROPPED
  else
    let m := s.evqAfter (evqRank w0) (p + 2 ^ 16) (min s.fieldOps.entries held)
    let k := (p + 2 ^ 16 - m) % 512
    let s := s.evqShift (p + 2 ^ 16) m
    let s := s.wr (R.ERR_EVQ k 0) (BitVec.ofNat 64 w0)
    let s := s.wr (R.ERR_EVQ k 1) (BitVec.ofNat 64 w1)
    let s := s.wr (R.ERR_EVQ k 2) (BitVec.ofNat 64 w2)
    let s := s.wr (R.ERR_EVQ k 3) (BitVec.ofNat 64 w3)
    (s.put L.ERR_EVQ_IDX.PROD (p + 1)).noteEntry

/-- The event-queue entry of event bit `bit` of log `n` (R431). -/
def State.evqEvent (s : State) (n bit : Nat) : State :=
  s.evqPush (n + (bit <<< 24) + (1 <<< 32)) 0 s.frame s.offset

/-- An event bit is set; with its EVT_EN bit at 1 the event enters the event queue (R431). `en` is the key of the
EVT_EN register, `n` the log number of the block. -/
def State.event (s : State) (n : Nat) (l : Loc) (en : Nat) : State :=
  let s := s.raise l
  if (s.rd en).toNat.testBit l.lo then s.evqEvent n l.lo else s

/-! ### Captures (R436 to R439) -/

/-- The lowest free ordinary slot (R436). -/
def State.freeSlot (s : State) : Option Nat := firstBelow 3 (fun k => !(s.get L.CRN_STATUS.FULL).testBit k)

/-- The event of the Cairn unit at a bit of CRN_EVT. -/
def State.crnEvent (s : State) (l : Loc) : State := s.event 283 l R.CRN_EVT_EN

/-- The capture of this instant, as it stands before it is written (R437). -/
def State.captureNow (s : State) (trig profile : Nat) (sealed fs : Bool) : Capture :=
  { written := false, profile := profile, trigger := trig, sealed := sealed, fs := fs,
    syncOk := s.get L.TB_STATUS.SYNC_OK = 1, frame := s.frame, time := s.tb.ns, frac := s.visFrac,
    offset := s.offset, timeEnd := 0, at_ := s.up, regs := s.regs, harts := [],
    hst := [], files := [], gftag := [], dies := s.die, belay := s.belay, incomplete := [] }

/-- The harts that a capture with core state pauses (R141): INCLUDE is 1 and the die's core domain is not off. -/
def State.captureHarts (s : State) : List Nat :=
  (List.range 216).filter (fun h => s.get (L.SKCRNCFG.INCLUDE h) = 1 && s.get (L.PWR_DOM.STATE (2 * (h / 18))) ≠ 0)

/-- The harts pause and are recorded, for a profile with CORE (R141, R436). -/
def State.pauseHarts (s : State) (c : Capture) : State × Capture :=
  if c.profile.testBit 0 then
    ({ s with paused := s.captureHarts },
     { c with harts := s.hregs, hst := s.hart, files := s.files, gftag := s.gftag })
  else (s, c)

/-- A capture starts in slot `k`: the slot is full from the instant, BUSY is 1, the harts pause, and a profile with
TRACE_FREEZE freezes the trace ring (R436, R439, R141). -/
def State.captureInto (s : State) (k : Nat) (c : Capture) : State :=
  let r := s.pauseHarts c
  let s := { r.1 with caps := SMap.set r.1.caps k r.2, capBusy := some k }
  let s := (s.raiseBit L.CRN_STATUS.FULL k).put L.CRN_STATUS.BUSY 1
  s.when (c.profile.testBit 3) (fun s => s.put L.CRN_TRACE_CFG.FROZEN 1)

/-- A trigger that takes no capture (R439). -/
def State.captureMissed (s : State) : State := (s.inc L.CRN_CNT.MISSED).crnEvent L.CRN_EVT.MISSED

/-- An ordinary trigger (R436, R439) of the instant that `p` shows: triggers of one nanosecond make one capture; one that
finds a capture in progress or slots 0 to 2 full takes none. The second component says whether a capture was taken. -/
def State.captureOf (s p : State) (trig profile : Nat) (fs : Bool) : State × Bool :=
  match s.capBusy with
  | some k =>
    let c := SMap.get s.caps k
    if c.at_ = p.up ∧ c.written = false then
      let c := { c with trigger := c.trigger ||| trig, profile := c.profile ||| profile, fs := c.fs || fs }
      let r := s.pauseHarts c
      (({ r.1 with caps := SMap.set r.1.caps k r.2 }).when (profile.testBit 3)
        (fun s => s.put L.CRN_TRACE_CFG.FROZEN 1), true)
    else (s.captureMissed, false)
  | none =>
    match s.freeSlot with
    | none => (s.captureMissed, false)
    | some k => (s.captureInto k (p.captureNow trig profile (s.get L.WLD_OWN_UNITS.CAIRN = 1) fs), true)

/-- An ordinary trigger of this instant. -/
def State.capture (s : State) (trig profile : Nat) (fs : Bool) : State × Bool := s.captureOf s trig profile fs

/-! ### Error logs (R430) -/

/-- The tag bits of an access in ERR_LOG_ADDR. -/
def tagBits (c : Issuer) : Nat :=
  (if c.sealed then 1 <<< 63 else 0) + (match c.vi with | some v => (1 <<< 62) + ((v % 256) <<< 54) | none => 0)

/-- A log takes a record as its first: its four words (R430). -/
def State.putRecord (s : State) (n : Nat) (ws : List Word) : State :=
  (((s.wr (R.ERR_LOG_STAT n) (ws.getD 0 0)).wr (R.ERR_LOG_ADDR n) (ws.getD 1 0)).wr (R.ERR_LOG_FRAME n) (ws.getD 2 0)).wr
    (R.ERR_LOG_INFO n) (ws.getD 3 0)

/-- The records of this cycle in an error log are remembered. -/
def State.setFresh (s : State) (n : Nat) (ws : List Word) : State :=
  { s with fieldOps := { s.fieldOps with fresh := SMap.set s.fieldOps.fresh (R.ERR_LOG_STAT n) ws } }

/-- VALID of a log is cleared (R430): the records of this cycle stand, the first of them as the log's first. -/
def State.clearLog (s : State) (n : Nat) : State :=
  match SMap.get s.fieldOps.fresh (R.ERR_LOG_STAT n) with
  | [] => (s.put (L.ERR_LOG_STAT.VALID n) 0).put (L.ERR_LOG_STAT.COUNT n) 0
  | k :: ws => ((s.putRecord n ws).put (L.ERR_LOG_STAT.COUNT n) k.toNat).setFresh n (k :: ws.take 4 ++ [1])

/-- A log takes a record (R430): the first of a log whose VALID was 0 before this cycle is kept, the lowest cause first
among those of one cycle. -/
def State.takeRecord (s : State) (n cause : Nat) (ws : List Word) : State :=
  let c := s.get (L.ERR_LOG_STAT.COUNT n)
  let all := SMap.get s.fieldOps.fresh (R.ERR_LOG_STAT n)
  if s.get (L.ERR_LOG_STAT.VALID n) = 0 then
    ((s.putRecord n ws).put (L.ERR_LOG_STAT.COUNT n) c).setFresh n ((all.headD 0 + 1) :: ws ++ [1])
  else match all with
  | [] => s.setFresh n (1 :: ws ++ [0])
  | m :: old =>
    if cause < (old.getD 0 0).toNat % 256 then
      (if old.getD 4 0 = 1 then (s.putRecord n ws).put (L.ERR_LOG_STAT.COUNT n) c else s).setFresh n ((m + 1) :: ws ++ [old.getD 4 0])
    else s.setFresh n ((m + 1) :: old)

/-- A record in log `n` (R430): the first record since VALID was cleared is kept, every record counts and enters
the event queue (R431), and a CAUSE set in CRN_TRIG_CFG.ERR_MASK triggers a capture (Table 18.8). -/
def State.logRec (s : State) (n cause detail addr : Nat) (c : Issuer) (aux : Nat) : State :=
  let a := addr % 2 ^ 48 + tagBits c
  let i := s.offset % 2 ^ 24 + ((aux % 2 ^ 16) <<< 24)
  let ws : List Word := [BitVec.ofNat 64 ((1 <<< 63) + (detail % 256) <<< 8 + cause % 256), BitVec.ofNat 64 a,
    BitVec.ofNat 64 s.frame, BitVec.ofNat 64 i]
  let s := (s.takeRecord n (cause % 256) ws).inc (L.ERR_LOG_STAT.COUNT n)
  let s := s.evqPush (n + ((cause % 256) <<< 16) + ((detail % 256) <<< 24)) a s.frame i
  if (s.get L.CRN_TRIG_CFG.ERR_MASK).testBit cause ∧ cause < 32 then
    (s.capture 4 (s.get L.CRN_TRIG_CFG.TRIG_PROFILE) false).1
  else s

/-- The causes of Table 18.3. -/
abbrev Cause.WORLD : Nat := 0x01
abbrev Cause.VI : Nat := 0x02
abbrev Cause.VIOLATION : Nat := 0x03
abbrev Cause.NOT_READY : Nat := 0x04
abbrev Cause.UE : Nat := 0x05
abbrev Cause.CE : Nat := 0x06
abbrev Cause.PARTNER : Nat := 0x07
abbrev Cause.REFUSED : Nat := 0x08
abbrev Cause.OVERRUN : Nat := 0x09
abbrev Cause.FAULT : Nat := 0x0A
abbrev Cause.TIMEOUT : Nat := 0x0B
abbrev Cause.ACCESS : Nat := 0x0C
abbrev Cause.LINK : Nat := 0x0D
abbrev Cause.FATAL : Nat := 0x0E
abbrev Cause.COMMAND : Nat := 0x0F
abbrev Cause.MISMATCH : Nat := 0x10
abbrev Cause.ROUTE : Nat := 0x11

/-- The physical address of a register key. -/
def regAddr (k : Nat) : Nat := 0xF00000000000 + k % 0x10000000000

/-- The tags of an access that no agent issued: a unit of the device itself, in a world. -/
abbrev unitIssuer (sealed : Bool) : Issuer := ⟨sealed, none, 0, .device⟩

/-- An access answered under R32: error response, and a record with cause WORLD. -/
def State.worldError (s : State) (n addr : Nat) (c : Issuer) : State :=
  (s.logRec n Cause.WORLD 0 addr c 0).answer .error

/-- An access answered for its instance (R29, R31): error response, and a record with cause VI. -/
def State.viError (s : State) (n addr : Nat) (c : Issuer) : State :=
  (s.logRec n Cause.VI 0 addr c 0).answer .error

/-- A violation (R6): error response, and a record with cause VIOLATION and a DETAIL of Table 18.3. -/
def State.violation (s : State) (n detail addr : Nat) (c : Issuer) : State :=
  (s.logRec n Cause.VIOLATION detail addr c 0).answer .error

/-- A forbidden write: VIOLATION with DETAIL 0x02. -/
def State.forbidden (s : State) (n key : Nat) (c : Issuer) : State := s.violation n 0x02 (regAddr key) c

/-- A reserved encoding: VIOLATION with DETAIL 0x03. -/
def State.reservedEnc (s : State) (n key : Nat) (c : Issuer) : State := s.violation n 0x03 (regAddr key) c

/-- A GO before READY: VIOLATION with DETAIL 0x04. -/
def State.goEarly (s : State) (n key : Nat) (c : Issuer) : State := s.violation n 0x04 (regAddr key) c

/-- Any other violation: DETAIL 0x05. -/
def State.otherViolation (s : State) (n key : Nat) (c : Issuer) : State := s.violation n 0x05 (regAddr key) c

end Sys2Proof.Machine
end

