-- ==== Sys2Proof/Machine/Own.lean ====
section
/-! DEFINITION. Owners of resources and their assignment to instances (R29 to R32), as the registers hold them, and
the checks of an access by world and instance. -/

namespace Sys2Proof.Machine

/-- The Sealed world owns the resource. -/
def State.ownerSealed (s : State) : Res → Bool
  | .pwr n => (s.get L.WLD_OWN_PWR.OWN).testBit n
  | .clk n => (s.get L.WLD_OWN_CLK.OWN).testBit n
  | .csq n => s.get (L.CSQ_OWN.WORLD n) = 1
  | .qe n => (s.get L.WLD_OWN_UNITS.QE).testBit n
  | .queue n => s.get (L.QE_Q_CFG.WORLD (n / 512) (n % 512)) = 1
  | .ch n => (s.get L.WLD_OWN_UNITS.QE).testBit (n / 16)
  | .ce n => (s.get L.WLD_OWN_CE.OWN).testBit n
  | .eth n => (s.get L.WLD_OWN_UNITS.ETH_FN).testBit n
  | .pci n => (s.get L.WLD_OWN_UNITS.PCI_FN).testBit n
  | .fp n => (s.get L.WLD_OWN_UNITS.FP).testBit n
  | .mg n => (s.get L.WLD_OWN_UNITS.MG).testBit n
  | .l3 n => (s.get (L.WLD_L3WAY.OWNER (n / 64) (n / 16 % 4))).testBit (n % 16)
  | .ks n => (s.get (L.WLD_OWN_KS.OWN (n / 64))).testBit (n % 64)
  | .cairn => s.get L.WLD_OWN_UNITS.CAIRN = 1

/-- A VALID field and a number field, as an option. -/
def State.viField (s : State) (valid num : Loc) : Option Nat := if s.get valid = 1 then some (s.get num) else none

/-- The instance a resource is assigned to (R31). -/
def State.viOf (s : State) : Res → Option Nat
  | .csq n => s.viField (L.CSQ_OWN.VI_VALID n) (L.CSQ_OWN.VI n)
  | .qe n => s.viField (L.QE_STATUS.VI_VALID n) (L.QE_STATUS.VI n)
  | .queue n => s.viField (L.QE_Q_CFG.VI_VALID (n / 512) (n % 512)) (L.QE_Q_CFG.VI (n / 512) (n % 512))
  | .ch n => s.viField (L.QE_CH_CFG.VI_VALID (n / 16) (n % 16)) (L.QE_CH_CFG.VI (n / 16) (n % 16))
  | .ce n => s.viField (L.CE_CTX_STAT.VI_VALID n) (L.CE_CTX_STAT.VI n)
  | .eth n => s.viField (L.ETH_FN_CFG.VI_VALID n) (L.ETH_FN_CFG.VI n)
  | .pci n => s.viField (L.PCI_FN_CFG.VI_VALID (n / 8) (n % 8)) (L.PCI_FN_CFG.VI (n / 8) (n % 8))
  | _ => none

/-- Bit `i` of a field set to a condition. -/
def State.putBit (s : State) (l : Loc) (i : Nat) (b : Bool) : State := if b then s.setBitOf l i else s.clearBitOf l i

/-- The resource passes to a world. -/
def State.setOwner (s : State) (r : Res) (sealed : Bool) : State :=
  let w := if sealed then 1 else 0
  match r with
  | .pwr n => s.putBit L.WLD_OWN_PWR.OWN n sealed
  | .clk n => s.putBit L.WLD_OWN_CLK.OWN n sealed
  | .csq n => s.put (L.CSQ_OWN.WORLD n) w
  | .qe n => (s.putBit L.WLD_OWN_UNITS.QE n sealed).put (L.QE_STATUS.WORLD n) w
  | .queue n => s.put (L.QE_Q_CFG.WORLD (n / 512) (n % 512)) w
  | .ch _ => s
  | .ce n => (s.putBit L.WLD_OWN_CE.OWN n sealed).put (L.CE_CTX_STAT.WORLD n) w
  | .eth n => (s.putBit L.WLD_OWN_UNITS.ETH_FN n sealed).put (L.ETH_FN_CFG.WORLD n) w
  | .pci n => (s.putBit L.WLD_OWN_UNITS.PCI_FN n sealed).put (L.PCI_FN_CFG.WORLD (n / 8) (n % 8)) w
  | .fp n => s.putBit L.WLD_OWN_UNITS.FP n sealed
  | .mg n => s.putBit L.WLD_OWN_UNITS.MG n sealed
  | .l3 n => s.putBit (L.WLD_L3WAY.OWNER (n / 64) (n / 16 % 4)) (n % 16) sealed
  | .ks n => s.putBit (L.WLD_OWN_KS.OWN (n / 64)) (n % 64) sealed
  | .cairn => s.put L.WLD_OWN_UNITS.CAIRN w

/-- The resource is assigned to an instance, or to none. -/
def State.setVi (s : State) (r : Res) (v : Option Nat) : State :=
  let b := if v.isSome then 1 else 0
  let n := v.getD 0
  match r with
  | .csq k => (s.put (L.CSQ_OWN.VI_VALID k) b).put (L.CSQ_OWN.VI k) n
  | .qe k => (s.put (L.QE_STATUS.VI_VALID k) b).put (L.QE_STATUS.VI k) n
  | .queue k => (s.put (L.QE_Q_CFG.VI_VALID (k / 512) (k % 512)) b).put (L.QE_Q_CFG.VI (k / 512) (k % 512)) n
  | .ch k => (s.put (L.QE_CH_CFG.VI_VALID (k / 16) (k % 16)) b).put (L.QE_CH_CFG.VI (k / 16) (k % 16)) n
  | .ce k => (s.put (L.CE_CTX_STAT.VI_VALID k) b).put (L.CE_CTX_STAT.VI k) n
  | .eth k => (s.put (L.ETH_FN_CFG.VI_VALID k) b).put (L.ETH_FN_CFG.VI k) n
  | .pci k => (s.put (L.PCI_FN_CFG.VI_VALID (k / 8) (k % 8)) b).put (L.PCI_FN_CFG.VI (k / 8) (k % 8)) n
  | _ => s

/-- The resource refuses new work while its release is prepared, from the nanosecond after its acceptance (R329, R330), or
while a CREATE holds it (R267). -/
def State.isReleasing (s : State) (r : Res) : Bool :=
  s.releasing.contains r && !(List.any [0, 1] (fun w => match SMap.get s.ownReq w with
    | some q => q.res == r && q.at_ == s.up
    | none => false))

/-- World and instance checks of a register access to a resource of its own (R32, R99, R329): the owning world,
and, for a resource assigned to an instance, that VI number or none. -/
def State.resAccess (s : State) (r : Res) (c : Issuer) : Bool :=
  c.sealed == s.ownerSealed r && !s.isReleasing r &&
    (match s.viOf r, c.vi with
     | some v, some x => x == v
     | none, some _ => true
     | _, none => true)

/-- As `resAccess`, from transactions that carry no VI number. -/
def State.managerAccess (s : State) (r : Res) (c : Issuer) : Bool :=
  c.sealed == s.ownerSealed r && !s.isReleasing r && c.vi.isNone

/-- The power domain is on, or an action that switches it on runs (R402). -/
def State.domPowered (s : State) (n : Nat) : Bool :=
  s.get (L.PWR_DOM.STATE n) = 1 || (s.get (L.PWR_DOM.STATE n) = 0 &&
    (match SMap.get s.pwr.reqs n with | r :: _ => r.started && r.action == 0 | [] => false))

/-- R31: a user with instance `u` may use a unit with instance `v`. -/
def viAllows (u v : Option Nat) : Bool :=
  match u with
  | none => true
  | some x => v == some x

end Sys2Proof.Machine
end

