-- ==== Sys2Proof/Machine/Intr.lean ====
section
/-! DEFINITION. Numbering of harts, interrupt files and the APLIC (R123, R129, R131, R132). -/

namespace Sys2Proof.Machine

/-! ### Numbering and worlds (R123, R129) -/

abbrev hartDie (h : Nat) : Nat := h / 18
abbrev hartCluster (h : Nat) : Nat := h % 18 / 2
abbrev hartCore (h : Nat) : Nat := h % 2
abbrev hartOf (d c k : Nat) : Nat := 18 * d + 2 * c + k

/-- The log of a compute die (Table 18.4). -/
abbrev dieLog (d : Nat) : Nat := 241 + d

abbrev State.hartSt (s : State) (h : Nat) : Hart := SMap.get s.hart h

/-- The clock of a hart's core runs (Table 5.2, R402): its die's core domain is on, it is neither held, nor in WFI or NAP, nor
stopped, and mcountinhibit.CY is 0. -/
def State.cycleRuns (s : State) (h : Nat) : Bool :=
  ((s.hartSt h).run == .run || (s.hartSt h).run == .switching) && s.get (L.PWR_DOM.STATE (2 * hartDie h)) == 1 &&
    !(s.csr h 0x320).testBit 0

/-- The core cycles of a hart so far, in thousandths: FREQ MHz since they were counted last (R122). -/
def State.cycleCount (s : State) (h : Nat) : Nat :=
  (s.hartSt h).cycles + (if s.cycleRuns h then (s.up - (s.hartSt h).cycAt) * s.get (L.CLK_DOM.FREQ (hartDie h)) else 0)

/-- A hart takes a state; its cycles up to now are counted at the old one. -/
def State.setHart (s : State) (h : Nat) (x : Hart) : State :=
  { s with hart := SMap.set s.hart h { x with cycles := s.cycleCount h, cycAt := s.up } }

/-- The cycles of a die's harts are counted up to now, before its clock changes. -/
def State.cycleMark (s : State) (d : Nat) : State :=
  s.forAll (List.range 18) (fun s k => s.setHart (18 * d + k) (s.hartSt (18 * d + k)))
abbrev State.dieSt (s : State) (d : Nat) : Die := SMap.get s.die d
def State.setDie (s : State) (d : Nat) (x : Die) : State := { s with die := SMap.set s.die d x }

/-- The cluster belongs to the Sealed world. -/
def State.clusterSealed (s : State) (d c : Nat) : Bool := (s.get (L.WLD_CL_WORLD.WORLD d)).testBit c

/-- The cluster is switching worlds (R129). -/
def State.clusterSwitching (s : State) (d c : Nat) : Bool := (s.get (L.WLD_CL_WORLD.SWITCHING d)).testBit c

/-- The cluster runs a lockstep pair (R135). -/
def State.pairActive (s : State) (d c : Nat) : Bool := s.get (L.SKLSCFG.ACTIVE (hartOf d c 0)) = 1

/-- The core of the hart has failed. -/
def State.coreFailed (s : State) (h : Nat) : Bool := (s.dieSt (hartDie h)).failed.testBit (h % 18)

/-- A failed cluster: neither of its cores works. -/
def State.clusterFailed (s : State) (d c : Nat) : Bool := s.coreFailed (hartOf d c 0) && s.coreFailed (hartOf d c 1)

/-- The mhartid is not in use (R123). -/
def State.hartUnused (s : State) (h : Nat) : Bool :=
  let d := hartDie h
  (s.dieSt d).otherMake || s.clusterFailed d (hartCluster h) ||
    (hartCore h = 1 && s.pairActive d (hartCluster h))

/-- The core domain or the L3 domain of the die is off, or a die reset runs (R402, R425). -/
def State.dieAway (s : State) (d : Nat) : Bool :=
  s.get (L.PWR_DOM.STATE (2 * d)) = 0 || s.get (L.PWR_DOM.STATE (2 * d + 1)) = 0 || (s.dieSt d).resetting

/-- The tags of a hart in a mode: machine mode is Sealed, every other mode has its cluster's world (R129). -/
def State.hartIssuer (s : State) (h : Nat) (mode : PrivMode) : Issuer :=
  ⟨mode == PrivMode.m || s.clusterSealed (hartDie h) (hartCluster h), none, 0, .hart h⟩

/-- The link that carries a slice of a die: its own, or the first ACTIVE one after it (R202). -/
def State.carrier (s : State) (d sl : Nat) : Option Nat :=
  ([0, 1, 2, 3].map (fun k => 4 * d + (sl + k) % 4)).find? (fun n => s.get (L.DL_STATUS.STATE n) == 2)

/-- A die with at least one ACTIVE link that has not left is part of the package (R19, R203). -/
def State.dieIn (s : State) (d : Nat) : Bool :=
  !(s.dieSt d).left && (List.range 4).any (fun k => s.get (L.DL_STATUS.STATE (4 * d + k)) == 2)

/-- The hart executes instructions: it runs, is neither halted nor paused for a capture, and its die's domains are on. -/
def State.hartActs (s : State) (h : Nat) : Bool :=
  decide (h < 216) && (s.hartSt h).run == .run && !(s.hartSt h).halted && !s.paused.contains h && !s.hartUnused h &&
    !s.dieAway (hartDie h) && s.get (L.PWR_DOM.STATE (2 * hartDie h)) == 1

/-- The agent can make an access that leaves its die (R18, R19): a hart executes, and its die has a working link; JTAG reaches
nothing until a debug level is open (R352). -/
def State.agentIn (s : State) (c : Issuer) : Bool :=
  match c.agent with
  | .hart h => s.hartActs h && s.dieIn (hartDie h)
  | .jtag => s.get L.WLD_DBG.SEALED_EN = 1 || s.get L.WLD_DBG.OPEN_EN = 1
  | _ => true

/-- The hart is in a privilege mode, as its command says. -/
def State.inMode (s : State) (h : Nat) (m : PrivMode) : State := s.setHart h { s.hartSt h with mode := m }

/-- The tags of an access as its issuer's place gives them; no issuer can choose its world (R129, R317, R352): a hart by its
mode and its cluster, a management core and Basecamp Sealed, the debug module Sealed only with SEALED_EN. A unit's command
names the world that its table gives it. -/
def State.tagged (s : State) (c : Issuer) : Issuer :=
  match c.agent with
  | .hart h => { c with sealed := (s.hartSt h).mode == PrivMode.m || s.clusterSealed (hartDie h) (hartCluster h) }
  | .newt | .basecamp => ⟨true, none, 0, c.agent⟩
  | .jtag => ⟨c.sealed && s.get L.WLD_DBG.SEALED_EN == 1, none, 0, c.agent⟩
  | .device => c

/-- A command that an agent issues (R18, R317): it acts with the tags of the agent's place, if the agent can act. -/
def State.issue (s : State) (c : Issuer) (f : Issuer → State → State) : State :=
  if s.agentIn c then f (s.tagged c) s else s

/-- An access to a register on a compute die: it comes over one of the die's links (R18); a die without one answers as a die
that is away does. -/
def State.dieAccess (s : State) (d key : Nat) (c : Issuer) (f : State → State) : State :=
  if s.dieIn d then f (s.answer .ok) else (s.logRec (dieLog d) Cause.NOT_READY 0 (regAddr key) c 0).answer .error

/-- The physical address lies in an enabled reserved-class window of the hart (R127, R128). -/
def State.inReservedWindow (s : State) (h a : Nat) : Bool :=
  (List.range 4).any (fun i =>
    let z := s.get (L.SKRTWIN.LOG2SZ h i)
    s.get (L.SKRTWIN.EN h i) = 1 && a >>> z == (s.get (L.SKRTWIN.BASE h i) <<< 12) >>> z)

/-- An access that bypasses the caches is of the reserved class: a hart's, inside its windows (R127). -/
def State.reservedFor (s : State) (c : Issuer) (a : Nat) : Bool :=
  match c.agent with
  | .hart h => s.inReservedWindow h a
  | _ => false

/-! ### Interrupt files (R132) -/

abbrev State.intFile (s : State) (h f : Nat) : IntFile := SMap.get s.files (32 * h + f)
def State.setIntFile (s : State) (h f : Nat) (x : IntFile) : State :=
  { s with files := SMap.set s.files (32 * h + f) x }

/-- An identity is recorded in a file; one already pending has no further effect (R133). -/
def State.recordId (s : State) (h f eiid : Nat) : State :=
  if 1 ≤ eiid ∧ eiid ≤ 2047 then
    let x := s.intFile h f
    s.setIntFile h f { x with pend := setBit x.pend eiid }
  else s

/-- The file signals an interrupt: delivery is on and an enabled pending identity lies below the threshold. -/
def intFileSignals (x : IntFile) : Bool :=
  x.delivery = 1 && (onesBelow 2048 (x.pend &&& x.en)).any (fun i => x.threshold = 0 || decide (i < x.threshold))

/-- The pending interrupts of a hart: the software bits of mip (1, 5, 9, 13); the timer bit 7 while time is at least
SKMTIMECMP (R125); the external bits from its files (11 M, 9 S, 12 SGEI); and the bits 2, 6 and 10 of VS-mode from hvip and
the guest file that hstatus.VGEIN selects. -/
def State.mipOf (s : State) (h : Nat) : Nat :=
  let guest (g : Nat) : Bool := intFileSignals (s.intFile h g)
  let g := bits (s.csr h 0x600) 17 12
  let m := (s.csr h 0x344 &&& 0x2222) ||| (s.csr h 0x645 &&& 0x444)
  let m := if s.get (L.SKMTIMECMP.CMP h) ≤ s.tb.ns then setBit m 7 else m
  let m := if intFileSignals (s.intFile h 16) then setBit m 11 else m
  let m := if intFileSignals (s.intFile h 0) then setBit m 9 else m
  let m := if 1 ≤ g ∧ guest g then setBit m 10 else m
  if (List.range 15).any (fun g => guest (g + 1) && (s.csr h 0x607).testBit (g + 1)) then setBit m 12 else m

/-- An interrupt is pending and enabled in the hart (R138, R139); sie, hie and vsie are views of mie. -/
def State.irqReady (s : State) (h : Nat) : Bool := s.mipOf h &&& s.csr h 0x304 != 0

/-- A machine-mode interrupt is pending and enabled in the hart (R320): one that mideleg, whose VS-level bits are always set,
does not hand on. -/
def State.mIrqReady (s : State) (h : Nat) : Bool := s.mipOf h &&& s.csr h 0x304 &&& ((s.csr h 0x303 &&& 0x2222 ||| 0x1444) ^^^ 0xFFFF) != 0

/-- The tag of a guest file: its instance, if one is assigned (SKGFTAG). -/
def State.fileVi (s : State) (h f : Nat) : Option Nat :=
  if 1 ≤ f ∧ f ≤ 15 then
    let t := SMap.get s.gftag (16 * h + f)
    if t.testBit 8 then some (t % 256) else none
  else none

/-- The hart and the file that an interrupt page belongs to (Table 19.3). -/
def intPage (a : Nat) : Option (Nat × Nat) :=
  let o := a % 0x10000000000
  if a / 0x10000000000 ≠ 0xF0 then none
  else if 0x4000000 ≤ o ∧ o < 0x4000000 + 216 * 0x1000 then some ((o - 0x4000000) / 0x1000, 16)
  else if 0x10000000 ≤ o ∧ o < 0x10000000 + 216 * 0x10000 then
    some ((o - 0x10000000) / 0x10000, (o - 0x10000000) % 0x10000 / 0x1000)
  else none

/-- A message write reaches an interrupt file (R132, R134, R454): the identity is recorded after the checks of use,
readiness, world and instance. -/
def State.msi (s : State) (c : Issuer) (a data : Nat) : State :=
  match intPage a with
  | none => s.violation 253 0x05 a c
  | some (h, f) =>
    let d := hartDie h
    let cl := hartCluster h
    if s.hartUnused h then s.violation (dieLog d) 0x05 a c
    else if s.dieAway d ∨ s.dieIn d = false then (s.logRec (dieLog d) Cause.NOT_READY 0 a c 0).answer .error
    else if f ≠ 16 ∧ s.clusterSwitching d cl then s.worldError (dieLog d) a c
    else if c.sealed ≠ (f = 16 || s.clusterSealed d cl) then s.worldError (dieLog d) a c
    else
      match s.fileVi h f, c.vi with
      | some v, some x =>
        if x = v then ((if a % 0x1000 = 0 then s.recordId h f data else s).answer .ok) else s.viError (dieLog d) a c
      | _, _ => (if a % 0x1000 = 0 then s.recordId h f data else s).answer .ok

/-- MSI_WRITE (R132), by an agent that can reach the hub (R18). -/
def execMsiWrite (c : Issuer) (addr : PAddr) (data : Nat) (s : State) : Result :=
  .next (s.issue c (fun c s => s.msi c addr.toNat data))

/-! ### The APLIC (R131) -/

abbrev aplicRoot : Nat := 0
abbrev aplicSealed : Nat := 1
abbrev aplicOpen : Nat := 2

/-- A register of an APLIC domain. -/
abbrev State.aplicReg (s : State) (dom off : Nat) : Nat := SMap.get s.aplicRegs (dom * 0x10000 + off)

/-- The domain that has a source: the root, or the child domain it is delegated to (sourcecfg.D and child index). -/
def State.aplicDomain (s : State) (src : Nat) : Nat :=
  let c := s.aplicReg aplicRoot (4 * src)
  if c.testBit 10 then (if bits c 9 0 = 0 then aplicSealed else aplicOpen) else aplicRoot

/-- The source mode in its domain: 4 rising edge, 5 falling edge, 6 level high, 7 level low. -/
def State.aplicMode (s : State) (src : Nat) : Nat :=
  bits (s.aplicReg (s.aplicDomain src) (4 * src)) 2 0

/-- A pending, enabled source of an enabled domain leaves as a message to its target (MSI delivery mode, R131). -/
def State.aplicForward (s : State) (src : Nat) : State :=
  let dom := s.aplicDomain src
  let x := SMap.get s.aplic src
  let en : Bool := (s.aplicReg dom (0x1E00 + 4 * (src / 32))).testBit (src % 32)
  if x.pend ∧ en ∧ (s.aplicReg dom 0).testBit 8 then
    let t := s.aplicReg dom (0x3000 + 4 * src)
    let h := bits t 31 18
    let g := bits t 17 12
    let a := if dom = aplicRoot then 0xF00004000000 + h * 0x1000 else 0xF00010000000 + h * 0x10000 + g * 0x1000
    let s := { s with aplic := SMap.set s.aplic src { x with pend := false } }
    s.msi (unitIssuer (dom != aplicOpen)) a (bits t 10 0)
  else s

/-- The rectified input of a source: its level, inverted in the falling and low modes. -/
def State.aplicInput (s : State) (src : Nat) : Bool :=
  let m := s.aplicMode src
  let l := (SMap.get s.aplic src).level
  if m = 4 ∨ m = 6 then l else if m = 5 ∨ m = 7 then !l else false

/-- A wired source changes its level (R131): a rising rectified input makes it pending, and a level source whose input falls
is no longer pending. -/
def State.aplicLine (s : State) (src : Nat) (level : Bool) : State :=
  let x := SMap.get s.aplic src
  let was := s.aplicInput src
  let s := { s with aplic := SMap.set s.aplic src { x with level := level } }
  let now := s.aplicInput src
  let pend : Bool := if now && !was then true else if was && !now && decide (6 ≤ s.aplicMode src) then false else x.pend
  let s := { s with aplic := SMap.set s.aplic src { level := level, pend := pend } }
  if src = 0 then s else s.aplicForward src

/-- A wired source pulses. -/
def State.aplicPulse (s : State) (src : Nat) : State := (s.aplicLine src true).aplicLine src false

/-- APLIC_SOURCE (R131). -/
def execAplicSource (src : Fin 512) (level : Bool) (s : State) : Result := .next (s.aplicLine src level)

/-- The source is one of the domain and not inactive there. -/
def State.aplicHas (s : State) (dom src : Nat) : Bool :=
  decide (1 ≤ src ∧ src < 512) && s.aplicDomain src == dom && s.aplicMode src != 0

/-- A register of an APLIC domain written. -/
def State.putAplic (s : State) (dom off v : Nat) : State :=
  { s with aplicRegs := SMap.set s.aplicRegs (dom * 0x10000 + off) (v % 2 ^ 32) }

/-- Software makes a source pending, a level source only while its input is high; or no longer pending. -/
def State.aplicSetPend (s : State) (dom src : Nat) (b : Bool) : State :=
  if s.aplicHas dom src = false then s
  else if b ∧ 6 ≤ s.aplicMode src ∧ s.aplicInput src = false then s
  else ({ s with aplic := SMap.set s.aplic src { SMap.get s.aplic src with pend := b } }).aplicForward src

/-- Software enables or disables a source. -/
def State.aplicSetEn (s : State) (dom src : Nat) (b : Bool) : State :=
  let o := 0x1E00 + 4 * (src / 32)
  if s.aplicHas dom src = false then s
  else (s.putAplic dom o (if b then setBit (s.aplicReg dom o) (src % 32) else clearBit (s.aplicReg dom o) (src % 32))).aplicForward src

/-- A write of sourcecfg: the root delegates to a child; a source left inactive loses its other registers. -/
def State.aplicSourceCfg (s : State) (dom src v : Nat) : State :=
  let mode := if v % 8 = 2 ∨ v % 8 = 3 then 0 else v % 8
  if dom = aplicRoot ∧ v.testBit 10 then
    (((s.putAplic aplicRoot (4 * src) (1024 + v % 2)).putAplic aplicSealed (4 * src) 0).putAplic aplicOpen (4 * src) 0)
  else if dom = aplicRoot ∨ s.aplicDomain src = dom then
    let s := s.putAplic dom (4 * src) mode
    if mode = 0 then
      let o := 0x1E00 + 4 * (src / 32)
      let s := (s.putAplic dom o (clearBit (s.aplicReg dom o) (src % 32))).putAplic dom (0x3000 + 4 * src) 0
      { s with aplic := SMap.set s.aplic src { SMap.get s.aplic src with pend := false } }
    else s
  else s

/-- Sources named by the bits of word `k` of a bit array. -/
def aplicBits (k v : Nat) : List Nat := (onesBelow 32 v).map (fun i => 32 * k + i)

/-- A 32-bit write to a page of an APLIC domain (Table 19.3, R131), laid out as the AIA specification says. -/
def State.writeAplic (s : State) (dom off v : Nat) : State :=
  if off = 0 then
    (s.putAplic dom 0 (v &&& 0x100)).forAll (List.range 512) (fun s i => if i ≠ 0 ∧ s.aplicDomain i = dom then s.aplicForward i else s)
  else if off < 0x800 then s.aplicSourceCfg dom (off / 4) v
  else if 0x1BC0 ≤ off ∧ off < 0x1BD0 then (if dom = aplicRoot then s.putAplic dom off v else s)
  else if 0x1C00 ≤ off ∧ off < 0x1C40 then s.forAll (aplicBits ((off - 0x1C00) / 4) v) (fun s i => s.aplicSetPend dom i true)
  else if off = 0x1CDC ∨ off = 0x2000 then s.aplicSetPend dom v true
  else if 0x1D00 ≤ off ∧ off < 0x1D40 then s.forAll (aplicBits ((off - 0x1D00) / 4) v) (fun s i => s.aplicSetPend dom i false)
  else if off = 0x1DDC then s.aplicSetPend dom v false
  else if 0x1E00 ≤ off ∧ off < 0x1E40 then s.forAll (aplicBits ((off - 0x1E00) / 4) v) (fun s i => s.aplicSetEn dom i true)
  else if off = 0x1EDC then s.aplicSetEn dom v true
  else if 0x1F00 ≤ off ∧ off < 0x1F40 then s.forAll (aplicBits ((off - 0x1F00) / 4) v) (fun s i => s.aplicSetEn dom i false)
  else if off = 0x1FDC then s.aplicSetEn dom v false
  else if off = 0x3000 then
    let h := bits v 31 18
    s.msi (unitIssuer (dom != aplicOpen))
      (if dom = aplicRoot then 0xF00004000000 + h * 0x1000 else 0xF00010000000 + h * 0x10000) (bits v 10 0)
  else if 0x3004 ≤ off ∧ off < 0x3800 then
    (if s.aplicHas dom ((off - 0x3000) / 4) then s.putAplic dom off v else s)
  else s

/-- A word of a bit array over the sources of a domain. -/
def State.aplicWord (s : State) (dom k : Nat) (p : Nat → Bool) : Nat :=
  (List.range 32).foldl (fun w i => if s.aplicHas dom (32 * k + i) && p (32 * k + i) then setBit w i else w) 0

/-- A 32-bit read of a page of an APLIC domain. -/
def State.readAplic (s : State) (dom off : Nat) : Nat :=
  if off = 0 then 0x80000004 + s.aplicReg dom 0
  else if off < 0x800 then s.aplicReg dom off
  else if 0x1BC0 ≤ off ∧ off < 0x1BD0 then s.aplicReg aplicRoot off
  else if 0x1C00 ≤ off ∧ off < 0x1C40 then s.aplicWord dom ((off - 0x1C00) / 4) (fun i => (SMap.get s.aplic i).pend)
  else if 0x1D00 ≤ off ∧ off < 0x1D40 then s.aplicWord dom ((off - 0x1D00) / 4) s.aplicInput
  else if 0x1E00 ≤ off ∧ off < 0x1E40 then s.aplicReg dom off
  else if 0x3004 ≤ off ∧ off < 0x3800 then s.aplicReg dom off
  else 0

end Sys2Proof.Machine
end

