-- ==== Sys2Proof/Machine/Pmc.lean ====
section
/-! DEFINITION. The uncore performance counters (R443, R444), and the time that passes. -/

namespace Sys2Proof.Machine

/-- Units of Table 18.13. -/
abbrev uHA : Nat := 1
abbrev uMC : Nat := 2
abbrev uNOC : Nat := 3
abbrev uDL : Nat := 4
abbrev uQE : Nat := 5
abbrev uFP : Nat := 6
abbrev uCE : Nat := 7
abbrev uCSQ : Nat := 8

/-- The last instance of a unit, and how many events it has. -/
def pmcUnit (u : Nat) : Option (Nat × Nat) :=
  if u = 1 then some (31, 7) else if u = 2 then some (63, 7) else if u = 3 then some (99, 4) else if u = 4 then some (47, 3)
  else if u = 5 then some (7, 3) else if u = 6 then some (7, 3) else if u = 7 then some (3, 2) else if u = 8 then some (31, 3)
  else none

/-- A selection that Table 18.13 lists (R448). -/
def pmcListed (u inst ev : Nat) : Bool :=
  match pmcUnit u with
  | none => false
  | some (i, e) => decide (inst ≤ i ∧ 1 ≤ ev ∧ ev ≤ e)

/-- The events marked S: they count only on counters of the Sealed world. -/
def pmcSealedOnly (u ev : Nat) : Bool :=
  (u = 2 && decide (5 ≤ ev)) || (u = 3 && decide (3 ≤ ev)) || u = 4 || (u = 6 && ev = 2)

/-- The events that count nanoseconds. -/
def pmcTimed (u ev : Nat) : Bool := (u = 1 && ev = 7) || (u = 2 && ev = 7) || (u = 4 && ev = 3)

/-- The counters enabled: only a listed register can hold EN at 1. -/
def State.pmcOn (s : State) : List Nat :=
  if s.get L.PMC_CTL.FREEZE = 1 ∨ s.get (L.HA_STATUS.STOPPED 0) = 1 then []
  else ((s.regs.filter (fun e => decide (R.PMC_SEL 0 ≤ e.1 ∧ e.1 < R.PMC_SEL 16 ∧ (e.1 - R.PMC_SEL 0) % 0x20 = 0) &&
    e.2.toNat.testBit 63)).map (fun e => (e.1 - R.PMC_SEL 0) / 0x20))

/-- The world and instance conditions of counter `i` on a transaction (R443). -/
def State.pmcTakes (s : State) (i : Nat) (w : Bool) (vi : Option Nat) : Bool :=
  let cw : Bool := s.get (L.PMC_SEL.WORLD i) = 1
  let sOnly := pmcSealedOnly (s.get (L.PMC_SEL.UNIT i)) (s.get (L.PMC_SEL.EVENT i))
  (if sOnly then cw else (w == cw || (cw && s.get (L.PMC_SEL.ALLW i) = 1))) &&
    (s.get (L.PMC_SEL.VI_VALID i) = 0 || vi == some (s.get (L.PMC_SEL.VI i)))

/-- Counter `i` adds `n`; one that wraps sets its bit of PMC_OVF and raises wired source 3 or 4 (R443). -/
def State.pmcAdd (s : State) (i n : Nat) : State :=
  let v := s.get (L.PMC_CNT.VALUE i) + n
  let s := s.put (L.PMC_CNT.VALUE i) v
  if v < 2 ^ 48 then s
  else (s.raiseBit L.PMC_OVF.OVF i).aplicLine (if s.get (L.PMC_SEL.WORLD i) = 1 then 3 else 4) true

/-- `n` events of an instance of a unit, by a transaction with these tags (R443). -/
def State.pmc (s : State) (u inst ev n : Nat) (w : Bool) (vi : Option Nat) : State :=
  s.forAll (s.pmcOn.filter (fun i => s.get (L.PMC_SEL.UNIT i) == u && s.get (L.PMC_SEL.INST i) == inst &&
    s.get (L.PMC_SEL.EVENT i) == ev && s.pmcTakes i w vi)) (fun s i => s.pmcAdd i n)

/-- What counter `i` of a timed event adds in one nanosecond: reserved requests that wait behind an open transaction,
PANIC, or a link below 16 lanes. -/
def State.pmcPerNs (s : State) (i : Nat) : Nat :=
  let u := s.get (L.PMC_SEL.UNIT i)
  let k := s.get (L.PMC_SEL.INST i)
  if pmcTimed u (s.get (L.PMC_SEL.EVENT i)) = false then 0
  else if u = uHA then ((SMap.get s.homes k).waiting.filter (fun m => m.2.reserved && s.pmcTakes i m.2.sealed m.2.vi)).length
  else if s.pmcTakes i true none = false then 0
  else if u = uMC then s.get (L.MC_STATUS.PANIC k)
  else if s.get (L.DL_STATUS.STATE k) = 2 then s.get (L.DL_STATUS.X8 k) else 0

/-- `n` ns pass for the counters of timed events. -/
def State.pmcTime (s : State) (n : Nat) : State := s.forAll s.pmcOn (fun s i => s.pmcAdd i (n * s.pmcPerNs i))

/-- Each tick copies the counters with FRAME at 1 and restarts them (R444). -/
def State.pmcTick (s : State) (ended : Nat) : State :=
  s.forAll ((List.range 16).filter (fun i => s.get (L.PMC_SEL.FRAME i) == 1)) (fun s i =>
    ((s.put (L.PMC_FRAME_VAL.VALUE i) (s.get (L.PMC_CNT.VALUE i))).put (L.PMC_FRAME_NUM.FRAME i) ended).put (L.PMC_CNT.VALUE i) 0)

/-! ### Time passes -/

/-- A new cycle of the time clock begins: nothing has been set in it yet (R11). -/
def State.newCycle (s : State) : State := { s with fieldOps := { s.fieldOps with raised := [], asked := [], fresh := [], entries := 0 } }

/-- `n` cycles of the time clock pass; the counter stands while the time base is held in reset (R419). -/
def State.elapse (s : State) (n : Nat) : State :=
  let s := s.pmcTime n
  let t := ({ s with up := s.up + n }).when (n ≠ 0) State.newCycle
  if s.get L.PWR_RST_HOLD.TB = 1 ∨ n = 0 then t
  else
    let t := t.setTbValue (s.tbValue + n * s.tbStep)
    { t with tb := { t.tb with reached := (s.tbValue + (n - 1) * s.tbStep) / 2 ^ 42 + 1 } }

/-- Time passes up to an instant of the run, if that lies ahead. -/
def State.elapseUntil (s : State) (u : Nat) : State := s.elapse (u - s.up)

/-- Time passes until the first cycle at which the count is at or past `ns` (R39). -/
def State.elapseToNs (s : State) (ns : Nat) : State :=
  s.elapse ((ns * 2 ^ 42 - s.tbValue + (s.tbStep - 1)) / s.tbStep)

end Sys2Proof.Machine
end

