-- ==== Sys2Proof/Machine/Sched.lean ====
section
/-! DEFINITION. The reserved-schedule records (R119, R120). -/

namespace Sys2Proof.Machine

/-! ### Timing lanes (R192) -/

/-- A time word leaves on the timing lane of every ACTIVE link. -/
def State.sendTimeWords (s : State) : State :=
  s.forAll ((List.range 48).filter (fun n => s.get (L.DL_STATUS.STATE n) == 2)) (fun s n =>
    s.send (.timeWord n s.tb.ns s.visFrac))

/-- The link from which a die takes time and launch words: its lowest ACTIVE one with TIME_OK. -/
def State.timeLink (s : State) (d : Nat) : Option Nat :=
  ([0, 1, 2, 3].map (fun k => 4 * d + k)).find? (fun n =>
    s.get (L.DL_STATUS.STATE n) == 2 && s.get (L.DL_STATUS.TIME_OK n) == 1)

/-! ### Records -/

/-- A link of the record is ACTIVE at x8. -/
def State.linkX8 (s : State) (n : Nat) : Bool := s.get (L.DL_STATUS.STATE n) = 2 && s.get (L.DL_STATUS.X8 n) = 1

/-- A link of the record is not ACTIVE. -/
def State.linkOut (s : State) (n : Nat) : Bool := s.get (L.DL_STATUS.STATE n) ≠ 2

/-- A controller is not in normal service: mode NORMAL is 2 in Table 10.2, and a replay counts as leaving it (R229). -/
def State.mcOut (s : State) (n : Nat) : Bool :=
  s.get (L.MC_STATUS.MODE n) ≠ 2 || s.get (L.MC_STATUS.REPLAY n) = 1

/-- A controller of the group is not in normal service. -/
def State.mgOut (s : State) (g : Nat) : Bool := (List.range 4).any (fun k => s.mcOut (4 * g + k))

/-- The reason bits of the record, bits 5 to 0 of CSQ_SCHED_STAT. -/
def State.schedReasons (s : State) (q : Nat) : Nat := (s.rd (R.CSQ_SCHED_STAT q)).toNat % 64

/-- VALID follows EN and the reasons (R119). -/
def State.schedValid (s : State) (q : Nat) : State :=
  s.put (L.CSQ_SCHED_STAT.VALID q) (if s.get (L.CSQ_SCHED_CTRL.EN q) = 1 ∧ s.schedReasons q = 0 then 1 else 0)

/-- A reason bit of one record is set in a frame while EN is 1; a fall of VALID records the frame and sends the event of
R120, whatever CSQ_EVT_EN holds. -/
def State.schedReasonIn (s : State) (frame q : Nat) (l : Loc) : State :=
  if s.get (L.CSQ_SCHED_CTRL.EN q) = 1 then
    let was := s.get (L.CSQ_SCHED_STAT.VALID q)
    let s := (s.raise l).put (L.CSQ_SCHED_STAT.VALID q) 0
    if was = 1 then (s.put (L.CSQ_SCHED_FRAME.FRAME q) frame).evqEvent (1 + q) 7 else s
  else s

/-- The same in the frame under way. -/
def State.schedReason (s : State) (q : Nat) (l : Loc) : State := s.schedReasonIn s.frame q l

/-- The three reasons that are conditions are set again while they hold (R119). -/
def State.schedLevelsOf (s : State) (q : Nat) : State :=
  if s.get (L.CSQ_SCHED_CTRL.EN q) = 1 then
    let dl := onesBelow 48 (s.get (L.CSQ_SCHED_DL.DL q))
    let mg := onesBelow 16 (s.get (L.CSQ_SCHED_MG.MG q))
    let s := s.when (dl.any s.linkX8 = true) (fun s => s.schedReason q (L.CSQ_SCHED_STAT.DL_WIDTH q))
    let s := s.when (dl.any s.linkOut = true) (fun s => s.schedReason q (L.CSQ_SCHED_STAT.DL_DOWN q))
    s.when (mg.any s.mgOut = true) (fun s => s.schedReason q (L.CSQ_SCHED_STAT.MG_MODE q))
  else s

/-- Every record is held against the links and controllers as they stand. -/
def State.schedLevels (s : State) : State := s.forAll (List.range 32) State.schedLevelsOf

/-- A second or later forced refresh in one frame on a channel of a group (R119, R233). -/
def State.schedForced (s : State) (g : Nat) : State :=
  s.forAll ((List.range 32).filter (fun q => (s.get (L.CSQ_SCHED_MG.MG q)).testBit g))
    (fun s q => s.schedReason q (L.CSQ_SCHED_STAT.FORCED q))

/-- TICKING falls to 0 (R119). -/
def State.schedTickLoss (s : State) : State :=
  s.forAll (List.range 32) (fun s q => s.schedReason q (L.CSQ_SCHED_STAT.TICK_LOSS q))

end Sys2Proof.Machine
end

