-- ==== Sys2Proof/Machine/Grants.lean ====
section
/-! DEFINITION. The hub mesh (09): its nodes and endpoints, the route tables, and the VC0 reservations that launches are
granted. -/

namespace Sys2Proof.Machine

abbrev nocLog : Nat := 253

def State.nocEvent (s : State) (l : Loc) : State := s.event nocLog l R.NOC_EVT_EN
def State.setMesh (s : State) (x : Mesh) : State := { s with mesh := x }

/-- The launch with a number. -/
def State.findLaunch (s : State) (id : Nat) : Option Launch := s.launches.find? (fun l => l.id == id)

/-- A launch changed. -/
def State.updateLaunch (s : State) (id : Nat) (f : Launch → Launch) : State :=
  { s with launches := s.launches.map (fun l => if l.id = id then f l else l) }

/-! ### Geometry (R205, R206) -/

abbrev nodeAt (x y : Nat) : Nat := 10 * y + x

/-- Node and endpoint port of a die link. -/
def linkPort (n : Nat) : Nat × Nat :=
  let d := n / 4
  let k := n % 4
  if d < 6 then (nodeAt (k / 2) (2 + d), k % 2) else (nodeAt (9 - k / 2) (d - 4), k % 2)

/-- Memory node g, the node of refresh group MGg. -/
def memNode (g : Nat) : Nat := nodeAt (1 + g % 4 + 4 * (g / 4 % 2)) (if g / 4 < 2 then 9 else 0)

/-- The memory node that a node is, if it is one. -/
def memNodeOf (n : Nat) : Option Nat := firstBelow 16 (fun g => memNode g == n)

/-- Node of queue engine q. -/
def qeNode (q : Nat) : Nat := if q < 4 then nodeAt (3 + q) 2 else nodeAt (q - 1) 7

/-- An endpoint of the mesh (Table 9.1). -/
inductive Endpoint where
  | dl (n : Nat) | ha (h : Nat) | fp (n : Nat) | pci (n : Nat) | ethernet | mgtPort | newtPower | trustMram | qe (q : Nat) | ce (c : Nat)
  | timeLaunch | cairn | iommuAplic
  /-- The register blocks of the node's units (port 3), each with its instance. -/
  | regs (blocks : List (Block × Nat))
  deriving DecidableEq, Repr

/-- The agents of a node by port (Table 9.1); none at a node that the table does not name. -/
def nodeAgents (n : Nat) : List Endpoint :=
  let x := n % 10
  let y := n / 10
  let links := (List.range 48).filter (fun l => (linkPort l).1 == n)
  if links ≠ [] then links.map .dl
  else match memNodeOf n with
    | some g => [.ha (2 * g), .ha (2 * g + 1)]
    | none =>
      if (x = 0 ∨ x = 9) ∧ (y = 1 ∨ y = 8) then
        let k := (if y = 8 then 4 else 0) + (if x = 9 then 2 else 0)
        [.fp k, .fp (k + 1)]
      else if y = 0 ∧ (x = 0 ∨ x = 9) then [.pci (x / 9)]
      else if n = nodeAt 0 9 then [.ethernet, .mgtPort]
      else if n = nodeAt 9 9 then [.newtPower, .trustMram]
      else if 3 ≤ x ∧ x ≤ 6 ∧ (y = 2 ∨ y = 7) then [.qe (x - 3 + (if y = 7 then 4 else 0))]
      else if 3 ≤ x ∧ x ≤ 6 ∧ y = 5 then [.ce (x - 3)]
      else if n = nodeAt 4 4 then [.timeLaunch]
      else if n = nodeAt 5 4 then [.cairn]
      else if n = nodeAt 4 3 then [.iommuAplic]
      else []

/-- The register blocks reached at a node, with their instances (Table 9.1, third column). -/
def nodeBlocks (n : Nat) : List (Block × Nat) :=
  (nodeAgents n).flatMap (fun e => match e with
    | .dl l => [(.bDL, l)]
    | .ha h => [(.bHA, h), (.bMC, 2 * h), (.bMC, 2 * h + 1), (.bXE, 2 * h), (.bXE, 2 * h + 1)]
    | .fp k => if k = 0 then [(.bFAB, 0), (.bFABP, 0)] else [(.bFABP, k)]
    | .pci c => [(.bPCI, c)]
    | .ethernet => [(.bETH, 0)]
    | .mgtPort => [(.bMGT, 0)]
    | .newtPower => [(.bPWR, 0), (.bCLK, 0)]
    | .trustMram => [(.bKS, 0), (.bWLDH, 0)]
    | .qe q => [(.bQE, q), (.bVI, q)] ++ (List.range 32).map (fun v => (.bVIT, 32 * q + v))
    | .ce c => (.bCE, c) :: (List.range 16).map (fun k => (.bCECTX, 16 * c + k))
    | .timeLaunch => (.bTB, 0) :: (List.range 32).map (fun q => (.bCSQ, q))
    | .cairn => [(.bCRN, 0), (.bERR, 0), (.bPMC, 0)]
    | .iommuAplic => (.bNOC, 0) :: (List.range 100).map (fun k => (.bNODE, k))
    | .regs b => b)

/-- The endpoint at a port: an agent, or at port 3 the register blocks of a node that has agents. -/
def endpointAt (n port : Nat) : Option Endpoint :=
  if port = 3 then (if nodeAgents n = [] then none else some (.regs (nodeBlocks n))) else (nodeAgents n)[port]?

/-- The source ports of a reservation source (Table 9.4): node and port; none for a code not in the table. -/
def rsvPorts (src : Nat) : Option (List (Nat × Nat)) :=
  if src < 12 then some ([0, 1, 2, 3].map (fun k => linkPort (4 * src + k)))
  else if 0x10 ≤ src ∧ src < 0x18 then some [(qeNode (src - 0x10), 0)]
  else if 0x18 ≤ src ∧ src < 0x1C then some [(nodeAt (3 + (src - 0x18)) 5, 0)]
  else if 0x1C ≤ src ∧ src < 0x1E then some [(nodeAt (9 * (src - 0x1C)) 0, 0)]
  else if src = 0x1E then some [(nodeAt 0 9, 0)]
  else if 0x20 ≤ src ∧ src < 0x28 then
    let p := src - 0x20
    some [(nodeAt (9 * (p / 2 % 2)) (if p < 4 then 1 else 8), p % 2)]
  else none

/-- The node one hop on (Table 9.3), if the mesh has it. -/
def stepNode (n h : Nat) : Option Nat :=
  let x := n % 10
  let y := n / 10
  if h = 0 then (if x < 9 then some (n + 1) else none)
  else if h = 1 then (if y < 9 then some (n + 10) else none)
  else if h = 2 then (if 0 < x then some (n - 1) else none)
  else (if 0 < y then some (n - 10) else none)

/-! ### Routes (R211, R213) -/

/-- The walk of the legality check: node, whether another hop than west was seen, the last hop. -/
def legalWalk : Nat → Nat → Nat → Bool → Nat → Option Nat
  | 0, n, _, _, _ => some n
  | k + 1, n, route, other, prev =>
    let h := route % 4
    if h = 2 ∧ other then none
    else if prev ≠ 4 ∧ h = prev ^^^ 2 then none
    else match stepNode n h with
      | none => none
      | some m => legalWalk k m (route / 4) (other || h != 2) h

/-- The legality check of R213. -/
def routeLegal (src dst route len : Nat) : Bool :=
  decide (len ≤ 18) && decide (route >>> (2 * len) = 0) && legalWalk len src route false 4 == some dst

/-- The active route bank (R218). -/
abbrev State.routeBank (s : State) : Nat := s.get L.NOC_EPOCH.ACTIVE

/-- The route from a node to another on a plane, in the active bank: length and hop codes; none if not valid. -/
def State.routeOf (s : State) (src plane dst : Nat) : Option (Nat × Nat) :=
  let m := 2 * plane + s.routeBank
  if s.get (L.NOC_NI_RT.VALID src m dst) = 1 then
    some (s.get (L.NOC_NI_RT.LEN src m dst), s.get (L.NOC_NI_RT.ROUTE src m dst))
  else none

/-- The links of a path, as plane, node and output, in order. -/
def pathLinks : Nat → Nat → Nat → Nat → List (Nat × Nat × Nat)
  | 0, _, _, _ => []
  | k + 1, plane, n, route =>
    (plane, n, route % 4) ::
      (match stepNode n (route % 4) with
       | some m => pathLinks k plane m (route / 4)
       | none => [])

/-- The links of the route between two nodes; none if the route is not valid. -/
def State.routeLinks (s : State) (src plane dst : Nat) : Option (List (Nat × Nat × Nat)) :=
  (s.routeOf src plane dst).map (fun r => pathLinks r.1 plane src r.2)

/-! ### VC0 reservations (R221 to R224) -/

abbrev State.grantOf (s : State) (i : Nat) : Option VcGrant := SMap.get s.mesh.grants i
def State.setGrant (s : State) (i : Nat) (g : Option VcGrant) : State :=
  s.setMesh { s.mesh with grants := SMap.set s.mesh.grants i g }

/-- The paths of an entry with what each adds to the links it uses (R222). -/
def State.entryPaths (s : State) (i : Nat) : List (Option (List (Nat × Nat × Nat)) × Nat) :=
  let ports := (rsvPorts (s.get (L.NOC_RSV_PATH.SRC i))).getD []
  let mems := (onesBelow 16 (s.get (L.NOC_RSV_PATH.DST i))).map memNode
  let bw := s.get (L.NOC_RSV_PATH.BW i)
  let snp := s.get (L.NOC_RSV_PATH.SNP_BW i)
  let main := mems.flatMap (fun m => ports.flatMap (fun p =>
    [(s.routeLinks p.1 0 m, bw), (s.routeLinks p.1 1 m, bw), (s.routeLinks m 0 p.1, bw), (s.routeLinks m 1 p.1, bw)]))
  if snp = 0 then main
  else
    let links := (onesBelow 12 (s.get (L.NOC_RSV_PATH.SNP_SITES i))).flatMap (fun d => [4 * d, 4 * d + 1, 4 * d + 2, 4 * d + 3])
    main ++ mems.flatMap (fun m => links.map (fun n => (s.routeLinks m 0 (linkPort n).1, snp)))

/-- What an entry adds, link by link; a link stands once for each path that uses it. -/
def State.entryLoad (s : State) (i : Nat) : List ((Nat × Nat × Nat) × Nat) :=
  (s.entryPaths i).flatMap (fun p => ((p.1.getD []).map (fun l => (l, p.2))))

/-- The link has an end at the node. -/
def linkAt (n : Nat) (l : Nat × Nat × Nat) : Bool := l.2.1 == n || stepNode l.2.1 l.2.2 == some n

/-- The link set of an entry uses a link of the node (R220). -/
def State.entryUses (s : State) (i n : Nat) : Bool := (s.entryLoad i).any (fun l => linkAt n l.1)

/-- The entry counts as enabled: EN, every path valid (R222), no node of it in DRAIN (R220). -/
def State.entryEnabled (s : State) (i : Nat) : Bool :=
  s.get (L.NOC_RSV_PATH.EN i) = 1 && (s.entryPaths i).all (fun p => p.1.isSome) &&
    (List.range 100).all (fun n => s.get (L.NOC_RTR_CTRL.DRAIN n) = 0 || !s.entryUses i n)

/-- A grant ends. -/
def State.endGrant (s : State) (i : Nat) : State :=
  match s.grantOf i with
  | none => s
  | some g =>
    let s := ((s.setGrant i none).put (L.NOC_RSV_OWN.ACTIVE i) 0).put (L.NOC_RSV_OWN.END i) 0
    if g.offEn then s.put (L.NOC_RSV_PATH.EN i) 0 else s

/-- Every grant whose end has come at a counter value ends; one whose grant ends in a nanosecond no longer counts in it
(R223). -/
def State.endGrantsAt (s : State) (ns : Nat) : State :=
  s.forAll (s.mesh.grants.filterMap (fun p => p.2.bind (fun g => if g.endNs ≤ ns then some p.1 else none))) State.endGrant

/-- The sum on a link of the contributions of some entries. -/
def linkSum (loads : List ((Nat × Nat × Nat) × Nat)) (l : Nat × Nat × Nat) : Nat :=
  (loads.filter (fun x => x.1 == l)).foldl (fun a x => a + x.2) 0

/-- The order in which a full link is named (R223). -/
def linkKey (l : Nat × Nat × Nat) : Nat := l.1 * 400 + l.2.1 * 4 + l.2.2

/-- The full link that a refusal for capacity names: of all links that an active entry or this one uses, on any plane, the first
whose sum would exceed CAP. -/
def State.fullLink (s : State) (i : Nat) : Option (Nat × Nat × Nat) :=
  let others := (s.mesh.grants.filter (fun p => p.2.isSome && p.1 != i)).flatMap (fun p => s.entryLoad p.1)
  let all := s.entryLoad i ++ others
  let cap := s.get L.NOC_RSV_CAP.CAP
  let full := (all.map Prod.fst).filter (fun l => decide (cap < linkSum all l))
  full.foldl (fun best l => match best with
    | none => some l
    | some b => if linkKey l < linkKey b then some l else some b) none

/-- A refusal (R223). -/
def State.grantDenied (s : State) (i cause : Nat) (l : Nat × Nat × Nat) : State :=
  let s := (s.put L.NOC_RSV_DENY.ENTRY i).put L.NOC_RSV_DENY.CAUSE cause
  let s := ((s.put L.NOC_RSV_DENY.PLANE l.1).put L.NOC_RSV_DENY.NODE l.2.1).put L.NOC_RSV_DENY.DIR l.2.2
  (s.inc L.NOC_RSV_CNT.DENIED).nocEvent L.NOC_EVT.RSV_DENIED

/-- Depth of a token bucket, in 1/80 flit. -/
def State.bucketMax (s : State) (i : Nat) : Nat := 80 * s.get (L.NOC_RSV_PATH.BURST i)

/-- Whether the mesh refuses an activation (R117, R221, R223): cause, and the full link of a refusal for capacity. -/
def State.grantRefusal (s : State) (a : GrantAsk) : Option (Nat × (Nat × Nat × Nat)) :=
  if s.entryEnabled a.entry = false then some (1, (0, 0, 0))
  else if (s.get (L.NOC_RSV_OWN.WORLD a.entry) = 1) ≠ (a.sealed = true) ∨
      s.viField (L.NOC_RSV_OWN.VI_VALID a.entry) (L.NOC_RSV_OWN.VI a.entry) ≠ a.vi then some (2, (0, 0, 0))
  else (s.fullLink a.entry).map (fun l => (3, l))

/-- The grant of an activation (R116): until its length has passed or the next tick, or the later end of one still active. -/
def State.grantGiven (s : State) (a : GrantAsk) : State :=
  let i := a.entry
  let fin := min (a.atNs + a.len) a.tick
  let g := match s.grantOf i with
    | some g => { g with endNs := max g.endNs fin }
    | none => ⟨fin, false, ((rsvPorts (s.get (L.NOC_RSV_PATH.SRC i))).getD []).map (fun _ => (s.bucketMax i, a.at_))⟩
  let s := (s.setGrant i (some g)).put (L.NOC_RSV_OWN.ACTIVE i) 1
  let s := s.put (L.NOC_RSV_OWN.END i) (if a.tick ≤ g.endNs then 0 else s.period - (a.tick - g.endNs))
  s.inc L.NOC_RSV_CNT.GRANTED

/-- An activation is judged against the grants of its nanosecond; a refusal is reported with the completion and to the schedule
record (R117, R119, R223). -/
def State.activate (s : State) (a : GrantAsk) : State :=
  let s := s.endGrantsAt a.atNs
  match s.grantRefusal a with
  | none => s.grantGiven a
  | some (cause, l) =>
    ((s.grantDenied a.entry cause l).updateLaunch a.launch (fun l => { l with rsvDenied := true })).schedReasonIn a.frame a.csq
      (L.CSQ_SCHED_STAT.RSV_DENIED a.csq)

/-- The activation judged next: the earliest, and of one nanosecond the one of the lowest entry (R223). -/
def firstAsk : List GrantAsk → Option GrantAsk
  | [] => none
  | a :: t => match firstAsk t with
    | none => some a
    | some b => if b.at_ < a.at_ ∨ (b.at_ = a.at_ ∧ b.entry < a.entry) then some b else some a

/-- Activations whose nanosecond is not after `t` are judged in order. -/
def State.judgeAsks (s : State) (t : Nat) : Nat → State
  | 0 => s
  | k + 1 =>
    match firstAsk (s.mesh.asks.filter (fun a => decide (a.at_ ≤ t))) with
    | none => s
    | some a => ((s.setMesh { s.mesh with asks := s.mesh.asks.erase a }).activate a).judgeAsks t k

/-- Activations whose nanosecond has come are judged. -/
def State.judgeDue (s : State) : State := s.judgeAsks s.up s.mesh.asks.length

/-- The grants as they stand now: activations are judged, and every grant whose end has come ends. -/
def State.endGrants (s : State) : State :=
  let s := s.judgeDue
  s.endGrantsAt s.tb.ns

/-- A launch asks for a grant of an entry for `len` ns, `wait` ns from now: the grant belongs to the frame of that instant
(R116). -/
def State.askGrant (s : State) (i len wait : Nat) (l : Launch) : State :=
  let k := (s.offset + wait) / max 1 s.period
  s.setMesh { s.mesh with asks := s.mesh.asks ++ [{
    at_ := s.up + wait, atNs := s.tb.ns + wait, tick := s.tb.ns - s.offset + (k + 1) * s.period, frame := s.frame + k
    entry := i, len := len, sealed := l.sealed, vi := l.vi, launch := l.id, csq := l.csq }] }

/-- GRANT_END (R116). -/
def execGrantEnd (entry : Fin 256) (s : State) : Result :=
  let s := s.judgeDue
  match s.grantOf entry with
  | none => .next s
  | some g => .next ((s.elapseToNs g.endNs).endGrant entry)

/-- What a bucket holds now: BW/64 flits a cycle are 3 BW in 1/80 flit a nanosecond (R224). -/
def State.bucketNow (s : State) (i : Nat) (b : Nat × Nat) : Nat :=
  min (s.bucketMax i) (b.1 + 3 * s.get (L.NOC_RSV_PATH.BW i) * (s.up - b.2))

end Sys2Proof.Machine
end

