-- ==== Sys2Proof/Machine/Cadence.lean ====
section
/-! DEFINITION. The Cadence sequencers (03): fetch, legality, register and control-flow instructions, waits, checks,
signals, frame edges, overrun and faults. LAUNCH stands in Launch.lean, after the units it starts. -/

namespace Sys2Proof.Machine

/-! ### Registers and states of a sequencer -/

abbrev stStopped : Nat := 0
abbrev stArmed : Nat := 1
abbrev stRun : Nat := 2
abbrev stWait : Nat := 3
abbrev stYielded : Nat := 4
abbrev stHalted : Nat := 5
abbrev stFaulted : Nat := 6

abbrev State.csqState (s : State) (q : Nat) : Nat := s.get (L.CSQ_STATUS.STATE q)
abbrev State.pcOf (s : State) (q : Nat) : Nat := s.get (L.CSQ_STATUS.PC q)
abbrev State.creg (s : State) (q n : Nat) : Nat := s.get (L.CSQ_CREG.VALUE q n)
def State.setCreg (s : State) (q n v : Nat) : State := s.put (L.CSQ_CREG.VALUE q n) v
def State.setZ (s : State) (q : Nat) (b : Bool) : State := s.put (L.CSQ_STATUS.Z q) (if b then 1 else 0)
def State.setE (s : State) (q : Nat) : State := s.put (L.CSQ_STATUS.E q) 1

/-- All 34 event bits (Table 3.5). -/
abbrev State.flagsOf (s : State) (q : Nat) : Nat := (s.rd (R.CSQ_FLAGS q)).toNat % 2 ^ 34

/-- An event of a sequencer. -/
def State.csqEvent (s : State) (q : Nat) (l : Loc) : State := s.event (1 + q) l (R.CSQ_EVT_EN q)

/-- The hidden state of a sequencer. -/
abbrev State.csqOf (s : State) (q : Nat) : Csq := SMap.get s.csq q
def State.setCsq (s : State) (q : Nat) (c : Csq) : State := { s with csq := SMap.set s.csq q c }

/-- The address of an instruction word. -/
abbrev imemAddr (q pc : Nat) : Nat := regAddr (R.CSQ_IMEM q pc)

/-- The tags of what a sequencer does: its world and its instance (R29). -/
def State.csqIssuer (s : State) (q : Nat) : Issuer :=
  ⟨s.ownerSealed (.csq q), s.viOf (.csq q), 0, .device⟩

/-- An event of the sequencer for the performance counters (Table 18.13). -/
def State.csqCount (s : State) (q ev : Nat) : State := s.pmc uCSQ q ev 1 (s.csqIssuer q).sealed (s.csqIssuer q).vi

/-- All launch slots of a sequencer are cleared (R84). -/
def State.clearSlots (s : State) (q : Nat) : State := (s.put (L.CSQ_TRACK.BUSY q) 0).put (L.CSQ_TRACK.DONE_OPEN q) 0

/-- The sequencer leaves what it is doing: no wait, no SYNC arrival, no SKIP under way. -/
def State.dropWork (s : State) (q : Nat) : State := s.setCsq q { s.csqOf q with wait := .none, skip := none }

/-- The counter time of the most recent tick. -/
def State.tickTime (s : State) : Nat := s.tb.ns - s.offset

/-- Time passes until the frame offset reaches `v` (R39). -/
def State.elapseToOffset (s : State) (v : Nat) : State :=
  if s.offset ≥ v then s else s.elapseToNs (s.tickTime + v)

/-! ### Faults and overruns -/

/-- A fault (R97): FAULTED, with the code, the PC and the frame recorded and logged. -/
def State.csqFault (s : State) (q code pc : Nat) : State :=
  let s := (s.dropWork q).put (L.CSQ_STATUS.STATE q) stFaulted
  let s := (s.put (L.CSQ_FAULT.CODE q) code).put (L.CSQ_FAULT.PC q) pc
  let s := (s.put (L.CSQ_FAULT_FRAME.FRAME q) s.frame).csqEvent q (L.CSQ_EVT.FAULT q)
  s.logRec (1 + q) Cause.FAULT code (imemAddr q pc) (s.csqIssuer q) 0

abbrev faultIllegal : Nat := 1
abbrev faultPcRange : Nat := 2
abbrev faultRange : Nat := 3
abbrev faultNoYield : Nat := 4
abbrev faultImemEcc : Nat := 5

/-- The instruction ends and control falls through after `ns` ns; at address 2,047 it raises PC_RANGE and has no
effect (R80, R97). -/
def State.csqEnd (s : State) (q ns : Nat) (eff : State → State) : State :=
  let pc := s.pcOf q
  if pc = 2047 then s.csqFault q faultPcRange pc
  else
    let s := eff s
    let s := (s.put (L.CSQ_STATUS.PC q) (pc + 1)).put (L.CSQ_STATUS.STATE q) stRun
    s.setCsq q { s.csqOf q with wait := .none, readyAt := s.up + ns }

/-- The instruction transfers control to `a`, taking 2 ns (R74). -/
def State.csqJump (s : State) (q a : Nat) : State :=
  let s := s.put (L.CSQ_STATUS.PC q) a
  s.setCsq q { s.csqOf q with readyAt := s.up + 2 }

/-- The instruction in progress becomes a wait. -/
def State.csqWait (s : State) (q : Nat) (w : Wait) : State :=
  let s := s.put (L.CSQ_STATUS.STATE q) stWait
  s.setCsq q { s.csqOf q with wait := w }

/-! ### Fetch and legality -/

/-- The fields of an instruction word (Table 3.3). -/
structure CsqWord where
  op : Nat
  rd : Nat
  rs : Nat
  cond : Nat
  tgt : Nat
  imm : Nat
  deriving DecidableEq, Repr

/-- The fields of a word. -/
def csqFields (w : Word) : CsqWord :=
  ⟨fieldOf w 58 6, fieldOf w 54 4, fieldOf w 50 4, fieldOf w 48 2, fieldOf w 40 8, fieldOf w 0 40⟩

/-- The rules of operand B (R72). -/
def opBLegal (i : CsqWord) : Bool :=
  if i.tgt.testBit 7 then bits i.tgt 6 4 = 0 && i.imm = 0 else i.tgt = 0

/-- The word is legal (R71 to R73, Table 3.4): a listed opcode, and every bit it does not use at 0. -/
def csqLegal (q : Nat) (i : CsqWord) : Bool :=
  match i.op with
  | 0x00 => i.rd = 0 && i.rs = 0 && i.tgt = 0 && i.imm = 0
  | 0x01 => i.rs = 0 && i.tgt ≤ 6 && (i.tgt = 0 || i.imm = 0)
  | 0x02 => i.tgt = 0
  | 0x03 => opBLegal i
  | 0x04 => opBLegal i
  | 0x05 => opBLegal i
  | 0x06 => opBLegal i
  | 0x10 => i.rd = 0 && i.rs = 0 && i.tgt = 0 && i.imm < 2048
  | 0x11 => i.rs = 0 && i.tgt = 0 && i.imm < 2048
  | 0x18 => i.rd = 0 && i.rs = 0 && opBLegal i
  | 0x19 => i.tgt < 2 && i.imm < 2 ^ 34
  | 0x20 => bits i.imm 37 8 = 0
  | 0x21 => i.rd = 0 && i.rs = 0 && i.tgt < 32 && i.imm < 2 ^ 32
  | 0x22 => opBLegal i
  | 0x23 => i.rd = 0 && i.tgt = 0 && i.imm < 2 ^ 32 && i.imm.testBit q
  | 0x24 => i.rd = 0 && i.tgt = 0 && i.imm < 2 ^ 16
  | 0x28 => i.rd = 0 && i.rs = 0 && i.tgt = 0 && i.imm = 0
  | 0x30 => i.rd = 0 && i.rs = 0 && i.imm < 2048
  | _ => false

/-- The condition of an instruction (R73). -/
def State.csqCond (s : State) (q cond : Nat) : Bool :=
  match cond with
  | 0 => true
  | 1 => s.get (L.CSQ_STATUS.Z q) = 1
  | 2 => s.get (L.CSQ_STATUS.Z q) = 0
  | _ => s.get (L.CSQ_STATUS.E q) = 1

/-- Operand B (R72). -/
def State.opB (s : State) (q : Nat) (i : CsqWord) : Nat :=
  if i.tgt.testBit 7 then s.creg q (i.tgt % 16) else i.imm

/-- A corrected memory error (R98): the event, and a count in the log. -/
def State.csqEccCorr (s : State) (q addr : Nat) : State :=
  (s.csqEvent q (L.CSQ_EVT.ECC_CORR q)).logRec (1 + q) Cause.CE 0x03 addr (s.csqIssuer q) 0

/-- The sequencer may begin an instruction: it runs, and no wait and no SKIP is under way. -/
def State.csqIdle (s : State) (q : Nat) : Bool :=
  s.csqState q = stRun && (s.csqOf q).wait == Wait.none && (s.csqOf q).skip == none

/-- One instruction with opcode `op` begins (R71, R73, R98): the word at PC is fetched, judged and executed; a word of
another opcode is the step of another command, and this one changes nothing. A corrected error of a word fetched for
execution is noted whether the word is legal or not. -/
def State.csqStep (s : State) (q op : Nat) (f : State → CsqWord → State) : State :=
  if s.csqIdle q then
    let t := s.elapseUntil (s.csqOf q).readyAt
    let pc := t.pcOf q
    let i := csqFields (t.rd (R.CSQ_IMEM q pc))
    let e := SMap.get t.ecc (R.CSQ_IMEM q pc)
    let note (t : State) : State := t.when (e = 1) (fun t => t.csqEccCorr q (imemAddr q pc))
    if e = 2 ∧ t.csqCond q i.cond then t.csqFault q faultImemEcc pc
    else if e ≠ 2 ∧ csqLegal q i = false then
      (if t.csqCond q i.cond then note t else t).csqFault q faultIllegal pc
    else if t.csqCond q i.cond = false then t.csqEnd q 1 id
    else if i.op ≠ op then s
    else f (note t) i
  else s

/-! ### Register instructions (R79) -/

/-- The result of a register instruction goes to Cd, and Z says whether it is 0. -/
def State.csqResult (s : State) (q rd v : Nat) : State :=
  s.csqEnd q 1 (fun s => (s.setCreg q rd (v % 2 ^ 64)).setZ q (v % 2 ^ 64 = 0))

/-- Launches left in this frame's cadence budget of the assigned instance (Table 3.5, R271). -/
def State.budgetLeft (s : State) (q : Nat) : Nat :=
  match s.viOf (.csq q) with
  | none => 2 ^ 64 - 1
  | some v =>
    let b := s.get (L.VI_SHARE.BUDGET (v / 32) (v % 32))
    if b = 0 then 2 ^ 64 - 1 else b - SMap.get s.viUsed v

/-- The sources of MOVI (Table 3.5). -/
def State.moviSource (s : State) (q tgt imm : Nat) : Nat :=
  match tgt with
  | 0 => imm
  | 1 => s.frame
  | 2 => s.offset
  | 3 => s.period
  | 4 => s.flagsOf q
  | 5 => s.budgetLeft q
  | _ => q + (if s.ownerSealed (.csq q) then 256 else 0) +
      (match s.viOf (.csq q) with | some v => v * 2 ^ 16 + 2 ^ 24 | none => 0)

/-- MOVI (R79). -/
def execMovi (q : Fin 32) (s : State) : Result :=
  .next (s.csqStep q 0x01 (fun s i => s.csqResult q i.rd (s.moviSource q i.tgt i.imm)))

/-- The 40-bit immediate, sign-extended to 64 bits. -/
def sext40 (v : Nat) : Nat := if v.testBit 39 then v + (2 ^ 64 - 2 ^ 40) else v

/-- ADDI (R79). -/
def execAddi (q : Fin 32) (s : State) : Result :=
  .next (s.csqStep q 0x02 (fun s i => s.csqResult q i.rd (s.creg q i.rs + sext40 i.imm)))

/-- SUB (R79): modulo 2⁶⁴. -/
def execSub (q : Fin 32) (s : State) : Result :=
  .next (s.csqStep q 0x03 (fun s i => s.csqResult q i.rd (wrapSub 64 (s.creg q i.rs) (s.opB q i))))

/-- AND (R79). -/
def execAnd (q : Fin 32) (s : State) : Result :=
  .next (s.csqStep q 0x04 (fun s i => s.csqResult q i.rd (s.creg q i.rs &&& s.opB q i)))

/-- OR (R79). -/
def execOr (q : Fin 32) (s : State) : Result :=
  .next (s.csqStep q 0x05 (fun s i => s.csqResult q i.rd (s.creg q i.rs ||| s.opB q i)))

/-- SHL (R79): by the low six bits of operand B. -/
def execShl (q : Fin 32) (s : State) : Result :=
  .next (s.csqStep q 0x06 (fun s i => s.csqResult q i.rd (s.creg q i.rs <<< (s.opB q i % 64))))

/-! ### Control flow (R80) -/

/-- BR (R80): PC takes IMM[10:0]; Z and E stay. -/
def execBr (q : Fin 32) (s : State) : Result :=
  .next (s.csqStep q 0x10 (fun s i => s.csqJump q i.imm))

/-- LOOP (R80): Cd is decremented; a non-zero result branches. -/
def execLoop (q : Fin 32) (s : State) : Result :=
  .next (s.csqStep q 0x11 (fun s i =>
    let v := wrapSub 64 (s.creg q i.rd) 1
    if v = 0 then s.csqResult q i.rd 0
    else ((s.setCreg q i.rd v).setZ q false).csqJump q i.imm))

/-- HALT (R91). -/
def execHalt (q : Fin 32) (s : State) : Result :=
  .next (s.csqStep q 0x00 (fun s _ => (s.put (L.CSQ_STATUS.STATE q) stHalted).csqEvent q (L.CSQ_EVT.HALT q)))

/-- The frame's work ends (R90): resume address, sleep count, YIELDED. -/
def State.csqYield (s : State) (q sleep resume : Nat) : State :=
  ((s.put (L.CSQ_STATUS.RESUME q) resume).put (L.CSQ_STATUS.SLEEP q) sleep).put (L.CSQ_STATUS.STATE q) stYielded

/-- YIELD (R90). -/
def execYield (q : Fin 32) (s : State) : Result :=
  .next (s.csqStep q 0x30 (fun s i => s.csqYield q i.tgt i.imm))

/-! ### Waits (R75, R81, R82) -/

/-- Offsets must lie inside the frame; otherwise the instruction raises RANGE. -/
def State.csqRange (s : State) (q v : Nat) (f : State → State) : State :=
  if v ≥ s.period then s.csqFault q faultRange (s.pcOf q) else f s

/-- WAITT (R81): a late one goes on in the next nanosecond with Z at 0 and is counted. -/
def execWaitt (q : Fin 32) (s : State) : Result :=
  .next (s.csqStep q 0x18 (fun s i =>
    let v := s.opB q i
    s.csqRange q v (fun s =>
      if s.offset < v then s.csqWait q (.waitt v)
      else s.csqEnd q 1 (fun s =>
        (((s.setZ q false).inc (L.CSQ_LATE_CNT.WAITT_LATE q)).csqEvent q (L.CSQ_EVT.LATE q)).csqCount q 2))))

/-- WAITT_FIRE (R75, R81): the offset is reached, and the next instruction begins in that nanosecond. -/
def execWaittFire (q : Fin 32) (s : State) : Result :=
  match (s.csqOf q).wait with
  | .waitt v =>
    if s.csqState q = stWait then .next ((s.elapseToOffset v).csqEnd q 0 (fun s => s.setZ q true)) else .next s
  | _ => .next s

/-- WAITE begins (R82). -/
def execWaite (q : Fin 32) (s : State) : Result :=
  .next (s.csqStep q 0x19 (fun s i =>
    let d := s.creg q i.rs
    s.csqRange q d (fun s => s.csqWait q (.waite i.imm d i.rd (i.tgt.testBit 0)))))

/-- WAITE_END (R82): a masked bit is set in or before the deadline, or the deadline nanosecond ends. -/
def execWaiteEnd (q : Fin 32) (s : State) : Result :=
  match (s.csqOf q).wait with
  | .waite mask d rd clear =>
    if s.csqState q = stWait then
      let hit := s.flagsOf q &&& mask
      if hit ≠ 0 then
        .next (s.csqEnd q 1 (fun s =>
          let s := s.when (clear = true) (fun s =>
            s.wr (R.CSQ_FLAGS q) (s.rd (R.CSQ_FLAGS q) &&& ~~~ (BitVec.ofNat 64 hit)))
          (s.setCreg q rd hit).setZ q true))
      else
        .next ((s.elapseToOffset d).csqEnd q 1 (fun s => (s.setCreg q rd 0).setZ q false))
    else .next s
  | _ => .next s

/-! ### CHK, overrun and SKIP (R85, R96) -/

/-- A completion word (Table 3.8). -/
def completionWord (done ontime : Bool) (status frames offset : Nat) : Nat :=
  (if done then 1 <<< 63 else 0) + (if ontime then 1 <<< 62 else 0) + ((status % 256) <<< 48) +
    ((frames % 256) <<< 40) + offset % 2 ^ 40

/-- The slot a handle names still holds its launch. -/
def State.handleLive (s : State) (q h : Nat) : Bool :=
  let k := bits h 47 43
  (s.get (L.CSQ_TRACK.BUSY q)).testBit k && decide ((SMap.get s.slots (32 * q + k)).seq = bits h 31 16)

/-- CHK (R85): an invalid or stale handle ends at once with Z at 0 and E at 1; otherwise the wait begins. -/
def execChk (q : Fin 32) (s : State) : Result :=
  .next (s.csqStep q 0x22 (fun s i =>
    let h := s.creg q i.rs
    let d := s.opB q i
    s.csqRange q d (fun s =>
      if h.testBit 63 = false then
        s.csqEnd q 1 (fun s => ((s.setCreg q i.rd (completionWord false false 0xFE 0 0)).setZ q false).setE q)
      else if s.handleLive q h = false then
        s.csqEnd q 1 (fun s => ((s.setCreg q i.rd (completionWord false false 0xFD 0 0)).setZ q false).setE q)
      else s.csqWait q (.chk h d i.rd))))

/-- The records of a CHK overrun (R96). -/
def State.chkMiss (s : State) (q h d : Nat) : State :=
  let s := ((s.csqEvent q (L.CSQ_EVT.CHK_MISS q)).inc (L.CSQ_OVR_CNT.CHK_MISS q)).csqCount q 3
  let s := s.put (L.CSQ_OVR_FRAME.FRAME q) s.frame
  let s := (((s.put (L.CSQ_OVR_INFO.PC q) (s.pcOf q)).put (L.CSQ_OVR_INFO.TARGET q) (bits h 55 48)).put
    (L.CSQ_OVR_INFO.DEADLINE q) d).put (L.CSQ_OVR_INFO.KIND q) 0
  (s.logRec (1 + q) Cause.OVERRUN 0 (imemAddr q (s.pcOf q)) (s.csqIssuer q) (bits h 55 48)).setE q

/-- CHK_END (R85, R96): the launch has completed or the deadline ends; a CHK whose launch is not complete on time is
an overrun, and OVR_POLICY gives what follows. -/
def execChkEnd (q : Fin 32) (s : State) : Result :=
  match (s.csqOf q).wait with
  | .chk h d rd =>
    if s.csqState q = stWait then
      let k := bits h 47 43
      let s := if (s.get (L.CSQ_TRACK.DONE_OPEN q)).testBit k then s else s.elapseToOffset d
      let done : Bool := (s.get (L.CSQ_TRACK.DONE_OPEN q)).testBit k
      let sl := SMap.get s.slots (32 * q + k)
      let ontime : Bool := done && decide (sl.time ≤ s.tickTime + d)
      let word := if done then completionWord true ontime sl.status sl.frames sl.offset
        else completionWord false false 0 0 0
      let collect := fun (s : State) =>
        let s := s.setCreg q rd word
        let s := s.when (done = true) (fun s =>
          (s.clearBitOf (L.CSQ_TRACK.BUSY q) k).clearBitOf (L.CSQ_TRACK.DONE_OPEN q) k)
        let s := s.when (done = true ∧ sl.status ≠ 0) (fun s => s.setE q)
        s.setZ q (ontime && decide (sl.status = 0))
      if ontime then .next (s.csqEnd q 1 collect)
      else
        let policy := s.get (L.CSQ_CTRL.OVR_POLICY q)
        if policy = 0 then .next (s.csqEnd q 1 (fun s => (collect s).chkMiss q h d))
        else
          let s := (collect s).chkMiss q h d
          if policy = 1 then
            let s := s.put (L.CSQ_STATUS.STATE q) stRun
            .next (s.setCsq q { s.csqOf q with wait := .none, skip := some (s.up + 2, s.pcOf q) })
          else .next ((s.dropWork q).put (L.CSQ_STATUS.STATE q) stHalted)
    else .next s
  | _ => .next s

/-- OVERRUN_SKIP (R96): the first YIELD at or after the CHK executes 2 ns after the miss, whatever its condition; with
none up to address 2,047 the sequencer raises NO_YIELD at the CHK's address. -/
def execOverrunSkip (q : Fin 32) (s : State) : Result :=
  match (s.csqOf q).skip with
  | none => .next s
  | some (t, pc) =>
    if s.csqState q = stRun then
      let s := (s.elapseUntil t).dropWork q
      match firstBelow (2048 - pc) (fun k => (csqFields (s.rd (R.CSQ_IMEM q (pc + k)))).op == 0x30) with
      | none => .next (s.csqFault q faultNoYield pc)
      | some k =>
        let a := pc + k
        let i := csqFields (s.rd (R.CSQ_IMEM q a))
        let e := SMap.get s.ecc (R.CSQ_IMEM q a)
        if e = 2 then .next (s.csqFault q faultImemEcc a)
        else if csqLegal q i = false then .next (s.csqFault q faultIllegal a)
        else
          let s := s.when (e = 1) (fun s => s.csqEccCorr q (imemAddr q a))
          .next ((s.put (L.CSQ_STATUS.PC q) a).csqYield q i.tgt i.imm)
    else .next s

/-- SLOT_EXPIRE (R84): the second tick after a completion passes without a CHK. -/
def execSlotExpire (q slot : Fin 32) (s : State) : Result :=
  if (s.get (L.CSQ_TRACK.DONE_OPEN q)).testBit slot ∧ 2 ≤ (SMap.get s.slots (32 * q.val + slot.val)).after then
    .next ((s.clearBitOf (L.CSQ_TRACK.BUSY q) slot).clearBitOf (L.CSQ_TRACK.DONE_OPEN q) slot)
  else .next s

/-! ### Signals (R78, R86 to R89) -/

/-- Checks 2 and 3 of Table 3.7 of a sequencer against a resource: the reason code, 0 if both pass. -/
def State.checkWorldVi (s : State) (q : Nat) (r : Res) : Nat :=
  if s.ownerSealed r ≠ s.ownerSealed (.csq q) ∨ s.isReleasing r then 0x02
  else if viAllows (s.viOf (.csq q)) (s.viOf r) then 0 else 0x03

/-- A refusal is shown and logged (R83, R86, R88). -/
def State.csqRefused (s : State) (q reason aux : Nat) : State :=
  let s := ((s.setZ q false).setE q).csqEvent q (L.CSQ_EVT.REFUSED q)
  (s.inc (L.CSQ_LAUNCH_CNT.REFUSED q)).logRec (1 + q) Cause.REFUSED reason (imemAddr q (s.pcOf q)) (s.csqIssuer q) aux

/-- POST (R86): after the world and instance checks the flags go to the target, visible 4 ns later (R78). -/
def execPost (q : Fin 32) (s : State) : Result :=
  .next (s.csqStep q 0x21 (fun s i =>
    let t := i.tgt % 32
    let reason := s.checkWorldVi q (.csq t)
    s.csqEnd q 1 (fun s =>
      if reason ≠ 0 then s.csqRefused q reason t
      else ({ s with posts := s.posts ++ [PostMsg.mk q t (i.imm % 2 ^ 32) (s.up + 4)] }).setZ q true)))

/-- FLAG_DELIVER (R78): the flags of the oldest POST become visible. -/
def execFlagDeliver (s : State) : Result :=
  match s.posts with
  | [] => .next s
  | p :: t =>
    let s := { s.elapseUntil p.at_ with posts := t }
    .next (s.raiseBits (L.CSQ_FLAGS.F p.dst) p.flags)

/-- SYNC (R87): the sequencer arrives, or ends at once when R31 would refuse a launch into a member. -/
def execSync (q : Fin 32) (s : State) : Result :=
  .next (s.csqStep q 0x23 (fun s i =>
    let d := s.creg q i.rs
    s.csqRange q d (fun s =>
      if (onesBelow 32 i.imm).any (fun m => m ≠ q.val && s.checkWorldVi q (.csq m) ≠ 0) then
        s.csqEnd q 1 (fun s => (s.setZ q false).setE q)
      else s.csqWait q (.sync i.imm d))))

/-- The sequencer waits in a SYNC with this mask. -/
def State.arrived (s : State) (mask q : Nat) : Bool :=
  s.csqState q = stWait && (match (s.csqOf q).wait with | .sync m _ => m == mask | _ => false)

/-- SYNC_RELEASE (R87): with the last matching arrival every member ends its SYNC with Z at 1. -/
def execSyncRelease (q : Fin 32) (s : State) : Result :=
  match (s.csqOf q).wait with
  | .sync mask _ =>
    if (onesBelow 32 mask).all (s.arrived mask) then
      .next (s.forAll (onesBelow 32 mask) (fun s m => s.csqEnd m 1 (fun s => s.setZ m true)))
    else .next s
  | _ => .next s

/-- SYNC_DEADLINE (R87): the arrival is withdrawn at the end of the deadline nanosecond. -/
def execSyncDeadline (q : Fin 32) (s : State) : Result :=
  match (s.csqOf q).wait with
  | .sync _ d =>
    if s.csqState q = stWait then
      .next ((s.elapseToOffset d).csqEnd q 1 (fun s => ((s.setZ q false).setE q).csqEvent q (L.CSQ_EVT.SYNC_TMO q)))
    else .next s
  | _ => .next s

/-- A capture of this nanosecond freezes the ring: its records of this nanosecond are still written (R436). -/
def State.freezing (s : State) : Bool :=
  match s.capBusy with
  | some k => (SMap.get s.caps k).at_ == s.up && (SMap.get s.caps k).profile.testBit 3
  | none => false

/-- A trace record goes into the ring (R440); a stopped full or frozen ring drops it. The second component says
whether it was written. -/
def State.traceWrite (s : State) (q mark cs : Nat) : State × Bool :=
  let p := s.get L.CRN_TRACE_IDX.PROD
  let unread := wrapSub 16 p (s.get L.CRN_TRACE_IDX.CONS)
  if (s.get L.CRN_TRACE_CFG.FROZEN = 1 ∧ s.freezing = false) ∨ (s.get L.CRN_TRACE_CFG.STOP = 1 ∧ 8192 ≤ unread) then
    ((s.inc L.CRN_TRACE_IDX.DROPPED).crnEvent L.CRN_EVT.TRACE_FULL, false)
  else
    let k := p % 8192 * 4
    let w1 := s.offset % 2 ^ 40 + (q <<< 40) + (s.pcOf q <<< 48)
    let t := SMap.set s.trace k (BitVec.ofNat 64 s.frame)
    let t := SMap.set t (k + 1) (BitVec.ofNat 64 w1)
    let t := SMap.set t (k + 2) (BitVec.ofNat 64 (mark % 2 ^ 16))
    let t := SMap.set t (k + 3) (BitVec.ofNat 64 cs)
    (({ s with trace := t }).put L.CRN_TRACE_IDX.PROD (p + 1), true)

/-- CAIRN (R88, R440): a trace record, after the world and instance checks against the Cairn unit. -/
def execCairn (q : Fin 32) (s : State) : Result :=
  .next (s.csqStep q 0x24 (fun s i =>
    let reason := s.checkWorldVi q .cairn
    s.csqEnd q 1 (fun s =>
      if reason ≠ 0 then s.csqRefused q reason 0x50
      else
        let r := s.traceWrite q i.imm (s.creg q i.rs)
        r.1.setZ q r.2)))

/-- The instant by which every POST of the sequencer is visible. -/
def State.postsVisible (s : State) (q : Nat) : Nat :=
  (s.posts.filter (fun p => p.src == q)).foldl (fun m p => max m p.at_) 0

/-- FENCE (R89): it waits until its earlier POSTs are visible, 2 ns at least. -/
def execFence (q : Fin 32) (s : State) : Result :=
  .next (s.csqStep q 0x28 (fun s _ => s.csqWait q (.fence (max (s.up + 1) (s.postsVisible q)))))

/-- FENCE_END (R89): every earlier POST is visible; the next instruction is fetched as memory stands. -/
def execFenceEnd (q : Fin 32) (s : State) : Result :=
  match (s.csqOf q).wait with
  | .fence t =>
    if s.csqState q = stWait ∧ s.posts.all (fun p => p.src != q.val) then
      .next ((s.elapseUntil t).csqEnd q 1 id)
    else .next s
  | _ => .next s

/-! ### Frame edges (R92 to R95) -/

/-- The resume target (R92), and whether NEXT_ENTRY gives it; `from_` is the address used if no entry applies. -/
def State.resumeTarget (s : State) (q : Nat) (sw : Bool) (from_ : Nat) : Nat :=
  if s.get (L.CSQ_CTRL.NEXT_ARM q) = 1 then s.get (L.CSQ_NEXT_ENTRY.NEXT_ENTRY q)
  else if sw ∧ s.get (L.CSQ_CTRL.SW_ENTRY_EN q) = 1 then s.get (L.CSQ_SW_ENTRY.SW_ENTRY q)
  else from_

/-- The sequencer resumes (R92): E is 0, STATE RUN, and the instruction at the target begins at offset 0. -/
def State.csqResume (s : State) (q : Nat) (sw : Bool) (from_ : Nat) : State :=
  let a := s.resumeTarget q sw from_
  let s := s.dropAsk (L.CSQ_CTRL.NEXT_ARM q)
  let s := ((s.put (L.CSQ_STATUS.E q) 0).put (L.CSQ_STATUS.STATE q) stRun).put (L.CSQ_STATUS.PC q) a
  s.setCsq q { s.csqOf q with wait := .none, skip := none, readyAt := s.up }

/-- A frame overrun (R93): recorded and logged, then FRM_POLICY. -/
def State.frameOverrun (s : State) (q : Nat) (sw : Bool) : State :=
  let s := (s.csqEvent q (L.CSQ_EVT.FRAME_OVR q)).inc (L.CSQ_OVR_CNT.FRAME_OVR q)
  let s := s.put (L.CSQ_OVR_FRAME.FRAME q) s.frame
  let s := (((s.put (L.CSQ_OVR_INFO.PC q) (s.pcOf q)).put (L.CSQ_OVR_INFO.TARGET q) 0).put
    (L.CSQ_OVR_INFO.DEADLINE q) 0).put (L.CSQ_OVR_INFO.KIND q) 1
  let s := s.logRec (1 + q) Cause.OVERRUN 1 (imemAddr q (s.pcOf q)) (s.csqIssuer q) 0
  let policy := s.get (L.CSQ_CTRL.FRM_POLICY q)
  if policy = 0 then
    match (s.csqOf q).wait with
    | .sync _ _ => s.csqEnd q 1 (fun s => (s.setZ q false).setE q)
    | _ => s
  else if policy = 1 then s.csqResume q sw (s.get (L.CSQ_ENTRY.ENTRY q))
  else (s.dropWork q).put (L.CSQ_STATUS.STATE q) stHalted

/-- The action of one sequencer at a tick (Table 3.9). -/
def State.csqTick (s : State) (sw : Bool) (q : Nat) : State :=
  let st := s.csqState q
  if st = stArmed then s.csqResume q sw (s.get (L.CSQ_ENTRY.ENTRY q))
  else if st = stYielded then
    let sl := s.get (L.CSQ_STATUS.SLEEP q)
    if sl ≠ 0 then
      if sw ∧ s.get (L.CSQ_CTRL.SW_ENTRY_EN q) = 1 then
        (s.put (L.CSQ_STATUS.SLEEP q) 0).csqResume q sw (s.get (L.CSQ_STATUS.RESUME q))
      else s.put (L.CSQ_STATUS.SLEEP q) (sl - 1)
    else if s.get (L.CSQ_CTRL.HOLD q) = 1 then s.inc (L.CSQ_LATE_CNT.HELD q)
    else s.csqResume q sw (s.get (L.CSQ_STATUS.RESUME q))
  else if st = stRun ∨ st = stWait then s.frameOverrun q sw
  else s

/-- A tick passes for the launch slots: a launch under way counts it, a completion ages (R84). -/
def State.slotsTick (s : State) : State :=
  s.forAll (List.range 32) (fun s q =>
    s.forAll (onesBelow 32 (s.get (L.CSQ_TRACK.BUSY q))) (fun s k =>
      let sl := SMap.get s.slots (32 * q + k)
      let sl := if (s.get (L.CSQ_TRACK.DONE_OPEN q)).testBit k then { sl with after := sl.after + 1 }
        else { sl with frames := min (sl.frames + 1) 255 }
      { s with slots := SMap.set s.slots (32 * q + k) sl }))

/-- Loss of ticks for one sequencer (R95). -/
def State.csqTickLoss (s : State) (q : Nat) : State :=
  let st := s.csqState q
  if st = stArmed ∨ st = stRun ∨ st = stWait ∨ st = stYielded then
    let s := (((s.dropWork q).clearSlots q).put (L.CSQ_STATUS.SLEEP q) 0).put (L.CSQ_STATUS.STATE q) stArmed
    s.csqEvent q (L.CSQ_EVT.TICK_LOSS q)
  else s

/-- TICKING and SYNC_OK fall: every running sequencer returns to ARMED (R95) and the schedule records set TICK_LOSS
(R119). -/
def State.ticksFall (s : State) : State :=
  if s.ticking then
    let s := (s.put L.TB_STATUS.SYNC_OK 0).schedTickLoss
    let s := s.put L.TB_STATUS.TICKING 0
    s.forAll (List.range 32) State.csqTickLoss
  else s

/-! ### Completions (R84, R106) -/

/-- The status a completion reports: the lowest non-zero of the unit's status and a refused grant (R106). -/
def finalStatus (status : Nat) (denied : Bool) : Nat :=
  if denied then (if status = 0 then 0x0C else min status 0x0C) else status

/-- A completion reaches the slot of its launch (R84, R106); one whose slot was cleared is discarded. -/
def State.recordCompletion (s : State) (l : Launch) (status : Nat) : State :=
  let q := l.csq
  let k := l.slot
  let sl := SMap.get s.slots (32 * q + k)
  if (s.get (L.CSQ_TRACK.BUSY q)).testBit k ∧ (s.get (L.CSQ_TRACK.DONE_OPEN q)).testBit k = false ∧ sl.seq = l.seq then
    let sl := { sl with status := finalStatus status l.rsvDenied, time := s.tb.ns, offset := s.offset, after := 0 }
    let s := ({ s with slots := SMap.set s.slots (32 * q + k) sl }).setBitOf (L.CSQ_TRACK.DONE_OPEN q) k
    s.raise (L.CSQ_FLAGS.DONE q)
  else s

/-- The unit reaches the completion point of a launch with a status. -/
def State.endLaunch (s : State) (id status : Nat) : State :=
  s.updateLaunch id (fun l => { l with started := true, status := some status })

/-- No older launch of its unit is still to start (R105). -/
def State.firstPending (s : State) (l : Launch) : Bool :=
  !(s.launches.any (fun x => x.target == l.target && decide (x.id < l.id) && !x.started && x.status.isNone))

/-! ### Owner change and register writes (R67, R70, R99, R100) -/

/-- Registers in a range of keys return to their reset values. -/
def State.resetKeys (s : State) (lo hi : Nat) : State :=
  { s with regs := s.regs.filter (fun p => !(decide (lo ≤ p.1 ∧ p.1 < hi))),
           fieldOps := { s.fieldOps with done := s.fieldOps.done.filter (fun p => !(decide (lo ≤ p.1 ∧ p.1 < hi))) } }

/-- The words of a range of keys are written anew: their errors are gone. -/
def State.clearEcc (s : State) (lo hi : Nat) : State :=
  { s with ecc := s.ecc.filter (fun p => !(decide (lo ≤ p.1 ∧ p.1 < hi))) }

/-- A change of owner or of assigned instance (R67). -/
def State.csqOwnerChange (s : State) (q : Nat) : State :=
  let s := ((s.dropWork q).clearSlots q).put (L.CSQ_STATUS.STATE q) stStopped
  let s := s.wr (R.CSQ_FLAGS q) 0
  let s := s.resetKeys (R.CSQ_CREG q 0) (R.CSQ_CREG q 16)
  let s := (s.resetKeys (R.CSQ_IMEM q 0) (R.CSQ_DMEM q 2048)).clearEcc (R.CSQ_IMEM q 0) (R.CSQ_DMEM q 2048)
  s.csqEvent q (L.CSQ_EVT.OWNER_CHG q)

/-- START (R70). -/
def State.csqStartNow (s : State) (q : Nat) : State :=
  let st := s.csqState q
  if st = stStopped ∨ st = stHalted ∨ st = stFaulted then
    let s := ((s.dropWork q).clearSlots q).wr (R.CSQ_FLAGS q) 0
    let s := (s.wr (R.CSQ_OVR_CNT q) 0).put (L.CSQ_STATUS.E q) 0
    (s.put (L.CSQ_STATUS.SLEEP q) 0).put (L.CSQ_STATUS.STATE q) stArmed
  else s

/-- STOP (R70). -/
def State.csqStopNow (s : State) (q : Nat) : State :=
  ((s.dropWork q).clearSlots q).put (L.CSQ_STATUS.STATE q) stStopped

/-- A write of CSQ_CTRL: a reserved policy is a violation and leaves its field (R93, Table 3.11); STOP wins over START (R70). -/
def State.writeCsqCtrl (s : State) (q : Nat) (c : Issuer) (v : Nat) : State :=
  let ovr := bits v 7 6
  let frm := bits v 9 8
  let s := s.when (ovr = 3 ∨ frm = 3) (fun s => s.reservedEnc (1 + q) (R.CSQ_CTRL q) c)
  let s := s.when (ovr ≠ 3) (fun s => s.put (L.CSQ_CTRL.OVR_POLICY q) ovr)
  let s := s.when (frm ≠ 3) (fun s => s.put (L.CSQ_CTRL.FRM_POLICY q) frm)
  let s := (s.put (L.CSQ_CTRL.HOLD q) (bits v 2 2)).put (L.CSQ_CTRL.SW_ENTRY_EN q) (bits v 11 11)
  let s := s.when (v.testBit 10 = true) (fun s => s.ask (L.CSQ_CTRL.NEXT_ARM q))
  if v.testBit 1 then s.csqStopNow q
  else if v.testBit 0 then s.csqStartNow q
  else s

/-- Access to a CSQ block (R99). -/
def State.csqGuard (s : State) (q : Nat) (c : Issuer) (key : Nat) (f : State → State) : State :=
  if s.resAccess (.csq q) c then f (s.answer .ok) else s.worldError (1 + q) (regAddr key) c

/-- A 64-bit store to instruction memory (R99, R100). -/
def State.writeImem (s : State) (q a v : Nat) : State :=
  { s.put (L.CSQ_IMEM.WORD q a) v with ecc := SMap.set s.ecc (R.CSQ_IMEM q a) 0 }

/-- A write of CSQ_FLAG_SET (R82). -/
def State.writeFlagSet (s : State) (q v : Nat) : State :=
  let s := s.raiseBits (L.CSQ_FLAGS.F q) (v % 2 ^ 32)
  s.when (v.testBit 33 = true) (fun s => s.raise (L.CSQ_FLAGS.BELL q))

/-- CSQ_START (R70). -/
def execCsqStart (c : Issuer) (q : Fin 32) (v : Word) (s : State) : Result :=
  .next (s.issue c (fun c s => s.csqGuard q c (R.CSQ_CTRL q) (fun s => s.writeCsqCtrl q c v.toNat)))

/-- CSQ_STOP (R70). -/
def execCsqStop (c : Issuer) (q : Fin 32) (v : Word) (s : State) : Result :=
  .next (s.issue c (fun c s => s.csqGuard q c (R.CSQ_CTRL q) (fun s => s.writeCsqCtrl q c v.toNat)))

/-- CSQ_IMEM_WRITE (R100). -/
def execCsqImemWrite (c : Issuer) (q : Fin 32) (a : Fin 2048) (v : Word) (s : State) : Result :=
  .next (s.issue c (fun c s => s.csqGuard q c (R.CSQ_IMEM q a) (fun s => s.writeImem q a v.toNat)))

/-- CSQ_FLAG_SET (R82). -/
def execCsqFlagSet (c : Issuer) (q : Fin 32) (v : Word) (s : State) : Result :=
  .next (s.issue c (fun c s => s.csqGuard q c (R.CSQ_FLAG_SET q) (fun s => s.writeFlagSet q v.toNat)))

/-- A write of a CSQ_ register with a rule of its own; `full` says that the access is 64 bits wide. -/
def State.writeCsq (s : State) (r : Reg) (q n : Nat) (c : Issuer) (full : Bool) (v : Nat) : Option State :=
  match r with
  | .CSQ_CTRL => some (s.writeCsqCtrl q c v)
  | .CSQ_FLAG_SET => some (s.writeFlagSet q v)
  | .CSQ_IMEM =>
    some (if full then s.writeImem q n v else s.violation (1 + q) 0x01 (regAddr (R.CSQ_IMEM q n)) c)
  | .CSQ_DMEM =>
    some { s.put (L.CSQ_DMEM.WORD q n) v with ecc := SMap.set s.ecc (R.CSQ_DMEM q n) 0 }
  | .CSQ_CREG =>
    let st := s.csqState q
    some (if st = stStopped ∨ st = stHalted ∨ st = stFaulted then s.setCreg q n v
          else s.forbidden (1 + q) (R.CSQ_CREG q n) c)
  | .CSQ_SCHED_CTRL => some (((s.put (L.CSQ_SCHED_CTRL.EN q) v).schedValid q).schedLevelsOf q)
  | .CSQ_SCHED_DL => some ((s.put (L.CSQ_SCHED_DL.DL q) v).schedLevelsOf q)
  | .CSQ_SCHED_MG => some ((s.put (L.CSQ_SCHED_MG.MG q) v).schedLevelsOf q)
  | .CSQ_SCHED_STAT =>
    some (((s.wr (R.CSQ_SCHED_STAT q) (s.rd (R.CSQ_SCHED_STAT q) &&& ~~~ (BitVec.ofNat 64 (v % 64)))).schedValid
      q).schedLevelsOf q)
  | _ => none

end Sys2Proof.Machine
end

