-- ==== Sys2Proof/Machine/Csr.lean ====
section
/-! DEFINITION. The CSRs of the application cores that the privileged architecture names, with the options and limits of
Table 5.1 (R121 to R125, R142): which exist, who may reach them, what a write keeps, and what a read gives. -/

namespace Sys2Proof.Machine

/-! ### Numbers and modes (R142) -/

/-- The custom ranges of CSR numbers of the privileged architecture. -/
def customCsr (n : Nat) : Bool :=
  decide ((0x5C0 ≤ n ∧ n < 0x600) ∨ (0x6C0 ≤ n ∧ n < 0x700) ∨ (0x7C0 ≤ n ∧ n < 0x800) ∨ (0x800 ≤ n ∧ n < 0x900) ∨
    (0x9C0 ≤ n ∧ n < 0xA00) ∨ (0xAC0 ≤ n ∧ n < 0xB00) ∨ (0xBC0 ≤ n ∧ n < 0xC00) ∨ (0xCC0 ≤ n ∧ n < 0xD00) ∨
    (0xDC0 ≤ n ∧ n < 0xE00) ∨ (0xEC0 ≤ n ∧ n < 0xF00) ∨ (0xFC0 ≤ n))

/-- The custom CSRs that R142 lists. -/
def skCsrs : List Nat :=
  [0xFC0, 0x7C0, 0x7C1, 0x7C2, 0x7C3, 0x7C4, 0x5C0, 0x5C1, 0x5C2, 0x5C3, 0x5C4, 0x5C5, 0x5C6, 0x5C7, 0xDC0, 0xDC1, 0xDC2,
   0xCC0]

/-- The unprivileged CSRs of Table 5.1 apart from the counters. -/
def uCsrs : List Nat := [0x001, 0x002, 0x003, 0x008, 0x009, 0x00A, 0x00F, 0xC20, 0xC21, 0xC22]

/-- The supervisor, hypervisor and VS CSRs of Table 5.1. -/
def sCsrs : List Nat :=
  [0x100, 0x104, 0x105, 0x106, 0x10A, 0x140, 0x141, 0x142, 0x143, 0x144, 0x150, 0x151, 0x15C, 0x180, 0x5A8, 0xDA0, 0xDB0] ++
  [0x200, 0x204, 0x205, 0x240, 0x241, 0x242, 0x243, 0x244, 0x250, 0x251, 0x25C, 0x280, 0xEB0] ++
  [0x600, 0x602, 0x603, 0x604, 0x605, 0x606, 0x607, 0x608, 0x609, 0x60A, 0x643, 0x644, 0x645, 0x646, 0x647, 0x64A, 0x680,
   0x6A8, 0xE12]

/-- The machine CSRs of Table 5.1 apart from counters, event selectors and PMP. -/
def mCsrs : List Nat :=
  [0x300, 0x301, 0x302, 0x303, 0x304, 0x305, 0x306, 0x308, 0x309, 0x30A, 0x320, 0x340, 0x341, 0x342, 0x343, 0x344, 0x34A,
   0x34B, 0x350, 0x351, 0x35C, 0x3A0, 0x3A2, 0x7A0, 0x7A1, 0x7A2, 0x7A3, 0x7A4, 0x7A8, 0xF11, 0xF12, 0xF13, 0xF14, 0xF15,
   0xFB0]

/-- The CSR exists: Table 5.1 has its option, or R142 lists it. Sstc has none (R121). -/
def csrExists (n : Nat) : Bool :=
  if customCsr n then skCsrs.contains n
  else uCsrs.contains n || sCsrs.contains n || mCsrs.contains n ||
    decide ((0x323 ≤ n ∧ n ≤ 0x33F) ∨ (0x3B0 ≤ n ∧ n ≤ 0x3BF) ∨ n = 0xB00 ∨ (0xB02 ≤ n ∧ n ≤ 0xB1F) ∨ (0xC00 ≤ n ∧ n ≤ 0xC1F))

/-- The lowest privilege level that a CSR number allows (bits 9 and 8). -/
def csrLevel (n : Nat) : Nat := n / 256 % 4

/-- The privilege level of a mode. -/
def modeLevel : PrivMode → Nat
  | .u => 0 | .vu => 0 | .s => 1 | .vs => 1 | .m => 3

/-- The mode is a virtual one. -/
def modeVirtual : PrivMode → Bool
  | .vs => true | .vu => true | _ => false

/-- The exception of an access that the mode may not make, by level (R142, R128): none if it may. -/
def csrFault (n : Nat) (mode : PrivMode) : Option Resp :=
  if 0x5C0 ≤ n ∧ n ≤ 0x5C3 then
    (if modeVirtual mode then some .virtualInstr else if mode = .u then some .illegal else none)
  else if csrLevel n = 2 then
    match mode with
    | .m | .s => none
    | .u => some .illegal
    | _ => some .virtualInstr
  else if csrLevel n ≤ modeLevel mode then none
  else if mode = .vu ∧ csrLevel n = 1 then some .virtualInstr
  else some .illegal

/-- A CSR number whose top bits are 11 is read-only. -/
def csrReadOnly (n : Nat) : Bool := decide (n / 0x400 = 3)

/-- A user counter that mcounteren, hcounteren or scounteren withholds from the mode (R124). -/
def State.counterFault (s : State) (h n : Nat) (mode : PrivMode) : Option Resp :=
  if n < 0xC00 ∨ 0xC1F < n ∨ mode = .m then none
  else
    let k := n - 0xC00
    if (s.csr h 0x306).testBit k = false then some .illegal
    else if modeVirtual mode ∧ (s.csr h 0x606).testBit k = false then some .virtualInstr
    else if modeLevel mode = 0 ∧ (s.csr h 0x106).testBit k = false then
      some (if modeVirtual mode then .virtualInstr else .illegal)
    else none

/-- mstatus.TVM and hstatus.VTVM withhold satp and hgatp. -/
def State.translationFault (s : State) (h n : Nat) (mode : PrivMode) : Option Resp :=
  if mode = .s ∧ (n = 0x180 ∨ n = 0x680) ∧ (s.csr h 0x300).testBit 20 then some .illegal
  else if mode = .vs ∧ n = 0x180 ∧ (s.csr h 0x600).testBit 20 then some .virtualInstr
  else none

/-- How a mode may access a CSR (R142, R128, R124): `none` if it may, or the exception raised. A number that does not exist
and a write of a read-only one are illegal in every mode. -/
def State.csrCheck (s : State) (h n : Nat) (mode : PrivMode) (write : Bool) : Option Resp :=
  if csrExists n = false ∨ write ∧ csrReadOnly n then some .illegal
  else match csrFault n mode with
    | some e => some e
    | none => match s.counterFault h n mode with
      | some e => some e
      | none => s.translationFault h n mode

/-- In VS-mode the supervisor numbers reach the VS registers. -/
def csrReal (n : Nat) (mode : PrivMode) : Nat :=
  if mode = .vs ∧ [0x100, 0x104, 0x105, 0x140, 0x141, 0x142, 0x143, 0x144, 0x150, 0x151, 0x15C, 0x180].contains n then n + 0x100
  else n

/-! ### Fields that are views (privileged architecture) -/

/-- A value with the bits of a mask replaced. -/
def maskPut (old new mask : Nat) : Nat := old - (old &&& mask) + (new &&& mask)

/-- Writable bits of mstatus (SXL, UXL and the endianness bits are fixed), and those that sstatus shows. -/
abbrev mstatusMask : Nat := 0xC0007E7FAA
abbrev sstatusMask : Nat := 0xC6722
/-- Interrupt bits that mie holds, and those that mip holds by software. -/
abbrev mieMask : Nat := 0x3EEE
abbrev mipMask : Nat := 0x2222

/-- mstatus takes a value; MPP keeps its value where 2 is written. -/
def mstatusPut (old v : Nat) : Nat :=
  maskPut old v (if bits v 12 11 = 2 then mstatusMask - 0x1800 else mstatusMask)

/-- A trap vector takes a value; MODE 2 and 3 are not supported. -/
def tvecPut (old v : Nat) : Nat := if 2 ≤ v % 4 then v - v % 4 + old % 4 else v

/-- An environment configuration takes a value: FIOM, CBIE (0b10 keeps the old value), CBCFE and CBZE. -/
def envcfgPut (old v : Nat) : Nat := maskPut old v (if bits v 5 4 = 2 then 0xC1 else 0xF1)

/-- satp or vsatp takes a value: an unsupported MODE leaves the register as it is. -/
def satpPut (old v : Nat) : Nat := if bits v 63 60 = 0 ∨ bits v 63 60 = 9 then v else old

/-- hgatp takes a value: MODE Bare or Sv48x4, VMID of 14 bits, PPN with its two low bits 0. -/
def hgatpPut (old v : Nat) : Nat :=
  maskPut (maskPut 0 v 0x3FFFFFFFFFFFFFC) (if bits v 63 60 = 0 ∨ bits v 63 60 = 9 then v else old) (0xF <<< 60)

/-- hstatus takes a value; VGEIN above 15 keeps its value (GEILEN 15). -/
def hstatusPut (old v : Nat) : Nat := maskPut old v (if 15 < bits v 17 12 then 0x7003C0 else 0x73F3C0)

/-- A byte of pmpcfg takes a value: a locked entry keeps it, NA4 (below the grain of 4 KiB) keeps A, and write without read
keeps the permissions. -/
def pmpByte (old v : Nat) : Nat :=
  if old.testBit 7 then old
  else
    let a := if bits v 4 3 = 2 then bits old 4 3 else bits v 4 3
    let p := if v % 4 = 2 then old % 8 else v % 8
    (bits v 7 7) * 128 + a * 8 + p

/-- A pmpcfg register of eight entries takes a value. -/
def pmpcfgPut (old v : Nat) : Nat :=
  (List.range 8).foldl (fun n k => n + pmpByte (bits old (8 * k + 7) (8 * k)) (bits v (8 * k + 7) (8 * k)) * 256 ^ k) 0

/-- The configuration byte of PMP entry `i`. -/
def State.pmpCfg (s : State) (h i : Nat) : Nat :=
  let w := s.csr h (0x3A0 + 2 * (i / 8))
  bits w (8 * (i % 8) + 7) (8 * (i % 8))

/-- PMP address `i` is locked: by its own entry, or by the next one in TOR. -/
def State.pmpLocked (s : State) (h i : Nat) : Bool :=
  (s.pmpCfg h i).testBit 7 || (decide (i < 15) && (s.pmpCfg h (i + 1)).testBit 7 && bits (s.pmpCfg h (i + 1)) 4 3 == 1)

/-- The bytes that PMP entry `i` covers, from the first to the one after the last: off, TOR or NAPOT with the grain of 4 KiB. -/
def State.pmpRange (s : State) (h i : Nat) : Nat × Nat :=
  let addr := fun (i : Nat) => s.csr h (0x3B0 + i)
  if bits (s.pmpCfg h i) 4 3 = 1 then
    ((if i = 0 then 0 else addr (i - 1) / 0x400 * 0x1000), addr i / 0x400 * 0x1000)
  else if bits (s.pmpCfg h i) 4 3 = 3 then
    let v := addr i ||| 0x1FF
    let k := (firstBelow 54 (fun j => !v.testBit j)).getD 54 + 1
    (4 * (v / 2 ^ k * 2 ^ k), 4 * (v / 2 ^ k * 2 ^ k + 2 ^ k))
  else (0, 0)

/-- What an access of a hart needs of the PMP: R, W or X. -/
abbrev pmpR : Nat := 0
abbrev pmpW : Nat := 1
abbrev pmpX : Nat := 2

/-- The PMP of a hart refuses `n` bytes at `a` (R121, R318): the lowest-numbered entry that covers one of them must cover them all
and permit the access; machine mode is bound by locked entries only, every other mode needs an entry. -/
def State.pmpFault (s : State) (h : Nat) (mode : PrivMode) (a n bit : Nat) : Bool :=
  match firstBelow 16 (fun i => decide ((s.pmpRange h i).1 < a + n ∧ a < (s.pmpRange h i).2)) with
  | none => mode != .m
  | some i =>
    decide (a < (s.pmpRange h i).1 ∨ (s.pmpRange h i).2 < a + n) ||
      (!(s.pmpCfg h i).testBit bit && (mode != .m || (s.pmpCfg h i).testBit 7))

/-- The PMP refuses an access: a hart's, in the mode it is in. -/
def State.pmpStops (s : State) (c : Issuer) (a n bit : Nat) : Bool :=
  match c.agent with
  | .hart h => s.pmpFault h (s.hartSt h).mode a n bit
  | _ => false

/-- The bytes that an access to a window touches, and what it needs of the PMP. -/
def remotePmp : RemoteKind → Nat × Nat
  | .load n => (n, pmpR)
  | .store b => (b.length, pmpW)
  | .amo _ wide _ => (if wide then 8 else 4, pmpW)
  | .lrsc => (1, pmpR)
  | .fetch => (1, pmpX)

/-- What pmpaddr `i` reads: the grain of 4 KiB fixes its low bits. -/
def State.pmpAddrRead (s : State) (h i : Nat) : Nat :=
  let v := s.csr h (0x3B0 + i)
  if (s.pmpCfg h i).testBit 4 then v ||| 0x1FF else v - v % 0x400

/-! ### Counters (R122) -/

/-- The machine cycle counter. -/
def State.mcycle (s : State) (h : Nat) : Nat := s.cycleCount h / 1000 % 2 ^ 64

/-- mcycle takes a value. -/
def State.setMcycle (s : State) (h v : Nat) : State :=
  { s with hart := SMap.set s.hart h { s.hartSt h with cycles := 1000 * v, cycAt := s.up } }

/-- A counter 2 to 10 (minstret, mhpmcounter3 to mhpmcounter10): it counts while its bit of mcountinhibit is 0. -/
def State.hartCounter (s : State) (h k : Nat) : Nat :=
  if (s.csr h 0x320).testBit k then s.csr h (0xB00 + k)
  else (s.csr h (0xB00 + k) + Config.hartCount h k s.up) % 2 ^ 64

/-- A write of mcountinhibit: a counter that it stops keeps what it has counted. -/
def State.setInhibit (s : State) (h v : Nat) : State :=
  let s := s.setMcycle h (s.mcycle h)
  let s := s.forAll ((List.range 9).map (· + 2)) (fun s k =>
    if v.testBit k ∧ (s.csr h 0x320).testBit k = false then s.setCsr h (0xB00 + k) (s.hartCounter h k) else s)
  s.setCsr h 0x320 v

/-- An event selector that R121 accepts (Table 18.12). -/
def coreEventOk (e : Nat) : Bool :=
  [0, 1, 2, 0x10, 0x11, 0x12, 0x13, 0x14, 0x15, 0x20, 0x21, 0x22, 0x23, 0x24, 0x25, 0x30, 0x31, 0x40, 0x41, 0x42,
   0x50, 0x51].contains e

/-! ### Interrupt files by indirect access -/

/-- The interrupt file that an indirect CSR pair selects: machine, supervisor, or the guest file of hstatus.VGEIN. -/
def State.indirectFile (s : State) (h n : Nat) : Nat :=
  if n = 0x351 ∨ n = 0x35C then 16 else if n = 0x151 ∨ n = 0x15C then 0 else bits (s.csr h 0x600) 17 12

/-- A write of mireg, sireg or vsireg: eidelivery, eithreshold, the pending and the enabled identities of a file. -/
def State.writeIndirect (s : State) (h n v : Nat) : State :=
  let f := s.indirectFile h n
  let sel := s.csr h (n - 1)
  let x := s.intFile h f
  if sel = 0x70 then s.setIntFile h f { x with delivery := v % 2 }
  else if sel = 0x72 then s.setIntFile h f { x with threshold := v % 2048 }
  else if 0x80 ≤ sel ∧ sel < 0xC0 ∧ sel % 2 = 0 then
    let k := (sel - 0x80) * 32
    s.setIntFile h f { x with pend := x.pend - (bits x.pend (k + 63) k <<< k) + ((if k = 0 then v - v % 2 else v) <<< k) }
  else if 0xC0 ≤ sel ∧ sel < 0x100 ∧ sel % 2 = 0 then
    let k := (sel - 0xC0) * 32
    s.setIntFile h f { x with en := x.en - (bits x.en (k + 63) k <<< k) + ((if k = 0 then v - v % 2 else v) <<< k) }
  else s

/-- The lowest pending and enabled identity of a file. -/
def topIdentity (x : IntFile) : Option Nat :=
  (onesBelow 2048 (x.pend &&& x.en)).find? (fun i => x.threshold = 0 || decide (i < x.threshold))

/-- A write of mtopei, stopei or vstopei claims the top identity of its file. -/
def State.claimTop (s : State) (h n : Nat) : State :=
  let f := s.indirectFile h n
  let x := s.intFile h f
  match topIdentity x with
  | some i => s.setIntFile h f { x with pend := clearBit x.pend i }
  | none => s

/-! ### Writes (R121) -/

/-- The key of a trigger register: each of the four triggers has its own tdata1 to tdata3. -/
abbrev State.tdataKey (s : State) (h n : Nat) : Nat := 0x3000 + 8 * s.csr h 0x7A0 + (n - 0x7A1)

/-- tdata1 holds a trigger of type mcontrol6 or icount, or a disabled one. -/
def triggerOk (v : Nat) : Bool := bits v 63 60 == 6 || bits v 63 60 == 3 || bits v 63 60 == 15

/-- Bits of mie change. -/
def State.putMie (s : State) (h v mask : Nat) : State := s.setCsr h 0x304 (maskPut (s.csr h 0x304) v mask)
/-- Software bits of mip change. -/
def State.putMip (s : State) (h v mask : Nat) : State := s.setCsr h 0x344 (maskPut (s.csr h 0x344) v mask)
/-- Bits of hvip change. -/
def State.putHvip (s : State) (h v mask : Nat) : State := s.setCsr h 0x645 (maskPut (s.csr h 0x645) v mask)

/-- A write of a status, interrupt or delegation register: several numbers show one register. The second component says
that the number is one of them. -/
def State.writeIntrCsr (s : State) (h n v : Nat) : Option State :=
  let deleg := s.csr h 0x303 &&& 0x2222
  let hdeleg := s.csr h 0x603 &&& 0x444
  if n = 0x300 then some (s.setCsr h 0x300 (mstatusPut (s.csr h 0x300) v))
  else if n = 0x100 then some (s.setCsr h 0x300 (maskPut (s.csr h 0x300) v sstatusMask))
  else if n = 0x200 then some (s.setCsr h 0x200 (maskPut (s.csr h 0x200) v sstatusMask))
  else if n = 0x600 then some (s.setCsr h 0x600 (hstatusPut (s.csr h 0x600) v))
  else if n = 0x303 then some (s.setCsr h 0x303 (v &&& 0x2222))
  else if n = 0x603 then some (s.setCsr h 0x603 (v &&& 0x444))
  else if n = 0x302 then some (s.setCsr h 0x302 (clearBit v 11))
  else if n = 0x304 then some (s.putMie h v mieMask)
  else if n = 0x104 then some (s.putMie h v deleg)
  else if n = 0x604 then some (s.putMie h v 0x1444)
  else if n = 0x204 then some (s.putMie h (v <<< 1) hdeleg)
  else if n = 0x344 then some ((s.putMip h v mipMask).putHvip h v 4)
  else if n = 0x144 then some (s.putMip h v (deleg &&& 0x2002))
  else if n = 0x644 then some (s.putHvip h v 4)
  else if n = 0x645 then some (s.putHvip h v 0x444)
  else if n = 0x244 then some (s.putHvip h (v <<< 1) (hdeleg &&& 4))
  else if n = 0x607 then some (s.setCsr h 0x607 (v &&& 0xFFFE))
  else none

/-- The value that a CSR of one meaning keeps when `v` is written: fields that Table 5.1 limits keep their old value. -/
def csrKeep (n old v : Nat) : Nat :=
  if n = 0x305 ∨ n = 0x105 ∨ n = 0x205 then tvecPut old v
  else if n = 0x341 ∨ n = 0x141 ∨ n = 0x241 then v - v % 2
  else if n = 0x30A ∨ n = 0x10A ∨ n = 0x60A then envcfgPut old v
  else if n = 0x180 ∨ n = 0x280 then satpPut old v
  else if n = 0x680 then hgatpPut old v
  else if n = 0x306 ∨ n = 0x106 ∨ n = 0x606 then v % 2 ^ 32
  else if 0x323 ≤ n ∧ n ≤ 0x32A then
    (v &&& 0xFC00000000000000) + (if coreEventOk (v % 2 ^ 16) then v % 2 ^ 16 else old % 2 ^ 16)
  else if (0x32B ≤ n ∧ n ≤ 0x33F) ∨ (0xB0B ≤ n ∧ n ≤ 0xB1F) ∨ n = 0x301 ∨ n = 0x7A4 then old
  else if n = 0x3A0 ∨ n = 0x3A2 then pmpcfgPut old v
  else if n = 0x003 then v % 256
  else if n = 0x00F then v % 8
  else if n = 0x008 then v % 512
  else if n = 0x7A0 then (if v < 4 then v else old)
  else v

/-- A CSR of a hart that is no custom one takes a value (R121). -/
def State.writeStdCsr (s : State) (h n v : Nat) : State :=
  if n = 0x351 ∨ n = 0x151 ∨ n = 0x251 then s.writeIndirect h n v
  else if n = 0x35C ∨ n = 0x15C ∨ n = 0x25C then s.claimTop h n
  else if n = 0xB00 then s.setMcycle h v
  else if n = 0x320 then s.setInhibit h (v &&& 0x7FD)
  else if n = 0x001 then s.setCsr h 0x003 (maskPut (s.csr h 0x003) v 0x1F)
  else if n = 0x002 then s.setCsr h 0x003 (maskPut (s.csr h 0x003) (v <<< 5) 0xE0)
  else if n = 0x009 then s.setCsr h 0x00F (maskPut (s.csr h 0x00F) v 1)
  else if n = 0x00A then s.setCsr h 0x00F (maskPut (s.csr h 0x00F) (v <<< 1) 6)
  else if 0x3B0 ≤ n ∧ n ≤ 0x3BF then (if s.pmpLocked h (n - 0x3B0) then s else s.setCsr h n (v % 2 ^ 54))
  else if 0x7A1 ≤ n ∧ n ≤ 0x7A3 then
    (if n = 0x7A1 ∧ triggerOk v = false then s else s.setHreg h (s.tdataKey h n) (BitVec.ofNat 64 v))
  else match s.writeIntrCsr h n v with
    | some t => t
    | none => s.setCsr h n (csrKeep n (s.csr h n) v)

/-! ### Reads -/

/-- mstatus as it reads: SXL and UXL are 2, and SD says that FS or VS is dirty. -/
def statusRead (v : Nat) (mask : Nat) : Nat :=
  let sd := if bits v 14 13 = 3 ∨ bits v 10 9 = 3 then 1 <<< 63 else 0
  (v &&& mask) + sd + (2 <<< 32) + (if mask = mstatusMask then 2 <<< 34 else 0)

/-- The major interrupt of a set that comes first in the default order of the AIA, with its priority number (mtopi, stopi). -/
def topInterrupt (pending prio : Nat) : Nat :=
  match [11, 3, 7, 9, 1, 5, 12, 10, 2, 6, 13].find? (fun i => pending.testBit i) with
  | some i => (i <<< 16) + prio
  | none => 0

/-- vstopi: the interrupt that hvictl injects in place of all but the external one, or the first pending in VS-mode; its priority
number is shown only with hvictl.IPRIOM. -/
def State.vsTop (s : State) (h : Nat) : Nat :=
  let v := s.csr h 0x609
  let pending := (s.mipOf h &&& s.csr h 0x304 &&& s.csr h 0x603 &&& 0x444) >>> 1
  let prio := if v.testBit 8 then v % 256 else 1
  if v.testBit 30 then
    if pending.testBit 9 then (9 <<< 16) + 1
    else if bits v 27 16 = 9 ∧ v % 256 = 0 then 0
    else if bits v 27 16 = 0 then 0 else (bits v 27 16 <<< 16) + prio
  else topInterrupt pending 1

/-- What a CSR of the privileged architecture reads. -/
def State.readStdCsr (s : State) (h n : Nat) : Nat :=
  let deleg := s.csr h 0x303 &&& 0x2222
  let hdeleg := s.csr h 0x603 &&& 0x444
  if n = 0xF14 then h
  else if n = 0x301 then 0x80000000003411AD
  else if n = 0x300 then statusRead (s.csr h 0x300) mstatusMask
  else if n = 0x100 then statusRead (s.csr h 0x300) sstatusMask
  else if n = 0x200 then statusRead (s.csr h 0x200) sstatusMask
  else if n = 0x600 then s.csr h 0x600 + (2 <<< 32)
  else if n = 0x303 then (s.csr h 0x303 &&& 0x2222) + 0x1444
  else if n = 0x344 then s.mipOf h
  else if n = 0x144 then s.mipOf h &&& deleg
  else if n = 0x644 then s.mipOf h &&& 0x1444
  else if n = 0x244 then (s.mipOf h &&& hdeleg) >>> 1
  else if n = 0x104 then s.csr h 0x304 &&& deleg
  else if n = 0x604 then s.csr h 0x304 &&& 0x1444
  else if n = 0x204 then (s.csr h 0x304 &&& hdeleg) >>> 1
  else if n = 0xE12 then (List.range 15).foldl (fun w g => if intFileSignals (s.intFile h (g + 1)) then setBit w (g + 1) else w) 0
  else if n = 0xDA0 then (List.range 8).foldl (fun w k => if (s.csr h (0x323 + k)).testBit 63 then setBit w (3 + k) else w) 0
  else if n = 0xB00 ∨ n = 0xC00 then s.mcycle h
  else if n = 0xC01 then s.tb.ns
  else if 0xB02 ≤ n ∧ n ≤ 0xB0A then s.hartCounter h (n - 0xB00)
  else if 0xC02 ≤ n ∧ n ≤ 0xC0A then s.hartCounter h (n - 0xC00)
  else if 0xC0B ≤ n ∧ n ≤ 0xC1F then s.csr h (n - 0x100)
  else if n = 0xFB0 then topInterrupt (s.mipOf h &&& s.csr h 0x304 &&& ((deleg ||| 0x1444) ^^^ 0xFFFF)) 1
  else if n = 0xDB0 then topInterrupt (s.mipOf h &&& s.csr h 0x304 &&& (deleg ||| 0x1444) &&& ((s.csr h 0x603 &&& 0x444) ^^^ 0xFFFF)) 1
  else if n = 0xEB0 then s.vsTop h
  else if n = 0x001 then s.csr h 0x003 % 32
  else if n = 0x002 then bits (s.csr h 0x003) 7 5
  else if n = 0x009 then s.csr h 0x00F % 2
  else if n = 0x00A then bits (s.csr h 0x00F) 2 1
  else if n = 0xC22 then 64
  else if 0x3B0 ≤ n ∧ n ≤ 0x3BF then s.pmpAddrRead h (n - 0x3B0)
  else if 0x7A1 ≤ n ∧ n ≤ 0x7A3 then (s.hreg h (s.tdataKey h n)).toNat
  else if n = 0x7A4 then 0x1008048
  else if n = 0x35C ∨ n = 0x15C ∨ n = 0x25C then
    match topIdentity (s.intFile h (s.indirectFile h n)) with
    | some i => (i <<< 16) + i
    | none => 0
  else s.csr h n

/-- A CSR of a hart as its value stands. -/
def State.readCsr (s : State) (h n : Nat) : Nat :=
  let d := hartDie h
  let cl := hartCluster h
  if n = 0xFC0 then (if s.clusterSealed d cl then 1 else 0) + (if s.clusterSwitching d cl then 2 else 0)
  else if n = 0x5C5 then SMap.get s.gftag (16 * h + s.get (L.SKGFSEL.G h))
  else if n = 0xCC0 then
    (if s.ticking then ((s.frame % 2 ^ 40) <<< 24) + s.offset % 2 ^ 24 else 2 ^ 64 - 1)
  else if customCsr n then (s.rd (0x1000000000 + 0x1000 * h + n)).toNat
  else s.readStdCsr h n

/-- A read of a CSR in a mode (R142, R124, R128): its value, or the exception raised. In VS-mode and VU-mode time is offset
by htimedelta. -/
def State.readCsrAs (s : State) (h n : Nat) (mode : PrivMode) : Resp :=
  match s.csrCheck h n mode false with
  | some e => e
  | none =>
    let v := s.readCsr h (csrReal n mode)
    .data (BitVec.ofNat 64 (if n = 0xC01 ∧ modeVirtual mode then v + s.csr h 0x605 else v))

/-! ### Cache-block instructions (R121, R153) -/

/-- What the environment registers let a mode do with a field of theirs (bits [hi:lo]): the values that apply, with the
exception that 0 raises, outermost first. -/
def State.envFields (s : State) (h hi lo : Nat) (mode : PrivMode) : List (Nat × Resp) :=
  let m := (bits (s.csr h 0x30A) hi lo, Resp.illegal)
  let hv := (bits (s.csr h 0x60A) hi lo, Resp.virtualInstr)
  let sv := fun (r : Resp) => (bits (s.csr h 0x10A) hi lo, r)
  match mode with
  | .m => []
  | .s => [m]
  | .u => [m, sv .illegal]
  | .vs => [m, hv]
  | .vu => [m, hv, sv .virtualInstr]

/-- The exception that a cache-block instruction raises in a mode, if one: `op` 0 clean, 1 flush, 2 inval, 3 zero. -/
def State.cboFault (s : State) (h op : Nat) (mode : PrivMode) : Option Resp :=
  let f := if op = 2 then (5, 4) else if op = 3 then (7, 7) else (6, 6)
  ((s.envFields h f.1 f.2 mode).find? (fun x => x.1 == 0)).map (fun x => x.2)

/-- cbo.inval discards modified data in this mode: no register that applies turns it into a flush (CBIE 0b01). -/
def State.cboDiscards (s : State) (h : Nat) (mode : PrivMode) : Bool := (s.envFields h 5 4 mode).all (fun x => x.1 == 3)

end Sys2Proof.Machine
end

