-- ==== Sys2Proof/Machine/Harts.lean ====
section
/-! DEFINITION. The application cores (05): timers, the injector, lockstep, sampling, the custom CSRs and the core power
states. -/

namespace Sys2Proof.Machine

/-! ### Timer and wake (R125, R138) -/

/-- TIMER_COMPARE (R125): the time CSR reaches SKMTIMECMP, and mip.MTIP reads 1 from then on (`mipOf`). -/
def execTimerCompare (h : Fin 216) (s : State) : Result := .next (s.elapseToNs (s.get (L.SKMTIMECMP.CMP h)))

/-- INTERRUPT_WAKE (R138): a pending, enabled interrupt ends WFI or NAP. -/
def execInterruptWake (h : Fin 216) (s : State) : Result :=
  let x := s.hartSt h
  if (x.run = .wfi ∨ x.run = .nap) ∧ s.irqReady h ∧ s.get (L.PWR_DOM.STATE (2 * hartDie h)) = 1 then
    .next (s.setHart h { x with run := .run })
  else .next s

/-! ### Injector launches (R112, R133, R104) -/

/-- A destination of an injector launch. -/
inductive InjDest where
  /-- Skipped because it cannot take an interrupt (R112). -/
  | away
  /-- Skipped with a status and its log cause. -/
  | refused (status cause h : Nat)
  | file (h f : Nat)
  deriving DecidableEq, Repr

/-- How the injector judges one selected hart. -/
def State.injJudge (s : State) (l : Launch) (d i file guest : Nat) : InjDest :=
  let cl := i / 2
  let h := hartOf d cl (if s.pairActive d cl then 0 else i % 2)
  let f := if file = 0 then 16 else if file = 1 then 0 else guest
  if s.clusterFailed d cl ∨ (s.dieSt d).otherMake ∨ s.dieAway d then .away
  else if s.clusterSwitching d cl then .refused 0x02 Cause.WORLD h
  else if l.sealed ≠ (f = 16 || s.clusterSealed d cl) then .refused 0x02 Cause.WORLD h
  else if l.vi.isSome ∧ s.fileVi h f ≠ l.vi then .refused 0x03 Cause.VI h
  else .file h f

/-- The address of the page of a file, for the log (R104). -/
def filePage (h f : Nat) : Nat :=
  if f = 16 then 0xF00004000000 + h * 0x1000 else 0xF00010000000 + h * 0x10000 + f * 0x1000

/-- The lower non-zero of two statuses (R106). -/
def lowerStatus (a b : Nat) : Nat := if a = 0 then b else if b = 0 then a else min a b

/-- The harts that an injector launch selects, a pair by one bit (R133). -/
def State.injSel (s : State) (d w : Nat) : List Nat :=
  (onesBelow 18 w).filter (fun i => !(i % 2 == 1 && s.pairActive d (i / 2) && w.testBit (i - 1)))

/-- INJECTOR_LAUNCH_WORD (R133, R192): the oldest pending launch of the die's injector crosses by a launch word on the
timing lane; the identity is recorded in each selected file or the destination is skipped, and the launch reaches its
completion point. With no timing lane the word does not arrive. -/
def execInjectorLaunchWord (id : Nat) (s : State) : Result :=
  match s.findLaunch id with
  | none => .next s
  | some l =>
    let d := l.target - 0x40
    if l.status.isSome ∨ l.target < 0x40 ∨ 0x4B < l.target ∨ s.firstPending l = false then .next s
    else
      let w := l.desc.getD 1 0
      let file := bits w 49 48
      let guest := bits w 55 50
      let eiid := bits w 42 32
      let sel := s.injSel d w
      if file = 2 ∧ (guest = 0 ∨ 15 < guest) then .next ((s.elapseUntil l.acceptAt).endLaunch id 0x01)
      else if sel.all (fun i => s.injJudge l d i file guest == .away) then .next ((s.elapseUntil l.acceptAt).endLaunch id 0x01)
      else
        match s.timeLink d with
        | none => .next s
        | some n =>
          let s := (s.elapseUntil l.acceptAt).send (.launchWord n w)
          let r := sel.foldl (fun (p : State × Nat) i =>
            match s.injJudge l d i file guest with
            | .away => p
            | .refused st cause h =>
              (p.1.logRec (dieLog d) cause 0 (filePage h (if file = 0 then 16 else if file = 1 then 0 else guest))
                ⟨l.sealed, l.vi, l.gen, .device⟩ 0, lowerStatus p.2 st)
            | .file h f => (p.1.recordId h f eiid, p.2)) (s, 0)
          .next (r.1.endLaunch id r.2)

/-! ### Lockstep (R136, R137) -/

/-- LOCKSTEP_MISMATCH (R137): the pair stops, the die's log records the hart and the PC, the die's wired source rises,
MM_SEEN is set, and with LS_EN the Cairn unit captures. -/
def execLockstepMismatch (die : Fin 12) (cl : Fin 9) (pc : Word) (s : State) : Result :=
  let d := die.val
  let c := cl.val
  if s.pairActive d c then
    let h := hartOf d c 0
    let s := s.setHart h { s.hartSt h with run := .stopped }
    let s := s.raise (L.SKLSCFG.MM_SEEN h)
    let s := s.logRec (dieLog d) Cause.MISMATCH 0x01 pc.toNat (s.hartIssuer h .s) h
    let s := s.aplicLine (16 + d) true
    if s.get L.CRN_TRIG_CFG.LS_EN = 1 then .next (s.capture 8 (s.get L.CRN_TRIG_CFG.TRIG_PROFILE) false).1
    else .next s
  else .next s

/-! ### Sampling (R140) -/

/-- The number of a mode in the tables. -/
def modeNum : PrivMode → Nat
  | .u => 0 | .s => 1 | .vu => 2 | .vs => 3 | .m => 4

/-- The end of the sampling interval that holds instruction `r`, and the free values used: each interval is 2^(i + 9) to
3 × 2^(i + 9) − 1 instructions long (R140). -/
def sampleEnd (i r : Nat) : Nat → Nat → Nat → Nat × Nat
  | 0, e, f => (e, f)
  | k + 1, e, f => if r < e then (e, f) else sampleEnd i r k (e + 2 ^ (i + 9) + Config.freeWord f % 2 ^ (i + 10)) (f + 1)

/-- The hart may choose this instruction: the first one that it chooses in its interval. -/
def State.sampleTurn (s : State) (h r : Nat) : State × Bool :=
  let x := s.hartSt h
  if r < x.smpEnd then (s.setHart h { x with smpDone := true }, !x.smpDone)
  else
    let i := s.get (L.SKSMPCFG.INTERVAL h)
    let e := sampleEnd i r (r / 2 ^ (i + 9) + 1) x.smpEnd s.free
    ({ s with free := e.2 }.setHart h { x with smpEnd := e.1, smpDone := true }, true)

/-- SAMPLE_CHOSEN (R140): one instruction of an interval is chosen; it retires and is recorded, or counted as dropped. -/
def execSampleChosen (h : Fin 216) (r : Sample) (s : State) : Result :=
  if s.hartActs h ∧ s.get (L.SKSMPCFG.EN h) = 1 ∧ r.mode ≠ .m ∧ (s.get (L.SKSMPCFG.MODES h)).testBit (modeNum r.mode) then
    let t := s.sampleTurn h r.retired
    if t.2 = false then .next s
    else
      let s := t.1
      if s.get (L.SKSMPINFO.VALID h) = 1 then .next (s.inc (L.SKSMPINFO.DROPPED h))
      else
        let s := (s.wr (R.SKSMPPC h) r.pc).wr (R.SKSMPADDR h) r.addr
        let s := s.wr (R.SKSMPINFO h) (BitVec.ofNat 64 ((1 <<< 63) + ((min r.latency (2 ^ 16 - 1)) <<< 32) +
          ((r.marks % 2 ^ 7) <<< 3) + modeNum r.mode))
        .next (s.setCsr h 0x344 (setBit (s.csr h 0x344) 13))
  else .next s

/-- A write of SKSMPCFG (R140). -/
def State.writeSkSmpCfg (s : State) (h v : Nat) : State :=
  let s := (s.put (L.SKSMPCFG.EN h) v).put (L.SKSMPCFG.INTERVAL h) (bits v 11 8)
  let s := s.put (L.SKSMPCFG.MODES h) (bits v 19 16)
  if v.testBit 1 then (s.put (L.SKSMPINFO.VALID h) 0).put (L.SKSMPINFO.DROPPED h) 0 else s

/-- SAMPLE_ACK (R140). -/
def execSampleAck (h : Fin 216) (v : Word) (s : State) : Result :=
  .next (if s.hartActs h then (s.writeSkSmpCfg h v.toNat).answer .ok else s)

/-! ### CSR writes (R142, R128, R125, R135, R441) -/

/-- A write of a CSR by its hart, in a mode (R142, R121, R125, R128, R135). SKWSW is the command WORLD_SWITCH_GO's. -/
def State.writeCsr (s : State) (h n : Nat) (mode : PrivMode) (v : Nat) : State :=
  match s.csrCheck h n mode true with
  | some e => s.answer e
  | none =>
    let s' := s.answer .ok
    if n = 0x7C1 then
      let s' := s'.when (v.testBit 2 = true ∧ (SMap.get s.fieldOps.raised (R.SKLSCFG h)).getLsbD 2 = false) (fun s => s.put (L.SKLSCFG.MM_SEEN h) 0)
      if hartCore h = 0 ∧ mode = .m then s'.put (L.SKLSCFG.PAIR h) v else s'
    else if n = 0x7C2 then s'.put (L.SKPWR.DEPTH h) v
    else if n = 0x7C3 then s'.put (L.SKMTIMECMP.CMP h) v
    else if n = 0x7C4 then s'.put (L.SKCRNCFG.INCLUDE h) v
    else if 0x5C0 ≤ n ∧ n ≤ 0x5C3 then
      let i := n - 0x5C0
      let sz := bits v 53 48
      let s' := (s'.put (L.SKRTWIN.EN h i) (bits v 63 63)).put (L.SKRTWIN.BASE h i) (bits v 47 12)
      s'.put (L.SKRTWIN.LOG2SZ h i) (if sz < 12 then 12 else if 47 < sz then 47 else sz)
    else if n = 0x5C4 then (if v % 16 = 0 then s' else s'.put (L.SKGFSEL.G h) v)
    else if n = 0x5C5 then
      { s' with gftag := SMap.set s'.gftag (16 * h + s'.get (L.SKGFSEL.G h)) (v % 512) }
    else if n = 0x5C6 then s'.writeSkSmpCfg h v
    else if n = 0x5C7 then s'.put (L.SKCRNMARK.MARK h) v
    else if customCsr n then s.answer .illegal
    else s'.writeStdCsr h (csrReal n mode) v

/-! ### Captures (R141, R437) -/

/-- CAPTURE_HART_RESUME (R437): a paused hart resumes, except after a fatal stop. -/
def execCaptureHartResume (h : Fin 216) (s : State) : Result :=
  if s.get (L.HA_STATUS.STOPPED 0) = 1 then .next s
  else .next { s with paused := s.paused.filter (fun x => x != h.val) }

end Sys2Proof.Machine
end

