-- ==== Sys2Proof/Machine/MemCtl.lean ====
section
/-! DEFINITION. The memory controllers and the inline encryption engines (10). -/

namespace Sys2Proof.Machine

/-! ### Address orders (R228, R33) -/

/-- The end of the HBM range (R33). -/
abbrev hbmEnd : Nat := 0x1800000000

/-- The line number lies in the HBM range. -/
abbrev lineInHbm (l : Nat) : Bool := decide (64 * l < hbmEnd)

/-- Where a line lies: controller, pseudo-channel, bank with its stack ID, row, and column. -/
structure Place where
  mc : Nat
  pc : Nat
  bank : Nat
  row : Nat
  col : Nat
  deriving DecidableEq, Repr

/-- The three address orders (R228). -/
def placeOf (order line : Nat) : Place :=
  let a := 64 * line
  let sid := bits a 36 35
  let pc := bits a 10 10
  let col := bits a 9 6
  if order = 0 then
    ⟨bits a 17 12 ^^^ bits a 23 18 ^^^ bits a 29 24 ^^^ bits a 35 30, pc,
      16 * sid + ((2 * bits a 20 18 + bits a 11 11) ^^^ bits a 24 21), bits a 34 21, col⟩
  else if order = 1 then ⟨bits a 16 11, pc, 16 * sid + bits a 20 17, bits a 34 21, col⟩
  else ⟨bits a 34 29, pc, 16 * sid + bits a 14 11, bits a 28 15, col⟩

/-- The line that lies at a place under an order. -/
def lineAt (order : Nat) (p : Place) : Nat :=
  let sid := p.bank / 16
  let bank := p.bank % 16
  let base := sid <<< 35 + p.pc <<< 10 + p.col <<< 6
  let a :=
    if order = 0 then
      let x := bank ^^^ (p.row % 16)
      let up := base + p.row <<< 21 + (x / 2) <<< 18 + (x % 2) <<< 11
      up + (p.mc ^^^ bits up 23 18 ^^^ bits up 29 24 ^^^ bits up 35 30) <<< 12
    else if order = 1 then base + p.mc <<< 11 + bank <<< 17 + p.row <<< 21
    else base + bank <<< 11 + p.row <<< 15 + p.mc <<< 29
  a / 64

/-- The place of a line under the order in force. -/
def State.placeOf (s : State) (line : Nat) : Place := Machine.placeOf (s.get (L.MC_MAP.ORDER 0)) line

/-- The controller of a line, and its home (R21). -/
def State.mcOf (s : State) (line : Nat) : Nat := (s.placeOf line).mc
def State.homeOf (s : State) (line : Nat) : Nat := s.mcOf line / 2

/-! ### A controller -/

abbrev mcLog (m : Nat) : Nat := 65 + m
abbrev xeLog (m : Nat) : Nat := 129 + m
abbrev State.mcSt (s : State) (m : Nat) : Mc := SMap.get s.mc m
def State.setMc (s : State) (m : Nat) (x : Mc) : State := { s with mc := SMap.set s.mc m x }
def State.mcEvent (s : State) (m : Nat) (l : Loc) : State := s.event (mcLog m) l (R.MC_EVT_EN m)

abbrev mcOff : Nat := 0
abbrev mcStart : Nat := 1
abbrev mcNormal : Nat := 2
abbrev mcTest : Nat := 3
abbrev mcRecovery : Nat := 4
abbrev mcFailed : Nat := 5

abbrev State.mcMode (s : State) (m : Nat) : Nat := s.get (L.MC_STATUS.MODE m)

/-- Time in panic so far, in ns (MC_QOS_CNT.PANIC_US). -/
def State.panicTime (s : State) (m : Nat) : Nat :=
  (s.mcSt m).panicNs + (if s.get (L.MC_STATUS.PANIC m) = 1 then s.up - (s.mcSt m).panicAt else 0)

/-- PANIC follows the entries of RT (R232). -/
def State.panicCheck (s : State) (m : Nat) : State :=
  let n := (s.mcSt m).rt.length
  if s.get (L.MC_STATUS.PANIC m) = 0 then
    if s.get (L.MC_QOS.PANIC_ON m) ≤ n then
      let s := ((s.put (L.MC_STATUS.PANIC m) 1).inc (L.MC_QOS_CNT.PANIC m)).mcEvent m (L.MC_EVT.PANIC m)
      s.setMc m { s.mcSt m with panicAt := s.up }
    else s
  else if n ≤ s.get (L.MC_QOS.PANIC_OFF m) then
    let t := s.panicTime m
    (s.put (L.MC_STATUS.PANIC m) 0).setMc m { s.mcSt m with panicNs := t }
  else s

/-- The occupancy fields and PANIC follow the queues. -/
def State.mcSync (s : State) (m : Nat) : State :=
  let x := s.mcSt m
  ((s.put (L.MC_STATUS.WQ_USED m) x.wq.length).put (L.MC_STATUS.RT_USED m) x.rt.length).panicCheck m

/-- Reads that a controller leaving service still holds are answered with an error response (R229), and what waits to be
written is gone. -/
def State.mcAbandon (s : State) (m : Nat) : State :=
  let x := s.mcSt m
  let lost := (x.issued ++ x.rt ++ x.cr ++ x.bk).map (fun e => { e with ans := ⟨true, zeros 64, false⟩, ecc := 0 })
  (s.setMc m { x with
    issued := lost, rt := [], cr := [], bk := [], wq := [], fixes := [], retry := [], batch := [], draining := false,
    rows := [], rowHit := [] }).mcSync m

/-- The mode takes a value (Table 10.2): a change sets MODE_CHG, a window closes on leaving NORMAL, OWED starts at 0, what the controller
held is answered unless it serves on, and the schedule records follow. -/
def State.setMode (s : State) (m mode : Nat) : State :=
  let was := s.mcMode m
  let s := s.put (L.MC_STATUS.MODE m) mode
  let s := (s.put (L.MC_STATUS.WIN_OPEN m) 0).put (L.MC_STATUS.OWED m) 0
  let s := if mode = mcOff ∨ mode = mcFailed then s.put (L.MC_STATUS.REPLAY m) 0 else s
  let s := s.when (mode = mcFailed) (fun s => s.setMc m { s.mcSt m with failed := true })
  let s := s.when (mode ≠ mcNormal ∧ mode ≠ mcRecovery) (fun s => s.mcAbandon m)
  (s.when (mode ≠ was) (fun s => s.mcEvent m (L.MC_EVT.MODE_CHG m))).schedLevels

/-- The controller ends up in a mode with no change under way. -/
def State.settleMode (s : State) (m mode : Nat) : State :=
  (s.setMc m { s.mcSt m with change := .none, refAt := s.up }).setMode m mode

/-- The uncorrected errors of the words of a line in its stack: 1 correctable, 2 uncorrectable. -/
def eccMem (line : Nat) : Nat := 2 ^ 66 + line

/-- Every byte of the channel becomes zero, with good check bits, and no line is poisoned (step 9 of R238). -/
def State.zeroChannel (s : State) (m : Nat) : State :=
  { s with mc := SMap.set s.mc m { s.mcSt m with lost := none, known := [] },
           mem := s.mem.filter (fun c => !(decide (c.1 < hbmEnd) && s.mcOf (c.1 / 64) == m)),
           poison := s.poison.filter (fun p => !(s.mcOf p.1 == m)),
           ecc := s.ecc.filter (fun p => !(decide (eccMem 0 ≤ p.1) && s.mcOf (p.1 - eccMem 0) == m)) }

/-! ### Encryption (R240, R241) -/

/-- The lowest-numbered enabled region that covers an address. -/
def State.xeRegion (s : State) (a : Nat) : Option Nat :=
  firstBelow 16 (fun r =>
    let z := s.get (L.XE_REGION.LOG2SZ 0 r)
    s.get (L.XE_REGION.EN 0 r) = 1 && a >>> z == (s.get (L.XE_REGION.BASE 0 r) <<< 21) >>> z)

/-- How the engine treats a line: in the clear, under a key, or refused. -/
inductive XeUse where
  | clear | key (k : Bytes) | refused
  deriving DecidableEq, Repr

def State.xeUse (s : State) (line : Nat) : XeUse :=
  match s.xeRegion (64 * line) with
  | none => .clear
  | some r =>
    let i := s.get (L.XE_REGION.INDEX 0 r)
    if (s.get (L.XE_STATUS.KEY_VALID 0)).testBit i then .key (SMap.get s.xeKeys i) else .refused

/-- The bytes of a line as stored; after TEST those of a line not written since are free values (R239). -/
def State.storedLine (s : State) (line : Nat) : Bytes :=
  let x := s.mcSt (s.mcOf line)
  match x.lost with
  | some n =>
    if SMap.get x.known line then (s.readBytes (64 * line) 64).map BitVec.toNat
    else (List.range 64).map (fun i => (Config.freeByte (n * 2 ^ 48 + 64 * line + i)).toNat)
  | none => (s.readBytes (64 * line) 64).map BitVec.toNat

/-- The line as the engine decrypts it. -/
def State.clearLine (s : State) (line : Nat) : Bytes :=
  match s.xeUse line with
  | .key k => xtsCrypt false k line (s.storedLine line)
  | _ => s.storedLine line

/-- The line stored, encrypted by the engine. -/
def State.storeLine (s : State) (line : Nat) (d : Bytes) (poisoned : Bool) : State :=
  let e := match s.xeUse line with
    | .key k => xtsCrypt true k line d
    | _ => d
  let s := s.writeBytes (64 * line) (e.map (BitVec.ofNat 8))
  let m := s.mcOf line
  let s := s.when ((s.mcSt m).lost.isSome = true) (fun s => s.setMc m { s.mcSt m with known := SMap.set (s.mcSt m).known line true })
  { s with poison := SMap.set s.poison line poisoned, ecc := SMap.drop s.ecc (eccMem line) }

/-- A line in the clear is counted; an index without a key is logged under R32 and counted (R240). -/
def State.xeNote (s : State) (line : Nat) (c : Issuer) : State :=
  let m := s.mcOf line
  match s.xeUse line with
  | .clear => s.inc (L.XE_CNT.BYPASS m)
  | .key _ => s
  | .refused => (s.inc (L.XE_CNT.KEY_MISS m)).logRec (xeLog m) Cause.WORLD 0 (64 * line) c 0

/-- An access that the mode of the controller refuses (R229). -/
def State.mcNotReady (s : State) (line : Nat) (c : Issuer) : State :=
  let m := s.mcOf line
  (s.logRec (mcLog m) Cause.NOT_READY (s.mcMode m) (64 * line) c 0).mcEvent m (L.MC_EVT.NOT_READY m)

/-- The controller serves accesses, now or once its recovery ends. -/
def State.mcServes (s : State) (line : Nat) : Bool :=
  let m := s.mcMode (s.mcOf line)
  m == mcNormal || m == mcRecovery

/-- A write of a line can be given to its controller now: WQ has room, or the mode refuses it; in RECOVERY it waits (R229,
R230). -/
def State.writeRoom (s : State) (line : Nat) : Bool :=
  let m := s.mcOf line
  if s.mcMode m = mcRecovery then false else if s.mcMode m = mcNormal then decide ((s.mcSt m).wq.length < 64) else true

/-- A write of the line stands in WQ, from which a read of it is served (R230). -/
def State.inWq (s : State) (line : Nat) : Bool := (s.mcSt (s.mcOf line)).wq.any (fun e => e.line == line)

/-- A row closes at once when a queued entry needs another row of its bank and no hit to it remains (R231). -/
def State.closeRows (s : State) (m : Nat) : State :=
  let x := s.mcSt m
  let q := x.rt ++ x.cr ++ x.bk ++ x.wq
  let at_ := fun (k : Nat) (e : McEnt) => 64 * (s.placeOf e.line).pc + (s.placeOf e.line).bank == k
  let keep := fun (r : Nat × Nat) => !(q.any (fun e => at_ r.1 e && (s.placeOf e.line).row + 1 != r.2)) ||
    q.any (fun e => at_ r.1 e && (s.placeOf e.line).row + 1 == r.2)
  s.setMc m { x with rows := x.rows.filter keep }

/-- A write enters WQ; a row that it needs closed closes (R231). -/
def State.wqAdd (s : State) (m line : Nat) (sealed : Bool) (vi : Option Nat) : State :=
  let x := s.mcSt m
  ((s.setMc m { x with wq := x.wq ++ [⟨line, s.up, sealed, vi, default, 0, 0⟩] }).mcSync m).closeRows m

/-- What a controller counts and records of a read with an error (R237): counts, events, LAST, and the log of an uncorrectable
one. -/
def State.eccCount (s : State) (m line : Nat) (ecc : EccResult) : State :=
  let last := fun (s : State) (k : Nat) =>
    ((s.put (L.MC_ECC_LAST.KIND m) k).put (L.MC_ECC_LAST.PC m) (s.placeOf line).pc).put (L.MC_ECC_LAST.LINE m) line
  match ecc with
  | .clean => s
  | .corrected => last ((s.inc (L.MC_ECC_CNT.CE m)).mcEvent m (L.MC_EVT.ECC_CE m)) 1
  | .uncorrectable =>
    let s := last ((s.inc (L.MC_ECC_CNT.UE m)).mcEvent m (L.MC_EVT.ECC_UE m)) 2
    s.logRec (mcLog m) Cause.UE 0x01 (64 * line) (unitIssuer true) 0

/-- The data of a read as the stack returns it (R237): it is counted, and a corrected line is queued as a write. -/
def State.eccNote (s : State) (m line : Nat) (ecc : EccResult) : State :=
  let s := s.eccCount m line ecc
  match ecc with
  | .corrected =>
    let s := s.dropEcc (eccMem line)
    if (s.mcSt m).wq.length < 64 then s.wqAdd m line true none
    else s.setMc m { s.mcSt m with fixes := (s.mcSt m).fixes ++ [line] }
  | _ => s

/-- The error that the words of a line hold in the stack; a line in WQ is served from there. -/
def State.lineEcc (s : State) (line : Nat) : Nat := if s.inWq line then 0 else SMap.get s.ecc (eccMem line)

/-- How a read of words with an error comes back. -/
def eccResult (e : Nat) : EccResult := if e = 0 then .clean else if e = 1 then .corrected else .uncorrectable

/-- The answer to a read of a line that its controller serves (R237, R240). -/
def State.lineAnswer (s : State) (line : Nat) : LineAns :=
  match s.xeUse line with
  | .refused => ⟨true, zeros 64, false⟩
  | _ => ⟨false, s.clearLine line, SMap.get s.poison line⟩

/-- A read of a line at its controller (R229, R237, R240). -/
def State.memReadLine (s : State) (line : Nat) (c : Issuer) : State × LineAns :=
  if s.mcServes line then
    let a := s.lineAnswer line
    if a.err then (s.xeNote line c, a)
    else
      let e := s.lineEcc line
      ((s.xeNote line c).eccNote (s.mcOf line) line (eccResult e), { a with poison := a.poison || e == 2 })
  else (s.mcNotReady line c, ⟨true, zeros 64, false⟩)

/-- The line that a masked write merges into, as its controller reads it for the write (R172, R237); the write puts right what was
wrong with it. -/
def State.mergeLine (s : State) (line : Nat) : State × Bytes × Bool :=
  let a := s.lineAnswer line
  if s.mcServes line = false ∨ a.err then (s, zeros 64, false)
  else (s.eccCount (s.mcOf line) line (eccResult (s.lineEcc line)), a.data, a.poison || s.lineEcc line == 2)

/-- A write of a line at its controller: performed when WQ takes it, which the answer says (R230). -/
def State.memWriteLine (s : State) (line : Nat) (d : Bytes) (poisoned : Bool) (c : Issuer) : State × Bool :=
  if s.mcServes line then
    match s.xeUse line with
    | .refused => (s.xeNote line c, false)
    | _ => (((s.xeNote line c).storeLine line d poisoned).wqAdd (s.mcOf line) line c.sealed c.vi, true)
  else (s.mcNotReady line c, false)

/-! ### Refresh (R233 to R235, R110, R111) -/

/-- The refresh interval in force: TREFI over the rate, halved again in START, TEST and RECOVERY. -/
def State.refInterval (s : State) (m : Nat) : Nat :=
  let t := s.get (L.MC_REF_CFG.TREFI m) / 2 ^ s.get (L.MC_STATUS.RATE m)
  if s.mcMode m = mcNormal then t else t / 2

/-- The end of the last REFpb sequence: 48 banks, 8 ns apart, each for TRFC_PB (R233). -/
def State.pbEnd (s : State) (m : Nat) : Nat :=
  let x := s.mcSt m
  if x.pbAt = 0 then 0 else x.pbAt - 1 + 8 * 47 + s.get (L.MC_REF_CFG.TRFC_PB m)

/-- A command leaves for the stack, and is kept for 64 ns (R236). -/
def State.keepCommand (s : State) (m : Nat) (k : McKept) : State :=
  let x := s.mcSt m
  s.setMc m { x with retry := x.retry.filter (fun r => decide (s.up < r.1 + 64)) ++ [(s.up, k)] }

/-- Both pseudo-channels are blocked for an all-bank refresh, once a REFpb sequence that runs is complete (R235). -/
def State.refab (s : State) (m : Nat) : State :=
  let s := s.keepCommand m .refab
  let x := s.mcSt m
  let u := max (max s.up (s.pbEnd m)) (max (SMap.get x.busy 0) (SMap.get x.busy 1)) + s.get (L.MC_REF_CFG.TRFC_AB m)
  s.setMc m { x with busy := SMap.set (SMap.set x.busy 0 u) 1 u, rows := [], rowHit := [] }

/-- A forced refresh (R233): OWED becomes 7; the first of a frame is a REFpb sequence, bank by bank, and every
other one blocks both pseudo-channels. -/
def State.forceRefresh (s : State) (m : Nat) : State :=
  let first : Bool := decide (s.ticking) && s.get (L.MC_REF_CNT.FORCED_CUR m) == 0
  let s := s.put (L.MC_STATUS.OWED m) 7
  let s := ((s.inc (L.MC_REF_CNT.FORCED m)).inc (L.MC_REF_CNT.FORCED_CUR m)).mcEvent m (L.MC_EVT.FORCED m)
  let s := s.pmc uMC m 6 1 true none
  if first then s.setMc m { s.mcSt m with pbAt := max s.up (max (SMap.get (s.mcSt m).busy 0) (SMap.get (s.mcSt m).busy 1)) + 1 }
  else
    let s := s.refab m
    s.when (s.ticking) (fun s => (s.mcEvent m (L.MC_EVT.FORCED2 m)).schedForced (m / 4))

/-- REFRESH_INTERVAL (R233, R234): a boundary adds to OWED and applies a pending change of RATE; OWED 8 outside a
window forces a refresh. -/
def execRefreshInterval (mc : Fin 64) (s : State) : Result :=
  let m := mc.val
  let mode := s.mcMode m
  if mode = mcOff ∨ mode = mcFailed then .next s
  else
    let s := s.elapseUntil ((s.mcSt m).refAt + s.refInterval m)
    let x := s.mcSt m
    let s := s.setMc m { x with refAt := s.up }
    let s := if s.get (L.MC_STATUS.RATE m) = x.rateWant then s
      else (s.put (L.MC_STATUS.RATE m) x.rateWant).mcEvent m (L.MC_EVT.TEMP_RATE m)
    if mode = mcNormal then
      let owed := min 8 (s.get (L.MC_STATUS.OWED m) + 1)
      let s := s.put (L.MC_STATUS.OWED m) owed
      if owed = 8 ∧ s.get (L.MC_STATUS.WIN_OPEN m) = 0 then .next (s.forceRefresh m) else .next s
    else .next (s.refab m)

/-- The rate a reading calls for: 2× above 85 °C, 4× above 95 °C, falling only 3 °C below the threshold (R233). -/
def rateFor (was : Nat) (t : Int) : Nat :=
  if 95 < t ∨ (was = 2 ∧ 92 < t) then 2 else if 85 < t ∨ (0 < was ∧ 82 < t) then 1 else 0

/-- STACK_TEMP_READ (R233): every 1 ms. -/
def execStackTempRead (stack : Fin 4) (temp : Int) (s : State) : Result :=
  let ms := (List.range 16).map (fun k => 16 * stack.val + k)
  let s := s.elapseUntil ((ms.map (fun m => (s.mcSt m).tempAt)).foldl max 0)
  .next (s.forAll ms (fun s m =>
    if s.mcMode m = mcOff then s
    else
      let x := s.mcSt m
      (s.put (L.MC_STATUS.TEMP m) (toSigned 8 (clampSigned 8 temp))).setMc m
        { x with rateWant := rateFor x.rateWant temp, tempAt := s.up + 1000000 }))

/-- A group whose controllers are not all in NORMAL, and one whose window is open (R110). -/
def State.groupOff (s : State) (g : Nat) : Bool := (List.range 4).any (fun k => s.mcMode (4 * g + k) != mcNormal)
def State.groupOpen (s : State) (g : Nat) : Bool := (List.range 4).any (fun k => s.get (L.MC_STATUS.WIN_OPEN (4 * g + k)) = 1)

/-- A refresh window of `len` ns opens on the four controllers of a group, at an instant (R110). -/
def State.openWindow (s : State) (g len at_ : Nat) : State :=
  s.forAll ((List.range 4).map (fun k => 4 * g + k)) (fun s m =>
    (s.put (L.MC_STATUS.WIN_OPEN m) 1).setMc m { s.mcSt m with winAt := at_, winEnd := at_ + len })

/-- REFRESH_WINDOW_END (R110, R235): the window closes; OWED 8 forces a refresh in the next nanosecond. -/
def execRefreshWindowEnd (g : Fin 16) (s : State) : Result :=
  if s.groupOpen g then
    let ms := (List.range 4).map (fun k => 4 * g.val + k)
    let s := s.elapseUntil ((ms.map (fun m => (s.mcSt m).winEnd)).foldl max 0)
    let s := s.forAll ms (fun s m => s.put (L.MC_STATUS.WIN_OPEN m) 0)
    let due := ms.filter (fun m => s.get (L.MC_STATUS.OWED m) = 8)
    if due = [] then .next s else .next ((s.elapse 1).forAll due State.forceRefresh)
  else .next s

/-! ### Queues and scheduling (R230 to R232) -/

/-- A read enters its queue (R230), with what memory holds now: accesses to one line keep their order. -/
def State.mcAccept (s : State) (m : Nat) (r : McReq) : State :=
  let x := s.mcSt m
  let e : McEnt := ⟨r.line, s.up, r.sealed, r.vi, s.lineAnswer r.line, s.lineEcc r.line, r.id⟩
  let x := if r.cls = 0 then { x with rt := x.rt ++ [e] } else if r.cls = 1 then { x with cr := x.cr ++ [e] }
    else { x with bk := x.bk ++ [e] }
  (s.setMc m x).mcSync m

/-- The queue of the request has no room. -/
def State.mcFull (s : State) (m : Nat) (r : McReq) : Bool :=
  let x := s.mcSt m
  if r.write then decide (64 ≤ x.wq.length)
  else if r.cls = 0 then decide (16 ≤ x.rt.length)
  else if r.cls = 1 then decide (32 ≤ x.cr.length)
  else decide (32 ≤ x.bk.length)

/-- Bank `b` of the controller has been refreshed by REFpb since `t`. -/
def State.pbPassed (s : State) (m b t : Nat) : Bool :=
  let a := (s.mcSt m).pbAt
  a != 0 && decide (t ≤ a - 1 + 8 * b ∧ a - 1 + 8 * b ≤ s.up)

/-- The entry hits the open row of its bank, which has not been idle for PAGE_IDLE ns nor refreshed (R231, R233). -/
def State.rowHits (s : State) (m : Nat) (e : McEnt) : Bool :=
  let p := s.placeOf e.line
  let k := 64 * p.pc + p.bank
  let x := s.mcSt m
  SMap.get x.rows k == p.row + 1 && decide (s.up ≤ SMap.get x.rowHit k + s.get (L.MC_QOS.PAGE_IDLE m)) &&
    !s.pbPassed m p.bank (SMap.get x.rowHit k)

/-- The bank of the entry is free at a time: no REFpb blocks it (R233). -/
def State.bankFree (s : State) (m : Nat) (e : McEnt) (t : Nat) : Bool :=
  let a := (s.mcSt m).pbAt
  let b := (s.placeOf e.line).bank
  a == 0 || decide (t < a - 1 + 8 * b ∨ a - 1 + 8 * b + s.get (L.MC_REF_CFG.TRFC_PB m) ≤ t)

/-- The end of the REFpb of the entry's bank. -/
def State.bankUntil (s : State) (m : Nat) (e : McEnt) : Nat :=
  (s.mcSt m).pbAt - 1 + 8 * (s.placeOf e.line).bank + s.get (L.MC_REF_CFG.TRFC_PB m)

/-- The first entry of a pseudo-channel by age, row hit and order (R231). -/
def State.pickEnt (s : State) (m pc : Nat) (starve : Bool) (q : List McEnt) : Option McEnt :=
  let q := q.filter (fun e => (s.placeOf e.line).pc == pc && s.bankFree m e s.up)
  let old := if starve then q.find? (fun e => decide (e.at_ + s.get (L.MC_QOS.STARVE m) < s.up)) else none
  match old with
  | some e => some e
  | none => match q.find? (s.rowHits m) with
    | some e => some e
    | none => q.head?

/-- The row of the line is open and was hit now. -/
def State.openRow (s : State) (m : Nat) (e : McEnt) : State :=
  let p := s.placeOf e.line
  let k := 64 * p.pc + p.bank
  let x := s.mcSt m
  s.setMc m { x with rows := SMap.set x.rows k (p.row + 1), rowHit := SMap.set x.rowHit k s.up }

/-- A read leaves its queue for the stack. -/
def State.issueRead (s : State) (m : Nat) (e : McEnt) : State :=
  let x := s.mcSt m
  let s := s.pmc uMC m 1 1 e.sealed e.vi
  let s := s.when (x.rt.contains e = true) (fun s => s.pmc uMC m 2 1 e.sealed e.vi)
  let s := s.when (s.rowHits m e = true) (fun s => s.pmc uMC m 3 1 e.sealed e.vi)
  let cr := if x.rt.contains e then x.cr else x.cr.erase e
  let bk := if x.rt.contains e || x.cr.contains e then x.bk else x.bk.erase e
  let s := s.setMc m { x with rt := x.rt.erase e, cr := cr, bk := bk, issued := x.issued ++ [e] }
  ((((s.openRow m e).keepCommand m (.access e))).mcSync m).closeRows m

/-- A write leaves WQ for the stack, and a corrected line that waits takes its place. -/
def State.issueWrite (s : State) (m : Nat) (e : McEnt) : State :=
  let x := s.mcSt m
  let s := s.pmc uMC m 4 1 e.sealed e.vi
  let s := s.when (s.rowHits m e = true) (fun s => s.pmc uMC m 3 1 e.sealed e.vi)
  let wq := x.wq.erase e
  let s := s.setMc m { x with wq := wq, draining := x.draining && decide (s.get (L.MC_QOS.WR_LO m) < wq.length), fixes := x.fixes.drop 1 }
  let s := s.forAll (x.fixes.take 1) (fun s l => s.wqAdd m l true none)
  ((((s.openRow m e).keepCommand m (.access e))).mcSync m).closeRows m

/-- The refresh that a window pays now: all-bank, while OWED is above 0 and it ends inside the window, once the
reserved reads accepted before the window have been served or GUARD has run out (R233). -/
def State.windowRefreshDue (s : State) (m : Nat) : Bool :=
  let x := s.mcSt m
  s.get (L.MC_STATUS.WIN_OPEN m) = 1 && decide (0 < s.get (L.MC_STATUS.OWED m)) && decide (s.pbEnd m ≤ s.up) &&
    decide (s.up + s.get (L.MC_REF_CFG.TRFC_AB m) ≤ x.winEnd) &&
    (!(x.rt.any (fun e => decide (e.at_ < x.winAt))) || decide (x.winAt + s.get (L.MC_REF_CFG.GUARD m) ≤ s.up))

/-! ### Training and mode requests (R238, R239) -/

/-- A change of mode that runs starts now. -/
def State.startChange (s : State) (m mode : Nat) (ch : McChange) : State :=
  let s := s.settleMode m mode
  s.setMc m { s.mcSt m with change := ch, changeAt := s.up }

/-- The controller's stack reset is released and training runs (step 1 of R238); refresh and temperature readings begin 200 µs
later, at step 2. -/
def State.mcTrainStart (s : State) (m : Nat) : State :=
  let s := s.setMc m { (default : Mc) with issued := (s.mcSt m).issued }
  let s := (s.mcSync m).startChange m mcStart .train
  s.setMc m { s.mcSt m with refAt := s.up + 200000, tempAt := s.up + 200000 }

/-- MC_TRAIN (R238): while the controller's domain is on or comes on. -/
def execMcTrain (mc : Fin 64) (s : State) : Result :=
  if s.mcMode mc = mcOff ∧ s.domPowered (25 + mc / 16) then .next (s.mcTrainStart mc) else .next s

/-- The results of the sweeps are stored; every lane must reach MIN_EYE (R238). -/
def State.storeEyes (s : State) (m : Nat) (lanes : List LaneEye) : State :=
  let e := s.get (L.MC_TRAIN_CFG.MIN_EYE m)
  (lanes.take 8).zipIdx.foldl (fun s p =>
    let n := p.2
    let x := p.1
    let s := (s.put (L.MC_TRAIN_LANE.RD_CTR m n) x.rdCtr).put (L.MC_TRAIN_LANE.RD_WIDTH m n) x.rdWidth
    let s := (s.put (L.MC_TRAIN_LANE.WR_CTR m n) x.wrCtr).put (L.MC_TRAIN_LANE.WR_WIDTH m n) x.wrWidth
    let s := (s.put (L.MC_TRAIN_LANE.RD_VREF m n) x.rdVref).put (L.MC_TRAIN_LANE.WR_VREF m n) x.wrVref
    s.put (L.MC_TRAIN_LANE.PASS m n) (if e ≤ x.rdWidth ∧ e ≤ x.wrWidth then 1 else 0)) s

/-- The parity error that step 8 of R238 injects: the alert and its replay, or, in a replay that runs, the failure (R236). The
answer says that the step passed. -/
def State.injectedAlert (s : State) (m : Nat) : State × Bool :=
  let s := (s.inc (L.MC_PAR_CNT.ALERT m)).mcEvent m (L.MC_EVT.PAR_ALERT m)
  if s.get (L.MC_STATUS.REPLAY m) = 1 then ((s.mcEvent m (L.MC_EVT.REPLAY_FAIL m)).put (L.MC_STATUS.REPLAY m) 0, false)
  else (s.inc (L.MC_PAR_CNT.REPLAY m), true)

/-- The steps of training whose outcome a command brings (R238): the eyes, then the injected error. -/
def State.trainSteps (s : State) (m : Nat) (ok : Bool) (lanes : List LaneEye) : State × Bool :=
  let s := s.storeEyes m lanes
  if ok ∧ (List.range 8).all (fun n => s.get (L.MC_TRAIN_LANE.PASS m n) = 1) then s.injectedAlert m else (s, false)

/-- MC_TRAIN_DONE (R238, R239): training, or the zero fill of a controller leaving TEST, ends. -/
def execMcTrainDone (mc : Fin 64) (ok : Bool) (lanes : List LaneEye) (s : State) : Result :=
  let m := mc.val
  let x := s.mcSt m
  if s.mcMode m = mcStart then
    match x.change with
    | .train =>
      let r := s.trainSteps m ok lanes
      if r.2 then .next (((r.1.elapseUntil (x.changeAt + 36700000)).zeroChannel m).settleMode m mcNormal)
      else .next ((r.1.settleMode m mcFailed).mcEvent m (L.MC_EVT.TRAIN_FAIL m))
    | .leaveTest =>
      if ok then .next ((s.zeroChannel m).settleMode m mcNormal)
      else .next ((s.settleMode m mcFailed).mcEvent m (L.MC_EVT.TRAIN_FAIL m))
    | _ => .next s
  else .next s

/-- A write of MC_CTRL (R239): a request that the mode does not allow is a violation and leaves the controller. -/
def State.writeMcCtrl (s : State) (m : Nat) (c : Issuer) (v : Nat) : State :=
  let mode := s.mcMode m
  let req := bits v 1 0
  if (req = 1 ∨ req = 2) ∧ mode ≠ mcNormal ∨ req = 3 ∧ mode ≠ mcTest then
    s.otherViolation (mcLog m) (R.MC_CTRL m) c
  else
    let s := s.put (L.MC_CTRL.AUTO_RECOVER m) (bits v 8 8)
    if req = 1 then
      let s := s.settleMode m mcTest
      (s.setMc m { s.mcSt m with lost := some s.free, known := [] }).useFree
    else if req = 2 then s.startChange m mcRecovery .recovery
    else if req = 3 then s.startChange m mcStart .leaveTest
    else s

/-- Writes of MC_ registers come from the Sealed world (R244). -/
def State.mcGuard (s : State) (m : Nat) (c : Issuer) (key : Nat) (f : State → State) : State :=
  if c.sealed then f (s.answer .ok) else s.worldError (mcLog m) (regAddr key) c

/-- MC_REQ_TEST (R239). -/
def execMcReqTest (c : Issuer) (mc : Fin 64) (v : Word) (s : State) : Result :=
  .next (s.issue c (fun c s => s.mcGuard mc c (R.MC_CTRL mc) (fun s => s.writeMcCtrl mc c v.toNat)))

/-- MC_REQ_RECOVERY (R239). -/
def execMcReqRecovery (c : Issuer) (mc : Fin 64) (v : Word) (s : State) : Result :=
  .next (s.issue c (fun c s => s.mcGuard mc c (R.MC_CTRL mc) (fun s => s.writeMcCtrl mc c v.toNat)))

/-- MC_REQ_LEAVE_TEST (R239). -/
def execMcReqLeaveTest (c : Issuer) (mc : Fin 64) (v : Word) (s : State) : Result :=
  .next (s.issue c (fun c s => s.mcGuard mc c (R.MC_CTRL mc) (fun s => s.writeMcCtrl mc c v.toNat)))

/-- The address order changes (R228): what the stacks hold stays where it lies, and each line is what its place holds. -/
def State.remap (s : State) (order : Nat) : State :=
  let was := s.get (L.MC_MAP.ORDER 0)
  let dest := fun (l : Nat) => lineAt order (Machine.placeOf was l)
  let cells := s.mem.filter (fun c => decide (c.1 < hbmEnd))
  let t := { s with
    mem := s.mem.filter (fun c => !decide (c.1 < hbmEnd))
    poison := s.poison.foldl (fun (p : SMap Bool) (e : Nat × Bool) => SMap.set p (if lineInHbm e.1 then dest e.1 else e.1) e.2) []
    ecc := s.ecc.foldl (fun (p : SMap Nat) (e : Nat × Nat) =>
      SMap.set p (if eccMem 0 ≤ e.1 then eccMem (dest (e.1 - eccMem 0)) else e.1) e.2) [] }
  (t.forAll cells (fun t c => t.writeByte (64 * dest (c.1 / 64) + c.1 % 64) c.2)).put (L.MC_MAP.ORDER 0) order

/-- A write of an MC_ register with a rule of its own (R228, R232, R244). -/
def State.writeMc (s : State) (r : Reg) (m : Nat) (c : Issuer) (v : Nat) : Option State :=
  match r with
  | .MC_MAP =>
    some (if m ≠ 0 then s
      else if bits v 1 0 = 3 then s.reservedEnc (mcLog 0) (R.MC_MAP 0) c
      else if (List.range 64).any (fun k => s.mcMode k == mcNormal || s.mcMode k == mcTest || s.mcMode k == mcRecovery) then
        s.forbidden (mcLog 0) (R.MC_MAP 0) c
      else s.remap (bits v 1 0))
  | .MC_CTRL => some (s.writeMcCtrl m c v)
  | .MC_REF_CFG => if s.mcMode m ≤ mcStart then none else some (s.forbidden (mcLog m) (R.MC_REF_CFG m) c)
  | .MC_TRAIN_CFG => if s.mcMode m ≤ mcStart then none else some (s.forbidden (mcLog m) (R.MC_TRAIN_CFG m) c)
  | .MC_QOS =>
    some (if bits v 4 0 ≤ bits v 12 8 then s.forbidden (mcLog m) (R.MC_QOS m) c
      else if bits v 4 0 = 0 ∨ 16 < bits v 4 0 ∨ bits v 22 16 = 0 ∨ 63 < bits v 22 16 then
        s.reservedEnc (mcLog m) (R.MC_QOS m) c
      else
        let s := ((s.put (L.MC_QOS.PAGE_IDLE m) (bits v 55 48)).put (L.MC_QOS.STARVE m) (bits v 47 32)).put
          (L.MC_QOS.WR_LO m) (bits v 30 24)
        let s := ((s.put (L.MC_QOS.WR_HI m) (bits v 22 16)).put (L.MC_QOS.PANIC_OFF m) (bits v 12 8)).put
          (L.MC_QOS.PANIC_ON m) (bits v 4 0)
        s.panicCheck m)
  | _ => none

/-! ### Key loads (R242, R342) -/

/-- The status that a load gives (XE_KEYRES): slot empty, slot or index of the other world, slot not an XTS key. -/
def State.xeLoadStatus (s : State) (l : XeLoad) (busOk : Bool) : Nat :=
  let idxOk : Bool := if l.sealed then decide (l.index < 8) else decide (8 ≤ l.index)
  if l.clear then (if idxOk then 0 else 2)
  else if s.get (L.KS_SLOT.KIND l.slot) = 0 ∨ ¬ busOk then 1
  else if s.ownerSealed (.ks l.slot) ≠ l.sealed ∨ ¬ idxOk then 2
  else if s.get (L.KS_SLOT.KIND l.slot) ≠ 3 ∨ (s.get (L.KS_SLOT.USAGE l.slot)).testBit 0 = false then 3
  else 0

/-- KEY_VALID of every engine. -/
def State.setKeyValid (s : State) (i : Nat) (b : Bool) : State :=
  s.forAll (List.range 64) (fun s m => s.putBit (L.XE_STATUS.KEY_VALID m) i b)

/-- A load with CLEAR erases its index when it starts. -/
def State.xeStart (s : State) : State :=
  match s.xeLoads with
  | l :: _ =>
    if l.clear ∧ s.xeLoadStatus l true = 0 then
      { s.setKeyValid l.index false with xeKeys := SMap.set s.xeKeys l.index [] }
    else s
  | [] => s

/-- The loads in order of their GO, the Sealed world's first when two meet in one nanosecond (R242). -/
def queueLoad (l : XeLoad) : List XeLoad → List XeLoad
  | [] => [l]
  | [x] => if l.sealed ∧ ¬ x.sealed ∧ x.at_ = l.at_ then [l, x] else [x, l]
  | x :: y :: t => x :: queueLoad l (y :: t)

/-- A write of XE_KEYLOAD: a GO while the world's previous load has not reached READY is a violation (R242). -/
def State.writeXeKeyload (s : State) (c : Issuer) (v : Nat) : State :=
  let w := c.sealed
  if v.testBit 63 then
    if s.xeLoads.any (fun l => l.sealed == w) then s.goEarly (xeLog 0) (R.XE_KEYLOAD w 0) c
    else
      let l : XeLoad := ⟨w, bits v 7 0, bits v 19 16, v.testBit 20, s.up⟩
      let s := (s.put (L.XE_KEYRES.READY w 0) 0).put (L.XE_KEYRES.STATUS w 0) 0xFF
      ({ s with xeLoads := queueLoad l s.xeLoads }).xeStart
  else s

/-- XE_KEYLOAD (R242). -/
def execXeKeyload (c : Issuer) (v : Word) (s : State) : Result :=
  .next (s.issue c (fun c s => (s.answer .ok).writeXeKeyload c v.toNat))

/-- XE_KEY_CLEAR (R242). -/
def execXeKeyClear (c : Issuer) (v : Word) (s : State) : Result :=
  .next (s.issue c (fun c s => (s.answer .ok).writeXeKeyload c v.toNat))

/-- XE_KEYLOAD_DONE (R242): every engine holds the key, and the world's result reads READY. -/
def execXeKeyloadDone (busOk : Bool) (s : State) : Result :=
  match s.xeLoads with
  | [] => .next s
  | l :: t =>
    let st := s.xeLoadStatus l busOk
    let s := if st = 0 ∧ ¬ l.clear then
        { s.setKeyValid l.index true with xeKeys := SMap.set s.xeKeys l.index (SMap.get s.slotKey l.slot) }
      else s
    let s := (s.put (L.XE_KEYRES.READY l.sealed 0) 1).put (L.XE_KEYRES.STATUS l.sealed 0) st
    .next ({ s with xeLoads := t }).xeStart

/-- A write of XE_KEYRES: ACK clears the world's result (R242). -/
def State.writeXeKeyres (s : State) (c : Issuer) (v : Nat) : State :=
  if v.testBit 62 ∧ s.get (L.XE_KEYRES.READY c.sealed 0) = 1 then
    (s.put (L.XE_KEYRES.READY c.sealed 0) 0).put (L.XE_KEYRES.STATUS c.sealed 0) 0xFF
  else s

/-- XE_KEYRES_ACK (R242). -/
def execXeKeyresAck (c : Issuer) (v : Word) (s : State) : Result :=
  .next (s.issue c (fun c s => (s.answer .ok).writeXeKeyres c v.toNat))

/-- A write of an XE_ register with a rule of its own (R241, R245). -/
def State.writeXe (s : State) (r : Reg) (i n : Nat) (c : Issuer) (v : Nat) : Option State :=
  match r with
  | .XE_KEYLOAD => some (if i = 0 then s.writeXeKeyload c v else s.forbidden (xeLog i) (R.XE_KEYLOAD true i) c)
  | .XE_KEYRES => some (if i = 0 then s.writeXeKeyres c v else s.forbidden (xeLog i) (R.XE_KEYRES true i) c)
  | .XE_REGION =>
    some (if i ≠ 0 ∨ v.testBit 62 = false ∧ bits v 3 0 < 8 then s.forbidden (xeLog i) (R.XE_REGION i n) c
      else
        let z := bits v 55 50
        let s := (s.put (L.XE_REGION.EN 0 n) (bits v 63 63)).put (L.XE_REGION.WORLD 0 n) (bits v 62 62)
        let s := s.put (L.XE_REGION.LOG2SZ 0 n) (if z < 21 then 21 else if 37 < z then 37 else z)
        (s.put (L.XE_REGION.BASE 0 n) (bits v 47 21)).put (L.XE_REGION.INDEX 0 n) (bits v 3 0))
  | _ => none

end Sys2Proof.Machine
end

