-- ==== Sys2Proof/Machine/Caches.lean ====
section
/-! DEFINITION. The caches of the compute dies (06): geometry, replacement, policies, the lines of each structure, and
the prefetch streams. What crosses the ring or leaves the die is in Coherence. -/

namespace Sys2Proof.Machine

/-! ### Geometry (R143, R144) -/

/-- The structures of a die: L1D of hart k at k, L1I at 18 + k, L2 of cluster c at 36 + c, L3 slice s at 45 + s. -/
abbrev uL1d (k : Nat) : Nat := k
abbrev uL1i (k : Nat) : Nat := 18 + k
abbrev uL2 (c : Nat) : Nat := 36 + c
abbrev uL3 (sl : Nat) : Nat := 45 + sl

/-- The slice of a line (R144). -/
def sliceOf (l : Nat) : Nat := bits l 1 0 ^^^ bits l 13 12 ^^^ bits l 25 24 ^^^ bits l 37 36

/-- The sets of a structure. -/
def setsOf (u : Nat) : Nat := if u < 36 then 64 else if u < 45 then 2048 else 12288

/-- The set of a line in a structure. -/
def setOf (u l : Nat) : Nat := if u < 45 then l % setsOf u else l / 4 % 12288

def cacheKey (d u set way : Nat) : Nat := ((d * 64 + u) * 16384 + set) * 16 + way

/-- Marks of `State.ecc` on a tag and on the data of a way, and on a transaction entry of a slice (R143). -/
def eccTag (key : Nat) : Nat := 2 ^ 61 + key
def eccData (key : Nat) : Nat := 2 ^ 64 + key
def eccSlice (key : Nat) : Nat := 2 ^ 63 + key

/-- The line in a way; data with an uncorrectable error is poisoned (R143, R429). -/
def State.cline (s : State) (d u set way : Nat) : CLine :=
  let x := SMap.get s.cache (cacheKey d u set way)
  { x with poison := x.poison || SMap.get s.ecc (eccData (cacheKey d u set way)) == 2 }
/-- A line written into a way, with new code. -/
def State.setCline (s : State) (d u set way : Nat) (x : CLine) : State :=
  let k := cacheKey d u set way
  { s with
    cache := SMap.set s.cache k x
    ecc := SMap.drop (SMap.drop s.ecc (eccTag k)) (eccData k) }

/-- The way that holds a line. -/
def State.findWay (s : State) (d u l : Nat) : Option Nat :=
  firstBelow 16 (fun w => let x := s.cline d u (setOf u l) w; x.valid && x.line == l)

/-- The copy of a line in a structure. -/
def State.copyIn (s : State) (d u l : Nat) : Option CLine := (s.findWay d u l).map (s.cline d u (setOf u l))

/-- The copy changes, if there is one. -/
def State.changeCopy (s : State) (d u l : Nat) (f : CLine → CLine) : State :=
  match s.findWay d u l with
  | some w => s.setCline d u (setOf u l) w (f (s.cline d u (setOf u l) w))
  | none => s

/-- The copy goes. -/
def State.dropCopy (s : State) (d u l : Nat) : State := s.changeCopy d u l (fun _ => default)

/-! ### Protected words (R143) -/

def sliceKey (d l : Nat) : Nat := d * 2 ^ 42 + l

/-- The mark at `k` lies on a word that a lookup of the line in die `d` reads: a tag of its set, the data of a way that holds it, or
its transaction entry. -/
def State.dieWord (s : State) (d l k : Nat) : Bool :=
  let data : Bool := decide (eccData 0 ≤ k ∧ k < eccMem 0)
  let tag : Bool := decide (eccTag 0 ≤ k ∧ k < 2 ^ 62)
  let x := if data then k - eccData 0 else k - eccTag 0
  let u := x / 16 / 16384 % 64
  k == eccSlice (sliceKey d l) ||
    (data || tag) && x / 16 / 16384 / 64 == d && (decide (u < 45) || u == uL3 (sliceOf l)) && x / 16 % 16384 == setOf u l &&
      (tag || (SMap.get s.cache x).valid && (SMap.get s.cache x).line == l)

/-- The single-bit errors that the lookup meets are corrected, and logged (R143). -/
def State.dieCorrect (s : State) (d l : Nat) : State :=
  s.forAll (s.ecc.filter (fun p => p.2 == 1 && s.dieWord d l p.1)) (fun s p =>
    (s.dropEcc p.1).logRec (dieLog d) Cause.CE 0x03 (64 * l) (unitIssuer true) 0)

/-- A way of an L1 cache whose tag has an uncorrectable error is given up, and logged; the copy of a modified line in its L2 is
then poisoned. -/
def State.dropBadL1 (s : State) (d l : Nat) : State :=
  s.forAll (s.ecc.filter (fun p => p.2 == 2 && s.dieWord d l p.1 && decide (p.1 < 2 ^ 62) &&
      decide ((p.1 - eccTag 0) / 16 / 16384 % 64 < 36))) (fun s p =>
    let k := p.1 - eccTag 0
    let u := k / 16 / 16384 % 64
    let x := s.cline d u (k / 16 % 16384) (k % 16)
    let s := s.logRec (dieLog d) Cause.UE 0x03 (64 * l) (unitIssuer true) 0
    let s := s.setCline d u (k / 16 % 16384) (k % 16) default
    s.when (x.valid = true ∧ x.st = 2 ∧ u < 18) (fun s => s.changeCopy d (uL2 (u / 2)) x.line (fun y => { y with st := 2, poison := true })))

/-- A lookup of a line in a die puts right what it can (R143). -/
def State.dieLook (s : State) (d l : Nat) : State := (s.dieCorrect d l).dropBadL1 d l

/-! ### Replacement (R150) -/

/-- The ways below a node of the tree. -/
def waysUnder (n : Nat) : List Nat :=
  let w := 16 / 2 ^ Nat.log2 n
  (List.range w).map (fun i => (n - 2 ^ Nat.log2 n) * w + i)

/-- The walk down the tree from node `n`, which never enters a subtree without an allowed way. -/
def plruWalk (tree : Nat) (allowed : Nat → Bool) : Nat → Nat → Nat
  | 0, n => n - 16
  | f + 1, n =>
    let l := (waysUnder (2 * n)).any allowed
    let r := (waysUnder (2 * n + 1)).any allowed
    plruWalk tree allowed f (if l && r then 2 * n + (if tree.testBit n then 1 else 0) else if l then 2 * n else 2 * n + 1)

/-- The victim among the allowed ways. -/
def plruVictim (tree : Nat) (valid allowed : Nat → Bool) : Option Nat :=
  match firstBelow 16 (fun w => allowed w && !valid w) with
  | some w => some w
  | none => if (List.range 16).any allowed then some (plruWalk tree allowed 4 1) else none

/-- The tree after an access to way `w`: every node on its path points away. -/
def plruTouch (tree w : Nat) : Nat :=
  (List.range 4).foldl (fun t k =>
    let n := (w + 16) / 2 ^ k
    let p := n / 2
    if n % 2 = 0 then setBit t p else clearBit t p) tree

/-- The tree of a set; in L3, of a set and a world. -/
def plruKey (d u set : Nat) (sealed : Bool) : Nat :=
  ((d * 64 + u) * 2 + (if 45 ≤ u ∧ sealed then 1 else 0)) * 16384 + set

/-- The owner of a way of an L3 slice is the Sealed world. -/
def State.wayOwner (s : State) (d sl w : Nat) : Bool := (s.get (L.WLD_L3WAY.OWNER d sl)).testBit w

/-- The world whose tree an access to a way moves. -/
def State.treeWorld (s : State) (d u w : Nat) : Bool := 45 ≤ u && s.wayOwner d (u - 45) w

/-- An access to a way. -/
def State.touchWay (s : State) (d u set w : Nat) : State :=
  let k := plruKey d u set (s.treeWorld d u w)
  { s with plru := SMap.set s.plru k (plruTouch (SMap.get s.plru k) w) }

/-- A hit of a line. -/
def State.hit (s : State) (d u l : Nat) : State :=
  match s.findWay d u l with
  | some w => s.touchWay d u (setOf u l) w
  | none => s

/-! ### Policies (R146, R147) -/

/-- The entry of a region table that decides, as a register word. -/
def State.wpolEntry (s : State) (d : Nat) (sealed : Bool) (a : Nat) : Option Word :=
  ((List.range 4).map (fun n => s.rd (if sealed then R.WLD_WPOL_S d n else R.WLD_WPOL_O d n))).find? (fun w =>
    let z := fieldOf w 48 6
    w.toNat.testBit 63 && a >>> z == (fieldOf w 12 36 <<< 12) >>> z)

/-- The policy of a line for a world: 0 WB, 1 WT, 2 WNA, 3 NL3. -/
def State.policy (s : State) (d : Nat) (sealed : Bool) (l : Nat) : Nat :=
  match s.wpolEntry d sealed (64 * l) with
  | some w => fieldOf w 0 2
  | none => 0

/-- Prefetch is off for the region of a line. -/
def State.pfOff (s : State) (d : Nat) (sealed : Bool) (l : Nat) : Bool :=
  match s.wpolEntry d sealed (64 * l) with
  | some w => w.toNat.testBit 2
  | none => false

/-! ### Slices (R158, R166) -/

abbrev State.sliceTxn (s : State) (d l : Nat) : SliceTxn := SMap.get s.slices (sliceKey d l)
def State.setSliceTxn (s : State) (d l : Nat) (x : SliceTxn) : State :=
  { s with slices := SMap.set s.slices (sliceKey d l) x }

/-- The line has an open transaction in its slice. -/
def State.lineBusy (s : State) (d l : Nat) : Bool := (s.sliceTxn d l).st != SliceSt.stable

/-- Entries of a slice in use, and its eviction buffers in use. -/
def State.sliceUsed (s : State) (d sl : Nat) (p : SliceTxn → Bool) : Nat :=
  (s.slices.filter (fun e => e.1 / 2 ^ 42 == d && sliceOf (e.1 % 2 ^ 42) == sl && p e.2)).length

def State.entryFree (s : State) (d sl : Nat) : Bool := decide (s.sliceUsed d sl (fun x => x.st != .stable) < 48)

/-- Transaction entries and eviction buffers are free for `n` more write-backs (R166). -/
def State.wbRoom (s : State) (d sl n : Nat) : Bool :=
  decide (s.sliceUsed d sl (fun x => x.st == .miA || x.st == .mkA) + n ≤ 16 ∧ s.sliceUsed d sl (fun x => x.st != .stable) + n ≤ 48)

/-- There is room for one more write-back. -/
def State.wbFree (s : State) (d sl : Nat) : Bool := s.wbRoom d sl 1

/-- The way of a slice is in Piton mode or changing (R158). -/
def State.pitonWay (s : State) (d sl w : Nat) : Bool :=
  (4 ≤ w && (s.get (L.WLD_L3WAY.PITON d sl)).testBit (w - 4)) || (SMap.get s.pitonBusy (4 * d + sl)).testBit w

/-- WLD_L3WAY.BUSY: a Piton change of the slice runs, or the owner of one of its ways is about to change (R162). -/
def State.l3Sync (s : State) (d sl : Nat) : State :=
  let moving : Bool := (List.range 16).any (fun w => s.releasing.contains (.l3 (64 * d + 16 * sl + w)))
  s.put (L.WLD_L3WAY.BUSY d sl) (if moving ∨ SMap.get s.pitonBusy (4 * d + sl) ≠ 0 then 1 else 0)

/-- The slice of an L3 way that is released or reclaimed shows it. -/
def State.ownSync (s : State) (r : Res) : State :=
  match r with
  | .l3 n => s.l3Sync (n / 64) (n / 16 % 4)
  | _ => s

/-! ### Data of a cluster -/

/-- Bytes put over a line from an offset. -/
def putBytes (d : Bytes) (off : Nat) (b : Bytes) : Bytes := d.take off ++ b ++ d.drop (off + b.length)

/-- The L1D copies of a cluster go into its L2: a modified one gives its data, and both stay clean. -/
def State.collapse (s : State) (d c l : Nat) : State :=
  s.forAll [2 * c, 2 * c + 1] (fun s k =>
    match s.copyIn d (uL1d k) l with
    | some x =>
      if x.st = 2 then
        (s.changeCopy d (uL1d k) l (fun y => { y with st := 0 })).changeCopy d (uL2 c) l
          (fun y => { y with st := 2, data := x.data, poison := x.poison })
      else s
    | none => s)

/-- The copies of a line in a cluster go, modified L1D data with them. -/
def State.dropCluster (s : State) (d c l : Nat) : State :=
  (s.forAll [2 * c, 2 * c + 1] (fun s k => (s.dropCopy d (uL1d k) l).dropCopy d (uL1i k) l)).dropCopy d (uL2 c) l

/-- The clusters and the slice of a die that hold a line, as L2 and L3 structures. -/
def State.holders (s : State) (d l : Nat) : List Nat :=
  ((List.range 9).map uL2 ++ [uL3 (sliceOf l)]).filter (fun u => (s.findWay d u l).isSome)

/-- Every L1D copy on the die is folded into its L2. -/
def State.collapseDie (s : State) (d l : Nat) : State := s.forAll (List.range 9) (fun s c => s.collapse d c l)

/-- The modified copy of a line on a die, if there is one (after `collapseDie`). -/
def State.modifiedCopy (s : State) (d l : Nat) : Option CLine :=
  ((s.holders d l).filterMap (fun u => s.copyIn d u l)).find? (fun x => x.st == 2)

/-- The die-level state of a line (R164): 0 I, 1 S, 2 E, 3 M; an L1D copy that is modified makes it M. -/
def State.dieLevel (s : State) (d l : Nat) : Nat :=
  let s := s.collapseDie d l
  ((s.holders d l).filterMap (fun u => s.copyIn d u l)).foldl (fun n x => max n (x.st + 1)) 0

/-- Every copy of a line on a die goes. -/
def State.dropDie (s : State) (d l : Nat) : State :=
  (s.forAll (List.range 9) (fun s c => s.dropCluster d c l)).dropCopy d (uL3 (sliceOf l)) l

/-- Every copy of a line on a die becomes clean: S, or E where it was modified and the die keeps ownership. -/
def State.cleanDie (s : State) (d l : Nat) (keepE : Bool) : State :=
  let s := s.collapseDie d l
  s.forAll (s.holders d l) (fun s u =>
    s.changeCopy d u l (fun x => { x with st := if keepE && decide (1 ≤ x.st) then 1 else 0 }))

/-! ### Sending (R167) -/

/-- A message of a die's agent to the line's home. -/
def State.toHome (s : State) (k : CohKind) (m : CohMsg) : State := s.send (.coh k (0x100 + s.homeOf m.line) m)

/-- A message of a slice about a line. -/
def sliceMsg (d l : Nat) (sealed reserved : Bool) : CohMsg :=
  { (default : CohMsg) with src := d, line := l, sealed := sealed, reserved := reserved }

/-- The slice's next transaction identifier (R167). -/
def State.nextTxn (s : State) (d sl : Nat) : State × Nat :=
  let k := 64 + 4 * d + sl
  let t := SMap.get s.wbTag k
  ({ s with wbTag := SMap.set s.wbTag k ((t + 1) % 2 ^ 16) }, t)

/-- A modified line leaves as WB, with a world's tag, into the eviction buffer (R165, R166, R167); with KEEP a clean copy stays. -/
def State.sliceWb (s : State) (d l : Nat) (data : Bytes) (poison keep sealed : Bool) : State :=
  let sl := sliceOf l
  let tag := SMap.get s.wbTag (4 * d + sl)
  let s := { s with wbTag := SMap.set s.wbTag (4 * d + sl) ((tag + 1) % 256) }
  let s := s.setSliceTxn d l { s.sliceTxn d l with st := if keep then .mkA else .miA, tag := tag, data := data, poison := poison }
  let t := s.nextTxn d sl
  t.1.toHome .wb { sliceMsg d l sealed false with txn := t.2, flag := keep, tag := tag, data := data, poison := poison }

/-! ### Filling and evicting -/

/-- The line in a way of L3 leaves the slice (R165). -/
def State.evictL3 (s : State) (d sl set w : Nat) : State :=
  let x := s.cline d (uL3 sl) set w
  let s := s.setCline d (uL3 sl) set w default
  if x.valid ∧ x.st = 2 then s.sliceWb d x.line x.data x.poison false (s.wayOwner d sl w) else s

/-- The way of L3 may be filled for a world (R150, R151, R158). -/
def State.l3Allowed (s : State) (d sl set : Nat) (sealed : Bool) (w : Nat) : Bool :=
  let x := s.cline d (uL3 sl) set w
  s.wayOwner d sl w == sealed && !s.pitonWay d sl w && !s.isReleasing (.l3 (64 * d + 16 * sl + w)) &&
    !(x.valid && (s.lineBusy d x.line || (x.st == 2 && !s.wbFree d sl)))

/-- A line goes into L3, if a way is allowed; the result says whether it did. -/
def State.fillL3 (s : State) (d l st : Nat) (data : Bytes) (poison sealed : Bool) : State × Bool :=
  let sl := sliceOf l
  let u := uL3 sl
  let set := setOf u l
  match s.findWay d u l with
  | some w => ((s.setCline d u set w ⟨true, l, st, data, poison, false, false⟩).touchWay d u set w, true)
  | none =>
    match plruVictim (SMap.get s.plru (plruKey d u set sealed)) (fun w => (s.cline d u set w).valid)
        (s.l3Allowed d sl set sealed) with
    | none => (s, false)
    | some w =>
      (((s.evictL3 d sl set w).setCline d u set w ⟨true, l, st, data, poison, false, false⟩).touchWay d u set w, true)

/-- The line in a way of L2 leaves its cluster: L1 copies first (R145), a modified line into L3 where the policy lets
L3 allocate, else as WB; a clean one silently (R165). -/
def State.evictL2 (s : State) (d c set w : Nat) : State :=
  let l := (s.cline d (uL2 c) set w).line
  let s := s.collapse d c l
  let x := s.cline d (uL2 c) set w
  let s := s.dropCluster d c l
  if x.valid ∧ x.st = 2 then
    let sealed := s.clusterSealed d c
    if s.policy d sealed l = 3 then s.sliceWb d l x.data x.poison false sealed
    else
      let r := s.fillL3 d l 2 x.data x.poison sealed
      if r.2 then r.1 else s.sliceWb d l x.data x.poison false sealed
  else s

/-- A line of an L2 is modified there, or in an L1D of the cluster. -/
def State.l2Dirty (s : State) (d c : Nat) (x : CLine) : Bool :=
  x.st == 2 || [2 * c, 2 * c + 1].any (fun k => match s.copyIn d (uL1d k) x.line with
    | some y => y.st == 2
    | none => false)

/-- The way of L2 may be filled: its line has no open transaction, and a modified one could leave the die (R150, R166). -/
def State.l2Allowed (s : State) (d c set w : Nat) : Bool :=
  let x := s.cline d (uL2 c) set w
  !(x.valid && (s.lineBusy d x.line || (s.l2Dirty d c x && !s.wbFree d (sliceOf x.line))))

/-- The way of L2 that a line would take. -/
def State.l2Victim (s : State) (d c l : Nat) : Option Nat :=
  let u := uL2 c
  let set := setOf u l
  plruVictim (SMap.get s.plru (plruKey d u set false)) (fun w => (s.cline d u set w).valid) (s.l2Allowed d c set)

/-- The L2 holds the line or has a way for it. -/
def State.l2Room (s : State) (d c l : Nat) : Bool := (s.findWay d (uL2 c) l).isSome || (s.l2Victim d c l).isSome

/-- A line goes into L2; without an allowed way it is not kept there. -/
def State.fillL2 (s : State) (d c l st : Nat) (data : Bytes) (poison : Bool) : State :=
  let u := uL2 c
  let set := setOf u l
  match s.findWay d u l with
  | some w => (s.setCline d u set w ⟨true, l, st, data, poison, false, false⟩).touchWay d u set w
  | none =>
    match s.l2Victim d c l with
    | none => s
    | some w => ((s.evictL2 d c set w).setCline d u set w ⟨true, l, st, data, poison, false, false⟩).touchWay d u set w

/-- A line of L2 goes into an L1 cache, marked if a prefetch brings it; a modified L1D victim gives its data to L2. -/
def State.fillL1 (s : State) (d u l st : Nat) (data : Bytes) (poison pref : Bool) : State :=
  let set := setOf u l
  let c := (if u < 18 then u else u - 18) / 2
  match s.findWay d u l with
  | some w => (s.setCline d u set w ⟨true, l, st, data, poison, pref, false⟩).touchWay d u set w
  | none =>
    match plruVictim (SMap.get s.plru (plruKey d u set false)) (fun w => (s.cline d u set w).valid)
        (fun w => let x := s.cline d u set w; !(x.valid && s.lineBusy d x.line)) with
    | none => s
    | some w =>
      let v := s.cline d u set w
      let s := if v.valid ∧ v.st = 2 then s.collapse d c v.line else s
      (s.setCline d u set w ⟨true, l, st, data, poison, pref, false⟩).touchWay d u set w

/-! ### Prefetch (R148, R149) -/

abbrev streamKey (d u k : Nat) : Nat := 32 * (27 * d + u) + k
abbrev State.stream (s : State) (d u k : Nat) : Stream := SMap.get s.streams (streamKey d u k)

/-- The streams of a prefetcher: 16 of an L1D, 32 of an L2. -/
def streamCount (u : Nat) : Nat := if u < 18 then 16 else 32

/-- The prefetcher is enabled. -/
def State.pfEnabled (s : State) (d u : Nat) : Bool :=
  if u < 18 then (s.get (L.WLD_PFCTL.L1_EN d)).testBit u else (s.get (L.WLD_PFCTL.L2_EN d)).testBit (u - 18)

/-- Every stream of a prefetcher goes. -/
def State.clearStreams (s : State) (d u : Nat) : State :=
  { s with streams := s.streams.filter (fun p => !(p.1 / 32 == 27 * d + u)) }

/-- A stride that the prefetcher follows. -/
def strideOk (u : Nat) (x : Int) : Bool := x != 0 && decide (x.natAbs ≤ (if u < 18 then 2048 else 63))

/-- The line of a position that a stream keeps: bytes for L1D, lines for L2. -/
def streamLine (u pos : Nat) : Nat := if u < 18 then pos / 64 else pos

/-- Lines of a stream that an access leaves behind: one for each stride, and for a stride inside a line those crossed. -/
def linesPassed (u : Nat) (stride : Int) (last pos : Nat) : Nat :=
  if u < 18 ∧ stride.natAbs < 64 then ((streamLine u pos : Int) - (streamLine u last : Int)).natAbs else 1

/-- An access trains the stream with its key, or takes a new one; a full table gives up the stream used longest ago,
which stands first in it. -/
def State.train (s : State) (d u key pos : Nat) (sealed : Bool) (h : Nat) : State :=
  let n := streamCount u
  match firstBelow n (fun k => (s.stream d u k).key == key + 1) with
  | some k =>
    let x := s.stream d u k
    let st : Int := (pos : Int) - (x.last : Int)
    let y :=
      if st = x.stride ∧ 0 < x.seen then { x with
        last := pos, seen := min 3 (x.seen + 1), ahead := x.ahead - linesPassed u st x.last pos, h := h, sealed := sealed }
      else if strideOk u st then { x with last := pos, stride := st, seen := 1, ahead := 0, h := h, sealed := sealed }
      else { x with last := pos, stride := 0, seen := 0, ahead := 0, h := h, sealed := sealed }
    { s with streams := SMap.set s.streams (streamKey d u k) y }
  | none =>
    let new : Stream := ⟨key + 1, pos, 0, 0, 0, sealed, h⟩
    match firstBelow n (fun k => (s.stream d u k).key == 0) with
    | some k => { s with streams := SMap.set s.streams (streamKey d u k) new }
    | none =>
      let s := s.forAll (List.range (n - 1)) (fun s k =>
        { s with streams := SMap.set s.streams (streamKey d u k) (s.stream d u (k + 1)) })
      { s with streams := SMap.set s.streams (streamKey d u (n - 1)) new }

/-- A write of WLD_PFCTL (R148, R149, R162): the distances are the Sealed world's, 0 or one above its limit is a reserved
encoding (R5); a write reaches only enable bits of clusters of the writer's world, and a change of one clears the streams. -/
def State.writePfctl (s : State) (d : Nat) (c : Issuer) (v : Nat) : State :=
  let d2 := bits v 40 36
  let d1 := bits v 35 32
  if c.sealed ∧ (d2 = 0 ∨ 16 < d2 ∨ d1 = 0 ∨ 8 < d1) then s.reservedEnc (dieLog d) (R.WLD_PFCTL d) c
  else
    let s := if c.sealed then (s.put (L.WLD_PFCTL.L2_DIST d) d2).put (L.WLD_PFCTL.L1_DIST d) d1 else s
    s.forAll (List.range 9) (fun s k =>
      if s.clusterSealed d k = c.sealed then
        let bit := fun (s : State) (l : Loc) (i : Nat) (u : Nat) (b : Bool) =>
          if (s.get l).testBit i = b then s else (s.putBit l i b).clearStreams d u
        let s := bit s (L.WLD_PFCTL.L2_EN d) k (18 + k) (v.testBit (18 + k))
        let s := bit s (L.WLD_PFCTL.L1_EN d) (2 * k) (2 * k) (v.testBit (2 * k))
        bit s (L.WLD_PFCTL.L1_EN d) (2 * k + 1) (2 * k + 1) (v.testBit (2 * k + 1))
      else s)

/-- The caches of a cluster are empty and its prefetchers hold no streams (R145). -/
def State.emptyCluster (s : State) (d c : Nat) : State :=
  let mine := fun (k : Nat) =>
    let u := k / 16 / 16384 % 64
    k / 16 / 16384 / 64 == d && (u == uL2 c || u / 2 == c && decide (u < 18) || decide (18 ≤ u) && decide (u < 36) && (u - 18) / 2 == c)
  let s := { s with cache := s.cache.filter (fun p => !(mine p.1)) }
  ((s.clearStreams d (2 * c)).clearStreams d (2 * c + 1)).clearStreams d (18 + c)

/-- A write of WLD_WPOL: LOG2SZ out of range stores the nearer limit. -/
def State.writeWpol (s : State) (k v : Nat) : State :=
  let z := bits v 53 48
  let z := if z < 12 then 12 else if 47 < z then 47 else z
  s.wr k (BitVec.ofNat 64 ((bits v 63 63 <<< 63) + (z <<< 48) + (bits v 47 12 <<< 12) + bits v 2 0))

end Sys2Proof.Machine
end

