-- ==== Sys2Proof/Machine/Coherence.lean ====
section
/-! DEFINITION. The coherence protocol (07): the slices on the die, the home agents, the snoop filter, fatal errors;
and the maintenance operations and Piton memory of 06. -/

namespace Sys2Proof.Machine

/-! ### Fatal stop (R181, R433) -/

abbrev haLog (h : Nat) : Nat := 33 + h
def State.haEvent (s : State) (h : Nat) (l : Loc) : State := s.event (haLog h) l (R.HA_EVT_EN h)

/-- The coherent domain is stopped. -/
abbrev State.stopped (s : State) : Prop := s.get (L.HA_STATUS.STOPPED 0) = 1

/-- The fatal capture (Table 18.8, R439): an ordinary capture in progress is abandoned and its slot left free; one of this
nanosecond gives its triggers and its profile. A hart with an access that will not complete is recorded at it (R433). -/
def State.fatalCapture (s : State) : State :=
  let was := s.capBusy.map (fun k => SMap.get s.caps k)
  let s := match s.capBusy with
    | some k => { s.clearBitOf L.CRN_STATUS.FULL k with caps := SMap.set s.caps k default, capBusy := none, paused := [] }
    | none => s
  let c := s.captureNow 16 0x07 true false
  let c := match was with
    | some o => if o.at_ = s.up then { c with trigger := c.trigger ||| o.trigger, profile := c.profile ||| o.profile, fs := o.fs } else c
    | none => c
  s.captureInto 3 { c with incomplete := (s.ring ++ s.slices.flatMap (fun p => p.2.waiting)).map (fun a => a.h) }

/-- A fatal coherence error (R181, R433, R434), detected by the block with log `n`. -/
def State.fatalStop (s : State) (n code line src : Nat) : State :=
  if s.stopped then s.inc (L.ERR_LOG_STAT.COUNT n)
  else
    let s := s.logRec n Cause.FATAL code (64 * line) (unitIssuer true) src
    let s := s.forAll (List.range 32) (fun s h => (s.put (L.HA_STATUS.STOPPED h) 1).haEvent h (L.HA_EVT.FATAL h))
    let s := s.forAll (List.range 32) State.csqStopNow
    ({ s.put L.PMC_CTL.FREEZE 1 with faultN := true, txIdle := true }).fatalCapture

/-! ### The snoop filter (R176 to R179) -/

/-- The set of a line. -/
def sfSet (l : Nat) : Nat := bits l 14 0 ^^^ bits l 29 15 ^^^ bits l 41 30

/-- Marks of `State.ecc` on an entry of a filter and on a transaction entry of a home (R176, R181). -/
def eccSf (key : Nat) : Nat := 2 ^ 60 + key
def eccHome (h l : Nat) : Nat := 2 ^ 62 + h * 2 ^ 42 + l

/-- The home meets an uncorrectable error when it looks up a line: in an entry of its set, or in its transaction entry
(code 0x01 of Table 7.8). -/
def State.homeEcc (s : State) (h l : Nat) : Bool :=
  s.ecc.any (fun p => p.2 == 2 && (p.1 == eccHome h l ||
    decide (eccSf 0 ≤ p.1 ∧ p.1 < eccTag 0) && (p.1 - eccSf 0) / 16 == 32768 * h + sfSet l))

/-- The single-bit errors that a home meets where it looks up a line are corrected, and logged (R176). -/
def State.homeCorrect (s : State) (h l : Nat) : State :=
  s.forAll (s.ecc.filter (fun p => p.2 == 1 && (p.1 == eccHome h l ||
      decide (eccSf 0 ≤ p.1 ∧ p.1 < eccTag 0) && (p.1 - eccSf 0) / 16 == 32768 * h + sfSet l))) (fun s p =>
    (s.dropEcc p.1).logRec (haLog h) Cause.CE 0x03 (64 * l) (unitIssuer true) 0)

/-- A die meets an uncorrectable error when it looks up a line: in a tag of the line's set in an L2 or its slice, or in its
transaction entry (code 0x02 of Table 7.8). -/
def State.dieEcc (s : State) (d l : Nat) : Bool :=
  s.ecc.any (fun p => p.2 == 2 && (p.1 == eccSlice (sliceKey d l) ||
    (decide (eccTag 0 ≤ p.1 ∧ p.1 < eccHome 0 0) &&
      let k := p.1 - eccTag 0
      let u := k / 16 / 16384 % 64
      k / 16 / 16384 / 64 == d && (decide (36 ≤ u ∧ u < 45) || u == uL3 (sliceOf l)) && k / 16 % 16384 == setOf u l)))

abbrev sfKey (h set w : Nat) : Nat := (32768 * h + set) * 16 + w
abbrev State.sfEnt (s : State) (h set w : Nat) : SfEnt := SMap.get s.sf (sfKey h set w)

/-- The way that holds a line. -/
def State.sfFind (s : State) (h l : Nat) : Option Nat :=
  firstBelow 16 (fun w => let x := s.sfEnt h (sfSet l) w; x.valid && x.line == l)

/-- A way changes, and VALID counts the entries in S or O. -/
def State.setSf (s : State) (h set w : Nat) (x : SfEnt) : State :=
  let on := fun (e : SfEnt) => if e.valid && e.st != 0 then 1 else 0
  let n := s.get (L.HA_SF_STAT.VALID h) + on x - on (s.sfEnt h set w)
  { s.put (L.HA_SF_STAT.VALID h) n with
    sf := SMap.set s.sf (sfKey h set w) x, ecc := SMap.drop s.ecc (eccSf (sfKey h set w)) }

/-- A line's state at its home: 0 I, 1 S, 2 O, with its presence; dies that left the package count no more (R181). -/
def State.sfState (s : State) (h l : Nat) : Nat × Nat :=
  match s.sfFind h l with
  | some w =>
    let x := s.sfEnt h (sfSet l) w
    let p := x.pres &&& s.get (L.HA_STATUS.CA h)
    if x.st = 0 ∨ p = 0 then (0, 0) else (x.st, p)
  | none => (0, 0)

/-- An access to a way of the filter moves its tree (R176). -/
def State.sfTouchWay (s : State) (h set w : Nat) : State :=
  let k := 32768 * h + set
  { s with sfPlru := SMap.set s.sfPlru k (plruTouch (SMap.get s.sfPlru k) w) }

/-- A lookup that finds the line's entry. -/
def State.sfTouch (s : State) (h l : Nat) : State :=
  match s.sfFind h l with
  | some w => s.sfTouchWay h (sfSet l) w
  | none => s

/-- The line's entry takes a state; state I frees it. A line without an entry keeps none. -/
def State.sfPut (s : State) (h l st pres : Nat) : State :=
  match s.sfFind h l with
  | some w =>
    let s := s.setSf h (sfSet l) w (if st = 0 then default else ⟨true, l, st, pres⟩)
    if st = 0 then s else s.sfTouchWay h (sfSet l) w
  | none => s

/-- A die leaves a line's entry. -/
def State.sfRemove (s : State) (h l d : Nat) : State :=
  match s.sfFind h l with
  | some w =>
    let x := s.sfEnt h (sfSet l) w
    let p := clearBit x.pres d
    if x.st = 0 then s else s.setSf h (sfSet l) w (if p = 0 then ⟨true, l, 0, 0⟩ else { x with pres := p })
  | none => s

/-! ### A home (R173) -/

abbrev State.home (s : State) (h : Nat) : Home := SMap.get s.homes h
def State.setHome (s : State) (h : Nat) (x : Home) : State := { s with homes := SMap.set s.homes h x }

/-- The open transaction on a line. -/
def State.txnOn (s : State) (h l : Nat) : Option HomeTxn := (s.home h).txns.find? (fun t => t.line == l)

/-- Occupancy as the registers show it. -/
def State.homeSync (s : State) (h : Nat) : State :=
  let x := s.home h
  let used := (x.txns.filter (fun t => !t.back)).length + x.waiting.length
  (s.put (L.HA_STATUS.TRK_USED h) (min 256 used)).put (L.HA_SF_STAT.BI_USED h) (x.txns.filter (fun t => t.back)).length

/-- The transaction on a line changes. -/
def State.changeTxn (s : State) (h l : Nat) (f : HomeTxn → HomeTxn) : State :=
  let x := s.home h
  s.setHome h { x with txns := x.txns.map (fun t => if t.line = l then f t else t) }

/-- There is an entry for one more request of its kind: of 256, 32 serve only reserved-class requests and 16 only WB (R173). A
promoted transaction keeps the entry that it has. -/
def State.entryFor (s : State) (h : Nat) (k : CohKind) (m : CohMsg) : Bool :=
  let x := s.home h
  let all := ((k, m) :: x.waiting).map (fun p => (p.1, p.2.reserved)) ++ (x.txns.filter (fun t => !t.back)).map (fun t => (t.kind, t.own))
  let wb := (all.filter (fun p => p.1 == .wb)).length
  let rt := (all.filter (fun p => p.1 != .wb && p.2)).length
  decide ((all.length - wb - rt) + (wb - 16) + (rt - 32) ≤ 208)

/-- Source identifiers of compute dies of Skelura make, and of caching agents (R163, R194). -/
def State.isSkelura (s : State) (src : Nat) : Bool := decide (src < 12) && !(s.dieSt src).otherMake
def State.isCaching (s : State) (h src : Nat) : Bool := decide (src < 12) && (s.get (L.HA_STATUS.CA h)).testBit src

/-- A message from a home. -/
def homeMsg (h : Nat) (m : CohMsg) : CohMsg :=
  { (default : CohMsg) with
    src := 0x40 + h, line := m.line, txn := m.txn, sealed := m.sealed, vi := m.vi, gen := m.gen
    reserved := m.reserved, tag := m.tag }

/-- A reply of a home to the sender of a request. -/
def State.homeReply (s : State) (h : Nat) (k : CohKind) (m : CohMsg) : State := s.send (.coh k m.src (homeMsg h m))

/-- A partner's message is refused (R182). -/
def State.homeNak (s : State) (h code : Nat) (m : CohMsg) : State :=
  let s := s.inc (L.HA_NAK_CNT.NAK h)
  let s := ((s.put (L.HA_NAK_LAST.CODE h) code).put (L.HA_NAK_LAST.AGENT h) m.src).put (L.HA_NAK_LAST.LINE h) m.line
  let s := s.logRec (haLog h) Cause.PARTNER code (64 * m.line) ⟨m.sealed, m.vi, m.gen, .device⟩ 0
  (s.haEvent h (L.HA_EVT.NAK h)).send (.coh .nak m.src { homeMsg h m with tag := code })

/-- A message that the protocol does not allow: fatal from a Skelura die, refused from any other agent. -/
def State.homeBad (s : State) (h code : Nat) (m : CohMsg) : State :=
  if s.isSkelura m.src then s.fatalStop (haLog h) 0x04 m.line m.src else s.homeNak h code m

/-- A stale WB is discarded (Table 7.7). -/
def State.staleWb (s : State) (h : Nat) (m : CohMsg) : State :=
  ((s.homeReply h .wbStale m).inc (L.HA_STALE_CNT.STALE h)).pmc uHA h 6 1 m.sealed m.vi

/-- Data that a die returns is written to memory (R168); the answer says whether it was performed. -/
def State.homeWrite (s : State) (m : CohMsg) (d : Bytes) (poison : Bool) : State × Bool :=
  s.memWriteLine m.line d poison ⟨m.sealed, m.vi, m.gen, .device⟩

/-- The data that a transaction has to write enters WQ if it has room (R168, R230). -/
def State.txnWrites (s : State) (h l : Nat) : State :=
  match s.txnOn h l with
  | none => s
  | some t =>
    match t.toWrite with
    | none => s
    | some (d, p) =>
      if s.writeRoom l then
        let r := s.homeWrite t.req d p
        r.1.changeTxn h l (fun t => { t with toWrite := none, refused := t.refused || !r.2 })
      else s

/-- A reserved-class request that waits at the home promotes the transaction open on its line (R174). -/
def State.promote (s : State) (h : Nat) (m : CohMsg) : State :=
  if m.reserved then s.changeTxn h m.line (fun t => { t with reserved := true, req := { t.req with reserved := true } }) else s

/-- An entry has become free: the first request in the mesh that finds one for its kind takes it and waits at the home (R173
rule 5, R174). -/
def State.homeAdmit (s : State) (h : Nat) : State :=
  let x := s.home h
  match x.held.find? (fun p => s.entryFor h p.1 p.2) with
  | some p => ((s.setHome h { x with held := x.held.erase p, waiting := x.waiting ++ [p] }).promote h p.2).homeSync h
  | none => s.homeSync h

/-- A transaction closes once its reply is sent, its FACK has arrived and no stale record is open (R173 rule 3). -/
def State.tryClose (s : State) (h l : Nat) : State :=
  match s.txnOn h l with
  | some t =>
    if t.replied ∧ t.wantFack = false ∧ t.stale = [] then
      let x := s.home h
      let s := s.setHome h { x with txns := x.txns.filter (fun u => u.line != l) }
      (if (s.sfState h l).1 = 0 then s.sfPut h l 0 0 else s).homeAdmit h
    else s
  | none => s

/-- The next number of a home (R167, R172). -/
def State.homeSeq (s : State) (h : Nat) : State × Nat :=
  (s.setHome h { s.home h with seq := (s.home h).seq + 1 }, (s.home h).seq)

/-- A fresh transaction on a line. -/
def newTxn (back : Bool) (k : CohKind) (m : CohMsg) (asked : Nat) (sk : CohKind) (at_ : Nat) (mem : Bool) : HomeTxn :=
  { line := m.line, back := back, kind := k, req := m, asked := asked, snoops := asked, snoopKind := sk, sentAt := at_,
    kept := 0, reserved := m.reserved, own := m.reserved, needMem := mem, readId := 0, mem := none, data := none, toWrite := none, refused := false, stale := [], held := [], grant := false,
    allocWait := false, replied := false, wantFack := false }

/-- The snoops of a transaction leave in ascending die order, one copy for the link of each die that carries the line's slice
(R173 rule 4, R212). -/
def State.sendSnoop (s : State) (h : Nat) (k : CohKind) (mask : Nat) (m : CohMsg) (disc : Bool) : State :=
  if mask = 0 then s
  else (s.pmc uHA h 3 1 m.sealed m.vi).forAll (onesBelow 12 mask) (fun s d =>
    s.send (.snoop k d ((s.carrier d (sliceOf m.line)).getD (4 * d + sliceOf m.line)) { homeMsg h m with flag := disc }))

/-- The line gets a way of the filter (R178, R179): a victim moves to the back-invalidation buffer and is snooped out.
The second component says that the line has one. -/
def State.sfAlloc (s : State) (h : Nat) (m : CohMsg) : State × Bool :=
  let l := m.line
  let set := sfSet l
  if (s.sfFind h l).isSome then (s, true)
  else
    let busy := fun (w : Nat) => let x := s.sfEnt h set w; x.valid && (s.txnOn h x.line).isSome
    match plruVictim (SMap.get s.sfPlru (32768 * h + set)) (fun w => (s.sfEnt h set w).valid) (fun w => !busy w) with
    | none => (s, false)
    | some w =>
      let v := s.sfEnt h set w
      let pres := v.pres &&& s.get (L.HA_STATUS.CA h)
      let new : SfEnt := ⟨true, l, 0, 0⟩
      if v.valid ∧ v.st ≠ 0 ∧ pres ≠ 0 then
        if 16 ≤ ((s.home h).txns.filter (fun t => t.back)).length then (s, false)
        else
          let s := (((s.setSf h set w new).sfTouchWay h set w).inc (L.HA_SF_CNT.BI h)).pmc uHA h 5 1 m.sealed m.vi
          let q := s.homeSeq h
          let s := q.1
          let bm : CohMsg := { sliceMsg 0 v.line true false with src := 0x40 + h, txn := q.2 % 2 ^ 16 }
          let x := s.home h
          let s := s.setHome h { x with txns := x.txns ++ [newTxn true .snpI bm pres .snpI s.up false] }
          ((s.sendSnoop h .snpI pres bm false).homeSync h, true)
      else ((s.setSf h set w new).sfTouchWay h set w, true)

/-- The CMP of a device's read or write is kept until the device takes it (R163). -/
def State.devAnswer (s : State) (h : Nat) (k : CohKind) (m : CohMsg) (data : Bytes) (poison err : Bool) : State :=
  if 0x10 ≤ m.src ∧ (k = .ncRd ∨ k = .ncWr) then
    s.setHome h { s.home h with dev := (s.home h).dev ++ [⟨m.src, m.line, k == .ncWr, err, data, poison⟩] }
  else s

/-- The bytes, the poison and the error that a transaction answers with: of a die, of memory, or none. -/
def HomeTxn.answer (t : HomeTxn) : Bytes × Bool × Bool :=
  match t.data, t.mem with
  | some (b, p), _ => (b, p, t.refused)
  | none, some (b, p, e) => (b, p, e)
  | none, none => (zeros 64, false, false)

/-- A transaction has replied; it closes, or waits for FACK. -/
def State.txnReplied (s : State) (h : Nat) (t : HomeTxn) (ans : Bytes × Bool × Bool) (fack : Bool) : State :=
  ((s.devAnswer h t.kind t.req ans.1 ans.2.1 ans.2.2).changeTxn h t.req.line
    (fun t => { t with replied := true, wantFack := fack })).tryClose h t.req.line

/-- A transaction replies with its data. -/
def State.txnData (s : State) (h : Nat) (t : HomeTxn) (k : CohKind) (fack : Bool) : State :=
  (s.send (.coh k t.req.src { homeMsg h t.req with data := t.answer.1, poison := t.answer.2.1 })).txnReplied h t t.answer fack

/-- A transaction replies with an error. -/
def State.txnFailed (s : State) (h : Nat) (t : HomeTxn) (ans : Bytes × Bool × Bool) : State :=
  (s.send (.coh .cmp t.req.src { homeMsg h t.req with err := true })).txnReplied h t ans false

/-- The bytes of an NC_WR join the line, as a die or memory has it; whether the memory controller takes the line. -/
def State.ncWrite (s : State) (t : HomeTxn) : State × Bool :=
  let m := t.req
  let r : State × Bytes × Bool := match t.data with
    | some x => (s, x)
    | none => if m.mask = 2 ^ 64 - 1 then (s, zeros 64, false) else s.mergeLine m.line
  r.1.memWriteLine m.line ((List.range 64).map (fun i => if m.mask.testBit i then m.data.getD i 0 else r.2.1.getD i 0))
    (m.poison || (r.2.2 && m.mask != 2 ^ 64 - 1)) ⟨m.sealed, m.vi, m.gen, .device⟩

/-- The reply of a transaction (Table 7.6) once every snoop is answered and its data is here. -/
def State.finishTxn (s : State) (h : Nat) (t : HomeTxn) : State :=
  let m := t.req
  let st := s.sfState h m.line
  let mine := 1 <<< m.src
  let err : Bool := t.answer.2.2
  match t.kind with
  | .rdS =>
    if err then s.txnFailed h t t.answer
    else if t.asked ≠ 0 then (s.sfPut h m.line 1 (setBit t.kept m.src)).txnData h t .dataS true
    else if st.1 = 1 then (s.sfPut h m.line 1 (setBit st.2 m.src)).txnData h t .dataS true
    else if m.flag then (s.sfPut h m.line 1 mine).txnData h t .dataS true
    else (s.sfPut h m.line 2 mine).txnData h t .dataE true
  | .rdX | .upg =>
    if t.grant then ((s.sfPut h m.line 2 mine).homeReply h .gntX m).txnReplied h t t.answer true
    else if err then s.txnFailed h t t.answer
    else (s.sfPut h m.line 2 mine).txnData h t .dataE true
  | .cmo =>
    if err then s.txnFailed h t t.answer
    else ((if m.op = 0 then s else s.sfPut h m.line 0 0).homeReply h .cmp m).txnReplied h t t.answer false
  | .ncRd => if err then s.txnFailed h t t.answer else s.txnData h t .cmp false
  | .ncWr =>
    let r := s.ncWrite t
    let s := r.1.sfPut h m.line 0 0
    if r.2 then (s.homeReply h .cmp m).txnReplied h t t.answer false else s.txnFailed h t ([], false, true)
  | _ => s.txnReplied h t t.answer false

/-- The home replies when it can: snoops answered, data here, and a way of the filter for a line in state I. -/
def State.tryReply (s : State) (h l : Nat) : State :=
  match s.txnOn h l with
  | none => s
  | some t =>
    if t.replied ∨ t.snoops ≠ 0 ∨ t.allocWait ∨ (t.needMem ∧ t.mem = none ∧ t.data = none) ∨ t.toWrite.isSome ∨
        (t.kind = .ncWr ∧ s.writeRoom l = false) then s
    else s.finishTxn h t

/-- A request opens its transaction (R172, R173): snoops leave, the memory read is issued, and a line in state I is
given its way of the filter. -/
def State.openTxn (s : State) (h : Nat) (k : CohKind) (m : CohMsg) : State :=
  let d := m.src
  let s := (s.sfTouch h m.line).pmc uHA h 1 1 m.sealed m.vi
  let s := s.when (m.reserved = true) (fun s => s.pmc uHA h 2 1 m.sealed m.vi)
  let st := s.sfState h m.line
  let other := clearBit st.2 d
  let grant : Bool := k == .upg && (st.1 == 2 && st.2 == 1 <<< d || st.1 == 1 && st.2.testBit d)
  let plan : Nat × CohKind × Bool := match k with
    | .rdS => (if st.1 = 2 then other else 0, .snpS, true)
    | .rdX | .upg => (other, .snpI, !grant)
    | .cmo => if m.op = 0 then (if st.1 = 2 then st.2 else 0, .snpC, false) else (st.2, .snpI, false)
    | .ncRd => (if st.1 = 2 then st.2 else 0, .snpC, true)
    | _ => (st.2, .snpI, false)
  let q := s.homeSeq h
  let s := q.1
  let t := { newTxn false k m plan.1 plan.2.1 s.up plan.2.2 with grant := grant, readId := q.2 }
  let x := s.home h
  let s := s.setHome h { x with txns := x.txns ++ [t] }
  let s := s.sendSnoop h plan.2.1 plan.1 m (k == .cmo && m.op == 2 && m.flag)
  let s := if plan.2.2 then
      s.send (.mcRead (s.mcOf m.line) (if m.reserved then 0 else if k == .ncRd && 12 ≤ d then 2 else 1) m.line q.2)
    else s
  let s := if (k == .rdS || k == .rdX || k == .upg) && st.1 == 0 then
      let r := s.sfAlloc h m
      if r.2 then r.1 else r.1.changeTxn h m.line (fun t => { t with allocWait := true })
    else s
  (s.homeSync h).tryReply h m.line

/-- A WB with no transaction open on its line (Table 7.6); what its controller refuses is answered with a CMP of error status
(R229, R428). -/
def State.openWb (s : State) (h : Nat) (m : CohMsg) : State :=
  let st := s.sfState h m.line
  if st.1 = 2 ∧ st.2 = 1 <<< m.src then
    let r := s.homeWrite m m.data m.poison
    let s := r.1.sfTouch h m.line
    let s := if m.flag then s else s.sfPut h m.line 0 0
    if r.2 then s.homeReply h .wbAck m else s.send (.coh .cmp m.src { homeMsg h m with err := true })
  else s.homeBad h 0x02 m

/-- A request waits at the home, where a reserved-class one promotes the transaction it waits behind, or in the mesh if it finds no
entry (R173, R174). -/
def State.homeWait (s : State) (h : Nat) (k : CohKind) (m : CohMsg) : State :=
  if s.entryFor h k m then
    ((s.setHome h { s.home h with waiting := (s.home h).waiting ++ [(k, m)] }).promote h m).homeSync h
  else s.setHome h { s.home h with held := (s.home h).held ++ [(k, m)] }

/-- A WB reaches the home (Tables 7.6 and 7.7). -/
def State.homeWb (s : State) (h : Nat) (m : CohMsg) : State :=
  match s.txnOn h m.line with
  | some t =>
    if t.stale.contains (m.src, m.tag) then
      ((s.changeTxn h m.line (fun t => { t with stale := t.stale.erase (m.src, m.tag) })).staleWb h m).tryClose h m.line
    else if t.snoops.testBit m.src then s.changeTxn h m.line (fun t => { t with held := t.held ++ [m] })
    else s.homeWait h .wb m
  | none =>
    if (s.home h).waiting.any (fun p => p.2.line == m.line) ∨ s.writeRoom m.line = false then s.homeWait h .wb m else s.openWb h m

/-- The agents of Table 7.1 may send a request: caching requests come from caching agents; a Skelura die reads by caching, and
sends NC_WR for a store under WNA (R147); CMO comes from caching agents and the queue engines. -/
def State.agentMay (s : State) (h : Nat) (k : CohKind) (src : Nat) : Option Nat :=
  match k with
  | .rdS | .rdX | .upg | .wb => if s.isCaching h src then none else some 0x06
  | .ncRd => if s.isCaching h src then some 0x02 else none
  | .ncWr => if s.isCaching h src ∧ (s.dieSt src).otherMake then some 0x02 else none
  | .cmo => if s.isCaching h src ∨ 0x10 ≤ src ∧ src < 0x18 then none else some 0x02
  | _ => none

/-- What the home refuses of a message before it looks at the line (Table 7.9). -/
def State.nakCode (s : State) (h : Nat) (k : CohKind) (m : CohMsg) : Option Nat :=
  if m.malformed ∨ k = .cmo ∧ 2 < m.op ∨ 0x20 ≤ m.src ∨ 12 ≤ m.src ∧ m.src < 0x10 then some 0x01
  else if !lineInHbm m.line then some 0x05
  else s.agentMay h k m.src

/-- A request that the home accepts opens its transaction, or waits. -/
def State.homeTake (s : State) (h : Nat) (k : CohKind) (m : CohMsg) : State :=
  if k = .wb then s.homeWb h m
  else if (s.txnOn h m.line).isSome ∨ (s.home h).waiting.any (fun p => p.2.line == m.line) ∨ ¬ s.entryFor h k m then
    s.homeWait h k m
  else s.openTxn h k m

/-- A request reaches its home. -/
def State.homeRequest (s : State) (k : CohKind) (m : CohMsg) : Result :=
  let h := s.homeOf m.line
  if s.stopped then .next s
  else if s.homeEcc h m.line then .next (s.fatalStop (haLog h) 0x01 m.line m.src)
  else
    let s := s.homeCorrect h m.line
    match s.nakCode h k m with
    | some c => .next (s.homeBad h c m)
    | none => .next (s.homeTake h k m)

/-- RD_S (R172). -/
def execRdS (m : CohMsg) (s : State) : Result := s.homeRequest .rdS m
/-- RD_X (R172). -/
def execRdX (m : CohMsg) (s : State) : Result := s.homeRequest .rdX m
/-- UPG (R172). -/
def execUpg (m : CohMsg) (s : State) : Result := s.homeRequest .upg m
/-- WB (R175). -/
def execWb (m : CohMsg) (s : State) : Result := s.homeRequest .wb m
/-- CMO (R172). -/
def execCmo (m : CohMsg) (s : State) : Result := s.homeRequest .cmo m
/-- NC_RD (R172). -/
def execNcRd (m : CohMsg) (s : State) : Result := s.homeRequest .ncRd m
/-- NC_WR (R172). -/
def execNcWr (m : CohMsg) (s : State) : Result := s.homeRequest .ncWr m

/-- The request on a line that starts next: reserved class first, in order of arrival (R173 rule 2). -/
def State.homeNext (s : State) (h l : Nat) : Option (CohKind × CohMsg) :=
  let w := (s.home h).waiting.filter (fun p => p.2.line == l)
  match w.find? (fun p => p.2.reserved) with
  | some p => some p
  | none => w.head?

/-- HOME_TXN_START (R173): the next request waiting on a line without an open transaction starts, reserved class
first. -/
def execHomeTxnStart (home : Fin 32) (line : Nat) (s : State) : Result :=
  let h := home.val
  if s.stopped ∨ (s.txnOn h line).isSome then .next s
  else
    match s.homeNext h line with
    | none => .next s
    | some (k, m) =>
      if s.homeEcc h line then .next (s.fatalStop (haLog h) 0x01 line m.src)
      else if k = .wb ∧ s.writeRoom line = false then .next s
      else
        let s := s.homeCorrect h line
        let s := (s.setHome h { s.home h with waiting := (s.home h).waiting.erase (k, m) }).homeSync h
        if k = .wb then .next ((s.openWb h m).homeAdmit h) else .next (s.openTxn h k m)

/-- FILTER_ALLOC_RETRY (R178). -/
def execFilterAllocRetry (home : Fin 32) (line : Nat) (s : State) : Result :=
  let h := home.val
  match s.txnOn h line with
  | none => .next s
  | some t =>
    if s.stopped ∨ t.allocWait = false then .next s
    else if s.homeEcc h line then .next (s.fatalStop (haLog h) 0x01 line t.req.src)
    else
      let s := ((s.inc (L.HA_SF_CNT.RETRY h)).haEvent h (L.HA_EVT.RETRY h)).pmc uHA h 4 1 t.req.sealed t.req.vi
      let r := s.sfAlloc h t.req
      if r.2 then .next ((r.1.changeTxn h line (fun t => { t with allocWait := false })).tryReply h line)
      else .next r.1

/-- The snoop of a back-invalidation, or of a request, has been answered by die `e`: held WBs of that die are judged again, and
those that wait as requests and match a stale record (Table 7.7). -/
def State.afterResponse (s : State) (h l e : Nat) : State :=
  match s.txnOn h l with
  | none => s
  | some t =>
    let stale := fun (p : CohKind × CohMsg) => p.1 == .wb && p.2.line == l && t.stale.contains (p.2.src, p.2.tag)
    let x := s.home h
    let mine := t.held.filter (fun m => m.src == e) ++ ((x.waiting ++ x.held).filter stale).map Prod.snd
    let s := s.setHome h { x with waiting := x.waiting.filter (fun p => !stale p), held := x.held.filter (fun p => !stale p) }
    let s := s.changeTxn h l (fun t => { t with held := t.held.filter (fun m => m.src != e) })
    let s := s.forAll mine (fun s m => s.homeWb h m)
    (s.homeSync h).tryReply h l

/-- A response reaches the home (Table 7.7). -/
def State.homeResponse (s : State) (k : CohKind) (m : CohMsg) : Result :=
  let h := s.homeOf m.line
  let e := m.src
  if s.stopped then .next s
  else if s.homeEcc h m.line then .next (s.fatalStop (haLog h) 0x01 m.line m.src)
  else
    let s := s.homeCorrect h m.line
    match s.nakCode h k m, s.txnOn h m.line with
    | some c, _ => .next (s.homeBad h c m)
    | none, none => .next (s.homeBad h 0x03 m)
    | none, some t =>
      let keeps : Bool := k == .rspK || k == .rspKd
      if t.snoops.testBit e = false ∨ keeps ∧ t.snoopKind = .snpI then
        .next (s.homeBad h (if t.snoops.testBit e = false ∧ t.asked.testBit e then 0x04 else 0x03) m)
      else
        let dirty : Bool := k == .rspId || k == .rspKd || k == .rspEvd
        let s := if keeps then s else s.sfRemove h m.line e
        let s := s.changeTxn h m.line (fun t => { t with
          snoops := clearBit t.snoops e
          kept := if keeps then setBit t.kept e else t.kept
          data := if dirty then some (m.data, m.poison) else t.data
          toWrite := if dirty ∧ t.kind ≠ .ncWr then some (m.data, m.poison) else t.toWrite
          stale := if k == .rspEvd then t.stale ++ [(e, m.tag)] else t.stale })
        .next ((s.txnWrites h m.line).afterResponse h m.line e)

/-- RSP_I (R175). -/
def execRspI (m : CohMsg) (s : State) : Result := s.homeResponse .rspI m
/-- RSP_K (R175). -/
def execRspK (m : CohMsg) (s : State) : Result := s.homeResponse .rspK m
/-- RSP_ID (R175). -/
def execRspId (m : CohMsg) (s : State) : Result := s.homeResponse .rspId m
/-- RSP_KD (R175). -/
def execRspKd (m : CohMsg) (s : State) : Result := s.homeResponse .rspKd m
/-- RSP_EVD (R175). -/
def execRspEvd (m : CohMsg) (s : State) : Result := s.homeResponse .rspEvd m

/-- FACK (R175, R182). -/
def execFack (m : CohMsg) (s : State) : Result :=
  let h := s.homeOf m.line
  if s.stopped then .next s
  else if s.homeEcc h m.line then .next (s.fatalStop (haLog h) 0x01 m.line m.src)
  else
    let s := s.homeCorrect h m.line
    match s.nakCode h .fack m, s.txnOn h m.line with
    | some c, _ => .next (s.homeBad h c m)
    | none, none => .next (s.homeBad h 0x03 m)
    | none, some t =>
      if t.wantFack ∧ t.req.src = m.src then
        .next ((s.changeTxn h m.line (fun t => { t with wantFack := false })).tryClose h m.line)
      else .next (s.homeBad h 0x03 m)

/-- SNOOP_TIMEOUT (R181 code 0x05): a snoop unanswered for 20 µs. -/
def execSnoopTimeout (home : Fin 32) (line : Nat) (s : State) : Result :=
  let h := home.val
  match s.txnOn h line with
  | none => .next s
  | some t =>
    if t.snoops = 0 ∨ s.stopped then .next s
    else
      let s := s.elapseUntil (t.sentAt + 20000)
      .next (s.fatalStop (haLog h) 0x05 line ((onesBelow 12 t.snoops).headD 0))

/-- The memory read with a number returns (R172): data, poison, or an error response. A transaction takes its own read only, and
after a stop the home serves nothing (R181). -/
def State.homeMemData (s : State) (l id : Nat) (a : LineAns) : State :=
  let h := s.homeOf l
  if s.stopped then s
  else
    match s.txnOn h l with
    | none => s
    | some t =>
      if t.needMem = false ∨ t.mem.isSome ∨ t.readId ≠ id then s
      else if s.homeEcc h l then s.fatalStop (haLog h) 0x01 l t.req.src
      else ((s.homeCorrect h l).changeTxn h l (fun t => { t with mem := some (a.data, a.poison, a.err) })).tryReply h l

/-- What homes could not write for want of room in WQ, or in RECOVERY, is written now (R229, R230), and the transactions that
waited for it go on. -/
def State.homesRetry (s : State) (mc : Nat) : State :=
  let h := mc / 2
  if s.stopped then s
  else s.forAll (((s.home h).txns.filter (fun t => s.mcOf t.line == mc)).map HomeTxn.line) (fun s l => (s.txnWrites h l).tryReply h l)

/-! ### Accesses on the die (R165, R169) -/

/-- The value an AMO stores, from the old value and the operand. -/
def amoValue (op : AmoOp) (n : Nat) (old v : Nat) : Nat :=
  let a := old % 2 ^ n
  let b := v % 2 ^ n
  match op with
  | .swap => b
  | .add => (a + b) % 2 ^ n
  | .xor => a ^^^ b
  | .and => a &&& b
  | .or => a ||| b
  | .min => if signedOf n a ≤ signedOf n b then a else b
  | .max => if signedOf n a ≤ signedOf n b then b else a
  | .minu => min a b
  | .maxu => max a b

/-- A value of 4 or 8 bytes as an AMO returns it, sign-extended. -/
def amoResult (n old : Nat) : Word := BitVec.ofInt 64 (signedOf n (old % 2 ^ n))

/-- The set and way of each line that a structure holds. -/
def State.allLines (s : State) (d u : Nat) : List (Nat × Nat) :=
  (s.cache.filter (fun p => p.1 / 16 / 16384 == d * 64 + u && p.2.valid)).map (fun p => (p.1 / 16 % 16384, p.1 % 16))

/-- The lines of a structure that set-and-way operations treat: those outside Piton ways (R157). -/
def State.swopLines (s : State) (d u : Nat) : List (Nat × Nat) :=
  (s.allLines d u).filter (fun p => !(decide (45 ≤ u) && s.pitonWay d (u - 45) p.2))

/-- The access falls on poisoned data (R429): recorded in the die's log; a load or a fetch raises an access fault. -/
def State.consumePoison (s : State) (a : Access) : State :=
  (s.logRec (dieLog (hartDie a.h)) Cause.UE 0x02 (64 * a.line) ⟨a.sealed, none, 0, .hart a.h⟩ 0).answer .accessFault

/-- The bytes of an access in its line, as a number of `n` bytes. -/
def accWord (a : Access) (d : Bytes) (n : Nat) : Nat := ofBytesLE ((d.drop a.off).take n)

/-- The L1 cache of a hart holds no reservation (R121). -/
def State.unreserve (s : State) (d k : Nat) : State :=
  s.forAll (s.allLines d (uL1d k)) (fun s p =>
    let x := s.cline d (uL1d k) p.1 p.2
    if x.resv then s.setCline d (uL1d k) p.1 p.2 { x with resv := false } else s)

/-- The L1 copy of a read is there: the access ends with its data, and an LR reserves the line in L1D. -/
def State.loadDone (s : State) (a : Access) (x : CLine) : State :=
  match a.kind with
  | .prefL1 | .prefL2 => s
  | .lr wide =>
    if x.poison then s.consumePoison a
    else
      let n := if wide then 8 else 4
      let s := (s.unreserve (hartDie a.h) (a.h % 18)).changeCopy (hartDie a.h) (uL1d (a.h % 18)) a.line (fun y => { y with resv := true })
      s.answer (.data (amoResult (8 * n) (accWord a x.data n)))
  | _ => if x.poison then s.consumePoison a else s.answer (.data (BitVec.ofNat 64 (accWord a x.data 8)))

/-- The cluster's L2 holds the line: the L1 cache of the access takes it and the read ends. -/
def State.readFromL2 (s : State) (a : Access) : State :=
  let d := hartDie a.h
  let c := hartCluster a.h
  let s := s.collapse d c a.line
  match s.copyIn d (uL2 c) a.line with
  | none => s
  | some x =>
    let s := s.hit d (uL2 c) a.line
    match a.kind with
    | .prefL2 => s
    | .fetch => (s.fillL1 d (uL1i (a.h % 18)) a.line 0 x.data x.poison false).loadDone a x
    | k => (s.fillL1 d (uL1d (a.h % 18)) a.line 0 x.data x.poison (k == .prefL1)).loadDone a x

/-- The owner of a line among the structures of a die: the one that holds it in the highest state, L2 before L3. -/
def State.bestHolder (s : State) (d l : Nat) : Option (Nat × CLine) :=
  ((s.holders d l).filterMap (fun u => (s.copyIn d u l).map (fun x => (u, x)))).foldl
    (fun (best : Option (Nat × CLine)) x => match best with
      | some y => if y.2.st < x.2.st then some x else some y
      | none => some x) none

/-- After a store under WT the line is cleaned to its home, and stays clean in the die (R147). -/
def State.wtClean (s : State) (a : Access) (data : Bytes) (poison : Bool) : State :=
  let d := hartDie a.h
  if s.policy d a.sealed a.line = 1 then (s.cleanDie d a.line true).sliceWb d a.line data poison true a.sealed else s

/-- The L1 copies of a cluster go. -/
def State.dropL1 (s : State) (d c l : Nat) : State :=
  s.forAll [2 * c, 2 * c + 1] (fun s j => (s.dropCopy d (uL1d j) l).dropCopy d (uL1i j) l)

/-- The bytes that an access stores into a line, from what the line held. -/
def accStored (a : Access) (old : Bytes) : Bytes :=
  match a.kind with
  | .store b | .sc b => b
  | .amo op wide v =>
    let n := if wide then 8 else 4
    bytesLE n (amoValue op (8 * n) (accWord a old n) v.toNat)
  | _ => []

/-- What a store, an AMO and a successful SC answer. -/
def accStoreAnswer (a : Access) (old : Bytes) : Resp :=
  match a.kind with
  | .amo _ wide _ => let n := if wide then 8 else 4; .data (amoResult (8 * n) (accWord a old n))
  | .sc _ => .data 0
  | _ => .ok

/-- The access is an AMO, which reads what it stores over. -/
def accIsAmo (a : Access) : Bool := match a.kind with | .amo .. => true | _ => false

/-- The access ends: bytes went over a line that held `old` in a copy of the die, and an SC gives up its reservation. -/
def State.storeDone (s : State) (a : Access) (old data : Bytes) (poison : Bool) : State :=
  let s := match a.kind with
    | .sc _ => s.unreserve (hartDie a.h) (a.h % 18)
    | _ => s
  (s.answer (accStoreAnswer a old)).wtClean a data poison

/-- A store into a line that the die owns and that the hart's L1D does not hold modified. -/
def State.storeInto (s : State) (a : Access) : State :=
  let d := hartDie a.h
  let c := hartCluster a.h
  let u1 := uL1d (a.h % 18)
  let keep : Bool := ((s.copyIn d u1 a.line).map (fun y => y.resv)).getD false
  let s := s.collapseDie d a.line
  match s.bestHolder d a.line with
  | none => s
  | some (u, x) =>
    if x.poison ∧ accIsAmo a then s.consumePoison a
    else
      let b := accStored a x.data
      let data := putBytes x.data a.off b
      let poison := x.poison && decide (b.length < 64)
      let s := (s.when (u < 45) (fun s => s.dropL1 d (u - 36) a.line)).hit d u a.line
      let s := s.when (u = uL2 c) (fun s => s.fillL1 d u1 a.line 2 data poison false)
      let s := if u = uL2 c ∧ (s.findWay d u1 a.line).isSome then
          (s.changeCopy d u a.line (fun y => { y with st := max 1 y.st })).changeCopy d u1 a.line (fun y => { y with resv := keep })
        else s.changeCopy d u a.line (fun y => { y with st := 2, data := data, poison := poison })
      s.storeDone a x.data data poison

/-- A store into a line that the die owns. L1D holds the bytes (R143) and the cluster's L2 the ownership, and other L1 copies go;
a line that L1D or the L2 cannot take is changed in the structure that holds it (R150). A store of the whole line clears its
poison, and an AMO finds it (Table 18.2). -/
def State.storeOwned (s : State) (a : Access) : State :=
  let d := hartDie a.h
  let c := hartCluster a.h
  let u1 := uL1d (a.h % 18)
  match s.copyIn d u1 a.line with
  | some x =>
    if x.st = 2 then
      if x.poison ∧ accIsAmo a then s.consumePoison a
      else
        let b := accStored a x.data
        let data := putBytes x.data a.off b
        let poison := x.poison && decide (b.length < 64)
        ((s.hit d u1 a.line).changeCopy d u1 a.line (fun y => { y with data := data, poison := poison })).storeDone a x.data data poison
    else s.storeInto a
  | none => s.storeInto a

/-- The peer of the die that serves a read (R165): L3, or an L2 in E or M. -/
def State.peerOf (s : State) (d l : Nat) : Option (Nat × CLine) :=
  match s.copyIn d (uL3 (sliceOf l)) l with
  | some x => some (uL3 (sliceOf l), x)
  | none => (((List.range 9).map uL2).filterMap (fun u => (s.copyIn d u l).map (fun x => (u, x)))).find? (fun p => decide (1 ≤ p.2.st))

/-- A peer gives a read its line (R165): a modified line moves to the requester's L2, L3 gives a clean copy and keeps its own,
and an L2 in E hands its line over. Where no way of the requester's L2 may take it, the read ends with the data and the line
stays (R150). -/
def State.peerServes (s : State) (a : Access) (u : Nat) (x : CLine) : State :=
  let d := hartDie a.h
  let c := hartCluster a.h
  let s := s.hit d u a.line
  if s.l2Room d c a.line = false then s.loadDone a x
  else if u < 45 then ((s.dropCluster d (u - 36) a.line).fillL2 d c a.line x.st x.data x.poison).readFromL2 a
  else if x.st = 2 then ((s.dropCopy d u a.line).fillL2 d c a.line 2 x.data x.poison).readFromL2 a
  else (s.fillL2 d c a.line 0 x.data x.poison).readFromL2 a

/-- The requester takes the whole die's ownership (R165): one copy stays, in E or M, and every other goes; it stands in the
requester's L2, or where it was if no way of that L2 may take it (R150). -/
def State.takeOwnership (s : State) (a : Access) : State :=
  let d := hartDie a.h
  let c := hartCluster a.h
  let l := a.line
  let s := s.collapseDie d l
  match s.bestHolder d l with
  | none => s
  | some (u, x) =>
    if s.l2Room d c l then (s.dropDie d l).fillL2 d c l (max 1 x.st) x.data x.poison
    else
      let s := s.forAll ((s.holders d l).filter (fun v => v != u)) (fun s v =>
        if v < 45 then s.dropCluster d (v - 36) l else s.dropCopy d v l)
      s.changeCopy d u l (fun y => { y with st := max 1 y.st })

/-- An access waits at the slice. -/
def State.sliceWait (s : State) (d : Nat) (a : Access) : State :=
  let x := s.sliceTxn d a.line
  s.setSliceTxn d a.line { x with waiting := x.waiting ++ [a] }

/-- The slice opens a transaction with a request to the home; without a free entry the access waits on the ring
(R166). -/
def State.sliceOpen (s : State) (d : Nat) (a : Access) (st : SliceSt) (k : CohKind) : State :=
  if s.entryFree d (sliceOf a.line) then
    let t := s.nextTxn d (sliceOf a.line)
    let s := t.1.setSliceTxn d a.line { (default : SliceTxn) with st := st, waiting := [a] }
    s.toHome k { sliceMsg d a.line a.sealed a.reserved with txn := t.2, flag := a.kind == .fetch }
  else { s with ring := s.ring ++ [a] }

/-- A read that misses in its cluster is broadcast (Table 7.4, Read miss). -/
def State.readBroadcast (s : State) (a : Access) : State :=
  let d := hartDie a.h
  match (s.sliceTxn d a.line).st with
  | .isD | .ixD | .miA => s.sliceWait d a
  | st =>
    let s' := s.collapseDie d a.line
    match s'.peerOf d a.line with
    | some (u, x) => s'.peerServes a u x
    | none => if st = .stable then s.sliceOpen d a .isD .rdS else s.sliceWait d a

/-- A need for ownership (Table 7.4). -/
def State.ownBroadcast (s : State) (a : Access) : State :=
  let d := hartDie a.h
  if s.lineBusy d a.line then s.sliceWait d a
  else
    match s.dieLevel d a.line with
    | 0 => s.sliceOpen d a .ixD .rdX
    | 1 => s.sliceOpen d a .sxA .upg
    | _ => (s.takeOwnership a).storeOwned a

/-- The bytes of a write-combining buffer leave as one byte-masked write (R147), which is open until its CMP. -/
def State.wcSend (s : State) (h : Nat) (w : WcBuf) : State :=
  let d := hartDie h
  let t := s.nextTxn d (sliceOf w.line)
  let s := t.1.setDie d { t.1.dieSt d with sent := (t.1.dieSt d).sent ++ [⟨h, w.line, t.2, none, w.sealed, false⟩] }
  s.toHome .ncWr { sliceMsg d w.line w.sealed w.reserved with txn := t.2, mask := w.mask, data := w.data }

/-- The write-combining buffer of a hart is empty; what it held has left (R147). -/
def State.wcDrain (s : State) (h : Nat) : State :=
  match (s.hartSt h).wc with
  | some w => (s.setHart h { s.hartSt h with wc := none }).wcSend h w
  | none => s

/-- A store that misses under WNA (R147): its bytes join the write-combining buffer, which leaves as one full-line write once
every byte is there. -/
def State.maskedWrite (s : State) (a : Access) (b : Bytes) : State :=
  let old := (s.hartSt a.h).wc.getD ⟨a.line, 0, zeros 64, a.sealed, a.reserved⟩
  let w := { old with mask := old.mask ||| (2 ^ b.length - 1) <<< a.off, data := putBytes old.data a.off b }
  let s := s.answer .ok
  if w.mask = 2 ^ 64 - 1 then (s.setHart a.h { s.hartSt a.h with wc := none }).wcSend a.h w
  else s.setHart a.h { s.hartSt a.h with wc := some w }

/-- A store misses in its die under WNA. -/
def State.wnaMiss (s : State) (a : Access) : Bool :=
  s.policy (hartDie a.h) a.sealed a.line == 2 && s.dieLevel (hartDie a.h) a.line == 0 && !s.lineBusy (hartDie a.h) a.line

/-- The access is a store that joins what the hart's write-combining buffer holds. -/
def State.wcJoins (s : State) (a : Access) : Bool :=
  match a.kind, (s.hartSt a.h).wc with
  | .store _, some w => w.line == a.line && w.sealed == a.sealed && w.reserved == a.reserved && s.wnaMiss a
  | _, _ => false

/-- The line is in the L2 of the access's cluster. -/
def State.inL2 (s : State) (a : Access) : Bool := (s.findWay (hartDie a.h) (uL2 (hartCluster a.h)) a.line).isSome

/-- An L2 miss of a demand access trains the streams of its cluster by page (R148). -/
def State.trainL2 (s : State) (a : Access) : State :=
  if s.inL2 a then s else s.train (hartDie a.h) (18 + hartCluster a.h) (a.line / 64) a.line a.sealed a.h

/-- What an access teaches the prefetchers when it is made (R148): an L1D miss or a hit on a prefetched line by its PC, an L2 miss
by its page. -/
def State.trainOn (s : State) (a : Access) : State :=
  let d := hartDie a.h
  let k := a.h % 18
  match a.kind with
  | .prefL1 | .prefL2 => s
  | .fetch => if (s.findWay d (uL1i k) a.line).isSome then s else s.trainL2 a
  | .load | .lr _ =>
    match s.copyIn d (uL1d k) a.line with
    | some x => s.when (x.pref = true) (fun s => s.train d k a.pc (64 * a.line + a.off) a.sealed a.h)
    | none => (s.train d k a.pc (64 * a.line + a.off) a.sealed a.h).trainL2 a
  | _ => s.trainL2 a

/-- A need for ownership of a line reaches L2: a line that L2 holds with the right to modify it is changed, and any other is
broadcast on the ring (R165). -/
def State.coreOwns (s : State) (a : Access) : State :=
  let d := hartDie a.h
  match s.copyIn d (uL2 (hartCluster a.h)) a.line with
  | some x => if 1 ≤ x.st ∧ s.lineBusy d a.line = false then s.storeOwned a else s.ownBroadcast a
  | none => s.ownBroadcast a

/-- A store or an AMO. Under WT it waits on the ring until its clean, and a line that it may drive out, find eviction buffers
(R147, R166); a store that misses under WNA goes to the write-combining buffer. -/
def State.coreStore (s : State) (a : Access) : State :=
  let d := hartDie a.h
  if s.policy d a.sealed a.line = 1 ∧ s.lineBusy d a.line = false ∧ s.wbRoom d (sliceOf a.line) 2 = false then
    { s with ring := s.ring ++ [a] }
  else
    match a.kind with
    | .store b => if s.inL2 a = false ∧ s.wnaMiss a then s.maskedWrite a b else s.coreOwns a
    | _ => s.coreOwns a

/-- The hart's reservation holds the line (R121): its L1D has held it since the LR. -/
def State.reserved (s : State) (a : Access) : Bool :=
  match s.copyIn (hartDie a.h) (uL1d (a.h % 18)) a.line with
  | some x => x.resv
  | none => false

/-- An access of a core reaches its caches: a hit ends there; a miss, or a store to a line held in S, is broadcast on the ring. An
SC without the reservation fails. -/
def State.coreAccess (s : State) (a : Access) : State :=
  let d := hartDie a.h
  let k := a.h % 18
  match a.kind with
  | .fetch =>
    match s.copyIn d (uL1i k) a.line with
    | some x => (s.hit d (uL1i k) a.line).loadDone a x
    | none => if s.inL2 a then s.readFromL2 a else s.readBroadcast a
  | .store _ | .amo .. => s.coreStore a
  | .sc _ => if s.reserved a then s.coreStore a else (s.unreserve d k).answer (.data 1)
  | .prefL2 => if s.inL2 a ∨ s.lineBusy d a.line then s else s.readBroadcast a
  | .prefL1 =>
    if (s.findWay d (uL1d k) a.line).isSome ∨ s.lineBusy d a.line then s
    else if s.inL2 a then s.readFromL2 a else s.readBroadcast a
  | .load | .lr _ =>
    match s.copyIn d (uL1d k) a.line with
    | some x =>
      let s := s.when (x.pref = true) (fun s => s.changeCopy d (uL1d k) a.line (fun y => { y with pref := false }))
      (s.hit d (uL1d k) a.line).loadDone a x
    | none => if s.inL2 a then s.readFromL2 a else s.readBroadcast a

/-- The bytes that an access stores lie in its line. -/
def accFits (a : Access) : Bool :=
  match a.kind with
  | .store b | .sc b => decide (a.off + b.length ≤ 64) && decide (b ≠ [])
  | _ => true

/-- The access can be made: its hart executes, its die is part of the package, the line lies in the HBM range and the bytes in
the line. -/
def State.accessOk (s : State) (a : Access) : Bool :=
  lineInHbm a.line && decide (a.off < 64) && s.hartActs a.h && s.dieIn (hartDie a.h) &&
    !s.clusterSwitching (hartDie a.h) (hartCluster a.h) && accFits a

/-- The access with the tags and the class that its hart gives it (R129, R127): Sealed in machine mode, else its cluster's world; a
data access in an enabled window is of reserved class, a fetch or a prefetch never. -/
def State.accessTagged (s : State) (a : Access) : Access :=
  { a with
    sealed := a.mode == .m || s.clusterSealed (hartDie a.h) (hartCluster a.h)
    reserved := (match a.kind with | .fetch | .prefL1 | .prefL2 => false | _ => true) && s.inReservedWindow a.h (64 * a.line + a.off) }

/-- The size that an AMO, an LR or an SC must be aligned to (R121); 1 of any other access. -/
def accAlign (a : Access) : Nat :=
  match a.kind with
  | .amo _ wide _ | .lr wide => if wide then 8 else 4
  | .sc b => max 1 b.length
  | _ => 1

/-- What an access needs of the PMP. -/
def accPmpBit (a : Access) : Nat :=
  match a.kind with
  | .fetch => pmpX
  | .store _ | .sc _ | .amo .. => pmpW
  | _ => pmpR

/-- The exception of an access before it reaches a cache (R121): a misaligned AMO, LR or SC, or the PMP. -/
def State.accessFault (s : State) (a : Access) : Option Resp :=
  if a.off % accAlign a ≠ 0 then some .misaligned
  else if s.pmpFault a.h a.mode (64 * a.line + a.off) 1 (accPmpBit a) ∨ accIsAmo a ∧ s.pmpFault a.h a.mode (64 * a.line + a.off) 1 pmpR then
    some .accessFault
  else none

/-- The access ends in an L1 cache: no tag of L2 or L3 is looked up. -/
def State.endsInL1 (s : State) (a : Access) : Bool :=
  match a.kind with
  | .load | .lr _ => (s.findWay (hartDie a.h) (uL1d (a.h % 18)) a.line).isSome
  | .fetch => (s.findWay (hartDie a.h) (uL1i (a.h % 18)) a.line).isSome
  | _ => false

/-- The hart's write-combining buffer leaves before an access, unless it is a store that joins it (R147). -/
def State.wcBefore (s : State) (a : Access) : State :=
  match a.kind with
  | .prefL1 | .prefL2 => s
  | _ => if s.wcJoins a then s else s.wcDrain a.h

/-- An access of a hart: it looks its line up, teaches the prefetchers, and reaches the caches. -/
def State.hartAccess (s : State) (a : Access) : State :=
  let s := (s.wcBefore a).dieLook (hartDie a.h) a.line
  if s.endsInL1 a = false ∧ s.dieEcc (hartDie a.h) a.line then
    s.fatalStop (dieLog (hartDie a.h)) 0x02 a.line (hartDie a.h)
  else (s.trainOn a).coreAccess a

/-- RING_BROADCAST (R165): an access of a hart, made in a mode, raises its exception or reaches the caches. -/
def execRingBroadcast (a : Access) (s : State) : Result :=
  if s.stopped ∨ s.accessOk a = false then .next s
  else
    let s := s.inMode a.h a.mode
    match s.accessFault a with
    | some e => .next (s.answer e)
    | none => .next (s.hartAccess (s.accessTagged a))

/-- L3_EVICTION (R165): the line in a way of an L2 or of a slice leaves it. -/
def execL3Eviction (die : Fin 12) (unit : Fin 13) (set : Nat) (way : Fin 16) (s : State) : Result :=
  let d := die.val
  let u := 36 + unit.val
  let x := s.cline d u set way
  if s.stopped ∨ x.valid = false ∨ s.lineBusy d x.line ∨ s.wbFree d (sliceOf x.line) = false then .next s
  else if s.dieEcc d x.line then .next (s.fatalStop (dieLog d) 0x02 x.line d)
  else if unit.val < 9 then .next (s.evictL2 d unit set way) else .next (s.evictL3 d (unit.val - 9) set way)

/-- An access that waited is handled again. -/
def State.accessAgain (s : State) (a : Access) : State := (s.wcBefore a).coreAccess a

/-- Accesses that waited are handled again, in order; those on the ring after them. -/
def State.rerun (s : State) (d : Nat) (w : List Access) : State :=
  let s := s.forAll w State.accessAgain
  let r := s.ring.filter (fun a => hartDie a.h == d)
  let s := { s with ring := s.ring.filter (fun a => hartDie a.h != d) }
  s.forAll r State.accessAgain

/-- The transaction of a line in its slice ends, and what waited is handled again. -/
def State.sliceEnd (s : State) (d l : Nat) (skip : Nat) : State :=
  let w := (s.sliceTxn d l).waiting.drop skip
  ({ s with slices := SMap.drop s.slices (sliceKey d l) }).rerun d w

/-! ### Snoops (Table 7.4) -/

/-- A response of a die to its home. -/
def State.respond (s : State) (d : Nat) (k : CohKind) (m : CohMsg) (x : Option CLine) (tag : Nat) : State :=
  let y := x.getD default
  let r : CohMsg := { m with src := d, flag := false, tag := tag, data := y.data, poison := y.poison }
  s.toHome k r

/-- R155: a copy lies in an L3 way owned by the other world, or in the caches of a cluster of the other world. -/
def State.otherWorldCopy (s : State) (d l : Nat) (sealed : Bool) : Bool :=
  (s.holders d l).any (fun u =>
    if u < 45 then s.clusterSealed d (u - 36) != sealed
    else match s.findWay d u l with
      | some w => s.wayOwner d (u - 45) w != sealed
      | none => false)

/-- A snoop reaches the slice of its line. -/
def State.snoop (s : State) (d : Nat) (k : CohKind) (m : CohMsg) : State :=
  let l := m.line
  let t := s.sliceTxn d l
  let buf : CLine := ⟨true, l, 2, t.data, t.poison, false, false⟩
  match t.st with
  | .isD | .ixD => (s.dropDie d l).respond d .rspI m none 0
  | .miA => s.respond d .rspEvd m (some buf) t.tag
  | .mkA => ((s.dropDie d l).setSliceTxn d l { t with st := .miA }).respond d .rspEvd m (some buf) t.tag
  | .sxA =>
    if k = .snpI then ((s.dropDie d l).setSliceTxn d l { t with st := .ixD }).respond d .rspI m none 0
    else s.respond d .rspK m none 0
  | .stable =>
    let s := s.collapseDie d l
    match s.dieLevel d l with
    | 0 => s.respond d .rspI m none 0
    | 3 =>
      let x := s.modifiedCopy d l
      match k with
      | .snpS => (s.cleanDie d l false).respond d .rspKd m x 0
      | .snpC => (s.cleanDie d l true).respond d .rspKd m x 0
      | _ =>
        if m.flag ∧ s.otherWorldCopy d l m.sealed = false then (s.dropDie d l).respond d .rspI m none 0
        else (s.dropDie d l).respond d .rspId m x 0
    | _ =>
      match k with
      | .snpS => (s.cleanDie d l false).respond d .rspK m none 0
      | .snpC => s.respond d .rspK m none 0
      | _ => (s.dropDie d l).respond d .rspI m none 0

/-- A snoop at a die that follows Tables 7.3 to 7.5. -/
def State.dieSnoop (s : State) (d : Nat) (k : CohKind) (m : CohMsg) : Result :=
  if s.stopped ∨ (s.dieSt d).otherMake then .next s
  else if s.dieEcc d m.line then .next (s.fatalStop (dieLog d) 0x02 m.line d)
  else .next ((s.dieLook d m.line).snoop d k m)

/-- SNP_S (R169). -/
def execSnpS (die : Fin 12) (m : CohMsg) (s : State) : Result := s.dieSnoop die .snpS m
/-- SNP_I (R169). -/
def execSnpI (die : Fin 12) (m : CohMsg) (s : State) : Result := s.dieSnoop die .snpI m
/-- SNP_C (R169). -/
def execSnpC (die : Fin 12) (m : CohMsg) (s : State) : Result := s.dieSnoop die .snpC m

/-! ### Replies (Table 7.5) -/

/-- A line from the home is installed: in L3 where the policy and a way of the world allow, and in the L2 of the first
waiting access; ownership is held by L3 if L3 took the line (R145, R147, R151). -/
def State.install (s : State) (d : Nat) (m : CohMsg) (st : Nat) : State :=
  match (s.sliceTxn d m.line).waiting.head? with
  | none => s
  | some a =>
    let c := hartCluster a.h
    let s := s.dropDie d m.line
    let r := if s.policy d a.sealed m.line = 3 then (s, false) else s.fillL3 d m.line st m.data m.poison a.sealed
    r.1.fillL2 d c m.line (if r.2 then 0 else st) m.data m.poison

/-- After a fill the accesses that waited are handled again. A line that no way could take serves the read that asked for it
with its data (R150). -/
def State.filled (s : State) (d : Nat) (m : CohMsg) : State :=
  let l := m.line
  if s.holders d l = [] then
    match (s.sliceTxn d l).waiting with
    | a :: _ =>
      match a.kind with
      | .store _ | .sc _ | .amo .. => s.sliceEnd d l 0
      | _ => (s.loadDone a ⟨true, l, 0, m.data, m.poison, false, false⟩).sliceEnd d l 1
    | [] => s.sliceEnd d l 0
  else s.sliceEnd d l 0

/-- Ownership is granted without data: the waiting store's cluster takes the line, and every other copy goes (Table 7.5,
R165). -/
def State.granted (s : State) (d l : Nat) : State :=
  match (s.sliceTxn d l).waiting with
  | a :: _ => s.takeOwnership a
  | [] => s

/-- A reply of a home at a Skelura die; one that Table 7.5 marks Fatal stops the domain with code 0x03. -/
def State.reply (s : State) (d : Nat) (k : CohKind) (m : CohMsg) : Result :=
  if s.stopped ∨ (s.dieSt d).otherMake then .next s
  else if s.dieEcc d m.line then .next (s.fatalStop (dieLog d) 0x02 m.line d)
  else
    let s := s.dieLook d m.line
    let l := m.line
    let ack := fun (s : State) => s.toHome .fack { m with src := d, flag := false, data := [], poison := false, tag := 0 }
    match k, (s.sliceTxn d l).st with
    | .dataS, .isD => .next ((ack (s.install d m 0)).filled d m)
    | .dataE, .isD | .dataE, .ixD => .next ((ack (s.install d m 1)).filled d m)
    | .gntX, .sxA => .next ((ack (s.granted d l)).sliceEnd d l 0)
    | .wbAck, .miA | .wbStale, .miA | .wbAck, .mkA => .next (s.sliceEnd d l 0)
    | _, _ => .next (s.fatalStop (dieLog d) 0x03 l m.src)

/-- DATA_S (R169). -/
def execDataS (die : Fin 12) (m : CohMsg) (s : State) : Result := s.reply die .dataS m
/-- DATA_E (R169). -/
def execDataE (die : Fin 12) (m : CohMsg) (s : State) : Result := s.reply die .dataE m
/-- GNT_X (R169). -/
def execGntX (die : Fin 12) (m : CohMsg) (s : State) : Result := s.reply die .gntX m
/-- WB_ACK (R169). -/
def execWbAck (die : Fin 12) (m : CohMsg) (s : State) : Result := s.reply die .wbAck m
/-- WB_STALE (R169). -/
def execWbStale (die : Fin 12) (m : CohMsg) (s : State) : Result := s.reply die .wbStale m

/-- The access that opened a transaction ends with an error response (Table 18.1). -/
def State.accessFails (s : State) (a : Access) : State :=
  match a.kind with
  | .store _ => s.logRec (dieLog (hartDie a.h)) Cause.ACCESS 0 (64 * a.line) ⟨a.sealed, none, 0, .hart a.h⟩ 0
  | .prefL1 | .prefL2 => s
  | _ => s.answer .accessFault

/-! ### Prefetch (R148, R149) -/

/-- The next line of a stream: the line of its next stride, or, where the stride lies inside a line, the next line in its
direction; none outside the page of the access that trained it last (R148, R149). -/
def Stream.nextLine (x : Stream) (u : Nat) : Option Nat :=
  let sub : Bool := decide (u < 18 ∧ x.stride.natAbs < 64)
  let next : Int :=
    if sub then (x.last / 64 : Nat) + (if 0 ≤ x.stride then 1 else -1) * ((x.ahead : Int) + 1)
    else
      let p := (x.last : Int) + x.stride * ((x.ahead : Int) + 1)
      if u < 18 then p / 64 else p
  if 0 ≤ next ∧ next.toNat / 64 = streamLine u x.last / 64 then some next.toNat else none

/-- The core of an L1D prefetcher, or a core of an L2 prefetcher's cluster, executes (R137, R141, Table 5.2). -/
def State.prefetchRuns (s : State) (d u : Nat) : Bool :=
  if u < 18 then s.hartActs (18 * d + u) else s.hartActs (hartOf d (u - 18) 0) || s.hartActs (hartOf d (u - 18) 1)

/-- PREFETCH_ISSUE (R148): a confirmed stream issues the next line ahead within its page. -/
def execPrefetchIssue (die : Fin 12) (unit : Fin 27) (idx : Fin 32) (s : State) : Result :=
  let d := die.val
  let u := unit.val
  let x := s.stream d u idx
  let dist := if u < 18 then s.get (L.WLD_PFCTL.L1_DIST d) else s.get (L.WLD_PFCTL.L2_DIST d)
  if s.stopped ∨ x.key = 0 ∨ x.seen < 3 ∨ s.pfEnabled d u = false ∨ dist ≤ x.ahead ∨ s.prefetchRuns d u = false ∨ s.dieIn d = false then .next s
  else match x.nextLine u with
    | none => .next s
    | some l =>
      let s := { s with streams := SMap.set s.streams (streamKey d u idx) { x with ahead := x.ahead + 1 } }
      if lineInHbm l ∧ s.pfOff d x.sealed l = false then
        let s := s.dieLook d l
        if s.dieEcc d l then .next (s.fatalStop (dieLog d) 0x02 l d)
        else .next (s.coreAccess ⟨x.h, l, 0, if u < 18 then .prefL1 else .prefL2, x.sealed, false, 0, .s⟩)
      else .next s

/-! ### Maintenance by address (R153 to R155) -/

/-- A transaction is open on the line at its home or in the slice of a die (R154). -/
def State.lineOpen (s : State) (l : Nat) : Bool :=
  let h := s.homeOf l
  (s.txnOn h l).isSome || (s.home h).waiting.any (fun p => p.2.line == l) || (List.range 12).any (fun d => s.lineBusy d l)

/-- The filter names a die of another make for the line: its copy is reached only by a snoop of the home (R22). -/
def State.otherHolds (s : State) (l : Nat) : Bool :=
  (onesBelow 12 (s.sfState (s.homeOf l) l).2).any (fun d => (s.dieSt d).otherMake)

/-- The modified copy of a line on any die. -/
def State.dirtyCopy (s : State) (l : Nat) : Option CLine :=
  ((List.range 12).filterMap (fun d => (s.collapseDie d l).modifiedCopy d l)).head?

/-- The modified data of a line on any die is written to memory. -/
def State.flushToMemory (s : State) (l : Nat) (c : Issuer) : State :=
  s.forAll (List.range 12) (fun s d =>
    match (s.collapseDie d l).modifiedCopy d l with
    | some x => ((s.collapseDie d l).memWriteLine l x.data x.poison c).1
    | none => s)

/-- The dies that a request snoops (Table 7.6): the owner, or with `all` every die that the filter names. -/
def State.snooped (s : State) (l : Nat) (all : Bool) : Nat :=
  let st := s.sfState (s.homeOf l) l
  if all ∨ st.1 = 2 then st.2 else 0

/-- The fatal stop of an uncorrectable error that a request on a line meets, at its home or in a die that it snoops (R181). -/
def State.lineFatal (s : State) (l src : Nat) (all : Bool) : Option State :=
  let h := s.homeOf l
  if s.homeEcc h l then some (s.fatalStop (haLog h) 0x01 l src)
  else match (onesBelow 12 (s.snooped l all)).find? (fun d => s.dieEcc d l) with
    | some d => some (s.fatalStop (dieLog d) 0x02 l d)
    | none => none

/-- Home and dies put right the single-bit errors that the request meets (R143, R176). -/
def State.lineCorrect (s : State) (l : Nat) (all : Bool) : State :=
  (s.homeCorrect (s.homeOf l) l).forAll (onesBelow 12 (s.snooped l all)) (fun s d => s.dieLook d l)

/-- A request of a die for a hart: an operation on a line, with the identifier it left under, or waiting. -/
def State.dieSent (s : State) (h l txn op : Nat) (sealed waits : Bool) : State :=
  let d := hartDie h
  s.setDie d { s.dieSt d with sent := (s.dieSt d).sent ++ [⟨h, l, txn, some op, sealed, waits⟩] }

/-- The outcome of a maintenance operation in every cache of the package (Table 6.3): 0 clean, 1 flush, 2 discard. One whose line
has an earlier masked write of its die waits for it; one that must wait for a transaction, for room in WQ, or for a die of another
make, goes to the home as CMO (R153, R154). -/
def State.maintain (s : State) (h l op : Nat) (c : Issuer) : State :=
  let d := hartDie h
  if lineInHbm l = false then s
  else if (s.dieSt d).sent.any (fun r => r.op.isNone && r.line == l) then s.dieSent h l 0 op c.sealed true
  else if s.lineOpen l ∨ s.otherHolds l ∨ (s.dirtyCopy l).isSome ∧ s.writeRoom l = false then
    let t := s.nextTxn d (sliceOf l)
    (t.1.dieSent h l t.2 op c.sealed false).toHome .cmo
      { sliceMsg d l c.sealed (s.inReservedWindow h (64 * l)) with txn := t.2, op := op, flag := op == 2 }
  else
    match s.lineFatal l d (op != 0) with
    | some t => t
    | none =>
      let s := s.lineCorrect l (op != 0)
      let discard : Bool := op == 2 && !((List.range 12).any (fun d => s.otherWorldCopy d l c.sealed))
      let s := if discard then s else s.flushToMemory l c
      if op = 0 then s.forAll (List.range 12) (fun s d => s.cleanDie d l true)
      else (s.forAll (List.range 12) (fun s d => s.dropDie d l)).sfPut (s.homeOf l) l 0 0

/-- The CMP of a masked write or of a maintenance operation of a die (R172, R153): a write that memory refused is logged (Table
18.1), and operations that waited for the line's last masked write are performed. -/
def State.dieDone (s : State) (d : Nat) (m : CohMsg) : State :=
  match (s.dieSt d).sent.find? (fun r => !r.waits && r.txn == m.txn && r.line == m.line) with
  | none => s
  | some r =>
    let s := s.setDie d { s.dieSt d with sent := (s.dieSt d).sent.erase r }
    let s := s.when (m.err = true ∧ r.op = none) (fun s =>
      s.logRec (dieLog d) Cause.ACCESS 0 (64 * r.line) ⟨r.sealed, none, 0, .hart r.h⟩ 0)
    if (s.dieSt d).sent.any (fun q => q.op.isNone && q.line == m.line) then s
    else
      let w := (s.dieSt d).sent.filter (fun q => q.waits && q.line == m.line)
      (s.setDie d { s.dieSt d with sent := (s.dieSt d).sent.filter (fun q => !(q.waits && q.line == m.line)) }).forAll w
        (fun s q => s.maintain q.h q.line (q.op.getD 0) ⟨q.sealed, none, 0, .hart q.h⟩)

/-- A request of the harts for which `p` holds waits for its CMP (R321). -/
def State.homeHolds (s : State) (p : Nat → Bool) : Bool :=
  (List.range 12).any (fun d => (s.dieSt d).sent.any (fun r => p r.h))

/-- A maintenance instruction of a hart in a mode: `inst` 0 clean, 1 flush, 2 inval, with the operation it performs. It raises
the exception that the environment configuration gives it (R121), or is performed. -/
def State.cbo (s : State) (h l inst op : Nat) (mode : PrivMode) : Result :=
  if s.hartActs h = false then .next s
  else
    let s := s.inMode h mode
    match s.cboFault h inst mode with
    | some e => .next (s.answer e)
    | none =>
      if s.pmpFault h mode (64 * l) 64 pmpR ∧ s.pmpFault h mode (64 * l) 64 pmpW then .next (s.answer .accessFault)
      else if s.stopped ∨ s.dieIn (hartDie h) = false then .next s
      else if lineInHbm l ∧ s.dieEcc (hartDie h) l then .next (s.fatalStop (dieLog (hartDie h)) 0x02 l (hartDie h))
      else .next (((s.wcDrain h).dieLook (hartDie h) l).maintain h l op (s.hartIssuer h mode))

/-- CMP (R428, R274): at a die it ends a masked write or a maintenance operation; with error status a slice frees its transaction,
or returns to S, and a WB ends; a completion issued under an old generation is discarded and counted. -/
def execCmp (agent : Fin 32) (m : CohMsg) (s : State) : Result :=
  let d := agent.val
  let old : Bool := match m.vi with
    | some v => s.get (L.VI_STATE.GEN (v / 32) (v % 32)) != m.gen
    | none => false
  if s.stopped then .next s
  else if old then
    let v := m.vi.getD 0
    .next (s.inc (L.VI_STATE.LATE (v / 32) (v % 32)))
  else if 12 ≤ d then .next s
  else if (s.dieSt d).sent.any (fun r => !r.waits && r.txn == m.txn && r.line == m.line) ∨ m.err = false then .next (s.dieDone d m)
  else
    match (s.sliceTxn d m.line).st with
    | .isD | .ixD | .sxA =>
      match (s.sliceTxn d m.line).waiting with
      | a :: _ => .next ((s.accessFails a).sliceEnd d m.line 1)
      | [] => .next (s.sliceEnd d m.line 0)
    | .miA | .mkA => .next (s.sliceEnd d m.line 0)
    | _ => .next s

/-- CBO_CLEAN (R153). -/
def execCboClean (h : Fin 216) (mode : PrivMode) (line : Nat) (s : State) : Result := s.cbo h line 0 0 mode
/-- CBO_FLUSH (R153). -/
def execCboFlush (h : Fin 216) (mode : PrivMode) (line : Nat) (s : State) : Result := s.cbo h line 1 1 mode
/-- CBO_INVAL (R153, R155): under CBIE 0b01 as cbo.flush. -/
def execCboInval (h : Fin 216) (mode : PrivMode) (line : Nat) (s : State) : Result :=
  s.cbo h line 2 (if s.cboDiscards h mode then 2 else 1) mode

/-! ### Maintenance by set and way (R156, R157) -/

/-- The structure that LEVEL and UNIT select, if UNIT is in range. -/
def swopUnit (level unit : Nat) : Option Nat :=
  if level = 0 then (if unit < 18 then some (uL1d unit) else none)
  else if level = 1 then (if unit < 18 then some (uL1i unit) else none)
  else if level = 2 then (if unit < 9 then some (uL2 unit) else none)
  else if unit < 4 then some (uL3 unit) else none

/-- One line of a structure under an operation: 0 clean, 1 invalidate, 2 both. A line with an open transaction, or one
whose write-back finds no eviction buffer, is left for later. -/
def State.swopLine (s : State) (d u set w op : Nat) : State :=
  let x := s.cline d u set w
  if x.valid = false ∨ (18 ≤ u ∧ u < 36 ∧ op = 0) ∨ s.stopped then s
  else if s.dieEcc d x.line then s.fatalStop (dieLog d) 0x02 x.line d
  else if s.lineBusy d x.line ∨ (op ≠ 1 ∧ s.wbFree d (sliceOf x.line) = false) then s
  else
    let l := x.line
    let c := if u < 18 then u / 2 else if u < 36 then (u - 18) / 2 else u - 36
    let s := if op = 1 then s else if u < 45 then s.collapse d c l else s
    let dirty : Bool := match (if u < 45 then s.copyIn d (uL2 c) l else s.copyIn d u l) with
      | some y => y.st == 2
      | none => false
    let y := (if u < 45 then s.copyIn d (uL2 c) l else s.copyIn d u l).getD default
    let wb : Bool := op != 1 && dirty && (36 ≤ u || x.st == 2)
    let world : Bool := if u < 45 then s.clusterSealed d c else s.wayOwner d (u - 45) w
    let drop := fun (s : State) => if u < 36 then s.dropCopy d u l else if u < 45 then s.dropCluster d c l else s.dropCopy d u l
    if wb then
      if op = 0 ∨ u < 36 then
        let s := (s.cleanDie d l true).sliceWb d l y.data y.poison true world
        if op = 0 then s else drop s
      else (s.dropDie d l).sliceWb d l y.data y.poison false world
    else if op = 0 then s else drop s

/-- The operation that WLD_SWOP holds acts on the lines it can. -/
def State.swopRun (s : State) (d : Nat) : State :=
  match swopUnit (s.get (L.WLD_SWOP.LEVEL d)) (s.get (L.WLD_SWOP.UNIT d)) with
  | none => s
  | some u =>
    let op := s.get (L.WLD_SWOP.OP d)
    if s.get (L.WLD_SWOP.ALL d) = 1 then s.forAll (s.swopLines d u) (fun s p => s.swopLine d u p.1 p.2 op)
    else s.swopLine d u (s.get (L.WLD_SWOP.SET d)) (s.get (L.WLD_SWOP.WAY d)) op

/-- A line that the operation still has to treat. -/
def State.swopOpen (s : State) (d : Nat) : Bool :=
  match swopUnit (s.get (L.WLD_SWOP.LEVEL d)) (s.get (L.WLD_SWOP.UNIT d)) with
  | none => false
  | some u =>
    let op := s.get (L.WLD_SWOP.OP d)
    let dirty := fun (x : CLine) => if 36 ≤ u ∧ u < 45 then s.l2Dirty d (u - 36) x else x.st == 2
    let rest := fun (x : CLine) => x.valid && (s.lineBusy d x.line || op != 0 || dirty x) && !(decide (18 ≤ u ∧ u < 36) && op == 0)
    if s.get (L.WLD_SWOP.ALL d) = 1 then (s.swopLines d u).any (fun p => rest (s.cline d u p.1 p.2))
    else rest (s.cline d u (s.get (L.WLD_SWOP.SET d)) (s.get (L.WLD_SWOP.WAY d)))

/-- The operation is out of range, or names a line of a Piton way. -/
def State.swopBad (s : State) (d : Nat) : Bool :=
  match swopUnit (s.get (L.WLD_SWOP.LEVEL d)) (s.get (L.WLD_SWOP.UNIT d)) with
  | none => true
  | some u =>
    s.get (L.WLD_SWOP.ALL d) != 1 &&
      (decide (setsOf u ≤ s.get (L.WLD_SWOP.SET d)) || (45 ≤ u && s.pitonWay d (u - 45) (s.get (L.WLD_SWOP.WAY d))))

/-- A write of WLD_SWOP (R156, R157). -/
def State.writeSwop (s : State) (d : Nat) (c : Issuer) (v : Nat) : State :=
  if c.sealed = false then s.worldError (dieLog d) (regAddr (R.WLD_SWOP d)) c
  else if s.get (L.WLD_SWSTAT.BUSY d) = 1 then s.otherViolation (dieLog d) (R.WLD_SWOP d) c
  else if bits v 1 0 = 3 then s.reservedEnc (dieLog d) (R.WLD_SWOP d) c
  else
    let s := (s.put (L.WLD_SWOP.SET d) (bits v 33 20)).put (L.WLD_SWOP.WAY d) (bits v 19 16)
    let s := (s.put (L.WLD_SWOP.ALL d) (bits v 9 9)).put (L.WLD_SWOP.UNIT d) (bits v 8 4)
    let s := (s.put (L.WLD_SWOP.LEVEL d) (bits v 3 2)).put (L.WLD_SWOP.OP d) (bits v 1 0)
    if v.testBit 63 then
      if s.swopBad d then (s.raise (L.WLD_SWSTAT.ERR d)).raise (L.WLD_SWSTAT.DONE d)
      else (s.put (L.WLD_SWSTAT.BUSY d) 1).swopRun d
    else s

/-- SWOP_CLEAN (R156). -/
def execSwopClean (c : Issuer) (die : Fin 12) (v : Word) (s : State) : Result :=
  .next (s.issue c (fun c s => s.dieAccess die (R.WLD_SWOP die) c (fun s => s.writeSwop die c v.toNat)))
/-- SWOP_INVALIDATE (R156). -/
def execSwopInvalidate (c : Issuer) (die : Fin 12) (v : Word) (s : State) : Result :=
  .next (s.issue c (fun c s => s.dieAccess die (R.WLD_SWOP die) c (fun s => s.writeSwop die c v.toNat)))
/-- SWOP_CLEAN_INVALIDATE (R156). -/
def execSwopCleanInvalidate (c : Issuer) (die : Fin 12) (v : Word) (s : State) : Result :=
  .next (s.issue c (fun c s => s.dieAccess die (R.WLD_SWOP die) c (fun s => s.writeSwop die c v.toNat)))

/-- SWOP_DONE (R156, R157): once no line waits for its transaction, BUSY clears and DONE is set. -/
def execSwopDone (die : Fin 12) (s : State) : Result :=
  let d := die.val
  if s.get (L.WLD_SWSTAT.BUSY d) = 1 then
    let s := s.swopRun d
    if s.swopOpen d then .next s else .next ((s.put (L.WLD_SWSTAT.BUSY d) 0).raise (L.WLD_SWSTAT.DONE d))
  else .next s

/-! ### Piton memory (R158 to R161) -/

/-- The address of a line of a Piton way (R159). -/
def pitonBase (d sl w : Nat) : Nat := 0x10000000000 + d * 0x10000000 + sl * 0x900000 + (w - 4) * 0xC0000

/-- Every byte of an address range becomes zero. -/
def State.zeroRange (s : State) (lo n : Nat) : State :=
  { s with mem := s.mem.filter (fun c => !(decide (lo ≤ c.1 ∧ c.1 < lo + n))),
           poison := s.poison.filter (fun p => !(decide (lo ≤ 64 * p.1 ∧ 64 * p.1 < lo + n))) }

/-- Every line of a way of a slice leaves it. -/
def State.emptyWay (s : State) (d sl w : Nat) : State :=
  s.forAll ((s.allLines d (uL3 sl)).filter (fun p => p.2 == w)) (fun s p => s.swopLine d (uL3 sl) p.1 w 2)

/-- A write of WLD_L3WAY (R158, R162): bits of ways the writer's world does not own are ignored; while BUSY is 1 a write
that changes PITON is a violation. -/
def State.writeL3way (s : State) (d sl : Nat) (c : Issuer) (v : Nat) : State :=
  let old := s.get (L.WLD_L3WAY.PITON d sl)
  let new := (List.range 12).foldl (fun n i =>
    if s.wayOwner d sl (4 + i) = c.sealed then (if v.testBit (4 + i) then setBit n i else clearBit n i) else n) old
  if new = old then s
  else if s.get (L.WLD_L3WAY.BUSY d sl) = 1 then s.otherViolation (dieLog d) (R.WLD_L3WAY d sl) c
  else
    let ch := new ^^^ old
    let s := { s with pitonBusy := SMap.set s.pitonBusy (4 * d + sl) (ch <<< 4) }
    let s := (s.put (L.WLD_L3WAY.PITON d sl) new).put (L.WLD_L3WAY.BUSY d sl) 1
    s.forAll (onesBelow 12 (ch &&& new)) (fun s i => s.emptyWay d sl (4 + i))

/-- PITON_MODE_CHANGE (R158). -/
def execPitonModeChange (c : Issuer) (die : Fin 12) (slice : Fin 4) (v : Word) (s : State) : Result :=
  .next (s.issue c (fun c s => s.dieAccess die (R.WLD_L3WAY die slice) c (fun s => s.writeL3way die slice c v.toNat)))

/-- PITON_CHANGE_DONE (R158): every way that changes is zero and holds no line; BUSY clears. A line still in its
transaction is waited for. -/
def execPitonChangeDone (die : Fin 12) (slice : Fin 4) (s : State) : Result :=
  let d := die.val
  let sl := slice.val
  let ways := onesBelow 16 (SMap.get s.pitonBusy (4 * d + sl))
  if ways = [] then .next s
  else
    let s := s.forAll ways (fun s w => s.emptyWay d sl w)
    if ((s.allLines d (uL3 sl)).any (fun p => ways.contains p.2)) then .next s
    else
      let s := s.forAll ways (fun s w => s.zeroRange (pitonBase d sl w) 0xC0000)
      .next ({ s with pitonBusy := SMap.drop s.pitonBusy (4 * d + sl) }.l3Sync d sl)

/-- The bytes that an access to Piton memory touches, and whether its exception is the address-misaligned one of an atomic
access. -/
def pitonShape : PitonKind → Nat × Bool
  | .load n | .fetch n => (n, false)
  | .store b => (b.length, false)
  | .amo _ w _ => (if w then 8 else 4, true)
  | .lrsc => (0, false)

/-- What an access to Piton memory, or to a window, needs of the PMP. -/
def pitonPmp : PitonKind → Nat
  | .load _ => pmpR
  | .fetch _ => pmpX
  | _ => pmpW

/-- A misaligned access outside the coherent domain (R121, R160), against its size. A longer one is of a vector, each of whose
elements is aligned; an element that is not is an access of its own. -/
def pitonMisaligned (k : PitonKind) (a : Nat) : Option Resp :=
  let x := pitonShape k
  if x.1 ≠ 0 ∧ x.1 ≤ 8 ∧ a % x.1 ≠ 0 then some (if x.2 then .misaligned else .accessFault) else none

/-- What one byte of Piton memory refuses an access with (R160, R32): the cause and DETAIL of its record, or none. -/
def State.pitonRefuses (s : State) (c : Issuer) (a : Nat) : Option (Nat × Nat) :=
  let d := (a - 0x10000000000) / 0x10000000
  let o := (a - 0x10000000000) % 0x10000000
  let sl := o / 0x900000
  let w := 4 + o % 0x900000 / 0xC0000
  if 12 ≤ d ∨ 0x2400000 ≤ o ∨ c.agent = .device ∨ s.dieAway d ∨ (s.get (L.WLD_L3WAY.PITON d sl)).testBit (w - 4) = false ∨
      (SMap.get s.pitonBusy (4 * d + sl)).testBit w ∨ s.isReleasing (.l3 (64 * d + 16 * sl + w)) then
    some (Cause.ACCESS, 0)
  else if s.wayOwner d sl w ≠ c.sealed then some (Cause.WORLD, 0)
  else if SMap.get s.poison (a / 64) then some (Cause.UE, 0x03)
  else none

/-- An access to Piton memory (R159, R160): its exceptions, then every byte's way, world and data. -/
def State.pitonDo (s : State) (c : Issuer) (addr : PAddr) (k : PitonKind) : State :=
  let a := addr.toNat
  let d := (a - 0x10000000000) / 0x10000000
  if a < 0x10000000000 ∨ 12 ≤ d ∨ (s.dieSt d).otherMake then s
  else if k = .lrsc then s.answer .accessFault
  else match pitonMisaligned k a with
  | some e => s.answer e
  | none =>
  match (List.range (pitonShape k).1).findSome? (fun i => (s.pitonRefuses c (a + i)).map (fun e => (i, e))) with
  | some (i, cause, detail) => (s.logRec (dieLog d) cause detail (a + i) c 0).answer .error
  | none =>
    match k with
    | .load n | .fetch n =>
      if n ≤ 8 then s.answer (.data (BitVec.ofNat 64 (s.readLE a n)))
      else s.answer (.bytes ((s.readBytes a n).map BitVec.toNat))
    | .store b => ((s.writeBytes a (b.map (BitVec.ofNat 8))).answer .ok)
    | .amo op wide v =>
      let n := if wide then 8 else 4
      let old := s.readLE a n
      ((s.writeLE a n (amoValue op (8 * n) old v.toNat)).answer (.data (amoResult (8 * n) old)))
    | .lrsc => s

/-- The issuer reaches a die's Piton memory (R18): a hart its own die's, and another's through a die link of each. -/
def State.pitonReach (s : State) (c : Issuer) (d : Nat) : Bool :=
  match c.agent with
  | .hart h => s.hartActs h && (hartDie h == d || s.dieIn (hartDie h) && s.dieIn d)
  | _ => s.agentIn c && s.dieIn d

/-! ### WFI (R138, R139) -/

/-- The L1 caches of a hart are cleaned and invalidated into its L2. -/
def State.emptyL1 (s : State) (h : Nat) : State :=
  let d := hartDie h
  let k := h % 18
  let s := s.forAll (s.swopLines d (uL1d k)) (fun s p =>
    let l := (s.cline d (uL1d k) p.1 p.2).line
    (s.collapse d (hartCluster h) l).dropCopy d (uL1d k) l)
  s.forAll (s.swopLines d (uL1i k)) (fun s p => s.setCline d (uL1i k) p.1 p.2 default)

/-- WFI (R138, R139): the hart enters WFI or NAP by SKPWR.DEPTH, unless an interrupt is pending and enabled; mstatus.TW
and hstatus.VTW apply as the privileged specification defines. -/
def execWfi (h : Fin 216) (mode : PrivMode) (s : State) : Result :=
  if s.hartActs h = false then .next s
  else
    let s := (s.inMode h mode).wcDrain h
    if mode ≠ .m ∧ (s.csr h 0x300).testBit 21 ∨ mode = .u then .next (s.answer .illegal)
    else if mode = .vu ∨ mode = .vs ∧ (s.csr h 0x600).testBit 21 then .next (s.answer .virtualInstr)
    else if s.irqReady h then .next s
    else if s.get (L.SKPWR.DEPTH h) = 0 then .next (s.setHart h { s.hartSt h with run := .wfi })
    else .next ((s.emptyL1 h).setHart h { s.hartSt h with run := .nap })

/-! ### HA_ registers (R183) -/

/-- A lookup of the filter. -/
def State.sfProbe (s : State) (h l : Nat) : State :=
  let w := s.sfFind h l
  let st := s.sfState h l
  let s := (s.put (L.HA_SF_RESULT.READY h) 1).put (L.HA_SF_RESULT.HIT h) (if st.1 = 0 then 0 else 1)
  let s := (s.put (L.HA_SF_RESULT.STATE h) st.1).put (L.HA_SF_RESULT.PRESENCE h) st.2
  let s := s.put (L.HA_SF_RESULT.OPEN h) (if (s.txnOn h l).isSome then 1 else 0)
  (s.put (L.HA_SF_RESULT.WAY h) (if st.1 = 0 then 0 else w.getD 0)).put (L.HA_SF_RESULT.SET h) (sfSet l)

/-- A write of an HA_ register with a rule of its own. -/
def State.writeHa (s : State) (r : Reg) (h : Nat) (v : Nat) : Option State :=
  match r with
  | .HA_SF_PROBE =>
    let s := s.put (L.HA_SF_PROBE.LINE h) (bits v 47 6)
    some (if v.testBit 63 then s.sfProbe h (bits v 47 6) else s)
  | _ => none

/-- A write of a cache register of a compute die with a rule of its own (R162). -/
def State.writeWldDie (s : State) (r : Reg) (d n : Nat) (c : Issuer) (v : Nat) : Option State :=
  match r with
  | .WLD_WPOL_S => some (if c.sealed then s.writeWpol (R.WLD_WPOL_S d n) v
      else s.worldError (dieLog d) (regAddr (R.WLD_WPOL_S d n)) c)
  | .WLD_WPOL_O => some (s.writeWpol (R.WLD_WPOL_O d n) v)
  | .WLD_PFCTL => some (s.writePfctl d c v)
  | .WLD_SWOP => some (s.writeSwop d c v)
  | .WLD_L3WAY => some (s.writeL3way d n c v)
  | _ => none

/-! ### Accesses of devices (R33, R163) -/

/-- A device's access to a line cannot be performed at once: the domain is stopped, the line has an open transaction, a die of
another make may hold it, its controller is in RECOVERY and holds requests, or the access meets an error that stops the domain
(R173, R22, R181, R229); `all` says that it snoops every die that the filter names. -/
def State.devWaits (s : State) (l : Nat) (all : Bool) : Bool :=
  decide s.stopped || s.lineOpen l || s.otherHolds l || s.mcMode (s.mcOf l) == mcRecovery || (s.lineFatal l 0 all).isSome

/-- The read queue that a device's read takes has no room (R230): RT for a reserved-class source, else BK. -/
def State.devReadFull (s : State) (src l : Nat) : Bool :=
  let x := s.mcSt (s.mcOf l)
  s.mcMode (s.mcOf l) == mcNormal && decide (if 0x100 ≤ src then 16 ≤ x.rt.length else 32 ≤ x.bk.length)

/-- The command cannot go on before the home has answered the device's request for a line (`devCmd`). Source identifiers from
0x100 on name the same agents with accesses of reserved class. -/
def State.askHome (s : State) (k : CohKind) (src l off : Nat) (b : Bytes) (poison : Bool) (c : Issuer) : State :=
  let h := s.homeOf l
  let m : CohMsg := { (default : CohMsg) with
    src := src % 0x100, line := l, sealed := c.sealed, vi := c.vi, gen := c.gen, reserved := decide (0x100 ≤ src)
    mask := (2 ^ b.length - 1) <<< off, data := putBytes (zeros 64) off b, poison := poison }
  s.setHome h { s.home h with ask := some (if s.lineOpen l ∨ s.otherHolds l then some k else none, m) }

/-- The answer of the home that waits for the device, if there is one. -/
def State.devFound (s : State) (src l : Nat) (write : Bool) : Option DevAnsw :=
  (s.home (s.homeOf l)).dev.find? (fun x => x.src == src % 0x100 && x.line == l && x.write == write)

/-- The device takes an answer. -/
def State.devTake (s : State) (l : Nat) (x : DevAnsw) : State :=
  let h := s.homeOf l
  s.setHome h { s.home h with dev := (s.home h).dev.erase x }

/-- The latest value of a line as NC_RD gives it (Table 7.6): a modified copy of a die goes to memory and stays clean. -/
def State.latestLine (s : State) (src l : Nat) (c : Issuer) : State × LineAns :=
  match s.devFound src l false with
  | some x => (s.devTake l x, ⟨x.err, x.data, x.poison⟩)
  | none =>
    if s.devWaits l false ∨ s.devReadFull src l ∨ (s.dirtyCopy l).isSome ∧ s.writeRoom l = false then
      (s.askHome .ncRd src l 0 [] false c, ⟨true, zeros 64, false⟩)
    else
      let s := (s.lineCorrect l false).sfTouch (s.homeOf l) l
      let r := s.memReadLine l c
      match s.dirtyCopy l with
      | some x =>
        if r.2.err then r
        else (((r.1.forAll (List.range 12) (fun s d => s.cleanDie d l true)).memWriteLine l x.data x.poison c).1, ⟨false, x.data, x.poison⟩)
      | none => r

/-- Bytes written to a line from an offset as NC_WR does it (Table 7.6): copies go, the bytes merge into the latest value, and
memory holds the line. The answer says that the write was performed. -/
def State.writeLatest (s : State) (src l off : Nat) (b : Bytes) (poisoned : Bool) (c : Issuer) : State × Bool :=
  match s.devFound src l true with
  | some x => (s.devTake l x, !x.err)
  | none =>
    if s.devWaits l true ∨ s.writeRoom l = false then (s.askHome .ncWr src l off b poisoned c, false)
    else
      let s := s.lineCorrect l true
      let whole : Bool := b.length == 64
      let r : State × Bytes × Bool := match s.dirtyCopy l with
        | some x => (s, x.data, x.poison)
        | none => if whole then (s, zeros 64, false) else s.mergeLine l
      let w := r.1.memWriteLine l (putBytes r.2.1 off b) (poisoned || (r.2.2 && !whole)) c
      if w.2 then ((w.1.forAll (List.range 12) (fun s d => s.dropDie d l)).sfPut (s.homeOf l) l 0 0, true) else w

/-- What a device reads: whether an access received an error response, the bytes, whether any was poisoned, and the
first poisoned line. -/
structure DevAns where
  err : Bool
  data : Bytes
  poison : Bool
  bad : Nat
  deriving DecidableEq, Repr, Inhabited

/-- The pieces of a byte range by line: line, offset, length. -/
def linePieces : Nat → Nat → Nat → List (Nat × Nat × Nat)
  | 0, _, _ => []
  | f + 1, a, n =>
    if n = 0 then []
    else
      let k := min n (64 - a % 64)
      (a / 64, a % 64, k) :: linePieces f (a + k) (n - k)

/-- A device reads `n` bytes of HBM at a physical address. -/
def State.devRead (s : State) (src a n : Nat) (c : Issuer) : State × DevAns :=
  (linePieces (n / 64 + 2) a n).foldl (fun (p : State × DevAns) x =>
    if p.2.err then p
    else
      let r := p.1.latestLine src x.1 c
      (r.1, ⟨r.2.err, p.2.data ++ (r.2.data.drop x.2.1).take x.2.2, p.2.poison || r.2.poison,
        if p.2.poison = false ∧ r.2.poison then x.1 else p.2.bad⟩)) (s, default)

/-- A device writes bytes of HBM at a physical address; the answer says how many of them were performed. -/
def State.devWriteN (s : State) (src a : Nat) (b : Bytes) (poisoned : Bool) (c : Issuer) : State × Nat :=
  let r := (linePieces (b.length / 64 + 2) a b.length).foldl (fun (p : State × Bool × Nat) x =>
    if p.2.1 then
      let w := p.1.writeLatest src x.1 x.2.1 ((b.drop p.2.2).take x.2.2) poisoned c
      (w.1, w.2, if w.2 then p.2.2 + x.2.2 else p.2.2)
    else p) (s, true, 0)
  (r.1, r.2.2)

/-- The write of a device at a physical address; the answer says that every byte was performed. -/
def State.devWrite (s : State) (src a : Nat) (b : Bytes) (poisoned : Bool) (c : Issuer) : State × Bool :=
  let r := s.devWriteN src a b poisoned c
  (r.1, r.2 == b.length)

/-- The request that an access of the command left for a home. -/
def State.devAsked (s : State) : Option (Option CohKind × CohMsg) := (List.range 32).findSome? (fun h => (s.home h).ask)

/-- The home has the device's request for the line. -/
def State.homeHas (s : State) (h : Nat) (k : CohKind) (m : CohMsg) : Bool :=
  let x := s.home h
  x.txns.any (fun t => t.kind == k && t.req.src == m.src && t.line == m.line) ||
    (x.waiting ++ x.held).any (fun p => p.1 == k && p.2.src == m.src && p.2.line == m.line)

/-- A device's request goes to its home, once; one that meets an uncorrectable error stops the domain (R181). -/
def State.devAsk (s : State) (k : Option CohKind) (m : CohMsg) : State :=
  let h := s.homeOf m.line
  if s.stopped then s
  else
    match s.lineFatal m.line m.src (m.mask != 0), k with
    | some t, _ => t
    | none, none => s
    | none, some k =>
      if s.homeHas h k m then s
      else
        let q := s.homeSeq h
        (q.1.homeCorrect h m.line).homeTake h k { m with txn := q.2 % 2 ^ 16 }

/-- A command whose accesses to HBM go through the homes (R33, R163): it is performed, or, where a line of it must wait at its
home (R173), it is not performed yet; the request for that line then stands at the home, and the command is given again. -/
def State.devCmd (s : State) (f : State → Result) : Result :=
  match s.devAsked, f s with
  | none, .next t =>
    match t.devAsked with
    | none => .next t
    | some (k, m) => .next (s.devAsk k m)
  | _, o => o

end Sys2Proof.Machine
end

