-- ==== Sys2Proof/Machine/Iommu.lean ====
section
/-! DEFINITION. The IOMMU (R318, R324 to R327, R456): translation of device addresses, faults, and the accesses of
devices through it. -/

namespace Sys2Proof.Machine

abbrev iommuLog : Nat := 267

def State.wldEvent (s : State) (l : Loc) : State := s.event iommuLog l R.WLD_EVT_EN

/-- The IOMMU causes (WLD_IOMMU_FLT.CAUSE). -/
abbrev iommuAbsent : Nat := 1
abbrev iommuPerm : Nat := 2
abbrev iommuAd : Nat := 3
abbrev iommuCtx : Nat := 4
abbrev iommuRange : Nat := 5
abbrev iommuWalk : Nat := 6

/-- The range lies wholly inside HBM. -/
def inHbm (a n : Nat) : Bool := decide (a + n ≤ hbmEnd)

/-- The range lies wholly inside an enabled Open range (R318). -/
def State.inOpenRange (s : State) (a n : Nat) : Bool :=
  (List.range 16).any (fun r =>
    s.get (L.WLD_OPEN_RANGE.EN r) = 1 &&
      (let k := s.get (L.WLD_OPEN_RANGE.LOG2SZ r)
       let base := (s.get (L.WLD_OPEN_RANGE.BASE r) * 0x1000) >>> k
       decide (a >>> k = base ∧ (a + (n - 1)) >>> k = base)))

/-- A fault (R327): the first since VALID was cleared is recorded, every one counts and is logged. -/
def State.iommuFault (s : State) (src : Nat) (c : Issuer) (a cause : Nat) : State :=
  let w := c.sealed
  let x : Word := BitVec.ofNat 64 ((1 <<< 63) + (cause % 0x80) <<< 56 + (src % 0x100) <<< 48 + a % 2 ^ 48)
  let s := if s.get (L.WLD_IOMMU_FLT.VALID w) = 1 then s else (s.wr (R.WLD_IOMMU_FLT w) x).wldEvent L.WLD_EVT.IOMMU_FLT
  ((s.inc (L.WLD_IOMMU_FLTCNT.COUNT w)).noteFresh (R.WLD_IOMMU_FLT w) [x]).logRec iommuLog Cause.ACCESS cause a c 0

/-- VALID of a world's WLD_IOMMU_FLT is cleared (R327): faults of this cycle stand, as in an error log (R430). -/
def State.clearFault (s : State) (w : Bool) : State :=
  match SMap.get s.fieldOps.fresh (R.WLD_IOMMU_FLT w) with
  | [] => (s.put (L.WLD_IOMMU_FLT.VALID w) 0).put (L.WLD_IOMMU_FLTCNT.COUNT w) 0
  | k :: ws => (s.wr (R.WLD_IOMMU_FLT w) (ws.getD 0 0)).put (L.WLD_IOMMU_FLTCNT.COUNT w) k.toNat

/-- The source of an access with its class: from 0x100 on the class is reserved (R24). -/
def rsvSrc (src : Nat) (reserved : Bool) : Nat := if reserved then src + 0x100 else src

/-- The log of the unit with a source identifier (Tables 7.1 and 18.4); accesses of the key store and the package's own
units, which have none, use 0xFF and the log of the key store. -/
def srcLog (source : Nat) : Nat :=
  let src := source % 0x100
  if src < 0x10 then 241 + src
  else if src < 0x18 then 254 + (src - 0x10)
  else if src < 0x1C then 262 + (src - 0x18)
  else if src < 0x1E then 277 + (src - 0x1C)
  else if src = 0x1E then 279
  else if src = 0x1F then 268
  else 266

/-- Poisoned data is consumed: the consumer logs it (R429). -/
def State.consume (s : State) (log : Nat) (d : DevAns) (c : Issuer) : State :=
  if d.poison ∧ d.err = false then s.logRec log Cause.UE 0x02 (64 * d.bad) c 0 else s

/-- An eight-byte read of the IOMMU itself, with the context's world tag (R324): the word, or a cause. -/
def State.walkRead (s : State) (src : Nat) (c : Issuer) (a : Nat) : State × (Nat ⊕ Nat) :=
  let c : Issuer := { c with vi := none }
  if c.sealed = false ∧ s.inOpenRange a 8 = false then (s, .inr iommuRange)
  else if inHbm a 8 = false then (s, .inr iommuWalk)
  else
    let r := s.devRead src a 8 c
    (r.1.consume iommuLog r.2 c, if r.2.err ∨ r.2.poison then .inr iommuWalk else .inl (ofBytesLE r.2.data))

/-- The page number of a level of an Sv48x4 address: the root index has 11 bits. -/
def vpn (lvl a : Nat) : Nat := if lvl = 3 then bits a 49 39 else bits a (20 + 9 * lvl) (12 + 9 * lvl)

/-- The walk of an Sv48x4 table from a table page at level `lvl` (R325): the 4 KiB frame and the bits R, W, A, D, or a
cause. -/
def State.walk (s : State) (src : Nat) (c : Issuer) (a : Nat) : Nat → Nat → State × ((Nat × Nat) ⊕ Nat)
  | lvl, table =>
    let r := s.walkRead src c (table * 0x1000 + 8 * vpn lvl a)
    match r.2 with
    | .inr e => (r.1, .inr e)
    | .inl pte =>
      let ppn := bits pte 53 10
      if pte.testBit 0 = false ∨ (pte.testBit 1 = false ∧ pte.testBit 2) ∨ bits pte 63 54 ≠ 0 then (r.1, .inr iommuAbsent)
      else if pte.testBit 1 ∨ pte.testBit 3 then
        if ppn % 2 ^ (9 * lvl) ≠ 0 then (r.1, .inr iommuAbsent)
        else if pte.testBit 4 = false then (r.1, .inr iommuPerm)
        else
          let perm := (if pte.testBit 1 then 1 else 0) + (if pte.testBit 2 then 2 else 0) +
            (if pte.testBit 6 then 4 else 0) + (if pte.testBit 7 then 8 else 0)
          (r.1, .inl (ppn + (a / 0x1000) % 2 ^ (9 * lvl), perm))
      else match lvl with
        | 0 => (r.1, .inr iommuAbsent)
        | k + 1 => r.1.walk src c a k ppn

/-- The context of an access (R324): MODE and root page, or a cause. -/
def State.iommuContext (s : State) (src : Nat) (c : Issuer) : State × ((Nat × Nat) ⊕ Nat) :=
  match c.vi with
  | none =>
    (s, .inl (if c.sealed then (s.get L.WLD_IOMMU_CTX_S.MODE, s.get L.WLD_IOMMU_CTX_S.PPN)
      else (s.get L.WLD_IOMMU_CTX_O.MODE, s.get L.WLD_IOMMU_CTX_O.PPN)))
  | some v =>
    let en := if c.sealed then s.get L.WLD_IOMMU_VIT_S.EN else s.get L.WLD_IOMMU_VIT_O.EN
    let base := 0x1000 * (if c.sealed then s.get L.WLD_IOMMU_VIT_S.BASE else s.get L.WLD_IOMMU_VIT_O.BASE)
    if en = 0 then (s, .inr iommuCtx)
    else
      let r := s.walkRead src c (base + 16 * v)
      match r.2 with
      | .inr e => (r.1, .inr e)
      | .inl w0 =>
        let mode := bits w0 59 56
        if w0.testBit 63 = false ∨ (mode ≠ 0 ∧ mode ≠ 9) then (r.1, .inr iommuCtx) else (r.1, .inl (mode, bits w0 43 0))

/-- The cached translation of a page (R325). -/
def State.tlbFind (s : State) (c : Issuer) (page : Nat) : Option TlbEnt :=
  s.iotlb.find? (fun t => t.sealed == c.sealed && t.vi == c.vi && (t.vi.isNone || t.gen == c.gen) && t.page == page)

/-- A translation is cached; the 4,096 newest are kept. -/
def State.tlbAdd (s : State) (t : TlbEnt) : State := { s with iotlb := (t :: s.iotlb).take 4096 }

/-- The frame and permissions of a page: cached, or found by a walk. -/
def State.pageOf (s : State) (src : Nat) (c : Issuer) (a : Nat) : State × ((Nat × Nat) ⊕ Nat) :=
  match s.tlbFind c (a / 0x1000) with
  | some t => (s, .inl (t.frame, t.perm))
  | none =>
    let x := s.iommuContext src c
    match x.2 with
    | .inr e => (x.1, .inr e)
    | .inl (0, _) => (x.1, .inl (a / 0x1000, 15))
    | .inl (_, ppn) =>
      let r := x.1.walk src c a 3 (ppn - ppn % 4)
      match r.2 with
      | .inr e => (r.1, .inr e)
      | .inl (f, p) => (r.1.tlbAdd ⟨c.sealed, c.vi, c.gen, a / 0x1000, f, p⟩, .inl (f, p))

/-- Translation of an access that stays in one 4 KiB page (R325, R318, R456): the physical address, or a cause. `msg`
says that it is a 4-byte message write. -/
def State.translate (s : State) (src : Nat) (c : Issuer) (a n : Nat) (write msg : Bool) : State × (Nat ⊕ Nat) :=
  let r := s.pageOf src c a
  match r.2 with
  | .inr e => (r.1, .inr e)
  | .inl (f, p) =>
    let pa := f * 0x1000 + a % 0x1000
    let s := r.1
    if (if write then p.testBit 1 else p.testBit 0) = false then (s, .inr iommuPerm)
    else if p.testBit 2 = false ∨ (write ∧ p.testBit 3 = false) then (s, .inr iommuAd)
    else match if msg then intPage pa else none with
      | some (_, file) => if file = 16 ∧ c.sealed = false then (s, .inr iommuRange) else (s, .inl pa)
      | none =>
        if inHbm pa n = false then (s, .inr iommuPerm)
        else if c.sealed = false ∧ s.inOpenRange pa n = false then (s, .inr iommuRange)
        else (s, .inl pa)

/-- The pieces of a byte range by page: address and length. -/
def pagePieces : Nat → Nat → Nat → List (Nat × Nat)
  | 0, _, _ => []
  | f + 1, a, n =>
    if n = 0 then []
    else
      let k := min n (0x1000 - a % 0x1000)
      (a, k) :: pagePieces f (a + k) (n - k)

/-- A device reads `n` bytes at a device address; a fault is reported (R327). -/
def State.ioRead (s : State) (src : Nat) (c : Issuer) (a n : Nat) : State × DevAns :=
  (pagePieces (n / 0x1000 + 2) a n).foldl (fun (p : State × DevAns) x =>
    if p.2.err then p
    else
      let t := p.1.translate src c (x.1 % 2 ^ 48) x.2 false false
      match t.2 with
      | .inr e => (t.1.iommuFault src c (x.1 % 2 ^ 48) e, { p.2 with err := true })
      | .inl pa =>
        let r := t.1.devRead src pa x.2 c
        let first := p.2.poison = false ∧ r.2.poison
        ((if first then r.1.consume (srcLog src) r.2 c else r.1),
          ⟨r.2.err, p.2.data ++ r.2.data, p.2.poison || r.2.poison, if first then r.2.bad else p.2.bad⟩)) (s, default)

/-- The pages of a write are translated (R325): the physical pieces, or a fault, which is reported (R327). -/
def State.ioPages (s : State) (src : Nat) (c : Issuer) : List (Nat × Nat) → State × Option (List (Nat × Nat))
  | [] => (s, some [])
  | x :: t =>
    let p := s.translate src c (x.1 % 2 ^ 48) x.2 true false
    match p.2 with
    | .inr e => (p.1.iommuFault src c (x.1 % 2 ^ 48) e, none)
    | .inl pa =>
      let r := p.1.ioPages src c t
      (r.1, r.2.map (fun l => (pa, x.2) :: l))

/-- A device writes bytes at a device address; the answer says how many of them were performed. Every page is translated
before the first byte is written. -/
def State.ioWriteN (s : State) (src : Nat) (c : Issuer) (a : Nat) (b : Bytes) (poisoned : Bool) : State × Nat :=
  let t := s.ioPages src c (pagePieces (b.length / 0x1000 + 2) a b.length)
  match t.2 with
  | none => (t.1, 0)
  | some l =>
    let r := l.foldl (fun (p : State × Bool × Nat) x =>
      if p.2.1 then
        let w := p.1.devWriteN src x.1 ((b.drop p.2.2).take x.2) poisoned c
        (w.1, w.2 == x.2, p.2.2 + w.2)
      else p) (t.1, true, 0)
    (r.1, r.2.2)

/-- The write of a device at a device address; the answer says that every byte was performed. -/
def State.ioWrite (s : State) (src : Nat) (c : Issuer) (a : Nat) (b : Bytes) (poisoned : Bool) : State × Bool :=
  let r := s.ioWriteN src c a b poisoned
  (r.1, r.2 == b.length)

/-- A device sends a message-signalled interrupt: a 4-byte write, into an interrupt file or memory. -/
def State.ioMsi (s : State) (src : Nat) (c : Issuer) (a data : Nat) : State :=
  let t := s.translate src c (a % 2 ^ 48) 4 true true
  match t.2 with
  | .inr e => t.1.iommuFault src c (a % 2 ^ 48) e
  | .inl pa =>
    match intPage pa with
    | some _ => t.1.msi c pa data
    | none => (t.1.devWrite src pa (bytesLE 4 data) false c).1

/-- The result of an access without translation (R266, R341): it must lie in HBM, and an Open one in an Open range. -/
def State.physCheck (s : State) (src : Nat) (c : Issuer) (a n : Nat) : State × Bool :=
  if c.sealed = false ∧ s.inOpenRange a n = false then (s.iommuFault src c a iommuRange, false)
  else (s, inHbm a n)

/-- A read at a physical address. -/
def State.physRead (s : State) (src : Nat) (c : Issuer) (a n : Nat) : State × DevAns :=
  let r := s.physCheck src c a n
  if r.2 then
    let d := r.1.devRead src a n c
    (d.1.consume (srcLog src) d.2 c, d.2)
  else (r.1, { (default : DevAns) with err := true })

/-- A write at a physical address. -/
def State.physWrite (s : State) (src : Nat) (c : Issuer) (a : Nat) (b : Bytes) : State × Bool :=
  let r := s.physCheck src c a b.length
  if r.2 then r.1.devWrite src a b false c else (r.1, false)

end Sys2Proof.Machine
end

