-- ==== Sys2Proof/Machine/TimeBase.lean ====
section
/-! DEFINITION. The time base (02): counter, servo, election, time exchange, sources and the writes of its registers.
The tick itself, which reaches every unit, stands in Tick.lean. -/

namespace Sys2Proof.Machine

/-! ### Events and servo states -/

/-- An event of the time base. -/
def State.tbEvent (s : State) (l : Loc) : State := s.event 0 l R.TB_EVT_EN

/-- A change of the time base's own state. -/
def State.setTb (s : State) (t : TimeBase) : State := { s with tb := t }

abbrev servoFree : Nat := 0
abbrev servoAcquire : Nat := 1
abbrev servoTrack : Nat := 2
abbrev servoLock : Nat := 3
abbrev servoHoldover : Nat := 4

abbrev State.servo (s : State) : Nat := s.get L.TB_STATUS.STATE

/-- Port p is in the up state (Table 12.2). -/
abbrev State.portUp (s : State) (p : Nat) : Bool := s.get (L.FAB_P_STATUS.STATE p) = 3

/-- The servo enters a state (R51): STATE_CHG on a change, SYNC_OK falls in the nanosecond in which it leaves LOCK, whose
launches still see it (R54), entering HOLDOVER sets its event. -/
def State.servoTo (s : State) (st : Nat) : State :=
  if s.servo = st then s
  else
    let s := s.when (s.servo = servoLock ∧ s.get L.TB_STATUS.SYNC_OK = 1) (fun s =>
      (s.setTb { s.tb with syncFell := some s.up }).put L.TB_STATUS.SYNC_OK 0)
    let s := (s.put L.TB_STATUS.STATE st).tbEvent L.TB_EVT.STATE_CHG
    let s := s.when (st = servoHoldover) (fun s => s.tbEvent L.TB_EVT.HOLDOVER)
    s.setTb { s.tb with lockCnt := 0, holdCnt := 0 }

/-- SYNC_OK as a launch is judged by it: in the nanosecond in which the servo leaves LOCK, by its value at the start of that
nanosecond (R54). -/
def State.syncForLaunch (s : State) : Bool := s.get L.TB_STATUS.SYNC_OK = 1 || s.tb.syncFell == some s.up

/-- LOCK falls to HOLDOVER (Table 2.3); no other state has that transition. -/
def State.lockLost (s : State) : State := s.when (s.servo = servoLock) (fun s => s.servoTo servoHoldover)

/-- A re-step is needed (R52, R58). -/
def State.needRestep (s : State) : State :=
  (s.put L.TB_STATUS.NEED_RESTEP 1).tbEvent L.TB_EVT.NEED_RESTEP

/-- The servo enters ACQUIRE: the counter may be stepped once (R38), the rate measurement starts, and a Summit on the
reference crystal has its reference at once and goes to LOCK (R418). -/
def State.toAcquire (s : State) : State :=
  let s := s.servoTo servoAcquire
  let s := s.setTb { s.tb with stepped := false, rateUpd := 0, acqStart := s.up, goodUpd := 0, badUpd := 0,
                               lastUpd := s.up, missedUpd := 0 }
  if s.get L.TB_STATUS.IS_SUMMIT = 1 ∧ s.get L.TB_SRC_CFG.SRC = 0 then
    (s.put L.TB_STATUS.TRACE 0).servoTo servoLock
  else s

/-- The counter is stepped by `off` 2⁻¹⁶ ns: count and visible fraction are written, the internal bits are 0 (R37). -/
def State.stepCounter (s : State) (off : Int) : State :=
  let v := ((s.stamp : Int) + off).toNat
  s.setTbValue (v * 2 ^ 26)

/-- The largest rate change, SLEW ppm, in units of 2⁻⁴² ns per ns (R38, R37). -/
def State.slewLimit (s : State) : Nat := s.get L.TB_SERVO_CFG.SLEW * 2 ^ 42 / 1000000

/-- The servo adjusts the rate at an update: a value the manual leaves to the servo, within SLEW (R38, R51). -/
def State.slew (s : State) : State :=
  let lim : Int := min s.slewLimit (2 ^ 31 - 1)
  let v := max (-lim) (min lim (Config.servoRate s.free))
  (s.put L.TB_RATE.ADJ (toSigned 32 v)).useFree

/-- An offset of 2⁻¹⁶ ns lies within a threshold in ps. -/
def withinPs (off : Int) (ps : Nat) : Bool := decide (off.natAbs * 1000 ≤ ps * 2 ^ 16)

/-- An offset of 2⁻¹⁶ ns is kept in TB_OFFSET (signed, 48 bits). -/
def State.noteOffset (s : State) (off : Int) : State :=
  s.put L.TB_OFFSET.OFFSET (toSigned 48 (clampSigned 48 off))

/-- A HOLDOVER update (R52): slew within STEP_THR, else hold the rate and ask for a re-step; LOCK after LOCK_CNT
consecutive updates within LOCK_THR, unless a re-step is needed. -/
def State.holdoverUpdate (s : State) (off : Int) : State :=
  if withinPs off (s.get L.TB_SERVO_CFG.STEP_THR * 1000000) then
    let s := s.slew
    if withinPs off (s.get L.TB_SERVO_CFG.LOCK_THR) ∧ s.get L.TB_STATUS.NEED_RESTEP = 0 then
      let n := s.tb.lockCnt + 1
      if n ≥ s.get L.TB_SERVO_CFG.LOCK_CNT then s.servoTo servoLock
      else s.setTb { s.tb with lockCnt := n }
    else s.setTb { s.tb with lockCnt := 0 }
  else s.needRestep

/-- An update in TRACK (Table 2.3): LOCK after LOCK_CNT consecutive updates within LOCK_THR, ACQUIRE at one above STEP_THR. -/
def State.trackUpdate (s : State) (off : Int) : State :=
  if withinPs off (s.get L.TB_SERVO_CFG.STEP_THR * 1000000) then
    let s := s.slew
    if withinPs off (s.get L.TB_SERVO_CFG.LOCK_THR) then
      let n := s.tb.lockCnt + 1
      if n ≥ s.get L.TB_SERVO_CFG.LOCK_CNT then s.servoTo servoLock
      else s.setTb { s.tb with lockCnt := n }
    else s.setTb { s.tb with lockCnt := 0 }
  else s.toAcquire

/-- One update of a follower's servo: an offset to its parent, in 2⁻¹⁶ ns (R51, R52, Table 2.3). -/
def State.followerUpdate (s : State) (off : Int) : State :=
  let s := s.noteOffset off
  if s.servo = servoAcquire then
    if s.tb.stepped = false then
      let s := s.stepCounter off
      s.setTb { s.tb with stepped := true, rateUpd := 0 }
    else
      let n := s.tb.rateUpd + 1
      let s := s.setTb { s.tb with rateUpd := n }
      if n ≥ 64 then s.slew.servoTo servoTrack else s
  else if s.servo = servoTrack then s.trackUpdate off
  else if s.servo = servoLock then
    let s := s.slew
    if withinPs off (s.get L.TB_SERVO_CFG.HOLD_THR) then s.setTb { s.tb with holdCnt := 0 }
    else
      let n := s.tb.holdCnt + 1
      if n ≥ s.get L.TB_SERVO_CFG.HOLD_CNT then s.lockLost else s.setTb { s.tb with holdCnt := n }
  else if s.servo = servoHoldover then s.holdoverUpdate off
  else s

/-! ### Summit sources (R48, R49) -/

/-- An update that is missed or out of the trace threshold: three in a row clear TRACE (R48). -/
def State.badUpdate (s : State) : State :=
  let n := s.tb.badUpd + 1
  let s := s.setTb { s.tb with badUpd := n, goodUpd := 0 }
  if n ≥ 3 ∧ s.get L.TB_STATUS.TRACE = 1 then (s.put L.TB_STATUS.TRACE 0).tbEvent L.TB_EVT.TRACE_LOST else s

/-- An update is judged against the trace threshold; `need` consecutive ones set TRACE (R48, Table 2.1). -/
def State.judgeUpdate (s : State) (off : Int) (thrPs need : Nat) : State :=
  let s := s.setTb { s.tb with lastUpd := s.up, missedUpd := 0 }
  if withinPs off thrPs then
    let n := s.tb.goodUpd + 1
    let s := s.setTb { s.tb with goodUpd := n, badUpd := 0 }
    s.when (n ≥ need) (fun s => s.put L.TB_STATUS.TRACE 1)
  else s.badUpdate

/-- A source update of the Summit: reference minus local, in 2⁻¹⁶ ns. In ACQUIRE the counter is stepped to the source
and the servo enters LOCK (Table 2.3, R53); the step leaves no offset to judge. -/
def State.sourceUpdate (s : State) (off : Int) (thrPs need : Nat) : State :=
  if s.get L.TB_STATUS.IS_SUMMIT = 1 then
    let s := s.noteOffset off
    if s.servo = servoAcquire then
      let s := if s.tb.stepped then s else s.stepCounter off
      let s := s.setTb { s.tb with stepped := true }
      (s.servoTo servoLock).judgeUpdate 0 thrPs need
    else if s.servo = servoTrack then (s.trackUpdate off).judgeUpdate off thrPs need
    else if s.servo = servoLock then s.slew.judgeUpdate off thrPs need
    else if s.servo = servoHoldover then (s.holdoverUpdate off).judgeUpdate off thrPs need
    else s
  else s

/-- The sync interval in force on a lane, 125 ms by default (R389). -/
def State.syncInterval (s : State) (lane : Nat) : Nat :=
  if (SMap.get s.eth lane).syncEvery = 0 then 125000000 else (SMap.get s.eth lane).syncEvery

/-- The slave lane (R389). -/
def State.slaveLane (s : State) : Option Nat := firstBelow 4 (fun l => s.get (L.ETH_LANE_CFG.AS_ROLE l) == 2)

/-- The update interval of the source, in ns (Table 2.1, R48): 1 s for PPS_IN, the sync interval in force for 802.1AS. -/
def State.sourceInterval (s : State) : Nat :=
  if s.get L.TB_SRC_CFG.SRC = 1 then 1000000000
  else match s.slaveLane with
    | some l => s.syncInterval l
    | none => 125000000

/-- PPS_IN_EDGE (R49, R48): the edge that TB_PPS_CFG.EDGE selects is timestamped, serves as a source update, and the
time of day advances. -/
def execPpsInEdge (rising : Bool) (s : State) : Result :=
  if (s.get L.TB_PPS_CFG.EDGE = 0) = (rising = true) ∧ s.get L.PWR_RST_HOLD.TB = 0 then
    let tod := s.get L.TB_PPS_TOD.SECONDS
    let edge : Int := s.stamp - (s.get L.TB_PPS_CFG.IN_DLY * 2 ^ 16 / 1000 : Nat)
    let off : Int := ((tod * 1000000000 % 2 ^ 64) * 2 ^ 16 : Nat) - edge
    let s := s.when (s.get L.TB_SRC_CFG.SRC = 1) (fun s => s.sourceUpdate off 50000 4)
    .next (s.put L.TB_PPS_TOD.SECONDS (tod + 1))
  else .next s

/-- AS_SOURCE_UPDATE (R48, R389): a Sync of the slave lane is a source update while SRC selects IEEE 802.1AS. The interval it
announces, if any, is the sync interval in force from then on. -/
def execAsSourceUpdate (lane : Fin 4) (offset : Int) (interval : Nat) (s : State) : Result :=
  if s.get (L.ETH_LANE_CFG.AS_ROLE lane.val) = 2 then
    let x := SMap.get s.eth lane.val
    let x := { x with syncAt := s.up, syncEvery := if interval = 0 then x.syncEvery else interval }
    let s := { s with eth := SMap.set s.eth lane.val x }
    if s.get L.TB_SRC_CFG.SRC = 2 then .next (s.sourceUpdate offset 100000 16) else .next s
  else .next s

/-- When the next update counts as missed (R48): 1.25 intervals after the last, then each whole interval. -/
def State.missInstant (s : State) : Nat :=
  s.tb.lastUpd + s.sourceInterval * 5 / 4 + s.tb.missedUpd * s.sourceInterval

/-- SOURCE_UPDATE_MISSED (R48). -/
def execSourceUpdateMissed (s : State) : Result :=
  if s.get L.TB_SRC_CFG.SRC ≠ 0 ∧ s.get L.TB_STATUS.IS_SUMMIT = 1 then
    let s := s.elapseUntil s.missInstant
    .next (s.setTb { s.tb with missedUpd := s.tb.missedUpd + 1 }).badUpdate
  else .next s

/-- ACQ_TIMEOUT (R49): a Summit in ACQUIRE goes on from the crystal with TRACE at 0. -/
def execAcqTimeout (s : State) : Result :=
  if s.servo = servoAcquire ∧ s.get L.TB_STATUS.IS_SUMMIT = 1 then
    let s := s.elapseUntil (s.tb.acqStart + s.get L.TB_SRC_CFG.ACQ_TMO * 1000000)
    .next ((s.put L.TB_STATUS.TRACE 0).servoTo servoLock)
  else .next s

/-! ### Election (R55 to R58) -/

/-- A candidate's rank; the lowest wins (R55). -/
def outranks (a b : Cand) : Bool :=
  decide (a.notRunning < b.notRunning ∨ (a.notRunning = b.notRunning ∧
    (a.prio < b.prio ∨ (a.prio = b.prio ∧ a.serial < b.serial))))

/-- The device as a candidate; PRIO 0xFF is never one (R55). -/
def State.ownCand (s : State) : Option Cand :=
  if s.get L.TB_SUMMIT_CFG.PRIO = 0xFF then none
  else some ⟨if s.ticking then 0 else 1, s.get L.TB_SUMMIT_CFG.PRIO, s.get L.TB_SERIAL.SERIAL,
             s.get L.FAB_ID.ID, s.tb.annSeq⟩

/-- The best candidate, with this device's rank as it stands now. -/
def State.bestNow (s : State) : Option Cand :=
  if s.tb.bestSelf then s.ownCand else s.tb.best

/-- A new best candidate is taken; the 16 announcement intervals start again (R56). -/
def State.adopt (s : State) (c : Option Cand) (self : Bool) : State :=
  s.setTb { s.tb with best := c, bestSelf := self, bestSince := s.up, bestFresh := s.up, settled := false }

/-- The device falls back on itself, or on no candidate (R56, R57). -/
def State.adoptSelf (s : State) : State := s.adopt s.ownCand s.ownCand.isSome

/-- A 32-bit sequence number is newer than another (R56, R57): it lies less than half its range ahead, as the number wraps
(DEDUCED, log entry 197). -/
def seqNewer (a b : Nat) : Bool := decide (0 < wrapSub 32 a b ∧ wrapSub 32 a b < 2 ^ 31)

/-- What a device announces that knows no candidate: PRIO 0xFF, which no candidate has (R55, R56). -/
def noCand : Cand := ⟨1, 0xFF, 2 ^ 64 - 1, 0, 0⟩

/-- An announcement is judged (R56, R57): a struck candidate is heard again only with NOT_RUNNING at 1 or under a
higher number; one that outranks the present best is adopted if its number is newer than the last seen. The identifier of
the candidate that the election has settled on shows in SUMMIT_ID (R460). -/
def State.hearCand (s : State) (c : Cand) : State :=
  let struck := SMap.get s.tb.struck c.serial
  let again : Bool := struck ≠ 0 && c.notRunning = 1
  let seen := SMap.get s.tb.seen c.serial
  let newer : Bool := again || decide (seen = 0) || seqNewer c.annSeq (seen - 1)
  let s := s.when (newer = true) (fun s => s.setTb { s.tb with seen := SMap.set s.tb.seen c.serial (c.annSeq + 1) })
  if c.prio = 0xFF ∨ (struck ≠ 0 ∧ seqNewer c.annSeq (struck - 1) = false ∧ c.notRunning = 0) then s
  else if c.serial = s.get L.TB_SERIAL.SERIAL then s
  else
    let s := s.setTb { s.tb with struck := SMap.set s.tb.struck c.serial 0 }
    match s.bestNow with
    | none => if newer then s.adopt (some c) false else s
    | some b =>
      if s.tb.bestSelf = false ∧ b.serial = c.serial then
        if newer then
          let s := s.setTb { s.tb with best := some c, bestFresh := s.up }
          let s := s.when (s.tb.settled = true) (fun s => s.put L.TB_STATUS.SUMMIT_ID c.id)
          match s.ownCand with
          | some o => if outranks o c then s.adopt (some o) true else s
          | none => s
        else s
      else if newer ∧ outranks c b then s.adopt (some c) false
      else s

/-- A port whose partner meets R61: it announces the elected Summit with fresh numbers, is in LOCK, and has HOPS
below 62; `deep` asks for the ports that fail by HOPS alone. -/
def State.parentOk (s : State) (deep : Bool) (p : Nat) : Bool :=
  let t := SMap.get s.tb.ports p
  match t.heard, s.tb.best with
  | some h, some b =>
    s.portUp p && !s.tb.bestSelf && decide (h.serial = b.serial) && decide (s.up < h.freshAt + 262144) &&
      decide (s.get (L.TB_PORT_STAT.PARTNER_STATE p) = servoLock) && (decide (h.hops < 62) != deep)
  | _, _ => false

/-- The hop count a port's partner announces. -/
def State.heardHops (s : State) (p : Nat) : Nat :=
  match (SMap.get s.tb.ports p).heard with
  | some h => h.hops
  | none => 63

/-- The port with the lowest (HOPS, port number) among those that meet R61 and `ok`. -/
def State.bestParent (s : State) (ok : Nat → Bool) : Option Nat :=
  ((List.range 8).filter (fun p => s.parentOk false p && ok p)).foldl
    (fun b p => match b with
      | none => some p
      | some q => if s.heardHops p < s.heardHops q then some p else some q) none

/-- The Summit's grid as a port's partner announces it is kept, to be relayed (R46, R59). -/
def State.keepGrid (s : State) (p : Nat) : State :=
  match (SMap.get s.tb.ports p).heard with
  | some h => s.setTb { s.tb with sumGrid := some ⟨h.period, h.origin, h.base, h.swValid, h.swPeriod, h.swFrame⟩ }
  | none => s

/-- A port becomes the parent (R61, R460): PARENT_PORT names it and HOPS is its HOPS plus 1. -/
def State.setParent (s : State) (p : Nat) : State :=
  let s := s.keepGrid p
  ((s.put L.TB_STATUS.PARENT_VALID 1).put L.TB_STATUS.PARENT_PORT p).put L.TB_STATUS.HOPS (s.heardHops p + 1)

/-- The follower has no parent: PARENT_VALID and PARENT_PORT read 0, HOPS keeps its value (R460). -/
def State.noParent (s : State) : State := (s.put L.TB_STATUS.PARENT_VALID 0).put L.TB_STATUS.PARENT_PORT 0

/-- The grid a port's partner announces is taken (R53). -/
def State.takeGrid (s : State) (p : Nat) : State :=
  match (SMap.get s.tb.ports p).heard with
  | some h => ((s.put L.TB_FRAME_CFG.PERIOD h.period).put L.TB_FRAME_ORIGIN.ORIGIN h.origin).put L.TB_FRAME_BASE.BASE h.base
  | none => s

/-- The timescale identifier of a port's partner is taken (R58, R53). -/
def State.takeScale (s : State) (p : Nat) : State :=
  match (SMap.get s.tb.ports p).heard with
  | some h => s.setTb { s.tb with tscale := h.tscale }
  | none => s

/-- The timescale of the parent on port `p` is taken and, with FRAME_FOLLOW at 1, the Summit's grid (R53, R58). -/
def State.takeFrom (s : State) (p : Nat) : State :=
  let s := s.takeScale p
  s.when (s.get L.TB_CTRL.FRAME_FOLLOW = 1) (fun s => s.takeGrid p)

/-- A follower enters ACQUIRE from port `p`: its counter is stepped to the parent's time, it takes the parent's
timescale and, with FRAME_FOLLOW at 1, the Summit's grid (R51, R53). -/
def State.acquireFrom (s : State) (p : Nat) : State :=
  let s := s.toAcquire.takeFrom p
  if s.get (L.TB_PORT_STAT.VALID p) = 1 then
    let s := s.stepCounter (SMap.get s.tb.ports p).offset
    s.setTb { s.tb with stepped := true, rateUpd := 0 }
  else s

/-- A merge (R58): HOLDOVER with MERGE and NEED_RESTEP; the old grid stays. -/
def State.merge (s : State) : State := (s.lockLost.tbEvent L.TB_EVT.MERGE).needRestep

/-- A follower looks for a parent (R61): a running device whose new Summit has another timescale merges (R58), one
in FREE enters ACQUIRE, one in ACQUIRE or TRACK takes the timescale of its new parent (R53, R58), and one that fails by the
hop limit alone sets DEPTH. In LOCK a device that finds none stays there without a parent (DESIGN CHOICE, log entry 199). -/
def State.followTree (s : State) : State :=
  match s.bestParent (fun _ => true) with
  | some p =>
    let s := s.setParent p
    if s.servo = servoFree then s.acquireFrom p
    else if s.servo = servoAcquire ∨ s.servo = servoTrack then s.takeFrom p
    else if ((SMap.get s.tb.ports p).heard.map (·.tscale)) ≠ some s.tb.tscale then s.merge
    else s
  | none =>
    let s := s.noParent
    if (List.range 8).any (s.parentOk true) then s.tbEvent L.TB_EVT.DEPTH else s

/-- SUMMIT_ID reads the settled candidate's CAND_ID; a change of Summit, which is another SERIAL, sets SUMMIT_CHG (R460, R65). -/
def State.setSummit (s : State) (self : Bool) (id serial : Nat) : State :=
  let changed : Bool := s.tb.summitSerial != some serial
  let s := (s.put L.TB_STATUS.SUMMIT_ID id).put L.TB_STATUS.IS_SUMMIT (if self then 1 else 0)
  let s := s.setTb { s.tb with summitSerial := some serial }
  s.when (changed = true) (fun s => s.tbEvent L.TB_EVT.SUMMIT_CHG)

/-- A Summit whose PRIO reads 0xFF is a candidate no longer (R55): its Summit is lost, and election runs again without it. -/
def State.dropSelf (s : State) : State :=
  let s := (((s.put L.TB_STATUS.IS_SUMMIT 0).put L.TB_STATUS.TRACE 0).tbEvent L.TB_EVT.SUMMIT_CHG).lockLost
  (s.setTb { s.tb with summitSerial := none }).adopt none false

/-- PRIO is read at each announcement (R55): a device that no longer is a candidate drops itself, and one that now outranks
its best candidate takes its own place. -/
def State.readPrio (s : State) : State :=
  match s.ownCand with
  | none =>
    if s.tb.bestSelf then (if s.get L.TB_STATUS.IS_SUMMIT = 1 then s.dropSelf else s.adopt none false) else s
  | some o =>
    if s.tb.bestSelf then s
    else match s.tb.best with
      | none => s.adopt (some o) true
      | some b => if outranks o b then s.adopt (some o) true else s

/-- ELECTION_SETTLE (R56): the best candidate has stayed unchanged for 16 announcement intervals. The device becomes
Summit and creates its timescale when it leaves FREE (R58), or follows the elected one (R61); with no candidate it
sets NO_SUMMIT and stays in FREE. A device that becomes Summit in another state keeps it, as Table 2.3 has no such transition (log
entry 150). -/
def execElectionSettle (s : State) : Result :=
  if s.tb.settled = true ∨ s.get L.PWR_RST_HOLD.TB = 1 then .next s
  else
    let s := s.elapseUntil (s.tb.bestSince + 16 * 32768)
    let s := s.setTb { s.tb with settled := true }
    match s.bestNow with
    | none => .next (s.tbEvent L.TB_EVT.NO_SUMMIT)
    | some b =>
      if s.tb.bestSelf then
        let s := ((s.setSummit true (s.get L.FAB_ID.ID) (s.get L.TB_SERIAL.SERIAL)).noParent).put L.TB_STATUS.HOPS 0
        if s.servo = servoFree then
          .next ((s.setTb { s.tb with tscale := s.get L.TB_SERIAL.SERIAL }).toAcquire)
        else .next (s.setTb { s.tb with lastUpd := s.up, goodUpd := 0, badUpd := 0, missedUpd := 0 })
      else
        let s := s.setSummit false b.id b.serial
        .next ((s.put L.TB_STATUS.TRACE 0).followTree)

/-- SUMMIT_LOST (R57): no advance of the candidate's number for 64 exchange intervals strikes it; the follower enters
HOLDOVER and election runs again. -/
def execSummitLost (s : State) : Result :=
  match s.tb.best with
  | none => .next s
  | some b =>
    if s.tb.bestSelf then .next s
    else
      let s := s.elapseUntil (s.tb.bestFresh + 262144)
      let s := s.setTb { s.tb with struck := SMap.set s.tb.struck b.serial (b.annSeq + 1) }
      let s := s.lockLost.tbEvent L.TB_EVT.SUMMIT_LOST
      .next (s.noParent.adoptSelf)

/-! ### Time exchange (R59 to R62) -/

/-- The parent is lost (R62): another port that meets R61 within HOLD_THR takes its place without leaving LOCK, or
the follower enters HOLDOVER. -/
def State.parentGone (s : State) (p : Nat) : State :=
  let ok := fun q => decide (q ≠ p) && decide (s.get (L.TB_PORT_STAT.VALID q) = 1) &&
    withinPs (SMap.get s.tb.ports q).offset (s.get L.TB_SERVO_CFG.HOLD_THR)
  match s.bestParent ok with
  | some q => (s.setParent q).tbEvent L.TB_EVT.PARENT_CHG
  | none => s.noParent.lockLost

/-- The time exchange of a port that leaves UP pauses: VALID is 0. Its partner is lost as a parent only by loss of signal or by
four exchange intervals without a message (R62). -/
def State.timePortDown (s : State) (p : Nat) : State := s.put (L.TB_PORT_STAT.VALID p) 0

/-- The port p loses its signal: a parent on it is lost (R62). -/
def State.timePortLost (s : State) (p : Nat) : State :=
  let s := s.setTb { s.tb with ports := SMap.set s.tb.ports p default }
  let s := s.put (L.TB_PORT_STAT.VALID p) 0
  if s.get L.TB_STATUS.PARENT_VALID = 1 ∧ s.get L.TB_STATUS.PARENT_PORT = p then s.parentGone p else s

/-- PARENT_LOST (R62): four exchange intervals without a time message from the parent. -/
def execParentLost (s : State) : Result :=
  if s.get L.TB_STATUS.PARENT_VALID = 1 then
    let p := s.get L.TB_STATUS.PARENT_PORT
    let s := s.elapseUntil ((SMap.get s.tb.ports p).lastRx + 4 * 4096)
    .next (s.parentGone p)
  else .next s

/-- The switch record of a Summit (R45): the switch in force whose frame has not passed, else the armed one. A switch of a
device that is not Summit is never announced (R46). -/
def State.announcedSwitch (s : State) : Option (Nat × Nat) :=
  if s.get L.TB_STATUS.IS_SUMMIT ≠ 1 then none
  else match s.tb.swDone.filter (fun x => decide (s.ticking ∧ s.frame = x.2)) with
    | some x => some x
    | none =>
      if s.get L.TB_SWITCH.ARM = 1 then some (s.get L.TB_SWITCH.NEXT_PERIOD, s.get L.TB_SWITCH_FRAME.FRAME) else none

/-- The grid and switch record of an announcement (R45, R46): a Summit's own, with its switch until the switch frame has
passed; a follower relays its parent's, one whose parent is lost the last grid it heard, and one that has heard none its own
registers (DESIGN CHOICE, log entry 198). -/
def State.announcedGrid (s : State) : SumGrid :=
  let sw := s.announcedSwitch
  let own : SumGrid := ⟨s.period, s.origin, s.base, sw.isSome, (sw.getD (0, 0)).1, (sw.getD (0, 0)).2⟩
  if s.get L.TB_STATUS.IS_SUMMIT = 1 ∨ s.tb.bestSelf then own
  else match s.tb.sumGrid with
    | some g => if s.get L.TB_STATUS.PARENT_VALID = 1 then g else { g with swValid := false }
    | none => own

/-- The hop count to the candidate that is announced (Table 2.4): 0 of the device itself, HOPS while the parent leads to it,
else one more than the lowest that a port announces for it. -/
def State.announcedHops (s : State) : Nat :=
  if s.tb.bestSelf then 0
  else match s.tb.best with
    | none => 0
    | some b =>
      let leads (p : Nat) : Bool := match (SMap.get s.tb.ports p).heard with
        | some h => h.serial == b.serial
        | none => false
      if s.get L.TB_STATUS.PARENT_VALID = 1 ∧ leads (s.get L.TB_STATUS.PARENT_PORT) then s.get L.TB_STATUS.HOPS
      else min 63 (((List.range 8).filter leads).foldl (fun n p => min n (s.heardHops p + 1)) 63)

/-- The message a port sends now (R59, Table 2.4): every eighth is an announcement, and an exchange carries no field of an
announcement. CAND_RUN carries NOT_RUNNING itself. -/
def State.timeMessage (s : State) (p : Nat) : TimeMsg :=
  let t := SMap.get s.tb.ports p
  let ann : Bool := decide (t.sent % 8 = 7)
  let only (n : Nat) : Nat := if ann then n else 0
  let b := s.bestNow.getD noCand
  let g := s.announcedGrid
  { announce := ann, seq := t.sent % 2 ^ 16, state := s.servo, txTime := s.stamp, echoTx := t.echoTx,
    echoRx := t.echoRx, candRun := only b.notRunning, candPrio := only b.prio, candSerial := only b.serial,
    candId := only b.id, annSeq := only b.annSeq, hops := only s.announcedHops, tscale := only s.tb.tscale,
    period := only g.period, origin := only g.origin, base := only g.base, swValid := ann && g.swValid,
    swPeriod := only g.swPeriod, swFrame := only g.swFrame }

/-- A flit of FV0 leaves a fabric port: one more that goes before a waiting FV3 flit (R287). -/
def State.fabZero (s : State) (n : Nat) : State :=
  let x := SMap.get s.fab.ports n
  if x.wait.any (fun w => w.pkt.fvc == 3) then
    { s with fab := { s.fab with ports := SMap.set s.fab.ports n { x with starve := x.starve + 1 } } }
  else s

/-- TIME_MESSAGE_SEND (R59, R57): at the next multiple of 4,096 ns of local time every UP port sends a message; a
Summit's own sequence number advances every announcement interval, when PRIO is read (R55). -/
def execTimeMessageSend (s : State) : Result :=
  if s.get L.PWR_RST_HOLD.TB = 1 then .next s
  else
    let s := s.elapseToNs ((s.tb.ns / 4096 + 1) * 4096)
    let s := s.when (s.tb.ns / 4096 % 8 = 0) (fun s =>
      (s.setTb { s.tb with annSeq := (s.tb.annSeq + 1) % 2 ^ 32 }).readPrio)
    .next (s.forAll ((List.range 8).filter (fun p => s.portUp p && !s.txIdle)) (fun s p =>
      let t := SMap.get s.tb.ports p
      let s := (s.fabZero p).send (.time p (s.timeMessage p))
      s.setTb { s.tb with ports := SMap.set s.tb.ports p { t with sent := t.sent + 1 } }))

/-- A switch record from the Summit arms the same switch (R45); one whose frame has passed puts the follower into
HOLDOVER with LATE_SWITCH, and one that is in force already ends an arm of it. -/
def State.hearSwitch (s : State) (period frame : Nat) : State :=
  if s.base = frame ∧ s.period = period then
    s.when (s.get L.TB_SWITCH_FRAME.FRAME = frame) (fun s => s.dropAsk L.TB_SWITCH.ARM)
  else if s.ticking ∧ s.frame ≥ frame then s.lockLost.tbEvent L.TB_EVT.LATE_SWITCH
  else ((s.put L.TB_SWITCH.NEXT_PERIOD period).put L.TB_SWITCH_FRAME.FRAME frame).put L.TB_SWITCH.ARM 1

/-- What a port keeps of an announcement. -/
def State.keepHeard (s : State) (p : Nat) (m : TimeMsg) : State :=
  let t := SMap.get s.tb.ports p
  let fresh := match t.heard with
    | some h => if h.serial = m.candSerial ∧ seqNewer m.annSeq h.annSeq = false then h.freshAt else s.up
    | none => s.up
  let h : Heard :=
    ⟨m.candSerial, m.annSeq, m.hops, m.tscale, m.period, m.origin, m.base, m.swValid, m.swPeriod, m.swFrame, fresh⟩
  s.setTb { s.tb with ports := SMap.set s.tb.ports p { t with heard := some h } }

/-- The measurement of R60: offset and delay in 2⁻¹⁶ ns. -/
def exchange (t1 t2 t3 t4 : Int) (asymPs : Int) : Int × Int :=
  (((t2 - t1) + (t3 - t4)) / 2 - asymPs * 2 ^ 16 / 1000, ((t4 - t1) - (t3 - t2)) / 2)

/-- TIME_MESSAGE_RX (R60): the port measures its partner, an announcement enters the election (R56), and a message
from the parent drives the servo, the grid and an announced switch (R51, R45, R62). DELAY is held between the ends of its
field, as OFFSET is (DESIGN CHOICE, log entry 200). -/
def execTimeMessageRx (port : Fin 8) (m : TimeMsg) (s : State) : Result :=
  let p := port.val
  if s.portUp p = false ∨ s.get L.PWR_RST_HOLD.TB = 1 then .next s
  else
    let t := SMap.get s.tb.ports p
    let t4 := s.stamp
    let s := s.put (L.TB_PORT_STAT.PARTNER_STATE p) m.state
    let echo : Bool := decide (t.sent > 0 ∧ m.echoTx ≠ 0)
    let r := exchange m.echoTx m.echoRx m.txTime t4 (signedOf 16 (s.get (L.TB_PORT_ASYM.ASYM p)))
    let t := { t with echoTx := m.txTime, echoRx := t4, lastRx := s.up, heardAny := true,
                      offset := if echo then r.1 else t.offset }
    let s := s.setTb { s.tb with ports := SMap.set s.tb.ports p t }
    let s := s.when (echo = true) (fun s =>
      ((s.put (L.TB_PORT_STAT.OFFSET p) (toSigned 32 (clampSigned 32 (r.1 * 1000 / 2 ^ 16)))).put
        (L.TB_PORT_STAT.DELAY p) (min (r.2 * 1000 / 2 ^ 16).toNat (2 ^ 24 - 1))).put (L.TB_PORT_STAT.VALID p) 1)
    let s := if m.announce then
        (s.keepHeard p m).hearCand ⟨m.candRun, m.candPrio, m.candSerial, m.candId, m.annSeq⟩
      else s
    let parent : Bool := decide (s.get L.TB_STATUS.PARENT_VALID = 1 ∧ s.get L.TB_STATUS.PARENT_PORT = p)
    if parent then
      let s := if m.announce then
          let s := (s.put L.TB_STATUS.HOPS (m.hops + 1)).keepGrid p
          let s := s.when (s.get L.TB_CTRL.FRAME_FOLLOW = 1 ∧ ¬ s.ticking ∧ s.servo ≠ servoHoldover) (fun s => s.takeGrid p)
          s.when (m.swValid = true ∧ s.get L.TB_CTRL.FRAME_FOLLOW = 1 ∧ m.tscale = s.tb.tscale)
            (fun s => s.hearSwitch m.swPeriod m.swFrame)
        else s
      let s := s.when (m.state ≠ servoLock) (fun s => s.lockLost)
      if echo then .next (s.followerUpdate r.1) else .next s
    else if s.tb.settled = true ∧ s.tb.bestSelf = false ∧ s.get L.TB_STATUS.PARENT_VALID = 0 then
      .next s.followTree
    else .next s

/-! ### Outputs (R47) -/

/-- The multiple of 10⁹ ns that this cycle reaches and that is not handled, or the next one (R47). -/
def State.nextPps (s : State) : Nat :=
  let g := s.tb.ns / 1000000000 * 1000000000
  if s.reaches g ∧ s.tb.lastPps ≠ some g then g else g + 1000000000

/-- PPS_OUT_PULSE (R47): 100 ns at a multiple of 10⁹ ns, while TICKING and PPS_OUT_EN are 1. -/
def execPpsOutPulse (s : State) : Result :=
  let t := s.nextPps
  let s := s.elapseToNs t
  let s := s.setTb { s.tb with lastPps := some t }
  if s.ticking ∧ s.get L.TB_OUT_CFG.PPS_OUT_EN = 1 then
    let s := s.setTb { s.tb with ppsEnd := s.tb.ns + 100 }
    .next (s.send (.pulse .ppsOut s.tb.ns 100 (s.get L.TB_OUT_CFG.OUT_DLY)))
  else .next s

/-- The balls of the time base are held low while TICKING is 0: a pulse under way ends (R47). -/
def State.ballsFall (s : State) : State :=
  let s := s.when (s.tb.ns < s.tb.tickEnd) (fun s => s.send (.cut .tickOut s.tb.ns))
  let s := s.when (s.tb.ns < s.tb.ppsEnd) (fun s => s.send (.cut .ppsOut s.tb.ns))
  s.setTb { s.tb with tickEnd := 0, ppsEnd := 0 }

/-- The tick pulse of the frame that opens (R47); a pulse as long as the period is cut at the next tick. -/
def State.tickPulse (s : State) : State :=
  let d := s.get L.TB_OUT_CFG.TICK_DIV
  if d ≠ 0 ∧ s.frame % d = 0 then
    let w := min (s.get L.TB_OUT_CFG.TICK_W * 4) s.period
    let s := s.setTb { s.tb with tickEnd := s.tb.ns + w }
    s.send (.pulse .tickOut s.tb.ns w (s.get L.TB_OUT_CFG.OUT_DLY))
  else s

/-! ### Reads and writes of the registers -/

/-- A read of TB_TIME (R40). -/
def State.tbTimeRead (s : State) (c : Issuer) : State :=
  let f := s.frame
  let o := s.offset
  let w := c.sealed
  let s := ((s.put (L.TB_LATCH_FRAME.FRAME w) f).put (L.TB_LATCH_AUX.OFFSET w) o).put (L.TB_LATCH_AUX.FRAC w) s.visFrac
  (s.answer (.data (BitVec.ofNat 64 s.tb.ns)))

/-- TB_TIME_READ (R40): the count is returned, and fraction, frame number and offset are latched for the reading
world. -/
def execTbTimeRead (c : Issuer) (s : State) : Result :=
  .next (s.issue c (fun c s => s.tbTimeRead c))

/-- A Sealed write of TB_ registers takes effect; an Open one is answered under R32 (R65). -/
def State.tbGuard (s : State) (c : Issuer) (key : Nat) (f : State → State) : State :=
  if c.sealed then f (s.answer .ok) else s.worldError 0 (regAddr key) c

/-- A write of TB_CTRL (R42, R53): FRAME_FOLLOW and TICK_EN are set; 1 in RESTEP requests a re-step. -/
def State.writeTbCtrl (s : State) (v : Nat) : State :=
  let s := (s.put L.TB_CTRL.FRAME_FOLLOW v).put L.TB_CTRL.TICK_EN (bits v 1 1)
  if v.testBit 2 then s.setTb { s.tb with restepReq := true } else s

/-- The Summit has followers: one of its fabric ports is up (R44). -/
def State.hasFollowers (s : State) : Bool := (List.range 8).any s.portUp

/-- The arm comes late (R44). -/
def State.armLate (s : State) : Bool :=
  let f := s.get L.TB_SWITCH_FRAME.FRAME
  if s.get L.TB_STATUS.IS_SUMMIT = 1 ∧ s.hasFollowers then
    decide (s.origin + (f - s.base) * s.period < s.tb.ns + 2000000 ∨ f < s.base)
  else decide (f < s.frame + 2)

/-- PERIOD values that R43 accepts. -/
def periodOk (p : Nat) : Bool := decide (5000 ≤ p ∧ p ≤ 10000000)

/-- A device that is not Summit and follows the Summit's grid (R43, R46). -/
def State.gridFollowed (s : State) : Bool :=
  decide (s.get L.TB_CTRL.FRAME_FOLLOW = 1 ∧ s.get L.TB_STATUS.IS_SUMMIT = 0)

/-- A write of TB_SWITCH (R43, R44, R46). -/
def State.writeTbSwitch (s : State) (c : Issuer) (v : Nat) : State :=
  let np := bits v 23 0
  let arm : Bool := v.testBit 24
  if periodOk np = false then s.forbidden 0 R.TB_SWITCH c
  else if s.get L.TB_SWITCH.ARM = 1 then
    if np ≠ s.get L.TB_SWITCH.NEXT_PERIOD then s.forbidden 0 R.TB_SWITCH c else s
  else if arm = false then s.put L.TB_SWITCH.NEXT_PERIOD np
  else if ¬ s.ticking ∨ s.gridFollowed = true then s.forbidden 0 R.TB_SWITCH c
  else
    let s := s.put L.TB_SWITCH.NEXT_PERIOD np
    if s.armLate then s.tbEvent L.TB_EVT.ARM_LATE else s.ask L.TB_SWITCH.ARM

/-- A direct write of PERIOD, ORIGIN or BASE is allowed (R43). -/
def State.gridWritable (s : State) : Bool := decide (¬ s.ticking) && !s.gridFollowed

/-- TICK_EN_WRITE (R42). -/
def execTickEnWrite (c : Issuer) (v : Word) (s : State) : Result :=
  .next (s.issue c (fun c s => s.tbGuard c R.TB_CTRL (fun s => s.writeTbCtrl v.toNat)))

/-- RESTEP_WRITE (R53). -/
def execRestepWrite (c : Issuer) (v : Word) (s : State) : Result :=
  .next (s.issue c (fun c s => s.tbGuard c R.TB_CTRL (fun s => s.writeTbCtrl v.toNat)))

/-- SWITCH_ARM (R44, R46). -/
def execSwitchArm (c : Issuer) (v : Word) (s : State) : Result :=
  .next (s.issue c (fun c s => s.tbGuard c R.TB_SWITCH (fun s => s.writeTbSwitch c v.toNat)))

/-- A write of a TB_ register that has a rule of its own; `none` for the others, which set their fields by type. On the
crystal TRACE stays 0 (Table 2.1). -/
def State.writeTb (s : State) (r : Reg) (c : Issuer) (v : Nat) : Option State :=
  match r with
  | .TB_CTRL => some (s.writeTbCtrl v)
  | .TB_SWITCH => some (s.writeTbSwitch c v)
  | .TB_FRAME_CFG =>
    some (if periodOk (bits v 23 0) ∧ s.gridWritable then s.put L.TB_FRAME_CFG.PERIOD v else s.forbidden 0 R.TB_FRAME_CFG c)
  | .TB_FRAME_ORIGIN =>
    some (if s.gridWritable then s.put L.TB_FRAME_ORIGIN.ORIGIN v else s.forbidden 0 R.TB_FRAME_ORIGIN c)
  | .TB_FRAME_BASE =>
    some (if s.gridWritable then s.put L.TB_FRAME_BASE.BASE v else s.forbidden 0 R.TB_FRAME_BASE c)
  | .TB_SWITCH_FRAME =>
    some (if s.get L.TB_SWITCH.ARM = 1 then s.forbidden 0 R.TB_SWITCH_FRAME c else s.put L.TB_SWITCH_FRAME.FRAME v)
  | .TB_SRC_CFG =>
    some (if bits v 1 0 = 3 then s.reservedEnc 0 R.TB_SRC_CFG c
          else
            let s := (s.put L.TB_SRC_CFG.ACQ_TMO (bits v 31 16)).put L.TB_SRC_CFG.SRC v
            s.when (bits v 1 0 = 0 ∧ s.get L.TB_STATUS.TRACE = 1) (fun s =>
              (s.put L.TB_STATUS.TRACE 0).tbEvent L.TB_EVT.TRACE_LOST))
  | _ => none

/-- The live value of a TB_ register that is read, `plain` as it is stored (R40 to R42): while TICKING is 0 the latched frame
number reads all ones and the latched offset 0. -/
def State.readTb (s : State) (r : Reg) (plain : Nat) : Option Nat :=
  match r with
  | .TB_TIME => some s.tb.ns
  | .TB_FRAME_NUM => some s.frame
  | .TB_LATCH_FRAME => some (if s.ticking then plain else noFrame)
  | .TB_LATCH_AUX => some (if s.ticking then plain else plain % 2 ^ 16)
  | _ => none

end Sys2Proof.Machine
end

