-- ==== Sys2Proof/Machine/FabricNet.lean ====
section
/-! DEFINITION. The fabric from the source's side (12): ports and their flits, routing, failures, and open requests. -/

namespace Sys2Proof.Machine

abbrev fabLog : Nat := 268
abbrev fabPortLog (n : Nat) : Nat := 269 + n
abbrev fabSrc : Nat := 0x1F

def State.fabEvent (s : State) (l : Loc) : State := s.event fabLog l R.FAB_EVT_EN
def State.fabPortEvent (s : State) (n : Nat) (l : Loc) : State := s.event (fabPortLog n) l (R.FAB_P_EVT_EN n)
abbrev State.fabPort (s : State) (n : Nat) : FabPort := SMap.get s.fab.ports n
def State.setFab (s : State) (x : Fab) : State := { s with fab := x }
def State.setFabPort (s : State) (n : Nat) (x : FabPort) : State :=
  s.setFab { s.fab with ports := SMap.set s.fab.ports n x }

abbrev portOff : Nat := 0
abbrev portIdle : Nat := 1
abbrev portTrain : Nat := 2
abbrev portUpSt : Nat := 3
abbrev portHeld : Nat := 4
abbrev State.portState (s : State) (n : Nat) : Nat := s.get (L.FAB_P_STATUS.STATE n)

/-- Packet types (Table 12.9). -/
abbrev ptRD : Nat := 0x01
abbrev ptWR : Nat := 0x02
abbrev ptATOM : Nat := 0x03
abbrev ptMSG : Nat := 0x04
abbrev ptRdRsp : Nat := 0x10
abbrev ptCMP : Nat := 0x11
abbrev ptAtomRsp : Nat := 0x12
abbrev ptRACK : Nat := 0x13
abbrev ptNAK : Nat := 0x1F
abbrev ptDR : Nat := 0x20
abbrev ptMMSG : Nat := 0x21

/-- Fabric status codes (Table 12.10). -/
abbrev fsMalformed : Nat := 0x01
abbrev fsNoRoute : Nat := 0x02
abbrev fsTtl : Nat := 0x03
abbrev fsQuarantine : Nat := 0x04
abbrev fsExcluded : Nat := 0x05
abbrev fsAperture : Nat := 0x06
abbrev fsWorld : Nat := 0x07
abbrev fsVi : Nat := 0x08
abbrev fsAccess : Nat := 0x09
abbrev fsOverrun : Nat := 0x0A
abbrev fsUnexpected : Nat := 0x0B

/-! ### Flits out (R286 to R288) -/

/-- Flits of a packet: its 16-byte units, header included, seven to a flit. -/
def fabFlits (p : FabPkt) : Nat := (2 + (p.len + 15) / 16 + 6) / 7

/-- The channels in the order of Table 12.4, with FV3 first when it has waited for 15 flits. -/
def fvOrder (starve : Nat) : List Nat := if 15 ≤ starve then [3, 1, 2, 4] else [1, 2, 4, 3]

/-- This device's identifier, if it has one. -/
abbrev State.fabId (s : State) : Nat := s.get L.FAB_ID.ID
abbrev State.quarantined (s : State) : Bool := s.get L.FAB_STATUS.QUAR = 1

/-- A packet may not leave by port `n` now: the status with which it is refused (R295, R296, R304, R305). -/
def State.fabBarred (s : State) (n : Nat) (p : FabPkt) : Option Nat :=
  if s.get L.FAB_ID.ID_VALID = 0 ∧ p.ptype ≠ ptDR then some fsNoRoute
  else if p.fvc ≠ 2 ∧ (s.quarantined ∨ s.get (L.FAB_P_STATUS.PARTNER_QUAR n) = 1) then some fsQuarantine
  else if p.sync ∧ s.get (L.FAB_P_STATUS.PARTNER_HOLD n) = 1 then some fsExcluded
  else none

/-- The receive buffers of Table 12.4 in flits, FV1 to FV4. -/
abbrev fabDepth : List Nat := [16, 8, 64, 64]

/-- What the next flit of a port carries beside its payload (R286): the credits it returns. -/
def FabPort.returns (x : FabPort) : List Nat := (List.range 4).map (fun k => min 15 ((x.owed[k]?).getD 0))

/-- The port once such a flit has left. -/
def FabPort.returned (x : FabPort) : FabPort :=
  { x with ackDue := false, owed := (List.range 4).map (fun k => (x.owed[k]?).getD 0 - 15) }

/-- The packet whose flit a port sends next: of the channels in their order, the first with a credit and a packet that may
leave; within a channel the oldest. -/
def State.fabNext (s : State) (n : Nat) : Option FabWait :=
  let x := s.fabPort n
  (fvOrder x.starve).findSome? (fun fv =>
    if 0 < (x.credit[fv - 1]?).getD 0 then
      (x.wait.find? (fun w => w.pkt.fvc == fv)).bind (fun w => if s.fabBarred n w.pkt = none then some w else none)
    else none)

/-- One flit leaves a port, if credit and the replay buffer allow (R287, R288); with the last flit of a launched send that
wants no acknowledgement the launch reaches its completion point (R102, R109). A stopped device sends none (R285). -/
def State.fabSendFlit (s : State) (n : Nat) : Option State :=
  let x := s.fabPort n
  if s.portState n ≠ portUpSt ∨ s.txIdle ∨ 256 ≤ x.replay.length then none
  else
    match s.fabNext n with
    | none => none
    | some w =>
      let fv := w.pkt.fvc
      let last : Option FabPkt := if w.left ≤ 1 then some w.pkt else none
      let wait := if w.left ≤ 1 then x.wait.erase w else x.wait.map (fun y => if y = w then { w with left := w.left - 1 } else y)
      let waits3 : Bool := x.wait.any (fun y => y.pkt.fvc == 3)
      let y := { x.returned with
        wait := wait, txSeq := (x.txSeq + 1) % 4096, credit := x.credit.set (fv - 1) ((x.credit[fv - 1]?).getD 0 - 1),
        replay := x.replay ++ [(x.txSeq, fv, last)], starve := if fv ≠ 3 ∧ waits3 then x.starve + 1 else 0 }
      let s := s.setFabPort n y
      let s := match last with
        | none => s
        | some p =>
          let s := s.pmc uFP n 1 1 p.sealed p.vi
          let s := if fv = 1 then s.pmc uFP n 3 1 p.sealed p.vi else s
          match w.launch with
          | some id => if p.rackReq then s else s.endLaunch id 0
          | none => s
      some (s.send (.fabFlit n x.txSeq fv last x.rxLast x.returns))

/-- Flits leave while they can. -/
def State.fabPump (s : State) (n : Nat) : Nat → State
  | 0 => s
  | k + 1 =>
    match s.fabSendFlit n with
    | none => s
    | some s => s.fabPump n k

/-- What no PKT flit has carried leaves in IDLE flits: an acknowledgement, and credits, up to 15 of a channel in each (R286). -/
def State.fabIdles (s : State) (n : Nat) : Nat → State
  | 0 => s
  | k + 1 =>
    let x := s.fabPort n
    if s.portState n = portUpSt ∧ s.txIdle = false ∧ (x.ackDue ∨ x.returns.any (fun c => c != 0)) then
      ((s.setFabPort n x.returned).send (.fabIdle n x.txSeq x.rxLast x.returns)).fabIdles n k
    else s

/-- A port sends what it can: packets, and then what is due to the partner. -/
def State.fabFlow (s : State) (n : Nat) : State := (s.fabPump n 512).fabIdles n 8

/-- A packet is queued at a port. -/
def State.fabQueue (s : State) (n : Nat) (arr : Option Nat) (p : FabPkt) (launch : Option Nat) : State :=
  let x := s.fabPort n
  (s.setFabPort n { x with wait := x.wait ++ [⟨p, fabFlits p, launch, arr⟩] }).fabPump n 512

/-- A place of a channel's receive buffer is free again, and its credit is due to the partner (R287). -/
def State.fabFreed (s : State) (n fvc : Nat) : State :=
  let x := s.fabPort n
  let k := fvc - 1
  let r := (x.room[k]?).getD 0
  if fvc ≠ 0 ∧ r < (fabDepth[k]?).getD 0 then
    s.setFabPort n { x with
      room := x.room.set k (r + 1), owed := (List.range 4).map (fun i => (x.owed[i]?).getD 0 + (if i = k then 1 else 0)) }
  else s

/-! ### Routing (R296, R298) -/

/-- A port is usable for a packet that arrived on `arr` (R296). -/
def State.fabUsable (s : State) (arr : Option Nat) (p : FabPkt) (n : Nat) : Bool :=
  s.portState n = portUpSt && arr != some n && (s.get (L.FAB_P_STATUS.PARTNER_QUAR n) = 0 || p.fvc == 2)

/-- The route bank of a packet (R298), with the count of a stale one. -/
def State.fabBank (s : State) (p : FabPkt) : State × Nat :=
  let act := s.get L.FAB_EPOCH.ACTIVE
  if s.fab.prevEpoch.map (fun e => e % 4) = some p.epoch ∧ p.epoch ≠ s.get L.FAB_EPOCH.EPOCH % 4 then
    if s.get L.FAB_EPOCH.OLD_VALID = 1 then (s, 1 - act)
    else ((s.inc L.FAB_CNT.STALE).fabEvent L.FAB_EVT.STALE_EPOCH, act)
  else (s, act)

/-- The output of a packet by a bank's entries (R296): a port, or none. -/
def State.fabOut (s : State) (bank : Nat) (arr : Option Nat) (p : FabPkt) : Option Nat :=
  let e := if p.dst / 128 ≠ s.fabId / 128 then p.dst / 128 % 128 else 128 + p.dst % 128
  let pri := s.get (L.FAB_RT.PRI_PORT bank e)
  let alt := s.get (L.FAB_RT.ALT_PORT bank e)
  if s.get (L.FAB_RT.PRI_V bank e) = 1 ∧ s.fabUsable arr p pri then some pri
  else if s.get (L.FAB_RT.ALT_V bank e) = 1 ∧ s.fabUsable arr p alt then some alt
  else none

/-- A packet for another device is put on its way; the status of a failure, if it cannot be (R295, R296, R304, R305). -/
def State.fabRoute (s : State) (arr : Option Nat) (p : FabPkt) : State × Option Nat :=
  if s.get L.FAB_ID.ID_VALID = 0 then (s, some fsNoRoute)
  else if s.quarantined ∧ p.fvc ≠ 2 then (s, some fsQuarantine)
  else
    let b := s.fabBank p
    match b.1.fabOut b.2 arr p with
    | none => (b.1, some fsNoRoute)
    | some n =>
      match b.1.fabBarred n p with
      | some st => (b.1, some st)
      | none => (b.1.fabQueue n arr p none, none)

/-- A packet that starts at this device, its SRC_ID given (R293, R295): to itself, or out; the status of a local failure. -/
def State.fabInject (s : State) (p : FabPkt) : State × Option Nat :=
  let p := { p with hops := s.get L.FAB_CFG.MAX_HOPS, epoch := s.get L.FAB_EPOCH.EPOCH % 4 }
  if s.get L.FAB_ID.ID_VALID = 0 then (s, some fsNoRoute)
  else if p.dst = s.fabId then (s.setFab { s.fab with inbox := s.fab.inbox ++ [(8, p)] }, none)
  else s.fabRoute none p

/-- A packet that this device originates. -/
def State.fabOriginate (s : State) (p : FabPkt) : State × Option Nat := s.fabInject { p with src := s.fabId }

/-! ### Requests (R312, R313) -/

/-- OPEN_REQ follows the open requests. -/
def State.fabCount (s : State) : State := s.put L.FAB_STATUS.OPEN_REQ s.fab.opens.length

/-- A request failed: it is logged with its address, and REMOTE_ERR is set (R313). -/
def State.fabFailed (s : State) (p : FabPkt) (status : Nat) : State :=
  (s.logRec fabLog Cause.PARTNER status (0x400000000000 + (p.dst <<< 32) + p.offset) ⟨p.sealed, p.vi, p.gen, .device⟩ 0).fabEvent
    L.FAB_EVT.REMOTE_ERR

/-- The status of Table 4.2 that a launch reports (Table 12.12); `locally` that this device itself is quarantined. -/
def launchStatus (status : Nat) (locally : Bool) : Nat :=
  if status = 0 then 0
  else if status = fsWorld then 2
  else if status = fsVi then 3
  else if status = fsNoRoute ∨ status = fsTtl ∨ status = fsExcluded then 7
  else if status = fsQuarantine then (if locally then 4 else 7)
  else 4

/-- A request is sent, unless it fails here. -/
def State.fabSendReq (s : State) (o : FabOpen) : State × Option Nat :=
  match o.port with
  | none => s.fabOriginate o.pkt
  | some n =>
    let p := { o.pkt with src := s.fabId, hops := s.get L.FAB_CFG.MAX_HOPS, epoch := s.get L.FAB_EPOCH.EPOCH % 4 }
    if s.portState n ≠ portUpSt then (s, some fsNoRoute)
    else match s.fabBarred n p with
      | some st => (s, some st)
      | none => (s.fabQueue n none p (match o.user with
          | .launch id => some id
          | _ => none), none)

/-- A request that wants an answer: it is open from now on, or waits for one of the 1,024 places (R312). A failure found
here is answered with its status. -/
def State.fabRequest (s : State) (o : FabOpen) : State × Option Nat :=
  let o := { o with pkt := { o.pkt with txn := s.fab.nextTxn }, sentAt := s.up }
  let s := s.setFab { s.fab with nextTxn := (s.fab.nextTxn + 1) % 65536 }
  if 1024 ≤ s.fab.opens.length then (s.setFab { s.fab with later := s.fab.later ++ [o] }, none)
  else
    let r := s.fabSendReq o
    match r.2 with
    | some st => (r.1.fabFailed o.pkt st, some st)
    | none => ((r.1.setFab { r.1.fab with opens := r.1.fab.opens ++ [o] }).fabCount, none)

/-- A request that wants no answer. -/
def State.fabPosted (s : State) (p : FabPkt) : State × Option Nat :=
  let r := (s.setFab { s.fab with nextTxn := (s.fab.nextTxn + 1) % 65536 }).fabOriginate { p with txn := s.fab.nextTxn }
  match r.2 with
  | some st => (r.1.fabFailed p st, some st)
  | none => r

/-- A packet with the tags of an issuer. -/
def fabPacket (c : Issuer) (ptype fvc dst offset len : Nat) (data : Bytes) : FabPkt :=
  { (default : FabPkt) with
    ptype := ptype, fvc := fvc, sealed := c.sealed, vi := c.vi, gen := c.gen, dst := dst, offset := offset, len := len,
    data := data }

end Sys2Proof.Machine
end

