-- ==== Sys2Proof/Machine/Queue.lean ====
section
/-! DEFINITION. Queue engines (11): spill queues, engine commands, submission channels; and the parts of virtual
instances they need: generations, shares and dirty-page marks. -/

namespace Sys2Proof.Machine

abbrev qeLog (e : Nat) : Nat := 254 + e
/-- Source identifier of QEe (Table 7.1). -/
abbrev qeSrc (e : Nat) : Nat := 0x10 + e

def State.qeEvent (s : State) (e : Nat) (l : Loc) : State := s.event (qeLog e) l (R.QE_EVT_EN e)
abbrev State.spillQ (s : State) (q : Nat) : SpillQ := SMap.get s.queues q
def State.setSpillQ (s : State) (q : Nat) (x : SpillQ) : State := { s with queues := SMap.set s.queues q x }
abbrev State.qeOf (s : State) (e : Nat) : QEng := SMap.get s.qe e
def State.setQe (s : State) (e : Nat) (x : QEng) : State := { s with qe := SMap.set s.qe e x }

/-! ### Instances (R264, R271, R274, R278) -/

abbrev viFree : Nat := 0
abbrev viStopped : Nat := 1
abbrev viRunning : Nat := 2
abbrev viStopping : Nat := 3
abbrev viResetting : Nat := 4

abbrev State.viState (s : State) (v : Nat) : Nat := s.get (L.VI_STATE.STATE (v / 32) (v % 32))
abbrev State.viGen (s : State) (v : Nat) : Nat := s.get (L.VI_STATE.GEN (v / 32) (v % 32))
abbrev State.viSealed (s : State) (v : Nat) : Bool := s.get (L.VI_STATE.WORLD (v / 32) (v % 32)) = 1

/-- A response of an older generation is discarded and counted (R274). -/
def State.lateDiscard (s : State) (v : Nat) : State := s.inc (L.VI_STATE.LATE (v / 32) (v % 32))

/-- The tags were issued under a generation other than the instance's (R274). -/
def State.stale (s : State) (c : Issuer) : Bool :=
  match c.vi with
  | some v => s.viGen v != c.gen
  | none => false

/-- The instance of a resource, if it has one, is RUNNING. -/
def State.viRuns (s : State) (v : Option Nat) : Bool :=
  match v with
  | some v => s.viState v = viRunning
  | none => true

/-- The tags of transactions that a resource of a world and instance makes (R29). -/
def State.tags (s : State) (sealed : Bool) (v : Option Nat) : Issuer := ⟨sealed, v, (v.map s.viGen).getD 0, .device⟩

/-- The mark of one page (R278): the bit of the page in the active bitmap. -/
def State.markPage (s : State) (v page : Nat) : State :=
  let k := v / 32
  let j := v % 32
  if s.get (L.VI_DIRTY_CTRL.PAGES k j) ≤ page then s.raise (L.VI_DIRTY_STAT.OVF k j)
  else
    let base := 0x1000 * (if s.get (L.VI_DIRTY_CTRL.ACTIVE k j) = 0 then s.get (L.VI_DIRTY_B0.BASE k j)
      else s.get (L.VI_DIRTY_B1.BASE k j))
    let c := unitIssuer (s.viSealed v)
    let a := base + 8 * (page / 64) + page % 64 / 8
    let r := s.physRead (qeSrc k) c a 1
    if r.2.err then r.1 else (r.1.physWrite (qeSrc k) c a [setBit ((r.2.data.head?).getD 0) (page % 8)]).1

/-- The pages of a write of an instance are marked while its logging is enabled (R278, R279). -/
def State.markDirty (s : State) (c : Issuer) (a n : Nat) : State :=
  match c.vi with
  | none => s
  | some v =>
    if s.get (L.VI_DIRTY_CTRL.EN (v / 32) (v % 32)) = 1 ∧ 0 < n then
      s.forAll ((List.range ((a + n - 1) / 0x1000 - a / 0x1000 + 1)).map (fun i => a / 0x1000 + i)) (fun s p => s.markPage v p)
    else s

/-- A write of data by a unit at a device address: translated, performed, and marked as far as it was performed (R279). -/
def State.store (s : State) (src : Nat) (c : Issuer) (a : Nat) (b : Bytes) (poisoned : Bool) : State × Bool :=
  let r := s.ioWriteN src c a b poisoned
  (r.1.markDirty c a r.2, r.2 == b.length)

/-- An MSI of a unit: a 4-byte write through the IOMMU (Table 1.5, R132, R274, R456). -/
def State.sendMsi (s : State) (src : Nat) (c : Issuer) (a data : Nat) : State :=
  if s.stale c then s.lateDiscard (c.vi.getD 0)
  else
    let was := s.resp
    { s.ioMsi src c a data with resp := was }

/-- Bytes of free value: data that the specification leaves undefined. -/
def State.freeBytes (s : State) (n : Nat) : State × Bytes :=
  (s.useFree, (List.range n).map (fun i => (Config.freeByte (s.free * 0x100000000 + i)).toNat))

/-! ### Spill queues (R259 to R263) -/

abbrev qDisabled : Nat := 0
abbrev qDirect : Nat := 1
abbrev qSpilling : Nat := 2
abbrev qError : Nat := 3

abbrev State.qState (s : State) (q : Nat) : Nat := s.get (L.QE_Q_STAT.STATE (q / 512) (q % 512))

/-- Entries of a packet. -/
def packetEntries (n : Nat) : Nat := (n + 63) / 64

/-- Entries of a packet that no entry of the queue holds yet. -/
def QArrival.due (a : QArrival) : Nat := if a.refused then 0 else packetEntries a.total - a.sent

/-- Entries that a queue holds. -/
def SpillQ.held (x : SpillQ) : Nat := x.head.length + x.mid + x.tail.length

/-- The limit of a queue (R260). -/
def State.qLimit (s : State) (q : Nat) : Nat :=
  let l := s.get (L.QE_Q_CFG.LIMIT (q / 512) (q % 512))
  match s.viOf (.queue q) with
  | some v =>
    let m := s.get (L.VI_SHARE.QLIMIT (v / 32) (v % 32))
    if m = 0 then l else min l m
  | none => l

/-- Occupancy: entries held and entries due for admitted packets. -/
def State.qOcc (s : State) (q : Nat) : Nat := (s.spillQ q).held + ((s.spillQ q).arrivals.map QArrival.due).sum

/-- OCC and FULL follow the queue and its limit. -/
def State.qUpdate (s : State) (q : Nat) : State :=
  let e := q / 512
  let i := q % 512
  (s.put (L.QE_Q_STAT.OCC e i) (s.qOcc q)).put (L.QE_Q_STAT.FULL e i) (if s.qLimit q ≤ s.qOcc q then 1 else 0)

/-- The tags and the source identifier of spill accesses (R249, Table 13.1). -/
def State.spillIssuer (s : State) (q : Nat) : Issuer := unitIssuer (s.ownerSealed (.queue q))

/-- Entries of the spill region, its base and its sideband base. -/
def State.spillCap (s : State) (q : Nat) : Nat := 2 ^ s.get (L.QE_Q_SPILL.LOG2SZ (q / 512) (q % 512)) / 64
def State.spillBase (s : State) (q : Nat) : Nat :=
  let k := s.get (L.QE_Q_SPILL.LOG2SZ (q / 512) (q % 512))
  ((s.get (L.QE_Q_SPILL.BASE (q / 512) (q % 512)) * 0x1000) >>> k) <<< k
def State.sidebandBase (s : State) (q : Nat) : Nat := 64 * s.get (L.QE_Q_SB.SB_BASE (q / 512) (q % 512))

/-- The sideband byte of an entry (R259). -/
def sidebandOf (x : QEntry) : Nat := (x.bytes - 1) % 64 + (if x.sop then 64 else 0) + (if x.eop then 128 else 0)

/-- The head takes entries from the tail while the middle is empty (rule 2 of R261). -/
def headTakes : Nat → SpillQ → SpillQ
  | 0, x => x
  | k + 1, x =>
    if x.head.length < 8 ∧ x.mid = 0 then
      match x.tail with
      | [] => x
      | t :: rest => headTakes k { x with head := x.head ++ [t], tail := rest }
    else x

/-- The head takes what it may, and an empty middle leaves SPILLING. -/
def State.qSettle (s : State) (q : Nat) : State :=
  let s := s.setSpillQ q (headTakes 8 (s.spillQ q))
  s.when (s.qState q = qSpilling ∧ (s.spillQ q).mid = 0) (fun s => s.put (L.QE_Q_STAT.STATE (q / 512) (q % 512)) qDirect)

/-- Bytes of an arriving packet that make its next entry, if they have all come. -/
def QArrival.nextChunk (a : QArrival) : Option (Bytes × Bool) :=
  if 64 ≤ a.buf.length then some (a.buf.take 64, decide (a.sent + 1 = packetEntries a.total))
  else if a.got = a.total ∧ a.buf ≠ [] then some (a.buf, true)
  else none

/-- Arriving entries enter the tail in packet order while it has room (R260, R261 rule 1); entries to be discarded are
discarded as they arrive (R254, R262). -/
def State.qFeed (s : State) (q : Nat) : Nat → State
  | 0 => s
  | k + 1 =>
    let x := s.spillQ q
    let live := x.arrivals.filter (fun a => !a.refused)
    match live.head? with
    | none => s
    | some a =>
      match a.nextChunk with
      | none => s
      | some (b, last) =>
        let gone : Bool := a.drop || s.qState q == qDisabled || s.qState q == qError
        if gone = false ∧ 8 ≤ x.tail.length then s
        else
          let f := s.freeBytes (64 - b.length)
          let s := if b.length = 64 then s else f.1
          let a' : QArrival := { a with buf := a.buf.drop 64, sent := a.sent + 1 }
          let arr := if last then x.arrivals.filter (fun y => y != a) else x.arrivals.map (fun y => if y = a then a' else y)
          let x := { x with arrivals := arr }
          if gone then
            let s := s.setSpillQ q x
            let s := if last then s.put (L.QE_Q_STAT.DISCARD (q / 512) (q % 512)) 0 else s
            s.qFeed q k
          else
            let ent : QEntry := ⟨b ++ (if b.length = 64 then [] else f.2), b.length, a.sent == 0, last⟩
            ((s.setSpillQ q { x with tail := x.tail ++ [ent] }).qSettle q).qFeed q k

/-- Everything that has arrived enters as far as it can. -/
def State.qRun (s : State) (q : Nat) : State :=
  let n := ((s.spillQ q).arrivals.map (fun a => a.buf.length / 64 + 1)).sum
  ((s.qSettle q).qFeed q n).qUpdate q

/-- A spill access failed (R262). -/
def State.spillError (s : State) (q a : Nat) : State :=
  let e := q / 512
  let s := (s.put (L.QE_Q_STAT.STATE e (q % 512)) qError).setSpillQ q { s.spillQ q with reading := 0 }
  ((s.logRec (qeLog e) Cause.ACCESS 0 a (s.spillIssuer q) 0).qeEvent e (L.QE_EVT.SPILL_ERR e)).qRun q

/-- The tail writes its 8 entries to the middle (R261 rule 3). -/
def State.spill (s : State) (q : Nat) : State :=
  let e := q / 512
  let x := s.spillQ q
  let k := (x.midAt + x.mid) % s.spillCap q
  let c := s.spillIssuer q
  let w := s.ioWrite (qeSrc e) c (s.spillBase q + 64 * k) (x.tail.flatMap (fun t => t.data)) false
  if w.2 = false then w.1.spillError q (s.spillBase q + 64 * k)
  else
    let w2 := w.1.ioWrite (qeSrc e) c (s.sidebandBase q + k) (x.tail.map sidebandOf) false
    if w2.2 = false then w2.1.spillError q (s.sidebandBase q + k)
    else
      let s := w2.1.setSpillQ q { x with tail := [], mid := x.mid + 8 }
      (s.put (L.QE_Q_STAT.STATE e (q % 512)) qSpilling).qRun q

/-- Rule 3 of R261 applies: the tail is full and the head cannot take from it. -/
def State.mustSpill (s : State) (q : Nat) : Bool :=
  let x := s.spillQ q
  decide (8 ≤ x.tail.length) && (decide (0 < x.mid) || decide (8 ≤ x.head.length)) && decide (x.mid + 8 ≤ s.spillCap q) &&
    (s.qState q == qDirect || s.qState q == qSpilling)

/-- SPILL_WRITE (R261). -/
def execSpillWrite (q : Fin 4096) (s : State) : Result :=
  s.devCmd (fun s => if s.mustSpill q then .next (s.spill q) else .next s)

/-- Entries that the next middle read asks for; 0 if none may start. -/
def State.readSize (s : State) (q : Nat) : Nat :=
  let x := s.spillQ q
  if x.reading = 0 ∧ s.qState q = qSpilling then min (8 - x.head.length) x.mid else 0

/-- MIDDLE_READ (R261). -/
def execMiddleRead (q : Fin 4096) (s : State) : Result :=
  .next (if s.readSize q = 0 then s else s.setSpillQ q { s.spillQ q with reading := s.readSize q })

/-- One entry of the middle, read from the spill region; poison counts as an error (R262). -/
def State.middleEntry (s : State) (q k : Nat) : State × Option QEntry :=
  let e := q / 512
  let c := s.spillIssuer q
  let d := s.ioRead (qeSrc e) c (s.spillBase q + 64 * k) 64
  let b := d.1.ioRead (qeSrc e) c (s.sidebandBase q + k) 1
  if d.2.err ∨ d.2.poison ∨ b.2.err ∨ b.2.poison then (b.1, none)
  else
    let v := (b.2.data.head?).getD 0
    (b.1, some ⟨d.2.data, v % 64 + 1, v.testBit 6, v.testBit 7⟩)

/-- `n` entries move from the middle to the head. -/
def State.refill (s : State) (q : Nat) : Nat → State
  | 0 => s
  | n + 1 =>
    let x := s.spillQ q
    let r := s.middleEntry q x.midAt
    match r.2 with
    | none => r.1.spillError q (s.spillBase q + 64 * x.midAt)
    | some ent =>
      (r.1.setSpillQ q { x with
        head := x.head ++ [ent], mid := x.mid - 1, midAt := (x.midAt + 1) % s.spillCap q }).refill q n

/-- A middle read returns (R261). -/
def State.middleReturn (s : State) (q : Nat) : State :=
  let n := (s.spillQ q).reading
  ((s.setSpillQ q { s.spillQ q with reading := 0 }).refill q n).qRun q

/-- MIDDLE_READ_RETURN (R261). -/
def execMiddleReadReturn (q : Fin 4096) (s : State) : Result :=
  s.devCmd (fun s =>
    if (s.spillQ q).reading = 0 then .next s else .next (s.middleReturn q))

/-- The queue refuses producers whatever its occupancy (R262, R329, R267). -/
def State.qRefuses (s : State) (q : Nat) : Bool :=
  s.qState q == qDisabled || s.qState q == qError || s.isReleasing (.queue q)

/-- The queue admits a packet of `n` entries (R260). -/
def State.qAdmits (s : State) (q n : Nat) : Bool := !s.qRefuses q && decide (s.qOcc q + n ≤ s.qLimit q)

/-- A packet is refused (R260). -/
def State.qRefuse (s : State) (q : Nat) : State :=
  let e := q / 512
  (((s.raise (L.QE_Q_STAT.OVERRUN e (q % 512))).inc (L.QE_Q_STAT.DROPS e (q % 512))).qeEvent e (L.QE_EVT.OVERRUN e)).pmc
    uQE e 3 1 (s.ownerSealed (.queue q)) (s.viOf (.queue q))

/-- Bytes of a packet arrive at a queue: the first of them are judged for the whole packet (R260), later ones follow
it. The answer says whether the packet was admitted. -/
def State.qArrive (s : State) (q src total : Nat) (data : Bytes) : State × Bool :=
  let x := s.spillQ q
  match x.arrivals.find? (fun a => a.src == src && decide (a.got < a.total)) with
  | some a =>
    let d := data.take (a.total - a.got)
    let a' : QArrival := { a with got := a.got + d.length, buf := if a.refused then [] else a.buf ++ d }
    let arr := if a.refused ∧ a'.got = a'.total then x.arrivals.filter (fun y => y != a)
      else x.arrivals.map (fun y => if y = a then a' else y)
    ((s.setSpillQ q { x with arrivals := arr }).qRun q, !a.refused)
  | none =>
    let d := data.take total
    let n := packetEntries total
    if s.qAdmits q n then
      ((s.setSpillQ q { x with arrivals := x.arrivals ++ [⟨src, total, d.length, d, 0, false, false⟩] }).qRun q, true)
    else
      let s := s.qRefuse q
      ((if d.length < total then s.setSpillQ q { x with arrivals := x.arrivals ++ [⟨src, total, d.length, [], 0, false, true⟩] }
        else s), false)

/-- QUEUE_ADMIT (R260). -/
def execQueueAdmit (q : Fin 4096) (p : Arriving) (s : State) : Result :=
  if p.total = 0 then .next s else .next (s.qArrive q p.src p.total p.data).1

/-- An operation runs on the queue. -/
def State.qBusy (s : State) (q : Nat) : Bool :=
  (s.qeOf (q / 512)).cmds.any (fun c => c.started && !c.fin && c.op != 1 && c.queue == q % 512)

/-- A disable or flush takes effect (R262). -/
def State.qDiscard (s : State) (q : Nat) : State :=
  let e := q / 512
  let i := q % 512
  let x := s.spillQ q
  let arr := (x.arrivals.map (fun a => { a with buf := [], drop := true, sent := a.sent + packetEntries a.buf.length })).filter
    (fun a => decide (a.got < a.total))
  let s := s.setSpillQ q ⟨[], [], 0, 0, 0, arr, false⟩
  let s := ((s.put (L.QE_Q_STAT.OVERRUN e i) 0).put (L.QE_Q_STAT.DISCARD e i) 0).put (L.QE_Q_STAT.DROPS e i) 0
  (s.put (L.QE_Q_STAT.STATE e i) (if s.get (L.QE_Q_CFG.EN e i) = 1 then qDirect else qDisabled)).qUpdate q

/-- QUEUE_DISCARD_APPLY (R262). -/
def execQueueDiscardApply (q : Fin 4096) (s : State) : Result :=
  if (s.spillQ q).apply ∧ s.qBusy q = false then .next (s.qDiscard q) else .next s

/-- Disabled and flushed at once (R267, R328). -/
def State.qOff (s : State) (q : Nat) : State := (s.put (L.QE_Q_CFG.EN (q / 512) (q % 512)) 0).qDiscard q

/-- A write of QE_Q_CFG (R262, R281). -/
def State.writeQCfg (s : State) (q : Nat) (c : Issuer) (v : Nat) : State :=
  let e := q / 512
  let i := q % 512
  let lim := bits v 18 0
  let was := s.get (L.QE_Q_CFG.EN e i)
  if lim = 0 ∨ 262160 < lim then s.reservedEnc (qeLog e) (R.QE_Q_CFG e i) c
  else if (was = 1 ∧ lim ≠ s.get (L.QE_Q_CFG.LIMIT e i)) ∨ (v.testBit 63 ∧ was = 0 ∧ 16 + s.spillCap q < lim) then
    s.forbidden (qeLog e) (R.QE_Q_CFG e i) c
  else
    let s := (s.put (L.QE_Q_CFG.LIMIT e i) lim).put (L.QE_Q_CFG.EN e i) (bits v 63 63)
    let s := s.when (v.testBit 63 = true ∧ s.qState q = qDisabled) (fun s => s.put (L.QE_Q_STAT.STATE e i) qDirect)
    let s := s.when (v.testBit 62 = true ∨ (was = 1 ∧ v.testBit 63 = false)) (fun s =>
      s.setSpillQ q { s.spillQ q with apply := true })
    s.qUpdate q

/-- Access to QE_Q registers (R281). -/
def State.qGuard (s : State) (q : Nat) (c : Issuer) (key : Nat) (f : State → State) : State :=
  if c.sealed ≠ s.ownerSealed (.queue q) ∨ s.isReleasing (.queue q) then s.worldError (qeLog (q / 512)) (regAddr key) c
  else if c.vi.isSome then s.viError (qeLog (q / 512)) (regAddr key) c
  else f (s.answer .ok)

/-- Access to engine and channel registers (R281). -/
def State.qeGuard (s : State) (e : Nat) (c : Issuer) (key : Nat) (f : State → State) : State :=
  if c.sealed ≠ s.ownerSealed (.qe e) ∨ s.isReleasing (.qe e) then s.worldError (qeLog e) (regAddr key) c
  else if c.vi.isSome then s.viError (qeLog e) (regAddr key) c
  else f (s.answer .ok)

/-- QUEUE_ENABLE (R262). -/
def execQueueEnable (c : Issuer) (q : Fin 4096) (v : Word) (s : State) : Result :=
  .next (s.issue c (fun c s => s.qGuard q c (R.QE_Q_CFG (q / 512) (q % 512)) (fun s => s.writeQCfg q c v.toNat)))
/-- QUEUE_DISABLE (R262). -/
def execQueueDisable (c : Issuer) (q : Fin 4096) (v : Word) (s : State) : Result :=
  .next (s.issue c (fun c s => s.qGuard q c (R.QE_Q_CFG (q / 512) (q % 512)) (fun s => s.writeQCfg q c v.toNat)))
/-- QUEUE_FLUSH (R262). -/
def execQueueFlush (c : Issuer) (q : Fin 4096) (v : Word) (s : State) : Result :=
  .next (s.issue c (fun c s => s.qGuard q c (R.QE_Q_CFG (q / 512) (q % 512)) (fun s => s.writeQCfg q c v.toNat)))

/-! ### Commands (R246 to R256) -/

/-- The fields of a command's words 1 to 7 (R250), with the status that they earn by themselves: 1 for DESC_BAD. -/
def qeCommand (w : List Nat) (c : Issuer) (source : Nat) : QCmd :=
  let g (i : Nat) : Nat := (w[i]?).getD 0
  let w1 := g 0
  let op := bits w1 3 0
  let len := bits w1 63 32
  let q := bits w1 16 8
  let res := bits (g 3) 47 0
  let bad : Bool := decide (op < 1 ∨ 4 < op) || decide (bits w1 19 17 ≠ 0 ∨ bits w1 7 6 ≠ 0) ||
    decide (bits (g 1) 63 48 ≠ 0 ∨ bits (g 2) 63 48 ≠ 0 ∨ bits (g 3) 63 48 ≠ 0 ∨ g 4 ≠ 0 ∨ g 5 ≠ 0 ∨ g 6 ≠ 0) ||
    decide ((op = 1 ∧ len = 0) ∨ (op = 2 ∧ (len = 0 ∨ 4194304 < len)) ∨ (op = 3 ∧ len < 128) ∨ (op = 4 ∧ len ≠ 0)) ||
    decide (res % 8 ≠ 0)
  { id := 0, launch := none, ch := 0, tag := 0, cint := false, source := source, issuer := c, op := op, len := len
    npkt := bits w1 31 20, queue := q, ord := w1.testBit 5, rsv := w1.testBit 4, src := bits (g 1) 47 0
    dst := bits (g 2) 47 0, res := res, started := false, seq := 0, pos := 0, remote := false, far := false, posted := []
    rest := [], load := 0, last := none, fin := false, status := if bad then 1 else 0, bytes := 0, pkts := 0, split := false
    dropped := false, partly := false, empty := false }

/-- A command judged with the queue it names (R248, R250): a queue that is not enabled, of the other world, or of another
instance. -/
def State.qeJudged (s : State) (e : Nat) (x : QCmd) : QCmd :=
  let q := 512 * e + x.queue
  if x.status ≠ 0 ∨ x.op = 1 then x
  else
    { x with
      status := if s.qState q = qDisabled then 1 else if s.ownerSealed (.queue q) ≠ x.issuer.sealed then 2
        else if viAllows x.issuer.vi (s.viOf (.queue q)) = false then 3 else 0 }

/-- The command of a launch of an engine, judged. -/
def State.qeOfLaunch (s : State) (e : Nat) (l : Launch) : QCmd :=
  s.qeJudged e { qeCommand (l.desc.drop 1) (s.tags l.sealed l.vi) l.csq with launch := some l.id }

/-- A command that names a queue of the other world or another instance is logged (R248). -/
def State.qeLogItem (s : State) (e : Nat) (x : QCmd) : State :=
  if x.status = 2 then s.logRec (qeLog e) Cause.WORLD 0 (regAddr (R.QE_Q_CFG e x.queue)) x.issuer 0
  else if x.status = 3 then s.logRec (qeLog e) Cause.VI 0 (regAddr (R.QE_Q_CFG e x.queue)) x.issuer 0
  else s

/-- The status that a launch of an engine earns when it is accepted. -/
def State.qeLaunchStatus (s : State) (e : Nat) (l : Launch) : Nat :=
  (s.qeOfLaunch e l).status

/-- The launches of an engine that have not started. -/
def State.qePend (s : State) (e : Nat) : List Launch :=
  s.launches.filter (fun l => l.target == 1 + e && !l.started && l.status.isNone && l.judged == 0)

/-- ACTIVE and PENDING of an engine. -/
def State.qeCounts (s : State) (e : Nat) : State :=
  let run := ((s.qeOf e).cmds.filter (fun c => c.started)).length
  let pend := (s.qePend e).length
  (s.put (L.QE_STATUS.ACTIVE e) run).put (L.QE_STATUS.PENDING e) (min pend 16)

/-- An earlier command of the same source is still to start, or (for ORD) to complete. -/
def sourceWaits (cmds : List QCmd) (x : QCmd) : Bool :=
  cmds.any (fun c => c.source == x.source && c.id < x.id && (!c.started || x.ord))

/-- The completion ring of a channel is full (R258). -/
def State.cqFull (s : State) (ch : Nat) : Bool :=
  let e := ch / 16
  let n := ch % 16
  2 ^ s.get (L.QE_CH_CQ.LOG2N e n) ≤ wrapSub 16 (s.get (L.QE_CH_IDX.CQ_TAIL e n)) (s.get (L.QE_CH_IDX.CQ_HEAD e n))

/-- The next command that an engine may start (R246, R256): the oldest pending launch that may start, else a channel's
oldest, round robin; a launch that waits under ORD holds back only later launches of its sequencer, and a channel of an
instance that is not RUNNING starts none (R268). -/
def State.qeNext (s : State) (e : Nat) : Option (QCmd ⊕ Launch) :=
  let eng := s.qeOf e
  if 8 ≤ (eng.cmds.filter (fun c => c.started)).length then none
  else
    let pend := s.qePend e
    let may (l : Launch) : Bool :=
      let ord := (s.qeOfLaunch e l).ord
      !(pend.any (fun k => k.csq == l.csq && decide (k.id < l.id))) &&
        !(ord && (eng.cmds.any (fun c => c.source == l.csq)))
    match pend.find? may with
    | some l => some (.inr l)
    | none =>
      (((List.range 16).map (fun k => (eng.lastCh + 1 + k) % 16)).findSome? (fun k =>
        (eng.cmds.find? (fun c => c.launch.isNone && c.ch == 16 * e + k && !c.started)).bind (fun c =>
          if sourceWaits eng.cmds c ∨ s.cqFull c.ch ∨ s.viRuns (s.viOf (.ch c.ch)) = false then none else some c))).map Sum.inl

/-- A command of an engine replaced. -/
def State.setQCmd (s : State) (e : Nat) (x : QCmd) : State :=
  let eng := s.qeOf e
  s.setQe e { eng with cmds := eng.cmds.map (fun c => if c.id = x.id then x else c) }

/-- Payload written by a command (QE_CNT.KIB, R271). -/
def State.qePayload (s : State) (e : Nat) (c : Issuer) (n : Nat) : State :=
  let eng := s.qeOf e
  let b := eng.bytes + n
  let s := (s.setQe e { eng with bytes := b }).addSat (L.QE_CNT.KIB e) (b / 1024 - eng.bytes / 1024)
  let s := s.pmc uQE e 1 (b / 1024 - eng.bytes / 1024) c.sealed c.vi
  match c.vi with
  | some v => { s with viBytes := SMap.set s.viBytes v (SMap.get s.viBytes v + n) }
  | none => s

/-- A channel command of the instance pauses here (R271): the share is used up, and the place reached is a 4 KiB boundary. -/
def State.qePauses (s : State) (x : QCmd) : Bool :=
  match x.issuer.vi with
  | some v =>
    let bw := s.get (L.VI_SHARE.BW (v / 32) (v % 32))
    x.launch.isNone && decide (s.ticking) && bw != 0 && decide (bw * 1024 ≤ SMap.get s.viBytes v) && x.pos % 4096 == 0
  | none => false

/-- Two byte ranges meet. -/
def overlap (a n b m : Nat) : Bool := decide (a < b + m ∧ b < a + n)

/-- The place in the remote window that a device address of a command translates to (R308): only a Sealed access
leaves HBM (R318). -/
def State.windowAddr (s : State) (src : Nat) (c : Issuer) (a : Nat) (write : Bool) : Option Nat :=
  match (s.pageOf src c a).2 with
  | .inr _ => none
  | .inl (f, p) =>
    let pa := f * 0x1000 + a % 0x1000
    if c.sealed ∧ 0x400000000000 ≤ pa ∧ pa < 0x800000000000 ∧ p.testBit 0 ∧ p.testBit 2 ∧ (write = false ∨ (p.testBit 1 ∧ p.testBit 3)) then
      some (pa - 0x400000000000)
    else none

/-- A request of a COPY to the remote window (R308). -/
def remotePacket (x : QCmd) (ptype w n : Nat) (data : Bytes) : FabPkt :=
  { fabPacket x.issuer ptype (if x.rsv then 1 else 3) (w / 2 ^ 32) (w % 2 ^ 32) n data with rsv := x.rsv }

/-- Bytes of a COPY reach its destination: memory, or the remote window, whose last WR asks for a CMP (R308). -/
def State.copyOut (s : State) (e : Nat) (x : QCmd) (data : Bytes) (poisoned : Bool) : State × QCmd :=
  let n := data.length
  let x' := { x with pos := x.pos + n, bytes := x.bytes + n, remote := false, status := if poisoned then 4 else x.status }
  match s.windowAddr (rsvSrc (qeSrc e) x.rsv) x.issuer (x.dst + x.pos) true with
  | some w =>
    let p := remotePacket x ptWR w n data
    let last : Bool := x.pos + n == x.len
    let x' := { x' with far := true, posted := if last then x.posted else x.posted ++ [s.fab.nextTxn] }
    let r := if last then s.fabRequest ⟨{ p with ackReq := true }, .qe e x.id, none, 0⟩ else s.fabPosted p
    match r.2 with
    | some _ => (r.1, { x with fin := true, status := 4, remote := false })
    | none => (r.1.qePayload e x.issuer n, { x' with remote := last })
  | none =>
    let w := s.store (rsvSrc (qeSrc e) x.rsv) x.issuer (x.dst + x.pos) data poisoned
    if w.2 = false then (w.1, { x with fin := true, status := 4, remote := false })
    else (w.1.qePayload e x.issuer n, x')

/-- COPY moves its next bytes, up to 64 at a time in memory and up to 256 in a packet of the remote window (R251, R308). -/
def State.copyRun (s : State) (e : Nat) (x : QCmd) : Nat → State × QCmd
  | 0 => (s, x)
  | k + 1 =>
    let win := s.windowAddr (rsvSrc (qeSrc e) x.rsv) x.issuer (x.src + x.pos) false
    let far : Bool := win.isSome || (s.windowAddr (rsvSrc (qeSrc e) x.rsv) x.issuer (x.dst + x.pos) true).isSome
    let room := min (0x1000 - (x.src + x.pos) % 0x1000) (0x1000 - (x.dst + x.pos) % 0x1000)
    let n := min (min (if far then min 256 room else 64) (x.len - x.pos)) (0x1000 - x.pos % 0x1000)
    if x.remote then (s, x)
    else if n = 0 then (s, { x with fin := true })
    else if s.qePauses x then (s, x)
    else match win with
      | some w =>
        let r := s.fabRequest ⟨remotePacket x ptRD w n [], .qe e x.id, none, 0⟩
        (match r.2 with
         | some _ => (r.1, { x with fin := true, status := 4 })
         | none => (r.1, { x with remote := true }))
      | none =>
        let r := s.ioRead (rsvSrc (qeSrc e) x.rsv) x.issuer (x.src + x.pos) n
        if r.2.err then (r.1, { x with fin := true, status := 4 })
        else
          let lap := overlap x.src x.len x.dst x.len
          let f := r.1.freeBytes n
          let w := (if lap then f.1 else r.1).copyOut e x (if lap then f.2 else r.2.data) r.2.poison
          if w.2.fin then w else w.1.copyRun e w.2 k

/-- PUSH (R252): the packet is admitted or refused whole, then read and appended. -/
def State.pushRun (s : State) (e : Nat) (x : QCmd) : State × QCmd :=
  let q := 512 * e + x.queue
  if x.pos = 0 then
    if s.qAdmits q (packetEntries x.len) = false then (s.qRefuse q, { x with fin := true, dropped := true })
    else
      let r := s.ioRead (rsvSrc (qeSrc e) x.rsv) x.issuer x.src x.len
      if r.2.err ∨ r.2.poison then (r.1, { x with fin := true, status := 4 })
      else
        let s := (r.1.qArrive q (0x1000 + x.id) x.len r.2.data).1
        (s, { x with pos := x.len, bytes := x.len, fin := !(s.spillQ q).arrivals.any (fun a => a.src == 0x1000 + x.id) })
  else (s, { x with fin := !(s.spillQ q).arrivals.any (fun a => a.src == 0x1000 + x.id) })

/-- The EOP mark of the entry at position `i` of a queue, for POP to find the end of a packet. -/
def State.peekEop (s : State) (q i : Nat) : Option Bool :=
  let x := s.spillQ q
  if i < x.head.length then (x.head[i]?).map (fun t => t.eop)
  else if s.qState q = qError then none
  else if i < x.head.length + x.mid then
    let k := (x.midAt + (i - x.head.length)) % s.spillCap q
    let r := s.ioRead (qeSrc (q / 512)) (s.spillIssuer q) (s.sidebandBase q + k) 1
    if r.2.err then none else some (((r.2.data.head?).getD 0).testBit 7)
  else match x.tail[i - x.head.length - x.mid]? with
    | some t => some t.eop
    | none =>
      -- entries that came but found no room in the tail
      let j := i - x.head.length - x.mid - x.tail.length
      match (x.arrivals.filter (fun a => !a.refused)).head? with
      | some a =>
        let here := if a.drop then 0 else if a.got = a.total then packetEntries a.buf.length else a.buf.length / 64
        if j < here then some (decide (a.got = a.total ∧ j + 1 = here)) else none
      | none => none

/-- Entries of the packet at the head: their number, and whether its EOP is present. -/
def State.headPacket (s : State) (q : Nat) : Nat → Nat → Nat × Bool
  | 0, i => (i, false)
  | k + 1, i =>
    match s.peekEop q i with
    | none => (i, false)
    | some true => (i + 1, true)
    | some false => s.headPacket q k (i + 1)

/-- The head entry is taken, the head being refilled as R261 says. -/
def State.takeEntry (s : State) (q : Nat) : State × Option QEntry :=
  let s := if (s.spillQ q).head.isEmpty ∧ 0 < (s.spillQ q).mid ∧ s.qState q ≠ qError then
      (s.setSpillQ q { s.spillQ q with reading := min 8 (s.spillQ q).mid }).middleReturn q
    else s
  match (s.spillQ q).head with
  | [] => (s, none)
  | t :: rest => ((s.setSpillQ q { s.spillQ q with head := rest }).qRun q, some t)

/-- `n` entries are taken, oldest first. -/
def State.takeEntries (s : State) (q : Nat) : Nat → State × List QEntry
  | 0 => (s, [])
  | n + 1 =>
    let r := s.takeEntry q
    match r.2 with
    | none => (r.1, [])
    | some t =>
      let r' := r.1.takeEntries q n
      (r'.1, t :: r'.2)

/-- Entries of a queue that a POP or DROP can reach at most. -/
def State.qReach (s : State) (q : Nat) : Nat := s.qOcc q + 1

/-- The next piece of a POP is taken from the queue (R253): its header line and its entries wait to be written; none where
the POP ends. -/
def State.popPiece (s : State) (e : Nat) (x : QCmd) : State × QCmd :=
  let q := 512 * e + x.queue
  let p := s.headPacket q (s.qReach q) 0
  let room := x.len - x.pos
  let fits : Bool := decide (64 + 64 * p.1 ≤ room)
  if (x.npkt ≠ 0 ∧ x.npkt ≤ x.pkts) ∨ p.1 = 0 ∨ (fits = false ∧ 0 < x.pkts) then (s, { x with fin := true })
  else
    let r := s.takeEntries q (if fits then p.1 else room / 64 - 1)
    let ents := r.2
    if ents = [] then (r.1, { x with fin := true })
    else
      let bytes := (ents.map (fun t => t.bytes)).sum
      let sop := ((ents.head?).map (fun t => t.sop)).getD false
      let eop := ((ents.getLast?).map (fun t => t.eop)).getD false
      let part : Bool := fits && !p.2 && r.1.qState q != qError
      let hdr := bytes + (if sop then 1 <<< 32 else 0) + (if eop then 1 <<< 33 else 0) + (if part then 1 <<< 34 else 0)
      (r.1, { x with
        rest := ⟨bytesLE 8 hdr ++ List.replicate 56 0, 0, false, false⟩ :: ents, load := bytes
        last := if part then some true else if fits then none else some false })

/-- The lines of a piece up to the next 4 KiB boundary of the place at DST are written; with its last line the piece counts. -/
def State.popLines (s : State) (e : Nat) (x : QCmd) : State × QCmd :=
  let now := x.rest.take ((0x1000 - x.pos % 0x1000) / 64)
  let w := s.store (rsvSrc (qeSrc e) x.rsv) x.issuer (x.dst + x.pos) (now.flatMap (fun t => t.data)) false
  if w.2 = false then (w.1, { x with rest := [], fin := true, status := 4 })
  else
    let s := w.1.qePayload e x.issuer (now.map (fun t => t.bytes)).sum
    let x := { x with rest := x.rest.drop now.length, pos := x.pos + 64 * now.length }
    if x.rest ≠ [] then (s, x)
    else
      (s, { x with
        bytes := x.bytes + x.load, pkts := x.pkts + 1, partly := x.last == some true, split := x.last == some false
        fin := x.last.isSome })

/-- POP moves pieces (R253), pausing at a 4 KiB boundary where its share is used up (R271). -/
def State.popRun (s : State) (e : Nat) (x : QCmd) : Nat → State × QCmd
  | 0 => (s, { x with fin := true })
  | k + 1 =>
    if s.qePauses x then (s, x)
    else
      let r := if x.rest = [] then s.popPiece e x else s.popLines e x
      if r.2.fin then r else r.1.popRun e r.2 k

/-- DROP (R254). -/
def State.dropRun (s : State) (e : Nat) (x : QCmd) : State × QCmd :=
  let q := 512 * e + x.queue
  let p := s.headPacket q (s.qReach q) 0
  let s := (s.takeEntries q p.1).1
  let s :=
    if 0 < p.1 ∧ p.2 = false ∧ s.qState q ≠ qError then
      let y := s.spillQ q
      match (y.arrivals.filter (fun a => !a.refused)).head? with
      | some a =>
        ((s.setSpillQ q { y with arrivals := y.arrivals.map (fun b => if b = a then { b with drop := true } else b) }).put
          (L.QE_Q_STAT.DISCARD e x.queue) 1).qRun q
      | none => s
    else s
  (s, { x with fin := true })

/-- A queue shows no entry to the commands on it (Table 11.3): it holds none, or it is in ERROR and its head holds none
(Table 11.6). -/
def State.qEmpty (s : State) (q : Nat) : Bool :=
  if s.qState q = qError then (s.spillQ q).head.isEmpty else (s.spillQ q).held == 0

/-- A running command goes on as far as it can, unless one that started earlier on its queue still runs (R256). -/
def State.qeAdvance (s : State) (e id : Nat) : State :=
  match (s.qeOf e).cmds.find? (fun c => c.id == id && c.started) with
  | none => s
  | some x =>
    let first : Bool := (s.qeOf e).cmds.any (fun c => c.started && !c.fin && decide (c.seq < x.seq) && c.op != 1 && x.op != 1 &&
      c.queue == x.queue)
    if x.fin ∨ first then s
    else
      let r :=
        if x.op = 1 then s.copyRun e x (x.len / 64 + x.len / 4096 + 3)
        else if x.op = 2 then s.pushRun e x
        else if x.op = 3 then s.popRun e x (4 * s.qReach (512 * e + x.queue) + x.rest.length + 4)
        else s.dropRun e x
      r.1.setQCmd e { r.2 with empty := x.op ≠ 1 && r.1.qEmpty (512 * e + x.queue) }

/-- An engine starts a command (R246, R256): it is judged with its queue as that stands now, and one that fails ends there. -/
def State.qeBegin (s : State) (e : Nat) (n : QCmd ⊕ Launch) : State :=
  let eng := s.qeOf e
  let x := match n with
    | .inl x => s.qeJudged e x
    | .inr l => { s.qeOfLaunch e l with id := eng.next }
  let x := { x with started := true, seq := eng.starts, fin := x.status ≠ 0 }
  let s := match n with
    | .inl _ => (s.setQe e { eng with starts := eng.starts + 1, lastCh := x.ch % 16 }).setQCmd e x
    | .inr l => (s.setQe e { eng with starts := eng.starts + 1, next := eng.next + 1, cmds := eng.cmds ++ [x] }).updateLaunch
        l.id (fun l => { l with started := true })
  ((s.qeLogItem e x).qeAdvance e x.id).qeCounts e

/-- An engine starts its next command, if that is of operation `op`. -/
def State.qeStart (s : State) (e op : Nat) : State :=
  match s.qeNext e with
  | none => s
  | some n =>
    let was := match n with
      | .inl x => x.op
      | .inr l => (s.qeOfLaunch e l).op
    if was = op then s.qeBegin e n else s

/-- A channel command that no operation can be made of (R250) starts, and so ends, in its turn. -/
def State.qeStartBad (s : State) (e id : Nat) : State :=
  match s.qeNext e with
  | some (.inl x) => if x.id = id ∧ (s.qeJudged e x).status ≠ 0 then s.qeBegin e (.inl x) else s
  | _ => s

/-- QE_COPY (R251). -/
def execQeCopy (e : Fin 8) (s : State) : Result :=
  s.devCmd (fun s => .next (s.qeStart e 1))
/-- QE_PUSH (R252). -/
def execQePush (e : Fin 8) (s : State) : Result :=
  s.devCmd (fun s => .next (s.qeStart e 2))
/-- QE_POP (R253). -/
def execQePop (e : Fin 8) (s : State) : Result :=
  s.devCmd (fun s => .next (s.qeStart e 3))
/-- QE_DROP (R254). -/
def execQeDrop (e : Fin 8) (s : State) : Result :=
  s.devCmd (fun s => .next (s.qeStart e 4))

/-- The result record (Table 11.3). -/
def QCmd.record (x : QCmd) : Nat :=
  (x.status <<< 56) + (if x.split then 1 <<< 51 else 0) + (if x.dropped then 1 <<< 50 else 0) +
    (if x.partly then 1 <<< 49 else 0) + (if x.empty then 1 <<< 48 else 0) + ((min x.pkts 0xFFFF) <<< 32) + x.bytes % 2 ^ 32

/-- The completion entry of a channel command (R258, Table 11.5), and its MSI. -/
def State.channelDone (s : State) (e : Nat) (x : QCmd) : State :=
  let n := x.ch % 16
  let tail := s.get (L.QE_CH_IDX.CQ_TAIL e n)
  let k := s.get (L.QE_CH_CQ.LOG2N e n)
  let phase := if (tail / 2 ^ k) % 2 = 0 then 1 else 0
  let w0 := x.tag + (x.status <<< 16) + ((if x.issuer.vi.isSome then x.issuer.gen else 0) <<< 24) + (phase <<< 32)
  let w := s.store (qeSrc e) x.issuer (0x1000 * s.get (L.QE_CH_CQ.BASE e n) + 16 * (tail % 2 ^ k))
    (bytesLE 8 w0 ++ bytesLE 8 x.record) false
  let s := w.1.put (L.QE_CH_IDX.CQ_TAIL e n) (tail + 1)
  if x.cint ∧ s.get (L.QE_CH_MSI.EN e n) = 1 then
    s.sendMsi (qeSrc e) x.issuer (4 * s.get (L.QE_CH_MSI.ADDR e n)) (s.get (L.QE_CH_MSI.DATA e n))
  else s

/-- A command ends (R255, R279, R281): pages written through the fabric are marked, the result record is written at RES, and
the command counts; the answer is its status. -/
def State.qeEnded (s : State) (e : Nat) (x : QCmd) : State × QCmd :=
  let s := s.when (x.far = true) (fun s => s.markDirty x.issuer x.dst x.pos)
  let r := if x.res ≠ 0 ∧ x.status ≠ 1 then s.store (rsvSrc (qeSrc e) x.rsv) x.issuer x.res (bytesLE 8 x.record) false else (s, true)
  let x := if r.2 then x else { x with status := if x.status = 0 then 4 else x.status }
  let s := (r.1.inc (L.QE_CNT.CMDS e)).pmc uQE e 2 1 x.issuer.sealed x.issuer.vi
  (s.when (x.status ≠ 0) (fun s => s.qeEvent e (L.QE_EVT.CMD_ERR e)), x)

/-- A launch that its engine turns away at acceptance (R106, R248, R250) ends as a command does. -/
def State.qeReject (s : State) (e : Nat) (l : Launch) : State :=
  let x := { s.qeOfLaunch e l with status := l.judged }
  let r := (s.qeLogItem e x).qeEnded e x
  r.1.endLaunch l.id r.2.status

/-- QE_COMMAND_COMPLETE (R255, R258, R274): a command whose work is done ends. -/
def execQeCommandComplete (e : Fin 8) (id : Nat) (s : State) : Result :=
  s.devCmd (fun s =>
    let s := (s.qeStartBad e id).qeAdvance e id
    match (s.qeOf e).cmds.find? (fun c => c.id == id && c.started && c.fin) with
    | none => .next s
    | some x =>
      if x.launch.isNone ∧ s.cqFull x.ch then .next (s.qeEvent e (L.QE_EVT.CQ_FULL e))
      else
        let r := s.qeEnded e x
        let x := r.2
        let s := r.1
        let s := s.setQe e { s.qeOf e with cmds := (s.qeOf e).cmds.filter (fun c => c.id != id) }
        let s := match x.launch with
          | some l => s.updateLaunch l (fun l => { l with status := some x.status })
          | none => if s.stale x.issuer then s.lateDiscard (x.issuer.vi.getD 0) else s.channelDone e x
        .next (s.qeCounts e))

/-! ### Channels (R257, R281, R282) -/

/-- An index lies beyond what R257 allows of it. -/
def State.sqTailBad (s : State) (ch i : Nat) : Bool :=
  decide (2 ^ s.get (L.QE_CH_SQ.LOG2N (ch / 16) (ch % 16)) < wrapSub 16 i (s.get (L.QE_CH_IDX.SQ_HEAD (ch / 16) (ch % 16))))
def State.cqHeadBad (s : State) (ch i : Nat) : Bool :=
  let h := s.get (L.QE_CH_IDX.CQ_HEAD (ch / 16) (ch % 16))
  decide (wrapSub 16 (s.get (L.QE_CH_IDX.CQ_TAIL (ch / 16) (ch % 16))) h < wrapSub 16 i h)

/-- A new SQ_TAIL. -/
def State.setSqTail (s : State) (ch i key : Nat) (c : Issuer) : State :=
  if s.sqTailBad ch i then s.forbidden (qeLog (ch / 16)) key c else s.put (L.QE_CH_IDX.SQ_TAIL (ch / 16) (ch % 16)) i
/-- A new CQ_HEAD. -/
def State.setCqHead (s : State) (ch i key : Nat) (c : Issuer) : State :=
  if s.cqHeadBad ch i then s.forbidden (qeLog (ch / 16)) key c else s.put (L.QE_CH_IDX.CQ_HEAD (ch / 16) (ch % 16)) i

/-- A write of QE_CH_DB. -/
def State.writeChDb (s : State) (ch : Nat) (c : Issuer) (v : Nat) : State :=
  let key := R.QE_CH_DB (ch / 16) (ch % 16)
  let s := if v.testBit 32 then s.setSqTail ch (bits v 15 0) key c else s
  if v.testBit 33 then s.setCqHead ch (bits v 31 16) key c else s

/-- Access to the tenant page of an instance (R282): its world, and none while it is FREE. -/
def State.tenantGuard (s : State) (v : Nat) (c : Issuer) (key : Nat) (f : State → State) : State :=
  if s.viState v = viFree ∨ c.sealed ≠ s.viSealed v then s.worldError (qeLog (v / 32)) (regAddr key) c
  else f (s.answer .ok)

/-- A write of VI_T_SQDB (`sq`) or VI_T_CQDB. -/
def State.writeTenantDb (s : State) (v : Nat) (sq : Bool) (c : Issuer) (x : Nat) : State :=
  let ch := bits x 6 0
  let key := if sq then R.VI_T_SQDB v else R.VI_T_CQDB v
  if s.viOf (.ch ch) ≠ some v then s.otherViolation (qeLog (v / 32)) key c
  else if s.isReleasing (.ch ch) ∨ s.isReleasing (.qe (ch / 16)) then s.worldError (qeLog (v / 32)) (regAddr key) c
  else if sq then s.setSqTail ch (bits x 31 16) key c else s.setCqHead ch (bits x 31 16) key c

/-- A doorbell of either kind. -/
def State.doorbell (s : State) (c : Issuer) (d : Doorbell) (sq : Bool) (v : Nat) : State :=
  match d with
  | .manager ch =>
    if s.isReleasing (.ch ch) then s.worldError (qeLog (ch.val / 16)) (regAddr (R.QE_CH_DB (ch.val / 16) (ch.val % 16))) c
    else s.qeGuard (ch.val / 16) c (R.QE_CH_DB (ch.val / 16) (ch.val % 16)) (fun s => s.writeChDb ch c v)
  | .tenant t => s.tenantGuard t c (if sq then R.VI_T_SQDB t else R.VI_T_CQDB t) (fun s => s.writeTenantDb t sq c v)

/-- SQ_DOORBELL (R257). -/
def execSqDoorbell (c : Issuer) (d : Doorbell) (v : Word) (s : State) : Result :=
  .next (s.issue c (fun c s => s.doorbell c d true v.toNat))
/-- CQ_DOORBELL (R257). -/
def execCqDoorbell (c : Issuer) (d : Doorbell) (v : Word) (s : State) : Result :=
  .next (s.issue c (fun c s => s.doorbell c d false v.toNat))

/-- A channel may fetch (R257). -/
def State.chFetches (s : State) (ch : Nat) : Bool :=
  let e := ch / 16
  let n := ch % 16
  decide (s.get (L.QE_CH_CFG.EN e n) = 1) && s.viRuns (s.viOf (.ch ch)) && !s.isReleasing (.qe e) && !s.isReleasing (.ch ch) &&
    decide (s.get (L.QE_CH_IDX.SQ_HEAD e n) ≠ s.get (L.QE_CH_IDX.SQ_TAIL e n))

/-- SQ_FETCH (R257, Table 11.4). -/
def execSqFetch (ch : Fin 128) (s : State) : Result :=
  s.devCmd (fun s =>
    let e := ch.val / 16
    let n := ch.val % 16
    if s.chFetches ch then
      let head := s.get (L.QE_CH_IDX.SQ_HEAD e n)
      let c := s.tags (s.ownerSealed (.qe e)) (s.viOf (.ch ch))
      let a := 0x1000 * s.get (L.QE_CH_SQ.BASE e n) + 64 * (head % 2 ^ s.get (L.QE_CH_SQ.LOG2N e n))
      let r := s.ioRead (qeSrc e) c a 64
      let s := r.1.put (L.QE_CH_IDX.SQ_HEAD e n) (head + 1)
      let w := (List.range 8).map (fun i => ofBytesLE ((r.2.data.drop (8 * i)).take 8))
      let w0 := (w.head?).getD 0
      let x := qeCommand (w.drop 1) c (64 + ch)
      let st := if r.2.err ∨ r.2.poison then 4 else if bits w0 63 17 ≠ 0 then 1 else x.status
      let eng := s.qeOf e
      let x := { x with id := eng.next, ch := ch, tag := w0 % 2 ^ 16, cint := w0.testBit 16, status := st }
      .next ((s.setQe e { eng with next := eng.next + 1, cmds := eng.cmds ++ [x] }).qeCounts e)
    else .next s)

/-- A channel is disabled with its indices at 0, and its commands that have not started are dropped (R267, R328). -/
def State.chOff (s : State) (ch : Nat) : State :=
  let e := ch / 16
  let s := (s.put (L.QE_CH_CFG.EN e (ch % 16)) 0).wr (R.QE_CH_IDX e (ch % 16)) 0
  s.setQe e { s.qeOf e with cmds := (s.qeOf e).cmds.filter (fun c => c.started || c.launch.isSome || c.ch != ch) }

/-- A write of a QE_ register with a rule of its own; `n` is the channel or queue in the engine. -/
def State.writeQe (s : State) (r : Reg) (e n : Nat) (c : Issuer) (v : Nat) : Option State :=
  let chOn : Bool := s.get (L.QE_CH_CFG.EN e n) = 1
  let qOn : Bool := s.get (L.QE_Q_CFG.EN e n) = 1
  let size (x : Nat) : Nat := min 12 (max 3 x)
  match r with
  | .QE_CH_CFG => some (s.put (L.QE_CH_CFG.EN e n) (bits v 63 63))
  | .QE_CH_SQ => some (if chOn then s.forbidden (qeLog e) (R.QE_CH_SQ e n) c
      else (s.put (L.QE_CH_SQ.LOG2N e n) (size (bits v 51 48))).put (L.QE_CH_SQ.BASE e n) (bits v 47 12))
  | .QE_CH_CQ => some (if chOn then s.forbidden (qeLog e) (R.QE_CH_CQ e n) c
      else (s.put (L.QE_CH_CQ.LOG2N e n) (size (bits v 51 48))).put (L.QE_CH_CQ.BASE e n) (bits v 47 12))
  | .QE_CH_MSI => if chOn then some (s.forbidden (qeLog e) (R.QE_CH_MSI e n) c) else none
  | .QE_CH_DB => some (s.writeChDb (16 * e + n) c v)
  | .QE_Q_CFG => some (s.writeQCfg (512 * e + n) c v)
  | .QE_Q_SPILL => some (if qOn then s.forbidden (qeLog e) (R.QE_Q_SPILL e n) c
      else (s.put (L.QE_Q_SPILL.LOG2SZ e n) (min 24 (max 12 (bits v 53 48)))).put (L.QE_Q_SPILL.BASE e n) (bits v 47 12))
  | .QE_Q_SB => if qOn then some (s.forbidden (qeLog e) (R.QE_Q_SB e n) c) else none
  | _ => none

end Sys2Proof.Machine
end

