-- ==== Sys2Proof/Machine/Cipher.lean ====
section
/-! DEFINITION. Bulk cipher and hash engines (14). -/

namespace Sys2Proof.Machine

abbrev ceLog (e : Nat) : Nat := 262 + e
/-- Source identifier of CEe (Table 7.1). -/
abbrev ceSrc (e : Nat) : Nat := 0x18 + e

def State.ceEvent (s : State) (e : Nat) (l : Loc) : State := s.event (ceLog e) l (R.CE_EVT_EN e)
abbrev State.ceOf (s : State) (e : Nat) : CeEng := SMap.get s.ce e
def State.setCe (s : State) (e : Nat) (x : CeEng) : State := { s with ce := SMap.set s.ce e x }
abbrev State.cx (s : State) (n : Nat) : CeCtx := SMap.get s.cectx n
def State.setCx (s : State) (n : Nat) (x : CeCtx) : State := { s with cectx := SMap.set s.cectx n x }

abbrev ctxIdle : Nat := 0
abbrev ctxOpen : Nat := 1
abbrev ctxWait : Nat := 2
abbrev ctxRun : Nat := 3
abbrev ctxSusp : Nat := 4
abbrev ctxError : Nat := 5

/-- The operations of Table 14.3. -/
abbrev opKeyload : Nat := 1
abbrev opUnwrap : Nat := 2
abbrev opClear : Nat := 3
abbrev opProcess : Nat := 4
abbrev opSave : Nat := 5
abbrev opRestore : Nat := 6

/-- The detail codes of Table 14.6. -/
abbrev dField : Nat := 0x01
abbrev dSegOrder : Nat := 0x02
abbrev dNoKey : Nat := 0x03
abbrev dKeyKind : Nat := 0x04
abbrev dSlot : Nat := 0x05
abbrev dKeybus : Nat := 0x06
abbrev dKek : Nat := 0x07
abbrev dUnwrapFail : Nat := 0x08
abbrev dBadAttr : Nat := 0x09
abbrev dRecord : Nat := 0x0A
abbrev dErrorState : Nat := 0x0B
abbrev dLimit : Nat := 0x0C
abbrev dInstance : Nat := 0x0D

/-- The power domain of an engine is on (Table 16.6). -/
abbrev State.ceOn (s : State) (e : Nat) : Prop := s.get (L.PWR_DOM.STATE (29 + e)) = 1
abbrev State.ceOff (s : State) (e : Nat) : Prop := s.get (L.PWR_DOM.STATE (29 + e)) = 0

/-! ### Fields of a command (Table 14.2, R360) -/

abbrev CeCmd.w (x : CeCmd) (i : Nat) : Nat := (x.words[i - 1]?).getD 0
abbrev CeCmd.op (x : CeCmd) : Nat := bits (x.w 1) 3 0
abbrev CeCmd.alg (x : CeCmd) : Nat := bits (x.w 1) 11 8
abbrev CeCmd.dir (x : CeCmd) : Nat := bits (x.w 1) 12 12
abbrev CeCmd.first (x : CeCmd) : Bool := (x.w 1).testBit 13
abbrev CeCmd.last (x : CeCmd) : Bool := (x.w 1).testBit 14
abbrev CeCmd.slot (x : CeCmd) : Nat := bits (x.w 1) 31 24
abbrev CeCmd.len (x : CeCmd) : Nat := bits (x.w 1) 63 32
abbrev CeCmd.src (x : CeCmd) : Nat := bits (x.w 2) 47 0
abbrev CeCmd.dst (x : CeCmd) : Nat := bits (x.w 3) 47 0
abbrev CeCmd.aad (x : CeCmd) : Nat := bits (x.w 4) 47 0
abbrev CeCmd.iv (x : CeCmd) : Nat := bits (x.w 5) 47 0
abbrev CeCmd.tag (x : CeCmd) : Nat := bits (x.w 6) 47 0
abbrev CeCmd.alen (x : CeCmd) : Nat := bits (x.w 7) 31 0
abbrev CeCmd.du (x : CeCmd) : Nat := bits (x.w 7) 43 32
abbrev CeCmd.eng (x : CeCmd) : Nat := x.ctx / 16
/-- The source of the command's accesses, with its class (RSV). -/
abbrev CeCmd.source (x : CeCmd) : Nat := rsvSrc (ceSrc x.eng) ((x.w 1).testBit 15)

/-- The block of an algorithm (Table 14.4). -/
def algBlock (a : Nat) : Nat :=
  if a ≤ 3 then 16 else if a = 4 ∨ a = 7 then 64 else 128

/-- The full tag or digest of an algorithm, and the least TAGLEN it takes (Table 14.4). -/
def algTag (a : Nat) : Nat × Nat :=
  match a with
  | 1 => (16, 12) | 3 => (16, 8) | 4 => (32, 32) | 5 => (48, 48) | 6 => (64, 64) | 7 => (32, 16) | 8 => (48, 16)
  | 9 => (64, 16) | _ => (0, 0)

/-- The hash function of a hash or HMAC. -/
def algHash (a : Nat) : HashAlg :=
  if a = 4 ∨ a = 7 then hash256 else if a = 5 ∨ a = 8 then hash384 else hash512

/-- Bytes of the tag that the command writes or compares. -/
def CeCmd.tagLen (x : CeCmd) : Nat :=
  let n := bits (x.w 1) 20 16
  if n = 0 then (algTag x.alg).1 else n

/-- The words with the bits that the operation and the algorithm use (R360, Table 14.3); the rest must be 0. -/
def CeCmd.unusedSet (x : CeCmd) : Bool :=
  let a := x.alg
  let p : Bool := x.op == opProcess
  let gcm : Bool := p && a == 1
  let xts : Bool := p && a == 2
  let srcUsed : Bool := p || x.op == opUnwrap || x.op == opRestore
  let dstUsed : Bool := gcm || xts || x.op == opSave
  let tagUsed : Bool := p && a != 2
  let bad (used : Bool) (v : Nat) : Bool := !used && v != 0
  let w1 := x.w 1
  bad srcUsed x.len || bad (x.op == opKeyload) x.slot || bits w1 23 21 != 0 ||
    bad (p && (a == 1 || a == 3 || 7 ≤ a)) (bits w1 20 16) || bad p (bits w1 14 13) ||
    bad ((p && (a ≤ 3 || 7 ≤ a)) || x.op == opSave || x.op == opRestore) x.dir || bad p a ||
    bad srcUsed (x.w 2) || bad dstUsed (x.w 3) || bad gcm (x.w 4) || bad (gcm || xts) (x.w 5) || bad tagUsed (x.w 6) ||
    bits (x.w 2) 63 48 != 0 || bits (x.w 3) 63 48 != 0 || bits (x.w 4) 63 48 != 0 || bits (x.w 5) 63 48 != 0 ||
    bits (x.w 6) 63 48 != 0 || bits (x.w 7) 63 44 != 0 || bad gcm x.alen || bad xts x.du

/-- The command breaks Tables 14.2 to 14.4 by itself; `page` is the context of the page, for a register command. -/
def CeCmd.fieldBad (x : CeCmd) (page : Option Nat) : Bool :=
  let a := x.alg
  let t := bits (x.w 1) 20 16
  decide (x.op = 0 ∨ 6 < x.op) || (x.op == opProcess && decide (a = 0 ∨ 9 < a)) || x.unusedSet ||
    (x.op == opProcess && t != 0 && decide (t < (algTag a).2 ∨ (algTag a).1 < t)) ||
    (match page with | some n => bits (x.w 1) 7 4 != n % 16 | none => false) ||
    (x.op == opUnwrap && !([32, 48, 80].contains x.len)) ||
    (x.op == opRestore && (if x.dir = 0 then x.len != 128 else decide (x.len < 136 ∨ 208 < x.len)))

/-! ### Contexts (R357, R366, R372) -/

/-- KEY_ID of a key in engine `e` (R372). -/
def State.keyIdOf (s : State) (e : Nat) (key : Bytes) : Nat :=
  ofBytesLE ((hash256.hmac (beBytes 32 (Config.keyIdSecret s.boots e)) key).take 4)

/-- STATE, ALG and the activity fields follow the commands of the engine. -/
def State.ceShow (s : State) (e : Nat) : State :=
  let eng := s.ceOf e
  let s := s.forAll ((List.range 16).map (fun k => 16 * e + k)) (fun s n =>
    let mine := eng.cmds.filter (fun c => c.ctx == n)
    let b := (s.cx n).base
    let st :=
      if mine.any (fun c => c.started && !c.susp) then ctxRun
      else if mine.any (fun c => c.susp) then ctxSusp
      else if b = ctxError then ctxError
      else if !mine.isEmpty then ctxWait
      else b
    (s.put (L.CE_CTX_STAT.STATE n) st).put (L.CE_CTX_STAT.ALG n) (s.cx n).alg)
  let run := eng.cmds.find? (fun c => c.started && !c.susp)
  let susp := eng.cmds.find? (fun c => c.susp)
  let num (o : Option CeCmd) : Nat := ((o.map (fun c => c.ctx % 16)).getD 0)
  let s := (s.put (L.CE_STATUS.RUNNING e) (if run.isSome then 1 else 0)).put (L.CE_STATUS.RUN_CTX e) (num run)
  let s := (s.put (L.CE_STATUS.SUSP_VALID e) (if susp.isSome then 1 else 0)).put (L.CE_STATUS.SUSP_CTX e) (num susp)
  s.put (L.CE_STATUS.PENDING e) ((eng.cmds.filter (fun c => c.launch.isSome && !c.started)).length)

/-- A context holds a key (KEYED, KEY_ID, KEY_SRC, EXPORTABLE); an empty key is none. -/
def State.ceSetKey (s : State) (n : Nat) (key : Bytes) (kind usage src : Nat) : State :=
  let k := s.cx n
  let held : Bool := !key.isEmpty
  let s := s.setCx n { k with key := key, kind := if held then kind else 0, usage := if held then usage else 0 }
  let s := (s.put (L.CE_CTX_STAT.KEYED n) (if held then 1 else 0)).put (L.CE_CTX_STAT.KEY_ID n)
    (if held then s.keyIdOf (n / 16) key else 0)
  (s.put (L.CE_CTX_STAT.KEY_SRC n) (if held then src else 0)).put (L.CE_CTX_STAT.EXPORTABLE n)
    (if held && usage.testBit 5 then 1 else 0)

/-- The key of a context is lost. -/
def State.ceNoKey (s : State) (n : Nat) : State := s.ceSetKey n [] 0 0 0

/-- The open message of a context is gone: it has a state without one. -/
def State.ceBase (s : State) (n b : Nat) : State :=
  let k := s.cx n
  s.setCx n (if b = ctxOpen then { k with base := b }
    else { k with base := b, alg := 0, dir := 0, alen := 0, clen := 0, j0 := 0, chain := 0, acc := 0, hash := [], tail := [] })

/-- Key and state erased: IDLE with KEYED 0. -/
def State.ceErase (s : State) (n : Nat) : State := (s.ceNoKey n).ceBase n ctxIdle

/-- READY at 0 and DATA all ones (R366). -/
def State.ceNoResult (s : State) (n : Nat) : State :=
  (s.put (L.CE_RESULT.READY n) 0).put (L.CE_RESULT.DATA n) (2 ^ 63 - 1)

/-! ### Acceptance and order (R358, R359, R367) -/

/-- The status that a launch of an engine earns when it is accepted (R104, R359), with its detail. -/
def State.ceLaunchStatus (s : State) (e : Nat) (l : Launch) : Nat × Nat :=
  let w := l.desc.drop 1
  let n := 16 * e + bits ((w[0]?).getD 0) 7 4
  let x : CeCmd := ⟨0, none, n, false, w, unitIssuer true, false, false, false, false, 0, false, 0, 0, false, 0, s.up⟩
  if x.fieldBad none then (1, dField)
  else if s.ownerSealed (.ce n) ≠ l.sealed ∨ s.isReleasing (.ce n) then (2, 0)
  else if viAllows l.vi (s.viOf (.ce n)) = false then (3, 0)
  else (0, 0)

/-- A command of a context is accepted; its result reads not READY. -/
def State.ceTake (s : State) (e : Nat) (x : CeCmd) : State :=
  let eng := s.ceOf e
  let x := { x with id := eng.next }
  ((s.setCe e { eng with next := eng.next + 1, cmds := eng.cmds ++ [x] }).ceNoResult x.ctx).ceShow e

/-- The tags of a context's accesses (R356). -/
abbrev State.ceIssuer (s : State) (n : Nat) : Issuer := s.tags (s.ownerSealed (.ce n)) (s.viOf (.ce n))

/-- The result of a command (Table 14.5). -/
def CeCmd.result (x : CeCmd) : Nat :=
  (if x.tagBad then 1 <<< 62 else 0) + (if x.wasSusp then 1 <<< 61 else 0) + ((x.status % 256) <<< 48) +
    ((x.detail % 256) <<< 40) + x.bytes % 2 ^ 32

/-- A command ends (R366): counts, events, log, result, MSI, and the launch's completion point. -/
def State.ceFinish (s : State) (e : Nat) (x : CeCmd) : State :=
  let n := x.ctx
  let s := s.setCe e { s.ceOf e with
    cmds := (s.ceOf e).cmds.filter (fun c => c.id != x.id), urgentEnd := if x.urgent then s.up else (s.ceOf e).urgentEnd }
  let s := (s.inc (L.CE_CNT.CMDS e)).inc (L.CE_CTX_CNT.CMDS n)
  let s := s.when (x.status = 0x0A) (fun s => (s.inc (L.CE_CNT.AUTH_FAIL e)).ceEvent e (L.CE_EVT.AUTH_FAIL e))
  let s := s.when (x.status ≠ 0) (fun s =>
    (s.logRec (ceLog e) Cause.COMMAND x.detail (regAddr (R.CE_CMD n)) x.issuer 0).ceEvent e (L.CE_EVT.CMD_ERR e))
  let s := s.when (x.status = 0x0B) (fun s =>
    ((s.logRec (ceLog e) Cause.MISMATCH 0x02 (x.dst + x.bytes) x.issuer 0).inc (L.CE_CNT.MISMATCH e)).ceEvent e
      (L.CE_EVT.MISMATCH e))
  let s := (s.put (L.CE_RESULT.READY n) 1).put (L.CE_RESULT.DATA n) x.result
  let s := match x.launch with
    | some l => s.endLaunch l x.status
    | none => s
  let s := s.when (s.get (L.CE_CTX_MSI.EN n) = 1) (fun s =>
    s.sendMsi (ceSrc e) x.issuer (4 * s.get (L.CE_CTX_MSI.ADDR n)) (s.get (L.CE_CTX_MSI.DATA n)))
  s.ceShow e

/-- A launch turned away at acceptance for its world or instance ends as a command of the engine (R359, R374). -/
def State.ceReject (s : State) (e : Nat) (l : Launch) (cause detail status : Nat) (key : Nat) : State :=
  (((s.logRec (ceLog e) cause detail (regAddr key) (s.tags l.sealed l.vi) 0).ceEvent e (L.CE_EVT.CMD_ERR e)).inc
    (L.CE_CNT.CMDS e)).endLaunch l.id status

/-- A GO that was accepted in this nanosecond comes after the launch (R358): its context was in WAIT, so it is a
violation. -/
def State.ceMeet (s : State) (n : Nat) : State :=
  let e := n / 16
  match (s.ceOf e).cmds.find? (fun x => x.ctx == n && x.launch.isNone && x.at_ == s.up && !x.started) with
  | some x =>
    if (s.cx n).base = ctxError then s
    else (s.setCe e { s.ceOf e with cmds := (s.ceOf e).cmds.filter (fun y => y.id != x.id) }).goEarly (ceLog e) (R.CE_CMD n)
      x.issuer
  | none => s

/-- A launch is accepted by an engine: one that fails its checks ends at once (R104, R359). -/
def State.ceLaunch (s : State) (e : Nat) (l : Launch) : State :=
  let st := s.ceLaunchStatus e l
  let w := l.desc.drop 1
  let n := 16 * e + bits ((w[0]?).getD 0) 7 4
  let urgent : Bool := ((l.desc.head?).getD 0).testBit 8 && s.get (L.CE_CTX_CFG.URG_OK n) = 1
  let x : CeCmd := ⟨0, some l.id, n, urgent, w, s.ceIssuer n, l.vi.isSome, false, false, false, 0, false, st.1, st.2, false, 0, s.up⟩
  if st.1 = 2 ∨ st.1 = 3 then
    s.ceReject e l (if st.1 = 2 then Cause.WORLD else Cause.VI) 0 st.1 (R.CE_CTX_CFG n)
  else if st.1 = 1 then
    if s.ownerSealed (.ce n) ≠ l.sealed ∨ viAllows l.vi (s.viOf (.ce n)) = false then
      s.ceReject e l Cause.COMMAND st.2 1 (R.CE_CMD n)
    else ((s.ceMeet n).ceTake e x).ceFinish e { x with id := (s.ceOf e).next }
  else (s.ceMeet n).ceTake e x

/-- Access to a context page (R373, R374): the engine on, the owner's world, and its instance or none. -/
def State.ceGuard (s : State) (n : Nat) (manager : Bool) (c : Issuer) (key : Nat) (f : State → State) : State :=
  if s.ceOff (n / 16) then (s.logRec (ceLog (n / 16)) Cause.NOT_READY 0 (regAddr key) c 0).answer .error
  else if (if manager then s.managerAccess (.ce n) c else s.resAccess (.ce n) c) then f (s.answer .ok)
  else s.worldError (ceLog (n / 16)) (regAddr key) c

/-- A write of CE_CMD: with GO the words are copied and the command accepted (R358, R359). -/
def State.writeCeCmd (s : State) (n : Nat) (c : Issuer) (v : Nat) : State :=
  if v.testBit 63 = false then s
  else
    let e := n / 16
    let st := s.get (L.CE_CTX_STAT.STATE n)
    if st = ctxWait ∨ st = ctxRun ∨ st = ctxSusp ∨ (s.ceOf e).cmds.any (fun x => x.ctx == n && x.launch.isNone) then
      s.goEarly (ceLog e) (R.CE_CMD n) c
    else
      let w := (List.range 7).map (fun i => (s.rd (R.CE_CMDW n i)).toNat)
      let urgent : Bool := v.testBit 62 && s.get (L.CE_CTX_CFG.URG_OK n) = 1
      let x : CeCmd := ⟨0, none, n, urgent, w, s.ceIssuer n, c.vi.isSome, false, false, false, 0, false, 0, 0, false, 0, s.up⟩
      if x.fieldBad (some n) then
        (s.ceTake e x).ceFinish e { x with id := (s.ceOf e).next, status := 1, detail := dField }
      else s.ceTake e x

/-- CE_GO (R358). -/
def execCeGo (c : Issuer) (ctx : Fin 64) (v : Word) (s : State) : Result :=
  s.devCmd (fun s =>
    .next (s.issue c (fun c s => s.ceGuard ctx false c (R.CE_CMD ctx) (fun s => s.writeCeCmd ctx c v.toNat))))

/-- A write of CE_ACK (R366). -/
def State.writeCeAck (s : State) (n v : Nat) : State := if v.testBit 0 then s.ceNoResult n else s

/-- CE_ACK (R366). -/
def execCeAck (c : Issuer) (ctx : Fin 64) (v : Word) (s : State) : Result :=
  .next (s.issue c (fun c s => s.ceGuard ctx false c (R.CE_ACK ctx) (fun s => s.writeCeAck ctx v.toNat)))

/-- A command may start: the first of its context, whose context has none that runs or is suspended (R367). -/
def ceMay (cmds : List CeCmd) (x : CeCmd) : Bool :=
  !x.started && !(cmds.any (fun c => c.ctx == x.ctx && (c.started || decide (c.id < x.id))))

/-- The urgent command that may start next. -/
def ceUrgent (cmds : List CeCmd) : Option CeCmd := cmds.find? (fun x => x.urgent && ceMay cmds x)

/-- The command that the engine starts next, if it is free (R367): a suspended one resumes first. -/
def State.ceNext (s : State) (e : Nat) : Option CeCmd :=
  let cmds := (s.ceOf e).cmds
  if s.ceOn e ∧ cmds.any (fun c => c.started && !c.susp) = false then
    match ceUrgent cmds with
    | some x => some x
    | none => if cmds.any (fun c => c.susp) then none else cmds.find? (ceMay cmds)
  else none

/-- A command of an engine replaced. -/
def State.setCeCmd (s : State) (e : Nat) (x : CeCmd) : State :=
  s.setCe e { s.ceOf e with cmds := (s.ceOf e).cmds.map (fun c => if c.id = x.id then x else c) }

/-- The next command starts if it is of this operation; what it does at once answers it anew. -/
def State.ceStart (s : State) (e op : Nat) (f : State → CeCmd → State × CeCmd) : State :=
  match s.ceNext e with
  | none => s
  | some x =>
    if x.op = op then
      let x := { x with started := true }
      let r :=
        if (s.cx x.ctx).base = ctxError ∧ op ≠ opClear then (s, { x with fin := true, status := 1, detail := dErrorState })
        else f s x
      (r.1.setCeCmd e r.2).ceShow e
    else s

/-- A command that fails. -/
abbrev CeCmd.fails (x : CeCmd) (status detail : Nat) : CeCmd := { x with fin := true, status := status, detail := detail }

/-- The datapaths disagree (R369): the context loses its key and enters ERROR. -/
def State.ceMismatch (s : State) (x : CeCmd) : State × CeCmd :=
  ((s.ceNoKey x.ctx).ceBase x.ctx ctxError, x.fails 0x0B 0)

/-! ### Keys (R361, R362) -/

/-- The KIND and USAGE of a slot. -/
abbrev State.slotKind (s : State) (i : Nat) : Nat := s.get (L.KS_SLOT.KIND i)
abbrev State.slotUsage (s : State) (i : Nat) : Nat := s.get (L.KS_SLOT.USAGE i)

/-- KEYLOAD (R361). -/
def State.ceKeyload (s : State) (busOk : Bool) (x : CeCmd) : State × CeCmd :=
  let n := x.ctx
  let i := x.slot
  if (s.cx n).base ≠ ctxIdle then (s.ceNoKey n, x.fails 1 dSegOrder)
  else if x.fromVi then (s.ceNoKey n, x.fails 1 dInstance)
  else if s.slotKind i = 0 ∨ i = 1 ∨ i = 2 ∨ (s.slotUsage i / 2) % 4 = 0 then (s.ceNoKey n, x.fails 1 dSlot)
  else if s.ownerSealed (.ks i) ≠ x.issuer.sealed then
    ((s.ceNoKey n).logRec (ceLog x.eng) Cause.WORLD 0 (regAddr (R.KS_SLOT i)) x.issuer 0, x.fails 2 0)
  else if busOk = false then ((s.ceNoKey n).ceEvent x.eng (L.CE_EVT.KEYBUS x.eng), x.fails 1 dKeybus)
  else (s.ceSetKey n (SMap.get s.slotKey i) (s.slotKind i) (s.slotUsage i) 1, { x with fin := true })

/-- CE_KEYLOAD (R361). -/
def execCeKeyload (e : Fin 4) (busOk : Bool) (s : State) : Result := .next (s.ceStart e opKeyload (fun s x => s.ceKeyload busOk x))

/-- Bytes of a key of a KIND (Table 13.6). -/
def kindBytes (k : Nat) : Nat := match k with | 1 => 16 | 2 => 32 | 3 => 64 | 4 => 32 | _ => 0

/-- The KEK of a context (R362): none if KEK_SLOT is not valid, not owned or not a WRAP key. -/
def State.ceKek (s : State) (n : Nat) : Option Bytes :=
  let i := s.get (L.CE_CTX_CFG.KEK_SLOT n)
  if s.get (L.CE_CTX_CFG.KEK_VALID n) = 1 ∧ s.ownerSealed (.ks i) = s.ownerSealed (.ce n) ∧ s.slotKind i = 2 ∧
      (s.slotUsage i).testBit 3 then some (SMap.get s.slotKey i) else none

/-- The attribute word and key of a plaintext of IMPORT's form, if its attributes are valid for a tenant's key (R362). -/
def attrOk (plain : Bytes) : Option (Nat × Nat × Bytes) :=
  let w := ofBytesLE (plain.take 8)
  let kind := bits w 3 0
  let usage := bits w 13 8
  let key := plain.drop 8
  if w = kind + (usage <<< 8) ∧ 1 ≤ kind ∧ kind ≤ 4 ∧ usage &&& 0x26 = usage ∧ key.length = kindBytes kind then
    some (kind, usage, key)
  else none

/-- UNWRAP (R362). -/
def State.ceUnwrap (s : State) (agree : Bool) (x : CeCmd) : State × CeCmd :=
  let n := x.ctx
  if (s.cx n).base ≠ ctxIdle then (s, x.fails 1 dSegOrder)
  else match s.ceKek n with
    | none => (s, x.fails 1 dKek)
    | some kek =>
      let r := s.ioRead x.source x.issuer x.src x.len
      if r.2.err ∨ r.2.poison then (r.1, x.fails 4 0)
      else if agree = false then r.1.ceMismatch x
      else match kwpUnwrap kek r.2.data with
        | none => (r.1.ceNoKey n, x.fails 1 dUnwrapFail)
        | some p =>
          match attrOk p with
          | none => (r.1.ceNoKey n, x.fails 1 dBadAttr)
          | some (kind, usage, key) => (r.1.ceSetKey n key kind usage 2, { x with fin := true })

/-- CE_UNWRAP (R362). -/
def execCeUnwrap (e : Fin 4) (agree : Bool) (s : State) : Result :=
  s.devCmd (fun s => .next (s.ceStart e opUnwrap (fun s x => s.ceUnwrap agree x)))

/-- CE_CLEAR (Table 14.3): key, state and result erased. -/
def execCeClear (e : Fin 4) (s : State) : Result :=
  .next (s.ceStart e opClear (fun s x => ((s.ceErase x.ctx).ceNoResult x.ctx, { x with fin := true })))

/-! ### Messages (R363 to R365) -/

/-- The key of a context fits an algorithm (Table 14.4). -/
def CeCtx.keyFits (k : CeCtx) (a : Nat) : Bool :=
  if a = 1 then (k.kind == 1 || k.kind == 2) && k.usage.testBit 1
  else if a = 2 then k.kind == 3 && k.usage.testBit 1
  else if a = 3 then (k.kind == 1 || k.kind == 2) && k.usage.testBit 2
  else if 7 ≤ a then k.kind == 4 && k.usage.testBit 2
  else true

/-- The detail that a PROCESS earns in the state of its context; 0 if it may run (R363, R364). -/
def CeCtx.processBad (k : CeCtx) (x : CeCmd) : Nat :=
  let a := x.alg
  let needs : Bool := a ≤ 3 || 7 ≤ a
  let order : Bool := if x.first then k.base != ctxIdle else k.base != ctxOpen || k.alg != a || k.dir != x.dir
  let seg : Bool := !x.last && decide (x.len = 0 ∨ x.len % algBlock a ≠ 0)
  let xts : Bool := a == 2 && (!x.first || !x.last || (x.du != 0 && x.len % (16 * x.du) != 0))
  let limit : Bool := (a == 1 && decide (2 ^ 36 - 32 < (if x.first then 0 else k.clen) + x.len)) || (a == 2 && x.du == 0)
  if order || seg || xts then dSegOrder
  else if needs && k.key.isEmpty then dNoKey
  else if k.keyFits a = false then dKeyKind
  else if limit then dLimit
  else 0

/-- The start of a message (R364): IV, AAD and the initial values. -/
def State.ceBegin (s : State) (x : CeCmd) : State × CeCmd :=
  let n := x.ctx
  let a := x.alg
  let k := { s.cx n with
    alg := a, dir := x.dir, alen := 0, clen := 0, j0 := 0, chain := 0, acc := 0, hash := [], tail := [] }
  if a = 1 then
    let iv := s.ioRead x.source x.issuer x.iv 12
    let ad := iv.1.ioRead x.source x.issuer x.aad x.alen
    if iv.2.err ∨ iv.2.poison then (iv.1, x.fails 4 0)
    else if x.alen ≠ 0 ∧ (ad.2.err ∨ ad.2.poison) then (ad.1, x.fails 4 0)
    else
      let ks := aesRoundKeys k.key
      let j0 := beNat iv.2.data * 2 ^ 32 + 1
      let h := beNat (aesEncRounds ks (zeros 16))
      let s := if x.alen = 0 then iv.1 else ad.1
      (s.setCx n { k with alen := x.alen, j0 := j0, chain := j0, acc := ghash h 0 (if x.alen = 0 then [] else ad.2.data) }, x)
  else if a = 2 then
    let iv := s.ioRead x.source x.issuer x.iv 16
    if iv.2.err ∨ iv.2.poison then (iv.1, x.fails 4 0)
    else (iv.1.setCx n { k with j0 := ofBytesLE iv.2.data }, x)
  else if a = 3 then (s.setCx n k, x)
  else (s.setCx n { k with hash := if 7 ≤ a then (algHash a).hmacInner k.key else (algHash a).h0 }, x)

/-- PROCESS starts (R363): the checks, and the start of a message. -/
def State.ceProcess (s : State) (x : CeCmd) : State × CeCmd :=
  let bad := (s.cx x.ctx).processBad x
  if bad ≠ 0 then (s, x.fails 1 bad)
  else if x.first then s.ceBegin x
  else (s, x)

/-- CE_PROCESS (R363). -/
def execCeProcess (e : Fin 4) (s : State) : Result :=
  s.devCmd (fun s => .next (s.ceStart e opProcess (fun s x => s.ceProcess x)))

/-- One block, or the final part of one, enters a message: the message, and what leaves. `final` says that no data
follows in it. -/
def CeCtx.absorb (k : CeCtx) (x : CeCmd) (d : Bytes) (final : Bool) : CeCtx × Bytes :=
  let a := x.alg
  if a = 1 then
    let ks := aesRoundKeys k.key
    let h := beNat (aesEncRounds ks (zeros 16))
    let r := ctrCrypt ks k.chain d
    ({ k with chain := r.2, acc := ghash h k.acc (if x.dir = 0 then r.1 else d), clen := k.clen + d.length }, r.1)
  else if a = 2 then
    let i := k.clen / 16
    let unit := i / x.du
    let t := if i % x.du = 0 then ofBytesLE (aesEnc (k.key.drop 32) (bytesLE 16 ((k.j0 + unit) % 2 ^ 128))) else k.chain
    let m := bytesLE 16 t
    let ks := aesRoundKeys (k.key.take 32)
    let f := if x.dir = 0 then aesEncRounds ks else aesDecRounds ks
    ({ k with chain := xtsNext t, clen := k.clen + d.length }, xorBytes (f (xorBytes d m)) m)
  else if a = 3 then
    if final then ({ k with tail := d, clen := k.clen + d.length }, [])
    else ({ k with chain := cmacChain (aesRoundKeys k.key) k.chain d, clen := k.clen + d.length }, [])
  else if final then ({ k with tail := d, clen := k.clen + d.length }, [])
  else ({ k with hash := (algHash a).block k.hash d, clen := k.clen + d.length }, [])

/-- The tag or digest of a message whose data has entered (R364). -/
def CeCtx.finish (k : CeCtx) (a : Nat) : Bytes :=
  if a = 1 then
    let ks := aesRoundKeys k.key
    let h := beNat (aesEncRounds ks (zeros 16))
    let g := ghash h k.acc (beBytes 8 (8 * k.alen) ++ beBytes 8 (8 * k.clen))
    xorBytes (beBytes 16 g) (aesEncRounds ks (beBytes 16 k.j0))
  else if a = 3 then
    let ks := aesRoundKeys k.key
    if k.tail.isEmpty ∧ 0 < k.clen then
      -- the last block of the message was chained already: its chaining input takes K1
      let x := beNat (aesDecRounds ks (beBytes 16 k.chain))
      aesEncRounds ks (beBytes 16 (x ^^^ cmacDouble (beNat (aesEncRounds ks (zeros 16)))))
    else cmacLast ks k.chain k.tail
  else
    let g := algHash a
    if 7 ≤ a then g.hmacOuter k.key (g.finish k.hash k.tail (2 * g.w + k.clen)) else g.finish k.hash k.tail k.clen

/-- The command pauses at this output boundary (R368): issued through the registers of an assigned context whose
instance has used up its share. -/
def State.cePauses (s : State) (x : CeCmd) : Bool :=
  match x.issuer.vi with
  | some v =>
    let bw := s.get (L.VI_SHARE.BW (v / 32) (v % 32))
    x.launch.isNone && decide (x.alg ≤ 2) && decide (s.ticking) && bw != 0 && decide (bw * 1024 ≤ SMap.get s.viBytes v) &&
      x.pos % 4096 == 0
  | none => false

/-- Payload bytes written for an instance (R368, R271). -/
def State.viWrote (s : State) (e : Nat) (c : Issuer) (n : Nat) : State :=
  let b := (s.ceOf e).bytes + n
  let s := s.pmc uCE e 1 (b / 1024 - (s.ceOf e).bytes / 1024) c.sealed c.vi
  let s := s.setCe e { s.ceOf e with bytes := b }
  match c.vi with
  | some v => { s with viBytes := SMap.set s.viBytes v (SMap.get s.viBytes v + n) }
  | none => s

/-- One block of the segment is done: read, entered, written (R364, R365). -/
def State.ceBlock (s : State) (x : CeCmd) : State × CeCmd :=
  let n := min (algBlock x.alg) (x.len - x.pos)
  let r := s.ioRead x.source x.issuer (x.src + x.pos) n
  if r.2.err ∨ r.2.poison then (r.1, x.fails 4 0)
  else
    let o := (s.cx x.ctx).absorb x r.2.data (x.last && decide (x.pos + n = x.len))
    let s := r.1.setCx x.ctx o.1
    let x' : CeCmd := { x with pos := x.pos + n, bytes := x.bytes + n }
    if x.alg ≤ 2 then
      let f := s.freeBytes n
      let undef : Bool := x.dst != x.src && overlap x.src x.len x.dst x.len
      let w := (if undef then f.1 else s).store x.source x.issuer (x.dst + x.pos) (if undef then f.2 else o.2) false
      if w.2 then (w.1.viWrote x.eng x.issuer n, x') else (w.1, x.fails 4 0)
    else (s, x')

/-- The segment runs on to a byte of it, unless the command fails or pauses. -/
def State.ceRun (s : State) (x : CeCmd) (limit : Nat) : Nat → State × CeCmd
  | 0 => (s, x)
  | k + 1 =>
    if x.fin ∨ limit ≤ x.pos ∨ s.cePauses x then (s, x)
    else
      let r := s.ceBlock x
      r.1.ceRun r.2 limit k

/-- The end of a message (R364, R370): the tag is written or compared. -/
def State.ceTag (s : State) (x : CeCmd) : State × CeCmd :=
  let a := x.alg
  if a = 2 then (s, { x with fin := true })
  else
    let t := ((s.cx x.ctx).finish a).take x.tagLen
    if x.dir = 0 then
      let w := s.store x.source x.issuer x.tag t false
      (w.1, if w.2 then { x with fin := true } else x.fails 4 0)
    else
      let r := s.ioRead x.source x.issuer x.tag x.tagLen
      if r.2.err ∨ r.2.poison then (r.1, x.fails 4 0)
      else if r.2.data = t then (r.1, { x with fin := true })
      else (r.1, { x.fails 0x0A 0 with tagBad := true })

/-- A running PROCESS goes on to its end: all its data and, with LAST, its tag. -/
def State.ceComplete (s : State) (x : CeCmd) : State × CeCmd :=
  if x.fin then (s, x)
  else
    let r := s.ceRun x x.len (x.len / algBlock x.alg + 2)
    if r.2.fin ∨ r.2.pos < x.len then r
    else if x.last then r.1.ceTag r.2
    else (r.1, { r.2 with fin := true })

/-- CE_SUSPEND (R367): a running PROCESS that is not urgent stops at a block boundary for an urgent command. -/
def execCeSuspend (e : Fin 4) (blocks : Nat) (s : State) : Result :=
  s.devCmd (fun s =>
    let cmds := (s.ceOf e).cmds
    match cmds.find? (fun c => c.started && !c.susp) with
    | none => .next s
    | some x =>
      if x.op ≠ opProcess ∨ x.urgent ∨ x.fin ∨ cmds.any (fun c => c.susp) ∨
          cmds.any (fun c => c.urgent && !c.started && c.ctx != x.ctx) = false then .next s
      else
        let r := s.ceRun x (blocks * algBlock x.alg) (blocks + 1)
        let y := if r.2.fin then r.2 else { r.2 with susp := true, wasSusp := true }
        let s := r.1.setCeCmd e y
        let s := s.when (y.susp = true) (fun s => ((s.inc (L.CE_CTX_CNT.SUSP x.ctx)).ceEvent e (L.CE_EVT.SUSPEND e)).pmc uCE e 2 1 x.issuer.sealed x.issuer.vi)
        .next (s.ceShow e))

/-- CE_RESUME (R367): 20 ns after the last urgent command ended. -/
def execCeResume (e : Fin 4) (s : State) : Result :=
  let cmds := (s.ceOf e).cmds
  match cmds.find? (fun c => c.susp) with
  | none => .next s
  | some x =>
    if s.ceOn e ∧ cmds.any (fun c => c.started && !c.susp) = false ∧ (ceUrgent cmds).isNone then
      let s := s.elapseUntil ((s.ceOf e).urgentEnd + 20)
      .next ((s.setCeCmd e { x with susp := false }).ceShow e)
    else .next s

/-- The state of a context at the end of a PROCESS (R363, R370). -/
def State.ceAfter (s : State) (x : CeCmd) : State :=
  if x.op = opProcess ∧ x.status ≠ 1 ∧ x.status ≠ 0x0B then s.ceBase x.ctx (if x.last then ctxIdle else ctxOpen) else s

/-- CE_COMMAND_END (R366, R369): the running command ends; one that pauses under R368 goes on later. -/
def execCeCommandEnd (e : Fin 4) (disagree : Option Nat) (s : State) : Result :=
  s.devCmd (fun s =>
    match (s.ceOf e).cmds.find? (fun c => c.started && !c.susp) with
    | none => .next s
    | some x =>
      let r :=
        if x.op ≠ opProcess ∨ x.fin then (s, x)
        else match disagree with
          | none => s.ceComplete x
          | some n =>
            let r := s.ceRun x (min x.len (64 * n)) (x.len / algBlock x.alg + 2)
            if r.2.fin then r else r.1.ceMismatch r.2
      if r.2.fin then .next ((r.1.ceAfter r.2).ceFinish e r.2) else .next ((r.1.setCeCmd e r.2).ceShow e))

/-! ### Saving and restoring (R371) -/

/-- The save record (Table 14.7). -/
def CeCtx.record (k : CeCtx) (keyId : Nat) (withKey : Bool) : Bytes :=
  let w := 2 * (algHash k.alg).w / 16
  let st := if k.alg = 1 then beBytes 16 k.acc ++ zeros 48
    else if 4 ≤ k.alg then
      let h := (k.hash.map (fun v => beBytes w v)).flatten
      h ++ zeros (64 - h.length)
    else zeros 64
  bytesLE 4 0x43455331 ++ [k.alg, k.dir + 2 + (if withKey then 4 else 0), 0, 0] ++ bytesLE 4 keyId ++ zeros 4 ++
    bytesLE 8 k.alen ++ bytesLE 8 k.clen ++ (if k.alg = 1 then beBytes 16 k.j0 else zeros 16) ++
    (if k.alg = 1 ∨ k.alg = 3 then beBytes 16 k.chain else zeros 16) ++ st

/-- The message of a record, and its FLAGS and KEY_ID; none if the record is invalid. -/
def recordMessage (k : CeCtx) (b : Bytes) : Option (CeCtx × Nat × Nat) :=
  let at_ (o n : Nat) : Bytes := (b.drop o).take n
  let a := ofBytesLE (at_ 4 1)
  let fl := ofBytesLE (at_ 5 1)
  if ofBytesLE (at_ 0 4) ≠ 0x43455331 ∨ a = 0 ∨ a = 2 ∨ 9 < a ∨ b.length < 128 then none
  else
    let w := 2 * (algHash a).w / 16
    some ({ k with
      base := ctxOpen, alg := a, dir := fl % 2, alen := ofBytesLE (at_ 0x10 8), clen := ofBytesLE (at_ 0x18 8),
      j0 := beNat (at_ 0x20 16), chain := beNat (at_ 0x30 16), acc := if a = 1 then beNat (at_ 0x40 16) else 0,
      hash := if 4 ≤ a then (List.range 8).map (fun i => beNat (at_ (0x40 + w * i) w)) else [], tail := [] },
      fl, ofBytesLE (at_ 8 4))

/-- A range of device addresses translates outside every enabled Open range (R371). -/
def State.outsideOpen (s : State) (src : Nat) (c : Issuer) (a n : Nat) : State × Bool :=
  (pagePieces (n / 0x1000 + 2) a n).foldl (fun (p : State × Bool) x =>
    let t := p.1.translate src c (x.1 % 2 ^ 48) x.2 true false
    match t.2 with
    | .inr _ => (t.1, false)
    | .inl pa =>
      let hit := (List.range 16).any (fun r =>
        s.get (L.WLD_OPEN_RANGE.EN r) = 1 &&
          (let k := s.get (L.WLD_OPEN_RANGE.LOG2SZ r)
           let base := ((s.get (L.WLD_OPEN_RANGE.BASE r) * 0x1000) >>> k) <<< k
           decide (pa < base + 2 ^ k ∧ base < pa + x.2)))
      (t.1, p.2 && !hit)) (s, true)

/-- The record is written and the command done. -/
def State.ceWriteRecord (s : State) (x : CeCmd) (b : Bytes) : State × CeCmd :=
  let w := s.store x.source x.issuer x.dst b false
  if w.2 then (w.1.viWrote x.eng x.issuer b.length, { x with fin := true, bytes := b.length }) else (w.1, x.fails 4 0)

/-- SAVE (R371). -/
def State.ceSave (s : State) (agree : Bool) (x : CeCmd) : State × CeCmd :=
  let n := x.ctx
  let k := s.cx n
  let keyId := s.get (L.CE_CTX_STAT.KEY_ID n)
  if k.base ≠ ctxOpen then (s, x.fails 1 dSegOrder)
  else if x.dir = 0 then
    if x.issuer.sealed = false then (s, x.fails 2 0)
    else
      let o := s.outsideOpen x.source x.issuer x.dst 128
      if o.2 = false then (o.1, x.fails 4 0)
      else if agree = false then o.1.ceMismatch x
      else o.1.ceWriteRecord x (k.record keyId false)
  else match s.ceKek n with
    | none => (s, x.fails 1 dKek)
    | some kek =>
      if agree = false then s.ceMismatch x
      else
        let exp : Bool := !k.key.isEmpty && k.usage.testBit 5
        let plain := k.record keyId exp ++ (if exp then bytesLE 8 (k.kind + (k.usage <<< 8)) ++ k.key else [])
        s.ceWriteRecord x (kwpWrap kek plain)

/-- CE_SAVE (R371). -/
def execCeSave (e : Fin 4) (agree : Bool) (s : State) : Result :=
  s.devCmd (fun s => .next (s.ceStart e opSave (fun s x => s.ceSave agree x)))

/-- A record that was read is put back: with its key, or under the key that the context holds (R371, R372). -/
def State.cePutBack (s : State) (x : CeCmd) (b : Bytes) : State × CeCmd :=
  let n := x.ctx
  match recordMessage (s.cx n) b with
  | none => (s, x.fails 1 dRecord)
  | some (k, fl, id) =>
    if fl.testBit 2 ∧ x.dir = 1 then
      let p := b.drop 128
      let w := ofBytesLE (p.take 8)
      let kind := bits w 3 0
      if kind = 0 ∨ 4 < kind ∨ p.length ≠ 8 + kindBytes kind then (s, x.fails 1 dRecord)
      else
        let s := s.ceSetKey n (p.drop 8) kind (bits w 13 8) 3
        (s.setCx n { k with key := p.drop 8, kind := kind, usage := bits w 13 8 }, { x with fin := true })
    else if id ≠ s.get (L.CE_CTX_STAT.KEY_ID n) ∨ b.length ≠ 128 then (s, x.fails 1 dRecord)
    else (s.setCx n k, { x with fin := true })

/-- The record that a RESTORE has read: unwrapped, if it is wrapped, and put back. -/
def State.ceTakeRecord (s : State) (agree : Bool) (x : CeCmd) (d : DevAns) : State × CeCmd :=
  if d.err ∨ d.poison then (s, x.fails 4 0)
  else if agree = false then s.ceMismatch x
  else if x.dir = 0 then s.cePutBack x d.data
  else match s.ceKek x.ctx with
    | none => (s, x.fails 1 dKek)
    | some kek =>
      match kwpUnwrap kek d.data with
      | none => (s, x.fails 1 dRecord)
      | some p => s.cePutBack x p

/-- RESTORE (R371). -/
def State.ceRestore (s : State) (agree : Bool) (x : CeCmd) : State × CeCmd :=
  if (s.cx x.ctx).base ≠ ctxIdle then (s, x.fails 1 dSegOrder)
  else if x.dir = 1 ∧ (s.ceKek x.ctx).isNone then (s, x.fails 1 dKek)
  else
    let r := s.ioRead x.source x.issuer x.src x.len
    r.1.ceTakeRecord agree x r.2

/-- CE_RESTORE (R371). -/
def execCeRestore (e : Fin 4) (agree : Bool) (s : State) : Result :=
  s.devCmd (fun s => .next (s.ceStart e opRestore (fun s x => s.ceRestore agree x)))

/-! ### Instances, release, power (R357, R373) -/

/-- Commands of a context have been accepted and have not ended. -/
def State.ceBusy (s : State) (n : Nat) : Bool := (s.ceOf (n / 16)).cmds.any (fun x => x.ctx == n)

/-- An instance RESET: the context's commands end with ABORT, its key and state are erased, READY is 0 (R373). -/
def State.ceAbort (s : State) (n : Nat) : State :=
  let e := n / 16
  let mine := (s.ceOf e).cmds.filter (fun x => x.ctx == n)
  let s := s.forAll mine (fun s x => match x.launch with | some l => s.endLaunch l 0x0D | none => s)
  let s := s.setCe e { s.ceOf e with cmds := (s.ceOf e).cmds.filter (fun x => x.ctx != n) }
  ((s.ceErase n).ceNoResult n).ceShow e

/-- A release (R373). -/
def State.ceRelease (s : State) (n : Nat) : State :=
  ((s.ceAbort n).wr (R.CE_CTX_CFG n) 0).wr (R.CE_CTX_MSI n) 0

/-- The domain of an engine is switched off or the engine reset: keys and states erased, commands gone (R357). -/
def State.cePowerOff (s : State) (e : Nat) : State :=
  s.forAll ((List.range 16).map (fun k => 16 * e + k)) State.ceAbort

/-- A write of a CE_ register with a rule of its own; `n` is the context. -/
def State.writeCe (s : State) (r : Reg) (n : Nat) (c : Issuer) (v : Nat) : Option State :=
  match r with
  | .CE_CMD => some (s.writeCeCmd n c v)
  | .CE_ACK => some (s.writeCeAck n v)
  | _ => none

end Sys2Proof.Machine
end

