-- ==== Sys2Proof/Machine/ExtIo.lean ====
section
/-! DEFINITION. PCI Express, Ethernet and the management port (15). -/

namespace Sys2Proof.Machine

abbrev pciLog (c : Nat) : Nat := 277 + c
abbrev pciSrc (c : Nat) : Nat := 0x1C + c
abbrev ethLog : Nat := 279
abbrev mgtLog : Nat := 280

def State.pciEvent (s : State) (c : Nat) (l : Loc) : State := s.event (pciLog c) l (R.PCI_EVT_EN c)
def State.ethEvent (s : State) (l : Loc) : State := s.event ethLog l R.ETH_EVT_EN

/-! ### Links of the PCIe controllers (R376) -/

/-- The PCIE power domain is on (Table 16.6). -/
abbrev State.pciOn (s : State) : Prop := s.get (L.PWR_DOM.STATE 33) = 1

/-- A controller is enabled and has lanes (Table 15.2). -/
def State.pciLanes (s : State) (c : Nat) : Bool :=
  decide (s.pciOn) && s.get (L.PCI_CFG.EN c) == 1 && (c == 0 || s.get (L.PCI_CFG.BIF 0) != 0)

/-- A port of a controller has lanes: their number as the code of PCI_STATUS, or none (Table 15.2). -/
def State.pciPortLanes (s : State) (c p : Nat) : Option Nat :=
  let b := s.get (L.PCI_CFG.BIF 0)
  if b = 0 then (if c = 0 ∧ p = 0 then some 4 else none)
  else if b = 1 then (if p = 0 then some 3 else none)
  else some 2

/-- The status byte of a port. -/
def State.pciPort (s : State) (c p : Nat) : Nat :=
  if p = 0 then (s.rd (R.PCI_STATUS c)).toNat % 256 else s.get (L.PCI_STATUS.P1 c)

/-- The status byte of a port set. -/
def State.setPciPort (s : State) (c p v : Nat) : State :=
  if p = 0 then ((s.put (L.PCI_STATUS.P0_UP c) (v / 128)).put (L.PCI_STATUS.P0_WIDTH c) (v / 16)).put (L.PCI_STATUS.P0_RATE c) v
  else s.put (L.PCI_STATUS.P1 c) v

/-- A port's link is up. -/
abbrev State.pciUp (s : State) (c p : Nat) : Bool := (s.pciPort c p).testBit 7

/-- The port that requests of a controller leave by: port 0 if it is up, else port 1. -/
def State.pciExit (s : State) (c : Nat) : Option Nat := firstBelow 2 (fun p => s.pciUp c p)

/-- A function takes new work: enabled, its instance running, and not being released (R382, R329). -/
def State.pciFnOpen (s : State) (n : Nat) : Bool :=
  s.get (L.PCI_FN_CFG.EN (n / 8) (n % 8)) == 1 && s.viRuns (s.viOf (.pci n)) && !s.isReleasing (.pci n)

abbrev State.pciIssuer (s : State) (n : Nat) : Issuer := s.tags (s.ownerSealed (.pci n)) (s.viOf (.pci n))

/-! ### Inbound requests (R377, R378, R381, R382) -/

/-- Completion status codes of PCI Express. -/
abbrev cplOk : Nat := 0
abbrev cplUr : Nat := 1
abbrev cplCrs : Nat := 2
abbrev cplCa : Nat := 4

/-- A partner protocol violation of PCI Express (R381, R432). -/
def State.pciViolation (s : State) (c : Nat) : State :=
  let s := ((s.inc (L.PCI_CNT.VIOL c)).logRec (pciLog c) Cause.PARTNER 0 0 (unitIssuer true) 0).pciEvent c (L.PCI_EVT.PEER_VIOL c)
  s.send (.pciError c)

/-- The TLP breaks PCI Express: named malformed, or beyond the sizes of Table 15.1. -/
def tlpBad (t : Tlp) : Bool :=
  match t.kind with
  | .malformed => true
  | .write b => b.isEmpty || decide (512 < b.length)
  | .read n => n == 0 || decide (4096 < n)
  | .atomic _ wide _ _ => t.addr % (if wide then 8 else 4) != 0
  | .config _ => false

/-- The function that takes a request, and the device address (R377): in the endpoint role the enabled function that it
names, in the root role the lowest enabled one whose bus range matches. -/
def State.pciTarget (s : State) (c : Nat) (t : Tlp) : Option (Nat × Nat) :=
  let en (k : Nat) : Bool := s.get (L.PCI_FN_CFG.EN c k) = 1
  if s.get (L.PCI_CFG.ROLE c) = 1 then
    if en t.fn ∧ t.addr < 0x100000 then some (8 * c + t.fn, 0x100000 * s.get (L.PCI_FN_BAR.BASE c t.fn) + t.addr) else none
  else
    (firstBelow 8 (fun k => en k && decide (s.get (L.PCI_FN_CFG.BUS_LO c k) ≤ t.bus) &&
      decide (t.bus.val ≤ s.get (L.PCI_FN_CFG.BUS_HI c k)))).map (fun k => (8 * c + k, t.addr))

/-- The request has a completion. -/
def nonPosted : TlpKind → Bool
  | .write _ => false
  | _ => true

/-- A completion of the controller, for a request that has one. -/
def State.pciAnswer (s : State) (c : Nat) (k : TlpKind) (status : Nat) (data : Bytes) : State :=
  if nonPosted k then s.send (.pciCpl c status data) else s

/-- An access failed: a translation fault is recorded already (R327), an error response of the target is logged here. -/
def State.pciFailed (s was : State) (c : Nat) (k : TlpKind) (i : Issuer) (a : Nat) : State :=
  let seen : Bool := s.get (L.WLD_IOMMU_FLTCNT.COUNT i.sealed) != was.get (L.WLD_IOMMU_FLTCNT.COUNT i.sealed)
  (if seen then s else s.logRec iommuLog Cause.ACCESS 0 a i 0).pciAnswer c k cplCa []

/-- The result of an AtomicOp (R375). -/
def atomicResult (op old v cmp : Nat) (w : Nat) : Nat :=
  (match op with | 0 => old + v | 1 => v | _ => if old = cmp % 2 ^ (8 * w) then v else old) % 2 ^ (8 * w)

/-- The write is a message-signalled interrupt: 4 bytes, aligned, to an interrupt page after translation (R132, R456). -/
def State.inboundMsi (s : State) (src : Nat) (c : Issuer) (a : Nat) (b : Bytes) : Bool :=
  b.length == 4 && a % 4 == 0 && (match (s.translate src c (a % 2 ^ 48) 4 true true).2 with
    | .inl pa => (intPage pa).isSome
    | .inr _ => false)

/-- A write of 4 bytes may be a message-signalled interrupt (R132, R456). -/
def State.inboundWrite (s : State) (src : Nat) (c : Issuer) (a : Nat) (b : Bytes) : State × Bool :=
  if s.inboundMsi src c a b then ({ s.ioMsi src c a (ofBytesLE b) with resp := s.resp }, true) else s.store src c a b false

/-- A request of a function is performed (R378). -/
def State.pciPerform (s : State) (c n a : Nat) (k : TlpKind) : State :=
  let i := s.pciIssuer n
  let src := pciSrc c
  match k with
  | .read m =>
    let r := s.ioRead src i a m
    if r.2.err ∨ r.2.poison then r.1.pciFailed s c k i a else r.1.pciAnswer c k cplOk r.2.data
  | .write b =>
    let w := s.inboundWrite src i a b
    if w.2 then w.1 else w.1.pciFailed s c k i a
  | .atomic op wide v cmp =>
    let m := if wide then 8 else 4
    let r := s.ioRead src i a m
    if r.2.err ∨ r.2.poison then r.1.pciFailed s c k i a
    else
      let w := r.1.store src i a (bytesLE m (atomicResult op (ofBytesLE r.2.data) v cmp m)) false
      if w.2 then w.1.pciAnswer c k cplOk r.2.data else w.1.pciFailed r.1 c k i a
  | .config write =>
    if write then s.pciAnswer c k cplOk []
    else
      let f := s.freeBytes 4
      f.1.pciAnswer c k cplOk f.2
  | .malformed => s

/-- PCIE_INBOUND_TLP (R377, R378, R381, R382). -/
def execPcieInboundTlp (ctrl : Fin 2) (t : Tlp) (s : State) : Result :=
  s.devCmd (fun s =>
    let c := ctrl.val
    if s.pciLanes c = false ∨ s.pciExit c = none then .next s
    else if tlpBad t then .next (s.pciViolation c)
    else match s.pciTarget c t with
      | none => .next ((s.pciEvent c (L.PCI_EVT.NO_FN c)).pciAnswer c t.kind cplUr [])
      | some (n, a) =>
        if s.pciFnOpen n = false then
          .next (s.pciAnswer c t.kind (match t.kind with | .config _ => cplCrs | _ => cplUr) [])
        else .next (s.pciPerform c n a t.kind))

/-! ### Outbound requests (R379, R380, R381, R383) -/

/-- The slice that an address of the PCIe window lies in: controller, function and offset. -/
def pciSlice (a : Nat) : Option (Nat × Nat × Nat) :=
  let o := a % 0x10000000000
  if a / 0x10000000000 ≠ 2 then none
  else some (o / 0x8000000000, o % 0x8000000000 / 0x1000000000, o % 0x1000000000)

/-- Requests of a controller that are sent and open. -/
def State.pciCount (s : State) (c : Nat) : Nat := (s.pciOpen.filter (fun r => r.ctrl == c && r.sent)).length

/-- The PCIe address of a slice offset of a function (R379). -/
def State.pciAddr (s : State) (c k off : Nat) : Nat := s.get (L.PCI_FN_OB.BASE c k) * 2 ^ 36 + off

/-- Waiting requests of a controller are sent while fewer than 512 are open (R375). -/
def State.pciPump (s : State) (c : Nat) : Nat → State
  | 0 => s
  | f + 1 =>
    match s.pciOpen.find? (fun r => r.ctrl == c && !r.sent) with
    | none => s
    | some r =>
      if s.pciCount c < 512 then
        let s := { s with pciOpen := s.pciOpen.map (fun (x : PciReq) => if x.tag = r.tag then { x with sent := true, sentAt := s.up } else x) }
        (s.send (.pciReq c r.port r.fn r.addr (some r.tag) (.inr r.len))).pciPump c f
      else s

/-- A non-posted request of a function is made. -/
def State.pciAsk (s : State) (c k port off len : Nat) (i : Issuer) (u : PciUser) : State :=
  let r : PciReq := ⟨c, port, k, s.pciTag, s.pciAddr c k off, len, [], i, u, false, s.up⟩
  ({ s with pciOpen := s.pciOpen ++ [r], pciTag := s.pciTag + 1 }).pciPump c 1

/-- An error response of the window: a load takes an access fault, a store's is logged only (R428). -/
def State.windowError (s : State) (c : Nat) (i : Issuer) (a : Nat) (k : RemoteKind) : State :=
  match k with
  | .store _ => (s.logRec (pciLog c) Cause.ACCESS 0 a i 0).answer .ok
  | _ => s.answer .accessFault

/-- An access to a slice of the PCIe window (R379, R380). -/
def State.windowDo (s : State) (i : Issuer) (addr : PAddr) (k : RemoteKind) : State :=
  match pciSlice addr.toNat with
  | none => s.answer .accessFault
  | some (c, f, off) =>
    let n := 8 * c + f
    let size := match k with | .load m => m | .store b => b.length | _ => 0
    let kindOk : Bool := match k with | .load _ => true | .store _ => true | _ => false
    if kindOk = false ∨ size = 0 ∨ 8 < size ∨ 2 ^ 36 < off + size then s.answer .accessFault
    else if i.sealed ≠ s.ownerSealed (.pci n) ∨ s.isReleasing (.pci n) then
      ((s.logRec (pciLog c) Cause.WORLD 0 addr.toNat i 0).answer (match k with | .store _ => .ok | _ => .accessFault))
    else if viAllows i.vi (s.viOf (.pci n)) = false then
      ((s.logRec (pciLog c) Cause.VI 0 addr.toNat i 0).answer (match k with | .store _ => .ok | _ => .accessFault))
    else if s.pciLanes c = false ∨ s.pciFnOpen n = false then (s.windowError c i addr.toNat k)
    else match s.pciExit c with
      | none => (s.windowError c i addr.toNat k)
      | some p =>
        match k with
        | .store b => ((s.send (.pciReq c p f (s.pciAddr c f off) none (.inl b))).answer .ok)
        | _ => ((s.answer .ok).pciAsk c f p off size i (.core i.agent))

/-- PCIE_WINDOW_ACCESS (R379). -/
def execPcieWindowAccess (i : Issuer) (addr : PAddr) (k : RemoteKind) (s : State) : Result :=
  .next (if s.agentIn i then
      if s.pmpStops i addr.toNat (remotePmp k).1 (remotePmp k).2 then s.answer .accessFault else s.windowDo (s.tagged i) addr k
    else s)

/-- An open request is gone, and a waiting one takes its place. -/
def State.pciDrop (s : State) (r : PciReq) : State :=
  ({ s with pciOpen := s.pciOpen.filter (fun x => x.tag != r.tag) }).pciPump r.ctrl 1

/-- An open request ends with an error response; of an old generation nothing is left to tell (R274). -/
def State.pciFail (s : State) (r : PciReq) : State :=
  if s.stale r.issuer then s.pciDrop r
  else match r.user with
  | .core _ => (s.answer .accessFault).pciDrop r
  | .launch id _ => (s.endLaunch id 4).pciDrop r

/-- The open request of a controller with a tag. -/
def State.pciFind (s : State) (c tag : Nat) : Option PciReq := s.pciOpen.find? (fun r => r.ctrl == c && r.tag == tag && r.sent)

/-- The launch asks for the reserved class (Table 4.4). -/
def State.pciRsv (s : State) (id : Nat) : Bool :=
  match s.findLaunch id with
  | some l => ((l.desc[1]?).getD 0).testBit 4
  | none => false

/-- The data of a request has all come: it reaches the core, or is performed at LOCAL (R383). -/
def State.pciDone (s : State) (r : PciReq) : State :=
  match r.user with
  | .core _ => (s.answer (.data (BitVec.ofNat 64 (ofBytesLE (r.got.take r.len))))).pciDrop r
  | .launch id loc =>
    let w := s.store (rsvSrc (pciSrc r.ctrl) (s.pciRsv id)) r.issuer loc (r.got.take r.len) false
    (w.1.endLaunch id (if w.2 then 0 else 4)).pciDrop r

/-- PCIE_COMPLETION_RX (R379, R380, R274): a completion with part or all of the data. -/
def execPcieCompletionRx (ctrl : Fin 2) (tag : Nat) (ok : Bool) (data : List Nat) (s : State) : Result :=
  s.devCmd (fun s =>
    match s.pciFind ctrl tag with
    | none => .next s
    | some r =>
      if s.stale r.issuer then
        .next ((s.lateDiscard (r.issuer.vi.getD 0)).pciDrop r)
      else if ok = false then .next (s.pciFail r)
      else
        let r := { r with got := r.got ++ data.map (fun b => b % 256) }
        if r.got.length < r.len then .next { s with pciOpen := s.pciOpen.map (fun (x : PciReq) => if x.tag = r.tag then r else x) }
        else .next (s.pciDone r))

/-- PCIE_CTO (R380). -/
def execPcieCto (ctrl : Fin 2) (tag : Nat) (s : State) : Result :=
  match s.pciFind ctrl tag with
  | none => .next s
  | some r =>
    let s := s.elapseUntil (r.sentAt + 1000 * s.get (L.PCI_CFG.CTO ctrl))
    let s := (s.logRec (pciLog ctrl) Cause.TIMEOUT 0x02 r.addr r.issuer 0).pciEvent ctrl (L.PCI_EVT.CTO ctrl)
    .next (s.pciFail r)

/-- A link of a controller goes down (R381). -/
def State.pciDown (s : State) (c p : Nat) : State :=
  if s.pciUp c p then
    let s := (s.setPciPort c p 0).pciEvent c (L.PCI_EVT.LINK_DOWN c)
    s.forAll (s.pciOpen.filter (fun r => r.ctrl == c && r.port == p)) State.pciFail
  else s

/-- PCIE_LINK_DOWN (R381). -/
def execPcieLinkDown (ctrl port : Fin 2) (s : State) : Result := .next (s.pciDown ctrl port)

/-- PCIE_LINK_UP (R375, R376): at most the lanes of the port. -/
def execPcieLinkUp (ctrl port : Fin 2) (width rate : Fin 5) (s : State) : Result :=
  match s.pciPortLanes ctrl port with
  | none => .next s
  | some most =>
    if s.pciLanes ctrl ∧ width.val ≤ most ∧ s.get L.CLK_REF.PCI_REF_OK = 1 ∧ s.txIdle = false then
      .next (s.setPciPort ctrl port (128 + 16 * width + rate))
    else .next s

/-- Every link of a controller goes down. -/
def State.pciAllDown (s : State) (c : Nat) : State := (s.pciDown c 0).pciDown c 1

/-- The open requests of a function end with its release (R328). -/
def State.pciFnEnd (s : State) (n : Nat) : State :=
  s.forAll (s.pciOpen.filter (fun r => 8 * r.ctrl + r.fn == n)) (fun s r =>
    match r.user with
    | .core _ => s.pciDrop r
    | .launch id _ => (s.endLaunch id 0x0D).pciDrop r)

/-- The requests of a function of the old generation end (R273): one that waits for a tag is dropped, and one that was sent
stays open for its completion, which is counted where it arrives (R274). -/
def State.pciFnReset (s : State) (n : Nat) : State :=
  s.forAll (s.pciOpen.filter (fun r => 8 * r.ctrl + r.fn == n)) (fun s r =>
    let s := match r.user with
      | .core _ => s
      | .launch id _ => s.endLaunch id 0x0D
    if r.sent then s else s.pciDrop r)

/-- The status that a launch of a controller earns when it is accepted (R383, R104, R105). -/
def State.pciLaunchStatus (s : State) (c : Nat) (l : Launch) : Nat :=
  let g (i : Nat) : Nat := (l.desc[i]?).getD 0
  let len := bits (g 1) 63 32
  let op := bits (g 1) 3 0
  let n := 8 * c + g 2 % 8
  if bits (g 1) 31 5 ≠ 0 ∨ 8 ≤ g 2 ∨ 2 ^ 36 ≤ g 3 ∨ 2 ^ 48 ≤ g 4 ∨ g 5 ≠ 0 ∨ g 6 ≠ 0 ∨ g 7 ≠ 0 ∨ op = 0 ∨ 2 < op ∨
      len = 0 ∨ 4096 < len ∨ 2 ^ 36 < g 3 + len then 1
  else if s.ownerSealed (.pci n) ≠ l.sealed ∨ s.isReleasing (.pci n) then 2
  else if viAllows l.vi (s.viOf (.pci n)) = false then 3
  else if s.pciLanes c = false ∨ s.pciExit c = none then 6
  else if s.pciFnOpen n = false then 4
  else 0

/-- A launch that names a function of the other world or another instance is logged (R104). -/
def State.pciLaunchLog (s : State) (c st : Nat) (l : Launch) : State :=
  let a := regAddr (R.PCI_FN_CFG c ((l.desc[2]?).getD 0 % 8))
  if st = 2 then s.logRec (pciLog c) Cause.WORLD 0 a (s.tags l.sealed l.vi) 0
  else if st = 3 then s.logRec (pciLog c) Cause.VI 0 a (s.tags l.sealed l.vi) 0
  else s

/-- The posted requests of a write, of at most 512 bytes each (Table 15.1): address and data. -/
def tlpPieces : Nat → Nat → Bytes → List (Nat × Bytes)
  | 0, _, _ => []
  | f + 1, a, b =>
    if b.isEmpty then [] else (a, b.take (512 - a % 512)) :: tlpPieces f (a + (512 - a % 512)) (b.drop (512 - a % 512))

/-- A launched request starts (R383): a write is read at LOCAL and sent; a read waits for its completions. -/
def State.pciStart (s : State) (c : Nat) (l : Launch) : State :=
  let g (i : Nat) : Nat := (l.desc[i]?).getD 0
  let len := bits (g 1) 63 32
  let k := g 2 % 8
  let i := s.pciIssuer (8 * c + k)
  let p := (s.pciExit c).getD 0
  let s := s.updateLaunch l.id (fun l => { l with started := true })
  if bits (g 1) 3 0 = 1 then
    let r := s.ioRead (rsvSrc (pciSrc c) ((g 1).testBit 4)) i (g 4) len
    if r.2.err ∨ r.2.poison then r.1.endLaunch l.id 4
    else (r.1.forAll (tlpPieces 9 (r.1.pciAddr c k (g 3)) r.2.data) (fun s x => s.send (.pciReq c p k x.1 none (.inl x.2)))).endLaunch
      l.id 0
  else s.pciAsk c k p (g 3) len i (.launch l.id (g 4))

/-! ### Ethernet: reception (R384, R385, R389) -/

/-- The traffic class of a frame: the PCP of its VLAN tag, else 0 (R384). -/
def frameClass (f : Bytes) : Nat :=
  if (f.drop 12).take 2 = [0x81, 0x00] then ((f[14]?).getD 0) / 32 else 0

/-- The message type of an 802.1AS frame, EtherType 0x88F7. -/
def asType (f : Bytes) : Option Nat :=
  if (f.drop 12).take 2 = [0x88, 0xF7] then some ((f[14]?).getD 0 % 16) else none

/-- The timestamp of an event message of 802.1AS (R389). -/
def State.ethStamp (s : State) (l : Nat) (f : Bytes) : State :=
  match asType f with
  | some t => if t < 8 then s.put (L.ETH_TS.TIME l) (s.tb.ns % 2 ^ 48 * 2 ^ 16 + s.visFrac) else s
  | none => s

abbrev State.ethLane (s : State) (l : Nat) : EthLane := SMap.get s.eth l
def State.setEthLane (s : State) (l : Nat) (x : EthLane) : State := { s with eth := SMap.set s.eth l x }

/-- The lane is enabled and its link up. -/
def State.ethUp (s : State) (l : Nat) : Bool := s.get (L.ETH_LANE_CFG.EN l) == 1 && (s.get L.ETH_STATUS.LINK).testBit l

/-- A frame that no queue takes. -/
def State.ethDrop (s : State) (l : Nat) : State := (s.inc (L.ETH_LANE_CNT.RX_DROP l)).ethEvent L.ETH_EVT.RX_DROP

/-- The function takes new work (R268, R329). -/
def State.ethFnOpen (s : State) (f : Nat) : Bool :=
  s.get (L.ETH_FN_CFG.EN f) == 1 && s.viRuns (s.viOf (.eth f)) && !s.isReleasing (.eth f)

/-- The function that a destination address names (R385). -/
def State.ethFunction (s : State) (frame : Bytes) : Nat :=
  let mac := ofBytesLE (frame.take 6)
  match firstBelow 32 (fun m => s.get (L.ETH_MAC.EN m) == 1 && s.get (L.ETH_MAC.MAC m) == mac) with
  | some m => s.get (L.ETH_MAC.FN m)
  | none => 0

/-- ETH_FRAME_RX (R385). -/
def execEthFrameRx (lane : Fin 4) (fcsBad : Bool) (frame : List Nat) (s : State) : Result :=
  let frame := frame.map (fun b => b % 256)
  if s.ethUp lane = false then .next s
  else if fcsBad ∨ frame.length < 64 ∨ 9216 < frame.length then .next (s.inc (L.ETH_LANE_CNT.FCS_ERR lane))
  else
    let s := s.ethStamp lane frame
    let s := s.when (asType frame = some 0) (fun s => s.setEthLane lane { s.ethLane lane with syncAt := s.up })
    let f := s.ethFunction frame
    if s.ethFnOpen f = false then .next (s.ethDrop lane)
    else
      let q := s.get (L.ETH_FN_CFG.RXQ f) + frameClass frame
      let i := s.tags (s.ownerSealed (.eth f)) (s.viOf (.eth f))
      let key := R.QE_Q_CFG (q / 512) (q % 512)
      if s.ownerSealed (.queue q) ≠ i.sealed then .next (s.logRec ethLog Cause.WORLD 0 (regAddr key) i 0)
      else if viAllows i.vi (s.viOf (.queue q)) = false then .next (s.logRec ethLog Cause.VI 0 (regAddr key) i 0)
      else
        let r := s.qArrive q (0x100 + lane) frame.length frame
        if r.2 then .next r.1 else .next (r.1.ethDrop lane)

/-! ### Ethernet: gates (R387, R113) -/

/-- The list in force on a lane. -/
def State.ethList (s : State) (l : Nat) : Option Nat :=
  if (s.get L.ETH_STATUS.LIST_VALID).testBit l then some (s.get L.ETH_STATUS.LIST / 256 ^ l % 256) else none

/-- A list is valid (R387). -/
def State.listValid (s : State) (n : Nat) : Bool :=
  let st := s.get (L.ETH_GATE_LIST.START n)
  let ct := s.get (L.ETH_GATE_LIST.COUNT n)
  decide (1 ≤ ct ∧ st + ct ≤ 4096) && (List.range ct).all (fun k => decide (64 ≤ s.get (L.ETH_GATE_ENT.INTERVAL (st + k))))

/-- GATES and INTERVAL of entry `k` of a list; before the first BASE (none) the gates of its last entry hold. -/
def State.gateOf (s : State) (n : Nat) (k : Option Nat) : Nat :=
  let ct := s.get (L.ETH_GATE_LIST.COUNT n)
  s.get (L.ETH_GATE_ENT.GATES ((s.get (L.ETH_GATE_LIST.START n) + k.getD (ct - 1)) % 4096))
def State.gateTime (s : State) (n k : Nat) : Nat :=
  s.get (L.ETH_GATE_ENT.INTERVAL ((s.get (L.ETH_GATE_LIST.START n) + k) % 4096))

/-- The count at which a lane next restarts its list (R387): BASE of this frame, or of the next one if that has begun. -/
def State.nextCycle (s : State) (l : Nat) : Option Nat :=
  if s.ticking then
    let b := s.tickTime + (s.ethLane l).base
    some (if (s.ethLane l).cycleOf = some s.tickTime ∨ b < s.tb.ns then b + s.period else b)
  else none

/-- The earlier of two instants. -/
def earlier : Option Nat → Option Nat → Option Nat
  | some a, some b => some (min a b)
  | some a, none => some a
  | none, b => b

/-- A place in the gate lists of a lane: the list in force, its entry and the end of that, the next restart, and the tick at
which another list takes effect with that list and its BASE. -/
structure GateAt where
  list : Option Nat
  entry : Option Nat
  entryEnd : Option Nat
  restart : Option Nat
  switch : Option (Nat × Nat × Nat)
  deriving DecidableEq, Repr

/-- The next instant at which the gates may change. -/
def GateAt.next (g : GateAt) : Option Nat := earlier g.entryEnd (earlier g.restart (g.switch.map (fun x => x.1)))

/-- The place at that instant: a new list, a restart of the cycle, or the next entry. -/
def State.gateStep (s : State) (g : GateAt) (t : Nat) : GateAt :=
  let fresh := match g.switch with
    | some (t0, n, b) =>
      if t0 = t then
        some (if b = 0 then (⟨some n, some 0, some (t + s.gateTime n 0), some (t + s.period), none⟩ : GateAt)
          else ⟨some n, none, none, some (t + b), none⟩)
      else none
    | none => none
  match fresh, g.list with
  | some g', _ => g'
  | none, none => g
  | none, some n =>
    if g.restart = some t then { g with entry := some 0, entryEnd := some (t + s.gateTime n 0), restart := some (t + s.period) }
    else
      let k := (g.entry.getD 0 + 1) % max 1 (s.get (L.ETH_GATE_LIST.COUNT n))
      { g with entry := some k, entryEnd := some (t + s.gateTime n k) }

/-- The gate of class `p` stays open beyond an instant, given in 1/100 ns. -/
def State.gateHolds (s : State) (p horizon : Nat) : Nat → GateAt → Bool
  | 0, _ => false
  | fuel + 1, g =>
    let isOpen := match g.list with
      | some n => (s.gateOf n g.entry).testBit p
      | none => true
    if isOpen = false then false
    else match g.next with
      | none => true
      | some t => if horizon < 100 * t then true else s.gateHolds p horizon fuel (s.gateStep g t)

/-- The tick at which a list staged by a launch accepted at `t` takes effect: the next one after its acceptance (R113). -/
def State.stagedTick (s : State) (t : Nat) : Nat :=
  if t < s.up + (s.period - s.offset) then s.tickTime + s.period else s.tickTime + 2 * s.period

/-- The acceptance of the launch of a staged list. -/
def State.stagedAt (s : State) (id : Nat) : Nat := ((s.findLaunch id).map (fun l => l.acceptAt)).getD 0

/-- The list that replaces a lane's next, with its tick. -/
def State.nextStaged (s : State) (l : Nat) : Option (Nat × Nat × Nat) :=
  (s.ethLane l).staged.head?.map (fun y => (s.stagedTick (s.stagedAt y.2.2), y.1, y.2.1))

/-- The place of a lane now. -/
def State.gateNow (s : State) (l : Nat) : GateAt :=
  let x := s.ethLane l
  match s.ethList l with
  | none => ⟨none, none, none, none, s.nextStaged l⟩
  | some n =>
    ⟨some n, x.entry, x.entry.map (fun k => x.entryAt + s.gateTime n k), s.nextCycle l, s.nextStaged l⟩

/-- GATE_ENTRY_ADVANCE (R387). -/
def execGateEntryAdvance (lane : Fin 4) (s : State) : Result :=
  let x := s.ethLane lane
  match s.ethList lane, x.entry with
  | some n, some k =>
    let t := x.entryAt + s.gateTime n k
    let cut : Bool := match s.nextCycle lane with | some r => decide (r ≤ t) | none => false
    if cut then .next s
    else
      let k' := (k + 1) % max 1 (s.get (L.ETH_GATE_LIST.COUNT n))
      .next ((s.elapseToNs t).setEthLane lane { x with entry := some k', entryAt := t })
  | _, _ => .next s

/-- GATE_CYCLE_RESTART (R387): at offset BASE of this frame. -/
def execGateCycleRestart (lane : Fin 4) (s : State) : Result :=
  let x := s.ethLane lane
  let t := s.tickTime + x.base
  match s.ethList lane with
  | some _ =>
    if s.ticking ∧ x.cycleOf ≠ some s.tickTime ∧ s.tb.ns ≤ t + 1 then
      .next ((s.elapseToNs t).setEthLane lane { x with entry := some 0, entryAt := t, cycleOf := some s.tickTime })
    else .next s
  | none => .next s

/-- The status that a gate-set launch earns when it is accepted (R113, R387). -/
def State.gateLaunchStatus (s : State) (l : Launch) : Nat :=
  let g (i : Nat) : Nat := (l.desc[i]?).getD 0
  if bits (g 1) 15 8 ≠ 0 ∨ 2 ^ 20 ≤ g 1 ∨ s.period ≤ g 2 ∨ g 3 ≠ 0 ∨ g 4 ≠ 0 ∨ g 5 ≠ 0 ∨ g 6 ≠ 0 ∨ g 7 ≠ 0 ∨
      s.listValid (g 1 % 256) = false then 1
  else 0

/-- The lanes of a gate-set launch. -/
def gateLanes (l : Launch) : List Nat := (onesBelow 4 (bits ((l.desc[1]?).getD 0) 19 16))

/-- A gate-set launch is staged (R113): an earlier launch for any of its lanes that the same tick awaits has none left. -/
def State.gateStage (s : State) (l : Launch) : State :=
  let ls := gateLanes l
  let tick := s.stagedTick l.acceptAt
  let lost := ls.flatMap (fun k =>
    ((s.ethLane k).staged.filter (fun y => s.stagedTick (s.stagedAt y.2.2) == tick)).map (fun y => y.2.2))
  let s := s.forAll (List.range 4) (fun s k =>
    s.setEthLane k { s.ethLane k with staged := (s.ethLane k).staged.filter (fun y => !lost.contains y.2.2) })
  let s := s.forAll ls (fun s k =>
    s.setEthLane k { s.ethLane k with
      staged := (s.ethLane k).staged ++ [(((l.desc[1]?).getD 0) % 256, (l.desc[2]?).getD 0, l.id)] })
  s.updateLaunch l.id (fun l => { l with started := true })

/-- The launch of a staged list was accepted before this instant. -/
def State.stagedDue (s : State) (id : Nat) : Bool :=
  match s.findLaunch id with
  | some l => decide (l.acceptAt < s.up)
  | none => true

/-- At a tick the lists staged before it take effect, and the launches that staged them complete (R113). -/
def State.ethTick (s : State) : State :=
  let done := s.launches.filter (fun l => l.target == 0x20 && l.started && l.status.isNone && decide (l.acceptAt < s.up))
  let s := s.forAll done (fun s l =>
    let won : Bool := (gateLanes l).isEmpty || (List.range 4).any (fun k => (s.ethLane k).staged.any (fun y => y.2.2 == l.id))
    s.endLaunch l.id (if won then 0 else 8))
  s.forAll (List.range 4) (fun s k =>
    let x := s.ethLane k
    match x.staged.find? (fun y => s.stagedDue y.2.2) with
    | none => s
    | some (n, b, id) =>
      let w := s.get L.ETH_STATUS.LIST
      let s := (s.put L.ETH_STATUS.LIST (w - w / 256 ^ k % 256 * 256 ^ k + n * 256 ^ k)).setBitOf L.ETH_STATUS.LIST_VALID k
      s.setEthLane k { x with base := b, entry := none, entryAt := 0, cycleOf := none, staged := x.staged.filter (fun y => y.2.2 != id) })

/-! ### Ethernet: transmission (R386) -/

/-- Time on the wire of a frame with preamble and interpacket gap, in 1/100 ns. -/
def State.wireTime (s : State) (l n : Nat) : Nat := (n + 20) * (if s.get (L.ETH_LANE_CFG.SPEED l) = 1 then 32 else 80)

/-- The first function that feeds a class on a lane with a whole packet, and the number of the packet's entries. -/
def State.txSource (s : State) (l p : Nat) : Option (Nat × Nat × Nat) :=
  (List.range 8).findSome? (fun f =>
    let q := s.get (L.ETH_FN_CFG.TXQ f) + p
    if (s.get (L.ETH_FN_CFG.LANES f)).testBit l ∧ s.ethFnOpen f ∧ s.ownerSealed (.queue q) = s.ownerSealed (.eth f) ∧
        viAllows (s.viOf (.eth f)) (s.viOf (.queue q)) then
      let h := s.headPacket q (s.qReach q) 0
      if h.2 then some (f, q, h.1) else none
    else none)

/-- The highest class with a packet that may leave now is served; a packet that is too long is discarded. -/
def State.txServe (s : State) (l : Nat) : Nat → State
  | 0 => s
  | p + 1 =>
    match s.txSource l p with
    | none => s.txServe l p
    | some (_, q, n) =>
      let r := s.takeEntries q n
      let bytes := r.2.flatMap (fun t => t.data.take t.bytes)
      if 9216 < bytes.length then r.1.inc (L.ETH_LANE_CNT.TX_BAD l)
      else if s.gateHolds p (100 * s.tb.ns + s.wireTime l bytes.length) 200 (s.gateNow l) then
        let s := (r.1.ethStamp l bytes).send (.ethFrame l p bytes)
        s.setEthLane l { s.ethLane l with txEnd := s.up + (s.wireTime l bytes.length + 99) / 100 }
      else s.txServe l p

/-- ETH_FRAME_TX (R386, R387): the lane is free. -/
def execEthFrameTx (lane : Fin 4) (s : State) : Result :=
  s.devCmd (fun s =>
    if s.ethUp lane ∧ (s.ethLane lane).txEnd ≤ s.up ∧ s.txIdle = false then .next (s.txServe lane 8) else .next s)

/-- AS_SYNC_TIMEOUT (R389): three sync intervals with no Sync. -/
def execAsSyncTimeout (lane : Fin 4) (s : State) : Result :=
  if s.get (L.ETH_LANE_CFG.AS_ROLE lane) = 2 then
    let s := s.elapseUntil ((s.ethLane lane).syncAt + 3 * s.syncInterval lane)
    .next ((s.setEthLane lane { s.ethLane lane with syncAt := s.up }).ethEvent L.ETH_EVT.AS_TMO)
  else .next s

/-- The link of a lane changes. -/
def State.ethLink (s : State) (l : Nat) (up : Bool) : State :=
  if (s.get L.ETH_STATUS.LINK).testBit l = up then s else (s.putBit L.ETH_STATUS.LINK l up).ethEvent L.ETH_EVT.LINK

/-- ETH_LINK_CHANGE (R384). -/
def execEthLinkChange (lane : Fin 4) (up : Bool) (s : State) : Result :=
  if up ∧ (s.get (L.ETH_LANE_CFG.EN lane) ≠ 1 ∨ s.txIdle) then .next s else .next (s.ethLink lane up)

/-! ### Management port (R390) -/

/-- MGT_FRAME (R390). -/
def execMgtFrame (toCores : Bool) (frame : List Nat) (s : State) : Result :=
  if s.get L.MGT_CFG.EN = 1 ∧ s.get L.MGT_STATUS.LINK = 1 then .next (s.send (.mgtFrame toCores frame)) else .next s

/-- MGT_LINK_CHANGE (R390, R394). -/
def execMgtLinkChange (up : Bool) (s : State) : Result :=
  if up ∧ (s.get L.MGT_CFG.EN ≠ 1 ∨ s.txIdle) then .next s else .next (s.put L.MGT_STATUS.LINK (if up then 1 else 0))

/-! ### Registers (R376, R392 to R394) -/

/-- A function's registers may be written: from the owning world, without a VI number (R392, R393). -/
def State.fnGuard (s : State) (r : Res) (log : Nat) (c : Issuer) (key : Nat) (f : State → State) : State :=
  if s.managerAccess r c then f (s.answer .ok) else s.worldError log (regAddr key) c

/-- A write of PCI_CFG (R376). -/
def State.writePciCfg (s : State) (c : Nat) (i : Issuer) (v : Nat) : State :=
  let bf := bits v 4 3
  let en := s.get (L.PCI_CFG.EN c)
  let key := R.PCI_CFG c
  if c = 0 ∧ bf = 3 then s.reservedEnc (pciLog c) key i
  else if c = 0 ∧ bf ≠ s.get (L.PCI_CFG.BIF 0) ∧ (s.get (L.PCI_CFG.EN 0) = 1 ∨ s.get (L.PCI_CFG.EN 1) = 1) then
    s.forbidden (pciLog c) key i
  else if en = 1 ∧ bits v 2 2 ≠ s.get (L.PCI_CFG.ROLE c) then s.forbidden (pciLog c) key i
  else
    let s := (s.put (L.PCI_CFG.CTO c) (max 50 (min 50000 (bits v 31 16)))).put (L.PCI_CFG.ROLE c) (bits v 2 2)
    let s := (if c = 0 then s.put (L.PCI_CFG.BIF 0) bf else s).put (L.PCI_CFG.EN c) (v % 2)
    s.when (v % 2 = 0) (fun s => s.pciAllDown c)

/-- A write of PCI_FN_CFG: with EN at 1 only EN changes (R392). -/
def State.writePciFn (s : State) (c k : Nat) (v : Nat) : State :=
  let s := s.when (s.get (L.PCI_FN_CFG.EN c k) = 0) (fun s =>
    (s.put (L.PCI_FN_CFG.BUS_HI c k) (bits v 31 24)).put (L.PCI_FN_CFG.BUS_LO c k) (bits v 23 16))
  s.put (L.PCI_FN_CFG.EN c k) (bits v 63 63)

/-- A write of a PCI_ register with a rule of its own; `k` is the function. -/
def State.writePci (s : State) (r : Reg) (c k : Nat) (i : Issuer) (v : Nat) : Option State :=
  match r with
  | .PCI_CFG => some (s.writePciCfg c i v)
  | .PCI_FN_CFG => some (s.writePciFn c k v)
  | _ => none

/-- A gate entry belongs to a list that is in force or staged on a lane (R387). -/
def State.gateInUse (s : State) (e : Nat) : Bool :=
  (List.range 4).any (fun l =>
    let has (n : Nat) : Bool :=
      decide (s.get (L.ETH_GATE_LIST.START n) ≤ e ∧ e < s.get (L.ETH_GATE_LIST.START n) + s.get (L.ETH_GATE_LIST.COUNT n))
    (s.ethList l).any has || (s.ethLane l).staged.any (fun y => has y.1))

/-- A write of ETH_LANE_CFG (R389, R393). -/
def State.writeLaneCfg (s : State) (l : Nat) (i : Issuer) (v : Nat) : State :=
  let role := bits v 7 6
  let key := R.ETH_LANE_CFG l
  if role = 3 ∨ bits v 5 4 = 3 then s.reservedEnc ethLog key i
  else if role = 2 ∧ (List.range 4).any (fun k => k != l && s.get (L.ETH_LANE_CFG.AS_ROLE k) == 2) then s.forbidden ethLog key i
  else
    let s := s.when (role = 2 ∧ s.get (L.ETH_LANE_CFG.AS_ROLE l) ≠ 2) (fun s => s.setEthLane l { s.ethLane l with syncAt := s.up })
    let s := (s.put (L.ETH_LANE_CFG.AS_ROLE l) role).put (L.ETH_LANE_CFG.FEC l) (bits v 5 4)
    let s := (s.put (L.ETH_LANE_CFG.SPEED l) (bits v 2 2)).put (L.ETH_LANE_CFG.EN l) (v % 2)
    s.when (v % 2 = 0) (fun s => s.ethLink l false)

/-- A write of an ETH_ register with a rule of its own. -/
def State.writeEth (s : State) (r : Reg) (n : Nat) (i : Issuer) (v : Nat) : Option State :=
  match r with
  | .ETH_LANE_CFG => some (s.writeLaneCfg n i v)
  | .ETH_FN_CFG =>
    if 4088 < bits v 27 16 ∨ 4088 < bits v 11 0 then some (s.reservedEnc ethLog (R.ETH_FN_CFG n) i) else none
  | .ETH_GATE_ENT => if s.gateInUse n then some (s.forbidden ethLog (R.ETH_GATE_ENT n) i) else none
  | _ => none

/-- A write of an MGT_ register with a rule of its own: a port that is switched off loses its link. -/
def State.writeMgt (s : State) (r : Reg) (v : Nat) : Option State :=
  match r with
  | .MGT_CFG =>
    some (((s.put L.MGT_CFG.SPEED (bits v 1 1)).put L.MGT_CFG.EN (v % 2)).when (v % 2 = 0) (fun s => s.put L.MGT_STATUS.LINK 0))
  | _ => none

end Sys2Proof.Machine
end

