-- ==== Sys2Proof/Machine/Fabric.lean ====
section
/-! DEFINITION. The fabric inbound and its management (12): training, flits in, packets, beacons, agreement, rings. -/

namespace Sys2Proof.Machine

/-! ### Failures at the requester (R313) -/

/-- A command of a queue engine ends its remote request with a status of Table 4.2. -/
def State.qeRemoteEnd (s : State) (e id : Nat) (status : Nat) : State :=
  match (s.qeOf e).cmds.find? (fun c => c.id == id) with
  | none => s
  | some x => s.setQCmd e (if status = 0 then { x with remote := false }
      else { x with remote := false, fin := true, status := if x.status = 0 then status else x.status })

/-- What a user sees of a failed request (Table 12.12). -/
def State.fabUserFails (s : State) (o : FabOpen) (status : Nat) (locally : Bool) : State :=
  match o.user with
  | .core _ (.store _) => s
  | .core _ _ => s.answer .accessFault
  | .qe e id => s.qeRemoteEnd e id 4
  | .launch id => s.updateLaunch id (fun l => { l with status := some (launchStatus status locally) })

/-- A posted write of a queue engine's COPY fails: its command ends with ACCESS (Table 12.12). -/
def State.fabPostedFails (s : State) (txn : Nat) : State :=
  match (List.range 8).findSome? (fun e => ((s.qeOf e).cmds.find? (fun c => c.posted.contains txn)).map (fun c => (e, c.id))) with
  | some (e, id) => s.qeRemoteEnd e id 4
  | none => s

/-- An open request has ended; one that waited takes its place (R312). -/
def State.fabEnd (s : State) (o : FabOpen) : State :=
  let s := (s.setFab { s.fab with opens := s.fab.opens.filter (fun x => x.pkt.txn != o.pkt.txn) }).fabCount
  match s.fab.later with
  | [] => s
  | w :: rest =>
    let s := s.setFab { s.fab with later := rest }
    let w := { w with sentAt := s.up }
    let r := s.fabSendReq w
    match r.2 with
    | some st => (r.1.fabFailed w.pkt st).fabUserFails w st r.1.quarantined
    | none => (r.1.setFab { r.1.fab with opens := r.1.fab.opens ++ [w] }).fabCount

/-! ### Answers (R293, R294) -/

/-- A response to a packet. -/
def fabRespond (p : FabPkt) (ptype status : Nat) (data : Bytes) : FabPkt :=
  { p with
    ptype := ptype, fvc := if p.fvc = 1 then 1 else 4, dst := p.src, src := p.dst, status := status, len := data.length,
    data := data, ackReq := false, rackReq := false, sync := false, offset := 0 }

/-- A packet that fails gets its status (R294). -/
def State.fabAnswer (s : State) (p : FabPkt) (status : Nat) : State :=
  let nak := { fabRespond p ptNAK status [] with fvc := 2, offset := p.ptype }
  if ptRdRsp ≤ p.ptype ∧ p.ptype ≤ ptNAK then s
  else if p.ptype = ptRD then (s.fabInject (fabRespond p ptRdRsp status [])).1
  else if p.ptype = ptATOM then (s.fabInject (fabRespond p ptAtomRsp status [])).1
  else if p.ackReq ∨ p.rackReq then
    let s := if p.rackReq ∧ status ≠ fsOverrun then (s.fabInject (fabRespond p ptRACK status [])).1 else s
    if p.ackReq then (s.fabInject (fabRespond p ptCMP status [])).1 else s
  else if status = fsOverrun then s
  else (s.fabInject nak).1

/-- A violation of the packet rules by a partner (R294, R432). -/
def State.fabViolation (s : State) (p : FabPkt) (status : Nat) : State :=
  let s := (s.inc L.FAB_CNT.PEER_VIOL).put L.FAB_NAK_LAST.STATUS status
  let s := (s.put L.FAB_NAK_LAST.PTYPE p.ptype).put L.FAB_NAK_LAST.SRC_ID p.src
  (s.logRec fabLog Cause.PARTNER status p.offset ⟨p.sealed, p.vi, p.gen, .device⟩ 0).fabEvent L.FAB_EVT.PEER_VIOL

/-- A packet that is no good (status MALFORMED of Table 12.10). -/
def fabMalformed (p : FabPkt) : Bool :=
  let req := decide (p.fvc = 1 ∨ p.fvc = 3)
  let rsp := decide (p.fvc = 1 ∨ p.fvc = 4)
  let mgmt := decide (p.fvc = 2)
  let atomLen := if p.aop = 9 then 16 else 8
  let ok : Bool :=
    if p.ptype = ptRD ∨ p.ptype = ptWR then req && decide (1 ≤ p.len ∧ p.len ≤ 256)
    else if p.ptype = ptATOM then
      req && decide (p.len = atomLen ∧ p.aop ≤ 9 ∧ p.offset % (if p.sz4 then 4 else 8) = 0)
    else if p.ptype = ptMSG then req && decide (1 ≤ p.len ∧ p.len ≤ 4096)
    else if p.ptype = ptRdRsp then rsp && decide (p.len ≤ 256)
    else if p.ptype = ptAtomRsp then rsp && decide (p.len = 8 ∨ (p.len = 0 ∧ p.status ≠ 0))
    else if p.ptype = ptCMP ∨ p.ptype = ptRACK then rsp && decide (p.len = 0)
    else if p.ptype = ptNAK then mgmt && decide (p.len = 0)
    else if p.ptype = ptDR then mgmt && decide (24 ≤ p.len ∧ p.len ≤ 216)
    else if p.ptype = ptMMSG then mgmt && decide (1 ≤ p.len ∧ p.len ≤ 192)
    else false
  p.reservedBad || !ok

/-- A packet has come in whole on a port (R294, R295, R304); the place of its last flit stays taken while it waits. -/
def State.fabTake (s : State) (n : Nat) (p : FabPkt) : State :=
  let free := s.fabFreed n p.fvc
  if s.get L.FAB_ID.ID_VALID = 0 ∧ p.ptype ≠ ptDR then free
  else if fabMalformed p then (free.fabViolation p fsMalformed).fabAnswer p fsMalformed
  else if p.fvc ≠ 2 ∧ (s.get (L.FAB_P_STATUS.PARTNER_QUAR n) = 1 ∨ s.quarantined) then free.fabAnswer p fsQuarantine
  else s.setFab { s.fab with inbox := s.fab.inbox ++ [(n, p)] }

/-! ### Ports (R284, R285, R290) -/

/-- A request of this device or a packet in transit cannot leave: the outcome of R313 for its user, or the answer of R294. -/
def State.fabStopped (s : State) (w : FabWait) (st : Nat) : State :=
  let p := w.pkt
  if p.src ≠ s.fabId ∨ (ptRdRsp ≤ p.ptype ∧ p.ptype ≤ ptNAK) then s.fabAnswer p st
  else match s.fab.opens.find? (fun o => o.pkt.txn == p.txn && o.pkt.ptype == p.ptype && o.pkt.dst == p.dst), w.launch with
    | some o, _ => ((s.fabFailed o.pkt st).fabUserFails o st s.quarantined).fabEnd o
    | none, some id => (s.fabFailed p st).endLaunch id (if launchStatus st s.quarantined = 7 then 4 else launchStatus st s.quarantined)
    | none, none => (s.fabFailed p st).when (p.ptype = ptWR) (fun s => s.fabPostedFails p.txn)

/-- A packet is still whole at its port. -/
def FabWait.whole (w : FabWait) : Bool := w.left == fabFlits w.pkt

/-- Packets queued at a port that is no longer UP are looked up again in order (R296); a DR packet has only the port of its
path, and a launched send only port n (R299, R314). Launched sends that wait for a place or for their RACK there end with
PARTNER_LOST; one without ACK ends with ACCESS: R109 lets it report PARTNER_LOST only at its acceptance (DESIGN CHOICE, log
entry 148). -/
def State.fabRequeue (s : State) (n : Nat) : State :=
  let gone := s.fab.opens.filter (fun o => o.port == some n)
  let held := s.fab.later.filter (fun o => o.port == some n)
  let x := s.fabPort n
  let mine (w : FabWait) : Bool := w.launch.isSome && gone.any (fun o => o.pkt.txn == w.pkt.txn)
  let moved := x.wait.filter (fun w => w.whole && !mine w)
  let s := s.setFabPort n { x with wait := x.wait.filter (fun w => !w.whole) }
  let s := s.setFab { s.fab with later := s.fab.later.filter (fun o => o.port != some n) }
  let s := s.forAll held (fun s o => (s.fabFailed o.pkt fsNoRoute).fabUserFails o fsNoRoute true)
  let s := s.forAll gone (fun s o => ((s.fabFailed o.pkt fsNoRoute).fabUserFails o fsNoRoute true).fabEnd o)
  s.forAll moved (fun s w =>
    if w.launch.isSome ∨ w.pkt.ptype = ptDR then s.fabStopped w fsNoRoute
    else
      let r := s.fabRoute w.arr w.pkt
      match r.2 with
      | none => r.1
      | some st => r.1.fabStopped w st)

/-- Packets of which no flit has left and that may no longer leave by their ports are refused there, or, where only the partner
is quarantined, looked up again (R295, R296, R304, R305). -/
def State.fabRejudge (s : State) : State :=
  s.forAll (List.range 8) (fun s n =>
    let x := s.fabPort n
    let bad (w : FabWait) : Bool := w.whole && (s.fabBarred n w.pkt).isSome
    let t := s.setFabPort n { x with wait := x.wait.filter (fun w => !bad w) }
    t.forAll (x.wait.filter bad) (fun t w =>
      let st := (s.fabBarred n w.pkt).getD 0
      if st = fsQuarantine ∧ t.quarantined = false ∧ w.launch = none then
        let r := t.fabRoute w.arr w.pkt
        match r.2 with
        | none => r.1
        | some st => r.1.fabStopped w st
      else t.fabStopped w st))

/-- A port takes a state; leaving UP ends its use in the same nanosecond. -/
def State.setPort (s : State) (n st : Nat) : State :=
  let was := s.portState n
  let s := s.put (L.FAB_P_STATUS.STATE n) st
  if was = portUpSt ∧ st ≠ portUpSt then
    let s := (s.put (L.FAB_P_STATUS.BEACON_SEEN n) 0).timePortDown n
    let s := s.when (st = portTrain) (fun s => s.fabPortEvent n (L.FAB_P_EVT.RETRAIN n))
    s.fabRequeue n
  else s

/-- The TRAIN payload that this device sends (Table 12.5). -/
def State.myTrain (s : State) (n : Nat) : FabTrain :=
  let m := s.get (L.FAB_P_CFG.MODE n)
  { verMaj := 1, verMin := 0, modes := ([0, 1, 2].filter (fun k => decide (m ≤ k))).foldl (fun a k => a + 2 ^ k) 0,
    idValid := s.get L.FAB_ID.ID_VALID = 1, id := s.fabId, resume := (s.fabPort n).rxLast,
    serial := (s.rd R.TB_SERIAL).toNat, credits := [16, 8, 64, 64] }

/-- A port leaves UP to train again, electrically first (R284): its lanes report with the next PORT_SIGNAL_DETECT. -/
def State.fabRetrain (s : State) (n : Nat) : State :=
  let s := s.setPort n portTrain
  s.setFabPort n { s.fabPort n with elecOk := false }

/-- PORT_SIGNAL_DETECT (R284). -/
def execPortSignalDetect (port : Fin 8) (fail : Fin 16) (s : State) : Result :=
  let n := port.val
  if s.txIdle then .next s
  else if s.portState n = portIdle ∨ (s.portState n = portTrain ∧ (s.fabPort n).elecOk = false) then
    let s := s.put (L.FAB_P_STATUS.STATE n) portTrain
    let half : Bool := fail.val % 4 == 0 || fail.val / 4 == 0
    let ok : Bool := fail.val == 0 || (half && s.get (L.FAB_P_CFG.X2_OK n) == 1)
    let s := s.setFabPort n { s.fabPort n with elecOk := ok }
    if ok then
      let s := s.put (L.FAB_P_STATUS.WIDTH n) (if fail.val = 0 then 1 else 2)
      let s := s.when (fail.val ≠ 0) (fun s => s.fabPortEvent n (L.FAB_P_EVT.WIDTH n))
      .next (s.send (.fabTrain n (s.myTrain n)))
    else .next s
  else .next s

/-- What the sender does with its unacknowledged flits when an exchange is accepted (R290): they are sent again, or they and
the rest of their packet are gone; a launched send without ACK that is so cut off ends with ACCESS (log entry 148). -/
def State.fabResume (s : State) (n : Nat) (t : FabTrain) (sameSerial : Bool) : State :=
  let x := s.fabPort n
  match if sameSerial then t.resume else none with
  | some r =>
    let rest := match x.replay.findIdx? (fun e => e.1 == r) with
      | some i => x.replay.drop (i + 1)
      | none => x.replay
    let again := (List.range rest.length).zip rest |>.map (fun p => (p.1 % 4096, p.2.2))
    let s := s.setFabPort n { x with
      txSeq := rest.length % 4096, replay := again, credit := (List.range 4).map (fun k =>
        ((t.credits[k]?).getD 0) - (again.filter (fun e => e.2.1 == k + 1)).length) }
    s.forAll again (fun s e => s.send (.fabFlit n e.1 e.2.1 e.2.2 none [0, 0, 0, 0]))
  | none =>
    let s := (s.setFabPort n { x with
      txSeq := 0, replay := [], credit := t.credits
      wait := x.wait.filter FabWait.whole }).addSat (L.FAB_P_CNT2.LOST_FLITS n) x.replay.length
    s.forAll (x.wait.filter (fun w => !w.whole)) (fun s w =>
      match w.launch with
      | some id => if w.pkt.rackReq then s else (s.fabFailed w.pkt fsNoRoute).endLaunch id 0x04
      | none => s)

/-- FAB_TRAIN_FLIT (R290). -/
def execFabTrainFlit (port : Fin 8) (t : FabTrain) (s : State) : Result :=
  let n := port.val
  let st := s.portState n
  if (st = portTrain ∧ (s.fabPort n).elecOk) ∨ st = portHeld then
    let same : Bool := s.get (L.FAB_P_PEER.SERIAL n) == t.serial
    let s := ((s.put (L.FAB_P_PEER.SERIAL n) t.serial).put (L.FAB_P_PEER_VER.VER_MAJ n) t.verMaj).put
      (L.FAB_P_PEER_VER.VER_MIN n) t.verMin
    let s := (s.put (L.FAB_P_STATUS.PARTNER_ID n) t.id).put (L.FAB_P_STATUS.PARTNER_ID_VALID n) (if t.idValid then 1 else 0)
    if t.verMaj ≠ 1 then
      .next (if st = portHeld then s
        else ((s.setFabPort n { s.fabPort n with trainSentAt := s.up }).setPort n portHeld).fabPortEvent n (L.FAB_P_EVT.VERSION n))
    else match [0, 1, 2].find? (fun m => decide (s.get (L.FAB_P_CFG.MODE n) ≤ m) && t.modes.testBit m) with
      | none => .next s
      | some m =>
        let s := s.fabResume n t same
        let s := s.setFabPort n { s.fabPort n with
          rxSeq := 0, rxFail := none, rxLast := none, beaconAt := s.up, starve := 0
          room := fabDepth, owed := [0, 0, 0, 0], ackDue := false }
        let s := (s.put (L.FAB_P_STATUS.MODE n) m).put (L.FAB_P_STATUS.BEACON_SEEN n) 0
        .next (((s.setPort n portUpSt).fabPortEvent n (L.FAB_P_EVT.UP n)).fabPump n 512)
  else .next s

/-- HELD_TRAIN_SEND (R284). -/
def execHeldTrainSend (port : Fin 8) (s : State) : Result :=
  let n := port.val
  if s.portState n = portHeld then
    let s := s.elapseUntil ((s.fabPort n).trainSentAt + 1000000)
    .next (if s.txIdle then s
      else (s.setFabPort n { s.fabPort n with trainSentAt := s.up }).send (.fabTrain n (s.myTrain n)))
  else .next s

/-- The partner of a port is declared lost (R285, R300). -/
def State.partnerLost (s : State) (n : Nat) (l : Loc) : State :=
  let s := (s.inc (L.FAB_P_CNT2.LOSS n)).fabPortEvent n l
  (s.logRec (fabPortLog n) Cause.LINK l.lo (regAddr (R.FAB_P_STATUS n)) (unitIssuer true) 0).fabPortEvent n
    (L.FAB_P_EVT.PARTNER_LOST n)

/-- FAB_LOS (R285). -/
def execFabLos (port : Fin 8) (s : State) : Result :=
  let n := port.val
  if s.portState n = portUpSt ∨ s.portState n = portTrain ∨ s.portState n = portHeld then
    let s := (s.setPort n portIdle).timePortLost n
    .next ((s.setFabPort n { s.fabPort n with elecOk := false }).partnerLost n (L.FAB_P_EVT.LOS n))
  else .next s

/-! ### Flits in (R286 to R289) -/

/-- What a flit acknowledges and the credits it returns. -/
def State.fabAck (s : State) (n : Nat) (f : FabFlit) : State :=
  let x := s.fabPort n
  let replay := match f.ack with
    | none => x.replay
    | some a =>
      match x.replay.findIdx? (fun e => e.1 == a.val) with
      | some i => x.replay.drop (i + 1)
      | none => x.replay
  let credit := (List.range 4).map (fun k => (x.credit[k]?).getD 0 + (f.credit[k]?).getD 0)
  s.setFabPort n { x with replay := replay, credit := credit }

/-- A link violation by the partner (R289). -/
def State.fabLinkViolation (s : State) (n code : Nat) (f : FabFlit) : State :=
  let s := (s.inc (L.FAB_P_CNT.LNAK n)).send (.fabLnak n code f.seq)
  (s.logRec (fabPortLog n) Cause.PARTNER code 0 (unitIssuer true) 0).fabPortEvent n (L.FAB_P_EVT.PEER_VIOL n)

/-- Places that the partner may still fill in the receive buffer of a channel; an undefined channel has none. -/
def FabPort.places (x : FabPort) (fvc : Nat) : Nat := if fvc = 0 then 0 else (x.room[fvc - 1]?).getD 0

/-- FEC corrections count (R288); a flit with a good CRC is judged before it is used (R289): a PKT flit in its turn needs a
place in the buffer of its channel. -/
def State.fabFlitIn (s : State) (n : Nat) (f : FabFlit) (ok : State → State) : Result :=
  let s := if s.portState n = portUpSt then s.addSat (L.FAB_P_CNT2.FEC_CORR n) f.fec else s
  if s.portState n ≠ portUpSt then .next s
  else if f.crcBad then
    let s := s.inc (L.FAB_P_CNT.CRC_ERR n)
    if f.kind.val = 1 then
      let x := s.fabPort n
      if x.rxFail.isSome ∧ f.seq.val ≠ x.rxSeq then .next s
      else if x.rxFail = some x.rxSeq then .next ((s.setFabPort n { x with rxFail := none }).fabRetrain n)
      else .next ((s.setFabPort n { x with rxFail := some x.rxSeq }).send (.fabLnak n 0 x.rxSeq))
    else .next s
  else if 5 < f.kind.val ∨ f.reservedBad then .next (s.fabLinkViolation n 0x01 f)
  else if f.kind.val = 1 ∧ f.seq.val = (s.fabPort n).rxSeq ∧ (s.fabPort n).places f.fvc = 0 then
    .next (s.fabLinkViolation n 0x02 f)
  else .next ((ok (s.fabAck n f)).fabFlow n)

/-- FAB_PKT_FLIT (R287, R288): a flit in its turn takes a place of its channel's buffer; one that ends no packet moves on at
once (DESIGN CHOICE, log entry 201). -/
def execFabPktFlit (port : Fin 8) (f : FabFlit) (s : State) : Result :=
  let n := port.val
  s.fabFlitIn n f (fun s =>
    let x := s.fabPort n
    if f.kind.val ≠ 1 ∨ f.seq.val ≠ x.rxSeq then s
    else
      let s := s.setFabPort n { x with
        rxSeq := (x.rxSeq + 1) % 4096, rxFail := none, rxLast := some x.rxSeq, ackDue := true
        room := x.room.set (f.fvc - 1) (x.places f.fvc - 1) }
      match f.pkt with
      | some p => s.fabTake n p
      | none => s.fabFreed n f.fvc)

/-- FAB_IDLE_FLIT (R286). -/
def execFabIdleFlit (port : Fin 8) (f : FabFlit) (s : State) : Result := s.fabFlitIn port f (fun s => s)

/-- FAB_LNAK (R288): with code 0x00 the sender resends from the refused flit. -/
def execFabLnak (port : Fin 8) (code : Nat) (seq : Fin 4096) (s : State) : Result :=
  let n := port.val
  if s.portState n = portUpSt ∧ code = 0 then
    match (s.fabPort n).replay.findIdx? (fun e => e.1 == seq.val) with
    | none => .next s
    | some i =>
      .next (((s.inc (L.FAB_P_CNT.REPLAY n)).pmc uFP n 2 1 true none).forAll ((s.fabPort n).replay.drop i) (fun s e => s.send (.fabFlit n e.1 e.2.1 e.2.2 none [0, 0, 0, 0])))
  else .next s

/-! ### Packets (R296, R305 to R311) -/

/-- The oldest packet of a channel that came in on a port (8: this device's own). -/
def State.fabHead (s : State) (port fvc : Nat) : Option FabPkt :=
  (s.fab.inbox.find? (fun e => e.1 == port && e.2.fvc == fvc)).map (fun e => e.2)

/-- That packet is taken, and the place of its last flit is free. -/
def State.fabDrop (s : State) (port : Nat) (p : FabPkt) : State :=
  let s := s.setFab { s.fab with inbox := s.fab.inbox.erase (port, p) }
  if port < 8 then (s.fabFreed port p.fvc).fabFlow port else s

/-- A WR, ATOM or MSG for this device. -/
def State.fabActs (s : State) (p : FabPkt) : Bool := (p.ptype == ptWR || p.ptype == ptATOM || p.ptype == ptMSG) && p.dst == s.fabId

/-- A request of the same source and channel that came in earlier, on whatever port, is still to be performed (R309). -/
def State.fabEarlier (s : State) (port : Nat) (p : FabPkt) : Bool :=
  (p.ptype == ptRD || s.fabActs p) &&
    (s.fab.inbox.takeWhile (fun e => e != (port, p))).any (fun e => e.2.src == p.src && e.2.fvc == p.fvc && s.fabActs e.2)

/-- The oldest packet of the channel, if it is of a type and for this device, is handled in its turn; a device without an
identifier serves DR packets only (R295). -/
def State.fabHandle (s : State) (port fvc ptype : Nat) (f : State → FabPkt → State) : Result :=
  match s.fabHead port fvc with
  | none => .next s
  | some p =>
    if s.get L.FAB_ID.ID_VALID = 0 ∧ p.ptype ≠ ptDR then .next (s.fabDrop port p)
    else if p.ptype = ptype ∧ (p.dst = s.fabId ∨ ptype = ptDR) ∧ s.fabEarlier port p = false then .next (f (s.fabDrop port p) p)
    else .next s

/-- FAB_FORWARD (R296, R305). -/
def execFabForward (port : Fin 9) (fvc : Fin 5) (s : State) : Result :=
  match s.fabHead port fvc with
  | none => .next s
  | some p =>
    if p.dst = s.fabId ∨ p.ptype = ptDR then .next s
    else
      let s := s.fabDrop port p
      let q := { p with hops := p.hops - 1 }
      if s.get L.FAB_ID.ID_VALID = 0 then .next s
      else if q.hops = 0 then .next (s.fabAnswer p fsTtl)
      else
        let r := s.fabRoute (some port.val) q
        match r.2 with
        | none => .next r.1
        | some st => .next (r.1.fabAnswer p st)

/-- The checks of R305 and R307, steps 1 and 2: the tags and the device address, or a status. -/
def State.fabInbound (s : State) (port : Nat) (p : FabPkt) (ok : Nat → Loc) : (Issuer × Nat) ⊕ Nat :=
  let a := p.offset / 0x10000000 % 16
  let sealed : Bool := p.sealed && !(port < 8 && s.get (L.FAB_P_CFG.OPEN_ONLY port) == 1)
  let n := if p.ptype = ptATOM then (if p.sz4 then 4 else 8) else p.len
  if p.sync ∧ s.get L.TB_STATUS.SYNC_OK = 0 then .inr fsExcluded
  else if s.get (L.FAB_APT.EN a) = 0 ∨ s.get (ok a) = 0 ∨ 0x10000000 < p.offset % 0x10000000 + n then .inr fsAperture
  else if sealed ≠ (s.get (L.FAB_APT.WORLD a) = 1) then .inr fsWorld
  else .inl (s.tags sealed (s.viField (L.FAB_APT.VI_VALID a) (L.FAB_APT.VI a)),
    s.get (L.FAB_APT.BASE a) * 0x10000000 + p.offset % 0x10000000)

/-- FAB_RD (R307). -/
def execFabRd (port : Fin 9) (fvc : Fin 5) (s : State) : Result :=
  s.devCmd (fun s =>
    s.fabHandle port fvc ptRD (fun s p =>
      match s.fabInbound port p L.FAB_APT.RD_OK with
      | .inr st => s.fabAnswer p st
      | .inl (c, a) =>
        let r := s.ioRead (rsvSrc fabSrc (fvc.val == 1)) c a p.len
        if r.2.err ∨ r.2.poison then r.1.fabAnswer p fsAccess else (r.1.fabInject (fabRespond p ptRdRsp 0 r.2.data)).1))

/-- FAB_WR (R307, R309). -/
def execFabWr (port : Fin 9) (fvc : Fin 5) (s : State) : Result :=
  s.devCmd (fun s =>
    s.fabHandle port fvc ptWR (fun s p =>
      match s.fabInbound port p L.FAB_APT.WR_OK with
      | .inr st => s.fabAnswer p st
      | .inl (c, a) =>
        let r := s.store (rsvSrc fabSrc (fvc.val == 1)) c a (p.data.take p.len) false
        if r.2 = false then r.1.fabAnswer p fsAccess
        else
          let s := if p.rackReq then (r.1.fabInject (fabRespond p ptRACK 0 [])).1 else r.1
          if p.ackReq then (s.fabInject (fabRespond p ptCMP 0 [])).1 else s))

/-- The result of an atomic of the fabric (R310) in `w` bits. -/
def fabAtomic (aop w old v cmp : Nat) : Nat :=
  let m := 2 ^ w
  let o := old % m
  let x := v % m
  if aop = 0 then x else if aop = 1 then (o + x) % m else if aop = 2 then o &&& x else if aop = 3 then o ||| x
  else if aop = 4 then o ^^^ x
  else if aop = 5 then (if signedOf w o < signedOf w x then x else o)
  else if aop = 6 then (if signedOf w x < signedOf w o then x else o)
  else if aop = 7 then max o x else if aop = 8 then min o x
  else if o = cmp % m then x else o

/-- FAB_ATOM (R310). -/
def execFabAtom (port : Fin 9) (fvc : Fin 5) (s : State) : Result :=
  s.devCmd (fun s =>
    s.fabHandle port fvc ptATOM (fun s p =>
      match s.fabInbound port p L.FAB_APT.ATOM_OK with
      | .inr st => s.fabAnswer p st
      | .inl (c, a) =>
        let n := if p.sz4 then 4 else 8
        let r := s.ioRead (rsvSrc fabSrc (fvc.val == 1)) c a n
        if r.2.err ∨ r.2.poison then r.1.fabAnswer p fsAccess
        else
          let old := ofBytesLE r.2.data
          let v := fabAtomic p.aop (8 * n) old (ofBytesLE (p.data.take 8)) (ofBytesLE ((p.data.drop 8).take 8))
          let w := r.1.store (rsvSrc fabSrc (fvc.val == 1)) c a (bytesLE n v) false
          if w.2 = false then w.1.fabAnswer p fsAccess else (w.1.fabInject (fabRespond p ptAtomRsp 0 (bytesLE 8 old))).1))

/-- FAB_MSG (R307, R311, R314): its device address is translated as a write's is, and nothing is written there. -/
def execFabMsg (port : Fin 9) (fvc : Fin 5) (s : State) : Result :=
  s.devCmd (fun s =>
    s.fabHandle port fvc ptMSG (fun s p =>
      match s.fabInbound port p L.FAB_APT.MSG_OK with
      | .inr st => s.fabAnswer p st
      | .inl (c, a) =>
        let t := s.ioPages (rsvSrc fabSrc (fvc.val == 1)) c (pagePieces (p.len / 0x1000 + 2) a p.len)
        let s := t.1
        if t.2 = none then s.fabAnswer p fsAccess
        else if s.ownerSealed (.queue p.queue) ≠ c.sealed then s.fabAnswer p fsWorld
        else if viAllows c.vi (s.viOf (.queue p.queue)) = false then s.fabAnswer p fsVi
        else
          let s := if p.rackReq then (s.fabInject (fabRespond p ptRACK 0 [])).1 else s
          let r := s.qArrive p.queue (0x2000 + p.src) p.len (p.data.take p.len)
          if p.ackReq then (r.1.fabInject (fabRespond p ptCMP (if r.2 then 0 else fsOverrun) [])).1 else r.1))

/-! ### Responses (R312, R313) -/

/-- A response without a request (R294, R312). -/
def State.fabNoRequest (s : State) (p : FabPkt) : State :=
  let s := s.inc L.FAB_CNT.LATE
  if s.fab.timedOut.contains p.txn then s.setFab { s.fab with timedOut := s.fab.timedOut.erase p.txn }
  else s.fabViolation p fsUnexpected

/-- A response ends its open request: discarded if the generation is old, else a failure, or `f` (R274, R312, R313). -/
def State.fabResponse (s : State) (p : FabPkt) (kinds : List Nat) (f : State → FabOpen → State) : State :=
  match s.fab.opens.find? (fun o => o.pkt.txn == p.txn && o.pkt.dst == p.src && kinds.contains o.pkt.ptype) with
  | none => s.fabNoRequest p
  | some o =>
    let s := s.fabEnd o
    let c : Issuer := ⟨o.pkt.sealed, o.pkt.vi, o.pkt.gen, .device⟩
    if s.stale c then s.lateDiscard (c.vi.getD 0)
    else if p.status ≠ 0 then (s.fabFailed o.pkt p.status).fabUserFails o p.status false
    else f s o

/-- FAB_RD_RSP (R312). -/
def execFabRdRsp (port : Fin 9) (fvc : Fin 5) (s : State) : Result :=
  s.devCmd (fun s =>
    s.fabHandle port fvc ptRdRsp (fun s p => s.fabResponse p [ptRD] (fun s o =>
      match o.user with
      | .core _ _ => s.answer (.data (BitVec.ofNat 64 (ofBytesLE (p.data.take 8))))
      | .qe e id =>
        (match (s.qeOf e).cmds.find? (fun c => c.id == id) with
         | some x =>
           let r := s.copyOut e x p.data false
           r.1.setQCmd e r.2
         | none => s)
      | .launch _ => s)))

/-- FAB_CMP (R312): a store of a core has been performed, or the last packet of a COPY. -/
def execFabCmp (port : Fin 9) (fvc : Fin 5) (s : State) : Result :=
  s.fabHandle port fvc ptCMP (fun s p => s.fabResponse p [ptWR, ptMSG] (fun s o =>
    match o.user with
    | .qe e id => s.qeRemoteEnd e id 0
    | _ => s))

/-- FAB_ATOM_RSP (R312). -/
def execFabAtomRsp (port : Fin 9) (fvc : Fin 5) (s : State) : Result :=
  s.fabHandle port fvc ptAtomRsp (fun s p => s.fabResponse p [ptATOM] (fun s o =>
    let old := ofBytesLE (p.data.take 8)
    s.answer (.data (if o.pkt.sz4 then amoResult 32 old else BitVec.ofNat 64 old))))

/-- FAB_RACK (R314). -/
def execFabRack (port : Fin 9) (fvc : Fin 5) (s : State) : Result :=
  s.fabHandle port fvc ptRACK (fun s p => s.fabResponse p [ptWR, ptMSG] (fun s o =>
    match o.user with
    | .launch id => s.updateLaunch id (fun l => { l with status := some 0 })
    | _ => s))

/-- FAB_NAK (R294, R313): a failure status for a request that has no answer; it ends the COPY that posted it. -/
def execFabNak (port : Fin 9) (fvc : Fin 5) (s : State) : Result :=
  s.fabHandle port fvc ptNAK (fun s p =>
    let s := (s.put L.FAB_NAK_LAST.STATUS p.status).put L.FAB_NAK_LAST.PTYPE (p.offset % 256)
    let s := (s.put L.FAB_NAK_LAST.SRC_ID p.src).fabEvent L.FAB_EVT.NAK
    (s.fabFailed { p with dst := p.src, offset := 0 } p.status).when (p.offset % 256 = ptWR) (fun s => s.fabPostedFails p.txn))

/-- FAB_REQUEST_TIMEOUT (R312, R313). -/
def execFabRequestTimeout (txn : Nat) (s : State) : Result :=
  match s.fab.opens.find? (fun o => o.pkt.txn == txn) with
  | none => .next s
  | some o =>
    let s := s.elapseUntil (o.sentAt + 1000 * s.get L.FAB_CFG.TMO)
    let s := (s.inc L.FAB_CNT.TIMEOUT).fabEvent L.FAB_EVT.TIMEOUT
    let p := o.pkt
    let s := s.logRec fabLog Cause.TIMEOUT 0x01 (0x400000000000 + (p.dst <<< 32) + p.offset) ⟨p.sealed, p.vi, p.gen, .device⟩ 0
    let s := (s.fabEvent L.FAB_EVT.REMOTE_ERR).setFab { s.fab with timedOut := txn :: s.fab.timedOut }
    .next ((s.fabUserFails o fsNoRoute false).fabEnd o)

/-! ### Accesses of cores (R306, R308) -/

/-- The AOP code of an AMO. -/
def aopOf : AmoOp → Nat
  | .swap => 0 | .add => 1 | .and => 2 | .or => 3 | .xor => 4 | .max => 5 | .min => 6 | .maxu => 7 | .minu => 8

/-- An access of a core that must be naturally aligned. -/
def remoteOk (off : Nat) : RemoteKind → Bool
  | .load n => [1, 2, 4, 8].contains n && off % n == 0
  | .store b => [1, 2, 4, 8].contains b.length && off % b.length == 0
  | .amo _ w _ => off % (if w then 8 else 4) == 0
  | .lrsc | .fetch => false

/-- An access to the fabric remote window (R306, R308). -/
def State.remoteDo (s : State) (c : Issuer) (addr : PAddr) (k : RemoteKind) (reserved : Bool) : State :=
  let a := addr.toNat
  let off := a % 2 ^ 32
  let dst := a / 2 ^ 32 % 2 ^ 14
  let fv := if reserved then 1 else 3
  if a < 0x400000000000 ∨ 0x800000000000 ≤ a ∨ remoteOk off k = false then s.answer .accessFault
  else
    let p := match k with
      | .load n => fabPacket c ptRD fv dst off n []
      | .store b => { fabPacket c ptWR fv dst off b.length b with ackReq := true }
      | .amo op w v =>
        { fabPacket c ptATOM fv dst off 8 (bytesLE 8 (if w then v.toNat else v.toNat % 2 ^ 32)) with aop := aopOf op, sz4 := !w }
      | _ => default
    let s := s.answer .ok
    let r := s.fabRequest ⟨{ p with rsv := reserved }, .core c.agent k, none, 0⟩
    match r.2 with
    | none => r.1
    | some _ =>
      match k with
      | .store _ => r.1
      | _ => (r.1.answer .accessFault)

/-- REMOTE_ACCESS (R306, R308); a hart's loads, stores and AMOs are of the reserved class inside its windows (R127). -/
def execRemoteAccess (c : Issuer) (addr : PAddr) (k : RemoteKind) (reserved : Bool) (s : State) : Result :=
  if s.agentIn c then
    let covered : Bool := match c.agent, k with
      | .hart _, .load _ | .hart _, .store _ | .hart _, .amo _ _ _ => s.reservedFor c addr.toNat
      | .hart _, _ => false
      | _, _ => reserved
    .next (if s.pmpStops c addr.toNat (remotePmp k).1 (remotePmp k).2 then s.answer .accessFault
      else s.remoteDo (s.tagged c) addr k covered)
  else .next s

/-! ### Management rings (R299) -/

/-- An entry is delivered to the receive ring, or refused for want of room. -/
def State.fabDeliver (s : State) (p : FabPkt) (entry : Bytes) : State :=
  let prod := s.get L.FAB_MRX_IDX.PROD
  let k := s.get L.FAB_MRX_RING.LOG2N
  if 2 ^ k ≤ wrapSub 16 prod (s.get L.FAB_MRX_IDX.CONS) then s.fabAnswer p fsAccess
  else
    let w := s.physWrite fabSrc (unitIssuer true) (0x1000 * s.get L.FAB_MRX_RING.BASE + 256 * (prod % 2 ^ k))
      (entry ++ List.replicate (256 - entry.length) 0)
    let s := (w.1.put L.FAB_MRX_IDX.PROD (prod + 1)).fabEvent L.FAB_EVT.MGMT_RX
    if s.get L.FAB_MSI.EN = 1 then s.sendMsi fabSrc (unitIssuer true) (4 * s.get L.FAB_MSI.ADDR) (s.get L.FAB_MSI.DATA) else s

/-- FAB_DR (R299): the arrival port is recorded, and the packet is delivered or sent on. -/
def execFabDr (port : Fin 9) (fvc : Fin 5) (s : State) : Result :=
  s.devCmd (fun s =>
    s.fabHandle port fvc ptDR (fun s p =>
      let w0 := ofBytesLE (p.data.take 8)
      let path := ofBytesLE ((p.data.drop 8).take 8)
      let rpath := ofBytesLE ((p.data.drop 16).take 8)
      let hops := bits w0 36 32
      let ptr := bits w0 41 37
      let rpath := rpath - (bits rpath (3 * ptr + 2) (3 * ptr) <<< (3 * ptr)) + ((port.val % 8) <<< (3 * ptr))
      let w0 := w0 - (ptr <<< 37) + (((ptr + 1) % 32) <<< 37)
      let body := p.data.drop 24
      if ptr + 1 = hops then
        let w0 := w0 % 2 ^ 42 - (bits w0 30 16 <<< 16) + (p.src <<< 16) +
          (if s.get (L.FAB_P_STATUS.PARTNER_ID_VALID (port.val % 8)) = 1 then 1 <<< 30 else 0)
        s.fabDeliver p (bytesLE 8 w0 ++ bytesLE 8 path ++ bytesLE 8 rpath ++ List.replicate 40 0 ++ body)
      else
        let n := bits path (3 * (ptr + 1) + 2) (3 * (ptr + 1))
        if s.portState n = portUpSt then
          s.fabQueue n (some port.val) { p with data := bytesLE 8 w0 ++ bytesLE 8 path ++ bytesLE 8 rpath ++ body } none
        else s.fabAnswer p fsNoRoute))

/-- FAB_MMSG (R299). -/
def execFabMmsg (port : Fin 9) (fvc : Fin 5) (s : State) : Result :=
  s.devCmd (fun s =>
    s.fabHandle port fvc ptMMSG (fun s p =>
      let w0 := ptMMSG + (p.len <<< 8) + (p.src <<< 16) + (1 <<< 30)
      s.fabDeliver p (bytesLE 8 w0 ++ List.replicate 56 0 ++ p.data.take p.len)))

/-- One entry of the transmit ring leaves. -/
def State.mtxEntry (s : State) (i : Nat) : State :=
  let k := s.get L.FAB_MTX_RING.LOG2N
  let r := s.physRead fabSrc (unitIssuer true) (0x1000 * s.get L.FAB_MTX_RING.BASE + 256 * (i % 2 ^ k)) 256
  let s := r.1.put L.FAB_MTX_IDX.CONS (i + 1)
  let d := r.2.data
  let w0 := ofBytesLE (d.take 8)
  let kind := w0 % 256
  let len := bits w0 15 8
  let body := (d.drop 64).take len
  if r.2.err ∨ len = 0 ∨ 192 < len then s
  else if kind = ptDR then
    let path := ofBytesLE ((d.drop 8).take 8) % 2 ^ 48
    let hops := bits w0 36 32
    let w0 := w0 % 2 ^ 37
    let p := { fabPacket (unitIssuer true) ptDR 2 0 0 (24 + len) (bytesLE 8 w0 ++ bytesLE 8 path ++ bytesLE 8 0 ++ body) with
      src := s.fabId, hops := s.get L.FAB_CFG.MAX_HOPS }
    if 1 ≤ hops ∧ hops ≤ 16 ∧ s.portState (path % 8) = portUpSt then s.fabQueue (path % 8) none p none else s
  else if kind = ptMMSG then (s.fabPosted (fabPacket (unitIssuer true) ptMMSG 2 (bits w0 29 16) 0 len body)).1
  else s

/-- A write of FAB_MTX_IDX: PROD under the rule of R257; the new entries leave. -/
def State.writeMtxIdx (s : State) (c : Issuer) (v : Nat) : State :=
  let cons := s.get L.FAB_MTX_IDX.CONS
  let n := wrapSub 16 (v % 65536) cons
  if 2 ^ s.get L.FAB_MTX_RING.LOG2N < n then s.forbidden fabLog R.FAB_MTX_IDX c
  else (s.put L.FAB_MTX_IDX.PROD v).forAll ((List.range n).map (fun i => (cons + i) % 65536)) State.mtxEntry

/-- A write of FAB_MRX_IDX: CONS under the rule of R257. -/
def State.writeMrxIdx (s : State) (c : Issuer) (v : Nat) : State :=
  let cons := s.get L.FAB_MRX_IDX.CONS
  if wrapSub 16 (s.get L.FAB_MRX_IDX.PROD) cons < wrapSub 16 (bits v 31 16) cons then s.forbidden fabLog R.FAB_MRX_IDX c
  else s.put L.FAB_MRX_IDX.CONS (bits v 31 16)

/-! ### Beacons (R292, R300, R301) -/

/-- This device's digest. -/
def State.myDigest (s : State) : List Nat := (List.range 4).map (fun k => s.get (L.FAB_DIGEST.DIGEST k))

/-- This device's own record (R303). -/
def State.ownRec (s : State) : FabRec :=
  ⟨s.get L.FAB_EPOCH.EPOCH, s.get L.FAB_CFG.PRIO, (s.rd R.TB_SERIAL).toNat, s.myDigest, s.frame⟩

/-- The beacon that this device sends (Table 12.7). -/
def State.myBeacon (s : State) : FabBeacon :=
  { id := s.fabId, idValid := s.get L.FAB_ID.ID_VALID = 1, hold := s.get L.TB_STATUS.SYNC_OK = 0, quar := s.quarantined,
    interval := if s.ticking then s.period else 100000, prio := s.get L.FAB_CFG.PRIO, frame := s.frame,
    serial := (s.rd R.TB_SERIAL).toNat, epoch := s.get L.FAB_EPOCH.EPOCH, best := s.fab.best.getD s.ownRec }

/-- Every UP port sends a beacon. -/
def State.beacons (s : State) : State :=
  let b := s.myBeacon
  (s.setFab { s.fab with beaconAt := s.up }).forAll
    ((List.range 8).filter (fun n => s.portState n = portUpSt && !s.txIdle)) (fun s n => (s.fabZero n).send (.fabBeacon n b))

/-- BEACON_TIMER (R292). -/
def execBeaconTimer (s : State) : Result :=
  if s.ticking then .next s else .next (s.elapseUntil (s.fab.beaconAt + 100000)).beacons

/-- BEACON_RX (R300, R301, R303, R305); DELAY counts picoseconds. -/
def execBeaconRx (port : Fin 8) (b : FabBeacon) (s : State) : Result :=
  let n := port.val
  if s.portState n ≠ portUpSt then .next s
  else
    let s := s.setFabPort n { s.fabPort n with beaconAt := s.up, interval := b.interval }
    let s := (s.put (L.FAB_P_STATUS.BEACON_SEEN n) 1).put (L.FAB_P_STATUS.PARTNER_HOLD n) (if b.hold then 1 else 0)
    let s := (s.put (L.FAB_P_STATUS.PARTNER_QUAR n) (if b.quar then 1 else 0)).put (L.FAB_P_STATUS.PARTNER_ID n) b.id
    let s := s.put (L.FAB_P_STATUS.PARTNER_ID_VALID n) (if b.idValid then 1 else 0)
    let s := (s.setFab { s.fab with recs := SMap.set s.fab.recs n (some b.best) }).fabRejudge
    if s.get L.TB_STATUS.SYNC_OK = 1 ∧ b.hold = false ∧ s.ticking then
      let t := (1000 * s.tb.ns + 1000 * s.tb.frac / 2 ^ 42 - s.get (L.TB_PORT_STAT.DELAY n)) / 1000
      .next (if s.frameAt t = b.frame then s else s.fabPortEvent n (L.FAB_P_EVT.FRAME_MISMATCH n))
    else .next s

/-- BEACON_LOSS (R300). -/
def execBeaconLoss (port : Fin 8) (s : State) : Result :=
  let n := port.val
  if s.portState n = portUpSt ∧ s.get (L.FAB_P_STATUS.BEACON_SEEN n) = 1 then
    let x := s.fabPort n
    let s := s.elapseUntil (x.beaconAt + 3 * x.interval + 1000)
    .next ((s.partnerLost n (L.FAB_P_EVT.BEACON_LOSS n)).fabRetrain n)
  else .next s

/-! ### Agreement (R297, R302, R303) -/

/-- Record X is better than record Y. -/
def betterRec (x y : FabRec) : Bool :=
  decide (y.epoch < x.epoch) || (x.epoch == y.epoch && (decide (x.prio < y.prio) || (x.prio == y.prio && decide (x.serial < y.serial))))

/-- QUAR and REASON; a change of QUAR is an event. -/
def State.setQuar (s : State) (q : Bool) (reason : Nat) : State :=
  let was := s.quarantined
  let s := (s.put L.FAB_STATUS.QUAR (if q then 1 else 0)).put L.FAB_STATUS.REASON reason
  s.when (decide was ≠ q) (fun s => (s.fabEvent L.FAB_EVT.QUAR_CHG).fabRejudge)

/-- The route epoch switches (R297, R298). -/
def State.fabSwitch (s : State) : State :=
  let s := s.setFab { s.fab with prevEpoch := some (s.get L.FAB_EPOCH.EPOCH), prevAt := s.tb.ns }
  let s := (s.put L.FAB_EPOCH.ACTIVE (1 - s.get L.FAB_EPOCH.ACTIVE)).put L.FAB_EPOCH.EPOCH (s.get L.FAB_EPOCH_NEXT.NEXT)
  ((s.put L.FAB_EPOCH.OLD_VALID 1).dropAsk L.FAB_EPOCH_NEXT.ARM).fabEvent L.FAB_EVT.EPOCH_SW

/-- At a tick: the old bank stops, an armed route epoch whose frame opens switches (R297), records are judged (R303), and the beacons leave (R292). -/
def State.fabTick (s : State) : State :=
  let s := s.when (s.fab.prevAt < s.tb.ns) (fun s => s.put L.FAB_EPOCH.OLD_VALID 0)
  let s := s.when (s.get L.FAB_EPOCH_NEXT.ARM = 1 ∧ s.get L.FAB_EPOCH_FRAME.FRAME ≤ s.frame) State.fabSwitch
  let own := s.ownRec
  let fresh := ((List.range 8).filterMap (fun n => SMap.get s.fab.recs n)).filter
    (fun r => decide (s.frame ≤ r.frame + 16 + s.get L.FAB_CFG.MAX_HOPS))
  let best := fresh.foldl (fun b r => if betterRec r b then r else b) own
  let s := s.setFab { s.fab with
    best := some best, recs := s.fab.recs.filter (fun e => match e.2 with
      | some r => decide (s.frame ≤ r.frame + 16 + s.get L.FAB_CFG.MAX_HOPS)
      | none => false) }
  let s := ((s.put L.FAB_BEST_RANK.EPOCH best.epoch).put L.FAB_BEST_RANK.PRIO best.prio).put L.FAB_BEST_SERIAL.SERIAL best.serial
  let s := s.put L.FAB_BEST_FRAME.FRAME best.frame
  let s :=
    if own.epoch = best.epoch ∧ own.digest = best.digest then s.setQuar false 0
    else if own.epoch = best.epoch then s.setQuar true 2
    else s.setQuar true 3
  s.beacons

/-- TICKING falls to 0: quarantined with REASON NO_TIME (R303). -/
def State.fabNoTime (s : State) : State := s.setQuar true 1

/-- A write of FAB_EPOCH_NEXT (R297). -/
def State.writeEpochNext (s : State) (c : Issuer) (v : Nat) : State :=
  let next := bits v 63 32
  if v.testBit 0 then
    if next ≤ s.get L.FAB_EPOCH.EPOCH then s.forbidden fabLog R.FAB_EPOCH_NEXT c
    else
      let s := s.put L.FAB_EPOCH_NEXT.NEXT next
      if ¬ s.ticking then s.fabSwitch
      else if s.get L.FAB_EPOCH_FRAME.FRAME < s.frame + 2 then s.fabEvent L.FAB_EVT.ARM_LATE
      else s.ask L.FAB_EPOCH_NEXT.ARM
  else s.put L.FAB_EPOCH_NEXT.NEXT next

/-- Writes of FAB_ registers come from the Sealed world (R316). -/
def State.fabGuard (s : State) (log : Nat) (c : Issuer) (key : Nat) (f : State → State) : State :=
  if c.sealed then f (s.answer .ok) else s.worldError log (regAddr key) c

/-- FAB_EPOCH_ARM (R297). -/
def execFabEpochArm (c : Issuer) (v : Word) (s : State) : Result :=
  .next (s.issue c (fun c s => s.fabGuard fabLog c R.FAB_EPOCH_NEXT (fun s => s.writeEpochNext c v.toNat)))

/-- FAB_EPOCH_SWITCH (R297): at the tick that opens the armed frame. -/
def execFabEpochSwitch (s : State) : Result :=
  if s.get L.FAB_EPOCH_NEXT.ARM = 1 ∧ s.ticking then
    .next (s.elapseToNs (s.origin + (s.get L.FAB_EPOCH_FRAME.FRAME - s.base) * s.period)).fabSwitch
  else .next s

/-- A write of FAB_PROFILE_CTRL (R302). -/
def State.writeProfileCtrl (s : State) (v : Nat) : State :=
  let s := s.when (v.testBit 61 = true) (fun s =>
    ((s.put L.FAB_PROFILE_CTRL.READY 0).put L.FAB_PROFILE_CTRL.STATUS 0xFF).setFab { s.fab with commit := none })
  if v.testBit 63 then
    let w := s.get (L.FAB_PROFILE.WORD 1)
    let st := if w % 256 ≠ 1 ∨ bits w 15 8 ≠ 0 then 1
      else if bits w 21 16 ≠ s.get L.FAB_CFG.MAX_HOPS ∨ bits w 63 32 ≠ s.get L.FAB_CFG.TMO then 2 else 0
    ((s.put L.FAB_PROFILE_CTRL.READY 0).put L.FAB_PROFILE_CTRL.STATUS 0xFF).setFab { s.fab with commit := some st }
  else s

/-- PROFILE_COMMIT (R302). -/
def execProfileCommit (c : Issuer) (v : Word) (s : State) : Result :=
  .next (s.issue c (fun c s => s.fabGuard fabLog c R.FAB_PROFILE_CTRL (fun s => s.writeProfileCtrl v.toNat)))
/-- PROFILE_ACK (R302). -/
def execProfileAck (c : Issuer) (v : Word) (s : State) : Result :=
  .next (s.issue c (fun c s => s.fabGuard fabLog c R.FAB_PROFILE_CTRL (fun s => s.writeProfileCtrl v.toNat)))

/-- PROFILE_COMMIT_DONE (R302): the digest of the 1,024 bytes of the profile. -/
def execProfileCommitDone (s : State) : Result :=
  match s.fab.commit with
  | none => .next s
  | some st =>
    if s.get L.FAB_PROFILE_CTRL.READY = 1 then .next s
    else
      let s := (s.put L.FAB_PROFILE_CTRL.READY 1).put L.FAB_PROFILE_CTRL.STATUS st
      if st = 0 then
        let d := sha256 ((List.range 128).flatMap (fun w => bytesLE 8 (s.get (L.FAB_PROFILE.WORD w))))
        .next (s.forAll (List.range 4) (fun s k => s.put (L.FAB_DIGEST.DIGEST k) (ofBytesLE ((d.drop (8 * k)).take 8))))
      else .next s

/-- MGMT_TX (R299). -/
def execMgmtTx (c : Issuer) (v : Word) (s : State) : Result :=
  s.devCmd (fun s =>
    .next (s.issue c (fun c s => s.fabGuard fabLog c R.FAB_MTX_IDX (fun s => s.writeMtxIdx c v.toNat))))

/-! ### Launched sends (R314) -/

/-- The status that a launched send earns when it is accepted (Table 12.13, R314, R305), and the fabric status found. -/
def State.fpLaunchStatus (s : State) (n : Nat) (l : Launch) : Nat × Nat :=
  let g (i : Nat) : Nat := (l.desc[i]?).getD 0
  let inl : Bool := (g 2).testBit 48
  let pt := bits (g 2) 23 16
  let len := bits (g 1) 44 32
  let top := if inl then 40 else if pt = ptWR then 256 else 4096
  let bad : Bool := decide (bits (g 1) 63 45 ≠ 0 ∨ bits (g 2) 63 49 ≠ 0 ∨ bits (g 2) 47 44 ≠ 0 ∨ bits (g 2) 31 24 ≠ 0 ∨
    bits (g 2) 15 14 ≠ 0 ∨ (pt ≠ ptWR ∧ pt ≠ ptMSG) ∨ len = 0 ∨ top < len) ||
    (!inl && decide (bits (g 3) 63 48 ≠ 0 ∨ g 4 ≠ 0 ∨ g 5 ≠ 0 ∨ g 6 ≠ 0 ∨ g 7 ≠ 0))
  if bad then (1, 0)
  else if s.quarantined then (4, fsQuarantine)
  else if s.get L.FAB_ID.ID_VALID = 0 then (4, fsAccess)
  else if s.portState n ≠ portUpSt then (7, fsNoRoute)
  else if s.get (L.FAB_P_STATUS.PARTNER_QUAR n) = 1 then (7, fsQuarantine)
  else if l.fs ∧ s.get (L.FAB_P_STATUS.PARTNER_HOLD n) = 1 then (7, fsExcluded)
  else (0, 0)

/-- The packet of a launched send, its payload given. -/
def State.fpPacket (s : State) (l : Launch) (data : Bytes) : FabPkt :=
  let g (i : Nat) : Nat := (l.desc[i]?).getD 0
  { fabPacket (s.tags l.sealed l.vi) (bits (g 2) 23 16) 1 (bits (g 2) 13 0) (bits (g 1) 31 0) (bits (g 1) 44 32) data with
    rsv := true, sync := l.fs, rackReq := (g 0).testBit 8, queue := bits (g 2) 43 32 }

/-- A launched send starts: its payload is read and its packet queued on port n; with ACK at 0 it completes when its last
flit has left. -/
def State.fpStart (s : State) (n : Nat) (l : Launch) : State :=
  let g (i : Nat) : Nat := (l.desc[i]?).getD 0
  let len := bits (g 1) 44 32
  let r := if (g 2).testBit 48 then (s, ⟨false, ((List.range 5).flatMap (fun k => bytesLE 8 (g (3 + k)))).take len, false, 0⟩)
    else s.ioRead fabSrc (s.tags l.sealed l.vi) (bits (g 3) 47 0) len
  let s := r.1.updateLaunch l.id (fun l => { l with started := true })
  if r.2.err ∨ r.2.poison then s.updateLaunch l.id (fun l => { l with status := some 4 })
  else
    let p := s.fpPacket l r.2.data
    if p.rackReq then (s.fabRequest ⟨p, .launch l.id, some n, 0⟩).1
    else
      let s := s.setFab { s.fab with nextTxn := (s.fab.nextTxn + 1) % 65536 }
      let p := { p with
        txn := s.fab.nextTxn, src := s.fabId, hops := s.get L.FAB_CFG.MAX_HOPS, epoch := s.get L.FAB_EPOCH.EPOCH % 4 }
      s.fabQueue n none p (some l.id)

/-! ### Register writes (R316) -/

/-- A write of FAB_ID; a Summit reads its own identifier in SUMMIT_ID (R460). -/
def State.writeFabId (s : State) (v : Nat) : State :=
  let s := (s.put L.FAB_ID.ID_VALID (bits v 14 14)).put L.FAB_ID.ID v
  let s := s.when (s.get L.TB_STATUS.IS_SUMMIT = 1) (fun s => s.put L.TB_STATUS.SUMMIT_ID v)
  s.when (v.testBit 14 = false) State.fabRejudge

/-- A write of a FAB_ register of the device block with a rule of its own. -/
def State.writeFab (s : State) (r : Reg) (m n : Nat) (c : Issuer) (v : Nat) : Option State :=
  let ring (x : Nat) : Nat := min 10 (max 3 x)
  match r with
  | .FAB_ID => some (s.writeFabId v)
  | .FAB_CFG =>
    let s := (s.put L.FAB_CFG.TMO (min 100000 (max 10 (bits v 63 32)))).put L.FAB_CFG.PRIO (bits v 23 16)
    some (s.put L.FAB_CFG.MAX_HOPS (max 1 (v % 64)))
  | .FAB_EPOCH_NEXT => some (s.writeEpochNext c v)
  | .FAB_PROFILE_CTRL => some (s.writeProfileCtrl v)
  | .FAB_MTX_IDX => some (s.writeMtxIdx c v)
  | .FAB_MRX_IDX => some (s.writeMrxIdx c v)
  | .FAB_MRX_RING => some ((s.put L.FAB_MRX_RING.LOG2N (ring (bits v 51 48))).put L.FAB_MRX_RING.BASE (bits v 47 12))
  | .FAB_MTX_RING => some ((s.put L.FAB_MTX_RING.LOG2N (ring (bits v 51 48))).put L.FAB_MTX_RING.BASE (bits v 47 12))
  | .FAB_RT => if m = s.get L.FAB_EPOCH.ACTIVE then some (s.forbidden fabLog (R.FAB_RT m n) c) else none
  | .FAB_PROFILE =>
    if s.fab.commit.isSome ∧ s.get L.FAB_PROFILE_CTRL.READY = 0 then some (s.forbidden fabLog (R.FAB_PROFILE n) c) else none
  | _ => none

/-- A write of a FAB_P_ register with a rule of its own (R283, R285). -/
def State.writeFabPort (s : State) (r : Reg) (n : Nat) (c : Issuer) (v : Nat) : Option State :=
  match r with
  | .FAB_P_CFG =>
    if bits v 4 3 = 3 then some (s.reservedEnc (fabPortLog n) (R.FAB_P_CFG n) c)
    else
      let s := (s.put (L.FAB_P_CFG.OPEN_ONLY n) (bits v 7 7)).put (L.FAB_P_CFG.MODE n) (bits v 4 3)
      let s := (s.put (L.FAB_P_CFG.X2_OK n) (bits v 2 2)).put (L.FAB_P_CFG.EN n) v
      some (if v.testBit 0 then (if s.portState n = portOff then s.put (L.FAB_P_STATUS.STATE n) portIdle else s)
        else (s.setPort n portOff).setFabPort n { (s.setPort n portOff).fabPort n with elecOk := false })
  | _ => none

end Sys2Proof.Machine
end

