-- ==== Sys2Proof/Machine/Vi.lean ====
section
/-! DEFINITION. Administration of virtual instances, mailboxes and dirty-page logging (R264 to R280, R282). -/

namespace Sys2Proof.Machine

/-- The log and the source identifier of VI control block `k` are those of its queue engine (R266, Table 18.4). -/
abbrev viLog (k : Nat) : Nat := 254 + k

/-- The commands of Table 11.7. -/
abbrev viCmdCreate : Nat := 1
abbrev viCmdStart : Nat := 2
abbrev viCmdStop : Nat := 3
abbrev viCmdReset : Nat := 4
abbrev viCmdDestroy : Nat := 5
abbrev viCmdShare : Nat := 6

/-- Every resource that may be assigned to an instance (R31). -/
def assignable : List Res :=
  (List.range 32).map Res.csq ++ (List.range 8).map Res.qe ++ (List.range 4096).map Res.queue ++ (List.range 128).map Res.ch ++
    (List.range 64).map Res.ce ++ (List.range 16).map Res.pci ++ (List.range 8).map Res.eth

/-- The resources of an instance. -/
def State.viRes (s : State) (v : Nat) : List Res := assignable.filter (fun r => s.viOf r == some v)

def State.setViState (s : State) (v st : Nat) : State := s.put (L.VI_STATE.STATE (v / 32) (v % 32)) st

/-- FULL of the instance's queues follows their limit (R272). -/
def State.viQueues (s : State) (v : Nat) : State :=
  s.forAll ((List.range 4096).filter (fun q => s.viOf (.queue q) == some v)) (fun s q => s.qUpdate q)

/-- A share word comes into force (R270). -/
def State.setShare (s : State) (v w : Nat) : State :=
  let s := (s.wr (R.VI_SHARE (v / 32) (v % 32)) (BitVec.ofNat 64 (w % 2 ^ 59))).put (L.VI_STATE.PEND (v / 32) (v % 32)) 0
  ({ s with viPend := SMap.set s.viPend v 0 }).viQueues v

/-- At a tick the waiting share words come into force (R270), and budgets and shares start anew (R271). -/
def State.viTick (s : State) : State :=
  let s := s.forAll ((List.range 256).filter (fun v => s.get (L.VI_STATE.PEND (v / 32) (v % 32)) = 1))
    (fun s v => s.setShare v (SMap.get s.viPend v))
  { s with viUsed := [], viBytes := [] }

/-- Operations of the instance that have started and not ended (R268). A launch that its unit holds for a memory line has
been accepted but not started; a PCIe request of an older generation is no operation of the instance any more (R274). -/
def State.viBusy (s : State) (v : Nat) : Bool :=
  s.launches.any (fun l => l.vi == some v && l.started && l.status.isNone) ||
    (List.range 8).any (fun e => (s.qeOf e).cmds.any (fun c => c.issuer.vi == some v && c.started)) ||
    (List.range 4).any (fun e => (s.ceOf e).cmds.any (fun c => c.issuer.vi == some v && c.started)) ||
    s.pciOpen.any (fun r => r.issuer.vi == some v && !s.stale r.issuer)

/-- STOP's effects at once (R268): sequencers STOPPED; channels and functions follow VI_STATE. -/
def State.viHalt (s : State) (v : Nat) : State :=
  s.forAll ((List.range 32).filter (fun q => s.viOf (.csq q) == some v)) State.csqStopNow

/-- Requests of an instance that have not left this device are issued no further (R273): those that wait for a place among
the open ones, and packets of its own at a port of which no flit has left, whose requests end. -/
def State.viUnsent (s : State) (v : Nat) : State :=
  let mine (w : FabWait) : Bool :=
    w.pkt.vi == some v && w.pkt.src == s.fabId && w.pkt.ptype < ptRdRsp && w.whole
  let gone := (List.range 8).flatMap (fun n => ((s.fabPort n).wait.filter mine).map (fun w => w.pkt.txn))
  let s := s.setFab { s.fab with later := s.fab.later.filter (fun o => o.pkt.vi != some v) }
  let s := s.forAll (List.range 8) (fun s n =>
    s.setFabPort n { s.fabPort n with wait := (s.fabPort n).wait.filter (fun w => !mine w) })
  s.forAll (s.fab.opens.filter (fun o => o.pkt.vi == some v && gone.contains o.pkt.txn)) State.fabEnd

/-- The launches of an instance end with its generation (R273). -/
def State.viEndLaunches (s : State) (v : Nat) : State :=
  { s with launches := s.launches.map (fun (l : Launch) =>
      if l.vi = some v ∧ l.status.isNone then { l with started := true, status := some 0x0D } else l) }

/-- The commands of an instance leave an engine; pages that they wrote through the fabric are marked (R273, R279). -/
def State.viEndQe (s : State) (v e : Nat) : State :=
  let s := s.forAll ((s.qeOf e).cmds.filter (fun c => c.issuer.vi == some v && c.far)) (fun s c => s.markDirty c.issuer c.dst c.pos)
  (s.setQe e { s.qeOf e with cmds := (s.qeOf e).cmds.filter (fun c => c.issuer.vi != some v) }).qeCounts e

/-- Every operation of the old generation ends (R273). -/
def State.viEndOps (s : State) (v : Nat) : State :=
  let s := ((s.viEndLaunches v).forAll (List.range 8) (fun s e => s.viEndQe v e)).viUnsent v
  let s := s.forAll ((List.range 64).filter (fun n => s.viOf (.ce n) == some v)) State.ceAbort
  s.forAll ((List.range 16).filter (fun n => s.viOf (.pci n) == some v)) State.pciFnReset

/-- RESET (R273): the generation, STOP's effects, operations, queues and channel indices. -/
def State.viResetNow (s : State) (v : Nat) : State :=
  let k := v / 32
  let j := v % 32
  let s := s.put (L.VI_STATE.GEN k j) (s.get (L.VI_STATE.GEN k j) + 1)
  let s := ((s.setViState v viResetting).viHalt v).viEndOps v
  let s := s.forAll ((List.range 4096).filter (fun q => s.viOf (.queue q) == some v)) (fun s q => s.qDiscard q)
  s.forAll ((List.range 128).filter (fun ch => s.viOf (.ch ch) == some v)) (fun s ch =>
    let en := s.get (L.QE_CH_CFG.EN (ch / 16) (ch % 16))
    (s.chOff ch).put (L.QE_CH_CFG.EN (ch / 16) (ch % 16)) en)

/-- The resources of an instance pass to its world unassigned, and its mailbox and dirty-logging registers are cleared
(R269). -/
def State.viRelease (s : State) (v : Nat) : State :=
  let rs := s.viRes v
  let s := s.forAll rs (fun s r =>
    let s := s.setVi r none
    match r with
    | .csq n => s.csqOwnerChange n
    | _ => s)
  let b := R.VI_STATE (v / 32) (v % 32)
  let s := s.resetKeys (b + 0x10) (b + 0x58)
  ((s.put (L.VI_STATE.PEND (v / 32) (v % 32)) 0).setViState v viFree)

/-- A device read of the control block without translation (R266). -/
def State.viRead (s : State) (k : Nat) (sealed : Bool) (a n : Nat) : State × Option (List Nat) :=
  let r := s.physRead (qeSrc k) (unitIssuer sealed) a n
  (r.1, if r.2.err ∨ r.2.poison then none
    else some ((List.range (n / 8)).map (fun i => ofBytesLE ((r.2.data.drop (8 * i)).take 8))))

/-- The creation record breaks Table 11.8. -/
def recordBad (w : List Nat) : Bool :=
  let g (i : Nat) : Nat := (w[i]?).getD 0
  g 0 != 0x11 || bits (g 1) 63 40 != 0 || bits (g 2) 15 12 != 0 || bits (g 2) 63 29 != 0 || bits (g 6) 63 24 != 0 ||
    bits (g 7) 63 59 != 0 || decide (4096 < bits (g 2) 11 0 + bits (g 2) 28 16)

/-- The resources that a creation record names, with the channels and queues of each engine named whole (R266, R267). -/
def recordRes (w : List Nat) : List Res :=
  let g (i : Nat) : Nat := (w[i]?).getD 0
  let qes := onesBelow 8 (bits (g 1) 39 32)
  let first := bits (g 2) 11 0
  let qs := (List.range 4096).filter (fun q =>
    decide (first ≤ q ∧ q < first + bits (g 2) 28 16) || qes.contains (q / 512))
  let chs := (List.range 128).filter (fun c => (g 3 + 2 ^ 64 * g 4).testBit c || qes.contains (c / 16))
  (onesBelow 32 (bits (g 1) 31 0)).map Res.csq ++ qes.map Res.qe ++ qs.map Res.queue ++ chs.map Res.ch ++
    (onesBelow 64 (g 5)).map Res.ce ++ (onesBelow 16 (g 6)).map Res.pci ++ (onesBelow 8 (bits (g 6) 23 16)).map Res.eth

/-- The resources are assigned, and brought to the state that R267 gives them. -/
def State.viAssign (s : State) (v : Nat) (rs : List Res) : State :=
  s.forAll rs (fun s r =>
    let s := s.setVi r (some v)
    match r with
    | .csq n => s.csqOwnerChange n
    | .queue q => s.qOff q
    | .ch n => s.chOff n
    | _ => s)

/-- Resources are held until their instance's creation is READY (R267), and its budgets start afresh. -/
def State.viHold (s : State) (v : Nat) (rs : List Res) : State :=
  { s with releasing := s.releasing ++ rs, viUsed := SMap.set s.viUsed v 0, viBytes := SMap.set s.viBytes v 0 }

/-- CREATE (R266, R267): the status, and what a passing one assigns. -/
def State.viCreateNow (s : State) (k v : Nat) (sealed : Bool) (rec : Nat) : State × Nat × List Res :=
  if sealed = false ∧ (s.get (L.VI_AVAIL.OPEN k)).testBit (v % 32) = false then (s, 2, [])
  else
    let r := s.viRead k sealed rec 64
    match r.2 with
    | none => (r.1, 3, [])
    | some w =>
      let s := r.1
      let rs := recordRes w
      if recordBad w then (s, 4, [])
      else if rs.any (fun x => s.ownerSealed x != sealed || (s.isReleasing x && (s.viOf x).isNone)) then (s, 5, [])
      else if rs.any (fun x => (s.viOf x).isSome) then (s, 6, [])
      else
        let s := (s.put (L.VI_STATE.WORLD k (v % 32)) (if sealed then 1 else 0)).setViState v viStopped
        let s := (s.viAssign v rs).setShare v ((w[7]?).getD 0)
        (s.viHold v rs, 0, rs)

/-- SHARE (R270). -/
def State.viShareNow (s : State) (k v : Nat) (sealed : Bool) (rec : Nat) : State × Nat :=
  let r := s.viRead k sealed rec 8
  match r.2 with
  | none => (r.1, 3)
  | some w =>
    let x := (w.head?).getD 0
    if 2 ^ 59 ≤ x then (r.1, 4)
    else if r.1.viState v = viRunning ∧ r.1.ticking then
      (({ r.1 with viPend := SMap.set r.1.viPend v x }).put (L.VI_STATE.PEND k (v % 32)) 1, 0)
    else (r.1.setShare v x, 0)

/-- The command is allowed in this state (Table 11.7). -/
def viAllowed (cmd st : Nat) : Bool :=
  match cmd with
  | 1 => st == viFree
  | 2 => st == viStopped
  | 3 => st == viRunning
  | 4 => st == viStopped || st == viRunning || st == viStopping
  | 5 => st == viStopped
  | 6 => st == viStopped || st == viRunning
  | _ => false

/-- What a command does when it is accepted: its status, and resources held until READY. -/
def State.viAccept (s : State) (k v cmd : Nat) (sealed : Bool) (rec : Nat) : State × Nat × List Res :=
  if viAllowed cmd (s.viState v) = false then (s, 1, [])
  else match cmd with
    | 1 => s.viCreateNow k v sealed rec
    | 3 => ((s.setViState v viStopping).viHalt v, 0, [])
    | 4 => (s.viResetNow v, 0, [])
    | 5 => (s.viResetNow v, 0, [])
    | 6 =>
      let r := s.viShareNow k v sealed rec
      (r.1, r.2, [])
    | _ => (s, 0, [])

abbrev State.adminOf (s : State) (k : Nat) (sealed : Bool) : Option ViAdmin := SMap.get s.viAdmin (2 * k + (if sealed then 1 else 0))
def State.setAdmin (s : State) (k : Nat) (sealed : Bool) (a : Option ViAdmin) : State :=
  { s with viAdmin := SMap.set s.viAdmin (2 * k + (if sealed then 1 else 0)) a }

/-- A write of VI_ADMIN_CMD (R264, R265). -/
def State.writeAdmin (s : State) (k : Nat) (c : Issuer) (x : Nat) : State :=
  let w := c.sealed
  let v := 32 * k + bits x 61 57
  let cmd := bits x 51 48
  let set (s : State) : State :=
    ((s.put (L.VI_ADMIN_CMD.VI w k) (bits x 61 57)).put (L.VI_ADMIN_CMD.CMD w k) cmd).put (L.VI_ADMIN_CMD.REC w k) (bits x 47 6)
  if x.testBit 63 = false then set s
  else if (s.adminOf k w).isSome then s.goEarly (viLog k) (R.VI_ADMIN_CMD w k) c
  else if cmd ≠ 1 ∧ s.viState v ≠ viFree ∧ s.viSealed v ≠ w then s.worldError (viLog k) (regAddr (R.VI_ADMIN_CMD w k)) c
  else
    let s := (((set s).put (L.VI_ADMIN_RES.READY w k) 0).put (L.VI_ADMIN_RES.GEN w k) 0xFF).put (L.VI_ADMIN_RES.STATUS w k) 0xFF
    let at_ := s.up
    let r := s.viAccept k v cmd w (bits x 47 6 * 64)
    let s := r.1.when (r.2.1 ≠ 0) (fun s => s.logRec (viLog k) Cause.COMMAND r.2.1 (regAddr (R.VI_ADMIN_CMD w k)) c 0)
    s.setAdmin k w (some ⟨v, if r.2.1 = 0 then cmd else 0, r.2.1, at_, r.2.2⟩)

/-- VI_CREATE (R266). -/
def execViCreate (c : Issuer) (k : Fin 8) (v : Word) (s : State) : Result :=
  s.devCmd (fun s => .next (s.issue c (fun c s => (s.answer .ok).writeAdmin k c v.toNat)))
/-- VI_START (R268). -/
def execViStart (c : Issuer) (k : Fin 8) (v : Word) (s : State) : Result :=
  s.devCmd (fun s => .next (s.issue c (fun c s => (s.answer .ok).writeAdmin k c v.toNat)))
/-- VI_STOP (R268). -/
def execViStop (c : Issuer) (k : Fin 8) (v : Word) (s : State) : Result :=
  s.devCmd (fun s => .next (s.issue c (fun c s => (s.answer .ok).writeAdmin k c v.toNat)))
/-- VI_RESET (R273). -/
def execViReset (c : Issuer) (k : Fin 8) (v : Word) (s : State) : Result :=
  s.devCmd (fun s => .next (s.issue c (fun c s => (s.answer .ok).writeAdmin k c v.toNat)))
/-- VI_DESTROY (R269). -/
def execViDestroy (c : Issuer) (k : Fin 8) (v : Word) (s : State) : Result :=
  s.devCmd (fun s => .next (s.issue c (fun c s => (s.answer .ok).writeAdmin k c v.toNat)))
/-- VI_SHARE (R270). -/
def execViShare (c : Issuer) (k : Fin 8) (v : Word) (s : State) : Result :=
  s.devCmd (fun s => .next (s.issue c (fun c s => (s.answer .ok).writeAdmin k c v.toNat)))

/-- The command of a world reaches READY with a status. -/
def State.viReady (s : State) (k : Nat) (w : Bool) (a : ViAdmin) (status : Nat) : State :=
  let s := (s.put (L.VI_ADMIN_RES.READY w k) 1).put (L.VI_ADMIN_RES.GEN w k) (s.viGen a.v)
  let s := (s.put (L.VI_ADMIN_RES.STATUS w k) status).setAdmin k w none
  { s with releasing := s.releasing.filter (fun r => !a.held.contains r) }

/-- VI_ADMIN_DONE (R267, R268, R269, R273): a STOP ends when no operation of the instance runs. -/
def execViAdminDone (k : Fin 8) (sealed : Bool) (s : State) : Result :=
  match s.adminOf k sealed with
  | none => .next s
  | some a =>
    if a.cmd = viCmdStop ∧ s.viBusy a.v then .next s
    else
      let s := match a.cmd with
        | 2 => s.setViState a.v viRunning
        | 3 => s.setViState a.v viStopped
        | 4 => s.setViState a.v viStopped
        | 5 => s.viRelease a.v
        | _ => s
      .next (s.viReady k sealed a a.status)

/-- VI_STOP_TIMEOUT (R268): 2 ms after the STOP. -/
def execViStopTimeout (k : Fin 8) (sealed : Bool) (s : State) : Result :=
  match s.adminOf k sealed with
  | none => .next s
  | some a =>
    if a.cmd = viCmdStop ∧ s.viBusy a.v then
      .next (((s.elapseUntil (a.at_ + 2000000)).setViState a.v viStopped).viReady k sealed a 7)
    else .next s

/-- A write of VI_ADMIN_RES (R265). -/
def State.writeAdminRes (s : State) (k : Nat) (c : Issuer) (v : Nat) : State :=
  let w := c.sealed
  if v.testBit 62 then
    ((s.put (L.VI_ADMIN_RES.READY w k) 0).put (L.VI_ADMIN_RES.GEN w k) 0xFF).put (L.VI_ADMIN_RES.STATUS w k) 0xFF
  else s

/-- VI_ADMIN_ACK (R265). -/
def execViAdminAck (c : Issuer) (k : Fin 8) (v : Word) (s : State) : Result :=
  .next (s.issue c (fun c s => (s.answer .ok).writeAdminRes k c v.toNat))

/-! ### Mailboxes (R276) -/

/-- Access of a manager to the registers of an instance (R265). -/
def State.viGuard (s : State) (v : Nat) (c : Issuer) (key : Nat) (f : State → State) : State :=
  if s.viState v = viFree ∨ c.sealed ≠ s.viSealed v then s.worldError (viLog (v / 32)) (regAddr key) c else f (s.answer .ok)

/-- The MSI of a mailbox, if its EN is 1. -/
def State.mboxMsi (s : State) (v : Nat) (en addr data : Loc) : State :=
  if s.get en = 1 then s.sendMsi (qeSrc (v / 32)) (unitIssuer (s.viSealed v)) (4 * s.get addr) (s.get data) else s

/-- A producer index: valid up to a ring's length beyond the consumer (R257); the answer says that it changed. -/
def State.putProd (s : State) (prod cons : Loc) (size x key log : Nat) (c : Issuer) : State × Bool :=
  if size < wrapSub 16 x (s.get cons) then (s.forbidden log key c, false) else (s.put prod x, s.get prod != x)

/-- A consumer index: valid up to the producer (R257). -/
def State.putCons (s : State) (prod cons : Loc) (x key log : Nat) (c : Issuer) : State :=
  if wrapSub 16 (s.get prod) (s.get cons) < wrapSub 16 x (s.get cons) then s.forbidden log key c else s.put cons x

/-- A write of VI_MBOX_IDX. -/
def State.writeMboxIdx (s : State) (v : Nat) (c : Issuer) (x : Nat) : State :=
  let k := v / 32
  let j := v % 32
  let key := R.VI_MBOX_IDX k j
  let r := s.putProd (L.VI_MBOX_IDX.M2T_PROD k j) (L.VI_MBOX_IDX.M2T_CONS k j) (2 ^ s.get (L.VI_MBOX_M2T.LOG2N k j)) (bits x 15 0)
    key (viLog k) c
  let s := r.1.putCons (L.VI_MBOX_IDX.T2M_PROD k j) (L.VI_MBOX_IDX.T2M_CONS k j) (bits x 47 32) key (viLog k) c
  if r.2 then s.mboxMsi v (L.VI_MSI_T.EN k j) (L.VI_MSI_T.ADDR k j) (L.VI_MSI_T.DATA k j) else s

/-- A write of VI_T_MBOX: the indices stand in VI_MBOX_IDX. -/
def State.writeTMbox (s : State) (v : Nat) (c : Issuer) (x : Nat) : State :=
  let k := v / 32
  let j := v % 32
  let key := R.VI_T_MBOX v
  let r := s.putProd (L.VI_MBOX_IDX.T2M_PROD k j) (L.VI_MBOX_IDX.T2M_CONS k j) (2 ^ s.get (L.VI_MBOX_T2M.LOG2N k j)) (bits x 63 48)
    key (viLog k) c
  let s := r.1.putCons (L.VI_MBOX_IDX.M2T_PROD k j) (L.VI_MBOX_IDX.M2T_CONS k j) (bits x 31 16) key (viLog k) c
  if r.2 then s.mboxMsi v (L.VI_MSI_M.EN k j) (L.VI_MSI_M.ADDR k j) (L.VI_MSI_M.DATA k j) else s

/-- MBOX_MANAGER_INDEX (R276). -/
def execMboxManagerIndex (c : Issuer) (v : Fin 256) (x : Word) (s : State) : Result :=
  s.devCmd (fun s =>
    .next (s.issue c (fun c s => s.viGuard v c (R.VI_MBOX_IDX (v / 32) (v % 32)) (fun s => s.writeMboxIdx v c x.toNat))))

/-- MBOX_TENANT_INDEX (R276). -/
def execMboxTenantIndex (c : Issuer) (v : Fin 256) (x : Word) (s : State) : Result :=
  s.devCmd (fun s =>
    .next (s.issue c (fun c s => s.tenantGuard v c (R.VI_T_MBOX v) (fun s => s.writeTMbox v c x.toNat))))

/-! ### Dirty-page logging (R280) -/

/-- A write of VI_DIRTY_CTRL. -/
def State.writeDirty (s : State) (v : Nat) (c : Issuer) (x : Nat) : State :=
  let k := v / 32
  let j := v % 32
  let key := R.VI_DIRTY_CTRL k j
  if x.testBit 62 ∧ s.get (L.VI_DIRTY_CTRL.BUSY k j) = 1 then s.forbidden (viLog k) key c
  else if s.get (L.VI_DIRTY_CTRL.EN k j) = 1 ∧ bits x 31 0 ≠ s.get (L.VI_DIRTY_CTRL.PAGES k j) then s.forbidden (viLog k) key c
  else
    let s := (s.put (L.VI_DIRTY_CTRL.EN k j) (bits x 63 63)).put (L.VI_DIRTY_CTRL.PAGES k j) (bits x 31 0)
    s.when (x.testBit 62 = true) (fun s => s.put (L.VI_DIRTY_CTRL.BUSY k j) 1)

/-- DIRTY_SWAP (R280). -/
def execDirtySwap (c : Issuer) (v : Fin 256) (x : Word) (s : State) : Result :=
  .next (s.issue c (fun c s => s.viGuard v c (R.VI_DIRTY_CTRL (v / 32) (v % 32)) (fun s => s.writeDirty v c x.toNat)))

/-- DIRTY_SWAP_DONE (R280): the bitmaps exchange roles, and then BUSY clears. -/
def execDirtySwapDone (v : Fin 256) (s : State) : Result :=
  let k := v.val / 32
  let j := v.val % 32
  if s.get (L.VI_DIRTY_CTRL.BUSY k j) = 1 then
    .next ((s.put (L.VI_DIRTY_CTRL.ACTIVE k j) (1 - s.get (L.VI_DIRTY_CTRL.ACTIVE k j))).put (L.VI_DIRTY_CTRL.BUSY k j) 0)
  else .next s

/-- A write of a VI_ register with a rule of its own; `k` is the control block, `j` the instance in it. -/
def State.writeVi (s : State) (r : Reg) (k j : Nat) (c : Issuer) (x : Nat) : Option State :=
  let v := 32 * k + j
  let log : Bool := s.get (L.VI_DIRTY_CTRL.EN k j) = 1
  let size (n : Nat) : Nat := min 12 (max 3 n)
  match r with
  | .VI_AVAIL =>
    some (if c.sealed then s.put (L.VI_AVAIL.OPEN k) ((List.range 32).foldl (fun w i =>
        let b := if s.viState (32 * k + i) = viFree then x.testBit i else (s.get (L.VI_AVAIL.OPEN k)).testBit i
        if b then setBit w i else w) 0)
      else s.worldError (viLog k) (regAddr (R.VI_AVAIL k)) c)
  | .VI_ADMIN_CMD => some (s.writeAdmin k c x)
  | .VI_ADMIN_RES => some (s.writeAdminRes k c x)
  | .VI_MBOX_M2T => some ((s.put (L.VI_MBOX_M2T.LOG2N k j) (size (bits x 51 48))).put (L.VI_MBOX_M2T.BASE k j) (bits x 47 12))
  | .VI_MBOX_T2M => some ((s.put (L.VI_MBOX_T2M.LOG2N k j) (size (bits x 51 48))).put (L.VI_MBOX_T2M.BASE k j) (bits x 47 12))
  | .VI_MBOX_IDX => some (s.writeMboxIdx v c x)
  | .VI_DIRTY_CTRL => some (s.writeDirty v c x)
  | .VI_DIRTY_B0 => if log then some (s.forbidden (viLog k) (R.VI_DIRTY_B0 k j) c) else none
  | .VI_DIRTY_B1 => if log then some (s.forbidden (viLog k) (R.VI_DIRTY_B1 k j) c) else none
  | _ => none

/-- A write of a tenant page; other registers of it are read only. -/
def State.writeViT (s : State) (r : Reg) (v : Nat) (c : Issuer) (x : Nat) : Option State :=
  match r with
  | .VI_T_SQDB => some (s.writeTenantDb v true c x)
  | .VI_T_CQDB => some (s.writeTenantDb v false c x)
  | .VI_T_MBOX => some (s.writeTMbox v c x)
  | _ => none

/-- What a tenant page shows of registers that have their home in the control block. -/
def State.readViT (s : State) (r : Reg) (v : Nat) : Option Nat :=
  let k := v / 32
  let j := v % 32
  match r with
  | .VI_T_INFO => some (v <<< 24 + (s.viGen v) <<< 16 + s.viState v)
  | .VI_T_MBOX => some (s.rd (R.VI_MBOX_IDX k j)).toNat
  | .VI_T_M2T => some (s.rd (R.VI_MBOX_M2T k j)).toNat
  | .VI_T_T2M => some (s.rd (R.VI_MBOX_T2M k j)).toNat
  | _ => none

end Sys2Proof.Machine
end

