-- ==== Sys2Proof/Machine/Cairn.lean ====
section
/-! DEFINITION. Captures, error logs and performance counters (18): software captures, the end of a capture, and the
writes of the ERR_, CRN_ and PMC_ registers. -/

namespace Sys2Proof.Machine

abbrev crnLog : Nat := 283
abbrev pmcLog : Nat := 284
abbrev errLog : Nat := 285

/-! ### Captures (R436 to R439, R447) -/

/-- Access of the owning world of the Cairn unit, with no VI number (R447). -/
def State.crnGuard (s : State) (c : Issuer) (key : Nat) (f : State → State) : State :=
  if s.managerAccess .cairn c then f (s.answer .ok) else s.worldError crnLog (regAddr key) c

/-- A write of CRN_CAPTURE (R436). -/
def State.writeCapture (s : State) (c : Issuer) (v : Nat) : State :=
  if v.testBit 63 then
    if bits v 7 4 ≠ 0 then s.reservedEnc crnLog R.CRN_CAPTURE c else (s.capture 2 (bits v 7 0) false).1
  else s

/-- SOFTWARE_CAPTURE (R436). -/
def execSoftwareCapture (c : Issuer) (v : Word) (s : State) : Result :=
  .next (s.issue c (fun c s => s.crnGuard c R.CRN_CAPTURE (fun s => s.writeCapture c v.toNat)))

/-- CAPTURE_WRITTEN (R437): BUSY clears, CAPTURED is set, and the launches that made the capture complete. -/
def execCaptureWritten (s : State) : Result :=
  match s.capBusy with
  | none => .next s
  | some k =>
    let s := { s with caps := SMap.set s.caps k { SMap.get s.caps k with written := true, timeEnd := s.tb.ns }, capBusy := none }
    let s := ((s.put L.CRN_STATUS.BUSY 0).inc L.CRN_CNT.CAPTURES).crnEvent L.CRN_EVT.CAPTURED
    .next (s.forAll (s.launches.filter (fun l => l.target == 0x50 && l.status.isNone)) (fun s l => s.endLaunch l.id 0))

/-- A write of CRN_STATUS: cleared bits of FULL free their slots; slot 3 only from the Sealed world (R447). -/
def State.writeCrnStatus (s : State) (c : Issuer) (v : Nat) : State :=
  if v.testBit 3 ∧ c.sealed = false then s.worldError crnLog (regAddr R.CRN_STATUS) c
  else s.forAll (onesBelow 4 v) (fun s k =>
    { s.clearBitOf L.CRN_STATUS.FULL k with
      caps := if s.capBusy = some k then s.caps else SMap.set s.caps k default })

/-- A write of a CRN_ register with a rule of its own. -/
def State.writeCrn (s : State) (r : Reg) (c : Issuer) (v : Nat) : Option State :=
  match r with
  | .CRN_STATUS => some (s.writeCrnStatus c v)
  | .CRN_TRIG_CFG => if bits v 15 12 ≠ 0 then some (s.reservedEnc crnLog R.CRN_TRIG_CFG c) else none
  | .CRN_CAPTURE => some (s.writeCapture c v)
  | .CRN_WIN_SEL => some (s.put L.CRN_WIN_SEL.PAGE (min 135 (bits v 7 0)))
  | _ => none

/-! ### Error logs (R430, R431, R446) -/

/-- A write of an ERR_ register with a rule of its own; `n` is the log. With no entry left, the interrupt of the management
cores falls. -/
def State.writeErr (s : State) (r : Reg) (n : Nat) (c : Issuer) (v : Nat) : Option State :=
  match r with
  | .ERR_EVQ_IDX =>
    let s := s.putCons L.ERR_EVQ_IDX.PROD L.ERR_EVQ_IDX.CONS (bits v 31 16) R.ERR_EVQ_IDX errLog c
    some (if s.get L.ERR_EVQ_IDX.PROD = s.get L.ERR_EVQ_IDX.CONS then { s with newtIrq := false } else s)
  | .ERR_LOG_STAT =>
    some (s.when (v.testBit 63 = true) (fun s => s.clearLog n))
  | _ => none

/-! ### Performance counters (R443, R445, R448) -/

/-- The counters of a world, as bits. -/
def State.pmcWorld (s : State) (w : Bool) : Nat :=
  (List.range 16).foldl (fun m i => if (s.get (L.PMC_SEL.WORLD i) = 1) = (w = true) then setBit m i else m) 0

/-- A write of PMC_OVF: bits of the other world's counters are ignored; the interrupt of a world falls once no bit of it is
left. -/
def State.writePmcOvf (s : State) (c : Issuer) (v : Nat) : State :=
  let s := s.forAll (onesBelow 16 (v &&& s.pmcWorld c.sealed)) (fun s i => s.clearBitOf L.PMC_OVF.OVF i)
  s.when (s.get L.PMC_OVF.OVF &&& s.pmcWorld c.sealed = 0) (fun s => s.aplicLine (if c.sealed then 3 else 4) false)

/-- A write of PMC_SEL (R448). -/
def State.writePmcSel (s : State) (i : Nat) (c : Issuer) (v : Nat) : State :=
  let mine : Bool := c.sealed == (s.get (L.PMC_SEL.WORLD i) == 1)
  if mine = false then
    if c.sealed then s.put (L.PMC_SEL.WORLD i) (bits v 61 61) else s.worldError pmcLog (regAddr (R.PMC_SEL i)) c
  else if pmcListed (bits v 39 32) (bits v 22 16) (bits v 7 0) = false then s.forbidden pmcLog (R.PMC_SEL i) c
  else
    let s := ((s.put (L.PMC_SEL.EN i) (bits v 63 63)).put (L.PMC_SEL.FRAME i) (bits v 62 62)).put (L.PMC_SEL.ALLW i) (bits v 60 60)
    let s := if c.sealed then s.put (L.PMC_SEL.WORLD i) (bits v 61 61) else s
    let s := (s.put (L.PMC_SEL.VI_VALID i) (bits v 59 59)).put (L.PMC_SEL.VI i) (bits v 58 51)
    ((s.put (L.PMC_SEL.UNIT i) (bits v 39 32)).put (L.PMC_SEL.INST i) (bits v 22 16)).put (L.PMC_SEL.EVENT i) (bits v 7 0)

/-- A write of a PMC_ register (R448); `n` is the counter. Writes of the user pages are violations (R445). -/
def State.writePmc (s : State) (r : Reg) (key n : Nat) (c : Issuer) (v : Nat) : Option State :=
  let mine : Bool := c.sealed == (s.get (L.PMC_SEL.WORLD n) == 1)
  match r with
  | .PMC_UCNT | .PMC_UFRM => some (s.forbidden pmcLog key c)
  | .PMC_CTL => if c.sealed ∧ c.vi.isNone then none else some (s.worldError pmcLog (regAddr key) c)
  | .PMC_OVF => some (if c.vi.isSome then s.worldError pmcLog (regAddr key) c else s.writePmcOvf c v)
  | .PMC_SEL => some (if c.vi.isSome then s.worldError pmcLog (regAddr key) c else s.writePmcSel n c v)
  | .PMC_CNT => if mine ∧ c.vi.isNone then none else some (s.worldError pmcLog (regAddr key) c)
  | _ => none

/-- What a read of a PMC_ register computes for a world (R445, R448). -/
def State.readPmc (s : State) (r : Reg) (n : Nat) (w : Bool) : Option Nat :=
  match r with
  | .PMC_OVF => some (s.get L.PMC_OVF.OVF &&& s.pmcWorld w)
  | .PMC_UCNT => some (if (s.pmcWorld w).testBit n then s.get (L.PMC_CNT.VALUE n) else 0)
  | .PMC_UFRM => some (if (s.pmcWorld w).testBit n then s.get (L.PMC_FRAME_VAL.VALUE n) else 0)
  | _ => none

end Sys2Proof.Machine
end

