-- ==== Sys2Proof/Machine/Worlds.lean ====
section
/-! DEFINITION. The worlds (13): release of resources, IOMMU invalidation, the world switch of a cluster and the writes of
the world registers. -/

namespace Sys2Proof.Machine

/-- The index of a world in a pair of registers. -/
abbrev wBit (w : Bool) : Nat := if w then 1 else 0

/-! ### Ownership (R328 to R331) -/

abbrev State.ownReqOf (s : State) (w : Bool) : Option OwnReq := SMap.get s.ownReq (wBit w)
def State.setOwnReq (s : State) (w : Bool) (r : Option OwnReq) : State :=
  { s with ownReq := SMap.set s.ownReq (wBit w) r }

/-- The resource of TYPE and INDEX (Table 13.3). -/
def ownResource (ty i : Nat) : Option Res :=
  match ty with
  | 0x1 => if i < 34 then some (.pwr i) else none
  | 0x2 => if i < 22 then some (.clk i) else none
  | 0x3 => if i < 32 then some (.csq i) else none
  | 0x4 => if i < 8 then some (.qe i) else none
  | 0x5 => if i < 4096 then some (.queue i) else none
  | 0x6 => if i < 64 then some (.ce i) else none
  | 0x7 => if i < 8 then some (.eth i) else none
  | 0x8 => if i < 16 then some (.pci i) else none
  | 0x9 => if i < 8 then some (.fp i) else none
  | 0xA => if i < 16 then some (.mg i) else none
  | 0xB => if i < 768 then some (.l3 i) else none
  | 0xC => if i < 256 then some (.ks i) else none
  | 0xD => if i = 0 then some .cairn else none
  | _ => none

/-- The resource, or a channel of the engine, is assigned to an instance. -/
def State.assigned (s : State) (r : Res) : Bool :=
  (s.viOf r).isSome || (match r with
    | .qe e => (List.range 16).any (fun k => (s.viOf (.ch (16 * e + k))).isSome)
    | _ => false)

/-- Resources that the Sealed world keeps (Table 13.4). -/
def State.pinned (s : State) : Res → Bool
  | .pwr n => decide (24 ≤ n ∧ n ≤ 28)
  | .clk n => decide ((12 ≤ n ∧ n ≤ 17) ∨ n = 21)
  | .ks n => decide (n < 8)
  | .l3 n => s.get (L.WLD_L3WAY.BUSY (n / 64) (n / 16 % 4)) = 1
  | _ => false

/-- The checks of Table 13.4 in order: the resource, or the status of the first that fails. -/
def State.ownJudge (s : State) (w : Bool) (ty i : Nat) : Res ⊕ Nat :=
  match ownResource ty i with
  | none => .inr 0x01
  | some r =>
    if s.ownerSealed r ≠ w then .inr 0x02
    else if s.assigned r then .inr 0x03
    else if s.pinned r then .inr 0x04
    else .inl r

/-- WLD_OWN_RES reads READY with a status. -/
def State.ownDone (s : State) (w : Bool) (status : Nat) : State :=
  ((s.put (L.WLD_OWN_RES.READY w) 1).put (L.WLD_OWN_RES.STATUS w) status).setOwnReq w none

/-- The resource refuses new work (R329). -/
def State.beginRelease (s : State) (r : Res) : State := { s with releasing := s.releasing ++ [r] }.ownSync r

/-- The resource is in its release no longer. -/
def State.endRelease (s : State) (r : Res) : State := { s with releasing := s.releasing.filter (fun x => x != r) }.ownSync r

/-- A write of WLD_OWN_REQ (R328): a failing check answers at once; an accepted release makes the resource refuse new
work (R329). -/
def State.writeOwnReq (s : State) (c : Issuer) (v : Nat) : State :=
  let w := c.sealed
  if v.testBit 63 ∧ (s.ownReqOf w).isSome then s.goEarly iommuLog (R.WLD_OWN_REQ w) c
  else
    let s := (s.put (L.WLD_OWN_REQ.TYPE w) (bits v 19 16)).put (L.WLD_OWN_REQ.INDEX w) (bits v 11 0)
    if v.testBit 63 then
      let s := (s.put (L.WLD_OWN_RES.READY w) 0).put (L.WLD_OWN_RES.STATUS w) 0xFF
      match s.ownJudge w (bits v 19 16) (bits v 11 0) with
      | .inr st => s.ownDone w st
      | .inl r => (s.setOwnReq w (some ⟨r, s.up⟩)).beginRelease r
    else s

/-- OWN_RELEASE (R328). -/
def execOwnRelease (c : Issuer) (v : Word) (s : State) : Result :=
  .next (s.issue c (fun c s => (s.answer .ok).writeOwnReq c v.toNat))

/-- A launch of the target is accepted and not completed. -/
def State.targetBusy (s : State) (t : Nat) : Bool := s.launches.any (fun l => l.target == t && l.status.isNone)

/-- A key slot is erased, and its persisted copy (R341, R343). -/
def State.slotErase (s : State) (n : Nat) : State :=
  let s := { s with slotKey := SMap.set s.slotKey n [] }
  let s := { s with nv := { s.nv with recs := SMap.drop (SMap.drop s.nv.recs (2 * n)) (2 * n + 1) } }
  ((s.put (L.KS_SLOT.PERSIST n) 0).put (L.KS_SLOT.USAGE n) 0).put (L.KS_SLOT.KIND n) 0

/-- What the preparation does to the resource (Table 13.3), as far as nothing has to be waited for. -/
def State.ownPrepare (s : State) : Res → State
  | .csq q => s.csqOwnerChange q
  | .qe e => s.forAll (List.range 16) (fun s k => s.chOff (16 * e + k))
  | .queue q => s.put (L.QE_Q_CFG.EN (q / 512) (q % 512)) 0
  | .eth n => s.resetKeys (R.ETH_FN_CFG n) (R.ETH_FN_CFG n + 8)
  | .pci n => (s.pciFnEnd n).resetKeys (R.PCI_FN_CFG (n / 8) (n % 8)) (R.PCI_FN_CFG (n / 8) (n % 8) + 0x20)
  | .l3 n => if s.pitonWay (n / 64) (n / 16 % 4) (n % 16) then s else s.emptyWay (n / 64) (n / 16 % 4) (n % 16)
  | _ => s

/-- Work accepted before the release still holds the resource. -/
def State.ownBusy (s : State) : Res → Bool
  | .qe e => !(s.qeOf e).cmds.isEmpty || s.targetBusy (1 + e)
  | .queue q => s.qBusy q
  | .ce n => s.ceBusy n
  | .fp n => s.targetBusy (0x10 + n)
  | .mg g => s.groupOpen g
  | .l3 n => (s.allLines (n / 64) (uL3 (n / 16 % 4))).any (fun p => p.2 == n % 16)
  | .cairn => s.capBusy.isSome
  | _ => false

/-- The end of the preparation: flush, clear, erase. -/
def State.ownFinish (s : State) : Res → State
  | .queue q => s.qOff q
  | .ce n => s.ceRelease n
  | .l3 n =>
    if s.pitonWay (n / 64) (n / 16 % 4) (n % 16) then s.zeroRange (pitonBase (n / 64) (n / 16 % 4) (n % 16)) 0xC0000 else s
  | .ks n => s.slotErase n
  | _ => s

/-- OWN_RELEASE_DONE (R328, R330): in a later nanosecond than the acceptance the preparation is done, and the resource passes
to the other world unassigned. -/
def execOwnReleaseDone (sealed : Bool) (s : State) : Result :=
  match s.ownReqOf sealed with
  | none => .next s
  | some q =>
    let s := (s.elapseUntil (q.at_ + 1)).ownPrepare q.res
    if s.ownBusy q.res then .next s
    else
      let s := ((s.ownFinish q.res).setOwner q.res (!sealed)).setVi q.res none
      let s := s.endRelease q.res
      .next ((s.wldEvent L.WLD_EVT.OWN_CHG).ownDone sealed 0)

/-- OWN_RELEASE_TIMEOUT (R329): 2 ms after acceptance the release is abandoned and the refusal ends. -/
def execOwnReleaseTimeout (sealed : Bool) (s : State) : Result :=
  match s.ownReqOf sealed with
  | none => .next s
  | some q =>
    if s.ownBusy q.res then
      let s := s.elapseUntil (q.at_ + 2000000)
      let s := s.endRelease q.res
      .next (s.ownDone sealed 0x05)
    else .next s

/-- A write of WLD_OWN_RES (R326, R328). -/
def State.writeOwnRes (s : State) (c : Issuer) (v : Nat) : State :=
  let w := c.sealed
  if v.testBit 62 ∧ s.get (L.WLD_OWN_RES.READY w) = 1 then
    (s.put (L.WLD_OWN_RES.READY w) 0).put (L.WLD_OWN_RES.STATUS w) 0xFF
  else s

/-- OWN_RES_ACK (R328). -/
def execOwnResAck (c : Issuer) (v : Word) (s : State) : Result :=
  .next (s.issue c (fun c s => (s.answer .ok).writeOwnRes c v.toNat))

/-! ### IOMMU invalidation (R326) -/

/-- Cached translations of a world in a scope: 0 all, 1 one instance, 2 one page of one instance. -/
def invScope (w : Bool) (scope vi page : Nat) (t : TlbEnt) : Bool :=
  t.sealed == w && (scope == 0 || (t.vi == some vi && (scope == 1 || t.page == page)))

/-- A write of WLD_IOMMU_INV: the translations in scope go at once, and READY follows once accesses translated with them
are performed. -/
def State.writeIommuInv (s : State) (c : Issuer) (v : Nat) : State :=
  let w := c.sealed
  let scope := bits v 57 56
  if scope = 3 then s.reservedEnc iommuLog (R.WLD_IOMMU_INV w) c
  else if v.testBit 63 ∧ (SMap.get s.invReq (wBit w)).isSome then s.goEarly iommuLog (R.WLD_IOMMU_INV w) c
  else
    let s := ((s.put (L.WLD_IOMMU_INV.SCOPE w) scope).put (L.WLD_IOMMU_INV.VI w) (bits v 55 48)).put
      (L.WLD_IOMMU_INV.PAGE w) (bits v 47 12)
    if v.testBit 63 then
      { s.put (L.WLD_IOMMU_INVRES.READY w) 0 with
        invReq := SMap.set s.invReq (wBit w) (some ⟨scope, bits v 55 48, bits v 47 12⟩)
        iotlb := s.iotlb.filter (fun t => !invScope w scope (bits v 55 48) (bits v 47 12) t) }
    else s

/-- IOMMU_INVALIDATE (R326). -/
def execIommuInvalidate (c : Issuer) (v : Word) (s : State) : Result :=
  .next (s.issue c (fun c s => (s.answer .ok).writeIommuInv c v.toNat))

/-- IOMMU_INV_DONE (R326): what walks put back meanwhile in the scope of the accepted GO goes too, and READY is set. -/
def execIommuInvDone (sealed : Bool) (s : State) : Result :=
  match SMap.get s.invReq (wBit sealed) with
  | some q =>
    .next { s.put (L.WLD_IOMMU_INVRES.READY sealed) 1 with
      invReq := SMap.set s.invReq (wBit sealed) none
      iotlb := s.iotlb.filter (fun t => !invScope sealed q.scope q.vi q.page t) }
  | none => .next s

/-- A write of WLD_IOMMU_INVRES. -/
def State.writeInvRes (s : State) (c : Issuer) (v : Nat) : State :=
  s.when (v.testBit 62 = true) (fun s => s.put (L.WLD_IOMMU_INVRES.READY c.sealed) 0)

/-- IOMMU_INVRES_ACK (R326). -/
def execIommuInvresAck (c : Issuer) (v : Word) (s : State) : Result :=
  .next (s.issue c (fun c s => (s.answer .ok).writeInvRes c v.toNat))

/-! ### The world switch (R319 to R322) -/

/-- The address lies in the monitor image region (WLD_MON). -/
def State.inMonitor (s : State) (a : Nat) : Bool :=
  let b := s.get L.WLD_MON.BASE * 0x1000
  decide (b ≤ a ∧ a < b + 2 ^ s.get L.WLD_MON.LOG2SZ)

/-- The waiting GO of a hart is withdrawn, and its write retires with no effect (R320). -/
def State.goWithdraw (s : State) (h : Nat) : State :=
  s.when ((s.hartSt h).goWait = true) (fun s => s.setHart h { s.hartSt h with run := .run, goWait := false })

/-- The cluster starts its switch (R321 step 1): SWITCHING is 1 and fetch stops on both harts. -/
def State.switchStart (s : State) (d c : Nat) (target : Bool) : State :=
  let s := s.setBitOf (L.WLD_CL_WORLD.SWITCHING d) c
  s.forAll ([hartOf d c 0, hartOf d c 1].filter (fun h => !s.coreFailed h && !s.hartUnused h)) (fun s h =>
    let s := s.wcDrain h
    s.setHart h { s.hartSt h with run := .switching, goWait := false, goTarget := target, halted := false })

/-- A write of SKWSW by a hart in machine mode (R319, R320). One whose TARGET is the cluster's world has no effect but on the
other core's waiting GO, whose TARGET differs from it. -/
def State.writeWsw (s : State) (h v : Nat) : State :=
  let d := hartDie h
  let c := hartCluster h
  let target : Bool := v.testBit 1
  let other := hartOf d c (1 - hartCore h)
  if s.hartActs h = false then s
  else if s.inMonitor (s.hreg h 0x20).toNat = false then s.answer .illegal
  else
    let s := ((s.inMode h .m).answer .ok).put (L.SKWSW.TARGET h) (if target then 1 else 0)
    if v.testBit 0 = false ∨ s.clusterSwitching d c ∨ s.hartUnused h then s
    else if target = s.clusterSealed d c then s.goWithdraw other
    else if s.pairActive d c ∨ s.coreFailed other then s.switchStart d c target
    else if (s.hartSt other).goWait then
      if (s.hartSt other).goTarget = target then s.switchStart d c target else s.goWithdraw other
    else s.setHart h { s.hartSt h with run := .switching, goWait := true, goAt := s.up, goTarget := target }

/-- WORLD_SWITCH_GO (R320): a write of SKWSW, a CSR of machine mode (R142). -/
def execWorldSwitchGo (h : Fin 216) (c : Issuer) (v : Word) (s : State) : Result :=
  if c.agent = .hart h.val then
    .next (if (s.hartSt h).mode = .m then s.writeWsw h v.toNat else s.when (s.hartActs h = true) (fun s => s.answer .illegal))
  else .next (s.answer .illegal)

/-- WORLD_SWITCH_GO_WITHDRAW (R320): an M-mode interrupt is pending and enabled on the waiting hart, or 100 µs have
passed. -/
def execWorldSwitchGoWithdraw (h : Fin 216) (s : State) : Result :=
  if (s.hartSt h).goWait then
    if s.mIrqReady h then .next (s.goWithdraw h) else .next ((s.elapseUntil ((s.hartSt h).goAt + 100000)).goWithdraw h)
  else .next s

/-- A hart of the cluster. -/
def inCluster (d c h : Nat) : Bool := hartDie h == d && hartCluster h == c

/-- A read of the PCIe window or an access to the remote window that a hart of the cluster waits for (R379, R308). -/
def State.windowOpen (s : State) (d c : Nat) : Bool :=
  s.pciOpen.any (fun r => match r.user with
    | .core (.hart h) => inCluster d c h
    | _ => false) ||
  (s.fab.opens ++ s.fab.later).any (fun r => match r.user with
    | .core (.hart h) _ => inCluster d c h
    | _ => false)

/-- An access of a hart of the cluster has not completed (step 2 of R321): one on the ring or at a slice, a masked write or a
maintenance operation at its home, or an access to a window. -/
def State.clusterOutstanding (s : State) (d c : Nat) : Bool :=
  let mine (a : Access) : Bool := inCluster d c a.h
  s.ring.any mine || s.slices.any (fun p => p.2.waiting.any mine) || s.homeHolds (inCluster d c) || s.windowOpen d c

/-- The L1 caches and the L2 of a cluster, by structure. -/
def clusterCaches (c : Nat) : List Nat := [uL1d (2 * c), uL1d (2 * c + 1), uL1i (2 * c), uL1i (2 * c + 1), uL2 c]

/-- L1D and L2 are cleaned and invalidated and L1I is invalidated, as a set-and-way ALL under R156, as far as no line
waits for a transaction. -/
def State.flushCluster (s : State) (d c : Nat) : State :=
  s.forAll (clusterCaches c) (fun s u => s.forAll (s.swopLines d u) (fun s p => s.swopLine d u p.1 p.2 2))

/-- No line is left in the caches of the cluster. -/
def State.clusterEmpty (s : State) (d c : Nat) : Bool := (clusterCaches c).all (fun u => (s.swopLines d u).isEmpty)

/-- The supervisor and guest files of a hart are cleared; SKGFTAG is kept (R321 step 3). -/
def State.clearFiles (s : State) (h : Nat) : State :=
  { s with files := s.files.filter (fun p => !(decide (32 * h ≤ p.1 ∧ p.1 < 32 * h + 16))) }

/-- The sampling registers of a hart that a switch clears (R130). -/
def State.clearSampling (s : State) (h : Nat) : State :=
  (((s.put (L.SKSMPCFG.EN h) 0).wr (R.SKSMPINFO h) 0).wr (R.SKSMPPC h) 0).wr (R.SKSMPADDR h) 0

/-- The prefetch streams of a cluster are cleared. -/
def State.clearClusterStreams (s : State) (d c : Nat) : State :=
  ((s.clearStreams d (2 * c)).clearStreams d (2 * c + 1)).clearStreams d (18 + c)

/-- The last step of the switch (R321 step 6). -/
def State.switchEnd (s : State) (d c : Nat) : State :=
  let hs := [hartOf d c 0, hartOf d c 1].filter (fun h => !s.coreFailed h && !s.hartUnused h)
  let target : Bool := hs.any (fun h => (s.hartSt h).goTarget)
  let s := s.forAll [hartOf d c 0, hartOf d c 1] (fun s h => (s.clearFiles h).clearSampling h)
  let s := s.clearClusterStreams d c
  let s := (s.putBit (L.WLD_CL_WORLD.WORLD d) c target).clearBitOf (L.WLD_CL_WORLD.SWITCHING d) c
  let s := s.inc (L.WLD_SW_CNT.COUNT d)
  s.forAll (hs.filter (fun h => (s.hartSt h).run == .switching)) (fun s h =>
    s.setHart h { s.hartSt h with run := .run, mode := .m })

/-! ### Writes of the world registers (R353, R354) -/

/-- Writes of the hub block: by the Sealed world, or, for the copies of each world, by their own (R354). -/
def State.wldGuard (s : State) (c : Issuer) (key : Nat) (perWorld : Bool) (f : State → State) : State :=
  if perWorld ∨ c.sealed then f (s.answer .ok) else s.worldError iommuLog (regAddr key) c

/-- A write of the hub WLD_ block with a rule of its own; `n` is the index in a family. The Belay registers are in
`writeBelay`. -/
def State.writeWldHub (s : State) (r : Reg) (n : Nat) (c : Issuer) (v : Nat) : Option State :=
  let only (sealed : Bool) (key : Nat) (f : State → State) : Option State :=
    some (if c.sealed = sealed then f s else s.worldError iommuLog (regAddr key) c)
  match r with
  | .WLD_OWN_REQ => some (s.writeOwnReq c v)
  | .WLD_OWN_RES => some (s.writeOwnRes c v)
  | .WLD_IOMMU_INV => some (s.writeIommuInv c v)
  | .WLD_IOMMU_INVRES => some (s.writeInvRes c v)
  | .WLD_MON =>
    if c.agent ≠ .basecamp then some (s.worldError iommuLog (regAddr R.WLD_MON) c)
    else if bits v 53 48 < 12 ∨ 30 < bits v 53 48 then some (s.reservedEnc iommuLog R.WLD_MON c)
    else none
  | .WLD_IOMMU_CTX_S => only true R.WLD_IOMMU_CTX_S (fun s =>
      (s.put L.WLD_IOMMU_CTX_S.MODE (if bits v 63 60 = 9 then 9 else 0)).put L.WLD_IOMMU_CTX_S.PPN (bits v 43 0))
  | .WLD_IOMMU_CTX_O => only false R.WLD_IOMMU_CTX_O (fun s =>
      (s.put L.WLD_IOMMU_CTX_O.MODE (if bits v 63 60 = 9 then 9 else 0)).put L.WLD_IOMMU_CTX_O.PPN (bits v 43 0))
  | .WLD_IOMMU_VIT_S => only true R.WLD_IOMMU_VIT_S (fun s =>
      (s.put L.WLD_IOMMU_VIT_S.EN (bits v 63 63)).put L.WLD_IOMMU_VIT_S.BASE (bits v 47 12))
  | .WLD_IOMMU_VIT_O => only false R.WLD_IOMMU_VIT_O (fun s =>
      (s.put L.WLD_IOMMU_VIT_O.EN (bits v 63 63)).put L.WLD_IOMMU_VIT_O.BASE (bits v 47 12))
  | .WLD_IOMMU_FLT =>
    let w := c.sealed
    some (s.when (v.testBit 63 = true) (fun s => s.clearFault w))
  | .WLD_OPEN_RANGE =>
    let z := bits v 53 48
    some (((s.put (L.WLD_OPEN_RANGE.EN n) (bits v 63 63)).put (L.WLD_OPEN_RANGE.LOG2SZ n)
      (if z < 12 then 12 else if 37 < z then 37 else z)).put (L.WLD_OPEN_RANGE.BASE n) (bits v 47 12))
  | _ => none

/-- Registers of the hub block that each world has a copy of, or writes for itself. -/
def wldPerWorld : Reg → Bool
  | .WLD_OWN_REQ | .WLD_OWN_RES | .WLD_IOMMU_INV | .WLD_IOMMU_INVRES | .WLD_IOMMU_FLT | .WLD_IOMMU_CTX_O
  | .WLD_IOMMU_VIT_O => true
  | _ => false

end Sys2Proof.Machine
end

