-- ==== Sys2Proof/Machine/KeyStore.lean ====
section
/-! DEFINITION. Basecamp, the key store and the debug token (13): boot and recovery, key slots and commands, attestation. -/

namespace Sys2Proof.Machine

abbrev ksLog : Nat := 266

def State.setKs (s : State) (k : Ks) : State := { s with ks := k }

/-! ### The MRAM (R35, R344, R346) -/

/-- The read mapping of the MRAM. -/
abbrev mramBase : Nat := 0xF00100000000
/-- The LMS state partition. -/
abbrev lmsBase : Nat := 0xF001007E0000
/-- Newt SRAM, outside the physical map. -/
abbrev newtSram : Nat := 2 ^ 48

/-- Bytes of memory as numbers. -/
abbrev State.bytesAt (s : State) (a n : Nat) : Bytes := (s.readBytes a n).map BitVec.toNat

/-- CRC-16 with polynomial 0x1021 over the bits of a 48-bit number from the top (R346). -/
def crc16 (v : Nat) : Nat :=
  (List.range 48).foldl (fun c i =>
    let b : Bool := c.testBit 15 != v.testBit (47 - i)
    let c := 2 * c % 2 ^ 16
    if b then c ^^^ 0x1021 else c) 0xFFFF

/-- An index word (R346). -/
def indexWord (i : Nat) : Nat := i % 2 ^ 40 + (crc16 (i % 2 ^ 40)) <<< 48

/-- The INDEX of a valid word. -/
def wordIndex (w : Nat) : Option Nat :=
  if w / 2 ^ 48 = crc16 (w % 2 ^ 48) ∧ bits w 47 40 = 0 then some (w % 2 ^ 40) else none

/-- The words of the LMS state partition that hold anything; an all-zero word is invalid. -/
def State.indexWords (s : State) : List Nat :=
  ((s.mem.filter (fun p => decide (lmsBase ≤ p.1 ∧ p.1 < lmsBase + 0x10000))).map (fun p => (p.1 - lmsBase) / 8)).dedup

/-- The scan of step 4: the highest valid INDEX plus 1, or 0 (R346). -/
def State.indexScan (s : State) : Nat :=
  s.indexWords.foldl (fun n k =>
    match wordIndex (s.readLE (lmsBase + 8 * k) 8) with
    | some i => max n (i + 1)
    | none => n) 0

/-! ### Slots (R338 to R340) -/

/-- A slot takes a key with its attributes. -/
def State.setSlot (s : State) (n kind usage : Nat) (key : Bytes) : State :=
  { (s.put (L.KS_SLOT.KIND n) kind).put (L.KS_SLOT.USAGE n) usage with slotKey := SMap.set s.slotKey n key }

/-- KIND and USAGE of a device slot: slot 0 is an HMAC key of usage DERIVE (R340). -/
def deviceAttr (n : Nat) : Nat × Nat :=
  if n = 0 then (4, 0x10) else (bits (Config.deviceAttr n) 3 0, bits (Config.deviceAttr n) 13 8)

/-- Slots 0 to 7 are filled (R332 step 2). -/
def State.fillDevice (s : State) : State :=
  s.forAll (List.range 8) (fun s n =>
    let a := deviceAttr n
    s.setSlot n a.1 a.2 ((beBytes 64 (Config.deviceKey n)).take (kindBytes a.1)))

/-- The record of a slot with the higher sequence number (R344). -/
def State.keyRecord (s : State) (n : Nat) : Option KeyRec :=
  let a := SMap.get s.nv.recs (2 * n)
  let b := SMap.get s.nv.recs (2 * n + 1)
  if a.seq = 0 ∧ b.seq = 0 then none else if a.seq < b.seq then some b else some a

/-- Persisted slots are unwrapped and the SVN floors read (R332 step 3). -/
def State.loadRecords (s : State) : State :=
  let s := s.forAll ((s.nv.recs.map (fun p => p.1 / 2)).dedup) (fun s n =>
    match s.keyRecord n with
    | some r => (s.setSlot n r.kind r.usage r.key).put (L.KS_SLOT.PERSIST n) 1
    | none => s)
  s.wr R.KS_SVN (BitVec.ofNat 64 s.nv.svn)

/-! ### Images (R333 to R335) -/

/-- An image header (Table 13.5) and where its body and signature stand. -/
structure Image where
  head : Bytes
  body : Bytes
  sig : Bytes

abbrev le (b : Bytes) (o n : Nat) : Nat := ofBytesLE ((b.drop o).take n)
abbrev Image.kind (i : Image) : Nat := le i.head 4 1
abbrev Image.svn (i : Image) : Nat := le i.head 6 2
abbrev Image.length (i : Image) : Nat := le i.head 8 4
abbrev Image.sigLen (i : Image) : Nat := le i.head 0xC 4
abbrev Image.load (i : Image) : Nat := le i.head 0x10 8
abbrev Image.entry (i : Image) : Nat := le i.head 0x18 8
abbrev Image.next (i : Image) : Nat := le i.head 0x20 4
abbrev Image.pub (i : Image) : Bytes := (i.head.drop 0x60).take 60
abbrev Image.isUser (i : Image) : Bool := decide (0x10 ≤ i.kind ∧ i.kind ≤ 0x1F)

/-- The header is well formed. -/
def Image.headOk (i : Image) : Bool :=
  le i.head 0 4 = 0x5259494D && le i.head 5 1 = 1 && (i.kind = 1 || i.kind = 2 || i.kind = 3 || i.isUser) &&
    decide (i.sigLen ≤ 20480) && ((i.head.drop 0x24).take 28).all (fun x => x == 0) && (i.head.drop 0x9C).all (fun x => x == 0) &&
    (i.kind ≠ 2 || i.load % 0x1000 = 0) && decide (i.body.length = i.length)

/-- The SVN floor of a kind (KS_SVN): MGMT, MONITOR, SEALED, user. -/
def floorOf (svn kind : Nat) : Nat :=
  let k := if kind = 1 then 0 else if kind = 2 then 1 else if kind = 3 then 2 else 3
  bits svn (16 * k + 15) (16 * k)

/-- The key is trusted (R334). -/
def State.trusted (s : State) (pub : Bytes) : Bool :=
  sha256 pub == (match s.nv.ownerHash with | some h => h | none => beBytes 32 Config.rootHash)

/-- The checks of R333 in the order of KS_BOOT.CAUSE; 0 is accepted. -/
def State.imageCause (s : State) (i : Image) : Nat :=
  if i.headOk = false then 2
  else if sha256 i.body ≠ (i.head.drop 0x40).take 32 then 3
  else if hssVerify i.pub i.head i.sig = false then 4
  else if s.trusted i.pub = false then 5
  else if i.svn < floorOf s.nv.svn i.kind then 6
  else 0

/-- The image whose header stands at an offset of the firmware partition. -/
def State.imageAt (s : State) (o : Nat) : Image :=
  let h := s.bytesAt (mramBase + o) 256
  let n := min (le h 8 4) (0x600000 - o)
  let g := (o + 256 + n + 63) / 64 * 64
  ⟨h, s.bytesAt (mramBase + o + 256) n, s.bytesAt (mramBase + g) (min (le h 0xC 4) (0x600000 - g))⟩

/-- The chain of images from an offset, up to the last or to one that fails, with the cause of the failure. -/
def State.imageChain (s : State) : Nat → Nat → List Image × Nat
  | 0, _ => ([], 2)
  | f + 1, o =>
    if 0x600000 < o + 256 then ([], 2)
    else
      let i := s.imageAt o
      let c := s.imageCause i
      if c ≠ 0 then ([], c)
      else if i.next = 0 then ([i], 0)
      else
        let r := s.imageChain f (o + i.next)
        (i :: r.1, r.2)

/-- The slot is accepted: every image, and one image of each kind that must be there. -/
def State.slotImages (s : State) (o : Nat) : List Image × Nat :=
  let r := s.imageChain 24576 o
  if r.2 ≠ 0 then r
  else if [1, 2, 3].all (fun k => (r.1.filter (fun i => i.kind == k)).length = 1) then r
  else ([], 7)

/-! ### Measurements (R337) -/

/-- The 32 bytes of MEASn. -/
def State.meas (s : State) (n : Nat) : Bytes := (List.range 4).flatMap (fun k => bytesLE 8 (s.get (L.KS_MEAS.MEAS n k)))

/-- MEASn is extended by a digest. -/
def State.extend (s : State) (n : Nat) (x : Bytes) : State :=
  let d := sha256 (s.meas n ++ x)
  s.forAll (List.range 4) (fun s k => s.put (L.KS_MEAS.MEAS n k) (le d (8 * k) 8))

/-- Basecamp's extensions (R337). -/
def State.measureImages (s : State) (l : List Image) : State :=
  let s := s.forAll [1, 2, 3] (fun s k => s.forAll (l.filter (fun i => i.kind == k)) (fun s i => s.extend (k - 1) (sha256 i.head)))
  s.forAll (l.filter Image.isUser) (fun s i => s.extend 3 (sha256 i.head))

/-- The size of the monitor region (WLD_MON.LOG2SZ): the smallest that holds the image. -/
def regionLog (n : Nat) : Nat := ((List.range 18).find? (fun k => decide (n ≤ 2 ^ (12 + k)))).elim 30 (fun k => 12 + k)

/-! ### Basecamp (R332, R336) -/

/-- Recovery is entered with a cause (R336). -/
def State.recovery (s : State) (cause : Nat) : State := (s.put L.KS_BOOT.STAGE 3).put L.KS_BOOT.CAUSE cause

/-- Basecamp writes WLD_MON, unless it has been written since package reset (R10, R319). -/
def State.writeMonitor (s : State) (log base : Nat) : State :=
  if SMap.get s.fieldOps.done R.WLD_MON = 0 then
    let s := (s.put L.WLD_MON.LOG2SZ log).put L.WLD_MON.BASE base
    { s with fieldOps := { s.fieldOps with done := SMap.set s.fieldOps.done R.WLD_MON (BitVec.allOnes 64) } }
  else s

/-- Steps 5 and 6 for an accepted slot. -/
def State.bootSlot (s : State) (slot : Nat) (l : List Image) : State :=
  let s := (s.put L.KS_BOOT.SLOT slot).measureImages l
  let of (k : Nat) : Option Image := l.find? (fun i => i.kind == k)
  let mon := (of 2).getD ⟨[], [], []⟩
  let s := s.writeMonitor (regionLog mon.length) (bits mon.load 47 12)
  let user := ((l.filter Image.isUser).map Image.svn)
  s.setKs { s.ks with
    booted := ([1, 2, 3].map (fun k => (of k).map Image.svn)) ++ [user.min?]
    mgmt := ((of 1).map Image.body).getD []
    entry := mon.entry }

/-- BASECAMP_BOOT (R332 steps 1 to 6, R336): PUF, slots, records, index scan, images of slot A and then of slot B. -/
def execBasecampBoot (pufOk : Bool) (s : State) : Result :=
  if s.get L.KS_BOOT.STAGE ≠ 1 ∨ s.ks.booted ≠ [] then .next s
  else if pufOk = false then .next (s.recovery 1)
  else
    let s := ((s.put L.KS_STATUS.PUF_OK 1).fillDevice).loadRecords
    let s := s.put L.KS_STATUS.OWNER (if s.nv.ownerHash.isSome then 1 else 0)
    let s := (s.put L.KS_STATUS.IDX_READY 1).put L.KS_ATT_IDX.NEXT s.indexScan
    let a := s.slotImages 0
    if a.2 = 0 then .next (s.bootSlot 0 a.1)
    else
      let b := s.slotImages 0x300000
      if b.2 = 0 then .next (s.bootSlot 1 b.1) else .next (s.recovery b.2)

/-- BASECAMP_HANDOFF (R332 step 7, R418 step 6): the MGMT image is in Newt SRAM and runs, the other Newt cores are
released, and PWR_CORE_VEC is written. -/
def execBasecampHandoff (s : State) : Result :=
  if s.get L.KS_BOOT.STAGE ≠ 1 ∨ s.ks.booted = [] then .next s
  else
    let s := s.writeBytes newtSram ((s.ks.mgmt.take 0x100000).map (BitVec.ofNat 8))
    let s := (s.put L.PWR_CORE_VEC.VEC (bits s.ks.entry 47 2)).put L.PWR_CORE_VEC.VALID 1
    let s := s.setKs { s.ks with newt := 15, mgmt := [] }
    .next (s.put L.KS_BOOT.STAGE 2)

/-- RECOVERY_IMAGE (R336): one MGMT image of at most 1 MiB over the UART; a valid one runs. -/
def execRecoveryImage (image : List Nat) (s : State) : Result :=
  if s.get L.KS_BOOT.STAGE ≠ 3 ∨ s.get L.KS_BOOT.RECOVERY = 1 ∨ 0x100000 < image.length then .next s
  else
    let n := le image 8 4
    let i : Image := ⟨image.take 256, (image.drop 256).take n, ((image.drop ((256 + n + 63) / 64 * 64))).take (le image 0xC 4)⟩
    if i.kind = 1 ∧ s.imageCause i = 0 then
      .next ((s.writeBytes newtSram (i.body.map (BitVec.ofNat 8))).put L.KS_BOOT.RECOVERY 1)
    else .next s

/-! ### Key-store commands (R341) -/

abbrev ksOk : Nat := 0
abbrev ksBadCmd : Nat := 1
abbrev ksNotOwner : Nat := 2
abbrev ksBadSlot : Nat := 3
abbrev ksUsage : Nat := 4
abbrev ksUnwrapFail : Nat := 5
abbrev ksAccess : Nat := 6
abbrev ksExhausted : Nat := 7
abbrev ksNotReady : Nat := 8
abbrev ksMram : Nat := 9

/-- A command: the world that wrote it and its arguments. -/
structure KsCmd where
  sealed : Bool
  cmd : Nat
  slot : Nat
  parent : Nat
  kind : Nat
  usage : Nat
  addr : Nat
  addr2 : Nat
  len : Nat
  /-- MRAM writes of the command read back as written. -/
  mramOk : Bool

abbrev KsCmd.tags (x : KsCmd) : Issuer := unitIssuer x.sealed

abbrev State.ksReq (s : State) (w : Bool) : Option KsReq := SMap.get s.ks.reqs (wBit w)
def State.setKsReq (s : State) (w : Bool) (r : Option KsReq) : State :=
  s.setKs { s.ks with reqs := SMap.set s.ks.reqs (wBit w) r }

/-- KIND and USAGE that Table 13.6 allows together. -/
def attrsOk (kind usage : Nat) : Bool :=
  decide (1 ≤ kind ∧ kind ≤ 4) && (!usage.testBit 0 || kind = 3) && (!usage.testBit 3 || kind = 2) && (!usage.testBit 4 || kind = 4)

/-- The slot belongs to the writer's world and is not being released (R343). -/
def State.slotMine (s : State) (x : KsCmd) (n : Nat) : Bool := s.ownerSealed (.ks n) == x.sealed && !s.isReleasing (.ks n)

/-- Slots 1 and 2 serve only the key store itself (R340); an empty slot is no source. -/
def State.badSource (s : State) (n : Nat) : Bool := n = 1 || n = 2 || s.slotKind n = 0

/-- The checks before the action, in the order of Table 13.8: `target` must be an empty slot that no device slot is,
`own` a non-empty one; `parent` names a source with a kind and a usage bit. -/
def State.ksChecks (s : State) (x : KsCmd) (target source : Bool) (parent : Option (Nat × Nat)) : Nat :=
  if s.slotMine x x.slot = false ∨ (parent.isSome ∧ s.slotMine x x.parent = false) then ksNotOwner
  else if (target ∧ (x.slot < 8 ∨ s.slotKind x.slot ≠ 0)) ∨ (source ∧ s.badSource x.slot) ∨
      (parent.isSome ∧ s.badSource x.parent) then ksBadSlot
  else match parent with
    | some (kind, bit) =>
      if s.slotKind x.parent ≠ kind ∨ (s.slotUsage x.parent).testBit bit = false then ksUsage else ksOk
    | none => ksOk

/-- GEN. -/
def State.ksGen (s : State) (x : KsCmd) : State × Nat :=
  let c := s.ksChecks x true false none
  if c ≠ 0 then (s, c)
  else if attrsOk x.kind x.usage = false then (s, ksUsage)
  else
    let r := s.freeBytes (kindBytes x.kind)
    (r.1.setSlot x.slot x.kind x.usage r.2, ksOk)

/-- The key that DERIVE gives: HMAC-SHA-256 in counter mode. -/
def kdf (parent label : Bytes) (n : Nat) : Bytes :=
  ((List.range ((n + 31) / 32)).flatMap (fun i => hash256.hmac parent (Config.kdfInput label (i + 1) (8 * n)))).take n

/-- DERIVE. -/
def State.ksDerive (s : State) (x : KsCmd) : State × Nat :=
  let c := s.ksChecks x true false (some (4, 4))
  if c ≠ 0 then (s, c)
  else if attrsOk x.kind x.usage = false then (s, ksUsage)
  else
    let r := s.physRead 0xFF x.tags x.addr 32
    if r.2.err ∨ r.2.poison then (r.1, ksAccess)
    else (r.1.setSlot x.slot x.kind x.usage (kdf (SMap.get s.slotKey x.parent) r.2.data (kindBytes x.kind)), ksOk)

/-- IMPORT. -/
def State.ksImport (s : State) (x : KsCmd) : State × Nat :=
  if x.len ≠ 32 ∧ x.len ≠ 48 ∧ x.len ≠ 80 then (s, ksBadCmd)
  else
    let c := s.ksChecks x true false (some (2, 3))
    if c ≠ 0 then (s, c)
    else
      let r := s.physRead 0xFF x.tags x.addr x.len
      if r.2.err ∨ r.2.poison then (r.1, ksAccess)
      else
        match kwpUnwrap (SMap.get s.slotKey x.parent) r.2.data with
        | none => (r.1, ksUnwrapFail)
        | some p =>
          let w := ofBytesLE (p.take 8)
          let kind := bits w 3 0
          let usage := bits w 13 8
          if w ≠ kind + (usage <<< 8) ∨ attrsOk kind usage = false ∨ p.length ≠ 8 + kindBytes kind then (r.1, ksUsage)
          else (r.1.setSlot x.slot kind usage (p.drop 8), ksOk)

/-- EXPORT: the attribute word and the key, wrapped under the KEK. -/
def State.ksExport (s : State) (x : KsCmd) : State × Nat :=
  let c := s.ksChecks x false true (some (2, 3))
  if c ≠ 0 then (s, c)
  else if (s.slotUsage x.slot).testBit 5 = false then (s, ksUsage)
  else
    let plain := bytesLE 8 (s.slotKind x.slot + (s.slotUsage x.slot <<< 8)) ++ SMap.get s.slotKey x.slot
    let w := s.physWrite 0xFF x.tags x.addr (kwpWrap (SMap.get s.slotKey x.parent) plain)
    (w.1, if w.2 then ksOk else ksAccess)

/-- ERASE. -/
def State.ksErase (s : State) (x : KsCmd) : State × Nat :=
  if s.slotMine x x.slot = false then (s, ksNotOwner)
  else if x.slot < 8 then (s, ksBadSlot)
  else if s.get (L.KS_SLOT.PERSIST x.slot) = 1 ∧ x.mramOk = false then (s, ksMram)
  else (s.slotErase x.slot, ksOk)

/-- PERSIST (R344): the record not written last is written with the next sequence number. -/
def State.ksPersist (s : State) (x : KsCmd) : State × Nat :=
  if s.slotMine x x.slot = false then (s, ksNotOwner)
  else if x.slot < 8 ∨ s.slotKind x.slot = 0 then (s, ksBadSlot)
  else if x.mramOk = false then (s, ksMram)
  else
    let a := SMap.get s.nv.recs (2 * x.slot)
    let b := SMap.get s.nv.recs (2 * x.slot + 1)
    let r : KeyRec := ⟨max a.seq b.seq + 1, s.slotKind x.slot, s.slotUsage x.slot, SMap.get s.slotKey x.slot⟩
    let k := if a.seq ≤ b.seq then 2 * x.slot else 2 * x.slot + 1
    ({ s with nv := { s.nv with recs := SMap.set s.nv.recs k r } }.put (L.KS_SLOT.PERSIST x.slot) 1, ksOk)

/-- MEASURE (R337): MEAS4 to MEAS7. -/
def State.ksMeasure (s : State) (x : KsCmd) : State × Nat :=
  if 4 ≤ x.slot % 8 then (s, ksBadSlot)
  else
    let r := s.physRead 0xFF x.tags x.addr 32
    if r.2.err ∨ r.2.poison then (r.1, ksAccess) else (r.1.extend (x.slot % 8 + 4) r.2.data, ksOk)

/-- SVN_COMMIT (R335): each floor rises to the SVN of the image booted, and never falls. -/
def State.ksSvnCommit (s : State) (x : KsCmd) : State × Nat :=
  if x.mramOk = false then (s, ksMram)
  else
    let svn := (List.range 4).foldl (fun v k =>
      let old := bits s.nv.svn (16 * k + 15) (16 * k)
      let new := match s.ks.booted[k]? with | some (some n) => max old n | _ => old
      v + new * 2 ^ (16 * k)) 0
    ({ s with nv := { s.nv with svn := svn } }.wr R.KS_SVN (BitVec.ofNat 64 svn), ksOk)

/-! ### Attestation (R345 to R349) -/

abbrev treeId (t : Nat) : Bytes := beBytes 16 (Config.attId t)
abbrev treeSecret (t : Nat) : OtsSecret := fun q i => beBytes 32 (Config.attSecret t q i)

/-- The 60-byte HSS public key (R345). -/
def attPub : Bytes := beBytes 4 2 ++ lmsPub (treeId 0) (treeSecret 0)

/-- The HSS signature of index `i` over a body (R349). -/
def attSign (i : Nat) (body : Bytes) : Bytes :=
  let j := i / 2 ^ 20
  let q := i % 2 ^ 20
  let pub := lmsPub (treeId (j + 1)) (treeSecret (j + 1))
  beBytes 4 1 ++ lmsSign (treeId 0) (treeSecret 0) j (beBytes 32 (Config.attRandom 0 j)) pub ++ pub ++
    lmsSign (treeId (j + 1)) (treeSecret (j + 1)) q (beBytes 32 (Config.attRandom (j + 1) q)) body

/-- The evidence body (Table 13.9). -/
def State.evidence (s : State) (sealed : Bool) (i : Nat) (input : Bytes) : Bytes :=
  let flag (b : Bool) (k : Nat) : Nat := if b then 2 ^ k else 0
  bytesLE 4 0x52594556 ++ bytesLE 2 1 ++
    bytesLE 2 (flag sealed 0 + flag (s.get L.WLD_DBG.SEALED_EN = 1) 1 + flag s.nv.ownerHash.isSome 2 +
      flag (s.get L.KS_BOOT.SLOT = 1) 3 + flag (s.get L.KS_BOOT.RECOVERY = 1) 4) ++
    bytesLE 4 0x5EC19216 ++ [0x41, 0x31, 0, 0] ++ bytesLE 8 (s.get L.TB_SERIAL.SERIAL) ++ bytesLE 8 s.frame ++
    bytesLE 8 s.tb.ns ++ bytesLE 8 i ++ input ++ (List.range 8).flatMap s.meas ++
    (List.range 4).flatMap (fun k => bytesLE 8 (s.get (L.FAB_DIGEST.DIGEST k))) ++
    (match s.nv.ownerHash with | some h => h | none => zeros 32) ++ bytesLE 8 s.nv.svn ++ zeros 40

/-- The signature is computed and the evidence written. -/
def State.attFinish (s : State) (w : Bool) (r : KsReq) : State :=
  let body := s.evidence w r.index r.input
  let p := s.physWrite 0xFF (unitIssuer w) r.addr2 (body ++ attSign r.index body)
  p.1.setKsReq w (some { r with status := some (if p.2 then ksOk else ksAccess) })

/-- ATTEST (R347, R348): the index is committed and read back, then the evidence is signed and written, at once or when
the second-level tree is there. -/
def State.ksAttest (s : State) (x : KsCmd) : State :=
  let fin (s : State) (st : Nat) : State := s.setKsReq x.sealed (some ⟨some st, 0, [], 0⟩)
  let i := s.get L.KS_ATT_IDX.NEXT
  if s.get L.KS_STATUS.IDX_READY = 0 then fin s ksNotReady
  else if 2 ^ 40 ≤ i then fin s ksExhausted
  else
    let r := s.physRead 0xFF x.tags x.addr 96
    if r.2.err ∨ r.2.poison then fin r.1 ksAccess
    else
      let s := r.1.put L.KS_ATT_IDX.NEXT (i + 1)
      if x.mramOk = false then
        fin ((s.useFree).writeLE (lmsBase + 8 * (i % 8192)) 8 (Config.freeWord s.free)) ksMram
      else
        let s := s.writeLE (lmsBase + 8 * (i % 8192)) 8 (indexWord i)
        let j := i / 2 ^ 20
        let start : Bool := decide (s.nv.tree < j ∨ (s.nv.tree = j ∧ 786432 ≤ i % 2 ^ 20))
        let s := s.when (start = true) (fun s => s.setKs { s.ks with treeBusy := true })
        let q : KsReq := ⟨none, i, r.2.data, x.addr2⟩
        if s.nv.tree < j then s.setKsReq x.sealed (some q) else s.attFinish x.sealed q

/-- What a command does, with its status; ATTEST reports its own way. -/
def State.ksRun (s : State) (x : KsCmd) (reserved : Bool) : State :=
  let fin (r : State × Nat) : State := r.1.setKsReq x.sealed (some ⟨some r.2, 0, [], 0⟩)
  if reserved ∨ x.cmd = 0 ∨ 9 < x.cmd ∨ (8 ≤ x.cmd ∧ x.sealed = false) then fin (s, ksBadCmd)
  else if s.get L.KS_STATUS.PUF_OK = 0 then fin (s, ksNotReady)
  else match x.cmd with
    | 1 => fin (s.ksGen x)
    | 2 => fin (s.ksDerive x)
    | 3 => fin (s.ksImport x)
    | 4 => fin (s.ksExport x)
    | 5 => fin (s.ksErase x)
    | 6 => fin (s.ksPersist x)
    | 7 => s.ksAttest x
    | 8 => fin (s.ksMeasure x)
    | _ => fin (s.ksSvnCommit x)

/-- A write of KS_CMD (R341). -/
def State.writeKsCmd (s : State) (c : Issuer) (v : Nat) (mramOk : Bool) : State :=
  let w := c.sealed
  if v.testBit 63 ∧ (s.ksReq w).isSome then s.goEarly ksLog (R.KS_CMD w) c
  else
    let s := (((((s.put (L.KS_CMD.USAGE w) (bits v 35 30)).put (L.KS_CMD.KIND w) (bits v 27 24)).put
      (L.KS_CMD.PARENT w) (bits v 23 16)).put (L.KS_CMD.SLOT w) (bits v 15 8)).put (L.KS_CMD.CMD w) (bits v 3 0))
    if v.testBit 63 then
      let s := (s.put (L.KS_RES.READY w) 0).put (L.KS_RES.STATUS w) 0xFF
      s.ksRun ⟨w, bits v 3 0, bits v 15 8, bits v 23 16, bits v 27 24, bits v 35 30, s.get (L.KS_ARG0.ADDR w),
        s.get (L.KS_ARG1.ADDR2 w), s.get (L.KS_ARG2.LEN w), mramOk⟩
        (bits v 62 36 != 0 || bits v 29 28 != 0 || bits v 7 4 != 0)
    else s

/-- GEN (R341). -/
def execGen (c : Issuer) (v : Word) (s : State) : Result :=
  s.devCmd (fun s => .next (s.issue c (fun c s => (s.answer .ok).writeKsCmd c v.toNat true)))
/-- DERIVE (R341). -/
def execDerive (c : Issuer) (v : Word) (s : State) : Result :=
  s.devCmd (fun s => .next (s.issue c (fun c s => (s.answer .ok).writeKsCmd c v.toNat true)))
/-- IMPORT (R341). -/
def execImportKey (c : Issuer) (v : Word) (s : State) : Result :=
  s.devCmd (fun s => .next (s.issue c (fun c s => (s.answer .ok).writeKsCmd c v.toNat true)))
/-- EXPORT (R341). -/
def execExportKey (c : Issuer) (v : Word) (s : State) : Result :=
  s.devCmd (fun s => .next (s.issue c (fun c s => (s.answer .ok).writeKsCmd c v.toNat true)))
/-- ERASE (R341). -/
def execErase (c : Issuer) (v : Word) (mramOk : Bool) (s : State) : Result :=
  s.devCmd (fun s => .next (s.issue c (fun c s => (s.answer .ok).writeKsCmd c v.toNat mramOk)))
/-- PERSIST (R344). -/
def execPersist (c : Issuer) (v : Word) (mramOk : Bool) (s : State) : Result :=
  s.devCmd (fun s => .next (s.issue c (fun c s => (s.answer .ok).writeKsCmd c v.toNat mramOk)))
/-- ATTEST (R347). -/
def execAttest (c : Issuer) (v : Word) (mramOk : Bool) (s : State) : Result :=
  s.devCmd (fun s => .next (s.issue c (fun c s => (s.answer .ok).writeKsCmd c v.toNat mramOk)))
/-- MEASURE (R337). -/
def execMeasure (c : Issuer) (v : Word) (s : State) : Result :=
  s.devCmd (fun s => .next (s.issue c (fun c s => (s.answer .ok).writeKsCmd c v.toNat true)))
/-- SVN_COMMIT (R335). -/
def execSvnCommit (c : Issuer) (v : Word) (mramOk : Bool) (s : State) : Result :=
  s.devCmd (fun s => .next (s.issue c (fun c s => (s.answer .ok).writeKsCmd c v.toNat mramOk)))

/-- KS_COMMAND_DONE (R341): the command ends, unless it is an ATTEST that waits for its tree. -/
def execKsCommandDone (sealed : Bool) (s : State) : Result :=
  match s.ksReq sealed with
  | some ⟨some st, _, _, _⟩ =>
    .next (((s.put (L.KS_RES.READY sealed) 1).put (L.KS_RES.STATUS sealed) st).setKsReq sealed none)
  | _ => .next s

/-- A write of KS_RES (R326, R341). -/
def State.writeKsRes (s : State) (c : Issuer) (v : Nat) : State :=
  let w := c.sealed
  if v.testBit 62 ∧ s.get (L.KS_RES.READY w) = 1 then (s.put (L.KS_RES.READY w) 0).put (L.KS_RES.STATUS w) 0xFF else s

/-- KS_RES_ACK (R341). -/
def execKsResAck (c : Issuer) (v : Word) (s : State) : Result :=
  .next (s.issue c (fun c s => (s.answer .ok).writeKsRes c v.toNat))

/-- ATT_TREE_DONE (R348): the next tree is stored, and an ATTEST that waited for it goes on. -/
def execAttTreeDone (s : State) : Result :=
  s.devCmd (fun s =>
    if s.ks.treeBusy then
      let s := { s.setKs { s.ks with treeBusy := false } with nv := { s.nv with tree := s.nv.tree + 1 } }
      .next (s.forAll [true, false] (fun s w =>
        match s.ksReq w with
        | some r => if r.status = none ∧ r.index / 2 ^ 20 ≤ s.nv.tree then s.attFinish w r else s
        | none => s))
    else .next s)

/-- A write of a KS_ register with a rule of its own (R355). -/
def State.writeKs (s : State) (r : Reg) (key : Nat) (c : Issuer) (v : Nat) : Option State :=
  match r with
  | .KS_CMD => some (s.writeKsCmd c v true)
  | .KS_RES => some (s.writeKsRes c v)
  | .KS_ARG0 | .KS_ARG1 | .KS_ARG2 => none
  | _ => some (s.forbidden ksLog key c)

/-- What a read of a KS_ register computes: the public key of the attestation key (R345). -/
def readKs (r : Reg) (n : Nat) : Option Nat :=
  match r with
  | .KS_ATT_PUB => some (le (attPub ++ zeros 4) (8 * n) 8)
  | _ => none

/-! ### The debug token (R352) -/

/-- The message that a token signs: the serial number and the nonce of this boot. -/
def State.tokenMessage (s : State) : Bytes := bytesLE 8 (s.get L.TB_SERIAL.SERIAL) ++ beBytes 32 (Config.tokenNonce s.boots)

/-- DEBUG_TOKEN (R352): a valid one sets SEALED_EN until the next package reset. -/
def execDebugToken (pub sig : List Nat) (s : State) : Result :=
  if s.get L.KS_BOOT.STAGE ≠ 0 ∧ s.get L.WLD_DBG.SEALED_EN = 0 ∧ s.trusted pub ∧ hssVerify pub s.tokenMessage sig then
    .next (((s.put L.WLD_DBG.SEALED_EN 1).put L.KS_STATUS.DEBUG 1).wldEvent L.WLD_EVT.DEBUG)
  else .next s

end Sys2Proof.Machine
end

