-- ==== Sys2Proof/Machine/Belay.lean ====
section
/-! DEFINITION. Belay, the secure watchdog (13): arming, pets, the warning, and what its status reads. -/

namespace Sys2Proof.Machine

def State.setBelay (s : State) (b : Belay) : State := { s with belay := b }

abbrev belayOff : Nat := 0
abbrev belayRun : Nat := 1
abbrev belayWarn : Nat := 2

abbrev State.belayStage (s : State) : Nat := s.get L.WLD_BELAY_STAT.STAGE

/-- Nanoseconds that Belay counts up to now; under BELAY_HOLD it stands (R351). -/
def State.belayClock (s : State) : Nat := s.belay.heldAt.getD s.up

/-- The key after `k` (R350): one step of the LFSR x¹⁶ + x¹⁴ + x¹³ + x¹¹ + 1. -/
def nextKey (k : Nat) : Nat :=
  let b : Bool := (k.testBit 0 != k.testBit 2) != (k.testBit 3 != k.testBit 5)
  k / 2 + (if b then 2 ^ 15 else 0)

/-- How long the stage lasts, in ns. -/
def State.belaySpan (s : State) : Nat :=
  1000000 * (if s.belayStage = belayWarn then s.get L.WLD_BELAY_CFG.GRACE else s.get L.WLD_BELAY_CFG.TIMEOUT)

/-- Belay enters WARN (R351); `bad` says that a bad pet led to it. -/
def State.enterWarn (s : State) (bad : Bool) : State :=
  let s := (s.put L.WLD_BELAY_STAT.STAGE belayWarn).setBelay { s.belay with since := s.belayClock, bad := bad }
  { (s.wldEvent L.WLD_EVT.BELAY_WARN).aplicLine 2 true with newtIrq := true }

/-- A write of WLD_BELAY_CFG (R350). -/
def State.writeBelayCfg (s : State) (c : Issuer) (v : Nat) : State :=
  let armed := s.get L.WLD_BELAY_CFG.EN = 1
  if c.sealed = false then s.worldError iommuLog (regAddr R.WLD_BELAY_CFG) c
  else if ¬ armed ∧ bits v 47 32 = 0 then s.reservedEnc iommuLog R.WLD_BELAY_CFG c
  else
    let s := (s.put L.WLD_BELAY_CFG.MIN (bits v 31 16)).put L.WLD_BELAY_CFG.GRACE (max 1 (bits v 15 0))
    if armed then s
    else
      let s := s.put L.WLD_BELAY_CFG.TIMEOUT (bits v 47 32)
      if v.testBit 63 then
        ((s.put L.WLD_BELAY_CFG.EN 1).put L.WLD_BELAY_STAT.STAGE belayRun).setBelay
          { s.belay with since := s.belayClock, lastPet := none, bad := false }
      else s

/-- BELAY_ARM (R350). -/
def execBelayArm (c : Issuer) (v : Word) (s : State) : Result :=
  .next (s.issue c (fun c s => (s.answer .ok).writeBelayCfg c v.toNat))

/-- A write of WLD_BELAY_PET (R350, R351): a wrong key, or a write too early after the last pet, leads to WARN at once;
a pet, good or too early, takes NEXT on; a good one returns Belay to RUN. -/
def State.writeBelayPet (s : State) (c : Issuer) (v : Nat) : State :=
  if c.sealed = false then s.worldError iommuLog (regAddr R.WLD_BELAY_PET) c
  else if s.belayStage = belayOff then s
  else
    let early : Bool := match s.belay.lastPet with
      | some t => decide (s.belayClock < t + 1000000 * s.get L.WLD_BELAY_CFG.MIN)
      | none => false
    if v % 2 ^ 16 ≠ s.get L.WLD_BELAY_STAT.NEXT then
      if s.belayStage = belayRun then s.enterWarn true else s
    else
      let s := s.put L.WLD_BELAY_STAT.NEXT (nextKey (s.get L.WLD_BELAY_STAT.NEXT))
      let s := s.setBelay { s.belay with lastPet := some s.belayClock }
      if early then (if s.belayStage = belayRun then s.enterWarn true else s)
      else
      let s := s.setBelay { s.belay with since := s.belayClock, bad := false }
      if s.belayStage = belayWarn then (s.put L.WLD_BELAY_STAT.STAGE belayRun).aplicLine 2 false else s

/-- BELAY_PET (R350). -/
def execBelayPet (c : Issuer) (v : Word) (s : State) : Result :=
  .next (s.issue c (fun c s => (s.answer .ok).writeBelayPet c v.toNat))

/-- BELAY_WARN (R351): TIMEOUT ms pass without a pet. -/
def execBelayWarn (s : State) : Result :=
  if s.belayStage = belayRun ∧ s.belay.heldAt = none then
    .next ((s.elapseUntil (s.belay.since + s.belaySpan)).enterWarn false)
  else .next s

/-- A write of WLD_DBG (R352): BELAY_HOLD takes a write only while SEALED_EN is 1. -/
def State.writeWldDbg (s : State) (c : Issuer) (v : Nat) : State :=
  if c.sealed = false then s.worldError iommuLog (regAddr R.WLD_DBG) c
  else
    let s := s.put L.WLD_DBG.OPEN_EN (bits v 0 0)
    if s.get L.WLD_DBG.SEALED_EN = 1 then
      let hold := bits v 2 2
      let b := s.belay
      let s := s.put L.WLD_DBG.BELAY_HOLD hold
      match b.heldAt with
      | none => if hold = 1 then s.setBelay { b with heldAt := some s.up } else s
      | some t =>
        if hold = 1 then s
        else s.setBelay { b with since := b.since + (s.up - t), lastPet := b.lastPet.map (fun p => p + (s.up - t)), heldAt := none }
    else s

/-- A write of a Belay or debug register. -/
def State.writeBelay (s : State) (r : Reg) (c : Issuer) (v : Nat) : Option State :=
  match r with
  | .WLD_BELAY_CFG => some (s.writeBelayCfg c v)
  | .WLD_BELAY_PET => some (s.writeBelayPet c v)
  | .WLD_DBG => some (s.writeWldDbg c v)
  | _ => none

/-- What WLD_BELAY_STAT reads in LEFT: milliseconds to the next stage, whole ones. -/
def State.belayLeft (s : State) : Nat :=
  if s.belayStage = belayOff then 0 else (s.belay.since + s.belaySpan - s.belayClock) / 1000000

/-- What a read of WLD_BELAY_STAT computes. -/
def State.readBelay (s : State) (r : Reg) : Option Nat :=
  match r with
  | .WLD_BELAY_STAT => some (withField (s.rd R.WLD_BELAY_STAT) 16 16 s.belayLeft).toNat
  | _ => none

end Sys2Proof.Machine
end

