-- ==== Sys2Proof/Machine/CdpWire.lean ====
section
/-! DEFINITION. The wire form of the Coherent Die Protocol (08): flits with their checks (Table 8.2) and message units
(Table 8.3). A flit, a unit and a header are numbers whose bit 0 is the table's bit 0. -/

namespace Sys2Proof.Machine

/-! ### Flits (R186) -/

abbrev cdpKind (w : Nat) : Nat := bits w 3 0
abbrev cdpSeq (w : Nat) : Nat := bits w 15 4
abbrev cdpPayload (w : Nat) : Nat := bits w 943 48

/-- What a flit acknowledges. -/
def cdpAck (w : Nat) : Option Nat := if w.testBit 28 then some (bits w 27 16) else none

/-- The units a flit returns, by channel. -/
def cdpCredit (w : Nat) : List Nat := (List.range 4).map (fun v => bits w (35 + 4 * v) (32 + 4 * v))

/-- A reserved flit bit is not zero. -/
def cdpReserved (w : Nat) : Bool := decide (bits w 31 29 ≠ 0 ∨ bits w 975 944 ≠ 0)

abbrev kindIdle : Nat := 0
abbrev kindMsg : Nat := 1
abbrev kindLnak : Nat := 2
abbrev kindResume : Nat := 3

/-- The kinds that take a SEQ: IDLE and LNAK carry the next one without consuming it (Table 8.2). -/
def consumesSeq (kind : Nat) : Bool := kind != kindIdle && kind != kindLnak

/-- The CRC-32 of IEEE 802.3 over the `n` bits of a number, bit 0 first: the register after the bits still to come. -/
def crcOver (w n : Nat) : Nat → Nat → Nat
  | 0, c => c
  | k + 1, c =>
    crcOver w n k (if (c + (w >>> (n - (k + 1)))) % 2 = 1 then (c / 2) ^^^ 0xEDB88320 else c / 2)

def crc32 (n w : Nat) : Nat := crcOver w n n 0xFFFFFFFF ^^^ 0xFFFFFFFF

/-- The logical lanes in use: all 16, or a half (R184). -/
def lanesOf (half : Option Bool) : List Nat := match half with
  | none => List.range 16
  | some u => (List.range 8).map (fun k => k + (if u then 8 else 0))

/-- The parity of what a logical lane carries of a flit: byte k goes on lane k modulo the lanes in use, from bit 0 to
bit 975. -/
def laneParity (half : Option Bool) (w lane : Nat) : Nat :=
  let k := match half with
    | none => 16
    | some _ => 8
  parity 8 ((List.range (122 / k + 1)).foldl (fun x j =>
    let b := lane % k + k * j
    if b < 122 then x ^^^ bits w (8 * b + 7) (8 * b) else x) 0)

/-- LANE_PAR of a flit. -/
def lanePar (half : Option Bool) (w : Nat) : Nat :=
  (lanesOf half).foldl (fun v n => if laneParity half w n = 1 then setBit v n else v) 0

/-- The lanes in use whose parity fails. -/
def badLanes (half : Option Bool) (w : Nat) : List Nat :=
  (lanesOf half).filter (fun n => laneParity half w n != bits w (976 + n) (976 + n))

/-- The CRC holds. -/
def crcGood (w : Nat) : Bool := crc32 992 w == bits w 1023 992

/-- CRC and lane parity of a flit both hold. -/
def cdpGood (half : Option Bool) (w : Nat) : Bool := crcGood w && (badLanes half w).isEmpty

/-- The wire form of a flit's bits below LANE_PAR: lane parity over the lanes in use, and CRC. -/
def cdpSeal (half : Option Bool) (w : Nat) : Nat :=
  let w := w + (lanePar half w) <<< 976
  w + (crc32 992 w) <<< 992

/-- A flit (Table 8.2). -/
def cdpFlit (half : Option Bool) (kind seq : Nat) (ack : Option Nat) (credit : List Nat) (payload : Nat) : Nat :=
  let w := kind + (seq <<< 4) + ((match ack with | some a => a + 2 ^ 12 | none => 0) <<< 16) + (payload <<< 48)
  cdpSeal half ((List.range 4).foldl (fun w v => w + (credit.getD v 0) <<< (32 + 4 * v)) w)

/-- The payload of an LNAK: the code, and the SEQ refused. -/
def lnakPayload (code seq : Nat) : Nat := code + (seq <<< 8)
/-- The payload of a RESUME: the index of the lost link, and the last SEQ accepted on it. -/
def resumePayload (index seq : Nat) : Nat := index + (seq <<< 2)

/-- The seven units of a payload. -/
def unitsOf (payload : Nat) : List Nat := (List.range 7).map (fun k => bits payload (128 * k + 127) (128 * k))

/-- Units as a number, the first lowest. -/
def packUnits : List Nat → Nat
  | [] => 0
  | u :: t => u + 2 ^ 128 * packUnits t

/-! ### Messages (R188) -/

/-- The opcodes of Table 8.4. -/
def cdpOpcodeOk (o : Nat) : Bool :=
  (1 ≤ o && o ≤ 7) || (0x10 ≤ o && o ≤ 0x12) || (0x18 ≤ o && o ≤ 0x1C) || (0x20 ≤ o && o ≤ 0x27) || (0x30 ≤ o && o ≤ 0x32)

/-- A reserved header bit is not zero. -/
def headerReserved (u : Nat) : Bool := decide (bits u 23 18 ≠ 0 ∨ bits u 79 73 ≠ 0)

/-- Units behind a header; for an IO_CMP, whether it answers a read. -/
def tailOf (u : Nat) (read : Bool) : Nat := cdpTail (bits u 7 0) (u.testBit 13) read

/-- The header of a message (Table 8.3). -/
def cdpHeader (m : CdpMsg) : Nat :=
  m.opcode + (cond m.sealed 1 0) <<< 8 + m.cls.val <<< 9 + m.vc.val <<< 11 + (cond m.data 1 0) <<< 13 + (cond m.poison 1 0) <<< 14 +
    (cond m.flag 1 0) <<< 15 + m.op.val <<< 16 + m.source <<< 24 + m.tag <<< 32 + m.txn <<< 40 +
    (match m.vi with | some v => v + 2 ^ 16 | none => 0) <<< 56 + m.gen <<< 64 + m.pa.toNat <<< 80

/-- The units of a message on a link. -/
def cdpUnits (m : CdpMsg) : List Nat := cdpHeader m :: m.body

/-- A number below 4, as the field of two bits. -/
def two (v : Nat) : Fin 4 := ⟨v % 4, Nat.mod_lt v (by decide)⟩

/-- The message of a header and the units behind it. -/
def cdpMsgOf (u : Nat) (body : List Nat) : CdpMsg :=
  { opcode := bits u 7 0, sealed := u.testBit 8, cls := two (bits u 10 9), vc := two (bits u 12 11), data := u.testBit 13,
    poison := u.testBit 14, flag := u.testBit 15, op := two (bits u 17 16), source := bits u 31 24, tag := bits u 39 32,
    txn := bits u 55 40, vi := if u.testBit 72 then some (bits u 63 56) else none, gen := bits u 71 64,
    pa := BitVec.ofNat 48 (bits u 127 80), body := body }

/-- The code of an access size (Table 8.3): the power of two. -/
def sizeCode (size : Nat) : Nat := if size = 8 then 3 else if size = 4 then 2 else if size = 2 then 1 else 0

end Sys2Proof.Machine
end

