-- ==== Sys2Proof/Machine/MemCmd.lean ====
section
/-! DEFINITION. The commands of the memory controllers that the homes take part in (10): requests, what each pseudo-channel
issues, returning data, parity alerts and recovery. -/

namespace Sys2Proof.Machine

/-- A request reaches its controller (R230, R229, R240): a read enters its queue or is served from WQ, a write is performed when WQ
takes it; a controller that does not serve answers with an error response, and one in RECOVERY holds the request. -/
def State.mcTake (s : State) (m : Nat) (r : McReq) : State :=
  let c : Issuer := ⟨r.sealed, r.vi, 0, .device⟩
  if s.mcMode m = mcRecovery then s.setMc m { s.mcSt m with held := (s.mcSt m).held ++ [r] }
  else if s.mcServes r.line = false then
    let s := s.mcNotReady r.line c
    if r.write then s.answer .error else s.homeMemData r.line r.id ⟨true, zeros 64, false⟩
  else if r.write then
    let w := s.memWriteLine r.line (bytesLE 64 r.data) r.poison c
    w.1.answer (if w.2 then .ok else .error)
  else
    let s := s.xeNote r.line c
    if s.inWq r.line then s.homeMemData r.line r.id (s.lineAnswer r.line) else (s.mcAccept m r).closeRows m

/-- MC_REQUEST (R230): a request for a queue with room; after a fatal stop none is handled (R34). -/
def execMcRequest (mc : Fin 64) (r : McReq) (s : State) : Result :=
  if s.stopped ∨ lineInHbm r.line = false ∨ s.mcOf r.line ≠ mc ∨ s.mcFull mc r then .next s else .next (s.mcTake mc r)

/-- A controller has left RECOVERY: what it held is taken, in order, as its queues have room, and what the homes could not write is
written (R229). -/
def State.mcResume (s : State) (m : Nat) : State :=
  let l := (s.mcSt m).held
  let s := s.setMc m { s.mcSt m with held := [] }
  (s.forAll l (fun s r => if (s.mcSt m).held = [] ∧ s.mcFull m r = false then s.mcTake m r
    else s.setMc m { s.mcSt m with held := (s.mcSt m).held ++ [r] })).homesRetry m

/-- MC_READ_RETURN (R237): the data is checked, decrypted and handed to the home, poisoned if uncorrectable; a read that the
controller could not serve is answered with an error response (R229). -/
def execMcReadReturn (mc : Fin 64) (line : Nat) (ecc : EccResult) (s : State) : Result :=
  let m := mc.val
  let x := s.mcSt m
  match (if s.stopped then none else x.issued.find? (fun e => e.line == line)) with
  | none => .next s
  | some e =>
    let s := s.setMc m { x with issued := x.issued.erase e }
    if e.ans.err then .next (s.homeMemData line e.id e.ans)
    else
      let ecc := if ecc = .clean then eccResult e.ecc else ecc
      .next ((s.eccNote m line ecc).homeMemData line e.id { e.ans with poison := e.ans.poison || ecc == .uncorrectable })

/-- The command that the first rule of R231 that applies gives a pseudo-channel, with whether it is a write: a write that the
batch has begun, the real-time reads, and without PANIC a write that must drain and the other reads. -/
def State.mcChoice (s : State) (m p : Nat) (batched drain : Bool) (wr : Option McEnt) : Option (Bool × McEnt) :=
  let x := s.mcSt m
  let write := wr.map (fun e => (true, e))
  let read := fun (other : Bool) (l : List McEnt) => (s.pickEnt m p other l).map (fun e => (false, e))
  [if batched then write else none, read false x.rt].findSome? id <|>
    (if s.get (L.MC_STATUS.PANIC m) = 1 then none
    else [if drain then write else none, read true x.cr, read true x.bk].findSome? id)

/-- The command that the rules of R231 choose for a pseudo-channel among entries whose bank is free. -/
def State.mcIssue (s : State) (m p : Nat) : State :=
  let x := s.mcSt m
  let batch := if x.wq.length = 64 then 4 else SMap.get x.batch p
  let wr := x.wq.find? (fun e => (s.placeOf e.line).pc == p && s.bankFree m e s.up)
  let drain := (x.draining || decide (s.get (L.MC_QOS.WR_HI m) ≤ x.wq.length))
  let s := s.setMc m { x with batch := SMap.set x.batch p (if wr.isSome then batch - 1 else 0), draining := drain }
  match s.mcChoice m p (decide (0 < batch)) drain wr with
  | some (true, e) => s.issueWrite m e
  | some (false, e) => s.issueRead m e
  | none => s

/-- MC_COMMAND_ISSUE (R231, R233, R235): the first rule that applies chooses the command of the pseudo-channel; an entry
whose bank is in REFpb waits for it, and where every entry does, so does the pseudo-channel. -/
def execMcCommandIssue (mc : Fin 64) (pc : Fin 2) (s : State) : Result :=
  let m := mc.val
  let p := pc.val
  if s.stopped ∨ s.mcMode m ≠ mcNormal ∨ s.get (L.MC_STATUS.REPLAY m) = 1 then .next s
  else
    let s := s.elapseUntil (SMap.get (s.mcSt m).busy p)
    if s.windowRefreshDue m then
      .next ((((s.put (L.MC_STATUS.OWED m) (s.get (L.MC_STATUS.OWED m) - 1)).inc (L.MC_REF_CNT.WINDOW m)).refab m).pmc uMC m 5 1 true none)
    else
      let x := s.mcSt m
      let mine := (x.rt ++ x.cr ++ x.bk ++ x.wq).filter (fun e => (s.placeOf e.line).pc == p)
      let free := (mine.map (s.bankUntil m)).foldl min (s.pbEnd m)
      let s := s.when (mine ≠ [] ∧ mine.all (fun e => !s.bankFree m e s.up)) (fun s => s.elapseUntil free)
      .next ((s.mcIssue m p).mcResume m)

/-- The refreshes of banks that a REFpb sequence has issued in the last 64 ns, in order. -/
def State.pbKept (s : State) (m : Nat) : List (Nat × McKept) :=
  let a := (s.mcSt m).pbAt
  if a = 0 then []
  else ((List.range 48).map (fun b => (a - 1 + 8 * b, McKept.refpb b))).filter (fun r => decide (r.1 ≤ s.up ∧ s.up < r.1 + 64))

/-- A command put among others by its time. -/
def keptInsert (r : Nat × McKept) : List (Nat × McKept) → List (Nat × McKept)
  | [] => [r]
  | x :: t => if r.1 < x.1 then r :: x :: t else x :: keptInsert r t

/-- The commands that the retry buffer holds, in their order (R236). -/
def State.keptNow (s : State) (m : Nat) : List (Nat × McKept) :=
  (s.pbKept m).foldl (fun l r => keptInsert r l) ((s.mcSt m).retry.filter (fun r => decide (s.up < r.1 + 64)))

/-- PARITY_ALERT (R236): of the commands kept, the stack has executed the first `executed`; every bank is precharged. -/
def execParityAlert (mc : Fin 64) (executed : Nat) (s : State) : Result :=
  let m := mc.val
  let mode := s.mcMode m
  if s.stopped ∨ mode = mcOff ∨ mode = mcFailed then .next s
  else
    let x := s.mcSt m
    if mode = mcStart ∧ x.change = .train ∧ s.up < x.changeAt + 1200000 then .next s
    else
      let s := (s.inc (L.MC_PAR_CNT.ALERT m)).mcEvent m (L.MC_EVT.PAR_ALERT m)
      if s.get (L.MC_STATUS.REPLAY m) = 1 then
        let s := s.mcEvent m (L.MC_EVT.REPLAY_FAIL m)
        let s := s.put (L.MC_STATUS.REPLAY m) 0
        if mode = mcStart ∨ mode = mcRecovery then
          .next (((s.settleMode m mcFailed).mcEvent m (L.MC_EVT.TRAIN_FAIL m)).mcResume m)
        else if s.get (L.MC_CTRL.AUTO_RECOVER m) = 1 then
          let s := s.settleMode m mcRecovery
          .next (s.setMc m { s.mcSt m with change := .recovery, changeAt := s.up })
        else .next ((s.settleMode m mcFailed).mcResume m)
      else
        let s := s.setMc m { x with retry := (s.keptNow m).drop executed, alertAt := s.up, rows := [], rowHit := [] }
        .next (s.put (L.MC_STATUS.REPLAY m) 1).schedLevels

/-- A kept command is issued again and kept again (R236): an access opens its row, an all-bank refresh runs, and a REFpb sequence goes
on from the first bank that it has not refreshed. -/
def State.replayOne (s : State) (m : Nat) (k : McKept) : State :=
  match k with
  | .access e => (s.openRow m e).keepCommand m (.access e)
  | .refab => s.refab m
  | .refpb _ => s

/-- The REFpb sequence that the alert interrupted goes on: from the first of its kept commands, or from the bank that is next. -/
def State.pbResume (s : State) (m alertAt : Nat) (kept : List (Nat × McKept)) : State :=
  let x := s.mcSt m
  let next := if x.pbAt = 0 then 48 else (alertAt - (x.pbAt - 1)) / 8 + 1
  let first := (kept.findSome? (fun r => match r.2 with | .refpb b => some b | _ => none)).getD next
  if first < 48 then s.setMc m { x with pbAt := s.up + 1 - 8 * first } else s

/-- REPLAY_END (R236): after 100 ns the retained commands are replayed in order. -/
def execReplayEnd (mc : Fin 64) (s : State) : Result :=
  let m := mc.val
  if s.get (L.MC_STATUS.REPLAY m) = 1 then
    let x := s.mcSt m
    let s := s.elapseUntil (x.alertAt + 100)
    let s := (s.setMc m { s.mcSt m with retry := [] }).pbResume m x.alertAt x.retry
    let s := s.forAll (x.retry.map Prod.snd) (fun s k => s.replayOne m k)
    .next (((s.put (L.MC_STATUS.REPLAY m) 0).inc (L.MC_PAR_CNT.REPLAY m)).schedLevels)
  else .next s

/-- MC_RECOVERY_DONE (R239): steps 4 to 8 of training have run again; the contents are kept, and what waited is served (R229). -/
def execMcRecoveryDone (mc : Fin 64) (run : TrainRun) (s : State) : Result :=
  let m := mc.val
  if s.mcMode m = mcRecovery then
    let r := s.trainSteps m run.ok run.lanes
    if r.2 then .next ((r.1.settleMode m mcNormal).mcResume m)
    else .next (((r.1.settleMode m mcFailed).mcEvent m (L.MC_EVT.TRAIN_FAIL m)).mcResume m)
  else .next s

end Sys2Proof.Machine
end

