-- ==== Sys2Proof/Machine/DieLink.lean ====
section
/-! DEFINITION. The die links at the hub end (08): flits, training, the parameter exchange and Axolotl repair. -/

namespace Sys2Proof.Machine

abbrev dlLog (n : Nat) : Nat := 193 + n
abbrev State.link (s : State) (n : Nat) : Link := SMap.get s.links n
def State.setLink (s : State) (n : Nat) (x : Link) : State := { s with links := SMap.set s.links n x }
def State.dlEvent (s : State) (n : Nat) (l : Loc) : State := s.event (dlLog n) l (R.DL_EVT_EN n)

abbrev dlDown : Nat := 0
abbrev dlTrain : Nat := 1
abbrev dlActive : Nat := 2
abbrev dlRetrainSt : Nat := 3
abbrev dlHeld : Nat := 4

abbrev State.dlState (s : State) (n : Nat) : Nat := s.get (L.DL_STATUS.STATE n)

/-- An event of the link that is also logged with the frame number (R195, R200). -/
def State.dlEvtLog (s : State) (n : Nat) (l : Loc) : State :=
  (s.logRec (dlLog n) Cause.LINK l.lo (regAddr (R.DL_STATUS n)) (unitIssuer true) 0).dlEvent n l

/-! ### Traffic across the links of a die (R202, R203) -/

/-- CARRY of the four links of a die. -/
def State.carryUpdate (s : State) (d : Nat) : State :=
  s.forAll [0, 1, 2, 3] (fun s k =>
    let n := 4 * d + k
    s.put (L.DL_STATUS.CARRY n) ([0, 1, 2, 3].foldl (fun v sl => if s.carrier d sl = some n then setBit v sl else v) 0))

/-- A filter entry that names the die as owner, or a transaction of the die, open or waiting at a home (R203), as home and
line. -/
def State.dieClaims (s : State) (d : Nat) : Option (Nat × Nat) :=
  match s.sf.find? (fun p => p.2.valid && p.2.st == 2 && p.2.pres.testBit d) with
  | some p => some (p.1 / 16 / 32768, p.2.line)
  | none => (s.homes.filterMap (fun p =>
      let own := (p.2.txns.filter (fun t => !t.back)).map (fun t => t.req) ++ p.2.txns.flatMap (fun t => t.held) ++
        (p.2.waiting ++ p.2.held).map Prod.snd
      (own.find? (fun m => m.src == d)).map (fun m => (p.1, m.line)))).head?

/-- A die with no ACTIVE link leaves the package (R203): fatally if a filter entry names it as owner or it has a
transaction open, else every home clears its CA bit. Only a die reset lets it take part again. -/
def State.dieLeaves (s : State) (d : Nat) : State :=
  if [0, 1, 2, 3].any (fun k => s.dlState (4 * d + k) == dlActive) then s
  else
    let s := s.setDie d { s.dieSt d with left := true, sent := [], reads := [] }
    if s.stopped then s
    else match s.dieClaims d with
      | some (h, l) => s.fatalStop (haLog h) 0x06 l d
      | none => s.forAll (List.range 32) (fun s h => s.clearBitOf (L.HA_STATUS.CA h) d)

/-! ### Sending (R186 to R190) -/

/-- The half in use, none at full width. -/
def State.linkHalf (s : State) (n : Nat) : Option Bool :=
  if s.get (L.DL_STATUS.X8 n) = 1 then some (s.get (L.DL_STATUS.UPPER n) = 1) else none

/-- The hub sends a flit (Table 8.2): it acknowledges the last flit accepted and returns the units it owes; a flit that takes
a SEQ is kept for replay (R187). -/
def State.sendFlit (s : State) (n kind payload : Nat) (ends : List (Nat × CdpMsg)) : State :=
  let x := s.link n
  let give := (List.range 4).map (fun v => min 15 (x.owed.getD v 0))
  let w := cdpFlit (s.linkHalf n) kind x.txSeq (if x.rxAny then some ((x.rxSeq + 4095) % 4096) else none) give payload
  let s := s.setLink n { x with
    due := false
    rxFree := (List.range 4).map (fun v => x.rxFree.getD v 0 + give.getD v 0)
    owed := (List.range 4).map (fun v => x.owed.getD v 0 - give.getD v 0)
    txSeq := if consumesSeq kind then (x.txSeq + 1) % 4096 else x.txSeq
    replay := if consumesSeq kind then x.replay ++ [⟨x.txSeq, w, ends⟩] else x.replay }
  (s.pmc uDL n 1 1 true none).send (.cdpFlit n w)

/-- The channels in the order the sender picks from (R189); VC3 first in the 16th flit that it waits for. -/
def vcOrder (starve : Nat) : List Nat := if 15 ≤ starve then [3, 0, 2, 1] else [0, 2, 1, 3]

/-- Units of a message. -/
def unitCount (m : CdpMsg) : Nat := 1 + m.body.length

/-- Messages of a slice wait for the RESUME that tells which of them were lost (R190). -/
def State.sliceHeld (s : State) (n sl : Nat) : Bool :=
  let d := n / 4
  [0, 1, 2, 3].any (fun k => (s.link (4 * d + k)).lost.any (fun e => e.2.1 == sl))

/-- The message that a link sends next, once credits cover all its units (R189): those of a lost link first (R190), then by
channel, each in its order. -/
def State.nextMsg (s : State) (n : Nat) : Option (Nat × CdpMsg) :=
  let x := s.link n
  let covered := fun (e : Nat × CdpMsg) => decide (unitCount e.2 ≤ x.credit.getD e.2.vc 0)
  match x.resend with
  | e :: _ => if covered e then some e else none
  | [] => (vcOrder x.starve).findSome? (fun v =>
      ((x.txWait.filter (fun e => !s.sliceHeld n e.1)).find? (fun e => e.2.vc.val == v)).filter covered)

/-- The next message starts. -/
def State.startMsg (s : State) (n : Nat) (e : Nat × CdpMsg) : State :=
  let x := s.link n
  s.setLink n { x with
    resend := x.resend.drop 1, txWait := if x.resend = [] then x.txWait.erase e else x.txWait
    credit := x.credit.set e.2.vc (x.credit.getD e.2.vc 0 - unitCount e.2)
    txPart := some (e.1, e.2, cdpUnits e.2) }

/-- The units of the next flit, back to back, and the messages that end in it (R188). -/
def State.fillFlit (s : State) (n : Nat) : Nat → List Nat → List (Nat × CdpMsg) → State × List Nat × List (Nat × CdpMsg)
  | 0, us, es => (s, us, es)
  | k + 1, us, es =>
    if us.length = 7 then (s, us, es)
    else match (s.link n).txPart with
      | some (sl, m, rest) =>
        let room := 7 - us.length
        if rest.length ≤ room then (s.setLink n { s.link n with txPart := none }).fillFlit n k (us ++ rest) (es ++ [(sl, m)])
        else (s.setLink n { s.link n with txPart := some (sl, m, rest.drop room) }, us ++ rest.take room, es)
      | none => match s.nextMsg n with
        | none => (s, us, es)
        | some e => (s.startMsg n e).fillFlit n k us es

/-- MSG flits leave while there is something to send and the replay buffer has room. -/
def State.pumpFlits (s : State) (n : Nat) : Nat → State
  | 0 => s
  | k + 1 =>
    let x := s.link n
    if s.dlState n ≠ dlActive ∨ 64 ≤ x.replay.length then s
    else
      let r := s.fillFlit n 16 [] []
      if r.2.1 = [] then s
      else
        let bulk := r.2.2.any (fun e => e.2.vc == 3) || (match (r.1.link n).txPart with | some e => e.2.1.vc == 3 | none => false)
        let st := if bulk = false ∧ (x.txWait.any (fun e => e.2.vc == 3)) then x.starve + 1 else 0
        ((r.1.setLink n { r.1.link n with starve := st }).sendFlit n kindMsg (packUnits r.2.1) r.2.2).pumpFlits n k

/-- What waits is sent; an IDLE flit carries what no MSG flit took along. -/
def State.linkPump (s : State) (n : Nat) : State :=
  let s := s.pumpFlits n 64
  s.when (s.dlState n = dlActive ∧ (s.link n).due) (fun s => s.sendFlit n kindIdle 0 [])

/-- A message for a slice of a die waits on the link that carries the slice, or on the slice's own, and is sent in its turn
(R189, R202); an IO_RD will be answered by an IO_CMP with data. -/
def State.linkSend (s : State) (d sl : Nat) (m : CdpMsg) : State :=
  let n := (s.carrier d sl).getD (4 * d + sl)
  let s := s.when (m.opcode = 0x30) (fun s => s.setDie d { s.dieSt d with reads := (s.dieSt d).reads ++ [m.txn] })
  (s.setLink n { s.link n with txWait := (s.link n).txWait ++ [(sl, m)] }).linkPump n

/-! ### Links that leave and return (R190, R202) -/

/-- What a link that leaves ACTIVE had sent without acknowledgement, and the message that was under way in each direction. -/
def State.linkLost (s : State) (n : Nat) : State :=
  let x := s.link n
  let sent := x.replay.flatMap (fun f => f.ends.map (fun e => (f.seq, e)))
  let part := match x.txPart with
    | some (sl, m, _) => [(x.txSeq, sl, m)]
    | none => []
  s.setLink n { x with
    lost := x.lost ++ sent ++ part, replay := [], txPart := none, txRefused := none, starve := 0, rxPart := default, due := false }

/-- What waits on the links of a die moves with its slices (R202). -/
def State.moveWaiting (s : State) (d : Nat) : State :=
  let links := [0, 1, 2, 3].map (fun k => 4 * d + k)
  let place := fun (sl : Nat) => (s.carrier d sl).getD (4 * d + sl)
  let take := fun (q : Link → List (Nat × CdpMsg)) (n : Nat) =>
    (n :: links.filter (fun k => k != n)).flatMap (fun k => (q (s.link k)).filter (fun e => place e.1 == n))
  s.forAll links (fun t n => t.setLink n { t.link n with txWait := take Link.txWait n, resend := take Link.resend n })

/-- A link leaves ACTIVE, or comes to it: CARRY, what waits, the schedule records and the die's membership follow; a RESUME
leaves on each link that takes over, with the last SEQ accepted on the lost one (R190). -/
def State.linkMoved (s : State) (n : Nat) (left : Bool) : State :=
  let d := n / 4
  let was := s.get (L.DL_STATUS.CARRY n)
  let last := ((s.link n).rxSeq + 4095) % 4096
  let s := s.when (left = true) (fun s => s.linkLost n)
  let s := ((s.carryUpdate d).moveWaiting d).schedLevels
  let links := [0, 1, 2, 3].map (fun k => 4 * d + k)
  let s := s.when (left = true) (fun s => s.forAll links (fun s k =>
    s.when ((onesBelow 4 was).any (fun sl => s.carrier d sl == some k) = true) (fun s =>
      s.sendFlit k kindResume (resumePayload (n % 4) last) [])))
  (s.forAll links State.linkPump).when (left = true) (fun s => s.dieLeaves d)

/-- The state of a link changes. -/
def State.setDlState (s : State) (n st : Nat) : State :=
  let was := s.dlState n
  let s := s.put (L.DL_STATUS.STATE n) st
  if was = dlActive ∧ st ≠ dlActive then s.linkMoved n true
  else if st = dlActive then s.linkMoved n false
  else s.schedLevels

/-! ### Training (R193 to R196) -/

/-- Units of each channel that a Skelura end advertises (R189). -/
def hubUnits : List Nat := [16, 32, 32, 32]

/-- The hub offers its version, its site, its buffer units and its record (Table 8.6). -/
def State.dlOffer (s : State) (n : Nat) (force : Bool) : State :=
  s.send (.dlOffer n force ⟨1, 0, n / 4, hubUnits, s.get (L.DL_LANES_RX.FAILED n), s.get (L.DL_LANES_TX.FAILED n)⟩)

/-- Training starts, or starts again at step 2; the hub's offer of step 3 follows (R193). -/
def State.trainLink (s : State) (n st : Nat) : State :=
  let s := (s.setDlState n st).put (L.DL_STATUS.EXCH_FAIL n) 0
  (s.setLink n { s.link n with
    wentDown := false, exchanged := false, forced := false, trainAt := s.up, action := .none, group := [], waitLanes := []
    rxSeq := 0, rxFail := none, rxAny := false, rxPart := default }).dlOffer n false

/-- The reset of the link clears its counters (R204). -/
def State.linkReset (s : State) (n : Nat) : State :=
  let s := (s.wr (R.DL_CNT n) 0).setLink n { s.link n with winAt := s.up, lost := [], resend := [], txWait := [] }
  s.forAll (List.range 36) (fun s k => s.wr (R.DL_LANE_CNT n k) 0)

/-- The link enters RETRAIN. -/
def State.enterRetrain (s : State) (n : Nat) : State :=
  (s.trainLink n dlRetrainSt).dlEvent n (L.DL_EVT.RETRAIN n)

/-- LINK_TRAIN (R193): the hub releases the link's reset, while the die's L3 domain is on or comes on. -/
def execLinkTrain (link : Fin 48) (s : State) : Result :=
  let n := link.val
  if s.dlState n = dlDown ∧ (s.link n).wentDown = false ∧ s.get (L.DL_CTRL.HOLD n) = 0 ∧ s.domPowered (2 * (n / 4) + 1) then
    .next ((s.linkReset n).trainLink n dlTrain)
  else .next s

/-- The link is in training and its exchange is still to come. -/
def State.exchanging (s : State) (n : Nat) : Bool :=
  (s.dlState n == dlTrain || s.dlState n == dlRetrainSt) && !(s.link n).exchanged

/-- An exchange fails (R195): after three in a row the link is HELD, else the next attempt starts at step 3 with its own time
limit (R193). -/
def State.exchangeFails (s : State) (n reason : Nat) : State :=
  let k := s.get (L.DL_STATUS.EXCH_FAIL n) + 1
  let s := (s.put (L.DL_STATUS.EXCH_FAIL n) (min 3 k)).setLink n { s.link n with forced := false, trainAt := s.up }
  if 3 ≤ k then ((s.put (L.DL_STATUS.MM_REASON n) reason).setDlState n dlHeld).dlEvtLog n (L.DL_EVT.MISMATCH n)
  else s.dlOffer n false

/-- The die's record is the hub's. -/
def State.recordAgrees (s : State) (n : Nat) (p : PeerParams) : Bool :=
  p.failedRx == s.get (L.DL_LANES_RX.FAILED n) && p.failedTx == s.get (L.DL_LANES_TX.FAILED n)

/-- PARAM_EXCHANGE (R194, R195): accepted, failed, or answered by forced retraining on a record that differs, with
the hub's record offered again. -/
def execParamExchange (link : Fin 48) (p : PeerParams) (s : State) : Result :=
  let n := link.val
  let d := n / 4
  if s.exchanging n = false then .next s
  else if p.verMaj ≠ 1 then .next (s.exchangeFails n 2)
  else if (p.cls ≠ 1 ∧ p.cls ≠ 2) ∨
      [0, 1, 2, 3].any (fun k => s.dlState (4 * d + k) == dlActive && s.get (L.DL_PEER.CLASS (4 * d + k)) != p.cls.val) then
    .next (s.exchangeFails n 3)
  else
    let s := if p.spares = 0 then
        (s.put (L.DL_LANES_RX.FAILED n) (s.get (L.DL_LANES_RX.FAILED n) ||| 0x30000)).put (L.DL_LANES_TX.FAILED n)
          (s.get (L.DL_LANES_TX.FAILED n) ||| 0x30000)
      else s
    if s.recordAgrees n p = false then
      if (s.link n).forced then .next (s.exchangeFails n 4)
      else .next ((s.setLink n { s.link n with forced := true, trainAt := s.up }).dlOffer n true)
    else
      let s := (s.put (L.DL_PEER.SPARES n) p.spares).put (L.DL_PEER.CLASS n) p.cls
      let s := (s.put (L.DL_PEER.VENDOR n) p.vendor).put (L.DL_PEER.VER_MAJ n) p.verMaj
      let s := (s.put (L.DL_PEER.VER_MIN n) p.verMin).put (L.DL_STATUS.EXCH_FAIL n) 0
      let s := s.setDie d { s.dieSt d with otherMake := p.vendor != 0x5EC1 }
      .next (s.setLink n { s.link n with exchanged := true, forced := false, credit := p.credits })

/-- EXCHANGE_TIMEOUT (R195). -/
def execExchangeTimeout (link : Fin 48) (s : State) : Result :=
  let n := link.val
  if s.exchanging n then
    .next ((s.elapseUntil ((s.link n).trainAt + 1000000)).exchangeFails n 1)
  else .next s

/-- The lanes of a record, and the spares that work. -/
def failedData (rec : Nat) : List Nat := onesBelow 16 rec
def workingSpares (rec : Nat) : List Nat := [16, 17].filter (fun i => !rec.testBit i)

/-- The failed lanes of a half. -/
def failedHalf (rec : Nat) (upper : Bool) : List Nat := (failedData rec).filter (fun i => decide (8 ≤ i) == upper)

/-- A direction's failed lanes among those in use number no more than its working spares. -/
def coverable (rec : Nat) (lanes : List Nat) : Bool := decide (lanes.length ≤ (workingSpares rec).length)

/-- The width that two records allow (R198, R199): full, a half, or none. -/
def widthOf (rx tx : Nat) : Option (Option Bool) :=
  if coverable rx (failedData rx) && coverable tx (failedData tx) then some none
  else
    let cnt := fun (u : Bool) => (failedHalf rx u).length + (failedHalf tx u).length
    let ok := fun (u : Bool) => coverable rx (failedHalf rx u) && coverable tx (failedHalf tx u)
    let first : Bool := decide (cnt true < cnt false)
    if ok first then some (some first) else if ok (!first) then some (some (!first)) else none

/-- The lanes of a direction that wait for their turn to be judged (R201). -/
def State.waitingRec (s : State) (n : Nat) (tx : Bool) : Nat :=
  (s.link n).waitLanes.foldl (fun v g => if g.1 == tx then setBit v g.2 else v) 0

/-- The spares assigned afresh to the failed lanes in use, lowest to lowest (R198); a lane that waits is not judged yet
(R201). -/
def State.assignSpares (s : State) (n : Nat) (half : Option Bool) : State :=
  let put := fun (s : State) (rec : Nat) (l0 l1 : Loc) =>
    let lanes := match half with
      | none => failedData rec
      | some u => failedHalf rec u
    let pairs := (workingSpares rec).zip lanes
    let forSpare := fun (sp : Nat) => ((pairs.find? (fun p => p.1 == sp)).map Prod.snd).getD 0x1F
    (s.put l0 (forSpare 16)).put l1 (forSpare 17)
  let judged := fun (tx : Bool) (rec : Nat) => rec - (rec &&& s.waitingRec n tx)
  let s := put s (judged false (s.get (L.DL_LANES_RX.FAILED n))) (L.DL_LANES_RX.SP0_FOR n) (L.DL_LANES_RX.SP1_FOR n)
  put s (judged true (s.get (L.DL_LANES_TX.FAILED n))) (L.DL_LANES_TX.SP0_FOR n) (L.DL_LANES_TX.SP1_FOR n)

/-- Width, half and spares as a decision gives them. -/
def State.setWidth (s : State) (n : Nat) (half : Option Bool) : State :=
  let s := match half with
    | none => (s.put (L.DL_STATUS.X8 n) 0).put (L.DL_STATUS.UPPER n) 0
    | some u => (s.put (L.DL_STATUS.X8 n) 1).put (L.DL_STATUS.UPPER n) (if u then 1 else 0)
  s.assignSpares n half

/-- The link goes DOWN under R199. -/
def State.linkDown (s : State) (n : Nat) : State :=
  let s := s.setLink n { s.link n with wentDown := true, action := .none, group := [], waitLanes := [], exchanged := false }
  (s.setDlState n dlDown).dlEvtLog n (L.DL_EVT.DOWN n)

/-- Lanes are added to the record, each with its event (R197). -/
def State.recordLanes (s : State) (n : Nat) (tx : Bool) (lanes : Nat) : State :=
  let l := if tx then L.DL_LANES_TX.FAILED n else L.DL_LANES_RX.FAILED n
  let new := (onesBelow 18 lanes).filter (fun i => !(s.get l).testBit i)
  s.forAll new (fun s i => (s.setBitOf l i).dlEvtLog n (L.DL_EVT.LANE n))

/-- LINK_TRAIN_DONE (R193): width, half and spares follow from the record, the timing lane is measured and the link is
ACTIVE with the credits that both ends advertise (R189); an accepted class C sets the site's CA bit (R194), unless the die
has left the package (R203). -/
def execLinkTrainDone (link : Fin 48) (rxFail txFail : Nat) (timeOk : Bool) (s : State) : Result :=
  let n := link.val
  if (s.dlState n = dlTrain ∨ s.dlState n = dlRetrainSt) ∧ (s.link n).exchanged then
    let s := (s.recordLanes n false rxFail).recordLanes n true txFail
    match widthOf (s.get (L.DL_LANES_RX.FAILED n)) (s.get (L.DL_LANES_TX.FAILED n)) with
    | none => .next (s.linkDown n)
    | some half =>
      let was := s.get (L.DL_STATUS.X8 n)
      let s := s.setWidth n half
      let s := if half.isSome ∧ was = 0 then s.dlEvtLog n (L.DL_EVT.NARROW n) else s
      let s := if timeOk then s.put (L.DL_STATUS.TIME_OK n) 1
        else (s.put (L.DL_STATUS.TIME_OK n) 0).dlEvent n (L.DL_EVT.TIME_LANE n)
      let s := s.setLink n { s.link n with
        rxSeq := 0, rxFail := none, rxAny := false, due := false, rxPart := default, rxFree := hubUnits, owed := [0, 0, 0, 0]
        txSeq := 0, replay := [], txRefused := none, txPart := none, starve := 0 }
      let s := if s.get (L.DL_PEER.CLASS n) = 1 ∧ (s.dieSt (n / 4)).left = false then
          s.forAll (List.range 32) (fun s h => s.setBitOf (L.HA_STATUS.CA h) (n / 4))
        else s
      .next (s.setDlState n dlActive)
  else .next s

/-! ### Axolotl (R197 to R201) -/

/-- SPx_FOR of a direction. -/
def spareFor (n : Nat) (tx : Bool) (sp : Nat) : Loc :=
  match tx, sp with
  | false, 16 => L.DL_LANES_RX.SP0_FOR n
  | false, _ => L.DL_LANES_RX.SP1_FOR n
  | true, 16 => L.DL_LANES_TX.SP0_FOR n
  | true, _ => L.DL_LANES_TX.SP1_FOR n

/-- The spares of a direction that are free and work. -/
def State.freeSpares (s : State) (n : Nat) (tx : Bool) : List Nat :=
  let rec_ := s.get (if tx then L.DL_LANES_TX.FAILED n else L.DL_LANES_RX.FAILED n)
  (workingSpares rec_).filter (fun sp => s.get (spareFor n tx sp) = 0x1F)

/-- The logical lane that a physical lane of a direction carries now. -/
def State.logicalLane (s : State) (n : Nat) (tx : Bool) (lane : Nat) : Option Nat :=
  let sp0 := s.get (if tx then L.DL_LANES_TX.SP0_FOR n else L.DL_LANES_RX.SP0_FOR n)
  let sp1 := s.get (if tx then L.DL_LANES_TX.SP1_FOR n else L.DL_LANES_RX.SP1_FOR n)
  let x8 : Bool := s.get (L.DL_STATUS.X8 n) = 1
  let upper : Bool := s.get (L.DL_STATUS.UPPER n) = 1
  if lane = 16 then (if sp0 = 0x1F then none else some sp0)
  else if lane = 17 then (if sp1 = 0x1F then none else some sp1)
  else if lane = sp0 ∨ lane = sp1 ∨ (x8 ∧ decide (8 ≤ lane) ≠ upper) then none
  else some lane

/-- Free spares for the lanes of a group that carry something, lowest to lowest in each direction; none if they do not
suffice. -/
def State.spareFixes (s : State) (n : Nat) (group : List (Bool × Nat)) : Option (List (Bool × Nat × Nat)) :=
  let need := fun (tx : Bool) => (List.range 16).filter (fun lg => group.any (fun g => g.1 == tx && s.logicalLane n tx g.2 == some lg))
  let fix := fun (tx : Bool) => ((need tx).zip (s.freeSpares n tx)).map (fun p => (tx, p.1, p.2))
  if (need false).length ≤ (s.freeSpares n false).length ∧ (need true).length ≤ (s.freeSpares n true).length then
    some (fix false ++ fix true)
  else none

/-- The action that a group of failing lanes calls for (R198, R199, R201): none where they carry nothing; spares where the
record leaves enough; else a half, or DOWN. -/
def State.laneAction (s : State) (n : Nat) (group : List (Bool × Nat)) : DlAction :=
  if group.all (fun g => (s.logicalLane n g.1 g.2).isNone) then .none
  else
    let w := widthOf (s.get (L.DL_LANES_RX.FAILED n)) (s.get (L.DL_LANES_TX.FAILED n))
    let x8 : Bool := s.get (L.DL_STATUS.X8 n) = 1
    match (if x8 ∨ w = some none then s.spareFixes n group else none) with
    | some fixes => .spare fixes
    | none => if x8 then .down else match w with
      | some (some u) => .narrow u
      | _ => .down

/-- The hub decides the repair of failing lanes, and names it with its switch flit over the sideband (R198, R199). -/
def State.decideLanes (s : State) (n : Nat) (group : List (Bool × Nat)) : State :=
  let act := s.laneAction n group
  let s := s.setLink n { s.link n with action := act, group := group, decidedAt := s.up, copyGood := 0 }
  if act = .none then s else s.useFree.send (.axolotl n act (Config.freeWord s.free % 4096))

/-- A lane is found failing (R197, R201): recorded; repaired if AXO_EN is 1, after an action that runs, or together with
those found in this nanosecond. -/
def State.laneFails (s : State) (n : Nat) (tx : Bool) (lane : Nat) : State :=
  let l := if tx then L.DL_LANES_TX.FAILED n else L.DL_LANES_RX.FAILED n
  if (s.get l).testBit lane then s
  else
    let s := s.recordLanes n tx (1 <<< lane)
    let x := s.link n
    if s.get (L.DL_CTRL.AXO_EN n) = 0 ∨ s.dlState n ≠ dlActive then s
    else if x.action = .none then s.decideLanes n [(tx, lane)]
    else if x.decidedAt = s.up then s.decideLanes n (x.group ++ [(tx, lane)])
    else s.setLink n { x with waitLanes := x.waitLanes ++ [(tx, lane)] }

/-- Lanes that waited are judged against the record as it stands (R201). -/
def State.nextLanes (s : State) (n : Nat) : State :=
  let w := (s.link n).waitLanes
  if w = [] then s else (s.setLink n { s.link n with waitLanes := [] }).decideLanes n w

/-- The parity window of a link: WINDOW_CNT restarts every WINDOW µs (R197). -/
def State.laneWindow (s : State) (n : Nat) : State :=
  let x := s.link n
  let len := 1000 * max 1 (s.get (L.DL_AXO_CFG.WINDOW n))
  if s.up < x.winAt + len then s
  else (s.setLink n { x with winAt := x.winAt + (s.up - x.winAt) / len * len }).forAll (List.range 36) (fun s k =>
    s.put (L.DL_LANE_CNT.WINDOW_CNT n k) 0)

/-- Parity errors of a lane are counted: lanes 18 to 35 are those of the hub transmit direction (R204). -/
def State.laneErrors (s : State) (n lane errors : Nat) : State :=
  ((s.laneWindow n).addSat (L.DL_LANE_CNT.TOTAL n lane) errors).addSat (L.DL_LANE_CNT.WINDOW_CNT n lane) errors

/-- LANE_PARITY_THRESHOLD (R197): the lane's parity errors, those of an idle spare's training pattern among them, have reached
THR within WINDOW. -/
def execLaneParityThreshold (link : Fin 48) (lane : Fin 18) (idle : Nat) (s : State) : Result :=
  let n := link.val
  let s := s.laneWindow n
  let s := s.when (16 ≤ lane.val ∧ s.logicalLane n false lane = none) (fun s => s.laneErrors n lane idle)
  if s.get (L.DL_AXO_CFG.THR n) ≤ s.get (L.DL_LANE_CNT.WINDOW_CNT n lane) then .next (s.laneFails n false lane)
  else .next s

/-- SIDEBAND_LANE_REPORT (R197). -/
def execSidebandLaneReport (link : Fin 48) (lane : Fin 18) (errors : Nat) (s : State) : Result :=
  .next ((s.laneErrors link (18 + lane) errors).laneFails link true lane)

/-- A spare takes over a logical lane; a spare that carried it is free of it. -/
def State.switchSpare (s : State) (n : Nat) (tx : Bool) (lg sp : Nat) : State :=
  let other := 33 - sp
  let s := s.when (s.get (spareFor n tx other) = lg) (fun s => s.put (spareFor n tx other) 0x1F)
  s.put (spareFor n tx sp) lg

/-- SPARE_SWITCH (R198): once the copy is checked over 64 flits, where the hub receives it, both ends switch. -/
def execSpareSwitch (link : Fin 48) (s : State) : Result :=
  let n := link.val
  let x := s.link n
  match x.action with
  | .spare fixes =>
    if fixes.any (fun f => !f.1) ∧ x.copyGood < 64 then .next s
    else
      let s := s.forAll fixes (fun s f => s.switchSpare n f.1 f.2.1 f.2.2)
      let s := s.setLink n { s.link n with action := .none, group := [] }
      .next ((s.dlEvtLog n (L.DL_EVT.SUB n)).nextLanes n)
  | _ => .next s

/-- LINK_NARROW (R199): at the named boundary the link goes to x8, or DOWN. -/
def execLinkNarrow (link : Fin 48) (late : Fin 11) (s : State) : Result :=
  let n := link.val
  let x := s.link n
  match x.action with
  | .narrow u =>
    let s := s.elapseUntil (x.decidedAt + 240 + late)
    let s := (s.setWidth n (some u)).setLink n { s.link n with action := .none, group := [] }
    .next ((((s.dlEvtLog n (L.DL_EVT.NARROW n)).schedLevels)).nextLanes n)
  | .down => .next ((s.elapseUntil (x.decidedAt + 240 + late)).linkDown n)
  | _ => .next s

/-! ### Receiving (R186 to R191) -/

/-- What a flit acknowledges leaves the replay buffer, and the units it returns are credit. -/
def State.linkAck (s : State) (n : Nat) (ack : Option Nat) (credit : List Nat) : State :=
  let x := s.link n
  let covered := fun (q : Nat) => match ack with
    | some a => decide ((a + 4096 - q) % 4096 < 2048)
    | none => false
  s.setLink n { x with
    replay := x.replay.filter (fun f => !covered f.seq)
    txRefused := x.txRefused.filter (fun q => !covered q)
    credit := (List.range 4).map (fun v => x.credit.getD v 0 + credit.getD v 0) }

/-- A link violation by the partner (R191). -/
def State.linkViolation (s : State) (n code seq : Nat) : State :=
  let s := (s.inc (L.DL_CNT.LNAK n)).put (L.DL_STATUS.LNAK_LAST n) code
  let s := s.logRec (dlLog n) Cause.PARTNER code 0 (unitIssuer true) 0
  (s.dlEvent n (L.DL_EVT.PEER_VIOL n)).sendFlit n kindLnak (lnakPayload code seq) []

/-- A flit fails CRC or lane parity (R187): counted, by lane, and answered with LNAK 0x00; what follows it is discarded until
it comes again, and its second failure puts the link in RETRAIN. -/
def State.flitFails (s : State) (n w : Nat) : State :=
  let x := s.link n
  let s := s.inc (L.DL_CNT.CRC_ERR n)
  let s := s.forAll (badLanes (s.linkHalf n) w) (fun s lg =>
    let sp0 := s.get (L.DL_LANES_RX.SP0_FOR n)
    let sp1 := s.get (L.DL_LANES_RX.SP1_FOR n)
    s.laneErrors n (if lg = sp0 then 16 else if lg = sp1 then 17 else lg) 1)
  match x.rxFail with
  | some q => if q = cdpSeq w then s.enterRetrain n else s
  | none =>
    let s := (s.setLink n { s.link n with rxFail := some x.rxSeq }).inc (L.DL_CNT.REPLAY n) |>.pmc uDL n 2 1 true none
    s.sendFlit n kindLnak (lnakPayload 0 x.rxSeq) []

/-- A whole message has arrived: its units go back to the die as credit, and it goes on to the mesh; an IO_CMP ends its read. -/
def State.takeMsg (s : State) (n : Nat) (units : List Nat) : State :=
  let m := cdpMsgOf (units.headD 0) units.tail
  let x := s.link n
  let s := s.setLink n { x with
    rxPart := default, due := true, owed := x.owed.set m.vc (x.owed.getD m.vc 0 + units.length) }
  let y := s.dieSt (n / 4)
  (s.when (m.opcode = 0x32) (fun s => s.setDie (n / 4) { y with reads := y.reads.erase m.txn })).send (.cdpMsg n m)

/-- Units behind a header that arrives on a link: an IO_CMP has one if it answers a read (R188). -/
def State.tailIn (s : State) (n u : Nat) : Nat := tailOf u ((s.dieSt (n / 4)).reads.contains (bits u 55 40))

/-- One unit of a payload (R188): a part of the message under way, padding, or the header of a message. A message that breaks
the rules is discarded and answered (R191). -/
def State.takeUnit (s : State) (n seq u : Nat) : State :=
  let x := s.link n
  let p := x.rxPart
  if 0 < p.need then
    if p.drop then s.setLink n { x with rxPart := { p with need := p.need - 1 } }
    else if p.need = 1 then s.takeMsg n (p.units ++ [u])
    else s.setLink n { x with rxPart := { p with units := p.units ++ [u], need := p.need - 1 } }
  else if bits u 7 0 = 0 then s
  else
    let vc := bits u 12 11
    let tail := s.tailIn n u
    let refuse := fun (code : Nat) => (s.setLink n { x with rxPart := ⟨[], tail, true⟩ }).linkViolation n code seq
    if cdpOpcodeOk (bits u 7 0) = false ∨ headerReserved u then refuse 0x03
    else if x.rxFree.getD vc 0 < 1 + tail then refuse 0x02
    else
      let s := s.setLink n { x with rxFree := x.rxFree.set vc (x.rxFree.getD vc 0 - (1 + tail)), rxPart := ⟨[u], tail, false⟩ }
      if tail = 0 then s.takeMsg n [u] else s

/-- A MSG flit is discarded (R191): the message under way is lost with it and its buffer is free again; what messages of the
flit still bring with later flits is discarded too. -/
def State.dropFlit (s : State) (n payload : Nat) : State :=
  let x := s.link n
  let p := x.rxPart
  let vc := bits (p.units.headD 0) 12 11
  let owed := if 0 < p.need ∧ p.drop = false then x.owed.set vc (x.owed.getD vc 0 + p.units.length + p.need) else x.owed
  let left := (unitsOf payload).foldl (fun k u => if 0 < k then k - 1 else if bits u 7 0 = 0 then 0 else s.tailIn n u) p.need
  s.setLink n { x with rxPart := ⟨[], left, true⟩, owed := owed }

/-- An LNAK (R187): its code is kept; code 0x00 has the hub's transmitter resend from the refused flit, and the second refusal
of one flit puts the link in RETRAIN. A flit sent again has the lane parity of the lanes now in use (R199). -/
def State.takeLnak (s : State) (n code seq : Nat) : State :=
  let s := s.put (L.DL_STATUS.LNAK_LAST n) code
  let x := s.link n
  if code ≠ 0 then s
  else if x.txRefused = some seq then s.enterRetrain n
  else
    let s := ((s.setLink n { x with txRefused := some seq }).inc (L.DL_CNT.REPLAY n)).pmc uDL n 2 1 true none
    s.forAll (x.replay.filter (fun f => decide ((f.seq + 4096 - seq) % 4096 < 2048))) (fun s f =>
      s.send (.cdpFlit n (cdpSeal (s.linkHalf n) (f.wire % 2 ^ 976))))

/-- A RESUME (R190): of the messages that the lost link had not delivered, those of the slices this link carries are sent first,
in order; a RESUME that names a link that was not lost is a violation. -/
def State.takeResume (s : State) (n index last seq : Nat) : State :=
  let d := n / 4
  let k := 4 * d + index
  let x := s.link k
  if s.dlState k = dlActive ∧ x.lost = [] then s.linkViolation n 0x04 seq
  else
    let mine := fun (e : Nat × Nat × CdpMsg) => s.carrier d e.2.1 == some n || s.carrier d e.2.1 == some k
    let later := fun (e : Nat × Nat × CdpMsg) =>
      decide (0 < (e.1 + 4096 - last) % 4096 ∧ (e.1 + 4096 - last) % 4096 < 2048)
    let again := fun (n : Nat) => ((x.lost.filter (fun e => later e && s.carrier d e.2.1 == some n)).map Prod.snd)
    let s' := s.setLink k { x with lost := x.lost.filter (fun e => !mine e) }
    let s' := s'.setLink n { s'.link n with resend := (s'.link n).resend ++ again n }
    let s' := s'.when (k ≠ n) (fun s => (s.setLink k { s.link k with resend := (s.link k).resend ++ again k }).linkPump k)
    s'.linkPump n

/-- What a flit in its turn brings, by KIND. -/
def State.takeFlit (s : State) (n w : Nat) : State :=
  let p := cdpPayload w
  let kind := cdpKind w
  if kind = kindMsg then s.forAll (unitsOf p) (fun s u => s.takeUnit n (cdpSeq w) u)
  else if kind = kindLnak then s.takeLnak n (bits p 7 0) (bits p 19 8)
  else if kind = kindResume then s.takeResume n (bits p 1 0) (bits p 13 2) (cdpSeq w)
  else s

/-- A flit arrives on an ACTIVE link (R186 to R191): checked, then, if it is the one whose turn it is, counted as received,
judged by KIND and reserved bits, and taken. -/
def State.flitIn (s : State) (n w : Nat) : State :=
  let x := s.link n
  if s.dlState n ≠ dlActive then s
  else if cdpGood (s.linkHalf n) w = false then s.flitFails n w
  else
    let s := s.setLink n { x with copyGood := x.copyGood + 1 }
    if cdpSeq w ≠ x.rxSeq then s
    else
      let takes := consumesSeq (cdpKind w)
      let s := s.setLink n { s.link n with
        rxFail := none, rxSeq := if takes then (x.rxSeq + 1) % 4096 else x.rxSeq, rxAny := x.rxAny || takes, due := x.due || takes }
      if 3 < cdpKind w ∨ cdpReserved w then
        ((s.when (cdpKind w = kindMsg) (fun s => s.dropFlit n (cdpPayload w))).linkViolation n 0x01 (cdpSeq w)).linkPump n
      else ((s.linkAck n (cdpAck w) (cdpCredit w)).takeFlit n w).linkPump n

/-- CDP_MSG_FLIT (R187, R188). -/
def execCdpMsgFlit (link : Fin 48) (w : BitVec 1024) (s : State) : Result := .next (s.flitIn link w.toNat)
/-- CDP_IDLE_FLIT (R186). -/
def execCdpIdleFlit (link : Fin 48) (w : BitVec 1024) (s : State) : Result := .next (s.flitIn link w.toNat)
/-- CDP_LNAK (R187). -/
def execCdpLnak (link : Fin 48) (w : BitVec 1024) (s : State) : Result := .next (s.flitIn link w.toNat)
/-- CDP_RESUME (R190). -/
def execCdpResume (link : Fin 48) (w : BitVec 1024) (s : State) : Result := .next (s.flitIn link w.toNat)

/-! ### Timing lane (R192) -/

/-- TIME_WORD_SEND (R192): every 1,024 ns, on every ACTIVE link; the words of a tick leave with the tick. -/
def execTimeWordSend (s : State) : Result :=
  let s := s.elapseUntil (s.timeWordAt + 1024)
  .next ({ s with timeWordAt := s.up }).sendTimeWords

/-- TIMING_LANE_FAIL (R192). -/
def execTimingLaneFail (link : Fin 48) (s : State) : Result :=
  let n := link.val
  if s.get (L.DL_STATUS.TIME_OK n) = 1 then
    .next ((s.put (L.DL_STATUS.TIME_OK n) 0).dlEvent n (L.DL_EVT.TIME_LANE n))
  else .next s

/-! ### Register writes (R204) -/

/-- Writes of DL_ registers come from the Sealed world (R204). -/
def State.dlGuard (s : State) (n : Nat) (c : Issuer) (key : Nat) (f : State → State) : State :=
  if c.sealed then f (s.answer .ok) else s.worldError (dlLog n) (regAddr key) c

/-- A write of DL_CTRL (R193, R195, R201). -/
def State.writeDlCtrl (s : State) (n : Nat) (c : Issuer) (v : Nat) : State :=
  if v.testBit 3 ∧ s.dlState n ≠ dlDown ∧ s.dlState n ≠ dlHeld then s.otherViolation (dlLog n) (R.DL_CTRL n) c
  else
    let s := (s.put (L.DL_CTRL.AXO_EN n) v).put (L.DL_CTRL.HOLD n) (bits v 2 2)
    let s := s.when (v.testBit 3 = true) (fun s => (s.put (L.DL_LANES_RX.FAILED n) 0).put (L.DL_LANES_TX.FAILED n) 0)
    if v.testBit 2 then
      if s.dlState n = dlHeld then s
      else if s.dlState n = dlDown then s.setLink n { s.link n with wentDown := true }
      else (s.setLink n { s.link n with wentDown := true, action := .none, group := [], waitLanes := [], exchanged := false }).setDlState n dlDown
    else if v.testBit 1 then s.enterRetrain n
    else s

/-- DL_HOLD (R193). -/
def execDlHold (c : Issuer) (link : Fin 48) (v : Word) (s : State) : Result :=
  .next (s.issue c (fun c s => s.dlGuard link c (R.DL_CTRL link) (fun s => s.writeDlCtrl link c v.toNat)))
/-- DL_RETRAIN (R201). -/
def execDlRetrain (c : Issuer) (link : Fin 48) (v : Word) (s : State) : Result :=
  .next (s.issue c (fun c s => s.dlGuard link c (R.DL_CTRL link) (fun s => s.writeDlCtrl link c v.toNat)))
/-- DL_CLR_REC (R195). -/
def execDlClrRec (c : Issuer) (link : Fin 48) (v : Word) (s : State) : Result :=
  .next (s.issue c (fun c s => s.dlGuard link c (R.DL_CTRL link) (fun s => s.writeDlCtrl link c v.toNat)))

/-- A write of a DL_ register with a rule of its own. -/
def State.writeDl (s : State) (r : Reg) (n : Nat) (c : Issuer) (v : Nat) : Option State :=
  match r with
  | .DL_CTRL => some (s.writeDlCtrl n c v)
  | .DL_AXO_CFG => if bits v 7 0 = 0 then some (s.reservedEnc (dlLog n) (R.DL_AXO_CFG n) c) else none
  | _ => none

end Sys2Proof.Machine
end

