-- ==== Sys2Proof/Machine/Power.lean ====
section
/-! DEFINITION. Power and clocks (16): the power domains and their actions, the cap, the thermal limits, the supply and
the reference clocks; and the reset of a cluster, which an action on a core domain includes (R420, R421). -/

namespace Sys2Proof.Machine

abbrev pwrLog : Nat := 281
abbrev clkLog : Nat := 282
def State.setPwr (s : State) (p : Pwr) : State := { s with pwr := p }
def State.pwrEvent (s : State) (l : Loc) : State := s.event pwrLog l R.PWR_EVT_EN
def State.clkEvent (s : State) (l : Loc) : State := s.event clkLog l R.CLK_EVT_EN
abbrev State.domState (s : State) (n : Nat) : Nat := s.get (L.PWR_DOM.STATE n)

abbrev domOff : Nat := 0
abbrev domOn : Nat := 1
abbrev domGated : Nat := 2

/-- The domains of Table 16.6. -/
inductive Dom where
  | core (d : Nat) | l3 (d : Nat) | hub | mem (k : Nat) | ce (e : Nat) | pcie
  deriving DecidableEq, Repr

/-- The domain of a number. -/
def domOf (n : Nat) : Dom :=
  if n < 24 then (if n % 2 = 0 then .core (n / 2) else .l3 (n / 2))
  else if n = 24 then .hub
  else if n < 29 then .mem (n - 25)
  else if n < 33 then .ce (n - 29)
  else .pcie

/-! ### Clusters (R420, R421) -/

/-- The two harts of a cluster. -/
abbrev clusterHarts (d c : Nat) : List Nat := [hartOf d c 0, hartOf d c 1]

/-- Fetch stops on both harts, and their stores leave (step 1 of R421). -/
def State.clusterHold (s : State) (d c : Nat) : State :=
  s.forAll (clusterHarts d c) (fun s h =>
    let s := s.wcDrain h
    s.setHart h { s.hartSt h with run := .held, goWait := false, halted := false })

/-- The registers of a hart take their reset values, SKLSCFG.PAIR and MM_SEEN apart (Table 17.1). -/
def State.resetHart (s : State) (h : Nat) : State :=
  let pair := s.get (L.SKLSCFG.PAIR h)
  let seen := s.get (L.SKLSCFG.MM_SEEN h)
  let b := 0x1000000000 + 0x1000 * h
  let s := ((s.resetKeys b (b + 0x1000)).put (L.SKLSCFG.PAIR h) pair).put (L.SKLSCFG.MM_SEEN h) seen
  { s with
    hart := SMap.set s.hart h { s.hartSt h with cycles := 0, cycAt := s.up, smpEnd := 0, smpDone := false, wc := none }
    hregs := s.hregs.filter (fun p => p.1 / 0x10000 != h)
    files := s.files.filter (fun p => p.1 / 32 != h)
    gftag := s.gftag.filter (fun p => p.1 / 16 != h)
    paused := s.paused.filter (fun x => x != h) }

/-- The caches of a cluster hold no line, and their trees and streams are as at first use. -/
def State.resetClusterCaches (s : State) (d c : Nat) : State :=
  let s := s.clearClusterStreams d c
  { s with
    cache := s.cache.filter (fun p => !((clusterCaches c).any (fun u => p.1 / 16 / 16384 == d * 64 + u)))
    plru := s.plru.filter (fun p => !((clusterCaches c).any (fun u => p.1 / 2 / 16384 == d * 64 + u))) }

/-- A cluster leaves its reset (R420): both harts start in machine mode in the Sealed world at PWR_CORE_VEC.VEC; a pair
starts as one hart, and a cluster with a failed core is never paired (R135). -/
def State.clusterStart (s : State) (d c : Nat) : State :=
  let s := (s.forAll (clusterHarts d c) State.resetHart).resetClusterCaches d c
  let s := (s.setBitOf (L.WLD_CL_WORLD.WORLD d) c).clearBitOf (L.WLD_CL_WORLD.SWITCHING d) c
  let h0 := hartOf d c 0
  let bad : Bool := (clusterHarts d c).any s.coreFailed
  let s := s.when (bad = true) (fun s => s.put (L.SKLSCFG.PAIR h0) 0)
  let s := s.forAll (clusterHarts d c) (fun s h => s.put (L.SKLSCFG.ACTIVE h) (s.get (L.SKLSCFG.PAIR h0)))
  s.forAll (clusterHarts d c) (fun s h =>
    let on : Bool := !s.hartUnused h && !s.coreFailed h
    let s := s.setHreg h 0x20 (BitVec.ofNat 64 (4 * s.get L.PWR_CORE_VEC.VEC))
    s.setHart h { (default : Hart) with run := if on then .run else .held, mode := .m })

/-- Every access of the cluster's harts is complete and its caches are empty (steps 1 and 2 of R421). -/
def State.clusterClean (s : State) (d c : Nat) : Bool := !s.clusterOutstanding d c && s.clusterEmpty d c

/-! ### Requests (R401, R402, R404) -/

abbrev State.pwrReqs (s : State) (n : Nat) : List PwrReq := SMap.get s.pwr.reqs n

/-- The requests of a domain; BUSY reads 1 while there is one. -/
def State.setPwrReqs (s : State) (n : Nat) (l : List PwrReq) : State :=
  (s.setPwr { s.pwr with reqs := SMap.set s.pwr.reqs n l }).put (L.PWR_DOM.BUSY n) (if l.isEmpty then 0 else 1)

/-- World and instance of the sender of a request. -/
def State.pwrIssuer (s : State) : PwrBy → Issuer
  | .launch id => match s.findLaunch id with
    | some l => ⟨l.sealed, l.vi, l.gen, .device⟩
    | none => unitIssuer true
  | .cmd w => unitIssuer w
  | .dieReset => unitIssuer true

/-- A request completes with a status. -/
def State.pwrResult (s : State) (b : PwrBy) (st : Nat) : State :=
  match b with
  | .launch id => s.endLaunch id st
  | .cmd w => (s.put (L.PWR_RES.READY w) 1).put (L.PWR_RES.STATUS w) st
  | .dieReset => s

/-- A request completes with a status; WORLD and VI set REFUSED and are logged with the domain's address (R115, R404). -/
def State.pwrEnd (s : State) (n : Nat) (b : PwrBy) (st : Nat) : State :=
  let s' := s.pwrResult b st
  if st = 2 ∨ st = 3 then
    (s'.logRec pwrLog (if st = 2 then Cause.WORLD else Cause.VI) 0 (regAddr (R.PWR_DOM n)) (s.pwrIssuer b) 0).pwrEvent
      L.PWR_EVT.REFUSED
  else s'

/-- Table 16.7 gives the action no meaning on the domain. -/
def actionMissing (k : Dom) (action : Nat) : Bool :=
  match k with
  | .hub => action != 0
  | .l3 _ | .pcie => decide (2 ≤ action)
  | _ => false

/-- The requests of a domain with one more: a launch comes before a request of PWR_CMD of the same nanosecond (R404). -/
def joinReqs (l : List PwrReq) (r : PwrReq) : List PwrReq :=
  let after (x : PwrReq) : Bool := match r.by_, x.by_ with
    | .launch _, .cmd _ => !x.started && x.at_ == r.at_
    | _, _ => false
  l.takeWhile (fun x => !after x) ++ r :: l.dropWhile (fun x => !after x)

/-- A request arrives: DESC_BAD, WORLD and VI at once, else it joins the requests of its domain (R401, R404, R329). -/
def State.pwrAccept (s : State) (n action : Nat) (b : PwrBy) (reserved : Bool) : State :=
  let c := s.pwrIssuer b
  if reserved ∨ 33 < n ∨ 3 < action ∨ actionMissing (domOf n) action then s.pwrResult b 1
  else if s.ownerSealed (.pwr n) ≠ c.sealed ∨ s.isReleasing (.pwr n) then s.pwrEnd n b 2
  else if c.vi.isSome then s.pwrEnd n b 3
  else s.setPwrReqs n (joinReqs (s.pwrReqs n) ⟨action, b, false, s.up⟩)

/-- A write of PWR_CMD (R404). -/
def State.writePwrCmd (s : State) (c : Issuer) (v : Nat) : State :=
  let w := c.sealed
  let open_ : Bool := s.pwr.reqs.any (fun p => p.2.any (fun r => r.by_ == .cmd w))
  if v.testBit 63 ∧ open_ then s.goEarly pwrLog (R.PWR_CMD w) c
  else
    let s := (s.put (L.PWR_CMD.ACTION w) (bits v 11 8)).put (L.PWR_CMD.DOMAIN w) (bits v 5 0)
    if v.testBit 63 then
      ((s.put (L.PWR_RES.READY w) 0).put (L.PWR_RES.STATUS w) 0xFF).pwrAccept (bits v 5 0) (bits v 11 8) (.cmd w) false
    else s

/-- A write of PWR_RES (R326, R404). -/
def State.writePwrRes (s : State) (c : Issuer) (v : Nat) : State :=
  let w := c.sealed
  if v.testBit 62 ∧ s.get (L.PWR_RES.READY w) = 1 then (s.put (L.PWR_RES.READY w) 0).put (L.PWR_RES.STATUS w) 0xFF else s

/-- PWR_RES_ACK (R404). -/
def execPwrResAck (c : Issuer) (v : Word) (s : State) : Result :=
  .next (s.issue c (fun c s =>
    if c.vi.isSome then s.worldError pwrLog (regAddr (R.PWR_RES c.sealed)) c else (s.answer .ok).writePwrRes c v.toNat))

/-- A cluster of the die belongs to the world that does not own its core domain (R403). -/
def State.foreignCluster (s : State) (d : Nat) : Bool :=
  (List.range 9).any (fun c => !s.clusterFailed d c && s.clusterSealed d c != s.ownerSealed (.pwr (2 * d))) &&
    !(s.dieSt d).otherMake

/-- An L3 way of the die belongs to the world that does not own its L3 domain (R403). -/
def State.foreignWay (s : State) (d : Nat) : Bool :=
  (List.range 64).any (fun i => s.ownerSealed (.l3 (64 * d + i)) != s.ownerSealed (.pwr (2 * d + 1)))

/-- An action waits for a cluster that switches (R403). -/
def State.actionWaits (s : State) (n action : Nat) : Bool :=
  match domOf n with
  | .core d => (action == 1 || action == 2) && s.domState n != domOff && s.get (L.WLD_CL_WORLD.SWITCHING d) != 0
  | _ => false

/-- The status with which a request completes without an action, if it does (R402, R403, R419); of several statuses, the
lowest (R106). -/
def State.actionJudge (s : State) (n action : Nat) : Option Nat :=
  let st := s.domState n
  if actionMissing (domOf n) action then some 1
  else match action with
    | 0 =>
      if st = domOn then some 0
      else if st = domGated then none
      else match domOf n with
        | .core d => if s.domState (2 * d + 1) = domOff ∨ s.get L.PWR_CORE_VEC.VALID = 0 then some 1 else none
        | _ => none
    | 1 =>
      if st = domOff then some 0
      else match domOf n with
        | .core d => if s.foreignCluster d then some 2 else none
        | .l3 d => if s.domState (2 * d) ≠ domOff then some 1 else if s.foreignWay d then some 2 else none
        | _ => none
    | 2 =>
      if st = domOff then some 1
      else if st = domGated then some 0
      else match domOf n with
        | .core d => if s.foreignCluster d then some 2 else none
        | _ => none
    | _ => if st = domOn then some 0 else if st = domOff then some 1 else none

/-- What happens when an action starts. -/
def State.actionStart (s : State) (n action : Nat) : State :=
  match domOf n, action with
  | .core d, 1 => s.forAll (List.range 9) (fun s c => s.clusterHold d c)
  | .mem k, 0 =>
    if s.domState n = domOff then s.forAll ((List.range 16).map (fun i => 16 * k + i)) State.mcTrainStart else s
  | _, _ => s

/-- The launch of a request has started. -/
def State.pwrStarted (s : State) : PwrBy → State
  | .launch id => s.updateLaunch id (fun l => { l with started := true })
  | _ => s

/-- A launched request starts only after the launches that the controller accepted before it (R105). -/
def State.pwrTurn (s : State) : PwrBy → Bool
  | .launch id => match s.findLaunch id with
    | some l => s.firstPending l
    | none => true
  | _ => true

/-- The controller takes up the oldest request of a domain, if it is one of this action (R404). -/
def State.takeAction (s : State) (n action : Nat) : State :=
  match s.pwrReqs n with
  | r :: rest =>
    if r.started ∨ r.action ≠ action ∨ r.by_ = .dieReset ∨ s.actionWaits n action ∨ s.pwrTurn r.by_ = false then s
    else match s.actionJudge n action with
      | some st => (s.setPwrReqs n rest).pwrEnd n r.by_ st
      | none => ((s.setPwrReqs n ({ r with started := true } :: rest)).pwrStarted r.by_).actionStart n action
  | [] => s

/-- POWER_ON_ACTION (R402). -/
def execPowerOnAction (dom : Fin 34) (s : State) : Result := .next (s.takeAction dom 0)
/-- POWER_OFF_ACTION (R402). -/
def execPowerOffAction (dom : Fin 34) (s : State) : Result := .next (s.takeAction dom 1)
/-- CLOCK_GATE_ACTION (R402). -/
def execClockGateAction (dom : Fin 34) (s : State) : Result := .next (s.takeAction dom 2)
/-- CLOCK_UNGATE_ACTION (R402). -/
def execClockUngateAction (dom : Fin 34) (s : State) : Result := .next (s.takeAction dom 3)

/-! ### The actions (Table 16.7) -/

/-- The structures of the L3 of a die. -/
abbrev l3Caches : List Nat := [uL3 0, uL3 1, uL3 2, uL3 3]

/-- Every way of the die's L3 is cleaned and invalidated, as far as no line waits for a transaction. -/
def State.flushL3 (s : State) (d : Nat) : State :=
  s.forAll l3Caches (fun s u => s.forAll (s.swopLines d u) (fun s p => s.swopLine d u p.1 p.2 2))

/-- A transaction of the die is open, in a slice, on its ring or at a home. -/
def State.dieOpen (s : State) (d : Nat) : Bool :=
  s.slices.any (fun p => decide (sliceKey d 0 ≤ p.1 ∧ p.1 < sliceKey (d + 1) 0)) ||
    s.ring.any (fun a => hartDie a.h == d) ||
    s.homes.any (fun p => p.2.txns.any (fun t => !t.back && t.req.src == d) || p.2.waiting.any (fun m => m.2.src == d) ||
      p.2.held.any (fun m => m.2.src == d))

/-- Every home removes the die from its filter (step 4 of R423, R424): entries that name it as owner are freed, its
presence bit is cleared everywhere; lines with an open transaction keep their entry. -/
def State.filterSweep (s : State) (d : Nat) : State :=
  let s := s.forAll s.sf (fun s p =>
    let h := p.1 / 16 / 32768
    let x := p.2
    if x.valid = false ∨ x.pres.testBit d = false ∨ (s.txnOn h x.line).isSome then s
    else
      let m := clearBit x.pres d
      s.setSf h (p.1 / 16 % 32768) (p.1 % 16) (if x.st = 2 ∨ m = 0 then default else { x with pres := m }))
  s.forAll (List.range 32) (fun s h => s.clearBitOf (L.HA_STATUS.CA h) d)

/-- A link of a die that leaves is taken DOWN by the hub; a reset of the link trains it again (R193, R423). -/
def State.linkTaken (s : State) (n : Nat) : State :=
  let was := s.dlState n
  let s := s.setLink n { s.link n with wentDown := true, action := .none, group := [], waitLanes := [], exchanged := false }
  let s := s.setDlState n dlDown
  if was = dlActive then s.dlEvtLog n (L.DL_EVT.DOWN n) else s

/-- The four links of a die. -/
abbrev dieLinks (d : Nat) : List Nat := [4 * d, 4 * d + 1, 4 * d + 2, 4 * d + 3]

/-- The die's slices are as after a die reset (R145, R422): every way a Sealed cache way, and no Piton data. -/
def State.resetL3 (s : State) (d : Nat) : State :=
  let s := (s.zeroRange (0x10000000000 + d * 0x10000000) 0x2400000)
  let s := s.forAll [0, 1, 2, 3] (fun s k => s.put (L.WLD_L3WAY.PITON d k) 0)
  let s := s.forAll [0, 1, 2, 3] (fun s k => s.put (L.WLD_L3WAY.BUSY d k) 0)
  { s with
    cache := s.cache.filter (fun p => !(l3Caches.any (fun u => p.1 / 16 / 16384 == d * 64 + u)))
    plru := s.plru.filter (fun p => !(l3Caches.any (fun u => p.1 / 2 / 16384 == d * 64 + u)))
    pitonBusy := s.pitonBusy.filter (fun p => p.1 / 4 != d) }

/-- A controller holds no accepted request. -/
def State.mcIdle (s : State) (m : Nat) : Bool :=
  let x := s.mcSt m
  x.rt.isEmpty && x.cr.isEmpty && x.bk.isEmpty && x.wq.isEmpty && x.issued.isEmpty

/-- The controllers of a stack. -/
abbrev stackMcs (k : Nat) : List Nat := (List.range 16).map (fun i => 16 * k + i)

/-- The L3 domain of a die is switched on: nothing is left of the die's time before (R19, R423). -/
def State.l3Start (s : State) (d : Nat) : State :=
  let s := (s.resetL3 d).setDie d { s.dieSt d with left := false }
  s.forAll (dieLinks d) (fun s k => s.setLink k { s.link k with wentDown := false })

/-- A memory channel is switched off: its contents and the state of its controller are lost. -/
def State.mcLost (s : State) (m : Nat) : State :=
  let t := s.zeroChannel m
  { t with mc := SMap.set t.mc m default }.setMode m mcOff

/-- The end of an action on a domain: the state after it, and whether it is complete; an action that must wait for open
transactions answers false with what could be done. -/
def State.actionEnd (s : State) (n action : Nat) : State × Bool :=
  let ungate : Bool := action = 3 || (action = 0 && s.domState n = domGated)
  match domOf n with
  | .core d =>
    if ungate then (s, true)
    else match action with
      | 0 => ((s.put (L.PWR_DOM.STATE n) domOn).forAll (List.range 9) (fun s c => s.clusterStart d c), true)
      | 1 =>
        let s := s.forAll (List.range 9) (fun s c => s.flushCluster d c)
        (s, (List.range 9).all (fun c => s.clusterClean d c))
      | _ => (s, true)
  | .l3 d =>
    match action with
    | 0 =>
      (s.l3Start d, true)
    | _ =>
      let other : Bool := (s.dieSt d).otherMake
      let s := if other ∧ s.dieOpen d then s.elapse 2000000 else s.flushL3 d
      if other = false ∧ (l3Caches.any (fun u => !(s.swopLines d u).isEmpty) ∨ s.dieOpen d) then (s, false)
      else (((s.filterSweep d).forAll (dieLinks d) State.linkTaken).resetL3 d, true)
  | .mem k =>
    if ungate then
      ((stackMcs k).foldl (fun s m =>
        s.settleMode m (if (s.mcSt m).failed then mcFailed else mcNormal)) s, true)
    else match action with
      | 0 => (s, (stackMcs k).all (fun m => s.mcMode m != mcOff && s.mcMode m != mcStart))
      | 1 =>
        if (stackMcs k).all s.mcIdle then
          ((stackMcs k).foldl (fun s m => s.mcLost m) s, true)
        else (s, false)
      | _ => if (stackMcs k).all s.mcIdle then ((stackMcs k).foldl (fun s m => s.settleMode m mcOff) s, true) else (s, false)
  | .ce e => ((if action = 1 then s.cePowerOff e else s), true)
  | .pcie =>
    match action with
    | 0 => ((s.put (L.PCI_CFG.EN 0) 0).put (L.PCI_CFG.EN 1) 0, true)
    | _ => ((s.pciAllDown 0).pciAllDown 1, true)
  | .hub => (s, true)

/-- STATE after an action. -/
def stateAfter (action : Nat) : Nat := if action = 1 then domOff else if action = 2 then domGated else domOn

/-- The die reset that waits for both domains of its die starts (R423): fetch stops on every hart and the prefetch streams
are cleared. A domain that is no longer on ends it with DESC_BAD. -/
def State.dieResetStart (s : State) : State :=
  match s.pwr.rst with
  | some (.die d 0) =>
    let at_ (n : Nat) : Bool := match s.pwrReqs n with | r :: _ => r.by_ == .dieReset | [] => false
    if at_ (2 * d) && at_ (2 * d + 1) then
      if s.domState (2 * d) ≠ domOn ∨ s.domState (2 * d + 1) ≠ domOn then
        let s := (s.setPwrReqs (2 * d) ((s.pwrReqs (2 * d)).drop 1)).setPwrReqs (2 * d + 1) ((s.pwrReqs (2 * d + 1)).drop 1)
        ((s.setPwr { s.pwr with rst := none }).put L.PWR_RST_RES.READY 1).put L.PWR_RST_RES.STATUS 1
      else
        let s := s.setPwr { s.pwr with rst := some (.die d 1) }
        let s := s.setDie d { s.dieSt d with resetting := true }
        let s := s.forAll (List.range 9) (fun s c => (s.clusterHold d c).clearClusterStreams d c)
        s
    else s
  | _ => s

/-- The PLL of the clock domain that a power domain feeds locks when the domain comes on and stops when it goes off. -/
def State.lockClock (s : State) (n action : Nat) : State :=
  let k : Option Nat := match domOf n with
    | .l3 d => some d
    | .mem k => some (14 + k)
    | .pcie => some 19
    | _ => none
  match k with
  | some k => if action = 0 then s.put (L.CLK_DOM.LOCK k) 1 else if action = 1 then s.put (L.CLK_DOM.LOCK k) 0 else s
  | none => s

/-- POWER_ACTION_DONE (R402): the domain reaches its state, DOM_CHG is set and the request completes with OK. -/
def execPowerActionDone (dom : Fin 34) (s : State) : Result :=
  let n := dom.val
  match s.pwrReqs n with
  | r :: rest =>
    if r.started ∧ r.by_ ≠ .dieReset then
      let e := s.actionEnd n r.action
      if e.2 then
        let s := e.1.when (n < 24 ∧ n % 2 = 0) (fun s => s.cycleMark (n / 2))
        let s := ((s.put (L.PWR_DOM.STATE n) (stateAfter r.action)).lockClock n r.action).schedLevels
        .next ((((s.pwrEvent L.PWR_EVT.DOM_CHG).setPwrReqs n rest).pwrEnd n r.by_ 0).dieResetStart)
      else .next e.1
    else .next s
  | [] => .next s

/-! ### Launches (R115, R401) -/

/-- Bits of a power descriptor that must be zero: word 1 above ACTION and between the fields, word 2 above CAP, and words 3
to 7. -/
def pwrReserved (d : List Nat) : Bool :=
  let w (i : Nat) : Nat := d.getD i 0
  bits (w 1) 7 6 != 0 || bits (w 1) 63 12 != 0 || bits (w 2) 63 16 != 0 || (List.range 5).any (fun i => w (i + 3) != 0)

/-- The words of a power launch are no good (Table 4.4, R402): a reserved bit, DOMAIN above 33, an ACTION that the domain
does not have, or CAP out of range for ACTION 4. -/
def pwrLaunchBad (d : List Nat) : Bool :=
  let w (i : Nat) : Nat := d.getD i 0
  let n := bits (w 1) 5 0
  let action := bits (w 1) 11 8
  let cap := bits (w 2) 15 0
  pwrReserved d || decide (33 < n) || decide (4 < action) ||
    (if action = 4 then decide (cap < 150 ∨ 400 < cap) else actionMissing (domOf n) action)

/-- The status that the power controller's judgement of a launch gives (R104, R115, R401). -/
def State.pwrLaunchStatus (s : State) (l : Launch) : Nat :=
  let n := bits (l.desc.getD 1 0) 5 0
  if pwrLaunchBad l.desc then 1
  else if (if bits (l.desc.getD 1 0) 11 8 = 4 then l.sealed = false
      else s.ownerSealed (.pwr n) ≠ l.sealed ∨ s.isReleasing (.pwr n)) then 2
  else if l.vi.isSome then 3
  else 0

/-- A launch of the power controller is accepted: what it can judge at once, and the queue of its domain. ACTION 4 waits
for its turn. -/
def State.pwrLaunch (s : State) (l : Launch) : State :=
  let n := bits (l.desc.getD 1 0) 5 0
  let action := bits (l.desc.getD 1 0) 11 8
  if pwrLaunchBad l.desc then s.endLaunch l.id 1
  else if action = 4 then
    let st := s.pwrLaunchStatus l
    s.when (st ≠ 0) (fun s => s.pwrEnd n (.launch l.id) st)
  else s.pwrAccept n action (.launch l.id) false

/-- SET_CAP_ACTION (R115, R409): the cap takes the value of an accepted launch; a write of PWR_CAP in this nanosecond comes
after it. -/
def execSetCapAction (id : Nat) (s : State) : Result :=
  match s.findLaunch id with
  | some l =>
    if l.target = 0x70 ∧ l.status = none ∧ bits (l.desc.getD 1 0) 11 8 = 4 ∧ s.firstPending l then
      let s := s.elapseUntil l.acceptAt
      let s := if s.pwr.capAt = some s.up then s else s.put L.PWR_CAP.CAP (bits (l.desc.getD 2 0) 15 0)
      .next (s.endLaunch id 0)
    else .next s
  | none => .next s

/-! ### Clocks and the cap (R408, R409) -/

/-- The cap step of a die. -/
def State.capStep (s : State) (d : Nat) : Nat := bits (s.get L.PWR_CAP_STAT.STEP) (2 * d + 1) (2 * d)

/-- Pipeline clock of a selection (Table 16.10). -/
def pipeClock (f : Nat) : Nat := if f = 0 then 2600 else if f = 1 then 2200 else if f = 2 then 1800 else 1300

/-- EFF and FREQ of a die follow FSEL and the cap step (R408); the cycles so far count at the old clock (R122). -/
def State.clockShow (s : State) (d : Nat) : State :=
  let s := s.cycleMark d
  let e := max (s.get (L.CLK_DOM.FSEL d)) (s.capStep d)
  (s.put (L.CLK_DOM.EFF d) e).put (L.CLK_DOM.FREQ d) (pipeClock e)

/-- A die's cap step takes a value. -/
def State.setCapStep (s : State) (d v : Nat) : State :=
  let x := s.get L.PWR_CAP_STAT.STEP
  (s.put L.PWR_CAP_STAT.STEP (x - (s.capStep d) * 4 ^ d + v * 4 ^ d)).clockShow d

/-- A write of CLK_DOM (R413). -/
def State.writeClkDom (s : State) (n : Nat) (v : Nat) : State :=
  if n < 12 then (s.put (L.CLK_DOM.FSEL n) (bits v 1 0)).clockShow n else s

/-- POWER_MEASURE (R409): the last millisecond holds 100 measurements. -/
def execPowerMeasure (voltage current : Nat) (s : State) : Result :=
  let l := ((voltage * current) :: s.pwr.samples).take 100
  let s := s.setPwr { s.pwr with samples := l }
  let s := (s.put L.PWR_IN.VOLTAGE (min voltage 0xFFFF)).put L.PWR_IN.CURRENT (min current 0xFFFF)
  .next (s.put L.PWR_IN.POWER (min (l.foldl (· + ·) 0 / (l.length * 10000)) 0xFFFF))

/-- The die that the procedure slows next: the eligible one with the lowest selection below 3, the highest number on a
tie. -/
def State.slowNext (s : State) (all : Bool) : Option Nat :=
  let keep := s.get L.PWR_CAP.KEEP
  let sel (d : Nat) : Nat := max (s.capStep d) (s.get (L.CLK_DOM.FSEL d))
  let ok := (List.range 12).filter (fun d => (all || !keep.testBit d) && s.domState (2 * d) == domOn && decide (sel d < 3))
  ok.foldl (fun b d => match b with | none => some d | some x => if sel d ≤ sel x then some d else some x) none

/-- The die that is raised next: the highest step above 0, the lowest number on a tie. -/
def State.raiseNext (s : State) : Option Nat :=
  ((List.range 12).filter (fun d => s.capStep d != 0)).foldl (fun b d =>
    match b with | none => some d | some x => if s.capStep x < s.capStep d then some d else some x) none

/-- CAP_ADJUST (R409, R411). -/
def execCapAdjust (s : State) : Result :=
  let p := s.get L.PWR_IN.POWER
  let cap := s.get L.PWR_CAP.CAP
  let hot : Bool := s.get L.PWR_CAP_STAT.THERMAL = 1
  if hot ∨ 10 * cap < p then
    let s := match s.slowNext hot with
      | some d => s.setCapStep d (s.capStep d + 1)
      | none => (s.put L.PWR_CAP_STAT.UNMET 1).pwrEvent L.PWR_EVT.CAP_UNMET
    .next (s.setPwr { s.pwr with below := 0 })
  else
    let s := s.put L.PWR_CAP_STAT.UNMET 0
    if p < 10 * (cap - 10) then
      if 10 ≤ s.pwr.below + 1 then
        let s := match s.raiseNext with
          | some d => s.setCapStep d (s.capStep d - 1)
          | none => s
        .next (s.setPwr { s.pwr with below := 0 })
      else .next (s.setPwr { s.pwr with below := s.pwr.below + 1 })
    else .next (s.setPwr { s.pwr with below := 0 })

/-! ### Thermal limits (R410, R411) -/

/-- The thresholds of a grade in 1/16 °C: minimum, WARN, HOT, TRIP (Table 16.9). -/
def thermLimits (grade : Nat) : Int × Int × Int × Int :=
  if grade = 2 then (-20 * 16, 95 * 16, 105 * 16, 110 * 16) else (-40 * 16, 115 * 16, 125 * 16, 130 * 16)

/-- The highest reading and the lowest sensor that shows it. -/
def hottest : List Int → Nat → Int × Nat → Int × Nat
  | [], _, b => b
  | t :: r, i, b => hottest r (i + 1) (if b.1 < t then (t, i) else b)

/-- TRIP (R411): FAULT_N is asserted, every transmitter is idle, and every domain but HUB is off. -/
def State.trip (s : State) : State :=
  let s := { s with faultN := true, txIdle := true }
  let s := s.forAll ((List.range 34).filter (fun n => n != 24)) (fun s n => s.put (L.PWR_DOM.STATE n) domOff)
  s.setPwr { s.pwr with phase := .tripped, rst := none }

/-- THERMAL_READ (R410, R411). -/
def execThermalRead (temps : List Int) (s : State) : Result :=
  match temps.take 56 with
  | [] => .next s
  | t0 :: r =>
    let h := hottest r 1 (t0, 0)
    let t := h.1
    let l := thermLimits (s.get L.PWR_THERM.GRADE)
    let was := s.get L.PWR_THERM.STATE
    let wasLow : Bool := s.get L.PWR_EVT.TJ_LOW = 1
    let st := if l.2.2.1 ≤ t then 2 else if l.2.1 ≤ t then 1 else 0
    let s := ((s.put L.PWR_THERM.TJ (toSigned 16 (clampSigned 16 t))).put L.PWR_THERM.SENSOR h.2).put L.PWR_THERM.STATE st
    let s := if 1 ≤ st ∧ (was = 0 ∨ s.get L.PWR_EVT.THERM_WARN = 0) then s.pwrEvent L.PWR_EVT.THERM_WARN else s
    let s := if st = 2 ∧ (was < 2 ∨ s.get L.PWR_EVT.THERM_HOT = 0) then s.pwrEvent L.PWR_EVT.THERM_HOT else s
    let s := if l.2.1 ≤ t then s.setPwr { s.pwr with thermN := true }
      else if t ≤ l.2.1 - 48 then s.setPwr { s.pwr with thermN := false } else s
    let s := if l.2.2.1 ≤ t then s.put L.PWR_CAP_STAT.THERMAL 1
      else if t ≤ l.2.2.1 - 80 then s.put L.PWR_CAP_STAT.THERMAL 0 else s
    let s := if t < l.1 ∧ wasLow = false then s.pwrEvent L.PWR_EVT.TJ_LOW else s
    if l.2.2.2 ≤ t then .next s.trip else .next s

/-! ### Reference clocks (R407) -/

/-- REFCLK_LOSS (R407): every PLL holds its frequency and the package runs on. -/
def execRefclkLoss (s : State) : Result :=
  if s.get L.CLK_REF.REF_OK = 1 then .next ((s.put L.CLK_REF.REF_OK 0).clkEvent L.CLK_EVT.REF_LOSS) else .next s

/-- PCI_REFCLK_LOSS (R407): the PCIe links go down. -/
def execPciRefclkLoss (s : State) : Result :=
  if s.get L.CLK_REF.PCI_REF_OK = 1 then
    .next ((((s.put L.CLK_REF.PCI_REF_OK 0).clkEvent L.CLK_EVT.PCI_REF_LOSS).pciAllDown 0).pciAllDown 1)
  else .next s

/-- REFCLK_RETURN (R407). -/
def execRefclkReturn (pci : Bool) (s : State) : Result :=
  if pci then .next (s.put L.CLK_REF.PCI_REF_OK 1)
  else if s.pwr.phase = .on then .next (s.put L.CLK_REF.REF_OK 1)
  else .next s

/-- PLL_UNLOCK (R407). -/
def execPllUnlock (dom : Fin 22) (s : State) : Result :=
  if s.get (L.CLK_DOM.LOCK dom) = 1 then .next ((s.put (L.CLK_DOM.LOCK dom) 0).clkEvent L.CLK_EVT.UNLOCK) else .next s

/-- VIN_LOW (R398). -/
def execVinLow (s : State) : Result := .next (s.pwrEvent L.PWR_EVT.VIN_LOW)

/-- A write of a PWR_ register with a rule of its own (R412); the reset registers are in `writeRst`. -/
def State.writePwr (s : State) (r : Reg) (c : Issuer) (v : Nat) : Option State :=
  match r with
  | .PWR_CAP =>
    let cap := bits v 8 0
    let s := s.setPwr { s.pwr with capAt := some s.up }
    some ((s.put L.PWR_CAP.KEEP (bits v 27 16)).put L.PWR_CAP.CAP (if cap < 150 then 150 else if 400 < cap then 400 else cap))
  | .PWR_CMD => some (s.writePwrCmd c v)
  | .PWR_RES => some (s.writePwrRes c v)
  | _ => none

end Sys2Proof.Machine
end

