-- ==== Sys2Proof/Machine/CairnWin.lean ====
section
/-! DEFINITION. Reads of registers: their access rules (19.2 and the rule of each block), what a read computes, and the
capture window (Tables 18.9 to 18.11). -/

namespace Sys2Proof.Machine

/-! ### Blocks -/

/-- The log of a block instance (Table 18.4). -/
def blockLog (b : Block) (i : Nat) : Nat :=
  match b with
  | .bTB => 0
  | .bCSQ => 1 + i
  | .bHA => 33 + i
  | .bMC => 65 + i
  | .bXE => 129 + i
  | .bDL => 193 + i
  | .bWLDD => 241 + i
  | .bCSR => 241 + i / 18
  | .bNOC | .bNODE => 253
  | .bQE | .bVI => 254 + i
  | .bVIT => 254 + i / 32
  | .bCE => 262 + i
  | .bCECTX => 262 + i / 16
  | .bKS => 266
  | .bWLDH => 267
  | .bFAB => 268
  | .bFABP => 269 + i
  | .bPCI => 277 + i
  | .bETH => 279
  | .bMGT => 280
  | .bPWR => 281
  | .bCLK => 282
  | .bCRN => 283
  | .bPMC => 284
  | .bERR => 285

/-- Registers that each world has for itself, selected by the tag of the access (R40, R242, R265, R328, R341, R404). -/
def banked : Reg → Bool
  | .TB_LATCH_FRAME | .TB_LATCH_AUX | .XE_KEYLOAD | .XE_KEYRES | .VI_ADMIN_CMD | .VI_ADMIN_RES | .WLD_OWN_REQ
  | .WLD_OWN_RES | .WLD_IOMMU_INV | .WLD_IOMMU_INVRES | .WLD_IOMMU_FLT | .WLD_IOMMU_FLTCNT | .KS_CMD | .KS_ARG0
  | .KS_ARG1 | .KS_ARG2 | .KS_RES | .PWR_CMD | .PWR_RES => true
  | _ => false

/-- Where a world finds the register at a key. -/
def bankKey (r : Reg) (sealed : Bool) (k : Nat) : Nat := if banked r then k + openBank sealed else k

/-- An index of a family. -/
abbrev RegInst.ix (r : RegInst) (k : Nat) : Nat := r.idx.getD k 0

/-! ### Who may read (R452) -/

/-- The resources that a register belongs to (R30, R329). -/
def regRes (b : Block) (i : Nat) (r : Option RegInst) : List Res :=
  let n := ((r.map (fun x => x.idx)).getD []).getD 0 0
  let reg : Option Reg := r.map (fun x => x.spec.reg)
  match b, reg with
  | .bCSQ, _ => [.csq i]
  | .bQE, some .QE_Q_CFG | .bQE, some .QE_Q_SPILL | .bQE, some .QE_Q_SB | .bQE, some .QE_Q_STAT => [.queue (512 * i + n)]
  | .bQE, some .QE_CH_CFG | .bQE, some .QE_CH_SQ | .bQE, some .QE_CH_CQ | .bQE, some .QE_CH_MSI | .bQE, some .QE_CH_IDX
  | .bQE, some .QE_CH_DB => [.ch (16 * i + n), .qe i]
  | .bQE, _ => [.qe i]
  | .bCECTX, _ => [.ce i]
  | .bPCI, some .PCI_FN_CFG | .bPCI, some .PCI_FN_OB | .bPCI, some .PCI_FN_BAR => [.pci (8 * i + n)]
  | .bETH, some .ETH_FN_CFG => [.eth n]
  | .bCLK, some .CLK_DOM => [.clk n]
  | .bCRN, _ => [.cairn]
  | _, _ => []

/-- A register of a resource that refuses new work answers with an error response, cause WORLD (R267, R329). -/
def State.regHeld (s : State) (b : Block) (i : Nat) (r : Option RegInst) : Bool := (regRes b i r).any s.isReleasing

/-- The cause with which a read of a block is refused, 0 if it is allowed. -/
def State.readCause (s : State) (b : Block) (i : Nat) (r : Option RegInst) (c : Issuer) : Nat :=
  let reg : Option Reg := r.map (fun x => x.spec.reg)
  let ix := (r.map (fun x => x.idx)).getD []
  if s.regHeld b i r then Cause.WORLD
  else match b with
  | .bCSQ => if reg = some .CSQ_OWN ∨ s.resAccess (.csq i) c then 0 else Cause.WORLD
  | .bVIT => if s.viState i = viFree ∨ c.sealed ≠ s.viSealed i then Cause.WORLD else 0
  | .bCECTX => if s.ceOff (i / 16) then Cause.NOT_READY else if c.sealed = s.ownerSealed (.ce i) then 0 else Cause.WORLD
  | .bERR | .bMGT => if c.sealed then 0 else Cause.WORLD
  | .bCRN =>
    if s.managerAccess .cairn c then
      (if reg = some .CRN_WIN ∧ c.sealed = false ∧ 96 ≤ s.get L.CRN_WIN_SEL.PAGE ∧ s.get L.CRN_WIN_SEL.PAGE < 128 then Cause.WORLD
       else 0)
    else if reg = some .CRN_STATUS ∧ c.sealed ≠ s.ownerSealed .cairn then 0
    else Cause.WORLD
  | .bPMC =>
    match reg with
    | some .PMC_SEL | some .PMC_CNT | some .PMC_FRAME_VAL | some .PMC_FRAME_NUM =>
      if c.sealed = (s.get (L.PMC_SEL.WORLD (ix.getD 0 0)) == 1) then 0 else Cause.WORLD
    | some .PMC_UCNT | some .PMC_UFRM => if c.sealed = (ix.getD 0 0 == 0) then 0 else Cause.WORLD
    | _ => 0
  | _ => 0

/-! ### What a read returns -/

/-- Fields of type WO read 0 (Table 0.4). -/
def readMask (fs : List FieldSpec) (w : Word) : Word :=
  fs.foldl (fun w f => if f.ty = .wo then w &&& ~~~ fieldMask f.lo f.width else w) w

/-- The value of a register as a world reads it, but for the capture window. -/
def State.regCore (s : State) (k : Nat) (r : RegInst) (sealed : Bool) : Nat :=
  let reg := r.spec.reg
  let plain := (readMask r.spec.fields (s.rd (bankKey reg sealed k))).toNat
  match reg with
  | .TB_TIME | .TB_FRAME_NUM | .TB_LATCH_FRAME | .TB_LATCH_AUX => (s.readTb reg plain).getD plain
  | .MC_MAP => (s.rd (R.MC_MAP 0)).toNat
  | .MC_QOS_CNT =>
    let l := L.MC_QOS_CNT.PANIC_US r.inst
    (withField (s.rd k) l.lo l.width (min (2 ^ l.width - 1) (s.panicTime r.inst / 1000))).toNat
  | .XE_KEYLOAD | .XE_KEYRES | .XE_REGION => if r.inst = 0 then plain else 0
  | .VI_T_INFO | .VI_T_MBOX | .VI_T_M2T | .VI_T_T2M => (s.readViT reg r.inst).getD plain
  | .WLD_BELAY_STAT => (s.readBelay reg).getD plain
  | .KS_ATT_PUB => (readKs reg (r.ix 0)).getD plain
  | .PMC_OVF => (s.readPmc reg 0 sealed).getD plain
  | .PMC_UCNT | .PMC_UFRM => (s.readPmc reg (r.ix 1) (r.ix 0 == 0)).getD plain
  | _ => plain

/-! ### The contents of a capture (R437, R438) -/

/-- The state of the capture instant, as far as a capture holds it. -/
def State.capView (s : State) (c : Capture) : State :=
  { s with regs := c.regs, hregs := c.harts, hart := c.hst, files := c.files, gftag := c.gftag, belay := c.belay,
           up := c.at_, tb := { s.tb with ns := c.time, frac := c.frac * 2 ^ 26 } }

/-- Registers that a snapshot holds beside the error logs (Table 18.9). -/
def snapReg : Reg → Bool
  | .TB_STATUS | .TB_EVT | .TB_PORT_STAT | .CSQ_STATUS | .CSQ_EVT | .CSQ_SCHED_STAT | .HA_STATUS | .HA_SF_STAT | .HA_EVT
  | .DL_STATUS | .DL_EVT | .NOC_EVT | .NOC_RTR_STAT | .MC_STATUS | .MC_EVT | .XE_STATUS | .QE_STATUS | .QE_EVT | .QE_Q_STAT
  | .VI_DIRTY_STAT | .FAB_STATUS | .FAB_EVT | .FAB_P_STATUS | .FAB_P_EVT | .WLD_BELAY_STAT | .WLD_EVT | .KS_STATUS
  | .CE_STATUS | .CE_EVT | .CE_CTX_STAT | .PCI_STATUS | .PCI_EVT | .ETH_STATUS | .ETH_EVT | .MGT_STATUS | .PWR_CAP_STAT
  | .PWR_EVT | .CLK_EVT | .ERR_LOG_STAT | .ERR_LOG_ADDR | .ERR_LOG_FRAME | .ERR_LOG_INFO | .CRN_STATUS | .CRN_EVT => true
  | _ => false

/-- Offsets of the members of a family. -/
def familyOffsets : List (Nat × Nat) → List Nat
  | [] => [0]
  | (st, n) :: t => (List.range n).flatMap (fun i => (familyOffsets t).map (fun o => st * i + o))

/-- Keys of the snapshot registers of a slot of register space; of the error logs only those in use. -/
def slotSnap (t : Nat) : List Nat :=
  match slotBlock t with
  | none => []
  | some (b, _) =>
    let page : Nat := match b with | .bCECTX | .bVIT => 16 | _ => 1
    (List.range page).flatMap (fun p =>
      ((blockRegs b).filter (fun r => snapReg r.reg)).flatMap (fun r =>
        ((familyOffsets r.strides).filter (fun o => b != .bERR || o < 0x20 * 286)).map (fun o =>
          t * 0x10000 + p * 0x1000 + r.off + o)))

/-- Keys of all snapshot registers, in ascending order. -/
def snapKeys : List Nat := (List.range 0x264).flatMap (fun t => (slotSnap t).mergeSort (fun a b => decide (a ≤ b)))

/-- The pairs of a snapshot; one of the Open world holds only what it may read. -/
def State.snapPairs (s : State) (c : Capture) : List (Nat × Nat) :=
  let v := s.capView c
  let all := snapKeys.filterMap (fun k =>
    match keyBlock k, findReg k with
    | some (b, i, _), some r =>
      if c.sealed = false ∧ v.readCause b i (some r) ⟨false, none, 0, .device⟩ ≠ 0 then none
      else some (regAddr k, v.regCore k r c.sealed)
    | _, _ => none)
  all.take 0x2500

/-- The CSRs of a hart record (Table 18.11). -/
def capCsrs : List Nat :=
  [0x001, 0x002, 0x100, 0x104, 0x105, 0x106, 0x10A, 0x140, 0x141, 0x142, 0x143, 0x144, 0x150, 0x151, 0x15C, 0x180, 0x200,
   0x204, 0x205, 0x240, 0x241, 0x242, 0x243, 0x244, 0x250, 0x251, 0x25C, 0x280, 0x300, 0x301, 0x302, 0x303, 0x304, 0x305,
   0x306, 0x308, 0x309, 0x30A, 0x320, 0x323, 0x324, 0x325, 0x326, 0x327, 0x328, 0x329, 0x32A, 0x340, 0x341, 0x342, 0x343,
   0x344, 0x34A, 0x34B, 0x350, 0x351, 0x35C, 0x5C0, 0x5C1, 0x5C2, 0x5C3, 0x5C4, 0x5C5, 0x5C6] ++
  [0x600, 0x602, 0x603, 0x604, 0x605, 0x606, 0x607, 0x608, 0x609, 0x60A, 0x643, 0x644, 0x645, 0x646, 0x647, 0x64A, 0x680,
   0x7A0, 0x7A1, 0x7A2, 0x7A3, 0x7A4, 0x7C0, 0x7C1, 0x7C2, 0x7C3, 0x7C4, 0xB00, 0xB02, 0xB03, 0xB04, 0xB05, 0xB06, 0xB07,
   0xB08, 0xB09, 0xB0A, 0xC00, 0xC01, 0xC02, 0xC03, 0xC04, 0xC05, 0xC06, 0xC07, 0xC08, 0xC09, 0xC0A, 0xC22, 0xCC0, 0xDA0,
   0xDB0, 0xDC0, 0xDC1, 0xDC2, 0xE12, 0xEB0, 0xF11, 0xF12, 0xF13, 0xF14, 0xF15, 0xFB0, 0xFC0]

/-- The status of a hart record (Table 18.11, R438): 0 without CORE. -/
def State.recStatus (s : State) (c : Capture) (h : Nat) : Nat :=
  let v := s.capView c
  if c.profile.testBit 0 = false then 0
  else if { v with die := c.dies }.hartUnused h then 4
  else if c.sealed = false ∧ (v.clusterSealed (hartDie h) (hartCluster h) ∨ (v.hartSt h).mode = .m) then 3
  else if v.get (L.PWR_DOM.STATE (2 * hartDie h)) = 0 then 2
  else if v.get (L.SKCRNCFG.INCLUDE h) = 0 then 5
  else 1

/-- CSRs of a record: one of the Open world omits those of machine mode. -/
def recCsrs (c : Capture) : List Nat := if c.sealed then capCsrs else capCsrs.filter (fun n => n / 0x100 % 4 != 3)

/-- Word `w` of the record of hart `h`. -/
def State.recWord (s : State) (c : Capture) (h w : Nat) : Nat :=
  let st := s.recStatus c h
  let v := s.capView c
  let x := v.hartSt h
  let reg (n : Nat) : Nat := (v.hreg h n).toNat
  if w = 0 then
    if st = 1 then
      st + ((modeNum x.mode) <<< 8) + (if x.run = .wfi ∨ x.run = .nap then 1 <<< 11 else 0) +
        (if v.clusterSwitching (hartDie h) (hartCluster h) then 1 <<< 12 else 0) + (if c.incomplete.contains h then 1 <<< 13 else 0)
    else st
  else if st ≠ 1 then 0
  else if w = 1 then reg 0x20
  else if w < 33 then reg (w - 1)
  else if w < 65 then reg (0x40 + (w - 33))
  else if w = 65 then v.readCsr h 0x003
  else if w = 66 then v.readCsr h 0x5C7
  else if w = 67 then v.readCsr h 0xC21
  else if w = 68 then v.readCsr h 0xC20
  else if w = 69 then v.readCsr h 0x008
  else if w = 70 then v.readCsr h 0x00F
  else if w < 72 then 0
  else if w < 104 then (List.range 4).foldl (fun n k => n + ((recCsrs c).getD (4 * (w - 72) + k) 0) <<< (16 * k)) 0
  else if w < 128 then 0
  else if w < 384 then reg (0x100 + (w - 128))
  else
    match (recCsrs c)[w - 384]? with
    | some n => v.readCsr h n
    | none => 0

/-- Some record of the capture is masked (R438). -/
def State.recMasked (s : State) (c : Capture) : Bool :=
  !c.sealed && ((List.range 216).any (fun h => s.recStatus c h == 3) ||
    (c.profile.testBit 1 && (List.range 32).any (fun q => (s.capView c).ownerSealed (.csq q))))

/-- A word of the header (Table 18.10). -/
def State.headWord (s : State) (c : Capture) (w : Nat) : Nat :=
  let v := s.capView c
  let b (x : Bool) (n : Nat) : Nat := if x then 1 <<< n else 0
  if w = 0 then 0x43524E31 + (1 <<< 32) + ((c.profile % 256) <<< 40) + ((c.trigger % 2 ^ 16) <<< 48)
  else if w = 1 then v.get L.TB_SERIAL.SERIAL
  else if w = 2 then
    v.get L.FAB_ID.ID + ((v.get L.FAB_ID.ID_VALID) <<< 15) + b c.sealed 16 + b c.syncOk 24 + b c.fs 25 + b (s.recMasked c) 26
  else if w = 3 then c.frame
  else if w = 4 then c.time
  else if w = 5 then c.frac + ((c.offset % 2 ^ 32) <<< 32)
  else if w = 6 then
    (if c.profile.testBit 2 then (s.snapPairs c).length else 0) +
      (((List.range 216).filter (fun h => s.recStatus c h == 1)).length <<< 32)
  else if w = 7 then c.timeEnd
  else 0

/-- A word of the record of a sequencer (Table 18.9). -/
def State.seqWord (s : State) (c : Capture) (q w : Nat) : Nat :=
  let v := s.capView c
  if c.profile.testBit 1 = false ∨ (c.sealed = false ∧ v.ownerSealed (.csq q)) then 0
  else if w = 0 then (v.rd (R.CSQ_STATUS q)).toNat
  else if w = 1 then (v.rd (R.CSQ_FLAGS q)).toNat
  else if w = 2 then (v.rd (R.CSQ_TRACK q)).toNat
  else if w = 3 then (v.rd (R.CSQ_OVR_CNT q)).toNat
  else if w = 4 then (v.rd (R.CSQ_SCHED_STAT q)).toNat
  else if w = 5 then (v.rd (R.CSQ_OWN q)).toNat
  else if 16 ≤ w then v.creg q (w - 16)
  else 0

/-- Word `w` of a capture slot (Table 18.9); a slot that holds no written capture reads 0. -/
def State.slotWord (s : State) (k w : Nat) : Nat :=
  let c := SMap.get s.caps k
  if c.written = false then 0
  else if w < 0x20 then s.headWord c w
  else if w < 0x200 then 0
  else if w < 0x600 then s.seqWord c ((w - 0x200) / 0x20) ((w - 0x200) % 0x20)
  else if w < 0x5000 then
    if c.profile.testBit 2 then
      match (s.snapPairs c)[(w - 0x600) / 2]? with
      | some p => if w % 2 = 0 then p.1 else p.2
      | none => 0
    else 0
  else if w < 0x5000 + 0x200 * 216 then s.recWord c ((w - 0x5000) / 0x200) ((w - 0x5000) % 0x200)
  else 0

/-- Word `w` of the selected page: pages 32s to 32s + 31 hold slot s, pages 128 to 135 the trace ring (R436, R440). -/
def State.winWord (s : State) (w : Nat) : Nat :=
  let p := s.get L.CRN_WIN_SEL.PAGE
  if p < 128 then s.slotWord (p / 32) (p % 32 * 4096 + w) else (SMap.get s.trace ((p - 128) * 4096 + w)).toNat

end Sys2Proof.Machine
end

