-- ==== Sys2Proof/Machine/Noc.lean ====
section
/-! DEFINITION. Traffic of the hub mesh (09): packets and flits, epochs, router drain, and the NOC_ registers. -/

namespace Sys2Proof.Machine

/-! ### Packets (R208, R210, R224) -/

/-- Plane and channel of a message outside VC0 (R210, Table 7.2). -/
def meshChannel (op : MeshOp) (bulk : Bool) : Nat × Nat :=
  match op with
  | .ioRd | .ioWr => (0, 1)
  | .ioCmp => (0, 2)
  | .coh k =>
    match k with
    | .rdS | .rdX | .upg | .cmo | .snpS | .snpI | .snpC => (0, 1)
    | .ncRd => (0, if bulk then 3 else 1)
    | .wb | .ncWr => (1, 3)
    | .rspI | .rspK | .gntX | .fack | .wbAck | .wbStale | .cmp | .nak => (0, 2)
    | .rspId | .rspKd | .rspEvd | .dataS | .dataE => (1, 2)

/-- Flits of a message (R208). -/
def meshFlits : MeshOp → Nat
  | .coh .wb | .coh .rspEvd | .coh .ncWr => 2
  | _ => 1

/-- A request or IO access, which gets an error response where it has no route (R214). -/
def meshRequest : MeshOp → Bool
  | .ioRd | .ioWr => true
  | .coh k => [.rdS, .rdX, .upg, .wb, .cmo, .ncRd, .ncWr].contains k
  | .ioCmp => false

def meshSnoop : MeshOp → Bool
  | .coh .snpS | .coh .snpI | .coh .snpC => true
  | _ => false

/-- The port of an entry that a packet takes tokens from: its position in SRC. -/
def State.coverPort (s : State) (p : MeshPkt) (i : Nat) : Option Nat :=
  match memNodeOf p.dst with
  | none => none
  | some g =>
    if (s.get (L.NOC_RSV_PATH.DST i)).testBit g then
      let k := ((rsvPorts (s.get (L.NOC_RSV_PATH.SRC i))).getD []).findIdx (fun x => x == (p.src.val, p.sport.val))
      match (s.grantOf i).bind (fun g => g.buckets[k]?) with
      | some b => if 80 * meshFlits p.op ≤ s.bucketNow i b then some k else none
      | none => none
    else none

/-- The packet takes its tokens from the bucket of a source port. -/
def State.takeTokens (s : State) (i k n : Nat) : State :=
  match s.grantOf i with
  | none => s
  | some g =>
    let b := (g.buckets[k]?).getD (0, 0)
    s.setGrant i (some { g with buckets := g.buckets.set k (s.bucketNow i b - 80 * n, s.up) })

/-- A snoop of a promoted transaction that an active entry covers (R224). -/
def State.snoopCovered (s : State) (p : MeshPkt) : Bool :=
  s.mesh.grants.any (fun e => e.2.isSome && (onesBelow 12 p.dies).all (fun d => (s.get (L.NOC_RSV_PATH.SNP_SITES e.1)).testBit d) &&
    (match memNodeOf p.src with
     | some g => (s.get (L.NOC_RSV_PATH.DST e.1)).testBit g
     | none => false))

/-- An agent as the party to a transaction: a die, whichever of its links carries its traffic, or a port of a node. -/
def partyAt (n port : Nat) : Nat := match endpointAt n port with
  | some (.dl l) => 400 + l / 4
  | _ => 4 * n + port

abbrev senderOf (p : MeshPkt) : Nat := partyAt p.src p.sport
abbrev receiverOf (p : MeshPkt) : Nat := partyAt p.dst p.dport

/-- A message that gets an answer under its TXN: a request, a snoop, and a reply that a FACK closes. -/
def meshAnswered (op : MeshOp) : Bool :=
  meshRequest op || meshSnoop op || [MeshOp.coh .dataS, .coh .dataE, .coh .gntX].contains op

/-- A response or a reply. -/
def meshAnswer (op : MeshOp) : Bool := !meshRequest op && !meshSnoop op

/-- The transaction that a message waits for an answer under: who sent it, who answers, its TXN, and whether a FACK answers it
or a reply. -/
abbrev askKey (p : MeshPkt) : Nat × Nat × Nat × Bool :=
  (senderOf p, receiverOf p, p.msg.txn, [MeshOp.coh .dataS, .coh .dataE, .coh .gntX].contains p.op)

/-- The transaction that a message answers. -/
abbrev answerKey (p : MeshPkt) : Nat × Nat × Nat × Bool := (receiverOf p, senderOf p, p.msg.txn, p.op == .coh .fack)

/-- A packet travels on VC0: it counts, and its answers will (R210). -/
def State.onVc0 (s : State) (p : MeshPkt) : State :=
  let s := s.when (meshAnswered p.op = true) (fun s => s.setMesh { s.mesh with vc0Due := s.mesh.vc0Due ++ [askKey p] })
  (s.inc (L.NOC_NI_CNT.VC0 p.src)).pmc uNOC p.src 1 1 p.issuer.sealed p.issuer.vi

/-- The channel of a packet at injection, with the tokens and counts this takes (R210, R224): VC0 for an answer to a packet
that travelled on it, for a promoted snoop and for a reserved-class packet that a grant covers; any other reserved-class
packet goes on VC1, an answer or a writeback on the channel of its message. -/
def State.chooseVc (s : State) (p : MeshPkt) : State × Nat :=
  let due := answerKey p
  if meshAnswer p.op ∧ s.mesh.vc0Due.contains due then
    ((s.setMesh { s.mesh with vc0Due := s.mesh.vc0Due.erase due }).onVc0 p, 0)
  else if meshSnoop p.op ∧ p.promoted ∧ s.snoopCovered p then (s.onVc0 p, 0)
  else if p.msg.cls.val = 0 then
    match (List.range 256).findSome? (fun i => (s.coverPort p i).map (fun k => (i, k))) with
    | some (i, k) => ((s.takeTokens i k (meshFlits p.op)).onVc0 p, 0)
    | none =>
      if meshAnswer p.op ∨ p.op = .coh .wb then (s, (meshChannel p.op p.bulk).2)
      else (((s.inc (L.NOC_NI_CNT.DEMOTED p.src)).nocEvent L.NOC_EVT.DEMOTED).pmc uNOC p.src 2 1 p.issuer.sealed p.issuer.vi, 1)
  else (s, (meshChannel p.op p.bulk).2)

/-! ### Buffers (R209, R220) -/

abbrev niKey (n plane vc : Nat) : Nat := (2 * n + plane) * 4 + vc
abbrev bufKey (n plane port vc : Nat) : Nat := ((2 * n + plane) * 5 + port) * 4 + vc
abbrev State.niQ (s : State) (k : Nat) : List MeshFlit := SMap.get s.mesh.ni k
abbrev State.bufQ (s : State) (k : Nat) : List MeshFlit := SMap.get s.mesh.buf k
def State.setNiQ (s : State) (k : Nat) (l : List MeshFlit) : State := s.setMesh { s.mesh with ni := SMap.set s.mesh.ni k l }
def State.setBufQ (s : State) (k : Nat) (l : List MeshFlit) : State := s.setMesh { s.mesh with buf := SMap.set s.mesh.buf k l }

/-- Flits that an input buffer holds. -/
def bufDepth (vc : Nat) : Nat := if vc = 0 then 4 else 8

/-- Drain has begun at a node (R220). -/
def State.draining (s : State) (n : Nat) : Bool :=
  s.get (L.NOC_RTR_CTRL.DRAIN n) = 1 && s.get (L.NOC_RTR_STAT.DRAIN_WAIT n) = 0

/-- The flits that an output sends before any other. -/
abbrev State.outFirst (s : State) (n plane output : Nat) : List (Nat × Nat × MeshFlit) :=
  SMap.get s.mesh.outQ (bufKey n plane output 0)
def State.setOutFirst (s : State) (n plane output : Nat) (l : List (Nat × Nat × MeshFlit)) : State :=
  s.setMesh { s.mesh with outQ := SMap.set s.mesh.outQ (bufKey n plane output 0) l }

/-- Flits of an input port and channel that hold a credit: those of its buffer and those that bypass it. -/
def State.portFlits (s : State) (n plane port vc : Nat) : Nat :=
  (s.bufQ (bufKey n plane port vc)).length +
    ((List.range 5).flatMap (fun o => (s.outFirst n plane o).filter (fun e => e.1 == vc && e.2.1 == port))).length

/-- An input buffer gives credit for the flit. -/
def State.hasCredit (s : State) (n plane port vc : Nat) (f : MeshFlit) : Bool :=
  decide (s.portFlits n plane port vc < bufDepth vc) && (!s.draining n || !f.first)

/-- The channel that an NI serves next (R209). -/
def State.niPick (s : State) (n plane : Nat) : Option (Nat × MeshFlit × List MeshFlit) :=
  (vcOrder (SMap.get s.mesh.starve (4000 + 2 * n + plane))).findSome? (fun vc =>
    match s.niQ (niKey n plane vc) with
    | [] => none
    | f :: t => if s.hasCredit n plane 4 vc f then some (vc, f, t) else none)

/-- Flits pass one at a time from an NI to the local port of its router while credit lasts. -/
def State.niPump (s : State) (n plane : Nat) : Nat → State
  | 0 => s
  | k + 1 =>
    match s.niPick n plane with
    | none => s
    | some (vc, f, t) =>
      let st := if vc = 3 ∨ s.niQ (niKey n plane 3) = [] then 0 else SMap.get s.mesh.starve (4000 + 2 * n + plane) + 1
      let s := (s.setNiQ (niKey n plane vc) t).setBufQ (bufKey n plane 4 vc) (s.bufQ (bufKey n plane 4 vc) ++ [f])
      (s.setMesh { s.mesh with starve := SMap.set s.mesh.starve (4000 + 2 * n + plane) st }).niPump n plane k

/-- Both planes of an NI: the local buffers of a plane hold at most 28 flits. -/
def State.niPumpAll (s : State) (n : Nat) : State := (s.niPump n 0 28).niPump n 1 28

/-! ### Flits (R207, R208) -/

abbrev MeshFlit.head (f : MeshFlit) : Nat := f.bits >>> 512
abbrev MeshFlit.route (f : MeshFlit) : Nat := Machine.bits f.head 35 0
abbrev MeshFlit.len (f : MeshFlit) : Nat := Machine.bits f.head 40 36
/-- The last flit of its packet: MORE is 0. -/
abbrev MeshFlit.last (f : MeshFlit) : Bool := !f.head.testBit 91

/-- A packet carries the CDP header but for data replies, a CMP with the line of an NC_RD among them, data responses and IO_CMP
(R208). -/
def meshHeaded (p : MeshPkt) : Bool :=
  !([MeshOp.coh .rspId, .coh .rspKd, .coh .dataS, .coh .dataE, .ioCmp].contains p.op) && !(p.op == .coh .cmp && p.msg.data)

/-- The header of a flit (Table 9.2). -/
def meshHead (p : MeshPkt) (vc epoch route len : Nat) (more hdr : Bool) : Nat :=
  route + len <<< 36 + p.dport.val <<< 41 + p.src.val <<< 43 + p.sport.val <<< 50 + vc <<< 52 + p.msg.cls.val <<< 54 +
    (cond p.msg.sealed 1 0) <<< 56 + p.msg.opcode <<< 57 + p.msg.txn <<< 65 + p.msg.tag <<< 81 + (cond p.msg.poison 1 0) <<< 89 +
    (cond (meshSnoop p.op) 1 0) <<< 90 + (cond more 1 0) <<< 91 + (cond hdr 1 0) <<< 92 + (epoch % 2) <<< 93

/-- The flits of a packet: its units four to a flit, header first (R208). -/
def flitsOf (id : Nat) (p : MeshPkt) (vc epoch len route : Nat) : List MeshFlit :=
  let hdr := meshHeaded p
  let units := if hdr then cdpUnits p.msg else p.msg.body
  let n := meshFlits p.op
  (List.range n).map (fun k =>
    ⟨id, k == 0, packUnits ((units.drop (4 * k)).take 4) + (meshHead p vc epoch route len (k + 1 < n) (hdr && k == 0)) <<< 512⟩)

/-- A flit one hop on: ROUTE shifted, LEN one less (R211). -/
def MeshFlit.hop (f : MeshFlit) : MeshFlit :=
  { f with bits := f.bits % 2 ^ 512 + (f.route / 4 + (f.len - 1) <<< 36 + (f.head >>> 41) <<< 41) <<< 512 }

/-- What the network interface of the requester keeps of a request (R208). -/
def State.noteRequest (s : State) (p : MeshPkt) : State :=
  if meshRequest p.op then
    let old := s.mesh.openReqs.filter (fun r => !(r.who == senderOf p && r.txn == p.msg.txn))
    s.setMesh { s.mesh with openReqs := old ++ [⟨senderOf p, p.msg.txn, p.msg.vi, p.msg.gen, p.msg.pa, p.msg.op⟩] }
  else s

/-- The record that a reply matches, by requester and TXN. -/
def State.openReq (s : State) (p : MeshPkt) : Option MeshOpen :=
  s.mesh.openReqs.find? (fun r => r.who == receiverOf p && r.txn == p.msg.txn)

/-- A reply that ends its request. -/
def meshReply (op : MeshOp) : Bool :=
  [MeshOp.coh .dataS, .coh .dataE, .coh .gntX, .coh .wbAck, .coh .wbStale, .coh .cmp, .coh .nak, .ioCmp].contains op

/-- A message as it arrives: without a CDP header it has the fields of the flit header alone, and the address, tags and IO size
of the request it answers (R208). -/
def State.arrivedMsg (s : State) (p : MeshPkt) : CdpMsg :=
  if meshHeaded p then p.msg
  else
    let r := s.openReq p
    { p.msg with
      flag := false, op := if p.op = .ioCmp then (r.map MeshOpen.op).getD 0 else 0, source := 0, vi := r.bind MeshOpen.vi, gen := (r.map MeshOpen.gen).getD 0
      pa := (r.map MeshOpen.pa).getD 0 }

/-- A packet enters its NI's queue with the route of the active bank. -/
def State.enqueue (s : State) (p : MeshPkt) (len route : Nat) : State :=
  let r := (s.noteRequest p).chooseVc p
  let s := r.1
  let k := niKey p.src (meshChannel p.op p.bulk).1 r.2
  let id := s.mesh.next
  let epoch := s.get L.NOC_EPOCH.EPOCH
  let s := s.setMesh { s.mesh with next := id + 1, flights := SMap.set s.mesh.flights id (some ⟨p, r.2, epoch⟩) }
  (s.setNiQ k (s.niQ k ++ flitsOf id p r.2 epoch len route)).niPumpAll p.src

/-- The NI holds a new packet (R219): its route differs between the banks, and a packet of an older epoch to that node
is still under way. -/
def State.mustHold (s : State) (p : MeshPkt) : Bool :=
  let m := 2 * (meshChannel p.op p.bulk).1
  s.rd (R.NOC_NI_RT p.src m p.dst) != s.rd (R.NOC_NI_RT p.src (m + 1) p.dst) &&
    s.mesh.flights.any (fun e => match e.2 with
      | some f => f.pkt.src == p.src && f.pkt.dst == p.dst && f.epoch != s.get L.NOC_EPOCH.EPOCH
      | none => false)

/-- A packet that the NI holds goes before a new one between the same nodes on the same plane. -/
def State.heldBefore (s : State) (p : MeshPkt) : Bool :=
  s.mesh.held.any (fun h => h.src == p.src && h.dst == p.dst && (meshChannel h.op h.bulk).1 == (meshChannel p.op p.bulk).1)

/-- A packet is not injected for want of a route (R214). -/
def State.noRoute (s : State) (p : MeshPkt) : State :=
  let s := (s.nocEvent L.NOC_EVT.NO_ROUTE).logRec nocLog Cause.ROUTE 0 p.msg.pa.toNat p.issuer 0
  if meshRequest p.op then s.answer .error else s

/-- A packet is injected, or held (R219), or refused for want of a route (R214). -/
def State.inject (s : State) (p : MeshPkt) : State :=
  match s.routeOf p.src (meshChannel p.op p.bulk).1 p.dst with
  | none => s.noRoute p
  | some (len, route) =>
    if s.heldBefore p ∨ s.mustHold p then s.setMesh { s.mesh with held := s.mesh.held ++ [p] } else s.enqueue p len route

/-- The node of a number. -/
def meshNode (n : Nat) : Fin 100 := ⟨n % 100, Nat.mod_lt n (by decide)⟩

/-- The copy of a snoop for a die, to the link that carries the line's slice (R202, R212). -/
def State.snoopCopy (s : State) (p : MeshPkt) (d : Nat) : MeshPkt :=
  let sl := sliceOf (p.msg.pa.toNat / 64)
  let at_ := linkPort ((s.carrier d sl).getD (4 * d + sl))
  { p with dies := ⟨2 ^ d % 4096, Nat.mod_lt _ (by decide)⟩, dst := meshNode at_.1, dport := two at_.2 }

/-- NI_INJECT (R210, R212, R214, R219, R224): a packet of an endpoint; a snoop as one copy per die, in ascending order. -/
def execNiInject (p : MeshPkt) (s : State) : Result :=
  let s := s.endGrants
  if endpointAt p.src p.sport = none then .next s
  else if meshSnoop p.op then .next (s.forAll (onesBelow 12 p.dies) (fun s d => s.inject (s.snoopCopy p d)))
  else .next (s.inject p)

/-- Held packets whose older packets have been ejected are injected, in order. -/
def State.releaseHeld (s : State) : State :=
  (s.setMesh { s.mesh with held := [] }).forAll s.mesh.held State.inject

/-! ### Hops (R209, R211, R217) -/

/-- The output that a flit wants: its next hop code, or the local port. -/
def flitOutput (f : MeshFlit) : Nat := if f.len = 0 then 4 else f.route % 4

/-- An output may send the head of an input buffer: it wants the output, the channel is not taken by another packet, and
the next buffer gives credit. -/
def State.canSend (s : State) (plane n output vc port : Nat) : Bool :=
  match s.bufQ (bufKey n plane port vc) with
  | [] => false
  | f :: _ =>
    let held := SMap.get s.mesh.lock (bufKey n plane output vc)
    flitOutput f == output && (held == 0 || held == port + 1) &&
      (if output = 4 then true
       else match stepNode n output with
         | none => false
         | some m => s.hasCredit m plane (output ^^^ 2) vc f)

/-- The input port that a channel of an output serves next, round robin. -/
def State.nextPort (s : State) (plane n output vc : Nat) : Option Nat :=
  let last := SMap.get s.mesh.served (bufKey n plane output vc)
  ((List.range 5).map (fun k => (last + 1 + k) % 5)).find? (s.canSend plane n output vc)

/-- The channel and input port that an output serves (R209). -/
def State.nextFlit (s : State) (plane n output : Nat) : Option (Nat × Nat) :=
  (vcOrder (SMap.get s.mesh.starve (bufKey n plane output 0))).findSome? (fun vc =>
    (s.nextPort plane n output vc).map (fun p => (vc, p)))

/-- The cycle of an output goes to a channel: VC3 waits one cycle longer if it has a flit to send (R209). -/
def State.tookCycle (s : State) (plane n output vc : Nat) : State :=
  let waits := (List.range 5).any (s.canSend plane n output 3)
  let k := bufKey n plane output 0
  s.setMesh { s.mesh with starve := SMap.set s.mesh.starve k (if vc = 3 ∨ waits = false then 0 else SMap.get s.mesh.starve k + 1) }

/-- The network interface passes a packet to its port (R208, R211): a reply under an old generation of its instance is
discarded (R274), and at a die link the message goes on to the die, on the link that carries its slice (R202). -/
def State.deliver (s : State) (x : MeshFlight) : State :=
  let p := x.pkt
  let m := s.arrivedMsg p
  let r := s.openReq p
  let old : Bool := match r.bind MeshOpen.vi with
    | some v => meshReply p.op && s.get (L.VI_STATE.GEN (v / 32) (v % 32)) != (r.map MeshOpen.gen).getD 0
    | none => false
  let s := s.when (meshReply p.op = true) (fun s =>
    s.setMesh { s.mesh with openReqs := s.mesh.openReqs.filter (fun r => !(r.who == receiverOf p && r.txn == p.msg.txn)) })
  if old then
    let v := (r.bind MeshOpen.vi).getD 0
    s.inc (L.VI_STATE.LATE (v / 32) (v % 32))
  else match endpointAt p.dst p.dport with
    | none => s
    | some (.dl n) =>
      (s.send (.mesh { p with msg := m } x.vc)).linkSend (n / 4) (sliceOf (m.pa.toNat / 64)) { m with vc := two x.vc }
    | some _ => s.send (.mesh { p with msg := m } x.vc)

/-- A flit leaves the mesh at its destination; with its last flit the packet is passed to its port. -/
def State.eject (s : State) (f : MeshFlit) : State :=
  if f.last then
    match SMap.get s.mesh.flights f.pkt with
    | none => s
    | some x => ((s.setMesh { s.mesh with flights := SMap.set s.mesh.flights f.pkt none }).deliver x).releaseHeld
  else s

/-- A flit that reaches a router in MODE 1 is bypassed (R216): its output is free, has credit, and no buffered flit waits for
it in that channel or a higher one. In the cycle that is VC3's turn nothing else passes (R209). -/
def State.bypasses (s : State) (plane n vc port : Nat) (f : MeshFlit) : Bool :=
  let o := flitOutput f
  let rank (v : Nat) : Nat := if v = 0 then 0 else if v = 2 then 1 else if v = 1 then 2 else 3
  let held := SMap.get s.mesh.lock (bufKey n plane o vc)
  let bulkTurn : Bool := decide (15 ≤ SMap.get s.mesh.starve (bufKey n plane o 0)) && (List.range 5).any (s.canSend plane n o 3)
  s.get (L.NOC_RTR_STAT.MODE n) = 1 && (held == 0 || held == port + 1) && s.outFirst n plane o == [] && (vc == 3 || !bulkTurn) &&
    (if o = 4 then true else match stepNode n o with
      | none => false
      | some m => s.hasCredit m plane (o ^^^ 2) vc f) &&
    (List.range 5).all (fun p => (List.range 4).all (fun v => decide (rank vc < rank v) ||
      (s.bufQ (bufKey n plane p v)).all (fun g => flitOutput g != o)))

/-- A flit arrives at a router: past the buffers to its output, or into its input buffer. -/
def State.arrive (s : State) (plane m vc port : Nat) (f : MeshFlit) : State :=
  if s.bypasses plane m vc port f then (s.pmc uNOC m 4 1 true none).setOutFirst m plane (flitOutput f) [(vc, port, f)]
  else s.setBufQ (bufKey m plane port vc) (s.bufQ (bufKey m plane port vc) ++ [f])

/-- A flit has left a router by an output: its channel of the output stays taken until the packet ends. -/
def State.leaves (s : State) (plane n output vc port : Nat) (f : MeshFlit) : State :=
  let lk := bufKey n plane output vc
  let s := s.setMesh { s.mesh with
    lock := SMap.set s.mesh.lock lk (if f.last then 0 else port + 1), served := SMap.set s.mesh.served lk port }
  if output = 4 then s.eject f
  else match stepNode n output with
    | none => s
    | some m => s.arrive plane m vc (output ^^^ 2) f.hop

/-- A flit crosses a link (R217): a single-bit error is corrected and counted; one that cannot be is counted as a retry, and the
flit is sent again before any other. -/
def State.cross (s : State) (plane n output vc port : Nat) (f : MeshFlit) (err : LinkError) : State :=
  let next := (stepNode n output).getD n
  match (if output = 4 then LinkError.none else err) with
  | .none => s.leaves plane n output vc port f
  | .single => (s.inc (L.NOC_RTR_CNT.CORR next)).leaves plane n output vc port f
  | .uncorrectable =>
    ((((s.setOutFirst n plane output [(vc, port, f)]).inc (L.NOC_RTR_CNT.RETRY next)).put L.NOC_EVT.NODE next).nocEvent
      L.NOC_EVT.RETRY).pmc uNOC next 3 1 true none

/-- MESH_FLIT_HOP (R209, R211, R216, R217): the output sends the flit that goes before any other, or the one it chooses from
the input buffers. -/
def execMeshFlitHop (plane : Fin 2) (node : Fin 100) (output : Fin 5) (err : LinkError) (s : State) : Result :=
  let s := s.endGrants
  match s.outFirst node plane output with
  | (vc, port, f) :: rest =>
    let s := s.tookCycle plane node output vc
    .next (((s.setOutFirst node plane output rest).cross plane node output vc port f err).niPumpAll node)
  | [] =>
    match s.nextFlit plane node output with
    | none => .next s
    | some (vc, port) =>
      match s.bufQ (bufKey node plane port vc) with
      | [] => .next s
      | f :: rest =>
        let s := s.tookCycle plane node output vc
        .next (((s.setBufQ (bufKey node plane port vc) rest).cross plane node output vc port f err).niPumpAll node)

/-! ### Epochs (R218, R219) -/

/-- Writes of NOC_ registers come from the Sealed world (R226). -/
def State.nocGuard (s : State) (c : Issuer) (key : Nat) (f : State → State) : State :=
  if c.sealed then f (s.answer .ok) else s.worldError nocLog (regAddr key) c

/-- A write of NOC_EPOCH: SWITCH sets PENDING; it is ignored while PENDING is 1. -/
def State.writeEpoch (s : State) (v : Nat) : State :=
  if v.testBit 2 ∧ s.get L.NOC_EPOCH.PENDING = 0 then
    (s.put L.NOC_EPOCH.PENDING 1).setMesh { s.mesh with await := some (if s.ticking then some s.nextTick else none) }
  else s

/-- EPOCH_SWITCH_REQUEST (R218). -/
def execEpochSwitchRequest (c : Issuer) (v : Word) (s : State) : Result :=
  .next (s.issue c (fun c s => s.nocGuard c R.NOC_EPOCH (fun s => s.writeEpoch v.toNat)))

/-- Every NI changes bank (R218): the activations before this instant stand, those of it are judged on the new bank. -/
def State.bankSwitch (s : State) : State :=
  let s := (s.judgeAsks (s.up - 1) s.mesh.asks.length).endGrantsAt s.tb.ns
  let s := s.setMesh { s.mesh with await := none }
  (s.put L.NOC_EPOCH.ACTIVE (1 - s.routeBank)).put L.NOC_EPOCH.EPOCH (s.get L.NOC_EPOCH.EPOCH + 1)

/-- The switch that awaits the tick at `t` takes place with it, before any launch of offset 0 (R218). -/
def State.nocTick (s : State) (t : Nat) : State :=
  match s.mesh.await with
  | some (some n) => if n ≤ t then s.bankSwitch else s
  | _ => s

/-- NOC_EPOCH_SWITCH (R218): at the tick awaited; without ticks, at once. -/
def execNocEpochSwitch (s : State) : Result :=
  match s.mesh.await with
  | none => .next s
  | some t => .next (match t with
      | some n => if s.ticking then s.elapseToNs n else s
      | none => s).bankSwitch

/-- EPOCH_HOLD_CLEAR (R219). -/
def execEpochHoldClear (s : State) : Result :=
  if s.get L.NOC_EPOCH.PENDING = 1 ∧ s.mesh.await = none ∧ s.mesh.held = [] then
    .next ((s.put L.NOC_EPOCH.PENDING 0).nocEvent L.NOC_EVT.EPOCH)
  else .next s

/-! ### Drain (R220) -/

/-- An active grant's link set uses the node. -/
def State.grantsUse (s : State) (n : Nat) : Bool := s.mesh.grants.any (fun e => e.2.isSome && s.entryUses e.1 n)

/-- Every buffer of the node is empty. -/
def State.buffersEmpty (s : State) (n : Nat) : Bool :=
  (List.range 40).all (fun k => (s.bufQ (40 * n + k)).isEmpty) &&
    [0, 1].all (fun plane => (List.range 5).all (fun o => (s.outFirst n plane o).isEmpty))

/-- A write of NOC_RTR_CTRL (R216, R220). -/
def State.writeRtrCtrl (s : State) (n : Nat) (c : Issuer) (v : Nat) : State :=
  let s := s.endGrants
  let m := bits v 1 1
  if m ≠ s.get (L.NOC_RTR_CTRL.MODE n) ∧ s.get (L.NOC_RTR_STAT.DRAINED n) = 0 then s.forbidden nocLog (R.NOC_RTR_CTRL n) c
  else
    let s := (s.put (L.NOC_RTR_CTRL.MODE n) m).put (L.NOC_RTR_STAT.MODE n) m
    let was := s.get (L.NOC_RTR_CTRL.DRAIN n)
    let s := s.put (L.NOC_RTR_CTRL.DRAIN n) v
    if v.testBit 0 then
      if was = 0 then s.put (L.NOC_RTR_STAT.DRAIN_WAIT n) (if s.grantsUse n then 1 else 0) else s
    else
      let s := (s.put (L.NOC_RTR_STAT.DRAIN_WAIT n) 0).put (L.NOC_RTR_STAT.DRAINED n) 0
      s.niPumpAll n

/-- DRAIN_REQUEST (R220). -/
def execDrainRequest (c : Issuer) (node : Fin 100) (v : Word) (s : State) : Result :=
  .next (s.issue c (fun c s => s.nocGuard c (R.NOC_RTR_CTRL node) (fun s => s.writeRtrCtrl node c v.toNat)))

/-- DRAIN_RELEASE (R220). -/
def execDrainRelease (c : Issuer) (node : Fin 100) (v : Word) (s : State) : Result :=
  .next (s.issue c (fun c s => s.nocGuard c (R.NOC_RTR_CTRL node) (fun s => s.writeRtrCtrl node c v.toNat)))

/-- DRAIN_BEGIN (R220). -/
def execDrainBegin (node : Fin 100) (s : State) : Result :=
  let s := s.endGrants
  if s.get (L.NOC_RTR_STAT.DRAIN_WAIT node) = 1 ∧ s.grantsUse node = false then
    .next (s.put (L.NOC_RTR_STAT.DRAIN_WAIT node) 0)
  else .next s

/-- DRAIN_COMPLETE (R220). -/
def execDrainComplete (node : Fin 100) (s : State) : Result :=
  if s.draining node ∧ s.buffersEmpty node ∧ s.get (L.NOC_RTR_STAT.DRAINED node) = 0 then
    .next (((s.put (L.NOC_RTR_STAT.DRAINED node) 1).put L.NOC_EVT.NODE node).nocEvent L.NOC_EVT.DRAINED)
  else .next s

/-! ### Register writes (R213, R221, R226) -/

/-- A write of a route-table entry (R213, R218). -/
def State.writeRoute (s : State) (n m dst : Nat) (c : Issuer) (v : Nat) : State :=
  let len := bits v 44 40
  let route := v % 2 ^ 36
  if m % 2 = s.routeBank ∨ (v.testBit 63 ∧ routeLegal n dst route len = false) then
    s.forbidden nocLog (R.NOC_NI_RT n m dst) c
  else
    ((s.put (L.NOC_NI_RT.VALID n m dst) (bits v 63 63)).put (L.NOC_NI_RT.LEN n m dst) len).put (L.NOC_NI_RT.ROUTE n m dst) route

/-- ROUTE_TABLE_WRITE (R213). -/
def execRouteTableWrite (c : Issuer) (node : Fin 100) (plane bank : Fin 2) (dst : Fin 100) (v : Word) (s : State) : Result :=
  let m := 2 * plane.val + bank.val
  .next (s.issue c (fun c s => s.nocGuard c (R.NOC_NI_RT node m dst) (fun s => s.writeRoute node m dst c v.toNat)))

/-- A write of NOC_RSV_PATH. -/
def State.writeRsvPath (s : State) (i : Nat) (c : Issuer) (v : Nat) : State :=
  let s := s.endGrants
  let burst := min 16 (max 1 (bits v 28 24))
  let s' := (s.put (L.NOC_RSV_PATH.SNP_SITES i) (bits v 59 48)).put (L.NOC_RSV_PATH.SNP_BW i) (bits v 45 40)
  let s' := (s'.put (L.NOC_RSV_PATH.BW i) (bits v 37 32)).put (L.NOC_RSV_PATH.BURST i) burst
  let s' := (s'.put (L.NOC_RSV_PATH.SRC i) (bits v 23 16)).put (L.NOC_RSV_PATH.DST i) (bits v 15 0)
  match s.grantOf i with
  | some g =>
    if s'.rd (R.NOC_RSV_PATH i) = s.rd (R.NOC_RSV_PATH i) ∧ v.testBit 63 = false then
      s.setGrant i (some { g with offEn := true })
    else s.forbidden nocLog (R.NOC_RSV_PATH i) c
  | none =>
    if v.testBit 63 ∧ (bits v 37 32 = 0 ∨ bits v 15 0 = 0 ∨ rsvPorts (bits v 23 16) = none) then
      s.forbidden nocLog (R.NOC_RSV_PATH i) c
    else (s'.put (L.NOC_RSV_PATH.EN i) (bits v 63 63))

/-- A write of NOC_RSV_OWN (R221). -/
def State.writeRsvOwn (s : State) (i : Nat) (c : Issuer) (v : Nat) : State :=
  let s := s.endGrants
  let s' := ((s.put (L.NOC_RSV_OWN.WORLD i) (bits v 9 9)).put (L.NOC_RSV_OWN.VI_VALID i) (bits v 8 8)).put (L.NOC_RSV_OWN.VI i) v
  if (s.grantOf i).isSome then
    (if s'.rd (R.NOC_RSV_OWN i) = s.rd (R.NOC_RSV_OWN i) then s else s.forbidden nocLog (R.NOC_RSV_OWN i) c)
  else s'

/-- A write of a NOC_ register with a rule of its own: `n` is the node or entry, `m` and `dst` index a route table. -/
def State.writeNoc (s : State) (r : Reg) (n m dst : Nat) (c : Issuer) (v : Nat) : Option State :=
  match r with
  | .NOC_EPOCH => some (s.writeEpoch v)
  | .NOC_RSV_CAP =>
    some (if v % 64 = 0 then s.forbidden nocLog R.NOC_RSV_CAP c else s.endGrants.put L.NOC_RSV_CAP.CAP (v % 64))
  | .NOC_RSV_PATH => some (s.writeRsvPath n c v)
  | .NOC_RSV_OWN => some (s.writeRsvOwn n c v)
  | .NOC_RTR_CTRL => some (s.writeRtrCtrl n c v)
  | .NOC_NI_RT => some (s.writeRoute n m dst c v)
  | _ => none

end Sys2Proof.Machine
end

