-- ==== Sys2Proof/Machine/Launch.lean ====
section
/-! DEFINITION. LAUNCH (R83, R84) and what each launch target does when it accepts one (04). -/

namespace Sys2Proof.Machine

/-! ### Targets (R102, R103) -/

/-- The resource that checks 2 and 3 of Table 3.7 look at, for a defined target code (Table 4.1); targets that check the
item themselves have none. -/
def targetRes (t : Nat) : Option (Option Res) :=
  if 0x01 ≤ t ∧ t ≤ 0x08 then some (some (.qe (t - 0x01)))
  else if 0x10 ≤ t ∧ t ≤ 0x17 then some (some (.fp (t - 0x10)))
  else if t = 0x20 then some (some (.eth 0))
  else if t = 0x21 then some (some (.pci 0))
  else if t = 0x22 then some (some (.pci 8))
  else if 0x30 ≤ t ∧ t ≤ 0x3F then some (some (.mg (t - 0x30)))
  else if 0x40 ≤ t ∧ t ≤ 0x4B then some none
  else if t = 0x50 then some (some .cairn)
  else if 0x60 ≤ t ∧ t ≤ 0x63 then some none
  else if t = 0x70 then some none
  else none

/-- The home sequencer of a target (Table 4.1, R103); CSQ0 is home to none. -/
def homeSequencer (t : Nat) : Option Nat :=
  if 0x01 ≤ t ∧ t ≤ 0x08 then some (12 + t)
  else if 0x10 ≤ t ∧ t ≤ 0x17 then some (t + 5)
  else if t = 0x20 then some 29
  else if t = 0x21 ∨ t = 0x22 then some 31
  else if 0x30 ≤ t ∧ t ≤ 0x3F then some 30
  else if 0x40 ≤ t ∧ t ≤ 0x4B then some (t - 0x3F)
  else if t = 0x50 ∨ (0x60 ≤ t ∧ t ≤ 0x63) ∨ t = 0x70 then some 31
  else none

/-- The sequencers whose launches of a target go before those of `q` in one nanosecond (R77): the home sequencer, then
those of lower number. -/
def launchesFirst (t q : Nat) : List Nat :=
  let home := homeSequencer t
  if home = some q then []
  else home.toList ++ (List.range q).filter (fun p => home != some p)

/-- The lowest code of the row of Table 4.1, which FMT must equal (R107). -/
def targetFmt (t : Nat) : Nat :=
  if t ≤ 0x08 then 0x01 else if t ≤ 0x17 then 0x10 else if t = 0x20 then 0x20 else if t ≤ 0x22 then 0x21
  else if t ≤ 0x3F then 0x30 else if t ≤ 0x4B then 0x40 else if t = 0x50 then 0x50 else if t ≤ 0x63 then 0x60 else 0x70

/-- The target defines OPT[8], ACK or URGENT (Table 4.4). -/
def targetOpt (t : Nat) : Bool := decide (0x10 ≤ t ∧ t ≤ 0x17) || decide (0x60 ≤ t ∧ t ≤ 0x63)

/-- Word 0 of a descriptor is good for a target (Tables 4.3 and 4.4). -/
def word0Good (t w : Nat) : Bool :=
  decide (bits w 7 0 = targetFmt t) && decide (bits w 30 16 = 0) && decide (bits w 15 9 = 0) &&
    (targetOpt t || decide (bits w 8 8 = 0)) &&
    (!w.testBit 31 || decide (1 ≤ bits w 63 40 ∧ bits w 63 40 ≤ 10000000))

/-- Words of a descriptor from `k` on that must be zero. -/
def wordsZero (d : List Nat) (k : Nat) : Bool := (d.drop k).all (fun w => w == 0)

/-! ### The checks of LAUNCH (Table 3.7) -/

/-- The words of descriptor `d` (R83). -/
def State.descWords (s : State) (q d : Nat) : List Nat :=
  (List.range 8).map (fun k => s.get (L.CSQ_DMEM.WORD q (8 * d + k)))

/-- The words of descriptor `d` that hold an error of a kind (R98). -/
def State.descErr (s : State) (q d e : Nat) : List Nat :=
  ((List.range 8).map (fun k => R.CSQ_DMEM q (8 * d + k))).filter (fun k => SMap.get s.ecc k == e)

/-- The refusal reason of a launch, 0 if every check passes (Table 3.7). -/
def State.launchCheck (s : State) (q t d : Nat) (fs : Bool) : Nat :=
  match targetRes t with
  | none => 0x01
  | some r =>
    let own := match r with
      | some r => s.checkWorldVi q r
      | none => 0
    if own ≠ 0 then own
    else if fs ∧ s.syncForLaunch = false then 0x04
    else if s.budgetLeft q = 0 then 0x05
    else if s.get (L.CSQ_TRACK.BUSY q) = 2 ^ 32 - 1 then 0x06
    else if s.descErr q d 2 ≠ [] then 0x07
    else 0

/-- A launch handle (Table 3.6). -/
def launchHandle (target slot seq : Nat) : Nat := 2 ^ 63 + (target <<< 48) + (slot <<< 43) + (seq <<< 16)

/-! ### Units at acceptance (R104, R105, R108 to R115) -/

/-- Launches of a unit that have not yet started (R105). -/
def State.unitPending (s : State) (l : Launch) : Nat :=
  if 0x60 ≤ l.target ∧ l.target ≤ 0x63 then
    ((s.ceOf (l.target - 0x60)).cmds.filter (fun x => x.launch.isSome && !x.started)).length
  else (s.launches.filter (fun x => x.target == l.target && x.id != l.id && !x.started && x.status.isNone && x.judged == 0)).length

/-- The unit's power domain is off, gated as Table 16.7 says for a cipher engine, or it is not trained (R105, R110). -/
def State.unitOff (s : State) (t : Nat) : Bool :=
  if t = 0x21 ∨ t = 0x22 then s.get (L.PWR_DOM.STATE 33) != 1
  else if 0x30 ≤ t ∧ t ≤ 0x3F then s.groupOff (t - 0x30)
  else if 0x40 ≤ t ∧ t ≤ 0x4B then s.get (L.PWR_DOM.STATE (2 * (t - 0x40) + 1)) == 0
  else if 0x60 ≤ t ∧ t ≤ 0x63 then s.get (L.PWR_DOM.STATE (29 + (t - 0x60))) != 1
  else false

/-- An injector descriptor is good but for its destinations (Table 4.4). -/
def injectorGood (d : List Nat) : Bool :=
  let w := d.getD 1 0
  decide (bits w 63 56 = 0 ∧ bits w 47 43 = 0 ∧ bits w 31 18 = 0) && decide (bits w 49 48 ≠ 3 ∧ bits w 42 32 ≠ 0) &&
    wordsZero d 2

/-- A launch of a refresh group with good words (R110). -/
def State.mgLaunch (s : State) (g : Nat) (l : Launch) : State :=
  if s.groupOpen g then s.endLaunch l.id 0x05
  else (s.openWindow g (l.desc.getD 1 0) l.acceptAt).endLaunch l.id 0

/-- A Cairn launch (R114, R436): a launch whose frame holds at its acceptance captures at that instant; one that finds no
slot or a capture in progress completes with BUSY (R439). -/
def State.cairnLaunch (s : State) (l : Launch) : State :=
  let at_ := l.desc.getD 1 0
  let profile := l.desc.getD 2 0
  let p := s.elapse (l.acceptAt - s.up)
  if 16 ≤ profile ∨ wordsZero l.desc 3 = false then s.endLaunch l.id 0x01
  else if at_ ≠ noFrame ∧ at_ ≠ p.frame then s.endLaunch l.id 0x09
  else
    let r := s.captureOf p 1 profile l.fs
    if r.2 then r.1.updateLaunch l.id (fun l => { l with started := true }) else r.1.endLaunch l.id 0x05

/-- The words of a refresh-group launch are good (Table 4.4). -/
def State.mgGood (s : State) (l : Launch) : Bool :=
  let len := l.desc.getD 1 0
  decide (500 ≤ len ∧ len ≤ 100000 ∧ len ≤ s.period) && wordsZero l.desc 2

/-- The status that the unit's own judgement of a launch gives, apart from a full pending queue and OFF (R104, R106, R108). -/
def State.unitStatus (s : State) (l : Launch) : Nat :=
  let t := l.target
  if t ≤ 0x08 then s.qeLaunchStatus (t - 1) l
  else if t ≤ 0x17 then (s.fpLaunchStatus (t - 0x10) l).1
  else if t = 0x20 then s.gateLaunchStatus l
  else if t ≤ 0x22 then s.pciLaunchStatus (t - 0x21) l
  else if t ≤ 0x3F then (if s.mgGood l = false then 1 else if s.groupOpen (t - 0x30) then 5 else 0)
  else if t ≤ 0x4B then (if injectorGood l.desc then 0 else 1)
  else if t = 0x50 then (if 16 ≤ l.desc.getD 2 0 ∨ wordsZero l.desc 3 = false then 1 else 0)
  else if t ≤ 0x63 then (s.ceLaunchStatus (t - 0x60) l).1
  else s.pwrLaunchStatus l

/-- What the unit of a launch does with it once it takes it: the checks of its chapter, and the start of the operation where
the unit starts it at once. Queue engines and injectors start theirs by commands of their own. -/
def State.unitTake (s : State) (l : Launch) : State :=
  let t := l.target
  if t ≤ 0x08 then s.qeCounts (t - 1)
  else if t ≤ 0x17 then
    let r := s.fpLaunchStatus (t - 0x10) l
    if r.1 = 0 then s.fpStart (t - 0x10) l
    else (s.when (r.2 ≠ 0) (fun s => s.fabFailed (s.fpPacket l []) r.2)).endLaunch l.id r.1
  else if t = 0x20 then
    let st := s.gateLaunchStatus l
    if st = 0 then s.gateStage l else s.endLaunch l.id st
  else if t ≤ 0x22 then
    let st := s.pciLaunchStatus (t - 0x21) l
    if st = 0 then s.pciStart (t - 0x21) l else (s.pciLaunchLog (t - 0x21) st l).endLaunch l.id st
  else if t ≤ 0x3F then (if s.mgGood l then s.mgLaunch (t - 0x30) l else s.endLaunch l.id 0x01)
  else if t ≤ 0x4B then (if injectorGood l.desc then s else s.endLaunch l.id 0x01)
  else if t = 0x50 then s.cairnLaunch l
  else if t ≤ 0x63 then s.ceLaunch (t - 0x60) l
  else s.pwrLaunch l

/-- The operation of a launch that its unit starts as it takes it reads or writes memory: a fabric port's and a PCIe
controller's. -/
def unitReads (t : Nat) : Bool := decide (0x10 ≤ t ∧ t ≤ 0x17 ∨ 0x21 ≤ t ∧ t ≤ 0x22)

/-- The operation of an accepted launch starts; a queue engine ends one that it turned away, whose result record is an
access to memory (R255). -/
def State.unitStart (s : State) (l : Launch) : State :=
  if l.target ≤ 0x08 then s.qeReject (l.target - 1) l
  else if l.target ≤ 0x17 then s.fpStart (l.target - 0x10) l else s.pciStart (l.target - 0x21) l

/-- A launch with no fault starts, if no older launch of its unit is held (R105); where a line that the operation reads must
wait at its home (R173), the launch stays accepted and pending, and its request stands at the home. -/
def State.unitBegin (s : State) (l : Launch) : State :=
  let hold := s.updateLaunch l.id (fun l => { l with held := true })
  if s.launches.any (fun x => x.target == l.target && x.held && decide (x.id < l.id)) then hold
  else
    let t := (s.updateLaunch l.id (fun l => { l with held := false })).unitStart l
    match t.devAsked with
    | none => t
    | some (k, m) => hold.devAsk k m

/-- The unit accepts a launch (R105, R107): of the statuses that apply to it at acceptance, the lowest is reported (R106), so
a bad word, an item that the launch may not touch and an open window come before a full pending queue and an absent unit. -/
def State.unitAccepts (s : State) (l : Launch) : State :=
  let st := if word0Good l.target (l.desc.getD 0 0) = false then 1 else s.unitStatus l
  if st ≠ 0 ∧ st ≤ 0x05 ∧ l.target ≤ 0x08 then
    (s.updateLaunch l.id (fun l => { l with judged := st })).unitBegin { l with judged := st }
  else if word0Good l.target (l.desc.getD 0 0) = false then s.endLaunch l.id 0x01
  else if st ≠ 0 ∧ st ≤ 0x05 then s.unitTake l
  else if 16 ≤ s.unitPending l then s.endLaunch l.id 0x05
  else if s.unitOff l.target then s.endLaunch l.id 0x06
  else if st = 0 ∧ unitReads l.target then s.unitBegin l
  else s.unitTake l

/-- The VC0 grant of a launch with RSV_EN, unless it completed at acceptance with a status other than OK (R116). -/
def State.launchGrant (s : State) (l : Launch) : State :=
  let w := l.desc.getD 0 0
  let ended : Bool := match s.findLaunch l.id with
    | some x => x.judged != 0 || (match x.status with | some st => st != 0 | none => false)
    | none => true
  s.when (w.testBit 31 ∧ ended = false) (fun s => s.askGrant (bits w 39 32) (bits w 63 40) (l.acceptAt - s.up) l)

/-! ### LAUNCH (R76, R77, R83) -/

/-- An accepted launch: a slot, a handle, a count against the budget, and the unit's acceptance, one launch in a nanosecond
(R77, R83, R84). -/
def State.launchAccepted (s : State) (q t rd : Nat) (fs : Bool) (desc : List Nat) : State :=
  let k := (firstBelow 32 (fun k => !(s.get (L.CSQ_TRACK.BUSY q)).testBit k)).getD 0
  let c := s.csqOf q
  let seq := c.seqNext % 2 ^ 16
  let c := { c with seqNext := (c.seqNext + 1) % 2 ^ 16 }
  let i := s.csqIssuer q
  let at_ := max s.up (SMap.get s.unitAccept t)
  let l : Launch := {
    id := s.nextLaunch, target := t, csq := q, slot := k, seq := seq, sealed := i.sealed, vi := i.vi,
    gen := (i.vi.map (fun v => s.get (L.VI_STATE.GEN (v / 32) (v % 32)))).getD 0, fs := fs, desc := desc,
    rsvDenied := false, acceptAt := at_, started := false, held := false, judged := 0, status := none }
  let s := { s.setCsq q c with
    slots := SMap.set s.slots (32 * q + k) { seq := seq, target := t, status := 0, time := 0, offset := 0, frames := 0, after := 0 },
    launches := s.launches ++ [l], nextLaunch := s.nextLaunch + 1, unitAccept := SMap.set s.unitAccept t (at_ + 1),
    viUsed := (match i.vi with | some v => SMap.set s.viUsed v (SMap.get s.viUsed v + 1) | none => s.viUsed) }
  let s := (s.setBitOf (L.CSQ_TRACK.BUSY q) k).clearBitOf (L.CSQ_TRACK.DONE_OPEN q) k
  let s := (s.inc (L.CSQ_LAUNCH_CNT.ACCEPTED q)).csqCount q 1
  let s := (s.setCreg q rd (launchHandle t k seq)).setZ q true
  (s.unitAccepts l).launchGrant l

/-- The LAUNCH at the PC of a sequencer executes (R83): the checks of Table 3.7 in order; the handle goes to Cd. -/
def State.launchNow (s : State) (q : Nat) : State :=
  s.csqStep q 0x20 (fun s i =>
    let d := i.imm % 256
    let fs := i.imm.testBit 39
    let reason := s.launchCheck q i.tgt d fs
    s.csqEnd q 1 (fun s =>
      if reason ≠ 0 then (s.setCreg q i.rd ((i.tgt <<< 48) + reason)).csqRefused q reason i.tgt
      else
        let w := s.descWords q d
        let w := if i.imm.testBit 38 then w.set 1 (s.creg q i.rs) else w
        (s.forAll (s.descErr q d 1) (fun s k => s.csqEccCorr q (regAddr k))).launchAccepted q i.tgt i.rd fs w))

/-- A WAITT whose offset is reached hands over in this nanosecond (R75). -/
def State.waittDone (s : State) (q : Nat) : State :=
  match (s.csqOf q).wait with
  | .waitt v => s.when (s.csqState q = stWait ∧ v ≤ s.offset) (fun s => s.csqEnd q 0 (fun s => s.setZ q true))
  | _ => s

/-- The target that a sequencer launches in this nanosecond, if it does: its next instruction is due and is a LAUNCH that
executes. -/
def State.launchDue (s : State) (q : Nat) : Option Nat :=
  let s := s.waittDone q
  let i := csqFields (s.rd (R.CSQ_IMEM q (s.pcOf q)))
  if s.csqIdle q ∧ (s.csqOf q).readyAt ≤ s.up ∧ SMap.get s.ecc (R.CSQ_IMEM q (s.pcOf q)) ≠ 2 ∧ csqLegal q i ∧
      s.csqCond q i.cond ∧ i.op = 0x20 ∧ s.pcOf q ≠ 2047 then some i.tgt else none

/-- The launches of the same target that other sequencers execute in this nanosecond and that go before this one execute
first (R77). -/
def State.launchesBefore (s : State) (q : Nat) : State :=
  match s.launchDue q with
  | none => s
  | some t =>
    s.forAll (launchesFirst t q) (fun s p => s.when (s.launchDue p = some t) (fun s => (s.waittDone p).launchNow p))

/-- LAUNCH (R77, R83, R103). -/
def execLaunch (q : Fin 32) (s : State) : Result :=
  .next (if s.csqIdle q then ((s.elapseUntil (s.csqOf q).readyAt).launchesBefore q).launchNow q else s)

/-- The launches that their units hold start, in the order of acceptance, as far as memory answers them. -/
def State.unitsResume (s : State) : State :=
  s.forAll (s.launches.filter (fun l => l.held && l.status.isNone)) State.unitBegin

/-- LAUNCH_COMPLETION (R106, R274): the slot records status, time and frames and DONE is set. A completion issued
under an old generation of its instance is discarded and counted. A launch that its unit holds for a memory line tries to
start first. -/
def execLaunchCompletion (id : Nat) (s : State) : Result :=
  let s := ((s.findLaunch id).elim s (fun l => s.elapseUntil l.acceptAt)).endGrants
  let s := s.unitsResume
  match s.findLaunch id with
  | none => .next s
  | some l =>
    match l.status with
    | none => .next s
    | some st =>
      let s := { s with launches := s.launches.filter (fun x => x.id != id) }
      match l.vi with
      | some v =>
        if s.get (L.VI_STATE.GEN (v / 32) (v % 32)) = l.gen then .next (s.recordCompletion l st)
        else .next (s.inc (L.VI_STATE.LATE (v / 32) (v % 32)))
      | none => .next (s.recordCompletion l st)

end Sys2Proof.Machine
end

