-- ==== Sys2Proof/Machine/Tick.lean ====
section
/-! DEFINITION. The tick (02, R41 to R46, R53): what the block does at a grid instant, and what it does when ticks end. -/

namespace Sys2Proof.Machine

/-- TICKING falls (R42): the sequencers and schedule records lose their tick (R95, R119), the fabric is quarantined (R303)
and the count of forced refreshes starts anew (R233). -/
def State.noTicks (s : State) : State :=
  if s.ticking then
    s.ticksFall.ballsFall.fabNoTime.forAll (List.range 64) (fun s m => s.put (L.MC_REF_CNT.FORCED_CUR m) 0)
  else s

/-- A tick that comes next may be launched (R42): ticks run, or the servo has reached LOCK, and TICK_EN is 1. -/
def State.tickMay (s : State) : Bool :=
  s.get L.TB_CTRL.TICK_EN = 1 && s.get L.PWR_RST_HOLD.TB = 0 &&
    (s.get L.TB_STATUS.TICKING = 1 || s.servo == servoLock || s.servo == servoHoldover)

/-- The instant at which the frame of the armed switch opens on the grid in force. -/
def State.switchAt (s : State) : Nat := s.origin + (s.get L.TB_SWITCH_FRAME.FRAME - s.base) * s.period

/-- The next tick opens an armed switch frame (R44). -/
def State.switchNext (s : State) : Bool :=
  s.get L.TB_SWITCH.ARM = 1 && s.frameAt s.nextTick == s.get L.TB_SWITCH_FRAME.FRAME

/-- The grid of an armed switch comes into force at the tick instant `t` (R44). -/
def State.switchGrid (s : State) (t : Nat) : State :=
  let s := (s.put L.TB_FRAME_ORIGIN.ORIGIN t).put L.TB_FRAME_BASE.BASE (s.get L.TB_SWITCH_FRAME.FRAME)
  let s := s.setTb { s.tb with swDone := some (s.get L.TB_SWITCH.NEXT_PERIOD, s.get L.TB_SWITCH_FRAME.FRAME) }
  (s.put L.TB_FRAME_CFG.PERIOD (s.get L.TB_SWITCH.NEXT_PERIOD)).dropAsk L.TB_SWITCH.ARM

/-- The grid of an armed switch whose frame opened while no ticks were launched is in force (R44). -/
def State.switchPassed (s : State) : State :=
  s.when (s.get L.TB_SWITCH.ARM = 1 ∧ ¬ s.ticking ∧ s.base ≤ s.get L.TB_SWITCH_FRAME.FRAME ∧ s.switchAt < s.nextTick)
    (fun s => s.switchGrid s.switchAt)

/-- A tick is launched at the instant `t` (R42, R54): everything that a new frame starts. -/
def State.openFrame (s : State) (t : Nat) (sw : Bool) : State :=
  let ran : Bool := s.get L.TB_STATUS.TICKING = 1
  let s := s.setTb { s.tb with lastTick := some t, switchTick := sw }
  let s := (s.put L.TB_STATUS.TICKING 1).nocTick t
  let s := if s.servo = servoLock then s.put L.TB_STATUS.SYNC_OK 1 else s
  let s := if ran then s.pmcTick ((s.frame + 2 ^ 64 - 1) % 2 ^ 64) else s
  let s := (s.endGrants.tickPulse.sendTimeWords).forAll (List.range 64) (fun s m => s.put (L.MC_REF_CNT.FORCED_CUR m) 0)
  let s := ((s.viTick).ethTick).fabTick
  s.slotsTick.forAll (List.range 32) (fun s q => s.csqTick sw q)

/-- TICK (R41, R42): the counter reaches a grid instant. -/
def execTick (s : State) : Result :=
  let s := s.switchPassed
  if s.tickMay = false ∨ s.tb.restepReq ∨ s.switchNext then .next s
  else
    let t := s.nextTick
    .next ((s.elapseToNs t).openFrame t false)

/-- PERIOD_SWITCH (R44): the tick that opens SWITCH_FRAME takes ORIGIN, BASE and PERIOD of the switch; while no ticks are
launched, its instant does. -/
def execPeriodSwitch (s : State) : Result :=
  if s.switchNext = false ∨ s.tb.restepReq then .next s
  else
    let t := s.nextTick
    if s.tickMay then .next (((s.elapseToNs t).switchGrid t).openFrame t true)
    else if s.ticking ∨ s.get L.PWR_RST_HOLD.TB = 1 then .next s
    else .next ((s.elapseToNs t).switchGrid t)

/-- The tick instant `t` is reached, and no tick is launched at it. -/
def State.passTick (s : State) (t : Nat) : State :=
  let s := s.elapseToNs t
  s.setTb { s.tb with lastTick := some t }

/-- A tick instant passes with no tick launched; it still brings an armed switch into force. -/
def State.skipTick (s : State) : State :=
  let t := s.nextTick
  let sw := s.switchNext
  (s.passTick t).when (sw = true) (fun s => s.switchGrid t)

/-- TICKS_STOP (R42). -/
def execTicksStop (s : State) : Result :=
  if s.ticking ∧ s.get L.TB_CTRL.TICK_EN = 0 ∧ s.tb.restepReq = false then .next s.skipTick.noTicks
  else .next s

/-- RESTEP (R53): at the next tick instant, which is not launched, the armed switch is withdrawn (R46); in LOCK or HOLDOVER the servo enters ACQUIRE, a follower from its
parent. -/
def execRestep (s : State) : Result :=
  if s.tb.restepReq ∧ s.get L.PWR_RST_HOLD.TB = 0 then
    let s := ((s.passTick s.nextTick).dropAsk L.TB_SWITCH.ARM).noTicks
    let s := (s.setTb { s.tb with restepReq := false, swDone := none }).put L.TB_STATUS.NEED_RESTEP 0
    if s.servo = servoLock ∨ s.servo = servoHoldover then
      if s.get L.TB_STATUS.IS_SUMMIT = 0 ∧ s.get L.TB_STATUS.PARENT_VALID = 1 then
        .next (s.acquireFrom (s.get L.TB_STATUS.PARENT_PORT))
      else .next s.toAcquire
    else .next s
  else .next s

end Sys2Proof.Machine
end

