-- ==== Sys2Proof/Machine/Reset.lean ====
section
/-! DEFINITION. Reset and start-up (17): the package reset and its triggers, the start-up sequence, die and cluster
resets, the hold of the time base; the end of a world switch (R321) and the expiry of Belay (R351). -/

namespace Sys2Proof.Machine

/-! ### Package resets (R400, R414 to R418) -/

/-- Bits of PWR_RST_CAUSE. -/
abbrev causePin : Nat := 2
abbrev causeSoft : Nat := 4
abbrev causeBelay : Nat := 8
abbrev causePowerFail : Nat := 16
abbrev causeOverV : Nat := 32
abbrev causeTrip : Nat := 64

/-- The MRAM as its read mapping shows it (R35). -/
def State.mramCells (s : State) : List Host.Cell := s.mem.filter (fun c => decide (mramBase ≤ c.1 ∧ c.1 < mramBase + 0x800000))

/-- Every block of the package in its reset state; the MRAM, what is printed in silicon and the course of the run stay. -/
def State.initBlocks (s : State) (phase : Phase) : State :=
  let t := { State.reset with
    mem := s.mramCells, up := s.up, free := s.free, resp := s.resp, out := s.out, pending := s.pending, nv := s.nv
    boots := s.boots, pwr := { Pwr.reset with phase := phase, resetLow := s.pwr.resetLow } }
  t.forAll (List.range 12) (fun t d => t.setDie d ⟨false, (s.dieSt d).failed, (s.dieSt d).otherMake, false, [], []⟩)

/-- A package reset with the bits of its triggers (Table 17.1, R417). -/
def State.packageReset (s : State) (cause : Nat) (phase : Phase) : State :=
  let t := s.initBlocks phase
  let t := t.wr R.PWR_RST_CAUSE (s.rd R.PWR_RST_CAUSE ||| BitVec.ofNat 64 cause)
  { t.wr R.WLD_BELAY_CAUSE (s.rd R.WLD_BELAY_CAUSE) with boots := s.boots + 1 }

def State.setPhase (s : State) (p : Phase) : State := s.setPwr { s.pwr with phase := p }

/-- The package is held in reset with PWR_OK low (R400). -/
def State.supplyHold (s : State) (phase : Phase) : State :=
  let s := s.packageReset 0 phase
  s.setPwr { s.pwr with pwrOk := false }

/-- POWER_FAIL (R400). -/
def execPowerFail (s : State) : Result :=
  if s.pwr.phase = .unpowered then .next s else .next ((s.elapse 2000).supplyHold .powerFail)

/-- OVER_VOLTAGE (R400). -/
def execOverVoltage (s : State) : Result :=
  if s.pwr.phase = .unpowered then .next s else .next ((s.elapse 10000).supplyHold .overVoltage)

/-- The hold after a power fail or an over-voltage ends: a package reset with its bit, and the start delay begins. -/
def State.holdEnds (s : State) (cause : Nat) : State :=
  let s := s.packageReset cause .delay
  s.setPwr { s.pwr with pwrOk := false }

/-- OVER_VOLTAGE_CLEAR (R400). -/
def execOverVoltageClear (s : State) : Result :=
  if s.pwr.phase = .overVoltage then .next (s.holdEnds causeOverV) else .next s

/-- The count of starts of the device. -/
def State.setBoots (s : State) (n : Nat) : State := { s with boots := n }

/-- VIN_RISE (R418 step 1, R400): a power-on reset, or the end of a power-fail hold; within the start delay and soft start
the delay begins again. -/
def execVinRise (s : State) : Result :=
  match s.pwr.phase with
  | .powerFail => .next (s.holdEnds causePowerFail)
  | .delay | .soft => .next (s.setPhase .delay)
  | _ =>
    let t := s.initBlocks .delay
    .next ((t.setPwr { t.pwr with pwrOk := false }).setBoots (s.boots + 1))

/-- START_DELAY_EXPIRE (R418 step 2). -/
def execStartDelayExpire (s : State) : Result :=
  if s.pwr.phase = .delay then .next ((s.elapse 10000000).setPhase .soft) else .next s

/-- SOFT_START_DONE (R418 step 3): the HUB rail is up and PWR_OK is released. -/
def execSoftStartDone (s : State) : Result :=
  if s.pwr.phase = .soft then
    let s := (s.elapse 5000000).setPhase .waitRef
    .next (s.setPwr { s.pwr with pwrOk := true })
  else .next s

/-- REFCLK_DETECT (R418 steps 4 and 5): the hub's PLLs lock, the fuses are read, the hub blocks leave reset and Newt core
0 is released. -/
def execRefclkDetect (grade : Fin 4) (serial : Word) (pci : Bool) (s : State) : Result :=
  if s.pwr.phase = .waitRef ∧ s.pwr.resetLow = false then
    let t := s.initBlocks .on
    let t := (t.wr R.PWR_RST_CAUSE (s.rd R.PWR_RST_CAUSE)).wr R.WLD_BELAY_CAUSE (s.rd R.WLD_BELAY_CAUSE)
    let t := (t.put L.CLK_REF.REF_OK 1).put L.CLK_REF.PCI_REF_OK (if pci then 1 else 0)
    let t := t.forAll [12, 13, 18, 20, 21] (fun t n => t.put (L.CLK_DOM.LOCK n) 1)
    let t := (t.put L.PWR_THERM.GRADE grade).wr R.TB_SERIAL serial
    .next ((t.put L.KS_BOOT.STAGE 1).setKs { t.ks with newt := 1 })
  else .next s

/-- RESET_N_ASSERT (R415, R416): recognised after 1 µs; one that meets a supply hold changes nothing until it ends. -/
def execResetNAssert (s : State) : Result :=
  if s.pwr.resetLow then .next s
  else
    let s := s.setPwr { s.pwr with resetLow := true }
    match s.pwr.phase with
    | .on | .waitRef => .next ((s.elapse 1000).packageReset causePin .pin)
    | .tripped => .next ((s.elapse 1000).packageReset causeTrip .pin)
    | _ => .next s

/-- RESET_N_RELEASE (R415): start-up resumes at step 4. -/
def execResetNRelease (s : State) : Result :=
  let s := s.setPwr { s.pwr with resetLow := false }
  if s.pwr.phase = .pin then .next (s.setPhase .waitRef) else .next s

/-- BELAY_EXPIRE (R351): GRACE ms in WARN; the cause and the frame number are kept, and the package is reset. -/
def execBelayExpire (s : State) : Result :=
  if s.belayStage = belayWarn ∧ s.belay.heldAt = none then
    let s := s.elapseUntil (s.belay.since + s.belaySpan)
    let s := (s.put L.WLD_BELAY_CAUSE.CAUSE (if s.belay.bad then 2 else 1)).put L.WLD_BELAY_CAUSE.FRAME s.frame
    .next ((s.evqEvent iommuLog 0).packageReset causeBelay .waitRef)
  else .next s

/-! ### Die and cluster resets (R421, R423 to R425) -/

/-- The result of a die or cluster reset. -/
def State.rstResult (s : State) (st : Nat) : State :=
  ((s.setPwr { s.pwr with rst := none }).put L.PWR_RST_RES.READY 1).put L.PWR_RST_RES.STATUS st

/-- A cluster reset that waits starts, unless its cluster switches worlds (R421). -/
def State.rstStart (s : State) : State :=
  match s.pwr.rst with
  | some (.cluster d c false) =>
    if s.clusterSwitching d c then s
    else (s.clusterHold d c).setPwr { s.pwr with rst := some (.cluster d c true) }
  | _ => s

/-- The status with which a die or cluster reset is refused, if it is; of several, the lowest (R421, R423). One that waits
behind an action of its domains is judged again when it starts. -/
def State.rstJudge (s : State) (kind d c : Nat) : Option Nat :=
  if kind = 0 then some 1
  else if 11 < d then some 1
  else if kind = 2 then
    if (s.pwrReqs (2 * d)).isEmpty ∧ (s.pwrReqs (2 * d + 1)).isEmpty ∧
        (s.domState (2 * d) ≠ domOn ∨ s.domState (2 * d + 1) ≠ domOn) then some 1
    else if s.ownerSealed (.pwr (2 * d)) = false ∨ s.ownerSealed (.pwr (2 * d + 1)) = false then some 2
    else none
  else
    if 8 < c ∨ s.domState (2 * d) ≠ domOn then some 1
    else if s.ownerSealed (.pwr (2 * d)) = false then some 2
    else none

/-- A write of PWR_RST_CMD (R416, R421, R423, R427). -/
def State.writeRstCmd (s : State) (c : Issuer) (v : Nat) : State :=
  let kind := bits v 9 8
  let d := bits v 7 4
  let cl := bits v 3 0
  if v.testBit 63 ∧ kind ≠ 1 ∧ s.pwr.rst.isSome then s.goEarly pwrLog R.PWR_RST_CMD c
  else
    let s := ((s.put L.PWR_RST_CMD.KIND kind).put L.PWR_RST_CMD.DIE d).put L.PWR_RST_CMD.CLUSTER cl
    if v.testBit 63 = false then s
    else if kind = 1 then (s.elapse 10000).packageReset causeSoft (if s.pwr.resetLow then .pin else .waitRef)
    else
      let s := (s.put L.PWR_RST_RES.READY 0).put L.PWR_RST_RES.STATUS 0xFF
      match s.rstJudge kind d cl with
      | some st => s.rstResult st
      | none =>
        if kind = 2 then
          let q : PwrReq := ⟨0, .dieReset, false, s.up⟩
          let s := (s.setPwrReqs (2 * d) (s.pwrReqs (2 * d) ++ [q])).setPwrReqs (2 * d + 1) (s.pwrReqs (2 * d + 1) ++ [q])
          (s.setPwr { s.pwr with rst := some (.die d 0) }).dieResetStart
        else (s.setPwr { s.pwr with rst := some (.cluster d cl false) }).rstStart

/-- Writes of the reset registers come from the Sealed world, with no VI number (R412, R427). -/
def State.pwrGuard (s : State) (c : Issuer) (key : Nat) (f : State → State) : State :=
  if c.sealed ∧ c.vi.isNone then f (s.answer .ok) else s.worldError pwrLog (regAddr key) c

/-- PACKAGE_RESET_CMD (R416). -/
def execPackageResetCmd (c : Issuer) (v : Word) (s : State) : Result :=
  .next (s.issue c (fun c s => s.pwrGuard c R.PWR_RST_CMD (fun s => s.writeRstCmd c v.toNat)))
/-- DIE_RESET_CMD (R423). -/
def execDieResetCmd (c : Issuer) (v : Word) (s : State) : Result :=
  .next (s.issue c (fun c s => s.pwrGuard c R.PWR_RST_CMD (fun s => s.writeRstCmd c v.toNat)))
/-- CLUSTER_RESET_CMD (R421). -/
def execClusterResetCmd (c : Issuer) (v : Word) (s : State) : Result :=
  .next (s.issue c (fun c s => s.pwrGuard c R.PWR_RST_CMD (fun s => s.writeRstCmd c v.toNat)))

/-- CLUSTER_RESET_DONE (R421): once the cluster's accesses are complete and its caches clean, both harts start. -/
def execClusterResetDone (s : State) : Result :=
  match s.pwr.rst with
  | some (.cluster d c true) =>
    let s := s.flushCluster d c
    if s.clusterClean d c then .next ((s.clusterStart d c).rstResult 0) else .next s
  | _ => .next s.rstStart

/-- Every cache of the die is empty and no transaction of it is open (steps 2 to 4 of R423). -/
def State.dieClean (s : State) (d : Nat) : Bool :=
  (List.range 9).all (fun c => s.clusterClean d c) && l3Caches.all (fun u => (s.swopLines d u).isEmpty) && !s.dieOpen d

/-- A release of an L3 way of the die under way is abandoned, since the way returns to the Sealed world (R331). -/
def State.dropWayReleases (s : State) (d : Nat) : State :=
  let mine (r : Res) : Bool := match r with | .l3 n => n / 64 == d | _ => false
  let s := { s with releasing := s.releasing.filter (fun r => !mine r) }
  s.forAll [true, false] (fun s w =>
    match s.ownReqOf w with
    | some q => if mine q.res then s.ownDone w 5 else s
    | none => s)

/-- The die's logic in its reset state (step 6 of R423): the registers of the die and of its harts, its caches, slices and
interrupt files. -/
def State.resetDieLogic (s : State) (d : Nat) : State :=
  let k := 0x10000 * (0x1C0 + d)
  let s := (s.dropWayReleases d).resetKeys k (k + 0x10000)
  let s := s.resetKeys (0x1000000000 + 0x1000 * (18 * d)) (0x1000000000 + 0x1000 * (18 * d + 18))
  let s := (s.forAll ((List.range 18).map (fun i => 18 * d + i)) State.resetHart).resetL3 d
  let s := s.forAll (List.range 9) (fun s c => s.resetClusterCaches d c)
  let s := s.setDie d { s.dieSt d with left := false, sent := [], reads := [] }
  { s with
    slices := s.slices.filter (fun p => !(decide (sliceKey d 0 ≤ p.1 ∧ p.1 < sliceKey (d + 1) 0)))
    ring := s.ring.filter (fun a => hartDie a.h != d)
    wbTag := s.wbTag.filter (fun p => p.1 / 4 != d) }

/-- DIE_RESET_DONE (R423, R424): first the end of step 6, once the die is clean (a die of another make gets 2 ms), then,
once no link of the die trains any more, the end of the reset. -/
def execDieResetDone (s : State) : Result :=
  match s.pwr.rst with
  | some (.die d 1) =>
    let other := (s.dieSt d).otherMake
    let s := if other then (if s.dieOpen d then s.elapse 2000000 else s) else (s.forAll (List.range 9) (fun s c => s.flushCluster d c)).flushL3 d
    if other = false ∧ s.dieClean d = false then .next s
    else
      let s := (s.filterSweep d).forAll (dieLinks d) State.linkTaken
      if s.stopped then .next (s.setPwr { s.pwr with rst := none })
      else
        let s := s.resetDieLogic d
        let s := s.forAll (dieLinks d) (fun s n =>
          (s.linkReset n).when (s.get (L.DL_CTRL.HOLD n) = 0) (fun s => s.trainLink n dlTrain))
        .next (s.setPwr { s.pwr with rst := some (.die d 2) })
  | some (.die d 2) =>
    if (dieLinks d).any (fun n => s.dlState n == dlTrain || s.dlState n == dlRetrainSt) then .next s
    else
      let s := s.forAll (List.range 9) (fun s c => s.clusterStart d c)
      let s := s.setDie d { s.dieSt d with resetting := false }
      let s := (s.setPwrReqs (2 * d) ((s.pwrReqs (2 * d)).drop 1)).setPwrReqs (2 * d + 1) ((s.pwrReqs (2 * d + 1)).drop 1)
      .next (s.rstResult 0)
  | _ => .next s.dieResetStart

/-- A write of PWR_RST_RES (R326, R427). -/
def State.writeRstRes (s : State) (v : Nat) : State :=
  if v.testBit 62 ∧ s.get L.PWR_RST_RES.READY = 1 then (s.put L.PWR_RST_RES.READY 0).put L.PWR_RST_RES.STATUS 0xFF else s

/-- RST_RES_ACK (R427). -/
def execRstResAck (c : Issuer) (v : Word) (s : State) : Result :=
  .next (s.issue c (fun c s => s.pwrGuard c R.PWR_RST_RES (fun s => s.writeRstRes v.toNat)))

/-! ### The time-base hold (R419) -/

/-- The time base in its reset: counter 0, servo FREE, no tick; TB_SERIAL is kept (Table 17.1). -/
def State.tbReset (s : State) : State :=
  let serial := s.rd R.TB_SERIAL
  let s := (s.noTicks.resetKeys 0 0x10000).resetKeys (openBank false) (openBank false + 0x10000)
  (s.wr R.TB_SERIAL serial).setTb default

/-- A write of PWR_RST_HOLD (R419): 1 holds the time base in reset, 0 releases it, and election starts. -/
def State.writeRstHold (s : State) (v : Nat) : State :=
  if v.testBit 0 then s.tbReset.put L.PWR_RST_HOLD.TB 1
  else if s.get L.PWR_RST_HOLD.TB = 1 then (s.put L.PWR_RST_HOLD.TB 0).adoptSelf
  else s

/-- TB_HOLD (R419). -/
def execTbHold (c : Issuer) (v : Word) (s : State) : Result :=
  .next (s.issue c (fun c s => s.pwrGuard c R.PWR_RST_HOLD (fun s => s.writeRstHold v.toNat)))
/-- TB_RELEASE (R419). -/
def execTbRelease (c : Issuer) (v : Word) (s : State) : Result :=
  .next (s.issue c (fun c s => s.pwrGuard c R.PWR_RST_HOLD (fun s => s.writeRstHold v.toNat)))

/-- A write of a reset register; writes of PWR_CORE_VEC are ignored (R427). -/
def State.writeRst (s : State) (r : Reg) (c : Issuer) (v : Nat) : Option State :=
  match r with
  | .PWR_RST_CMD => some (s.writeRstCmd c v)
  | .PWR_RST_RES => some (s.writeRstRes v)
  | .PWR_RST_HOLD => some (s.writeRstHold v)
  | .PWR_CORE_VEC => some s
  | _ => none

/-! ### The end of a world switch (R321) -/

/-- WORLD_SWITCH_DONE (R321): the cluster is clean, its files and sampling registers are cleared and WORLD takes the
target; a cluster reset that waited starts. -/
def execWorldSwitchDone (die : Fin 12) (cl : Fin 9) (s : State) : Result :=
  if s.clusterSwitching die cl then
    let s := s.flushCluster die cl
    if s.clusterClean die cl then .next (s.switchEnd die cl).rstStart else .next s
  else .next s

end Sys2Proof.Machine
end

