-- ==== Sys2Proof/Machine/RegRead.lean ====
section
/-! DEFINITION. Reads of any physical address (19): registers, interrupt pages, the windows, the MRAM mapping and the ROM;
IO_RD and IO_CMP. -/

namespace Sys2Proof.Machine

/-- A refused access is logged with its cause and answered with an error response. -/
def State.refuse (s : State) (n cause addr : Nat) (c : Issuer) : State := (s.logRec n cause 0 addr c 0).answer .error

/-- The access is one of the sizes and alignments of R12. -/
def sizeOk (a size : Nat) : Bool := (size == 4 || size == 8) && a % size == 0

/-- The 64-bit value of a register, and the state after the read: a read of TB_TIME latches (R40); a word of a sequencer's
memory with a single-bit error is corrected and noted (R98); a parity window that has passed restarts, and
grants asked for are judged; the input pins of MGT_GPIO are free values. -/
def State.regValue (s : State) (k : Nat) (r : RegInst) (c : Issuer) : State × Nat :=
  match r.spec.reg with
  | .CRN_WIN => (s, s.winWord (r.ix 0))
  | .TB_TIME => (s.tbTimeRead c, s.tb.ns)
  | .CSQ_IMEM | .CSQ_DMEM =>
    (s.when (SMap.get s.ecc k = 1) (fun s => s.csqEccCorr r.inst (regAddr k)), s.regCore k r c.sealed)
  | .DL_LANE_CNT => (s.laneWindow r.inst, (s.laneWindow r.inst).regCore k r c.sealed)
  | .NOC_RSV_OWN | .NOC_RSV_CNT | .NOC_RSV_DENY | .NOC_EVT | .CSQ_SCHED_STAT | .CSQ_SCHED_FRAME =>
    (s.endGrants, s.endGrants.regCore k r c.sealed)
  | .MGT_GPIO =>
    let dir := s.get L.MGT_LS_CFG.GPIO_OUT
    let out := s.get L.MGT_GPIO.OUT
    (s.useFree, (out <<< 16) + ((out &&& dir) ||| (Config.freeWord s.free % 2 ^ 16 &&& (2 ^ 16 - 1 - dir))))
  | _ => (s, s.regCore k r c.sealed)

/-- The part of a 64-bit value that an access of `size` bytes at `a` reads (R12). -/
def partOf (a size v : Nat) : Nat := v >>> (8 * (a % 8)) % 2 ^ (8 * size)

/-- A read of register space outside the interrupt pages (R12, R452, R453); the registers of a compute die are reached over its
links (R18). -/
def State.regRead (s : State) (c : Issuer) (a size : Nat) : State :=
  let k := a % 0x10000000000
  match keyBlock k with
  | none => s.violation 253 0x05 a c
  | some (b, i, _) =>
    let cause := s.readCause b i (findReg (k / 8 * 8)) c
    if b = .bWLDD ∧ s.dieIn i = false then s.refuse (blockLog b i) Cause.NOT_READY a c
    else if cause ≠ 0 then s.refuse (blockLog b i) cause a c
    else if sizeOk a size = false then s.violation (blockLog b i) 0x01 a c
    else
      match findReg (k / 8 * 8) with
      | none => s.answer (.data 0)
      | some r =>
        let x := s.regValue (k / 8 * 8) r c
        x.1.answer (.data (BitVec.ofNat 64 (partOf a size x.2)))

/-- The APLIC domain of an address (Table 19.3). -/
def aplicPage (a : Nat) : Option Nat :=
  if 0xF00000100000 ≤ a ∧ a < 0xF00000130000 then some (a % 0x100000 / 0x10000) else none

/-- An access to an APLIC domain: its world, and 32 bits. -/
def State.aplicGuard (s : State) (dom a size : Nat) (c : Issuer) (f : State → State) : State :=
  if c.sealed ≠ (dom != aplicOpen) then s.worldError 253 a c
  else if size ≠ 4 ∨ a % 4 ≠ 0 then s.violation 253 0x01 a c
  else f (s.answer .ok)

/-- A read of an interrupt page: the checks of a message write, the page of an unused hart first (R134); the page reads
0. -/
def State.filePageRead (s : State) (c : Issuer) (a size : Nat) : State :=
  let h := ((intPage a).map (fun p => p.1)).getD 0
  if s.hartUnused h then s.violation (dieLog (hartDie h)) 0x05 a c
  else if size ≠ 4 ∨ a % 4 ≠ 0 then s.violation (dieLog (hartDie h)) 0x01 a c
  else
    let t := s.msi c (a / 0x1000 * 0x1000) 0
    if t.resp = .ok then t.answer (.data 0) else t

/-- An access that no region takes (R450). -/
def State.routeError (s : State) (a : Nat) (c : Issuer) : State := s.refuse 253 Cause.ROUTE a c

/-- The MRAM read mapping: the key partition reads zero (R35). -/
def State.mramRead (s : State) (a size : Nat) : Nat :=
  let o := a - 0xF00100000000
  if 0x7A0000 ≤ o ∧ o < 0x7E0000 then 0 else s.readLE a size

/-- The die still reaches the hub: one of its links is ACTIVE (R19). -/
def State.dieLinked (s : State) (d : Nat) : Bool := (List.range 4).any (fun k => s.dlState (4 * d + k) == dlActive)

/-- The die that an access comes from, as its source identifier; 0xFF for an agent without one (Table 7.1). -/
def sourceId (c : Issuer) : Nat := match c.agent with
  | .hart h => hartDie h
  | _ => 0xFF

/-- An IO access to a die of another make leaves as IO_RD or IO_WR (R188, R194) with the tags of its issuer, its size and a
transaction identifier of its own; the bytes of a write stand in one unit. -/
def State.ioToDie (s : State) (d : Nat) (c : Issuer) (a size : Nat) (data : Option Nat) : State :=
  let m : CdpMsg := {
    opcode := if data.isSome then 0x31 else 0x30, sealed := c.sealed, cls := 1, vc := 1, data := false, poison := false
    flag := false, op := two (sizeCode size), source := sourceId c, tag := 0, txn := s.mesh.next % 65536, vi := c.vi
    gen := c.gen, pa := BitVec.ofNat 48 a, body := data.toList }
  if s.dieLinked d then ({ s with mesh := { s.mesh with next := s.mesh.next + 1 } }).linkSend d (sliceOf (a / 64)) m
  else s.answer .error

/-- A read of any address but HBM. -/
def State.busRead (s : State) (c : Issuer) (a size : Nat) : State :=
  let p : PAddr := BitVec.ofNat 48 a
  if 0xF00000000000 ≤ a ∧ a < 0xF00100000000 then
    match aplicPage a, intPage a with
    | some dom, _ => s.aplicGuard dom a size c (fun s => s.answer (.data (BitVec.ofNat 64 (s.readAplic dom (a % 0x10000)))))
    | none, some _ => s.filePageRead c a size
    | none, none => s.regRead c a size
  else if 0x10000000000 ≤ a ∧ a < 0x100C0000000 then
    let d := (a - 0x10000000000) / 0x10000000
    if (s.dieSt d).otherMake then s.ioToDie d c a size none else s.when (s.pitonReach c d = true) (fun s => s.pitonDo c p (.load size))
  else if 0x20000000000 ≤ a ∧ a < 0x30000000000 then s.windowDo c p (.load size)
  else if 0x400000000000 ≤ a ∧ a < 0x800000000000 then s.remoteDo c p (.load size) (s.reservedFor c a)
  else if 0xF00100000000 ≤ a ∧ a < 0xF00100800000 then s.answer (.data (BitVec.ofNat 64 (s.mramRead a size)))
  else if 0xFFFFFFF00000 ≤ a ∧ a < 2 ^ 48 then
    if c.sealed then
      s.answer (.data (BitVec.ofNat 64 (ofBytesLE ((List.range size).map (fun k => Config.romByte (a - 0xFFFFFFF00000 + k))))))
    else s.worldError 253 a c
  else s.routeError a c

/-! ### Newt cores (R458) -/

/-- The Newt address view, Table 19.4: first address, length and what it reaches. -/
abbrev newtMap : List (Nat × Nat × Nat) :=
  [(0, 0x100000, newtSram), (0x80000000, 0x40000000, 0xF00000000000), (0xC0000000, 0x800000, mramBase),
   (0xFFF00000, 0x100000, 0xFFFFFFF00000)]

/-- Where an access of a Newt core arrives; none for an access fault. -/
def newtView (a size : Nat) : Option Nat :=
  (newtMap.find? (fun r => decide (r.1 ≤ a ∧ a + size ≤ r.1 + r.2.1))).map (fun r => r.2.2 + (a - r.1))

/-- The tags of a Newt core: Sealed, with no instance (R29). -/
abbrev newtIssuer : Issuer := ⟨true, none, 0, .newt⟩

/-- A read by a Newt core. -/
def State.newtRead (s : State) (a size : Nat) : State :=
  match newtView a size with
  | none => s.answer .accessFault
  | some p => if newtSram ≤ p then s.answer (.data (BitVec.ofNat 64 (s.readLE p size))) else s.busRead newtIssuer p size

/-- IO_RD (R188): the read reaches its target and is answered; a read of a Newt core goes by its own view (R458). -/
def execIoRd (die : Fin 12) (c : Issuer) (addr : PAddr) (size : Nat) (s : State) : Result :=
  if c.agent = .newt then .next (s.newtRead addr.toNat size)
  else if s.dieLinked die ∧ s.agentIn c then
    .next (if s.pmpStops c addr.toNat size pmpR then s.answer .accessFault else s.busRead (s.tagged c) addr.toNat size)
  else .next s

/-- IO_CMP (R188, R428): status and data return to the requester. -/
def execIoCmp (die : Fin 12) (err : Bool) (value : Word) (s : State) : Result :=
  if s.dieLinked die then .next (s.answer (if err then .error else .data value)) else .next s

end Sys2Proof.Machine
end

