-- ==== Sys2Proof/Machine/RegWrite.lean ====
section
/-! DEFINITION. Writes of any physical address (R10, R12, 19): who may write a register, the effect by field type, the rules
of single registers; REGISTER_WRITE, IO_WR and JTAG_DEBUG_REQUEST. -/

namespace Sys2Proof.Machine

/-! ### Who may write (R452) -/

/-- WORLD unless the condition holds. -/
abbrev worldUnless (b : Bool) : Nat := if b then 0 else Cause.WORLD

/-- The cause with which a write of a register is refused, 0 if it is allowed; registers whose own rule judges the writer
pass here. -/
def State.writeCause (s : State) (b : Block) (i : Nat) (r : Option RegInst) (c : Issuer) : Nat :=
  let reg : Option Reg := r.map (fun x => x.spec.reg)
  let n := ((r.map (fun x => x.idx)).getD []).getD 0 0
  match b with
  | .bTB | .bHA | .bDL | .bNOC | .bNODE | .bMC | .bFAB | .bFABP | .bMGT | .bCE | .bERR => worldUnless c.sealed
  | .bCSQ => worldUnless (s.resAccess (.csq i) c)
  | .bXE =>
    match reg with
    | some .XE_KEYLOAD | some .XE_KEYRES => 0
    | _ => worldUnless c.sealed
  | .bWLDD =>
    match reg with
    | some .WLD_CL_WORLD | some .WLD_SW_CNT | none => worldUnless c.sealed
    | _ => 0
  | .bQE =>
    let q : Res := match reg with
      | some .QE_Q_CFG | some .QE_Q_SPILL | some .QE_Q_SB | some .QE_Q_STAT => .queue (512 * i + n)
      | _ => .qe i
    if c.sealed ≠ s.ownerSealed q ∨ s.regHeld b i r then Cause.WORLD else if c.vi.isSome then Cause.VI else 0
  | .bVI =>
    match reg with
    | some .VI_AVAIL | some .VI_ADMIN_CMD | some .VI_ADMIN_RES | none => 0
    | _ => worldUnless (s.viState (32 * i + n) != viFree && c.sealed == s.viSealed (32 * i + n))
  | .bVIT => worldUnless (s.viState i != viFree && c.sealed == s.viSealed i)
  | .bWLDH =>
    match reg with
    | some .WLD_OWN_REQ | some .WLD_OWN_RES | some .WLD_IOMMU_INV | some .WLD_IOMMU_INVRES | some .WLD_IOMMU_FLT
    | some .WLD_IOMMU_FLTCNT | some .WLD_IOMMU_CTX_S | some .WLD_IOMMU_CTX_O | some .WLD_IOMMU_VIT_S
    | some .WLD_IOMMU_VIT_O => 0
    | _ => worldUnless c.sealed
  | .bKS => 0
  | .bCECTX =>
    if s.ceOff (i / 16) then Cause.NOT_READY
    else
      match reg with
      | some .CE_CMDW | some .CE_CMD | some .CE_ACK => worldUnless (s.resAccess (.ce i) c)
      | _ => worldUnless (s.managerAccess (.ce i) c)
  | .bPCI =>
    match reg with
    | some .PCI_FN_CFG => worldUnless (s.managerAccess (.pci (8 * i + n)) c)
    | some .PCI_FN_OB | some .PCI_FN_BAR =>
      worldUnless (s.managerAccess (.pci (8 * i + n)) c && s.get (L.PCI_FN_CFG.EN i n) == 0)
    | _ => worldUnless c.sealed
  | .bETH =>
    match reg with
    | some .ETH_GATE_LIST | some .ETH_GATE_ENT | some .ETH_MAC => worldUnless (s.managerAccess (.eth 0) c)
    | some .ETH_FN_CFG => worldUnless (s.managerAccess (.eth n) c)
    | _ => worldUnless c.sealed
  | .bPWR =>
    match reg with
    | some .PWR_CMD | some .PWR_RES => worldUnless c.vi.isNone
    | _ => worldUnless (c.sealed && c.vi.isNone)
  | .bCLK =>
    match reg with
    | some .CLK_DOM => worldUnless (s.managerAccess (.clk n) c)
    | _ => worldUnless c.sealed
  | .bCRN => worldUnless (s.managerAccess .cairn c)
  | .bPMC =>
    match reg with
    | some .PMC_FRAME_VAL | some .PMC_FRAME_NUM => worldUnless (c.sealed == (s.get (L.PMC_SEL.WORLD n) == 1))
    | _ => 0
  | .bCSR => 0

/-! ### Effects of a write -/

/-- The bits of a register that an access of `size` bytes at `a` touches (R12). -/
def partMask (a size : Nat) : Word := BitVec.ofNat 64 ((2 ^ (8 * size) - 1) <<< (8 * (a % 8)))

/-- One field after a write of the bits of `m` with `v` (Table 0.4); `done` are the bits of RWO fields written before. -/
def writeField (m v done : Word) (w : Word) (f : FieldSpec) : Word :=
  let x := fieldMask f.lo f.width &&& m
  match f.ty with
  | .rw => (w &&& ~~~ x) ||| (v &&& x)
  | .rwo => if fieldMask f.lo f.width &&& done = 0 then (w &&& ~~~ x) ||| (v &&& x) else w
  | .w1c => w &&& ~~~ (x &&& v)
  | .w1s => w ||| (x &&& v)
  | .ro | .wo => w

/-- The bits of a register that a write touches in fields of a type. -/
def typeMask (ty : FieldType) (fs : List FieldSpec) (m : Word) : Word :=
  fs.foldl (fun w f => if f.ty = ty then w ||| (fieldMask f.lo f.width &&& m) else w) 0

/-- A write by field type (R10, R11). -/
def State.writeByType (s : State) (k : Nat) (fs : List FieldSpec) (m v : Word) : State :=
  let d := SMap.get s.fieldOps.done k
  let s := s.wr k (fs.foldl (writeField m v d) (s.rd k))
  if typeMask .rwo fs m = 0 then s
  else { s with fieldOps := { s.fieldOps with done := SMap.set s.fieldOps.done k (d ||| typeMask .rwo fs m) } }

/-- The value written as W1C fields see it: what hardware has set in this cycle stays set (R11). -/
def State.w1cSeen (s : State) (k : Nat) (fs : List FieldSpec) (v : Word) : Word :=
  v &&& ~~~ (SMap.get s.fieldOps.raised k &&& typeMask .w1c fs (BitVec.allOnes 64))

/-- The 64-bit value that a rule of its own sees: the bits written, and the RW and RWO fields of the other half as they stand. -/
def mergedValue (fs : List FieldSpec) (cur m v : Word) : Word :=
  fs.foldl (fun w f => if f.ty = .rw ∨ f.ty = .rwo then w ||| (cur &&& fieldMask f.lo f.width &&& ~~~ m) else w) (v &&& m)

/-- The rule of its own of a register; none if its fields act by type. -/
def State.writeOwnRule (s : State) (b : Block) (r : RegInst) (k : Nat) (c : Issuer) (full : Bool) (v : Nat) : Option State :=
  let reg := r.spec.reg
  let i := r.inst
  let n := r.ix 0
  match b with
  | .bTB => s.writeTb reg c v
  | .bCSQ => s.writeCsq reg i n c full v
  | .bHA => s.writeHa reg i v
  | .bWLDD => s.writeWldDie reg i n c v
  | .bDL => s.writeDl reg i c v
  | .bNOC => s.writeNoc reg n 0 0 c v
  | .bNODE => s.writeNoc reg i n (r.ix 1) c v
  | .bMC => s.writeMc reg i c v
  | .bXE => s.writeXe reg i n c v
  | .bQE => s.writeQe reg i n c v
  | .bVI => s.writeVi reg i n c v
  | .bVIT => s.writeViT reg i c v
  | .bFAB => s.writeFab reg n (if reg = .FAB_RT then r.ix 1 else n) c v
  | .bFABP => s.writeFabPort reg i c v
  | .bWLDH => (s.writeBelay reg c v).orElse (fun _ => s.writeWldHub reg n c v)
  | .bKS => s.writeKs reg (bankKey reg c.sealed k) c v
  | .bCECTX => s.writeCe reg i c v
  | .bPCI => s.writePci reg i n c v
  | .bETH => s.writeEth reg n c v
  | .bMGT => s.writeMgt reg v
  | .bPWR => (s.writePwr reg c v).orElse (fun _ => s.writeRst reg c v)
  | .bCLK => match reg with
    | .CLK_DOM => some (s.writeClkDom n v)
    | _ => none
  | .bERR => s.writeErr reg n c v
  | .bCRN => s.writeCrn reg c v
  | .bPMC => s.writePmc reg k n c v
  | .bCE | .bCSR => none

/-- Where the values of a register stand: those of VI_T_MBOX in VI_MBOX_IDX of the instance (R282). -/
def homeKey (reg : Reg) (v k : Nat) : Nat := if reg = .VI_T_MBOX then R.VI_MBOX_IDX (v / 32) (v % 32) else k

/-- A write of a register by an access that its block allows. -/
def State.writeReg (s : State) (b : Block) (r : RegInst) (k : Nat) (c : Issuer) (a size : Nat) (v : Word) : State :=
  let m := partMask a size
  let k' := bankKey r.spec.reg c.sealed k
  let v := s.w1cSeen k' r.spec.fields (v <<< (8 * (a % 8)))
  let home := homeKey r.spec.reg r.inst k'
  if r.spec.fields.all (fun f => (fieldMask f.lo f.width &&& m) == 0) then s
  else
    match s.writeOwnRule b r k c (size == 8) (mergedValue r.spec.fields (s.rd home) m v).toNat with
    | some t => t
    | none => s.writeByType k' r.spec.fields m v

/-- A write of register space outside the interrupt pages (R12, R452, R453); the registers of a compute die are reached over
its links (R18). -/
def State.regWrite (s : State) (c : Issuer) (a size : Nat) (v : Word) : State :=
  let k := a % 0x10000000000
  match keyBlock k with
  | none => s.violation 253 0x05 a c
  | some (b, i, _) =>
    let cause := s.writeCause b i (findReg (k / 8 * 8)) c
    if b = .bWLDD ∧ s.dieIn i = false then s.refuse (blockLog b i) Cause.NOT_READY a c
    else if cause ≠ 0 then s.refuse (blockLog b i) cause a c
    else if sizeOk a size = false then s.violation (blockLog b i) 0x01 a c
    else
      match findReg (k / 8 * 8) with
      | none => s.violation (blockLog b i) 0x02 a c
      | some r => (s.answer .ok).writeReg b r (k / 8 * 8) c a size v

/-- A write of any address but HBM: stores to the MRAM mapping and the ROM are violations (R35, R450). -/
def State.busWrite (s : State) (c : Issuer) (a size : Nat) (v : Word) : State :=
  let p : PAddr := BitVec.ofNat 48 a
  let bytes := bytesLE size v.toNat
  if 0xF00000000000 ≤ a ∧ a < 0xF00100000000 then
    match aplicPage a, intPage a with
    | some dom, _ => s.aplicGuard dom a size c (fun s => s.writeAplic dom (a % 0x10000) (v.toNat % 2 ^ 32))
    | none, some (h, _) =>
      if s.hartUnused h then s.violation (dieLog (hartDie h)) 0x05 a c
      else if size ≠ 4 ∨ a % 4 ≠ 0 then s.violation (dieLog (hartDie h)) 0x01 a c else s.msi c a (v.toNat % 2 ^ 32)
    | none, none => s.regWrite c a size v
  else if 0x10000000000 ≤ a ∧ a < 0x100C0000000 then
    let d := (a - 0x10000000000) / 0x10000000
    if (s.dieSt d).otherMake then s.ioToDie d c a size (some (v.toNat % 2 ^ (8 * size)))
    else s.when (s.pitonReach c d = true) (fun s => s.pitonDo c p (.store bytes))
  else if 0x20000000000 ≤ a ∧ a < 0x30000000000 then s.windowDo c p (.store bytes)
  else if 0x400000000000 ≤ a ∧ a < 0x800000000000 then s.remoteDo c p (.store bytes) (s.reservedFor c a)
  else if 0xF00100000000 ≤ a ∧ a < 0xF00100800000 then s.violation 253 0x02 a c
  else if 0xFFFFFFF00000 ≤ a ∧ a < 2 ^ 48 then (if c.sealed then s.violation 253 0x02 a c else s.worldError 253 a c)
  else s.routeError a c

/-- A write by a Newt core (R458). -/
def State.newtWrite (s : State) (a size : Nat) (v : Word) : State :=
  match newtView a size with
  | none => s.answer .accessFault
  | some p =>
    if newtSram ≤ p then (s.answer .ok).writeBytes p ((bytesLE size v.toNat).map (BitVec.ofNat 8))
    else s.busWrite newtIssuer p size v

/-- IO_WR (R188): the write reaches its target and is answered; a write of a Newt core goes by its own view (R458). -/
def execIoWr (die : Fin 12) (c : Issuer) (addr : PAddr) (size : Nat) (value : Word) (s : State) : Result :=
  s.devCmd (fun s =>
    if c.agent = .newt then .next (s.newtWrite addr.toNat size value)
    else if s.dieLinked die ∧ s.agentIn c then
      .next (if s.pmpStops c addr.toNat size pmpW then s.answer .accessFault else s.busWrite (s.tagged c) addr.toNat size value)
    else .next s)

/-- The aligned accesses of 1, 2, 4 or 8 bytes that a wider one is split into (R188), as address and size. -/
def ioPieces : Nat → Nat → Nat → List (Nat × Nat)
  | 0, _, _ => []
  | k + 1, a, n =>
    if n = 0 then []
    else
      let z := ([8, 4, 2].find? (fun z => decide (z ≤ n ∧ a % z = 0))).getD 1
      (a, z) :: ioPieces k (a + z) (n - z)

/-- An access to the window of a die of another make (R194): forwarded as IO_RD and IO_WR; there is no message for an atomic
operation, nor for a reservation. -/
def State.otherMakeDo (s : State) (d : Nat) (c : Issuer) (a : Nat) (k : PitonKind) : State :=
  match k with
  | .load n | .fetch n => s.forAll (ioPieces n a n) (fun s p => s.ioToDie d c p.1 p.2 none)
  | .store b => (s.answer .ok).forAll (ioPieces b.length a b.length) (fun s p =>
      s.ioToDie d c p.1 p.2 (some (ofBytesLE ((b.drop (p.1 - a)).take p.2))))
  | .amo _ _ _ | .lrsc => s.answer .accessFault

/-- PITON_ACCESS (R159 to R161, R194): performed at the slice, forwarded to a die of another make, or answered with an error
response; one that finds no working link gets no answer. -/
def execPitonAccess (c : Issuer) (addr : PAddr) (k : PitonKind) (s : State) : Result :=
  let d := (addr.toNat - 0x10000000000) / 0x10000000
  if s.pitonReach c d then
    .next (if s.pmpStops c addr.toNat (pitonShape k).1 (pitonPmp k) then s.answer .accessFault
      else if (s.dieSt d).otherMake then s.otherMakeDo d (s.tagged c) addr.toNat k else s.pitonDo (s.tagged c) addr k)
  else .next s

/-- Zeros written to a line outside the HBM range like stores (R153): at once in Piton memory, else eight bytes at a time; an
error response of one is the answer. -/
def State.zeroOutside (s : State) (c : Issuer) (a : Nat) : State :=
  if 0x10000000000 ≤ a ∧ a < 0x100C0000000 ∧ (s.dieSt ((a - 0x10000000000) / 0x10000000)).otherMake = false then
    s.when (s.pitonReach c ((a - 0x10000000000) / 0x10000000) = true) (fun s => s.pitonDo c (BitVec.ofNat 48 a) (.store (zeros 64)))
  else
    s.when (s.agentIn c = true) (fun s => s.forAll (List.range 8) (fun s k =>
      let t := s.busWrite c (a + 8 * k) 8 0
      if 0 < k ∧ s.resp ≠ .ok then t.answer s.resp else t))

/-- CBO_ZERO (R153): one 64-byte store under the write policy, or stores of zeros outside the HBM range. -/
def execCboZero (h : Fin 216) (mode : PrivMode) (line : Nat) (s : State) : Result :=
  if s.hartActs h = false then .next s
  else
    let s := s.inMode h mode
    match s.cboFault h 3 mode with
    | some e => .next (s.answer e)
    | none =>
      let c := s.hartIssuer h mode
      let a : Access := ⟨h, line, 0, .store (zeros 64), c.sealed, false, 0, mode⟩
      if s.pmpFault h mode (64 * line) 64 pmpW then .next (s.answer .accessFault)
      else if lineInHbm line then
        if s.stopped ∨ s.accessOk a = false then .next s else .next (s.hartAccess (s.accessTagged a))
      else .next ((s.wcDrain h).zeroOutside c (64 * line))

/-- REGISTER_WRITE (R10): a register of register space, or a CSR of a hart (R142); a Newt core writes by its own
view (R458). -/
def execRegisterWrite (c : Issuer) (target : RegTarget) (value : Word) (s : State) : Result :=
  s.devCmd (fun s =>
    match target with
    | .addr a size =>
      if c.agent = .newt then .next (s.newtWrite a.toNat size value)
      else if 0xF00000000000 ≤ a.toNat ∧ a.toNat < 0xF00100000000 ∧ s.agentIn c then
        .next (if s.pmpStops c a.toNat size pmpW then s.answer .accessFault else s.busWrite (s.tagged c) a.toNat size value)
      else .next s
    | .csr h num mode =>
      if s.hartActs h = false then .next s
      else
        let s := s.inMode h mode
        if num.val = 0x7C0 then .next (if mode = .m then s.writeWsw h value.toNat else s.answer .illegal)
        else .next (s.writeCsr h num mode value.toNat))

/-! ### Debug (R352) -/

/-- The tags of a debug access: with SEALED_EN the tag that the register takes, else Open. -/
def State.jtagIssuer (s : State) (a : Nat) (write : Bool) : Issuer :=
  let x : Issuer := ⟨true, none, 0, .jtag⟩
  let k := a % 0x10000000000
  if s.get L.WLD_DBG.SEALED_EN = 1 then
    match (if a / 0x10000000000 = 0xF0 then keyBlock k else none) with
    | some (b, i, _) =>
      let r := findReg (k / 8 * 8)
      let cause := if write then s.writeCause b i r x else s.readCause b i r x
      if 0xF00000000000 ≤ a ∧ a < 0xF00100000000 ∧ cause = Cause.WORLD then { x with sealed := false } else x
    | none => x
  else { x with sealed := false }

/-- The debug module may reach the hart (R352). -/
def State.jtagMay (s : State) (h : Nat) : Bool :=
  decide (h < 216) && !s.hartUnused h && !s.dieAway (hartDie h) &&
    (s.get L.WLD_DBG.SEALED_EN = 1 ||
      (s.get L.WLD_DBG.OPEN_EN = 1 && !s.clusterSealed (hartDie h) (hartCluster h) && (s.hartSt h).mode != .m))

/-- The debug module halts a hart: it runs or sleeps, and its cluster does not switch. -/
def State.jtagHalt (s : State) (h : Nat) : State :=
  let x := s.hartSt h
  if s.jtagMay h ∧ s.clusterSwitching (hartDie h) (hartCluster h) = false ∧ (x.run = .run ∨ x.run = .wfi ∨ x.run = .nap) then
    (s.setHart h { x with halted := true }).answer .ok
  else s.answer .error

/-- A register number of a debug request as the key of the hart's registers. -/
def jtagReg (n : Nat) : Option Nat := if 1 ≤ n ∧ n ≤ 32 then some n else none

/-- A CSR that the Open level may not reach: those of machine mode. -/
def State.jtagCsr (s : State) (n : Nat) : Bool := s.get L.WLD_DBG.SEALED_EN = 1 || n / 0x100 % 4 != 3

/-- Memory of the HBM range as the debug module reaches it: the latest value, an Open access only inside the open ranges
(R318). -/
def State.jtagMem (s : State) (c : Issuer) (a n : Nat) (f : State → State) : State :=
  if c.sealed = false ∧ s.inOpenRange a n = false then (s.logRec iommuLog Cause.ACCESS iommuRange a c 0).answer .error else f s

/-- JTAG_DEBUG_REQUEST (R352). -/
def execJtagDebugRequest (r : JtagReq) (s : State) : Result :=
  s.devCmd (fun s =>
    let on : Bool := s.get L.WLD_DBG.SEALED_EN = 1 || s.get L.WLD_DBG.OPEN_EN = 1
    match r with
    | .idcode => .next (s.answer (.data 0x5EC19216))
    | .halt h => .next (s.when (on = true) (fun s => s.jtagHalt h))
    | .resume h =>
      .next (s.when (on = true) (fun s =>
        if s.jtagMay h then (s.setHart h { s.hartSt h with halted := false }).answer .ok else s.answer .error))
    | .read a n =>
      .next (s.when (on = true) (fun s =>
        let c := s.jtagIssuer a false
        if a + n ≤ hbmEnd then s.jtagMem c a n (fun s =>
          let r := s.devRead 0xFF a n c
          r.1.answer (if r.2.err ∨ r.2.poison then .error else .data (BitVec.ofNat 64 (ofBytesLE r.2.data))))
        else s.busRead c a n))
    | .write a n v =>
      .next (s.when (on = true) (fun s =>
        let c := s.jtagIssuer a true
        if a + n ≤ hbmEnd then s.jtagMem c a n (fun s =>
          let r := s.devWrite 0xFF a (bytesLE n v.toNat) false c
          r.1.answer (if r.2 then .ok else .error))
        else s.busWrite c a n v))
    | .readHart h n =>
      .next (s.when (on = true) (fun s =>
        if s.jtagMay h ∧ (s.hartSt h).halted then
          match jtagReg n with
          | some k => s.answer (.data (s.hreg h k))
          | none =>
            if 0x1000 ≤ n ∧ n < 0x2000 ∧ s.jtagCsr (n - 0x1000) then
              s.answer (.data (BitVec.ofNat 64 (s.readCsr h (n - 0x1000))))
            else s.answer .error
        else s.answer .error))
    | .writeHart h n v =>
      .next (s.when (on = true) (fun s =>
        if s.jtagMay h ∧ (s.hartSt h).halted then
          match jtagReg n with
          | some k => (s.setHreg h k v).answer .ok
          | none =>
            if 0x1000 ≤ n ∧ n < 0x2000 ∧ n ≠ 0x17C0 ∧ s.jtagCsr (n - 0x1000) then
              s.writeCsr h (n - 0x1000) (if s.get L.WLD_DBG.SEALED_EN = 1 then .m else .s) v.toNat
            else s.answer .error
        else s.answer .error)))

end Sys2Proof.Machine
end

