-- ==== Sys2Proof/Machine/Dispatch.lean ====
section
/-! DEFINITION. The effect of every command: one arm for each row of the table, in its order. -/

namespace Sys2Proof.Machine

/-- The effect of a command on everything but the queue. -/
def exec (i : Instr) (s : State) : Host.Outcome State Fault Refusal :=
  match i with
  | .registerWrite c target value => Sys2Proof.Machine.execRegisterWrite c target value s
  | .tick => Sys2Proof.Machine.execTick s
  | .periodSwitch => Sys2Proof.Machine.execPeriodSwitch s
  | .tbTimeRead c => Sys2Proof.Machine.execTbTimeRead c s
  | .tickEnWrite c value => Sys2Proof.Machine.execTickEnWrite c value s
  | .ticksStop => Sys2Proof.Machine.execTicksStop s
  | .switchArm c value => Sys2Proof.Machine.execSwitchArm c value s
  | .restepWrite c value => Sys2Proof.Machine.execRestepWrite c value s
  | .restep => Sys2Proof.Machine.execRestep s
  | .ppsInEdge rising => Sys2Proof.Machine.execPpsInEdge rising s
  | .asSourceUpdate lane offset interval => Sys2Proof.Machine.execAsSourceUpdate lane offset interval s
  | .sourceUpdateMissed => Sys2Proof.Machine.execSourceUpdateMissed s
  | .acqTimeout => Sys2Proof.Machine.execAcqTimeout s
  | .ppsOutPulse => Sys2Proof.Machine.execPpsOutPulse s
  | .timeMessageSend => Sys2Proof.Machine.execTimeMessageSend s
  | .timeMessageRx port m => Sys2Proof.Machine.execTimeMessageRx port m s
  | .electionSettle => Sys2Proof.Machine.execElectionSettle s
  | .summitLost => Sys2Proof.Machine.execSummitLost s
  | .parentLost => Sys2Proof.Machine.execParentLost s
  | .csqStart c q value => Sys2Proof.Machine.execCsqStart c q value s
  | .csqStop c q value => Sys2Proof.Machine.execCsqStop c q value s
  | .csqImemWrite c q a value => Sys2Proof.Machine.execCsqImemWrite c q a value s
  | .csqFlagSet c q value => Sys2Proof.Machine.execCsqFlagSet c q value s
  | .halt q => Sys2Proof.Machine.execHalt q s
  | .movi q => Sys2Proof.Machine.execMovi q s
  | .addi q => Sys2Proof.Machine.execAddi q s
  | .sub q => Sys2Proof.Machine.execSub q s
  | .and q => Sys2Proof.Machine.execAnd q s
  | .or q => Sys2Proof.Machine.execOr q s
  | .shl q => Sys2Proof.Machine.execShl q s
  | .br q => Sys2Proof.Machine.execBr q s
  | .loop q => Sys2Proof.Machine.execLoop q s
  | .waitt q => Sys2Proof.Machine.execWaitt q s
  | .waittFire q => Sys2Proof.Machine.execWaittFire q s
  | .waite q => Sys2Proof.Machine.execWaite q s
  | .waiteEnd q => Sys2Proof.Machine.execWaiteEnd q s
  | .launch q => Sys2Proof.Machine.execLaunch q s
  | .launchCompletion id => Sys2Proof.Machine.execLaunchCompletion id s
  | .slotExpire q slot => Sys2Proof.Machine.execSlotExpire q slot s
  | .post q => Sys2Proof.Machine.execPost q s
  | .flagDeliver => Sys2Proof.Machine.execFlagDeliver s
  | .chk q => Sys2Proof.Machine.execChk q s
  | .chkEnd q => Sys2Proof.Machine.execChkEnd q s
  | .overrunSkip q => Sys2Proof.Machine.execOverrunSkip q s
  | .sync q => Sys2Proof.Machine.execSync q s
  | .syncRelease q => Sys2Proof.Machine.execSyncRelease q s
  | .syncDeadline q => Sys2Proof.Machine.execSyncDeadline q s
  | .cairn q => Sys2Proof.Machine.execCairn q s
  | .fence q => Sys2Proof.Machine.execFence q s
  | .fenceEnd q => Sys2Proof.Machine.execFenceEnd q s
  | .yield q => Sys2Proof.Machine.execYield q s
  | .grantEnd entry => Sys2Proof.Machine.execGrantEnd entry s
  | .refreshWindowEnd g => Sys2Proof.Machine.execRefreshWindowEnd g s
  | .injectorLaunchWord id => Sys2Proof.Machine.execInjectorLaunchWord id s
  | .worldSwitchGo h c value => Sys2Proof.Machine.execWorldSwitchGo h c value s
  | .worldSwitchGoWithdraw h => Sys2Proof.Machine.execWorldSwitchGoWithdraw h s
  | .worldSwitchDone die cl => Sys2Proof.Machine.execWorldSwitchDone die cl s
  | .timerCompare h => Sys2Proof.Machine.execTimerCompare h s
  | .wfi h mode => Sys2Proof.Machine.execWfi h mode s
  | .interruptWake h => Sys2Proof.Machine.execInterruptWake h s
  | .msiWrite c addr data => Sys2Proof.Machine.execMsiWrite c addr data s
  | .aplicSource src level => Sys2Proof.Machine.execAplicSource src level s
  | .lockstepMismatch die cl pc => Sys2Proof.Machine.execLockstepMismatch die cl pc s
  | .sampleChosen h r => Sys2Proof.Machine.execSampleChosen h r s
  | .sampleAck h value => Sys2Proof.Machine.execSampleAck h value s
  | .prefetchIssue die unit idx => Sys2Proof.Machine.execPrefetchIssue die unit idx s
  | .cboClean h mode line => Sys2Proof.Machine.execCboClean h mode line s
  | .cboFlush h mode line => Sys2Proof.Machine.execCboFlush h mode line s
  | .cboInval h mode line => Sys2Proof.Machine.execCboInval h mode line s
  | .cboZero h mode line => Sys2Proof.Machine.execCboZero h mode line s
  | .swopClean c die value => Sys2Proof.Machine.execSwopClean c die value s
  | .swopInvalidate c die value => Sys2Proof.Machine.execSwopInvalidate c die value s
  | .swopCleanInvalidate c die value => Sys2Proof.Machine.execSwopCleanInvalidate c die value s
  | .swopDone die => Sys2Proof.Machine.execSwopDone die s
  | .pitonModeChange c die slice value => Sys2Proof.Machine.execPitonModeChange c die slice value s
  | .pitonChangeDone die slice => Sys2Proof.Machine.execPitonChangeDone die slice s
  | .pitonAccess c addr k => Sys2Proof.Machine.execPitonAccess c addr k s
  | .ringBroadcast a => Sys2Proof.Machine.execRingBroadcast a s
  | .l3Eviction die unit set way => Sys2Proof.Machine.execL3Eviction die unit set way s
  | .rdS m => Sys2Proof.Machine.execRdS m s
  | .rdX m => Sys2Proof.Machine.execRdX m s
  | .upg m => Sys2Proof.Machine.execUpg m s
  | .wb m => Sys2Proof.Machine.execWb m s
  | .cmo m => Sys2Proof.Machine.execCmo m s
  | .ncRd m => Sys2Proof.Machine.execNcRd m s
  | .ncWr m => Sys2Proof.Machine.execNcWr m s
  | .homeTxnStart home line => Sys2Proof.Machine.execHomeTxnStart home line s
  | .filterAllocRetry home line => Sys2Proof.Machine.execFilterAllocRetry home line s
  | .snpS die m => Sys2Proof.Machine.execSnpS die m s
  | .snpI die m => Sys2Proof.Machine.execSnpI die m s
  | .snpC die m => Sys2Proof.Machine.execSnpC die m s
  | .rspI m => Sys2Proof.Machine.execRspI m s
  | .rspK m => Sys2Proof.Machine.execRspK m s
  | .rspId m => Sys2Proof.Machine.execRspId m s
  | .rspKd m => Sys2Proof.Machine.execRspKd m s
  | .rspEvd m => Sys2Proof.Machine.execRspEvd m s
  | .dataS die m => Sys2Proof.Machine.execDataS die m s
  | .dataE die m => Sys2Proof.Machine.execDataE die m s
  | .gntX die m => Sys2Proof.Machine.execGntX die m s
  | .fack m => Sys2Proof.Machine.execFack m s
  | .wbAck die m => Sys2Proof.Machine.execWbAck die m s
  | .wbStale die m => Sys2Proof.Machine.execWbStale die m s
  | .cmp agent m => Sys2Proof.Machine.execCmp agent m s
  | .snoopTimeout home line => Sys2Proof.Machine.execSnoopTimeout home line s
  | .ioRd die c addr size => Sys2Proof.Machine.execIoRd die c addr size s
  | .ioWr die c addr size value => Sys2Proof.Machine.execIoWr die c addr size value s
  | .ioCmp die err value => Sys2Proof.Machine.execIoCmp die err value s
  | .cdpMsgFlit link w => Sys2Proof.Machine.execCdpMsgFlit link w s
  | .cdpIdleFlit link w => Sys2Proof.Machine.execCdpIdleFlit link w s
  | .cdpLnak link w => Sys2Proof.Machine.execCdpLnak link w s
  | .cdpResume link w => Sys2Proof.Machine.execCdpResume link w s
  | .linkTrain link => Sys2Proof.Machine.execLinkTrain link s
  | .paramExchange link p => Sys2Proof.Machine.execParamExchange link p s
  | .exchangeTimeout link => Sys2Proof.Machine.execExchangeTimeout link s
  | .linkTrainDone link rxFail txFail timeOk => Sys2Proof.Machine.execLinkTrainDone link rxFail txFail timeOk s
  | .dlHold c link value => Sys2Proof.Machine.execDlHold c link value s
  | .dlRetrain c link value => Sys2Proof.Machine.execDlRetrain c link value s
  | .dlClrRec c link value => Sys2Proof.Machine.execDlClrRec c link value s
  | .laneParityThreshold link lane idle => Sys2Proof.Machine.execLaneParityThreshold link lane idle s
  | .sidebandLaneReport link lane errors => Sys2Proof.Machine.execSidebandLaneReport link lane errors s
  | .spareSwitch link => Sys2Proof.Machine.execSpareSwitch link s
  | .linkNarrow link late => Sys2Proof.Machine.execLinkNarrow link late s
  | .timeWordSend => Sys2Proof.Machine.execTimeWordSend s
  | .timingLaneFail link => Sys2Proof.Machine.execTimingLaneFail link s
  | .niInject p => Sys2Proof.Machine.execNiInject p s
  | .meshFlitHop plane node output err => Sys2Proof.Machine.execMeshFlitHop plane node output err s
  | .routeTableWrite c node plane bank dst value => Sys2Proof.Machine.execRouteTableWrite c node plane bank dst value s
  | .epochSwitchRequest c value => Sys2Proof.Machine.execEpochSwitchRequest c value s
  | .nocEpochSwitch => Sys2Proof.Machine.execNocEpochSwitch s
  | .epochHoldClear => Sys2Proof.Machine.execEpochHoldClear s
  | .drainRequest c node value => Sys2Proof.Machine.execDrainRequest c node value s
  | .drainBegin node => Sys2Proof.Machine.execDrainBegin node s
  | .drainComplete node => Sys2Proof.Machine.execDrainComplete node s
  | .drainRelease c node value => Sys2Proof.Machine.execDrainRelease c node value s
  | .mcRequest mc r => Sys2Proof.Machine.execMcRequest mc r s
  | .mcCommandIssue mc pc => Sys2Proof.Machine.execMcCommandIssue mc pc s
  | .mcReadReturn mc line ecc => Sys2Proof.Machine.execMcReadReturn mc line ecc s
  | .refreshInterval mc => Sys2Proof.Machine.execRefreshInterval mc s
  | .stackTempRead stack temp => Sys2Proof.Machine.execStackTempRead stack temp s
  | .parityAlert mc executed => Sys2Proof.Machine.execParityAlert mc executed s
  | .replayEnd mc => Sys2Proof.Machine.execReplayEnd mc s
  | .mcTrain mc => Sys2Proof.Machine.execMcTrain mc s
  | .mcTrainDone mc ok lanes => Sys2Proof.Machine.execMcTrainDone mc ok lanes s
  | .mcReqTest c mc value => Sys2Proof.Machine.execMcReqTest c mc value s
  | .mcReqRecovery c mc value => Sys2Proof.Machine.execMcReqRecovery c mc value s
  | .mcReqLeaveTest c mc value => Sys2Proof.Machine.execMcReqLeaveTest c mc value s
  | .mcRecoveryDone mc run => Sys2Proof.Machine.execMcRecoveryDone mc run s
  | .xeKeyload c value => Sys2Proof.Machine.execXeKeyload c value s
  | .xeKeyClear c value => Sys2Proof.Machine.execXeKeyClear c value s
  | .xeKeyloadDone busOk => Sys2Proof.Machine.execXeKeyloadDone busOk s
  | .xeKeyresAck c value => Sys2Proof.Machine.execXeKeyresAck c value s
  | .qeCopy e => Sys2Proof.Machine.execQeCopy e s
  | .qePush e => Sys2Proof.Machine.execQePush e s
  | .qePop e => Sys2Proof.Machine.execQePop e s
  | .qeDrop e => Sys2Proof.Machine.execQeDrop e s
  | .qeCommandComplete e id => Sys2Proof.Machine.execQeCommandComplete e id s
  | .sqDoorbell c d value => Sys2Proof.Machine.execSqDoorbell c d value s
  | .cqDoorbell c d value => Sys2Proof.Machine.execCqDoorbell c d value s
  | .sqFetch ch => Sys2Proof.Machine.execSqFetch ch s
  | .queueAdmit q p => Sys2Proof.Machine.execQueueAdmit q p s
  | .spillWrite q => Sys2Proof.Machine.execSpillWrite q s
  | .middleRead q => Sys2Proof.Machine.execMiddleRead q s
  | .middleReadReturn q => Sys2Proof.Machine.execMiddleReadReturn q s
  | .queueEnable c q value => Sys2Proof.Machine.execQueueEnable c q value s
  | .queueDisable c q value => Sys2Proof.Machine.execQueueDisable c q value s
  | .queueFlush c q value => Sys2Proof.Machine.execQueueFlush c q value s
  | .queueDiscardApply q => Sys2Proof.Machine.execQueueDiscardApply q s
  | .viCreate c k value => Sys2Proof.Machine.execViCreate c k value s
  | .viStart c k value => Sys2Proof.Machine.execViStart c k value s
  | .viStop c k value => Sys2Proof.Machine.execViStop c k value s
  | .viReset c k value => Sys2Proof.Machine.execViReset c k value s
  | .viDestroy c k value => Sys2Proof.Machine.execViDestroy c k value s
  | .viShare c k value => Sys2Proof.Machine.execViShare c k value s
  | .viAdminDone k sealed => Sys2Proof.Machine.execViAdminDone k sealed s
  | .viStopTimeout k sealed => Sys2Proof.Machine.execViStopTimeout k sealed s
  | .viAdminAck c k value => Sys2Proof.Machine.execViAdminAck c k value s
  | .mboxManagerIndex c v value => Sys2Proof.Machine.execMboxManagerIndex c v value s
  | .mboxTenantIndex c v value => Sys2Proof.Machine.execMboxTenantIndex c v value s
  | .dirtySwap c v value => Sys2Proof.Machine.execDirtySwap c v value s
  | .dirtySwapDone v => Sys2Proof.Machine.execDirtySwapDone v s
  | .portSignalDetect port fail => Sys2Proof.Machine.execPortSignalDetect port fail s
  | .fabTrainFlit port t => Sys2Proof.Machine.execFabTrainFlit port t s
  | .heldTrainSend port => Sys2Proof.Machine.execHeldTrainSend port s
  | .fabLos port => Sys2Proof.Machine.execFabLos port s
  | .fabPktFlit port f => Sys2Proof.Machine.execFabPktFlit port f s
  | .fabIdleFlit port f => Sys2Proof.Machine.execFabIdleFlit port f s
  | .fabLnak port code seq => Sys2Proof.Machine.execFabLnak port code seq s
  | .beaconRx port b => Sys2Proof.Machine.execBeaconRx port b s
  | .beaconTimer => Sys2Proof.Machine.execBeaconTimer s
  | .beaconLoss port => Sys2Proof.Machine.execBeaconLoss port s
  | .fabForward port fvc => Sys2Proof.Machine.execFabForward port fvc s
  | .fabRd port fvc => Sys2Proof.Machine.execFabRd port fvc s
  | .fabWr port fvc => Sys2Proof.Machine.execFabWr port fvc s
  | .fabAtom port fvc => Sys2Proof.Machine.execFabAtom port fvc s
  | .fabMsg port fvc => Sys2Proof.Machine.execFabMsg port fvc s
  | .fabRdRsp port fvc => Sys2Proof.Machine.execFabRdRsp port fvc s
  | .fabCmp port fvc => Sys2Proof.Machine.execFabCmp port fvc s
  | .fabAtomRsp port fvc => Sys2Proof.Machine.execFabAtomRsp port fvc s
  | .fabRack port fvc => Sys2Proof.Machine.execFabRack port fvc s
  | .fabNak port fvc => Sys2Proof.Machine.execFabNak port fvc s
  | .fabDr port fvc => Sys2Proof.Machine.execFabDr port fvc s
  | .fabMmsg port fvc => Sys2Proof.Machine.execFabMmsg port fvc s
  | .remoteAccess c addr k reserved => Sys2Proof.Machine.execRemoteAccess c addr k reserved s
  | .fabRequestTimeout txn => Sys2Proof.Machine.execFabRequestTimeout txn s
  | .mgmtTx c value => Sys2Proof.Machine.execMgmtTx c value s
  | .fabEpochArm c value => Sys2Proof.Machine.execFabEpochArm c value s
  | .fabEpochSwitch => Sys2Proof.Machine.execFabEpochSwitch s
  | .profileCommit c value => Sys2Proof.Machine.execProfileCommit c value s
  | .profileCommitDone => Sys2Proof.Machine.execProfileCommitDone s
  | .profileAck c value => Sys2Proof.Machine.execProfileAck c value s
  | .ownRelease c value => Sys2Proof.Machine.execOwnRelease c value s
  | .ownReleaseDone sealed => Sys2Proof.Machine.execOwnReleaseDone sealed s
  | .ownReleaseTimeout sealed => Sys2Proof.Machine.execOwnReleaseTimeout sealed s
  | .ownResAck c value => Sys2Proof.Machine.execOwnResAck c value s
  | .iommuInvalidate c value => Sys2Proof.Machine.execIommuInvalidate c value s
  | .iommuInvDone sealed => Sys2Proof.Machine.execIommuInvDone sealed s
  | .iommuInvresAck c value => Sys2Proof.Machine.execIommuInvresAck c value s
  | .basecampBoot pufOk => Sys2Proof.Machine.execBasecampBoot pufOk s
  | .basecampHandoff => Sys2Proof.Machine.execBasecampHandoff s
  | .recoveryImage image => Sys2Proof.Machine.execRecoveryImage image s
  | .gen c value => Sys2Proof.Machine.execGen c value s
  | .derive c value => Sys2Proof.Machine.execDerive c value s
  | .importKey c value => Sys2Proof.Machine.execImportKey c value s
  | .exportKey c value => Sys2Proof.Machine.execExportKey c value s
  | .erase c value mramOk => Sys2Proof.Machine.execErase c value mramOk s
  | .persist c value mramOk => Sys2Proof.Machine.execPersist c value mramOk s
  | .attest c value mramOk => Sys2Proof.Machine.execAttest c value mramOk s
  | .measure c value => Sys2Proof.Machine.execMeasure c value s
  | .svnCommit c value mramOk => Sys2Proof.Machine.execSvnCommit c value mramOk s
  | .ksCommandDone sealed => Sys2Proof.Machine.execKsCommandDone sealed s
  | .ksResAck c value => Sys2Proof.Machine.execKsResAck c value s
  | .attTreeDone => Sys2Proof.Machine.execAttTreeDone s
  | .belayArm c value => Sys2Proof.Machine.execBelayArm c value s
  | .belayPet c value => Sys2Proof.Machine.execBelayPet c value s
  | .belayWarn => Sys2Proof.Machine.execBelayWarn s
  | .belayExpire => Sys2Proof.Machine.execBelayExpire s
  | .debugToken pub sig => Sys2Proof.Machine.execDebugToken pub sig s
  | .ceGo c ctx value => Sys2Proof.Machine.execCeGo c ctx value s
  | .ceKeyload e busOk => Sys2Proof.Machine.execCeKeyload e busOk s
  | .ceUnwrap e agree => Sys2Proof.Machine.execCeUnwrap e agree s
  | .ceClear e => Sys2Proof.Machine.execCeClear e s
  | .ceProcess e => Sys2Proof.Machine.execCeProcess e s
  | .ceSave e agree => Sys2Proof.Machine.execCeSave e agree s
  | .ceRestore e agree => Sys2Proof.Machine.execCeRestore e agree s
  | .ceSuspend e blocks => Sys2Proof.Machine.execCeSuspend e blocks s
  | .ceResume e => Sys2Proof.Machine.execCeResume e s
  | .ceCommandEnd e disagree => Sys2Proof.Machine.execCeCommandEnd e disagree s
  | .ceAck c ctx value => Sys2Proof.Machine.execCeAck c ctx value s
  | .pcieInboundTlp ctrl t => Sys2Proof.Machine.execPcieInboundTlp ctrl t s
  | .pcieWindowAccess c addr k => Sys2Proof.Machine.execPcieWindowAccess c addr k s
  | .pcieCompletionRx ctrl tag ok data => Sys2Proof.Machine.execPcieCompletionRx ctrl tag ok data s
  | .pcieCto ctrl tag => Sys2Proof.Machine.execPcieCto ctrl tag s
  | .pcieLinkDown ctrl port => Sys2Proof.Machine.execPcieLinkDown ctrl port s
  | .ethFrameRx lane fcsBad frame => Sys2Proof.Machine.execEthFrameRx lane fcsBad frame s
  | .ethFrameTx lane => Sys2Proof.Machine.execEthFrameTx lane s
  | .gateEntryAdvance lane => Sys2Proof.Machine.execGateEntryAdvance lane s
  | .gateCycleRestart lane => Sys2Proof.Machine.execGateCycleRestart lane s
  | .asSyncTimeout lane => Sys2Proof.Machine.execAsSyncTimeout lane s
  | .ethLinkChange lane up => Sys2Proof.Machine.execEthLinkChange lane up s
  | .mgtFrame toCores frame => Sys2Proof.Machine.execMgtFrame toCores frame s
  | .powerOnAction dom => Sys2Proof.Machine.execPowerOnAction dom s
  | .powerOffAction dom => Sys2Proof.Machine.execPowerOffAction dom s
  | .clockGateAction dom => Sys2Proof.Machine.execClockGateAction dom s
  | .clockUngateAction dom => Sys2Proof.Machine.execClockUngateAction dom s
  | .setCapAction id => Sys2Proof.Machine.execSetCapAction id s
  | .powerActionDone dom => Sys2Proof.Machine.execPowerActionDone dom s
  | .pwrResAck c value => Sys2Proof.Machine.execPwrResAck c value s
  | .powerMeasure voltage current => Sys2Proof.Machine.execPowerMeasure voltage current s
  | .capAdjust => Sys2Proof.Machine.execCapAdjust s
  | .thermalRead temps => Sys2Proof.Machine.execThermalRead temps s
  | .powerFail => Sys2Proof.Machine.execPowerFail s
  | .overVoltage => Sys2Proof.Machine.execOverVoltage s
  | .overVoltageClear => Sys2Proof.Machine.execOverVoltageClear s
  | .vinLow => Sys2Proof.Machine.execVinLow s
  | .refclkLoss => Sys2Proof.Machine.execRefclkLoss s
  | .pciRefclkLoss => Sys2Proof.Machine.execPciRefclkLoss s
  | .refclkReturn pci => Sys2Proof.Machine.execRefclkReturn pci s
  | .pllUnlock dom => Sys2Proof.Machine.execPllUnlock dom s
  | .vinRise => Sys2Proof.Machine.execVinRise s
  | .startDelayExpire => Sys2Proof.Machine.execStartDelayExpire s
  | .softStartDone => Sys2Proof.Machine.execSoftStartDone s
  | .refclkDetect grade serial pci => Sys2Proof.Machine.execRefclkDetect grade serial pci s
  | .resetNAssert => Sys2Proof.Machine.execResetNAssert s
  | .resetNRelease => Sys2Proof.Machine.execResetNRelease s
  | .packageResetCmd c value => Sys2Proof.Machine.execPackageResetCmd c value s
  | .dieResetCmd c value => Sys2Proof.Machine.execDieResetCmd c value s
  | .dieResetDone => Sys2Proof.Machine.execDieResetDone s
  | .clusterResetCmd c value => Sys2Proof.Machine.execClusterResetCmd c value s
  | .clusterResetDone => Sys2Proof.Machine.execClusterResetDone s
  | .rstResAck c value => Sys2Proof.Machine.execRstResAck c value s
  | .tbHold c value => Sys2Proof.Machine.execTbHold c value s
  | .tbRelease c value => Sys2Proof.Machine.execTbRelease c value s
  | .softwareCapture c value => Sys2Proof.Machine.execSoftwareCapture c value s
  | .captureHartResume h => Sys2Proof.Machine.execCaptureHartResume h s
  | .captureWritten => Sys2Proof.Machine.execCaptureWritten s
  | .jtagDebugRequest r => Sys2Proof.Machine.execJtagDebugRequest r s
  | .pcieLinkUp ctrl port width rate => Sys2Proof.Machine.execPcieLinkUp ctrl port width rate s
  | .mgtLinkChange up => Sys2Proof.Machine.execMgtLinkChange up s

end Sys2Proof.Machine
end

