-- ==== Sys2Proof/Machine/Step.lean ====
section
/-! DEFINITION. A step of the block: the command at the front of the queue, or one cycle of the time clock. -/

namespace Sys2Proof.Machine

/-- One step: the command at the front of the queue is taken and executed with the rest of the queue; on an empty queue one
cycle of the 1 GHz time clock passes. -/
def step (s : State) : Host.Outcome State Fault Refusal :=
  match s.pending with
  | c :: rest => exec c { s with pending := rest }
  | [] => .next (s.elapse 1)

/-- The command that a word spells is put at the front of the queue. -/
def State.withFetchWord (s : State) (nbits w : Nat) : State :=
  match decodeTableWord nbits w with
  | some c => { s with pending := c :: s.pending }
  | none => s

end Sys2Proof.Machine
end

