-- ==== Sys2Proof/Safety.lean ====
section
/-! DEFINITION. What claims are stated in: the invariant of the machine, the kinds of state, and what a command may touch. -/

namespace Sys2Proof.Machine

/-- The invariant that every step keeps: memory, registers and hart registers stand in their canonical form, and the
counter of the time base stays in its 106 bits (R37). -/
structure Inv (s : State) : Prop where
  mem : Memory.wf s.mem = true
  regs : SMap.wf regReset s.regs = true
  hregs : SMap.wf (fun _ => default) s.hregs = true
  ns : s.tb.ns < 2 ^ 64
  frac : s.tb.frac < 2 ^ 42

/-- The kinds of state a command may leave alone: every field of State but the queue, and the registers of the time base,
which stand below 0x10000. -/
inductive Kind where
  | regs | hregs | mem | up | resp | out | free | newtIrq | fieldOps | tb | hart | files | gftag | die | aplic
  | aplicRegs | paused | csq | slots | posts | launches | nextLaunch | unitAccept | ecc | releasing | viUsed | mc
  | poison | xeKeys | xeLoads | slotKey | cache | plru | streams | pitonBusy | slices | wbTag | ring | homes | sf
  | sfPlru | faultN | txIdle | links | timeWordAt | mesh | iotlb | queues | qe | viBytes | viPend | viAdmin | fab
  | ce | cectx | boots | pciOpen | pciTag | eth | ownReq | invReq | nv | ks | belay | pwr | caps | capBusy | trace
  | tbRegs
  deriving DecidableEq, Repr

/-- The two states agree on a kind of state. -/
def Kind.same (k : Kind) (r s : State) : Prop :=
  match k with
  | .regs => s.regs = r.regs
  | .hregs => s.hregs = r.hregs
  | .mem => s.mem = r.mem
  | .up => s.up = r.up
  | .resp => s.resp = r.resp
  | .out => s.out = r.out
  | .free => s.free = r.free
  | .newtIrq => s.newtIrq = r.newtIrq
  | .fieldOps => s.fieldOps = r.fieldOps
  | .tb => s.tb = r.tb
  | .hart => s.hart = r.hart
  | .files => s.files = r.files
  | .gftag => s.gftag = r.gftag
  | .die => s.die = r.die
  | .aplic => s.aplic = r.aplic
  | .aplicRegs => s.aplicRegs = r.aplicRegs
  | .paused => s.paused = r.paused
  | .csq => s.csq = r.csq
  | .slots => s.slots = r.slots
  | .posts => s.posts = r.posts
  | .launches => s.launches = r.launches
  | .nextLaunch => s.nextLaunch = r.nextLaunch
  | .unitAccept => s.unitAccept = r.unitAccept
  | .ecc => s.ecc = r.ecc
  | .releasing => s.releasing = r.releasing
  | .viUsed => s.viUsed = r.viUsed
  | .mc => s.mc = r.mc
  | .poison => s.poison = r.poison
  | .xeKeys => s.xeKeys = r.xeKeys
  | .xeLoads => s.xeLoads = r.xeLoads
  | .slotKey => s.slotKey = r.slotKey
  | .cache => s.cache = r.cache
  | .plru => s.plru = r.plru
  | .streams => s.streams = r.streams
  | .pitonBusy => s.pitonBusy = r.pitonBusy
  | .slices => s.slices = r.slices
  | .wbTag => s.wbTag = r.wbTag
  | .ring => s.ring = r.ring
  | .homes => s.homes = r.homes
  | .sf => s.sf = r.sf
  | .sfPlru => s.sfPlru = r.sfPlru
  | .faultN => s.faultN = r.faultN
  | .txIdle => s.txIdle = r.txIdle
  | .links => s.links = r.links
  | .timeWordAt => s.timeWordAt = r.timeWordAt
  | .mesh => s.mesh = r.mesh
  | .iotlb => s.iotlb = r.iotlb
  | .queues => s.queues = r.queues
  | .qe => s.qe = r.qe
  | .viBytes => s.viBytes = r.viBytes
  | .viPend => s.viPend = r.viPend
  | .viAdmin => s.viAdmin = r.viAdmin
  | .fab => s.fab = r.fab
  | .ce => s.ce = r.ce
  | .cectx => s.cectx = r.cectx
  | .boots => s.boots = r.boots
  | .pciOpen => s.pciOpen = r.pciOpen
  | .pciTag => s.pciTag = r.pciTag
  | .eth => s.eth = r.eth
  | .ownReq => s.ownReq = r.ownReq
  | .invReq => s.invReq = r.invReq
  | .nv => s.nv = r.nv
  | .ks => s.ks = r.ks
  | .belay => s.belay = r.belay
  | .pwr => s.pwr = r.pwr
  | .caps => s.caps = r.caps
  | .capBusy => s.capBusy = r.capBusy
  | .trace => s.trace = r.trace
  | .tbRegs => ∀ j, j < 0x10000 → s.rd j = r.rd j

/-! ### What a command may touch -/

/-- What a record in an error log, an event and an ordinary capture may touch (R430, R431, R436): registers, the interrupt
of the management cores, and the Cairn unit. -/
abbrev Kinds.log : List Kind := [.regs, .newtIrq, .fieldOps, .paused, .caps, .capBusy]

/-- What the passing of time may touch: what a record may, time itself, and the interrupts that timers raise. -/
abbrev Kinds.time : List Kind := [.regs, .newtIrq, .fieldOps, .paused, .caps, .capBusy, .up, .resp, .tb, .files, .aplic]

/-- What a request at a home may touch (R163, R172, R181, R229): what a record may, memory and its controllers, the homes and
their filter, the answers it sends, and what a fatal stop touches. -/
abbrev Kinds.home : List Kind :=
  [.regs, .mem, .resp, .out, .newtIrq, .fieldOps, .files, .aplic, .paused, .csq, .ecc, .mc, .poison, .homes, .sf,
  .sfPlru, .faultN, .txIdle, .caps, .capBusy]

/-- Every kind of state. -/
abbrev Kinds.all : List Kind :=
  [.regs, .hregs, .mem, .up, .resp, .out, .free, .newtIrq, .fieldOps, .tb, .hart, .files, .gftag, .die, .aplic,
  .aplicRegs, .paused, .csq, .slots, .posts, .launches, .nextLaunch, .unitAccept, .ecc, .releasing, .viUsed, .mc,
  .poison, .xeKeys, .xeLoads, .slotKey, .cache, .plru, .streams, .pitonBusy, .slices, .wbTag, .ring, .homes, .sf,
  .sfPlru, .faultN, .txIdle, .links, .timeWordAt, .mesh, .iotlb, .queues, .qe, .viBytes, .viPend, .viAdmin, .fab,
  .ce, .cectx, .boots, .pciOpen, .pciTag, .eth, .ownReq, .invReq, .nv, .ks, .belay, .pwr, .caps, .capBusy, .trace,
  .tbRegs]

/-- The kinds of state that a command may touch; every other kind of state it leaves as it was. -/
def touched : Instr → List Kind
  | .registerWrite .. | .cboZero .. | .ioWr .. | .belayExpire | .powerFail | .overVoltage | .overVoltageClear
  | .vinRise | .refclkDetect .. | .resetNAssert | .packageResetCmd .. | .dieResetCmd .. | .clusterResetCmd ..
  | .jtagDebugRequest .. =>
    Kinds.all
  | .tick | .periodSwitch =>
    Kinds.time ++ [.out, .csq, .slots, .launches, .viUsed, .mesh, .qe, .viBytes, .viPend, .fab, .eth, .tbRegs]
  | .tbTimeRead .. =>
    [.regs, .resp, .tbRegs]
  | .tickEnWrite .. | .restepWrite .. =>
    Kinds.log ++ [.resp, .tb, .tbRegs]
  | .ticksStop | .restep =>
    Kinds.time ++ [.out, .csq, .launches, .qe, .fab, .tbRegs]
  | .switchArm .. =>
    Kinds.log ++ [.resp, .tbRegs]
  | .ppsInEdge .. | .timeMessageRx .. =>
    [.regs, .free, .newtIrq, .fieldOps, .tb, .tbRegs]
  | .asSourceUpdate .. =>
    [.regs, .free, .newtIrq, .fieldOps, .tb, .eth, .tbRegs]
  | .sourceUpdateMissed | .acqTimeout | .electionSettle | .summitLost | .parentLost =>
    Kinds.time ++ [.tbRegs]
  | .ppsOutPulse =>
    Kinds.time ++ [.out]
  | .timeMessageSend =>
    Kinds.time ++ [.out, .fab, .tbRegs]
  | .csqStart .. | .csqStop .. =>
    Kinds.log ++ [.resp, .csq]
  | .csqImemWrite .. =>
    Kinds.log ++ [.resp, .ecc]
  | .csqFlagSet .. | .routeTableWrite .. | .sqDoorbell .. | .cqDoorbell .. | .dirtySwap .. | .ceAck ..
  | .pwrResAck .. | .rstResAck .. | .softwareCapture .. =>
    Kinds.log ++ [.resp]
  | .halt .. | .movi .. | .addi .. | .sub .. | .and .. | .or .. | .shl .. | .br .. | .loop .. | .waitt ..
  | .waittFire .. | .waite .. | .waiteEnd .. | .chk .. | .chkEnd .. | .overrunSkip .. | .sync ..
  | .syncDeadline .. | .fence .. | .fenceEnd .. | .yield .. =>
    Kinds.time ++ [.csq]
  | .launch .. =>
    Kinds.home ++ [.up, .tb, .slots, .launches, .nextLaunch, .unitAccept, .viUsed, .cache, .mesh, .iotlb, .fab,
    .ce, .pciOpen, .pciTag, .eth, .pwr]
  | .launchCompletion .. =>
    Kinds.home ++ [.up, .tb, .slots, .launches, .cache, .mesh, .iotlb, .fab, .pciOpen, .pciTag]
  | .slotExpire .. | .dirtySwapDone .. | .profileCommitDone | .refclkReturn .. | .pcieLinkUp ..
  | .mgtLinkChange .. =>
    [.regs]
  | .post .. =>
    Kinds.time ++ [.csq, .posts]
  | .flagDeliver =>
    Kinds.time ++ [.posts]
  | .syncRelease .. =>
    Kinds.log ++ [.csq]
  | .cairn .. =>
    Kinds.time ++ [.csq, .trace]
  | .grantEnd .. | .nocEpochSwitch =>
    Kinds.time ++ [.launches, .mesh]
  | .refreshWindowEnd .. | .refreshInterval .. | .stackTempRead .. | .replayEnd .. =>
    Kinds.time ++ [.mc]
  | .injectorLaunchWord .. =>
    Kinds.time ++ [.out, .launches]
  | .worldSwitchGo .. =>
    [.regs, .resp, .out, .hart, .die, .wbTag]
  | .worldSwitchGoWithdraw .. =>
    Kinds.time ++ [.hart]
  | .worldSwitchDone .. =>
    Kinds.log ++ [.out, .hart, .files, .die, .csq, .ecc, .cache, .streams, .slices, .wbTag, .faultN, .txIdle,
    .pwr]
  | .timerCompare .. =>
    Kinds.time
  | .wfi .. =>
    [.resp, .out, .hart, .die, .ecc, .cache, .wbTag]
  | .interruptWake .. =>
    [.hart]
  | .msiWrite .. =>
    Kinds.log ++ [.resp, .files]
  | .aplicSource .. =>
    Kinds.log ++ [.resp, .files, .aplic]
  | .lockstepMismatch .. =>
    Kinds.log ++ [.resp, .hart, .files, .aplic]
  | .sampleChosen .. =>
    [.regs, .hregs, .free, .hart]
  | .sampleAck .. | .xeKeyresAck .. | .viAdminAck .. | .ownResAck .. | .iommuInvresAck .. | .ksResAck .. =>
    [.regs, .resp]
  | .prefetchIssue .. | .ringBroadcast .. =>
    Kinds.log ++ [.resp, .out, .hart, .die, .csq, .ecc, .cache, .plru, .streams, .slices, .wbTag, .ring, .faultN,
    .txIdle]
  | .cboClean .. | .cboFlush .. | .cboInval .. =>
    Kinds.log ++ [.mem, .resp, .out, .hart, .die, .csq, .ecc, .mc, .poison, .cache, .wbTag, .sf, .sfPlru, .faultN,
    .txIdle]
  | .swopClean .. | .swopInvalidate .. | .swopCleanInvalidate .. =>
    Kinds.log ++ [.resp, .out, .csq, .ecc, .cache, .slices, .wbTag, .faultN, .txIdle]
  | .swopDone .. =>
    Kinds.log ++ [.out, .csq, .ecc, .cache, .slices, .wbTag, .faultN, .txIdle]
  | .pitonModeChange .. =>
    Kinds.log ++ [.resp, .out, .csq, .ecc, .cache, .pitonBusy, .slices, .wbTag, .faultN, .txIdle]
  | .pitonChangeDone .. =>
    Kinds.log ++ [.mem, .out, .csq, .ecc, .poison, .cache, .pitonBusy, .slices, .wbTag, .faultN, .txIdle]
  | .pitonAccess .. =>
    Kinds.log ++ [.mem, .resp, .out, .files, .die, .aplic, .links, .mesh]
  | .l3Eviction .. =>
    Kinds.log ++ [.out, .csq, .ecc, .cache, .plru, .slices, .wbTag, .faultN, .txIdle]
  | .rdS .. | .rdX .. | .upg .. | .wb .. | .cmo .. | .ncRd .. | .ncWr .. | .homeTxnStart ..
  | .filterAllocRetry .. | .rspI .. | .rspK .. | .rspId .. | .rspKd .. | .rspEvd .. =>
    Kinds.home
  | .snpS .. | .snpI .. | .snpC .. =>
    Kinds.log ++ [.out, .csq, .ecc, .cache, .slices, .faultN, .txIdle]
  | .dataS .. | .dataE .. | .gntX .. | .wbAck .. | .wbStale .. =>
    Kinds.log ++ [.resp, .out, .hart, .die, .csq, .ecc, .cache, .plru, .slices, .wbTag, .ring, .faultN, .txIdle]
  | .fack .. =>
    Kinds.log ++ [.out, .csq, .ecc, .homes, .sf, .sfPlru, .faultN, .txIdle]
  | .cmp .. =>
    Kinds.log ++ [.mem, .resp, .out, .hart, .die, .csq, .ecc, .mc, .poison, .cache, .plru, .slices, .wbTag, .ring,
    .sf, .sfPlru, .faultN, .txIdle]
  | .snoopTimeout .. =>
    Kinds.time ++ [.csq, .faultN, .txIdle]
  | .ioRd .. =>
    Kinds.log ++ [.mem, .resp, .out, .free, .files, .die, .aplic, .launches, .links, .mesh, .fab, .pciOpen,
    .pciTag, .tbRegs]
  | .ioCmp .. =>
    [.resp]
  | .cdpMsgFlit .. | .cdpIdleFlit .. | .cdpLnak .. | .cdpResume .. | .linkTrain .. | .paramExchange ..
  | .linkTrainDone .. | .dlHold .. | .dlRetrain .. | .dlClrRec .. =>
    Kinds.log ++ [.resp, .out, .files, .die, .aplic, .csq, .faultN, .txIdle, .links]
  | .exchangeTimeout .. =>
    Kinds.time ++ [.out, .die, .csq, .faultN, .txIdle, .links]
  | .laneParityThreshold .. | .sidebandLaneReport .. | .spareSwitch .. =>
    Kinds.log ++ [.out, .free, .links]
  | .linkNarrow .. =>
    Kinds.time ++ [.out, .free, .die, .csq, .faultN, .txIdle, .links]
  | .timeWordSend =>
    Kinds.time ++ [.out, .timeWordAt]
  | .timingLaneFail .. | .epochHoldClear | .drainComplete .. | .debugToken .. | .ethLinkChange .. | .vinLow
  | .refclkLoss | .pllUnlock .. =>
    [.regs, .newtIrq, .fieldOps]
  | .niInject .. =>
    Kinds.log ++ [.resp, .files, .aplic, .launches, .mesh]
  | .meshFlitHop .. =>
    Kinds.log ++ [.resp, .out, .files, .die, .aplic, .launches, .links, .mesh]
  | .epochSwitchRequest .. =>
    Kinds.log ++ [.resp, .mesh]
  | .drainRequest .. | .drainRelease .. =>
    Kinds.log ++ [.resp, .launches, .mesh]
  | .drainBegin .. =>
    [.regs, .newtIrq, .fieldOps, .launches, .mesh]
  | .mcRequest .. | .parityAlert .. | .mcRecoveryDone .. =>
    Kinds.log ++ [.mem, .resp, .out, .csq, .ecc, .mc, .poison, .homes, .sf, .sfPlru, .faultN, .txIdle]
  | .mcCommandIssue .. =>
    Kinds.home ++ [.up, .tb]
  | .mcReadReturn .. =>
    Kinds.log ++ [.mem, .out, .csq, .ecc, .mc, .poison, .homes, .sf, .sfPlru, .faultN, .txIdle]
  | .mcTrain .. =>
    [.regs, .newtIrq, .fieldOps, .mc]
  | .mcTrainDone .. =>
    Kinds.time ++ [.mem, .ecc, .mc, .poison]
  | .mcReqTest .. | .mcReqRecovery .. | .mcReqLeaveTest .. =>
    Kinds.log ++ [.resp, .free, .mc]
  | .xeKeyload .. | .xeKeyClear .. =>
    Kinds.log ++ [.resp, .xeKeys, .xeLoads]
  | .xeKeyloadDone .. =>
    [.regs, .xeKeys, .xeLoads]
  | .qeCopy .. | .qePush .. | .qePop .. | .qeDrop .. | .qeCommandComplete .. =>
    Kinds.home ++ [.free, .launches, .cache, .iotlb, .queues, .qe, .viBytes, .fab]
  | .sqFetch .. =>
    Kinds.home ++ [.cache, .iotlb, .qe]
  | .queueAdmit .. =>
    Kinds.log ++ [.resp, .free, .files, .aplic, .queues]
  | .spillWrite .. | .middleReadReturn .. =>
    Kinds.home ++ [.free, .cache, .iotlb, .queues]
  | .middleRead .. =>
    [.queues]
  | .queueEnable .. | .queueDisable .. | .queueFlush .. =>
    Kinds.log ++ [.resp, .queues]
  | .queueDiscardApply .. =>
    [.regs, .queues]
  | .viCreate .. | .viStart .. | .viStop .. | .viReset .. | .viDestroy .. | .viShare .. =>
    Kinds.home ++ [.launches, .releasing, .viUsed, .cache, .queues, .qe, .viBytes, .viPend, .viAdmin, .fab, .ce,
    .cectx, .pciOpen]
  | .viAdminDone .. =>
    [.regs, .newtIrq, .fieldOps, .csq, .ecc, .releasing, .viAdmin]
  | .viStopTimeout .. =>
    Kinds.time ++ [.releasing, .viAdmin]
  | .mboxManagerIndex .. | .mboxTenantIndex .. =>
    Kinds.home ++ [.cache, .iotlb]
  | .portSignalDetect .. =>
    [.regs, .out, .newtIrq, .fieldOps, .fab]
  | .fabTrainFlit .. | .fabPktFlit .. | .fabIdleFlit .. | .beaconRx .. =>
    Kinds.log ++ [.resp, .out, .files, .aplic, .launches, .qe, .fab, .tbRegs]
  | .heldTrainSend .. | .beaconTimer =>
    Kinds.time ++ [.out, .fab]
  | .fabLos .. =>
    Kinds.log ++ [.resp, .out, .tb, .files, .aplic, .launches, .qe, .fab, .tbRegs]
  | .fabLnak .. =>
    Kinds.log ++ [.resp, .out, .files, .aplic]
  | .beaconLoss .. =>
    Kinds.time ++ [.out, .launches, .qe, .fab, .tbRegs]
  | .fabForward .. | .remoteAccess .. =>
    Kinds.log ++ [.resp, .out, .files, .aplic, .launches, .fab]
  | .fabRd .. | .fabWr .. | .fabAtom .. | .fabDr .. | .fabMmsg .. =>
    Kinds.home ++ [.launches, .cache, .iotlb, .fab]
  | .fabMsg .. =>
    Kinds.home ++ [.free, .launches, .cache, .iotlb, .queues, .fab]
  | .fabRdRsp .. =>
    Kinds.home ++ [.launches, .cache, .iotlb, .qe, .viBytes, .fab]
  | .fabCmp .. | .fabAtomRsp .. | .fabRack .. | .fabNak .. =>
    Kinds.log ++ [.resp, .out, .files, .aplic, .launches, .qe, .fab]
  | .fabRequestTimeout .. =>
    Kinds.time ++ [.out, .launches, .qe, .fab]
  | .mgmtTx .. =>
    Kinds.home ++ [.launches, .cache, .fab]
  | .fabEpochArm .. | .profileCommit .. | .profileAck .. =>
    Kinds.log ++ [.resp, .fab]
  | .fabEpochSwitch =>
    Kinds.time ++ [.fab]
  | .ownRelease .. =>
    Kinds.log ++ [.resp, .releasing, .ownReq]
  | .ownReleaseDone .. =>
    Kinds.time ++ [.mem, .out, .csq, .launches, .ecc, .releasing, .poison, .slotKey, .cache, .slices, .wbTag,
    .faultN, .txIdle, .queues, .qe, .ce, .cectx, .pciOpen, .ownReq, .nv]
  | .ownReleaseTimeout .. =>
    Kinds.time ++ [.releasing, .ownReq]
  | .iommuInvalidate .. =>
    Kinds.log ++ [.resp, .iotlb, .invReq]
  | .iommuInvDone .. =>
    [.regs, .iotlb, .invReq]
  | .basecampBoot .. =>
    [.regs, .fieldOps, .slotKey, .ks]
  | .basecampHandoff =>
    [.regs, .mem, .ks]
  | .recoveryImage .. =>
    [.regs, .mem]
  | .gen .. | .derive .. | .importKey .. | .exportKey .. | .erase .. | .persist .. | .attest .. | .measure ..
  | .svnCommit .. =>
    Kinds.home ++ [.free, .slotKey, .cache, .nv, .ks]
  | .ksCommandDone .. =>
    [.regs, .ks]
  | .attTreeDone =>
    Kinds.home ++ [.cache, .nv, .ks]
  | .belayArm .. =>
    Kinds.log ++ [.resp, .belay]
  | .belayPet .. =>
    Kinds.log ++ [.resp, .files, .aplic, .belay]
  | .belayWarn =>
    Kinds.time ++ [.belay]
  | .ceGo .. =>
    Kinds.home ++ [.launches, .cache, .iotlb, .ce]
  | .ceKeyload .. =>
    Kinds.log ++ [.ce, .cectx]
  | .ceUnwrap .. | .ceProcess .. | .ceRestore .. =>
    Kinds.home ++ [.cache, .iotlb, .ce, .cectx]
  | .ceClear .. =>
    [.regs, .ce, .cectx]
  | .ceSave .. =>
    Kinds.home ++ [.cache, .iotlb, .viBytes, .ce, .cectx]
  | .ceSuspend .. =>
    Kinds.home ++ [.free, .cache, .iotlb, .viBytes, .ce, .cectx]
  | .ceResume .. =>
    Kinds.time ++ [.ce]
  | .ceCommandEnd .. =>
    Kinds.home ++ [.free, .launches, .cache, .iotlb, .viBytes, .ce, .cectx]
  | .pcieInboundTlp .. =>
    Kinds.home ++ [.free, .cache, .iotlb]
  | .pcieWindowAccess .. =>
    Kinds.log ++ [.resp, .out, .pciOpen, .pciTag]
  | .pcieCompletionRx .. =>
    Kinds.home ++ [.launches, .cache, .iotlb, .pciOpen]
  | .pcieCto .. =>
    Kinds.time ++ [.out, .launches, .pciOpen]
  | .pcieLinkDown .. | .pciRefclkLoss =>
    [.regs, .resp, .out, .newtIrq, .fieldOps, .launches, .pciOpen]
  | .ethFrameRx .. =>
    Kinds.log ++ [.resp, .free, .files, .aplic, .queues, .eth]
  | .ethFrameTx .. =>
    Kinds.home ++ [.free, .cache, .iotlb, .queues, .eth]
  | .gateEntryAdvance .. | .gateCycleRestart .. | .asSyncTimeout .. =>
    Kinds.time ++ [.eth]
  | .mgtFrame .. =>
    [.out]
  | .powerOnAction .. | .powerOffAction .. | .clockGateAction .. | .clockUngateAction .. =>
    Kinds.log ++ [.out, .hart, .die, .launches, .mc, .wbTag, .pwr]
  | .setCapAction .. =>
    Kinds.time ++ [.launches]
  | .powerActionDone .. =>
    Kinds.time ++ [.hregs, .mem, .out, .hart, .gftag, .die, .csq, .launches, .ecc, .mc, .poison, .cache, .plru,
    .streams, .pitonBusy, .slices, .wbTag, .sf, .faultN, .txIdle, .links, .ce, .cectx, .pciOpen, .pwr]
  | .powerMeasure .. =>
    [.regs, .pwr]
  | .capAdjust =>
    [.regs, .newtIrq, .fieldOps, .hart, .pwr]
  | .thermalRead .. =>
    [.regs, .newtIrq, .fieldOps, .faultN, .txIdle, .pwr]
  | .startDelayExpire | .softStartDone =>
    Kinds.time ++ [.pwr]
  | .resetNRelease =>
    [.pwr]
  | .dieResetDone =>
    Kinds.time ++ [.hregs, .mem, .out, .hart, .gftag, .die, .csq, .ecc, .releasing, .poison, .cache, .plru,
    .streams, .pitonBusy, .slices, .wbTag, .ring, .sf, .faultN, .txIdle, .links, .ownReq, .pwr]
  | .clusterResetDone =>
    Kinds.log ++ [.hregs, .out, .hart, .files, .gftag, .die, .csq, .ecc, .cache, .plru, .streams, .slices, .wbTag,
    .faultN, .txIdle, .pwr]
  | .tbHold .. | .tbRelease .. =>
    Kinds.log ++ [.resp, .out, .tb, .files, .aplic, .csq, .launches, .qe, .fab, .tbRegs]
  | .captureHartResume .. =>
    [.paused]
  | .captureWritten =>
    [.regs, .newtIrq, .fieldOps, .launches, .caps, .capBusy]

/-! ### What a command does -/

/-- The command answers a next state, and `p` holds of it. -/
def Completes (i : Instr) (s : State) (p : State → Prop) : Prop := ∃ t, exec i s = .next t ∧ p t

/-- Every kind of state outside `F` stands as it stood. -/
def SameBut (F : List Kind) (r s : State) : Prop := ∀ k, k ∉ F → k.same r s

/-- Every register outside `ks` stands as it stood. -/
def SameRegsBut (ks : List Nat) (r s : State) : Prop := ∀ k, k ∉ ks → s.rd k = r.rd k

/-- The registers of the blocks ERR, CRN and PMC, where records, events, captures and counts are kept. -/
def recordKey (k : Nat) : Prop := 0x90000 ≤ k ∧ k < 0xC0000

/-- Every register outside `ks` and outside the blocks ERR, CRN and PMC stands as it stood. -/
def SameRegsButRecords (ks : List Nat) (r s : State) : Prop := ∀ k, k ∉ ks → ¬ recordKey k → s.rd k = r.rd k

/-- No write of this cycle has set the one-bit field (R11). -/
abbrev NotAsked (s : State) (l : Loc) : Prop := SMap.get s.fieldOps.asked l.key &&& fieldMask l.lo l.width = 0

/-- The injector reaches a file. -/
def InjDest.hits : InjDest → Bool
  | .file _ _ => true
  | _ => false

/-- Hart `h` stands as `x` says; its core cycles count on (R122). -/
abbrev HartNow (h : Nat) (x : Hart) (t : State) : Prop :=
  t.hartSt h = { x with cycles := (t.hartSt h).cycles, cycAt := (t.hartSt h).cycAt }

/-- What a hart's write-combining buffer held in `s`, if anything, has left as one byte-masked write (R147). -/
abbrev WcEmptied (h : Nat) (s t : State) : Prop :=
  t.out = s.out ++ (s.hartSt h).wc.toList.map (fun w => .coh .ncWr (0x100 + s.homeOf w.line)
    { sliceMsg (hartDie h) w.line w.sealed w.reserved with
      txn := SMap.get s.wbTag (64 + 4 * hartDie h + sliceOf w.line), mask := w.mask, data := w.data })

/-- The package time runs (R421) and the count, and the instant `ns`, lie in its lower half. -/
abbrev TimeRuns (s : State) (ns : Nat) : Prop :=
  s.get L.PWR_RST_HOLD.TB = 0 ∧ s.tb.ns < 2 ^ 63 ∧ s.tb.frac < 2 ^ 42 ∧ ns < 2 ^ 63

/-! ### A sequencer about to execute -/

/-- Sequencer `q` is about to execute the legal word `i` with opcode `op`, whose condition holds and whose memory word
carries no error. -/
abbrev CsqFits (s : State) (q op : Nat) (i : CsqWord) : Prop :=
  s.csqIdle q = true ∧ csqFields (s.rd (R.CSQ_IMEM q (s.pcOf q))) = i ∧ i.op = op ∧ csqLegal q i = true ∧
    s.csqCond q i.cond = true ∧ SMap.get s.ecc (R.CSQ_IMEM q (s.pcOf q)) = 0

/-- The state in which sequencer `q` begins its next instruction. -/
abbrev State.csqBegin (s : State) (q : Nat) : State := s.elapseUntil (s.csqOf q).readyAt

/-- Sequencer `q` has gone from `s` to the next address, runs, and is ready `n` ns after the instant reached. -/
abbrev CsqMovesOn (q n : Nat) (s t : State) : Prop :=
  t.pcOf q = s.pcOf q + 1 ∧ t.csqState q = stRun ∧ t.csqOf q = { s.csqOf q with wait := .none, readyAt := t.up + n }

/-- Sequencer `q` waits for `w` where it stood. -/
abbrev CsqWaits (q : Nat) (w : Wait) (s t : State) : Prop :=
  t.pcOf q = s.pcOf q ∧ t.csqState q = stWait ∧ t.csqOf q = { s.csqOf q with wait := w }

/-- No other sequencer launches into target `n` before `q` in the nanosecond of `s` (R77). -/
abbrev FirstToLaunch (q n : Nat) (s : State) : Prop := ∀ p, p ∈ launchesFirst n q → s.launchDue p ≠ some n

/-- A register instruction has written `v` to its destination: Z says whether it is 0, E stays, and the sequencer moves on
in one nanosecond (R79). -/
abbrev CsqWrites (q : Nat) (i : CsqWord) (v : Nat) (s t : State) : Prop :=
  CsqMovesOn q 1 s t ∧ t.creg q i.rd = v ∧ t.get (L.CSQ_STATUS.Z q) = (if v = 0 then 1 else 0) ∧
    t.get (L.CSQ_STATUS.E q) = s.get (L.CSQ_STATUS.E q) ∧ SameRegsButRecords [R.CSQ_STATUS q, R.CSQ_CREG q i.rd] s t

/-- The sequencer has faulted at `pc` with a code (R97). -/
abbrev CsqFaulted (q code pc : Nat) (t : State) : Prop :=
  t.csqState q = stFaulted ∧ t.get (L.CSQ_FAULT.CODE q) = code ∧ t.get (L.CSQ_FAULT.PC q) = pc ∧
    t.get (L.CSQ_FAULT_FRAME.FRAME q) = t.frame ∧ t.get (L.CSQ_EVT.FAULT q) = 1 ∧ (t.csqOf q).wait = .none

/-- The command leads from `s` to `u`, and no line of HBM that it accesses must wait at its home (R33, R173). -/
abbrev NoWait (s u : State) : Prop := s.devAsked = none ∧ u.devAsked = none

/-- A CHK of handle `h` with deadline `d` was missed (R96): the miss is recorded, Z is 0 and E is 1, and the sequencer goes on,
looks for the next YIELD, or halts, as OVR_POLICY says. -/
abbrev CsqMissed (q h d : Nat) (s t : State) : Prop :=
  t.get (L.CSQ_STATUS.Z q) = 0 ∧ t.get (L.CSQ_STATUS.E q) = 1 ∧ t.get (L.CSQ_EVT.CHK_MISS q) = 1 ∧
    t.get (L.CSQ_OVR_CNT.CHK_MISS q) = min (s.get (L.CSQ_OVR_CNT.CHK_MISS q) + 1) (2 ^ 32 - 1) ∧
    t.get (L.CSQ_OVR_INFO.KIND q) = 0 ∧ t.get (L.CSQ_OVR_INFO.PC q) = s.pcOf q ∧
    t.get (L.CSQ_OVR_INFO.TARGET q) = bits h 55 48 ∧ t.get (L.CSQ_OVR_INFO.DEADLINE q) = d ∧
    t.get (L.CSQ_OVR_FRAME.FRAME q) = t.frame ∧
    (s.get (L.CSQ_CTRL.OVR_POLICY q) = 0 → CsqMovesOn q 1 s t) ∧
    (s.get (L.CSQ_CTRL.OVR_POLICY q) = 1 → t.csqState q = stRun ∧ t.pcOf q = s.pcOf q ∧
      t.csqOf q = { s.csqOf q with wait := .none, skip := some (t.up + 2, s.pcOf q) }) ∧
    (s.get (L.CSQ_CTRL.OVR_POLICY q) = 2 → t.csqState q = stHalted ∧ t.pcOf q = s.pcOf q)

/-- A write of CSQ_CTRL with a reserved policy has left the field of that policy as it was, and written the others (R93). -/
abbrev PoliciesKept (q : Nat) (v : Word) (s t : State) : Prop :=
  t.get (L.CSQ_CTRL.OVR_POLICY q) = (if fieldOf v 6 2 = 3 then s.get (L.CSQ_CTRL.OVR_POLICY q) else fieldOf v 6 2) ∧
    t.get (L.CSQ_CTRL.FRM_POLICY q) = (if fieldOf v 8 2 = 3 then s.get (L.CSQ_CTRL.FRM_POLICY q) else fieldOf v 8 2) ∧
    t.get (L.CSQ_CTRL.HOLD q) = fieldOf v 2 1 ∧ t.get (L.CSQ_CTRL.SW_ENTRY_EN q) = fieldOf v 11 1

/-- The operation of a launch that its unit holds starts. -/
abbrev State.unitStarts (u : State) (l : Launch) : State := (u.updateLaunch l.id (fun l => { l with held := false })).unitStart l

/-- The agent can make the access, and the command names the tags that its place gives it (R18, R317). -/
abbrev Sends (s : State) (c : Issuer) : Prop := s.agentIn c = true ∧ s.tagged c = c

/-- A command that is one agent's access to a register or a window: its sender, and what it does for each sender. -/
def access : Instr → Option (Issuer × (Issuer → State → Host.Outcome State Fault Refusal))
  | .tbTimeRead c => some (c, execTbTimeRead)
  | .tickEnWrite c value => some (c, fun c => execTickEnWrite c value)
  | .switchArm c value => some (c, fun c => execSwitchArm c value)
  | .restepWrite c value => some (c, fun c => execRestepWrite c value)
  | .csqStart c q value => some (c, fun c => execCsqStart c q value)
  | .csqStop c q value => some (c, fun c => execCsqStop c q value)
  | .csqImemWrite c q a value => some (c, fun c => execCsqImemWrite c q a value)
  | .csqFlagSet c q value => some (c, fun c => execCsqFlagSet c q value)
  | .msiWrite c addr data => some (c, fun c => execMsiWrite c addr data)
  | .swopClean c die value => some (c, fun c => execSwopClean c die value)
  | .swopInvalidate c die value => some (c, fun c => execSwopInvalidate c die value)
  | .swopCleanInvalidate c die value => some (c, fun c => execSwopCleanInvalidate c die value)
  | .pitonModeChange c die slice value => some (c, fun c => execPitonModeChange c die slice value)
  | .dlHold c link value => some (c, fun c => execDlHold c link value)
  | .dlRetrain c link value => some (c, fun c => execDlRetrain c link value)
  | .dlClrRec c link value => some (c, fun c => execDlClrRec c link value)
  | .routeTableWrite c node plane bank dst value => some (c, fun c => execRouteTableWrite c node plane bank dst value)
  | .epochSwitchRequest c value => some (c, fun c => execEpochSwitchRequest c value)
  | .drainRequest c node value => some (c, fun c => execDrainRequest c node value)
  | .drainRelease c node value => some (c, fun c => execDrainRelease c node value)
  | .mcReqTest c mc value => some (c, fun c => execMcReqTest c mc value)
  | .mcReqRecovery c mc value => some (c, fun c => execMcReqRecovery c mc value)
  | .mcReqLeaveTest c mc value => some (c, fun c => execMcReqLeaveTest c mc value)
  | .xeKeyload c value => some (c, fun c => execXeKeyload c value)
  | .xeKeyClear c value => some (c, fun c => execXeKeyClear c value)
  | .xeKeyresAck c value => some (c, fun c => execXeKeyresAck c value)
  | .sqDoorbell c d value => some (c, fun c => execSqDoorbell c d value)
  | .cqDoorbell c d value => some (c, fun c => execCqDoorbell c d value)
  | .queueEnable c q value => some (c, fun c => execQueueEnable c q value)
  | .queueDisable c q value => some (c, fun c => execQueueDisable c q value)
  | .queueFlush c q value => some (c, fun c => execQueueFlush c q value)
  | .viCreate c k value => some (c, fun c => execViCreate c k value)
  | .viStart c k value => some (c, fun c => execViStart c k value)
  | .viStop c k value => some (c, fun c => execViStop c k value)
  | .viReset c k value => some (c, fun c => execViReset c k value)
  | .viDestroy c k value => some (c, fun c => execViDestroy c k value)
  | .viShare c k value => some (c, fun c => execViShare c k value)
  | .viAdminAck c k value => some (c, fun c => execViAdminAck c k value)
  | .mboxManagerIndex c v value => some (c, fun c => execMboxManagerIndex c v value)
  | .mboxTenantIndex c v value => some (c, fun c => execMboxTenantIndex c v value)
  | .dirtySwap c v value => some (c, fun c => execDirtySwap c v value)
  | .remoteAccess c addr k reserved => some (c, fun c => execRemoteAccess c addr k reserved)
  | .mgmtTx c value => some (c, fun c => execMgmtTx c value)
  | .fabEpochArm c value => some (c, fun c => execFabEpochArm c value)
  | .profileCommit c value => some (c, fun c => execProfileCommit c value)
  | .profileAck c value => some (c, fun c => execProfileAck c value)
  | .ownRelease c value => some (c, fun c => execOwnRelease c value)
  | .ownResAck c value => some (c, fun c => execOwnResAck c value)
  | .iommuInvalidate c value => some (c, fun c => execIommuInvalidate c value)
  | .iommuInvresAck c value => some (c, fun c => execIommuInvresAck c value)
  | .gen c value => some (c, fun c => execGen c value)
  | .derive c value => some (c, fun c => execDerive c value)
  | .importKey c value => some (c, fun c => execImportKey c value)
  | .exportKey c value => some (c, fun c => execExportKey c value)
  | .erase c value mramOk => some (c, fun c => execErase c value mramOk)
  | .persist c value mramOk => some (c, fun c => execPersist c value mramOk)
  | .attest c value mramOk => some (c, fun c => execAttest c value mramOk)
  | .measure c value => some (c, fun c => execMeasure c value)
  | .svnCommit c value mramOk => some (c, fun c => execSvnCommit c value mramOk)
  | .ksResAck c value => some (c, fun c => execKsResAck c value)
  | .belayArm c value => some (c, fun c => execBelayArm c value)
  | .belayPet c value => some (c, fun c => execBelayPet c value)
  | .ceGo c ctx value => some (c, fun c => execCeGo c ctx value)
  | .ceAck c ctx value => some (c, fun c => execCeAck c ctx value)
  | .pcieWindowAccess c addr k => some (c, fun c => execPcieWindowAccess c addr k)
  | .pwrResAck c value => some (c, fun c => execPwrResAck c value)
  | .packageResetCmd c value => some (c, fun c => execPackageResetCmd c value)
  | .dieResetCmd c value => some (c, fun c => execDieResetCmd c value)
  | .clusterResetCmd c value => some (c, fun c => execClusterResetCmd c value)
  | .rstResAck c value => some (c, fun c => execRstResAck c value)
  | .tbHold c value => some (c, fun c => execTbHold c value)
  | .tbRelease c value => some (c, fun c => execTbRelease c value)
  | .softwareCapture c value => some (c, fun c => execSoftwareCapture c value)
  | _ => none

/-- The access was answered by an error response, and no register outside the records has changed (R32). -/
abbrev Refused (s t : State) : Prop := t.resp = .error ∧ SameRegsButRecords [] s t

/-- The package has been reset (R414, R417, Table 17.1): every register but the causes at its reset value, nothing under
way, the MRAM and the key partition kept, and the bits of the trigger set. -/
abbrev AfterPackageReset (cause : Nat) (s t : State) : Prop :=
  t.rd R.PWR_RST_CAUSE = s.rd R.PWR_RST_CAUSE ||| BitVec.ofNat 64 cause ∧
    SameRegsBut [R.PWR_RST_CAUSE, R.WLD_BELAY_CAUSE] State.reset t ∧ t.hregs = [] ∧ t.mem = s.mramCells ∧
    t.tb = State.reset.tb ∧ t.csq = [] ∧ t.launches = [] ∧ t.cache = [] ∧ t.nv = s.nv ∧ t.boots = s.boots + 1 ∧
    t.faultN = false ∧ t.pwr.thermN = false

/-! ### Caches and coherence -/

/-- No structure of the die holds the line. -/
abbrev NoCopy (s : State) (d l : Nat) : Prop := ∀ u, u < 49 → s.findWay d u l = none

/-- The slice of the line has opened a transaction with its home for an access, under its next identifier (R165 to R167). -/
abbrev SliceAsks (d : Nat) (a : Access) (st : SliceSt) (k : CohKind) (s t : State) : Prop :=
  t.sliceTxn d a.line = { (default : SliceTxn) with st := st, waiting := [a] } ∧
    t.out = s.out ++ [.coh k (0x100 + s.homeOf a.line) { sliceMsg d a.line a.sealed a.reserved with
      txn := SMap.get s.wbTag (64 + 4 * d + sliceOf a.line), flag := a.kind == .fetch }]

/-- No word that a lookup of the line in the die reads carries a code error (R143). -/
abbrev NoMarks (s : State) (d l : Nat) : Prop := ∀ p, p ∈ s.ecc → s.dieWord d l p.1 = false

/-- The slice has written a modified line back to its home with a world's tag; with `keep` a clean copy stays (R165 to R167). -/
abbrev SliceWrites (d l : Nat) (keep : Bool) (data : List Nat) (poison sealed : Bool) (s t : State) : Prop :=
  (t.sliceTxn d l).st = (if keep then .mkA else .miA) ∧ (t.sliceTxn d l).data = data ∧
    t.out = s.out ++ [.coh .wb (0x100 + s.homeOf l) { sliceMsg d l sealed false with
      txn := SMap.get s.wbTag (64 + 4 * d + sliceOf l), flag := keep, tag := SMap.get s.wbTag (4 * d + sliceOf l),
      data := data, poison := poison }]

/-- The access `a` of a hart reaches its caches with the tags `b`: the hart and its die take part, it raises no exception, its
write-combining buffer is empty, and no code error lies in its way (R121, R127, R129, R143). -/
abbrev RingTakes (s : State) (a b : Access) : Prop :=
  b = s.accessTagged a ∧ ¬ s.stopped ∧ s.accessOk a = true ∧ s.accessFault a = none ∧ (s.hartSt a.h).wc = none ∧
    NoMarks s (hartDie a.h) a.line

/-- An LR has read its line (R121): the number of 4 or 8 bytes, sign-extended. -/
abbrev LrAnswers (a : Access) (wide : Bool) (data : List Nat) (t : State) : Prop :=
  t.resp = .data (amoResult (8 * (if wide then 8 else 4)) (accWord a data (if wide then 8 else 4)))

/-- A maintenance instruction of a hart is performed: the hart and its die take part, the mode may use it, the PMP permits it,
the hart's write-combining buffer is empty, and no code error lies in its way (R121, R143, R153). -/
abbrev CboRuns (s : State) (h inst : Nat) (md : PrivMode) (l : Nat) : Prop :=
  s.hartActs h = true ∧ ¬ s.stopped ∧ s.dieIn (hartDie h) = true ∧ s.cboFault h inst md = none ∧
    (s.pmpFault h md (64 * l) 64 pmpW = false ∨ inst ≠ 3 ∧ s.pmpFault h md (64 * l) 64 pmpR = false) ∧
    NoMarks s (hartDie h) l ∧ (s.hartSt h).wc = none

/-- No masked write of the die on the line is still to be performed (R147, R153). -/
abbrev NoMaskedWrite (s : State) (d l : Nat) : Prop := ∀ r, r ∈ (s.dieSt d).sent → r.op = none → r.line ≠ l

/-- A byte of Piton memory serves an access of an issuer (R158 to R161): it lies in a way in Piton mode, neither changing nor
released, of the issuer's world, and is not poisoned. -/
abbrev PitonByte (s : State) (c : Issuer) (d x : Nat) : Prop :=
  ∃ sl w o, sl < 4 ∧ 4 ≤ w ∧ w < 16 ∧ o < 0xC0000 ∧ x = pitonBase d sl w + o ∧ s.dieAway d = false ∧
    (s.get (L.WLD_L3WAY.PITON d sl)).testBit (w - 4) = true ∧ (SMap.get s.pitonBusy (4 * d + sl)).testBit w = false ∧
    s.isReleasing (.l3 (64 * d + 16 * sl + w)) = false ∧ s.wayOwner d sl w = c.sealed ∧ SMap.get s.poison (x / 64) = false

/-- An access reaches the Piton memory of a die of Skelura make, and the PMP permits it (R18, R121, R159). -/
abbrev PitonReached (s : State) (c : Issuer) (a : PAddr) (k : PitonKind) (d : Nat) : Prop :=
  d < 12 ∧ 0x10000000000 + 0x10000000 * d ≤ a.toNat ∧ a.toNat < 0x10000000000 + 0x10000000 * d + 0x2400000 ∧
    (s.dieSt d).otherMake = false ∧ s.pitonReach c d = true ∧ s.pmpStops c a.toNat (pitonShape k).1 (pitonPmp k) = false

/-- An access is aligned to its size; one of a vector is longer than its elements (R160). -/
abbrev PitonAligned (a : PAddr) (k : PitonKind) : Prop := (pitonShape k).1 ≤ 8 → a.toNat % max 1 (pitonShape k).1 = 0

/-- An aligned access to Piton memory every byte of which serves it (R158 to R161). -/
abbrev PitonServes (s : State) (c : Issuer) (a : PAddr) (k : PitonKind) (d : Nat) : Prop :=
  PitonReached s c a k d ∧ c.agent ≠ .device ∧ PitonAligned a k ∧ ∀ i, i < (pitonShape k).1 → PitonByte s c d (a.toNat + i)

/-- A message about its line finds the domain running and no code error at its home, which refuses it under no code of
Table 7.9. -/
abbrev HomeHears (s : State) (k : CohKind) (m : CohMsg) : Prop :=
  ¬ s.stopped ∧ s.homeEcc (s.homeOf m.line) m.line = false ∧ s.nakCode (s.homeOf m.line) k m = none

/-- A request that its home can open at once (R173): the line has no transaction and no request waits for it, and there is an
entry. -/
abbrev HomeOpens (s : State) (k : CohKind) (m : CohMsg) : Prop :=
  HomeHears s k m ∧ s.txnOn (s.homeOf m.line) m.line = none ∧
    (s.home (s.homeOf m.line)).waiting.any (fun p => p.2.line == m.line) = false ∧ s.entryFor (s.homeOf m.line) k m = true

/-- The snoops of home `h` for a request, one copy for the link of each die that carries the line's slice, in ascending order
(R173, R202, R212). -/
abbrev snoopsOf (s : State) (h : Nat) (k : CohKind) (mask : Nat) (m : CohMsg) (disc : Bool) : List Out :=
  (onesBelow 12 mask).map (fun d =>
    .snoop k d ((s.carrier d (sliceOf m.line)).getD (4 * d + sliceOf m.line)) { homeMsg h m with flag := disc })

/-- Home `h` has opened a transaction for the request (R173): its snoops left, its memory read after them, and it has not
replied; nothing but the home's own registers and the records has changed beside it. -/
abbrev HomeOpened (h : Nat) (m : CohMsg) (mask : Nat) (sk : CohKind) (disc : Bool) (read : Option Nat) (s t : State) : Prop :=
  (t.txnOn h m.line).map (fun x => (x.req, x.snoops, x.snoopKind, x.needMem, x.replied)) =
      some (m, mask, sk, read.isSome, false) ∧
    (s.out ++ snoopsOf s h sk mask m disc ++ read.toList.map (fun c => .mcRead (s.mcOf m.line) c m.line (s.home h).seq)) <+:
      t.out ∧
    t.mem = s.mem ∧ SameRegsButRecords [R.HA_STATUS h, R.HA_SF_STAT h, R.HA_SF_CNT h] s t

/-- A response answers a snoop of the transaction `x` that other dies still have to answer, and no data of the transaction
waits for WQ (R173, R175). -/
abbrev SnoopAnswered (s : State) (m : CohMsg) (x : HomeTxn) : Prop :=
  HomeHears s .rspI m ∧ s.txnOn (s.homeOf m.line) m.line = some x ∧ x.toWrite = none ∧
    x.snoops.testBit m.src = true ∧ clearBit x.snoops m.src ≠ 0 ∧ x.held = [] ∧
    ∀ p, p ∈ (s.home (s.homeOf m.line)).waiting ++ (s.home (s.homeOf m.line)).held → p.1 = .wb → p.2.line ≠ m.line

/-- Memory takes the data that a response brings for the transaction `x` (R168, R230). -/
abbrev DataTaken (s : State) (m : CohMsg) (x : HomeTxn) : Prop :=
  x.kind ≠ .ncWr ∧ s.writeRoom m.line = true ∧ x.req.line = m.line ∧ (s.homeWrite x.req m.data m.poison).2 = true

/-- The message finds a die of Skelura make in a running domain, without a code error in the line's way. -/
abbrev DieHears (s : State) (d : Nat) (m : CohMsg) : Prop :=
  ¬ s.stopped ∧ (s.dieSt d).otherMake = false ∧ NoMarks s d m.line

/-- No request that the die sent to a home ends with the message (R172). -/
abbrev NotOfDie (s : State) (d : Nat) (m : CohMsg) : Prop :=
  ∀ r, r ∈ (s.dieSt d).sent → r.waits = false → ¬ (r.txn = m.txn ∧ r.line = m.line)

/-- The FACK by which a die takes a reply (Table 7.5). -/
abbrev fackOf (s : State) (d : Nat) (m : CohMsg) : Out :=
  .coh .fack (0x100 + s.homeOf m.line) { m with src := d, flag := false, data := [], poison := false, tag := 0 }

/-- The coherent domain has stopped (R181, R433): every home, the counters and the transmitters, with the fatal capture. -/
abbrev FatallyStopped (t : State) : Prop :=
  (∀ h, h < 32 → t.get (L.HA_STATUS.STOPPED h) = 1) ∧ t.get L.PMC_CTL.FREEZE = 1 ∧ t.faultN = true ∧ t.txIdle = true ∧
    (t.get L.CRN_STATUS.FULL).testBit 3 = true

/-- A die answers its line's home (R169). -/
abbrev DieAnswers (d : Nat) (k : CohKind) (m : CohMsg) (x : Option CLine) (tag : Nat) (s t : State) : Prop :=
  t.out = s.out ++ [.coh k (0x100 + s.homeOf m.line)
    { m with src := d, flag := false, tag := tag, data := (x.getD default).data, poison := (x.getD default).poison }]

/-! ### Die links -/

/-- As `SameRegsButRecords`, and the reserved-schedule records may have changed too (R119). -/
abbrev SameRegsButScheds (ks : List Nat) (r s : State) : Prop :=
  ∀ k, k ∉ ks → ¬ recordKey k → (∀ q, q < 32 → k ≠ R.CSQ_SCHED_STAT q ∧ k ≠ R.CSQ_SCHED_FRAME q) → s.rd k = r.rd k

/-- A good flit whose turn it is arrives on the ACTIVE link `n`, of a defined KIND and with no reserved bit set. -/
abbrev FlitTaken (s : State) (n w : Nat) : Prop :=
  s.dlState n = dlActive ∧ cdpGood (s.linkHalf n) w = true ∧ cdpSeq w = (s.link n).rxSeq ∧ cdpKind w ≤ 3 ∧ cdpReserved w = false

/-- Link `n` has no message to send and owes no acknowledgement. -/
abbrev LinkQuiet (s : State) (n : Nat) : Prop :=
  (s.link n).txWait = [] ∧ (s.link n).resend = [] ∧ (s.link n).txPart = none ∧ (s.link n).due = false

/-- What a good flit in its turn makes of the link: its acknowledgement and credits are taken (R187, R189), and it counts as
received in order. -/
abbrev Link.took (x : Link) (w : Nat) : Link :=
  let covered := fun (q : Nat) => (cdpAck w).any (fun a => decide ((a + 4096 - q) % 4096 < 2048))
  { x with
    copyGood := x.copyGood + 1, rxFail := none
    rxSeq := if consumesSeq (cdpKind w) then (x.rxSeq + 1) % 4096 else x.rxSeq
    rxAny := x.rxAny || consumesSeq (cdpKind w)
    replay := x.replay.filter (fun f => !covered f.seq)
    txRefused := x.txRefused.filter (fun q => !covered q)
    credit := (List.range 4).map (fun v => x.credit.getD v 0 + (cdpCredit w).getD v 0) }

/-- The flit that a link in condition `x` sends next (R186): its SEQ, what it acknowledges, and the units it returns. -/
abbrev Link.flit (x : Link) (half : Option Bool) (kind payload : Nat) : Nat :=
  cdpFlit half kind x.txSeq (if x.rxAny then some ((x.rxSeq + 4095) % 4096) else none)
    ((List.range 4).map (fun v => min 15 (x.owed.getD v 0))) payload

/-- Link `n` sends an LNAK from the condition `x` (R187, R191). -/
abbrev LnakSent (s : State) (n : Nat) (x : Link) (code seq : Nat) (t : State) : Prop :=
  t.out = s.out ++ [.cdpFlit n (x.flit (s.linkHalf n) kindLnak (lnakPayload code seq))]

/-- A message of a die whose fields fit Table 8.3: a defined opcode, and the units that opcode and DATA call for, or the request
that an IO_CMP answers (R188). -/
abbrev MsgFits (y : Die) (m : CdpMsg) : Prop :=
  cdpOpcodeOk m.opcode = true ∧ m.source < 256 ∧ m.tag < 256 ∧ m.txn < 65536 ∧ m.gen < 256 ∧ (∀ v ∈ m.vi, v < 256) ∧
    m.body.length = cdpTail m.opcode m.data (y.reads.contains m.txn) ∧ ∀ u ∈ m.body, u < 2 ^ 128

/-- The hub offers its half of a parameter exchange (Table 8.6): version 1.0, the die's site, its buffer units and its lane
records; `force` has both ends train again first (R193, R195). -/
abbrev HubOffers (s : State) (n : Nat) (force : Bool) (t : State) : Prop :=
  t.out = s.out ++ [.dlOffer n force ⟨1, 0, n / 4, [16, 32, 32, 32], s.get (L.DL_LANES_RX.FAILED n), s.get (L.DL_LANES_TX.FAILED n)⟩]

/-- The units that messages take of a channel. -/
abbrev unitsOn (ms : List CdpMsg) (v : Nat) : Nat := ((ms.filter (fun m => m.vc.val == v)).map unitCount).sum

/-- What a link has still to bring to the die, in order: sent without acknowledgement, under way, and to be sent again. -/
abbrev Link.unsent (x : Link) : List (Nat × CdpMsg) :=
  x.replay.flatMap TxFlit.ends ++ x.txPart.toList.map (fun p => (p.1, p.2.1)) ++ x.resend

/-! ### Memory controllers -/

/-- The state in which a pseudo-channel issues its next command. -/
abbrev State.mcTurn (s : State) (m p : Nat) : State := s.elapseUntil (SMap.get (s.mcSt m).busy p)

/-- Controller `m` is in normal service and pays no refresh now, WQ has room, and no transaction of its home waits. -/
abbrev McReady (s : State) (m p : Nat) : Prop :=
  ¬ s.stopped ∧ (s.mcSt m).held = [] ∧ s.mcMode m = mcNormal ∧ s.get (L.MC_STATUS.REPLAY m) = 0 ∧ (s.mcTurn m p).windowRefreshDue m = false ∧
    (s.mcSt m).wq.length < 64 ∧ (s.home (m / 2)).txns = []

/-- The sweeps of every lane reach MIN_EYE. -/
abbrev EyesPass (s : State) (m : Nat) (lanes : List LaneEye) : Prop :=
  lanes.length = 8 ∧ ∀ x ∈ lanes, s.get (L.MC_TRAIN_CFG.MIN_EYE m) ≤ x.rdWidth ∧ s.get (L.MC_TRAIN_CFG.MIN_EYE m) ≤ x.wrWidth

/-- The injected parity error of training counts as an alert and as its replay. -/
abbrev AlertInjected (s : State) (m : Nat) (t : State) : Prop :=
  t.get (L.MC_EVT.PAR_ALERT m) = 1 ∧ t.get (L.MC_STATUS.REPLAY m) = 0 ∧
    t.get (L.MC_PAR_CNT.ALERT m) = min (s.get (L.MC_PAR_CNT.ALERT m) + 1) (2 ^ 32 - 1) ∧
    t.get (L.MC_PAR_CNT.REPLAY m) = min (s.get (L.MC_PAR_CNT.REPLAY m) + 1) (2 ^ 32 - 1)

/-! ### Queue engines and instances -/

/-- Engine `e` holds the one command `x`, of a channel, untouched and next to start. -/
abbrev QeHolds (s : State) (e op : Nat) (x : QCmd) : Prop :=
  s.qeNext e = some (.inl x) ∧ (s.qeOf e).cmds = [x] ∧ x.op = op ∧ x.queue < 512 ∧ x.started = false ∧ x.fin = false ∧
    (s.qeJudged e x).status = 0 ∧ x.remote = false ∧ x.rest = [] ∧ x.pos = 0 ∧ x.bytes = 0 ∧ x.pkts = 0 ∧ x.issuer.vi = none

/-- The state in which the engine begins that command. -/
abbrev State.qeBegun (s : State) (e : Nat) (x : QCmd) : State :=
  (s.setQe e { s.qeOf e with starts := (s.qeOf e).starts + 1, lastCh := x.ch % 16 }).setQCmd e
    { x with started := true, seq := (s.qeOf e).starts }

/-- What that command reads, and the state the read leaves. -/
abbrev State.qeRead (s : State) (e : Nat) (x : QCmd) (n : Nat) : State × DevAns :=
  (s.qeBegun e x).ioRead (rsvSrc (qeSrc e) x.rsv) x.issuer x.src n

/-- Its bytes written to its destination. -/
abbrev State.qeMove (s : State) (e : Nat) (x : QCmd) : State × Bool :=
  (s.qeRead e x x.len).1.store (rsvSrc (qeSrc e) x.rsv) x.issuer x.dst (s.qeRead e x x.len).2.data (s.qeRead e x x.len).2.poison

/-- The piece of the one-entry packet `a` written to the destination of a POP: its header, then its entry (R253). -/
abbrev State.qePiece (s : State) (e : Nat) (x : QCmd) (a : QEntry) : State × Bool :=
  ((s.qeBegun e x).takeEntries (512 * e + x.queue) 1).1.store (rsvSrc (qeSrc e) x.rsv) x.issuer x.dst
    (bytesLE 8 (a.bytes + (if a.sop then 1 <<< 32 else 0) + 1 <<< 33) ++ List.replicate 56 0 ++ a.data) false

/-- The result record of a command, written where it asks for one, once the pages that it wrote through the fabric are marked (R255,
R279). -/
abbrev State.qeRecord (s : State) (e : Nat) (x : QCmd) : State × Bool :=
  let s := s.when (x.far = true) (fun s => s.markDirty x.issuer x.dst x.pos)
  if x.res ≠ 0 ∧ x.status ≠ 1 then s.store (rsvSrc (qeSrc e) x.rsv) x.issuer x.res (bytesLE 8 x.record) false else (s, true)

/-- The command has ended and has left its engine. -/
abbrev State.qeGone (s : State) (e : Nat) (x : QCmd) : State :=
  let t := (s.qeEnded e x).1
  t.setQe e { t.qeOf e with cmds := (t.qeOf e).cmds.filter (fun c => c.id != x.id) }

/-- What the channel `ch` fetches (R257). -/
abbrev State.chRead (s : State) (ch : Nat) : State × DevAns :=
  s.ioRead (qeSrc (ch / 16)) (s.tags (s.ownerSealed (.qe (ch / 16))) (s.viOf (.ch ch)))
    (0x1000 * s.get (L.QE_CH_SQ.BASE (ch / 16) (ch % 16)) +
      64 * (s.get (L.QE_CH_IDX.SQ_HEAD (ch / 16) (ch % 16)) % 2 ^ s.get (L.QE_CH_SQ.LOG2N (ch / 16) (ch % 16)))) 64

/-- Queue `q` takes entries directly and holds the entries `h` in its head and nothing else. -/
abbrev QueueHolds (s : State) (q : Nat) (h : List QEntry) : Prop :=
  s.qState q = qDirect ∧ (s.spillQ q).head = h ∧ (s.spillQ q).tail = [] ∧ (s.spillQ q).mid = 0 ∧ (s.spillQ q).arrivals = []

/-- An administration command of an issuer's world finds its way free (R264, R265). -/
abbrev AdminFree (s : State) (k : Nat) (c : Issuer) (v cmd : Nat) (x : Word) : Prop :=
  x.getLsbD 63 = true ∧ fieldOf x 48 4 = cmd ∧ v = 32 * k + fieldOf x 57 5 ∧ s.adminOf k c.sealed = none ∧
    viAllowed cmd (s.viState v) = true ∧ (cmd = 1 ∨ s.viSealed v = c.sealed)

/-- The state in which an accepted administration command acts. -/
abbrev State.adminBegun (s : State) (k : Nat) (w : Bool) (x : Nat) : State :=
  (((((s.answer .ok).put (L.VI_ADMIN_CMD.VI w k) (bits x 61 57)).put (L.VI_ADMIN_CMD.CMD w k) (bits x 51 48)).put
    (L.VI_ADMIN_CMD.REC w k) (bits x 47 6)).put (L.VI_ADMIN_RES.READY w k) 0).put (L.VI_ADMIN_RES.GEN w k) 0xFF |>.put
    (L.VI_ADMIN_RES.STATUS w k) 0xFF

/-- An administration command was accepted and its result is not READY (R265). -/
abbrev AdminTaken (k : Nat) (c : Issuer) (a : ViAdmin) (t : State) : Prop :=
  t.adminOf k c.sealed = some a ∧ t.get (L.VI_ADMIN_RES.READY c.sealed k) = 0 ∧ t.get (L.VI_ADMIN_RES.STATUS c.sealed k) = 0xFF

/-- The result of an administration command is READY (R265). -/
abbrev AdminReady (k : Nat) (w : Bool) (a : ViAdmin) (status : Nat) (t : State) : Prop :=
  t.adminOf k w = none ∧ t.get (L.VI_ADMIN_RES.READY w k) = 1 ∧ t.get (L.VI_ADMIN_RES.STATUS w k) = status ∧
    t.get (L.VI_ADMIN_RES.GEN w k) = t.viGen a.v

/-! ### The fabric -/

/-- Port `n` has nothing to send, and no open or waiting request must leave by it. -/
abbrev FabQuiet (s : State) (n : Nat) : Prop := (s.fabPort n).wait = [] ∧ ∀ o ∈ s.fab.opens ++ s.fab.later, o.port ≠ some n

/-- A flit that port `n` uses: the port is UP, the flit is good, and a PKT flit in its turn has a place; the port has nothing to
send and owes its partner no acknowledgement and no credit. -/
abbrev FabFlitGood (s : State) (n : Nat) (f : FabFlit) : Prop :=
  s.portState n = portUpSt ∧ f.crcBad = false ∧ f.kind.val ≤ 5 ∧ f.reservedBad = false ∧
    (f.kind.val = 1 → f.seq.val = (s.fabPort n).rxSeq → 0 < (s.fabPort n).places f.fvc) ∧ (s.fabPort n).wait = [] ∧ s.txIdle = false ∧
    (s.fabPort n).ackDue = false ∧ ∀ k, k < 4 → (s.fabPort n).owed.getD k 0 = 0

/-- What acknowledgement and credits of a flit make of the port (R287, R288). -/
abbrev FabPort.acked (x : FabPort) (f : FabFlit) : FabPort :=
  { x with
    replay := match f.ack with
      | some a => (match x.replay.findIdx? (fun e => e.1 == a.val) with
        | some i => x.replay.drop (i + 1)
        | none => x.replay)
      | none => x.replay
    credit := (List.range 4).map (fun k => x.credit.getD k 0 + f.credit.getD k 0) }

/-- The oldest packet of a channel on a port is `p`, of a type that the command handles, for this device, which has its identifier,
and no request that came before it is still to be performed. -/
abbrev FabMine (s : State) (port fvc ptype : Nat) (p : FabPkt) : Prop :=
  s.fabHead port fvc = some p ∧ p.ptype = ptype ∧ p.dst = s.fabId ∧ s.get L.FAB_ID.ID_VALID = 1 ∧ s.fabEarlier port p = false

/-- The aperture that an access names. -/
abbrev aptOf (p : FabPkt) : Nat := p.offset / 0x10000000 % 16

/-- The world of an access as it counts here (R305). -/
abbrev fabSealed (s : State) (port : Nat) (p : FabPkt) : Bool :=
  p.sealed && !(decide (port < 8) && s.get (L.FAB_P_CFG.OPEN_ONLY port) == 1)

/-- The aperture of the access admits it: enabled, open to its kind, of its world, and `n` bytes inside (R307). -/
abbrev FabAdmits (s : State) (port : Nat) (p : FabPkt) (ok n : Nat) : Prop :=
  (p.sync = true → s.get L.TB_STATUS.SYNC_OK = 1) ∧ s.get (L.FAB_APT.EN (aptOf p)) = 1 ∧ ok = 1 ∧
    p.offset % 0x10000000 + n ≤ 0x10000000 ∧ (fabSealed s port p = true ↔ s.get (L.FAB_APT.WORLD (aptOf p)) = 1)

/-- The tags of an admitted access. -/
abbrev fabTags (s : State) (port : Nat) (p : FabPkt) : Issuer :=
  s.tags (fabSealed s port p) (if s.get (L.FAB_APT.VI_VALID (aptOf p)) = 1 then some (s.get (L.FAB_APT.VI (aptOf p))) else none)

/-- The device address of an admitted access. -/
abbrev fabAddr (s : State) (p : FabPkt) : Nat := s.get (L.FAB_APT.BASE (aptOf p)) * 0x10000000 + p.offset % 0x10000000

/-- The response `r` left from `u`: into this device's own packets if the device is its own requester. -/
abbrev FabReplied (u : State) (r : FabPkt) (t : State) : Prop :=
  t = (u.fabInject r).1 ∧ (r.dst = u.fabId → u.get L.FAB_ID.ID_VALID = 1 → t.fab.inbox = u.fab.inbox ++ [(8, { r with
    hops := u.get L.FAB_CFG.MAX_HOPS, epoch := u.get L.FAB_EPOCH.EPOCH % 4 })])

/-- The packet `p` answers the one open request `o`, whose instance's generation still stands, and none waits. -/
abbrev FabAnswersOpen (s : State) (p : FabPkt) (o : FabOpen) : Prop :=
  s.fab.opens = [o] ∧ s.fab.later = [] ∧ o.pkt.txn = p.txn ∧ o.pkt.dst = p.src ∧
    (∀ v, o.pkt.vi = some v → s.viGen v = o.pkt.gen)

/-- The open request has ended. -/
abbrev FabEnded (t : State) : Prop := t.fab.opens = [] ∧ t.get L.FAB_STATUS.OPEN_REQ = 0

/-- The packet type of an access of a core to the window, its length, and whether it leaves with reserved class (R306, R127). -/
abbrev remoteType : RemoteKind → Nat
  | .load _ => ptRD
  | .store _ => ptWR
  | _ => ptATOM

abbrev remoteLen : RemoteKind → Nat
  | .load n => n
  | .store b => b.length
  | _ => 8

abbrev remoteRsv (s : State) (c : Issuer) (a : PAddr) (r : Bool) : Bool :=
  match c.agent with
  | .hart _ => s.reservedFor c a.toNat
  | _ => r

/-- An entry written to the receive ring for the packet `p`, in 256 bytes (R299). -/
abbrev State.mrxWritten (s : State) (port : Nat) (p : FabPkt) (e : Bytes) : State :=
  ((s.fabDrop port p).physWrite fabSrc (unitIssuer true) (0x1000 * s.get L.FAB_MRX_RING.BASE +
    256 * (s.get L.FAB_MRX_IDX.PROD % 2 ^ s.get L.FAB_MRX_RING.LOG2N)) (e ++ List.replicate (256 - e.length) 0)).1

/-- The entry of a management message: word 0, and the bytes from byte 64 on. -/
abbrev mmsgEntry (p : FabPkt) : Bytes :=
  bytesLE 8 (ptMMSG + 2 ^ 8 * p.len + 2 ^ 16 * p.src + 2 ^ 30) ++ List.replicate 56 0 ++ p.data.take p.len

/-- The entry of a directed packet that has come to its end: word 0 with its source and whether the partner's identifier is
valid, its path, the ports it came by, and its bytes. -/
abbrev drEntry (s : State) (port : Nat) (p : FabPkt) : Bytes :=
  let w := ofBytesLE (p.data.take 8)
  let ptr := bits w 41 37
  let back := ofBytesLE ((p.data.drop 16).take 8)
  let w := w - 2 ^ 37 * ptr + 2 ^ 37 * ((ptr + 1) % 32)
  bytesLE 8 (w % 2 ^ 42 - 2 ^ 16 * bits w 30 16 + 2 ^ 16 * p.src +
      (if s.get (L.FAB_P_STATUS.PARTNER_ID_VALID (port % 8)) = 1 then 2 ^ 30 else 0)) ++
    bytesLE 8 (ofBytesLE ((p.data.drop 8).take 8)) ++
    bytesLE 8 (back - 2 ^ (3 * ptr) * bits back (3 * ptr + 2) (3 * ptr) + 2 ^ (3 * ptr) * (port % 8)) ++ List.replicate 40 0 ++
    p.data.drop 24

/-- The oldest entry of the transmit ring read when PROD is written `v`, and its length. -/
abbrev State.mtxRead (s : State) (v : Word) : State × DevAns :=
  ((s.answer .ok).put L.FAB_MTX_IDX.PROD v.toNat).physRead fabSrc (unitIssuer true) (0x1000 * s.get L.FAB_MTX_RING.BASE +
    256 * (s.get L.FAB_MTX_IDX.CONS % 2 ^ s.get L.FAB_MTX_RING.LOG2N)) 256

abbrev mtxLen (d : Bytes) : Nat := bits (ofBytesLE (d.take 8)) 15 8

/-- No port of the fabric is UP. -/
abbrev FabCutOff (s : State) : Prop := ∀ n, n < 8 → s.portState n ≠ portUpSt

/-! ### The key store -/

/-- A key-store command of a world is written while none is under way and the PUF is reconstructed (R341). -/
abbrev KsGo (s : State) (w : Bool) (v : Word) (cmd : Nat) : Prop :=
  v.getLsbD 63 = true ∧ fieldOf v 0 4 = cmd ∧ fieldOf v 4 4 = 0 ∧ fieldOf v 28 2 = 0 ∧ fieldOf v 36 27 = 0 ∧
    s.ksReq w = none ∧ s.get L.KS_STATUS.PUF_OK = 1

/-- The slot and the parent slot that a command names, and its KIND and USAGE. -/
abbrev ksSlotOf (v : Word) : Nat := fieldOf v 8 8
abbrev ksParentOf (v : Word) : Nat := fieldOf v 16 8
abbrev ksKindOf (v : Word) : Nat := fieldOf v 24 4
abbrev ksUsageOf (v : Word) : Nat := fieldOf v 30 6

/-- The state in which the command acts: its registers written and its result not READY. -/
abbrev State.ksBegun (s : State) (w : Bool) (v : Word) : State :=
  (((((((s.answer .ok).put (L.KS_CMD.USAGE w) (ksUsageOf v)).put (L.KS_CMD.KIND w) (ksKindOf v)).put
    (L.KS_CMD.PARENT w) (ksParentOf v)).put (L.KS_CMD.SLOT w) (ksSlotOf v)).put (L.KS_CMD.CMD w) (fieldOf v 0 4)).put
    (L.KS_RES.READY w) 0).put (L.KS_RES.STATUS w) 0xFF

/-- The command was taken and will end with a status. -/
abbrev KsTaken (w : Bool) (st : Nat) (t : State) : Prop :=
  t.ksReq w = some ⟨some st, 0, [], 0⟩ ∧ t.get (L.KS_RES.READY w) = 0 ∧ t.get (L.KS_RES.STATUS w) = 0xFF

/-- The next second-level tree stored (R348). -/
abbrev State.treeStored (s : State) : State :=
  { s with ks := { s.ks with treeBusy := false }, nv := { s.nv with tree := s.nv.tree + 1 } }

/-- The state in which ATTEST signs index `i`: the index is committed, and the next tree begins where it is due (R347, R348). -/
abbrev State.attBegun (u : State) (i : Nat) : State :=
  ((u.put L.KS_ATT_IDX.NEXT (i + 1)).writeLE (lmsBase + 8 * (i % 8192)) 8 (indexWord i)).when
    (u.nv.tree < i / 2 ^ 20 ∨ u.nv.tree = i / 2 ^ 20 ∧ 786432 ≤ i % 2 ^ 20) (fun s => { s with ks := { s.ks with treeBusy := true } })

/-- The evidence with its signature (R349). -/
abbrev State.attRecord (s : State) (w : Bool) (i : Nat) (input : Bytes) : Bytes :=
  s.evidence w i input ++ attSign i (s.evidence w i input)

/-- The slot belongs to the world and is not being released (R343). -/
abbrev KsMine (s : State) (w : Bool) (n : Nat) : Prop := s.ownerSealed (.ks n) = w ∧ s.isReleasing (.ks n) = false

/-- The slot can take a key: of the world, no device slot, and empty. -/
abbrev KsEmpty (s : State) (w : Bool) (n : Nat) : Prop := KsMine s w n ∧ 8 ≤ n ∧ s.slotKind n = 0

/-- The slot can serve as a source of a kind with a usage bit. -/
abbrev KsSource (s : State) (w : Bool) (n kind bit : Nat) : Prop :=
  KsMine s w n ∧ n ≠ 1 ∧ n ≠ 2 ∧ s.slotKind n = kind ∧ kind ≠ 0 ∧ (s.slotUsage n).testBit bit = true

/-- The slot holds a key with its attributes. -/
abbrev KsHolds (t : State) (n kind usage : Nat) (key : Bytes) : Prop :=
  t.get (L.KS_SLOT.KIND n) = kind ∧ t.get (L.KS_SLOT.USAGE n) = usage ∧ SMap.get t.slotKey n = key

/-! ### Cipher engines -/

/-- Engine `e` is on and holds the one command `x`, which it has not started. -/
abbrev CeHolds (s : State) (e op : Nat) (x : CeCmd) : Prop :=
  s.ceOn e ∧ (s.ceOf e).cmds = [x] ∧ x.op = op ∧ x.ctx / 16 = e ∧ x.started = false ∧ x.susp = false

/-- The command has started, and its context runs. -/
abbrev CeRuns (e : Nat) (y : CeCmd) (t : State) : Prop :=
  (t.ceOf e).cmds = [y] ∧ y.started = true ∧ t.get (L.CE_STATUS.RUNNING e) = 1 ∧ t.get (L.CE_STATUS.RUN_CTX e) = y.ctx % 16 ∧
    t.get (L.CE_CTX_STAT.STATE y.ctx) = ctxRun

/-- The command has started and will end with a status and detail. -/
abbrev CeFails (e : Nat) (x : CeCmd) (status detail : Nat) (t : State) : Prop :=
  CeRuns e { x with started := true, fin := true, status := status, detail := detail } t

/-- The context holds a key with its attributes (R372). -/
abbrev CeKeyed (n : Nat) (key : Bytes) (kind usage src : Nat) (t : State) : Prop :=
  (t.cx n).key = key ∧ (t.cx n).kind = kind ∧ (t.cx n).usage = usage ∧ t.get (L.CE_CTX_STAT.KEYED n) = 1 ∧
    t.get (L.CE_CTX_STAT.KEY_SRC n) = src ∧ t.get (L.CE_CTX_STAT.KEY_ID n) = t.keyIdOf (n / 16) key ∧
    t.get (L.CE_CTX_STAT.EXPORTABLE n) = (if usage.testBit 5 then 1 else 0)

/-- The context holds no key. -/
abbrev CeKeyless (n : Nat) (t : State) : Prop :=
  (t.cx n).key = [] ∧ t.get (L.CE_CTX_STAT.KEYED n) = 0 ∧ t.get (L.CE_CTX_STAT.KEY_ID n) = 0

/-- The result of a context is READY and says how its command ended (Table 14.5). -/
abbrev CeEnded (x : CeCmd) (t : State) : Prop :=
  t.get (L.CE_RESULT.READY x.ctx) = 1 ∧ t.get (L.CE_RESULT.DATA x.ctx) = ((if x.tagBad then 2 ^ 62 else 0) +
    (if x.wasSusp then 2 ^ 61 else 0) + 2 ^ 48 * (x.status % 256) + 2 ^ 40 * (x.detail % 256) + x.bytes % 2 ^ 32) % 2 ^ 63

/-- An issuer may use the page of a context: its engine on, its world, and its instance or none (R373, R374). -/
abbrev CeMay (s : State) (n : Nat) (c : Issuer) : Prop :=
  ¬ s.ceOff (n / 16) ∧ c.sealed = s.ownerSealed (.ce n) ∧ s.isReleasing (.ce n) = false ∧
    (c.vi = none ∨ s.viOf (.ce n) = none ∨ c.vi = s.viOf (.ce n))

/-! ### External interfaces -/

/-- A request from the link reaches function `n` (of both controllers, in order) at device address `a` (R377). -/
abbrev PciReaches (s : State) (c : Nat) (q : Tlp) (n a : Nat) : Prop :=
  (s.get (L.PCI_CFG.ROLE c) = 1 ∧ s.get (L.PCI_FN_CFG.EN c q.fn) = 1 ∧ q.addr < 0x100000 ∧ n = 8 * c + q.fn.val ∧
    a = 0x100000 * s.get (L.PCI_FN_BAR.BASE c q.fn) + q.addr) ∨
  (s.get (L.PCI_CFG.ROLE c) = 0 ∧ 8 * c ≤ n ∧ n < 8 * c + 8 ∧ a = q.addr ∧ s.get (L.PCI_FN_CFG.EN c (n - 8 * c)) = 1 ∧
    s.get (L.PCI_FN_CFG.BUS_LO c (n - 8 * c)) ≤ q.bus.val ∧ q.bus.val ≤ s.get (L.PCI_FN_CFG.BUS_HI c (n - 8 * c)) ∧
    ∀ k, k < n - 8 * c → ¬ (s.get (L.PCI_FN_CFG.EN c k) = 1 ∧ s.get (L.PCI_FN_CFG.BUS_LO c k) ≤ q.bus.val ∧
      q.bus.val ≤ s.get (L.PCI_FN_CFG.BUS_HI c k)))

/-- An access of an issuer reaches offset `off` of the slice of function `f` of controller `c`, which is of its world and
takes its instance (R379). -/
abbrev PciWindow (s : State) (i : Issuer) (a : PAddr) (c f off : Nat) : Prop :=
  c < 2 ∧ f < 8 ∧ off < 2 ^ 36 ∧ a.toNat = 2 * 2 ^ 40 + c * 2 ^ 39 + f * 2 ^ 36 + off ∧
    (s.tagged i).sealed = s.ownerSealed (.pci (8 * c + f)) ∧ s.isReleasing (.pci (8 * c + f)) = false ∧
    (i.vi = none ∨ s.viOf (.pci (8 * c + f)) = i.vi)

/-! ### Register space -/

/-- The address lies in register space, and in no interrupt page (R450, R452). -/
abbrev RegSpace (a : Nat) : Prop := 0xF00000000000 ≤ a ∧ a < 0xF00100000000 ∧ aplicPage a = none ∧ intPage a = none

end Sys2Proof.Machine
end

