-- ==== Sys2Proof/Certificates/Slice0/Obligations.lean ====
section
/-! DEFINITION. The statements for the provers. Each says in its docstring which rules of the specification it formalises; a
clause of the form `Completes i s p` says that command `i` answers a next state of which `p` holds. -/

open Sys2Proof Sys2Proof.Machine

/-! ### The machine as a whole -/

/-- A step takes the command at the front of the queue and executes it with the rest of the queue; on an empty queue one
cycle of the time clock passes (log entry 1). -/
def Obligations.StepRunsTheFrontCommand : Prop :=
  (∀ (c : Instr) (rest : List Instr) (s : State), s.pending = c :: rest → step s = exec c { s with pending := rest }) ∧
  (∀ (s : State), s.pending = [] → step s = .next (s.elapse 1))

/-- Every command completes: in every state, and with every operand, it answers a next state, and neither a fault nor a
refusal.
Where a point is open it states the model's choice (log entry 4). -/
def Obligations.EveryCommandAnswersANextState : Prop := ∀ (i : Instr) (s : State), ∃ t, exec i s = .next t

/-- The invariant holds after reset. -/
def Obligations.ResetMeetsTheInvariant : Prop := Inv State.reset

/-- Every step keeps the invariant: memory, registers and hart registers stay in their canonical form and the counter stays
in its 106 bits (R37). -/
def Obligations.EveryStepKeepsTheInvariant : Prop := ∀ (s t : State), Inv s → step s = .next t → Inv t

/-- A command leaves every kind of state that it does not touch as it stood, in every state and with every operand. -/
def Obligations.CommandsTouchOnlyTheirState : Prop :=
  ∀ (i : Instr) (s t : State), exec i s = .next t → SameBut (touched i) s t

/-- No command reorders, drops or adds a waiting command, and neither time nor the count of free values runs backward.
Where a point is open it states the model's choice (log entries 3, 6). -/
def Obligations.CommandsLeaveTheQueueAndTimeOrdered : Prop :=
  ∀ (i : Instr) (s t : State), exec i s = .next t → t.pending = s.pending ∧ s.up ≤ t.up ∧ s.free ≤ t.free

/-- What reset leaves (R13, the Reset columns): the values the tables give for one register of each block, and memory that
reads 0 (log entry 2).
Where a point is open it states the model's choice (log entries 8, 9). -/
def Obligations.ResetLeavesTheTableValues : Prop :=
  State.reset.get L.TB_STATUS.TICKING = 0 ∧ State.reset.get L.TB_STATUS.STATE = 0 ∧
  State.reset.get L.TB_FRAME_CFG.PERIOD = 100000 ∧ State.reset.get L.TB_SRC_CFG.ACQ_TMO = 2000 ∧
  State.reset.get L.TB_SERVO_CFG.LOCK_CNT = 16 ∧ State.reset.rd (R.TB_LATCH_FRAME true) = BitVec.ofNat 64 (2 ^ 64 - 1) ∧
  State.reset.rd (R.TB_LATCH_FRAME false) = BitVec.ofNat 64 (2 ^ 64 - 1) ∧
  (∀ q, q < 32 → State.reset.csqState q = stStopped ∧ State.reset.get (L.CSQ_OWN.WORLD q) = 1 ∧
    State.reset.get (L.CSQ_OWN.NUMBER q) = q) ∧
  State.reset.get L.WLD_OWN_UNITS.QE = 255 ∧ State.reset.get L.PWR_RST_HOLD.TB = 1 ∧
  (∀ a, State.reset.readByte a = 0) ∧ State.reset.pending = []

/-! ### The time base (02) -/

/-- A read of TB_TIME answers the count and latches fraction, frame number and offset for the reading world alone (R40). -/
def Obligations.TimeReadLatchesForTheReadingWorld : Prop :=
  ∀ (c : Issuer) (s : State), Sends s c → Inv s → Completes (.tbTimeRead c) s (fun t =>
    t.resp = .data (BitVec.ofNat 64 s.tb.ns) ∧ t.tb = s.tb ∧
    t.get (L.TB_LATCH_FRAME.FRAME c.sealed) = s.frame ∧
    t.get (L.TB_LATCH_AUX.OFFSET c.sealed) = s.offset % 2 ^ 24 ∧
    t.get (L.TB_LATCH_AUX.FRAC c.sealed) = s.tb.frac / 2 ^ 26 ∧
    SameRegsBut [R.TB_LATCH_FRAME c.sealed, R.TB_LATCH_AUX c.sealed] s t)

/-- A tick that may be launched opens its frame (R41, R42, R54); the tick of an armed switch takes the new grid in one step,
and the frame number runs on (R44). While no ticks are launched the instant of the switch frame takes it, or the first tick
that comes after it (R44).
Where a point is open it states the model's choice (log entries 3, 20). -/
def Obligations.TickOpensItsFrame : Prop :=
  (∀ (s : State), Inv s → s.tickMay = true → s.tb.restepReq = false → s.switchNext = false →
    (s.get L.TB_SWITCH.ARM = 0 ∨ s.ticking) → 5000 ≤ s.period → s.period ≤ 10000000 → s.nextTick + 10000000 < 2 ^ 64 →
    Completes .tick s (fun t => t.tb.lastTick = some s.nextTick ∧ s.nextTick ≤ t.tb.ns ∧ t.get L.TB_STATUS.TICKING = 1 ∧
      (s.servo = servoLock → t.get L.TB_STATUS.SYNC_OK = 1) ∧ t.servo = s.servo ∧
      t.frame = (s.base + (s.nextTick - s.origin) / s.period) % 2 ^ 64 ∧
      t.period = s.period ∧ t.origin = s.origin ∧ t.base = s.base)) ∧
  (∀ (s : State), Inv s → s.tickMay = true → s.tb.restepReq = false → s.switchNext = true →
    5000 ≤ s.period → 5000 ≤ s.get L.TB_SWITCH.NEXT_PERIOD → s.nextTick + 10000000 < 2 ^ 64 → NotAsked s L.TB_SWITCH.ARM →
    Completes .periodSwitch s (fun t => t.origin = s.nextTick ∧ t.base = s.get L.TB_SWITCH_FRAME.FRAME ∧
      t.period = s.get L.TB_SWITCH.NEXT_PERIOD ∧ t.get L.TB_SWITCH.ARM = 0 ∧ t.get L.TB_STATUS.TICKING = 1 ∧
      s.nextTick ≤ t.tb.ns ∧ t.tb.switchTick = true ∧ t.frame =
        (s.get L.TB_SWITCH_FRAME.FRAME + (t.tb.ns - s.nextTick) / s.get L.TB_SWITCH.NEXT_PERIOD) % 2 ^ 64)) ∧
  (∀ (s : State), ¬ s.ticking → s.tickMay = false → s.tb.restepReq = false → s.switchNext = true →
    s.get L.PWR_RST_HOLD.TB = 0 → s.nextTick < 2 ^ 64 → NotAsked s L.TB_SWITCH.ARM →
    Completes .periodSwitch s (fun t => t.origin = s.nextTick ∧ t.base = s.get L.TB_SWITCH_FRAME.FRAME ∧
      t.period = s.get L.TB_SWITCH.NEXT_PERIOD ∧ t.get L.TB_SWITCH.ARM = 0 ∧ t.get L.TB_STATUS.TICKING = 0)) ∧
  (∀ (s : State), ¬ s.ticking → s.get L.TB_SWITCH.ARM = 1 → s.base ≤ s.get L.TB_SWITCH_FRAME.FRAME →
    s.switchAt < s.nextTick → s.switchAt < 2 ^ 64 → NotAsked s L.TB_SWITCH.ARM →
    Completes .tick s (fun t => t.origin = s.switchAt ∧ t.base = s.get L.TB_SWITCH_FRAME.FRAME ∧
      t.period = s.get L.TB_SWITCH.NEXT_PERIOD ∧ t.get L.TB_SWITCH.ARM = 0))

/-- Ticks stop at the next tick instant after TICK_EN is cleared, and the servo stays (R42), and the grid but for a switch whose
frame opens there (R44); a re-step withdraws an armed switch and takes the servo to ACQUIRE, from where a Summit on its crystal
goes on at once (R53, Table 2.3, R418). A Summit keeps its timescale and its grid.
Where a point is open it states the model's choice (log entries 18, 19). -/
def Obligations.TicksEndAtAStopAndAtARestep : Prop :=
  (∀ (s : State), s.ticking → s.get L.TB_CTRL.TICK_EN = 0 → s.tb.restepReq = false → NotAsked s L.TB_SWITCH.ARM →
    Completes .ticksStop s (fun t => t.get L.TB_STATUS.TICKING = 0 ∧ t.get L.TB_STATUS.SYNC_OK = 0 ∧ t.servo = s.servo ∧
      t.frame = noFrame ∧ t.offset = 0 ∧
      (s.switchNext = false → t.period = s.period ∧ t.origin = s.origin ∧ t.base = s.base) ∧
      (s.switchNext = true → s.nextTick < 2 ^ 64 → t.period = s.get L.TB_SWITCH.NEXT_PERIOD ∧ t.origin = s.nextTick ∧
        t.base = s.get L.TB_SWITCH_FRAME.FRAME ∧ t.get L.TB_SWITCH.ARM = 0))) ∧
  (∀ (s : State), s.tb.restepReq = true → s.get L.PWR_RST_HOLD.TB = 0 → (s.servo = servoLock ∨ s.servo = servoHoldover) →
    NotAsked s L.TB_SWITCH.ARM →
    Completes .restep s (fun t => t.tb.restepReq = false ∧ t.get L.TB_STATUS.TICKING = 0 ∧ t.get L.TB_SWITCH.ARM = 0 ∧
      ((s.get L.TB_STATUS.IS_SUMMIT = 0 ∨ s.get L.TB_SRC_CFG.SRC ≠ 0) → t.servo = servoAcquire) ∧
      (s.get L.TB_STATUS.IS_SUMMIT = 1 → s.get L.TB_SRC_CFG.SRC = 0 → t.servo = servoLock) ∧
      (s.get L.TB_STATUS.IS_SUMMIT = 1 → t.tb.tscale = s.tb.tscale ∧ t.period = s.period ∧ t.origin = s.origin ∧
        t.base = s.base)))

/-- Writes of TB_CTRL and TB_SWITCH (R42, R44, R46, R53, R65): a Sealed write sets the fields, requests a re-step or arms the
switch; an arm that comes late is refused with its event; an Open write is answered with an error and changes nothing.
Where a point is open it states the model's choice (log entry 5). -/
def Obligations.TimeBaseControlWrites : Prop :=
  (∀ (c : Issuer) (v : Word) (s : State), Sends s c → c.sealed = true → Completes (.tickEnWrite c v) s (fun t =>
    t.resp = .ok ∧ t.get L.TB_CTRL.FRAME_FOLLOW = fieldOf v 0 1 ∧ t.get L.TB_CTRL.TICK_EN = fieldOf v 1 1 ∧
    t.tb.restepReq = (v.getLsbD 2 || s.tb.restepReq) ∧ SameRegsBut [R.TB_CTRL] s t)) ∧
  (∀ (c : Issuer) (v : Word) (s : State), Sends s c → c.sealed = true → Completes (.restepWrite c v) s (fun t =>
    t.resp = .ok ∧ t.get L.TB_CTRL.FRAME_FOLLOW = fieldOf v 0 1 ∧ t.get L.TB_CTRL.TICK_EN = fieldOf v 1 1 ∧
    t.tb.restepReq = (v.getLsbD 2 || s.tb.restepReq) ∧ SameRegsBut [R.TB_CTRL] s t)) ∧
  (∀ (c : Issuer) (v : Word) (s : State), Sends s c → c.sealed = true → v.getLsbD 24 = true → 5000 ≤ fieldOf v 0 24 →
    fieldOf v 0 24 ≤ 10000000 → s.ticking → s.get L.TB_SWITCH.ARM = 0 →
    (s.get L.TB_CTRL.FRAME_FOLLOW = 0 ∨ s.get L.TB_STATUS.IS_SUMMIT = 1) →
    (s.get L.TB_STATUS.IS_SUMMIT = 0 ∨ ∀ p, p < 8 → s.portUp p = false) →
    Completes (.switchArm c v) s (fun t => t.resp = .ok ∧ t.get L.TB_SWITCH.NEXT_PERIOD = fieldOf v 0 24 ∧
      (s.frame + 2 ≤ s.get L.TB_SWITCH_FRAME.FRAME → t.get L.TB_SWITCH.ARM = 1 ∧ SameRegsBut [R.TB_SWITCH] s t) ∧
      (s.get L.TB_SWITCH_FRAME.FRAME < s.frame + 2 → t.get L.TB_SWITCH.ARM = 0 ∧ t.get L.TB_EVT.ARM_LATE = 1 ∧
        SameRegsButRecords [R.TB_SWITCH, R.TB_EVT] s t))) ∧
  (∀ (c : Issuer) (v : Word) (s : State), Sends s c → c.sealed = true → v.getLsbD 24 = true → 5000 ≤ fieldOf v 0 24 →
    fieldOf v 0 24 ≤ 10000000 → s.ticking → s.get L.TB_SWITCH.ARM = 0 → s.get L.TB_STATUS.IS_SUMMIT = 1 →
    (∃ p, p < 8 ∧ s.portUp p = true) → s.base ≤ s.get L.TB_SWITCH_FRAME.FRAME →
    Completes (.switchArm c v) s (fun t => t.resp = .ok ∧ t.get L.TB_SWITCH.NEXT_PERIOD = fieldOf v 0 24 ∧
      (s.tb.ns + 2000000 ≤ s.switchAt → t.get L.TB_SWITCH.ARM = 1 ∧ SameRegsBut [R.TB_SWITCH] s t) ∧
      (s.switchAt < s.tb.ns + 2000000 → t.get L.TB_SWITCH.ARM = 0 ∧ t.get L.TB_EVT.ARM_LATE = 1 ∧
        SameRegsButRecords [R.TB_SWITCH, R.TB_EVT] s t))) ∧
  (∀ (c : Issuer) (v : Word) (s : State), Sends s c → c.sealed = true → v.getLsbD 24 = true →
    (¬ s.ticking ∨ (s.get L.TB_CTRL.FRAME_FOLLOW = 1 ∧ s.get L.TB_STATUS.IS_SUMMIT = 0)) → s.get L.TB_SWITCH.ARM = 0 →
    Completes (.switchArm c v) s (fun t => Refused s t)) ∧
  (∀ (c : Issuer) (v : Word) (s : State), Sends s c → c.sealed = false →
    Completes (.tickEnWrite c v) s (fun t => Refused s t ∧ t.tb = s.tb) ∧
    Completes (.restepWrite c v) s (fun t => Refused s t ∧ t.tb = s.tb) ∧
    Completes (.switchArm c v) s (fun t => Refused s t ∧ t.tb = s.tb))

/-- Sources of a Summit (R48, R49, Table 2.3): the first update in ACQUIRE steps the counter and gives LOCK, a PPS edge takes
TB_PPS_TOD and advances it, three bad updates clear TRACE and never LOCK, and ACQ_TMO ends the wait.
Where a point is open it states the model's choice (log entries 15, 17, 18). -/
def Obligations.SourceUpdatesDriveTheSummit : Prop :=
  (∀ (s : State), s.get L.TB_PPS_CFG.EDGE = 0 → s.get L.PWR_RST_HOLD.TB = 0 → s.get L.TB_SRC_CFG.SRC = 1 →
    s.get L.TB_STATUS.IS_SUMMIT = 1 → s.servo = servoAcquire → s.tb.stepped = false →
    Completes (.ppsInEdge true) s (fun t => t.servo = servoLock ∧
      t.get L.TB_PPS_TOD.SECONDS = (s.get L.TB_PPS_TOD.SECONDS + 1) % 2 ^ 64 ∧
      t.tb.ns = (s.get L.TB_PPS_TOD.SECONDS * 1000000000 % 2 ^ 64 + s.get L.TB_PPS_CFG.IN_DLY * 2 ^ 16 / 1000 / 2 ^ 16) % 2 ^ 64 ∧
      t.tb.frac % 2 ^ 26 = 0)) ∧
  (∀ (lane : Fin 4) (off : Int) (int : Nat) (s : State), s.get (L.ETH_LANE_CFG.AS_ROLE lane.val) = 2 → s.get L.TB_SRC_CFG.SRC = 2 →
    s.get L.TB_STATUS.IS_SUMMIT = 1 → s.servo = servoAcquire →
    Completes (.asSourceUpdate lane off int) s (fun t => t.servo = servoLock ∧ t.tb.stepped = true ∧ t.tb.lastUpd = s.up ∧
      (SMap.get t.eth lane.val).syncAt = s.up ∧ (int ≠ 0 → (SMap.get t.eth lane.val).syncEvery = int) ∧
      (s.tb.stepped = false → t.stamp = ((s.stamp : Int) + off).toNat % 2 ^ 80))) ∧
  (∀ (s : State), s.get L.TB_SRC_CFG.SRC ≠ 0 → s.get L.TB_STATUS.IS_SUMMIT = 1 → s.servo = servoLock →
    Completes .sourceUpdateMissed s (fun t => t.servo = servoLock ∧ t.tb.badUpd = s.tb.badUpd + 1 ∧ t.tb.goodUpd = 0 ∧
      t.up = max s.up s.missInstant ∧ t.tb.missedUpd = s.tb.missedUpd + 1 ∧
      (2 ≤ s.tb.badUpd → s.get L.TB_STATUS.TRACE = 1 → t.get L.TB_STATUS.TRACE = 0 ∧ t.get L.TB_EVT.TRACE_LOST = 1) ∧
      (s.tb.badUpd < 2 → t.get L.TB_STATUS.TRACE = s.get L.TB_STATUS.TRACE))) ∧
  (∀ (s : State), s.servo = servoAcquire → s.get L.TB_STATUS.IS_SUMMIT = 1 →
    Completes .acqTimeout s (fun t => t.servo = servoLock ∧ t.get L.TB_STATUS.TRACE = 0 ∧
      s.tb.acqStart + s.get L.TB_SRC_CFG.ACQ_TMO * 1000000 ≤ t.up))

/-- Election (R55 to R58, R61, R62, R460): the device that settles on itself becomes Summit, with its own identifier and
timescale; one with no candidate stays in FREE; a lost Summit, and a lost parent with no alternative, take LOCK to HOLDOVER.
Where a point is open it states the model's choice (log entry 21). -/
def Obligations.ElectionAndLossOfTheTree : Prop :=
  (∀ (s : State), s.tb.settled = false → s.get L.PWR_RST_HOLD.TB = 0 → s.tb.bestSelf = true →
    s.get L.TB_SUMMIT_CFG.PRIO ≠ 255 → s.servo = servoFree →
    Completes .electionSettle s (fun t => t.tb.settled = true ∧ t.get L.TB_STATUS.IS_SUMMIT = 1 ∧ t.get L.TB_STATUS.HOPS = 0 ∧
      t.get L.TB_STATUS.PARENT_VALID = 0 ∧ t.get L.TB_STATUS.PARENT_PORT = 0 ∧
      t.get L.TB_STATUS.SUMMIT_ID = s.get L.FAB_ID.ID ∧ t.tb.tscale = s.get L.TB_SERIAL.SERIAL ∧
      t.servo = (if s.get L.TB_SRC_CFG.SRC = 0 then servoLock else servoAcquire) ∧ s.tb.bestSince + 524288 ≤ t.up)) ∧
  (∀ (s : State), s.tb.settled = false → s.get L.PWR_RST_HOLD.TB = 0 → s.tb.bestSelf = true →
    s.get L.TB_SUMMIT_CFG.PRIO = 255 →
    Completes .electionSettle s (fun t => t.tb.settled = true ∧ t.get L.TB_EVT.NO_SUMMIT = 1 ∧ t.servo = s.servo ∧
      SameRegsButRecords [R.TB_EVT] s t)) ∧
  (∀ (b : Cand) (s : State), s.tb.best = some b → s.tb.bestSelf = false → s.servo = servoLock →
    Completes .summitLost s (fun t => t.servo = servoHoldover ∧ t.get L.TB_STATUS.SYNC_OK = 0 ∧
      t.get L.TB_EVT.SUMMIT_LOST = 1 ∧ t.get L.TB_EVT.HOLDOVER = 1 ∧ t.tb.settled = false ∧
      SMap.get t.tb.struck b.serial = b.annSeq + 1 ∧ t.get L.TB_STATUS.PARENT_VALID = 0)) ∧
  (∀ (s : State), s.get L.TB_STATUS.PARENT_VALID = 1 → s.servo = servoLock →
    (∀ p, p < 8 → p ≠ s.get L.TB_STATUS.PARENT_PORT → s.portUp p = false) →
    Completes .parentLost s (fun t => t.servo = servoHoldover ∧ t.get L.TB_STATUS.SYNC_OK = 0 ∧
      t.get L.TB_STATUS.PARENT_VALID = 0 ∧ t.get L.TB_STATUS.PARENT_PORT = 0))

/-- The pulses and time messages that leave (R47, R59), the announcement at which a Summit whose PRIO reads 0xFF gives its
place up (R55), and what a received message measures (R60).
Where a point is open it states the model's choice (log entries 15, 161, 197 to 200). -/
def Obligations.PulsesAndTimeMessages : Prop :=
  (∀ (s : State), s.ticking → s.get L.TB_OUT_CFG.PPS_OUT_EN = 1 → Completes .ppsOutPulse s (fun t =>
    t.out = s.out ++ [.pulse .ppsOut t.tb.ns 100 (s.get L.TB_OUT_CFG.OUT_DLY)] ∧ SameRegsButRecords [] s t)) ∧
  (∀ (s : State), s.get L.TB_STATUS.TICKING = 0 ∨ s.get L.TB_OUT_CFG.PPS_OUT_EN = 0 →
    Completes .ppsOutPulse s (fun t => t.out = s.out)) ∧
  (∀ (s : State), s.get L.PWR_RST_HOLD.TB = 0 → s.txIdle = false → (s.get L.TB_SUMMIT_CFG.PRIO ≠ 255 ∨ s.tb.bestSelf = false) →
    Completes .timeMessageSend s (fun t =>
    SameRegsButRecords [] s t ∧ ∃ f : Nat → TimeMsg,
      t.out = s.out ++ ((List.range 8).filter s.portUp).map (fun p => .time p (f p)) ∧
      ∀ p, p < 8 → s.portUp p = true → (f p).txTime = t.stamp ∧ (f p).state = s.servo ∧
        (f p).announce = decide ((SMap.get s.tb.ports p).sent % 8 = 7) ∧
        (SMap.get t.tb.ports p).sent = (SMap.get s.tb.ports p).sent + 1)) ∧
  (∀ (s : State), Inv s → s.get L.PWR_RST_HOLD.TB = 0 → s.tb.ns + 8192 < 2 ^ 64 → (s.tb.ns / 4096 + 1) % 8 = 0 →
    s.get L.TB_SUMMIT_CFG.PRIO = 255 → s.tb.bestSelf = true → s.get L.TB_STATUS.IS_SUMMIT = 1 →
    Completes .timeMessageSend s (fun t => t.get L.TB_STATUS.IS_SUMMIT = 0 ∧ t.get L.TB_STATUS.TRACE = 0 ∧
      t.get L.TB_EVT.SUMMIT_CHG = 1 ∧ t.tb.best = none ∧ t.tb.bestSelf = false ∧ t.tb.settled = false)) ∧
  (∀ (p : Fin 8) (m : TimeMsg) (s : State), s.portUp p = true → s.get L.PWR_RST_HOLD.TB = 0 → m.announce = false →
    m.state < 8 → 0 < (SMap.get s.tb.ports p.val).sent → m.echoTx ≠ 0 → s.get L.TB_STATUS.PARENT_VALID = 1 →
    s.get L.TB_STATUS.PARENT_PORT ≠ p.val →
    Completes (.timeMessageRx p m) s (fun t =>
      t.get (L.TB_PORT_STAT.PARTNER_STATE p.val) = m.state ∧ t.get (L.TB_PORT_STAT.VALID p.val) = 1 ∧
      (SMap.get t.tb.ports p.val).offset =
        (((m.echoRx : Int) - m.echoTx) + ((m.txTime : Int) - s.stamp)) / 2 -
          signedOf 16 (s.get (L.TB_PORT_ASYM.ASYM p.val)) * 2 ^ 16 / 1000 ∧
      (SMap.get t.tb.ports p.val).echoTx = m.txTime ∧ (SMap.get t.tb.ports p.val).echoRx = s.stamp ∧
      SameRegsBut [R.TB_PORT_STAT p.val] s t))

/-! ### Cadence sequencers (03) -/

/-- The register instructions write Cd, set Z by the result and take one nanosecond (R79, R72, R74).
Where a point is open it states the model's choice (log entry 24). -/
def Obligations.RegisterInstructionsWriteTheirResult : Prop :=
  (∀ (q : Fin 32) (i : CsqWord) (s : State), CsqFits s q 0x01 i → s.pcOf q ≠ 2047 → Completes (.movi q) s (fun t =>
    CsqWrites q i ((s.csqBegin q).moviSource q i.tgt i.imm % 2 ^ 64) s t ∧
    (i.tgt = 0 → t.creg q i.rd = i.imm) ∧ (i.tgt = 1 → t.creg q i.rd = t.frame) ∧ (i.tgt = 2 → t.creg q i.rd = t.offset % 2 ^ 64) ∧
    (i.tgt = 3 → t.creg q i.rd = s.period) ∧ (i.tgt = 4 → t.creg q i.rd = s.flagsOf q))) ∧
  (∀ (q : Fin 32) (i : CsqWord) (s : State), CsqFits s q 0x02 i → s.pcOf q ≠ 2047 → Completes (.addi q) s (fun t =>
    CsqWrites q i (BitVec.ofNat 64 (s.creg q i.rs) + (BitVec.ofNat 40 i.imm).signExtend 64).toNat s t)) ∧
  (∀ (q : Fin 32) (i : CsqWord) (s : State), CsqFits s q 0x03 i → s.pcOf q ≠ 2047 → Completes (.sub q) s (fun t =>
    CsqWrites q i (BitVec.ofNat 64 (s.creg q i.rs) - BitVec.ofNat 64 (s.opB q i)).toNat s t)) ∧
  (∀ (q : Fin 32) (i : CsqWord) (s : State), CsqFits s q 0x04 i → s.pcOf q ≠ 2047 → Completes (.and q) s (fun t =>
    CsqWrites q i (BitVec.ofNat 64 (s.creg q i.rs) &&& BitVec.ofNat 64 (s.opB q i)).toNat s t)) ∧
  (∀ (q : Fin 32) (i : CsqWord) (s : State), CsqFits s q 0x05 i → s.pcOf q ≠ 2047 → Completes (.or q) s (fun t =>
    CsqWrites q i (BitVec.ofNat 64 (s.creg q i.rs) ||| BitVec.ofNat 64 (s.opB q i)).toNat s t)) ∧
  (∀ (q : Fin 32) (i : CsqWord) (s : State), CsqFits s q 0x06 i → s.pcOf q ≠ 2047 → Completes (.shl q) s (fun t =>
    CsqWrites q i (BitVec.ofNat 64 (s.creg q i.rs) <<< (s.opB q i % 64)).toNat s t))

/-- Control flow (R80, R90, R91): BR and a LOOP that does not reach 0 take 2 ns and go to IMM; HALT ends
the program, its launches and slots stand, and no instruction runs in HALTED; YIELD ends the frame's work. -/
def Obligations.ControlFlowInstructions : Prop :=
  (∀ (q : Fin 32) (i : CsqWord) (s : State), CsqFits s q 0x10 i → Completes (.br q) s (fun t =>
    t.pcOf q = i.imm ∧ t.csqState q = stRun ∧ (t.csqOf q).readyAt = t.up + 2 ∧
    t.get (L.CSQ_STATUS.Z q) = s.get (L.CSQ_STATUS.Z q) ∧ t.get (L.CSQ_STATUS.E q) = s.get (L.CSQ_STATUS.E q) ∧
    SameRegsButRecords [R.CSQ_STATUS q] s t)) ∧
  (∀ (q : Fin 32) (i : CsqWord) (s : State), CsqFits s q 0x11 i → s.creg q i.rd ≠ 1 → Completes (.loop q) s (fun t =>
    t.pcOf q = i.imm ∧ t.creg q i.rd = (BitVec.ofNat 64 (s.creg q i.rd) - 1).toNat ∧ t.get (L.CSQ_STATUS.Z q) = 0 ∧
    (t.csqOf q).readyAt = t.up + 2 ∧ SameRegsButRecords [R.CSQ_STATUS q, R.CSQ_CREG q i.rd] s t)) ∧
  (∀ (q : Fin 32) (i : CsqWord) (s : State), CsqFits s q 0x11 i → s.creg q i.rd = 1 → s.pcOf q ≠ 2047 →
    Completes (.loop q) s (fun t => CsqWrites q i 0 s t)) ∧
  (∀ (q : Fin 32) (i : CsqWord) (s : State), CsqFits s q 0x00 i → Completes (.halt q) s (fun t =>
    t.csqState q = stHalted ∧ t.get (L.CSQ_EVT.HALT q) = 1 ∧ t.launches = s.launches ∧ t.slots = s.slots ∧
    SameRegsButRecords [R.CSQ_STATUS q, R.CSQ_EVT q] s t)) ∧
  (∀ (q : Fin 32) (i : Instr) (s : State), s.csqState q = stHalted → i ∈ [.halt q, .movi q, .addi q, .sub q, .and q, .or q,
    .shl q, .br q, .loop q, .waitt q, .waite q, .launch q, .post q, .chk q, .sync q, .cairn q, .fence q, .yield q] →
    Completes i s (fun t => t = s)) ∧
  (∀ (q : Fin 32) (i : CsqWord) (s : State), CsqFits s q 0x30 i → Completes (.yield q) s (fun t =>
    t.csqState q = stYielded ∧ t.get (L.CSQ_STATUS.RESUME q) = i.imm ∧ t.get (L.CSQ_STATUS.SLEEP q) = i.tgt ∧
    SameRegsButRecords [R.CSQ_STATUS q] s t))

/-- The waits (R75, R81, R82, R89): they begin with the offset inside the frame and end as their conditions say; WAITT goes on
at its offset with Z at 1 or late with Z at 0, WAITE gives the bits hit, FENCE ends when the POSTs are visible.
Where a point is open it states the model's choice (log entry 28). -/
def Obligations.WaitInstructions : Prop :=
  (∀ (q : Fin 32) (i : CsqWord) (s : State), CsqFits s q 0x18 i → s.opB q i < s.period → s.pcOf q ≠ 2047 →
    Completes (.waitt q) s (fun t =>
      ((s.csqBegin q).offset < s.opB q i → CsqWaits q (.waitt (s.opB q i)) s t ∧ SameRegsButRecords [R.CSQ_STATUS q] s t) ∧
      (s.opB q i ≤ (s.csqBegin q).offset → CsqMovesOn q 1 s t ∧ t.get (L.CSQ_STATUS.Z q) = 0 ∧ t.get (L.CSQ_EVT.LATE q) = 1 ∧
        t.get (L.CSQ_LATE_CNT.WAITT_LATE q) = min (s.get (L.CSQ_LATE_CNT.WAITT_LATE q) + 1) (2 ^ 32 - 1)))) ∧
  (∀ (q : Fin 32) (i : CsqWord) (s : State), CsqFits s q 0x18 i → s.period ≤ s.opB q i →
    Completes (.waitt q) s (fun t => CsqFaulted q faultRange (s.pcOf q) t)) ∧
  (∀ (q : Fin 32) (v : Nat) (s : State), (s.csqOf q).wait = .waitt v → s.csqState q = stWait → s.pcOf q ≠ 2047 →
    Completes (.waittFire q) s (fun t => CsqMovesOn q 0 s t ∧ t.get (L.CSQ_STATUS.Z q) = 1 ∧
      SameRegsButRecords [R.CSQ_STATUS q] s t)) ∧
  (∀ (q : Fin 32) (i : CsqWord) (s : State), CsqFits s q 0x19 i → s.creg q i.rs < s.period → Completes (.waite q) s (fun t =>
    CsqWaits q (.waite i.imm (s.creg q i.rs) i.rd (i.tgt.testBit 0)) s t ∧ SameRegsButRecords [R.CSQ_STATUS q] s t)) ∧
  (∀ (q : Fin 32) (mask d rd : Nat) (clear : Bool) (s : State), (s.csqOf q).wait = .waite mask d rd clear →
    s.csqState q = stWait → rd < 16 → s.pcOf q ≠ 2047 → Completes (.waiteEnd q) s (fun t =>
      CsqMovesOn q 1 s t ∧ t.creg q rd = s.flagsOf q &&& mask ∧
      t.get (L.CSQ_STATUS.Z q) = (if s.flagsOf q &&& mask = 0 then 0 else 1) ∧
      (clear = true → t.flagsOf q &&& mask = 0) ∧ (clear = false → t.flagsOf q = s.flagsOf q) ∧
      SameRegsButRecords [R.CSQ_STATUS q, R.CSQ_CREG q rd, R.CSQ_FLAGS q] s t)) ∧
  (∀ (q : Fin 32) (i : CsqWord) (s : State), CsqFits s q 0x28 i → Completes (.fence q) s (fun t =>
    CsqWaits q (.fence (max (t.up + 1) (s.postsVisible q))) s t ∧ SameRegsButRecords [R.CSQ_STATUS q] s t)) ∧
  (∀ (q : Fin 32) (u : Nat) (s : State), (s.csqOf q).wait = .fence u → s.csqState q = stWait → s.pcOf q ≠ 2047 →
    (∀ p, p ∈ s.posts → p.src ≠ q.val) → Completes (.fenceEnd q) s (fun t => CsqMovesOn q 1 s t ∧ u ≤ t.up ∧
      SameRegsButRecords [R.CSQ_STATUS q] s t))

/-- CHK and what follows it (R84, R85, R96): an invalid or a stale handle ends at once, a live one waits; a launch complete on
time is collected; one that is not is an overrun, recorded and followed as OVR_POLICY says; SKIP goes on at the first YIELD.
Where a point is open it states the model's choice (log entries 28, 155). -/
def Obligations.ChkCollectsOrOverruns : Prop :=
  (∀ (q : Fin 32) (i : CsqWord) (s : State), CsqFits s q 0x22 i → s.opB q i < s.period → s.pcOf q ≠ 2047 →
    Completes (.chk q) s (fun t =>
      ((s.creg q i.rs).testBit 63 = true → s.handleLive q (s.creg q i.rs) = true →
        CsqWaits q (.chk (s.creg q i.rs) (s.opB q i) i.rd) s t) ∧
      ((s.creg q i.rs).testBit 63 = true → s.handleLive q (s.creg q i.rs) = false →
        CsqMovesOn q 1 s t ∧ t.creg q i.rd = 0xFD <<< 48 ∧ t.get (L.CSQ_STATUS.Z q) = 0 ∧ t.get (L.CSQ_STATUS.E q) = 1) ∧
      ((s.creg q i.rs).testBit 63 = false →
        CsqMovesOn q 1 s t ∧ t.creg q i.rd = 0xFE <<< 48 ∧ t.get (L.CSQ_STATUS.Z q) = 0 ∧ t.get (L.CSQ_STATUS.E q) = 1) ∧
      SameRegsButRecords [R.CSQ_STATUS q, R.CSQ_CREG q i.rd] s t)) ∧
  (∀ (q : Fin 32) (h d rd : Nat) (s : State), (s.csqOf q).wait = .chk h d rd → s.csqState q = stWait → rd < 16 →
    s.pcOf q ≠ 2047 → (s.get (L.CSQ_TRACK.DONE_OPEN q)).testBit (bits h 47 43) = true →
    (SMap.get s.slots (32 * q.val + bits h 47 43)).time ≤ s.tickTime + d →
    Completes (.chkEnd q) s (fun t => CsqMovesOn q 1 s t ∧
      t.creg q rd = completionWord true true (SMap.get s.slots (32 * q.val + bits h 47 43)).status
        (SMap.get s.slots (32 * q.val + bits h 47 43)).frames (SMap.get s.slots (32 * q.val + bits h 47 43)).offset ∧
      t.get (L.CSQ_STATUS.Z q) = (if (SMap.get s.slots (32 * q.val + bits h 47 43)).status = 0 then 1 else 0) ∧
      (t.get (L.CSQ_TRACK.BUSY q)).testBit (bits h 47 43) = false ∧
      (t.get (L.CSQ_TRACK.DONE_OPEN q)).testBit (bits h 47 43) = false ∧
      SameRegsButRecords [R.CSQ_STATUS q, R.CSQ_CREG q rd, R.CSQ_TRACK q] s t)) ∧
  (∀ (q : Fin 32) (h d rd : Nat) (s : State), (s.csqOf q).wait = .chk h d rd → s.csqState q = stWait → rd < 16 → d < 2 ^ 24 →
    (s.get (L.CSQ_TRACK.DONE_OPEN q)).testBit (bits h 47 43) = false → (s.pcOf q ≠ 2047 ∨ s.get (L.CSQ_CTRL.OVR_POLICY q) ≠ 0) →
    Completes (.chkEnd q) s (fun t => t.creg q rd = 0 ∧ CsqMissed q h d s t)) ∧
  (∀ (q : Fin 32) (h d rd : Nat) (s : State), (s.csqOf q).wait = .chk h d rd → s.csqState q = stWait → rd < 16 → d < 2 ^ 24 →
    (s.get (L.CSQ_TRACK.DONE_OPEN q)).testBit (bits h 47 43) = true →
    s.tickTime + d < (SMap.get s.slots (32 * q.val + bits h 47 43)).time →
    (s.pcOf q ≠ 2047 ∨ s.get (L.CSQ_CTRL.OVR_POLICY q) ≠ 0) →
    Completes (.chkEnd q) s (fun t => CsqMissed q h d s t ∧
      t.creg q rd = completionWord true false (SMap.get s.slots (32 * q.val + bits h 47 43)).status
        (SMap.get s.slots (32 * q.val + bits h 47 43)).frames (SMap.get s.slots (32 * q.val + bits h 47 43)).offset ∧
      (t.get (L.CSQ_TRACK.BUSY q)).testBit (bits h 47 43) = false ∧
      (t.get (L.CSQ_TRACK.DONE_OPEN q)).testBit (bits h 47 43) = false)) ∧
  (∀ (q : Fin 32) (u k : Nat) (s : State), (s.csqOf q).skip = some (u, s.pcOf q) → s.csqState q = stRun → s.pcOf q + k < 2048 →
    (csqFields (s.rd (R.CSQ_IMEM q (s.pcOf q + k)))).op = 0x30 →
    (∀ j, j < k → (csqFields (s.rd (R.CSQ_IMEM q (s.pcOf q + j)))).op ≠ 0x30) →
    csqLegal q (csqFields (s.rd (R.CSQ_IMEM q (s.pcOf q + k)))) = true → SMap.get s.ecc (R.CSQ_IMEM q (s.pcOf q + k)) = 0 →
    Completes (.overrunSkip q) s (fun t => t.csqState q = stYielded ∧ t.pcOf q = s.pcOf q + k ∧ u ≤ t.up ∧
      t.get (L.CSQ_STATUS.RESUME q) = (csqFields (s.rd (R.CSQ_IMEM q (s.pcOf q + k)))).imm ∧ (t.csqOf q).skip = none ∧
      SameRegsButRecords [R.CSQ_STATUS q] s t)) ∧
  (∀ (q slot : Fin 32) (s : State), (s.get (L.CSQ_TRACK.DONE_OPEN q)).testBit slot = true →
    2 ≤ (SMap.get s.slots (32 * q.val + slot.val)).after → Completes (.slotExpire q slot) s (fun t =>
      (t.get (L.CSQ_TRACK.BUSY q)).testBit slot = false ∧ (t.get (L.CSQ_TRACK.DONE_OPEN q)).testBit slot = false ∧
      SameRegsBut [R.CSQ_TRACK q] s t))

/-- Signals between sequencers (R78, R86 to R88): a POST's flags become visible 4 ns later, SYNC releases all its members at
the last arrival and gives up at its deadline, CAIRN writes a trace record. -/
def Obligations.SignalsBetweenSequencers : Prop :=
  (∀ (q : Fin 32) (i : CsqWord) (s : State), CsqFits s q 0x21 i → s.pcOf q ≠ 2047 → s.checkWorldVi q (.csq i.tgt) = 0 →
    Completes (.post q) s (fun t => CsqMovesOn q 1 s t ∧ t.get (L.CSQ_STATUS.Z q) = 1 ∧
      t.posts = s.posts ++ [⟨q.val, i.tgt, i.imm, t.up + 4⟩] ∧ SameRegsButRecords [R.CSQ_STATUS q] s t)) ∧
  (∀ (q : Fin 32) (i : CsqWord) (s : State), CsqFits s q 0x21 i → s.pcOf q ≠ 2047 → s.checkWorldVi q (.csq i.tgt) ≠ 0 →
    Completes (.post q) s (fun t => CsqMovesOn q 1 s t ∧ t.get (L.CSQ_STATUS.Z q) = 0 ∧ t.get (L.CSQ_STATUS.E q) = 1 ∧
      t.get (L.CSQ_EVT.REFUSED q) = 1 ∧ t.posts = s.posts)) ∧
  (∀ (p : PostMsg) (rest : List PostMsg) (s : State), s.posts = p :: rest → p.dst < 32 → p.flags < 2 ^ 32 →
    Completes .flagDeliver s (fun t => t.posts = rest ∧ p.at_ ≤ t.up ∧
      t.get (L.CSQ_FLAGS.F p.dst) = s.get (L.CSQ_FLAGS.F p.dst) ||| p.flags ∧
      t.get (L.CSQ_FLAGS.DONE p.dst) = s.get (L.CSQ_FLAGS.DONE p.dst) ∧ SameRegsButRecords [R.CSQ_FLAGS p.dst] s t)) ∧
  (∀ (q : Fin 32) (i : CsqWord) (s : State), CsqFits s q 0x23 i → s.creg q i.rs < s.period →
    (∀ m, m < 32 → i.imm.testBit m = true → m ≠ q.val → s.checkWorldVi q (.csq m) = 0) →
    Completes (.sync q) s (fun t => CsqWaits q (.sync i.imm (s.creg q i.rs)) s t ∧ SameRegsButRecords [R.CSQ_STATUS q] s t)) ∧
  (∀ (q : Fin 32) (mask d : Nat) (s : State), (s.csqOf q).wait = .sync mask d →
    (∀ m, m < 32 → mask.testBit m = true → s.arrived mask m = true ∧ s.pcOf m ≠ 2047) →
    Completes (.syncRelease q) s (fun t => ∀ m, m < 32 → mask.testBit m = true →
      CsqMovesOn m 1 s t ∧ t.get (L.CSQ_STATUS.Z m) = 1)) ∧
  (∀ (q : Fin 32) (mask d : Nat) (s : State), (s.csqOf q).wait = .sync mask d → s.csqState q = stWait → s.pcOf q ≠ 2047 →
    Completes (.syncDeadline q) s (fun t => CsqMovesOn q 1 s t ∧ t.get (L.CSQ_STATUS.Z q) = 0 ∧
      t.get (L.CSQ_STATUS.E q) = 1 ∧ t.get (L.CSQ_EVT.SYNC_TMO q) = 1 ∧
      SameRegsButRecords [R.CSQ_STATUS q, R.CSQ_EVT q] s t)) ∧
  (∀ (q : Fin 32) (i : CsqWord) (s : State), CsqFits s q 0x24 i → s.pcOf q ≠ 2047 → s.checkWorldVi q .cairn = 0 →
    s.get L.CRN_TRACE_CFG.FROZEN = 0 → s.get L.CRN_TRACE_CFG.STOP = 0 → Completes (.cairn q) s (fun t =>
      CsqMovesOn q 1 s t ∧ t.get (L.CSQ_STATUS.Z q) = 1 ∧
      t.get L.CRN_TRACE_IDX.PROD = (s.get L.CRN_TRACE_IDX.PROD + 1) % 2 ^ 16 ∧
      SMap.get t.trace (s.get L.CRN_TRACE_IDX.PROD % 8192 * 4) = BitVec.ofNat 64 t.frame ∧
      SMap.get t.trace (s.get L.CRN_TRACE_IDX.PROD % 8192 * 4 + 1) =
        BitVec.ofNat 64 (t.offset % 2 ^ 40 + q.val * 2 ^ 40 + s.pcOf q * 2 ^ 48) ∧
      SMap.get t.trace (s.get L.CRN_TRACE_IDX.PROD % 8192 * 4 + 2) = BitVec.ofNat 64 (i.imm % 2 ^ 16) ∧
      SMap.get t.trace (s.get L.CRN_TRACE_IDX.PROD % 8192 * 4 + 3) = BitVec.ofNat 64 (s.creg q i.rs) ∧
      SameRegsButRecords [R.CSQ_STATUS q] s t))

/-- Writes of a sequencer's registers by its owner (R70, R82, R99, R100): START arms a stopped one, STOP wins over START, the
store to instruction memory takes the whole word, CSQ_FLAG_SET adds bits; a reserved policy
leaves its own field alone; an access of the other world is refused.
Where a point is open it states the model's choice (log entries 5, 143, 203). -/
def Obligations.SequencerRegisterWrites : Prop :=
  (∀ (c : Issuer) (q : Fin 32) (v : Word) (s : State), Sends s c → s.resAccess (.csq q.val) c = true → fieldOf v 0 2 = 1 →
    fieldOf v 6 2 ≠ 3 → fieldOf v 8 2 ≠ 3 → s.csqState q ≠ stArmed → s.csqState q ≠ stRun → s.csqState q ≠ stWait →
    s.csqState q ≠ stYielded → s.csqState q ≠ 7 → Completes (.csqStart c q v) s (fun t => t.resp = .ok ∧ t.csqState q = stArmed ∧
      t.flagsOf q = 0 ∧ t.get (L.CSQ_TRACK.BUSY q) = 0 ∧ t.get (L.CSQ_STATUS.E q) = 0 ∧ t.get (L.CSQ_STATUS.SLEEP q) = 0 ∧
      t.rd (R.CSQ_OVR_CNT q) = 0 ∧ t.get (L.CSQ_CTRL.HOLD q) = fieldOf v 2 1 ∧
      t.get (L.CSQ_CTRL.OVR_POLICY q) = fieldOf v 6 2 ∧ t.get (L.CSQ_CTRL.FRM_POLICY q) = fieldOf v 8 2 ∧
      SameRegsBut [R.CSQ_CTRL q, R.CSQ_STATUS q, R.CSQ_FLAGS q, R.CSQ_TRACK q, R.CSQ_OVR_CNT q] s t)) ∧
  (∀ (c : Issuer) (q : Fin 32) (v : Word) (s : State), Sends s c → s.resAccess (.csq q.val) c = true → v.getLsbD 1 = true →
    fieldOf v 6 2 ≠ 3 → fieldOf v 8 2 ≠ 3 → Completes (.csqStop c q v) s (fun t => t.resp = .ok ∧
      t.csqState q = stStopped ∧ t.get (L.CSQ_TRACK.BUSY q) = 0 ∧ t.get (L.CSQ_TRACK.DONE_OPEN q) = 0 ∧
      (t.csqOf q).wait = .none ∧ (t.csqOf q).skip = none ∧
      SameRegsBut [R.CSQ_CTRL q, R.CSQ_STATUS q, R.CSQ_TRACK q] s t)) ∧
  (∀ (c : Issuer) (q : Fin 32) (v : Word) (s : State), Sends s c → s.resAccess (.csq q.val) c = true →
    (fieldOf v 6 2 = 3 ∨ fieldOf v 8 2 = 3) →
    Completes (.csqStart c q v) s (fun t => t.resp = .error ∧ PoliciesKept q v s t) ∧
    Completes (.csqStop c q v) s (fun t => t.resp = .error ∧ PoliciesKept q v s t)) ∧
  (∀ (c : Issuer) (q : Fin 32) (a : Fin 2048) (v : Word) (s : State), Sends s c → s.resAccess (.csq q.val) c = true →
    Completes (.csqImemWrite c q a v) s (fun t => t.resp = .ok ∧ t.rd (R.CSQ_IMEM q a) = v ∧
      SMap.get t.ecc (R.CSQ_IMEM q a) = 0 ∧ SameRegsBut [R.CSQ_IMEM q a] s t)) ∧
  (∀ (c : Issuer) (q : Fin 32) (v : Word) (s : State), Sends s c → s.resAccess (.csq q.val) c = true →
    Completes (.csqFlagSet c q v) s (fun t => t.resp = .ok ∧
      t.get (L.CSQ_FLAGS.F q) = s.get (L.CSQ_FLAGS.F q) ||| fieldOf v 0 32 ∧
      t.get (L.CSQ_FLAGS.BELL q) = s.get (L.CSQ_FLAGS.BELL q) ||| fieldOf v 33 1 ∧
      t.get (L.CSQ_FLAGS.DONE q) = s.get (L.CSQ_FLAGS.DONE q) ∧ SameRegsBut [R.CSQ_FLAGS q] s t)) ∧
  (∀ (c : Issuer) (q : Fin 32) (a : Fin 2048) (v : Word) (s : State), Sends s c → c.sealed ≠ s.ownerSealed (.csq q.val) →
    Completes (.csqStart c q v) s (fun t => Refused s t ∧ t.csq = s.csq) ∧
    Completes (.csqStop c q v) s (fun t => Refused s t ∧ t.csq = s.csq) ∧
    Completes (.csqImemWrite c q a v) s (fun t => Refused s t) ∧ Completes (.csqFlagSet c q v) s (fun t => Refused s t))

/-- An instruction that is not legal faults with ILLEGAL, one that falls through at address 2,047 with PC_RANGE, and one whose
word carries an uncorrectable error with IMEM_ECC; a word with a correctable error is executed and ECC_CORR is set (R80, R97,
R98); a false condition passes an instruction by in one nanosecond (R73).
Where a point is open it states the model's choice (log entries 23, 25). -/
def Obligations.SequencerFaultsAndConditions : Prop :=
  (∀ (q : Fin 32) (s : State), s.csqIdle q = true → csqLegal q (csqFields (s.rd (R.CSQ_IMEM q (s.pcOf q)))) = false →
    SMap.get s.ecc (R.CSQ_IMEM q (s.pcOf q)) ≠ 2 →
    Completes (.addi q) s (fun t => CsqFaulted q faultIllegal (s.pcOf q) t ∧
      SameRegsButRecords [R.CSQ_STATUS q, R.CSQ_FAULT q, R.CSQ_FAULT_FRAME q, R.CSQ_EVT q] s t)) ∧
  (∀ (q : Fin 32) (i : CsqWord) (s : State), CsqFits s q 0x02 i → s.pcOf q = 2047 →
    Completes (.addi q) s (fun t => CsqFaulted q faultPcRange 2047 t ∧ t.creg q i.rd = s.creg q i.rd)) ∧
  (∀ (q : Fin 32) (s : State), s.csqIdle q = true → SMap.get s.ecc (R.CSQ_IMEM q (s.pcOf q)) = 2 →
    (csqFields (s.rd (R.CSQ_IMEM q (s.pcOf q)))).cond = 0 →
    Completes (.addi q) s (fun t => CsqFaulted q faultImemEcc (s.pcOf q) t)) ∧
  (∀ (q : Fin 32) (i : CsqWord) (s : State), s.csqIdle q = true → csqFields (s.rd (R.CSQ_IMEM q (s.pcOf q))) = i →
    i.op = 0x02 → csqLegal q i = true → s.csqCond q i.cond = true → s.pcOf q ≠ 2047 →
    SMap.get s.ecc (R.CSQ_IMEM q (s.pcOf q)) = 1 →
    Completes (.addi q) s (fun t => CsqMovesOn q 1 s t ∧ t.get (L.CSQ_EVT.ECC_CORR q) = 1 ∧ t.creg q i.rd =
      (BitVec.ofNat 64 (s.creg q i.rs) + (BitVec.ofNat 40 i.imm).signExtend 64).toNat ∧
      SameRegsButRecords [R.CSQ_STATUS q, R.CSQ_CREG q i.rd, R.CSQ_EVT q] s t)) ∧
  (∀ (q : Fin 32) (i : CsqWord) (s : State), s.csqIdle q = true → csqFields (s.rd (R.CSQ_IMEM q (s.pcOf q))) = i →
    csqLegal q i = true → s.csqCond q i.cond = false → s.pcOf q ≠ 2047 → SMap.get s.ecc (R.CSQ_IMEM q (s.pcOf q)) ≠ 2 →
    Completes (.addi q) s (fun t => CsqMovesOn q 1 s t ∧ SameRegsButRecords [R.CSQ_STATUS q] s t))


/-! ### Launches (03, 04) -/

/-- LAUNCH and its completion (R77, R83, R84, R103, R106, R107, R274): a launch that fails a check of Table 3.7 gives the code
and the reason in Cd; one that passes takes the lowest free slot, its handle goes to Cd, and the unit holds it with the words of
its descriptor; a bad word 0 ends it with DESC_BAD. Of two launches into one target in a nanosecond that of the home sequencer
is the first. One whose operation must wait at a home of HBM (R173) stays accepted and pending and starts when memory answers.
A completion is recorded in its slot and sets
DONE, and one of an old generation is counted as late.
Where a point is open it states the model's choice (log entries 29, 30, 52, 152, 163). -/
def Obligations.LaunchesAreAcceptedOrRefused : Prop :=
  (∀ (q : Fin 32) (i : CsqWord) (r : Nat) (s : State), CsqFits s q 0x20 i → s.pcOf q ≠ 2047 →
    FirstToLaunch q i.tgt (s.csqBegin q) →
    (s.csqBegin q).launchCheck q i.tgt (i.imm % 256) (i.imm.testBit 39) = r → r ≠ 0 →
    Completes (.launch q) s (fun t => CsqMovesOn q 1 s t ∧ t.creg q i.rd = i.tgt * 2 ^ 48 + r ∧
      t.get (L.CSQ_STATUS.Z q) = 0 ∧ t.get (L.CSQ_STATUS.E q) = 1 ∧ t.get (L.CSQ_EVT.REFUSED q) = 1 ∧
      t.get (L.CSQ_LAUNCH_CNT.REFUSED q) = min (s.get (L.CSQ_LAUNCH_CNT.REFUSED q) + 1) (2 ^ 32 - 1) ∧
      t.launches = s.launches ∧ t.slots = s.slots ∧
      SameRegsButRecords [R.CSQ_STATUS q, R.CSQ_CREG q i.rd, R.CSQ_EVT q, R.CSQ_LAUNCH_CNT q] s t)) ∧
  (∀ (q : Fin 32) (i : CsqWord) (k : Nat) (s : State), CsqFits s q 0x20 i → s.pcOf q ≠ 2047 →
    FirstToLaunch q i.tgt (s.csqBegin q) →
    (s.csqBegin q).launchCheck q i.tgt (i.imm % 256) (i.imm.testBit 39) = 0 → k < 32 →
    (∀ j, j < k → (s.get (L.CSQ_TRACK.BUSY q)).testBit j = true) → (s.get (L.CSQ_TRACK.BUSY q)).testBit k = false →
    Completes (.launch q) s (fun t => t.pcOf q = s.pcOf q + 1 ∧ t.csqState q = stRun ∧ (t.csqOf q).readyAt = t.up + 1 ∧
      t.creg q i.rd = launchHandle i.tgt k ((s.csqOf q).seqNext % 2 ^ 16) ∧
      (t.csqOf q).seqNext = ((s.csqOf q).seqNext + 1) % 2 ^ 16 ∧ t.get (L.CSQ_STATUS.Z q) = 1 ∧
      t.get (L.CSQ_STATUS.E q) = s.get (L.CSQ_STATUS.E q) ∧ (t.get (L.CSQ_TRACK.BUSY q)).testBit k = true ∧
      (t.get (L.CSQ_TRACK.DONE_OPEN q)).testBit k = false ∧ t.nextLaunch = s.nextLaunch + 1 ∧
      t.get (L.CSQ_LAUNCH_CNT.ACCEPTED q) = min (s.get (L.CSQ_LAUNCH_CNT.ACCEPTED q) + 1) (2 ^ 32 - 1) ∧
      (SMap.get t.slots (32 * q.val + k)).target = i.tgt ∧
      ((∀ x, x ∈ s.launches → x.id ≠ s.nextLaunch) → ∃ l, t.findLaunch s.nextLaunch = some l ∧ l.csq = q.val ∧ l.slot = k ∧
        l.target = i.tgt ∧ l.seq = (s.csqOf q).seqNext % 2 ^ 16 ∧ l.sealed = s.ownerSealed (.csq q) ∧
        l.vi = s.viOf (.csq q) ∧ l.fs = i.imm.testBit 39 ∧
        l.acceptAt = max (s.csqBegin q).up (SMap.get s.unitAccept i.tgt) ∧
        l.desc = (if i.imm.testBit 38 then (s.descWords q (i.imm % 256)).set 1 (s.creg q i.rs)
          else s.descWords q (i.imm % 256)) ∧
        (word0Good i.tgt (s.get (L.CSQ_DMEM.WORD q (8 * (i.imm % 256)))) = false →
          (8 < i.tgt ∨ ∀ x, x ∈ s.launches → x.held = false) → l.status = some 1)) ∧
      (word0Good i.tgt (s.get (L.CSQ_DMEM.WORD q (8 * (i.imm % 256)))) = false → SameRegsButRecords
        ([R.CSQ_STATUS q, R.CSQ_CREG q i.rd, R.CSQ_TRACK q, R.CSQ_LAUNCH_CNT q, R.CSQ_EVT q] ++
          (if i.tgt ≤ 8 then [R.QE_CNT (i.tgt - 1), R.QE_EVT (i.tgt - 1)] else [])) s t))) ∧
  (∀ (q p : Fin 32) (n : Nat) (s : State), s.csqIdle q = true → (s.csqBegin q).launchDue q = some n →
    homeSequencer n = some p.val → p ≠ q → (s.csqBegin q).launchDue p = some n →
    ((s.csqBegin q).waittDone p).launchCheck p n
      ((csqFields (s.rd (R.CSQ_IMEM p (((s.csqBegin q).waittDone p).pcOf p)))).imm % 256)
      ((csqFields (s.rd (R.CSQ_IMEM p (((s.csqBegin q).waittDone p).pcOf p)))).imm.testBit 39) = 0 →
    (∀ x, x ∈ s.launches → x.id ≠ s.nextLaunch) →
    Completes (.launch q) s (fun t => ∃ l, t.findLaunch s.nextLaunch = some l ∧ l.csq = p.val ∧ l.target = n ∧
      l.acceptAt = max (s.csqBegin q).up (SMap.get s.unitAccept n))) ∧
  (∀ (id : Nat) (x l : Launch) (u s : State), s.findLaunch id = some x → (s.elapseUntil x.acceptAt).endGrants = u →
    u.launches = [l] → l.id = id → l.held = true → l.status = none →
    (∀ (k : Option CohKind) (m : CohMsg), (u.unitStarts l).devAsked = some (k, m) →
      Completes (.launchCompletion id) s (fun t => t = u.devAsk k m)) ∧
    (∀ (y : Launch), (u.unitStarts l).devAsked = none → (u.unitStarts l).findLaunch id = some y → y.status = none →
      Completes (.launchCompletion id) s (fun t => t = u.unitStarts l))) ∧
  (∀ (id st : Nat) (x l : Launch) (u s : State), s.findLaunch id = some x →
    (s.elapseUntil x.acceptAt).endGrants.unitsResume = u → u.findLaunch id = some l → l.status = some st →
    (∀ v, l.vi = some v → u.get (L.VI_STATE.GEN (v / 32) (v % 32)) = l.gen) → l.csq < 32 →
    l.slot < 32 → (u.get (L.CSQ_TRACK.BUSY l.csq)).testBit l.slot = true →
    (u.get (L.CSQ_TRACK.DONE_OPEN l.csq)).testBit l.slot = false → (SMap.get u.slots (32 * l.csq + l.slot)).seq = l.seq →
    Completes (.launchCompletion id) s (fun t => (t.get (L.CSQ_TRACK.DONE_OPEN l.csq)).testBit l.slot = true ∧
      t.get (L.CSQ_FLAGS.DONE l.csq) = 1 ∧ t.findLaunch id = none ∧
      (SMap.get t.slots (32 * l.csq + l.slot)).status = finalStatus st l.rsvDenied ∧
      (SMap.get t.slots (32 * l.csq + l.slot)).time = t.tb.ns ∧ (SMap.get t.slots (32 * l.csq + l.slot)).offset = t.offset ∧
      SameRegsButRecords [R.CSQ_TRACK l.csq, R.CSQ_FLAGS l.csq] u t ∧
      ((∀ y, y ∈ s.launches → y.held = false) → t.up = max s.up x.acceptAt ∧
        (s.mesh.asks = [] → s.mesh.grants = [] → SameRegsButRecords [R.CSQ_TRACK l.csq, R.CSQ_FLAGS l.csq] s t)))) ∧
  (∀ (id st v : Nat) (x l : Launch) (u s : State), s.findLaunch id = some x →
    (s.elapseUntil x.acceptAt).endGrants.unitsResume = u → u.findLaunch id = some l → l.status = some st → l.vi = some v →
    v < 256 → u.get (L.VI_STATE.GEN (v / 32) (v % 32)) ≠ l.gen →
    Completes (.launchCompletion id) s (fun t => t.slots = u.slots ∧ t.findLaunch id = none ∧
      t.get (L.VI_STATE.LATE (v / 32) (v % 32)) = min (u.get (L.VI_STATE.LATE (v / 32) (v % 32)) + 1) (2 ^ 32 - 1) ∧
      SameRegsButRecords [R.VI_STATE (v / 32) (v % 32)] u t ∧
      ((∀ y, y ∈ s.launches → y.held = false) → t.slots = s.slots ∧
        (s.mesh.asks = [] → s.mesh.grants = [] → SameRegsButRecords [R.VI_STATE (v / 32) (v % 32)] s t))))


/-! ### Application cores (05) -/

/-- Interrupts and timers of the harts (R112, R122, R125, R131 to R133, R138, R139): once the count reaches SKMTIMECMP,
mip.MTIP is 1; WFI of a hart that executes stops it by SKPWR.DEPTH, or ends at once where an interrupt is pending and
enabled, or is an illegal or virtual instruction as mstatus.TW and hstatus.VTW say; a pending, enabled interrupt wakes a
stopped hart; a message of the right world and instance records its identity, and one of the other world is refused; a
rising wired source makes its APLIC source pending; the oldest launch of an injector sends a launch word and records its
identity in every file it reaches, ends with a status where it reaches none or one is refused, and stays pending without a
timing lane.
Where a point is open it states the model's choice (log entries 31 to 34, 46, 166, 169). -/
def Obligations.InterruptsReachTheHarts : Prop :=
  (∀ (h : Fin 216) (s : State), Completes (.timerCompare h) s (fun t =>
    (t.mipOf h).testBit 7 = decide (s.get (L.SKMTIMECMP.CMP h) ≤ t.tb.ns) ∧ t.hregs = s.hregs ∧
    (TimeRuns s (s.get (L.SKMTIMECMP.CMP h)) → (t.mipOf h).testBit 7 = true) ∧ SameRegsButRecords [] s t)) ∧
  (∀ (h : Fin 216) (md : PrivMode) (s : State), s.hartActs h = true → s.irqReady h = false →
    (md = .m ∨ (md = .s ∧ (s.csr h 0x300).testBit 21 = false) ∨
      (md = .vs ∧ (s.csr h 0x300).testBit 21 = false ∧ (s.csr h 0x600).testBit 21 = false)) →
    Completes (.wfi h md) s (fun t =>
      HartNow h { s.hartSt h with run := if s.get (L.SKPWR.DEPTH h) = 0 then .wfi else .nap, mode := md, wc := none } t ∧
      WcEmptied h s t ∧ (s.get (L.SKPWR.DEPTH h) = 0 → t.cache = s.cache) ∧ t.hregs = s.hregs ∧ SameRegsBut [] s t)) ∧
  (∀ (h : Fin 216) (s : State), s.hartActs h = true → s.irqReady h = true → Completes (.wfi h .m) s (fun t =>
    HartNow h { s.hartSt h with mode := .m, wc := none } t ∧ WcEmptied h s t ∧ t.cache = s.cache ∧ SameRegsBut [] s t)) ∧
  (∀ (h : Fin 216) (md : PrivMode) (s : State), s.hartActs h = true →
    (md = .u ∨ md ≠ .m ∧ (s.csr h 0x300).testBit 21 = true) → Completes (.wfi h md) s (fun t => t.resp = .illegal ∧
      HartNow h { s.hartSt h with mode := md, wc := none } t ∧ SameRegsBut [] s t)) ∧
  (∀ (h : Fin 216) (md : PrivMode) (s : State), s.hartActs h = true → (s.csr h 0x300).testBit 21 = false →
    (md = .vu ∨ md = .vs ∧ (s.csr h 0x600).testBit 21 = true) → Completes (.wfi h md) s (fun t => t.resp = .virtualInstr ∧
      HartNow h { s.hartSt h with mode := md, wc := none } t ∧ SameRegsBut [] s t)) ∧
  (∀ (h : Fin 216) (s : State), ((s.hartSt h).run = .wfi ∨ (s.hartSt h).run = .nap) → s.irqReady h = true →
    s.get (L.PWR_DOM.STATE (2 * hartDie h)) = 1 → Completes (.interruptWake h) s (fun t =>
      HartNow h { s.hartSt h with run := .run } t ∧ t.hregs = s.hregs ∧ SameRegsBut [] s t)) ∧
  (∀ (c : Issuer) (a : PAddr) (data h f : Nat) (s : State), Sends s c → intPage a.toNat = some (h, f) → a.toNat % 0x1000 = 0 →
    s.agentIn c = true → s.hartUnused h = false → s.dieAway (hartDie h) = false → s.dieIn (hartDie h) = true →
    (f = 16 ∨ s.clusterSwitching (hartDie h) (hartCluster h) = false) →
    (s.tagged c).sealed = (f = 16 || s.clusterSealed (hartDie h) (hartCluster h)) →
    (c.vi = none ∨ s.fileVi h f = none ∨ s.fileVi h f = c.vi) →
    1 ≤ data → data ≤ 2047 → Completes (.msiWrite c a data) s (fun t => t.resp = .ok ∧
      t.intFile h f = { s.intFile h f with pend := setBit (s.intFile h f).pend data } ∧ SameRegsBut [] s t)) ∧
  (∀ (c : Issuer) (a : PAddr) (data h f : Nat) (s : State), Sends s c → intPage a.toNat = some (h, f) → s.agentIn c = true →
    s.hartUnused h = false → s.dieAway (hartDie h) = false → s.dieIn (hartDie h) = true →
    (s.tagged c).sealed ≠ (f = 16 || s.clusterSealed (hartDie h) (hartCluster h)) →
    Completes (.msiWrite c a data) s (fun t => Refused s t ∧ t.files = s.files)) ∧
  (∀ (src : Fin 512) (s : State), src.val ≠ 0 → s.aplicMode src = 4 → (SMap.get s.aplic src.val).level = false →
    (s.aplicReg (s.aplicDomain src) (0x1E00 + 4 * (src.val / 32))).testBit (src.val % 32) = false →
    Completes (.aplicSource src true) s (fun t => SMap.get t.aplic src.val = ⟨true, true⟩ ∧ t.files = s.files ∧ SameRegsBut [] s t)) ∧
  (∀ (id n : Nat) (l : Launch) (s : State), s.findLaunch id = some l → l.status = none → 0x40 ≤ l.target → l.target ≤ 0x4B →
    s.firstPending l = true → s.timeLink (l.target - 0x40) = some n →
    (bits (l.desc.getD 1 0) 49 48 ≠ 2 ∨ (1 ≤ bits (l.desc.getD 1 0) 55 50 ∧ bits (l.desc.getD 1 0) 55 50 ≤ 15)) →
    1 ≤ bits (l.desc.getD 1 0) 42 32 → s.injSel (l.target - 0x40) (l.desc.getD 1 0) ≠ [] →
    (∀ i, i ∈ s.injSel (l.target - 0x40) (l.desc.getD 1 0) →
      (s.injJudge l (l.target - 0x40) i (bits (l.desc.getD 1 0) 49 48) (bits (l.desc.getD 1 0) 55 50)).hits = true) →
    Completes (.injectorLaunchWord id) s (fun t =>
      t.findLaunch id = some { l with started := true, status := some 0 } ∧ t.up = max s.up l.acceptAt ∧
      t.out = s.out ++ [.launchWord n (l.desc.getD 1 0)] ∧
      (∀ i, i ∈ s.injSel (l.target - 0x40) (l.desc.getD 1 0) → ∀ h f,
        s.injJudge l (l.target - 0x40) i (bits (l.desc.getD 1 0) 49 48) (bits (l.desc.getD 1 0) 55 50) = .file h f →
        (t.intFile h f).pend.testBit (bits (l.desc.getD 1 0) 42 32) = true) ∧ SameRegsButRecords [] s t)) ∧
  (∀ (id i st cause h : Nat) (l : Launch) (s : State), s.findLaunch id = some l → l.status = none → 0x40 ≤ l.target →
    l.target ≤ 0x4B → s.firstPending l = true → (s.timeLink (l.target - 0x40)).isSome = true →
    (bits (l.desc.getD 1 0) 49 48 ≠ 2 ∨ (1 ≤ bits (l.desc.getD 1 0) 55 50 ∧ bits (l.desc.getD 1 0) 55 50 ≤ 15)) →
    s.injSel (l.target - 0x40) (l.desc.getD 1 0) = [i] →
    s.injJudge l (l.target - 0x40) i (bits (l.desc.getD 1 0) 49 48) (bits (l.desc.getD 1 0) 55 50) = .refused st cause h →
    Completes (.injectorLaunchWord id) s (fun t => t.findLaunch id = some { l with started := true, status := some st } ∧
      t.files = s.files ∧ t.get (L.ERR_LOG_STAT.VALID (dieLog (l.target - 0x40))) = 1 ∧ SameRegsButRecords [] s t)) ∧
  (∀ (id : Nat) (l : Launch) (s : State), s.findLaunch id = some l → l.status = none → 0x40 ≤ l.target → l.target ≤ 0x4B →
    s.firstPending l = true →
    (∀ i, i ∈ s.injSel (l.target - 0x40) (l.desc.getD 1 0) →
      s.injJudge l (l.target - 0x40) i (bits (l.desc.getD 1 0) 49 48) (bits (l.desc.getD 1 0) 55 50) = .away) →
    Completes (.injectorLaunchWord id) s (fun t => t.findLaunch id = some { l with started := true, status := some 1 } ∧
      t.files = s.files ∧ t.out = s.out ∧ SameRegsButRecords [] s t)) ∧
  (∀ (id i h f : Nat) (l : Launch) (s : State), s.findLaunch id = some l → l.status = none → 0x40 ≤ l.target → l.target ≤ 0x4B →
    s.timeLink (l.target - 0x40) = none → bits (l.desc.getD 1 0) 49 48 ≠ 2 →
    i ∈ s.injSel (l.target - 0x40) (l.desc.getD 1 0) →
    s.injJudge l (l.target - 0x40) i (bits (l.desc.getD 1 0) 49 48) (bits (l.desc.getD 1 0) 55 50) = .file h f →
    Completes (.injectorLaunchWord id) s (fun t => t.findLaunch id = some l ∧ t.files = s.files ∧ t.out = s.out ∧
      SameRegsBut [] s t))

/-- World switches, lockstep and sampling (R129, R130, R137, R140, R141, R319 to R321): a GO written from the monitor
waits for the partner core, a second one of the same target starts the switch, one of the other target withdraws both, a
lockstep pair needs one, a GO for the cluster's own world has no effect but to withdraw the other core's, and one during a
switch has none; the switch ends with the
target world and both harts in machine mode; a waiting GO is withdrawn by an interrupt or after 100 µs; a mismatch stops the
pair and is recorded; one instruction of a sampling interval is recorded or counted, and no other; an acknowledgement clears
the sample; a paused hart resumes unless the package has stopped.
Where a point is open it states the model's choice (log entries 35, 101, 159, 171). -/
def Obligations.WorldSwitchLockstepAndSampling : Prop :=
  (∀ (h : Fin 216) (c : Issuer) (v : Word) (s : State), c.agent = .hart h.val → s.hartActs h = true → (s.hartSt h).mode = .m →
    s.inMonitor (s.hreg h 0x20).toNat = true → v.getLsbD 0 = true → v.getLsbD 1 ≠ s.clusterSealed (hartDie h) (hartCluster h) →
    s.clusterSwitching (hartDie h) (hartCluster h) = false → s.pairActive (hartDie h) (hartCluster h) = false →
    s.coreFailed (hartOf (hartDie h) (hartCluster h) 0) = false → s.coreFailed (hartOf (hartDie h) (hartCluster h) 1) = false →
    Completes (.worldSwitchGo h c v) s (fun t => t.resp = .ok ∧ t.get (L.SKWSW.TARGET h) = fieldOf v 1 1 ∧
      ((s.hartSt (hartOf (hartDie h) (hartCluster h) (1 - hartCore h))).goWait = false →
        HartNow h { s.hartSt h with run := .switching, mode := .m, goWait := true, goAt := s.up, goTarget := v.getLsbD 1 } t ∧
        SameRegsBut [R.SKWSW h] s t) ∧
      ((s.hartSt (hartOf (hartDie h) (hartCluster h) (1 - hartCore h))).goWait = true →
        (s.hartSt (hartOf (hartDie h) (hartCluster h) (1 - hartCore h))).goTarget = v.getLsbD 1 →
        t.clusterSwitching (hartDie h) (hartCluster h) = true ∧
        (∀ k, k < 2 → (t.hartSt (hartOf (hartDie h) (hartCluster h) k)).run = .switching ∧
          (t.hartSt (hartOf (hartDie h) (hartCluster h) k)).goTarget = v.getLsbD 1 ∧
          (t.hartSt (hartOf (hartDie h) (hartCluster h) k)).goWait = false) ∧
        SameRegsBut [R.SKWSW h, R.WLD_CL_WORLD (hartDie h)] s t) ∧
      ((s.hartSt (hartOf (hartDie h) (hartCluster h) (1 - hartCore h))).goWait = true →
        (s.hartSt (hartOf (hartDie h) (hartCluster h) (1 - hartCore h))).goTarget ≠ v.getLsbD 1 →
        HartNow (hartOf (hartDie h) (hartCluster h) (1 - hartCore h))
          { s.hartSt (hartOf (hartDie h) (hartCluster h) (1 - hartCore h)) with run := .run, goWait := false } t ∧
        HartNow h { s.hartSt h with mode := .m } t ∧ SameRegsBut [R.SKWSW h] s t))) ∧
  (∀ (h : Fin 216) (c : Issuer) (v : Word) (s : State), c.agent = .hart h.val → s.hartActs h = true → (s.hartSt h).mode = .m →
    s.inMonitor (s.hreg h 0x20).toNat = true → v.getLsbD 0 = true → v.getLsbD 1 ≠ s.clusterSealed (hartDie h) (hartCluster h) →
    s.clusterSwitching (hartDie h) (hartCluster h) = false → s.pairActive (hartDie h) (hartCluster h) = true →
    Completes (.worldSwitchGo h c v) s (fun t => t.resp = .ok ∧ t.clusterSwitching (hartDie h) (hartCluster h) = true ∧
      (t.hartSt h).run = .switching ∧ (t.hartSt h).goTarget = v.getLsbD 1 ∧
      SameRegsBut [R.SKWSW h, R.WLD_CL_WORLD (hartDie h)] s t)) ∧
  (∀ (h : Fin 216) (c : Issuer) (v : Word) (s : State), c.agent = .hart h.val → s.hartActs h = true → (s.hartSt h).mode = .m →
    s.inMonitor (s.hreg h 0x20).toNat = true → (v.getLsbD 0 = false ∨ v.getLsbD 1 = s.clusterSealed (hartDie h) (hartCluster h) ∨
      s.clusterSwitching (hartDie h) (hartCluster h) = true) →
    Completes (.worldSwitchGo h c v) s (fun t => t.resp = .ok ∧ t.get (L.SKWSW.TARGET h) = fieldOf v 1 1 ∧
      (∀ k, k < 216 → (k ≠ hartOf (hartDie h) (hartCluster h) (1 - hartCore h) ∨ v.getLsbD 0 = false ∨
        s.clusterSwitching (hartDie h) (hartCluster h) = true ∨ (s.hartSt k).goWait = false) → HartNow k (s.hartSt k) t) ∧
      (∀ k, k = hartOf (hartDie h) (hartCluster h) (1 - hartCore h) → v.getLsbD 0 = true →
        s.clusterSwitching (hartDie h) (hartCluster h) = false → (s.hartSt k).goWait = true →
        HartNow k { s.hartSt k with run := .run, goWait := false } t) ∧ SameRegsBut [R.SKWSW h] s t)) ∧
  (∀ (h : Fin 216) (c : Issuer) (v : Word) (s : State), (c.agent ≠ .hart h.val ∨
      (s.hartActs h = true ∧ (s.inMonitor (s.hreg h 0x20).toNat = false ∨ (s.hartSt h).mode ≠ .m))) →
    Completes (.worldSwitchGo h c v) s (fun t => t.resp = .illegal ∧ t.hart = s.hart ∧ SameRegsBut [] s t)) ∧
  (∀ (h : Fin 216) (s : State), (s.hartSt h).goWait = true → Completes (.worldSwitchGoWithdraw h) s (fun t =>
    HartNow h { s.hartSt h with run := .run, goWait := false } t ∧
    (s.mIrqReady h = true → t.up = s.up) ∧ (s.mIrqReady h = false → t.up = max s.up ((s.hartSt h).goAt + 100000)) ∧
    SameRegsButRecords [] s t)) ∧
  (∀ (d : Fin 12) (c : Fin 9) (b : Bool) (s : State), s.clusterSwitching d c = true →
    (s.flushCluster d c).clusterClean d c = true → s.pwr.rst = none → s.pairActive d c = false → (s.dieSt d).otherMake = false →
    (∀ k, k < 2 → s.coreFailed (hartOf d c k) = false ∧ (s.hartSt (hartOf d c k)).goTarget = b ∧
      (s.hartSt (hartOf d c k)).run = .switching) →
    Completes (.worldSwitchDone d c) s (fun t => t.clusterSwitching d c = false ∧ t.clusterSealed d c = b ∧
      t.get (L.WLD_SW_CNT.COUNT d) = min (s.get (L.WLD_SW_CNT.COUNT d) + 1) (2 ^ 32 - 1) ∧ t.gftag = s.gftag ∧
      (∀ k, k < 2 → HartNow (hartOf d c k) { s.hartSt (hartOf d c k) with run := .run, mode := .m } t ∧
        t.get (L.SKSMPCFG.EN (hartOf d c k)) = 0 ∧ t.rd (R.SKSMPINFO (hartOf d c k)) = 0 ∧ t.rd (R.SKSMPPC (hartOf d c k)) = 0 ∧
        t.rd (R.SKSMPADDR (hartOf d c k)) = 0 ∧ ∀ f, f < 16 → t.intFile (hartOf d c k) f = default))) ∧
  (∀ (d : Fin 12) (c : Fin 9) (pc : Word) (s : State), s.pairActive d c = true →
    Completes (.lockstepMismatch d c pc) s (fun t => HartNow (hartOf d c 0) { s.hartSt (hartOf d c 0) with run := .stopped } t ∧
      t.get (L.SKLSCFG.MM_SEEN (hartOf d c 0)) = 1 ∧ t.get (L.ERR_LOG_STAT.VALID (dieLog d)) = 1 ∧
      (s.get (L.ERR_LOG_STAT.VALID (dieLog d)) = 0 → t.get (L.ERR_LOG_STAT.CAUSE (dieLog d)) = Cause.MISMATCH ∧
        t.get (L.ERR_LOG_ADDR.ADDR (dieLog d)) = fieldOf pc 0 48 ∧ t.rd (R.ERR_LOG_FRAME (dieLog d)) = BitVec.ofNat 64 s.frame) ∧
      (SMap.get t.aplic (16 + d.val)).level = true ∧ t.cache = s.cache ∧ SameRegsButRecords [R.SKLSCFG (hartOf d c 0)] s t)) ∧
  (∀ (h : Fin 216) (r : Sample) (s : State), s.hartActs h = true → s.get (L.SKSMPCFG.EN h) = 1 → r.mode ≠ .m →
    (s.get (L.SKSMPCFG.MODES h)).testBit (modeNum r.mode) = true →
    ((s.hartSt h).smpEnd ≤ r.retired ∨ (s.hartSt h).smpDone = false) → Completes (.sampleChosen h r) s (fun t =>
      (t.hartSt h).smpDone = true ∧ r.retired < (t.hartSt h).smpEnd ∧
      (r.retired < (s.hartSt h).smpEnd → (t.hartSt h).smpEnd = (s.hartSt h).smpEnd) ∧
      ((s.hartSt h).smpEnd ≤ r.retired → (t.hartSt h).smpEnd < r.retired + 3 * 2 ^ (s.get (L.SKSMPCFG.INTERVAL h) + 9)) ∧
      (s.get (L.SKSMPINFO.VALID h) = 0 → t.rd (R.SKSMPPC h) = r.pc ∧ t.rd (R.SKSMPADDR h) = r.addr ∧
        t.get (L.SKSMPINFO.VALID h) = 1 ∧ t.get (L.SKSMPINFO.LATENCY h) = min r.latency (2 ^ 16 - 1) ∧
        t.get (L.SKSMPINFO.MODE h) = modeNum r.mode ∧ (t.csr h 0x344).testBit 13 = true ∧
        SameRegsBut [R.SKSMPPC h, R.SKSMPADDR h, R.SKSMPINFO h] s t) ∧
      (s.get (L.SKSMPINFO.VALID h) = 1 → t.get (L.SKSMPINFO.DROPPED h) = min (s.get (L.SKSMPINFO.DROPPED h) + 1) (2 ^ 15 - 1) ∧
        t.hregs = s.hregs ∧ SameRegsBut [R.SKSMPINFO h] s t))) ∧
  (∀ (h : Fin 216) (r : Sample) (s : State), (r.mode = .m ∨ s.get (L.SKSMPCFG.EN h) = 0 ∨
      (r.retired < (s.hartSt h).smpEnd ∧ (s.hartSt h).smpDone = true)) → Completes (.sampleChosen h r) s (fun t =>
    t.hregs = s.hregs ∧ SameRegsBut [] s t)) ∧
  (∀ (h : Fin 216) (v : Word) (s : State), s.hartActs h = true → Completes (.sampleAck h v) s (fun t => t.resp = .ok ∧
    t.get (L.SKSMPCFG.EN h) = fieldOf v 0 1 ∧ t.get (L.SKSMPCFG.INTERVAL h) = fieldOf v 8 4 ∧
    t.get (L.SKSMPCFG.MODES h) = fieldOf v 16 4 ∧
    (v.getLsbD 1 = true → t.get (L.SKSMPINFO.VALID h) = 0 ∧ t.get (L.SKSMPINFO.DROPPED h) = 0) ∧
    SameRegsBut (if v.getLsbD 1 then [R.SKSMPCFG h, R.SKSMPINFO h] else [R.SKSMPCFG h]) s t)) ∧
  (∀ (h : Fin 216) (s : State), Completes (.captureHartResume h) s (fun t =>
    (s.get (L.HA_STATUS.STOPPED 0) = 0 → ∀ x, x ∈ t.paused ↔ (x ∈ s.paused ∧ x ≠ h.val)) ∧
    (s.get (L.HA_STATUS.STOPPED 0) = 1 → t.paused = s.paused) ∧ SameRegsBut [] s t))


/-! ### Caches and Piton memory (06) -/

/-- Accesses of the cores, prefetches and evictions (R121, R127, R129, R143, R147, R148, R150, R165, R166, R429): an access
that is
misaligned or that the PMP refuses raises its exception; one that does not join the hart's write-combining buffer sends it
first;
a single-bit error that its lookup meets is corrected and logged; a load that hits L1D ends there, an LR reserves its line
there,
and an SC without the reservation fails; a load, a fetch, a store or an AMO that no cache of the die holds opens a transaction
of the
slice with RD_S or RD_X; a store that misses under WNA joins the write-combining buffer, which leaves as one write when it is
full;
a store to a line that L1D holds modified, or that its L2 owns, makes it modified in L1D, or in the L2 where L1D has no way for
it,
and WT cleans it; a confirmed stream asks for its next line; a line evicted modified from a slice, or under NL3 from an L2,
leaves
as WB.
Where a point is open it states the model's choice (log entries 37, 40, 42, 174, 175, 178, 202, 206). -/
def Obligations.CachesServeAccesses : Prop :=
  (∀ (a : Access) (e : Resp) (s : State), ¬ s.stopped → s.accessOk a = true → s.accessFault a = some e →
    Completes (.ringBroadcast a) s (fun t => t.resp = e ∧ t.cache = s.cache ∧ t.mem = s.mem ∧ t.out = s.out ∧ SameRegsBut [] s t)) ∧
  (∀ (a : Access) (s : State), ¬ s.stopped → s.accessOk a = true → s.accessFault a = none → s.wcJoins (s.accessTagged a) = false →
    a.kind ≠ .prefL1 → a.kind ≠ .prefL2 → WcEmptied a.h s (s.wcDrain a.h) ∧
    Completes (.ringBroadcast a) s (fun t => exec (.ringBroadcast a) (s.wcDrain a.h) = .next t)) ∧
  (∀ (a : Access) (k : Nat) (s : State), ¬ s.stopped → s.accessOk a = true → s.accessFault a = none →
    SMap.get s.ecc k = 1 → s.dieWord (hartDie a.h) a.line k = true → Completes (.ringBroadcast a) s (fun t =>
      SMap.get t.ecc k = 0 ∧ t.get (L.ERR_LOG_STAT.VALID (dieLog (hartDie a.h))) = 1)) ∧
  (∀ (a b : Access) (x : CLine) (s : State), RingTakes s a b → a.kind = .load →
    s.copyIn (hartDie a.h) (uL1d (a.h % 18)) a.line = some x → Completes (.ringBroadcast a) s (fun t =>
      (x.poison = false → t.resp = .data (BitVec.ofNat 64 (ofBytesLE ((x.data.drop a.off).take 8)))) ∧
      (x.poison = true → t.resp = .accessFault) ∧ (x.pref = false → t.cache = s.cache) ∧
      SameRegsButRecords [] s t)) ∧
  (∀ (a b : Access) (w : Bool) (x : CLine) (s : State), RingTakes s a b → a.kind = .lr w →
    s.copyIn (hartDie a.h) (uL1d (a.h % 18)) a.line = some x → x.poison = false → Completes (.ringBroadcast a) s (fun t =>
      LrAnswers a w x.data t ∧ SameRegsBut [] s t ∧
      t.copyIn (hartDie a.h) (uL1d (a.h % 18)) a.line = some { x with pref := false, resv := true })) ∧
  (∀ (a b : Access) (d : List Nat) (s : State), RingTakes s a b → a.kind = .sc d → s.reserved a = false →
    Completes (.ringBroadcast a) s (fun t => t.resp = .data 1 ∧ t.mem = s.mem ∧ t.out = s.out ∧ t.reserved a = false ∧
      SameRegsBut [] s t ∧ ∀ u, u < 49 → (t.copyIn (hartDie a.h) u a.line).map (fun y => (y.st, y.data)) =
        (s.copyIn (hartDie a.h) u a.line).map (fun y => (y.st, y.data)))) ∧
  (∀ (a b : Access) (s : State), RingTakes s a b → (a.kind = .load ∨ a.kind = .fetch ∨ a.kind = .lr false ∨ a.kind = .lr true) →
    NoCopy s (hartDie a.h) a.line → s.lineBusy (hartDie a.h) a.line = false →
    s.entryFree (hartDie a.h) (sliceOf a.line) = true → Completes (.ringBroadcast a) s (fun t =>
      SliceAsks (hartDie a.h) b .isD .rdS s t ∧ t.cache = s.cache ∧ SameRegsBut [] s t)) ∧
  (∀ (a b : Access) (s : State), RingTakes s a b →
    (accIsAmo a = true ∨ (∃ d, a.kind = .store d) ∧ s.policy (hartDie a.h) b.sealed a.line ≠ 2) →
    NoCopy s (hartDie a.h) a.line → s.lineBusy (hartDie a.h) a.line = false →
    (s.policy (hartDie a.h) b.sealed a.line = 1 → s.wbRoom (hartDie a.h) (sliceOf a.line) 2 = true) →
    s.entryFree (hartDie a.h) (sliceOf a.line) = true → Completes (.ringBroadcast a) s (fun t =>
      SliceAsks (hartDie a.h) b .ixD .rdX s t ∧ t.cache = s.cache ∧ SameRegsBut [] s t)) ∧
  (∀ (a b : Access) (d : List Nat) (s : State), RingTakes s a b → a.kind = .store d →
    NoCopy s (hartDie a.h) a.line → s.lineBusy (hartDie a.h) a.line = false → s.policy (hartDie a.h) b.sealed a.line = 2 →
    Completes (.ringBroadcast a) s (fun t => t.resp = .ok ∧ t.cache = s.cache ∧ t.slices = s.slices ∧ SameRegsBut [] s t ∧
      (d.length < 64 → t.out = s.out ∧ (t.hartSt a.h).wc =
        some ⟨a.line, (2 ^ d.length - 1) <<< a.off, putBytes (zeros 64) a.off d, b.sealed, b.reserved⟩) ∧
      (d.length = 64 → (t.hartSt a.h).wc = none ∧ t.out = s.out ++ [.coh .ncWr (0x100 + s.homeOf a.line)
        { sliceMsg (hartDie a.h) a.line b.sealed b.reserved with
          txn := SMap.get s.wbTag (64 + 4 * hartDie a.h + sliceOf a.line), mask := 2 ^ 64 - 1, data := d }]))) ∧
  (∀ (a : Access) (d : List Nat) (w : WcBuf) (s : State), ¬ s.stopped → s.accessOk a = true → s.accessFault a = none →
    a.kind = .store d → (s.hartSt a.h).wc = some w → s.wcJoins (s.accessTagged a) = true → NoCopy s (hartDie a.h) a.line →
    NoMarks s (hartDie a.h) a.line → w.mask ||| (2 ^ d.length - 1) <<< a.off ≠ 2 ^ 64 - 1 →
    Completes (.ringBroadcast a) s (fun t => t.resp = .ok ∧ t.cache = s.cache ∧ t.out = s.out ∧ SameRegsBut [] s t ∧
      (t.hartSt a.h).wc = some { w with mask := w.mask ||| (2 ^ d.length - 1) <<< a.off, data := putBytes w.data a.off d })) ∧
  (∀ (a b : Access) (x y : CLine) (s : State), RingTakes s a b →
    (accIsAmo a = true ∧ x.poison = false ∨ (∃ d, a.kind = .store d) ∨ (∃ d, a.kind = .sc d) ∧ x.resv = true) →
    s.copyIn (hartDie a.h) (uL1d (a.h % 18)) a.line = some x → x.st = 2 →
    s.copyIn (hartDie a.h) (uL2 (hartCluster a.h)) a.line = some y → 1 ≤ y.st → s.lineBusy (hartDie a.h) a.line = false →
    s.policy (hartDie a.h) b.sealed a.line ≠ 1 → Completes (.ringBroadcast a) s (fun t =>
      t.resp = accStoreAnswer a x.data ∧ SameRegsBut [] s t ∧ t.out = s.out ∧ t.mem = s.mem ∧
      t.copyIn (hartDie a.h) (uL2 (hartCluster a.h)) a.line = some y ∧
      t.copyIn (hartDie a.h) (uL1d (a.h % 18)) a.line = some { x with
        data := putBytes x.data a.off (accStored a x.data), poison := x.poison && decide ((accStored a x.data).length < 64),
        resv := t.reserved a } ∧ t.reserved a = (x.resv && match a.kind with | .sc _ => false | _ => true))) ∧
  (∀ (a b : Access) (x : CLine) (s : State), RingTakes s a b →
    (accIsAmo a = true ∧ x.poison = false ∨ ∃ d, a.kind = .store d) →
    s.copyIn (hartDie a.h) (uL2 (hartCluster a.h)) a.line = some x → 1 ≤ x.st → s.lineBusy (hartDie a.h) a.line = false →
    (∀ u, u < 49 → u ≠ uL2 (hartCluster a.h) → s.findWay (hartDie a.h) u a.line = none) →
    (s.policy (hartDie a.h) b.sealed a.line = 1 → s.wbRoom (hartDie a.h) (sliceOf a.line) 2 = true) →
    Completes (.ringBroadcast a) s (fun t => t.resp = accStoreAnswer a x.data ∧ SameRegsBut [] s t ∧
      (s.policy (hartDie a.h) b.sealed a.line ≠ 1 → t.out = s.out ∧
        (t.copyIn (hartDie a.h) (uL1d (a.h % 18)) a.line = some ⟨true, a.line, 2, putBytes x.data a.off (accStored a x.data),
            x.poison && decide ((accStored a x.data).length < 64), false, false⟩ ∧
          t.copyIn (hartDie a.h) (uL2 (hartCluster a.h)) a.line = some x ∨
        t.findWay (hartDie a.h) (uL1d (a.h % 18)) a.line = none ∧
          t.copyIn (hartDie a.h) (uL2 (hartCluster a.h)) a.line = some { x with
            st := 2, data := putBytes x.data a.off (accStored a x.data),
            poison := x.poison && decide ((accStored a x.data).length < 64) })) ∧
      (s.policy (hartDie a.h) b.sealed a.line = 1 →
        SliceWrites (hartDie a.h) a.line true (putBytes x.data a.off (accStored a x.data))
          (x.poison && decide ((accStored a x.data).length < 64)) b.sealed s t ∧
        t.copyIn (hartDie a.h) (uL2 (hartCluster a.h)) a.line = some { x with
          st := 1, data := putBytes x.data a.off (accStored a x.data),
          poison := x.poison && decide ((accStored a x.data).length < 64) }))) ∧
  (∀ (die : Fin 12) (unit : Fin 27) (idx : Fin 32) (x : Stream) (l : Nat) (s : State), ¬ s.stopped →
    s.stream die unit idx = x → x.key ≠ 0 → 3 ≤ x.seen → s.pfEnabled die unit = true → hartDie x.h = die.val →
    s.prefetchRuns die unit = true → s.dieIn die = true →
    x.ahead < (if unit.val < 18 then s.get (L.WLD_PFCTL.L1_DIST die) else s.get (L.WLD_PFCTL.L2_DIST die)) →
    (l : Int) = (if unit.val < 18 ∧ x.stride.natAbs < 64 then
        ((x.last / 64 : Nat) : Int) + (if 0 ≤ x.stride then 1 else -1) * ((x.ahead : Int) + 1)
      else if unit.val < 18 then ((x.last : Int) + x.stride * ((x.ahead : Int) + 1)) / 64
      else (x.last : Int) + x.stride * ((x.ahead : Int) + 1)) →
    l / 64 = streamLine unit x.last / 64 → lineInHbm l = true → s.pfOff die x.sealed l = false → NoMarks s die l →
    NoCopy s die l → s.lineBusy die l = false → s.entryFree die (sliceOf l) = true →
    Completes (.prefetchIssue die unit idx) s (fun t => t.stream die unit idx = { x with ahead := x.ahead + 1 } ∧
      SliceAsks die ⟨x.h, l, 0, if unit.val < 18 then .prefL1 else .prefL2, x.sealed, false, 0, .s⟩ .isD .rdS s t ∧
      t.cache = s.cache ∧ SameRegsBut [] s t)) ∧
  (∀ (die : Fin 12) (unit : Fin 13) (set : Nat) (way : Fin 16) (x : CLine) (s : State), ¬ s.stopped →
    s.cline die (36 + unit.val) set way = x → x.valid = true → s.lineBusy die x.line = false →
    s.wbFree die (sliceOf x.line) = true → s.dieEcc die x.line = false → 9 ≤ unit.val →
    Completes (.l3Eviction die unit set way) s (fun t =>
      t.cline die (36 + unit.val) set way = default ∧ SameRegsBut [] s t ∧
      (x.st ≠ 2 → t.out = s.out ∧ t.slices = s.slices) ∧ (x.st = 2 →
        SliceWrites die x.line false x.data x.poison (s.wayOwner die (unit.val - 9) way) s t))) ∧
  (∀ (die : Fin 12) (unit : Fin 13) (set : Nat) (way : Fin 16) (x : CLine) (s : State), ¬ s.stopped →
    s.cline die (36 + unit.val) set way = x → x.valid = true → s.lineBusy die x.line = false →
    s.wbFree die (sliceOf x.line) = true → s.dieEcc die x.line = false → unit.val < 9 →
    s.findWay die (36 + unit.val) x.line = some way.val →
    Machine.setOf (36 + unit.val) x.line = set → s.findWay die (uL1d (2 * unit.val)) x.line = none →
    s.findWay die (uL1d (2 * unit.val + 1)) x.line = none → Completes (.l3Eviction die unit set way) s (fun t =>
      t.cline die (36 + unit.val) set way = default ∧ SameRegsBut [] s t ∧ (x.st ≠ 2 → t.out = s.out ∧ t.slices = s.slices) ∧
      (x.st = 2 → s.policy die (s.clusterSealed die unit) x.line = 3 →
        SliceWrites die x.line false x.data x.poison (s.clusterSealed die unit) s t)))

/-- Maintenance by address (R121, R153 to R155): a mode that may not use the instruction takes its exception, and so does an
address
that the PMP refuses; a line with an earlier masked write of its die waits for that; a line with an open transaction is asked
of its
home as CMO; on any other line the copies go, or become clean; cbo.zero is a store of 64 zero
bytes, also in Piton memory.
Where a point is open it states the model's choice (log entries 43, 173). -/
def Obligations.MaintenanceByAddress : Prop :=
  (∀ (h : Fin 216) (md : PrivMode) (l : Nat) (e : Resp) (s : State), s.hartActs h = true →
    (s.cboFault h 0 md = some e → Completes (.cboClean h md l) s (fun t => t.resp = e ∧ t.cache = s.cache ∧ SameRegsBut [] s t)) ∧
    (s.cboFault h 1 md = some e → Completes (.cboFlush h md l) s (fun t => t.resp = e ∧ t.cache = s.cache ∧ SameRegsBut [] s t)) ∧
    (s.cboFault h 2 md = some e → Completes (.cboInval h md l) s (fun t => t.resp = e ∧ t.cache = s.cache ∧ SameRegsBut [] s t)) ∧
    (s.cboFault h 3 md = some e → Completes (.cboZero h md l) s (fun t => t.resp = e ∧ t.cache = s.cache ∧ t.mem = s.mem ∧
      SameRegsBut [] s t))) ∧
  (∀ (h : Fin 216) (md : PrivMode) (l : Nat) (s : State), s.hartActs h = true → s.pmpFault h md (64 * l) 64 pmpW = true →
    (s.cboFault h 3 md = none → Completes (.cboZero h md l) s (fun t => t.resp = .accessFault ∧ t.cache = s.cache ∧ t.mem = s.mem ∧
      SameRegsBut [] s t)) ∧
    (s.cboFault h 1 md = none → s.pmpFault h md (64 * l) 64 pmpR = true → Completes (.cboFlush h md l) s (fun t =>
      t.resp = .accessFault ∧ t.cache = s.cache ∧ t.mem = s.mem ∧ SameRegsBut [] s t))) ∧
  (∀ (h : Fin 216) (md : PrivMode) (l : Nat) (r : DieReq) (s : State), CboRuns s h 1 md l → lineInHbm l = true →
    r ∈ (s.dieSt (hartDie h)).sent → r.op = none → r.line = l → Completes (.cboFlush h md l) s (fun t => t.out = s.out ∧
      t.cache = s.cache ∧ t.mem = s.mem ∧ SameRegsBut [] s t ∧ (t.dieSt (hartDie h)).sent =
        (s.dieSt (hartDie h)).sent ++ [⟨h, l, 0, some 1, (s.hartIssuer h md).sealed, true⟩])) ∧
  (∀ (h : Fin 216) (md : PrivMode) (l : Nat) (m : CohMsg) (s : State), lineInHbm l = true → s.lineOpen l = true →
    NoMaskedWrite s (hartDie h) l → m = { sliceMsg (hartDie h) l (s.hartIssuer h md).sealed (s.inReservedWindow h (64 * l)) with
      txn := SMap.get s.wbTag (64 + 4 * hartDie h + sliceOf l) } →
    (CboRuns s h 0 md l → Completes (.cboClean h md l) s (fun t => SameRegsBut [] s t ∧
      t.out = s.out ++ [.coh .cmo (0x100 + s.homeOf l) m])) ∧
    (CboRuns s h 1 md l → Completes (.cboFlush h md l) s (fun t => SameRegsBut [] s t ∧
      t.out = s.out ++ [.coh .cmo (0x100 + s.homeOf l) { m with op := 1 }])) ∧
    (CboRuns s h 2 md l → Completes (.cboInval h md l) s (fun t => SameRegsBut [] s t ∧
      t.out = s.out ++ [.coh .cmo (0x100 + s.homeOf l)
        { m with op := if s.cboDiscards h md then 2 else 1, flag := s.cboDiscards h md }]))) ∧
  (∀ (h : Fin 216) (md : PrivMode) (l d u w : Nat) (s : State), lineInHbm l = true → s.lineOpen l = false →
    NoMaskedWrite s (hartDie h) l → s.lineFatal l (hartDie h) true = none → s.otherHolds l = false → (s.dirtyCopy l = none ∨
      s.writeRoom l = true) → d < 12 → s.findWay d u l = some w →
    ((u < 45 ∨ u = uL3 (sliceOf l)) → CboRuns s h 1 md l →
      Completes (.cboFlush h md l) s (fun t => t.cline d u (Machine.setOf u l) w = default)) ∧
    ((u < 45 ∨ u = uL3 (sliceOf l)) → CboRuns s h 2 md l →
      Completes (.cboInval h md l) s (fun t => t.cline d u (Machine.setOf u l) w = default)) ∧
    ((36 ≤ u ∧ u < 45 ∨ u = uL3 (sliceOf l)) → CboRuns s h 0 md l → Completes (.cboClean h md l) s (fun t =>
      (t.cline d u (Machine.setOf u l) w).valid = true ∧ (t.cline d u (Machine.setOf u l) w).line = l ∧
        (t.cline d u (Machine.setOf u l) w).st ≤ 1))) ∧
  (∀ (h : Fin 216) (md : PrivMode) (l : Nat) (a b : Access) (s : State), CboRuns s h 3 md l → lineInHbm l = true →
    a = ⟨h, l, 0, .store (zeros 64), (s.hartIssuer h md).sealed, false, 0, md⟩ → RingTakes s a b → NoCopy s (hartDie h) l →
    s.lineBusy (hartDie h) l = false → s.policy (hartDie h) b.sealed l ≠ 2 →
    (s.policy (hartDie h) b.sealed l = 1 → s.wbRoom (hartDie h) (sliceOf l) 2 = true) →
    s.entryFree (hartDie h) (sliceOf l) = true → Completes (.cboZero h md l) s (fun t =>
      SliceAsks (hartDie h) b .ixD .rdX s t ∧ SameRegsBut [] s t)) ∧
  (∀ (h : Fin 216) (md : PrivMode) (l d : Nat) (s : State), CboRuns s h 3 md l → 64 * l < 2 ^ 48 →
    PitonServes (s.inMode h md) (s.hartIssuer h md) (BitVec.ofNat 48 (64 * l)) (.store (zeros 64)) d →
    Completes (.cboZero h md l) s (fun t => t.resp = .ok ∧ SameRegsBut [] s t ∧
      (∀ x, t.readByte x = if 64 * l ≤ x ∧ x < 64 * l + 64 then 0 else s.readByte x)))

/-- Maintenance by set and way (R156, R157): a write with GO by the Sealed world stores the operation and runs it, or shows ERR
and DONE where its place does not exist; one while BUSY and one of the Open world are answered with an error. The end shows
DONE.
Where a point is open it states the model's choice (log entry 44). -/
def Obligations.MaintenanceBySetAndWay : Prop :=
  (∀ (c : Issuer) (d : Fin 12) (v : Word) (u : Nat) (s : State), Sends s c → c.sealed = true → s.dieIn d = true →
    s.get (L.WLD_SWSTAT.BUSY d) = 0 → v.getLsbD 63 = true → swopUnit (fieldOf v 2 2) (fieldOf v 4 5) = some u → ¬ s.stopped →
    (∀ l, s.dieEcc d l = false) →
    (fieldOf v 9 1 = 1 ∨ fieldOf v 20 14 < setsOf u ∧ (45 ≤ u → s.pitonWay d (u - 45) (fieldOf v 16 4) = false)) →
    (fieldOf v 0 2 = 0 → Completes (.swopClean c d v) s (fun t => t.resp = .ok ∧ t.get (L.WLD_SWSTAT.BUSY d) = 1 ∧
      t.get (L.WLD_SWOP.OP d) = 0 ∧ SameRegsBut [R.WLD_SWOP d, R.WLD_SWSTAT d] s t)) ∧
    (fieldOf v 0 2 = 1 → Completes (.swopInvalidate c d v) s (fun t => t.resp = .ok ∧ t.get (L.WLD_SWSTAT.BUSY d) = 1 ∧
      t.get (L.WLD_SWOP.OP d) = 1 ∧ t.get (L.WLD_SWOP.SET d) = fieldOf v 20 14 ∧ t.get (L.WLD_SWOP.WAY d) = fieldOf v 16 4 ∧
      t.out = s.out ∧ SameRegsBut [R.WLD_SWOP d, R.WLD_SWSTAT d] s t ∧
      (fieldOf v 9 1 = 0 → 45 ≤ u → s.lineBusy d (s.cline d u (fieldOf v 20 14) (fieldOf v 16 4)).line = false →
        s.findWay d u (s.cline d u (fieldOf v 20 14) (fieldOf v 16 4)).line = some (fieldOf v 16 4) →
        Machine.setOf u (s.cline d u (fieldOf v 20 14) (fieldOf v 16 4)).line = fieldOf v 20 14 →
        t.cline d u (fieldOf v 20 14) (fieldOf v 16 4) = default))) ∧
    (fieldOf v 0 2 = 2 → Completes (.swopCleanInvalidate c d v) s (fun t => t.resp = .ok ∧ t.get (L.WLD_SWSTAT.BUSY d) = 1 ∧
      t.get (L.WLD_SWOP.OP d) = 2 ∧ SameRegsBut [R.WLD_SWOP d, R.WLD_SWSTAT d] s t))) ∧
  (∀ (c : Issuer) (d : Fin 12) (v : Word) (s : State), Sends s c → c.sealed = true → s.dieIn d = true →
    s.get (L.WLD_SWSTAT.BUSY d) = 0 → v.getLsbD 63 = true → fieldOf v 0 2 ≠ 3 → swopUnit (fieldOf v 2 2) (fieldOf v 4 5) = none →
    Completes (.swopClean c d v) s (fun t => t.get (L.WLD_SWSTAT.ERR d) = 1 ∧ t.get (L.WLD_SWSTAT.DONE d) = 1 ∧
      t.get (L.WLD_SWSTAT.BUSY d) = 0 ∧ t.cache = s.cache ∧
      SameRegsBut [R.WLD_SWOP d, R.WLD_SWSTAT d] s t)) ∧
  (∀ (c : Issuer) (d : Fin 12) (v : Word) (s : State),
    Sends s c → (c.sealed = false ∨ s.get (L.WLD_SWSTAT.BUSY d) = 1 ∨ fieldOf v 0 2 = 3) →
    Completes (.swopClean c d v) s (fun t => Refused s t ∧ t.cache = s.cache) ∧
    Completes (.swopInvalidate c d v) s (fun t => Refused s t ∧ t.cache = s.cache) ∧
    Completes (.swopCleanInvalidate c d v) s (fun t => Refused s t ∧ t.cache = s.cache)) ∧
  (∀ (d : Fin 12) (s : State), s.get (L.WLD_SWSTAT.BUSY d) = 1 → (s.swopRun d).swopOpen d = false →
    (∀ l, s.dieEcc d l = false) →
    Completes (.swopDone d) s (fun t => t.get (L.WLD_SWSTAT.BUSY d) = 0 ∧ t.get (L.WLD_SWSTAT.DONE d) = 1 ∧
      t.cache = (s.swopRun d).cache ∧ SameRegsBut [R.WLD_SWSTAT d] s t))

/-- Piton memory (R158 to R161): a write changes the mode of the ways its world owns and the change runs until it is done, which
leaves their bytes at zero; an aligned access every byte of which lies in a way in Piton mode of its world is performed at the
slice;
a misaligned one, a reservation and one that the PMP refuses raise their exception; any other is answered with an error.
Where a point is open it states the model's choice (log entries 45, 179). -/
def Obligations.PitonMemory : Prop :=
  (∀ (c : Issuer) (d : Fin 12) (sl : Fin 4) (v : Word) (i : Nat) (s : State), Sends s c → s.dieIn d = true → i < 12 →
    s.wayOwner d sl (4 + i) = c.sealed →
    v.getLsbD (4 + i) ≠ (s.get (L.WLD_L3WAY.PITON d sl)).testBit i → s.get (L.WLD_L3WAY.BUSY d sl) = 0 →
    Completes (.pitonModeChange c d sl v) s (fun t => t.resp = .ok ∧ t.get (L.WLD_L3WAY.BUSY d sl) = 1 ∧
      (∀ k, k < 12 → (t.get (L.WLD_L3WAY.PITON d sl)).testBit k =
        (if s.wayOwner d sl (4 + k) = c.sealed then v.getLsbD (4 + k) else (s.get (L.WLD_L3WAY.PITON d sl)).testBit k)) ∧
      t.get (L.WLD_L3WAY.OWNER d sl) = s.get (L.WLD_L3WAY.OWNER d sl) ∧
      ((∀ l, s.dieEcc d l = false) → SameRegsBut [R.WLD_L3WAY d sl] s t))) ∧
  (∀ (c : Issuer) (d : Fin 12) (sl : Fin 4) (v : Word) (i : Nat) (s : State), Sends s c → s.dieIn d = true → i < 12 →
    s.wayOwner d sl (4 + i) = c.sealed →
    v.getLsbD (4 + i) ≠ (s.get (L.WLD_L3WAY.PITON d sl)).testBit i → s.get (L.WLD_L3WAY.BUSY d sl) = 1 →
    Completes (.pitonModeChange c d sl v) s (fun t => Refused s t)) ∧
  (∀ (d : Fin 12) (sl : Fin 4) (n : Nat) (s : State), SMap.get s.pitonBusy (4 * d.val + sl.val) = n → onesBelow 16 n ≠ [] →
    s.allLines d (uL3 sl) = [] → (∀ w, w < 16 → s.isReleasing (.l3 (64 * d.val + 16 * sl.val + w)) = false) →
    Completes (.pitonChangeDone d sl) s (fun t => t.get (L.WLD_L3WAY.BUSY d sl) = 0 ∧
      SMap.get t.pitonBusy (4 * d.val + sl.val) = 0 ∧ SameRegsBut [R.WLD_L3WAY d sl] s t ∧
      ∀ a, t.readByte a = (if (onesBelow 16 n).any (fun w => decide (pitonBase d sl w ≤ a ∧ a < pitonBase d sl w + 0xC0000)) then 0
        else s.readByte a))) ∧
  (∀ (c : Issuer) (a : PAddr) (d n : Nat) (k : PitonKind) (s : State), Sends s c → PitonServes s c a k d →
    (k = .load n ∨ k = .fetch n) → Completes (.pitonAccess c a k) s (fun t =>
      (n ≤ 8 → t.resp = .data (BitVec.ofNat 64 (s.readLE a.toNat n))) ∧
      (8 < n → t.resp = .bytes ((s.readBytes a.toNat n).map BitVec.toNat)) ∧ t.mem = s.mem ∧ SameRegsBut [] s t)) ∧
  (∀ (c : Issuer) (a : PAddr) (d : Nat) (s : State), Sends s c → PitonReached s c a .lrsc d →
    Completes (.pitonAccess c a .lrsc) s (fun t => t.resp = .accessFault ∧ t.mem = s.mem ∧ SameRegsBut [] s t)) ∧
  (∀ (c : Issuer) (a : PAddr) (d : Nat) (b : List Nat) (s : State), Sends s c → PitonServes s c a (.store b) d →
    Completes (.pitonAccess c a (.store b)) s (fun t => t.resp = .ok ∧ SameRegsBut [] s t ∧
      (∀ k, k < b.length → t.readByte (a.toNat + k) = BitVec.ofNat 8 (b.getD k 0)) ∧
      ∀ x, (x < a.toNat ∨ a.toNat + b.length ≤ x) → t.readByte x = s.readByte x)) ∧
  (∀ (c : Issuer) (a : PAddr) (d : Nat) (op : AmoOp) (wide : Bool) (v : Word) (n : Nat) (s : State),
    Sends s c → PitonServes s c a (.amo op wide v) d → n = (if wide then 8 else 4) →
    Completes (.pitonAccess c a (.amo op wide v)) s (fun t =>
      t.resp = .data (BitVec.ofInt 64 (signedOf (8 * n) (s.readLE a.toNat n))) ∧
      t.readLE a.toNat n = amoValue op (8 * n) (s.readLE a.toNat n) v.toNat % 2 ^ (8 * n) ∧
      (∀ x, (x < a.toNat ∨ a.toNat + n ≤ x) → t.readByte x = s.readByte x) ∧ SameRegsBut [] s t)) ∧
  (∀ (c : Issuer) (a : PAddr) (d : Nat) (k : PitonKind) (s : State), Sends s c → PitonReached s c a k d → k ≠ .lrsc →
    ¬ PitonAligned a k → Completes (.pitonAccess c a k) s (fun t =>
      t.resp = (match k with | .amo _ _ _ => .misaligned | _ => .accessFault) ∧ t.mem = s.mem ∧ SameRegsBut [] s t)) ∧
  (∀ (c : Issuer) (a : PAddr) (d i : Nat) (k : PitonKind) (s : State), Sends s c → PitonReached s c a k d → PitonAligned a k →
    i < (pitonShape k).1 → (c.agent = .device ∨ ¬ PitonByte s c d (a.toNat + i)) →
    Completes (.pitonAccess c a k) s (fun t => Refused s t ∧ t.mem = s.mem)) ∧
  (∀ (c : Issuer) (a : PAddr) (d : Nat) (k : PitonKind) (s : State), Sends s c → s.pitonReach c d = true →
    0x10000000000 + 0x10000000 * d ≤ a.toNat → a.toNat < 0x10000000000 + 0x10000000 * (d + 1) →
    s.pmpStops c a.toNat (pitonShape k).1 (pitonPmp k) = true → Completes (.pitonAccess c a k) s (fun t =>
      t.resp = .accessFault ∧ t.mem = s.mem ∧ SameRegsBut [] s t))


/-! ### Coherence (07) -/

/-- Requests at their home (R172, R173, R175, R182): each opens its transaction with the snoops and the memory read of Table
7.6; UPG of the owner or the only sharer is granted at once, CMO without an owner completes at once, WB of the owner is written
and acknowledged; a request on a busy line waits, and promotes its transaction if it is of reserved class; a stale WB is
discarded; a request of an agent outside the caching agents, or of an undefined operation, is refused with NAK.
Where a point is open it states the model's choice (log entries 48, 177, 192). -/
def Obligations.HomesOpenTransactions : Prop :=
  (∀ (m : CohMsg) (st : Nat × Nat) (s : State), HomeOpens s .rdS m → s.sfState (s.homeOf m.line) m.line = st →
    Completes (.rdS m) s (fun t => HomeOpened (s.homeOf m.line) m (if st.1 = 2 then clearBit st.2 m.src else 0) .snpS false
      (some (if m.reserved then 0 else 1)) s t)) ∧
  (∀ (m : CohMsg) (st : Nat × Nat) (s : State), HomeOpens s .rdX m → s.sfState (s.homeOf m.line) m.line = st →
    Completes (.rdX m) s (fun t => HomeOpened (s.homeOf m.line) m (clearBit st.2 m.src) .snpI false
      (some (if m.reserved then 0 else 1)) s t)) ∧
  (∀ (m : CohMsg) (st : Nat × Nat) (s : State), HomeOpens s .upg m → s.sfState (s.homeOf m.line) m.line = st →
    ¬ (st.1 = 2 ∧ st.2 = 1 <<< m.src) → ¬ (st.1 = 1 ∧ st.2.testBit m.src = true) →
    Completes (.upg m) s (fun t => HomeOpened (s.homeOf m.line) m (clearBit st.2 m.src) .snpI false
      (some (if m.reserved then 0 else 1)) s t)) ∧
  (∀ (m : CohMsg) (p : Nat) (s : State), HomeOpens s .upg m → s.sfState (s.homeOf m.line) m.line = (1, p) →
    p.testBit m.src = true → clearBit p m.src ≠ 0 →
    Completes (.upg m) s (fun t => HomeOpened (s.homeOf m.line) m (clearBit p m.src) .snpI false none s t)) ∧
  (∀ (m : CohMsg) (n : Nat) (s : State), HomeOpens s .upg m → s.sfState (s.homeOf m.line) m.line = (n, 1 <<< m.src) →
    (n = 1 ∨ n = 2) → Completes (.upg m) s (fun t =>
      t.out = s.out ++ [.coh .gntX m.src (homeMsg (s.homeOf m.line) m)] ∧
      (t.txnOn (s.homeOf m.line) m.line).map (fun x => (x.replied, x.wantFack)) = some (true, true) ∧
      t.sfState (s.homeOf m.line) m.line = (2, 1 <<< m.src))) ∧
  (∀ (m : CohMsg) (st : Nat × Nat) (s : State), HomeOpens s .cmo m → s.sfState (s.homeOf m.line) m.line = st →
    st.2 ≠ 0 → (m.op = 0 → st.1 = 2) → Completes (.cmo m) s (fun t => HomeOpened (s.homeOf m.line) m st.2
      (if m.op = 0 then .snpC else .snpI) (m.op == 2 && m.flag) none s t)) ∧
  (∀ (m : CohMsg) (st : Nat × Nat) (s : State), HomeOpens s .cmo m → s.sfState (s.homeOf m.line) m.line = st →
    (if m.op = 0 then st.1 ≠ 2 else st.2 = 0) → Completes (.cmo m) s (fun t =>
      t.out = s.out ++ [.coh .cmp m.src (homeMsg (s.homeOf m.line) m)] ∧ t.txnOn (s.homeOf m.line) m.line = none)) ∧
  (∀ (m : CohMsg) (st : Nat × Nat) (s : State), HomeOpens s .ncRd m → s.sfState (s.homeOf m.line) m.line = st →
    Completes (.ncRd m) s (fun t => HomeOpened (s.homeOf m.line) m (if st.1 = 2 then st.2 else 0) .snpC false
      (some (if m.reserved then 0 else if 12 ≤ m.src then 2 else 1)) s t)) ∧
  (∀ (m : CohMsg) (st : Nat × Nat) (s : State), HomeOpens s .ncWr m → s.sfState (s.homeOf m.line) m.line = st → st.2 ≠ 0 →
    Completes (.ncWr m) s (fun t => HomeOpened (s.homeOf m.line) m st.2 .snpI false none s t)) ∧
  (∀ (m : CohMsg) (s : State), HomeOpens s .wb m → s.sfState (s.homeOf m.line) m.line = (2, 1 <<< m.src) →
    s.writeRoom m.line = true → Completes (.wb m) s (fun t => t.mem = (s.homeWrite m m.data m.poison).1.mem ∧
      t.out = s.out ++ [if (s.homeWrite m m.data m.poison).2 then .coh .wbAck m.src (homeMsg (s.homeOf m.line) m)
        else .coh .cmp m.src { homeMsg (s.homeOf m.line) m with err := true }] ∧
      (m.flag = false → ∀ w, s.sfFind (s.homeOf m.line) m.line = some w → t.sfEnt (s.homeOf m.line) (sfSet m.line) w = default))) ∧
  (∀ (m : CohMsg) (x : HomeTxn) (s : State), HomeHears s .rdS m → s.txnOn (s.homeOf m.line) m.line = some x →
    s.entryFor (s.homeOf m.line) .rdS m = true → Completes (.rdS m) s (fun t => t.out = s.out ∧
      (t.home (s.homeOf m.line)).waiting = (s.home (s.homeOf m.line)).waiting ++ [(.rdS, m)] ∧
      (m.reserved = true → (t.txnOn (s.homeOf m.line) m.line).map HomeTxn.reserved = some true))) ∧
  (∀ (m : CohMsg) (x : HomeTxn) (s : State), HomeHears s .wb m → s.txnOn (s.homeOf m.line) m.line = some x →
    x.stale = [(m.src, m.tag)] → x.replied = false →
    Completes (.wb m) s (fun t => t.out = s.out ++ [.coh .wbStale m.src (homeMsg (s.homeOf m.line) m)] ∧
      t.txnOn (s.homeOf m.line) m.line = some { x with stale := [] } ∧ t.mem = s.mem ∧
      t.get (L.HA_STALE_CNT.STALE (s.homeOf m.line)) = min (s.get (L.HA_STALE_CNT.STALE (s.homeOf m.line)) + 1) (2 ^ 32 - 1) ∧
      SameRegsButRecords [R.HA_STALE_CNT (s.homeOf m.line)] s t)) ∧
  (∀ (m : CohMsg) (s : State), ¬ s.stopped → s.homeEcc (s.homeOf m.line) m.line = false → m.malformed = false →
    0x10 ≤ m.src → m.src < 0x20 → lineInHbm m.line = true → Completes (.rdX m) s (fun t =>
      t.out = s.out ++ [.coh .nak m.src { homeMsg (s.homeOf m.line) m with tag := 0x06 }] ∧
      t.get (L.HA_NAK_LAST.CODE (s.homeOf m.line)) = 0x06 ∧ t.homes = s.homes)) ∧
  (∀ (m : CohMsg) (s : State), ¬ s.stopped → s.homeEcc (s.homeOf m.line) m.line = false → 2 < m.op → s.isSkelura m.src = false →
    Completes (.cmo m) s (fun t => t.out = s.out ++ [.coh .nak m.src { homeMsg (s.homeOf m.line) m with tag := 0x01 }] ∧
      t.get (L.HA_NAK_LAST.CODE (s.homeOf m.line)) = 0x01 ∧ t.homes = s.homes))

/-- Transactions go on (R173 to R175, R178, R181, R182): waiting requests start, responses clear their snoops, bring data to
memory or keep it until WQ has room, and the last gives the reply; a stale record discards a WB that waits; FACK closes, and a
request in the mesh takes the entry; a filter retry takes a free way, and a snoop
that goes unanswered or a message that the protocol does not allow stops the domain, or is refused if it comes from another
make.
Where a point is open it states the model's choice (log entries 49 to 51). -/
def Obligations.HomesCompleteTransactions : Prop :=
  (∀ (h : Fin 32) (l : Nat) (m : CohMsg) (st : Nat × Nat) (s : State), ¬ s.stopped → s.homeEcc h l = false →
    s.txnOn h l = none → m.line = l →
    (s.home h).waiting.filter (fun p => p.2.line == l) = [(.rdS, m)] → s.sfState h l = st →
    Completes (.homeTxnStart h l) s (fun t => HomeOpened h m (if st.1 = 2 then clearBit st.2 m.src else 0) .snpS false
      (some (if m.reserved then 0 else 1)) s t ∧ (t.home h).waiting.any (fun p => p.2.line == l) = false)) ∧
  (∀ (h : Fin 32) (l w : Nat) (x : HomeTxn) (s : State), ¬ s.stopped → s.homeEcc h l = false → s.txnOn h l = some x →
    x.allocWait = true → x.req.line = l → x.snoops ≠ 0 → w < 16 → (s.sfEnt h (sfSet l) w).valid = false →
    Completes (.filterAllocRetry h l) s (fun t => t.txnOn h l = some { x with allocWait := false } ∧
      (t.sfFind h l).isSome = true ∧ t.get (L.HA_SF_CNT.RETRY h) = min (s.get (L.HA_SF_CNT.RETRY h) + 1) (2 ^ 32 - 1) ∧
      t.get (L.HA_EVT.RETRY h) = 1 ∧ t.out = s.out)) ∧
  (∀ (m : CohMsg) (x : HomeTxn) (s : State), SnoopAnswered s m x →
    Completes (.rspI m) s (fun t => t.txnOn (s.homeOf m.line) m.line = some { x with snoops := clearBit x.snoops m.src } ∧
      t.out = s.out ∧ t.mem = s.mem)) ∧
  (∀ (m : CohMsg) (x : HomeTxn) (s : State), SnoopAnswered s m x → DataTaken s m x →
    Completes (.rspId m) s (fun t => t.txnOn (s.homeOf m.line) m.line =
      some { x with snoops := clearBit x.snoops m.src, data := some (m.data, m.poison) } ∧ t.out = s.out ∧
      t.mem = (s.homeWrite x.req m.data m.poison).1.mem) ∧
    Completes (.rspEvd m) s (fun t => t.txnOn (s.homeOf m.line) m.line =
      some { x with snoops := clearBit x.snoops m.src, data := some (m.data, m.poison), stale := x.stale ++ [(m.src, m.tag)] } ∧
      t.out = s.out ∧ t.mem = (s.homeWrite x.req m.data m.poison).1.mem)) ∧
  (∀ (m : CohMsg) (x : HomeTxn) (s : State), SnoopAnswered s m x → x.kind ≠ .ncWr → s.writeRoom m.line = false →
    Completes (.rspId m) s (fun t => t.txnOn (s.homeOf m.line) m.line = some { x with
      snoops := clearBit x.snoops m.src, data := some (m.data, m.poison), toWrite := some (m.data, m.poison) } ∧
      t.out = s.out ∧ t.mem = s.mem)) ∧
  (∀ (m : CohMsg) (x : HomeTxn) (s : State), SnoopAnswered s m x → x.snoopKind ≠ .snpI →
    Completes (.rspK m) s (fun t => t.txnOn (s.homeOf m.line) m.line =
      some { x with snoops := clearBit x.snoops m.src, kept := setBit x.kept m.src } ∧ t.out = s.out ∧ t.mem = s.mem)) ∧
  (∀ (m : CohMsg) (x : HomeTxn) (s : State), SnoopAnswered s m x → x.snoopKind ≠ .snpI → DataTaken s m x →
    Completes (.rspKd m) s (fun t => t.txnOn (s.homeOf m.line) m.line = some { x with
      snoops := clearBit x.snoops m.src, kept := setBit x.kept m.src, data := some (m.data, m.poison) } ∧ t.out = s.out ∧
      t.mem = (s.homeWrite x.req m.data m.poison).1.mem)) ∧
  (∀ (m : CohMsg) (x : HomeTxn) (s : State), HomeHears s .rspKd m →
    s.txnOn (s.homeOf m.line) m.line = some x → x.snoops = 1 <<< m.src → x.held = [] → x.kind = .rdS → x.snoopKind = .snpS →
    DataTaken s m x → x.refused = false → x.allocWait = false → x.replied = false → x.asked ≠ 0 →
    Completes (.rspKd m) s (fun t =>
      t.out = s.out ++ [.coh .dataS x.req.src { homeMsg (s.homeOf m.line) x.req with data := m.data, poison := m.poison }] ∧
      (t.txnOn (s.homeOf m.line) m.line).map (fun y => (y.replied, y.wantFack)) = some (true, true))) ∧
  (∀ (m : CohMsg) (x : HomeTxn) (s : State), HomeHears s .fack m → s.txnOn (s.homeOf m.line) m.line = some x →
    x.wantFack = true → x.req.src = m.src → x.replied = true → x.stale = [] → Completes (.fack m) s (fun t =>
      t.txnOn (s.homeOf m.line) m.line = none ∧ t.out = s.out ∧
      ∀ p, (s.home (s.homeOf m.line)).held = [p] → s.entryFor (s.homeOf m.line) p.1 p.2 = true →
        (t.home (s.homeOf m.line)).held = [] ∧
        (t.home (s.homeOf m.line)).waiting = (s.home (s.homeOf m.line)).waiting ++ [p])) ∧
  (∀ (m w : CohMsg) (x : HomeTxn) (s : State), HomeHears s .rspEvd m → s.txnOn (s.homeOf m.line) m.line = some x →
    x.toWrite = none → x.snoops.testBit m.src = true → clearBit x.snoops m.src ≠ 0 → x.held = [] → x.stale = [] →
    DataTaken s m x → (s.home (s.homeOf m.line)).waiting = [(.wb, w)] → (s.home (s.homeOf m.line)).held = [] →
    w.line = m.line → w.src = m.src → w.tag = m.tag → Completes (.rspEvd m) s (fun t =>
      t.out = s.out ++ [.coh .wbStale w.src (homeMsg (s.homeOf m.line) w)] ∧ (t.home (s.homeOf m.line)).waiting = [] ∧
      t.txnOn (s.homeOf m.line) m.line =
        some { x with snoops := clearBit x.snoops m.src, data := some (m.data, m.poison) })) ∧
  (∀ (m : CohMsg) (s : State), ¬ s.stopped → s.txnOn (s.homeOf m.line) m.line = none → s.isSkelura m.src = true →
    Completes (.fack m) s (fun t => FatallyStopped t) ∧ Completes (.rspI m) s (fun t => FatallyStopped t)) ∧
  (∀ (m : CohMsg) (x : HomeTxn) (s : State), HomeHears s .rspK m → s.txnOn (s.homeOf m.line) m.line = some x →
    x.snoopKind = .snpI → x.snoops.testBit m.src = true → s.isSkelura m.src = false →
    Completes (.rspK m) s (fun t => t.get (L.HA_NAK_LAST.CODE (s.homeOf m.line)) = 0x03 ∧
      t.txnOn (s.homeOf m.line) m.line = some x ∧
      t.out = s.out ++ [.coh .nak m.src { homeMsg (s.homeOf m.line) m with tag := 0x03 }])) ∧
  (∀ (m : CohMsg) (s : State), HomeHears s .rspI m →
    s.txnOn (s.homeOf m.line) m.line = none → s.isSkelura m.src = false → Completes (.rspI m) s (fun t =>
      t.out = s.out ++ [.coh .nak m.src { homeMsg (s.homeOf m.line) m with tag := 0x03 }] ∧
      t.get (L.HA_NAK_CNT.NAK (s.homeOf m.line)) = min (s.get (L.HA_NAK_CNT.NAK (s.homeOf m.line)) + 1) (2 ^ 32 - 1) ∧
      t.get (L.HA_NAK_LAST.CODE (s.homeOf m.line)) = 0x03 ∧ t.get (L.HA_EVT.NAK (s.homeOf m.line)) = 1 ∧
      SameRegsButRecords [R.HA_NAK_CNT (s.homeOf m.line), R.HA_NAK_LAST (s.homeOf m.line), R.HA_EVT (s.homeOf m.line)] s t)) ∧
  (∀ (h : Fin 32) (l : Nat) (x : HomeTxn) (s : State), ¬ s.stopped → s.txnOn h l = some x → x.snoops ≠ 0 →
    Completes (.snoopTimeout h l) s (fun t => FatallyStopped t ∧ x.sentAt + 20000 ≤ t.up))

/-- Snoops at a die (R155, R169, Table 7.4): the answer by the state of the line, with the data of a modified copy, which a
discard of a line without copies of the other world drops; an eviction under way answers with its buffer, and one that kept a
copy loses it; a fill under way answers without a copy, and an upgrade loses its copies to SNP_I.
Where a point is open it states the model's choice (log entries 39, 176). -/
def Obligations.DiesAnswerSnoops : Prop :=
  (∀ (d : Fin 12) (m : CohMsg) (s : State), DieHears s d m → s.lineBusy d m.line = false → NoCopy s d m.line →
    Completes (.snpS d m) s (fun t => DieAnswers d .rspI m none 0 s t ∧ t.cache = s.cache ∧ SameRegsBut [] s t) ∧
    Completes (.snpI d m) s (fun t => DieAnswers d .rspI m none 0 s t ∧ t.cache = s.cache ∧ SameRegsBut [] s t) ∧
    Completes (.snpC d m) s (fun t => DieAnswers d .rspI m none 0 s t ∧ t.cache = s.cache ∧ SameRegsBut [] s t)) ∧
  (∀ (d : Fin 12) (m : CohMsg) (w : Nat) (x : CLine) (s : State), DieHears s d m →
    s.lineBusy d m.line = false → s.findWay d (uL3 (sliceOf m.line)) m.line = some w →
    (∀ u, u < 45 → s.findWay d u m.line = none) → s.cline d (uL3 (sliceOf m.line)) (Machine.setOf (uL3 (sliceOf m.line)) m.line) w = x →
    x.st < 2 →
    Completes (.snpS d m) s (fun t => DieAnswers d .rspK m none 0 s t ∧
      t.cline d (uL3 (sliceOf m.line)) (Machine.setOf (uL3 (sliceOf m.line)) m.line) w = { x with st := 0 }) ∧
    Completes (.snpI d m) s (fun t => DieAnswers d .rspI m none 0 s t ∧
      t.cline d (uL3 (sliceOf m.line)) (Machine.setOf (uL3 (sliceOf m.line)) m.line) w = default) ∧
    Completes (.snpC d m) s (fun t => DieAnswers d .rspK m none 0 s t ∧
      t.cline d (uL3 (sliceOf m.line)) (Machine.setOf (uL3 (sliceOf m.line)) m.line) w = x)) ∧
  (∀ (d : Fin 12) (m : CohMsg) (w : Nat) (x : CLine) (s : State), DieHears s d m →
    s.lineBusy d m.line = false → s.findWay d (uL3 (sliceOf m.line)) m.line = some w →
    (∀ u, u < 45 → s.findWay d u m.line = none) → s.cline d (uL3 (sliceOf m.line)) (Machine.setOf (uL3 (sliceOf m.line)) m.line) w = x →
    x.st = 2 →
    Completes (.snpS d m) s (fun t => DieAnswers d .rspKd m (some x) 0 s t ∧
      t.cline d (uL3 (sliceOf m.line)) (Machine.setOf (uL3 (sliceOf m.line)) m.line) w = { x with st := 0 }) ∧
    (m.flag = false → Completes (.snpI d m) s (fun t => DieAnswers d .rspId m (some x) 0 s t ∧
      t.cline d (uL3 (sliceOf m.line)) (Machine.setOf (uL3 (sliceOf m.line)) m.line) w = default)) ∧
    (m.flag = true → Completes (.snpI d m) s (fun t =>
      (s.wayOwner d (sliceOf m.line) w = m.sealed → DieAnswers d .rspI m none 0 s t) ∧
      (s.wayOwner d (sliceOf m.line) w ≠ m.sealed → DieAnswers d .rspId m (some x) 0 s t) ∧
      t.cline d (uL3 (sliceOf m.line)) (Machine.setOf (uL3 (sliceOf m.line)) m.line) w = default)) ∧
    Completes (.snpC d m) s (fun t => DieAnswers d .rspKd m (some x) 0 s t ∧
      t.cline d (uL3 (sliceOf m.line)) (Machine.setOf (uL3 (sliceOf m.line)) m.line) w = { x with st := 1 })) ∧
  (∀ (d : Fin 12) (m : CohMsg) (x : SliceTxn) (s : State), DieHears s d m → s.sliceTxn d m.line = x → (x.st = .miA ∨ x.st = .mkA) →
    Completes (.snpS d m) s (fun t => DieAnswers d .rspEvd m (some ⟨true, m.line, 2, x.data, x.poison, false, false⟩) x.tag s t ∧
      (t.sliceTxn d m.line).st = .miA) ∧
    Completes (.snpI d m) s (fun t => DieAnswers d .rspEvd m (some ⟨true, m.line, 2, x.data, x.poison, false, false⟩) x.tag s t ∧
      (t.sliceTxn d m.line).st = .miA) ∧
    Completes (.snpC d m) s (fun t => DieAnswers d .rspEvd m (some ⟨true, m.line, 2, x.data, x.poison, false, false⟩) x.tag s t ∧
      (t.sliceTxn d m.line).st = .miA)) ∧
  (∀ (d : Fin 12) (m : CohMsg) (x : SliceTxn) (s : State), DieHears s d m → s.sliceTxn d m.line = x → (x.st = .isD ∨ x.st = .ixD) →
    Completes (.snpS d m) s (fun t => DieAnswers d .rspI m none 0 s t ∧ t.sliceTxn d m.line = x) ∧
    Completes (.snpI d m) s (fun t => DieAnswers d .rspI m none 0 s t ∧ t.sliceTxn d m.line = x) ∧
    Completes (.snpC d m) s (fun t => DieAnswers d .rspI m none 0 s t ∧ t.sliceTxn d m.line = x)) ∧
  (∀ (d : Fin 12) (m : CohMsg) (x : SliceTxn) (s : State), DieHears s d m → s.sliceTxn d m.line = x → x.st = .sxA →
    Completes (.snpS d m) s (fun t => DieAnswers d .rspK m none 0 s t ∧ t.sliceTxn d m.line = x ∧ t.cache = s.cache) ∧
    Completes (.snpI d m) s (fun t => DieAnswers d .rspI m none 0 s t ∧ t.sliceTxn d m.line = { x with st := .ixD }) ∧
    Completes (.snpC d m) s (fun t => DieAnswers d .rspK m none 0 s t ∧ t.sliceTxn d m.line = x ∧ t.cache = s.cache))

/-- Replies at a die (R165, R169, R428, R274, Table 7.5): a reply that the line waits for is taken, with FACK for data and for
a grant; the load that waited has its data, and the store that waited is done in a copy that is the die's only one; an
acknowledged write-back frees its buffer; an error response ends the access with a fault or a record; a completion of an old
generation is counted, one of a masked write or of a maintenance operation ends it, and what waited for it is performed; any
other
completion changes nothing at a die; a reply that the table does not allow stops the
domain.
Where a point is open it states the model's choice (log entries 38, 175). -/
def Obligations.DiesTakeReplies : Prop :=
  (∀ (d : Fin 12) (m : CohMsg) (s : State), DieHears s d m →
    ((s.sliceTxn d m.line).st = .isD → Completes (.dataS d m) s (fun t => t.mem = s.mem ∧ SameRegsButRecords [] s t ∧
      ∃ pre rest, t.out = s.out ++ pre ++ fackOf s d m :: rest)) ∧
    ((s.sliceTxn d m.line).st = .isD ∨ (s.sliceTxn d m.line).st = .ixD → Completes (.dataE d m) s (fun t => t.mem = s.mem ∧
      SameRegsButRecords [] s t ∧ ∃ pre rest, t.out = s.out ++ pre ++ fackOf s d m :: rest)) ∧
    ((s.sliceTxn d m.line).st = .sxA → Completes (.gntX d m) s (fun t => t.mem = s.mem ∧ SameRegsButRecords [] s t ∧
      ∃ pre rest, t.out = s.out ++ pre ++ fackOf s d m :: rest)) ∧
    ((s.sliceTxn d m.line).st = .miA ∨ (s.sliceTxn d m.line).st = .mkA → Completes (.wbAck d m) s (fun t => t.mem = s.mem ∧
      SameRegsButRecords [] s t ∧ s.out <+: t.out)) ∧
    ((s.sliceTxn d m.line).st = .miA → Completes (.wbStale d m) s (fun t => t.mem = s.mem ∧ SameRegsButRecords [] s t ∧
      s.out <+: t.out))) ∧
  (∀ (d : Fin 12) (m : CohMsg) (a : Access) (w : Nat) (s : State), DieHears s d m → (s.sliceTxn d m.line).st = .isD →
    (s.sliceTxn d m.line).waiting = [a] → a.line = m.line → hartDie a.h = d.val → s.ring = [] → (a.kind = .load ∨ a.kind = .fetch) →
    m.poison = false → w < 16 → (s.cline d (uL2 (hartCluster a.h)) (Machine.setOf (uL2 (hartCluster a.h)) m.line) w).valid = false →
    Completes (.dataS d m) s (fun t => t.resp = .data (BitVec.ofNat 64 (ofBytesLE ((m.data.drop a.off).take 8))) ∧
      t.lineBusy d m.line = false ∧
      (t.copyIn d (uL2 (hartCluster a.h)) m.line).map (fun x => (x.data, x.poison)) = some (m.data, false)) ∧
    Completes (.dataE d m) s (fun t => t.resp = .data (BitVec.ofNat 64 (ofBytesLE ((m.data.drop a.off).take 8))) ∧
      t.lineBusy d m.line = false ∧
      (t.copyIn d (uL2 (hartCluster a.h)) m.line).map (fun x => (x.data, x.poison)) = some (m.data, false))) ∧
  (∀ (d : Fin 12) (m : CohMsg) (a : Access) (b : List Nat) (w : Nat) (s : State), DieHears s d m →
    (s.sliceTxn d m.line).st = .ixD → (s.sliceTxn d m.line).waiting = [a] → a.line = m.line → hartDie a.h = d.val → s.ring = [] →
    (accIsAmo a = true ∧ m.poison = false ∨ ∃ e, a.kind = .store e) → b = accStored a m.data →
    s.policy d a.sealed m.line ≠ 1 → w < 16 →
    (s.cline d (uL2 (hartCluster a.h)) (Machine.setOf (uL2 (hartCluster a.h)) m.line) w).valid = false →
    Completes (.dataE d m) s (fun t => t.resp = accStoreAnswer a m.data ∧ t.lineBusy d m.line = false ∧
      ((t.copyIn d (uL1d (a.h % 18)) m.line).map (fun x => (x.st, x.data, x.poison)) =
          some (2, putBytes m.data a.off b, m.poison && decide (b.length < 64)) ∨
        (t.copyIn d (uL1d (a.h % 18)) m.line).isNone = true ∧
        (t.copyIn d (uL2 (hartCluster a.h)) m.line).map (fun x => (x.st, x.data, x.poison)) =
          some (2, putBytes m.data a.off b, m.poison && decide (b.length < 64))))) ∧
  (∀ (d : Fin 12) (m : CohMsg) (a : Access) (b : List Nat) (x : CLine) (s : State), DieHears s d m →
    (s.sliceTxn d m.line).st = .sxA → (s.sliceTxn d m.line).waiting = [a] → a.line = m.line → hartDie a.h = d.val → s.ring = [] →
    a.kind = .store b → s.policy d a.sealed m.line ≠ 1 → s.copyIn d (uL2 (hartCluster a.h)) m.line = some x →
    Completes (.gntX d m) s (fun t => t.resp = .ok ∧ t.lineBusy d m.line = false ∧
      ((t.copyIn d (uL1d (a.h % 18)) m.line).map CLine.st = some 2 ∨
        (t.copyIn d (uL2 (hartCluster a.h)) m.line).map CLine.st = some 2) ∧
      ∀ u, u < 49 → u ≠ uL2 (hartCluster a.h) → u ≠ uL1d (a.h % 18) → t.findWay d u m.line = none)) ∧
  (∀ (d : Fin 12) (m : CohMsg) (s : State), DieHears s d m → (s.sliceTxn d m.line).waiting = [] → s.ring = [] →
    ((s.sliceTxn d m.line).st = .miA ∨ (s.sliceTxn d m.line).st = .mkA → Completes (.wbAck d m) s (fun t =>
      t.lineBusy d m.line = false ∧ t.out = s.out ∧ t.cache = s.cache ∧ SameRegsBut [] s t)) ∧
    ((s.sliceTxn d m.line).st = .miA → Completes (.wbStale d m) s (fun t =>
      t.lineBusy d m.line = false ∧ t.out = s.out ∧ t.cache = s.cache ∧ SameRegsBut [] s t))) ∧
  (∀ (d : Fin 12) (m : CohMsg) (s : State), ¬ s.stopped → (s.dieSt d).otherMake = false → s.lineBusy d m.line = false →
    Completes (.dataS d m) s (fun t => FatallyStopped t) ∧ Completes (.dataE d m) s (fun t => FatallyStopped t) ∧
    Completes (.gntX d m) s (fun t => FatallyStopped t) ∧ Completes (.wbAck d m) s (fun t => FatallyStopped t) ∧
    Completes (.wbStale d m) s (fun t => FatallyStopped t)) ∧
  (∀ (g : Fin 32) (m : CohMsg) (a : Access) (s : State), ¬ s.stopped → g.val < 12 → m.err = true →
    (∀ v, m.vi = some v → s.get (L.VI_STATE.GEN (v / 32) (v % 32)) = m.gen) →
    ((s.sliceTxn g m.line).st = .isD ∨ (s.sliceTxn g m.line).st = .ixD ∨ (s.sliceTxn g m.line).st = .sxA) →
    (s.sliceTxn g m.line).waiting = [a] → a.line = m.line → hartDie a.h = g.val → s.ring = [] → NotOfDie s g m →
    Completes (.cmp g m) s (fun t =>
      t.lineBusy g m.line = false ∧ t.cache = s.cache ∧ t.out = s.out ∧ SameRegsButRecords [] s t ∧
      ((∀ e, a.kind ≠ .store e) → a.kind ≠ .prefL1 → a.kind ≠ .prefL2 → t.resp = .accessFault) ∧
      (∀ e, a.kind = .store e → t.get (L.ERR_LOG_STAT.VALID (dieLog g)) = 1))) ∧
  (∀ (g : Fin 32) (m : CohMsg) (s : State), ¬ s.stopped → g.val < 12 → m.err = true →
    (∀ v, m.vi = some v → s.get (L.VI_STATE.GEN (v / 32) (v % 32)) = m.gen) →
    ((s.sliceTxn g m.line).st = .miA ∨ (s.sliceTxn g m.line).st = .mkA) → (s.sliceTxn g m.line).waiting = [] → s.ring = [] →
    NotOfDie s g m → Completes (.cmp g m) s (fun t => t.lineBusy g m.line = false ∧ t.cache = s.cache ∧ t.out = s.out ∧
      SameRegsBut [] s t)) ∧
  (∀ (g : Fin 32) (m : CohMsg) (v : Nat) (s : State), ¬ s.stopped → m.vi = some v → v < 256 →
    s.get (L.VI_STATE.GEN (v / 32) (v % 32)) ≠ m.gen → Completes (.cmp g m) s (fun t =>
      t.get (L.VI_STATE.LATE (v / 32) (v % 32)) = min (s.get (L.VI_STATE.LATE (v / 32) (v % 32)) + 1) (2 ^ 32 - 1) ∧
      t.slices = s.slices ∧ SameRegsBut [R.VI_STATE (v / 32) (v % 32)] s t)) ∧
  (∀ (g : Fin 32) (m : CohMsg) (r : DieReq) (s : State), ¬ s.stopped → g.val < 12 →
    (∀ v, m.vi = some v → s.get (L.VI_STATE.GEN (v / 32) (v % 32)) = m.gen) → (s.dieSt g).sent = [r] → r.waits = false →
    r.txn = m.txn → r.line = m.line → Completes (.cmp g m) s (fun t => (t.dieSt g).sent = [] ∧ t.cache = s.cache ∧
      t.slices = s.slices ∧ t.mem = s.mem ∧ ((m.err = false ∨ r.op.isSome = true) → SameRegsBut [] s t) ∧
      (m.err = true → r.op = none → t.get (L.ERR_LOG_STAT.VALID (dieLog g)) = 1 ∧ SameRegsButRecords [] s t))) ∧
  (∀ (g : Fin 32) (m : CohMsg) (r w : DieReq) (s : State), ¬ s.stopped → g.val < 12 →
    (∀ v, m.vi = some v → s.get (L.VI_STATE.GEN (v / 32) (v % 32)) = m.gen) → (s.dieSt g).sent = [r, w] → r.waits = false →
    r.txn = m.txn → r.line = m.line → r.op = none → m.err = false → w.waits = true → w.line = m.line → w.op = some 1 →
    hartDie w.h = g.val → lineInHbm m.line = true → s.lineOpen m.line = true → Completes (.cmp g m) s (fun t =>
      t.cache = s.cache ∧ t.mem = s.mem ∧ SameRegsBut [] s t ∧ t.out = s.out ++ [.coh .cmo (0x100 + s.homeOf m.line)
        { sliceMsg g m.line w.sealed (s.inReservedWindow w.h (64 * m.line)) with
          txn := SMap.get s.wbTag (64 + 4 * g.val + sliceOf m.line), op := 1 }])) ∧
  (∀ (g : Fin 32) (m : CohMsg) (s : State), (∀ v, m.vi = some v → s.get (L.VI_STATE.GEN (v / 32) (v % 32)) = m.gen) →
    (12 ≤ g.val ∨ m.err = false ∧ NotOfDie s g m) → Completes (.cmp g m) s (fun t => t = s))


/-! ### Die links (08) -/

/-- Training (R193 to R196, R204): the reset is released, which clears the link's counters; an exchange is accepted, answered by
one forced retraining if the lane records differ, or fails, each time with the hub's own offer, and three failures in a row
hold the link; the end of training
makes it ACTIVE at the width that its lane records allow; writes of DL_CTRL hold it, retrain it or clear its record.
Where a point is open it states the model's choice (log entries 64, 186). -/
def Obligations.LinksTrain : Prop :=
  (∀ (n : Fin 48) (s : State), s.dlState n = dlDown → (s.link n).wentDown = false → s.get (L.DL_CTRL.HOLD n) = 0 →
    s.domPowered (2 * (n.val / 4) + 1) = true → Completes (.linkTrain n) s (fun t => t.dlState n = dlTrain ∧
      (t.link n).exchanged = false ∧ (t.link n).trainAt = s.up ∧ t.rd (R.DL_CNT n) = 0 ∧ HubOffers s n false t ∧
      (∀ k, k < 36 → t.rd (R.DL_LANE_CNT n k) = 0) ∧
      SameRegsButScheds (R.DL_STATUS n :: R.DL_CNT n :: (List.range 36).map (fun k => R.DL_LANE_CNT n k)) s t)) ∧
  (∀ (n : Fin 48) (p : PeerParams) (spares : Nat) (s : State), s.exchanging n = true → p.verMaj = 1 →
    (p.cls.val = 1 ∨ p.cls.val = 2) →
    (∀ k, k < 4 → s.dlState (4 * (n.val / 4) + k) = dlActive → s.get (L.DL_PEER.CLASS (4 * (n.val / 4) + k)) = p.cls.val) →
    spares = (if p.spares.val = 0 then 0x30000 else 0) → p.failedRx = (s.get (L.DL_LANES_RX.FAILED n) ||| spares) →
    p.failedTx = (s.get (L.DL_LANES_TX.FAILED n) ||| spares) → Completes (.paramExchange n p) s (fun t =>
      t.get (L.DL_PEER.CLASS n) = p.cls.val ∧ t.get (L.DL_PEER.SPARES n) = p.spares.val ∧
      t.get (L.DL_PEER.VENDOR n) = p.vendor % 2 ^ 16 ∧ t.get (L.DL_PEER.VER_MAJ n) = 1 ∧
      t.get (L.DL_PEER.VER_MIN n) = p.verMin % 2 ^ 8 ∧ t.get (L.DL_STATUS.EXCH_FAIL n) = 0 ∧
      t.link n = { s.link n with exchanged := true, forced := false, credit := p.credits } ∧
      (t.dieSt (n.val / 4)).otherMake = (p.vendor != 0x5EC1) ∧ t.get (L.DL_LANES_RX.FAILED n) = p.failedRx ∧
      t.get (L.DL_LANES_TX.FAILED n) = p.failedTx ∧
      SameRegsBut [R.DL_PEER n, R.DL_STATUS n, R.DL_LANES_RX n, R.DL_LANES_TX n] s t)) ∧
  (∀ (n : Fin 48) (p : PeerParams) (s : State), s.exchanging n = true → p.verMaj = 1 → (p.cls.val = 1 ∨ p.cls.val = 2) →
    (∀ k, k < 4 → s.dlState (4 * (n.val / 4) + k) = dlActive → s.get (L.DL_PEER.CLASS (4 * (n.val / 4) + k)) = p.cls.val) →
    p.spares.val ≠ 0 → s.recordAgrees n p = false →
    ((s.link n).forced = false → Completes (.paramExchange n p) s (fun t =>
      t.link n = { s.link n with forced := true, trainAt := s.up } ∧ HubOffers s n true t ∧ SameRegsBut [] s t)) ∧
    ((s.link n).forced = true → s.get (L.DL_STATUS.EXCH_FAIL n) < 2 → Completes (.paramExchange n p) s (fun t =>
      t.link n = { s.link n with forced := false, trainAt := s.up } ∧ HubOffers s n false t ∧
      t.get (L.DL_STATUS.EXCH_FAIL n) = s.get (L.DL_STATUS.EXCH_FAIL n) + 1 ∧
      SameRegsBut [R.DL_STATUS n] s t)) ∧
    ((s.link n).forced = true → 2 ≤ s.get (L.DL_STATUS.EXCH_FAIL n) → Completes (.paramExchange n p) s (fun t =>
      t.dlState n = dlHeld ∧ t.get (L.DL_STATUS.MM_REASON n) = 4 ∧ t.get (L.DL_EVT.MISMATCH n) = 1))) ∧
  (∀ (n : Fin 48) (p : PeerParams) (s : State), s.exchanging n = true → p.verMaj ≠ 1 → s.get (L.DL_STATUS.EXCH_FAIL n) < 2 →
    Completes (.paramExchange n p) s (fun t => t.get (L.DL_STATUS.EXCH_FAIL n) = s.get (L.DL_STATUS.EXCH_FAIL n) + 1 ∧
      t.dlState n = s.dlState n ∧ (t.link n).trainAt = s.up ∧ HubOffers s n false t ∧ SameRegsBut [R.DL_STATUS n] s t)) ∧
  (∀ (n : Fin 48) (p : PeerParams) (s : State), s.exchanging n = true → p.verMaj ≠ 1 → 2 ≤ s.get (L.DL_STATUS.EXCH_FAIL n) →
    Completes (.paramExchange n p) s (fun t => t.dlState n = dlHeld ∧ t.get (L.DL_STATUS.MM_REASON n) = 2 ∧
      t.get (L.DL_EVT.MISMATCH n) = 1 ∧ SameRegsButScheds [R.DL_STATUS n, R.DL_EVT n] s t)) ∧
  (∀ (n : Fin 48) (s : State), s.exchanging n = true → s.get (L.DL_STATUS.EXCH_FAIL n) < 2 →
    Completes (.exchangeTimeout n) s (fun t => t.get (L.DL_STATUS.EXCH_FAIL n) = s.get (L.DL_STATUS.EXCH_FAIL n) + 1 ∧
      (s.link n).trainAt + 1000000 ≤ t.up ∧ (t.link n).trainAt = t.up ∧ SameRegsButRecords [R.DL_STATUS n] s t)) ∧
  (∀ (n : Fin 48) (rx tx : Nat) (ok : Bool) (half : Option Bool) (s : State),
    (s.dlState n = dlTrain ∨ s.dlState n = dlRetrainSt) → (s.link n).exchanged = true → rx < 2 ^ 18 → tx < 2 ^ 18 →
    widthOf (s.get (L.DL_LANES_RX.FAILED n) ||| rx) (s.get (L.DL_LANES_TX.FAILED n) ||| tx) = some half →
    (∀ k, k < 4 → (s.link (4 * (n.val / 4) + k)).txWait = [] ∧ (s.link (4 * (n.val / 4) + k)).resend = []) →
    Completes (.linkTrainDone n rx tx ok) s (fun t => t.dlState n = dlActive ∧
      t.get (L.DL_STATUS.X8 n) = (if half.isSome then 1 else 0) ∧ t.get (L.DL_STATUS.UPPER n) = (if half = some true then 1 else 0) ∧
      t.get (L.DL_STATUS.TIME_OK n) = (if ok then 1 else 0) ∧
      t.get (L.DL_LANES_RX.FAILED n) = s.get (L.DL_LANES_RX.FAILED n) ||| rx ∧
      t.get (L.DL_LANES_TX.FAILED n) = s.get (L.DL_LANES_TX.FAILED n) ||| tx ∧
      (∀ sl, sl < 4 → (t.get (L.DL_STATUS.CARRY n)).testBit sl = decide (t.carrier (n.val / 4) sl = some n.val)) ∧
      (t.link n).rxSeq = 0 ∧ (t.link n).txSeq = 0 ∧ (t.link n).rxFree = hubUnits ∧
      (s.get (L.DL_PEER.CLASS n) = 1 → (s.dieSt (n.val / 4)).left = false →
        ∀ h, h < 32 → (t.get (L.HA_STATUS.CA h)).testBit (n.val / 4) = true))) ∧
  (∀ (n : Fin 48) (rx tx : Nat) (ok : Bool) (s : State),
    (s.dlState n = dlTrain ∨ s.dlState n = dlRetrainSt) → (s.link n).exchanged = true → rx < 2 ^ 18 → tx < 2 ^ 18 →
    widthOf (s.get (L.DL_LANES_RX.FAILED n) ||| rx) (s.get (L.DL_LANES_TX.FAILED n) ||| tx) = none →
    Completes (.linkTrainDone n rx tx ok) s (fun t => t.dlState n = dlDown ∧ (t.link n).wentDown = true ∧
      t.get (L.DL_EVT.DOWN n) = 1)) ∧
  (∀ (c : Issuer) (n : Fin 48) (v : Word) (s : State), Sends s c → c.sealed = true → v.getLsbD 3 = false → v.getLsbD 2 = true →
    Completes (.dlHold c n v) s (fun t => t.get (L.DL_CTRL.HOLD n) = 1 ∧ t.get (L.DL_CTRL.AXO_EN n) = fieldOf v 0 1 ∧
      (s.dlState n = dlHeld → t.dlState n = dlHeld) ∧
      (s.dlState n ≠ dlHeld → t.dlState n = dlDown ∧ (t.link n).wentDown = true))) ∧
  (∀ (c : Issuer) (n : Fin 48) (v : Word) (s : State), Sends s c → c.sealed = true → v.getLsbD 3 = false → v.getLsbD 2 = false →
    v.getLsbD 1 = true → Completes (.dlRetrain c n v) s (fun t => t.dlState n = dlRetrainSt ∧ t.get (L.DL_EVT.RETRAIN n) = 1 ∧
      t.get (L.DL_CTRL.HOLD n) = 0 ∧ (t.link n).exchanged = false)) ∧
  (∀ (c : Issuer) (n : Fin 48) (v : Word) (s : State), Sends s c → c.sealed = true → v.getLsbD 3 = true → v.getLsbD 2 = false →
    v.getLsbD 1 = false → (s.dlState n = dlDown ∨ s.dlState n = dlHeld) → Completes (.dlClrRec c n v) s (fun t => t.resp = .ok ∧
      t.get (L.DL_LANES_RX.FAILED n) = 0 ∧ t.get (L.DL_LANES_TX.FAILED n) = 0 ∧ t.get (L.DL_CTRL.AXO_EN n) = fieldOf v 0 1 ∧
      SameRegsBut [R.DL_CTRL n, R.DL_LANES_RX n, R.DL_LANES_TX n] s t)) ∧
  (∀ (c : Issuer) (n : Fin 48) (v : Word) (s : State),
    Sends s c → (c.sealed = false ∨ v.getLsbD 3 = true ∧ s.dlState n ≠ dlDown ∧ s.dlState n ≠ dlHeld) →
    Completes (.dlHold c n v) s (fun t => Refused s t) ∧ Completes (.dlRetrain c n v) s (fun t => Refused s t) ∧
    Completes (.dlClrRec c n v) s (fun t => Refused s t))

/-- Axolotl and the timing lane (R192, R197 to R201): a failing lane is recorded and given a free spare while the records leave
enough of them, and the hub's switch flit names it; the spare takes the lane over, after 64 good flits where the hub receives;
with no spare left the link goes to the half it names or goes DOWN; with AXO_EN 0 a failing lane is only recorded; time words
leave on every ACTIVE link, and a timing lane that fails is shown.
Where a point is open it states the model's choice (log entries 65, 68, 185). -/
def Obligations.LinksRepairAndKeepTime : Prop :=
  (∀ (n : Fin 48) (lane : Fin 18) (idle lg sp : Nat) (s : State), s.logicalLane n false lane = some lg →
    s.up < (s.link n).winAt + 1000 * max 1 (s.get (L.DL_AXO_CFG.WINDOW n)) →
    s.get (L.DL_AXO_CFG.THR n) ≤ s.get (L.DL_LANE_CNT.WINDOW_CNT n lane) →
    (s.get (L.DL_LANES_RX.FAILED n)).testBit lane = false → s.dlState n = dlActive → (s.link n).action = .none →
    (s.get (L.DL_CTRL.AXO_EN n) = 0 → Completes (.laneParityThreshold n lane idle) s (fun t =>
      (t.get (L.DL_LANES_RX.FAILED n)).testBit lane = true ∧ t.get (L.DL_EVT.LANE n) = 1 ∧ t.links = s.links ∧ t.out = s.out ∧
      SameRegsButRecords [R.DL_LANES_RX n, R.DL_EVT n] s t)) ∧
    (s.get (L.DL_CTRL.AXO_EN n) = 1 → (s.freeSpares n false).head? = some sp → lg < 16 →
      (s.get (L.DL_STATUS.X8 n) = 1 ∨
        widthOf (s.get (L.DL_LANES_RX.FAILED n) ||| 1 <<< lane.val) (s.get (L.DL_LANES_TX.FAILED n)) = some none) →
      Completes (.laneParityThreshold n lane idle) s (fun t => (t.get (L.DL_LANES_RX.FAILED n)).testBit lane = true ∧
        t.get (L.DL_EVT.LANE n) = 1 ∧ (t.link n).action = .spare [(false, lg, sp)] ∧ (t.link n).decidedAt = s.up ∧
        (t.link n).group = [(false, lane.val)] ∧ (t.link n).copyGood = 0 ∧
        (∃ k, k < 4096 ∧ t.out = s.out ++ [.axolotl n (.spare [(false, lg, sp)]) k]) ∧
        SameRegsButRecords [R.DL_LANES_RX n, R.DL_EVT n] s t)) ∧
    (s.get (L.DL_CTRL.AXO_EN n) = 1 → s.get (L.DL_STATUS.X8 n) = 0 → ∀ u,
      widthOf (s.get (L.DL_LANES_RX.FAILED n) ||| 1 <<< lane.val) (s.get (L.DL_LANES_TX.FAILED n)) = some (some u) →
      Completes (.laneParityThreshold n lane idle) s (fun t => (t.get (L.DL_LANES_RX.FAILED n)).testBit lane = true ∧
        (t.link n).action = .narrow u ∧ (t.link n).decidedAt = s.up)) ∧
    (s.get (L.DL_CTRL.AXO_EN n) = 1 → lg < 16 →
      (s.get (L.DL_STATUS.X8 n) = 1 ∧ s.freeSpares n false = [] ∨ s.get (L.DL_STATUS.X8 n) = 0 ∧
        widthOf (s.get (L.DL_LANES_RX.FAILED n) ||| 1 <<< lane.val) (s.get (L.DL_LANES_TX.FAILED n)) = none) →
      Completes (.laneParityThreshold n lane idle) s (fun t => (t.get (L.DL_LANES_RX.FAILED n)).testBit lane = true ∧
        (t.link n).action = .down ∧ (t.link n).decidedAt = s.up))) ∧
  (∀ (n : Fin 48) (lane : Fin 18) (idle : Nat) (s : State), 16 ≤ lane.val → s.logicalLane n false lane = none →
    s.up < (s.link n).winAt + 1000 * max 1 (s.get (L.DL_AXO_CFG.WINDOW n)) →
    (s.get (L.DL_LANES_RX.FAILED n)).testBit lane = false → s.dlState n = dlActive → (s.link n).action = .none →
    Completes (.laneParityThreshold n lane idle) s (fun t => (t.link n).action = .none ∧ t.out = s.out ∧
      t.get (L.DL_LANE_CNT.WINDOW_CNT n lane) = min (s.get (L.DL_LANE_CNT.WINDOW_CNT n lane) + idle) (2 ^ 16 - 1) ∧
      (t.get (L.DL_LANES_RX.FAILED n)).testBit lane =
        decide (s.get (L.DL_AXO_CFG.THR n) ≤ min (s.get (L.DL_LANE_CNT.WINDOW_CNT n lane) + idle) (2 ^ 16 - 1)))) ∧
  (∀ (n : Fin 48) (lane : Fin 18) (errors lg sp : Nat) (s : State), lane.val < 16 → s.logicalLane n true lane = some lg →
    s.up < (s.link n).winAt + 1000 * max 1 (s.get (L.DL_AXO_CFG.WINDOW n)) →
    (s.get (L.DL_LANES_TX.FAILED n)).testBit lane = false → s.get (L.DL_CTRL.AXO_EN n) = 1 → s.dlState n = dlActive →
    (s.link n).action = .none → (s.freeSpares n true).head? = some sp →
    (s.get (L.DL_STATUS.X8 n) = 1 ∨
      widthOf (s.get (L.DL_LANES_RX.FAILED n)) (s.get (L.DL_LANES_TX.FAILED n) ||| 1 <<< lane.val) = some none) →
    Completes (.sidebandLaneReport n lane errors) s (fun t => (t.get (L.DL_LANES_TX.FAILED n)).testBit lane = true ∧
      t.get (L.DL_LANE_CNT.TOTAL n (18 + lane.val)) =
        min (s.get (L.DL_LANE_CNT.TOTAL n (18 + lane.val)) + errors) (2 ^ 32 - 1) ∧
      t.get (L.DL_EVT.LANE n) = 1 ∧ (t.link n).action = .spare [(true, lg, sp)] ∧ (t.link n).decidedAt = s.up ∧
      (t.link n).group = [(true, lane.val)] ∧
      (∃ k, k < 4096 ∧ t.out = s.out ++ [.axolotl n (.spare [(true, lg, sp)]) k]) ∧
      SameRegsButRecords [R.DL_LANES_TX n, R.DL_EVT n, R.DL_LANE_CNT n (18 + lane.val)] s t)) ∧
  (∀ (n : Fin 48) (fixes : List (Bool × Nat × Nat)) (s : State), (s.link n).action = .spare fixes →
    (∀ f ∈ fixes, f.2.1 < 16 ∧ (f.2.2 = 16 ∨ f.2.2 = 17)) →
    fixes.Pairwise (fun a b => a.1 = b.1 → a.2.1 ≠ b.2.1 ∧ a.2.2 ≠ b.2.2) →
    (fixes.any (fun f => !f.1) = true → (s.link n).copyGood < 64 → Completes (.spareSwitch n) s (fun t => t = s)) ∧
    (fixes.any (fun f => !f.1) = true → 64 ≤ (s.link n).copyGood → (s.link n).waitLanes = [] →
      Completes (.spareSwitch n) s (fun t => (∀ f ∈ fixes, t.get (spareFor n f.1 f.2.2) = f.2.1) ∧ t.get (L.DL_EVT.SUB n) = 1 ∧
        t.link n = { s.link n with action := .none, group := [] } ∧
        SameRegsButRecords [R.DL_LANES_TX n, R.DL_LANES_RX n, R.DL_EVT n] s t)) ∧
    (fixes.any (fun f => !f.1) = false → (s.link n).waitLanes = [] →
      Completes (.spareSwitch n) s (fun t => (∀ f ∈ fixes, t.get (spareFor n f.1 f.2.2) = f.2.1) ∧ t.get (L.DL_EVT.SUB n) = 1 ∧
        t.link n = { s.link n with action := .none, group := [] } ∧
        SameRegsButRecords [R.DL_LANES_TX n, R.DL_EVT n] s t))) ∧
  (∀ (n : Fin 48) (late : Fin 11) (u : Bool) (s : State), (s.link n).action = .narrow u → (s.link n).waitLanes = [] →
    Completes (.linkNarrow n late) s (fun t => t.get (L.DL_STATUS.X8 n) = 1 ∧ t.get (L.DL_STATUS.UPPER n) = (if u then 1 else 0) ∧
      t.get (L.DL_EVT.NARROW n) = 1 ∧ (t.link n).action = .none ∧ (s.link n).decidedAt + 240 + late.val ≤ t.up ∧
      t.dlState n = s.dlState n ∧ SameRegsButScheds [R.DL_STATUS n, R.DL_LANES_RX n, R.DL_LANES_TX n, R.DL_EVT n] s t)) ∧
  (∀ (n : Fin 48) (late : Fin 11) (s : State), (s.link n).action = .down → Completes (.linkNarrow n late) s (fun t =>
    t.dlState n = dlDown ∧ (t.link n).wentDown = true ∧ t.get (L.DL_EVT.DOWN n) = 1)) ∧
  (∀ (s : State), Completes .timeWordSend s (fun t => t.timeWordAt = t.up ∧ s.timeWordAt + 1024 ≤ t.up ∧
    t.out = s.out ++ ((List.range 48).filter (fun n => s.dlState n == dlActive)).map (fun n => .timeWord n t.tb.ns t.visFrac) ∧
    SameRegsButRecords [] s t)) ∧
  (∀ (n : Fin 48) (s : State), s.get (L.DL_STATUS.TIME_OK n) = 1 → Completes (.timingLaneFail n) s (fun t =>
    t.get (L.DL_STATUS.TIME_OK n) = 0 ∧ t.get (L.DL_EVT.TIME_LANE n) = 1 ∧
    SameRegsButRecords [R.DL_STATUS n, R.DL_EVT n] s t))

/-- Flits and plain accesses (R186 to R191, R194, R203): the whole messages of a good flit are delivered in order and their
units returned with its acknowledgement, a flit out of turn is dropped, a bad one is answered with LNAK and its second failure
retrains the link; LNAK has the hub resend, RESUME takes over a lost link's messages, and each violation is answered by its
code; IO_RD and IO_WR reach their target, IO_CMP its requester.
Where a point is open it states the model's choice (log entries 66, 67, 181 to 184). -/
def Obligations.LinksCarryTraffic : Prop :=
  (∀ (n : Fin 48) (w : BitVec 1024) (ms : List CdpMsg) (s : State), FlitTaken s n w.toNat → LinkQuiet s n →
    cdpKind w.toNat = kindMsg → (s.link n).rxPart = default → (s.link n).owed.length = 4 → (∀ m ∈ ms, MsgFits (s.dieSt (n.val / 4)) m) →
    ((ms.filter (fun m => m.opcode == 0x32)).map CdpMsg.txn).Nodup →
    (ms.flatMap cdpUnits).length ≤ 7 → cdpPayload w.toNat = packUnits (ms.flatMap cdpUnits) →
    (∀ v, v < 4 → unitsOn ms v ≤ (s.link n).rxFree.getD v 0) →
    Completes (.cdpMsgFlit n w) s (fun t =>
      t.out = s.out ++ ms.map (fun m => .cdpMsg n m) ++ [.cdpFlit n (({ (s.link n).took w.toNat with
        owed := (List.range 4).map (fun v => (s.link n).owed.getD v 0 + unitsOn ms v) }).flit (s.linkHalf n) kindIdle 0)] ∧
      (∀ v, v < 4 →
        (t.link n).owed.getD v 0 = (s.link n).owed.getD v 0 + unitsOn ms v - min 15 ((s.link n).owed.getD v 0 + unitsOn ms v) ∧
        (t.link n).rxFree.getD v 0 =
          (s.link n).rxFree.getD v 0 - unitsOn ms v + min 15 ((s.link n).owed.getD v 0 + unitsOn ms v)) ∧
      (t.link n).rxSeq = ((s.link n).rxSeq + 1) % 4096 ∧ (t.link n).replay = ((s.link n).took w.toNat).replay ∧
      (t.link n).credit = ((s.link n).took w.toNat).credit ∧ SameRegsBut [] s t)) ∧
  (∀ (n : Fin 48) (w : BitVec 1024) (s : State), FlitTaken s n w.toNat → LinkQuiet s n → cdpKind w.toNat = kindIdle →
    Completes (.cdpIdleFlit n w) s (fun t => t.link n = (s.link n).took w.toNat ∧ t.out = s.out ∧ SameRegsBut [] s t)) ∧
  (∀ (n : Fin 48) (w : BitVec 1024) (s : State), s.dlState n = dlActive → cdpGood (s.linkHalf n) w.toNat = true →
    cdpSeq w.toNat ≠ (s.link n).rxSeq →
    ∀ i ∈ [Instr.cdpMsgFlit n w, .cdpIdleFlit n w, .cdpLnak n w, .cdpResume n w], Completes i s (fun t =>
      t.link n = { s.link n with copyGood := (s.link n).copyGood + 1 } ∧ t.out = s.out ∧ SameRegsBut [] s t)) ∧
  (∀ (n : Fin 48) (w : BitVec 1024) (s : State), s.dlState n = dlActive → cdpGood (s.linkHalf n) w.toNat = false →
    (s.link n).rxFail = none →
    ∀ i ∈ [Instr.cdpMsgFlit n w, .cdpIdleFlit n w, .cdpLnak n w, .cdpResume n w], Completes i s (fun t =>
      (t.link n).rxFail = some (s.link n).rxSeq ∧ (t.link n).rxSeq = (s.link n).rxSeq ∧
      LnakSent s n (s.link n) 0 (s.link n).rxSeq t ∧
      t.get (L.DL_CNT.CRC_ERR n) = min (s.get (L.DL_CNT.CRC_ERR n) + 1) (2 ^ 24 - 1) ∧
      t.get (L.DL_CNT.REPLAY n) = min (s.get (L.DL_CNT.REPLAY n) + 1) (2 ^ 24 - 1) ∧
      SameRegsButRecords (R.DL_CNT n :: (List.range 36).map (fun k => R.DL_LANE_CNT n k)) s t)) ∧
  (∀ (n : Fin 48) (w : BitVec 1024) (s : State), s.dlState n = dlActive → cdpGood (s.linkHalf n) w.toNat = false →
    (s.link n).rxFail = some (cdpSeq w.toNat) →
    ∀ i ∈ [Instr.cdpMsgFlit n w, .cdpIdleFlit n w, .cdpLnak n w, .cdpResume n w], Completes i s (fun t =>
      t.dlState n = dlRetrainSt ∧ t.get (L.DL_EVT.RETRAIN n) = 1)) ∧
  (∀ (n : Fin 48) (w : BitVec 1024) (seq : Nat) (s : State), FlitTaken s n w.toNat → LinkQuiet s n →
    cdpKind w.toNat = kindLnak → seq < 4096 → bits (cdpPayload w.toNat) 19 0 = lnakPayload 0 seq →
    (((s.link n).took w.toNat).txRefused ≠ some seq → Completes (.cdpLnak n w) s (fun t =>
      t.out = s.out ++ (((s.link n).took w.toNat).replay.filter (fun f => decide ((f.seq + 4096 - seq) % 4096 < 2048))).map
        (fun f => .cdpFlit n (cdpSeal (s.linkHalf n) (f.wire % 2 ^ 976))) ∧
      t.get (L.DL_CNT.REPLAY n) = min (s.get (L.DL_CNT.REPLAY n) + 1) (2 ^ 24 - 1) ∧ t.get (L.DL_STATUS.LNAK_LAST n) = 0 ∧
      t.link n = { (s.link n).took w.toNat with txRefused := some seq } ∧
      SameRegsButRecords [R.DL_CNT n, R.DL_STATUS n] s t)) ∧
    (((s.link n).took w.toNat).txRefused = some seq → Completes (.cdpLnak n w) s (fun t =>
      t.dlState n = dlRetrainSt ∧ t.get (L.DL_EVT.RETRAIN n) = 1))) ∧
  (∀ (n : Fin 48) (w : BitVec 1024) (s : State), FlitTaken s n w.toNat → LinkQuiet s n → cdpKind w.toNat = kindLnak →
    bits (cdpPayload w.toNat) 7 0 ≠ 0 → Completes (.cdpLnak n w) s (fun t =>
      t.get (L.DL_STATUS.LNAK_LAST n) = bits (cdpPayload w.toNat) 7 0 ∧ t.out = s.out ∧
      t.link n = (s.link n).took w.toNat ∧ SameRegsBut [R.DL_STATUS n] s t)) ∧
  (∀ (n : Fin 48) (w : BitVec 1024) (k last : Nat) (s : State), FlitTaken s n w.toNat → LinkQuiet s n →
    cdpKind w.toNat = kindResume → k = 4 * (n.val / 4) + bits (cdpPayload w.toNat) 1 0 →
    last = bits (cdpPayload w.toNat) 13 2 →
    (s.dlState k ≠ dlActive → Completes (.cdpResume n w) s (fun t =>
      (t.link n).unsent = ((s.link n).took w.toNat).unsent ++ ((s.link k).lost.filter (fun e =>
        decide (0 < (e.1 + 4096 - last) % 4096 ∧ (e.1 + 4096 - last) % 4096 < 2048) &&
          s.carrier (n.val / 4) e.2.1 == some n.val)).map Prod.snd ∧
      (∀ e ∈ (t.link k).lost, s.carrier (n.val / 4) e.2.1 ≠ some n.val))) ∧
    (s.dlState k = dlActive → (s.link k).lost = [] → Completes (.cdpResume n w) s (fun t =>
      LnakSent s n ((s.link n).took w.toNat) 0x04 (cdpSeq w.toNat) t ∧ t.get (L.DL_STATUS.LNAK_LAST n) = 0x04 ∧
      t.get (L.DL_EVT.PEER_VIOL n) = 1 ∧ t.get (L.DL_CNT.LNAK n) = min (s.get (L.DL_CNT.LNAK n) + 1) (2 ^ 16 - 1) ∧
      SameRegsButRecords [R.DL_CNT n, R.DL_STATUS n, R.DL_EVT n] s t))) ∧
  (∀ (n : Fin 48) (w : BitVec 1024) (k last sl : Nat) (m : CdpMsg) (s : State), FlitTaken s n w.toNat → LinkQuiet s n →
    cdpKind w.toNat = kindResume → k = 4 * (n.val / 4) + bits (cdpPayload w.toNat) 1 0 →
    last = bits (cdpPayload w.toNat) 13 2 → last < 4096 → s.dlState k ≠ dlActive →
    (s.link k).lost = [((last + 1) % 4096, sl, m)] → s.carrier (n.val / 4) sl = some n.val → unitCount m ≤ 7 →
    unitCount m ≤ ((s.link n).took w.toNat).credit.getD m.vc 0 → ((s.link n).took w.toNat).replay.length < 64 →
    Completes (.cdpResume n w) s (fun t => t.out = s.out ++ [.cdpFlit n
      (((s.link n).took w.toNat).flit (s.linkHalf n) kindMsg (packUnits (cdpUnits m)))])) ∧
  (∀ (n : Fin 48) (w : BitVec 1024) (code : Nat) (s : State), s.dlState n = dlActive →
    cdpGood (s.linkHalf n) w.toNat = true → cdpSeq w.toNat = (s.link n).rxSeq → LinkQuiet s n →
    ((3 < cdpKind w.toNat ∨ cdpReserved w.toNat = true) ∧ code = 0x01 ∨
      FlitTaken s n w.toNat ∧ cdpKind w.toNat = kindMsg ∧ (s.link n).rxPart = default ∧
        (∀ k, k < 7 → 0 < k → bits (cdpPayload w.toNat) (128 * k + 127) (128 * k) = 0) ∧ bits (cdpPayload w.toNat) 7 0 ≠ 0 ∧
        (cdpOpcodeOk (bits (cdpPayload w.toNat) 7 0) = false ∧ code = 0x03 ∨
          cdpOpcodeOk (bits (cdpPayload w.toNat) 7 0) = true ∧ headerReserved (bits (cdpPayload w.toNat) 127 0) = false ∧
            (s.link n).rxFree.getD (bits (cdpPayload w.toNat) 12 11) 0 < 1 + s.tailIn n (bits (cdpPayload w.toNat) 127 0) ∧
            code = 0x02)) →
    ∀ i ∈ [Instr.cdpMsgFlit n w, .cdpIdleFlit n w, .cdpLnak n w, .cdpResume n w], Completes i s (fun t =>
      t.get (L.DL_STATUS.LNAK_LAST n) = code ∧ t.get (L.DL_EVT.PEER_VIOL n) = 1 ∧
      t.get (L.DL_CNT.LNAK n) = min (s.get (L.DL_CNT.LNAK n) + 1) (2 ^ 16 - 1) ∧
      SameRegsButRecords [R.DL_CNT n, R.DL_STATUS n, R.DL_EVT n] s t)) ∧
  (∀ (die : Fin 12) (c : Issuer) (a : PAddr) (d n : Nat) (v : Word) (s : State), s.dieLinked die = true →
    Sends s c → c.agent ≠ .newt → 0 < n → n ≤ 8 →
    (PitonServes s c a (.load n) d → Completes (.ioRd die c a n) s (fun t =>
      t.resp = .data (BitVec.ofNat 64 (s.readLE a.toNat n)) ∧ t.mem = s.mem ∧ SameRegsBut [] s t)) ∧
    (PitonServes s c a (.store (bytesLE n v.toNat)) d → s.devAsked = none → Completes (.ioWr die c a n v) s (fun t =>
      t.resp = .ok ∧ t.readLE a.toNat n = v.toNat % 2 ^ (8 * n) ∧
      (∀ x, (x < a.toNat ∨ a.toNat + n ≤ x) → t.readByte x = s.readByte x) ∧ SameRegsBut [] s t))) ∧
  (∀ (die : Fin 12) (c : Issuer) (a : PAddr) (n : Nat) (v : Word) (t s : State), s.dieLinked die = true → s.devAsked = none →
    s.agentIn c = true → c.agent ≠ .newt → 0xF00000000000 ≤ a.toNat → a.toNat < 0xF00100000000 →
    exec (.registerWrite c (.addr a n) v) s = .next t → Completes (.ioWr die c a n v) s (fun u => u = t)) ∧
  (∀ (die : Fin 12) (c : Issuer) (a : PAddr) (n : Nat) (v : Word) (s : State), s.dieLinked die = true → s.agentIn c = true →
    c.agent ≠ .newt → 0x8000000000 ≤ a.toNat → a.toNat < 0x10000000000 →
    (s.pmpStops c a.toNat n pmpR = false → Completes (.ioRd die c a n) s (fun t => Refused s t)) ∧
    (s.pmpStops c a.toNat n pmpW = false → s.devAsked = none → Completes (.ioWr die c a n v) s (fun t => Refused s t)) ∧
    (s.pmpStops c a.toNat n pmpW = true → s.devAsked = none → Completes (.ioWr die c a n v) s (fun t =>
      t.resp = .accessFault ∧ t.mem = s.mem ∧ SameRegsBut [] s t))) ∧
  (∀ (die : Fin 12) (err : Bool) (v : Word) (s : State), s.dieLinked die = true → Completes (.ioCmp die err v) s (fun t =>
    t = { s with resp := if err then .error else .data v }))

/-! ### The mesh (09) -/

/-- Packets in the mesh (R207 to R212, R214, R216, R217, R219, R224, R274): an NI injects a packet as its flits with its route,
on VC0 if a grant covers it or it answers a packet of VC0, as a copy for each die of a snoop; it holds a packet behind older
ones after a switch, or refuses one without a route; a hop takes the route by one, past the buffers of a router in MODE 1; a
flit with a bad code is repeated before any other; a packet whose last flit leaves at its node is passed to its port, unless it
answers an instance of an old generation.
Where a point is open it states the model's choice (log entries 69, 187 to 189). -/
def Obligations.PacketsCrossTheMesh : Prop :=
  (∀ (p : MeshPkt) (r : Nat × Nat) (s : State), endpointAt p.src p.sport ≠ none →
    s.endGrants.routeOf p.src (meshChannel p.op p.bulk).1 p.dst = some r → p.msg.cls.val ≠ 0 → meshSnoop p.op = false →
    (meshAnswer p.op = true → s.endGrants.mesh.vc0Due.contains (answerKey p) = false) → s.endGrants.heldBefore p = false →
    s.endGrants.mustHold p = false → Completes (.niInject p) s (fun t => t.mesh.next = s.endGrants.mesh.next + 1 ∧
      SMap.get t.mesh.flights s.endGrants.mesh.next = some ⟨p, (meshChannel p.op p.bulk).2, s.endGrants.get L.NOC_EPOCH.EPOCH⟩ ∧
      t.bufQ (bufKey p.src (meshChannel p.op p.bulk).1 4 (meshChannel p.op p.bulk).2) ++
          t.niQ (niKey p.src (meshChannel p.op p.bulk).1 (meshChannel p.op p.bulk).2) =
        s.endGrants.bufQ (bufKey p.src (meshChannel p.op p.bulk).1 4 (meshChannel p.op p.bulk).2) ++
          s.endGrants.niQ (niKey p.src (meshChannel p.op p.bulk).1 (meshChannel p.op p.bulk).2) ++
          flitsOf s.endGrants.mesh.next p (meshChannel p.op p.bulk).2 (s.endGrants.get L.NOC_EPOCH.EPOCH) r.1 r.2 ∧
      t.mesh.held = s.endGrants.mesh.held ∧ t.resp = s.endGrants.resp ∧ SameRegsButRecords [] s.endGrants t)) ∧
  (∀ (p : MeshPkt) (r : Nat × Nat) (s : State), endpointAt p.src p.sport ≠ none →
    s.endGrants.routeOf p.src (meshChannel p.op p.bulk).1 p.dst = some r → meshAnswer p.op = true →
    s.endGrants.mesh.vc0Due.contains (answerKey p) = true → s.endGrants.heldBefore p = false → s.endGrants.mustHold p = false →
    Completes (.niInject p) s (fun t => SMap.get t.mesh.flights s.endGrants.mesh.next = some ⟨p, 0, s.endGrants.get L.NOC_EPOCH.EPOCH⟩ ∧
      t.get (L.NOC_NI_CNT.VC0 p.src) = min (s.endGrants.get (L.NOC_NI_CNT.VC0 p.src) + 1) (2 ^ 32 - 1) ∧
      SameRegsButRecords [R.NOC_NI_CNT p.src] s.endGrants t)) ∧
  (∀ (p : MeshPkt) (i k : Nat) (r : Nat × Nat) (s : State), endpointAt p.src p.sport ≠ none →
    s.endGrants.routeOf p.src (meshChannel p.op p.bulk).1 p.dst = some r → p.msg.cls.val = 0 → meshRequest p.op = true →
    s.endGrants.heldBefore p = false → s.endGrants.mustHold p = false → i < 256 →
    (∀ j, j < i → s.endGrants.coverPort p j = none) → s.endGrants.coverPort p i = some k →
    Completes (.niInject p) s (fun t => SMap.get t.mesh.flights s.endGrants.mesh.next = some ⟨p, 0, s.endGrants.get L.NOC_EPOCH.EPOCH⟩ ∧
      t.get (L.NOC_NI_CNT.VC0 p.src) = min (s.endGrants.get (L.NOC_NI_CNT.VC0 p.src) + 1) (2 ^ 32 - 1) ∧
      SameRegsButRecords [R.NOC_NI_CNT p.src] s.endGrants t)) ∧
  (∀ (p : MeshPkt) (r : Nat × Nat) (s : State), endpointAt p.src p.sport ≠ none →
    s.endGrants.routeOf p.src (meshChannel p.op p.bulk).1 p.dst = some r → p.msg.cls.val = 0 → meshSnoop p.op = false →
    s.endGrants.mesh.vc0Due.contains (answerKey p) = false → (meshAnswer p.op = true ∨ p.op = .coh .wb) →
    (∀ i, i < 256 → s.endGrants.coverPort p i = none) → s.endGrants.heldBefore p = false → s.endGrants.mustHold p = false →
    Completes (.niInject p) s (fun t => SMap.get t.mesh.flights s.endGrants.mesh.next =
        some ⟨p, (meshChannel p.op p.bulk).2, s.endGrants.get L.NOC_EPOCH.EPOCH⟩ ∧
      t.get (L.NOC_NI_CNT.DEMOTED p.src) = s.endGrants.get (L.NOC_NI_CNT.DEMOTED p.src) ∧
      SameRegsButRecords [] s.endGrants t)) ∧
  (∀ (p : MeshPkt) (r : Nat × Nat) (s : State), endpointAt p.src p.sport ≠ none →
    s.endGrants.routeOf p.src (meshChannel p.op p.bulk).1 p.dst = some r → p.msg.cls.val = 0 → meshRequest p.op = true →
    p.op ≠ .coh .wb → s.endGrants.heldBefore p = false → s.endGrants.mustHold p = false →
    (∀ i, i < 256 → s.endGrants.coverPort p i = none) →
      Completes (.niInject p) s (fun t => SMap.get t.mesh.flights s.endGrants.mesh.next = some ⟨p, 1, s.endGrants.get L.NOC_EPOCH.EPOCH⟩ ∧
        t.get (L.NOC_NI_CNT.DEMOTED p.src) = min (s.endGrants.get (L.NOC_NI_CNT.DEMOTED p.src) + 1) (2 ^ 32 - 1) ∧
        t.get L.NOC_EVT.DEMOTED = 1 ∧ SameRegsButRecords [R.NOC_NI_CNT p.src, R.NOC_EVT] s.endGrants t)) ∧
  (∀ (p : MeshPkt) (d : Nat) (r : Nat × Nat) (s : State), endpointAt p.src p.sport ≠ none →
    meshSnoop p.op = true → onesBelow 12 p.dies = [d] → p.promoted = false → p.msg.cls.val ≠ 0 →
    s.endGrants.routeOf p.src 0 (s.endGrants.snoopCopy p d).dst = some r → s.endGrants.heldBefore (s.endGrants.snoopCopy p d) = false →
    s.endGrants.mustHold (s.endGrants.snoopCopy p d) = false → Completes (.niInject p) s (fun t =>
      SMap.get t.mesh.flights s.endGrants.mesh.next = some ⟨s.endGrants.snoopCopy p d, 1, s.endGrants.get L.NOC_EPOCH.EPOCH⟩ ∧
      t.mesh.next = s.endGrants.mesh.next + 1 ∧ SameRegsButRecords [] s.endGrants t)) ∧
  (∀ (p : MeshPkt) (r : Nat × Nat) (s : State), endpointAt p.src p.sport ≠ none →
    s.endGrants.routeOf p.src (meshChannel p.op p.bulk).1 p.dst = some r → meshSnoop p.op = false →
    (s.endGrants.heldBefore p = true ∨ s.endGrants.mustHold p = true) →
    Completes (.niInject p) s (fun t => t.mesh = { s.endGrants.mesh with held := s.endGrants.mesh.held ++ [p] } ∧
      SameRegsButRecords [] s.endGrants t)) ∧
  (∀ (p : MeshPkt) (s : State), endpointAt p.src p.sport ≠ none → meshSnoop p.op = false →
    s.endGrants.routeOf p.src (meshChannel p.op p.bulk).1 p.dst = none →
    Completes (.niInject p) s (fun t => t.mesh = s.endGrants.mesh ∧ t.get L.NOC_EVT.NO_ROUTE = 1 ∧
      (meshRequest p.op = true → t.resp = .error) ∧ SameRegsButRecords [R.NOC_EVT] s.endGrants t)) ∧
  (∀ (plane : Fin 2) (node : Fin 100) (output : Fin 5) (err : LinkError) (vc port m : Nat) (f : MeshFlit)
      (rest : List MeshFlit) (s u : State), u = s.endGrants →
    u.outFirst node plane output = [] → u.nextFlit plane node output = some (vc, port) →
    u.bufQ (bufKey node plane port vc) = f :: rest → output.val ≠ 4 → stepNode node output = some m →
    (err ≠ .uncorrectable → u.get (L.NOC_RTR_STAT.MODE m) = 0 → Completes (.meshFlitHop plane node output err) s (fun t =>
      (port ≠ 4 → t.bufQ (bufKey node plane port vc) = rest) ∧
      (port = 4 → t.bufQ (bufKey node plane port vc) ++ t.niQ (niKey node plane vc) = rest ++ u.niQ (niKey node plane vc)) ∧
      t.bufQ (bufKey m plane (output.val ^^^ 2) vc) = u.bufQ (bufKey m plane (output.val ^^^ 2) vc) ++ [f.hop] ∧
      f.hop.route = f.route / 4 ∧ f.hop.len = (f.len - 1) % 32 ∧ f.hop.bits % 2 ^ 512 = f.bits % 2 ^ 512 ∧
      t.get (L.NOC_RTR_CNT.CORR m) = (if err = .single then min (u.get (L.NOC_RTR_CNT.CORR m) + 1) (2 ^ 32 - 1)
        else u.get (L.NOC_RTR_CNT.CORR m)) ∧
      t.mesh.flights = u.mesh.flights ∧ SameRegsButRecords [R.NOC_RTR_CNT m] u t)) ∧
    (err = .uncorrectable → Completes (.meshFlitHop plane node output err) s (fun t =>
      t.outFirst node plane output = [(vc, port, f)] ∧
      t.bufQ (bufKey m plane (output.val ^^^ 2) vc) = u.bufQ (bufKey m plane (output.val ^^^ 2) vc) ∧
      t.get L.NOC_EVT.RETRY = 1 ∧ t.get L.NOC_EVT.NODE = m ∧
      t.get (L.NOC_RTR_CNT.RETRY m) = min (u.get (L.NOC_RTR_CNT.RETRY m) + 1) (2 ^ 32 - 1) ∧
      SameRegsButRecords [R.NOC_EVT, R.NOC_RTR_CNT m] u t))) ∧
  (∀ (plane : Fin 2) (node : Fin 100) (output : Fin 5) (vc port m : Nat) (f : MeshFlit) (rest : List (Nat × Nat × MeshFlit))
      (s u : State), u = s.endGrants →
    u.outFirst node plane output = (vc, port, f) :: rest → output.val ≠ 4 → stepNode node output = some m →
    u.get (L.NOC_RTR_STAT.MODE m) = 0 → Completes (.meshFlitHop plane node output .none) s (fun t =>
      t.outFirst node plane output = rest ∧
      t.bufQ (bufKey m plane (output.val ^^^ 2) vc) = u.bufQ (bufKey m plane (output.val ^^^ 2) vc) ++ [f.hop])) ∧
  (∀ (plane : Fin 2) (node : Fin 100) (output : Fin 5) (vc port m : Nat) (f : MeshFlit) (rest : List MeshFlit) (s u : State), u = s.endGrants →
    u.outFirst node plane output = [] → u.nextFlit plane node output = some (vc, port) →
    u.bufQ (bufKey node plane port vc) = f :: rest → output.val ≠ 4 → stepNode node output = some m →
    u.get (L.NOC_RTR_STAT.MODE m) = 1 → u.outFirst m plane (flitOutput f.hop) = [] →
    SMap.get u.mesh.lock (bufKey m plane (flitOutput f.hop) vc) = 0 →
    (∀ q, q < 5 → ∀ v, v < 4 → u.bufQ (bufKey m plane q v) = []) →
    (flitOutput f.hop = 4 ∨ (stepNode m (flitOutput f.hop)).any (fun k =>
      k != node.val && u.hasCredit k plane (flitOutput f.hop ^^^ 2) vc f.hop) = true) →
    Completes (.meshFlitHop plane node output .none) s (fun t =>
      t.outFirst m plane (flitOutput f.hop) = [(vc, output.val ^^^ 2, f.hop)] ∧
      t.bufQ (bufKey m plane (output.val ^^^ 2) vc) = [] ∧ SameRegsButRecords [] u t)) ∧
  (∀ (plane : Fin 2) (node : Fin 100) (err : LinkError) (vc port : Nat) (f : MeshFlit) (rest : List MeshFlit) (x : MeshFlight)
      (e : Endpoint) (s u : State), u = s.endGrants →
    u.outFirst node plane 4 = [] → u.nextFlit plane node 4 = some (vc, port) → u.bufQ (bufKey node plane port vc) = f :: rest →
    f.last = true → SMap.get u.mesh.flights f.pkt = some x → endpointAt x.pkt.dst x.pkt.dport = some e → u.mesh.held = [] →
    (u.openReq x.pkt).all (fun o => o.vi.all (fun v => u.get (L.VI_STATE.GEN (v / 32) (v % 32)) == o.gen)) = true →
    Completes (.meshFlitHop plane node 4 err) s (fun t =>
      (u.out ++ [.mesh { x.pkt with msg := u.arrivedMsg x.pkt } x.vc]) <+: t.out ∧
      SMap.get t.mesh.flights f.pkt = none)) ∧
  (∀ (plane : Fin 2) (node : Fin 100) (err : LinkError) (vc port v : Nat) (f : MeshFlit) (rest : List MeshFlit) (x : MeshFlight)
      (o : MeshOpen) (s u : State), u = s.endGrants →
    u.outFirst node plane 4 = [] → u.nextFlit plane node 4 = some (vc, port) → u.bufQ (bufKey node plane port vc) = f :: rest →
    f.last = true → SMap.get u.mesh.flights f.pkt = some x → meshReply x.pkt.op = true → u.openReq x.pkt = some o →
    o.vi = some v → v < 256 → u.get (L.VI_STATE.GEN (v / 32) (v % 32)) ≠ o.gen → u.mesh.held = [] →
    Completes (.meshFlitHop plane node 4 err) s (fun t => t.out = u.out ∧ SMap.get t.mesh.flights f.pkt = none ∧
      t.get (L.VI_STATE.LATE (v / 32) (v % 32)) = min (u.get (L.VI_STATE.LATE (v / 32) (v % 32)) + 1) (2 ^ 32 - 1) ∧
      SameRegsButRecords [R.VI_STATE (v / 32) (v % 32)] u t))

/-- Route tables, epochs and drain (R213, R218 to R220, R226): Sealed writes set inactive entries of legal routes, request a
switch or a drain; a switch takes the other bank and counts, the activations before its instant judged and the grants that ended
by then ended; a hold and a drain end with their events. An illegal or an Open
write is answered with an error and changes nothing.
Where a point is open it states the model's choice (log entries 72, 190). -/
def Obligations.MeshControl : Prop :=
  (∀ (c : Issuer) (n : Fin 100) (p b : Fin 2) (d : Fin 100) (v : Word) (s : State), Sends s c → c.sealed = true →
    b.val ≠ s.get L.NOC_EPOCH.ACTIVE →
    (v.getLsbD 63 = true → routeLegal n d (fieldOf v 0 36) (fieldOf v 40 5) = true) →
    Completes (.routeTableWrite c n p b d v) s (fun t => t.resp = .ok ∧
      t.get (L.NOC_NI_RT.VALID n (2 * p.val + b.val) d) = fieldOf v 63 1 ∧
      t.get (L.NOC_NI_RT.LEN n (2 * p.val + b.val) d) = fieldOf v 40 5 ∧
      t.get (L.NOC_NI_RT.ROUTE n (2 * p.val + b.val) d) = fieldOf v 0 36 ∧
      SameRegsBut [R.NOC_NI_RT n (2 * p.val + b.val) d] s t)) ∧
  (∀ (c : Issuer) (n : Fin 100) (p b : Fin 2) (d : Fin 100) (v : Word) (s : State), Sends s c → c.sealed = true →
    (b.val = s.get L.NOC_EPOCH.ACTIVE ∨ (v.getLsbD 63 = true ∧ routeLegal n d (fieldOf v 0 36) (fieldOf v 40 5) = false)) →
    Completes (.routeTableWrite c n p b d v) s (fun t => Refused s t)) ∧
  (∀ (c : Issuer) (v : Word) (s : State), Sends s c → c.sealed = true → v.getLsbD 2 = true → s.get L.NOC_EPOCH.PENDING = 0 →
    Completes (.epochSwitchRequest c v) s (fun t => t.resp = .ok ∧ t.get L.NOC_EPOCH.PENDING = 1 ∧
      t.mesh.await = some (if s.ticking then some s.nextTick else none) ∧ SameRegsBut [R.NOC_EPOCH] s t)) ∧
  (∀ (x : Option Nat) (s u w : State), s.mesh.await = some x →
    u = (match x with | some n => if s.ticking then s.elapseToNs n else s | none => s) →
    w = (u.judgeAsks (u.up - 1) u.mesh.asks.length).endGrantsAt u.tb.ns → Completes .nocEpochSwitch s (fun t =>
      t.mesh = { w.mesh with await := none } ∧ t.get L.NOC_EPOCH.ACTIVE = 1 - s.get L.NOC_EPOCH.ACTIVE ∧
      t.get L.NOC_EPOCH.EPOCH = (s.get L.NOC_EPOCH.EPOCH + 1) % 2 ^ 32 ∧ SameRegsBut [R.NOC_EPOCH] w t)) ∧
  (∀ (s : State), s.get L.NOC_EPOCH.PENDING = 1 → s.mesh.await = none → s.mesh.held = [] → Completes .epochHoldClear s (fun t =>
    t.get L.NOC_EPOCH.PENDING = 0 ∧ t.get L.NOC_EVT.EPOCH = 1 ∧ SameRegsButRecords [R.NOC_EPOCH, R.NOC_EVT] s t)) ∧
  (∀ (c : Issuer) (n : Fin 100) (v : Word) (s : State), Sends s c → c.sealed = true → v.getLsbD 0 = true →
    s.get (L.NOC_RTR_CTRL.DRAIN n) = 0 → fieldOf v 1 1 = s.get (L.NOC_RTR_CTRL.MODE n) →
    Completes (.drainRequest c n v) s (fun t => t.resp = .ok ∧ t.get (L.NOC_RTR_CTRL.DRAIN n) = 1 ∧
      t.get (L.NOC_RTR_STAT.DRAIN_WAIT n) = (if t.grantsUse n then 1 else 0) ∧
      SameRegsBut [R.NOC_RTR_CTRL n, R.NOC_RTR_STAT n] s.endGrants t)) ∧
  (∀ (n : Fin 100) (s : State), s.get (L.NOC_RTR_STAT.DRAIN_WAIT n) = 1 → s.endGrants.grantsUse n = false →
    Completes (.drainBegin n) s (fun t => t.get (L.NOC_RTR_STAT.DRAIN_WAIT n) = 0 ∧
      SameRegsBut [R.NOC_RTR_STAT n] s.endGrants t)) ∧
  (∀ (n : Fin 100) (s : State), s.get (L.NOC_RTR_CTRL.DRAIN n) = 1 → s.get (L.NOC_RTR_STAT.DRAIN_WAIT n) = 0 →
    s.buffersEmpty n = true → s.get (L.NOC_RTR_STAT.DRAINED n) = 0 → Completes (.drainComplete n) s (fun t =>
      t.get (L.NOC_RTR_STAT.DRAINED n) = 1 ∧ t.get L.NOC_EVT.DRAINED = 1 ∧ t.get L.NOC_EVT.NODE = n.val ∧
      SameRegsButRecords [R.NOC_RTR_STAT n, R.NOC_EVT] s t)) ∧
  (∀ (c : Issuer) (n : Fin 100) (v : Word) (s : State), Sends s c → c.sealed = true → v.getLsbD 0 = false →
    (fieldOf v 1 1 = s.get (L.NOC_RTR_CTRL.MODE n) ∨ s.get (L.NOC_RTR_STAT.DRAINED n) = 1) →
    Completes (.drainRelease c n v) s (fun t => t.resp = .ok ∧ t.get (L.NOC_RTR_CTRL.DRAIN n) = 0 ∧
      t.get (L.NOC_RTR_CTRL.MODE n) = fieldOf v 1 1 ∧ t.get (L.NOC_RTR_STAT.MODE n) = fieldOf v 1 1 ∧
      t.get (L.NOC_RTR_STAT.DRAIN_WAIT n) = 0 ∧ t.get (L.NOC_RTR_STAT.DRAINED n) = 0 ∧
      SameRegsBut [R.NOC_RTR_CTRL n, R.NOC_RTR_STAT n] s.endGrants t)) ∧
  (∀ (c : Issuer) (n : Fin 100) (p b : Fin 2) (d : Fin 100) (v : Word) (s : State), Sends s c → c.sealed = false →
    Completes (.routeTableWrite c n p b d v) s (fun t => Refused s t) ∧ Completes (.epochSwitchRequest c v) s (fun t => Refused s t) ∧
    Completes (.drainRequest c n v) s (fun t => Refused s t) ∧ Completes (.drainRelease c n v) s (fun t => Refused s t)) ∧
  (∀ (e : Fin 256) (g : VcGrant) (s : State), s.judgeDue.grantOf e = some g →
    Completes (.grantEnd e) s (fun t => t.grantOf e = none ∧
      t.get (L.NOC_RSV_OWN.ACTIVE e) = 0 ∧ t.get (L.NOC_RSV_OWN.END e) = 0 ∧
      t.get (L.NOC_RSV_PATH.EN e) = (if g.offEn then 0 else s.judgeDue.get (L.NOC_RSV_PATH.EN e)) ∧
      SameRegsButRecords [R.NOC_RSV_OWN e, R.NOC_RSV_PATH e] s.judgeDue t))


/-! ### Memory (10) -/

/-- Requests, commands and data of a controller (R229 to R231, R233, R235, R237, R240): a read enters its queue with what memory
holds, or is served from WQ; a write is stored when WQ takes it, and waits in RECOVERY; a controller out of service answers with
an error; a command takes the entry that the rules choose; read data goes to the home, poisoned if it is uncorrectable;
refresh boundaries add to OWED, windows pay it and a forced refresh answers OWED 8; stack temperatures set the rate.
Where a point is open it states the model's choice (log entries 56 to 61, 191, 193, 194). -/
def Obligations.ControllersServe : Prop :=
  (∀ (m : Fin 64) (r : McReq) (s : State), ¬ s.stopped → lineInHbm r.line = true → s.mcOf r.line = m.val → s.mcFull m r = false →
    s.mcMode m = mcNormal → r.write = false → s.inWq r.line = false → Completes (.mcRequest m r) s (fun t =>
      (t.mcSt m).rt = (s.mcSt m).rt ++
        (if r.cls = 0 then [⟨r.line, s.up, r.sealed, r.vi, s.lineAnswer r.line, s.lineEcc r.line, r.id⟩] else []) ∧
      (t.mcSt m).cr = (s.mcSt m).cr ++
        (if r.cls = 1 then [⟨r.line, s.up, r.sealed, r.vi, s.lineAnswer r.line, s.lineEcc r.line, r.id⟩] else []) ∧
      (t.mcSt m).bk = (s.mcSt m).bk ++
        (if r.cls = 2 then [⟨r.line, s.up, r.sealed, r.vi, s.lineAnswer r.line, s.lineEcc r.line, r.id⟩] else []) ∧
      (t.mcSt m).wq = (s.mcSt m).wq ∧ t.mem = s.mem ∧
      SameRegsButRecords [R.MC_STATUS m, R.MC_QOS_CNT m, R.MC_EVT m, R.XE_CNT m] s t)) ∧
  (∀ (m : Fin 64) (r : McReq) (x : HomeTxn) (s : State), lineInHbm r.line = true → s.mcOf r.line = m.val →
    s.mcFull m r = false → r.write = false → ¬ s.stopped → s.txnOn (s.homeOf r.line) r.line = some x → x.needMem = true →
    x.mem = none → x.readId = r.id → x.snoops ≠ 0 → s.homeEcc (s.homeOf r.line) r.line = false →
    (s.mcMode m = mcNormal → s.inWq r.line = true → Completes (.mcRequest m r) s (fun t =>
      t.txnOn (s.homeOf r.line) r.line = some { x with
        mem := some ((s.lineAnswer r.line).data, (s.lineAnswer r.line).poison, (s.lineAnswer r.line).err) } ∧
      t.mc = s.mc ∧ t.mem = s.mem)) ∧
    (s.mcServes r.line = false → Completes (.mcRequest m r) s (fun t =>
      t.txnOn (s.homeOf r.line) r.line = some { x with mem := some (zeros 64, false, true) } ∧
      t.get (L.MC_EVT.NOT_READY m) = 1 ∧ t.mc = s.mc ∧ t.mem = s.mem))) ∧
  (∀ (m : Fin 64) (r : McReq) (s : State), ¬ s.stopped → lineInHbm r.line = true → s.mcOf r.line = m.val → s.mcFull m r = false →
    s.mcMode m = mcRecovery →
      Completes (.mcRequest m r) s (fun t => t = s.setMc m { s.mcSt m with held := (s.mcSt m).held ++ [r] })) ∧
  (∀ (m : Fin 64) (r : McReq) (s : State), ¬ s.stopped → lineInHbm r.line = true → s.mcOf r.line = m.val → s.mcFull m r = false →
    r.write = true →
    (s.mcMode m = mcNormal → s.xeUse r.line = .clear → Completes (.mcRequest m r) s (fun t =>
      (t.mcSt m).wq = (s.mcSt m).wq ++ [⟨r.line, s.up, r.sealed, r.vi, default, 0, 0⟩] ∧
      t.resp = .ok ∧ t.readLE (64 * r.line) 64 = r.data % 2 ^ 512 ∧ SMap.get t.poison r.line = r.poison ∧
      (∀ x, (x < 64 * r.line ∨ 64 * r.line + 64 ≤ x) → t.readByte x = s.readByte x) ∧
      t.get (L.XE_CNT.BYPASS m) = min (s.get (L.XE_CNT.BYPASS m) + 1) (2 ^ 32 - 1) ∧
      SameRegsButRecords [R.MC_STATUS m, R.MC_QOS_CNT m, R.MC_EVT m, R.XE_CNT m] s t)) ∧
    (s.mcServes r.line = false → Completes (.mcRequest m r) s (fun t => t.resp = .error ∧
      t.get (L.MC_EVT.NOT_READY m) = 1 ∧ t.mem = s.mem ∧ t.mc = s.mc ∧ SameRegsButRecords [R.MC_EVT m] s t))) ∧
  (∀ (m : Fin 64) (p : Fin 2) (e : McEnt) (s : State), McReady s m p →
    (SMap.get (s.mcSt m).batch p = 0 ∨ (s.mcSt m).wq = []) → (s.mcTurn m p).pickEnt m p false (s.mcSt m).rt = some e →
    Completes (.mcCommandIssue m p) s (fun t => (t.mcSt m).rt = (s.mcSt m).rt.erase e ∧
      (t.mcSt m).issued = (s.mcSt m).issued ++ [e] ∧ (t.mcSt m).cr = (s.mcSt m).cr ∧ (t.mcSt m).bk = (s.mcSt m).bk ∧
      (t.mcSt m).wq = (s.mcSt m).wq ∧ t.mem = s.mem ∧
      SameRegsButRecords [R.MC_STATUS m, R.MC_QOS_CNT m, R.MC_EVT m] s t)) ∧
  (∀ (m : Fin 64) (p : Fin 2) (e : McEnt) (s : State), McReady s m p → (s.mcSt m).wq = [] → (s.mcSt m).rt = [] →
    s.get (L.MC_STATUS.PANIC m) = 0 → (s.mcSt m).draining = false → 0 < s.get (L.MC_QOS.WR_HI m) →
    ((s.mcTurn m p).pickEnt m p true (s.mcSt m).cr = some e → Completes (.mcCommandIssue m p) s (fun t =>
      (t.mcSt m).cr = (s.mcSt m).cr.erase e ∧ (t.mcSt m).bk = (s.mcSt m).bk ∧ (t.mcSt m).issued = (s.mcSt m).issued ++ [e] ∧
      t.mem = s.mem ∧ SameRegsButRecords [R.MC_STATUS m, R.MC_QOS_CNT m, R.MC_EVT m] s t)) ∧
    ((s.mcSt m).cr = [] → (s.mcTurn m p).pickEnt m p true (s.mcSt m).bk = some e → Completes (.mcCommandIssue m p) s (fun t =>
      (t.mcSt m).bk = (s.mcSt m).bk.erase e ∧ (t.mcSt m).issued = (s.mcSt m).issued ++ [e] ∧
      t.mem = s.mem ∧ SameRegsButRecords [R.MC_STATUS m, R.MC_QOS_CNT m, R.MC_EVT m] s t))) ∧
  (∀ (m : Fin 64) (p : Fin 2) (e : McEnt) (s : State), McReady s m p → (s.mcSt m).fixes = [] →
    (s.mcSt m).wq.find? (fun e => (s.placeOf e.line).pc == p.val && (s.mcTurn m p).bankFree m e (s.mcTurn m p).up) = some e →
    (0 < SMap.get (s.mcSt m).batch p ∨
      (s.mcSt m).rt = [] ∧ s.get (L.MC_STATUS.PANIC m) = 0 ∧ s.get (L.MC_QOS.WR_HI m) ≤ (s.mcSt m).wq.length) →
    Completes (.mcCommandIssue m p) s (fun t =>
      (t.mcSt m).wq = (s.mcSt m).wq.erase e ∧ (t.mcSt m).rt = (s.mcSt m).rt ∧ (t.mcSt m).issued = (s.mcSt m).issued ∧
      t.mem = s.mem ∧ SameRegsButRecords [R.MC_STATUS m, R.MC_QOS_CNT m, R.MC_EVT m] s t)) ∧
  (∀ (m : Fin 64) (p : Fin 2) (s : State), ¬ s.stopped → s.mcMode m = mcNormal → s.get (L.MC_STATUS.REPLAY m) = 0 →
    (s.elapseUntil (SMap.get (s.mcSt m).busy p)).windowRefreshDue m = true → Completes (.mcCommandIssue m p) s (fun t =>
      t.get (L.MC_STATUS.OWED m) = s.get (L.MC_STATUS.OWED m) - 1 ∧
      t.get (L.MC_REF_CNT.WINDOW m) = min (s.get (L.MC_REF_CNT.WINDOW m) + 1) (2 ^ 32 - 1) ∧ (t.mcSt m).rt = (s.mcSt m).rt ∧
      t.up + s.get (L.MC_REF_CFG.TRFC_AB m) ≤ SMap.get (t.mcSt m).busy 0 ∧
      t.up + s.get (L.MC_REF_CFG.TRFC_AB m) ≤ SMap.get (t.mcSt m).busy 1 ∧
      SameRegsButRecords [R.MC_STATUS m, R.MC_REF_CNT m] s t)) ∧
  (∀ (m : Fin 64) (l : Nat) (ecc : EccResult) (e : McEnt) (x : HomeTxn) (s : State),
    (s.mcSt m).issued.find? (fun e => e.line == l) = some e →
    ¬ s.stopped → s.txnOn (s.homeOf l) l = some x → x.needMem = true → x.mem = none → x.readId = e.id → x.snoops ≠ 0 →
    s.homeEcc (s.homeOf l) l = false →
    (e.ans.err = true → Completes (.mcReadReturn m l ecc) s (fun t => (t.mcSt m).issued = (s.mcSt m).issued.erase e ∧
      t.txnOn (s.homeOf l) l = some { x with mem := some (e.ans.data, e.ans.poison, true) })) ∧
    (e.ans.err = false → e.ecc = 0 → Completes (.mcReadReturn m l .clean) s (fun t =>
      (t.mcSt m).issued = (s.mcSt m).issued.erase e ∧
      t.txnOn (s.homeOf l) l = some { x with mem := some (e.ans.data, e.ans.poison, false) } ∧ t.out = s.out)) ∧
    (e.ans.err = false → Completes (.mcReadReturn m l .uncorrectable) s (fun t =>
      (t.mcSt m).issued = (s.mcSt m).issued.erase e ∧
      t.txnOn (s.homeOf l) l = some { x with mem := some (e.ans.data, true, false) } ∧
      t.get (L.MC_ECC_CNT.UE m) = min (s.get (L.MC_ECC_CNT.UE m) + 1) (2 ^ 32 - 1) ∧ t.get (L.MC_EVT.ECC_UE m) = 1 ∧
      t.get (L.MC_ECC_LAST.KIND m) = 2 ∧ t.get (L.MC_ECC_LAST.LINE m) = l % 2 ^ 31)) ∧
    (e.ans.err = false → Completes (.mcReadReturn m l .corrected) s (fun t =>
      t.txnOn (s.homeOf l) l = some { x with mem := some (e.ans.data, e.ans.poison, false) } ∧
      ((s.mcSt m).wq.length < 64 → (t.mcSt m).wq = (s.mcSt m).wq ++ [⟨l, s.up, true, none, default, 0, 0⟩]) ∧
      (64 ≤ (s.mcSt m).wq.length → (t.mcSt m).fixes = (s.mcSt m).fixes ++ [l]) ∧
      t.get (L.MC_ECC_CNT.CE m) = min (s.get (L.MC_ECC_CNT.CE m) + 1) (2 ^ 32 - 1) ∧ t.get (L.MC_EVT.ECC_CE m) = 1 ∧
      t.get (L.MC_ECC_LAST.KIND m) = 1 ∧ t.get (L.MC_ECC_LAST.LINE m) = l % 2 ^ 31))) ∧
  (∀ (m : Fin 64) (s : State), s.mcMode m = mcNormal → s.get (L.MC_STATUS.OWED m) < 7 →
    s.get (L.MC_STATUS.RATE m) = (s.mcSt m).rateWant → Completes (.refreshInterval m) s (fun t =>
      t.get (L.MC_STATUS.OWED m) = s.get (L.MC_STATUS.OWED m) + 1 ∧ (t.mcSt m).refAt = t.up ∧
      (s.mcSt m).refAt + s.refInterval m ≤ t.up ∧ SameRegsButRecords [R.MC_STATUS m] s t)) ∧
  (∀ (m : Fin 64) (s : State), s.mcMode m = mcNormal → s.get (L.MC_STATUS.OWED m) = 7 → s.get (L.MC_STATUS.WIN_OPEN m) = 0 →
    s.get (L.MC_STATUS.RATE m) = (s.mcSt m).rateWant → Completes (.refreshInterval m) s (fun t =>
      t.get (L.MC_STATUS.OWED m) = 7 ∧ t.get (L.MC_EVT.FORCED m) = 1 ∧
      t.get (L.MC_REF_CNT.FORCED m) = min (s.get (L.MC_REF_CNT.FORCED m) + 1) (2 ^ 24 - 1) ∧
      (s.ticking → s.get (L.MC_REF_CNT.FORCED_CUR m) = 0 → t.up < (t.mcSt m).pbAt ∧ (t.mcSt m).busy = (s.mcSt m).busy) ∧
      (¬ (s.ticking ∧ s.get (L.MC_REF_CNT.FORCED_CUR m) = 0) →
        t.up + s.get (L.MC_REF_CFG.TRFC_AB m) ≤ SMap.get (t.mcSt m).busy 0 ∧
        t.up + s.get (L.MC_REF_CFG.TRFC_AB m) ≤ SMap.get (t.mcSt m).busy 1) ∧
      (s.ticking → s.get (L.MC_REF_CNT.FORCED_CUR m) ≠ 0 → t.get (L.MC_EVT.FORCED2 m) = 1) ∧
      SameRegsButScheds [R.MC_STATUS m, R.MC_REF_CNT m, R.MC_EVT m] s t)) ∧
  (∀ (g : Fin 16) (s : State), s.groupOpen g = true →
    (∀ k, k < 4 → s.get (L.MC_STATUS.OWED (4 * g.val + k)) ≠ 8) → Completes (.refreshWindowEnd g) s (fun t =>
      (∀ k, k < 4 → t.get (L.MC_STATUS.WIN_OPEN (4 * g.val + k)) = 0 ∧ (s.mcSt (4 * g.val + k)).winEnd ≤ t.up) ∧
      t.mc = s.mc ∧ SameRegsButRecords ((List.range 4).map (fun k => R.MC_STATUS (4 * g.val + k))) s t)) ∧
  (∀ (st : Fin 4) (temp : Int) (k : Nat) (s : State), -128 ≤ temp → temp ≤ 127 → k < 16 → s.mcMode (16 * st.val + k) ≠ mcOff →
    Completes (.stackTempRead st temp) s (fun t => signedOf 8 (t.get (L.MC_STATUS.TEMP (16 * st.val + k))) = temp ∧
      (t.mcSt (16 * st.val + k)).rateWant = rateFor (s.mcSt (16 * st.val + k)).rateWant temp ∧
      (t.mcSt (16 * st.val + k)).tempAt = t.up + 1000000 ∧ (s.mcSt (16 * st.val + k)).tempAt ≤ t.up ∧
      SameRegsButRecords ((List.range 16).map (fun k => R.MC_STATUS (16 * st.val + k))) s t))

/-- Parity, training, modes and the keys of the encryption engines (R236, R238, R239, R242): alerts replay, a second ends in
RECOVERY or FAILED; training and recovery sweep the lanes and inject an alert, and training fills its channel with zero and
ends in NORMAL; requests are taken in the modes that allow
them and refused in others; a key load gives the slot's key to its index, and CLEAR takes it away.
Where a point is open it states the model's choice (log entries 62, 63). -/
def Obligations.ControllersTrainAndLoadKeys : Prop :=
  (∀ (m : Fin 64) (k : Nat) (s : State), ¬ s.stopped → s.mcMode m = mcNormal → s.get (L.MC_STATUS.REPLAY m) = 0 →
    Completes (.parityAlert m k) s (fun t => t.get (L.MC_STATUS.REPLAY m) = 1 ∧ t.get (L.MC_EVT.PAR_ALERT m) = 1 ∧
      t.get (L.MC_PAR_CNT.ALERT m) = min (s.get (L.MC_PAR_CNT.ALERT m) + 1) (2 ^ 32 - 1) ∧ t.mcMode m = mcNormal ∧
      (t.mcSt m).retry = (s.keptNow m).drop k ∧ (t.mcSt m).rows = [] ∧
      (t.mcSt m).alertAt = s.up ∧ SameRegsButScheds [R.MC_STATUS m, R.MC_PAR_CNT m, R.MC_EVT m] s t)) ∧
  (∀ (m : Fin 64) (k : Nat) (s : State), ¬ s.stopped → s.mcMode m = mcNormal → s.get (L.MC_STATUS.REPLAY m) = 1 →
    (s.mcSt m).held = [] → (s.home (m.val / 2)).txns = [] → Completes (.parityAlert m k) s (fun t =>
      t.get (L.MC_STATUS.REPLAY m) = 0 ∧ t.get (L.MC_EVT.REPLAY_FAIL m) = 1 ∧ t.get (L.MC_EVT.MODE_CHG m) = 1 ∧
      t.mcMode m = (if s.get (L.MC_CTRL.AUTO_RECOVER m) = 1 then mcRecovery else mcFailed) ∧
      SameRegsButScheds [R.MC_STATUS m, R.MC_PAR_CNT m, R.MC_EVT m, R.MC_QOS_CNT m] s t)) ∧
  (∀ (m : Fin 64) (s : State), s.get (L.MC_STATUS.REPLAY m) = 1 → Completes (.replayEnd m) s (fun t =>
    t.get (L.MC_STATUS.REPLAY m) = 0 ∧ (s.mcSt m).alertAt + 100 ≤ t.up ∧
    t.get (L.MC_PAR_CNT.REPLAY m) = min (s.get (L.MC_PAR_CNT.REPLAY m) + 1) (2 ^ 32 - 1) ∧
    SameRegsButScheds [R.MC_STATUS m, R.MC_PAR_CNT m] s t)) ∧
  (∀ (m : Fin 64) (s : State), s.mcMode m = mcOff → s.domPowered (25 + m.val / 16) = true → Completes (.mcTrain m) s (fun t =>
    t.mcMode m = mcStart ∧ (t.mcSt m).change = .train ∧ (t.mcSt m).changeAt = s.up ∧ (t.mcSt m).wq = [] ∧
    t.get (L.MC_EVT.MODE_CHG m) = 1)) ∧
  (∀ (m : Fin 64) (lanes : List LaneEye) (s : State), s.mcMode m = mcStart → (s.mcSt m).change = .train →
    s.get (L.MC_STATUS.REPLAY m) = 0 → EyesPass s m lanes →
    Completes (.mcTrainDone m true lanes) s (fun t => t.mcMode m = mcNormal ∧ AlertInjected s m t ∧ (t.mcSt m).change = .none ∧
      (∀ k, k < 8 → t.get (L.MC_TRAIN_LANE.PASS m k) = 1) ∧ (s.mcSt m).changeAt + 36700000 ≤ t.up ∧
      ∀ a, a < hbmEnd → s.mcOf (a / 64) = m.val → t.readByte a = 0)) ∧
  (∀ (m : Fin 64) (lanes : List LaneEye) (s : State), s.mcMode m = mcStart →
    ((s.mcSt m).change = .train ∨ (s.mcSt m).change = .leaveTest) → Completes (.mcTrainDone m false lanes) s (fun t =>
      t.mcMode m = mcFailed ∧ t.get (L.MC_EVT.TRAIN_FAIL m) = 1 ∧ t.mem = s.mem)) ∧
  (∀ (m : Fin 64) (lanes : List LaneEye) (s : State), s.mcMode m = mcRecovery → (s.home (m.val / 2)).txns = [] →
    (s.mcSt m).held = [] → s.get (L.MC_STATUS.REPLAY m) = 0 →
    (EyesPass s m lanes → Completes (.mcRecoveryDone m ⟨true, lanes⟩) s (fun t => t.mcMode m = mcNormal ∧ AlertInjected s m t ∧
      t.mem = s.mem ∧ t.get (L.MC_EVT.MODE_CHG m) = 1 ∧
      SameRegsButScheds (R.MC_PAR_CNT m :: R.MC_STATUS m :: R.MC_EVT m :: R.MC_QOS_CNT m :: (List.range 8).map (R.MC_TRAIN_LANE m)) s t)) ∧
    Completes (.mcRecoveryDone m ⟨false, lanes⟩) s (fun t => t.mcMode m = mcFailed ∧ t.get (L.MC_EVT.TRAIN_FAIL m) = 1 ∧
      t.mem = s.mem ∧ t.get (L.MC_EVT.MODE_CHG m) = 1 ∧
      SameRegsButScheds (R.MC_STATUS m :: R.MC_EVT m :: R.MC_QOS_CNT m :: (List.range 8).map (R.MC_TRAIN_LANE m)) s t)) ∧
  (∀ (c : Issuer) (m : Fin 64) (v : Word) (s : State), Sends s c → c.sealed = true →
    (fieldOf v 0 2 = 1 → s.mcMode m = mcNormal → Completes (.mcReqTest c m v) s (fun t => t.mcMode m = mcTest ∧ t.resp = .ok ∧
      (t.mcSt m).lost = some s.free ∧ (t.mcSt m).known = [] ∧
      t.get (L.MC_CTRL.AUTO_RECOVER m) = fieldOf v 8 1 ∧
        SameRegsButScheds [R.MC_CTRL m, R.MC_STATUS m, R.MC_EVT m, R.MC_QOS_CNT m] s t)) ∧
    (fieldOf v 0 2 = 2 → s.mcMode m = mcNormal → Completes (.mcReqRecovery c m v) s (fun t => t.mcMode m = mcRecovery ∧
      t.resp = .ok ∧ (t.mcSt m).change = .recovery ∧ SameRegsButScheds [R.MC_CTRL m, R.MC_STATUS m, R.MC_EVT m, R.MC_QOS_CNT m] s t)) ∧
    (fieldOf v 0 2 = 3 → s.mcMode m = mcTest → Completes (.mcReqLeaveTest c m v) s (fun t => t.mcMode m = mcStart ∧
      t.resp = .ok ∧ (t.mcSt m).change = .leaveTest ∧ SameRegsButScheds [R.MC_CTRL m, R.MC_STATUS m, R.MC_EVT m, R.MC_QOS_CNT m] s t))) ∧
  (∀ (c : Issuer) (m : Fin 64) (v : Word) (s : State),
    Sends s c → (c.sealed = false ∨ fieldOf v 0 2 = 1 ∧ s.mcMode m ≠ mcNormal ∨ fieldOf v 0 2 = 2 ∧ s.mcMode m ≠ mcNormal ∨
      fieldOf v 0 2 = 3 ∧ s.mcMode m ≠ mcTest) →
    Completes (.mcReqTest c m v) s (fun t => Refused s t) ∧ Completes (.mcReqRecovery c m v) s (fun t => Refused s t) ∧
    Completes (.mcReqLeaveTest c m v) s (fun t => Refused s t)) ∧
  (∀ (c : Issuer) (v : Word) (s : State), Sends s c → v.getLsbD 63 = true → v.getLsbD 20 = false → s.xeLoads = [] →
    Completes (.xeKeyload c v) s (fun t => t.resp = .ok ∧ t.get (L.XE_KEYRES.READY c.sealed 0) = 0 ∧
      t.xeLoads = [⟨c.sealed, fieldOf v 0 8, fieldOf v 16 4, false, s.up⟩] ∧ t.xeKeys = s.xeKeys ∧
      SameRegsBut [R.XE_KEYRES c.sealed 0] s t)) ∧
  (∀ (c : Issuer) (v : Word) (s : State), Sends s c → v.getLsbD 63 = true → v.getLsbD 20 = true → s.xeLoads = [] →
    (if c.sealed then fieldOf v 16 4 < 8 else 8 ≤ fieldOf v 16 4) → Completes (.xeKeyClear c v) s (fun t => t.resp = .ok ∧
      SMap.get t.xeKeys (fieldOf v 16 4) = [] ∧
      (∀ m, m < 64 → (t.get (L.XE_STATUS.KEY_VALID m)).testBit (fieldOf v 16 4) = false) ∧
      t.get (L.XE_KEYRES.READY c.sealed 0) = 0)) ∧
  (∀ (c : Issuer) (v : Word) (s : State), Sends s c → v.getLsbD 63 = true → s.xeLoads.any (fun l => l.sealed == c.sealed) = true →
    Completes (.xeKeyload c v) s (fun t => Refused s t) ∧ Completes (.xeKeyClear c v) s (fun t => Refused s t)) ∧
  (∀ (l : XeLoad) (ok : Bool) (s : State), s.xeLoads = [l] → l.clear = false → l.index < 16 →
    Completes (.xeKeyloadDone ok) s (fun t => t.xeLoads = [] ∧ t.get (L.XE_KEYRES.READY l.sealed 0) = 1 ∧
      t.get (L.XE_KEYRES.STATUS l.sealed 0) = s.xeLoadStatus l ok ∧
      (s.xeLoadStatus l ok = 0 → SMap.get t.xeKeys l.index = SMap.get s.slotKey l.slot ∧
        ∀ m, m < 64 → (t.get (L.XE_STATUS.KEY_VALID m)).testBit l.index = true) ∧
      (s.xeLoadStatus l ok ≠ 0 → t.xeKeys = s.xeKeys ∧ SameRegsBut [R.XE_KEYRES l.sealed 0] s t))) ∧
  (∀ (c : Issuer) (v : Word) (s : State), Sends s c → v.getLsbD 62 = true → s.get (L.XE_KEYRES.READY c.sealed 0) = 1 →
    Completes (.xeKeyresAck c v) s (fun t => t.resp = .ok ∧ t.get (L.XE_KEYRES.READY c.sealed 0) = 0 ∧
      t.get (L.XE_KEYRES.STATUS c.sealed 0) = 0xFF ∧ SameRegsBut [R.XE_KEYRES c.sealed 0] s t))


/-! ### Queue engines and virtual instances (11) -/

/-- Commands of the queue engines (R246 to R258): COPY moves its bytes, PUSH enters its packet, POP takes one and DROP discards
one; completion frees the place with a completion entry or a launch status; doorbells move the indices inside their rings
and SQ_FETCH takes the next command.
Where a point is open it states the model's choice (log entries 73, 80, 81, 90). -/
def Obligations.QueueEnginesRunCommands : Prop :=
  (∀ (e : Fin 8) (x : QCmd) (s : State), QeHolds s e 1 x → 0 < x.len → x.len ≤ 64 → overlap x.src x.len x.dst x.len = false →
    (s.qeBegun e x).windowAddr (rsvSrc (qeSrc e) x.rsv) x.issuer x.src false = none →
    (s.qeBegun e x).windowAddr (rsvSrc (qeSrc e) x.rsv) x.issuer x.dst true = none →
    (s.qeRead e x x.len).2.err = false → (s.qeRead e x x.len).2.data.length = x.len →
    (s.qeRead e x x.len).1.windowAddr (rsvSrc (qeSrc e) x.rsv) x.issuer x.dst true = none →
    NoWait s (s.qeMove e x).1 → Completes (.qeCopy e) s (fun t =>
      ∃ y, (t.qeOf e).cmds = [y] ∧ y.id = x.id ∧ y.started = true ∧ y.fin = true ∧
        ((s.qeMove e x).2 = true → y.bytes = x.len ∧ y.status = (if (s.qeRead e x x.len).2.poison then 4 else x.status)) ∧
        ((s.qeMove e x).2 = false → y.status = 4) ∧ t.mem = (s.qeMove e x).1.mem)) ∧
  (∀ (e : Fin 8) (x : QCmd) (s : State), QeHolds s e 2 x → x.len = 64 → QueueHolds s (512 * e.val + x.queue) [] →
    s.qAdmits (512 * e.val + x.queue) 1 = true → (s.qeRead e x 64).2.err = false → (s.qeRead e x 64).2.poison = false →
    (s.qeRead e x 64).2.data.length = 64 → NoWait s (s.qeRead e x 64).1 → Completes (.qePush e) s (fun t =>
      (t.spillQ (512 * e.val + x.queue)).head = [⟨(s.qeRead e x 64).2.data, 64, true, true⟩] ∧
      (t.qeOf e).cmds = [{ x with
        started := true, seq := (s.qeOf e).starts, pos := 64, bytes := 64, fin := true, empty := false }] ∧
      t.get (L.QE_Q_STAT.OCC e x.queue) = 1)) ∧
  (∀ (e : Fin 8) (x : QCmd) (s : State), QeHolds s e 2 x → s.qAdmits (512 * e.val + x.queue) (packetEntries x.len) = false →
    Completes (.qePush e) s (fun t => t.get (L.QE_Q_STAT.OVERRUN e x.queue) = 1 ∧ t.get (L.QE_EVT.OVERRUN e) = 1 ∧
      t.queues = s.queues ∧ ∃ y, (t.qeOf e).cmds = [y] ∧ y.fin = true ∧ y.dropped = true ∧ y.status = x.status)) ∧
  (∀ (e : Fin 8) (x : QCmd) (a : QEntry) (s : State), QeHolds s e 3 x → 128 ≤ x.len →
    QueueHolds s (512 * e.val + x.queue) [a] → a.eop = true → NoWait s (s.qePiece e x a).1 → Completes (.qePop e) s (fun t =>
      (t.spillQ (512 * e.val + x.queue)).head = [] ∧ t.mem = (s.qePiece e x a).1.mem ∧
      ∃ y, (t.qeOf e).cmds = [y] ∧ y.id = x.id ∧ y.fin = true ∧
        ((s.qePiece e x a).2 = true → y.pkts = 1 ∧ y.bytes = a.bytes ∧ y.status = x.status) ∧
        ((s.qePiece e x a).2 = false → y.status = 4))) ∧
  (∀ (e : Fin 8) (x : QCmd) (a : QEntry) (s : State), QeHolds s e 4 x → QueueHolds s (512 * e.val + x.queue) [a] →
    a.eop = true → Completes (.qeDrop e) s (fun t => (t.spillQ (512 * e.val + x.queue)).head = [] ∧
      (t.qeOf e).cmds = [{ x with started := true, seq := (s.qeOf e).starts, fin := true, empty := true }] ∧
      t.get (L.QE_Q_STAT.OCC e x.queue) = 0 ∧ t.mem = s.mem ∧
      SameRegsButRecords [R.QE_Q_STAT e x.queue, R.QE_STATUS e] s t)) ∧
  (∀ (e : Fin 8) (id : Nat) (x y : QCmd) (s : State), (s.qeOf e).cmds = [x] → x.id = id → x.started = true → x.fin = true →
    x.launch = none → x.ch / 16 = e.val → s.cqFull x.ch = false → (s.qeEnded e x).2 = y →
    (s.qeGone e x).stale x.issuer = false → NoWait s ((s.qeGone e x).channelDone e y) →
    Completes (.qeCommandComplete e id) s (fun t => (t.qeOf e).cmds = [] ∧
      t.get (L.QE_CNT.CMDS e) = min (s.get (L.QE_CNT.CMDS e) + 1) (2 ^ 32 - 1) ∧
      t.get (L.QE_CH_IDX.CQ_TAIL e (x.ch % 16)) = (s.get (L.QE_CH_IDX.CQ_TAIL e (x.ch % 16)) + 1) % 2 ^ 16 ∧
      t.mem = ((s.qeGone e x).channelDone e y).mem)) ∧
  (∀ (e : Fin 8) (id l : Nat) (x : QCmd) (s : State), (s.qeOf e).cmds = [x] → x.id = id → x.started = true → x.fin = true →
    x.launch = some l → NoWait s (s.qeEnded e x).1 → Completes (.qeCommandComplete e id) s (fun t => (t.qeOf e).cmds = [] ∧
      t.launches = s.launches.map (fun y => if y.id = l then { y with
        status := some (if (s.qeRecord e x).2 = false ∧ x.status = 0 then 4 else x.status) } else y) ∧
      t.mem = (s.qeEnded e x).1.mem)) ∧
  (∀ (e : Fin 8) (id : Nat) (x : QCmd) (s : State), (s.qeOf e).cmds = [x] → x.id = id → x.started = true → x.fin = true →
    x.launch = none → s.cqFull x.ch = true → Completes (.qeCommandComplete e id) s (fun t =>
      t.get (L.QE_EVT.CQ_FULL e) = 1 ∧ t.qe = s.qe ∧ SameRegsButRecords [R.QE_EVT e] s t)) ∧
  (∀ (c : Issuer) (ch : Fin 128) (v : Word) (s : State), Sends s c → c.sealed = s.ownerSealed (.qe (ch.val / 16)) →
    s.isReleasing (.qe (ch.val / 16)) = false → s.isReleasing (.ch ch) = false → c.vi = none →
    (v.getLsbD 32 = true → v.getLsbD 33 = false → s.sqTailBad ch (fieldOf v 0 16) = false →
      Completes (.sqDoorbell c (.manager ch) v) s (fun t => t.resp = .ok ∧
        t.get (L.QE_CH_IDX.SQ_TAIL (ch.val / 16) (ch.val % 16)) = fieldOf v 0 16 ∧
        SameRegsBut [R.QE_CH_IDX (ch.val / 16) (ch.val % 16)] s t)) ∧
    (v.getLsbD 32 = false → v.getLsbD 33 = true → s.cqHeadBad ch (fieldOf v 16 16) = false →
      Completes (.cqDoorbell c (.manager ch) v) s (fun t => t.resp = .ok ∧
        t.get (L.QE_CH_IDX.CQ_HEAD (ch.val / 16) (ch.val % 16)) = fieldOf v 16 16 ∧
        SameRegsBut [R.QE_CH_IDX (ch.val / 16) (ch.val % 16)] s t)) ∧
    (v.getLsbD 32 = true → v.getLsbD 33 = false → s.sqTailBad ch (fieldOf v 0 16) = true →
      Completes (.sqDoorbell c (.manager ch) v) s (fun t => Refused s t))) ∧
  (∀ (c : Issuer) (n : Fin 256) (v : Word) (s : State), Sends s c → s.viState n ≠ viFree → c.sealed = s.viSealed n →
    s.viOf (.ch (fieldOf v 0 7)) = some n.val → s.isReleasing (.ch (fieldOf v 0 7)) = false →
    s.isReleasing (.qe (fieldOf v 0 7 / 16)) = false →
    (s.sqTailBad (fieldOf v 0 7) (fieldOf v 16 16) = false → Completes (.sqDoorbell c (.tenant n) v) s (fun t => t.resp = .ok ∧
      t.get (L.QE_CH_IDX.SQ_TAIL (fieldOf v 0 7 / 16) (fieldOf v 0 7 % 16)) = fieldOf v 16 16 ∧
      SameRegsBut [R.QE_CH_IDX (fieldOf v 0 7 / 16) (fieldOf v 0 7 % 16)] s t)) ∧
    (s.cqHeadBad (fieldOf v 0 7) (fieldOf v 16 16) = false → Completes (.cqDoorbell c (.tenant n) v) s (fun t => t.resp = .ok ∧
      t.get (L.QE_CH_IDX.CQ_HEAD (fieldOf v 0 7 / 16) (fieldOf v 0 7 % 16)) = fieldOf v 16 16 ∧
      SameRegsBut [R.QE_CH_IDX (fieldOf v 0 7 / 16) (fieldOf v 0 7 % 16)] s t))) ∧
  (∀ (ch : Fin 128) (s : State), s.chFetches ch = true → NoWait s (s.chRead ch).1 → Completes (.sqFetch ch) s (fun t =>
    t.get (L.QE_CH_IDX.SQ_HEAD (ch.val / 16) (ch.val % 16)) = (s.get (L.QE_CH_IDX.SQ_HEAD (ch.val / 16) (ch.val % 16)) + 1) % 2 ^ 16 ∧
    (t.qeOf (ch.val / 16)).next = (s.qeOf (ch.val / 16)).next + 1 ∧ ∃ x, (t.qeOf (ch.val / 16)).cmds =
      (s.qeOf (ch.val / 16)).cmds ++ [x] ∧ x.id = (s.qeOf (ch.val / 16)).next ∧ x.ch = ch.val ∧ x.source = 64 + ch.val ∧
      x.launch = none))

/-- Spill queues (R259 to R262): a packet is admitted or refused whole, a full tail goes to the middle, the middle returns to
the head, and writes of the configuration enable the queue, or set the discard that takes effect when no operation runs.
Where a point is open it states the model's choice (log entries 75 to 79). -/
def Obligations.SpillQueues : Prop :=
  (∀ (q : Fin 4096) (p : Arriving) (s : State), QueueHolds s q [] → p.total = 64 → p.data.length = 64 →
    s.qAdmits q 1 = true → Completes (.queueAdmit q p) s (fun t => (t.spillQ q).head = [⟨p.data, 64, true, true⟩] ∧
      (t.spillQ q).arrivals = [] ∧ t.get (L.QE_Q_STAT.OCC (q.val / 512) (q.val % 512)) = 1 ∧
      SameRegsBut [R.QE_Q_STAT (q.val / 512) (q.val % 512)] s t)) ∧
  (∀ (q : Fin 4096) (p : Arriving) (s : State), (s.spillQ q).arrivals = [] → 0 < p.total → p.total ≤ p.data.length →
    s.qAdmits q (packetEntries p.total) = false → Completes (.queueAdmit q p) s (fun t =>
      t.get (L.QE_Q_STAT.OVERRUN (q.val / 512) (q.val % 512)) = 1 ∧ t.get (L.QE_EVT.OVERRUN (q.val / 512)) = 1 ∧
      t.get (L.QE_Q_STAT.DROPS (q.val / 512) (q.val % 512)) =
        min (s.get (L.QE_Q_STAT.DROPS (q.val / 512) (q.val % 512)) + 1) (2 ^ 16 - 1) ∧ t.queues = s.queues ∧
      SameRegsButRecords [R.QE_Q_STAT (q.val / 512) (q.val % 512), R.QE_EVT (q.val / 512)] s t)) ∧
  (∀ (q : Fin 4096) (x : SpillQ) (w w2 : State × Bool) (s : State), s.mustSpill q = true → s.spillQ q = x → x.arrivals = [] →
    s.ioWrite (qeSrc (q.val / 512)) (s.spillIssuer q) (s.spillBase q + 64 * ((x.midAt + x.mid) % s.spillCap q))
      (x.tail.flatMap (fun t => t.data)) false = w → w.2 = true →
    w.1.ioWrite (qeSrc (q.val / 512)) (s.spillIssuer q) (s.sidebandBase q + (x.midAt + x.mid) % s.spillCap q)
      (x.tail.map sidebandOf) false = w2 → w2.2 = true → NoWait s w2.1 → Completes (.spillWrite q) s (fun t =>
      t.spillQ q = { x with tail := [], mid := x.mid + 8 } ∧ t.qState q = qSpilling ∧ t.mem = w2.1.mem)) ∧
  (∀ (q : Fin 4096) (s : State), s.readSize q ≠ 0 → Completes (.middleRead q) s (fun t =>
    t.spillQ q = { s.spillQ q with reading := s.readSize q } ∧ SameRegsBut [] s t)) ∧
  (∀ (q : Fin 4096) (x : SpillQ) (a : QEntry) (s : State), s.spillQ q = x → x.reading = 1 → x.tail = [] → x.arrivals = [] →
    0 < x.mid → x.head.length < 8 →
    ((s.setSpillQ q { x with reading := 0 }).middleEntry q x.midAt).2 = some a →
    NoWait s ((s.setSpillQ q { x with reading := 0 }).middleEntry q x.midAt).1 → Completes (.middleReadReturn q) s (fun t =>
      t.spillQ q = { x with reading := 0, head := x.head ++ [a], mid := x.mid - 1, midAt := (x.midAt + 1) % s.spillCap q } ∧
      (s.qState q = qSpilling → t.qState q = (if x.mid = 1 then qDirect else qSpilling)))) ∧
  (∀ (c : Issuer) (q : Fin 4096) (v : Word) (s : State), Sends s c → c.sealed = s.ownerSealed (.queue q) →
    s.isReleasing (.queue q) = false →
    c.vi = none → fieldOf v 0 19 ≠ 0 → fieldOf v 0 19 ≤ 262160 →
    (s.get (L.QE_Q_CFG.EN (q.val / 512) (q.val % 512)) = 0 → v.getLsbD 63 = true → v.getLsbD 62 = false →
      fieldOf v 0 19 ≤ 16 + s.spillCap q → Completes (.queueEnable c q v) s (fun t => t.resp = .ok ∧
        t.get (L.QE_Q_CFG.EN (q.val / 512) (q.val % 512)) = 1 ∧ t.get (L.QE_Q_CFG.LIMIT (q.val / 512) (q.val % 512)) = fieldOf v 0 19 ∧
        t.qState q = (if s.qState q = qDisabled then qDirect else s.qState q) ∧ t.spillQ q = s.spillQ q ∧
        SameRegsBut [R.QE_Q_CFG (q.val / 512) (q.val % 512), R.QE_Q_STAT (q.val / 512) (q.val % 512)] s t)) ∧
    (s.get (L.QE_Q_CFG.EN (q.val / 512) (q.val % 512)) = 1 → v.getLsbD 63 = false →
      fieldOf v 0 19 = s.get (L.QE_Q_CFG.LIMIT (q.val / 512) (q.val % 512)) → Completes (.queueDisable c q v) s (fun t =>
        t.resp = .ok ∧ t.get (L.QE_Q_CFG.EN (q.val / 512) (q.val % 512)) = 0 ∧ t.spillQ q = { s.spillQ q with apply := true } ∧
        SameRegsBut [R.QE_Q_CFG (q.val / 512) (q.val % 512), R.QE_Q_STAT (q.val / 512) (q.val % 512)] s t)) ∧
    (s.get (L.QE_Q_CFG.EN (q.val / 512) (q.val % 512)) = 1 → v.getLsbD 63 = true → v.getLsbD 62 = true →
      fieldOf v 0 19 = s.get (L.QE_Q_CFG.LIMIT (q.val / 512) (q.val % 512)) → Completes (.queueFlush c q v) s (fun t =>
        t.resp = .ok ∧ t.get (L.QE_Q_CFG.EN (q.val / 512) (q.val % 512)) = 1 ∧ t.spillQ q = { s.spillQ q with apply := true } ∧
        SameRegsBut [R.QE_Q_CFG (q.val / 512) (q.val % 512), R.QE_Q_STAT (q.val / 512) (q.val % 512)] s t))) ∧
  (∀ (c : Issuer) (q : Fin 4096) (v : Word) (s : State),
    Sends s c → (c.sealed ≠ s.ownerSealed (.queue q) ∨ s.isReleasing (.queue q) = true ∨ c.vi ≠ none ∨ fieldOf v 0 19 = 0 ∨
      262160 < fieldOf v 0 19 ∨ s.get (L.QE_Q_CFG.EN (q.val / 512) (q.val % 512)) = 1 ∧
        fieldOf v 0 19 ≠ s.get (L.QE_Q_CFG.LIMIT (q.val / 512) (q.val % 512))) →
    Completes (.queueEnable c q v) s (fun t => Refused s t ∧ t.queues = s.queues) ∧
    Completes (.queueDisable c q v) s (fun t => Refused s t ∧ t.queues = s.queues) ∧
    Completes (.queueFlush c q v) s (fun t => Refused s t ∧ t.queues = s.queues)) ∧
  (∀ (q : Fin 4096) (s : State), (s.spillQ q).apply = true → s.qBusy q = false → (s.spillQ q).arrivals = [] →
    Completes (.queueDiscardApply q) s (fun t => t.spillQ q = ⟨[], [], 0, 0, 0, [], false⟩ ∧
      t.qState q = (if s.get (L.QE_Q_CFG.EN (q.val / 512) (q.val % 512)) = 1 then qDirect else qDisabled) ∧
      t.get (L.QE_Q_STAT.OCC (q.val / 512) (q.val % 512)) = 0 ∧ t.get (L.QE_Q_STAT.DROPS (q.val / 512) (q.val % 512)) = 0 ∧
      t.get (L.QE_Q_STAT.OVERRUN (q.val / 512) (q.val % 512)) = 0 ∧
      SameRegsBut [R.QE_Q_STAT (q.val / 512) (q.val % 512)] s t))

/-- Virtual instances (R264 to R273, R276, R280): administration commands act when they are accepted and reach READY with their
status; mailbox indices move inside their rings, and a swap of the dirty bitmaps runs until it is done.
Where a point is open it states the model's choice (log entries 88, 89). -/
def Obligations.VirtualInstances : Prop :=
  (∀ (c : Issuer) (k : Fin 8) (v : Nat) (x : Word) (w : List Nat) (s : State), Sends s c → AdminFree s k c v 1 x →
    (c.sealed = true ∨ (s.get (L.VI_AVAIL.OPEN k)).testBit (fieldOf x 57 5) = true) →
    ((s.adminBegun k c.sealed x.toNat).viRead k c.sealed (fieldOf x 6 42 * 64) 64).2 = some w → recordBad w = false →
    NoWait s ((s.adminBegun k c.sealed x.toNat).viRead k c.sealed (fieldOf x 6 42 * 64) 64).1 →
    (∀ r ∈ recordRes w, s.ownerSealed r = c.sealed ∧ s.isReleasing r = false ∧ s.viOf r = none) →
    Completes (.viCreate c k x) s (fun t => AdminTaken k c ⟨v, 1, 0, s.up, recordRes w⟩ t ∧ t.viState v = viStopped ∧
      t.viSealed v = c.sealed ∧ t.rd (R.VI_SHARE k (v % 32)) = BitVec.ofNat 64 (w.getD 7 0 % 2 ^ 59))) ∧
  (∀ (c : Issuer) (k : Fin 8) (v : Nat) (x : Word) (s : State), Sends s c → AdminFree s k c v 2 x → Completes (.viStart c k x) s (fun t =>
    t.resp = .ok ∧ AdminTaken k c ⟨v, 2, 0, s.up, []⟩ t ∧ t.viState v = viStopped ∧
    SameRegsBut [R.VI_ADMIN_CMD c.sealed k, R.VI_ADMIN_RES c.sealed k] s t)) ∧
  (∀ (c : Issuer) (k : Fin 8) (v : Nat) (x : Word) (s : State), Sends s c → AdminFree s k c v 3 x →
    NoWait s ((s.answer .ok).writeAdmin k c x.toNat) → Completes (.viStop c k x) s (fun t =>
    AdminTaken k c ⟨v, 3, 0, s.up, []⟩ t ∧ t.viState v = viStopping ∧
    ∀ q, q < 32 → s.viOf (.csq q) = some v → t.csqState q = stStopped)) ∧
  (∀ (c : Issuer) (k : Fin 8) (v : Nat) (x : Word) (s : State), Sends s c → AdminFree s k c v 4 x →
    NoWait s ((s.answer .ok).writeAdmin k c x.toNat) → Completes (.viReset c k x) s (fun t =>
    AdminTaken k c ⟨v, 4, 0, s.up, []⟩ t ∧ t.viState v = viResetting ∧ t.viGen v = (s.viGen v + 1) % 256)) ∧
  (∀ (c : Issuer) (k : Fin 8) (v : Nat) (x : Word) (s : State), Sends s c → AdminFree s k c v 5 x →
    NoWait s ((s.answer .ok).writeAdmin k c x.toNat) → Completes (.viDestroy c k x) s (fun t =>
    AdminTaken k c ⟨v, 5, 0, s.up, []⟩ t ∧ t.viState v = viResetting ∧ t.viGen v = (s.viGen v + 1) % 256)) ∧
  (∀ (c : Issuer) (k : Fin 8) (v y : Nat) (x : Word) (s : State), Sends s c → AdminFree s k c v 6 x →
    ((s.adminBegun k c.sealed x.toNat).viRead k c.sealed (fieldOf x 6 42 * 64) 8).2 = some [y] → y < 2 ^ 59 →
    NoWait s ((s.adminBegun k c.sealed x.toNat).viRead k c.sealed (fieldOf x 6 42 * 64) 8).1 →
    Completes (.viShare c k x) s (fun t => AdminTaken k c ⟨v, 6, 0, s.up, []⟩ t ∧
      (s.viState v = viRunning → s.ticking → SMap.get t.viPend v = y ∧ t.get (L.VI_STATE.PEND k (v % 32)) = 1) ∧
      (s.viState v = viStopped ∨ ¬ s.ticking → t.rd (R.VI_SHARE k (v % 32)) = BitVec.ofNat 64 y))) ∧
  (∀ (k : Fin 8) (w : Bool) (a : ViAdmin) (s : State), s.adminOf k w = some a → a.v / 32 = k.val → a.status < 256 →
    (a.cmd = 2 → Completes (.viAdminDone k w) s (fun t => AdminReady k w a a.status t ∧ t.viState a.v = viRunning ∧
      SameRegsBut [R.VI_STATE (a.v / 32) (a.v % 32), R.VI_ADMIN_RES w k] s t)) ∧
    (a.cmd = 3 → s.viBusy a.v = false → Completes (.viAdminDone k w) s (fun t => AdminReady k w a a.status t ∧
      t.viState a.v = viStopped ∧ SameRegsBut [R.VI_STATE (a.v / 32) (a.v % 32), R.VI_ADMIN_RES w k] s t)) ∧
    (a.cmd = 4 → Completes (.viAdminDone k w) s (fun t => AdminReady k w a a.status t ∧ t.viState a.v = viStopped ∧
      SameRegsBut [R.VI_STATE (a.v / 32) (a.v % 32), R.VI_ADMIN_RES w k] s t)) ∧
    (a.cmd = 5 → Completes (.viAdminDone k w) s (fun t => AdminReady k w a a.status t ∧ t.viState a.v = viFree)) ∧
    (a.cmd = 3 → s.viBusy a.v = true → Completes (.viStopTimeout k w) s (fun t => AdminReady k w a 7 t ∧
      t.viState a.v = viStopped ∧ a.at_ + 2000000 ≤ t.up ∧
      SameRegsButRecords [R.VI_STATE (a.v / 32) (a.v % 32), R.VI_ADMIN_RES w k] s t))) ∧
  (∀ (c : Issuer) (k : Fin 8) (x : Word) (s : State), Sends s c → x.getLsbD 62 = true → Completes (.viAdminAck c k x) s (fun t =>
    t.resp = .ok ∧ t.get (L.VI_ADMIN_RES.READY c.sealed k) = 0 ∧ t.get (L.VI_ADMIN_RES.GEN c.sealed k) = 0xFF ∧
    t.get (L.VI_ADMIN_RES.STATUS c.sealed k) = 0xFF ∧ SameRegsBut [R.VI_ADMIN_RES c.sealed k] s t)) ∧
  (∀ (c : Issuer) (k : Fin 8) (x : Word) (a : ViAdmin) (s : State), Sends s c → x.getLsbD 63 = true → s.adminOf k c.sealed = some a →
    Completes (.viCreate c k x) s (fun t => Refused s t) ∧ Completes (.viStart c k x) s (fun t => Refused s t) ∧
    Completes (.viStop c k x) s (fun t => Refused s t) ∧ Completes (.viReset c k x) s (fun t => Refused s t) ∧
    Completes (.viDestroy c k x) s (fun t => Refused s t) ∧ Completes (.viShare c k x) s (fun t => Refused s t)) ∧
  (∀ (c : Issuer) (v : Fin 256) (x : Word) (s : State), Sends s c → s.viState v ≠ viFree → c.sealed = s.viSealed v →
    wrapSub 16 (fieldOf x 0 16) (s.get (L.VI_MBOX_IDX.M2T_CONS (v.val / 32) (v.val % 32))) ≤
      2 ^ s.get (L.VI_MBOX_M2T.LOG2N (v.val / 32) (v.val % 32)) →
    wrapSub 16 (fieldOf x 32 16) (s.get (L.VI_MBOX_IDX.T2M_CONS (v.val / 32) (v.val % 32))) ≤
      wrapSub 16 (s.get (L.VI_MBOX_IDX.T2M_PROD (v.val / 32) (v.val % 32))) (s.get (L.VI_MBOX_IDX.T2M_CONS (v.val / 32) (v.val % 32))) →
    s.get (L.VI_MSI_T.EN (v.val / 32) (v.val % 32)) = 0 → Completes (.mboxManagerIndex c v x) s (fun t => t.resp = .ok ∧
      t.get (L.VI_MBOX_IDX.M2T_PROD (v.val / 32) (v.val % 32)) = fieldOf x 0 16 ∧
      t.get (L.VI_MBOX_IDX.T2M_CONS (v.val / 32) (v.val % 32)) = fieldOf x 32 16 ∧
      SameRegsBut [R.VI_MBOX_IDX (v.val / 32) (v.val % 32)] s t)) ∧
  (∀ (c : Issuer) (v : Fin 256) (x : Word) (s : State), Sends s c → s.viState v ≠ viFree → c.sealed = s.viSealed v →
    wrapSub 16 (fieldOf x 48 16) (s.get (L.VI_MBOX_IDX.T2M_CONS (v.val / 32) (v.val % 32))) ≤
      2 ^ s.get (L.VI_MBOX_T2M.LOG2N (v.val / 32) (v.val % 32)) →
    wrapSub 16 (fieldOf x 16 16) (s.get (L.VI_MBOX_IDX.M2T_CONS (v.val / 32) (v.val % 32))) ≤
      wrapSub 16 (s.get (L.VI_MBOX_IDX.M2T_PROD (v.val / 32) (v.val % 32))) (s.get (L.VI_MBOX_IDX.M2T_CONS (v.val / 32) (v.val % 32))) →
    s.get (L.VI_MSI_M.EN (v.val / 32) (v.val % 32)) = 0 → Completes (.mboxTenantIndex c v x) s (fun t => t.resp = .ok ∧
      t.get (L.VI_MBOX_IDX.T2M_PROD (v.val / 32) (v.val % 32)) = fieldOf x 48 16 ∧
      t.get (L.VI_MBOX_IDX.M2T_CONS (v.val / 32) (v.val % 32)) = fieldOf x 16 16 ∧
      SameRegsBut [R.VI_MBOX_IDX (v.val / 32) (v.val % 32)] s t)) ∧
  (∀ (c : Issuer) (v : Fin 256) (x : Word) (s : State), Sends s c → s.viState v ≠ viFree → c.sealed = s.viSealed v → x.getLsbD 62 = true →
    s.get (L.VI_DIRTY_CTRL.BUSY (v.val / 32) (v.val % 32)) = 0 →
    (s.get (L.VI_DIRTY_CTRL.EN (v.val / 32) (v.val % 32)) = 1 →
      fieldOf x 0 32 = s.get (L.VI_DIRTY_CTRL.PAGES (v.val / 32) (v.val % 32))) → Completes (.dirtySwap c v x) s (fun t =>
      t.resp = .ok ∧ t.get (L.VI_DIRTY_CTRL.BUSY (v.val / 32) (v.val % 32)) = 1 ∧
      t.get (L.VI_DIRTY_CTRL.EN (v.val / 32) (v.val % 32)) = fieldOf x 63 1 ∧
      t.get (L.VI_DIRTY_CTRL.PAGES (v.val / 32) (v.val % 32)) = fieldOf x 0 32 ∧
      t.get (L.VI_DIRTY_CTRL.ACTIVE (v.val / 32) (v.val % 32)) = s.get (L.VI_DIRTY_CTRL.ACTIVE (v.val / 32) (v.val % 32)) ∧
      SameRegsBut [R.VI_DIRTY_CTRL (v.val / 32) (v.val % 32)] s t)) ∧
  (∀ (c : Issuer) (v : Fin 256) (x : Word) (s : State),
    Sends s c → (s.viState v = viFree ∨ c.sealed ≠ s.viSealed v) →
    Completes (.dirtySwap c v x) s (fun t => Refused s t) ∧ Completes (.mboxManagerIndex c v x) s (fun t => Refused s t) ∧
    Completes (.mboxTenantIndex c v x) s (fun t => Refused s t)) ∧
  (∀ (v : Fin 256) (s : State), s.get (L.VI_DIRTY_CTRL.BUSY (v.val / 32) (v.val % 32)) = 1 → Completes (.dirtySwapDone v) s (fun t =>
    t.get (L.VI_DIRTY_CTRL.BUSY (v.val / 32) (v.val % 32)) = 0 ∧
    t.get (L.VI_DIRTY_CTRL.ACTIVE (v.val / 32) (v.val % 32)) = 1 - s.get (L.VI_DIRTY_CTRL.ACTIVE (v.val / 32) (v.val % 32)) ∧
    SameRegsBut [R.VI_DIRTY_CTRL (v.val / 32) (v.val % 32)] s t))


/-! ### The fabric (12) -/

/-- Ports (R283 to R290): signals start training at the width that the lanes allow, an accepted exchange brings the port UP and
resends what the partner names, another version holds it, and loss of signal leaves it IDLE; flits acknowledge, return
credits and deliver packets in order, each answered with an acknowledgement, a bad one is refused with LNAK and a second failure
retrains.
Where a point is open it states the model's choice (log entries 91, 96, 201). -/
def Obligations.FabricPortsTrainAndTakeFlits : Prop :=
  (∀ (n : Fin 8) (s : State), (s.portState n = portIdle ∨ s.portState n = portTrain ∧ (s.fabPort n).elecOk = false) → s.txIdle = false →
    Completes (.portSignalDetect n 0) s (fun t =>
    t.portState n = portTrain ∧ t.get (L.FAB_P_STATUS.WIDTH n) = 1 ∧ (t.fabPort n).elecOk = true ∧
    t.out = s.out ++ [.fabTrain n (s.myTrain n)] ∧ SameRegsBut [R.FAB_P_STATUS n] s t)) ∧
  (∀ (n : Fin 8) (f : Fin 16) (s : State), (s.portState n = portIdle ∨ s.portState n = portTrain ∧ (s.fabPort n).elecOk = false) →
    s.txIdle = false →
    f.val ≠ 0 → (f.val % 4 = 0 ∨ f.val / 4 = 0) →
    s.get (L.FAB_P_CFG.X2_OK n) = 1 → Completes (.portSignalDetect n f) s (fun t => t.portState n = portTrain ∧
      t.get (L.FAB_P_STATUS.WIDTH n) = 2 ∧ t.get (L.FAB_P_EVT.WIDTH n) = 1 ∧ t.out = s.out ++ [.fabTrain n (s.myTrain n)] ∧
      SameRegsButRecords [R.FAB_P_STATUS n, R.FAB_P_EVT n] s t)) ∧
  (∀ (n : Fin 8) (f : Fin 16) (s : State), (s.portState n = portIdle ∨ s.portState n = portTrain ∧ (s.fabPort n).elecOk = false) →
    s.txIdle = false →
    f.val ≠ 0 →
    (s.get (L.FAB_P_CFG.X2_OK n) = 0 ∨ f.val % 4 ≠ 0 ∧ f.val / 4 ≠ 0) → Completes (.portSignalDetect n f) s (fun t =>
      t.portState n = portTrain ∧ (t.fabPort n).elecOk = false ∧ t.out = s.out ∧ SameRegsBut [R.FAB_P_STATUS n] s t)) ∧
  (∀ (n : Fin 8) (x : FabTrain) (m : Nat) (s : State),
    (s.portState n = portTrain ∧ (s.fabPort n).elecOk = true ∨ s.portState n = portHeld) → x.verMaj = 1 → x.serial < 2 ^ 64 →
    x.id < 2 ^ 14 → m ≤ 2 → s.get (L.FAB_P_CFG.MODE n) ≤ m → x.modes.testBit m = true →
    (∀ k, k < m → s.get (L.FAB_P_CFG.MODE n) ≤ k → x.modes.testBit k = false) → (s.fabPort n).wait = [] →
    (x.resume = none ∨ s.get (L.FAB_P_PEER.SERIAL n) ≠ x.serial) → Completes (.fabTrainFlit n x) s (fun t =>
      t.portState n = portUpSt ∧ t.get (L.FAB_P_STATUS.MODE n) = m ∧ t.get (L.FAB_P_PEER.SERIAL n) = x.serial ∧
      t.get (L.FAB_P_STATUS.PARTNER_ID n) = x.id ∧ t.get (L.FAB_P_STATUS.PARTNER_ID_VALID n) = (if x.idValid then 1 else 0) ∧
      t.get (L.FAB_P_STATUS.BEACON_SEEN n) = 0 ∧ t.get (L.FAB_P_EVT.UP n) = 1 ∧
      t.fabPort n = { s.fabPort n with
        txSeq := 0, replay := [], credit := x.credits, rxSeq := 0, rxFail := none, rxLast := none,
        beaconAt := s.up, starve := 0, room := fabDepth, owed := [0, 0, 0, 0], ackDue := false } ∧
      t.get (L.FAB_P_CNT2.LOST_FLITS n) = min (s.get (L.FAB_P_CNT2.LOST_FLITS n) + (s.fabPort n).replay.length) (2 ^ 16 - 1) ∧
      t.out = s.out ∧ SameRegsButRecords [R.FAB_P_PEER n, R.FAB_P_PEER_VER n, R.FAB_P_STATUS n, R.FAB_P_CNT2 n, R.FAB_P_EVT n] s t)) ∧
  (∀ (n : Fin 8) (x : FabTrain) (r : Nat) (e : Nat × Option FabPkt) (rest : List (Nat × Nat × Option FabPkt)) (s : State),
    s.portState n = portTrain → (s.fabPort n).elecOk = true → x.verMaj = 1 → x.modes.testBit 2 = true →
    s.get (L.FAB_P_CFG.MODE n) = 2 → (s.fabPort n).wait = [] → s.get (L.FAB_P_PEER.SERIAL n) = x.serial → x.resume = some r →
    (s.fabPort n).replay = (r, e) :: rest → Completes (.fabTrainFlit n x) s (fun t => t.portState n = portUpSt ∧
      (t.fabPort n).txSeq = rest.length % 4096 ∧ (t.fabPort n).replay.map (fun p => p.2) = rest.map (fun p => p.2) ∧
      t.out = s.out ++ ((List.range rest.length).zip rest).map (fun p => .fabFlit n (p.1 % 4096) p.2.2.1 p.2.2.2 none [0, 0, 0, 0]) ∧
      t.get (L.FAB_P_CNT2.LOST_FLITS n) = s.get (L.FAB_P_CNT2.LOST_FLITS n))) ∧
  (∀ (n : Fin 8) (x : FabTrain) (s : State), s.portState n = portTrain → (s.fabPort n).elecOk = true → x.verMaj ≠ 1 →
    Completes (.fabTrainFlit n x) s (fun t => t.portState n = portHeld ∧ t.get (L.FAB_P_EVT.VERSION n) = 1 ∧
      (t.fabPort n).trainSentAt = s.up ∧ t.out = s.out)) ∧
  (∀ (n : Fin 8) (s : State), s.portState n = portHeld → s.txIdle = false → Completes (.heldTrainSend n) s (fun t =>
    t.out = s.out ++ [.fabTrain n (t.myTrain n)] ∧ (s.fabPort n).trainSentAt + 1000000 ≤ t.up ∧
    t.fabPort n = { s.fabPort n with trainSentAt := t.up } ∧ SameRegsButRecords [] s t)) ∧
  (∀ (n : Fin 8) (s : State), (s.portState n = portTrain ∨ s.portState n = portHeld) →
    (s.get L.TB_STATUS.PARENT_VALID = 0 ∨ s.get L.TB_STATUS.PARENT_PORT ≠ n.val) → Completes (.fabLos n) s (fun t =>
    t.portState n = portIdle ∧ (t.fabPort n).elecOk = false ∧ t.get (L.FAB_P_EVT.LOS n) = 1 ∧
    t.get (L.FAB_P_EVT.PARTNER_LOST n) = 1 ∧
    t.get (L.FAB_P_CNT2.LOSS n) = min (s.get (L.FAB_P_CNT2.LOSS n) + 1) (2 ^ 16 - 1) ∧
    SameRegsButRecords [R.FAB_P_STATUS n, R.FAB_P_CNT2 n, R.FAB_P_EVT n, R.TB_PORT_STAT n] s t)) ∧
  (∀ (n : Fin 8) (s : State), s.portState n = portUpSt → FabQuiet s n → Completes (.fabLos n) s (fun t =>
    t.portState n = portIdle ∧ (t.fabPort n).elecOk = false ∧ t.get (L.FAB_P_STATUS.BEACON_SEEN n) = 0 ∧
    t.get (L.FAB_P_EVT.LOS n) = 1 ∧ t.get (L.FAB_P_EVT.PARTNER_LOST n) = 1)) ∧
  (∀ (n : Fin 8) (f : FabFlit) (p : FabPkt) (s : State), FabFlitGood s n f → f.kind.val = 1 → f.seq.val = (s.fabPort n).rxSeq →
    f.pkt = some p → s.get L.FAB_ID.ID_VALID = 1 → fabMalformed p = false →
    (p.fvc = 2 ∨ s.get (L.FAB_P_STATUS.PARTNER_QUAR n) = 0 ∧ s.quarantined = false) → Completes (.fabPktFlit n f) s (fun t =>
      t.fabPort n = { (s.fabPort n).acked f with
        rxSeq := (f.seq.val + 1) % 4096, rxFail := none, rxLast := some f.seq.val, ackDue := false, owed := [0, 0, 0, 0]
        room := (s.fabPort n).room.set (f.fvc - 1) ((s.fabPort n).places f.fvc - 1) } ∧
      t.fab.inbox = s.fab.inbox ++ [(n.val, p)] ∧
      t.out = s.out ++ [.fabIdle n (s.fabPort n).txSeq (some f.seq.val) [0, 0, 0, 0]] ∧ SameRegsBut [R.FAB_P_CNT2 n] s t)) ∧
  (∀ (n : Fin 8) (f : FabFlit) (s : State), FabFlitGood s n f → f.seq.val ≠ (s.fabPort n).rxSeq →
    Completes (.fabPktFlit n f) s (fun t => t.fabPort n = (s.fabPort n).acked f ∧ t.fab.inbox = s.fab.inbox ∧ t.out = s.out ∧
      SameRegsBut [R.FAB_P_CNT2 n] s t)) ∧
  (∀ (n : Fin 8) (f : FabFlit) (s : State), FabFlitGood s n f → Completes (.fabIdleFlit n f) s (fun t =>
    t.fabPort n = (s.fabPort n).acked f ∧ t.fab.inbox = s.fab.inbox ∧ t.out = s.out ∧
    t.get (L.FAB_P_CNT2.FEC_CORR n) = min (s.get (L.FAB_P_CNT2.FEC_CORR n) + f.fec) (2 ^ 32 - 1) ∧
    SameRegsBut [R.FAB_P_CNT2 n] s t)) ∧
  (∀ (n : Fin 8) (f : FabFlit) (s : State), s.portState n = portUpSt → f.crcBad = true → f.kind.val = 1 →
    (s.fabPort n).rxFail = none → Completes (.fabPktFlit n f) s (fun t =>
      t.fabPort n = { s.fabPort n with rxFail := some (s.fabPort n).rxSeq } ∧
      t.out = s.out ++ [.fabLnak n 0 (s.fabPort n).rxSeq] ∧
      t.get (L.FAB_P_CNT.CRC_ERR n) = min (s.get (L.FAB_P_CNT.CRC_ERR n) + 1) (2 ^ 32 - 1) ∧
      t.get (L.FAB_P_CNT2.FEC_CORR n) = min (s.get (L.FAB_P_CNT2.FEC_CORR n) + f.fec) (2 ^ 32 - 1) ∧
      SameRegsBut [R.FAB_P_CNT n, R.FAB_P_CNT2 n] s t)) ∧
  (∀ (n : Fin 8) (f : FabFlit) (s : State), s.portState n = portUpSt → f.crcBad = true → f.kind.val = 1 → FabQuiet s n →
    (s.fabPort n).rxFail = some (s.fabPort n).rxSeq → f.seq.val = (s.fabPort n).rxSeq →
    Completes (.fabPktFlit n f) s (fun t => t.portState n = portTrain ∧ t.get (L.FAB_P_EVT.RETRAIN n) = 1 ∧
      (t.fabPort n).elecOk = false)) ∧
  (∀ (n : Fin 8) (f : FabFlit) (s : State), s.portState n = portUpSt → f.crcBad = false →
    (5 < f.kind.val ∨ f.reservedBad = true ∨
      f.kind.val = 1 ∧ f.seq.val = (s.fabPort n).rxSeq ∧ (s.fabPort n).places f.fvc = 0) →
    Completes (.fabPktFlit n f) s (fun t => t.get (L.FAB_P_EVT.PEER_VIOL n) = 1 ∧ t.fab = s.fab ∧ t.out = s.out ++
      [.fabLnak n (if 5 < f.kind.val ∨ f.reservedBad = true then 1 else 2) f.seq] ∧
      SameRegsButRecords [R.FAB_P_CNT n, R.FAB_P_CNT2 n, R.FAB_P_EVT n] s t) ∧
    Completes (.fabIdleFlit n f) s (fun t => t.get (L.FAB_P_EVT.PEER_VIOL n) = 1 ∧ t.fab = s.fab)) ∧
  (∀ (n : Fin 8) (seq : Fin 4096) (i : Nat) (s : State), s.portState n = portUpSt →
    (s.fabPort n).replay.findIdx? (fun e => e.1 == seq.val) = some i → Completes (.fabLnak n 0 seq) s (fun t =>
      t.out = s.out ++ ((s.fabPort n).replay.drop i).map (fun e => .fabFlit n e.1 e.2.1 e.2.2 none [0, 0, 0, 0]) ∧ t.fab = s.fab ∧
      t.get (L.FAB_P_CNT.REPLAY n) = min (s.get (L.FAB_P_CNT.REPLAY n) + 1) (2 ^ 16 - 1) ∧
      SameRegsButRecords [R.FAB_P_CNT n] s t)) ∧
  (∀ (n : Fin 8) (code : Nat) (seq : Fin 4096) (s : State), code ≠ 0 → Completes (.fabLnak n code seq) s (fun t =>
    t.out = s.out ∧ t.fab = s.fab ∧ SameRegsBut [] s t))

/-- Packets (R294 to R298, R305 to R311): a packet for another device goes on by its route with one hop less, and a response
with
no hop left is dropped; RD, WR, ATOM and MSG for this device act on the address or queue that the aperture gives and are
answered,
and one that the aperture does not admit is answered with a status.
Where a point is open it states the model's choice (log entry 91). -/
def Obligations.FabricServesPackets : Prop :=
  (∀ (port : Fin 9) (fvc : Fin 5) (p : FabPkt) (n : Nat) (s u : State), s.fabHead port fvc = some p → u = s.fabDrop port p →
    p.dst ≠ s.fabId → p.ptype ≠ ptDR → 2 ≤ p.hops → p.epoch = u.get L.FAB_EPOCH.EPOCH % 4 →
    u.fabOut (u.get L.FAB_EPOCH.ACTIVE) (some port.val) p = some n → u.fabBarred n p = none → u.txIdle = false →
    (u.fabPort n).wait = [] → fabFlits p = 1 → 0 < fvc.val → 0 < (u.fabPort n).credit.getD (fvc.val - 1) 0 →
    (u.fabPort n).replay.length < 256 → Completes (.fabForward port fvc) s (fun t =>
      t.out = u.out ++ [.fabFlit n (u.fabPort n).txSeq fvc.val (some { p with hops := p.hops - 1 }) (u.fabPort n).rxLast
        (u.fabPort n).returns] ∧
      (t.fabPort n).txSeq = ((u.fabPort n).txSeq + 1) % 4096 ∧ (t.fabPort n).wait = [] ∧ (t.fabPort n).ackDue = false)) ∧
  (∀ (port : Fin 9) (fvc : Fin 5) (p : FabPkt) (s : State), s.fabHead port fvc = some p → p.dst ≠ s.fabId → p.hops ≤ 1 →
    ptRdRsp ≤ p.ptype → p.ptype ≤ ptNAK → Completes (.fabForward port fvc) s (fun t => t = s.fabDrop port p)) ∧
  (∀ (port : Fin 9) (fvc : Fin 5) (p : FabPkt) (s : State), s.fabHead port fvc = some p → p.dst ≠ s.fabId → p.ptype ≠ ptDR →
    s.get L.FAB_ID.ID_VALID = 0 → Completes (.fabForward port fvc) s (fun t => t = s.fabDrop port p)) ∧
  (∀ (port : Fin 9) (fvc : Fin 5) (p : FabPkt) (u : State) (d : DevAns) (s : State), FabMine s port fvc ptRD p →
    FabAdmits s port p (s.get (L.FAB_APT.RD_OK (aptOf p))) p.len →
    (s.fabDrop port p).ioRead (rsvSrc fabSrc (fvc.val == 1)) (fabTags s port p) (fabAddr s p) p.len = (u, d) → d.err = false →
    d.poison = false → NoWait s u →
    Completes (.fabRd port fvc) s (FabReplied u (fabRespond p ptRdRsp 0 d.data))) ∧
  (∀ (port : Fin 9) (fvc : Fin 5) (p : FabPkt) (u : State) (s : State), FabMine s port fvc ptWR p →
    FabAdmits s port p (s.get (L.FAB_APT.WR_OK (aptOf p))) p.len →
    (s.fabDrop port p).store (rsvSrc fabSrc (fvc.val == 1)) (fabTags s port p) (fabAddr s p) (p.data.take p.len) false =
      (u, true) → NoWait s u →
    (p.ackReq = false → p.rackReq = false → Completes (.fabWr port fvc) s (fun t => t = u)) ∧
    (p.ackReq = true → p.rackReq = false → Completes (.fabWr port fvc) s (FabReplied u (fabRespond p ptCMP 0 []))) ∧
    (p.ackReq = false → p.rackReq = true → Completes (.fabWr port fvc) s (FabReplied u (fabRespond p ptRACK 0 [])))) ∧
  (∀ (port : Fin 9) (fvc : Fin 5) (p : FabPkt) (u w : State) (d : DevAns) (n : Nat) (s : State), FabMine s port fvc ptATOM p →
    n = (if p.sz4 then 4 else 8) → FabAdmits s port p (s.get (L.FAB_APT.ATOM_OK (aptOf p))) n →
    (s.fabDrop port p).ioRead (rsvSrc fabSrc (fvc.val == 1)) (fabTags s port p) (fabAddr s p) n = (u, d) → d.err = false →
    d.poison = false → NoWait s w →
      u.store (rsvSrc fabSrc (fvc.val == 1)) (fabTags s port p) (fabAddr s p) (bytesLE n (fabAtomic p.aop (8 * n) (ofBytesLE d.data)
      (ofBytesLE (p.data.take 8)) (ofBytesLE ((p.data.drop 8).take 8)))) false = (w, true) →
    Completes (.fabAtom port fvc) s (FabReplied w (fabRespond p ptAtomRsp 0 (bytesLE 8 (ofBytesLE d.data))))) ∧
  (∀ (port : Fin 9) (fvc : Fin 5) (p : FabPkt) (l : List (Nat × Nat)) (u v : State) (a : Bool) (s : State),
    FabMine s port fvc ptMSG p → FabAdmits s port p (s.get (L.FAB_APT.MSG_OK (aptOf p))) p.len →
    (s.fabDrop port p).ioPages (rsvSrc fabSrc (fvc.val == 1)) (fabTags s port p)
      (pagePieces (p.len / 0x1000 + 2) (fabAddr s p) p.len) = (v, some l) → v.ownerSealed (.queue p.queue) = fabSealed s port p →
    (s.get (L.FAB_APT.VI_VALID (aptOf p)) = 1 → v.viOf (.queue p.queue) = some (s.get (L.FAB_APT.VI (aptOf p)))) →
    p.rackReq = false → v.qArrive p.queue (0x2000 + p.src) p.len (p.data.take p.len) = (u, a) → NoWait s u →
    (p.ackReq = false → Completes (.fabMsg port fvc) s (fun t => t = u)) ∧
    (p.ackReq = true → Completes (.fabMsg port fvc) s (FabReplied u (fabRespond p ptCMP (if a then 0 else fsOverrun) [])))) ∧
  (∀ (port : Fin 9) (fvc : Fin 5) (p : FabPkt) (st : Nat) (s : State), FabMine s port fvc p.ptype p →
    (st = fsAperture ∧ p.sync = false ∧ s.get (L.FAB_APT.EN (aptOf p)) = 0 ∨
      st = fsExcluded ∧ p.sync = true ∧ s.get L.TB_STATUS.SYNC_OK = 0) →
    (p.ptype = ptRD → Completes (.fabRd port fvc) s (FabReplied (s.fabDrop port p) (fabRespond p ptRdRsp st []))) ∧
    (p.ptype = ptATOM → Completes (.fabAtom port fvc) s (FabReplied (s.fabDrop port p) (fabRespond p ptAtomRsp st []))) ∧
    (p.ptype = ptWR → p.ackReq = true → p.rackReq = false →
      Completes (.fabWr port fvc) s (FabReplied (s.fabDrop port p) (fabRespond p ptCMP st []))) ∧
    (p.ptype = ptMSG → p.ackReq = true → p.rackReq = false →
      Completes (.fabMsg port fvc) s (FabReplied (s.fabDrop port p) (fabRespond p ptCMP st [])))) ∧
  (∀ (port : Fin 9) (fvc : Fin 5) (p : FabPkt) (s : State), FabMine s port fvc ptRD p → p.sync = false →
    s.get (L.FAB_APT.EN (aptOf p)) = 1 → s.get (L.FAB_APT.RD_OK (aptOf p)) = 1 → p.offset % 0x10000000 + p.len ≤ 0x10000000 →
    ¬ (fabSealed s port p = true ↔ s.get (L.FAB_APT.WORLD (aptOf p)) = 1) →
    Completes (.fabRd port fvc) s (FabReplied (s.fabDrop port p) (fabRespond p ptRdRsp fsWorld [])))

/-- Requests and what ends them (R299, R306, R308, R312 to R314): a core's access to the window opens a request or fails, a
response ends the one it answers with its data or its failure, one without a request is counted, and a request that waits
too long ends by timeout; NAK is recorded, DR and MMSG reach the receive ring.
Where a point is open it states the model's choice (log entries 92 to 94, 98, 211). -/
def Obligations.FabricRequestsEnd : Prop :=
  (∀ (port : Fin 9) (fvc : Fin 5) (p : FabPkt) (o : FabOpen) (h : Agent) (n : Nat) (s u : State), FabMine s port fvc ptRdRsp p →
    u = s.fabDrop port p →
    FabAnswersOpen u p o → o.pkt.ptype = ptRD → o.user = .core h (.load n) →
    (p.status = 0 → Completes (.fabRdRsp port fvc) s (fun t => t.resp = .data (BitVec.ofNat 64 (ofBytesLE (p.data.take 8))) ∧
      FabEnded t ∧ SameRegsBut [R.FAB_STATUS] u t)) ∧
    (p.status ≠ 0 → Completes (.fabRdRsp port fvc) s (fun t => t.resp = .accessFault ∧ FabEnded t ∧
      t.get L.FAB_EVT.REMOTE_ERR = 1 ∧ SameRegsButRecords [R.FAB_STATUS, R.FAB_EVT] u t))) ∧
  (∀ (port : Fin 9) (fvc : Fin 5) (p : FabPkt) (o : FabOpen) (h : Agent) (k : RemoteKind) (s u : State),
    FabMine s port fvc ptAtomRsp p → u = s.fabDrop port p → FabAnswersOpen u p o → o.pkt.ptype = ptATOM → o.user = .core h k →
      p.status = 0 →
    o.pkt.sz4 = false → Completes (.fabAtomRsp port fvc) s (fun t =>
      t.resp = .data (BitVec.ofNat 64 (ofBytesLE (p.data.take 8))) ∧ FabEnded t ∧ SameRegsBut [R.FAB_STATUS] u t)) ∧
  (∀ (port : Fin 9) (fvc : Fin 5) (p : FabPkt) (o : FabOpen) (s u : State), FabMine s port fvc ptCMP p → u = s.fabDrop port p →
    FabAnswersOpen u p o →
    o.pkt.ptype = ptWR → p.status = 0 →
    (∀ (h : Agent) (b : List Nat), o.user = .core h (.store b) → Completes (.fabCmp port fvc) s (fun t => FabEnded t ∧ t.resp = u.resp ∧
      t.qe = u.qe ∧ SameRegsBut [R.FAB_STATUS] u t)) ∧
    (∀ (e : Nat) (x : QCmd), o.user = .qe e x.id → (u.qeOf e).cmds = [x] → Completes (.fabCmp port fvc) s (fun t => FabEnded t ∧
      (t.qeOf e).cmds = [{ x with remote := false }] ∧ SameRegsBut [R.FAB_STATUS] u t))) ∧
  (∀ (port : Fin 9) (fvc : Fin 5) (p : FabPkt) (o : FabOpen) (l : Nat) (s u : State), FabMine s port fvc ptRACK p → u = s.fabDrop port p →
    FabAnswersOpen u p o → o.pkt.ptype = ptMSG → o.user = .launch l → p.status = 0 → Completes (.fabRack port fvc) s (fun t =>
      FabEnded t ∧ t.launches = u.launches.map (fun y => if y.id = l then { y with status := some 0 } else y) ∧
      SameRegsBut [R.FAB_STATUS] u t)) ∧
  (∀ (port : Fin 9) (fvc : Fin 5) (p : FabPkt) (s u : State), FabMine s port fvc ptRdRsp p → u = s.fabDrop port p → u.fab.opens = [] →
    (p.txn ∉ u.fab.timedOut → Completes (.fabRdRsp port fvc) s (fun t =>
      t.get L.FAB_CNT.LATE = min (u.get L.FAB_CNT.LATE + 1) (2 ^ 16 - 1) ∧ t.get L.FAB_EVT.PEER_VIOL = 1 ∧ t.resp = u.resp ∧
      SameRegsButRecords [R.FAB_CNT, R.FAB_NAK_LAST, R.FAB_EVT] u t)) ∧
    (p.txn ∈ u.fab.timedOut → Completes (.fabRdRsp port fvc) s (fun t =>
      t.get L.FAB_CNT.LATE = min (u.get L.FAB_CNT.LATE + 1) (2 ^ 16 - 1) ∧ t.fab.timedOut = u.fab.timedOut.erase p.txn ∧
      SameRegsBut [R.FAB_CNT] u t))) ∧
  (∀ (port : Fin 9) (fvc : Fin 5) (p : FabPkt) (s u : State), FabMine s port fvc ptNAK p → u = s.fabDrop port p → p.status < 256 →
    p.src < 2 ^ 14 →
    Completes (.fabNak port fvc) s (fun t => t.get L.FAB_NAK_LAST.STATUS = p.status ∧
      t.get L.FAB_NAK_LAST.PTYPE = p.offset % 256 ∧ t.get L.FAB_NAK_LAST.SRC_ID = p.src ∧ t.get L.FAB_EVT.NAK = 1 ∧
      t.get L.FAB_EVT.REMOTE_ERR = 1 ∧ SameRegsButRecords [R.FAB_NAK_LAST, R.FAB_EVT] u t ∧
      (∀ (e : Nat) (x : QCmd), e < 8 → (u.qeOf e).cmds = [x] → (∀ k, k < 8 → k ≠ e → (u.qeOf k).cmds = []) →
        (t.qeOf e).cmds = [if p.offset % 256 = ptWR ∧ p.txn ∈ x.posted then
          { x with remote := false, fin := true, status := if x.status = 0 then 4 else x.status } else x]))) ∧
  (∀ (port : Fin 9) (fvc : Fin 5) (p : FabPkt) (s : State), FabMine s port fvc ptMMSG p → p.len < 256 → p.src < 2 ^ 14 →
    wrapSub 16 (s.get L.FAB_MRX_IDX.PROD) (s.get L.FAB_MRX_IDX.CONS) < 2 ^ s.get L.FAB_MRX_RING.LOG2N →
    s.get L.FAB_MSI.EN = 0 → (p.data.take p.len).length ≤ 192 → NoWait s (s.mrxWritten port p (mmsgEntry p)) →
    Completes (.fabMmsg port fvc) s (fun t =>
      t.get L.FAB_MRX_IDX.PROD = (s.get L.FAB_MRX_IDX.PROD + 1) % 2 ^ 16 ∧ t.get L.FAB_EVT.MGMT_RX = 1 ∧
      t.mem = (s.mrxWritten port p (mmsgEntry p)).mem)) ∧
  (∀ (port : Fin 9) (fvc : Fin 5) (p : FabPkt) (s : State), s.fabHead port fvc = some p → p.ptype = ptDR →
    bits (ofBytesLE (p.data.take 8)) 41 37 + 1 = bits (ofBytesLE (p.data.take 8)) 36 32 →
    wrapSub 16 (s.get L.FAB_MRX_IDX.PROD) (s.get L.FAB_MRX_IDX.CONS) < 2 ^ s.get L.FAB_MRX_RING.LOG2N →
    s.get L.FAB_MSI.EN = 0 → NoWait s (s.mrxWritten port p (drEntry s port p)) → Completes (.fabDr port fvc) s (fun t =>
      t.get L.FAB_MRX_IDX.PROD = (s.get L.FAB_MRX_IDX.PROD + 1) % 2 ^ 16 ∧ t.get L.FAB_EVT.MGMT_RX = 1 ∧
      t.mem = (s.mrxWritten port p (drEntry s port p)).mem)) ∧
  (∀ (port : Fin 9) (fvc : Fin 5) (p : FabPkt) (ptr n : Nat) (s u : State), s.fabHead port fvc = some p → p.ptype = ptDR →
    u = s.fabDrop port p → p.fvc = 2 → bits (ofBytesLE (p.data.take 8)) 41 37 = ptr → ptr + 1 ≠ bits (ofBytesLE (p.data.take 8)) 36 32 →
    bits (ofBytesLE ((p.data.drop 8).take 8)) (3 * (ptr + 1) + 2) (3 * (ptr + 1)) = n → u.portState n = portUpSt →
    (u.fabPort n).wait = [] → (u.fabPort n).credit.getD 1 0 = 0 → Completes (.fabDr port fvc) s (fun t => t.mem = s.mem ∧
      t.out = u.out ∧ ∃ q, (t.fabPort n).wait = [⟨q, fabFlits q, none, some port.val⟩] ∧ q.ptype = ptDR ∧
        q.data.drop 24 = p.data.drop 24 ∧
        bits (ofBytesLE (q.data.take 8)) 41 37 = (ptr + 1) % 32 ∧ SameRegsBut [] u t)) ∧
  (∀ (c : Issuer) (a : PAddr) (k : RemoteKind) (r : Bool) (s : State), Sends s c → 0x400000000000 ≤ a.toNat → a.toNat < 0x800000000000 →
    remoteOk (a.toNat % 2 ^ 32) k = true → s.agentIn c = true → s.pmpStops c a.toNat (remotePmp k).1 (remotePmp k).2 = false →
    s.fab.opens.length < 1024 →
    (s.get L.FAB_ID.ID_VALID = 1 → a.toNat / 2 ^ 32 % 2 ^ 14 = s.fabId → Completes (.remoteAccess c a k r) s (fun t =>
      t.resp = .ok ∧ t.fab.opens.length = s.fab.opens.length + 1 ∧ t.fab.nextTxn = (s.fab.nextTxn + 1) % 65536 ∧
      (∃ p, t.fab.inbox = s.fab.inbox ++ [(8, p)] ∧ p.ptype = remoteType k ∧ p.fvc = (if remoteRsv s c a r then 1 else 3) ∧
        p.txn = s.fab.nextTxn ∧ p.offset = a.toNat % 2 ^ 32 ∧ p.len = remoteLen k ∧ p.sealed = (s.tagged c).sealed ∧
        p.vi = c.vi) ∧
      t.get L.FAB_STATUS.OPEN_REQ = s.fab.opens.length + 1 ∧ SameRegsBut [R.FAB_STATUS] s t)) ∧
    (a.toNat / 2 ^ 32 % 2 ^ 14 ≠ s.fabId → FabCutOff s → Completes (.remoteAccess c a k r) s (fun t =>
      (remoteType k ≠ ptWR → t.resp = .accessFault) ∧ (remoteType k = ptWR → t.resp = .ok) ∧
      t.get L.FAB_EVT.REMOTE_ERR = 1 ∧ t.fab.opens = s.fab.opens ∧ SameRegsButRecords [R.FAB_EVT] s t))) ∧
  (∀ (c : Issuer) (a : PAddr) (k : RemoteKind) (r : Bool) (s : State), Sends s c → s.agentIn c = true →
    (a.toNat < 0x400000000000 ∨ 0x800000000000 ≤ a.toNat ∨ remoteOk (a.toNat % 2 ^ 32) k = false) →
    Completes (.remoteAccess c a k r) s (fun t => t.resp = .accessFault ∧ t.fab = s.fab ∧ SameRegsBut [] s t)) ∧
  (∀ (o : FabOpen) (h : Agent) (n : Nat) (s : State), s.fab.opens = [o] → s.fab.later = [] → o.user = .core h (.load n) →
    Completes (.fabRequestTimeout o.pkt.txn) s (fun t => t.resp = .accessFault ∧ FabEnded t ∧
      o.sentAt + 1000 * s.get L.FAB_CFG.TMO ≤ t.up ∧ t.fab.timedOut = o.pkt.txn :: s.fab.timedOut ∧
      t.get L.FAB_CNT.TIMEOUT = min (s.get L.FAB_CNT.TIMEOUT + 1) (2 ^ 16 - 1) ∧ t.get L.FAB_EVT.TIMEOUT = 1 ∧
      t.get L.FAB_EVT.REMOTE_ERR = 1 ∧ SameRegsButRecords [R.FAB_CNT, R.FAB_EVT, R.FAB_STATUS] s t))

/-- Beacons and management of the fabric (R292, R297, R299 to R302, R316): beacons leave every UP port and show the partner's
state, a silent partner is lost; the route epoch arms and switches, the profile commits with its digest, and the transmit
ring sends its messages; these commands refuse the Open world.
Where a point is open it states the model's choice (log entries 97, 208). -/
def Obligations.FabricKeepsWatch : Prop :=
  (∀ (s : State), ¬ s.ticking → s.txIdle = false → Completes .beaconTimer s (fun t => t.fab.beaconAt = t.up ∧
    s.fab.beaconAt + 100000 ≤ t.up ∧
    t.out = s.out ++ ((List.range 8).filter (fun n => s.portState n = portUpSt)).map (fun n => .fabBeacon n t.myBeacon) ∧
    SameRegsButRecords [] s t)) ∧
  (∀ (n : Fin 8) (b : FabBeacon) (s : State), s.portState n = portUpSt → b.id < 2 ^ 14 →
    (∀ m, m < 8 → (s.fabPort m).wait = []) → Completes (.beaconRx n b) s (fun t =>
    t.get (L.FAB_P_STATUS.BEACON_SEEN n) = 1 ∧ t.get (L.FAB_P_STATUS.PARTNER_HOLD n) = (if b.hold then 1 else 0) ∧
    t.get (L.FAB_P_STATUS.PARTNER_QUAR n) = (if b.quar then 1 else 0) ∧ t.get (L.FAB_P_STATUS.PARTNER_ID n) = b.id ∧
    t.get (L.FAB_P_STATUS.PARTNER_ID_VALID n) = (if b.idValid then 1 else 0) ∧ t.portState n = portUpSt ∧
    SMap.get t.fab.recs n = some b.best ∧ t.fabPort n = { s.fabPort n with beaconAt := s.up, interval := b.interval } ∧
    (s.get L.TB_STATUS.SYNC_OK = 1 → b.hold = false → s.ticking →
      s.frameAt ((1000 * s.tb.ns + 1000 * s.tb.frac / 2 ^ 42 - s.get (L.TB_PORT_STAT.DELAY n)) / 1000) ≠ b.frame →
      t.get (L.FAB_P_EVT.FRAME_MISMATCH n) = 1) ∧
    SameRegsButRecords [R.FAB_P_STATUS n, R.FAB_P_EVT n] s t)) ∧
  (∀ (n : Fin 8) (s : State), s.portState n = portUpSt → s.get (L.FAB_P_STATUS.BEACON_SEEN n) = 1 → FabQuiet s n →
    Completes (.beaconLoss n) s (fun t => t.portState n = portTrain ∧ (t.fabPort n).elecOk = false ∧
      t.get (L.FAB_P_EVT.BEACON_LOSS n) = 1 ∧ t.get (L.FAB_P_EVT.PARTNER_LOST n) = 1 ∧ t.get (L.FAB_P_EVT.RETRAIN n) = 1 ∧
      t.get (L.FAB_P_CNT2.LOSS n) = min (s.get (L.FAB_P_CNT2.LOSS n) + 1) (2 ^ 16 - 1) ∧
      (s.fabPort n).beaconAt + 3 * (s.fabPort n).interval + 1000 ≤ t.up)) ∧
  (∀ (c : Issuer) (v : Word) (s : State), Sends s c → c.sealed = true → v.getLsbD 0 = true → s.get L.FAB_EPOCH.EPOCH < fieldOf v 32 32 →
    (¬ s.ticking → NotAsked s L.FAB_EPOCH_NEXT.ARM → Completes (.fabEpochArm c v) s (fun t => t.resp = .ok ∧
      t.get L.FAB_EPOCH.EPOCH = fieldOf v 32 32 ∧
      t.get L.FAB_EPOCH.ACTIVE = 1 - s.get L.FAB_EPOCH.ACTIVE ∧ t.get L.FAB_EPOCH.OLD_VALID = 1 ∧ t.get L.FAB_EPOCH_NEXT.ARM = 0 ∧
      t.get L.FAB_EVT.EPOCH_SW = 1 ∧ t.fab.prevEpoch = some (s.get L.FAB_EPOCH.EPOCH) ∧
      SameRegsButRecords [R.FAB_EPOCH, R.FAB_EPOCH_NEXT, R.FAB_EVT] s t)) ∧
    (s.ticking → s.frame + 2 ≤ s.get L.FAB_EPOCH_FRAME.FRAME → Completes (.fabEpochArm c v) s (fun t => t.resp = .ok ∧
      t.get L.FAB_EPOCH_NEXT.ARM = 1 ∧ t.get L.FAB_EPOCH_NEXT.NEXT = fieldOf v 32 32 ∧ SameRegsBut [R.FAB_EPOCH_NEXT] s t)) ∧
    (s.ticking → s.get L.FAB_EPOCH_FRAME.FRAME < s.frame + 2 → Completes (.fabEpochArm c v) s (fun t =>
      t.get L.FAB_EVT.ARM_LATE = 1 ∧ t.get L.FAB_EPOCH_NEXT.ARM = s.get L.FAB_EPOCH_NEXT.ARM ∧
      SameRegsButRecords [R.FAB_EPOCH_NEXT, R.FAB_EVT] s t))) ∧
  (∀ (c : Issuer) (v : Word) (s : State), Sends s c → (c.sealed = false ∨ v.getLsbD 0 = true ∧
    fieldOf v 32 32 ≤ s.get L.FAB_EPOCH.EPOCH) →
    Completes (.fabEpochArm c v) s (fun t => Refused s t)) ∧
  (∀ (s : State), s.get L.FAB_EPOCH_NEXT.ARM = 1 → s.ticking → NotAsked s L.FAB_EPOCH_NEXT.ARM → Completes .fabEpochSwitch s (fun t =>
    t.get L.FAB_EPOCH.EPOCH = s.get L.FAB_EPOCH_NEXT.NEXT ∧ t.get L.FAB_EPOCH.ACTIVE = 1 - s.get L.FAB_EPOCH.ACTIVE ∧
    t.get L.FAB_EPOCH.OLD_VALID = 1 ∧ t.get L.FAB_EPOCH_NEXT.ARM = 0 ∧ t.get L.FAB_EVT.EPOCH_SW = 1 ∧
    t.fab.prevEpoch = some (s.get L.FAB_EPOCH.EPOCH) ∧
    s.origin + (s.get L.FAB_EPOCH_FRAME.FRAME - s.base) * s.period ≤ t.tb.ns ∧
    SameRegsButRecords [R.FAB_EPOCH, R.FAB_EPOCH_NEXT, R.FAB_EVT] s t)) ∧
  (∀ (c : Issuer) (v : Word) (s : State), Sends s c → c.sealed = true → v.getLsbD 63 = true →
    Completes (.profileCommit c v) s (fun t => t.resp = .ok ∧ t.get L.FAB_PROFILE_CTRL.READY = 0 ∧
      t.get L.FAB_PROFILE_CTRL.STATUS = 0xFF ∧
      (fieldOf (s.rd (R.FAB_PROFILE 1)) 0 16 ≠ 1 → t.fab.commit = some 1) ∧
      (fieldOf (s.rd (R.FAB_PROFILE 1)) 0 16 = 1 →
        t.fab.commit = some (if fieldOf (s.rd (R.FAB_PROFILE 1)) 16 6 = s.get L.FAB_CFG.MAX_HOPS ∧
        fieldOf (s.rd (R.FAB_PROFILE 1)) 32 32 = s.get L.FAB_CFG.TMO then 0 else 2)) ∧
      SameRegsBut [R.FAB_PROFILE_CTRL] s t)) ∧
  (∀ (c : Issuer) (v : Word) (s : State), Sends s c → c.sealed = true → v.getLsbD 63 = false → v.getLsbD 61 = true →
    Completes (.profileAck c v) s (fun t => t.resp = .ok ∧ t.get L.FAB_PROFILE_CTRL.READY = 0 ∧
      t.get L.FAB_PROFILE_CTRL.STATUS = 0xFF ∧ t.fab.commit = none ∧ SameRegsBut [R.FAB_PROFILE_CTRL] s t)) ∧
  (∀ (st : Nat) (s : State), s.fab.commit = some st → s.get L.FAB_PROFILE_CTRL.READY = 0 → st < 256 →
    Completes .profileCommitDone s (fun t => t.get L.FAB_PROFILE_CTRL.READY = 1 ∧ t.get L.FAB_PROFILE_CTRL.STATUS = st ∧
      (st ≠ 0 → SameRegsBut [R.FAB_PROFILE_CTRL] s t) ∧
      (st = 0 → ∀ k, k < 4 → t.get (L.FAB_DIGEST.DIGEST k) = ofBytesLE (((sha256 ((List.range 128).flatMap
        (fun w => bytesLE 8 (s.get (L.FAB_PROFILE.WORD w))))).drop (8 * k)).take 8)))) ∧
  (∀ (c : Issuer) (v : Word) (s : State), Sends s c → c.sealed = true →
    wrapSub 16 (fieldOf v 0 16) (s.get L.FAB_MTX_IDX.CONS) ≤ 2 ^ s.get L.FAB_MTX_RING.LOG2N →
    NoWait s ((s.answer .ok).writeMtxIdx c v.toNat) →
    Completes (.mgmtTx c v) s (fun t => t.get L.FAB_MTX_IDX.PROD = fieldOf v 0 16 ∧ t.get L.FAB_MTX_IDX.CONS = fieldOf v 0 16)) ∧
  (∀ (c : Issuer) (v : Word) (s : State), Sends s c → c.sealed = true → fieldOf v 0 16 = (s.get L.FAB_MTX_IDX.CONS + 1) % 2 ^ 16 →
    (s.mtxRead v).2.err = false → ofBytesLE ((s.mtxRead v).2.data.take 8) % 2 ^ 8 = ptMMSG → NoWait s (s.mtxRead v).1 →
    1 ≤ mtxLen (s.mtxRead v).2.data → mtxLen (s.mtxRead v).2.data ≤ 192 → Completes (.mgmtTx c v) s (fun t =>
      t = (((s.mtxRead v).1.put L.FAB_MTX_IDX.CONS (s.get L.FAB_MTX_IDX.CONS + 1)).fabPosted (fabPacket (unitIssuer true) ptMMSG 2
        (bits (ofBytesLE ((s.mtxRead v).2.data.take 8)) 29 16) 0 (mtxLen (s.mtxRead v).2.data)
        (((s.mtxRead v).2.data.drop 64).take (mtxLen (s.mtxRead v).2.data)))).1)) ∧
  (∀ (c : Issuer) (v : Word) (s : State),
    Sends s c → (c.sealed = false ∨ 2 ^ s.get L.FAB_MTX_RING.LOG2N < wrapSub 16 (fieldOf v 0 16) (s.get L.FAB_MTX_IDX.CONS)) →
    Completes (.mgmtTx c v) s (fun t => Refused s t)) ∧
  (∀ (c : Issuer) (v : Word) (s : State), Sends s c → c.sealed = false →
    Completes (.profileCommit c v) s (fun t => Refused s t) ∧ Completes (.profileAck c v) s (fun t => Refused s t))


/-! ### Worlds, key store and Belay (13) -/

/-- Ownership and translation (R324 to R331): a release is judged when it is written, waits for accepted work, and passes the
resource unassigned to the other world or is abandoned after 2 ms; an invalidation removes the cached translations of its
scope and reports when it is done.
Where a point is open it states the model's choice (log entries 99, 100). -/
def Obligations.ResourcesAndTranslationsPass : Prop :=
  (∀ (c : Issuer) (v : Word) (r : Res) (s : State), Sends s c → v.getLsbD 63 = true → s.ownReqOf c.sealed = none →
    ownResource (fieldOf v 16 4) (fieldOf v 0 12) = some r → s.ownerSealed r = c.sealed → s.isReleasing r = false →
    s.assigned r = false →
    (s.pinned r = false → Completes (.ownRelease c v) s (fun t => t.resp = .ok ∧ t.ownReqOf c.sealed = some ⟨r, s.up⟩ ∧
      t.releasing = s.releasing ++ [r] ∧ t.get (L.WLD_OWN_RES.READY c.sealed) = 0 ∧ t.get (L.WLD_OWN_RES.STATUS c.sealed) = 0xFF ∧
      SameRegsBut [R.WLD_OWN_REQ c.sealed, R.WLD_OWN_RES c.sealed] s t)) ∧
    (s.pinned r = true → Completes (.ownRelease c v) s (fun t => t.ownReqOf c.sealed = none ∧ t.releasing = s.releasing ∧
      t.get (L.WLD_OWN_RES.READY c.sealed) = 1 ∧ t.get (L.WLD_OWN_RES.STATUS c.sealed) = 4))) ∧
  (∀ (c : Issuer) (v : Word) (s : State), Sends s c → v.getLsbD 63 = true → s.ownReqOf c.sealed = none →
    ownResource (fieldOf v 16 4) (fieldOf v 0 12) = none → Completes (.ownRelease c v) s (fun t =>
      t.releasing = s.releasing ∧ t.get (L.WLD_OWN_RES.READY c.sealed) = 1 ∧ t.get (L.WLD_OWN_RES.STATUS c.sealed) = 1)) ∧
  (∀ (c : Issuer) (v : Word) (r : Res) (s : State), Sends s c → v.getLsbD 63 = true → s.ownReqOf c.sealed = none →
    ownResource (fieldOf v 16 4) (fieldOf v 0 12) = some r →
    (s.ownerSealed r ≠ c.sealed → Completes (.ownRelease c v) s (fun t => t.releasing = s.releasing ∧
      t.get (L.WLD_OWN_RES.READY c.sealed) = 1 ∧ t.get (L.WLD_OWN_RES.STATUS c.sealed) = 2)) ∧
    (s.ownerSealed r = c.sealed → s.isReleasing r = false → s.assigned r = true → Completes (.ownRelease c v) s (fun t =>
      t.releasing = s.releasing ∧ t.get (L.WLD_OWN_RES.READY c.sealed) = 1 ∧ t.get (L.WLD_OWN_RES.STATUS c.sealed) = 3))) ∧
  (∀ (c : Issuer) (v : Word) (q : OwnReq) (s : State), Sends s c → v.getLsbD 63 = true → s.ownReqOf c.sealed = some q →
    Completes (.ownRelease c v) s (fun t => Refused s t ∧ t.ownReq = s.ownReq)) ∧
  (∀ (w : Bool) (ty i a : Nat) (r : Res) (s : State), s.ownReqOf w = some ⟨r, a⟩ → ownResource ty i = some r →
    ((s.elapseUntil (a + 1)).ownPrepare r).ownBusy r = false → Completes (.ownReleaseDone w) s (fun t => a < t.up ∧
      t.ownerSealed r = !w ∧ t.viOf r = none ∧
      r ∉ t.releasing ∧ t.ownReqOf w = none ∧ t.get (L.WLD_OWN_RES.READY w) = 1 ∧ t.get (L.WLD_OWN_RES.STATUS w) = 0 ∧
      t.get L.WLD_EVT.OWN_CHG = 1)) ∧
  (∀ (w : Bool) (a : Nat) (r : Res) (s : State), s.ownReqOf w = some ⟨r, a⟩ → ((s.elapseUntil (a + 1)).ownPrepare r).ownBusy r = true →
    Completes (.ownReleaseDone w) s (fun t => a < t.up ∧ t.ownReqOf w = some ⟨r, a⟩ ∧ t.ownerSealed r = s.ownerSealed r)) ∧
  (∀ (w : Bool) (a : Nat) (r : Res) (s : State), s.ownReqOf w = some ⟨r, a⟩ → s.ownBusy r = true →
    Completes (.ownReleaseTimeout w) s (fun t => t.ownReqOf w = none ∧ r ∉ t.releasing ∧ a + 2000000 ≤ t.up ∧
      t.get (L.WLD_OWN_RES.READY w) = 1 ∧ t.get (L.WLD_OWN_RES.STATUS w) = 5 ∧ SameRegsButRecords [R.WLD_OWN_RES w] s t)) ∧
  (∀ (c : Issuer) (v : Word) (s : State), Sends s c → v.getLsbD 62 = true → s.get (L.WLD_OWN_RES.READY c.sealed) = 1 →
    Completes (.ownResAck c v) s (fun t => t.resp = .ok ∧ t.get (L.WLD_OWN_RES.READY c.sealed) = 0 ∧
      t.get (L.WLD_OWN_RES.STATUS c.sealed) = 0xFF ∧ SameRegsBut [R.WLD_OWN_RES c.sealed] s t)) ∧
  (∀ (c : Issuer) (v : Word) (s : State), Sends s c → v.getLsbD 63 = true → fieldOf v 56 2 ≠ 3 →
    SMap.get s.invReq (wBit c.sealed) = none →
    Completes (.iommuInvalidate c v) s (fun t => t.resp = .ok ∧
      SMap.get t.invReq (wBit c.sealed) = some ⟨fieldOf v 56 2, fieldOf v 48 8, fieldOf v 12 36⟩ ∧
      t.get (L.WLD_IOMMU_INVRES.READY c.sealed) = 0 ∧
      (∀ e, e ∈ t.iotlb ↔ e ∈ s.iotlb ∧ ¬ (e.sealed = c.sealed ∧ (fieldOf v 56 2 = 0 ∨ e.vi = some (fieldOf v 48 8) ∧
        (fieldOf v 56 2 = 1 ∨ e.page = fieldOf v 12 36)))) ∧
      SameRegsBut [R.WLD_IOMMU_INV c.sealed, R.WLD_IOMMU_INVRES c.sealed] s t)) ∧
  (∀ (c : Issuer) (v : Word) (s : State),
    Sends s c → (fieldOf v 56 2 = 3 ∨ v.getLsbD 63 = true ∧ SMap.get s.invReq (wBit c.sealed) ≠ none) →
    Completes (.iommuInvalidate c v) s (fun t => Refused s t ∧ t.iotlb = s.iotlb)) ∧
  (∀ (w : Bool) (q : InvReq) (s : State), SMap.get s.invReq (wBit w) = some q → Completes (.iommuInvDone w) s (fun t =>
    t.get (L.WLD_IOMMU_INVRES.READY w) = 1 ∧ SMap.get t.invReq (wBit w) = none ∧
    (∀ e, e ∈ t.iotlb ↔ e ∈ s.iotlb ∧ ¬ (e.sealed = w ∧ (q.scope = 0 ∨ e.vi = some q.vi ∧ (q.scope = 1 ∨ e.page = q.page)))) ∧
    SameRegsBut [R.WLD_IOMMU_INVRES w] s t)) ∧
  (∀ (c : Issuer) (v : Word) (s : State), Sends s c → v.getLsbD 62 = true → Completes (.iommuInvresAck c v) s (fun t => t.resp = .ok ∧
    t.get (L.WLD_IOMMU_INVRES.READY c.sealed) = 0 ∧ SameRegsBut [R.WLD_IOMMU_INVRES c.sealed] s t))

/-- Boot, the debug token and Belay (R332 to R336, R350 to R352): Basecamp boots slot A, else slot B, else recovers, hands off
to the MGMT image, and takes a recovery image that verifies; a valid token enables Sealed debug; Belay arms, a good pet
returns it to RUN, and a bad or missing pet warns.
Where a point is open it states the model's choice (log entries 102, 104, 105, 107, 108). -/
def Obligations.BootTokenAndBelay : Prop :=
  (∀ (s : State), s.get L.KS_BOOT.STAGE = 1 → s.ks.booted = [] → Completes (.basecampBoot false) s (fun t =>
    t.get L.KS_BOOT.STAGE = 3 ∧ t.get L.KS_BOOT.CAUSE = 1 ∧ t.slotKey = s.slotKey ∧ SameRegsBut [R.KS_BOOT] s t)) ∧
  (∀ (s : State), s.get L.KS_BOOT.STAGE = 1 → s.ks.booted = [] → Completes (.basecampBoot true) s (fun t =>
    t.get L.KS_STATUS.PUF_OK = 1 ∧ t.get L.KS_STATUS.IDX_READY = 1 ∧ t.get L.KS_ATT_IDX.NEXT = s.indexScan % 2 ^ 41 ∧
    t.get L.KS_STATUS.OWNER = (if s.nv.ownerHash.isSome then 1 else 0) ∧ t.rd R.KS_SVN = BitVec.ofNat 64 s.nv.svn ∧
    (s.nv.recs = [] → t.slotKind 0 = 4 ∧ t.slotUsage 0 = 0x10) ∧
    ((s.slotImages 0).2 = 0 → t.get L.KS_BOOT.STAGE = 1 ∧ t.get L.KS_BOOT.SLOT = 0 ∧ t.ks.booted ≠ []) ∧
    ((s.slotImages 0).2 ≠ 0 → (s.slotImages 0x300000).2 = 0 → t.get L.KS_BOOT.STAGE = 1 ∧ t.get L.KS_BOOT.SLOT = 1 ∧
      t.ks.booted ≠ []) ∧
    ((s.slotImages 0).2 ≠ 0 → (s.slotImages 0x300000).2 ≠ 0 → t.get L.KS_BOOT.STAGE = 3 ∧
      t.get L.KS_BOOT.CAUSE = (s.slotImages 0x300000).2 % 2 ^ 8 ∧ t.ks.booted = []))) ∧
  (∀ (s : State), s.get L.KS_BOOT.STAGE = 1 → s.ks.booted ≠ [] → Completes .basecampHandoff s (fun t =>
    t.get L.KS_BOOT.STAGE = 2 ∧ t.ks = { s.ks with newt := 15, mgmt := [] } ∧ t.get L.PWR_CORE_VEC.VALID = 1 ∧
    t.get L.PWR_CORE_VEC.VEC = s.ks.entry / 4 % 2 ^ 46 ∧
    t.mem = (s.writeBytes newtSram ((s.ks.mgmt.take 0x100000).map (BitVec.ofNat 8))).mem ∧
    SameRegsBut [R.KS_BOOT, R.PWR_CORE_VEC] s t)) ∧
  (∀ (im : List Nat) (i : Image) (s : State), s.get L.KS_BOOT.STAGE = 3 → s.get L.KS_BOOT.RECOVERY = 0 → im.length ≤ 0x100000 →
    i = ⟨im.take 256, (im.drop 256).take (le im 8 4), (im.drop ((256 + le im 8 4 + 63) / 64 * 64)).take (le im 0xC 4)⟩ →
    Completes (.recoveryImage im) s (fun t =>
      (i.kind = 1 → s.imageCause i = 0 → t.get L.KS_BOOT.RECOVERY = 1 ∧ t.get L.KS_BOOT.STAGE = 3 ∧
        t.mem = (s.writeBytes newtSram (i.body.map (BitVec.ofNat 8))).mem) ∧
      (i.kind ≠ 1 ∨ s.imageCause i ≠ 0 → t = s) ∧ SameRegsBut [R.KS_BOOT] s t)) ∧
  (∀ (pub sig : List Nat) (s : State), s.get L.KS_BOOT.STAGE ≠ 0 → s.get L.WLD_DBG.SEALED_EN = 0 →
    Completes (.debugToken pub sig) s (fun t =>
      (s.trusted pub = true → hssVerify pub s.tokenMessage sig = true → t.get L.WLD_DBG.SEALED_EN = 1 ∧
        t.get L.KS_STATUS.DEBUG = 1 ∧ t.get L.WLD_EVT.DEBUG = 1) ∧
      (s.trusted pub = false ∨ hssVerify pub s.tokenMessage sig = false → t = s) ∧
      SameRegsButRecords [R.WLD_DBG, R.KS_STATUS, R.WLD_EVT] s t)) ∧
  (∀ (c : Issuer) (v : Word) (s : State), Sends s c → c.sealed = true → s.get L.WLD_BELAY_CFG.EN = 0 → v.getLsbD 63 = true →
    fieldOf v 32 16 ≠ 0 → Completes (.belayArm c v) s (fun t => t.resp = .ok ∧ t.get L.WLD_BELAY_CFG.EN = 1 ∧
      t.get L.WLD_BELAY_CFG.TIMEOUT = fieldOf v 32 16 ∧ t.get L.WLD_BELAY_CFG.MIN = fieldOf v 16 16 ∧
      t.get L.WLD_BELAY_CFG.GRACE = max 1 (fieldOf v 0 16) ∧ t.belayStage = belayRun ∧ t.belay.since = s.belayClock ∧
      t.belay.lastPet = none ∧ SameRegsBut [R.WLD_BELAY_CFG, R.WLD_BELAY_STAT] s t)) ∧
  (∀ (c : Issuer) (v : Word) (s : State), Sends s c → c.sealed = true → s.get L.WLD_BELAY_CFG.EN = 1 →
    Completes (.belayArm c v) s (fun t =>
    t.resp = .ok ∧ t.get L.WLD_BELAY_CFG.EN = 1 ∧ t.get L.WLD_BELAY_CFG.TIMEOUT = s.get L.WLD_BELAY_CFG.TIMEOUT ∧
    t.get L.WLD_BELAY_CFG.MIN = fieldOf v 16 16 ∧ t.belay = s.belay ∧ SameRegsBut [R.WLD_BELAY_CFG] s t)) ∧
  (∀ (c : Issuer) (v : Word) (s : State), Sends s c → (c.sealed = false ∨ s.get L.WLD_BELAY_CFG.EN = 0 ∧ fieldOf v 32 16 = 0) →
    Completes (.belayArm c v) s (fun t => Refused s t ∧ t.belay = s.belay)) ∧
  (∀ (c : Issuer) (v : Word) (k : Nat) (s : State), Sends s c → c.sealed = true → (s.belayStage = belayRun ∨ s.belayStage = belayWarn) →
    s.get L.WLD_BELAY_STAT.NEXT = k → fieldOf v 0 16 = k →
    (∀ p, s.belay.lastPet = some p → p + 1000000 * s.get L.WLD_BELAY_CFG.MIN ≤ s.belayClock) →
    Completes (.belayPet c v) s (fun t => t.belayStage = belayRun ∧ t.belay.since = s.belayClock ∧
      t.belay.lastPet = some s.belayClock ∧ t.get L.WLD_BELAY_STAT.NEXT =
        k / 2 + (if ((k.testBit 0 ^^ k.testBit 2) ^^ (k.testBit 3 ^^ k.testBit 5)) = true then 2 ^ 15 else 0) ∧
      SameRegsButRecords [R.WLD_BELAY_STAT] s t)) ∧
  (∀ (c : Issuer) (v : Word) (s : State), Sends s c → c.sealed = true → s.belayStage = belayRun →
    fieldOf v 0 16 ≠ s.get L.WLD_BELAY_STAT.NEXT →
    Completes (.belayPet c v) s (fun t => t.belayStage = belayWarn ∧ t.belay.bad = true ∧ t.belay.since = s.belayClock ∧
      t.belay.lastPet = s.belay.lastPet ∧ t.get L.WLD_EVT.BELAY_WARN = 1 ∧
      t.get L.WLD_BELAY_STAT.NEXT = s.get L.WLD_BELAY_STAT.NEXT ∧ t.newtIrq = true)) ∧
  (∀ (c : Issuer) (v : Word) (k p : Nat) (s : State), Sends s c → c.sealed = true → s.belayStage = belayRun →
    s.get L.WLD_BELAY_STAT.NEXT = k → fieldOf v 0 16 = k → s.belay.lastPet = some p →
    s.belayClock < p + 1000000 * s.get L.WLD_BELAY_CFG.MIN →
    Completes (.belayPet c v) s (fun t => t.belayStage = belayWarn ∧ t.belay.bad = true ∧ t.belay.since = s.belayClock ∧
      t.belay.lastPet = some s.belayClock ∧ t.get L.WLD_EVT.BELAY_WARN = 1 ∧ t.get L.WLD_BELAY_STAT.NEXT =
        k / 2 + (if ((k.testBit 0 ^^ k.testBit 2) ^^ (k.testBit 3 ^^ k.testBit 5)) = true then 2 ^ 15 else 0) ∧
      t.newtIrq = true)) ∧
  (∀ (c : Issuer) (v : Word) (s : State), Sends s c → c.sealed = false → Completes (.belayPet c v) s (fun t => Refused s t ∧
    t.belay = s.belay)) ∧
  (∀ (s : State), s.belayStage = belayRun → s.belay.heldAt = none → Completes .belayWarn s (fun t => t.belayStage = belayWarn ∧
    s.belay.since + 1000000 * s.get L.WLD_BELAY_CFG.TIMEOUT ≤ t.up ∧ t.belay.bad = false ∧ t.belay.since = t.up ∧
    t.get L.WLD_EVT.BELAY_WARN = 1 ∧ t.newtIrq = true))

/-- Key-store commands (R335, R337, R341, R343, R344, R347, R348): each is judged when it is written, keys enter and leave slots
under the attributes and owners that the table asks for, and the result is READY when the command is done.
Where a point is open it states the model's choice (log entries 103, 104, 106, 107). -/
def Obligations.KeyStoreCommands : Prop :=
  (∀ (c : Issuer) (v : Word) (s : State), Sends s c → KsGo s c.sealed v 1 → KsEmpty s c.sealed (ksSlotOf v) →
    (attrsOk (ksKindOf v) (ksUsageOf v) = true → Completes (.gen c v) s (fun t => KsTaken c.sealed 0 t ∧ t.resp = .ok ∧
      t.free = s.free + 1 ∧ (∃ key, KsHolds t (ksSlotOf v) (ksKindOf v) (ksUsageOf v) key ∧ key.length = kindBytes (ksKindOf v)) ∧
      SameRegsBut [R.KS_CMD c.sealed, R.KS_RES c.sealed, R.KS_SLOT (ksSlotOf v)] s t)) ∧
    (attrsOk (ksKindOf v) (ksUsageOf v) = false → Completes (.gen c v) s (fun t => KsTaken c.sealed 4 t ∧
      t.slotKey = s.slotKey ∧ SameRegsBut [R.KS_CMD c.sealed, R.KS_RES c.sealed] s t))) ∧
  (∀ (c : Issuer) (v : Word) (s : State), Sends s c → KsGo s c.sealed v 1 →
    (¬ KsMine s c.sealed (ksSlotOf v) → Completes (.gen c v) s (fun t => KsTaken c.sealed 2 t ∧ t.slotKey = s.slotKey)) ∧
    (KsMine s c.sealed (ksSlotOf v) → (ksSlotOf v < 8 ∨ s.slotKind (ksSlotOf v) ≠ 0) →
      Completes (.gen c v) s (fun t => KsTaken c.sealed 3 t ∧ t.slotKey = s.slotKey))) ∧
  (∀ (c : Issuer) (v : Word) (u : State) (d : DevAns) (s : State), Sends s c → KsGo s c.sealed v 2 → KsEmpty s c.sealed (ksSlotOf v) →
    KsSource s c.sealed (ksParentOf v) 4 4 → attrsOk (ksKindOf v) (ksUsageOf v) = true →
    (s.ksBegun c.sealed v).physRead 0xFF (unitIssuer c.sealed) (s.get (L.KS_ARG0.ADDR c.sealed)) 32 = (u, d) →
    d.err = false → d.poison = false → NoWait s u → Completes (.derive c v) s (fun t => KsTaken c.sealed 0 t ∧
      KsHolds t (ksSlotOf v) (ksKindOf v) (ksUsageOf v) (kdf (SMap.get s.slotKey (ksParentOf v)) d.data (kindBytes (ksKindOf v))))) ∧
  (∀ (c : Issuer) (v : Word) (u : State) (d : DevAns) (n : Nat) (s : State), Sends s c → KsGo s c.sealed v 3 →
    KsEmpty s c.sealed (ksSlotOf v) →
    KsSource s c.sealed (ksParentOf v) 2 3 → s.get (L.KS_ARG2.LEN c.sealed) = n → (n = 32 ∨ n = 48 ∨ n = 80) →
    (s.ksBegun c.sealed v).physRead 0xFF (unitIssuer c.sealed) (s.get (L.KS_ARG0.ADDR c.sealed)) n = (u, d) →
    d.err = false → d.poison = false → NoWait s u → Completes (.importKey c v) s (fun t =>
      (kwpUnwrap (SMap.get s.slotKey (ksParentOf v)) d.data = none → KsTaken c.sealed 5 t ∧ t.slotKey = s.slotKey) ∧
      (∀ p kind usage, kwpUnwrap (SMap.get s.slotKey (ksParentOf v)) d.data = some p → kind < 16 → usage < 64 →
        ofBytesLE (p.take 8) = kind + 2 ^ 8 * usage → attrsOk kind usage = true → p.length = 8 + kindBytes kind →
        KsTaken c.sealed 0 t ∧ KsHolds t (ksSlotOf v) kind usage (p.drop 8)))) ∧
  (∀ (c : Issuer) (v : Word) (u : State) (ok : Bool) (s : State), Sends s c → KsGo s c.sealed v 4 → KsMine s c.sealed (ksSlotOf v) →
    ksSlotOf v ≠ 1 → ksSlotOf v ≠ 2 → s.slotKind (ksSlotOf v) ≠ 0 → (s.slotUsage (ksSlotOf v)).testBit 5 = true →
    KsSource s c.sealed (ksParentOf v) 2 3 →
    (s.ksBegun c.sealed v).physWrite 0xFF (unitIssuer c.sealed) (s.get (L.KS_ARG0.ADDR c.sealed))
      (kwpWrap (SMap.get s.slotKey (ksParentOf v)) (bytesLE 8 (s.slotKind (ksSlotOf v) + 2 ^ 8 * s.slotUsage (ksSlotOf v)) ++
        SMap.get s.slotKey (ksSlotOf v))) = (u, ok) → NoWait s u → Completes (.exportKey c v) s (fun t =>
      KsTaken c.sealed (if ok then 0 else 6) t ∧ t.mem = u.mem ∧ t.slotKey = s.slotKey)) ∧
  (∀ (c : Issuer) (v : Word) (s : State), Sends s c → KsGo s c.sealed v 4 → KsMine s c.sealed (ksSlotOf v) →
    ksSlotOf v ≠ 1 → ksSlotOf v ≠ 2 → s.slotKind (ksSlotOf v) ≠ 0 → (s.slotUsage (ksSlotOf v)).testBit 5 = false →
    KsSource s c.sealed (ksParentOf v) 2 3 → Completes (.exportKey c v) s (fun t => KsTaken c.sealed 4 t ∧ t.mem = s.mem)) ∧
  (∀ (c : Issuer) (v : Word) (ok : Bool) (s : State), Sends s c → KsGo s c.sealed v 5 → KsMine s c.sealed (ksSlotOf v) → 8 ≤ ksSlotOf v →
    (ok = true ∨ s.get (L.KS_SLOT.PERSIST (ksSlotOf v)) = 0) → Completes (.erase c v ok) s (fun t => KsTaken c.sealed 0 t ∧
      KsHolds t (ksSlotOf v) 0 0 [] ∧ t.get (L.KS_SLOT.PERSIST (ksSlotOf v)) = 0 ∧ t.keyRecord (ksSlotOf v) = none ∧
      t.resp = .ok ∧ SameRegsBut [R.KS_CMD c.sealed, R.KS_RES c.sealed, R.KS_SLOT (ksSlotOf v)] s t)) ∧
  (∀ (c : Issuer) (v : Word) (x y : KeyRec) (s : State), Sends s c → KsGo s c.sealed v 6 → KsMine s c.sealed (ksSlotOf v) →
    8 ≤ ksSlotOf v →
    s.slotKind (ksSlotOf v) ≠ 0 → SMap.get s.nv.recs (2 * ksSlotOf v) = x → SMap.get s.nv.recs (2 * ksSlotOf v + 1) = y →
    Completes (.persist c v true) s (fun t => KsTaken c.sealed 0 t ∧ t.get (L.KS_SLOT.PERSIST (ksSlotOf v)) = 1 ∧
      t.keyRecord (ksSlotOf v) = some ⟨max x.seq y.seq + 1, s.slotKind (ksSlotOf v), s.slotUsage (ksSlotOf v),
        SMap.get s.slotKey (ksSlotOf v)⟩ ∧ t.resp = .ok) ∧
    Completes (.persist c v false) s (fun t => KsTaken c.sealed 9 t ∧ t.nv = s.nv)) ∧
  (∀ (c : Issuer) (v : Word) (u : State) (d : DevAns) (i : Nat) (s : State), Sends s c → KsGo s c.sealed v 7 →
    s.get L.KS_STATUS.IDX_READY = 1 → s.get L.KS_ATT_IDX.NEXT = i → i < 2 ^ 40 →
    (s.ksBegun c.sealed v).physRead 0xFF (unitIssuer c.sealed) (s.get (L.KS_ARG0.ADDR c.sealed)) 96 = (u, d) →
    d.err = false → d.poison = false → NoWait s u →
    (s.nv.tree < i / 2 ^ 20 → Completes (.attest c v true) s (fun t => t.get L.KS_ATT_IDX.NEXT = i + 1 ∧ t.ks.treeBusy = true ∧
      t.ksReq c.sealed = some ⟨none, i, d.data, s.get (L.KS_ARG1.ADDR2 c.sealed)⟩)) ∧
    Completes (.attest c v false) s (fun t => t.get L.KS_ATT_IDX.NEXT = i + 1 ∧ KsTaken c.sealed 9 t)) ∧
  (∀ (c : Issuer) (v : Word) (ok : Bool) (s : State), Sends s c → KsGo s c.sealed v 7 →
    (s.get L.KS_STATUS.IDX_READY = 0 → Completes (.attest c v ok) s (fun t => KsTaken c.sealed 8 t ∧ t.mem = s.mem)) ∧
    (s.get L.KS_STATUS.IDX_READY = 1 → 2 ^ 40 ≤ s.get L.KS_ATT_IDX.NEXT →
      Completes (.attest c v ok) s (fun t => KsTaken c.sealed 7 t ∧ t.mem = s.mem))) ∧
  (∀ (c : Issuer) (v : Word) (u : State) (d : DevAns) (s : State), Sends s c → KsGo s c.sealed v 8 → c.sealed = true →
    ksSlotOf v % 8 < 4 →
    (s.ksBegun c.sealed v).physRead 0xFF (unitIssuer c.sealed) (s.get (L.KS_ARG0.ADDR c.sealed)) 32 = (u, d) →
    d.err = false → d.poison = false → NoWait s u → Completes (.measure c v) s (fun t => KsTaken c.sealed 0 t ∧
      t.meas (ksSlotOf v % 8 + 4) = sha256 (s.meas (ksSlotOf v % 8 + 4) ++ d.data))) ∧
  (∀ (c : Issuer) (v : Word) (s : State), Sends s c → KsGo s c.sealed v 9 → c.sealed = true → (∀ n, some n ∈ s.ks.booted → n < 2 ^ 16) →
    Completes (.svnCommit c v true) s (fun t => KsTaken c.sealed 0 t ∧ t.rd R.KS_SVN = BitVec.ofNat 64 t.nv.svn ∧
      (∀ k, k < 4 → bits t.nv.svn (16 * k + 15) (16 * k) = match s.ks.booted[k]? with
        | some (some n) => max (bits s.nv.svn (16 * k + 15) (16 * k)) n
        | _ => bits s.nv.svn (16 * k + 15) (16 * k)) ∧
      SameRegsBut [R.KS_CMD c.sealed, R.KS_RES c.sealed, R.KS_SVN] s t) ∧
    Completes (.svnCommit c v false) s (fun t => KsTaken c.sealed 9 t ∧ t.nv = s.nv)) ∧
  (∀ (c : Issuer) (v : Word) (ok : Bool) (s : State), Sends s c → c.sealed = false →
    (KsGo s c.sealed v 8 → Completes (.measure c v) s (fun t => KsTaken c.sealed 1 t)) ∧
    (KsGo s c.sealed v 9 → Completes (.svnCommit c v ok) s (fun t => KsTaken c.sealed 1 t ∧ t.nv = s.nv))) ∧
  (∀ (c : Issuer) (v : Word) (ok : Bool) (q : KsReq) (s : State), Sends s c → v.getLsbD 63 = true → s.ksReq c.sealed = some q →
    Completes (.gen c v) s (fun t => Refused s t) ∧ Completes (.derive c v) s (fun t => Refused s t) ∧
    Completes (.importKey c v) s (fun t => Refused s t) ∧ Completes (.exportKey c v) s (fun t => Refused s t) ∧
    Completes (.erase c v ok) s (fun t => Refused s t) ∧ Completes (.persist c v ok) s (fun t => Refused s t) ∧
    Completes (.attest c v ok) s (fun t => Refused s t) ∧ Completes (.measure c v) s (fun t => Refused s t) ∧
    Completes (.svnCommit c v ok) s (fun t => Refused s t)) ∧
  (∀ (w : Bool) (st i a : Nat) (b : Bytes) (s : State), s.ksReq w = some ⟨some st, i, b, a⟩ → st < 256 →
    Completes (.ksCommandDone w) s (fun t => t.get (L.KS_RES.READY w) = 1 ∧ t.get (L.KS_RES.STATUS w) = st ∧ t.ksReq w = none ∧
      SameRegsBut [R.KS_RES w] s t)) ∧
  (∀ (c : Issuer) (v : Word) (s : State), Sends s c → v.getLsbD 62 = true → s.get (L.KS_RES.READY c.sealed) = 1 →
    Completes (.ksResAck c v) s (fun t => t.resp = .ok ∧ t.get (L.KS_RES.READY c.sealed) = 0 ∧
      t.get (L.KS_RES.STATUS c.sealed) = 0xFF ∧ SameRegsBut [R.KS_RES c.sealed] s t)) ∧
  (∀ (s : State), s.ks.treeBusy = true → (∀ w q, s.ksReq w = some q → q.status ≠ none ∨ s.nv.tree + 1 < q.index / 2 ^ 20) →
    Completes .attTreeDone s (fun t => t = s.treeStored)) ∧
  (∀ (w : Bool) (q : KsReq) (u : State) (ok : Bool) (s : State), s.ks.treeBusy = true → s.ksReq w = some q → q.status = none →
    q.index / 2 ^ 20 ≤ s.nv.tree + 1 → s.ksReq (!w) = none →
    s.treeStored.physWrite 0xFF (unitIssuer w) q.addr2 (s.treeStored.attRecord w q.index q.input) = (u, ok) → NoWait s u →
    Completes .attTreeDone s (fun t => t.ksReq w = some { q with status := some (if ok then 0 else 6) } ∧ t.mem = u.mem)) ∧
  (∀ (c : Issuer) (v : Word) (u x : State) (d : DevAns) (i : Nat) (ok : Bool) (s : State), Sends s c → KsGo s c.sealed v 7 →
    s.get L.KS_STATUS.IDX_READY = 1 → s.get L.KS_ATT_IDX.NEXT = i → i < 2 ^ 40 →
    (s.ksBegun c.sealed v).physRead 0xFF (unitIssuer c.sealed) (s.get (L.KS_ARG0.ADDR c.sealed)) 96 = (u, d) →
    d.err = false → d.poison = false → i / 2 ^ 20 ≤ s.nv.tree →
    (u.attBegun i).physWrite 0xFF (unitIssuer c.sealed) (s.get (L.KS_ARG1.ADDR2 c.sealed))
      ((u.attBegun i).attRecord c.sealed i d.data) = (x, ok) → NoWait s x → Completes (.attest c v true) s (fun t =>
      t.get L.KS_ATT_IDX.NEXT = i + 1 ∧ t.mem = x.mem ∧
      t.ksReq c.sealed = some ⟨some (if ok then 0 else 6), i, d.data, s.get (L.KS_ARG1.ADDR2 c.sealed)⟩))


/-! ### Cipher engines (14) -/

/-- Cipher commands start (R358 to R365, R369, R371, R372): GO accepts a command that breaks no table and refuses one that is
early or from elsewhere; KEYLOAD, UNWRAP and CLEAR change the key of the context, PROCESS opens its message, SAVE writes its
record and RESTORE takes it back.
Where a point is open it states the model's choice (log entries 107, 110, 112, 115, 116). -/
def Obligations.CipherCommandsStart : Prop :=
  (∀ (c : Issuer) (n : Fin 64) (v : Word) (x : CeCmd) (s : State), Sends s c → CeMay s n c → v.getLsbD 63 = true →
    s.get (L.CE_CTX_STAT.STATE n) ≠ ctxWait → s.get (L.CE_CTX_STAT.STATE n) ≠ ctxRun → s.get (L.CE_CTX_STAT.STATE n) ≠ ctxSusp →
    (∀ y ∈ (s.ceOf (n.val / 16)).cmds, y.ctx ≠ n.val) → (∀ y ∈ (s.ceOf (n.val / 16)).cmds, y.id ≠ (s.ceOf (n.val / 16)).next) →
    x = ⟨(s.ceOf (n.val / 16)).next, none, n.val, v.getLsbD 62 && s.get (L.CE_CTX_CFG.URG_OK n) == 1,
      (List.range 7).map (fun i => (s.rd (R.CE_CMDW n i)).toNat), s.ceIssuer n, c.vi.isSome, false, false, false, 0, false, 0, 0,
      false, 0, s.up⟩ →
    (x.fieldBad (some n.val) = false → Completes (.ceGo c n v) s (fun t => t.resp = .ok ∧
      (t.ceOf (n.val / 16)).cmds = (s.ceOf (n.val / 16)).cmds ++ [x] ∧ (t.ceOf (n.val / 16)).next = (s.ceOf (n.val / 16)).next + 1 ∧
      t.get (L.CE_RESULT.READY n) = 0 ∧ t.get (L.CE_RESULT.DATA n) = 2 ^ 63 - 1 ∧
      ((s.cx n).base ≠ ctxError → t.get (L.CE_CTX_STAT.STATE n) = ctxWait))) ∧
    (x.fieldBad (some n.val) = true → s.get (L.CE_CTX_MSI.EN n) = 0 → Completes (.ceGo c n v) s (fun t =>
      (t.ceOf (n.val / 16)).cmds = (s.ceOf (n.val / 16)).cmds ∧ t.get (L.CE_RESULT.READY n) = 1 ∧
      t.get (L.CE_RESULT.DATA n) = 2 ^ 48 + 2 ^ 40 ∧ t.get (L.CE_EVT.CMD_ERR (n.val / 16)) = 1))) ∧
  (∀ (c : Issuer) (n : Fin 64) (v : Word) (s : State), Sends s c → CeMay s n c → v.getLsbD 63 = true →
    (s.get (L.CE_CTX_STAT.STATE n) = ctxWait ∨ s.get (L.CE_CTX_STAT.STATE n) = ctxRun ∨ s.get (L.CE_CTX_STAT.STATE n) = ctxSusp) →
    Completes (.ceGo c n v) s (fun t => Refused s t ∧ t.ce = s.ce)) ∧
  (∀ (c : Issuer) (n : Fin 64) (v : Word) (s : State), Sends s c → (s.ceOff (n.val / 16) ∨ c.sealed ≠ s.ownerSealed (.ce n)) →
    Completes (.ceGo c n v) s (fun t => Refused s t ∧ t.ce = s.ce)) ∧
  (∀ (e : Fin 4) (x : CeCmd) (s : State), CeHolds s e 1 x → (s.cx x.ctx).base = ctxIdle → x.fromVi = false →
    s.slotKind x.slot ≠ 0 → x.slot ≠ 1 → x.slot ≠ 2 → s.slotUsage x.slot / 2 % 4 ≠ 0 →
    s.ownerSealed (.ks x.slot) = x.issuer.sealed →
    (SMap.get s.slotKey x.slot ≠ [] → Completes (.ceKeyload e true) s (fun t =>
      CeRuns e { x with started := true, fin := true } t ∧
      CeKeyed x.ctx (SMap.get s.slotKey x.slot) (s.slotKind x.slot) (s.slotUsage x.slot) 1 t)) ∧
    Completes (.ceKeyload e false) s (fun t => CeFails e x 1 6 t ∧ CeKeyless x.ctx t ∧ t.get (L.CE_EVT.KEYBUS e) = 1)) ∧
  (∀ (e : Fin 4) (b : Bool) (x : CeCmd) (s : State), CeHolds s e 1 x → (s.cx x.ctx).base = ctxIdle →
    (x.fromVi = true → Completes (.ceKeyload e b) s (fun t => CeFails e x 1 13 t ∧ CeKeyless x.ctx t)) ∧
    (x.fromVi = false → (s.slotKind x.slot = 0 ∨ x.slot = 1 ∨ x.slot = 2 ∨ s.slotUsage x.slot / 2 % 4 = 0) →
      Completes (.ceKeyload e b) s (fun t => CeFails e x 1 5 t ∧ CeKeyless x.ctx t))) ∧
  (∀ (e : Fin 4) (x : CeCmd) (kek : Bytes) (u : State) (d : DevAns) (s : State), CeHolds s e 2 x → (s.cx x.ctx).base = ctxIdle →
    s.ceKek x.ctx = some kek → s.ioRead x.source x.issuer x.src x.len = (u, d) → NoWait s u →
    (d.err = false → d.poison = false → Completes (.ceUnwrap e true) s (fun t =>
      (kwpUnwrap kek d.data = none → CeFails e x 1 8 t ∧ CeKeyless x.ctx t) ∧
      (∀ p, kwpUnwrap kek d.data = some p → attrOk p = none → CeFails e x 1 9 t ∧ CeKeyless x.ctx t) ∧
      (∀ p kind usage key, kwpUnwrap kek d.data = some p → attrOk p = some (kind, usage, key) →
        CeRuns e { x with started := true, fin := true } t ∧ CeKeyed x.ctx key kind usage 2 t))) ∧
    (d.err = false → d.poison = false → Completes (.ceUnwrap e false) s (fun t => CeFails e x 11 0 t ∧ CeKeyless x.ctx t ∧
      (t.cx x.ctx).base = ctxError)) ∧
    ((d.err = true ∨ d.poison = true) → Completes (.ceUnwrap e true) s (fun t => CeFails e x 4 0 t ∧ t.cectx = s.cectx))) ∧
  (∀ (e : Fin 4) (x : CeCmd) (s : State), CeHolds s e 2 x → (s.cx x.ctx).base = ctxIdle → s.ceKek x.ctx = none →
    Completes (.ceUnwrap e true) s (fun t => CeFails e x 1 7 t ∧ t.cectx = s.cectx)) ∧
  (∀ (e : Fin 4) (x : CeCmd) (s : State), CeHolds s e 3 x → Completes (.ceClear e) s (fun t =>
    CeRuns e { x with started := true, fin := true } t ∧ CeKeyless x.ctx t ∧ (t.cx x.ctx).base = ctxIdle ∧
    (t.cx x.ctx).hash = [] ∧ t.get (L.CE_RESULT.READY x.ctx) = 0 ∧ t.get (L.CE_RESULT.DATA x.ctx) = 2 ^ 63 - 1)) ∧
  (∀ (e : Fin 4) (x : CeCmd) (s : State), CeHolds s e 4 x → (s.cx x.ctx).base ≠ ctxError →
    ((s.cx x.ctx).processBad { x with started := true } ≠ 0 → Completes (.ceProcess e) s (fun t =>
      CeFails e x 1 ((s.cx x.ctx).processBad { x with started := true }) t ∧ t.cectx = s.cectx)) ∧
    ((s.cx x.ctx).processBad { x with started := true } = 0 → x.first = false → Completes (.ceProcess e) s (fun t =>
      CeRuns e { x with started := true } t ∧ t.cectx = s.cectx)) ∧
    ((s.cx x.ctx).processBad { x with started := true } = 0 → x.first = true → 4 ≤ x.alg → x.alg ≤ 6 →
      Completes (.ceProcess e) s (fun t => CeRuns e { x with started := true } t ∧ t.cx x.ctx = { s.cx x.ctx with
        alg := x.alg, dir := x.dir, alen := 0, clen := 0, j0 := 0, chain := 0, acc := 0, hash := (algHash x.alg).h0, tail := [] })) ∧
    ((s.cx x.ctx).processBad { x with started := true } = 0 → x.first = true → x.alg = 3 →
      Completes (.ceProcess e) s (fun t => CeRuns e { x with started := true } t ∧ t.cx x.ctx = { s.cx x.ctx with
        alg := 3, dir := x.dir, alen := 0, clen := 0, j0 := 0, chain := 0, acc := 0, hash := [], tail := [] }))) ∧
  (∀ (e : Fin 4) (x : CeCmd) (u : State) (d : DevAns) (s : State), CeHolds s e 4 x → (s.cx x.ctx).base ≠ ctxError →
    (s.cx x.ctx).processBad { x with started := true } = 0 → x.first = true → x.alg = 1 → x.alen = 0 →
    s.ioRead x.source x.issuer x.iv 12 = (u, d) → NoWait s u →
    (d.err = false → d.poison = false → Completes (.ceProcess e) s (fun t => CeRuns e { x with started := true } t ∧
      (t.cx x.ctx).j0 = beNat d.data * 2 ^ 32 + 1 ∧ (t.cx x.ctx).chain = beNat d.data * 2 ^ 32 + 1 ∧ (t.cx x.ctx).acc = 0 ∧
      (t.cx x.ctx).clen = 0 ∧ (t.cx x.ctx).key = (s.cx x.ctx).key)) ∧
    (d.err = true → Completes (.ceProcess e) s (fun t => CeFails e x 4 0 t ∧ t.cectx = s.cectx))) ∧
  (∀ (e : Fin 4) (b : Bool) (x : CeCmd) (s : State), CeHolds s e 5 x →
    ((s.cx x.ctx).base = ctxIdle → Completes (.ceSave e b) s (fun t => CeFails e x 1 2 t ∧ t.mem = s.mem)) ∧
    ((s.cx x.ctx).base = ctxOpen → x.dir = 0 → x.issuer.sealed = false →
      Completes (.ceSave e b) s (fun t => CeFails e x 2 0 t ∧ t.mem = s.mem)) ∧
    ((s.cx x.ctx).base = ctxOpen → x.dir = 1 → s.ceKek x.ctx = none →
      Completes (.ceSave e b) s (fun t => CeFails e x 1 7 t ∧ t.mem = s.mem))) ∧
  (∀ (e : Fin 4) (x : CeCmd) (u w : State) (s : State), CeHolds s e 5 x → (s.cx x.ctx).base = ctxOpen → x.dir = 0 →
    x.issuer.sealed = true → s.outsideOpen x.source x.issuer x.dst 128 = (u, true) →
    u.store x.source x.issuer x.dst ((s.cx x.ctx).record (s.get (L.CE_CTX_STAT.KEY_ID x.ctx)) false) false = (w, true) →
    NoWait s w →
    Completes (.ceSave e true) s (fun t => CeRuns e { x with
      started := true, fin := true, bytes := ((s.cx x.ctx).record (s.get (L.CE_CTX_STAT.KEY_ID x.ctx)) false).length } t ∧
      t.mem = w.mem)) ∧
  (∀ (e : Fin 4) (x : CeCmd) (u : State) (d : DevAns) (s : State), CeHolds s e 6 x → (s.cx x.ctx).base = ctxIdle → x.dir = 0 →
    s.ioRead x.source x.issuer x.src x.len = (u, d) → NoWait s u → d.err = false → d.poison = false →
    Completes (.ceRestore e true) s (fun t =>
      (recordMessage (s.cx x.ctx) d.data = none → CeFails e x 1 10 t ∧ t.cectx = s.cectx) ∧
      (∀ k fl id, recordMessage (s.cx x.ctx) d.data = some (k, fl, id) →
        (id = s.get (L.CE_CTX_STAT.KEY_ID x.ctx) → d.data.length = 128 → CeRuns e { x with started := true, fin := true } t ∧
          t.cx x.ctx = k) ∧
        (id ≠ s.get (L.CE_CTX_STAT.KEY_ID x.ctx) ∨ d.data.length ≠ 128 → CeFails e x 1 10 t ∧ t.cectx = s.cectx)))) ∧
  (∀ (e : Fin 4) (b : Bool) (x : CeCmd) (s : State), CeHolds s e 6 x → (s.cx x.ctx).base = ctxOpen →
    Completes (.ceRestore e b) s (fun t => CeFails e x 1 2 t ∧ t.cectx = s.cectx))

/-- Cipher commands end (R363, R366 to R370): a running PROCESS is suspended for an urgent command and resumes 20 ns after it,
the end of a command reports its result, events and launch, datapaths that disagree lose the key, and ACK clears the result.
Where a point is open it states the model's choice (log entries 111, 112, 114). -/
def Obligations.CipherCommandsEnd : Prop :=
  (∀ (e : Fin 4) (n : Nat) (x y z : CeCmd) (u : State) (s : State), (s.ceOf e).cmds = [x, z] → x.ctx / 16 = e.val →
    x.started = true → x.susp = false → x.op = 4 → x.urgent = false → x.fin = false → z.urgent = true → z.started = false →
    z.susp = false → z.ctx ≠ x.ctx → z.id ≠ x.id → s.ceRun x (n * algBlock x.alg) (n + 1) = (u, y) → y.fin = false →
    NoWait s u →
    Completes (.ceSuspend e n) s (fun t => (t.ceOf e).cmds = [{ y with susp := true, wasSusp := true }, z] ∧ t.mem = u.mem ∧
      t.get (L.CE_CTX_CNT.SUSP x.ctx) = min (s.get (L.CE_CTX_CNT.SUSP x.ctx) + 1) (2 ^ 32 - 1) ∧ t.get (L.CE_EVT.SUSPEND e) = 1 ∧
      t.get (L.CE_STATUS.SUSP_VALID e) = 1 ∧ t.get (L.CE_STATUS.SUSP_CTX e) = x.ctx % 16 ∧
      t.get (L.CE_CTX_STAT.STATE x.ctx) = ctxSusp)) ∧
  (∀ (e : Fin 4) (x : CeCmd) (s : State), s.ceOn e → (s.ceOf e).cmds = [x] → x.ctx / 16 = e.val → x.started = true →
    x.susp = true → Completes (.ceResume e) s (fun t => CeRuns e { x with susp := false } t ∧
      (s.ceOf e).urgentEnd + 20 ≤ t.up ∧ t.get (L.CE_STATUS.SUSP_VALID e) = 0)) ∧
  (∀ (e : Fin 4) (x y : CeCmd) (u : State) (s : State), (s.ceOf e).cmds = [x] → x.ctx / 16 = e.val → x.started = true →
    x.susp = false → x.op = 4 → x.fin = false → s.ceComplete x = (u, y) → NoWait s u → y.fin = true → y.status = 0 →
    s.get (L.CE_CTX_MSI.EN x.ctx) = 0 → Completes (.ceCommandEnd e none) s (fun t => (t.ceOf e).cmds = [] ∧ t.mem = u.mem ∧
      CeEnded y t ∧ (t.cx x.ctx).base = (if x.last then ctxIdle else ctxOpen) ∧ t.get (L.CE_STATUS.RUNNING e) = 0 ∧
      t.get (L.CE_CNT.CMDS e) = min (s.get (L.CE_CNT.CMDS e) + 1) (2 ^ 32 - 1))) ∧
  (∀ (e : Fin 4) (x : CeCmd) (b : Option Nat) (s : State), (s.ceOf e).cmds = [x] → x.ctx / 16 = e.val → x.started = true →
    x.susp = false → x.fin = true → x.op ≠ 4 → s.get (L.CE_CTX_MSI.EN x.ctx) = 0 → Completes (.ceCommandEnd e b) s (fun t =>
      (t.ceOf e).cmds = [] ∧ t.mem = s.mem ∧ t.cectx = s.cectx ∧ CeEnded x t ∧
      t.get (L.CE_CTX_CNT.CMDS x.ctx) = min (s.get (L.CE_CTX_CNT.CMDS x.ctx) + 1) (2 ^ 32 - 1) ∧
      (x.status ≠ 0 → t.get (L.CE_EVT.CMD_ERR e) = 1) ∧ (x.status = 10 → t.get (L.CE_EVT.AUTH_FAIL e) = 1) ∧
      (∀ l, x.launch = some l → t.launches =
        s.launches.map (fun y => if y.id = l then { y with started := true, status := some x.status } else y)) ∧
      (x.launch = none → t.launches = s.launches))) ∧
  (∀ (e : Fin 4) (n : Nat) (x y : CeCmd) (u : State) (s : State), (s.ceOf e).cmds = [x] → x.ctx / 16 = e.val → x.started = true →
    x.susp = false → x.op = 4 → x.fin = false → s.ceRun x (min x.len (64 * n)) (x.len / algBlock x.alg + 2) = (u, y) →
    y.fin = false → NoWait s u → s.get (L.CE_CTX_MSI.EN x.ctx) = 0 →
      Completes (.ceCommandEnd e (some n)) s (fun t => (t.ceOf e).cmds = [] ∧
      t.mem = u.mem ∧ CeKeyless x.ctx t ∧ (t.cx x.ctx).base = ctxError ∧ CeEnded { y with status := 11, detail := 0 } t ∧
      t.get (L.CE_EVT.MISMATCH e) = 1 ∧ t.get (L.CE_EVT.CMD_ERR e) = 1 ∧ t.get (L.CE_CTX_STAT.STATE x.ctx) = ctxError)) ∧
  (∀ (c : Issuer) (n : Fin 64) (v : Word) (s : State), Sends s c → CeMay s n c → v.getLsbD 0 = true → Completes (.ceAck c n v) s (fun t =>
    t.resp = .ok ∧ t.get (L.CE_RESULT.READY n) = 0 ∧ t.get (L.CE_RESULT.DATA n) = 2 ^ 63 - 1 ∧ SameRegsBut [R.CE_RESULT n] s t)) ∧
  (∀ (c : Issuer) (n : Fin 64) (v : Word) (s : State), Sends s c → (s.ceOff (n.val / 16) ∨ c.sealed ≠ s.ownerSealed (.ce n)) →
    Completes (.ceAck c n v) s (fun t => Refused s t))


/-! ### External interfaces (15) -/

/-- PCI Express (R375 to R381): requests from the link reach their function and are completed, accesses of cores to the window
leave as requests, completions, timeouts and a link that goes down end them, and a link comes up at no more than its lanes.
Where a point is open it states the model's choice (log entries 117 to 120). -/
def Obligations.PcieCarriesRequests : Prop :=
  (∀ (c : Fin 2) (q : Tlp) (s : State), s.pciLanes c = true → s.pciExit c ≠ none → tlpBad q = true →
    Completes (.pcieInboundTlp c q) s (fun t => t.get (L.PCI_EVT.PEER_VIOL c) = 1 ∧ t.out = s.out ++ [.pciError c] ∧
      t.get (L.PCI_CNT.VIOL c) = min (s.get (L.PCI_CNT.VIOL c) + 1) (2 ^ 32 - 1) ∧ t.mem = s.mem ∧
      SameRegsButRecords [R.PCI_CNT c, R.PCI_EVT c] s t)) ∧
  (∀ (c : Fin 2) (q : Tlp) (m : Nat) (s : State), s.pciLanes c = true → s.pciExit c ≠ none → tlpBad q = false →
    q.kind = .read m → s.get (L.PCI_CFG.ROLE c) = 1 → (s.get (L.PCI_FN_CFG.EN c q.fn) = 0 ∨ 0x100000 ≤ q.addr) →
    Completes (.pcieInboundTlp c q) s (fun t => t.get (L.PCI_EVT.NO_FN c) = 1 ∧ t.out = s.out ++ [.pciCpl c 1 []] ∧
      SameRegsButRecords [R.PCI_EVT c] s t)) ∧
  (∀ (c : Fin 2) (q : Tlp) (n a m : Nat) (u : State) (d : DevAns) (s : State), s.pciLanes c = true → s.pciExit c ≠ none →
    tlpBad q = false → q.kind = .read m → PciReaches s c q n a → s.pciFnOpen n = true →
    s.ioRead (pciSrc c) (s.pciIssuer n) a m = (u, d) → NoWait s u → d.err = false → d.poison = false →
    Completes (.pcieInboundTlp c q) s (fun t => t.out = u.out ++ [.pciCpl c 0 d.data] ∧ t.mem = u.mem)) ∧
  (∀ (c : Fin 2) (q : Tlp) (n a : Nat) (b : Bytes) (u : State) (s : State), s.pciLanes c = true → s.pciExit c ≠ none →
    tlpBad q = false → q.kind = .write b → b.length ≠ 4 → PciReaches s c q n a → s.pciFnOpen n = true →
    s.store (pciSrc c) (s.pciIssuer n) a b false = (u, true) → NoWait s u → Completes (.pcieInboundTlp c q) s (fun t => t = u)) ∧
  (∀ (c : Fin 2) (q : Tlp) (n a v cmp : Nat) (op : Fin 3) (u w : State) (d : DevAns) (s : State), s.pciLanes c = true →
    s.pciExit c ≠ none → tlpBad q = false → q.kind = .atomic op true v cmp → PciReaches s c q n a → s.pciFnOpen n = true →
    s.ioRead (pciSrc c) (s.pciIssuer n) a 8 = (u, d) → d.err = false → d.poison = false → NoWait s w →
    u.store (pciSrc c) (s.pciIssuer n) a (bytesLE 8 ((if op = 0 then ofBytesLE d.data + v else if op = 1 then v
      else if ofBytesLE d.data = cmp % 2 ^ 64 then v else ofBytesLE d.data) % 2 ^ 64)) false = (w, true) →
    Completes (.pcieInboundTlp c q) s (fun t => t.out = w.out ++ [.pciCpl c 0 d.data] ∧ t.mem = w.mem)) ∧
  (∀ (c : Fin 2) (q : Tlp) (n a : Nat) (s : State), s.pciLanes c = true → s.pciExit c ≠ none → PciReaches s c q n a →
    (q.kind = .config true → s.pciFnOpen n = true → Completes (.pcieInboundTlp c q) s (fun t =>
      t.out = s.out ++ [.pciCpl c 0 []] ∧ SameRegsBut [] s t)) ∧
    (q.kind = .config false → s.pciFnOpen n = true → Completes (.pcieInboundTlp c q) s (fun t =>
      t.free = s.free + 1 ∧ (∃ b, t.out = s.out ++ [.pciCpl c 0 b] ∧ b.length = 4) ∧ SameRegsBut [] s t)) ∧
    (q.kind = .config false → s.pciFnOpen n = false → Completes (.pcieInboundTlp c q) s (fun t =>
      t.out = s.out ++ [.pciCpl c 2 []] ∧ SameRegsBut [] s t))) ∧
  (∀ (i : Issuer) (a : PAddr) (c f off p m : Nat) (b : Bytes) (s : State), PciWindow s i a c f off → s.agentIn i = true →
    s.pciLanes c = true → s.pciFnOpen (8 * c + f) = true → s.pciExit c = some p → 0 < m → m ≤ 8 → off + m ≤ 2 ^ 36 →
    (b.length = m → s.pmpStops i a.toNat m pmpW = false → Completes (.pcieWindowAccess i a (.store b)) s (fun t => t.resp = .ok ∧
      t.pciOpen = s.pciOpen ∧
      t.out = s.out ++ [.pciReq c p f (s.get (L.PCI_FN_OB.BASE c f) * 2 ^ 36 + off) none (.inl b)] ∧ SameRegsBut [] s t)) ∧
    ((∀ r ∈ s.pciOpen, r.sent = true ∧ r.tag ≠ s.pciTag) → s.pciCount c < 512 → s.pmpStops i a.toNat m pmpR = false →
      Completes (.pcieWindowAccess i a (.load m)) s (fun t => t.resp = .ok ∧ t.pciTag = s.pciTag + 1 ∧
        t.pciOpen = s.pciOpen ++ [⟨c, p, f, s.pciTag, s.get (L.PCI_FN_OB.BASE c f) * 2 ^ 36 + off, m, [],
          s.tagged i, .core i.agent, true, s.up⟩] ∧
        t.out = s.out ++ [.pciReq c p f (s.get (L.PCI_FN_OB.BASE c f) * 2 ^ 36 + off) (some s.pciTag) (.inr m)] ∧
        SameRegsBut [] s t))) ∧
  (∀ (i : Issuer) (a : PAddr) (k : RemoteKind) (s : State), a.toNat / 2 ^ 40 ≠ 2 → s.agentIn i = true →
    Completes (.pcieWindowAccess i a k) s
    (fun t => t.resp = .accessFault ∧ t.pciOpen = s.pciOpen ∧ t.out = s.out ∧ SameRegsBut [] s t)) ∧
  (∀ (i : Issuer) (a : PAddr) (c f off m : Nat) (s : State), PciWindow s i a c f off → s.agentIn i = true → 0 < m → m ≤ 8 →
    off + m ≤ 2 ^ 36 → (s.pciLanes c = false ∨ s.pciExit c = none) → Completes (.pcieWindowAccess i a (.load m)) s
    (fun t => t.resp = .accessFault ∧ t.out = s.out ∧ SameRegsBut [] s t)) ∧
  (∀ (c : Fin 2) (r : PciReq) (h : Agent) (b : List Nat) (s : State), s.pciOpen = [r] → r.ctrl = c.val → r.sent = true →
    r.user = .core h → (∀ v, r.issuer.vi = some v → s.viGen v = r.issuer.gen) →
    (r.len ≤ (r.got ++ b).length → (∀ x ∈ b, x < 256) → Completes (.pcieCompletionRx c r.tag true b) s (fun t =>
      t.resp = .data (BitVec.ofNat 64 (ofBytesLE ((r.got ++ b).take r.len))) ∧ t.pciOpen = [] ∧ SameRegsBut [] s t)) ∧
    ((r.got ++ b).length < r.len → (∀ x ∈ b, x < 256) → Completes (.pcieCompletionRx c r.tag true b) s (fun t =>
      t.resp = s.resp ∧ t.pciOpen = [{ r with got := r.got ++ b }] ∧ SameRegsBut [] s t)) ∧
    Completes (.pcieCompletionRx c r.tag false b) s (fun t => t.resp = .accessFault ∧ t.pciOpen = [] ∧ SameRegsBut [] s t) ∧
    Completes (.pcieCto c r.tag) s (fun t => t.resp = .accessFault ∧ t.pciOpen = [] ∧ t.get (L.PCI_EVT.CTO c) = 1 ∧
      r.sentAt + 1000 * s.get (L.PCI_CFG.CTO c) ≤ t.up ∧ SameRegsButRecords [R.PCI_EVT c] s t)) ∧
  (∀ (c : Fin 2) (r : PciReq) (l loc : Nat) (b : List Nat) (s : State), s.pciOpen = [r] → r.ctrl = c.val → r.sent = true →
    r.user = .launch l loc → (∀ v, r.issuer.vi = some v → s.viGen v = r.issuer.gen) → Completes (.pcieCompletionRx c r.tag false b) s
      (fun t => t.pciOpen = [] ∧ t.launches =
        s.launches.map (fun y => if y.id = l then { y with started := true, status := some 4 } else y))) ∧
  (∀ (c p : Fin 2) (s : State), s.pciUp c p = true → Completes (.pcieLinkDown c p) s (fun t => t.pciUp c p = false ∧
    t.get (L.PCI_EVT.LINK_DOWN c) = 1 ∧ SameRegsButRecords [R.PCI_STATUS c, R.PCI_EVT c] s t ∧
    (∀ r h, s.pciOpen = [r] → r.ctrl = c.val → r.port = p.val → r.user = .core h →
      (∀ v, r.issuer.vi = some v → s.viGen v = r.issuer.gen) → t.resp = .accessFault ∧ t.pciOpen = []))) ∧
  (∀ (c p : Fin 2) (w r : Fin 5) (m : Nat) (s : State), s.pciPortLanes c p = some m → s.pciLanes c = true → w.val ≤ m →
    s.get L.CLK_REF.PCI_REF_OK = 1 → s.txIdle = false → Completes (.pcieLinkUp c p w r) s (fun t => t.pciUp c p = true ∧
      t.pciPort c p / 16 % 8 = w.val ∧ t.pciPort c p % 8 = r.val ∧ SameRegsBut [R.PCI_STATUS c] s t))

/-- Ethernet and the management port (R384 to R390): a good frame goes to the queue of its function or is dropped and counted, a
frame leaves when its lane is free and its gate stays open, gate lists advance and restart with the frame, a lane without
sync reports it, and links change.
Where a point is open it states the model's choice (log entries 122 to 124). -/
def Obligations.EthernetCarriesFrames : Prop :=
  (∀ (l : Fin 4) (f : List Nat) (s : State), s.ethUp l = true → Completes (.ethFrameRx l true f) s (fun t =>
    t.get (L.ETH_LANE_CNT.FCS_ERR l) = min (s.get (L.ETH_LANE_CNT.FCS_ERR l) + 1) (2 ^ 16 - 1) ∧ t.queues = s.queues ∧
    SameRegsBut [R.ETH_LANE_CNT l] s t)) ∧
  (∀ (l : Fin 4) (f : List Nat) (s : State), s.ethUp l = true → 64 ≤ f.length → f.length ≤ 9216 → (∀ x ∈ f, x < 256) →
    s.ethFnOpen (s.ethFunction f) = false → Completes (.ethFrameRx l false f) s (fun t =>
      t.get (L.ETH_LANE_CNT.RX_DROP l) = min (s.get (L.ETH_LANE_CNT.RX_DROP l) + 1) (2 ^ 32 - 1) ∧
      t.get L.ETH_EVT.RX_DROP = 1 ∧ t.queues = s.queues ∧
      (asType f = some 0 → t.get (L.ETH_TS.TIME l) = (s.tb.ns % 2 ^ 48 * 2 ^ 16 + s.visFrac) % 2 ^ 64 ∧
        (t.ethLane l).syncAt = s.up) ∧
      SameRegsButRecords [R.ETH_LANE_CNT l, R.ETH_EVT, R.ETH_TS l] s t)) ∧
  (∀ (l : Fin 4) (f : List Nat) (q : Nat) (u : State) (ok : Bool) (s : State), s.ethUp l = true → 64 ≤ f.length →
    f.length ≤ 9216 → (∀ x ∈ f, x < 256) → asType f = none → s.ethFnOpen (s.ethFunction f) = true →
    q = s.get (L.ETH_FN_CFG.RXQ (s.ethFunction f)) + frameClass f →
    s.ownerSealed (.queue q) = s.ownerSealed (.eth (s.ethFunction f)) →
    (s.viOf (.eth (s.ethFunction f)) = none ∨ s.viOf (.queue q) = s.viOf (.eth (s.ethFunction f))) →
    s.qArrive q (0x100 + l.val) f.length f = (u, ok) →
    (ok = true → Completes (.ethFrameRx l false f) s (fun t => t = u)) ∧
    (ok = false → Completes (.ethFrameRx l false f) s (fun t => t.queues = u.queues ∧ t.get L.ETH_EVT.RX_DROP = 1 ∧
      t.get (L.ETH_LANE_CNT.RX_DROP l) = min (u.get (L.ETH_LANE_CNT.RX_DROP l) + 1) (2 ^ 32 - 1)))) ∧
  (∀ (l : Fin 4) (p : Fin 8) (f q n : Nat) (u : State) (es : List QEntry) (b : Bytes) (s : State), s.ethUp l = true →
    (s.ethLane l).txEnd ≤ s.up → s.txIdle = false → (∀ k, p.val < k → k < 8 → s.txSource l k = none) →
    s.txSource l p = some (f, q, n) → s.takeEntries q n = (u, es) → NoWait s u → b = es.flatMap (fun x => x.data.take x.bytes) →
    (b.length ≤ 9216 → s.gateHolds p (100 * s.tb.ns + s.wireTime l b.length) 200 (s.gateNow l) = true →
      Completes (.ethFrameTx l) s (fun t => t.out = u.out ++ [.ethFrame l p b] ∧ t.queues = u.queues ∧
        (t.ethLane l).txEnd = t.up + ((b.length + 20) * (if s.get (L.ETH_LANE_CFG.SPEED l) = 1 then 32 else 80) + 99) / 100)) ∧
    (9216 < b.length → Completes (.ethFrameTx l) s (fun t => t.out = u.out ∧ t.queues = u.queues ∧
      t.get (L.ETH_LANE_CNT.TX_BAD l) = min (u.get (L.ETH_LANE_CNT.TX_BAD l) + 1) (2 ^ 16 - 1)))) ∧
  (∀ (l : Fin 4) (s : State), (s.ethUp l = false ∨ s.up < (s.ethLane l).txEnd) → Completes (.ethFrameTx l) s (fun t => t = s)) ∧
  (∀ (l : Fin 4) (n k : Nat) (s : State), s.ethList l = some n → (s.ethLane l).entry = some k →
    (∀ r, s.nextCycle l = some r → (s.ethLane l).entryAt + s.gateTime n k < r) → Completes (.gateEntryAdvance l) s (fun t =>
      t.ethLane l = { s.ethLane l with
        entry := some ((k + 1) % max 1 (s.get (L.ETH_GATE_LIST.COUNT n)))
        entryAt := (s.ethLane l).entryAt + s.gateTime n k } ∧ SameRegsButRecords [] s t)) ∧
  (∀ (l : Fin 4) (n : Nat) (s : State), s.ethList l = some n → s.ticking → (s.ethLane l).cycleOf ≠ some s.tickTime →
    s.tb.ns ≤ s.tickTime + (s.ethLane l).base + 1 → Completes (.gateCycleRestart l) s (fun t => t.ethLane l = { s.ethLane l with
      entry := some 0, entryAt := s.tickTime + (s.ethLane l).base, cycleOf := some s.tickTime } ∧ SameRegsButRecords [] s t)) ∧
  (∀ (l : Fin 4) (s : State), s.get (L.ETH_LANE_CFG.AS_ROLE l) = 2 → Completes (.asSyncTimeout l) s (fun t =>
    t.get L.ETH_EVT.AS_TMO = 1 ∧ (s.ethLane l).syncAt + 3 * s.syncInterval l ≤ t.up ∧ (t.ethLane l).syncAt = t.up ∧
    SameRegsButRecords [R.ETH_EVT] s t)) ∧
  (∀ (l : Fin 4) (s : State), s.get (L.ETH_LANE_CFG.EN l) = 1 → s.txIdle = false → (s.get L.ETH_STATUS.LINK).testBit l = false →
    Completes (.ethLinkChange l true) s (fun t => (t.get L.ETH_STATUS.LINK).testBit l = true ∧ t.get L.ETH_EVT.LINK = 1 ∧
      (∀ k : Fin 4, k ≠ l → (t.get L.ETH_STATUS.LINK).testBit k = (s.get L.ETH_STATUS.LINK).testBit k) ∧
      SameRegsButRecords [R.ETH_STATUS, R.ETH_EVT] s t)) ∧
  (∀ (l : Fin 4) (s : State), (s.get L.ETH_STATUS.LINK).testBit l = true → Completes (.ethLinkChange l false) s (fun t =>
    (t.get L.ETH_STATUS.LINK).testBit l = false ∧ t.get L.ETH_EVT.LINK = 1 ∧
    SameRegsButRecords [R.ETH_STATUS, R.ETH_EVT] s t)) ∧
  (∀ (b : Bool) (f : List Nat) (s : State), s.get L.MGT_CFG.EN = 1 → s.get L.MGT_STATUS.LINK = 1 →
    Completes (.mgtFrame b f) s (fun t => t.out = s.out ++ [.mgtFrame b f] ∧ SameRegsBut [] s t)) ∧
  (∀ (b : Bool) (f : List Nat) (s : State), s.get L.MGT_STATUS.LINK = 0 → Completes (.mgtFrame b f) s (fun t => t = s)) ∧
  (∀ (s : State), s.get L.MGT_CFG.EN = 1 → s.txIdle = false → Completes (.mgtLinkChange true) s (fun t =>
    t.get L.MGT_STATUS.LINK = 1 ∧ SameRegsBut [R.MGT_STATUS] s t)) ∧
  (∀ (s : State), Completes (.mgtLinkChange false) s (fun t => t.get L.MGT_STATUS.LINK = 0 ∧ SameRegsBut [R.MGT_STATUS] s t))

/-! ### Power, clocks and reset (16, 17) -/

/-- Power actions (R402, R404, R115, R326): the controller takes up the oldest request of a domain or answers it at once; an
off action stops every hart of the die; at its end the domain has its state, DOM_CHG is set and the next request stands first;
a cap launch sets the cap; an acknowledgement clears the result.
Where a point is open it states the model's choice (log entries 126 to 128). -/
def Obligations.PowerActionsMoveTheDomains : Prop :=
  (∀ (n : Fin 34) (a : Nat) (i : Instr) (r : PwrReq) (rest : List PwrReq) (s : State),
    (a, i) ∈ [(0, Instr.powerOnAction n), (1, .powerOffAction n), (2, .clockGateAction n), (3, .clockUngateAction n)] →
    s.pwrReqs n = r :: rest → r.started = false → r.action = a → r.by_ ≠ .dieReset → s.pwrTurn r.by_ = true →
    s.actionWaits n a = false → s.actionJudge n a = none → Completes i s (fun t => t.pwrReqs n = { r with started := true } :: rest ∧
      t.get (L.PWR_DOM.BUSY n) = 1 ∧ t.domState n = s.domState n ∧
      (a = 1 → n.val < 24 → n.val % 2 = 0 → ∀ k, k < 18 → (t.hartSt (18 * (n.val / 2) + k)).run = .held))) ∧
  (∀ (n : Fin 34) (a st : Nat) (i : Instr) (r : PwrReq) (rest : List PwrReq) (w : Bool) (s : State),
    (a, i) ∈ [(0, Instr.powerOnAction n), (1, .powerOffAction n), (2, .clockGateAction n), (3, .clockUngateAction n)] →
    s.pwrReqs n = r :: rest → r.started = false → r.action = a → r.by_ = .cmd w → s.actionWaits n a = false →
    s.actionJudge n a = some st → st < 256 → Completes i s (fun t => t.pwrReqs n = rest ∧ t.domState n = s.domState n ∧
      t.get (L.PWR_RES.READY w) = 1 ∧ t.get (L.PWR_RES.STATUS w) = st ∧ t.hart = s.hart ∧
      SameRegsButRecords [R.PWR_DOM n, R.PWR_RES w, R.PWR_EVT] s t)) ∧
  (∀ (n : Fin 34) (r : PwrReq) (rest : List PwrReq) (w : Bool) (s : State), s.pwrReqs n = r :: rest → r.started = true →
    r.by_ = .cmd w → (s.actionEnd n r.action).2 = true → s.pwr.rst = none → Completes (.powerActionDone n) s (fun t =>
      t.domState n = (if r.action = 1 then 0 else if r.action = 2 then 2 else 1) ∧ t.pwrReqs n = rest ∧
      t.get (L.PWR_DOM.BUSY n) = (if rest = [] then 0 else 1) ∧ t.get L.PWR_EVT.DOM_CHG = 1 ∧
      t.get (L.PWR_RES.READY w) = 1 ∧ t.get (L.PWR_RES.STATUS w) = 0)) ∧
  (∀ (id : Nat) (l : Launch) (s : State), s.findLaunch id = some l → l.target = 0x70 → l.status = none →
    bits (l.desc.getD 1 0) 11 8 = 4 → bits (l.desc.getD 2 0) 15 0 < 512 → s.firstPending l = true →
    Completes (.setCapAction id) s (fun t =>
      t.get L.PWR_CAP.CAP = (if s.pwr.capAt = some (s.elapseUntil l.acceptAt).up then s.get L.PWR_CAP.CAP
        else bits (l.desc.getD 2 0) 15 0) ∧ t.get L.PWR_CAP.KEEP = s.get L.PWR_CAP.KEEP ∧
      t.findLaunch id = some { l with started := true, status := some 0 } ∧ SameRegsBut [R.PWR_CAP] s t)) ∧
  (∀ (c : Issuer) (v : Word) (s : State), Sends s c → c.vi = none → v.getLsbD 62 = true → s.get (L.PWR_RES.READY c.sealed) = 1 →
    Completes (.pwrResAck c v) s (fun t => t.resp = .ok ∧ t.get (L.PWR_RES.READY c.sealed) = 0 ∧
      t.get (L.PWR_RES.STATUS c.sealed) = 0xFF ∧ SameRegsBut [R.PWR_RES c.sealed] s t)) ∧
  (∀ (c : Issuer) (v : Word) (s : State), Sends s c → c.vi ≠ none → Completes (.pwrResAck c v) s (fun t => Refused s t))

/-- Power capping (R408, R409): above the cap the eligible die with the lowest selection, the highest number of several,
slows by one step; with none the cap is unmet; below it for ten milliseconds the die with the highest step, the lowest number
of several, is raised; the measurement keeps one hundred samples.
Where a point is open it states the model's choice (log entry 129). -/
def Obligations.TheCapSlowsAndRaisesDies : Prop :=
  (∀ (d : Nat) (s : State), d < 12 → s.get L.PWR_CAP_STAT.THERMAL = 0 → 10 * s.get L.PWR_CAP.CAP < s.get L.PWR_IN.POWER →
    (s.get L.PWR_CAP.KEEP).testBit d = false → s.domState (2 * d) = 1 → max (s.capStep d) (s.get (L.CLK_DOM.FSEL d)) < 3 →
    (∀ e, e < 12 → (s.get L.PWR_CAP.KEEP).testBit e = false → s.domState (2 * e) = 1 →
      max (s.capStep e) (s.get (L.CLK_DOM.FSEL e)) < 3 →
      max (s.capStep d) (s.get (L.CLK_DOM.FSEL d)) ≤ max (s.capStep e) (s.get (L.CLK_DOM.FSEL e)) ∧
      (max (s.capStep d) (s.get (L.CLK_DOM.FSEL d)) = max (s.capStep e) (s.get (L.CLK_DOM.FSEL e)) → e ≤ d)) →
    Completes .capAdjust s (fun t => t.capStep d = s.capStep d + 1 ∧ (∀ e, e < 12 → e ≠ d → t.capStep e = s.capStep e) ∧
      t.get (L.CLK_DOM.EFF d) = max (s.capStep d + 1) (s.get (L.CLK_DOM.FSEL d)) ∧
      t.get (L.CLK_DOM.FREQ d) = pipeClock (t.get (L.CLK_DOM.EFF d)) ∧ t.pwr.below = 0 ∧
      SameRegsBut [R.PWR_CAP_STAT, R.CLK_DOM d] s t)) ∧
  (∀ (s : State), s.get L.PWR_CAP_STAT.THERMAL = 0 → 10 * s.get L.PWR_CAP.CAP < s.get L.PWR_IN.POWER →
    (∀ e, e < 12 → (s.get L.PWR_CAP.KEEP).testBit e = true ∨ s.domState (2 * e) ≠ 1 ∨
      3 ≤ max (s.capStep e) (s.get (L.CLK_DOM.FSEL e))) →
    Completes .capAdjust s (fun t => t.get L.PWR_CAP_STAT.UNMET = 1 ∧ t.get L.PWR_EVT.CAP_UNMET = 1 ∧ t.pwr.below = 0 ∧
      t.get L.PWR_CAP_STAT.STEP = s.get L.PWR_CAP_STAT.STEP ∧ SameRegsButRecords [R.PWR_CAP_STAT, R.PWR_EVT] s t)) ∧
  (∀ (d : Nat) (s : State), d < 12 → s.get L.PWR_CAP_STAT.THERMAL = 0 → s.get L.PWR_IN.POWER < 10 * (s.get L.PWR_CAP.CAP - 10) →
    9 ≤ s.pwr.below → s.capStep d ≠ 0 → (∀ e, e < 12 → s.capStep e ≤ s.capStep d ∧ (s.capStep e = s.capStep d → d ≤ e)) →
    Completes .capAdjust s (fun t => t.capStep d = s.capStep d - 1 ∧ (∀ e, e < 12 → e ≠ d → t.capStep e = s.capStep e) ∧
      t.get L.PWR_CAP_STAT.UNMET = 0 ∧ t.pwr.below = 0 ∧ SameRegsBut [R.PWR_CAP_STAT, R.CLK_DOM d] s t)) ∧
  (∀ (s : State), s.get L.PWR_CAP_STAT.THERMAL = 0 → s.get L.PWR_IN.POWER < 10 * (s.get L.PWR_CAP.CAP - 10) →
    s.pwr.below < 9 → Completes .capAdjust s (fun t => t.pwr.below = s.pwr.below + 1 ∧ t.get L.PWR_CAP_STAT.UNMET = 0 ∧
      t.get L.PWR_CAP_STAT.STEP = s.get L.PWR_CAP_STAT.STEP ∧ SameRegsBut [R.PWR_CAP_STAT] s t)) ∧
  (∀ (u i : Nat) (s : State), Completes (.powerMeasure u i) s (fun t =>
    t.pwr.samples = ((u * i) :: s.pwr.samples).take 100 ∧ t.get L.PWR_IN.VOLTAGE = min u 0xFFFF ∧
    t.get L.PWR_IN.CURRENT = min i 0xFFFF ∧
    t.get L.PWR_IN.POWER = min (t.pwr.samples.foldl (· + ·) 0 / (t.pwr.samples.length * 10000)) 0xFFFF ∧
    SameRegsBut [R.PWR_IN] s t))

/-- Thermal limits and the supply (R398, R407, R410, R411): the highest reading gives TJ and the state; WARN, HOT and TRIP act
at their thresholds; a lost clock or lock clears its bit and sets its event, and a returning clock sets it again.
Where a point is open it states the model's choice (log entry 130). -/
def Obligations.ThermalLimitsAndClocks : Prop :=
  (∀ (temps : List Int) (x : Int) (s : State), x ∈ temps → temps.length ≤ 56 → (∀ y, y ∈ temps → y ≤ x) → -2 ^ 15 ≤ x → x < 2 ^ 15 →
    Completes (.thermalRead temps) s (fun t => t.get L.PWR_THERM.TJ = toSigned 16 x ∧
      temps[t.get L.PWR_THERM.SENSOR]? = some x ∧
      t.get L.PWR_THERM.STATE = (if (thermLimits (s.get L.PWR_THERM.GRADE)).2.2.1 ≤ x then 2
        else if (thermLimits (s.get L.PWR_THERM.GRADE)).2.1 ≤ x then 1 else 0) ∧
      ((thermLimits (s.get L.PWR_THERM.GRADE)).2.1 ≤ x → t.pwr.thermN = true ∧ t.get L.PWR_EVT.THERM_WARN = 1) ∧
      ((thermLimits (s.get L.PWR_THERM.GRADE)).2.2.1 ≤ x → t.get L.PWR_EVT.THERM_HOT = 1) ∧
      (x ≤ (thermLimits (s.get L.PWR_THERM.GRADE)).2.1 - 48 → t.pwr.thermN = false) ∧
      ((thermLimits (s.get L.PWR_THERM.GRADE)).2.2.1 ≤ x → t.get L.PWR_CAP_STAT.THERMAL = 1) ∧
      (x ≤ (thermLimits (s.get L.PWR_THERM.GRADE)).2.2.1 - 80 → t.get L.PWR_CAP_STAT.THERMAL = 0) ∧
      (x < (thermLimits (s.get L.PWR_THERM.GRADE)).1 → t.get L.PWR_EVT.TJ_LOW = 1) ∧
      ((thermLimits (s.get L.PWR_THERM.GRADE)).2.2.2 ≤ x → t.faultN = true ∧ t.txIdle = true ∧ t.pwr.phase = .tripped ∧
        ∀ n, n < 34 → n ≠ 24 → t.domState n = 0) ∧
      (x < (thermLimits (s.get L.PWR_THERM.GRADE)).2.2.2 → t.faultN = s.faultN ∧ t.txIdle = s.txIdle ∧
        t.pwr.phase = s.pwr.phase ∧ SameRegsButRecords [R.PWR_THERM, R.PWR_EVT, R.PWR_CAP_STAT] s t))) ∧
  (∀ (s : State), s.get L.CLK_REF.REF_OK = 1 → Completes .refclkLoss s (fun t => t.get L.CLK_REF.REF_OK = 0 ∧
    t.get L.CLK_EVT.REF_LOSS = 1 ∧ SameRegsButRecords [R.CLK_REF, R.CLK_EVT] s t)) ∧
  (∀ (s : State), s.get L.CLK_REF.PCI_REF_OK = 1 → Completes .pciRefclkLoss s (fun t => t.get L.CLK_REF.PCI_REF_OK = 0 ∧
    t.get L.CLK_EVT.PCI_REF_LOSS = 1 ∧ ∀ c, c < 2 → ∀ p, p < 2 → t.pciUp c p = false)) ∧
  (∀ (s : State), Completes (.refclkReturn true) s (fun t => t.get L.CLK_REF.PCI_REF_OK = 1 ∧ SameRegsBut [R.CLK_REF] s t)) ∧
  (∀ (s : State), s.pwr.phase = .on → Completes (.refclkReturn false) s (fun t => t.get L.CLK_REF.REF_OK = 1 ∧
    SameRegsBut [R.CLK_REF] s t)) ∧
  (∀ (n : Fin 22) (s : State), s.get (L.CLK_DOM.LOCK n) = 1 → Completes (.pllUnlock n) s (fun t =>
    t.get (L.CLK_DOM.LOCK n) = 0 ∧ t.get L.CLK_EVT.UNLOCK = 1 ∧ SameRegsButRecords [R.CLK_DOM n, R.CLK_EVT] s t)) ∧
  (∀ (s : State), Completes .vinLow s (fun t => t.get L.PWR_EVT.VIN_LOW = 1 ∧ SameRegsButRecords [R.PWR_EVT] s t))

/-- The package resets and the start-up sequence (R400, R411, R414 to R418, R351): each trigger gives the package reset with
its cause; a supply hold ends with its bit; RESET_N holds the package until it rises; start-up goes through its delay, the
soft start and the reference clock to the release of the hub.
Where a point is open it states the model's choice (log entries 9, 131, 133 to 135). -/
def Obligations.PackageResetsAndStartUp : Prop :=
  (∀ (s : State), s.pwr.phase ≠ .unpowered →
    Completes .powerFail s (fun t => AfterPackageReset 0 s t ∧ t.pwr.phase = .powerFail ∧ t.pwr.pwrOk = false) ∧
    Completes .overVoltage s (fun t => AfterPackageReset 0 s t ∧ t.pwr.phase = .overVoltage ∧ t.pwr.pwrOk = false)) ∧
  (∀ (s : State), s.pwr.phase = .overVoltage → Completes .overVoltageClear s (fun t => AfterPackageReset 32 s t ∧
    t.get L.PWR_RST_CAUSE.OVER_V = 1 ∧ t.pwr.phase = .delay)) ∧
  (∀ (s : State), s.pwr.phase = .powerFail → Completes .vinRise s (fun t => AfterPackageReset 16 s t ∧
    t.get L.PWR_RST_CAUSE.POWER_FAIL = 1 ∧ t.pwr.phase = .delay)) ∧
  (∀ (s : State), s.pwr.phase = .unpowered → Completes .vinRise s (fun t => SameRegsBut [] State.reset t ∧
    t.get L.PWR_RST_CAUSE.POWER_ON = 1 ∧ t.mem = s.mramCells ∧ t.nv = s.nv ∧ t.hregs = [] ∧ t.pwr.phase = .delay ∧
    t.pwr.pwrOk = false ∧ t.boots = s.boots + 1)) ∧
  (∀ (c : Issuer) (v : Word) (s : State), Sends s c → c.sealed = true → c.vi = none → v.getLsbD 63 = true → fieldOf v 8 2 = 1 →
    Completes (.packageResetCmd c v) s (fun t => AfterPackageReset 4 s t ∧ t.get L.PWR_RST_CAUSE.SOFT = 1)) ∧
  (∀ (c : Issuer) (v : Word) (s : State), Sends s c → (c.sealed = false ∨ c.vi ≠ none) →
    Completes (.packageResetCmd c v) s (fun t => Refused s t) ∧ Completes (.dieResetCmd c v) s (fun t => Refused s t) ∧
    Completes (.clusterResetCmd c v) s (fun t => Refused s t) ∧ Completes (.tbHold c v) s (fun t => Refused s t ∧ t.tb = s.tb) ∧
    Completes (.tbRelease c v) s (fun t => Refused s t ∧ t.tb = s.tb) ∧ Completes (.rstResAck c v) s (fun t => Refused s t)) ∧
  (∀ (s : State), s.pwr.resetLow = false → Completes .resetNAssert s (fun t => t.pwr.resetLow = true ∧
    ((s.pwr.phase = .on ∨ s.pwr.phase = .waitRef) → AfterPackageReset 2 s t ∧ t.pwr.phase = .pin) ∧
    (s.pwr.phase = .tripped → AfterPackageReset 64 s t ∧ t.pwr.phase = .pin) ∧
    (s.pwr.phase = .powerFail → t.pwr.phase = .powerFail ∧ SameRegsBut [] s t))) ∧
  (∀ (s : State), s.pwr.phase = .pin → Completes .resetNRelease s (fun t => t.pwr.resetLow = false ∧ t.pwr.phase = .waitRef ∧
    SameRegsBut [] s t)) ∧
  (∀ (s : State), s.belayStage = 2 → s.belay.heldAt = none → Completes .belayExpire s (fun t => AfterPackageReset 8 s t ∧
    t.get L.PWR_RST_CAUSE.BELAY = 1 ∧ t.get L.WLD_BELAY_CAUSE.CAUSE = (if s.belay.bad then 2 else 1) ∧
    s.belay.since + s.belaySpan ≤ t.up)) ∧
  (∀ (s : State), s.pwr.phase = .delay → Completes .startDelayExpire s (fun t => t.pwr.phase = .soft ∧ t.up = s.up + 10000000)) ∧
  (∀ (s : State), s.pwr.phase = .soft → Completes .softStartDone s (fun t => t.pwr.phase = .waitRef ∧ t.pwr.pwrOk = true ∧
    t.up = s.up + 5000000)) ∧
  (∀ (g : Fin 4) (serial : Word) (pci : Bool) (s : State), s.pwr.phase = .waitRef → s.pwr.resetLow = false →
    Completes (.refclkDetect g serial pci) s (fun t => t.pwr.phase = .on ∧ t.get L.CLK_REF.REF_OK = 1 ∧
      t.get L.CLK_REF.PCI_REF_OK = (if pci then 1 else 0) ∧ (∀ n, n ∈ [12, 13, 21] → t.get (L.CLK_DOM.LOCK n) = 1) ∧
      t.get L.PWR_THERM.GRADE = g.val ∧ t.rd R.TB_SERIAL = serial ∧ t.domState 24 = 1 ∧
      (∀ n, n < 34 → n ≠ 24 → t.domState n = 0) ∧ t.get L.KS_BOOT.STAGE = 1 ∧ t.ks.newt = 1 ∧
      t.rd R.PWR_RST_CAUSE = s.rd R.PWR_RST_CAUSE ∧ t.rd R.WLD_BELAY_CAUSE = s.rd R.WLD_BELAY_CAUSE))

/-- Die and cluster resets and the hold of the time base (R419 to R421, R423, R427): an accepted request stops the harts and
holds its result back; an item of the wrong world or out of range is answered at once; at the end every hart starts in machine
mode at PWR_CORE_VEC.VEC; a write of 1 to PWR_RST_HOLD returns the time base to its reset, TB_SERIAL apart.
Where a point is open it states the model's choice (log entries 128, 136). -/
def Obligations.DieAndClusterResetsAndTheHold : Prop :=
  (∀ (c : Issuer) (v : Word) (s : State), Sends s c → c.sealed = true → c.vi = none → v.getLsbD 63 = true → fieldOf v 8 2 = 2 →
    s.pwr.rst = none → fieldOf v 4 4 ≤ 11 →
    (∀ k, k < 2 → s.domState (2 * fieldOf v 4 4 + k) = 1 ∧ s.ownerSealed (.pwr (2 * fieldOf v 4 4 + k)) = true ∧
      s.pwrReqs (2 * fieldOf v 4 4 + k) = []) →
    Completes (.dieResetCmd c v) s (fun t => t.resp = .ok ∧ t.pwr.rst = some (.die (fieldOf v 4 4) 1) ∧
      (t.dieSt (fieldOf v 4 4)).resetting = true ∧ (∀ k, k < 18 → (t.hartSt (18 * fieldOf v 4 4 + k)).run = .held) ∧
      (∀ k, k < 2 → t.get (L.PWR_DOM.BUSY (2 * fieldOf v 4 4 + k)) = 1) ∧ t.get L.PWR_RST_RES.READY = 0 ∧
      t.get L.PWR_RST_RES.STATUS = 0xFF)) ∧
  (∀ (c : Issuer) (v : Word) (s : State), Sends s c → c.sealed = true → c.vi = none → v.getLsbD 63 = true → s.pwr.rst = none →
    (fieldOf v 8 2 = 2 → 11 < fieldOf v 4 4 → Completes (.dieResetCmd c v) s (fun t => t.get L.PWR_RST_RES.READY = 1 ∧
      t.get L.PWR_RST_RES.STATUS = 1 ∧ t.pwr.rst = none ∧ t.hart = s.hart ∧ SameRegsBut [R.PWR_RST_CMD, R.PWR_RST_RES] s t)) ∧
    (fieldOf v 8 2 = 3 → fieldOf v 4 4 ≤ 11 → fieldOf v 0 4 ≤ 8 → s.domState (2 * fieldOf v 4 4) = 1 →
      s.ownerSealed (.pwr (2 * fieldOf v 4 4)) = false → Completes (.clusterResetCmd c v) s (fun t =>
        t.get L.PWR_RST_RES.READY = 1 ∧ t.get L.PWR_RST_RES.STATUS = 2 ∧ t.pwr.rst = none ∧ t.hart = s.hart ∧
        SameRegsBut [R.PWR_RST_CMD, R.PWR_RST_RES] s t))) ∧
  (∀ (c : Issuer) (v : Word) (s : State), Sends s c → c.sealed = true → c.vi = none → v.getLsbD 63 = true → fieldOf v 8 2 = 3 →
    s.pwr.rst = none → fieldOf v 4 4 ≤ 11 → fieldOf v 0 4 ≤ 8 → s.domState (2 * fieldOf v 4 4) = 1 →
    s.ownerSealed (.pwr (2 * fieldOf v 4 4)) = true → Completes (.clusterResetCmd c v) s (fun t => t.resp = .ok ∧
      t.pwr.rst = some (.cluster (fieldOf v 4 4) (fieldOf v 0 4) (!s.clusterSwitching (fieldOf v 4 4) (fieldOf v 0 4))) ∧
      (s.clusterSwitching (fieldOf v 4 4) (fieldOf v 0 4) = false →
        ∀ k, k < 2 → (t.hartSt (hartOf (fieldOf v 4 4) (fieldOf v 0 4) k)).run = .held) ∧
      t.get L.PWR_RST_RES.READY = 0 ∧ SameRegsBut [R.PWR_RST_CMD, R.PWR_RST_RES] s t)) ∧
  (∀ (d c : Nat) (s : State), d < 12 → c < 9 → s.pwr.rst = some (.cluster d c true) → (s.flushCluster d c).clusterClean d c = true →
    (s.dieSt d).otherMake = false → s.coreFailed (hartOf d c 0) = false → s.coreFailed (hartOf d c 1) = false →
    Completes .clusterResetDone s (fun t => t.pwr.rst = none ∧ t.get L.PWR_RST_RES.READY = 1 ∧ t.get L.PWR_RST_RES.STATUS = 0 ∧
      t.clusterSealed d c = true ∧ t.hartSt (hartOf d c 0) = { (default : Hart) with run := .run, mode := .m, cycAt := t.up } ∧
      (t.hartSt (hartOf d c 1)).run = (if s.get (L.SKLSCFG.PAIR (hartOf d c 0)) = 1 then .held else .run) ∧
      t.pairActive d c = decide (s.get (L.SKLSCFG.PAIR (hartOf d c 0)) = 1) ∧
      ∀ k, k < 2 → (t.hreg (hartOf d c k) 0x20).toNat = 4 * s.get L.PWR_CORE_VEC.VEC ∧
        (∀ n, n < 32 → n ≠ 0 → t.hreg (hartOf d c k) n = 0) ∧ ∀ f, f < 17 → t.intFile (hartOf d c k) f = default)) ∧
  (∀ (d : Nat) (s : State), d < 12 → s.pwr.rst = some (.die d 1) → (s.dieSt d).otherMake = false →
    ((s.forAll (List.range 9) (fun s c => s.flushCluster d c)).flushL3 d).dieClean d = true →
    ((((s.forAll (List.range 9) (fun s c => s.flushCluster d c)).flushL3 d).filterSweep d).forAll (dieLinks d) State.linkTaken).stopped = false →
    Completes .dieResetDone s (fun t => t.pwr.rst = some (.die d 2) ∧ ∀ k, k < 4 → t.get (L.WLD_L3WAY.PITON d k) = 0)) ∧
  (∀ (d : Nat) (s : State), d < 12 → s.pwr.rst = some (.die d 2) →
    (∀ k, k < 4 → s.dlState (4 * d + k) ≠ dlTrain ∧ s.dlState (4 * d + k) ≠ dlRetrainSt) →
    Completes .dieResetDone s (fun t => t.pwr.rst = none ∧ (t.dieSt d).resetting = false ∧ t.get L.PWR_RST_RES.READY = 1 ∧
      t.get L.PWR_RST_RES.STATUS = 0 ∧
      ∀ k, k < 18 → (t.hreg (18 * d + k) 0x20).toNat = 4 * s.get L.PWR_CORE_VEC.VEC ∧ (t.hartSt (18 * d + k)).mode = .m)) ∧
  (∀ (c : Issuer) (v : Word) (s : State), Sends s c → c.sealed = true → c.vi = none → v.getLsbD 62 = true →
    s.get L.PWR_RST_RES.READY = 1 →
    Completes (.rstResAck c v) s (fun t => t.resp = .ok ∧ t.get L.PWR_RST_RES.READY = 0 ∧ t.get L.PWR_RST_RES.STATUS = 0xFF ∧
      SameRegsBut [R.PWR_RST_RES] s t)) ∧
  (∀ (c : Issuer) (v : Word) (s : State), Sends s c → c.sealed = true → c.vi = none → v.getLsbD 0 = true →
    Completes (.tbHold c v) s (fun t => t.get L.PWR_RST_HOLD.TB = 1 ∧ t.tb = State.reset.tb ∧
      t.rd R.TB_SERIAL = s.rd R.TB_SERIAL ∧ ∀ k, k < 0x10000 → k ≠ R.TB_SERIAL → t.rd k = State.reset.rd k)) ∧
  (∀ (c : Issuer) (v : Word) (s : State), Sends s c → c.sealed = true → c.vi = none → v.getLsbD 0 = false → s.get L.PWR_RST_HOLD.TB = 1 →
    Completes (.tbRelease c v) s (fun t => t.resp = .ok ∧ t.get L.PWR_RST_HOLD.TB = 0 ∧ t.tb.settled = false ∧
      t.tb.best = s.ownCand ∧ t.tb.ns = s.tb.ns ∧ SameRegsBut [R.PWR_RST_HOLD] s t))


/-! ### Captures, debug and register access (18, 13, 19) -/

/-- Captures and debug (R352, R436, R437, R439): a software capture takes the lowest free slot with the state of its instant or
is counted as missed, its end completes the launches that made it, a paused hart resumes; a debug request is answered at its
level, and without a level only the identification register is.
Where a point is open it states the model's choice (log entries 138, 142). -/
def Obligations.CapturesAndDebug : Prop :=
  (∀ (c : Issuer) (v : Word) (k : Nat) (s : State), Sends s c → c.sealed = s.ownerSealed .cairn → s.isReleasing .cairn = false →
    c.vi = none →
    v.getLsbD 63 = true → fieldOf v 4 4 = 0 → s.capBusy = none → k < 3 → (s.get L.CRN_STATUS.FULL).testBit k = false →
    (∀ j, j < k → (s.get L.CRN_STATUS.FULL).testBit j = true) → Completes (.softwareCapture c v) s (fun t => t.resp = .ok ∧
      t.capBusy = some k ∧ (t.get L.CRN_STATUS.FULL).testBit k = true ∧ t.get L.CRN_STATUS.BUSY = 1 ∧
      (SMap.get t.caps k).trigger = 2 ∧ (SMap.get t.caps k).profile = fieldOf v 0 4 ∧ (SMap.get t.caps k).frame = s.frame ∧
      (SMap.get t.caps k).time = s.tb.ns ∧ (SMap.get t.caps k).regs = s.regs ∧ (SMap.get t.caps k).written = false ∧
      t.paused = (if v.getLsbD 0 then s.captureHarts else s.paused) ∧ (v.getLsbD 0 = true → (SMap.get t.caps k).harts = s.hregs) ∧
      (v.getLsbD 3 = true → t.get L.CRN_TRACE_CFG.FROZEN = 1) ∧ SameRegsBut [R.CRN_STATUS, R.CRN_TRACE_CFG] s t)) ∧
  (∀ (c : Issuer) (v : Word) (s : State), Sends s c → c.sealed = s.ownerSealed .cairn → s.isReleasing .cairn = false → c.vi = none →
    v.getLsbD 63 = true → fieldOf v 4 4 = 0 → s.capBusy = none → (∀ j, j < 3 → (s.get L.CRN_STATUS.FULL).testBit j = true) →
    Completes (.softwareCapture c v) s (fun t => t.get L.CRN_CNT.MISSED = min (s.get L.CRN_CNT.MISSED + 1) (2 ^ 32 - 1) ∧
      t.get L.CRN_EVT.MISSED = 1 ∧ t.caps = s.caps ∧ t.paused = s.paused ∧ SameRegsButRecords [] s t)) ∧
  (∀ (c : Issuer) (v : Word) (s : State), Sends s c → (c.sealed ≠ s.ownerSealed .cairn ∨ v.getLsbD 63 = true ∧ fieldOf v 4 4 ≠ 0) →
    Completes (.softwareCapture c v) s (fun t => Refused s t)) ∧
  (∀ (k : Nat) (s : State), s.capBusy = some k → Completes .captureWritten s (fun t => t.capBusy = none ∧
    t.get L.CRN_STATUS.BUSY = 0 ∧ t.get L.CRN_CNT.CAPTURES = min (s.get L.CRN_CNT.CAPTURES + 1) (2 ^ 32 - 1) ∧
    t.get L.CRN_EVT.CAPTURED = 1 ∧ (SMap.get t.caps k).written = true ∧ (SMap.get t.caps k).timeEnd = s.tb.ns ∧
    (∀ l ∈ t.launches, l.target = 0x50 → l.status ≠ none) ∧ SameRegsButRecords [] s t)) ∧
  (∀ (h : Fin 216) (s : State), s.get (L.HA_STATUS.STOPPED 0) = 0 → Completes (.captureHartResume h) s (fun t =>
    (∀ x, x ∈ t.paused ↔ x ∈ s.paused ∧ x ≠ h.val) ∧ SameRegsBut [] s t)) ∧
  (∀ (h : Fin 216) (s : State), s.get (L.HA_STATUS.STOPPED 0) = 1 → Completes (.captureHartResume h) s (fun t => t = s)) ∧
  (∀ (s : State), Completes (.jtagDebugRequest .idcode) s (fun t => t.resp = .data 0x5EC19216 ∧ t.hart = s.hart ∧
    t.mem = s.mem ∧ SameRegsBut [] s t)) ∧
  (∀ (r : JtagReq) (s : State), r ≠ .idcode → s.get L.WLD_DBG.SEALED_EN = 0 → s.get L.WLD_DBG.OPEN_EN = 0 →
    Completes (.jtagDebugRequest r) s (fun t => t = s)) ∧
  (∀ (h n : Nat) (v : Word) (s : State), s.get L.WLD_DBG.SEALED_EN = 1 → h < 216 → s.hartUnused h = false →
    s.dieAway (hartDie h) = false →
    (s.clusterSwitching (hartDie h) (hartCluster h) = false → (s.hartSt h).run = .run →
      Completes (.jtagDebugRequest (.halt h)) s (fun t => t.resp = .ok ∧
        t.hartSt h = { s.hartSt h with halted := true, cycles := s.cycleCount h, cycAt := s.up } ∧
        t.hregs = s.hregs ∧ SameRegsBut [] s t)) ∧
    Completes (.jtagDebugRequest (.resume h)) s (fun t => t.resp = .ok ∧
      t.hartSt h = { s.hartSt h with halted := false, cycles := s.cycleCount h, cycAt := s.up } ∧
      t.hregs = s.hregs ∧ SameRegsBut [] s t) ∧
    (1 ≤ n → n ≤ 32 → (s.hartSt h).halted = true →
      Completes (.jtagDebugRequest (.readHart h n)) s (fun t => t.resp = .data (s.hreg h n) ∧ t.hregs = s.hregs) ∧
      Completes (.jtagDebugRequest (.writeHart h n v)) s (fun t => t.resp = .ok ∧ t.hreg h n = v ∧
        (∀ x y, x < 216 → y < 0x2000 → (x ≠ h ∨ y ≠ n) → t.hreg x y = s.hreg x y) ∧ SameRegsBut [] s t)) ∧
    ((s.hartSt h).halted = false → Completes (.jtagDebugRequest (.readHart h n)) s (fun t => t.resp = .error ∧ t.hregs = s.hregs))) ∧
  (∀ (a n : Nat) (u : State) (d : DevAns) (s : State), s.get L.WLD_DBG.SEALED_EN = 1 → a + n ≤ hbmEnd →
    s.devRead 0xFF a n ⟨true, none, 0, .jtag⟩ = (u, d) → NoWait s u → Completes (.jtagDebugRequest (.read a n)) s (fun t =>
      t.resp = (if d.err ∨ d.poison then .error else .data (BitVec.ofNat 64 (ofBytesLE d.data))) ∧ t.mem = u.mem)) ∧
  (∀ (a n : Nat) (v : Word) (u : State) (ok : Bool) (s : State), s.get L.WLD_DBG.SEALED_EN = 1 → a + n ≤ hbmEnd →
    s.devWrite 0xFF a (bytesLE n v.toNat) false ⟨true, none, 0, .jtag⟩ = (u, ok) → NoWait s u →
      Completes (.jtagDebugRequest (.write a n v)) s
    (fun t => t.resp = (if ok then .ok else .error) ∧ t.mem = u.mem))

/-- Registers (R10 to R12, R142, R450, R452, R453, R458): a 64-bit write of a register whose fields act by type changes each
field as
its type says and nothing else, a write that its block does not allow, of a wrong size or of no register is refused, a read
returns the register, an access acts with the tags of its sender's place and only if that sender can act (R18, R317), the PMP
stops a hart's with an access fault, a hart writes its CSRs at its privilege, and an access of a Newt core goes where Table 19.4
maps it or faults.
Where a point is open it states the model's choice (log entries 144, 145, 168, 172, 206). -/
def Obligations.RegistersAreWrittenAndRead : Prop :=
  (∀ (c : Issuer) (a : PAddr) (v : Word) (b : Block) (i o key : Nat) (r : RegInst) (f : FieldSpec) (s : State), RegSpace a.toNat →
    a.toNat % 8 = 0 → keyBlock (a.toNat % 2 ^ 40) = some (b, i, o) → findReg (a.toNat % 2 ^ 40) = some r →
    c.agent ≠ .newt → s.agentIn c = true → (b = .bWLDD → s.dieIn i = true) → s.pmpStops c a.toNat 8 pmpW = false →
    s.writeCause b i (some r) (s.tagged c) = 0 →
    (∀ x, (s.answer .ok).writeOwnRule b r (a.toNat % 2 ^ 40) (s.tagged c) true x = none) → f ∈ r.spec.fields →
    key = bankKey r.spec.reg (s.tagged c).sealed (a.toNat % 2 ^ 40) →
      Completes (.registerWrite c (.addr a 8) v) s (fun t => t.resp = .ok ∧
      fieldOf (t.rd key) f.lo f.width = (match f.ty with
        | .rw => fieldOf v f.lo f.width
        | .rwo => if SMap.get s.fieldOps.done key &&& fieldMask f.lo f.width = 0 then fieldOf v f.lo f.width
          else fieldOf (s.rd key) f.lo f.width
        | .w1c => fieldOf (s.rd key &&& ~~~(v &&& ~~~SMap.get s.fieldOps.raised key)) f.lo f.width
        | .w1s => fieldOf (s.rd key ||| v) f.lo f.width
        | .ro | .wo => fieldOf (s.rd key) f.lo f.width) ∧
      (f.ty = .rwo → SMap.get t.fieldOps.done key &&& fieldMask f.lo f.width = fieldMask f.lo f.width) ∧
      SameRegsBut [key] s t)) ∧
  (∀ (c : Issuer) (a : PAddr) (n : Nat) (v : Word) (s : State), RegSpace a.toNat → c.agent ≠ .newt →
    s.agentIn c = true → s.pmpStops c a.toNat n pmpW = false → keyBlock (a.toNat % 2 ^ 40) = none →
    Completes (.registerWrite c (.addr a n) v) s (fun t => Refused s t)) ∧
  (∀ (c : Issuer) (a : PAddr) (n : Nat) (v : Word) (b : Block) (i o : Nat) (r : Option RegInst) (s : State), RegSpace a.toNat →
    c.agent ≠ .newt → s.agentIn c = true → s.pmpStops c a.toNat n pmpW = false →
    keyBlock (a.toNat % 2 ^ 40) = some (b, i, o) → findReg (a.toNat % 2 ^ 40 / 8 * 8) = r →
    ((b = .bWLDD ∧ s.dieIn i = false) ∨ s.writeCause b i r (s.tagged c) ≠ 0 ∨ sizeOk a.toNat n = false ∨ r = none) →
    Completes (.registerWrite c (.addr a n) v) s (fun t => Refused s t)) ∧
  (∀ (die : Fin 12) (c : Issuer) (a : PAddr) (n : Nat) (b : Block) (i o : Nat) (r : RegInst) (s : State), s.dieLinked die = true →
    c.agent ≠ .newt → s.agentIn c = true → RegSpace a.toNat → s.pmpStops c a.toNat n pmpR = false →
    keyBlock (a.toNat % 2 ^ 40) = some (b, i, o) → findReg (a.toNat % 2 ^ 40 / 8 * 8) = some r → (b = .bWLDD → s.dieIn i = true) →
    s.readCause b i (some r) (s.tagged c) = 0 → sizeOk a.toNat n = true → Completes (.ioRd die c a n) s (fun t =>
      t.resp = .data (BitVec.ofNat 64 ((s.regValue (a.toNat % 2 ^ 40 / 8 * 8) r (s.tagged c)).2 >>> (8 * (a.toNat % 8)) % 2 ^ (8 * n))) ∧
      SameRegsBut [] (s.regValue (a.toNat % 2 ^ 40 / 8 * 8) r (s.tagged c)).1 t ∧
      (r.spec.reg ∉ [.CRN_WIN, .TB_TIME, .CSQ_IMEM, .CSQ_DMEM, .DL_LANE_CNT, .NOC_RSV_OWN, .NOC_RSV_CNT, .NOC_RSV_DENY, .NOC_EVT,
        .CSQ_SCHED_STAT, .CSQ_SCHED_FRAME, .MGT_GPIO] → s.regValue (a.toNat % 2 ^ 40 / 8 * 8) r (s.tagged c) =
          (s, s.regCore (a.toNat % 2 ^ 40 / 8 * 8) r (s.tagged c).sealed)))) ∧
  (∀ (die : Fin 12) (c : Issuer) (a : PAddr) (n : Nat) (v : Word) (s : State), s.dieLinked die = true → c.agent ≠ .newt →
    s.agentIn c = true →
    (s.pmpStops c a.toNat n pmpR = true → Completes (.ioRd die c a n) s (fun t => t.resp = .accessFault ∧ SameRegsBut [] s t)) ∧
    (s.pmpStops c a.toNat n pmpW = true → s.devAsked = none →
      Completes (.ioWr die c a n v) s (fun t => t.resp = .accessFault ∧ t.mem = s.mem ∧ SameRegsBut [] s t))) ∧
  (∀ (i : Instr) (c : Issuer) (f : Issuer → State → Host.Outcome State Fault Refusal) (s : State), access i = some (c, f) →
    exec i s = f c s ∧ f c s = f (s.tagged c) s ∧ (s.agentIn c = false → s.devAsked = none → f c s = .next s)) ∧
  (∀ (c : Issuer) (h : Fin 216) (v : Word) (s : State), s.hartActs h = true →
    Completes (.registerWrite c (.csr h 0x340 .m) v) s (fun t => t.resp = .ok ∧ t.hreg h 0x1340 = v ∧
      (∀ x y, x < 216 → y < 0x2000 → (x ≠ h.val ∨ y ≠ 0x1340) → t.hreg x y = s.hreg x y) ∧ SameRegsBut [] s t) ∧
    Completes (.registerWrite c (.csr h 0x7C2 .m) v) s (fun t => t.resp = .ok ∧ t.get (L.SKPWR.DEPTH h) = fieldOf v 0 1 ∧
      t.hregs = s.hregs ∧ SameRegsBut [R.SKPWR h] s t) ∧
    Completes (.registerWrite c (.csr h 0x7C3 .m) v) s (fun t => t.resp = .ok ∧ t.rd (R.SKMTIMECMP h) = v ∧
      SameRegsBut [R.SKMTIMECMP h] s t)) ∧
  (∀ (c : Issuer) (h : Fin 216) (n : Fin 4096) (md : PrivMode) (v : Word) (s : State), s.hartActs h = true → n.val ≠ 0x7C0 →
    ((n.val / 256 % 4 = 3 ∧ (md = .u ∨ md = .s)) ∨ (md = .m ∧ 0xC00 ≤ n.val)) →
    Completes (.registerWrite c (.csr h n md) v) s (fun t => t.resp = .illegal ∧ t.hregs = s.hregs ∧ SameRegsBut [] s t)) ∧
  (∀ (c : Issuer) (die : Fin 12) (a : PAddr) (n : Nat) (v : Word) (s : State), c.agent = .newt → newtView a.toNat n = none →
    Completes (.registerWrite c (.addr a n) v) s (fun t => t.resp = .accessFault ∧ SameRegsBut [] s t) ∧
    Completes (.ioWr die c a n v) s (fun t => t.resp = .accessFault ∧ SameRegsBut [] s t) ∧
    Completes (.ioRd die c a n) s (fun t => t.resp = .accessFault ∧ SameRegsBut [] s t)) ∧
  (∀ (c : Issuer) (die : Fin 12) (a : PAddr) (n p : Nat) (v : Word) (s : State), c.agent = .newt →
    newtView a.toNat n = some p →
    (newtSram ≤ p → Completes (.ioWr die c a n v) s (fun t => t.resp = .ok ∧
        t.mem = (s.writeBytes p ((bytesLE n v.toNat).map (BitVec.ofNat 8))).mem ∧ SameRegsBut [] s t) ∧
      Completes (.ioRd die c a n) s (fun t => t.resp = .data (BitVec.ofNat 64 (s.readLE p n)) ∧ t.mem = s.mem ∧
        SameRegsBut [] s t)) ∧
    (p < newtSram → NoWait s (s.busWrite newtIssuer p n v) →
      Completes (.registerWrite c (.addr a n) v) s (fun t => t = s.busWrite newtIssuer p n v)) ∧
    (p < newtSram → Completes (.ioRd die c a n) s (fun t => t = s.busRead newtIssuer p n)))
end

