-- ==== Sys2Proof/Laws/SMap.lean ====
section
/-! SUPPORT. Laws of sparse maps: a read after a write, and that writes keep the canonical form. -/

namespace Sys2Proof.Machine

variable {α : Type}

@[simp] theorem SMap.look_nil (d : Nat → α) (k : Nat) : SMap.look d [] k = d k := rfl

theorem SMap.look_drop_same (d : Nat → α) (m : SMap α) (k : Nat) : SMap.look d (SMap.drop m k) k = d k := by
  induction m with
  | nil => rfl
  | cons p t ih =>
    obtain ⟨a, v⟩ := p
    by_cases h : a = k
    · simp [SMap.drop, h, ih]
    · simp [SMap.drop, SMap.look, h, Ne.symm h, ih]

theorem SMap.look_drop_ne (d : Nat → α) (m : SMap α) {k j : Nat} (h : j ≠ k) :
    SMap.look d (SMap.drop m k) j = SMap.look d m j := by
  induction m with
  | nil => rfl
  | cons p t ih =>
    obtain ⟨a, v⟩ := p
    by_cases ha : a = k
    · subst ha; simp [SMap.drop, SMap.look, h, ih]
    · simp [SMap.drop, SMap.look, ha, ih]

theorem SMap.look_place_ne (d : Nat → α) (m : SMap α) {k j : Nat} (v : α) (h : j ≠ k) :
    SMap.look d (SMap.place k v m) j = SMap.look d m j := by
  induction m with
  | nil => simp [SMap.place, SMap.look, h]
  | cons p t ih =>
    obtain ⟨a, u⟩ := p
    by_cases ha : k < a
    · simp [SMap.place, SMap.look, ha, h]
    · simp [SMap.place, SMap.look, ha, ih]

theorem SMap.look_place_same (d : Nat → α) (m : SMap α) (k : Nat) (v : α) (h : ∀ p ∈ m, p.1 ≠ k) :
    SMap.look d (SMap.place k v m) k = v := by
  induction m with
  | nil => simp [SMap.place, SMap.look]
  | cons p t ih =>
    obtain ⟨a, u⟩ := p
    have ha : a ≠ k := h (a, u) (by simp)
    by_cases hk : k < a
    · simp [SMap.place, SMap.look, hk]
    · simp [SMap.place, SMap.look, hk, Ne.symm ha, ih (fun p hp => h p (List.mem_cons_of_mem _ hp))]

theorem SMap.drop_ne (m : SMap α) (k : Nat) : ∀ p ∈ SMap.drop m k, p.1 ≠ k := by
  induction m with
  | nil => simp [SMap.drop]
  | cons p t ih =>
    obtain ⟨a, u⟩ := p
    by_cases ha : a = k
    · simpa [SMap.drop, ha] using ih
    · intro p hp
      simp only [SMap.drop, ha, if_false, List.mem_cons] at hp
      rcases hp with rfl | hp
      · exact ha
      · exact ih p hp

/-- Leaving entries out leaves the keys that stay alone. -/
theorem SMap.look_filter (d : Nat → α) (m : SMap α) {k : Nat} (f : Nat × α → Bool) (h : ∀ p : Nat × α, p.1 = k → f p = true) :
    SMap.look d (m.filter f) k = SMap.look d m k := by
  induction m with
  | nil => rfl
  | cons p t ih =>
    obtain ⟨a, v⟩ := p
    by_cases hf : f (a, v) = true
    · rw [List.filter_cons_of_pos hf]
      simp only [SMap.look, ih]
    · rw [List.filter_cons_of_neg hf, ih]
      have : k ≠ a := fun e => hf (h (a, v) e.symm)
      simp [SMap.look, this]

variable [DecidableEq α]

/-- A read after a write to the same key gives the value written. -/
@[simp] theorem SMap.look_store_same (d : Nat → α) (m : SMap α) (k : Nat) (v : α) :
    SMap.look d (SMap.store d m k v) k = v := by
  unfold SMap.store
  split
  · rename_i h; rw [SMap.look_drop_same, h]
  · exact SMap.look_place_same d _ k v (SMap.drop_ne m k)

/-- A write leaves every other key alone. -/
theorem SMap.look_store_ne (d : Nat → α) (m : SMap α) {k j : Nat} (v : α) (h : j ≠ k) :
    SMap.look d (SMap.store d m k v) j = SMap.look d m j := by
  unfold SMap.store
  split
  · exact SMap.look_drop_ne d m h
  · rw [SMap.look_place_ne d _ v h, SMap.look_drop_ne d m h]

/-! ### The canonical form -/

omit [DecidableEq α] in
theorem SMap.rising_iff (m : SMap α) : SMap.rising m = true ↔ m.Pairwise (fun p q => p.1 < q.1) := by
  induction m with
  | nil => simp [SMap.rising]
  | cons p t ih =>
    cases t with
    | nil => simp [SMap.rising]
    | cons q t =>
      obtain ⟨a, u⟩ := p
      obtain ⟨b, v⟩ := q
      rw [SMap.rising, Bool.and_eq_true, ih, decide_eq_true_eq]
      constructor
      · rintro ⟨h, hp⟩
        refine List.pairwise_cons.mpr ⟨?_, hp⟩
        intro x hx
        rcases List.mem_cons.mp hx with rfl | hx
        · exact h
        · exact lt_trans h ((List.pairwise_cons.mp hp).1 x hx)
      · intro h
        exact ⟨(List.pairwise_cons.mp h).1 (b, v) (by simp), (List.pairwise_cons.mp h).2⟩

theorem SMap.wf_iff (d : Nat → α) (m : SMap α) :
    SMap.wf d m = true ↔ m.Pairwise (fun p q => p.1 < q.1) ∧ ∀ p ∈ m, p.2 ≠ d p.1 := by
  simp [SMap.wf, SMap.rising_iff, List.all_eq_true]

omit [DecidableEq α] in
theorem SMap.drop_sublist (m : SMap α) (k : Nat) : (SMap.drop m k).Sublist m := by
  induction m with
  | nil => exact List.Sublist.refl _
  | cons p t ih =>
    obtain ⟨a, u⟩ := p
    by_cases ha : a = k
    · simpa [SMap.drop, ha] using ih.trans (List.sublist_cons_self _ t)
    · simpa [SMap.drop, ha] using ih

omit [DecidableEq α] in
theorem SMap.mem_place {k : Nat} {v : α} {m : SMap α} {p : Nat × α} (h : p ∈ SMap.place k v m) : p = (k, v) ∨ p ∈ m := by
  induction m with
  | nil => simpa [SMap.place] using h
  | cons q t ih =>
    obtain ⟨a, u⟩ := q
    by_cases ha : k < a
    · simpa [SMap.place, ha] using h
    · simp only [SMap.place, ha, if_false, List.mem_cons] at h ⊢
      rcases h with h | h
      · exact Or.inr (Or.inl h)
      · exact (ih h).imp id Or.inr

omit [DecidableEq α] in
theorem SMap.place_pairwise (k : Nat) (v : α) (m : SMap α) (h : m.Pairwise (fun p q => p.1 < q.1)) (hk : ∀ p ∈ m, p.1 ≠ k) :
    (SMap.place k v m).Pairwise (fun p q => p.1 < q.1) := by
  induction m with
  | nil => simp [SMap.place]
  | cons q t ih =>
    obtain ⟨a, u⟩ := q
    obtain ⟨ha, ht⟩ := List.pairwise_cons.mp h
    have hne : a ≠ k := hk (a, u) (by simp)
    by_cases hlt : k < a
    · simp only [SMap.place, hlt, if_true]
      refine List.pairwise_cons.mpr ⟨?_, h⟩
      intro p hp
      rcases List.mem_cons.mp hp with rfl | hp
      · exact hlt
      · exact lt_trans hlt (ha p hp)
    · simp only [SMap.place, hlt, if_false]
      refine List.pairwise_cons.mpr ⟨?_, ih ht (fun p hp => hk p (List.mem_cons_of_mem _ hp))⟩
      intro p hp
      rcases SMap.mem_place hp with rfl | hp
      · change a < k; omega
      · exact ha p hp

/-- A write keeps the canonical form. -/
theorem SMap.wf_store (d : Nat → α) (m : SMap α) (k : Nat) (v : α) (h : SMap.wf d m = true) :
    SMap.wf d (SMap.store d m k v) = true := by
  rw [SMap.wf_iff] at h ⊢
  have hs := SMap.drop_sublist m k
  have hp := h.1.sublist hs
  have ha : ∀ p ∈ SMap.drop m k, p.2 ≠ d p.1 := fun p q => h.2 p (hs.subset q)
  unfold SMap.store
  split
  · exact ⟨hp, ha⟩
  · rename_i hv
    refine ⟨SMap.place_pairwise k v _ hp (SMap.drop_ne m k), ?_⟩
    intro p q
    rcases SMap.mem_place q with rfl | q
    · exact hv
    · exact ha p q

/-- Leaving entries out keeps the canonical form. -/
theorem SMap.wf_filter (d : Nat → α) (m : SMap α) (f : Nat × α → Bool) (h : SMap.wf d m = true) :
    SMap.wf d (m.filter f) = true := by
  rw [SMap.wf_iff] at h ⊢
  exact ⟨h.1.sublist List.filter_sublist, fun p q => h.2 p (List.mem_of_mem_filter q)⟩

end Sys2Proof.Machine
end

