-- ==== Sys2Proof/Laws/Regs.lean ====
section
/-! SUPPORT. Laws of fields and registers: a read after a write to the same place gives the value written, and a write
leaves every other place alone. -/

namespace Sys2Proof.Machine

theorem fieldOf_eq (w : Word) (lo n : Nat) : fieldOf w lo n = (w.extractLsb' lo n).toNat := by
  simp [fieldOf]

theorem fieldOf_testBit (w : Word) (lo n i : Nat) : (fieldOf w lo n).testBit i = (decide (i < n) && w.getLsbD (lo + i)) := by
  simp [fieldOf, Nat.testBit_mod_two_pow, Nat.testBit_shiftRight, BitVec.getLsbD]

theorem withField_getLsbD (w : Word) (lo n v i : Nat) (hi : i < 64) :
    (withField w lo n v).getLsbD i = if lo ≤ i ∧ i < lo + n then v.testBit (i - lo) else w.getLsbD i := by
  have h1 : (2 ^ n - 1).testBit (i - lo) = decide (i - lo < n) := Nat.testBit_two_pow_sub_one n _
  simp only [withField, fieldMask, BitVec.getLsbD_or, BitVec.getLsbD_and, BitVec.getLsbD_not, BitVec.getLsbD_ofNat,
    Nat.testBit_shiftLeft, Nat.testBit_mod_two_pow, h1, hi, decide_true, Bool.true_and]
  by_cases ha : lo ≤ i
  · by_cases hb : i < lo + n
    · have hc : i - lo < n := by omega
      simp [ha, hb, hc]
    · have hc : ¬ i - lo < n := by omega
      simp [ha, hb, hc]
  · simp [ha]

/-- A field reads as what was written to it. -/
theorem fieldOf_withField (w : Word) (lo n v : Nat) (h : lo + n ≤ 64) : fieldOf (withField w lo n v) lo n = v % 2 ^ n := by
  apply Nat.eq_of_testBit_eq
  intro i
  rw [fieldOf_testBit, Nat.testBit_mod_two_pow]
  by_cases hi : i < n
  · rw [withField_getLsbD _ _ _ _ _ (by omega)]
    simp [hi]
  · simp [hi]

/-- A write of one field leaves the fields beside it alone. -/
theorem fieldOf_withField_ne (w : Word) {lo n lo' n' : Nat} (v : Nat) (h : lo' + n' ≤ lo ∨ lo + n ≤ lo') (hn : lo' + n' ≤ 64) :
    fieldOf (withField w lo n v) lo' n' = fieldOf w lo' n' := by
  apply Nat.eq_of_testBit_eq
  intro i
  rw [fieldOf_testBit, fieldOf_testBit]
  by_cases hi : i < n'
  · rw [withField_getLsbD _ _ _ _ _ (by omega), if_neg (by omega)]
  · simp [hi]

theorem fieldOf_lt (w : Word) (lo n : Nat) : fieldOf w lo n < 2 ^ n := Nat.mod_lt _ (by positivity)

/-! ### Whole registers -/

@[simp] theorem State.rd_wr_same (s : State) (k : Nat) (w : Word) : (s.wr k w).rd k = w := SMap.look_store_same _ _ _ _

theorem State.rd_wr_ne (s : State) {k j : Nat} (w : Word) (h : j ≠ k) : (s.wr k w).rd j = s.rd j := SMap.look_store_ne _ _ _ h

theorem State.rd_put_same (s : State) (l : Loc) (v : Nat) : (s.put l v).rd l.key = withField (s.rd l.key) l.lo l.width v :=
  State.rd_wr_same _ _ _

theorem State.rd_put_ne (s : State) {l : Loc} {k : Nat} (v : Nat) (h : k ≠ l.key) : (s.put l v).rd k = s.rd k :=
  State.rd_wr_ne _ _ h

theorem State.rd_inc_ne (s : State) {l : Loc} {k : Nat} (h : k ≠ l.key) : (s.inc l).rd k = s.rd k := State.rd_put_ne _ _ h

/-- What R11 keeps of a cycle is no register. -/
@[simp] theorem State.rd_noteRaised (s : State) (k j : Nat) (m : Word) : (s.noteRaised j m).rd k = s.rd k := rfl
@[simp] theorem State.get_noteRaised (s : State) (l : Loc) (j : Nat) (m : Word) : (s.noteRaised j m).get l = s.get l := rfl
@[simp] theorem State.rd_noteAsked (s : State) (k j : Nat) (m : Word) : (s.noteAsked j m).rd k = s.rd k := rfl

theorem State.rd_raise_ne (s : State) {l : Loc} {k : Nat} (h : k ≠ l.key) : (s.raise l).rd k = s.rd k := State.rd_put_ne _ _ h

theorem State.rd_raiseBit_ne (s : State) {l : Loc} {k : Nat} (i : Nat) (h : k ≠ l.key) : (s.raiseBit l i).rd k = s.rd k :=
  State.rd_put_ne _ _ h

/-! ### Fields -/

theorem State.get_put_same (s : State) (l : Loc) (v : Nat) (h : l.lo + l.width ≤ 64) : (s.put l v).get l = v % 2 ^ l.width := by
  unfold State.get
  rw [State.rd_put_same, fieldOf_withField _ _ _ _ h]

/-- A field takes a value that fits it. -/
theorem State.get_put_fit (s : State) (l : Loc) (v : Nat) (h : l.lo + l.width ≤ 64) (hv : v < 2 ^ l.width) :
    (s.put l v).get l = v := by
  rw [State.get_put_same _ _ _ h, Nat.mod_eq_of_lt hv]

theorem State.get_put_key (s : State) {l m : Loc} (v : Nat) (h : m.key ≠ l.key) : (s.put l v).get m = s.get m := by
  unfold State.get
  rw [State.rd_put_ne _ _ h]

theorem State.get_put_beside (s : State) {l m : Loc} (v : Nat) (hk : m.key = l.key)
    (h : m.lo + m.width ≤ l.lo ∨ l.lo + l.width ≤ m.lo) (hm : m.lo + m.width ≤ 64) : (s.put l v).get m = s.get m := by
  unfold State.get
  rw [hk, State.rd_put_same, fieldOf_withField_ne _ _ h hm]

theorem State.get_wr_key (s : State) {l : Loc} {k : Nat} (w : Word) (h : l.key ≠ k) : (s.wr k w).get l = s.get l := by
  unfold State.get
  rw [State.rd_wr_ne _ _ h]

theorem State.get_lt (s : State) (l : Loc) : s.get l < 2 ^ l.width := fieldOf_lt _ _ _

/-! ### Registers of the harts -/

theorem State.hreg_setHreg_same (s : State) (h n : Nat) (v : Word) : (s.setHreg h n v).hreg h n = v :=
  SMap.look_store_same _ _ _ _

theorem State.hreg_setHreg_ne (s : State) {h n h' n' : Nat} (v : Word) (hk : hartKey h' n' ≠ hartKey h n) :
    (s.setHreg h n v).hreg h' n' = s.hreg h' n' := SMap.look_store_ne _ _ _ hk

/-! ### Memory -/

@[simp] theorem State.readByte_writeByte_same (s : State) (a : Nat) (b : BitVec 8) : (s.writeByte a b).readByte a = b :=
  SMap.look_store_same _ _ _ _

theorem State.readByte_writeByte_ne (s : State) {a x : Nat} (b : BitVec 8) (h : x ≠ a) :
    (s.writeByte a b).readByte x = s.readByte x := SMap.look_store_ne _ _ _ h

/-- Bytes outside a store are left alone. -/
theorem State.readByte_writeBytes_out (s : State) (a : Nat) (l : List (BitVec 8)) {x : Nat} (h : x < a ∨ a + l.length ≤ x) :
    (s.writeBytes a l).readByte x = s.readByte x := by
  induction l generalizing s a with
  | nil => rfl
  | cons b l ih =>
    simp only [List.length_cons] at h
    unfold State.writeBytes
    rw [ih _ _ (by omega), State.readByte_writeByte_ne _ _ (by omega)]

/-- A stored byte reads as stored. -/
theorem State.readByte_writeBytes_in (s : State) (a : Nat) (l : List (BitVec 8)) (i : Nat) (h : i < l.length) :
    (s.writeBytes a l).readByte (a + i) = l[i] := by
  induction l generalizing s a i with
  | nil => simp at h
  | cons b l ih =>
    unfold State.writeBytes
    cases i with
    | zero => rw [State.readByte_writeBytes_out _ _ _ (by omega)]; simp
    | succ i =>
      have := ih (s.writeByte a b) (a + 1) i (by simpa using h)
      rw [Nat.add_assoc, Nat.add_comm 1 i] at this
      simpa using this

/-- Every memory operation keeps the canonical form. -/
theorem State.writeByte_wf (s : State) (a : Nat) (b : BitVec 8) (h : Memory.wf s.mem = true) : Memory.wf (s.writeByte a b).mem = true :=
  SMap.wf_store _ _ _ _ h

theorem State.writeBytes_wf (s : State) (a : Nat) (l : List (BitVec 8)) (h : Memory.wf s.mem = true) :
    Memory.wf (s.writeBytes a l).mem = true := by
  induction l generalizing s a with
  | nil => exact h
  | cons b l ih => exact ih _ _ (State.writeByte_wf s a b h)

end Sys2Proof.Machine
end

