-- ==== Sys2Proof/Laws/Keeps.lean ====
section
/-! SUPPORT. What every operation keeps, said once: the relation from a state to a state it can become, and its laws. -/

namespace Sys2Proof.Machine

/-- What an operation may have done to `r` when it answers `s`: the kinds of state outside `F` stand as they stood, the
invariant holds on, the queue is untouched, and neither time nor the count of free values has run backward. -/
structure Keeps (F : List Kind) (r s : State) : Prop where
  frame : ∀ k, k ∉ F → k.same r s
  inv : Inv r → Inv s
  pending : s.pending = r.pending
  up : r.up ≤ s.up
  free : r.free ≤ s.free

/-- A state that may be answered is one that `Keeps` allows. -/
def OptKeeps (F : List Kind) (r : State) (o : Option State) : Prop := ∀ t, o = some t → Keeps F r t
/-- A next state that is answered is one that `Keeps` allows. -/
def ResKeeps (F : List Kind) (r : State) (o : Result) : Prop := ∀ t, o = .next t → Keeps F r t

variable {F : List Kind} {r s t : State}
theorem Keeps.cut {P : Prop} {s : State} (h : Keeps F r s) (k : Keeps F r s → P) : P := k h
theorem Cut {p P : Prop} (h : p) (k : p → P) : P := k h

theorem OptKeeps.cut {P : Prop} {s : Option State} (h : OptKeeps F r s) (k : OptKeeps F r s → P) : P := k h
theorem OptKeeps.get {o : Option State} (e : o = some t) (h : OptKeeps F r o) : Keeps F r t := h t e
theorem OptKeeps.none : OptKeeps F r none := fun _ h => by cases h
theorem OptKeeps.some (h : Keeps F r t) : OptKeeps F r (some t) := fun _ e => by cases e; exact h
theorem ResKeeps.next (h : Keeps F r t) : ResKeeps F r (.next t) := fun _ e => by cases e; exact h
theorem Keeps.fst {α : Type} {p : State × α} {x : α} (e : p = (t, x)) (h : Keeps F r p.1) : Keeps F r t := by subst e; exact h

theorem Keeps.upd (h : Keeps F r s)
    {regs' : SMap Word} {hregs' : SMap Word} {mem' : List Host.Cell} {up' : Nat} {resp' : Resp} {out' : List Out}
    {free' : Nat} {newtIrq' : Bool} {fieldOps' : FieldOps} {tb' : TimeBase} {hart' : SMap Hart}
    {files' : SMap IntFile} {gftag' : SMap Nat} {die' : SMap Die} {aplic' : SMap AplicSrc} {aplicRegs' : SMap Nat}
    {paused' : List Nat} {csq' : SMap Csq} {slots' : SMap Slot} {posts' : List PostMsg} {launches' : List Launch}
    {nextLaunch' : Nat} {unitAccept' : SMap Nat} {ecc' : SMap Nat} {releasing' : List Res} {viUsed' : SMap Nat}
    {mc' : SMap Mc} {poison' : SMap Bool} {xeKeys' : SMap (List Nat)} {xeLoads' : List XeLoad}
    {slotKey' : SMap (List Nat)} {cache' : SMap CLine} {plru' : SMap Nat} {streams' : SMap Stream}
    {pitonBusy' : SMap Nat} {slices' : SMap SliceTxn} {wbTag' : SMap Nat} {ring' : List Access} {homes' : SMap Home}
    {sf' : SMap SfEnt} {sfPlru' : SMap Nat} {faultN' : Bool} {txIdle' : Bool} {links' : SMap Link}
    {timeWordAt' : Nat} {mesh' : Mesh} {iotlb' : List TlbEnt} {queues' : SMap SpillQ} {qe' : SMap QEng}
    {viBytes' : SMap Nat} {viPend' : SMap Nat} {viAdmin' : SMap (Option ViAdmin)} {fab' : Fab} {ce' : SMap CeEng}
    {cectx' : SMap CeCtx} {boots' : Nat} {pciOpen' : List PciReq} {pciTag' : Nat} {eth' : SMap EthLane}
    {ownReq' : SMap (Option OwnReq)} {invReq' : SMap (Option InvReq)} {nv' : Nv} {ks' : Ks} {belay' : Belay} {pwr' : Pwr}
    {caps' : SMap Capture} {capBusy' : Option Nat} {trace' : SMap Word} {pending' : List Instr}
    (epending : pending' = s.pending) (emem : mem' = s.mem) (eregs : regs' = s.regs) (ehregs : hregs' = s.hregs)
    (eup : up' = s.up) (efree : free' = s.free) (ens : tb'.ns = s.tb.ns) (efrac : tb'.frac = s.tb.frac)
    (eresp : Kind.resp ∈ F ∨ resp' = s.resp) (eout : Kind.out ∈ F ∨ out' = s.out)
    (enewtIrq : Kind.newtIrq ∈ F ∨ newtIrq' = s.newtIrq) (efieldOps : Kind.fieldOps ∈ F ∨ fieldOps' = s.fieldOps)
    (etb : Kind.tb ∈ F ∨ tb' = s.tb) (ehart : Kind.hart ∈ F ∨ hart' = s.hart)
    (efiles : Kind.files ∈ F ∨ files' = s.files) (egftag : Kind.gftag ∈ F ∨ gftag' = s.gftag)
    (edie : Kind.die ∈ F ∨ die' = s.die) (eaplic : Kind.aplic ∈ F ∨ aplic' = s.aplic)
    (eaplicRegs : Kind.aplicRegs ∈ F ∨ aplicRegs' = s.aplicRegs) (epaused : Kind.paused ∈ F ∨ paused' = s.paused)
    (ecsq : Kind.csq ∈ F ∨ csq' = s.csq) (eslots : Kind.slots ∈ F ∨ slots' = s.slots)
    (eposts : Kind.posts ∈ F ∨ posts' = s.posts) (elaunches : Kind.launches ∈ F ∨ launches' = s.launches)
    (enextLaunch : Kind.nextLaunch ∈ F ∨ nextLaunch' = s.nextLaunch)
    (eunitAccept : Kind.unitAccept ∈ F ∨ unitAccept' = s.unitAccept) (eecc : Kind.ecc ∈ F ∨ ecc' = s.ecc)
    (ereleasing : Kind.releasing ∈ F ∨ releasing' = s.releasing) (eviUsed : Kind.viUsed ∈ F ∨ viUsed' = s.viUsed)
    (emc : Kind.mc ∈ F ∨ mc' = s.mc) (epoison : Kind.poison ∈ F ∨ poison' = s.poison)
    (exeKeys : Kind.xeKeys ∈ F ∨ xeKeys' = s.xeKeys) (exeLoads : Kind.xeLoads ∈ F ∨ xeLoads' = s.xeLoads)
    (eslotKey : Kind.slotKey ∈ F ∨ slotKey' = s.slotKey) (ecache : Kind.cache ∈ F ∨ cache' = s.cache)
    (eplru : Kind.plru ∈ F ∨ plru' = s.plru) (estreams : Kind.streams ∈ F ∨ streams' = s.streams)
    (epitonBusy : Kind.pitonBusy ∈ F ∨ pitonBusy' = s.pitonBusy) (eslices : Kind.slices ∈ F ∨ slices' = s.slices)
    (ewbTag : Kind.wbTag ∈ F ∨ wbTag' = s.wbTag) (ering : Kind.ring ∈ F ∨ ring' = s.ring)
    (ehomes : Kind.homes ∈ F ∨ homes' = s.homes) (esf : Kind.sf ∈ F ∨ sf' = s.sf)
    (esfPlru : Kind.sfPlru ∈ F ∨ sfPlru' = s.sfPlru) (efaultN : Kind.faultN ∈ F ∨ faultN' = s.faultN)
    (etxIdle : Kind.txIdle ∈ F ∨ txIdle' = s.txIdle) (elinks : Kind.links ∈ F ∨ links' = s.links)
    (etimeWordAt : Kind.timeWordAt ∈ F ∨ timeWordAt' = s.timeWordAt) (emesh : Kind.mesh ∈ F ∨ mesh' = s.mesh)
    (eiotlb : Kind.iotlb ∈ F ∨ iotlb' = s.iotlb) (equeues : Kind.queues ∈ F ∨ queues' = s.queues)
    (eqe : Kind.qe ∈ F ∨ qe' = s.qe) (eviBytes : Kind.viBytes ∈ F ∨ viBytes' = s.viBytes)
    (eviPend : Kind.viPend ∈ F ∨ viPend' = s.viPend) (eviAdmin : Kind.viAdmin ∈ F ∨ viAdmin' = s.viAdmin)
    (efab : Kind.fab ∈ F ∨ fab' = s.fab) (ece : Kind.ce ∈ F ∨ ce' = s.ce)
    (ecectx : Kind.cectx ∈ F ∨ cectx' = s.cectx) (eboots : Kind.boots ∈ F ∨ boots' = s.boots)
    (epciOpen : Kind.pciOpen ∈ F ∨ pciOpen' = s.pciOpen) (epciTag : Kind.pciTag ∈ F ∨ pciTag' = s.pciTag)
    (eeth : Kind.eth ∈ F ∨ eth' = s.eth) (eownReq : Kind.ownReq ∈ F ∨ ownReq' = s.ownReq)
    (einvReq : Kind.invReq ∈ F ∨ invReq' = s.invReq) (env : Kind.nv ∈ F ∨ nv' = s.nv)
    (eks : Kind.ks ∈ F ∨ ks' = s.ks) (ebelay : Kind.belay ∈ F ∨ belay' = s.belay)
    (epwr : Kind.pwr ∈ F ∨ pwr' = s.pwr) (ecaps : Kind.caps ∈ F ∨ caps' = s.caps)
    (ecapBusy : Kind.capBusy ∈ F ∨ capBusy' = s.capBusy) (etrace : Kind.trace ∈ F ∨ trace' = s.trace) :
    Keeps F r ⟨regs', hregs', mem', up', resp', out', free', newtIrq', fieldOps', tb', hart', files', gftag', die', aplic',
      aplicRegs', paused', csq', slots', posts', launches', nextLaunch', unitAccept', ecc', releasing', viUsed', mc',
      poison', xeKeys', xeLoads', slotKey', cache', plru', streams', pitonBusy', slices', wbTag', ring', homes', sf',
      sfPlru', faultN', txIdle', links', timeWordAt', mesh', iotlb', queues', qe', viBytes', viPend', viAdmin', fab',
      ce', cectx', boots', pciOpen', pciTag', eth', ownReq', invReq', nv', ks', belay', pwr', caps', capBusy',
      trace', pending'⟩ where
  frame k hk := by
    have := h.frame k hk
    cases k
    case regs => exact eregs.trans this
    case hregs => exact ehregs.trans this
    case mem => exact emem.trans this
    case up => exact eup.trans this
    case resp => exact (eresp.resolve_left hk).trans this
    case out => exact (eout.resolve_left hk).trans this
    case free => exact efree.trans this
    case newtIrq => exact (enewtIrq.resolve_left hk).trans this
    case fieldOps => exact (efieldOps.resolve_left hk).trans this
    case tb => exact (etb.resolve_left hk).trans this
    case hart => exact (ehart.resolve_left hk).trans this
    case files => exact (efiles.resolve_left hk).trans this
    case gftag => exact (egftag.resolve_left hk).trans this
    case die => exact (edie.resolve_left hk).trans this
    case aplic => exact (eaplic.resolve_left hk).trans this
    case aplicRegs => exact (eaplicRegs.resolve_left hk).trans this
    case paused => exact (epaused.resolve_left hk).trans this
    case csq => exact (ecsq.resolve_left hk).trans this
    case slots => exact (eslots.resolve_left hk).trans this
    case posts => exact (eposts.resolve_left hk).trans this
    case launches => exact (elaunches.resolve_left hk).trans this
    case nextLaunch => exact (enextLaunch.resolve_left hk).trans this
    case unitAccept => exact (eunitAccept.resolve_left hk).trans this
    case ecc => exact (eecc.resolve_left hk).trans this
    case releasing => exact (ereleasing.resolve_left hk).trans this
    case viUsed => exact (eviUsed.resolve_left hk).trans this
    case mc => exact (emc.resolve_left hk).trans this
    case poison => exact (epoison.resolve_left hk).trans this
    case xeKeys => exact (exeKeys.resolve_left hk).trans this
    case xeLoads => exact (exeLoads.resolve_left hk).trans this
    case slotKey => exact (eslotKey.resolve_left hk).trans this
    case cache => exact (ecache.resolve_left hk).trans this
    case plru => exact (eplru.resolve_left hk).trans this
    case streams => exact (estreams.resolve_left hk).trans this
    case pitonBusy => exact (epitonBusy.resolve_left hk).trans this
    case slices => exact (eslices.resolve_left hk).trans this
    case wbTag => exact (ewbTag.resolve_left hk).trans this
    case ring => exact (ering.resolve_left hk).trans this
    case homes => exact (ehomes.resolve_left hk).trans this
    case sf => exact (esf.resolve_left hk).trans this
    case sfPlru => exact (esfPlru.resolve_left hk).trans this
    case faultN => exact (efaultN.resolve_left hk).trans this
    case txIdle => exact (etxIdle.resolve_left hk).trans this
    case links => exact (elinks.resolve_left hk).trans this
    case timeWordAt => exact (etimeWordAt.resolve_left hk).trans this
    case mesh => exact (emesh.resolve_left hk).trans this
    case iotlb => exact (eiotlb.resolve_left hk).trans this
    case queues => exact (equeues.resolve_left hk).trans this
    case qe => exact (eqe.resolve_left hk).trans this
    case viBytes => exact (eviBytes.resolve_left hk).trans this
    case viPend => exact (eviPend.resolve_left hk).trans this
    case viAdmin => exact (eviAdmin.resolve_left hk).trans this
    case fab => exact (efab.resolve_left hk).trans this
    case ce => exact (ece.resolve_left hk).trans this
    case cectx => exact (ecectx.resolve_left hk).trans this
    case boots => exact (eboots.resolve_left hk).trans this
    case pciOpen => exact (epciOpen.resolve_left hk).trans this
    case pciTag => exact (epciTag.resolve_left hk).trans this
    case eth => exact (eeth.resolve_left hk).trans this
    case ownReq => exact (eownReq.resolve_left hk).trans this
    case invReq => exact (einvReq.resolve_left hk).trans this
    case nv => exact (env.resolve_left hk).trans this
    case ks => exact (eks.resolve_left hk).trans this
    case belay => exact (ebelay.resolve_left hk).trans this
    case pwr => exact (epwr.resolve_left hk).trans this
    case caps => exact (ecaps.resolve_left hk).trans this
    case capBusy => exact (ecapBusy.resolve_left hk).trans this
    case trace => exact (etrace.resolve_left hk).trans this
    case tbRegs => exact fun j hj => (congrArg (fun m => SMap.look regReset m j) eregs).trans (this j hj)
  inv hi := by
    obtain ⟨a, b, c, d, e⟩ := h.inv hi
    exact ⟨emem ▸ a, eregs ▸ b, ehregs ▸ c, ens ▸ d, efrac ▸ e⟩
  pending := epending.trans h.pending
  up := eup ▸ h.up
  free := efree ▸ h.free

theorem Keeps.refl : Keeps F s s := ⟨fun k _ => by cases k <;> first | rfl | exact fun _ _ => Eq.refl _, id, Eq.refl _, le_refl _, le_refl _⟩

theorem Keeps.ite {c : Prop} [Decidable c] {a b : State} (ha : Keeps F r a) (hb : Keeps F r b) : Keeps F r (if c then a else b) := by
  split <;> assumption

theorem Keeps.elim {α : Type} {o : Option α} {a : State} {f : α → State} (ha : Keeps F r a) (hf : ∀ x, Keeps F r (f x)) :
    Keeps F r (o.elim a f) := by
  cases o with
  | none => exact ha
  | some x => exact hf x

theorem OptKeeps.ite {c : Prop} [Decidable c] {a b : Option State} (ha : OptKeeps F r a) (hb : OptKeeps F r b) :
    OptKeeps F r (if c then a else b) := by
  split <;> assumption

theorem ResKeeps.ite {c : Prop} [Decidable c] {a b : Result} (ha : ResKeeps F r a) (hb : ResKeeps F r b) :
    ResKeeps F r (if c then a else b) := by
  split <;> assumption

theorem OptKeeps.orElse {a b : Option State} (ha : OptKeeps F r a) (hb : OptKeeps F r b) :
    OptKeeps F r (a.orElse (fun _ => b)) := by
  cases a with
  | none => exact hb
  | some x => exact ha

theorem Keeps.foldl {α : Type} {f : State → α → State} (hf : ∀ x a, Keeps F r x → Keeps F r (f x a)) (l : List α) :
    ∀ s, Keeps F r s → Keeps F r (l.foldl f s) := by
  induction l with
  | nil => intro s h; exact h
  | cons a l ih => intro s h; exact ih _ (hf _ _ h)

theorem Keeps.foldl_fst {α β : Type} {f : State × β → α → State × β} (hf : ∀ x a, Keeps F r x.1 → Keeps F r (f x a).1)
    (l : List α) : ∀ p, Keeps F r p.1 → Keeps F r (l.foldl f p).1 := by
  induction l with
  | nil => intro s h; exact h
  | cons a l ih => intro s h; exact ih _ (hf _ _ h)

theorem State.forAll_keeps {α : Type} {f : State → α → State} (h : Keeps F r s)
    (hf : ∀ x a, Keeps F r x → Keeps F r (f x a)) (l : List α) : Keeps F r (s.forAll l f) := Keeps.foldl hf l s h

theorem State.when_keeps {c : Prop} [Decidable c] {f : State → State} (h : Keeps F r s)
    (hf : ∀ x, Keeps F r x → Keeps F r (f x)) : Keeps F r (s.when c f) := by
  unfold State.when; split
  · exact hf s h
  · exact h

theorem State.wr_keeps (kregs : Kind.regs ∈ F) (h : Keeps F r s) {k : Nat} (hk : Kind.tbRegs ∈ F ∨ 65536 ≤ k) (v : Word) :
    Keeps F r (s.wr k v) where
  frame j hj := by
    have := h.frame j hj
    cases j
    case regs => exact absurd kregs hj
    case tbRegs =>
      intro i hi
      have hn : 65536 ≤ k := hk.resolve_left hj
      rw [State.rd_wr_ne _ _ (by omega)]
      exact this i hi
    all_goals exact this
  inv hi := { h.inv hi with regs := SMap.wf_store _ _ _ _ (h.inv hi).regs }
  pending := h.pending
  up := h.up
  free := h.free

/-- Registers outside a set of keys dropped to their reset values. -/
theorem Keeps.dropKeys (kregs : Kind.regs ∈ F) (h : Keeps F r s) (f : Nat × Word → Bool)
    (hf : Kind.tbRegs ∈ F ∨ ∀ p : Nat × Word, p.1 < 65536 → f p = true) : Keeps F r { s with regs := s.regs.filter f } where
  frame j hj := by
    have := h.frame j hj
    cases j
    case regs => exact absurd kregs hj
    case tbRegs =>
      intro i hi
      refine Eq.trans ?_ (this i hi)
      exact SMap.look_filter _ _ _ (fun p hp => hf.resolve_left hj p (by rw [hp]; exact hi))
    all_goals exact this
  inv hi := { h.inv hi with regs := SMap.wf_filter _ _ _ (h.inv hi).regs }
  pending := h.pending
  up := h.up
  free := h.free

theorem State.setHreg_keeps (khregs : Kind.hregs ∈ F) (h : Keeps F r s) (a b : Nat) (v : Word) :
    Keeps F r (s.setHreg a b v) where
  frame k hk := by
    have := h.frame k hk
    cases k
    case hregs => exact absurd khregs hk
    all_goals exact this
  inv hi := { h.inv hi with hregs := SMap.wf_store _ _ _ _ (h.inv hi).hregs }
  pending := h.pending
  up := h.up
  free := h.free

/-- Memory changed to another canonical form. -/
theorem Keeps.setMem (kmem : Kind.mem ∈ F) (h : Keeps F r s) {m : List Host.Cell} (hm : Inv s → Memory.wf m = true) :
    Keeps F r { s with mem := m } where
  frame k hk := by
    have := h.frame k hk
    cases k
    case mem => exact absurd kmem hk
    all_goals exact this
  inv hi := { h.inv hi with mem := hm (h.inv hi) }
  pending := h.pending
  up := h.up
  free := h.free

theorem State.writeByte_keeps (kmem : Kind.mem ∈ F) (h : Keeps F r s) (a : Nat) (b : BitVec 8) :
    Keeps F r (s.writeByte a b) := h.setMem kmem (fun hi => SMap.wf_store _ _ _ _ hi.mem)

theorem State.writeBytes_keeps (kmem : Kind.mem ∈ F) (h : Keeps F r s) (a : Nat) (l : List (BitVec 8)) :
    Keeps F r (s.writeBytes a l) := by
  induction l generalizing s a with
  | nil => exact h
  | cons b l ih => exact ih (State.writeByte_keeps kmem h a b) _

theorem State.useFree_keeps (kfree : Kind.free ∈ F) (h : Keeps F r s) : Keeps F r s.useFree where
  frame k hk := by
    have := h.frame k hk
    cases k
    case free => exact absurd kfree hk
    all_goals exact this
  inv hi := { h.inv hi with }
  pending := h.pending
  up := h.up
  free := Nat.le_succ_of_le h.free

/-- Free values used up to a count. -/
theorem Keeps.useTo (kfree : Kind.free ∈ F) (h : Keeps F r s) {n : Nat} (hn : s.free ≤ n) : Keeps F r { s with free := n } where
  frame k hk := by
    have := h.frame k hk
    cases k
    case free => exact absurd kfree hk
    all_goals exact this
  inv hi := { h.inv hi with }
  pending := h.pending
  up := h.up
  free := le_trans h.free hn

/-- Time passes. -/
theorem Keeps.later (kup : Kind.up ∈ F) (h : Keeps F r s) (n : Nat) : Keeps F r { s with up := s.up + n } where
  frame k hk := by
    have := h.frame k hk
    cases k
    case up => exact absurd kup hk
    all_goals exact this
  inv hi := { h.inv hi with }
  pending := h.pending
  up := Nat.le_add_right_of_le h.up
  free := h.free

/-- The time base changed within its bounds. -/
theorem Keeps.setTb (ktb : Kind.tb ∈ F) (h : Keeps F r s) (t : TimeBase) (hn : Inv s → t.ns < 2 ^ 64) (hf : Inv s → t.frac < 2 ^ 42) :
    Keeps F r { s with tb := t } where
  frame k hk := by
    have := h.frame k hk
    cases k
    case tb => exact absurd ktb hk
    all_goals exact this
  inv hi := { h.inv hi with ns := hn (h.inv hi), frac := hf (h.inv hi) }
  pending := h.pending
  up := h.up
  free := h.free

theorem State.setTb_keeps (ktb : Kind.tb ∈ F) (h : Keeps F r s) (t : TimeBase) (hn : t.ns = s.tb.ns) (hf : t.frac = s.tb.frac) :
    Keeps F r (s.setTb t) := h.setTb ktb t (fun hi => by rw [hn]; exact hi.ns) (fun hi => by rw [hf]; exact hi.frac)

theorem State.setTbValue_keeps (ktb : Kind.tb ∈ F) (h : Keeps F r s) (v : Nat) : Keeps F r (s.setTbValue v) :=
  h.setTb ktb _ (fun _ => Nat.mod_lt _ (by decide)) (fun _ => Nat.mod_lt _ (by decide))

end Sys2Proof.Machine
end

