-- ==== Sys2Proof/Laws/KeepsOps.lean ====
section
/-! SUPPORT. What the operations of Machine/Ops.lean keep: the queue, the canonical forms, time, and every kind of state they do not name. -/

namespace Sys2Proof.Machine

set_option linter.unusedTactic false
set_option linter.unreachableTactic false
set_option linter.unusedVariables false

theorem State.put_keeps {F : List Kind} {r s : State} (kregs : Kind.regs ∈ F) (h : Keeps F r s) (l : Loc) (v : Nat) (tl : Kind.tbRegs ∈ F ∨ 65536 ≤ l.key) :
    Keeps F r (State.put s l v) := by
  unfold State.put
  try lift_lets
  repeat' first
  | with_reducible assumption
  | with_reducible apply State.wr_keeps

theorem State.addSat_keeps {F : List Kind} {r s : State} (kregs : Kind.regs ∈ F) (h : Keeps F r s) (l : Loc) (n : Nat) (tl : Kind.tbRegs ∈ F ∨ 65536 ≤ l.key) :
    Keeps F r (State.addSat s l n) := by
  unfold State.addSat
  try lift_lets
  repeat' first
  | with_reducible assumption
  | with_reducible apply State.put_keeps

theorem State.inc_keeps {F : List Kind} {r s : State} (kregs : Kind.regs ∈ F) (h : Keeps F r s) (l : Loc) (tl : Kind.tbRegs ∈ F ∨ 65536 ≤ l.key) :
    Keeps F r (State.inc s l) := by
  unfold State.inc
  try lift_lets
  repeat' first
  | with_reducible assumption
  | with_reducible apply State.addSat_keeps

theorem State.setBitOf_keeps {F : List Kind} {r s : State} (kregs : Kind.regs ∈ F) (h : Keeps F r s) (l : Loc) (i : Nat) (tl : Kind.tbRegs ∈ F ∨ 65536 ≤ l.key) :
    Keeps F r (State.setBitOf s l i) := by
  unfold State.setBitOf
  try lift_lets
  repeat' first
  | with_reducible assumption
  | with_reducible apply State.put_keeps

theorem State.clearBitOf_keeps {F : List Kind} {r s : State} (kregs : Kind.regs ∈ F) (h : Keeps F r s) (l : Loc) (i : Nat) (tl : Kind.tbRegs ∈ F ∨ 65536 ≤ l.key) :
    Keeps F r (State.clearBitOf s l i) := by
  unfold State.clearBitOf
  try lift_lets
  repeat' first
  | with_reducible assumption
  | with_reducible apply State.put_keeps

theorem State.noteRaised_keeps {F : List Kind} {r s : State} (kfieldOps : Kind.fieldOps ∈ F) (h : Keeps F r s) (k : Nat) (m : Word) :
    Keeps F r (State.noteRaised s k m) := by
  unfold State.noteRaised
  try lift_lets
  repeat' first
  | with_reducible assumption
  | exact Or.inl (by with_reducible assumption)
  | (refine Or.inr ?_; (repeat with_reducible apply Nat.le_add_right_of_le); first | decide | omega)
  | with_reducible rfl
  | (with_reducible refine Keeps.upd ?_ rfl rfl rfl rfl rfl rfl rfl rfl ?_ ?_ ?_ ?_ ?_ ?_ ?_ ?_ ?_ ?_ ?_ ?_ ?_ ?_ ?_ ?_ ?_ ?_ ?_ ?_ ?_ ?_ ?_ ?_ ?_ ?_ ?_ ?_ ?_ ?_ ?_ ?_ ?_ ?_ ?_ ?_ ?_ ?_ ?_ ?_ ?_ ?_ ?_ ?_ ?_ ?_ ?_ ?_ ?_ ?_ ?_ ?_ ?_ ?_ ?_ ?_ ?_ ?_ ?_ ?_ ?_ ?_ ?_ <;> first | with_reducible assumption | with_reducible exact Or.inr rfl | with_reducible exact Or.inl (by assumption))
  | with_reducible refine Keeps.ite ?_ ?_
  | split
  | (intro y)

theorem State.raise_keeps {F : List Kind} {r s : State} (kregs : Kind.regs ∈ F) (kfieldOps : Kind.fieldOps ∈ F) (h : Keeps F r s) (l : Loc) (tl : Kind.tbRegs ∈ F ∨ 65536 ≤ l.key) :
    Keeps F r (State.raise s l) := by
  unfold State.raise
  try lift_lets
  repeat' first
  | with_reducible assumption
  | exact Or.inl (by with_reducible assumption)
  | (refine Or.inr ?_; (repeat with_reducible apply Nat.le_add_right_of_le); first | decide | omega)
  | with_reducible rfl
  | with_reducible apply State.put_keeps
  | with_reducible apply State.noteRaised_keeps
  | with_reducible refine Keeps.ite ?_ ?_
  | split
  | (intro y)

theorem State.raiseBit_keeps {F : List Kind} {r s : State} (kregs : Kind.regs ∈ F) (kfieldOps : Kind.fieldOps ∈ F) (h : Keeps F r s) (l : Loc) (i : Nat) (tl : Kind.tbRegs ∈ F ∨ 65536 ≤ l.key) :
    Keeps F r (State.raiseBit s l i) := by
  unfold State.raiseBit
  try lift_lets
  repeat' first
  | with_reducible assumption
  | exact Or.inl (by with_reducible assumption)
  | (refine Or.inr ?_; (repeat with_reducible apply Nat.le_add_right_of_le); first | decide | omega)
  | with_reducible rfl
  | with_reducible apply State.setBitOf_keeps
  | with_reducible apply State.noteRaised_keeps
  | with_reducible refine Keeps.ite ?_ ?_
  | split
  | (intro y)

theorem State.raiseBits_keeps {F : List Kind} {r s : State} (kregs : Kind.regs ∈ F) (kfieldOps : Kind.fieldOps ∈ F) (h : Keeps F r s) (l : Loc) (m : Nat) (tl : Kind.tbRegs ∈ F ∨ 65536 ≤ l.key) :
    Keeps F r (State.raiseBits s l m) := by
  unfold State.raiseBits
  try lift_lets
  repeat' first
  | with_reducible assumption
  | exact Or.inl (by with_reducible assumption)
  | (refine Or.inr ?_; (repeat with_reducible apply Nat.le_add_right_of_le); first | decide | omega)
  | with_reducible rfl
  | with_reducible apply State.put_keeps
  | with_reducible apply State.noteRaised_keeps
  | with_reducible refine Keeps.ite ?_ ?_
  | split
  | (intro y)

theorem State.noteFresh_keeps {F : List Kind} {r s : State} (kfieldOps : Kind.fieldOps ∈ F) (h : Keeps F r s) (k : Nat) (ws : List Word) :
    Keeps F r (State.noteFresh s k ws) := by
  unfold State.noteFresh
  try lift_lets
  repeat' first
  | with_reducible assumption
  | exact Or.inl (by with_reducible assumption)
  | (refine Or.inr ?_; (repeat with_reducible apply Nat.le_add_right_of_le); first | decide | omega)
  | with_reducible rfl
  | (with_reducible refine Keeps.upd ?_ rfl rfl rfl rfl rfl rfl rfl rfl ?_ ?_ ?_ ?_ ?_ ?_ ?_ ?_ ?_ ?_ ?_ ?_ ?_ ?_ ?_ ?_ ?_ ?_ ?_ ?_ ?_ ?_ ?_ ?_ ?_ ?_ ?_ ?_ ?_ ?_ ?_ ?_ ?_ ?_ ?_ ?_ ?_ ?_ ?_ ?_ ?_ ?_ ?_ ?_ ?_ ?_ ?_ ?_ ?_ ?_ ?_ ?_ ?_ ?_ ?_ ?_ ?_ ?_ ?_ ?_ ?_ ?_ ?_ <;> first | with_reducible assumption | with_reducible exact Or.inr rfl | with_reducible exact Or.inl (by assumption))
  | with_reducible refine Keeps.ite ?_ ?_
  | with_reducible refine OptKeeps.get (by with_reducible assumption) ?_
  | with_reducible refine Keeps.elim ?_ ?_
  | with_reducible refine Keeps.foldl_fst ?_ _ _ ?_
  | with_reducible refine Keeps.foldl ?_ _ _ ?_
  | split
  | (with_reducible intro x; refine Keeps.cut (F := F) (r := r) (s := x) ?_ (fun hx => ?_); on_goal 2 => clear_value x)
  | (with_reducible intro x; refine Keeps.cut (F := F) (r := r) (s := x.1) ?_ (fun hx => ?_); on_goal 2 => clear_value x)
  | (with_reducible intro y)
  | (lift_lets; with_reducible intro x; refine Keeps.cut (F := F) (r := r) (s := x) ?_ (fun hx => ?_); on_goal 2 => clear_value x)
  | (lift_lets; with_reducible intro x; refine Keeps.cut (F := F) (r := r) (s := x.1) ?_ (fun hx => ?_); on_goal 2 => clear_value x)
  | (lift_lets; with_reducible intro y)
  | simp only [id]
  | dsimp only

theorem State.noteAsked_keeps {F : List Kind} {r s : State} (kfieldOps : Kind.fieldOps ∈ F) (h : Keeps F r s) (k : Nat) (m : Word) :
    Keeps F r (State.noteAsked s k m) := by
  unfold State.noteAsked
  try lift_lets
  repeat' first
  | with_reducible assumption
  | exact Or.inl (by with_reducible assumption)
  | (refine Or.inr ?_; (repeat with_reducible apply Nat.le_add_right_of_le); first | decide | omega)
  | with_reducible rfl
  | (with_reducible refine Keeps.upd ?_ rfl rfl rfl rfl rfl rfl rfl rfl ?_ ?_ ?_ ?_ ?_ ?_ ?_ ?_ ?_ ?_ ?_ ?_ ?_ ?_ ?_ ?_ ?_ ?_ ?_ ?_ ?_ ?_ ?_ ?_ ?_ ?_ ?_ ?_ ?_ ?_ ?_ ?_ ?_ ?_ ?_ ?_ ?_ ?_ ?_ ?_ ?_ ?_ ?_ ?_ ?_ ?_ ?_ ?_ ?_ ?_ ?_ ?_ ?_ ?_ ?_ ?_ ?_ ?_ ?_ ?_ ?_ ?_ ?_ <;> first | with_reducible assumption | with_reducible exact Or.inr rfl | with_reducible exact Or.inl (by assumption))
  | with_reducible refine Keeps.ite ?_ ?_
  | split
  | (intro y)

theorem State.ask_keeps {F : List Kind} {r s : State} (kregs : Kind.regs ∈ F) (kfieldOps : Kind.fieldOps ∈ F) (h : Keeps F r s) (l : Loc) (tl : Kind.tbRegs ∈ F ∨ 65536 ≤ l.key) :
    Keeps F r (State.ask s l) := by
  unfold State.ask
  try lift_lets
  repeat' first
  | with_reducible assumption
  | exact Or.inl (by with_reducible assumption)
  | (refine Or.inr ?_; (repeat with_reducible apply Nat.le_add_right_of_le); first | decide | omega)
  | with_reducible rfl
  | with_reducible apply State.put_keeps
  | with_reducible apply State.noteAsked_keeps
  | with_reducible refine Keeps.ite ?_ ?_
  | split
  | (intro y)

theorem State.dropAsk_keeps {F : List Kind} {r s : State} (kregs : Kind.regs ∈ F) (h : Keeps F r s) (l : Loc) (tl : Kind.tbRegs ∈ F ∨ 65536 ≤ l.key) :
    Keeps F r (State.dropAsk s l) := by
  unfold State.dropAsk
  try lift_lets
  repeat' first
  | with_reducible assumption
  | exact Or.inl (by with_reducible assumption)
  | (refine Or.inr ?_; (repeat with_reducible apply Nat.le_add_right_of_le); first | decide | omega)
  | with_reducible rfl
  | with_reducible apply State.put_keeps
  | with_reducible refine Keeps.ite ?_ ?_
  | split
  | (intro y)

theorem State.setCsr_keeps {F : List Kind} {r s : State} (khregs : Kind.hregs ∈ F) (h : Keeps F r s) (a1 : Nat) (c : Nat) (v : Nat) :
    Keeps F r (State.setCsr s a1 c v) := by
  unfold State.setCsr
  try lift_lets
  repeat' first
  | with_reducible assumption
  | with_reducible apply State.setHreg_keeps

theorem State.writeLE_keeps {F : List Kind} {r s : State} (kmem : Kind.mem ∈ F) (h : Keeps F r s) (a : Nat) (n : Nat) (v : Nat) :
    Keeps F r (State.writeLE s a n v) := by
  unfold State.writeLE
  try lift_lets
  repeat' first
  | with_reducible assumption
  | with_reducible apply State.writeBytes_keeps

theorem State.answer_keeps {F : List Kind} {r s : State} (kresp : Kind.resp ∈ F) (h : Keeps F r s) (a1 : Resp) :
    Keeps F r (State.answer s a1) := by
  unfold State.answer
  try lift_lets
  repeat' first
  | with_reducible assumption
  | (with_reducible refine Keeps.upd ?_ rfl rfl rfl rfl rfl rfl rfl rfl ?_ ?_ ?_ ?_ ?_ ?_ ?_ ?_ ?_ ?_ ?_ ?_ ?_ ?_ ?_ ?_ ?_ ?_ ?_ ?_ ?_ ?_ ?_ ?_ ?_ ?_ ?_ ?_ ?_ ?_ ?_ ?_ ?_ ?_ ?_ ?_ ?_ ?_ ?_ ?_ ?_ ?_ ?_ ?_ ?_ ?_ ?_ ?_ ?_ ?_ ?_ ?_ ?_ ?_ ?_ ?_ ?_ ?_ ?_ ?_ ?_ ?_ ?_ <;> first | with_reducible assumption | with_reducible exact Or.inr rfl | with_reducible exact Or.inl (by assumption))

theorem State.send_keeps {F : List Kind} {r s : State} (kout : Kind.out ∈ F) (h : Keeps F r s) (o : Out) :
    Keeps F r (State.send s o) := by
  unfold State.send
  try lift_lets
  repeat' first
  | with_reducible assumption
  | (with_reducible refine Keeps.upd ?_ rfl rfl rfl rfl rfl rfl rfl rfl ?_ ?_ ?_ ?_ ?_ ?_ ?_ ?_ ?_ ?_ ?_ ?_ ?_ ?_ ?_ ?_ ?_ ?_ ?_ ?_ ?_ ?_ ?_ ?_ ?_ ?_ ?_ ?_ ?_ ?_ ?_ ?_ ?_ ?_ ?_ ?_ ?_ ?_ ?_ ?_ ?_ ?_ ?_ ?_ ?_ ?_ ?_ ?_ ?_ ?_ ?_ ?_ ?_ ?_ ?_ ?_ ?_ ?_ ?_ ?_ ?_ ?_ ?_ <;> first | with_reducible assumption | with_reducible exact Or.inr rfl | with_reducible exact Or.inl (by assumption))

theorem State.dropEcc_keeps {F : List Kind} {r s : State} (kecc : Kind.ecc ∈ F) (h : Keeps F r s) (k : Nat) :
    Keeps F r (State.dropEcc s k) := by
  unfold State.dropEcc
  try lift_lets
  repeat' first
  | with_reducible assumption
  | exact Or.inl (by with_reducible assumption)
  | (refine Or.inr ?_; (repeat with_reducible apply Nat.le_add_right_of_le); first | decide | omega)
  | with_reducible rfl
  | (with_reducible refine Keeps.upd ?_ rfl rfl rfl rfl rfl rfl rfl rfl ?_ ?_ ?_ ?_ ?_ ?_ ?_ ?_ ?_ ?_ ?_ ?_ ?_ ?_ ?_ ?_ ?_ ?_ ?_ ?_ ?_ ?_ ?_ ?_ ?_ ?_ ?_ ?_ ?_ ?_ ?_ ?_ ?_ ?_ ?_ ?_ ?_ ?_ ?_ ?_ ?_ ?_ ?_ ?_ ?_ ?_ ?_ ?_ ?_ ?_ ?_ ?_ ?_ ?_ ?_ ?_ ?_ ?_ ?_ ?_ ?_ ?_ ?_ <;> first | with_reducible assumption | with_reducible exact Or.inr rfl | with_reducible exact Or.inl (by assumption))
  | with_reducible refine Keeps.ite ?_ ?_
  | with_reducible refine OptKeeps.get (by with_reducible assumption) ?_
  | with_reducible refine Keeps.elim ?_ ?_
  | with_reducible refine Keeps.foldl_fst ?_ _ _ ?_
  | with_reducible refine Keeps.foldl ?_ _ _ ?_
  | split
  | (with_reducible intro x; refine Keeps.cut (F := F) (r := r) (s := x) ?_ (fun hx => ?_); on_goal 2 => clear_value x)
  | (with_reducible intro x; refine Keeps.cut (F := F) (r := r) (s := x.1) ?_ (fun hx => ?_); on_goal 2 => clear_value x)
  | (with_reducible intro y)
  | (lift_lets; with_reducible intro x; refine Keeps.cut (F := F) (r := r) (s := x) ?_ (fun hx => ?_); on_goal 2 => clear_value x)
  | (lift_lets; with_reducible intro x; refine Keeps.cut (F := F) (r := r) (s := x.1) ?_ (fun hx => ?_); on_goal 2 => clear_value x)
  | (lift_lets; with_reducible intro y)
  | simp only [id]
  | dsimp only

theorem State.evqShift_keeps {F : List Kind} {r s : State} (kregs : Kind.regs ∈ F) (h : Keeps F r s) (p n : Nat) :
    Keeps F r (State.evqShift s p n) := by
  induction n generalizing s p
  case zero => exact h
  case succ n ih =>
    unfold State.evqShift
    refine ih ?_ _
    repeat' first
    | with_reducible assumption
    | (refine Or.inr ?_; (repeat with_reducible apply Nat.le_add_right_of_le); first | decide | omega)
    | with_reducible apply State.wr_keeps

theorem State.noteEntry_keeps {F : List Kind} {r s : State} (knewtIrq : Kind.newtIrq ∈ F) (kfieldOps : Kind.fieldOps ∈ F) (h : Keeps F r s)  :
    Keeps F r (State.noteEntry s) := by
  unfold State.noteEntry
  try lift_lets
  repeat' first
  | with_reducible assumption
  | exact Or.inl (by with_reducible assumption)
  | (refine Or.inr ?_; (repeat with_reducible apply Nat.le_add_right_of_le); first | decide | omega)
  | with_reducible rfl
  | (with_reducible refine Keeps.upd ?_ rfl rfl rfl rfl rfl rfl rfl rfl ?_ ?_ ?_ ?_ ?_ ?_ ?_ ?_ ?_ ?_ ?_ ?_ ?_ ?_ ?_ ?_ ?_ ?_ ?_ ?_ ?_ ?_ ?_ ?_ ?_ ?_ ?_ ?_ ?_ ?_ ?_ ?_ ?_ ?_ ?_ ?_ ?_ ?_ ?_ ?_ ?_ ?_ ?_ ?_ ?_ ?_ ?_ ?_ ?_ ?_ ?_ ?_ ?_ ?_ ?_ ?_ ?_ ?_ ?_ ?_ ?_ ?_ ?_ <;> first | with_reducible assumption | with_reducible exact Or.inr rfl | with_reducible exact Or.inl (by assumption))
  | with_reducible refine Keeps.ite ?_ ?_
  | with_reducible refine OptKeeps.get (by with_reducible assumption) ?_
  | with_reducible refine Keeps.elim ?_ ?_
  | with_reducible refine Keeps.foldl_fst ?_ _ _ ?_
  | with_reducible refine Keeps.foldl ?_ _ _ ?_
  | split
  | (with_reducible intro x; refine Keeps.cut (F := F) (r := r) (s := x) ?_ (fun hx => ?_); on_goal 2 => clear_value x)
  | (with_reducible intro x; refine Keeps.cut (F := F) (r := r) (s := x.1) ?_ (fun hx => ?_); on_goal 2 => clear_value x)
  | (with_reducible intro y)
  | (lift_lets; with_reducible intro x; refine Keeps.cut (F := F) (r := r) (s := x) ?_ (fun hx => ?_); on_goal 2 => clear_value x)
  | (lift_lets; with_reducible intro x; refine Keeps.cut (F := F) (r := r) (s := x.1) ?_ (fun hx => ?_); on_goal 2 => clear_value x)
  | (lift_lets; with_reducible intro y)
  | simp only [id]
  | dsimp only

theorem State.evqPush_keeps {F : List Kind} {r s : State} (kregs : Kind.regs ∈ F) (knewtIrq : Kind.newtIrq ∈ F) (kfieldOps : Kind.fieldOps ∈ F) (h : Keeps F r s) (w0 : Nat) (w1 : Nat) (w2 : Nat) (w3 : Nat) :
    Keeps F r (State.evqPush s w0 w1 w2 w3) := by
  unfold State.evqPush
  try lift_lets
  repeat' first
  | with_reducible assumption
  | exact Or.inl (by with_reducible assumption)
  | (refine Or.inr ?_; (repeat with_reducible apply Nat.le_add_right_of_le); first | decide | omega)
  | with_reducible rfl
  | with_reducible apply State.inc_keeps
  | with_reducible apply State.evqShift_keeps
  | with_reducible apply State.wr_keeps
  | with_reducible apply State.put_keeps
  | with_reducible apply State.noteEntry_keeps
  | with_reducible refine Keeps.ite ?_ ?_
  | with_reducible refine OptKeeps.get (by with_reducible assumption) ?_
  | with_reducible refine Keeps.elim ?_ ?_
  | with_reducible refine Keeps.foldl_fst ?_ _ _ ?_
  | with_reducible refine Keeps.foldl ?_ _ _ ?_
  | split
  | (with_reducible intro x; refine Keeps.cut (F := F) (r := r) (s := x) ?_ (fun hx => ?_); on_goal 2 => clear_value x)
  | (with_reducible intro x; refine Keeps.cut (F := F) (r := r) (s := x.1) ?_ (fun hx => ?_); on_goal 2 => clear_value x)
  | (with_reducible intro y)
  | (lift_lets; with_reducible intro x; refine Keeps.cut (F := F) (r := r) (s := x) ?_ (fun hx => ?_); on_goal 2 => clear_value x)
  | (lift_lets; with_reducible intro x; refine Keeps.cut (F := F) (r := r) (s := x.1) ?_ (fun hx => ?_); on_goal 2 => clear_value x)
  | (lift_lets; with_reducible intro y)
  | simp only [id]
  | dsimp only

theorem State.evqEvent_keeps {F : List Kind} {r s : State} (kregs : Kind.regs ∈ F) (knewtIrq : Kind.newtIrq ∈ F) (kfieldOps : Kind.fieldOps ∈ F) (h : Keeps F r s) (n : Nat) (bit : Nat) :
    Keeps F r (State.evqEvent s n bit) := by
  unfold State.evqEvent
  try lift_lets
  repeat' first
  | with_reducible assumption
  | with_reducible apply State.evqPush_keeps

theorem State.event_keeps {F : List Kind} {r s : State} (kregs : Kind.regs ∈ F) (knewtIrq : Kind.newtIrq ∈ F) (kfieldOps : Kind.fieldOps ∈ F) (h : Keeps F r s) (n : Nat) (l : Loc) (en : Nat) (tl : Kind.tbRegs ∈ F ∨ 65536 ≤ l.key) :
    Keeps F r (State.event s n l en) := by
  unfold State.event
  try lift_lets
  repeat' first
  | with_reducible assumption
  | exact Or.inl (by with_reducible assumption)
  | (refine Or.inr ?_; (repeat with_reducible apply Nat.le_add_right_of_le); first | decide | omega)
  | with_reducible rfl
  | with_reducible apply State.raise_keeps
  | with_reducible apply State.evqEvent_keeps
  | with_reducible refine Keeps.ite ?_ ?_
  | split
  | (intro y)

theorem State.crnEvent_keeps {F : List Kind} {r s : State} (kregs : Kind.regs ∈ F) (knewtIrq : Kind.newtIrq ∈ F) (kfieldOps : Kind.fieldOps ∈ F) (h : Keeps F r s) (l : Loc) (tl : Kind.tbRegs ∈ F ∨ 65536 ≤ l.key) :
    Keeps F r (State.crnEvent s l) := by
  unfold State.crnEvent
  try lift_lets
  repeat' first
  | with_reducible assumption
  | with_reducible apply State.event_keeps

theorem State.pauseHarts_keeps {F : List Kind} {r s : State} (kpaused : Kind.paused ∈ F) (h : Keeps F r s) (c : Capture) :
    Keeps F r (State.pauseHarts s c).1 := by
  unfold State.pauseHarts
  try lift_lets
  repeat' first
  | with_reducible assumption
  | (with_reducible refine Keeps.upd ?_ rfl rfl rfl rfl rfl rfl rfl rfl ?_ ?_ ?_ ?_ ?_ ?_ ?_ ?_ ?_ ?_ ?_ ?_ ?_ ?_ ?_ ?_ ?_ ?_ ?_ ?_ ?_ ?_ ?_ ?_ ?_ ?_ ?_ ?_ ?_ ?_ ?_ ?_ ?_ ?_ ?_ ?_ ?_ ?_ ?_ ?_ ?_ ?_ ?_ ?_ ?_ ?_ ?_ ?_ ?_ ?_ ?_ ?_ ?_ ?_ ?_ ?_ ?_ ?_ ?_ ?_ ?_ ?_ ?_ <;> first | with_reducible assumption | with_reducible exact Or.inr rfl | with_reducible exact Or.inl (by assumption))
  | split

theorem State.captureInto_keeps {F : List Kind} {r s : State} (kregs : Kind.regs ∈ F) (kfieldOps : Kind.fieldOps ∈ F) (kpaused : Kind.paused ∈ F) (kcaps : Kind.caps ∈ F) (kcapBusy : Kind.capBusy ∈ F) (h : Keeps F r s) (k : Nat) (c : Capture) :
    Keeps F r (State.captureInto s k c) := by
  unfold State.captureInto
  try lift_lets
  repeat' first
  | with_reducible assumption
  | exact Or.inl (by with_reducible assumption)
  | (refine Or.inr ?_; (repeat with_reducible apply Nat.le_add_right_of_le); first | decide | omega)
  | with_reducible rfl
  | (with_reducible refine Keeps.upd ?_ rfl rfl rfl rfl rfl rfl rfl rfl ?_ ?_ ?_ ?_ ?_ ?_ ?_ ?_ ?_ ?_ ?_ ?_ ?_ ?_ ?_ ?_ ?_ ?_ ?_ ?_ ?_ ?_ ?_ ?_ ?_ ?_ ?_ ?_ ?_ ?_ ?_ ?_ ?_ ?_ ?_ ?_ ?_ ?_ ?_ ?_ ?_ ?_ ?_ ?_ ?_ ?_ ?_ ?_ ?_ ?_ ?_ ?_ ?_ ?_ ?_ ?_ ?_ ?_ ?_ ?_ ?_ ?_ ?_ <;> first | with_reducible assumption | with_reducible exact Or.inr rfl | with_reducible exact Or.inl (by assumption) | with_reducible apply State.pauseHarts_keeps | with_reducible apply State.raiseBit_keeps | with_reducible apply State.put_keeps | with_reducible apply State.when_keeps)
  | with_reducible apply State.pauseHarts_keeps
  | with_reducible apply State.raiseBit_keeps
  | with_reducible apply State.put_keeps
  | with_reducible apply State.when_keeps
  | with_reducible refine Keeps.ite ?_ ?_
  | split
  | (intro y)

theorem State.captureMissed_keeps {F : List Kind} {r s : State} (kregs : Kind.regs ∈ F) (knewtIrq : Kind.newtIrq ∈ F) (kfieldOps : Kind.fieldOps ∈ F) (h : Keeps F r s) :
    Keeps F r (State.captureMissed s) := by
  unfold State.captureMissed
  try lift_lets
  repeat' first
  | with_reducible assumption
  | (refine Or.inr ?_; (repeat with_reducible apply Nat.le_add_right_of_le); first | decide | omega)
  | with_reducible apply State.crnEvent_keeps
  | with_reducible apply State.inc_keeps

theorem State.captureOf_keeps {F : List Kind} {r s : State} (kregs : Kind.regs ∈ F) (knewtIrq : Kind.newtIrq ∈ F) (kfieldOps : Kind.fieldOps ∈ F) (kpaused : Kind.paused ∈ F) (kcaps : Kind.caps ∈ F) (kcapBusy : Kind.capBusy ∈ F) (h : Keeps F r s) (p : State) (trig : Nat) (profile : Nat) (fs : Bool) :
    Keeps F r (State.captureOf s p trig profile fs).1 := by
  unfold State.captureOf
  try lift_lets
  repeat' first
  | with_reducible assumption
  | exact Or.inl (by with_reducible assumption)
  | (refine Or.inr ?_; (repeat with_reducible apply Nat.le_add_right_of_le); first | decide | omega)
  | with_reducible rfl
  | (with_reducible refine Keeps.upd ?_ rfl rfl rfl rfl rfl rfl rfl rfl ?_ ?_ ?_ ?_ ?_ ?_ ?_ ?_ ?_ ?_ ?_ ?_ ?_ ?_ ?_ ?_ ?_ ?_ ?_ ?_ ?_ ?_ ?_ ?_ ?_ ?_ ?_ ?_ ?_ ?_ ?_ ?_ ?_ ?_ ?_ ?_ ?_ ?_ ?_ ?_ ?_ ?_ ?_ ?_ ?_ ?_ ?_ ?_ ?_ ?_ ?_ ?_ ?_ ?_ ?_ ?_ ?_ ?_ ?_ ?_ ?_ ?_ ?_ <;> first | with_reducible assumption | with_reducible exact Or.inr rfl | with_reducible exact Or.inl (by assumption) | with_reducible apply State.pauseHarts_keeps | with_reducible apply State.when_keeps | with_reducible apply State.put_keeps | with_reducible apply State.captureMissed_keeps | with_reducible apply State.captureInto_keeps)
  | with_reducible apply State.pauseHarts_keeps
  | with_reducible apply State.when_keeps
  | with_reducible apply State.put_keeps
  | with_reducible apply State.captureMissed_keeps
  | with_reducible apply State.captureInto_keeps
  | with_reducible refine Keeps.ite ?_ ?_
  | with_reducible refine OptKeeps.get (by with_reducible assumption) ?_
  | with_reducible refine Keeps.elim ?_ ?_
  | with_reducible refine Keeps.foldl_fst ?_ _ _ ?_
  | with_reducible refine Keeps.foldl ?_ _ _ ?_
  | split
  | (with_reducible intro x; refine Keeps.cut (F := F) (r := r) (s := x) ?_ (fun hx => ?_); on_goal 2 => clear_value x)
  | (with_reducible intro x; refine Keeps.cut (F := F) (r := r) (s := x.1) ?_ (fun hx => ?_); on_goal 2 => clear_value x)
  | (with_reducible intro y)
  | (lift_lets; with_reducible intro x; refine Keeps.cut (F := F) (r := r) (s := x) ?_ (fun hx => ?_); on_goal 2 => clear_value x)
  | (lift_lets; with_reducible intro x; refine Keeps.cut (F := F) (r := r) (s := x.1) ?_ (fun hx => ?_); on_goal 2 => clear_value x)
  | (lift_lets; with_reducible intro y)
  | simp only [id]
  | dsimp only

theorem State.capture_keeps {F : List Kind} {r s : State} (kregs : Kind.regs ∈ F) (knewtIrq : Kind.newtIrq ∈ F) (kfieldOps : Kind.fieldOps ∈ F) (kpaused : Kind.paused ∈ F) (kcaps : Kind.caps ∈ F) (kcapBusy : Kind.capBusy ∈ F) (h : Keeps F r s) (trig : Nat) (profile : Nat) (fs : Bool) :
    Keeps F r (State.capture s trig profile fs).1 := by
  unfold State.capture
  try lift_lets
  repeat' first
  | with_reducible assumption
  | exact Or.inl (by with_reducible assumption)
  | (refine Or.inr ?_; (repeat with_reducible apply Nat.le_add_right_of_le); first | decide | omega)
  | with_reducible rfl
  | with_reducible apply State.captureOf_keeps
  | with_reducible refine Keeps.ite ?_ ?_
  | split
  | (intro y)
  | (lift_lets; intro y)
  | dsimp only

theorem State.putRecord_keeps {F : List Kind} {r s : State} (kregs : Kind.regs ∈ F) (h : Keeps F r s) (n : Nat) (ws : List Word) :
    Keeps F r (State.putRecord s n ws) := by
  unfold State.putRecord
  try lift_lets
  repeat' first
  | with_reducible assumption
  | exact Or.inl (by with_reducible assumption)
  | (refine Or.inr ?_; (repeat with_reducible apply Nat.le_add_right_of_le); first | decide | omega)
  | with_reducible rfl
  | with_reducible apply State.wr_keeps
  | with_reducible refine Keeps.ite ?_ ?_
  | with_reducible refine OptKeeps.get (by with_reducible assumption) ?_
  | with_reducible refine Keeps.elim ?_ ?_
  | with_reducible refine Keeps.foldl_fst ?_ _ _ ?_
  | with_reducible refine Keeps.foldl ?_ _ _ ?_
  | split
  | (with_reducible intro x; refine Keeps.cut (F := F) (r := r) (s := x) ?_ (fun hx => ?_); on_goal 2 => clear_value x)
  | (with_reducible intro x; refine Keeps.cut (F := F) (r := r) (s := x.1) ?_ (fun hx => ?_); on_goal 2 => clear_value x)
  | (with_reducible intro y)
  | (lift_lets; with_reducible intro x; refine Keeps.cut (F := F) (r := r) (s := x) ?_ (fun hx => ?_); on_goal 2 => clear_value x)
  | (lift_lets; with_reducible intro x; refine Keeps.cut (F := F) (r := r) (s := x.1) ?_ (fun hx => ?_); on_goal 2 => clear_value x)
  | (lift_lets; with_reducible intro y)
  | simp only [id]
  | dsimp only

theorem State.setFresh_keeps {F : List Kind} {r s : State} (kfieldOps : Kind.fieldOps ∈ F) (h : Keeps F r s) (n : Nat) (ws : List Word) :
    Keeps F r (State.setFresh s n ws) := by
  unfold State.setFresh
  try lift_lets
  repeat' first
  | with_reducible assumption
  | exact Or.inl (by with_reducible assumption)
  | (refine Or.inr ?_; (repeat with_reducible apply Nat.le_add_right_of_le); first | decide | omega)
  | with_reducible rfl
  | (with_reducible refine Keeps.upd ?_ rfl rfl rfl rfl rfl rfl rfl rfl ?_ ?_ ?_ ?_ ?_ ?_ ?_ ?_ ?_ ?_ ?_ ?_ ?_ ?_ ?_ ?_ ?_ ?_ ?_ ?_ ?_ ?_ ?_ ?_ ?_ ?_ ?_ ?_ ?_ ?_ ?_ ?_ ?_ ?_ ?_ ?_ ?_ ?_ ?_ ?_ ?_ ?_ ?_ ?_ ?_ ?_ ?_ ?_ ?_ ?_ ?_ ?_ ?_ ?_ ?_ ?_ ?_ ?_ ?_ ?_ ?_ ?_ ?_ <;> first | with_reducible assumption | with_reducible exact Or.inr rfl | with_reducible exact Or.inl (by assumption))
  | with_reducible refine Keeps.ite ?_ ?_
  | with_reducible refine OptKeeps.get (by with_reducible assumption) ?_
  | with_reducible refine Keeps.elim ?_ ?_
  | with_reducible refine Keeps.foldl_fst ?_ _ _ ?_
  | with_reducible refine Keeps.foldl ?_ _ _ ?_
  | split
  | (with_reducible intro x; refine Keeps.cut (F := F) (r := r) (s := x) ?_ (fun hx => ?_); on_goal 2 => clear_value x)
  | (with_reducible intro x; refine Keeps.cut (F := F) (r := r) (s := x.1) ?_ (fun hx => ?_); on_goal 2 => clear_value x)
  | (with_reducible intro y)
  | (lift_lets; with_reducible intro x; refine Keeps.cut (F := F) (r := r) (s := x) ?_ (fun hx => ?_); on_goal 2 => clear_value x)
  | (lift_lets; with_reducible intro x; refine Keeps.cut (F := F) (r := r) (s := x.1) ?_ (fun hx => ?_); on_goal 2 => clear_value x)
  | (lift_lets; with_reducible intro y)
  | simp only [id]
  | dsimp only

theorem State.clearLog_keeps {F : List Kind} {r s : State} (kregs : Kind.regs ∈ F) (kfieldOps : Kind.fieldOps ∈ F) (h : Keeps F r s) (n : Nat) :
    Keeps F r (State.clearLog s n) := by
  unfold State.clearLog
  try lift_lets
  repeat' first
  | with_reducible assumption
  | exact Or.inl (by with_reducible assumption)
  | (refine Or.inr ?_; (repeat with_reducible apply Nat.le_add_right_of_le); first | decide | omega)
  | with_reducible rfl
  | with_reducible apply State.put_keeps
  | with_reducible apply State.putRecord_keeps
  | with_reducible apply State.setFresh_keeps
  | with_reducible refine Keeps.ite ?_ ?_
  | with_reducible refine OptKeeps.get (by with_reducible assumption) ?_
  | with_reducible refine Keeps.elim ?_ ?_
  | with_reducible refine Keeps.foldl_fst ?_ _ _ ?_
  | with_reducible refine Keeps.foldl ?_ _ _ ?_
  | split
  | (with_reducible intro x; refine Keeps.cut (F := F) (r := r) (s := x) ?_ (fun hx => ?_); on_goal 2 => clear_value x)
  | (with_reducible intro x; refine Keeps.cut (F := F) (r := r) (s := x.1) ?_ (fun hx => ?_); on_goal 2 => clear_value x)
  | (with_reducible intro y)
  | (lift_lets; with_reducible intro x; refine Keeps.cut (F := F) (r := r) (s := x) ?_ (fun hx => ?_); on_goal 2 => clear_value x)
  | (lift_lets; with_reducible intro x; refine Keeps.cut (F := F) (r := r) (s := x.1) ?_ (fun hx => ?_); on_goal 2 => clear_value x)
  | (lift_lets; with_reducible intro y)
  | simp only [id]
  | dsimp only

theorem State.takeRecord_keeps {F : List Kind} {r s : State} (kregs : Kind.regs ∈ F) (kfieldOps : Kind.fieldOps ∈ F) (h : Keeps F r s) (n : Nat) (cause : Nat) (ws : List Word) :
    Keeps F r (State.takeRecord s n cause ws) := by
  unfold State.takeRecord
  try lift_lets
  repeat' first
  | with_reducible assumption
  | exact Or.inl (by with_reducible assumption)
  | (refine Or.inr ?_; (repeat with_reducible apply Nat.le_add_right_of_le); first | decide | omega)
  | with_reducible rfl
  | with_reducible apply State.setFresh_keeps
  | with_reducible apply State.putRecord_keeps
  | with_reducible apply State.put_keeps
  | with_reducible refine Keeps.ite ?_ ?_
  | with_reducible refine OptKeeps.get (by with_reducible assumption) ?_
  | with_reducible refine Keeps.elim ?_ ?_
  | with_reducible refine Keeps.foldl_fst ?_ _ _ ?_
  | with_reducible refine Keeps.foldl ?_ _ _ ?_
  | split
  | (with_reducible intro x; refine Keeps.cut (F := F) (r := r) (s := x) ?_ (fun hx => ?_); on_goal 2 => clear_value x)
  | (with_reducible intro x; refine Keeps.cut (F := F) (r := r) (s := x.1) ?_ (fun hx => ?_); on_goal 2 => clear_value x)
  | (with_reducible intro y)
  | (lift_lets; with_reducible intro x; refine Keeps.cut (F := F) (r := r) (s := x) ?_ (fun hx => ?_); on_goal 2 => clear_value x)
  | (lift_lets; with_reducible intro x; refine Keeps.cut (F := F) (r := r) (s := x.1) ?_ (fun hx => ?_); on_goal 2 => clear_value x)
  | (lift_lets; with_reducible intro y)
  | simp only [id]
  | dsimp only

theorem State.logRec_keeps {F : List Kind} {r s : State} (kregs : Kind.regs ∈ F) (knewtIrq : Kind.newtIrq ∈ F) (kfieldOps : Kind.fieldOps ∈ F) (kpaused : Kind.paused ∈ F) (kcaps : Kind.caps ∈ F) (kcapBusy : Kind.capBusy ∈ F) (h : Keeps F r s) (n : Nat) (cause : Nat) (detail : Nat) (addr : Nat) (c : Issuer) (aux : Nat) :
    Keeps F r (State.logRec s n cause detail addr c aux) := by
  unfold State.logRec
  try lift_lets
  repeat' first
  | with_reducible assumption
  | exact Or.inl (by with_reducible assumption)
  | (refine Or.inr ?_; (repeat with_reducible apply Nat.le_add_right_of_le); first | decide | omega)
  | with_reducible rfl
  | with_reducible apply State.takeRecord_keeps
  | with_reducible apply State.inc_keeps
  | with_reducible apply State.evqPush_keeps
  | with_reducible apply State.capture_keeps
  | with_reducible refine Keeps.ite ?_ ?_
  | with_reducible refine OptKeeps.get (by with_reducible assumption) ?_
  | with_reducible refine Keeps.elim ?_ ?_
  | with_reducible refine Keeps.foldl_fst ?_ _ _ ?_
  | with_reducible refine Keeps.foldl ?_ _ _ ?_
  | split
  | (with_reducible intro x; refine Keeps.cut (F := F) (r := r) (s := x) ?_ (fun hx => ?_); on_goal 2 => clear_value x)
  | (with_reducible intro x; refine Keeps.cut (F := F) (r := r) (s := x.1) ?_ (fun hx => ?_); on_goal 2 => clear_value x)
  | (with_reducible intro y)
  | (lift_lets; with_reducible intro x; refine Keeps.cut (F := F) (r := r) (s := x) ?_ (fun hx => ?_); on_goal 2 => clear_value x)
  | (lift_lets; with_reducible intro x; refine Keeps.cut (F := F) (r := r) (s := x.1) ?_ (fun hx => ?_); on_goal 2 => clear_value x)
  | (lift_lets; with_reducible intro y)
  | simp only [id]
  | dsimp only

theorem State.worldError_keeps {F : List Kind} {r s : State} (kregs : Kind.regs ∈ F) (kresp : Kind.resp ∈ F) (knewtIrq : Kind.newtIrq ∈ F) (kfieldOps : Kind.fieldOps ∈ F) (kpaused : Kind.paused ∈ F) (kcaps : Kind.caps ∈ F) (kcapBusy : Kind.capBusy ∈ F) (h : Keeps F r s) (n : Nat) (addr : Nat) (c : Issuer) :
    Keeps F r (State.worldError s n addr c) := by
  unfold State.worldError
  try lift_lets
  repeat' first
  | with_reducible assumption
  | with_reducible apply State.answer_keeps
  | with_reducible apply State.logRec_keeps

theorem State.viError_keeps {F : List Kind} {r s : State} (kregs : Kind.regs ∈ F) (kresp : Kind.resp ∈ F) (knewtIrq : Kind.newtIrq ∈ F) (kfieldOps : Kind.fieldOps ∈ F) (kpaused : Kind.paused ∈ F) (kcaps : Kind.caps ∈ F) (kcapBusy : Kind.capBusy ∈ F) (h : Keeps F r s) (n : Nat) (addr : Nat) (c : Issuer) :
    Keeps F r (State.viError s n addr c) := by
  unfold State.viError
  try lift_lets
  repeat' first
  | with_reducible assumption
  | with_reducible apply State.answer_keeps
  | with_reducible apply State.logRec_keeps

theorem State.violation_keeps {F : List Kind} {r s : State} (kregs : Kind.regs ∈ F) (kresp : Kind.resp ∈ F) (knewtIrq : Kind.newtIrq ∈ F) (kfieldOps : Kind.fieldOps ∈ F) (kpaused : Kind.paused ∈ F) (kcaps : Kind.caps ∈ F) (kcapBusy : Kind.capBusy ∈ F) (h : Keeps F r s) (n : Nat) (detail : Nat) (addr : Nat) (c : Issuer) :
    Keeps F r (State.violation s n detail addr c) := by
  unfold State.violation
  try lift_lets
  repeat' first
  | with_reducible assumption
  | with_reducible apply State.answer_keeps
  | with_reducible apply State.logRec_keeps

theorem State.forbidden_keeps {F : List Kind} {r s : State} (kregs : Kind.regs ∈ F) (kresp : Kind.resp ∈ F) (knewtIrq : Kind.newtIrq ∈ F) (kfieldOps : Kind.fieldOps ∈ F) (kpaused : Kind.paused ∈ F) (kcaps : Kind.caps ∈ F) (kcapBusy : Kind.capBusy ∈ F) (h : Keeps F r s) (n : Nat) (key : Nat) (c : Issuer) :
    Keeps F r (State.forbidden s n key c) := by
  unfold State.forbidden
  try lift_lets
  repeat' first
  | with_reducible assumption
  | with_reducible apply State.violation_keeps

theorem State.reservedEnc_keeps {F : List Kind} {r s : State} (kregs : Kind.regs ∈ F) (kresp : Kind.resp ∈ F) (knewtIrq : Kind.newtIrq ∈ F) (kfieldOps : Kind.fieldOps ∈ F) (kpaused : Kind.paused ∈ F) (kcaps : Kind.caps ∈ F) (kcapBusy : Kind.capBusy ∈ F) (h : Keeps F r s) (n : Nat) (key : Nat) (c : Issuer) :
    Keeps F r (State.reservedEnc s n key c) := by
  unfold State.reservedEnc
  try lift_lets
  repeat' first
  | with_reducible assumption
  | with_reducible apply State.violation_keeps

theorem State.goEarly_keeps {F : List Kind} {r s : State} (kregs : Kind.regs ∈ F) (kresp : Kind.resp ∈ F) (knewtIrq : Kind.newtIrq ∈ F) (kfieldOps : Kind.fieldOps ∈ F) (kpaused : Kind.paused ∈ F) (kcaps : Kind.caps ∈ F) (kcapBusy : Kind.capBusy ∈ F) (h : Keeps F r s) (n : Nat) (key : Nat) (c : Issuer) :
    Keeps F r (State.goEarly s n key c) := by
  unfold State.goEarly
  try lift_lets
  repeat' first
  | with_reducible assumption
  | with_reducible apply State.violation_keeps

theorem State.otherViolation_keeps {F : List Kind} {r s : State} (kregs : Kind.regs ∈ F) (kresp : Kind.resp ∈ F) (knewtIrq : Kind.newtIrq ∈ F) (kfieldOps : Kind.fieldOps ∈ F) (kpaused : Kind.paused ∈ F) (kcaps : Kind.caps ∈ F) (kcapBusy : Kind.capBusy ∈ F) (h : Keeps F r s) (n : Nat) (key : Nat) (c : Issuer) :
    Keeps F r (State.otherViolation s n key c) := by
  unfold State.otherViolation
  try lift_lets
  repeat' first
  | with_reducible assumption
  | with_reducible apply State.violation_keeps

end Sys2Proof.Machine
end

