-- ==== Sys2Proof/Laws/KeepsOwn.lean ====
section
/-! SUPPORT. What the operations of Machine/Own.lean keep: the queue, the canonical forms, time, and every kind of state they do not name. -/

namespace Sys2Proof.Machine

set_option linter.unusedTactic false
set_option linter.unreachableTactic false
set_option linter.unusedVariables false

theorem State.putBit_keeps {F : List Kind} {r s : State} (kregs : Kind.regs ∈ F) (h : Keeps F r s) (l : Loc) (i : Nat) (b : Bool) (tl : Kind.tbRegs ∈ F ∨ 65536 ≤ l.key) :
    Keeps F r (State.putBit s l i b) := by
  unfold State.putBit
  try lift_lets
  repeat' first
  | with_reducible assumption
  | with_reducible apply State.setBitOf_keeps
  | with_reducible apply State.clearBitOf_keeps
  | with_reducible refine Keeps.ite ?_ ?_

theorem State.setOwner_keeps {F : List Kind} {r s : State} (kregs : Kind.regs ∈ F) (h : Keeps F r s) (a1 : Res) (sealed : Bool) :
    Keeps F r (State.setOwner s a1 sealed) := by
  unfold State.setOwner
  try lift_lets
  repeat' first
  | with_reducible assumption
  | (refine Or.inr ?_; (repeat with_reducible apply Nat.le_add_right_of_le); first | decide | omega)
  | with_reducible apply State.putBit_keeps
  | with_reducible apply State.put_keeps
  | split

theorem State.setVi_keeps {F : List Kind} {r s : State} (kregs : Kind.regs ∈ F) (h : Keeps F r s) (a1 : Res) (v : Option Nat) :
    Keeps F r (State.setVi s a1 v) := by
  unfold State.setVi
  try lift_lets
  repeat' first
  | with_reducible assumption
  | (refine Or.inr ?_; (repeat with_reducible apply Nat.le_add_right_of_le); first | decide | omega)
  | with_reducible apply State.put_keeps
  | split

end Sys2Proof.Machine
end

