-- ==== Sys2Proof/Laws/KeepsIntr.lean ====
section
/-! SUPPORT. What the operations of Machine/Intr.lean keep: the queue, the canonical forms, time, and every kind of state they do not name. -/

namespace Sys2Proof.Machine

set_option linter.unusedTactic false
set_option linter.unreachableTactic false
set_option linter.unusedVariables false

theorem State.setHart_keeps {F : List Kind} {r s : State} (khart : Kind.hart ∈ F) (h : Keeps F r s) (a_h : Nat) (x : Hart) :
    Keeps F r (State.setHart s a_h x) := by
  unfold State.setHart
  try lift_lets
  repeat' first
  | with_reducible assumption
  | exact Or.inl (by with_reducible assumption)
  | (refine Or.inr ?_; (repeat with_reducible apply Nat.le_add_right_of_le); first | decide | omega)
  | with_reducible rfl
  | (with_reducible refine Keeps.upd ?_ rfl rfl rfl rfl rfl rfl rfl rfl ?_ ?_ ?_ ?_ ?_ ?_ ?_ ?_ ?_ ?_ ?_ ?_ ?_ ?_ ?_ ?_ ?_ ?_ ?_ ?_ ?_ ?_ ?_ ?_ ?_ ?_ ?_ ?_ ?_ ?_ ?_ ?_ ?_ ?_ ?_ ?_ ?_ ?_ ?_ ?_ ?_ ?_ ?_ ?_ ?_ ?_ ?_ ?_ ?_ ?_ ?_ ?_ ?_ ?_ ?_ ?_ ?_ ?_ ?_ ?_ ?_ ?_ ?_ <;> first | with_reducible assumption | with_reducible exact Or.inr rfl | with_reducible exact Or.inl (by assumption))
  | with_reducible refine Keeps.ite ?_ ?_
  | split
  | (intro y)
  | (lift_lets; intro y)
  | dsimp only

theorem State.cycleMark_keeps {F : List Kind} {r s : State} (khart : Kind.hart ∈ F) (h : Keeps F r s) (d : Nat) :
    Keeps F r (State.cycleMark s d) := by
  unfold State.cycleMark
  try lift_lets
  repeat' first
  | with_reducible assumption
  | exact Or.inl (by with_reducible assumption)
  | (refine Or.inr ?_; (repeat with_reducible apply Nat.le_add_right_of_le); first | decide | omega)
  | with_reducible rfl
  | with_reducible apply State.forAll_keeps
  | with_reducible apply State.setHart_keeps
  | with_reducible refine Keeps.ite ?_ ?_
  | split
  | (intro y)
  | (lift_lets; intro y)
  | dsimp only

theorem State.setDie_keeps {F : List Kind} {r s : State} (kdie : Kind.die ∈ F) (h : Keeps F r s) (d : Nat) (a2 : Die) :
    Keeps F r (State.setDie s d a2) := by
  unfold State.setDie
  try lift_lets
  repeat' first
  | with_reducible assumption
  | (with_reducible refine Keeps.upd ?_ rfl rfl rfl rfl rfl rfl rfl rfl ?_ ?_ ?_ ?_ ?_ ?_ ?_ ?_ ?_ ?_ ?_ ?_ ?_ ?_ ?_ ?_ ?_ ?_ ?_ ?_ ?_ ?_ ?_ ?_ ?_ ?_ ?_ ?_ ?_ ?_ ?_ ?_ ?_ ?_ ?_ ?_ ?_ ?_ ?_ ?_ ?_ ?_ ?_ ?_ ?_ ?_ ?_ ?_ ?_ ?_ ?_ ?_ ?_ ?_ ?_ ?_ ?_ ?_ ?_ ?_ ?_ ?_ ?_ <;> first | with_reducible assumption | with_reducible exact Or.inr rfl | with_reducible exact Or.inl (by assumption))

theorem State.inMode_keeps {F : List Kind} {r s : State} (khart : Kind.hart ∈ F) (h : Keeps F r s) (a_h : Nat) (m : PrivMode) :
    Keeps F r (State.inMode s a_h m) := by
  unfold State.inMode
  try lift_lets
  repeat' first
  | with_reducible assumption
  | exact Or.inl (by with_reducible assumption)
  | (refine Or.inr ?_; (repeat with_reducible apply Nat.le_add_right_of_le); first | decide | omega)
  | with_reducible rfl
  | with_reducible apply State.setHart_keeps
  | with_reducible refine Keeps.ite ?_ ?_
  | split
  | (intro y)
  | (lift_lets; intro y)
  | dsimp only

theorem State.issue_keeps {F : List Kind} {r s : State}  (h : Keeps F r s) (c : Issuer) (f : Issuer → State → State) (hf : ∀ y0 x, Keeps F r x → Keeps F r (f y0 x)) :
    Keeps F r (State.issue s c f) := by
  unfold State.issue
  try lift_lets
  repeat' first
  | with_reducible assumption
  | exact Or.inl (by with_reducible assumption)
  | (refine Or.inr ?_; (repeat with_reducible apply Nat.le_add_right_of_le); first | decide | omega)
  | with_reducible rfl
  | with_reducible apply hf
  | with_reducible refine Keeps.ite ?_ ?_
  | with_reducible refine OptKeeps.get (by with_reducible assumption) ?_
  | with_reducible refine Keeps.elim ?_ ?_
  | with_reducible refine Keeps.foldl_fst ?_ _ _ ?_
  | with_reducible refine Keeps.foldl ?_ _ _ ?_
  | split
  | (with_reducible intro x; refine Keeps.cut (F := F) (r := r) (s := x) ?_ (fun hx => ?_); on_goal 2 => clear_value x)
  | (with_reducible intro x; refine Keeps.cut (F := F) (r := r) (s := x.1) ?_ (fun hx => ?_); on_goal 2 => clear_value x)
  | (with_reducible intro y)
  | (lift_lets; with_reducible intro x; refine Keeps.cut (F := F) (r := r) (s := x) ?_ (fun hx => ?_); on_goal 2 => clear_value x)
  | (lift_lets; with_reducible intro x; refine Keeps.cut (F := F) (r := r) (s := x.1) ?_ (fun hx => ?_); on_goal 2 => clear_value x)
  | (lift_lets; with_reducible intro y)
  | simp only [id]
  | dsimp only

theorem State.dieAccess_keeps {F : List Kind} {r s : State} (kregs : Kind.regs ∈ F) (kresp : Kind.resp ∈ F) (knewtIrq : Kind.newtIrq ∈ F) (kfieldOps : Kind.fieldOps ∈ F) (kpaused : Kind.paused ∈ F) (kcaps : Kind.caps ∈ F) (kcapBusy : Kind.capBusy ∈ F) (h : Keeps F r s) (d : Nat) (key : Nat) (c : Issuer) (f : State → State) (hf : ∀ x, Keeps F r x → Keeps F r (f x)) :
    Keeps F r (State.dieAccess s d key c f) := by
  unfold State.dieAccess
  try lift_lets
  repeat' first
  | with_reducible assumption
  | exact Or.inl (by with_reducible assumption)
  | (refine Or.inr ?_; (repeat with_reducible apply Nat.le_add_right_of_le); first | decide | omega)
  | with_reducible rfl
  | with_reducible apply hf
  | with_reducible apply State.answer_keeps
  | with_reducible apply State.logRec_keeps
  | with_reducible refine Keeps.ite ?_ ?_
  | with_reducible refine OptKeeps.get (by with_reducible assumption) ?_
  | with_reducible refine Keeps.elim ?_ ?_
  | with_reducible refine Keeps.foldl_fst ?_ _ _ ?_
  | with_reducible refine Keeps.foldl ?_ _ _ ?_
  | split
  | (with_reducible intro x; refine Keeps.cut (F := F) (r := r) (s := x) ?_ (fun hx => ?_); on_goal 2 => clear_value x)
  | (with_reducible intro x; refine Keeps.cut (F := F) (r := r) (s := x.1) ?_ (fun hx => ?_); on_goal 2 => clear_value x)
  | (with_reducible intro y)
  | (lift_lets; with_reducible intro x; refine Keeps.cut (F := F) (r := r) (s := x) ?_ (fun hx => ?_); on_goal 2 => clear_value x)
  | (lift_lets; with_reducible intro x; refine Keeps.cut (F := F) (r := r) (s := x.1) ?_ (fun hx => ?_); on_goal 2 => clear_value x)
  | (lift_lets; with_reducible intro y)
  | simp only [id]
  | dsimp only

theorem State.setIntFile_keeps {F : List Kind} {r s : State} (kfiles : Kind.files ∈ F) (h : Keeps F r s) (a1 : Nat) (f : Nat) (a3 : IntFile) :
    Keeps F r (State.setIntFile s a1 f a3) := by
  unfold State.setIntFile
  try lift_lets
  repeat' first
  | with_reducible assumption
  | (with_reducible refine Keeps.upd ?_ rfl rfl rfl rfl rfl rfl rfl rfl ?_ ?_ ?_ ?_ ?_ ?_ ?_ ?_ ?_ ?_ ?_ ?_ ?_ ?_ ?_ ?_ ?_ ?_ ?_ ?_ ?_ ?_ ?_ ?_ ?_ ?_ ?_ ?_ ?_ ?_ ?_ ?_ ?_ ?_ ?_ ?_ ?_ ?_ ?_ ?_ ?_ ?_ ?_ ?_ ?_ ?_ ?_ ?_ ?_ ?_ ?_ ?_ ?_ ?_ ?_ ?_ ?_ ?_ ?_ ?_ ?_ ?_ ?_ <;> first | with_reducible assumption | with_reducible exact Or.inr rfl | with_reducible exact Or.inl (by assumption))

theorem State.recordId_keeps {F : List Kind} {r s : State} (kfiles : Kind.files ∈ F) (h : Keeps F r s) (a1 : Nat) (f : Nat) (eiid : Nat) :
    Keeps F r (State.recordId s a1 f eiid) := by
  unfold State.recordId
  try lift_lets
  repeat' first
  | with_reducible assumption
  | with_reducible apply State.setIntFile_keeps
  | with_reducible refine Keeps.ite ?_ ?_

theorem State.msi_keeps {F : List Kind} {r s : State} (kregs : Kind.regs ∈ F) (kresp : Kind.resp ∈ F) (knewtIrq : Kind.newtIrq ∈ F) (kfieldOps : Kind.fieldOps ∈ F) (kfiles : Kind.files ∈ F) (kpaused : Kind.paused ∈ F) (kcaps : Kind.caps ∈ F) (kcapBusy : Kind.capBusy ∈ F) (h : Keeps F r s) (c : Issuer) (a : Nat) (data : Nat) :
    Keeps F r (State.msi s c a data) := by
  unfold State.msi
  try lift_lets
  repeat' first
  | with_reducible assumption
  | exact Or.inl (by with_reducible assumption)
  | (refine Or.inr ?_; (repeat with_reducible apply Nat.le_add_right_of_le); first | decide | omega)
  | with_reducible rfl
  | with_reducible apply State.violation_keeps
  | with_reducible apply State.logRec_keeps
  | with_reducible apply State.answer_keeps
  | with_reducible apply State.worldError_keeps
  | with_reducible apply State.recordId_keeps
  | with_reducible apply State.viError_keeps
  | with_reducible refine Keeps.ite ?_ ?_
  | split
  | (intro y)
  | (lift_lets; intro y)
  | dsimp only

theorem execMsiWrite_keeps {F : List Kind} {r s : State} (kregs : Kind.regs ∈ F) (kresp : Kind.resp ∈ F) (knewtIrq : Kind.newtIrq ∈ F) (kfieldOps : Kind.fieldOps ∈ F) (kfiles : Kind.files ∈ F) (kpaused : Kind.paused ∈ F) (kcaps : Kind.caps ∈ F) (kcapBusy : Kind.capBusy ∈ F) (h : Keeps F r s) (c : Issuer) (addr : PAddr) (data : Nat) :
    ResKeeps F r (execMsiWrite c addr data s) := by
  unfold execMsiWrite
  try lift_lets
  repeat' first
  | with_reducible assumption
  | exact Or.inl (by with_reducible assumption)
  | (refine Or.inr ?_; (repeat with_reducible apply Nat.le_add_right_of_le); first | decide | omega)
  | with_reducible rfl
  | with_reducible apply State.issue_keeps
  | with_reducible apply State.msi_keeps
  | with_reducible apply ResKeeps.next
  | with_reducible refine ResKeeps.ite ?_ ?_
  | with_reducible refine Keeps.ite ?_ ?_
  | with_reducible refine OptKeeps.get (by with_reducible assumption) ?_
  | with_reducible refine Keeps.elim ?_ ?_
  | with_reducible refine Keeps.foldl_fst ?_ _ _ ?_
  | with_reducible refine Keeps.foldl ?_ _ _ ?_
  | split
  | (with_reducible intro x; refine Keeps.cut (F := F) (r := r) (s := x) ?_ (fun hx => ?_); on_goal 2 => clear_value x)
  | (with_reducible intro x; refine Keeps.cut (F := F) (r := r) (s := x.1) ?_ (fun hx => ?_); on_goal 2 => clear_value x)
  | (with_reducible intro y)
  | (lift_lets; with_reducible intro x; refine Keeps.cut (F := F) (r := r) (s := x) ?_ (fun hx => ?_); on_goal 2 => clear_value x)
  | (lift_lets; with_reducible intro x; refine Keeps.cut (F := F) (r := r) (s := x.1) ?_ (fun hx => ?_); on_goal 2 => clear_value x)
  | (lift_lets; with_reducible intro y)
  | simp only [id]
  | dsimp only

theorem State.aplicForward_keeps {F : List Kind} {r s : State} (kregs : Kind.regs ∈ F) (kresp : Kind.resp ∈ F) (knewtIrq : Kind.newtIrq ∈ F) (kfieldOps : Kind.fieldOps ∈ F) (kfiles : Kind.files ∈ F) (kaplic : Kind.aplic ∈ F) (kpaused : Kind.paused ∈ F) (kcaps : Kind.caps ∈ F) (kcapBusy : Kind.capBusy ∈ F) (h : Keeps F r s) (src : Nat) :
    Keeps F r (State.aplicForward s src) := by
  unfold State.aplicForward
  try lift_lets
  repeat' first
  | with_reducible assumption
  | (with_reducible refine Keeps.upd ?_ rfl rfl rfl rfl rfl rfl rfl rfl ?_ ?_ ?_ ?_ ?_ ?_ ?_ ?_ ?_ ?_ ?_ ?_ ?_ ?_ ?_ ?_ ?_ ?_ ?_ ?_ ?_ ?_ ?_ ?_ ?_ ?_ ?_ ?_ ?_ ?_ ?_ ?_ ?_ ?_ ?_ ?_ ?_ ?_ ?_ ?_ ?_ ?_ ?_ ?_ ?_ ?_ ?_ ?_ ?_ ?_ ?_ ?_ ?_ ?_ ?_ ?_ ?_ ?_ ?_ ?_ ?_ ?_ ?_ <;> first | with_reducible assumption | with_reducible exact Or.inr rfl | with_reducible exact Or.inl (by assumption) | with_reducible apply State.msi_keeps)
  | with_reducible refine Keeps.ite ?_ ?_

theorem State.aplicLine_keeps {F : List Kind} {r s : State} (kregs : Kind.regs ∈ F) (kresp : Kind.resp ∈ F) (knewtIrq : Kind.newtIrq ∈ F) (kfieldOps : Kind.fieldOps ∈ F) (kfiles : Kind.files ∈ F) (kaplic : Kind.aplic ∈ F) (kpaused : Kind.paused ∈ F) (kcaps : Kind.caps ∈ F) (kcapBusy : Kind.capBusy ∈ F) (h : Keeps F r s) (src : Nat) (level : Bool) :
    Keeps F r (State.aplicLine s src level) := by
  unfold State.aplicLine
  try lift_lets
  repeat' first
  | with_reducible assumption
  | (with_reducible refine Keeps.upd ?_ rfl rfl rfl rfl rfl rfl rfl rfl ?_ ?_ ?_ ?_ ?_ ?_ ?_ ?_ ?_ ?_ ?_ ?_ ?_ ?_ ?_ ?_ ?_ ?_ ?_ ?_ ?_ ?_ ?_ ?_ ?_ ?_ ?_ ?_ ?_ ?_ ?_ ?_ ?_ ?_ ?_ ?_ ?_ ?_ ?_ ?_ ?_ ?_ ?_ ?_ ?_ ?_ ?_ ?_ ?_ ?_ ?_ ?_ ?_ ?_ ?_ ?_ ?_ ?_ ?_ ?_ ?_ ?_ ?_ <;> first | with_reducible assumption | with_reducible exact Or.inr rfl | with_reducible exact Or.inl (by assumption) | with_reducible apply State.aplicForward_keeps)
  | with_reducible refine Keeps.ite ?_ ?_
  | dsimp only

theorem State.aplicPulse_keeps {F : List Kind} {r s : State} (kregs : Kind.regs ∈ F) (kresp : Kind.resp ∈ F) (knewtIrq : Kind.newtIrq ∈ F) (kfieldOps : Kind.fieldOps ∈ F) (kfiles : Kind.files ∈ F) (kaplic : Kind.aplic ∈ F) (kpaused : Kind.paused ∈ F) (kcaps : Kind.caps ∈ F) (kcapBusy : Kind.capBusy ∈ F) (h : Keeps F r s) (src : Nat) :
    Keeps F r (State.aplicPulse s src) := by
  unfold State.aplicPulse
  try lift_lets
  repeat' first
  | with_reducible assumption
  | with_reducible apply State.aplicLine_keeps

theorem execAplicSource_keeps {F : List Kind} {r s : State} (kregs : Kind.regs ∈ F) (kresp : Kind.resp ∈ F) (knewtIrq : Kind.newtIrq ∈ F) (kfieldOps : Kind.fieldOps ∈ F) (kfiles : Kind.files ∈ F) (kaplic : Kind.aplic ∈ F) (kpaused : Kind.paused ∈ F) (kcaps : Kind.caps ∈ F) (kcapBusy : Kind.capBusy ∈ F) (h : Keeps F r s) (src : Fin 512) (level : Bool) :
    ResKeeps F r (execAplicSource src level s) := by
  unfold execAplicSource
  try lift_lets
  repeat' first
  | with_reducible assumption
  | with_reducible apply State.aplicLine_keeps
  | with_reducible apply ResKeeps.next

theorem State.putAplic_keeps {F : List Kind} {r s : State} (kaplicRegs : Kind.aplicRegs ∈ F) (h : Keeps F r s) (dom : Nat) (off : Nat) (v : Nat) :
    Keeps F r (State.putAplic s dom off v) := by
  unfold State.putAplic
  try lift_lets
  repeat' first
  | with_reducible assumption
  | (with_reducible refine Keeps.upd ?_ rfl rfl rfl rfl rfl rfl rfl rfl ?_ ?_ ?_ ?_ ?_ ?_ ?_ ?_ ?_ ?_ ?_ ?_ ?_ ?_ ?_ ?_ ?_ ?_ ?_ ?_ ?_ ?_ ?_ ?_ ?_ ?_ ?_ ?_ ?_ ?_ ?_ ?_ ?_ ?_ ?_ ?_ ?_ ?_ ?_ ?_ ?_ ?_ ?_ ?_ ?_ ?_ ?_ ?_ ?_ ?_ ?_ ?_ ?_ ?_ ?_ ?_ ?_ ?_ ?_ ?_ ?_ ?_ ?_ <;> first | with_reducible assumption | with_reducible exact Or.inr rfl | with_reducible exact Or.inl (by assumption))

theorem State.aplicSetPend_keeps {F : List Kind} {r s : State} (kregs : Kind.regs ∈ F) (kresp : Kind.resp ∈ F) (knewtIrq : Kind.newtIrq ∈ F) (kfieldOps : Kind.fieldOps ∈ F) (kfiles : Kind.files ∈ F) (kaplic : Kind.aplic ∈ F) (kpaused : Kind.paused ∈ F) (kcaps : Kind.caps ∈ F) (kcapBusy : Kind.capBusy ∈ F) (h : Keeps F r s) (dom : Nat) (src : Nat) (b : Bool) :
    Keeps F r (State.aplicSetPend s dom src b) := by
  unfold State.aplicSetPend
  try lift_lets
  repeat' first
  | with_reducible assumption
  | (with_reducible refine Keeps.upd ?_ rfl rfl rfl rfl rfl rfl rfl rfl ?_ ?_ ?_ ?_ ?_ ?_ ?_ ?_ ?_ ?_ ?_ ?_ ?_ ?_ ?_ ?_ ?_ ?_ ?_ ?_ ?_ ?_ ?_ ?_ ?_ ?_ ?_ ?_ ?_ ?_ ?_ ?_ ?_ ?_ ?_ ?_ ?_ ?_ ?_ ?_ ?_ ?_ ?_ ?_ ?_ ?_ ?_ ?_ ?_ ?_ ?_ ?_ ?_ ?_ ?_ ?_ ?_ ?_ ?_ ?_ ?_ ?_ ?_ <;> first | with_reducible assumption | with_reducible exact Or.inr rfl | with_reducible exact Or.inl (by assumption) | with_reducible apply State.aplicForward_keeps)
  | with_reducible refine Keeps.ite ?_ ?_

theorem State.aplicSetEn_keeps {F : List Kind} {r s : State} (kregs : Kind.regs ∈ F) (kresp : Kind.resp ∈ F) (knewtIrq : Kind.newtIrq ∈ F) (kfieldOps : Kind.fieldOps ∈ F) (kfiles : Kind.files ∈ F) (kaplic : Kind.aplic ∈ F) (kaplicRegs : Kind.aplicRegs ∈ F) (kpaused : Kind.paused ∈ F) (kcaps : Kind.caps ∈ F) (kcapBusy : Kind.capBusy ∈ F) (h : Keeps F r s) (dom : Nat) (src : Nat) (b : Bool) :
    Keeps F r (State.aplicSetEn s dom src b) := by
  unfold State.aplicSetEn
  try lift_lets
  repeat' first
  | with_reducible assumption
  | with_reducible apply State.aplicForward_keeps
  | with_reducible apply State.putAplic_keeps
  | with_reducible refine Keeps.ite ?_ ?_

theorem State.aplicSourceCfg_keeps {F : List Kind} {r s : State} (kaplic : Kind.aplic ∈ F) (kaplicRegs : Kind.aplicRegs ∈ F) (h : Keeps F r s) (dom : Nat) (src : Nat) (v : Nat) :
    Keeps F r (State.aplicSourceCfg s dom src v) := by
  unfold State.aplicSourceCfg
  try lift_lets
  repeat' first
  | with_reducible assumption
  | (with_reducible refine Keeps.upd ?_ rfl rfl rfl rfl rfl rfl rfl rfl ?_ ?_ ?_ ?_ ?_ ?_ ?_ ?_ ?_ ?_ ?_ ?_ ?_ ?_ ?_ ?_ ?_ ?_ ?_ ?_ ?_ ?_ ?_ ?_ ?_ ?_ ?_ ?_ ?_ ?_ ?_ ?_ ?_ ?_ ?_ ?_ ?_ ?_ ?_ ?_ ?_ ?_ ?_ ?_ ?_ ?_ ?_ ?_ ?_ ?_ ?_ ?_ ?_ ?_ ?_ ?_ ?_ ?_ ?_ ?_ ?_ ?_ ?_ <;> first | with_reducible assumption | with_reducible exact Or.inr rfl | with_reducible exact Or.inl (by assumption) | with_reducible apply State.putAplic_keeps)
  | with_reducible refine Keeps.ite ?_ ?_

theorem State.writeAplic_keeps {F : List Kind} {r s : State} (kregs : Kind.regs ∈ F) (kresp : Kind.resp ∈ F) (knewtIrq : Kind.newtIrq ∈ F) (kfieldOps : Kind.fieldOps ∈ F) (kfiles : Kind.files ∈ F) (kaplic : Kind.aplic ∈ F) (kaplicRegs : Kind.aplicRegs ∈ F) (kpaused : Kind.paused ∈ F) (kcaps : Kind.caps ∈ F) (kcapBusy : Kind.capBusy ∈ F) (h : Keeps F r s) (dom : Nat) (off : Nat) (v : Nat) :
    Keeps F r (State.writeAplic s dom off v) := by
  unfold State.writeAplic
  try lift_lets
  repeat' first
  | with_reducible assumption
  | with_reducible apply State.forAll_keeps
  | with_reducible apply State.putAplic_keeps
  | with_reducible apply State.aplicForward_keeps
  | with_reducible apply State.aplicSourceCfg_keeps
  | with_reducible apply State.aplicSetPend_keeps
  | with_reducible apply State.aplicSetEn_keeps
  | with_reducible apply State.msi_keeps
  | with_reducible refine Keeps.ite ?_ ?_
  | (intro y)

end Sys2Proof.Machine
end

