-- ==== Sys2Proof/Laws/KeepsPmc.lean ====
section
/-! SUPPORT. What the operations of Machine/Pmc.lean keep: the queue, the canonical forms, time, and every kind of state they do not name. -/

namespace Sys2Proof.Machine

set_option linter.unusedTactic false
set_option linter.unreachableTactic false
set_option linter.unusedVariables false

theorem State.pmcAdd_keeps {F : List Kind} {r s : State} (kregs : Kind.regs ∈ F) (kresp : Kind.resp ∈ F) (knewtIrq : Kind.newtIrq ∈ F) (kfieldOps : Kind.fieldOps ∈ F) (kfiles : Kind.files ∈ F) (kaplic : Kind.aplic ∈ F) (kpaused : Kind.paused ∈ F) (kcaps : Kind.caps ∈ F) (kcapBusy : Kind.capBusy ∈ F) (h : Keeps F r s) (i : Nat) (n : Nat) :
    Keeps F r (State.pmcAdd s i n) := by
  unfold State.pmcAdd
  try lift_lets
  repeat' first
  | with_reducible assumption
  | exact Or.inl (by with_reducible assumption)
  | (refine Or.inr ?_; (repeat with_reducible apply Nat.le_add_right_of_le); first | decide | omega)
  | with_reducible rfl
  | with_reducible apply State.put_keeps
  | with_reducible apply State.raiseBit_keeps
  | with_reducible apply State.aplicLine_keeps
  | with_reducible refine Keeps.ite ?_ ?_
  | split
  | (intro y)
  | (lift_lets; intro y)
  | dsimp only

theorem State.pmc_keeps {F : List Kind} {r s : State} (kregs : Kind.regs ∈ F) (kresp : Kind.resp ∈ F) (knewtIrq : Kind.newtIrq ∈ F) (kfieldOps : Kind.fieldOps ∈ F) (kfiles : Kind.files ∈ F) (kaplic : Kind.aplic ∈ F) (kpaused : Kind.paused ∈ F) (kcaps : Kind.caps ∈ F) (kcapBusy : Kind.capBusy ∈ F) (h : Keeps F r s) (u : Nat) (inst : Nat) (ev : Nat) (n : Nat) (w : Bool) (vi : Option Nat) :
    Keeps F r (State.pmc s u inst ev n w vi) := by
  unfold State.pmc
  try lift_lets
  repeat' first
  | with_reducible assumption
  | with_reducible apply State.forAll_keeps
  | with_reducible apply State.pmcAdd_keeps
  | (intro y)

theorem State.pmcTime_keeps {F : List Kind} {r s : State} (kregs : Kind.regs ∈ F) (kresp : Kind.resp ∈ F) (knewtIrq : Kind.newtIrq ∈ F) (kfieldOps : Kind.fieldOps ∈ F) (kfiles : Kind.files ∈ F) (kaplic : Kind.aplic ∈ F) (kpaused : Kind.paused ∈ F) (kcaps : Kind.caps ∈ F) (kcapBusy : Kind.capBusy ∈ F) (h : Keeps F r s) (n : Nat) :
    Keeps F r (State.pmcTime s n) := by
  unfold State.pmcTime
  try lift_lets
  repeat' first
  | with_reducible assumption
  | with_reducible apply State.forAll_keeps
  | with_reducible apply State.pmcAdd_keeps
  | (intro y)

theorem State.pmcTick_keeps {F : List Kind} {r s : State} (kregs : Kind.regs ∈ F) (h : Keeps F r s) (ended : Nat) :
    Keeps F r (State.pmcTick s ended) := by
  unfold State.pmcTick
  try lift_lets
  repeat' first
  | with_reducible assumption
  | (refine Or.inr ?_; (repeat with_reducible apply Nat.le_add_right_of_le); first | decide | omega)
  | with_reducible apply State.forAll_keeps
  | with_reducible apply State.put_keeps
  | (intro y)

theorem State.newCycle_keeps {F : List Kind} {r s : State} (kfieldOps : Kind.fieldOps ∈ F) (h : Keeps F r s)  :
    Keeps F r (State.newCycle s) := by
  unfold State.newCycle
  try lift_lets
  repeat' first
  | with_reducible assumption
  | exact Or.inl (by with_reducible assumption)
  | (refine Or.inr ?_; (repeat with_reducible apply Nat.le_add_right_of_le); first | decide | omega)
  | with_reducible rfl
  | (with_reducible refine Keeps.upd ?_ rfl rfl rfl rfl rfl rfl rfl rfl ?_ ?_ ?_ ?_ ?_ ?_ ?_ ?_ ?_ ?_ ?_ ?_ ?_ ?_ ?_ ?_ ?_ ?_ ?_ ?_ ?_ ?_ ?_ ?_ ?_ ?_ ?_ ?_ ?_ ?_ ?_ ?_ ?_ ?_ ?_ ?_ ?_ ?_ ?_ ?_ ?_ ?_ ?_ ?_ ?_ ?_ ?_ ?_ ?_ ?_ ?_ ?_ ?_ ?_ ?_ ?_ ?_ ?_ ?_ ?_ ?_ ?_ ?_ <;> first | with_reducible assumption | with_reducible exact Or.inr rfl | with_reducible exact Or.inl (by assumption))
  | with_reducible refine Keeps.ite ?_ ?_
  | with_reducible refine OptKeeps.get (by with_reducible assumption) ?_
  | with_reducible refine Keeps.elim ?_ ?_
  | with_reducible refine Keeps.foldl_fst ?_ _ _ ?_
  | with_reducible refine Keeps.foldl ?_ _ _ ?_
  | split
  | (with_reducible intro x; refine Keeps.cut (F := F) (r := r) (s := x) ?_ (fun hx => ?_); on_goal 2 => clear_value x)
  | (with_reducible intro x; refine Keeps.cut (F := F) (r := r) (s := x.1) ?_ (fun hx => ?_); on_goal 2 => clear_value x)
  | (with_reducible intro y)
  | (lift_lets; with_reducible intro x; refine Keeps.cut (F := F) (r := r) (s := x) ?_ (fun hx => ?_); on_goal 2 => clear_value x)
  | (lift_lets; with_reducible intro x; refine Keeps.cut (F := F) (r := r) (s := x.1) ?_ (fun hx => ?_); on_goal 2 => clear_value x)
  | (lift_lets; with_reducible intro y)
  | simp only [id]
  | dsimp only

theorem State.elapse_keeps {F : List Kind} {r s : State} (kregs : Kind.regs ∈ F) (kup : Kind.up ∈ F) (kresp : Kind.resp ∈ F) (knewtIrq : Kind.newtIrq ∈ F) (kfieldOps : Kind.fieldOps ∈ F) (ktb : Kind.tb ∈ F) (kfiles : Kind.files ∈ F) (kaplic : Kind.aplic ∈ F) (kpaused : Kind.paused ∈ F) (kcaps : Kind.caps ∈ F) (kcapBusy : Kind.capBusy ∈ F) (h : Keeps F r s) (n : Nat) : Keeps F r (s.elapse n) := by
  have h1 : Keeps F r (s.pmcTime n) := by apply State.pmcTime_keeps <;> assumption
  have h2 := State.when_keeps (c := n ≠ 0) (h1.later kup n) (fun _ hx => State.newCycle_keeps kfieldOps hx)
  unfold State.elapse
  dsimp only
  split
  · exact h2
  · exact State.setTb_keeps ktb (State.setTbValue_keeps ktb h2 _) _ rfl rfl

theorem State.elapseUntil_keeps {F : List Kind} {r s : State} (kregs : Kind.regs ∈ F) (kup : Kind.up ∈ F) (kresp : Kind.resp ∈ F) (knewtIrq : Kind.newtIrq ∈ F) (kfieldOps : Kind.fieldOps ∈ F) (ktb : Kind.tb ∈ F) (kfiles : Kind.files ∈ F) (kaplic : Kind.aplic ∈ F) (kpaused : Kind.paused ∈ F) (kcaps : Kind.caps ∈ F) (kcapBusy : Kind.capBusy ∈ F) (h : Keeps F r s) (u : Nat) :
    Keeps F r (State.elapseUntil s u) := by
  unfold State.elapseUntil
  try lift_lets
  repeat' first
  | with_reducible assumption
  | with_reducible apply State.elapse_keeps

theorem State.elapseToNs_keeps {F : List Kind} {r s : State} (kregs : Kind.regs ∈ F) (kup : Kind.up ∈ F) (kresp : Kind.resp ∈ F) (knewtIrq : Kind.newtIrq ∈ F) (kfieldOps : Kind.fieldOps ∈ F) (ktb : Kind.tb ∈ F) (kfiles : Kind.files ∈ F) (kaplic : Kind.aplic ∈ F) (kpaused : Kind.paused ∈ F) (kcaps : Kind.caps ∈ F) (kcapBusy : Kind.capBusy ∈ F) (h : Keeps F r s) (ns : Nat) :
    Keeps F r (State.elapseToNs s ns) := by
  unfold State.elapseToNs
  try lift_lets
  repeat' first
  | with_reducible assumption
  | with_reducible apply State.elapse_keeps

end Sys2Proof.Machine
end

