-- ==== Sys2Proof/Laws/Records.lean ====
section
/-! SUPPORT. What a record, an event, a capture, an interrupt and the passing of time do to registers: they reach the blocks
ERR, CRN and PMC only. -/

namespace Sys2Proof.Machine

variable {s : State} {k : Nat}

/-- A register stands through a list of operations that each leave it alone. -/
theorem State.rd_forAll {α : Type} {f : State → α → State} (hf : ∀ x a, (f x a).rd k = x.rd k) (l : List α) :
    (s.forAll l f).rd k = s.rd k := by
  unfold State.forAll
  induction l generalizing s with
  | nil => rfl
  | cons a l ih => rw [List.foldl_cons, ih, hf]

theorem State.rd_when {c : Prop} [Decidable c] {f : State → State} (hf : ∀ x, (f x).rd k = x.rd k) :
    (s.when c f).rd k = s.rd k := by
  unfold State.when; split
  · exact hf s
  · rfl

/-- A register outside the records. -/
theorem recordKey_not (h : ¬ recordKey k) : k < 0x90000 ∨ 0xC0000 ≤ k := by unfold recordKey at h; omega

theorem State.rd_congr {r : State} (h : s.regs = r.regs) : s.rd k = r.rd k := by unfold State.rd; rw [h]

/-- The four words of a place of the event queue. -/
theorem State.rd_evqPut (h : ¬ recordKey k) {q : Nat} (hq : q < 512) (a b c d : Word) :
    ((((s.wr (R.ERR_EVQ q 0) a).wr (R.ERR_EVQ q 1) b).wr (R.ERR_EVQ q 2) c).wr (R.ERR_EVQ q 3) d).rd k = s.rd k := by
  have := recordKey_not h
  rw [State.rd_wr_ne _ _ (by show k ≠ 0x94000 + 0x20 * q + 0x8 * _; omega),
    State.rd_wr_ne _ _ (by show k ≠ 0x94000 + 0x20 * q + 0x8 * _; omega),
    State.rd_wr_ne _ _ (by show k ≠ 0x94000 + 0x20 * q + 0x8 * _; omega),
    State.rd_wr_ne _ _ (by show k ≠ 0x94000 + 0x20 * q + 0x8 * _; omega)]

theorem State.rd_evqShift (h : ¬ recordKey k) (p n : Nat) : (s.evqShift p n).rd k = s.rd k := by
  induction n generalizing s p with
  | zero => rfl
  | succ n ih =>
    unfold State.evqShift
    exact (ih _).trans (State.rd_evqPut h (Nat.mod_lt _ (by decide)) _ _ _ _)

@[simp] theorem State.noteEntry_regs : s.noteEntry.regs = s.regs := rfl

theorem State.rd_evqPush (h : ¬ recordKey k) (a b c d : Nat) : (s.evqPush a b c d).rd k = s.rd k := by
  have := recordKey_not h
  unfold State.evqPush
  lift_lets
  intro p held m q x x0 x1 x2 x3
  split
  · exact State.rd_inc_ne _ (by show k ≠ 0x90000; omega)
  · refine (State.rd_congr (State.noteEntry_regs (s := _))).trans ?_
    refine (State.rd_put_ne _ _ (by show k ≠ 0x90000; omega)).trans ?_
    exact (State.rd_evqPut h (Nat.mod_lt _ (by decide)) _ _ _ _).trans (State.rd_evqShift h _ _)

/-- An event reaches its own register and the records. -/
theorem State.rd_event (h : ¬ recordKey k) {l : Loc} (hl : k ≠ l.key) (n en : Nat) : (s.event n l en).rd k = s.rd k := by
  unfold State.event
  dsimp only
  split
  · exact (State.rd_evqPush h _ _ _ _).trans (State.rd_raise_ne _ hl)
  · exact State.rd_raise_ne _ hl

theorem State.rd_captureMissed (h : ¬ recordKey k) : s.captureMissed.rd k = s.rd k := by
  have := recordKey_not h
  unfold State.captureMissed State.crnEvent
  exact (State.rd_event h (by show k ≠ 0xa0020; omega) _ _).trans (State.rd_inc_ne _ (by show k ≠ 0xa0018; omega))

theorem State.pauseHarts_regs (c : Capture) : (s.pauseHarts c).1.regs = s.regs := by
  unfold State.pauseHarts; split <;> rfl

theorem State.rd_captureInto (h : ¬ recordKey k) (n : Nat) (c : Capture) : (s.captureInto n c).rd k = s.rd k := by
  have := recordKey_not h
  unfold State.captureInto
  dsimp only
  refine (State.rd_when fun x => State.rd_put_ne _ _ (by show k ≠ 0xa0030; omega)).trans ?_
  refine (State.rd_put_ne _ _ (by show k ≠ 0xa0000; omega)).trans ?_
  refine (State.rd_raiseBit_ne _ _ (by show k ≠ 0xa0000; omega)).trans ?_
  exact State.rd_congr (State.pauseHarts_regs c)

theorem State.rd_captureOf (h : ¬ recordKey k) (p : State) (a b : Nat) (f : Bool) : (s.captureOf p a b f).1.rd k = s.rd k := by
  have := recordKey_not h
  unfold State.captureOf
  split
  · dsimp only
    split
    · refine (State.rd_when fun x => State.rd_put_ne _ _ (by show k ≠ 0xa0030; omega)).trans ?_
      exact State.rd_congr (State.pauseHarts_regs _)
    · exact State.rd_captureMissed h
  · split
    · exact State.rd_captureMissed h
    · exact State.rd_captureInto h _ _

theorem State.rd_capture (h : ¬ recordKey k) (a b : Nat) (f : Bool) : (s.capture a b f).1.rd k = s.rd k :=
  State.rd_captureOf h _ _ _ _

@[simp] theorem State.setFresh_regs (n : Nat) (ws : List Word) : (s.setFresh n ws).regs = s.regs := rfl

theorem State.rd_putRecord (h : ¬ recordKey k) {n : Nat} (hn : n < 512) (ws : List Word) : (s.putRecord n ws).rd k = s.rd k := by
  have := recordKey_not h
  unfold State.putRecord
  rw [State.rd_wr_ne _ _ (by show k ≠ 0x98018 + 0x20 * n; omega), State.rd_wr_ne _ _ (by show k ≠ 0x98010 + 0x20 * n; omega),
    State.rd_wr_ne _ _ (by show k ≠ 0x98008 + 0x20 * n; omega), State.rd_wr_ne _ _ (by show k ≠ 0x98000 + 0x20 * n; omega)]

theorem State.rd_takeRecord (h : ¬ recordKey k) {n : Nat} (hn : n < 512) (c : Nat) (ws : List Word) :
    (s.takeRecord n c ws).rd k = s.rd k := by
  have := recordKey_not h
  have hp : ∀ (x : State) v, ((x.putRecord n ws).put (L.ERR_LOG_STAT.COUNT n) v).rd k = x.rd k := fun x v =>
    (State.rd_put_ne _ _ (by show k ≠ 0x98000 + 0x20 * n; omega)).trans (State.rd_putRecord h hn ws)
  unfold State.takeRecord
  dsimp only
  split
  · exact (State.rd_congr (State.setFresh_regs _ _)).trans (hp _ _)
  · split
    · exact State.rd_congr (State.setFresh_regs _ _)
    · split
      · refine (State.rd_congr (State.setFresh_regs _ _)).trans ?_
        split
        · exact hp _ _
        · rfl
      · exact State.rd_congr (State.setFresh_regs _ _)

/-- A record in one of the 512 logs reaches the records only. -/
theorem State.rd_logRec (h : ¬ recordKey k) {n : Nat} (hn : n < 512) (a b c d : Nat) (i : Issuer) :
    (s.logRec n a b c i d).rd k = s.rd k := by
  have := recordKey_not h
  have hw : ∀ (x : State), (x.inc (L.ERR_LOG_STAT.COUNT n)).rd k = x.rd k :=
    fun x => State.rd_inc_ne _ (by show k ≠ 0x98000 + 0x20 * n; omega)
  unfold State.logRec
  lift_lets
  intro a1 i1 ws x y
  split
  · exact (State.rd_capture h _ _ _).trans ((State.rd_evqPush h _ _ _ _).trans ((hw _).trans (State.rd_takeRecord h hn _ _)))
  · exact (State.rd_evqPush h _ _ _ _).trans ((hw _).trans (State.rd_takeRecord h hn _ _))

theorem State.rd_violation (h : ¬ recordKey k) {n : Nat} (hn : n < 512) (d a : Nat) (c : Issuer) :
    (s.violation n d a c).rd k = s.rd k := State.rd_logRec (s := s) h hn _ _ _ _ _

theorem State.rd_worldError (h : ¬ recordKey k) {n : Nat} (hn : n < 512) (a : Nat) (c : Issuer) :
    (s.worldError n a c).rd k = s.rd k := State.rd_logRec (s := s) h hn _ _ _ _ _

theorem State.rd_viError (h : ¬ recordKey k) {n : Nat} (hn : n < 512) (a : Nat) (c : Issuer) :
    (s.viError n a c).rd k = s.rd k := State.rd_logRec (s := s) h hn _ _ _ _ _

/-! ### Interrupts, counts, time -/

theorem State.rd_recordId (h f e : Nat) : (s.recordId h f e).rd k = s.rd k := by
  unfold State.recordId State.setIntFile
  dsimp only
  split <;> rfl

theorem intPage_hart {a : Nat} {p : Nat × Nat} (h : intPage a = some p) : p.1 < 216 := by
  unfold intPage at h
  dsimp only at h
  split at h
  · cases h
  · split at h
    · cases h; dsimp only; omega
    · split at h
      · cases h; dsimp only; omega
      · cases h

theorem State.rd_msi (h : ¬ recordKey k) (c : Issuer) (a d : Nat) : (s.msi c a d).rd k = s.rd k := by
  unfold State.msi
  split
  · exact State.rd_violation h (by decide) _ _ _
  · rename_i q f hp
    have hq := intPage_hart hp
    have hn : dieLog (hartDie q) < 512 := by show 241 + q / 18 < 512; simp only at hq; omega
    dsimp only
    have hr : ((if a % 0x1000 = 0 then s.recordId q f d else s).answer .ok).rd k = s.rd k := by
      refine Eq.trans (State.rd_congr (r := if a % 0x1000 = 0 then s.recordId q f d else s) rfl) ?_
      split
      · exact State.rd_recordId _ _ _
      · rfl
    split
    · exact State.rd_violation h hn _ _ _
    split
    · exact State.rd_logRec (s := s) h hn _ _ _ _ _
    split
    · exact State.rd_worldError h hn _ _
    split
    · exact State.rd_worldError h hn _ _
    split
    · split
      · exact hr
      · exact State.rd_viError h hn _ _
    · exact hr

theorem State.rd_aplicForward (h : ¬ recordKey k) (n : Nat) : (s.aplicForward n).rd k = s.rd k := by
  unfold State.aplicForward
  dsimp only
  split
  · exact State.rd_msi h _ _ _
  · rfl

theorem State.rd_aplicLine (h : ¬ recordKey k) (n : Nat) (b : Bool) : (s.aplicLine n b).rd k = s.rd k := by
  unfold State.aplicLine
  dsimp only
  split
  · rfl
  · exact State.rd_aplicForward h _

theorem State.rd_aplicPulse (h : ¬ recordKey k) (n : Nat) : (s.aplicPulse n).rd k = s.rd k := by
  unfold State.aplicPulse
  exact (State.rd_aplicLine h _ _).trans (State.rd_aplicLine h _ _)

theorem State.rd_pmcAdd (h : ¬ recordKey k) {i : Nat} (hi : i < 16) (n : Nat) : (s.pmcAdd i n).rd k = s.rd k := by
  have := recordKey_not h
  unfold State.pmcAdd
  dsimp only
  split
  · exact State.rd_put_ne _ _ (by show k ≠ 0xb0108 + 0x20 * i; omega)
  · refine (State.rd_aplicLine h _ _).trans ?_
    exact (State.rd_raiseBit_ne _ _ (by show k ≠ 0xb0008; omega)).trans (State.rd_put_ne _ _ (by show k ≠ 0xb0108 + 0x20 * i; omega))

theorem State.pmcOn_lt {i : Nat} (h : i ∈ s.pmcOn) : i < 16 := by
  unfold State.pmcOn at h
  split at h
  · cases h
  · simp only [List.mem_map, List.mem_filter, Bool.and_eq_true, decide_eq_true_eq] at h
    obtain ⟨e, ⟨_, ⟨h1, h2, _⟩, _⟩, rfl⟩ := h
    have h3 : e.1 < 0xb0100 + 0x20 * 16 := h2
    show (e.1 - 0xb0100) / 32 < 16
    omega

/-- A register stands through a list of operations that each leave it alone. -/
theorem State.rd_forAll_mem {α : Type} {f : State → α → State} (l : List α) (hf : ∀ x a, a ∈ l → (f x a).rd k = x.rd k) :
    (s.forAll l f).rd k = s.rd k := by
  unfold State.forAll
  induction l generalizing s with
  | nil => rfl
  | cons a l ih =>
    rw [List.foldl_cons, ih (fun x b hb => hf x b (List.mem_cons_of_mem _ hb)), hf _ _ List.mem_cons_self]

theorem State.rd_pmc (h : ¬ recordKey k) (u i e n : Nat) (w : Bool) (v : Option Nat) : (s.pmc u i e n w v).rd k = s.rd k := by
  unfold State.pmc
  exact State.rd_forAll_mem _ (fun x a ha => State.rd_pmcAdd h (State.pmcOn_lt (List.mem_of_mem_filter ha)) _)

theorem State.when_newCycle_regs (x : State) (c : Prop) [Decidable c] : (x.when c State.newCycle).regs = x.regs := by
  unfold State.when; split <;> rfl

@[simp] theorem State.setTb_regs (x : State) (t : TimeBase) : (x.setTb t).regs = x.regs := rfl
@[simp] theorem State.setTbValue_regs (x : State) (v : Nat) : (x.setTbValue v).regs = x.regs := rfl

/-- Time that passes reaches the counters only. -/
theorem State.elapse_regs (n : Nat) : (s.elapse n).regs = (s.pmcTime n).regs := by
  unfold State.elapse
  generalize s.pmcTime n = x
  dsimp only
  split
  · exact State.when_newCycle_regs _ _
  · exact (State.setTb_regs (State.setTbValue _ _) _).trans ((State.setTbValue_regs _ _).trans (State.when_newCycle_regs _ _))

theorem State.rd_pmcTime (h : ¬ recordKey k) (n : Nat) : (s.pmcTime n).rd k = s.rd k := by
  unfold State.pmcTime
  exact State.rd_forAll_mem _ (fun x a ha => State.rd_pmcAdd h (State.pmcOn_lt ha) _)

theorem State.rd_elapse (h : ¬ recordKey k) (n : Nat) : (s.elapse n).rd k = s.rd k :=
  (State.rd_congr (State.elapse_regs n)).trans (State.rd_pmcTime h n)

theorem State.rd_elapseUntil (h : ¬ recordKey k) (n : Nat) : (s.elapseUntil n).rd k = s.rd k := State.rd_elapse h _
theorem State.rd_elapseToNs (h : ¬ recordKey k) (n : Nat) : (s.elapseToNs n).rd k = s.rd k := State.rd_elapse h _

/-! ### Fields -/

theorem State.get_congr {r : State} {l : Loc} (h : s.rd l.key = r.rd l.key) : s.get l = r.get l := by
  unfold State.get; rw [h]

theorem State.get_event {l m : Loc} (h : ¬ recordKey m.key) (hl : m.key ≠ l.key) (n en : Nat) :
    (s.event n l en).get m = s.get m := State.get_congr (State.rd_event h hl n en)

theorem State.get_logRec {m : Loc} (h : ¬ recordKey m.key) {n : Nat} (hn : n < 512) (a b c d : Nat) (i : Issuer) :
    (s.logRec n a b c i d).get m = s.get m := State.get_congr (State.rd_logRec h hn a b c d i)

theorem State.get_evqPush {m : Loc} (h : ¬ recordKey m.key) (a b c d : Nat) : (s.evqPush a b c d).get m = s.get m :=
  State.get_congr (State.rd_evqPush h a b c d)

/-- The event's own bit is set. -/
theorem State.get_event_same {l : Loc} (h : ¬ recordKey l.key) (hl : l.lo + l.width ≤ 64) (hw : 1 ≤ l.width) (n en : Nat) :
    (s.event n l en).get l = 1 := by
  have hp : (s.raise l).get l = 1 := State.get_put_fit _ _ _ hl (Nat.one_lt_two_pow (by omega))
  unfold State.event
  dsimp only
  split
  · exact (State.get_evqPush h _ _ _ _).trans hp
  · exact hp

end Sys2Proof.Machine
end

