-- ==== Sys2Proof/Laws/Elapse.lean ====
section
/-! SUPPORT. What passes with time: the count of the run, the counter of the time base, the counters of timed events and
the interrupts they raise, and nothing else. -/

namespace Sys2Proof.Machine

variable {s : State}

/-- Time that passes leaves every kind of state outside `Kinds.time` alone. -/
theorem State.elapse_same (n : Nat) : SameBut Kinds.time s (s.elapse n) :=
  (State.elapse_keeps (F := Kinds.time) (by decide) (by decide) (by decide) (by decide) (by decide) (by decide) (by decide)
    (by decide) (by decide) (by decide) (by decide) Keeps.refl n).frame

theorem State.pmcTime_same (n : Nat) : SameBut (Kinds.log ++ [Kind.resp, Kind.files, Kind.aplic]) s (s.pmcTime n) :=
  (State.pmcTime_keeps (F := Kinds.log ++ [Kind.resp, Kind.files, Kind.aplic]) (by decide) (by decide) (by decide) (by decide) (by decide)
    (by decide) (by decide) (by decide) (by decide) Keeps.refl n).frame

@[simp] theorem State.when_newCycle_up (x : State) (c : Prop) [Decidable c] : (x.when c State.newCycle).up = x.up := by
  unfold State.when; split <;> rfl

@[simp] theorem State.when_newCycle_tb (x : State) (c : Prop) [Decidable c] : (x.when c State.newCycle).tb = x.tb := by
  unfold State.when; split <;> rfl

@[simp] theorem State.setTb_up (x : State) (t : TimeBase) : (x.setTb t).up = x.up := rfl
@[simp] theorem State.setTbValue_up (x : State) (v : Nat) : (x.setTbValue v).up = x.up := rfl
@[simp] theorem State.setTb_tb (x : State) (t : TimeBase) : (x.setTb t).tb = t := rfl
theorem State.setTbValue_tb (x : State) (v : Nat) : (x.setTbValue v).tb =
    { x.tb with ns := v / 2 ^ 42 % 2 ^ 64, frac := v % 2 ^ 42, reached := v / 2 ^ 42 % 2 ^ 64 } := rfl

@[simp] theorem State.elapse_up (n : Nat) : (s.elapse n).up = s.up + n := by
  have h : (s.pmcTime n).up = s.up := State.pmcTime_same n .up (by decide)
  rw [← h]
  unfold State.elapse
  generalize s.pmcTime n = x
  dsimp only
  split
  · exact State.when_newCycle_up _ _
  · exact (State.setTb_up (State.setTbValue _ _) _).trans ((State.setTbValue_up _ _).trans (State.when_newCycle_up _ _))

/-- The counter advances with time unless the time base is held in reset (R37, R419). -/
theorem State.elapse_tb (n : Nat) (h : s.get L.PWR_RST_HOLD.TB = 0) (hn : n ≠ 0) :
    (s.elapse n).tb = { s.tb with
      ns := (s.tbValue + n * s.tbStep) / 2 ^ 42 % 2 ^ 64, frac := (s.tbValue + n * s.tbStep) % 2 ^ 42,
      reached := (s.tbValue + (n - 1) * s.tbStep) / 2 ^ 42 + 1 } := by
  have ht : (s.pmcTime n).tb = s.tb := State.pmcTime_same n .tb (by decide)
  have hr : ∀ k, ¬ recordKey k → (s.pmcTime n).rd k = s.rd k := fun k hk => State.rd_pmcTime hk n
  have hh : (s.pmcTime n).get L.PWR_RST_HOLD.TB = s.get L.PWR_RST_HOLD.TB := State.get_congr (hr _ (by unfold recordKey; decide))
  have ha : (s.pmcTime n).tbStep = s.tbStep := by
    unfold State.tbStep
    rw [State.get_congr (l := L.TB_RATE.ADJ) (hr _ (by unfold recordKey; decide))]
  have hv : (s.pmcTime n).tbValue = s.tbValue := by unfold State.tbValue; rw [ht]
  rw [← hh] at h
  rw [← ha, ← hv, ← ht]
  unfold State.elapse
  generalize s.pmcTime n = x at h ⊢
  dsimp only
  rw [if_neg (by rw [h]; simp [hn])]
  refine (State.setTb_tb (State.setTbValue _ _) _).trans ?_
  rw [State.setTbValue_tb, State.when_newCycle_tb]

@[simp] theorem State.elapse_hregs (n : Nat) : (s.elapse n).hregs = s.hregs := State.elapse_same n .hregs (by decide)
@[simp] theorem State.elapse_mem (n : Nat) : (s.elapse n).mem = s.mem := State.elapse_same n .mem (by decide)
@[simp] theorem State.elapse_out (n : Nat) : (s.elapse n).out = s.out := State.elapse_same n .out (by decide)
@[simp] theorem State.elapse_free (n : Nat) : (s.elapse n).free = s.free := State.elapse_same n .free (by decide)
@[simp] theorem State.elapse_hart (n : Nat) : (s.elapse n).hart = s.hart := State.elapse_same n .hart (by decide)
@[simp] theorem State.elapse_gftag (n : Nat) : (s.elapse n).gftag = s.gftag := State.elapse_same n .gftag (by decide)
@[simp] theorem State.elapse_die (n : Nat) : (s.elapse n).die = s.die := State.elapse_same n .die (by decide)
@[simp] theorem State.elapse_aplicRegs (n : Nat) : (s.elapse n).aplicRegs = s.aplicRegs := State.elapse_same n .aplicRegs (by decide)
@[simp] theorem State.elapse_csq (n : Nat) : (s.elapse n).csq = s.csq := State.elapse_same n .csq (by decide)
@[simp] theorem State.elapse_slots (n : Nat) : (s.elapse n).slots = s.slots := State.elapse_same n .slots (by decide)
@[simp] theorem State.elapse_posts (n : Nat) : (s.elapse n).posts = s.posts := State.elapse_same n .posts (by decide)
@[simp] theorem State.elapse_launches (n : Nat) : (s.elapse n).launches = s.launches := State.elapse_same n .launches (by decide)
@[simp] theorem State.elapse_nextLaunch (n : Nat) : (s.elapse n).nextLaunch = s.nextLaunch := State.elapse_same n .nextLaunch (by decide)
@[simp] theorem State.elapse_unitAccept (n : Nat) : (s.elapse n).unitAccept = s.unitAccept := State.elapse_same n .unitAccept (by decide)
@[simp] theorem State.elapse_ecc (n : Nat) : (s.elapse n).ecc = s.ecc := State.elapse_same n .ecc (by decide)
@[simp] theorem State.elapse_releasing (n : Nat) : (s.elapse n).releasing = s.releasing := State.elapse_same n .releasing (by decide)
@[simp] theorem State.elapse_viUsed (n : Nat) : (s.elapse n).viUsed = s.viUsed := State.elapse_same n .viUsed (by decide)
@[simp] theorem State.elapse_mc (n : Nat) : (s.elapse n).mc = s.mc := State.elapse_same n .mc (by decide)
@[simp] theorem State.elapse_poison (n : Nat) : (s.elapse n).poison = s.poison := State.elapse_same n .poison (by decide)
@[simp] theorem State.elapse_xeKeys (n : Nat) : (s.elapse n).xeKeys = s.xeKeys := State.elapse_same n .xeKeys (by decide)
@[simp] theorem State.elapse_xeLoads (n : Nat) : (s.elapse n).xeLoads = s.xeLoads := State.elapse_same n .xeLoads (by decide)
@[simp] theorem State.elapse_slotKey (n : Nat) : (s.elapse n).slotKey = s.slotKey := State.elapse_same n .slotKey (by decide)
@[simp] theorem State.elapse_cache (n : Nat) : (s.elapse n).cache = s.cache := State.elapse_same n .cache (by decide)
@[simp] theorem State.elapse_plru (n : Nat) : (s.elapse n).plru = s.plru := State.elapse_same n .plru (by decide)
@[simp] theorem State.elapse_streams (n : Nat) : (s.elapse n).streams = s.streams := State.elapse_same n .streams (by decide)
@[simp] theorem State.elapse_pitonBusy (n : Nat) : (s.elapse n).pitonBusy = s.pitonBusy := State.elapse_same n .pitonBusy (by decide)
@[simp] theorem State.elapse_slices (n : Nat) : (s.elapse n).slices = s.slices := State.elapse_same n .slices (by decide)
@[simp] theorem State.elapse_wbTag (n : Nat) : (s.elapse n).wbTag = s.wbTag := State.elapse_same n .wbTag (by decide)
@[simp] theorem State.elapse_ring (n : Nat) : (s.elapse n).ring = s.ring := State.elapse_same n .ring (by decide)
@[simp] theorem State.elapse_homes (n : Nat) : (s.elapse n).homes = s.homes := State.elapse_same n .homes (by decide)
@[simp] theorem State.elapse_sf (n : Nat) : (s.elapse n).sf = s.sf := State.elapse_same n .sf (by decide)
@[simp] theorem State.elapse_sfPlru (n : Nat) : (s.elapse n).sfPlru = s.sfPlru := State.elapse_same n .sfPlru (by decide)
@[simp] theorem State.elapse_faultN (n : Nat) : (s.elapse n).faultN = s.faultN := State.elapse_same n .faultN (by decide)
@[simp] theorem State.elapse_txIdle (n : Nat) : (s.elapse n).txIdle = s.txIdle := State.elapse_same n .txIdle (by decide)
@[simp] theorem State.elapse_links (n : Nat) : (s.elapse n).links = s.links := State.elapse_same n .links (by decide)
@[simp] theorem State.elapse_timeWordAt (n : Nat) : (s.elapse n).timeWordAt = s.timeWordAt := State.elapse_same n .timeWordAt (by decide)
@[simp] theorem State.elapse_mesh (n : Nat) : (s.elapse n).mesh = s.mesh := State.elapse_same n .mesh (by decide)
@[simp] theorem State.elapse_iotlb (n : Nat) : (s.elapse n).iotlb = s.iotlb := State.elapse_same n .iotlb (by decide)
@[simp] theorem State.elapse_queues (n : Nat) : (s.elapse n).queues = s.queues := State.elapse_same n .queues (by decide)
@[simp] theorem State.elapse_qe (n : Nat) : (s.elapse n).qe = s.qe := State.elapse_same n .qe (by decide)
@[simp] theorem State.elapse_viBytes (n : Nat) : (s.elapse n).viBytes = s.viBytes := State.elapse_same n .viBytes (by decide)
@[simp] theorem State.elapse_viPend (n : Nat) : (s.elapse n).viPend = s.viPend := State.elapse_same n .viPend (by decide)
@[simp] theorem State.elapse_viAdmin (n : Nat) : (s.elapse n).viAdmin = s.viAdmin := State.elapse_same n .viAdmin (by decide)
@[simp] theorem State.elapse_fab (n : Nat) : (s.elapse n).fab = s.fab := State.elapse_same n .fab (by decide)
@[simp] theorem State.elapse_ce (n : Nat) : (s.elapse n).ce = s.ce := State.elapse_same n .ce (by decide)
@[simp] theorem State.elapse_cectx (n : Nat) : (s.elapse n).cectx = s.cectx := State.elapse_same n .cectx (by decide)
@[simp] theorem State.elapse_boots (n : Nat) : (s.elapse n).boots = s.boots := State.elapse_same n .boots (by decide)
@[simp] theorem State.elapse_pciOpen (n : Nat) : (s.elapse n).pciOpen = s.pciOpen := State.elapse_same n .pciOpen (by decide)
@[simp] theorem State.elapse_pciTag (n : Nat) : (s.elapse n).pciTag = s.pciTag := State.elapse_same n .pciTag (by decide)
@[simp] theorem State.elapse_eth (n : Nat) : (s.elapse n).eth = s.eth := State.elapse_same n .eth (by decide)
@[simp] theorem State.elapse_ownReq (n : Nat) : (s.elapse n).ownReq = s.ownReq := State.elapse_same n .ownReq (by decide)
@[simp] theorem State.elapse_invReq (n : Nat) : (s.elapse n).invReq = s.invReq := State.elapse_same n .invReq (by decide)
@[simp] theorem State.elapse_nv (n : Nat) : (s.elapse n).nv = s.nv := State.elapse_same n .nv (by decide)
@[simp] theorem State.elapse_ks (n : Nat) : (s.elapse n).ks = s.ks := State.elapse_same n .ks (by decide)
@[simp] theorem State.elapse_belay (n : Nat) : (s.elapse n).belay = s.belay := State.elapse_same n .belay (by decide)
@[simp] theorem State.elapse_pwr (n : Nat) : (s.elapse n).pwr = s.pwr := State.elapse_same n .pwr (by decide)
@[simp] theorem State.elapse_trace (n : Nat) : (s.elapse n).trace = s.trace := State.elapse_same n .trace (by decide)

end Sys2Proof.Machine
end

