-- ==== Sys2Proof/Laws/KeepsTimeBase.lean ====
section
/-! SUPPORT. What the operations of Machine/TimeBase.lean keep: the queue, the canonical forms, time, and every kind of state they do not name. -/

namespace Sys2Proof.Machine

set_option linter.unusedTactic false
set_option linter.unreachableTactic false
set_option linter.unusedVariables false

theorem State.tbEvent_keeps {F : List Kind} {r s : State} (kregs : Kind.regs ∈ F) (knewtIrq : Kind.newtIrq ∈ F) (kfieldOps : Kind.fieldOps ∈ F) (h : Keeps F r s) (l : Loc) (tl : Kind.tbRegs ∈ F ∨ 65536 ≤ l.key) :
    Keeps F r (State.tbEvent s l) := by
  unfold State.tbEvent
  try lift_lets
  repeat' first
  | with_reducible assumption
  | with_reducible apply State.event_keeps

theorem State.servoTo_keeps {F : List Kind} {r s : State} (kregs : Kind.regs ∈ F) (knewtIrq : Kind.newtIrq ∈ F) (kfieldOps : Kind.fieldOps ∈ F) (ktb : Kind.tb ∈ F) (ktbRegs : Kind.tbRegs ∈ F) (h : Keeps F r s) (st : Nat) :
    Keeps F r (State.servoTo s st) := by
  unfold State.servoTo
  try lift_lets
  repeat' first
  | with_reducible assumption
  | exact Or.inl (by with_reducible assumption)
  | (refine Or.inr ?_; (repeat with_reducible apply Nat.le_add_right_of_le); first | decide | omega)
  | with_reducible rfl
  | with_reducible apply State.when_keeps
  | with_reducible apply State.setTb_keeps
  | with_reducible apply State.put_keeps
  | with_reducible apply State.tbEvent_keeps
  | with_reducible refine Keeps.ite ?_ ?_
  | split
  | (intro y)
  | (lift_lets; intro y)
  | dsimp only

theorem State.lockLost_keeps {F : List Kind} {r s : State} (kregs : Kind.regs ∈ F) (knewtIrq : Kind.newtIrq ∈ F) (kfieldOps : Kind.fieldOps ∈ F) (ktb : Kind.tb ∈ F) (ktbRegs : Kind.tbRegs ∈ F) (h : Keeps F r s) :
    Keeps F r (State.lockLost s) := by
  unfold State.lockLost
  try lift_lets
  repeat' first
  | with_reducible assumption
  | with_reducible apply State.when_keeps
  | with_reducible apply State.servoTo_keeps
  | (intro y)

theorem State.needRestep_keeps {F : List Kind} {r s : State} (kregs : Kind.regs ∈ F) (knewtIrq : Kind.newtIrq ∈ F) (kfieldOps : Kind.fieldOps ∈ F) (ktbRegs : Kind.tbRegs ∈ F) (h : Keeps F r s) :
    Keeps F r (State.needRestep s) := by
  unfold State.needRestep
  try lift_lets
  repeat' first
  | with_reducible assumption
  | exact Or.inl (by with_reducible assumption)
  | with_reducible apply State.tbEvent_keeps
  | with_reducible apply State.put_keeps

theorem State.toAcquire_keeps {F : List Kind} {r s : State} (kregs : Kind.regs ∈ F) (knewtIrq : Kind.newtIrq ∈ F) (kfieldOps : Kind.fieldOps ∈ F) (ktb : Kind.tb ∈ F) (ktbRegs : Kind.tbRegs ∈ F) (h : Keeps F r s) :
    Keeps F r (State.toAcquire s) := by
  unfold State.toAcquire
  try lift_lets
  repeat' first
  | with_reducible assumption
  | exact Or.inl (by with_reducible assumption)
  | with_reducible rfl
  | with_reducible apply State.servoTo_keeps
  | with_reducible apply State.setTb_keeps
  | with_reducible apply State.put_keeps
  | with_reducible refine Keeps.ite ?_ ?_

theorem State.stepCounter_keeps {F : List Kind} {r s : State} (ktb : Kind.tb ∈ F) (h : Keeps F r s) (off : ℤ) :
    Keeps F r (State.stepCounter s off) := by
  unfold State.stepCounter
  try lift_lets
  repeat' first
  | with_reducible assumption
  | with_reducible apply State.setTbValue_keeps

theorem State.slew_keeps {F : List Kind} {r s : State} (kregs : Kind.regs ∈ F) (kfree : Kind.free ∈ F) (ktbRegs : Kind.tbRegs ∈ F) (h : Keeps F r s) :
    Keeps F r (State.slew s) := by
  unfold State.slew
  try lift_lets
  repeat' first
  | with_reducible assumption
  | exact Or.inl (by with_reducible assumption)
  | with_reducible apply State.useFree_keeps
  | with_reducible apply State.put_keeps

theorem State.noteOffset_keeps {F : List Kind} {r s : State} (kregs : Kind.regs ∈ F) (ktbRegs : Kind.tbRegs ∈ F) (h : Keeps F r s) (off : ℤ) :
    Keeps F r (State.noteOffset s off) := by
  unfold State.noteOffset
  try lift_lets
  repeat' first
  | with_reducible assumption
  | exact Or.inl (by with_reducible assumption)
  | with_reducible apply State.put_keeps

theorem State.holdoverUpdate_keeps {F : List Kind} {r s : State} (kregs : Kind.regs ∈ F) (kfree : Kind.free ∈ F) (knewtIrq : Kind.newtIrq ∈ F) (kfieldOps : Kind.fieldOps ∈ F) (ktb : Kind.tb ∈ F) (ktbRegs : Kind.tbRegs ∈ F) (h : Keeps F r s) (off : ℤ) :
    Keeps F r (State.holdoverUpdate s off) := by
  unfold State.holdoverUpdate
  try lift_lets
  repeat' first
  | with_reducible assumption
  | with_reducible rfl
  | with_reducible apply State.slew_keeps
  | with_reducible apply State.servoTo_keeps
  | with_reducible apply State.setTb_keeps
  | with_reducible apply State.needRestep_keeps
  | with_reducible refine Keeps.ite ?_ ?_

theorem State.trackUpdate_keeps {F : List Kind} {r s : State} (kregs : Kind.regs ∈ F) (kfree : Kind.free ∈ F) (knewtIrq : Kind.newtIrq ∈ F) (kfieldOps : Kind.fieldOps ∈ F) (ktb : Kind.tb ∈ F) (ktbRegs : Kind.tbRegs ∈ F) (h : Keeps F r s) (off : Int) :
    Keeps F r (State.trackUpdate s off) := by
  unfold State.trackUpdate
  try lift_lets
  repeat' first
  | with_reducible assumption
  | exact Or.inl (by with_reducible assumption)
  | (refine Or.inr ?_; (repeat with_reducible apply Nat.le_add_right_of_le); first | decide | omega)
  | with_reducible rfl
  | with_reducible apply State.slew_keeps
  | with_reducible apply State.servoTo_keeps
  | with_reducible apply State.setTb_keeps
  | with_reducible apply State.toAcquire_keeps
  | with_reducible refine Keeps.ite ?_ ?_
  | split
  | (intro y)
  | (lift_lets; intro y)
  | dsimp only

theorem State.followerUpdate_keeps {F : List Kind} {r s : State} (kregs : Kind.regs ∈ F) (kfree : Kind.free ∈ F) (knewtIrq : Kind.newtIrq ∈ F) (kfieldOps : Kind.fieldOps ∈ F) (ktb : Kind.tb ∈ F) (ktbRegs : Kind.tbRegs ∈ F) (h : Keeps F r s) (off : Int) :
    Keeps F r (State.followerUpdate s off) := by
  unfold State.followerUpdate
  try lift_lets
  repeat' first
  | with_reducible assumption
  | exact Or.inl (by with_reducible assumption)
  | (refine Or.inr ?_; (repeat with_reducible apply Nat.le_add_right_of_le); first | decide | omega)
  | with_reducible rfl
  | with_reducible apply State.noteOffset_keeps
  | with_reducible apply State.stepCounter_keeps
  | with_reducible apply State.setTb_keeps
  | with_reducible apply State.slew_keeps
  | with_reducible apply State.servoTo_keeps
  | with_reducible apply State.trackUpdate_keeps
  | with_reducible apply State.lockLost_keeps
  | with_reducible apply State.holdoverUpdate_keeps
  | with_reducible refine Keeps.ite ?_ ?_
  | split
  | (intro y)
  | (lift_lets; intro y)
  | dsimp only

theorem State.badUpdate_keeps {F : List Kind} {r s : State} (kregs : Kind.regs ∈ F) (knewtIrq : Kind.newtIrq ∈ F) (kfieldOps : Kind.fieldOps ∈ F) (ktb : Kind.tb ∈ F) (ktbRegs : Kind.tbRegs ∈ F) (h : Keeps F r s) :
    Keeps F r (State.badUpdate s) := by
  unfold State.badUpdate
  try lift_lets
  repeat' first
  | with_reducible assumption
  | exact Or.inl (by with_reducible assumption)
  | with_reducible rfl
  | with_reducible apply State.setTb_keeps
  | with_reducible apply State.tbEvent_keeps
  | with_reducible apply State.put_keeps
  | with_reducible refine Keeps.ite ?_ ?_

theorem State.judgeUpdate_keeps {F : List Kind} {r s : State} (kregs : Kind.regs ∈ F) (knewtIrq : Kind.newtIrq ∈ F) (kfieldOps : Kind.fieldOps ∈ F) (ktb : Kind.tb ∈ F) (ktbRegs : Kind.tbRegs ∈ F) (h : Keeps F r s) (off : ℤ) (thrPs : Nat) (need : Nat) :
    Keeps F r (State.judgeUpdate s off thrPs need) := by
  unfold State.judgeUpdate
  try lift_lets
  repeat' first
  | with_reducible assumption
  | exact Or.inl (by with_reducible assumption)
  | with_reducible rfl
  | with_reducible apply State.setTb_keeps
  | with_reducible apply State.when_keeps
  | with_reducible apply State.put_keeps
  | with_reducible apply State.badUpdate_keeps
  | with_reducible refine Keeps.ite ?_ ?_
  | (intro y)

theorem State.sourceUpdate_keeps {F : List Kind} {r s : State} (kregs : Kind.regs ∈ F) (kfree : Kind.free ∈ F) (knewtIrq : Kind.newtIrq ∈ F) (kfieldOps : Kind.fieldOps ∈ F) (ktb : Kind.tb ∈ F) (ktbRegs : Kind.tbRegs ∈ F) (h : Keeps F r s) (off : Int) (thrPs : Nat) (need : Nat) :
    Keeps F r (State.sourceUpdate s off thrPs need) := by
  unfold State.sourceUpdate
  try lift_lets
  repeat' first
  | with_reducible assumption
  | exact Or.inl (by with_reducible assumption)
  | (refine Or.inr ?_; (repeat with_reducible apply Nat.le_add_right_of_le); first | decide | omega)
  | with_reducible rfl
  | with_reducible apply State.noteOffset_keeps
  | with_reducible apply State.stepCounter_keeps
  | with_reducible apply State.setTb_keeps
  | with_reducible apply State.servoTo_keeps
  | with_reducible apply State.judgeUpdate_keeps
  | with_reducible apply State.trackUpdate_keeps
  | with_reducible apply State.slew_keeps
  | with_reducible apply State.holdoverUpdate_keeps
  | with_reducible refine Keeps.ite ?_ ?_
  | split
  | (intro y)
  | (lift_lets; intro y)
  | dsimp only

theorem execPpsInEdge_keeps {F : List Kind} {r s : State} (kregs : Kind.regs ∈ F) (kfree : Kind.free ∈ F) (knewtIrq : Kind.newtIrq ∈ F) (kfieldOps : Kind.fieldOps ∈ F) (ktb : Kind.tb ∈ F) (ktbRegs : Kind.tbRegs ∈ F) (h : Keeps F r s) (rising : Bool) :
    ResKeeps F r (execPpsInEdge rising s) := by
  unfold execPpsInEdge
  try lift_lets
  repeat' first
  | with_reducible assumption
  | exact Or.inl (by with_reducible assumption)
  | with_reducible apply State.when_keeps
  | with_reducible apply State.sourceUpdate_keeps
  | with_reducible apply State.put_keeps
  | with_reducible apply ResKeeps.next
  | with_reducible refine ResKeeps.ite ?_ ?_
  | (intro y)

theorem execAsSourceUpdate_keeps {F : List Kind} {r s : State} (kregs : Kind.regs ∈ F) (kfree : Kind.free ∈ F) (knewtIrq : Kind.newtIrq ∈ F) (kfieldOps : Kind.fieldOps ∈ F) (ktb : Kind.tb ∈ F) (keth : Kind.eth ∈ F) (ktbRegs : Kind.tbRegs ∈ F) (h : Keeps F r s) (lane : Fin 4) (offset : Int) (interval : Nat) :
    ResKeeps F r (execAsSourceUpdate lane offset interval s) := by
  unfold execAsSourceUpdate
  try lift_lets
  repeat' first
  | with_reducible assumption
  | exact Or.inl (by with_reducible assumption)
  | (refine Or.inr ?_; (repeat with_reducible apply Nat.le_add_right_of_le); first | decide | omega)
  | with_reducible rfl
  | (with_reducible refine Keeps.upd ?_ rfl rfl rfl rfl rfl rfl rfl rfl ?_ ?_ ?_ ?_ ?_ ?_ ?_ ?_ ?_ ?_ ?_ ?_ ?_ ?_ ?_ ?_ ?_ ?_ ?_ ?_ ?_ ?_ ?_ ?_ ?_ ?_ ?_ ?_ ?_ ?_ ?_ ?_ ?_ ?_ ?_ ?_ ?_ ?_ ?_ ?_ ?_ ?_ ?_ ?_ ?_ ?_ ?_ ?_ ?_ ?_ ?_ ?_ ?_ ?_ ?_ ?_ ?_ ?_ ?_ ?_ ?_ ?_ ?_ <;> first | with_reducible assumption | with_reducible exact Or.inr rfl | with_reducible exact Or.inl (by assumption) | with_reducible apply State.sourceUpdate_keeps)
  | with_reducible apply State.sourceUpdate_keeps
  | with_reducible apply ResKeeps.next
  | with_reducible refine ResKeeps.ite ?_ ?_
  | with_reducible refine Keeps.ite ?_ ?_
  | split
  | (intro y)
  | (lift_lets; intro y)
  | dsimp only

theorem execSourceUpdateMissed_keeps {F : List Kind} {r s : State} (kregs : Kind.regs ∈ F) (kup : Kind.up ∈ F) (kresp : Kind.resp ∈ F) (knewtIrq : Kind.newtIrq ∈ F) (kfieldOps : Kind.fieldOps ∈ F) (ktb : Kind.tb ∈ F) (kfiles : Kind.files ∈ F) (kaplic : Kind.aplic ∈ F) (kpaused : Kind.paused ∈ F) (kcaps : Kind.caps ∈ F) (kcapBusy : Kind.capBusy ∈ F) (ktbRegs : Kind.tbRegs ∈ F) (h : Keeps F r s)  :
    ResKeeps F r (execSourceUpdateMissed s) := by
  unfold execSourceUpdateMissed
  try lift_lets
  repeat' first
  | with_reducible assumption
  | exact Or.inl (by with_reducible assumption)
  | (refine Or.inr ?_; (repeat with_reducible apply Nat.le_add_right_of_le); first | decide | omega)
  | with_reducible rfl
  | with_reducible apply State.elapseUntil_keeps
  | with_reducible apply State.setTb_keeps
  | with_reducible apply State.badUpdate_keeps
  | with_reducible apply ResKeeps.next
  | with_reducible refine ResKeeps.ite ?_ ?_
  | with_reducible refine Keeps.ite ?_ ?_
  | split
  | (intro y)
  | (lift_lets; intro y)
  | dsimp only

theorem execAcqTimeout_keeps {F : List Kind} {r s : State} (kregs : Kind.regs ∈ F) (kup : Kind.up ∈ F) (kresp : Kind.resp ∈ F) (knewtIrq : Kind.newtIrq ∈ F) (kfieldOps : Kind.fieldOps ∈ F) (ktb : Kind.tb ∈ F) (kfiles : Kind.files ∈ F) (kaplic : Kind.aplic ∈ F) (kpaused : Kind.paused ∈ F) (kcaps : Kind.caps ∈ F) (kcapBusy : Kind.capBusy ∈ F) (ktbRegs : Kind.tbRegs ∈ F) (h : Keeps F r s) :
    ResKeeps F r (execAcqTimeout s) := by
  unfold execAcqTimeout
  try lift_lets
  repeat' first
  | with_reducible assumption
  | exact Or.inl (by with_reducible assumption)
  | with_reducible apply State.elapseUntil_keeps
  | with_reducible apply State.servoTo_keeps
  | with_reducible apply State.put_keeps
  | with_reducible apply ResKeeps.next
  | with_reducible refine ResKeeps.ite ?_ ?_

theorem State.adopt_keeps {F : List Kind} {r s : State} (ktb : Kind.tb ∈ F) (h : Keeps F r s) (c : Option Cand) (self : Bool) :
    Keeps F r (State.adopt s c self) := by
  unfold State.adopt
  try lift_lets
  repeat' first
  | with_reducible assumption
  | with_reducible rfl
  | with_reducible apply State.setTb_keeps

theorem State.adoptSelf_keeps {F : List Kind} {r s : State} (ktb : Kind.tb ∈ F) (h : Keeps F r s) :
    Keeps F r (State.adoptSelf s) := by
  unfold State.adoptSelf
  try lift_lets
  repeat' first
  | with_reducible assumption
  | with_reducible apply State.adopt_keeps

theorem State.hearCand_keeps {F : List Kind} {r s : State} (kregs : Kind.regs ∈ F) (ktb : Kind.tb ∈ F) (ktbRegs : Kind.tbRegs ∈ F) (h : Keeps F r s) (c : Cand) :
    Keeps F r (State.hearCand s c) := by
  unfold State.hearCand
  try lift_lets
  repeat' first
  | with_reducible assumption
  | exact Or.inl (by with_reducible assumption)
  | (refine Or.inr ?_; (repeat with_reducible apply Nat.le_add_right_of_le); first | decide | omega)
  | with_reducible rfl
  | with_reducible apply State.when_keeps
  | with_reducible apply State.setTb_keeps
  | with_reducible apply State.adopt_keeps
  | with_reducible apply State.put_keeps
  | with_reducible refine Keeps.ite ?_ ?_
  | with_reducible refine OptKeeps.get (by with_reducible assumption) ?_
  | with_reducible refine Keeps.elim ?_ ?_
  | with_reducible refine Keeps.foldl_fst ?_ _ _ ?_
  | with_reducible refine Keeps.foldl ?_ _ _ ?_
  | split
  | (with_reducible intro x; refine Keeps.cut (F := F) (r := r) (s := x) ?_ (fun hx => ?_); on_goal 2 => clear_value x)
  | (with_reducible intro x; refine Keeps.cut (F := F) (r := r) (s := x.1) ?_ (fun hx => ?_); on_goal 2 => clear_value x)
  | (with_reducible intro y)
  | (lift_lets; with_reducible intro x; refine Keeps.cut (F := F) (r := r) (s := x) ?_ (fun hx => ?_); on_goal 2 => clear_value x)
  | (lift_lets; with_reducible intro x; refine Keeps.cut (F := F) (r := r) (s := x.1) ?_ (fun hx => ?_); on_goal 2 => clear_value x)
  | (lift_lets; with_reducible intro y)
  | simp only [id]
  | dsimp only

theorem State.keepGrid_keeps {F : List Kind} {r s : State} (ktb : Kind.tb ∈ F) (h : Keeps F r s) (p : Nat) :
    Keeps F r (State.keepGrid s p) := by
  unfold State.keepGrid
  try lift_lets
  repeat' first
  | with_reducible assumption
  | exact Or.inl (by with_reducible assumption)
  | (refine Or.inr ?_; (repeat with_reducible apply Nat.le_add_right_of_le); first | decide | omega)
  | with_reducible rfl
  | with_reducible apply State.setTb_keeps
  | with_reducible refine Keeps.ite ?_ ?_
  | split
  | (intro y)
  | (lift_lets; intro y)
  | dsimp only

theorem State.setParent_keeps {F : List Kind} {r s : State} (kregs : Kind.regs ∈ F) (ktb : Kind.tb ∈ F) (ktbRegs : Kind.tbRegs ∈ F) (h : Keeps F r s) (p : Nat) :
    Keeps F r (State.setParent s p) := by
  unfold State.setParent
  try lift_lets
  repeat' first
  | with_reducible assumption
  | exact Or.inl (by with_reducible assumption)
  | (refine Or.inr ?_; (repeat with_reducible apply Nat.le_add_right_of_le); first | decide | omega)
  | with_reducible rfl
  | with_reducible apply State.keepGrid_keeps
  | with_reducible apply State.put_keeps
  | with_reducible refine Keeps.ite ?_ ?_
  | split
  | (intro y)
  | (lift_lets; intro y)
  | dsimp only

theorem State.noParent_keeps {F : List Kind} {r s : State} (kregs : Kind.regs ∈ F) (ktbRegs : Kind.tbRegs ∈ F) (h : Keeps F r s) :
    Keeps F r (State.noParent s) := by
  unfold State.noParent
  try lift_lets
  repeat' first
  | with_reducible assumption
  | exact Or.inl (by with_reducible assumption)
  | with_reducible apply State.put_keeps

theorem State.takeGrid_keeps {F : List Kind} {r s : State} (kregs : Kind.regs ∈ F) (ktbRegs : Kind.tbRegs ∈ F) (h : Keeps F r s) (p : Nat) :
    Keeps F r (State.takeGrid s p) := by
  unfold State.takeGrid
  try lift_lets
  repeat' first
  | with_reducible assumption
  | exact Or.inl (by with_reducible assumption)
  | with_reducible apply State.put_keeps
  | split

theorem State.takeScale_keeps {F : List Kind} {r s : State} (ktb : Kind.tb ∈ F) (h : Keeps F r s) (p : Nat) :
    Keeps F r (State.takeScale s p) := by
  unfold State.takeScale
  try lift_lets
  repeat' first
  | with_reducible assumption
  | with_reducible rfl
  | with_reducible apply State.setTb_keeps
  | split

theorem State.takeFrom_keeps {F : List Kind} {r s : State} (kregs : Kind.regs ∈ F) (ktb : Kind.tb ∈ F) (ktbRegs : Kind.tbRegs ∈ F) (h : Keeps F r s) (p : Nat) :
    Keeps F r (State.takeFrom s p) := by
  unfold State.takeFrom
  try lift_lets
  repeat' first
  | with_reducible assumption
  | exact Or.inl (by with_reducible assumption)
  | (refine Or.inr ?_; (repeat with_reducible apply Nat.le_add_right_of_le); first | decide | omega)
  | with_reducible rfl
  | with_reducible apply State.takeScale_keeps
  | with_reducible apply State.when_keeps
  | with_reducible apply State.takeGrid_keeps
  | with_reducible refine Keeps.ite ?_ ?_
  | split
  | (intro y)
  | (lift_lets; intro y)
  | dsimp only

theorem State.acquireFrom_keeps {F : List Kind} {r s : State} (kregs : Kind.regs ∈ F) (knewtIrq : Kind.newtIrq ∈ F) (kfieldOps : Kind.fieldOps ∈ F) (ktb : Kind.tb ∈ F) (ktbRegs : Kind.tbRegs ∈ F) (h : Keeps F r s) (p : Nat) :
    Keeps F r (State.acquireFrom s p) := by
  unfold State.acquireFrom
  try lift_lets
  repeat' first
  | with_reducible assumption
  | exact Or.inl (by with_reducible assumption)
  | (refine Or.inr ?_; (repeat with_reducible apply Nat.le_add_right_of_le); first | decide | omega)
  | with_reducible rfl
  | with_reducible apply State.toAcquire_keeps
  | with_reducible apply State.takeFrom_keeps
  | with_reducible apply State.stepCounter_keeps
  | with_reducible apply State.setTb_keeps
  | with_reducible refine Keeps.ite ?_ ?_
  | split
  | (intro y)
  | (lift_lets; intro y)
  | dsimp only

theorem State.merge_keeps {F : List Kind} {r s : State} (kregs : Kind.regs ∈ F) (knewtIrq : Kind.newtIrq ∈ F) (kfieldOps : Kind.fieldOps ∈ F) (ktb : Kind.tb ∈ F) (ktbRegs : Kind.tbRegs ∈ F) (h : Keeps F r s) :
    Keeps F r (State.merge s) := by
  unfold State.merge
  try lift_lets
  repeat' first
  | with_reducible assumption
  | exact Or.inl (by with_reducible assumption)
  | with_reducible apply State.needRestep_keeps
  | with_reducible apply State.tbEvent_keeps
  | with_reducible apply State.lockLost_keeps

theorem State.followTree_keeps {F : List Kind} {r s : State} (kregs : Kind.regs ∈ F) (knewtIrq : Kind.newtIrq ∈ F) (kfieldOps : Kind.fieldOps ∈ F) (ktb : Kind.tb ∈ F) (ktbRegs : Kind.tbRegs ∈ F) (h : Keeps F r s)  :
    Keeps F r (State.followTree s) := by
  unfold State.followTree
  try lift_lets
  repeat' first
  | with_reducible assumption
  | exact Or.inl (by with_reducible assumption)
  | (refine Or.inr ?_; (repeat with_reducible apply Nat.le_add_right_of_le); first | decide | omega)
  | with_reducible rfl
  | with_reducible apply State.setParent_keeps
  | with_reducible apply State.acquireFrom_keeps
  | with_reducible apply State.takeFrom_keeps
  | with_reducible apply State.merge_keeps
  | with_reducible apply State.noParent_keeps
  | with_reducible apply State.tbEvent_keeps
  | with_reducible refine Keeps.ite ?_ ?_
  | split
  | (intro y)
  | (lift_lets; intro y)
  | dsimp only

theorem State.setSummit_keeps {F : List Kind} {r s : State} (kregs : Kind.regs ∈ F) (knewtIrq : Kind.newtIrq ∈ F) (kfieldOps : Kind.fieldOps ∈ F) (ktb : Kind.tb ∈ F) (ktbRegs : Kind.tbRegs ∈ F) (h : Keeps F r s) (self : Bool) (id : Nat) (serial : Nat) :
    Keeps F r (State.setSummit s self id serial) := by
  unfold State.setSummit
  try lift_lets
  repeat' first
  | with_reducible assumption
  | exact Or.inl (by with_reducible assumption)
  | (refine Or.inr ?_; (repeat with_reducible apply Nat.le_add_right_of_le); first | decide | omega)
  | with_reducible rfl
  | with_reducible apply State.put_keeps
  | with_reducible apply State.setTb_keeps
  | with_reducible apply State.when_keeps
  | with_reducible apply State.tbEvent_keeps
  | with_reducible refine Keeps.ite ?_ ?_
  | with_reducible refine OptKeeps.get (by with_reducible assumption) ?_
  | with_reducible refine Keeps.elim ?_ ?_
  | with_reducible refine Keeps.foldl_fst ?_ _ _ ?_
  | with_reducible refine Keeps.foldl ?_ _ _ ?_
  | split
  | (with_reducible intro x; refine Keeps.cut (F := F) (r := r) (s := x) ?_ (fun hx => ?_); on_goal 2 => clear_value x)
  | (with_reducible intro x; refine Keeps.cut (F := F) (r := r) (s := x.1) ?_ (fun hx => ?_); on_goal 2 => clear_value x)
  | (with_reducible intro y)
  | (lift_lets; with_reducible intro x; refine Keeps.cut (F := F) (r := r) (s := x) ?_ (fun hx => ?_); on_goal 2 => clear_value x)
  | (lift_lets; with_reducible intro x; refine Keeps.cut (F := F) (r := r) (s := x.1) ?_ (fun hx => ?_); on_goal 2 => clear_value x)
  | (lift_lets; with_reducible intro y)
  | simp only [id]
  | dsimp only

theorem State.dropSelf_keeps {F : List Kind} {r s : State} (kregs : Kind.regs ∈ F) (knewtIrq : Kind.newtIrq ∈ F) (kfieldOps : Kind.fieldOps ∈ F) (ktb : Kind.tb ∈ F) (ktbRegs : Kind.tbRegs ∈ F) (h : Keeps F r s)  :
    Keeps F r (State.dropSelf s) := by
  unfold State.dropSelf
  try lift_lets
  repeat' first
  | with_reducible assumption
  | exact Or.inl (by with_reducible assumption)
  | (refine Or.inr ?_; (repeat with_reducible apply Nat.le_add_right_of_le); first | decide | omega)
  | with_reducible rfl
  | with_reducible apply State.put_keeps
  | with_reducible apply State.tbEvent_keeps
  | with_reducible apply State.lockLost_keeps
  | with_reducible apply State.setTb_keeps
  | with_reducible apply State.adopt_keeps
  | with_reducible refine Keeps.ite ?_ ?_
  | with_reducible refine OptKeeps.get (by with_reducible assumption) ?_
  | with_reducible refine Keeps.elim ?_ ?_
  | with_reducible refine Keeps.foldl_fst ?_ _ _ ?_
  | with_reducible refine Keeps.foldl ?_ _ _ ?_
  | split
  | (with_reducible intro x; refine Keeps.cut (F := F) (r := r) (s := x) ?_ (fun hx => ?_); on_goal 2 => clear_value x)
  | (with_reducible intro x; refine Keeps.cut (F := F) (r := r) (s := x.1) ?_ (fun hx => ?_); on_goal 2 => clear_value x)
  | (with_reducible intro y)
  | (lift_lets; with_reducible intro x; refine Keeps.cut (F := F) (r := r) (s := x) ?_ (fun hx => ?_); on_goal 2 => clear_value x)
  | (lift_lets; with_reducible intro x; refine Keeps.cut (F := F) (r := r) (s := x.1) ?_ (fun hx => ?_); on_goal 2 => clear_value x)
  | (lift_lets; with_reducible intro y)
  | simp only [id]
  | dsimp only

theorem State.readPrio_keeps {F : List Kind} {r s : State} (kregs : Kind.regs ∈ F) (knewtIrq : Kind.newtIrq ∈ F) (kfieldOps : Kind.fieldOps ∈ F) (ktb : Kind.tb ∈ F) (ktbRegs : Kind.tbRegs ∈ F) (h : Keeps F r s)  :
    Keeps F r (State.readPrio s) := by
  unfold State.readPrio
  try lift_lets
  repeat' first
  | with_reducible assumption
  | exact Or.inl (by with_reducible assumption)
  | (refine Or.inr ?_; (repeat with_reducible apply Nat.le_add_right_of_le); first | decide | omega)
  | with_reducible rfl
  | with_reducible apply State.dropSelf_keeps
  | with_reducible apply State.adopt_keeps
  | with_reducible refine Keeps.ite ?_ ?_
  | split
  | (intro y)
  | (lift_lets; intro y)
  | dsimp only

theorem execElectionSettle_keeps {F : List Kind} {r s : State} (kregs : Kind.regs ∈ F) (kup : Kind.up ∈ F) (kresp : Kind.resp ∈ F) (knewtIrq : Kind.newtIrq ∈ F) (kfieldOps : Kind.fieldOps ∈ F) (ktb : Kind.tb ∈ F) (kfiles : Kind.files ∈ F) (kaplic : Kind.aplic ∈ F) (kpaused : Kind.paused ∈ F) (kcaps : Kind.caps ∈ F) (kcapBusy : Kind.capBusy ∈ F) (ktbRegs : Kind.tbRegs ∈ F) (h : Keeps F r s)  :
    ResKeeps F r (execElectionSettle s) := by
  unfold execElectionSettle
  try lift_lets
  repeat' first
  | with_reducible assumption
  | exact Or.inl (by with_reducible assumption)
  | (refine Or.inr ?_; (repeat with_reducible apply Nat.le_add_right_of_le); first | decide | omega)
  | with_reducible rfl
  | with_reducible apply State.elapseUntil_keeps
  | with_reducible apply State.setTb_keeps
  | with_reducible apply State.tbEvent_keeps
  | with_reducible apply State.setSummit_keeps
  | with_reducible apply State.noParent_keeps
  | with_reducible apply State.put_keeps
  | with_reducible apply State.toAcquire_keeps
  | with_reducible apply State.followTree_keeps
  | with_reducible apply ResKeeps.next
  | with_reducible refine ResKeeps.ite ?_ ?_
  | with_reducible refine Keeps.ite ?_ ?_
  | with_reducible refine OptKeeps.get (by with_reducible assumption) ?_
  | with_reducible refine Keeps.elim ?_ ?_
  | with_reducible refine Keeps.foldl_fst ?_ _ _ ?_
  | with_reducible refine Keeps.foldl ?_ _ _ ?_
  | split
  | (with_reducible intro x; refine Keeps.cut (F := F) (r := r) (s := x) ?_ (fun hx => ?_); on_goal 2 => clear_value x)
  | (with_reducible intro x; refine Keeps.cut (F := F) (r := r) (s := x.1) ?_ (fun hx => ?_); on_goal 2 => clear_value x)
  | (with_reducible intro y)
  | (lift_lets; with_reducible intro x; refine Keeps.cut (F := F) (r := r) (s := x) ?_ (fun hx => ?_); on_goal 2 => clear_value x)
  | (lift_lets; with_reducible intro x; refine Keeps.cut (F := F) (r := r) (s := x.1) ?_ (fun hx => ?_); on_goal 2 => clear_value x)
  | (lift_lets; with_reducible intro y)
  | simp only [id]
  | dsimp only

theorem execSummitLost_keeps {F : List Kind} {r s : State} (kregs : Kind.regs ∈ F) (kup : Kind.up ∈ F) (kresp : Kind.resp ∈ F) (knewtIrq : Kind.newtIrq ∈ F) (kfieldOps : Kind.fieldOps ∈ F) (ktb : Kind.tb ∈ F) (kfiles : Kind.files ∈ F) (kaplic : Kind.aplic ∈ F) (kpaused : Kind.paused ∈ F) (kcaps : Kind.caps ∈ F) (kcapBusy : Kind.capBusy ∈ F) (ktbRegs : Kind.tbRegs ∈ F) (h : Keeps F r s) :
    ResKeeps F r (execSummitLost s) := by
  unfold execSummitLost
  try lift_lets
  repeat' first
  | with_reducible assumption
  | exact Or.inl (by with_reducible assumption)
  | with_reducible rfl
  | with_reducible apply State.elapseUntil_keeps
  | with_reducible apply State.setTb_keeps
  | with_reducible apply State.tbEvent_keeps
  | with_reducible apply State.lockLost_keeps
  | with_reducible apply State.adoptSelf_keeps
  | with_reducible apply State.noParent_keeps
  | with_reducible apply ResKeeps.next
  | split

theorem State.parentGone_keeps {F : List Kind} {r s : State} (kregs : Kind.regs ∈ F) (knewtIrq : Kind.newtIrq ∈ F) (kfieldOps : Kind.fieldOps ∈ F) (ktb : Kind.tb ∈ F) (ktbRegs : Kind.tbRegs ∈ F) (h : Keeps F r s) (p : Nat) :
    Keeps F r (State.parentGone s p) := by
  unfold State.parentGone
  try lift_lets
  repeat' first
  | with_reducible assumption
  | exact Or.inl (by with_reducible assumption)
  | (intro x; clear_value x)
  | with_reducible apply State.tbEvent_keeps
  | with_reducible apply State.setParent_keeps
  | with_reducible apply State.lockLost_keeps
  | with_reducible apply State.noParent_keeps
  | split

theorem State.timePortDown_keeps {F : List Kind} {r s : State} (kregs : Kind.regs ∈ F) (ktbRegs : Kind.tbRegs ∈ F) (h : Keeps F r s) (p : Nat) :
    Keeps F r (State.timePortDown s p) := by
  unfold State.timePortDown
  try lift_lets
  repeat' first
  | with_reducible assumption
  | exact Or.inl (by with_reducible assumption)
  | (refine Or.inr ?_; (repeat with_reducible apply Nat.le_add_right_of_le); first | decide | omega)
  | with_reducible rfl
  | with_reducible apply State.put_keeps
  | with_reducible refine Keeps.ite ?_ ?_
  | with_reducible refine OptKeeps.get (by with_reducible assumption) ?_
  | with_reducible refine Keeps.elim ?_ ?_
  | with_reducible refine Keeps.foldl_fst ?_ _ _ ?_
  | with_reducible refine Keeps.foldl ?_ _ _ ?_
  | split
  | (with_reducible intro x; refine Keeps.cut (F := F) (r := r) (s := x) ?_ (fun hx => ?_); on_goal 2 => clear_value x)
  | (with_reducible intro x; refine Keeps.cut (F := F) (r := r) (s := x.1) ?_ (fun hx => ?_); on_goal 2 => clear_value x)
  | (with_reducible intro y)
  | (lift_lets; with_reducible intro x; refine Keeps.cut (F := F) (r := r) (s := x) ?_ (fun hx => ?_); on_goal 2 => clear_value x)
  | (lift_lets; with_reducible intro x; refine Keeps.cut (F := F) (r := r) (s := x.1) ?_ (fun hx => ?_); on_goal 2 => clear_value x)
  | (lift_lets; with_reducible intro y)
  | simp only [id]
  | dsimp only

theorem State.timePortLost_keeps {F : List Kind} {r s : State} (kregs : Kind.regs ∈ F) (knewtIrq : Kind.newtIrq ∈ F) (kfieldOps : Kind.fieldOps ∈ F) (ktb : Kind.tb ∈ F) (ktbRegs : Kind.tbRegs ∈ F) (h : Keeps F r s) (p : Nat) :
    Keeps F r (State.timePortLost s p) := by
  unfold State.timePortLost
  try lift_lets
  repeat' first
  | with_reducible assumption
  | exact Or.inl (by with_reducible assumption)
  | with_reducible rfl
  | with_reducible apply State.setTb_keeps
  | with_reducible apply State.put_keeps
  | with_reducible apply State.parentGone_keeps
  | with_reducible refine Keeps.ite ?_ ?_

theorem execParentLost_keeps {F : List Kind} {r s : State} (kregs : Kind.regs ∈ F) (kup : Kind.up ∈ F) (kresp : Kind.resp ∈ F) (knewtIrq : Kind.newtIrq ∈ F) (kfieldOps : Kind.fieldOps ∈ F) (ktb : Kind.tb ∈ F) (kfiles : Kind.files ∈ F) (kaplic : Kind.aplic ∈ F) (kpaused : Kind.paused ∈ F) (kcaps : Kind.caps ∈ F) (kcapBusy : Kind.capBusy ∈ F) (ktbRegs : Kind.tbRegs ∈ F) (h : Keeps F r s) :
    ResKeeps F r (execParentLost s) := by
  unfold execParentLost
  try lift_lets
  repeat' first
  | with_reducible assumption
  | with_reducible apply State.elapseUntil_keeps
  | with_reducible apply State.parentGone_keeps
  | with_reducible apply ResKeeps.next
  | with_reducible refine ResKeeps.ite ?_ ?_

theorem State.fabZero_keeps {F : List Kind} {r s : State} (kfab : Kind.fab ∈ F) (h : Keeps F r s) (n : Nat) :
    Keeps F r (State.fabZero s n) := by
  unfold State.fabZero
  try lift_lets
  repeat' first
  | with_reducible assumption
  | exact Or.inl (by with_reducible assumption)
  | (refine Or.inr ?_; (repeat with_reducible apply Nat.le_add_right_of_le); first | decide | omega)
  | with_reducible rfl
  | (with_reducible refine Keeps.upd ?_ rfl rfl rfl rfl rfl rfl rfl rfl ?_ ?_ ?_ ?_ ?_ ?_ ?_ ?_ ?_ ?_ ?_ ?_ ?_ ?_ ?_ ?_ ?_ ?_ ?_ ?_ ?_ ?_ ?_ ?_ ?_ ?_ ?_ ?_ ?_ ?_ ?_ ?_ ?_ ?_ ?_ ?_ ?_ ?_ ?_ ?_ ?_ ?_ ?_ ?_ ?_ ?_ ?_ ?_ ?_ ?_ ?_ ?_ ?_ ?_ ?_ ?_ ?_ ?_ ?_ ?_ ?_ ?_ ?_ <;> first | with_reducible assumption | with_reducible exact Or.inr rfl | with_reducible exact Or.inl (by assumption))
  | with_reducible refine Keeps.ite ?_ ?_
  | with_reducible refine OptKeeps.get (by with_reducible assumption) ?_
  | with_reducible refine Keeps.elim ?_ ?_
  | with_reducible refine Keeps.foldl_fst ?_ _ _ ?_
  | with_reducible refine Keeps.foldl ?_ _ _ ?_
  | split
  | (with_reducible intro x; refine Keeps.cut (F := F) (r := r) (s := x) ?_ (fun hx => ?_); on_goal 2 => clear_value x)
  | (with_reducible intro x; refine Keeps.cut (F := F) (r := r) (s := x.1) ?_ (fun hx => ?_); on_goal 2 => clear_value x)
  | (with_reducible intro y)
  | (lift_lets; with_reducible intro x; refine Keeps.cut (F := F) (r := r) (s := x) ?_ (fun hx => ?_); on_goal 2 => clear_value x)
  | (lift_lets; with_reducible intro x; refine Keeps.cut (F := F) (r := r) (s := x.1) ?_ (fun hx => ?_); on_goal 2 => clear_value x)
  | (lift_lets; with_reducible intro y)
  | simp only [id]
  | dsimp only

theorem execTimeMessageSend_keeps {F : List Kind} {r s : State} (kregs : Kind.regs ∈ F) (kup : Kind.up ∈ F) (kresp : Kind.resp ∈ F) (kout : Kind.out ∈ F) (knewtIrq : Kind.newtIrq ∈ F) (kfieldOps : Kind.fieldOps ∈ F) (ktb : Kind.tb ∈ F) (kfiles : Kind.files ∈ F) (kaplic : Kind.aplic ∈ F) (kpaused : Kind.paused ∈ F) (kfab : Kind.fab ∈ F) (kcaps : Kind.caps ∈ F) (kcapBusy : Kind.capBusy ∈ F) (ktbRegs : Kind.tbRegs ∈ F) (h : Keeps F r s)  :
    ResKeeps F r (execTimeMessageSend s) := by
  unfold execTimeMessageSend
  try lift_lets
  repeat' first
  | with_reducible assumption
  | exact Or.inl (by with_reducible assumption)
  | (refine Or.inr ?_; (repeat with_reducible apply Nat.le_add_right_of_le); first | decide | omega)
  | with_reducible rfl
  | with_reducible apply State.elapseToNs_keeps
  | with_reducible apply State.when_keeps
  | with_reducible apply State.setTb_keeps
  | with_reducible apply State.readPrio_keeps
  | with_reducible apply State.forAll_keeps
  | with_reducible apply State.fabZero_keeps
  | with_reducible apply State.send_keeps
  | with_reducible apply ResKeeps.next
  | with_reducible refine ResKeeps.ite ?_ ?_
  | with_reducible refine Keeps.ite ?_ ?_
  | with_reducible refine OptKeeps.get (by with_reducible assumption) ?_
  | with_reducible refine Keeps.elim ?_ ?_
  | with_reducible refine Keeps.foldl_fst ?_ _ _ ?_
  | with_reducible refine Keeps.foldl ?_ _ _ ?_
  | split
  | (with_reducible intro x; refine Keeps.cut (F := F) (r := r) (s := x) ?_ (fun hx => ?_); on_goal 2 => clear_value x)
  | (with_reducible intro x; refine Keeps.cut (F := F) (r := r) (s := x.1) ?_ (fun hx => ?_); on_goal 2 => clear_value x)
  | (with_reducible intro y)
  | (lift_lets; with_reducible intro x; refine Keeps.cut (F := F) (r := r) (s := x) ?_ (fun hx => ?_); on_goal 2 => clear_value x)
  | (lift_lets; with_reducible intro x; refine Keeps.cut (F := F) (r := r) (s := x.1) ?_ (fun hx => ?_); on_goal 2 => clear_value x)
  | (lift_lets; with_reducible intro y)
  | simp only [id]
  | dsimp only

theorem State.hearSwitch_keeps {F : List Kind} {r s : State} (kregs : Kind.regs ∈ F) (knewtIrq : Kind.newtIrq ∈ F) (kfieldOps : Kind.fieldOps ∈ F) (ktb : Kind.tb ∈ F) (ktbRegs : Kind.tbRegs ∈ F) (h : Keeps F r s) (period : Nat) (frame : Nat) :
    Keeps F r (State.hearSwitch s period frame) := by
  unfold State.hearSwitch
  try lift_lets
  repeat' first
  | with_reducible assumption
  | exact Or.inl (by with_reducible assumption)
  | (refine Or.inr ?_; (repeat with_reducible apply Nat.le_add_right_of_le); first | decide | omega)
  | with_reducible rfl
  | with_reducible apply State.when_keeps
  | with_reducible apply State.dropAsk_keeps
  | with_reducible apply State.lockLost_keeps
  | with_reducible apply State.tbEvent_keeps
  | with_reducible apply State.put_keeps
  | with_reducible refine Keeps.ite ?_ ?_
  | split
  | (intro y)
  | (lift_lets; intro y)
  | dsimp only

theorem State.keepHeard_keeps {F : List Kind} {r s : State} (ktb : Kind.tb ∈ F) (h : Keeps F r s) (p : Nat) (m : TimeMsg) :
    Keeps F r (State.keepHeard s p m) := by
  unfold State.keepHeard
  try lift_lets
  repeat' first
  | with_reducible assumption
  | exact Or.inl (by with_reducible assumption)
  | (refine Or.inr ?_; (repeat with_reducible apply Nat.le_add_right_of_le); first | decide | omega)
  | with_reducible rfl
  | with_reducible apply State.setTb_keeps
  | with_reducible refine Keeps.ite ?_ ?_
  | with_reducible refine OptKeeps.get (by with_reducible assumption) ?_
  | with_reducible refine Keeps.elim ?_ ?_
  | with_reducible refine Keeps.foldl_fst ?_ _ _ ?_
  | with_reducible refine Keeps.foldl ?_ _ _ ?_
  | split
  | (with_reducible intro x; refine Keeps.cut (F := F) (r := r) (s := x) ?_ (fun hx => ?_); on_goal 2 => clear_value x)
  | (with_reducible intro x; refine Keeps.cut (F := F) (r := r) (s := x.1) ?_ (fun hx => ?_); on_goal 2 => clear_value x)
  | (with_reducible intro y)
  | (lift_lets; with_reducible intro x; refine Keeps.cut (F := F) (r := r) (s := x) ?_ (fun hx => ?_); on_goal 2 => clear_value x)
  | (lift_lets; with_reducible intro x; refine Keeps.cut (F := F) (r := r) (s := x.1) ?_ (fun hx => ?_); on_goal 2 => clear_value x)
  | (lift_lets; with_reducible intro y)
  | simp only [id]
  | dsimp only

theorem execTimeMessageRx_keeps {F : List Kind} {r s : State} (kregs : Kind.regs ∈ F) (kfree : Kind.free ∈ F) (knewtIrq : Kind.newtIrq ∈ F) (kfieldOps : Kind.fieldOps ∈ F) (ktb : Kind.tb ∈ F) (ktbRegs : Kind.tbRegs ∈ F) (h : Keeps F r s) (port : Fin 8) (m : TimeMsg) :
    ResKeeps F r (execTimeMessageRx port m s) := by
  unfold execTimeMessageRx
  try lift_lets
  repeat' first
  | with_reducible assumption
  | exact Or.inl (by with_reducible assumption)
  | (refine Or.inr ?_; (repeat with_reducible apply Nat.le_add_right_of_le); first | decide | omega)
  | with_reducible rfl
  | with_reducible apply State.put_keeps
  | with_reducible apply State.setTb_keeps
  | with_reducible apply State.when_keeps
  | with_reducible apply State.keepHeard_keeps
  | with_reducible apply State.hearCand_keeps
  | with_reducible apply State.keepGrid_keeps
  | with_reducible apply State.takeGrid_keeps
  | with_reducible apply State.hearSwitch_keeps
  | with_reducible apply State.lockLost_keeps
  | with_reducible apply State.followerUpdate_keeps
  | with_reducible apply State.followTree_keeps
  | with_reducible apply ResKeeps.next
  | with_reducible refine ResKeeps.ite ?_ ?_
  | with_reducible refine Keeps.ite ?_ ?_
  | split
  | (intro y)
  | (lift_lets; intro y)
  | dsimp only

theorem execPpsOutPulse_keeps {F : List Kind} {r s : State} (kregs : Kind.regs ∈ F) (kup : Kind.up ∈ F) (kresp : Kind.resp ∈ F) (kout : Kind.out ∈ F) (knewtIrq : Kind.newtIrq ∈ F) (kfieldOps : Kind.fieldOps ∈ F) (ktb : Kind.tb ∈ F) (kfiles : Kind.files ∈ F) (kaplic : Kind.aplic ∈ F) (kpaused : Kind.paused ∈ F) (kcaps : Kind.caps ∈ F) (kcapBusy : Kind.capBusy ∈ F) (h : Keeps F r s)  :
    ResKeeps F r (execPpsOutPulse s) := by
  unfold execPpsOutPulse
  try lift_lets
  repeat' first
  | with_reducible assumption
  | exact Or.inl (by with_reducible assumption)
  | (refine Or.inr ?_; (repeat with_reducible apply Nat.le_add_right_of_le); first | decide | omega)
  | with_reducible rfl
  | with_reducible apply State.elapseToNs_keeps
  | with_reducible apply State.setTb_keeps
  | with_reducible apply State.send_keeps
  | with_reducible apply ResKeeps.next
  | with_reducible refine ResKeeps.ite ?_ ?_
  | with_reducible refine Keeps.ite ?_ ?_
  | split
  | (intro y)
  | (lift_lets; intro y)
  | dsimp only

theorem State.ballsFall_keeps {F : List Kind} {r s : State} (kout : Kind.out ∈ F) (ktb : Kind.tb ∈ F) (h : Keeps F r s)  :
    Keeps F r (State.ballsFall s) := by
  unfold State.ballsFall
  try lift_lets
  repeat' first
  | with_reducible assumption
  | exact Or.inl (by with_reducible assumption)
  | (refine Or.inr ?_; (repeat with_reducible apply Nat.le_add_right_of_le); first | decide | omega)
  | with_reducible rfl
  | with_reducible apply State.when_keeps
  | with_reducible apply State.send_keeps
  | with_reducible apply State.setTb_keeps
  | with_reducible refine Keeps.ite ?_ ?_
  | split
  | (intro y)
  | (lift_lets; intro y)
  | dsimp only

theorem State.tickPulse_keeps {F : List Kind} {r s : State} (kout : Kind.out ∈ F) (ktb : Kind.tb ∈ F) (h : Keeps F r s)  :
    Keeps F r (State.tickPulse s) := by
  unfold State.tickPulse
  try lift_lets
  repeat' first
  | with_reducible assumption
  | exact Or.inl (by with_reducible assumption)
  | (refine Or.inr ?_; (repeat with_reducible apply Nat.le_add_right_of_le); first | decide | omega)
  | with_reducible rfl
  | with_reducible apply State.setTb_keeps
  | with_reducible apply State.send_keeps
  | with_reducible refine Keeps.ite ?_ ?_
  | split
  | (intro y)
  | (lift_lets; intro y)
  | dsimp only

theorem State.tbTimeRead_keeps {F : List Kind} {r s : State} (kregs : Kind.regs ∈ F) (kresp : Kind.resp ∈ F) (ktbRegs : Kind.tbRegs ∈ F) (h : Keeps F r s) (c : Issuer) :
    Keeps F r (State.tbTimeRead s c) := by
  unfold State.tbTimeRead
  try lift_lets
  repeat' first
  | with_reducible assumption
  | exact Or.inl (by with_reducible assumption)
  | with_reducible apply State.put_keeps
  | with_reducible apply State.answer_keeps

theorem execTbTimeRead_keeps {F : List Kind} {r s : State} (kregs : Kind.regs ∈ F) (kresp : Kind.resp ∈ F) (ktbRegs : Kind.tbRegs ∈ F) (h : Keeps F r s) (c : Issuer) :
    ResKeeps F r (execTbTimeRead c s) := by
  unfold execTbTimeRead
  try lift_lets
  repeat' first
  | with_reducible assumption
  | exact Or.inl (by with_reducible assumption)
  | (refine Or.inr ?_; (repeat with_reducible apply Nat.le_add_right_of_le); first | decide | omega)
  | with_reducible rfl
  | with_reducible apply State.issue_keeps
  | with_reducible apply State.tbTimeRead_keeps
  | with_reducible apply ResKeeps.next
  | with_reducible refine ResKeeps.ite ?_ ?_
  | with_reducible refine Keeps.ite ?_ ?_
  | with_reducible refine OptKeeps.get (by with_reducible assumption) ?_
  | with_reducible refine Keeps.elim ?_ ?_
  | with_reducible refine Keeps.foldl_fst ?_ _ _ ?_
  | with_reducible refine Keeps.foldl ?_ _ _ ?_
  | split
  | (with_reducible intro x; refine Keeps.cut (F := F) (r := r) (s := x) ?_ (fun hx => ?_); on_goal 2 => clear_value x)
  | (with_reducible intro x; refine Keeps.cut (F := F) (r := r) (s := x.1) ?_ (fun hx => ?_); on_goal 2 => clear_value x)
  | (with_reducible intro y)
  | (lift_lets; with_reducible intro x; refine Keeps.cut (F := F) (r := r) (s := x) ?_ (fun hx => ?_); on_goal 2 => clear_value x)
  | (lift_lets; with_reducible intro x; refine Keeps.cut (F := F) (r := r) (s := x.1) ?_ (fun hx => ?_); on_goal 2 => clear_value x)
  | (lift_lets; with_reducible intro y)
  | simp only [id]
  | dsimp only

theorem State.tbGuard_keeps {F : List Kind} {r s : State} (kregs : Kind.regs ∈ F) (kresp : Kind.resp ∈ F) (knewtIrq : Kind.newtIrq ∈ F) (kfieldOps : Kind.fieldOps ∈ F) (kpaused : Kind.paused ∈ F) (kcaps : Kind.caps ∈ F) (kcapBusy : Kind.capBusy ∈ F) (h : Keeps F r s) (c : Issuer) (key : Nat) (f : State → State) (hf : ∀ x, Keeps F r x → Keeps F r (f x)) :
    Keeps F r (State.tbGuard s c key f) := by
  unfold State.tbGuard
  try lift_lets
  repeat' first
  | with_reducible assumption
  | with_reducible apply hf
  | with_reducible apply State.answer_keeps
  | with_reducible apply State.worldError_keeps
  | with_reducible refine Keeps.ite ?_ ?_

theorem State.writeTbCtrl_keeps {F : List Kind} {r s : State} (kregs : Kind.regs ∈ F) (ktb : Kind.tb ∈ F) (ktbRegs : Kind.tbRegs ∈ F) (h : Keeps F r s) (v : Nat) :
    Keeps F r (State.writeTbCtrl s v) := by
  unfold State.writeTbCtrl
  try lift_lets
  repeat' first
  | with_reducible assumption
  | exact Or.inl (by with_reducible assumption)
  | with_reducible rfl
  | with_reducible apply State.put_keeps
  | with_reducible apply State.setTb_keeps
  | with_reducible refine Keeps.ite ?_ ?_

theorem State.writeTbSwitch_keeps {F : List Kind} {r s : State} (kregs : Kind.regs ∈ F) (kresp : Kind.resp ∈ F) (knewtIrq : Kind.newtIrq ∈ F) (kfieldOps : Kind.fieldOps ∈ F) (kpaused : Kind.paused ∈ F) (kcaps : Kind.caps ∈ F) (kcapBusy : Kind.capBusy ∈ F) (ktbRegs : Kind.tbRegs ∈ F) (h : Keeps F r s) (c : Issuer) (v : Nat) :
    Keeps F r (State.writeTbSwitch s c v) := by
  unfold State.writeTbSwitch
  try lift_lets
  repeat' first
  | with_reducible assumption
  | exact Or.inl (by with_reducible assumption)
  | (refine Or.inr ?_; (repeat with_reducible apply Nat.le_add_right_of_le); first | decide | omega)
  | with_reducible rfl
  | with_reducible apply State.forbidden_keeps
  | with_reducible apply State.put_keeps
  | with_reducible apply State.tbEvent_keeps
  | with_reducible apply State.ask_keeps
  | with_reducible refine Keeps.ite ?_ ?_
  | split
  | (intro y)
  | (lift_lets; intro y)
  | dsimp only

theorem execTickEnWrite_keeps {F : List Kind} {r s : State} (kregs : Kind.regs ∈ F) (kresp : Kind.resp ∈ F) (knewtIrq : Kind.newtIrq ∈ F) (kfieldOps : Kind.fieldOps ∈ F) (ktb : Kind.tb ∈ F) (kpaused : Kind.paused ∈ F) (kcaps : Kind.caps ∈ F) (kcapBusy : Kind.capBusy ∈ F) (ktbRegs : Kind.tbRegs ∈ F) (h : Keeps F r s) (c : Issuer) (v : Word) :
    ResKeeps F r (execTickEnWrite c v s) := by
  unfold execTickEnWrite
  try lift_lets
  repeat' first
  | with_reducible assumption
  | exact Or.inl (by with_reducible assumption)
  | (refine Or.inr ?_; (repeat with_reducible apply Nat.le_add_right_of_le); first | decide | omega)
  | with_reducible rfl
  | with_reducible apply State.issue_keeps
  | with_reducible apply State.tbGuard_keeps
  | with_reducible apply State.writeTbCtrl_keeps
  | with_reducible apply ResKeeps.next
  | with_reducible refine ResKeeps.ite ?_ ?_
  | with_reducible refine Keeps.ite ?_ ?_
  | with_reducible refine OptKeeps.get (by with_reducible assumption) ?_
  | with_reducible refine Keeps.elim ?_ ?_
  | with_reducible refine Keeps.foldl_fst ?_ _ _ ?_
  | with_reducible refine Keeps.foldl ?_ _ _ ?_
  | split
  | (with_reducible intro x; refine Keeps.cut (F := F) (r := r) (s := x) ?_ (fun hx => ?_); on_goal 2 => clear_value x)
  | (with_reducible intro x; refine Keeps.cut (F := F) (r := r) (s := x.1) ?_ (fun hx => ?_); on_goal 2 => clear_value x)
  | (with_reducible intro y)
  | (lift_lets; with_reducible intro x; refine Keeps.cut (F := F) (r := r) (s := x) ?_ (fun hx => ?_); on_goal 2 => clear_value x)
  | (lift_lets; with_reducible intro x; refine Keeps.cut (F := F) (r := r) (s := x.1) ?_ (fun hx => ?_); on_goal 2 => clear_value x)
  | (lift_lets; with_reducible intro y)
  | simp only [id]
  | dsimp only

theorem execRestepWrite_keeps {F : List Kind} {r s : State} (kregs : Kind.regs ∈ F) (kresp : Kind.resp ∈ F) (knewtIrq : Kind.newtIrq ∈ F) (kfieldOps : Kind.fieldOps ∈ F) (ktb : Kind.tb ∈ F) (kpaused : Kind.paused ∈ F) (kcaps : Kind.caps ∈ F) (kcapBusy : Kind.capBusy ∈ F) (ktbRegs : Kind.tbRegs ∈ F) (h : Keeps F r s) (c : Issuer) (v : Word) :
    ResKeeps F r (execRestepWrite c v s) := by
  unfold execRestepWrite
  try lift_lets
  repeat' first
  | with_reducible assumption
  | exact Or.inl (by with_reducible assumption)
  | (refine Or.inr ?_; (repeat with_reducible apply Nat.le_add_right_of_le); first | decide | omega)
  | with_reducible rfl
  | with_reducible apply State.issue_keeps
  | with_reducible apply State.tbGuard_keeps
  | with_reducible apply State.writeTbCtrl_keeps
  | with_reducible apply ResKeeps.next
  | with_reducible refine ResKeeps.ite ?_ ?_
  | with_reducible refine Keeps.ite ?_ ?_
  | with_reducible refine OptKeeps.get (by with_reducible assumption) ?_
  | with_reducible refine Keeps.elim ?_ ?_
  | with_reducible refine Keeps.foldl_fst ?_ _ _ ?_
  | with_reducible refine Keeps.foldl ?_ _ _ ?_
  | split
  | (with_reducible intro x; refine Keeps.cut (F := F) (r := r) (s := x) ?_ (fun hx => ?_); on_goal 2 => clear_value x)
  | (with_reducible intro x; refine Keeps.cut (F := F) (r := r) (s := x.1) ?_ (fun hx => ?_); on_goal 2 => clear_value x)
  | (with_reducible intro y)
  | (lift_lets; with_reducible intro x; refine Keeps.cut (F := F) (r := r) (s := x) ?_ (fun hx => ?_); on_goal 2 => clear_value x)
  | (lift_lets; with_reducible intro x; refine Keeps.cut (F := F) (r := r) (s := x.1) ?_ (fun hx => ?_); on_goal 2 => clear_value x)
  | (lift_lets; with_reducible intro y)
  | simp only [id]
  | dsimp only

theorem execSwitchArm_keeps {F : List Kind} {r s : State} (kregs : Kind.regs ∈ F) (kresp : Kind.resp ∈ F) (knewtIrq : Kind.newtIrq ∈ F) (kfieldOps : Kind.fieldOps ∈ F) (kpaused : Kind.paused ∈ F) (kcaps : Kind.caps ∈ F) (kcapBusy : Kind.capBusy ∈ F) (ktbRegs : Kind.tbRegs ∈ F) (h : Keeps F r s) (c : Issuer) (v : Word) :
    ResKeeps F r (execSwitchArm c v s) := by
  unfold execSwitchArm
  try lift_lets
  repeat' first
  | with_reducible assumption
  | exact Or.inl (by with_reducible assumption)
  | (refine Or.inr ?_; (repeat with_reducible apply Nat.le_add_right_of_le); first | decide | omega)
  | with_reducible rfl
  | with_reducible apply State.issue_keeps
  | with_reducible apply State.tbGuard_keeps
  | with_reducible apply State.writeTbSwitch_keeps
  | with_reducible apply ResKeeps.next
  | with_reducible refine ResKeeps.ite ?_ ?_
  | with_reducible refine Keeps.ite ?_ ?_
  | with_reducible refine OptKeeps.get (by with_reducible assumption) ?_
  | with_reducible refine Keeps.elim ?_ ?_
  | with_reducible refine Keeps.foldl_fst ?_ _ _ ?_
  | with_reducible refine Keeps.foldl ?_ _ _ ?_
  | split
  | (with_reducible intro x; refine Keeps.cut (F := F) (r := r) (s := x) ?_ (fun hx => ?_); on_goal 2 => clear_value x)
  | (with_reducible intro x; refine Keeps.cut (F := F) (r := r) (s := x.1) ?_ (fun hx => ?_); on_goal 2 => clear_value x)
  | (with_reducible intro y)
  | (lift_lets; with_reducible intro x; refine Keeps.cut (F := F) (r := r) (s := x) ?_ (fun hx => ?_); on_goal 2 => clear_value x)
  | (lift_lets; with_reducible intro x; refine Keeps.cut (F := F) (r := r) (s := x.1) ?_ (fun hx => ?_); on_goal 2 => clear_value x)
  | (lift_lets; with_reducible intro y)
  | simp only [id]
  | dsimp only

theorem State.writeTb_keeps {F : List Kind} {r s : State} (kregs : Kind.regs ∈ F) (kresp : Kind.resp ∈ F) (knewtIrq : Kind.newtIrq ∈ F) (kfieldOps : Kind.fieldOps ∈ F) (ktb : Kind.tb ∈ F) (kpaused : Kind.paused ∈ F) (kcaps : Kind.caps ∈ F) (kcapBusy : Kind.capBusy ∈ F) (ktbRegs : Kind.tbRegs ∈ F) (h : Keeps F r s) (a_r : Reg) (c : Issuer) (v : Nat) :
    OptKeeps F r (State.writeTb s a_r c v) := by
  unfold State.writeTb
  try lift_lets
  repeat' first
  | with_reducible assumption
  | exact Or.inl (by with_reducible assumption)
  | (refine Or.inr ?_; (repeat with_reducible apply Nat.le_add_right_of_le); first | decide | omega)
  | with_reducible rfl
  | with_reducible apply State.writeTbCtrl_keeps
  | with_reducible apply State.writeTbSwitch_keeps
  | with_reducible apply State.put_keeps
  | with_reducible apply State.forbidden_keeps
  | with_reducible apply State.reservedEnc_keeps
  | with_reducible apply State.when_keeps
  | with_reducible apply State.tbEvent_keeps
  | with_reducible apply OptKeeps.some
  | with_reducible exact OptKeeps.none
  | with_reducible refine OptKeeps.ite ?_ ?_
  | with_reducible refine Keeps.ite ?_ ?_
  | with_reducible refine OptKeeps.get (by with_reducible assumption) ?_
  | with_reducible refine Keeps.elim ?_ ?_
  | with_reducible refine Keeps.foldl_fst ?_ _ _ ?_
  | with_reducible refine Keeps.foldl ?_ _ _ ?_
  | split
  | (with_reducible intro x; refine Keeps.cut (F := F) (r := r) (s := x) ?_ (fun hx => ?_); on_goal 2 => clear_value x)
  | (with_reducible intro x; refine Keeps.cut (F := F) (r := r) (s := x.1) ?_ (fun hx => ?_); on_goal 2 => clear_value x)
  | (with_reducible intro y)
  | (lift_lets; with_reducible intro x; refine Keeps.cut (F := F) (r := r) (s := x) ?_ (fun hx => ?_); on_goal 2 => clear_value x)
  | (lift_lets; with_reducible intro x; refine Keeps.cut (F := F) (r := r) (s := x.1) ?_ (fun hx => ?_); on_goal 2 => clear_value x)
  | (lift_lets; with_reducible intro y)
  | simp only [id]
  | dsimp only

end Sys2Proof.Machine
end

