-- ==== Sys2Proof/Laws/KeepsSched.lean ====
section
/-! SUPPORT. What the operations of Machine/Sched.lean keep: the queue, the canonical forms, time, and every kind of state they do not name. -/

namespace Sys2Proof.Machine

set_option linter.unusedTactic false
set_option linter.unreachableTactic false
set_option linter.unusedVariables false

theorem State.sendTimeWords_keeps {F : List Kind} {r s : State} (kout : Kind.out ∈ F) (h : Keeps F r s)  :
    Keeps F r (State.sendTimeWords s) := by
  unfold State.sendTimeWords
  try lift_lets
  repeat' first
  | with_reducible assumption
  | exact Or.inl (by with_reducible assumption)
  | (refine Or.inr ?_; (repeat with_reducible apply Nat.le_add_right_of_le); first | decide | omega)
  | with_reducible rfl
  | with_reducible apply State.forAll_keeps
  | with_reducible apply State.send_keeps
  | with_reducible refine Keeps.ite ?_ ?_
  | with_reducible refine OptKeeps.get (by with_reducible assumption) ?_
  | with_reducible refine Keeps.elim ?_ ?_
  | with_reducible refine Keeps.foldl_fst ?_ _ _ ?_
  | with_reducible refine Keeps.foldl ?_ _ _ ?_
  | split
  | (with_reducible intro x; refine Keeps.cut (F := F) (r := r) (s := x) ?_ (fun hx => ?_); on_goal 2 => clear_value x)
  | (with_reducible intro x; refine Keeps.cut (F := F) (r := r) (s := x.1) ?_ (fun hx => ?_); on_goal 2 => clear_value x)
  | (with_reducible intro y)
  | (lift_lets; with_reducible intro x; refine Keeps.cut (F := F) (r := r) (s := x) ?_ (fun hx => ?_); on_goal 2 => clear_value x)
  | (lift_lets; with_reducible intro x; refine Keeps.cut (F := F) (r := r) (s := x.1) ?_ (fun hx => ?_); on_goal 2 => clear_value x)
  | (lift_lets; with_reducible intro y)
  | simp only [id]
  | dsimp only

theorem State.schedValid_keeps {F : List Kind} {r s : State} (kregs : Kind.regs ∈ F) (h : Keeps F r s) (q : Nat) :
    Keeps F r (State.schedValid s q) := by
  unfold State.schedValid
  try lift_lets
  repeat' first
  | with_reducible assumption
  | (refine Or.inr ?_; (repeat with_reducible apply Nat.le_add_right_of_le); first | decide | omega)
  | with_reducible apply State.put_keeps

theorem State.schedReasonIn_keeps {F : List Kind} {r s : State} (kregs : Kind.regs ∈ F) (knewtIrq : Kind.newtIrq ∈ F) (kfieldOps : Kind.fieldOps ∈ F) (h : Keeps F r s) (frame : Nat) (q : Nat) (l : Loc) (tl : Kind.tbRegs ∈ F ∨ 65536 ≤ l.key) :
    Keeps F r (State.schedReasonIn s frame q l) := by
  unfold State.schedReasonIn
  try lift_lets
  repeat' first
  | with_reducible assumption
  | exact Or.inl (by with_reducible assumption)
  | (refine Or.inr ?_; (repeat with_reducible apply Nat.le_add_right_of_le); first | decide | omega)
  | with_reducible rfl
  | with_reducible apply State.raise_keeps
  | with_reducible apply State.put_keeps
  | with_reducible apply State.evqEvent_keeps
  | with_reducible refine Keeps.ite ?_ ?_
  | with_reducible refine OptKeeps.get (by with_reducible assumption) ?_
  | with_reducible refine Keeps.elim ?_ ?_
  | with_reducible refine Keeps.foldl_fst ?_ _ _ ?_
  | with_reducible refine Keeps.foldl ?_ _ _ ?_
  | split
  | (with_reducible intro x; refine Keeps.cut (F := F) (r := r) (s := x) ?_ (fun hx => ?_); on_goal 2 => clear_value x)
  | (with_reducible intro x; refine Keeps.cut (F := F) (r := r) (s := x.1) ?_ (fun hx => ?_); on_goal 2 => clear_value x)
  | (with_reducible intro y)
  | (lift_lets; with_reducible intro x; refine Keeps.cut (F := F) (r := r) (s := x) ?_ (fun hx => ?_); on_goal 2 => clear_value x)
  | (lift_lets; with_reducible intro x; refine Keeps.cut (F := F) (r := r) (s := x.1) ?_ (fun hx => ?_); on_goal 2 => clear_value x)
  | (lift_lets; with_reducible intro y)
  | simp only [id]
  | dsimp only

theorem State.schedReason_keeps {F : List Kind} {r s : State} (kregs : Kind.regs ∈ F) (knewtIrq : Kind.newtIrq ∈ F) (kfieldOps : Kind.fieldOps ∈ F) (h : Keeps F r s) (q : Nat) (l : Loc) (tl : Kind.tbRegs ∈ F ∨ 65536 ≤ l.key) :
    Keeps F r (State.schedReason s q l) := by
  unfold State.schedReason
  try lift_lets
  repeat' first
  | with_reducible assumption
  | exact Or.inl (by with_reducible assumption)
  | (refine Or.inr ?_; (repeat with_reducible apply Nat.le_add_right_of_le); first | decide | omega)
  | with_reducible rfl
  | with_reducible apply State.schedReasonIn_keeps
  | with_reducible refine Keeps.ite ?_ ?_
  | with_reducible refine OptKeeps.get (by with_reducible assumption) ?_
  | with_reducible refine Keeps.elim ?_ ?_
  | with_reducible refine Keeps.foldl_fst ?_ _ _ ?_
  | with_reducible refine Keeps.foldl ?_ _ _ ?_
  | split
  | (with_reducible intro x; refine Keeps.cut (F := F) (r := r) (s := x) ?_ (fun hx => ?_); on_goal 2 => clear_value x)
  | (with_reducible intro x; refine Keeps.cut (F := F) (r := r) (s := x.1) ?_ (fun hx => ?_); on_goal 2 => clear_value x)
  | (with_reducible intro y)
  | (lift_lets; with_reducible intro x; refine Keeps.cut (F := F) (r := r) (s := x) ?_ (fun hx => ?_); on_goal 2 => clear_value x)
  | (lift_lets; with_reducible intro x; refine Keeps.cut (F := F) (r := r) (s := x.1) ?_ (fun hx => ?_); on_goal 2 => clear_value x)
  | (lift_lets; with_reducible intro y)
  | simp only [id]
  | dsimp only

theorem State.schedLevelsOf_keeps {F : List Kind} {r s : State} (kregs : Kind.regs ∈ F) (knewtIrq : Kind.newtIrq ∈ F) (kfieldOps : Kind.fieldOps ∈ F) (h : Keeps F r s) (q : Nat) :
    Keeps F r (State.schedLevelsOf s q) := by
  unfold State.schedLevelsOf
  try lift_lets
  repeat' first
  | with_reducible assumption
  | (refine Or.inr ?_; (repeat with_reducible apply Nat.le_add_right_of_le); first | decide | omega)
  | with_reducible apply State.when_keeps
  | with_reducible apply State.schedReason_keeps
  | with_reducible refine Keeps.ite ?_ ?_
  | (intro y)

theorem State.schedLevels_keeps {F : List Kind} {r s : State} (kregs : Kind.regs ∈ F) (knewtIrq : Kind.newtIrq ∈ F) (kfieldOps : Kind.fieldOps ∈ F) (h : Keeps F r s) :
    Keeps F r (State.schedLevels s) := by
  unfold State.schedLevels
  try lift_lets
  repeat' first
  | with_reducible assumption
  | with_reducible apply State.forAll_keeps
  | with_reducible apply State.schedLevelsOf_keeps
  | (intro y)

theorem State.schedForced_keeps {F : List Kind} {r s : State} (kregs : Kind.regs ∈ F) (knewtIrq : Kind.newtIrq ∈ F) (kfieldOps : Kind.fieldOps ∈ F) (h : Keeps F r s) (g : Nat) :
    Keeps F r (State.schedForced s g) := by
  unfold State.schedForced
  try lift_lets
  repeat' first
  | with_reducible assumption
  | (refine Or.inr ?_; (repeat with_reducible apply Nat.le_add_right_of_le); first | decide | omega)
  | with_reducible apply State.forAll_keeps
  | with_reducible apply State.schedReason_keeps
  | (intro y)

theorem State.schedTickLoss_keeps {F : List Kind} {r s : State} (kregs : Kind.regs ∈ F) (knewtIrq : Kind.newtIrq ∈ F) (kfieldOps : Kind.fieldOps ∈ F) (h : Keeps F r s) :
    Keeps F r (State.schedTickLoss s) := by
  unfold State.schedTickLoss
  try lift_lets
  repeat' first
  | with_reducible assumption
  | (refine Or.inr ?_; (repeat with_reducible apply Nat.le_add_right_of_le); first | decide | omega)
  | with_reducible apply State.forAll_keeps
  | with_reducible apply State.schedReason_keeps
  | (intro y)

end Sys2Proof.Machine
end

