-- ==== Sys2Proof/Laws/KeepsGrants.lean ====
section
/-! SUPPORT. What the operations of Machine/Grants keep. -/

namespace Sys2Proof.Machine

theorem State.nocEvent_keeps {F : List Kind} {r s : State} (kregs : Kind.regs ∈ F) (knewtIrq : Kind.newtIrq ∈ F) (kfieldOps : Kind.fieldOps ∈ F) (h : Keeps F r s) (l : Loc) (tl : Kind.tbRegs ∈ F ∨ 65536 ≤ l.key) :
    Keeps F r (State.nocEvent s l) := by
  unfold State.nocEvent
  try lift_lets
  repeat' first
  | with_reducible assumption
  | exact Or.inl (by with_reducible assumption)
  | (refine Or.inr ?_; (repeat with_reducible apply Nat.le_add_right_of_le); first | decide | omega)
  | with_reducible rfl
  | with_reducible apply State.event_keeps
  | with_reducible refine Keeps.ite ?_ ?_
  | split
  | (intro y)
  | (lift_lets; intro y)
  | dsimp only

theorem State.setMesh_keeps {F : List Kind} {r s : State} (kmesh : Kind.mesh ∈ F) (h : Keeps F r s) (x : Mesh) :
    Keeps F r (State.setMesh s x) := by
  unfold State.setMesh
  try lift_lets
  repeat' first
  | with_reducible assumption
  | exact Or.inl (by with_reducible assumption)
  | (refine Or.inr ?_; (repeat with_reducible apply Nat.le_add_right_of_le); first | decide | omega)
  | with_reducible rfl
  | (with_reducible refine Keeps.upd ?_ rfl rfl rfl rfl rfl rfl rfl rfl ?_ ?_ ?_ ?_ ?_ ?_ ?_ ?_ ?_ ?_ ?_ ?_ ?_ ?_ ?_ ?_ ?_ ?_ ?_ ?_ ?_ ?_ ?_ ?_ ?_ ?_ ?_ ?_ ?_ ?_ ?_ ?_ ?_ ?_ ?_ ?_ ?_ ?_ ?_ ?_ ?_ ?_ ?_ ?_ ?_ ?_ ?_ ?_ ?_ ?_ ?_ ?_ ?_ ?_ ?_ ?_ ?_ ?_ ?_ ?_ ?_ ?_ ?_ <;> first | with_reducible assumption | with_reducible exact Or.inr rfl | with_reducible exact Or.inl (by assumption))
  | with_reducible refine Keeps.ite ?_ ?_
  | split
  | (intro y)
  | (lift_lets; intro y)
  | dsimp only

theorem State.updateLaunch_keeps {F : List Kind} {r s : State} (klaunches : Kind.launches ∈ F) (h : Keeps F r s) (id : Nat) (f : Launch → Launch) :
    Keeps F r (State.updateLaunch s id f) := by
  unfold State.updateLaunch
  try lift_lets
  repeat' first
  | with_reducible assumption
  | exact Or.inl (by with_reducible assumption)
  | (refine Or.inr ?_; (repeat with_reducible apply Nat.le_add_right_of_le); first | decide | omega)
  | with_reducible rfl
  | (with_reducible refine Keeps.upd ?_ rfl rfl rfl rfl rfl rfl rfl rfl ?_ ?_ ?_ ?_ ?_ ?_ ?_ ?_ ?_ ?_ ?_ ?_ ?_ ?_ ?_ ?_ ?_ ?_ ?_ ?_ ?_ ?_ ?_ ?_ ?_ ?_ ?_ ?_ ?_ ?_ ?_ ?_ ?_ ?_ ?_ ?_ ?_ ?_ ?_ ?_ ?_ ?_ ?_ ?_ ?_ ?_ ?_ ?_ ?_ ?_ ?_ ?_ ?_ ?_ ?_ ?_ ?_ ?_ ?_ ?_ ?_ ?_ ?_ <;> first | with_reducible assumption | with_reducible exact Or.inr rfl | with_reducible exact Or.inl (by assumption))
  | with_reducible refine Keeps.ite ?_ ?_
  | split
  | (intro y)
  | (lift_lets; intro y)
  | dsimp only

theorem State.setGrant_keeps {F : List Kind} {r s : State} (kmesh : Kind.mesh ∈ F) (h : Keeps F r s) (i : Nat) (g : Option VcGrant) :
    Keeps F r (State.setGrant s i g) := by
  unfold State.setGrant
  try lift_lets
  repeat' first
  | with_reducible assumption
  | exact Or.inl (by with_reducible assumption)
  | (refine Or.inr ?_; (repeat with_reducible apply Nat.le_add_right_of_le); first | decide | omega)
  | with_reducible rfl
  | with_reducible apply State.setMesh_keeps
  | with_reducible refine Keeps.ite ?_ ?_
  | split
  | (intro y)
  | (lift_lets; intro y)
  | dsimp only

theorem State.endGrant_keeps {F : List Kind} {r s : State} (kregs : Kind.regs ∈ F) (kmesh : Kind.mesh ∈ F) (h : Keeps F r s) (i : Nat) :
    Keeps F r (State.endGrant s i) := by
  unfold State.endGrant
  try lift_lets
  repeat' first
  | with_reducible assumption
  | exact Or.inl (by with_reducible assumption)
  | (refine Or.inr ?_; (repeat with_reducible apply Nat.le_add_right_of_le); first | decide | omega)
  | with_reducible rfl
  | with_reducible apply State.setGrant_keeps
  | with_reducible apply State.put_keeps
  | with_reducible refine Keeps.ite ?_ ?_
  | split
  | (intro y)
  | (lift_lets; intro y)
  | dsimp only

theorem State.endGrantsAt_keeps {F : List Kind} {r s : State} (kregs : Kind.regs ∈ F) (kmesh : Kind.mesh ∈ F) (h : Keeps F r s) (ns : Nat) :
    Keeps F r (State.endGrantsAt s ns) := by
  unfold State.endGrantsAt
  try lift_lets
  repeat' first
  | with_reducible assumption
  | exact Or.inl (by with_reducible assumption)
  | (refine Or.inr ?_; (repeat with_reducible apply Nat.le_add_right_of_le); first | decide | omega)
  | with_reducible rfl
  | with_reducible apply State.forAll_keeps
  | with_reducible apply State.endGrant_keeps
  | with_reducible refine Keeps.ite ?_ ?_
  | split
  | (intro y)
  | (lift_lets; intro y)
  | dsimp only

theorem State.grantDenied_keeps {F : List Kind} {r s : State} (kregs : Kind.regs ∈ F) (knewtIrq : Kind.newtIrq ∈ F) (kfieldOps : Kind.fieldOps ∈ F) (h : Keeps F r s) (i : Nat) (cause : Nat) (l : Nat × Nat × Nat) :
    Keeps F r (State.grantDenied s i cause l) := by
  unfold State.grantDenied
  try lift_lets
  repeat' first
  | with_reducible assumption
  | exact Or.inl (by with_reducible assumption)
  | (refine Or.inr ?_; (repeat with_reducible apply Nat.le_add_right_of_le); first | decide | omega)
  | with_reducible rfl
  | with_reducible apply State.put_keeps
  | with_reducible apply State.inc_keeps
  | with_reducible apply State.nocEvent_keeps
  | with_reducible refine Keeps.ite ?_ ?_
  | split
  | (intro y)
  | (lift_lets; intro y)
  | dsimp only

theorem State.grantGiven_keeps {F : List Kind} {r s : State} (kregs : Kind.regs ∈ F) (kmesh : Kind.mesh ∈ F) (h : Keeps F r s) (a : GrantAsk) :
    Keeps F r (State.grantGiven s a) := by
  unfold State.grantGiven
  try lift_lets
  repeat' first
  | with_reducible assumption
  | exact Or.inl (by with_reducible assumption)
  | (refine Or.inr ?_; (repeat with_reducible apply Nat.le_add_right_of_le); first | decide | omega)
  | with_reducible rfl
  | with_reducible apply State.setGrant_keeps
  | with_reducible apply State.put_keeps
  | with_reducible apply State.inc_keeps
  | with_reducible refine Keeps.ite ?_ ?_
  | split
  | (intro y)
  | (lift_lets; intro y)
  | dsimp only

theorem State.activate_keeps {F : List Kind} {r s : State} (kregs : Kind.regs ∈ F) (knewtIrq : Kind.newtIrq ∈ F) (kfieldOps : Kind.fieldOps ∈ F) (klaunches : Kind.launches ∈ F) (kmesh : Kind.mesh ∈ F) (h : Keeps F r s) (a : GrantAsk) :
    Keeps F r (State.activate s a) := by
  unfold State.activate
  try lift_lets
  repeat' first
  | with_reducible assumption
  | exact Or.inl (by with_reducible assumption)
  | (refine Or.inr ?_; (repeat with_reducible apply Nat.le_add_right_of_le); first | decide | omega)
  | with_reducible rfl
  | with_reducible apply State.endGrantsAt_keeps
  | with_reducible apply State.grantGiven_keeps
  | with_reducible apply State.grantDenied_keeps
  | with_reducible apply State.updateLaunch_keeps
  | with_reducible apply State.schedReasonIn_keeps
  | with_reducible refine Keeps.ite ?_ ?_
  | split
  | (intro y)
  | (lift_lets; intro y)
  | dsimp only

theorem State.judgeAsks_keeps {F : List Kind} {r s : State} (kregs : Kind.regs ∈ F) (knewtIrq : Kind.newtIrq ∈ F) (kfieldOps : Kind.fieldOps ∈ F) (klaunches : Kind.launches ∈ F) (kmesh : Kind.mesh ∈ F) (h : Keeps F r s) (t n : Nat) :
    Keeps F r (State.judgeAsks s t n) := by
  induction n generalizing s with
  | zero => exact h
  | succ n ih =>
    unfold State.judgeAsks
    split
    · exact h
    · apply ih
      apply State.activate_keeps <;> first | assumption | (apply State.setMesh_keeps <;> assumption)

theorem State.judgeDue_keeps {F : List Kind} {r s : State} (kregs : Kind.regs ∈ F) (knewtIrq : Kind.newtIrq ∈ F) (kfieldOps : Kind.fieldOps ∈ F) (klaunches : Kind.launches ∈ F) (kmesh : Kind.mesh ∈ F) (h : Keeps F r s)  :
    Keeps F r (State.judgeDue s) := by
  unfold State.judgeDue
  try lift_lets
  repeat' first
  | with_reducible assumption
  | exact Or.inl (by with_reducible assumption)
  | (refine Or.inr ?_; (repeat with_reducible apply Nat.le_add_right_of_le); first | decide | omega)
  | with_reducible rfl
  | with_reducible apply State.judgeAsks_keeps
  | with_reducible refine Keeps.ite ?_ ?_
  | with_reducible refine OptKeeps.get (by with_reducible assumption) ?_
  | with_reducible refine Keeps.elim ?_ ?_
  | with_reducible refine Keeps.foldl_fst ?_ _ _ ?_
  | with_reducible refine Keeps.foldl ?_ _ _ ?_
  | split
  | (with_reducible intro x; refine Keeps.cut (F := F) (r := r) (s := x) ?_ (fun hx => ?_); on_goal 2 => clear_value x)
  | (with_reducible intro x; refine Keeps.cut (F := F) (r := r) (s := x.1) ?_ (fun hx => ?_); on_goal 2 => clear_value x)
  | (with_reducible intro y)
  | (lift_lets; with_reducible intro x; refine Keeps.cut (F := F) (r := r) (s := x) ?_ (fun hx => ?_); on_goal 2 => clear_value x)
  | (lift_lets; with_reducible intro x; refine Keeps.cut (F := F) (r := r) (s := x.1) ?_ (fun hx => ?_); on_goal 2 => clear_value x)
  | (lift_lets; with_reducible intro y)
  | simp only [id]
  | dsimp only

theorem State.endGrants_keeps {F : List Kind} {r s : State} (kregs : Kind.regs ∈ F) (knewtIrq : Kind.newtIrq ∈ F) (kfieldOps : Kind.fieldOps ∈ F) (klaunches : Kind.launches ∈ F) (kmesh : Kind.mesh ∈ F) (h : Keeps F r s)  :
    Keeps F r (State.endGrants s) := by
  unfold State.endGrants
  try lift_lets
  repeat' first
  | with_reducible assumption
  | exact Or.inl (by with_reducible assumption)
  | (refine Or.inr ?_; (repeat with_reducible apply Nat.le_add_right_of_le); first | decide | omega)
  | with_reducible rfl
  | with_reducible apply State.judgeDue_keeps
  | with_reducible apply State.endGrantsAt_keeps
  | with_reducible refine Keeps.ite ?_ ?_
  | with_reducible refine OptKeeps.get (by with_reducible assumption) ?_
  | with_reducible refine Keeps.elim ?_ ?_
  | with_reducible refine Keeps.foldl_fst ?_ _ _ ?_
  | with_reducible refine Keeps.foldl ?_ _ _ ?_
  | split
  | (with_reducible intro x; refine Keeps.cut (F := F) (r := r) (s := x) ?_ (fun hx => ?_); on_goal 2 => clear_value x)
  | (with_reducible intro x; refine Keeps.cut (F := F) (r := r) (s := x.1) ?_ (fun hx => ?_); on_goal 2 => clear_value x)
  | (with_reducible intro y)
  | (lift_lets; with_reducible intro x; refine Keeps.cut (F := F) (r := r) (s := x) ?_ (fun hx => ?_); on_goal 2 => clear_value x)
  | (lift_lets; with_reducible intro x; refine Keeps.cut (F := F) (r := r) (s := x.1) ?_ (fun hx => ?_); on_goal 2 => clear_value x)
  | (lift_lets; with_reducible intro y)
  | simp only [id]
  | dsimp only

theorem State.askGrant_keeps {F : List Kind} {r s : State} (kmesh : Kind.mesh ∈ F) (h : Keeps F r s) (i : Nat) (len : Nat) (wait : Nat) (l : Launch) :
    Keeps F r (State.askGrant s i len wait l) := by
  unfold State.askGrant
  try lift_lets
  repeat' first
  | with_reducible assumption
  | exact Or.inl (by with_reducible assumption)
  | (refine Or.inr ?_; (repeat with_reducible apply Nat.le_add_right_of_le); first | decide | omega)
  | with_reducible rfl
  | (with_reducible refine Keeps.upd ?_ rfl rfl rfl rfl rfl rfl rfl rfl ?_ ?_ ?_ ?_ ?_ ?_ ?_ ?_ ?_ ?_ ?_ ?_ ?_ ?_ ?_ ?_ ?_ ?_ ?_ ?_ ?_ ?_ ?_ ?_ ?_ ?_ ?_ ?_ ?_ ?_ ?_ ?_ ?_ ?_ ?_ ?_ ?_ ?_ ?_ ?_ ?_ ?_ ?_ ?_ ?_ ?_ ?_ ?_ ?_ ?_ ?_ ?_ ?_ ?_ ?_ ?_ ?_ ?_ ?_ ?_ ?_ ?_ ?_ <;> first | with_reducible assumption | with_reducible exact Or.inr rfl | with_reducible exact Or.inl (by assumption) | with_reducible apply State.setMesh_keeps)
  | with_reducible apply State.setMesh_keeps
  | with_reducible refine Keeps.ite ?_ ?_
  | with_reducible refine OptKeeps.get (by with_reducible assumption) ?_
  | with_reducible refine Keeps.elim ?_ ?_
  | with_reducible refine Keeps.foldl_fst ?_ _ _ ?_
  | with_reducible refine Keeps.foldl ?_ _ _ ?_
  | split
  | (with_reducible intro x; refine Keeps.cut (F := F) (r := r) (s := x) ?_ (fun hx => ?_); on_goal 2 => clear_value x)
  | (with_reducible intro x; refine Keeps.cut (F := F) (r := r) (s := x.1) ?_ (fun hx => ?_); on_goal 2 => clear_value x)
  | (with_reducible intro y)
  | (lift_lets; with_reducible intro x; refine Keeps.cut (F := F) (r := r) (s := x) ?_ (fun hx => ?_); on_goal 2 => clear_value x)
  | (lift_lets; with_reducible intro x; refine Keeps.cut (F := F) (r := r) (s := x.1) ?_ (fun hx => ?_); on_goal 2 => clear_value x)
  | (lift_lets; with_reducible intro y)
  | simp only [id]
  | dsimp only

theorem execGrantEnd_keeps {F : List Kind} {r s : State} (kregs : Kind.regs ∈ F) (kup : Kind.up ∈ F) (kresp : Kind.resp ∈ F) (knewtIrq : Kind.newtIrq ∈ F) (kfieldOps : Kind.fieldOps ∈ F) (ktb : Kind.tb ∈ F) (kfiles : Kind.files ∈ F) (kaplic : Kind.aplic ∈ F) (kpaused : Kind.paused ∈ F) (klaunches : Kind.launches ∈ F) (kmesh : Kind.mesh ∈ F) (kcaps : Kind.caps ∈ F) (kcapBusy : Kind.capBusy ∈ F) (h : Keeps F r s) (entry : Fin 256) :
    ResKeeps F r (execGrantEnd entry s) := by
  unfold execGrantEnd
  try lift_lets
  repeat' first
  | with_reducible assumption
  | exact Or.inl (by with_reducible assumption)
  | (refine Or.inr ?_; (repeat with_reducible apply Nat.le_add_right_of_le); first | decide | omega)
  | with_reducible rfl
  | with_reducible apply State.judgeDue_keeps
  | with_reducible apply State.elapseToNs_keeps
  | with_reducible apply State.endGrant_keeps
  | with_reducible apply ResKeeps.next
  | with_reducible refine ResKeeps.ite ?_ ?_
  | with_reducible refine Keeps.ite ?_ ?_
  | with_reducible refine OptKeeps.get (by with_reducible assumption) ?_
  | with_reducible refine Keeps.elim ?_ ?_
  | with_reducible refine Keeps.foldl_fst ?_ _ _ ?_
  | with_reducible refine Keeps.foldl ?_ _ _ ?_
  | split
  | (with_reducible intro x; refine Keeps.cut (F := F) (r := r) (s := x) ?_ (fun hx => ?_); on_goal 2 => clear_value x)
  | (with_reducible intro x; refine Keeps.cut (F := F) (r := r) (s := x.1) ?_ (fun hx => ?_); on_goal 2 => clear_value x)
  | (with_reducible intro y)
  | (lift_lets; with_reducible intro x; refine Keeps.cut (F := F) (r := r) (s := x) ?_ (fun hx => ?_); on_goal 2 => clear_value x)
  | (lift_lets; with_reducible intro x; refine Keeps.cut (F := F) (r := r) (s := x.1) ?_ (fun hx => ?_); on_goal 2 => clear_value x)
  | (lift_lets; with_reducible intro y)
  | simp only [id]
  | dsimp only

end Sys2Proof.Machine
end

