-- ==== Sys2Proof/Laws/KeepsCadence.lean ====
section
/-! SUPPORT. What the operations of Machine/Cadence.lean keep: the queue, the canonical forms, time, and every kind of state they do not name. -/

namespace Sys2Proof.Machine

set_option linter.unusedTactic false
set_option linter.unreachableTactic false
set_option linter.unusedVariables false

theorem State.setCreg_keeps {F : List Kind} {r s : State} (kregs : Kind.regs ∈ F) (h : Keeps F r s) (q : Nat) (n : Nat) (v : Nat) :
    Keeps F r (State.setCreg s q n v) := by
  unfold State.setCreg
  try lift_lets
  repeat' first
  | with_reducible assumption
  | (refine Or.inr ?_; (repeat with_reducible apply Nat.le_add_right_of_le); first | decide | omega)
  | with_reducible apply State.put_keeps

theorem State.setZ_keeps {F : List Kind} {r s : State} (kregs : Kind.regs ∈ F) (h : Keeps F r s) (q : Nat) (b : Bool) :
    Keeps F r (State.setZ s q b) := by
  unfold State.setZ
  try lift_lets
  repeat' first
  | with_reducible assumption
  | (refine Or.inr ?_; (repeat with_reducible apply Nat.le_add_right_of_le); first | decide | omega)
  | with_reducible apply State.put_keeps

theorem State.setE_keeps {F : List Kind} {r s : State} (kregs : Kind.regs ∈ F) (h : Keeps F r s) (q : Nat) :
    Keeps F r (State.setE s q) := by
  unfold State.setE
  try lift_lets
  repeat' first
  | with_reducible assumption
  | (refine Or.inr ?_; (repeat with_reducible apply Nat.le_add_right_of_le); first | decide | omega)
  | with_reducible apply State.put_keeps

theorem State.csqEvent_keeps {F : List Kind} {r s : State} (kregs : Kind.regs ∈ F) (knewtIrq : Kind.newtIrq ∈ F) (kfieldOps : Kind.fieldOps ∈ F) (h : Keeps F r s) (q : Nat) (l : Loc) (tl : Kind.tbRegs ∈ F ∨ 65536 ≤ l.key) :
    Keeps F r (State.csqEvent s q l) := by
  unfold State.csqEvent
  try lift_lets
  repeat' first
  | with_reducible assumption
  | with_reducible apply State.event_keeps

theorem State.setCsq_keeps {F : List Kind} {r s : State} (kcsq : Kind.csq ∈ F) (h : Keeps F r s) (q : Nat) (c : Csq) :
    Keeps F r (State.setCsq s q c) := by
  unfold State.setCsq
  try lift_lets
  repeat' first
  | with_reducible assumption
  | (with_reducible refine Keeps.upd ?_ rfl rfl rfl rfl rfl rfl rfl rfl ?_ ?_ ?_ ?_ ?_ ?_ ?_ ?_ ?_ ?_ ?_ ?_ ?_ ?_ ?_ ?_ ?_ ?_ ?_ ?_ ?_ ?_ ?_ ?_ ?_ ?_ ?_ ?_ ?_ ?_ ?_ ?_ ?_ ?_ ?_ ?_ ?_ ?_ ?_ ?_ ?_ ?_ ?_ ?_ ?_ ?_ ?_ ?_ ?_ ?_ ?_ ?_ ?_ ?_ ?_ ?_ ?_ ?_ ?_ ?_ ?_ ?_ ?_ <;> first | with_reducible assumption | with_reducible exact Or.inr rfl | with_reducible exact Or.inl (by assumption))

theorem State.csqCount_keeps {F : List Kind} {r s : State} (kregs : Kind.regs ∈ F) (kresp : Kind.resp ∈ F) (knewtIrq : Kind.newtIrq ∈ F) (kfieldOps : Kind.fieldOps ∈ F) (kfiles : Kind.files ∈ F) (kaplic : Kind.aplic ∈ F) (kpaused : Kind.paused ∈ F) (kcaps : Kind.caps ∈ F) (kcapBusy : Kind.capBusy ∈ F) (h : Keeps F r s) (q : Nat) (ev : Nat) :
    Keeps F r (State.csqCount s q ev) := by
  unfold State.csqCount
  try lift_lets
  repeat' first
  | with_reducible assumption
  | with_reducible apply State.pmc_keeps

theorem State.clearSlots_keeps {F : List Kind} {r s : State} (kregs : Kind.regs ∈ F) (h : Keeps F r s) (q : Nat) :
    Keeps F r (State.clearSlots s q) := by
  unfold State.clearSlots
  try lift_lets
  repeat' first
  | with_reducible assumption
  | (refine Or.inr ?_; (repeat with_reducible apply Nat.le_add_right_of_le); first | decide | omega)
  | with_reducible apply State.put_keeps

theorem State.dropWork_keeps {F : List Kind} {r s : State} (kcsq : Kind.csq ∈ F) (h : Keeps F r s) (q : Nat) :
    Keeps F r (State.dropWork s q) := by
  unfold State.dropWork
  try lift_lets
  repeat' first
  | with_reducible assumption
  | with_reducible apply State.setCsq_keeps

theorem State.elapseToOffset_keeps {F : List Kind} {r s : State} (kregs : Kind.regs ∈ F) (kup : Kind.up ∈ F) (kresp : Kind.resp ∈ F) (knewtIrq : Kind.newtIrq ∈ F) (kfieldOps : Kind.fieldOps ∈ F) (ktb : Kind.tb ∈ F) (kfiles : Kind.files ∈ F) (kaplic : Kind.aplic ∈ F) (kpaused : Kind.paused ∈ F) (kcaps : Kind.caps ∈ F) (kcapBusy : Kind.capBusy ∈ F) (h : Keeps F r s) (v : Nat) :
    Keeps F r (State.elapseToOffset s v) := by
  unfold State.elapseToOffset
  try lift_lets
  repeat' first
  | with_reducible assumption
  | with_reducible apply State.elapseToNs_keeps
  | with_reducible refine Keeps.ite ?_ ?_

theorem State.csqFault_keeps {F : List Kind} {r s : State} (kregs : Kind.regs ∈ F) (knewtIrq : Kind.newtIrq ∈ F) (kfieldOps : Kind.fieldOps ∈ F) (kpaused : Kind.paused ∈ F) (kcsq : Kind.csq ∈ F) (kcaps : Kind.caps ∈ F) (kcapBusy : Kind.capBusy ∈ F) (h : Keeps F r s) (q : Nat) (code : Nat) (pc : Nat) :
    Keeps F r (State.csqFault s q code pc) := by
  unfold State.csqFault
  try lift_lets
  repeat' first
  | with_reducible assumption
  | (refine Or.inr ?_; (repeat with_reducible apply Nat.le_add_right_of_le); first | decide | omega)
  | with_reducible apply State.put_keeps
  | with_reducible apply State.dropWork_keeps
  | with_reducible apply State.csqEvent_keeps
  | with_reducible apply State.logRec_keeps

theorem State.csqEnd_keeps {F : List Kind} {r s : State} (kregs : Kind.regs ∈ F) (knewtIrq : Kind.newtIrq ∈ F) (kfieldOps : Kind.fieldOps ∈ F) (kpaused : Kind.paused ∈ F) (kcsq : Kind.csq ∈ F) (kcaps : Kind.caps ∈ F) (kcapBusy : Kind.capBusy ∈ F) (h : Keeps F r s) (q : Nat) (ns : Nat) (eff : State → State) (heff : ∀ x, Keeps F r x → Keeps F r (eff x)) :
    Keeps F r (State.csqEnd s q ns eff) := by
  unfold State.csqEnd
  try lift_lets
  repeat' first
  | with_reducible assumption
  | (refine Or.inr ?_; (repeat with_reducible apply Nat.le_add_right_of_le); first | decide | omega)
  | with_reducible apply heff
  | with_reducible apply State.csqFault_keeps
  | with_reducible apply State.put_keeps
  | with_reducible apply State.setCsq_keeps
  | with_reducible refine Keeps.ite ?_ ?_

theorem State.csqJump_keeps {F : List Kind} {r s : State} (kregs : Kind.regs ∈ F) (kcsq : Kind.csq ∈ F) (h : Keeps F r s) (q : Nat) (a : Nat) :
    Keeps F r (State.csqJump s q a) := by
  unfold State.csqJump
  try lift_lets
  repeat' first
  | with_reducible assumption
  | (refine Or.inr ?_; (repeat with_reducible apply Nat.le_add_right_of_le); first | decide | omega)
  | with_reducible apply State.put_keeps
  | with_reducible apply State.setCsq_keeps

theorem State.csqWait_keeps {F : List Kind} {r s : State} (kregs : Kind.regs ∈ F) (kcsq : Kind.csq ∈ F) (h : Keeps F r s) (q : Nat) (w : Wait) :
    Keeps F r (State.csqWait s q w) := by
  unfold State.csqWait
  try lift_lets
  repeat' first
  | with_reducible assumption
  | (refine Or.inr ?_; (repeat with_reducible apply Nat.le_add_right_of_le); first | decide | omega)
  | with_reducible apply State.put_keeps
  | with_reducible apply State.setCsq_keeps

theorem State.csqEccCorr_keeps {F : List Kind} {r s : State} (kregs : Kind.regs ∈ F) (knewtIrq : Kind.newtIrq ∈ F) (kfieldOps : Kind.fieldOps ∈ F) (kpaused : Kind.paused ∈ F) (kcaps : Kind.caps ∈ F) (kcapBusy : Kind.capBusy ∈ F) (h : Keeps F r s) (q : Nat) (addr : Nat) :
    Keeps F r (State.csqEccCorr s q addr) := by
  unfold State.csqEccCorr
  try lift_lets
  repeat' first
  | with_reducible assumption
  | (refine Or.inr ?_; (repeat with_reducible apply Nat.le_add_right_of_le); first | decide | omega)
  | with_reducible apply State.logRec_keeps
  | with_reducible apply State.csqEvent_keeps

theorem State.csqStep_keeps {F : List Kind} {r s : State} (kregs : Kind.regs ∈ F) (kup : Kind.up ∈ F) (kresp : Kind.resp ∈ F) (knewtIrq : Kind.newtIrq ∈ F) (kfieldOps : Kind.fieldOps ∈ F) (ktb : Kind.tb ∈ F) (kfiles : Kind.files ∈ F) (kaplic : Kind.aplic ∈ F) (kpaused : Kind.paused ∈ F) (kcsq : Kind.csq ∈ F) (kcaps : Kind.caps ∈ F) (kcapBusy : Kind.capBusy ∈ F) (h : Keeps F r s) (q : Nat) (op : Nat) (f : State → CsqWord → State) (hf : ∀ x y0, Keeps F r x → Keeps F r (f x y0)) :
    Keeps F r (State.csqStep s q op f) := by
  unfold State.csqStep
  try lift_lets
  repeat' first
  | with_reducible assumption
  | exact Or.inl (by with_reducible assumption)
  | (refine Or.inr ?_; (repeat with_reducible apply Nat.le_add_right_of_le); first | decide | omega)
  | with_reducible rfl
  | with_reducible apply hf
  | with_reducible apply State.elapseUntil_keeps
  | with_reducible apply State.when_keeps
  | with_reducible apply State.csqEccCorr_keeps
  | with_reducible apply State.csqFault_keeps
  | with_reducible apply State.csqEnd_keeps
  | with_reducible refine Keeps.ite ?_ ?_
  | with_reducible refine Keeps.elim ?_ ?_
  | split
  | (with_reducible intro y)
  | (lift_lets; with_reducible intro y)
  | simp only [id]
  | dsimp only

theorem State.csqResult_keeps {F : List Kind} {r s : State} (kregs : Kind.regs ∈ F) (knewtIrq : Kind.newtIrq ∈ F) (kfieldOps : Kind.fieldOps ∈ F) (kpaused : Kind.paused ∈ F) (kcsq : Kind.csq ∈ F) (kcaps : Kind.caps ∈ F) (kcapBusy : Kind.capBusy ∈ F) (h : Keeps F r s) (q : Nat) (rd : Nat) (v : Nat) :
    Keeps F r (State.csqResult s q rd v) := by
  unfold State.csqResult
  try lift_lets
  repeat' first
  | with_reducible assumption
  | with_reducible apply State.csqEnd_keeps
  | with_reducible apply State.setZ_keeps
  | with_reducible apply State.setCreg_keeps
  | (intro y)

theorem execMovi_keeps {F : List Kind} {r s : State} (kregs : Kind.regs ∈ F) (kup : Kind.up ∈ F) (kresp : Kind.resp ∈ F) (knewtIrq : Kind.newtIrq ∈ F) (kfieldOps : Kind.fieldOps ∈ F) (ktb : Kind.tb ∈ F) (kfiles : Kind.files ∈ F) (kaplic : Kind.aplic ∈ F) (kpaused : Kind.paused ∈ F) (kcsq : Kind.csq ∈ F) (kcaps : Kind.caps ∈ F) (kcapBusy : Kind.capBusy ∈ F) (h : Keeps F r s) (q : Fin 32) :
    ResKeeps F r (execMovi q s) := by
  unfold execMovi
  try lift_lets
  repeat' first
  | with_reducible assumption
  | with_reducible apply State.csqStep_keeps
  | with_reducible apply State.csqResult_keeps
  | with_reducible apply ResKeeps.next
  | (intro y)

theorem execAddi_keeps {F : List Kind} {r s : State} (kregs : Kind.regs ∈ F) (kup : Kind.up ∈ F) (kresp : Kind.resp ∈ F) (knewtIrq : Kind.newtIrq ∈ F) (kfieldOps : Kind.fieldOps ∈ F) (ktb : Kind.tb ∈ F) (kfiles : Kind.files ∈ F) (kaplic : Kind.aplic ∈ F) (kpaused : Kind.paused ∈ F) (kcsq : Kind.csq ∈ F) (kcaps : Kind.caps ∈ F) (kcapBusy : Kind.capBusy ∈ F) (h : Keeps F r s) (q : Fin 32) :
    ResKeeps F r (execAddi q s) := by
  unfold execAddi
  try lift_lets
  repeat' first
  | with_reducible assumption
  | with_reducible apply State.csqStep_keeps
  | with_reducible apply State.csqResult_keeps
  | with_reducible apply ResKeeps.next
  | (intro y)

theorem execSub_keeps {F : List Kind} {r s : State} (kregs : Kind.regs ∈ F) (kup : Kind.up ∈ F) (kresp : Kind.resp ∈ F) (knewtIrq : Kind.newtIrq ∈ F) (kfieldOps : Kind.fieldOps ∈ F) (ktb : Kind.tb ∈ F) (kfiles : Kind.files ∈ F) (kaplic : Kind.aplic ∈ F) (kpaused : Kind.paused ∈ F) (kcsq : Kind.csq ∈ F) (kcaps : Kind.caps ∈ F) (kcapBusy : Kind.capBusy ∈ F) (h : Keeps F r s) (q : Fin 32) :
    ResKeeps F r (execSub q s) := by
  unfold execSub
  try lift_lets
  repeat' first
  | with_reducible assumption
  | with_reducible apply State.csqStep_keeps
  | with_reducible apply State.csqResult_keeps
  | with_reducible apply ResKeeps.next
  | (intro y)

theorem execAnd_keeps {F : List Kind} {r s : State} (kregs : Kind.regs ∈ F) (kup : Kind.up ∈ F) (kresp : Kind.resp ∈ F) (knewtIrq : Kind.newtIrq ∈ F) (kfieldOps : Kind.fieldOps ∈ F) (ktb : Kind.tb ∈ F) (kfiles : Kind.files ∈ F) (kaplic : Kind.aplic ∈ F) (kpaused : Kind.paused ∈ F) (kcsq : Kind.csq ∈ F) (kcaps : Kind.caps ∈ F) (kcapBusy : Kind.capBusy ∈ F) (h : Keeps F r s) (q : Fin 32) :
    ResKeeps F r (execAnd q s) := by
  unfold execAnd
  try lift_lets
  repeat' first
  | with_reducible assumption
  | with_reducible apply State.csqStep_keeps
  | with_reducible apply State.csqResult_keeps
  | with_reducible apply ResKeeps.next
  | (intro y)

theorem execOr_keeps {F : List Kind} {r s : State} (kregs : Kind.regs ∈ F) (kup : Kind.up ∈ F) (kresp : Kind.resp ∈ F) (knewtIrq : Kind.newtIrq ∈ F) (kfieldOps : Kind.fieldOps ∈ F) (ktb : Kind.tb ∈ F) (kfiles : Kind.files ∈ F) (kaplic : Kind.aplic ∈ F) (kpaused : Kind.paused ∈ F) (kcsq : Kind.csq ∈ F) (kcaps : Kind.caps ∈ F) (kcapBusy : Kind.capBusy ∈ F) (h : Keeps F r s) (q : Fin 32) :
    ResKeeps F r (execOr q s) := by
  unfold execOr
  try lift_lets
  repeat' first
  | with_reducible assumption
  | with_reducible apply State.csqStep_keeps
  | with_reducible apply State.csqResult_keeps
  | with_reducible apply ResKeeps.next
  | (intro y)

theorem execShl_keeps {F : List Kind} {r s : State} (kregs : Kind.regs ∈ F) (kup : Kind.up ∈ F) (kresp : Kind.resp ∈ F) (knewtIrq : Kind.newtIrq ∈ F) (kfieldOps : Kind.fieldOps ∈ F) (ktb : Kind.tb ∈ F) (kfiles : Kind.files ∈ F) (kaplic : Kind.aplic ∈ F) (kpaused : Kind.paused ∈ F) (kcsq : Kind.csq ∈ F) (kcaps : Kind.caps ∈ F) (kcapBusy : Kind.capBusy ∈ F) (h : Keeps F r s) (q : Fin 32) :
    ResKeeps F r (execShl q s) := by
  unfold execShl
  try lift_lets
  repeat' first
  | with_reducible assumption
  | with_reducible apply State.csqStep_keeps
  | with_reducible apply State.csqResult_keeps
  | with_reducible apply ResKeeps.next
  | (intro y)

theorem execBr_keeps {F : List Kind} {r s : State} (kregs : Kind.regs ∈ F) (kup : Kind.up ∈ F) (kresp : Kind.resp ∈ F) (knewtIrq : Kind.newtIrq ∈ F) (kfieldOps : Kind.fieldOps ∈ F) (ktb : Kind.tb ∈ F) (kfiles : Kind.files ∈ F) (kaplic : Kind.aplic ∈ F) (kpaused : Kind.paused ∈ F) (kcsq : Kind.csq ∈ F) (kcaps : Kind.caps ∈ F) (kcapBusy : Kind.capBusy ∈ F) (h : Keeps F r s) (q : Fin 32) :
    ResKeeps F r (execBr q s) := by
  unfold execBr
  try lift_lets
  repeat' first
  | with_reducible assumption
  | with_reducible apply State.csqStep_keeps
  | with_reducible apply State.csqJump_keeps
  | with_reducible apply ResKeeps.next
  | (intro y)

theorem execLoop_keeps {F : List Kind} {r s : State} (kregs : Kind.regs ∈ F) (kup : Kind.up ∈ F) (kresp : Kind.resp ∈ F) (knewtIrq : Kind.newtIrq ∈ F) (kfieldOps : Kind.fieldOps ∈ F) (ktb : Kind.tb ∈ F) (kfiles : Kind.files ∈ F) (kaplic : Kind.aplic ∈ F) (kpaused : Kind.paused ∈ F) (kcsq : Kind.csq ∈ F) (kcaps : Kind.caps ∈ F) (kcapBusy : Kind.capBusy ∈ F) (h : Keeps F r s) (q : Fin 32) :
    ResKeeps F r (execLoop q s) := by
  unfold execLoop
  try lift_lets
  repeat' first
  | with_reducible assumption
  | with_reducible apply State.csqStep_keeps
  | with_reducible apply State.csqResult_keeps
  | with_reducible apply State.csqJump_keeps
  | with_reducible apply State.setZ_keeps
  | with_reducible apply State.setCreg_keeps
  | with_reducible apply ResKeeps.next
  | with_reducible refine Keeps.ite ?_ ?_
  | (intro y)

theorem execHalt_keeps {F : List Kind} {r s : State} (kregs : Kind.regs ∈ F) (kup : Kind.up ∈ F) (kresp : Kind.resp ∈ F) (knewtIrq : Kind.newtIrq ∈ F) (kfieldOps : Kind.fieldOps ∈ F) (ktb : Kind.tb ∈ F) (kfiles : Kind.files ∈ F) (kaplic : Kind.aplic ∈ F) (kpaused : Kind.paused ∈ F) (kcsq : Kind.csq ∈ F) (kcaps : Kind.caps ∈ F) (kcapBusy : Kind.capBusy ∈ F) (h : Keeps F r s) (q : Fin 32) :
    ResKeeps F r (execHalt q s) := by
  unfold execHalt
  try lift_lets
  repeat' first
  | with_reducible assumption
  | (refine Or.inr ?_; (repeat with_reducible apply Nat.le_add_right_of_le); first | decide | omega)
  | with_reducible apply State.csqStep_keeps
  | with_reducible apply State.csqEvent_keeps
  | with_reducible apply State.put_keeps
  | with_reducible apply ResKeeps.next
  | (intro y)

theorem State.csqYield_keeps {F : List Kind} {r s : State} (kregs : Kind.regs ∈ F) (h : Keeps F r s) (q : Nat) (sleep : Nat) (resume : Nat) :
    Keeps F r (State.csqYield s q sleep resume) := by
  unfold State.csqYield
  try lift_lets
  repeat' first
  | with_reducible assumption
  | (refine Or.inr ?_; (repeat with_reducible apply Nat.le_add_right_of_le); first | decide | omega)
  | with_reducible apply State.put_keeps

theorem execYield_keeps {F : List Kind} {r s : State} (kregs : Kind.regs ∈ F) (kup : Kind.up ∈ F) (kresp : Kind.resp ∈ F) (knewtIrq : Kind.newtIrq ∈ F) (kfieldOps : Kind.fieldOps ∈ F) (ktb : Kind.tb ∈ F) (kfiles : Kind.files ∈ F) (kaplic : Kind.aplic ∈ F) (kpaused : Kind.paused ∈ F) (kcsq : Kind.csq ∈ F) (kcaps : Kind.caps ∈ F) (kcapBusy : Kind.capBusy ∈ F) (h : Keeps F r s) (q : Fin 32) :
    ResKeeps F r (execYield q s) := by
  unfold execYield
  try lift_lets
  repeat' first
  | with_reducible assumption
  | with_reducible apply State.csqStep_keeps
  | with_reducible apply State.csqYield_keeps
  | with_reducible apply ResKeeps.next
  | (intro y)

theorem State.csqRange_keeps {F : List Kind} {r s : State} (kregs : Kind.regs ∈ F) (knewtIrq : Kind.newtIrq ∈ F) (kfieldOps : Kind.fieldOps ∈ F) (kpaused : Kind.paused ∈ F) (kcsq : Kind.csq ∈ F) (kcaps : Kind.caps ∈ F) (kcapBusy : Kind.capBusy ∈ F) (h : Keeps F r s) (q : Nat) (v : Nat) (f : State → State) (hf : ∀ x, Keeps F r x → Keeps F r (f x)) :
    Keeps F r (State.csqRange s q v f) := by
  unfold State.csqRange
  try lift_lets
  repeat' first
  | with_reducible assumption
  | with_reducible apply hf
  | with_reducible apply State.csqFault_keeps
  | with_reducible refine Keeps.ite ?_ ?_

theorem execWaitt_keeps {F : List Kind} {r s : State} (kregs : Kind.regs ∈ F) (kup : Kind.up ∈ F) (kresp : Kind.resp ∈ F) (knewtIrq : Kind.newtIrq ∈ F) (kfieldOps : Kind.fieldOps ∈ F) (ktb : Kind.tb ∈ F) (kfiles : Kind.files ∈ F) (kaplic : Kind.aplic ∈ F) (kpaused : Kind.paused ∈ F) (kcsq : Kind.csq ∈ F) (kcaps : Kind.caps ∈ F) (kcapBusy : Kind.capBusy ∈ F) (h : Keeps F r s) (q : Fin 32) :
    ResKeeps F r (execWaitt q s) := by
  unfold execWaitt
  try lift_lets
  repeat' first
  | with_reducible assumption
  | (refine Or.inr ?_; (repeat with_reducible apply Nat.le_add_right_of_le); first | decide | omega)
  | with_reducible apply State.csqStep_keeps
  | with_reducible apply State.csqRange_keeps
  | with_reducible apply State.csqWait_keeps
  | with_reducible apply State.csqEnd_keeps
  | with_reducible apply State.csqCount_keeps
  | with_reducible apply State.csqEvent_keeps
  | with_reducible apply State.inc_keeps
  | with_reducible apply State.setZ_keeps
  | with_reducible apply ResKeeps.next
  | with_reducible refine Keeps.ite ?_ ?_
  | (intro y)

theorem execWaittFire_keeps {F : List Kind} {r s : State} (kregs : Kind.regs ∈ F) (kup : Kind.up ∈ F) (kresp : Kind.resp ∈ F) (knewtIrq : Kind.newtIrq ∈ F) (kfieldOps : Kind.fieldOps ∈ F) (ktb : Kind.tb ∈ F) (kfiles : Kind.files ∈ F) (kaplic : Kind.aplic ∈ F) (kpaused : Kind.paused ∈ F) (kcsq : Kind.csq ∈ F) (kcaps : Kind.caps ∈ F) (kcapBusy : Kind.capBusy ∈ F) (h : Keeps F r s) (q : Fin 32) :
    ResKeeps F r (execWaittFire q s) := by
  unfold execWaittFire
  try lift_lets
  repeat' first
  | with_reducible assumption
  | with_reducible apply State.csqEnd_keeps
  | with_reducible apply State.elapseToOffset_keeps
  | with_reducible apply State.setZ_keeps
  | with_reducible apply ResKeeps.next
  | split
  | (intro y)

theorem execWaite_keeps {F : List Kind} {r s : State} (kregs : Kind.regs ∈ F) (kup : Kind.up ∈ F) (kresp : Kind.resp ∈ F) (knewtIrq : Kind.newtIrq ∈ F) (kfieldOps : Kind.fieldOps ∈ F) (ktb : Kind.tb ∈ F) (kfiles : Kind.files ∈ F) (kaplic : Kind.aplic ∈ F) (kpaused : Kind.paused ∈ F) (kcsq : Kind.csq ∈ F) (kcaps : Kind.caps ∈ F) (kcapBusy : Kind.capBusy ∈ F) (h : Keeps F r s) (q : Fin 32) :
    ResKeeps F r (execWaite q s) := by
  unfold execWaite
  try lift_lets
  repeat' first
  | with_reducible assumption
  | with_reducible apply State.csqStep_keeps
  | with_reducible apply State.csqRange_keeps
  | with_reducible apply State.csqWait_keeps
  | with_reducible apply ResKeeps.next
  | (intro y)

theorem execWaiteEnd_keeps {F : List Kind} {r s : State} (kregs : Kind.regs ∈ F) (kup : Kind.up ∈ F) (kresp : Kind.resp ∈ F) (knewtIrq : Kind.newtIrq ∈ F) (kfieldOps : Kind.fieldOps ∈ F) (ktb : Kind.tb ∈ F) (kfiles : Kind.files ∈ F) (kaplic : Kind.aplic ∈ F) (kpaused : Kind.paused ∈ F) (kcsq : Kind.csq ∈ F) (kcaps : Kind.caps ∈ F) (kcapBusy : Kind.capBusy ∈ F) (h : Keeps F r s) (q : Fin 32) :
    ResKeeps F r (execWaiteEnd q s) := by
  unfold execWaiteEnd
  repeat' first
  | with_reducible assumption
  | (refine Or.inr ?_; (repeat with_reducible apply Nat.le_add_right_of_le); first | decide | omega)
  | with_reducible apply State.csqEnd_keeps
  | with_reducible apply State.when_keeps
  | with_reducible apply State.wr_keeps
  | with_reducible apply State.setZ_keeps
  | with_reducible apply State.setCreg_keeps
  | with_reducible apply State.elapseToOffset_keeps
  | with_reducible apply ResKeeps.next
  | with_reducible refine ResKeeps.ite ?_ ?_
  | split
  | (intro y)

theorem execChk_keeps {F : List Kind} {r s : State} (kregs : Kind.regs ∈ F) (kup : Kind.up ∈ F) (kresp : Kind.resp ∈ F) (knewtIrq : Kind.newtIrq ∈ F) (kfieldOps : Kind.fieldOps ∈ F) (ktb : Kind.tb ∈ F) (kfiles : Kind.files ∈ F) (kaplic : Kind.aplic ∈ F) (kpaused : Kind.paused ∈ F) (kcsq : Kind.csq ∈ F) (kcaps : Kind.caps ∈ F) (kcapBusy : Kind.capBusy ∈ F) (h : Keeps F r s) (q : Fin 32) :
    ResKeeps F r (execChk q s) := by
  unfold execChk
  try lift_lets
  repeat' first
  | with_reducible assumption
  | with_reducible apply State.csqStep_keeps
  | with_reducible apply State.csqRange_keeps
  | with_reducible apply State.csqEnd_keeps
  | with_reducible apply State.setE_keeps
  | with_reducible apply State.setZ_keeps
  | with_reducible apply State.setCreg_keeps
  | with_reducible apply State.csqWait_keeps
  | with_reducible apply ResKeeps.next
  | with_reducible refine Keeps.ite ?_ ?_
  | (intro y)

theorem State.chkMiss_keeps {F : List Kind} {r s : State} (kregs : Kind.regs ∈ F) (kresp : Kind.resp ∈ F) (knewtIrq : Kind.newtIrq ∈ F) (kfieldOps : Kind.fieldOps ∈ F) (kfiles : Kind.files ∈ F) (kaplic : Kind.aplic ∈ F) (kpaused : Kind.paused ∈ F) (kcaps : Kind.caps ∈ F) (kcapBusy : Kind.capBusy ∈ F) (h : Keeps F r s) (q : Nat) (a2 : Nat) (d : Nat) :
    Keeps F r (State.chkMiss s q a2 d) := by
  unfold State.chkMiss
  try lift_lets
  repeat' first
  | with_reducible assumption
  | (refine Or.inr ?_; (repeat with_reducible apply Nat.le_add_right_of_le); first | decide | omega)
  | with_reducible apply State.csqCount_keeps
  | with_reducible apply State.inc_keeps
  | with_reducible apply State.csqEvent_keeps
  | with_reducible apply State.put_keeps
  | with_reducible apply State.setE_keeps
  | with_reducible apply State.logRec_keeps

theorem execChkEnd_keeps {F : List Kind} {r s : State} (kregs : Kind.regs ∈ F) (kup : Kind.up ∈ F) (kresp : Kind.resp ∈ F) (knewtIrq : Kind.newtIrq ∈ F) (kfieldOps : Kind.fieldOps ∈ F) (ktb : Kind.tb ∈ F) (kfiles : Kind.files ∈ F) (kaplic : Kind.aplic ∈ F) (kpaused : Kind.paused ∈ F) (kcsq : Kind.csq ∈ F) (kcaps : Kind.caps ∈ F) (kcapBusy : Kind.capBusy ∈ F) (h : Keeps F r s) (q : Fin 32) :
    ResKeeps F r (execChkEnd q s) := by
  unfold execChkEnd
  repeat' first
  | with_reducible assumption
  | (refine Or.inr ?_; (repeat with_reducible apply Nat.le_add_right_of_le); first | decide | omega)
  | with_reducible apply State.elapseToOffset_keeps
  | with_reducible apply State.setCreg_keeps
  | with_reducible apply State.when_keeps
  | with_reducible apply State.clearBitOf_keeps
  | with_reducible apply State.setE_keeps
  | with_reducible apply State.setZ_keeps
  | with_reducible apply State.csqEnd_keeps
  | with_reducible apply State.chkMiss_keeps
  | with_reducible apply State.put_keeps
  | with_reducible apply State.setCsq_keeps
  | with_reducible apply State.dropWork_keeps
  | with_reducible apply ResKeeps.next
  | with_reducible refine ResKeeps.ite ?_ ?_
  | split
  | (intro y)

theorem execOverrunSkip_keeps {F : List Kind} {r s : State} (kregs : Kind.regs ∈ F) (kup : Kind.up ∈ F) (kresp : Kind.resp ∈ F) (knewtIrq : Kind.newtIrq ∈ F) (kfieldOps : Kind.fieldOps ∈ F) (ktb : Kind.tb ∈ F) (kfiles : Kind.files ∈ F) (kaplic : Kind.aplic ∈ F) (kpaused : Kind.paused ∈ F) (kcsq : Kind.csq ∈ F) (kcaps : Kind.caps ∈ F) (kcapBusy : Kind.capBusy ∈ F) (h : Keeps F r s) (q : Fin 32) :
    ResKeeps F r (execOverrunSkip q s) := by
  unfold execOverrunSkip
  repeat' first
  | with_reducible assumption
  | (refine Or.inr ?_; (repeat with_reducible apply Nat.le_add_right_of_le); first | decide | omega)
  | with_reducible apply State.dropWork_keeps
  | with_reducible apply State.elapseUntil_keeps
  | with_reducible apply State.csqFault_keeps
  | with_reducible apply State.when_keeps
  | with_reducible apply State.csqEccCorr_keeps
  | with_reducible apply State.csqYield_keeps
  | with_reducible apply State.put_keeps
  | with_reducible apply ResKeeps.next
  | split
  | lift_lets
  | (intro y)

theorem execSlotExpire_keeps {F : List Kind} {r s : State} (kregs : Kind.regs ∈ F) (h : Keeps F r s) (q : Fin 32) (slot : Fin 32) :
    ResKeeps F r (execSlotExpire q slot s) := by
  unfold execSlotExpire
  try lift_lets
  repeat' first
  | with_reducible assumption
  | (refine Or.inr ?_; (repeat with_reducible apply Nat.le_add_right_of_le); first | decide | omega)
  | with_reducible apply State.clearBitOf_keeps
  | with_reducible apply ResKeeps.next
  | with_reducible refine ResKeeps.ite ?_ ?_

theorem State.csqRefused_keeps {F : List Kind} {r s : State} (kregs : Kind.regs ∈ F) (knewtIrq : Kind.newtIrq ∈ F) (kfieldOps : Kind.fieldOps ∈ F) (kpaused : Kind.paused ∈ F) (kcaps : Kind.caps ∈ F) (kcapBusy : Kind.capBusy ∈ F) (h : Keeps F r s) (q : Nat) (reason : Nat) (aux : Nat) :
    Keeps F r (State.csqRefused s q reason aux) := by
  unfold State.csqRefused
  try lift_lets
  repeat' first
  | with_reducible assumption
  | (refine Or.inr ?_; (repeat with_reducible apply Nat.le_add_right_of_le); first | decide | omega)
  | with_reducible apply State.csqEvent_keeps
  | with_reducible apply State.setE_keeps
  | with_reducible apply State.setZ_keeps
  | with_reducible apply State.logRec_keeps
  | with_reducible apply State.inc_keeps

theorem execPost_keeps {F : List Kind} {r s : State} (kregs : Kind.regs ∈ F) (kup : Kind.up ∈ F) (kresp : Kind.resp ∈ F) (knewtIrq : Kind.newtIrq ∈ F) (kfieldOps : Kind.fieldOps ∈ F) (ktb : Kind.tb ∈ F) (kfiles : Kind.files ∈ F) (kaplic : Kind.aplic ∈ F) (kpaused : Kind.paused ∈ F) (kcsq : Kind.csq ∈ F) (kposts : Kind.posts ∈ F) (kcaps : Kind.caps ∈ F) (kcapBusy : Kind.capBusy ∈ F) (h : Keeps F r s) (q : Fin 32) :
    ResKeeps F r (execPost q s) := by
  unfold execPost
  try lift_lets
  repeat' first
  | with_reducible assumption
  | (with_reducible refine Keeps.upd ?_ rfl rfl rfl rfl rfl rfl rfl rfl ?_ ?_ ?_ ?_ ?_ ?_ ?_ ?_ ?_ ?_ ?_ ?_ ?_ ?_ ?_ ?_ ?_ ?_ ?_ ?_ ?_ ?_ ?_ ?_ ?_ ?_ ?_ ?_ ?_ ?_ ?_ ?_ ?_ ?_ ?_ ?_ ?_ ?_ ?_ ?_ ?_ ?_ ?_ ?_ ?_ ?_ ?_ ?_ ?_ ?_ ?_ ?_ ?_ ?_ ?_ ?_ ?_ ?_ ?_ ?_ ?_ ?_ ?_ <;> first | with_reducible assumption | with_reducible exact Or.inr rfl | with_reducible exact Or.inl (by assumption) | with_reducible apply State.csqStep_keeps | with_reducible apply State.csqEnd_keeps | with_reducible apply State.csqRefused_keeps | with_reducible apply State.setZ_keeps)
  | with_reducible apply ResKeeps.next
  | with_reducible refine Keeps.ite ?_ ?_
  | (intro y)

theorem execFlagDeliver_keeps {F : List Kind} {r s : State} (kregs : Kind.regs ∈ F) (kup : Kind.up ∈ F) (kresp : Kind.resp ∈ F) (knewtIrq : Kind.newtIrq ∈ F) (kfieldOps : Kind.fieldOps ∈ F) (ktb : Kind.tb ∈ F) (kfiles : Kind.files ∈ F) (kaplic : Kind.aplic ∈ F) (kpaused : Kind.paused ∈ F) (kposts : Kind.posts ∈ F) (kcaps : Kind.caps ∈ F) (kcapBusy : Kind.capBusy ∈ F) (h : Keeps F r s)  :
    ResKeeps F r (execFlagDeliver s) := by
  unfold execFlagDeliver
  try lift_lets
  repeat' first
  | with_reducible assumption
  | exact Or.inl (by with_reducible assumption)
  | (refine Or.inr ?_; (repeat with_reducible apply Nat.le_add_right_of_le); first | decide | omega)
  | with_reducible rfl
  | (with_reducible refine Keeps.upd ?_ rfl rfl rfl rfl rfl rfl rfl rfl ?_ ?_ ?_ ?_ ?_ ?_ ?_ ?_ ?_ ?_ ?_ ?_ ?_ ?_ ?_ ?_ ?_ ?_ ?_ ?_ ?_ ?_ ?_ ?_ ?_ ?_ ?_ ?_ ?_ ?_ ?_ ?_ ?_ ?_ ?_ ?_ ?_ ?_ ?_ ?_ ?_ ?_ ?_ ?_ ?_ ?_ ?_ ?_ ?_ ?_ ?_ ?_ ?_ ?_ ?_ ?_ ?_ ?_ ?_ ?_ ?_ ?_ ?_ <;> first | with_reducible assumption | with_reducible exact Or.inr rfl | with_reducible exact Or.inl (by assumption) | with_reducible apply State.elapseUntil_keeps | with_reducible apply State.raiseBits_keeps)
  | with_reducible apply State.elapseUntil_keeps
  | with_reducible apply State.raiseBits_keeps
  | with_reducible apply ResKeeps.next
  | with_reducible refine ResKeeps.ite ?_ ?_
  | with_reducible refine Keeps.ite ?_ ?_
  | with_reducible refine Keeps.elim ?_ ?_
  | split
  | (with_reducible intro y)
  | (lift_lets; with_reducible intro y)
  | simp only [id]
  | dsimp only

theorem execSync_keeps {F : List Kind} {r s : State} (kregs : Kind.regs ∈ F) (kup : Kind.up ∈ F) (kresp : Kind.resp ∈ F) (knewtIrq : Kind.newtIrq ∈ F) (kfieldOps : Kind.fieldOps ∈ F) (ktb : Kind.tb ∈ F) (kfiles : Kind.files ∈ F) (kaplic : Kind.aplic ∈ F) (kpaused : Kind.paused ∈ F) (kcsq : Kind.csq ∈ F) (kcaps : Kind.caps ∈ F) (kcapBusy : Kind.capBusy ∈ F) (h : Keeps F r s) (q : Fin 32) :
    ResKeeps F r (execSync q s) := by
  unfold execSync
  try lift_lets
  repeat' first
  | with_reducible assumption
  | with_reducible apply State.csqStep_keeps
  | with_reducible apply State.csqRange_keeps
  | with_reducible apply State.csqEnd_keeps
  | with_reducible apply State.setE_keeps
  | with_reducible apply State.setZ_keeps
  | with_reducible apply State.csqWait_keeps
  | with_reducible apply ResKeeps.next
  | with_reducible refine Keeps.ite ?_ ?_
  | (intro y)

theorem execSyncRelease_keeps {F : List Kind} {r s : State} (kregs : Kind.regs ∈ F) (knewtIrq : Kind.newtIrq ∈ F) (kfieldOps : Kind.fieldOps ∈ F) (kpaused : Kind.paused ∈ F) (kcsq : Kind.csq ∈ F) (kcaps : Kind.caps ∈ F) (kcapBusy : Kind.capBusy ∈ F) (h : Keeps F r s) (q : Fin 32) :
    ResKeeps F r (execSyncRelease q s) := by
  unfold execSyncRelease
  try lift_lets
  repeat' first
  | with_reducible assumption
  | with_reducible apply State.forAll_keeps
  | with_reducible apply State.csqEnd_keeps
  | with_reducible apply State.setZ_keeps
  | with_reducible apply ResKeeps.next
  | split
  | (intro y)

theorem execSyncDeadline_keeps {F : List Kind} {r s : State} (kregs : Kind.regs ∈ F) (kup : Kind.up ∈ F) (kresp : Kind.resp ∈ F) (knewtIrq : Kind.newtIrq ∈ F) (kfieldOps : Kind.fieldOps ∈ F) (ktb : Kind.tb ∈ F) (kfiles : Kind.files ∈ F) (kaplic : Kind.aplic ∈ F) (kpaused : Kind.paused ∈ F) (kcsq : Kind.csq ∈ F) (kcaps : Kind.caps ∈ F) (kcapBusy : Kind.capBusy ∈ F) (h : Keeps F r s) (q : Fin 32) :
    ResKeeps F r (execSyncDeadline q s) := by
  unfold execSyncDeadline
  try lift_lets
  repeat' first
  | with_reducible assumption
  | (refine Or.inr ?_; (repeat with_reducible apply Nat.le_add_right_of_le); first | decide | omega)
  | with_reducible apply State.csqEnd_keeps
  | with_reducible apply State.elapseToOffset_keeps
  | with_reducible apply State.csqEvent_keeps
  | with_reducible apply State.setE_keeps
  | with_reducible apply State.setZ_keeps
  | with_reducible apply ResKeeps.next
  | split
  | (intro y)

theorem State.traceWrite_keeps {F : List Kind} {r s : State} (kregs : Kind.regs ∈ F) (knewtIrq : Kind.newtIrq ∈ F) (kfieldOps : Kind.fieldOps ∈ F) (ktrace : Kind.trace ∈ F) (h : Keeps F r s) (q : Nat) (mark : Nat) (cs : Nat) :
    Keeps F r (State.traceWrite s q mark cs).1 := by
  unfold State.traceWrite
  try lift_lets
  repeat' first
  | with_reducible assumption
  | exact Or.inl (by with_reducible assumption)
  | (refine Or.inr ?_; (repeat with_reducible apply Nat.le_add_right_of_le); first | decide | omega)
  | with_reducible rfl
  | (with_reducible refine Keeps.upd ?_ rfl rfl rfl rfl rfl rfl rfl rfl ?_ ?_ ?_ ?_ ?_ ?_ ?_ ?_ ?_ ?_ ?_ ?_ ?_ ?_ ?_ ?_ ?_ ?_ ?_ ?_ ?_ ?_ ?_ ?_ ?_ ?_ ?_ ?_ ?_ ?_ ?_ ?_ ?_ ?_ ?_ ?_ ?_ ?_ ?_ ?_ ?_ ?_ ?_ ?_ ?_ ?_ ?_ ?_ ?_ ?_ ?_ ?_ ?_ ?_ ?_ ?_ ?_ ?_ ?_ ?_ ?_ ?_ ?_ <;> first | with_reducible assumption | with_reducible exact Or.inr rfl | with_reducible exact Or.inl (by assumption) | with_reducible apply State.inc_keeps | with_reducible apply State.crnEvent_keeps | with_reducible apply State.put_keeps)
  | with_reducible apply State.inc_keeps
  | with_reducible apply State.crnEvent_keeps
  | with_reducible apply State.put_keeps
  | with_reducible refine Keeps.ite ?_ ?_
  | with_reducible refine OptKeeps.get (by with_reducible assumption) ?_
  | with_reducible refine Keeps.elim ?_ ?_
  | with_reducible refine Keeps.foldl_fst ?_ _ _ ?_
  | with_reducible refine Keeps.foldl ?_ _ _ ?_
  | split
  | (with_reducible intro x; refine Keeps.cut (F := F) (r := r) (s := x) ?_ (fun hx => ?_); on_goal 2 => clear_value x)
  | (with_reducible intro x; refine Keeps.cut (F := F) (r := r) (s := x.1) ?_ (fun hx => ?_); on_goal 2 => clear_value x)
  | (with_reducible intro y)
  | (lift_lets; with_reducible intro x; refine Keeps.cut (F := F) (r := r) (s := x) ?_ (fun hx => ?_); on_goal 2 => clear_value x)
  | (lift_lets; with_reducible intro x; refine Keeps.cut (F := F) (r := r) (s := x.1) ?_ (fun hx => ?_); on_goal 2 => clear_value x)
  | (lift_lets; with_reducible intro y)
  | simp only [id]
  | dsimp only

theorem execCairn_keeps {F : List Kind} {r s : State} (kregs : Kind.regs ∈ F) (kup : Kind.up ∈ F) (kresp : Kind.resp ∈ F) (knewtIrq : Kind.newtIrq ∈ F) (kfieldOps : Kind.fieldOps ∈ F) (ktb : Kind.tb ∈ F) (kfiles : Kind.files ∈ F) (kaplic : Kind.aplic ∈ F) (kpaused : Kind.paused ∈ F) (kcsq : Kind.csq ∈ F) (kcaps : Kind.caps ∈ F) (kcapBusy : Kind.capBusy ∈ F) (ktrace : Kind.trace ∈ F) (h : Keeps F r s) (q : Fin 32) :
    ResKeeps F r (execCairn q s) := by
  unfold execCairn
  try lift_lets
  repeat' first
  | with_reducible assumption
  | with_reducible apply State.csqStep_keeps
  | with_reducible apply State.csqEnd_keeps
  | with_reducible apply State.csqRefused_keeps
  | with_reducible apply State.traceWrite_keeps
  | with_reducible apply State.setZ_keeps
  | with_reducible apply ResKeeps.next
  | with_reducible refine Keeps.ite ?_ ?_
  | (intro y)

theorem execFence_keeps {F : List Kind} {r s : State} (kregs : Kind.regs ∈ F) (kup : Kind.up ∈ F) (kresp : Kind.resp ∈ F) (knewtIrq : Kind.newtIrq ∈ F) (kfieldOps : Kind.fieldOps ∈ F) (ktb : Kind.tb ∈ F) (kfiles : Kind.files ∈ F) (kaplic : Kind.aplic ∈ F) (kpaused : Kind.paused ∈ F) (kcsq : Kind.csq ∈ F) (kcaps : Kind.caps ∈ F) (kcapBusy : Kind.capBusy ∈ F) (h : Keeps F r s) (q : Fin 32) :
    ResKeeps F r (execFence q s) := by
  unfold execFence
  try lift_lets
  repeat' first
  | with_reducible assumption
  | with_reducible apply State.csqStep_keeps
  | with_reducible apply State.csqWait_keeps
  | with_reducible apply ResKeeps.next
  | (intro y)

theorem execFenceEnd_keeps {F : List Kind} {r s : State} (kregs : Kind.regs ∈ F) (kup : Kind.up ∈ F) (kresp : Kind.resp ∈ F) (knewtIrq : Kind.newtIrq ∈ F) (kfieldOps : Kind.fieldOps ∈ F) (ktb : Kind.tb ∈ F) (kfiles : Kind.files ∈ F) (kaplic : Kind.aplic ∈ F) (kpaused : Kind.paused ∈ F) (kcsq : Kind.csq ∈ F) (kcaps : Kind.caps ∈ F) (kcapBusy : Kind.capBusy ∈ F) (h : Keeps F r s) (q : Fin 32) :
    ResKeeps F r (execFenceEnd q s) := by
  unfold execFenceEnd
  try lift_lets
  repeat' first
  | with_reducible assumption
  | with_reducible apply State.csqEnd_keeps
  | with_reducible apply State.elapseUntil_keeps
  | with_reducible apply ResKeeps.next
  | split
  | (intro y)
  | simp only [id]

theorem State.csqResume_keeps {F : List Kind} {r s : State} (kregs : Kind.regs ∈ F) (kcsq : Kind.csq ∈ F) (h : Keeps F r s) (q : Nat) (sw : Bool) (from_ : Nat) :
    Keeps F r (State.csqResume s q sw from_) := by
  unfold State.csqResume
  try lift_lets
  repeat' first
  | with_reducible assumption
  | exact Or.inl (by with_reducible assumption)
  | (refine Or.inr ?_; (repeat with_reducible apply Nat.le_add_right_of_le); first | decide | omega)
  | with_reducible rfl
  | with_reducible apply State.dropAsk_keeps
  | with_reducible apply State.put_keeps
  | with_reducible apply State.setCsq_keeps
  | with_reducible refine Keeps.ite ?_ ?_
  | with_reducible refine Keeps.elim ?_ ?_
  | split
  | (with_reducible intro y)
  | (lift_lets; with_reducible intro y)
  | simp only [id]
  | dsimp only

theorem State.frameOverrun_keeps {F : List Kind} {r s : State} (kregs : Kind.regs ∈ F) (knewtIrq : Kind.newtIrq ∈ F) (kfieldOps : Kind.fieldOps ∈ F) (kpaused : Kind.paused ∈ F) (kcsq : Kind.csq ∈ F) (kcaps : Kind.caps ∈ F) (kcapBusy : Kind.capBusy ∈ F) (h : Keeps F r s) (q : Nat) (sw : Bool) :
    Keeps F r (State.frameOverrun s q sw) := by
  unfold State.frameOverrun
  try lift_lets
  repeat' first
  | with_reducible assumption
  | (refine Or.inr ?_; (repeat with_reducible apply Nat.le_add_right_of_le); first | decide | omega)
  | with_reducible apply State.inc_keeps
  | with_reducible apply State.csqEvent_keeps
  | with_reducible apply State.put_keeps
  | with_reducible apply State.logRec_keeps
  | with_reducible apply State.csqEnd_keeps
  | with_reducible apply State.setE_keeps
  | with_reducible apply State.setZ_keeps
  | with_reducible apply State.csqResume_keeps
  | with_reducible apply State.dropWork_keeps
  | split
  | (intro y)

theorem State.csqTick_keeps {F : List Kind} {r s : State} (kregs : Kind.regs ∈ F) (knewtIrq : Kind.newtIrq ∈ F) (kfieldOps : Kind.fieldOps ∈ F) (kpaused : Kind.paused ∈ F) (kcsq : Kind.csq ∈ F) (kcaps : Kind.caps ∈ F) (kcapBusy : Kind.capBusy ∈ F) (h : Keeps F r s) (sw : Bool) (q : Nat) :
    Keeps F r (State.csqTick s sw q) := by
  unfold State.csqTick
  try lift_lets
  repeat' first
  | with_reducible assumption
  | (refine Or.inr ?_; (repeat with_reducible apply Nat.le_add_right_of_le); first | decide | omega)
  | with_reducible apply State.csqResume_keeps
  | with_reducible apply State.put_keeps
  | with_reducible apply State.inc_keeps
  | with_reducible apply State.frameOverrun_keeps
  | with_reducible refine Keeps.ite ?_ ?_

theorem State.slotsTick_keeps {F : List Kind} {r s : State} (kslots : Kind.slots ∈ F) (h : Keeps F r s) :
    Keeps F r (State.slotsTick s) := by
  unfold State.slotsTick
  try lift_lets
  repeat' first
  | with_reducible assumption
  | (with_reducible refine Keeps.upd ?_ rfl rfl rfl rfl rfl rfl rfl rfl ?_ ?_ ?_ ?_ ?_ ?_ ?_ ?_ ?_ ?_ ?_ ?_ ?_ ?_ ?_ ?_ ?_ ?_ ?_ ?_ ?_ ?_ ?_ ?_ ?_ ?_ ?_ ?_ ?_ ?_ ?_ ?_ ?_ ?_ ?_ ?_ ?_ ?_ ?_ ?_ ?_ ?_ ?_ ?_ ?_ ?_ ?_ ?_ ?_ ?_ ?_ ?_ ?_ ?_ ?_ ?_ ?_ ?_ ?_ ?_ ?_ ?_ ?_ <;> first | with_reducible assumption | with_reducible exact Or.inr rfl | with_reducible exact Or.inl (by assumption) | with_reducible apply State.forAll_keeps)
  | (intro y)

theorem State.csqTickLoss_keeps {F : List Kind} {r s : State} (kregs : Kind.regs ∈ F) (knewtIrq : Kind.newtIrq ∈ F) (kfieldOps : Kind.fieldOps ∈ F) (kcsq : Kind.csq ∈ F) (h : Keeps F r s) (q : Nat) :
    Keeps F r (State.csqTickLoss s q) := by
  unfold State.csqTickLoss
  try lift_lets
  repeat' first
  | with_reducible assumption
  | (refine Or.inr ?_; (repeat with_reducible apply Nat.le_add_right_of_le); first | decide | omega)
  | with_reducible apply State.put_keeps
  | with_reducible apply State.clearSlots_keeps
  | with_reducible apply State.dropWork_keeps
  | with_reducible apply State.csqEvent_keeps
  | with_reducible refine Keeps.ite ?_ ?_

theorem State.ticksFall_keeps {F : List Kind} {r s : State} (kregs : Kind.regs ∈ F) (knewtIrq : Kind.newtIrq ∈ F) (kfieldOps : Kind.fieldOps ∈ F) (kcsq : Kind.csq ∈ F) (ktbRegs : Kind.tbRegs ∈ F) (h : Keeps F r s) :
    Keeps F r (State.ticksFall s) := by
  unfold State.ticksFall
  try lift_lets
  repeat' first
  | with_reducible assumption
  | exact Or.inl (by with_reducible assumption)
  | with_reducible apply State.schedTickLoss_keeps
  | with_reducible apply State.put_keeps
  | with_reducible apply State.forAll_keeps
  | with_reducible apply State.csqTickLoss_keeps
  | with_reducible refine Keeps.ite ?_ ?_
  | (intro y)

theorem State.recordCompletion_keeps {F : List Kind} {r s : State} (kregs : Kind.regs ∈ F) (kfieldOps : Kind.fieldOps ∈ F) (kslots : Kind.slots ∈ F) (h : Keeps F r s) (l : Launch) (status : Nat) :
    Keeps F r (State.recordCompletion s l status) := by
  unfold State.recordCompletion
  try lift_lets
  repeat' first
  | with_reducible assumption
  | exact Or.inl (by with_reducible assumption)
  | (refine Or.inr ?_; (repeat with_reducible apply Nat.le_add_right_of_le); first | decide | omega)
  | with_reducible rfl
  | (with_reducible refine Keeps.upd ?_ rfl rfl rfl rfl rfl rfl rfl rfl ?_ ?_ ?_ ?_ ?_ ?_ ?_ ?_ ?_ ?_ ?_ ?_ ?_ ?_ ?_ ?_ ?_ ?_ ?_ ?_ ?_ ?_ ?_ ?_ ?_ ?_ ?_ ?_ ?_ ?_ ?_ ?_ ?_ ?_ ?_ ?_ ?_ ?_ ?_ ?_ ?_ ?_ ?_ ?_ ?_ ?_ ?_ ?_ ?_ ?_ ?_ ?_ ?_ ?_ ?_ ?_ ?_ ?_ ?_ ?_ ?_ ?_ ?_ <;> first | with_reducible assumption | with_reducible exact Or.inr rfl | with_reducible exact Or.inl (by assumption) | with_reducible apply State.setBitOf_keeps | with_reducible apply State.raise_keeps)
  | with_reducible apply State.setBitOf_keeps
  | with_reducible apply State.raise_keeps
  | with_reducible refine Keeps.ite ?_ ?_
  | with_reducible refine Keeps.elim ?_ ?_
  | split
  | (with_reducible intro y)
  | (lift_lets; with_reducible intro y)
  | simp only [id]
  | dsimp only

theorem State.endLaunch_keeps {F : List Kind} {r s : State} (klaunches : Kind.launches ∈ F) (h : Keeps F r s) (id : Nat) (status : Nat) :
    Keeps F r (State.endLaunch s id status) := by
  unfold State.endLaunch
  try lift_lets
  repeat' first
  | with_reducible assumption
  | with_reducible apply State.updateLaunch_keeps

theorem State.resetKeys_keeps {F : List Kind} {r s : State} (kregs : Kind.regs ∈ F) (kfieldOps : Kind.fieldOps ∈ F) (h : Keeps F r s) {lo : Nat}
    (tlo : Kind.tbRegs ∈ F ∨ 65536 ≤ lo) (hi : Nat) : Keeps F r (s.resetKeys lo hi) := by
  have h1 := h.dropKeys kregs (fun p => !(decide (lo ≤ p.1 ∧ p.1 < hi))) (tlo.imp id (fun t p hp => by
    simp only [Bool.not_eq_true', decide_eq_false_iff_not]; omega))
  unfold State.resetKeys
  generalize s.regs.filter (fun p => !(decide (lo ≤ p.1 ∧ p.1 < hi))) = m at h1 ⊢
  with_reducible refine Keeps.upd h1 rfl rfl rfl rfl rfl rfl rfl rfl ?_ ?_ ?_ ?_ ?_ ?_ ?_ ?_ ?_ ?_ ?_ ?_ ?_ ?_ ?_ ?_ ?_ ?_ ?_ ?_ ?_ ?_ ?_ ?_ ?_ ?_ ?_ ?_ ?_ ?_ ?_ ?_ ?_ ?_ ?_ ?_ ?_ ?_ ?_ ?_ ?_ ?_ ?_ ?_ ?_ ?_ ?_ ?_ ?_ ?_ ?_ ?_ ?_ ?_ ?_ ?_ ?_ ?_ ?_ ?_ ?_ ?_ ?_ <;> first | with_reducible exact Or.inr rfl | with_reducible exact Or.inl (by assumption)

theorem State.clearEcc_keeps {F : List Kind} {r s : State} (kecc : Kind.ecc ∈ F) (h : Keeps F r s) (lo : Nat) (hi : Nat) :
    Keeps F r (State.clearEcc s lo hi) := by
  unfold State.clearEcc
  try lift_lets
  repeat' first
  | with_reducible assumption
  | exact Or.inl (by with_reducible assumption)
  | (refine Or.inr ?_; (repeat with_reducible apply Nat.le_add_right_of_le); first | decide | omega)
  | with_reducible rfl
  | (with_reducible refine Keeps.upd ?_ rfl rfl rfl rfl rfl rfl rfl rfl ?_ ?_ ?_ ?_ ?_ ?_ ?_ ?_ ?_ ?_ ?_ ?_ ?_ ?_ ?_ ?_ ?_ ?_ ?_ ?_ ?_ ?_ ?_ ?_ ?_ ?_ ?_ ?_ ?_ ?_ ?_ ?_ ?_ ?_ ?_ ?_ ?_ ?_ ?_ ?_ ?_ ?_ ?_ ?_ ?_ ?_ ?_ ?_ ?_ ?_ ?_ ?_ ?_ ?_ ?_ ?_ ?_ ?_ ?_ ?_ ?_ ?_ ?_ <;> first | with_reducible assumption | with_reducible exact Or.inr rfl | with_reducible exact Or.inl (by assumption))
  | with_reducible refine Keeps.ite ?_ ?_
  | with_reducible refine Keeps.elim ?_ ?_
  | split
  | (with_reducible intro y)
  | (lift_lets; with_reducible intro y)
  | simp only [id]
  | dsimp only

theorem State.csqOwnerChange_keeps {F : List Kind} {r s : State} (kregs : Kind.regs ∈ F) (knewtIrq : Kind.newtIrq ∈ F) (kfieldOps : Kind.fieldOps ∈ F) (kcsq : Kind.csq ∈ F) (kecc : Kind.ecc ∈ F) (h : Keeps F r s) (q : Nat) :
    Keeps F r (State.csqOwnerChange s q) := by
  unfold State.csqOwnerChange
  try lift_lets
  repeat' first
  | with_reducible assumption
  | exact Or.inl (by with_reducible assumption)
  | (refine Or.inr ?_; (repeat with_reducible apply Nat.le_add_right_of_le); first | decide | omega)
  | with_reducible rfl
  | with_reducible apply State.dropWork_keeps
  | with_reducible apply State.clearSlots_keeps
  | with_reducible apply State.put_keeps
  | with_reducible apply State.wr_keeps
  | with_reducible apply State.resetKeys_keeps
  | with_reducible apply State.clearEcc_keeps
  | with_reducible apply State.csqEvent_keeps
  | with_reducible refine Keeps.ite ?_ ?_
  | with_reducible refine Keeps.elim ?_ ?_
  | split
  | (with_reducible intro y)
  | (lift_lets; with_reducible intro y)
  | simp only [id]
  | dsimp only

theorem State.csqStartNow_keeps {F : List Kind} {r s : State} (kregs : Kind.regs ∈ F) (kcsq : Kind.csq ∈ F) (h : Keeps F r s) (q : Nat) :
    Keeps F r (State.csqStartNow s q) := by
  unfold State.csqStartNow
  try lift_lets
  repeat' first
  | with_reducible assumption
  | (refine Or.inr ?_; (repeat with_reducible apply Nat.le_add_right_of_le); first | decide | omega)
  | with_reducible apply State.wr_keeps
  | with_reducible apply State.clearSlots_keeps
  | with_reducible apply State.dropWork_keeps
  | with_reducible apply State.put_keeps
  | with_reducible refine Keeps.ite ?_ ?_

theorem State.csqStopNow_keeps {F : List Kind} {r s : State} (kregs : Kind.regs ∈ F) (kcsq : Kind.csq ∈ F) (h : Keeps F r s) (q : Nat) :
    Keeps F r (State.csqStopNow s q) := by
  unfold State.csqStopNow
  try lift_lets
  repeat' first
  | with_reducible assumption
  | (refine Or.inr ?_; (repeat with_reducible apply Nat.le_add_right_of_le); first | decide | omega)
  | with_reducible apply State.put_keeps
  | with_reducible apply State.clearSlots_keeps
  | with_reducible apply State.dropWork_keeps

theorem State.writeCsqCtrl_keeps {F : List Kind} {r s : State} (kregs : Kind.regs ∈ F) (kresp : Kind.resp ∈ F) (knewtIrq : Kind.newtIrq ∈ F) (kfieldOps : Kind.fieldOps ∈ F) (kpaused : Kind.paused ∈ F) (kcsq : Kind.csq ∈ F) (kcaps : Kind.caps ∈ F) (kcapBusy : Kind.capBusy ∈ F) (h : Keeps F r s) (q : Nat) (c : Issuer) (v : Nat) :
    Keeps F r (State.writeCsqCtrl s q c v) := by
  unfold State.writeCsqCtrl
  try lift_lets
  repeat' first
  | with_reducible assumption
  | exact Or.inl (by with_reducible assumption)
  | (refine Or.inr ?_; (repeat with_reducible apply Nat.le_add_right_of_le); first | decide | omega)
  | with_reducible rfl
  | with_reducible apply State.when_keeps
  | with_reducible apply State.reservedEnc_keeps
  | with_reducible apply State.put_keeps
  | with_reducible apply State.ask_keeps
  | with_reducible apply State.csqStopNow_keeps
  | with_reducible apply State.csqStartNow_keeps
  | with_reducible refine Keeps.ite ?_ ?_
  | with_reducible refine OptKeeps.get (by with_reducible assumption) ?_
  | with_reducible refine Keeps.elim ?_ ?_
  | with_reducible refine Keeps.foldl_fst ?_ _ _ ?_
  | with_reducible refine Keeps.foldl ?_ _ _ ?_
  | split
  | (with_reducible intro x; refine Keeps.cut (F := F) (r := r) (s := x) ?_ (fun hx => ?_); on_goal 2 => clear_value x)
  | (with_reducible intro x; refine Keeps.cut (F := F) (r := r) (s := x.1) ?_ (fun hx => ?_); on_goal 2 => clear_value x)
  | (with_reducible intro y)
  | (lift_lets; with_reducible intro x; refine Keeps.cut (F := F) (r := r) (s := x) ?_ (fun hx => ?_); on_goal 2 => clear_value x)
  | (lift_lets; with_reducible intro x; refine Keeps.cut (F := F) (r := r) (s := x.1) ?_ (fun hx => ?_); on_goal 2 => clear_value x)
  | (lift_lets; with_reducible intro y)
  | simp only [id]
  | dsimp only

theorem State.csqGuard_keeps {F : List Kind} {r s : State} (kregs : Kind.regs ∈ F) (kresp : Kind.resp ∈ F) (knewtIrq : Kind.newtIrq ∈ F) (kfieldOps : Kind.fieldOps ∈ F) (kpaused : Kind.paused ∈ F) (kcaps : Kind.caps ∈ F) (kcapBusy : Kind.capBusy ∈ F) (h : Keeps F r s) (q : Nat) (c : Issuer) (key : Nat) (f : State → State) (hf : ∀ x, Keeps F r x → Keeps F r (f x)) :
    Keeps F r (State.csqGuard s q c key f) := by
  unfold State.csqGuard
  try lift_lets
  repeat' first
  | with_reducible assumption
  | with_reducible apply hf
  | with_reducible apply State.answer_keeps
  | with_reducible apply State.worldError_keeps
  | with_reducible refine Keeps.ite ?_ ?_

theorem State.writeImem_keeps {F : List Kind} {r s : State} (kregs : Kind.regs ∈ F) (kecc : Kind.ecc ∈ F) (h : Keeps F r s) (q : Nat) (a : Nat) (v : Nat) :
    Keeps F r (State.writeImem s q a v) := by
  unfold State.writeImem
  try lift_lets
  repeat' first
  | with_reducible assumption
  | (refine Or.inr ?_; (repeat with_reducible apply Nat.le_add_right_of_le); first | decide | omega)
  | (with_reducible refine Keeps.upd ?_ rfl rfl rfl rfl rfl rfl rfl rfl ?_ ?_ ?_ ?_ ?_ ?_ ?_ ?_ ?_ ?_ ?_ ?_ ?_ ?_ ?_ ?_ ?_ ?_ ?_ ?_ ?_ ?_ ?_ ?_ ?_ ?_ ?_ ?_ ?_ ?_ ?_ ?_ ?_ ?_ ?_ ?_ ?_ ?_ ?_ ?_ ?_ ?_ ?_ ?_ ?_ ?_ ?_ ?_ ?_ ?_ ?_ ?_ ?_ ?_ ?_ ?_ ?_ ?_ ?_ ?_ ?_ ?_ ?_ <;> first | with_reducible assumption | with_reducible exact Or.inr rfl | with_reducible exact Or.inl (by assumption) | with_reducible apply State.put_keeps)

theorem State.writeFlagSet_keeps {F : List Kind} {r s : State} (kregs : Kind.regs ∈ F) (kfieldOps : Kind.fieldOps ∈ F) (h : Keeps F r s) (q : Nat) (v : Nat) :
    Keeps F r (State.writeFlagSet s q v) := by
  unfold State.writeFlagSet
  try lift_lets
  repeat' first
  | with_reducible assumption
  | exact Or.inl (by with_reducible assumption)
  | (refine Or.inr ?_; (repeat with_reducible apply Nat.le_add_right_of_le); first | decide | omega)
  | with_reducible rfl
  | with_reducible apply State.raiseBits_keeps
  | with_reducible apply State.when_keeps
  | with_reducible apply State.raise_keeps
  | with_reducible refine Keeps.ite ?_ ?_
  | with_reducible refine Keeps.elim ?_ ?_
  | split
  | (with_reducible intro y)
  | (lift_lets; with_reducible intro y)
  | simp only [id]
  | dsimp only

theorem execCsqStart_keeps {F : List Kind} {r s : State} (kregs : Kind.regs ∈ F) (kresp : Kind.resp ∈ F) (knewtIrq : Kind.newtIrq ∈ F) (kfieldOps : Kind.fieldOps ∈ F) (kpaused : Kind.paused ∈ F) (kcsq : Kind.csq ∈ F) (kcaps : Kind.caps ∈ F) (kcapBusy : Kind.capBusy ∈ F) (h : Keeps F r s) (c : Issuer) (q : Fin 32) (v : Word) :
    ResKeeps F r (execCsqStart c q v s) := by
  unfold execCsqStart
  try lift_lets
  repeat' first
  | with_reducible assumption
  | exact Or.inl (by with_reducible assumption)
  | (refine Or.inr ?_; (repeat with_reducible apply Nat.le_add_right_of_le); first | decide | omega)
  | with_reducible rfl
  | with_reducible apply State.issue_keeps
  | with_reducible apply State.csqGuard_keeps
  | with_reducible apply State.writeCsqCtrl_keeps
  | with_reducible apply ResKeeps.next
  | with_reducible refine ResKeeps.ite ?_ ?_
  | with_reducible refine Keeps.ite ?_ ?_
  | with_reducible refine OptKeeps.get (by with_reducible assumption) ?_
  | with_reducible refine Keeps.elim ?_ ?_
  | with_reducible refine Keeps.foldl_fst ?_ _ _ ?_
  | with_reducible refine Keeps.foldl ?_ _ _ ?_
  | split
  | (with_reducible intro x; refine Keeps.cut (F := F) (r := r) (s := x) ?_ (fun hx => ?_); on_goal 2 => clear_value x)
  | (with_reducible intro x; refine Keeps.cut (F := F) (r := r) (s := x.1) ?_ (fun hx => ?_); on_goal 2 => clear_value x)
  | (with_reducible intro y)
  | (lift_lets; with_reducible intro x; refine Keeps.cut (F := F) (r := r) (s := x) ?_ (fun hx => ?_); on_goal 2 => clear_value x)
  | (lift_lets; with_reducible intro x; refine Keeps.cut (F := F) (r := r) (s := x.1) ?_ (fun hx => ?_); on_goal 2 => clear_value x)
  | (lift_lets; with_reducible intro y)
  | simp only [id]
  | dsimp only

theorem execCsqStop_keeps {F : List Kind} {r s : State} (kregs : Kind.regs ∈ F) (kresp : Kind.resp ∈ F) (knewtIrq : Kind.newtIrq ∈ F) (kfieldOps : Kind.fieldOps ∈ F) (kpaused : Kind.paused ∈ F) (kcsq : Kind.csq ∈ F) (kcaps : Kind.caps ∈ F) (kcapBusy : Kind.capBusy ∈ F) (h : Keeps F r s) (c : Issuer) (q : Fin 32) (v : Word) :
    ResKeeps F r (execCsqStop c q v s) := by
  unfold execCsqStop
  try lift_lets
  repeat' first
  | with_reducible assumption
  | exact Or.inl (by with_reducible assumption)
  | (refine Or.inr ?_; (repeat with_reducible apply Nat.le_add_right_of_le); first | decide | omega)
  | with_reducible rfl
  | with_reducible apply State.issue_keeps
  | with_reducible apply State.csqGuard_keeps
  | with_reducible apply State.writeCsqCtrl_keeps
  | with_reducible apply ResKeeps.next
  | with_reducible refine ResKeeps.ite ?_ ?_
  | with_reducible refine Keeps.ite ?_ ?_
  | with_reducible refine OptKeeps.get (by with_reducible assumption) ?_
  | with_reducible refine Keeps.elim ?_ ?_
  | with_reducible refine Keeps.foldl_fst ?_ _ _ ?_
  | with_reducible refine Keeps.foldl ?_ _ _ ?_
  | split
  | (with_reducible intro x; refine Keeps.cut (F := F) (r := r) (s := x) ?_ (fun hx => ?_); on_goal 2 => clear_value x)
  | (with_reducible intro x; refine Keeps.cut (F := F) (r := r) (s := x.1) ?_ (fun hx => ?_); on_goal 2 => clear_value x)
  | (with_reducible intro y)
  | (lift_lets; with_reducible intro x; refine Keeps.cut (F := F) (r := r) (s := x) ?_ (fun hx => ?_); on_goal 2 => clear_value x)
  | (lift_lets; with_reducible intro x; refine Keeps.cut (F := F) (r := r) (s := x.1) ?_ (fun hx => ?_); on_goal 2 => clear_value x)
  | (lift_lets; with_reducible intro y)
  | simp only [id]
  | dsimp only

theorem execCsqImemWrite_keeps {F : List Kind} {r s : State} (kregs : Kind.regs ∈ F) (kresp : Kind.resp ∈ F) (knewtIrq : Kind.newtIrq ∈ F) (kfieldOps : Kind.fieldOps ∈ F) (kpaused : Kind.paused ∈ F) (kecc : Kind.ecc ∈ F) (kcaps : Kind.caps ∈ F) (kcapBusy : Kind.capBusy ∈ F) (h : Keeps F r s) (c : Issuer) (q : Fin 32) (a : Fin 2048) (v : Word) :
    ResKeeps F r (execCsqImemWrite c q a v s) := by
  unfold execCsqImemWrite
  try lift_lets
  repeat' first
  | with_reducible assumption
  | exact Or.inl (by with_reducible assumption)
  | (refine Or.inr ?_; (repeat with_reducible apply Nat.le_add_right_of_le); first | decide | omega)
  | with_reducible rfl
  | with_reducible apply State.issue_keeps
  | with_reducible apply State.csqGuard_keeps
  | with_reducible apply State.writeImem_keeps
  | with_reducible apply ResKeeps.next
  | with_reducible refine ResKeeps.ite ?_ ?_
  | with_reducible refine Keeps.ite ?_ ?_
  | with_reducible refine OptKeeps.get (by with_reducible assumption) ?_
  | with_reducible refine Keeps.elim ?_ ?_
  | with_reducible refine Keeps.foldl_fst ?_ _ _ ?_
  | with_reducible refine Keeps.foldl ?_ _ _ ?_
  | split
  | (with_reducible intro x; refine Keeps.cut (F := F) (r := r) (s := x) ?_ (fun hx => ?_); on_goal 2 => clear_value x)
  | (with_reducible intro x; refine Keeps.cut (F := F) (r := r) (s := x.1) ?_ (fun hx => ?_); on_goal 2 => clear_value x)
  | (with_reducible intro y)
  | (lift_lets; with_reducible intro x; refine Keeps.cut (F := F) (r := r) (s := x) ?_ (fun hx => ?_); on_goal 2 => clear_value x)
  | (lift_lets; with_reducible intro x; refine Keeps.cut (F := F) (r := r) (s := x.1) ?_ (fun hx => ?_); on_goal 2 => clear_value x)
  | (lift_lets; with_reducible intro y)
  | simp only [id]
  | dsimp only

theorem execCsqFlagSet_keeps {F : List Kind} {r s : State} (kregs : Kind.regs ∈ F) (kresp : Kind.resp ∈ F) (knewtIrq : Kind.newtIrq ∈ F) (kfieldOps : Kind.fieldOps ∈ F) (kpaused : Kind.paused ∈ F) (kcaps : Kind.caps ∈ F) (kcapBusy : Kind.capBusy ∈ F) (h : Keeps F r s) (c : Issuer) (q : Fin 32) (v : Word) :
    ResKeeps F r (execCsqFlagSet c q v s) := by
  unfold execCsqFlagSet
  try lift_lets
  repeat' first
  | with_reducible assumption
  | exact Or.inl (by with_reducible assumption)
  | (refine Or.inr ?_; (repeat with_reducible apply Nat.le_add_right_of_le); first | decide | omega)
  | with_reducible rfl
  | with_reducible apply State.issue_keeps
  | with_reducible apply State.csqGuard_keeps
  | with_reducible apply State.writeFlagSet_keeps
  | with_reducible apply ResKeeps.next
  | with_reducible refine ResKeeps.ite ?_ ?_
  | with_reducible refine Keeps.ite ?_ ?_
  | with_reducible refine OptKeeps.get (by with_reducible assumption) ?_
  | with_reducible refine Keeps.elim ?_ ?_
  | with_reducible refine Keeps.foldl_fst ?_ _ _ ?_
  | with_reducible refine Keeps.foldl ?_ _ _ ?_
  | split
  | (with_reducible intro x; refine Keeps.cut (F := F) (r := r) (s := x) ?_ (fun hx => ?_); on_goal 2 => clear_value x)
  | (with_reducible intro x; refine Keeps.cut (F := F) (r := r) (s := x.1) ?_ (fun hx => ?_); on_goal 2 => clear_value x)
  | (with_reducible intro y)
  | (lift_lets; with_reducible intro x; refine Keeps.cut (F := F) (r := r) (s := x) ?_ (fun hx => ?_); on_goal 2 => clear_value x)
  | (lift_lets; with_reducible intro x; refine Keeps.cut (F := F) (r := r) (s := x.1) ?_ (fun hx => ?_); on_goal 2 => clear_value x)
  | (lift_lets; with_reducible intro y)
  | simp only [id]
  | dsimp only

theorem State.writeCsq_keeps {F : List Kind} {r s : State} (kregs : Kind.regs ∈ F) (kresp : Kind.resp ∈ F) (knewtIrq : Kind.newtIrq ∈ F) (kfieldOps : Kind.fieldOps ∈ F) (kpaused : Kind.paused ∈ F) (kcsq : Kind.csq ∈ F) (kecc : Kind.ecc ∈ F) (kcaps : Kind.caps ∈ F) (kcapBusy : Kind.capBusy ∈ F) (h : Keeps F r s) (a1 : Reg) (q : Nat) (n : Nat) (c : Issuer) (full : Bool) (v : Nat) :
    OptKeeps F r (State.writeCsq s a1 q n c full v) := by
  unfold State.writeCsq
  try lift_lets
  repeat' first
  | with_reducible assumption
  | (refine Or.inr ?_; (repeat with_reducible apply Nat.le_add_right_of_le); first | decide | omega)
  | with_reducible apply State.schedValid_keeps
  | (with_reducible refine Keeps.upd ?_ rfl rfl rfl rfl rfl rfl rfl rfl ?_ ?_ ?_ ?_ ?_ ?_ ?_ ?_ ?_ ?_ ?_ ?_ ?_ ?_ ?_ ?_ ?_ ?_ ?_ ?_ ?_ ?_ ?_ ?_ ?_ ?_ ?_ ?_ ?_ ?_ ?_ ?_ ?_ ?_ ?_ ?_ ?_ ?_ ?_ ?_ ?_ ?_ ?_ ?_ ?_ ?_ ?_ ?_ ?_ ?_ ?_ ?_ ?_ ?_ ?_ ?_ ?_ ?_ ?_ ?_ ?_ ?_ ?_ <;> first | with_reducible assumption | with_reducible exact Or.inr rfl | with_reducible exact Or.inl (by assumption) | with_reducible apply State.writeCsqCtrl_keeps | with_reducible apply State.writeFlagSet_keeps | with_reducible apply State.writeImem_keeps | with_reducible apply State.violation_keeps | with_reducible apply State.put_keeps | with_reducible apply State.setCreg_keeps | with_reducible apply State.forbidden_keeps | with_reducible apply State.schedLevelsOf_keeps | with_reducible apply State.schedValid_keeps | with_reducible apply State.wr_keeps)
  | with_reducible apply OptKeeps.some
  | with_reducible apply OptKeeps.none
  | split

end Sys2Proof.Machine
end

