-- ==== Sys2Proof/Laws/KeepsCsr.lean ====
section
/-! SUPPORT. What the operations of Machine/Csr keep. -/

namespace Sys2Proof.Machine

theorem State.setMcycle_keeps {F : List Kind} {r s : State} (khart : Kind.hart ∈ F) (h : Keeps F r s) (a_h : Nat) (v : Nat) :
    Keeps F r (State.setMcycle s a_h v) := by
  unfold State.setMcycle
  try lift_lets
  repeat' first
  | with_reducible assumption
  | exact Or.inl (by with_reducible assumption)
  | (refine Or.inr ?_; (repeat with_reducible apply Nat.le_add_right_of_le); first | decide | omega)
  | with_reducible rfl
  | (with_reducible refine Keeps.upd ?_ rfl rfl rfl rfl rfl rfl rfl rfl ?_ ?_ ?_ ?_ ?_ ?_ ?_ ?_ ?_ ?_ ?_ ?_ ?_ ?_ ?_ ?_ ?_ ?_ ?_ ?_ ?_ ?_ ?_ ?_ ?_ ?_ ?_ ?_ ?_ ?_ ?_ ?_ ?_ ?_ ?_ ?_ ?_ ?_ ?_ ?_ ?_ ?_ ?_ ?_ ?_ ?_ ?_ ?_ ?_ ?_ ?_ ?_ ?_ ?_ ?_ ?_ ?_ ?_ ?_ ?_ ?_ ?_ ?_ <;> first | with_reducible assumption | with_reducible exact Or.inr rfl | with_reducible exact Or.inl (by assumption))
  | with_reducible refine Keeps.ite ?_ ?_
  | with_reducible refine OptKeeps.get (by with_reducible assumption) ?_
  | with_reducible refine Keeps.elim ?_ ?_
  | with_reducible refine Keeps.foldl_fst ?_ _ _ ?_
  | with_reducible refine Keeps.foldl ?_ _ _ ?_
  | split
  | (with_reducible intro y)
  | (lift_lets; with_reducible intro y)
  | simp only [id]
  | dsimp only

theorem State.setInhibit_keeps {F : List Kind} {r s : State} (khregs : Kind.hregs ∈ F) (khart : Kind.hart ∈ F) (h : Keeps F r s) (a_h : Nat) (v : Nat) :
    Keeps F r (State.setInhibit s a_h v) := by
  unfold State.setInhibit
  try lift_lets
  repeat' first
  | with_reducible assumption
  | exact Or.inl (by with_reducible assumption)
  | (refine Or.inr ?_; (repeat with_reducible apply Nat.le_add_right_of_le); first | decide | omega)
  | with_reducible rfl
  | with_reducible apply State.setMcycle_keeps
  | with_reducible apply State.forAll_keeps
  | with_reducible apply State.setCsr_keeps
  | with_reducible refine Keeps.ite ?_ ?_
  | with_reducible refine OptKeeps.get (by with_reducible assumption) ?_
  | with_reducible refine Keeps.elim ?_ ?_
  | with_reducible refine Keeps.foldl_fst ?_ _ _ ?_
  | with_reducible refine Keeps.foldl ?_ _ _ ?_
  | split
  | (with_reducible intro x; refine Keeps.cut (F := F) (r := r) (s := x) ?_ (fun hx => ?_); on_goal 2 => clear_value x)
  | (with_reducible intro x; refine Keeps.cut (F := F) (r := r) (s := x.1) ?_ (fun hx => ?_); on_goal 2 => clear_value x)
  | (with_reducible intro y)
  | (lift_lets; with_reducible intro x; refine Keeps.cut (F := F) (r := r) (s := x) ?_ (fun hx => ?_); on_goal 2 => clear_value x)
  | (lift_lets; with_reducible intro x; refine Keeps.cut (F := F) (r := r) (s := x.1) ?_ (fun hx => ?_); on_goal 2 => clear_value x)
  | (lift_lets; with_reducible intro y)
  | simp only [id]
  | dsimp only

theorem State.writeIndirect_keeps {F : List Kind} {r s : State} (kfiles : Kind.files ∈ F) (h : Keeps F r s) (a_h : Nat) (n : Nat) (v : Nat) :
    Keeps F r (State.writeIndirect s a_h n v) := by
  unfold State.writeIndirect
  try lift_lets
  repeat' first
  | with_reducible assumption
  | exact Or.inl (by with_reducible assumption)
  | (refine Or.inr ?_; (repeat with_reducible apply Nat.le_add_right_of_le); first | decide | omega)
  | with_reducible rfl
  | with_reducible apply State.setIntFile_keeps
  | with_reducible refine Keeps.ite ?_ ?_
  | with_reducible refine Keeps.elim ?_ ?_
  | with_reducible refine Keeps.foldl_fst ?_ _ _ ?_
  | with_reducible refine Keeps.foldl ?_ _ _ ?_
  | split
  | (with_reducible intro y)
  | (lift_lets; with_reducible intro y)
  | simp only [id]
  | dsimp only

theorem State.claimTop_keeps {F : List Kind} {r s : State} (kfiles : Kind.files ∈ F) (h : Keeps F r s) (a_h : Nat) (n : Nat) :
    Keeps F r (State.claimTop s a_h n) := by
  unfold State.claimTop
  try lift_lets
  repeat' first
  | with_reducible assumption
  | exact Or.inl (by with_reducible assumption)
  | (refine Or.inr ?_; (repeat with_reducible apply Nat.le_add_right_of_le); first | decide | omega)
  | with_reducible rfl
  | with_reducible apply State.setIntFile_keeps
  | with_reducible refine Keeps.ite ?_ ?_
  | with_reducible refine OptKeeps.get (by with_reducible assumption) ?_
  | with_reducible refine Keeps.elim ?_ ?_
  | with_reducible refine Keeps.foldl_fst ?_ _ _ ?_
  | with_reducible refine Keeps.foldl ?_ _ _ ?_
  | split
  | (with_reducible intro y)
  | (lift_lets; with_reducible intro y)
  | simp only [id]
  | dsimp only

theorem State.putMie_keeps {F : List Kind} {r s : State} (khregs : Kind.hregs ∈ F) (h : Keeps F r s) (a_h : Nat) (v : Nat) (mask : Nat) :
    Keeps F r (State.putMie s a_h v mask) := by
  unfold State.putMie
  try lift_lets
  repeat' first
  | with_reducible assumption
  | exact Or.inl (by with_reducible assumption)
  | (refine Or.inr ?_; (repeat with_reducible apply Nat.le_add_right_of_le); first | decide | omega)
  | with_reducible rfl
  | with_reducible apply State.setCsr_keeps
  | with_reducible refine Keeps.ite ?_ ?_
  | with_reducible refine OptKeeps.get (by with_reducible assumption) ?_
  | with_reducible refine Keeps.elim ?_ ?_
  | with_reducible refine Keeps.foldl_fst ?_ _ _ ?_
  | with_reducible refine Keeps.foldl ?_ _ _ ?_
  | split
  | (with_reducible intro y)
  | (lift_lets; with_reducible intro y)
  | simp only [id]
  | dsimp only

theorem State.putMip_keeps {F : List Kind} {r s : State} (khregs : Kind.hregs ∈ F) (h : Keeps F r s) (a_h : Nat) (v : Nat) (mask : Nat) :
    Keeps F r (State.putMip s a_h v mask) := by
  unfold State.putMip
  try lift_lets
  repeat' first
  | with_reducible assumption
  | exact Or.inl (by with_reducible assumption)
  | (refine Or.inr ?_; (repeat with_reducible apply Nat.le_add_right_of_le); first | decide | omega)
  | with_reducible rfl
  | with_reducible apply State.setCsr_keeps
  | with_reducible refine Keeps.ite ?_ ?_
  | with_reducible refine OptKeeps.get (by with_reducible assumption) ?_
  | with_reducible refine Keeps.elim ?_ ?_
  | with_reducible refine Keeps.foldl_fst ?_ _ _ ?_
  | with_reducible refine Keeps.foldl ?_ _ _ ?_
  | split
  | (with_reducible intro y)
  | (lift_lets; with_reducible intro y)
  | simp only [id]
  | dsimp only

theorem State.putHvip_keeps {F : List Kind} {r s : State} (khregs : Kind.hregs ∈ F) (h : Keeps F r s) (a_h : Nat) (v : Nat) (mask : Nat) :
    Keeps F r (State.putHvip s a_h v mask) := by
  unfold State.putHvip
  try lift_lets
  repeat' first
  | with_reducible assumption
  | exact Or.inl (by with_reducible assumption)
  | (refine Or.inr ?_; (repeat with_reducible apply Nat.le_add_right_of_le); first | decide | omega)
  | with_reducible rfl
  | with_reducible apply State.setCsr_keeps
  | with_reducible refine Keeps.ite ?_ ?_
  | with_reducible refine OptKeeps.get (by with_reducible assumption) ?_
  | with_reducible refine Keeps.elim ?_ ?_
  | with_reducible refine Keeps.foldl_fst ?_ _ _ ?_
  | with_reducible refine Keeps.foldl ?_ _ _ ?_
  | split
  | (with_reducible intro y)
  | (lift_lets; with_reducible intro y)
  | simp only [id]
  | dsimp only

theorem State.writeIntrCsr_keeps {F : List Kind} {r s : State} (khregs : Kind.hregs ∈ F) (h : Keeps F r s) (a_h : Nat) (n : Nat) (v : Nat) :
    OptKeeps F r (State.writeIntrCsr s a_h n v) := by
  unfold State.writeIntrCsr
  try lift_lets
  repeat' first
  | with_reducible assumption
  | exact Or.inl (by with_reducible assumption)
  | (refine Or.inr ?_; (repeat with_reducible apply Nat.le_add_right_of_le); first | decide | omega)
  | with_reducible rfl
  | with_reducible apply State.setCsr_keeps
  | with_reducible apply State.putMie_keeps
  | with_reducible apply State.putMip_keeps
  | with_reducible apply State.putHvip_keeps
  | with_reducible apply OptKeeps.some
  | with_reducible exact OptKeeps.none
  | with_reducible refine OptKeeps.ite ?_ ?_
  | with_reducible refine Keeps.ite ?_ ?_
  | with_reducible refine OptKeeps.get (by with_reducible assumption) ?_
  | with_reducible refine Keeps.elim ?_ ?_
  | with_reducible refine Keeps.foldl_fst ?_ _ _ ?_
  | with_reducible refine Keeps.foldl ?_ _ _ ?_
  | split
  | (with_reducible intro y)
  | (lift_lets; with_reducible intro y)
  | simp only [id]
  | dsimp only

theorem State.writeStdCsr_keeps {F : List Kind} {r s : State} (khregs : Kind.hregs ∈ F) (khart : Kind.hart ∈ F) (kfiles : Kind.files ∈ F) (h : Keeps F r s) (a_h : Nat) (n : Nat) (v : Nat) :
    Keeps F r (State.writeStdCsr s a_h n v) := by
  unfold State.writeStdCsr
  try lift_lets
  repeat' first
  | with_reducible assumption
  | exact Or.inl (by with_reducible assumption)
  | (refine Or.inr ?_; (repeat with_reducible apply Nat.le_add_right_of_le); first | decide | omega)
  | with_reducible rfl
  | with_reducible apply State.writeIndirect_keeps
  | with_reducible apply State.claimTop_keeps
  | with_reducible apply State.setMcycle_keeps
  | with_reducible apply State.setInhibit_keeps
  | with_reducible apply State.setCsr_keeps
  | with_reducible apply State.setHreg_keeps
  | with_reducible apply State.writeIntrCsr_keeps
  | with_reducible refine Keeps.ite ?_ ?_
  | with_reducible refine OptKeeps.get (by with_reducible assumption) ?_
  | with_reducible refine Keeps.elim ?_ ?_
  | with_reducible refine Keeps.foldl_fst ?_ _ _ ?_
  | with_reducible refine Keeps.foldl ?_ _ _ ?_
  | split
  | (with_reducible intro x; refine Keeps.cut (F := F) (r := r) (s := x) ?_ (fun hx => ?_); on_goal 2 => clear_value x)
  | (with_reducible intro x; refine Keeps.cut (F := F) (r := r) (s := x.1) ?_ (fun hx => ?_); on_goal 2 => clear_value x)
  | (with_reducible intro y)
  | (lift_lets; with_reducible intro x; refine Keeps.cut (F := F) (r := r) (s := x) ?_ (fun hx => ?_); on_goal 2 => clear_value x)
  | (lift_lets; with_reducible intro x; refine Keeps.cut (F := F) (r := r) (s := x.1) ?_ (fun hx => ?_); on_goal 2 => clear_value x)
  | (lift_lets; with_reducible intro y)
  | simp only [id]
  | dsimp only

end Sys2Proof.Machine
end

