-- ==== Sys2Proof/Laws/KeepsHarts.lean ====
section
/-! SUPPORT. What the operations of Machine/Harts.lean keep: the queue, the canonical forms, time, and every kind of state they do not name. -/

namespace Sys2Proof.Machine

set_option linter.unusedTactic false
set_option linter.unreachableTactic false
set_option linter.unusedVariables false

theorem execTimerCompare_keeps {F : List Kind} {r s : State} (kregs : Kind.regs ∈ F) (kup : Kind.up ∈ F) (kresp : Kind.resp ∈ F) (knewtIrq : Kind.newtIrq ∈ F) (kfieldOps : Kind.fieldOps ∈ F) (ktb : Kind.tb ∈ F) (kfiles : Kind.files ∈ F) (kaplic : Kind.aplic ∈ F) (kpaused : Kind.paused ∈ F) (kcaps : Kind.caps ∈ F) (kcapBusy : Kind.capBusy ∈ F) (h : Keeps F r s) (a_h : Fin 216) :
    ResKeeps F r (execTimerCompare a_h s) := by
  unfold execTimerCompare
  try lift_lets
  repeat' first
  | with_reducible assumption
  | exact Or.inl (by with_reducible assumption)
  | (refine Or.inr ?_; (repeat with_reducible apply Nat.le_add_right_of_le); first | decide | omega)
  | with_reducible rfl
  | with_reducible apply State.elapseToNs_keeps
  | with_reducible apply ResKeeps.next
  | with_reducible refine ResKeeps.ite ?_ ?_
  | with_reducible refine Keeps.ite ?_ ?_
  | with_reducible refine OptKeeps.get (by with_reducible assumption) ?_
  | with_reducible refine Keeps.elim ?_ ?_
  | with_reducible refine Keeps.foldl_fst ?_ _ _ ?_
  | with_reducible refine Keeps.foldl ?_ _ _ ?_
  | split
  | (with_reducible intro y)
  | (lift_lets; with_reducible intro y)
  | simp only [id]
  | dsimp only

theorem execInterruptWake_keeps {F : List Kind} {r s : State} (khart : Kind.hart ∈ F) (h : Keeps F r s) (a0 : Fin 216) :
    ResKeeps F r (execInterruptWake a0 s) := by
  unfold execInterruptWake
  try lift_lets
  repeat' first
  | with_reducible assumption
  | with_reducible apply State.setHart_keeps
  | with_reducible apply ResKeeps.next
  | with_reducible refine ResKeeps.ite ?_ ?_

theorem execInjectorLaunchWord_keeps {F : List Kind} {r s : State} (kregs : Kind.regs ∈ F) (kup : Kind.up ∈ F) (kresp : Kind.resp ∈ F) (kout : Kind.out ∈ F) (knewtIrq : Kind.newtIrq ∈ F) (kfieldOps : Kind.fieldOps ∈ F) (ktb : Kind.tb ∈ F) (kfiles : Kind.files ∈ F) (kaplic : Kind.aplic ∈ F) (kpaused : Kind.paused ∈ F) (klaunches : Kind.launches ∈ F) (kcaps : Kind.caps ∈ F) (kcapBusy : Kind.capBusy ∈ F) (h : Keeps F r s) (id : Nat) :
    ResKeeps F r (execInjectorLaunchWord id s) := by
  unfold execInjectorLaunchWord
  try lift_lets
  repeat' first
  | with_reducible assumption
  | exact Or.inl (by with_reducible assumption)
  | (refine Or.inr ?_; (repeat with_reducible apply Nat.le_add_right_of_le); first | decide | omega)
  | with_reducible rfl
  | with_reducible apply State.elapseUntil_keeps
  | with_reducible apply State.endLaunch_keeps
  | with_reducible apply State.send_keeps
  | with_reducible apply State.logRec_keeps
  | with_reducible apply State.recordId_keeps
  | with_reducible apply ResKeeps.next
  | with_reducible refine ResKeeps.ite ?_ ?_
  | with_reducible refine Keeps.ite ?_ ?_
  | with_reducible refine OptKeeps.get (by with_reducible assumption) ?_
  | with_reducible refine Keeps.elim ?_ ?_
  | with_reducible refine Keeps.foldl_fst ?_ _ _ ?_
  | with_reducible refine Keeps.foldl ?_ _ _ ?_
  | split
  | (with_reducible intro y)
  | (lift_lets; with_reducible intro y)
  | simp only [id]
  | dsimp only

theorem execLockstepMismatch_keeps {F : List Kind} {r s : State} (kregs : Kind.regs ∈ F) (kresp : Kind.resp ∈ F) (knewtIrq : Kind.newtIrq ∈ F) (kfieldOps : Kind.fieldOps ∈ F) (khart : Kind.hart ∈ F) (kfiles : Kind.files ∈ F) (kaplic : Kind.aplic ∈ F) (kpaused : Kind.paused ∈ F) (kcaps : Kind.caps ∈ F) (kcapBusy : Kind.capBusy ∈ F) (h : Keeps F r s) (die : Fin 12) (cl : Fin 9) (pc : Word) :
    ResKeeps F r (execLockstepMismatch die cl pc s) := by
  unfold execLockstepMismatch
  try lift_lets
  repeat' first
  | with_reducible assumption
  | exact Or.inl (by with_reducible assumption)
  | (refine Or.inr ?_; (repeat with_reducible apply Nat.le_add_right_of_le); first | decide | omega)
  | with_reducible rfl
  | with_reducible apply State.setHart_keeps
  | with_reducible apply State.raise_keeps
  | with_reducible apply State.logRec_keeps
  | with_reducible apply State.aplicLine_keeps
  | with_reducible apply State.capture_keeps
  | with_reducible apply ResKeeps.next
  | with_reducible refine ResKeeps.ite ?_ ?_
  | with_reducible refine Keeps.ite ?_ ?_
  | with_reducible refine OptKeeps.get (by with_reducible assumption) ?_
  | with_reducible refine Keeps.elim ?_ ?_
  | with_reducible refine Keeps.foldl_fst ?_ _ _ ?_
  | with_reducible refine Keeps.foldl ?_ _ _ ?_
  | split
  | (with_reducible intro y)
  | (lift_lets; with_reducible intro y)
  | simp only [id]
  | dsimp only

theorem sampleEnd_le (i r : Nat) : ∀ k e f, f ≤ (sampleEnd i r k e f).2
  | 0, _, _ => le_refl _
  | k + 1, e, f => by
    unfold sampleEnd
    split
    · exact le_refl _
    · exact le_trans (Nat.le_succ f) (sampleEnd_le i r k _ _)

theorem State.sampleTurn_keeps {F : List Kind} {r s : State} (kfree : Kind.free ∈ F) (khart : Kind.hart ∈ F) (h : Keeps F r s) (a_h : Nat) (a_r : Nat) :
    Keeps F r (State.sampleTurn s a_h a_r).1 := by
  unfold State.sampleTurn
  dsimp only
  split
  · exact State.setHart_keeps khart h _ _
  · exact State.setHart_keeps khart (h.useTo kfree (sampleEnd_le _ _ _ _ _)) _ _

theorem execSampleChosen_keeps {F : List Kind} {r s : State} (kregs : Kind.regs ∈ F) (khregs : Kind.hregs ∈ F) (kfree : Kind.free ∈ F) (khart : Kind.hart ∈ F) (h : Keeps F r s) (a_h : Fin 216) (a_r : Sample) :
    ResKeeps F r (execSampleChosen a_h a_r s) := by
  unfold execSampleChosen
  try lift_lets
  repeat' first
  | with_reducible assumption
  | exact Or.inl (by with_reducible assumption)
  | (refine Or.inr ?_; (repeat with_reducible apply Nat.le_add_right_of_le); first | decide | omega)
  | with_reducible rfl
  | with_reducible apply State.sampleTurn_keeps
  | with_reducible apply State.inc_keeps
  | with_reducible apply State.wr_keeps
  | with_reducible apply State.setCsr_keeps
  | with_reducible apply ResKeeps.next
  | with_reducible refine ResKeeps.ite ?_ ?_
  | with_reducible refine Keeps.ite ?_ ?_
  | with_reducible refine OptKeeps.get (by with_reducible assumption) ?_
  | with_reducible refine Keeps.elim ?_ ?_
  | with_reducible refine Keeps.foldl_fst ?_ _ _ ?_
  | with_reducible refine Keeps.foldl ?_ _ _ ?_
  | split
  | (with_reducible intro y)
  | (lift_lets; with_reducible intro y)
  | simp only [id]
  | dsimp only

theorem State.writeSkSmpCfg_keeps {F : List Kind} {r s : State} (kregs : Kind.regs ∈ F) (h : Keeps F r s) (a1 : Nat) (v : Nat) :
    Keeps F r (State.writeSkSmpCfg s a1 v) := by
  unfold State.writeSkSmpCfg
  try lift_lets
  repeat' first
  | with_reducible assumption
  | (refine Or.inr ?_; (repeat with_reducible apply Nat.le_add_right_of_le); first | decide | omega)
  | with_reducible apply State.put_keeps
  | with_reducible refine Keeps.ite ?_ ?_

theorem execSampleAck_keeps {F : List Kind} {r s : State} (kregs : Kind.regs ∈ F) (kresp : Kind.resp ∈ F) (h : Keeps F r s) (a_h : Fin 216) (v : Word) :
    ResKeeps F r (execSampleAck a_h v s) := by
  unfold execSampleAck
  try lift_lets
  repeat' first
  | with_reducible assumption
  | exact Or.inl (by with_reducible assumption)
  | (refine Or.inr ?_; (repeat with_reducible apply Nat.le_add_right_of_le); first | decide | omega)
  | with_reducible rfl
  | with_reducible apply State.writeSkSmpCfg_keeps
  | with_reducible apply State.answer_keeps
  | with_reducible apply ResKeeps.next
  | with_reducible refine ResKeeps.ite ?_ ?_
  | with_reducible refine Keeps.ite ?_ ?_
  | with_reducible refine OptKeeps.get (by with_reducible assumption) ?_
  | with_reducible refine Keeps.elim ?_ ?_
  | with_reducible refine Keeps.foldl_fst ?_ _ _ ?_
  | with_reducible refine Keeps.foldl ?_ _ _ ?_
  | split
  | (with_reducible intro y)
  | (lift_lets; with_reducible intro y)
  | simp only [id]
  | dsimp only

theorem State.writeCsr_keeps {F : List Kind} {r s : State} (kregs : Kind.regs ∈ F) (khregs : Kind.hregs ∈ F) (kresp : Kind.resp ∈ F) (khart : Kind.hart ∈ F) (kfiles : Kind.files ∈ F) (kgftag : Kind.gftag ∈ F) (h : Keeps F r s) (a_h : Nat) (n : Nat) (mode : PrivMode) (v : Nat) :
    Keeps F r (State.writeCsr s a_h n mode v) := by
  unfold State.writeCsr
  try lift_lets
  repeat' first
  | with_reducible assumption
  | exact Or.inl (by with_reducible assumption)
  | (refine Or.inr ?_; (repeat with_reducible apply Nat.le_add_right_of_le); first | decide | omega)
  | with_reducible rfl
  | (with_reducible refine Keeps.upd ?_ rfl rfl rfl rfl rfl rfl rfl rfl ?_ ?_ ?_ ?_ ?_ ?_ ?_ ?_ ?_ ?_ ?_ ?_ ?_ ?_ ?_ ?_ ?_ ?_ ?_ ?_ ?_ ?_ ?_ ?_ ?_ ?_ ?_ ?_ ?_ ?_ ?_ ?_ ?_ ?_ ?_ ?_ ?_ ?_ ?_ ?_ ?_ ?_ ?_ ?_ ?_ ?_ ?_ ?_ ?_ ?_ ?_ ?_ ?_ ?_ ?_ ?_ ?_ ?_ ?_ ?_ ?_ ?_ ?_ <;> first | with_reducible assumption | with_reducible exact Or.inr rfl | with_reducible exact Or.inl (by assumption) | with_reducible apply State.answer_keeps | with_reducible apply State.when_keeps | with_reducible apply State.put_keeps | with_reducible apply State.writeSkSmpCfg_keeps | with_reducible apply State.writeStdCsr_keeps)
  | with_reducible apply State.answer_keeps
  | with_reducible apply State.when_keeps
  | with_reducible apply State.put_keeps
  | with_reducible apply State.writeSkSmpCfg_keeps
  | with_reducible apply State.writeStdCsr_keeps
  | with_reducible refine Keeps.ite ?_ ?_
  | with_reducible refine OptKeeps.get (by with_reducible assumption) ?_
  | with_reducible refine Keeps.elim ?_ ?_
  | with_reducible refine Keeps.foldl_fst ?_ _ _ ?_
  | with_reducible refine Keeps.foldl ?_ _ _ ?_
  | split
  | (with_reducible intro y)
  | (lift_lets; with_reducible intro y)
  | simp only [id]
  | dsimp only

theorem execCaptureHartResume_keeps {F : List Kind} {r s : State} (kpaused : Kind.paused ∈ F) (h : Keeps F r s) (a0 : Fin 216) :
    ResKeeps F r (execCaptureHartResume a0 s) := by
  unfold execCaptureHartResume
  try lift_lets
  repeat' first
  | with_reducible assumption
  | (with_reducible refine Keeps.upd ?_ rfl rfl rfl rfl rfl rfl rfl rfl ?_ ?_ ?_ ?_ ?_ ?_ ?_ ?_ ?_ ?_ ?_ ?_ ?_ ?_ ?_ ?_ ?_ ?_ ?_ ?_ ?_ ?_ ?_ ?_ ?_ ?_ ?_ ?_ ?_ ?_ ?_ ?_ ?_ ?_ ?_ ?_ ?_ ?_ ?_ ?_ ?_ ?_ ?_ ?_ ?_ ?_ ?_ ?_ ?_ ?_ ?_ ?_ ?_ ?_ ?_ ?_ ?_ ?_ ?_ ?_ ?_ ?_ ?_ <;> first | with_reducible assumption | with_reducible exact Or.inr rfl | with_reducible exact Or.inl (by assumption))
  | with_reducible apply ResKeeps.next
  | with_reducible refine ResKeeps.ite ?_ ?_

end Sys2Proof.Machine
end

