-- ==== Sys2Proof/Laws/KeepsCaches.lean ====
section
/-! SUPPORT. What the operations of Machine/Caches.lean keep: the queue, the canonical forms, time, and every kind of state they do not name. -/

namespace Sys2Proof.Machine

set_option linter.unusedTactic false
set_option linter.unreachableTactic false
set_option linter.unusedVariables false

theorem State.setCline_keeps {F : List Kind} {r s : State} (kecc : Kind.ecc ∈ F) (kcache : Kind.cache ∈ F) (h : Keeps F r s) (d : Nat) (u : Nat) (set : Nat) (way : Nat) (x : CLine) :
    Keeps F r (State.setCline s d u set way x) := by
  unfold State.setCline
  try lift_lets
  repeat' first
  | with_reducible assumption
  | exact Or.inl (by with_reducible assumption)
  | (refine Or.inr ?_; (repeat with_reducible apply Nat.le_add_right_of_le); first | decide | omega)
  | with_reducible rfl
  | (with_reducible refine Keeps.upd ?_ rfl rfl rfl rfl rfl rfl rfl rfl ?_ ?_ ?_ ?_ ?_ ?_ ?_ ?_ ?_ ?_ ?_ ?_ ?_ ?_ ?_ ?_ ?_ ?_ ?_ ?_ ?_ ?_ ?_ ?_ ?_ ?_ ?_ ?_ ?_ ?_ ?_ ?_ ?_ ?_ ?_ ?_ ?_ ?_ ?_ ?_ ?_ ?_ ?_ ?_ ?_ ?_ ?_ ?_ ?_ ?_ ?_ ?_ ?_ ?_ ?_ ?_ ?_ ?_ ?_ ?_ ?_ ?_ ?_ <;> first | with_reducible assumption | with_reducible exact Or.inr rfl | with_reducible exact Or.inl (by assumption))
  | with_reducible refine Keeps.ite ?_ ?_
  | with_reducible refine OptKeeps.get (by with_reducible assumption) ?_
  | with_reducible refine Keeps.elim ?_ ?_
  | with_reducible refine Keeps.foldl_fst ?_ _ _ ?_
  | with_reducible refine Keeps.foldl ?_ _ _ ?_
  | split
  | (with_reducible intro y)
  | (lift_lets; with_reducible intro y)
  | simp only [id]
  | dsimp only

theorem State.changeCopy_keeps {F : List Kind} {r s : State} (kecc : Kind.ecc ∈ F) (kcache : Kind.cache ∈ F) (h : Keeps F r s) (d : Nat) (u : Nat) (l : Nat) (f : CLine → CLine) :
    Keeps F r (State.changeCopy s d u l f) := by
  unfold State.changeCopy
  try lift_lets
  repeat' first
  | with_reducible assumption
  | with_reducible apply State.setCline_keeps
  | split

theorem State.dropCopy_keeps {F : List Kind} {r s : State} (kecc : Kind.ecc ∈ F) (kcache : Kind.cache ∈ F) (h : Keeps F r s) (d : Nat) (u : Nat) (l : Nat) :
    Keeps F r (State.dropCopy s d u l) := by
  unfold State.dropCopy
  try lift_lets
  repeat' first
  | with_reducible assumption
  | with_reducible apply State.changeCopy_keeps

theorem State.dieCorrect_keeps {F : List Kind} {r s : State} (kregs : Kind.regs ∈ F) (knewtIrq : Kind.newtIrq ∈ F) (kfieldOps : Kind.fieldOps ∈ F) (kpaused : Kind.paused ∈ F) (kecc : Kind.ecc ∈ F) (kcaps : Kind.caps ∈ F) (kcapBusy : Kind.capBusy ∈ F) (h : Keeps F r s) (d : Nat) (l : Nat) :
    Keeps F r (State.dieCorrect s d l) := by
  unfold State.dieCorrect
  try lift_lets
  repeat' first
  | with_reducible assumption
  | exact Or.inl (by with_reducible assumption)
  | (refine Or.inr ?_; (repeat with_reducible apply Nat.le_add_right_of_le); first | decide | omega)
  | with_reducible rfl
  | with_reducible apply State.forAll_keeps
  | with_reducible apply State.dropEcc_keeps
  | with_reducible apply State.logRec_keeps
  | with_reducible refine Keeps.ite ?_ ?_
  | with_reducible refine OptKeeps.get (by with_reducible assumption) ?_
  | with_reducible refine Keeps.elim ?_ ?_
  | with_reducible refine Keeps.foldl_fst ?_ _ _ ?_
  | with_reducible refine Keeps.foldl ?_ _ _ ?_
  | split
  | (with_reducible intro x; refine Keeps.cut (F := F) (r := r) (s := x) ?_ (fun hx => ?_); on_goal 2 => clear_value x)
  | (with_reducible intro x; refine Keeps.cut (F := F) (r := r) (s := x.1) ?_ (fun hx => ?_); on_goal 2 => clear_value x)
  | (with_reducible intro y)
  | (lift_lets; with_reducible intro x; refine Keeps.cut (F := F) (r := r) (s := x) ?_ (fun hx => ?_); on_goal 2 => clear_value x)
  | (lift_lets; with_reducible intro x; refine Keeps.cut (F := F) (r := r) (s := x.1) ?_ (fun hx => ?_); on_goal 2 => clear_value x)
  | (lift_lets; with_reducible intro y)
  | simp only [id]
  | dsimp only

theorem State.dropBadL1_keeps {F : List Kind} {r s : State} (kregs : Kind.regs ∈ F) (knewtIrq : Kind.newtIrq ∈ F) (kfieldOps : Kind.fieldOps ∈ F) (kpaused : Kind.paused ∈ F) (kecc : Kind.ecc ∈ F) (kcache : Kind.cache ∈ F) (kcaps : Kind.caps ∈ F) (kcapBusy : Kind.capBusy ∈ F) (h : Keeps F r s) (d : Nat) (l : Nat) :
    Keeps F r (State.dropBadL1 s d l) := by
  unfold State.dropBadL1
  try lift_lets
  repeat' first
  | with_reducible assumption
  | exact Or.inl (by with_reducible assumption)
  | (refine Or.inr ?_; (repeat with_reducible apply Nat.le_add_right_of_le); first | decide | omega)
  | with_reducible rfl
  | (with_reducible refine Keeps.upd ?_ rfl rfl rfl rfl rfl rfl rfl rfl ?_ ?_ ?_ ?_ ?_ ?_ ?_ ?_ ?_ ?_ ?_ ?_ ?_ ?_ ?_ ?_ ?_ ?_ ?_ ?_ ?_ ?_ ?_ ?_ ?_ ?_ ?_ ?_ ?_ ?_ ?_ ?_ ?_ ?_ ?_ ?_ ?_ ?_ ?_ ?_ ?_ ?_ ?_ ?_ ?_ ?_ ?_ ?_ ?_ ?_ ?_ ?_ ?_ ?_ ?_ ?_ ?_ ?_ ?_ ?_ ?_ ?_ ?_ <;> first | with_reducible assumption | with_reducible exact Or.inr rfl | with_reducible exact Or.inl (by assumption) | with_reducible apply State.forAll_keeps | with_reducible apply State.logRec_keeps | with_reducible apply State.setCline_keeps | with_reducible apply State.when_keeps | with_reducible apply State.changeCopy_keeps)
  | with_reducible apply State.forAll_keeps
  | with_reducible apply State.logRec_keeps
  | with_reducible apply State.setCline_keeps
  | with_reducible apply State.when_keeps
  | with_reducible apply State.changeCopy_keeps
  | with_reducible refine Keeps.ite ?_ ?_
  | with_reducible refine OptKeeps.get (by with_reducible assumption) ?_
  | with_reducible refine Keeps.elim ?_ ?_
  | with_reducible refine Keeps.foldl_fst ?_ _ _ ?_
  | with_reducible refine Keeps.foldl ?_ _ _ ?_
  | split
  | (with_reducible intro x; refine Keeps.cut (F := F) (r := r) (s := x) ?_ (fun hx => ?_); on_goal 2 => clear_value x)
  | (with_reducible intro x; refine Keeps.cut (F := F) (r := r) (s := x.1) ?_ (fun hx => ?_); on_goal 2 => clear_value x)
  | (with_reducible intro y)
  | (lift_lets; with_reducible intro x; refine Keeps.cut (F := F) (r := r) (s := x) ?_ (fun hx => ?_); on_goal 2 => clear_value x)
  | (lift_lets; with_reducible intro x; refine Keeps.cut (F := F) (r := r) (s := x.1) ?_ (fun hx => ?_); on_goal 2 => clear_value x)
  | (lift_lets; with_reducible intro y)
  | simp only [id]
  | dsimp only

theorem State.dieLook_keeps {F : List Kind} {r s : State} (kregs : Kind.regs ∈ F) (knewtIrq : Kind.newtIrq ∈ F) (kfieldOps : Kind.fieldOps ∈ F) (kpaused : Kind.paused ∈ F) (kecc : Kind.ecc ∈ F) (kcache : Kind.cache ∈ F) (kcaps : Kind.caps ∈ F) (kcapBusy : Kind.capBusy ∈ F) (h : Keeps F r s) (d : Nat) (l : Nat) :
    Keeps F r (State.dieLook s d l) := by
  unfold State.dieLook
  try lift_lets
  repeat' first
  | with_reducible assumption
  | exact Or.inl (by with_reducible assumption)
  | (refine Or.inr ?_; (repeat with_reducible apply Nat.le_add_right_of_le); first | decide | omega)
  | with_reducible rfl
  | with_reducible apply State.dieCorrect_keeps
  | with_reducible apply State.dropBadL1_keeps
  | with_reducible refine Keeps.ite ?_ ?_
  | with_reducible refine OptKeeps.get (by with_reducible assumption) ?_
  | with_reducible refine Keeps.elim ?_ ?_
  | with_reducible refine Keeps.foldl_fst ?_ _ _ ?_
  | with_reducible refine Keeps.foldl ?_ _ _ ?_
  | split
  | (with_reducible intro x; refine Keeps.cut (F := F) (r := r) (s := x) ?_ (fun hx => ?_); on_goal 2 => clear_value x)
  | (with_reducible intro x; refine Keeps.cut (F := F) (r := r) (s := x.1) ?_ (fun hx => ?_); on_goal 2 => clear_value x)
  | (with_reducible intro y)
  | (lift_lets; with_reducible intro x; refine Keeps.cut (F := F) (r := r) (s := x) ?_ (fun hx => ?_); on_goal 2 => clear_value x)
  | (lift_lets; with_reducible intro x; refine Keeps.cut (F := F) (r := r) (s := x.1) ?_ (fun hx => ?_); on_goal 2 => clear_value x)
  | (lift_lets; with_reducible intro y)
  | simp only [id]
  | dsimp only

theorem State.touchWay_keeps {F : List Kind} {r s : State} (kplru : Kind.plru ∈ F) (h : Keeps F r s) (d : Nat) (u : Nat) (set : Nat) (w : Nat) :
    Keeps F r (State.touchWay s d u set w) := by
  unfold State.touchWay
  try lift_lets
  repeat' first
  | with_reducible assumption
  | (with_reducible refine Keeps.upd ?_ rfl rfl rfl rfl rfl rfl rfl rfl ?_ ?_ ?_ ?_ ?_ ?_ ?_ ?_ ?_ ?_ ?_ ?_ ?_ ?_ ?_ ?_ ?_ ?_ ?_ ?_ ?_ ?_ ?_ ?_ ?_ ?_ ?_ ?_ ?_ ?_ ?_ ?_ ?_ ?_ ?_ ?_ ?_ ?_ ?_ ?_ ?_ ?_ ?_ ?_ ?_ ?_ ?_ ?_ ?_ ?_ ?_ ?_ ?_ ?_ ?_ ?_ ?_ ?_ ?_ ?_ ?_ ?_ ?_ <;> first | with_reducible assumption | with_reducible exact Or.inr rfl | with_reducible exact Or.inl (by assumption))

theorem State.hit_keeps {F : List Kind} {r s : State} (kplru : Kind.plru ∈ F) (h : Keeps F r s) (d : Nat) (u : Nat) (l : Nat) :
    Keeps F r (State.hit s d u l) := by
  unfold State.hit
  try lift_lets
  repeat' first
  | with_reducible assumption
  | with_reducible apply State.touchWay_keeps
  | split

theorem State.setSliceTxn_keeps {F : List Kind} {r s : State} (kslices : Kind.slices ∈ F) (h : Keeps F r s) (d : Nat) (l : Nat) (a3 : SliceTxn) :
    Keeps F r (State.setSliceTxn s d l a3) := by
  unfold State.setSliceTxn
  try lift_lets
  repeat' first
  | with_reducible assumption
  | (with_reducible refine Keeps.upd ?_ rfl rfl rfl rfl rfl rfl rfl rfl ?_ ?_ ?_ ?_ ?_ ?_ ?_ ?_ ?_ ?_ ?_ ?_ ?_ ?_ ?_ ?_ ?_ ?_ ?_ ?_ ?_ ?_ ?_ ?_ ?_ ?_ ?_ ?_ ?_ ?_ ?_ ?_ ?_ ?_ ?_ ?_ ?_ ?_ ?_ ?_ ?_ ?_ ?_ ?_ ?_ ?_ ?_ ?_ ?_ ?_ ?_ ?_ ?_ ?_ ?_ ?_ ?_ ?_ ?_ ?_ ?_ ?_ ?_ <;> first | with_reducible assumption | with_reducible exact Or.inr rfl | with_reducible exact Or.inl (by assumption))

theorem State.l3Sync_keeps {F : List Kind} {r s : State} (kregs : Kind.regs ∈ F) (h : Keeps F r s) (d : Nat) (sl : Nat) :
    Keeps F r (State.l3Sync s d sl) := by
  unfold State.l3Sync
  try lift_lets
  repeat' first
  | with_reducible assumption
  | exact Or.inl (by with_reducible assumption)
  | (refine Or.inr ?_; (repeat with_reducible apply Nat.le_add_right_of_le); first | decide | omega)
  | with_reducible rfl
  | with_reducible apply State.put_keeps
  | with_reducible refine Keeps.ite ?_ ?_
  | with_reducible refine OptKeeps.get (by with_reducible assumption) ?_
  | with_reducible refine Keeps.elim ?_ ?_
  | with_reducible refine Keeps.foldl_fst ?_ _ _ ?_
  | with_reducible refine Keeps.foldl ?_ _ _ ?_
  | split
  | (with_reducible intro x; refine Keeps.cut (F := F) (r := r) (s := x) ?_ (fun hx => ?_); on_goal 2 => clear_value x)
  | (with_reducible intro x; refine Keeps.cut (F := F) (r := r) (s := x.1) ?_ (fun hx => ?_); on_goal 2 => clear_value x)
  | (with_reducible intro y)
  | (lift_lets; with_reducible intro x; refine Keeps.cut (F := F) (r := r) (s := x) ?_ (fun hx => ?_); on_goal 2 => clear_value x)
  | (lift_lets; with_reducible intro x; refine Keeps.cut (F := F) (r := r) (s := x.1) ?_ (fun hx => ?_); on_goal 2 => clear_value x)
  | (lift_lets; with_reducible intro y)
  | simp only [id]
  | dsimp only

theorem State.ownSync_keeps {F : List Kind} {r s : State} (kregs : Kind.regs ∈ F) (h : Keeps F r s) (a_r : Res) :
    Keeps F r (State.ownSync s a_r) := by
  unfold State.ownSync
  try lift_lets
  repeat' first
  | with_reducible assumption
  | exact Or.inl (by with_reducible assumption)
  | (refine Or.inr ?_; (repeat with_reducible apply Nat.le_add_right_of_le); first | decide | omega)
  | with_reducible rfl
  | with_reducible apply State.l3Sync_keeps
  | with_reducible refine Keeps.ite ?_ ?_
  | with_reducible refine OptKeeps.get (by with_reducible assumption) ?_
  | with_reducible refine Keeps.elim ?_ ?_
  | with_reducible refine Keeps.foldl_fst ?_ _ _ ?_
  | with_reducible refine Keeps.foldl ?_ _ _ ?_
  | split
  | (with_reducible intro y)
  | (lift_lets; with_reducible intro y)
  | simp only [id]
  | dsimp only

theorem State.collapse_keeps {F : List Kind} {r s : State} (kecc : Kind.ecc ∈ F) (kcache : Kind.cache ∈ F) (h : Keeps F r s) (d : Nat) (c : Nat) (l : Nat) :
    Keeps F r (State.collapse s d c l) := by
  unfold State.collapse
  try lift_lets
  repeat' first
  | with_reducible assumption
  | with_reducible apply State.forAll_keeps
  | with_reducible apply State.changeCopy_keeps
  | split
  | (intro y)

theorem State.dropCluster_keeps {F : List Kind} {r s : State} (kecc : Kind.ecc ∈ F) (kcache : Kind.cache ∈ F) (h : Keeps F r s) (d : Nat) (c : Nat) (l : Nat) :
    Keeps F r (State.dropCluster s d c l) := by
  unfold State.dropCluster
  try lift_lets
  repeat' first
  | with_reducible assumption
  | with_reducible apply State.dropCopy_keeps
  | with_reducible apply State.forAll_keeps
  | (intro y)

theorem State.collapseDie_keeps {F : List Kind} {r s : State} (kecc : Kind.ecc ∈ F) (kcache : Kind.cache ∈ F) (h : Keeps F r s) (d : Nat) (l : Nat) :
    Keeps F r (State.collapseDie s d l) := by
  unfold State.collapseDie
  try lift_lets
  repeat' first
  | with_reducible assumption
  | with_reducible apply State.forAll_keeps
  | with_reducible apply State.collapse_keeps
  | (intro y)

theorem State.dropDie_keeps {F : List Kind} {r s : State} (kecc : Kind.ecc ∈ F) (kcache : Kind.cache ∈ F) (h : Keeps F r s) (d : Nat) (l : Nat) :
    Keeps F r (State.dropDie s d l) := by
  unfold State.dropDie
  try lift_lets
  repeat' first
  | with_reducible assumption
  | with_reducible apply State.dropCopy_keeps
  | with_reducible apply State.forAll_keeps
  | with_reducible apply State.dropCluster_keeps
  | (intro y)

theorem State.cleanDie_keeps {F : List Kind} {r s : State} (kecc : Kind.ecc ∈ F) (kcache : Kind.cache ∈ F) (h : Keeps F r s) (d : Nat) (l : Nat) (keepE : Bool) :
    Keeps F r (State.cleanDie s d l keepE) := by
  unfold State.cleanDie
  try lift_lets
  repeat' first
  | with_reducible assumption
  | with_reducible apply State.collapseDie_keeps
  | with_reducible apply State.forAll_keeps
  | with_reducible apply State.changeCopy_keeps
  | (intro y)

theorem State.toHome_keeps {F : List Kind} {r s : State} (kout : Kind.out ∈ F) (h : Keeps F r s) (k : CohKind) (m : CohMsg) :
    Keeps F r (State.toHome s k m) := by
  unfold State.toHome
  try lift_lets
  repeat' first
  | with_reducible assumption
  | with_reducible apply State.send_keeps

theorem State.nextTxn_keeps {F : List Kind} {r s : State} (kwbTag : Kind.wbTag ∈ F) (h : Keeps F r s) (d : Nat) (sl : Nat) :
    Keeps F r (State.nextTxn s d sl).1 := by
  unfold State.nextTxn
  try lift_lets
  repeat' first
  | with_reducible assumption
  | exact Or.inl (by with_reducible assumption)
  | (refine Or.inr ?_; (repeat with_reducible apply Nat.le_add_right_of_le); first | decide | omega)
  | with_reducible rfl
  | (with_reducible refine Keeps.upd ?_ rfl rfl rfl rfl rfl rfl rfl rfl ?_ ?_ ?_ ?_ ?_ ?_ ?_ ?_ ?_ ?_ ?_ ?_ ?_ ?_ ?_ ?_ ?_ ?_ ?_ ?_ ?_ ?_ ?_ ?_ ?_ ?_ ?_ ?_ ?_ ?_ ?_ ?_ ?_ ?_ ?_ ?_ ?_ ?_ ?_ ?_ ?_ ?_ ?_ ?_ ?_ ?_ ?_ ?_ ?_ ?_ ?_ ?_ ?_ ?_ ?_ ?_ ?_ ?_ ?_ ?_ ?_ ?_ ?_ <;> first | with_reducible assumption | with_reducible exact Or.inr rfl | with_reducible exact Or.inl (by assumption))
  | with_reducible refine Keeps.ite ?_ ?_
  | with_reducible refine OptKeeps.get (by with_reducible assumption) ?_
  | with_reducible refine Keeps.elim ?_ ?_
  | with_reducible refine Keeps.foldl_fst ?_ _ _ ?_
  | with_reducible refine Keeps.foldl ?_ _ _ ?_
  | split
  | (with_reducible intro y)
  | (lift_lets; with_reducible intro y)
  | simp only [id]
  | dsimp only

theorem State.sliceWb_keeps {F : List Kind} {r s : State} (kout : Kind.out ∈ F) (kslices : Kind.slices ∈ F) (kwbTag : Kind.wbTag ∈ F) (h : Keeps F r s) (d : Nat) (l : Nat) (data : Bytes) (poison : Bool) (keep : Bool) (sealed : Bool) :
    Keeps F r (State.sliceWb s d l data poison keep sealed) := by
  unfold State.sliceWb
  try lift_lets
  repeat' first
  | with_reducible assumption
  | exact Or.inl (by with_reducible assumption)
  | (refine Or.inr ?_; (repeat with_reducible apply Nat.le_add_right_of_le); first | decide | omega)
  | with_reducible rfl
  | (with_reducible refine Keeps.upd ?_ rfl rfl rfl rfl rfl rfl rfl rfl ?_ ?_ ?_ ?_ ?_ ?_ ?_ ?_ ?_ ?_ ?_ ?_ ?_ ?_ ?_ ?_ ?_ ?_ ?_ ?_ ?_ ?_ ?_ ?_ ?_ ?_ ?_ ?_ ?_ ?_ ?_ ?_ ?_ ?_ ?_ ?_ ?_ ?_ ?_ ?_ ?_ ?_ ?_ ?_ ?_ ?_ ?_ ?_ ?_ ?_ ?_ ?_ ?_ ?_ ?_ ?_ ?_ ?_ ?_ ?_ ?_ ?_ ?_ <;> first | with_reducible assumption | with_reducible exact Or.inr rfl | with_reducible exact Or.inl (by assumption) | with_reducible apply State.setSliceTxn_keeps | with_reducible apply State.nextTxn_keeps | with_reducible apply State.toHome_keeps)
  | with_reducible apply State.setSliceTxn_keeps
  | with_reducible apply State.nextTxn_keeps
  | with_reducible apply State.toHome_keeps
  | with_reducible refine Keeps.ite ?_ ?_
  | with_reducible refine OptKeeps.get (by with_reducible assumption) ?_
  | with_reducible refine Keeps.elim ?_ ?_
  | with_reducible refine Keeps.foldl_fst ?_ _ _ ?_
  | with_reducible refine Keeps.foldl ?_ _ _ ?_
  | split
  | (with_reducible intro x; refine Keeps.cut (F := F) (r := r) (s := x) ?_ (fun hx => ?_); on_goal 2 => clear_value x)
  | (with_reducible intro x; refine Keeps.cut (F := F) (r := r) (s := x.1) ?_ (fun hx => ?_); on_goal 2 => clear_value x)
  | (with_reducible intro y)
  | (lift_lets; with_reducible intro x; refine Keeps.cut (F := F) (r := r) (s := x) ?_ (fun hx => ?_); on_goal 2 => clear_value x)
  | (lift_lets; with_reducible intro x; refine Keeps.cut (F := F) (r := r) (s := x.1) ?_ (fun hx => ?_); on_goal 2 => clear_value x)
  | (lift_lets; with_reducible intro y)
  | simp only [id]
  | dsimp only

theorem State.evictL3_keeps {F : List Kind} {r s : State} (kout : Kind.out ∈ F) (kecc : Kind.ecc ∈ F) (kcache : Kind.cache ∈ F) (kslices : Kind.slices ∈ F) (kwbTag : Kind.wbTag ∈ F) (h : Keeps F r s) (d : Nat) (sl : Nat) (set : Nat) (w : Nat) :
    Keeps F r (State.evictL3 s d sl set w) := by
  unfold State.evictL3
  try lift_lets
  repeat' first
  | with_reducible assumption
  | exact Or.inl (by with_reducible assumption)
  | (refine Or.inr ?_; (repeat with_reducible apply Nat.le_add_right_of_le); first | decide | omega)
  | with_reducible rfl
  | with_reducible apply State.setCline_keeps
  | with_reducible apply State.sliceWb_keeps
  | with_reducible refine Keeps.ite ?_ ?_
  | with_reducible refine OptKeeps.get (by with_reducible assumption) ?_
  | with_reducible refine Keeps.elim ?_ ?_
  | with_reducible refine Keeps.foldl_fst ?_ _ _ ?_
  | with_reducible refine Keeps.foldl ?_ _ _ ?_
  | split
  | (with_reducible intro x; refine Keeps.cut (F := F) (r := r) (s := x) ?_ (fun hx => ?_); on_goal 2 => clear_value x)
  | (with_reducible intro x; refine Keeps.cut (F := F) (r := r) (s := x.1) ?_ (fun hx => ?_); on_goal 2 => clear_value x)
  | (with_reducible intro y)
  | (lift_lets; with_reducible intro x; refine Keeps.cut (F := F) (r := r) (s := x) ?_ (fun hx => ?_); on_goal 2 => clear_value x)
  | (lift_lets; with_reducible intro x; refine Keeps.cut (F := F) (r := r) (s := x.1) ?_ (fun hx => ?_); on_goal 2 => clear_value x)
  | (lift_lets; with_reducible intro y)
  | simp only [id]
  | dsimp only

theorem State.fillL3_keeps {F : List Kind} {r s : State} (kout : Kind.out ∈ F) (kecc : Kind.ecc ∈ F) (kcache : Kind.cache ∈ F) (kplru : Kind.plru ∈ F) (kslices : Kind.slices ∈ F) (kwbTag : Kind.wbTag ∈ F) (h : Keeps F r s) (d : Nat) (l : Nat) (st : Nat) (data : Bytes) (poison : Bool) (sealed : Bool) :
    Keeps F r (State.fillL3 s d l st data poison sealed).1 := by
  unfold State.fillL3
  try lift_lets
  repeat' first
  | with_reducible assumption
  | exact Or.inl (by with_reducible assumption)
  | (refine Or.inr ?_; (repeat with_reducible apply Nat.le_add_right_of_le); first | decide | omega)
  | with_reducible rfl
  | with_reducible apply State.setCline_keeps
  | with_reducible apply State.touchWay_keeps
  | with_reducible apply State.evictL3_keeps
  | with_reducible refine Keeps.ite ?_ ?_
  | with_reducible refine OptKeeps.get (by with_reducible assumption) ?_
  | with_reducible refine Keeps.elim ?_ ?_
  | with_reducible refine Keeps.foldl_fst ?_ _ _ ?_
  | with_reducible refine Keeps.foldl ?_ _ _ ?_
  | split
  | (with_reducible intro x; refine Keeps.cut (F := F) (r := r) (s := x) ?_ (fun hx => ?_); on_goal 2 => clear_value x)
  | (with_reducible intro x; refine Keeps.cut (F := F) (r := r) (s := x.1) ?_ (fun hx => ?_); on_goal 2 => clear_value x)
  | (with_reducible intro y)
  | (lift_lets; with_reducible intro x; refine Keeps.cut (F := F) (r := r) (s := x) ?_ (fun hx => ?_); on_goal 2 => clear_value x)
  | (lift_lets; with_reducible intro x; refine Keeps.cut (F := F) (r := r) (s := x.1) ?_ (fun hx => ?_); on_goal 2 => clear_value x)
  | (lift_lets; with_reducible intro y)
  | simp only [id]
  | dsimp only

theorem State.evictL2_keeps {F : List Kind} {r s : State} (kout : Kind.out ∈ F) (kecc : Kind.ecc ∈ F) (kcache : Kind.cache ∈ F) (kplru : Kind.plru ∈ F) (kslices : Kind.slices ∈ F) (kwbTag : Kind.wbTag ∈ F) (h : Keeps F r s) (d : Nat) (c : Nat) (set : Nat) (w : Nat) :
    Keeps F r (State.evictL2 s d c set w) := by
  unfold State.evictL2
  try lift_lets
  repeat' first
  | with_reducible assumption
  | exact Or.inl (by with_reducible assumption)
  | (refine Or.inr ?_; (repeat with_reducible apply Nat.le_add_right_of_le); first | decide | omega)
  | with_reducible rfl
  | with_reducible apply State.collapse_keeps
  | with_reducible apply State.dropCluster_keeps
  | with_reducible apply State.sliceWb_keeps
  | with_reducible apply State.fillL3_keeps
  | with_reducible refine Keeps.ite ?_ ?_
  | with_reducible refine OptKeeps.get (by with_reducible assumption) ?_
  | with_reducible refine Keeps.elim ?_ ?_
  | with_reducible refine Keeps.foldl_fst ?_ _ _ ?_
  | with_reducible refine Keeps.foldl ?_ _ _ ?_
  | split
  | (with_reducible intro x; refine Keeps.cut (F := F) (r := r) (s := x) ?_ (fun hx => ?_); on_goal 2 => clear_value x)
  | (with_reducible intro x; refine Keeps.cut (F := F) (r := r) (s := x.1) ?_ (fun hx => ?_); on_goal 2 => clear_value x)
  | (with_reducible intro y)
  | (lift_lets; with_reducible intro x; refine Keeps.cut (F := F) (r := r) (s := x) ?_ (fun hx => ?_); on_goal 2 => clear_value x)
  | (lift_lets; with_reducible intro x; refine Keeps.cut (F := F) (r := r) (s := x.1) ?_ (fun hx => ?_); on_goal 2 => clear_value x)
  | (lift_lets; with_reducible intro y)
  | simp only [id]
  | dsimp only

theorem State.fillL2_keeps {F : List Kind} {r s : State} (kout : Kind.out ∈ F) (kecc : Kind.ecc ∈ F) (kcache : Kind.cache ∈ F) (kplru : Kind.plru ∈ F) (kslices : Kind.slices ∈ F) (kwbTag : Kind.wbTag ∈ F) (h : Keeps F r s) (d : Nat) (c : Nat) (l : Nat) (st : Nat) (data : Bytes) (poison : Bool) :
    Keeps F r (State.fillL2 s d c l st data poison) := by
  unfold State.fillL2
  try lift_lets
  repeat' first
  | with_reducible assumption
  | exact Or.inl (by with_reducible assumption)
  | (refine Or.inr ?_; (repeat with_reducible apply Nat.le_add_right_of_le); first | decide | omega)
  | with_reducible rfl
  | with_reducible apply State.setCline_keeps
  | with_reducible apply State.touchWay_keeps
  | with_reducible apply State.evictL2_keeps
  | with_reducible refine Keeps.ite ?_ ?_
  | with_reducible refine OptKeeps.get (by with_reducible assumption) ?_
  | with_reducible refine Keeps.elim ?_ ?_
  | with_reducible refine Keeps.foldl_fst ?_ _ _ ?_
  | with_reducible refine Keeps.foldl ?_ _ _ ?_
  | split
  | (with_reducible intro x; refine Keeps.cut (F := F) (r := r) (s := x) ?_ (fun hx => ?_); on_goal 2 => clear_value x)
  | (with_reducible intro x; refine Keeps.cut (F := F) (r := r) (s := x.1) ?_ (fun hx => ?_); on_goal 2 => clear_value x)
  | (with_reducible intro y)
  | (lift_lets; with_reducible intro x; refine Keeps.cut (F := F) (r := r) (s := x) ?_ (fun hx => ?_); on_goal 2 => clear_value x)
  | (lift_lets; with_reducible intro x; refine Keeps.cut (F := F) (r := r) (s := x.1) ?_ (fun hx => ?_); on_goal 2 => clear_value x)
  | (lift_lets; with_reducible intro y)
  | simp only [id]
  | dsimp only

theorem State.fillL1_keeps {F : List Kind} {r s : State} (kecc : Kind.ecc ∈ F) (kcache : Kind.cache ∈ F) (kplru : Kind.plru ∈ F) (h : Keeps F r s) (d : Nat) (u : Nat) (l : Nat) (st : Nat) (data : Bytes) (poison : Bool) (pref : Bool) :
    Keeps F r (State.fillL1 s d u l st data poison pref) := by
  unfold State.fillL1
  try lift_lets
  repeat' first
  | with_reducible assumption
  | exact Or.inl (by with_reducible assumption)
  | (refine Or.inr ?_; (repeat with_reducible apply Nat.le_add_right_of_le); first | decide | omega)
  | with_reducible rfl
  | with_reducible apply State.setCline_keeps
  | with_reducible apply State.touchWay_keeps
  | with_reducible apply State.collapse_keeps
  | with_reducible refine Keeps.ite ?_ ?_
  | with_reducible refine OptKeeps.get (by with_reducible assumption) ?_
  | with_reducible refine Keeps.elim ?_ ?_
  | with_reducible refine Keeps.foldl_fst ?_ _ _ ?_
  | with_reducible refine Keeps.foldl ?_ _ _ ?_
  | split
  | (with_reducible intro x; refine Keeps.cut (F := F) (r := r) (s := x) ?_ (fun hx => ?_); on_goal 2 => clear_value x)
  | (with_reducible intro x; refine Keeps.cut (F := F) (r := r) (s := x.1) ?_ (fun hx => ?_); on_goal 2 => clear_value x)
  | (with_reducible intro y)
  | (lift_lets; with_reducible intro x; refine Keeps.cut (F := F) (r := r) (s := x) ?_ (fun hx => ?_); on_goal 2 => clear_value x)
  | (lift_lets; with_reducible intro x; refine Keeps.cut (F := F) (r := r) (s := x.1) ?_ (fun hx => ?_); on_goal 2 => clear_value x)
  | (lift_lets; with_reducible intro y)
  | simp only [id]
  | dsimp only

theorem State.clearStreams_keeps {F : List Kind} {r s : State} (kstreams : Kind.streams ∈ F) (h : Keeps F r s) (d : Nat) (u : Nat) :
    Keeps F r (State.clearStreams s d u) := by
  unfold State.clearStreams
  try lift_lets
  repeat' first
  | with_reducible assumption
  | (with_reducible refine Keeps.upd ?_ rfl rfl rfl rfl rfl rfl rfl rfl ?_ ?_ ?_ ?_ ?_ ?_ ?_ ?_ ?_ ?_ ?_ ?_ ?_ ?_ ?_ ?_ ?_ ?_ ?_ ?_ ?_ ?_ ?_ ?_ ?_ ?_ ?_ ?_ ?_ ?_ ?_ ?_ ?_ ?_ ?_ ?_ ?_ ?_ ?_ ?_ ?_ ?_ ?_ ?_ ?_ ?_ ?_ ?_ ?_ ?_ ?_ ?_ ?_ ?_ ?_ ?_ ?_ ?_ ?_ ?_ ?_ ?_ ?_ <;> first | with_reducible assumption | with_reducible exact Or.inr rfl | with_reducible exact Or.inl (by assumption))

theorem State.train_keeps {F : List Kind} {r s : State} (kstreams : Kind.streams ∈ F) (h : Keeps F r s) (d : Nat) (u : Nat) (key : Nat) (pos : Nat) (sealed : Bool) (a_h : Nat) :
    Keeps F r (State.train s d u key pos sealed a_h) := by
  unfold State.train
  try lift_lets
  repeat' first
  | with_reducible assumption
  | exact Or.inl (by with_reducible assumption)
  | (refine Or.inr ?_; (repeat with_reducible apply Nat.le_add_right_of_le); first | decide | omega)
  | with_reducible rfl
  | (with_reducible refine Keeps.upd ?_ rfl rfl rfl rfl rfl rfl rfl rfl ?_ ?_ ?_ ?_ ?_ ?_ ?_ ?_ ?_ ?_ ?_ ?_ ?_ ?_ ?_ ?_ ?_ ?_ ?_ ?_ ?_ ?_ ?_ ?_ ?_ ?_ ?_ ?_ ?_ ?_ ?_ ?_ ?_ ?_ ?_ ?_ ?_ ?_ ?_ ?_ ?_ ?_ ?_ ?_ ?_ ?_ ?_ ?_ ?_ ?_ ?_ ?_ ?_ ?_ ?_ ?_ ?_ ?_ ?_ ?_ ?_ ?_ ?_ <;> first | with_reducible assumption | with_reducible exact Or.inr rfl | with_reducible exact Or.inl (by assumption) | with_reducible apply State.forAll_keeps)
  | with_reducible apply State.forAll_keeps
  | with_reducible refine Keeps.ite ?_ ?_
  | with_reducible refine OptKeeps.get (by with_reducible assumption) ?_
  | with_reducible refine Keeps.elim ?_ ?_
  | with_reducible refine Keeps.foldl_fst ?_ _ _ ?_
  | with_reducible refine Keeps.foldl ?_ _ _ ?_
  | split
  | (with_reducible intro y)
  | (lift_lets; with_reducible intro y)
  | simp only [id]
  | dsimp only

theorem State.writePfctl_keeps {F : List Kind} {r s : State} (kregs : Kind.regs ∈ F) (kresp : Kind.resp ∈ F) (knewtIrq : Kind.newtIrq ∈ F) (kfieldOps : Kind.fieldOps ∈ F) (kpaused : Kind.paused ∈ F) (kstreams : Kind.streams ∈ F) (kcaps : Kind.caps ∈ F) (kcapBusy : Kind.capBusy ∈ F) (h : Keeps F r s) (d : Nat) (c : Issuer) (v : Nat) :
    Keeps F r (State.writePfctl s d c v) := by
  unfold State.writePfctl
  try lift_lets
  repeat' first
  | with_reducible assumption
  | exact Or.inl (by with_reducible assumption)
  | (refine Or.inr ?_; (repeat with_reducible apply Nat.le_add_right_of_le); first | decide | omega)
  | with_reducible rfl
  | with_reducible apply State.reservedEnc_keeps
  | with_reducible apply State.put_keeps
  | with_reducible apply State.forAll_keeps
  | with_reducible apply State.putBit_keeps
  | with_reducible apply State.clearStreams_keeps
  | with_reducible refine Keeps.ite ?_ ?_
  | with_reducible refine OptKeeps.get (by with_reducible assumption) ?_
  | with_reducible refine Keeps.elim ?_ ?_
  | with_reducible refine Keeps.foldl_fst ?_ _ _ ?_
  | with_reducible refine Keeps.foldl ?_ _ _ ?_
  | split
  | (with_reducible intro y)
  | (lift_lets; with_reducible intro y)
  | simp only [id]
  | dsimp only

theorem State.emptyCluster_keeps {F : List Kind} {r s : State} (kcache : Kind.cache ∈ F) (kstreams : Kind.streams ∈ F) (h : Keeps F r s) (d : Nat) (c : Nat) :
    Keeps F r (State.emptyCluster s d c) := by
  unfold State.emptyCluster
  try lift_lets
  repeat' first
  | with_reducible assumption
  | (with_reducible refine Keeps.upd ?_ rfl rfl rfl rfl rfl rfl rfl rfl ?_ ?_ ?_ ?_ ?_ ?_ ?_ ?_ ?_ ?_ ?_ ?_ ?_ ?_ ?_ ?_ ?_ ?_ ?_ ?_ ?_ ?_ ?_ ?_ ?_ ?_ ?_ ?_ ?_ ?_ ?_ ?_ ?_ ?_ ?_ ?_ ?_ ?_ ?_ ?_ ?_ ?_ ?_ ?_ ?_ ?_ ?_ ?_ ?_ ?_ ?_ ?_ ?_ ?_ ?_ ?_ ?_ ?_ ?_ ?_ ?_ ?_ ?_ <;> first | with_reducible assumption | with_reducible exact Or.inr rfl | with_reducible exact Or.inl (by assumption) | with_reducible apply State.clearStreams_keeps)

theorem State.writeWpol_keeps {F : List Kind} {r s : State} (kregs : Kind.regs ∈ F) (h : Keeps F r s) {k : Nat}
    (tk : Kind.tbRegs ∈ F ∨ 65536 ≤ k) (v : Nat) : Keeps F r (s.writeWpol k v) := State.wr_keeps kregs h tk _

end Sys2Proof.Machine
end

