-- ==== Sys2Proof/Laws/KeepsCoherence.lean ====
section
/-! SUPPORT. What the operations of Machine/Coherence.lean keep: the queue, the canonical forms, time, and every kind of state they do not name. -/

namespace Sys2Proof.Machine

set_option linter.unusedTactic false
set_option linter.unreachableTactic false
set_option linter.unusedVariables false

theorem State.haEvent_keeps {F : List Kind} {r s : State} (kregs : Kind.regs ∈ F) (knewtIrq : Kind.newtIrq ∈ F) (kfieldOps : Kind.fieldOps ∈ F) (h : Keeps F r s) (a1 : Nat) (l : Loc) (tl : Kind.tbRegs ∈ F ∨ 65536 ≤ l.key) :
    Keeps F r (State.haEvent s a1 l) := by
  unfold State.haEvent
  try lift_lets
  repeat' first
  | with_reducible assumption
  | with_reducible apply State.event_keeps

theorem State.fatalCapture_keeps {F : List Kind} {r s : State} (kregs : Kind.regs ∈ F) (kfieldOps : Kind.fieldOps ∈ F) (kpaused : Kind.paused ∈ F) (kcaps : Kind.caps ∈ F) (kcapBusy : Kind.capBusy ∈ F) (h : Keeps F r s)  :
    Keeps F r (State.fatalCapture s) := by
  unfold State.fatalCapture
  try lift_lets
  repeat' first
  | with_reducible assumption
  | exact Or.inl (by with_reducible assumption)
  | (refine Or.inr ?_; (repeat with_reducible apply Nat.le_add_right_of_le); first | decide | omega)
  | with_reducible rfl
  | (with_reducible refine Keeps.upd ?_ rfl rfl rfl rfl rfl rfl rfl rfl ?_ ?_ ?_ ?_ ?_ ?_ ?_ ?_ ?_ ?_ ?_ ?_ ?_ ?_ ?_ ?_ ?_ ?_ ?_ ?_ ?_ ?_ ?_ ?_ ?_ ?_ ?_ ?_ ?_ ?_ ?_ ?_ ?_ ?_ ?_ ?_ ?_ ?_ ?_ ?_ ?_ ?_ ?_ ?_ ?_ ?_ ?_ ?_ ?_ ?_ ?_ ?_ ?_ ?_ ?_ ?_ ?_ ?_ ?_ ?_ ?_ ?_ ?_ <;> first | with_reducible assumption | with_reducible exact Or.inr rfl | with_reducible exact Or.inl (by assumption) | with_reducible apply State.clearBitOf_keeps | with_reducible apply State.captureInto_keeps)
  | with_reducible apply State.clearBitOf_keeps
  | with_reducible apply State.captureInto_keeps
  | with_reducible refine Keeps.ite ?_ ?_
  | with_reducible refine OptKeeps.get (by with_reducible assumption) ?_
  | with_reducible refine Keeps.elim ?_ ?_
  | with_reducible refine Keeps.foldl_fst ?_ _ _ ?_
  | with_reducible refine Keeps.foldl ?_ _ _ ?_
  | split
  | (with_reducible intro x; refine Keeps.cut (F := F) (r := r) (s := x) ?_ (fun hx => ?_); on_goal 2 => clear_value x)
  | (with_reducible intro x; refine Keeps.cut (F := F) (r := r) (s := x.1) ?_ (fun hx => ?_); on_goal 2 => clear_value x)
  | (with_reducible intro y)
  | (lift_lets; with_reducible intro x; refine Keeps.cut (F := F) (r := r) (s := x) ?_ (fun hx => ?_); on_goal 2 => clear_value x)
  | (lift_lets; with_reducible intro x; refine Keeps.cut (F := F) (r := r) (s := x.1) ?_ (fun hx => ?_); on_goal 2 => clear_value x)
  | (lift_lets; with_reducible intro y)
  | simp only [id]
  | dsimp only

theorem State.fatalStop_keeps {F : List Kind} {r s : State} (kregs : Kind.regs ∈ F) (knewtIrq : Kind.newtIrq ∈ F) (kfieldOps : Kind.fieldOps ∈ F) (kpaused : Kind.paused ∈ F) (kcsq : Kind.csq ∈ F) (kfaultN : Kind.faultN ∈ F) (ktxIdle : Kind.txIdle ∈ F) (kcaps : Kind.caps ∈ F) (kcapBusy : Kind.capBusy ∈ F) (h : Keeps F r s) (n : Nat) (code : Nat) (line : Nat) (src : Nat) :
    Keeps F r (State.fatalStop s n code line src) := by
  unfold State.fatalStop
  try lift_lets
  repeat' first
  | with_reducible assumption
  | (refine Or.inr ?_; (repeat with_reducible apply Nat.le_add_right_of_le); first | decide | omega)
  | with_reducible apply State.forAll_keeps
  | with_reducible apply State.put_keeps
  | with_reducible apply State.csqStopNow_keeps
  | (with_reducible refine Keeps.upd ?_ rfl rfl rfl rfl rfl rfl rfl rfl ?_ ?_ ?_ ?_ ?_ ?_ ?_ ?_ ?_ ?_ ?_ ?_ ?_ ?_ ?_ ?_ ?_ ?_ ?_ ?_ ?_ ?_ ?_ ?_ ?_ ?_ ?_ ?_ ?_ ?_ ?_ ?_ ?_ ?_ ?_ ?_ ?_ ?_ ?_ ?_ ?_ ?_ ?_ ?_ ?_ ?_ ?_ ?_ ?_ ?_ ?_ ?_ ?_ ?_ ?_ ?_ ?_ ?_ ?_ ?_ ?_ ?_ ?_ <;> first | with_reducible assumption | with_reducible exact Or.inr rfl | with_reducible exact Or.inl (by assumption) | with_reducible apply State.inc_keeps | with_reducible apply State.logRec_keeps | with_reducible apply State.forAll_keeps | with_reducible apply State.haEvent_keeps | with_reducible apply State.put_keeps | with_reducible apply State.csqStopNow_keeps | with_reducible apply State.fatalCapture_keeps)
  | with_reducible refine Keeps.ite ?_ ?_
  | (intro y)

theorem State.homeCorrect_keeps {F : List Kind} {r s : State} (kregs : Kind.regs ∈ F) (knewtIrq : Kind.newtIrq ∈ F) (kfieldOps : Kind.fieldOps ∈ F) (kpaused : Kind.paused ∈ F) (kecc : Kind.ecc ∈ F) (kcaps : Kind.caps ∈ F) (kcapBusy : Kind.capBusy ∈ F) (h : Keeps F r s) (a_h : Nat) (l : Nat) :
    Keeps F r (State.homeCorrect s a_h l) := by
  unfold State.homeCorrect
  try lift_lets
  repeat' first
  | with_reducible assumption
  | exact Or.inl (by with_reducible assumption)
  | (refine Or.inr ?_; (repeat with_reducible apply Nat.le_add_right_of_le); first | decide | omega)
  | with_reducible rfl
  | with_reducible apply State.forAll_keeps
  | with_reducible apply State.dropEcc_keeps
  | with_reducible apply State.logRec_keeps
  | with_reducible refine Keeps.ite ?_ ?_
  | with_reducible refine OptKeeps.get (by with_reducible assumption) ?_
  | with_reducible refine Keeps.elim ?_ ?_
  | with_reducible refine Keeps.foldl_fst ?_ _ _ ?_
  | with_reducible refine Keeps.foldl ?_ _ _ ?_
  | split
  | (with_reducible intro x; refine Keeps.cut (F := F) (r := r) (s := x) ?_ (fun hx => ?_); on_goal 2 => clear_value x)
  | (with_reducible intro x; refine Keeps.cut (F := F) (r := r) (s := x.1) ?_ (fun hx => ?_); on_goal 2 => clear_value x)
  | (with_reducible intro y)
  | (lift_lets; with_reducible intro x; refine Keeps.cut (F := F) (r := r) (s := x) ?_ (fun hx => ?_); on_goal 2 => clear_value x)
  | (lift_lets; with_reducible intro x; refine Keeps.cut (F := F) (r := r) (s := x.1) ?_ (fun hx => ?_); on_goal 2 => clear_value x)
  | (lift_lets; with_reducible intro y)
  | simp only [id]
  | dsimp only

theorem State.setSf_keeps {F : List Kind} {r s : State} (kregs : Kind.regs ∈ F) (kecc : Kind.ecc ∈ F) (ksf : Kind.sf ∈ F) (h : Keeps F r s) (a_h : Nat) (set : Nat) (w : Nat) (x : SfEnt) :
    Keeps F r (State.setSf s a_h set w x) := by
  unfold State.setSf
  try lift_lets
  repeat' first
  | with_reducible assumption
  | exact Or.inl (by with_reducible assumption)
  | (refine Or.inr ?_; (repeat with_reducible apply Nat.le_add_right_of_le); first | decide | omega)
  | with_reducible rfl
  | (with_reducible refine Keeps.upd ?_ rfl rfl rfl rfl rfl rfl rfl rfl ?_ ?_ ?_ ?_ ?_ ?_ ?_ ?_ ?_ ?_ ?_ ?_ ?_ ?_ ?_ ?_ ?_ ?_ ?_ ?_ ?_ ?_ ?_ ?_ ?_ ?_ ?_ ?_ ?_ ?_ ?_ ?_ ?_ ?_ ?_ ?_ ?_ ?_ ?_ ?_ ?_ ?_ ?_ ?_ ?_ ?_ ?_ ?_ ?_ ?_ ?_ ?_ ?_ ?_ ?_ ?_ ?_ ?_ ?_ ?_ ?_ ?_ ?_ <;> first | with_reducible assumption | with_reducible exact Or.inr rfl | with_reducible exact Or.inl (by assumption) | with_reducible apply State.put_keeps)
  | with_reducible apply State.put_keeps
  | with_reducible refine Keeps.ite ?_ ?_
  | with_reducible refine OptKeeps.get (by with_reducible assumption) ?_
  | with_reducible refine Keeps.elim ?_ ?_
  | with_reducible refine Keeps.foldl_fst ?_ _ _ ?_
  | with_reducible refine Keeps.foldl ?_ _ _ ?_
  | split
  | (with_reducible intro y)
  | (lift_lets; with_reducible intro y)
  | simp only [id]
  | dsimp only

theorem State.sfTouchWay_keeps {F : List Kind} {r s : State} (ksfPlru : Kind.sfPlru ∈ F) (h : Keeps F r s) (a_h : Nat) (set : Nat) (w : Nat) :
    Keeps F r (State.sfTouchWay s a_h set w) := by
  unfold State.sfTouchWay
  try lift_lets
  repeat' first
  | with_reducible assumption
  | exact Or.inl (by with_reducible assumption)
  | (refine Or.inr ?_; (repeat with_reducible apply Nat.le_add_right_of_le); first | decide | omega)
  | with_reducible rfl
  | (with_reducible refine Keeps.upd ?_ rfl rfl rfl rfl rfl rfl rfl rfl ?_ ?_ ?_ ?_ ?_ ?_ ?_ ?_ ?_ ?_ ?_ ?_ ?_ ?_ ?_ ?_ ?_ ?_ ?_ ?_ ?_ ?_ ?_ ?_ ?_ ?_ ?_ ?_ ?_ ?_ ?_ ?_ ?_ ?_ ?_ ?_ ?_ ?_ ?_ ?_ ?_ ?_ ?_ ?_ ?_ ?_ ?_ ?_ ?_ ?_ ?_ ?_ ?_ ?_ ?_ ?_ ?_ ?_ ?_ ?_ ?_ ?_ ?_ <;> first | with_reducible assumption | with_reducible exact Or.inr rfl | with_reducible exact Or.inl (by assumption))
  | with_reducible refine Keeps.ite ?_ ?_
  | with_reducible refine OptKeeps.get (by with_reducible assumption) ?_
  | with_reducible refine Keeps.elim ?_ ?_
  | with_reducible refine Keeps.foldl_fst ?_ _ _ ?_
  | with_reducible refine Keeps.foldl ?_ _ _ ?_
  | split
  | (with_reducible intro y)
  | (lift_lets; with_reducible intro y)
  | simp only [id]
  | dsimp only

theorem State.sfTouch_keeps {F : List Kind} {r s : State} (ksfPlru : Kind.sfPlru ∈ F) (h : Keeps F r s) (a_h : Nat) (l : Nat) :
    Keeps F r (State.sfTouch s a_h l) := by
  unfold State.sfTouch
  try lift_lets
  repeat' first
  | with_reducible assumption
  | exact Or.inl (by with_reducible assumption)
  | (refine Or.inr ?_; (repeat with_reducible apply Nat.le_add_right_of_le); first | decide | omega)
  | with_reducible rfl
  | with_reducible apply State.sfTouchWay_keeps
  | with_reducible refine Keeps.ite ?_ ?_
  | with_reducible refine OptKeeps.get (by with_reducible assumption) ?_
  | with_reducible refine Keeps.elim ?_ ?_
  | with_reducible refine Keeps.foldl_fst ?_ _ _ ?_
  | with_reducible refine Keeps.foldl ?_ _ _ ?_
  | split
  | (with_reducible intro y)
  | (lift_lets; with_reducible intro y)
  | simp only [id]
  | dsimp only

theorem State.sfPut_keeps {F : List Kind} {r s : State} (kregs : Kind.regs ∈ F) (kecc : Kind.ecc ∈ F) (ksf : Kind.sf ∈ F) (ksfPlru : Kind.sfPlru ∈ F) (h : Keeps F r s) (a_h : Nat) (l : Nat) (st : Nat) (pres : Nat) :
    Keeps F r (State.sfPut s a_h l st pres) := by
  unfold State.sfPut
  try lift_lets
  repeat' first
  | with_reducible assumption
  | exact Or.inl (by with_reducible assumption)
  | (refine Or.inr ?_; (repeat with_reducible apply Nat.le_add_right_of_le); first | decide | omega)
  | with_reducible rfl
  | with_reducible apply State.setSf_keeps
  | with_reducible apply State.sfTouchWay_keeps
  | with_reducible refine Keeps.ite ?_ ?_
  | with_reducible refine OptKeeps.get (by with_reducible assumption) ?_
  | with_reducible refine Keeps.elim ?_ ?_
  | with_reducible refine Keeps.foldl_fst ?_ _ _ ?_
  | with_reducible refine Keeps.foldl ?_ _ _ ?_
  | split
  | (with_reducible intro y)
  | (lift_lets; with_reducible intro y)
  | simp only [id]
  | dsimp only

theorem State.sfRemove_keeps {F : List Kind} {r s : State} (kregs : Kind.regs ∈ F) (kecc : Kind.ecc ∈ F) (ksf : Kind.sf ∈ F) (h : Keeps F r s) (a1 : Nat) (l : Nat) (d : Nat) :
    Keeps F r (State.sfRemove s a1 l d) := by
  unfold State.sfRemove
  try lift_lets
  repeat' first
  | with_reducible assumption
  | with_reducible apply State.setSf_keeps
  | with_reducible refine Keeps.ite ?_ ?_
  | split

theorem State.setHome_keeps {F : List Kind} {r s : State} (khomes : Kind.homes ∈ F) (h : Keeps F r s) (a1 : Nat) (a2 : Home) :
    Keeps F r (State.setHome s a1 a2) := by
  unfold State.setHome
  try lift_lets
  repeat' first
  | with_reducible assumption
  | (with_reducible refine Keeps.upd ?_ rfl rfl rfl rfl rfl rfl rfl rfl ?_ ?_ ?_ ?_ ?_ ?_ ?_ ?_ ?_ ?_ ?_ ?_ ?_ ?_ ?_ ?_ ?_ ?_ ?_ ?_ ?_ ?_ ?_ ?_ ?_ ?_ ?_ ?_ ?_ ?_ ?_ ?_ ?_ ?_ ?_ ?_ ?_ ?_ ?_ ?_ ?_ ?_ ?_ ?_ ?_ ?_ ?_ ?_ ?_ ?_ ?_ ?_ ?_ ?_ ?_ ?_ ?_ ?_ ?_ ?_ ?_ ?_ ?_ <;> first | with_reducible assumption | with_reducible exact Or.inr rfl | with_reducible exact Or.inl (by assumption))

theorem State.homeSync_keeps {F : List Kind} {r s : State} (kregs : Kind.regs ∈ F) (h : Keeps F r s) (a1 : Nat) :
    Keeps F r (State.homeSync s a1) := by
  unfold State.homeSync
  try lift_lets
  repeat' first
  | with_reducible assumption
  | (refine Or.inr ?_; (repeat with_reducible apply Nat.le_add_right_of_le); first | decide | omega)
  | with_reducible apply State.put_keeps

theorem State.changeTxn_keeps {F : List Kind} {r s : State} (khomes : Kind.homes ∈ F) (h : Keeps F r s) (a1 : Nat) (l : Nat) (f : HomeTxn → HomeTxn) :
    Keeps F r (State.changeTxn s a1 l f) := by
  unfold State.changeTxn
  try lift_lets
  repeat' first
  | with_reducible assumption
  | with_reducible apply State.setHome_keeps

theorem State.homeReply_keeps {F : List Kind} {r s : State} (kout : Kind.out ∈ F) (h : Keeps F r s) (a1 : Nat) (k : CohKind) (m : CohMsg) :
    Keeps F r (State.homeReply s a1 k m) := by
  unfold State.homeReply
  try lift_lets
  repeat' first
  | with_reducible assumption
  | with_reducible apply State.send_keeps

theorem State.homeNak_keeps {F : List Kind} {r s : State} (kregs : Kind.regs ∈ F) (kout : Kind.out ∈ F) (knewtIrq : Kind.newtIrq ∈ F) (kfieldOps : Kind.fieldOps ∈ F) (kpaused : Kind.paused ∈ F) (kcaps : Kind.caps ∈ F) (kcapBusy : Kind.capBusy ∈ F) (h : Keeps F r s) (a1 : Nat) (code : Nat) (m : CohMsg) :
    Keeps F r (State.homeNak s a1 code m) := by
  unfold State.homeNak
  try lift_lets
  repeat' first
  | with_reducible assumption
  | (refine Or.inr ?_; (repeat with_reducible apply Nat.le_add_right_of_le); first | decide | omega)
  | with_reducible apply State.inc_keeps
  | with_reducible apply State.put_keeps
  | with_reducible apply State.logRec_keeps
  | with_reducible apply State.send_keeps
  | with_reducible apply State.haEvent_keeps

theorem State.homeBad_keeps {F : List Kind} {r s : State} (kregs : Kind.regs ∈ F) (kout : Kind.out ∈ F) (knewtIrq : Kind.newtIrq ∈ F) (kfieldOps : Kind.fieldOps ∈ F) (kpaused : Kind.paused ∈ F) (kcsq : Kind.csq ∈ F) (kfaultN : Kind.faultN ∈ F) (ktxIdle : Kind.txIdle ∈ F) (kcaps : Kind.caps ∈ F) (kcapBusy : Kind.capBusy ∈ F) (h : Keeps F r s) (a1 : Nat) (code : Nat) (m : CohMsg) :
    Keeps F r (State.homeBad s a1 code m) := by
  unfold State.homeBad
  try lift_lets
  repeat' first
  | with_reducible assumption
  | with_reducible apply State.fatalStop_keeps
  | with_reducible apply State.homeNak_keeps
  | with_reducible refine Keeps.ite ?_ ?_

theorem State.staleWb_keeps {F : List Kind} {r s : State} (kregs : Kind.regs ∈ F) (kresp : Kind.resp ∈ F) (kout : Kind.out ∈ F) (knewtIrq : Kind.newtIrq ∈ F) (kfieldOps : Kind.fieldOps ∈ F) (kfiles : Kind.files ∈ F) (kaplic : Kind.aplic ∈ F) (kpaused : Kind.paused ∈ F) (kcaps : Kind.caps ∈ F) (kcapBusy : Kind.capBusy ∈ F) (h : Keeps F r s) (a1 : Nat) (m : CohMsg) :
    Keeps F r (State.staleWb s a1 m) := by
  unfold State.staleWb
  try lift_lets
  repeat' first
  | with_reducible assumption
  | (refine Or.inr ?_; (repeat with_reducible apply Nat.le_add_right_of_le); first | decide | omega)
  | with_reducible apply State.pmc_keeps
  | with_reducible apply State.inc_keeps
  | with_reducible apply State.homeReply_keeps

theorem State.homeWrite_keeps {F : List Kind} {r s : State} (kregs : Kind.regs ∈ F) (kmem : Kind.mem ∈ F) (knewtIrq : Kind.newtIrq ∈ F) (kfieldOps : Kind.fieldOps ∈ F) (kpaused : Kind.paused ∈ F) (kecc : Kind.ecc ∈ F) (kmc : Kind.mc ∈ F) (kpoison : Kind.poison ∈ F) (kcaps : Kind.caps ∈ F) (kcapBusy : Kind.capBusy ∈ F) (h : Keeps F r s) (m : CohMsg) (d : Bytes) (poison : Bool) :
    Keeps F r (State.homeWrite s m d poison).1 := by
  unfold State.homeWrite
  try lift_lets
  repeat' first
  | with_reducible assumption
  | exact Or.inl (by with_reducible assumption)
  | (refine Or.inr ?_; (repeat with_reducible apply Nat.le_add_right_of_le); first | decide | omega)
  | with_reducible rfl
  | with_reducible apply State.memWriteLine_keeps
  | with_reducible refine Keeps.ite ?_ ?_
  | with_reducible refine OptKeeps.get (by with_reducible assumption) ?_
  | with_reducible refine Keeps.elim ?_ ?_
  | with_reducible refine Keeps.foldl_fst ?_ _ _ ?_
  | with_reducible refine Keeps.foldl ?_ _ _ ?_
  | split
  | (with_reducible intro y)
  | (lift_lets; with_reducible intro y)
  | simp only [id]
  | dsimp only

theorem State.txnWrites_keeps {F : List Kind} {r s : State} (kregs : Kind.regs ∈ F) (kmem : Kind.mem ∈ F) (knewtIrq : Kind.newtIrq ∈ F) (kfieldOps : Kind.fieldOps ∈ F) (kpaused : Kind.paused ∈ F) (kecc : Kind.ecc ∈ F) (kmc : Kind.mc ∈ F) (kpoison : Kind.poison ∈ F) (khomes : Kind.homes ∈ F) (kcaps : Kind.caps ∈ F) (kcapBusy : Kind.capBusy ∈ F) (h : Keeps F r s) (a_h : Nat) (l : Nat) :
    Keeps F r (State.txnWrites s a_h l) := by
  unfold State.txnWrites
  try lift_lets
  repeat' first
  | with_reducible assumption
  | exact Or.inl (by with_reducible assumption)
  | (refine Or.inr ?_; (repeat with_reducible apply Nat.le_add_right_of_le); first | decide | omega)
  | with_reducible rfl
  | with_reducible apply State.homeWrite_keeps
  | with_reducible apply State.changeTxn_keeps
  | with_reducible refine Keeps.ite ?_ ?_
  | with_reducible refine OptKeeps.get (by with_reducible assumption) ?_
  | with_reducible refine Keeps.elim ?_ ?_
  | with_reducible refine Keeps.foldl_fst ?_ _ _ ?_
  | with_reducible refine Keeps.foldl ?_ _ _ ?_
  | split
  | (with_reducible intro y)
  | (lift_lets; with_reducible intro y)
  | simp only [id]
  | dsimp only

theorem State.promote_keeps {F : List Kind} {r s : State} (khomes : Kind.homes ∈ F) (h : Keeps F r s) (a_h : Nat) (m : CohMsg) :
    Keeps F r (State.promote s a_h m) := by
  unfold State.promote
  try lift_lets
  repeat' first
  | with_reducible assumption
  | exact Or.inl (by with_reducible assumption)
  | (refine Or.inr ?_; (repeat with_reducible apply Nat.le_add_right_of_le); first | decide | omega)
  | with_reducible rfl
  | with_reducible apply State.changeTxn_keeps
  | with_reducible refine Keeps.ite ?_ ?_
  | with_reducible refine OptKeeps.get (by with_reducible assumption) ?_
  | with_reducible refine Keeps.elim ?_ ?_
  | with_reducible refine Keeps.foldl_fst ?_ _ _ ?_
  | with_reducible refine Keeps.foldl ?_ _ _ ?_
  | split
  | (with_reducible intro x; refine Keeps.cut (F := F) (r := r) (s := x) ?_ (fun hx => ?_); on_goal 2 => clear_value x)
  | (with_reducible intro x; refine Keeps.cut (F := F) (r := r) (s := x.1) ?_ (fun hx => ?_); on_goal 2 => clear_value x)
  | (with_reducible intro y)
  | (lift_lets; with_reducible intro x; refine Keeps.cut (F := F) (r := r) (s := x) ?_ (fun hx => ?_); on_goal 2 => clear_value x)
  | (lift_lets; with_reducible intro x; refine Keeps.cut (F := F) (r := r) (s := x.1) ?_ (fun hx => ?_); on_goal 2 => clear_value x)
  | (lift_lets; with_reducible intro y)
  | simp only [id]
  | dsimp only

theorem State.homeAdmit_keeps {F : List Kind} {r s : State} (kregs : Kind.regs ∈ F) (khomes : Kind.homes ∈ F) (h : Keeps F r s) (a_h : Nat) :
    Keeps F r (State.homeAdmit s a_h) := by
  unfold State.homeAdmit
  try lift_lets
  repeat' first
  | with_reducible assumption
  | exact Or.inl (by with_reducible assumption)
  | (refine Or.inr ?_; (repeat with_reducible apply Nat.le_add_right_of_le); first | decide | omega)
  | with_reducible rfl
  | with_reducible apply State.setHome_keeps
  | with_reducible apply State.promote_keeps
  | with_reducible apply State.homeSync_keeps
  | with_reducible refine Keeps.ite ?_ ?_
  | with_reducible refine OptKeeps.get (by with_reducible assumption) ?_
  | with_reducible refine Keeps.elim ?_ ?_
  | with_reducible refine Keeps.foldl_fst ?_ _ _ ?_
  | with_reducible refine Keeps.foldl ?_ _ _ ?_
  | split
  | (with_reducible intro x; refine Keeps.cut (F := F) (r := r) (s := x) ?_ (fun hx => ?_); on_goal 2 => clear_value x)
  | (with_reducible intro x; refine Keeps.cut (F := F) (r := r) (s := x.1) ?_ (fun hx => ?_); on_goal 2 => clear_value x)
  | (with_reducible intro y)
  | (lift_lets; with_reducible intro x; refine Keeps.cut (F := F) (r := r) (s := x) ?_ (fun hx => ?_); on_goal 2 => clear_value x)
  | (lift_lets; with_reducible intro x; refine Keeps.cut (F := F) (r := r) (s := x.1) ?_ (fun hx => ?_); on_goal 2 => clear_value x)
  | (lift_lets; with_reducible intro y)
  | simp only [id]
  | dsimp only

theorem State.tryClose_keeps {F : List Kind} {r s : State} (kregs : Kind.regs ∈ F) (kecc : Kind.ecc ∈ F) (khomes : Kind.homes ∈ F) (ksf : Kind.sf ∈ F) (ksfPlru : Kind.sfPlru ∈ F) (h : Keeps F r s) (a_h : Nat) (l : Nat) :
    Keeps F r (State.tryClose s a_h l) := by
  unfold State.tryClose
  try lift_lets
  repeat' first
  | with_reducible assumption
  | exact Or.inl (by with_reducible assumption)
  | (refine Or.inr ?_; (repeat with_reducible apply Nat.le_add_right_of_le); first | decide | omega)
  | with_reducible rfl
  | with_reducible apply State.setHome_keeps
  | with_reducible apply State.sfPut_keeps
  | with_reducible apply State.homeAdmit_keeps
  | with_reducible refine Keeps.ite ?_ ?_
  | with_reducible refine OptKeeps.get (by with_reducible assumption) ?_
  | with_reducible refine Keeps.elim ?_ ?_
  | with_reducible refine Keeps.foldl_fst ?_ _ _ ?_
  | with_reducible refine Keeps.foldl ?_ _ _ ?_
  | split
  | (with_reducible intro x; refine Keeps.cut (F := F) (r := r) (s := x) ?_ (fun hx => ?_); on_goal 2 => clear_value x)
  | (with_reducible intro x; refine Keeps.cut (F := F) (r := r) (s := x.1) ?_ (fun hx => ?_); on_goal 2 => clear_value x)
  | (with_reducible intro y)
  | (lift_lets; with_reducible intro x; refine Keeps.cut (F := F) (r := r) (s := x) ?_ (fun hx => ?_); on_goal 2 => clear_value x)
  | (lift_lets; with_reducible intro x; refine Keeps.cut (F := F) (r := r) (s := x.1) ?_ (fun hx => ?_); on_goal 2 => clear_value x)
  | (lift_lets; with_reducible intro y)
  | simp only [id]
  | dsimp only

theorem State.homeSeq_keeps {F : List Kind} {r s : State} (khomes : Kind.homes ∈ F) (h : Keeps F r s) (a_h : Nat) :
    Keeps F r (State.homeSeq s a_h).1 := by
  unfold State.homeSeq
  try lift_lets
  repeat' first
  | with_reducible assumption
  | exact Or.inl (by with_reducible assumption)
  | (refine Or.inr ?_; (repeat with_reducible apply Nat.le_add_right_of_le); first | decide | omega)
  | with_reducible rfl
  | with_reducible apply State.setHome_keeps
  | with_reducible refine Keeps.ite ?_ ?_
  | with_reducible refine OptKeeps.get (by with_reducible assumption) ?_
  | with_reducible refine Keeps.elim ?_ ?_
  | with_reducible refine Keeps.foldl_fst ?_ _ _ ?_
  | with_reducible refine Keeps.foldl ?_ _ _ ?_
  | split
  | (with_reducible intro x; refine Keeps.cut (F := F) (r := r) (s := x) ?_ (fun hx => ?_); on_goal 2 => clear_value x)
  | (with_reducible intro x; refine Keeps.cut (F := F) (r := r) (s := x.1) ?_ (fun hx => ?_); on_goal 2 => clear_value x)
  | (with_reducible intro y)
  | (lift_lets; with_reducible intro x; refine Keeps.cut (F := F) (r := r) (s := x) ?_ (fun hx => ?_); on_goal 2 => clear_value x)
  | (lift_lets; with_reducible intro x; refine Keeps.cut (F := F) (r := r) (s := x.1) ?_ (fun hx => ?_); on_goal 2 => clear_value x)
  | (lift_lets; with_reducible intro y)
  | simp only [id]
  | dsimp only

theorem State.sendSnoop_keeps {F : List Kind} {r s : State} (kregs : Kind.regs ∈ F) (kresp : Kind.resp ∈ F) (kout : Kind.out ∈ F) (knewtIrq : Kind.newtIrq ∈ F) (kfieldOps : Kind.fieldOps ∈ F) (kfiles : Kind.files ∈ F) (kaplic : Kind.aplic ∈ F) (kpaused : Kind.paused ∈ F) (kcaps : Kind.caps ∈ F) (kcapBusy : Kind.capBusy ∈ F) (h : Keeps F r s) (a_h : Nat) (k : CohKind) (mask : Nat) (m : CohMsg) (disc : Bool) :
    Keeps F r (State.sendSnoop s a_h k mask m disc) := by
  unfold State.sendSnoop
  try lift_lets
  repeat' first
  | with_reducible assumption
  | exact Or.inl (by with_reducible assumption)
  | (refine Or.inr ?_; (repeat with_reducible apply Nat.le_add_right_of_le); first | decide | omega)
  | with_reducible rfl
  | with_reducible apply State.pmc_keeps
  | with_reducible apply State.forAll_keeps
  | with_reducible apply State.send_keeps
  | with_reducible refine Keeps.ite ?_ ?_
  | with_reducible refine OptKeeps.get (by with_reducible assumption) ?_
  | with_reducible refine Keeps.elim ?_ ?_
  | with_reducible refine Keeps.foldl_fst ?_ _ _ ?_
  | with_reducible refine Keeps.foldl ?_ _ _ ?_
  | split
  | (with_reducible intro y)
  | (lift_lets; with_reducible intro y)
  | simp only [id]
  | dsimp only

theorem State.sfAlloc_keeps {F : List Kind} {r s : State} (kregs : Kind.regs ∈ F) (kresp : Kind.resp ∈ F) (kout : Kind.out ∈ F) (knewtIrq : Kind.newtIrq ∈ F) (kfieldOps : Kind.fieldOps ∈ F) (kfiles : Kind.files ∈ F) (kaplic : Kind.aplic ∈ F) (kpaused : Kind.paused ∈ F) (kecc : Kind.ecc ∈ F) (khomes : Kind.homes ∈ F) (ksf : Kind.sf ∈ F) (ksfPlru : Kind.sfPlru ∈ F) (kcaps : Kind.caps ∈ F) (kcapBusy : Kind.capBusy ∈ F) (h : Keeps F r s) (a_h : Nat) (m : CohMsg) :
    Keeps F r (State.sfAlloc s a_h m).1 := by
  unfold State.sfAlloc
  try lift_lets
  repeat' first
  | with_reducible assumption
  | exact Or.inl (by with_reducible assumption)
  | (refine Or.inr ?_; (repeat with_reducible apply Nat.le_add_right_of_le); first | decide | omega)
  | with_reducible rfl
  | with_reducible apply State.setSf_keeps
  | with_reducible apply State.sfTouchWay_keeps
  | with_reducible apply State.inc_keeps
  | with_reducible apply State.pmc_keeps
  | with_reducible apply State.homeSeq_keeps
  | with_reducible apply State.setHome_keeps
  | with_reducible apply State.sendSnoop_keeps
  | with_reducible apply State.homeSync_keeps
  | with_reducible refine Keeps.ite ?_ ?_
  | with_reducible refine OptKeeps.get (by with_reducible assumption) ?_
  | with_reducible refine Keeps.elim ?_ ?_
  | with_reducible refine Keeps.foldl_fst ?_ _ _ ?_
  | with_reducible refine Keeps.foldl ?_ _ _ ?_
  | split
  | (with_reducible intro x; refine Keeps.cut (F := F) (r := r) (s := x) ?_ (fun hx => ?_); on_goal 2 => clear_value x)
  | (with_reducible intro x; refine Keeps.cut (F := F) (r := r) (s := x.1) ?_ (fun hx => ?_); on_goal 2 => clear_value x)
  | (with_reducible intro y)
  | (lift_lets; with_reducible intro x; refine Keeps.cut (F := F) (r := r) (s := x) ?_ (fun hx => ?_); on_goal 2 => clear_value x)
  | (lift_lets; with_reducible intro x; refine Keeps.cut (F := F) (r := r) (s := x.1) ?_ (fun hx => ?_); on_goal 2 => clear_value x)
  | (lift_lets; with_reducible intro y)
  | simp only [id]
  | dsimp only

theorem State.devAnswer_keeps {F : List Kind} {r s : State} (khomes : Kind.homes ∈ F) (h : Keeps F r s) (a_h : Nat) (k : CohKind) (m : CohMsg) (data : Bytes) (poison : Bool) (err : Bool) :
    Keeps F r (State.devAnswer s a_h k m data poison err) := by
  unfold State.devAnswer
  try lift_lets
  repeat' first
  | with_reducible assumption
  | exact Or.inl (by with_reducible assumption)
  | (refine Or.inr ?_; (repeat with_reducible apply Nat.le_add_right_of_le); first | decide | omega)
  | with_reducible rfl
  | with_reducible apply State.setHome_keeps
  | with_reducible refine Keeps.ite ?_ ?_
  | with_reducible refine OptKeeps.get (by with_reducible assumption) ?_
  | with_reducible refine Keeps.elim ?_ ?_
  | with_reducible refine Keeps.foldl_fst ?_ _ _ ?_
  | with_reducible refine Keeps.foldl ?_ _ _ ?_
  | split
  | (with_reducible intro y)
  | (lift_lets; with_reducible intro y)
  | simp only [id]
  | dsimp only

theorem State.txnReplied_keeps {F : List Kind} {r s : State} (kregs : Kind.regs ∈ F) (kecc : Kind.ecc ∈ F) (khomes : Kind.homes ∈ F) (ksf : Kind.sf ∈ F) (ksfPlru : Kind.sfPlru ∈ F) (h : Keeps F r s) (a_h : Nat) (t : HomeTxn) (ans : Bytes × Bool × Bool) (fack : Bool) :
    Keeps F r (State.txnReplied s a_h t ans fack) := by
  unfold State.txnReplied
  try lift_lets
  repeat' first
  | with_reducible assumption
  | exact Or.inl (by with_reducible assumption)
  | (refine Or.inr ?_; (repeat with_reducible apply Nat.le_add_right_of_le); first | decide | omega)
  | with_reducible rfl
  | with_reducible apply State.devAnswer_keeps
  | with_reducible apply State.changeTxn_keeps
  | with_reducible apply State.tryClose_keeps
  | with_reducible refine Keeps.ite ?_ ?_
  | with_reducible refine OptKeeps.get (by with_reducible assumption) ?_
  | with_reducible refine Keeps.elim ?_ ?_
  | with_reducible refine Keeps.foldl_fst ?_ _ _ ?_
  | with_reducible refine Keeps.foldl ?_ _ _ ?_
  | split
  | (with_reducible intro y)
  | (lift_lets; with_reducible intro y)
  | simp only [id]
  | dsimp only

theorem State.txnData_keeps {F : List Kind} {r s : State} (kregs : Kind.regs ∈ F) (kout : Kind.out ∈ F) (kecc : Kind.ecc ∈ F) (khomes : Kind.homes ∈ F) (ksf : Kind.sf ∈ F) (ksfPlru : Kind.sfPlru ∈ F) (h : Keeps F r s) (a_h : Nat) (t : HomeTxn) (k : CohKind) (fack : Bool) :
    Keeps F r (State.txnData s a_h t k fack) := by
  unfold State.txnData
  try lift_lets
  repeat' first
  | with_reducible assumption
  | exact Or.inl (by with_reducible assumption)
  | (refine Or.inr ?_; (repeat with_reducible apply Nat.le_add_right_of_le); first | decide | omega)
  | with_reducible rfl
  | with_reducible apply State.send_keeps
  | with_reducible apply State.txnReplied_keeps
  | with_reducible refine Keeps.ite ?_ ?_
  | with_reducible refine OptKeeps.get (by with_reducible assumption) ?_
  | with_reducible refine Keeps.elim ?_ ?_
  | with_reducible refine Keeps.foldl_fst ?_ _ _ ?_
  | with_reducible refine Keeps.foldl ?_ _ _ ?_
  | split
  | (with_reducible intro y)
  | (lift_lets; with_reducible intro y)
  | simp only [id]
  | dsimp only

theorem State.txnFailed_keeps {F : List Kind} {r s : State} (kregs : Kind.regs ∈ F) (kout : Kind.out ∈ F) (kecc : Kind.ecc ∈ F) (khomes : Kind.homes ∈ F) (ksf : Kind.sf ∈ F) (ksfPlru : Kind.sfPlru ∈ F) (h : Keeps F r s) (a_h : Nat) (t : HomeTxn) (ans : Bytes × Bool × Bool) :
    Keeps F r (State.txnFailed s a_h t ans) := by
  unfold State.txnFailed
  try lift_lets
  repeat' first
  | with_reducible assumption
  | exact Or.inl (by with_reducible assumption)
  | (refine Or.inr ?_; (repeat with_reducible apply Nat.le_add_right_of_le); first | decide | omega)
  | with_reducible rfl
  | with_reducible apply State.send_keeps
  | with_reducible apply State.txnReplied_keeps
  | with_reducible refine Keeps.ite ?_ ?_
  | with_reducible refine OptKeeps.get (by with_reducible assumption) ?_
  | with_reducible refine Keeps.elim ?_ ?_
  | with_reducible refine Keeps.foldl_fst ?_ _ _ ?_
  | with_reducible refine Keeps.foldl ?_ _ _ ?_
  | split
  | (with_reducible intro y)
  | (lift_lets; with_reducible intro y)
  | simp only [id]
  | dsimp only

theorem State.ncWrite_keeps {F : List Kind} {r s : State} (kregs : Kind.regs ∈ F) (kmem : Kind.mem ∈ F) (knewtIrq : Kind.newtIrq ∈ F) (kfieldOps : Kind.fieldOps ∈ F) (kpaused : Kind.paused ∈ F) (kecc : Kind.ecc ∈ F) (kmc : Kind.mc ∈ F) (kpoison : Kind.poison ∈ F) (kcaps : Kind.caps ∈ F) (kcapBusy : Kind.capBusy ∈ F) (h : Keeps F r s) (t : HomeTxn) :
    Keeps F r (State.ncWrite s t).1 := by
  unfold State.ncWrite
  try lift_lets
  repeat' first
  | with_reducible assumption
  | exact Or.inl (by with_reducible assumption)
  | (refine Or.inr ?_; (repeat with_reducible apply Nat.le_add_right_of_le); first | decide | omega)
  | with_reducible rfl
  | with_reducible apply State.mergeLine_keeps
  | with_reducible apply State.memWriteLine_keeps
  | with_reducible refine Keeps.ite ?_ ?_
  | with_reducible refine OptKeeps.get (by with_reducible assumption) ?_
  | with_reducible refine Keeps.elim ?_ ?_
  | with_reducible refine Keeps.foldl_fst ?_ _ _ ?_
  | with_reducible refine Keeps.foldl ?_ _ _ ?_
  | split
  | (with_reducible intro x; refine Keeps.cut (F := F) (r := r) (s := x) ?_ (fun hx => ?_); on_goal 2 => clear_value x)
  | (with_reducible intro x; refine Keeps.cut (F := F) (r := r) (s := x.1) ?_ (fun hx => ?_); on_goal 2 => clear_value x)
  | (with_reducible intro y)
  | (lift_lets; with_reducible intro x; refine Keeps.cut (F := F) (r := r) (s := x) ?_ (fun hx => ?_); on_goal 2 => clear_value x)
  | (lift_lets; with_reducible intro x; refine Keeps.cut (F := F) (r := r) (s := x.1) ?_ (fun hx => ?_); on_goal 2 => clear_value x)
  | (lift_lets; with_reducible intro y)
  | simp only [id]
  | dsimp only

theorem State.finishTxn_keeps {F : List Kind} {r s : State} (kregs : Kind.regs ∈ F) (kmem : Kind.mem ∈ F) (kout : Kind.out ∈ F) (knewtIrq : Kind.newtIrq ∈ F) (kfieldOps : Kind.fieldOps ∈ F) (kpaused : Kind.paused ∈ F) (kecc : Kind.ecc ∈ F) (kmc : Kind.mc ∈ F) (kpoison : Kind.poison ∈ F) (khomes : Kind.homes ∈ F) (ksf : Kind.sf ∈ F) (ksfPlru : Kind.sfPlru ∈ F) (kcaps : Kind.caps ∈ F) (kcapBusy : Kind.capBusy ∈ F) (h : Keeps F r s) (a_h : Nat) (t : HomeTxn) :
    Keeps F r (State.finishTxn s a_h t) := by
  unfold State.finishTxn
  try lift_lets
  repeat' first
  | with_reducible assumption
  | exact Or.inl (by with_reducible assumption)
  | (refine Or.inr ?_; (repeat with_reducible apply Nat.le_add_right_of_le); first | decide | omega)
  | with_reducible rfl
  | with_reducible apply State.txnFailed_keeps
  | with_reducible apply State.sfPut_keeps
  | with_reducible apply State.txnData_keeps
  | with_reducible apply State.homeReply_keeps
  | with_reducible apply State.txnReplied_keeps
  | with_reducible apply State.ncWrite_keeps
  | with_reducible refine Keeps.ite ?_ ?_
  | with_reducible refine OptKeeps.get (by with_reducible assumption) ?_
  | with_reducible refine Keeps.elim ?_ ?_
  | with_reducible refine Keeps.foldl_fst ?_ _ _ ?_
  | with_reducible refine Keeps.foldl ?_ _ _ ?_
  | split
  | (with_reducible intro y)
  | (lift_lets; with_reducible intro y)
  | simp only [id]
  | dsimp only

theorem State.tryReply_keeps {F : List Kind} {r s : State} (kregs : Kind.regs ∈ F) (kmem : Kind.mem ∈ F) (kout : Kind.out ∈ F) (knewtIrq : Kind.newtIrq ∈ F) (kfieldOps : Kind.fieldOps ∈ F) (kpaused : Kind.paused ∈ F) (kecc : Kind.ecc ∈ F) (kmc : Kind.mc ∈ F) (kpoison : Kind.poison ∈ F) (khomes : Kind.homes ∈ F) (ksf : Kind.sf ∈ F) (ksfPlru : Kind.sfPlru ∈ F) (kcaps : Kind.caps ∈ F) (kcapBusy : Kind.capBusy ∈ F) (h : Keeps F r s) (a_h : Nat) (l : Nat) :
    Keeps F r (State.tryReply s a_h l) := by
  unfold State.tryReply
  try lift_lets
  repeat' first
  | with_reducible assumption
  | exact Or.inl (by with_reducible assumption)
  | (refine Or.inr ?_; (repeat with_reducible apply Nat.le_add_right_of_le); first | decide | omega)
  | with_reducible rfl
  | with_reducible apply State.finishTxn_keeps
  | with_reducible refine Keeps.ite ?_ ?_
  | with_reducible refine OptKeeps.get (by with_reducible assumption) ?_
  | with_reducible refine Keeps.elim ?_ ?_
  | with_reducible refine Keeps.foldl_fst ?_ _ _ ?_
  | with_reducible refine Keeps.foldl ?_ _ _ ?_
  | split
  | (with_reducible intro y)
  | (lift_lets; with_reducible intro y)
  | simp only [id]
  | dsimp only

theorem State.openTxn_keeps {F : List Kind} {r s : State} (kregs : Kind.regs ∈ F) (kmem : Kind.mem ∈ F) (kresp : Kind.resp ∈ F) (kout : Kind.out ∈ F) (knewtIrq : Kind.newtIrq ∈ F) (kfieldOps : Kind.fieldOps ∈ F) (kfiles : Kind.files ∈ F) (kaplic : Kind.aplic ∈ F) (kpaused : Kind.paused ∈ F) (kecc : Kind.ecc ∈ F) (kmc : Kind.mc ∈ F) (kpoison : Kind.poison ∈ F) (khomes : Kind.homes ∈ F) (ksf : Kind.sf ∈ F) (ksfPlru : Kind.sfPlru ∈ F) (kcaps : Kind.caps ∈ F) (kcapBusy : Kind.capBusy ∈ F) (h : Keeps F r s) (a_h : Nat) (k : CohKind) (m : CohMsg) :
    Keeps F r (State.openTxn s a_h k m) := by
  unfold State.openTxn
  try lift_lets
  repeat' first
  | with_reducible assumption
  | exact Or.inl (by with_reducible assumption)
  | (refine Or.inr ?_; (repeat with_reducible apply Nat.le_add_right_of_le); first | decide | omega)
  | with_reducible rfl
  | with_reducible apply State.sfTouch_keeps
  | with_reducible apply State.pmc_keeps
  | with_reducible apply State.when_keeps
  | with_reducible apply State.homeSeq_keeps
  | with_reducible apply State.setHome_keeps
  | with_reducible apply State.sendSnoop_keeps
  | with_reducible apply State.send_keeps
  | with_reducible apply State.sfAlloc_keeps
  | with_reducible apply State.changeTxn_keeps
  | with_reducible apply State.homeSync_keeps
  | with_reducible apply State.tryReply_keeps
  | with_reducible refine Keeps.ite ?_ ?_
  | with_reducible refine OptKeeps.get (by with_reducible assumption) ?_
  | with_reducible refine Keeps.elim ?_ ?_
  | with_reducible refine Keeps.foldl_fst ?_ _ _ ?_
  | with_reducible refine Keeps.foldl ?_ _ _ ?_
  | split
  | (with_reducible intro x; refine Keeps.cut (F := F) (r := r) (s := x) ?_ (fun hx => ?_); on_goal 2 => clear_value x)
  | (with_reducible intro x; refine Keeps.cut (F := F) (r := r) (s := x.1) ?_ (fun hx => ?_); on_goal 2 => clear_value x)
  | (with_reducible intro y)
  | (lift_lets; with_reducible intro x; refine Keeps.cut (F := F) (r := r) (s := x) ?_ (fun hx => ?_); on_goal 2 => clear_value x)
  | (lift_lets; with_reducible intro x; refine Keeps.cut (F := F) (r := r) (s := x.1) ?_ (fun hx => ?_); on_goal 2 => clear_value x)
  | (lift_lets; with_reducible intro y)
  | simp only [id]
  | dsimp only

theorem State.openWb_keeps {F : List Kind} {r s : State} (kregs : Kind.regs ∈ F) (kmem : Kind.mem ∈ F) (kout : Kind.out ∈ F) (knewtIrq : Kind.newtIrq ∈ F) (kfieldOps : Kind.fieldOps ∈ F) (kpaused : Kind.paused ∈ F) (kcsq : Kind.csq ∈ F) (kecc : Kind.ecc ∈ F) (kmc : Kind.mc ∈ F) (kpoison : Kind.poison ∈ F) (ksf : Kind.sf ∈ F) (ksfPlru : Kind.sfPlru ∈ F) (kfaultN : Kind.faultN ∈ F) (ktxIdle : Kind.txIdle ∈ F) (kcaps : Kind.caps ∈ F) (kcapBusy : Kind.capBusy ∈ F) (h : Keeps F r s) (a_h : Nat) (m : CohMsg) :
    Keeps F r (State.openWb s a_h m) := by
  unfold State.openWb
  try lift_lets
  repeat' first
  | with_reducible assumption
  | exact Or.inl (by with_reducible assumption)
  | (refine Or.inr ?_; (repeat with_reducible apply Nat.le_add_right_of_le); first | decide | omega)
  | with_reducible rfl
  | with_reducible apply State.homeWrite_keeps
  | with_reducible apply State.sfTouch_keeps
  | with_reducible apply State.sfPut_keeps
  | with_reducible apply State.homeReply_keeps
  | with_reducible apply State.send_keeps
  | with_reducible apply State.homeBad_keeps
  | with_reducible refine Keeps.ite ?_ ?_
  | with_reducible refine OptKeeps.get (by with_reducible assumption) ?_
  | with_reducible refine Keeps.elim ?_ ?_
  | with_reducible refine Keeps.foldl_fst ?_ _ _ ?_
  | with_reducible refine Keeps.foldl ?_ _ _ ?_
  | split
  | (with_reducible intro y)
  | (lift_lets; with_reducible intro y)
  | simp only [id]
  | dsimp only

theorem State.homeWait_keeps {F : List Kind} {r s : State} (kregs : Kind.regs ∈ F) (khomes : Kind.homes ∈ F) (h : Keeps F r s) (a_h : Nat) (k : CohKind) (m : CohMsg) :
    Keeps F r (State.homeWait s a_h k m) := by
  unfold State.homeWait
  try lift_lets
  repeat' first
  | with_reducible assumption
  | exact Or.inl (by with_reducible assumption)
  | (refine Or.inr ?_; (repeat with_reducible apply Nat.le_add_right_of_le); first | decide | omega)
  | with_reducible rfl
  | with_reducible apply State.setHome_keeps
  | with_reducible apply State.promote_keeps
  | with_reducible apply State.homeSync_keeps
  | with_reducible refine Keeps.ite ?_ ?_
  | with_reducible refine OptKeeps.get (by with_reducible assumption) ?_
  | with_reducible refine Keeps.elim ?_ ?_
  | with_reducible refine Keeps.foldl_fst ?_ _ _ ?_
  | with_reducible refine Keeps.foldl ?_ _ _ ?_
  | split
  | (with_reducible intro x; refine Keeps.cut (F := F) (r := r) (s := x) ?_ (fun hx => ?_); on_goal 2 => clear_value x)
  | (with_reducible intro x; refine Keeps.cut (F := F) (r := r) (s := x.1) ?_ (fun hx => ?_); on_goal 2 => clear_value x)
  | (with_reducible intro y)
  | (lift_lets; with_reducible intro x; refine Keeps.cut (F := F) (r := r) (s := x) ?_ (fun hx => ?_); on_goal 2 => clear_value x)
  | (lift_lets; with_reducible intro x; refine Keeps.cut (F := F) (r := r) (s := x.1) ?_ (fun hx => ?_); on_goal 2 => clear_value x)
  | (lift_lets; with_reducible intro y)
  | simp only [id]
  | dsimp only

theorem State.homeWb_keeps {F : List Kind} {r s : State} (kregs : Kind.regs ∈ F) (kmem : Kind.mem ∈ F) (kresp : Kind.resp ∈ F) (kout : Kind.out ∈ F) (knewtIrq : Kind.newtIrq ∈ F) (kfieldOps : Kind.fieldOps ∈ F) (kfiles : Kind.files ∈ F) (kaplic : Kind.aplic ∈ F) (kpaused : Kind.paused ∈ F) (kcsq : Kind.csq ∈ F) (kecc : Kind.ecc ∈ F) (kmc : Kind.mc ∈ F) (kpoison : Kind.poison ∈ F) (khomes : Kind.homes ∈ F) (ksf : Kind.sf ∈ F) (ksfPlru : Kind.sfPlru ∈ F) (kfaultN : Kind.faultN ∈ F) (ktxIdle : Kind.txIdle ∈ F) (kcaps : Kind.caps ∈ F) (kcapBusy : Kind.capBusy ∈ F) (h : Keeps F r s) (a_h : Nat) (m : CohMsg) :
    Keeps F r (State.homeWb s a_h m) := by
  unfold State.homeWb
  try lift_lets
  repeat' first
  | with_reducible assumption
  | exact Or.inl (by with_reducible assumption)
  | (refine Or.inr ?_; (repeat with_reducible apply Nat.le_add_right_of_le); first | decide | omega)
  | with_reducible rfl
  | with_reducible apply State.changeTxn_keeps
  | with_reducible apply State.staleWb_keeps
  | with_reducible apply State.tryClose_keeps
  | with_reducible apply State.homeWait_keeps
  | with_reducible apply State.openWb_keeps
  | with_reducible refine Keeps.ite ?_ ?_
  | with_reducible refine OptKeeps.get (by with_reducible assumption) ?_
  | with_reducible refine Keeps.elim ?_ ?_
  | with_reducible refine Keeps.foldl_fst ?_ _ _ ?_
  | with_reducible refine Keeps.foldl ?_ _ _ ?_
  | split
  | (with_reducible intro y)
  | (lift_lets; with_reducible intro y)
  | simp only [id]
  | dsimp only

theorem State.homeTake_keeps {F : List Kind} {r s : State} (kregs : Kind.regs ∈ F) (kmem : Kind.mem ∈ F) (kresp : Kind.resp ∈ F) (kout : Kind.out ∈ F) (knewtIrq : Kind.newtIrq ∈ F) (kfieldOps : Kind.fieldOps ∈ F) (kfiles : Kind.files ∈ F) (kaplic : Kind.aplic ∈ F) (kpaused : Kind.paused ∈ F) (kcsq : Kind.csq ∈ F) (kecc : Kind.ecc ∈ F) (kmc : Kind.mc ∈ F) (kpoison : Kind.poison ∈ F) (khomes : Kind.homes ∈ F) (ksf : Kind.sf ∈ F) (ksfPlru : Kind.sfPlru ∈ F) (kfaultN : Kind.faultN ∈ F) (ktxIdle : Kind.txIdle ∈ F) (kcaps : Kind.caps ∈ F) (kcapBusy : Kind.capBusy ∈ F) (h : Keeps F r s) (a_h : Nat) (k : CohKind) (m : CohMsg) :
    Keeps F r (State.homeTake s a_h k m) := by
  unfold State.homeTake
  try lift_lets
  repeat' first
  | with_reducible assumption
  | exact Or.inl (by with_reducible assumption)
  | (refine Or.inr ?_; (repeat with_reducible apply Nat.le_add_right_of_le); first | decide | omega)
  | with_reducible rfl
  | with_reducible apply State.homeWb_keeps
  | with_reducible apply State.homeWait_keeps
  | with_reducible apply State.openTxn_keeps
  | with_reducible refine Keeps.ite ?_ ?_
  | with_reducible refine OptKeeps.get (by with_reducible assumption) ?_
  | with_reducible refine Keeps.elim ?_ ?_
  | with_reducible refine Keeps.foldl_fst ?_ _ _ ?_
  | with_reducible refine Keeps.foldl ?_ _ _ ?_
  | split
  | (with_reducible intro y)
  | (lift_lets; with_reducible intro y)
  | simp only [id]
  | dsimp only

theorem State.homeRequest_keeps {F : List Kind} {r s : State} (kregs : Kind.regs ∈ F) (kmem : Kind.mem ∈ F) (kresp : Kind.resp ∈ F) (kout : Kind.out ∈ F) (knewtIrq : Kind.newtIrq ∈ F) (kfieldOps : Kind.fieldOps ∈ F) (kfiles : Kind.files ∈ F) (kaplic : Kind.aplic ∈ F) (kpaused : Kind.paused ∈ F) (kcsq : Kind.csq ∈ F) (kecc : Kind.ecc ∈ F) (kmc : Kind.mc ∈ F) (kpoison : Kind.poison ∈ F) (khomes : Kind.homes ∈ F) (ksf : Kind.sf ∈ F) (ksfPlru : Kind.sfPlru ∈ F) (kfaultN : Kind.faultN ∈ F) (ktxIdle : Kind.txIdle ∈ F) (kcaps : Kind.caps ∈ F) (kcapBusy : Kind.capBusy ∈ F) (h : Keeps F r s) (k : CohKind) (m : CohMsg) :
    ResKeeps F r (State.homeRequest s k m) := by
  unfold State.homeRequest
  try lift_lets
  repeat' first
  | with_reducible assumption
  | exact Or.inl (by with_reducible assumption)
  | (refine Or.inr ?_; (repeat with_reducible apply Nat.le_add_right_of_le); first | decide | omega)
  | with_reducible rfl
  | with_reducible apply State.fatalStop_keeps
  | with_reducible apply State.homeCorrect_keeps
  | with_reducible apply State.homeBad_keeps
  | with_reducible apply State.homeTake_keeps
  | with_reducible apply ResKeeps.next
  | with_reducible refine ResKeeps.ite ?_ ?_
  | with_reducible refine Keeps.ite ?_ ?_
  | with_reducible refine OptKeeps.get (by with_reducible assumption) ?_
  | with_reducible refine Keeps.elim ?_ ?_
  | with_reducible refine Keeps.foldl_fst ?_ _ _ ?_
  | with_reducible refine Keeps.foldl ?_ _ _ ?_
  | split
  | (with_reducible intro x; refine Keeps.cut (F := F) (r := r) (s := x) ?_ (fun hx => ?_); on_goal 2 => clear_value x)
  | (with_reducible intro x; refine Keeps.cut (F := F) (r := r) (s := x.1) ?_ (fun hx => ?_); on_goal 2 => clear_value x)
  | (with_reducible intro y)
  | (lift_lets; with_reducible intro x; refine Keeps.cut (F := F) (r := r) (s := x) ?_ (fun hx => ?_); on_goal 2 => clear_value x)
  | (lift_lets; with_reducible intro x; refine Keeps.cut (F := F) (r := r) (s := x.1) ?_ (fun hx => ?_); on_goal 2 => clear_value x)
  | (lift_lets; with_reducible intro y)
  | simp only [id]
  | dsimp only

theorem execRdS_keeps {F : List Kind} {r s : State} (kregs : Kind.regs ∈ F) (kmem : Kind.mem ∈ F) (kresp : Kind.resp ∈ F) (kout : Kind.out ∈ F) (knewtIrq : Kind.newtIrq ∈ F) (kfieldOps : Kind.fieldOps ∈ F) (kfiles : Kind.files ∈ F) (kaplic : Kind.aplic ∈ F) (kpaused : Kind.paused ∈ F) (kcsq : Kind.csq ∈ F) (kecc : Kind.ecc ∈ F) (kmc : Kind.mc ∈ F) (kpoison : Kind.poison ∈ F) (khomes : Kind.homes ∈ F) (ksf : Kind.sf ∈ F) (ksfPlru : Kind.sfPlru ∈ F) (kfaultN : Kind.faultN ∈ F) (ktxIdle : Kind.txIdle ∈ F) (kcaps : Kind.caps ∈ F) (kcapBusy : Kind.capBusy ∈ F) (h : Keeps F r s) (m : CohMsg) :
    ResKeeps F r (execRdS m s) := by
  unfold execRdS
  try lift_lets
  repeat' first
  | with_reducible assumption
  | with_reducible apply State.homeRequest_keeps

theorem execRdX_keeps {F : List Kind} {r s : State} (kregs : Kind.regs ∈ F) (kmem : Kind.mem ∈ F) (kresp : Kind.resp ∈ F) (kout : Kind.out ∈ F) (knewtIrq : Kind.newtIrq ∈ F) (kfieldOps : Kind.fieldOps ∈ F) (kfiles : Kind.files ∈ F) (kaplic : Kind.aplic ∈ F) (kpaused : Kind.paused ∈ F) (kcsq : Kind.csq ∈ F) (kecc : Kind.ecc ∈ F) (kmc : Kind.mc ∈ F) (kpoison : Kind.poison ∈ F) (khomes : Kind.homes ∈ F) (ksf : Kind.sf ∈ F) (ksfPlru : Kind.sfPlru ∈ F) (kfaultN : Kind.faultN ∈ F) (ktxIdle : Kind.txIdle ∈ F) (kcaps : Kind.caps ∈ F) (kcapBusy : Kind.capBusy ∈ F) (h : Keeps F r s) (m : CohMsg) :
    ResKeeps F r (execRdX m s) := by
  unfold execRdX
  try lift_lets
  repeat' first
  | with_reducible assumption
  | with_reducible apply State.homeRequest_keeps

theorem execUpg_keeps {F : List Kind} {r s : State} (kregs : Kind.regs ∈ F) (kmem : Kind.mem ∈ F) (kresp : Kind.resp ∈ F) (kout : Kind.out ∈ F) (knewtIrq : Kind.newtIrq ∈ F) (kfieldOps : Kind.fieldOps ∈ F) (kfiles : Kind.files ∈ F) (kaplic : Kind.aplic ∈ F) (kpaused : Kind.paused ∈ F) (kcsq : Kind.csq ∈ F) (kecc : Kind.ecc ∈ F) (kmc : Kind.mc ∈ F) (kpoison : Kind.poison ∈ F) (khomes : Kind.homes ∈ F) (ksf : Kind.sf ∈ F) (ksfPlru : Kind.sfPlru ∈ F) (kfaultN : Kind.faultN ∈ F) (ktxIdle : Kind.txIdle ∈ F) (kcaps : Kind.caps ∈ F) (kcapBusy : Kind.capBusy ∈ F) (h : Keeps F r s) (m : CohMsg) :
    ResKeeps F r (execUpg m s) := by
  unfold execUpg
  try lift_lets
  repeat' first
  | with_reducible assumption
  | with_reducible apply State.homeRequest_keeps

theorem execWb_keeps {F : List Kind} {r s : State} (kregs : Kind.regs ∈ F) (kmem : Kind.mem ∈ F) (kresp : Kind.resp ∈ F) (kout : Kind.out ∈ F) (knewtIrq : Kind.newtIrq ∈ F) (kfieldOps : Kind.fieldOps ∈ F) (kfiles : Kind.files ∈ F) (kaplic : Kind.aplic ∈ F) (kpaused : Kind.paused ∈ F) (kcsq : Kind.csq ∈ F) (kecc : Kind.ecc ∈ F) (kmc : Kind.mc ∈ F) (kpoison : Kind.poison ∈ F) (khomes : Kind.homes ∈ F) (ksf : Kind.sf ∈ F) (ksfPlru : Kind.sfPlru ∈ F) (kfaultN : Kind.faultN ∈ F) (ktxIdle : Kind.txIdle ∈ F) (kcaps : Kind.caps ∈ F) (kcapBusy : Kind.capBusy ∈ F) (h : Keeps F r s) (m : CohMsg) :
    ResKeeps F r (execWb m s) := by
  unfold execWb
  try lift_lets
  repeat' first
  | with_reducible assumption
  | with_reducible apply State.homeRequest_keeps

theorem execCmo_keeps {F : List Kind} {r s : State} (kregs : Kind.regs ∈ F) (kmem : Kind.mem ∈ F) (kresp : Kind.resp ∈ F) (kout : Kind.out ∈ F) (knewtIrq : Kind.newtIrq ∈ F) (kfieldOps : Kind.fieldOps ∈ F) (kfiles : Kind.files ∈ F) (kaplic : Kind.aplic ∈ F) (kpaused : Kind.paused ∈ F) (kcsq : Kind.csq ∈ F) (kecc : Kind.ecc ∈ F) (kmc : Kind.mc ∈ F) (kpoison : Kind.poison ∈ F) (khomes : Kind.homes ∈ F) (ksf : Kind.sf ∈ F) (ksfPlru : Kind.sfPlru ∈ F) (kfaultN : Kind.faultN ∈ F) (ktxIdle : Kind.txIdle ∈ F) (kcaps : Kind.caps ∈ F) (kcapBusy : Kind.capBusy ∈ F) (h : Keeps F r s) (m : CohMsg) :
    ResKeeps F r (execCmo m s) := by
  unfold execCmo
  try lift_lets
  repeat' first
  | with_reducible assumption
  | with_reducible apply State.homeRequest_keeps

theorem execNcRd_keeps {F : List Kind} {r s : State} (kregs : Kind.regs ∈ F) (kmem : Kind.mem ∈ F) (kresp : Kind.resp ∈ F) (kout : Kind.out ∈ F) (knewtIrq : Kind.newtIrq ∈ F) (kfieldOps : Kind.fieldOps ∈ F) (kfiles : Kind.files ∈ F) (kaplic : Kind.aplic ∈ F) (kpaused : Kind.paused ∈ F) (kcsq : Kind.csq ∈ F) (kecc : Kind.ecc ∈ F) (kmc : Kind.mc ∈ F) (kpoison : Kind.poison ∈ F) (khomes : Kind.homes ∈ F) (ksf : Kind.sf ∈ F) (ksfPlru : Kind.sfPlru ∈ F) (kfaultN : Kind.faultN ∈ F) (ktxIdle : Kind.txIdle ∈ F) (kcaps : Kind.caps ∈ F) (kcapBusy : Kind.capBusy ∈ F) (h : Keeps F r s) (m : CohMsg) :
    ResKeeps F r (execNcRd m s) := by
  unfold execNcRd
  try lift_lets
  repeat' first
  | with_reducible assumption
  | with_reducible apply State.homeRequest_keeps

theorem execNcWr_keeps {F : List Kind} {r s : State} (kregs : Kind.regs ∈ F) (kmem : Kind.mem ∈ F) (kresp : Kind.resp ∈ F) (kout : Kind.out ∈ F) (knewtIrq : Kind.newtIrq ∈ F) (kfieldOps : Kind.fieldOps ∈ F) (kfiles : Kind.files ∈ F) (kaplic : Kind.aplic ∈ F) (kpaused : Kind.paused ∈ F) (kcsq : Kind.csq ∈ F) (kecc : Kind.ecc ∈ F) (kmc : Kind.mc ∈ F) (kpoison : Kind.poison ∈ F) (khomes : Kind.homes ∈ F) (ksf : Kind.sf ∈ F) (ksfPlru : Kind.sfPlru ∈ F) (kfaultN : Kind.faultN ∈ F) (ktxIdle : Kind.txIdle ∈ F) (kcaps : Kind.caps ∈ F) (kcapBusy : Kind.capBusy ∈ F) (h : Keeps F r s) (m : CohMsg) :
    ResKeeps F r (execNcWr m s) := by
  unfold execNcWr
  try lift_lets
  repeat' first
  | with_reducible assumption
  | with_reducible apply State.homeRequest_keeps

theorem execHomeTxnStart_keeps {F : List Kind} {r s : State} (kregs : Kind.regs ∈ F) (kmem : Kind.mem ∈ F) (kresp : Kind.resp ∈ F) (kout : Kind.out ∈ F) (knewtIrq : Kind.newtIrq ∈ F) (kfieldOps : Kind.fieldOps ∈ F) (kfiles : Kind.files ∈ F) (kaplic : Kind.aplic ∈ F) (kpaused : Kind.paused ∈ F) (kcsq : Kind.csq ∈ F) (kecc : Kind.ecc ∈ F) (kmc : Kind.mc ∈ F) (kpoison : Kind.poison ∈ F) (khomes : Kind.homes ∈ F) (ksf : Kind.sf ∈ F) (ksfPlru : Kind.sfPlru ∈ F) (kfaultN : Kind.faultN ∈ F) (ktxIdle : Kind.txIdle ∈ F) (kcaps : Kind.caps ∈ F) (kcapBusy : Kind.capBusy ∈ F) (h : Keeps F r s) (home : Fin 32) (line : Nat) :
    ResKeeps F r (execHomeTxnStart home line s) := by
  unfold execHomeTxnStart
  try lift_lets
  repeat' first
  | with_reducible assumption
  | exact Or.inl (by with_reducible assumption)
  | (refine Or.inr ?_; (repeat with_reducible apply Nat.le_add_right_of_le); first | decide | omega)
  | with_reducible rfl
  | with_reducible apply State.fatalStop_keeps
  | with_reducible apply State.homeCorrect_keeps
  | with_reducible apply State.setHome_keeps
  | with_reducible apply State.homeSync_keeps
  | with_reducible apply State.openWb_keeps
  | with_reducible apply State.homeAdmit_keeps
  | with_reducible apply State.openTxn_keeps
  | with_reducible apply ResKeeps.next
  | with_reducible refine ResKeeps.ite ?_ ?_
  | with_reducible refine Keeps.ite ?_ ?_
  | with_reducible refine OptKeeps.get (by with_reducible assumption) ?_
  | with_reducible refine Keeps.elim ?_ ?_
  | with_reducible refine Keeps.foldl_fst ?_ _ _ ?_
  | with_reducible refine Keeps.foldl ?_ _ _ ?_
  | split
  | (with_reducible intro x; refine Keeps.cut (F := F) (r := r) (s := x) ?_ (fun hx => ?_); on_goal 2 => clear_value x)
  | (with_reducible intro x; refine Keeps.cut (F := F) (r := r) (s := x.1) ?_ (fun hx => ?_); on_goal 2 => clear_value x)
  | (with_reducible intro y)
  | (lift_lets; with_reducible intro x; refine Keeps.cut (F := F) (r := r) (s := x) ?_ (fun hx => ?_); on_goal 2 => clear_value x)
  | (lift_lets; with_reducible intro x; refine Keeps.cut (F := F) (r := r) (s := x.1) ?_ (fun hx => ?_); on_goal 2 => clear_value x)
  | (lift_lets; with_reducible intro y)
  | simp only [id]
  | dsimp only

theorem execFilterAllocRetry_keeps {F : List Kind} {r s : State} (kregs : Kind.regs ∈ F) (kmem : Kind.mem ∈ F) (kresp : Kind.resp ∈ F) (kout : Kind.out ∈ F) (knewtIrq : Kind.newtIrq ∈ F) (kfieldOps : Kind.fieldOps ∈ F) (kfiles : Kind.files ∈ F) (kaplic : Kind.aplic ∈ F) (kpaused : Kind.paused ∈ F) (kcsq : Kind.csq ∈ F) (kecc : Kind.ecc ∈ F) (kmc : Kind.mc ∈ F) (kpoison : Kind.poison ∈ F) (khomes : Kind.homes ∈ F) (ksf : Kind.sf ∈ F) (ksfPlru : Kind.sfPlru ∈ F) (kfaultN : Kind.faultN ∈ F) (ktxIdle : Kind.txIdle ∈ F) (kcaps : Kind.caps ∈ F) (kcapBusy : Kind.capBusy ∈ F) (h : Keeps F r s) (home : Fin 32) (line : Nat) :
    ResKeeps F r (execFilterAllocRetry home line s) := by
  unfold execFilterAllocRetry
  try lift_lets
  repeat' first
  | with_reducible assumption
  | exact Or.inl (by with_reducible assumption)
  | (refine Or.inr ?_; (repeat with_reducible apply Nat.le_add_right_of_le); first | decide | omega)
  | with_reducible rfl
  | with_reducible apply State.fatalStop_keeps
  | with_reducible apply State.inc_keeps
  | with_reducible apply State.haEvent_keeps
  | with_reducible apply State.pmc_keeps
  | with_reducible apply State.sfAlloc_keeps
  | with_reducible apply State.changeTxn_keeps
  | with_reducible apply State.tryReply_keeps
  | with_reducible apply ResKeeps.next
  | with_reducible refine ResKeeps.ite ?_ ?_
  | with_reducible refine Keeps.ite ?_ ?_
  | with_reducible refine OptKeeps.get (by with_reducible assumption) ?_
  | with_reducible refine Keeps.elim ?_ ?_
  | with_reducible refine Keeps.foldl_fst ?_ _ _ ?_
  | with_reducible refine Keeps.foldl ?_ _ _ ?_
  | split
  | (with_reducible intro y)
  | (lift_lets; with_reducible intro y)
  | simp only [id]
  | dsimp only

theorem State.afterResponse_keeps {F : List Kind} {r s : State} (kregs : Kind.regs ∈ F) (kmem : Kind.mem ∈ F) (kresp : Kind.resp ∈ F) (kout : Kind.out ∈ F) (knewtIrq : Kind.newtIrq ∈ F) (kfieldOps : Kind.fieldOps ∈ F) (kfiles : Kind.files ∈ F) (kaplic : Kind.aplic ∈ F) (kpaused : Kind.paused ∈ F) (kcsq : Kind.csq ∈ F) (kecc : Kind.ecc ∈ F) (kmc : Kind.mc ∈ F) (kpoison : Kind.poison ∈ F) (khomes : Kind.homes ∈ F) (ksf : Kind.sf ∈ F) (ksfPlru : Kind.sfPlru ∈ F) (kfaultN : Kind.faultN ∈ F) (ktxIdle : Kind.txIdle ∈ F) (kcaps : Kind.caps ∈ F) (kcapBusy : Kind.capBusy ∈ F) (h : Keeps F r s) (a_h : Nat) (l : Nat) (e : Nat) :
    Keeps F r (State.afterResponse s a_h l e) := by
  unfold State.afterResponse
  try lift_lets
  repeat' first
  | with_reducible assumption
  | exact Or.inl (by with_reducible assumption)
  | (refine Or.inr ?_; (repeat with_reducible apply Nat.le_add_right_of_le); first | decide | omega)
  | with_reducible rfl
  | with_reducible apply State.setHome_keeps
  | with_reducible apply State.changeTxn_keeps
  | with_reducible apply State.forAll_keeps
  | with_reducible apply State.homeWb_keeps
  | with_reducible apply State.homeSync_keeps
  | with_reducible apply State.tryReply_keeps
  | with_reducible refine Keeps.ite ?_ ?_
  | with_reducible refine OptKeeps.get (by with_reducible assumption) ?_
  | with_reducible refine Keeps.elim ?_ ?_
  | with_reducible refine Keeps.foldl_fst ?_ _ _ ?_
  | with_reducible refine Keeps.foldl ?_ _ _ ?_
  | split
  | (with_reducible intro x; refine Keeps.cut (F := F) (r := r) (s := x) ?_ (fun hx => ?_); on_goal 2 => clear_value x)
  | (with_reducible intro x; refine Keeps.cut (F := F) (r := r) (s := x.1) ?_ (fun hx => ?_); on_goal 2 => clear_value x)
  | (with_reducible intro y)
  | (lift_lets; with_reducible intro x; refine Keeps.cut (F := F) (r := r) (s := x) ?_ (fun hx => ?_); on_goal 2 => clear_value x)
  | (lift_lets; with_reducible intro x; refine Keeps.cut (F := F) (r := r) (s := x.1) ?_ (fun hx => ?_); on_goal 2 => clear_value x)
  | (lift_lets; with_reducible intro y)
  | simp only [id]
  | dsimp only

theorem State.homeResponse_keeps {F : List Kind} {r s : State} (kregs : Kind.regs ∈ F) (kmem : Kind.mem ∈ F) (kresp : Kind.resp ∈ F) (kout : Kind.out ∈ F) (knewtIrq : Kind.newtIrq ∈ F) (kfieldOps : Kind.fieldOps ∈ F) (kfiles : Kind.files ∈ F) (kaplic : Kind.aplic ∈ F) (kpaused : Kind.paused ∈ F) (kcsq : Kind.csq ∈ F) (kecc : Kind.ecc ∈ F) (kmc : Kind.mc ∈ F) (kpoison : Kind.poison ∈ F) (khomes : Kind.homes ∈ F) (ksf : Kind.sf ∈ F) (ksfPlru : Kind.sfPlru ∈ F) (kfaultN : Kind.faultN ∈ F) (ktxIdle : Kind.txIdle ∈ F) (kcaps : Kind.caps ∈ F) (kcapBusy : Kind.capBusy ∈ F) (h : Keeps F r s) (k : CohKind) (m : CohMsg) :
    ResKeeps F r (State.homeResponse s k m) := by
  unfold State.homeResponse
  try lift_lets
  repeat' first
  | with_reducible assumption
  | exact Or.inl (by with_reducible assumption)
  | (refine Or.inr ?_; (repeat with_reducible apply Nat.le_add_right_of_le); first | decide | omega)
  | with_reducible rfl
  | with_reducible apply State.fatalStop_keeps
  | with_reducible apply State.homeCorrect_keeps
  | with_reducible apply State.homeBad_keeps
  | with_reducible apply State.sfRemove_keeps
  | with_reducible apply State.changeTxn_keeps
  | with_reducible apply State.txnWrites_keeps
  | with_reducible apply State.afterResponse_keeps
  | with_reducible apply ResKeeps.next
  | with_reducible refine ResKeeps.ite ?_ ?_
  | with_reducible refine Keeps.ite ?_ ?_
  | with_reducible refine OptKeeps.get (by with_reducible assumption) ?_
  | with_reducible refine Keeps.elim ?_ ?_
  | with_reducible refine Keeps.foldl_fst ?_ _ _ ?_
  | with_reducible refine Keeps.foldl ?_ _ _ ?_
  | split
  | (with_reducible intro x; refine Keeps.cut (F := F) (r := r) (s := x) ?_ (fun hx => ?_); on_goal 2 => clear_value x)
  | (with_reducible intro x; refine Keeps.cut (F := F) (r := r) (s := x.1) ?_ (fun hx => ?_); on_goal 2 => clear_value x)
  | (with_reducible intro y)
  | (lift_lets; with_reducible intro x; refine Keeps.cut (F := F) (r := r) (s := x) ?_ (fun hx => ?_); on_goal 2 => clear_value x)
  | (lift_lets; with_reducible intro x; refine Keeps.cut (F := F) (r := r) (s := x.1) ?_ (fun hx => ?_); on_goal 2 => clear_value x)
  | (lift_lets; with_reducible intro y)
  | simp only [id]
  | dsimp only

theorem execRspI_keeps {F : List Kind} {r s : State} (kregs : Kind.regs ∈ F) (kmem : Kind.mem ∈ F) (kresp : Kind.resp ∈ F) (kout : Kind.out ∈ F) (knewtIrq : Kind.newtIrq ∈ F) (kfieldOps : Kind.fieldOps ∈ F) (kfiles : Kind.files ∈ F) (kaplic : Kind.aplic ∈ F) (kpaused : Kind.paused ∈ F) (kcsq : Kind.csq ∈ F) (kecc : Kind.ecc ∈ F) (kmc : Kind.mc ∈ F) (kpoison : Kind.poison ∈ F) (khomes : Kind.homes ∈ F) (ksf : Kind.sf ∈ F) (ksfPlru : Kind.sfPlru ∈ F) (kfaultN : Kind.faultN ∈ F) (ktxIdle : Kind.txIdle ∈ F) (kcaps : Kind.caps ∈ F) (kcapBusy : Kind.capBusy ∈ F) (h : Keeps F r s) (m : CohMsg) :
    ResKeeps F r (execRspI m s) := by
  unfold execRspI
  try lift_lets
  repeat' first
  | with_reducible assumption
  | with_reducible apply State.homeResponse_keeps

theorem execRspK_keeps {F : List Kind} {r s : State} (kregs : Kind.regs ∈ F) (kmem : Kind.mem ∈ F) (kresp : Kind.resp ∈ F) (kout : Kind.out ∈ F) (knewtIrq : Kind.newtIrq ∈ F) (kfieldOps : Kind.fieldOps ∈ F) (kfiles : Kind.files ∈ F) (kaplic : Kind.aplic ∈ F) (kpaused : Kind.paused ∈ F) (kcsq : Kind.csq ∈ F) (kecc : Kind.ecc ∈ F) (kmc : Kind.mc ∈ F) (kpoison : Kind.poison ∈ F) (khomes : Kind.homes ∈ F) (ksf : Kind.sf ∈ F) (ksfPlru : Kind.sfPlru ∈ F) (kfaultN : Kind.faultN ∈ F) (ktxIdle : Kind.txIdle ∈ F) (kcaps : Kind.caps ∈ F) (kcapBusy : Kind.capBusy ∈ F) (h : Keeps F r s) (m : CohMsg) :
    ResKeeps F r (execRspK m s) := by
  unfold execRspK
  try lift_lets
  repeat' first
  | with_reducible assumption
  | with_reducible apply State.homeResponse_keeps

theorem execRspId_keeps {F : List Kind} {r s : State} (kregs : Kind.regs ∈ F) (kmem : Kind.mem ∈ F) (kresp : Kind.resp ∈ F) (kout : Kind.out ∈ F) (knewtIrq : Kind.newtIrq ∈ F) (kfieldOps : Kind.fieldOps ∈ F) (kfiles : Kind.files ∈ F) (kaplic : Kind.aplic ∈ F) (kpaused : Kind.paused ∈ F) (kcsq : Kind.csq ∈ F) (kecc : Kind.ecc ∈ F) (kmc : Kind.mc ∈ F) (kpoison : Kind.poison ∈ F) (khomes : Kind.homes ∈ F) (ksf : Kind.sf ∈ F) (ksfPlru : Kind.sfPlru ∈ F) (kfaultN : Kind.faultN ∈ F) (ktxIdle : Kind.txIdle ∈ F) (kcaps : Kind.caps ∈ F) (kcapBusy : Kind.capBusy ∈ F) (h : Keeps F r s) (m : CohMsg) :
    ResKeeps F r (execRspId m s) := by
  unfold execRspId
  try lift_lets
  repeat' first
  | with_reducible assumption
  | with_reducible apply State.homeResponse_keeps

theorem execRspKd_keeps {F : List Kind} {r s : State} (kregs : Kind.regs ∈ F) (kmem : Kind.mem ∈ F) (kresp : Kind.resp ∈ F) (kout : Kind.out ∈ F) (knewtIrq : Kind.newtIrq ∈ F) (kfieldOps : Kind.fieldOps ∈ F) (kfiles : Kind.files ∈ F) (kaplic : Kind.aplic ∈ F) (kpaused : Kind.paused ∈ F) (kcsq : Kind.csq ∈ F) (kecc : Kind.ecc ∈ F) (kmc : Kind.mc ∈ F) (kpoison : Kind.poison ∈ F) (khomes : Kind.homes ∈ F) (ksf : Kind.sf ∈ F) (ksfPlru : Kind.sfPlru ∈ F) (kfaultN : Kind.faultN ∈ F) (ktxIdle : Kind.txIdle ∈ F) (kcaps : Kind.caps ∈ F) (kcapBusy : Kind.capBusy ∈ F) (h : Keeps F r s) (m : CohMsg) :
    ResKeeps F r (execRspKd m s) := by
  unfold execRspKd
  try lift_lets
  repeat' first
  | with_reducible assumption
  | with_reducible apply State.homeResponse_keeps

theorem execRspEvd_keeps {F : List Kind} {r s : State} (kregs : Kind.regs ∈ F) (kmem : Kind.mem ∈ F) (kresp : Kind.resp ∈ F) (kout : Kind.out ∈ F) (knewtIrq : Kind.newtIrq ∈ F) (kfieldOps : Kind.fieldOps ∈ F) (kfiles : Kind.files ∈ F) (kaplic : Kind.aplic ∈ F) (kpaused : Kind.paused ∈ F) (kcsq : Kind.csq ∈ F) (kecc : Kind.ecc ∈ F) (kmc : Kind.mc ∈ F) (kpoison : Kind.poison ∈ F) (khomes : Kind.homes ∈ F) (ksf : Kind.sf ∈ F) (ksfPlru : Kind.sfPlru ∈ F) (kfaultN : Kind.faultN ∈ F) (ktxIdle : Kind.txIdle ∈ F) (kcaps : Kind.caps ∈ F) (kcapBusy : Kind.capBusy ∈ F) (h : Keeps F r s) (m : CohMsg) :
    ResKeeps F r (execRspEvd m s) := by
  unfold execRspEvd
  try lift_lets
  repeat' first
  | with_reducible assumption
  | with_reducible apply State.homeResponse_keeps

theorem execFack_keeps {F : List Kind} {r s : State} (kregs : Kind.regs ∈ F) (kout : Kind.out ∈ F) (knewtIrq : Kind.newtIrq ∈ F) (kfieldOps : Kind.fieldOps ∈ F) (kpaused : Kind.paused ∈ F) (kcsq : Kind.csq ∈ F) (kecc : Kind.ecc ∈ F) (khomes : Kind.homes ∈ F) (ksf : Kind.sf ∈ F) (ksfPlru : Kind.sfPlru ∈ F) (kfaultN : Kind.faultN ∈ F) (ktxIdle : Kind.txIdle ∈ F) (kcaps : Kind.caps ∈ F) (kcapBusy : Kind.capBusy ∈ F) (h : Keeps F r s) (m : CohMsg) :
    ResKeeps F r (execFack m s) := by
  unfold execFack
  try lift_lets
  repeat' first
  | with_reducible assumption
  | exact Or.inl (by with_reducible assumption)
  | (refine Or.inr ?_; (repeat with_reducible apply Nat.le_add_right_of_le); first | decide | omega)
  | with_reducible rfl
  | with_reducible apply State.fatalStop_keeps
  | with_reducible apply State.homeCorrect_keeps
  | with_reducible apply State.homeBad_keeps
  | with_reducible apply State.changeTxn_keeps
  | with_reducible apply State.tryClose_keeps
  | with_reducible apply ResKeeps.next
  | with_reducible refine ResKeeps.ite ?_ ?_
  | with_reducible refine Keeps.ite ?_ ?_
  | with_reducible refine OptKeeps.get (by with_reducible assumption) ?_
  | with_reducible refine Keeps.elim ?_ ?_
  | with_reducible refine Keeps.foldl_fst ?_ _ _ ?_
  | with_reducible refine Keeps.foldl ?_ _ _ ?_
  | split
  | (with_reducible intro x; refine Keeps.cut (F := F) (r := r) (s := x) ?_ (fun hx => ?_); on_goal 2 => clear_value x)
  | (with_reducible intro x; refine Keeps.cut (F := F) (r := r) (s := x.1) ?_ (fun hx => ?_); on_goal 2 => clear_value x)
  | (with_reducible intro y)
  | (lift_lets; with_reducible intro x; refine Keeps.cut (F := F) (r := r) (s := x) ?_ (fun hx => ?_); on_goal 2 => clear_value x)
  | (lift_lets; with_reducible intro x; refine Keeps.cut (F := F) (r := r) (s := x.1) ?_ (fun hx => ?_); on_goal 2 => clear_value x)
  | (lift_lets; with_reducible intro y)
  | simp only [id]
  | dsimp only

theorem execSnoopTimeout_keeps {F : List Kind} {r s : State} (kregs : Kind.regs ∈ F) (kup : Kind.up ∈ F) (kresp : Kind.resp ∈ F) (knewtIrq : Kind.newtIrq ∈ F) (kfieldOps : Kind.fieldOps ∈ F) (ktb : Kind.tb ∈ F) (kfiles : Kind.files ∈ F) (kaplic : Kind.aplic ∈ F) (kpaused : Kind.paused ∈ F) (kcsq : Kind.csq ∈ F) (kfaultN : Kind.faultN ∈ F) (ktxIdle : Kind.txIdle ∈ F) (kcaps : Kind.caps ∈ F) (kcapBusy : Kind.capBusy ∈ F) (h : Keeps F r s) (home : Fin 32) (line : Nat) :
    ResKeeps F r (execSnoopTimeout home line s) := by
  unfold execSnoopTimeout
  try lift_lets
  repeat' first
  | with_reducible assumption
  | (intro x; clear_value x)
  | with_reducible apply State.elapseUntil_keeps
  | with_reducible apply State.fatalStop_keeps
  | (refine OptKeeps.get (by with_reducible assumption) ?_)
  | with_reducible apply ResKeeps.next
  | split

theorem State.homeMemData_keeps {F : List Kind} {r s : State} (kregs : Kind.regs ∈ F) (kmem : Kind.mem ∈ F) (kout : Kind.out ∈ F) (knewtIrq : Kind.newtIrq ∈ F) (kfieldOps : Kind.fieldOps ∈ F) (kpaused : Kind.paused ∈ F) (kcsq : Kind.csq ∈ F) (kecc : Kind.ecc ∈ F) (kmc : Kind.mc ∈ F) (kpoison : Kind.poison ∈ F) (khomes : Kind.homes ∈ F) (ksf : Kind.sf ∈ F) (ksfPlru : Kind.sfPlru ∈ F) (kfaultN : Kind.faultN ∈ F) (ktxIdle : Kind.txIdle ∈ F) (kcaps : Kind.caps ∈ F) (kcapBusy : Kind.capBusy ∈ F) (h : Keeps F r s) (l : Nat) (id : Nat) (a : LineAns) :
    Keeps F r (State.homeMemData s l id a) := by
  unfold State.homeMemData
  try lift_lets
  repeat' first
  | with_reducible assumption
  | exact Or.inl (by with_reducible assumption)
  | (refine Or.inr ?_; (repeat with_reducible apply Nat.le_add_right_of_le); first | decide | omega)
  | with_reducible rfl
  | (with_reducible refine Keeps.upd ?_ rfl rfl rfl rfl rfl rfl rfl rfl ?_ ?_ ?_ ?_ ?_ ?_ ?_ ?_ ?_ ?_ ?_ ?_ ?_ ?_ ?_ ?_ ?_ ?_ ?_ ?_ ?_ ?_ ?_ ?_ ?_ ?_ ?_ ?_ ?_ ?_ ?_ ?_ ?_ ?_ ?_ ?_ ?_ ?_ ?_ ?_ ?_ ?_ ?_ ?_ ?_ ?_ ?_ ?_ ?_ ?_ ?_ ?_ ?_ ?_ ?_ ?_ ?_ ?_ ?_ ?_ ?_ ?_ ?_ <;> first | with_reducible assumption | with_reducible exact Or.inr rfl | with_reducible exact Or.inl (by assumption) | with_reducible apply State.fatalStop_keeps | with_reducible apply State.homeCorrect_keeps | with_reducible apply State.changeTxn_keeps | with_reducible apply State.tryReply_keeps)
  | with_reducible apply State.fatalStop_keeps
  | with_reducible apply State.homeCorrect_keeps
  | with_reducible apply State.changeTxn_keeps
  | with_reducible apply State.tryReply_keeps
  | with_reducible refine Keeps.ite ?_ ?_
  | with_reducible refine OptKeeps.get (by with_reducible assumption) ?_
  | with_reducible refine Keeps.elim ?_ ?_
  | with_reducible refine Keeps.foldl_fst ?_ _ _ ?_
  | with_reducible refine Keeps.foldl ?_ _ _ ?_
  | split
  | (with_reducible intro x; refine Keeps.cut (F := F) (r := r) (s := x) ?_ (fun hx => ?_); on_goal 2 => clear_value x)
  | (with_reducible intro x; refine Keeps.cut (F := F) (r := r) (s := x.1) ?_ (fun hx => ?_); on_goal 2 => clear_value x)
  | (with_reducible intro y)
  | (lift_lets; with_reducible intro x; refine Keeps.cut (F := F) (r := r) (s := x) ?_ (fun hx => ?_); on_goal 2 => clear_value x)
  | (lift_lets; with_reducible intro x; refine Keeps.cut (F := F) (r := r) (s := x.1) ?_ (fun hx => ?_); on_goal 2 => clear_value x)
  | (lift_lets; with_reducible intro y)
  | simp only [id]
  | dsimp only

theorem State.homesRetry_keeps {F : List Kind} {r s : State} (kregs : Kind.regs ∈ F) (kmem : Kind.mem ∈ F) (kout : Kind.out ∈ F) (knewtIrq : Kind.newtIrq ∈ F) (kfieldOps : Kind.fieldOps ∈ F) (kpaused : Kind.paused ∈ F) (kecc : Kind.ecc ∈ F) (kmc : Kind.mc ∈ F) (kpoison : Kind.poison ∈ F) (khomes : Kind.homes ∈ F) (ksf : Kind.sf ∈ F) (ksfPlru : Kind.sfPlru ∈ F) (kcaps : Kind.caps ∈ F) (kcapBusy : Kind.capBusy ∈ F) (h : Keeps F r s) (mc : Nat) :
    Keeps F r (State.homesRetry s mc) := by
  unfold State.homesRetry
  try lift_lets
  repeat' first
  | with_reducible assumption
  | exact Or.inl (by with_reducible assumption)
  | (refine Or.inr ?_; (repeat with_reducible apply Nat.le_add_right_of_le); first | decide | omega)
  | with_reducible rfl
  | with_reducible apply State.forAll_keeps
  | with_reducible apply State.txnWrites_keeps
  | with_reducible apply State.tryReply_keeps
  | with_reducible refine Keeps.ite ?_ ?_
  | with_reducible refine OptKeeps.get (by with_reducible assumption) ?_
  | with_reducible refine Keeps.elim ?_ ?_
  | with_reducible refine Keeps.foldl_fst ?_ _ _ ?_
  | with_reducible refine Keeps.foldl ?_ _ _ ?_
  | split
  | (with_reducible intro y)
  | (lift_lets; with_reducible intro y)
  | simp only [id]
  | dsimp only

theorem State.consumePoison_keeps {F : List Kind} {r s : State} (kregs : Kind.regs ∈ F) (kresp : Kind.resp ∈ F) (knewtIrq : Kind.newtIrq ∈ F) (kfieldOps : Kind.fieldOps ∈ F) (kpaused : Kind.paused ∈ F) (kcaps : Kind.caps ∈ F) (kcapBusy : Kind.capBusy ∈ F) (h : Keeps F r s) (a : Access) :
    Keeps F r (State.consumePoison s a) := by
  unfold State.consumePoison
  try lift_lets
  repeat' first
  | with_reducible assumption
  | with_reducible apply State.answer_keeps
  | with_reducible apply State.logRec_keeps

theorem State.unreserve_keeps {F : List Kind} {r s : State} (kecc : Kind.ecc ∈ F) (kcache : Kind.cache ∈ F) (h : Keeps F r s) (d : Nat) (k : Nat) :
    Keeps F r (State.unreserve s d k) := by
  unfold State.unreserve
  try lift_lets
  repeat' first
  | with_reducible assumption
  | exact Or.inl (by with_reducible assumption)
  | (refine Or.inr ?_; (repeat with_reducible apply Nat.le_add_right_of_le); first | decide | omega)
  | with_reducible rfl
  | with_reducible apply State.forAll_keeps
  | with_reducible apply State.setCline_keeps
  | with_reducible refine Keeps.ite ?_ ?_
  | with_reducible refine OptKeeps.get (by with_reducible assumption) ?_
  | with_reducible refine Keeps.elim ?_ ?_
  | with_reducible refine Keeps.foldl_fst ?_ _ _ ?_
  | with_reducible refine Keeps.foldl ?_ _ _ ?_
  | split
  | (with_reducible intro x; refine Keeps.cut (F := F) (r := r) (s := x) ?_ (fun hx => ?_); on_goal 2 => clear_value x)
  | (with_reducible intro x; refine Keeps.cut (F := F) (r := r) (s := x.1) ?_ (fun hx => ?_); on_goal 2 => clear_value x)
  | (with_reducible intro y)
  | (lift_lets; with_reducible intro x; refine Keeps.cut (F := F) (r := r) (s := x) ?_ (fun hx => ?_); on_goal 2 => clear_value x)
  | (lift_lets; with_reducible intro x; refine Keeps.cut (F := F) (r := r) (s := x.1) ?_ (fun hx => ?_); on_goal 2 => clear_value x)
  | (lift_lets; with_reducible intro y)
  | simp only [id]
  | dsimp only

theorem State.loadDone_keeps {F : List Kind} {r s : State} (kregs : Kind.regs ∈ F) (kresp : Kind.resp ∈ F) (knewtIrq : Kind.newtIrq ∈ F) (kfieldOps : Kind.fieldOps ∈ F) (kpaused : Kind.paused ∈ F) (kecc : Kind.ecc ∈ F) (kcache : Kind.cache ∈ F) (kcaps : Kind.caps ∈ F) (kcapBusy : Kind.capBusy ∈ F) (h : Keeps F r s) (a : Access) (x : CLine) :
    Keeps F r (State.loadDone s a x) := by
  unfold State.loadDone
  try lift_lets
  repeat' first
  | with_reducible assumption
  | exact Or.inl (by with_reducible assumption)
  | (refine Or.inr ?_; (repeat with_reducible apply Nat.le_add_right_of_le); first | decide | omega)
  | with_reducible rfl
  | with_reducible apply State.consumePoison_keeps
  | with_reducible apply State.unreserve_keeps
  | with_reducible apply State.changeCopy_keeps
  | with_reducible apply State.answer_keeps
  | with_reducible refine Keeps.ite ?_ ?_
  | with_reducible refine OptKeeps.get (by with_reducible assumption) ?_
  | with_reducible refine Keeps.elim ?_ ?_
  | with_reducible refine Keeps.foldl_fst ?_ _ _ ?_
  | with_reducible refine Keeps.foldl ?_ _ _ ?_
  | split
  | (with_reducible intro x; refine Keeps.cut (F := F) (r := r) (s := x) ?_ (fun hx => ?_); on_goal 2 => clear_value x)
  | (with_reducible intro x; refine Keeps.cut (F := F) (r := r) (s := x.1) ?_ (fun hx => ?_); on_goal 2 => clear_value x)
  | (with_reducible intro y)
  | (lift_lets; with_reducible intro x; refine Keeps.cut (F := F) (r := r) (s := x) ?_ (fun hx => ?_); on_goal 2 => clear_value x)
  | (lift_lets; with_reducible intro x; refine Keeps.cut (F := F) (r := r) (s := x.1) ?_ (fun hx => ?_); on_goal 2 => clear_value x)
  | (lift_lets; with_reducible intro y)
  | simp only [id]
  | dsimp only

theorem State.readFromL2_keeps {F : List Kind} {r s : State} (kregs : Kind.regs ∈ F) (kresp : Kind.resp ∈ F) (knewtIrq : Kind.newtIrq ∈ F) (kfieldOps : Kind.fieldOps ∈ F) (kpaused : Kind.paused ∈ F) (kecc : Kind.ecc ∈ F) (kcache : Kind.cache ∈ F) (kplru : Kind.plru ∈ F) (kcaps : Kind.caps ∈ F) (kcapBusy : Kind.capBusy ∈ F) (h : Keeps F r s) (a : Access) :
    Keeps F r (State.readFromL2 s a) := by
  unfold State.readFromL2
  try lift_lets
  repeat' first
  | with_reducible assumption
  | exact Or.inl (by with_reducible assumption)
  | (refine Or.inr ?_; (repeat with_reducible apply Nat.le_add_right_of_le); first | decide | omega)
  | with_reducible rfl
  | with_reducible apply State.collapse_keeps
  | with_reducible apply State.hit_keeps
  | with_reducible apply State.fillL1_keeps
  | with_reducible apply State.loadDone_keeps
  | with_reducible refine Keeps.ite ?_ ?_
  | with_reducible refine OptKeeps.get (by with_reducible assumption) ?_
  | with_reducible refine Keeps.elim ?_ ?_
  | with_reducible refine Keeps.foldl_fst ?_ _ _ ?_
  | with_reducible refine Keeps.foldl ?_ _ _ ?_
  | split
  | (with_reducible intro y)
  | (lift_lets; with_reducible intro y)
  | simp only [id]
  | dsimp only

theorem State.wtClean_keeps {F : List Kind} {r s : State} (kout : Kind.out ∈ F) (kecc : Kind.ecc ∈ F) (kcache : Kind.cache ∈ F) (kslices : Kind.slices ∈ F) (kwbTag : Kind.wbTag ∈ F) (h : Keeps F r s) (a : Access) (data : Bytes) (poison : Bool) :
    Keeps F r (State.wtClean s a data poison) := by
  unfold State.wtClean
  try lift_lets
  repeat' first
  | with_reducible assumption
  | exact Or.inl (by with_reducible assumption)
  | (refine Or.inr ?_; (repeat with_reducible apply Nat.le_add_right_of_le); first | decide | omega)
  | with_reducible rfl
  | with_reducible apply State.cleanDie_keeps
  | with_reducible apply State.sliceWb_keeps
  | with_reducible refine Keeps.ite ?_ ?_
  | with_reducible refine OptKeeps.get (by with_reducible assumption) ?_
  | with_reducible refine Keeps.elim ?_ ?_
  | with_reducible refine Keeps.foldl_fst ?_ _ _ ?_
  | with_reducible refine Keeps.foldl ?_ _ _ ?_
  | split
  | (with_reducible intro x; refine Keeps.cut (F := F) (r := r) (s := x) ?_ (fun hx => ?_); on_goal 2 => clear_value x)
  | (with_reducible intro x; refine Keeps.cut (F := F) (r := r) (s := x.1) ?_ (fun hx => ?_); on_goal 2 => clear_value x)
  | (with_reducible intro y)
  | (lift_lets; with_reducible intro x; refine Keeps.cut (F := F) (r := r) (s := x) ?_ (fun hx => ?_); on_goal 2 => clear_value x)
  | (lift_lets; with_reducible intro x; refine Keeps.cut (F := F) (r := r) (s := x.1) ?_ (fun hx => ?_); on_goal 2 => clear_value x)
  | (lift_lets; with_reducible intro y)
  | simp only [id]
  | dsimp only

theorem State.dropL1_keeps {F : List Kind} {r s : State} (kecc : Kind.ecc ∈ F) (kcache : Kind.cache ∈ F) (h : Keeps F r s) (d : Nat) (c : Nat) (l : Nat) :
    Keeps F r (State.dropL1 s d c l) := by
  unfold State.dropL1
  try lift_lets
  repeat' first
  | with_reducible assumption
  | exact Or.inl (by with_reducible assumption)
  | (refine Or.inr ?_; (repeat with_reducible apply Nat.le_add_right_of_le); first | decide | omega)
  | with_reducible rfl
  | with_reducible apply State.forAll_keeps
  | with_reducible apply State.dropCopy_keeps
  | with_reducible refine Keeps.ite ?_ ?_
  | with_reducible refine OptKeeps.get (by with_reducible assumption) ?_
  | with_reducible refine Keeps.elim ?_ ?_
  | with_reducible refine Keeps.foldl_fst ?_ _ _ ?_
  | with_reducible refine Keeps.foldl ?_ _ _ ?_
  | split
  | (with_reducible intro y)
  | (lift_lets; with_reducible intro y)
  | simp only [id]
  | dsimp only

theorem State.storeDone_keeps {F : List Kind} {r s : State} (kresp : Kind.resp ∈ F) (kout : Kind.out ∈ F) (kecc : Kind.ecc ∈ F) (kcache : Kind.cache ∈ F) (kslices : Kind.slices ∈ F) (kwbTag : Kind.wbTag ∈ F) (h : Keeps F r s) (a : Access) (old : Bytes) (data : Bytes) (poison : Bool) :
    Keeps F r (State.storeDone s a old data poison) := by
  unfold State.storeDone
  try lift_lets
  repeat' first
  | with_reducible assumption
  | exact Or.inl (by with_reducible assumption)
  | (refine Or.inr ?_; (repeat with_reducible apply Nat.le_add_right_of_le); first | decide | omega)
  | with_reducible rfl
  | with_reducible apply State.unreserve_keeps
  | with_reducible apply State.answer_keeps
  | with_reducible apply State.wtClean_keeps
  | with_reducible refine Keeps.ite ?_ ?_
  | with_reducible refine OptKeeps.get (by with_reducible assumption) ?_
  | with_reducible refine Keeps.elim ?_ ?_
  | with_reducible refine Keeps.foldl_fst ?_ _ _ ?_
  | with_reducible refine Keeps.foldl ?_ _ _ ?_
  | split
  | (with_reducible intro x; refine Keeps.cut (F := F) (r := r) (s := x) ?_ (fun hx => ?_); on_goal 2 => clear_value x)
  | (with_reducible intro x; refine Keeps.cut (F := F) (r := r) (s := x.1) ?_ (fun hx => ?_); on_goal 2 => clear_value x)
  | (with_reducible intro y)
  | (lift_lets; with_reducible intro x; refine Keeps.cut (F := F) (r := r) (s := x) ?_ (fun hx => ?_); on_goal 2 => clear_value x)
  | (lift_lets; with_reducible intro x; refine Keeps.cut (F := F) (r := r) (s := x.1) ?_ (fun hx => ?_); on_goal 2 => clear_value x)
  | (lift_lets; with_reducible intro y)
  | simp only [id]
  | dsimp only

theorem State.storeInto_keeps {F : List Kind} {r s : State} (kregs : Kind.regs ∈ F) (kresp : Kind.resp ∈ F) (kout : Kind.out ∈ F) (knewtIrq : Kind.newtIrq ∈ F) (kfieldOps : Kind.fieldOps ∈ F) (kpaused : Kind.paused ∈ F) (kecc : Kind.ecc ∈ F) (kcache : Kind.cache ∈ F) (kplru : Kind.plru ∈ F) (kslices : Kind.slices ∈ F) (kwbTag : Kind.wbTag ∈ F) (kcaps : Kind.caps ∈ F) (kcapBusy : Kind.capBusy ∈ F) (h : Keeps F r s) (a : Access) :
    Keeps F r (State.storeInto s a) := by
  unfold State.storeInto
  try lift_lets
  repeat' first
  | with_reducible assumption
  | exact Or.inl (by with_reducible assumption)
  | (refine Or.inr ?_; (repeat with_reducible apply Nat.le_add_right_of_le); first | decide | omega)
  | with_reducible rfl
  | (with_reducible refine Keeps.upd ?_ rfl rfl rfl rfl rfl rfl rfl rfl ?_ ?_ ?_ ?_ ?_ ?_ ?_ ?_ ?_ ?_ ?_ ?_ ?_ ?_ ?_ ?_ ?_ ?_ ?_ ?_ ?_ ?_ ?_ ?_ ?_ ?_ ?_ ?_ ?_ ?_ ?_ ?_ ?_ ?_ ?_ ?_ ?_ ?_ ?_ ?_ ?_ ?_ ?_ ?_ ?_ ?_ ?_ ?_ ?_ ?_ ?_ ?_ ?_ ?_ ?_ ?_ ?_ ?_ ?_ ?_ ?_ ?_ ?_ <;> first | with_reducible assumption | with_reducible exact Or.inr rfl | with_reducible exact Or.inl (by assumption) | with_reducible apply State.collapseDie_keeps | with_reducible apply State.consumePoison_keeps | with_reducible apply State.when_keeps | with_reducible apply State.dropL1_keeps | with_reducible apply State.hit_keeps | with_reducible apply State.fillL1_keeps | with_reducible apply State.changeCopy_keeps | with_reducible apply State.storeDone_keeps)
  | with_reducible apply State.collapseDie_keeps
  | with_reducible apply State.consumePoison_keeps
  | with_reducible apply State.when_keeps
  | with_reducible apply State.dropL1_keeps
  | with_reducible apply State.hit_keeps
  | with_reducible apply State.fillL1_keeps
  | with_reducible apply State.changeCopy_keeps
  | with_reducible apply State.storeDone_keeps
  | with_reducible refine Keeps.ite ?_ ?_
  | with_reducible refine OptKeeps.get (by with_reducible assumption) ?_
  | with_reducible refine Keeps.elim ?_ ?_
  | with_reducible refine Keeps.foldl_fst ?_ _ _ ?_
  | with_reducible refine Keeps.foldl ?_ _ _ ?_
  | split
  | (with_reducible intro x; refine Keeps.cut (F := F) (r := r) (s := x) ?_ (fun hx => ?_); on_goal 2 => clear_value x)
  | (with_reducible intro x; refine Keeps.cut (F := F) (r := r) (s := x.1) ?_ (fun hx => ?_); on_goal 2 => clear_value x)
  | (with_reducible intro y)
  | (lift_lets; with_reducible intro x; refine Keeps.cut (F := F) (r := r) (s := x) ?_ (fun hx => ?_); on_goal 2 => clear_value x)
  | (lift_lets; with_reducible intro x; refine Keeps.cut (F := F) (r := r) (s := x.1) ?_ (fun hx => ?_); on_goal 2 => clear_value x)
  | (lift_lets; with_reducible intro y)
  | simp only [id]
  | dsimp only

theorem State.storeOwned_keeps {F : List Kind} {r s : State} (kregs : Kind.regs ∈ F) (kresp : Kind.resp ∈ F) (kout : Kind.out ∈ F) (knewtIrq : Kind.newtIrq ∈ F) (kfieldOps : Kind.fieldOps ∈ F) (kpaused : Kind.paused ∈ F) (kecc : Kind.ecc ∈ F) (kcache : Kind.cache ∈ F) (kplru : Kind.plru ∈ F) (kslices : Kind.slices ∈ F) (kwbTag : Kind.wbTag ∈ F) (kcaps : Kind.caps ∈ F) (kcapBusy : Kind.capBusy ∈ F) (h : Keeps F r s) (a : Access) :
    Keeps F r (State.storeOwned s a) := by
  unfold State.storeOwned
  try lift_lets
  repeat' first
  | with_reducible assumption
  | exact Or.inl (by with_reducible assumption)
  | (refine Or.inr ?_; (repeat with_reducible apply Nat.le_add_right_of_le); first | decide | omega)
  | with_reducible rfl
  | (with_reducible refine Keeps.upd ?_ rfl rfl rfl rfl rfl rfl rfl rfl ?_ ?_ ?_ ?_ ?_ ?_ ?_ ?_ ?_ ?_ ?_ ?_ ?_ ?_ ?_ ?_ ?_ ?_ ?_ ?_ ?_ ?_ ?_ ?_ ?_ ?_ ?_ ?_ ?_ ?_ ?_ ?_ ?_ ?_ ?_ ?_ ?_ ?_ ?_ ?_ ?_ ?_ ?_ ?_ ?_ ?_ ?_ ?_ ?_ ?_ ?_ ?_ ?_ ?_ ?_ ?_ ?_ ?_ ?_ ?_ ?_ ?_ ?_ <;> first | with_reducible assumption | with_reducible exact Or.inr rfl | with_reducible exact Or.inl (by assumption) | with_reducible apply State.consumePoison_keeps | with_reducible apply State.hit_keeps | with_reducible apply State.changeCopy_keeps | with_reducible apply State.storeDone_keeps | with_reducible apply State.storeInto_keeps)
  | with_reducible apply State.consumePoison_keeps
  | with_reducible apply State.hit_keeps
  | with_reducible apply State.changeCopy_keeps
  | with_reducible apply State.storeDone_keeps
  | with_reducible apply State.storeInto_keeps
  | with_reducible refine Keeps.ite ?_ ?_
  | with_reducible refine OptKeeps.get (by with_reducible assumption) ?_
  | with_reducible refine Keeps.elim ?_ ?_
  | with_reducible refine Keeps.foldl_fst ?_ _ _ ?_
  | with_reducible refine Keeps.foldl ?_ _ _ ?_
  | split
  | (with_reducible intro x; refine Keeps.cut (F := F) (r := r) (s := x) ?_ (fun hx => ?_); on_goal 2 => clear_value x)
  | (with_reducible intro x; refine Keeps.cut (F := F) (r := r) (s := x.1) ?_ (fun hx => ?_); on_goal 2 => clear_value x)
  | (with_reducible intro y)
  | (lift_lets; with_reducible intro x; refine Keeps.cut (F := F) (r := r) (s := x) ?_ (fun hx => ?_); on_goal 2 => clear_value x)
  | (lift_lets; with_reducible intro x; refine Keeps.cut (F := F) (r := r) (s := x.1) ?_ (fun hx => ?_); on_goal 2 => clear_value x)
  | (lift_lets; with_reducible intro y)
  | simp only [id]
  | dsimp only

theorem State.peerServes_keeps {F : List Kind} {r s : State} (kregs : Kind.regs ∈ F) (kresp : Kind.resp ∈ F) (kout : Kind.out ∈ F) (knewtIrq : Kind.newtIrq ∈ F) (kfieldOps : Kind.fieldOps ∈ F) (kpaused : Kind.paused ∈ F) (kecc : Kind.ecc ∈ F) (kcache : Kind.cache ∈ F) (kplru : Kind.plru ∈ F) (kslices : Kind.slices ∈ F) (kwbTag : Kind.wbTag ∈ F) (kcaps : Kind.caps ∈ F) (kcapBusy : Kind.capBusy ∈ F) (h : Keeps F r s) (a : Access) (u : Nat) (x : CLine) :
    Keeps F r (State.peerServes s a u x) := by
  unfold State.peerServes
  try lift_lets
  repeat' first
  | with_reducible assumption
  | exact Or.inl (by with_reducible assumption)
  | (refine Or.inr ?_; (repeat with_reducible apply Nat.le_add_right_of_le); first | decide | omega)
  | with_reducible rfl
  | with_reducible apply State.hit_keeps
  | with_reducible apply State.loadDone_keeps
  | with_reducible apply State.dropCluster_keeps
  | with_reducible apply State.fillL2_keeps
  | with_reducible apply State.readFromL2_keeps
  | with_reducible apply State.dropCopy_keeps
  | with_reducible refine Keeps.ite ?_ ?_
  | with_reducible refine OptKeeps.get (by with_reducible assumption) ?_
  | with_reducible refine Keeps.elim ?_ ?_
  | with_reducible refine Keeps.foldl_fst ?_ _ _ ?_
  | with_reducible refine Keeps.foldl ?_ _ _ ?_
  | split
  | (with_reducible intro y)
  | (lift_lets; with_reducible intro y)
  | simp only [id]
  | dsimp only

theorem State.takeOwnership_keeps {F : List Kind} {r s : State} (kout : Kind.out ∈ F) (kecc : Kind.ecc ∈ F) (kcache : Kind.cache ∈ F) (kplru : Kind.plru ∈ F) (kslices : Kind.slices ∈ F) (kwbTag : Kind.wbTag ∈ F) (h : Keeps F r s) (a : Access) :
    Keeps F r (State.takeOwnership s a) := by
  unfold State.takeOwnership
  try lift_lets
  repeat' first
  | with_reducible assumption
  | exact Or.inl (by with_reducible assumption)
  | (refine Or.inr ?_; (repeat with_reducible apply Nat.le_add_right_of_le); first | decide | omega)
  | with_reducible rfl
  | with_reducible apply State.collapseDie_keeps
  | with_reducible apply State.dropDie_keeps
  | with_reducible apply State.fillL2_keeps
  | with_reducible apply State.forAll_keeps
  | with_reducible apply State.dropCluster_keeps
  | with_reducible apply State.dropCopy_keeps
  | with_reducible apply State.changeCopy_keeps
  | with_reducible refine Keeps.ite ?_ ?_
  | with_reducible refine OptKeeps.get (by with_reducible assumption) ?_
  | with_reducible refine Keeps.elim ?_ ?_
  | with_reducible refine Keeps.foldl_fst ?_ _ _ ?_
  | with_reducible refine Keeps.foldl ?_ _ _ ?_
  | split
  | (with_reducible intro y)
  | (lift_lets; with_reducible intro y)
  | simp only [id]
  | dsimp only

theorem State.sliceWait_keeps {F : List Kind} {r s : State} (kslices : Kind.slices ∈ F) (h : Keeps F r s) (d : Nat) (a : Access) :
    Keeps F r (State.sliceWait s d a) := by
  unfold State.sliceWait
  try lift_lets
  repeat' first
  | with_reducible assumption
  | with_reducible apply State.setSliceTxn_keeps

theorem State.sliceOpen_keeps {F : List Kind} {r s : State} (kout : Kind.out ∈ F) (kslices : Kind.slices ∈ F) (kwbTag : Kind.wbTag ∈ F) (kring : Kind.ring ∈ F) (h : Keeps F r s) (d : Nat) (a : Access) (st : SliceSt) (k : CohKind) :
    Keeps F r (State.sliceOpen s d a st k) := by
  unfold State.sliceOpen
  try lift_lets
  repeat' first
  | with_reducible assumption
  | exact Or.inl (by with_reducible assumption)
  | (refine Or.inr ?_; (repeat with_reducible apply Nat.le_add_right_of_le); first | decide | omega)
  | with_reducible rfl
  | (with_reducible refine Keeps.upd ?_ rfl rfl rfl rfl rfl rfl rfl rfl ?_ ?_ ?_ ?_ ?_ ?_ ?_ ?_ ?_ ?_ ?_ ?_ ?_ ?_ ?_ ?_ ?_ ?_ ?_ ?_ ?_ ?_ ?_ ?_ ?_ ?_ ?_ ?_ ?_ ?_ ?_ ?_ ?_ ?_ ?_ ?_ ?_ ?_ ?_ ?_ ?_ ?_ ?_ ?_ ?_ ?_ ?_ ?_ ?_ ?_ ?_ ?_ ?_ ?_ ?_ ?_ ?_ ?_ ?_ ?_ ?_ ?_ ?_ <;> first | with_reducible assumption | with_reducible exact Or.inr rfl | with_reducible exact Or.inl (by assumption) | with_reducible apply State.nextTxn_keeps | with_reducible apply State.setSliceTxn_keeps | with_reducible apply State.toHome_keeps)
  | with_reducible apply State.nextTxn_keeps
  | with_reducible apply State.setSliceTxn_keeps
  | with_reducible apply State.toHome_keeps
  | with_reducible refine Keeps.ite ?_ ?_
  | with_reducible refine OptKeeps.get (by with_reducible assumption) ?_
  | with_reducible refine Keeps.elim ?_ ?_
  | with_reducible refine Keeps.foldl_fst ?_ _ _ ?_
  | with_reducible refine Keeps.foldl ?_ _ _ ?_
  | split
  | (with_reducible intro y)
  | (lift_lets; with_reducible intro y)
  | simp only [id]
  | dsimp only

theorem State.readBroadcast_keeps {F : List Kind} {r s : State} (kregs : Kind.regs ∈ F) (kresp : Kind.resp ∈ F) (kout : Kind.out ∈ F) (knewtIrq : Kind.newtIrq ∈ F) (kfieldOps : Kind.fieldOps ∈ F) (kpaused : Kind.paused ∈ F) (kecc : Kind.ecc ∈ F) (kcache : Kind.cache ∈ F) (kplru : Kind.plru ∈ F) (kslices : Kind.slices ∈ F) (kwbTag : Kind.wbTag ∈ F) (kring : Kind.ring ∈ F) (kcaps : Kind.caps ∈ F) (kcapBusy : Kind.capBusy ∈ F) (h : Keeps F r s) (a : Access) :
    Keeps F r (State.readBroadcast s a) := by
  unfold State.readBroadcast
  try lift_lets
  repeat' first
  | with_reducible assumption
  | exact Or.inl (by with_reducible assumption)
  | (refine Or.inr ?_; (repeat with_reducible apply Nat.le_add_right_of_le); first | decide | omega)
  | with_reducible rfl
  | with_reducible apply State.sliceWait_keeps
  | with_reducible apply State.collapseDie_keeps
  | with_reducible apply State.peerServes_keeps
  | with_reducible apply State.sliceOpen_keeps
  | with_reducible refine Keeps.ite ?_ ?_
  | with_reducible refine OptKeeps.get (by with_reducible assumption) ?_
  | with_reducible refine Keeps.elim ?_ ?_
  | with_reducible refine Keeps.foldl_fst ?_ _ _ ?_
  | with_reducible refine Keeps.foldl ?_ _ _ ?_
  | split
  | (with_reducible intro y)
  | (lift_lets; with_reducible intro y)
  | simp only [id]
  | dsimp only

theorem State.ownBroadcast_keeps {F : List Kind} {r s : State} (kregs : Kind.regs ∈ F) (kresp : Kind.resp ∈ F) (kout : Kind.out ∈ F) (knewtIrq : Kind.newtIrq ∈ F) (kfieldOps : Kind.fieldOps ∈ F) (kpaused : Kind.paused ∈ F) (kecc : Kind.ecc ∈ F) (kcache : Kind.cache ∈ F) (kplru : Kind.plru ∈ F) (kslices : Kind.slices ∈ F) (kwbTag : Kind.wbTag ∈ F) (kring : Kind.ring ∈ F) (kcaps : Kind.caps ∈ F) (kcapBusy : Kind.capBusy ∈ F) (h : Keeps F r s) (a : Access) :
    Keeps F r (State.ownBroadcast s a) := by
  unfold State.ownBroadcast
  try lift_lets
  repeat' first
  | with_reducible assumption
  | exact Or.inl (by with_reducible assumption)
  | (refine Or.inr ?_; (repeat with_reducible apply Nat.le_add_right_of_le); first | decide | omega)
  | with_reducible rfl
  | with_reducible apply State.sliceWait_keeps
  | with_reducible apply State.sliceOpen_keeps
  | with_reducible apply State.takeOwnership_keeps
  | with_reducible apply State.storeOwned_keeps
  | with_reducible refine Keeps.ite ?_ ?_
  | with_reducible refine OptKeeps.get (by with_reducible assumption) ?_
  | with_reducible refine Keeps.elim ?_ ?_
  | with_reducible refine Keeps.foldl_fst ?_ _ _ ?_
  | with_reducible refine Keeps.foldl ?_ _ _ ?_
  | split
  | (with_reducible intro x; refine Keeps.cut (F := F) (r := r) (s := x) ?_ (fun hx => ?_); on_goal 2 => clear_value x)
  | (with_reducible intro x; refine Keeps.cut (F := F) (r := r) (s := x.1) ?_ (fun hx => ?_); on_goal 2 => clear_value x)
  | (with_reducible intro y)
  | (lift_lets; with_reducible intro x; refine Keeps.cut (F := F) (r := r) (s := x) ?_ (fun hx => ?_); on_goal 2 => clear_value x)
  | (lift_lets; with_reducible intro x; refine Keeps.cut (F := F) (r := r) (s := x.1) ?_ (fun hx => ?_); on_goal 2 => clear_value x)
  | (lift_lets; with_reducible intro y)
  | simp only [id]
  | dsimp only

theorem State.wcSend_keeps {F : List Kind} {r s : State} (kout : Kind.out ∈ F) (kdie : Kind.die ∈ F) (kwbTag : Kind.wbTag ∈ F) (h : Keeps F r s) (a_h : Nat) (w : WcBuf) :
    Keeps F r (State.wcSend s a_h w) := by
  unfold State.wcSend
  try lift_lets
  repeat' first
  | with_reducible assumption
  | exact Or.inl (by with_reducible assumption)
  | (refine Or.inr ?_; (repeat with_reducible apply Nat.le_add_right_of_le); first | decide | omega)
  | with_reducible rfl
  | with_reducible apply State.nextTxn_keeps
  | with_reducible apply State.setDie_keeps
  | with_reducible apply State.toHome_keeps
  | with_reducible refine Keeps.ite ?_ ?_
  | with_reducible refine OptKeeps.get (by with_reducible assumption) ?_
  | with_reducible refine Keeps.elim ?_ ?_
  | with_reducible refine Keeps.foldl_fst ?_ _ _ ?_
  | with_reducible refine Keeps.foldl ?_ _ _ ?_
  | split
  | (with_reducible intro x; refine Keeps.cut (F := F) (r := r) (s := x) ?_ (fun hx => ?_); on_goal 2 => clear_value x)
  | (with_reducible intro x; refine Keeps.cut (F := F) (r := r) (s := x.1) ?_ (fun hx => ?_); on_goal 2 => clear_value x)
  | (with_reducible intro y)
  | (lift_lets; with_reducible intro x; refine Keeps.cut (F := F) (r := r) (s := x) ?_ (fun hx => ?_); on_goal 2 => clear_value x)
  | (lift_lets; with_reducible intro x; refine Keeps.cut (F := F) (r := r) (s := x.1) ?_ (fun hx => ?_); on_goal 2 => clear_value x)
  | (lift_lets; with_reducible intro y)
  | simp only [id]
  | dsimp only

theorem State.wcDrain_keeps {F : List Kind} {r s : State} (kout : Kind.out ∈ F) (khart : Kind.hart ∈ F) (kdie : Kind.die ∈ F) (kwbTag : Kind.wbTag ∈ F) (h : Keeps F r s) (a_h : Nat) :
    Keeps F r (State.wcDrain s a_h) := by
  unfold State.wcDrain
  try lift_lets
  repeat' first
  | with_reducible assumption
  | exact Or.inl (by with_reducible assumption)
  | (refine Or.inr ?_; (repeat with_reducible apply Nat.le_add_right_of_le); first | decide | omega)
  | with_reducible rfl
  | with_reducible apply State.setHart_keeps
  | with_reducible apply State.wcSend_keeps
  | with_reducible refine Keeps.ite ?_ ?_
  | with_reducible refine OptKeeps.get (by with_reducible assumption) ?_
  | with_reducible refine Keeps.elim ?_ ?_
  | with_reducible refine Keeps.foldl_fst ?_ _ _ ?_
  | with_reducible refine Keeps.foldl ?_ _ _ ?_
  | split
  | (with_reducible intro y)
  | (lift_lets; with_reducible intro y)
  | simp only [id]
  | dsimp only

theorem State.maskedWrite_keeps {F : List Kind} {r s : State} (kresp : Kind.resp ∈ F) (kout : Kind.out ∈ F) (khart : Kind.hart ∈ F) (kdie : Kind.die ∈ F) (kwbTag : Kind.wbTag ∈ F) (h : Keeps F r s) (a : Access) (b : Bytes) :
    Keeps F r (State.maskedWrite s a b) := by
  unfold State.maskedWrite
  try lift_lets
  repeat' first
  | with_reducible assumption
  | exact Or.inl (by with_reducible assumption)
  | (refine Or.inr ?_; (repeat with_reducible apply Nat.le_add_right_of_le); first | decide | omega)
  | with_reducible rfl
  | with_reducible apply State.answer_keeps
  | with_reducible apply State.setHart_keeps
  | with_reducible apply State.wcSend_keeps
  | with_reducible refine Keeps.ite ?_ ?_
  | with_reducible refine OptKeeps.get (by with_reducible assumption) ?_
  | with_reducible refine Keeps.elim ?_ ?_
  | with_reducible refine Keeps.foldl_fst ?_ _ _ ?_
  | with_reducible refine Keeps.foldl ?_ _ _ ?_
  | split
  | (with_reducible intro y)
  | (lift_lets; with_reducible intro y)
  | simp only [id]
  | dsimp only

theorem State.trainL2_keeps {F : List Kind} {r s : State} (kstreams : Kind.streams ∈ F) (h : Keeps F r s) (a : Access) :
    Keeps F r (State.trainL2 s a) := by
  unfold State.trainL2
  try lift_lets
  repeat' first
  | with_reducible assumption
  | exact Or.inl (by with_reducible assumption)
  | (refine Or.inr ?_; (repeat with_reducible apply Nat.le_add_right_of_le); first | decide | omega)
  | with_reducible rfl
  | with_reducible apply State.train_keeps
  | with_reducible refine Keeps.ite ?_ ?_
  | with_reducible refine OptKeeps.get (by with_reducible assumption) ?_
  | with_reducible refine Keeps.elim ?_ ?_
  | with_reducible refine Keeps.foldl_fst ?_ _ _ ?_
  | with_reducible refine Keeps.foldl ?_ _ _ ?_
  | split
  | (with_reducible intro x; refine Keeps.cut (F := F) (r := r) (s := x) ?_ (fun hx => ?_); on_goal 2 => clear_value x)
  | (with_reducible intro x; refine Keeps.cut (F := F) (r := r) (s := x.1) ?_ (fun hx => ?_); on_goal 2 => clear_value x)
  | (with_reducible intro y)
  | (lift_lets; with_reducible intro x; refine Keeps.cut (F := F) (r := r) (s := x) ?_ (fun hx => ?_); on_goal 2 => clear_value x)
  | (lift_lets; with_reducible intro x; refine Keeps.cut (F := F) (r := r) (s := x.1) ?_ (fun hx => ?_); on_goal 2 => clear_value x)
  | (lift_lets; with_reducible intro y)
  | simp only [id]
  | dsimp only

theorem State.trainOn_keeps {F : List Kind} {r s : State} (kstreams : Kind.streams ∈ F) (h : Keeps F r s) (a : Access) :
    Keeps F r (State.trainOn s a) := by
  unfold State.trainOn
  try lift_lets
  repeat' first
  | with_reducible assumption
  | exact Or.inl (by with_reducible assumption)
  | (refine Or.inr ?_; (repeat with_reducible apply Nat.le_add_right_of_le); first | decide | omega)
  | with_reducible rfl
  | with_reducible apply State.trainL2_keeps
  | with_reducible apply State.when_keeps
  | with_reducible apply State.train_keeps
  | with_reducible refine Keeps.ite ?_ ?_
  | with_reducible refine OptKeeps.get (by with_reducible assumption) ?_
  | with_reducible refine Keeps.elim ?_ ?_
  | with_reducible refine Keeps.foldl_fst ?_ _ _ ?_
  | with_reducible refine Keeps.foldl ?_ _ _ ?_
  | split
  | (with_reducible intro x; refine Keeps.cut (F := F) (r := r) (s := x) ?_ (fun hx => ?_); on_goal 2 => clear_value x)
  | (with_reducible intro x; refine Keeps.cut (F := F) (r := r) (s := x.1) ?_ (fun hx => ?_); on_goal 2 => clear_value x)
  | (with_reducible intro y)
  | (lift_lets; with_reducible intro x; refine Keeps.cut (F := F) (r := r) (s := x) ?_ (fun hx => ?_); on_goal 2 => clear_value x)
  | (lift_lets; with_reducible intro x; refine Keeps.cut (F := F) (r := r) (s := x.1) ?_ (fun hx => ?_); on_goal 2 => clear_value x)
  | (lift_lets; with_reducible intro y)
  | simp only [id]
  | dsimp only

theorem State.coreOwns_keeps {F : List Kind} {r s : State} (kregs : Kind.regs ∈ F) (kresp : Kind.resp ∈ F) (kout : Kind.out ∈ F) (knewtIrq : Kind.newtIrq ∈ F) (kfieldOps : Kind.fieldOps ∈ F) (kpaused : Kind.paused ∈ F) (kecc : Kind.ecc ∈ F) (kcache : Kind.cache ∈ F) (kplru : Kind.plru ∈ F) (kslices : Kind.slices ∈ F) (kwbTag : Kind.wbTag ∈ F) (kring : Kind.ring ∈ F) (kcaps : Kind.caps ∈ F) (kcapBusy : Kind.capBusy ∈ F) (h : Keeps F r s) (a : Access) :
    Keeps F r (State.coreOwns s a) := by
  unfold State.coreOwns
  try lift_lets
  repeat' first
  | with_reducible assumption
  | exact Or.inl (by with_reducible assumption)
  | (refine Or.inr ?_; (repeat with_reducible apply Nat.le_add_right_of_le); first | decide | omega)
  | with_reducible rfl
  | with_reducible apply State.storeOwned_keeps
  | with_reducible apply State.ownBroadcast_keeps
  | with_reducible refine Keeps.ite ?_ ?_
  | with_reducible refine OptKeeps.get (by with_reducible assumption) ?_
  | with_reducible refine Keeps.elim ?_ ?_
  | with_reducible refine Keeps.foldl_fst ?_ _ _ ?_
  | with_reducible refine Keeps.foldl ?_ _ _ ?_
  | split
  | (with_reducible intro x; refine Keeps.cut (F := F) (r := r) (s := x) ?_ (fun hx => ?_); on_goal 2 => clear_value x)
  | (with_reducible intro x; refine Keeps.cut (F := F) (r := r) (s := x.1) ?_ (fun hx => ?_); on_goal 2 => clear_value x)
  | (with_reducible intro y)
  | (lift_lets; with_reducible intro x; refine Keeps.cut (F := F) (r := r) (s := x) ?_ (fun hx => ?_); on_goal 2 => clear_value x)
  | (lift_lets; with_reducible intro x; refine Keeps.cut (F := F) (r := r) (s := x.1) ?_ (fun hx => ?_); on_goal 2 => clear_value x)
  | (lift_lets; with_reducible intro y)
  | simp only [id]
  | dsimp only

theorem State.coreStore_keeps {F : List Kind} {r s : State} (kregs : Kind.regs ∈ F) (kresp : Kind.resp ∈ F) (kout : Kind.out ∈ F) (knewtIrq : Kind.newtIrq ∈ F) (kfieldOps : Kind.fieldOps ∈ F) (khart : Kind.hart ∈ F) (kdie : Kind.die ∈ F) (kpaused : Kind.paused ∈ F) (kecc : Kind.ecc ∈ F) (kcache : Kind.cache ∈ F) (kplru : Kind.plru ∈ F) (kslices : Kind.slices ∈ F) (kwbTag : Kind.wbTag ∈ F) (kring : Kind.ring ∈ F) (kcaps : Kind.caps ∈ F) (kcapBusy : Kind.capBusy ∈ F) (h : Keeps F r s) (a : Access) :
    Keeps F r (State.coreStore s a) := by
  unfold State.coreStore
  try lift_lets
  repeat' first
  | with_reducible assumption
  | exact Or.inl (by with_reducible assumption)
  | (refine Or.inr ?_; (repeat with_reducible apply Nat.le_add_right_of_le); first | decide | omega)
  | with_reducible rfl
  | (with_reducible refine Keeps.upd ?_ rfl rfl rfl rfl rfl rfl rfl rfl ?_ ?_ ?_ ?_ ?_ ?_ ?_ ?_ ?_ ?_ ?_ ?_ ?_ ?_ ?_ ?_ ?_ ?_ ?_ ?_ ?_ ?_ ?_ ?_ ?_ ?_ ?_ ?_ ?_ ?_ ?_ ?_ ?_ ?_ ?_ ?_ ?_ ?_ ?_ ?_ ?_ ?_ ?_ ?_ ?_ ?_ ?_ ?_ ?_ ?_ ?_ ?_ ?_ ?_ ?_ ?_ ?_ ?_ ?_ ?_ ?_ ?_ ?_ <;> first | with_reducible assumption | with_reducible exact Or.inr rfl | with_reducible exact Or.inl (by assumption) | with_reducible apply State.maskedWrite_keeps | with_reducible apply State.coreOwns_keeps)
  | with_reducible apply State.maskedWrite_keeps
  | with_reducible apply State.coreOwns_keeps
  | with_reducible refine Keeps.ite ?_ ?_
  | with_reducible refine OptKeeps.get (by with_reducible assumption) ?_
  | with_reducible refine Keeps.elim ?_ ?_
  | with_reducible refine Keeps.foldl_fst ?_ _ _ ?_
  | with_reducible refine Keeps.foldl ?_ _ _ ?_
  | split
  | (with_reducible intro x; refine Keeps.cut (F := F) (r := r) (s := x) ?_ (fun hx => ?_); on_goal 2 => clear_value x)
  | (with_reducible intro x; refine Keeps.cut (F := F) (r := r) (s := x.1) ?_ (fun hx => ?_); on_goal 2 => clear_value x)
  | (with_reducible intro y)
  | (lift_lets; with_reducible intro x; refine Keeps.cut (F := F) (r := r) (s := x) ?_ (fun hx => ?_); on_goal 2 => clear_value x)
  | (lift_lets; with_reducible intro x; refine Keeps.cut (F := F) (r := r) (s := x.1) ?_ (fun hx => ?_); on_goal 2 => clear_value x)
  | (lift_lets; with_reducible intro y)
  | simp only [id]
  | dsimp only

theorem State.coreAccess_keeps {F : List Kind} {r s : State} (kregs : Kind.regs ∈ F) (kresp : Kind.resp ∈ F) (kout : Kind.out ∈ F) (knewtIrq : Kind.newtIrq ∈ F) (kfieldOps : Kind.fieldOps ∈ F) (khart : Kind.hart ∈ F) (kdie : Kind.die ∈ F) (kpaused : Kind.paused ∈ F) (kecc : Kind.ecc ∈ F) (kcache : Kind.cache ∈ F) (kplru : Kind.plru ∈ F) (kslices : Kind.slices ∈ F) (kwbTag : Kind.wbTag ∈ F) (kring : Kind.ring ∈ F) (kcaps : Kind.caps ∈ F) (kcapBusy : Kind.capBusy ∈ F) (h : Keeps F r s) (a : Access) :
    Keeps F r (State.coreAccess s a) := by
  unfold State.coreAccess
  try lift_lets
  repeat' first
  | with_reducible assumption
  | exact Or.inl (by with_reducible assumption)
  | (refine Or.inr ?_; (repeat with_reducible apply Nat.le_add_right_of_le); first | decide | omega)
  | with_reducible rfl
  | with_reducible apply State.hit_keeps
  | with_reducible apply State.loadDone_keeps
  | with_reducible apply State.readFromL2_keeps
  | with_reducible apply State.readBroadcast_keeps
  | with_reducible apply State.coreStore_keeps
  | with_reducible apply State.unreserve_keeps
  | with_reducible apply State.answer_keeps
  | with_reducible apply State.when_keeps
  | with_reducible apply State.changeCopy_keeps
  | with_reducible refine Keeps.ite ?_ ?_
  | with_reducible refine OptKeeps.get (by with_reducible assumption) ?_
  | with_reducible refine Keeps.elim ?_ ?_
  | with_reducible refine Keeps.foldl_fst ?_ _ _ ?_
  | with_reducible refine Keeps.foldl ?_ _ _ ?_
  | split
  | (with_reducible intro x; refine Keeps.cut (F := F) (r := r) (s := x) ?_ (fun hx => ?_); on_goal 2 => clear_value x)
  | (with_reducible intro x; refine Keeps.cut (F := F) (r := r) (s := x.1) ?_ (fun hx => ?_); on_goal 2 => clear_value x)
  | (with_reducible intro y)
  | (lift_lets; with_reducible intro x; refine Keeps.cut (F := F) (r := r) (s := x) ?_ (fun hx => ?_); on_goal 2 => clear_value x)
  | (lift_lets; with_reducible intro x; refine Keeps.cut (F := F) (r := r) (s := x.1) ?_ (fun hx => ?_); on_goal 2 => clear_value x)
  | (lift_lets; with_reducible intro y)
  | simp only [id]
  | dsimp only

theorem State.wcBefore_keeps {F : List Kind} {r s : State} (kout : Kind.out ∈ F) (khart : Kind.hart ∈ F) (kdie : Kind.die ∈ F) (kwbTag : Kind.wbTag ∈ F) (h : Keeps F r s) (a : Access) :
    Keeps F r (State.wcBefore s a) := by
  unfold State.wcBefore
  try lift_lets
  repeat' first
  | with_reducible assumption
  | exact Or.inl (by with_reducible assumption)
  | (refine Or.inr ?_; (repeat with_reducible apply Nat.le_add_right_of_le); first | decide | omega)
  | with_reducible rfl
  | with_reducible apply State.wcDrain_keeps
  | with_reducible refine Keeps.ite ?_ ?_
  | with_reducible refine OptKeeps.get (by with_reducible assumption) ?_
  | with_reducible refine Keeps.elim ?_ ?_
  | with_reducible refine Keeps.foldl_fst ?_ _ _ ?_
  | with_reducible refine Keeps.foldl ?_ _ _ ?_
  | split
  | (with_reducible intro x; refine Keeps.cut (F := F) (r := r) (s := x) ?_ (fun hx => ?_); on_goal 2 => clear_value x)
  | (with_reducible intro x; refine Keeps.cut (F := F) (r := r) (s := x.1) ?_ (fun hx => ?_); on_goal 2 => clear_value x)
  | (with_reducible intro y)
  | (lift_lets; with_reducible intro x; refine Keeps.cut (F := F) (r := r) (s := x) ?_ (fun hx => ?_); on_goal 2 => clear_value x)
  | (lift_lets; with_reducible intro x; refine Keeps.cut (F := F) (r := r) (s := x.1) ?_ (fun hx => ?_); on_goal 2 => clear_value x)
  | (lift_lets; with_reducible intro y)
  | simp only [id]
  | dsimp only

theorem State.hartAccess_keeps {F : List Kind} {r s : State} (kregs : Kind.regs ∈ F) (kresp : Kind.resp ∈ F) (kout : Kind.out ∈ F) (knewtIrq : Kind.newtIrq ∈ F) (kfieldOps : Kind.fieldOps ∈ F) (khart : Kind.hart ∈ F) (kdie : Kind.die ∈ F) (kpaused : Kind.paused ∈ F) (kcsq : Kind.csq ∈ F) (kecc : Kind.ecc ∈ F) (kcache : Kind.cache ∈ F) (kplru : Kind.plru ∈ F) (kstreams : Kind.streams ∈ F) (kslices : Kind.slices ∈ F) (kwbTag : Kind.wbTag ∈ F) (kring : Kind.ring ∈ F) (kfaultN : Kind.faultN ∈ F) (ktxIdle : Kind.txIdle ∈ F) (kcaps : Kind.caps ∈ F) (kcapBusy : Kind.capBusy ∈ F) (h : Keeps F r s) (a : Access) :
    Keeps F r (State.hartAccess s a) := by
  unfold State.hartAccess
  try lift_lets
  repeat' first
  | with_reducible assumption
  | exact Or.inl (by with_reducible assumption)
  | (refine Or.inr ?_; (repeat with_reducible apply Nat.le_add_right_of_le); first | decide | omega)
  | with_reducible rfl
  | with_reducible apply State.wcBefore_keeps
  | with_reducible apply State.dieLook_keeps
  | with_reducible apply State.fatalStop_keeps
  | with_reducible apply State.trainOn_keeps
  | with_reducible apply State.coreAccess_keeps
  | with_reducible refine Keeps.ite ?_ ?_
  | with_reducible refine OptKeeps.get (by with_reducible assumption) ?_
  | with_reducible refine Keeps.elim ?_ ?_
  | with_reducible refine Keeps.foldl_fst ?_ _ _ ?_
  | with_reducible refine Keeps.foldl ?_ _ _ ?_
  | split
  | (with_reducible intro x; refine Keeps.cut (F := F) (r := r) (s := x) ?_ (fun hx => ?_); on_goal 2 => clear_value x)
  | (with_reducible intro x; refine Keeps.cut (F := F) (r := r) (s := x.1) ?_ (fun hx => ?_); on_goal 2 => clear_value x)
  | (with_reducible intro y)
  | (lift_lets; with_reducible intro x; refine Keeps.cut (F := F) (r := r) (s := x) ?_ (fun hx => ?_); on_goal 2 => clear_value x)
  | (lift_lets; with_reducible intro x; refine Keeps.cut (F := F) (r := r) (s := x.1) ?_ (fun hx => ?_); on_goal 2 => clear_value x)
  | (lift_lets; with_reducible intro y)
  | simp only [id]
  | dsimp only

theorem execRingBroadcast_keeps {F : List Kind} {r s : State} (kregs : Kind.regs ∈ F) (kresp : Kind.resp ∈ F) (kout : Kind.out ∈ F) (knewtIrq : Kind.newtIrq ∈ F) (kfieldOps : Kind.fieldOps ∈ F) (khart : Kind.hart ∈ F) (kdie : Kind.die ∈ F) (kpaused : Kind.paused ∈ F) (kcsq : Kind.csq ∈ F) (kecc : Kind.ecc ∈ F) (kcache : Kind.cache ∈ F) (kplru : Kind.plru ∈ F) (kstreams : Kind.streams ∈ F) (kslices : Kind.slices ∈ F) (kwbTag : Kind.wbTag ∈ F) (kring : Kind.ring ∈ F) (kfaultN : Kind.faultN ∈ F) (ktxIdle : Kind.txIdle ∈ F) (kcaps : Kind.caps ∈ F) (kcapBusy : Kind.capBusy ∈ F) (h : Keeps F r s) (a : Access) :
    ResKeeps F r (execRingBroadcast a s) := by
  unfold execRingBroadcast
  try lift_lets
  repeat' first
  | with_reducible assumption
  | exact Or.inl (by with_reducible assumption)
  | (refine Or.inr ?_; (repeat with_reducible apply Nat.le_add_right_of_le); first | decide | omega)
  | with_reducible rfl
  | with_reducible apply State.inMode_keeps
  | with_reducible apply State.answer_keeps
  | with_reducible apply State.hartAccess_keeps
  | with_reducible apply ResKeeps.next
  | with_reducible refine ResKeeps.ite ?_ ?_
  | with_reducible refine Keeps.ite ?_ ?_
  | with_reducible refine OptKeeps.get (by with_reducible assumption) ?_
  | with_reducible refine Keeps.elim ?_ ?_
  | with_reducible refine Keeps.foldl_fst ?_ _ _ ?_
  | with_reducible refine Keeps.foldl ?_ _ _ ?_
  | split
  | (with_reducible intro x; refine Keeps.cut (F := F) (r := r) (s := x) ?_ (fun hx => ?_); on_goal 2 => clear_value x)
  | (with_reducible intro x; refine Keeps.cut (F := F) (r := r) (s := x.1) ?_ (fun hx => ?_); on_goal 2 => clear_value x)
  | (with_reducible intro y)
  | (lift_lets; with_reducible intro x; refine Keeps.cut (F := F) (r := r) (s := x) ?_ (fun hx => ?_); on_goal 2 => clear_value x)
  | (lift_lets; with_reducible intro x; refine Keeps.cut (F := F) (r := r) (s := x.1) ?_ (fun hx => ?_); on_goal 2 => clear_value x)
  | (lift_lets; with_reducible intro y)
  | simp only [id]
  | dsimp only

theorem execL3Eviction_keeps {F : List Kind} {r s : State} (kregs : Kind.regs ∈ F) (kout : Kind.out ∈ F) (knewtIrq : Kind.newtIrq ∈ F) (kfieldOps : Kind.fieldOps ∈ F) (kpaused : Kind.paused ∈ F) (kcsq : Kind.csq ∈ F) (kecc : Kind.ecc ∈ F) (kcache : Kind.cache ∈ F) (kplru : Kind.plru ∈ F) (kslices : Kind.slices ∈ F) (kwbTag : Kind.wbTag ∈ F) (kfaultN : Kind.faultN ∈ F) (ktxIdle : Kind.txIdle ∈ F) (kcaps : Kind.caps ∈ F) (kcapBusy : Kind.capBusy ∈ F) (h : Keeps F r s) (die : Fin 12) (unit : Fin 13) (set : Nat) (way : Fin 16) :
    ResKeeps F r (execL3Eviction die unit set way s) := by
  unfold execL3Eviction
  try lift_lets
  repeat' first
  | with_reducible assumption
  | exact Or.inl (by with_reducible assumption)
  | (refine Or.inr ?_; (repeat with_reducible apply Nat.le_add_right_of_le); first | decide | omega)
  | with_reducible rfl
  | with_reducible apply State.fatalStop_keeps
  | with_reducible apply State.evictL2_keeps
  | with_reducible apply State.evictL3_keeps
  | with_reducible apply ResKeeps.next
  | with_reducible refine ResKeeps.ite ?_ ?_
  | with_reducible refine Keeps.ite ?_ ?_
  | with_reducible refine OptKeeps.get (by with_reducible assumption) ?_
  | with_reducible refine Keeps.elim ?_ ?_
  | with_reducible refine Keeps.foldl_fst ?_ _ _ ?_
  | with_reducible refine Keeps.foldl ?_ _ _ ?_
  | split
  | (with_reducible intro y)
  | (lift_lets; with_reducible intro y)
  | simp only [id]
  | dsimp only

theorem State.accessAgain_keeps {F : List Kind} {r s : State} (kregs : Kind.regs ∈ F) (kresp : Kind.resp ∈ F) (kout : Kind.out ∈ F) (knewtIrq : Kind.newtIrq ∈ F) (kfieldOps : Kind.fieldOps ∈ F) (khart : Kind.hart ∈ F) (kdie : Kind.die ∈ F) (kpaused : Kind.paused ∈ F) (kecc : Kind.ecc ∈ F) (kcache : Kind.cache ∈ F) (kplru : Kind.plru ∈ F) (kslices : Kind.slices ∈ F) (kwbTag : Kind.wbTag ∈ F) (kring : Kind.ring ∈ F) (kcaps : Kind.caps ∈ F) (kcapBusy : Kind.capBusy ∈ F) (h : Keeps F r s) (a : Access) :
    Keeps F r (State.accessAgain s a) := by
  unfold State.accessAgain
  try lift_lets
  repeat' first
  | with_reducible assumption
  | exact Or.inl (by with_reducible assumption)
  | (refine Or.inr ?_; (repeat with_reducible apply Nat.le_add_right_of_le); first | decide | omega)
  | with_reducible rfl
  | with_reducible apply State.wcBefore_keeps
  | with_reducible apply State.coreAccess_keeps
  | with_reducible refine Keeps.ite ?_ ?_
  | with_reducible refine OptKeeps.get (by with_reducible assumption) ?_
  | with_reducible refine Keeps.elim ?_ ?_
  | with_reducible refine Keeps.foldl_fst ?_ _ _ ?_
  | with_reducible refine Keeps.foldl ?_ _ _ ?_
  | split
  | (with_reducible intro x; refine Keeps.cut (F := F) (r := r) (s := x) ?_ (fun hx => ?_); on_goal 2 => clear_value x)
  | (with_reducible intro x; refine Keeps.cut (F := F) (r := r) (s := x.1) ?_ (fun hx => ?_); on_goal 2 => clear_value x)
  | (with_reducible intro y)
  | (lift_lets; with_reducible intro x; refine Keeps.cut (F := F) (r := r) (s := x) ?_ (fun hx => ?_); on_goal 2 => clear_value x)
  | (lift_lets; with_reducible intro x; refine Keeps.cut (F := F) (r := r) (s := x.1) ?_ (fun hx => ?_); on_goal 2 => clear_value x)
  | (lift_lets; with_reducible intro y)
  | simp only [id]
  | dsimp only

theorem State.rerun_keeps {F : List Kind} {r s : State} (kregs : Kind.regs ∈ F) (kresp : Kind.resp ∈ F) (kout : Kind.out ∈ F) (knewtIrq : Kind.newtIrq ∈ F) (kfieldOps : Kind.fieldOps ∈ F) (khart : Kind.hart ∈ F) (kdie : Kind.die ∈ F) (kpaused : Kind.paused ∈ F) (kecc : Kind.ecc ∈ F) (kcache : Kind.cache ∈ F) (kplru : Kind.plru ∈ F) (kslices : Kind.slices ∈ F) (kwbTag : Kind.wbTag ∈ F) (kring : Kind.ring ∈ F) (kcaps : Kind.caps ∈ F) (kcapBusy : Kind.capBusy ∈ F) (h : Keeps F r s) (d : Nat) (w : List Access) :
    Keeps F r (State.rerun s d w) := by
  unfold State.rerun
  try lift_lets
  repeat' first
  | with_reducible assumption
  | exact Or.inl (by with_reducible assumption)
  | (refine Or.inr ?_; (repeat with_reducible apply Nat.le_add_right_of_le); first | decide | omega)
  | with_reducible rfl
  | (with_reducible refine Keeps.upd ?_ rfl rfl rfl rfl rfl rfl rfl rfl ?_ ?_ ?_ ?_ ?_ ?_ ?_ ?_ ?_ ?_ ?_ ?_ ?_ ?_ ?_ ?_ ?_ ?_ ?_ ?_ ?_ ?_ ?_ ?_ ?_ ?_ ?_ ?_ ?_ ?_ ?_ ?_ ?_ ?_ ?_ ?_ ?_ ?_ ?_ ?_ ?_ ?_ ?_ ?_ ?_ ?_ ?_ ?_ ?_ ?_ ?_ ?_ ?_ ?_ ?_ ?_ ?_ ?_ ?_ ?_ ?_ ?_ ?_ <;> first | with_reducible assumption | with_reducible exact Or.inr rfl | with_reducible exact Or.inl (by assumption) | with_reducible apply State.forAll_keeps | with_reducible apply State.accessAgain_keeps)
  | with_reducible apply State.forAll_keeps
  | with_reducible apply State.accessAgain_keeps
  | with_reducible refine Keeps.ite ?_ ?_
  | with_reducible refine OptKeeps.get (by with_reducible assumption) ?_
  | with_reducible refine Keeps.elim ?_ ?_
  | with_reducible refine Keeps.foldl_fst ?_ _ _ ?_
  | with_reducible refine Keeps.foldl ?_ _ _ ?_
  | split
  | (with_reducible intro x; refine Keeps.cut (F := F) (r := r) (s := x) ?_ (fun hx => ?_); on_goal 2 => clear_value x)
  | (with_reducible intro x; refine Keeps.cut (F := F) (r := r) (s := x.1) ?_ (fun hx => ?_); on_goal 2 => clear_value x)
  | (with_reducible intro y)
  | (lift_lets; with_reducible intro x; refine Keeps.cut (F := F) (r := r) (s := x) ?_ (fun hx => ?_); on_goal 2 => clear_value x)
  | (lift_lets; with_reducible intro x; refine Keeps.cut (F := F) (r := r) (s := x.1) ?_ (fun hx => ?_); on_goal 2 => clear_value x)
  | (lift_lets; with_reducible intro y)
  | simp only [id]
  | dsimp only

theorem State.sliceEnd_keeps {F : List Kind} {r s : State} (kregs : Kind.regs ∈ F) (kresp : Kind.resp ∈ F) (kout : Kind.out ∈ F) (knewtIrq : Kind.newtIrq ∈ F) (kfieldOps : Kind.fieldOps ∈ F) (khart : Kind.hart ∈ F) (kdie : Kind.die ∈ F) (kpaused : Kind.paused ∈ F) (kecc : Kind.ecc ∈ F) (kcache : Kind.cache ∈ F) (kplru : Kind.plru ∈ F) (kslices : Kind.slices ∈ F) (kwbTag : Kind.wbTag ∈ F) (kring : Kind.ring ∈ F) (kcaps : Kind.caps ∈ F) (kcapBusy : Kind.capBusy ∈ F) (h : Keeps F r s) (d : Nat) (l : Nat) (skip : Nat) :
    Keeps F r (State.sliceEnd s d l skip) := by
  unfold State.sliceEnd
  try lift_lets
  repeat' first
  | with_reducible assumption
  | (with_reducible refine Keeps.upd ?_ rfl rfl rfl rfl rfl rfl rfl rfl ?_ ?_ ?_ ?_ ?_ ?_ ?_ ?_ ?_ ?_ ?_ ?_ ?_ ?_ ?_ ?_ ?_ ?_ ?_ ?_ ?_ ?_ ?_ ?_ ?_ ?_ ?_ ?_ ?_ ?_ ?_ ?_ ?_ ?_ ?_ ?_ ?_ ?_ ?_ ?_ ?_ ?_ ?_ ?_ ?_ ?_ ?_ ?_ ?_ ?_ ?_ ?_ ?_ ?_ ?_ ?_ ?_ ?_ ?_ ?_ ?_ ?_ ?_ <;> first | with_reducible assumption | with_reducible exact Or.inr rfl | with_reducible exact Or.inl (by assumption) | with_reducible apply State.rerun_keeps)

theorem State.respond_keeps {F : List Kind} {r s : State} (kout : Kind.out ∈ F) (h : Keeps F r s) (d : Nat) (k : CohKind) (m : CohMsg) (a4 : Option CLine) (tag : Nat) :
    Keeps F r (State.respond s d k m a4 tag) := by
  unfold State.respond
  try lift_lets
  repeat' first
  | with_reducible assumption
  | with_reducible apply State.toHome_keeps

theorem State.snoop_keeps {F : List Kind} {r s : State} (kout : Kind.out ∈ F) (kecc : Kind.ecc ∈ F) (kcache : Kind.cache ∈ F) (kslices : Kind.slices ∈ F) (h : Keeps F r s) (d : Nat) (k : CohKind) (m : CohMsg) :
    Keeps F r (State.snoop s d k m) := by
  unfold State.snoop
  try lift_lets
  repeat' first
  | with_reducible assumption
  | exact Or.inl (by with_reducible assumption)
  | (refine Or.inr ?_; (repeat with_reducible apply Nat.le_add_right_of_le); first | decide | omega)
  | with_reducible rfl
  | with_reducible apply State.dropDie_keeps
  | with_reducible apply State.respond_keeps
  | with_reducible apply State.setSliceTxn_keeps
  | with_reducible apply State.collapseDie_keeps
  | with_reducible apply State.cleanDie_keeps
  | with_reducible refine Keeps.ite ?_ ?_
  | with_reducible refine OptKeeps.get (by with_reducible assumption) ?_
  | with_reducible refine Keeps.elim ?_ ?_
  | with_reducible refine Keeps.foldl_fst ?_ _ _ ?_
  | with_reducible refine Keeps.foldl ?_ _ _ ?_
  | split
  | (with_reducible intro x; refine Keeps.cut (F := F) (r := r) (s := x) ?_ (fun hx => ?_); on_goal 2 => clear_value x)
  | (with_reducible intro x; refine Keeps.cut (F := F) (r := r) (s := x.1) ?_ (fun hx => ?_); on_goal 2 => clear_value x)
  | (with_reducible intro y)
  | (lift_lets; with_reducible intro x; refine Keeps.cut (F := F) (r := r) (s := x) ?_ (fun hx => ?_); on_goal 2 => clear_value x)
  | (lift_lets; with_reducible intro x; refine Keeps.cut (F := F) (r := r) (s := x.1) ?_ (fun hx => ?_); on_goal 2 => clear_value x)
  | (lift_lets; with_reducible intro y)
  | simp only [id]
  | dsimp only

theorem State.dieSnoop_keeps {F : List Kind} {r s : State} (kregs : Kind.regs ∈ F) (kout : Kind.out ∈ F) (knewtIrq : Kind.newtIrq ∈ F) (kfieldOps : Kind.fieldOps ∈ F) (kpaused : Kind.paused ∈ F) (kcsq : Kind.csq ∈ F) (kecc : Kind.ecc ∈ F) (kcache : Kind.cache ∈ F) (kslices : Kind.slices ∈ F) (kfaultN : Kind.faultN ∈ F) (ktxIdle : Kind.txIdle ∈ F) (kcaps : Kind.caps ∈ F) (kcapBusy : Kind.capBusy ∈ F) (h : Keeps F r s) (d : Nat) (k : CohKind) (m : CohMsg) :
    ResKeeps F r (State.dieSnoop s d k m) := by
  unfold State.dieSnoop
  try lift_lets
  repeat' first
  | with_reducible assumption
  | exact Or.inl (by with_reducible assumption)
  | (refine Or.inr ?_; (repeat with_reducible apply Nat.le_add_right_of_le); first | decide | omega)
  | with_reducible rfl
  | with_reducible apply State.fatalStop_keeps
  | with_reducible apply State.dieLook_keeps
  | with_reducible apply State.snoop_keeps
  | with_reducible apply ResKeeps.next
  | with_reducible refine ResKeeps.ite ?_ ?_
  | with_reducible refine Keeps.ite ?_ ?_
  | with_reducible refine OptKeeps.get (by with_reducible assumption) ?_
  | with_reducible refine Keeps.elim ?_ ?_
  | with_reducible refine Keeps.foldl_fst ?_ _ _ ?_
  | with_reducible refine Keeps.foldl ?_ _ _ ?_
  | split
  | (with_reducible intro x; refine Keeps.cut (F := F) (r := r) (s := x) ?_ (fun hx => ?_); on_goal 2 => clear_value x)
  | (with_reducible intro x; refine Keeps.cut (F := F) (r := r) (s := x.1) ?_ (fun hx => ?_); on_goal 2 => clear_value x)
  | (with_reducible intro y)
  | (lift_lets; with_reducible intro x; refine Keeps.cut (F := F) (r := r) (s := x) ?_ (fun hx => ?_); on_goal 2 => clear_value x)
  | (lift_lets; with_reducible intro x; refine Keeps.cut (F := F) (r := r) (s := x.1) ?_ (fun hx => ?_); on_goal 2 => clear_value x)
  | (lift_lets; with_reducible intro y)
  | simp only [id]
  | dsimp only

theorem execSnpS_keeps {F : List Kind} {r s : State} (kregs : Kind.regs ∈ F) (kout : Kind.out ∈ F) (knewtIrq : Kind.newtIrq ∈ F) (kfieldOps : Kind.fieldOps ∈ F) (kpaused : Kind.paused ∈ F) (kcsq : Kind.csq ∈ F) (kecc : Kind.ecc ∈ F) (kcache : Kind.cache ∈ F) (kslices : Kind.slices ∈ F) (kfaultN : Kind.faultN ∈ F) (ktxIdle : Kind.txIdle ∈ F) (kcaps : Kind.caps ∈ F) (kcapBusy : Kind.capBusy ∈ F) (h : Keeps F r s) (die : Fin 12) (m : CohMsg) :
    ResKeeps F r (execSnpS die m s) := by
  unfold execSnpS
  try lift_lets
  repeat' first
  | with_reducible assumption
  | with_reducible apply State.dieSnoop_keeps

theorem execSnpI_keeps {F : List Kind} {r s : State} (kregs : Kind.regs ∈ F) (kout : Kind.out ∈ F) (knewtIrq : Kind.newtIrq ∈ F) (kfieldOps : Kind.fieldOps ∈ F) (kpaused : Kind.paused ∈ F) (kcsq : Kind.csq ∈ F) (kecc : Kind.ecc ∈ F) (kcache : Kind.cache ∈ F) (kslices : Kind.slices ∈ F) (kfaultN : Kind.faultN ∈ F) (ktxIdle : Kind.txIdle ∈ F) (kcaps : Kind.caps ∈ F) (kcapBusy : Kind.capBusy ∈ F) (h : Keeps F r s) (die : Fin 12) (m : CohMsg) :
    ResKeeps F r (execSnpI die m s) := by
  unfold execSnpI
  try lift_lets
  repeat' first
  | with_reducible assumption
  | with_reducible apply State.dieSnoop_keeps

theorem execSnpC_keeps {F : List Kind} {r s : State} (kregs : Kind.regs ∈ F) (kout : Kind.out ∈ F) (knewtIrq : Kind.newtIrq ∈ F) (kfieldOps : Kind.fieldOps ∈ F) (kpaused : Kind.paused ∈ F) (kcsq : Kind.csq ∈ F) (kecc : Kind.ecc ∈ F) (kcache : Kind.cache ∈ F) (kslices : Kind.slices ∈ F) (kfaultN : Kind.faultN ∈ F) (ktxIdle : Kind.txIdle ∈ F) (kcaps : Kind.caps ∈ F) (kcapBusy : Kind.capBusy ∈ F) (h : Keeps F r s) (die : Fin 12) (m : CohMsg) :
    ResKeeps F r (execSnpC die m s) := by
  unfold execSnpC
  try lift_lets
  repeat' first
  | with_reducible assumption
  | with_reducible apply State.dieSnoop_keeps

theorem State.install_keeps {F : List Kind} {r s : State} (kout : Kind.out ∈ F) (kecc : Kind.ecc ∈ F) (kcache : Kind.cache ∈ F) (kplru : Kind.plru ∈ F) (kslices : Kind.slices ∈ F) (kwbTag : Kind.wbTag ∈ F) (h : Keeps F r s) (d : Nat) (m : CohMsg) (st : Nat) :
    Keeps F r (State.install s d m st) := by
  unfold State.install
  try lift_lets
  repeat' first
  | with_reducible assumption
  | with_reducible apply State.dropDie_keeps
  | with_reducible apply State.fillL3_keeps
  | with_reducible apply State.fillL2_keeps
  | split

theorem State.filled_keeps {F : List Kind} {r s : State} (kregs : Kind.regs ∈ F) (kresp : Kind.resp ∈ F) (kout : Kind.out ∈ F) (knewtIrq : Kind.newtIrq ∈ F) (kfieldOps : Kind.fieldOps ∈ F) (khart : Kind.hart ∈ F) (kdie : Kind.die ∈ F) (kpaused : Kind.paused ∈ F) (kecc : Kind.ecc ∈ F) (kcache : Kind.cache ∈ F) (kplru : Kind.plru ∈ F) (kslices : Kind.slices ∈ F) (kwbTag : Kind.wbTag ∈ F) (kring : Kind.ring ∈ F) (kcaps : Kind.caps ∈ F) (kcapBusy : Kind.capBusy ∈ F) (h : Keeps F r s) (d : Nat) (m : CohMsg) :
    Keeps F r (State.filled s d m) := by
  unfold State.filled
  try lift_lets
  repeat' first
  | with_reducible assumption
  | exact Or.inl (by with_reducible assumption)
  | (refine Or.inr ?_; (repeat with_reducible apply Nat.le_add_right_of_le); first | decide | omega)
  | with_reducible rfl
  | with_reducible apply State.sliceEnd_keeps
  | with_reducible apply State.loadDone_keeps
  | with_reducible refine Keeps.ite ?_ ?_
  | with_reducible refine OptKeeps.get (by with_reducible assumption) ?_
  | with_reducible refine Keeps.elim ?_ ?_
  | with_reducible refine Keeps.foldl_fst ?_ _ _ ?_
  | with_reducible refine Keeps.foldl ?_ _ _ ?_
  | split
  | (with_reducible intro x; refine Keeps.cut (F := F) (r := r) (s := x) ?_ (fun hx => ?_); on_goal 2 => clear_value x)
  | (with_reducible intro x; refine Keeps.cut (F := F) (r := r) (s := x.1) ?_ (fun hx => ?_); on_goal 2 => clear_value x)
  | (with_reducible intro y)
  | (lift_lets; with_reducible intro x; refine Keeps.cut (F := F) (r := r) (s := x) ?_ (fun hx => ?_); on_goal 2 => clear_value x)
  | (lift_lets; with_reducible intro x; refine Keeps.cut (F := F) (r := r) (s := x.1) ?_ (fun hx => ?_); on_goal 2 => clear_value x)
  | (lift_lets; with_reducible intro y)
  | simp only [id]
  | dsimp only

theorem State.granted_keeps {F : List Kind} {r s : State} (kout : Kind.out ∈ F) (kecc : Kind.ecc ∈ F) (kcache : Kind.cache ∈ F) (kplru : Kind.plru ∈ F) (kslices : Kind.slices ∈ F) (kwbTag : Kind.wbTag ∈ F) (h : Keeps F r s) (d : Nat) (l : Nat) :
    Keeps F r (State.granted s d l) := by
  unfold State.granted
  try lift_lets
  repeat' first
  | with_reducible assumption
  | exact Or.inl (by with_reducible assumption)
  | (refine Or.inr ?_; (repeat with_reducible apply Nat.le_add_right_of_le); first | decide | omega)
  | with_reducible rfl
  | with_reducible apply State.takeOwnership_keeps
  | with_reducible refine Keeps.ite ?_ ?_
  | with_reducible refine OptKeeps.get (by with_reducible assumption) ?_
  | with_reducible refine Keeps.elim ?_ ?_
  | with_reducible refine Keeps.foldl_fst ?_ _ _ ?_
  | with_reducible refine Keeps.foldl ?_ _ _ ?_
  | split
  | (with_reducible intro y)
  | (lift_lets; with_reducible intro y)
  | simp only [id]
  | dsimp only

theorem State.reply_keeps {F : List Kind} {r s : State} (kregs : Kind.regs ∈ F) (kresp : Kind.resp ∈ F) (kout : Kind.out ∈ F) (knewtIrq : Kind.newtIrq ∈ F) (kfieldOps : Kind.fieldOps ∈ F) (khart : Kind.hart ∈ F) (kdie : Kind.die ∈ F) (kpaused : Kind.paused ∈ F) (kcsq : Kind.csq ∈ F) (kecc : Kind.ecc ∈ F) (kcache : Kind.cache ∈ F) (kplru : Kind.plru ∈ F) (kslices : Kind.slices ∈ F) (kwbTag : Kind.wbTag ∈ F) (kring : Kind.ring ∈ F) (kfaultN : Kind.faultN ∈ F) (ktxIdle : Kind.txIdle ∈ F) (kcaps : Kind.caps ∈ F) (kcapBusy : Kind.capBusy ∈ F) (h : Keeps F r s) (d : Nat) (k : CohKind) (m : CohMsg) :
    ResKeeps F r (State.reply s d k m) := by
  unfold State.reply
  try lift_lets
  repeat' first
  | with_reducible assumption
  | exact Or.inl (by with_reducible assumption)
  | (refine Or.inr ?_; (repeat with_reducible apply Nat.le_add_right_of_le); first | decide | omega)
  | with_reducible rfl
  | (with_reducible refine Keeps.upd ?_ rfl rfl rfl rfl rfl rfl rfl rfl ?_ ?_ ?_ ?_ ?_ ?_ ?_ ?_ ?_ ?_ ?_ ?_ ?_ ?_ ?_ ?_ ?_ ?_ ?_ ?_ ?_ ?_ ?_ ?_ ?_ ?_ ?_ ?_ ?_ ?_ ?_ ?_ ?_ ?_ ?_ ?_ ?_ ?_ ?_ ?_ ?_ ?_ ?_ ?_ ?_ ?_ ?_ ?_ ?_ ?_ ?_ ?_ ?_ ?_ ?_ ?_ ?_ ?_ ?_ ?_ ?_ ?_ ?_ <;> first | with_reducible assumption | with_reducible exact Or.inr rfl | with_reducible exact Or.inl (by assumption) | with_reducible apply State.fatalStop_keeps | with_reducible apply State.dieLook_keeps | with_reducible apply State.toHome_keeps | with_reducible apply State.install_keeps | with_reducible apply State.filled_keeps | with_reducible apply State.granted_keeps | with_reducible apply State.sliceEnd_keeps)
  | with_reducible apply State.fatalStop_keeps
  | with_reducible apply State.dieLook_keeps
  | with_reducible apply State.toHome_keeps
  | with_reducible apply State.install_keeps
  | with_reducible apply State.filled_keeps
  | with_reducible apply State.granted_keeps
  | with_reducible apply State.sliceEnd_keeps
  | with_reducible apply ResKeeps.next
  | with_reducible refine ResKeeps.ite ?_ ?_
  | with_reducible refine Keeps.ite ?_ ?_
  | with_reducible refine OptKeeps.get (by with_reducible assumption) ?_
  | with_reducible refine Keeps.elim ?_ ?_
  | with_reducible refine Keeps.foldl_fst ?_ _ _ ?_
  | with_reducible refine Keeps.foldl ?_ _ _ ?_
  | split
  | (with_reducible intro x; refine Keeps.cut (F := F) (r := r) (s := x) ?_ (fun hx => ?_); on_goal 2 => clear_value x)
  | (with_reducible intro x; refine Keeps.cut (F := F) (r := r) (s := x.1) ?_ (fun hx => ?_); on_goal 2 => clear_value x)
  | (with_reducible intro y)
  | (lift_lets; with_reducible intro x; refine Keeps.cut (F := F) (r := r) (s := x) ?_ (fun hx => ?_); on_goal 2 => clear_value x)
  | (lift_lets; with_reducible intro x; refine Keeps.cut (F := F) (r := r) (s := x.1) ?_ (fun hx => ?_); on_goal 2 => clear_value x)
  | (lift_lets; with_reducible intro y)
  | simp only [id]
  | dsimp only

theorem execDataS_keeps {F : List Kind} {r s : State} (kregs : Kind.regs ∈ F) (kresp : Kind.resp ∈ F) (kout : Kind.out ∈ F) (knewtIrq : Kind.newtIrq ∈ F) (kfieldOps : Kind.fieldOps ∈ F) (khart : Kind.hart ∈ F) (kdie : Kind.die ∈ F) (kpaused : Kind.paused ∈ F) (kcsq : Kind.csq ∈ F) (kecc : Kind.ecc ∈ F) (kcache : Kind.cache ∈ F) (kplru : Kind.plru ∈ F) (kslices : Kind.slices ∈ F) (kwbTag : Kind.wbTag ∈ F) (kring : Kind.ring ∈ F) (kfaultN : Kind.faultN ∈ F) (ktxIdle : Kind.txIdle ∈ F) (kcaps : Kind.caps ∈ F) (kcapBusy : Kind.capBusy ∈ F) (h : Keeps F r s) (die : Fin 12) (m : CohMsg) :
    ResKeeps F r (execDataS die m s) := by
  unfold execDataS
  try lift_lets
  repeat' first
  | with_reducible assumption
  | with_reducible apply State.reply_keeps

theorem execDataE_keeps {F : List Kind} {r s : State} (kregs : Kind.regs ∈ F) (kresp : Kind.resp ∈ F) (kout : Kind.out ∈ F) (knewtIrq : Kind.newtIrq ∈ F) (kfieldOps : Kind.fieldOps ∈ F) (khart : Kind.hart ∈ F) (kdie : Kind.die ∈ F) (kpaused : Kind.paused ∈ F) (kcsq : Kind.csq ∈ F) (kecc : Kind.ecc ∈ F) (kcache : Kind.cache ∈ F) (kplru : Kind.plru ∈ F) (kslices : Kind.slices ∈ F) (kwbTag : Kind.wbTag ∈ F) (kring : Kind.ring ∈ F) (kfaultN : Kind.faultN ∈ F) (ktxIdle : Kind.txIdle ∈ F) (kcaps : Kind.caps ∈ F) (kcapBusy : Kind.capBusy ∈ F) (h : Keeps F r s) (die : Fin 12) (m : CohMsg) :
    ResKeeps F r (execDataE die m s) := by
  unfold execDataE
  try lift_lets
  repeat' first
  | with_reducible assumption
  | with_reducible apply State.reply_keeps

theorem execGntX_keeps {F : List Kind} {r s : State} (kregs : Kind.regs ∈ F) (kresp : Kind.resp ∈ F) (kout : Kind.out ∈ F) (knewtIrq : Kind.newtIrq ∈ F) (kfieldOps : Kind.fieldOps ∈ F) (khart : Kind.hart ∈ F) (kdie : Kind.die ∈ F) (kpaused : Kind.paused ∈ F) (kcsq : Kind.csq ∈ F) (kecc : Kind.ecc ∈ F) (kcache : Kind.cache ∈ F) (kplru : Kind.plru ∈ F) (kslices : Kind.slices ∈ F) (kwbTag : Kind.wbTag ∈ F) (kring : Kind.ring ∈ F) (kfaultN : Kind.faultN ∈ F) (ktxIdle : Kind.txIdle ∈ F) (kcaps : Kind.caps ∈ F) (kcapBusy : Kind.capBusy ∈ F) (h : Keeps F r s) (die : Fin 12) (m : CohMsg) :
    ResKeeps F r (execGntX die m s) := by
  unfold execGntX
  try lift_lets
  repeat' first
  | with_reducible assumption
  | with_reducible apply State.reply_keeps

theorem execWbAck_keeps {F : List Kind} {r s : State} (kregs : Kind.regs ∈ F) (kresp : Kind.resp ∈ F) (kout : Kind.out ∈ F) (knewtIrq : Kind.newtIrq ∈ F) (kfieldOps : Kind.fieldOps ∈ F) (khart : Kind.hart ∈ F) (kdie : Kind.die ∈ F) (kpaused : Kind.paused ∈ F) (kcsq : Kind.csq ∈ F) (kecc : Kind.ecc ∈ F) (kcache : Kind.cache ∈ F) (kplru : Kind.plru ∈ F) (kslices : Kind.slices ∈ F) (kwbTag : Kind.wbTag ∈ F) (kring : Kind.ring ∈ F) (kfaultN : Kind.faultN ∈ F) (ktxIdle : Kind.txIdle ∈ F) (kcaps : Kind.caps ∈ F) (kcapBusy : Kind.capBusy ∈ F) (h : Keeps F r s) (die : Fin 12) (m : CohMsg) :
    ResKeeps F r (execWbAck die m s) := by
  unfold execWbAck
  try lift_lets
  repeat' first
  | with_reducible assumption
  | with_reducible apply State.reply_keeps

theorem execWbStale_keeps {F : List Kind} {r s : State} (kregs : Kind.regs ∈ F) (kresp : Kind.resp ∈ F) (kout : Kind.out ∈ F) (knewtIrq : Kind.newtIrq ∈ F) (kfieldOps : Kind.fieldOps ∈ F) (khart : Kind.hart ∈ F) (kdie : Kind.die ∈ F) (kpaused : Kind.paused ∈ F) (kcsq : Kind.csq ∈ F) (kecc : Kind.ecc ∈ F) (kcache : Kind.cache ∈ F) (kplru : Kind.plru ∈ F) (kslices : Kind.slices ∈ F) (kwbTag : Kind.wbTag ∈ F) (kring : Kind.ring ∈ F) (kfaultN : Kind.faultN ∈ F) (ktxIdle : Kind.txIdle ∈ F) (kcaps : Kind.caps ∈ F) (kcapBusy : Kind.capBusy ∈ F) (h : Keeps F r s) (die : Fin 12) (m : CohMsg) :
    ResKeeps F r (execWbStale die m s) := by
  unfold execWbStale
  try lift_lets
  repeat' first
  | with_reducible assumption
  | with_reducible apply State.reply_keeps

theorem State.accessFails_keeps {F : List Kind} {r s : State} (kregs : Kind.regs ∈ F) (kresp : Kind.resp ∈ F) (knewtIrq : Kind.newtIrq ∈ F) (kfieldOps : Kind.fieldOps ∈ F) (kpaused : Kind.paused ∈ F) (kcaps : Kind.caps ∈ F) (kcapBusy : Kind.capBusy ∈ F) (h : Keeps F r s) (a : Access) :
    Keeps F r (State.accessFails s a) := by
  unfold State.accessFails
  try lift_lets
  repeat' first
  | with_reducible assumption
  | with_reducible apply State.logRec_keeps
  | with_reducible apply State.answer_keeps
  | split

theorem execPrefetchIssue_keeps {F : List Kind} {r s : State} (kregs : Kind.regs ∈ F) (kresp : Kind.resp ∈ F) (kout : Kind.out ∈ F) (knewtIrq : Kind.newtIrq ∈ F) (kfieldOps : Kind.fieldOps ∈ F) (khart : Kind.hart ∈ F) (kdie : Kind.die ∈ F) (kpaused : Kind.paused ∈ F) (kcsq : Kind.csq ∈ F) (kecc : Kind.ecc ∈ F) (kcache : Kind.cache ∈ F) (kplru : Kind.plru ∈ F) (kstreams : Kind.streams ∈ F) (kslices : Kind.slices ∈ F) (kwbTag : Kind.wbTag ∈ F) (kring : Kind.ring ∈ F) (kfaultN : Kind.faultN ∈ F) (ktxIdle : Kind.txIdle ∈ F) (kcaps : Kind.caps ∈ F) (kcapBusy : Kind.capBusy ∈ F) (h : Keeps F r s) (die : Fin 12) (unit : Fin 27) (idx : Fin 32) :
    ResKeeps F r (execPrefetchIssue die unit idx s) := by
  unfold execPrefetchIssue
  try lift_lets
  repeat' first
  | with_reducible assumption
  | exact Or.inl (by with_reducible assumption)
  | (refine Or.inr ?_; (repeat with_reducible apply Nat.le_add_right_of_le); first | decide | omega)
  | with_reducible rfl
  | (with_reducible refine Keeps.upd ?_ rfl rfl rfl rfl rfl rfl rfl rfl ?_ ?_ ?_ ?_ ?_ ?_ ?_ ?_ ?_ ?_ ?_ ?_ ?_ ?_ ?_ ?_ ?_ ?_ ?_ ?_ ?_ ?_ ?_ ?_ ?_ ?_ ?_ ?_ ?_ ?_ ?_ ?_ ?_ ?_ ?_ ?_ ?_ ?_ ?_ ?_ ?_ ?_ ?_ ?_ ?_ ?_ ?_ ?_ ?_ ?_ ?_ ?_ ?_ ?_ ?_ ?_ ?_ ?_ ?_ ?_ ?_ ?_ ?_ <;> first | with_reducible assumption | with_reducible exact Or.inr rfl | with_reducible exact Or.inl (by assumption) | with_reducible apply State.dieLook_keeps | with_reducible apply State.fatalStop_keeps | with_reducible apply State.coreAccess_keeps)
  | with_reducible apply State.dieLook_keeps
  | with_reducible apply State.fatalStop_keeps
  | with_reducible apply State.coreAccess_keeps
  | with_reducible apply ResKeeps.next
  | with_reducible refine ResKeeps.ite ?_ ?_
  | with_reducible refine Keeps.ite ?_ ?_
  | with_reducible refine OptKeeps.get (by with_reducible assumption) ?_
  | with_reducible refine Keeps.elim ?_ ?_
  | with_reducible refine Keeps.foldl_fst ?_ _ _ ?_
  | with_reducible refine Keeps.foldl ?_ _ _ ?_
  | split
  | (with_reducible intro x; refine Keeps.cut (F := F) (r := r) (s := x) ?_ (fun hx => ?_); on_goal 2 => clear_value x)
  | (with_reducible intro x; refine Keeps.cut (F := F) (r := r) (s := x.1) ?_ (fun hx => ?_); on_goal 2 => clear_value x)
  | (with_reducible intro y)
  | (lift_lets; with_reducible intro x; refine Keeps.cut (F := F) (r := r) (s := x) ?_ (fun hx => ?_); on_goal 2 => clear_value x)
  | (lift_lets; with_reducible intro x; refine Keeps.cut (F := F) (r := r) (s := x.1) ?_ (fun hx => ?_); on_goal 2 => clear_value x)
  | (lift_lets; with_reducible intro y)
  | simp only [id]
  | dsimp only

theorem State.flushToMemory_keeps {F : List Kind} {r s : State} (kregs : Kind.regs ∈ F) (kmem : Kind.mem ∈ F) (knewtIrq : Kind.newtIrq ∈ F) (kfieldOps : Kind.fieldOps ∈ F) (kpaused : Kind.paused ∈ F) (kecc : Kind.ecc ∈ F) (kmc : Kind.mc ∈ F) (kpoison : Kind.poison ∈ F) (kcache : Kind.cache ∈ F) (kcaps : Kind.caps ∈ F) (kcapBusy : Kind.capBusy ∈ F) (h : Keeps F r s) (l : Nat) (c : Issuer) :
    Keeps F r (State.flushToMemory s l c) := by
  unfold State.flushToMemory
  try lift_lets
  repeat' first
  | with_reducible assumption
  | with_reducible apply State.forAll_keeps
  | with_reducible apply State.collapseDie_keeps
  | with_reducible apply State.memWriteLine_keeps
  | split
  | (intro y)

theorem State.lineFatal_keeps {F : List Kind} {r s : State} (kregs : Kind.regs ∈ F) (knewtIrq : Kind.newtIrq ∈ F) (kfieldOps : Kind.fieldOps ∈ F) (kpaused : Kind.paused ∈ F) (kcsq : Kind.csq ∈ F) (kfaultN : Kind.faultN ∈ F) (ktxIdle : Kind.txIdle ∈ F) (kcaps : Kind.caps ∈ F) (kcapBusy : Kind.capBusy ∈ F) (h : Keeps F r s) (l : Nat) (src : Nat) (all : Bool) :
    OptKeeps F r (State.lineFatal s l src all) := by
  unfold State.lineFatal
  try lift_lets
  repeat' first
  | with_reducible assumption
  | exact Or.inl (by with_reducible assumption)
  | (refine Or.inr ?_; (repeat with_reducible apply Nat.le_add_right_of_le); first | decide | omega)
  | with_reducible rfl
  | with_reducible apply State.fatalStop_keeps
  | with_reducible apply OptKeeps.some
  | with_reducible exact OptKeeps.none
  | with_reducible refine OptKeeps.ite ?_ ?_
  | with_reducible refine Keeps.ite ?_ ?_
  | with_reducible refine OptKeeps.get (by with_reducible assumption) ?_
  | with_reducible refine Keeps.elim ?_ ?_
  | with_reducible refine Keeps.foldl_fst ?_ _ _ ?_
  | with_reducible refine Keeps.foldl ?_ _ _ ?_
  | split
  | (with_reducible intro x; refine Keeps.cut (F := F) (r := r) (s := x) ?_ (fun hx => ?_); on_goal 2 => clear_value x)
  | (with_reducible intro x; refine Keeps.cut (F := F) (r := r) (s := x.1) ?_ (fun hx => ?_); on_goal 2 => clear_value x)
  | (with_reducible intro y)
  | (lift_lets; with_reducible intro x; refine Keeps.cut (F := F) (r := r) (s := x) ?_ (fun hx => ?_); on_goal 2 => clear_value x)
  | (lift_lets; with_reducible intro x; refine Keeps.cut (F := F) (r := r) (s := x.1) ?_ (fun hx => ?_); on_goal 2 => clear_value x)
  | (lift_lets; with_reducible intro y)
  | simp only [id]
  | dsimp only

theorem State.lineCorrect_keeps {F : List Kind} {r s : State} (kregs : Kind.regs ∈ F) (knewtIrq : Kind.newtIrq ∈ F) (kfieldOps : Kind.fieldOps ∈ F) (kpaused : Kind.paused ∈ F) (kecc : Kind.ecc ∈ F) (kcache : Kind.cache ∈ F) (kcaps : Kind.caps ∈ F) (kcapBusy : Kind.capBusy ∈ F) (h : Keeps F r s) (l : Nat) (all : Bool) :
    Keeps F r (State.lineCorrect s l all) := by
  unfold State.lineCorrect
  try lift_lets
  repeat' first
  | with_reducible assumption
  | exact Or.inl (by with_reducible assumption)
  | (refine Or.inr ?_; (repeat with_reducible apply Nat.le_add_right_of_le); first | decide | omega)
  | with_reducible rfl
  | with_reducible apply State.homeCorrect_keeps
  | with_reducible apply State.forAll_keeps
  | with_reducible apply State.dieLook_keeps
  | with_reducible refine Keeps.ite ?_ ?_
  | with_reducible refine OptKeeps.get (by with_reducible assumption) ?_
  | with_reducible refine Keeps.elim ?_ ?_
  | with_reducible refine Keeps.foldl_fst ?_ _ _ ?_
  | with_reducible refine Keeps.foldl ?_ _ _ ?_
  | split
  | (with_reducible intro x; refine Keeps.cut (F := F) (r := r) (s := x) ?_ (fun hx => ?_); on_goal 2 => clear_value x)
  | (with_reducible intro x; refine Keeps.cut (F := F) (r := r) (s := x.1) ?_ (fun hx => ?_); on_goal 2 => clear_value x)
  | (with_reducible intro y)
  | (lift_lets; with_reducible intro x; refine Keeps.cut (F := F) (r := r) (s := x) ?_ (fun hx => ?_); on_goal 2 => clear_value x)
  | (lift_lets; with_reducible intro x; refine Keeps.cut (F := F) (r := r) (s := x.1) ?_ (fun hx => ?_); on_goal 2 => clear_value x)
  | (lift_lets; with_reducible intro y)
  | simp only [id]
  | dsimp only

theorem State.dieSent_keeps {F : List Kind} {r s : State} (kdie : Kind.die ∈ F) (h : Keeps F r s) (a_h : Nat) (l : Nat) (txn : Nat) (op : Nat) (sealed : Bool) (waits : Bool) :
    Keeps F r (State.dieSent s a_h l txn op sealed waits) := by
  unfold State.dieSent
  try lift_lets
  repeat' first
  | with_reducible assumption
  | exact Or.inl (by with_reducible assumption)
  | (refine Or.inr ?_; (repeat with_reducible apply Nat.le_add_right_of_le); first | decide | omega)
  | with_reducible rfl
  | with_reducible apply State.setDie_keeps
  | with_reducible refine Keeps.ite ?_ ?_
  | with_reducible refine OptKeeps.get (by with_reducible assumption) ?_
  | with_reducible refine Keeps.elim ?_ ?_
  | with_reducible refine Keeps.foldl_fst ?_ _ _ ?_
  | with_reducible refine Keeps.foldl ?_ _ _ ?_
  | split
  | (with_reducible intro x; refine Keeps.cut (F := F) (r := r) (s := x) ?_ (fun hx => ?_); on_goal 2 => clear_value x)
  | (with_reducible intro x; refine Keeps.cut (F := F) (r := r) (s := x.1) ?_ (fun hx => ?_); on_goal 2 => clear_value x)
  | (with_reducible intro y)
  | (lift_lets; with_reducible intro x; refine Keeps.cut (F := F) (r := r) (s := x) ?_ (fun hx => ?_); on_goal 2 => clear_value x)
  | (lift_lets; with_reducible intro x; refine Keeps.cut (F := F) (r := r) (s := x.1) ?_ (fun hx => ?_); on_goal 2 => clear_value x)
  | (lift_lets; with_reducible intro y)
  | simp only [id]
  | dsimp only

theorem State.maintain_keeps {F : List Kind} {r s : State} (kregs : Kind.regs ∈ F) (kmem : Kind.mem ∈ F) (kout : Kind.out ∈ F) (knewtIrq : Kind.newtIrq ∈ F) (kfieldOps : Kind.fieldOps ∈ F) (kdie : Kind.die ∈ F) (kpaused : Kind.paused ∈ F) (kcsq : Kind.csq ∈ F) (kecc : Kind.ecc ∈ F) (kmc : Kind.mc ∈ F) (kpoison : Kind.poison ∈ F) (kcache : Kind.cache ∈ F) (kwbTag : Kind.wbTag ∈ F) (ksf : Kind.sf ∈ F) (ksfPlru : Kind.sfPlru ∈ F) (kfaultN : Kind.faultN ∈ F) (ktxIdle : Kind.txIdle ∈ F) (kcaps : Kind.caps ∈ F) (kcapBusy : Kind.capBusy ∈ F) (h : Keeps F r s) (a_h : Nat) (l : Nat) (op : Nat) (c : Issuer) :
    Keeps F r (State.maintain s a_h l op c) := by
  unfold State.maintain
  try lift_lets
  repeat' first
  | with_reducible assumption
  | exact Or.inl (by with_reducible assumption)
  | (refine Or.inr ?_; (repeat with_reducible apply Nat.le_add_right_of_le); first | decide | omega)
  | with_reducible rfl
  | with_reducible apply State.dieSent_keeps
  | with_reducible apply State.nextTxn_keeps
  | with_reducible apply State.toHome_keeps
  | with_reducible apply State.lineFatal_keeps
  | with_reducible apply State.lineCorrect_keeps
  | with_reducible apply State.flushToMemory_keeps
  | with_reducible apply State.forAll_keeps
  | with_reducible apply State.cleanDie_keeps
  | with_reducible apply State.dropDie_keeps
  | with_reducible apply State.sfPut_keeps
  | with_reducible refine Keeps.ite ?_ ?_
  | with_reducible refine OptKeeps.get (by with_reducible assumption) ?_
  | with_reducible refine Keeps.elim ?_ ?_
  | with_reducible refine Keeps.foldl_fst ?_ _ _ ?_
  | with_reducible refine Keeps.foldl ?_ _ _ ?_
  | split
  | (with_reducible intro x; refine Keeps.cut (F := F) (r := r) (s := x) ?_ (fun hx => ?_); on_goal 2 => clear_value x)
  | (with_reducible intro x; refine Keeps.cut (F := F) (r := r) (s := x.1) ?_ (fun hx => ?_); on_goal 2 => clear_value x)
  | (with_reducible intro y)
  | (lift_lets; with_reducible intro x; refine Keeps.cut (F := F) (r := r) (s := x) ?_ (fun hx => ?_); on_goal 2 => clear_value x)
  | (lift_lets; with_reducible intro x; refine Keeps.cut (F := F) (r := r) (s := x.1) ?_ (fun hx => ?_); on_goal 2 => clear_value x)
  | (lift_lets; with_reducible intro y)
  | simp only [id]
  | dsimp only

theorem State.dieDone_keeps {F : List Kind} {r s : State} (kregs : Kind.regs ∈ F) (kmem : Kind.mem ∈ F) (kout : Kind.out ∈ F) (knewtIrq : Kind.newtIrq ∈ F) (kfieldOps : Kind.fieldOps ∈ F) (kdie : Kind.die ∈ F) (kpaused : Kind.paused ∈ F) (kcsq : Kind.csq ∈ F) (kecc : Kind.ecc ∈ F) (kmc : Kind.mc ∈ F) (kpoison : Kind.poison ∈ F) (kcache : Kind.cache ∈ F) (kwbTag : Kind.wbTag ∈ F) (ksf : Kind.sf ∈ F) (ksfPlru : Kind.sfPlru ∈ F) (kfaultN : Kind.faultN ∈ F) (ktxIdle : Kind.txIdle ∈ F) (kcaps : Kind.caps ∈ F) (kcapBusy : Kind.capBusy ∈ F) (h : Keeps F r s) (d : Nat) (m : CohMsg) :
    Keeps F r (State.dieDone s d m) := by
  unfold State.dieDone
  try lift_lets
  repeat' first
  | with_reducible assumption
  | exact Or.inl (by with_reducible assumption)
  | (refine Or.inr ?_; (repeat with_reducible apply Nat.le_add_right_of_le); first | decide | omega)
  | with_reducible rfl
  | with_reducible apply State.setDie_keeps
  | with_reducible apply State.when_keeps
  | with_reducible apply State.logRec_keeps
  | with_reducible apply State.forAll_keeps
  | with_reducible apply State.maintain_keeps
  | with_reducible refine Keeps.ite ?_ ?_
  | with_reducible refine OptKeeps.get (by with_reducible assumption) ?_
  | with_reducible refine Keeps.elim ?_ ?_
  | with_reducible refine Keeps.foldl_fst ?_ _ _ ?_
  | with_reducible refine Keeps.foldl ?_ _ _ ?_
  | split
  | (with_reducible intro x; refine Keeps.cut (F := F) (r := r) (s := x) ?_ (fun hx => ?_); on_goal 2 => clear_value x)
  | (with_reducible intro x; refine Keeps.cut (F := F) (r := r) (s := x.1) ?_ (fun hx => ?_); on_goal 2 => clear_value x)
  | (with_reducible intro y)
  | (lift_lets; with_reducible intro x; refine Keeps.cut (F := F) (r := r) (s := x) ?_ (fun hx => ?_); on_goal 2 => clear_value x)
  | (lift_lets; with_reducible intro x; refine Keeps.cut (F := F) (r := r) (s := x.1) ?_ (fun hx => ?_); on_goal 2 => clear_value x)
  | (lift_lets; with_reducible intro y)
  | simp only [id]
  | dsimp only

theorem State.cbo_keeps {F : List Kind} {r s : State} (kregs : Kind.regs ∈ F) (kmem : Kind.mem ∈ F) (kresp : Kind.resp ∈ F) (kout : Kind.out ∈ F) (knewtIrq : Kind.newtIrq ∈ F) (kfieldOps : Kind.fieldOps ∈ F) (khart : Kind.hart ∈ F) (kdie : Kind.die ∈ F) (kpaused : Kind.paused ∈ F) (kcsq : Kind.csq ∈ F) (kecc : Kind.ecc ∈ F) (kmc : Kind.mc ∈ F) (kpoison : Kind.poison ∈ F) (kcache : Kind.cache ∈ F) (kwbTag : Kind.wbTag ∈ F) (ksf : Kind.sf ∈ F) (ksfPlru : Kind.sfPlru ∈ F) (kfaultN : Kind.faultN ∈ F) (ktxIdle : Kind.txIdle ∈ F) (kcaps : Kind.caps ∈ F) (kcapBusy : Kind.capBusy ∈ F) (h : Keeps F r s) (a_h : Nat) (l : Nat) (inst : Nat) (op : Nat) (mode : PrivMode) :
    ResKeeps F r (State.cbo s a_h l inst op mode) := by
  unfold State.cbo
  try lift_lets
  repeat' first
  | with_reducible assumption
  | exact Or.inl (by with_reducible assumption)
  | (refine Or.inr ?_; (repeat with_reducible apply Nat.le_add_right_of_le); first | decide | omega)
  | with_reducible rfl
  | with_reducible apply State.inMode_keeps
  | with_reducible apply State.answer_keeps
  | with_reducible apply State.fatalStop_keeps
  | with_reducible apply State.wcDrain_keeps
  | with_reducible apply State.dieLook_keeps
  | with_reducible apply State.maintain_keeps
  | with_reducible apply ResKeeps.next
  | with_reducible refine ResKeeps.ite ?_ ?_
  | with_reducible refine Keeps.ite ?_ ?_
  | with_reducible refine OptKeeps.get (by with_reducible assumption) ?_
  | with_reducible refine Keeps.elim ?_ ?_
  | with_reducible refine Keeps.foldl_fst ?_ _ _ ?_
  | with_reducible refine Keeps.foldl ?_ _ _ ?_
  | split
  | (with_reducible intro x; refine Keeps.cut (F := F) (r := r) (s := x) ?_ (fun hx => ?_); on_goal 2 => clear_value x)
  | (with_reducible intro x; refine Keeps.cut (F := F) (r := r) (s := x.1) ?_ (fun hx => ?_); on_goal 2 => clear_value x)
  | (with_reducible intro y)
  | (lift_lets; with_reducible intro x; refine Keeps.cut (F := F) (r := r) (s := x) ?_ (fun hx => ?_); on_goal 2 => clear_value x)
  | (lift_lets; with_reducible intro x; refine Keeps.cut (F := F) (r := r) (s := x.1) ?_ (fun hx => ?_); on_goal 2 => clear_value x)
  | (lift_lets; with_reducible intro y)
  | simp only [id]
  | dsimp only

theorem execCmp_keeps {F : List Kind} {r s : State} (kregs : Kind.regs ∈ F) (kmem : Kind.mem ∈ F) (kresp : Kind.resp ∈ F) (kout : Kind.out ∈ F) (knewtIrq : Kind.newtIrq ∈ F) (kfieldOps : Kind.fieldOps ∈ F) (khart : Kind.hart ∈ F) (kdie : Kind.die ∈ F) (kpaused : Kind.paused ∈ F) (kcsq : Kind.csq ∈ F) (kecc : Kind.ecc ∈ F) (kmc : Kind.mc ∈ F) (kpoison : Kind.poison ∈ F) (kcache : Kind.cache ∈ F) (kplru : Kind.plru ∈ F) (kslices : Kind.slices ∈ F) (kwbTag : Kind.wbTag ∈ F) (kring : Kind.ring ∈ F) (ksf : Kind.sf ∈ F) (ksfPlru : Kind.sfPlru ∈ F) (kfaultN : Kind.faultN ∈ F) (ktxIdle : Kind.txIdle ∈ F) (kcaps : Kind.caps ∈ F) (kcapBusy : Kind.capBusy ∈ F) (h : Keeps F r s) (agent : Fin 32) (m : CohMsg) :
    ResKeeps F r (execCmp agent m s) := by
  unfold execCmp
  try lift_lets
  repeat' first
  | with_reducible assumption
  | exact Or.inl (by with_reducible assumption)
  | (refine Or.inr ?_; (repeat with_reducible apply Nat.le_add_right_of_le); first | decide | omega)
  | with_reducible rfl
  | with_reducible apply State.inc_keeps
  | with_reducible apply State.dieDone_keeps
  | with_reducible apply State.accessFails_keeps
  | with_reducible apply State.sliceEnd_keeps
  | with_reducible apply ResKeeps.next
  | with_reducible refine ResKeeps.ite ?_ ?_
  | with_reducible refine Keeps.ite ?_ ?_
  | with_reducible refine OptKeeps.get (by with_reducible assumption) ?_
  | with_reducible refine Keeps.elim ?_ ?_
  | with_reducible refine Keeps.foldl_fst ?_ _ _ ?_
  | with_reducible refine Keeps.foldl ?_ _ _ ?_
  | split
  | (with_reducible intro x; refine Keeps.cut (F := F) (r := r) (s := x) ?_ (fun hx => ?_); on_goal 2 => clear_value x)
  | (with_reducible intro x; refine Keeps.cut (F := F) (r := r) (s := x.1) ?_ (fun hx => ?_); on_goal 2 => clear_value x)
  | (with_reducible intro y)
  | (lift_lets; with_reducible intro x; refine Keeps.cut (F := F) (r := r) (s := x) ?_ (fun hx => ?_); on_goal 2 => clear_value x)
  | (lift_lets; with_reducible intro x; refine Keeps.cut (F := F) (r := r) (s := x.1) ?_ (fun hx => ?_); on_goal 2 => clear_value x)
  | (lift_lets; with_reducible intro y)
  | simp only [id]
  | dsimp only

theorem execCboClean_keeps {F : List Kind} {r s : State} (kregs : Kind.regs ∈ F) (kmem : Kind.mem ∈ F) (kresp : Kind.resp ∈ F) (kout : Kind.out ∈ F) (knewtIrq : Kind.newtIrq ∈ F) (kfieldOps : Kind.fieldOps ∈ F) (khart : Kind.hart ∈ F) (kdie : Kind.die ∈ F) (kpaused : Kind.paused ∈ F) (kcsq : Kind.csq ∈ F) (kecc : Kind.ecc ∈ F) (kmc : Kind.mc ∈ F) (kpoison : Kind.poison ∈ F) (kcache : Kind.cache ∈ F) (kwbTag : Kind.wbTag ∈ F) (ksf : Kind.sf ∈ F) (ksfPlru : Kind.sfPlru ∈ F) (kfaultN : Kind.faultN ∈ F) (ktxIdle : Kind.txIdle ∈ F) (kcaps : Kind.caps ∈ F) (kcapBusy : Kind.capBusy ∈ F) (h : Keeps F r s) (a_h : Fin 216) (mode : PrivMode) (line : Nat) :
    ResKeeps F r (execCboClean a_h mode line s) := by
  unfold execCboClean
  try lift_lets
  repeat' first
  | with_reducible assumption
  | exact Or.inl (by with_reducible assumption)
  | (refine Or.inr ?_; (repeat with_reducible apply Nat.le_add_right_of_le); first | decide | omega)
  | with_reducible rfl
  | with_reducible apply State.cbo_keeps
  | with_reducible apply ResKeeps.next
  | with_reducible refine ResKeeps.ite ?_ ?_
  | with_reducible refine Keeps.ite ?_ ?_
  | with_reducible refine OptKeeps.get (by with_reducible assumption) ?_
  | with_reducible refine Keeps.elim ?_ ?_
  | with_reducible refine Keeps.foldl_fst ?_ _ _ ?_
  | with_reducible refine Keeps.foldl ?_ _ _ ?_
  | split
  | (with_reducible intro y)
  | (lift_lets; with_reducible intro y)
  | simp only [id]
  | dsimp only

theorem execCboFlush_keeps {F : List Kind} {r s : State} (kregs : Kind.regs ∈ F) (kmem : Kind.mem ∈ F) (kresp : Kind.resp ∈ F) (kout : Kind.out ∈ F) (knewtIrq : Kind.newtIrq ∈ F) (kfieldOps : Kind.fieldOps ∈ F) (khart : Kind.hart ∈ F) (kdie : Kind.die ∈ F) (kpaused : Kind.paused ∈ F) (kcsq : Kind.csq ∈ F) (kecc : Kind.ecc ∈ F) (kmc : Kind.mc ∈ F) (kpoison : Kind.poison ∈ F) (kcache : Kind.cache ∈ F) (kwbTag : Kind.wbTag ∈ F) (ksf : Kind.sf ∈ F) (ksfPlru : Kind.sfPlru ∈ F) (kfaultN : Kind.faultN ∈ F) (ktxIdle : Kind.txIdle ∈ F) (kcaps : Kind.caps ∈ F) (kcapBusy : Kind.capBusy ∈ F) (h : Keeps F r s) (a_h : Fin 216) (mode : PrivMode) (line : Nat) :
    ResKeeps F r (execCboFlush a_h mode line s) := by
  unfold execCboFlush
  try lift_lets
  repeat' first
  | with_reducible assumption
  | exact Or.inl (by with_reducible assumption)
  | (refine Or.inr ?_; (repeat with_reducible apply Nat.le_add_right_of_le); first | decide | omega)
  | with_reducible rfl
  | with_reducible apply State.cbo_keeps
  | with_reducible apply ResKeeps.next
  | with_reducible refine ResKeeps.ite ?_ ?_
  | with_reducible refine Keeps.ite ?_ ?_
  | with_reducible refine OptKeeps.get (by with_reducible assumption) ?_
  | with_reducible refine Keeps.elim ?_ ?_
  | with_reducible refine Keeps.foldl_fst ?_ _ _ ?_
  | with_reducible refine Keeps.foldl ?_ _ _ ?_
  | split
  | (with_reducible intro y)
  | (lift_lets; with_reducible intro y)
  | simp only [id]
  | dsimp only

theorem execCboInval_keeps {F : List Kind} {r s : State} (kregs : Kind.regs ∈ F) (kmem : Kind.mem ∈ F) (kresp : Kind.resp ∈ F) (kout : Kind.out ∈ F) (knewtIrq : Kind.newtIrq ∈ F) (kfieldOps : Kind.fieldOps ∈ F) (khart : Kind.hart ∈ F) (kdie : Kind.die ∈ F) (kpaused : Kind.paused ∈ F) (kcsq : Kind.csq ∈ F) (kecc : Kind.ecc ∈ F) (kmc : Kind.mc ∈ F) (kpoison : Kind.poison ∈ F) (kcache : Kind.cache ∈ F) (kwbTag : Kind.wbTag ∈ F) (ksf : Kind.sf ∈ F) (ksfPlru : Kind.sfPlru ∈ F) (kfaultN : Kind.faultN ∈ F) (ktxIdle : Kind.txIdle ∈ F) (kcaps : Kind.caps ∈ F) (kcapBusy : Kind.capBusy ∈ F) (h : Keeps F r s) (a_h : Fin 216) (mode : PrivMode) (line : Nat) :
    ResKeeps F r (execCboInval a_h mode line s) := by
  unfold execCboInval
  try lift_lets
  repeat' first
  | with_reducible assumption
  | exact Or.inl (by with_reducible assumption)
  | (refine Or.inr ?_; (repeat with_reducible apply Nat.le_add_right_of_le); first | decide | omega)
  | with_reducible rfl
  | with_reducible apply State.cbo_keeps
  | with_reducible apply ResKeeps.next
  | with_reducible refine ResKeeps.ite ?_ ?_
  | with_reducible refine Keeps.ite ?_ ?_
  | with_reducible refine OptKeeps.get (by with_reducible assumption) ?_
  | with_reducible refine Keeps.elim ?_ ?_
  | with_reducible refine Keeps.foldl_fst ?_ _ _ ?_
  | with_reducible refine Keeps.foldl ?_ _ _ ?_
  | split
  | (with_reducible intro y)
  | (lift_lets; with_reducible intro y)
  | simp only [id]
  | dsimp only

theorem State.swopLine_keeps {F : List Kind} {r s : State} (kregs : Kind.regs ∈ F) (kout : Kind.out ∈ F) (knewtIrq : Kind.newtIrq ∈ F) (kfieldOps : Kind.fieldOps ∈ F) (kpaused : Kind.paused ∈ F) (kcsq : Kind.csq ∈ F) (kecc : Kind.ecc ∈ F) (kcache : Kind.cache ∈ F) (kslices : Kind.slices ∈ F) (kwbTag : Kind.wbTag ∈ F) (kfaultN : Kind.faultN ∈ F) (ktxIdle : Kind.txIdle ∈ F) (kcaps : Kind.caps ∈ F) (kcapBusy : Kind.capBusy ∈ F) (h : Keeps F r s) (d : Nat) (u : Nat) (set : Nat) (w : Nat) (op : Nat) :
    Keeps F r (State.swopLine s d u set w op) := by
  unfold State.swopLine
  try lift_lets
  repeat' first
  | with_reducible assumption
  | exact Or.inl (by with_reducible assumption)
  | (refine Or.inr ?_; (repeat with_reducible apply Nat.le_add_right_of_le); first | decide | omega)
  | with_reducible rfl
  | with_reducible apply State.fatalStop_keeps
  | with_reducible apply State.collapse_keeps
  | with_reducible apply State.dropCopy_keeps
  | with_reducible apply State.dropCluster_keeps
  | with_reducible apply State.cleanDie_keeps
  | with_reducible apply State.sliceWb_keeps
  | with_reducible apply State.dropDie_keeps
  | with_reducible refine Keeps.ite ?_ ?_
  | with_reducible refine OptKeeps.get (by with_reducible assumption) ?_
  | with_reducible refine Keeps.elim ?_ ?_
  | with_reducible refine Keeps.foldl_fst ?_ _ _ ?_
  | with_reducible refine Keeps.foldl ?_ _ _ ?_
  | split
  | (with_reducible intro x; refine Keeps.cut (F := F) (r := r) (s := x) ?_ (fun hx => ?_); on_goal 2 => clear_value x)
  | (with_reducible intro x; refine Keeps.cut (F := F) (r := r) (s := x.1) ?_ (fun hx => ?_); on_goal 2 => clear_value x)
  | (with_reducible intro y)
  | (lift_lets; with_reducible intro x; refine Keeps.cut (F := F) (r := r) (s := x) ?_ (fun hx => ?_); on_goal 2 => clear_value x)
  | (lift_lets; with_reducible intro x; refine Keeps.cut (F := F) (r := r) (s := x.1) ?_ (fun hx => ?_); on_goal 2 => clear_value x)
  | (lift_lets; with_reducible intro y)
  | simp only [id]
  | dsimp only

theorem State.swopRun_keeps {F : List Kind} {r s : State} (kregs : Kind.regs ∈ F) (kout : Kind.out ∈ F) (knewtIrq : Kind.newtIrq ∈ F) (kfieldOps : Kind.fieldOps ∈ F) (kpaused : Kind.paused ∈ F) (kcsq : Kind.csq ∈ F) (kecc : Kind.ecc ∈ F) (kcache : Kind.cache ∈ F) (kslices : Kind.slices ∈ F) (kwbTag : Kind.wbTag ∈ F) (kfaultN : Kind.faultN ∈ F) (ktxIdle : Kind.txIdle ∈ F) (kcaps : Kind.caps ∈ F) (kcapBusy : Kind.capBusy ∈ F) (h : Keeps F r s) (d : Nat) :
    Keeps F r (State.swopRun s d) := by
  unfold State.swopRun
  try lift_lets
  repeat' first
  | with_reducible assumption
  | with_reducible apply State.forAll_keeps
  | with_reducible apply State.swopLine_keeps
  | split
  | (intro y)

theorem State.writeSwop_keeps {F : List Kind} {r s : State} (kregs : Kind.regs ∈ F) (kresp : Kind.resp ∈ F) (kout : Kind.out ∈ F) (knewtIrq : Kind.newtIrq ∈ F) (kfieldOps : Kind.fieldOps ∈ F) (kpaused : Kind.paused ∈ F) (kcsq : Kind.csq ∈ F) (kecc : Kind.ecc ∈ F) (kcache : Kind.cache ∈ F) (kslices : Kind.slices ∈ F) (kwbTag : Kind.wbTag ∈ F) (kfaultN : Kind.faultN ∈ F) (ktxIdle : Kind.txIdle ∈ F) (kcaps : Kind.caps ∈ F) (kcapBusy : Kind.capBusy ∈ F) (h : Keeps F r s) (d : Nat) (c : Issuer) (v : Nat) :
    Keeps F r (State.writeSwop s d c v) := by
  unfold State.writeSwop
  try lift_lets
  repeat' first
  | with_reducible assumption
  | exact Or.inl (by with_reducible assumption)
  | (refine Or.inr ?_; (repeat with_reducible apply Nat.le_add_right_of_le); first | decide | omega)
  | with_reducible rfl
  | with_reducible apply State.worldError_keeps
  | with_reducible apply State.otherViolation_keeps
  | with_reducible apply State.reservedEnc_keeps
  | with_reducible apply State.put_keeps
  | with_reducible apply State.raise_keeps
  | with_reducible apply State.swopRun_keeps
  | with_reducible refine Keeps.ite ?_ ?_
  | with_reducible refine OptKeeps.get (by with_reducible assumption) ?_
  | with_reducible refine Keeps.elim ?_ ?_
  | with_reducible refine Keeps.foldl_fst ?_ _ _ ?_
  | with_reducible refine Keeps.foldl ?_ _ _ ?_
  | split
  | (with_reducible intro y)
  | (lift_lets; with_reducible intro y)
  | simp only [id]
  | dsimp only

theorem execSwopClean_keeps {F : List Kind} {r s : State} (kregs : Kind.regs ∈ F) (kresp : Kind.resp ∈ F) (kout : Kind.out ∈ F) (knewtIrq : Kind.newtIrq ∈ F) (kfieldOps : Kind.fieldOps ∈ F) (kpaused : Kind.paused ∈ F) (kcsq : Kind.csq ∈ F) (kecc : Kind.ecc ∈ F) (kcache : Kind.cache ∈ F) (kslices : Kind.slices ∈ F) (kwbTag : Kind.wbTag ∈ F) (kfaultN : Kind.faultN ∈ F) (ktxIdle : Kind.txIdle ∈ F) (kcaps : Kind.caps ∈ F) (kcapBusy : Kind.capBusy ∈ F) (h : Keeps F r s) (c : Issuer) (die : Fin 12) (v : Word) :
    ResKeeps F r (execSwopClean c die v s) := by
  unfold execSwopClean
  try lift_lets
  repeat' first
  | with_reducible assumption
  | exact Or.inl (by with_reducible assumption)
  | (refine Or.inr ?_; (repeat with_reducible apply Nat.le_add_right_of_le); first | decide | omega)
  | with_reducible rfl
  | with_reducible apply State.issue_keeps
  | with_reducible apply State.dieAccess_keeps
  | with_reducible apply State.writeSwop_keeps
  | with_reducible apply ResKeeps.next
  | with_reducible refine ResKeeps.ite ?_ ?_
  | with_reducible refine Keeps.ite ?_ ?_
  | with_reducible refine OptKeeps.get (by with_reducible assumption) ?_
  | with_reducible refine Keeps.elim ?_ ?_
  | with_reducible refine Keeps.foldl_fst ?_ _ _ ?_
  | with_reducible refine Keeps.foldl ?_ _ _ ?_
  | split
  | (with_reducible intro x; refine Keeps.cut (F := F) (r := r) (s := x) ?_ (fun hx => ?_); on_goal 2 => clear_value x)
  | (with_reducible intro x; refine Keeps.cut (F := F) (r := r) (s := x.1) ?_ (fun hx => ?_); on_goal 2 => clear_value x)
  | (with_reducible intro y)
  | (lift_lets; with_reducible intro x; refine Keeps.cut (F := F) (r := r) (s := x) ?_ (fun hx => ?_); on_goal 2 => clear_value x)
  | (lift_lets; with_reducible intro x; refine Keeps.cut (F := F) (r := r) (s := x.1) ?_ (fun hx => ?_); on_goal 2 => clear_value x)
  | (lift_lets; with_reducible intro y)
  | simp only [id]
  | dsimp only

theorem execSwopInvalidate_keeps {F : List Kind} {r s : State} (kregs : Kind.regs ∈ F) (kresp : Kind.resp ∈ F) (kout : Kind.out ∈ F) (knewtIrq : Kind.newtIrq ∈ F) (kfieldOps : Kind.fieldOps ∈ F) (kpaused : Kind.paused ∈ F) (kcsq : Kind.csq ∈ F) (kecc : Kind.ecc ∈ F) (kcache : Kind.cache ∈ F) (kslices : Kind.slices ∈ F) (kwbTag : Kind.wbTag ∈ F) (kfaultN : Kind.faultN ∈ F) (ktxIdle : Kind.txIdle ∈ F) (kcaps : Kind.caps ∈ F) (kcapBusy : Kind.capBusy ∈ F) (h : Keeps F r s) (c : Issuer) (die : Fin 12) (v : Word) :
    ResKeeps F r (execSwopInvalidate c die v s) := by
  unfold execSwopInvalidate
  try lift_lets
  repeat' first
  | with_reducible assumption
  | exact Or.inl (by with_reducible assumption)
  | (refine Or.inr ?_; (repeat with_reducible apply Nat.le_add_right_of_le); first | decide | omega)
  | with_reducible rfl
  | with_reducible apply State.issue_keeps
  | with_reducible apply State.dieAccess_keeps
  | with_reducible apply State.writeSwop_keeps
  | with_reducible apply ResKeeps.next
  | with_reducible refine ResKeeps.ite ?_ ?_
  | with_reducible refine Keeps.ite ?_ ?_
  | with_reducible refine OptKeeps.get (by with_reducible assumption) ?_
  | with_reducible refine Keeps.elim ?_ ?_
  | with_reducible refine Keeps.foldl_fst ?_ _ _ ?_
  | with_reducible refine Keeps.foldl ?_ _ _ ?_
  | split
  | (with_reducible intro x; refine Keeps.cut (F := F) (r := r) (s := x) ?_ (fun hx => ?_); on_goal 2 => clear_value x)
  | (with_reducible intro x; refine Keeps.cut (F := F) (r := r) (s := x.1) ?_ (fun hx => ?_); on_goal 2 => clear_value x)
  | (with_reducible intro y)
  | (lift_lets; with_reducible intro x; refine Keeps.cut (F := F) (r := r) (s := x) ?_ (fun hx => ?_); on_goal 2 => clear_value x)
  | (lift_lets; with_reducible intro x; refine Keeps.cut (F := F) (r := r) (s := x.1) ?_ (fun hx => ?_); on_goal 2 => clear_value x)
  | (lift_lets; with_reducible intro y)
  | simp only [id]
  | dsimp only

theorem execSwopCleanInvalidate_keeps {F : List Kind} {r s : State} (kregs : Kind.regs ∈ F) (kresp : Kind.resp ∈ F) (kout : Kind.out ∈ F) (knewtIrq : Kind.newtIrq ∈ F) (kfieldOps : Kind.fieldOps ∈ F) (kpaused : Kind.paused ∈ F) (kcsq : Kind.csq ∈ F) (kecc : Kind.ecc ∈ F) (kcache : Kind.cache ∈ F) (kslices : Kind.slices ∈ F) (kwbTag : Kind.wbTag ∈ F) (kfaultN : Kind.faultN ∈ F) (ktxIdle : Kind.txIdle ∈ F) (kcaps : Kind.caps ∈ F) (kcapBusy : Kind.capBusy ∈ F) (h : Keeps F r s) (c : Issuer) (die : Fin 12) (v : Word) :
    ResKeeps F r (execSwopCleanInvalidate c die v s) := by
  unfold execSwopCleanInvalidate
  try lift_lets
  repeat' first
  | with_reducible assumption
  | exact Or.inl (by with_reducible assumption)
  | (refine Or.inr ?_; (repeat with_reducible apply Nat.le_add_right_of_le); first | decide | omega)
  | with_reducible rfl
  | with_reducible apply State.issue_keeps
  | with_reducible apply State.dieAccess_keeps
  | with_reducible apply State.writeSwop_keeps
  | with_reducible apply ResKeeps.next
  | with_reducible refine ResKeeps.ite ?_ ?_
  | with_reducible refine Keeps.ite ?_ ?_
  | with_reducible refine OptKeeps.get (by with_reducible assumption) ?_
  | with_reducible refine Keeps.elim ?_ ?_
  | with_reducible refine Keeps.foldl_fst ?_ _ _ ?_
  | with_reducible refine Keeps.foldl ?_ _ _ ?_
  | split
  | (with_reducible intro x; refine Keeps.cut (F := F) (r := r) (s := x) ?_ (fun hx => ?_); on_goal 2 => clear_value x)
  | (with_reducible intro x; refine Keeps.cut (F := F) (r := r) (s := x.1) ?_ (fun hx => ?_); on_goal 2 => clear_value x)
  | (with_reducible intro y)
  | (lift_lets; with_reducible intro x; refine Keeps.cut (F := F) (r := r) (s := x) ?_ (fun hx => ?_); on_goal 2 => clear_value x)
  | (lift_lets; with_reducible intro x; refine Keeps.cut (F := F) (r := r) (s := x.1) ?_ (fun hx => ?_); on_goal 2 => clear_value x)
  | (lift_lets; with_reducible intro y)
  | simp only [id]
  | dsimp only

theorem execSwopDone_keeps {F : List Kind} {r s : State} (kregs : Kind.regs ∈ F) (kout : Kind.out ∈ F) (knewtIrq : Kind.newtIrq ∈ F) (kfieldOps : Kind.fieldOps ∈ F) (kpaused : Kind.paused ∈ F) (kcsq : Kind.csq ∈ F) (kecc : Kind.ecc ∈ F) (kcache : Kind.cache ∈ F) (kslices : Kind.slices ∈ F) (kwbTag : Kind.wbTag ∈ F) (kfaultN : Kind.faultN ∈ F) (ktxIdle : Kind.txIdle ∈ F) (kcaps : Kind.caps ∈ F) (kcapBusy : Kind.capBusy ∈ F) (h : Keeps F r s) (die : Fin 12) :
    ResKeeps F r (execSwopDone die s) := by
  unfold execSwopDone
  try lift_lets
  repeat' first
  | with_reducible assumption
  | exact Or.inl (by with_reducible assumption)
  | (refine Or.inr ?_; (repeat with_reducible apply Nat.le_add_right_of_le); first | decide | omega)
  | with_reducible rfl
  | with_reducible apply State.swopRun_keeps
  | with_reducible apply State.put_keeps
  | with_reducible apply State.raise_keeps
  | with_reducible apply ResKeeps.next
  | with_reducible refine ResKeeps.ite ?_ ?_
  | with_reducible refine Keeps.ite ?_ ?_
  | with_reducible refine OptKeeps.get (by with_reducible assumption) ?_
  | with_reducible refine Keeps.elim ?_ ?_
  | with_reducible refine Keeps.foldl_fst ?_ _ _ ?_
  | with_reducible refine Keeps.foldl ?_ _ _ ?_
  | split
  | (with_reducible intro y)
  | (lift_lets; with_reducible intro y)
  | simp only [id]
  | dsimp only

theorem State.zeroRange_keeps {F : List Kind} {r s : State} (kmem : Kind.mem ∈ F) (kpoison : Kind.poison ∈ F) (h : Keeps F r s) (lo n : Nat) :
    Keeps F r (s.zeroRange lo n) := by
  have h1 := h.setMem kmem (m := s.mem.filter (fun c => !(decide (lo ≤ c.1 ∧ c.1 < lo + n))))
    (fun hi => SMap.wf_filter _ _ _ hi.mem)
  unfold State.zeroRange
  generalize s.mem.filter (fun c => !(decide (lo ≤ c.1 ∧ c.1 < lo + n))) = x at h1 ⊢
  with_reducible refine Keeps.upd h1 rfl rfl rfl rfl rfl rfl rfl rfl ?_ ?_ ?_ ?_ ?_ ?_ ?_ ?_ ?_ ?_ ?_ ?_ ?_ ?_ ?_ ?_ ?_ ?_ ?_ ?_ ?_ ?_ ?_ ?_ ?_ ?_ ?_ ?_ ?_ ?_ ?_ ?_ ?_ ?_ ?_ ?_ ?_ ?_ ?_ ?_ ?_ ?_ ?_ ?_ ?_ ?_ ?_ ?_ ?_ ?_ ?_ ?_ ?_ ?_ ?_ ?_ ?_ ?_ ?_ ?_ ?_ ?_ ?_ <;> first | with_reducible exact Or.inr rfl | with_reducible exact Or.inl (by assumption)

theorem State.emptyWay_keeps {F : List Kind} {r s : State} (kregs : Kind.regs ∈ F) (kout : Kind.out ∈ F) (knewtIrq : Kind.newtIrq ∈ F) (kfieldOps : Kind.fieldOps ∈ F) (kpaused : Kind.paused ∈ F) (kcsq : Kind.csq ∈ F) (kecc : Kind.ecc ∈ F) (kcache : Kind.cache ∈ F) (kslices : Kind.slices ∈ F) (kwbTag : Kind.wbTag ∈ F) (kfaultN : Kind.faultN ∈ F) (ktxIdle : Kind.txIdle ∈ F) (kcaps : Kind.caps ∈ F) (kcapBusy : Kind.capBusy ∈ F) (h : Keeps F r s) (d : Nat) (sl : Nat) (w : Nat) :
    Keeps F r (State.emptyWay s d sl w) := by
  unfold State.emptyWay
  try lift_lets
  repeat' first
  | with_reducible assumption
  | exact Or.inl (by with_reducible assumption)
  | (refine Or.inr ?_; (repeat with_reducible apply Nat.le_add_right_of_le); first | decide | omega)
  | with_reducible rfl
  | with_reducible apply State.forAll_keeps
  | with_reducible apply State.swopLine_keeps
  | with_reducible refine Keeps.ite ?_ ?_
  | with_reducible refine OptKeeps.get (by with_reducible assumption) ?_
  | with_reducible refine Keeps.elim ?_ ?_
  | with_reducible refine Keeps.foldl_fst ?_ _ _ ?_
  | with_reducible refine Keeps.foldl ?_ _ _ ?_
  | split
  | (with_reducible intro x; refine Keeps.cut (F := F) (r := r) (s := x) ?_ (fun hx => ?_); on_goal 2 => clear_value x)
  | (with_reducible intro x; refine Keeps.cut (F := F) (r := r) (s := x.1) ?_ (fun hx => ?_); on_goal 2 => clear_value x)
  | (with_reducible intro y)
  | (lift_lets; with_reducible intro x; refine Keeps.cut (F := F) (r := r) (s := x) ?_ (fun hx => ?_); on_goal 2 => clear_value x)
  | (lift_lets; with_reducible intro x; refine Keeps.cut (F := F) (r := r) (s := x.1) ?_ (fun hx => ?_); on_goal 2 => clear_value x)
  | (lift_lets; with_reducible intro y)
  | simp only [id]
  | dsimp only

theorem State.writeL3way_keeps {F : List Kind} {r s : State} (kregs : Kind.regs ∈ F) (kresp : Kind.resp ∈ F) (kout : Kind.out ∈ F) (knewtIrq : Kind.newtIrq ∈ F) (kfieldOps : Kind.fieldOps ∈ F) (kpaused : Kind.paused ∈ F) (kcsq : Kind.csq ∈ F) (kecc : Kind.ecc ∈ F) (kcache : Kind.cache ∈ F) (kpitonBusy : Kind.pitonBusy ∈ F) (kslices : Kind.slices ∈ F) (kwbTag : Kind.wbTag ∈ F) (kfaultN : Kind.faultN ∈ F) (ktxIdle : Kind.txIdle ∈ F) (kcaps : Kind.caps ∈ F) (kcapBusy : Kind.capBusy ∈ F) (h : Keeps F r s) (d : Nat) (sl : Nat) (c : Issuer) (v : Nat) :
    Keeps F r (State.writeL3way s d sl c v) := by
  unfold State.writeL3way
  try lift_lets
  repeat' first
  | with_reducible assumption
  | (refine Or.inr ?_; (repeat with_reducible apply Nat.le_add_right_of_le); first | decide | omega)
  | (with_reducible refine Keeps.upd ?_ rfl rfl rfl rfl rfl rfl rfl rfl ?_ ?_ ?_ ?_ ?_ ?_ ?_ ?_ ?_ ?_ ?_ ?_ ?_ ?_ ?_ ?_ ?_ ?_ ?_ ?_ ?_ ?_ ?_ ?_ ?_ ?_ ?_ ?_ ?_ ?_ ?_ ?_ ?_ ?_ ?_ ?_ ?_ ?_ ?_ ?_ ?_ ?_ ?_ ?_ ?_ ?_ ?_ ?_ ?_ ?_ ?_ ?_ ?_ ?_ ?_ ?_ ?_ ?_ ?_ ?_ ?_ ?_ ?_ <;> first | with_reducible assumption | with_reducible exact Or.inr rfl | with_reducible exact Or.inl (by assumption) | with_reducible apply State.otherViolation_keeps | with_reducible apply State.put_keeps | with_reducible apply State.forAll_keeps | with_reducible apply State.emptyWay_keeps)
  | with_reducible refine Keeps.ite ?_ ?_
  | (intro y)

theorem execPitonModeChange_keeps {F : List Kind} {r s : State} (kregs : Kind.regs ∈ F) (kresp : Kind.resp ∈ F) (kout : Kind.out ∈ F) (knewtIrq : Kind.newtIrq ∈ F) (kfieldOps : Kind.fieldOps ∈ F) (kpaused : Kind.paused ∈ F) (kcsq : Kind.csq ∈ F) (kecc : Kind.ecc ∈ F) (kcache : Kind.cache ∈ F) (kpitonBusy : Kind.pitonBusy ∈ F) (kslices : Kind.slices ∈ F) (kwbTag : Kind.wbTag ∈ F) (kfaultN : Kind.faultN ∈ F) (ktxIdle : Kind.txIdle ∈ F) (kcaps : Kind.caps ∈ F) (kcapBusy : Kind.capBusy ∈ F) (h : Keeps F r s) (c : Issuer) (die : Fin 12) (slice : Fin 4) (v : Word) :
    ResKeeps F r (execPitonModeChange c die slice v s) := by
  unfold execPitonModeChange
  try lift_lets
  repeat' first
  | with_reducible assumption
  | exact Or.inl (by with_reducible assumption)
  | (refine Or.inr ?_; (repeat with_reducible apply Nat.le_add_right_of_le); first | decide | omega)
  | with_reducible rfl
  | with_reducible apply State.issue_keeps
  | with_reducible apply State.dieAccess_keeps
  | with_reducible apply State.writeL3way_keeps
  | with_reducible apply ResKeeps.next
  | with_reducible refine ResKeeps.ite ?_ ?_
  | with_reducible refine Keeps.ite ?_ ?_
  | with_reducible refine OptKeeps.get (by with_reducible assumption) ?_
  | with_reducible refine Keeps.elim ?_ ?_
  | with_reducible refine Keeps.foldl_fst ?_ _ _ ?_
  | with_reducible refine Keeps.foldl ?_ _ _ ?_
  | split
  | (with_reducible intro x; refine Keeps.cut (F := F) (r := r) (s := x) ?_ (fun hx => ?_); on_goal 2 => clear_value x)
  | (with_reducible intro x; refine Keeps.cut (F := F) (r := r) (s := x.1) ?_ (fun hx => ?_); on_goal 2 => clear_value x)
  | (with_reducible intro y)
  | (lift_lets; with_reducible intro x; refine Keeps.cut (F := F) (r := r) (s := x) ?_ (fun hx => ?_); on_goal 2 => clear_value x)
  | (lift_lets; with_reducible intro x; refine Keeps.cut (F := F) (r := r) (s := x.1) ?_ (fun hx => ?_); on_goal 2 => clear_value x)
  | (lift_lets; with_reducible intro y)
  | simp only [id]
  | dsimp only

theorem execPitonChangeDone_keeps {F : List Kind} {r s : State} (kregs : Kind.regs ∈ F) (kmem : Kind.mem ∈ F) (kout : Kind.out ∈ F) (knewtIrq : Kind.newtIrq ∈ F) (kfieldOps : Kind.fieldOps ∈ F) (kpaused : Kind.paused ∈ F) (kcsq : Kind.csq ∈ F) (kecc : Kind.ecc ∈ F) (kpoison : Kind.poison ∈ F) (kcache : Kind.cache ∈ F) (kpitonBusy : Kind.pitonBusy ∈ F) (kslices : Kind.slices ∈ F) (kwbTag : Kind.wbTag ∈ F) (kfaultN : Kind.faultN ∈ F) (ktxIdle : Kind.txIdle ∈ F) (kcaps : Kind.caps ∈ F) (kcapBusy : Kind.capBusy ∈ F) (h : Keeps F r s) (die : Fin 12) (slice : Fin 4) :
    ResKeeps F r (execPitonChangeDone die slice s) := by
  unfold execPitonChangeDone
  try lift_lets
  repeat' first
  | with_reducible assumption
  | exact Or.inl (by with_reducible assumption)
  | (refine Or.inr ?_; (repeat with_reducible apply Nat.le_add_right_of_le); first | decide | omega)
  | with_reducible rfl
  | (with_reducible refine Keeps.upd ?_ rfl rfl rfl rfl rfl rfl rfl rfl ?_ ?_ ?_ ?_ ?_ ?_ ?_ ?_ ?_ ?_ ?_ ?_ ?_ ?_ ?_ ?_ ?_ ?_ ?_ ?_ ?_ ?_ ?_ ?_ ?_ ?_ ?_ ?_ ?_ ?_ ?_ ?_ ?_ ?_ ?_ ?_ ?_ ?_ ?_ ?_ ?_ ?_ ?_ ?_ ?_ ?_ ?_ ?_ ?_ ?_ ?_ ?_ ?_ ?_ ?_ ?_ ?_ ?_ ?_ ?_ ?_ ?_ ?_ <;> first | with_reducible assumption | with_reducible exact Or.inr rfl | with_reducible exact Or.inl (by assumption) | with_reducible apply State.forAll_keeps | with_reducible apply State.emptyWay_keeps | with_reducible apply State.zeroRange_keeps | with_reducible apply State.l3Sync_keeps)
  | with_reducible apply State.forAll_keeps
  | with_reducible apply State.emptyWay_keeps
  | with_reducible apply State.zeroRange_keeps
  | with_reducible apply State.l3Sync_keeps
  | with_reducible apply ResKeeps.next
  | with_reducible refine ResKeeps.ite ?_ ?_
  | with_reducible refine Keeps.ite ?_ ?_
  | with_reducible refine OptKeeps.get (by with_reducible assumption) ?_
  | with_reducible refine Keeps.elim ?_ ?_
  | with_reducible refine Keeps.foldl_fst ?_ _ _ ?_
  | with_reducible refine Keeps.foldl ?_ _ _ ?_
  | split
  | (with_reducible intro x; refine Keeps.cut (F := F) (r := r) (s := x) ?_ (fun hx => ?_); on_goal 2 => clear_value x)
  | (with_reducible intro x; refine Keeps.cut (F := F) (r := r) (s := x.1) ?_ (fun hx => ?_); on_goal 2 => clear_value x)
  | (with_reducible intro y)
  | (lift_lets; with_reducible intro x; refine Keeps.cut (F := F) (r := r) (s := x) ?_ (fun hx => ?_); on_goal 2 => clear_value x)
  | (lift_lets; with_reducible intro x; refine Keeps.cut (F := F) (r := r) (s := x.1) ?_ (fun hx => ?_); on_goal 2 => clear_value x)
  | (lift_lets; with_reducible intro y)
  | simp only [id]
  | dsimp only

theorem State.pitonDo_keeps {F : List Kind} {r s : State} (kregs : Kind.regs ∈ F) (kmem : Kind.mem ∈ F) (kresp : Kind.resp ∈ F) (knewtIrq : Kind.newtIrq ∈ F) (kfieldOps : Kind.fieldOps ∈ F) (kpaused : Kind.paused ∈ F) (kcaps : Kind.caps ∈ F) (kcapBusy : Kind.capBusy ∈ F) (h : Keeps F r s) (c : Issuer) (addr : PAddr) (k : PitonKind) :
    Keeps F r (State.pitonDo s c addr k) := by
  unfold State.pitonDo
  try lift_lets
  repeat' first
  | with_reducible assumption
  | exact Or.inl (by with_reducible assumption)
  | (refine Or.inr ?_; (repeat with_reducible apply Nat.le_add_right_of_le); first | decide | omega)
  | with_reducible rfl
  | with_reducible apply State.answer_keeps
  | with_reducible apply State.logRec_keeps
  | with_reducible apply State.writeBytes_keeps
  | with_reducible apply State.writeLE_keeps
  | with_reducible refine Keeps.ite ?_ ?_
  | with_reducible refine OptKeeps.get (by with_reducible assumption) ?_
  | with_reducible refine Keeps.elim ?_ ?_
  | with_reducible refine Keeps.foldl_fst ?_ _ _ ?_
  | with_reducible refine Keeps.foldl ?_ _ _ ?_
  | split
  | (with_reducible intro x; refine Keeps.cut (F := F) (r := r) (s := x) ?_ (fun hx => ?_); on_goal 2 => clear_value x)
  | (with_reducible intro x; refine Keeps.cut (F := F) (r := r) (s := x.1) ?_ (fun hx => ?_); on_goal 2 => clear_value x)
  | (with_reducible intro y)
  | (lift_lets; with_reducible intro x; refine Keeps.cut (F := F) (r := r) (s := x) ?_ (fun hx => ?_); on_goal 2 => clear_value x)
  | (lift_lets; with_reducible intro x; refine Keeps.cut (F := F) (r := r) (s := x.1) ?_ (fun hx => ?_); on_goal 2 => clear_value x)
  | (lift_lets; with_reducible intro y)
  | simp only [id]
  | dsimp only

theorem State.emptyL1_keeps {F : List Kind} {r s : State} (kecc : Kind.ecc ∈ F) (kcache : Kind.cache ∈ F) (h : Keeps F r s) (a1 : Nat) :
    Keeps F r (State.emptyL1 s a1) := by
  unfold State.emptyL1
  try lift_lets
  repeat' first
  | with_reducible assumption
  | with_reducible apply State.forAll_keeps
  | with_reducible apply State.dropCopy_keeps
  | with_reducible apply State.collapse_keeps
  | with_reducible apply State.setCline_keeps
  | (intro y)

theorem execWfi_keeps {F : List Kind} {r s : State} (kresp : Kind.resp ∈ F) (kout : Kind.out ∈ F) (khart : Kind.hart ∈ F) (kdie : Kind.die ∈ F) (kecc : Kind.ecc ∈ F) (kcache : Kind.cache ∈ F) (kwbTag : Kind.wbTag ∈ F) (h : Keeps F r s) (a_h : Fin 216) (mode : PrivMode) :
    ResKeeps F r (execWfi a_h mode s) := by
  unfold execWfi
  try lift_lets
  repeat' first
  | with_reducible assumption
  | exact Or.inl (by with_reducible assumption)
  | (refine Or.inr ?_; (repeat with_reducible apply Nat.le_add_right_of_le); first | decide | omega)
  | with_reducible rfl
  | with_reducible apply State.inMode_keeps
  | with_reducible apply State.wcDrain_keeps
  | with_reducible apply State.answer_keeps
  | with_reducible apply State.setHart_keeps
  | with_reducible apply State.emptyL1_keeps
  | with_reducible apply ResKeeps.next
  | with_reducible refine ResKeeps.ite ?_ ?_
  | with_reducible refine Keeps.ite ?_ ?_
  | with_reducible refine OptKeeps.get (by with_reducible assumption) ?_
  | with_reducible refine Keeps.elim ?_ ?_
  | with_reducible refine Keeps.foldl_fst ?_ _ _ ?_
  | with_reducible refine Keeps.foldl ?_ _ _ ?_
  | split
  | (with_reducible intro y)
  | (lift_lets; with_reducible intro y)
  | simp only [id]
  | dsimp only

theorem State.sfProbe_keeps {F : List Kind} {r s : State} (kregs : Kind.regs ∈ F) (h : Keeps F r s) (a1 : Nat) (l : Nat) :
    Keeps F r (State.sfProbe s a1 l) := by
  unfold State.sfProbe
  try lift_lets
  repeat' first
  | with_reducible assumption
  | (refine Or.inr ?_; (repeat with_reducible apply Nat.le_add_right_of_le); first | decide | omega)
  | with_reducible apply State.put_keeps

theorem State.writeHa_keeps {F : List Kind} {r s : State} (kregs : Kind.regs ∈ F) (h : Keeps F r s) (a1 : Reg) (a2 : Nat) (v : Nat) :
    OptKeeps F r (State.writeHa s a1 a2 v) := by
  unfold State.writeHa
  try lift_lets
  repeat' first
  | with_reducible assumption
  | (refine Or.inr ?_; (repeat with_reducible apply Nat.le_add_right_of_le); first | decide | omega)
  | with_reducible apply State.put_keeps
  | with_reducible apply State.sfProbe_keeps
  | with_reducible apply OptKeeps.some
  | with_reducible apply OptKeeps.none
  | split

theorem State.writeWldDie_keeps {F : List Kind} {r s : State} (kregs : Kind.regs ∈ F) (kresp : Kind.resp ∈ F) (kout : Kind.out ∈ F) (knewtIrq : Kind.newtIrq ∈ F) (kfieldOps : Kind.fieldOps ∈ F) (kpaused : Kind.paused ∈ F) (kcsq : Kind.csq ∈ F) (kecc : Kind.ecc ∈ F) (kcache : Kind.cache ∈ F) (kstreams : Kind.streams ∈ F) (kpitonBusy : Kind.pitonBusy ∈ F) (kslices : Kind.slices ∈ F) (kwbTag : Kind.wbTag ∈ F) (kfaultN : Kind.faultN ∈ F) (ktxIdle : Kind.txIdle ∈ F) (kcaps : Kind.caps ∈ F) (kcapBusy : Kind.capBusy ∈ F) (h : Keeps F r s) (a_r : Reg) (d : Nat) (n : Nat) (c : Issuer) (v : Nat) :
    OptKeeps F r (State.writeWldDie s a_r d n c v) := by
  unfold State.writeWldDie
  try lift_lets
  repeat' first
  | with_reducible assumption
  | exact Or.inl (by with_reducible assumption)
  | (refine Or.inr ?_; (repeat with_reducible apply Nat.le_add_right_of_le); first | decide | omega)
  | with_reducible rfl
  | with_reducible apply State.writeWpol_keeps
  | with_reducible apply State.worldError_keeps
  | with_reducible apply State.writePfctl_keeps
  | with_reducible apply State.writeSwop_keeps
  | with_reducible apply State.writeL3way_keeps
  | with_reducible apply OptKeeps.some
  | with_reducible exact OptKeeps.none
  | with_reducible refine OptKeeps.ite ?_ ?_
  | with_reducible refine Keeps.ite ?_ ?_
  | with_reducible refine OptKeeps.get (by with_reducible assumption) ?_
  | with_reducible refine Keeps.elim ?_ ?_
  | with_reducible refine Keeps.foldl_fst ?_ _ _ ?_
  | with_reducible refine Keeps.foldl ?_ _ _ ?_
  | split
  | (with_reducible intro y)
  | (lift_lets; with_reducible intro y)
  | simp only [id]
  | dsimp only

theorem State.askHome_keeps {F : List Kind} {r s : State} (khomes : Kind.homes ∈ F) (h : Keeps F r s) (k : CohKind) (src : Nat) (l : Nat) (off : Nat) (b : Bytes) (poison : Bool) (c : Issuer) :
    Keeps F r (State.askHome s k src l off b poison c) := by
  unfold State.askHome
  try lift_lets
  repeat' first
  | with_reducible assumption
  | exact Or.inl (by with_reducible assumption)
  | (refine Or.inr ?_; (repeat with_reducible apply Nat.le_add_right_of_le); first | decide | omega)
  | with_reducible rfl
  | (with_reducible refine Keeps.upd ?_ rfl rfl rfl rfl rfl rfl rfl rfl ?_ ?_ ?_ ?_ ?_ ?_ ?_ ?_ ?_ ?_ ?_ ?_ ?_ ?_ ?_ ?_ ?_ ?_ ?_ ?_ ?_ ?_ ?_ ?_ ?_ ?_ ?_ ?_ ?_ ?_ ?_ ?_ ?_ ?_ ?_ ?_ ?_ ?_ ?_ ?_ ?_ ?_ ?_ ?_ ?_ ?_ ?_ ?_ ?_ ?_ ?_ ?_ ?_ ?_ ?_ ?_ ?_ ?_ ?_ ?_ ?_ ?_ ?_ <;> first | with_reducible assumption | with_reducible exact Or.inr rfl | with_reducible exact Or.inl (by assumption) | with_reducible apply State.setHome_keeps)
  | with_reducible apply State.setHome_keeps
  | with_reducible refine Keeps.ite ?_ ?_
  | with_reducible refine OptKeeps.get (by with_reducible assumption) ?_
  | with_reducible refine Keeps.elim ?_ ?_
  | with_reducible refine Keeps.foldl_fst ?_ _ _ ?_
  | with_reducible refine Keeps.foldl ?_ _ _ ?_
  | split
  | (with_reducible intro y)
  | (lift_lets; with_reducible intro y)
  | simp only [id]
  | dsimp only

theorem State.devTake_keeps {F : List Kind} {r s : State} (khomes : Kind.homes ∈ F) (h : Keeps F r s) (l : Nat) (x : DevAnsw) :
    Keeps F r (State.devTake s l x) := by
  unfold State.devTake
  try lift_lets
  repeat' first
  | with_reducible assumption
  | exact Or.inl (by with_reducible assumption)
  | (refine Or.inr ?_; (repeat with_reducible apply Nat.le_add_right_of_le); first | decide | omega)
  | with_reducible rfl
  | with_reducible apply State.setHome_keeps
  | with_reducible refine Keeps.ite ?_ ?_
  | with_reducible refine OptKeeps.get (by with_reducible assumption) ?_
  | with_reducible refine Keeps.elim ?_ ?_
  | with_reducible refine Keeps.foldl_fst ?_ _ _ ?_
  | with_reducible refine Keeps.foldl ?_ _ _ ?_
  | split
  | (with_reducible intro y)
  | (lift_lets; with_reducible intro y)
  | simp only [id]
  | dsimp only

theorem State.latestLine_keeps {F : List Kind} {r s : State} (kregs : Kind.regs ∈ F) (kmem : Kind.mem ∈ F) (knewtIrq : Kind.newtIrq ∈ F) (kfieldOps : Kind.fieldOps ∈ F) (kpaused : Kind.paused ∈ F) (kecc : Kind.ecc ∈ F) (kmc : Kind.mc ∈ F) (kpoison : Kind.poison ∈ F) (kcache : Kind.cache ∈ F) (khomes : Kind.homes ∈ F) (ksfPlru : Kind.sfPlru ∈ F) (kcaps : Kind.caps ∈ F) (kcapBusy : Kind.capBusy ∈ F) (h : Keeps F r s) (src : Nat) (l : Nat) (c : Issuer) :
    Keeps F r (State.latestLine s src l c).1 := by
  unfold State.latestLine
  try lift_lets
  repeat' first
  | with_reducible assumption
  | exact Or.inl (by with_reducible assumption)
  | (refine Or.inr ?_; (repeat with_reducible apply Nat.le_add_right_of_le); first | decide | omega)
  | with_reducible rfl
  | with_reducible apply State.devTake_keeps
  | with_reducible apply State.askHome_keeps
  | with_reducible apply State.lineCorrect_keeps
  | with_reducible apply State.sfTouch_keeps
  | with_reducible apply State.memReadLine_keeps
  | with_reducible apply State.forAll_keeps
  | with_reducible apply State.cleanDie_keeps
  | with_reducible apply State.memWriteLine_keeps
  | with_reducible refine Keeps.ite ?_ ?_
  | with_reducible refine OptKeeps.get (by with_reducible assumption) ?_
  | with_reducible refine Keeps.elim ?_ ?_
  | with_reducible refine Keeps.foldl_fst ?_ _ _ ?_
  | with_reducible refine Keeps.foldl ?_ _ _ ?_
  | split
  | (with_reducible intro x; refine Keeps.cut (F := F) (r := r) (s := x) ?_ (fun hx => ?_); on_goal 2 => clear_value x)
  | (with_reducible intro x; refine Keeps.cut (F := F) (r := r) (s := x.1) ?_ (fun hx => ?_); on_goal 2 => clear_value x)
  | (with_reducible intro y)
  | (lift_lets; with_reducible intro x; refine Keeps.cut (F := F) (r := r) (s := x) ?_ (fun hx => ?_); on_goal 2 => clear_value x)
  | (lift_lets; with_reducible intro x; refine Keeps.cut (F := F) (r := r) (s := x.1) ?_ (fun hx => ?_); on_goal 2 => clear_value x)
  | (lift_lets; with_reducible intro y)
  | simp only [id]
  | dsimp only

theorem State.writeLatest_keeps {F : List Kind} {r s : State} (kregs : Kind.regs ∈ F) (kmem : Kind.mem ∈ F) (knewtIrq : Kind.newtIrq ∈ F) (kfieldOps : Kind.fieldOps ∈ F) (kpaused : Kind.paused ∈ F) (kecc : Kind.ecc ∈ F) (kmc : Kind.mc ∈ F) (kpoison : Kind.poison ∈ F) (kcache : Kind.cache ∈ F) (khomes : Kind.homes ∈ F) (ksf : Kind.sf ∈ F) (ksfPlru : Kind.sfPlru ∈ F) (kcaps : Kind.caps ∈ F) (kcapBusy : Kind.capBusy ∈ F) (h : Keeps F r s) (src : Nat) (l : Nat) (off : Nat) (b : Bytes) (poisoned : Bool) (c : Issuer) :
    Keeps F r (State.writeLatest s src l off b poisoned c).1 := by
  unfold State.writeLatest
  try lift_lets
  repeat' first
  | with_reducible assumption
  | exact Or.inl (by with_reducible assumption)
  | (refine Or.inr ?_; (repeat with_reducible apply Nat.le_add_right_of_le); first | decide | omega)
  | with_reducible rfl
  | with_reducible apply State.devTake_keeps
  | with_reducible apply State.askHome_keeps
  | with_reducible apply State.lineCorrect_keeps
  | with_reducible apply State.mergeLine_keeps
  | with_reducible apply State.memWriteLine_keeps
  | with_reducible apply State.forAll_keeps
  | with_reducible apply State.dropDie_keeps
  | with_reducible apply State.sfPut_keeps
  | with_reducible refine Keeps.ite ?_ ?_
  | with_reducible refine OptKeeps.get (by with_reducible assumption) ?_
  | with_reducible refine Keeps.elim ?_ ?_
  | with_reducible refine Keeps.foldl_fst ?_ _ _ ?_
  | with_reducible refine Keeps.foldl ?_ _ _ ?_
  | split
  | (with_reducible intro x; refine Keeps.cut (F := F) (r := r) (s := x) ?_ (fun hx => ?_); on_goal 2 => clear_value x)
  | (with_reducible intro x; refine Keeps.cut (F := F) (r := r) (s := x.1) ?_ (fun hx => ?_); on_goal 2 => clear_value x)
  | (with_reducible intro y)
  | (lift_lets; with_reducible intro x; refine Keeps.cut (F := F) (r := r) (s := x) ?_ (fun hx => ?_); on_goal 2 => clear_value x)
  | (lift_lets; with_reducible intro x; refine Keeps.cut (F := F) (r := r) (s := x.1) ?_ (fun hx => ?_); on_goal 2 => clear_value x)
  | (lift_lets; with_reducible intro y)
  | simp only [id]
  | dsimp only

theorem State.devRead_keeps {F : List Kind} {r s : State} (kregs : Kind.regs ∈ F) (kmem : Kind.mem ∈ F) (knewtIrq : Kind.newtIrq ∈ F) (kfieldOps : Kind.fieldOps ∈ F) (kpaused : Kind.paused ∈ F) (kecc : Kind.ecc ∈ F) (kmc : Kind.mc ∈ F) (kpoison : Kind.poison ∈ F) (kcache : Kind.cache ∈ F) (khomes : Kind.homes ∈ F) (ksfPlru : Kind.sfPlru ∈ F) (kcaps : Kind.caps ∈ F) (kcapBusy : Kind.capBusy ∈ F) (h : Keeps F r s) (src : Nat) (a : Nat) (n : Nat) (c : Issuer) :
    Keeps F r (State.devRead s src a n c).1 := by
  unfold State.devRead
  try lift_lets
  repeat' first
  | with_reducible assumption
  | exact Or.inl (by with_reducible assumption)
  | (refine Or.inr ?_; (repeat with_reducible apply Nat.le_add_right_of_le); first | decide | omega)
  | with_reducible rfl
  | with_reducible apply State.latestLine_keeps
  | with_reducible refine Keeps.ite ?_ ?_
  | with_reducible refine OptKeeps.get (by with_reducible assumption) ?_
  | with_reducible refine Keeps.elim ?_ ?_
  | with_reducible refine Keeps.foldl_fst ?_ _ _ ?_
  | with_reducible refine Keeps.foldl ?_ _ _ ?_
  | split
  | (with_reducible intro y)
  | (lift_lets; with_reducible intro y)
  | simp only [id]
  | dsimp only

theorem State.devWriteN_keeps {F : List Kind} {r s : State} (kregs : Kind.regs ∈ F) (kmem : Kind.mem ∈ F) (knewtIrq : Kind.newtIrq ∈ F) (kfieldOps : Kind.fieldOps ∈ F) (kpaused : Kind.paused ∈ F) (kecc : Kind.ecc ∈ F) (kmc : Kind.mc ∈ F) (kpoison : Kind.poison ∈ F) (kcache : Kind.cache ∈ F) (khomes : Kind.homes ∈ F) (ksf : Kind.sf ∈ F) (ksfPlru : Kind.sfPlru ∈ F) (kcaps : Kind.caps ∈ F) (kcapBusy : Kind.capBusy ∈ F) (h : Keeps F r s) (src : Nat) (a : Nat) (b : Bytes) (poisoned : Bool) (c : Issuer) :
    Keeps F r (State.devWriteN s src a b poisoned c).1 := by
  unfold State.devWriteN
  try lift_lets
  repeat' first
  | with_reducible assumption
  | exact Or.inl (by with_reducible assumption)
  | (refine Or.inr ?_; (repeat with_reducible apply Nat.le_add_right_of_le); first | decide | omega)
  | with_reducible rfl
  | with_reducible apply State.writeLatest_keeps
  | with_reducible refine Keeps.ite ?_ ?_
  | with_reducible refine OptKeeps.get (by with_reducible assumption) ?_
  | with_reducible refine Keeps.elim ?_ ?_
  | with_reducible refine Keeps.foldl_fst ?_ _ _ ?_
  | with_reducible refine Keeps.foldl ?_ _ _ ?_
  | split
  | (with_reducible intro x; refine Keeps.cut (F := F) (r := r) (s := x) ?_ (fun hx => ?_); on_goal 2 => clear_value x)
  | (with_reducible intro x; refine Keeps.cut (F := F) (r := r) (s := x.1) ?_ (fun hx => ?_); on_goal 2 => clear_value x)
  | (with_reducible intro y)
  | (lift_lets; with_reducible intro x; refine Keeps.cut (F := F) (r := r) (s := x) ?_ (fun hx => ?_); on_goal 2 => clear_value x)
  | (lift_lets; with_reducible intro x; refine Keeps.cut (F := F) (r := r) (s := x.1) ?_ (fun hx => ?_); on_goal 2 => clear_value x)
  | (lift_lets; with_reducible intro y)
  | simp only [id]
  | dsimp only

theorem State.devWrite_keeps {F : List Kind} {r s : State} (kregs : Kind.regs ∈ F) (kmem : Kind.mem ∈ F) (knewtIrq : Kind.newtIrq ∈ F) (kfieldOps : Kind.fieldOps ∈ F) (kpaused : Kind.paused ∈ F) (kecc : Kind.ecc ∈ F) (kmc : Kind.mc ∈ F) (kpoison : Kind.poison ∈ F) (kcache : Kind.cache ∈ F) (khomes : Kind.homes ∈ F) (ksf : Kind.sf ∈ F) (ksfPlru : Kind.sfPlru ∈ F) (kcaps : Kind.caps ∈ F) (kcapBusy : Kind.capBusy ∈ F) (h : Keeps F r s) (src : Nat) (a : Nat) (b : Bytes) (poisoned : Bool) (c : Issuer) :
    Keeps F r (State.devWrite s src a b poisoned c).1 := by
  unfold State.devWrite
  try lift_lets
  repeat' first
  | with_reducible assumption
  | exact Or.inl (by with_reducible assumption)
  | (refine Or.inr ?_; (repeat with_reducible apply Nat.le_add_right_of_le); first | decide | omega)
  | with_reducible rfl
  | with_reducible apply State.devWriteN_keeps
  | with_reducible refine Keeps.ite ?_ ?_
  | with_reducible refine OptKeeps.get (by with_reducible assumption) ?_
  | with_reducible refine Keeps.elim ?_ ?_
  | with_reducible refine Keeps.foldl_fst ?_ _ _ ?_
  | with_reducible refine Keeps.foldl ?_ _ _ ?_
  | split
  | (with_reducible intro x; refine Keeps.cut (F := F) (r := r) (s := x) ?_ (fun hx => ?_); on_goal 2 => clear_value x)
  | (with_reducible intro x; refine Keeps.cut (F := F) (r := r) (s := x.1) ?_ (fun hx => ?_); on_goal 2 => clear_value x)
  | (with_reducible intro y)
  | (lift_lets; with_reducible intro x; refine Keeps.cut (F := F) (r := r) (s := x) ?_ (fun hx => ?_); on_goal 2 => clear_value x)
  | (lift_lets; with_reducible intro x; refine Keeps.cut (F := F) (r := r) (s := x.1) ?_ (fun hx => ?_); on_goal 2 => clear_value x)
  | (lift_lets; with_reducible intro y)
  | simp only [id]
  | dsimp only

theorem State.devAsk_keeps {F : List Kind} {r s : State} (kregs : Kind.regs ∈ F) (kmem : Kind.mem ∈ F) (kresp : Kind.resp ∈ F) (kout : Kind.out ∈ F) (knewtIrq : Kind.newtIrq ∈ F) (kfieldOps : Kind.fieldOps ∈ F) (kfiles : Kind.files ∈ F) (kaplic : Kind.aplic ∈ F) (kpaused : Kind.paused ∈ F) (kcsq : Kind.csq ∈ F) (kecc : Kind.ecc ∈ F) (kmc : Kind.mc ∈ F) (kpoison : Kind.poison ∈ F) (khomes : Kind.homes ∈ F) (ksf : Kind.sf ∈ F) (ksfPlru : Kind.sfPlru ∈ F) (kfaultN : Kind.faultN ∈ F) (ktxIdle : Kind.txIdle ∈ F) (kcaps : Kind.caps ∈ F) (kcapBusy : Kind.capBusy ∈ F) (h : Keeps F r s) (k : Option CohKind) (m : CohMsg) :
    Keeps F r (State.devAsk s k m) := by
  unfold State.devAsk
  try lift_lets
  repeat' first
  | with_reducible assumption
  | exact Or.inl (by with_reducible assumption)
  | (refine Or.inr ?_; (repeat with_reducible apply Nat.le_add_right_of_le); first | decide | omega)
  | with_reducible rfl
  | with_reducible apply State.lineFatal_keeps
  | with_reducible apply State.homeSeq_keeps
  | with_reducible apply State.homeCorrect_keeps
  | with_reducible apply State.homeTake_keeps
  | with_reducible refine Keeps.ite ?_ ?_
  | with_reducible refine OptKeeps.get (by with_reducible assumption) ?_
  | with_reducible refine Keeps.elim ?_ ?_
  | with_reducible refine Keeps.foldl_fst ?_ _ _ ?_
  | with_reducible refine Keeps.foldl ?_ _ _ ?_
  | split
  | (with_reducible intro x; refine Keeps.cut (F := F) (r := r) (s := x) ?_ (fun hx => ?_); on_goal 2 => clear_value x)
  | (with_reducible intro x; refine Keeps.cut (F := F) (r := r) (s := x.1) ?_ (fun hx => ?_); on_goal 2 => clear_value x)
  | (with_reducible intro y)
  | (lift_lets; with_reducible intro x; refine Keeps.cut (F := F) (r := r) (s := x) ?_ (fun hx => ?_); on_goal 2 => clear_value x)
  | (lift_lets; with_reducible intro x; refine Keeps.cut (F := F) (r := r) (s := x.1) ?_ (fun hx => ?_); on_goal 2 => clear_value x)
  | (lift_lets; with_reducible intro y)
  | simp only [id]
  | dsimp only

theorem State.devCmd_keeps {F : List Kind} {r s : State} (kregs : Kind.regs ∈ F) (kmem : Kind.mem ∈ F) (kresp : Kind.resp ∈ F) (kout : Kind.out ∈ F) (knewtIrq : Kind.newtIrq ∈ F) (kfieldOps : Kind.fieldOps ∈ F) (kfiles : Kind.files ∈ F) (kaplic : Kind.aplic ∈ F) (kpaused : Kind.paused ∈ F) (kcsq : Kind.csq ∈ F) (kecc : Kind.ecc ∈ F) (kmc : Kind.mc ∈ F) (kpoison : Kind.poison ∈ F) (khomes : Kind.homes ∈ F) (ksf : Kind.sf ∈ F) (ksfPlru : Kind.sfPlru ∈ F) (kfaultN : Kind.faultN ∈ F) (ktxIdle : Kind.txIdle ∈ F) (kcaps : Kind.caps ∈ F) (kcapBusy : Kind.capBusy ∈ F) (h : Keeps F r s) (f : State → Result) (hf : ∀ x, Keeps F r x → ResKeeps F r (f x)) :
    ResKeeps F r (State.devCmd s f) := by
  unfold State.devCmd
  have h1 := hf s h
  split
  · next t _ e =>
    split
    · exact ResKeeps.next (h1 t e)
    · apply ResKeeps.next
      apply State.devAsk_keeps <;> first | assumption | exact h1 t e
  · exact h1

end Sys2Proof.Machine
end

