-- ==== Sys2Proof/Laws/KeepsIommu.lean ====
section
/-! SUPPORT. What the operations of Machine/Iommu.lean keep: the queue, the canonical forms, time, and every kind of state they do not name. -/

namespace Sys2Proof.Machine

set_option linter.unusedTactic false
set_option linter.unreachableTactic false
set_option linter.unusedVariables false

theorem State.wldEvent_keeps {F : List Kind} {r s : State} (kregs : Kind.regs ∈ F) (knewtIrq : Kind.newtIrq ∈ F) (kfieldOps : Kind.fieldOps ∈ F) (h : Keeps F r s) (l : Loc) (tl : Kind.tbRegs ∈ F ∨ 65536 ≤ l.key) :
    Keeps F r (State.wldEvent s l) := by
  unfold State.wldEvent
  try lift_lets
  repeat' first
  | with_reducible assumption
  | with_reducible apply State.event_keeps

theorem State.iommuFault_keeps {F : List Kind} {r s : State} (kregs : Kind.regs ∈ F) (knewtIrq : Kind.newtIrq ∈ F) (kfieldOps : Kind.fieldOps ∈ F) (kpaused : Kind.paused ∈ F) (kcaps : Kind.caps ∈ F) (kcapBusy : Kind.capBusy ∈ F) (h : Keeps F r s) (src : Nat) (c : Issuer) (a : Nat) (cause : Nat) :
    Keeps F r (State.iommuFault s src c a cause) := by
  unfold State.iommuFault
  try lift_lets
  repeat' first
  | with_reducible assumption
  | exact Or.inl (by with_reducible assumption)
  | (refine Or.inr ?_; (repeat with_reducible apply Nat.le_add_right_of_le); first | decide | omega)
  | with_reducible rfl
  | with_reducible apply State.wr_keeps
  | with_reducible apply State.wldEvent_keeps
  | with_reducible apply State.inc_keeps
  | with_reducible apply State.noteFresh_keeps
  | with_reducible apply State.logRec_keeps
  | with_reducible refine Keeps.ite ?_ ?_
  | with_reducible refine OptKeeps.get (by with_reducible assumption) ?_
  | with_reducible refine Keeps.elim ?_ ?_
  | with_reducible refine Keeps.foldl_fst ?_ _ _ ?_
  | with_reducible refine Keeps.foldl ?_ _ _ ?_
  | split
  | (with_reducible intro x; refine Keeps.cut (F := F) (r := r) (s := x) ?_ (fun hx => ?_); on_goal 2 => clear_value x)
  | (with_reducible intro x; refine Keeps.cut (F := F) (r := r) (s := x.1) ?_ (fun hx => ?_); on_goal 2 => clear_value x)
  | (with_reducible intro y)
  | (lift_lets; with_reducible intro x; refine Keeps.cut (F := F) (r := r) (s := x) ?_ (fun hx => ?_); on_goal 2 => clear_value x)
  | (lift_lets; with_reducible intro x; refine Keeps.cut (F := F) (r := r) (s := x.1) ?_ (fun hx => ?_); on_goal 2 => clear_value x)
  | (lift_lets; with_reducible intro y)
  | simp only [id]
  | dsimp only

theorem State.clearFault_keeps {F : List Kind} {r s : State} (kregs : Kind.regs ∈ F) (h : Keeps F r s) (w : Bool) :
    Keeps F r (State.clearFault s w) := by
  unfold State.clearFault
  try lift_lets
  repeat' first
  | with_reducible assumption
  | exact Or.inl (by with_reducible assumption)
  | (refine Or.inr ?_; (repeat with_reducible apply Nat.le_add_right_of_le); first | decide | omega)
  | with_reducible rfl
  | with_reducible apply State.put_keeps
  | with_reducible apply State.wr_keeps
  | with_reducible refine Keeps.ite ?_ ?_
  | with_reducible refine OptKeeps.get (by with_reducible assumption) ?_
  | with_reducible refine Keeps.elim ?_ ?_
  | with_reducible refine Keeps.foldl_fst ?_ _ _ ?_
  | with_reducible refine Keeps.foldl ?_ _ _ ?_
  | split
  | (with_reducible intro x; refine Keeps.cut (F := F) (r := r) (s := x) ?_ (fun hx => ?_); on_goal 2 => clear_value x)
  | (with_reducible intro x; refine Keeps.cut (F := F) (r := r) (s := x.1) ?_ (fun hx => ?_); on_goal 2 => clear_value x)
  | (with_reducible intro y)
  | (lift_lets; with_reducible intro x; refine Keeps.cut (F := F) (r := r) (s := x) ?_ (fun hx => ?_); on_goal 2 => clear_value x)
  | (lift_lets; with_reducible intro x; refine Keeps.cut (F := F) (r := r) (s := x.1) ?_ (fun hx => ?_); on_goal 2 => clear_value x)
  | (lift_lets; with_reducible intro y)
  | simp only [id]
  | dsimp only

theorem State.consume_keeps {F : List Kind} {r s : State} (kregs : Kind.regs ∈ F) (knewtIrq : Kind.newtIrq ∈ F) (kfieldOps : Kind.fieldOps ∈ F) (kpaused : Kind.paused ∈ F) (kcaps : Kind.caps ∈ F) (kcapBusy : Kind.capBusy ∈ F) (h : Keeps F r s) (log : Nat) (d : DevAns) (c : Issuer) :
    Keeps F r (State.consume s log d c) := by
  unfold State.consume
  try lift_lets
  repeat' first
  | with_reducible assumption
  | with_reducible apply State.logRec_keeps
  | with_reducible refine Keeps.ite ?_ ?_

theorem State.walkRead_keeps {F : List Kind} {r s : State} (kregs : Kind.regs ∈ F) (kmem : Kind.mem ∈ F) (knewtIrq : Kind.newtIrq ∈ F) (kfieldOps : Kind.fieldOps ∈ F) (kpaused : Kind.paused ∈ F) (kecc : Kind.ecc ∈ F) (kmc : Kind.mc ∈ F) (kpoison : Kind.poison ∈ F) (kcache : Kind.cache ∈ F) (khomes : Kind.homes ∈ F) (ksfPlru : Kind.sfPlru ∈ F) (kcaps : Kind.caps ∈ F) (kcapBusy : Kind.capBusy ∈ F) (h : Keeps F r s) (src : Nat) (c : Issuer) (a : Nat) :
    Keeps F r (State.walkRead s src c a).1 := by
  unfold State.walkRead
  try lift_lets
  repeat' first
  | with_reducible assumption
  | exact Or.inl (by with_reducible assumption)
  | (refine Or.inr ?_; (repeat with_reducible apply Nat.le_add_right_of_le); first | decide | omega)
  | with_reducible rfl
  | with_reducible apply State.devRead_keeps
  | with_reducible apply State.consume_keeps
  | with_reducible refine Keeps.ite ?_ ?_
  | with_reducible refine OptKeeps.get (by with_reducible assumption) ?_
  | with_reducible refine Keeps.elim ?_ ?_
  | with_reducible refine Keeps.foldl_fst ?_ _ _ ?_
  | with_reducible refine Keeps.foldl ?_ _ _ ?_
  | split
  | (with_reducible intro y)
  | (lift_lets; with_reducible intro y)
  | simp only [id]
  | dsimp only

theorem State.walk_keeps {F : List Kind} {r s : State} (kregs : Kind.regs ∈ F) (kmem : Kind.mem ∈ F) (knewtIrq : Kind.newtIrq ∈ F) (kfieldOps : Kind.fieldOps ∈ F) (kpaused : Kind.paused ∈ F) (kecc : Kind.ecc ∈ F) (kmc : Kind.mc ∈ F) (kpoison : Kind.poison ∈ F) (kcache : Kind.cache ∈ F) (khomes : Kind.homes ∈ F) (ksfPlru : Kind.sfPlru ∈ F) (kcaps : Kind.caps ∈ F) (kcapBusy : Kind.capBusy ∈ F) (h : Keeps F r s) (src : Nat) (c : Issuer) (a lvl table : Nat) :
    Keeps F r (State.walk s src c a lvl table).1 := by
  induction lvl generalizing s table
  case zero =>
    unfold State.walk
    extract_lets r1
    have hr : Keeps F r r1.1 := by apply State.walkRead_keeps <;> assumption
    clear_value r1
    repeat' first
    | with_reducible exact hr
    | (intro x; clear_value x)
    | split
    | lift_lets
  case succ k ih =>
    unfold State.walk
    extract_lets r1
    have hr : Keeps F r r1.1 := by apply State.walkRead_keeps <;> assumption
    clear_value r1
    repeat' first
    | with_reducible exact hr
    | with_reducible exact ih hr _
    | (intro x; clear_value x)
    | split
    | lift_lets

theorem State.iommuContext_keeps {F : List Kind} {r s : State} (kregs : Kind.regs ∈ F) (kmem : Kind.mem ∈ F) (knewtIrq : Kind.newtIrq ∈ F) (kfieldOps : Kind.fieldOps ∈ F) (kpaused : Kind.paused ∈ F) (kecc : Kind.ecc ∈ F) (kmc : Kind.mc ∈ F) (kpoison : Kind.poison ∈ F) (kcache : Kind.cache ∈ F) (khomes : Kind.homes ∈ F) (ksfPlru : Kind.sfPlru ∈ F) (kcaps : Kind.caps ∈ F) (kcapBusy : Kind.capBusy ∈ F) (h : Keeps F r s) (src : Nat) (c : Issuer) :
    Keeps F r (State.iommuContext s src c).1 := by
  unfold State.iommuContext
  try lift_lets
  repeat' first
  | with_reducible assumption
  | exact Or.inl (by with_reducible assumption)
  | (refine Or.inr ?_; (repeat with_reducible apply Nat.le_add_right_of_le); first | decide | omega)
  | with_reducible rfl
  | with_reducible apply State.walkRead_keeps
  | with_reducible refine Keeps.ite ?_ ?_
  | with_reducible refine OptKeeps.get (by with_reducible assumption) ?_
  | with_reducible refine Keeps.elim ?_ ?_
  | with_reducible refine Keeps.foldl_fst ?_ _ _ ?_
  | with_reducible refine Keeps.foldl ?_ _ _ ?_
  | split
  | (with_reducible intro x; refine Keeps.cut (F := F) (r := r) (s := x) ?_ (fun hx => ?_); on_goal 2 => clear_value x)
  | (with_reducible intro x; refine Keeps.cut (F := F) (r := r) (s := x.1) ?_ (fun hx => ?_); on_goal 2 => clear_value x)
  | (with_reducible intro y)
  | (lift_lets; with_reducible intro x; refine Keeps.cut (F := F) (r := r) (s := x) ?_ (fun hx => ?_); on_goal 2 => clear_value x)
  | (lift_lets; with_reducible intro x; refine Keeps.cut (F := F) (r := r) (s := x.1) ?_ (fun hx => ?_); on_goal 2 => clear_value x)
  | (lift_lets; with_reducible intro y)
  | simp only [id]
  | dsimp only

theorem State.tlbAdd_keeps {F : List Kind} {r s : State} (kiotlb : Kind.iotlb ∈ F) (h : Keeps F r s) (a1 : TlbEnt) :
    Keeps F r (State.tlbAdd s a1) := by
  unfold State.tlbAdd
  try lift_lets
  repeat' first
  | with_reducible assumption
  | (with_reducible refine Keeps.upd ?_ rfl rfl rfl rfl rfl rfl rfl rfl ?_ ?_ ?_ ?_ ?_ ?_ ?_ ?_ ?_ ?_ ?_ ?_ ?_ ?_ ?_ ?_ ?_ ?_ ?_ ?_ ?_ ?_ ?_ ?_ ?_ ?_ ?_ ?_ ?_ ?_ ?_ ?_ ?_ ?_ ?_ ?_ ?_ ?_ ?_ ?_ ?_ ?_ ?_ ?_ ?_ ?_ ?_ ?_ ?_ ?_ ?_ ?_ ?_ ?_ ?_ ?_ ?_ ?_ ?_ ?_ ?_ ?_ ?_ <;> first | with_reducible assumption | with_reducible exact Or.inr rfl | with_reducible exact Or.inl (by assumption))

theorem State.pageOf_keeps {F : List Kind} {r s : State} (kregs : Kind.regs ∈ F) (kmem : Kind.mem ∈ F) (knewtIrq : Kind.newtIrq ∈ F) (kfieldOps : Kind.fieldOps ∈ F) (kpaused : Kind.paused ∈ F) (kecc : Kind.ecc ∈ F) (kmc : Kind.mc ∈ F) (kpoison : Kind.poison ∈ F) (kcache : Kind.cache ∈ F) (khomes : Kind.homes ∈ F) (ksfPlru : Kind.sfPlru ∈ F) (kiotlb : Kind.iotlb ∈ F) (kcaps : Kind.caps ∈ F) (kcapBusy : Kind.capBusy ∈ F) (h : Keeps F r s) (src : Nat) (c : Issuer) (a : Nat) :
    Keeps F r (State.pageOf s src c a).1 := by
  unfold State.pageOf
  try lift_lets
  repeat' first
  | with_reducible assumption
  | exact Or.inl (by with_reducible assumption)
  | (refine Or.inr ?_; (repeat with_reducible apply Nat.le_add_right_of_le); first | decide | omega)
  | with_reducible rfl
  | with_reducible apply State.iommuContext_keeps
  | with_reducible apply State.walk_keeps
  | with_reducible apply State.tlbAdd_keeps
  | with_reducible refine Keeps.ite ?_ ?_
  | with_reducible refine OptKeeps.get (by with_reducible assumption) ?_
  | with_reducible refine Keeps.elim ?_ ?_
  | with_reducible refine Keeps.foldl_fst ?_ _ _ ?_
  | with_reducible refine Keeps.foldl ?_ _ _ ?_
  | split
  | (with_reducible intro y)
  | (lift_lets; with_reducible intro y)
  | simp only [id]
  | dsimp only

theorem State.translate_keeps {F : List Kind} {r s : State} (kregs : Kind.regs ∈ F) (kmem : Kind.mem ∈ F) (knewtIrq : Kind.newtIrq ∈ F) (kfieldOps : Kind.fieldOps ∈ F) (kpaused : Kind.paused ∈ F) (kecc : Kind.ecc ∈ F) (kmc : Kind.mc ∈ F) (kpoison : Kind.poison ∈ F) (kcache : Kind.cache ∈ F) (khomes : Kind.homes ∈ F) (ksfPlru : Kind.sfPlru ∈ F) (kiotlb : Kind.iotlb ∈ F) (kcaps : Kind.caps ∈ F) (kcapBusy : Kind.capBusy ∈ F) (h : Keeps F r s) (src : Nat) (c : Issuer) (a : Nat) (n : Nat) (write : Bool) (msg : Bool) :
    Keeps F r (State.translate s src c a n write msg).1 := by
  unfold State.translate
  try lift_lets
  repeat' first
  | with_reducible assumption
  | exact Or.inl (by with_reducible assumption)
  | (refine Or.inr ?_; (repeat with_reducible apply Nat.le_add_right_of_le); first | decide | omega)
  | with_reducible rfl
  | with_reducible apply State.pageOf_keeps
  | with_reducible refine Keeps.ite ?_ ?_
  | with_reducible refine OptKeeps.get (by with_reducible assumption) ?_
  | with_reducible refine Keeps.elim ?_ ?_
  | with_reducible refine Keeps.foldl_fst ?_ _ _ ?_
  | with_reducible refine Keeps.foldl ?_ _ _ ?_
  | split
  | (with_reducible intro x; refine Keeps.cut (F := F) (r := r) (s := x) ?_ (fun hx => ?_); on_goal 2 => clear_value x)
  | (with_reducible intro x; refine Keeps.cut (F := F) (r := r) (s := x.1) ?_ (fun hx => ?_); on_goal 2 => clear_value x)
  | (with_reducible intro y)
  | (lift_lets; with_reducible intro x; refine Keeps.cut (F := F) (r := r) (s := x) ?_ (fun hx => ?_); on_goal 2 => clear_value x)
  | (lift_lets; with_reducible intro x; refine Keeps.cut (F := F) (r := r) (s := x.1) ?_ (fun hx => ?_); on_goal 2 => clear_value x)
  | (lift_lets; with_reducible intro y)
  | simp only [id]
  | dsimp only

theorem State.ioRead_keeps {F : List Kind} {r s : State} (kregs : Kind.regs ∈ F) (kmem : Kind.mem ∈ F) (knewtIrq : Kind.newtIrq ∈ F) (kfieldOps : Kind.fieldOps ∈ F) (kpaused : Kind.paused ∈ F) (kecc : Kind.ecc ∈ F) (kmc : Kind.mc ∈ F) (kpoison : Kind.poison ∈ F) (kcache : Kind.cache ∈ F) (khomes : Kind.homes ∈ F) (ksfPlru : Kind.sfPlru ∈ F) (kiotlb : Kind.iotlb ∈ F) (kcaps : Kind.caps ∈ F) (kcapBusy : Kind.capBusy ∈ F) (h : Keeps F r s) (src : Nat) (c : Issuer) (a : Nat) (n : Nat) :
    Keeps F r (State.ioRead s src c a n).1 := by
  unfold State.ioRead
  try lift_lets
  repeat' first
  | with_reducible assumption
  | exact Or.inl (by with_reducible assumption)
  | (refine Or.inr ?_; (repeat with_reducible apply Nat.le_add_right_of_le); first | decide | omega)
  | with_reducible rfl
  | with_reducible apply State.translate_keeps
  | with_reducible apply State.iommuFault_keeps
  | with_reducible apply State.devRead_keeps
  | with_reducible apply State.consume_keeps
  | with_reducible refine Keeps.ite ?_ ?_
  | with_reducible refine OptKeeps.get (by with_reducible assumption) ?_
  | with_reducible refine Keeps.elim ?_ ?_
  | with_reducible refine Keeps.foldl_fst ?_ _ _ ?_
  | with_reducible refine Keeps.foldl ?_ _ _ ?_
  | split
  | (with_reducible intro y)
  | (lift_lets; with_reducible intro y)
  | simp only [id]
  | dsimp only

theorem State.ioPages_keeps {F : List Kind} {r s : State} (kregs : Kind.regs ∈ F) (kmem : Kind.mem ∈ F) (knewtIrq : Kind.newtIrq ∈ F) (kfieldOps : Kind.fieldOps ∈ F) (kpaused : Kind.paused ∈ F) (kecc : Kind.ecc ∈ F) (kmc : Kind.mc ∈ F) (kpoison : Kind.poison ∈ F) (kcache : Kind.cache ∈ F) (khomes : Kind.homes ∈ F) (ksfPlru : Kind.sfPlru ∈ F) (kiotlb : Kind.iotlb ∈ F) (kcaps : Kind.caps ∈ F) (kcapBusy : Kind.capBusy ∈ F) (h : Keeps F r s) (src : Nat) (c : Issuer) (l : List (Nat × Nat)) :
    Keeps F r (State.ioPages s src c l).1 := by
  induction l generalizing s
  case nil => exact h
  case cons x t ih =>
    have ht : Keeps F r (s.translate src c (x.1 % 2 ^ 48) x.2 true false).1 := by
      apply State.translate_keeps <;> assumption
    unfold State.ioPages
    repeat' first
    | with_reducible assumption
    | with_reducible apply State.iommuFault_keeps
    | with_reducible apply ih
    | split
    | dsimp only

theorem State.ioWriteN_keeps {F : List Kind} {r s : State} (kregs : Kind.regs ∈ F) (kmem : Kind.mem ∈ F) (knewtIrq : Kind.newtIrq ∈ F) (kfieldOps : Kind.fieldOps ∈ F) (kpaused : Kind.paused ∈ F) (kecc : Kind.ecc ∈ F) (kmc : Kind.mc ∈ F) (kpoison : Kind.poison ∈ F) (kcache : Kind.cache ∈ F) (khomes : Kind.homes ∈ F) (ksf : Kind.sf ∈ F) (ksfPlru : Kind.sfPlru ∈ F) (kiotlb : Kind.iotlb ∈ F) (kcaps : Kind.caps ∈ F) (kcapBusy : Kind.capBusy ∈ F) (h : Keeps F r s) (src : Nat) (c : Issuer) (a : Nat) (b : Bytes) (poisoned : Bool) :
    Keeps F r (State.ioWriteN s src c a b poisoned).1 := by
  unfold State.ioWriteN
  try lift_lets
  repeat' first
  | with_reducible assumption
  | exact Or.inl (by with_reducible assumption)
  | (refine Or.inr ?_; (repeat with_reducible apply Nat.le_add_right_of_le); first | decide | omega)
  | with_reducible rfl
  | with_reducible apply State.ioPages_keeps
  | with_reducible apply State.devWriteN_keeps
  | with_reducible refine Keeps.ite ?_ ?_
  | with_reducible refine OptKeeps.get (by with_reducible assumption) ?_
  | with_reducible refine Keeps.elim ?_ ?_
  | with_reducible refine Keeps.foldl_fst ?_ _ _ ?_
  | with_reducible refine Keeps.foldl ?_ _ _ ?_
  | split
  | (with_reducible intro x; refine Keeps.cut (F := F) (r := r) (s := x) ?_ (fun hx => ?_); on_goal 2 => clear_value x)
  | (with_reducible intro x; refine Keeps.cut (F := F) (r := r) (s := x.1) ?_ (fun hx => ?_); on_goal 2 => clear_value x)
  | (with_reducible intro y)
  | (lift_lets; with_reducible intro x; refine Keeps.cut (F := F) (r := r) (s := x) ?_ (fun hx => ?_); on_goal 2 => clear_value x)
  | (lift_lets; with_reducible intro x; refine Keeps.cut (F := F) (r := r) (s := x.1) ?_ (fun hx => ?_); on_goal 2 => clear_value x)
  | (lift_lets; with_reducible intro y)
  | simp only [id]
  | dsimp only

theorem State.ioWrite_keeps {F : List Kind} {r s : State} (kregs : Kind.regs ∈ F) (kmem : Kind.mem ∈ F) (knewtIrq : Kind.newtIrq ∈ F) (kfieldOps : Kind.fieldOps ∈ F) (kpaused : Kind.paused ∈ F) (kecc : Kind.ecc ∈ F) (kmc : Kind.mc ∈ F) (kpoison : Kind.poison ∈ F) (kcache : Kind.cache ∈ F) (khomes : Kind.homes ∈ F) (ksf : Kind.sf ∈ F) (ksfPlru : Kind.sfPlru ∈ F) (kiotlb : Kind.iotlb ∈ F) (kcaps : Kind.caps ∈ F) (kcapBusy : Kind.capBusy ∈ F) (h : Keeps F r s) (src : Nat) (c : Issuer) (a : Nat) (b : Bytes) (poisoned : Bool) :
    Keeps F r (State.ioWrite s src c a b poisoned).1 := by
  unfold State.ioWrite
  try lift_lets
  repeat' first
  | with_reducible assumption
  | exact Or.inl (by with_reducible assumption)
  | (refine Or.inr ?_; (repeat with_reducible apply Nat.le_add_right_of_le); first | decide | omega)
  | with_reducible rfl
  | with_reducible apply State.ioWriteN_keeps
  | with_reducible refine Keeps.ite ?_ ?_
  | with_reducible refine OptKeeps.get (by with_reducible assumption) ?_
  | with_reducible refine Keeps.elim ?_ ?_
  | with_reducible refine Keeps.foldl_fst ?_ _ _ ?_
  | with_reducible refine Keeps.foldl ?_ _ _ ?_
  | split
  | (with_reducible intro x; refine Keeps.cut (F := F) (r := r) (s := x) ?_ (fun hx => ?_); on_goal 2 => clear_value x)
  | (with_reducible intro x; refine Keeps.cut (F := F) (r := r) (s := x.1) ?_ (fun hx => ?_); on_goal 2 => clear_value x)
  | (with_reducible intro y)
  | (lift_lets; with_reducible intro x; refine Keeps.cut (F := F) (r := r) (s := x) ?_ (fun hx => ?_); on_goal 2 => clear_value x)
  | (lift_lets; with_reducible intro x; refine Keeps.cut (F := F) (r := r) (s := x.1) ?_ (fun hx => ?_); on_goal 2 => clear_value x)
  | (lift_lets; with_reducible intro y)
  | simp only [id]
  | dsimp only

theorem State.ioMsi_keeps {F : List Kind} {r s : State} (kregs : Kind.regs ∈ F) (kmem : Kind.mem ∈ F) (kresp : Kind.resp ∈ F) (knewtIrq : Kind.newtIrq ∈ F) (kfieldOps : Kind.fieldOps ∈ F) (kfiles : Kind.files ∈ F) (kpaused : Kind.paused ∈ F) (kecc : Kind.ecc ∈ F) (kmc : Kind.mc ∈ F) (kpoison : Kind.poison ∈ F) (kcache : Kind.cache ∈ F) (khomes : Kind.homes ∈ F) (ksf : Kind.sf ∈ F) (ksfPlru : Kind.sfPlru ∈ F) (kiotlb : Kind.iotlb ∈ F) (kcaps : Kind.caps ∈ F) (kcapBusy : Kind.capBusy ∈ F) (h : Keeps F r s) (src : Nat) (c : Issuer) (a : Nat) (data : Nat) :
    Keeps F r (State.ioMsi s src c a data) := by
  unfold State.ioMsi
  try lift_lets
  repeat' first
  | with_reducible assumption
  | exact Or.inl (by with_reducible assumption)
  | (refine Or.inr ?_; (repeat with_reducible apply Nat.le_add_right_of_le); first | decide | omega)
  | with_reducible rfl
  | with_reducible apply State.translate_keeps
  | with_reducible apply State.iommuFault_keeps
  | with_reducible apply State.msi_keeps
  | with_reducible apply State.devWrite_keeps
  | with_reducible refine Keeps.ite ?_ ?_
  | with_reducible refine OptKeeps.get (by with_reducible assumption) ?_
  | with_reducible refine Keeps.elim ?_ ?_
  | with_reducible refine Keeps.foldl_fst ?_ _ _ ?_
  | with_reducible refine Keeps.foldl ?_ _ _ ?_
  | split
  | (with_reducible intro y)
  | (lift_lets; with_reducible intro y)
  | simp only [id]
  | dsimp only

theorem State.physCheck_keeps {F : List Kind} {r s : State} (kregs : Kind.regs ∈ F) (knewtIrq : Kind.newtIrq ∈ F) (kfieldOps : Kind.fieldOps ∈ F) (kpaused : Kind.paused ∈ F) (kcaps : Kind.caps ∈ F) (kcapBusy : Kind.capBusy ∈ F) (h : Keeps F r s) (src : Nat) (c : Issuer) (a : Nat) (n : Nat) :
    Keeps F r (State.physCheck s src c a n).1 := by
  unfold State.physCheck
  try lift_lets
  repeat' first
  | with_reducible assumption
  | with_reducible apply State.iommuFault_keeps
  | split

theorem State.physRead_keeps {F : List Kind} {r s : State} (kregs : Kind.regs ∈ F) (kmem : Kind.mem ∈ F) (knewtIrq : Kind.newtIrq ∈ F) (kfieldOps : Kind.fieldOps ∈ F) (kpaused : Kind.paused ∈ F) (kecc : Kind.ecc ∈ F) (kmc : Kind.mc ∈ F) (kpoison : Kind.poison ∈ F) (kcache : Kind.cache ∈ F) (khomes : Kind.homes ∈ F) (ksfPlru : Kind.sfPlru ∈ F) (kcaps : Kind.caps ∈ F) (kcapBusy : Kind.capBusy ∈ F) (h : Keeps F r s) (src : Nat) (c : Issuer) (a : Nat) (n : Nat) :
    Keeps F r (State.physRead s src c a n).1 := by
  unfold State.physRead
  try lift_lets
  repeat' first
  | with_reducible assumption
  | exact Or.inl (by with_reducible assumption)
  | (refine Or.inr ?_; (repeat with_reducible apply Nat.le_add_right_of_le); first | decide | omega)
  | with_reducible rfl
  | with_reducible apply State.physCheck_keeps
  | with_reducible apply State.devRead_keeps
  | with_reducible apply State.consume_keeps
  | with_reducible refine Keeps.ite ?_ ?_
  | with_reducible refine OptKeeps.get (by with_reducible assumption) ?_
  | with_reducible refine Keeps.elim ?_ ?_
  | with_reducible refine Keeps.foldl_fst ?_ _ _ ?_
  | with_reducible refine Keeps.foldl ?_ _ _ ?_
  | split
  | (with_reducible intro y)
  | (lift_lets; with_reducible intro y)
  | simp only [id]
  | dsimp only

theorem State.physWrite_keeps {F : List Kind} {r s : State} (kregs : Kind.regs ∈ F) (kmem : Kind.mem ∈ F) (knewtIrq : Kind.newtIrq ∈ F) (kfieldOps : Kind.fieldOps ∈ F) (kpaused : Kind.paused ∈ F) (kecc : Kind.ecc ∈ F) (kmc : Kind.mc ∈ F) (kpoison : Kind.poison ∈ F) (kcache : Kind.cache ∈ F) (khomes : Kind.homes ∈ F) (ksf : Kind.sf ∈ F) (ksfPlru : Kind.sfPlru ∈ F) (kcaps : Kind.caps ∈ F) (kcapBusy : Kind.capBusy ∈ F) (h : Keeps F r s) (src : Nat) (c : Issuer) (a : Nat) (b : Bytes) :
    Keeps F r (State.physWrite s src c a b).1 := by
  unfold State.physWrite
  try lift_lets
  repeat' first
  | with_reducible assumption
  | exact Or.inl (by with_reducible assumption)
  | (refine Or.inr ?_; (repeat with_reducible apply Nat.le_add_right_of_le); first | decide | omega)
  | with_reducible rfl
  | with_reducible apply State.physCheck_keeps
  | with_reducible apply State.devWrite_keeps
  | with_reducible refine Keeps.ite ?_ ?_
  | with_reducible refine OptKeeps.get (by with_reducible assumption) ?_
  | with_reducible refine Keeps.elim ?_ ?_
  | with_reducible refine Keeps.foldl_fst ?_ _ _ ?_
  | with_reducible refine Keeps.foldl ?_ _ _ ?_
  | split
  | (with_reducible intro y)
  | (lift_lets; with_reducible intro y)
  | simp only [id]
  | dsimp only

end Sys2Proof.Machine
end

