-- ==== Sys2Proof/Laws/KeepsQueue.lean ====
section
/-! SUPPORT. What the operations of Machine/Queue.lean keep: the queue, the canonical forms, time, and every kind of state they do not name. -/

namespace Sys2Proof.Machine

set_option linter.unusedTactic false
set_option linter.unreachableTactic false
set_option linter.unusedVariables false

theorem State.qeEvent_keeps {F : List Kind} {r s : State} (kregs : Kind.regs ∈ F) (knewtIrq : Kind.newtIrq ∈ F) (kfieldOps : Kind.fieldOps ∈ F) (h : Keeps F r s) (e : Nat) (l : Loc) (tl : Kind.tbRegs ∈ F ∨ 65536 ≤ l.key) :
    Keeps F r (State.qeEvent s e l) := by
  unfold State.qeEvent
  try lift_lets
  repeat' first
  | with_reducible assumption
  | with_reducible apply State.event_keeps

theorem State.setSpillQ_keeps {F : List Kind} {r s : State} (kqueues : Kind.queues ∈ F) (h : Keeps F r s) (q : Nat) (a2 : SpillQ) :
    Keeps F r (State.setSpillQ s q a2) := by
  unfold State.setSpillQ
  try lift_lets
  repeat' first
  | with_reducible assumption
  | (with_reducible refine Keeps.upd ?_ rfl rfl rfl rfl rfl rfl rfl rfl ?_ ?_ ?_ ?_ ?_ ?_ ?_ ?_ ?_ ?_ ?_ ?_ ?_ ?_ ?_ ?_ ?_ ?_ ?_ ?_ ?_ ?_ ?_ ?_ ?_ ?_ ?_ ?_ ?_ ?_ ?_ ?_ ?_ ?_ ?_ ?_ ?_ ?_ ?_ ?_ ?_ ?_ ?_ ?_ ?_ ?_ ?_ ?_ ?_ ?_ ?_ ?_ ?_ ?_ ?_ ?_ ?_ ?_ ?_ ?_ ?_ ?_ ?_ <;> first | with_reducible assumption | with_reducible exact Or.inr rfl | with_reducible exact Or.inl (by assumption))

theorem State.setQe_keeps {F : List Kind} {r s : State} (kqe : Kind.qe ∈ F) (h : Keeps F r s) (e : Nat) (a2 : QEng) :
    Keeps F r (State.setQe s e a2) := by
  unfold State.setQe
  try lift_lets
  repeat' first
  | with_reducible assumption
  | (with_reducible refine Keeps.upd ?_ rfl rfl rfl rfl rfl rfl rfl rfl ?_ ?_ ?_ ?_ ?_ ?_ ?_ ?_ ?_ ?_ ?_ ?_ ?_ ?_ ?_ ?_ ?_ ?_ ?_ ?_ ?_ ?_ ?_ ?_ ?_ ?_ ?_ ?_ ?_ ?_ ?_ ?_ ?_ ?_ ?_ ?_ ?_ ?_ ?_ ?_ ?_ ?_ ?_ ?_ ?_ ?_ ?_ ?_ ?_ ?_ ?_ ?_ ?_ ?_ ?_ ?_ ?_ ?_ ?_ ?_ ?_ ?_ ?_ <;> first | with_reducible assumption | with_reducible exact Or.inr rfl | with_reducible exact Or.inl (by assumption))

theorem State.lateDiscard_keeps {F : List Kind} {r s : State} (kregs : Kind.regs ∈ F) (h : Keeps F r s) (v : Nat) :
    Keeps F r (State.lateDiscard s v) := by
  unfold State.lateDiscard
  try lift_lets
  repeat' first
  | with_reducible assumption
  | (refine Or.inr ?_; (repeat with_reducible apply Nat.le_add_right_of_le); first | decide | omega)
  | with_reducible apply State.inc_keeps

theorem State.markPage_keeps {F : List Kind} {r s : State} (kregs : Kind.regs ∈ F) (kmem : Kind.mem ∈ F) (knewtIrq : Kind.newtIrq ∈ F) (kfieldOps : Kind.fieldOps ∈ F) (kpaused : Kind.paused ∈ F) (kecc : Kind.ecc ∈ F) (kmc : Kind.mc ∈ F) (kpoison : Kind.poison ∈ F) (kcache : Kind.cache ∈ F) (khomes : Kind.homes ∈ F) (ksf : Kind.sf ∈ F) (ksfPlru : Kind.sfPlru ∈ F) (kcaps : Kind.caps ∈ F) (kcapBusy : Kind.capBusy ∈ F) (h : Keeps F r s) (v : Nat) (page : Nat) :
    Keeps F r (State.markPage s v page) := by
  unfold State.markPage
  try lift_lets
  repeat' first
  | with_reducible assumption
  | exact Or.inl (by with_reducible assumption)
  | (refine Or.inr ?_; (repeat with_reducible apply Nat.le_add_right_of_le); first | decide | omega)
  | with_reducible rfl
  | with_reducible apply State.raise_keeps
  | with_reducible apply State.physRead_keeps
  | with_reducible apply State.physWrite_keeps
  | with_reducible refine Keeps.ite ?_ ?_
  | with_reducible refine OptKeeps.get (by with_reducible assumption) ?_
  | with_reducible refine Keeps.elim ?_ ?_
  | with_reducible refine Keeps.foldl_fst ?_ _ _ ?_
  | with_reducible refine Keeps.foldl ?_ _ _ ?_
  | split
  | (with_reducible intro y)
  | (lift_lets; with_reducible intro y)
  | simp only [id]
  | dsimp only

theorem State.markDirty_keeps {F : List Kind} {r s : State} (kregs : Kind.regs ∈ F) (kmem : Kind.mem ∈ F) (knewtIrq : Kind.newtIrq ∈ F) (kfieldOps : Kind.fieldOps ∈ F) (kpaused : Kind.paused ∈ F) (kecc : Kind.ecc ∈ F) (kmc : Kind.mc ∈ F) (kpoison : Kind.poison ∈ F) (kcache : Kind.cache ∈ F) (khomes : Kind.homes ∈ F) (ksf : Kind.sf ∈ F) (ksfPlru : Kind.sfPlru ∈ F) (kcaps : Kind.caps ∈ F) (kcapBusy : Kind.capBusy ∈ F) (h : Keeps F r s) (c : Issuer) (a : Nat) (n : Nat) :
    Keeps F r (State.markDirty s c a n) := by
  unfold State.markDirty
  try lift_lets
  repeat' first
  | with_reducible assumption
  | with_reducible apply State.forAll_keeps
  | with_reducible apply State.markPage_keeps
  | split
  | (intro y)

theorem State.store_keeps {F : List Kind} {r s : State} (kregs : Kind.regs ∈ F) (kmem : Kind.mem ∈ F) (knewtIrq : Kind.newtIrq ∈ F) (kfieldOps : Kind.fieldOps ∈ F) (kpaused : Kind.paused ∈ F) (kecc : Kind.ecc ∈ F) (kmc : Kind.mc ∈ F) (kpoison : Kind.poison ∈ F) (kcache : Kind.cache ∈ F) (khomes : Kind.homes ∈ F) (ksf : Kind.sf ∈ F) (ksfPlru : Kind.sfPlru ∈ F) (kiotlb : Kind.iotlb ∈ F) (kcaps : Kind.caps ∈ F) (kcapBusy : Kind.capBusy ∈ F) (h : Keeps F r s) (src : Nat) (c : Issuer) (a : Nat) (b : Bytes) (poisoned : Bool) :
    Keeps F r (State.store s src c a b poisoned).1 := by
  unfold State.store
  try lift_lets
  repeat' first
  | with_reducible assumption
  | exact Or.inl (by with_reducible assumption)
  | (refine Or.inr ?_; (repeat with_reducible apply Nat.le_add_right_of_le); first | decide | omega)
  | with_reducible rfl
  | with_reducible apply State.ioWriteN_keeps
  | with_reducible apply State.markDirty_keeps
  | with_reducible refine Keeps.ite ?_ ?_
  | with_reducible refine OptKeeps.get (by with_reducible assumption) ?_
  | with_reducible refine Keeps.elim ?_ ?_
  | with_reducible refine Keeps.foldl_fst ?_ _ _ ?_
  | with_reducible refine Keeps.foldl ?_ _ _ ?_
  | split
  | (with_reducible intro x; refine Keeps.cut (F := F) (r := r) (s := x) ?_ (fun hx => ?_); on_goal 2 => clear_value x)
  | (with_reducible intro x; refine Keeps.cut (F := F) (r := r) (s := x.1) ?_ (fun hx => ?_); on_goal 2 => clear_value x)
  | (with_reducible intro y)
  | (lift_lets; with_reducible intro x; refine Keeps.cut (F := F) (r := r) (s := x) ?_ (fun hx => ?_); on_goal 2 => clear_value x)
  | (lift_lets; with_reducible intro x; refine Keeps.cut (F := F) (r := r) (s := x.1) ?_ (fun hx => ?_); on_goal 2 => clear_value x)
  | (lift_lets; with_reducible intro y)
  | simp only [id]
  | dsimp only

theorem State.sendMsi_keeps {F : List Kind} {r s : State} (kregs : Kind.regs ∈ F) (kmem : Kind.mem ∈ F) (kresp : Kind.resp ∈ F) (knewtIrq : Kind.newtIrq ∈ F) (kfieldOps : Kind.fieldOps ∈ F) (kfiles : Kind.files ∈ F) (kpaused : Kind.paused ∈ F) (kecc : Kind.ecc ∈ F) (kmc : Kind.mc ∈ F) (kpoison : Kind.poison ∈ F) (kcache : Kind.cache ∈ F) (khomes : Kind.homes ∈ F) (ksf : Kind.sf ∈ F) (ksfPlru : Kind.sfPlru ∈ F) (kiotlb : Kind.iotlb ∈ F) (kcaps : Kind.caps ∈ F) (kcapBusy : Kind.capBusy ∈ F) (h : Keeps F r s) (src : Nat) (c : Issuer) (a : Nat) (data : Nat) :
    Keeps F r (State.sendMsi s src c a data) := by
  unfold State.sendMsi
  try lift_lets
  repeat' first
  | with_reducible assumption
  | exact Or.inl (by with_reducible assumption)
  | (refine Or.inr ?_; (repeat with_reducible apply Nat.le_add_right_of_le); first | decide | omega)
  | with_reducible rfl
  | (with_reducible refine Keeps.upd ?_ rfl rfl rfl rfl rfl rfl rfl rfl ?_ ?_ ?_ ?_ ?_ ?_ ?_ ?_ ?_ ?_ ?_ ?_ ?_ ?_ ?_ ?_ ?_ ?_ ?_ ?_ ?_ ?_ ?_ ?_ ?_ ?_ ?_ ?_ ?_ ?_ ?_ ?_ ?_ ?_ ?_ ?_ ?_ ?_ ?_ ?_ ?_ ?_ ?_ ?_ ?_ ?_ ?_ ?_ ?_ ?_ ?_ ?_ ?_ ?_ ?_ ?_ ?_ ?_ ?_ ?_ ?_ ?_ ?_ <;> first | with_reducible assumption | with_reducible exact Or.inr rfl | with_reducible exact Or.inl (by assumption) | with_reducible apply State.lateDiscard_keeps | with_reducible apply State.ioMsi_keeps)
  | with_reducible apply State.lateDiscard_keeps
  | with_reducible apply State.ioMsi_keeps
  | with_reducible refine Keeps.ite ?_ ?_
  | with_reducible refine OptKeeps.get (by with_reducible assumption) ?_
  | with_reducible refine Keeps.elim ?_ ?_
  | with_reducible refine Keeps.foldl_fst ?_ _ _ ?_
  | with_reducible refine Keeps.foldl ?_ _ _ ?_
  | split
  | (with_reducible intro y)
  | (lift_lets; with_reducible intro y)
  | simp only [id]
  | dsimp only

theorem State.freeBytes_keeps {F : List Kind} {r s : State} (kfree : Kind.free ∈ F) (h : Keeps F r s) (n : Nat) :
    Keeps F r (State.freeBytes s n).1 := by
  unfold State.freeBytes
  try lift_lets
  repeat' first
  | with_reducible assumption
  | with_reducible apply State.useFree_keeps

theorem State.qUpdate_keeps {F : List Kind} {r s : State} (kregs : Kind.regs ∈ F) (h : Keeps F r s) (q : Nat) :
    Keeps F r (State.qUpdate s q) := by
  unfold State.qUpdate
  try lift_lets
  repeat' first
  | with_reducible assumption
  | (refine Or.inr ?_; (repeat with_reducible apply Nat.le_add_right_of_le); first | decide | omega)
  | with_reducible apply State.put_keeps

theorem State.qSettle_keeps {F : List Kind} {r s : State} (kregs : Kind.regs ∈ F) (kqueues : Kind.queues ∈ F) (h : Keeps F r s) (q : Nat) :
    Keeps F r (State.qSettle s q) := by
  unfold State.qSettle
  try lift_lets
  repeat' first
  | with_reducible assumption
  | (refine Or.inr ?_; (repeat with_reducible apply Nat.le_add_right_of_le); first | decide | omega)
  | with_reducible apply State.setSpillQ_keeps
  | with_reducible apply State.when_keeps
  | with_reducible apply State.put_keeps
  | (intro y)

theorem State.qFeed_keeps {F : List Kind} {r s : State} (kregs : Kind.regs ∈ F) (kfree : Kind.free ∈ F) (kqueues : Kind.queues ∈ F) (h : Keeps F r s) (q : Nat) (a2 : Nat) :
    Keeps F r (State.qFeed s q a2) := by
  induction a2 generalizing s q
  case zero =>
    unfold State.qFeed
    try lift_lets
    repeat' first
    | with_reducible assumption
    | exact Or.inl (by with_reducible assumption)
    | (intro x; clear_value x)
    | with_reducible apply State.freeBytes_keeps
    | with_reducible apply State.setSpillQ_keeps
    | with_reducible apply State.put_keeps
    | with_reducible apply State.qSettle_keeps
    | split
    | dsimp only
  case succ k ih =>
    unfold State.qFeed
    try lift_lets
    repeat' first
    | with_reducible assumption
    | (refine Or.inr ?_; (repeat with_reducible apply Nat.le_add_right_of_le); first | decide | omega)
    | with_reducible apply State.freeBytes_keeps
    | with_reducible apply State.setSpillQ_keeps
    | with_reducible apply State.put_keeps
    | with_reducible apply State.qSettle_keeps
    | with_reducible apply ih
    | split
    | dsimp only

theorem State.qRun_keeps {F : List Kind} {r s : State} (kregs : Kind.regs ∈ F) (kfree : Kind.free ∈ F) (kqueues : Kind.queues ∈ F) (h : Keeps F r s) (q : Nat) :
    Keeps F r (State.qRun s q) := by
  unfold State.qRun
  try lift_lets
  repeat' first
  | with_reducible assumption
  | with_reducible apply State.qUpdate_keeps
  | with_reducible apply State.qFeed_keeps
  | with_reducible apply State.qSettle_keeps

theorem State.spillError_keeps {F : List Kind} {r s : State} (kregs : Kind.regs ∈ F) (kfree : Kind.free ∈ F) (knewtIrq : Kind.newtIrq ∈ F) (kfieldOps : Kind.fieldOps ∈ F) (kpaused : Kind.paused ∈ F) (kqueues : Kind.queues ∈ F) (kcaps : Kind.caps ∈ F) (kcapBusy : Kind.capBusy ∈ F) (h : Keeps F r s) (q : Nat) (a : Nat) :
    Keeps F r (State.spillError s q a) := by
  unfold State.spillError
  try lift_lets
  repeat' first
  | with_reducible assumption
  | (refine Or.inr ?_; (repeat with_reducible apply Nat.le_add_right_of_le); first | decide | omega)
  | with_reducible apply State.setSpillQ_keeps
  | with_reducible apply State.put_keeps
  | with_reducible apply State.qRun_keeps
  | with_reducible apply State.qeEvent_keeps
  | with_reducible apply State.logRec_keeps

theorem State.spill_keeps {F : List Kind} {r s : State} (kregs : Kind.regs ∈ F) (kmem : Kind.mem ∈ F) (kfree : Kind.free ∈ F) (knewtIrq : Kind.newtIrq ∈ F) (kfieldOps : Kind.fieldOps ∈ F) (kpaused : Kind.paused ∈ F) (kecc : Kind.ecc ∈ F) (kmc : Kind.mc ∈ F) (kpoison : Kind.poison ∈ F) (kcache : Kind.cache ∈ F) (khomes : Kind.homes ∈ F) (ksf : Kind.sf ∈ F) (ksfPlru : Kind.sfPlru ∈ F) (kiotlb : Kind.iotlb ∈ F) (kqueues : Kind.queues ∈ F) (kcaps : Kind.caps ∈ F) (kcapBusy : Kind.capBusy ∈ F) (h : Keeps F r s) (q : Nat) :
    Keeps F r (State.spill s q) := by
  unfold State.spill
  try lift_lets
  repeat' first
  | with_reducible assumption
  | (refine Or.inr ?_; (repeat with_reducible apply Nat.le_add_right_of_le); first | decide | omega)
  | with_reducible apply State.ioWrite_keeps
  | with_reducible apply State.spillError_keeps
  | with_reducible apply State.setSpillQ_keeps
  | with_reducible apply State.qRun_keeps
  | with_reducible apply State.put_keeps
  | with_reducible refine Keeps.ite ?_ ?_

theorem execSpillWrite_keeps {F : List Kind} {r s : State} (kregs : Kind.regs ∈ F) (kmem : Kind.mem ∈ F) (kresp : Kind.resp ∈ F) (kout : Kind.out ∈ F) (kfree : Kind.free ∈ F) (knewtIrq : Kind.newtIrq ∈ F) (kfieldOps : Kind.fieldOps ∈ F) (kfiles : Kind.files ∈ F) (kaplic : Kind.aplic ∈ F) (kpaused : Kind.paused ∈ F) (kcsq : Kind.csq ∈ F) (kecc : Kind.ecc ∈ F) (kmc : Kind.mc ∈ F) (kpoison : Kind.poison ∈ F) (kcache : Kind.cache ∈ F) (khomes : Kind.homes ∈ F) (ksf : Kind.sf ∈ F) (ksfPlru : Kind.sfPlru ∈ F) (kfaultN : Kind.faultN ∈ F) (ktxIdle : Kind.txIdle ∈ F) (kiotlb : Kind.iotlb ∈ F) (kqueues : Kind.queues ∈ F) (kcaps : Kind.caps ∈ F) (kcapBusy : Kind.capBusy ∈ F) (h : Keeps F r s) (q : Fin 4096) :
    ResKeeps F r (execSpillWrite q s) := by
  unfold execSpillWrite
  try lift_lets
  repeat' first
  | with_reducible assumption
  | exact Or.inl (by with_reducible assumption)
  | (refine Or.inr ?_; (repeat with_reducible apply Nat.le_add_right_of_le); first | decide | omega)
  | with_reducible rfl
  | with_reducible apply State.devCmd_keeps
  | with_reducible apply State.spill_keeps
  | with_reducible apply ResKeeps.next
  | with_reducible refine ResKeeps.ite ?_ ?_
  | with_reducible refine Keeps.ite ?_ ?_
  | with_reducible refine OptKeeps.get (by with_reducible assumption) ?_
  | with_reducible refine Keeps.elim ?_ ?_
  | with_reducible refine Keeps.foldl_fst ?_ _ _ ?_
  | with_reducible refine Keeps.foldl ?_ _ _ ?_
  | split
  | (with_reducible intro y)
  | (lift_lets; with_reducible intro y)
  | simp only [id]
  | dsimp only

theorem execMiddleRead_keeps {F : List Kind} {r s : State} (kqueues : Kind.queues ∈ F) (h : Keeps F r s) (q : Fin 4096) :
    ResKeeps F r (execMiddleRead q s) := by
  unfold execMiddleRead
  try lift_lets
  repeat' first
  | with_reducible assumption
  | with_reducible apply State.setSpillQ_keeps
  | with_reducible apply ResKeeps.next
  | with_reducible refine Keeps.ite ?_ ?_

theorem State.middleEntry_keeps {F : List Kind} {r s : State} (kregs : Kind.regs ∈ F) (kmem : Kind.mem ∈ F) (knewtIrq : Kind.newtIrq ∈ F) (kfieldOps : Kind.fieldOps ∈ F) (kpaused : Kind.paused ∈ F) (kecc : Kind.ecc ∈ F) (kmc : Kind.mc ∈ F) (kpoison : Kind.poison ∈ F) (kcache : Kind.cache ∈ F) (khomes : Kind.homes ∈ F) (ksfPlru : Kind.sfPlru ∈ F) (kiotlb : Kind.iotlb ∈ F) (kcaps : Kind.caps ∈ F) (kcapBusy : Kind.capBusy ∈ F) (h : Keeps F r s) (q : Nat) (k : Nat) :
    Keeps F r (State.middleEntry s q k).1 := by
  unfold State.middleEntry
  try lift_lets
  repeat' first
  | with_reducible assumption
  | (intro x; refine Keeps.cut (F := F) (r := r) (s := x.1) ?_ (fun hx => ?_); on_goal 2 => clear_value x)
  | (intro x; clear_value x)
  | with_reducible apply State.ioRead_keeps
  | split

theorem State.refill_keeps {F : List Kind} {r s : State} (kregs : Kind.regs ∈ F) (kmem : Kind.mem ∈ F) (kfree : Kind.free ∈ F) (knewtIrq : Kind.newtIrq ∈ F) (kfieldOps : Kind.fieldOps ∈ F) (kpaused : Kind.paused ∈ F) (kecc : Kind.ecc ∈ F) (kmc : Kind.mc ∈ F) (kpoison : Kind.poison ∈ F) (kcache : Kind.cache ∈ F) (khomes : Kind.homes ∈ F) (ksfPlru : Kind.sfPlru ∈ F) (kiotlb : Kind.iotlb ∈ F) (kqueues : Kind.queues ∈ F) (kcaps : Kind.caps ∈ F) (kcapBusy : Kind.capBusy ∈ F) (h : Keeps F r s) (q : Nat) (a2 : Nat) :
    Keeps F r (State.refill s q a2) := by
  induction a2 generalizing s q
  case zero =>
    unfold State.refill
    try lift_lets
    repeat' first
    | with_reducible assumption
    | (intro x; refine Keeps.cut (F := F) (r := r) (s := x) ?_ (fun hx => ?_); on_goal 2 => clear_value x)
    | (intro x; refine Keeps.cut (F := F) (r := r) (s := x.1) ?_ (fun hx => ?_); on_goal 2 => clear_value x)
    | (intro x; clear_value x)
    | with_reducible apply State.middleEntry_keeps
    | with_reducible apply State.spillError_keeps
    | with_reducible apply State.setSpillQ_keeps
    | split
  case succ k ih =>
    unfold State.refill
    try lift_lets
    repeat' first
    | with_reducible assumption
    | (intro x; refine Keeps.cut (F := F) (r := r) (s := x.1) ?_ (fun hx => ?_); on_goal 2 => clear_value x)
    | (intro x; clear_value x)
    | with_reducible apply State.middleEntry_keeps
    | with_reducible apply State.spillError_keeps
    | with_reducible apply State.setSpillQ_keeps
    | with_reducible apply ih
    | split

theorem State.middleReturn_keeps {F : List Kind} {r s : State} (kregs : Kind.regs ∈ F) (kmem : Kind.mem ∈ F) (kfree : Kind.free ∈ F) (knewtIrq : Kind.newtIrq ∈ F) (kfieldOps : Kind.fieldOps ∈ F) (kpaused : Kind.paused ∈ F) (kecc : Kind.ecc ∈ F) (kmc : Kind.mc ∈ F) (kpoison : Kind.poison ∈ F) (kcache : Kind.cache ∈ F) (khomes : Kind.homes ∈ F) (ksfPlru : Kind.sfPlru ∈ F) (kiotlb : Kind.iotlb ∈ F) (kqueues : Kind.queues ∈ F) (kcaps : Kind.caps ∈ F) (kcapBusy : Kind.capBusy ∈ F) (h : Keeps F r s) (q : Nat) :
    Keeps F r (State.middleReturn s q) := by
  unfold State.middleReturn
  try lift_lets
  repeat' first
  | with_reducible assumption
  | with_reducible apply State.qRun_keeps
  | with_reducible apply State.refill_keeps
  | with_reducible apply State.setSpillQ_keeps

theorem execMiddleReadReturn_keeps {F : List Kind} {r s : State} (kregs : Kind.regs ∈ F) (kmem : Kind.mem ∈ F) (kresp : Kind.resp ∈ F) (kout : Kind.out ∈ F) (kfree : Kind.free ∈ F) (knewtIrq : Kind.newtIrq ∈ F) (kfieldOps : Kind.fieldOps ∈ F) (kfiles : Kind.files ∈ F) (kaplic : Kind.aplic ∈ F) (kpaused : Kind.paused ∈ F) (kcsq : Kind.csq ∈ F) (kecc : Kind.ecc ∈ F) (kmc : Kind.mc ∈ F) (kpoison : Kind.poison ∈ F) (kcache : Kind.cache ∈ F) (khomes : Kind.homes ∈ F) (ksf : Kind.sf ∈ F) (ksfPlru : Kind.sfPlru ∈ F) (kfaultN : Kind.faultN ∈ F) (ktxIdle : Kind.txIdle ∈ F) (kiotlb : Kind.iotlb ∈ F) (kqueues : Kind.queues ∈ F) (kcaps : Kind.caps ∈ F) (kcapBusy : Kind.capBusy ∈ F) (h : Keeps F r s) (q : Fin 4096) :
    ResKeeps F r (execMiddleReadReturn q s) := by
  unfold execMiddleReadReturn
  try lift_lets
  repeat' first
  | with_reducible assumption
  | exact Or.inl (by with_reducible assumption)
  | (refine Or.inr ?_; (repeat with_reducible apply Nat.le_add_right_of_le); first | decide | omega)
  | with_reducible rfl
  | with_reducible apply State.devCmd_keeps
  | with_reducible apply State.middleReturn_keeps
  | with_reducible apply ResKeeps.next
  | with_reducible refine ResKeeps.ite ?_ ?_
  | with_reducible refine Keeps.ite ?_ ?_
  | with_reducible refine OptKeeps.get (by with_reducible assumption) ?_
  | with_reducible refine Keeps.elim ?_ ?_
  | with_reducible refine Keeps.foldl_fst ?_ _ _ ?_
  | with_reducible refine Keeps.foldl ?_ _ _ ?_
  | split
  | (with_reducible intro y)
  | (lift_lets; with_reducible intro y)
  | simp only [id]
  | dsimp only

theorem State.qRefuse_keeps {F : List Kind} {r s : State} (kregs : Kind.regs ∈ F) (kresp : Kind.resp ∈ F) (knewtIrq : Kind.newtIrq ∈ F) (kfieldOps : Kind.fieldOps ∈ F) (kfiles : Kind.files ∈ F) (kaplic : Kind.aplic ∈ F) (kpaused : Kind.paused ∈ F) (kcaps : Kind.caps ∈ F) (kcapBusy : Kind.capBusy ∈ F) (h : Keeps F r s) (q : Nat) :
    Keeps F r (State.qRefuse s q) := by
  unfold State.qRefuse
  try lift_lets
  repeat' first
  | with_reducible assumption
  | exact Or.inl (by with_reducible assumption)
  | (refine Or.inr ?_; (repeat with_reducible apply Nat.le_add_right_of_le); first | decide | omega)
  | with_reducible rfl
  | with_reducible apply State.raise_keeps
  | with_reducible apply State.inc_keeps
  | with_reducible apply State.qeEvent_keeps
  | with_reducible apply State.pmc_keeps
  | with_reducible refine Keeps.ite ?_ ?_
  | with_reducible refine OptKeeps.get (by with_reducible assumption) ?_
  | with_reducible refine Keeps.elim ?_ ?_
  | with_reducible refine Keeps.foldl_fst ?_ _ _ ?_
  | with_reducible refine Keeps.foldl ?_ _ _ ?_
  | split
  | (with_reducible intro y)
  | (lift_lets; with_reducible intro y)
  | simp only [id]
  | dsimp only

theorem State.qArrive_keeps {F : List Kind} {r s : State} (kregs : Kind.regs ∈ F) (kresp : Kind.resp ∈ F) (kfree : Kind.free ∈ F) (knewtIrq : Kind.newtIrq ∈ F) (kfieldOps : Kind.fieldOps ∈ F) (kfiles : Kind.files ∈ F) (kaplic : Kind.aplic ∈ F) (kpaused : Kind.paused ∈ F) (kqueues : Kind.queues ∈ F) (kcaps : Kind.caps ∈ F) (kcapBusy : Kind.capBusy ∈ F) (h : Keeps F r s) (q : Nat) (src : Nat) (total : Nat) (data : Bytes) :
    Keeps F r (State.qArrive s q src total data).1 := by
  unfold State.qArrive
  try lift_lets
  repeat' first
  | with_reducible assumption
  | (intro x; refine Keeps.cut (F := F) (r := r) (s := x) ?_ (fun hx => ?_); on_goal 2 => clear_value x)
  | (intro x; clear_value x)
  | with_reducible apply State.qRun_keeps
  | with_reducible apply State.setSpillQ_keeps
  | with_reducible apply State.qRefuse_keeps
  | split

theorem execQueueAdmit_keeps {F : List Kind} {r s : State} (kregs : Kind.regs ∈ F) (kresp : Kind.resp ∈ F) (kfree : Kind.free ∈ F) (knewtIrq : Kind.newtIrq ∈ F) (kfieldOps : Kind.fieldOps ∈ F) (kfiles : Kind.files ∈ F) (kaplic : Kind.aplic ∈ F) (kpaused : Kind.paused ∈ F) (kqueues : Kind.queues ∈ F) (kcaps : Kind.caps ∈ F) (kcapBusy : Kind.capBusy ∈ F) (h : Keeps F r s) (q : Fin 4096) (p : Arriving) :
    ResKeeps F r (execQueueAdmit q p s) := by
  unfold execQueueAdmit
  try lift_lets
  repeat' first
  | with_reducible assumption
  | with_reducible apply State.qArrive_keeps
  | with_reducible apply ResKeeps.next
  | with_reducible refine ResKeeps.ite ?_ ?_

theorem State.qDiscard_keeps {F : List Kind} {r s : State} (kregs : Kind.regs ∈ F) (kqueues : Kind.queues ∈ F) (h : Keeps F r s) (q : Nat) :
    Keeps F r (State.qDiscard s q) := by
  unfold State.qDiscard
  try lift_lets
  repeat' first
  | with_reducible assumption
  | (refine Or.inr ?_; (repeat with_reducible apply Nat.le_add_right_of_le); first | decide | omega)
  | with_reducible apply State.setSpillQ_keeps
  | with_reducible apply State.put_keeps
  | with_reducible apply State.qUpdate_keeps

theorem execQueueDiscardApply_keeps {F : List Kind} {r s : State} (kregs : Kind.regs ∈ F) (kqueues : Kind.queues ∈ F) (h : Keeps F r s) (q : Fin 4096) :
    ResKeeps F r (execQueueDiscardApply q s) := by
  unfold execQueueDiscardApply
  try lift_lets
  repeat' first
  | with_reducible assumption
  | with_reducible apply State.qDiscard_keeps
  | with_reducible apply ResKeeps.next
  | with_reducible refine ResKeeps.ite ?_ ?_

theorem State.qOff_keeps {F : List Kind} {r s : State} (kregs : Kind.regs ∈ F) (kqueues : Kind.queues ∈ F) (h : Keeps F r s) (q : Nat) :
    Keeps F r (State.qOff s q) := by
  unfold State.qOff
  try lift_lets
  repeat' first
  | with_reducible assumption
  | (refine Or.inr ?_; (repeat with_reducible apply Nat.le_add_right_of_le); first | decide | omega)
  | with_reducible apply State.qDiscard_keeps
  | with_reducible apply State.put_keeps

theorem State.writeQCfg_keeps {F : List Kind} {r s : State} (kregs : Kind.regs ∈ F) (kresp : Kind.resp ∈ F) (knewtIrq : Kind.newtIrq ∈ F) (kfieldOps : Kind.fieldOps ∈ F) (kpaused : Kind.paused ∈ F) (kqueues : Kind.queues ∈ F) (kcaps : Kind.caps ∈ F) (kcapBusy : Kind.capBusy ∈ F) (h : Keeps F r s) (q : Nat) (c : Issuer) (v : Nat) :
    Keeps F r (State.writeQCfg s q c v) := by
  unfold State.writeQCfg
  try lift_lets
  repeat' first
  | with_reducible assumption
  | (refine Or.inr ?_; (repeat with_reducible apply Nat.le_add_right_of_le); first | decide | omega)
  | with_reducible apply State.reservedEnc_keeps
  | with_reducible apply State.forbidden_keeps
  | with_reducible apply State.put_keeps
  | with_reducible apply State.when_keeps
  | with_reducible apply State.setSpillQ_keeps
  | with_reducible apply State.qUpdate_keeps
  | with_reducible refine Keeps.ite ?_ ?_
  | (intro y)

theorem State.qGuard_keeps {F : List Kind} {r s : State} (kregs : Kind.regs ∈ F) (kresp : Kind.resp ∈ F) (knewtIrq : Kind.newtIrq ∈ F) (kfieldOps : Kind.fieldOps ∈ F) (kpaused : Kind.paused ∈ F) (kcaps : Kind.caps ∈ F) (kcapBusy : Kind.capBusy ∈ F) (h : Keeps F r s) (q : Nat) (c : Issuer) (key : Nat) (f : State → State) (hf : ∀ x, Keeps F r x → Keeps F r (f x)) :
    Keeps F r (State.qGuard s q c key f) := by
  unfold State.qGuard
  try lift_lets
  repeat' first
  | with_reducible assumption
  | with_reducible apply hf
  | with_reducible apply State.worldError_keeps
  | with_reducible apply State.viError_keeps
  | with_reducible apply State.answer_keeps
  | with_reducible refine Keeps.ite ?_ ?_

theorem State.qeGuard_keeps {F : List Kind} {r s : State} (kregs : Kind.regs ∈ F) (kresp : Kind.resp ∈ F) (knewtIrq : Kind.newtIrq ∈ F) (kfieldOps : Kind.fieldOps ∈ F) (kpaused : Kind.paused ∈ F) (kcaps : Kind.caps ∈ F) (kcapBusy : Kind.capBusy ∈ F) (h : Keeps F r s) (e : Nat) (c : Issuer) (key : Nat) (f : State → State) (hf : ∀ x, Keeps F r x → Keeps F r (f x)) :
    Keeps F r (State.qeGuard s e c key f) := by
  unfold State.qeGuard
  try lift_lets
  repeat' first
  | with_reducible assumption
  | with_reducible apply hf
  | with_reducible apply State.worldError_keeps
  | with_reducible apply State.viError_keeps
  | with_reducible apply State.answer_keeps
  | with_reducible refine Keeps.ite ?_ ?_

theorem execQueueEnable_keeps {F : List Kind} {r s : State} (kregs : Kind.regs ∈ F) (kresp : Kind.resp ∈ F) (knewtIrq : Kind.newtIrq ∈ F) (kfieldOps : Kind.fieldOps ∈ F) (kpaused : Kind.paused ∈ F) (kqueues : Kind.queues ∈ F) (kcaps : Kind.caps ∈ F) (kcapBusy : Kind.capBusy ∈ F) (h : Keeps F r s) (c : Issuer) (q : Fin 4096) (v : Word) :
    ResKeeps F r (execQueueEnable c q v s) := by
  unfold execQueueEnable
  try lift_lets
  repeat' first
  | with_reducible assumption
  | exact Or.inl (by with_reducible assumption)
  | (refine Or.inr ?_; (repeat with_reducible apply Nat.le_add_right_of_le); first | decide | omega)
  | with_reducible rfl
  | with_reducible apply State.issue_keeps
  | with_reducible apply State.qGuard_keeps
  | with_reducible apply State.writeQCfg_keeps
  | with_reducible apply ResKeeps.next
  | with_reducible refine ResKeeps.ite ?_ ?_
  | with_reducible refine Keeps.ite ?_ ?_
  | with_reducible refine OptKeeps.get (by with_reducible assumption) ?_
  | with_reducible refine Keeps.elim ?_ ?_
  | with_reducible refine Keeps.foldl_fst ?_ _ _ ?_
  | with_reducible refine Keeps.foldl ?_ _ _ ?_
  | split
  | (with_reducible intro x; refine Keeps.cut (F := F) (r := r) (s := x) ?_ (fun hx => ?_); on_goal 2 => clear_value x)
  | (with_reducible intro x; refine Keeps.cut (F := F) (r := r) (s := x.1) ?_ (fun hx => ?_); on_goal 2 => clear_value x)
  | (with_reducible intro y)
  | (lift_lets; with_reducible intro x; refine Keeps.cut (F := F) (r := r) (s := x) ?_ (fun hx => ?_); on_goal 2 => clear_value x)
  | (lift_lets; with_reducible intro x; refine Keeps.cut (F := F) (r := r) (s := x.1) ?_ (fun hx => ?_); on_goal 2 => clear_value x)
  | (lift_lets; with_reducible intro y)
  | simp only [id]
  | dsimp only

theorem execQueueDisable_keeps {F : List Kind} {r s : State} (kregs : Kind.regs ∈ F) (kresp : Kind.resp ∈ F) (knewtIrq : Kind.newtIrq ∈ F) (kfieldOps : Kind.fieldOps ∈ F) (kpaused : Kind.paused ∈ F) (kqueues : Kind.queues ∈ F) (kcaps : Kind.caps ∈ F) (kcapBusy : Kind.capBusy ∈ F) (h : Keeps F r s) (c : Issuer) (q : Fin 4096) (v : Word) :
    ResKeeps F r (execQueueDisable c q v s) := by
  unfold execQueueDisable
  try lift_lets
  repeat' first
  | with_reducible assumption
  | exact Or.inl (by with_reducible assumption)
  | (refine Or.inr ?_; (repeat with_reducible apply Nat.le_add_right_of_le); first | decide | omega)
  | with_reducible rfl
  | with_reducible apply State.issue_keeps
  | with_reducible apply State.qGuard_keeps
  | with_reducible apply State.writeQCfg_keeps
  | with_reducible apply ResKeeps.next
  | with_reducible refine ResKeeps.ite ?_ ?_
  | with_reducible refine Keeps.ite ?_ ?_
  | with_reducible refine OptKeeps.get (by with_reducible assumption) ?_
  | with_reducible refine Keeps.elim ?_ ?_
  | with_reducible refine Keeps.foldl_fst ?_ _ _ ?_
  | with_reducible refine Keeps.foldl ?_ _ _ ?_
  | split
  | (with_reducible intro x; refine Keeps.cut (F := F) (r := r) (s := x) ?_ (fun hx => ?_); on_goal 2 => clear_value x)
  | (with_reducible intro x; refine Keeps.cut (F := F) (r := r) (s := x.1) ?_ (fun hx => ?_); on_goal 2 => clear_value x)
  | (with_reducible intro y)
  | (lift_lets; with_reducible intro x; refine Keeps.cut (F := F) (r := r) (s := x) ?_ (fun hx => ?_); on_goal 2 => clear_value x)
  | (lift_lets; with_reducible intro x; refine Keeps.cut (F := F) (r := r) (s := x.1) ?_ (fun hx => ?_); on_goal 2 => clear_value x)
  | (lift_lets; with_reducible intro y)
  | simp only [id]
  | dsimp only

theorem execQueueFlush_keeps {F : List Kind} {r s : State} (kregs : Kind.regs ∈ F) (kresp : Kind.resp ∈ F) (knewtIrq : Kind.newtIrq ∈ F) (kfieldOps : Kind.fieldOps ∈ F) (kpaused : Kind.paused ∈ F) (kqueues : Kind.queues ∈ F) (kcaps : Kind.caps ∈ F) (kcapBusy : Kind.capBusy ∈ F) (h : Keeps F r s) (c : Issuer) (q : Fin 4096) (v : Word) :
    ResKeeps F r (execQueueFlush c q v s) := by
  unfold execQueueFlush
  try lift_lets
  repeat' first
  | with_reducible assumption
  | exact Or.inl (by with_reducible assumption)
  | (refine Or.inr ?_; (repeat with_reducible apply Nat.le_add_right_of_le); first | decide | omega)
  | with_reducible rfl
  | with_reducible apply State.issue_keeps
  | with_reducible apply State.qGuard_keeps
  | with_reducible apply State.writeQCfg_keeps
  | with_reducible apply ResKeeps.next
  | with_reducible refine ResKeeps.ite ?_ ?_
  | with_reducible refine Keeps.ite ?_ ?_
  | with_reducible refine OptKeeps.get (by with_reducible assumption) ?_
  | with_reducible refine Keeps.elim ?_ ?_
  | with_reducible refine Keeps.foldl_fst ?_ _ _ ?_
  | with_reducible refine Keeps.foldl ?_ _ _ ?_
  | split
  | (with_reducible intro x; refine Keeps.cut (F := F) (r := r) (s := x) ?_ (fun hx => ?_); on_goal 2 => clear_value x)
  | (with_reducible intro x; refine Keeps.cut (F := F) (r := r) (s := x.1) ?_ (fun hx => ?_); on_goal 2 => clear_value x)
  | (with_reducible intro y)
  | (lift_lets; with_reducible intro x; refine Keeps.cut (F := F) (r := r) (s := x) ?_ (fun hx => ?_); on_goal 2 => clear_value x)
  | (lift_lets; with_reducible intro x; refine Keeps.cut (F := F) (r := r) (s := x.1) ?_ (fun hx => ?_); on_goal 2 => clear_value x)
  | (lift_lets; with_reducible intro y)
  | simp only [id]
  | dsimp only

theorem State.qeLogItem_keeps {F : List Kind} {r s : State} (kregs : Kind.regs ∈ F) (knewtIrq : Kind.newtIrq ∈ F) (kfieldOps : Kind.fieldOps ∈ F) (kpaused : Kind.paused ∈ F) (kcaps : Kind.caps ∈ F) (kcapBusy : Kind.capBusy ∈ F) (h : Keeps F r s) (e : Nat) (a2 : QCmd) :
    Keeps F r (State.qeLogItem s e a2) := by
  unfold State.qeLogItem
  try lift_lets
  repeat' first
  | with_reducible assumption
  | with_reducible apply State.logRec_keeps
  | with_reducible refine Keeps.ite ?_ ?_

theorem State.qeCounts_keeps {F : List Kind} {r s : State} (kregs : Kind.regs ∈ F) (h : Keeps F r s) (e : Nat) :
    Keeps F r (State.qeCounts s e) := by
  unfold State.qeCounts
  try lift_lets
  repeat' first
  | with_reducible assumption
  | exact Or.inl (by with_reducible assumption)
  | (refine Or.inr ?_; (repeat with_reducible apply Nat.le_add_right_of_le); first | decide | omega)
  | with_reducible rfl
  | with_reducible apply State.put_keeps
  | with_reducible refine Keeps.ite ?_ ?_
  | with_reducible refine OptKeeps.get (by with_reducible assumption) ?_
  | with_reducible refine Keeps.elim ?_ ?_
  | with_reducible refine Keeps.foldl_fst ?_ _ _ ?_
  | with_reducible refine Keeps.foldl ?_ _ _ ?_
  | split
  | (with_reducible intro x; refine Keeps.cut (F := F) (r := r) (s := x) ?_ (fun hx => ?_); on_goal 2 => clear_value x)
  | (with_reducible intro x; refine Keeps.cut (F := F) (r := r) (s := x.1) ?_ (fun hx => ?_); on_goal 2 => clear_value x)
  | (with_reducible intro y)
  | (lift_lets; with_reducible intro x; refine Keeps.cut (F := F) (r := r) (s := x) ?_ (fun hx => ?_); on_goal 2 => clear_value x)
  | (lift_lets; with_reducible intro x; refine Keeps.cut (F := F) (r := r) (s := x.1) ?_ (fun hx => ?_); on_goal 2 => clear_value x)
  | (lift_lets; with_reducible intro y)
  | simp only [id]
  | dsimp only

theorem State.setQCmd_keeps {F : List Kind} {r s : State} (kqe : Kind.qe ∈ F) (h : Keeps F r s) (e : Nat) (a2 : QCmd) :
    Keeps F r (State.setQCmd s e a2) := by
  unfold State.setQCmd
  try lift_lets
  repeat' first
  | with_reducible assumption
  | with_reducible apply State.setQe_keeps

theorem State.qePayload_keeps {F : List Kind} {r s : State} (kregs : Kind.regs ∈ F) (kresp : Kind.resp ∈ F) (knewtIrq : Kind.newtIrq ∈ F) (kfieldOps : Kind.fieldOps ∈ F) (kfiles : Kind.files ∈ F) (kaplic : Kind.aplic ∈ F) (kpaused : Kind.paused ∈ F) (kqe : Kind.qe ∈ F) (kviBytes : Kind.viBytes ∈ F) (kcaps : Kind.caps ∈ F) (kcapBusy : Kind.capBusy ∈ F) (h : Keeps F r s) (e : Nat) (c : Issuer) (n : Nat) :
    Keeps F r (State.qePayload s e c n) := by
  unfold State.qePayload
  try lift_lets
  repeat' first
  | with_reducible assumption
  | (refine Or.inr ?_; (repeat with_reducible apply Nat.le_add_right_of_le); first | decide | omega)
  | (with_reducible refine Keeps.upd ?_ rfl rfl rfl rfl rfl rfl rfl rfl ?_ ?_ ?_ ?_ ?_ ?_ ?_ ?_ ?_ ?_ ?_ ?_ ?_ ?_ ?_ ?_ ?_ ?_ ?_ ?_ ?_ ?_ ?_ ?_ ?_ ?_ ?_ ?_ ?_ ?_ ?_ ?_ ?_ ?_ ?_ ?_ ?_ ?_ ?_ ?_ ?_ ?_ ?_ ?_ ?_ ?_ ?_ ?_ ?_ ?_ ?_ ?_ ?_ ?_ ?_ ?_ ?_ ?_ ?_ ?_ ?_ ?_ ?_ <;> first | with_reducible assumption | with_reducible exact Or.inr rfl | with_reducible exact Or.inl (by assumption) | with_reducible apply State.addSat_keeps | with_reducible apply State.setQe_keeps | with_reducible apply State.pmc_keeps)
  | split

theorem State.copyOut_keeps {F : List Kind} {r s : State} (kregs : Kind.regs ∈ F) (kmem : Kind.mem ∈ F) (kresp : Kind.resp ∈ F) (kout : Kind.out ∈ F) (knewtIrq : Kind.newtIrq ∈ F) (kfieldOps : Kind.fieldOps ∈ F) (kfiles : Kind.files ∈ F) (kaplic : Kind.aplic ∈ F) (kpaused : Kind.paused ∈ F) (klaunches : Kind.launches ∈ F) (kecc : Kind.ecc ∈ F) (kmc : Kind.mc ∈ F) (kpoison : Kind.poison ∈ F) (kcache : Kind.cache ∈ F) (khomes : Kind.homes ∈ F) (ksf : Kind.sf ∈ F) (ksfPlru : Kind.sfPlru ∈ F) (kiotlb : Kind.iotlb ∈ F) (kqe : Kind.qe ∈ F) (kviBytes : Kind.viBytes ∈ F) (kfab : Kind.fab ∈ F) (kcaps : Kind.caps ∈ F) (kcapBusy : Kind.capBusy ∈ F) (h : Keeps F r s) (e : Nat) (x : QCmd) (data : Bytes) (poisoned : Bool) :
    Keeps F r (State.copyOut s e x data poisoned).1 := by
  unfold State.copyOut
  try lift_lets
  repeat' first
  | with_reducible assumption
  | exact Or.inl (by with_reducible assumption)
  | (refine Or.inr ?_; (repeat with_reducible apply Nat.le_add_right_of_le); first | decide | omega)
  | with_reducible rfl
  | with_reducible apply State.fabRequest_keeps
  | with_reducible apply State.fabPosted_keeps
  | with_reducible apply State.qePayload_keeps
  | with_reducible apply State.store_keeps
  | with_reducible refine Keeps.ite ?_ ?_
  | with_reducible refine OptKeeps.get (by with_reducible assumption) ?_
  | with_reducible refine Keeps.elim ?_ ?_
  | with_reducible refine Keeps.foldl_fst ?_ _ _ ?_
  | with_reducible refine Keeps.foldl ?_ _ _ ?_
  | split
  | (with_reducible intro x; refine Keeps.cut (F := F) (r := r) (s := x) ?_ (fun hx => ?_); on_goal 2 => clear_value x)
  | (with_reducible intro x; refine Keeps.cut (F := F) (r := r) (s := x.1) ?_ (fun hx => ?_); on_goal 2 => clear_value x)
  | (with_reducible intro y)
  | (lift_lets; with_reducible intro x; refine Keeps.cut (F := F) (r := r) (s := x) ?_ (fun hx => ?_); on_goal 2 => clear_value x)
  | (lift_lets; with_reducible intro x; refine Keeps.cut (F := F) (r := r) (s := x.1) ?_ (fun hx => ?_); on_goal 2 => clear_value x)
  | (lift_lets; with_reducible intro y)
  | simp only [id]
  | dsimp only

theorem State.copyRun_keeps {F : List Kind} {r s : State} (kregs : Kind.regs ∈ F) (kmem : Kind.mem ∈ F) (kresp : Kind.resp ∈ F) (kout : Kind.out ∈ F) (kfree : Kind.free ∈ F) (knewtIrq : Kind.newtIrq ∈ F) (kfieldOps : Kind.fieldOps ∈ F) (kfiles : Kind.files ∈ F) (kaplic : Kind.aplic ∈ F) (kpaused : Kind.paused ∈ F) (klaunches : Kind.launches ∈ F) (kecc : Kind.ecc ∈ F) (kmc : Kind.mc ∈ F) (kpoison : Kind.poison ∈ F) (kcache : Kind.cache ∈ F) (khomes : Kind.homes ∈ F) (ksf : Kind.sf ∈ F) (ksfPlru : Kind.sfPlru ∈ F) (kiotlb : Kind.iotlb ∈ F) (kqe : Kind.qe ∈ F) (kviBytes : Kind.viBytes ∈ F) (kfab : Kind.fab ∈ F) (kcaps : Kind.caps ∈ F) (kcapBusy : Kind.capBusy ∈ F) (h : Keeps F r s) (e : Nat) (a2 : QCmd) (a3 : Nat) :
    Keeps F r (State.copyRun s e a2 a3).1 := by
  induction a3 generalizing s e a2
  case zero =>
    unfold State.copyRun
    try lift_lets
    repeat' first
    | with_reducible assumption
    | (intro x; refine Keeps.cut (F := F) (r := r) (s := x) ?_ (fun hx => ?_); on_goal 2 => clear_value x)
    | (intro x; refine Keeps.cut (F := F) (r := r) (s := x.1) ?_ (fun hx => ?_); on_goal 2 => clear_value x)
    | (intro x; clear_value x)
    | with_reducible apply State.fabRequest_keeps
    | with_reducible apply State.ioRead_keeps
    | with_reducible apply State.freeBytes_keeps
    | with_reducible apply State.copyOut_keeps
    | split
    | lift_lets
  case succ k ih =>
    unfold State.copyRun
    try lift_lets
    repeat' first
    | with_reducible assumption
    | (intro x; refine Keeps.cut (F := F) (r := r) (s := x.1) ?_ (fun hx => ?_); on_goal 2 => clear_value x)
    | (intro x; clear_value x)
    | with_reducible apply State.fabRequest_keeps
    | with_reducible apply State.ioRead_keeps
    | with_reducible apply State.freeBytes_keeps
    | with_reducible apply State.copyOut_keeps
    | with_reducible apply ih
    | split
    | lift_lets

theorem State.pushRun_keeps {F : List Kind} {r s : State} (kregs : Kind.regs ∈ F) (kmem : Kind.mem ∈ F) (kresp : Kind.resp ∈ F) (kfree : Kind.free ∈ F) (knewtIrq : Kind.newtIrq ∈ F) (kfieldOps : Kind.fieldOps ∈ F) (kfiles : Kind.files ∈ F) (kaplic : Kind.aplic ∈ F) (kpaused : Kind.paused ∈ F) (kecc : Kind.ecc ∈ F) (kmc : Kind.mc ∈ F) (kpoison : Kind.poison ∈ F) (kcache : Kind.cache ∈ F) (khomes : Kind.homes ∈ F) (ksfPlru : Kind.sfPlru ∈ F) (kiotlb : Kind.iotlb ∈ F) (kqueues : Kind.queues ∈ F) (kcaps : Kind.caps ∈ F) (kcapBusy : Kind.capBusy ∈ F) (h : Keeps F r s) (e : Nat) (x : QCmd) :
    Keeps F r (State.pushRun s e x).1 := by
  unfold State.pushRun
  try lift_lets
  repeat' first
  | with_reducible assumption
  | exact Or.inl (by with_reducible assumption)
  | (refine Or.inr ?_; (repeat with_reducible apply Nat.le_add_right_of_le); first | decide | omega)
  | with_reducible rfl
  | with_reducible apply State.qRefuse_keeps
  | with_reducible apply State.ioRead_keeps
  | with_reducible apply State.qArrive_keeps
  | with_reducible refine Keeps.ite ?_ ?_
  | with_reducible refine OptKeeps.get (by with_reducible assumption) ?_
  | with_reducible refine Keeps.elim ?_ ?_
  | with_reducible refine Keeps.foldl_fst ?_ _ _ ?_
  | with_reducible refine Keeps.foldl ?_ _ _ ?_
  | split
  | (with_reducible intro y)
  | (lift_lets; with_reducible intro y)
  | simp only [id]
  | dsimp only

theorem State.takeEntry_keeps {F : List Kind} {r s : State} (kregs : Kind.regs ∈ F) (kmem : Kind.mem ∈ F) (kfree : Kind.free ∈ F) (knewtIrq : Kind.newtIrq ∈ F) (kfieldOps : Kind.fieldOps ∈ F) (kpaused : Kind.paused ∈ F) (kecc : Kind.ecc ∈ F) (kmc : Kind.mc ∈ F) (kpoison : Kind.poison ∈ F) (kcache : Kind.cache ∈ F) (khomes : Kind.homes ∈ F) (ksfPlru : Kind.sfPlru ∈ F) (kiotlb : Kind.iotlb ∈ F) (kqueues : Kind.queues ∈ F) (kcaps : Kind.caps ∈ F) (kcapBusy : Kind.capBusy ∈ F) (h : Keeps F r s) (q : Nat) :
    Keeps F r (State.takeEntry s q).1 := by
  unfold State.takeEntry
  try lift_lets
  repeat' first
  | with_reducible assumption
  | (intro x; refine Keeps.cut (F := F) (r := r) (s := x) ?_ (fun hx => ?_); on_goal 2 => clear_value x)
  | (intro x; clear_value x)
  | with_reducible apply State.middleReturn_keeps
  | with_reducible apply State.setSpillQ_keeps
  | with_reducible apply State.qRun_keeps
  | with_reducible refine Keeps.ite ?_ ?_
  | split

theorem State.takeEntries_keeps {F : List Kind} {r s : State} (kregs : Kind.regs ∈ F) (kmem : Kind.mem ∈ F) (kfree : Kind.free ∈ F) (knewtIrq : Kind.newtIrq ∈ F) (kfieldOps : Kind.fieldOps ∈ F) (kpaused : Kind.paused ∈ F) (kecc : Kind.ecc ∈ F) (kmc : Kind.mc ∈ F) (kpoison : Kind.poison ∈ F) (kcache : Kind.cache ∈ F) (khomes : Kind.homes ∈ F) (ksfPlru : Kind.sfPlru ∈ F) (kiotlb : Kind.iotlb ∈ F) (kqueues : Kind.queues ∈ F) (kcaps : Kind.caps ∈ F) (kcapBusy : Kind.capBusy ∈ F) (h : Keeps F r s) (q : Nat) (a2 : Nat) :
    Keeps F r (State.takeEntries s q a2).1 := by
  induction a2 generalizing s q
  case zero =>
    unfold State.takeEntries
    try lift_lets
    repeat' first
    | with_reducible assumption
    | (intro x; refine Keeps.cut (F := F) (r := r) (s := x) ?_ (fun hx => ?_); on_goal 2 => clear_value x)
    | (intro x; clear_value x)
    | with_reducible apply State.takeEntry_keeps
    | split
  case succ k ih =>
    unfold State.takeEntries
    try lift_lets
    repeat' first
    | with_reducible assumption
    | (intro x; refine Keeps.cut (F := F) (r := r) (s := x.1) ?_ (fun hx => ?_); on_goal 2 => clear_value x)
    | with_reducible apply State.takeEntry_keeps
    | with_reducible apply ih
    | split

theorem State.popPiece_keeps {F : List Kind} {r s : State} (kregs : Kind.regs ∈ F) (kmem : Kind.mem ∈ F) (kfree : Kind.free ∈ F) (knewtIrq : Kind.newtIrq ∈ F) (kfieldOps : Kind.fieldOps ∈ F) (kpaused : Kind.paused ∈ F) (kecc : Kind.ecc ∈ F) (kmc : Kind.mc ∈ F) (kpoison : Kind.poison ∈ F) (kcache : Kind.cache ∈ F) (khomes : Kind.homes ∈ F) (ksfPlru : Kind.sfPlru ∈ F) (kiotlb : Kind.iotlb ∈ F) (kqueues : Kind.queues ∈ F) (kcaps : Kind.caps ∈ F) (kcapBusy : Kind.capBusy ∈ F) (h : Keeps F r s) (e : Nat) (x : QCmd) :
    Keeps F r (State.popPiece s e x).1 := by
  unfold State.popPiece
  try lift_lets
  repeat' first
  | with_reducible assumption
  | exact Or.inl (by with_reducible assumption)
  | (refine Or.inr ?_; (repeat with_reducible apply Nat.le_add_right_of_le); first | decide | omega)
  | with_reducible rfl
  | with_reducible apply State.takeEntries_keeps
  | with_reducible refine Keeps.ite ?_ ?_
  | with_reducible refine OptKeeps.get (by with_reducible assumption) ?_
  | with_reducible refine Keeps.elim ?_ ?_
  | with_reducible refine Keeps.foldl_fst ?_ _ _ ?_
  | with_reducible refine Keeps.foldl ?_ _ _ ?_
  | split
  | (with_reducible intro x; refine Keeps.cut (F := F) (r := r) (s := x) ?_ (fun hx => ?_); on_goal 2 => clear_value x)
  | (with_reducible intro x; refine Keeps.cut (F := F) (r := r) (s := x.1) ?_ (fun hx => ?_); on_goal 2 => clear_value x)
  | (with_reducible intro y)
  | (lift_lets; with_reducible intro x; refine Keeps.cut (F := F) (r := r) (s := x) ?_ (fun hx => ?_); on_goal 2 => clear_value x)
  | (lift_lets; with_reducible intro x; refine Keeps.cut (F := F) (r := r) (s := x.1) ?_ (fun hx => ?_); on_goal 2 => clear_value x)
  | (lift_lets; with_reducible intro y)
  | simp only [id]
  | dsimp only

theorem State.popLines_keeps {F : List Kind} {r s : State} (kregs : Kind.regs ∈ F) (kmem : Kind.mem ∈ F) (kresp : Kind.resp ∈ F) (knewtIrq : Kind.newtIrq ∈ F) (kfieldOps : Kind.fieldOps ∈ F) (kfiles : Kind.files ∈ F) (kaplic : Kind.aplic ∈ F) (kpaused : Kind.paused ∈ F) (kecc : Kind.ecc ∈ F) (kmc : Kind.mc ∈ F) (kpoison : Kind.poison ∈ F) (kcache : Kind.cache ∈ F) (khomes : Kind.homes ∈ F) (ksf : Kind.sf ∈ F) (ksfPlru : Kind.sfPlru ∈ F) (kiotlb : Kind.iotlb ∈ F) (kqe : Kind.qe ∈ F) (kviBytes : Kind.viBytes ∈ F) (kcaps : Kind.caps ∈ F) (kcapBusy : Kind.capBusy ∈ F) (h : Keeps F r s) (e : Nat) (x : QCmd) :
    Keeps F r (State.popLines s e x).1 := by
  unfold State.popLines
  try lift_lets
  repeat' first
  | with_reducible assumption
  | exact Or.inl (by with_reducible assumption)
  | (refine Or.inr ?_; (repeat with_reducible apply Nat.le_add_right_of_le); first | decide | omega)
  | with_reducible rfl
  | with_reducible apply State.store_keeps
  | with_reducible apply State.qePayload_keeps
  | with_reducible refine Keeps.ite ?_ ?_
  | with_reducible refine OptKeeps.get (by with_reducible assumption) ?_
  | with_reducible refine Keeps.elim ?_ ?_
  | with_reducible refine Keeps.foldl_fst ?_ _ _ ?_
  | with_reducible refine Keeps.foldl ?_ _ _ ?_
  | split
  | (with_reducible intro x; refine Keeps.cut (F := F) (r := r) (s := x) ?_ (fun hx => ?_); on_goal 2 => clear_value x)
  | (with_reducible intro x; refine Keeps.cut (F := F) (r := r) (s := x.1) ?_ (fun hx => ?_); on_goal 2 => clear_value x)
  | (with_reducible intro y)
  | (lift_lets; with_reducible intro x; refine Keeps.cut (F := F) (r := r) (s := x) ?_ (fun hx => ?_); on_goal 2 => clear_value x)
  | (lift_lets; with_reducible intro x; refine Keeps.cut (F := F) (r := r) (s := x.1) ?_ (fun hx => ?_); on_goal 2 => clear_value x)
  | (lift_lets; with_reducible intro y)
  | simp only [id]
  | dsimp only

theorem State.popRun_keeps {F : List Kind} {r s : State} (kregs : Kind.regs ∈ F) (kmem : Kind.mem ∈ F) (kresp : Kind.resp ∈ F) (kfree : Kind.free ∈ F) (knewtIrq : Kind.newtIrq ∈ F) (kfieldOps : Kind.fieldOps ∈ F) (kfiles : Kind.files ∈ F) (kaplic : Kind.aplic ∈ F) (kpaused : Kind.paused ∈ F) (kecc : Kind.ecc ∈ F) (kmc : Kind.mc ∈ F) (kpoison : Kind.poison ∈ F) (kcache : Kind.cache ∈ F) (khomes : Kind.homes ∈ F) (ksf : Kind.sf ∈ F) (ksfPlru : Kind.sfPlru ∈ F) (kiotlb : Kind.iotlb ∈ F) (kqueues : Kind.queues ∈ F) (kqe : Kind.qe ∈ F) (kviBytes : Kind.viBytes ∈ F) (kcaps : Kind.caps ∈ F) (kcapBusy : Kind.capBusy ∈ F) (h : Keeps F r s) (e : Nat) (a2 : QCmd) (a3 : Nat) :
    Keeps F r (State.popRun s e a2 a3).1 := by
  induction a3 generalizing s e a2
  case zero => exact h
  case succ k ih =>
    unfold State.popRun
    split
    · exact h
    · have hx : Keeps F r (if a2.rest = [] then s.popPiece e a2 else s.popLines e a2).1 := by
        split
        · apply State.popPiece_keeps <;> assumption
        · apply State.popLines_keeps <;> assumption
      generalize (if a2.rest = [] then s.popPiece e a2 else s.popLines e a2) = x at hx ⊢
      dsimp only
      split
      · exact hx
      · exact ih hx _ _

theorem State.dropRun_keeps {F : List Kind} {r s : State} (kregs : Kind.regs ∈ F) (kmem : Kind.mem ∈ F) (kfree : Kind.free ∈ F) (knewtIrq : Kind.newtIrq ∈ F) (kfieldOps : Kind.fieldOps ∈ F) (kpaused : Kind.paused ∈ F) (kecc : Kind.ecc ∈ F) (kmc : Kind.mc ∈ F) (kpoison : Kind.poison ∈ F) (kcache : Kind.cache ∈ F) (khomes : Kind.homes ∈ F) (ksfPlru : Kind.sfPlru ∈ F) (kiotlb : Kind.iotlb ∈ F) (kqueues : Kind.queues ∈ F) (kcaps : Kind.caps ∈ F) (kcapBusy : Kind.capBusy ∈ F) (h : Keeps F r s) (e : Nat) (x : QCmd) :
    Keeps F r (State.dropRun s e x).1 := by
  unfold State.dropRun
  try lift_lets
  repeat' first
  | with_reducible assumption
  | exact Or.inl (by with_reducible assumption)
  | (refine Or.inr ?_; (repeat with_reducible apply Nat.le_add_right_of_le); first | decide | omega)
  | with_reducible rfl
  | with_reducible apply State.takeEntries_keeps
  | with_reducible apply State.setSpillQ_keeps
  | with_reducible apply State.put_keeps
  | with_reducible apply State.qRun_keeps
  | with_reducible refine Keeps.ite ?_ ?_
  | with_reducible refine OptKeeps.get (by with_reducible assumption) ?_
  | with_reducible refine Keeps.elim ?_ ?_
  | with_reducible refine Keeps.foldl_fst ?_ _ _ ?_
  | with_reducible refine Keeps.foldl ?_ _ _ ?_
  | split
  | (with_reducible intro x; refine Keeps.cut (F := F) (r := r) (s := x) ?_ (fun hx => ?_); on_goal 2 => clear_value x)
  | (with_reducible intro x; refine Keeps.cut (F := F) (r := r) (s := x.1) ?_ (fun hx => ?_); on_goal 2 => clear_value x)
  | (with_reducible intro y)
  | (lift_lets; with_reducible intro x; refine Keeps.cut (F := F) (r := r) (s := x) ?_ (fun hx => ?_); on_goal 2 => clear_value x)
  | (lift_lets; with_reducible intro x; refine Keeps.cut (F := F) (r := r) (s := x.1) ?_ (fun hx => ?_); on_goal 2 => clear_value x)
  | (lift_lets; with_reducible intro y)
  | simp only [id]
  | dsimp only

theorem State.qeAdvance_keeps {F : List Kind} {r s : State} (kregs : Kind.regs ∈ F) (kmem : Kind.mem ∈ F) (kresp : Kind.resp ∈ F) (kout : Kind.out ∈ F) (kfree : Kind.free ∈ F) (knewtIrq : Kind.newtIrq ∈ F) (kfieldOps : Kind.fieldOps ∈ F) (kfiles : Kind.files ∈ F) (kaplic : Kind.aplic ∈ F) (kpaused : Kind.paused ∈ F) (klaunches : Kind.launches ∈ F) (kecc : Kind.ecc ∈ F) (kmc : Kind.mc ∈ F) (kpoison : Kind.poison ∈ F) (kcache : Kind.cache ∈ F) (khomes : Kind.homes ∈ F) (ksf : Kind.sf ∈ F) (ksfPlru : Kind.sfPlru ∈ F) (kiotlb : Kind.iotlb ∈ F) (kqueues : Kind.queues ∈ F) (kqe : Kind.qe ∈ F) (kviBytes : Kind.viBytes ∈ F) (kfab : Kind.fab ∈ F) (kcaps : Kind.caps ∈ F) (kcapBusy : Kind.capBusy ∈ F) (h : Keeps F r s) (e : Nat) (id : Nat) :
    Keeps F r (State.qeAdvance s e id) := by
  unfold State.qeAdvance
  try lift_lets
  repeat' first
  | with_reducible assumption
  | exact Or.inl (by with_reducible assumption)
  | (refine Or.inr ?_; (repeat with_reducible apply Nat.le_add_right_of_le); first | decide | omega)
  | with_reducible rfl
  | with_reducible apply State.copyRun_keeps
  | with_reducible apply State.pushRun_keeps
  | with_reducible apply State.popRun_keeps
  | with_reducible apply State.dropRun_keeps
  | with_reducible apply State.setQCmd_keeps
  | with_reducible refine Keeps.ite ?_ ?_
  | with_reducible refine OptKeeps.get (by with_reducible assumption) ?_
  | with_reducible refine Keeps.elim ?_ ?_
  | with_reducible refine Keeps.foldl_fst ?_ _ _ ?_
  | with_reducible refine Keeps.foldl ?_ _ _ ?_
  | split
  | (with_reducible intro x; refine Keeps.cut (F := F) (r := r) (s := x) ?_ (fun hx => ?_); on_goal 2 => clear_value x)
  | (with_reducible intro x; refine Keeps.cut (F := F) (r := r) (s := x.1) ?_ (fun hx => ?_); on_goal 2 => clear_value x)
  | (with_reducible intro y)
  | (lift_lets; with_reducible intro x; refine Keeps.cut (F := F) (r := r) (s := x) ?_ (fun hx => ?_); on_goal 2 => clear_value x)
  | (lift_lets; with_reducible intro x; refine Keeps.cut (F := F) (r := r) (s := x.1) ?_ (fun hx => ?_); on_goal 2 => clear_value x)
  | (lift_lets; with_reducible intro y)
  | simp only [id]
  | dsimp only

theorem State.qeBegin_keeps {F : List Kind} {r s : State} (kregs : Kind.regs ∈ F) (kmem : Kind.mem ∈ F) (kresp : Kind.resp ∈ F) (kout : Kind.out ∈ F) (kfree : Kind.free ∈ F) (knewtIrq : Kind.newtIrq ∈ F) (kfieldOps : Kind.fieldOps ∈ F) (kfiles : Kind.files ∈ F) (kaplic : Kind.aplic ∈ F) (kpaused : Kind.paused ∈ F) (klaunches : Kind.launches ∈ F) (kecc : Kind.ecc ∈ F) (kmc : Kind.mc ∈ F) (kpoison : Kind.poison ∈ F) (kcache : Kind.cache ∈ F) (khomes : Kind.homes ∈ F) (ksf : Kind.sf ∈ F) (ksfPlru : Kind.sfPlru ∈ F) (kiotlb : Kind.iotlb ∈ F) (kqueues : Kind.queues ∈ F) (kqe : Kind.qe ∈ F) (kviBytes : Kind.viBytes ∈ F) (kfab : Kind.fab ∈ F) (kcaps : Kind.caps ∈ F) (kcapBusy : Kind.capBusy ∈ F) (h : Keeps F r s) (e : Nat) (n : QCmd ⊕ Launch) :
    Keeps F r (State.qeBegin s e n) := by
  unfold State.qeBegin
  try lift_lets
  repeat' first
  | with_reducible assumption
  | exact Or.inl (by with_reducible assumption)
  | (refine Or.inr ?_; (repeat with_reducible apply Nat.le_add_right_of_le); first | decide | omega)
  | with_reducible rfl
  | with_reducible apply State.setQe_keeps
  | with_reducible apply State.setQCmd_keeps
  | with_reducible apply State.updateLaunch_keeps
  | with_reducible apply State.qeLogItem_keeps
  | with_reducible apply State.qeAdvance_keeps
  | with_reducible apply State.qeCounts_keeps
  | with_reducible refine Keeps.ite ?_ ?_
  | with_reducible refine OptKeeps.get (by with_reducible assumption) ?_
  | with_reducible refine Keeps.elim ?_ ?_
  | with_reducible refine Keeps.foldl_fst ?_ _ _ ?_
  | with_reducible refine Keeps.foldl ?_ _ _ ?_
  | split
  | (with_reducible intro x; refine Keeps.cut (F := F) (r := r) (s := x) ?_ (fun hx => ?_); on_goal 2 => clear_value x)
  | (with_reducible intro x; refine Keeps.cut (F := F) (r := r) (s := x.1) ?_ (fun hx => ?_); on_goal 2 => clear_value x)
  | (with_reducible intro y)
  | (lift_lets; with_reducible intro x; refine Keeps.cut (F := F) (r := r) (s := x) ?_ (fun hx => ?_); on_goal 2 => clear_value x)
  | (lift_lets; with_reducible intro x; refine Keeps.cut (F := F) (r := r) (s := x.1) ?_ (fun hx => ?_); on_goal 2 => clear_value x)
  | (lift_lets; with_reducible intro y)
  | simp only [id]
  | dsimp only

theorem State.qeStart_keeps {F : List Kind} {r s : State} (kregs : Kind.regs ∈ F) (kmem : Kind.mem ∈ F) (kresp : Kind.resp ∈ F) (kout : Kind.out ∈ F) (kfree : Kind.free ∈ F) (knewtIrq : Kind.newtIrq ∈ F) (kfieldOps : Kind.fieldOps ∈ F) (kfiles : Kind.files ∈ F) (kaplic : Kind.aplic ∈ F) (kpaused : Kind.paused ∈ F) (klaunches : Kind.launches ∈ F) (kecc : Kind.ecc ∈ F) (kmc : Kind.mc ∈ F) (kpoison : Kind.poison ∈ F) (kcache : Kind.cache ∈ F) (khomes : Kind.homes ∈ F) (ksf : Kind.sf ∈ F) (ksfPlru : Kind.sfPlru ∈ F) (kiotlb : Kind.iotlb ∈ F) (kqueues : Kind.queues ∈ F) (kqe : Kind.qe ∈ F) (kviBytes : Kind.viBytes ∈ F) (kfab : Kind.fab ∈ F) (kcaps : Kind.caps ∈ F) (kcapBusy : Kind.capBusy ∈ F) (h : Keeps F r s) (e : Nat) (op : Nat) :
    Keeps F r (State.qeStart s e op) := by
  unfold State.qeStart
  try lift_lets
  repeat' first
  | with_reducible assumption
  | exact Or.inl (by with_reducible assumption)
  | (refine Or.inr ?_; (repeat with_reducible apply Nat.le_add_right_of_le); first | decide | omega)
  | with_reducible rfl
  | with_reducible apply State.qeBegin_keeps
  | with_reducible refine Keeps.ite ?_ ?_
  | with_reducible refine OptKeeps.get (by with_reducible assumption) ?_
  | with_reducible refine Keeps.elim ?_ ?_
  | with_reducible refine Keeps.foldl_fst ?_ _ _ ?_
  | with_reducible refine Keeps.foldl ?_ _ _ ?_
  | split
  | (with_reducible intro x; refine Keeps.cut (F := F) (r := r) (s := x) ?_ (fun hx => ?_); on_goal 2 => clear_value x)
  | (with_reducible intro x; refine Keeps.cut (F := F) (r := r) (s := x.1) ?_ (fun hx => ?_); on_goal 2 => clear_value x)
  | (with_reducible intro y)
  | (lift_lets; with_reducible intro x; refine Keeps.cut (F := F) (r := r) (s := x) ?_ (fun hx => ?_); on_goal 2 => clear_value x)
  | (lift_lets; with_reducible intro x; refine Keeps.cut (F := F) (r := r) (s := x.1) ?_ (fun hx => ?_); on_goal 2 => clear_value x)
  | (lift_lets; with_reducible intro y)
  | simp only [id]
  | dsimp only

theorem State.qeStartBad_keeps {F : List Kind} {r s : State} (kregs : Kind.regs ∈ F) (kmem : Kind.mem ∈ F) (kresp : Kind.resp ∈ F) (kout : Kind.out ∈ F) (kfree : Kind.free ∈ F) (knewtIrq : Kind.newtIrq ∈ F) (kfieldOps : Kind.fieldOps ∈ F) (kfiles : Kind.files ∈ F) (kaplic : Kind.aplic ∈ F) (kpaused : Kind.paused ∈ F) (klaunches : Kind.launches ∈ F) (kecc : Kind.ecc ∈ F) (kmc : Kind.mc ∈ F) (kpoison : Kind.poison ∈ F) (kcache : Kind.cache ∈ F) (khomes : Kind.homes ∈ F) (ksf : Kind.sf ∈ F) (ksfPlru : Kind.sfPlru ∈ F) (kiotlb : Kind.iotlb ∈ F) (kqueues : Kind.queues ∈ F) (kqe : Kind.qe ∈ F) (kviBytes : Kind.viBytes ∈ F) (kfab : Kind.fab ∈ F) (kcaps : Kind.caps ∈ F) (kcapBusy : Kind.capBusy ∈ F) (h : Keeps F r s) (e : Nat) (id : Nat) :
    Keeps F r (State.qeStartBad s e id) := by
  unfold State.qeStartBad
  try lift_lets
  repeat' first
  | with_reducible assumption
  | exact Or.inl (by with_reducible assumption)
  | (refine Or.inr ?_; (repeat with_reducible apply Nat.le_add_right_of_le); first | decide | omega)
  | with_reducible rfl
  | with_reducible apply State.qeBegin_keeps
  | with_reducible refine Keeps.ite ?_ ?_
  | with_reducible refine OptKeeps.get (by with_reducible assumption) ?_
  | with_reducible refine Keeps.elim ?_ ?_
  | with_reducible refine Keeps.foldl_fst ?_ _ _ ?_
  | with_reducible refine Keeps.foldl ?_ _ _ ?_
  | split
  | (with_reducible intro x; refine Keeps.cut (F := F) (r := r) (s := x) ?_ (fun hx => ?_); on_goal 2 => clear_value x)
  | (with_reducible intro x; refine Keeps.cut (F := F) (r := r) (s := x.1) ?_ (fun hx => ?_); on_goal 2 => clear_value x)
  | (with_reducible intro y)
  | (lift_lets; with_reducible intro x; refine Keeps.cut (F := F) (r := r) (s := x) ?_ (fun hx => ?_); on_goal 2 => clear_value x)
  | (lift_lets; with_reducible intro x; refine Keeps.cut (F := F) (r := r) (s := x.1) ?_ (fun hx => ?_); on_goal 2 => clear_value x)
  | (lift_lets; with_reducible intro y)
  | simp only [id]
  | dsimp only

theorem execQeCopy_keeps {F : List Kind} {r s : State} (kregs : Kind.regs ∈ F) (kmem : Kind.mem ∈ F) (kresp : Kind.resp ∈ F) (kout : Kind.out ∈ F) (kfree : Kind.free ∈ F) (knewtIrq : Kind.newtIrq ∈ F) (kfieldOps : Kind.fieldOps ∈ F) (kfiles : Kind.files ∈ F) (kaplic : Kind.aplic ∈ F) (kpaused : Kind.paused ∈ F) (kcsq : Kind.csq ∈ F) (klaunches : Kind.launches ∈ F) (kecc : Kind.ecc ∈ F) (kmc : Kind.mc ∈ F) (kpoison : Kind.poison ∈ F) (kcache : Kind.cache ∈ F) (khomes : Kind.homes ∈ F) (ksf : Kind.sf ∈ F) (ksfPlru : Kind.sfPlru ∈ F) (kfaultN : Kind.faultN ∈ F) (ktxIdle : Kind.txIdle ∈ F) (kiotlb : Kind.iotlb ∈ F) (kqueues : Kind.queues ∈ F) (kqe : Kind.qe ∈ F) (kviBytes : Kind.viBytes ∈ F) (kfab : Kind.fab ∈ F) (kcaps : Kind.caps ∈ F) (kcapBusy : Kind.capBusy ∈ F) (h : Keeps F r s) (e : Fin 8) :
    ResKeeps F r (execQeCopy e s) := by
  unfold execQeCopy
  try lift_lets
  repeat' first
  | with_reducible assumption
  | exact Or.inl (by with_reducible assumption)
  | (refine Or.inr ?_; (repeat with_reducible apply Nat.le_add_right_of_le); first | decide | omega)
  | with_reducible rfl
  | with_reducible apply State.devCmd_keeps
  | with_reducible apply State.qeStart_keeps
  | with_reducible apply ResKeeps.next
  | with_reducible refine ResKeeps.ite ?_ ?_
  | with_reducible refine Keeps.ite ?_ ?_
  | with_reducible refine OptKeeps.get (by with_reducible assumption) ?_
  | with_reducible refine Keeps.elim ?_ ?_
  | with_reducible refine Keeps.foldl_fst ?_ _ _ ?_
  | with_reducible refine Keeps.foldl ?_ _ _ ?_
  | split
  | (with_reducible intro y)
  | (lift_lets; with_reducible intro y)
  | simp only [id]
  | dsimp only

theorem execQePush_keeps {F : List Kind} {r s : State} (kregs : Kind.regs ∈ F) (kmem : Kind.mem ∈ F) (kresp : Kind.resp ∈ F) (kout : Kind.out ∈ F) (kfree : Kind.free ∈ F) (knewtIrq : Kind.newtIrq ∈ F) (kfieldOps : Kind.fieldOps ∈ F) (kfiles : Kind.files ∈ F) (kaplic : Kind.aplic ∈ F) (kpaused : Kind.paused ∈ F) (kcsq : Kind.csq ∈ F) (klaunches : Kind.launches ∈ F) (kecc : Kind.ecc ∈ F) (kmc : Kind.mc ∈ F) (kpoison : Kind.poison ∈ F) (kcache : Kind.cache ∈ F) (khomes : Kind.homes ∈ F) (ksf : Kind.sf ∈ F) (ksfPlru : Kind.sfPlru ∈ F) (kfaultN : Kind.faultN ∈ F) (ktxIdle : Kind.txIdle ∈ F) (kiotlb : Kind.iotlb ∈ F) (kqueues : Kind.queues ∈ F) (kqe : Kind.qe ∈ F) (kviBytes : Kind.viBytes ∈ F) (kfab : Kind.fab ∈ F) (kcaps : Kind.caps ∈ F) (kcapBusy : Kind.capBusy ∈ F) (h : Keeps F r s) (e : Fin 8) :
    ResKeeps F r (execQePush e s) := by
  unfold execQePush
  try lift_lets
  repeat' first
  | with_reducible assumption
  | exact Or.inl (by with_reducible assumption)
  | (refine Or.inr ?_; (repeat with_reducible apply Nat.le_add_right_of_le); first | decide | omega)
  | with_reducible rfl
  | with_reducible apply State.devCmd_keeps
  | with_reducible apply State.qeStart_keeps
  | with_reducible apply ResKeeps.next
  | with_reducible refine ResKeeps.ite ?_ ?_
  | with_reducible refine Keeps.ite ?_ ?_
  | with_reducible refine OptKeeps.get (by with_reducible assumption) ?_
  | with_reducible refine Keeps.elim ?_ ?_
  | with_reducible refine Keeps.foldl_fst ?_ _ _ ?_
  | with_reducible refine Keeps.foldl ?_ _ _ ?_
  | split
  | (with_reducible intro y)
  | (lift_lets; with_reducible intro y)
  | simp only [id]
  | dsimp only

theorem execQePop_keeps {F : List Kind} {r s : State} (kregs : Kind.regs ∈ F) (kmem : Kind.mem ∈ F) (kresp : Kind.resp ∈ F) (kout : Kind.out ∈ F) (kfree : Kind.free ∈ F) (knewtIrq : Kind.newtIrq ∈ F) (kfieldOps : Kind.fieldOps ∈ F) (kfiles : Kind.files ∈ F) (kaplic : Kind.aplic ∈ F) (kpaused : Kind.paused ∈ F) (kcsq : Kind.csq ∈ F) (klaunches : Kind.launches ∈ F) (kecc : Kind.ecc ∈ F) (kmc : Kind.mc ∈ F) (kpoison : Kind.poison ∈ F) (kcache : Kind.cache ∈ F) (khomes : Kind.homes ∈ F) (ksf : Kind.sf ∈ F) (ksfPlru : Kind.sfPlru ∈ F) (kfaultN : Kind.faultN ∈ F) (ktxIdle : Kind.txIdle ∈ F) (kiotlb : Kind.iotlb ∈ F) (kqueues : Kind.queues ∈ F) (kqe : Kind.qe ∈ F) (kviBytes : Kind.viBytes ∈ F) (kfab : Kind.fab ∈ F) (kcaps : Kind.caps ∈ F) (kcapBusy : Kind.capBusy ∈ F) (h : Keeps F r s) (e : Fin 8) :
    ResKeeps F r (execQePop e s) := by
  unfold execQePop
  try lift_lets
  repeat' first
  | with_reducible assumption
  | exact Or.inl (by with_reducible assumption)
  | (refine Or.inr ?_; (repeat with_reducible apply Nat.le_add_right_of_le); first | decide | omega)
  | with_reducible rfl
  | with_reducible apply State.devCmd_keeps
  | with_reducible apply State.qeStart_keeps
  | with_reducible apply ResKeeps.next
  | with_reducible refine ResKeeps.ite ?_ ?_
  | with_reducible refine Keeps.ite ?_ ?_
  | with_reducible refine OptKeeps.get (by with_reducible assumption) ?_
  | with_reducible refine Keeps.elim ?_ ?_
  | with_reducible refine Keeps.foldl_fst ?_ _ _ ?_
  | with_reducible refine Keeps.foldl ?_ _ _ ?_
  | split
  | (with_reducible intro y)
  | (lift_lets; with_reducible intro y)
  | simp only [id]
  | dsimp only

theorem execQeDrop_keeps {F : List Kind} {r s : State} (kregs : Kind.regs ∈ F) (kmem : Kind.mem ∈ F) (kresp : Kind.resp ∈ F) (kout : Kind.out ∈ F) (kfree : Kind.free ∈ F) (knewtIrq : Kind.newtIrq ∈ F) (kfieldOps : Kind.fieldOps ∈ F) (kfiles : Kind.files ∈ F) (kaplic : Kind.aplic ∈ F) (kpaused : Kind.paused ∈ F) (kcsq : Kind.csq ∈ F) (klaunches : Kind.launches ∈ F) (kecc : Kind.ecc ∈ F) (kmc : Kind.mc ∈ F) (kpoison : Kind.poison ∈ F) (kcache : Kind.cache ∈ F) (khomes : Kind.homes ∈ F) (ksf : Kind.sf ∈ F) (ksfPlru : Kind.sfPlru ∈ F) (kfaultN : Kind.faultN ∈ F) (ktxIdle : Kind.txIdle ∈ F) (kiotlb : Kind.iotlb ∈ F) (kqueues : Kind.queues ∈ F) (kqe : Kind.qe ∈ F) (kviBytes : Kind.viBytes ∈ F) (kfab : Kind.fab ∈ F) (kcaps : Kind.caps ∈ F) (kcapBusy : Kind.capBusy ∈ F) (h : Keeps F r s) (e : Fin 8) :
    ResKeeps F r (execQeDrop e s) := by
  unfold execQeDrop
  try lift_lets
  repeat' first
  | with_reducible assumption
  | exact Or.inl (by with_reducible assumption)
  | (refine Or.inr ?_; (repeat with_reducible apply Nat.le_add_right_of_le); first | decide | omega)
  | with_reducible rfl
  | with_reducible apply State.devCmd_keeps
  | with_reducible apply State.qeStart_keeps
  | with_reducible apply ResKeeps.next
  | with_reducible refine ResKeeps.ite ?_ ?_
  | with_reducible refine Keeps.ite ?_ ?_
  | with_reducible refine OptKeeps.get (by with_reducible assumption) ?_
  | with_reducible refine Keeps.elim ?_ ?_
  | with_reducible refine Keeps.foldl_fst ?_ _ _ ?_
  | with_reducible refine Keeps.foldl ?_ _ _ ?_
  | split
  | (with_reducible intro y)
  | (lift_lets; with_reducible intro y)
  | simp only [id]
  | dsimp only

theorem State.channelDone_keeps {F : List Kind} {r s : State} (kregs : Kind.regs ∈ F) (kmem : Kind.mem ∈ F) (kresp : Kind.resp ∈ F) (knewtIrq : Kind.newtIrq ∈ F) (kfieldOps : Kind.fieldOps ∈ F) (kfiles : Kind.files ∈ F) (kpaused : Kind.paused ∈ F) (kecc : Kind.ecc ∈ F) (kmc : Kind.mc ∈ F) (kpoison : Kind.poison ∈ F) (kcache : Kind.cache ∈ F) (khomes : Kind.homes ∈ F) (ksf : Kind.sf ∈ F) (ksfPlru : Kind.sfPlru ∈ F) (kiotlb : Kind.iotlb ∈ F) (kcaps : Kind.caps ∈ F) (kcapBusy : Kind.capBusy ∈ F) (h : Keeps F r s) (e : Nat) (x : QCmd) :
    Keeps F r (State.channelDone s e x) := by
  unfold State.channelDone
  try lift_lets
  repeat' first
  | with_reducible assumption
  | exact Or.inl (by with_reducible assumption)
  | (refine Or.inr ?_; (repeat with_reducible apply Nat.le_add_right_of_le); first | decide | omega)
  | with_reducible rfl
  | with_reducible apply State.store_keeps
  | with_reducible apply State.put_keeps
  | with_reducible apply State.sendMsi_keeps
  | with_reducible refine Keeps.ite ?_ ?_
  | with_reducible refine OptKeeps.get (by with_reducible assumption) ?_
  | with_reducible refine Keeps.elim ?_ ?_
  | with_reducible refine Keeps.foldl_fst ?_ _ _ ?_
  | with_reducible refine Keeps.foldl ?_ _ _ ?_
  | split
  | (with_reducible intro x; refine Keeps.cut (F := F) (r := r) (s := x) ?_ (fun hx => ?_); on_goal 2 => clear_value x)
  | (with_reducible intro x; refine Keeps.cut (F := F) (r := r) (s := x.1) ?_ (fun hx => ?_); on_goal 2 => clear_value x)
  | (with_reducible intro y)
  | (lift_lets; with_reducible intro x; refine Keeps.cut (F := F) (r := r) (s := x) ?_ (fun hx => ?_); on_goal 2 => clear_value x)
  | (lift_lets; with_reducible intro x; refine Keeps.cut (F := F) (r := r) (s := x.1) ?_ (fun hx => ?_); on_goal 2 => clear_value x)
  | (lift_lets; with_reducible intro y)
  | simp only [id]
  | dsimp only

theorem State.qeEnded_keeps {F : List Kind} {r s : State} (kregs : Kind.regs ∈ F) (kmem : Kind.mem ∈ F) (kresp : Kind.resp ∈ F) (knewtIrq : Kind.newtIrq ∈ F) (kfieldOps : Kind.fieldOps ∈ F) (kfiles : Kind.files ∈ F) (kaplic : Kind.aplic ∈ F) (kpaused : Kind.paused ∈ F) (kecc : Kind.ecc ∈ F) (kmc : Kind.mc ∈ F) (kpoison : Kind.poison ∈ F) (kcache : Kind.cache ∈ F) (khomes : Kind.homes ∈ F) (ksf : Kind.sf ∈ F) (ksfPlru : Kind.sfPlru ∈ F) (kiotlb : Kind.iotlb ∈ F) (kcaps : Kind.caps ∈ F) (kcapBusy : Kind.capBusy ∈ F) (h : Keeps F r s) (e : Nat) (x : QCmd) :
    Keeps F r (State.qeEnded s e x).1 := by
  unfold State.qeEnded
  try lift_lets
  repeat' first
  | with_reducible assumption
  | exact Or.inl (by with_reducible assumption)
  | (refine Or.inr ?_; (repeat with_reducible apply Nat.le_add_right_of_le); first | decide | omega)
  | with_reducible rfl
  | with_reducible apply State.when_keeps
  | with_reducible apply State.markDirty_keeps
  | with_reducible apply State.store_keeps
  | with_reducible apply State.inc_keeps
  | with_reducible apply State.pmc_keeps
  | with_reducible apply State.qeEvent_keeps
  | with_reducible refine Keeps.ite ?_ ?_
  | with_reducible refine OptKeeps.get (by with_reducible assumption) ?_
  | with_reducible refine Keeps.elim ?_ ?_
  | with_reducible refine Keeps.foldl_fst ?_ _ _ ?_
  | with_reducible refine Keeps.foldl ?_ _ _ ?_
  | split
  | (with_reducible intro x; refine Keeps.cut (F := F) (r := r) (s := x) ?_ (fun hx => ?_); on_goal 2 => clear_value x)
  | (with_reducible intro x; refine Keeps.cut (F := F) (r := r) (s := x.1) ?_ (fun hx => ?_); on_goal 2 => clear_value x)
  | (with_reducible intro y)
  | (lift_lets; with_reducible intro x; refine Keeps.cut (F := F) (r := r) (s := x) ?_ (fun hx => ?_); on_goal 2 => clear_value x)
  | (lift_lets; with_reducible intro x; refine Keeps.cut (F := F) (r := r) (s := x.1) ?_ (fun hx => ?_); on_goal 2 => clear_value x)
  | (lift_lets; with_reducible intro y)
  | simp only [id]
  | dsimp only

theorem State.qeReject_keeps {F : List Kind} {r s : State} (kregs : Kind.regs ∈ F) (kmem : Kind.mem ∈ F) (kresp : Kind.resp ∈ F) (knewtIrq : Kind.newtIrq ∈ F) (kfieldOps : Kind.fieldOps ∈ F) (kfiles : Kind.files ∈ F) (kaplic : Kind.aplic ∈ F) (kpaused : Kind.paused ∈ F) (klaunches : Kind.launches ∈ F) (kecc : Kind.ecc ∈ F) (kmc : Kind.mc ∈ F) (kpoison : Kind.poison ∈ F) (kcache : Kind.cache ∈ F) (khomes : Kind.homes ∈ F) (ksf : Kind.sf ∈ F) (ksfPlru : Kind.sfPlru ∈ F) (kiotlb : Kind.iotlb ∈ F) (kcaps : Kind.caps ∈ F) (kcapBusy : Kind.capBusy ∈ F) (h : Keeps F r s) (e : Nat) (l : Launch) :
    Keeps F r (State.qeReject s e l) := by
  unfold State.qeReject
  try lift_lets
  repeat' first
  | with_reducible assumption
  | exact Or.inl (by with_reducible assumption)
  | (refine Or.inr ?_; (repeat with_reducible apply Nat.le_add_right_of_le); first | decide | omega)
  | with_reducible rfl
  | with_reducible apply State.qeLogItem_keeps
  | with_reducible apply State.qeEnded_keeps
  | with_reducible apply State.endLaunch_keeps
  | with_reducible refine Keeps.ite ?_ ?_
  | with_reducible refine OptKeeps.get (by with_reducible assumption) ?_
  | with_reducible refine Keeps.elim ?_ ?_
  | with_reducible refine Keeps.foldl_fst ?_ _ _ ?_
  | with_reducible refine Keeps.foldl ?_ _ _ ?_
  | split
  | (with_reducible intro x; refine Keeps.cut (F := F) (r := r) (s := x) ?_ (fun hx => ?_); on_goal 2 => clear_value x)
  | (with_reducible intro x; refine Keeps.cut (F := F) (r := r) (s := x.1) ?_ (fun hx => ?_); on_goal 2 => clear_value x)
  | (with_reducible intro y)
  | (lift_lets; with_reducible intro x; refine Keeps.cut (F := F) (r := r) (s := x) ?_ (fun hx => ?_); on_goal 2 => clear_value x)
  | (lift_lets; with_reducible intro x; refine Keeps.cut (F := F) (r := r) (s := x.1) ?_ (fun hx => ?_); on_goal 2 => clear_value x)
  | (lift_lets; with_reducible intro y)
  | simp only [id]
  | dsimp only

theorem execQeCommandComplete_keeps {F : List Kind} {r s : State} (kregs : Kind.regs ∈ F) (kmem : Kind.mem ∈ F) (kresp : Kind.resp ∈ F) (kout : Kind.out ∈ F) (kfree : Kind.free ∈ F) (knewtIrq : Kind.newtIrq ∈ F) (kfieldOps : Kind.fieldOps ∈ F) (kfiles : Kind.files ∈ F) (kaplic : Kind.aplic ∈ F) (kpaused : Kind.paused ∈ F) (kcsq : Kind.csq ∈ F) (klaunches : Kind.launches ∈ F) (kecc : Kind.ecc ∈ F) (kmc : Kind.mc ∈ F) (kpoison : Kind.poison ∈ F) (kcache : Kind.cache ∈ F) (khomes : Kind.homes ∈ F) (ksf : Kind.sf ∈ F) (ksfPlru : Kind.sfPlru ∈ F) (kfaultN : Kind.faultN ∈ F) (ktxIdle : Kind.txIdle ∈ F) (kiotlb : Kind.iotlb ∈ F) (kqueues : Kind.queues ∈ F) (kqe : Kind.qe ∈ F) (kviBytes : Kind.viBytes ∈ F) (kfab : Kind.fab ∈ F) (kcaps : Kind.caps ∈ F) (kcapBusy : Kind.capBusy ∈ F) (h : Keeps F r s) (e : Fin 8) (id : Nat) :
    ResKeeps F r (execQeCommandComplete e id s) := by
  unfold execQeCommandComplete
  try lift_lets
  repeat' first
  | with_reducible assumption
  | exact Or.inl (by with_reducible assumption)
  | (refine Or.inr ?_; (repeat with_reducible apply Nat.le_add_right_of_le); first | decide | omega)
  | with_reducible rfl
  | with_reducible apply State.devCmd_keeps
  | with_reducible apply State.qeStartBad_keeps
  | with_reducible apply State.qeAdvance_keeps
  | with_reducible apply State.qeEvent_keeps
  | with_reducible apply State.qeEnded_keeps
  | with_reducible apply State.setQe_keeps
  | with_reducible apply State.updateLaunch_keeps
  | with_reducible apply State.lateDiscard_keeps
  | with_reducible apply State.channelDone_keeps
  | with_reducible apply State.qeCounts_keeps
  | with_reducible apply ResKeeps.next
  | with_reducible refine ResKeeps.ite ?_ ?_
  | with_reducible refine Keeps.ite ?_ ?_
  | with_reducible refine OptKeeps.get (by with_reducible assumption) ?_
  | with_reducible refine Keeps.elim ?_ ?_
  | with_reducible refine Keeps.foldl_fst ?_ _ _ ?_
  | with_reducible refine Keeps.foldl ?_ _ _ ?_
  | split
  | (with_reducible intro x; refine Keeps.cut (F := F) (r := r) (s := x) ?_ (fun hx => ?_); on_goal 2 => clear_value x)
  | (with_reducible intro x; refine Keeps.cut (F := F) (r := r) (s := x.1) ?_ (fun hx => ?_); on_goal 2 => clear_value x)
  | (with_reducible intro y)
  | (lift_lets; with_reducible intro x; refine Keeps.cut (F := F) (r := r) (s := x) ?_ (fun hx => ?_); on_goal 2 => clear_value x)
  | (lift_lets; with_reducible intro x; refine Keeps.cut (F := F) (r := r) (s := x.1) ?_ (fun hx => ?_); on_goal 2 => clear_value x)
  | (lift_lets; with_reducible intro y)
  | simp only [id]
  | dsimp only

theorem State.setSqTail_keeps {F : List Kind} {r s : State} (kregs : Kind.regs ∈ F) (kresp : Kind.resp ∈ F) (knewtIrq : Kind.newtIrq ∈ F) (kfieldOps : Kind.fieldOps ∈ F) (kpaused : Kind.paused ∈ F) (kcaps : Kind.caps ∈ F) (kcapBusy : Kind.capBusy ∈ F) (h : Keeps F r s) (ch : Nat) (i : Nat) (key : Nat) (c : Issuer) :
    Keeps F r (State.setSqTail s ch i key c) := by
  unfold State.setSqTail
  try lift_lets
  repeat' first
  | with_reducible assumption
  | (refine Or.inr ?_; (repeat with_reducible apply Nat.le_add_right_of_le); first | decide | omega)
  | with_reducible apply State.forbidden_keeps
  | with_reducible apply State.put_keeps
  | with_reducible refine Keeps.ite ?_ ?_

theorem State.setCqHead_keeps {F : List Kind} {r s : State} (kregs : Kind.regs ∈ F) (kresp : Kind.resp ∈ F) (knewtIrq : Kind.newtIrq ∈ F) (kfieldOps : Kind.fieldOps ∈ F) (kpaused : Kind.paused ∈ F) (kcaps : Kind.caps ∈ F) (kcapBusy : Kind.capBusy ∈ F) (h : Keeps F r s) (ch : Nat) (i : Nat) (key : Nat) (c : Issuer) :
    Keeps F r (State.setCqHead s ch i key c) := by
  unfold State.setCqHead
  try lift_lets
  repeat' first
  | with_reducible assumption
  | (refine Or.inr ?_; (repeat with_reducible apply Nat.le_add_right_of_le); first | decide | omega)
  | with_reducible apply State.forbidden_keeps
  | with_reducible apply State.put_keeps
  | with_reducible refine Keeps.ite ?_ ?_

theorem State.writeChDb_keeps {F : List Kind} {r s : State} (kregs : Kind.regs ∈ F) (kresp : Kind.resp ∈ F) (knewtIrq : Kind.newtIrq ∈ F) (kfieldOps : Kind.fieldOps ∈ F) (kpaused : Kind.paused ∈ F) (kcaps : Kind.caps ∈ F) (kcapBusy : Kind.capBusy ∈ F) (h : Keeps F r s) (ch : Nat) (c : Issuer) (v : Nat) :
    Keeps F r (State.writeChDb s ch c v) := by
  unfold State.writeChDb
  try lift_lets
  repeat' first
  | with_reducible assumption
  | with_reducible apply State.setSqTail_keeps
  | with_reducible apply State.setCqHead_keeps
  | with_reducible refine Keeps.ite ?_ ?_

theorem State.tenantGuard_keeps {F : List Kind} {r s : State} (kregs : Kind.regs ∈ F) (kresp : Kind.resp ∈ F) (knewtIrq : Kind.newtIrq ∈ F) (kfieldOps : Kind.fieldOps ∈ F) (kpaused : Kind.paused ∈ F) (kcaps : Kind.caps ∈ F) (kcapBusy : Kind.capBusy ∈ F) (h : Keeps F r s) (v : Nat) (c : Issuer) (key : Nat) (f : State → State) (hf : ∀ x, Keeps F r x → Keeps F r (f x)) :
    Keeps F r (State.tenantGuard s v c key f) := by
  unfold State.tenantGuard
  try lift_lets
  repeat' first
  | with_reducible assumption
  | with_reducible apply hf
  | with_reducible apply State.worldError_keeps
  | with_reducible apply State.answer_keeps
  | with_reducible refine Keeps.ite ?_ ?_

theorem State.writeTenantDb_keeps {F : List Kind} {r s : State} (kregs : Kind.regs ∈ F) (kresp : Kind.resp ∈ F) (knewtIrq : Kind.newtIrq ∈ F) (kfieldOps : Kind.fieldOps ∈ F) (kpaused : Kind.paused ∈ F) (kcaps : Kind.caps ∈ F) (kcapBusy : Kind.capBusy ∈ F) (h : Keeps F r s) (v : Nat) (sq : Bool) (c : Issuer) (x : Nat) :
    Keeps F r (State.writeTenantDb s v sq c x) := by
  unfold State.writeTenantDb
  try lift_lets
  repeat' first
  | with_reducible assumption
  | exact Or.inl (by with_reducible assumption)
  | (refine Or.inr ?_; (repeat with_reducible apply Nat.le_add_right_of_le); first | decide | omega)
  | with_reducible rfl
  | with_reducible apply State.otherViolation_keeps
  | with_reducible apply State.worldError_keeps
  | with_reducible apply State.setSqTail_keeps
  | with_reducible apply State.setCqHead_keeps
  | with_reducible refine Keeps.ite ?_ ?_
  | with_reducible refine OptKeeps.get (by with_reducible assumption) ?_
  | with_reducible refine Keeps.elim ?_ ?_
  | with_reducible refine Keeps.foldl_fst ?_ _ _ ?_
  | with_reducible refine Keeps.foldl ?_ _ _ ?_
  | split
  | (with_reducible intro x; refine Keeps.cut (F := F) (r := r) (s := x) ?_ (fun hx => ?_); on_goal 2 => clear_value x)
  | (with_reducible intro x; refine Keeps.cut (F := F) (r := r) (s := x.1) ?_ (fun hx => ?_); on_goal 2 => clear_value x)
  | (with_reducible intro y)
  | (lift_lets; with_reducible intro x; refine Keeps.cut (F := F) (r := r) (s := x) ?_ (fun hx => ?_); on_goal 2 => clear_value x)
  | (lift_lets; with_reducible intro x; refine Keeps.cut (F := F) (r := r) (s := x.1) ?_ (fun hx => ?_); on_goal 2 => clear_value x)
  | (lift_lets; with_reducible intro y)
  | simp only [id]
  | dsimp only

theorem State.doorbell_keeps {F : List Kind} {r s : State} (kregs : Kind.regs ∈ F) (kresp : Kind.resp ∈ F) (knewtIrq : Kind.newtIrq ∈ F) (kfieldOps : Kind.fieldOps ∈ F) (kpaused : Kind.paused ∈ F) (kcaps : Kind.caps ∈ F) (kcapBusy : Kind.capBusy ∈ F) (h : Keeps F r s) (c : Issuer) (d : Doorbell) (sq : Bool) (v : Nat) :
    Keeps F r (State.doorbell s c d sq v) := by
  unfold State.doorbell
  try lift_lets
  repeat' first
  | with_reducible assumption
  | exact Or.inl (by with_reducible assumption)
  | (refine Or.inr ?_; (repeat with_reducible apply Nat.le_add_right_of_le); first | decide | omega)
  | with_reducible rfl
  | with_reducible apply State.worldError_keeps
  | with_reducible apply State.qeGuard_keeps
  | with_reducible apply State.writeChDb_keeps
  | with_reducible apply State.tenantGuard_keeps
  | with_reducible apply State.writeTenantDb_keeps
  | with_reducible refine Keeps.ite ?_ ?_
  | with_reducible refine OptKeeps.get (by with_reducible assumption) ?_
  | with_reducible refine Keeps.elim ?_ ?_
  | with_reducible refine Keeps.foldl_fst ?_ _ _ ?_
  | with_reducible refine Keeps.foldl ?_ _ _ ?_
  | split
  | (with_reducible intro x; refine Keeps.cut (F := F) (r := r) (s := x) ?_ (fun hx => ?_); on_goal 2 => clear_value x)
  | (with_reducible intro x; refine Keeps.cut (F := F) (r := r) (s := x.1) ?_ (fun hx => ?_); on_goal 2 => clear_value x)
  | (with_reducible intro y)
  | (lift_lets; with_reducible intro x; refine Keeps.cut (F := F) (r := r) (s := x) ?_ (fun hx => ?_); on_goal 2 => clear_value x)
  | (lift_lets; with_reducible intro x; refine Keeps.cut (F := F) (r := r) (s := x.1) ?_ (fun hx => ?_); on_goal 2 => clear_value x)
  | (lift_lets; with_reducible intro y)
  | simp only [id]
  | dsimp only

theorem execSqDoorbell_keeps {F : List Kind} {r s : State} (kregs : Kind.regs ∈ F) (kresp : Kind.resp ∈ F) (knewtIrq : Kind.newtIrq ∈ F) (kfieldOps : Kind.fieldOps ∈ F) (kpaused : Kind.paused ∈ F) (kcaps : Kind.caps ∈ F) (kcapBusy : Kind.capBusy ∈ F) (h : Keeps F r s) (c : Issuer) (d : Doorbell) (v : Word) :
    ResKeeps F r (execSqDoorbell c d v s) := by
  unfold execSqDoorbell
  try lift_lets
  repeat' first
  | with_reducible assumption
  | exact Or.inl (by with_reducible assumption)
  | (refine Or.inr ?_; (repeat with_reducible apply Nat.le_add_right_of_le); first | decide | omega)
  | with_reducible rfl
  | with_reducible apply State.issue_keeps
  | with_reducible apply State.doorbell_keeps
  | with_reducible apply ResKeeps.next
  | with_reducible refine ResKeeps.ite ?_ ?_
  | with_reducible refine Keeps.ite ?_ ?_
  | with_reducible refine OptKeeps.get (by with_reducible assumption) ?_
  | with_reducible refine Keeps.elim ?_ ?_
  | with_reducible refine Keeps.foldl_fst ?_ _ _ ?_
  | with_reducible refine Keeps.foldl ?_ _ _ ?_
  | split
  | (with_reducible intro x; refine Keeps.cut (F := F) (r := r) (s := x) ?_ (fun hx => ?_); on_goal 2 => clear_value x)
  | (with_reducible intro x; refine Keeps.cut (F := F) (r := r) (s := x.1) ?_ (fun hx => ?_); on_goal 2 => clear_value x)
  | (with_reducible intro y)
  | (lift_lets; with_reducible intro x; refine Keeps.cut (F := F) (r := r) (s := x) ?_ (fun hx => ?_); on_goal 2 => clear_value x)
  | (lift_lets; with_reducible intro x; refine Keeps.cut (F := F) (r := r) (s := x.1) ?_ (fun hx => ?_); on_goal 2 => clear_value x)
  | (lift_lets; with_reducible intro y)
  | simp only [id]
  | dsimp only

theorem execCqDoorbell_keeps {F : List Kind} {r s : State} (kregs : Kind.regs ∈ F) (kresp : Kind.resp ∈ F) (knewtIrq : Kind.newtIrq ∈ F) (kfieldOps : Kind.fieldOps ∈ F) (kpaused : Kind.paused ∈ F) (kcaps : Kind.caps ∈ F) (kcapBusy : Kind.capBusy ∈ F) (h : Keeps F r s) (c : Issuer) (d : Doorbell) (v : Word) :
    ResKeeps F r (execCqDoorbell c d v s) := by
  unfold execCqDoorbell
  try lift_lets
  repeat' first
  | with_reducible assumption
  | exact Or.inl (by with_reducible assumption)
  | (refine Or.inr ?_; (repeat with_reducible apply Nat.le_add_right_of_le); first | decide | omega)
  | with_reducible rfl
  | with_reducible apply State.issue_keeps
  | with_reducible apply State.doorbell_keeps
  | with_reducible apply ResKeeps.next
  | with_reducible refine ResKeeps.ite ?_ ?_
  | with_reducible refine Keeps.ite ?_ ?_
  | with_reducible refine OptKeeps.get (by with_reducible assumption) ?_
  | with_reducible refine Keeps.elim ?_ ?_
  | with_reducible refine Keeps.foldl_fst ?_ _ _ ?_
  | with_reducible refine Keeps.foldl ?_ _ _ ?_
  | split
  | (with_reducible intro x; refine Keeps.cut (F := F) (r := r) (s := x) ?_ (fun hx => ?_); on_goal 2 => clear_value x)
  | (with_reducible intro x; refine Keeps.cut (F := F) (r := r) (s := x.1) ?_ (fun hx => ?_); on_goal 2 => clear_value x)
  | (with_reducible intro y)
  | (lift_lets; with_reducible intro x; refine Keeps.cut (F := F) (r := r) (s := x) ?_ (fun hx => ?_); on_goal 2 => clear_value x)
  | (lift_lets; with_reducible intro x; refine Keeps.cut (F := F) (r := r) (s := x.1) ?_ (fun hx => ?_); on_goal 2 => clear_value x)
  | (lift_lets; with_reducible intro y)
  | simp only [id]
  | dsimp only

theorem execSqFetch_keeps {F : List Kind} {r s : State} (kregs : Kind.regs ∈ F) (kmem : Kind.mem ∈ F) (kresp : Kind.resp ∈ F) (kout : Kind.out ∈ F) (knewtIrq : Kind.newtIrq ∈ F) (kfieldOps : Kind.fieldOps ∈ F) (kfiles : Kind.files ∈ F) (kaplic : Kind.aplic ∈ F) (kpaused : Kind.paused ∈ F) (kcsq : Kind.csq ∈ F) (kecc : Kind.ecc ∈ F) (kmc : Kind.mc ∈ F) (kpoison : Kind.poison ∈ F) (kcache : Kind.cache ∈ F) (khomes : Kind.homes ∈ F) (ksf : Kind.sf ∈ F) (ksfPlru : Kind.sfPlru ∈ F) (kfaultN : Kind.faultN ∈ F) (ktxIdle : Kind.txIdle ∈ F) (kiotlb : Kind.iotlb ∈ F) (kqe : Kind.qe ∈ F) (kcaps : Kind.caps ∈ F) (kcapBusy : Kind.capBusy ∈ F) (h : Keeps F r s) (ch : Fin 128) :
    ResKeeps F r (execSqFetch ch s) := by
  unfold execSqFetch
  try lift_lets
  repeat' first
  | with_reducible assumption
  | exact Or.inl (by with_reducible assumption)
  | (refine Or.inr ?_; (repeat with_reducible apply Nat.le_add_right_of_le); first | decide | omega)
  | with_reducible rfl
  | with_reducible apply State.devCmd_keeps
  | with_reducible apply State.ioRead_keeps
  | with_reducible apply State.put_keeps
  | with_reducible apply State.setQe_keeps
  | with_reducible apply State.qeCounts_keeps
  | with_reducible apply ResKeeps.next
  | with_reducible refine ResKeeps.ite ?_ ?_
  | with_reducible refine Keeps.ite ?_ ?_
  | with_reducible refine OptKeeps.get (by with_reducible assumption) ?_
  | with_reducible refine Keeps.elim ?_ ?_
  | with_reducible refine Keeps.foldl_fst ?_ _ _ ?_
  | with_reducible refine Keeps.foldl ?_ _ _ ?_
  | split
  | (with_reducible intro x; refine Keeps.cut (F := F) (r := r) (s := x) ?_ (fun hx => ?_); on_goal 2 => clear_value x)
  | (with_reducible intro x; refine Keeps.cut (F := F) (r := r) (s := x.1) ?_ (fun hx => ?_); on_goal 2 => clear_value x)
  | (with_reducible intro y)
  | (lift_lets; with_reducible intro x; refine Keeps.cut (F := F) (r := r) (s := x) ?_ (fun hx => ?_); on_goal 2 => clear_value x)
  | (lift_lets; with_reducible intro x; refine Keeps.cut (F := F) (r := r) (s := x.1) ?_ (fun hx => ?_); on_goal 2 => clear_value x)
  | (lift_lets; with_reducible intro y)
  | simp only [id]
  | dsimp only

theorem State.chOff_keeps {F : List Kind} {r s : State} (kregs : Kind.regs ∈ F) (kqe : Kind.qe ∈ F) (h : Keeps F r s) (ch : Nat) :
    Keeps F r (State.chOff s ch) := by
  unfold State.chOff
  try lift_lets
  repeat' first
  | with_reducible assumption
  | (refine Or.inr ?_; (repeat with_reducible apply Nat.le_add_right_of_le); first | decide | omega)
  | with_reducible apply State.wr_keeps
  | with_reducible apply State.put_keeps
  | with_reducible apply State.setQe_keeps

theorem State.writeQe_keeps {F : List Kind} {r s : State} (kregs : Kind.regs ∈ F) (kresp : Kind.resp ∈ F) (knewtIrq : Kind.newtIrq ∈ F) (kfieldOps : Kind.fieldOps ∈ F) (kpaused : Kind.paused ∈ F) (kqueues : Kind.queues ∈ F) (kcaps : Kind.caps ∈ F) (kcapBusy : Kind.capBusy ∈ F) (h : Keeps F r s) (a1 : Reg) (e : Nat) (n : Nat) (c : Issuer) (v : Nat) :
    OptKeeps F r (State.writeQe s a1 e n c v) := by
  unfold State.writeQe
  try lift_lets
  repeat' first
  | with_reducible assumption
  | (refine Or.inr ?_; (repeat with_reducible apply Nat.le_add_right_of_le); first | decide | omega)
  | (intro x; clear_value x)
  | with_reducible apply State.put_keeps
  | with_reducible apply State.forbidden_keeps
  | with_reducible apply State.writeChDb_keeps
  | with_reducible apply State.writeQCfg_keeps
  | with_reducible apply OptKeeps.some
  | with_reducible apply OptKeeps.none
  | split

end Sys2Proof.Machine
end

