-- ==== Sys2Proof/Laws/KeepsReset.lean ====
section
/-! SUPPORT. What the operations of Machine/Reset.lean keep: the queue, the canonical forms, time, and every kind of state they do not name. -/

namespace Sys2Proof.Machine

set_option linter.unusedTactic false
set_option linter.unreachableTactic false
set_option linter.unusedVariables false

theorem State.initBlocks_keeps {F : List Kind} {r s : State} (kregs : Kind.regs ∈ F) (khregs : Kind.hregs ∈ F) (kmem : Kind.mem ∈ F) (kup : Kind.up ∈ F) (kresp : Kind.resp ∈ F) (kout : Kind.out ∈ F) (kfree : Kind.free ∈ F) (knewtIrq : Kind.newtIrq ∈ F) (kfieldOps : Kind.fieldOps ∈ F) (ktb : Kind.tb ∈ F) (khart : Kind.hart ∈ F) (kfiles : Kind.files ∈ F) (kgftag : Kind.gftag ∈ F) (kdie : Kind.die ∈ F) (kaplic : Kind.aplic ∈ F) (kaplicRegs : Kind.aplicRegs ∈ F) (kpaused : Kind.paused ∈ F) (kcsq : Kind.csq ∈ F) (kslots : Kind.slots ∈ F) (kposts : Kind.posts ∈ F) (klaunches : Kind.launches ∈ F) (knextLaunch : Kind.nextLaunch ∈ F) (kunitAccept : Kind.unitAccept ∈ F) (kecc : Kind.ecc ∈ F) (kreleasing : Kind.releasing ∈ F) (kviUsed : Kind.viUsed ∈ F) (kmc : Kind.mc ∈ F) (kpoison : Kind.poison ∈ F) (kxeKeys : Kind.xeKeys ∈ F) (kxeLoads : Kind.xeLoads ∈ F) (kslotKey : Kind.slotKey ∈ F) (kcache : Kind.cache ∈ F) (kplru : Kind.plru ∈ F) (kstreams : Kind.streams ∈ F) (kpitonBusy : Kind.pitonBusy ∈ F) (kslices : Kind.slices ∈ F) (kwbTag : Kind.wbTag ∈ F) (kring : Kind.ring ∈ F) (khomes : Kind.homes ∈ F) (ksf : Kind.sf ∈ F) (ksfPlru : Kind.sfPlru ∈ F) (kfaultN : Kind.faultN ∈ F) (ktxIdle : Kind.txIdle ∈ F) (klinks : Kind.links ∈ F) (ktimeWordAt : Kind.timeWordAt ∈ F) (kmesh : Kind.mesh ∈ F) (kiotlb : Kind.iotlb ∈ F) (kqueues : Kind.queues ∈ F) (kqe : Kind.qe ∈ F) (kviBytes : Kind.viBytes ∈ F) (kviPend : Kind.viPend ∈ F) (kviAdmin : Kind.viAdmin ∈ F) (kfab : Kind.fab ∈ F) (kce : Kind.ce ∈ F) (kcectx : Kind.cectx ∈ F) (kboots : Kind.boots ∈ F) (kpciOpen : Kind.pciOpen ∈ F) (kpciTag : Kind.pciTag ∈ F) (keth : Kind.eth ∈ F) (kownReq : Kind.ownReq ∈ F) (kinvReq : Kind.invReq ∈ F) (knv : Kind.nv ∈ F) (kks : Kind.ks ∈ F) (kbelay : Kind.belay ∈ F) (kpwr : Kind.pwr ∈ F) (kcaps : Kind.caps ∈ F) (kcapBusy : Kind.capBusy ∈ F) (ktrace : Kind.trace ∈ F) (ktbRegs : Kind.tbRegs ∈ F) (h : Keeps F r s) (phase : Phase) :
    Keeps F r (s.initBlocks phase) := by
  unfold State.initBlocks
  refine State.forAll_keeps ?_ (fun x a hx => State.setDie_keeps kdie hx _ _) _
  refine ⟨?_, ?_, h.pending, h.up, h.free⟩
  · intro k hk
    have := h.frame k hk
    cases k <;> first | exact absurd (by with_reducible assumption) hk | exact this
  · intro hi
    exact ⟨SMap.wf_filter _ _ _ (h.inv hi).mem, rfl, rfl, (by show (0 : Nat) < _; decide), (by show (0 : Nat) < _; decide)⟩

theorem State.packageReset_keeps {F : List Kind} {r s : State} (kregs : Kind.regs ∈ F) (khregs : Kind.hregs ∈ F) (kmem : Kind.mem ∈ F) (kup : Kind.up ∈ F) (kresp : Kind.resp ∈ F) (kout : Kind.out ∈ F) (kfree : Kind.free ∈ F) (knewtIrq : Kind.newtIrq ∈ F) (kfieldOps : Kind.fieldOps ∈ F) (ktb : Kind.tb ∈ F) (khart : Kind.hart ∈ F) (kfiles : Kind.files ∈ F) (kgftag : Kind.gftag ∈ F) (kdie : Kind.die ∈ F) (kaplic : Kind.aplic ∈ F) (kaplicRegs : Kind.aplicRegs ∈ F) (kpaused : Kind.paused ∈ F) (kcsq : Kind.csq ∈ F) (kslots : Kind.slots ∈ F) (kposts : Kind.posts ∈ F) (klaunches : Kind.launches ∈ F) (knextLaunch : Kind.nextLaunch ∈ F) (kunitAccept : Kind.unitAccept ∈ F) (kecc : Kind.ecc ∈ F) (kreleasing : Kind.releasing ∈ F) (kviUsed : Kind.viUsed ∈ F) (kmc : Kind.mc ∈ F) (kpoison : Kind.poison ∈ F) (kxeKeys : Kind.xeKeys ∈ F) (kxeLoads : Kind.xeLoads ∈ F) (kslotKey : Kind.slotKey ∈ F) (kcache : Kind.cache ∈ F) (kplru : Kind.plru ∈ F) (kstreams : Kind.streams ∈ F) (kpitonBusy : Kind.pitonBusy ∈ F) (kslices : Kind.slices ∈ F) (kwbTag : Kind.wbTag ∈ F) (kring : Kind.ring ∈ F) (khomes : Kind.homes ∈ F) (ksf : Kind.sf ∈ F) (ksfPlru : Kind.sfPlru ∈ F) (kfaultN : Kind.faultN ∈ F) (ktxIdle : Kind.txIdle ∈ F) (klinks : Kind.links ∈ F) (ktimeWordAt : Kind.timeWordAt ∈ F) (kmesh : Kind.mesh ∈ F) (kiotlb : Kind.iotlb ∈ F) (kqueues : Kind.queues ∈ F) (kqe : Kind.qe ∈ F) (kviBytes : Kind.viBytes ∈ F) (kviPend : Kind.viPend ∈ F) (kviAdmin : Kind.viAdmin ∈ F) (kfab : Kind.fab ∈ F) (kce : Kind.ce ∈ F) (kcectx : Kind.cectx ∈ F) (kboots : Kind.boots ∈ F) (kpciOpen : Kind.pciOpen ∈ F) (kpciTag : Kind.pciTag ∈ F) (keth : Kind.eth ∈ F) (kownReq : Kind.ownReq ∈ F) (kinvReq : Kind.invReq ∈ F) (knv : Kind.nv ∈ F) (kks : Kind.ks ∈ F) (kbelay : Kind.belay ∈ F) (kpwr : Kind.pwr ∈ F) (kcaps : Kind.caps ∈ F) (kcapBusy : Kind.capBusy ∈ F) (ktrace : Kind.trace ∈ F) (ktbRegs : Kind.tbRegs ∈ F) (h : Keeps F r s) (cause : Nat) (phase : Phase) :
    Keeps F r (State.packageReset s cause phase) := by
  unfold State.packageReset
  try lift_lets
  repeat' first
  | with_reducible assumption
  | exact Or.inl (by with_reducible assumption)
  | (with_reducible refine Keeps.upd ?_ rfl rfl rfl rfl rfl rfl rfl rfl ?_ ?_ ?_ ?_ ?_ ?_ ?_ ?_ ?_ ?_ ?_ ?_ ?_ ?_ ?_ ?_ ?_ ?_ ?_ ?_ ?_ ?_ ?_ ?_ ?_ ?_ ?_ ?_ ?_ ?_ ?_ ?_ ?_ ?_ ?_ ?_ ?_ ?_ ?_ ?_ ?_ ?_ ?_ ?_ ?_ ?_ ?_ ?_ ?_ ?_ ?_ ?_ ?_ ?_ ?_ ?_ ?_ ?_ ?_ ?_ ?_ ?_ ?_ <;> first | with_reducible assumption | with_reducible exact Or.inr rfl | with_reducible exact Or.inl (by assumption) | with_reducible apply State.initBlocks_keeps | with_reducible apply State.wr_keeps)

theorem State.setPhase_keeps {F : List Kind} {r s : State} (kpwr : Kind.pwr ∈ F) (h : Keeps F r s) (p : Phase) :
    Keeps F r (State.setPhase s p) := by
  unfold State.setPhase
  try lift_lets
  repeat' first
  | with_reducible assumption
  | with_reducible apply State.setPwr_keeps

theorem State.supplyHold_keeps {F : List Kind} {r s : State} (kregs : Kind.regs ∈ F) (khregs : Kind.hregs ∈ F) (kmem : Kind.mem ∈ F) (kup : Kind.up ∈ F) (kresp : Kind.resp ∈ F) (kout : Kind.out ∈ F) (kfree : Kind.free ∈ F) (knewtIrq : Kind.newtIrq ∈ F) (kfieldOps : Kind.fieldOps ∈ F) (ktb : Kind.tb ∈ F) (khart : Kind.hart ∈ F) (kfiles : Kind.files ∈ F) (kgftag : Kind.gftag ∈ F) (kdie : Kind.die ∈ F) (kaplic : Kind.aplic ∈ F) (kaplicRegs : Kind.aplicRegs ∈ F) (kpaused : Kind.paused ∈ F) (kcsq : Kind.csq ∈ F) (kslots : Kind.slots ∈ F) (kposts : Kind.posts ∈ F) (klaunches : Kind.launches ∈ F) (knextLaunch : Kind.nextLaunch ∈ F) (kunitAccept : Kind.unitAccept ∈ F) (kecc : Kind.ecc ∈ F) (kreleasing : Kind.releasing ∈ F) (kviUsed : Kind.viUsed ∈ F) (kmc : Kind.mc ∈ F) (kpoison : Kind.poison ∈ F) (kxeKeys : Kind.xeKeys ∈ F) (kxeLoads : Kind.xeLoads ∈ F) (kslotKey : Kind.slotKey ∈ F) (kcache : Kind.cache ∈ F) (kplru : Kind.plru ∈ F) (kstreams : Kind.streams ∈ F) (kpitonBusy : Kind.pitonBusy ∈ F) (kslices : Kind.slices ∈ F) (kwbTag : Kind.wbTag ∈ F) (kring : Kind.ring ∈ F) (khomes : Kind.homes ∈ F) (ksf : Kind.sf ∈ F) (ksfPlru : Kind.sfPlru ∈ F) (kfaultN : Kind.faultN ∈ F) (ktxIdle : Kind.txIdle ∈ F) (klinks : Kind.links ∈ F) (ktimeWordAt : Kind.timeWordAt ∈ F) (kmesh : Kind.mesh ∈ F) (kiotlb : Kind.iotlb ∈ F) (kqueues : Kind.queues ∈ F) (kqe : Kind.qe ∈ F) (kviBytes : Kind.viBytes ∈ F) (kviPend : Kind.viPend ∈ F) (kviAdmin : Kind.viAdmin ∈ F) (kfab : Kind.fab ∈ F) (kce : Kind.ce ∈ F) (kcectx : Kind.cectx ∈ F) (kboots : Kind.boots ∈ F) (kpciOpen : Kind.pciOpen ∈ F) (kpciTag : Kind.pciTag ∈ F) (keth : Kind.eth ∈ F) (kownReq : Kind.ownReq ∈ F) (kinvReq : Kind.invReq ∈ F) (knv : Kind.nv ∈ F) (kks : Kind.ks ∈ F) (kbelay : Kind.belay ∈ F) (kpwr : Kind.pwr ∈ F) (kcaps : Kind.caps ∈ F) (kcapBusy : Kind.capBusy ∈ F) (ktrace : Kind.trace ∈ F) (ktbRegs : Kind.tbRegs ∈ F) (h : Keeps F r s) (phase : Phase) :
    Keeps F r (State.supplyHold s phase) := by
  unfold State.supplyHold
  try lift_lets
  repeat' first
  | with_reducible assumption
  | with_reducible apply State.packageReset_keeps
  | with_reducible apply State.setPwr_keeps

theorem execPowerFail_keeps {F : List Kind} {r s : State} (kregs : Kind.regs ∈ F) (khregs : Kind.hregs ∈ F) (kmem : Kind.mem ∈ F) (kup : Kind.up ∈ F) (kresp : Kind.resp ∈ F) (kout : Kind.out ∈ F) (kfree : Kind.free ∈ F) (knewtIrq : Kind.newtIrq ∈ F) (kfieldOps : Kind.fieldOps ∈ F) (ktb : Kind.tb ∈ F) (khart : Kind.hart ∈ F) (kfiles : Kind.files ∈ F) (kgftag : Kind.gftag ∈ F) (kdie : Kind.die ∈ F) (kaplic : Kind.aplic ∈ F) (kaplicRegs : Kind.aplicRegs ∈ F) (kpaused : Kind.paused ∈ F) (kcsq : Kind.csq ∈ F) (kslots : Kind.slots ∈ F) (kposts : Kind.posts ∈ F) (klaunches : Kind.launches ∈ F) (knextLaunch : Kind.nextLaunch ∈ F) (kunitAccept : Kind.unitAccept ∈ F) (kecc : Kind.ecc ∈ F) (kreleasing : Kind.releasing ∈ F) (kviUsed : Kind.viUsed ∈ F) (kmc : Kind.mc ∈ F) (kpoison : Kind.poison ∈ F) (kxeKeys : Kind.xeKeys ∈ F) (kxeLoads : Kind.xeLoads ∈ F) (kslotKey : Kind.slotKey ∈ F) (kcache : Kind.cache ∈ F) (kplru : Kind.plru ∈ F) (kstreams : Kind.streams ∈ F) (kpitonBusy : Kind.pitonBusy ∈ F) (kslices : Kind.slices ∈ F) (kwbTag : Kind.wbTag ∈ F) (kring : Kind.ring ∈ F) (khomes : Kind.homes ∈ F) (ksf : Kind.sf ∈ F) (ksfPlru : Kind.sfPlru ∈ F) (kfaultN : Kind.faultN ∈ F) (ktxIdle : Kind.txIdle ∈ F) (klinks : Kind.links ∈ F) (ktimeWordAt : Kind.timeWordAt ∈ F) (kmesh : Kind.mesh ∈ F) (kiotlb : Kind.iotlb ∈ F) (kqueues : Kind.queues ∈ F) (kqe : Kind.qe ∈ F) (kviBytes : Kind.viBytes ∈ F) (kviPend : Kind.viPend ∈ F) (kviAdmin : Kind.viAdmin ∈ F) (kfab : Kind.fab ∈ F) (kce : Kind.ce ∈ F) (kcectx : Kind.cectx ∈ F) (kboots : Kind.boots ∈ F) (kpciOpen : Kind.pciOpen ∈ F) (kpciTag : Kind.pciTag ∈ F) (keth : Kind.eth ∈ F) (kownReq : Kind.ownReq ∈ F) (kinvReq : Kind.invReq ∈ F) (knv : Kind.nv ∈ F) (kks : Kind.ks ∈ F) (kbelay : Kind.belay ∈ F) (kpwr : Kind.pwr ∈ F) (kcaps : Kind.caps ∈ F) (kcapBusy : Kind.capBusy ∈ F) (ktrace : Kind.trace ∈ F) (ktbRegs : Kind.tbRegs ∈ F) (h : Keeps F r s) :
    ResKeeps F r (execPowerFail s) := by
  unfold execPowerFail
  try lift_lets
  repeat' first
  | with_reducible assumption
  | with_reducible apply State.supplyHold_keeps
  | with_reducible apply State.elapse_keeps
  | with_reducible apply ResKeeps.next
  | with_reducible refine ResKeeps.ite ?_ ?_

theorem execOverVoltage_keeps {F : List Kind} {r s : State} (kregs : Kind.regs ∈ F) (khregs : Kind.hregs ∈ F) (kmem : Kind.mem ∈ F) (kup : Kind.up ∈ F) (kresp : Kind.resp ∈ F) (kout : Kind.out ∈ F) (kfree : Kind.free ∈ F) (knewtIrq : Kind.newtIrq ∈ F) (kfieldOps : Kind.fieldOps ∈ F) (ktb : Kind.tb ∈ F) (khart : Kind.hart ∈ F) (kfiles : Kind.files ∈ F) (kgftag : Kind.gftag ∈ F) (kdie : Kind.die ∈ F) (kaplic : Kind.aplic ∈ F) (kaplicRegs : Kind.aplicRegs ∈ F) (kpaused : Kind.paused ∈ F) (kcsq : Kind.csq ∈ F) (kslots : Kind.slots ∈ F) (kposts : Kind.posts ∈ F) (klaunches : Kind.launches ∈ F) (knextLaunch : Kind.nextLaunch ∈ F) (kunitAccept : Kind.unitAccept ∈ F) (kecc : Kind.ecc ∈ F) (kreleasing : Kind.releasing ∈ F) (kviUsed : Kind.viUsed ∈ F) (kmc : Kind.mc ∈ F) (kpoison : Kind.poison ∈ F) (kxeKeys : Kind.xeKeys ∈ F) (kxeLoads : Kind.xeLoads ∈ F) (kslotKey : Kind.slotKey ∈ F) (kcache : Kind.cache ∈ F) (kplru : Kind.plru ∈ F) (kstreams : Kind.streams ∈ F) (kpitonBusy : Kind.pitonBusy ∈ F) (kslices : Kind.slices ∈ F) (kwbTag : Kind.wbTag ∈ F) (kring : Kind.ring ∈ F) (khomes : Kind.homes ∈ F) (ksf : Kind.sf ∈ F) (ksfPlru : Kind.sfPlru ∈ F) (kfaultN : Kind.faultN ∈ F) (ktxIdle : Kind.txIdle ∈ F) (klinks : Kind.links ∈ F) (ktimeWordAt : Kind.timeWordAt ∈ F) (kmesh : Kind.mesh ∈ F) (kiotlb : Kind.iotlb ∈ F) (kqueues : Kind.queues ∈ F) (kqe : Kind.qe ∈ F) (kviBytes : Kind.viBytes ∈ F) (kviPend : Kind.viPend ∈ F) (kviAdmin : Kind.viAdmin ∈ F) (kfab : Kind.fab ∈ F) (kce : Kind.ce ∈ F) (kcectx : Kind.cectx ∈ F) (kboots : Kind.boots ∈ F) (kpciOpen : Kind.pciOpen ∈ F) (kpciTag : Kind.pciTag ∈ F) (keth : Kind.eth ∈ F) (kownReq : Kind.ownReq ∈ F) (kinvReq : Kind.invReq ∈ F) (knv : Kind.nv ∈ F) (kks : Kind.ks ∈ F) (kbelay : Kind.belay ∈ F) (kpwr : Kind.pwr ∈ F) (kcaps : Kind.caps ∈ F) (kcapBusy : Kind.capBusy ∈ F) (ktrace : Kind.trace ∈ F) (ktbRegs : Kind.tbRegs ∈ F) (h : Keeps F r s) :
    ResKeeps F r (execOverVoltage s) := by
  unfold execOverVoltage
  try lift_lets
  repeat' first
  | with_reducible assumption
  | with_reducible apply State.supplyHold_keeps
  | with_reducible apply State.elapse_keeps
  | with_reducible apply ResKeeps.next
  | with_reducible refine ResKeeps.ite ?_ ?_

theorem State.holdEnds_keeps {F : List Kind} {r s : State} (kregs : Kind.regs ∈ F) (khregs : Kind.hregs ∈ F) (kmem : Kind.mem ∈ F) (kup : Kind.up ∈ F) (kresp : Kind.resp ∈ F) (kout : Kind.out ∈ F) (kfree : Kind.free ∈ F) (knewtIrq : Kind.newtIrq ∈ F) (kfieldOps : Kind.fieldOps ∈ F) (ktb : Kind.tb ∈ F) (khart : Kind.hart ∈ F) (kfiles : Kind.files ∈ F) (kgftag : Kind.gftag ∈ F) (kdie : Kind.die ∈ F) (kaplic : Kind.aplic ∈ F) (kaplicRegs : Kind.aplicRegs ∈ F) (kpaused : Kind.paused ∈ F) (kcsq : Kind.csq ∈ F) (kslots : Kind.slots ∈ F) (kposts : Kind.posts ∈ F) (klaunches : Kind.launches ∈ F) (knextLaunch : Kind.nextLaunch ∈ F) (kunitAccept : Kind.unitAccept ∈ F) (kecc : Kind.ecc ∈ F) (kreleasing : Kind.releasing ∈ F) (kviUsed : Kind.viUsed ∈ F) (kmc : Kind.mc ∈ F) (kpoison : Kind.poison ∈ F) (kxeKeys : Kind.xeKeys ∈ F) (kxeLoads : Kind.xeLoads ∈ F) (kslotKey : Kind.slotKey ∈ F) (kcache : Kind.cache ∈ F) (kplru : Kind.plru ∈ F) (kstreams : Kind.streams ∈ F) (kpitonBusy : Kind.pitonBusy ∈ F) (kslices : Kind.slices ∈ F) (kwbTag : Kind.wbTag ∈ F) (kring : Kind.ring ∈ F) (khomes : Kind.homes ∈ F) (ksf : Kind.sf ∈ F) (ksfPlru : Kind.sfPlru ∈ F) (kfaultN : Kind.faultN ∈ F) (ktxIdle : Kind.txIdle ∈ F) (klinks : Kind.links ∈ F) (ktimeWordAt : Kind.timeWordAt ∈ F) (kmesh : Kind.mesh ∈ F) (kiotlb : Kind.iotlb ∈ F) (kqueues : Kind.queues ∈ F) (kqe : Kind.qe ∈ F) (kviBytes : Kind.viBytes ∈ F) (kviPend : Kind.viPend ∈ F) (kviAdmin : Kind.viAdmin ∈ F) (kfab : Kind.fab ∈ F) (kce : Kind.ce ∈ F) (kcectx : Kind.cectx ∈ F) (kboots : Kind.boots ∈ F) (kpciOpen : Kind.pciOpen ∈ F) (kpciTag : Kind.pciTag ∈ F) (keth : Kind.eth ∈ F) (kownReq : Kind.ownReq ∈ F) (kinvReq : Kind.invReq ∈ F) (knv : Kind.nv ∈ F) (kks : Kind.ks ∈ F) (kbelay : Kind.belay ∈ F) (kpwr : Kind.pwr ∈ F) (kcaps : Kind.caps ∈ F) (kcapBusy : Kind.capBusy ∈ F) (ktrace : Kind.trace ∈ F) (ktbRegs : Kind.tbRegs ∈ F) (h : Keeps F r s) (cause : Nat) :
    Keeps F r (State.holdEnds s cause) := by
  unfold State.holdEnds
  try lift_lets
  repeat' first
  | with_reducible assumption
  | with_reducible apply State.packageReset_keeps
  | with_reducible apply State.setPwr_keeps

theorem execOverVoltageClear_keeps {F : List Kind} {r s : State} (kregs : Kind.regs ∈ F) (khregs : Kind.hregs ∈ F) (kmem : Kind.mem ∈ F) (kup : Kind.up ∈ F) (kresp : Kind.resp ∈ F) (kout : Kind.out ∈ F) (kfree : Kind.free ∈ F) (knewtIrq : Kind.newtIrq ∈ F) (kfieldOps : Kind.fieldOps ∈ F) (ktb : Kind.tb ∈ F) (khart : Kind.hart ∈ F) (kfiles : Kind.files ∈ F) (kgftag : Kind.gftag ∈ F) (kdie : Kind.die ∈ F) (kaplic : Kind.aplic ∈ F) (kaplicRegs : Kind.aplicRegs ∈ F) (kpaused : Kind.paused ∈ F) (kcsq : Kind.csq ∈ F) (kslots : Kind.slots ∈ F) (kposts : Kind.posts ∈ F) (klaunches : Kind.launches ∈ F) (knextLaunch : Kind.nextLaunch ∈ F) (kunitAccept : Kind.unitAccept ∈ F) (kecc : Kind.ecc ∈ F) (kreleasing : Kind.releasing ∈ F) (kviUsed : Kind.viUsed ∈ F) (kmc : Kind.mc ∈ F) (kpoison : Kind.poison ∈ F) (kxeKeys : Kind.xeKeys ∈ F) (kxeLoads : Kind.xeLoads ∈ F) (kslotKey : Kind.slotKey ∈ F) (kcache : Kind.cache ∈ F) (kplru : Kind.plru ∈ F) (kstreams : Kind.streams ∈ F) (kpitonBusy : Kind.pitonBusy ∈ F) (kslices : Kind.slices ∈ F) (kwbTag : Kind.wbTag ∈ F) (kring : Kind.ring ∈ F) (khomes : Kind.homes ∈ F) (ksf : Kind.sf ∈ F) (ksfPlru : Kind.sfPlru ∈ F) (kfaultN : Kind.faultN ∈ F) (ktxIdle : Kind.txIdle ∈ F) (klinks : Kind.links ∈ F) (ktimeWordAt : Kind.timeWordAt ∈ F) (kmesh : Kind.mesh ∈ F) (kiotlb : Kind.iotlb ∈ F) (kqueues : Kind.queues ∈ F) (kqe : Kind.qe ∈ F) (kviBytes : Kind.viBytes ∈ F) (kviPend : Kind.viPend ∈ F) (kviAdmin : Kind.viAdmin ∈ F) (kfab : Kind.fab ∈ F) (kce : Kind.ce ∈ F) (kcectx : Kind.cectx ∈ F) (kboots : Kind.boots ∈ F) (kpciOpen : Kind.pciOpen ∈ F) (kpciTag : Kind.pciTag ∈ F) (keth : Kind.eth ∈ F) (kownReq : Kind.ownReq ∈ F) (kinvReq : Kind.invReq ∈ F) (knv : Kind.nv ∈ F) (kks : Kind.ks ∈ F) (kbelay : Kind.belay ∈ F) (kpwr : Kind.pwr ∈ F) (kcaps : Kind.caps ∈ F) (kcapBusy : Kind.capBusy ∈ F) (ktrace : Kind.trace ∈ F) (ktbRegs : Kind.tbRegs ∈ F) (h : Keeps F r s) :
    ResKeeps F r (execOverVoltageClear s) := by
  unfold execOverVoltageClear
  try lift_lets
  repeat' first
  | with_reducible assumption
  | with_reducible apply State.holdEnds_keeps
  | with_reducible apply ResKeeps.next
  | with_reducible refine ResKeeps.ite ?_ ?_

theorem State.setBoots_keeps {F : List Kind} {r s : State} (kboots : Kind.boots ∈ F) (h : Keeps F r s) (n : Nat) :
    Keeps F r (State.setBoots s n) := by
  unfold State.setBoots
  try lift_lets
  repeat' first
  | with_reducible assumption
  | exact Or.inl (by with_reducible assumption)
  | (refine Or.inr ?_; (repeat with_reducible apply Nat.le_add_right_of_le); first | decide | omega)
  | with_reducible rfl
  | (with_reducible refine Keeps.upd ?_ rfl rfl rfl rfl rfl rfl rfl rfl ?_ ?_ ?_ ?_ ?_ ?_ ?_ ?_ ?_ ?_ ?_ ?_ ?_ ?_ ?_ ?_ ?_ ?_ ?_ ?_ ?_ ?_ ?_ ?_ ?_ ?_ ?_ ?_ ?_ ?_ ?_ ?_ ?_ ?_ ?_ ?_ ?_ ?_ ?_ ?_ ?_ ?_ ?_ ?_ ?_ ?_ ?_ ?_ ?_ ?_ ?_ ?_ ?_ ?_ ?_ ?_ ?_ ?_ ?_ ?_ ?_ ?_ ?_ <;> first | with_reducible assumption | with_reducible exact Or.inr rfl | with_reducible exact Or.inl (by assumption))
  | with_reducible refine Keeps.ite ?_ ?_
  | with_reducible refine OptKeeps.get (by with_reducible assumption) ?_
  | with_reducible refine Keeps.elim ?_ ?_
  | with_reducible refine Keeps.foldl_fst ?_ _ _ ?_
  | with_reducible refine Keeps.foldl ?_ _ _ ?_
  | split
  | (with_reducible intro x; refine Keeps.cut (F := F) (r := r) (s := x) ?_ (fun hx => ?_); on_goal 2 => clear_value x)
  | (with_reducible intro x; refine Keeps.cut (F := F) (r := r) (s := x.1) ?_ (fun hx => ?_); on_goal 2 => clear_value x)
  | (with_reducible intro y)
  | (lift_lets; with_reducible intro x; refine Keeps.cut (F := F) (r := r) (s := x) ?_ (fun hx => ?_); on_goal 2 => clear_value x)
  | (lift_lets; with_reducible intro x; refine Keeps.cut (F := F) (r := r) (s := x.1) ?_ (fun hx => ?_); on_goal 2 => clear_value x)
  | (lift_lets; with_reducible intro y)
  | simp only [id]
  | dsimp only

theorem execVinRise_keeps {F : List Kind} {r s : State} (kregs : Kind.regs ∈ F) (khregs : Kind.hregs ∈ F) (kmem : Kind.mem ∈ F) (kup : Kind.up ∈ F) (kresp : Kind.resp ∈ F) (kout : Kind.out ∈ F) (kfree : Kind.free ∈ F) (knewtIrq : Kind.newtIrq ∈ F) (kfieldOps : Kind.fieldOps ∈ F) (ktb : Kind.tb ∈ F) (khart : Kind.hart ∈ F) (kfiles : Kind.files ∈ F) (kgftag : Kind.gftag ∈ F) (kdie : Kind.die ∈ F) (kaplic : Kind.aplic ∈ F) (kaplicRegs : Kind.aplicRegs ∈ F) (kpaused : Kind.paused ∈ F) (kcsq : Kind.csq ∈ F) (kslots : Kind.slots ∈ F) (kposts : Kind.posts ∈ F) (klaunches : Kind.launches ∈ F) (knextLaunch : Kind.nextLaunch ∈ F) (kunitAccept : Kind.unitAccept ∈ F) (kecc : Kind.ecc ∈ F) (kreleasing : Kind.releasing ∈ F) (kviUsed : Kind.viUsed ∈ F) (kmc : Kind.mc ∈ F) (kpoison : Kind.poison ∈ F) (kxeKeys : Kind.xeKeys ∈ F) (kxeLoads : Kind.xeLoads ∈ F) (kslotKey : Kind.slotKey ∈ F) (kcache : Kind.cache ∈ F) (kplru : Kind.plru ∈ F) (kstreams : Kind.streams ∈ F) (kpitonBusy : Kind.pitonBusy ∈ F) (kslices : Kind.slices ∈ F) (kwbTag : Kind.wbTag ∈ F) (kring : Kind.ring ∈ F) (khomes : Kind.homes ∈ F) (ksf : Kind.sf ∈ F) (ksfPlru : Kind.sfPlru ∈ F) (kfaultN : Kind.faultN ∈ F) (ktxIdle : Kind.txIdle ∈ F) (klinks : Kind.links ∈ F) (ktimeWordAt : Kind.timeWordAt ∈ F) (kmesh : Kind.mesh ∈ F) (kiotlb : Kind.iotlb ∈ F) (kqueues : Kind.queues ∈ F) (kqe : Kind.qe ∈ F) (kviBytes : Kind.viBytes ∈ F) (kviPend : Kind.viPend ∈ F) (kviAdmin : Kind.viAdmin ∈ F) (kfab : Kind.fab ∈ F) (kce : Kind.ce ∈ F) (kcectx : Kind.cectx ∈ F) (kboots : Kind.boots ∈ F) (kpciOpen : Kind.pciOpen ∈ F) (kpciTag : Kind.pciTag ∈ F) (keth : Kind.eth ∈ F) (kownReq : Kind.ownReq ∈ F) (kinvReq : Kind.invReq ∈ F) (knv : Kind.nv ∈ F) (kks : Kind.ks ∈ F) (kbelay : Kind.belay ∈ F) (kpwr : Kind.pwr ∈ F) (kcaps : Kind.caps ∈ F) (kcapBusy : Kind.capBusy ∈ F) (ktrace : Kind.trace ∈ F) (ktbRegs : Kind.tbRegs ∈ F) (h : Keeps F r s)  :
    ResKeeps F r (execVinRise s) := by
  unfold execVinRise
  try lift_lets
  repeat' first
  | with_reducible assumption
  | exact Or.inl (by with_reducible assumption)
  | (refine Or.inr ?_; (repeat with_reducible apply Nat.le_add_right_of_le); first | decide | omega)
  | with_reducible rfl
  | with_reducible apply State.holdEnds_keeps
  | with_reducible apply State.setPhase_keeps
  | with_reducible apply State.initBlocks_keeps
  | with_reducible apply State.setPwr_keeps
  | with_reducible apply State.setBoots_keeps
  | with_reducible apply ResKeeps.next
  | with_reducible refine ResKeeps.ite ?_ ?_
  | with_reducible refine Keeps.ite ?_ ?_
  | with_reducible refine OptKeeps.get (by with_reducible assumption) ?_
  | with_reducible refine Keeps.elim ?_ ?_
  | with_reducible refine Keeps.foldl_fst ?_ _ _ ?_
  | with_reducible refine Keeps.foldl ?_ _ _ ?_
  | split
  | (with_reducible intro x; refine Keeps.cut (F := F) (r := r) (s := x) ?_ (fun hx => ?_); on_goal 2 => clear_value x)
  | (with_reducible intro x; refine Keeps.cut (F := F) (r := r) (s := x.1) ?_ (fun hx => ?_); on_goal 2 => clear_value x)
  | (with_reducible intro y)
  | (lift_lets; with_reducible intro x; refine Keeps.cut (F := F) (r := r) (s := x) ?_ (fun hx => ?_); on_goal 2 => clear_value x)
  | (lift_lets; with_reducible intro x; refine Keeps.cut (F := F) (r := r) (s := x.1) ?_ (fun hx => ?_); on_goal 2 => clear_value x)
  | (lift_lets; with_reducible intro y)
  | simp only [id]
  | dsimp only

theorem execStartDelayExpire_keeps {F : List Kind} {r s : State} (kregs : Kind.regs ∈ F) (kup : Kind.up ∈ F) (kresp : Kind.resp ∈ F) (knewtIrq : Kind.newtIrq ∈ F) (kfieldOps : Kind.fieldOps ∈ F) (ktb : Kind.tb ∈ F) (kfiles : Kind.files ∈ F) (kaplic : Kind.aplic ∈ F) (kpaused : Kind.paused ∈ F) (kpwr : Kind.pwr ∈ F) (kcaps : Kind.caps ∈ F) (kcapBusy : Kind.capBusy ∈ F) (h : Keeps F r s) :
    ResKeeps F r (execStartDelayExpire s) := by
  unfold execStartDelayExpire
  try lift_lets
  repeat' first
  | with_reducible assumption
  | with_reducible apply State.setPhase_keeps
  | with_reducible apply State.elapse_keeps
  | with_reducible apply ResKeeps.next
  | with_reducible refine ResKeeps.ite ?_ ?_

theorem execSoftStartDone_keeps {F : List Kind} {r s : State} (kregs : Kind.regs ∈ F) (kup : Kind.up ∈ F) (kresp : Kind.resp ∈ F) (knewtIrq : Kind.newtIrq ∈ F) (kfieldOps : Kind.fieldOps ∈ F) (ktb : Kind.tb ∈ F) (kfiles : Kind.files ∈ F) (kaplic : Kind.aplic ∈ F) (kpaused : Kind.paused ∈ F) (kpwr : Kind.pwr ∈ F) (kcaps : Kind.caps ∈ F) (kcapBusy : Kind.capBusy ∈ F) (h : Keeps F r s) :
    ResKeeps F r (execSoftStartDone s) := by
  unfold execSoftStartDone
  try lift_lets
  repeat' first
  | with_reducible assumption
  | with_reducible apply State.setPhase_keeps
  | with_reducible apply State.elapse_keeps
  | with_reducible apply State.setPwr_keeps
  | with_reducible apply ResKeeps.next
  | with_reducible refine ResKeeps.ite ?_ ?_

theorem execRefclkDetect_keeps {F : List Kind} {r s : State} (kregs : Kind.regs ∈ F) (khregs : Kind.hregs ∈ F) (kmem : Kind.mem ∈ F) (kup : Kind.up ∈ F) (kresp : Kind.resp ∈ F) (kout : Kind.out ∈ F) (kfree : Kind.free ∈ F) (knewtIrq : Kind.newtIrq ∈ F) (kfieldOps : Kind.fieldOps ∈ F) (ktb : Kind.tb ∈ F) (khart : Kind.hart ∈ F) (kfiles : Kind.files ∈ F) (kgftag : Kind.gftag ∈ F) (kdie : Kind.die ∈ F) (kaplic : Kind.aplic ∈ F) (kaplicRegs : Kind.aplicRegs ∈ F) (kpaused : Kind.paused ∈ F) (kcsq : Kind.csq ∈ F) (kslots : Kind.slots ∈ F) (kposts : Kind.posts ∈ F) (klaunches : Kind.launches ∈ F) (knextLaunch : Kind.nextLaunch ∈ F) (kunitAccept : Kind.unitAccept ∈ F) (kecc : Kind.ecc ∈ F) (kreleasing : Kind.releasing ∈ F) (kviUsed : Kind.viUsed ∈ F) (kmc : Kind.mc ∈ F) (kpoison : Kind.poison ∈ F) (kxeKeys : Kind.xeKeys ∈ F) (kxeLoads : Kind.xeLoads ∈ F) (kslotKey : Kind.slotKey ∈ F) (kcache : Kind.cache ∈ F) (kplru : Kind.plru ∈ F) (kstreams : Kind.streams ∈ F) (kpitonBusy : Kind.pitonBusy ∈ F) (kslices : Kind.slices ∈ F) (kwbTag : Kind.wbTag ∈ F) (kring : Kind.ring ∈ F) (khomes : Kind.homes ∈ F) (ksf : Kind.sf ∈ F) (ksfPlru : Kind.sfPlru ∈ F) (kfaultN : Kind.faultN ∈ F) (ktxIdle : Kind.txIdle ∈ F) (klinks : Kind.links ∈ F) (ktimeWordAt : Kind.timeWordAt ∈ F) (kmesh : Kind.mesh ∈ F) (kiotlb : Kind.iotlb ∈ F) (kqueues : Kind.queues ∈ F) (kqe : Kind.qe ∈ F) (kviBytes : Kind.viBytes ∈ F) (kviPend : Kind.viPend ∈ F) (kviAdmin : Kind.viAdmin ∈ F) (kfab : Kind.fab ∈ F) (kce : Kind.ce ∈ F) (kcectx : Kind.cectx ∈ F) (kboots : Kind.boots ∈ F) (kpciOpen : Kind.pciOpen ∈ F) (kpciTag : Kind.pciTag ∈ F) (keth : Kind.eth ∈ F) (kownReq : Kind.ownReq ∈ F) (kinvReq : Kind.invReq ∈ F) (knv : Kind.nv ∈ F) (kks : Kind.ks ∈ F) (kbelay : Kind.belay ∈ F) (kpwr : Kind.pwr ∈ F) (kcaps : Kind.caps ∈ F) (kcapBusy : Kind.capBusy ∈ F) (ktrace : Kind.trace ∈ F) (ktbRegs : Kind.tbRegs ∈ F) (h : Keeps F r s) (grade : Fin 4) (serial : Word) (pci : Bool) :
    ResKeeps F r (execRefclkDetect grade serial pci s) := by
  unfold execRefclkDetect
  try lift_lets
  repeat' first
  | with_reducible assumption
  | exact Or.inl (by with_reducible assumption)
  | with_reducible apply State.initBlocks_keeps
  | with_reducible apply State.wr_keeps
  | with_reducible apply State.put_keeps
  | with_reducible apply State.forAll_keeps
  | with_reducible apply State.setKs_keeps
  | with_reducible apply ResKeeps.next
  | with_reducible refine ResKeeps.ite ?_ ?_
  | (intro y)

theorem execResetNAssert_keeps {F : List Kind} {r s : State} (kregs : Kind.regs ∈ F) (khregs : Kind.hregs ∈ F) (kmem : Kind.mem ∈ F) (kup : Kind.up ∈ F) (kresp : Kind.resp ∈ F) (kout : Kind.out ∈ F) (kfree : Kind.free ∈ F) (knewtIrq : Kind.newtIrq ∈ F) (kfieldOps : Kind.fieldOps ∈ F) (ktb : Kind.tb ∈ F) (khart : Kind.hart ∈ F) (kfiles : Kind.files ∈ F) (kgftag : Kind.gftag ∈ F) (kdie : Kind.die ∈ F) (kaplic : Kind.aplic ∈ F) (kaplicRegs : Kind.aplicRegs ∈ F) (kpaused : Kind.paused ∈ F) (kcsq : Kind.csq ∈ F) (kslots : Kind.slots ∈ F) (kposts : Kind.posts ∈ F) (klaunches : Kind.launches ∈ F) (knextLaunch : Kind.nextLaunch ∈ F) (kunitAccept : Kind.unitAccept ∈ F) (kecc : Kind.ecc ∈ F) (kreleasing : Kind.releasing ∈ F) (kviUsed : Kind.viUsed ∈ F) (kmc : Kind.mc ∈ F) (kpoison : Kind.poison ∈ F) (kxeKeys : Kind.xeKeys ∈ F) (kxeLoads : Kind.xeLoads ∈ F) (kslotKey : Kind.slotKey ∈ F) (kcache : Kind.cache ∈ F) (kplru : Kind.plru ∈ F) (kstreams : Kind.streams ∈ F) (kpitonBusy : Kind.pitonBusy ∈ F) (kslices : Kind.slices ∈ F) (kwbTag : Kind.wbTag ∈ F) (kring : Kind.ring ∈ F) (khomes : Kind.homes ∈ F) (ksf : Kind.sf ∈ F) (ksfPlru : Kind.sfPlru ∈ F) (kfaultN : Kind.faultN ∈ F) (ktxIdle : Kind.txIdle ∈ F) (klinks : Kind.links ∈ F) (ktimeWordAt : Kind.timeWordAt ∈ F) (kmesh : Kind.mesh ∈ F) (kiotlb : Kind.iotlb ∈ F) (kqueues : Kind.queues ∈ F) (kqe : Kind.qe ∈ F) (kviBytes : Kind.viBytes ∈ F) (kviPend : Kind.viPend ∈ F) (kviAdmin : Kind.viAdmin ∈ F) (kfab : Kind.fab ∈ F) (kce : Kind.ce ∈ F) (kcectx : Kind.cectx ∈ F) (kboots : Kind.boots ∈ F) (kpciOpen : Kind.pciOpen ∈ F) (kpciTag : Kind.pciTag ∈ F) (keth : Kind.eth ∈ F) (kownReq : Kind.ownReq ∈ F) (kinvReq : Kind.invReq ∈ F) (knv : Kind.nv ∈ F) (kks : Kind.ks ∈ F) (kbelay : Kind.belay ∈ F) (kpwr : Kind.pwr ∈ F) (kcaps : Kind.caps ∈ F) (kcapBusy : Kind.capBusy ∈ F) (ktrace : Kind.trace ∈ F) (ktbRegs : Kind.tbRegs ∈ F) (h : Keeps F r s) :
    ResKeeps F r (execResetNAssert s) := by
  unfold execResetNAssert
  try lift_lets
  repeat' first
  | with_reducible assumption
  | (intro x; refine Keeps.cut (F := F) (r := r) (s := x) ?_ (fun hx => ?_); on_goal 2 => clear_value x)
  | (intro x; clear_value x)
  | with_reducible apply State.setPwr_keeps
  | with_reducible apply State.packageReset_keeps
  | with_reducible apply State.elapse_keeps
  | with_reducible apply ResKeeps.next
  | split

theorem execResetNRelease_keeps {F : List Kind} {r s : State} (kpwr : Kind.pwr ∈ F) (h : Keeps F r s) :
    ResKeeps F r (execResetNRelease s) := by
  unfold execResetNRelease
  try lift_lets
  repeat' first
  | with_reducible assumption
  | with_reducible apply State.setPwr_keeps
  | with_reducible apply State.setPhase_keeps
  | with_reducible apply ResKeeps.next
  | with_reducible refine ResKeeps.ite ?_ ?_

theorem execBelayExpire_keeps {F : List Kind} {r s : State} (kregs : Kind.regs ∈ F) (khregs : Kind.hregs ∈ F) (kmem : Kind.mem ∈ F) (kup : Kind.up ∈ F) (kresp : Kind.resp ∈ F) (kout : Kind.out ∈ F) (kfree : Kind.free ∈ F) (knewtIrq : Kind.newtIrq ∈ F) (kfieldOps : Kind.fieldOps ∈ F) (ktb : Kind.tb ∈ F) (khart : Kind.hart ∈ F) (kfiles : Kind.files ∈ F) (kgftag : Kind.gftag ∈ F) (kdie : Kind.die ∈ F) (kaplic : Kind.aplic ∈ F) (kaplicRegs : Kind.aplicRegs ∈ F) (kpaused : Kind.paused ∈ F) (kcsq : Kind.csq ∈ F) (kslots : Kind.slots ∈ F) (kposts : Kind.posts ∈ F) (klaunches : Kind.launches ∈ F) (knextLaunch : Kind.nextLaunch ∈ F) (kunitAccept : Kind.unitAccept ∈ F) (kecc : Kind.ecc ∈ F) (kreleasing : Kind.releasing ∈ F) (kviUsed : Kind.viUsed ∈ F) (kmc : Kind.mc ∈ F) (kpoison : Kind.poison ∈ F) (kxeKeys : Kind.xeKeys ∈ F) (kxeLoads : Kind.xeLoads ∈ F) (kslotKey : Kind.slotKey ∈ F) (kcache : Kind.cache ∈ F) (kplru : Kind.plru ∈ F) (kstreams : Kind.streams ∈ F) (kpitonBusy : Kind.pitonBusy ∈ F) (kslices : Kind.slices ∈ F) (kwbTag : Kind.wbTag ∈ F) (kring : Kind.ring ∈ F) (khomes : Kind.homes ∈ F) (ksf : Kind.sf ∈ F) (ksfPlru : Kind.sfPlru ∈ F) (kfaultN : Kind.faultN ∈ F) (ktxIdle : Kind.txIdle ∈ F) (klinks : Kind.links ∈ F) (ktimeWordAt : Kind.timeWordAt ∈ F) (kmesh : Kind.mesh ∈ F) (kiotlb : Kind.iotlb ∈ F) (kqueues : Kind.queues ∈ F) (kqe : Kind.qe ∈ F) (kviBytes : Kind.viBytes ∈ F) (kviPend : Kind.viPend ∈ F) (kviAdmin : Kind.viAdmin ∈ F) (kfab : Kind.fab ∈ F) (kce : Kind.ce ∈ F) (kcectx : Kind.cectx ∈ F) (kboots : Kind.boots ∈ F) (kpciOpen : Kind.pciOpen ∈ F) (kpciTag : Kind.pciTag ∈ F) (keth : Kind.eth ∈ F) (kownReq : Kind.ownReq ∈ F) (kinvReq : Kind.invReq ∈ F) (knv : Kind.nv ∈ F) (kks : Kind.ks ∈ F) (kbelay : Kind.belay ∈ F) (kpwr : Kind.pwr ∈ F) (kcaps : Kind.caps ∈ F) (kcapBusy : Kind.capBusy ∈ F) (ktrace : Kind.trace ∈ F) (ktbRegs : Kind.tbRegs ∈ F) (h : Keeps F r s) :
    ResKeeps F r (execBelayExpire s) := by
  unfold execBelayExpire
  try lift_lets
  repeat' first
  | with_reducible assumption
  | exact Or.inl (by with_reducible assumption)
  | with_reducible apply State.elapseUntil_keeps
  | with_reducible apply State.put_keeps
  | with_reducible apply State.packageReset_keeps
  | with_reducible apply State.evqEvent_keeps
  | with_reducible apply ResKeeps.next
  | with_reducible refine ResKeeps.ite ?_ ?_

theorem State.rstResult_keeps {F : List Kind} {r s : State} (kregs : Kind.regs ∈ F) (kpwr : Kind.pwr ∈ F) (h : Keeps F r s) (st : Nat) :
    Keeps F r (State.rstResult s st) := by
  unfold State.rstResult
  try lift_lets
  repeat' first
  | with_reducible assumption
  | (refine Or.inr ?_; (repeat with_reducible apply Nat.le_add_right_of_le); first | decide | omega)
  | with_reducible apply State.put_keeps
  | with_reducible apply State.setPwr_keeps

theorem State.rstStart_keeps {F : List Kind} {r s : State} (kout : Kind.out ∈ F) (khart : Kind.hart ∈ F) (kdie : Kind.die ∈ F) (kwbTag : Kind.wbTag ∈ F) (kpwr : Kind.pwr ∈ F) (h : Keeps F r s) :
    Keeps F r (State.rstStart s) := by
  unfold State.rstStart
  try lift_lets
  repeat' first
  | with_reducible assumption
  | with_reducible apply State.setPwr_keeps
  | with_reducible apply State.clusterHold_keeps
  | split

theorem State.writeRstCmd_keeps {F : List Kind} {r s : State} (kregs : Kind.regs ∈ F) (khregs : Kind.hregs ∈ F) (kmem : Kind.mem ∈ F) (kup : Kind.up ∈ F) (kresp : Kind.resp ∈ F) (kout : Kind.out ∈ F) (kfree : Kind.free ∈ F) (knewtIrq : Kind.newtIrq ∈ F) (kfieldOps : Kind.fieldOps ∈ F) (ktb : Kind.tb ∈ F) (khart : Kind.hart ∈ F) (kfiles : Kind.files ∈ F) (kgftag : Kind.gftag ∈ F) (kdie : Kind.die ∈ F) (kaplic : Kind.aplic ∈ F) (kaplicRegs : Kind.aplicRegs ∈ F) (kpaused : Kind.paused ∈ F) (kcsq : Kind.csq ∈ F) (kslots : Kind.slots ∈ F) (kposts : Kind.posts ∈ F) (klaunches : Kind.launches ∈ F) (knextLaunch : Kind.nextLaunch ∈ F) (kunitAccept : Kind.unitAccept ∈ F) (kecc : Kind.ecc ∈ F) (kreleasing : Kind.releasing ∈ F) (kviUsed : Kind.viUsed ∈ F) (kmc : Kind.mc ∈ F) (kpoison : Kind.poison ∈ F) (kxeKeys : Kind.xeKeys ∈ F) (kxeLoads : Kind.xeLoads ∈ F) (kslotKey : Kind.slotKey ∈ F) (kcache : Kind.cache ∈ F) (kplru : Kind.plru ∈ F) (kstreams : Kind.streams ∈ F) (kpitonBusy : Kind.pitonBusy ∈ F) (kslices : Kind.slices ∈ F) (kwbTag : Kind.wbTag ∈ F) (kring : Kind.ring ∈ F) (khomes : Kind.homes ∈ F) (ksf : Kind.sf ∈ F) (ksfPlru : Kind.sfPlru ∈ F) (kfaultN : Kind.faultN ∈ F) (ktxIdle : Kind.txIdle ∈ F) (klinks : Kind.links ∈ F) (ktimeWordAt : Kind.timeWordAt ∈ F) (kmesh : Kind.mesh ∈ F) (kiotlb : Kind.iotlb ∈ F) (kqueues : Kind.queues ∈ F) (kqe : Kind.qe ∈ F) (kviBytes : Kind.viBytes ∈ F) (kviPend : Kind.viPend ∈ F) (kviAdmin : Kind.viAdmin ∈ F) (kfab : Kind.fab ∈ F) (kce : Kind.ce ∈ F) (kcectx : Kind.cectx ∈ F) (kboots : Kind.boots ∈ F) (kpciOpen : Kind.pciOpen ∈ F) (kpciTag : Kind.pciTag ∈ F) (keth : Kind.eth ∈ F) (kownReq : Kind.ownReq ∈ F) (kinvReq : Kind.invReq ∈ F) (knv : Kind.nv ∈ F) (kks : Kind.ks ∈ F) (kbelay : Kind.belay ∈ F) (kpwr : Kind.pwr ∈ F) (kcaps : Kind.caps ∈ F) (kcapBusy : Kind.capBusy ∈ F) (ktrace : Kind.trace ∈ F) (ktbRegs : Kind.tbRegs ∈ F) (h : Keeps F r s) (c : Issuer) (v : Nat) :
    Keeps F r (State.writeRstCmd s c v) := by
  unfold State.writeRstCmd
  try lift_lets
  repeat' first
  | with_reducible assumption
  | exact Or.inl (by with_reducible assumption)
  | (refine Or.inr ?_; (repeat with_reducible apply Nat.le_add_right_of_le); first | decide | omega)
  | with_reducible rfl
  | with_reducible apply State.goEarly_keeps
  | with_reducible apply State.put_keeps
  | with_reducible apply State.elapse_keeps
  | with_reducible apply State.packageReset_keeps
  | with_reducible apply State.rstResult_keeps
  | with_reducible apply State.setPwrReqs_keeps
  | with_reducible apply State.setPwr_keeps
  | with_reducible apply State.dieResetStart_keeps
  | with_reducible apply State.rstStart_keeps
  | with_reducible refine Keeps.ite ?_ ?_
  | with_reducible refine OptKeeps.get (by with_reducible assumption) ?_
  | with_reducible refine Keeps.elim ?_ ?_
  | with_reducible refine Keeps.foldl_fst ?_ _ _ ?_
  | with_reducible refine Keeps.foldl ?_ _ _ ?_
  | split
  | (with_reducible intro x; refine Keeps.cut (F := F) (r := r) (s := x) ?_ (fun hx => ?_); on_goal 2 => clear_value x)
  | (with_reducible intro x; refine Keeps.cut (F := F) (r := r) (s := x.1) ?_ (fun hx => ?_); on_goal 2 => clear_value x)
  | (with_reducible intro y)
  | (lift_lets; with_reducible intro x; refine Keeps.cut (F := F) (r := r) (s := x) ?_ (fun hx => ?_); on_goal 2 => clear_value x)
  | (lift_lets; with_reducible intro x; refine Keeps.cut (F := F) (r := r) (s := x.1) ?_ (fun hx => ?_); on_goal 2 => clear_value x)
  | (lift_lets; with_reducible intro y)
  | simp only [id]
  | dsimp only

theorem State.pwrGuard_keeps {F : List Kind} {r s : State} (kregs : Kind.regs ∈ F) (kresp : Kind.resp ∈ F) (knewtIrq : Kind.newtIrq ∈ F) (kfieldOps : Kind.fieldOps ∈ F) (kpaused : Kind.paused ∈ F) (kcaps : Kind.caps ∈ F) (kcapBusy : Kind.capBusy ∈ F) (h : Keeps F r s) (c : Issuer) (key : Nat) (f : State → State) (hf : ∀ x, Keeps F r x → Keeps F r (f x)) :
    Keeps F r (State.pwrGuard s c key f) := by
  unfold State.pwrGuard
  try lift_lets
  repeat' first
  | with_reducible assumption
  | with_reducible apply hf
  | with_reducible apply State.answer_keeps
  | with_reducible apply State.worldError_keeps
  | with_reducible refine Keeps.ite ?_ ?_

theorem execPackageResetCmd_keeps {F : List Kind} {r s : State} (kregs : Kind.regs ∈ F) (khregs : Kind.hregs ∈ F) (kmem : Kind.mem ∈ F) (kup : Kind.up ∈ F) (kresp : Kind.resp ∈ F) (kout : Kind.out ∈ F) (kfree : Kind.free ∈ F) (knewtIrq : Kind.newtIrq ∈ F) (kfieldOps : Kind.fieldOps ∈ F) (ktb : Kind.tb ∈ F) (khart : Kind.hart ∈ F) (kfiles : Kind.files ∈ F) (kgftag : Kind.gftag ∈ F) (kdie : Kind.die ∈ F) (kaplic : Kind.aplic ∈ F) (kaplicRegs : Kind.aplicRegs ∈ F) (kpaused : Kind.paused ∈ F) (kcsq : Kind.csq ∈ F) (kslots : Kind.slots ∈ F) (kposts : Kind.posts ∈ F) (klaunches : Kind.launches ∈ F) (knextLaunch : Kind.nextLaunch ∈ F) (kunitAccept : Kind.unitAccept ∈ F) (kecc : Kind.ecc ∈ F) (kreleasing : Kind.releasing ∈ F) (kviUsed : Kind.viUsed ∈ F) (kmc : Kind.mc ∈ F) (kpoison : Kind.poison ∈ F) (kxeKeys : Kind.xeKeys ∈ F) (kxeLoads : Kind.xeLoads ∈ F) (kslotKey : Kind.slotKey ∈ F) (kcache : Kind.cache ∈ F) (kplru : Kind.plru ∈ F) (kstreams : Kind.streams ∈ F) (kpitonBusy : Kind.pitonBusy ∈ F) (kslices : Kind.slices ∈ F) (kwbTag : Kind.wbTag ∈ F) (kring : Kind.ring ∈ F) (khomes : Kind.homes ∈ F) (ksf : Kind.sf ∈ F) (ksfPlru : Kind.sfPlru ∈ F) (kfaultN : Kind.faultN ∈ F) (ktxIdle : Kind.txIdle ∈ F) (klinks : Kind.links ∈ F) (ktimeWordAt : Kind.timeWordAt ∈ F) (kmesh : Kind.mesh ∈ F) (kiotlb : Kind.iotlb ∈ F) (kqueues : Kind.queues ∈ F) (kqe : Kind.qe ∈ F) (kviBytes : Kind.viBytes ∈ F) (kviPend : Kind.viPend ∈ F) (kviAdmin : Kind.viAdmin ∈ F) (kfab : Kind.fab ∈ F) (kce : Kind.ce ∈ F) (kcectx : Kind.cectx ∈ F) (kboots : Kind.boots ∈ F) (kpciOpen : Kind.pciOpen ∈ F) (kpciTag : Kind.pciTag ∈ F) (keth : Kind.eth ∈ F) (kownReq : Kind.ownReq ∈ F) (kinvReq : Kind.invReq ∈ F) (knv : Kind.nv ∈ F) (kks : Kind.ks ∈ F) (kbelay : Kind.belay ∈ F) (kpwr : Kind.pwr ∈ F) (kcaps : Kind.caps ∈ F) (kcapBusy : Kind.capBusy ∈ F) (ktrace : Kind.trace ∈ F) (ktbRegs : Kind.tbRegs ∈ F) (h : Keeps F r s) (c : Issuer) (v : Word) :
    ResKeeps F r (execPackageResetCmd c v s) := by
  unfold execPackageResetCmd
  try lift_lets
  repeat' first
  | with_reducible assumption
  | exact Or.inl (by with_reducible assumption)
  | (refine Or.inr ?_; (repeat with_reducible apply Nat.le_add_right_of_le); first | decide | omega)
  | with_reducible rfl
  | with_reducible apply State.issue_keeps
  | with_reducible apply State.pwrGuard_keeps
  | with_reducible apply State.writeRstCmd_keeps
  | with_reducible apply ResKeeps.next
  | with_reducible refine ResKeeps.ite ?_ ?_
  | with_reducible refine Keeps.ite ?_ ?_
  | with_reducible refine OptKeeps.get (by with_reducible assumption) ?_
  | with_reducible refine Keeps.elim ?_ ?_
  | with_reducible refine Keeps.foldl_fst ?_ _ _ ?_
  | with_reducible refine Keeps.foldl ?_ _ _ ?_
  | split
  | (with_reducible intro x; refine Keeps.cut (F := F) (r := r) (s := x) ?_ (fun hx => ?_); on_goal 2 => clear_value x)
  | (with_reducible intro x; refine Keeps.cut (F := F) (r := r) (s := x.1) ?_ (fun hx => ?_); on_goal 2 => clear_value x)
  | (with_reducible intro y)
  | (lift_lets; with_reducible intro x; refine Keeps.cut (F := F) (r := r) (s := x) ?_ (fun hx => ?_); on_goal 2 => clear_value x)
  | (lift_lets; with_reducible intro x; refine Keeps.cut (F := F) (r := r) (s := x.1) ?_ (fun hx => ?_); on_goal 2 => clear_value x)
  | (lift_lets; with_reducible intro y)
  | simp only [id]
  | dsimp only

theorem execDieResetCmd_keeps {F : List Kind} {r s : State} (kregs : Kind.regs ∈ F) (khregs : Kind.hregs ∈ F) (kmem : Kind.mem ∈ F) (kup : Kind.up ∈ F) (kresp : Kind.resp ∈ F) (kout : Kind.out ∈ F) (kfree : Kind.free ∈ F) (knewtIrq : Kind.newtIrq ∈ F) (kfieldOps : Kind.fieldOps ∈ F) (ktb : Kind.tb ∈ F) (khart : Kind.hart ∈ F) (kfiles : Kind.files ∈ F) (kgftag : Kind.gftag ∈ F) (kdie : Kind.die ∈ F) (kaplic : Kind.aplic ∈ F) (kaplicRegs : Kind.aplicRegs ∈ F) (kpaused : Kind.paused ∈ F) (kcsq : Kind.csq ∈ F) (kslots : Kind.slots ∈ F) (kposts : Kind.posts ∈ F) (klaunches : Kind.launches ∈ F) (knextLaunch : Kind.nextLaunch ∈ F) (kunitAccept : Kind.unitAccept ∈ F) (kecc : Kind.ecc ∈ F) (kreleasing : Kind.releasing ∈ F) (kviUsed : Kind.viUsed ∈ F) (kmc : Kind.mc ∈ F) (kpoison : Kind.poison ∈ F) (kxeKeys : Kind.xeKeys ∈ F) (kxeLoads : Kind.xeLoads ∈ F) (kslotKey : Kind.slotKey ∈ F) (kcache : Kind.cache ∈ F) (kplru : Kind.plru ∈ F) (kstreams : Kind.streams ∈ F) (kpitonBusy : Kind.pitonBusy ∈ F) (kslices : Kind.slices ∈ F) (kwbTag : Kind.wbTag ∈ F) (kring : Kind.ring ∈ F) (khomes : Kind.homes ∈ F) (ksf : Kind.sf ∈ F) (ksfPlru : Kind.sfPlru ∈ F) (kfaultN : Kind.faultN ∈ F) (ktxIdle : Kind.txIdle ∈ F) (klinks : Kind.links ∈ F) (ktimeWordAt : Kind.timeWordAt ∈ F) (kmesh : Kind.mesh ∈ F) (kiotlb : Kind.iotlb ∈ F) (kqueues : Kind.queues ∈ F) (kqe : Kind.qe ∈ F) (kviBytes : Kind.viBytes ∈ F) (kviPend : Kind.viPend ∈ F) (kviAdmin : Kind.viAdmin ∈ F) (kfab : Kind.fab ∈ F) (kce : Kind.ce ∈ F) (kcectx : Kind.cectx ∈ F) (kboots : Kind.boots ∈ F) (kpciOpen : Kind.pciOpen ∈ F) (kpciTag : Kind.pciTag ∈ F) (keth : Kind.eth ∈ F) (kownReq : Kind.ownReq ∈ F) (kinvReq : Kind.invReq ∈ F) (knv : Kind.nv ∈ F) (kks : Kind.ks ∈ F) (kbelay : Kind.belay ∈ F) (kpwr : Kind.pwr ∈ F) (kcaps : Kind.caps ∈ F) (kcapBusy : Kind.capBusy ∈ F) (ktrace : Kind.trace ∈ F) (ktbRegs : Kind.tbRegs ∈ F) (h : Keeps F r s) (c : Issuer) (v : Word) :
    ResKeeps F r (execDieResetCmd c v s) := by
  unfold execDieResetCmd
  try lift_lets
  repeat' first
  | with_reducible assumption
  | exact Or.inl (by with_reducible assumption)
  | (refine Or.inr ?_; (repeat with_reducible apply Nat.le_add_right_of_le); first | decide | omega)
  | with_reducible rfl
  | with_reducible apply State.issue_keeps
  | with_reducible apply State.pwrGuard_keeps
  | with_reducible apply State.writeRstCmd_keeps
  | with_reducible apply ResKeeps.next
  | with_reducible refine ResKeeps.ite ?_ ?_
  | with_reducible refine Keeps.ite ?_ ?_
  | with_reducible refine OptKeeps.get (by with_reducible assumption) ?_
  | with_reducible refine Keeps.elim ?_ ?_
  | with_reducible refine Keeps.foldl_fst ?_ _ _ ?_
  | with_reducible refine Keeps.foldl ?_ _ _ ?_
  | split
  | (with_reducible intro x; refine Keeps.cut (F := F) (r := r) (s := x) ?_ (fun hx => ?_); on_goal 2 => clear_value x)
  | (with_reducible intro x; refine Keeps.cut (F := F) (r := r) (s := x.1) ?_ (fun hx => ?_); on_goal 2 => clear_value x)
  | (with_reducible intro y)
  | (lift_lets; with_reducible intro x; refine Keeps.cut (F := F) (r := r) (s := x) ?_ (fun hx => ?_); on_goal 2 => clear_value x)
  | (lift_lets; with_reducible intro x; refine Keeps.cut (F := F) (r := r) (s := x.1) ?_ (fun hx => ?_); on_goal 2 => clear_value x)
  | (lift_lets; with_reducible intro y)
  | simp only [id]
  | dsimp only

theorem execClusterResetCmd_keeps {F : List Kind} {r s : State} (kregs : Kind.regs ∈ F) (khregs : Kind.hregs ∈ F) (kmem : Kind.mem ∈ F) (kup : Kind.up ∈ F) (kresp : Kind.resp ∈ F) (kout : Kind.out ∈ F) (kfree : Kind.free ∈ F) (knewtIrq : Kind.newtIrq ∈ F) (kfieldOps : Kind.fieldOps ∈ F) (ktb : Kind.tb ∈ F) (khart : Kind.hart ∈ F) (kfiles : Kind.files ∈ F) (kgftag : Kind.gftag ∈ F) (kdie : Kind.die ∈ F) (kaplic : Kind.aplic ∈ F) (kaplicRegs : Kind.aplicRegs ∈ F) (kpaused : Kind.paused ∈ F) (kcsq : Kind.csq ∈ F) (kslots : Kind.slots ∈ F) (kposts : Kind.posts ∈ F) (klaunches : Kind.launches ∈ F) (knextLaunch : Kind.nextLaunch ∈ F) (kunitAccept : Kind.unitAccept ∈ F) (kecc : Kind.ecc ∈ F) (kreleasing : Kind.releasing ∈ F) (kviUsed : Kind.viUsed ∈ F) (kmc : Kind.mc ∈ F) (kpoison : Kind.poison ∈ F) (kxeKeys : Kind.xeKeys ∈ F) (kxeLoads : Kind.xeLoads ∈ F) (kslotKey : Kind.slotKey ∈ F) (kcache : Kind.cache ∈ F) (kplru : Kind.plru ∈ F) (kstreams : Kind.streams ∈ F) (kpitonBusy : Kind.pitonBusy ∈ F) (kslices : Kind.slices ∈ F) (kwbTag : Kind.wbTag ∈ F) (kring : Kind.ring ∈ F) (khomes : Kind.homes ∈ F) (ksf : Kind.sf ∈ F) (ksfPlru : Kind.sfPlru ∈ F) (kfaultN : Kind.faultN ∈ F) (ktxIdle : Kind.txIdle ∈ F) (klinks : Kind.links ∈ F) (ktimeWordAt : Kind.timeWordAt ∈ F) (kmesh : Kind.mesh ∈ F) (kiotlb : Kind.iotlb ∈ F) (kqueues : Kind.queues ∈ F) (kqe : Kind.qe ∈ F) (kviBytes : Kind.viBytes ∈ F) (kviPend : Kind.viPend ∈ F) (kviAdmin : Kind.viAdmin ∈ F) (kfab : Kind.fab ∈ F) (kce : Kind.ce ∈ F) (kcectx : Kind.cectx ∈ F) (kboots : Kind.boots ∈ F) (kpciOpen : Kind.pciOpen ∈ F) (kpciTag : Kind.pciTag ∈ F) (keth : Kind.eth ∈ F) (kownReq : Kind.ownReq ∈ F) (kinvReq : Kind.invReq ∈ F) (knv : Kind.nv ∈ F) (kks : Kind.ks ∈ F) (kbelay : Kind.belay ∈ F) (kpwr : Kind.pwr ∈ F) (kcaps : Kind.caps ∈ F) (kcapBusy : Kind.capBusy ∈ F) (ktrace : Kind.trace ∈ F) (ktbRegs : Kind.tbRegs ∈ F) (h : Keeps F r s) (c : Issuer) (v : Word) :
    ResKeeps F r (execClusterResetCmd c v s) := by
  unfold execClusterResetCmd
  try lift_lets
  repeat' first
  | with_reducible assumption
  | exact Or.inl (by with_reducible assumption)
  | (refine Or.inr ?_; (repeat with_reducible apply Nat.le_add_right_of_le); first | decide | omega)
  | with_reducible rfl
  | with_reducible apply State.issue_keeps
  | with_reducible apply State.pwrGuard_keeps
  | with_reducible apply State.writeRstCmd_keeps
  | with_reducible apply ResKeeps.next
  | with_reducible refine ResKeeps.ite ?_ ?_
  | with_reducible refine Keeps.ite ?_ ?_
  | with_reducible refine OptKeeps.get (by with_reducible assumption) ?_
  | with_reducible refine Keeps.elim ?_ ?_
  | with_reducible refine Keeps.foldl_fst ?_ _ _ ?_
  | with_reducible refine Keeps.foldl ?_ _ _ ?_
  | split
  | (with_reducible intro x; refine Keeps.cut (F := F) (r := r) (s := x) ?_ (fun hx => ?_); on_goal 2 => clear_value x)
  | (with_reducible intro x; refine Keeps.cut (F := F) (r := r) (s := x.1) ?_ (fun hx => ?_); on_goal 2 => clear_value x)
  | (with_reducible intro y)
  | (lift_lets; with_reducible intro x; refine Keeps.cut (F := F) (r := r) (s := x) ?_ (fun hx => ?_); on_goal 2 => clear_value x)
  | (lift_lets; with_reducible intro x; refine Keeps.cut (F := F) (r := r) (s := x.1) ?_ (fun hx => ?_); on_goal 2 => clear_value x)
  | (lift_lets; with_reducible intro y)
  | simp only [id]
  | dsimp only

theorem execClusterResetDone_keeps {F : List Kind} {r s : State} (kregs : Kind.regs ∈ F) (khregs : Kind.hregs ∈ F) (kout : Kind.out ∈ F) (knewtIrq : Kind.newtIrq ∈ F) (kfieldOps : Kind.fieldOps ∈ F) (khart : Kind.hart ∈ F) (kfiles : Kind.files ∈ F) (kgftag : Kind.gftag ∈ F) (kdie : Kind.die ∈ F) (kpaused : Kind.paused ∈ F) (kcsq : Kind.csq ∈ F) (kecc : Kind.ecc ∈ F) (kcache : Kind.cache ∈ F) (kplru : Kind.plru ∈ F) (kstreams : Kind.streams ∈ F) (kslices : Kind.slices ∈ F) (kwbTag : Kind.wbTag ∈ F) (kfaultN : Kind.faultN ∈ F) (ktxIdle : Kind.txIdle ∈ F) (kpwr : Kind.pwr ∈ F) (kcaps : Kind.caps ∈ F) (kcapBusy : Kind.capBusy ∈ F) (h : Keeps F r s) :
    ResKeeps F r (execClusterResetDone s) := by
  unfold execClusterResetDone
  try lift_lets
  repeat' first
  | with_reducible assumption
  | with_reducible apply State.flushCluster_keeps
  | with_reducible apply State.rstResult_keeps
  | with_reducible apply State.clusterStart_keeps
  | with_reducible apply State.rstStart_keeps
  | with_reducible apply ResKeeps.next
  | with_reducible refine ResKeeps.ite ?_ ?_
  | split

theorem State.dropWayReleases_keeps {F : List Kind} {r s : State} (kregs : Kind.regs ∈ F) (kreleasing : Kind.releasing ∈ F) (kownReq : Kind.ownReq ∈ F) (h : Keeps F r s) (d : Nat) :
    Keeps F r (State.dropWayReleases s d) := by
  unfold State.dropWayReleases
  try lift_lets
  repeat' first
  | with_reducible assumption
  | with_reducible apply State.ownDone_keeps
  | (with_reducible refine Keeps.upd ?_ rfl rfl rfl rfl rfl rfl rfl rfl ?_ ?_ ?_ ?_ ?_ ?_ ?_ ?_ ?_ ?_ ?_ ?_ ?_ ?_ ?_ ?_ ?_ ?_ ?_ ?_ ?_ ?_ ?_ ?_ ?_ ?_ ?_ ?_ ?_ ?_ ?_ ?_ ?_ ?_ ?_ ?_ ?_ ?_ ?_ ?_ ?_ ?_ ?_ ?_ ?_ ?_ ?_ ?_ ?_ ?_ ?_ ?_ ?_ ?_ ?_ ?_ ?_ ?_ ?_ ?_ ?_ ?_ ?_ <;> first | with_reducible assumption | with_reducible exact Or.inr rfl | with_reducible exact Or.inl (by assumption) | with_reducible apply State.forAll_keeps | with_reducible apply State.ownDone_keeps)
  | split
  | (intro y)

theorem State.resetDieLogic_keeps {F : List Kind} {r s : State} (kregs : Kind.regs ∈ F) (khregs : Kind.hregs ∈ F) (kmem : Kind.mem ∈ F) (kfieldOps : Kind.fieldOps ∈ F) (khart : Kind.hart ∈ F) (kfiles : Kind.files ∈ F) (kgftag : Kind.gftag ∈ F) (kdie : Kind.die ∈ F) (kpaused : Kind.paused ∈ F) (kreleasing : Kind.releasing ∈ F) (kpoison : Kind.poison ∈ F) (kcache : Kind.cache ∈ F) (kplru : Kind.plru ∈ F) (kstreams : Kind.streams ∈ F) (kpitonBusy : Kind.pitonBusy ∈ F) (kslices : Kind.slices ∈ F) (kwbTag : Kind.wbTag ∈ F) (kring : Kind.ring ∈ F) (kownReq : Kind.ownReq ∈ F) (h : Keeps F r s) (d : Nat) :
    Keeps F r (State.resetDieLogic s d) := by
  have hk : ∀ n, Kind.tbRegs ∈ F ∨ 65536 ≤ 0x10000 * (0x1C0 + n) := fun n => Or.inr (by omega)
  have hh : ∀ n, Kind.tbRegs ∈ F ∨ 65536 ≤ 0x1000000000 + 0x1000 * n := fun n => Or.inr (by omega)
  have h1 := State.resetKeys_keeps kregs kfieldOps (State.dropWayReleases_keeps kregs kreleasing kownReq h d) (hk d)
    (0x10000 * (0x1C0 + d) + 0x10000)
  have h2 := State.resetKeys_keeps kregs kfieldOps h1 (hh (18 * d)) (0x1000000000 + 0x1000 * (18 * d + 18))
  have h3 := State.forAll_keeps h2 (fun _ a hx => State.resetHart_keeps kregs khregs kfieldOps khart kfiles kgftag kpaused hx a)
    ((List.range 18).map (fun i => 18 * d + i))
  have h4 := State.resetL3_keeps kregs kmem kpoison kcache kplru kpitonBusy h3 d
  have h5 := State.forAll_keeps h4 (fun _ a hx => State.resetClusterCaches_keeps kcache kplru kstreams hx d a) (List.range 9)
  unfold State.resetDieLogic
  dsimp only [] at h5 ⊢
  generalize State.forAll _ (List.range 9) _ = u at h5 ⊢
  have h6 := State.setDie_keeps kdie h5 d { u.dieSt d with left := false, sent := [], reads := [] }
  generalize State.setDie u d _ = v at h6 ⊢
  refine Keeps.upd h6 rfl rfl rfl rfl rfl rfl rfl rfl ?_ ?_ ?_ ?_ ?_ ?_ ?_ ?_ ?_ ?_ ?_ ?_ ?_ ?_ ?_ ?_ ?_ ?_ ?_ ?_ ?_ ?_ ?_ ?_ ?_ ?_ ?_ ?_ ?_ ?_ ?_ ?_ ?_ ?_ ?_ ?_ ?_ ?_ ?_ ?_ ?_ ?_ ?_ ?_ ?_ ?_ ?_ ?_ ?_ ?_ ?_ ?_ ?_ ?_ ?_ ?_ ?_ ?_ ?_ ?_ ?_ ?_ ?_ <;> first | exact Or.inr rfl | exact Or.inl (by assumption)

theorem execDieResetDone_keeps {F : List Kind} {r s : State} (kregs : Kind.regs ∈ F) (khregs : Kind.hregs ∈ F) (kmem : Kind.mem ∈ F) (kup : Kind.up ∈ F) (kresp : Kind.resp ∈ F) (kout : Kind.out ∈ F) (knewtIrq : Kind.newtIrq ∈ F) (kfieldOps : Kind.fieldOps ∈ F) (ktb : Kind.tb ∈ F) (khart : Kind.hart ∈ F) (kfiles : Kind.files ∈ F) (kgftag : Kind.gftag ∈ F) (kdie : Kind.die ∈ F) (kaplic : Kind.aplic ∈ F) (kpaused : Kind.paused ∈ F) (kcsq : Kind.csq ∈ F) (kecc : Kind.ecc ∈ F) (kreleasing : Kind.releasing ∈ F) (kpoison : Kind.poison ∈ F) (kcache : Kind.cache ∈ F) (kplru : Kind.plru ∈ F) (kstreams : Kind.streams ∈ F) (kpitonBusy : Kind.pitonBusy ∈ F) (kslices : Kind.slices ∈ F) (kwbTag : Kind.wbTag ∈ F) (kring : Kind.ring ∈ F) (ksf : Kind.sf ∈ F) (kfaultN : Kind.faultN ∈ F) (ktxIdle : Kind.txIdle ∈ F) (klinks : Kind.links ∈ F) (kownReq : Kind.ownReq ∈ F) (kpwr : Kind.pwr ∈ F) (kcaps : Kind.caps ∈ F) (kcapBusy : Kind.capBusy ∈ F) (h : Keeps F r s)  :
    ResKeeps F r (execDieResetDone s) := by
  unfold execDieResetDone
  try lift_lets
  repeat' first
  | with_reducible assumption
  | exact Or.inl (by with_reducible assumption)
  | (refine Or.inr ?_; (repeat with_reducible apply Nat.le_add_right_of_le); first | decide | omega)
  | with_reducible rfl
  | with_reducible apply State.elapse_keeps
  | with_reducible apply State.forAll_keeps
  | with_reducible apply State.flushCluster_keeps
  | with_reducible apply State.flushL3_keeps
  | with_reducible apply State.filterSweep_keeps
  | with_reducible apply State.linkTaken_keeps
  | with_reducible apply State.setPwr_keeps
  | with_reducible apply State.resetDieLogic_keeps
  | with_reducible apply State.linkReset_keeps
  | with_reducible apply State.when_keeps
  | with_reducible apply State.trainLink_keeps
  | with_reducible apply State.clusterStart_keeps
  | with_reducible apply State.setDie_keeps
  | with_reducible apply State.setPwrReqs_keeps
  | with_reducible apply State.rstResult_keeps
  | with_reducible apply State.dieResetStart_keeps
  | with_reducible apply ResKeeps.next
  | with_reducible refine ResKeeps.ite ?_ ?_
  | with_reducible refine Keeps.ite ?_ ?_
  | with_reducible refine OptKeeps.get (by with_reducible assumption) ?_
  | with_reducible refine Keeps.elim ?_ ?_
  | with_reducible refine Keeps.foldl_fst ?_ _ _ ?_
  | with_reducible refine Keeps.foldl ?_ _ _ ?_
  | split
  | (with_reducible intro x; refine Keeps.cut (F := F) (r := r) (s := x) ?_ (fun hx => ?_); on_goal 2 => clear_value x)
  | (with_reducible intro x; refine Keeps.cut (F := F) (r := r) (s := x.1) ?_ (fun hx => ?_); on_goal 2 => clear_value x)
  | (with_reducible intro y)
  | (lift_lets; with_reducible intro x; refine Keeps.cut (F := F) (r := r) (s := x) ?_ (fun hx => ?_); on_goal 2 => clear_value x)
  | (lift_lets; with_reducible intro x; refine Keeps.cut (F := F) (r := r) (s := x.1) ?_ (fun hx => ?_); on_goal 2 => clear_value x)
  | (lift_lets; with_reducible intro y)
  | simp only [id]
  | dsimp only

theorem State.writeRstRes_keeps {F : List Kind} {r s : State} (kregs : Kind.regs ∈ F) (h : Keeps F r s) (v : Nat) :
    Keeps F r (State.writeRstRes s v) := by
  unfold State.writeRstRes
  try lift_lets
  repeat' first
  | with_reducible assumption
  | (refine Or.inr ?_; (repeat with_reducible apply Nat.le_add_right_of_le); first | decide | omega)
  | with_reducible apply State.put_keeps
  | with_reducible refine Keeps.ite ?_ ?_

theorem execRstResAck_keeps {F : List Kind} {r s : State} (kregs : Kind.regs ∈ F) (kresp : Kind.resp ∈ F) (knewtIrq : Kind.newtIrq ∈ F) (kfieldOps : Kind.fieldOps ∈ F) (kpaused : Kind.paused ∈ F) (kcaps : Kind.caps ∈ F) (kcapBusy : Kind.capBusy ∈ F) (h : Keeps F r s) (c : Issuer) (v : Word) :
    ResKeeps F r (execRstResAck c v s) := by
  unfold execRstResAck
  try lift_lets
  repeat' first
  | with_reducible assumption
  | exact Or.inl (by with_reducible assumption)
  | (refine Or.inr ?_; (repeat with_reducible apply Nat.le_add_right_of_le); first | decide | omega)
  | with_reducible rfl
  | with_reducible apply State.issue_keeps
  | with_reducible apply State.pwrGuard_keeps
  | with_reducible apply State.writeRstRes_keeps
  | with_reducible apply ResKeeps.next
  | with_reducible refine ResKeeps.ite ?_ ?_
  | with_reducible refine Keeps.ite ?_ ?_
  | with_reducible refine OptKeeps.get (by with_reducible assumption) ?_
  | with_reducible refine Keeps.elim ?_ ?_
  | with_reducible refine Keeps.foldl_fst ?_ _ _ ?_
  | with_reducible refine Keeps.foldl ?_ _ _ ?_
  | split
  | (with_reducible intro x; refine Keeps.cut (F := F) (r := r) (s := x) ?_ (fun hx => ?_); on_goal 2 => clear_value x)
  | (with_reducible intro x; refine Keeps.cut (F := F) (r := r) (s := x.1) ?_ (fun hx => ?_); on_goal 2 => clear_value x)
  | (with_reducible intro y)
  | (lift_lets; with_reducible intro x; refine Keeps.cut (F := F) (r := r) (s := x) ?_ (fun hx => ?_); on_goal 2 => clear_value x)
  | (lift_lets; with_reducible intro x; refine Keeps.cut (F := F) (r := r) (s := x.1) ?_ (fun hx => ?_); on_goal 2 => clear_value x)
  | (lift_lets; with_reducible intro y)
  | simp only [id]
  | dsimp only

theorem State.tbReset_keeps {F : List Kind} {r s : State} (kregs : Kind.regs ∈ F) (kresp : Kind.resp ∈ F) (kout : Kind.out ∈ F) (knewtIrq : Kind.newtIrq ∈ F) (kfieldOps : Kind.fieldOps ∈ F) (ktb : Kind.tb ∈ F) (kfiles : Kind.files ∈ F) (kaplic : Kind.aplic ∈ F) (kpaused : Kind.paused ∈ F) (kcsq : Kind.csq ∈ F) (klaunches : Kind.launches ∈ F) (kqe : Kind.qe ∈ F) (kfab : Kind.fab ∈ F) (kcaps : Kind.caps ∈ F) (kcapBusy : Kind.capBusy ∈ F) (ktbRegs : Kind.tbRegs ∈ F) (h : Keeps F r s) : Keeps F r s.tbReset := by
  have h1 : Keeps F r s.noTicks := by apply State.noTicks_keeps <;> assumption
  have h2 : Keeps F r ((s.noTicks.resetKeys 0 0x10000).resetKeys (openBank false) (openBank false + 0x10000)) := by
    apply State.resetKeys_keeps <;> first | assumption | exact Or.inl ktbRegs | skip
    apply State.resetKeys_keeps <;> first | assumption | exact Or.inl ktbRegs
  have h3 := State.wr_keeps kregs h2 (k := R.TB_SERIAL) (Or.inl ktbRegs) (s.rd R.TB_SERIAL)
  exact h3.setTb ktb default (fun _ => by show (0 : Nat) < _; decide) (fun _ => by show (0 : Nat) < _; decide)

theorem State.writeRstHold_keeps {F : List Kind} {r s : State} (kregs : Kind.regs ∈ F) (kresp : Kind.resp ∈ F) (kout : Kind.out ∈ F) (knewtIrq : Kind.newtIrq ∈ F) (kfieldOps : Kind.fieldOps ∈ F) (ktb : Kind.tb ∈ F) (kfiles : Kind.files ∈ F) (kaplic : Kind.aplic ∈ F) (kpaused : Kind.paused ∈ F) (kcsq : Kind.csq ∈ F) (klaunches : Kind.launches ∈ F) (kqe : Kind.qe ∈ F) (kfab : Kind.fab ∈ F) (kcaps : Kind.caps ∈ F) (kcapBusy : Kind.capBusy ∈ F) (ktbRegs : Kind.tbRegs ∈ F) (h : Keeps F r s) (v : Nat) :
    Keeps F r (State.writeRstHold s v) := by
  unfold State.writeRstHold
  try lift_lets
  repeat' first
  | with_reducible assumption
  | exact Or.inl (by with_reducible assumption)
  | with_reducible apply State.put_keeps
  | with_reducible apply State.tbReset_keeps
  | with_reducible apply State.adoptSelf_keeps
  | with_reducible refine Keeps.ite ?_ ?_

theorem execTbHold_keeps {F : List Kind} {r s : State} (kregs : Kind.regs ∈ F) (kresp : Kind.resp ∈ F) (kout : Kind.out ∈ F) (knewtIrq : Kind.newtIrq ∈ F) (kfieldOps : Kind.fieldOps ∈ F) (ktb : Kind.tb ∈ F) (kfiles : Kind.files ∈ F) (kaplic : Kind.aplic ∈ F) (kpaused : Kind.paused ∈ F) (kcsq : Kind.csq ∈ F) (klaunches : Kind.launches ∈ F) (kqe : Kind.qe ∈ F) (kfab : Kind.fab ∈ F) (kcaps : Kind.caps ∈ F) (kcapBusy : Kind.capBusy ∈ F) (ktbRegs : Kind.tbRegs ∈ F) (h : Keeps F r s) (c : Issuer) (v : Word) :
    ResKeeps F r (execTbHold c v s) := by
  unfold execTbHold
  try lift_lets
  repeat' first
  | with_reducible assumption
  | exact Or.inl (by with_reducible assumption)
  | (refine Or.inr ?_; (repeat with_reducible apply Nat.le_add_right_of_le); first | decide | omega)
  | with_reducible rfl
  | with_reducible apply State.issue_keeps
  | with_reducible apply State.pwrGuard_keeps
  | with_reducible apply State.writeRstHold_keeps
  | with_reducible apply ResKeeps.next
  | with_reducible refine ResKeeps.ite ?_ ?_
  | with_reducible refine Keeps.ite ?_ ?_
  | with_reducible refine OptKeeps.get (by with_reducible assumption) ?_
  | with_reducible refine Keeps.elim ?_ ?_
  | with_reducible refine Keeps.foldl_fst ?_ _ _ ?_
  | with_reducible refine Keeps.foldl ?_ _ _ ?_
  | split
  | (with_reducible intro x; refine Keeps.cut (F := F) (r := r) (s := x) ?_ (fun hx => ?_); on_goal 2 => clear_value x)
  | (with_reducible intro x; refine Keeps.cut (F := F) (r := r) (s := x.1) ?_ (fun hx => ?_); on_goal 2 => clear_value x)
  | (with_reducible intro y)
  | (lift_lets; with_reducible intro x; refine Keeps.cut (F := F) (r := r) (s := x) ?_ (fun hx => ?_); on_goal 2 => clear_value x)
  | (lift_lets; with_reducible intro x; refine Keeps.cut (F := F) (r := r) (s := x.1) ?_ (fun hx => ?_); on_goal 2 => clear_value x)
  | (lift_lets; with_reducible intro y)
  | simp only [id]
  | dsimp only

theorem execTbRelease_keeps {F : List Kind} {r s : State} (kregs : Kind.regs ∈ F) (kresp : Kind.resp ∈ F) (kout : Kind.out ∈ F) (knewtIrq : Kind.newtIrq ∈ F) (kfieldOps : Kind.fieldOps ∈ F) (ktb : Kind.tb ∈ F) (kfiles : Kind.files ∈ F) (kaplic : Kind.aplic ∈ F) (kpaused : Kind.paused ∈ F) (kcsq : Kind.csq ∈ F) (klaunches : Kind.launches ∈ F) (kqe : Kind.qe ∈ F) (kfab : Kind.fab ∈ F) (kcaps : Kind.caps ∈ F) (kcapBusy : Kind.capBusy ∈ F) (ktbRegs : Kind.tbRegs ∈ F) (h : Keeps F r s) (c : Issuer) (v : Word) :
    ResKeeps F r (execTbRelease c v s) := by
  unfold execTbRelease
  try lift_lets
  repeat' first
  | with_reducible assumption
  | exact Or.inl (by with_reducible assumption)
  | (refine Or.inr ?_; (repeat with_reducible apply Nat.le_add_right_of_le); first | decide | omega)
  | with_reducible rfl
  | with_reducible apply State.issue_keeps
  | with_reducible apply State.pwrGuard_keeps
  | with_reducible apply State.writeRstHold_keeps
  | with_reducible apply ResKeeps.next
  | with_reducible refine ResKeeps.ite ?_ ?_
  | with_reducible refine Keeps.ite ?_ ?_
  | with_reducible refine OptKeeps.get (by with_reducible assumption) ?_
  | with_reducible refine Keeps.elim ?_ ?_
  | with_reducible refine Keeps.foldl_fst ?_ _ _ ?_
  | with_reducible refine Keeps.foldl ?_ _ _ ?_
  | split
  | (with_reducible intro x; refine Keeps.cut (F := F) (r := r) (s := x) ?_ (fun hx => ?_); on_goal 2 => clear_value x)
  | (with_reducible intro x; refine Keeps.cut (F := F) (r := r) (s := x.1) ?_ (fun hx => ?_); on_goal 2 => clear_value x)
  | (with_reducible intro y)
  | (lift_lets; with_reducible intro x; refine Keeps.cut (F := F) (r := r) (s := x) ?_ (fun hx => ?_); on_goal 2 => clear_value x)
  | (lift_lets; with_reducible intro x; refine Keeps.cut (F := F) (r := r) (s := x.1) ?_ (fun hx => ?_); on_goal 2 => clear_value x)
  | (lift_lets; with_reducible intro y)
  | simp only [id]
  | dsimp only

theorem State.writeRst_keeps {F : List Kind} {r s : State} (kregs : Kind.regs ∈ F) (khregs : Kind.hregs ∈ F) (kmem : Kind.mem ∈ F) (kup : Kind.up ∈ F) (kresp : Kind.resp ∈ F) (kout : Kind.out ∈ F) (kfree : Kind.free ∈ F) (knewtIrq : Kind.newtIrq ∈ F) (kfieldOps : Kind.fieldOps ∈ F) (ktb : Kind.tb ∈ F) (khart : Kind.hart ∈ F) (kfiles : Kind.files ∈ F) (kgftag : Kind.gftag ∈ F) (kdie : Kind.die ∈ F) (kaplic : Kind.aplic ∈ F) (kaplicRegs : Kind.aplicRegs ∈ F) (kpaused : Kind.paused ∈ F) (kcsq : Kind.csq ∈ F) (kslots : Kind.slots ∈ F) (kposts : Kind.posts ∈ F) (klaunches : Kind.launches ∈ F) (knextLaunch : Kind.nextLaunch ∈ F) (kunitAccept : Kind.unitAccept ∈ F) (kecc : Kind.ecc ∈ F) (kreleasing : Kind.releasing ∈ F) (kviUsed : Kind.viUsed ∈ F) (kmc : Kind.mc ∈ F) (kpoison : Kind.poison ∈ F) (kxeKeys : Kind.xeKeys ∈ F) (kxeLoads : Kind.xeLoads ∈ F) (kslotKey : Kind.slotKey ∈ F) (kcache : Kind.cache ∈ F) (kplru : Kind.plru ∈ F) (kstreams : Kind.streams ∈ F) (kpitonBusy : Kind.pitonBusy ∈ F) (kslices : Kind.slices ∈ F) (kwbTag : Kind.wbTag ∈ F) (kring : Kind.ring ∈ F) (khomes : Kind.homes ∈ F) (ksf : Kind.sf ∈ F) (ksfPlru : Kind.sfPlru ∈ F) (kfaultN : Kind.faultN ∈ F) (ktxIdle : Kind.txIdle ∈ F) (klinks : Kind.links ∈ F) (ktimeWordAt : Kind.timeWordAt ∈ F) (kmesh : Kind.mesh ∈ F) (kiotlb : Kind.iotlb ∈ F) (kqueues : Kind.queues ∈ F) (kqe : Kind.qe ∈ F) (kviBytes : Kind.viBytes ∈ F) (kviPend : Kind.viPend ∈ F) (kviAdmin : Kind.viAdmin ∈ F) (kfab : Kind.fab ∈ F) (kce : Kind.ce ∈ F) (kcectx : Kind.cectx ∈ F) (kboots : Kind.boots ∈ F) (kpciOpen : Kind.pciOpen ∈ F) (kpciTag : Kind.pciTag ∈ F) (keth : Kind.eth ∈ F) (kownReq : Kind.ownReq ∈ F) (kinvReq : Kind.invReq ∈ F) (knv : Kind.nv ∈ F) (kks : Kind.ks ∈ F) (kbelay : Kind.belay ∈ F) (kpwr : Kind.pwr ∈ F) (kcaps : Kind.caps ∈ F) (kcapBusy : Kind.capBusy ∈ F) (ktrace : Kind.trace ∈ F) (ktbRegs : Kind.tbRegs ∈ F) (h : Keeps F r s) (a1 : Reg) (c : Issuer) (v : Nat) :
    OptKeeps F r (State.writeRst s a1 c v) := by
  unfold State.writeRst
  try lift_lets
  repeat' first
  | with_reducible assumption
  | with_reducible apply State.writeRstCmd_keeps
  | with_reducible apply State.writeRstRes_keeps
  | with_reducible apply State.writeRstHold_keeps
  | with_reducible apply OptKeeps.some
  | with_reducible apply OptKeeps.none
  | split

theorem execWorldSwitchDone_keeps {F : List Kind} {r s : State} (kregs : Kind.regs ∈ F) (kout : Kind.out ∈ F) (knewtIrq : Kind.newtIrq ∈ F) (kfieldOps : Kind.fieldOps ∈ F) (khart : Kind.hart ∈ F) (kfiles : Kind.files ∈ F) (kdie : Kind.die ∈ F) (kpaused : Kind.paused ∈ F) (kcsq : Kind.csq ∈ F) (kecc : Kind.ecc ∈ F) (kcache : Kind.cache ∈ F) (kstreams : Kind.streams ∈ F) (kslices : Kind.slices ∈ F) (kwbTag : Kind.wbTag ∈ F) (kfaultN : Kind.faultN ∈ F) (ktxIdle : Kind.txIdle ∈ F) (kpwr : Kind.pwr ∈ F) (kcaps : Kind.caps ∈ F) (kcapBusy : Kind.capBusy ∈ F) (h : Keeps F r s) (die : Fin 12) (cl : Fin 9) :
    ResKeeps F r (execWorldSwitchDone die cl s) := by
  unfold execWorldSwitchDone
  try lift_lets
  repeat' first
  | with_reducible assumption
  | with_reducible apply State.flushCluster_keeps
  | with_reducible apply State.rstStart_keeps
  | with_reducible apply State.switchEnd_keeps
  | with_reducible apply ResKeeps.next
  | with_reducible refine ResKeeps.ite ?_ ?_

end Sys2Proof.Machine
end

