-- ==== Sys2Proof/Laws/KeepsRegWrite.lean ====
section
/-! SUPPORT. What the operations of Machine/RegWrite.lean keep: the queue, the canonical forms, time, and every kind of state they do not name. -/

namespace Sys2Proof.Machine

set_option linter.unusedTactic false
set_option linter.unreachableTactic false
set_option linter.unusedVariables false

theorem State.writeByType_keeps {F : List Kind} {r s : State} (kregs : Kind.regs ∈ F) (kfieldOps : Kind.fieldOps ∈ F) (ktbRegs : Kind.tbRegs ∈ F) (h : Keeps F r s) (k : Nat) (fs : List FieldSpec) (m : Word) (v : Word) :
    Keeps F r (State.writeByType s k fs m v) := by
  unfold State.writeByType
  try lift_lets
  repeat' first
  | with_reducible assumption
  | exact Or.inl (by with_reducible assumption)
  | (refine Or.inr ?_; (repeat with_reducible apply Nat.le_add_right_of_le); first | decide | omega)
  | with_reducible rfl
  | (with_reducible refine Keeps.upd ?_ rfl rfl rfl rfl rfl rfl rfl rfl ?_ ?_ ?_ ?_ ?_ ?_ ?_ ?_ ?_ ?_ ?_ ?_ ?_ ?_ ?_ ?_ ?_ ?_ ?_ ?_ ?_ ?_ ?_ ?_ ?_ ?_ ?_ ?_ ?_ ?_ ?_ ?_ ?_ ?_ ?_ ?_ ?_ ?_ ?_ ?_ ?_ ?_ ?_ ?_ ?_ ?_ ?_ ?_ ?_ ?_ ?_ ?_ ?_ ?_ ?_ ?_ ?_ ?_ ?_ ?_ ?_ ?_ ?_ <;> first | with_reducible assumption | with_reducible exact Or.inr rfl | with_reducible exact Or.inl (by assumption) | with_reducible apply State.wr_keeps)
  | with_reducible apply State.wr_keeps
  | with_reducible refine Keeps.ite ?_ ?_
  | with_reducible refine OptKeeps.get (by with_reducible assumption) ?_
  | with_reducible refine Keeps.elim ?_ ?_
  | with_reducible refine Keeps.foldl_fst ?_ _ _ ?_
  | with_reducible refine Keeps.foldl ?_ _ _ ?_
  | split
  | (with_reducible intro x; refine Keeps.cut (F := F) (r := r) (s := x) ?_ (fun hx => ?_); on_goal 2 => clear_value x)
  | (with_reducible intro x; refine Keeps.cut (F := F) (r := r) (s := x.1) ?_ (fun hx => ?_); on_goal 2 => clear_value x)
  | (with_reducible intro y)
  | (lift_lets; with_reducible intro x; refine Keeps.cut (F := F) (r := r) (s := x) ?_ (fun hx => ?_); on_goal 2 => clear_value x)
  | (lift_lets; with_reducible intro x; refine Keeps.cut (F := F) (r := r) (s := x.1) ?_ (fun hx => ?_); on_goal 2 => clear_value x)
  | (lift_lets; with_reducible intro y)
  | simp only [id]
  | dsimp only

theorem State.writeOwnRule_keeps {F : List Kind} {r s : State} (kregs : Kind.regs ∈ F) (khregs : Kind.hregs ∈ F) (kmem : Kind.mem ∈ F) (kup : Kind.up ∈ F) (kresp : Kind.resp ∈ F) (kout : Kind.out ∈ F) (kfree : Kind.free ∈ F) (knewtIrq : Kind.newtIrq ∈ F) (kfieldOps : Kind.fieldOps ∈ F) (ktb : Kind.tb ∈ F) (khart : Kind.hart ∈ F) (kfiles : Kind.files ∈ F) (kgftag : Kind.gftag ∈ F) (kdie : Kind.die ∈ F) (kaplic : Kind.aplic ∈ F) (kaplicRegs : Kind.aplicRegs ∈ F) (kpaused : Kind.paused ∈ F) (kcsq : Kind.csq ∈ F) (kslots : Kind.slots ∈ F) (kposts : Kind.posts ∈ F) (klaunches : Kind.launches ∈ F) (knextLaunch : Kind.nextLaunch ∈ F) (kunitAccept : Kind.unitAccept ∈ F) (kecc : Kind.ecc ∈ F) (kreleasing : Kind.releasing ∈ F) (kviUsed : Kind.viUsed ∈ F) (kmc : Kind.mc ∈ F) (kpoison : Kind.poison ∈ F) (kxeKeys : Kind.xeKeys ∈ F) (kxeLoads : Kind.xeLoads ∈ F) (kslotKey : Kind.slotKey ∈ F) (kcache : Kind.cache ∈ F) (kplru : Kind.plru ∈ F) (kstreams : Kind.streams ∈ F) (kpitonBusy : Kind.pitonBusy ∈ F) (kslices : Kind.slices ∈ F) (kwbTag : Kind.wbTag ∈ F) (kring : Kind.ring ∈ F) (khomes : Kind.homes ∈ F) (ksf : Kind.sf ∈ F) (ksfPlru : Kind.sfPlru ∈ F) (kfaultN : Kind.faultN ∈ F) (ktxIdle : Kind.txIdle ∈ F) (klinks : Kind.links ∈ F) (ktimeWordAt : Kind.timeWordAt ∈ F) (kmesh : Kind.mesh ∈ F) (kiotlb : Kind.iotlb ∈ F) (kqueues : Kind.queues ∈ F) (kqe : Kind.qe ∈ F) (kviBytes : Kind.viBytes ∈ F) (kviPend : Kind.viPend ∈ F) (kviAdmin : Kind.viAdmin ∈ F) (kfab : Kind.fab ∈ F) (kce : Kind.ce ∈ F) (kcectx : Kind.cectx ∈ F) (kboots : Kind.boots ∈ F) (kpciOpen : Kind.pciOpen ∈ F) (kpciTag : Kind.pciTag ∈ F) (keth : Kind.eth ∈ F) (kownReq : Kind.ownReq ∈ F) (kinvReq : Kind.invReq ∈ F) (knv : Kind.nv ∈ F) (kks : Kind.ks ∈ F) (kbelay : Kind.belay ∈ F) (kpwr : Kind.pwr ∈ F) (kcaps : Kind.caps ∈ F) (kcapBusy : Kind.capBusy ∈ F) (ktrace : Kind.trace ∈ F) (ktbRegs : Kind.tbRegs ∈ F) (h : Keeps F r s) (b : Block) (x : RegInst) (k : Nat)
    (c : Issuer) (full : Bool) (v : Nat) : OptKeeps F r (s.writeOwnRule b x k c full v) := by
  unfold State.writeOwnRule
  cases b <;> dsimp only
  all_goals first
  | exact OptKeeps.none
  | (apply State.writeTb_keeps <;> assumption)
  | (apply State.writeCsq_keeps <;> assumption)
  | (apply State.writeHa_keeps <;> assumption)
  | (apply State.writeWldDie_keeps <;> assumption)
  | (apply State.writeDl_keeps <;> assumption)
  | (apply State.writeNoc_keeps <;> assumption)
  | (apply State.writeMc_keeps <;> assumption)
  | (apply State.writeXe_keeps <;> assumption)
  | (apply State.writeQe_keeps <;> assumption)
  | (apply State.writeVi_keeps <;> assumption)
  | (apply State.writeViT_keeps <;> assumption)
  | (apply State.writeFab_keeps <;> assumption)
  | (apply State.writeFabPort_keeps <;> assumption)
  | (apply State.writeKs_keeps <;> assumption)
  | (apply State.writeCe_keeps <;> assumption)
  | (apply State.writePci_keeps <;> assumption)
  | (apply State.writeEth_keeps <;> assumption)
  | (apply State.writeMgt_keeps <;> assumption)
  | (apply State.writeErr_keeps <;> assumption)
  | (apply State.writeCrn_keeps <;> assumption)
  | (apply State.writePmc_keeps <;> assumption)
  | (apply OptKeeps.orElse <;> (first | apply State.writeBelay_keeps | apply State.writeWldHub_keeps) <;> assumption)
  | (apply OptKeeps.orElse <;> (first | apply State.writePwr_keeps | apply State.writeRst_keeps) <;> assumption)
  | (split
     · exact OptKeeps.some (by apply State.writeClkDom_keeps <;> assumption)
     · exact OptKeeps.none)

theorem State.writeReg_keeps {F : List Kind} {r s : State} (kregs : Kind.regs ∈ F) (khregs : Kind.hregs ∈ F) (kmem : Kind.mem ∈ F) (kup : Kind.up ∈ F) (kresp : Kind.resp ∈ F) (kout : Kind.out ∈ F) (kfree : Kind.free ∈ F) (knewtIrq : Kind.newtIrq ∈ F) (kfieldOps : Kind.fieldOps ∈ F) (ktb : Kind.tb ∈ F) (khart : Kind.hart ∈ F) (kfiles : Kind.files ∈ F) (kgftag : Kind.gftag ∈ F) (kdie : Kind.die ∈ F) (kaplic : Kind.aplic ∈ F) (kaplicRegs : Kind.aplicRegs ∈ F) (kpaused : Kind.paused ∈ F) (kcsq : Kind.csq ∈ F) (kslots : Kind.slots ∈ F) (kposts : Kind.posts ∈ F) (klaunches : Kind.launches ∈ F) (knextLaunch : Kind.nextLaunch ∈ F) (kunitAccept : Kind.unitAccept ∈ F) (kecc : Kind.ecc ∈ F) (kreleasing : Kind.releasing ∈ F) (kviUsed : Kind.viUsed ∈ F) (kmc : Kind.mc ∈ F) (kpoison : Kind.poison ∈ F) (kxeKeys : Kind.xeKeys ∈ F) (kxeLoads : Kind.xeLoads ∈ F) (kslotKey : Kind.slotKey ∈ F) (kcache : Kind.cache ∈ F) (kplru : Kind.plru ∈ F) (kstreams : Kind.streams ∈ F) (kpitonBusy : Kind.pitonBusy ∈ F) (kslices : Kind.slices ∈ F) (kwbTag : Kind.wbTag ∈ F) (kring : Kind.ring ∈ F) (khomes : Kind.homes ∈ F) (ksf : Kind.sf ∈ F) (ksfPlru : Kind.sfPlru ∈ F) (kfaultN : Kind.faultN ∈ F) (ktxIdle : Kind.txIdle ∈ F) (klinks : Kind.links ∈ F) (ktimeWordAt : Kind.timeWordAt ∈ F) (kmesh : Kind.mesh ∈ F) (kiotlb : Kind.iotlb ∈ F) (kqueues : Kind.queues ∈ F) (kqe : Kind.qe ∈ F) (kviBytes : Kind.viBytes ∈ F) (kviPend : Kind.viPend ∈ F) (kviAdmin : Kind.viAdmin ∈ F) (kfab : Kind.fab ∈ F) (kce : Kind.ce ∈ F) (kcectx : Kind.cectx ∈ F) (kboots : Kind.boots ∈ F) (kpciOpen : Kind.pciOpen ∈ F) (kpciTag : Kind.pciTag ∈ F) (keth : Kind.eth ∈ F) (kownReq : Kind.ownReq ∈ F) (kinvReq : Kind.invReq ∈ F) (knv : Kind.nv ∈ F) (kks : Kind.ks ∈ F) (kbelay : Kind.belay ∈ F) (kpwr : Kind.pwr ∈ F) (kcaps : Kind.caps ∈ F) (kcapBusy : Kind.capBusy ∈ F) (ktrace : Kind.trace ∈ F) (ktbRegs : Kind.tbRegs ∈ F) (h : Keeps F r s) (b : Block) (a_r : RegInst) (k : Nat) (c : Issuer) (a : Nat) (size : Nat) (v : Word) :
    Keeps F r (State.writeReg s b a_r k c a size v) := by
  unfold State.writeReg
  try lift_lets
  repeat' first
  | with_reducible assumption
  | exact Or.inl (by with_reducible assumption)
  | (refine Or.inr ?_; (repeat with_reducible apply Nat.le_add_right_of_le); first | decide | omega)
  | with_reducible rfl
  | with_reducible apply State.writeOwnRule_keeps
  | with_reducible apply State.writeByType_keeps
  | with_reducible refine Keeps.ite ?_ ?_
  | with_reducible refine OptKeeps.get (by with_reducible assumption) ?_
  | with_reducible refine Keeps.elim ?_ ?_
  | with_reducible refine Keeps.foldl_fst ?_ _ _ ?_
  | with_reducible refine Keeps.foldl ?_ _ _ ?_
  | split
  | (with_reducible intro x; refine Keeps.cut (F := F) (r := r) (s := x) ?_ (fun hx => ?_); on_goal 2 => clear_value x)
  | (with_reducible intro x; refine Keeps.cut (F := F) (r := r) (s := x.1) ?_ (fun hx => ?_); on_goal 2 => clear_value x)
  | (with_reducible intro y)
  | (lift_lets; with_reducible intro x; refine Keeps.cut (F := F) (r := r) (s := x) ?_ (fun hx => ?_); on_goal 2 => clear_value x)
  | (lift_lets; with_reducible intro x; refine Keeps.cut (F := F) (r := r) (s := x.1) ?_ (fun hx => ?_); on_goal 2 => clear_value x)
  | (lift_lets; with_reducible intro y)
  | simp only [id]
  | dsimp only

theorem State.regWrite_keeps {F : List Kind} {r s : State} (kregs : Kind.regs ∈ F) (khregs : Kind.hregs ∈ F) (kmem : Kind.mem ∈ F) (kup : Kind.up ∈ F) (kresp : Kind.resp ∈ F) (kout : Kind.out ∈ F) (kfree : Kind.free ∈ F) (knewtIrq : Kind.newtIrq ∈ F) (kfieldOps : Kind.fieldOps ∈ F) (ktb : Kind.tb ∈ F) (khart : Kind.hart ∈ F) (kfiles : Kind.files ∈ F) (kgftag : Kind.gftag ∈ F) (kdie : Kind.die ∈ F) (kaplic : Kind.aplic ∈ F) (kaplicRegs : Kind.aplicRegs ∈ F) (kpaused : Kind.paused ∈ F) (kcsq : Kind.csq ∈ F) (kslots : Kind.slots ∈ F) (kposts : Kind.posts ∈ F) (klaunches : Kind.launches ∈ F) (knextLaunch : Kind.nextLaunch ∈ F) (kunitAccept : Kind.unitAccept ∈ F) (kecc : Kind.ecc ∈ F) (kreleasing : Kind.releasing ∈ F) (kviUsed : Kind.viUsed ∈ F) (kmc : Kind.mc ∈ F) (kpoison : Kind.poison ∈ F) (kxeKeys : Kind.xeKeys ∈ F) (kxeLoads : Kind.xeLoads ∈ F) (kslotKey : Kind.slotKey ∈ F) (kcache : Kind.cache ∈ F) (kplru : Kind.plru ∈ F) (kstreams : Kind.streams ∈ F) (kpitonBusy : Kind.pitonBusy ∈ F) (kslices : Kind.slices ∈ F) (kwbTag : Kind.wbTag ∈ F) (kring : Kind.ring ∈ F) (khomes : Kind.homes ∈ F) (ksf : Kind.sf ∈ F) (ksfPlru : Kind.sfPlru ∈ F) (kfaultN : Kind.faultN ∈ F) (ktxIdle : Kind.txIdle ∈ F) (klinks : Kind.links ∈ F) (ktimeWordAt : Kind.timeWordAt ∈ F) (kmesh : Kind.mesh ∈ F) (kiotlb : Kind.iotlb ∈ F) (kqueues : Kind.queues ∈ F) (kqe : Kind.qe ∈ F) (kviBytes : Kind.viBytes ∈ F) (kviPend : Kind.viPend ∈ F) (kviAdmin : Kind.viAdmin ∈ F) (kfab : Kind.fab ∈ F) (kce : Kind.ce ∈ F) (kcectx : Kind.cectx ∈ F) (kboots : Kind.boots ∈ F) (kpciOpen : Kind.pciOpen ∈ F) (kpciTag : Kind.pciTag ∈ F) (keth : Kind.eth ∈ F) (kownReq : Kind.ownReq ∈ F) (kinvReq : Kind.invReq ∈ F) (knv : Kind.nv ∈ F) (kks : Kind.ks ∈ F) (kbelay : Kind.belay ∈ F) (kpwr : Kind.pwr ∈ F) (kcaps : Kind.caps ∈ F) (kcapBusy : Kind.capBusy ∈ F) (ktrace : Kind.trace ∈ F) (ktbRegs : Kind.tbRegs ∈ F) (h : Keeps F r s) (c : Issuer) (a : Nat) (size : Nat) (v : Word) :
    Keeps F r (State.regWrite s c a size v) := by
  unfold State.regWrite
  try lift_lets
  repeat' first
  | with_reducible assumption
  | exact Or.inl (by with_reducible assumption)
  | (refine Or.inr ?_; (repeat with_reducible apply Nat.le_add_right_of_le); first | decide | omega)
  | with_reducible rfl
  | with_reducible apply State.violation_keeps
  | with_reducible apply State.refuse_keeps
  | with_reducible apply State.answer_keeps
  | with_reducible apply State.writeReg_keeps
  | with_reducible refine Keeps.ite ?_ ?_
  | with_reducible refine OptKeeps.get (by with_reducible assumption) ?_
  | with_reducible refine Keeps.elim ?_ ?_
  | with_reducible refine Keeps.foldl_fst ?_ _ _ ?_
  | with_reducible refine Keeps.foldl ?_ _ _ ?_
  | split
  | (with_reducible intro x; refine Keeps.cut (F := F) (r := r) (s := x) ?_ (fun hx => ?_); on_goal 2 => clear_value x)
  | (with_reducible intro x; refine Keeps.cut (F := F) (r := r) (s := x.1) ?_ (fun hx => ?_); on_goal 2 => clear_value x)
  | (with_reducible intro y)
  | (lift_lets; with_reducible intro x; refine Keeps.cut (F := F) (r := r) (s := x) ?_ (fun hx => ?_); on_goal 2 => clear_value x)
  | (lift_lets; with_reducible intro x; refine Keeps.cut (F := F) (r := r) (s := x.1) ?_ (fun hx => ?_); on_goal 2 => clear_value x)
  | (lift_lets; with_reducible intro y)
  | simp only [id]
  | dsimp only

theorem State.busWrite_keeps {F : List Kind} {r s : State} (kregs : Kind.regs ∈ F) (khregs : Kind.hregs ∈ F) (kmem : Kind.mem ∈ F) (kup : Kind.up ∈ F) (kresp : Kind.resp ∈ F) (kout : Kind.out ∈ F) (kfree : Kind.free ∈ F) (knewtIrq : Kind.newtIrq ∈ F) (kfieldOps : Kind.fieldOps ∈ F) (ktb : Kind.tb ∈ F) (khart : Kind.hart ∈ F) (kfiles : Kind.files ∈ F) (kgftag : Kind.gftag ∈ F) (kdie : Kind.die ∈ F) (kaplic : Kind.aplic ∈ F) (kaplicRegs : Kind.aplicRegs ∈ F) (kpaused : Kind.paused ∈ F) (kcsq : Kind.csq ∈ F) (kslots : Kind.slots ∈ F) (kposts : Kind.posts ∈ F) (klaunches : Kind.launches ∈ F) (knextLaunch : Kind.nextLaunch ∈ F) (kunitAccept : Kind.unitAccept ∈ F) (kecc : Kind.ecc ∈ F) (kreleasing : Kind.releasing ∈ F) (kviUsed : Kind.viUsed ∈ F) (kmc : Kind.mc ∈ F) (kpoison : Kind.poison ∈ F) (kxeKeys : Kind.xeKeys ∈ F) (kxeLoads : Kind.xeLoads ∈ F) (kslotKey : Kind.slotKey ∈ F) (kcache : Kind.cache ∈ F) (kplru : Kind.plru ∈ F) (kstreams : Kind.streams ∈ F) (kpitonBusy : Kind.pitonBusy ∈ F) (kslices : Kind.slices ∈ F) (kwbTag : Kind.wbTag ∈ F) (kring : Kind.ring ∈ F) (khomes : Kind.homes ∈ F) (ksf : Kind.sf ∈ F) (ksfPlru : Kind.sfPlru ∈ F) (kfaultN : Kind.faultN ∈ F) (ktxIdle : Kind.txIdle ∈ F) (klinks : Kind.links ∈ F) (ktimeWordAt : Kind.timeWordAt ∈ F) (kmesh : Kind.mesh ∈ F) (kiotlb : Kind.iotlb ∈ F) (kqueues : Kind.queues ∈ F) (kqe : Kind.qe ∈ F) (kviBytes : Kind.viBytes ∈ F) (kviPend : Kind.viPend ∈ F) (kviAdmin : Kind.viAdmin ∈ F) (kfab : Kind.fab ∈ F) (kce : Kind.ce ∈ F) (kcectx : Kind.cectx ∈ F) (kboots : Kind.boots ∈ F) (kpciOpen : Kind.pciOpen ∈ F) (kpciTag : Kind.pciTag ∈ F) (keth : Kind.eth ∈ F) (kownReq : Kind.ownReq ∈ F) (kinvReq : Kind.invReq ∈ F) (knv : Kind.nv ∈ F) (kks : Kind.ks ∈ F) (kbelay : Kind.belay ∈ F) (kpwr : Kind.pwr ∈ F) (kcaps : Kind.caps ∈ F) (kcapBusy : Kind.capBusy ∈ F) (ktrace : Kind.trace ∈ F) (ktbRegs : Kind.tbRegs ∈ F) (h : Keeps F r s) (c : Issuer) (a : Nat) (size : Nat) (v : Word) :
    Keeps F r (State.busWrite s c a size v) := by
  unfold State.busWrite
  try lift_lets
  repeat' first
  | with_reducible assumption
  | exact Or.inl (by with_reducible assumption)
  | (refine Or.inr ?_; (repeat with_reducible apply Nat.le_add_right_of_le); first | decide | omega)
  | with_reducible rfl
  | with_reducible apply State.when_keeps
  | with_reducible apply State.aplicGuard_keeps
  | with_reducible apply State.writeAplic_keeps
  | with_reducible apply State.violation_keeps
  | with_reducible apply State.msi_keeps
  | with_reducible apply State.regWrite_keeps
  | with_reducible apply State.ioToDie_keeps
  | with_reducible apply State.pitonDo_keeps
  | with_reducible apply State.windowDo_keeps
  | with_reducible apply State.remoteDo_keeps
  | with_reducible apply State.worldError_keeps
  | with_reducible apply State.routeError_keeps
  | with_reducible refine Keeps.ite ?_ ?_
  | with_reducible refine OptKeeps.get (by with_reducible assumption) ?_
  | with_reducible refine Keeps.elim ?_ ?_
  | with_reducible refine Keeps.foldl_fst ?_ _ _ ?_
  | with_reducible refine Keeps.foldl ?_ _ _ ?_
  | split
  | (with_reducible intro x; refine Keeps.cut (F := F) (r := r) (s := x) ?_ (fun hx => ?_); on_goal 2 => clear_value x)
  | (with_reducible intro x; refine Keeps.cut (F := F) (r := r) (s := x.1) ?_ (fun hx => ?_); on_goal 2 => clear_value x)
  | (with_reducible intro y)
  | (lift_lets; with_reducible intro x; refine Keeps.cut (F := F) (r := r) (s := x) ?_ (fun hx => ?_); on_goal 2 => clear_value x)
  | (lift_lets; with_reducible intro x; refine Keeps.cut (F := F) (r := r) (s := x.1) ?_ (fun hx => ?_); on_goal 2 => clear_value x)
  | (lift_lets; with_reducible intro y)
  | simp only [id]
  | dsimp only

theorem State.newtWrite_keeps {F : List Kind} {r s : State} (kregs : Kind.regs ∈ F) (khregs : Kind.hregs ∈ F) (kmem : Kind.mem ∈ F) (kup : Kind.up ∈ F) (kresp : Kind.resp ∈ F) (kout : Kind.out ∈ F) (kfree : Kind.free ∈ F) (knewtIrq : Kind.newtIrq ∈ F) (kfieldOps : Kind.fieldOps ∈ F) (ktb : Kind.tb ∈ F) (khart : Kind.hart ∈ F) (kfiles : Kind.files ∈ F) (kgftag : Kind.gftag ∈ F) (kdie : Kind.die ∈ F) (kaplic : Kind.aplic ∈ F) (kaplicRegs : Kind.aplicRegs ∈ F) (kpaused : Kind.paused ∈ F) (kcsq : Kind.csq ∈ F) (kslots : Kind.slots ∈ F) (kposts : Kind.posts ∈ F) (klaunches : Kind.launches ∈ F) (knextLaunch : Kind.nextLaunch ∈ F) (kunitAccept : Kind.unitAccept ∈ F) (kecc : Kind.ecc ∈ F) (kreleasing : Kind.releasing ∈ F) (kviUsed : Kind.viUsed ∈ F) (kmc : Kind.mc ∈ F) (kpoison : Kind.poison ∈ F) (kxeKeys : Kind.xeKeys ∈ F) (kxeLoads : Kind.xeLoads ∈ F) (kslotKey : Kind.slotKey ∈ F) (kcache : Kind.cache ∈ F) (kplru : Kind.plru ∈ F) (kstreams : Kind.streams ∈ F) (kpitonBusy : Kind.pitonBusy ∈ F) (kslices : Kind.slices ∈ F) (kwbTag : Kind.wbTag ∈ F) (kring : Kind.ring ∈ F) (khomes : Kind.homes ∈ F) (ksf : Kind.sf ∈ F) (ksfPlru : Kind.sfPlru ∈ F) (kfaultN : Kind.faultN ∈ F) (ktxIdle : Kind.txIdle ∈ F) (klinks : Kind.links ∈ F) (ktimeWordAt : Kind.timeWordAt ∈ F) (kmesh : Kind.mesh ∈ F) (kiotlb : Kind.iotlb ∈ F) (kqueues : Kind.queues ∈ F) (kqe : Kind.qe ∈ F) (kviBytes : Kind.viBytes ∈ F) (kviPend : Kind.viPend ∈ F) (kviAdmin : Kind.viAdmin ∈ F) (kfab : Kind.fab ∈ F) (kce : Kind.ce ∈ F) (kcectx : Kind.cectx ∈ F) (kboots : Kind.boots ∈ F) (kpciOpen : Kind.pciOpen ∈ F) (kpciTag : Kind.pciTag ∈ F) (keth : Kind.eth ∈ F) (kownReq : Kind.ownReq ∈ F) (kinvReq : Kind.invReq ∈ F) (knv : Kind.nv ∈ F) (kks : Kind.ks ∈ F) (kbelay : Kind.belay ∈ F) (kpwr : Kind.pwr ∈ F) (kcaps : Kind.caps ∈ F) (kcapBusy : Kind.capBusy ∈ F) (ktrace : Kind.trace ∈ F) (ktbRegs : Kind.tbRegs ∈ F) (h : Keeps F r s) (a : Nat) (size : Nat) (v : Word) :
    Keeps F r (State.newtWrite s a size v) := by
  unfold State.newtWrite
  try lift_lets
  repeat' first
  | with_reducible assumption
  | exact Or.inl (by with_reducible assumption)
  | (refine Or.inr ?_; (repeat with_reducible apply Nat.le_add_right_of_le); first | decide | omega)
  | with_reducible rfl
  | with_reducible apply State.answer_keeps
  | with_reducible apply State.writeBytes_keeps
  | with_reducible apply State.busWrite_keeps
  | with_reducible refine Keeps.ite ?_ ?_
  | with_reducible refine OptKeeps.get (by with_reducible assumption) ?_
  | with_reducible refine Keeps.elim ?_ ?_
  | with_reducible refine Keeps.foldl_fst ?_ _ _ ?_
  | with_reducible refine Keeps.foldl ?_ _ _ ?_
  | split
  | (with_reducible intro x; refine Keeps.cut (F := F) (r := r) (s := x) ?_ (fun hx => ?_); on_goal 2 => clear_value x)
  | (with_reducible intro x; refine Keeps.cut (F := F) (r := r) (s := x.1) ?_ (fun hx => ?_); on_goal 2 => clear_value x)
  | (with_reducible intro y)
  | (lift_lets; with_reducible intro x; refine Keeps.cut (F := F) (r := r) (s := x) ?_ (fun hx => ?_); on_goal 2 => clear_value x)
  | (lift_lets; with_reducible intro x; refine Keeps.cut (F := F) (r := r) (s := x.1) ?_ (fun hx => ?_); on_goal 2 => clear_value x)
  | (lift_lets; with_reducible intro y)
  | simp only [id]
  | dsimp only

theorem execIoWr_keeps {F : List Kind} {r s : State} (kregs : Kind.regs ∈ F) (khregs : Kind.hregs ∈ F) (kmem : Kind.mem ∈ F) (kup : Kind.up ∈ F) (kresp : Kind.resp ∈ F) (kout : Kind.out ∈ F) (kfree : Kind.free ∈ F) (knewtIrq : Kind.newtIrq ∈ F) (kfieldOps : Kind.fieldOps ∈ F) (ktb : Kind.tb ∈ F) (khart : Kind.hart ∈ F) (kfiles : Kind.files ∈ F) (kgftag : Kind.gftag ∈ F) (kdie : Kind.die ∈ F) (kaplic : Kind.aplic ∈ F) (kaplicRegs : Kind.aplicRegs ∈ F) (kpaused : Kind.paused ∈ F) (kcsq : Kind.csq ∈ F) (kslots : Kind.slots ∈ F) (kposts : Kind.posts ∈ F) (klaunches : Kind.launches ∈ F) (knextLaunch : Kind.nextLaunch ∈ F) (kunitAccept : Kind.unitAccept ∈ F) (kecc : Kind.ecc ∈ F) (kreleasing : Kind.releasing ∈ F) (kviUsed : Kind.viUsed ∈ F) (kmc : Kind.mc ∈ F) (kpoison : Kind.poison ∈ F) (kxeKeys : Kind.xeKeys ∈ F) (kxeLoads : Kind.xeLoads ∈ F) (kslotKey : Kind.slotKey ∈ F) (kcache : Kind.cache ∈ F) (kplru : Kind.plru ∈ F) (kstreams : Kind.streams ∈ F) (kpitonBusy : Kind.pitonBusy ∈ F) (kslices : Kind.slices ∈ F) (kwbTag : Kind.wbTag ∈ F) (kring : Kind.ring ∈ F) (khomes : Kind.homes ∈ F) (ksf : Kind.sf ∈ F) (ksfPlru : Kind.sfPlru ∈ F) (kfaultN : Kind.faultN ∈ F) (ktxIdle : Kind.txIdle ∈ F) (klinks : Kind.links ∈ F) (ktimeWordAt : Kind.timeWordAt ∈ F) (kmesh : Kind.mesh ∈ F) (kiotlb : Kind.iotlb ∈ F) (kqueues : Kind.queues ∈ F) (kqe : Kind.qe ∈ F) (kviBytes : Kind.viBytes ∈ F) (kviPend : Kind.viPend ∈ F) (kviAdmin : Kind.viAdmin ∈ F) (kfab : Kind.fab ∈ F) (kce : Kind.ce ∈ F) (kcectx : Kind.cectx ∈ F) (kboots : Kind.boots ∈ F) (kpciOpen : Kind.pciOpen ∈ F) (kpciTag : Kind.pciTag ∈ F) (keth : Kind.eth ∈ F) (kownReq : Kind.ownReq ∈ F) (kinvReq : Kind.invReq ∈ F) (knv : Kind.nv ∈ F) (kks : Kind.ks ∈ F) (kbelay : Kind.belay ∈ F) (kpwr : Kind.pwr ∈ F) (kcaps : Kind.caps ∈ F) (kcapBusy : Kind.capBusy ∈ F) (ktrace : Kind.trace ∈ F) (ktbRegs : Kind.tbRegs ∈ F) (h : Keeps F r s) (die : Fin 12) (c : Issuer) (addr : PAddr) (size : Nat) (value : Word) :
    ResKeeps F r (execIoWr die c addr size value s) := by
  unfold execIoWr
  try lift_lets
  repeat' first
  | with_reducible assumption
  | exact Or.inl (by with_reducible assumption)
  | (refine Or.inr ?_; (repeat with_reducible apply Nat.le_add_right_of_le); first | decide | omega)
  | with_reducible rfl
  | with_reducible apply State.devCmd_keeps
  | with_reducible apply State.newtWrite_keeps
  | with_reducible apply State.answer_keeps
  | with_reducible apply State.busWrite_keeps
  | with_reducible apply ResKeeps.next
  | with_reducible refine ResKeeps.ite ?_ ?_
  | with_reducible refine Keeps.ite ?_ ?_
  | with_reducible refine OptKeeps.get (by with_reducible assumption) ?_
  | with_reducible refine Keeps.elim ?_ ?_
  | with_reducible refine Keeps.foldl_fst ?_ _ _ ?_
  | with_reducible refine Keeps.foldl ?_ _ _ ?_
  | split
  | (with_reducible intro x; refine Keeps.cut (F := F) (r := r) (s := x) ?_ (fun hx => ?_); on_goal 2 => clear_value x)
  | (with_reducible intro x; refine Keeps.cut (F := F) (r := r) (s := x.1) ?_ (fun hx => ?_); on_goal 2 => clear_value x)
  | (with_reducible intro y)
  | (lift_lets; with_reducible intro x; refine Keeps.cut (F := F) (r := r) (s := x) ?_ (fun hx => ?_); on_goal 2 => clear_value x)
  | (lift_lets; with_reducible intro x; refine Keeps.cut (F := F) (r := r) (s := x.1) ?_ (fun hx => ?_); on_goal 2 => clear_value x)
  | (lift_lets; with_reducible intro y)
  | simp only [id]
  | dsimp only

theorem State.otherMakeDo_keeps {F : List Kind} {r s : State} (kregs : Kind.regs ∈ F) (kresp : Kind.resp ∈ F) (kout : Kind.out ∈ F) (knewtIrq : Kind.newtIrq ∈ F) (kfieldOps : Kind.fieldOps ∈ F) (kfiles : Kind.files ∈ F) (kdie : Kind.die ∈ F) (kaplic : Kind.aplic ∈ F) (kpaused : Kind.paused ∈ F) (klinks : Kind.links ∈ F) (kmesh : Kind.mesh ∈ F) (kcaps : Kind.caps ∈ F) (kcapBusy : Kind.capBusy ∈ F) (h : Keeps F r s) (d : Nat) (c : Issuer) (a : Nat) (k : PitonKind) :
    Keeps F r (State.otherMakeDo s d c a k) := by
  unfold State.otherMakeDo
  try lift_lets
  repeat' first
  | with_reducible assumption
  | exact Or.inl (by with_reducible assumption)
  | (refine Or.inr ?_; (repeat with_reducible apply Nat.le_add_right_of_le); first | decide | omega)
  | with_reducible rfl
  | with_reducible apply State.forAll_keeps
  | with_reducible apply State.ioToDie_keeps
  | with_reducible apply State.answer_keeps
  | with_reducible refine Keeps.ite ?_ ?_
  | with_reducible refine OptKeeps.get (by with_reducible assumption) ?_
  | with_reducible refine Keeps.elim ?_ ?_
  | with_reducible refine Keeps.foldl_fst ?_ _ _ ?_
  | with_reducible refine Keeps.foldl ?_ _ _ ?_
  | split
  | (with_reducible intro x; refine Keeps.cut (F := F) (r := r) (s := x) ?_ (fun hx => ?_); on_goal 2 => clear_value x)
  | (with_reducible intro x; refine Keeps.cut (F := F) (r := r) (s := x.1) ?_ (fun hx => ?_); on_goal 2 => clear_value x)
  | (with_reducible intro y)
  | (lift_lets; with_reducible intro x; refine Keeps.cut (F := F) (r := r) (s := x) ?_ (fun hx => ?_); on_goal 2 => clear_value x)
  | (lift_lets; with_reducible intro x; refine Keeps.cut (F := F) (r := r) (s := x.1) ?_ (fun hx => ?_); on_goal 2 => clear_value x)
  | (lift_lets; with_reducible intro y)
  | simp only [id]
  | dsimp only

theorem execPitonAccess_keeps {F : List Kind} {r s : State} (kregs : Kind.regs ∈ F) (kmem : Kind.mem ∈ F) (kresp : Kind.resp ∈ F) (kout : Kind.out ∈ F) (knewtIrq : Kind.newtIrq ∈ F) (kfieldOps : Kind.fieldOps ∈ F) (kfiles : Kind.files ∈ F) (kdie : Kind.die ∈ F) (kaplic : Kind.aplic ∈ F) (kpaused : Kind.paused ∈ F) (klinks : Kind.links ∈ F) (kmesh : Kind.mesh ∈ F) (kcaps : Kind.caps ∈ F) (kcapBusy : Kind.capBusy ∈ F) (h : Keeps F r s) (c : Issuer) (addr : PAddr) (k : PitonKind) :
    ResKeeps F r (execPitonAccess c addr k s) := by
  unfold execPitonAccess
  try lift_lets
  repeat' first
  | with_reducible assumption
  | exact Or.inl (by with_reducible assumption)
  | (refine Or.inr ?_; (repeat with_reducible apply Nat.le_add_right_of_le); first | decide | omega)
  | with_reducible rfl
  | with_reducible apply State.answer_keeps
  | with_reducible apply State.otherMakeDo_keeps
  | with_reducible apply State.pitonDo_keeps
  | with_reducible apply ResKeeps.next
  | with_reducible refine ResKeeps.ite ?_ ?_
  | with_reducible refine Keeps.ite ?_ ?_
  | with_reducible refine OptKeeps.get (by with_reducible assumption) ?_
  | with_reducible refine Keeps.elim ?_ ?_
  | with_reducible refine Keeps.foldl_fst ?_ _ _ ?_
  | with_reducible refine Keeps.foldl ?_ _ _ ?_
  | split
  | (with_reducible intro x; refine Keeps.cut (F := F) (r := r) (s := x) ?_ (fun hx => ?_); on_goal 2 => clear_value x)
  | (with_reducible intro x; refine Keeps.cut (F := F) (r := r) (s := x.1) ?_ (fun hx => ?_); on_goal 2 => clear_value x)
  | (with_reducible intro y)
  | (lift_lets; with_reducible intro x; refine Keeps.cut (F := F) (r := r) (s := x) ?_ (fun hx => ?_); on_goal 2 => clear_value x)
  | (lift_lets; with_reducible intro x; refine Keeps.cut (F := F) (r := r) (s := x.1) ?_ (fun hx => ?_); on_goal 2 => clear_value x)
  | (lift_lets; with_reducible intro y)
  | simp only [id]
  | dsimp only

theorem State.zeroOutside_keeps {F : List Kind} {r s : State} (kregs : Kind.regs ∈ F) (khregs : Kind.hregs ∈ F) (kmem : Kind.mem ∈ F) (kup : Kind.up ∈ F) (kresp : Kind.resp ∈ F) (kout : Kind.out ∈ F) (kfree : Kind.free ∈ F) (knewtIrq : Kind.newtIrq ∈ F) (kfieldOps : Kind.fieldOps ∈ F) (ktb : Kind.tb ∈ F) (khart : Kind.hart ∈ F) (kfiles : Kind.files ∈ F) (kgftag : Kind.gftag ∈ F) (kdie : Kind.die ∈ F) (kaplic : Kind.aplic ∈ F) (kaplicRegs : Kind.aplicRegs ∈ F) (kpaused : Kind.paused ∈ F) (kcsq : Kind.csq ∈ F) (kslots : Kind.slots ∈ F) (kposts : Kind.posts ∈ F) (klaunches : Kind.launches ∈ F) (knextLaunch : Kind.nextLaunch ∈ F) (kunitAccept : Kind.unitAccept ∈ F) (kecc : Kind.ecc ∈ F) (kreleasing : Kind.releasing ∈ F) (kviUsed : Kind.viUsed ∈ F) (kmc : Kind.mc ∈ F) (kpoison : Kind.poison ∈ F) (kxeKeys : Kind.xeKeys ∈ F) (kxeLoads : Kind.xeLoads ∈ F) (kslotKey : Kind.slotKey ∈ F) (kcache : Kind.cache ∈ F) (kplru : Kind.plru ∈ F) (kstreams : Kind.streams ∈ F) (kpitonBusy : Kind.pitonBusy ∈ F) (kslices : Kind.slices ∈ F) (kwbTag : Kind.wbTag ∈ F) (kring : Kind.ring ∈ F) (khomes : Kind.homes ∈ F) (ksf : Kind.sf ∈ F) (ksfPlru : Kind.sfPlru ∈ F) (kfaultN : Kind.faultN ∈ F) (ktxIdle : Kind.txIdle ∈ F) (klinks : Kind.links ∈ F) (ktimeWordAt : Kind.timeWordAt ∈ F) (kmesh : Kind.mesh ∈ F) (kiotlb : Kind.iotlb ∈ F) (kqueues : Kind.queues ∈ F) (kqe : Kind.qe ∈ F) (kviBytes : Kind.viBytes ∈ F) (kviPend : Kind.viPend ∈ F) (kviAdmin : Kind.viAdmin ∈ F) (kfab : Kind.fab ∈ F) (kce : Kind.ce ∈ F) (kcectx : Kind.cectx ∈ F) (kboots : Kind.boots ∈ F) (kpciOpen : Kind.pciOpen ∈ F) (kpciTag : Kind.pciTag ∈ F) (keth : Kind.eth ∈ F) (kownReq : Kind.ownReq ∈ F) (kinvReq : Kind.invReq ∈ F) (knv : Kind.nv ∈ F) (kks : Kind.ks ∈ F) (kbelay : Kind.belay ∈ F) (kpwr : Kind.pwr ∈ F) (kcaps : Kind.caps ∈ F) (kcapBusy : Kind.capBusy ∈ F) (ktrace : Kind.trace ∈ F) (ktbRegs : Kind.tbRegs ∈ F) (h : Keeps F r s) (c : Issuer) (a : Nat) :
    Keeps F r (State.zeroOutside s c a) := by
  unfold State.zeroOutside
  try lift_lets
  repeat' first
  | with_reducible assumption
  | exact Or.inl (by with_reducible assumption)
  | (refine Or.inr ?_; (repeat with_reducible apply Nat.le_add_right_of_le); first | decide | omega)
  | with_reducible rfl
  | with_reducible apply State.when_keeps
  | with_reducible apply State.pitonDo_keeps
  | with_reducible apply State.forAll_keeps
  | with_reducible apply State.busWrite_keeps
  | with_reducible apply State.answer_keeps
  | with_reducible refine Keeps.ite ?_ ?_
  | with_reducible refine OptKeeps.get (by with_reducible assumption) ?_
  | with_reducible refine Keeps.elim ?_ ?_
  | with_reducible refine Keeps.foldl_fst ?_ _ _ ?_
  | with_reducible refine Keeps.foldl ?_ _ _ ?_
  | split
  | (with_reducible intro x; refine Keeps.cut (F := F) (r := r) (s := x) ?_ (fun hx => ?_); on_goal 2 => clear_value x)
  | (with_reducible intro x; refine Keeps.cut (F := F) (r := r) (s := x.1) ?_ (fun hx => ?_); on_goal 2 => clear_value x)
  | (with_reducible intro y)
  | (lift_lets; with_reducible intro x; refine Keeps.cut (F := F) (r := r) (s := x) ?_ (fun hx => ?_); on_goal 2 => clear_value x)
  | (lift_lets; with_reducible intro x; refine Keeps.cut (F := F) (r := r) (s := x.1) ?_ (fun hx => ?_); on_goal 2 => clear_value x)
  | (lift_lets; with_reducible intro y)
  | simp only [id]
  | dsimp only

theorem execCboZero_keeps {F : List Kind} {r s : State} (kregs : Kind.regs ∈ F) (khregs : Kind.hregs ∈ F) (kmem : Kind.mem ∈ F) (kup : Kind.up ∈ F) (kresp : Kind.resp ∈ F) (kout : Kind.out ∈ F) (kfree : Kind.free ∈ F) (knewtIrq : Kind.newtIrq ∈ F) (kfieldOps : Kind.fieldOps ∈ F) (ktb : Kind.tb ∈ F) (khart : Kind.hart ∈ F) (kfiles : Kind.files ∈ F) (kgftag : Kind.gftag ∈ F) (kdie : Kind.die ∈ F) (kaplic : Kind.aplic ∈ F) (kaplicRegs : Kind.aplicRegs ∈ F) (kpaused : Kind.paused ∈ F) (kcsq : Kind.csq ∈ F) (kslots : Kind.slots ∈ F) (kposts : Kind.posts ∈ F) (klaunches : Kind.launches ∈ F) (knextLaunch : Kind.nextLaunch ∈ F) (kunitAccept : Kind.unitAccept ∈ F) (kecc : Kind.ecc ∈ F) (kreleasing : Kind.releasing ∈ F) (kviUsed : Kind.viUsed ∈ F) (kmc : Kind.mc ∈ F) (kpoison : Kind.poison ∈ F) (kxeKeys : Kind.xeKeys ∈ F) (kxeLoads : Kind.xeLoads ∈ F) (kslotKey : Kind.slotKey ∈ F) (kcache : Kind.cache ∈ F) (kplru : Kind.plru ∈ F) (kstreams : Kind.streams ∈ F) (kpitonBusy : Kind.pitonBusy ∈ F) (kslices : Kind.slices ∈ F) (kwbTag : Kind.wbTag ∈ F) (kring : Kind.ring ∈ F) (khomes : Kind.homes ∈ F) (ksf : Kind.sf ∈ F) (ksfPlru : Kind.sfPlru ∈ F) (kfaultN : Kind.faultN ∈ F) (ktxIdle : Kind.txIdle ∈ F) (klinks : Kind.links ∈ F) (ktimeWordAt : Kind.timeWordAt ∈ F) (kmesh : Kind.mesh ∈ F) (kiotlb : Kind.iotlb ∈ F) (kqueues : Kind.queues ∈ F) (kqe : Kind.qe ∈ F) (kviBytes : Kind.viBytes ∈ F) (kviPend : Kind.viPend ∈ F) (kviAdmin : Kind.viAdmin ∈ F) (kfab : Kind.fab ∈ F) (kce : Kind.ce ∈ F) (kcectx : Kind.cectx ∈ F) (kboots : Kind.boots ∈ F) (kpciOpen : Kind.pciOpen ∈ F) (kpciTag : Kind.pciTag ∈ F) (keth : Kind.eth ∈ F) (kownReq : Kind.ownReq ∈ F) (kinvReq : Kind.invReq ∈ F) (knv : Kind.nv ∈ F) (kks : Kind.ks ∈ F) (kbelay : Kind.belay ∈ F) (kpwr : Kind.pwr ∈ F) (kcaps : Kind.caps ∈ F) (kcapBusy : Kind.capBusy ∈ F) (ktrace : Kind.trace ∈ F) (ktbRegs : Kind.tbRegs ∈ F) (h : Keeps F r s) (a_h : Fin 216) (mode : PrivMode) (line : Nat) :
    ResKeeps F r (execCboZero a_h mode line s) := by
  unfold execCboZero
  try lift_lets
  repeat' first
  | with_reducible assumption
  | exact Or.inl (by with_reducible assumption)
  | (refine Or.inr ?_; (repeat with_reducible apply Nat.le_add_right_of_le); first | decide | omega)
  | with_reducible rfl
  | with_reducible apply State.inMode_keeps
  | with_reducible apply State.answer_keeps
  | with_reducible apply State.hartAccess_keeps
  | with_reducible apply State.wcDrain_keeps
  | with_reducible apply State.zeroOutside_keeps
  | with_reducible apply ResKeeps.next
  | with_reducible refine ResKeeps.ite ?_ ?_
  | with_reducible refine Keeps.ite ?_ ?_
  | with_reducible refine OptKeeps.get (by with_reducible assumption) ?_
  | with_reducible refine Keeps.elim ?_ ?_
  | with_reducible refine Keeps.foldl_fst ?_ _ _ ?_
  | with_reducible refine Keeps.foldl ?_ _ _ ?_
  | split
  | (with_reducible intro x; refine Keeps.cut (F := F) (r := r) (s := x) ?_ (fun hx => ?_); on_goal 2 => clear_value x)
  | (with_reducible intro x; refine Keeps.cut (F := F) (r := r) (s := x.1) ?_ (fun hx => ?_); on_goal 2 => clear_value x)
  | (with_reducible intro y)
  | (lift_lets; with_reducible intro x; refine Keeps.cut (F := F) (r := r) (s := x) ?_ (fun hx => ?_); on_goal 2 => clear_value x)
  | (lift_lets; with_reducible intro x; refine Keeps.cut (F := F) (r := r) (s := x.1) ?_ (fun hx => ?_); on_goal 2 => clear_value x)
  | (lift_lets; with_reducible intro y)
  | simp only [id]
  | dsimp only

theorem execRegisterWrite_keeps {F : List Kind} {r s : State} (kregs : Kind.regs ∈ F) (khregs : Kind.hregs ∈ F) (kmem : Kind.mem ∈ F) (kup : Kind.up ∈ F) (kresp : Kind.resp ∈ F) (kout : Kind.out ∈ F) (kfree : Kind.free ∈ F) (knewtIrq : Kind.newtIrq ∈ F) (kfieldOps : Kind.fieldOps ∈ F) (ktb : Kind.tb ∈ F) (khart : Kind.hart ∈ F) (kfiles : Kind.files ∈ F) (kgftag : Kind.gftag ∈ F) (kdie : Kind.die ∈ F) (kaplic : Kind.aplic ∈ F) (kaplicRegs : Kind.aplicRegs ∈ F) (kpaused : Kind.paused ∈ F) (kcsq : Kind.csq ∈ F) (kslots : Kind.slots ∈ F) (kposts : Kind.posts ∈ F) (klaunches : Kind.launches ∈ F) (knextLaunch : Kind.nextLaunch ∈ F) (kunitAccept : Kind.unitAccept ∈ F) (kecc : Kind.ecc ∈ F) (kreleasing : Kind.releasing ∈ F) (kviUsed : Kind.viUsed ∈ F) (kmc : Kind.mc ∈ F) (kpoison : Kind.poison ∈ F) (kxeKeys : Kind.xeKeys ∈ F) (kxeLoads : Kind.xeLoads ∈ F) (kslotKey : Kind.slotKey ∈ F) (kcache : Kind.cache ∈ F) (kplru : Kind.plru ∈ F) (kstreams : Kind.streams ∈ F) (kpitonBusy : Kind.pitonBusy ∈ F) (kslices : Kind.slices ∈ F) (kwbTag : Kind.wbTag ∈ F) (kring : Kind.ring ∈ F) (khomes : Kind.homes ∈ F) (ksf : Kind.sf ∈ F) (ksfPlru : Kind.sfPlru ∈ F) (kfaultN : Kind.faultN ∈ F) (ktxIdle : Kind.txIdle ∈ F) (klinks : Kind.links ∈ F) (ktimeWordAt : Kind.timeWordAt ∈ F) (kmesh : Kind.mesh ∈ F) (kiotlb : Kind.iotlb ∈ F) (kqueues : Kind.queues ∈ F) (kqe : Kind.qe ∈ F) (kviBytes : Kind.viBytes ∈ F) (kviPend : Kind.viPend ∈ F) (kviAdmin : Kind.viAdmin ∈ F) (kfab : Kind.fab ∈ F) (kce : Kind.ce ∈ F) (kcectx : Kind.cectx ∈ F) (kboots : Kind.boots ∈ F) (kpciOpen : Kind.pciOpen ∈ F) (kpciTag : Kind.pciTag ∈ F) (keth : Kind.eth ∈ F) (kownReq : Kind.ownReq ∈ F) (kinvReq : Kind.invReq ∈ F) (knv : Kind.nv ∈ F) (kks : Kind.ks ∈ F) (kbelay : Kind.belay ∈ F) (kpwr : Kind.pwr ∈ F) (kcaps : Kind.caps ∈ F) (kcapBusy : Kind.capBusy ∈ F) (ktrace : Kind.trace ∈ F) (ktbRegs : Kind.tbRegs ∈ F) (h : Keeps F r s) (c : Issuer) (target : RegTarget) (value : Word) :
    ResKeeps F r (execRegisterWrite c target value s) := by
  unfold execRegisterWrite
  try lift_lets
  repeat' first
  | with_reducible assumption
  | exact Or.inl (by with_reducible assumption)
  | (refine Or.inr ?_; (repeat with_reducible apply Nat.le_add_right_of_le); first | decide | omega)
  | with_reducible rfl
  | with_reducible apply State.devCmd_keeps
  | with_reducible apply State.newtWrite_keeps
  | with_reducible apply State.answer_keeps
  | with_reducible apply State.busWrite_keeps
  | with_reducible apply State.inMode_keeps
  | with_reducible apply State.writeWsw_keeps
  | with_reducible apply State.writeCsr_keeps
  | with_reducible apply ResKeeps.next
  | with_reducible refine ResKeeps.ite ?_ ?_
  | with_reducible refine Keeps.ite ?_ ?_
  | with_reducible refine OptKeeps.get (by with_reducible assumption) ?_
  | with_reducible refine Keeps.elim ?_ ?_
  | with_reducible refine Keeps.foldl_fst ?_ _ _ ?_
  | with_reducible refine Keeps.foldl ?_ _ _ ?_
  | split
  | (with_reducible intro x; refine Keeps.cut (F := F) (r := r) (s := x) ?_ (fun hx => ?_); on_goal 2 => clear_value x)
  | (with_reducible intro x; refine Keeps.cut (F := F) (r := r) (s := x.1) ?_ (fun hx => ?_); on_goal 2 => clear_value x)
  | (with_reducible intro y)
  | (lift_lets; with_reducible intro x; refine Keeps.cut (F := F) (r := r) (s := x) ?_ (fun hx => ?_); on_goal 2 => clear_value x)
  | (lift_lets; with_reducible intro x; refine Keeps.cut (F := F) (r := r) (s := x.1) ?_ (fun hx => ?_); on_goal 2 => clear_value x)
  | (lift_lets; with_reducible intro y)
  | simp only [id]
  | dsimp only

theorem State.jtagHalt_keeps {F : List Kind} {r s : State} (kresp : Kind.resp ∈ F) (khart : Kind.hart ∈ F) (h : Keeps F r s) (a1 : Nat) :
    Keeps F r (State.jtagHalt s a1) := by
  unfold State.jtagHalt
  try lift_lets
  repeat' first
  | with_reducible assumption
  | with_reducible apply State.answer_keeps
  | with_reducible apply State.setHart_keeps
  | with_reducible refine Keeps.ite ?_ ?_

theorem State.jtagMem_keeps {F : List Kind} {r s : State} (kregs : Kind.regs ∈ F) (kresp : Kind.resp ∈ F) (knewtIrq : Kind.newtIrq ∈ F) (kfieldOps : Kind.fieldOps ∈ F) (kpaused : Kind.paused ∈ F) (kcaps : Kind.caps ∈ F) (kcapBusy : Kind.capBusy ∈ F) (h : Keeps F r s) (c : Issuer) (a : Nat) (n : Nat) (f : State → State) (hf : ∀ x, Keeps F r x → Keeps F r (f x)) :
    Keeps F r (State.jtagMem s c a n f) := by
  unfold State.jtagMem
  try lift_lets
  repeat' first
  | with_reducible assumption
  | with_reducible apply hf
  | with_reducible apply State.answer_keeps
  | with_reducible apply State.logRec_keeps
  | with_reducible refine Keeps.ite ?_ ?_

theorem execJtagDebugRequest_keeps {F : List Kind} {r s : State} (kregs : Kind.regs ∈ F) (khregs : Kind.hregs ∈ F) (kmem : Kind.mem ∈ F) (kup : Kind.up ∈ F) (kresp : Kind.resp ∈ F) (kout : Kind.out ∈ F) (kfree : Kind.free ∈ F) (knewtIrq : Kind.newtIrq ∈ F) (kfieldOps : Kind.fieldOps ∈ F) (ktb : Kind.tb ∈ F) (khart : Kind.hart ∈ F) (kfiles : Kind.files ∈ F) (kgftag : Kind.gftag ∈ F) (kdie : Kind.die ∈ F) (kaplic : Kind.aplic ∈ F) (kaplicRegs : Kind.aplicRegs ∈ F) (kpaused : Kind.paused ∈ F) (kcsq : Kind.csq ∈ F) (kslots : Kind.slots ∈ F) (kposts : Kind.posts ∈ F) (klaunches : Kind.launches ∈ F) (knextLaunch : Kind.nextLaunch ∈ F) (kunitAccept : Kind.unitAccept ∈ F) (kecc : Kind.ecc ∈ F) (kreleasing : Kind.releasing ∈ F) (kviUsed : Kind.viUsed ∈ F) (kmc : Kind.mc ∈ F) (kpoison : Kind.poison ∈ F) (kxeKeys : Kind.xeKeys ∈ F) (kxeLoads : Kind.xeLoads ∈ F) (kslotKey : Kind.slotKey ∈ F) (kcache : Kind.cache ∈ F) (kplru : Kind.plru ∈ F) (kstreams : Kind.streams ∈ F) (kpitonBusy : Kind.pitonBusy ∈ F) (kslices : Kind.slices ∈ F) (kwbTag : Kind.wbTag ∈ F) (kring : Kind.ring ∈ F) (khomes : Kind.homes ∈ F) (ksf : Kind.sf ∈ F) (ksfPlru : Kind.sfPlru ∈ F) (kfaultN : Kind.faultN ∈ F) (ktxIdle : Kind.txIdle ∈ F) (klinks : Kind.links ∈ F) (ktimeWordAt : Kind.timeWordAt ∈ F) (kmesh : Kind.mesh ∈ F) (kiotlb : Kind.iotlb ∈ F) (kqueues : Kind.queues ∈ F) (kqe : Kind.qe ∈ F) (kviBytes : Kind.viBytes ∈ F) (kviPend : Kind.viPend ∈ F) (kviAdmin : Kind.viAdmin ∈ F) (kfab : Kind.fab ∈ F) (kce : Kind.ce ∈ F) (kcectx : Kind.cectx ∈ F) (kboots : Kind.boots ∈ F) (kpciOpen : Kind.pciOpen ∈ F) (kpciTag : Kind.pciTag ∈ F) (keth : Kind.eth ∈ F) (kownReq : Kind.ownReq ∈ F) (kinvReq : Kind.invReq ∈ F) (knv : Kind.nv ∈ F) (kks : Kind.ks ∈ F) (kbelay : Kind.belay ∈ F) (kpwr : Kind.pwr ∈ F) (kcaps : Kind.caps ∈ F) (kcapBusy : Kind.capBusy ∈ F) (ktrace : Kind.trace ∈ F) (ktbRegs : Kind.tbRegs ∈ F) (h : Keeps F r s) (a_r : JtagReq) :
    ResKeeps F r (execJtagDebugRequest a_r s) := by
  unfold execJtagDebugRequest
  try lift_lets
  repeat' first
  | with_reducible assumption
  | exact Or.inl (by with_reducible assumption)
  | (refine Or.inr ?_; (repeat with_reducible apply Nat.le_add_right_of_le); first | decide | omega)
  | with_reducible rfl
  | with_reducible apply State.devCmd_keeps
  | with_reducible apply State.answer_keeps
  | with_reducible apply State.when_keeps
  | with_reducible apply State.jtagHalt_keeps
  | with_reducible apply State.setHart_keeps
  | with_reducible apply State.jtagMem_keeps
  | with_reducible apply State.devRead_keeps
  | with_reducible apply State.busRead_keeps
  | with_reducible apply State.devWrite_keeps
  | with_reducible apply State.busWrite_keeps
  | with_reducible apply State.setHreg_keeps
  | with_reducible apply State.writeCsr_keeps
  | with_reducible apply ResKeeps.next
  | with_reducible refine ResKeeps.ite ?_ ?_
  | with_reducible refine Keeps.ite ?_ ?_
  | with_reducible refine OptKeeps.get (by with_reducible assumption) ?_
  | with_reducible refine Keeps.elim ?_ ?_
  | with_reducible refine Keeps.foldl_fst ?_ _ _ ?_
  | with_reducible refine Keeps.foldl ?_ _ _ ?_
  | split
  | (with_reducible intro x; refine Keeps.cut (F := F) (r := r) (s := x) ?_ (fun hx => ?_); on_goal 2 => clear_value x)
  | (with_reducible intro x; refine Keeps.cut (F := F) (r := r) (s := x.1) ?_ (fun hx => ?_); on_goal 2 => clear_value x)
  | (with_reducible intro y)
  | (lift_lets; with_reducible intro x; refine Keeps.cut (F := F) (r := r) (s := x) ?_ (fun hx => ?_); on_goal 2 => clear_value x)
  | (lift_lets; with_reducible intro x; refine Keeps.cut (F := F) (r := r) (s := x.1) ?_ (fun hx => ?_); on_goal 2 => clear_value x)
  | (lift_lets; with_reducible intro y)
  | simp only [id]
  | dsimp only

end Sys2Proof.Machine
end

