-- ==== Sys2Proof/Laws/State.lean ====
section
/-! SUPPORT. One lemma per field of State per update, true by unfolding, so that no proof unfolds a record update. -/

namespace Sys2Proof.Machine

/-! ### State.wr -/

@[simp] theorem State.wr_hregs (s : State) (k : Nat) (w : Word) : (s.wr k w).hregs = s.hregs := rfl
@[simp] theorem State.wr_mem (s : State) (k : Nat) (w : Word) : (s.wr k w).mem = s.mem := rfl
@[simp] theorem State.wr_up (s : State) (k : Nat) (w : Word) : (s.wr k w).up = s.up := rfl
@[simp] theorem State.wr_resp (s : State) (k : Nat) (w : Word) : (s.wr k w).resp = s.resp := rfl
@[simp] theorem State.wr_out (s : State) (k : Nat) (w : Word) : (s.wr k w).out = s.out := rfl
@[simp] theorem State.wr_free (s : State) (k : Nat) (w : Word) : (s.wr k w).free = s.free := rfl
@[simp] theorem State.wr_newtIrq (s : State) (k : Nat) (w : Word) : (s.wr k w).newtIrq = s.newtIrq := rfl
@[simp] theorem State.wr_fieldOps (s : State) (k : Nat) (w : Word) : (s.wr k w).fieldOps = s.fieldOps := rfl
@[simp] theorem State.wr_tb (s : State) (k : Nat) (w : Word) : (s.wr k w).tb = s.tb := rfl
@[simp] theorem State.wr_hart (s : State) (k : Nat) (w : Word) : (s.wr k w).hart = s.hart := rfl
@[simp] theorem State.wr_files (s : State) (k : Nat) (w : Word) : (s.wr k w).files = s.files := rfl
@[simp] theorem State.wr_gftag (s : State) (k : Nat) (w : Word) : (s.wr k w).gftag = s.gftag := rfl
@[simp] theorem State.wr_die (s : State) (k : Nat) (w : Word) : (s.wr k w).die = s.die := rfl
@[simp] theorem State.wr_aplic (s : State) (k : Nat) (w : Word) : (s.wr k w).aplic = s.aplic := rfl
@[simp] theorem State.wr_aplicRegs (s : State) (k : Nat) (w : Word) : (s.wr k w).aplicRegs = s.aplicRegs := rfl
@[simp] theorem State.wr_paused (s : State) (k : Nat) (w : Word) : (s.wr k w).paused = s.paused := rfl
@[simp] theorem State.wr_csq (s : State) (k : Nat) (w : Word) : (s.wr k w).csq = s.csq := rfl
@[simp] theorem State.wr_slots (s : State) (k : Nat) (w : Word) : (s.wr k w).slots = s.slots := rfl
@[simp] theorem State.wr_posts (s : State) (k : Nat) (w : Word) : (s.wr k w).posts = s.posts := rfl
@[simp] theorem State.wr_launches (s : State) (k : Nat) (w : Word) : (s.wr k w).launches = s.launches := rfl
@[simp] theorem State.wr_nextLaunch (s : State) (k : Nat) (w : Word) : (s.wr k w).nextLaunch = s.nextLaunch := rfl
@[simp] theorem State.wr_unitAccept (s : State) (k : Nat) (w : Word) : (s.wr k w).unitAccept = s.unitAccept := rfl
@[simp] theorem State.wr_ecc (s : State) (k : Nat) (w : Word) : (s.wr k w).ecc = s.ecc := rfl
@[simp] theorem State.wr_releasing (s : State) (k : Nat) (w : Word) : (s.wr k w).releasing = s.releasing := rfl
@[simp] theorem State.wr_viUsed (s : State) (k : Nat) (w : Word) : (s.wr k w).viUsed = s.viUsed := rfl
@[simp] theorem State.wr_mc (s : State) (k : Nat) (w : Word) : (s.wr k w).mc = s.mc := rfl
@[simp] theorem State.wr_poison (s : State) (k : Nat) (w : Word) : (s.wr k w).poison = s.poison := rfl
@[simp] theorem State.wr_xeKeys (s : State) (k : Nat) (w : Word) : (s.wr k w).xeKeys = s.xeKeys := rfl
@[simp] theorem State.wr_xeLoads (s : State) (k : Nat) (w : Word) : (s.wr k w).xeLoads = s.xeLoads := rfl
@[simp] theorem State.wr_slotKey (s : State) (k : Nat) (w : Word) : (s.wr k w).slotKey = s.slotKey := rfl
@[simp] theorem State.wr_cache (s : State) (k : Nat) (w : Word) : (s.wr k w).cache = s.cache := rfl
@[simp] theorem State.wr_plru (s : State) (k : Nat) (w : Word) : (s.wr k w).plru = s.plru := rfl
@[simp] theorem State.wr_streams (s : State) (k : Nat) (w : Word) : (s.wr k w).streams = s.streams := rfl
@[simp] theorem State.wr_pitonBusy (s : State) (k : Nat) (w : Word) : (s.wr k w).pitonBusy = s.pitonBusy := rfl
@[simp] theorem State.wr_slices (s : State) (k : Nat) (w : Word) : (s.wr k w).slices = s.slices := rfl
@[simp] theorem State.wr_wbTag (s : State) (k : Nat) (w : Word) : (s.wr k w).wbTag = s.wbTag := rfl
@[simp] theorem State.wr_ring (s : State) (k : Nat) (w : Word) : (s.wr k w).ring = s.ring := rfl
@[simp] theorem State.wr_homes (s : State) (k : Nat) (w : Word) : (s.wr k w).homes = s.homes := rfl
@[simp] theorem State.wr_sf (s : State) (k : Nat) (w : Word) : (s.wr k w).sf = s.sf := rfl
@[simp] theorem State.wr_sfPlru (s : State) (k : Nat) (w : Word) : (s.wr k w).sfPlru = s.sfPlru := rfl
@[simp] theorem State.wr_faultN (s : State) (k : Nat) (w : Word) : (s.wr k w).faultN = s.faultN := rfl
@[simp] theorem State.wr_txIdle (s : State) (k : Nat) (w : Word) : (s.wr k w).txIdle = s.txIdle := rfl
@[simp] theorem State.wr_links (s : State) (k : Nat) (w : Word) : (s.wr k w).links = s.links := rfl
@[simp] theorem State.wr_timeWordAt (s : State) (k : Nat) (w : Word) : (s.wr k w).timeWordAt = s.timeWordAt := rfl
@[simp] theorem State.wr_mesh (s : State) (k : Nat) (w : Word) : (s.wr k w).mesh = s.mesh := rfl
@[simp] theorem State.wr_iotlb (s : State) (k : Nat) (w : Word) : (s.wr k w).iotlb = s.iotlb := rfl
@[simp] theorem State.wr_queues (s : State) (k : Nat) (w : Word) : (s.wr k w).queues = s.queues := rfl
@[simp] theorem State.wr_qe (s : State) (k : Nat) (w : Word) : (s.wr k w).qe = s.qe := rfl
@[simp] theorem State.wr_viBytes (s : State) (k : Nat) (w : Word) : (s.wr k w).viBytes = s.viBytes := rfl
@[simp] theorem State.wr_viPend (s : State) (k : Nat) (w : Word) : (s.wr k w).viPend = s.viPend := rfl
@[simp] theorem State.wr_viAdmin (s : State) (k : Nat) (w : Word) : (s.wr k w).viAdmin = s.viAdmin := rfl
@[simp] theorem State.wr_fab (s : State) (k : Nat) (w : Word) : (s.wr k w).fab = s.fab := rfl
@[simp] theorem State.wr_ce (s : State) (k : Nat) (w : Word) : (s.wr k w).ce = s.ce := rfl
@[simp] theorem State.wr_cectx (s : State) (k : Nat) (w : Word) : (s.wr k w).cectx = s.cectx := rfl
@[simp] theorem State.wr_boots (s : State) (k : Nat) (w : Word) : (s.wr k w).boots = s.boots := rfl
@[simp] theorem State.wr_pciOpen (s : State) (k : Nat) (w : Word) : (s.wr k w).pciOpen = s.pciOpen := rfl
@[simp] theorem State.wr_pciTag (s : State) (k : Nat) (w : Word) : (s.wr k w).pciTag = s.pciTag := rfl
@[simp] theorem State.wr_eth (s : State) (k : Nat) (w : Word) : (s.wr k w).eth = s.eth := rfl
@[simp] theorem State.wr_ownReq (s : State) (k : Nat) (w : Word) : (s.wr k w).ownReq = s.ownReq := rfl
@[simp] theorem State.wr_invReq (s : State) (k : Nat) (w : Word) : (s.wr k w).invReq = s.invReq := rfl
@[simp] theorem State.wr_nv (s : State) (k : Nat) (w : Word) : (s.wr k w).nv = s.nv := rfl
@[simp] theorem State.wr_ks (s : State) (k : Nat) (w : Word) : (s.wr k w).ks = s.ks := rfl
@[simp] theorem State.wr_belay (s : State) (k : Nat) (w : Word) : (s.wr k w).belay = s.belay := rfl
@[simp] theorem State.wr_pwr (s : State) (k : Nat) (w : Word) : (s.wr k w).pwr = s.pwr := rfl
@[simp] theorem State.wr_caps (s : State) (k : Nat) (w : Word) : (s.wr k w).caps = s.caps := rfl
@[simp] theorem State.wr_capBusy (s : State) (k : Nat) (w : Word) : (s.wr k w).capBusy = s.capBusy := rfl
@[simp] theorem State.wr_trace (s : State) (k : Nat) (w : Word) : (s.wr k w).trace = s.trace := rfl
@[simp] theorem State.wr_pending (s : State) (k : Nat) (w : Word) : (s.wr k w).pending = s.pending := rfl

/-! ### State.put -/

@[simp] theorem State.put_hregs (s : State) (l : Loc) (v : Nat) : (s.put l v).hregs = s.hregs := rfl
@[simp] theorem State.put_mem (s : State) (l : Loc) (v : Nat) : (s.put l v).mem = s.mem := rfl
@[simp] theorem State.put_up (s : State) (l : Loc) (v : Nat) : (s.put l v).up = s.up := rfl
@[simp] theorem State.put_resp (s : State) (l : Loc) (v : Nat) : (s.put l v).resp = s.resp := rfl
@[simp] theorem State.put_out (s : State) (l : Loc) (v : Nat) : (s.put l v).out = s.out := rfl
@[simp] theorem State.put_free (s : State) (l : Loc) (v : Nat) : (s.put l v).free = s.free := rfl
@[simp] theorem State.put_newtIrq (s : State) (l : Loc) (v : Nat) : (s.put l v).newtIrq = s.newtIrq := rfl
@[simp] theorem State.put_fieldOps (s : State) (l : Loc) (v : Nat) : (s.put l v).fieldOps = s.fieldOps := rfl
@[simp] theorem State.put_tb (s : State) (l : Loc) (v : Nat) : (s.put l v).tb = s.tb := rfl
@[simp] theorem State.put_hart (s : State) (l : Loc) (v : Nat) : (s.put l v).hart = s.hart := rfl
@[simp] theorem State.put_files (s : State) (l : Loc) (v : Nat) : (s.put l v).files = s.files := rfl
@[simp] theorem State.put_gftag (s : State) (l : Loc) (v : Nat) : (s.put l v).gftag = s.gftag := rfl
@[simp] theorem State.put_die (s : State) (l : Loc) (v : Nat) : (s.put l v).die = s.die := rfl
@[simp] theorem State.put_aplic (s : State) (l : Loc) (v : Nat) : (s.put l v).aplic = s.aplic := rfl
@[simp] theorem State.put_aplicRegs (s : State) (l : Loc) (v : Nat) : (s.put l v).aplicRegs = s.aplicRegs := rfl
@[simp] theorem State.put_paused (s : State) (l : Loc) (v : Nat) : (s.put l v).paused = s.paused := rfl
@[simp] theorem State.put_csq (s : State) (l : Loc) (v : Nat) : (s.put l v).csq = s.csq := rfl
@[simp] theorem State.put_slots (s : State) (l : Loc) (v : Nat) : (s.put l v).slots = s.slots := rfl
@[simp] theorem State.put_posts (s : State) (l : Loc) (v : Nat) : (s.put l v).posts = s.posts := rfl
@[simp] theorem State.put_launches (s : State) (l : Loc) (v : Nat) : (s.put l v).launches = s.launches := rfl
@[simp] theorem State.put_nextLaunch (s : State) (l : Loc) (v : Nat) : (s.put l v).nextLaunch = s.nextLaunch := rfl
@[simp] theorem State.put_unitAccept (s : State) (l : Loc) (v : Nat) : (s.put l v).unitAccept = s.unitAccept := rfl
@[simp] theorem State.put_ecc (s : State) (l : Loc) (v : Nat) : (s.put l v).ecc = s.ecc := rfl
@[simp] theorem State.put_releasing (s : State) (l : Loc) (v : Nat) : (s.put l v).releasing = s.releasing := rfl
@[simp] theorem State.put_viUsed (s : State) (l : Loc) (v : Nat) : (s.put l v).viUsed = s.viUsed := rfl
@[simp] theorem State.put_mc (s : State) (l : Loc) (v : Nat) : (s.put l v).mc = s.mc := rfl
@[simp] theorem State.put_poison (s : State) (l : Loc) (v : Nat) : (s.put l v).poison = s.poison := rfl
@[simp] theorem State.put_xeKeys (s : State) (l : Loc) (v : Nat) : (s.put l v).xeKeys = s.xeKeys := rfl
@[simp] theorem State.put_xeLoads (s : State) (l : Loc) (v : Nat) : (s.put l v).xeLoads = s.xeLoads := rfl
@[simp] theorem State.put_slotKey (s : State) (l : Loc) (v : Nat) : (s.put l v).slotKey = s.slotKey := rfl
@[simp] theorem State.put_cache (s : State) (l : Loc) (v : Nat) : (s.put l v).cache = s.cache := rfl
@[simp] theorem State.put_plru (s : State) (l : Loc) (v : Nat) : (s.put l v).plru = s.plru := rfl
@[simp] theorem State.put_streams (s : State) (l : Loc) (v : Nat) : (s.put l v).streams = s.streams := rfl
@[simp] theorem State.put_pitonBusy (s : State) (l : Loc) (v : Nat) : (s.put l v).pitonBusy = s.pitonBusy := rfl
@[simp] theorem State.put_slices (s : State) (l : Loc) (v : Nat) : (s.put l v).slices = s.slices := rfl
@[simp] theorem State.put_wbTag (s : State) (l : Loc) (v : Nat) : (s.put l v).wbTag = s.wbTag := rfl
@[simp] theorem State.put_ring (s : State) (l : Loc) (v : Nat) : (s.put l v).ring = s.ring := rfl
@[simp] theorem State.put_homes (s : State) (l : Loc) (v : Nat) : (s.put l v).homes = s.homes := rfl
@[simp] theorem State.put_sf (s : State) (l : Loc) (v : Nat) : (s.put l v).sf = s.sf := rfl
@[simp] theorem State.put_sfPlru (s : State) (l : Loc) (v : Nat) : (s.put l v).sfPlru = s.sfPlru := rfl
@[simp] theorem State.put_faultN (s : State) (l : Loc) (v : Nat) : (s.put l v).faultN = s.faultN := rfl
@[simp] theorem State.put_txIdle (s : State) (l : Loc) (v : Nat) : (s.put l v).txIdle = s.txIdle := rfl
@[simp] theorem State.put_links (s : State) (l : Loc) (v : Nat) : (s.put l v).links = s.links := rfl
@[simp] theorem State.put_timeWordAt (s : State) (l : Loc) (v : Nat) : (s.put l v).timeWordAt = s.timeWordAt := rfl
@[simp] theorem State.put_mesh (s : State) (l : Loc) (v : Nat) : (s.put l v).mesh = s.mesh := rfl
@[simp] theorem State.put_iotlb (s : State) (l : Loc) (v : Nat) : (s.put l v).iotlb = s.iotlb := rfl
@[simp] theorem State.put_queues (s : State) (l : Loc) (v : Nat) : (s.put l v).queues = s.queues := rfl
@[simp] theorem State.put_qe (s : State) (l : Loc) (v : Nat) : (s.put l v).qe = s.qe := rfl
@[simp] theorem State.put_viBytes (s : State) (l : Loc) (v : Nat) : (s.put l v).viBytes = s.viBytes := rfl
@[simp] theorem State.put_viPend (s : State) (l : Loc) (v : Nat) : (s.put l v).viPend = s.viPend := rfl
@[simp] theorem State.put_viAdmin (s : State) (l : Loc) (v : Nat) : (s.put l v).viAdmin = s.viAdmin := rfl
@[simp] theorem State.put_fab (s : State) (l : Loc) (v : Nat) : (s.put l v).fab = s.fab := rfl
@[simp] theorem State.put_ce (s : State) (l : Loc) (v : Nat) : (s.put l v).ce = s.ce := rfl
@[simp] theorem State.put_cectx (s : State) (l : Loc) (v : Nat) : (s.put l v).cectx = s.cectx := rfl
@[simp] theorem State.put_boots (s : State) (l : Loc) (v : Nat) : (s.put l v).boots = s.boots := rfl
@[simp] theorem State.put_pciOpen (s : State) (l : Loc) (v : Nat) : (s.put l v).pciOpen = s.pciOpen := rfl
@[simp] theorem State.put_pciTag (s : State) (l : Loc) (v : Nat) : (s.put l v).pciTag = s.pciTag := rfl
@[simp] theorem State.put_eth (s : State) (l : Loc) (v : Nat) : (s.put l v).eth = s.eth := rfl
@[simp] theorem State.put_ownReq (s : State) (l : Loc) (v : Nat) : (s.put l v).ownReq = s.ownReq := rfl
@[simp] theorem State.put_invReq (s : State) (l : Loc) (v : Nat) : (s.put l v).invReq = s.invReq := rfl
@[simp] theorem State.put_nv (s : State) (l : Loc) (v : Nat) : (s.put l v).nv = s.nv := rfl
@[simp] theorem State.put_ks (s : State) (l : Loc) (v : Nat) : (s.put l v).ks = s.ks := rfl
@[simp] theorem State.put_belay (s : State) (l : Loc) (v : Nat) : (s.put l v).belay = s.belay := rfl
@[simp] theorem State.put_pwr (s : State) (l : Loc) (v : Nat) : (s.put l v).pwr = s.pwr := rfl
@[simp] theorem State.put_caps (s : State) (l : Loc) (v : Nat) : (s.put l v).caps = s.caps := rfl
@[simp] theorem State.put_capBusy (s : State) (l : Loc) (v : Nat) : (s.put l v).capBusy = s.capBusy := rfl
@[simp] theorem State.put_trace (s : State) (l : Loc) (v : Nat) : (s.put l v).trace = s.trace := rfl
@[simp] theorem State.put_pending (s : State) (l : Loc) (v : Nat) : (s.put l v).pending = s.pending := rfl

/-! ### State.setHreg -/

@[simp] theorem State.setHreg_regs (s : State) (h n : Nat) (w : Word) : (s.setHreg h n w).regs = s.regs := rfl
@[simp] theorem State.setHreg_mem (s : State) (h n : Nat) (w : Word) : (s.setHreg h n w).mem = s.mem := rfl
@[simp] theorem State.setHreg_up (s : State) (h n : Nat) (w : Word) : (s.setHreg h n w).up = s.up := rfl
@[simp] theorem State.setHreg_resp (s : State) (h n : Nat) (w : Word) : (s.setHreg h n w).resp = s.resp := rfl
@[simp] theorem State.setHreg_out (s : State) (h n : Nat) (w : Word) : (s.setHreg h n w).out = s.out := rfl
@[simp] theorem State.setHreg_free (s : State) (h n : Nat) (w : Word) : (s.setHreg h n w).free = s.free := rfl
@[simp] theorem State.setHreg_newtIrq (s : State) (h n : Nat) (w : Word) : (s.setHreg h n w).newtIrq = s.newtIrq := rfl
@[simp] theorem State.setHreg_fieldOps (s : State) (h n : Nat) (w : Word) : (s.setHreg h n w).fieldOps = s.fieldOps := rfl
@[simp] theorem State.setHreg_tb (s : State) (h n : Nat) (w : Word) : (s.setHreg h n w).tb = s.tb := rfl
@[simp] theorem State.setHreg_hart (s : State) (h n : Nat) (w : Word) : (s.setHreg h n w).hart = s.hart := rfl
@[simp] theorem State.setHreg_files (s : State) (h n : Nat) (w : Word) : (s.setHreg h n w).files = s.files := rfl
@[simp] theorem State.setHreg_gftag (s : State) (h n : Nat) (w : Word) : (s.setHreg h n w).gftag = s.gftag := rfl
@[simp] theorem State.setHreg_die (s : State) (h n : Nat) (w : Word) : (s.setHreg h n w).die = s.die := rfl
@[simp] theorem State.setHreg_aplic (s : State) (h n : Nat) (w : Word) : (s.setHreg h n w).aplic = s.aplic := rfl
@[simp] theorem State.setHreg_aplicRegs (s : State) (h n : Nat) (w : Word) : (s.setHreg h n w).aplicRegs = s.aplicRegs := rfl
@[simp] theorem State.setHreg_paused (s : State) (h n : Nat) (w : Word) : (s.setHreg h n w).paused = s.paused := rfl
@[simp] theorem State.setHreg_csq (s : State) (h n : Nat) (w : Word) : (s.setHreg h n w).csq = s.csq := rfl
@[simp] theorem State.setHreg_slots (s : State) (h n : Nat) (w : Word) : (s.setHreg h n w).slots = s.slots := rfl
@[simp] theorem State.setHreg_posts (s : State) (h n : Nat) (w : Word) : (s.setHreg h n w).posts = s.posts := rfl
@[simp] theorem State.setHreg_launches (s : State) (h n : Nat) (w : Word) : (s.setHreg h n w).launches = s.launches := rfl
@[simp] theorem State.setHreg_nextLaunch (s : State) (h n : Nat) (w : Word) : (s.setHreg h n w).nextLaunch = s.nextLaunch := rfl
@[simp] theorem State.setHreg_unitAccept (s : State) (h n : Nat) (w : Word) : (s.setHreg h n w).unitAccept = s.unitAccept := rfl
@[simp] theorem State.setHreg_ecc (s : State) (h n : Nat) (w : Word) : (s.setHreg h n w).ecc = s.ecc := rfl
@[simp] theorem State.setHreg_releasing (s : State) (h n : Nat) (w : Word) : (s.setHreg h n w).releasing = s.releasing := rfl
@[simp] theorem State.setHreg_viUsed (s : State) (h n : Nat) (w : Word) : (s.setHreg h n w).viUsed = s.viUsed := rfl
@[simp] theorem State.setHreg_mc (s : State) (h n : Nat) (w : Word) : (s.setHreg h n w).mc = s.mc := rfl
@[simp] theorem State.setHreg_poison (s : State) (h n : Nat) (w : Word) : (s.setHreg h n w).poison = s.poison := rfl
@[simp] theorem State.setHreg_xeKeys (s : State) (h n : Nat) (w : Word) : (s.setHreg h n w).xeKeys = s.xeKeys := rfl
@[simp] theorem State.setHreg_xeLoads (s : State) (h n : Nat) (w : Word) : (s.setHreg h n w).xeLoads = s.xeLoads := rfl
@[simp] theorem State.setHreg_slotKey (s : State) (h n : Nat) (w : Word) : (s.setHreg h n w).slotKey = s.slotKey := rfl
@[simp] theorem State.setHreg_cache (s : State) (h n : Nat) (w : Word) : (s.setHreg h n w).cache = s.cache := rfl
@[simp] theorem State.setHreg_plru (s : State) (h n : Nat) (w : Word) : (s.setHreg h n w).plru = s.plru := rfl
@[simp] theorem State.setHreg_streams (s : State) (h n : Nat) (w : Word) : (s.setHreg h n w).streams = s.streams := rfl
@[simp] theorem State.setHreg_pitonBusy (s : State) (h n : Nat) (w : Word) : (s.setHreg h n w).pitonBusy = s.pitonBusy := rfl
@[simp] theorem State.setHreg_slices (s : State) (h n : Nat) (w : Word) : (s.setHreg h n w).slices = s.slices := rfl
@[simp] theorem State.setHreg_wbTag (s : State) (h n : Nat) (w : Word) : (s.setHreg h n w).wbTag = s.wbTag := rfl
@[simp] theorem State.setHreg_ring (s : State) (h n : Nat) (w : Word) : (s.setHreg h n w).ring = s.ring := rfl
@[simp] theorem State.setHreg_homes (s : State) (h n : Nat) (w : Word) : (s.setHreg h n w).homes = s.homes := rfl
@[simp] theorem State.setHreg_sf (s : State) (h n : Nat) (w : Word) : (s.setHreg h n w).sf = s.sf := rfl
@[simp] theorem State.setHreg_sfPlru (s : State) (h n : Nat) (w : Word) : (s.setHreg h n w).sfPlru = s.sfPlru := rfl
@[simp] theorem State.setHreg_faultN (s : State) (h n : Nat) (w : Word) : (s.setHreg h n w).faultN = s.faultN := rfl
@[simp] theorem State.setHreg_txIdle (s : State) (h n : Nat) (w : Word) : (s.setHreg h n w).txIdle = s.txIdle := rfl
@[simp] theorem State.setHreg_links (s : State) (h n : Nat) (w : Word) : (s.setHreg h n w).links = s.links := rfl
@[simp] theorem State.setHreg_timeWordAt (s : State) (h n : Nat) (w : Word) : (s.setHreg h n w).timeWordAt = s.timeWordAt := rfl
@[simp] theorem State.setHreg_mesh (s : State) (h n : Nat) (w : Word) : (s.setHreg h n w).mesh = s.mesh := rfl
@[simp] theorem State.setHreg_iotlb (s : State) (h n : Nat) (w : Word) : (s.setHreg h n w).iotlb = s.iotlb := rfl
@[simp] theorem State.setHreg_queues (s : State) (h n : Nat) (w : Word) : (s.setHreg h n w).queues = s.queues := rfl
@[simp] theorem State.setHreg_qe (s : State) (h n : Nat) (w : Word) : (s.setHreg h n w).qe = s.qe := rfl
@[simp] theorem State.setHreg_viBytes (s : State) (h n : Nat) (w : Word) : (s.setHreg h n w).viBytes = s.viBytes := rfl
@[simp] theorem State.setHreg_viPend (s : State) (h n : Nat) (w : Word) : (s.setHreg h n w).viPend = s.viPend := rfl
@[simp] theorem State.setHreg_viAdmin (s : State) (h n : Nat) (w : Word) : (s.setHreg h n w).viAdmin = s.viAdmin := rfl
@[simp] theorem State.setHreg_fab (s : State) (h n : Nat) (w : Word) : (s.setHreg h n w).fab = s.fab := rfl
@[simp] theorem State.setHreg_ce (s : State) (h n : Nat) (w : Word) : (s.setHreg h n w).ce = s.ce := rfl
@[simp] theorem State.setHreg_cectx (s : State) (h n : Nat) (w : Word) : (s.setHreg h n w).cectx = s.cectx := rfl
@[simp] theorem State.setHreg_boots (s : State) (h n : Nat) (w : Word) : (s.setHreg h n w).boots = s.boots := rfl
@[simp] theorem State.setHreg_pciOpen (s : State) (h n : Nat) (w : Word) : (s.setHreg h n w).pciOpen = s.pciOpen := rfl
@[simp] theorem State.setHreg_pciTag (s : State) (h n : Nat) (w : Word) : (s.setHreg h n w).pciTag = s.pciTag := rfl
@[simp] theorem State.setHreg_eth (s : State) (h n : Nat) (w : Word) : (s.setHreg h n w).eth = s.eth := rfl
@[simp] theorem State.setHreg_ownReq (s : State) (h n : Nat) (w : Word) : (s.setHreg h n w).ownReq = s.ownReq := rfl
@[simp] theorem State.setHreg_invReq (s : State) (h n : Nat) (w : Word) : (s.setHreg h n w).invReq = s.invReq := rfl
@[simp] theorem State.setHreg_nv (s : State) (h n : Nat) (w : Word) : (s.setHreg h n w).nv = s.nv := rfl
@[simp] theorem State.setHreg_ks (s : State) (h n : Nat) (w : Word) : (s.setHreg h n w).ks = s.ks := rfl
@[simp] theorem State.setHreg_belay (s : State) (h n : Nat) (w : Word) : (s.setHreg h n w).belay = s.belay := rfl
@[simp] theorem State.setHreg_pwr (s : State) (h n : Nat) (w : Word) : (s.setHreg h n w).pwr = s.pwr := rfl
@[simp] theorem State.setHreg_caps (s : State) (h n : Nat) (w : Word) : (s.setHreg h n w).caps = s.caps := rfl
@[simp] theorem State.setHreg_capBusy (s : State) (h n : Nat) (w : Word) : (s.setHreg h n w).capBusy = s.capBusy := rfl
@[simp] theorem State.setHreg_trace (s : State) (h n : Nat) (w : Word) : (s.setHreg h n w).trace = s.trace := rfl
@[simp] theorem State.setHreg_pending (s : State) (h n : Nat) (w : Word) : (s.setHreg h n w).pending = s.pending := rfl
@[simp] theorem State.rd_setHreg (s : State) (h n : Nat) (w : Word) (j : Nat) : (s.setHreg h n w).rd j = s.rd j := rfl
@[simp] theorem State.get_setHreg (s : State) (h n : Nat) (w : Word) (j : Loc) : (s.setHreg h n w).get j = s.get j := rfl

/-! ### State.writeByte -/

@[simp] theorem State.writeByte_regs (s : State) (a : Nat) (b : BitVec 8) : (s.writeByte a b).regs = s.regs := rfl
@[simp] theorem State.writeByte_hregs (s : State) (a : Nat) (b : BitVec 8) : (s.writeByte a b).hregs = s.hregs := rfl
@[simp] theorem State.writeByte_up (s : State) (a : Nat) (b : BitVec 8) : (s.writeByte a b).up = s.up := rfl
@[simp] theorem State.writeByte_resp (s : State) (a : Nat) (b : BitVec 8) : (s.writeByte a b).resp = s.resp := rfl
@[simp] theorem State.writeByte_out (s : State) (a : Nat) (b : BitVec 8) : (s.writeByte a b).out = s.out := rfl
@[simp] theorem State.writeByte_free (s : State) (a : Nat) (b : BitVec 8) : (s.writeByte a b).free = s.free := rfl
@[simp] theorem State.writeByte_newtIrq (s : State) (a : Nat) (b : BitVec 8) : (s.writeByte a b).newtIrq = s.newtIrq := rfl
@[simp] theorem State.writeByte_fieldOps (s : State) (a : Nat) (b : BitVec 8) : (s.writeByte a b).fieldOps = s.fieldOps := rfl
@[simp] theorem State.writeByte_tb (s : State) (a : Nat) (b : BitVec 8) : (s.writeByte a b).tb = s.tb := rfl
@[simp] theorem State.writeByte_hart (s : State) (a : Nat) (b : BitVec 8) : (s.writeByte a b).hart = s.hart := rfl
@[simp] theorem State.writeByte_files (s : State) (a : Nat) (b : BitVec 8) : (s.writeByte a b).files = s.files := rfl
@[simp] theorem State.writeByte_gftag (s : State) (a : Nat) (b : BitVec 8) : (s.writeByte a b).gftag = s.gftag := rfl
@[simp] theorem State.writeByte_die (s : State) (a : Nat) (b : BitVec 8) : (s.writeByte a b).die = s.die := rfl
@[simp] theorem State.writeByte_aplic (s : State) (a : Nat) (b : BitVec 8) : (s.writeByte a b).aplic = s.aplic := rfl
@[simp] theorem State.writeByte_aplicRegs (s : State) (a : Nat) (b : BitVec 8) : (s.writeByte a b).aplicRegs = s.aplicRegs := rfl
@[simp] theorem State.writeByte_paused (s : State) (a : Nat) (b : BitVec 8) : (s.writeByte a b).paused = s.paused := rfl
@[simp] theorem State.writeByte_csq (s : State) (a : Nat) (b : BitVec 8) : (s.writeByte a b).csq = s.csq := rfl
@[simp] theorem State.writeByte_slots (s : State) (a : Nat) (b : BitVec 8) : (s.writeByte a b).slots = s.slots := rfl
@[simp] theorem State.writeByte_posts (s : State) (a : Nat) (b : BitVec 8) : (s.writeByte a b).posts = s.posts := rfl
@[simp] theorem State.writeByte_launches (s : State) (a : Nat) (b : BitVec 8) : (s.writeByte a b).launches = s.launches := rfl
@[simp] theorem State.writeByte_nextLaunch (s : State) (a : Nat) (b : BitVec 8) : (s.writeByte a b).nextLaunch = s.nextLaunch := rfl
@[simp] theorem State.writeByte_unitAccept (s : State) (a : Nat) (b : BitVec 8) : (s.writeByte a b).unitAccept = s.unitAccept := rfl
@[simp] theorem State.writeByte_ecc (s : State) (a : Nat) (b : BitVec 8) : (s.writeByte a b).ecc = s.ecc := rfl
@[simp] theorem State.writeByte_releasing (s : State) (a : Nat) (b : BitVec 8) : (s.writeByte a b).releasing = s.releasing := rfl
@[simp] theorem State.writeByte_viUsed (s : State) (a : Nat) (b : BitVec 8) : (s.writeByte a b).viUsed = s.viUsed := rfl
@[simp] theorem State.writeByte_mc (s : State) (a : Nat) (b : BitVec 8) : (s.writeByte a b).mc = s.mc := rfl
@[simp] theorem State.writeByte_poison (s : State) (a : Nat) (b : BitVec 8) : (s.writeByte a b).poison = s.poison := rfl
@[simp] theorem State.writeByte_xeKeys (s : State) (a : Nat) (b : BitVec 8) : (s.writeByte a b).xeKeys = s.xeKeys := rfl
@[simp] theorem State.writeByte_xeLoads (s : State) (a : Nat) (b : BitVec 8) : (s.writeByte a b).xeLoads = s.xeLoads := rfl
@[simp] theorem State.writeByte_slotKey (s : State) (a : Nat) (b : BitVec 8) : (s.writeByte a b).slotKey = s.slotKey := rfl
@[simp] theorem State.writeByte_cache (s : State) (a : Nat) (b : BitVec 8) : (s.writeByte a b).cache = s.cache := rfl
@[simp] theorem State.writeByte_plru (s : State) (a : Nat) (b : BitVec 8) : (s.writeByte a b).plru = s.plru := rfl
@[simp] theorem State.writeByte_streams (s : State) (a : Nat) (b : BitVec 8) : (s.writeByte a b).streams = s.streams := rfl
@[simp] theorem State.writeByte_pitonBusy (s : State) (a : Nat) (b : BitVec 8) : (s.writeByte a b).pitonBusy = s.pitonBusy := rfl
@[simp] theorem State.writeByte_slices (s : State) (a : Nat) (b : BitVec 8) : (s.writeByte a b).slices = s.slices := rfl
@[simp] theorem State.writeByte_wbTag (s : State) (a : Nat) (b : BitVec 8) : (s.writeByte a b).wbTag = s.wbTag := rfl
@[simp] theorem State.writeByte_ring (s : State) (a : Nat) (b : BitVec 8) : (s.writeByte a b).ring = s.ring := rfl
@[simp] theorem State.writeByte_homes (s : State) (a : Nat) (b : BitVec 8) : (s.writeByte a b).homes = s.homes := rfl
@[simp] theorem State.writeByte_sf (s : State) (a : Nat) (b : BitVec 8) : (s.writeByte a b).sf = s.sf := rfl
@[simp] theorem State.writeByte_sfPlru (s : State) (a : Nat) (b : BitVec 8) : (s.writeByte a b).sfPlru = s.sfPlru := rfl
@[simp] theorem State.writeByte_faultN (s : State) (a : Nat) (b : BitVec 8) : (s.writeByte a b).faultN = s.faultN := rfl
@[simp] theorem State.writeByte_txIdle (s : State) (a : Nat) (b : BitVec 8) : (s.writeByte a b).txIdle = s.txIdle := rfl
@[simp] theorem State.writeByte_links (s : State) (a : Nat) (b : BitVec 8) : (s.writeByte a b).links = s.links := rfl
@[simp] theorem State.writeByte_timeWordAt (s : State) (a : Nat) (b : BitVec 8) : (s.writeByte a b).timeWordAt = s.timeWordAt := rfl
@[simp] theorem State.writeByte_mesh (s : State) (a : Nat) (b : BitVec 8) : (s.writeByte a b).mesh = s.mesh := rfl
@[simp] theorem State.writeByte_iotlb (s : State) (a : Nat) (b : BitVec 8) : (s.writeByte a b).iotlb = s.iotlb := rfl
@[simp] theorem State.writeByte_queues (s : State) (a : Nat) (b : BitVec 8) : (s.writeByte a b).queues = s.queues := rfl
@[simp] theorem State.writeByte_qe (s : State) (a : Nat) (b : BitVec 8) : (s.writeByte a b).qe = s.qe := rfl
@[simp] theorem State.writeByte_viBytes (s : State) (a : Nat) (b : BitVec 8) : (s.writeByte a b).viBytes = s.viBytes := rfl
@[simp] theorem State.writeByte_viPend (s : State) (a : Nat) (b : BitVec 8) : (s.writeByte a b).viPend = s.viPend := rfl
@[simp] theorem State.writeByte_viAdmin (s : State) (a : Nat) (b : BitVec 8) : (s.writeByte a b).viAdmin = s.viAdmin := rfl
@[simp] theorem State.writeByte_fab (s : State) (a : Nat) (b : BitVec 8) : (s.writeByte a b).fab = s.fab := rfl
@[simp] theorem State.writeByte_ce (s : State) (a : Nat) (b : BitVec 8) : (s.writeByte a b).ce = s.ce := rfl
@[simp] theorem State.writeByte_cectx (s : State) (a : Nat) (b : BitVec 8) : (s.writeByte a b).cectx = s.cectx := rfl
@[simp] theorem State.writeByte_boots (s : State) (a : Nat) (b : BitVec 8) : (s.writeByte a b).boots = s.boots := rfl
@[simp] theorem State.writeByte_pciOpen (s : State) (a : Nat) (b : BitVec 8) : (s.writeByte a b).pciOpen = s.pciOpen := rfl
@[simp] theorem State.writeByte_pciTag (s : State) (a : Nat) (b : BitVec 8) : (s.writeByte a b).pciTag = s.pciTag := rfl
@[simp] theorem State.writeByte_eth (s : State) (a : Nat) (b : BitVec 8) : (s.writeByte a b).eth = s.eth := rfl
@[simp] theorem State.writeByte_ownReq (s : State) (a : Nat) (b : BitVec 8) : (s.writeByte a b).ownReq = s.ownReq := rfl
@[simp] theorem State.writeByte_invReq (s : State) (a : Nat) (b : BitVec 8) : (s.writeByte a b).invReq = s.invReq := rfl
@[simp] theorem State.writeByte_nv (s : State) (a : Nat) (b : BitVec 8) : (s.writeByte a b).nv = s.nv := rfl
@[simp] theorem State.writeByte_ks (s : State) (a : Nat) (b : BitVec 8) : (s.writeByte a b).ks = s.ks := rfl
@[simp] theorem State.writeByte_belay (s : State) (a : Nat) (b : BitVec 8) : (s.writeByte a b).belay = s.belay := rfl
@[simp] theorem State.writeByte_pwr (s : State) (a : Nat) (b : BitVec 8) : (s.writeByte a b).pwr = s.pwr := rfl
@[simp] theorem State.writeByte_caps (s : State) (a : Nat) (b : BitVec 8) : (s.writeByte a b).caps = s.caps := rfl
@[simp] theorem State.writeByte_capBusy (s : State) (a : Nat) (b : BitVec 8) : (s.writeByte a b).capBusy = s.capBusy := rfl
@[simp] theorem State.writeByte_trace (s : State) (a : Nat) (b : BitVec 8) : (s.writeByte a b).trace = s.trace := rfl
@[simp] theorem State.writeByte_pending (s : State) (a : Nat) (b : BitVec 8) : (s.writeByte a b).pending = s.pending := rfl
@[simp] theorem State.rd_writeByte (s : State) (a : Nat) (b : BitVec 8) (j : Nat) : (s.writeByte a b).rd j = s.rd j := rfl
@[simp] theorem State.get_writeByte (s : State) (a : Nat) (b : BitVec 8) (j : Loc) : (s.writeByte a b).get j = s.get j := rfl

/-! ### State.answer -/

@[simp] theorem State.answer_regs (s : State) (r : Resp) : (s.answer r).regs = s.regs := rfl
@[simp] theorem State.answer_hregs (s : State) (r : Resp) : (s.answer r).hregs = s.hregs := rfl
@[simp] theorem State.answer_mem (s : State) (r : Resp) : (s.answer r).mem = s.mem := rfl
@[simp] theorem State.answer_up (s : State) (r : Resp) : (s.answer r).up = s.up := rfl
@[simp] theorem State.answer_out (s : State) (r : Resp) : (s.answer r).out = s.out := rfl
@[simp] theorem State.answer_free (s : State) (r : Resp) : (s.answer r).free = s.free := rfl
@[simp] theorem State.answer_newtIrq (s : State) (r : Resp) : (s.answer r).newtIrq = s.newtIrq := rfl
@[simp] theorem State.answer_fieldOps (s : State) (r : Resp) : (s.answer r).fieldOps = s.fieldOps := rfl
@[simp] theorem State.answer_tb (s : State) (r : Resp) : (s.answer r).tb = s.tb := rfl
@[simp] theorem State.answer_hart (s : State) (r : Resp) : (s.answer r).hart = s.hart := rfl
@[simp] theorem State.answer_files (s : State) (r : Resp) : (s.answer r).files = s.files := rfl
@[simp] theorem State.answer_gftag (s : State) (r : Resp) : (s.answer r).gftag = s.gftag := rfl
@[simp] theorem State.answer_die (s : State) (r : Resp) : (s.answer r).die = s.die := rfl
@[simp] theorem State.answer_aplic (s : State) (r : Resp) : (s.answer r).aplic = s.aplic := rfl
@[simp] theorem State.answer_aplicRegs (s : State) (r : Resp) : (s.answer r).aplicRegs = s.aplicRegs := rfl
@[simp] theorem State.answer_paused (s : State) (r : Resp) : (s.answer r).paused = s.paused := rfl
@[simp] theorem State.answer_csq (s : State) (r : Resp) : (s.answer r).csq = s.csq := rfl
@[simp] theorem State.answer_slots (s : State) (r : Resp) : (s.answer r).slots = s.slots := rfl
@[simp] theorem State.answer_posts (s : State) (r : Resp) : (s.answer r).posts = s.posts := rfl
@[simp] theorem State.answer_launches (s : State) (r : Resp) : (s.answer r).launches = s.launches := rfl
@[simp] theorem State.answer_nextLaunch (s : State) (r : Resp) : (s.answer r).nextLaunch = s.nextLaunch := rfl
@[simp] theorem State.answer_unitAccept (s : State) (r : Resp) : (s.answer r).unitAccept = s.unitAccept := rfl
@[simp] theorem State.answer_ecc (s : State) (r : Resp) : (s.answer r).ecc = s.ecc := rfl
@[simp] theorem State.answer_releasing (s : State) (r : Resp) : (s.answer r).releasing = s.releasing := rfl
@[simp] theorem State.answer_viUsed (s : State) (r : Resp) : (s.answer r).viUsed = s.viUsed := rfl
@[simp] theorem State.answer_mc (s : State) (r : Resp) : (s.answer r).mc = s.mc := rfl
@[simp] theorem State.answer_poison (s : State) (r : Resp) : (s.answer r).poison = s.poison := rfl
@[simp] theorem State.answer_xeKeys (s : State) (r : Resp) : (s.answer r).xeKeys = s.xeKeys := rfl
@[simp] theorem State.answer_xeLoads (s : State) (r : Resp) : (s.answer r).xeLoads = s.xeLoads := rfl
@[simp] theorem State.answer_slotKey (s : State) (r : Resp) : (s.answer r).slotKey = s.slotKey := rfl
@[simp] theorem State.answer_cache (s : State) (r : Resp) : (s.answer r).cache = s.cache := rfl
@[simp] theorem State.answer_plru (s : State) (r : Resp) : (s.answer r).plru = s.plru := rfl
@[simp] theorem State.answer_streams (s : State) (r : Resp) : (s.answer r).streams = s.streams := rfl
@[simp] theorem State.answer_pitonBusy (s : State) (r : Resp) : (s.answer r).pitonBusy = s.pitonBusy := rfl
@[simp] theorem State.answer_slices (s : State) (r : Resp) : (s.answer r).slices = s.slices := rfl
@[simp] theorem State.answer_wbTag (s : State) (r : Resp) : (s.answer r).wbTag = s.wbTag := rfl
@[simp] theorem State.answer_ring (s : State) (r : Resp) : (s.answer r).ring = s.ring := rfl
@[simp] theorem State.answer_homes (s : State) (r : Resp) : (s.answer r).homes = s.homes := rfl
@[simp] theorem State.answer_sf (s : State) (r : Resp) : (s.answer r).sf = s.sf := rfl
@[simp] theorem State.answer_sfPlru (s : State) (r : Resp) : (s.answer r).sfPlru = s.sfPlru := rfl
@[simp] theorem State.answer_faultN (s : State) (r : Resp) : (s.answer r).faultN = s.faultN := rfl
@[simp] theorem State.answer_txIdle (s : State) (r : Resp) : (s.answer r).txIdle = s.txIdle := rfl
@[simp] theorem State.answer_links (s : State) (r : Resp) : (s.answer r).links = s.links := rfl
@[simp] theorem State.answer_timeWordAt (s : State) (r : Resp) : (s.answer r).timeWordAt = s.timeWordAt := rfl
@[simp] theorem State.answer_mesh (s : State) (r : Resp) : (s.answer r).mesh = s.mesh := rfl
@[simp] theorem State.answer_iotlb (s : State) (r : Resp) : (s.answer r).iotlb = s.iotlb := rfl
@[simp] theorem State.answer_queues (s : State) (r : Resp) : (s.answer r).queues = s.queues := rfl
@[simp] theorem State.answer_qe (s : State) (r : Resp) : (s.answer r).qe = s.qe := rfl
@[simp] theorem State.answer_viBytes (s : State) (r : Resp) : (s.answer r).viBytes = s.viBytes := rfl
@[simp] theorem State.answer_viPend (s : State) (r : Resp) : (s.answer r).viPend = s.viPend := rfl
@[simp] theorem State.answer_viAdmin (s : State) (r : Resp) : (s.answer r).viAdmin = s.viAdmin := rfl
@[simp] theorem State.answer_fab (s : State) (r : Resp) : (s.answer r).fab = s.fab := rfl
@[simp] theorem State.answer_ce (s : State) (r : Resp) : (s.answer r).ce = s.ce := rfl
@[simp] theorem State.answer_cectx (s : State) (r : Resp) : (s.answer r).cectx = s.cectx := rfl
@[simp] theorem State.answer_boots (s : State) (r : Resp) : (s.answer r).boots = s.boots := rfl
@[simp] theorem State.answer_pciOpen (s : State) (r : Resp) : (s.answer r).pciOpen = s.pciOpen := rfl
@[simp] theorem State.answer_pciTag (s : State) (r : Resp) : (s.answer r).pciTag = s.pciTag := rfl
@[simp] theorem State.answer_eth (s : State) (r : Resp) : (s.answer r).eth = s.eth := rfl
@[simp] theorem State.answer_ownReq (s : State) (r : Resp) : (s.answer r).ownReq = s.ownReq := rfl
@[simp] theorem State.answer_invReq (s : State) (r : Resp) : (s.answer r).invReq = s.invReq := rfl
@[simp] theorem State.answer_nv (s : State) (r : Resp) : (s.answer r).nv = s.nv := rfl
@[simp] theorem State.answer_ks (s : State) (r : Resp) : (s.answer r).ks = s.ks := rfl
@[simp] theorem State.answer_belay (s : State) (r : Resp) : (s.answer r).belay = s.belay := rfl
@[simp] theorem State.answer_pwr (s : State) (r : Resp) : (s.answer r).pwr = s.pwr := rfl
@[simp] theorem State.answer_caps (s : State) (r : Resp) : (s.answer r).caps = s.caps := rfl
@[simp] theorem State.answer_capBusy (s : State) (r : Resp) : (s.answer r).capBusy = s.capBusy := rfl
@[simp] theorem State.answer_trace (s : State) (r : Resp) : (s.answer r).trace = s.trace := rfl
@[simp] theorem State.answer_pending (s : State) (r : Resp) : (s.answer r).pending = s.pending := rfl
@[simp] theorem State.rd_answer (s : State) (r : Resp) (j : Nat) : (s.answer r).rd j = s.rd j := rfl
@[simp] theorem State.get_answer (s : State) (r : Resp) (j : Loc) : (s.answer r).get j = s.get j := rfl

/-! ### State.send -/

@[simp] theorem State.send_regs (s : State) (o : Out) : (s.send o).regs = s.regs := rfl
@[simp] theorem State.send_hregs (s : State) (o : Out) : (s.send o).hregs = s.hregs := rfl
@[simp] theorem State.send_mem (s : State) (o : Out) : (s.send o).mem = s.mem := rfl
@[simp] theorem State.send_up (s : State) (o : Out) : (s.send o).up = s.up := rfl
@[simp] theorem State.send_resp (s : State) (o : Out) : (s.send o).resp = s.resp := rfl
@[simp] theorem State.send_free (s : State) (o : Out) : (s.send o).free = s.free := rfl
@[simp] theorem State.send_newtIrq (s : State) (o : Out) : (s.send o).newtIrq = s.newtIrq := rfl
@[simp] theorem State.send_fieldOps (s : State) (o : Out) : (s.send o).fieldOps = s.fieldOps := rfl
@[simp] theorem State.send_tb (s : State) (o : Out) : (s.send o).tb = s.tb := rfl
@[simp] theorem State.send_hart (s : State) (o : Out) : (s.send o).hart = s.hart := rfl
@[simp] theorem State.send_files (s : State) (o : Out) : (s.send o).files = s.files := rfl
@[simp] theorem State.send_gftag (s : State) (o : Out) : (s.send o).gftag = s.gftag := rfl
@[simp] theorem State.send_die (s : State) (o : Out) : (s.send o).die = s.die := rfl
@[simp] theorem State.send_aplic (s : State) (o : Out) : (s.send o).aplic = s.aplic := rfl
@[simp] theorem State.send_aplicRegs (s : State) (o : Out) : (s.send o).aplicRegs = s.aplicRegs := rfl
@[simp] theorem State.send_paused (s : State) (o : Out) : (s.send o).paused = s.paused := rfl
@[simp] theorem State.send_csq (s : State) (o : Out) : (s.send o).csq = s.csq := rfl
@[simp] theorem State.send_slots (s : State) (o : Out) : (s.send o).slots = s.slots := rfl
@[simp] theorem State.send_posts (s : State) (o : Out) : (s.send o).posts = s.posts := rfl
@[simp] theorem State.send_launches (s : State) (o : Out) : (s.send o).launches = s.launches := rfl
@[simp] theorem State.send_nextLaunch (s : State) (o : Out) : (s.send o).nextLaunch = s.nextLaunch := rfl
@[simp] theorem State.send_unitAccept (s : State) (o : Out) : (s.send o).unitAccept = s.unitAccept := rfl
@[simp] theorem State.send_ecc (s : State) (o : Out) : (s.send o).ecc = s.ecc := rfl
@[simp] theorem State.send_releasing (s : State) (o : Out) : (s.send o).releasing = s.releasing := rfl
@[simp] theorem State.send_viUsed (s : State) (o : Out) : (s.send o).viUsed = s.viUsed := rfl
@[simp] theorem State.send_mc (s : State) (o : Out) : (s.send o).mc = s.mc := rfl
@[simp] theorem State.send_poison (s : State) (o : Out) : (s.send o).poison = s.poison := rfl
@[simp] theorem State.send_xeKeys (s : State) (o : Out) : (s.send o).xeKeys = s.xeKeys := rfl
@[simp] theorem State.send_xeLoads (s : State) (o : Out) : (s.send o).xeLoads = s.xeLoads := rfl
@[simp] theorem State.send_slotKey (s : State) (o : Out) : (s.send o).slotKey = s.slotKey := rfl
@[simp] theorem State.send_cache (s : State) (o : Out) : (s.send o).cache = s.cache := rfl
@[simp] theorem State.send_plru (s : State) (o : Out) : (s.send o).plru = s.plru := rfl
@[simp] theorem State.send_streams (s : State) (o : Out) : (s.send o).streams = s.streams := rfl
@[simp] theorem State.send_pitonBusy (s : State) (o : Out) : (s.send o).pitonBusy = s.pitonBusy := rfl
@[simp] theorem State.send_slices (s : State) (o : Out) : (s.send o).slices = s.slices := rfl
@[simp] theorem State.send_wbTag (s : State) (o : Out) : (s.send o).wbTag = s.wbTag := rfl
@[simp] theorem State.send_ring (s : State) (o : Out) : (s.send o).ring = s.ring := rfl
@[simp] theorem State.send_homes (s : State) (o : Out) : (s.send o).homes = s.homes := rfl
@[simp] theorem State.send_sf (s : State) (o : Out) : (s.send o).sf = s.sf := rfl
@[simp] theorem State.send_sfPlru (s : State) (o : Out) : (s.send o).sfPlru = s.sfPlru := rfl
@[simp] theorem State.send_faultN (s : State) (o : Out) : (s.send o).faultN = s.faultN := rfl
@[simp] theorem State.send_txIdle (s : State) (o : Out) : (s.send o).txIdle = s.txIdle := rfl
@[simp] theorem State.send_links (s : State) (o : Out) : (s.send o).links = s.links := rfl
@[simp] theorem State.send_timeWordAt (s : State) (o : Out) : (s.send o).timeWordAt = s.timeWordAt := rfl
@[simp] theorem State.send_mesh (s : State) (o : Out) : (s.send o).mesh = s.mesh := rfl
@[simp] theorem State.send_iotlb (s : State) (o : Out) : (s.send o).iotlb = s.iotlb := rfl
@[simp] theorem State.send_queues (s : State) (o : Out) : (s.send o).queues = s.queues := rfl
@[simp] theorem State.send_qe (s : State) (o : Out) : (s.send o).qe = s.qe := rfl
@[simp] theorem State.send_viBytes (s : State) (o : Out) : (s.send o).viBytes = s.viBytes := rfl
@[simp] theorem State.send_viPend (s : State) (o : Out) : (s.send o).viPend = s.viPend := rfl
@[simp] theorem State.send_viAdmin (s : State) (o : Out) : (s.send o).viAdmin = s.viAdmin := rfl
@[simp] theorem State.send_fab (s : State) (o : Out) : (s.send o).fab = s.fab := rfl
@[simp] theorem State.send_ce (s : State) (o : Out) : (s.send o).ce = s.ce := rfl
@[simp] theorem State.send_cectx (s : State) (o : Out) : (s.send o).cectx = s.cectx := rfl
@[simp] theorem State.send_boots (s : State) (o : Out) : (s.send o).boots = s.boots := rfl
@[simp] theorem State.send_pciOpen (s : State) (o : Out) : (s.send o).pciOpen = s.pciOpen := rfl
@[simp] theorem State.send_pciTag (s : State) (o : Out) : (s.send o).pciTag = s.pciTag := rfl
@[simp] theorem State.send_eth (s : State) (o : Out) : (s.send o).eth = s.eth := rfl
@[simp] theorem State.send_ownReq (s : State) (o : Out) : (s.send o).ownReq = s.ownReq := rfl
@[simp] theorem State.send_invReq (s : State) (o : Out) : (s.send o).invReq = s.invReq := rfl
@[simp] theorem State.send_nv (s : State) (o : Out) : (s.send o).nv = s.nv := rfl
@[simp] theorem State.send_ks (s : State) (o : Out) : (s.send o).ks = s.ks := rfl
@[simp] theorem State.send_belay (s : State) (o : Out) : (s.send o).belay = s.belay := rfl
@[simp] theorem State.send_pwr (s : State) (o : Out) : (s.send o).pwr = s.pwr := rfl
@[simp] theorem State.send_caps (s : State) (o : Out) : (s.send o).caps = s.caps := rfl
@[simp] theorem State.send_capBusy (s : State) (o : Out) : (s.send o).capBusy = s.capBusy := rfl
@[simp] theorem State.send_trace (s : State) (o : Out) : (s.send o).trace = s.trace := rfl
@[simp] theorem State.send_pending (s : State) (o : Out) : (s.send o).pending = s.pending := rfl
@[simp] theorem State.rd_send (s : State) (o : Out) (j : Nat) : (s.send o).rd j = s.rd j := rfl
@[simp] theorem State.get_send (s : State) (o : Out) (j : Loc) : (s.send o).get j = s.get j := rfl

/-! ### State.useFree -/

@[simp] theorem State.useFree_regs (s : State) : (s.useFree).regs = s.regs := rfl
@[simp] theorem State.useFree_hregs (s : State) : (s.useFree).hregs = s.hregs := rfl
@[simp] theorem State.useFree_mem (s : State) : (s.useFree).mem = s.mem := rfl
@[simp] theorem State.useFree_up (s : State) : (s.useFree).up = s.up := rfl
@[simp] theorem State.useFree_resp (s : State) : (s.useFree).resp = s.resp := rfl
@[simp] theorem State.useFree_out (s : State) : (s.useFree).out = s.out := rfl
@[simp] theorem State.useFree_newtIrq (s : State) : (s.useFree).newtIrq = s.newtIrq := rfl
@[simp] theorem State.useFree_fieldOps (s : State) : (s.useFree).fieldOps = s.fieldOps := rfl
@[simp] theorem State.useFree_tb (s : State) : (s.useFree).tb = s.tb := rfl
@[simp] theorem State.useFree_hart (s : State) : (s.useFree).hart = s.hart := rfl
@[simp] theorem State.useFree_files (s : State) : (s.useFree).files = s.files := rfl
@[simp] theorem State.useFree_gftag (s : State) : (s.useFree).gftag = s.gftag := rfl
@[simp] theorem State.useFree_die (s : State) : (s.useFree).die = s.die := rfl
@[simp] theorem State.useFree_aplic (s : State) : (s.useFree).aplic = s.aplic := rfl
@[simp] theorem State.useFree_aplicRegs (s : State) : (s.useFree).aplicRegs = s.aplicRegs := rfl
@[simp] theorem State.useFree_paused (s : State) : (s.useFree).paused = s.paused := rfl
@[simp] theorem State.useFree_csq (s : State) : (s.useFree).csq = s.csq := rfl
@[simp] theorem State.useFree_slots (s : State) : (s.useFree).slots = s.slots := rfl
@[simp] theorem State.useFree_posts (s : State) : (s.useFree).posts = s.posts := rfl
@[simp] theorem State.useFree_launches (s : State) : (s.useFree).launches = s.launches := rfl
@[simp] theorem State.useFree_nextLaunch (s : State) : (s.useFree).nextLaunch = s.nextLaunch := rfl
@[simp] theorem State.useFree_unitAccept (s : State) : (s.useFree).unitAccept = s.unitAccept := rfl
@[simp] theorem State.useFree_ecc (s : State) : (s.useFree).ecc = s.ecc := rfl
@[simp] theorem State.useFree_releasing (s : State) : (s.useFree).releasing = s.releasing := rfl
@[simp] theorem State.useFree_viUsed (s : State) : (s.useFree).viUsed = s.viUsed := rfl
@[simp] theorem State.useFree_mc (s : State) : (s.useFree).mc = s.mc := rfl
@[simp] theorem State.useFree_poison (s : State) : (s.useFree).poison = s.poison := rfl
@[simp] theorem State.useFree_xeKeys (s : State) : (s.useFree).xeKeys = s.xeKeys := rfl
@[simp] theorem State.useFree_xeLoads (s : State) : (s.useFree).xeLoads = s.xeLoads := rfl
@[simp] theorem State.useFree_slotKey (s : State) : (s.useFree).slotKey = s.slotKey := rfl
@[simp] theorem State.useFree_cache (s : State) : (s.useFree).cache = s.cache := rfl
@[simp] theorem State.useFree_plru (s : State) : (s.useFree).plru = s.plru := rfl
@[simp] theorem State.useFree_streams (s : State) : (s.useFree).streams = s.streams := rfl
@[simp] theorem State.useFree_pitonBusy (s : State) : (s.useFree).pitonBusy = s.pitonBusy := rfl
@[simp] theorem State.useFree_slices (s : State) : (s.useFree).slices = s.slices := rfl
@[simp] theorem State.useFree_wbTag (s : State) : (s.useFree).wbTag = s.wbTag := rfl
@[simp] theorem State.useFree_ring (s : State) : (s.useFree).ring = s.ring := rfl
@[simp] theorem State.useFree_homes (s : State) : (s.useFree).homes = s.homes := rfl
@[simp] theorem State.useFree_sf (s : State) : (s.useFree).sf = s.sf := rfl
@[simp] theorem State.useFree_sfPlru (s : State) : (s.useFree).sfPlru = s.sfPlru := rfl
@[simp] theorem State.useFree_faultN (s : State) : (s.useFree).faultN = s.faultN := rfl
@[simp] theorem State.useFree_txIdle (s : State) : (s.useFree).txIdle = s.txIdle := rfl
@[simp] theorem State.useFree_links (s : State) : (s.useFree).links = s.links := rfl
@[simp] theorem State.useFree_timeWordAt (s : State) : (s.useFree).timeWordAt = s.timeWordAt := rfl
@[simp] theorem State.useFree_mesh (s : State) : (s.useFree).mesh = s.mesh := rfl
@[simp] theorem State.useFree_iotlb (s : State) : (s.useFree).iotlb = s.iotlb := rfl
@[simp] theorem State.useFree_queues (s : State) : (s.useFree).queues = s.queues := rfl
@[simp] theorem State.useFree_qe (s : State) : (s.useFree).qe = s.qe := rfl
@[simp] theorem State.useFree_viBytes (s : State) : (s.useFree).viBytes = s.viBytes := rfl
@[simp] theorem State.useFree_viPend (s : State) : (s.useFree).viPend = s.viPend := rfl
@[simp] theorem State.useFree_viAdmin (s : State) : (s.useFree).viAdmin = s.viAdmin := rfl
@[simp] theorem State.useFree_fab (s : State) : (s.useFree).fab = s.fab := rfl
@[simp] theorem State.useFree_ce (s : State) : (s.useFree).ce = s.ce := rfl
@[simp] theorem State.useFree_cectx (s : State) : (s.useFree).cectx = s.cectx := rfl
@[simp] theorem State.useFree_boots (s : State) : (s.useFree).boots = s.boots := rfl
@[simp] theorem State.useFree_pciOpen (s : State) : (s.useFree).pciOpen = s.pciOpen := rfl
@[simp] theorem State.useFree_pciTag (s : State) : (s.useFree).pciTag = s.pciTag := rfl
@[simp] theorem State.useFree_eth (s : State) : (s.useFree).eth = s.eth := rfl
@[simp] theorem State.useFree_ownReq (s : State) : (s.useFree).ownReq = s.ownReq := rfl
@[simp] theorem State.useFree_invReq (s : State) : (s.useFree).invReq = s.invReq := rfl
@[simp] theorem State.useFree_nv (s : State) : (s.useFree).nv = s.nv := rfl
@[simp] theorem State.useFree_ks (s : State) : (s.useFree).ks = s.ks := rfl
@[simp] theorem State.useFree_belay (s : State) : (s.useFree).belay = s.belay := rfl
@[simp] theorem State.useFree_pwr (s : State) : (s.useFree).pwr = s.pwr := rfl
@[simp] theorem State.useFree_caps (s : State) : (s.useFree).caps = s.caps := rfl
@[simp] theorem State.useFree_capBusy (s : State) : (s.useFree).capBusy = s.capBusy := rfl
@[simp] theorem State.useFree_trace (s : State) : (s.useFree).trace = s.trace := rfl
@[simp] theorem State.useFree_pending (s : State) : (s.useFree).pending = s.pending := rfl
@[simp] theorem State.rd_useFree (s : State) (j : Nat) : (s.useFree).rd j = s.rd j := rfl
@[simp] theorem State.get_useFree (s : State) (j : Loc) : (s.useFree).get j = s.get j := rfl

@[simp] theorem State.answer_resp (s : State) (r : Resp) : (s.answer r).resp = r := rfl
@[simp] theorem State.send_out (s : State) (o : Out) : (s.send o).out = s.out ++ [o] := rfl
@[simp] theorem State.useFree_free (s : State) : s.useFree.free = s.free + 1 := rfl

@[simp] theorem State.setHart_regs (s : State) (a1 : Nat) (a2 : Hart) : (State.setHart s a1 a2).regs = s.regs := rfl
@[simp] theorem State.setHart_mem (s : State) (a1 : Nat) (a2 : Hart) : (State.setHart s a1 a2).mem = s.mem := rfl
@[simp] theorem State.setHart_hregs (s : State) (a1 : Nat) (a2 : Hart) : (State.setHart s a1 a2).hregs = s.hregs := rfl
@[simp] theorem State.setHart_up (s : State) (a1 : Nat) (a2 : Hart) : (State.setHart s a1 a2).up = s.up := rfl
@[simp] theorem State.setHart_tb (s : State) (a1 : Nat) (a2 : Hart) : (State.setHart s a1 a2).tb = s.tb := rfl
@[simp] theorem State.setHart_pending (s : State) (a1 : Nat) (a2 : Hart) : (State.setHart s a1 a2).pending = s.pending := rfl
@[simp] theorem State.setHart_free (s : State) (a1 : Nat) (a2 : Hart) : (State.setHart s a1 a2).free = s.free := rfl
@[simp] theorem State.setHart_resp (s : State) (a1 : Nat) (a2 : Hart) : (State.setHart s a1 a2).resp = s.resp := rfl
@[simp] theorem State.setHart_out (s : State) (a1 : Nat) (a2 : Hart) : (State.setHart s a1 a2).out = s.out := rfl
@[simp] theorem State.rd_setHart (s : State) (a1 : Nat) (a2 : Hart) (j : Nat) : (State.setHart s a1 a2).rd j = s.rd j := rfl
@[simp] theorem State.get_setHart (s : State) (a1 : Nat) (a2 : Hart) (j : Loc) : (State.setHart s a1 a2).get j = s.get j := rfl

@[simp] theorem State.setDie_regs (s : State) (d : Nat) (a2 : Die) : (State.setDie s d a2).regs = s.regs := rfl
@[simp] theorem State.setDie_mem (s : State) (d : Nat) (a2 : Die) : (State.setDie s d a2).mem = s.mem := rfl
@[simp] theorem State.setDie_hregs (s : State) (d : Nat) (a2 : Die) : (State.setDie s d a2).hregs = s.hregs := rfl
@[simp] theorem State.setDie_up (s : State) (d : Nat) (a2 : Die) : (State.setDie s d a2).up = s.up := rfl
@[simp] theorem State.setDie_tb (s : State) (d : Nat) (a2 : Die) : (State.setDie s d a2).tb = s.tb := rfl
@[simp] theorem State.setDie_pending (s : State) (d : Nat) (a2 : Die) : (State.setDie s d a2).pending = s.pending := rfl
@[simp] theorem State.setDie_free (s : State) (d : Nat) (a2 : Die) : (State.setDie s d a2).free = s.free := rfl
@[simp] theorem State.setDie_resp (s : State) (d : Nat) (a2 : Die) : (State.setDie s d a2).resp = s.resp := rfl
@[simp] theorem State.setDie_out (s : State) (d : Nat) (a2 : Die) : (State.setDie s d a2).out = s.out := rfl
@[simp] theorem State.setDie_hart (s : State) (d : Nat) (a2 : Die) : (State.setDie s d a2).hart = s.hart := rfl
@[simp] theorem State.rd_setDie (s : State) (d : Nat) (a2 : Die) (j : Nat) : (State.setDie s d a2).rd j = s.rd j := rfl
@[simp] theorem State.get_setDie (s : State) (d : Nat) (a2 : Die) (j : Loc) : (State.setDie s d a2).get j = s.get j := rfl

@[simp] theorem State.setIntFile_regs (s : State) (a1 : Nat) (f : Nat) (a3 : IntFile) : (State.setIntFile s a1 f a3).regs = s.regs := rfl
@[simp] theorem State.setIntFile_mem (s : State) (a1 : Nat) (f : Nat) (a3 : IntFile) : (State.setIntFile s a1 f a3).mem = s.mem := rfl
@[simp] theorem State.setIntFile_hregs (s : State) (a1 : Nat) (f : Nat) (a3 : IntFile) : (State.setIntFile s a1 f a3).hregs = s.hregs := rfl
@[simp] theorem State.setIntFile_up (s : State) (a1 : Nat) (f : Nat) (a3 : IntFile) : (State.setIntFile s a1 f a3).up = s.up := rfl
@[simp] theorem State.setIntFile_tb (s : State) (a1 : Nat) (f : Nat) (a3 : IntFile) : (State.setIntFile s a1 f a3).tb = s.tb := rfl
@[simp] theorem State.setIntFile_pending (s : State) (a1 : Nat) (f : Nat) (a3 : IntFile) : (State.setIntFile s a1 f a3).pending = s.pending := rfl
@[simp] theorem State.setIntFile_free (s : State) (a1 : Nat) (f : Nat) (a3 : IntFile) : (State.setIntFile s a1 f a3).free = s.free := rfl
@[simp] theorem State.setIntFile_resp (s : State) (a1 : Nat) (f : Nat) (a3 : IntFile) : (State.setIntFile s a1 f a3).resp = s.resp := rfl
@[simp] theorem State.setIntFile_out (s : State) (a1 : Nat) (f : Nat) (a3 : IntFile) : (State.setIntFile s a1 f a3).out = s.out := rfl
@[simp] theorem State.setIntFile_hart (s : State) (a1 : Nat) (f : Nat) (a3 : IntFile) : (State.setIntFile s a1 f a3).hart = s.hart := rfl
@[simp] theorem State.rd_setIntFile (s : State) (a1 : Nat) (f : Nat) (a3 : IntFile) (j : Nat) : (State.setIntFile s a1 f a3).rd j = s.rd j := rfl
@[simp] theorem State.get_setIntFile (s : State) (a1 : Nat) (f : Nat) (a3 : IntFile) (j : Loc) : (State.setIntFile s a1 f a3).get j = s.get j := rfl

@[simp] theorem State.setCsq_regs (s : State) (q : Nat) (c : Csq) : (State.setCsq s q c).regs = s.regs := rfl
@[simp] theorem State.setCsq_mem (s : State) (q : Nat) (c : Csq) : (State.setCsq s q c).mem = s.mem := rfl
@[simp] theorem State.setCsq_hregs (s : State) (q : Nat) (c : Csq) : (State.setCsq s q c).hregs = s.hregs := rfl
@[simp] theorem State.setCsq_up (s : State) (q : Nat) (c : Csq) : (State.setCsq s q c).up = s.up := rfl
@[simp] theorem State.setCsq_tb (s : State) (q : Nat) (c : Csq) : (State.setCsq s q c).tb = s.tb := rfl
@[simp] theorem State.setCsq_pending (s : State) (q : Nat) (c : Csq) : (State.setCsq s q c).pending = s.pending := rfl
@[simp] theorem State.setCsq_free (s : State) (q : Nat) (c : Csq) : (State.setCsq s q c).free = s.free := rfl
@[simp] theorem State.setCsq_resp (s : State) (q : Nat) (c : Csq) : (State.setCsq s q c).resp = s.resp := rfl
@[simp] theorem State.setCsq_out (s : State) (q : Nat) (c : Csq) : (State.setCsq s q c).out = s.out := rfl
@[simp] theorem State.setCsq_hart (s : State) (q : Nat) (c : Csq) : (State.setCsq s q c).hart = s.hart := rfl
@[simp] theorem State.rd_setCsq (s : State) (q : Nat) (c : Csq) (j : Nat) : (State.setCsq s q c).rd j = s.rd j := rfl
@[simp] theorem State.get_setCsq (s : State) (q : Nat) (c : Csq) (j : Loc) : (State.setCsq s q c).get j = s.get j := rfl

@[simp] theorem State.setMc_regs (s : State) (m : Nat) (a2 : Mc) : (State.setMc s m a2).regs = s.regs := rfl
@[simp] theorem State.setMc_mem (s : State) (m : Nat) (a2 : Mc) : (State.setMc s m a2).mem = s.mem := rfl
@[simp] theorem State.setMc_hregs (s : State) (m : Nat) (a2 : Mc) : (State.setMc s m a2).hregs = s.hregs := rfl
@[simp] theorem State.setMc_up (s : State) (m : Nat) (a2 : Mc) : (State.setMc s m a2).up = s.up := rfl
@[simp] theorem State.setMc_tb (s : State) (m : Nat) (a2 : Mc) : (State.setMc s m a2).tb = s.tb := rfl
@[simp] theorem State.setMc_pending (s : State) (m : Nat) (a2 : Mc) : (State.setMc s m a2).pending = s.pending := rfl
@[simp] theorem State.setMc_free (s : State) (m : Nat) (a2 : Mc) : (State.setMc s m a2).free = s.free := rfl
@[simp] theorem State.setMc_resp (s : State) (m : Nat) (a2 : Mc) : (State.setMc s m a2).resp = s.resp := rfl
@[simp] theorem State.setMc_out (s : State) (m : Nat) (a2 : Mc) : (State.setMc s m a2).out = s.out := rfl
@[simp] theorem State.setMc_hart (s : State) (m : Nat) (a2 : Mc) : (State.setMc s m a2).hart = s.hart := rfl
@[simp] theorem State.rd_setMc (s : State) (m : Nat) (a2 : Mc) (j : Nat) : (State.setMc s m a2).rd j = s.rd j := rfl
@[simp] theorem State.get_setMc (s : State) (m : Nat) (a2 : Mc) (j : Loc) : (State.setMc s m a2).get j = s.get j := rfl

@[simp] theorem State.setCline_regs (s : State) (d : Nat) (u : Nat) (set : Nat) (way : Nat) (a5 : CLine) : (State.setCline s d u set way a5).regs = s.regs := rfl
@[simp] theorem State.setCline_mem (s : State) (d : Nat) (u : Nat) (set : Nat) (way : Nat) (a5 : CLine) : (State.setCline s d u set way a5).mem = s.mem := rfl
@[simp] theorem State.setCline_hregs (s : State) (d : Nat) (u : Nat) (set : Nat) (way : Nat) (a5 : CLine) : (State.setCline s d u set way a5).hregs = s.hregs := rfl
@[simp] theorem State.setCline_up (s : State) (d : Nat) (u : Nat) (set : Nat) (way : Nat) (a5 : CLine) : (State.setCline s d u set way a5).up = s.up := rfl
@[simp] theorem State.setCline_tb (s : State) (d : Nat) (u : Nat) (set : Nat) (way : Nat) (a5 : CLine) : (State.setCline s d u set way a5).tb = s.tb := rfl
@[simp] theorem State.setCline_pending (s : State) (d : Nat) (u : Nat) (set : Nat) (way : Nat) (a5 : CLine) : (State.setCline s d u set way a5).pending = s.pending := rfl
@[simp] theorem State.setCline_free (s : State) (d : Nat) (u : Nat) (set : Nat) (way : Nat) (a5 : CLine) : (State.setCline s d u set way a5).free = s.free := rfl
@[simp] theorem State.setCline_resp (s : State) (d : Nat) (u : Nat) (set : Nat) (way : Nat) (a5 : CLine) : (State.setCline s d u set way a5).resp = s.resp := rfl
@[simp] theorem State.setCline_out (s : State) (d : Nat) (u : Nat) (set : Nat) (way : Nat) (a5 : CLine) : (State.setCline s d u set way a5).out = s.out := rfl
@[simp] theorem State.setCline_hart (s : State) (d : Nat) (u : Nat) (set : Nat) (way : Nat) (a5 : CLine) : (State.setCline s d u set way a5).hart = s.hart := rfl
@[simp] theorem State.rd_setCline (s : State) (d : Nat) (u : Nat) (set : Nat) (way : Nat) (a5 : CLine) (j : Nat) : (State.setCline s d u set way a5).rd j = s.rd j := rfl
@[simp] theorem State.get_setCline (s : State) (d : Nat) (u : Nat) (set : Nat) (way : Nat) (a5 : CLine) (j : Loc) : (State.setCline s d u set way a5).get j = s.get j := rfl

@[simp] theorem State.setSliceTxn_regs (s : State) (d : Nat) (l : Nat) (a3 : SliceTxn) : (State.setSliceTxn s d l a3).regs = s.regs := rfl
@[simp] theorem State.setSliceTxn_mem (s : State) (d : Nat) (l : Nat) (a3 : SliceTxn) : (State.setSliceTxn s d l a3).mem = s.mem := rfl
@[simp] theorem State.setSliceTxn_hregs (s : State) (d : Nat) (l : Nat) (a3 : SliceTxn) : (State.setSliceTxn s d l a3).hregs = s.hregs := rfl
@[simp] theorem State.setSliceTxn_up (s : State) (d : Nat) (l : Nat) (a3 : SliceTxn) : (State.setSliceTxn s d l a3).up = s.up := rfl
@[simp] theorem State.setSliceTxn_tb (s : State) (d : Nat) (l : Nat) (a3 : SliceTxn) : (State.setSliceTxn s d l a3).tb = s.tb := rfl
@[simp] theorem State.setSliceTxn_pending (s : State) (d : Nat) (l : Nat) (a3 : SliceTxn) : (State.setSliceTxn s d l a3).pending = s.pending := rfl
@[simp] theorem State.setSliceTxn_free (s : State) (d : Nat) (l : Nat) (a3 : SliceTxn) : (State.setSliceTxn s d l a3).free = s.free := rfl
@[simp] theorem State.setSliceTxn_resp (s : State) (d : Nat) (l : Nat) (a3 : SliceTxn) : (State.setSliceTxn s d l a3).resp = s.resp := rfl
@[simp] theorem State.setSliceTxn_out (s : State) (d : Nat) (l : Nat) (a3 : SliceTxn) : (State.setSliceTxn s d l a3).out = s.out := rfl
@[simp] theorem State.setSliceTxn_hart (s : State) (d : Nat) (l : Nat) (a3 : SliceTxn) : (State.setSliceTxn s d l a3).hart = s.hart := rfl
@[simp] theorem State.rd_setSliceTxn (s : State) (d : Nat) (l : Nat) (a3 : SliceTxn) (j : Nat) : (State.setSliceTxn s d l a3).rd j = s.rd j := rfl
@[simp] theorem State.get_setSliceTxn (s : State) (d : Nat) (l : Nat) (a3 : SliceTxn) (j : Loc) : (State.setSliceTxn s d l a3).get j = s.get j := rfl

@[simp] theorem State.setHome_regs (s : State) (a1 : Nat) (a2 : Home) : (State.setHome s a1 a2).regs = s.regs := rfl
@[simp] theorem State.setHome_mem (s : State) (a1 : Nat) (a2 : Home) : (State.setHome s a1 a2).mem = s.mem := rfl
@[simp] theorem State.setHome_hregs (s : State) (a1 : Nat) (a2 : Home) : (State.setHome s a1 a2).hregs = s.hregs := rfl
@[simp] theorem State.setHome_up (s : State) (a1 : Nat) (a2 : Home) : (State.setHome s a1 a2).up = s.up := rfl
@[simp] theorem State.setHome_tb (s : State) (a1 : Nat) (a2 : Home) : (State.setHome s a1 a2).tb = s.tb := rfl
@[simp] theorem State.setHome_pending (s : State) (a1 : Nat) (a2 : Home) : (State.setHome s a1 a2).pending = s.pending := rfl
@[simp] theorem State.setHome_free (s : State) (a1 : Nat) (a2 : Home) : (State.setHome s a1 a2).free = s.free := rfl
@[simp] theorem State.setHome_resp (s : State) (a1 : Nat) (a2 : Home) : (State.setHome s a1 a2).resp = s.resp := rfl
@[simp] theorem State.setHome_out (s : State) (a1 : Nat) (a2 : Home) : (State.setHome s a1 a2).out = s.out := rfl
@[simp] theorem State.setHome_hart (s : State) (a1 : Nat) (a2 : Home) : (State.setHome s a1 a2).hart = s.hart := rfl
@[simp] theorem State.rd_setHome (s : State) (a1 : Nat) (a2 : Home) (j : Nat) : (State.setHome s a1 a2).rd j = s.rd j := rfl
@[simp] theorem State.get_setHome (s : State) (a1 : Nat) (a2 : Home) (j : Loc) : (State.setHome s a1 a2).get j = s.get j := rfl

@[simp] theorem State.setLink_regs (s : State) (n : Nat) (a2 : Link) : (State.setLink s n a2).regs = s.regs := rfl
@[simp] theorem State.setLink_mem (s : State) (n : Nat) (a2 : Link) : (State.setLink s n a2).mem = s.mem := rfl
@[simp] theorem State.setLink_hregs (s : State) (n : Nat) (a2 : Link) : (State.setLink s n a2).hregs = s.hregs := rfl
@[simp] theorem State.setLink_up (s : State) (n : Nat) (a2 : Link) : (State.setLink s n a2).up = s.up := rfl
@[simp] theorem State.setLink_tb (s : State) (n : Nat) (a2 : Link) : (State.setLink s n a2).tb = s.tb := rfl
@[simp] theorem State.setLink_pending (s : State) (n : Nat) (a2 : Link) : (State.setLink s n a2).pending = s.pending := rfl
@[simp] theorem State.setLink_free (s : State) (n : Nat) (a2 : Link) : (State.setLink s n a2).free = s.free := rfl
@[simp] theorem State.setLink_resp (s : State) (n : Nat) (a2 : Link) : (State.setLink s n a2).resp = s.resp := rfl
@[simp] theorem State.setLink_out (s : State) (n : Nat) (a2 : Link) : (State.setLink s n a2).out = s.out := rfl
@[simp] theorem State.setLink_hart (s : State) (n : Nat) (a2 : Link) : (State.setLink s n a2).hart = s.hart := rfl
@[simp] theorem State.rd_setLink (s : State) (n : Nat) (a2 : Link) (j : Nat) : (State.setLink s n a2).rd j = s.rd j := rfl
@[simp] theorem State.get_setLink (s : State) (n : Nat) (a2 : Link) (j : Loc) : (State.setLink s n a2).get j = s.get j := rfl

@[simp] theorem State.setMesh_regs (s : State) (a1 : Mesh) : (State.setMesh s a1).regs = s.regs := rfl
@[simp] theorem State.setMesh_mem (s : State) (a1 : Mesh) : (State.setMesh s a1).mem = s.mem := rfl
@[simp] theorem State.setMesh_hregs (s : State) (a1 : Mesh) : (State.setMesh s a1).hregs = s.hregs := rfl
@[simp] theorem State.setMesh_up (s : State) (a1 : Mesh) : (State.setMesh s a1).up = s.up := rfl
@[simp] theorem State.setMesh_tb (s : State) (a1 : Mesh) : (State.setMesh s a1).tb = s.tb := rfl
@[simp] theorem State.setMesh_pending (s : State) (a1 : Mesh) : (State.setMesh s a1).pending = s.pending := rfl
@[simp] theorem State.setMesh_free (s : State) (a1 : Mesh) : (State.setMesh s a1).free = s.free := rfl
@[simp] theorem State.setMesh_resp (s : State) (a1 : Mesh) : (State.setMesh s a1).resp = s.resp := rfl
@[simp] theorem State.setMesh_out (s : State) (a1 : Mesh) : (State.setMesh s a1).out = s.out := rfl
@[simp] theorem State.setMesh_hart (s : State) (a1 : Mesh) : (State.setMesh s a1).hart = s.hart := rfl
@[simp] theorem State.rd_setMesh (s : State) (a1 : Mesh) (j : Nat) : (State.setMesh s a1).rd j = s.rd j := rfl
@[simp] theorem State.get_setMesh (s : State) (a1 : Mesh) (j : Loc) : (State.setMesh s a1).get j = s.get j := rfl

@[simp] theorem State.setFab_regs (s : State) (a1 : Fab) : (State.setFab s a1).regs = s.regs := rfl
@[simp] theorem State.setFab_mem (s : State) (a1 : Fab) : (State.setFab s a1).mem = s.mem := rfl
@[simp] theorem State.setFab_hregs (s : State) (a1 : Fab) : (State.setFab s a1).hregs = s.hregs := rfl
@[simp] theorem State.setFab_up (s : State) (a1 : Fab) : (State.setFab s a1).up = s.up := rfl
@[simp] theorem State.setFab_tb (s : State) (a1 : Fab) : (State.setFab s a1).tb = s.tb := rfl
@[simp] theorem State.setFab_pending (s : State) (a1 : Fab) : (State.setFab s a1).pending = s.pending := rfl
@[simp] theorem State.setFab_free (s : State) (a1 : Fab) : (State.setFab s a1).free = s.free := rfl
@[simp] theorem State.setFab_resp (s : State) (a1 : Fab) : (State.setFab s a1).resp = s.resp := rfl
@[simp] theorem State.setFab_out (s : State) (a1 : Fab) : (State.setFab s a1).out = s.out := rfl
@[simp] theorem State.setFab_hart (s : State) (a1 : Fab) : (State.setFab s a1).hart = s.hart := rfl
@[simp] theorem State.rd_setFab (s : State) (a1 : Fab) (j : Nat) : (State.setFab s a1).rd j = s.rd j := rfl
@[simp] theorem State.get_setFab (s : State) (a1 : Fab) (j : Loc) : (State.setFab s a1).get j = s.get j := rfl

@[simp] theorem State.setSpillQ_regs (s : State) (q : Nat) (a2 : SpillQ) : (State.setSpillQ s q a2).regs = s.regs := rfl
@[simp] theorem State.setSpillQ_mem (s : State) (q : Nat) (a2 : SpillQ) : (State.setSpillQ s q a2).mem = s.mem := rfl
@[simp] theorem State.setSpillQ_hregs (s : State) (q : Nat) (a2 : SpillQ) : (State.setSpillQ s q a2).hregs = s.hregs := rfl
@[simp] theorem State.setSpillQ_up (s : State) (q : Nat) (a2 : SpillQ) : (State.setSpillQ s q a2).up = s.up := rfl
@[simp] theorem State.setSpillQ_tb (s : State) (q : Nat) (a2 : SpillQ) : (State.setSpillQ s q a2).tb = s.tb := rfl
@[simp] theorem State.setSpillQ_pending (s : State) (q : Nat) (a2 : SpillQ) : (State.setSpillQ s q a2).pending = s.pending := rfl
@[simp] theorem State.setSpillQ_free (s : State) (q : Nat) (a2 : SpillQ) : (State.setSpillQ s q a2).free = s.free := rfl
@[simp] theorem State.setSpillQ_resp (s : State) (q : Nat) (a2 : SpillQ) : (State.setSpillQ s q a2).resp = s.resp := rfl
@[simp] theorem State.setSpillQ_out (s : State) (q : Nat) (a2 : SpillQ) : (State.setSpillQ s q a2).out = s.out := rfl
@[simp] theorem State.setSpillQ_hart (s : State) (q : Nat) (a2 : SpillQ) : (State.setSpillQ s q a2).hart = s.hart := rfl
@[simp] theorem State.rd_setSpillQ (s : State) (q : Nat) (a2 : SpillQ) (j : Nat) : (State.setSpillQ s q a2).rd j = s.rd j := rfl
@[simp] theorem State.get_setSpillQ (s : State) (q : Nat) (a2 : SpillQ) (j : Loc) : (State.setSpillQ s q a2).get j = s.get j := rfl

@[simp] theorem State.setQe_regs (s : State) (e : Nat) (a2 : QEng) : (State.setQe s e a2).regs = s.regs := rfl
@[simp] theorem State.setQe_mem (s : State) (e : Nat) (a2 : QEng) : (State.setQe s e a2).mem = s.mem := rfl
@[simp] theorem State.setQe_hregs (s : State) (e : Nat) (a2 : QEng) : (State.setQe s e a2).hregs = s.hregs := rfl
@[simp] theorem State.setQe_up (s : State) (e : Nat) (a2 : QEng) : (State.setQe s e a2).up = s.up := rfl
@[simp] theorem State.setQe_tb (s : State) (e : Nat) (a2 : QEng) : (State.setQe s e a2).tb = s.tb := rfl
@[simp] theorem State.setQe_pending (s : State) (e : Nat) (a2 : QEng) : (State.setQe s e a2).pending = s.pending := rfl
@[simp] theorem State.setQe_free (s : State) (e : Nat) (a2 : QEng) : (State.setQe s e a2).free = s.free := rfl
@[simp] theorem State.setQe_resp (s : State) (e : Nat) (a2 : QEng) : (State.setQe s e a2).resp = s.resp := rfl
@[simp] theorem State.setQe_out (s : State) (e : Nat) (a2 : QEng) : (State.setQe s e a2).out = s.out := rfl
@[simp] theorem State.setQe_hart (s : State) (e : Nat) (a2 : QEng) : (State.setQe s e a2).hart = s.hart := rfl
@[simp] theorem State.rd_setQe (s : State) (e : Nat) (a2 : QEng) (j : Nat) : (State.setQe s e a2).rd j = s.rd j := rfl
@[simp] theorem State.get_setQe (s : State) (e : Nat) (a2 : QEng) (j : Loc) : (State.setQe s e a2).get j = s.get j := rfl

@[simp] theorem State.setCe_regs (s : State) (e : Nat) (a2 : CeEng) : (State.setCe s e a2).regs = s.regs := rfl
@[simp] theorem State.setCe_mem (s : State) (e : Nat) (a2 : CeEng) : (State.setCe s e a2).mem = s.mem := rfl
@[simp] theorem State.setCe_hregs (s : State) (e : Nat) (a2 : CeEng) : (State.setCe s e a2).hregs = s.hregs := rfl
@[simp] theorem State.setCe_up (s : State) (e : Nat) (a2 : CeEng) : (State.setCe s e a2).up = s.up := rfl
@[simp] theorem State.setCe_tb (s : State) (e : Nat) (a2 : CeEng) : (State.setCe s e a2).tb = s.tb := rfl
@[simp] theorem State.setCe_pending (s : State) (e : Nat) (a2 : CeEng) : (State.setCe s e a2).pending = s.pending := rfl
@[simp] theorem State.setCe_free (s : State) (e : Nat) (a2 : CeEng) : (State.setCe s e a2).free = s.free := rfl
@[simp] theorem State.setCe_resp (s : State) (e : Nat) (a2 : CeEng) : (State.setCe s e a2).resp = s.resp := rfl
@[simp] theorem State.setCe_out (s : State) (e : Nat) (a2 : CeEng) : (State.setCe s e a2).out = s.out := rfl
@[simp] theorem State.setCe_hart (s : State) (e : Nat) (a2 : CeEng) : (State.setCe s e a2).hart = s.hart := rfl
@[simp] theorem State.rd_setCe (s : State) (e : Nat) (a2 : CeEng) (j : Nat) : (State.setCe s e a2).rd j = s.rd j := rfl
@[simp] theorem State.get_setCe (s : State) (e : Nat) (a2 : CeEng) (j : Loc) : (State.setCe s e a2).get j = s.get j := rfl

@[simp] theorem State.setCx_regs (s : State) (n : Nat) (a2 : CeCtx) : (State.setCx s n a2).regs = s.regs := rfl
@[simp] theorem State.setCx_mem (s : State) (n : Nat) (a2 : CeCtx) : (State.setCx s n a2).mem = s.mem := rfl
@[simp] theorem State.setCx_hregs (s : State) (n : Nat) (a2 : CeCtx) : (State.setCx s n a2).hregs = s.hregs := rfl
@[simp] theorem State.setCx_up (s : State) (n : Nat) (a2 : CeCtx) : (State.setCx s n a2).up = s.up := rfl
@[simp] theorem State.setCx_tb (s : State) (n : Nat) (a2 : CeCtx) : (State.setCx s n a2).tb = s.tb := rfl
@[simp] theorem State.setCx_pending (s : State) (n : Nat) (a2 : CeCtx) : (State.setCx s n a2).pending = s.pending := rfl
@[simp] theorem State.setCx_free (s : State) (n : Nat) (a2 : CeCtx) : (State.setCx s n a2).free = s.free := rfl
@[simp] theorem State.setCx_resp (s : State) (n : Nat) (a2 : CeCtx) : (State.setCx s n a2).resp = s.resp := rfl
@[simp] theorem State.setCx_out (s : State) (n : Nat) (a2 : CeCtx) : (State.setCx s n a2).out = s.out := rfl
@[simp] theorem State.setCx_hart (s : State) (n : Nat) (a2 : CeCtx) : (State.setCx s n a2).hart = s.hart := rfl
@[simp] theorem State.rd_setCx (s : State) (n : Nat) (a2 : CeCtx) (j : Nat) : (State.setCx s n a2).rd j = s.rd j := rfl
@[simp] theorem State.get_setCx (s : State) (n : Nat) (a2 : CeCtx) (j : Loc) : (State.setCx s n a2).get j = s.get j := rfl

@[simp] theorem State.setEthLane_regs (s : State) (l : Nat) (a2 : EthLane) : (State.setEthLane s l a2).regs = s.regs := rfl
@[simp] theorem State.setEthLane_mem (s : State) (l : Nat) (a2 : EthLane) : (State.setEthLane s l a2).mem = s.mem := rfl
@[simp] theorem State.setEthLane_hregs (s : State) (l : Nat) (a2 : EthLane) : (State.setEthLane s l a2).hregs = s.hregs := rfl
@[simp] theorem State.setEthLane_up (s : State) (l : Nat) (a2 : EthLane) : (State.setEthLane s l a2).up = s.up := rfl
@[simp] theorem State.setEthLane_tb (s : State) (l : Nat) (a2 : EthLane) : (State.setEthLane s l a2).tb = s.tb := rfl
@[simp] theorem State.setEthLane_pending (s : State) (l : Nat) (a2 : EthLane) : (State.setEthLane s l a2).pending = s.pending := rfl
@[simp] theorem State.setEthLane_free (s : State) (l : Nat) (a2 : EthLane) : (State.setEthLane s l a2).free = s.free := rfl
@[simp] theorem State.setEthLane_resp (s : State) (l : Nat) (a2 : EthLane) : (State.setEthLane s l a2).resp = s.resp := rfl
@[simp] theorem State.setEthLane_out (s : State) (l : Nat) (a2 : EthLane) : (State.setEthLane s l a2).out = s.out := rfl
@[simp] theorem State.setEthLane_hart (s : State) (l : Nat) (a2 : EthLane) : (State.setEthLane s l a2).hart = s.hart := rfl
@[simp] theorem State.rd_setEthLane (s : State) (l : Nat) (a2 : EthLane) (j : Nat) : (State.setEthLane s l a2).rd j = s.rd j := rfl
@[simp] theorem State.get_setEthLane (s : State) (l : Nat) (a2 : EthLane) (j : Loc) : (State.setEthLane s l a2).get j = s.get j := rfl

@[simp] theorem State.setAdmin_regs (s : State) (k : Nat) (sealed : Bool) (a : Option ViAdmin) : (State.setAdmin s k sealed a).regs = s.regs := rfl
@[simp] theorem State.setAdmin_mem (s : State) (k : Nat) (sealed : Bool) (a : Option ViAdmin) : (State.setAdmin s k sealed a).mem = s.mem := rfl
@[simp] theorem State.setAdmin_hregs (s : State) (k : Nat) (sealed : Bool) (a : Option ViAdmin) : (State.setAdmin s k sealed a).hregs = s.hregs := rfl
@[simp] theorem State.setAdmin_up (s : State) (k : Nat) (sealed : Bool) (a : Option ViAdmin) : (State.setAdmin s k sealed a).up = s.up := rfl
@[simp] theorem State.setAdmin_tb (s : State) (k : Nat) (sealed : Bool) (a : Option ViAdmin) : (State.setAdmin s k sealed a).tb = s.tb := rfl
@[simp] theorem State.setAdmin_pending (s : State) (k : Nat) (sealed : Bool) (a : Option ViAdmin) : (State.setAdmin s k sealed a).pending = s.pending := rfl
@[simp] theorem State.setAdmin_free (s : State) (k : Nat) (sealed : Bool) (a : Option ViAdmin) : (State.setAdmin s k sealed a).free = s.free := rfl
@[simp] theorem State.setAdmin_resp (s : State) (k : Nat) (sealed : Bool) (a : Option ViAdmin) : (State.setAdmin s k sealed a).resp = s.resp := rfl
@[simp] theorem State.setAdmin_out (s : State) (k : Nat) (sealed : Bool) (a : Option ViAdmin) : (State.setAdmin s k sealed a).out = s.out := rfl
@[simp] theorem State.setAdmin_hart (s : State) (k : Nat) (sealed : Bool) (a : Option ViAdmin) : (State.setAdmin s k sealed a).hart = s.hart := rfl
@[simp] theorem State.rd_setAdmin (s : State) (k : Nat) (sealed : Bool) (a : Option ViAdmin) (j : Nat) : (State.setAdmin s k sealed a).rd j = s.rd j := rfl
@[simp] theorem State.get_setAdmin (s : State) (k : Nat) (sealed : Bool) (a : Option ViAdmin) (j : Loc) : (State.setAdmin s k sealed a).get j = s.get j := rfl

@[simp] theorem State.setOwnReq_regs (s : State) (w : Bool) (a2 : Option OwnReq) : (State.setOwnReq s w a2).regs = s.regs := rfl
@[simp] theorem State.setOwnReq_mem (s : State) (w : Bool) (a2 : Option OwnReq) : (State.setOwnReq s w a2).mem = s.mem := rfl
@[simp] theorem State.setOwnReq_hregs (s : State) (w : Bool) (a2 : Option OwnReq) : (State.setOwnReq s w a2).hregs = s.hregs := rfl
@[simp] theorem State.setOwnReq_up (s : State) (w : Bool) (a2 : Option OwnReq) : (State.setOwnReq s w a2).up = s.up := rfl
@[simp] theorem State.setOwnReq_tb (s : State) (w : Bool) (a2 : Option OwnReq) : (State.setOwnReq s w a2).tb = s.tb := rfl
@[simp] theorem State.setOwnReq_pending (s : State) (w : Bool) (a2 : Option OwnReq) : (State.setOwnReq s w a2).pending = s.pending := rfl
@[simp] theorem State.setOwnReq_free (s : State) (w : Bool) (a2 : Option OwnReq) : (State.setOwnReq s w a2).free = s.free := rfl
@[simp] theorem State.setOwnReq_resp (s : State) (w : Bool) (a2 : Option OwnReq) : (State.setOwnReq s w a2).resp = s.resp := rfl
@[simp] theorem State.setOwnReq_out (s : State) (w : Bool) (a2 : Option OwnReq) : (State.setOwnReq s w a2).out = s.out := rfl
@[simp] theorem State.setOwnReq_hart (s : State) (w : Bool) (a2 : Option OwnReq) : (State.setOwnReq s w a2).hart = s.hart := rfl
@[simp] theorem State.rd_setOwnReq (s : State) (w : Bool) (a2 : Option OwnReq) (j : Nat) : (State.setOwnReq s w a2).rd j = s.rd j := rfl
@[simp] theorem State.get_setOwnReq (s : State) (w : Bool) (a2 : Option OwnReq) (j : Loc) : (State.setOwnReq s w a2).get j = s.get j := rfl

@[simp] theorem State.setKs_regs (s : State) (k : Ks) : (State.setKs s k).regs = s.regs := rfl
@[simp] theorem State.setKs_mem (s : State) (k : Ks) : (State.setKs s k).mem = s.mem := rfl
@[simp] theorem State.setKs_hregs (s : State) (k : Ks) : (State.setKs s k).hregs = s.hregs := rfl
@[simp] theorem State.setKs_up (s : State) (k : Ks) : (State.setKs s k).up = s.up := rfl
@[simp] theorem State.setKs_tb (s : State) (k : Ks) : (State.setKs s k).tb = s.tb := rfl
@[simp] theorem State.setKs_pending (s : State) (k : Ks) : (State.setKs s k).pending = s.pending := rfl
@[simp] theorem State.setKs_free (s : State) (k : Ks) : (State.setKs s k).free = s.free := rfl
@[simp] theorem State.setKs_resp (s : State) (k : Ks) : (State.setKs s k).resp = s.resp := rfl
@[simp] theorem State.setKs_out (s : State) (k : Ks) : (State.setKs s k).out = s.out := rfl
@[simp] theorem State.setKs_hart (s : State) (k : Ks) : (State.setKs s k).hart = s.hart := rfl
@[simp] theorem State.rd_setKs (s : State) (k : Ks) (j : Nat) : (State.setKs s k).rd j = s.rd j := rfl
@[simp] theorem State.get_setKs (s : State) (k : Ks) (j : Loc) : (State.setKs s k).get j = s.get j := rfl

@[simp] theorem State.setBelay_regs (s : State) (b : Belay) : (State.setBelay s b).regs = s.regs := rfl
@[simp] theorem State.setBelay_mem (s : State) (b : Belay) : (State.setBelay s b).mem = s.mem := rfl
@[simp] theorem State.setBelay_hregs (s : State) (b : Belay) : (State.setBelay s b).hregs = s.hregs := rfl
@[simp] theorem State.setBelay_up (s : State) (b : Belay) : (State.setBelay s b).up = s.up := rfl
@[simp] theorem State.setBelay_tb (s : State) (b : Belay) : (State.setBelay s b).tb = s.tb := rfl
@[simp] theorem State.setBelay_pending (s : State) (b : Belay) : (State.setBelay s b).pending = s.pending := rfl
@[simp] theorem State.setBelay_free (s : State) (b : Belay) : (State.setBelay s b).free = s.free := rfl
@[simp] theorem State.setBelay_resp (s : State) (b : Belay) : (State.setBelay s b).resp = s.resp := rfl
@[simp] theorem State.setBelay_out (s : State) (b : Belay) : (State.setBelay s b).out = s.out := rfl
@[simp] theorem State.setBelay_hart (s : State) (b : Belay) : (State.setBelay s b).hart = s.hart := rfl
@[simp] theorem State.rd_setBelay (s : State) (b : Belay) (j : Nat) : (State.setBelay s b).rd j = s.rd j := rfl
@[simp] theorem State.get_setBelay (s : State) (b : Belay) (j : Loc) : (State.setBelay s b).get j = s.get j := rfl

@[simp] theorem State.setPwr_regs (s : State) (p : Pwr) : (State.setPwr s p).regs = s.regs := rfl
@[simp] theorem State.setPwr_mem (s : State) (p : Pwr) : (State.setPwr s p).mem = s.mem := rfl
@[simp] theorem State.setPwr_hregs (s : State) (p : Pwr) : (State.setPwr s p).hregs = s.hregs := rfl
@[simp] theorem State.setPwr_up (s : State) (p : Pwr) : (State.setPwr s p).up = s.up := rfl
@[simp] theorem State.setPwr_tb (s : State) (p : Pwr) : (State.setPwr s p).tb = s.tb := rfl
@[simp] theorem State.setPwr_pending (s : State) (p : Pwr) : (State.setPwr s p).pending = s.pending := rfl
@[simp] theorem State.setPwr_free (s : State) (p : Pwr) : (State.setPwr s p).free = s.free := rfl
@[simp] theorem State.setPwr_resp (s : State) (p : Pwr) : (State.setPwr s p).resp = s.resp := rfl
@[simp] theorem State.setPwr_out (s : State) (p : Pwr) : (State.setPwr s p).out = s.out := rfl
@[simp] theorem State.setPwr_hart (s : State) (p : Pwr) : (State.setPwr s p).hart = s.hart := rfl
@[simp] theorem State.rd_setPwr (s : State) (p : Pwr) (j : Nat) : (State.setPwr s p).rd j = s.rd j := rfl
@[simp] theorem State.get_setPwr (s : State) (p : Pwr) (j : Loc) : (State.setPwr s p).get j = s.get j := rfl

end Sys2Proof.Machine
end

