-- ==== Sys2Proof/WellFormed.lean ====
section
/-! DEFINITION. Well-formed commands: every operand fits the field or the message that carries it. The model gives every
command a meaning, well-formed or not; a sender sends only well-formed ones. -/

namespace Sys2Proof

/-- A field of `n` bits holds the number. -/
abbrev fits (n v : Nat) : Bool := decide (v < 2 ^ n)

/-- A list of bytes. -/
def bytesOk (b : List Nat) : Bool := b.all (fun x => decide (x < 256))

/-- A list of 64-bit words. -/
def wordsOk (b : List Nat) : Bool := b.all (fits 64)

/-- The size of an access: 1, 2, 4 or 8 bytes. -/
def accessSize (n : Nat) : Bool := [1, 2, 4, 8].contains n

/-- An instance number, if there is one, has 8 bits. -/
def viOk (v : Option Nat) : Bool := match v with
  | some x => fits 8 x
  | none => true

/-- The tags of an access (R29): a hart that exists; an 8-bit generation, 0 without an instance. -/
def Issuer.ok (c : Issuer) : Bool :=
  viOk c.vi && fits 8 c.gen && (c.vi.isSome || c.gen == 0) && (match c.agent with | .hart h => decide (h < 216) | _ => true)

def RegTarget.ok : RegTarget → Bool
  | .addr _ size => accessSize size
  | .csr _ _ _ => true

def Sample.ok (r : Sample) : Bool := fits 7 r.marks

/-- The fields of Table 2.4. -/
def TimeMsg.ok (m : TimeMsg) : Bool :=
  fits 3 m.state && fits 1 m.candRun && fits 8 m.candPrio && fits 64 m.candSerial && fits 14 m.candId && fits 6 m.hops &&
    fits 24 m.period && fits 64 m.origin && fits 64 m.base && fits 24 m.swPeriod && fits 64 m.swFrame

/-- A line of the physical address space. -/
abbrev lineOk (l : Nat) : Bool := fits 42 l

/-- An access lies in its line. -/
def Access.ok (a : Access) : Bool :=
  decide (a.h < 216) && lineOk a.line && decide (a.off < 64) &&
    (match a.kind with | .store b => bytesOk b && decide (a.off + b.length ≤ 64) | _ => true)

def PitonKind.ok : PitonKind → Bool
  | .load n | .fetch n => decide (1 ≤ n ∧ n ≤ 64)
  | .store b => bytesOk b && decide (1 ≤ b.length ∧ b.length ≤ 64)
  | .amo _ _ _ | .lrsc => true

def RemoteKind.ok : RemoteKind → Bool
  | .load n => accessSize n
  | .store b => bytesOk b && accessSize b.length
  | .amo _ _ _ | .lrsc | .fetch => true

/-- The fields of Tables 7.2 and 8.3, with a line of data or none. -/
def CohMsg.ok (m : CohMsg) : Bool :=
  decide (m.src < 0x60) && lineOk m.line && fits 16 m.txn && viOk m.vi && fits 8 m.gen && fits 64 m.mask && bytesOk m.data &&
    (m.data.isEmpty || m.data.length == 64)

/-- The fields of Table 8.3, and units of 128 bits. -/
def CdpMsg.ok (m : CdpMsg) : Bool :=
  fits 8 m.opcode && fits 8 m.source && fits 8 m.tag && fits 16 m.txn && viOk m.vi && fits 8 m.gen &&
    (m.vi.isSome || m.gen == 0) && m.body.all (fits 128)

def PeerParams.ok (p : PeerParams) : Bool := fits 8 p.verMaj && fits 8 p.verMin && fits 16 p.vendor && fits 18 p.failedRx && fits 18 p.failedTx

/-- A message of Table 8.4 with the tags of its issuer. -/
def MeshPkt.ok (p : MeshPkt) : Bool :=
  p.issuer.ok && p.msg.ok && p.msg.opcode == p.op.code && p.msg.sealed == p.issuer.sealed && p.msg.vi == p.issuer.vi &&
    p.msg.gen == p.issuer.gen && p.msg.bodyOk

def McReq.ok (r : McReq) : Bool := lineOk r.line && viOk r.vi && fits 512 r.data

def LaneEye.ok (e : LaneEye) : Bool :=
  fits 7 e.rdCtr && fits 7 e.rdWidth && fits 7 e.wrCtr && fits 7 e.wrWidth && fits 6 e.rdVref && fits 6 e.wrVref

def Arriving.ok (p : Arriving) : Bool := bytesOk p.data && decide (p.data.length ≤ p.total)

/-- The header of Table 12.8 and a payload of the length it gives. -/
def FabPkt.ok (p : FabPkt) : Bool :=
  fits 8 p.ptype && fits 3 p.fvc && viOk p.vi && fits 8 p.gen && fits 14 p.dst && fits 14 p.src && fits 6 p.hops && fits 2 p.epoch &&
    fits 16 p.txn && fits 8 p.status && fits 13 p.len && fits 4 p.aop && fits 12 p.queue && fits 32 p.offset && bytesOk p.data

def FabFlit.ok (f : FabFlit) : Bool := decide (f.credit.length = 4) && (match f.pkt with | some p => p.ok | none => true)

def FabTrain.ok (t : FabTrain) : Bool :=
  fits 8 t.verMaj && fits 8 t.verMin && fits 8 t.modes && fits 14 t.id && fits 64 t.serial && decide (t.credits.length = 4)

def FabBeacon.ok (b : FabBeacon) : Bool :=
  fits 14 b.id && fits 32 b.interval && fits 8 b.prio && fits 64 b.frame && fits 64 b.serial && fits 32 b.epoch && wordsOk b.best.digest

def Tlp.ok (t : Tlp) : Bool :=
  fits 64 t.addr && (match t.kind with
    | .write b => bytesOk b
    | .atomic _ _ v x => fits 64 v && fits 64 x
    | .read _ | .config _ | .malformed => true)

def JtagReq.ok : JtagReq → Bool
  | .idcode => true
  | .halt h | .resume h => decide (h < 216)
  | .read a n => accessSize n && decide (a + n ≤ 2 ^ 48)
  | .write a n _ => accessSize n && decide (a + n ≤ 2 ^ 48)
  | .readHart h n => decide (h < 216) && fits 13 n
  | .writeHart h n _ => decide (h < 216) && fits 13 n

/-- Every operand of the command fits (R12, and the format of each message). -/
def Instr.wellFormed (i : Instr) : Bool :=
  match i with
  | .registerWrite c target _ => c.ok && target.ok
  | .tick => true
  | .periodSwitch => true
  | .tbTimeRead c => c.ok
  | .tickEnWrite c _ => c.ok
  | .ticksStop => true
  | .switchArm c _ => c.ok
  | .restepWrite c _ => c.ok
  | .restep => true
  | .ppsInEdge _ => true
  | .asSourceUpdate _ _ _ => true
  | .sourceUpdateMissed => true
  | .acqTimeout => true
  | .ppsOutPulse => true
  | .timeMessageSend => true
  | .timeMessageRx _ m => m.ok
  | .electionSettle => true
  | .summitLost => true
  | .parentLost => true
  | .csqStart c _ _ => c.ok
  | .csqStop c _ _ => c.ok
  | .csqImemWrite c _ _ _ => c.ok
  | .csqFlagSet c _ _ => c.ok
  | .halt _ => true
  | .movi _ => true
  | .addi _ => true
  | .sub _ => true
  | .and _ => true
  | .or _ => true
  | .shl _ => true
  | .br _ => true
  | .loop _ => true
  | .waitt _ => true
  | .waittFire _ => true
  | .waite _ => true
  | .waiteEnd _ => true
  | .launch _ => true
  | .launchCompletion _ => true
  | .slotExpire _ _ => true
  | .post _ => true
  | .flagDeliver => true
  | .chk _ => true
  | .chkEnd _ => true
  | .overrunSkip _ => true
  | .sync _ => true
  | .syncRelease _ => true
  | .syncDeadline _ => true
  | .cairn _ => true
  | .fence _ => true
  | .fenceEnd _ => true
  | .yield _ => true
  | .grantEnd _ => true
  | .refreshWindowEnd _ => true
  | .injectorLaunchWord _ => true
  | .worldSwitchGo _ c _ => c.ok
  | .worldSwitchGoWithdraw _ => true
  | .worldSwitchDone _ _ => true
  | .timerCompare _ => true
  | .wfi _ _ => true
  | .interruptWake _ => true
  | .msiWrite c _ data => c.ok && fits 32 data
  | .aplicSource _ _ => true
  | .lockstepMismatch _ _ _ => true
  | .sampleChosen _ r => r.ok
  | .sampleAck _ _ => true
  | .prefetchIssue _ _ _ => true
  | .cboClean _ _ line => lineOk line
  | .cboFlush _ _ line => lineOk line
  | .cboInval _ _ line => lineOk line
  | .cboZero _ _ line => lineOk line
  | .swopClean c _ _ => c.ok
  | .swopInvalidate c _ _ => c.ok
  | .swopCleanInvalidate c _ _ => c.ok
  | .swopDone _ => true
  | .pitonModeChange c _ _ _ => c.ok
  | .pitonChangeDone _ _ => true
  | .pitonAccess c _ k => c.ok && k.ok
  | .ringBroadcast a => a.ok
  | .l3Eviction _ _ set _ => fits 14 set
  | .rdS m => m.ok
  | .rdX m => m.ok
  | .upg m => m.ok
  | .wb m => m.ok
  | .cmo m => m.ok
  | .ncRd m => m.ok
  | .ncWr m => m.ok
  | .homeTxnStart _ line => lineOk line
  | .filterAllocRetry _ line => lineOk line
  | .snpS _ m => m.ok
  | .snpI _ m => m.ok
  | .snpC _ m => m.ok
  | .rspI m => m.ok
  | .rspK m => m.ok
  | .rspId m => m.ok
  | .rspKd m => m.ok
  | .rspEvd m => m.ok
  | .dataS _ m => m.ok
  | .dataE _ m => m.ok
  | .gntX _ m => m.ok
  | .fack m => m.ok
  | .wbAck _ m => m.ok
  | .wbStale _ m => m.ok
  | .cmp _ m => m.ok
  | .snoopTimeout _ line => lineOk line
  | .ioRd _ c _ size => c.ok && accessSize size
  | .ioWr _ c _ size _ => c.ok && accessSize size
  | .ioCmp _ _ _ => true
  | .cdpMsgFlit _ _ => true
  | .cdpIdleFlit _ _ => true
  | .cdpLnak _ _ => true
  | .cdpResume _ _ => true
  | .linkTrain _ => true
  | .paramExchange _ p => p.ok
  | .exchangeTimeout _ => true
  | .linkTrainDone _ rxFail txFail _ => fits 18 rxFail && fits 18 txFail
  | .dlHold c _ _ => c.ok
  | .dlRetrain c _ _ => c.ok
  | .dlClrRec c _ _ => c.ok
  | .laneParityThreshold _ _ _ => true
  | .sidebandLaneReport _ _ errors => fits 32 errors
  | .spareSwitch _ => true
  | .linkNarrow _ _ => true
  | .timeWordSend => true
  | .timingLaneFail _ => true
  | .niInject p => p.ok
  | .meshFlitHop _ _ _ _ => true
  | .routeTableWrite c _ _ _ _ _ => c.ok
  | .epochSwitchRequest c _ => c.ok
  | .nocEpochSwitch => true
  | .epochHoldClear => true
  | .drainRequest c _ _ => c.ok
  | .drainBegin _ => true
  | .drainComplete _ => true
  | .drainRelease c _ _ => c.ok
  | .mcRequest _ r => r.ok
  | .mcCommandIssue _ _ => true
  | .mcReadReturn _ line _ => lineOk line
  | .refreshInterval _ => true
  | .stackTempRead _ _ => true
  | .parityAlert _ _ => true
  | .replayEnd _ => true
  | .mcTrain _ => true
  | .mcTrainDone _ _ lanes => (decide (lanes.length = 8) && lanes.all LaneEye.ok)
  | .mcReqTest c _ _ => c.ok
  | .mcReqRecovery c _ _ => c.ok
  | .mcReqLeaveTest c _ _ => c.ok
  | .mcRecoveryDone _ run => (decide (run.lanes.length = 8) && run.lanes.all LaneEye.ok)
  | .xeKeyload c _ => c.ok
  | .xeKeyClear c _ => c.ok
  | .xeKeyloadDone _ => true
  | .xeKeyresAck c _ => c.ok
  | .qeCopy _ => true
  | .qePush _ => true
  | .qePop _ => true
  | .qeDrop _ => true
  | .qeCommandComplete _ _ => true
  | .sqDoorbell c _ _ => c.ok
  | .cqDoorbell c _ _ => c.ok
  | .sqFetch _ => true
  | .queueAdmit _ p => p.ok
  | .spillWrite _ => true
  | .middleRead _ => true
  | .middleReadReturn _ => true
  | .queueEnable c _ _ => c.ok
  | .queueDisable c _ _ => c.ok
  | .queueFlush c _ _ => c.ok
  | .queueDiscardApply _ => true
  | .viCreate c _ _ => c.ok
  | .viStart c _ _ => c.ok
  | .viStop c _ _ => c.ok
  | .viReset c _ _ => c.ok
  | .viDestroy c _ _ => c.ok
  | .viShare c _ _ => c.ok
  | .viAdminDone _ _ => true
  | .viStopTimeout _ _ => true
  | .viAdminAck c _ _ => c.ok
  | .mboxManagerIndex c _ _ => c.ok
  | .mboxTenantIndex c _ _ => c.ok
  | .dirtySwap c _ _ => c.ok
  | .dirtySwapDone _ => true
  | .portSignalDetect _ _ => true
  | .fabTrainFlit _ t => t.ok
  | .heldTrainSend _ => true
  | .fabLos _ => true
  | .fabPktFlit _ f => f.ok
  | .fabIdleFlit _ f => f.ok
  | .fabLnak _ code _ => fits 8 code
  | .beaconRx _ b => b.ok
  | .beaconTimer => true
  | .beaconLoss _ => true
  | .fabForward _ _ => true
  | .fabRd _ _ => true
  | .fabWr _ _ => true
  | .fabAtom _ _ => true
  | .fabMsg _ _ => true
  | .fabRdRsp _ _ => true
  | .fabCmp _ _ => true
  | .fabAtomRsp _ _ => true
  | .fabRack _ _ => true
  | .fabNak _ _ => true
  | .fabDr _ _ => true
  | .fabMmsg _ _ => true
  | .remoteAccess c _ k _ => c.ok && k.ok
  | .fabRequestTimeout txn => fits 16 txn
  | .mgmtTx c _ => c.ok
  | .fabEpochArm c _ => c.ok
  | .fabEpochSwitch => true
  | .profileCommit c _ => c.ok
  | .profileCommitDone => true
  | .profileAck c _ => c.ok
  | .ownRelease c _ => c.ok
  | .ownReleaseDone _ => true
  | .ownReleaseTimeout _ => true
  | .ownResAck c _ => c.ok
  | .iommuInvalidate c _ => c.ok
  | .iommuInvDone _ => true
  | .iommuInvresAck c _ => c.ok
  | .basecampBoot _ => true
  | .basecampHandoff => true
  | .recoveryImage image => bytesOk image
  | .gen c _ => c.ok
  | .derive c _ => c.ok
  | .importKey c _ => c.ok
  | .exportKey c _ => c.ok
  | .erase c _ _ => c.ok
  | .persist c _ _ => c.ok
  | .attest c _ _ => c.ok
  | .measure c _ => c.ok
  | .svnCommit c _ _ => c.ok
  | .ksCommandDone _ => true
  | .ksResAck c _ => c.ok
  | .attTreeDone => true
  | .belayArm c _ => c.ok
  | .belayPet c _ => c.ok
  | .belayWarn => true
  | .belayExpire => true
  | .debugToken pub sig => bytesOk pub && bytesOk sig
  | .ceGo c _ _ => c.ok
  | .ceKeyload _ _ => true
  | .ceUnwrap _ _ => true
  | .ceClear _ => true
  | .ceProcess _ => true
  | .ceSave _ _ => true
  | .ceRestore _ _ => true
  | .ceSuspend _ _ => true
  | .ceResume _ => true
  | .ceCommandEnd _ _ => true
  | .ceAck c _ _ => c.ok
  | .pcieInboundTlp _ t => t.ok
  | .pcieWindowAccess c _ k => c.ok && k.ok
  | .pcieCompletionRx _ _ _ data => bytesOk data
  | .pcieCto _ _ => true
  | .pcieLinkDown _ _ => true
  | .ethFrameRx _ _ frame => bytesOk frame
  | .ethFrameTx _ => true
  | .gateEntryAdvance _ => true
  | .gateCycleRestart _ => true
  | .asSyncTimeout _ => true
  | .ethLinkChange _ _ => true
  | .mgtFrame _ frame => bytesOk frame
  | .powerOnAction _ => true
  | .powerOffAction _ => true
  | .clockGateAction _ => true
  | .clockUngateAction _ => true
  | .setCapAction _ => true
  | .powerActionDone _ => true
  | .pwrResAck c _ => c.ok
  | .powerMeasure voltage current => fits 16 voltage && fits 16 current
  | .capAdjust => true
  | .thermalRead temps => decide (temps.length = 56)
  | .powerFail => true
  | .overVoltage => true
  | .overVoltageClear => true
  | .vinLow => true
  | .refclkLoss => true
  | .pciRefclkLoss => true
  | .refclkReturn _ => true
  | .pllUnlock _ => true
  | .vinRise => true
  | .startDelayExpire => true
  | .softStartDone => true
  | .refclkDetect _ _ _ => true
  | .resetNAssert => true
  | .resetNRelease => true
  | .packageResetCmd c _ => c.ok
  | .dieResetCmd c _ => c.ok
  | .dieResetDone => true
  | .clusterResetCmd c _ => c.ok
  | .clusterResetDone => true
  | .rstResAck c _ => c.ok
  | .tbHold c _ => c.ok
  | .tbRelease c _ => c.ok
  | .softwareCapture c _ => c.ok
  | .captureHartResume _ => true
  | .captureWritten => true
  | .jtagDebugRequest r => r.ok
  | .pcieLinkUp _ _ _ _ => true
  | .mgtLinkChange _ => true

end Sys2Proof
end

