-- ==== Sys2Proof/Tests/Slice0.lean ====
section
/-! SUPPORT. Tests: ill-formed commands that the checks refuse, a witness for the hypotheses of every statement, and a few
effects taken from the specification's worked examples. The members of a witness stand in the order of the clauses of its
statement; a name that ends in _2 goes on with them. -/

open Sys2Proof Sys2Proof.Machine

namespace Sys2Proof.Tests

set_option Elab.async false
set_option linter.all false
set_option maxRecDepth 1000000
set_option synthInstance.maxSize 4096
set_option synthInstance.maxHeartbeats 200000

abbrev newtS : Issuer := ⟨true, none, 0, .newt⟩
abbrev devO : Issuer := ⟨false, none, 0, .device⟩
def State.sets (s : State) (l : List (Loc × Nat)) : State := l.foldl (fun s p => s.put p.1 p.2) s
def st (l : List (Loc × Nat)) : State := l.foldl (fun s p => s.put p.1 p.2) State.reset
def stN (l : List (Loc × Nat)) : State :=
  l.foldl (fun s p => s.put p.1 p.2) { State.reset with
    regs := (List.range 64).map (fun m => (R.MC_STATUS m, withField (regReset (R.MC_STATUS m)) 0 3 mcNormal)) }

/-- A pair whose second member is known. -/
theorem pair_eq {α β : Type} {p : α × β} {b : β} (h : p.2 = b) : p = (p.1, b) := Prod.ext rfl h

/-- An access to one way of Piton memory that every byte of it serves. -/
theorem serves {s : State} {c : Issuer} {a : PAddr} {k : PitonKind} {d : Nat} (sl w o : Nat) (h1 : PitonReached s c a k d)
    (h2 : c.agent ≠ .device) (h3 : PitonAligned a k) (h4 : ∀ i, i < (pitonShape k).1 → sl < 4 ∧ 4 ≤ w ∧ w < 16 ∧ o + i < 0xC0000 ∧
      a.toNat + i = pitonBase d sl w + (o + i) ∧ s.dieAway d = false ∧
      (s.get (L.WLD_L3WAY.PITON d sl)).testBit (w - 4) = true ∧ (SMap.get s.pitonBusy (4 * d + sl)).testBit w = false ∧
      s.isReleasing (.l3 (64 * d + 16 * sl + w)) = false ∧ s.wayOwner d sl w = c.sealed ∧
      SMap.get s.poison ((a.toNat + i) / 64) = false) : PitonServes s c a k d :=
  ⟨h1, h2, h3, fun i hi => ⟨sl, w, o + i, h4 i hi⟩⟩

/-- A device that writes a register. -/
abbrev devS : Issuer := ⟨true, none, 0, .device⟩

/-- The next state of an outcome. -/
def next? (r : Result) : Option State := match r with
  | .next t => some t
  | .fault _ | .refused _ => none

/-! ### Well-formedness: one term for each check, which the check refuses -/

theorem test_viOk : viOk (some 256) = false := by decide
theorem test_bytesOk : bytesOk [255, 256] = false := by decide
theorem test_wordsOk : wordsOk [2 ^ 64] = false := by decide
theorem test_accessSize : accessSize 3 = false := by decide
theorem test_issuer_hart : Issuer.ok ⟨true, none, 0, .hart 216⟩ = false := by decide
theorem test_issuer_generation : Issuer.ok ⟨true, none, 1, .newt⟩ = false := by decide
theorem test_target_size : RegTarget.ok (.addr 0 16) = false := by decide
theorem test_sample : (Instr.sampleChosen 0 ⟨0, 0, 0, 0, 128, .m⟩).wellFormed = false := by decide
theorem test_piton_size : PitonKind.ok (.load 0) = false := by decide
theorem test_remote_size : RemoteKind.ok (.store [1, 2, 3]) = false := by decide
theorem test_line : lineOk (2 ^ 42) = false := by decide
theorem test_jtag_hart : JtagReq.ok (.halt 216) = false := by decide
theorem test_jtag_range : JtagReq.ok (.read (2 ^ 48 - 4) 8) = false := by decide
theorem test_l3Eviction_set : (Instr.l3Eviction 0 0 16384 0).wellFormed = false := by decide
theorem test_msiWrite_data : (Instr.msiWrite newtS 0 (2 ^ 32)).wellFormed = false := by decide
theorem test_mcTrainDone_lanes : (Instr.mcTrainDone 0 true []).wellFormed = false := by decide
theorem test_mcRecoveryDone_lanes : (Instr.mcRecoveryDone 0 ⟨true, []⟩).wellFormed = false := by decide
theorem test_ethFrame_bytes : (Instr.ethFrameRx 0 false [256]).wellFormed = false := by decide
theorem test_thermalRead_length : (Instr.thermalRead [1]).wellFormed = false := by decide
theorem test_powerMeasure : (Instr.powerMeasure (2 ^ 16) 0).wellFormed = false := by decide
theorem test_linkTrainDone_lanes : (Instr.linkTrainDone 0 (2 ^ 18) 0 true).wellFormed = false := by decide

/-! ### Effects, from the worked examples of the specification -/

/-- The example of R228: under HASHED, line 0x0005_0000_0040 lies in MC20 and line 0x0000_0500_0040 in MC5. -/
theorem test_hashed_order : State.reset.mcOf (0x000500000040 / 64) = 20 ∧ State.reset.mcOf (0x000005000040 / 64) = 5 := by
  decide +kernel

/-- The example of R46: a grid of 50,000 ns from frame 1,000,000 on. -/
theorem test_frame_after_switch :
    (fun s : State => s.frame = 1000002 ∧ s.offset = 25000) { st [(L.TB_STATUS.TICKING, 1), (L.TB_STATUS.STATE, servoLock),
      (L.TB_FRAME_ORIGIN.ORIGIN, 100000000000), (L.TB_FRAME_BASE.BASE, 1000000), (L.TB_FRAME_CFG.PERIOD, 50000)] with
      tb := { (default : TimeBase) with ns := 100000125000 } } := by decide +kernel

/-- The example of R409: at 403.3 W above a cap of 380 W, with CD2 kept, CD11 goes to step 1. -/
theorem test_cap_adjust : (next? (execCapAdjust ((List.range 12).foldl (fun s d => s.put (L.PWR_DOM.STATE (2 * d)) 1)
    (st [(L.PWR_CAP.CAP, 380), (L.PWR_CAP.KEEP, 4), (L.PWR_IN.POWER, 4033)])))).map (fun t => t.get L.PWR_CAP_STAT.STEP) =
    some (1 * 4 ^ 11) := by decide +kernel

/-- The example of chapter 19: an access to slot 0x0264, which is unassigned, ends with an error response. -/
theorem test_unassigned_slot :
    (next? (execRegisterWrite devS (.addr 0xF00002640000 8) 1 State.reset)).map (fun t => t.resp) = some .error := by
  decide +kernel

/-- The same example: an Open write of MC_CTRL of MC20 is refused and stands in log 85. -/
theorem test_open_write_of_mc_ctrl :
    (next? (execRegisterWrite devO (.addr 0xF00001140010 8) 1 State.reset)).map (fun t =>
      (t.resp, t.get (L.ERR_LOG_STAT.VALID 85))) = some (.error, 1) := by decide +kernel

/-- R2: the device identification register. -/
theorem test_idcode : (next? (execJtagDebugRequest .idcode State.reset)).map (fun t => t.resp) = some (.data 0x5EC19216) := by
  decide +kernel

/-- FIPS 180-4, the digest of "abc". -/
theorem test_sha256_abc : beNat (sha256 [0x61, 0x62, 0x63]) =
    0xba7816bf8f01cfea414140de5dae2223b00361a396177a9cb410ff61f20015ad := by decide +kernel

/-- FIPS 197, the AES-128 example of appendix C.1. -/
theorem test_aes128 : beNat (aesEnc (List.range 16) (beBytes 16 0x00112233445566778899aabbccddeeff)) =
    0x69c4e0d86a7b0430d8cdb78070b4c55a := by decide +kernel

/-- R418 steps 4 and 5: once the reference clock is there, HUB is on, every other domain is off and the hub's clocks lock. -/
theorem test_start_up : (next? (execRefclkDetect 1 77 true State.reset)).map (fun t =>
    (t.domState 24, t.domState 0, t.get (L.CLK_DOM.LOCK 21), t.rd R.TB_SERIAL)) = some (1, 0, 1, 77) := by decide +kernel

/-! ### The hypotheses of the statements can be met -/

theorem witness_StepRunsTheFrontCommand : (∃ (c : Instr) (rest : List Instr) (s : State), s.pending = c :: rest) ∧
    ∃ s : State, s.pending = [] :=
  ⟨⟨.tick, [], { State.reset with pending := [.tick] }, rfl⟩, State.reset, rfl⟩

theorem witness_EveryStepKeepsTheInvariant : ∃ s t : State, Inv s ∧ step s = .next t :=
  ⟨State.reset, State.reset.elapse 1, by constructor <;> decide +kernel, rfl⟩

theorem witness_CommandsTouchOnlyTheirState : ∃ (i : Instr) (s t : State), exec i s = .next t :=
  ⟨.vinLow, State.reset, State.reset.pwrEvent L.PWR_EVT.VIN_LOW, rfl⟩

theorem witness_CommandsLeaveTheQueueAndTimeOrdered : ∃ (i : Instr) (s t : State), exec i s = .next t :=
  ⟨.timerCompare 0, State.reset, _, rfl⟩

namespace W02

abbrev T1 : List (Loc × Nat) := [(L.TB_STATUS.STATE, servoLock), (L.TB_CTRL.TICK_EN, 1), (L.TB_STATUS.TICKING, 1), (L.PWR_RST_HOLD.TB, 0)]
def tk (l : List (Loc × Nat)) : State := { st (T1 ++ l) with tb := { (default : TimeBase) with ns := 250003, lastTick := some 200000 } }
def tbw (s : State) (f : TimeBase → TimeBase) : State := { s with tb := f s.tb }
def cand : Cand := ⟨0, 3, 77, 5, 9⟩
def msg : TimeMsg := ⟨false, 1, 2, 700000, 500000, 600000, 0, 0, 0, 0, 0, 0, 0, 0, 0, 0, false, 0, 0⟩

theorem witness_TimeReadLatchesForTheReadingWorld : ∃ (c : Issuer) (s : State), Sends s c ∧ Inv s :=
  ⟨newtS, (tk []), (by decide +kernel), (by constructor <;> decide +kernel)⟩

theorem witness_TickOpensItsFrame : (∃ (s : State), Inv s ∧ s.tickMay = true ∧ s.tb.restepReq = false ∧ s.switchNext = false ∧
  (s.get L.TB_SWITCH.ARM = 0 ∨ s.ticking) ∧ 5000 ≤ s.period ∧ s.period ≤ 10000000 ∧ s.nextTick + 10000000 < 2 ^ 64) ∧ (∃ (s :
  State), Inv s ∧ s.tickMay = true ∧ s.tb.restepReq = false ∧ s.switchNext = true ∧ 5000 ≤ s.period ∧ 5000 ≤ s.get
  L.TB_SWITCH.NEXT_PERIOD ∧ s.nextTick + 10000000 < 2 ^ 64 ∧ NotAsked s L.TB_SWITCH.ARM) ∧ (∃ (s : State), ¬ s.ticking ∧
  s.tickMay = false ∧ s.tb.restepReq = false ∧ s.switchNext = true ∧ s.get L.PWR_RST_HOLD.TB = 0 ∧ s.nextTick < 2 ^ 64 ∧
  NotAsked s L.TB_SWITCH.ARM) ∧ (∃ (s : State), ¬ s.ticking ∧ s.get L.TB_SWITCH.ARM = 1 ∧ s.base ≤ s.get
  L.TB_SWITCH_FRAME.FRAME ∧ s.switchAt < s.nextTick ∧ s.switchAt < 2 ^ 64 ∧ NotAsked s L.TB_SWITCH.ARM) :=
  ⟨⟨(tk []), (by constructor <;> decide +kernel), (by decide +kernel)⟩, ⟨(tk [(L.TB_SWITCH.ARM, 1), (L.TB_SWITCH.NEXT_PERIOD,
    5000), (L.TB_SWITCH_FRAME.FRAME, 3)]), (by constructor <;> decide +kernel), (by decide +kernel)⟩, ⟨(tk
    [(L.TB_STATUS.TICKING, 0), (L.TB_CTRL.TICK_EN, 0), (L.TB_SWITCH.ARM, 1), (L.TB_SWITCH.NEXT_PERIOD, 5000),
    (L.TB_SWITCH_FRAME.FRAME, 3)]), (by decide +kernel)⟩, ⟨(tk [(L.TB_STATUS.TICKING, 0), (L.TB_SWITCH.ARM, 1),
    (L.TB_SWITCH.NEXT_PERIOD, 5000), (L.TB_SWITCH_FRAME.FRAME, 1)]), (by decide +kernel)⟩⟩

theorem witness_TicksEndAtAStopAndAtARestep : (∃ (s : State), s.ticking ∧ s.get L.TB_CTRL.TICK_EN = 0 ∧ s.tb.restepReq = false
  ∧ NotAsked s L.TB_SWITCH.ARM) ∧ (∃ (s : State), s.tb.restepReq = true ∧ s.get L.PWR_RST_HOLD.TB = 0 ∧ (s.servo = servoLock ∨
  s.servo = servoHoldover) ∧ NotAsked s L.TB_SWITCH.ARM) :=
  ⟨⟨(tk [(L.TB_CTRL.TICK_EN, 0)]), (by decide +kernel)⟩, ⟨(tbw (tk []) (fun b => { b with restepReq := true })),
    (by decide +kernel)⟩⟩

theorem witness_TimeBaseControlWrites : (∃ (c : Issuer) (v : Word) (s : State), Sends s c ∧ c.sealed = true) ∧ (∃ (c : Issuer)
  (v : Word) (s : State), Sends s c ∧ c.sealed = true) ∧ (∃ (c : Issuer) (v : Word) (s : State), Sends s c ∧ c.sealed = true ∧
  v.getLsbD 24 = true ∧ 5000 ≤ fieldOf v 0 24 ∧ fieldOf v 0 24 ≤ 10000000 ∧ s.ticking ∧ s.get L.TB_SWITCH.ARM = 0 ∧ (s.get
  L.TB_CTRL.FRAME_FOLLOW = 0 ∨ s.get L.TB_STATUS.IS_SUMMIT = 1) ∧ (s.get L.TB_STATUS.IS_SUMMIT = 0 ∨ ∀ p, p < 8 → s.portUp p =
  false)) ∧ (∃ (c : Issuer) (v : Word) (s : State), Sends s c ∧ c.sealed = true ∧ v.getLsbD 24 = true ∧ 5000 ≤ fieldOf v 0 24
  ∧ fieldOf v 0 24 ≤ 10000000 ∧ s.ticking ∧ s.get L.TB_SWITCH.ARM = 0 ∧ s.get L.TB_STATUS.IS_SUMMIT = 1 ∧ (∃ p, p < 8 ∧
  s.portUp p = true) ∧ s.base ≤ s.get L.TB_SWITCH_FRAME.FRAME) ∧ (∃ (c : Issuer) (v : Word) (s : State), Sends s c ∧ c.sealed
  = true ∧ v.getLsbD 24 = true ∧ (¬ s.ticking ∨ (s.get L.TB_CTRL.FRAME_FOLLOW = 1 ∧ s.get L.TB_STATUS.IS_SUMMIT = 0)) ∧ s.get
  L.TB_SWITCH.ARM = 0) ∧ (∃ (c : Issuer) (v : Word) (s : State), Sends s c ∧ c.sealed = false) :=
  ⟨⟨newtS, 7, (tk []), (by decide +kernel)⟩, ⟨newtS, 7, (tk []), (by decide +kernel)⟩, ⟨newtS, 0x1001388, (tk
    [(L.TB_SWITCH_FRAME.FRAME, 4), (L.TB_CTRL.FRAME_FOLLOW, 0)]), (by decide +kernel)⟩, ⟨newtS, 0x1001388, (tk
    [(L.TB_SWITCH_FRAME.FRAME, 40), (L.TB_STATUS.IS_SUMMIT, 1), (L.FAB_P_STATUS.STATE 7, portUpSt)]), (by decide +kernel)⟩,
    ⟨newtS, 0x1001388, (tk [(L.TB_STATUS.TICKING, 0)]), (by decide +kernel)⟩, ⟨devO, 0x1001388, (tk []), (by decide +kernel)⟩⟩

theorem witness_SourceUpdatesDriveTheSummit : (∃ (s : State), s.get L.TB_PPS_CFG.EDGE = 0 ∧ s.get L.PWR_RST_HOLD.TB = 0 ∧
  s.get L.TB_SRC_CFG.SRC = 1 ∧ s.get L.TB_STATUS.IS_SUMMIT = 1 ∧ s.servo = servoAcquire ∧ s.tb.stepped = false) ∧ (∃ (lane :
  Fin 4) (off : Int) (int : Nat) (s : State), s.get (L.ETH_LANE_CFG.AS_ROLE lane.val) = 2 ∧ s.get L.TB_SRC_CFG.SRC = 2 ∧ s.get
  L.TB_STATUS.IS_SUMMIT = 1 ∧ s.servo = servoAcquire) ∧ (∃ (s : State), s.get L.TB_SRC_CFG.SRC ≠ 0 ∧ s.get
  L.TB_STATUS.IS_SUMMIT = 1 ∧ s.servo = servoLock) ∧ (∃ (s : State), s.servo = servoAcquire ∧ s.get L.TB_STATUS.IS_SUMMIT = 1)
  :=
  ⟨⟨(st [(L.PWR_RST_HOLD.TB, 0), (L.TB_SRC_CFG.SRC, 1), (L.TB_STATUS.IS_SUMMIT, 1), (L.TB_STATUS.STATE, servoAcquire),
    (L.TB_PPS_CFG.IN_DLY, 7), (L.TB_PPS_TOD.SECONDS, 12)]), (by decide +kernel)⟩, ⟨0, 12345, 62500000, (st
    [(L.ETH_LANE_CFG.AS_ROLE 0, 2), (L.TB_SRC_CFG.SRC, 2), (L.TB_STATUS.IS_SUMMIT, 1), (L.TB_STATUS.STATE, servoAcquire)]),
    (by decide +kernel)⟩, ⟨(tbw (st [(L.TB_SRC_CFG.SRC, 1), (L.TB_STATUS.IS_SUMMIT, 1), (L.TB_STATUS.STATE, servoLock),
    (L.TB_STATUS.TRACE, 1)]) (fun b => { b with badUpd := 2 })), (by decide +kernel)⟩, ⟨(st [(L.TB_STATUS.IS_SUMMIT, 1),
    (L.TB_STATUS.STATE, servoAcquire), (L.TB_STATUS.TRACE, 1)]), (by decide +kernel)⟩⟩

theorem witness_ElectionAndLossOfTheTree : (∃ (s : State), s.tb.settled = false ∧ s.get L.PWR_RST_HOLD.TB = 0 ∧ s.tb.bestSelf
  = true ∧ s.get L.TB_SUMMIT_CFG.PRIO ≠ 255 ∧ s.servo = servoFree) ∧ (∃ (s : State), s.tb.settled = false ∧ s.get
  L.PWR_RST_HOLD.TB = 0 ∧ s.tb.bestSelf = true ∧ s.get L.TB_SUMMIT_CFG.PRIO = 255) ∧ (∃ (b : Cand) (s : State), s.tb.best =
  some b ∧ s.tb.bestSelf = false ∧ s.servo = servoLock) ∧ (∃ (s : State), s.get L.TB_STATUS.PARENT_VALID = 1 ∧ s.servo =
  servoLock ∧ (∀ p, p < 8 → p ≠ s.get L.TB_STATUS.PARENT_PORT → s.portUp p = false)) :=
  ⟨⟨(tbw (st [(L.PWR_RST_HOLD.TB, 0), (L.TB_SERIAL.SERIAL, 99), (L.FAB_ID.ID, 5)]) (fun b => { b with bestSelf := true })),
    (by decide +kernel)⟩, ⟨(tbw (st [(L.PWR_RST_HOLD.TB, 0), (L.TB_SUMMIT_CFG.PRIO, 255)]) (fun b =>
    { b with bestSelf := true })), (by decide +kernel)⟩, ⟨cand, (tbw (st [(L.TB_STATUS.STATE, servoLock),
    (L.TB_STATUS.PARENT_VALID, 1), (L.TB_STATUS.SYNC_OK, 1)]) (fun b => { b with best := some cand })), (by decide +kernel)⟩,
    ⟨(st [(L.TB_STATUS.STATE, servoLock), (L.TB_STATUS.PARENT_VALID, 1), (L.TB_STATUS.PARENT_PORT, 3), (L.FAB_P_STATUS.STATE
    3, portUpSt)]), (by decide +kernel)⟩⟩

theorem witness_PulsesAndTimeMessages : (∃ (s : State), s.ticking ∧ s.get L.TB_OUT_CFG.PPS_OUT_EN = 1) ∧ (∃ (s : State), s.get
  L.TB_STATUS.TICKING = 0 ∨ s.get L.TB_OUT_CFG.PPS_OUT_EN = 0) ∧ (∃ (s : State), s.get L.PWR_RST_HOLD.TB = 0 ∧ s.txIdle =
  false ∧ (s.get L.TB_SUMMIT_CFG.PRIO ≠ 255 ∨ s.tb.bestSelf = false)) ∧ (∃ (s : State), Inv s ∧ s.get L.PWR_RST_HOLD.TB = 0 ∧
  s.tb.ns + 8192 < 2 ^ 64 ∧ (s.tb.ns / 4096 + 1) % 8 = 0 ∧ s.get L.TB_SUMMIT_CFG.PRIO = 255 ∧ s.tb.bestSelf = true ∧ s.get
  L.TB_STATUS.IS_SUMMIT = 1) ∧ (∃ (p : Fin 8) (m : TimeMsg) (s : State), s.portUp p = true ∧ s.get L.PWR_RST_HOLD.TB = 0 ∧
  m.announce = false ∧ m.state < 8 ∧ 0 < (SMap.get s.tb.ports p.val).sent ∧ m.echoTx ≠ 0 ∧ s.get L.TB_STATUS.PARENT_VALID = 1
  ∧ s.get L.TB_STATUS.PARENT_PORT ≠ p.val) :=
  ⟨⟨(tk [(L.TB_OUT_CFG.PPS_OUT_EN, 1)]), (by decide +kernel)⟩, ⟨(st []), (by decide +kernel)⟩, ⟨(st [(L.PWR_RST_HOLD.TB, 0),
    (L.FAB_P_STATUS.STATE 3, portUpSt)]), (by decide +kernel)⟩, ⟨(tbw (st [(L.PWR_RST_HOLD.TB, 0), (L.FAB_P_STATUS.STATE 3,
    portUpSt), (L.TB_SUMMIT_CFG.PRIO, 255), (L.TB_STATUS.IS_SUMMIT, 1), (L.TB_STATUS.TRACE, 1), (L.TB_STATUS.STATE,
    servoLock)]) (fun b => { b with ns := 29000, bestSelf := true })), (by constructor <;> decide +kernel),
    (by decide +kernel)⟩, ⟨7, msg, (tbw (st [(L.PWR_RST_HOLD.TB, 0), (L.FAB_P_STATUS.STATE 7, portUpSt),
    (L.TB_STATUS.PARENT_VALID, 1), (L.TB_PORT_ASYM.ASYM 7, 0xFF00)]) (fun b =>
    { b with ns := 12, ports := [(7, { (default : TbPort) with sent := 1})] })), (by decide +kernel)⟩⟩

end W02

namespace W03

def enc (i : CsqWord) : Nat := i.op * 2^58 + i.rd * 2^54 + i.rs * 2^50 + i.cond * 2^48 + i.tgt * 2^40 + i.imm
/-- sequencer q runs and stands before the word. -/
def cs (q pc : Nat) (i : CsqWord) (l : List (Loc × Nat)) : State :=
  State.sets ((st ([(L.CSQ_STATUS.STATE q, stRun), (L.CSQ_STATUS.PC q, pc)])).wr (R.CSQ_IMEM q pc) (BitVec.ofNat 64 (enc i))) l
def csw (q pc : Nat) (w : Wait) (l : List (Loc × Nat)) : State :=
  { st ([(L.CSQ_STATUS.STATE q, stWait), (L.CSQ_STATUS.PC q, pc)] ++ l) with csq := [(q, { (default : Csq) with wait := w })] }
abbrev tick1 : List (Loc × Nat) := [(L.TB_STATUS.STATE, servoLock), (L.TB_CTRL.TICK_EN, 1), (L.TB_STATUS.TICKING, 1), (L.PWR_RST_HOLD.TB, 0)]
def ticking (s : State) : State := { State.sets s tick1 with tb := { s.tb with ns := 250003, lastTick := some 200000 } }
def hnd : Nat := 2^63 + 0x82 * 2^48 + 31 * 2^43 + 9 * 2^16

theorem witness_RegisterInstructionsWriteTheirResult : (∃ (q : Fin 32) (i : CsqWord) (s : State), CsqFits s q 0x01 i ∧ s.pcOf
  q ≠ 2047) ∧ (∃ (q : Fin 32) (i : CsqWord) (s : State), CsqFits s q 0x02 i ∧ s.pcOf q ≠ 2047) ∧ (∃ (q : Fin 32) (i : CsqWord)
  (s : State), CsqFits s q 0x03 i ∧ s.pcOf q ≠ 2047) ∧ (∃ (q : Fin 32) (i : CsqWord) (s : State), CsqFits s q 0x04 i ∧ s.pcOf
  q ≠ 2047) ∧ (∃ (q : Fin 32) (i : CsqWord) (s : State), CsqFits s q 0x05 i ∧ s.pcOf q ≠ 2047) ∧ (∃ (q : Fin 32) (i : CsqWord)
  (s : State), CsqFits s q 0x06 i ∧ s.pcOf q ≠ 2047) :=
  ⟨⟨31, ⟨1, 15, 0, 0, 0, 2^40-1⟩, (ticking (cs 31 2046 ⟨1, 15, 0, 0, 0, 2^40-1⟩ [])), (by decide +kernel)⟩, ⟨0, ⟨2, 15, 15, 0,
    0, 2^40-1⟩, ((cs 0 0 ⟨2, 15, 15, 0, 0, 2^40-1⟩ [(L.CSQ_CREG.VALUE 0 15, 1)])), (by decide +kernel)⟩, ⟨0, ⟨3, 15, 14, 0,
    0x8D, 0⟩, ((cs 0 0 ⟨3, 15, 14, 0, 0x8D, 0⟩ [(L.CSQ_CREG.VALUE 0 14, 1), (L.CSQ_CREG.VALUE 0 13, 2)])),
    (by decide +kernel)⟩, ⟨0, ⟨4, 15, 14, 0, 0x8D, 0⟩, ((cs 0 0 ⟨4, 15, 14, 0, 0x8D, 0⟩ [(L.CSQ_CREG.VALUE 0 14, 1),
    (L.CSQ_CREG.VALUE 0 13, 2)])), (by decide +kernel)⟩, ⟨0, ⟨5, 15, 14, 0, 0x8D, 0⟩, ((cs 0 0 ⟨5, 15, 14, 0, 0x8D, 0⟩
    [(L.CSQ_CREG.VALUE 0 14, 1), (L.CSQ_CREG.VALUE 0 13, 2)])), (by decide +kernel)⟩, ⟨0, ⟨6, 15, 14, 0, 0, 127⟩, ((cs 0 0 ⟨6,
    15, 14, 0, 0, 127⟩ [(L.CSQ_CREG.VALUE 0 14, 1)])), (by decide +kernel)⟩⟩

theorem witness_ControlFlowInstructions : (∃ (q : Fin 32) (i : CsqWord) (s : State), CsqFits s q 0x10 i) ∧ (∃ (q : Fin 32) (i
  : CsqWord) (s : State), CsqFits s q 0x11 i ∧ s.creg q i.rd ≠ 1) ∧ (∃ (q : Fin 32) (i : CsqWord) (s : State), CsqFits s q
  0x11 i ∧ s.creg q i.rd = 1 ∧ s.pcOf q ≠ 2047) ∧ (∃ (q : Fin 32) (i : CsqWord) (s : State), CsqFits s q 0x00 i) ∧ (∃ (q : Fin
  32) (i : Instr) (s : State), s.csqState q = stHalted ∧ i ∈ [.halt q, .movi q, .addi q, .sub q, .and q, .or q, .shl q, .br q,
  .loop q, .waitt q, .waite q, .launch q, .post q, .chk q, .sync q, .cairn q, .fence q, .yield q]) ∧ (∃ (q : Fin 32) (i :
  CsqWord) (s : State), CsqFits s q 0x30 i) :=
  ⟨⟨0, ⟨0x10, 0, 0, 0, 0, 2047⟩, ((cs 0 2047 ⟨0x10, 0, 0, 0, 0, 2047⟩ [])), (by decide +kernel)⟩, ⟨0, ⟨0x11, 3, 0, 0, 0, 2047⟩,
    ((cs 0 2047 ⟨0x11, 3, 0, 0, 0, 2047⟩ [])), (by decide +kernel)⟩, ⟨0, ⟨0x11, 3, 0, 0, 0, 2047⟩, ((cs 0 2046 ⟨0x11, 3, 0, 0,
    0, 2047⟩ [(L.CSQ_CREG.VALUE 0 3, 1)])), (by decide +kernel)⟩, ⟨0, ⟨0, 0, 0, 0, 0, 0⟩, ((cs 0 2047 ⟨0, 0, 0, 0, 0, 0⟩ [])),
    (by decide +kernel)⟩, ⟨31, (.yield 31), (st [(L.CSQ_STATUS.STATE 31, stHalted)]), (by decide +kernel)⟩, ⟨0, ⟨0x30, 0, 0,
    0, 255, 2047⟩, ((cs 0 2047 ⟨0x30, 0, 0, 0, 255, 2047⟩ [])), (by decide +kernel)⟩⟩

theorem witness_WaitInstructions : (∃ (q : Fin 32) (i : CsqWord) (s : State), CsqFits s q 0x18 i ∧ s.opB q i < s.period ∧
  s.pcOf q ≠ 2047) ∧ (∃ (q : Fin 32) (i : CsqWord) (s : State), CsqFits s q 0x18 i ∧ s.period ≤ s.opB q i) ∧ (∃ (q : Fin 32)
  (v : Nat) (s : State), (s.csqOf q).wait = .waitt v ∧ s.csqState q = stWait ∧ s.pcOf q ≠ 2047) :=
  ⟨⟨31, ⟨0x18, 0, 0, 0, 0, 99999⟩, (ticking (cs 31 0 ⟨0x18, 0, 0, 0, 0, 99999⟩ [])), (by decide +kernel)⟩, ⟨31, ⟨0x18, 0, 0, 0,
    0, 100000⟩, (ticking (cs 31 0 ⟨0x18, 0, 0, 0, 0, 100000⟩ [])), (by decide +kernel)⟩, ⟨31, 99999, (ticking (csw 31 2046
    (.waitt 99999) [])), (by decide +kernel)⟩⟩

theorem witness_WaitInstructions_2 : (∃ (q : Fin 32) (i : CsqWord) (s : State), CsqFits s q 0x19 i ∧ s.creg q i.rs < s.period)
  ∧ (∃ (q : Fin 32) (mask : Nat) (d : Nat) (rd : Nat) (clear : Bool) (s : State), (s.csqOf q).wait = .waite mask d rd clear ∧
  s.csqState q = stWait ∧ rd < 16 ∧ s.pcOf q ≠ 2047) ∧ (∃ (q : Fin 32) (i : CsqWord) (s : State), CsqFits s q 0x28 i) ∧ (∃ (q
  : Fin 32) (u : Nat) (s : State), (s.csqOf q).wait = .fence u ∧ s.csqState q = stWait ∧ s.pcOf q ≠ 2047 ∧ (∀ p, p ∈ s.posts →
  p.src ≠ q.val)) :=
  ⟨⟨31, ⟨0x19, 5, 4, 0, 1, 2^34-1⟩, (ticking (cs 31 0 ⟨0x19, 5, 4, 0, 1, 2^34-1⟩ [(L.CSQ_CREG.VALUE 31 4, 99999)])),
    (by decide +kernel)⟩, ⟨31, 7, 60000, 15, true, (ticking (csw 31 0 (.waite 7 60000 15 true) [(L.CSQ_FLAGS.F 31, 13)])),
    (by decide +kernel)⟩, ⟨31, ⟨0x28, 0, 0, 0, 0, 0⟩,
    ({ (cs 31 2047 ⟨0x28, 0, 0, 0, 0, 0⟩ []) with posts := [⟨31, 3, 1, 4⟩] }), (by decide +kernel)⟩, ⟨31, 12, ((csw 31 0
    (.fence 12) [])), (by decide +kernel), (by decide +kernel), (by decide +kernel),
    (by first | decide +kernel | (intro v h; first | (cases h; done) | (cases h; decide +kernel)))⟩⟩

theorem witness_ChkCollectsOrOverruns : (∃ (q : Fin 32) (i : CsqWord) (s : State), CsqFits s q 0x22 i ∧ s.opB q i < s.period ∧
  s.pcOf q ≠ 2047) ∧ (∃ (q : Fin 32) (h : Nat) (d : Nat) (rd : Nat) (s : State), (s.csqOf q).wait = .chk h d rd ∧ s.csqState q
  = stWait ∧ rd < 16 ∧ s.pcOf q ≠ 2047 ∧ (s.get (L.CSQ_TRACK.DONE_OPEN q)).testBit (bits h 47 43) = true ∧ (SMap.get s.slots
  (32 * q.val + bits h 47 43)).time ≤ s.tickTime + d) ∧ (∃ (q : Fin 32) (h : Nat) (d : Nat) (rd : Nat) (s : State), (s.csqOf
  q).wait = .chk h d rd ∧ s.csqState q = stWait ∧ rd < 16 ∧ d < 2 ^ 24 ∧ (s.get (L.CSQ_TRACK.DONE_OPEN q)).testBit (bits h 47
  43) = false ∧ (s.pcOf q ≠ 2047 ∨ s.get (L.CSQ_CTRL.OVR_POLICY q) ≠ 0)) ∧ (∃ (q : Fin 32) (h : Nat) (d : Nat) (rd : Nat) (s :
  State), (s.csqOf q).wait = .chk h d rd ∧ s.csqState q = stWait ∧ rd < 16 ∧ d < 2 ^ 24 ∧ (s.get (L.CSQ_TRACK.DONE_OPEN
  q)).testBit (bits h 47 43) = true ∧ s.tickTime + d < (SMap.get s.slots (32 * q.val + bits h 47 43)).time ∧ (s.pcOf q ≠ 2047
  ∨ s.get (L.CSQ_CTRL.OVR_POLICY q) ≠ 0)) ∧ (∃ (q : Fin 32) (u : Nat) (k : Nat) (s : State), (s.csqOf q).skip = some (u,
  s.pcOf q) ∧ s.csqState q = stRun ∧ s.pcOf q + k < 2048 ∧ (csqFields (s.rd (R.CSQ_IMEM q (s.pcOf q + k)))).op = 0x30 ∧ (∀ j,
  j < k → (csqFields (s.rd (R.CSQ_IMEM q (s.pcOf q + j)))).op ≠ 0x30) ∧ csqLegal q (csqFields (s.rd (R.CSQ_IMEM q (s.pcOf q +
  k)))) = true ∧ SMap.get s.ecc (R.CSQ_IMEM q (s.pcOf q + k)) = 0) ∧ (∃ (q : Fin 32) (slot : Fin 32) (s : State), (s.get
  (L.CSQ_TRACK.DONE_OPEN q)).testBit slot = true ∧ 2 ≤ (SMap.get s.slots (32 * q.val + slot.val)).after) :=
  ⟨⟨31, ⟨0x22, 5, 4, 0, 0, 99999⟩,
    ({ (cs 31 0 ⟨0x22, 5, 4, 0, 0, 99999⟩ [(L.CSQ_CREG.VALUE 31 4, hnd), (L.CSQ_TRACK.BUSY 31, 2^31)]) with slots := [(32*31+31, { (default : Slot) with seq := 9})] }),
    (by decide +kernel)⟩, ⟨31, hnd, 99999, 15, (ticking
    { csw 31 0 (.chk hnd 99999 15) [(L.CSQ_TRACK.BUSY 31, 2^31), (L.CSQ_TRACK.DONE_OPEN 31, 2^31)] with slots := [(32*31+31, ⟨9, 0x82, 0, 299999, 500, 2, 0⟩)] }),
    (by decide +kernel)⟩, ⟨31, hnd, 99999, 15, (ticking (csw 31 0 (.chk hnd 99999 15) [(L.CSQ_TRACK.BUSY 31, 2^31),
    (L.CSQ_CTRL.OVR_POLICY 31, 2)])), (by decide +kernel)⟩, ⟨31, hnd, 5, 15, (ticking
    { csw 31 0 (.chk hnd 5 15) [(L.CSQ_TRACK.BUSY 31, 2^31), (L.CSQ_TRACK.DONE_OPEN 31, 2^31)] with slots := [(32*31+31, ⟨9, 0x82, 5, 299999, 500, 2, 0⟩)] }),
    (by decide +kernel)⟩, ⟨31, 12, 1,
    ({ cs 31 7 ⟨0x30, 0, 0, 0, 3, 9⟩ [(L.CSQ_STATUS.PC 31, 6)] with csq := [(31, {(default : Csq) with skip := some (12, 6)})] }),
    (by decide +kernel), (by decide +kernel), (by decide +kernel), (by first | with_reducible rfl | decide +kernel),
    (by decide +kernel)⟩, ⟨31, 31,
    ({ st [(L.CSQ_TRACK.BUSY 31, 2^31), (L.CSQ_TRACK.DONE_OPEN 31, 2^31)] with slots := [(32*31+31, ⟨9, 0x82, 0, 299999, 500, 2, 2⟩)] }),
    (by decide +kernel)⟩⟩

theorem witness_SignalsBetweenSequencers : (∃ (q : Fin 32) (i : CsqWord) (s : State), CsqFits s q 0x21 i ∧ s.pcOf q ≠ 2047 ∧
  s.checkWorldVi q (.csq i.tgt) = 0) ∧ (∃ (q : Fin 32) (i : CsqWord) (s : State), CsqFits s q 0x21 i ∧ s.pcOf q ≠ 2047 ∧
  s.checkWorldVi q (.csq i.tgt) ≠ 0) ∧ (∃ (p : PostMsg) (rest : List PostMsg) (s : State), s.posts = p :: rest ∧ p.dst < 32 ∧
  p.flags < 2 ^ 32) :=
  ⟨⟨0, ⟨0x21, 0, 0, 0, 31, 2^32-1⟩, ((cs 0 0 ⟨0x21, 0, 0, 0, 31, 2^32-1⟩ [])), (by decide +kernel)⟩, ⟨0, ⟨0x21, 0, 0, 0, 31,
    2^32-1⟩, ((cs 0 0 ⟨0x21, 0, 0, 0, 31, 2^32-1⟩ [(L.CSQ_OWN.WORLD 31, 0)])), (by decide +kernel)⟩, ⟨⟨0, 31, 2^32-1, 4⟩, [⟨0,
    3, 1, 5⟩], ({ st [(L.CSQ_FLAGS.F 31, 3), (L.CSQ_FLAGS.DONE 31, 1)] with posts := [⟨0, 31, 2^32-1, 4⟩, ⟨0, 3, 1, 5⟩] }),
    (by decide +kernel)⟩⟩

theorem witness_SignalsBetweenSequencers_2 : (∃ (q : Fin 32) (i : CsqWord) (s : State), CsqFits s q 0x23 i ∧ s.creg q i.rs <
  s.period ∧ (∀ m, m < 32 → i.imm.testBit m = true → m ≠ q.val → s.checkWorldVi q (.csq m) = 0)) ∧ (∃ (q : Fin 32) (mask :
  Nat) (d : Nat) (s : State), (s.csqOf q).wait = .sync mask d ∧ (∀ m, m < 32 → mask.testBit m = true → s.arrived mask m = true
  ∧ s.pcOf m ≠ 2047)) ∧ (∃ (q : Fin 32) (mask : Nat) (d : Nat) (s : State), (s.csqOf q).wait = .sync mask d ∧ s.csqState q =
  stWait ∧ s.pcOf q ≠ 2047) ∧ (∃ (q : Fin 32) (i : CsqWord) (s : State), CsqFits s q 0x24 i ∧ s.pcOf q ≠ 2047 ∧ s.checkWorldVi
  q .cairn = 0 ∧ s.get L.CRN_TRACE_CFG.FROZEN = 0 ∧ s.get L.CRN_TRACE_CFG.STOP = 0) :=
  ⟨⟨0, ⟨0x23, 0, 3, 0, 0, 5⟩, ((cs 0 0 ⟨0x23, 0, 3, 0, 0, 5⟩ [(L.CSQ_CREG.VALUE 0 3, 99999)])), (by decide +kernel)⟩, ⟨0, 5,
    99999,
    ({ st [(L.CSQ_STATUS.STATE 0, stWait), (L.CSQ_STATUS.STATE 2, stWait)] with csq := [(0, { (default : Csq) with wait := .sync 5 99999 }), (2, { (default : Csq) with wait := .sync 5 88 })] }),
    (by decide +kernel)⟩, ⟨0, 5, 60000, (ticking (csw 0 0 (.sync 5 60000) [])), (by decide +kernel)⟩, ⟨0, ⟨0x24, 0, 3, 0, 0,
    0xFFFF⟩, (ticking (cs 0 0 ⟨0x24, 0, 3, 0, 0, 0xFFFF⟩ [(L.CSQ_CREG.VALUE 0 3, 99), (L.CRN_TRACE_IDX.PROD, 0xFFFF)])),
    (by decide +kernel)⟩⟩

theorem witness_SequencerRegisterWrites : (∃ (c : Issuer) (q : Fin 32) (v : Word) (s : State), Sends s c ∧ s.resAccess (.csq
  q.val) c = true ∧ fieldOf v 0 2 = 1 ∧ fieldOf v 6 2 ≠ 3 ∧ fieldOf v 8 2 ≠ 3 ∧ s.csqState q ≠ stArmed ∧ s.csqState q ≠ stRun
  ∧ s.csqState q ≠ stWait ∧ s.csqState q ≠ stYielded ∧ s.csqState q ≠ 7) ∧ (∃ (c : Issuer) (q : Fin 32) (v : Word) (s :
  State), Sends s c ∧ s.resAccess (.csq q.val) c = true ∧ v.getLsbD 1 = true ∧ fieldOf v 6 2 ≠ 3 ∧ fieldOf v 8 2 ≠ 3) ∧ (∃ (c
  : Issuer) (q : Fin 32) (v : Word) (s : State), Sends s c ∧ s.resAccess (.csq q.val) c = true ∧ (fieldOf v 6 2 = 3 ∨ fieldOf
  v 8 2 = 3)) ∧ (∃ (c : Issuer) (q : Fin 32) (a : Fin 2048) (v : Word) (s : State), Sends s c ∧ s.resAccess (.csq q.val) c =
  true) ∧ (∃ (c : Issuer) (q : Fin 32) (v : Word) (s : State), Sends s c ∧ s.resAccess (.csq q.val) c = true) ∧ (∃ (c :
  Issuer) (q : Fin 32) (a : Fin 2048) (v : Word) (s : State), Sends s c ∧ c.sealed ≠ s.ownerSealed (.csq q.val)) :=
  ⟨⟨newtS, 31, (0xFFFFFFFFFFFFFE7D &&& (BitVec.ofNat 64 0x145)), ((st [(L.CSQ_FLAGS.F 31, 3), (L.CSQ_STATUS.E 31, 1)])),
    (by decide +kernel)⟩, ⟨newtS, 31, 3,
    ({ cs 31 0 ⟨0x28, 0, 0, 0, 0, 0⟩ [(L.CSQ_TRACK.BUSY 31, 2^31)] with csq := [(31, {(default : Csq) with skip := some (12, 6)})] }),
    (by decide +kernel)⟩, ⟨newtS, 31, 0xC1, ((st [])), (by decide +kernel)⟩, ⟨newtS, 31, 2047, 0x1234567890abcdef,
    ({ st [] with ecc := [(R.CSQ_IMEM 31 2047, 2)] }), (by decide +kernel)⟩, ⟨newtS, 31, 0x30000000F, ((st [(L.CSQ_FLAGS.F 31,
    0x30), (L.CSQ_FLAGS.DONE 31, 1)])), (by decide +kernel)⟩, ⟨devO, 31, 0, 1, ((st [])), (by decide +kernel)⟩⟩

theorem witness_SequencerFaultsAndConditions : (∃ (q : Fin 32) (s : State), s.csqIdle q = true ∧ csqLegal q (csqFields (s.rd
  (R.CSQ_IMEM q (s.pcOf q)))) = false ∧ SMap.get s.ecc (R.CSQ_IMEM q (s.pcOf q)) ≠ 2) ∧ (∃ (q : Fin 32) (i : CsqWord) (s :
  State), CsqFits s q 0x02 i ∧ s.pcOf q = 2047) ∧ (∃ (q : Fin 32) (s : State), s.csqIdle q = true ∧ SMap.get s.ecc (R.CSQ_IMEM
  q (s.pcOf q)) = 2 ∧ (csqFields (s.rd (R.CSQ_IMEM q (s.pcOf q)))).cond = 0) ∧ (∃ (q : Fin 32) (i : CsqWord) (s : State),
  s.csqIdle q = true ∧ csqFields (s.rd (R.CSQ_IMEM q (s.pcOf q))) = i ∧ i.op = 0x02 ∧ csqLegal q i = true ∧ s.csqCond q i.cond
  = true ∧ s.pcOf q ≠ 2047 ∧ SMap.get s.ecc (R.CSQ_IMEM q (s.pcOf q)) = 1) ∧ (∃ (q : Fin 32) (i : CsqWord) (s : State),
  s.csqIdle q = true ∧ csqFields (s.rd (R.CSQ_IMEM q (s.pcOf q))) = i ∧ csqLegal q i = true ∧ s.csqCond q i.cond = false ∧
  s.pcOf q ≠ 2047 ∧ SMap.get s.ecc (R.CSQ_IMEM q (s.pcOf q)) ≠ 2) :=
  ⟨⟨31, ((cs 31 2047 ⟨0x3F, 0, 0, 0, 0, 0⟩ [])), (by decide +kernel)⟩, ⟨31, ⟨2, 3, 3, 0, 0, 1⟩, ((cs 31 2047 ⟨2, 3, 3, 0, 0, 1⟩
    [])), (by decide +kernel)⟩, ⟨31, ({ cs 31 2047 ⟨2, 3, 3, 0, 0, 1⟩ [] with ecc := [(R.CSQ_IMEM 31 2047, 2)] }),
    (by decide +kernel)⟩, ⟨31, ⟨2, 3, 3, 0, 0, 1⟩,
    ({ cs 31 2046 ⟨2, 3, 3, 0, 0, 1⟩ [] with ecc := [(R.CSQ_IMEM 31 2046, 1)] }), (by decide +kernel),
    (by first | with_reducible rfl | decide +kernel), (by decide +kernel)⟩, ⟨31, ⟨2, 3, 3, 1, 0, 1⟩, ((cs 31 2046 ⟨2, 3, 3, 1,
    0, 1⟩ [])), (by decide +kernel), (by first | with_reducible rfl | decide +kernel), (by decide +kernel)⟩⟩

end W03

namespace W04

def enc (i : CsqWord) : Nat := i.op * 2^58 + i.rd * 2^54 + i.rs * 2^50 + i.cond * 2^48 + i.tgt * 2^40 + i.imm
def cs (q pc : Nat) (i : CsqWord) (l : List (Loc × Nat)) : State :=
  State.sets ((st ([(L.CSQ_STATUS.STATE q, stRun), (L.CSQ_STATUS.PC q, pc)])).wr (R.CSQ_IMEM q pc) (BitVec.ofNat 64 (enc i))) l
abbrev lw : CsqWord := ⟨0x20, 5, 0, 0, 0x40, 0⟩
def lch : Launch := ⟨7, 0x40, 31, 31, 9, true, none, 0, false, [0x40], false, 12, true, false, 0, some 0⟩
abbrev lwc : CsqWord := ⟨0x20, 5, 0, 0, 0x50, 0⟩
def two : State := State.sets ((cs 0 7 lwc []).wr (R.CSQ_IMEM 31 9) (BitVec.ofNat 64 (enc lwc))) [(L.CSQ_STATUS.STATE 31, stRun), (L.CSQ_STATUS.PC 31, 9)]
abbrev lwf : CsqWord := ⟨0x20, 5, 0, 0, 0x17, 0⟩
def fpw : State := cs 31 2046 lwf [(L.CSQ_DMEM.WORD 31 0, 0x10), (L.CSQ_DMEM.WORD 31 1, 8 <<< 32), (L.CSQ_DMEM.WORD 31 2, 0x20000), (L.FAB_ID.ID_VALID, 1), (L.FAB_P_STATUS.STATE 7, portUpSt), (L.HA_STATUS.STOPPED 0, 1), (L.TB_STATUS.TICKING, 1), (L.TB_STATUS.STATE, 3), (L.FAB_STATUS.QUAR, 0)]
def lcW : Launch := ⟨7, 0x17, 31, 31, 9, true, none, 0, false, [0x10, 8 <<< 32, 0x20000, 0, 0, 0, 0, 0], false, 0, false, true, 0, none⟩
def fpH (l : List (Loc × Nat)) : State := { State.sets fpw l with launches := [lcW] }
def askH : Option CohKind × CohMsg := (((((fpH []).elapseUntil 0).endGrants.unitStarts lcW).devAsked).getD (none, default))
def lcI : Launch := { lcW with desc := [0x10, 8 <<< 32, 0x1000000020000, 5, 0, 0, 0, 0] }
def stH : State := { fpw with launches := [lcI] }
def goH : Launch := ((((stH.elapseUntil 0).endGrants.unitStarts lcI).findLaunch 7).getD default)

theorem witness_LaunchesAreAcceptedOrRefused : (∃ (q : Fin 32) (i : CsqWord) (r : Nat) (s : State), CsqFits s q 0x20 i ∧
  s.pcOf q ≠ 2047 ∧ FirstToLaunch q i.tgt (s.csqBegin q) ∧ (s.csqBegin q).launchCheck q i.tgt (i.imm % 256) (i.imm.testBit 39)
  = r ∧ r ≠ 0) ∧ (∃ (q : Fin 32) (i : CsqWord) (k : Nat) (s : State), CsqFits s q 0x20 i ∧ s.pcOf q ≠ 2047 ∧ FirstToLaunch q
  i.tgt (s.csqBegin q) ∧ (s.csqBegin q).launchCheck q i.tgt (i.imm % 256) (i.imm.testBit 39) = 0 ∧ k < 32 ∧ (∀ j, j < k →
  (s.get (L.CSQ_TRACK.BUSY q)).testBit j = true) ∧ (s.get (L.CSQ_TRACK.BUSY q)).testBit k = false) ∧ (∃ (q : Fin 32) (p : Fin
  32) (n : Nat) (s : State), s.csqIdle q = true ∧ (s.csqBegin q).launchDue q = some n ∧ homeSequencer n = some p.val ∧ p ≠ q ∧
  (s.csqBegin q).launchDue p = some n ∧ ((s.csqBegin q).waittDone p).launchCheck p n ((csqFields (s.rd (R.CSQ_IMEM p
  (((s.csqBegin q).waittDone p).pcOf p)))).imm % 256) ((csqFields (s.rd (R.CSQ_IMEM p (((s.csqBegin q).waittDone p).pcOf
  p)))).imm.testBit 39) = 0 ∧ (∀ x, x ∈ s.launches → x.id ≠ s.nextLaunch)) :=
  ⟨⟨31, ⟨0x20, 5, 0, 0, 0x09, 0⟩, 1, (cs 31 2046 ⟨0x20, 5, 0, 0, 0x09, 0⟩ []), (by decide +kernel), (by decide +kernel),
    (by decide +kernel), (by first | with_reducible rfl | decide +kernel), (by decide +kernel)⟩, ⟨31, lw, 31, (cs 31 2046 lw
    [(L.CSQ_TRACK.BUSY 31, 2^31-1), (L.CSQ_DMEM.WORD 31 0, 0x40)]), (by decide +kernel)⟩, ⟨0, 31, 0x50, two,
    (by decide +kernel)⟩⟩

theorem witness_LaunchesAreAcceptedOrRefused_2 : (∃ (id : Nat) (x : Launch) (l : Launch) (u : State) (s : State) (k : Option
  CohKind) (m : CohMsg), s.findLaunch id = some x ∧ (s.elapseUntil x.acceptAt).endGrants = u ∧ u.launches = [l] ∧ l.id = id ∧
  l.held = true ∧ l.status = none ∧ (u.unitStarts l).devAsked = some (k, m)) ∧ (∃ (id : Nat) (x : Launch) (l : Launch) (u :
  State) (s : State) (y : Launch), s.findLaunch id = some x ∧ (s.elapseUntil x.acceptAt).endGrants = u ∧ u.launches = [l] ∧
  l.id = id ∧ l.held = true ∧ l.status = none ∧ (u.unitStarts l).devAsked = none ∧ (u.unitStarts l).findLaunch id = some y ∧
  y.status = none) ∧ (∃ (id : Nat) (st : Nat) (x : Launch) (l : Launch) (u : State) (s : State), s.findLaunch id = some x ∧
  (s.elapseUntil x.acceptAt).endGrants.unitsResume = u ∧ u.findLaunch id = some l ∧ l.status = some st ∧ (∀ v, l.vi = some v →
  u.get (L.VI_STATE.GEN (v / 32) (v % 32)) = l.gen) ∧ l.csq < 32 ∧ l.slot < 32 ∧ (u.get (L.CSQ_TRACK.BUSY l.csq)).testBit
  l.slot = true ∧ (u.get (L.CSQ_TRACK.DONE_OPEN l.csq)).testBit l.slot = false ∧ (SMap.get u.slots (32 * l.csq + l.slot)).seq
  = l.seq) ∧ (∃ (id : Nat) (st : Nat) (v : Nat) (x : Launch) (l : Launch) (u : State) (s : State), s.findLaunch id = some x ∧
  (s.elapseUntil x.acceptAt).endGrants.unitsResume = u ∧ u.findLaunch id = some l ∧ l.status = some st ∧ l.vi = some v ∧ v <
  256 ∧ u.get (L.VI_STATE.GEN (v / 32) (v % 32)) ≠ l.gen) :=
  ⟨⟨7, lcW, lcW, (((fpH [] : State).elapseUntil (lcW : Launch).acceptAt).endGrants), (fpH []), askH.1, askH.2,
    (by decide +kernel), (by first | with_reducible rfl | decide +kernel), (by decide +kernel)⟩, ⟨7, lcI, lcI, (((stH :
    State).elapseUntil (lcI : Launch).acceptAt).endGrants), stH, goH, (by decide +kernel),
    (by first | with_reducible rfl | decide +kernel), (by decide +kernel)⟩, ⟨7, 0, lch, lch,
    ((({ st [(L.CSQ_TRACK.BUSY 31, 2^31)] with launches := [lch], slots := [(32*31+31, ⟨9, 0x40, 0, 0, 0, 0, 0⟩)] } :
    State).elapseUntil (lch : Launch).acceptAt).endGrants.unitsResume),
    ({ st [(L.CSQ_TRACK.BUSY 31, 2^31)] with launches := [lch], slots := [(32*31+31, ⟨9, 0x40, 0, 0, 0, 0, 0⟩)] }),
    (by decide +kernel), (by first | with_reducible rfl | decide +kernel), (by decide +kernel)⟩, ⟨7, 0, 255,
    ({ lch with vi := some 255, gen := 3 }), ({ lch with vi := some 255, gen := 3 }),
    ((({ st [(L.CSQ_TRACK.BUSY 31, 2^31)] with launches := [{ lch with vi := some 255, gen := 3 }], slots := [(32*31+31, ⟨9, 0x40, 0, 0, 0, 0, 0⟩)] }
    : State).elapseUntil ({ lch with vi := some 255, gen := 3 } : Launch).acceptAt).endGrants.unitsResume),
    ({ st [(L.CSQ_TRACK.BUSY 31, 2^31)] with launches := [{ lch with vi := some 255, gen := 3 }], slots := [(32*31+31, ⟨9, 0x40, 0, 0, 0, 0, 0⟩)] }),
    (by decide +kernel), (by first | with_reducible rfl | decide +kernel), (by decide +kernel)⟩⟩

end W04

namespace W05

abbrev on : List (Loc × Nat) := [(L.PWR_DOM.STATE 22, 1), (L.PWR_DOM.STATE 23, 1), (L.PWR_DOM.STATE 0, 1), (L.PWR_DOM.STATE 1, 1), (L.DL_STATUS.STATE 47, 2)]
def hh (h : Nat) (x : Hart) (l : List (Loc × Nat)) : State := { st (on ++ l) with hart := [(h, x)] }
abbrev hr : Hart := { (default : Hart) with run := .run, mode := .m }
def csr (s : State) (h n v : Nat) : State := s.setCsr h n v
def inj (d1 : Nat) : Launch := ⟨7, 0x4B, 31, 31, 9, true, none, 0, false, [0x40, d1], false, 12, false, false, 0, none⟩
def hi (l : Launch) (x : List (Loc × Nat)) : State := { hh 215 hr ((L.DL_STATUS.TIME_OK 47, 1) :: x) with launches := [l] }

theorem witness_InterruptsReachTheHarts : (∃ (h : Fin 216) (md : PrivMode) (s : State), s.hartActs h = true ∧ s.irqReady h =
  false ∧ (md = .m ∨ (md = .s ∧ (s.csr h 0x300).testBit 21 = false) ∨ (md = .vs ∧ (s.csr h 0x300).testBit 21 = false ∧ (s.csr
  h 0x600).testBit 21 = false))) ∧ (∃ (h : Fin 216) (s : State), s.hartActs h = true ∧ s.irqReady h = true) ∧ (∃ (h : Fin 216)
  (md : PrivMode) (s : State), s.hartActs h = true ∧ (md = .u ∨ md ≠ .m ∧ (s.csr h 0x300).testBit 21 = true)) ∧ (∃ (h : Fin
  216) (md : PrivMode) (s : State), s.hartActs h = true ∧ (s.csr h 0x300).testBit 21 = false ∧ (md = .vu ∨ md = .vs ∧ (s.csr h
  0x600).testBit 21 = true)) ∧ (∃ (h : Fin 216) (s : State), ((s.hartSt h).run = .wfi ∨ (s.hartSt h).run = .nap) ∧ s.irqReady
  h = true ∧ s.get (L.PWR_DOM.STATE (2 * hartDie h)) = 1) ∧ (∃ (c : Issuer) (a : PAddr) (data : Nat) (h : Nat) (f : Nat) (s :
  State), Sends s c ∧ intPage a.toNat = some (h, f) ∧ a.toNat % 0x1000 = 0 ∧ s.agentIn c = true ∧ s.hartUnused h = false ∧
  s.dieAway (hartDie h) = false ∧ s.dieIn (hartDie h) = true ∧ (f = 16 ∨ s.clusterSwitching (hartDie h) (hartCluster h) =
  false) ∧ (s.tagged c).sealed = (f = 16 || s.clusterSealed (hartDie h) (hartCluster h)) ∧ (c.vi = none ∨ s.fileVi h f = none
  ∨ s.fileVi h f = c.vi) ∧ 1 ≤ data ∧ data ≤ 2047) :=
  ⟨⟨215, .m, (hh 215 hr []), (by decide +kernel)⟩, ⟨215, (csr (csr (hh 215 hr [(L.SKMTIMECMP.CMP 215, 0)]) 215 0x344 128) 215
    0x304 128), (by decide +kernel)⟩, ⟨215, .u, (hh 215 hr []), (by decide +kernel)⟩, ⟨215, .vu, (hh 215 hr []),
    (by decide +kernel)⟩, ⟨215, (csr (hh 215 { hr with run := .nap } [(L.SKMTIMECMP.CMP 215, 0)]) 215 0x304 128),
    (by decide +kernel)⟩, ⟨newtS, (0xF00004000000 + 215 * 0x1000), 2047, 215, 16, (hh 215 hr []), (by decide +kernel)⟩⟩

theorem witness_InterruptsReachTheHarts_2 : (∃ (c : Issuer) (a : PAddr) (data : Nat) (h : Nat) (f : Nat) (s : State), Sends s
  c ∧ intPage a.toNat = some (h, f) ∧ s.agentIn c = true ∧ s.hartUnused h = false ∧ s.dieAway (hartDie h) = false ∧ s.dieIn
  (hartDie h) = true ∧ (s.tagged c).sealed ≠ (f = 16 || s.clusterSealed (hartDie h) (hartCluster h))) ∧ (∃ (src : Fin 512) (s
  : State), src.val ≠ 0 ∧ s.aplicMode src = 4 ∧ (SMap.get s.aplic src.val).level = false ∧ (s.aplicReg (s.aplicDomain src)
  (0x1E00 + 4 * (src.val / 32))).testBit (src.val % 32) = false) ∧ (∃ (id : Nat) (n : Nat) (l : Launch) (s : State),
  s.findLaunch id = some l ∧ l.status = none ∧ 0x40 ≤ l.target ∧ l.target ≤ 0x4B ∧ s.firstPending l = true ∧ s.timeLink
  (l.target - 0x40) = some n ∧ (bits (l.desc.getD 1 0) 49 48 ≠ 2 ∨ (1 ≤ bits (l.desc.getD 1 0) 55 50 ∧ bits (l.desc.getD 1 0)
  55 50 ≤ 15)) ∧ 1 ≤ bits (l.desc.getD 1 0) 42 32 ∧ s.injSel (l.target - 0x40) (l.desc.getD 1 0) ≠ [] ∧ (∀ i, i ∈ s.injSel
  (l.target - 0x40) (l.desc.getD 1 0) → (s.injJudge l (l.target - 0x40) i (bits (l.desc.getD 1 0) 49 48) (bits (l.desc.getD 1
  0) 55 50)).hits = true)) ∧ (∃ (id : Nat) (i : Nat) (st : Nat) (cause : Nat) (h : Nat) (l : Launch) (s : State), s.findLaunch
  id = some l ∧ l.status = none ∧ 0x40 ≤ l.target ∧ l.target ≤ 0x4B ∧ s.firstPending l = true ∧ (s.timeLink (l.target -
  0x40)).isSome = true ∧ (bits (l.desc.getD 1 0) 49 48 ≠ 2 ∨ (1 ≤ bits (l.desc.getD 1 0) 55 50 ∧ bits (l.desc.getD 1 0) 55 50
  ≤ 15)) ∧ s.injSel (l.target - 0x40) (l.desc.getD 1 0) = [i] ∧ s.injJudge l (l.target - 0x40) i (bits (l.desc.getD 1 0) 49
  48) (bits (l.desc.getD 1 0) 55 50) = .refused st cause h) ∧ (∃ (id : Nat) (l : Launch) (s : State), s.findLaunch id = some l
  ∧ l.status = none ∧ 0x40 ≤ l.target ∧ l.target ≤ 0x4B ∧ s.firstPending l = true ∧ (∀ i, i ∈ s.injSel (l.target - 0x40)
  (l.desc.getD 1 0) → s.injJudge l (l.target - 0x40) i (bits (l.desc.getD 1 0) 49 48) (bits (l.desc.getD 1 0) 55 50) = .away))
  ∧ (∃ (id : Nat) (i : Nat) (h : Nat) (f : Nat) (l : Launch) (s : State), s.findLaunch id = some l ∧ l.status = none ∧ 0x40 ≤
  l.target ∧ l.target ≤ 0x4B ∧ s.timeLink (l.target - 0x40) = none ∧ bits (l.desc.getD 1 0) 49 48 ≠ 2 ∧ i ∈ s.injSel (l.target
  - 0x40) (l.desc.getD 1 0) ∧ s.injJudge l (l.target - 0x40) i (bits (l.desc.getD 1 0) 49 48) (bits (l.desc.getD 1 0) 55 50) =
  .file h f) :=
  ⟨⟨devO, (0xF00004000000 + 215 * 0x1000), 2047, 215, 16, (hh 215 hr []), (by decide +kernel)⟩, ⟨511,
    ({ st [] with aplicRegs := [(4*511, 4)] }), (by decide +kernel)⟩, ⟨7, 47, (inj (2^18-1 + 2047 * 2^32)), (hi (inj
    (2^18-1+2047 * 2^32)) []), (by decide +kernel)⟩, ⟨7, 17, 2, 1, 215, (inj (2^32+2^48*(2+4*15)+2^17)), (hi (inj
    (2^32+2^48*(2+4*15)+2^17)) [(L.WLD_CL_WORLD.WORLD 11, 255)]), (by decide +kernel)⟩, ⟨7, (inj (3+2^32)),
    ({ st [] with launches := [inj (3+2^32)] }), (by decide +kernel)⟩, ⟨7, 17, 215, 16, (inj (2^32+2^17)),
    ({ hh 215 hr [(L.WLD_CL_WORLD.WORLD 11, 511)] with launches := [inj (2^32+2^17)] }), (by decide +kernel)⟩⟩

theorem witness_WorldSwitchLockstepAndSampling : (∃ (h : Fin 216) (c : Issuer) (v : Word) (s : State), c.agent = .hart h.val ∧
  s.hartActs h = true ∧ (s.hartSt h).mode = .m ∧ s.inMonitor (s.hreg h 0x20).toNat = true ∧ v.getLsbD 0 = true ∧ v.getLsbD 1 ≠
  s.clusterSealed (hartDie h) (hartCluster h) ∧ s.clusterSwitching (hartDie h) (hartCluster h) = false ∧ s.pairActive (hartDie
  h) (hartCluster h) = false ∧ s.coreFailed (hartOf (hartDie h) (hartCluster h) 0) = false ∧ s.coreFailed (hartOf (hartDie h)
  (hartCluster h) 1) = false) ∧ (∃ (h : Fin 216) (c : Issuer) (v : Word) (s : State), c.agent = .hart h.val ∧ s.hartActs h =
  true ∧ (s.hartSt h).mode = .m ∧ s.inMonitor (s.hreg h 0x20).toNat = true ∧ v.getLsbD 0 = true ∧ v.getLsbD 1 ≠
  s.clusterSealed (hartDie h) (hartCluster h) ∧ s.clusterSwitching (hartDie h) (hartCluster h) = false ∧ s.pairActive (hartDie
  h) (hartCluster h) = true) ∧ (∃ (h : Fin 216) (c : Issuer) (v : Word) (s : State), c.agent = .hart h.val ∧ s.hartActs h =
  true ∧ (s.hartSt h).mode = .m ∧ s.inMonitor (s.hreg h 0x20).toNat = true ∧ (v.getLsbD 0 = false ∨ v.getLsbD 1 =
  s.clusterSealed (hartDie h) (hartCluster h) ∨ s.clusterSwitching (hartDie h) (hartCluster h) = true)) ∧ (∃ (h : Fin 216) (c
  : Issuer) (v : Word) (s : State), (c.agent ≠ .hart h.val ∨ (s.hartActs h = true ∧ (s.inMonitor (s.hreg h 0x20).toNat = false
  ∨ (s.hartSt h).mode ≠ .m)))) ∧ (∃ (h : Fin 216) (s : State), (s.hartSt h).goWait = true) :=
  ⟨⟨215, ⟨true, none, 0, .hart 215⟩, 1, ((hh 215 hr [(L.WLD_MON.LOG2SZ, 16), (L.WLD_CL_WORLD.WORLD 11, 511)])),
    (by decide +kernel)⟩, ⟨214, ⟨true, none, 0, .hart 214⟩, 1, ((hh 214 hr [(L.WLD_MON.LOG2SZ, 16), (L.WLD_CL_WORLD.WORLD 11,
    511), (L.SKLSCFG.ACTIVE 214, 1)])), (by decide +kernel)⟩, ⟨214, ⟨true, none, 0, .hart 214⟩, 3, ((hh 214 hr
    [(L.WLD_MON.LOG2SZ, 16), (L.WLD_CL_WORLD.WORLD 11, 511)])), (by decide +kernel)⟩, ⟨215, newtS, 1, (hh 215 hr []),
    (by decide +kernel)⟩, ⟨215, (hh 215 { hr with run := .switching, goWait := true, goAt := 50 } []), (by decide +kernel)⟩⟩

theorem witness_WorldSwitchLockstepAndSampling_2 : (∃ (d : Fin 12) (c : Fin 9) (b : Bool) (s : State), s.clusterSwitching d c
  = true ∧ (s.flushCluster d c).clusterClean d c = true ∧ s.pwr.rst = none ∧ s.pairActive d c = false ∧ (s.dieSt d).otherMake
  = false ∧ (∀ k, k < 2 → s.coreFailed (hartOf d c k) = false ∧ (s.hartSt (hartOf d c k)).goTarget = b ∧ (s.hartSt (hartOf d c
  k)).run = .switching)) ∧ (∃ (d : Fin 12) (c : Fin 9) (pc : Word) (s : State), s.pairActive d c = true) ∧ (∃ (h : Fin 216) (r
  : Sample) (s : State), s.hartActs h = true ∧ s.get (L.SKSMPCFG.EN h) = 1 ∧ r.mode ≠ .m ∧ (s.get (L.SKSMPCFG.MODES
  h)).testBit (modeNum r.mode) = true ∧ ((s.hartSt h).smpEnd ≤ r.retired ∨ (s.hartSt h).smpDone = false)) ∧ (∃ (h : Fin 216)
  (r : Sample) (s : State), (r.mode = .m ∨ s.get (L.SKSMPCFG.EN h) = 0 ∨ (r.retired < (s.hartSt h).smpEnd ∧ (s.hartSt
  h).smpDone = true))) ∧ (∃ (h : Fin 216) (v : Word) (s : State), s.hartActs h = true) :=
  ⟨⟨11, 8, true,
    ({ hh 215 hr [(L.WLD_CL_WORLD.SWITCHING 11, 256)] with hart := [(214, { hr with run := .switching, goTarget := true }), (215, { hr with run := .switching, goTarget := true })] }),
    (by decide +kernel)⟩, ⟨11, 8, 0xFFFF800000001234, (hh 215 hr [(L.SKLSCFG.ACTIVE 214, 1)]), (by decide +kernel)⟩, ⟨215,
    ⟨600, 1, 2, 70000, 127, .vs⟩, (hh 215 hr [(L.SKSMPCFG.EN 215, 1), (L.SKSMPCFG.MODES 215, 8)]), (by decide +kernel)⟩, ⟨215,
    ⟨99, 1, 2, 70000, 127, .vs⟩, (hh 215 { hr with smpEnd := 100, smpDone := true } [(L.SKSMPCFG.EN 215, 1), (L.SKSMPCFG.MODES
    215, 8)]), (by decide +kernel)⟩, ⟨215, 0xFFFFFFFFFFFFFFFF, (hh 215 hr []), (by decide +kernel)⟩⟩

end W05

namespace W06

abbrev on : List (Loc × Nat) := [(L.PWR_DOM.STATE 22, 1), (L.PWR_DOM.STATE 23, 1), (L.PWR_DOM.STATE 0, 1), (L.PWR_DOM.STATE 1, 1), (L.DL_STATUS.STATE 47, 2), (L.DL_STATUS.STATE 0, 2)]
abbrev hr : Hart := { (default : Hart) with run := .run, mode := .m }
def hw (s : State) (h : Nat) (w : WcBuf) : State := s.setHart h { s.hartSt h with wc := some w }
def hst (s : State) : State := { s with hart := [(0, hr), (215, hr)] }
abbrev top : Nat := 0x5FFFFFFF
def dd : List Nat := (List.range 64).map (fun i => i + 100)
def acc (h l off : Nat) (k : AccKind) (sealed : Bool := true) : Access := ⟨h, l, off, k, sealed, false, 0x40, if sealed then .m else .s⟩
def lines (s : State) (l : List (Nat × Nat × Nat × Nat × CLine)) : State := l.foldl (fun s e => s.setCline e.1 e.2.1 e.2.2.1 e.2.2.2.1 e.2.2.2.2) s
def ln (l st : Nat) (p : Bool := false) : CLine := ⟨true, l, st, dd, p, false, false⟩
def put1 (d u l w : Nat) (x : CLine) : Nat × Nat × Nat × Nat × CLine := (d, u, Machine.setOf u l, w, x)
abbrev wna : List (Loc × Nat) := [(L.WLD_WPOL_S.EN 11 0, 1), (L.WLD_WPOL_S.LOG2SZ 11 0, 47), (L.WLD_WPOL_S.POLICY 11 0, 2)]
def strm : Stream := ⟨5, 64*1000, 64, 3, 1, true, 215⟩
def busyLine (l : Nat) : State := (hst (st on)).setSliceTxn 11 l { (default : SliceTxn) with st := .miA }
abbrev pit : List (Loc × Nat) := on ++ [(L.WLD_L3WAY.PITON 11 3, 4095)]
def pitS (w : Nat) (o : Nat) : State := (st (pit ++ [(L.WLD_L3WAY.OWNER 11 3, w)])).writeByte (pitonBase 11 3 15 + o) 7

theorem witness_CachesServeAccesses : (∃ (a : Access) (e : Resp) (s : State), ¬ s.stopped ∧ s.accessOk a = true ∧
  s.accessFault a = some e) ∧ (∃ (a : Access) (s : State), ¬ s.stopped ∧ s.accessOk a = true ∧ s.accessFault a = none ∧
  s.wcJoins (s.accessTagged a) = false ∧ a.kind ≠ .prefL1 ∧ a.kind ≠ .prefL2) ∧ (∃ (a : Access) (k : Nat) (s : State), ¬
  s.stopped ∧ s.accessOk a = true ∧ s.accessFault a = none ∧ SMap.get s.ecc k = 1 ∧ s.dieWord (hartDie a.h) a.line k = true) ∧
  (∃ (a : Access) (b : Access) (x : CLine) (s : State), RingTakes s a b ∧ a.kind = .load ∧ s.copyIn (hartDie a.h) (uL1d (a.h %
  18)) a.line = some x) ∧ (∃ (a : Access) (b : Access) (w : Bool) (x : CLine) (s : State), RingTakes s a b ∧ a.kind = .lr w ∧
  s.copyIn (hartDie a.h) (uL1d (a.h % 18)) a.line = some x ∧ x.poison = false) :=
  ⟨⟨(acc 215 top 60 (.lr true)), .misaligned, (hst (st on)), (by decide +kernel)⟩, ⟨(acc 215 top 0 .load), (hw ((hst (st on)))
    215 ⟨77, 255, zeros 64, true, false⟩), (by decide +kernel)⟩, ⟨(acc 215 top 0 .load), (eccSlice (sliceKey 11 top)),
    ({ hst (st on) with ecc := [(eccSlice (sliceKey 11 top), 1)] }), (by decide +kernel)⟩, ⟨(acc 215 top 63 .load), (acc 215
    top 63 .load), (ln top 0), (lines ((hst (st on))) [put1 11 (uL1d 17) top 15 (ln top 0)]), (by decide +kernel)⟩, ⟨(acc 215
    top 60 (.lr false)), (acc 215 top 60 (.lr false)), false, (ln top 1), (lines (hst (st on)) [put1 11 (uL1d 17) top 15 (ln
    top 1)]), (by decide +kernel)⟩⟩

theorem witness_CachesServeAccesses_2 : (∃ (a : Access) (b : Access) (d : List Nat) (s : State), RingTakes s a b ∧ a.kind =
  .sc d ∧ s.reserved a = false) ∧ (∃ (a : Access) (b : Access) (s : State), RingTakes s a b ∧ (a.kind = .load ∨ a.kind =
  .fetch ∨ a.kind = .lr false ∨ a.kind = .lr true) ∧ NoCopy s (hartDie a.h) a.line ∧ s.lineBusy (hartDie a.h) a.line = false ∧
  s.entryFree (hartDie a.h) (sliceOf a.line) = true) ∧ (∃ (a : Access) (b : Access) (s : State), RingTakes s a b ∧ (accIsAmo a
  = true ∨ (∃ d, a.kind = .store d) ∧ s.policy (hartDie a.h) b.sealed a.line ≠ 2) ∧ NoCopy s (hartDie a.h) a.line ∧ s.lineBusy
  (hartDie a.h) a.line = false ∧ (s.policy (hartDie a.h) b.sealed a.line = 1 → s.wbRoom (hartDie a.h) (sliceOf a.line) 2 =
  true) ∧ s.entryFree (hartDie a.h) (sliceOf a.line) = true) ∧ (∃ (a : Access) (b : Access) (d : List Nat) (s : State),
  RingTakes s a b ∧ a.kind = .store d ∧ NoCopy s (hartDie a.h) a.line ∧ s.lineBusy (hartDie a.h) a.line = false ∧ s.policy
  (hartDie a.h) b.sealed a.line = 2) ∧ (∃ (a : Access) (d : List Nat) (w : WcBuf) (s : State), ¬ s.stopped ∧ s.accessOk a =
  true ∧ s.accessFault a = none ∧ a.kind = .store d ∧ (s.hartSt a.h).wc = some w ∧ s.wcJoins (s.accessTagged a) = true ∧
  NoCopy s (hartDie a.h) a.line ∧ NoMarks s (hartDie a.h) a.line ∧ w.mask ||| (2 ^ d.length - 1) <<< a.off ≠ 2 ^ 64 - 1) :=
  ⟨⟨(acc 215 top 56 (.sc [1, 2, 3, 4, 5, 6, 7, 8])), (acc 215 top 56 (.sc [1, 2, 3, 4, 5, 6, 7, 8])), [1, 2, 3, 4, 5, 6, 7, 8],
    (lines (hst (st on)) [put1 11 (uL1d 17) top 15 (ln top 2)]), (by decide +kernel)⟩, ⟨(acc 215 top 63 .fetch), (acc 215 top
    63 .fetch), ((hst (st on))), (by decide +kernel)⟩, ⟨(acc 215 top 60 (.amo .maxu false 9)), (acc 215 top 60 (.amo .maxu
    false 9)), (hst (st on)), (by decide +kernel),
    (by first | exact .inl (by decide +kernel) | exact .inr ⟨⟨_, rfl⟩, by decide +kernel⟩ | exact .inr ⟨_, rfl⟩ | exact .inr (.inl ⟨_, rfl⟩) | exact .inr (.inr ⟨⟨_, rfl⟩, by decide +kernel⟩)),
    (by decide +kernel)⟩, ⟨(acc 215 top 62 (.store [1, 2])), (acc 215 top 62 (.store [1, 2])), [1, 2], ((hst (st (on ++
    wna)))), (by decide +kernel)⟩, ⟨(acc 215 top 62 (.store [1, 2])), [1, 2], ⟨top, 255, zeros 64, true, false⟩, (hw ((hst (st
    (on++wna)))) 215 ⟨top, 255, zeros 64, true, false⟩), (by decide +kernel)⟩⟩

theorem witness_CachesServeAccesses_3 : (∃ (a : Access) (b : Access) (x : CLine) (y : CLine) (s : State), RingTakes s a b ∧
  (accIsAmo a = true ∧ x.poison = false ∨ (∃ d, a.kind = .store d) ∨ (∃ d, a.kind = .sc d) ∧ x.resv = true) ∧ s.copyIn
  (hartDie a.h) (uL1d (a.h % 18)) a.line = some x ∧ x.st = 2 ∧ s.copyIn (hartDie a.h) (uL2 (hartCluster a.h)) a.line = some y
  ∧ 1 ≤ y.st ∧ s.lineBusy (hartDie a.h) a.line = false ∧ s.policy (hartDie a.h) b.sealed a.line ≠ 1) ∧ (∃ (a : Access) (b :
  Access) (x : CLine) (s : State), RingTakes s a b ∧ (accIsAmo a = true ∧ x.poison = false ∨ ∃ d, a.kind = .store d) ∧
  s.copyIn (hartDie a.h) (uL2 (hartCluster a.h)) a.line = some x ∧ 1 ≤ x.st ∧ s.lineBusy (hartDie a.h) a.line = false ∧ (∀ u,
  u < 49 → u ≠ uL2 (hartCluster a.h) → s.findWay (hartDie a.h) u a.line = none) ∧ (s.policy (hartDie a.h) b.sealed a.line = 1
  → s.wbRoom (hartDie a.h) (sliceOf a.line) 2 = true)) ∧ (∃ (die : Fin 12) (unit : Fin 27) (idx : Fin 32) (x : Stream) (l :
  Nat) (s : State), ¬ s.stopped ∧ s.stream die unit idx = x ∧ x.key ≠ 0 ∧ 3 ≤ x.seen ∧ s.pfEnabled die unit = true ∧ hartDie
  x.h = die.val ∧ s.prefetchRuns die unit = true ∧ s.dieIn die = true ∧ x.ahead < (if unit.val < 18 then s.get
  (L.WLD_PFCTL.L1_DIST die) else s.get (L.WLD_PFCTL.L2_DIST die)) ∧ (l : Int) = (if unit.val < 18 ∧ x.stride.natAbs < 64 then
  ((x.last / 64 : Nat) : Int) + (if 0 ≤ x.stride then 1 else -1) * ((x.ahead : Int) + 1) else if unit.val < 18 then ((x.last :
  Int) + x.stride * ((x.ahead : Int) + 1)) / 64 else (x.last : Int) + x.stride * ((x.ahead : Int) + 1)) ∧ l / 64 = streamLine
  unit x.last / 64 ∧ lineInHbm l = true ∧ s.pfOff die x.sealed l = false ∧ NoMarks s die l ∧ NoCopy s die l ∧ s.lineBusy die l
  = false ∧ s.entryFree die (sliceOf l) = true) ∧ (∃ (die : Fin 12) (unit : Fin 13) (set : Nat) (way : Fin 16) (x : CLine) (s
  : State), ¬ s.stopped ∧ s.cline die (36 + unit.val) set way = x ∧ x.valid = true ∧ s.lineBusy die x.line = false ∧ s.wbFree
  die (sliceOf x.line) = true ∧ s.dieEcc die x.line = false ∧ 9 ≤ unit.val) ∧ (∃ (die : Fin 12) (unit : Fin 13) (set : Nat)
  (way : Fin 16) (x : CLine) (s : State), ¬ s.stopped ∧ s.cline die (36 + unit.val) set way = x ∧ x.valid = true ∧ s.lineBusy
  die x.line = false ∧ s.wbFree die (sliceOf x.line) = true ∧ s.dieEcc die x.line = false ∧ unit.val < 9 ∧ s.findWay die (36 +
  unit.val) x.line = some way.val ∧ Machine.setOf (36 + unit.val) x.line = set ∧ s.findWay die (uL1d (2 * unit.val)) x.line =
  none ∧ s.findWay die (uL1d (2 * unit.val + 1)) x.line = none) :=
  ⟨⟨(acc 215 top 56 (.sc [1, 2, 3, 4, 5, 6, 7, 8])), (acc 215 top 56 (.sc [1, 2, 3, 4, 5, 6, 7, 8])),
    ({ ln top 2 with resv := true }), (ln top 1), (lines (hst (st on)) [put1 11 (uL1d 17) top 15
    { ln top 2 with resv := true }, put1 11 (uL2 8) top 3 (ln top 1)]), (by decide +kernel),
    (by first | exact .inl (by decide +kernel) | exact .inr ⟨⟨_, rfl⟩, by decide +kernel⟩ | exact .inr ⟨_, rfl⟩ | exact .inr (.inl ⟨_, rfl⟩) | exact .inr (.inr ⟨⟨_, rfl⟩, by decide +kernel⟩)),
    (by decide +kernel)⟩, ⟨(acc 215 top 60 (.amo .maxu false 9)), (acc 215 top 60 (.amo .maxu false 9)), (ln top 1), (lines
    (hst (st on)) [put1 11 (uL2 8) top 15 (ln top 1)]), (by decide +kernel),
    (by first | exact .inl (by decide +kernel) | exact .inr ⟨⟨_, rfl⟩, by decide +kernel⟩ | exact .inr ⟨_, rfl⟩ | exact .inr (.inl ⟨_, rfl⟩) | exact .inr (.inr ⟨⟨_, rfl⟩, by decide +kernel⟩)),
    (by decide +kernel)⟩, ⟨11, 17, 0, strm, 1002,
    ({ (hst (st (on ++ [(L.WLD_PFCTL.L1_EN 11, 2^18-1), (L.WLD_PFCTL.L1_DIST 11, 2)]))) with streams := [(streamKey 11 17 0, strm)] }),
    (by decide +kernel)⟩, ⟨11, 12, (Machine.setOf (uL3 3) top), 15, (ln top 2), (lines ((hst (st on))) [put1 11 (uL3 3) top 15
    (ln top 2)]), (by decide +kernel), (by first | with_reducible rfl | decide +kernel), (by decide +kernel)⟩, ⟨11, 8,
    (Machine.setOf (uL2 8) top), 15, (ln top 2), (lines ((hst (st (on ++ [(L.WLD_WPOL_S.EN 11 0, 1), (L.WLD_WPOL_S.LOG2SZ 11
    0, 47), (L.WLD_WPOL_S.POLICY 11 0, 3)])))) [put1 11 (uL2 8) top 15 (ln top 2)]), (by decide +kernel),
    (by first | with_reducible rfl | decide +kernel), (by decide +kernel), (by decide +kernel), (by decide +kernel),
    (by decide +kernel), (by decide +kernel), (by decide +kernel), (by first | with_reducible rfl | decide +kernel),
    (by decide +kernel)⟩⟩

theorem witness_MaintenanceByAddress : (∃ (h : Fin 216) (md : PrivMode) (l : Nat) (e : Resp) (s : State), s.hartActs h = true
  ∧ s.cboFault h 0 md = some e) ∧ (∃ (h : Fin 216) (md : PrivMode) (l : Nat) (e : Resp) (s : State), s.hartActs h = true ∧
  s.cboFault h 1 md = some e) ∧ (∃ (h : Fin 216) (md : PrivMode) (l : Nat) (e : Resp) (s : State), s.hartActs h = true ∧
  s.cboFault h 2 md = some e) ∧ (∃ (h : Fin 216) (md : PrivMode) (l : Nat) (e : Resp) (s : State), s.hartActs h = true ∧
  s.cboFault h 3 md = some e) ∧ (∃ (h : Fin 216) (md : PrivMode) (l : Nat) (s : State), s.hartActs h = true ∧ s.pmpFault h md
  (64 * l) 64 pmpW = true ∧ s.cboFault h 3 md = none) :=
  ⟨⟨215, .u, top, .illegal, (((hst (st on)))), (by decide +kernel)⟩, ⟨215, .u, top, .illegal, (((hst (st on)))),
    (by decide +kernel)⟩, ⟨215, .u, top, .illegal, (((hst (st on)))), (by decide +kernel)⟩, ⟨215, .u, top, .illegal, (((hst
    (st on)))), (by decide +kernel)⟩, ⟨215, .s, top, ((hst (st on)).setCsr 215 0x30A 0xF0), (by decide +kernel)⟩⟩

theorem witness_MaintenanceByAddress_2 : (∃ (h : Fin 216) (md : PrivMode) (l : Nat) (s : State), s.hartActs h = true ∧
  s.pmpFault h md (64 * l) 64 pmpW = true ∧ s.cboFault h 1 md = none ∧ s.pmpFault h md (64 * l) 64 pmpR = true) ∧ (∃ (h : Fin
  216) (md : PrivMode) (l : Nat) (r : DieReq) (s : State), CboRuns s h 1 md l ∧ lineInHbm l = true ∧ r ∈ (s.dieSt (hartDie
  h)).sent ∧ r.op = none ∧ r.line = l) ∧ (∃ (h : Fin 216) (md : PrivMode) (l : Nat) (m : CohMsg) (s : State), lineInHbm l =
  true ∧ s.lineOpen l = true ∧ NoMaskedWrite s (hartDie h) l ∧ m =
  { sliceMsg (hartDie h) l (s.hartIssuer h md).sealed (s.inReservedWindow h (64 * l)) with txn := SMap.get s.wbTag (64 + 4 * hartDie h + sliceOf l) }
  ∧ CboRuns s h 0 md l) ∧ (∃ (h : Fin 216) (md : PrivMode) (l : Nat) (m : CohMsg) (s : State), lineInHbm l = true ∧ s.lineOpen
  l = true ∧ NoMaskedWrite s (hartDie h) l ∧ m =
  { sliceMsg (hartDie h) l (s.hartIssuer h md).sealed (s.inReservedWindow h (64 * l)) with txn := SMap.get s.wbTag (64 + 4 * hartDie h + sliceOf l) }
  ∧ CboRuns s h 1 md l) ∧ (∃ (h : Fin 216) (md : PrivMode) (l : Nat) (m : CohMsg) (s : State), lineInHbm l = true ∧ s.lineOpen
  l = true ∧ NoMaskedWrite s (hartDie h) l ∧ m =
  { sliceMsg (hartDie h) l (s.hartIssuer h md).sealed (s.inReservedWindow h (64 * l)) with txn := SMap.get s.wbTag (64 + 4 * hartDie h + sliceOf l) }
  ∧ CboRuns s h 2 md l) :=
  ⟨⟨215, .s, top, ((hst (st on)).setCsr 215 0x30A 0xF0), (by decide +kernel)⟩, ⟨215, .m, top, ⟨214, top, 5, none, true, false⟩,
    ((hst (st on)).setDie 11 { (default : Die) with sent := [⟨214, top, 5, none, true, false⟩] }), (by decide +kernel)⟩, ⟨215,
    .m, top,
    ({ sliceMsg (hartDie (215 : Fin 216)) (top : Nat) ((busyLine top : State).hartIssuer (215 : Fin 216) (.m : PrivMode)).sealed ((busyLine top : State).inReservedWindow (215 : Fin 216) (64 * (top : Nat))) with txn := SMap.get (busyLine top : State).wbTag (64 + 4 * hartDie (215 : Fin 216) + sliceOf (top : Nat)) }),
    (busyLine top), (by decide +kernel), (by decide +kernel), (by decide +kernel),
    (by first | with_reducible rfl | decide +kernel), (by decide +kernel)⟩, ⟨215, .m, top,
    ({ sliceMsg (hartDie (215 : Fin 216)) (top : Nat) ((busyLine top : State).hartIssuer (215 : Fin 216) (.m : PrivMode)).sealed ((busyLine top : State).inReservedWindow (215 : Fin 216) (64 * (top : Nat))) with txn := SMap.get (busyLine top : State).wbTag (64 + 4 * hartDie (215 : Fin 216) + sliceOf (top : Nat)) }),
    (busyLine top), (by decide +kernel), (by decide +kernel), (by decide +kernel),
    (by first | with_reducible rfl | decide +kernel), (by decide +kernel)⟩, ⟨215, .m, top,
    ({ sliceMsg (hartDie (215 : Fin 216)) (top : Nat) ((busyLine top : State).hartIssuer (215 : Fin 216) (.m : PrivMode)).sealed ((busyLine top : State).inReservedWindow (215 : Fin 216) (64 * (top : Nat))) with txn := SMap.get (busyLine top : State).wbTag (64 + 4 * hartDie (215 : Fin 216) + sliceOf (top : Nat)) }),
    (busyLine top), (by decide +kernel), (by decide +kernel), (by decide +kernel),
    (by first | with_reducible rfl | decide +kernel), (by decide +kernel)⟩⟩

theorem witness_MaintenanceByAddress_3 : (∃ (h : Fin 216) (md : PrivMode) (l : Nat) (d : Nat) (u : Nat) (w : Nat) (s : State),
  lineInHbm l = true ∧ s.lineOpen l = false ∧ NoMaskedWrite s (hartDie h) l ∧ s.lineFatal l (hartDie h) true = none ∧
  s.otherHolds l = false ∧ (s.dirtyCopy l = none ∨ s.writeRoom l = true) ∧ d < 12 ∧ s.findWay d u l = some w ∧ (u < 45 ∨ u =
  uL3 (sliceOf l)) ∧ CboRuns s h 1 md l) ∧ (∃ (h : Fin 216) (md : PrivMode) (l : Nat) (d : Nat) (u : Nat) (w : Nat) (s :
  State), lineInHbm l = true ∧ s.lineOpen l = false ∧ NoMaskedWrite s (hartDie h) l ∧ s.lineFatal l (hartDie h) true = none ∧
  s.otherHolds l = false ∧ (s.dirtyCopy l = none ∨ s.writeRoom l = true) ∧ d < 12 ∧ s.findWay d u l = some w ∧ (u < 45 ∨ u =
  uL3 (sliceOf l)) ∧ CboRuns s h 2 md l) ∧ (∃ (h : Fin 216) (md : PrivMode) (l : Nat) (d : Nat) (u : Nat) (w : Nat) (s :
  State), lineInHbm l = true ∧ s.lineOpen l = false ∧ NoMaskedWrite s (hartDie h) l ∧ s.lineFatal l (hartDie h) true = none ∧
  s.otherHolds l = false ∧ (s.dirtyCopy l = none ∨ s.writeRoom l = true) ∧ d < 12 ∧ s.findWay d u l = some w ∧ (36 ≤ u ∧ u <
  45 ∨ u = uL3 (sliceOf l)) ∧ CboRuns s h 0 md l) ∧ (∃ (h : Fin 216) (md : PrivMode) (l : Nat) (a : Access) (b : Access) (s :
  State), CboRuns s h 3 md l ∧ lineInHbm l = true ∧ a = ⟨h, l, 0, .store (zeros 64), (s.hartIssuer h md).sealed, false, 0, md⟩
  ∧ RingTakes s a b ∧ NoCopy s (hartDie h) l ∧ s.lineBusy (hartDie h) l = false ∧ s.policy (hartDie h) b.sealed l ≠ 2 ∧
  (s.policy (hartDie h) b.sealed l = 1 → s.wbRoom (hartDie h) (sliceOf l) 2 = true) ∧ s.entryFree (hartDie h) (sliceOf l) =
  true) ∧ (∃ (h : Fin 216) (md : PrivMode) (l : Nat) (d : Nat) (s : State), CboRuns s h 3 md l ∧ 64 * l < 2 ^ 48 ∧ PitonServes
  (s.inMode h md) (s.hartIssuer h md) (BitVec.ofNat 48 (64 * l)) (.store (zeros 64)) d) :=
  ⟨⟨215, .m, top, 11, (uL1d 17), 15, (lines ((hst (st on))) [put1 11 (uL1d 17) top 15 (ln top 2), put1 11 (uL2 8) top 3 (ln top
    2)]), (by decide +kernel)⟩, ⟨215, .m, top, 11, (uL1d 17), 15, (lines ((hst (st on))) [put1 11 (uL1d 17) top 15 (ln top 2),
    put1 11 (uL2 8) top 3 (ln top 2)]), (by decide +kernel)⟩, ⟨215, .m, top, 11, (uL2 8), 3, (lines ((hst (st on))) [put1 11
    (uL1d 17) top 15 (ln top 1), put1 11 (uL2 8) top 3 (ln top 1)]), (by decide +kernel)⟩, ⟨215, .m, top, ⟨(215 : Fin 216),
    (top : Nat), 0, .store (zeros 64), (((hst (st on)) : State).hartIssuer (215 : Fin 216) (.m : PrivMode)).sealed, false, 0,
    (.m : PrivMode)⟩, ⟨215, top, 0, .store (zeros 64), true, false, 0, .m⟩, ((hst (st on))), (by decide +kernel),
    (by decide +kernel), (by first | with_reducible rfl | decide +kernel), (by decide +kernel)⟩, ⟨215, .m, ((pitonBase 11 3
    15)/64 + 5), 11, (hst (pitS 0x8000 321)), (by decide +kernel), (by decide +kernel),
    (by first | exact serves 3 15 0xBFFF8 (by decide +kernel) (by decide) (by decide +kernel) (by decide +kernel) | exact serves 3 15 0xBFFE0 (by decide +kernel) (by decide) (by decide +kernel) (by decide +kernel) | exact serves 3 15 320 (by decide +kernel) (by decide) (by decide +kernel) (by decide +kernel))⟩⟩

theorem witness_MaintenanceBySetAndWay : (∃ (c : Issuer) (d : Fin 12) (v : Word) (u : Nat) (s : State), Sends s c ∧ c.sealed =
  true ∧ s.dieIn d = true ∧ s.get (L.WLD_SWSTAT.BUSY d) = 0 ∧ v.getLsbD 63 = true ∧ swopUnit (fieldOf v 2 2) (fieldOf v 4 5) =
  some u ∧ ¬ s.stopped ∧ (∀ l, s.dieEcc d l = false) ∧ (fieldOf v 9 1 = 1 ∨ fieldOf v 20 14 < setsOf u ∧ (45 ≤ u → s.pitonWay
  d (u - 45) (fieldOf v 16 4) = false)) ∧ fieldOf v 0 2 = 0) ∧ (∃ (c : Issuer) (d : Fin 12) (v : Word) (u : Nat) (s : State),
  Sends s c ∧ c.sealed = true ∧ s.dieIn d = true ∧ s.get (L.WLD_SWSTAT.BUSY d) = 0 ∧ v.getLsbD 63 = true ∧ swopUnit (fieldOf v
  2 2) (fieldOf v 4 5) = some u ∧ ¬ s.stopped ∧ (∀ l, s.dieEcc d l = false) ∧ (fieldOf v 9 1 = 1 ∨ fieldOf v 20 14 < setsOf u
  ∧ (45 ≤ u → s.pitonWay d (u - 45) (fieldOf v 16 4) = false)) ∧ fieldOf v 0 2 = 1) ∧ (∃ (c : Issuer) (d : Fin 12) (v : Word)
  (u : Nat) (s : State), Sends s c ∧ c.sealed = true ∧ s.dieIn d = true ∧ s.get (L.WLD_SWSTAT.BUSY d) = 0 ∧ v.getLsbD 63 =
  true ∧ swopUnit (fieldOf v 2 2) (fieldOf v 4 5) = some u ∧ ¬ s.stopped ∧ (∀ l, s.dieEcc d l = false) ∧ (fieldOf v 9 1 = 1 ∨
  fieldOf v 20 14 < setsOf u ∧ (45 ≤ u → s.pitonWay d (u - 45) (fieldOf v 16 4) = false)) ∧ fieldOf v 0 2 = 2) ∧ (∃ (c :
  Issuer) (d : Fin 12) (v : Word) (s : State), Sends s c ∧ c.sealed = true ∧ s.dieIn d = true ∧ s.get (L.WLD_SWSTAT.BUSY d) =
  0 ∧ v.getLsbD 63 = true ∧ fieldOf v 0 2 ≠ 3 ∧ swopUnit (fieldOf v 2 2) (fieldOf v 4 5) = none) ∧ (∃ (c : Issuer) (d : Fin
  12) (v : Word) (s : State), Sends s c ∧ (c.sealed = false ∨ s.get (L.WLD_SWSTAT.BUSY d) = 1 ∨ fieldOf v 0 2 = 3)) ∧ (∃ (d :
  Fin 12) (s : State), s.get (L.WLD_SWSTAT.BUSY d) = 1 ∧ (s.swopRun d).swopOpen d = false ∧ (∀ l, s.dieEcc d l = false)) :=
  ⟨⟨newtS, 11, (BitVec.ofNat 64 (2^63 + 2^2*3 + 2^4*3 + 2^16*15 + 2^20*12287)), (uL3 3), (st on), (by decide +kernel),
    (by decide +kernel), (by decide +kernel), (by decide +kernel), (by decide +kernel), (by decide +kernel),
    (by decide +kernel), (by intro l; rfl), (by decide +kernel)⟩, ⟨newtS, 11, (BitVec.ofNat 64 (2^63 + 1 + 2^2*3 + 2^4*3 +
    2^16*15 + 2^20*(Machine.setOf (uL3 3) top))), (uL3 3), (lines (st on) [put1 11 (uL3 3) top 15 (ln top 2)]),
    (by decide +kernel), (by decide +kernel), (by decide +kernel), (by decide +kernel), (by decide +kernel),
    (by decide +kernel), (by decide +kernel), (by intro l; rfl), (by decide +kernel)⟩, ⟨newtS, 11, (BitVec.ofNat 64 (2^63 + 2+
    2^2*0 + 2^4*17 + 2^16*15 + 2^20*63)), (uL1d 17), (st on), (by decide +kernel), (by decide +kernel), (by decide +kernel),
    (by decide +kernel), (by decide +kernel), (by decide +kernel), (by decide +kernel), (by intro l; rfl),
    (by decide +kernel)⟩, ⟨newtS, 11, (BitVec.ofNat 64 (2^63 + 2^2*2 + 2^4*9)), (st on), (by decide +kernel)⟩, ⟨devO, 11, 0,
    (st on), (by decide +kernel)⟩, ⟨11, (st (on ++ [(L.WLD_SWSTAT.BUSY 11, 1), (L.WLD_SWOP.OP 11, 1), (L.WLD_SWOP.LEVEL 11,
    3)])), (by decide +kernel), (by decide +kernel), (by intro l; rfl)⟩⟩

theorem witness_PitonMemory : (∃ (c : Issuer) (d : Fin 12) (sl : Fin 4) (v : Word) (i : Nat) (s : State), Sends s c ∧ s.dieIn
  d = true ∧ i < 12 ∧ s.wayOwner d sl (4 + i) = c.sealed ∧ v.getLsbD (4 + i) ≠ (s.get (L.WLD_L3WAY.PITON d sl)).testBit i ∧
  s.get (L.WLD_L3WAY.BUSY d sl) = 0) ∧ (∃ (c : Issuer) (d : Fin 12) (sl : Fin 4) (v : Word) (i : Nat) (s : State), Sends s c ∧
  s.dieIn d = true ∧ i < 12 ∧ s.wayOwner d sl (4 + i) = c.sealed ∧ v.getLsbD (4 + i) ≠ (s.get (L.WLD_L3WAY.PITON d
  sl)).testBit i ∧ s.get (L.WLD_L3WAY.BUSY d sl) = 1) ∧ (∃ (d : Fin 12) (sl : Fin 4) (n : Nat) (s : State), SMap.get
  s.pitonBusy (4 * d.val + sl.val) = n ∧ onesBelow 16 n ≠ [] ∧ s.allLines d (uL3 sl) = [] ∧ (∀ w, w < 16 → s.isReleasing (.l3
  (64 * d.val + 16 * sl.val + w)) = false)) ∧ (∃ (c : Issuer) (a : PAddr) (d : Nat) (n : Nat) (k : PitonKind) (s : State),
  Sends s c ∧ PitonServes s c a k d ∧ (k = .load n ∨ k = .fetch n)) ∧ (∃ (c : Issuer) (a : PAddr) (d : Nat) (s : State), Sends
  s c ∧ PitonReached s c a .lrsc d) :=
  ⟨⟨newtS, 11, 3, 0xFFF0, 11, (st (on ++ [(L.WLD_L3WAY.OWNER 11 3, 0xFFF0)])), (by decide +kernel)⟩, ⟨newtS, 11, 3, 0xFFF0, 11,
    (st (on ++ [(L.WLD_L3WAY.OWNER 11 3, 0xFFF0), (L.WLD_L3WAY.BUSY 11 3, 1)])), (by decide +kernel)⟩, ⟨11, 3, 0x8010,
    ({ (st [(L.WLD_L3WAY.BUSY 11 3, 1)]).writeByte (pitonBase 11 3 15) 7 with pitonBusy := [(47, 0x8010)] }),
    (by first | with_reducible rfl | decide +kernel), (by decide +kernel)⟩, ⟨newtS, (BitVec.ofNat 48 (pitonBase 11 3 15 +
    0xBFFF8)), 11, 8, (.load 8), (pitS 0x8000 0xBFFFF), (by decide +kernel),
    (by first | exact serves 3 15 0xBFFF8 (by decide +kernel) (by decide) (by decide +kernel) (by decide +kernel) | exact serves 3 15 0xBFFE0 (by decide +kernel) (by decide) (by decide +kernel) (by decide +kernel) | exact serves 3 15 320 (by decide +kernel) (by decide) (by decide +kernel) (by decide +kernel)),
    (by decide +kernel)⟩, ⟨newtS, (BitVec.ofNat 48 (pitonBase 11 3 15 + 0xBFFF8)), 11, (pitS 0x8000 0xBFFFF),
    (by decide +kernel)⟩⟩

theorem witness_PitonMemory_2 : (∃ (c : Issuer) (a : PAddr) (d : Nat) (b : List Nat) (s : State), Sends s c ∧ PitonServes s c
  a (.store b) d) ∧ (∃ (c : Issuer) (a : PAddr) (d : Nat) (op : AmoOp) (wide : Bool) (v : Word) (n : Nat) (s : State), Sends s
  c ∧ PitonServes s c a (.amo op wide v) d ∧ n = (if wide then 8 else 4)) ∧ (∃ (c : Issuer) (a : PAddr) (d : Nat) (k :
  PitonKind) (s : State), Sends s c ∧ PitonReached s c a k d ∧ k ≠ .lrsc ∧ ¬ PitonAligned a k) ∧ (∃ (c : Issuer) (a : PAddr)
  (d : Nat) (i : Nat) (k : PitonKind) (s : State), Sends s c ∧ PitonReached s c a k d ∧ PitonAligned a k ∧ i < (pitonShape
  k).1 ∧ (c.agent = .device ∨ ¬ PitonByte s c d (a.toNat + i))) ∧ (∃ (c : Issuer) (a : PAddr) (d : Nat) (k : PitonKind) (s :
  State), Sends s c ∧ s.pitonReach c d = true ∧ 0x10000000000 + 0x10000000 * d ≤ a.toNat ∧ a.toNat < 0x10000000000 +
  0x10000000 * (d + 1) ∧ s.pmpStops c a.toNat (pitonShape k).1 (pitonPmp k) = true) :=
  ⟨⟨newtS, (BitVec.ofNat 48 (pitonBase 11 3 15 + 0xBFFF8)), 11, [1, 2, 3, 4, 5, 6, 7, 256], (pitS 0x8000 0xBFFFF),
    (by decide +kernel),
    (by first | exact serves 3 15 0xBFFF8 (by decide +kernel) (by decide) (by decide +kernel) (by decide +kernel) | exact serves 3 15 0xBFFE0 (by decide +kernel) (by decide) (by decide +kernel) (by decide +kernel) | exact serves 3 15 320 (by decide +kernel) (by decide) (by decide +kernel) (by decide +kernel))⟩,
    ⟨newtS, (BitVec.ofNat 48 (pitonBase 11 3 15 + 0xBFFF8)), 11, .min, true, 0x8000000000000000, 8, (pitS 0x8000 0xBFFFF),
    (by decide +kernel),
    (by first | exact serves 3 15 0xBFFF8 (by decide +kernel) (by decide) (by decide +kernel) (by decide +kernel) | exact serves 3 15 0xBFFE0 (by decide +kernel) (by decide) (by decide +kernel) (by decide +kernel) | exact serves 3 15 320 (by decide +kernel) (by decide) (by decide +kernel) (by decide +kernel)),
    (by decide +kernel)⟩, ⟨newtS, (BitVec.ofNat 48 (pitonBase 11 3 15 + 1)), 11, (.load 8), (st on), (by decide +kernel)⟩,
    ⟨devO, (BitVec.ofNat 48 (pitonBase 11 3 4)), 11, 3, (.load 4), (st (pit ++ [(L.WLD_L3WAY.OWNER 11 3, 0xFFFF)])),
    (by decide +kernel), (by decide +kernel), (by decide +kernel), (by decide +kernel), .inl rfl⟩, ⟨⟨true, none, 0, .hart
    215⟩, (BitVec.ofNat 48 (0x10000000000 + 0x10000000 * 12 - 8)), 11, (.load 8),
    ({ st on with hart := [(215, { hr with mode := .s })] }), (by decide +kernel)⟩⟩

end W06

namespace W07

abbrev on : List (Loc × Nat) := [(L.PWR_DOM.STATE 22, 1), (L.PWR_DOM.STATE 23, 1), (L.PWR_DOM.STATE 0, 1), (L.PWR_DOM.STATE 1, 1)]
abbrev top : Nat := 0x5FFFFFFF
def dd : List Nat := (List.range 64).map (fun i => i + 100)
abbrev hm (l : Nat) : Nat := State.reset.homeOf l
abbrev ca : List (Loc × Nat) := (List.range 32).map (fun h => (L.HA_STATUS.CA h, 4095))
/-- The line has a filter entry at its home. -/
def sfl (l st pres : Nat) (s : State) : State := { s with sf := SMap.set s.sf (sfKey (hm l) (sfSet l) 15) ⟨true, l, st, pres⟩ }
def c0 : CohMsg := { (default : CohMsg) with src := 11, line := top, txn := 5, sealed := true }
def base : State := st ca
def tx (k : CohKind) (sk : CohKind) (asked : Nat) : HomeTxn := newTxn false k { c0 with src := 3 } asked sk 7 true
def withTx (x : HomeTxn) (s : State) : State := s.setHome (hm x.line) { (default : Home) with txns := [x] }
def ln (l st : Nat) (p : Bool := false) : CLine := ⟨true, l, st, dd, p, false, false⟩
def l3 (st : Nat) : State := base.setCline 11 (uL3 (sliceOf top)) (Machine.setOf (uL3 (sliceOf top)) top) 15 (ln top st)
def sl (x : SliceTxn) : State := (st (ca ++ on)).setSliceTxn 11 top x
def acc (k : AccKind) : Access := ⟨215, top, 0, k, true, false, 4, .m⟩
def gx : State := ((st (ca ++ on)).setCline 11 (uL2 8) (Machine.setOf (uL2 8) top) 3 (ln top 0)).setSliceTxn 11 top { (default : SliceTxn) with st := .sxA, waiting := [acc (.store [1, 2])] }
def stM (m : CohMsg) (s : State) : State := s.put (L.MC_STATUS.MODE (s.mcOf m.line)) mcNormal
def vi2 : CohMsg := { c0 with vi := some 255, gen := 3 }

theorem witness_HomesOpenTransactions : (∃ (m : CohMsg) (st : Nat × Nat) (s : State), HomeOpens s .rdS m ∧ s.sfState (s.homeOf
  m.line) m.line = st) ∧ (∃ (m : CohMsg) (st : Nat × Nat) (s : State), HomeOpens s .rdX m ∧ s.sfState (s.homeOf m.line) m.line
  = st) ∧ (∃ (m : CohMsg) (st : Nat × Nat) (s : State), HomeOpens s .upg m ∧ s.sfState (s.homeOf m.line) m.line = st ∧ ¬ (st.1
  = 2 ∧ st.2 = 1 <<< m.src) ∧ ¬ (st.1 = 1 ∧ st.2.testBit m.src = true)) ∧ (∃ (m : CohMsg) (p : Nat) (s : State), HomeOpens s
  .upg m ∧ s.sfState (s.homeOf m.line) m.line = (1, p) ∧ p.testBit m.src = true ∧ clearBit p m.src ≠ 0) :=
  ⟨⟨c0, ((0, 0)), base, (by decide +kernel), (by first | with_reducible rfl | decide +kernel)⟩, ⟨c0, ((0, 0)), base,
    (by decide +kernel), (by first | with_reducible rfl | decide +kernel)⟩, ⟨c0, ((0, 0)), base, (by decide +kernel),
    (by first | with_reducible rfl | decide +kernel), (by decide +kernel)⟩, ⟨c0, (2^11+1), (sfl top 1 (2^11+1) base),
    (by decide +kernel)⟩⟩

theorem witness_HomesOpenTransactions_2 : (∃ (m : CohMsg) (n : Nat) (s : State), HomeOpens s .upg m ∧ s.sfState (s.homeOf
  m.line) m.line = (n, 1 <<< m.src) ∧ (n = 1 ∨ n = 2)) ∧ (∃ (m : CohMsg) (st : Nat × Nat) (s : State), HomeOpens s .cmo m ∧
  s.sfState (s.homeOf m.line) m.line = st ∧ st.2 ≠ 0 ∧ (m.op = 0 → st.1 = 2)) ∧ (∃ (m : CohMsg) (st : Nat × Nat) (s : State),
  HomeOpens s .cmo m ∧ s.sfState (s.homeOf m.line) m.line = st ∧ (if m.op = 0 then st.1 ≠ 2 else st.2 = 0)) ∧ (∃ (m : CohMsg)
  (st : Nat × Nat) (s : State), HomeOpens s .ncRd m ∧ s.sfState (s.homeOf m.line) m.line = st) ∧ (∃ (m : CohMsg) (st : Nat ×
  Nat) (s : State), HomeOpens s .ncWr m ∧ s.sfState (s.homeOf m.line) m.line = st ∧ st.2 ≠ 0) :=
  ⟨⟨c0, 2, (sfl top 2 (2^11) base), (by decide +kernel)⟩, ⟨({ c0 with op := 2, flag := true }), ((1, 3)), (sfl top 1 3 base),
    (by decide +kernel), (by first | with_reducible rfl | decide +kernel), (by decide +kernel)⟩, ⟨({ c0 with op := 0 }), ((1,
    3)), (sfl top 1 3 base), (by decide +kernel), (by first | with_reducible rfl | decide +kernel), (by decide +kernel)⟩,
    ⟨({ c0 with src := 31 }), ((2, 2)), (sfl top 2 2 base), (by decide +kernel),
    (by first | with_reducible rfl | decide +kernel)⟩, ⟨({ c0 with src := 31, mask := 3, data := dd }), ((1, 2)), (sfl top 1 2
    base), (by decide +kernel), (by first | with_reducible rfl | decide +kernel), (by decide +kernel)⟩⟩

theorem witness_HomesOpenTransactions_3 : (∃ (m : CohMsg) (s : State), HomeOpens s .wb m ∧ s.sfState (s.homeOf m.line) m.line
  = (2, 1 <<< m.src) ∧ s.writeRoom m.line = true) ∧ (∃ (m : CohMsg) (x : HomeTxn) (s : State), HomeHears s .rdS m ∧ s.txnOn
  (s.homeOf m.line) m.line = some x ∧ s.entryFor (s.homeOf m.line) .rdS m = true) ∧ (∃ (m : CohMsg) (x : HomeTxn) (s : State),
  HomeHears s .wb m ∧ s.txnOn (s.homeOf m.line) m.line = some x ∧ x.stale = [(m.src, m.tag)] ∧ x.replied = false) ∧ (∃ (m :
  CohMsg) (s : State), ¬ s.stopped ∧ s.homeEcc (s.homeOf m.line) m.line = false ∧ m.malformed = false ∧ 0x10 ≤ m.src ∧ m.src <
  0x20 ∧ lineInHbm m.line = true) ∧ (∃ (m : CohMsg) (s : State), ¬ s.stopped ∧ s.homeEcc (s.homeOf m.line) m.line = false ∧ 2
  < m.op ∧ s.isSkelura m.src = false) :=
  ⟨⟨({ c0 with data := dd }), (sfl top 2 (2^11) (stM c0 base)), (by decide +kernel)⟩, ⟨({ c0 with reserved := true }), (tx .rdS
    .snpS 1), (withTx (tx .rdS .snpS 1) base), (by decide +kernel)⟩, ⟨({ c0 with tag := 9 }),
    ({ tx .rdS .snpS 1 with stale := [(11, 9)] }), (withTx { tx .rdS .snpS 1 with stale := [(11, 9)] } base),
    (by decide +kernel)⟩, ⟨({ c0 with src := 31 }), base, (by decide +kernel)⟩, ⟨({ c0 with op := 3, src := 31 }), base,
    (by decide +kernel)⟩⟩

theorem witness_HomesCompleteTransactions : (∃ (h : Fin 32) (l : Nat) (m : CohMsg) (st : Nat × Nat) (s : State), ¬ s.stopped ∧
  s.homeEcc h l = false ∧ s.txnOn h l = none ∧ m.line = l ∧ (s.home h).waiting.filter (fun p => p.2.line == l) = [(.rdS, m)] ∧
  s.sfState h l = st) ∧ (∃ (h : Fin 32) (l : Nat) (w : Nat) (x : HomeTxn) (s : State), ¬ s.stopped ∧ s.homeEcc h l = false ∧
  s.txnOn h l = some x ∧ x.allocWait = true ∧ x.req.line = l ∧ x.snoops ≠ 0 ∧ w < 16 ∧ (s.sfEnt h (sfSet l) w).valid = false)
  ∧ (∃ (m : CohMsg) (x : HomeTxn) (s : State), SnoopAnswered s m x) ∧ (∃ (m : CohMsg) (x : HomeTxn) (s : State), SnoopAnswered
  s m x ∧ DataTaken s m x) :=
  ⟨⟨(Fin.ofNat 32 (hm top)), top, c0, ((2, 1)), (sfl top 2 1 (base.setHome (hm top)
    { (default : Home) with waiting := [(.rdS, c0)] })), (by decide +kernel)⟩, ⟨(Fin.ofNat 32 (hm top)), top, 15,
    ({ tx .rdX .snpI 1 with allocWait := true }), (withTx { tx .rdX .snpI 1 with allocWait := true } base),
    (by decide +kernel)⟩, ⟨({ c0 with src := 1, data := dd, tag := 4 }), (tx .rdS .snpS 3), (sfl top 2 3 (withTx (tx .rdS
    .snpS 3) base)), (by decide +kernel)⟩, ⟨({ c0 with src := 1, data := dd, tag := 4 }), (tx .rdS .snpS 3), (sfl top 2 3
    (withTx (tx .rdS .snpS 3) (stM c0 base))), (by decide +kernel)⟩⟩

theorem witness_HomesCompleteTransactions_2 : (∃ (m : CohMsg) (x : HomeTxn) (s : State), SnoopAnswered s m x ∧ x.kind ≠ .ncWr
  ∧ s.writeRoom m.line = false) ∧ (∃ (m : CohMsg) (x : HomeTxn) (s : State), SnoopAnswered s m x ∧ x.snoopKind ≠ .snpI) ∧ (∃
  (m : CohMsg) (x : HomeTxn) (s : State), SnoopAnswered s m x ∧ x.snoopKind ≠ .snpI ∧ DataTaken s m x) ∧ (∃ (m : CohMsg) (x :
  HomeTxn) (s : State), HomeHears s .rspKd m ∧ s.txnOn (s.homeOf m.line) m.line = some x ∧ x.snoops = 1 <<< m.src ∧ x.held =
  [] ∧ x.kind = .rdS ∧ x.snoopKind = .snpS ∧ DataTaken s m x ∧ x.refused = false ∧ x.allocWait = false ∧ x.replied = false ∧
  x.asked ≠ 0) ∧ (∃ (m : CohMsg) (x : HomeTxn) (s : State), HomeHears s .fack m ∧ s.txnOn (s.homeOf m.line) m.line = some x ∧
  x.wantFack = true ∧ x.req.src = m.src ∧ x.replied = true ∧ x.stale = []) :=
  ⟨⟨({ c0 with src := 1, data := dd, tag := 4 }), (tx .rdS .snpS 3), (sfl top 2 3 (withTx (tx .rdS .snpS 3) (base.put
    (L.MC_STATUS.MODE (base.mcOf top)) mcRecovery))), (by decide +kernel)⟩, ⟨({ c0 with src := 1, data := dd }), (tx .rdS
    .snpS 3), (sfl top 2 3 (withTx (tx .rdS .snpS 3) base)), (by decide +kernel)⟩, ⟨({ c0 with src := 1, data := dd }), (tx
    .rdS .snpC 3), (sfl top 2 3 (withTx (tx .rdS .snpC 3) (stM c0 base))), (by decide +kernel)⟩,
    ⟨({ c0 with src := 1, data := dd }), (tx .rdS .snpS 2), (sfl top 2 2 (withTx (tx .rdS .snpS 2) (stM c0 base))),
    (by decide +kernel)⟩, ⟨({ c0 with src := 3 }), ({ tx .rdS .snpS 0 with replied := true, wantFack := true }), (sfl top 2 2
    (withTx { tx .rdS .snpS 0 with replied := true, wantFack := true } base)), (by decide +kernel)⟩⟩

theorem witness_HomesCompleteTransactions_3 : (∃ (m : CohMsg) (w : CohMsg) (x : HomeTxn) (s : State), HomeHears s .rspEvd m ∧
  s.txnOn (s.homeOf m.line) m.line = some x ∧ x.toWrite = none ∧ x.snoops.testBit m.src = true ∧ clearBit x.snoops m.src ≠ 0 ∧
  x.held = [] ∧ x.stale = [] ∧ DataTaken s m x ∧ (s.home (s.homeOf m.line)).waiting = [(.wb, w)] ∧ (s.home (s.homeOf
  m.line)).held = [] ∧ w.line = m.line ∧ w.src = m.src ∧ w.tag = m.tag) ∧ (∃ (m : CohMsg) (s : State), ¬ s.stopped ∧ s.txnOn
  (s.homeOf m.line) m.line = none ∧ s.isSkelura m.src = true) ∧ (∃ (m : CohMsg) (x : HomeTxn) (s : State), HomeHears s .rspK m
  ∧ s.txnOn (s.homeOf m.line) m.line = some x ∧ x.snoopKind = .snpI ∧ x.snoops.testBit m.src = true ∧ s.isSkelura m.src =
  false) ∧ (∃ (m : CohMsg) (s : State), HomeHears s .rspI m ∧ s.txnOn (s.homeOf m.line) m.line = none ∧ s.isSkelura m.src =
  false) ∧ (∃ (h : Fin 32) (l : Nat) (x : HomeTxn) (s : State), ¬ s.stopped ∧ s.txnOn h l = some x ∧ x.snoops ≠ 0) :=
  ⟨⟨({ c0 with src := 1, data := dd, tag := 4 }), ({ c0 with src := 1, data := dd, tag := 4 }), (tx .rdS .snpS 3), (sfl top 2 3
    ((stM c0 base).setHome (hm top)
    { (default : Home) with txns := [tx .rdS .snpS 3], waiting := [(.wb, { c0 with src := 1, data := dd, tag := 4 })] })),
    (by decide +kernel)⟩, ⟨({ c0 with src := 3 }), base, (by decide +kernel)⟩, ⟨({ c0 with src := 11 }), (tx .rdX .snpI 2048),
    ({ (withTx (tx .rdX .snpI 2048) base) with die := [(11, { (default : Die) with otherMake := true })] }),
    (by decide +kernel)⟩, ⟨({ c0 with src := 31 }), base, (by decide +kernel)⟩, ⟨(Fin.ofNat 32 (hm top)), top, (tx .rdS .snpS
    2), (withTx (tx .rdS .snpS 2) base), (by decide +kernel)⟩⟩

theorem witness_DiesAnswerSnoops : (∃ (d : Fin 12) (m : CohMsg) (s : State), DieHears s d m ∧ s.lineBusy d m.line = false ∧
  NoCopy s d m.line) ∧ (∃ (d : Fin 12) (m : CohMsg) (w : Nat) (x : CLine) (s : State), DieHears s d m ∧ s.lineBusy d m.line =
  false ∧ s.findWay d (uL3 (sliceOf m.line)) m.line = some w ∧ (∀ u, u < 45 → s.findWay d u m.line = none) ∧ s.cline d (uL3
  (sliceOf m.line)) (Machine.setOf (uL3 (sliceOf m.line)) m.line) w = x ∧ x.st < 2) ∧ (∃ (d : Fin 12) (m : CohMsg) (w : Nat)
  (x : CLine) (s : State), DieHears s d m ∧ s.lineBusy d m.line = false ∧ s.findWay d (uL3 (sliceOf m.line)) m.line = some w ∧
  (∀ u, u < 45 → s.findWay d u m.line = none) ∧ s.cline d (uL3 (sliceOf m.line)) (Machine.setOf (uL3 (sliceOf m.line)) m.line)
  w = x ∧ x.st = 2) ∧ (∃ (d : Fin 12) (m : CohMsg) (w : Nat) (x : CLine) (s : State), DieHears s d m ∧ s.lineBusy d m.line =
  false ∧ s.findWay d (uL3 (sliceOf m.line)) m.line = some w ∧ (∀ u, u < 45 → s.findWay d u m.line = none) ∧ s.cline d (uL3
  (sliceOf m.line)) (Machine.setOf (uL3 (sliceOf m.line)) m.line) w = x ∧ x.st = 2 ∧ m.flag = false) :=
  ⟨⟨11, c0, base, (by decide +kernel)⟩, ⟨11, c0, 15, (ln top 1), (l3 1), (by decide +kernel), (by decide +kernel),
    (by decide +kernel), (by first | decide +kernel | (intro v h; first | (cases h; done) | (cases h; decide +kernel))),
    (by first | with_reducible rfl | decide +kernel), (by decide +kernel)⟩, ⟨11, c0, 15, (ln top 2), (l3 2),
    (by decide +kernel), (by decide +kernel), (by decide +kernel),
    (by first | decide +kernel | (intro v h; first | (cases h; done) | (cases h; decide +kernel))),
    (by first | with_reducible rfl | decide +kernel), (by decide +kernel)⟩, ⟨11, c0, 15, (ln top 2), (l3 2),
    (by decide +kernel), (by decide +kernel), (by decide +kernel),
    (by first | decide +kernel | (intro v h; first | (cases h; done) | (cases h; decide +kernel))),
    (by first | with_reducible rfl | decide +kernel), (by decide +kernel)⟩⟩

theorem witness_DiesAnswerSnoops_2 : (∃ (d : Fin 12) (m : CohMsg) (w : Nat) (x : CLine) (s : State), DieHears s d m ∧
  s.lineBusy d m.line = false ∧ s.findWay d (uL3 (sliceOf m.line)) m.line = some w ∧ (∀ u, u < 45 → s.findWay d u m.line =
  none) ∧ s.cline d (uL3 (sliceOf m.line)) (Machine.setOf (uL3 (sliceOf m.line)) m.line) w = x ∧ x.st = 2 ∧ m.flag = true) ∧
  (∃ (d : Fin 12) (m : CohMsg) (x : SliceTxn) (s : State), DieHears s d m ∧ s.sliceTxn d m.line = x ∧ (x.st = .miA ∨ x.st =
  .mkA)) ∧ (∃ (d : Fin 12) (m : CohMsg) (x : SliceTxn) (s : State), DieHears s d m ∧ s.sliceTxn d m.line = x ∧ (x.st = .isD ∨
  x.st = .ixD)) ∧ (∃ (d : Fin 12) (m : CohMsg) (x : SliceTxn) (s : State), DieHears s d m ∧ s.sliceTxn d m.line = x ∧ x.st =
  .sxA) :=
  ⟨⟨11, ({ c0 with flag := true }), 15, (ln top 2), (l3 2), (by decide +kernel), (by decide +kernel), (by decide +kernel),
    (by first | decide +kernel | (intro v h; first | (cases h; done) | (cases h; decide +kernel))),
    (by first | with_reducible rfl | decide +kernel), (by decide +kernel)⟩, ⟨11, c0,
    ({ (default : SliceTxn) with st := .miA, tag := 255, data := dd }), (sl
    { (default : SliceTxn) with st := .miA, tag := 255, data := dd }), (by decide +kernel)⟩, ⟨11, c0,
    ({ (default : SliceTxn) with st := .isD, waiting := [acc .load] }), (sl
    { (default : SliceTxn) with st := .isD, waiting := [acc .load] }), (by decide +kernel)⟩, ⟨11, c0,
    ({ (default : SliceTxn) with st := .sxA, waiting := [acc (.store [1])] }), (sl
    { (default : SliceTxn) with st := .sxA, waiting := [acc (.store [1])] }), (by decide +kernel)⟩⟩

theorem witness_DiesTakeReplies : (∃ (d : Fin 12) (m : CohMsg) (s : State), DieHears s d m ∧ (s.sliceTxn d m.line).st = .isD)
  ∧ (∃ (d : Fin 12) (m : CohMsg) (s : State), DieHears s d m ∧ (s.sliceTxn d m.line).st = .isD ∨ (s.sliceTxn d m.line).st =
  .ixD) ∧ (∃ (d : Fin 12) (m : CohMsg) (s : State), DieHears s d m ∧ (s.sliceTxn d m.line).st = .sxA) ∧ (∃ (d : Fin 12) (m :
  CohMsg) (s : State), DieHears s d m ∧ (s.sliceTxn d m.line).st = .miA ∨ (s.sliceTxn d m.line).st = .mkA) ∧ (∃ (d : Fin 12)
  (m : CohMsg) (s : State), DieHears s d m ∧ (s.sliceTxn d m.line).st = .miA) :=
  ⟨⟨11, ({ c0 with data := dd }), (sl { (default : SliceTxn) with st := .isD, waiting := [acc .prefL2, acc (.store [1])] }),
    (by decide +kernel)⟩, ⟨11, ({ c0 with data := dd }), (sl
    { (default : SliceTxn) with st := .isD, waiting := [acc .prefL2, acc (.store [1])] }), (by decide +kernel)⟩, ⟨11,
    ({ c0 with data := dd }), gx, (by decide +kernel)⟩, ⟨11, ({ c0 with data := dd }), (sl
    { (default : SliceTxn) with st := .miA, waiting := [acc .load] }), (by decide +kernel)⟩, ⟨11, ({ c0 with data := dd }),
    (sl { (default : SliceTxn) with st := .miA, waiting := [acc .load] }), (by decide +kernel)⟩⟩

theorem witness_DiesTakeReplies_2 : (∃ (d : Fin 12) (m : CohMsg) (a : Access) (w : Nat) (s : State), DieHears s d m ∧
  (s.sliceTxn d m.line).st = .isD ∧ (s.sliceTxn d m.line).waiting = [a] ∧ a.line = m.line ∧ hartDie a.h = d.val ∧ s.ring = []
  ∧ (a.kind = .load ∨ a.kind = .fetch) ∧ m.poison = false ∧ w < 16 ∧ (s.cline d (uL2 (hartCluster a.h)) (Machine.setOf (uL2
  (hartCluster a.h)) m.line) w).valid = false) ∧ (∃ (d : Fin 12) (m : CohMsg) (a : Access) (b : List Nat) (w : Nat) (s :
  State), DieHears s d m ∧ (s.sliceTxn d m.line).st = .ixD ∧ (s.sliceTxn d m.line).waiting = [a] ∧ a.line = m.line ∧ hartDie
  a.h = d.val ∧ s.ring = [] ∧ (accIsAmo a = true ∧ m.poison = false ∨ ∃ e, a.kind = .store e) ∧ b = accStored a m.data ∧
  s.policy d a.sealed m.line ≠ 1 ∧ w < 16 ∧ (s.cline d (uL2 (hartCluster a.h)) (Machine.setOf (uL2 (hartCluster a.h)) m.line)
  w).valid = false) ∧ (∃ (d : Fin 12) (m : CohMsg) (a : Access) (b : List Nat) (x : CLine) (s : State), DieHears s d m ∧
  (s.sliceTxn d m.line).st = .sxA ∧ (s.sliceTxn d m.line).waiting = [a] ∧ a.line = m.line ∧ hartDie a.h = d.val ∧ s.ring = []
  ∧ a.kind = .store b ∧ s.policy d a.sealed m.line ≠ 1 ∧ s.copyIn d (uL2 (hartCluster a.h)) m.line = some x) ∧ (∃ (d : Fin 12)
  (m : CohMsg) (s : State), DieHears s d m ∧ (s.sliceTxn d m.line).waiting = [] ∧ s.ring = [] ∧ (s.sliceTxn d m.line).st =
  .miA ∨ (s.sliceTxn d m.line).st = .mkA) ∧ (∃ (d : Fin 12) (m : CohMsg) (s : State), DieHears s d m ∧ (s.sliceTxn d
  m.line).waiting = [] ∧ s.ring = [] ∧ (s.sliceTxn d m.line).st = .miA) ∧ (∃ (d : Fin 12) (m : CohMsg) (s : State), ¬
  s.stopped ∧ (s.dieSt d).otherMake = false ∧ s.lineBusy d m.line = false) :=
  ⟨⟨11, ({ c0 with data := dd }), (acc .load), 7, (sl { (default : SliceTxn) with st := .isD, waiting := [acc .load] }),
    (by decide +kernel)⟩, ⟨11, ({ c0 with data := dd }), (acc (.store [1, 2])), [1, 2], 7, (sl
    { (default : SliceTxn) with st := .ixD, waiting := [acc (.store [1, 2])] }), (by decide +kernel), (by decide +kernel),
    (by decide +kernel), (by decide +kernel), (by decide +kernel), (by decide +kernel),
    (by first | exact .inl (by decide +kernel) | exact .inr ⟨⟨_, rfl⟩, by decide +kernel⟩ | exact .inr ⟨_, rfl⟩ | exact .inr (.inl ⟨_, rfl⟩) | exact .inr (.inr ⟨⟨_, rfl⟩, by decide +kernel⟩)),
    (by decide +kernel)⟩, ⟨11, c0, (acc (.store [1, 2])), [1, 2], (ln top 0), gx, (by decide +kernel)⟩, ⟨11, c0, (sl
    { (default : SliceTxn) with st := .miA, tag := 255, data := dd }), (by decide +kernel)⟩, ⟨11, c0, (sl
    { (default : SliceTxn) with st := .miA, tag := 255, data := dd }), (by decide +kernel)⟩, ⟨11, c0, base,
    (by decide +kernel)⟩⟩

theorem witness_DiesTakeReplies_3 : (∃ (g : Fin 32) (m : CohMsg) (a : Access) (s : State), ¬ s.stopped ∧ g.val < 12 ∧ m.err =
  true ∧ (∀ v, m.vi = some v → s.get (L.VI_STATE.GEN (v / 32) (v % 32)) = m.gen) ∧ ((s.sliceTxn g m.line).st = .isD ∨
  (s.sliceTxn g m.line).st = .ixD ∨ (s.sliceTxn g m.line).st = .sxA) ∧ (s.sliceTxn g m.line).waiting = [a] ∧ a.line = m.line ∧
  hartDie a.h = g.val ∧ s.ring = [] ∧ NotOfDie s g m) ∧ (∃ (g : Fin 32) (m : CohMsg) (s : State), ¬ s.stopped ∧ g.val < 12 ∧
  m.err = true ∧ (∀ v, m.vi = some v → s.get (L.VI_STATE.GEN (v / 32) (v % 32)) = m.gen) ∧ ((s.sliceTxn g m.line).st = .miA ∨
  (s.sliceTxn g m.line).st = .mkA) ∧ (s.sliceTxn g m.line).waiting = [] ∧ s.ring = [] ∧ NotOfDie s g m) ∧ (∃ (g : Fin 32) (m :
  CohMsg) (v : Nat) (s : State), ¬ s.stopped ∧ m.vi = some v ∧ v < 256 ∧ s.get (L.VI_STATE.GEN (v / 32) (v % 32)) ≠ m.gen) ∧
  (∃ (g : Fin 32) (m : CohMsg) (r : DieReq) (s : State), ¬ s.stopped ∧ g.val < 12 ∧ (∀ v, m.vi = some v → s.get
  (L.VI_STATE.GEN (v / 32) (v % 32)) = m.gen) ∧ (s.dieSt g).sent = [r] ∧ r.waits = false ∧ r.txn = m.txn ∧ r.line = m.line) ∧
  (∃ (g : Fin 32) (m : CohMsg) (r : DieReq) (w : DieReq) (s : State), ¬ s.stopped ∧ g.val < 12 ∧ (∀ v, m.vi = some v → s.get
  (L.VI_STATE.GEN (v / 32) (v % 32)) = m.gen) ∧ (s.dieSt g).sent = [r, w] ∧ r.waits = false ∧ r.txn = m.txn ∧ r.line = m.line
  ∧ r.op = none ∧ m.err = false ∧ w.waits = true ∧ w.line = m.line ∧ w.op = some 1 ∧ hartDie w.h = g.val ∧ lineInHbm m.line =
  true ∧ s.lineOpen m.line = true) ∧ (∃ (g : Fin 32) (m : CohMsg) (s : State), (∀ v, m.vi = some v → s.get (L.VI_STATE.GEN (v
  / 32) (v % 32)) = m.gen) ∧ (12 ≤ g.val ∨ m.err = false ∧ NotOfDie s g m)) :=
  ⟨⟨11, ({ c0 with err := true }), (acc .load), (sl { (default : SliceTxn) with st := .isD, waiting := [acc .load] }),
    (by decide +kernel)⟩, ⟨11, ({ c0 with err := true }), (sl { (default : SliceTxn) with st := .mkA }), (by decide +kernel)⟩,
    ⟨31, vi2, 255, (st []), (by decide +kernel)⟩, ⟨11, c0, ⟨215, top, 5, some 1, true, false⟩, (base.setDie 11
    { (default : Die) with sent := [⟨215, top, 5, some 1, true, false⟩] }), (by decide +kernel)⟩, ⟨11, c0, ⟨214, top, 5, none,
    true, false⟩, ⟨215, top, 0, some 1, true, true⟩, ((withTx (tx .rdS .snpS 1) base).setDie 11
    { (default : Die) with sent := [⟨214, top, 5, none, true, false⟩, ⟨215, top, 0, some 1, true, true⟩] }),
    (by decide +kernel)⟩, ⟨31, c0, (st []), (by decide +kernel)⟩⟩

end W07

namespace W08

def dlS (l : List (Nat × Nat)) (r : List (Loc × Nat)) : State := st (l.map (fun p => (L.DL_STATUS.STATE p.1, p.2)) ++ r)
def lk (n : Nat) (x : Link) (s : State) : State := s.setLink n x
def peer : PeerParams := ⟨1, 2, 1, 0x5EC1, 2, [16, 32, 32, 32], 0, 0⟩
def cmsg (o : Nat) (vc : Fin 4) (d : Bool) : CdpMsg := ⟨o, true, 1, vc, d, false, true, 2, 255, 254, 65535, some 255, 253, 0xFFFFFFFFFFFF, (List.range (cdpTail o d false)).map (fun k => 2^128 - 1 - k)⟩
/-- A flit as the die sends it. -/
def wire (kind seq : Nat) (payload : Nat) (half : Option Bool := none) : BitVec 1024 := BitVec.ofNat 1024 (cdpFlit half kind seq (some 4094) [1, 2, 3, 15] payload)
def pay (ms : List CdpMsg) : Nat := packUnits (ms.flatMap cdpUnits)
abbrev x0 : Link := { (default : Link) with rxSeq := 4095, rxAny := true, txSeq := 3, replay := [⟨4093, 1, [(0, cmsg 1 0 false)]⟩, ⟨4094, 2, []⟩, ⟨0, 3, [(1, cmsg 4 1 true)]⟩], rxFree := [16, 32, 32, 32], owed := [0, 20, 0, 3], credit := [5, 6, 7, 8], winAt := 0 }
abbrev on : List (Loc × Nat) := [(L.PWR_DOM.STATE 22, 1), (L.PWR_DOM.STATE 23, 1), (L.PWR_DOM.STATE 0, 1), (L.PWR_DOM.STATE 1, 1)]
abbrev pit : List (Loc × Nat) := on ++ [(L.WLD_L3WAY.PITON 11 3, 4095), (L.WLD_L3WAY.OWNER 11 3, 0xFFFF)]
def hart : Issuer := ⟨true, none, 0, .hart 215⟩
def act (s : State) : State := s.setHart 215 { (default : Hart) with run := .run, mode := .m }
abbrev axo : List (Loc × Nat) := [(L.DL_CTRL.AXO_EN 47, 1), (L.DL_AXO_CFG.THR 47, 255), (L.DL_AXO_CFG.WINDOW 47, 3), (L.DL_LANE_CNT.WINDOW_CNT 47 15, 255), (L.DL_LANE_CNT.WINDOW_CNT 47 17, 255)]

theorem witness_LinksTrain : (∃ (n : Fin 48) (s : State), s.dlState n = dlDown ∧ (s.link n).wentDown = false ∧ s.get
  (L.DL_CTRL.HOLD n) = 0 ∧ s.domPowered (2 * (n.val / 4) + 1) = true) ∧ (∃ (n : Fin 48) (p : PeerParams) (spares : Nat) (s :
  State), s.exchanging n = true ∧ p.verMaj = 1 ∧ (p.cls.val = 1 ∨ p.cls.val = 2) ∧ (∀ k, k < 4 → s.dlState (4 * (n.val / 4) +
  k) = dlActive → s.get (L.DL_PEER.CLASS (4 * (n.val / 4) + k)) = p.cls.val) ∧ spares = (if p.spares.val = 0 then 0x30000 else
  0) ∧ p.failedRx = (s.get (L.DL_LANES_RX.FAILED n) ||| spares) ∧ p.failedTx = (s.get (L.DL_LANES_TX.FAILED n) ||| spares)) ∧
  (∃ (n : Fin 48) (p : PeerParams) (s : State), s.exchanging n = true ∧ p.verMaj = 1 ∧ (p.cls.val = 1 ∨ p.cls.val = 2) ∧ (∀ k,
  k < 4 → s.dlState (4 * (n.val / 4) + k) = dlActive → s.get (L.DL_PEER.CLASS (4 * (n.val / 4) + k)) = p.cls.val) ∧
  p.spares.val ≠ 0 ∧ s.recordAgrees n p = false ∧ (s.link n).forced = false) ∧ (∃ (n : Fin 48) (p : PeerParams) (s : State),
  s.exchanging n = true ∧ p.verMaj = 1 ∧ (p.cls.val = 1 ∨ p.cls.val = 2) ∧ (∀ k, k < 4 → s.dlState (4 * (n.val / 4) + k) =
  dlActive → s.get (L.DL_PEER.CLASS (4 * (n.val / 4) + k)) = p.cls.val) ∧ p.spares.val ≠ 0 ∧ s.recordAgrees n p = false ∧
  (s.link n).forced = true ∧ s.get (L.DL_STATUS.EXCH_FAIL n) < 2) :=
  ⟨⟨47, (dlS [] [(L.PWR_DOM.STATE 23, 1), (L.DL_CNT.LNAK 47, 5), (L.DL_LANE_CNT.TOTAL 47 35, 7)]), (by decide +kernel)⟩, ⟨47,
    peer, ((if (peer : PeerParams).spares.val = 0 then 0x30000 else 0)), (lk 47 { x0 with forced := true } (dlS [(47,
    dlTrain)] [])), (by decide +kernel), (by decide +kernel), (by decide +kernel),
    (by first | decide +kernel | (intro v h; first | (cases h; done) | (cases h; decide +kernel))),
    (by first | with_reducible rfl | decide +kernel), (by decide +kernel)⟩, ⟨47, ({ peer with failedRx := 1 }), ((dlS [(47,
    dlRetrainSt), (44, dlActive)] [(L.DL_PEER.CLASS 44, 1), (L.DL_STATUS.EXCH_FAIL 47, 2)])), (by decide +kernel)⟩, ⟨47,
    ({ peer with failedTx := 1 }), (lk 47 { x0 with forced := true } (dlS [(47, dlTrain)] [(L.DL_STATUS.EXCH_FAIL 47, 1)])),
    (by decide +kernel)⟩⟩

theorem witness_LinksTrain_2 : (∃ (n : Fin 48) (p : PeerParams) (s : State), s.exchanging n = true ∧ p.verMaj = 1 ∧ (p.cls.val
  = 1 ∨ p.cls.val = 2) ∧ (∀ k, k < 4 → s.dlState (4 * (n.val / 4) + k) = dlActive → s.get (L.DL_PEER.CLASS (4 * (n.val / 4) +
  k)) = p.cls.val) ∧ p.spares.val ≠ 0 ∧ s.recordAgrees n p = false ∧ (s.link n).forced = true ∧ 2 ≤ s.get
  (L.DL_STATUS.EXCH_FAIL n)) ∧ (∃ (n : Fin 48) (p : PeerParams) (s : State), s.exchanging n = true ∧ p.verMaj ≠ 1 ∧ s.get
  (L.DL_STATUS.EXCH_FAIL n) < 2) ∧ (∃ (n : Fin 48) (p : PeerParams) (s : State), s.exchanging n = true ∧ p.verMaj ≠ 1 ∧ 2 ≤
  s.get (L.DL_STATUS.EXCH_FAIL n)) ∧ (∃ (n : Fin 48) (s : State), s.exchanging n = true ∧ s.get (L.DL_STATUS.EXCH_FAIL n) < 2)
  ∧ (∃ (n : Fin 48) (rx : Nat) (tx : Nat) (ok : Bool) (half : Option Bool) (s : State), (s.dlState n = dlTrain ∨ s.dlState n =
  dlRetrainSt) ∧ (s.link n).exchanged = true ∧ rx < 2 ^ 18 ∧ tx < 2 ^ 18 ∧ widthOf (s.get (L.DL_LANES_RX.FAILED n) ||| rx)
  (s.get (L.DL_LANES_TX.FAILED n) ||| tx) = some half ∧ (∀ k, k < 4 → (s.link (4 * (n.val / 4) + k)).txWait = [] ∧ (s.link (4
  * (n.val / 4) + k)).resend = [])) :=
  ⟨⟨47, ({ peer with failedTx := 1 }), (lk 47 { x0 with forced := true } (dlS [(47, dlTrain)] [(L.DL_STATUS.EXCH_FAIL 47, 2)])),
    (by decide +kernel)⟩, ⟨47, ({ peer with verMaj := 2 }), (dlS [(47, dlTrain)] [(L.DL_STATUS.EXCH_FAIL 47, 1)]),
    (by decide +kernel)⟩, ⟨47, ({ peer with verMaj := 2 }), (dlS [(47, dlTrain)] [(L.DL_STATUS.EXCH_FAIL 47, 2)]),
    (by decide +kernel)⟩, ⟨47, (lk 47 { x0 with trainAt := 99 } (dlS [(47, dlTrain)] [(L.DL_STATUS.EXCH_FAIL 47, 1)])),
    (by decide +kernel)⟩, ⟨47, 0, 0, true, none, (lk 47 { x0 with exchanged := true } (dlS [(47, dlTrain)] [(L.DL_PEER.CLASS
    47, 1)])), (by decide +kernel)⟩⟩

theorem witness_LinksTrain_3 : (∃ (n : Fin 48) (rx : Nat) (tx : Nat) (ok : Bool) (s : State), (s.dlState n = dlTrain ∨
  s.dlState n = dlRetrainSt) ∧ (s.link n).exchanged = true ∧ rx < 2 ^ 18 ∧ tx < 2 ^ 18 ∧ widthOf (s.get (L.DL_LANES_RX.FAILED
  n) ||| rx) (s.get (L.DL_LANES_TX.FAILED n) ||| tx) = none) ∧ (∃ (c : Issuer) (n : Fin 48) (v : Word) (s : State), Sends s c
  ∧ c.sealed = true ∧ v.getLsbD 3 = false ∧ v.getLsbD 2 = true) ∧ (∃ (c : Issuer) (n : Fin 48) (v : Word) (s : State), Sends s
  c ∧ c.sealed = true ∧ v.getLsbD 3 = false ∧ v.getLsbD 2 = false ∧ v.getLsbD 1 = true) ∧ (∃ (c : Issuer) (n : Fin 48) (v :
  Word) (s : State), Sends s c ∧ c.sealed = true ∧ v.getLsbD 3 = true ∧ v.getLsbD 2 = false ∧ v.getLsbD 1 = false ∧ (s.dlState
  n = dlDown ∨ s.dlState n = dlHeld)) ∧ (∃ (c : Issuer) (n : Fin 48) (v : Word) (s : State), Sends s c ∧ (c.sealed = false ∨
  v.getLsbD 3 = true ∧ s.dlState n ≠ dlDown ∧ s.dlState n ≠ dlHeld)) :=
  ⟨⟨47, (2^18-1), (2^18-1), true, (lk 47 { x0 with exchanged := true } (dlS [(47, dlTrain)] [])), (by decide +kernel)⟩, ⟨newtS,
    47, 7, (dlS [(47, dlActive)] []), (by decide +kernel)⟩, ⟨newtS, 47, 3, (dlS [(47, dlActive)] []), (by decide +kernel)⟩,
    ⟨newtS, 47, 9, (dlS [(47, dlHeld)] [(L.DL_LANES_RX.FAILED 47, 1)]), (by decide +kernel)⟩, ⟨devO, 47, 0, (dlS [(47,
    dlHeld)] []), (by decide +kernel)⟩⟩

theorem witness_LinksRepairAndKeepTime : (∃ (n : Fin 48) (lane : Fin 18) (idle : Nat) (lg : Nat) (sp : Nat) (s : State),
  s.logicalLane n false lane = some lg ∧ s.up < (s.link n).winAt + 1000 * max 1 (s.get (L.DL_AXO_CFG.WINDOW n)) ∧ s.get
  (L.DL_AXO_CFG.THR n) ≤ s.get (L.DL_LANE_CNT.WINDOW_CNT n lane) ∧ (s.get (L.DL_LANES_RX.FAILED n)).testBit lane = false ∧
  s.dlState n = dlActive ∧ (s.link n).action = .none ∧ s.get (L.DL_CTRL.AXO_EN n) = 0) ∧ (∃ (n : Fin 48) (lane : Fin 18) (idle
  : Nat) (lg : Nat) (sp : Nat) (s : State), s.logicalLane n false lane = some lg ∧ s.up < (s.link n).winAt + 1000 * max 1
  (s.get (L.DL_AXO_CFG.WINDOW n)) ∧ s.get (L.DL_AXO_CFG.THR n) ≤ s.get (L.DL_LANE_CNT.WINDOW_CNT n lane) ∧ (s.get
  (L.DL_LANES_RX.FAILED n)).testBit lane = false ∧ s.dlState n = dlActive ∧ (s.link n).action = .none ∧ s.get
  (L.DL_CTRL.AXO_EN n) = 1 ∧ (s.freeSpares n false).head? = some sp ∧ lg < 16 ∧ (s.get (L.DL_STATUS.X8 n) = 1 ∨ widthOf (s.get
  (L.DL_LANES_RX.FAILED n) ||| 1 <<< lane.val) (s.get (L.DL_LANES_TX.FAILED n)) = some none)) ∧ (∃ (n : Fin 48) (lane : Fin
  18) (idle : Nat) (lg : Nat) (sp : Nat) (s : State), s.logicalLane n false lane = some lg ∧ s.up < (s.link n).winAt + 1000 *
  max 1 (s.get (L.DL_AXO_CFG.WINDOW n)) ∧ s.get (L.DL_AXO_CFG.THR n) ≤ s.get (L.DL_LANE_CNT.WINDOW_CNT n lane) ∧ (s.get
  (L.DL_LANES_RX.FAILED n)).testBit lane = false ∧ s.dlState n = dlActive ∧ (s.link n).action = .none ∧ s.get
  (L.DL_CTRL.AXO_EN n) = 1 ∧ s.get (L.DL_STATUS.X8 n) = 0) ∧ (∃ (n : Fin 48) (lane : Fin 18) (idle : Nat) (lg : Nat) (sp :
  Nat) (s : State), s.logicalLane n false lane = some lg ∧ s.up < (s.link n).winAt + 1000 * max 1 (s.get (L.DL_AXO_CFG.WINDOW
  n)) ∧ s.get (L.DL_AXO_CFG.THR n) ≤ s.get (L.DL_LANE_CNT.WINDOW_CNT n lane) ∧ (s.get (L.DL_LANES_RX.FAILED n)).testBit lane =
  false ∧ s.dlState n = dlActive ∧ (s.link n).action = .none ∧ s.get (L.DL_CTRL.AXO_EN n) = 1 ∧ lg < 16 ∧ (s.get
  (L.DL_STATUS.X8 n) = 1 ∧ s.freeSpares n false = [] ∨ s.get (L.DL_STATUS.X8 n) = 0 ∧ widthOf (s.get (L.DL_LANES_RX.FAILED n)
  ||| 1 <<< lane.val) (s.get (L.DL_LANES_TX.FAILED n)) = none)) ∧ (∃ (n : Fin 48) (lane : Fin 18) (idle : Nat) (s : State), 16
  ≤ lane.val ∧ s.logicalLane n false lane = none ∧ s.up < (s.link n).winAt + 1000 * max 1 (s.get (L.DL_AXO_CFG.WINDOW n)) ∧
  (s.get (L.DL_LANES_RX.FAILED n)).testBit lane = false ∧ s.dlState n = dlActive ∧ (s.link n).action = .none) ∧ (∃ (n : Fin
  48) (lane : Fin 18) (errors : Nat) (lg : Nat) (sp : Nat) (s : State), lane.val < 16 ∧ s.logicalLane n true lane = some lg ∧
  s.up < (s.link n).winAt + 1000 * max 1 (s.get (L.DL_AXO_CFG.WINDOW n)) ∧ (s.get (L.DL_LANES_TX.FAILED n)).testBit lane =
  false ∧ s.get (L.DL_CTRL.AXO_EN n) = 1 ∧ s.dlState n = dlActive ∧ (s.link n).action = .none ∧ (s.freeSpares n true).head? =
  some sp ∧ (s.get (L.DL_STATUS.X8 n) = 1 ∨ widthOf (s.get (L.DL_LANES_RX.FAILED n)) (s.get (L.DL_LANES_TX.FAILED n) ||| 1 <<<
  lane.val) = some none)) :=
  ⟨⟨47, 15, 0, 15, 17, (dlS [(47, dlActive)] (axo ++ [(L.DL_CTRL.AXO_EN 47, 0)])), (by decide +kernel)⟩, ⟨47, 15, 0, 15, 16,
    (dlS [(47, dlActive)] axo), (by decide +kernel)⟩, ⟨47, 15, 0, 15, 16, (dlS [(47, dlActive)] axo), (by decide +kernel)⟩,
    ⟨47, 15, 0, 15, 17, (dlS [(47, dlActive)] (axo ++ [(L.DL_LANES_RX.FAILED 47, 0x34008), (L.DL_LANES_TX.FAILED 47,
    0x3FFFF)])), (by decide +kernel)⟩, ⟨47, 17, 1, (dlS [(47, dlActive)] axo), (by decide +kernel)⟩, ⟨47, 15, 9, 15, 17, (dlS
    [(47, dlActive)] (axo ++ [(L.DL_LANES_TX.SP0_FOR 47, 3), (L.DL_LANES_TX.FAILED 47, 8), (L.DL_LANE_CNT.TOTAL 47 33, 5)])),
    (by decide +kernel)⟩⟩

theorem witness_LinksRepairAndKeepTime_2 : (∃ (n : Fin 48) (fixes : List (Bool × Nat × Nat)) (s : State), (s.link n).action =
  .spare fixes ∧ (∀ f ∈ fixes, f.2.1 < 16 ∧ (f.2.2 = 16 ∨ f.2.2 = 17)) ∧ fixes.Pairwise (fun a b => a.1 = b.1 → a.2.1 ≠ b.2.1
  ∧ a.2.2 ≠ b.2.2) ∧ fixes.any (fun f => !f.1) = true ∧ (s.link n).copyGood < 64) ∧ (∃ (n : Fin 48) (fixes : List (Bool × Nat
  × Nat)) (s : State), (s.link n).action = .spare fixes ∧ (∀ f ∈ fixes, f.2.1 < 16 ∧ (f.2.2 = 16 ∨ f.2.2 = 17)) ∧
  fixes.Pairwise (fun a b => a.1 = b.1 → a.2.1 ≠ b.2.1 ∧ a.2.2 ≠ b.2.2) ∧ fixes.any (fun f => !f.1) = true ∧ 64 ≤ (s.link
  n).copyGood ∧ (s.link n).waitLanes = []) ∧ (∃ (n : Fin 48) (fixes : List (Bool × Nat × Nat)) (s : State), (s.link n).action
  = .spare fixes ∧ (∀ f ∈ fixes, f.2.1 < 16 ∧ (f.2.2 = 16 ∨ f.2.2 = 17)) ∧ fixes.Pairwise (fun a b => a.1 = b.1 → a.2.1 ≠
  b.2.1 ∧ a.2.2 ≠ b.2.2) ∧ fixes.any (fun f => !f.1) = false ∧ (s.link n).waitLanes = []) ∧ (∃ (n : Fin 48) (late : Fin 11) (u
  : Bool) (s : State), (s.link n).action = .narrow u ∧ (s.link n).waitLanes = []) ∧ (∃ (n : Fin 48) (late : Fin 11) (s :
  State), (s.link n).action = .down) ∧ (∃ (n : Fin 48) (s : State), s.get (L.DL_STATUS.TIME_OK n) = 1) :=
  ⟨⟨47, [(true, 15, 17), (false, 3, 16)], (lk 47 { x0 with action := .spare [(true, 15, 17), (false, 3, 16)], copyGood := 63 }
    (dlS [(47, dlActive)] [])), (by decide +kernel)⟩, ⟨47, [(true, 15, 17), (false, 3, 16)], (lk 47
    { x0 with action := .spare [(true, 15, 17), (false, 3, 16)], copyGood := 64 } (dlS [(47, dlActive)] [])),
    (by decide +kernel)⟩, ⟨47, [(true, 15, 17), (true, 3, 16)], (lk 47
    { x0 with action := .spare [(true, 15, 17), (true, 3, 16)], copyGood := 0 } (dlS [(47, dlActive)] [(L.DL_LANES_TX.SP0_FOR
    47, 15)])), (by decide +kernel)⟩, ⟨47, 10, true, (lk 47 { x0 with action := .narrow true, decidedAt := 10 } (dlS [(47,
    dlActive)] [])), (by decide +kernel)⟩, ⟨47, 10, (lk 47 { x0 with action := .down, decidedAt := 10 } (dlS [(47, dlActive)]
    [])), (by decide +kernel)⟩, ⟨47, (dlS [(47, dlActive)] [(L.DL_STATUS.TIME_OK 47, 1)]), (by decide +kernel)⟩⟩

theorem witness_LinksCarryTraffic : (∃ (n : Fin 48) (w : BitVec 1024) (ms : List CdpMsg) (s : State), FlitTaken s n w.toNat ∧
  LinkQuiet s n ∧ cdpKind w.toNat = kindMsg ∧ (s.link n).rxPart = default ∧ (s.link n).owed.length = 4 ∧ (∀ m ∈ ms, MsgFits
  (s.dieSt (n.val / 4)) m) ∧ ((ms.filter (fun m => m.opcode == 0x32)).map CdpMsg.txn).Nodup ∧ (ms.flatMap cdpUnits).length ≤ 7
  ∧ cdpPayload w.toNat = packUnits (ms.flatMap cdpUnits) ∧ (∀ v, v < 4 → unitsOn ms v ≤ (s.link n).rxFree.getD v 0)) ∧ (∃ (n :
  Fin 48) (w : BitVec 1024) (s : State), FlitTaken s n w.toNat ∧ LinkQuiet s n ∧ cdpKind w.toNat = kindIdle) ∧ (∃ (n : Fin 48)
  (w : BitVec 1024) (s : State), s.dlState n = dlActive ∧ cdpGood (s.linkHalf n) w.toNat = true ∧ cdpSeq w.toNat ≠ (s.link
  n).rxSeq) ∧ (∃ (n : Fin 48) (w : BitVec 1024) (s : State), s.dlState n = dlActive ∧ cdpGood (s.linkHalf n) w.toNat = false ∧
  (s.link n).rxFail = none) ∧ (∃ (n : Fin 48) (w : BitVec 1024) (s : State), s.dlState n = dlActive ∧ cdpGood (s.linkHalf n)
  w.toNat = false ∧ (s.link n).rxFail = some (cdpSeq w.toNat)) ∧ (∃ (n : Fin 48) (w : BitVec 1024) (seq : Nat) (s : State),
  FlitTaken s n w.toNat ∧ LinkQuiet s n ∧ cdpKind w.toNat = kindLnak ∧ seq < 4096 ∧ bits (cdpPayload w.toNat) 19 0 =
  lnakPayload 0 seq ∧ ((s.link n).took w.toNat).txRefused ≠ some seq) :=
  ⟨⟨47, (wire 1 4095 (pay [cmsg 0x26 2 false, cmsg 0x31 3 false, cmsg 1 3 false])), [cmsg 0x26 2 false, cmsg 0x31 3 false, cmsg
    1 3 false], (lk 47 x0 (dlS [(47, dlActive)] [])), (by decide +kernel)⟩, ⟨47, (wire 0 4095 0), (lk 47
    { x0 with rxFail := some 4095, txRefused := some 4093 } (dlS [(47, dlActive)] [])), (by decide +kernel)⟩, ⟨47, (wire 1
    4094 5), (lk 47 x0 (dlS [(47, dlActive)] [])), (by decide +kernel)⟩, ⟨47, (wire 1 4095 5 ^^^ (1 <<< 100)), (lk 47 x0 (dlS
    [(47, dlActive)] [])), (by decide +kernel)⟩, ⟨47, (wire 3 7 5 ^^^ (1 <<< 100)), (lk 47 { x0 with rxFail := some 7 } (dlS
    [(47, dlActive)] [])), (by decide +kernel)⟩, ⟨47, (wire 2 4095 (lnakPayload 0 4094)), 4094, (lk 47 x0 (dlS [(47,
    dlActive)] [(L.DL_CNT.REPLAY 47, 2^24-1)])), (by decide +kernel)⟩⟩

theorem witness_LinksCarryTraffic_2 : (∃ (n : Fin 48) (w : BitVec 1024) (seq : Nat) (s : State), FlitTaken s n w.toNat ∧
  LinkQuiet s n ∧ cdpKind w.toNat = kindLnak ∧ seq < 4096 ∧ bits (cdpPayload w.toNat) 19 0 = lnakPayload 0 seq ∧ ((s.link
  n).took w.toNat).txRefused = some seq) ∧ (∃ (n : Fin 48) (w : BitVec 1024) (s : State), FlitTaken s n w.toNat ∧ LinkQuiet s
  n ∧ cdpKind w.toNat = kindLnak ∧ bits (cdpPayload w.toNat) 7 0 ≠ 0) ∧ (∃ (n : Fin 48) (w : BitVec 1024) (k : Nat) (last :
  Nat) (s : State), FlitTaken s n w.toNat ∧ LinkQuiet s n ∧ cdpKind w.toNat = kindResume ∧ k = 4 * (n.val / 4) + bits
  (cdpPayload w.toNat) 1 0 ∧ last = bits (cdpPayload w.toNat) 13 2 ∧ s.dlState k ≠ dlActive) ∧ (∃ (n : Fin 48) (w : BitVec
  1024) (k : Nat) (last : Nat) (s : State), FlitTaken s n w.toNat ∧ LinkQuiet s n ∧ cdpKind w.toNat = kindResume ∧ k = 4 *
  (n.val / 4) + bits (cdpPayload w.toNat) 1 0 ∧ last = bits (cdpPayload w.toNat) 13 2 ∧ s.dlState k = dlActive ∧ (s.link
  k).lost = []) ∧ (∃ (n : Fin 48) (w : BitVec 1024) (k : Nat) (last : Nat) (sl : Nat) (m : CdpMsg) (s : State), FlitTaken s n
  w.toNat ∧ LinkQuiet s n ∧ cdpKind w.toNat = kindResume ∧ k = 4 * (n.val / 4) + bits (cdpPayload w.toNat) 1 0 ∧ last = bits
  (cdpPayload w.toNat) 13 2 ∧ last < 4096 ∧ s.dlState k ≠ dlActive ∧ (s.link k).lost = [((last + 1) % 4096, sl, m)] ∧
  s.carrier (n.val / 4) sl = some n.val ∧ unitCount m ≤ 7 ∧ unitCount m ≤ ((s.link n).took w.toNat).credit.getD m.vc 0 ∧
  ((s.link n).took w.toNat).replay.length < 64) ∧ (∃ (n : Fin 48) (w : BitVec 1024) (code : Nat) (s : State), s.dlState n =
  dlActive ∧ cdpGood (s.linkHalf n) w.toNat = true ∧ cdpSeq w.toNat = (s.link n).rxSeq ∧ LinkQuiet s n ∧ ((3 < cdpKind w.toNat
  ∨ cdpReserved w.toNat = true) ∧ code = 0x01 ∨ FlitTaken s n w.toNat ∧ cdpKind w.toNat = kindMsg ∧ (s.link n).rxPart =
  default ∧ (∀ k, k < 7 → 0 < k → bits (cdpPayload w.toNat) (128 * k + 127) (128 * k) = 0) ∧ bits (cdpPayload w.toNat) 7 0 ≠ 0
  ∧ (cdpOpcodeOk (bits (cdpPayload w.toNat) 7 0) = false ∧ code = 0x03 ∨ cdpOpcodeOk (bits (cdpPayload w.toNat) 7 0) = true ∧
  headerReserved (bits (cdpPayload w.toNat) 127 0) = false ∧ (s.link n).rxFree.getD (bits (cdpPayload w.toNat) 12 11) 0 < 1 +
  s.tailIn n (bits (cdpPayload w.toNat) 127 0) ∧ code = 0x02))) :=
  ⟨⟨47, (wire 2 4095 (lnakPayload 0 4095)), 4095, (lk 47 { x0 with txRefused := some 4095 } (dlS [(47, dlActive)] [])),
    (by decide +kernel)⟩, ⟨47, (wire 2 4095 (lnakPayload 255 4095)), (lk 47 x0 (dlS [(47, dlActive)] [])),
    (by decide +kernel)⟩, ⟨47, (wire 3 4095 (resumePayload 0 4094)), (4 * ((47 : Fin 48).val / 4) + bits (cdpPayload (wire 3
    4095 (resumePayload 0 4094) : BitVec 1024).toNat) 1 0), (bits (cdpPayload (wire 3 4095 (resumePayload 0 4094) : BitVec
    1024).toNat) 13 2), (lk 44
    { x0 with lost := [(4093, 0, cmsg 1 0 false), (4095, 0, cmsg 7 2 true), (0, 1, cmsg 2 0 false), (1, 3, cmsg 3 0 false)] }
    (lk 47 x0 (dlS [(47, dlActive)] []))), (by decide +kernel), (by decide +kernel), (by decide +kernel),
    (by first | with_reducible rfl | decide +kernel), (by first | with_reducible rfl | decide +kernel), (by decide +kernel)⟩,
    ⟨47, (wire 3 4095 (resumePayload 0 4094)), (4 * ((47 : Fin 48).val / 4) + bits (cdpPayload (wire 3 4095 (resumePayload 0
    4094) : BitVec 1024).toNat) 1 0), (bits (cdpPayload (wire 3 4095 (resumePayload 0 4094) : BitVec 1024).toNat) 13 2), (lk
    44 { x0 with lost := [] } (lk 47 x0 (dlS [(47, dlActive), (44, dlActive)] []))), (by decide +kernel), (by decide +kernel),
    (by decide +kernel), (by first | with_reducible rfl | decide +kernel), (by first | with_reducible rfl | decide +kernel),
    (by decide +kernel)⟩, ⟨47, (wire 3 4095 (resumePayload 0 4094)), (4 * ((47 : Fin 48).val / 4) + bits (cdpPayload (wire 3
    4095 (resumePayload 0 4094) : BitVec 1024).toNat) 1 0), (bits (cdpPayload (wire 3 4095 (resumePayload 0 4094) : BitVec
    1024).toNat) 13 2), 0, (cmsg 7 2 true), (lk 44 { x0 with lost := [(4095, 0, cmsg 7 2 true)] } (lk 47 x0 (dlS [(47,
    dlActive)] []))), (by decide +kernel), (by decide +kernel), (by decide +kernel),
    (by first | with_reducible rfl | decide +kernel), (by first | with_reducible rfl | decide +kernel), (by decide +kernel)⟩,
    ⟨47, (wire 4 4095 0), 1, (lk 47 x0 (dlS [(47, dlActive)] [])), (by decide +kernel)⟩⟩

theorem witness_LinksCarryTraffic_3 : (∃ (die : Fin 12) (c : Issuer) (a : PAddr) (d : Nat) (n : Nat) (v : Word) (s : State),
  s.dieLinked die = true ∧ Sends s c ∧ c.agent ≠ .newt ∧ 0 < n ∧ n ≤ 8 ∧ PitonServes s c a (.load n) d) ∧ (∃ (die : Fin 12) (c
  : Issuer) (a : PAddr) (d : Nat) (n : Nat) (v : Word) (s : State), s.dieLinked die = true ∧ Sends s c ∧ c.agent ≠ .newt ∧ 0 <
  n ∧ n ≤ 8 ∧ PitonServes s c a (.store (bytesLE n v.toNat)) d ∧ s.devAsked = none) ∧ (∃ (die : Fin 12) (c : Issuer) (a :
  PAddr) (n : Nat) (v : Word) (s : State), s.dieLinked die = true ∧ s.agentIn c = true ∧ c.agent ≠ .newt ∧ 0x8000000000 ≤
  a.toNat ∧ a.toNat < 0x10000000000 ∧ s.pmpStops c a.toNat n pmpR = false) ∧ (∃ (die : Fin 12) (c : Issuer) (a : PAddr) (n :
  Nat) (v : Word) (s : State), s.dieLinked die = true ∧ s.agentIn c = true ∧ c.agent ≠ .newt ∧ 0x8000000000 ≤ a.toNat ∧
  a.toNat < 0x10000000000 ∧ s.pmpStops c a.toNat n pmpW = false ∧ s.devAsked = none) ∧ (∃ (die : Fin 12) (c : Issuer) (a :
  PAddr) (n : Nat) (v : Word) (s : State), s.dieLinked die = true ∧ s.agentIn c = true ∧ c.agent ≠ .newt ∧ 0x8000000000 ≤
  a.toNat ∧ a.toNat < 0x10000000000 ∧ s.pmpStops c a.toNat n pmpW = true ∧ s.devAsked = none) ∧ (∃ (die : Fin 12) (err : Bool)
  (v : Word) (s : State), s.dieLinked die = true) :=
  ⟨⟨11, hart, (BitVec.ofNat 48 (pitonBase 11 3 15 + 0xBFFF8)), 11, 8, 0x8123456789abcdef, (act (State.sets (dlS [(47, dlActive)]
    pit) [])), (by decide +kernel), (by decide +kernel), (by decide +kernel), (by decide +kernel), (by decide +kernel),
    (by first | exact serves 3 15 0xBFFF8 (by decide +kernel) (by decide) (by decide +kernel) (by decide +kernel) | exact serves 3 15 0xBFFE0 (by decide +kernel) (by decide) (by decide +kernel) (by decide +kernel) | exact serves 3 15 320 (by decide +kernel) (by decide) (by decide +kernel) (by decide +kernel))⟩,
    ⟨11, hart, (BitVec.ofNat 48 (pitonBase 11 3 15 + 0xBFFF8)), 11, 8, 0x8123456789abcdef, (act (State.sets (dlS [(47,
    dlActive)] pit) [])), (by decide +kernel), (by decide +kernel), (by decide +kernel), (by decide +kernel),
    (by decide +kernel),
    (by first | exact serves 3 15 0xBFFF8 (by decide +kernel) (by decide) (by decide +kernel) (by decide +kernel) | exact serves 3 15 0xBFFE0 (by decide +kernel) (by decide) (by decide +kernel) (by decide +kernel) | exact serves 3 15 320 (by decide +kernel) (by decide) (by decide +kernel) (by decide +kernel)),
    (by decide +kernel)⟩, ⟨11, hart, 0x8000000000, 8, 1, (act (dlS [(47, dlActive)] on)), (by decide +kernel)⟩, ⟨11, hart,
    0x8000000000, 8, 1, (act (dlS [(47, dlActive)] on)), (by decide +kernel)⟩, ⟨11, hart, 0xFFFFFFFFFF, 1, 1, ((dlS [(47,
    dlActive)] on).setHart 215 { (default : Hart) with run := .run, mode := .s }), (by decide +kernel)⟩, ⟨11, true, 5, (dlS
    [(47, dlActive)] []), (by decide +kernel)⟩⟩

end W08

namespace W09

def cm (o : Nat) (cls : Fin 4) : CdpMsg := ⟨o, true, cls, 1, false, false, false, 0, 3, 5, 77, none, 0, 0x40, []⟩
def pk : MeshPkt := ⟨.coh .rdS, cm 1 1, false, false, 0, 0, 0, 99, 3, newtS⟩
def rp : MeshPkt := ⟨.coh .cmp, cm 0x26 1, false, false, 0, 0, 0, 23, 0, newtS⟩
def sn : MeshPkt := ⟨.coh .snpI, cm 0x11 1, false, false, 2^11, 91, 0, 0, 0, newtS⟩
def mesh (s : State) (f : Mesh → Mesh) : State := { s with mesh := f s.mesh }
def flt : MeshFlit := ⟨0, true, 12345 + (0b0100 + 2 <<< 36 + 5 <<< 41) <<< 512⟩
def flt0 : MeshFlit := ⟨0, true, 12345⟩
def hold : State := mesh (st [(L.NOC_NI_RT.LEN 0 1 99, 3), (L.NOC_EPOCH.EPOCH, 7)]) (fun m => { m with next := 1, flights := [(0, some ⟨pk, 1, 6⟩)] })
def atBuf (n plane port vc : Nat) (f : MeshFlit) (l : List (Loc × Nat) := []) : State := mesh (st l) (fun m => { m with next := 1, flights := [(0, some ⟨rp, 1, 0⟩)], buf := SMap.set m.buf (bufKey n plane port vc) [f, { f with pkt := 4 }] })
def g0 : VcGrant := ⟨500, true, []⟩
def g1 : VcGrant := ⟨500000, false, [(1280, 0), (1280, 0), (1280, 0), (1280, 0)]⟩
def withG (l : List (Loc × Nat)) : State := mesh (st l) (fun m => { m with grants := [(255, some g0)] })
def covered : State := mesh (st [(L.NOC_RSV_PATH.EN 7, 1), (L.NOC_RSV_PATH.DST 7, 0xFFFF), (L.NOC_RSV_PATH.SRC 7, 0), (L.NOC_RSV_PATH.BURST 7, 16)]) (fun m => { m with grants := [(7, some g1)] })
def pr : MeshPkt := { pk with msg := cm 1 0, src := 20, dst := 91, dport := 0 }

theorem witness_PacketsCrossTheMesh : (∃ (p : MeshPkt) (r : Nat × Nat) (s : State), endpointAt p.src p.sport ≠ none ∧
  s.endGrants.routeOf p.src (meshChannel p.op p.bulk).1 p.dst = some r ∧ p.msg.cls.val ≠ 0 ∧ meshSnoop p.op = false ∧
  (meshAnswer p.op = true → s.endGrants.mesh.vc0Due.contains (answerKey p) = false) ∧ s.endGrants.heldBefore p = false ∧
  s.endGrants.mustHold p = false) ∧ (∃ (p : MeshPkt) (r : Nat × Nat) (s : State), endpointAt p.src p.sport ≠ none ∧
  s.endGrants.routeOf p.src (meshChannel p.op p.bulk).1 p.dst = some r ∧ meshAnswer p.op = true ∧
  s.endGrants.mesh.vc0Due.contains (answerKey p) = true ∧ s.endGrants.heldBefore p = false ∧ s.endGrants.mustHold p = false) ∧
  (∃ (p : MeshPkt) (i : Nat) (k : Nat) (r : Nat × Nat) (s : State), endpointAt p.src p.sport ≠ none ∧ s.endGrants.routeOf
  p.src (meshChannel p.op p.bulk).1 p.dst = some r ∧ p.msg.cls.val = 0 ∧ meshRequest p.op = true ∧ s.endGrants.heldBefore p =
  false ∧ s.endGrants.mustHold p = false ∧ i < 256 ∧ (∀ j, j < i → s.endGrants.coverPort p j = none) ∧ s.endGrants.coverPort p
  i = some k) ∧ (∃ (p : MeshPkt) (r : Nat × Nat) (s : State), endpointAt p.src p.sport ≠ none ∧ s.endGrants.routeOf p.src
  (meshChannel p.op p.bulk).1 p.dst = some r ∧ p.msg.cls.val = 0 ∧ meshSnoop p.op = false ∧ s.endGrants.mesh.vc0Due.contains
  (answerKey p) = false ∧ (meshAnswer p.op = true ∨ p.op = .coh .wb) ∧ (∀ i, i < 256 → s.endGrants.coverPort p i = none) ∧
  s.endGrants.heldBefore p = false ∧ s.endGrants.mustHold p = false) :=
  ⟨⟨pk, (defaultRoute 0 99), (st []), (by decide +kernel)⟩, ⟨rp, (defaultRoute 0 23), (mesh (st [(L.NOC_NI_CNT.VC0 0, 2^32-1)])
    (fun m => { m with vc0Due := [answerKey rp] })), (by decide +kernel)⟩, ⟨pr, 7, 0, (defaultRoute 20 91), covered,
    (by decide +kernel)⟩, ⟨({ rp with msg := cm 0x26 0 }), (defaultRoute 0 23), (st []), (by decide +kernel)⟩⟩

theorem witness_PacketsCrossTheMesh_2 : (∃ (p : MeshPkt) (r : Nat × Nat) (s : State), endpointAt p.src p.sport ≠ none ∧
  s.endGrants.routeOf p.src (meshChannel p.op p.bulk).1 p.dst = some r ∧ p.msg.cls.val = 0 ∧ meshRequest p.op = true ∧ p.op ≠
  .coh .wb ∧ s.endGrants.heldBefore p = false ∧ s.endGrants.mustHold p = false ∧ (∀ i, i < 256 → s.endGrants.coverPort p i =
  none)) ∧ (∃ (p : MeshPkt) (d : Nat) (r : Nat × Nat) (s : State), endpointAt p.src p.sport ≠ none ∧ meshSnoop p.op = true ∧
  onesBelow 12 p.dies = [d] ∧ p.promoted = false ∧ p.msg.cls.val ≠ 0 ∧ s.endGrants.routeOf p.src 0 (s.endGrants.snoopCopy p
  d).dst = some r ∧ s.endGrants.heldBefore (s.endGrants.snoopCopy p d) = false ∧ s.endGrants.mustHold (s.endGrants.snoopCopy p
  d) = false) ∧ (∃ (p : MeshPkt) (r : Nat × Nat) (s : State), endpointAt p.src p.sport ≠ none ∧ s.endGrants.routeOf p.src
  (meshChannel p.op p.bulk).1 p.dst = some r ∧ meshSnoop p.op = false ∧ (s.endGrants.heldBefore p = true ∨
  s.endGrants.mustHold p = true)) ∧ (∃ (p : MeshPkt) (s : State), endpointAt p.src p.sport ≠ none ∧ meshSnoop p.op = false ∧
  s.endGrants.routeOf p.src (meshChannel p.op p.bulk).1 p.dst = none) ∧ (∃ (plane : Fin 2) (node : Fin 100) (output : Fin 5)
  (err : LinkError) (vc : Nat) (port : Nat) (m : Nat) (f : MeshFlit) (rest : List MeshFlit) (s : State) (u : State), u =
  s.endGrants ∧ u.outFirst node plane output = [] ∧ u.nextFlit plane node output = some (vc, port) ∧ u.bufQ (bufKey node plane
  port vc) = f :: rest ∧ output.val ≠ 4 ∧ stepNode node output = some m ∧ err ≠ .uncorrectable ∧ u.get (L.NOC_RTR_STAT.MODE m)
  = 0) :=
  ⟨⟨pr, (defaultRoute 20 91), (st []), (by decide +kernel)⟩, ⟨sn, 11, (defaultRoute 91 79), (st [(L.DL_STATUS.STATE 45, 2),
    (L.DL_STATUS.STATE 44, 2)]), (by decide +kernel)⟩, ⟨pk, (defaultRoute 0 99), hold, (by decide +kernel)⟩, ⟨pk, (st
    [(L.NOC_NI_RT.VALID 0 0 99, 0)]), (by decide +kernel)⟩, ⟨1, 98, 0, .none, 1, 3, 99, flt, [{ flt with pkt := 4 }], (atBuf
    98 1 3 1 flt [(L.NOC_RTR_STAT.MODE 99, 0)]), ((atBuf 98 1 3 1 flt [(L.NOC_RTR_STAT.MODE 99, 0)] : State).endGrants),
    (by first | with_reducible rfl | decide +kernel), (by decide +kernel)⟩⟩

theorem witness_PacketsCrossTheMesh_3 : (∃ (plane : Fin 2) (node : Fin 100) (output : Fin 5) (err : LinkError) (vc : Nat)
  (port : Nat) (m : Nat) (f : MeshFlit) (rest : List MeshFlit) (s : State) (u : State), u = s.endGrants ∧ u.outFirst node
  plane output = [] ∧ u.nextFlit plane node output = some (vc, port) ∧ u.bufQ (bufKey node plane port vc) = f :: rest ∧
  output.val ≠ 4 ∧ stepNode node output = some m ∧ err = .uncorrectable) ∧ (∃ (plane : Fin 2) (node : Fin 100) (output : Fin
  5) (vc : Nat) (port : Nat) (m : Nat) (f : MeshFlit) (rest : List (Nat × Nat × MeshFlit)) (s : State) (u : State), u =
  s.endGrants ∧ u.outFirst node plane output = (vc, port, f) :: rest ∧ output.val ≠ 4 ∧ stepNode node output = some m ∧ u.get
  (L.NOC_RTR_STAT.MODE m) = 0) ∧ (∃ (plane : Fin 2) (node : Fin 100) (output : Fin 5) (vc : Nat) (port : Nat) (m : Nat) (f :
  MeshFlit) (rest : List MeshFlit) (s : State) (u : State), u = s.endGrants ∧ u.outFirst node plane output = [] ∧ u.nextFlit
  plane node output = some (vc, port) ∧ u.bufQ (bufKey node plane port vc) = f :: rest ∧ output.val ≠ 4 ∧ stepNode node output
  = some m ∧ u.get (L.NOC_RTR_STAT.MODE m) = 1 ∧ u.outFirst m plane (flitOutput f.hop) = [] ∧ SMap.get u.mesh.lock (bufKey m
  plane (flitOutput f.hop) vc) = 0 ∧ (∀ q, q < 5 → ∀ v, v < 4 → u.bufQ (bufKey m plane q v) = []) ∧ (flitOutput f.hop = 4 ∨
  (stepNode m (flitOutput f.hop)).any (fun k => k != node.val && u.hasCredit k plane (flitOutput f.hop ^^^ 2) vc f.hop) =
  true)) ∧ (∃ (plane : Fin 2) (node : Fin 100) (err : LinkError) (vc : Nat) (port : Nat) (f : MeshFlit) (rest : List MeshFlit)
  (x : MeshFlight) (e : Endpoint) (s : State) (u : State), u = s.endGrants ∧ u.outFirst node plane 4 = [] ∧ u.nextFlit plane
  node 4 = some (vc, port) ∧ u.bufQ (bufKey node plane port vc) = f :: rest ∧ f.last = true ∧ SMap.get u.mesh.flights f.pkt =
  some x ∧ endpointAt x.pkt.dst x.pkt.dport = some e ∧ u.mesh.held = [] ∧ (u.openReq x.pkt).all (fun o => o.vi.all (fun v =>
  u.get (L.VI_STATE.GEN (v / 32) (v % 32)) == o.gen)) = true) ∧ (∃ (plane : Fin 2) (node : Fin 100) (err : LinkError) (vc :
  Nat) (port : Nat) (v : Nat) (f : MeshFlit) (rest : List MeshFlit) (x : MeshFlight) (o : MeshOpen) (s : State) (u : State), u
  = s.endGrants ∧ u.outFirst node plane 4 = [] ∧ u.nextFlit plane node 4 = some (vc, port) ∧ u.bufQ (bufKey node plane port
  vc) = f :: rest ∧ f.last = true ∧ SMap.get u.mesh.flights f.pkt = some x ∧ meshReply x.pkt.op = true ∧ u.openReq x.pkt =
  some o ∧ o.vi = some v ∧ v < 256 ∧ u.get (L.VI_STATE.GEN (v / 32) (v % 32)) ≠ o.gen ∧ u.mesh.held = []) :=
  ⟨⟨1, 98, 0, .uncorrectable, 1, 3, 99, flt, [{ flt with pkt := 4 }], (atBuf 98 1 3 1 flt [(L.NOC_RTR_STAT.MODE 99, 0)]),
    ((atBuf 98 1 3 1 flt [(L.NOC_RTR_STAT.MODE 99, 0)] : State).endGrants), (by first | with_reducible rfl | decide +kernel),
    (by decide +kernel)⟩, ⟨1, 98, 0, 1, 3, 99, flt, [], (mesh (st [(L.NOC_RTR_STAT.MODE 99, 0)]) (fun m =>
    { m with outQ := SMap.set m.outQ (bufKey 98 1 0 0) [(1, 3, flt)] })), ((mesh (st [(L.NOC_RTR_STAT.MODE 99, 0)]) (fun m =>
    { m with outQ := SMap.set m.outQ (bufKey 98 1 0 0) [(1, 3, flt)] }) : State).endGrants),
    (by first | with_reducible rfl | decide +kernel), (by decide +kernel)⟩, ⟨1, 97, 0, 1, 3, 98,
    ({ flt with bits := 12345 + (0 + 2 <<< 36) <<< 512 }), [{ flt with pkt := 4, bits := 12345 + (0 + 2 <<< 36) <<< 512 }],
    (atBuf 97 1 3 1 { flt with bits := 12345 + (0 + 2 <<< 36) <<< 512 } [(L.NOC_RTR_STAT.MODE 98, 1)]), ((atBuf 97 1 3 1
    { flt with bits := 12345 + (0 + 2 <<< 36) <<< 512 } [(L.NOC_RTR_STAT.MODE 98, 1)] : State).endGrants),
    (by first | with_reducible rfl | decide +kernel), (by decide +kernel)⟩, ⟨1, 23, .single, 3, 3, flt0,
    [{ flt0 with pkt := 4 }], ⟨rp, 1, 0⟩, (.qe 0), (atBuf 23 1 3 3 flt0), ((atBuf 23 1 3 3 flt0 : State).endGrants),
    (by first | with_reducible rfl | decide +kernel), (by decide +kernel)⟩, ⟨1, 23, .single, 3, 3, 255, flt0,
    [{ flt0 with pkt := 4 }], ⟨rp, 1, 0⟩, ⟨receiverOf rp, 77, some 255, 3, 0x40, 0⟩, (mesh (atBuf 23 1 3 3 flt0) (fun m =>
    { m with openReqs := [⟨receiverOf rp, 77, some 255, 3, 0x40, 0⟩] })), ((mesh (atBuf 23 1 3 3 flt0) (fun m =>
    { m with openReqs := [⟨receiverOf rp, 77, some 255, 3, 0x40, 0⟩] }) : State).endGrants),
    (by first | with_reducible rfl | decide +kernel), (by decide +kernel)⟩⟩

theorem witness_MeshControl : (∃ (c : Issuer) (n : Fin 100) (p : Fin 2) (b : Fin 2) (d : Fin 100) (v : Word) (s : State),
  Sends s c ∧ c.sealed = true ∧ b.val ≠ s.get L.NOC_EPOCH.ACTIVE ∧ (v.getLsbD 63 = true → routeLegal n d (fieldOf v 0 36)
  (fieldOf v 40 5) = true)) ∧ (∃ (c : Issuer) (n : Fin 100) (p : Fin 2) (b : Fin 2) (d : Fin 100) (v : Word) (s : State),
  Sends s c ∧ c.sealed = true ∧ (b.val = s.get L.NOC_EPOCH.ACTIVE ∨ (v.getLsbD 63 = true ∧ routeLegal n d (fieldOf v 0 36)
  (fieldOf v 40 5) = false))) ∧ (∃ (c : Issuer) (v : Word) (s : State), Sends s c ∧ c.sealed = true ∧ v.getLsbD 2 = true ∧
  s.get L.NOC_EPOCH.PENDING = 0) ∧ (∃ (x : Option Nat) (s : State) (u : State) (w : State), s.mesh.await = some x ∧ u =
  (match x with | some n => if s.ticking then s.elapseToNs n else s | none => s) ∧ w = (u.judgeAsks (u.up - 1)
  u.mesh.asks.length).endGrantsAt u.tb.ns) ∧ (∃ (s : State), s.get L.NOC_EPOCH.PENDING = 1 ∧ s.mesh.await = none ∧ s.mesh.held
  = []) :=
  ⟨⟨newtS, 99, 1, 1, 0, (BitVec.ofNat 64 (2^63 + (defaultRoute 99 0).1 * 2^40 + (defaultRoute 99 0).2)), (st []),
    (by decide +kernel)⟩, ⟨newtS, 99, 1, 0, 0, 0, (st []), (by decide +kernel)⟩, ⟨newtS, 4, (st []), (by decide +kernel)⟩,
    ⟨none, (mesh (st [(L.NOC_EPOCH.EPOCH, 2^32-1), (L.NOC_EPOCH.ACTIVE, 1)]) (fun m => { m with await := some none })),
    ((match (none : Option Nat) with | some n => if (mesh (st [(L.NOC_EPOCH.EPOCH, 2^32-1), (L.NOC_EPOCH.ACTIVE, 1)]) (fun m => { m with await := some none }) : State).ticking then (mesh (st [(L.NOC_EPOCH.EPOCH, 2^32-1), (L.NOC_EPOCH.ACTIVE, 1)]) (fun m => { m with await := some none }) : State).elapseToNs n else (mesh (st [(L.NOC_EPOCH.EPOCH, 2^32-1), (L.NOC_EPOCH.ACTIVE, 1)]) (fun m => { m with await := some none }) : State) | none => (mesh (st [(L.NOC_EPOCH.EPOCH, 2^32-1), (L.NOC_EPOCH.ACTIVE, 1)]) (fun m => { m with await := some none }) : State))),
    ((((match (none : Option Nat) with | some n => if (mesh (st [(L.NOC_EPOCH.EPOCH, 2^32-1), (L.NOC_EPOCH.ACTIVE, 1)]) (fun m => { m with await := some none }) : State).ticking then (mesh (st [(L.NOC_EPOCH.EPOCH, 2^32-1), (L.NOC_EPOCH.ACTIVE, 1)]) (fun m => { m with await := some none }) : State).elapseToNs n else (mesh (st [(L.NOC_EPOCH.EPOCH, 2^32-1), (L.NOC_EPOCH.ACTIVE, 1)]) (fun m => { m with await := some none }) : State) | none => (mesh (st [(L.NOC_EPOCH.EPOCH, 2^32-1), (L.NOC_EPOCH.ACTIVE, 1)]) (fun m => { m with await := some none }) : State))
    : State).judgeAsks
    (((match (none : Option Nat) with | some n => if (mesh (st [(L.NOC_EPOCH.EPOCH, 2^32-1), (L.NOC_EPOCH.ACTIVE, 1)]) (fun m => { m with await := some none }) : State).ticking then (mesh (st [(L.NOC_EPOCH.EPOCH, 2^32-1), (L.NOC_EPOCH.ACTIVE, 1)]) (fun m => { m with await := some none }) : State).elapseToNs n else (mesh (st [(L.NOC_EPOCH.EPOCH, 2^32-1), (L.NOC_EPOCH.ACTIVE, 1)]) (fun m => { m with await := some none }) : State) | none => (mesh (st [(L.NOC_EPOCH.EPOCH, 2^32-1), (L.NOC_EPOCH.ACTIVE, 1)]) (fun m => { m with await := some none }) : State))
    : State).up - 1)
    ((match (none : Option Nat) with | some n => if (mesh (st [(L.NOC_EPOCH.EPOCH, 2^32-1), (L.NOC_EPOCH.ACTIVE, 1)]) (fun m => { m with await := some none }) : State).ticking then (mesh (st [(L.NOC_EPOCH.EPOCH, 2^32-1), (L.NOC_EPOCH.ACTIVE, 1)]) (fun m => { m with await := some none }) : State).elapseToNs n else (mesh (st [(L.NOC_EPOCH.EPOCH, 2^32-1), (L.NOC_EPOCH.ACTIVE, 1)]) (fun m => { m with await := some none }) : State) | none => (mesh (st [(L.NOC_EPOCH.EPOCH, 2^32-1), (L.NOC_EPOCH.ACTIVE, 1)]) (fun m => { m with await := some none }) : State))
    : State).mesh.asks.length).endGrantsAt
    ((match (none : Option Nat) with | some n => if (mesh (st [(L.NOC_EPOCH.EPOCH, 2^32-1), (L.NOC_EPOCH.ACTIVE, 1)]) (fun m => { m with await := some none }) : State).ticking then (mesh (st [(L.NOC_EPOCH.EPOCH, 2^32-1), (L.NOC_EPOCH.ACTIVE, 1)]) (fun m => { m with await := some none }) : State).elapseToNs n else (mesh (st [(L.NOC_EPOCH.EPOCH, 2^32-1), (L.NOC_EPOCH.ACTIVE, 1)]) (fun m => { m with await := some none }) : State) | none => (mesh (st [(L.NOC_EPOCH.EPOCH, 2^32-1), (L.NOC_EPOCH.ACTIVE, 1)]) (fun m => { m with await := some none }) : State))
    : State).tb.ns), (by decide +kernel), (by first | with_reducible rfl | decide +kernel),
    (by first | with_reducible rfl | decide +kernel)⟩, ⟨(st [(L.NOC_EPOCH.PENDING, 1)]), (by decide +kernel)⟩⟩

theorem witness_MeshControl_2 : (∃ (c : Issuer) (n : Fin 100) (v : Word) (s : State), Sends s c ∧ c.sealed = true ∧ v.getLsbD
  0 = true ∧ s.get (L.NOC_RTR_CTRL.DRAIN n) = 0 ∧ fieldOf v 1 1 = s.get (L.NOC_RTR_CTRL.MODE n)) ∧ (∃ (n : Fin 100) (s :
  State), s.get (L.NOC_RTR_STAT.DRAIN_WAIT n) = 1 ∧ s.endGrants.grantsUse n = false) ∧ (∃ (n : Fin 100) (s : State), s.get
  (L.NOC_RTR_CTRL.DRAIN n) = 1 ∧ s.get (L.NOC_RTR_STAT.DRAIN_WAIT n) = 0 ∧ s.buffersEmpty n = true ∧ s.get
  (L.NOC_RTR_STAT.DRAINED n) = 0) ∧ (∃ (c : Issuer) (n : Fin 100) (v : Word) (s : State), Sends s c ∧ c.sealed = true ∧
  v.getLsbD 0 = false ∧ (fieldOf v 1 1 = s.get (L.NOC_RTR_CTRL.MODE n) ∨ s.get (L.NOC_RTR_STAT.DRAINED n) = 1)) ∧ (∃ (c :
  Issuer) (n : Fin 100) (p : Fin 2) (b : Fin 2) (d : Fin 100) (v : Word) (s : State), Sends s c ∧ c.sealed = false) ∧ (∃ (e :
  Fin 256) (g : VcGrant) (s : State), s.judgeDue.grantOf e = some g) :=
  ⟨⟨newtS, 99, 3, (st []), (by decide +kernel)⟩, ⟨99, (st [(L.NOC_RTR_STAT.DRAIN_WAIT 99, 1)]), (by decide +kernel)⟩, ⟨99, (st
    [(L.NOC_RTR_CTRL.DRAIN 99, 1)]), (by decide +kernel)⟩, ⟨newtS, 99, 2, (st [(L.NOC_RTR_CTRL.DRAIN 99, 1),
    (L.NOC_RTR_STAT.DRAINED 99, 1)]), (by decide +kernel)⟩, ⟨devO, 99, 1, 1, 0, 0, (st []), (by decide +kernel)⟩, ⟨255, g0,
    (withG [(L.NOC_RSV_PATH.EN 255, 1), (L.NOC_RSV_OWN.ACTIVE 255, 1)]), (by decide +kernel)⟩⟩

end W09

namespace W10

abbrev top : Nat := 0x5FFFFFFF
abbrev mm : Nat := State.reset.mcOf top
abbrev m : Fin 64 := Fin.ofNat 64 mm
def nrm (l : List (Loc × Nat)) : State := st ([(L.MC_STATUS.MODE mm, mcNormal)] ++ l)
def mc (x : Mc) (s : State) : State := s.setMc mm x
def ent (l at_ : Nat) : McEnt := ⟨l, at_, true, none, ⟨false, zeros 64, false⟩, 0, 0⟩
def rq (w : Bool) (c : Fin 3) : McReq := ⟨w, c, top, 2^512-1, true, true, none, 0⟩
def eye : LaneEye := ⟨1, 300, 3, 300, 5, 6⟩
def c0 : CohMsg := { (default : CohMsg) with src := 11, line := top, txn := 5, sealed := true }
def tx : HomeTxn := newTxn false .rdS { c0 with src := 3 } 1 .snpS 7 true
def txm (s : State) : State := s.setHome (mm / 2) { (default : Home) with txns := [tx] }
def pcTop : Fin 2 := Fin.ofNat 2 (State.reset.placeOf top).pc

theorem witness_ControllersServe : (∃ (m : Fin 64) (r : McReq) (s : State), ¬ s.stopped ∧ lineInHbm r.line = true ∧ s.mcOf
  r.line = m.val ∧ s.mcFull m r = false ∧ s.mcMode m = mcNormal ∧ r.write = false ∧ s.inWq r.line = false) ∧ (∃ (m : Fin 64)
  (r : McReq) (x : HomeTxn) (s : State), lineInHbm r.line = true ∧ s.mcOf r.line = m.val ∧ s.mcFull m r = false ∧ r.write =
  false ∧ ¬ s.stopped ∧ s.txnOn (s.homeOf r.line) r.line = some x ∧ x.needMem = true ∧ x.mem = none ∧ x.readId = r.id ∧
  x.snoops ≠ 0 ∧ s.homeEcc (s.homeOf r.line) r.line = false ∧ s.mcMode m = mcNormal ∧ s.inWq r.line = true) ∧ (∃ (m : Fin 64)
  (r : McReq) (x : HomeTxn) (s : State), lineInHbm r.line = true ∧ s.mcOf r.line = m.val ∧ s.mcFull m r = false ∧ r.write =
  false ∧ ¬ s.stopped ∧ s.txnOn (s.homeOf r.line) r.line = some x ∧ x.needMem = true ∧ x.mem = none ∧ x.readId = r.id ∧
  x.snoops ≠ 0 ∧ s.homeEcc (s.homeOf r.line) r.line = false ∧ s.mcServes r.line = false) ∧ (∃ (m : Fin 64) (r : McReq) (s :
  State), ¬ s.stopped ∧ lineInHbm r.line = true ∧ s.mcOf r.line = m.val ∧ s.mcFull m r = false ∧ s.mcMode m = mcRecovery) ∧ (∃
  (m : Fin 64) (r : McReq) (s : State), ¬ s.stopped ∧ lineInHbm r.line = true ∧ s.mcOf r.line = m.val ∧ s.mcFull m r = false ∧
  r.write = true ∧ s.mcMode m = mcNormal ∧ s.xeUse r.line = .clear) ∧ (∃ (m : Fin 64) (r : McReq) (s : State), ¬ s.stopped ∧
  lineInHbm r.line = true ∧ s.mcOf r.line = m.val ∧ s.mcFull m r = false ∧ r.write = true ∧ s.mcServes r.line = false) :=
  ⟨⟨m, (rq false 0), (nrm []), (by decide +kernel)⟩, ⟨m, (rq false 2), tx, (mc { (default : Mc) with wq := [ent top 1] } (txm
    (nrm []))), (by decide +kernel)⟩, ⟨m, (rq false 2), tx, (txm (nrm [(L.MC_STATUS.MODE mm, mcTest)])), (by decide +kernel)⟩,
    ⟨m, (rq false 2), (nrm [(L.MC_STATUS.MODE mm, mcRecovery)]), (by decide +kernel)⟩, ⟨m, (rq true 1), (nrm []),
    (by decide +kernel)⟩, ⟨m, (rq true 1), (nrm [(L.MC_STATUS.MODE mm, mcFailed)]), (by decide +kernel)⟩⟩

theorem witness_ControllersServe_2 : (∃ (m : Fin 64) (p : Fin 2) (e : McEnt) (s : State), McReady s m p ∧ (SMap.get (s.mcSt
  m).batch p = 0 ∨ (s.mcSt m).wq = []) ∧ (s.mcTurn m p).pickEnt m p false (s.mcSt m).rt = some e) ∧ (∃ (m : Fin 64) (p : Fin
  2) (e : McEnt) (s : State), McReady s m p ∧ (s.mcSt m).wq = [] ∧ (s.mcSt m).rt = [] ∧ s.get (L.MC_STATUS.PANIC m) = 0 ∧
  (s.mcSt m).draining = false ∧ 0 < s.get (L.MC_QOS.WR_HI m) ∧ (s.mcTurn m p).pickEnt m p true (s.mcSt m).cr = some e) ∧ (∃ (m
  : Fin 64) (p : Fin 2) (e : McEnt) (s : State), McReady s m p ∧ (s.mcSt m).wq = [] ∧ (s.mcSt m).rt = [] ∧ s.get
  (L.MC_STATUS.PANIC m) = 0 ∧ (s.mcSt m).draining = false ∧ 0 < s.get (L.MC_QOS.WR_HI m) ∧ (s.mcSt m).cr = [] ∧ (s.mcTurn m
  p).pickEnt m p true (s.mcSt m).bk = some e) ∧ (∃ (m : Fin 64) (p : Fin 2) (e : McEnt) (s : State), McReady s m p ∧ (s.mcSt
  m).fixes = [] ∧ (s.mcSt m).wq.find? (fun e => (s.placeOf e.line).pc == p.val && (s.mcTurn m p).bankFree m e (s.mcTurn m
  p).up) = some e ∧ (0 < SMap.get (s.mcSt m).batch p ∨ (s.mcSt m).rt = [] ∧ s.get (L.MC_STATUS.PANIC m) = 0 ∧ s.get
  (L.MC_QOS.WR_HI m) ≤ (s.mcSt m).wq.length)) ∧ (∃ (m : Fin 64) (p : Fin 2) (s : State), ¬ s.stopped ∧ s.mcMode m = mcNormal ∧
  s.get (L.MC_STATUS.REPLAY m) = 0 ∧ (s.elapseUntil (SMap.get (s.mcSt m).busy p)).windowRefreshDue m = true) ∧ (∃ (m : Fin 64)
  (l : Nat) (ecc : EccResult) (e : McEnt) (x : HomeTxn) (s : State), (s.mcSt m).issued.find? (fun e => e.line == l) = some e ∧
  ¬ s.stopped ∧ s.txnOn (s.homeOf l) l = some x ∧ x.needMem = true ∧ x.mem = none ∧ x.readId = e.id ∧ x.snoops ≠ 0 ∧ s.homeEcc
  (s.homeOf l) l = false ∧ e.ans.err = true) :=
  ⟨⟨m, pcTop, (ent top 5), (mc { (default : Mc) with rt := [ent top 5, ent top 6], wq := [ent top 1] } (nrm [])),
    (by decide +kernel)⟩, ⟨m, pcTop, (ent top 5), (mc { (default : Mc) with cr := [ent top 5, ent top 6] } (nrm [])),
    (by decide +kernel)⟩, ⟨m, pcTop, (ent top 5), (mc
    { (default : Mc) with bk := [ent top 5, ent top 6], busy := [(pcTop.val, 7)] } (nrm [])), (by decide +kernel)⟩, ⟨m, pcTop,
    (ent top 1), (mc { (default : Mc) with rt := [ent top 5], wq := [ent top 1], batch := [(pcTop.val, 3)] } (nrm [])),
    (by decide +kernel)⟩, ⟨m, 1, (mc { (default : Mc) with winEnd := 99999 } (nrm [(L.MC_STATUS.WIN_OPEN mm, 1),
    (L.MC_STATUS.OWED mm, 8)])), (by decide +kernel)⟩, ⟨m, top, .clean, ({ ent top 5 with ans := ⟨true, zeros 64, false⟩ }),
    tx, (txm (mc { (default : Mc) with issued := [{ ent top 5 with ans := ⟨true, zeros 64, false⟩ }] } (nrm []))),
    (by decide +kernel)⟩⟩

theorem witness_ControllersServe_3 : (∃ (m : Fin 64) (l : Nat) (ecc : EccResult) (e : McEnt) (x : HomeTxn) (s : State),
  (s.mcSt m).issued.find? (fun e => e.line == l) = some e ∧ ¬ s.stopped ∧ s.txnOn (s.homeOf l) l = some x ∧ x.needMem = true ∧
  x.mem = none ∧ x.readId = e.id ∧ x.snoops ≠ 0 ∧ s.homeEcc (s.homeOf l) l = false ∧ e.ans.err = false ∧ e.ecc = 0) ∧ (∃ (m :
  Fin 64) (l : Nat) (ecc : EccResult) (e : McEnt) (x : HomeTxn) (s : State), (s.mcSt m).issued.find? (fun e => e.line == l) =
  some e ∧ ¬ s.stopped ∧ s.txnOn (s.homeOf l) l = some x ∧ x.needMem = true ∧ x.mem = none ∧ x.readId = e.id ∧ x.snoops ≠ 0 ∧
  s.homeEcc (s.homeOf l) l = false ∧ e.ans.err = false) ∧ (∃ (m : Fin 64) (s : State), s.mcMode m = mcNormal ∧ s.get
  (L.MC_STATUS.OWED m) < 7 ∧ s.get (L.MC_STATUS.RATE m) = (s.mcSt m).rateWant) ∧ (∃ (m : Fin 64) (s : State), s.mcMode m =
  mcNormal ∧ s.get (L.MC_STATUS.OWED m) = 7 ∧ s.get (L.MC_STATUS.WIN_OPEN m) = 0 ∧ s.get (L.MC_STATUS.RATE m) = (s.mcSt
  m).rateWant) ∧ (∃ (g : Fin 16) (s : State), s.groupOpen g = true ∧ (∀ k, k < 4 → s.get (L.MC_STATUS.OWED (4 * g.val + k)) ≠
  8)) ∧ (∃ (st : Fin 4) (temp : Int) (k : Nat) (s : State), -128 ≤ temp ∧ temp ≤ 127 ∧ k < 16 ∧ s.mcMode (16 * st.val + k) ≠
  mcOff) :=
  ⟨⟨m, top, .clean, (ent top 5), tx, (txm (mc { (default : Mc) with issued := [ent top 5] } (nrm []))), (by decide +kernel)⟩,
    ⟨m, top, .clean, (ent top 5), tx, (txm (mc { (default : Mc) with issued := [ent top 5] } (nrm []))), (by decide +kernel)⟩,
    ⟨m, (nrm [(L.MC_STATUS.OWED mm, 6)]), (by decide +kernel)⟩, ⟨m, (nrm [(L.MC_STATUS.OWED mm, 7)]), (by decide +kernel)⟩,
    ⟨15, (mc { (default : Mc) with winEnd := 500 } (nrm [(L.MC_STATUS.WIN_OPEN 60, 1), (L.MC_STATUS.OWED 63, 7)])),
    (by decide +kernel)⟩, ⟨3, (-128), 15, (st [(L.MC_STATUS.MODE 63, 1)]), (by decide +kernel)⟩⟩

theorem witness_ControllersTrainAndLoadKeys : (∃ (m : Fin 64) (k : Nat) (s : State), ¬ s.stopped ∧ s.mcMode m = mcNormal ∧
  s.get (L.MC_STATUS.REPLAY m) = 0) ∧ (∃ (m : Fin 64) (k : Nat) (s : State), ¬ s.stopped ∧ s.mcMode m = mcNormal ∧ s.get
  (L.MC_STATUS.REPLAY m) = 1 ∧ (s.mcSt m).held = [] ∧ (s.home (m.val / 2)).txns = []) ∧ (∃ (m : Fin 64) (s : State), s.get
  (L.MC_STATUS.REPLAY m) = 1) ∧ (∃ (m : Fin 64) (s : State), s.mcMode m = mcOff ∧ s.domPowered (25 + m.val / 16) = true) ∧ (∃
  (m : Fin 64) (lanes : List LaneEye) (s : State), s.mcMode m = mcStart ∧ (s.mcSt m).change = .train ∧ s.get
  (L.MC_STATUS.REPLAY m) = 0 ∧ EyesPass s m lanes) :=
  ⟨⟨m, 1, (mc { (default : Mc) with retry := [(0, .access (ent top 5)), (0, .refpb 3)], rows := [(3, 4)] } (nrm [])),
    (by decide +kernel)⟩, ⟨m, 0, (nrm [(L.MC_STATUS.REPLAY mm, 1)]), (by decide +kernel)⟩, ⟨m, (nrm [(L.MC_STATUS.REPLAY mm,
    1)]), (by decide +kernel)⟩, ⟨63, (st [(L.PWR_DOM.STATE 28, 1)]), (by decide +kernel)⟩, ⟨m, (List.replicate 8 eye), ((mc
    { (default : Mc) with change := .train } (nrm [(L.MC_STATUS.MODE mm, mcStart)])).writeByte (64*top) 9),
    (by decide +kernel)⟩⟩

theorem witness_ControllersTrainAndLoadKeys_2 : (∃ (m : Fin 64) (lanes : List LaneEye) (s : State), s.mcMode m = mcStart ∧
  ((s.mcSt m).change = .train ∨ (s.mcSt m).change = .leaveTest)) ∧ (∃ (m : Fin 64) (lanes : List LaneEye) (s : State),
  s.mcMode m = mcRecovery ∧ (s.home (m.val / 2)).txns = [] ∧ (s.mcSt m).held = [] ∧ s.get (L.MC_STATUS.REPLAY m) = 0 ∧
  EyesPass s m lanes) ∧ (∃ (m : Fin 64) (lanes : List LaneEye) (s : State), s.mcMode m = mcRecovery ∧ (s.home (m.val /
  2)).txns = [] ∧ (s.mcSt m).held = [] ∧ s.get (L.MC_STATUS.REPLAY m) = 0) ∧ (∃ (c : Issuer) (m : Fin 64) (v : Word) (s :
  State), Sends s c ∧ c.sealed = true ∧ fieldOf v 0 2 = 1 ∧ s.mcMode m = mcNormal) ∧ (∃ (c : Issuer) (m : Fin 64) (v : Word)
  (s : State), Sends s c ∧ c.sealed = true ∧ fieldOf v 0 2 = 2 ∧ s.mcMode m = mcNormal) ∧ (∃ (c : Issuer) (m : Fin 64) (v :
  Word) (s : State), Sends s c ∧ c.sealed = true ∧ fieldOf v 0 2 = 3 ∧ s.mcMode m = mcTest) :=
  ⟨⟨m, [], (mc { (default : Mc) with change := .leaveTest } (nrm [(L.MC_STATUS.MODE mm, mcStart)])), (by decide +kernel)⟩, ⟨m,
    (List.replicate 8 eye), (nrm [(L.MC_STATUS.MODE mm, mcRecovery)]), (by decide +kernel)⟩, ⟨m, (List.replicate 8 eye), (nrm
    [(L.MC_STATUS.MODE mm, mcRecovery)]), (by decide +kernel)⟩, ⟨newtS, m, 0x101, (nrm []), (by decide +kernel)⟩, ⟨newtS, m,
    2, (nrm []), (by decide +kernel)⟩, ⟨newtS, m, 3, (nrm [(L.MC_STATUS.MODE mm, mcTest)]), (by decide +kernel)⟩⟩

theorem witness_ControllersTrainAndLoadKeys_3 : (∃ (c : Issuer) (m : Fin 64) (v : Word) (s : State), Sends s c ∧ (c.sealed =
  false ∨ fieldOf v 0 2 = 1 ∧ s.mcMode m ≠ mcNormal ∨ fieldOf v 0 2 = 2 ∧ s.mcMode m ≠ mcNormal ∨ fieldOf v 0 2 = 3 ∧ s.mcMode
  m ≠ mcTest)) ∧ (∃ (c : Issuer) (v : Word) (s : State), Sends s c ∧ v.getLsbD 63 = true ∧ v.getLsbD 20 = false ∧ s.xeLoads =
  []) ∧ (∃ (c : Issuer) (v : Word) (s : State), Sends s c ∧ v.getLsbD 63 = true ∧ v.getLsbD 20 = true ∧ s.xeLoads = [] ∧ (if
  c.sealed then fieldOf v 16 4 < 8 else 8 ≤ fieldOf v 16 4)) ∧ (∃ (c : Issuer) (v : Word) (s : State), Sends s c ∧ v.getLsbD
  63 = true ∧ s.xeLoads.any (fun l => l.sealed == c.sealed) = true) ∧ (∃ (l : XeLoad) (ok : Bool) (s : State), s.xeLoads = [l]
  ∧ l.clear = false ∧ l.index < 16) ∧ (∃ (c : Issuer) (v : Word) (s : State), Sends s c ∧ v.getLsbD 62 = true ∧ s.get
  (L.XE_KEYRES.READY c.sealed 0) = 1) :=
  ⟨⟨devO, m, 0, (nrm []), (by decide +kernel)⟩, ⟨newtS, 0x80000000000F00FF, (st []), (by decide +kernel)⟩, ⟨newtS,
    0x80000000001700FF, ({ st [] with xeKeys := [(7, [1])] }), (by decide +kernel)⟩, ⟨devO, 0x8000000000000000,
    ({ st [] with xeLoads := [⟨false, 0, 0, false, 0⟩] }), (by decide +kernel)⟩, ⟨⟨true, 255, 7, false, 0⟩, true,
    ({ st [(L.KS_SLOT.KIND 255, 3), (L.KS_SLOT.USAGE 255, 1)] with xeLoads := [⟨true, 255, 7, false, 0⟩], slotKey := [(255, [1, 2])] }),
    (by decide +kernel)⟩, ⟨devO, 0x4000000000000000, (st [(L.XE_KEYRES.READY false 0, 1)]), (by decide +kernel)⟩⟩

end W10

namespace W11

abbrev tagsS : Issuer := ⟨true, none, 0, .device⟩
def cmd (op len q src dst ch : Nat) : QCmd := ⟨0, none, ch, 77, false, 64 + ch, tagsS, op, len, 0, q, false, false, src, dst, 0, false, 0, 0, false, false, [], [], 0, none, false, 0, 0, 0, false, false, false, false⟩
def eng (e : Nat) (x : QCmd) (s : State) : State := s.setQe e ⟨[x], 1, 0, 0, 0⟩
abbrev cc : QCmd := cmd 1 64 0 0x1000 0x2000 115
def mem3 (s : State) : State := (s.writeByte 0x1000 5).writeByte 0x1001 6
-- def dA (s : State) (e : Nat) (x : QCmd) (n : Nat) : DevAns := ((s.qeBegun e x).ioRead (qeSrc e) x.issuer x.src n).2
def sCopy : State := eng 7 cc (mem3 (stN []))
abbrev cp : QCmd := cmd 2 64 511 0x1000 0 0
def qOn (q : Nat) (s : State) : State := ((s.put (L.QE_Q_STAT.STATE (q/512) (q%512)) qDirect).put (L.QE_Q_CFG.EN (q/512) (q%512)) 1).put (L.QE_Q_CFG.LIMIT (q/512) (q%512)) 16
def sPush : State := eng 0 cp (mem3 (qOn 511 (stN [])))
abbrev a1 : QEntry := ⟨5 :: List.replicate 63 0, 1, true, true⟩
def hold1 (q : Nat) (s : State) : State := s.setSpillQ q { (default : SpillQ) with head := [a1] }
abbrev cpop : QCmd := cmd 3 128 511 0 0x3000 0
def sPop : State := eng 0 cpop (hold1 511 (qOn 511 (stN [])))
abbrev cdrop : QCmd := cmd 4 0 511 0 0 0
def sDrop : State := eng 0 cdrop (hold1 511 (qOn 511 (stN [(L.QE_Q_STAT.OCC 0 511, 1)])))
abbrev cdone : QCmd := { cc with id := 9, started := true, fin := true }
def sDone : State := eng 7 cdone (stN [(L.QE_CH_IDX.CQ_TAIL 7 3, 7)])
abbrev cdoneL : QCmd := { cdone with launch := some 3, status := 2 }
abbrev ln : Launch := ⟨3, 8, 0, 0, 0, true, none, 0, false, [], false, 0, true, false, 0, none⟩
def sL : State := { eng 7 cdoneL (stN []) with launches := [ln] }
def viOwn (v : Nat) (stt : Nat) (s : State) : State := (s.put (L.VI_STATE.STATE (v/32) (v%32)) stt).put (L.VI_STATE.WORLD (v/32) (v%32)) 1
abbrev tail8 : List QEntry := List.replicate 8 a1
def xq : SpillQ := { (default : SpillQ) with head := tail8, tail := tail8 }
def tail0 : List QEntry := List.replicate 8 ⟨[], 0, true, true⟩
def xq0 : SpillQ := { (default : SpillQ) with head := tail0, tail := tail0 }
def sSp0 : State := (stN [(L.QE_Q_STAT.STATE 7 511, qDirect), (L.QE_Q_SPILL.BASE 7 511, 0x100), (L.QE_Q_SB.SB_BASE 7 511, 0x80000)]).setSpillQ 4095 xq0
abbrev xm : SpillQ := { (default : SpillQ) with head := [a1], mid := 2, midAt := 1, reading := 1 }
def sMid (x : SpillQ) : State := (stN [(L.QE_Q_STAT.STATE 7 511, qSpilling)]).setSpillQ 4095 x
def mE (x : SpillQ) : QEntry := ((((sMid x).setSpillQ 4095 { x with reading := 0 }).middleEntry 4095 x.midAt).2).getD default
abbrev ow : Word := BitVec.ofNat 64 (2^63 + 262160)
-- instances
def adm (v cmd rec : Nat) : Word := BitVec.ofNat 64 (2^63 + (v % 32) * 2^57 + cmd * 2^48 + rec * 64)
def recBytes : List Nat := bytesLE 8 0x11 ++ bytesLE 8 1 ++ List.replicate 48 0
def wr (a : Nat) (l : List Nat) (s : State) : State := (l.zip (List.range l.length)).foldl (fun s p => s.writeByte (a + p.2) (BitVec.ofNat 8 p.1)) s
def sCr : State := wr 0x1000 recBytes (stN [])
def rdW (s : State) (c : Issuer) (x : Word) (n : Nat) : List Nat := (((s.adminBegun 7 c.sealed x.toNat).viRead 7 c.sealed (fieldOf x 6 42 * 64) n).2).getD []
def va (cmd : Nat) : ViAdmin := ⟨255, cmd, 0, 5, []⟩
def sA (cmd stt : Nat) : State := (viOwn 255 stt (stN [])).setAdmin 7 true (some (va cmd))
def busyV (s : State) : State := { s with launches := [{ ln with vi := some 255 }] }

theorem witness_QueueEnginesRunCommands : (∃ (e : Fin 8) (x : QCmd) (s : State), QeHolds s e 1 x ∧ 0 < x.len ∧ x.len ≤ 64 ∧
  overlap x.src x.len x.dst x.len = false ∧ (s.qeBegun e x).windowAddr (rsvSrc (qeSrc e) x.rsv) x.issuer x.src false = none ∧
  (s.qeBegun e x).windowAddr (rsvSrc (qeSrc e) x.rsv) x.issuer x.dst true = none ∧ (s.qeRead e x x.len).2.err = false ∧
  (s.qeRead e x x.len).2.data.length = x.len ∧ (s.qeRead e x x.len).1.windowAddr (rsvSrc (qeSrc e) x.rsv) x.issuer x.dst true
  = none ∧ NoWait s (s.qeMove e x).1) ∧ (∃ (e : Fin 8) (x : QCmd) (s : State), QeHolds s e 2 x ∧ x.len = 64 ∧ QueueHolds s
  (512 * e.val + x.queue) [] ∧ s.qAdmits (512 * e.val + x.queue) 1 = true ∧ (s.qeRead e x 64).2.err = false ∧ (s.qeRead e x
  64).2.poison = false ∧ (s.qeRead e x 64).2.data.length = 64 ∧ NoWait s (s.qeRead e x 64).1) ∧ (∃ (e : Fin 8) (x : QCmd) (s :
  State), QeHolds s e 2 x ∧ s.qAdmits (512 * e.val + x.queue) (packetEntries x.len) = false) ∧ (∃ (e : Fin 8) (x : QCmd) (a :
  QEntry) (s : State), QeHolds s e 3 x ∧ 128 ≤ x.len ∧ QueueHolds s (512 * e.val + x.queue) [a] ∧ a.eop = true ∧ NoWait s
  (s.qePiece e x a).1) :=
  ⟨⟨7, cc, sCopy, (by decide +kernel)⟩, ⟨0, cp, sPush, (by decide +kernel)⟩, ⟨0, cp, (eng 0 cp ((qOn 511 (stN [])).put
    (L.QE_Q_CFG.LIMIT 0 511) 0)), (by decide +kernel)⟩, ⟨0, cpop, a1, sPop, (by decide +kernel)⟩⟩

theorem witness_QueueEnginesRunCommands_2 : (∃ (e : Fin 8) (x : QCmd) (a : QEntry) (s : State), QeHolds s e 4 x ∧ QueueHolds s
  (512 * e.val + x.queue) [a] ∧ a.eop = true) ∧ (∃ (e : Fin 8) (id : Nat) (x : QCmd) (y : QCmd) (s : State), (s.qeOf e).cmds =
  [x] ∧ x.id = id ∧ x.started = true ∧ x.fin = true ∧ x.launch = none ∧ x.ch / 16 = e.val ∧ s.cqFull x.ch = false ∧ (s.qeEnded
  e x).2 = y ∧ (s.qeGone e x).stale x.issuer = false ∧ NoWait s ((s.qeGone e x).channelDone e y)) ∧ (∃ (e : Fin 8) (id : Nat)
  (l : Nat) (x : QCmd) (s : State), (s.qeOf e).cmds = [x] ∧ x.id = id ∧ x.started = true ∧ x.fin = true ∧ x.launch = some l ∧
  NoWait s (s.qeEnded e x).1) ∧ (∃ (e : Fin 8) (id : Nat) (x : QCmd) (s : State), (s.qeOf e).cmds = [x] ∧ x.id = id ∧
  x.started = true ∧ x.fin = true ∧ x.launch = none ∧ s.cqFull x.ch = true) ∧ (∃ (c : Issuer) (ch : Fin 128) (v : Word) (s :
  State), Sends s c ∧ c.sealed = s.ownerSealed (.qe (ch.val / 16)) ∧ s.isReleasing (.qe (ch.val / 16)) = false ∧ s.isReleasing
  (.ch ch) = false ∧ c.vi = none ∧ v.getLsbD 32 = true ∧ v.getLsbD 33 = false ∧ s.sqTailBad ch (fieldOf v 0 16) = false) :=
  ⟨⟨0, cdrop, a1, sDrop, (by decide +kernel)⟩, ⟨7, 9, cdone, ((sDone.qeEnded 7 cdone).2), sDone, (by decide +kernel)⟩, ⟨7, 9, 3,
    cdoneL, sL, (by decide +kernel)⟩, ⟨7, 9, cdone, (eng 7 cdone (stN [(L.QE_CH_IDX.CQ_TAIL 7 3, 4096)])),
    (by decide +kernel)⟩, ⟨newtS, 127, (BitVec.ofNat 64 (2^32 + 8)), (stN []), (by decide +kernel)⟩⟩

theorem witness_QueueEnginesRunCommands_3 : (∃ (c : Issuer) (ch : Fin 128) (v : Word) (s : State), Sends s c ∧ c.sealed =
  s.ownerSealed (.qe (ch.val / 16)) ∧ s.isReleasing (.qe (ch.val / 16)) = false ∧ s.isReleasing (.ch ch) = false ∧ c.vi = none
  ∧ v.getLsbD 32 = false ∧ v.getLsbD 33 = true ∧ s.cqHeadBad ch (fieldOf v 16 16) = false) ∧ (∃ (c : Issuer) (ch : Fin 128) (v
  : Word) (s : State), Sends s c ∧ c.sealed = s.ownerSealed (.qe (ch.val / 16)) ∧ s.isReleasing (.qe (ch.val / 16)) = false ∧
  s.isReleasing (.ch ch) = false ∧ c.vi = none ∧ v.getLsbD 32 = true ∧ v.getLsbD 33 = false ∧ s.sqTailBad ch (fieldOf v 0 16)
  = true) ∧ (∃ (c : Issuer) (n : Fin 256) (v : Word) (s : State), Sends s c ∧ s.viState n ≠ viFree ∧ c.sealed = s.viSealed n ∧
  s.viOf (.ch (fieldOf v 0 7)) = some n.val ∧ s.isReleasing (.ch (fieldOf v 0 7)) = false ∧ s.isReleasing (.qe (fieldOf v 0 7
  / 16)) = false ∧ s.sqTailBad (fieldOf v 0 7) (fieldOf v 16 16) = false) ∧ (∃ (c : Issuer) (n : Fin 256) (v : Word) (s :
  State), Sends s c ∧ s.viState n ≠ viFree ∧ c.sealed = s.viSealed n ∧ s.viOf (.ch (fieldOf v 0 7)) = some n.val ∧
  s.isReleasing (.ch (fieldOf v 0 7)) = false ∧ s.isReleasing (.qe (fieldOf v 0 7 / 16)) = false ∧ s.cqHeadBad (fieldOf v 0 7)
  (fieldOf v 16 16) = false) ∧ (∃ (ch : Fin 128) (s : State), s.chFetches ch = true ∧ NoWait s (s.chRead ch).1) :=
  ⟨⟨newtS, 127, (BitVec.ofNat 64 (2^33 + 3*65536)), (stN [(L.QE_CH_IDX.CQ_TAIL 7 15, 3)]), (by decide +kernel)⟩, ⟨newtS, 127,
    (BitVec.ofNat 64 (2^32 + 0xFFFF)), (stN []), (by decide +kernel)⟩, ⟨newtS, 255, (BitVec.ofNat 64 (8*65536 + 127)), ((viOwn
    255 2 (stN [])).setVi (.ch 127) (some 255)), (by decide +kernel)⟩, ⟨newtS, 255, (BitVec.ofNat 64 (2*65536 + 127)),
    (((viOwn 255 2 (stN [])).setVi (.ch 127) (some 255)).put (L.QE_CH_IDX.CQ_TAIL 7 15) 3), (by decide +kernel)⟩, ⟨127, (stN
    [(L.QE_CH_CFG.EN 7 15, 1), (L.QE_CH_IDX.SQ_TAIL 7 15, 0), (L.QE_CH_IDX.SQ_HEAD 7 15, 65535)]), (by decide +kernel)⟩⟩

theorem witness_SpillQueues : (∃ (q : Fin 4096) (p : Arriving) (s : State), QueueHolds s q [] ∧ p.total = 64 ∧ p.data.length =
  64 ∧ s.qAdmits q 1 = true) ∧ (∃ (q : Fin 4096) (p : Arriving) (s : State), (s.spillQ q).arrivals = [] ∧ 0 < p.total ∧
  p.total ≤ p.data.length ∧ s.qAdmits q (packetEntries p.total) = false) ∧ (∃ (q : Fin 4096) (x : SpillQ) (w : State × Bool)
  (w2 : State × Bool) (s : State), s.mustSpill q = true ∧ s.spillQ q = x ∧ x.arrivals = [] ∧ s.ioWrite (qeSrc (q.val / 512))
  (s.spillIssuer q) (s.spillBase q + 64 * ((x.midAt + x.mid) % s.spillCap q)) (x.tail.flatMap (fun t => t.data)) false = w ∧
  w.2 = true ∧ w.1.ioWrite (qeSrc (q.val / 512)) (s.spillIssuer q) (s.sidebandBase q + (x.midAt + x.mid) % s.spillCap q)
  (x.tail.map sidebandOf) false = w2 ∧ w2.2 = true ∧ NoWait s w2.1) ∧ (∃ (q : Fin 4096) (s : State), s.readSize q ≠ 0) ∧ (∃ (q
  : Fin 4096) (x : SpillQ) (a : QEntry) (s : State), s.spillQ q = x ∧ x.reading = 1 ∧ x.tail = [] ∧ x.arrivals = [] ∧ 0 <
  x.mid ∧ x.head.length < 8 ∧ ((s.setSpillQ q { x with reading := 0 }).middleEntry q x.midAt).2 = some a ∧ NoWait s
  ((s.setSpillQ q { x with reading := 0 }).middleEntry q x.midAt).1) :=
  ⟨⟨4095, ⟨3, 64, List.replicate 64 9⟩, (qOn 4095 (stN [])), (by decide +kernel)⟩, ⟨4095, ⟨3, 64, List.replicate 64 9⟩, (stN
    []), (by decide +kernel)⟩, ⟨4095, xq0, ((sSp0 : State).ioWrite (qeSrc ((4095 : Fin 4096).val / 512)) ((sSp0 :
    State).spillIssuer (4095 : Fin 4096)) ((sSp0 : State).spillBase (4095 : Fin 4096) + 64 * (((xq0 : SpillQ).midAt + (xq0 :
    SpillQ).mid) % (sSp0 : State).spillCap (4095 : Fin 4096))) ((xq0 : SpillQ).tail.flatMap (fun t => t.data)) false), (((sSp0
    : State).ioWrite (qeSrc ((4095 : Fin 4096).val / 512)) ((sSp0 : State).spillIssuer (4095 : Fin 4096)) ((sSp0 :
    State).spillBase (4095 : Fin 4096) + 64 * (((xq0 : SpillQ).midAt + (xq0 : SpillQ).mid) % (sSp0 : State).spillCap (4095 :
    Fin 4096))) ((xq0 : SpillQ).tail.flatMap (fun t => t.data)) false : State × Bool).1.ioWrite (qeSrc ((4095 : Fin 4096).val
    / 512)) ((sSp0 : State).spillIssuer (4095 : Fin 4096)) ((sSp0 : State).sidebandBase (4095 : Fin 4096) + ((xq0 :
    SpillQ).midAt + (xq0 : SpillQ).mid) % (sSp0 : State).spillCap (4095 : Fin 4096)) ((xq0 : SpillQ).tail.map sidebandOf)
    false), sSp0, (by decide +kernel), (by decide +kernel), (by decide +kernel),
    (by first | with_reducible rfl | decide +kernel), (by decide +kernel), (by first | with_reducible rfl | decide +kernel),
    (by decide +kernel)⟩, ⟨4095, (sMid { xm with reading := 0 }), (by decide +kernel)⟩, ⟨4095, xm, (mE xm), (sMid xm),
    (by decide +kernel)⟩⟩

theorem witness_SpillQueues_2 : (∃ (c : Issuer) (q : Fin 4096) (v : Word) (s : State), Sends s c ∧ c.sealed = s.ownerSealed
  (.queue q) ∧ s.isReleasing (.queue q) = false ∧ c.vi = none ∧ fieldOf v 0 19 ≠ 0 ∧ fieldOf v 0 19 ≤ 262160 ∧ s.get
  (L.QE_Q_CFG.EN (q.val / 512) (q.val % 512)) = 0 ∧ v.getLsbD 63 = true ∧ v.getLsbD 62 = false ∧ fieldOf v 0 19 ≤ 16 +
  s.spillCap q) ∧ (∃ (c : Issuer) (q : Fin 4096) (v : Word) (s : State), Sends s c ∧ c.sealed = s.ownerSealed (.queue q) ∧
  s.isReleasing (.queue q) = false ∧ c.vi = none ∧ fieldOf v 0 19 ≠ 0 ∧ fieldOf v 0 19 ≤ 262160 ∧ s.get (L.QE_Q_CFG.EN (q.val
  / 512) (q.val % 512)) = 1 ∧ v.getLsbD 63 = false ∧ fieldOf v 0 19 = s.get (L.QE_Q_CFG.LIMIT (q.val / 512) (q.val % 512))) ∧
  (∃ (c : Issuer) (q : Fin 4096) (v : Word) (s : State), Sends s c ∧ c.sealed = s.ownerSealed (.queue q) ∧ s.isReleasing
  (.queue q) = false ∧ c.vi = none ∧ fieldOf v 0 19 ≠ 0 ∧ fieldOf v 0 19 ≤ 262160 ∧ s.get (L.QE_Q_CFG.EN (q.val / 512) (q.val
  % 512)) = 1 ∧ v.getLsbD 63 = true ∧ v.getLsbD 62 = true ∧ fieldOf v 0 19 = s.get (L.QE_Q_CFG.LIMIT (q.val / 512) (q.val %
  512))) ∧ (∃ (c : Issuer) (q : Fin 4096) (v : Word) (s : State), Sends s c ∧ (c.sealed ≠ s.ownerSealed (.queue q) ∨
  s.isReleasing (.queue q) = true ∨ c.vi ≠ none ∨ fieldOf v 0 19 = 0 ∨ 262160 < fieldOf v 0 19 ∨ s.get (L.QE_Q_CFG.EN (q.val /
  512) (q.val % 512)) = 1 ∧ fieldOf v 0 19 ≠ s.get (L.QE_Q_CFG.LIMIT (q.val / 512) (q.val % 512)))) ∧ (∃ (q : Fin 4096) (s :
  State), (s.spillQ q).apply = true ∧ s.qBusy q = false ∧ (s.spillQ q).arrivals = []) :=
  ⟨⟨newtS, 4095, ow, (stN [(L.QE_Q_SPILL.LOG2SZ 7 511, 24)]), (by decide +kernel)⟩, ⟨newtS, 4095, (BitVec.ofNat 64 16), (qOn
    4095 (stN [])), (by decide +kernel)⟩, ⟨newtS, 4095, (BitVec.ofNat 64 (3*2^62 + 16)), (qOn 4095 (stN [])),
    (by decide +kernel)⟩, ⟨devO, 4095, ow, (stN []), (by decide +kernel)⟩, ⟨4095, ((qOn 4095 (stN [])).setSpillQ 4095
    { xq with apply := true }), (by decide +kernel)⟩⟩

theorem witness_VirtualInstances : (∃ (c : Issuer) (k : Fin 8) (v : Nat) (x : Word) (w : List Nat) (s : State), Sends s c ∧
  AdminFree s k c v 1 x ∧ (c.sealed = true ∨ (s.get (L.VI_AVAIL.OPEN k)).testBit (fieldOf x 57 5) = true) ∧ ((s.adminBegun k
  c.sealed x.toNat).viRead k c.sealed (fieldOf x 6 42 * 64) 64).2 = some w ∧ recordBad w = false ∧ NoWait s ((s.adminBegun k
  c.sealed x.toNat).viRead k c.sealed (fieldOf x 6 42 * 64) 64).1 ∧ (∀ r ∈ recordRes w, s.ownerSealed r = c.sealed ∧
  s.isReleasing r = false ∧ s.viOf r = none)) ∧ (∃ (c : Issuer) (k : Fin 8) (v : Nat) (x : Word) (s : State), Sends s c ∧
  AdminFree s k c v 2 x) :=
  ⟨⟨newtS, 7, 255, (adm 255 1 0x40), (rdW sCr newtS (adm 255 1 0x40) 64), sCr, (by decide +kernel)⟩, ⟨newtS, 7, 255, (adm 255 2
    0), (viOwn 255 1 (stN [])), (by decide +kernel)⟩⟩

theorem witness_VirtualInstances_2 : (∃ (c : Issuer) (k : Fin 8) (v : Nat) (x : Word) (s : State), Sends s c ∧ AdminFree s k c
  v 3 x ∧ NoWait s ((s.answer .ok).writeAdmin k c x.toNat)) ∧ (∃ (c : Issuer) (k : Fin 8) (v : Nat) (x : Word) (s : State),
  Sends s c ∧ AdminFree s k c v 4 x ∧ NoWait s ((s.answer .ok).writeAdmin k c x.toNat)) :=
  ⟨⟨newtS, 7, 255, (adm 255 3 0), ((viOwn 255 2 (stN [(L.CSQ_STATUS.STATE 31, stRun)])).setVi (.csq 31) (some 255)),
    (by decide +kernel)⟩, ⟨newtS, 7, 255, (adm 255 4 0), (viOwn 255 2 (st [(L.VI_STATE.GEN 7 31, 255)])),
    (by decide +kernel)⟩⟩

theorem witness_VirtualInstances_3 : (∃ (c : Issuer) (k : Fin 8) (v : Nat) (x : Word) (s : State), Sends s c ∧ AdminFree s k c
  v 5 x ∧ NoWait s ((s.answer .ok).writeAdmin k c x.toNat)) ∧ (∃ (c : Issuer) (k : Fin 8) (v : Nat) (y : Nat) (x : Word) (s :
  State), Sends s c ∧ AdminFree s k c v 6 x ∧ ((s.adminBegun k c.sealed x.toNat).viRead k c.sealed (fieldOf x 6 42 * 64) 8).2
  = some [y] ∧ y < 2 ^ 59 ∧ NoWait s ((s.adminBegun k c.sealed x.toNat).viRead k c.sealed (fieldOf x 6 42 * 64) 8).1) :=
  ⟨⟨newtS, 7, 255, (adm 255 5 0), (viOwn 255 1 (st [])), (by decide +kernel)⟩, ⟨newtS, 7, 255, 5, (adm 255 6 0x40), (viOwn 255 2
    (wr 0x1000 [5] (stN [(L.TB_STATUS.TICKING, 1)]))), (by decide +kernel)⟩⟩

theorem witness_VirtualInstances_4 : (∃ (k : Fin 8) (w : Bool) (a : ViAdmin) (s : State), s.adminOf k w = some a ∧ a.v / 32 =
  k.val ∧ a.status < 256 ∧ a.cmd = 2) ∧ (∃ (k : Fin 8) (w : Bool) (a : ViAdmin) (s : State), s.adminOf k w = some a ∧ a.v / 32
  = k.val ∧ a.status < 256 ∧ a.cmd = 3 ∧ s.viBusy a.v = false) :=
  ⟨⟨7, true, (va 2), (sA 2 1), (by decide +kernel)⟩, ⟨7, true, (va 3), (sA 3 3), (by decide +kernel)⟩⟩

theorem witness_VirtualInstances_5 : (∃ (k : Fin 8) (w : Bool) (a : ViAdmin) (s : State), s.adminOf k w = some a ∧ a.v / 32 =
  k.val ∧ a.status < 256 ∧ a.cmd = 4) ∧ (∃ (k : Fin 8) (w : Bool) (a : ViAdmin) (s : State), s.adminOf k w = some a ∧ a.v / 32
  = k.val ∧ a.status < 256 ∧ a.cmd = 5) :=
  ⟨⟨7, true, (va 4), (sA 4 4), (by decide +kernel)⟩, ⟨7, true, (va 5), (sA 5 4), (by decide +kernel)⟩⟩

theorem witness_VirtualInstances_6 : (∃ (k : Fin 8) (w : Bool) (a : ViAdmin) (s : State), s.adminOf k w = some a ∧ a.v / 32 =
  k.val ∧ a.status < 256 ∧ a.cmd = 3 ∧ s.viBusy a.v = true) ∧ (∃ (c : Issuer) (k : Fin 8) (x : Word) (s : State), Sends s c ∧
  x.getLsbD 62 = true) :=
  ⟨⟨7, true, (va 3), (busyV (sA 3 3)), (by decide +kernel)⟩, ⟨newtS, 7, (BitVec.ofNat 64 (2^62)), (stN [(L.VI_ADMIN_RES.READY
    true 7, 1)]), (by decide +kernel)⟩⟩

theorem witness_VirtualInstances_7 : (∃ (c : Issuer) (k : Fin 8) (x : Word) (a : ViAdmin) (s : State), Sends s c ∧ x.getLsbD
  63 = true ∧ s.adminOf k c.sealed = some a) ∧ (∃ (c : Issuer) (v : Fin 256) (x : Word) (s : State), Sends s c ∧ s.viState v ≠
  viFree ∧ c.sealed = s.viSealed v ∧ wrapSub 16 (fieldOf x 0 16) (s.get (L.VI_MBOX_IDX.M2T_CONS (v.val / 32) (v.val % 32))) ≤
  2 ^ s.get (L.VI_MBOX_M2T.LOG2N (v.val / 32) (v.val % 32)) ∧ wrapSub 16 (fieldOf x 32 16) (s.get (L.VI_MBOX_IDX.T2M_CONS
  (v.val / 32) (v.val % 32))) ≤ wrapSub 16 (s.get (L.VI_MBOX_IDX.T2M_PROD (v.val / 32) (v.val % 32))) (s.get
  (L.VI_MBOX_IDX.T2M_CONS (v.val / 32) (v.val % 32))) ∧ s.get (L.VI_MSI_T.EN (v.val / 32) (v.val % 32)) = 0) :=
  ⟨⟨newtS, 7, (BitVec.ofNat 64 (2^63)), (va 4), (sA 4 4), (by decide +kernel)⟩, ⟨newtS, 255, 8, (viOwn 255 2 (stN [])),
    (by decide +kernel)⟩⟩

theorem witness_VirtualInstances_8 : (∃ (c : Issuer) (v : Fin 256) (x : Word) (s : State), Sends s c ∧ s.viState v ≠ viFree ∧
  c.sealed = s.viSealed v ∧ wrapSub 16 (fieldOf x 48 16) (s.get (L.VI_MBOX_IDX.T2M_CONS (v.val / 32) (v.val % 32))) ≤ 2 ^
  s.get (L.VI_MBOX_T2M.LOG2N (v.val / 32) (v.val % 32)) ∧ wrapSub 16 (fieldOf x 16 16) (s.get (L.VI_MBOX_IDX.M2T_CONS (v.val /
  32) (v.val % 32))) ≤ wrapSub 16 (s.get (L.VI_MBOX_IDX.M2T_PROD (v.val / 32) (v.val % 32))) (s.get (L.VI_MBOX_IDX.M2T_CONS
  (v.val / 32) (v.val % 32))) ∧ s.get (L.VI_MSI_M.EN (v.val / 32) (v.val % 32)) = 0) ∧ (∃ (c : Issuer) (v : Fin 256) (x :
  Word) (s : State), Sends s c ∧ s.viState v ≠ viFree ∧ c.sealed = s.viSealed v ∧ x.getLsbD 62 = true ∧ s.get
  (L.VI_DIRTY_CTRL.BUSY (v.val / 32) (v.val % 32)) = 0 ∧ (s.get (L.VI_DIRTY_CTRL.EN (v.val / 32) (v.val % 32)) = 1 → fieldOf x
  0 32 = s.get (L.VI_DIRTY_CTRL.PAGES (v.val / 32) (v.val % 32)))) :=
  ⟨⟨newtS, 255, (BitVec.ofNat 64 (2^51 + 0*65536)), (viOwn 255 2 (stN [])), (by decide +kernel)⟩, ⟨newtS, 255, (BitVec.ofNat 64
    (3*2^62 + 9)), (viOwn 255 2 (stN [])), (by decide +kernel)⟩⟩

theorem witness_VirtualInstances_9 : (∃ (c : Issuer) (v : Fin 256) (x : Word) (s : State), Sends s c ∧ (s.viState v = viFree ∨
  c.sealed ≠ s.viSealed v)) ∧ (∃ (v : Fin 256) (s : State), s.get (L.VI_DIRTY_CTRL.BUSY (v.val / 32) (v.val % 32)) = 1) :=
  ⟨⟨newtS, 255, 0, (stN []), (by decide +kernel)⟩, ⟨255, (stN [(L.VI_DIRTY_CTRL.BUSY 7 31, 1), (L.VI_DIRTY_CTRL.ACTIVE 7 31,
    1)]), (by decide +kernel)⟩⟩

end W11

namespace W12

abbrev qc : QCmd := ⟨9, none, 99, 77, false, 163, ⟨true, none, 0, .device⟩, 1, 64, 0, 0, false, false, 0x1000, 0x2000, 0, false, 0, 0, false, false, [], [], 0, none, false, 0, 0, 0, false, false, false, false⟩
abbrev me : Nat := 16383
def idL : List (Loc × Nat) := [(L.FAB_ID.ID_VALID, 1), (L.FAB_ID.ID, me), (L.FAB_CFG.MAX_HOPS, 16), (L.FAB_STATUS.QUAR, 0)]
def fp (n : Nat) (x : FabPort) (s : State) : State := s.setFabPort n x
def up (n : Nat) (l : List (Loc × Nat)) : State := stN ([(L.FAB_P_STATUS.STATE n, portUpSt)] ++ idL ++ l)
def trn (n : Nat) (l : List (Loc × Nat)) : State := fp n { (default : FabPort) with elecOk := true } (stN ([(L.FAB_P_STATUS.STATE n, portTrain)] ++ l))
abbrev ft : FabTrain := ⟨1, 3, 7, true, 16383, none, 2^64-1, [1, 2, 3, 4]⟩
abbrev pq : FabPkt := { (default : FabPkt) with ptype := ptRD, fvc := 3, dst := me, src := me, hops := 9, txn := 77, len := 8, offset := 0x1000, gen := 0 }
abbrev fl : FabFlit := ⟨false, 1, false, 0, none, [1, 0, 0, 2], 3, 5, some pq⟩
def e1 : Nat × Nat × Option FabPkt := (3, 3, some pq)
def e2 : Nat × Nat × Option FabPkt := (4, 1, none)
def inb (p : FabPkt) (l : List (Loc × Nat)) : State := (up 7 l).setFab { (default : Fab) with inbox := [(7, p)] }
def slf (p : FabPkt) (l : List (Loc × Nat)) : State := (stN (idL ++ l)).setFab { (default : Fab) with inbox := [(8, p)] }
def apt (k : Loc) : List (Loc × Nat) := [(L.FAB_APT.EN 0, 1), (k, 1)]
abbrev aptS (k : Loc) : List (Loc × Nat) := apt k ++ [(L.FAB_APT.WORLD 0, 1)]
def pS (p : FabPkt) : FabPkt := { p with sealed := true }
def pRd : FabPkt := pS pq
def pWr : FabPkt := { pS pq with ptype := ptWR, data := List.replicate 8 9 }
def pAt : FabPkt := { pS pq with ptype := ptATOM, aop := 1, data := List.replicate 8 9 }
def pMs : FabPkt := { pS pq with ptype := ptMSG, len := 3, data := [1, 2, 3], queue := 4095 }
def sRd : State := inb pRd (aptS (L.FAB_APT.RD_OK 0))
def sWr (p : FabPkt) : State := inb p (aptS (L.FAB_APT.WR_OK 0))
def sAt : State := inb pAt (aptS (L.FAB_APT.ATOM_OK 0))
def sMs (p : FabPkt) (l : List (Loc × Nat)) : State := inb p (aptS (L.FAB_APT.MSG_OK 0) ++ l)
def qon : List (Loc × Nat) := [(L.QE_Q_STAT.STATE 7 511, qDirect), (L.QE_Q_CFG.EN 7 511, 1), (L.QE_Q_CFG.LIMIT 7 511, 16)]
def op (pt : Nat) (u : FabUser) : FabOpen := ⟨{ (default : FabPkt) with ptype := pt, txn := 77, dst := me, sealed := true }, u, none, 3⟩
def opn (p : FabPkt) (o : FabOpen) : State := let s := inb p []; s.setFab { s.fab with opens := [o] }
def rsp (pt st : Nat) : FabPkt := { pq with ptype := pt, fvc := 4, status := st, data := [1, 2, 3, 4, 5, 6, 7, 8] }
def mms : FabPkt := { pq with ptype := ptMMSG, fvc := 2, len := 3, data := [1, 2, 3] }
def dr (ptr hops : Nat) : FabPkt := { pq with ptype := ptDR, fvc := 2, len := 27, data := bytesLE 8 (0x20 + hops * 2^32 + ptr * 2^37) ++ bytesLE 8 0o7777 ++ bytesLE 8 0 ++ [1, 2, 3] }
def bc : FabBeacon := ⟨16383, true, false, true, 1000, 1, 2, 3, 4, ⟨1, 2, 3, [4], 5⟩⟩
def cmt (st : Nat) (l : List (Loc × Nat)) : State := let s := stN l; s.setFab { s.fab with commit := some st }
def sMtx (n : Nat) : State := ((((stN ([(L.FAB_MTX_RING.LOG2N, 10), (L.FAB_MTX_RING.BASE, 4), (L.FAB_MTX_IDX.CONS, 65535)] ++ idL)).writeByte (0x4000 + 256 * 1023) 0x21).writeByte (0x4001 + 256 * 1023) n).writeByte (0x4002 + 256 * 1023) 9).writeByte (0x4040 + 256 * 1023) 9
def rm (s : State) : State := s.setFabPort 7 { (default : FabPort) with room := [1, 1, 1, 1] }

theorem witness_FabricPortsTrainAndTakeFlits : (∃ (n : Fin 8) (s : State), (s.portState n = portIdle ∨ s.portState n =
  portTrain ∧ (s.fabPort n).elecOk = false) ∧ s.txIdle = false) ∧ (∃ (n : Fin 8) (f : Fin 16) (s : State), (s.portState n =
  portIdle ∨ s.portState n = portTrain ∧ (s.fabPort n).elecOk = false) ∧ s.txIdle = false ∧ f.val ≠ 0 ∧ (f.val % 4 = 0 ∨ f.val
  / 4 = 0) ∧ s.get (L.FAB_P_CFG.X2_OK n) = 1) ∧ (∃ (n : Fin 8) (f : Fin 16) (s : State), (s.portState n = portIdle ∨
  s.portState n = portTrain ∧ (s.fabPort n).elecOk = false) ∧ s.txIdle = false ∧ f.val ≠ 0 ∧ (s.get (L.FAB_P_CFG.X2_OK n) = 0
  ∨ f.val % 4 ≠ 0 ∧ f.val / 4 ≠ 0)) ∧ (∃ (n : Fin 8) (x : FabTrain) (m : Nat) (s : State), (s.portState n = portTrain ∧
  (s.fabPort n).elecOk = true ∨ s.portState n = portHeld) ∧ x.verMaj = 1 ∧ x.serial < 2 ^ 64 ∧ x.id < 2 ^ 14 ∧ m ≤ 2 ∧ s.get
  (L.FAB_P_CFG.MODE n) ≤ m ∧ x.modes.testBit m = true ∧ (∀ k, k < m → s.get (L.FAB_P_CFG.MODE n) ≤ k → x.modes.testBit k =
  false) ∧ (s.fabPort n).wait = [] ∧ (x.resume = none ∨ s.get (L.FAB_P_PEER.SERIAL n) ≠ x.serial)) ∧ (∃ (n : Fin 8) (x :
  FabTrain) (r : Nat) (e : Nat × Option FabPkt) (rest : List (Nat × Nat × Option FabPkt)) (s : State), s.portState n =
  portTrain ∧ (s.fabPort n).elecOk = true ∧ x.verMaj = 1 ∧ x.modes.testBit 2 = true ∧ s.get (L.FAB_P_CFG.MODE n) = 2 ∧
  (s.fabPort n).wait = [] ∧ s.get (L.FAB_P_PEER.SERIAL n) = x.serial ∧ x.resume = some r ∧ (s.fabPort n).replay = (r, e) ::
  rest) :=
  ⟨⟨7, (stN [(L.FAB_P_STATUS.STATE 7, portIdle)]), (by decide +kernel)⟩, ⟨7, 12, (stN [(L.FAB_P_STATUS.STATE 7, portIdle),
    (L.FAB_P_CFG.X2_OK 7, 1)]), (by decide +kernel)⟩, ⟨7, 12, (stN [(L.FAB_P_STATUS.STATE 7, portIdle), (L.FAB_P_CFG.X2_OK 7,
    0)]), (by decide +kernel)⟩, ⟨7, ft, 2, (trn 7 [(L.FAB_P_CFG.MODE 7, 2)]), (by decide +kernel)⟩, ⟨7,
    ({ ft with resume := some 3 }), 3, e1.2, [e2, (5, 3, none)], (fp 7
    { (default : FabPort) with elecOk := true, replay := [e1, e2, (5, 3, none)] } ((trn 7 [(L.FAB_P_CFG.MODE 7, 2)]).put
    (L.FAB_P_PEER.SERIAL 7) (2^64-1))), (by decide +kernel)⟩⟩

theorem witness_FabricPortsTrainAndTakeFlits_2 : (∃ (n : Fin 8) (x : FabTrain) (s : State), s.portState n = portTrain ∧
  (s.fabPort n).elecOk = true ∧ x.verMaj ≠ 1) ∧ (∃ (n : Fin 8) (s : State), s.portState n = portHeld ∧ s.txIdle = false) ∧ (∃
  (n : Fin 8) (s : State), (s.portState n = portTrain ∨ s.portState n = portHeld) ∧ (s.get L.TB_STATUS.PARENT_VALID = 0 ∨
  s.get L.TB_STATUS.PARENT_PORT ≠ n.val)) ∧ (∃ (n : Fin 8) (s : State), s.portState n = portUpSt ∧ FabQuiet s n) ∧ (∃ (n : Fin
  8) (f : FabFlit) (p : FabPkt) (s : State), FabFlitGood s n f ∧ f.kind.val = 1 ∧ f.seq.val = (s.fabPort n).rxSeq ∧ f.pkt =
  some p ∧ s.get L.FAB_ID.ID_VALID = 1 ∧ fabMalformed p = false ∧ (p.fvc = 2 ∨ s.get (L.FAB_P_STATUS.PARTNER_QUAR n) = 0 ∧
  s.quarantined = false)) ∧ (∃ (n : Fin 8) (f : FabFlit) (s : State), FabFlitGood s n f ∧ f.seq.val ≠ (s.fabPort n).rxSeq) :=
  ⟨⟨7, ({ ft with verMaj := 2 }), (trn 7 []), (by decide +kernel)⟩, ⟨7, (stN [(L.FAB_P_STATUS.STATE 7, portHeld)]),
    (by decide +kernel)⟩, ⟨7, (trn 7 []), (by decide +kernel)⟩, ⟨7, (up 7 []), (by decide +kernel)⟩, ⟨7, fl, pq, (rm (up 7
    [])), (by decide +kernel)⟩, ⟨7, ({ fl with seq := 4095 }), (up 7 []), (by decide +kernel)⟩⟩

theorem witness_FabricPortsTrainAndTakeFlits_3 : (∃ (n : Fin 8) (f : FabFlit) (s : State), FabFlitGood s n f) ∧ (∃ (n : Fin 8)
  (f : FabFlit) (s : State), s.portState n = portUpSt ∧ f.crcBad = true ∧ f.kind.val = 1 ∧ (s.fabPort n).rxFail = none) ∧ (∃
  (n : Fin 8) (f : FabFlit) (s : State), s.portState n = portUpSt ∧ f.crcBad = true ∧ f.kind.val = 1 ∧ FabQuiet s n ∧
  (s.fabPort n).rxFail = some (s.fabPort n).rxSeq ∧ f.seq.val = (s.fabPort n).rxSeq) ∧ (∃ (n : Fin 8) (f : FabFlit) (s :
  State), s.portState n = portUpSt ∧ f.crcBad = false ∧ (5 < f.kind.val ∨ f.reservedBad = true ∨ f.kind.val = 1 ∧ f.seq.val =
  (s.fabPort n).rxSeq ∧ (s.fabPort n).places f.fvc = 0)) ∧ (∃ (n : Fin 8) (seq : Fin 4096) (i : Nat) (s : State), s.portState
  n = portUpSt ∧ (s.fabPort n).replay.findIdx? (fun e => e.1 == seq.val) = some i) ∧ (∃ (n : Fin 8) (code : Nat) (seq : Fin
  4096) (s : State), code ≠ 0) :=
  ⟨⟨7, ({ fl with ack := some 3 }), (fp 7 { (default : FabPort) with replay := [e1, e2], room := [1, 1, 1, 1] } (up 7 [])),
    (by decide +kernel)⟩, ⟨7, ({ fl with crcBad := true }), (up 7 []), (by decide +kernel)⟩, ⟨7, ({ fl with crcBad := true }),
    (fp 7 { (default : FabPort) with rxFail := some 0 } (up 7 [])), (by decide +kernel)⟩, ⟨7, ({ fl with kind := 6 }), (up 7
    []), (by decide +kernel)⟩, ⟨7, 4, 1, (fp 7 { (default : FabPort) with replay := [e1, e2] } (up 7 [])),
    (by decide +kernel)⟩, ⟨7, 1, 4, (fp 7 { (default : FabPort) with replay := [e1, e2] } (up 7 [])), (by decide +kernel)⟩⟩

theorem witness_FabricServesPackets : (∃ (port : Fin 9) (fvc : Fin 5) (p : FabPkt) (n : Nat) (s : State) (u : State),
  s.fabHead port fvc = some p ∧ u = s.fabDrop port p ∧ p.dst ≠ s.fabId ∧ p.ptype ≠ ptDR ∧ 2 ≤ p.hops ∧ p.epoch = u.get
  L.FAB_EPOCH.EPOCH % 4 ∧ u.fabOut (u.get L.FAB_EPOCH.ACTIVE) (some port.val) p = some n ∧ u.fabBarred n p = none ∧ u.txIdle =
  false ∧ (u.fabPort n).wait = [] ∧ fabFlits p = 1 ∧ 0 < fvc.val ∧ 0 < (u.fabPort n).credit.getD (fvc.val - 1) 0 ∧ (u.fabPort
  n).replay.length < 256) ∧ (∃ (port : Fin 9) (fvc : Fin 5) (p : FabPkt) (s : State), s.fabHead port fvc = some p ∧ p.dst ≠
  s.fabId ∧ p.hops ≤ 1 ∧ ptRdRsp ≤ p.ptype ∧ p.ptype ≤ ptNAK) ∧ (∃ (port : Fin 9) (fvc : Fin 5) (p : FabPkt) (s : State),
  s.fabHead port fvc = some p ∧ p.dst ≠ s.fabId ∧ p.ptype ≠ ptDR ∧ s.get L.FAB_ID.ID_VALID = 0) ∧ (∃ (port : Fin 9) (fvc : Fin
  5) (p : FabPkt) (u : State) (d : DevAns) (s : State), FabMine s port fvc ptRD p ∧ FabAdmits s port p (s.get (L.FAB_APT.RD_OK
  (aptOf p))) p.len ∧ (s.fabDrop port p).ioRead (rsvSrc fabSrc (fvc.val == 1)) (fabTags s port p) (fabAddr s p) p.len = (u, d)
  ∧ d.err = false ∧ d.poison = false ∧ NoWait s u) ∧ (∃ (port : Fin 9) (fvc : Fin 5) (p : FabPkt) (u : State) (s : State),
  FabMine s port fvc ptWR p ∧ FabAdmits s port p (s.get (L.FAB_APT.WR_OK (aptOf p))) p.len ∧ (s.fabDrop port p).store (rsvSrc
  fabSrc (fvc.val == 1)) (fabTags s port p) (fabAddr s p) (p.data.take p.len) false = (u, true) ∧ NoWait s u ∧ p.ackReq =
  false ∧ p.rackReq = false) :=
  ⟨⟨7, 3, ({ pq with dst := 1, epoch := 0 }), 6, ((inb { pq with dst := 1, epoch := 0 } [(L.FAB_P_STATUS.STATE 6, portUpSt),
    (L.FAB_RT.PRI_V 0 0, 1), (L.FAB_RT.PRI_PORT 0 0, 6)]).setFabPort 6
    { (default : FabPort) with credit := [0, 0, 1, 0], txSeq := 4095 }), (((inb { pq with dst := 1, epoch := 0 }
    [(L.FAB_P_STATUS.STATE 6, portUpSt), (L.FAB_RT.PRI_V 0 0, 1), (L.FAB_RT.PRI_PORT 0 0, 6)]).setFabPort 6
    { (default : FabPort) with credit := [0, 0, 1, 0], txSeq := 4095 } : State).fabDrop (7 : Fin 9)
    ({ pq with dst := 1, epoch := 0 } : FabPkt)), (by decide +kernel), (by first | with_reducible rfl | decide +kernel),
    (by decide +kernel)⟩, ⟨8, 3, ({ rsp ptCMP 0 with dst := 1, hops := 1, fvc := 3 }), (slf
    { rsp ptCMP 0 with dst := 1, hops := 1, fvc := 3 } []), (by decide +kernel)⟩, ⟨7, 3, ({ pq with dst := 1 }), ((inb
    { pq with dst := 1 } []).put L.FAB_ID.ID_VALID 0), (by decide +kernel)⟩, ⟨7, 3, pRd, ((((sRd : State).fabDrop (7 : Fin 9)
    (pRd : FabPkt)).ioRead (rsvSrc fabSrc ((3 : Fin 5).val == 1)) (fabTags (sRd : State) (7 : Fin 9) (pRd : FabPkt)) (fabAddr
    (sRd : State) (pRd : FabPkt)) (pRd : FabPkt).len).1), ((((sRd : State).fabDrop (7 : Fin 9) (pRd : FabPkt)).ioRead (rsvSrc
    fabSrc ((3 : Fin 5).val == 1)) (fabTags (sRd : State) (7 : Fin 9) (pRd : FabPkt)) (fabAddr (sRd : State) (pRd : FabPkt))
    (pRd : FabPkt).len).2), sRd, (by decide +kernel), (by decide +kernel), Prod.mk.eta.symm, (by decide +kernel)⟩, ⟨7, 3, pWr,
    ((((sWr pWr : State).fabDrop (7 : Fin 9) (pWr : FabPkt)).store (rsvSrc fabSrc ((3 : Fin 5).val == 1)) (fabTags (sWr pWr :
    State) (7 : Fin 9) (pWr : FabPkt)) (fabAddr (sWr pWr : State) (pWr : FabPkt)) ((pWr : FabPkt).data.take (pWr :
    FabPkt).len) false).1), (sWr pWr), (by decide +kernel), (by decide +kernel), pair_eq (by decide +kernel),
    (by decide +kernel)⟩⟩

theorem witness_FabricServesPackets_2 : (∃ (port : Fin 9) (fvc : Fin 5) (p : FabPkt) (u : State) (s : State), FabMine s port
  fvc ptWR p ∧ FabAdmits s port p (s.get (L.FAB_APT.WR_OK (aptOf p))) p.len ∧ (s.fabDrop port p).store (rsvSrc fabSrc (fvc.val
  == 1)) (fabTags s port p) (fabAddr s p) (p.data.take p.len) false = (u, true) ∧ NoWait s u ∧ p.ackReq = true ∧ p.rackReq =
  false) ∧ (∃ (port : Fin 9) (fvc : Fin 5) (p : FabPkt) (u : State) (s : State), FabMine s port fvc ptWR p ∧ FabAdmits s port
  p (s.get (L.FAB_APT.WR_OK (aptOf p))) p.len ∧ (s.fabDrop port p).store (rsvSrc fabSrc (fvc.val == 1)) (fabTags s port p)
  (fabAddr s p) (p.data.take p.len) false = (u, true) ∧ NoWait s u ∧ p.ackReq = false ∧ p.rackReq = true) ∧ (∃ (port : Fin 9)
  (fvc : Fin 5) (p : FabPkt) (u : State) (w : State) (d : DevAns) (n : Nat) (s : State), FabMine s port fvc ptATOM p ∧ n = (if
  p.sz4 then 4 else 8) ∧ FabAdmits s port p (s.get (L.FAB_APT.ATOM_OK (aptOf p))) n ∧ (s.fabDrop port p).ioRead (rsvSrc fabSrc
  (fvc.val == 1)) (fabTags s port p) (fabAddr s p) n = (u, d) ∧ d.err = false ∧ d.poison = false ∧ NoWait s w ∧ u.store
  (rsvSrc fabSrc (fvc.val == 1)) (fabTags s port p) (fabAddr s p) (bytesLE n (fabAtomic p.aop (8 * n) (ofBytesLE d.data)
  (ofBytesLE (p.data.take 8)) (ofBytesLE ((p.data.drop 8).take 8)))) false = (w, true)) ∧ (∃ (port : Fin 9) (fvc : Fin 5) (p :
  FabPkt) (l : List (Nat × Nat)) (u : State) (v : State) (a : Bool) (s : State), FabMine s port fvc ptMSG p ∧ FabAdmits s port
  p (s.get (L.FAB_APT.MSG_OK (aptOf p))) p.len ∧ (s.fabDrop port p).ioPages (rsvSrc fabSrc (fvc.val == 1)) (fabTags s port p)
  (pagePieces (p.len / 0x1000 + 2) (fabAddr s p) p.len) = (v, some l) ∧ v.ownerSealed (.queue p.queue) = fabSealed s port p ∧
  (s.get (L.FAB_APT.VI_VALID (aptOf p)) = 1 → v.viOf (.queue p.queue) = some (s.get (L.FAB_APT.VI (aptOf p)))) ∧ p.rackReq =
  false ∧ v.qArrive p.queue (0x2000 + p.src) p.len (p.data.take p.len) = (u, a) ∧ NoWait s u ∧ p.ackReq = false) ∧ (∃ (port :
  Fin 9) (fvc : Fin 5) (p : FabPkt) (l : List (Nat × Nat)) (u : State) (v : State) (a : Bool) (s : State), FabMine s port fvc
  ptMSG p ∧ FabAdmits s port p (s.get (L.FAB_APT.MSG_OK (aptOf p))) p.len ∧ (s.fabDrop port p).ioPages (rsvSrc fabSrc (fvc.val
  == 1)) (fabTags s port p) (pagePieces (p.len / 0x1000 + 2) (fabAddr s p) p.len) = (v, some l) ∧ v.ownerSealed (.queue
  p.queue) = fabSealed s port p ∧ (s.get (L.FAB_APT.VI_VALID (aptOf p)) = 1 → v.viOf (.queue p.queue) = some (s.get
  (L.FAB_APT.VI (aptOf p)))) ∧ p.rackReq = false ∧ v.qArrive p.queue (0x2000 + p.src) p.len (p.data.take p.len) = (u, a) ∧
  NoWait s u ∧ p.ackReq = true) :=
  ⟨⟨7, 3, ({ pWr with ackReq := true }), ((((sWr { pWr with ackReq := true } : State).fabDrop (7 : Fin 9)
    ({ pWr with ackReq := true } : FabPkt)).store (rsvSrc fabSrc ((3 : Fin 5).val == 1)) (fabTags (sWr
    { pWr with ackReq := true } : State) (7 : Fin 9) ({ pWr with ackReq := true } : FabPkt)) (fabAddr (sWr
    { pWr with ackReq := true } : State) ({ pWr with ackReq := true } : FabPkt)) (({ pWr with ackReq := true } :
    FabPkt).data.take ({ pWr with ackReq := true } : FabPkt).len) false).1), (sWr { pWr with ackReq := true }),
    (by decide +kernel), (by decide +kernel), pair_eq (by decide +kernel), (by decide +kernel)⟩, ⟨7, 3,
    ({ pWr with rackReq := true }), ((((sWr { pWr with rackReq := true } : State).fabDrop (7 : Fin 9)
    ({ pWr with rackReq := true } : FabPkt)).store (rsvSrc fabSrc ((3 : Fin 5).val == 1)) (fabTags (sWr
    { pWr with rackReq := true } : State) (7 : Fin 9) ({ pWr with rackReq := true } : FabPkt)) (fabAddr (sWr
    { pWr with rackReq := true } : State) ({ pWr with rackReq := true } : FabPkt)) (({ pWr with rackReq := true } :
    FabPkt).data.take ({ pWr with rackReq := true } : FabPkt).len) false).1), (sWr { pWr with rackReq := true }),
    (by decide +kernel), (by decide +kernel), pair_eq (by decide +kernel), (by decide +kernel)⟩, ⟨7, 3, pAt, ((((sAt :
    State).fabDrop (7 : Fin 9) (pAt : FabPkt)).ioRead (rsvSrc fabSrc ((3 : Fin 5).val == 1)) (fabTags (sAt : State) (7 : Fin
    9) (pAt : FabPkt)) (fabAddr (sAt : State) (pAt : FabPkt)) (8 : Nat)).1), ((((((sAt : State).fabDrop (7 : Fin 9) (pAt :
    FabPkt)).ioRead (rsvSrc fabSrc ((3 : Fin 5).val == 1)) (fabTags (sAt : State) (7 : Fin 9) (pAt : FabPkt)) (fabAddr (sAt :
    State) (pAt : FabPkt)) (8 : Nat)).1 : State).store (rsvSrc fabSrc ((3 : Fin 5).val == 1)) (fabTags (sAt : State) (7 : Fin
    9) (pAt : FabPkt)) (fabAddr (sAt : State) (pAt : FabPkt)) (bytesLE (8 : Nat) (fabAtomic (pAt : FabPkt).aop (8 * (8 : Nat))
    (ofBytesLE ((((sAt : State).fabDrop (7 : Fin 9) (pAt : FabPkt)).ioRead (rsvSrc fabSrc ((3 : Fin 5).val == 1)) (fabTags
    (sAt : State) (7 : Fin 9) (pAt : FabPkt)) (fabAddr (sAt : State) (pAt : FabPkt)) (8 : Nat)).2 : DevAns).data) (ofBytesLE
    ((pAt : FabPkt).data.take 8)) (ofBytesLE (((pAt : FabPkt).data.drop 8).take 8)))) false).1), ((((sAt : State).fabDrop (7 :
    Fin 9) (pAt : FabPkt)).ioRead (rsvSrc fabSrc ((3 : Fin 5).val == 1)) (fabTags (sAt : State) (7 : Fin 9) (pAt : FabPkt))
    (fabAddr (sAt : State) (pAt : FabPkt)) (8 : Nat)).2), 8, sAt, (by decide +kernel), (by decide +kernel),
    (by decide +kernel), Prod.mk.eta.symm, (by decide +kernel), (by decide +kernel), (by decide +kernel),
    pair_eq (by decide +kernel)⟩, ⟨7, 3, pMs, (((((sMs pMs qon : State).fabDrop (7 : Fin 9) (pMs : FabPkt)).ioPages (rsvSrc
    fabSrc ((3 : Fin 5).val == 1)) (fabTags (sMs pMs qon : State) (7 : Fin 9) (pMs : FabPkt)) (pagePieces ((pMs : FabPkt).len
    / 0x1000 + 2) (fabAddr (sMs pMs qon : State) (pMs : FabPkt)) (pMs : FabPkt).len)).2).getD []), ((((((sMs pMs qon :
    State).fabDrop (7 : Fin 9) (pMs : FabPkt)).ioPages (rsvSrc fabSrc ((3 : Fin 5).val == 1)) (fabTags (sMs pMs qon : State)
    (7 : Fin 9) (pMs : FabPkt)) (pagePieces ((pMs : FabPkt).len / 0x1000 + 2) (fabAddr (sMs pMs qon : State) (pMs : FabPkt))
    (pMs : FabPkt).len)).1 : State).qArrive (pMs : FabPkt).queue (0x2000 + (pMs : FabPkt).src) (pMs : FabPkt).len ((pMs :
    FabPkt).data.take (pMs : FabPkt).len)).1), ((((sMs pMs qon : State).fabDrop (7 : Fin 9) (pMs : FabPkt)).ioPages (rsvSrc
    fabSrc ((3 : Fin 5).val == 1)) (fabTags (sMs pMs qon : State) (7 : Fin 9) (pMs : FabPkt)) (pagePieces ((pMs : FabPkt).len
    / 0x1000 + 2) (fabAddr (sMs pMs qon : State) (pMs : FabPkt)) (pMs : FabPkt).len)).1), ((((((sMs pMs qon : State).fabDrop
    (7 : Fin 9) (pMs : FabPkt)).ioPages (rsvSrc fabSrc ((3 : Fin 5).val == 1)) (fabTags (sMs pMs qon : State) (7 : Fin 9) (pMs
    : FabPkt)) (pagePieces ((pMs : FabPkt).len / 0x1000 + 2) (fabAddr (sMs pMs qon : State) (pMs : FabPkt)) (pMs :
    FabPkt).len)).1 : State).qArrive (pMs : FabPkt).queue (0x2000 + (pMs : FabPkt).src) (pMs : FabPkt).len ((pMs :
    FabPkt).data.take (pMs : FabPkt).len)).2), (sMs pMs qon), (by decide +kernel), (by decide +kernel),
    pair_eq (by decide +kernel), (by decide +kernel), (by decide +kernel), (by decide +kernel), Prod.mk.eta.symm,
    (by decide +kernel)⟩, ⟨7, 3, ({ pMs with ackReq := true }), (((((sMs { pMs with ackReq := true } [] : State).fabDrop (7 :
    Fin 9) ({ pMs with ackReq := true } : FabPkt)).ioPages (rsvSrc fabSrc ((3 : Fin 5).val == 1)) (fabTags (sMs
    { pMs with ackReq := true } [] : State) (7 : Fin 9) ({ pMs with ackReq := true } : FabPkt)) (pagePieces
    (({ pMs with ackReq := true } : FabPkt).len / 0x1000 + 2) (fabAddr (sMs { pMs with ackReq := true } [] : State)
    ({ pMs with ackReq := true } : FabPkt)) ({ pMs with ackReq := true } : FabPkt).len)).2).getD []), ((((((sMs
    { pMs with ackReq := true } [] : State).fabDrop (7 : Fin 9) ({ pMs with ackReq := true } : FabPkt)).ioPages (rsvSrc fabSrc
    ((3 : Fin 5).val == 1)) (fabTags (sMs { pMs with ackReq := true } [] : State) (7 : Fin 9) ({ pMs with ackReq := true } :
    FabPkt)) (pagePieces (({ pMs with ackReq := true } : FabPkt).len / 0x1000 + 2) (fabAddr (sMs { pMs with ackReq := true }
    [] : State) ({ pMs with ackReq := true } : FabPkt)) ({ pMs with ackReq := true } : FabPkt).len)).1 : State).qArrive
    ({ pMs with ackReq := true } : FabPkt).queue (0x2000 + ({ pMs with ackReq := true } : FabPkt).src)
    ({ pMs with ackReq := true } : FabPkt).len (({ pMs with ackReq := true } : FabPkt).data.take ({ pMs with ackReq := true }
    : FabPkt).len)).1), ((((sMs { pMs with ackReq := true } [] : State).fabDrop (7 : Fin 9) ({ pMs with ackReq := true } :
    FabPkt)).ioPages (rsvSrc fabSrc ((3 : Fin 5).val == 1)) (fabTags (sMs { pMs with ackReq := true } [] : State) (7 : Fin 9)
    ({ pMs with ackReq := true } : FabPkt)) (pagePieces (({ pMs with ackReq := true } : FabPkt).len / 0x1000 + 2) (fabAddr
    (sMs { pMs with ackReq := true } [] : State) ({ pMs with ackReq := true } : FabPkt)) ({ pMs with ackReq := true } :
    FabPkt).len)).1), ((((((sMs { pMs with ackReq := true } [] : State).fabDrop (7 : Fin 9) ({ pMs with ackReq := true } :
    FabPkt)).ioPages (rsvSrc fabSrc ((3 : Fin 5).val == 1)) (fabTags (sMs { pMs with ackReq := true } [] : State) (7 : Fin 9)
    ({ pMs with ackReq := true } : FabPkt)) (pagePieces (({ pMs with ackReq := true } : FabPkt).len / 0x1000 + 2) (fabAddr
    (sMs { pMs with ackReq := true } [] : State) ({ pMs with ackReq := true } : FabPkt)) ({ pMs with ackReq := true } :
    FabPkt).len)).1 : State).qArrive ({ pMs with ackReq := true } : FabPkt).queue (0x2000 + ({ pMs with ackReq := true } :
    FabPkt).src) ({ pMs with ackReq := true } : FabPkt).len (({ pMs with ackReq := true } : FabPkt).data.take
    ({ pMs with ackReq := true } : FabPkt).len)).2), (sMs { pMs with ackReq := true } []), (by decide +kernel),
    (by decide +kernel), pair_eq (by decide +kernel), (by decide +kernel), (by decide +kernel), (by decide +kernel),
    Prod.mk.eta.symm, (by decide +kernel)⟩⟩

theorem witness_FabricServesPackets_3 : (∃ (port : Fin 9) (fvc : Fin 5) (p : FabPkt) (st : Nat) (s : State), FabMine s port
  fvc p.ptype p ∧ (st = fsAperture ∧ p.sync = false ∧ s.get (L.FAB_APT.EN (aptOf p)) = 0 ∨ st = fsExcluded ∧ p.sync = true ∧
  s.get L.TB_STATUS.SYNC_OK = 0) ∧ p.ptype = ptRD) ∧ (∃ (port : Fin 9) (fvc : Fin 5) (p : FabPkt) (st : Nat) (s : State),
  FabMine s port fvc p.ptype p ∧ (st = fsAperture ∧ p.sync = false ∧ s.get (L.FAB_APT.EN (aptOf p)) = 0 ∨ st = fsExcluded ∧
  p.sync = true ∧ s.get L.TB_STATUS.SYNC_OK = 0) ∧ p.ptype = ptATOM) ∧ (∃ (port : Fin 9) (fvc : Fin 5) (p : FabPkt) (st : Nat)
  (s : State), FabMine s port fvc p.ptype p ∧ (st = fsAperture ∧ p.sync = false ∧ s.get (L.FAB_APT.EN (aptOf p)) = 0 ∨ st =
  fsExcluded ∧ p.sync = true ∧ s.get L.TB_STATUS.SYNC_OK = 0) ∧ p.ptype = ptWR ∧ p.ackReq = true ∧ p.rackReq = false) ∧ (∃
  (port : Fin 9) (fvc : Fin 5) (p : FabPkt) (st : Nat) (s : State), FabMine s port fvc p.ptype p ∧ (st = fsAperture ∧ p.sync =
  false ∧ s.get (L.FAB_APT.EN (aptOf p)) = 0 ∨ st = fsExcluded ∧ p.sync = true ∧ s.get L.TB_STATUS.SYNC_OK = 0) ∧ p.ptype =
  ptMSG ∧ p.ackReq = true ∧ p.rackReq = false) ∧ (∃ (port : Fin 9) (fvc : Fin 5) (p : FabPkt) (s : State), FabMine s port fvc
  ptRD p ∧ p.sync = false ∧ s.get (L.FAB_APT.EN (aptOf p)) = 1 ∧ s.get (L.FAB_APT.RD_OK (aptOf p)) = 1 ∧ p.offset % 0x10000000
  + p.len ≤ 0x10000000 ∧ ¬ (fabSealed s port p = true ↔ s.get (L.FAB_APT.WORLD (aptOf p)) = 1)) :=
  ⟨⟨7, 3, pRd, fsAperture, (inb pRd []), (by decide +kernel)⟩, ⟨7, 3, ({ pAt with sync := true }), fsExcluded, (inb
    { pAt with sync := true } []), (by decide +kernel)⟩, ⟨7, 3, ({ pWr with ackReq := true }), fsAperture, (inb
    { pWr with ackReq := true } []), (by decide +kernel)⟩, ⟨7, 3, ({ pMs with ackReq := true }), fsAperture, (inb
    { pMs with ackReq := true } []), (by decide +kernel)⟩, ⟨7, 3, pRd, (inb pRd (apt (L.FAB_APT.RD_OK 0) ++ [(L.FAB_APT.WORLD
    0, 0)])), (by decide +kernel)⟩⟩

theorem witness_FabricRequestsEnd : (∃ (port : Fin 9) (fvc : Fin 5) (p : FabPkt) (o : FabOpen) (h : Agent) (n : Nat) (s :
  State) (u : State), FabMine s port fvc ptRdRsp p ∧ u = s.fabDrop port p ∧ FabAnswersOpen u p o ∧ o.pkt.ptype = ptRD ∧ o.user
  = .core h (.load n) ∧ p.status = 0) ∧ (∃ (port : Fin 9) (fvc : Fin 5) (p : FabPkt) (o : FabOpen) (h : Agent) (n : Nat) (s :
  State) (u : State), FabMine s port fvc ptRdRsp p ∧ u = s.fabDrop port p ∧ FabAnswersOpen u p o ∧ o.pkt.ptype = ptRD ∧ o.user
  = .core h (.load n) ∧ p.status ≠ 0) ∧ (∃ (port : Fin 9) (fvc : Fin 5) (p : FabPkt) (o : FabOpen) (h : Agent) (k :
  RemoteKind) (s : State) (u : State), FabMine s port fvc ptAtomRsp p ∧ u = s.fabDrop port p ∧ FabAnswersOpen u p o ∧
  o.pkt.ptype = ptATOM ∧ o.user = .core h k ∧ p.status = 0 ∧ o.pkt.sz4 = false) ∧ (∃ (port : Fin 9) (fvc : Fin 5) (p : FabPkt)
  (o : FabOpen) (s : State) (u : State) (h : Agent) (b : List Nat), FabMine s port fvc ptCMP p ∧ u = s.fabDrop port p ∧
  FabAnswersOpen u p o ∧ o.pkt.ptype = ptWR ∧ p.status = 0 ∧ o.user = .core h (.store b)) ∧ (∃ (port : Fin 9) (fvc : Fin 5) (p
  : FabPkt) (o : FabOpen) (s : State) (u : State) (e : Nat) (x : QCmd), FabMine s port fvc ptCMP p ∧ u = s.fabDrop port p ∧
  FabAnswersOpen u p o ∧ o.pkt.ptype = ptWR ∧ p.status = 0 ∧ o.user = .qe e x.id ∧ (u.qeOf e).cmds = [x]) :=
  ⟨⟨7, 4, (rsp ptRdRsp 0), (op ptRD (.core .newt (.load 8))), .newt, 8, (opn (rsp ptRdRsp 0) (op ptRD (.core .newt (.load 8)))),
    ((opn (rsp ptRdRsp 0) (op ptRD (.core .newt (.load 8))) : State).fabDrop (7 : Fin 9) (rsp ptRdRsp 0 : FabPkt)),
    (by decide +kernel), (by first | with_reducible rfl | decide +kernel), (by decide +kernel)⟩, ⟨7, 4, (rsp ptRdRsp 6), (op
    ptRD (.core .newt (.load 8))), .newt, 8, (opn (rsp ptRdRsp 6) (op ptRD (.core .newt (.load 8)))), ((opn (rsp ptRdRsp 6)
    (op ptRD (.core .newt (.load 8))) : State).fabDrop (7 : Fin 9) (rsp ptRdRsp 6 : FabPkt)), (by decide +kernel),
    (by first | with_reducible rfl | decide +kernel), (by decide +kernel)⟩, ⟨7, 4, (rsp ptAtomRsp 0), (op ptATOM (.core .newt
    (.amo .add true 3))), .newt, (.amo .add true 3), (opn (rsp ptAtomRsp 0) (op ptATOM (.core .newt (.amo .add true 3)))),
    ((opn (rsp ptAtomRsp 0) (op ptATOM (.core .newt (.amo .add true 3))) : State).fabDrop (7 : Fin 9) (rsp ptAtomRsp 0 :
    FabPkt)), (by decide +kernel), (by first | with_reducible rfl | decide +kernel), (by decide +kernel)⟩, ⟨7, 4, (rsp ptCMP
    0), (op ptWR (.core .newt (.store [1]))), (opn (rsp ptCMP 0) (op ptWR (.core .newt (.store [1])))), ((opn (rsp ptCMP 0)
    (op ptWR (.core .newt (.store [1]))) : State).fabDrop (7 : Fin 9) (rsp ptCMP 0 : FabPkt)), .newt, [1],
    (by decide +kernel), (by first | with_reducible rfl | decide +kernel), (by decide +kernel)⟩, ⟨7, 4, (rsp ptCMP 0), (op
    ptWR (.qe 3 9)), ({ opn (rsp ptCMP 0) (op ptWR (.qe 3 9)) with qe := SMap.set [] 3 ⟨[qc], 1, 0, 0, 0⟩ }),
    (({ opn (rsp ptCMP 0) (op ptWR (.qe 3 9)) with qe := SMap.set [] 3 ⟨[qc], 1, 0, 0, 0⟩ } : State).fabDrop (7 : Fin 9) (rsp
    ptCMP 0 : FabPkt)), 3, qc, (by decide +kernel), (by first | with_reducible rfl | decide +kernel), (by decide +kernel)⟩⟩

theorem witness_FabricRequestsEnd_2 : (∃ (port : Fin 9) (fvc : Fin 5) (p : FabPkt) (o : FabOpen) (l : Nat) (s : State) (u :
  State), FabMine s port fvc ptRACK p ∧ u = s.fabDrop port p ∧ FabAnswersOpen u p o ∧ o.pkt.ptype = ptMSG ∧ o.user = .launch l
  ∧ p.status = 0) ∧ (∃ (port : Fin 9) (fvc : Fin 5) (p : FabPkt) (s : State) (u : State), FabMine s port fvc ptRdRsp p ∧ u =
  s.fabDrop port p ∧ u.fab.opens = [] ∧ p.txn ∉ u.fab.timedOut) ∧ (∃ (port : Fin 9) (fvc : Fin 5) (p : FabPkt) (s : State) (u
  : State), FabMine s port fvc ptRdRsp p ∧ u = s.fabDrop port p ∧ u.fab.opens = [] ∧ p.txn ∈ u.fab.timedOut) ∧ (∃ (port : Fin
  9) (fvc : Fin 5) (p : FabPkt) (s : State) (u : State), FabMine s port fvc ptNAK p ∧ u = s.fabDrop port p ∧ p.status < 256 ∧
  p.src < 2 ^ 14) ∧ (∃ (port : Fin 9) (fvc : Fin 5) (p : FabPkt) (s : State), FabMine s port fvc ptMMSG p ∧ p.len < 256 ∧
  p.src < 2 ^ 14 ∧ wrapSub 16 (s.get L.FAB_MRX_IDX.PROD) (s.get L.FAB_MRX_IDX.CONS) < 2 ^ s.get L.FAB_MRX_RING.LOG2N ∧ s.get
  L.FAB_MSI.EN = 0 ∧ (p.data.take p.len).length ≤ 192 ∧ NoWait s (s.mrxWritten port p (mmsgEntry p))) :=
  ⟨⟨7, 4, (rsp ptRACK 0), (op ptMSG (.launch 3)), 3,
    ({ opn (rsp ptRACK 0) (op ptMSG (.launch 3)) with launches := [⟨3, 8, 0, 0, 0, true, none, 0, false, [], false, 0, true, false, 0, none⟩] }),
    (({ opn (rsp ptRACK 0) (op ptMSG (.launch 3)) with launches := [⟨3, 8, 0, 0, 0, true, none, 0, false, [], false, 0, true, false, 0, none⟩] }
    : State).fabDrop (7 : Fin 9) (rsp ptRACK 0 : FabPkt)), (by decide +kernel),
    (by first | with_reducible rfl | decide +kernel), (by decide +kernel)⟩, ⟨7, 4, (rsp ptRdRsp 0), (inb (rsp ptRdRsp 0) []),
    ((inb (rsp ptRdRsp 0) [] : State).fabDrop (7 : Fin 9) (rsp ptRdRsp 0 : FabPkt)), (by decide +kernel),
    (by first | with_reducible rfl | decide +kernel), (by decide +kernel)⟩, ⟨7, 4, (rsp ptRdRsp 0),
    (let s := inb (rsp ptRdRsp 0) []; s.setFab { s.fab with timedOut := [77, 78] }), ((let s := inb (rsp ptRdRsp 0) [];
    s.setFab { s.fab with timedOut := [77, 78] } : State).fabDrop (7 : Fin 9) (rsp ptRdRsp 0 : FabPkt)), (by decide +kernel),
    (by first | with_reducible rfl | decide +kernel), (by decide +kernel)⟩, ⟨7, 2,
    ({ rsp ptNAK 6 with fvc := 2, offset := 0x101 }), (inb { rsp ptNAK 6 with fvc := 2, offset := 0x101 } []), ((inb
    { rsp ptNAK 6 with fvc := 2, offset := 0x101 } [] : State).fabDrop (7 : Fin 9)
    ({ rsp ptNAK 6 with fvc := 2, offset := 0x101 } : FabPkt)), (by decide +kernel),
    (by first | with_reducible rfl | decide +kernel), (by decide +kernel)⟩, ⟨7, 2, mms, (inb mms [(L.FAB_MRX_RING.LOG2N, 10),
    (L.FAB_MRX_IDX.PROD, 65535), (L.FAB_MRX_IDX.CONS, 65535)]), (by decide +kernel)⟩⟩

theorem witness_FabricRequestsEnd_3 : (∃ (port : Fin 9) (fvc : Fin 5) (p : FabPkt) (s : State), s.fabHead port fvc = some p ∧
  p.ptype = ptDR ∧ bits (ofBytesLE (p.data.take 8)) 41 37 + 1 = bits (ofBytesLE (p.data.take 8)) 36 32 ∧ wrapSub 16 (s.get
  L.FAB_MRX_IDX.PROD) (s.get L.FAB_MRX_IDX.CONS) < 2 ^ s.get L.FAB_MRX_RING.LOG2N ∧ s.get L.FAB_MSI.EN = 0 ∧ NoWait s
  (s.mrxWritten port p (drEntry s port p))) ∧ (∃ (port : Fin 9) (fvc : Fin 5) (p : FabPkt) (ptr : Nat) (n : Nat) (s : State)
  (u : State), s.fabHead port fvc = some p ∧ p.ptype = ptDR ∧ u = s.fabDrop port p ∧ p.fvc = 2 ∧ bits (ofBytesLE (p.data.take
  8)) 41 37 = ptr ∧ ptr + 1 ≠ bits (ofBytesLE (p.data.take 8)) 36 32 ∧ bits (ofBytesLE ((p.data.drop 8).take 8)) (3 * (ptr +
  1) + 2) (3 * (ptr + 1)) = n ∧ u.portState n = portUpSt ∧ (u.fabPort n).wait = [] ∧ (u.fabPort n).credit.getD 1 0 = 0) ∧ (∃
  (c : Issuer) (a : PAddr) (k : RemoteKind) (r : Bool) (s : State), Sends s c ∧ 0x400000000000 ≤ a.toNat ∧ a.toNat <
  0x800000000000 ∧ remoteOk (a.toNat % 2 ^ 32) k = true ∧ s.agentIn c = true ∧ s.pmpStops c a.toNat (remotePmp k).1 (remotePmp
  k).2 = false ∧ s.fab.opens.length < 1024 ∧ s.get L.FAB_ID.ID_VALID = 1 ∧ a.toNat / 2 ^ 32 % 2 ^ 14 = s.fabId) ∧ (∃ (c :
  Issuer) (a : PAddr) (k : RemoteKind) (r : Bool) (s : State), Sends s c ∧ 0x400000000000 ≤ a.toNat ∧ a.toNat < 0x800000000000
  ∧ remoteOk (a.toNat % 2 ^ 32) k = true ∧ s.agentIn c = true ∧ s.pmpStops c a.toNat (remotePmp k).1 (remotePmp k).2 = false ∧
  s.fab.opens.length < 1024 ∧ a.toNat / 2 ^ 32 % 2 ^ 14 ≠ s.fabId ∧ FabCutOff s) ∧ (∃ (c : Issuer) (a : PAddr) (k :
  RemoteKind) (r : Bool) (s : State), Sends s c ∧ s.agentIn c = true ∧ (a.toNat < 0x400000000000 ∨ 0x800000000000 ≤ a.toNat ∨
  remoteOk (a.toNat % 2 ^ 32) k = false)) ∧ (∃ (o : FabOpen) (h : Agent) (n : Nat) (s : State), s.fab.opens = [o] ∧
  s.fab.later = [] ∧ o.user = .core h (.load n)) :=
  ⟨⟨7, 2, (dr 15 16), (inb (dr 15 16) []), (by decide +kernel)⟩, ⟨7, 2, (dr 2 5), 2, 7, (inb (dr 2 5) []), ((inb (dr 2 5) [] :
    State).fabDrop (7 : Fin 9) (dr 2 5 : FabPkt)), (by decide +kernel), (by decide +kernel),
    (by first | with_reducible rfl | decide +kernel), (by decide +kernel), (by first | with_reducible rfl | decide +kernel),
    (by decide +kernel), (by first | with_reducible rfl | decide +kernel), (by decide +kernel)⟩, ⟨devO, (BitVec.ofNat 48
    (0x400000000000 + me * 2^32 + 0xFFFFFFF8)), (.load 8), true, (stN idL), (by decide +kernel)⟩, ⟨newtS, (BitVec.ofNat 48
    (0x400000000000 + 1 * 2^32 + 0xFFFFFFF8)), (.load 4), false, (stN idL), (by decide +kernel)⟩, ⟨newtS, (BitVec.ofNat 48
    0x3FFFFFFFFFF8), (.load 8), true, (stN idL), (by decide +kernel)⟩, ⟨(op ptRD (.core .newt (.load 8))), .newt, 8, (opn (rsp
    ptRdRsp 0) (op ptRD (.core .newt (.load 8)))), (by decide +kernel)⟩⟩

theorem witness_FabricKeepsWatch : (∃ (s : State), ¬ s.ticking ∧ s.txIdle = false) ∧ (∃ (n : Fin 8) (b : FabBeacon) (s :
  State), s.portState n = portUpSt ∧ b.id < 2 ^ 14 ∧ (∀ m, m < 8 → (s.fabPort m).wait = [])) ∧ (∃ (n : Fin 8) (s : State),
  s.portState n = portUpSt ∧ s.get (L.FAB_P_STATUS.BEACON_SEEN n) = 1 ∧ FabQuiet s n) ∧ (∃ (c : Issuer) (v : Word) (s :
  State), Sends s c ∧ c.sealed = true ∧ v.getLsbD 0 = true ∧ s.get L.FAB_EPOCH.EPOCH < fieldOf v 32 32 ∧ ¬ s.ticking ∧
  NotAsked s L.FAB_EPOCH_NEXT.ARM) ∧ (∃ (c : Issuer) (v : Word) (s : State), Sends s c ∧ c.sealed = true ∧ v.getLsbD 0 = true
  ∧ s.get L.FAB_EPOCH.EPOCH < fieldOf v 32 32 ∧ s.ticking ∧ s.frame + 2 ≤ s.get L.FAB_EPOCH_FRAME.FRAME) :=
  ⟨⟨(up 7 [(L.FAB_P_STATUS.STATE 0, portUpSt)]), (by decide +kernel)⟩, ⟨7, bc, (up 7 []), (by decide +kernel)⟩, ⟨7, (up 7
    [(L.FAB_P_STATUS.BEACON_SEEN 7, 1)]), (by decide +kernel)⟩, ⟨newtS, (BitVec.ofNat 64 (5 * 2^32 + 1)), (stN
    [(L.FAB_EPOCH.EPOCH, 4)]), (by decide +kernel)⟩, ⟨newtS, (BitVec.ofNat 64 ((2^32-1) * 2^32 + 1)), (stN
    [(L.FAB_EPOCH.EPOCH, 4), (L.TB_STATUS.TICKING, 1), (L.FAB_EPOCH_FRAME.FRAME, 2^32)]), (by decide +kernel)⟩⟩

theorem witness_FabricKeepsWatch_2 : (∃ (c : Issuer) (v : Word) (s : State), Sends s c ∧ c.sealed = true ∧ v.getLsbD 0 = true
  ∧ s.get L.FAB_EPOCH.EPOCH < fieldOf v 32 32 ∧ s.ticking ∧ s.get L.FAB_EPOCH_FRAME.FRAME < s.frame + 2) ∧ (∃ (c : Issuer) (v
  : Word) (s : State), Sends s c ∧ (c.sealed = false ∨ v.getLsbD 0 = true ∧ fieldOf v 32 32 ≤ s.get L.FAB_EPOCH.EPOCH)) ∧ (∃
  (s : State), s.get L.FAB_EPOCH_NEXT.ARM = 1 ∧ s.ticking ∧ NotAsked s L.FAB_EPOCH_NEXT.ARM) ∧ (∃ (c : Issuer) (v : Word) (s :
  State), Sends s c ∧ c.sealed = true ∧ v.getLsbD 63 = true) ∧ (∃ (c : Issuer) (v : Word) (s : State), Sends s c ∧ c.sealed =
  true ∧ v.getLsbD 63 = false ∧ v.getLsbD 61 = true) :=
  ⟨⟨newtS, (BitVec.ofNat 64 ((2^32-1) * 2^32 + 1)), (stN [(L.FAB_EPOCH.EPOCH, 4), (L.TB_STATUS.TICKING, 1),
    (L.FAB_EPOCH_FRAME.FRAME, 0)]), (by decide +kernel)⟩, ⟨newtS, (BitVec.ofNat 64 (4 * 2^32 + 1)), (stN [(L.FAB_EPOCH.EPOCH,
    4)]), (by decide +kernel)⟩, ⟨(stN [(L.FAB_EPOCH_NEXT.ARM, 1), (L.TB_STATUS.TICKING, 1), (L.FAB_EPOCH_NEXT.NEXT, 2^32-1)]),
    (by decide +kernel)⟩, ⟨newtS, (BitVec.ofNat 64 (2^63)), (stN [(L.FAB_PROFILE.WORD 1, 1)]), (by decide +kernel)⟩, ⟨newtS,
    (BitVec.ofNat 64 (2^61)), (cmt 0 []), (by decide +kernel)⟩⟩

theorem witness_FabricKeepsWatch_3 : (∃ (st : Nat) (s : State), s.fab.commit = some st ∧ s.get L.FAB_PROFILE_CTRL.READY = 0 ∧
  st < 256) ∧ (∃ (c : Issuer) (v : Word) (s : State), Sends s c ∧ c.sealed = true ∧ wrapSub 16 (fieldOf v 0 16) (s.get
  L.FAB_MTX_IDX.CONS) ≤ 2 ^ s.get L.FAB_MTX_RING.LOG2N ∧ NoWait s ((s.answer .ok).writeMtxIdx c v.toNat)) ∧ (∃ (c : Issuer) (v
  : Word) (s : State), Sends s c ∧ c.sealed = true ∧ fieldOf v 0 16 = (s.get L.FAB_MTX_IDX.CONS + 1) % 2 ^ 16 ∧ (s.mtxRead
  v).2.err = false ∧ ofBytesLE ((s.mtxRead v).2.data.take 8) % 2 ^ 8 = ptMMSG ∧ NoWait s (s.mtxRead v).1 ∧ 1 ≤ mtxLen
  (s.mtxRead v).2.data ∧ mtxLen (s.mtxRead v).2.data ≤ 192) ∧ (∃ (c : Issuer) (v : Word) (s : State), Sends s c ∧ (c.sealed =
  false ∨ 2 ^ s.get L.FAB_MTX_RING.LOG2N < wrapSub 16 (fieldOf v 0 16) (s.get L.FAB_MTX_IDX.CONS))) ∧ (∃ (c : Issuer) (v :
  Word) (s : State), Sends s c ∧ c.sealed = false) :=
  ⟨⟨255, (cmt 255 []), (by decide +kernel)⟩, ⟨newtS, 0, (stN [(L.FAB_MTX_RING.LOG2N, 10), (L.FAB_MTX_IDX.CONS, 65535)]),
    (by decide +kernel)⟩, ⟨newtS, 0x10000, (sMtx 192), (by decide +kernel), (by decide +kernel), (by decide +kernel),
    (by decide +kernel), (by first | with_reducible rfl | decide +kernel), (by decide +kernel)⟩, ⟨devO, 0, (stN []),
    (by decide +kernel)⟩, ⟨devO, 0, (stN []), (by decide +kernel)⟩⟩

end W12

namespace W13

def kw (cmd slot parent kind usage : Nat) : Word := BitVec.ofNat 64 (2^63 + cmd + slot*2^8 + parent*2^16 + kind*2^24 + usage*2^30)
def ow (ty i : Nat) : Word := BitVec.ofNat 64 (2^63 + ty*2^16 + i)
def puf (l : List (Loc × Nat)) : State := stN ([(L.KS_STATUS.PUF_OK, 1)] ++ l)
def slot (n kind usage : Nat) (key : Bytes) (s : State) : State := { (s.put (L.KS_SLOT.KIND n) kind).put (L.KS_SLOT.USAGE n) usage with slotKey := SMap.set s.slotKey n key }
def k32 : Bytes := List.range 32
def wrB (a : Nat) (l : List Nat) (s : State) : State := (l.zip (List.range l.length)).foldl (fun s p => s.writeByte (a + p.2) (BitVec.ofNat 8 p.1)) s
def rel (w : Bool) (r : Res) (a : Nat) (s : State) : State := { s with ownReq := SMap.set s.ownReq (wBit w) (some ⟨r, a⟩), releasing := [r] }
def te (w : Bool) (v : Option Nat) (p : Nat) : TlbEnt := ⟨w, v, 0, p, 3, 15⟩
def tl (s : State) : State := { s with iotlb := [te true none 1, te true (some 3) 9, te true (some 3) 8, te false (some 3) 9] }
def dv : State := slot 0 4 0x10 k32 (puf [])
def kek : State := slot 9 2 8 k32 (puf [(L.KS_ARG2.LEN true, 48), (L.KS_ARG0.ADDR true, 0x1000)])
def wrapd : Bytes := kwpWrap k32 (bytesLE 8 (2 + 256*0x20) ++ k32)
def kekI : State := wrB 0x1000 wrapd kek
def expS : State := slot 10 2 0x20 k32 kek
def att (i : Nat) : State := puf [(L.KS_STATUS.IDX_READY, 1), (L.KS_ATT_IDX.NEXT, i)]
def bel (stg : Nat) (l : List (Loc × Nat)) : State := stN ([(L.WLD_BELAY_STAT.STAGE, stg), (L.WLD_BELAY_CFG.EN, 1), (L.WLD_BELAY_CFG.TIMEOUT, 100)] ++ l)
def pt (p : Nat) (s : State) : State := { s with belay := { s.belay with lastPet := some p } }
def bt (b : List (Option Nat)) (s : State) : State := { s with ks := { s.ks with booted := b, mgmt := [1, 2, 3], entry := 0x1004 } }
def rq (st : Option Nat) : KsReq := ⟨st, 3, [1], 4⟩
def kreq (w : Bool) (q : KsReq) (s : State) : State := s.setKsReq w (some q)

theorem witness_ResourcesAndTranslationsPass : (∃ (c : Issuer) (v : Word) (r : Res) (s : State), Sends s c ∧ v.getLsbD 63 =
  true ∧ s.ownReqOf c.sealed = none ∧ ownResource (fieldOf v 16 4) (fieldOf v 0 12) = some r ∧ s.ownerSealed r = c.sealed ∧
  s.isReleasing r = false ∧ s.assigned r = false ∧ s.pinned r = false) ∧ (∃ (c : Issuer) (v : Word) (r : Res) (s : State),
  Sends s c ∧ v.getLsbD 63 = true ∧ s.ownReqOf c.sealed = none ∧ ownResource (fieldOf v 16 4) (fieldOf v 0 12) = some r ∧
  s.ownerSealed r = c.sealed ∧ s.isReleasing r = false ∧ s.assigned r = false ∧ s.pinned r = true) ∧ (∃ (c : Issuer) (v :
  Word) (s : State), Sends s c ∧ v.getLsbD 63 = true ∧ s.ownReqOf c.sealed = none ∧ ownResource (fieldOf v 16 4) (fieldOf v 0
  12) = none) ∧ (∃ (c : Issuer) (v : Word) (r : Res) (s : State), Sends s c ∧ v.getLsbD 63 = true ∧ s.ownReqOf c.sealed = none
  ∧ ownResource (fieldOf v 16 4) (fieldOf v 0 12) = some r ∧ s.ownerSealed r ≠ c.sealed) :=
  ⟨⟨newtS, (ow 1 33), (.pwr 33), ((st []).setOwner (.pwr 33) true), (by decide +kernel)⟩, ⟨newtS, (ow 2 21), (.clk 21), ((st
    []).setOwner (.clk 21) true), (by decide +kernel)⟩, ⟨newtS, (ow 0 0), (st []), (by decide +kernel)⟩, ⟨devO, (ow 1 33),
    (.pwr 33), ((st []).setOwner (.pwr 33) true), (by decide +kernel)⟩⟩

theorem witness_ResourcesAndTranslationsPass_2 : (∃ (c : Issuer) (v : Word) (r : Res) (s : State), Sends s c ∧ v.getLsbD 63 =
  true ∧ s.ownReqOf c.sealed = none ∧ ownResource (fieldOf v 16 4) (fieldOf v 0 12) = some r ∧ s.ownerSealed r = c.sealed ∧
  s.isReleasing r = false ∧ s.assigned r = true) ∧ (∃ (c : Issuer) (v : Word) (q : OwnReq) (s : State), Sends s c ∧ v.getLsbD
  63 = true ∧ s.ownReqOf c.sealed = some q) ∧ (∃ (w : Bool) (ty : Nat) (i : Nat) (a : Nat) (r : Res) (s : State), s.ownReqOf w
  = some ⟨r, a⟩ ∧ ownResource ty i = some r ∧ ((s.elapseUntil (a + 1)).ownPrepare r).ownBusy r = false) ∧ (∃ (w : Bool) (a :
  Nat) (r : Res) (s : State), s.ownReqOf w = some ⟨r, a⟩ ∧ ((s.elapseUntil (a + 1)).ownPrepare r).ownBusy r = true) ∧ (∃ (w :
  Bool) (a : Nat) (r : Res) (s : State), s.ownReqOf w = some ⟨r, a⟩ ∧ s.ownBusy r = true) :=
  ⟨⟨newtS, (ow 4 7), (.qe 7), ((st []).setVi (.ch 127) (some 3)), (by decide +kernel)⟩, ⟨newtS, (ow 4 7), ⟨.qe 7, 3⟩, (rel true
    (.qe 7) 3 (st [])), (by decide +kernel)⟩, ⟨true, 1, 33, 3, (.pwr 33), (rel true (.pwr 33) 3 (st [])),
    (by decide +kernel)⟩, ⟨true, 3, .cairn, ({ rel true .cairn 3 (st []) with capBusy := some 1 }), (by decide +kernel)⟩,
    ⟨true, 3, .cairn, ({ rel true .cairn 3 (st []) with capBusy := some 1 }), (by decide +kernel)⟩⟩

theorem witness_ResourcesAndTranslationsPass_3 : (∃ (c : Issuer) (v : Word) (s : State), Sends s c ∧ v.getLsbD 62 = true ∧
  s.get (L.WLD_OWN_RES.READY c.sealed) = 1) ∧ (∃ (c : Issuer) (v : Word) (s : State), Sends s c ∧ v.getLsbD 63 = true ∧
  fieldOf v 56 2 ≠ 3 ∧ SMap.get s.invReq (wBit c.sealed) = none) ∧ (∃ (c : Issuer) (v : Word) (s : State), Sends s c ∧
  (fieldOf v 56 2 = 3 ∨ v.getLsbD 63 = true ∧ SMap.get s.invReq (wBit c.sealed) ≠ none)) ∧ (∃ (w : Bool) (q : InvReq) (s :
  State), SMap.get s.invReq (wBit w) = some q) ∧ (∃ (c : Issuer) (v : Word) (s : State), Sends s c ∧ v.getLsbD 62 = true) :=
  ⟨⟨newtS, (BitVec.ofNat 64 (2^62)), (st [(L.WLD_OWN_RES.READY true, 1)]), (by decide +kernel)⟩, ⟨newtS, (BitVec.ofNat 64
    (2^63)), (tl (st [])), (by decide +kernel)⟩, ⟨newtS, (BitVec.ofNat 64 (3 * 2^56)), (tl (st [])), (by decide +kernel)⟩,
    ⟨true, ⟨0, 0, 0⟩, ({ tl (st []) with invReq := SMap.set [] (wBit true) (some ⟨0, 0, 0⟩) }), (by decide +kernel)⟩, ⟨newtS,
    (BitVec.ofNat 64 (2^62)), (st [(L.WLD_IOMMU_INVRES.READY true, 1)]), (by decide +kernel)⟩⟩

theorem witness_BootTokenAndBelay : (∃ (s : State), s.get L.KS_BOOT.STAGE = 1 ∧ s.ks.booted = []) ∧ (∃ (s : State), s.get
  L.KS_BOOT.STAGE = 1 ∧ s.ks.booted = []) ∧ (∃ (s : State), s.get L.KS_BOOT.STAGE = 1 ∧ s.ks.booted ≠ []) ∧ (∃ (im : List Nat)
  (i : Image) (s : State), s.get L.KS_BOOT.STAGE = 3 ∧ s.get L.KS_BOOT.RECOVERY = 0 ∧ im.length ≤ 0x100000 ∧ i = ⟨im.take 256,
  (im.drop 256).take (le im 8 4), (im.drop ((256 + le im 8 4 + 63) / 64 * 64)).take (le im 0xC 4)⟩) :=
  ⟨⟨(stN [(L.KS_BOOT.STAGE, 1)]), (by decide +kernel)⟩, ⟨(stN [(L.KS_BOOT.STAGE, 1)]), (by decide +kernel)⟩, ⟨(bt [some 1, none]
    (stN [(L.KS_BOOT.STAGE, 1)])), (by decide +kernel)⟩, ⟨[1, 2, 3], ⟨([1, 2, 3] : List Nat).take 256, (([1, 2, 3] : List
    Nat).drop 256).take (le ([1, 2, 3] : List Nat) 8 4), (([1, 2, 3] : List Nat).drop ((256 + le ([1, 2, 3] : List Nat) 8 4 +
    63) / 64 * 64)).take (le ([1, 2, 3] : List Nat) 0xC 4)⟩, (stN [(L.KS_BOOT.STAGE, 3)]), (by decide +kernel),
    (by decide +kernel), (by decide +kernel), (by first | with_reducible rfl | decide +kernel)⟩⟩

theorem witness_BootTokenAndBelay_2 : (∃ (pub : List Nat) (sig : List Nat) (s : State), s.get L.KS_BOOT.STAGE ≠ 0 ∧ s.get
  L.WLD_DBG.SEALED_EN = 0) ∧ (∃ (c : Issuer) (v : Word) (s : State), Sends s c ∧ c.sealed = true ∧ s.get L.WLD_BELAY_CFG.EN =
  0 ∧ v.getLsbD 63 = true ∧ fieldOf v 32 16 ≠ 0) ∧ (∃ (c : Issuer) (v : Word) (s : State), Sends s c ∧ c.sealed = true ∧ s.get
  L.WLD_BELAY_CFG.EN = 1) ∧ (∃ (c : Issuer) (v : Word) (s : State), Sends s c ∧ (c.sealed = false ∨ s.get L.WLD_BELAY_CFG.EN =
  0 ∧ fieldOf v 32 16 = 0)) :=
  ⟨⟨[1], [2], (stN [(L.KS_BOOT.STAGE, 1)]), (by decide +kernel)⟩, ⟨newtS, (BitVec.ofNat 64 (2^63 + 100 * 2^32 + 5 * 2^16)), (stN
    []), (by decide +kernel)⟩, ⟨newtS, (BitVec.ofNat 64 (2^63 + 100 * 2^32 + 5 * 2^16 + 0xFFFF)), (bel 1 []),
    (by decide +kernel)⟩, ⟨devO, 0, (st []), (by decide +kernel)⟩⟩

theorem witness_BootTokenAndBelay_3 : (∃ (c : Issuer) (v : Word) (k : Nat) (s : State), Sends s c ∧ c.sealed = true ∧
  (s.belayStage = belayRun ∨ s.belayStage = belayWarn) ∧ s.get L.WLD_BELAY_STAT.NEXT = k ∧ fieldOf v 0 16 = k ∧ (∀ p,
  s.belay.lastPet = some p → p + 1000000 * s.get L.WLD_BELAY_CFG.MIN ≤ s.belayClock)) ∧ (∃ (c : Issuer) (v : Word) (s :
  State), Sends s c ∧ c.sealed = true ∧ s.belayStage = belayRun ∧ fieldOf v 0 16 ≠ s.get L.WLD_BELAY_STAT.NEXT) ∧ (∃ (c :
  Issuer) (v : Word) (k : Nat) (p : Nat) (s : State), Sends s c ∧ c.sealed = true ∧ s.belayStage = belayRun ∧ s.get
  L.WLD_BELAY_STAT.NEXT = k ∧ fieldOf v 0 16 = k ∧ s.belay.lastPet = some p ∧ s.belayClock < p + 1000000 * s.get
  L.WLD_BELAY_CFG.MIN) ∧ (∃ (c : Issuer) (v : Word) (s : State), Sends s c ∧ c.sealed = false) ∧ (∃ (s : State), s.belayStage
  = belayRun ∧ s.belay.heldAt = none) :=
  ⟨⟨newtS, 0xACE1, 0xACE1, (bel 2 [(L.WLD_BELAY_STAT.NEXT, 0xACE1)]), (by decide +kernel), (by decide +kernel),
    (by decide +kernel), (by decide +kernel), (by decide +kernel),
    (by first | decide +kernel | (intro v h; first | (cases h; done) | (cases h; decide +kernel)))⟩, ⟨newtS, 2, (bel 1
    [(L.WLD_BELAY_STAT.NEXT, 1)]), (by decide +kernel)⟩, ⟨newtS, 1, 1, 0,
    ({ pt 0 (bel 1 [(L.WLD_BELAY_STAT.NEXT, 1), (L.WLD_BELAY_CFG.MIN, 1)]) with up := 999999 }), (by decide +kernel)⟩, ⟨devO,
    1, (bel 1 []), (by decide +kernel)⟩, ⟨(bel 1 []), (by decide +kernel)⟩⟩

theorem witness_KeyStoreCommands : (∃ (c : Issuer) (v : Word) (s : State), Sends s c ∧ KsGo s c.sealed v 1 ∧ KsEmpty s
  c.sealed (ksSlotOf v) ∧ attrsOk (ksKindOf v) (ksUsageOf v) = true) ∧ (∃ (c : Issuer) (v : Word) (s : State), Sends s c ∧
  KsGo s c.sealed v 1 ∧ KsEmpty s c.sealed (ksSlotOf v) ∧ attrsOk (ksKindOf v) (ksUsageOf v) = false) ∧ (∃ (c : Issuer) (v :
  Word) (s : State), Sends s c ∧ KsGo s c.sealed v 1 ∧ ¬ KsMine s c.sealed (ksSlotOf v)) ∧ (∃ (c : Issuer) (v : Word) (s :
  State), Sends s c ∧ KsGo s c.sealed v 1 ∧ KsMine s c.sealed (ksSlotOf v) ∧ (ksSlotOf v < 8 ∨ s.slotKind (ksSlotOf v) ≠ 0)) ∧
  (∃ (c : Issuer) (v : Word) (u : State) (d : DevAns) (s : State), Sends s c ∧ KsGo s c.sealed v 2 ∧ KsEmpty s c.sealed
  (ksSlotOf v) ∧ KsSource s c.sealed (ksParentOf v) 4 4 ∧ attrsOk (ksKindOf v) (ksUsageOf v) = true ∧ (s.ksBegun c.sealed
  v).physRead 0xFF (unitIssuer c.sealed) (s.get (L.KS_ARG0.ADDR c.sealed)) 32 = (u, d) ∧ d.err = false ∧ d.poison = false ∧
  NoWait s u) :=
  ⟨⟨newtS, (kw 1 255 0 3 1), (puf []), (by decide +kernel)⟩, ⟨newtS, (kw 1 255 0 2 1), (puf []), (by decide +kernel)⟩, ⟨devO,
    (kw 1 255 0 3 1), (puf []), (by decide +kernel)⟩, ⟨newtS, (kw 1 7 0 3 1), (puf []), (by decide +kernel)⟩, ⟨newtS, (kw 2
    255 0 1 0x20), ((((dv : State).ksBegun (newtS : Issuer).sealed (kw 2 255 0 1 0x20 : Word)).physRead 0xFF (unitIssuer
    (newtS : Issuer).sealed) ((dv : State).get (L.KS_ARG0.ADDR (newtS : Issuer).sealed)) 32).1), ((((dv : State).ksBegun
    (newtS : Issuer).sealed (kw 2 255 0 1 0x20 : Word)).physRead 0xFF (unitIssuer (newtS : Issuer).sealed) ((dv : State).get
    (L.KS_ARG0.ADDR (newtS : Issuer).sealed)) 32).2), dv, (by decide +kernel), (by decide +kernel), (by decide +kernel),
    (by decide +kernel), (by decide +kernel), Prod.mk.eta.symm, (by decide +kernel)⟩⟩

theorem witness_KeyStoreCommands_2 : (∃ (c : Issuer) (v : Word) (u : State) (d : DevAns) (n : Nat) (s : State), Sends s c ∧
  KsGo s c.sealed v 3 ∧ KsEmpty s c.sealed (ksSlotOf v) ∧ KsSource s c.sealed (ksParentOf v) 2 3 ∧ s.get (L.KS_ARG2.LEN
  c.sealed) = n ∧ (n = 32 ∨ n = 48 ∨ n = 80) ∧ (s.ksBegun c.sealed v).physRead 0xFF (unitIssuer c.sealed) (s.get
  (L.KS_ARG0.ADDR c.sealed)) n = (u, d) ∧ d.err = false ∧ d.poison = false ∧ NoWait s u) ∧ (∃ (c : Issuer) (v : Word) (u :
  State) (ok : Bool) (s : State), Sends s c ∧ KsGo s c.sealed v 4 ∧ KsMine s c.sealed (ksSlotOf v) ∧ ksSlotOf v ≠ 1 ∧ ksSlotOf
  v ≠ 2 ∧ s.slotKind (ksSlotOf v) ≠ 0 ∧ (s.slotUsage (ksSlotOf v)).testBit 5 = true ∧ KsSource s c.sealed (ksParentOf v) 2 3 ∧
  (s.ksBegun c.sealed v).physWrite 0xFF (unitIssuer c.sealed) (s.get (L.KS_ARG0.ADDR c.sealed)) (kwpWrap (SMap.get s.slotKey
  (ksParentOf v)) (bytesLE 8 (s.slotKind (ksSlotOf v) + 2 ^ 8 * s.slotUsage (ksSlotOf v)) ++ SMap.get s.slotKey (ksSlotOf v)))
  = (u, ok) ∧ NoWait s u) ∧ (∃ (c : Issuer) (v : Word) (s : State), Sends s c ∧ KsGo s c.sealed v 4 ∧ KsMine s c.sealed
  (ksSlotOf v) ∧ ksSlotOf v ≠ 1 ∧ ksSlotOf v ≠ 2 ∧ s.slotKind (ksSlotOf v) ≠ 0 ∧ (s.slotUsage (ksSlotOf v)).testBit 5 = false
  ∧ KsSource s c.sealed (ksParentOf v) 2 3) ∧ (∃ (c : Issuer) (v : Word) (ok : Bool) (s : State), Sends s c ∧ KsGo s c.sealed
  v 5 ∧ KsMine s c.sealed (ksSlotOf v) ∧ 8 ≤ ksSlotOf v ∧ (ok = true ∨ s.get (L.KS_SLOT.PERSIST (ksSlotOf v)) = 0)) ∧ (∃ (c :
  Issuer) (v : Word) (x : KeyRec) (y : KeyRec) (s : State), Sends s c ∧ KsGo s c.sealed v 6 ∧ KsMine s c.sealed (ksSlotOf v) ∧
  8 ≤ ksSlotOf v ∧ s.slotKind (ksSlotOf v) ≠ 0 ∧ SMap.get s.nv.recs (2 * ksSlotOf v) = x ∧ SMap.get s.nv.recs (2 * ksSlotOf v
  + 1) = y) ∧ (∃ (c : Issuer) (v : Word) (u : State) (d : DevAns) (i : Nat) (s : State), Sends s c ∧ KsGo s c.sealed v 7 ∧
  s.get L.KS_STATUS.IDX_READY = 1 ∧ s.get L.KS_ATT_IDX.NEXT = i ∧ i < 2 ^ 40 ∧ (s.ksBegun c.sealed v).physRead 0xFF
  (unitIssuer c.sealed) (s.get (L.KS_ARG0.ADDR c.sealed)) 96 = (u, d) ∧ d.err = false ∧ d.poison = false ∧ NoWait s u ∧
  s.nv.tree < i / 2 ^ 20) :=
  ⟨⟨newtS, (kw 3 255 9 0 0), ((((kekI : State).ksBegun (newtS : Issuer).sealed (kw 3 255 9 0 0 : Word)).physRead 0xFF
    (unitIssuer (newtS : Issuer).sealed) ((kekI : State).get (L.KS_ARG0.ADDR (newtS : Issuer).sealed)) (48 : Nat)).1),
    ((((kekI : State).ksBegun (newtS : Issuer).sealed (kw 3 255 9 0 0 : Word)).physRead 0xFF (unitIssuer (newtS :
    Issuer).sealed) ((kekI : State).get (L.KS_ARG0.ADDR (newtS : Issuer).sealed)) (48 : Nat)).2), 48, kekI,
    (by decide +kernel), (by decide +kernel), (by decide +kernel), (by decide +kernel),
    (by first | with_reducible rfl | decide +kernel), (by decide +kernel), Prod.mk.eta.symm, (by decide +kernel)⟩, ⟨newtS, (kw
    4 10 9 0 0), ((((expS : State).ksBegun (newtS : Issuer).sealed (kw 4 10 9 0 0 : Word)).physWrite 0xFF (unitIssuer (newtS :
    Issuer).sealed) ((expS : State).get (L.KS_ARG0.ADDR (newtS : Issuer).sealed)) (kwpWrap (SMap.get (expS : State).slotKey
    (ksParentOf (kw 4 10 9 0 0 : Word))) (bytesLE 8 ((expS : State).slotKind (ksSlotOf (kw 4 10 9 0 0 : Word)) + 2 ^ 8 * (expS
    : State).slotUsage (ksSlotOf (kw 4 10 9 0 0 : Word))) ++ SMap.get (expS : State).slotKey (ksSlotOf (kw 4 10 9 0 0 :
    Word))))).1), ((((expS : State).ksBegun (newtS : Issuer).sealed (kw 4 10 9 0 0 : Word)).physWrite 0xFF (unitIssuer (newtS
    : Issuer).sealed) ((expS : State).get (L.KS_ARG0.ADDR (newtS : Issuer).sealed)) (kwpWrap (SMap.get (expS : State).slotKey
    (ksParentOf (kw 4 10 9 0 0 : Word))) (bytesLE 8 ((expS : State).slotKind (ksSlotOf (kw 4 10 9 0 0 : Word)) + 2 ^ 8 * (expS
    : State).slotUsage (ksSlotOf (kw 4 10 9 0 0 : Word))) ++ SMap.get (expS : State).slotKey (ksSlotOf (kw 4 10 9 0 0 :
    Word))))).2), expS, (by decide +kernel), (by decide +kernel), (by decide +kernel), (by decide +kernel),
    (by decide +kernel), (by decide +kernel), (by decide +kernel), (by decide +kernel), Prod.mk.eta.symm,
    (by decide +kernel)⟩, ⟨newtS, (kw 4 10 9 0 0), (slot 10 1 0 k32 kek), (by decide +kernel)⟩, ⟨newtS, (kw 5 9 0 0 0), true,
    kek, (by decide +kernel)⟩, ⟨newtS, (kw 6 9 0 0 0), ⟨3, 1, 1, [1]⟩, ⟨4, 1, 1, [1]⟩,
    ({ kek with nv := { kek.nv with recs := [(18, ⟨3, 1, 1, [1]⟩), (19, ⟨4, 1, 1, [1]⟩)] } }), (by decide +kernel),
    (by decide +kernel), (by decide +kernel), (by decide +kernel), (by decide +kernel),
    (by first | with_reducible rfl | decide +kernel), (by first | with_reducible rfl | decide +kernel)⟩, ⟨newtS, (kw 7 0 0 0
    0), ((((att (2^20) : State).ksBegun (newtS : Issuer).sealed (kw 7 0 0 0 0 : Word)).physRead 0xFF (unitIssuer (newtS :
    Issuer).sealed) ((att (2^20) : State).get (L.KS_ARG0.ADDR (newtS : Issuer).sealed)) 96).1), ((((att (2^20) :
    State).ksBegun (newtS : Issuer).sealed (kw 7 0 0 0 0 : Word)).physRead 0xFF (unitIssuer (newtS : Issuer).sealed) ((att
    (2^20) : State).get (L.KS_ARG0.ADDR (newtS : Issuer).sealed)) 96).2), (2^20), (att (2^20)), (by decide +kernel),
    (by decide +kernel), (by decide +kernel), (by decide +kernel), (by decide +kernel), Prod.mk.eta.symm,
    (by decide +kernel)⟩⟩

theorem witness_KeyStoreCommands_3 : (∃ (c : Issuer) (v : Word) (u : State) (d : DevAns) (i : Nat) (s : State), Sends s c ∧
  KsGo s c.sealed v 7 ∧ s.get L.KS_STATUS.IDX_READY = 1 ∧ s.get L.KS_ATT_IDX.NEXT = i ∧ i < 2 ^ 40 ∧ (s.ksBegun c.sealed
  v).physRead 0xFF (unitIssuer c.sealed) (s.get (L.KS_ARG0.ADDR c.sealed)) 96 = (u, d) ∧ d.err = false ∧ d.poison = false ∧
  NoWait s u) ∧ (∃ (c : Issuer) (v : Word) (ok : Bool) (s : State), Sends s c ∧ KsGo s c.sealed v 7 ∧ s.get
  L.KS_STATUS.IDX_READY = 0) ∧ (∃ (c : Issuer) (v : Word) (ok : Bool) (s : State), Sends s c ∧ KsGo s c.sealed v 7 ∧ s.get
  L.KS_STATUS.IDX_READY = 1 ∧ 2 ^ 40 ≤ s.get L.KS_ATT_IDX.NEXT) ∧ (∃ (c : Issuer) (v : Word) (u : State) (d : DevAns) (s :
  State), Sends s c ∧ KsGo s c.sealed v 8 ∧ c.sealed = true ∧ ksSlotOf v % 8 < 4 ∧ (s.ksBegun c.sealed v).physRead 0xFF
  (unitIssuer c.sealed) (s.get (L.KS_ARG0.ADDR c.sealed)) 32 = (u, d) ∧ d.err = false ∧ d.poison = false ∧ NoWait s u) ∧ (∃ (c
  : Issuer) (v : Word) (s : State), Sends s c ∧ KsGo s c.sealed v 9 ∧ c.sealed = true ∧ (∀ n, some n ∈ s.ks.booted → n < 2 ^
  16)) :=
  ⟨⟨newtS, (kw 7 0 0 0 0), ((((att (2^20) : State).ksBegun (newtS : Issuer).sealed (kw 7 0 0 0 0 : Word)).physRead 0xFF
    (unitIssuer (newtS : Issuer).sealed) ((att (2^20) : State).get (L.KS_ARG0.ADDR (newtS : Issuer).sealed)) 96).1), ((((att
    (2^20) : State).ksBegun (newtS : Issuer).sealed (kw 7 0 0 0 0 : Word)).physRead 0xFF (unitIssuer (newtS : Issuer).sealed)
    ((att (2^20) : State).get (L.KS_ARG0.ADDR (newtS : Issuer).sealed)) 96).2), (2^20), (att (2^20)), (by decide +kernel),
    (by decide +kernel), (by decide +kernel), (by decide +kernel), (by decide +kernel), Prod.mk.eta.symm,
    (by decide +kernel)⟩, ⟨newtS, (kw 7 0 0 0 0), true, (puf []), (by decide +kernel)⟩, ⟨newtS, (kw 7 0 0 0 0), true, (att
    (2^40)), (by decide +kernel)⟩, ⟨newtS, (kw 8 3 0 0 0), ((((puf [] : State).ksBegun (newtS : Issuer).sealed (kw 8 3 0 0 0 :
    Word)).physRead 0xFF (unitIssuer (newtS : Issuer).sealed) ((puf [] : State).get (L.KS_ARG0.ADDR (newtS : Issuer).sealed))
    32).1), ((((puf [] : State).ksBegun (newtS : Issuer).sealed (kw 8 3 0 0 0 : Word)).physRead 0xFF (unitIssuer (newtS :
    Issuer).sealed) ((puf [] : State).get (L.KS_ARG0.ADDR (newtS : Issuer).sealed)) 32).2), (puf []), (by decide +kernel),
    (by decide +kernel), (by decide +kernel), (by decide +kernel), Prod.mk.eta.symm, (by decide +kernel)⟩, ⟨newtS, (kw 9 0 0 0
    0), (bt [some 5, none, some 1] (puf [])), (by decide +kernel), (by decide +kernel), (by decide +kernel),
    (by intro n h; have h : some n ∈ [some 5, none, some 1] := h; simp at h; omega)⟩⟩

theorem witness_KeyStoreCommands_4 : (∃ (c : Issuer) (v : Word) (ok : Bool) (s : State), Sends s c ∧ c.sealed = false ∧ KsGo s
  c.sealed v 8) ∧ (∃ (c : Issuer) (v : Word) (ok : Bool) (s : State), Sends s c ∧ c.sealed = false ∧ KsGo s c.sealed v 9) ∧ (∃
  (c : Issuer) (v : Word) (ok : Bool) (q : KsReq) (s : State), Sends s c ∧ v.getLsbD 63 = true ∧ s.ksReq c.sealed = some q) ∧
  (∃ (w : Bool) (st : Nat) (i : Nat) (a : Nat) (b : Bytes) (s : State), s.ksReq w = some ⟨some st, i, b, a⟩ ∧ st < 256) ∧ (∃
  (c : Issuer) (v : Word) (s : State), Sends s c ∧ v.getLsbD 62 = true ∧ s.get (L.KS_RES.READY c.sealed) = 1) ∧ (∃ (s :
  State), s.ks.treeBusy = true ∧ (∀ w q, s.ksReq w = some q → q.status ≠ none ∨ s.nv.tree + 1 < q.index / 2 ^ 20)) :=
  ⟨⟨devO, (kw 8 0 0 0 0), true, (puf []), (by decide +kernel)⟩, ⟨devO, (kw 9 0 0 0 0), true, (puf []), (by decide +kernel)⟩,
    ⟨newtS, (kw 0 0 0 0 0), true, (rq (some 0)), (kreq true (rq (some 0)) (puf [])), (by decide +kernel)⟩, ⟨true, 255, 3, 4,
    [1], (kreq true (rq (some 255)) (puf [])), (by decide +kernel)⟩, ⟨newtS, (BitVec.ofNat 64 (2^62)), (st [(L.KS_RES.READY
    true, 1)]), (by decide +kernel)⟩, ⟨({ puf [] with ks := { (puf []).ks with treeBusy := true } }), (by decide +kernel)⟩⟩

end W13

namespace W14

def onL : List (Loc × Nat) := (List.range 34).map (fun d => (L.PWR_DOM.STATE d, 1))
def sE (l : List (Loc × Nat)) : State := stN (onL ++ l)
def wd (op alg dir : Nat) (first last : Bool) (slot len : Nat) : Nat := op + alg * 2^8 + dir * 2^12 + (if first then 2^13 else 0) + (if last then 2^14 else 0) + slot * 2^24 + len * 2^32
abbrev iss : Issuer := ⟨true, none, 0, .device⟩
def cc (ctx : Nat) (ws : List Nat) : CeCmd := ⟨0, none, ctx, false, ws, iss, false, false, false, false, 0, false, 0, 0, false, 0, 0⟩
def hd (e : Nat) (x : CeCmd) (s : State) : State := s.setCe e ⟨[x], 1, 0, 0⟩
def slot (n kind usage : Nat) (key : Bytes) (s : State) : State := { (s.put (L.KS_SLOT.KIND n) kind).put (L.KS_SLOT.USAGE n) usage with slotKey := SMap.set s.slotKey n key }
def k32 : Bytes := List.range 32
def wrB (a : Nat) (l : List Nat) (s : State) : State := (l.zip (List.range l.length)).foldl (fun s p => s.writeByte (a + p.2) (BitVec.ofNat 8 p.1)) s
def setW (n : Nat) (ws : List Nat) (s : State) : State := (ws.zip (List.range 7)).foldl (fun s p => s.wr (R.CE_CMDW n p.2) (BitVec.ofNat 64 p.1)) s
def goS (ws : List Nat) : State := setW 63 ws (sE [])
abbrev gv : Word := BitVec.ofNat 64 (2^63)
def xKl : CeCmd := cc 63 [wd 1 0 0 false false 9 0]
def sKl : State := slot 9 3 2 (List.range 64) (hd 3 xKl (sE []))
def xUn : CeCmd := cc 63 [wd 2 0 0 false false 0 48, 0x1000]
def wrapd (u : Nat) : Bytes := kwpWrap k32 (bytesLE 8 (2 + 256*u) ++ k32)
def sUn (u : Nat) : State := wrB 0x1000 (wrapd u) (slot 9 2 8 k32 (hd 3 xUn (sE [(L.CE_CTX_CFG.KEK_VALID 63, 1), (L.CE_CTX_CFG.KEK_SLOT 63, 9)])))
def sUnB : State := slot 9 2 8 k32 (hd 3 xUn (sE [(L.CE_CTX_CFG.KEK_VALID 63, 1), (L.CE_CTX_CFG.KEK_SLOT 63, 9)]))
def xCl : CeCmd := cc 63 [wd 3 0 0 false false 0 0]
def xP (alg : Nat) (f : Bool) (len : Nat) : CeCmd := cc 63 [wd 4 alg 0 f true 0 len, 0x1000, 0x2000, 0, 0x3000, 0x4000, 0]
def keyed (kind usage : Nat) (key : Bytes) (s : State) : State := s.setCx 63 { s.cx 63 with key := key, kind := kind, usage := usage }
def opn (alg : Nat) (s : State) : State := s.setCx 63 { s.cx 63 with base := ctxOpen, alg := alg, hash := if 4 ≤ alg then hash256.h0 else [] }
def xSv (dir : Nat) : CeCmd := cc 63 [wd 5 0 dir false false 0 0, 0, 0x2000]
def sSv : State := opn 4 (hd 3 (xSv 0) (sE []))
def xRs : CeCmd := cc 63 [wd 6 0 0 false false 0 128, 0x2000]
def sRs (id : Nat) : State := wrB 0x2000 ((sSv.cx 63).record 5 false) (hd 3 xRs (sE [(L.CE_CTX_STAT.KEY_ID 63, id)]))
def xR (alg len : Nat) (last : Bool) : CeCmd := { cc 63 [wd 4 alg 0 false last 0 len, 0x1000, 0x2000, 0, 0x3000, 0x4000, 0] with started := true }
def zU : CeCmd := { xCl with id := 1, ctx := 62, urgent := true }
def sSusp : State := (opn 4 (sE [])).setCe 3 ⟨[xR 4 128 false, zU], 2, 0, 0⟩
def sRun (x : CeCmd) (a : Nat) : State := opn a ((sE []).setCe 3 ⟨[x], 1, 0, 0⟩)

theorem witness_CipherCommandsStart : (∃ (c : Issuer) (n : Fin 64) (v : Word) (x : CeCmd) (s : State), Sends s c ∧ CeMay s n c
  ∧ v.getLsbD 63 = true ∧ s.get (L.CE_CTX_STAT.STATE n) ≠ ctxWait ∧ s.get (L.CE_CTX_STAT.STATE n) ≠ ctxRun ∧ s.get
  (L.CE_CTX_STAT.STATE n) ≠ ctxSusp ∧ (∀ y ∈ (s.ceOf (n.val / 16)).cmds, y.ctx ≠ n.val) ∧ (∀ y ∈ (s.ceOf (n.val / 16)).cmds,
  y.id ≠ (s.ceOf (n.val / 16)).next) ∧ x = ⟨(s.ceOf (n.val / 16)).next, none, n.val, v.getLsbD 62 && s.get
  (L.CE_CTX_CFG.URG_OK n) == 1, (List.range 7).map (fun i => (s.rd (R.CE_CMDW n i)).toNat), s.ceIssuer n, c.vi.isSome, false,
  false, false, 0, false, 0, 0, false, 0, s.up⟩ ∧ x.fieldBad (some n.val) = false) ∧ (∃ (c : Issuer) (n : Fin 64) (v : Word)
  (x : CeCmd) (s : State), Sends s c ∧ CeMay s n c ∧ v.getLsbD 63 = true ∧ s.get (L.CE_CTX_STAT.STATE n) ≠ ctxWait ∧ s.get
  (L.CE_CTX_STAT.STATE n) ≠ ctxRun ∧ s.get (L.CE_CTX_STAT.STATE n) ≠ ctxSusp ∧ (∀ y ∈ (s.ceOf (n.val / 16)).cmds, y.ctx ≠
  n.val) ∧ (∀ y ∈ (s.ceOf (n.val / 16)).cmds, y.id ≠ (s.ceOf (n.val / 16)).next) ∧ x = ⟨(s.ceOf (n.val / 16)).next, none,
  n.val, v.getLsbD 62 && s.get (L.CE_CTX_CFG.URG_OK n) == 1, (List.range 7).map (fun i => (s.rd (R.CE_CMDW n i)).toNat),
  s.ceIssuer n, c.vi.isSome, false, false, false, 0, false, 0, 0, false, 0, s.up⟩ ∧ x.fieldBad (some n.val) = true ∧ s.get
  (L.CE_CTX_MSI.EN n) = 0) ∧ (∃ (c : Issuer) (n : Fin 64) (v : Word) (s : State), Sends s c ∧ CeMay s n c ∧ v.getLsbD 63 =
  true ∧ (s.get (L.CE_CTX_STAT.STATE n) = ctxWait ∨ s.get (L.CE_CTX_STAT.STATE n) = ctxRun ∨ s.get (L.CE_CTX_STAT.STATE n) =
  ctxSusp)) ∧ (∃ (c : Issuer) (n : Fin 64) (v : Word) (s : State), Sends s c ∧ (s.ceOff (n.val / 16) ∨ c.sealed ≠
  s.ownerSealed (.ce n))) ∧ (∃ (e : Fin 4) (x : CeCmd) (s : State), CeHolds s e 1 x ∧ (s.cx x.ctx).base = ctxIdle ∧ x.fromVi =
  false ∧ s.slotKind x.slot ≠ 0 ∧ x.slot ≠ 1 ∧ x.slot ≠ 2 ∧ s.slotUsage x.slot / 2 % 4 ≠ 0 ∧ s.ownerSealed (.ks x.slot) =
  x.issuer.sealed ∧ SMap.get s.slotKey x.slot ≠ []) ∧ (∃ (e : Fin 4) (x : CeCmd) (s : State), CeHolds s e 1 x ∧ (s.cx
  x.ctx).base = ctxIdle ∧ x.fromVi = false ∧ s.slotKind x.slot ≠ 0 ∧ x.slot ≠ 1 ∧ x.slot ≠ 2 ∧ s.slotUsage x.slot / 2 % 4 ≠ 0
  ∧ s.ownerSealed (.ks x.slot) = x.issuer.sealed) :=
  ⟨⟨newtS, 63, gv, ⟨((goS [wd 3 0 0 false false 0 0 + 15 * 16] : State).ceOf ((63 : Fin 64).val / 16)).next, none, (63 : Fin
    64).val, (gv : Word).getLsbD 62 && (goS [wd 3 0 0 false false 0 0 + 15 * 16] : State).get (L.CE_CTX_CFG.URG_OK (63 : Fin
    64)) == 1, (List.range 7).map (fun i => ((goS [wd 3 0 0 false false 0 0 + 15 * 16] : State).rd (R.CE_CMDW (63 : Fin 64)
    i)).toNat), (goS [wd 3 0 0 false false 0 0 + 15 * 16] : State).ceIssuer (63 : Fin 64), (newtS : Issuer).vi.isSome, false,
    false, false, 0, false, 0, 0, false, 0, (goS [wd 3 0 0 false false 0 0 + 15 * 16] : State).up⟩, (goS [wd 3 0 0 false false
    0 0 + 15 * 16]), (by decide +kernel), (by decide +kernel), (by decide +kernel), (by decide +kernel), (by decide +kernel),
    (by decide +kernel), (by first | decide +kernel | (intro v h; first | (cases h; done) | (cases h; decide +kernel))),
    (by first | decide +kernel | (intro v h; first | (cases h; done) | (cases h; decide +kernel))),
    (by first | with_reducible rfl | decide +kernel), (by decide +kernel)⟩, ⟨newtS, 63, gv, ⟨((goS [0] : State).ceOf ((63 :
    Fin 64).val / 16)).next, none, (63 : Fin 64).val, (gv : Word).getLsbD 62 && (goS [0] : State).get (L.CE_CTX_CFG.URG_OK (63
    : Fin 64)) == 1, (List.range 7).map (fun i => ((goS [0] : State).rd (R.CE_CMDW (63 : Fin 64) i)).toNat), (goS [0] :
    State).ceIssuer (63 : Fin 64), (newtS : Issuer).vi.isSome, false, false, false, 0, false, 0, 0, false, 0, (goS [0] :
    State).up⟩, (goS [0]), (by decide +kernel), (by decide +kernel), (by decide +kernel), (by decide +kernel),
    (by decide +kernel), (by decide +kernel),
    (by first | decide +kernel | (intro v h; first | (cases h; done) | (cases h; decide +kernel))),
    (by first | decide +kernel | (intro v h; first | (cases h; done) | (cases h; decide +kernel))),
    (by first | with_reducible rfl | decide +kernel), (by decide +kernel)⟩, ⟨newtS, 63, gv, (sE [(L.CE_CTX_STAT.STATE 63,
    ctxWait)]), (by decide +kernel)⟩, ⟨newtS, 63, gv, (stN [(L.PWR_DOM.STATE 32, 0)]), (by decide +kernel)⟩, ⟨3, xKl, sKl,
    (by decide +kernel)⟩, ⟨3, xKl, sKl, (by decide +kernel)⟩⟩

theorem witness_CipherCommandsStart_2 : (∃ (e : Fin 4) (b : Bool) (x : CeCmd) (s : State), CeHolds s e 1 x ∧ (s.cx x.ctx).base
  = ctxIdle ∧ x.fromVi = true) ∧ (∃ (e : Fin 4) (b : Bool) (x : CeCmd) (s : State), CeHolds s e 1 x ∧ (s.cx x.ctx).base =
  ctxIdle ∧ x.fromVi = false ∧ (s.slotKind x.slot = 0 ∨ x.slot = 1 ∨ x.slot = 2 ∨ s.slotUsage x.slot / 2 % 4 = 0)) ∧ (∃ (e :
  Fin 4) (x : CeCmd) (kek : Bytes) (u : State) (d : DevAns) (s : State), CeHolds s e 2 x ∧ (s.cx x.ctx).base = ctxIdle ∧
  s.ceKek x.ctx = some kek ∧ s.ioRead x.source x.issuer x.src x.len = (u, d) ∧ NoWait s u ∧ d.err = false ∧ d.poison = false)
  ∧ (∃ (e : Fin 4) (x : CeCmd) (kek : Bytes) (u : State) (d : DevAns) (s : State), CeHolds s e 2 x ∧ (s.cx x.ctx).base =
  ctxIdle ∧ s.ceKek x.ctx = some kek ∧ s.ioRead x.source x.issuer x.src x.len = (u, d) ∧ NoWait s u ∧ (d.err = true ∨ d.poison
  = true)) ∧ (∃ (e : Fin 4) (x : CeCmd) (s : State), CeHolds s e 2 x ∧ (s.cx x.ctx).base = ctxIdle ∧ s.ceKek x.ctx = none) ∧
  (∃ (e : Fin 4) (x : CeCmd) (s : State), CeHolds s e 3 x) :=
  ⟨⟨3, true, ({ xKl with fromVi := true }), (hd 3 { xKl with fromVi := true } (sE [])), (by decide +kernel)⟩, ⟨3, true, xKl, (hd
    3 xKl (sE [])), (by decide +kernel)⟩, ⟨3, xUn, k32, (((sUn 2 : State).ioRead (xUn : CeCmd).source (xUn : CeCmd).issuer
    (xUn : CeCmd).src (xUn : CeCmd).len).1), (((sUn 2 : State).ioRead (xUn : CeCmd).source (xUn : CeCmd).issuer (xUn :
    CeCmd).src (xUn : CeCmd).len).2), (sUn 2), (by decide +kernel), (by decide +kernel), (by decide +kernel),
    Prod.mk.eta.symm, (by decide +kernel)⟩, ⟨3, ({ xUn with words := [wd 2 0 0 false false 0 48, 2^47] }), k32, (((hd 3
    { xUn with words := [wd 2 0 0 false false 0 48, 2^47] } sUnB : State).ioRead
    ({ xUn with words := [wd 2 0 0 false false 0 48, 2^47] } : CeCmd).source
    ({ xUn with words := [wd 2 0 0 false false 0 48, 2^47] } : CeCmd).issuer
    ({ xUn with words := [wd 2 0 0 false false 0 48, 2^47] } : CeCmd).src
    ({ xUn with words := [wd 2 0 0 false false 0 48, 2^47] } : CeCmd).len).1), (((hd 3
    { xUn with words := [wd 2 0 0 false false 0 48, 2^47] } sUnB : State).ioRead
    ({ xUn with words := [wd 2 0 0 false false 0 48, 2^47] } : CeCmd).source
    ({ xUn with words := [wd 2 0 0 false false 0 48, 2^47] } : CeCmd).issuer
    ({ xUn with words := [wd 2 0 0 false false 0 48, 2^47] } : CeCmd).src
    ({ xUn with words := [wd 2 0 0 false false 0 48, 2^47] } : CeCmd).len).2), (hd 3
    { xUn with words := [wd 2 0 0 false false 0 48, 2^47] } sUnB), (by decide +kernel), (by decide +kernel),
    (by decide +kernel), Prod.mk.eta.symm, (by decide +kernel)⟩, ⟨3, xUn, (hd 3 xUn (sE [])), (by decide +kernel)⟩, ⟨3, xCl,
    (keyed 2 2 k32 (hd 3 xCl (sE []))), (by decide +kernel)⟩⟩

theorem witness_CipherCommandsStart_3 : (∃ (e : Fin 4) (x : CeCmd) (s : State), CeHolds s e 4 x ∧ (s.cx x.ctx).base ≠ ctxError
  ∧ (s.cx x.ctx).processBad { x with started := true } ≠ 0) ∧ (∃ (e : Fin 4) (x : CeCmd) (s : State), CeHolds s e 4 x ∧ (s.cx
  x.ctx).base ≠ ctxError ∧ (s.cx x.ctx).processBad { x with started := true } = 0 ∧ x.first = false) ∧ (∃ (e : Fin 4) (x :
  CeCmd) (s : State), CeHolds s e 4 x ∧ (s.cx x.ctx).base ≠ ctxError ∧ (s.cx x.ctx).processBad { x with started := true } = 0
  ∧ x.first = true ∧ 4 ≤ x.alg ∧ x.alg ≤ 6) ∧ (∃ (e : Fin 4) (x : CeCmd) (s : State), CeHolds s e 4 x ∧ (s.cx x.ctx).base ≠
  ctxError ∧ (s.cx x.ctx).processBad { x with started := true } = 0 ∧ x.first = true ∧ x.alg = 3) ∧ (∃ (e : Fin 4) (x : CeCmd)
  (u : State) (d : DevAns) (s : State), CeHolds s e 4 x ∧ (s.cx x.ctx).base ≠ ctxError ∧ (s.cx x.ctx).processBad
  { x with started := true } = 0 ∧ x.first = true ∧ x.alg = 1 ∧ x.alen = 0 ∧ s.ioRead x.source x.issuer x.iv 12 = (u, d) ∧
  NoWait s u ∧ d.err = false ∧ d.poison = false) ∧ (∃ (e : Fin 4) (x : CeCmd) (u : State) (d : DevAns) (s : State), CeHolds s
  e 4 x ∧ (s.cx x.ctx).base ≠ ctxError ∧ (s.cx x.ctx).processBad { x with started := true } = 0 ∧ x.first = true ∧ x.alg = 1 ∧
  x.alen = 0 ∧ s.ioRead x.source x.issuer x.iv 12 = (u, d) ∧ NoWait s u ∧ d.err = true) :=
  ⟨⟨3, (xP 1 true 32), (hd 3 (xP 1 true 32) (sE [])), (by decide +kernel)⟩, ⟨3, (xP 4 false 64), (opn 4 (hd 3 (xP 4 false 64)
    (sE []))), (by decide +kernel)⟩, ⟨3, (xP 4 true 64), (hd 3 (xP 4 true 64) (sE [])), (by decide +kernel)⟩, ⟨3, (xP 3 true
    64), (keyed 2 4 k32 (hd 3 (xP 3 true 64) (sE []))), (by decide +kernel)⟩, ⟨3, (xP 1 true 32), (((keyed 2 2 k32 (hd 3 (xP 1
    true 32) (sE [])) : State).ioRead (xP 1 true 32 : CeCmd).source (xP 1 true 32 : CeCmd).issuer (xP 1 true 32 : CeCmd).iv
    12).1), (((keyed 2 2 k32 (hd 3 (xP 1 true 32) (sE [])) : State).ioRead (xP 1 true 32 : CeCmd).source (xP 1 true 32 :
    CeCmd).issuer (xP 1 true 32 : CeCmd).iv 12).2), (keyed 2 2 k32 (hd 3 (xP 1 true 32) (sE []))), (by decide +kernel),
    (by decide +kernel), (by decide +kernel), (by decide +kernel), (by decide +kernel), (by decide +kernel), Prod.mk.eta.symm,
    (by decide +kernel)⟩, ⟨3, ((cc 63 [wd 4 1 0 true true 0 32, 0x1000, 0x2000, 0, 0x700000000000, 0x4000, 0])), (((keyed 2 2
    k32 (hd 3 (cc 63 [wd 4 1 0 true true 0 32, 0x1000, 0x2000, 0, 0x700000000000, 0x4000, 0]) (sE [])) : State).ioRead ((cc 63
    [wd 4 1 0 true true 0 32, 0x1000, 0x2000, 0, 0x700000000000, 0x4000, 0]) : CeCmd).source ((cc 63 [wd 4 1 0 true true 0 32,
    0x1000, 0x2000, 0, 0x700000000000, 0x4000, 0]) : CeCmd).issuer ((cc 63 [wd 4 1 0 true true 0 32, 0x1000, 0x2000, 0,
    0x700000000000, 0x4000, 0]) : CeCmd).iv 12).1), (((keyed 2 2 k32 (hd 3 (cc 63 [wd 4 1 0 true true 0 32, 0x1000, 0x2000, 0,
    0x700000000000, 0x4000, 0]) (sE [])) : State).ioRead ((cc 63 [wd 4 1 0 true true 0 32, 0x1000, 0x2000, 0, 0x700000000000,
    0x4000, 0]) : CeCmd).source ((cc 63 [wd 4 1 0 true true 0 32, 0x1000, 0x2000, 0, 0x700000000000, 0x4000, 0]) :
    CeCmd).issuer ((cc 63 [wd 4 1 0 true true 0 32, 0x1000, 0x2000, 0, 0x700000000000, 0x4000, 0]) : CeCmd).iv 12).2), (keyed
    2 2 k32 (hd 3 (cc 63 [wd 4 1 0 true true 0 32, 0x1000, 0x2000, 0, 0x700000000000, 0x4000, 0]) (sE []))),
    (by decide +kernel), (by decide +kernel), (by decide +kernel), (by decide +kernel), (by decide +kernel),
    (by decide +kernel), Prod.mk.eta.symm, (by decide +kernel)⟩⟩

theorem witness_CipherCommandsStart_4 : (∃ (e : Fin 4) (b : Bool) (x : CeCmd) (s : State), CeHolds s e 5 x ∧ (s.cx x.ctx).base
  = ctxIdle) ∧ (∃ (e : Fin 4) (b : Bool) (x : CeCmd) (s : State), CeHolds s e 5 x ∧ (s.cx x.ctx).base = ctxOpen ∧ x.dir = 0 ∧
  x.issuer.sealed = false) ∧ (∃ (e : Fin 4) (b : Bool) (x : CeCmd) (s : State), CeHolds s e 5 x ∧ (s.cx x.ctx).base = ctxOpen
  ∧ x.dir = 1 ∧ s.ceKek x.ctx = none) ∧ (∃ (e : Fin 4) (x : CeCmd) (u : State) (w : State) (s : State), CeHolds s e 5 x ∧
  (s.cx x.ctx).base = ctxOpen ∧ x.dir = 0 ∧ x.issuer.sealed = true ∧ s.outsideOpen x.source x.issuer x.dst 128 = (u, true) ∧
  u.store x.source x.issuer x.dst ((s.cx x.ctx).record (s.get (L.CE_CTX_STAT.KEY_ID x.ctx)) false) false = (w, true) ∧ NoWait
  s w) ∧ (∃ (e : Fin 4) (x : CeCmd) (u : State) (d : DevAns) (s : State), CeHolds s e 6 x ∧ (s.cx x.ctx).base = ctxIdle ∧
  x.dir = 0 ∧ s.ioRead x.source x.issuer x.src x.len = (u, d) ∧ NoWait s u ∧ d.err = false ∧ d.poison = false) ∧ (∃ (e : Fin
  4) (b : Bool) (x : CeCmd) (s : State), CeHolds s e 6 x ∧ (s.cx x.ctx).base = ctxOpen) :=
  ⟨⟨3, true, (xSv 0), (hd 3 (xSv 0) (sE [])), (by decide +kernel)⟩, ⟨3, true,
    ({ xSv 0 with issuer := ⟨false, none, 0, .device⟩ }), (opn 4 (hd 3 { xSv 0 with issuer := ⟨false, none, 0, .device⟩ } (sE
    []))), (by decide +kernel)⟩, ⟨3, true, (xSv 1), (opn 4 (hd 3 (xSv 1) (sE []))), (by decide +kernel)⟩, ⟨3, (xSv 0), (((sSv
    : State).outsideOpen (xSv 0 : CeCmd).source (xSv 0 : CeCmd).issuer (xSv 0 : CeCmd).dst 128).1), (((((sSv :
    State).outsideOpen (xSv 0 : CeCmd).source (xSv 0 : CeCmd).issuer (xSv 0 : CeCmd).dst 128).1 : State).store (xSv 0 :
    CeCmd).source (xSv 0 : CeCmd).issuer (xSv 0 : CeCmd).dst (((sSv : State).cx (xSv 0 : CeCmd).ctx).record ((sSv : State).get
    (L.CE_CTX_STAT.KEY_ID (xSv 0 : CeCmd).ctx)) false) false).1), sSv, (by decide +kernel), (by decide +kernel),
    (by decide +kernel), (by decide +kernel), pair_eq (by decide +kernel), pair_eq (by decide +kernel), (by decide +kernel)⟩,
    ⟨3, xRs, (((sRs 5 : State).ioRead (xRs : CeCmd).source (xRs : CeCmd).issuer (xRs : CeCmd).src (xRs : CeCmd).len).1),
    (((sRs 5 : State).ioRead (xRs : CeCmd).source (xRs : CeCmd).issuer (xRs : CeCmd).src (xRs : CeCmd).len).2), (sRs 5),
    (by decide +kernel), (by decide +kernel), (by decide +kernel), Prod.mk.eta.symm, (by decide +kernel)⟩, ⟨3, true, xRs, (opn
    4 (hd 3 xRs (sE []))), (by decide +kernel)⟩⟩

theorem witness_CipherCommandsEnd : (∃ (e : Fin 4) (n : Nat) (x : CeCmd) (y : CeCmd) (z : CeCmd) (u : State) (s : State),
  (s.ceOf e).cmds = [x, z] ∧ x.ctx / 16 = e.val ∧ x.started = true ∧ x.susp = false ∧ x.op = 4 ∧ x.urgent = false ∧ x.fin =
  false ∧ z.urgent = true ∧ z.started = false ∧ z.susp = false ∧ z.ctx ≠ x.ctx ∧ z.id ≠ x.id ∧ s.ceRun x (n * algBlock x.alg)
  (n + 1) = (u, y) ∧ y.fin = false ∧ NoWait s u) ∧ (∃ (e : Fin 4) (x : CeCmd) (s : State), s.ceOn e ∧ (s.ceOf e).cmds = [x] ∧
  x.ctx / 16 = e.val ∧ x.started = true ∧ x.susp = true) ∧ (∃ (e : Fin 4) (x : CeCmd) (y : CeCmd) (u : State) (s : State),
  (s.ceOf e).cmds = [x] ∧ x.ctx / 16 = e.val ∧ x.started = true ∧ x.susp = false ∧ x.op = 4 ∧ x.fin = false ∧ s.ceComplete x =
  (u, y) ∧ NoWait s u ∧ y.fin = true ∧ y.status = 0 ∧ s.get (L.CE_CTX_MSI.EN x.ctx) = 0) :=
  ⟨⟨3, 1, (xR 4 128 false), (((sSusp : State).ceRun (xR 4 128 false : CeCmd) ((1 : Nat) * algBlock (xR 4 128 false : CeCmd).alg)
    ((1 : Nat) + 1)).2), zU, (((sSusp : State).ceRun (xR 4 128 false : CeCmd) ((1 : Nat) * algBlock (xR 4 128 false :
    CeCmd).alg) ((1 : Nat) + 1)).1), sSusp, (by decide +kernel), (by decide +kernel), (by decide +kernel),
    (by decide +kernel), (by decide +kernel), (by decide +kernel), (by decide +kernel), (by decide +kernel),
    (by decide +kernel), (by decide +kernel), (by decide +kernel), (by decide +kernel), Prod.mk.eta.symm,
    (by decide +kernel)⟩, ⟨3, ({ xR 4 128 false with susp := true }), ((sRun { xR 4 128 false with susp := true } 4)),
    (by decide +kernel)⟩, ⟨3, (xR 4 64 false), (((sRun (xR 4 64 false) 4 : State).ceComplete (xR 4 64 false : CeCmd)).2),
    (((sRun (xR 4 64 false) 4 : State).ceComplete (xR 4 64 false : CeCmd)).1), (sRun (xR 4 64 false) 4), (by decide +kernel),
    (by decide +kernel), (by decide +kernel), (by decide +kernel), (by decide +kernel), (by decide +kernel), Prod.mk.eta.symm,
    (by decide +kernel)⟩⟩

theorem witness_CipherCommandsEnd_2 : (∃ (e : Fin 4) (x : CeCmd) (b : Option Nat) (s : State), (s.ceOf e).cmds = [x] ∧ x.ctx /
  16 = e.val ∧ x.started = true ∧ x.susp = false ∧ x.fin = true ∧ x.op ≠ 4 ∧ s.get (L.CE_CTX_MSI.EN x.ctx) = 0) ∧ (∃ (e : Fin
  4) (n : Nat) (x : CeCmd) (y : CeCmd) (u : State) (s : State), (s.ceOf e).cmds = [x] ∧ x.ctx / 16 = e.val ∧ x.started = true
  ∧ x.susp = false ∧ x.op = 4 ∧ x.fin = false ∧ s.ceRun x (min x.len (64 * n)) (x.len / algBlock x.alg + 2) = (u, y) ∧ y.fin =
  false ∧ NoWait s u ∧ s.get (L.CE_CTX_MSI.EN x.ctx) = 0) ∧ (∃ (c : Issuer) (n : Fin 64) (v : Word) (s : State), Sends s c ∧
  CeMay s n c ∧ v.getLsbD 0 = true) ∧ (∃ (c : Issuer) (n : Fin 64) (v : Word) (s : State), Sends s c ∧ (s.ceOff (n.val / 16) ∨
  c.sealed ≠ s.ownerSealed (.ce n))) :=
  ⟨⟨3, ({ xCl with started := true, fin := true }), none, (hd 3 { xCl with started := true, fin := true } (sE [])),
    (by decide +kernel)⟩, ⟨3, 1, (xR 4 128 false), (((sRun (xR 4 128 false) 4 : State).ceRun (xR 4 128 false : CeCmd) (min (xR
    4 128 false : CeCmd).len (64 * (1 : Nat))) ((xR 4 128 false : CeCmd).len / algBlock (xR 4 128 false : CeCmd).alg + 2)).2),
    (((sRun (xR 4 128 false) 4 : State).ceRun (xR 4 128 false : CeCmd) (min (xR 4 128 false : CeCmd).len (64 * (1 : Nat)))
    ((xR 4 128 false : CeCmd).len / algBlock (xR 4 128 false : CeCmd).alg + 2)).1), (sRun (xR 4 128 false) 4),
    (by decide +kernel), (by decide +kernel), (by decide +kernel), (by decide +kernel), (by decide +kernel),
    (by decide +kernel), Prod.mk.eta.symm, (by decide +kernel)⟩, ⟨newtS, 63, 1, (sE []), (by decide +kernel)⟩, ⟨devO, 63, 1,
    (sE []), (by decide +kernel)⟩⟩

end W14

namespace W15

def pc (role : Nat) (l : List (Loc × Nat)) : State := stN ([(L.PWR_DOM.STATE 33, 1), (L.PCI_CFG.EN 1, 1), (L.PCI_CFG.BIF 0, 1), (L.PCI_CFG.ROLE 1, role), (L.PCI_STATUS.P0_UP 1, 1)] ++ l)
def fn7 : List (Loc × Nat) := [(L.PCI_FN_CFG.EN 1 7, 1), (L.PCI_FN_BAR.BASE 1 7, 0)]
def tq (k : TlpKind) : Tlp := ⟨7, 5, 0x1000, k⟩
def sP : State := pc 1 fn7
def win (off : Nat) : PAddr := BitVec.ofNat 48 (2*2^40 + 2^39 + 7*2^36 + off)
def rq (u : PciUser) (len : Nat) : PciReq := ⟨1, 0, 7, 9, 0x1000, len, [], newtS, u, true, 4⟩
def opn (r : PciReq) (s : State) : State := { s with pciOpen := [r] }
-- ethernet
def et (l : List (Loc × Nat)) : State := stN ([(L.ETH_LANE_CFG.EN 3, 1), (L.ETH_STATUS.LINK, 8)] ++ l)
def fr (n : Nat) : List Nat := List.replicate n 0
def qon (q : Nat) : List (Loc × Nat) := [(L.QE_Q_STAT.STATE (q/512) (q%512), qDirect), (L.QE_Q_CFG.EN (q/512) (q%512), 1), (L.QE_Q_CFG.LIMIT (q/512) (q%512), 16)]
def sRx (l : List (Loc × Nat)) : State := et ([(L.ETH_FN_CFG.EN 0, 1), (L.ETH_FN_CFG.RXQ 0, 4088)] ++ l)
def ent : QEntry := ⟨List.replicate 64 7, 64, true, true⟩
def sTx (l : List (Loc × Nat)) : State := (et ([(L.ETH_FN_CFG.EN 7, 1), (L.ETH_FN_CFG.TXQ 7, 4088), (L.ETH_FN_CFG.LANES 7, 8)] ++ qon 4090 ++ l)).setSpillQ 4090 { (default : SpillQ) with head := [ent] }
def sLong : State := (et ([(L.ETH_FN_CFG.EN 7, 1), (L.ETH_FN_CFG.TXQ 7, 4088), (L.ETH_FN_CFG.LANES 7, 8)] ++ qon 4090)).setSpillQ 4090 { (default : SpillQ) with head := [⟨List.replicate 9217 7, 9217, true, true⟩] }
def gl (l : List (Loc × Nat)) : State := et ([(L.ETH_STATUS.LIST_VALID, 8), (L.ETH_STATUS.LIST, 255*256^3), (L.ETH_GATE_LIST.COUNT 255, 2), (L.ETH_GATE_ENT.INTERVAL 0, 100)] ++ l)
def ln (x : EthLane) (s : State) : State := s.setEthLane 3 x

theorem witness_PcieCarriesRequests : (∃ (c : Fin 2) (q : Tlp) (s : State), s.pciLanes c = true ∧ s.pciExit c ≠ none ∧ tlpBad
  q = true) ∧ (∃ (c : Fin 2) (q : Tlp) (m : Nat) (s : State), s.pciLanes c = true ∧ s.pciExit c ≠ none ∧ tlpBad q = false ∧
  q.kind = .read m ∧ s.get (L.PCI_CFG.ROLE c) = 1 ∧ (s.get (L.PCI_FN_CFG.EN c q.fn) = 0 ∨ 0x100000 ≤ q.addr)) ∧ (∃ (c : Fin 2)
  (q : Tlp) (n : Nat) (a : Nat) (m : Nat) (u : State) (d : DevAns) (s : State), s.pciLanes c = true ∧ s.pciExit c ≠ none ∧
  tlpBad q = false ∧ q.kind = .read m ∧ PciReaches s c q n a ∧ s.pciFnOpen n = true ∧ s.ioRead (pciSrc c) (s.pciIssuer n) a m
  = (u, d) ∧ NoWait s u ∧ d.err = false ∧ d.poison = false) ∧ (∃ (c : Fin 2) (q : Tlp) (n : Nat) (a : Nat) (b : Bytes) (u :
  State) (s : State), s.pciLanes c = true ∧ s.pciExit c ≠ none ∧ tlpBad q = false ∧ q.kind = .write b ∧ b.length ≠ 4 ∧
  PciReaches s c q n a ∧ s.pciFnOpen n = true ∧ s.store (pciSrc c) (s.pciIssuer n) a b false = (u, true) ∧ NoWait s u) ∧ (∃ (c
  : Fin 2) (q : Tlp) (n : Nat) (a : Nat) (v : Nat) (cmp : Nat) (op : Fin 3) (u : State) (w : State) (d : DevAns) (s : State),
  s.pciLanes c = true ∧ s.pciExit c ≠ none ∧ tlpBad q = false ∧ q.kind = .atomic op true v cmp ∧ PciReaches s c q n a ∧
  s.pciFnOpen n = true ∧ s.ioRead (pciSrc c) (s.pciIssuer n) a 8 = (u, d) ∧ d.err = false ∧ d.poison = false ∧ NoWait s w ∧
  u.store (pciSrc c) (s.pciIssuer n) a (bytesLE 8 ((if op = 0 then ofBytesLE d.data + v else if op = 1 then v else if
  ofBytesLE d.data = cmp % 2 ^ 64 then v else ofBytesLE d.data) % 2 ^ 64)) false = (w, true)) ∧ (∃ (c : Fin 2) (q : Tlp) (n :
  Nat) (a : Nat) (s : State), s.pciLanes c = true ∧ s.pciExit c ≠ none ∧ PciReaches s c q n a ∧ q.kind = .config true ∧
  s.pciFnOpen n = true) :=
  ⟨⟨1, (tq .malformed), sP, (by decide +kernel)⟩, ⟨1, (tq (.read 8)), 8, (pc 1 []), (by decide +kernel)⟩, ⟨1, (tq (.read 8)),
    15, 0x1000, 8, (((sP : State).ioRead (pciSrc (1 : Fin 2)) ((sP : State).pciIssuer (15 : Nat)) (0x1000 : Nat) (8 :
    Nat)).1), (((sP : State).ioRead (pciSrc (1 : Fin 2)) ((sP : State).pciIssuer (15 : Nat)) (0x1000 : Nat) (8 : Nat)).2), sP,
    (by decide +kernel), (by decide +kernel), (by decide +kernel), (by decide +kernel), (by decide +kernel),
    (by decide +kernel), Prod.mk.eta.symm, (by decide +kernel)⟩, ⟨1, (tq (.write [1, 2])), 15, 0x1000, [1, 2], (((sP :
    State).store (pciSrc (1 : Fin 2)) ((sP : State).pciIssuer (15 : Nat)) (0x1000 : Nat) ([1, 2] : Bytes) false).1), sP,
    (by decide +kernel), (by decide +kernel), (by decide +kernel), (by decide +kernel), (by decide +kernel),
    (by decide +kernel), (by decide +kernel), pair_eq (by decide +kernel), (by decide +kernel)⟩, ⟨1, (tq (.atomic 2 true 7
    0)), 15, 0x1000, 7, 0, 2, (((sP : State).ioRead (pciSrc (1 : Fin 2)) ((sP : State).pciIssuer (15 : Nat)) (0x1000 : Nat)
    8).1), (((((sP : State).ioRead (pciSrc (1 : Fin 2)) ((sP : State).pciIssuer (15 : Nat)) (0x1000 : Nat) 8).1 : State).store
    (pciSrc (1 : Fin 2)) ((sP : State).pciIssuer (15 : Nat)) (0x1000 : Nat) (bytesLE 8 ((if (2 : Fin 3) = 0 then ofBytesLE
    (((sP : State).ioRead (pciSrc (1 : Fin 2)) ((sP : State).pciIssuer (15 : Nat)) (0x1000 : Nat) 8).2 : DevAns).data + (7 :
    Nat) else if (2 : Fin 3) = 1 then (7 : Nat) else if ofBytesLE (((sP : State).ioRead (pciSrc (1 : Fin 2)) ((sP :
    State).pciIssuer (15 : Nat)) (0x1000 : Nat) 8).2 : DevAns).data = (0 : Nat) % 2 ^ 64 then (7 : Nat) else ofBytesLE (((sP :
    State).ioRead (pciSrc (1 : Fin 2)) ((sP : State).pciIssuer (15 : Nat)) (0x1000 : Nat) 8).2 : DevAns).data) % 2 ^ 64))
    false).1), (((sP : State).ioRead (pciSrc (1 : Fin 2)) ((sP : State).pciIssuer (15 : Nat)) (0x1000 : Nat) 8).2), sP,
    (by decide +kernel), (by decide +kernel), (by decide +kernel), (by decide +kernel), (by decide +kernel),
    (by decide +kernel), Prod.mk.eta.symm, (by decide +kernel), (by decide +kernel), (by decide +kernel),
    pair_eq (by decide +kernel)⟩, ⟨1, (tq (.config true)), 15, 0x1000, sP, (by decide +kernel)⟩⟩

theorem witness_PcieCarriesRequests_2 : (∃ (c : Fin 2) (q : Tlp) (n : Nat) (a : Nat) (s : State), s.pciLanes c = true ∧
  s.pciExit c ≠ none ∧ PciReaches s c q n a ∧ q.kind = .config false ∧ s.pciFnOpen n = true) ∧ (∃ (c : Fin 2) (q : Tlp) (n :
  Nat) (a : Nat) (s : State), s.pciLanes c = true ∧ s.pciExit c ≠ none ∧ PciReaches s c q n a ∧ q.kind = .config false ∧
  s.pciFnOpen n = false) ∧ (∃ (i : Issuer) (a : PAddr) (c : Nat) (f : Nat) (off : Nat) (p : Nat) (m : Nat) (b : Bytes) (s :
  State), PciWindow s i a c f off ∧ s.agentIn i = true ∧ s.pciLanes c = true ∧ s.pciFnOpen (8 * c + f) = true ∧ s.pciExit c =
  some p ∧ 0 < m ∧ m ≤ 8 ∧ off + m ≤ 2 ^ 36 ∧ b.length = m ∧ s.pmpStops i a.toNat m pmpW = false) ∧ (∃ (i : Issuer) (a :
  PAddr) (c : Nat) (f : Nat) (off : Nat) (p : Nat) (m : Nat) (b : Bytes) (s : State), PciWindow s i a c f off ∧ s.agentIn i =
  true ∧ s.pciLanes c = true ∧ s.pciFnOpen (8 * c + f) = true ∧ s.pciExit c = some p ∧ 0 < m ∧ m ≤ 8 ∧ off + m ≤ 2 ^ 36 ∧ (∀ r
  ∈ s.pciOpen, r.sent = true ∧ r.tag ≠ s.pciTag) ∧ s.pciCount c < 512 ∧ s.pmpStops i a.toNat m pmpR = false) ∧ (∃ (i : Issuer)
  (a : PAddr) (k : RemoteKind) (s : State), a.toNat / 2 ^ 40 ≠ 2 ∧ s.agentIn i = true) ∧ (∃ (i : Issuer) (a : PAddr) (c : Nat)
  (f : Nat) (off : Nat) (m : Nat) (s : State), PciWindow s i a c f off ∧ s.agentIn i = true ∧ 0 < m ∧ m ≤ 8 ∧ off + m ≤ 2 ^ 36
  ∧ (s.pciLanes c = false ∨ s.pciExit c = none)) :=
  ⟨⟨1, (tq (.config false)), 15, 0x1000, sP, (by decide +kernel)⟩, ⟨1, (tq (.config false)), 15, 0x1000,
    ({ sP with releasing := [.pci 15] }), (by decide +kernel)⟩, ⟨newtS, (win (2^36-8)), 1, 7, (2^36-8), 0, 8, [1, 2, 3, 4, 5,
    6, 7, 8], sP, (by decide +kernel)⟩, ⟨newtS, (win (2^36-8)), 1, 7, (2^36-8), 0, 8, [1, 2, 3, 4, 5, 6, 7, 8], sP,
    (by decide +kernel)⟩, ⟨newtS, 0, (.load 8), sP, (by decide +kernel)⟩, ⟨newtS, (win 0), 1, 7, 0, 8, (stN []),
    (by decide +kernel)⟩⟩

theorem witness_PcieCarriesRequests_3 : (∃ (c : Fin 2) (r : PciReq) (h : Agent) (b : List Nat) (s : State), s.pciOpen = [r] ∧
  r.ctrl = c.val ∧ r.sent = true ∧ r.user = .core h ∧ (∀ v, r.issuer.vi = some v → s.viGen v = r.issuer.gen) ∧ r.len ≤ (r.got
  ++ b).length ∧ (∀ x ∈ b, x < 256)) ∧ (∃ (c : Fin 2) (r : PciReq) (h : Agent) (b : List Nat) (s : State), s.pciOpen = [r] ∧
  r.ctrl = c.val ∧ r.sent = true ∧ r.user = .core h ∧ (∀ v, r.issuer.vi = some v → s.viGen v = r.issuer.gen) ∧ (r.got ++
  b).length < r.len ∧ (∀ x ∈ b, x < 256)) ∧ (∃ (c : Fin 2) (r : PciReq) (h : Agent) (b : List Nat) (s : State), s.pciOpen =
  [r] ∧ r.ctrl = c.val ∧ r.sent = true ∧ r.user = .core h ∧ (∀ v, r.issuer.vi = some v → s.viGen v = r.issuer.gen)) ∧ (∃ (c :
  Fin 2) (r : PciReq) (l : Nat) (loc : Nat) (b : List Nat) (s : State), s.pciOpen = [r] ∧ r.ctrl = c.val ∧ r.sent = true ∧
  r.user = .launch l loc ∧ (∀ v, r.issuer.vi = some v → s.viGen v = r.issuer.gen)) ∧ (∃ (c : Fin 2) (p : Fin 2) (s : State),
  s.pciUp c p = true) ∧ (∃ (c : Fin 2) (p : Fin 2) (w : Fin 5) (r : Fin 5) (m : Nat) (s : State), s.pciPortLanes c p = some m
  ∧ s.pciLanes c = true ∧ w.val ≤ m ∧ s.get L.CLK_REF.PCI_REF_OK = 1 ∧ s.txIdle = false) :=
  ⟨⟨1, (rq (.core .newt) 8), .newt, [1, 2, 3, 4, 5, 6, 7, 8, 9], (opn (rq (.core .newt) 8) sP), (by decide +kernel),
    (by decide +kernel), (by decide +kernel), (by decide +kernel),
    (by first | decide +kernel | (intro v h; first | (cases h; done) | (cases h; decide +kernel))), (by decide +kernel)⟩, ⟨1,
    (rq (.core .newt) 8), .newt, [1, 2, 3], (opn (rq (.core .newt) 8) sP), (by decide +kernel), (by decide +kernel),
    (by decide +kernel), (by decide +kernel),
    (by first | decide +kernel | (intro v h; first | (cases h; done) | (cases h; decide +kernel))), (by decide +kernel)⟩, ⟨1,
    (rq (.core .newt) 8), .newt, [1, 2, 3, 4, 5, 6, 7, 8, 9], (opn (rq (.core .newt) 8) sP), (by decide +kernel),
    (by decide +kernel), (by decide +kernel), (by decide +kernel),
    (by first | decide +kernel | (intro v h; first | (cases h; done) | (cases h; decide +kernel)))⟩, ⟨1, (rq (.launch 3 5) 8),
    3, 5, [1],
    ({ opn (rq (.launch 3 5) 8) sP with launches := [⟨3, 8, 0, 0, 0, true, none, 0, false, [], false, 0, false, false, 0, none⟩] }),
    (by decide +kernel), (by decide +kernel), (by decide +kernel), (by decide +kernel),
    (by first | decide +kernel | (intro v h; first | (cases h; done) | (cases h; decide +kernel)))⟩, ⟨1, 0, (opn (rq (.core
    .newt) 8) sP), (by decide +kernel)⟩, ⟨1, 0, 3, 4, 3, (pc 1 [(L.CLK_REF.PCI_REF_OK, 1)]), (by decide +kernel)⟩⟩

theorem witness_EthernetCarriesFrames : (∃ (l : Fin 4) (f : List Nat) (s : State), s.ethUp l = true) ∧ (∃ (l : Fin 4) (f :
  List Nat) (s : State), s.ethUp l = true ∧ 64 ≤ f.length ∧ f.length ≤ 9216 ∧ (∀ x ∈ f, x < 256) ∧ s.ethFnOpen (s.ethFunction
  f) = false) ∧ (∃ (l : Fin 4) (f : List Nat) (q : Nat) (u : State) (ok : Bool) (s : State), s.ethUp l = true ∧ 64 ≤ f.length
  ∧ f.length ≤ 9216 ∧ (∀ x ∈ f, x < 256) ∧ asType f = none ∧ s.ethFnOpen (s.ethFunction f) = true ∧ q = s.get
  (L.ETH_FN_CFG.RXQ (s.ethFunction f)) + frameClass f ∧ s.ownerSealed (.queue q) = s.ownerSealed (.eth (s.ethFunction f)) ∧
  (s.viOf (.eth (s.ethFunction f)) = none ∨ s.viOf (.queue q) = s.viOf (.eth (s.ethFunction f))) ∧ s.qArrive q (0x100 + l.val)
  f.length f = (u, ok) ∧ ok = true) ∧ (∃ (l : Fin 4) (f : List Nat) (q : Nat) (u : State) (ok : Bool) (s : State), s.ethUp l =
  true ∧ 64 ≤ f.length ∧ f.length ≤ 9216 ∧ (∀ x ∈ f, x < 256) ∧ asType f = none ∧ s.ethFnOpen (s.ethFunction f) = true ∧ q =
  s.get (L.ETH_FN_CFG.RXQ (s.ethFunction f)) + frameClass f ∧ s.ownerSealed (.queue q) = s.ownerSealed (.eth (s.ethFunction
  f)) ∧ (s.viOf (.eth (s.ethFunction f)) = none ∨ s.viOf (.queue q) = s.viOf (.eth (s.ethFunction f))) ∧ s.qArrive q (0x100 +
  l.val) f.length f = (u, ok) ∧ ok = false) ∧ (∃ (l : Fin 4) (p : Fin 8) (f : Nat) (q : Nat) (n : Nat) (u : State) (es : List
  QEntry) (b : Bytes) (s : State), s.ethUp l = true ∧ (s.ethLane l).txEnd ≤ s.up ∧ s.txIdle = false ∧ (∀ k, p.val < k → k < 8
  → s.txSource l k = none) ∧ s.txSource l p = some (f, q, n) ∧ s.takeEntries q n = (u, es) ∧ NoWait s u ∧ b = es.flatMap (fun
  x => x.data.take x.bytes) ∧ b.length ≤ 9216 ∧ s.gateHolds p (100 * s.tb.ns + s.wireTime l b.length) 200 (s.gateNow l) =
  true) :=
  ⟨⟨3, (fr 64), (et []), (by decide +kernel)⟩, ⟨3, (fr 64), (et []), (by decide +kernel)⟩, ⟨3, (fr 64), ((sRx (qon 4088) :
    State).get (L.ETH_FN_CFG.RXQ ((sRx (qon 4088) : State).ethFunction (fr 64 : List Nat))) + frameClass (fr 64 : List Nat)),
    (((sRx (qon 4088) : State).qArrive ((sRx (qon 4088) : State).get (L.ETH_FN_CFG.RXQ ((sRx (qon 4088) : State).ethFunction
    (fr 64 : List Nat))) + frameClass (fr 64 : List Nat) : Nat) (0x100 + (3 : Fin 4).val) (fr 64 : List Nat).length (fr 64 :
    List Nat)).1), (((sRx (qon 4088) : State).qArrive ((sRx (qon 4088) : State).get (L.ETH_FN_CFG.RXQ ((sRx (qon 4088) :
    State).ethFunction (fr 64 : List Nat))) + frameClass (fr 64 : List Nat) : Nat) (0x100 + (3 : Fin 4).val) (fr 64 : List
    Nat).length (fr 64 : List Nat)).2), (sRx (qon 4088)), (by decide +kernel), (by decide +kernel), (by decide +kernel),
    (by first | decide +kernel | (intro v h; first | (cases h; done) | (cases h; decide +kernel))), (by decide +kernel),
    (by decide +kernel), (by first | with_reducible rfl | decide +kernel), (by decide +kernel), (by decide +kernel),
    Prod.mk.eta.symm, (by decide +kernel)⟩, ⟨3, (fr 64), ((sRx [] : State).get (L.ETH_FN_CFG.RXQ ((sRx [] : State).ethFunction
    (fr 64 : List Nat))) + frameClass (fr 64 : List Nat)), (((sRx [] : State).qArrive ((sRx [] : State).get (L.ETH_FN_CFG.RXQ
    ((sRx [] : State).ethFunction (fr 64 : List Nat))) + frameClass (fr 64 : List Nat) : Nat) (0x100 + (3 : Fin 4).val) (fr 64
    : List Nat).length (fr 64 : List Nat)).1), (((sRx [] : State).qArrive ((sRx [] : State).get (L.ETH_FN_CFG.RXQ ((sRx [] :
    State).ethFunction (fr 64 : List Nat))) + frameClass (fr 64 : List Nat) : Nat) (0x100 + (3 : Fin 4).val) (fr 64 : List
    Nat).length (fr 64 : List Nat)).2), (sRx []), (by decide +kernel), (by decide +kernel), (by decide +kernel),
    (by first | decide +kernel | (intro v h; first | (cases h; done) | (cases h; decide +kernel))), (by decide +kernel),
    (by decide +kernel), (by first | with_reducible rfl | decide +kernel), (by decide +kernel), (by decide +kernel),
    Prod.mk.eta.symm, (by decide +kernel)⟩, ⟨3, 2, 7, 4090, 1, (((sTx [] : State).takeEntries (4090 : Nat) (1 : Nat)).1),
    (((sTx [] : State).takeEntries (4090 : Nat) (1 : Nat)).2), ((((sTx [] : State).takeEntries (4090 : Nat) (1 : Nat)).2 :
    List QEntry).flatMap (fun x => x.data.take x.bytes)), (sTx []), (by decide +kernel), (by decide +kernel),
    (by decide +kernel), (by intro k h1 h2; revert h1; revert h2; revert k; decide +kernel), (by decide +kernel),
    Prod.mk.eta.symm, (by decide +kernel), (by first | with_reducible rfl | decide +kernel), (by decide +kernel)⟩⟩

theorem witness_EthernetCarriesFrames_2 : (∃ (l : Fin 4) (p : Fin 8) (f : Nat) (q : Nat) (n : Nat) (u : State) (es : List
  QEntry) (b : Bytes) (s : State), s.ethUp l = true ∧ (s.ethLane l).txEnd ≤ s.up ∧ s.txIdle = false ∧ (∀ k, p.val < k → k < 8
  → s.txSource l k = none) ∧ s.txSource l p = some (f, q, n) ∧ s.takeEntries q n = (u, es) ∧ NoWait s u ∧ b = es.flatMap (fun
  x => x.data.take x.bytes) ∧ 9216 < b.length) ∧ (∃ (l : Fin 4) (s : State), (s.ethUp l = false ∨ s.up < (s.ethLane l).txEnd))
  ∧ (∃ (l : Fin 4) (n : Nat) (k : Nat) (s : State), s.ethList l = some n ∧ (s.ethLane l).entry = some k ∧ (∀ r, s.nextCycle l
  = some r → (s.ethLane l).entryAt + s.gateTime n k < r)) ∧ (∃ (l : Fin 4) (n : Nat) (s : State), s.ethList l = some n ∧
  s.ticking ∧ (s.ethLane l).cycleOf ≠ some s.tickTime ∧ s.tb.ns ≤ s.tickTime + (s.ethLane l).base + 1) ∧ (∃ (l : Fin 4) (s :
  State), s.get (L.ETH_LANE_CFG.AS_ROLE l) = 2) :=
  ⟨⟨3, 2, 7, 4090, 1, (((sLong : State).takeEntries (4090 : Nat) (1 : Nat)).1), (((sLong : State).takeEntries (4090 : Nat) (1 :
    Nat)).2), ((((sLong : State).takeEntries (4090 : Nat) (1 : Nat)).2 : List QEntry).flatMap (fun x => x.data.take x.bytes)),
    sLong, (by decide +kernel), (by decide +kernel), (by decide +kernel),
    (by intro k h1 h2; revert h1; revert h2; revert k; decide +kernel), (by decide +kernel), Prod.mk.eta.symm,
    (by decide +kernel), (by first | with_reducible rfl | decide +kernel), (by decide +kernel)⟩, ⟨3, (st []),
    (by decide +kernel)⟩, ⟨3, 255, 0, (ln { (default : EthLane) with entry := some 0 } (gl [])), (by decide +kernel)⟩, ⟨3,
    255, (ln { (default : EthLane) with base := 10 } (gl [(L.TB_STATUS.TICKING, 1)])), (by decide +kernel)⟩, ⟨3, (st
    [(L.ETH_LANE_CFG.AS_ROLE 3, 2)]), (by decide +kernel)⟩⟩

theorem witness_EthernetCarriesFrames_3 : (∃ (l : Fin 4) (s : State), s.get (L.ETH_LANE_CFG.EN l) = 1 ∧ s.txIdle = false ∧
  (s.get L.ETH_STATUS.LINK).testBit l = false) ∧ (∃ (l : Fin 4) (s : State), (s.get L.ETH_STATUS.LINK).testBit l = true) ∧ (∃
  (b : Bool) (f : List Nat) (s : State), s.get L.MGT_CFG.EN = 1 ∧ s.get L.MGT_STATUS.LINK = 1) ∧ (∃ (b : Bool) (f : List Nat)
  (s : State), s.get L.MGT_STATUS.LINK = 0) ∧ (∃ (s : State), s.get L.MGT_CFG.EN = 1 ∧ s.txIdle = false) :=
  ⟨⟨3, (st [(L.ETH_LANE_CFG.EN 3, 1), (L.ETH_STATUS.LINK, 5)]), (by decide +kernel)⟩, ⟨3, (et []), (by decide +kernel)⟩, ⟨true,
    [1, 2], (st [(L.MGT_CFG.EN, 1), (L.MGT_STATUS.LINK, 1)]), (by decide +kernel)⟩, ⟨true, [1], (st []), (by decide +kernel)⟩,
    ⟨(st [(L.MGT_CFG.EN, 1)]), (by decide +kernel)⟩⟩

end W15

namespace W16

def pq (n : Nat) (l : List PwrReq) (s : State) : State := s.setPwrReqs n l
def r1 (a : Nat) (b : Bool) : PwrReq := ⟨a, .cmd true, b, 0⟩
def l4 : Launch := { (default : Launch) with id := 5, target := 0x70, desc := [0x70, 4*256, 300], sealed := true }
def ph (p : Phase) (s : State) : State := s.setPwr { s.pwr with phase := p }
def rstq (r : RstReq) (s : State) : State := s.setPwr { s.pwr with rst := some r }
def bw (s : State) : State := { s.put L.WLD_BELAY_STAT.STAGE 2 with belay := { s.belay with since := 5, heldAt := none, bad := true } }
def onD (d : Nat) (s : State) : State := (s.put (L.PWR_DOM.STATE (2*d)) 1).put (L.PWR_DOM.STATE (2*d+1)) 1
def own (d : Nat) (s : State) : State := (s.setOwner (.pwr (2*d)) true).setOwner (.pwr (2*d+1)) true
def allOn (s : State) : State := (List.range 12).foldl (fun s d => onD d s) s
def pow (p cap : Nat) (s : State) : State := ((s.put L.PWR_IN.POWER p).put L.PWR_CAP.CAP cap)
def steps (x b : Nat) (s : State) : State := let t := s.put L.PWR_CAP_STAT.STEP x; t.setPwr { t.pwr with below := b }
def cw (k d c : Nat) : Word := BitVec.ofNat 64 (2^63 + k*256 + d*16 + c)

theorem witness_PowerActionsMoveTheDomains : (∃ (n : Fin 34) (a : Nat) (i : Instr) (r : PwrReq) (rest : List PwrReq) (s :
  State), (a, i) ∈ [(0, Instr.powerOnAction n), (1, .powerOffAction n), (2, .clockGateAction n), (3, .clockUngateAction n)] ∧
  s.pwrReqs n = r :: rest ∧ r.started = false ∧ r.action = a ∧ r.by_ ≠ .dieReset ∧ s.pwrTurn r.by_ = true ∧ s.actionWaits n a
  = false ∧ s.actionJudge n a = none) ∧ (∃ (n : Fin 34) (a : Nat) (st : Nat) (i : Instr) (r : PwrReq) (rest : List PwrReq) (w
  : Bool) (s : State), (a, i) ∈ [(0, Instr.powerOnAction n), (1, .powerOffAction n), (2, .clockGateAction n), (3,
  .clockUngateAction n)] ∧ s.pwrReqs n = r :: rest ∧ r.started = false ∧ r.action = a ∧ r.by_ = .cmd w ∧ s.actionWaits n a =
  false ∧ s.actionJudge n a = some st ∧ st < 256) ∧ (∃ (n : Fin 34) (r : PwrReq) (rest : List PwrReq) (w : Bool) (s : State),
  s.pwrReqs n = r :: rest ∧ r.started = true ∧ r.by_ = .cmd w ∧ (s.actionEnd n r.action).2 = true ∧ s.pwr.rst = none) ∧ (∃ (id
  : Nat) (l : Launch) (s : State), s.findLaunch id = some l ∧ l.target = 0x70 ∧ l.status = none ∧ bits (l.desc.getD 1 0) 11 8
  = 4 ∧ bits (l.desc.getD 2 0) 15 0 < 512 ∧ s.firstPending l = true) ∧ (∃ (c : Issuer) (v : Word) (s : State), Sends s c ∧
  c.vi = none ∧ v.getLsbD 62 = true ∧ s.get (L.PWR_RES.READY c.sealed) = 1) ∧ (∃ (c : Issuer) (v : Word) (s : State), Sends s
  c ∧ c.vi ≠ none) :=
  ⟨⟨0, 0, (.powerOnAction 0), (r1 0 false), [r1 1 false], (pq 0 [r1 0 false, r1 1 false] (st [(L.PWR_DOM.STATE 0, 0),
    (L.PWR_DOM.STATE 1, 1), (L.PWR_CORE_VEC.VALID, 1)])), (by decide +kernel)⟩, ⟨24, 0, 0, (.powerOnAction 24), (r1 0 false),
    [r1 1 false], true, (pq 24 [r1 0 false, r1 1 false] (st [(L.PWR_DOM.STATE 24, 1)])), (by decide +kernel)⟩, ⟨0, (r1 0
    true), [r1 1 false], true, (pq 0 [r1 0 true, r1 1 false] (st [(L.PWR_DOM.STATE 0, 0)])), (by decide +kernel)⟩, ⟨5, l4,
    ({ st [] with launches := [l4] }), (by decide +kernel)⟩, ⟨newtS, (BitVec.ofNat 64 (2^62)), (st [(L.PWR_RES.READY true,
    1)]), (by decide +kernel)⟩, ⟨⟨true, some 3, 0, .device⟩, 0, (st []), (by decide +kernel)⟩⟩

theorem witness_TheCapSlowsAndRaisesDies : (∃ (d : Nat) (s : State), d < 12 ∧ s.get L.PWR_CAP_STAT.THERMAL = 0 ∧ 10 * s.get
  L.PWR_CAP.CAP < s.get L.PWR_IN.POWER ∧ (s.get L.PWR_CAP.KEEP).testBit d = false ∧ s.domState (2 * d) = 1 ∧ max (s.capStep d)
  (s.get (L.CLK_DOM.FSEL d)) < 3 ∧ (∀ e, e < 12 → (s.get L.PWR_CAP.KEEP).testBit e = false → s.domState (2 * e) = 1 → max
  (s.capStep e) (s.get (L.CLK_DOM.FSEL e)) < 3 → max (s.capStep d) (s.get (L.CLK_DOM.FSEL d)) ≤ max (s.capStep e) (s.get
  (L.CLK_DOM.FSEL e)) ∧ (max (s.capStep d) (s.get (L.CLK_DOM.FSEL d)) = max (s.capStep e) (s.get (L.CLK_DOM.FSEL e)) → e ≤
  d))) ∧ (∃ (s : State), s.get L.PWR_CAP_STAT.THERMAL = 0 ∧ 10 * s.get L.PWR_CAP.CAP < s.get L.PWR_IN.POWER ∧ (∀ e, e < 12 →
  (s.get L.PWR_CAP.KEEP).testBit e = true ∨ s.domState (2 * e) ≠ 1 ∨ 3 ≤ max (s.capStep e) (s.get (L.CLK_DOM.FSEL e)))) ∧ (∃
  (d : Nat) (s : State), d < 12 ∧ s.get L.PWR_CAP_STAT.THERMAL = 0 ∧ s.get L.PWR_IN.POWER < 10 * (s.get L.PWR_CAP.CAP - 10) ∧
  9 ≤ s.pwr.below ∧ s.capStep d ≠ 0 ∧ (∀ e, e < 12 → s.capStep e ≤ s.capStep d ∧ (s.capStep e = s.capStep d → d ≤ e))) ∧ (∃ (s
  : State), s.get L.PWR_CAP_STAT.THERMAL = 0 ∧ s.get L.PWR_IN.POWER < 10 * (s.get L.PWR_CAP.CAP - 10) ∧ s.pwr.below < 9) :=
  ⟨⟨11, (pow 4001 400 (allOn (st []))), (by decide +kernel)⟩, ⟨(pow 4001 400 (st [])), (by decide +kernel)⟩, ⟨2, (pow 3000 400
    (allOn (steps (2*16 + 4^7*2) 9 (st [])))), (by decide +kernel)⟩, ⟨(pow 3000 400 (steps 5 8 (st []))),
    (by decide +kernel)⟩⟩

theorem witness_ThermalLimitsAndClocks : (∃ (temps : List Int) (x : Int) (s : State), x ∈ temps ∧ temps.length ≤ 56 ∧ (∀ y, y
  ∈ temps → y ≤ x) ∧ -2 ^ 15 ≤ x ∧ x < 2 ^ 15) ∧ (∃ (s : State), s.get L.CLK_REF.REF_OK = 1) ∧ (∃ (s : State), s.get
  L.CLK_REF.PCI_REF_OK = 1) ∧ (∃ (s : State), s.pwr.phase = .on) ∧ (∃ (n : Fin 22) (s : State), s.get (L.CLK_DOM.LOCK n) = 1)
  :=
  ⟨⟨[100, 320, 320], 320, (st []), (by decide +kernel)⟩, ⟨(st [(L.CLK_REF.REF_OK, 1)]), (by decide +kernel)⟩, ⟨(st
    [(L.CLK_REF.PCI_REF_OK, 1)]), (by decide +kernel)⟩, ⟨(ph .on (st [])), (by decide +kernel)⟩, ⟨21, (st [(L.CLK_DOM.LOCK 21,
    1)]), (by decide +kernel)⟩⟩

theorem witness_PackageResetsAndStartUp : (∃ (s : State), s.pwr.phase ≠ .unpowered) ∧ (∃ (s : State), s.pwr.phase =
  .overVoltage) ∧ (∃ (s : State), s.pwr.phase = .powerFail) ∧ (∃ (s : State), s.pwr.phase = .unpowered) ∧ (∃ (c : Issuer) (v :
  Word) (s : State), Sends s c ∧ c.sealed = true ∧ c.vi = none ∧ v.getLsbD 63 = true ∧ fieldOf v 8 2 = 1) ∧ (∃ (c : Issuer) (v
  : Word) (s : State), Sends s c ∧ (c.sealed = false ∨ c.vi ≠ none)) :=
  ⟨⟨((st [(L.PWR_RST_CAUSE.POWER_ON, 1)]).writeByte mramBase 7), (by decide +kernel)⟩, ⟨(ph .overVoltage ((st
    [(L.PWR_RST_CAUSE.POWER_ON, 1)]).writeByte mramBase 7)), (by decide +kernel)⟩, ⟨(ph .powerFail ((st
    [(L.PWR_RST_CAUSE.POWER_ON, 1)]).writeByte mramBase 7)), (by decide +kernel)⟩, ⟨(ph .unpowered ((st []).writeByte mramBase
    7)), (by decide +kernel)⟩, ⟨newtS, (cw 1 0 0), ((st []).writeByte 100 7), (by decide +kernel)⟩, ⟨devO, (cw 1 0 0), (st
    []), (by decide +kernel)⟩⟩

theorem witness_PackageResetsAndStartUp_2 : (∃ (s : State), s.pwr.resetLow = false) ∧ (∃ (s : State), s.pwr.phase = .pin) ∧ (∃
  (s : State), s.belayStage = 2 ∧ s.belay.heldAt = none) ∧ (∃ (s : State), s.pwr.phase = .delay) ∧ (∃ (s : State), s.pwr.phase
  = .soft) ∧ (∃ (g : Fin 4) (serial : Word) (pci : Bool) (s : State), s.pwr.phase = .waitRef ∧ s.pwr.resetLow = false) :=
  ⟨⟨(st []), (by decide +kernel)⟩, ⟨(ph .pin { st [] with up := 7 }), (by decide +kernel)⟩, ⟨(bw (st [(L.WLD_BELAY_CFG.GRACE,
    3)])), (by decide +kernel)⟩, ⟨(ph .delay (st [])), (by decide +kernel)⟩, ⟨(ph .soft (st [])), (by decide +kernel)⟩, ⟨2,
    77, true, ((st [(L.PWR_RST_CAUSE.POWER_ON, 1), (L.WLD_BELAY_CAUSE.CAUSE, 2)])), (by decide +kernel)⟩⟩

theorem witness_DieAndClusterResetsAndTheHold : (∃ (c : Issuer) (v : Word) (s : State), Sends s c ∧ c.sealed = true ∧ c.vi =
  none ∧ v.getLsbD 63 = true ∧ fieldOf v 8 2 = 2 ∧ s.pwr.rst = none ∧ fieldOf v 4 4 ≤ 11 ∧ (∀ k, k < 2 → s.domState (2 *
  fieldOf v 4 4 + k) = 1 ∧ s.ownerSealed (.pwr (2 * fieldOf v 4 4 + k)) = true ∧ s.pwrReqs (2 * fieldOf v 4 4 + k) = [])) ∧ (∃
  (c : Issuer) (v : Word) (s : State), Sends s c ∧ c.sealed = true ∧ c.vi = none ∧ v.getLsbD 63 = true ∧ s.pwr.rst = none ∧
  fieldOf v 8 2 = 2 ∧ 11 < fieldOf v 4 4) ∧ (∃ (c : Issuer) (v : Word) (s : State), Sends s c ∧ c.sealed = true ∧ c.vi = none
  ∧ v.getLsbD 63 = true ∧ s.pwr.rst = none ∧ fieldOf v 8 2 = 3 ∧ fieldOf v 4 4 ≤ 11 ∧ fieldOf v 0 4 ≤ 8 ∧ s.domState (2 *
  fieldOf v 4 4) = 1 ∧ s.ownerSealed (.pwr (2 * fieldOf v 4 4)) = false) ∧ (∃ (c : Issuer) (v : Word) (s : State), Sends s c ∧
  c.sealed = true ∧ c.vi = none ∧ v.getLsbD 63 = true ∧ fieldOf v 8 2 = 3 ∧ s.pwr.rst = none ∧ fieldOf v 4 4 ≤ 11 ∧ fieldOf v
  0 4 ≤ 8 ∧ s.domState (2 * fieldOf v 4 4) = 1 ∧ s.ownerSealed (.pwr (2 * fieldOf v 4 4)) = true) ∧ (∃ (d : Nat) (c : Nat) (s
  : State), d < 12 ∧ c < 9 ∧ s.pwr.rst = some (.cluster d c true) ∧ (s.flushCluster d c).clusterClean d c = true ∧ (s.dieSt
  d).otherMake = false ∧ s.coreFailed (hartOf d c 0) = false ∧ s.coreFailed (hartOf d c 1) = false) :=
  ⟨⟨newtS, (cw 2 11 0), (own 11 (onD 11 (st []))), (by decide +kernel)⟩, ⟨newtS, (cw 2 12 0), (st []), (by decide +kernel)⟩,
    ⟨newtS, (cw 3 3 8), ((onD 3 (st [])).setOwner (.pwr 6) false), (by decide +kernel)⟩, ⟨newtS, (cw 3 3 8), ((onD 3 (st
    [])).setOwner (.pwr 6) true), (by decide +kernel)⟩, ⟨3, 8, (rstq (.cluster 3 8 true) (onD 3 (st [(L.PWR_CORE_VEC.VEC,
    0x400)]))), (by decide +kernel)⟩⟩

theorem witness_DieAndClusterResetsAndTheHold_2 : (∃ (d : Nat) (s : State), d < 12 ∧ s.pwr.rst = some (.die d 1) ∧ (s.dieSt
  d).otherMake = false ∧ ((s.forAll (List.range 9) (fun s c => s.flushCluster d c)).flushL3 d).dieClean d = true ∧
  ((((s.forAll (List.range 9) (fun s c => s.flushCluster d c)).flushL3 d).filterSweep d).forAll (dieLinks d)
  State.linkTaken).stopped = false) ∧ (∃ (d : Nat) (s : State), d < 12 ∧ s.pwr.rst = some (.die d 2) ∧ (∀ k, k < 4 → s.dlState
  (4 * d + k) ≠ dlTrain ∧ s.dlState (4 * d + k) ≠ dlRetrainSt)) ∧ (∃ (c : Issuer) (v : Word) (s : State), Sends s c ∧ c.sealed
  = true ∧ c.vi = none ∧ v.getLsbD 62 = true ∧ s.get L.PWR_RST_RES.READY = 1) ∧ (∃ (c : Issuer) (v : Word) (s : State), Sends
  s c ∧ c.sealed = true ∧ c.vi = none ∧ v.getLsbD 0 = true) ∧ (∃ (c : Issuer) (v : Word) (s : State), Sends s c ∧ c.sealed =
  true ∧ c.vi = none ∧ v.getLsbD 0 = false ∧ s.get L.PWR_RST_HOLD.TB = 1) :=
  ⟨⟨3, (rstq (.die 3 1) (onD 3 (st []))), (by decide +kernel)⟩, ⟨3, (rstq (.die 3 2) (onD 3 (st [(L.PWR_CORE_VEC.VEC,
    0x400)]))), (by decide +kernel)⟩, ⟨newtS, (BitVec.ofNat 64 (2^62)), (st [(L.PWR_RST_RES.READY, 1)]), (by decide +kernel)⟩,
    ⟨newtS, 1, ((st [(L.TB_SERIAL.SERIAL, 5), (L.TB_STATUS.TICKING, 1)])), (by decide +kernel)⟩, ⟨newtS, 0, (st []),
    (by decide +kernel)⟩⟩

end W16

namespace W18

def cv (hi lo : Nat) : Word := BitVec.ofNat 64 (2^63 + hi*16 + lo)
def crnS (l : List (Loc × Nat)) : State := (st l).setOwner .cairn true
def lc : Launch := { (default : Launch) with id := 5, target := 0x50, desc := [0x50], sealed := true }
def hl (h : Nat) (b : Bool) (s : State) : State := s.setHart h { s.hartSt h with run := .run, halted := b }
def A (k : Nat) : PAddr := BitVec.ofNat 48 (0xF00000000000 + k)
def dbg : State := hl 0 true (stN [(L.WLD_DBG.SEALED_EN, 1)])
def ri (k : Nat) : RegInst := (findReg k).getD ⟨((blockRegs .bTB).head?).getD ⟨.TB_TIME, 0, [], []⟩, 0, []⟩
def fd (k i : Nat) : FieldSpec := (ri k).spec.fields.getD i ⟨0, 0, .ro, 0⟩
def bi (k : Nat) : Block := ((keyBlock k).getD (.bTB, 0, 0)).1
def ii (k : Nat) : Nat := ((keyBlock k).getD (.bTB, 0, 0)).2.1
def oo (k : Nat) : Nat := ((keyBlock k).getD (.bTB, 0, 0)).2.2
def aw11 (s : State) : State := ((s.put (L.PWR_DOM.STATE 22) 1).put (L.PWR_DOM.STATE 23) 1).put (L.DL_STATUS.STATE 44) dlActive
def aw (s : State) : State := ((s.put (L.PWR_DOM.STATE 0) 1).put (L.PWR_DOM.STATE 1) 1).put (L.DL_STATUS.STATE 0) dlActive
def nw : Issuer := ⟨true, none, 0, .newt⟩
def uk : Issuer := ⟨true, none, 0, .device⟩
def rnH : State := (aw11 (st [])).setHart 215 { (default : Hart) with run := .run }

theorem witness_CapturesAndDebug : (∃ (c : Issuer) (v : Word) (k : Nat) (s : State), Sends s c ∧ c.sealed = s.ownerSealed
  .cairn ∧ s.isReleasing .cairn = false ∧ c.vi = none ∧ v.getLsbD 63 = true ∧ fieldOf v 4 4 = 0 ∧ s.capBusy = none ∧ k < 3 ∧
  (s.get L.CRN_STATUS.FULL).testBit k = false ∧ (∀ j, j < k → (s.get L.CRN_STATUS.FULL).testBit j = true)) ∧ (∃ (c : Issuer)
  (v : Word) (s : State), Sends s c ∧ c.sealed = s.ownerSealed .cairn ∧ s.isReleasing .cairn = false ∧ c.vi = none ∧ v.getLsbD
  63 = true ∧ fieldOf v 4 4 = 0 ∧ s.capBusy = none ∧ (∀ j, j < 3 → (s.get L.CRN_STATUS.FULL).testBit j = true)) ∧ (∃ (c :
  Issuer) (v : Word) (s : State), Sends s c ∧ (c.sealed ≠ s.ownerSealed .cairn ∨ v.getLsbD 63 = true ∧ fieldOf v 4 4 ≠ 0)) ∧
  (∃ (k : Nat) (s : State), s.capBusy = some k) :=
  ⟨⟨newtS, (cv 0 15), 0, (crnS []), (by decide +kernel)⟩, ⟨newtS, (cv 0 15), (crnS [(L.CRN_STATUS.FULL, 7)]),
    (by decide +kernel)⟩, ⟨devO, (cv 0 15), (crnS []), (by decide +kernel)⟩, ⟨2,
    ({ crnS [(L.CRN_STATUS.BUSY, 1)] with capBusy := some 2, launches := [lc] }), (by decide +kernel)⟩⟩

theorem witness_CapturesAndDebug_2 : (∃ (h : Fin 216) (s : State), s.get (L.HA_STATUS.STOPPED 0) = 0) ∧ (∃ (h : Fin 216) (s :
  State), s.get (L.HA_STATUS.STOPPED 0) = 1) ∧ (∃ (r : JtagReq) (s : State), r ≠ .idcode ∧ s.get L.WLD_DBG.SEALED_EN = 0 ∧
  s.get L.WLD_DBG.OPEN_EN = 0) ∧ (∃ (h : Nat) (n : Nat) (v : Word) (s : State), s.get L.WLD_DBG.SEALED_EN = 1 ∧ h < 216 ∧
  s.hartUnused h = false ∧ s.dieAway (hartDie h) = false ∧ s.clusterSwitching (hartDie h) (hartCluster h) = false ∧ (s.hartSt
  h).run = .run) :=
  ⟨⟨7, ({ st [] with paused := [3, 7, 9] }), (by decide +kernel)⟩, ⟨7,
    ({ st [(L.HA_STATUS.STOPPED 0, 1)] with paused := [3, 7, 9] }), (by decide +kernel)⟩, ⟨(.read 0 8), (st []),
    (by decide +kernel)⟩, ⟨5, 32, 77, (hl 5 true (aw (st [(L.WLD_DBG.SEALED_EN, 1)]))), (by decide +kernel)⟩⟩

theorem witness_CapturesAndDebug_3 : (∃ (h : Nat) (n : Nat) (v : Word) (s : State), s.get L.WLD_DBG.SEALED_EN = 1 ∧ h < 216 ∧
  s.hartUnused h = false ∧ s.dieAway (hartDie h) = false) ∧ (∃ (h : Nat) (n : Nat) (v : Word) (s : State), s.get
  L.WLD_DBG.SEALED_EN = 1 ∧ h < 216 ∧ s.hartUnused h = false ∧ s.dieAway (hartDie h) = false ∧ 1 ≤ n ∧ n ≤ 32 ∧ (s.hartSt
  h).halted = true) ∧ (∃ (h : Nat) (n : Nat) (v : Word) (s : State), s.get L.WLD_DBG.SEALED_EN = 1 ∧ h < 216 ∧ s.hartUnused h
  = false ∧ s.dieAway (hartDie h) = false ∧ (s.hartSt h).halted = false) ∧ (∃ (a : Nat) (n : Nat) (u : State) (d : DevAns) (s
  : State), s.get L.WLD_DBG.SEALED_EN = 1 ∧ a + n ≤ hbmEnd ∧ s.devRead 0xFF a n ⟨true, none, 0, .jtag⟩ = (u, d) ∧ NoWait s u)
  ∧ (∃ (a : Nat) (n : Nat) (v : Word) (u : State) (ok : Bool) (s : State), s.get L.WLD_DBG.SEALED_EN = 1 ∧ a + n ≤ hbmEnd ∧
  s.devWrite 0xFF a (bytesLE n v.toNat) false ⟨true, none, 0, .jtag⟩ = (u, ok) ∧ NoWait s u) :=
  ⟨⟨5, 32, 77, (hl 5 true (aw (st [(L.WLD_DBG.SEALED_EN, 1)]))), (by decide +kernel)⟩, ⟨5, 32, 77, (hl 5 true (aw (st
    [(L.WLD_DBG.SEALED_EN, 1)]))), (by decide +kernel)⟩, ⟨5, 32, 77, (hl 5 false (aw (st [(L.WLD_DBG.SEALED_EN, 1)]))),
    (by decide +kernel)⟩, ⟨0x1000, 8, (((dbg.writeByte 0x1000 9 : State).devRead 0xFF (0x1000 : Nat) (8 : Nat) ⟨true, none, 0,
    .jtag⟩).1), (((dbg.writeByte 0x1000 9 : State).devRead 0xFF (0x1000 : Nat) (8 : Nat) ⟨true, none, 0, .jtag⟩).2),
    (dbg.writeByte 0x1000 9), (by decide +kernel), (by decide +kernel), Prod.mk.eta.symm, (by decide +kernel)⟩, ⟨0x1000, 8,
    300, (((dbg : State).devWrite 0xFF (0x1000 : Nat) (bytesLE (8 : Nat) (300 : Word).toNat) false ⟨true, none, 0, .jtag⟩).1),
    (((dbg : State).devWrite 0xFF (0x1000 : Nat) (bytesLE (8 : Nat) (300 : Word).toNat) false ⟨true, none, 0, .jtag⟩).2), dbg,
    (by decide +kernel), (by decide +kernel), Prod.mk.eta.symm, (by decide +kernel)⟩⟩

theorem witness_RegistersAreWrittenAndRead : (∃ (c : Issuer) (a : PAddr) (v : Word) (b : Block) (i : Nat) (o : Nat) (key :
  Nat) (r : RegInst) (f : FieldSpec) (s : State), RegSpace a.toNat ∧ a.toNat % 8 = 0 ∧ keyBlock (a.toNat % 2 ^ 40) = some (b,
  i, o) ∧ findReg (a.toNat % 2 ^ 40) = some r ∧ c.agent ≠ .newt ∧ s.agentIn c = true ∧ (b = .bWLDD → s.dieIn i = true) ∧
  s.pmpStops c a.toNat 8 pmpW = false ∧ s.writeCause b i (some r) (s.tagged c) = 0 ∧ (∀ x, (s.answer .ok).writeOwnRule b r
  (a.toNat % 2 ^ 40) (s.tagged c) true x = none) ∧ f ∈ r.spec.fields ∧ key = bankKey r.spec.reg (s.tagged c).sealed (a.toNat %
  2 ^ 40)) ∧ (∃ (c : Issuer) (a : PAddr) (n : Nat) (v : Word) (s : State), RegSpace a.toNat ∧ c.agent ≠ .newt ∧ s.agentIn c =
  true ∧ s.pmpStops c a.toNat n pmpW = false ∧ keyBlock (a.toNat % 2 ^ 40) = none) ∧ (∃ (c : Issuer) (a : PAddr) (n : Nat) (v
  : Word) (b : Block) (i : Nat) (o : Nat) (r : Option RegInst) (s : State), RegSpace a.toNat ∧ c.agent ≠ .newt ∧ s.agentIn c =
  true ∧ s.pmpStops c a.toNat n pmpW = false ∧ keyBlock (a.toNat % 2 ^ 40) = some (b, i, o) ∧ findReg (a.toNat % 2 ^ 40 / 8 *
  8) = r ∧ ((b = .bWLDD ∧ s.dieIn i = false) ∨ s.writeCause b i r (s.tagged c) ≠ 0 ∨ sizeOk a.toNat n = false ∨ r = none)) ∧
  (∃ (die : Fin 12) (c : Issuer) (a : PAddr) (n : Nat) (b : Block) (i : Nat) (o : Nat) (r : RegInst) (s : State), s.dieLinked
  die = true ∧ c.agent ≠ .newt ∧ s.agentIn c = true ∧ RegSpace a.toNat ∧ s.pmpStops c a.toNat n pmpR = false ∧ keyBlock
  (a.toNat % 2 ^ 40) = some (b, i, o) ∧ findReg (a.toNat % 2 ^ 40 / 8 * 8) = some r ∧ (b = .bWLDD → s.dieIn i = true) ∧
  s.readCause b i (some r) (s.tagged c) = 0 ∧ sizeOk a.toNat n = true) :=
  ⟨⟨uk, (A R.TB_EVT), 5, (bi R.TB_EVT), (ii R.TB_EVT), (oo R.TB_EVT), (bankKey (ri R.TB_EVT : RegInst).spec.reg (((st []).wr
    R.TB_EVT 0xFF : State).tagged (uk : Issuer)).sealed ((A R.TB_EVT : PAddr).toNat % 2 ^ 40)), (ri R.TB_EVT), (fd R.TB_EVT
    0), ((st []).wr R.TB_EVT 0xFF), (by decide +kernel), (by decide +kernel), (by decide +kernel), (by decide +kernel),
    (by decide +kernel), (by decide +kernel), (by decide +kernel), (by decide +kernel), (by decide +kernel),
    (by intro x; rfl), (by decide +kernel), (by first | with_reducible rfl | decide +kernel)⟩, ⟨uk, (A 0x2F00000), 8, 1, (st
    []), (by decide +kernel)⟩, ⟨⟨false, none, 0, .device⟩, (A R.TB_SRC_CFG), 8, 1, (bi R.TB_SRC_CFG), (ii R.TB_SRC_CFG), (oo
    R.TB_SRC_CFG), (findReg R.TB_SRC_CFG), (st []), (by decide +kernel), (by decide +kernel), (by decide +kernel),
    (by decide +kernel), (by decide +kernel), (by first | with_reducible rfl | decide +kernel), (by decide +kernel)⟩, ⟨3, uk,
    (A (R.TB_SRC_CFG+4)), 4, (bi R.TB_SRC_CFG), (ii R.TB_SRC_CFG), (oo (R.TB_SRC_CFG+4)), (ri R.TB_SRC_CFG), ((st
    [(L.DL_STATUS.STATE 13, dlActive)]).wr R.TB_SRC_CFG 0x1234567890abcdef), (by decide +kernel)⟩⟩

theorem witness_RegistersAreWrittenAndRead_2 : (∃ (die : Fin 12) (c : Issuer) (a : PAddr) (n : Nat) (v : Word) (s : State),
  s.dieLinked die = true ∧ c.agent ≠ .newt ∧ s.agentIn c = true ∧ s.pmpStops c a.toNat n pmpR = true) ∧ (∃ (die : Fin 12) (c :
  Issuer) (a : PAddr) (n : Nat) (v : Word) (s : State), s.dieLinked die = true ∧ c.agent ≠ .newt ∧ s.agentIn c = true ∧
  s.pmpStops c a.toNat n pmpW = true ∧ s.devAsked = none) ∧ (∃ (i : Instr) (c : Issuer) (f : Issuer → State → Host.Outcome
  State Fault Refusal) (s : State), access i = some (c, f)) ∧ (∃ (c : Issuer) (h : Fin 216) (v : Word) (s : State), s.hartActs
  h = true) :=
  ⟨⟨11, ⟨true, none, 0, .hart 215⟩, (BitVec.ofNat 48 (0xF00000000000 + R.TB_SRC_CFG)), 8, 1, ((aw11 (st [])).setHart 215
    { (default : Hart) with run := .run, mode := .s }), (by decide +kernel)⟩, ⟨11, ⟨true, none, 0, .hart 215⟩, (BitVec.ofNat
    48 (0xF00000000000 + R.TB_SRC_CFG)), 8, 1, ((aw11 (st [])).setHart 215 { (default : Hart) with run := .run, mode := .s }),
    (by decide +kernel)⟩, ⟨(.tbTimeRead newtS), newtS, execTbTimeRead, (st []), rfl⟩, ⟨uk, 215, 5, rnH, (by decide +kernel)⟩⟩

theorem witness_RegistersAreWrittenAndRead_3 : (∃ (c : Issuer) (h : Fin 216) (n : Fin 4096) (md : PrivMode) (v : Word) (s :
  State), s.hartActs h = true ∧ n.val ≠ 0x7C0 ∧ ((n.val / 256 % 4 = 3 ∧ (md = .u ∨ md = .s)) ∨ (md = .m ∧ 0xC00 ≤ n.val))) ∧
  (∃ (c : Issuer) (die : Fin 12) (a : PAddr) (n : Nat) (v : Word) (s : State), c.agent = .newt ∧ newtView a.toNat n = none) ∧
  (∃ (c : Issuer) (die : Fin 12) (a : PAddr) (n : Nat) (p : Nat) (v : Word) (s : State), c.agent = .newt ∧ newtView a.toNat n
  = some p ∧ newtSram ≤ p) ∧ (∃ (c : Issuer) (die : Fin 12) (a : PAddr) (n : Nat) (p : Nat) (v : Word) (s : State), c.agent =
  .newt ∧ newtView a.toNat n = some p ∧ p < newtSram ∧ NoWait s (s.busWrite newtIssuer p n v)) ∧ (∃ (c : Issuer) (die : Fin
  12) (a : PAddr) (n : Nat) (p : Nat) (v : Word) (s : State), c.agent = .newt ∧ newtView a.toNat n = some p ∧ p < newtSram) :=
  ⟨⟨uk, 215, 0x300, .s, 5, rnH, (by decide +kernel)⟩, ⟨nw, 3, 0xFFFFFFFF, 4, 5, (st []), (by decide +kernel)⟩, ⟨nw, 3, 0xFFFFC,
    4, (newtSram + 0xFFFFC), 0x12345678, (st []), (by decide +kernel)⟩, ⟨nw, 3, (BitVec.ofNat 48 (0x80000000 + R.TB_SRC_CFG)),
    8, (0xF00000000000 + R.TB_SRC_CFG), 0x12345678, (st []), (by decide +kernel)⟩, ⟨nw, 3, (BitVec.ofNat 48 (0x80000000 +
    R.TB_SRC_CFG)), 8, (0xF00000000000 + R.TB_SRC_CFG), 0x12345678, (st []), (by decide +kernel)⟩⟩

end W18
namespace W13

/-- A Sealed write above HBM fails and changes nothing. -/
theorem physWrite_far (s : State) (src : Nat) (c : Issuer) (a : Nat) (b : Bytes) (hc : c.sealed = true) (ha : hbmEnd < a) :
    s.physWrite src c a b = (s, false) := by
  have h : ¬ a + b.length ≤ hbmEnd := by omega
  unfold State.physWrite State.physCheck
  simp only [hc, inHbm, decide_eq_false h]
  simp

/-- A Sealed ATTEST of index 2^21 + 5 waits for its tree. -/
def waits (i : Nat) : State := { kreq true ⟨none, i, [], 2 ^ 40⟩ (puf []) with ks := { (kreq true ⟨none, i, [], 2 ^ 40⟩ (puf [])).ks with treeBusy := true } }

/-- ATTEST of index 0, its evidence to be written above HBM. -/
def signs : State := puf [(L.KS_STATUS.IDX_READY, 1), (L.KS_ARG1.ADDR2 true, 2 ^ 40)]

theorem witness_KeyStoreCommands_last :
    (∃ s : State, s.ks.treeBusy = true ∧ ∀ w q, s.ksReq w = some q → q.status ≠ none ∨ s.nv.tree + 1 < q.index / 2 ^ 20) ∧
    (∃ (w : Bool) (q : KsReq) (u : State) (ok : Bool) (s : State), s.ks.treeBusy = true ∧ s.ksReq w = some q ∧ q.status = none ∧
      q.index / 2 ^ 20 ≤ s.nv.tree + 1 ∧ s.ksReq (!w) = none ∧
      s.treeStored.physWrite 0xFF (unitIssuer w) q.addr2 (s.treeStored.attRecord w q.index q.input) = (u, ok) ∧ NoWait s u) ∧
    ∃ (c : Issuer) (v : Word) (u x : State) (d : DevAns) (i : Nat) (ok : Bool) (s : State), KsGo s c.sealed v 7 ∧
      s.get L.KS_STATUS.IDX_READY = 1 ∧ s.get L.KS_ATT_IDX.NEXT = i ∧ i < 2 ^ 40 ∧
      (s.ksBegun c.sealed v).physRead 0xFF (unitIssuer c.sealed) (s.get (L.KS_ARG0.ADDR c.sealed)) 96 = (u, d) ∧
      d.err = false ∧ d.poison = false ∧ i / 2 ^ 20 ≤ s.nv.tree ∧
      (u.attBegun i).physWrite 0xFF (unitIssuer c.sealed) (s.get (L.KS_ARG1.ADDR2 c.sealed))
        ((u.attBegun i).attRecord c.sealed i d.data) = (x, ok) ∧ NoWait s x :=
  ⟨⟨waits (2 ^ 21), by decide +kernel, fun w q h => by
      cases w
      · exact absurd (h.symm.trans (show (waits (2 ^ 21)).ksReq false = none by decide +kernel)) (by simp)
      · have e := Option.some.inj ((show (waits (2 ^ 21)).ksReq true = some ⟨none, 2 ^ 21, [], 2 ^ 40⟩ by decide +kernel).symm.trans h)
        subst e
        exact .inr (by decide +kernel)⟩,
    ⟨true, ⟨none, 2 ^ 20, [], 2 ^ 40⟩, _, false, waits (2 ^ 20), by decide +kernel, by decide +kernel, rfl, by decide +kernel,
      by decide +kernel, physWrite_far _ _ _ _ _ rfl (by decide), by decide +kernel⟩,
    newtS, kw 7 0 0 0 0, _, _, _, 0, false, signs, by decide +kernel, by decide +kernel, by decide +kernel, by decide, rfl,
      by decide +kernel, by decide +kernel, by decide +kernel, physWrite_far _ _ _ _ _ rfl (by decide +kernel), by decide +kernel⟩

end W13

namespace W08

/-- The next state of an outcome that has one. -/
theorem next_get {o : Result} (h : (next? o).isSome = true) : o = .next ((next? o).getD State.reset) := by
  cases o <;> simp [next?] at h ⊢

theorem witness_LinksCarryTraffic_last :
    ∃ (die : Fin 12) (c : Issuer) (a : PAddr) (n : Nat) (v : Word) (t s : State), s.dieLinked die = true ∧ s.devAsked = none ∧
      s.agentIn c = true ∧ c.agent ≠ .newt ∧ 0xF00000000000 ≤ a.toNat ∧ a.toNat < 0xF00100000000 ∧
      exec (.registerWrite c (.addr a n) v) s = .next t :=
  ⟨11, hart, 0xF00000000010, 8, 1, _, act (dlS [(47, dlActive)] on), by decide +kernel, by decide +kernel, by decide +kernel,
    by decide, by decide, by decide, next_get (by decide +kernel)⟩

end W08


end Sys2Proof.Tests
end

namespace Sys2Proof.Machine
/-! # The front of the queue -/

/-- A step with a command in the queue executes it with the rest of the queue. -/
theorem step_of_pending_cons {c : Instr} {rest : List Instr} {s : State} (h : s.pending = c :: rest) :
    step s = exec c { s with pending := rest } := by
  simp only [step, h]

/-- A step on an empty queue lets one cycle pass. -/
theorem step_of_pending_nil {s : State} (h : s.pending = []) : step s = .next (s.elapse 1) := by
  simp only [step, h]

/-- Settles O1: the two cases of the queue. -/
theorem stepRunsTheFrontCommand : Obligations.StepRunsTheFrontCommand := by
  unfold Obligations.StepRunsTheFrontCommand
  exact ⟨fun _ _ _ h => step_of_pending_cons h, fun _ h => step_of_pending_nil h⟩

end Sys2Proof.Machine

namespace Sys2Proof.Machine
/-! # Fields, events and the parts of the state that an operation leaves alone -/

variable {s t : State}

/-! ### Fields -/

theorem bits_toNat (v : Word) (hi lo : Nat) : bits v.toNat hi lo = fieldOf v lo (hi + 1 - lo) := rfl

theorem testBit_setBit (v i j : Nat) : (setBit v i).testBit j = (v.testBit j || decide (i = j)) := by
  rw [setBit, Nat.one_shiftLeft, Nat.testBit_or, Nat.testBit_two_pow]

/-- A field whose upper bits are 0 has the value of its lower bits. -/
theorem fieldOf_low_of_high_zero (v : Word) {lo m n : Nat} (h : fieldOf v (lo + m) n = 0) :
    fieldOf v lo (m + n) = fieldOf v lo m := by
  unfold fieldOf at h ⊢
  rw [Nat.shiftRight_add, Nat.shiftRight_eq_div_pow _ m] at h
  rw [Nat.pow_add, Nat.mod_mul, h]
  simp

theorem State.get_inc_same (s : State) (l : Loc) (h : l.lo + l.width ≤ 64) :
    (s.inc l).get l = min (s.get l + 1) (2 ^ l.width - 1) := by
  have hpos : 0 < 2 ^ l.width := Nat.two_pow_pos _
  exact State.get_put_fit _ _ _ h (by unfold satAdd; omega)

/-- Raising bit `i` of a field sets that bit and keeps the others. -/
theorem State.testBit_get_raiseBit (s : State) (l : Loc) (i j : Nat) (h : l.lo + l.width ≤ 64) (hj : j < l.width) :
    ((s.raiseBit l i).get l).testBit j = ((s.get l).testBit j || decide (i = j)) := by
  have : (s.raiseBit l i).get l = setBit (s.get l) i % 2 ^ l.width := State.get_put_same _ _ _ h
  rw [this, Nat.testBit_mod_two_pow, testBit_setBit]
  simp [hj]

theorem State.get_raise_same (s : State) (l : Loc) (h : l.lo + l.width ≤ 64) (hw : 1 ≤ l.width) : (s.raise l).get l = 1 :=
  State.get_put_fit _ _ _ h (Nat.one_lt_two_pow (by omega))

/-! ### What a list of operations or a conditional one leaves alone -/

/-- A part of the state stands through a conditional operation that leaves it alone. -/
theorem State.when_kept {α : Type} (part : State → α) {c : Prop} [Decidable c] {f : State → State}
    (hf : ∀ x, part (f x) = part x) : part (s.when c f) = part s := by
  unfold State.when
  split
  · exact hf s
  · rfl

/-- A part of the state stands through a list of operations that each leave it alone. -/
theorem State.forAll_kept {α β : Type} (part : State → β) {f : State → α → State} (hf : ∀ x a, part (f x a) = part x)
    (l : List α) : part (s.forAll l f) = part s := by
  unfold State.forAll
  induction l generalizing s with
  | nil => rfl
  | cons a l ih => rw [List.foldl_cons, ih, hf]

theorem State.when_true {c : Prop} [Decidable c] (h : c) (f : State → State) : s.when c f = f s := if_pos h

/-! ### The event queue (R431) -/

/-- The registers of the event queue: its indices and its places. -/
def evqKey (k : Nat) : Prop := k = R.ERR_EVQ_IDX ∨ R.ERR_EVQ 0 0 ≤ k ∧ k < R.ERR_EVQ 512 0

theorem evqKey_idx : evqKey R.ERR_EVQ_IDX := .inl rfl

theorem evqKey_place {q w : Nat} (hq : q < 512) (hw : w < 4) : evqKey (R.ERR_EVQ q w) := by
  right; simp only [R.ERR_EVQ]; omega

/-- Registers outside the event queue stand through a write inside it. -/
theorem State.rd_wr_evqKey {k j : Nat} (h : ¬ evqKey k) (hj : evqKey j) (w : Word) : (s.wr j w).rd k = s.rd k :=
  State.rd_wr_ne _ _ (fun e => h (e ▸ hj))

theorem State.rd_evqShift_of_not_evqKey {k : Nat} (h : ¬ evqKey k) (p n : Nat) : (s.evqShift p n).rd k = s.rd k := by
  induction n generalizing s p with
  | zero => rfl
  | succ n ih =>
    unfold State.evqShift
    rw [ih]
    have hp : p % 512 < 512 := Nat.mod_lt _ (by decide)
    rw [State.rd_wr_evqKey h (evqKey_place hp (by decide)), State.rd_wr_evqKey h (evqKey_place hp (by decide)),
      State.rd_wr_evqKey h (evqKey_place hp (by decide)), State.rd_wr_evqKey h (evqKey_place hp (by decide))]

/-- An entry of the event queue reaches the registers of the event queue only. -/
theorem State.rd_evqPush_of_not_evqKey {k : Nat} (h : ¬ evqKey k) (a b c d : Nat) : (s.evqPush a b c d).rd k = s.rd k := by
  have hk : k ≠ R.ERR_EVQ_IDX := fun e => h (e ▸ evqKey_idx)
  unfold State.evqPush
  lift_lets
  intro p held m q x x0 x1 x2 x3
  have hq : q < 512 := Nat.mod_lt _ (by decide)
  split
  · exact State.rd_inc_ne _ hk
  · calc ((x3.put L.ERR_EVQ_IDX.PROD (p + 1)).noteEntry).rd k
        = (x3.put L.ERR_EVQ_IDX.PROD (p + 1)).rd k := State.rd_congr State.noteEntry_regs
      _ = x3.rd k := State.rd_put_ne _ _ hk
      _ = x2.rd k := State.rd_wr_evqKey h (evqKey_place hq (by decide)) _
      _ = x1.rd k := State.rd_wr_evqKey h (evqKey_place hq (by decide)) _
      _ = x0.rd k := State.rd_wr_evqKey h (evqKey_place hq (by decide)) _
      _ = x.rd k := State.rd_wr_evqKey h (evqKey_place hq (by decide)) _
      _ = s.rd k := State.rd_evqShift_of_not_evqKey h _ _

/-- An event reaches its own register and the event queue. -/
theorem State.rd_event_of_not_evqKey {k : Nat} (h : ¬ evqKey k) {l : Loc} (hl : k ≠ l.key) (n en : Nat) :
    (s.event n l en).rd k = s.rd k := by
  unfold State.event
  dsimp only
  split
  · exact (State.rd_evqPush_of_not_evqKey h _ _ _ _).trans (State.rd_raise_ne _ hl)
  · exact State.rd_raise_ne _ hl

/-- The bit of an event outside the event queue is set. -/
theorem State.get_event_bit {l : Loc} (h : ¬ evqKey l.key) (hl : l.lo + l.width ≤ 64) (hw : 1 ≤ l.width) (n en : Nat) :
    (s.event n l en).get l = 1 := by
  unfold State.event
  dsimp only
  split
  · exact (State.get_congr (State.rd_evqPush_of_not_evqKey h _ _ _ _)).trans (State.get_raise_same _ _ hl hw)
  · exact State.get_raise_same _ _ hl hw

/-- An event leaves everything but registers, the cycle's notes and the interrupt of the management cores alone. -/
theorem State.event_same {l : Loc} (hl : 0x10000 ≤ l.key) (n en : Nat) :
    SameBut [.regs, .newtIrq, .fieldOps] s (s.event n l en) :=
  (State.event_keeps (by decide) (by decide) (by decide) Keeps.refl n l en (.inr hl)).frame

/-! ### Commands that act through the homes of HBM -/

theorem State.devAsked_congr (h : t.homes = s.homes) : t.devAsked = s.devAsked := by
  simp only [State.devAsked, State.home, h]

/-- A command that makes no line wait at its home has its own outcome. -/
theorem State.devCmd_next {f : State → Result} (hf : f s = .next t) (hw : s.devAsked = none → t.devAsked = none) :
    s.devCmd f = .next t := by
  unfold State.devCmd
  rw [hf]
  cases hs : s.devAsked with
  | none => simp only [hw hs]
  | some p => rfl

/-- A command that leaves the homes alone has its own outcome. -/
theorem State.devCmd_next_of_homes {f : State → Result} (hf : f s = .next t) (hh : t.homes = s.homes) :
    s.devCmd f = .next t :=
  State.devCmd_next hf (fun h => (State.devAsked_congr hh).trans h)

/-! ### One agent's access -/

/-- An agent that can act, with the tags of its place, makes its access as it stands. -/
theorem State.issue_of_sends {c : Issuer} (h : Sends s c) (f : Issuer → State → State) : s.issue c f = f c s := by
  obtain ⟨hin, htag⟩ := h
  unfold State.issue
  rw [if_pos hin, htag]

theorem State.managerAccess_of {r : Res} {c : Issuer} (hw : c.sealed = s.ownerSealed r) (hr : s.isReleasing r = false)
    (hv : c.vi = none) : s.managerAccess r c = true := by
  simp [State.managerAccess, hw, hr, hv]

/-- An access refused because of its world is answered by an error, and reaches the records only. -/
theorem State.worldError_refused {n : Nat} (hn : n < 512) (a : Nat) (c : Issuer) : Refused s (s.worldError n a c) :=
  ⟨rfl, fun _ _ hk => State.rd_worldError hk hn a c⟩

theorem State.violation_refused {n : Nat} (hn : n < 512) (d a : Nat) (c : Issuer) : Refused s (s.violation n d a c) :=
  ⟨rfl, fun _ _ hk => State.rd_violation hk hn d a c⟩

end Sys2Proof.Machine

namespace Sys2Proof.Machine
/-! # Captures (R436 to R439) -/

variable {s t : State} {c : Issuer} {v : Word}

/-! ### The ordinary slots -/

theorem firstBelow_eq_some {n k : Nat} {p : Nat → Bool} (hk : k < n) (hp : p k = true) (hlt : ∀ j, j < k → p j = false) :
    firstBelow n p = some k := by
  unfold firstBelow
  exact List.find?_range_eq_some.mpr ⟨hp, List.mem_range.mpr hk, fun j hj => by simp [hlt j hj]⟩

theorem firstBelow_eq_none {n : Nat} {p : Nat → Bool} (h : ∀ j, j < n → p j = false) : firstBelow n p = none := by
  unfold firstBelow
  exact List.find?_range_eq_none.mpr fun j hj => by simp [h j hj]

/-- The lowest slot that is not full is the one a capture takes. -/
theorem State.freeSlot_eq_some {k : Nat} (hk : k < 3) (hfree : (s.get L.CRN_STATUS.FULL).testBit k = false)
    (hfull : ∀ j, j < k → (s.get L.CRN_STATUS.FULL).testBit j = true) : s.freeSlot = some k :=
  firstBelow_eq_some hk (by simp [hfree]) fun j hj => by simp [hfull j hj]

theorem State.freeSlot_eq_none (hfull : ∀ j, j < 3 → (s.get L.CRN_STATUS.FULL).testBit j = true) : s.freeSlot = none :=
  firstBelow_eq_none fun j hj => by simp [hfull j hj]

theorem State.capture_free {k : Nat} (hb : s.capBusy = none) (hf : s.freeSlot = some k) (trig profile : Nat) (fs : Bool) :
    s.capture trig profile fs =
      (s.captureInto k (s.captureNow trig profile (s.get L.WLD_OWN_UNITS.CAIRN = 1) fs), true) := by
  simp only [State.capture, State.captureOf, hb, hf]

theorem State.capture_full (hb : s.capBusy = none) (hf : s.freeSlot = none) (trig profile : Nat) (fs : Bool) :
    s.capture trig profile fs = (s.captureMissed, false) := by
  simp only [State.capture, State.captureOf, hb, hf]

/-! ### A capture that starts in a slot -/

theorem State.pauseHarts_paused (x : Capture) :
    (s.pauseHarts x).1.paused = if x.profile.testBit 0 then s.captureHarts else s.paused := by
  unfold State.pauseHarts
  split <;> rfl

theorem State.pauseHarts_resp (x : Capture) : (s.pauseHarts x).1.resp = s.resp := by
  unfold State.pauseHarts
  split <;> rfl

/-- The pause records the harts in the capture, for a profile with CORE, and leaves the rest of it alone. -/
theorem State.pauseHarts_capture (x : Capture) : ∃ harts hst files gftag,
    (s.pauseHarts x).2 = { x with harts := harts, hst := hst, files := files, gftag := gftag } ∧
      (x.profile.testBit 0 = true → harts = s.hregs) := by
  unfold State.pauseHarts
  split
  case isTrue => exact ⟨_, _, _, _, rfl, fun _ => rfl⟩
  case isFalse hcore => exact ⟨_, _, _, _, rfl, fun h => absurd h hcore⟩

/-- The state in which the slot is taken, before the registers of the Cairn unit show it. -/
abbrev State.slotTaken (s : State) (k : Nat) (x : Capture) : State :=
  { (s.pauseHarts x).1 with caps := SMap.set (s.pauseHarts x).1.caps k (s.pauseHarts x).2, capBusy := some k }

/-- FULL and BUSY show the capture, and TRACE_FREEZE freezes the trace ring: these are registers. -/
theorem State.captureInto_kept {α : Type} (part : State → α) (hput : ∀ x l n, part (State.put x l n) = part x)
    (hraise : ∀ x l i, part (State.raiseBit x l i) = part x) (k : Nat) (x : Capture) :
    part (s.captureInto k x) = part (s.slotTaken k x) :=
  (State.when_kept part fun _ => hput _ _ _).trans ((hput _ _ _).trans (hraise _ _ _))

theorem State.captureInto_capBusy (k : Nat) (x : Capture) : (s.captureInto k x).capBusy = some k :=
  State.captureInto_kept State.capBusy (fun _ _ _ => rfl) (fun _ _ _ => rfl) k x

theorem State.captureInto_resp (k : Nat) (x : Capture) : (s.captureInto k x).resp = s.resp :=
  (State.captureInto_kept State.resp (fun _ _ _ => rfl) (fun _ _ _ => rfl) k x).trans (State.pauseHarts_resp x)

theorem State.captureInto_paused (k : Nat) (x : Capture) :
    (s.captureInto k x).paused = if x.profile.testBit 0 then s.captureHarts else s.paused :=
  (State.captureInto_kept State.paused (fun _ _ _ => rfl) (fun _ _ _ => rfl) k x).trans (State.pauseHarts_paused x)

theorem State.captureInto_slot (k : Nat) (x : Capture) : SMap.get (s.captureInto k x).caps k = (s.pauseHarts x).2 :=
  (congrArg (SMap.get · k) (State.captureInto_kept State.caps (fun _ _ _ => rfl) (fun _ _ _ => rfl) k x)).trans
    (SMap.look_store_same _ _ _ _)

/-- A capture that starts reaches CRN_STATUS, and CRN_TRACE_CFG. -/
theorem State.rd_captureInto_ne {j : Nat} (h1 : j ≠ R.CRN_STATUS) (h2 : j ≠ R.CRN_TRACE_CFG) (k : Nat) (x : Capture) :
    (s.captureInto k x).rd j = s.rd j := by
  have hpause : (s.slotTaken k x).rd j = s.rd j := State.rd_congr (State.pauseHarts_regs x)
  calc (s.captureInto k x).rd j
      = (((s.slotTaken k x).raiseBit L.CRN_STATUS.FULL k).put L.CRN_STATUS.BUSY 1).rd j :=
        State.rd_when fun y => State.rd_put_ne y _ h2
    _ = ((s.slotTaken k x).raiseBit L.CRN_STATUS.FULL k).rd j := State.rd_put_ne _ _ h1
    _ = (s.slotTaken k x).rd j := State.rd_raiseBit_ne _ k h1
    _ = s.rd j := hpause

/-- CRN_STATUS stands through the freezing of the trace ring. -/
theorem State.get_captureInto_status {l : Loc} (hl : l.key = R.CRN_STATUS) (k : Nat) (x : Capture) :
    (s.captureInto k x).get l = (((s.slotTaken k x).raiseBit L.CRN_STATUS.FULL k).put L.CRN_STATUS.BUSY 1).get l :=
  State.when_kept (fun y => y.get l) fun y => State.get_put_key y _ (by rw [hl]; decide)

theorem State.captureInto_busy (k : Nat) (x : Capture) : (s.captureInto k x).get L.CRN_STATUS.BUSY = 1 :=
  (State.get_captureInto_status rfl k x).trans (State.get_put_fit _ _ _ (by decide) (by decide))

theorem State.captureInto_full {k : Nat} (hk : k < 4) (x : Capture) :
    ((s.captureInto k x).get L.CRN_STATUS.FULL).testBit k = true := by
  rw [State.get_captureInto_status rfl k x,
    State.get_put_beside (l := L.CRN_STATUS.BUSY) (m := L.CRN_STATUS.FULL) _ _ rfl (by decide) (by decide),
    State.testBit_get_raiseBit _ _ _ _ (by decide) hk]
  simp

theorem State.captureInto_frozen {x : Capture} (h : x.profile.testBit 3 = true) (k : Nat) :
    (s.captureInto k x).get L.CRN_TRACE_CFG.FROZEN = 1 := by
  unfold State.captureInto
  rw [State.when_true h]
  exact State.get_put_fit _ _ _ (by decide) (by decide)

/-! ### A capture that is missed -/

theorem State.captureMissed_same : SameBut [.regs, .newtIrq, .fieldOps] s s.captureMissed :=
  (State.captureMissed_keeps (by decide) (by decide) (by decide) Keeps.refl).frame

theorem not_evqKey_of_cairn {k : Nat} (h : 0xA0000 ≤ k) : ¬ evqKey k := by
  unfold evqKey; simp only [R.ERR_EVQ_IDX, R.ERR_EVQ]; omega

theorem State.captureMissed_count :
    s.captureMissed.get L.CRN_CNT.MISSED = min (s.get L.CRN_CNT.MISSED + 1) (2 ^ 32 - 1) :=
  (State.get_congr (State.rd_event_of_not_evqKey (not_evqKey_of_cairn (by decide)) (by decide) _ _)).trans
    (State.get_inc_same _ _ (by decide))

theorem State.captureMissed_event : s.captureMissed.get L.CRN_EVT.MISSED = 1 :=
  State.get_event_bit (not_evqKey_of_cairn (by decide)) (by decide) (by decide) _ _

/-! ### SOFTWARE_CAPTURE (R436) -/

theorem exec_softwareCapture (c : Issuer) (v : Word) (s : State) :
    exec (.softwareCapture c v) s = execSoftwareCapture c v s := rfl

theorem softwareCapture_next (h : Sends s c) :
    exec (.softwareCapture c v) s = .next (s.crnGuard c R.CRN_CAPTURE fun s => s.writeCapture c v.toNat) := by
  rw [exec_softwareCapture, execSoftwareCapture, State.issue_of_sends h]

theorem State.crnGuard_manager (h : s.managerAccess .cairn c = true) (key : Nat) (f : State → State) :
    s.crnGuard c key f = f (s.answer .ok) := if_pos h

/-- The owner of the Cairn unit writes CRN_CAPTURE with a profile: a capture is triggered. -/
theorem softwareCapture_captures (hs : Sends s c) (hm : s.managerAccess .cairn c = true) (h63 : v.getLsbD 63 = true)
    (hres : fieldOf v 4 4 = 0) :
    exec (.softwareCapture c v) s = .next ((s.answer .ok).capture 2 (fieldOf v 0 4) false).1 := by
  have hprofile : bits v.toNat 7 0 = fieldOf v 0 4 := fieldOf_low_of_high_zero v (lo := 0) (m := 4) (n := 4) hres
  have hbits : bits v.toNat 7 4 = 0 := hres
  have h63 : v.toNat.testBit 63 = true := h63
  rw [softwareCapture_next hs, State.crnGuard_manager hm, State.writeCapture, if_pos h63, if_neg (by simp [hbits]), hprofile]

theorem softwareCapture_refused (hs : Sends s c)
    (h : c.sealed ≠ s.ownerSealed .cairn ∨ v.getLsbD 63 = true ∧ fieldOf v 4 4 ≠ 0) :
    Completes (.softwareCapture c v) s fun t => Refused s t := by
  refine ⟨_, softwareCapture_next hs, ?_⟩
  by_cases hm : s.managerAccess .cairn c = true
  · have hw : c.sealed = s.ownerSealed .cairn := by
      simp only [State.managerAccess, Bool.and_eq_true, beq_iff_eq] at hm
      obtain ⟨⟨hw, _⟩, _⟩ := hm
      exact hw
    obtain ⟨h63, hres⟩ := h.resolve_left (not_not_intro hw)
    have h63 : v.toNat.testBit 63 = true := h63
    have hbits : bits v.toNat 7 4 ≠ 0 := hres
    rw [State.crnGuard_manager hm, State.writeCapture, if_pos h63, if_pos hbits]
    exact State.violation_refused (s := s.answer .ok) (by decide) _ _ _
  · rw [State.crnGuard, if_neg hm]
    exact State.worldError_refused (by decide) _ _

/-! ### Launches that end -/

/-- What becomes of launch `l` when those of the identifiers `ids` end: `m` has its identifier and target, a status if `l` had
one, and a status if it is among them. -/
def EndedAmong (ids : List Nat) (l m : Launch) : Prop :=
  m.id = l.id ∧ m.target = l.target ∧ (l.status ≠ none → m.status ≠ none) ∧ (l.id ∈ ids → m.status ≠ none)

theorem State.endLaunch_launches {id st : Nat} {m : Launch} (h : m ∈ (s.endLaunch id st).launches) :
    ∃ l ∈ s.launches, EndedAmong [id] l m := by
  obtain ⟨l, hl, rfl⟩ := List.mem_map.mp h
  refine ⟨l, hl, ?_⟩
  by_cases e : l.id = id
  · rw [if_pos e]; exact ⟨rfl, rfl, fun _ => nofun, fun _ => nofun⟩
  · rw [if_neg e]; exact ⟨rfl, rfl, fun hst => hst, fun hm => absurd (List.mem_singleton.mp hm) e⟩

/-- Ending each launch of a list gives them all a status, and leaves identifiers, targets and statuses of the others. -/
theorem State.forAll_endLaunch_launches (ls : List Launch) (st : Nat) {m : Launch}
    (h : m ∈ (s.forAll ls fun s l => s.endLaunch l.id st).launches) :
    ∃ l ∈ s.launches, EndedAmong (ls.map Launch.id) l m := by
  induction ls generalizing s with
  | nil => exact ⟨m, h, rfl, rfl, id, nofun⟩
  | cons a ls ih =>
    obtain ⟨y, hy, hid, htg, hst, hin⟩ := ih (s := s.endLaunch a.id st) h
    obtain ⟨l, hl, hid', htg', hst', hin'⟩ := State.endLaunch_launches hy
    refine ⟨l, hl, hid.trans hid', htg.trans htg', hst ∘ hst', fun hm => ?_⟩
    rcases List.mem_cons.mp hm with e | hm
    · exact hst (hin' (by rw [e]; exact List.mem_singleton_self _))
    · exact hin (hid'.symm ▸ hm)

end Sys2Proof.Machine

namespace Sys2Proof.Machine
/-! # The end of a capture (R437) and the resuming harts (R141) -/

variable {s t : State}

/-- The capture in slot `k` is written and BUSY is 0; the launches that made it are still to complete. -/
abbrev State.captureEnded (s : State) (k : Nat) : State :=
  ((({ s with caps := SMap.set s.caps k { SMap.get s.caps k with written := true, timeEnd := s.tb.ns }, capBusy := none } :
    State).put L.CRN_STATUS.BUSY 0).inc L.CRN_CNT.CAPTURES).crnEvent L.CRN_EVT.CAPTURED

/-- The launches into the Cairn unit that have not completed. -/
abbrev State.captureLaunches (s : State) : List Launch := s.launches.filter fun l => l.target == 0x50 && l.status.isNone

/-- The launches that made the capture complete. -/
abbrev State.launchesEnded (s : State) : State := s.forAll s.captureLaunches fun s l => s.endLaunch l.id 0

theorem captureWritten_next {k : Nat} (h : s.capBusy = some k) :
    exec .captureWritten s = .next (s.captureEnded k).launchesEnded := by
  show execCaptureWritten s = _
  simp only [execCaptureWritten, h]

theorem State.captureEnded_caps (k : Nat) : (s.captureEnded k).caps =
    SMap.set s.caps k { SMap.get s.caps k with written := true, timeEnd := s.tb.ns } :=
  State.event_same (l := L.CRN_EVT.CAPTURED) (by decide) 283 R.CRN_EVT_EN .caps (by decide)

theorem State.captureEnded_capBusy (k : Nat) : (s.captureEnded k).capBusy = none :=
  State.event_same (l := L.CRN_EVT.CAPTURED) (by decide) 283 R.CRN_EVT_EN .capBusy (by decide)

theorem State.captureEnded_slot (k : Nat) : SMap.get (s.captureEnded k).caps k =
    { SMap.get s.caps k with written := true, timeEnd := s.tb.ns } := by
  rw [State.captureEnded_caps]
  exact SMap.look_store_same _ _ _ _

/-- The end of a capture reaches CRN_STATUS, CRN_CNT, CRN_EVT and the event queue. -/
theorem State.rd_captureEnded {j : Nat} (h : ¬ recordKey j) (k : Nat) : (s.captureEnded k).rd j = s.rd j := by
  have hj := recordKey_not h
  exact (State.rd_event h (by show j ≠ 0xa0020; omega) _ _).trans
    ((State.rd_inc_ne _ (by show j ≠ 0xa0018; omega)).trans (State.rd_put_ne _ _ (by show j ≠ 0xa0000; omega)))

theorem State.captureEnded_busy (k : Nat) : (s.captureEnded k).get L.CRN_STATUS.BUSY = 0 :=
  (State.get_congr (State.rd_event_of_not_evqKey (not_evqKey_of_cairn (by decide)) (by decide) _ _)).trans
    ((State.get_put_key _ _ (by decide)).trans (State.get_put_fit _ _ _ (by decide) (by decide)))

theorem State.captureEnded_count (k : Nat) :
    (s.captureEnded k).get L.CRN_CNT.CAPTURES = min (s.get L.CRN_CNT.CAPTURES + 1) (2 ^ 32 - 1) := by
  refine (State.get_congr (State.rd_event_of_not_evqKey (not_evqKey_of_cairn (by decide)) (by decide) _ _)).trans ?_
  rw [State.get_inc_same _ _ (by decide), State.get_put_key _ _ (by decide)]
  rfl

theorem State.captureEnded_event (k : Nat) : (s.captureEnded k).get L.CRN_EVT.CAPTURED = 1 :=
  State.get_event_bit (not_evqKey_of_cairn (by decide)) (by decide) (by decide) _ _

/-- Completing launches changes nothing but the launches. -/
theorem State.launchesEnded_kept {α : Type} (part : State → α) (h : ∀ x id st, part (State.endLaunch x id st) = part x) :
    part s.launchesEnded = part s := State.forAll_kept part (fun _ _ => h _ _ _) _

/-- No launch into the Cairn unit is left without a status. -/
theorem State.launchesEnded_status {m : Launch} (h : m ∈ s.launchesEnded.launches) (ht : m.target = 0x50) : m.status ≠ none := by
  obtain ⟨l, hl, _, htarget, hkept, hended⟩ := State.forAll_endLaunch_launches _ _ h
  by_cases hst : l.status = none
  · have hmem : l ∈ s.captureLaunches := List.mem_filter.mpr ⟨hl, by simp [← htarget, ht, hst]⟩
    exact hended (List.mem_map_of_mem hmem)
  · exact hkept hst

theorem captureHartResume_next (h : Fin 216) (hs : s.get (L.HA_STATUS.STOPPED 0) ≠ 1) :
    exec (.captureHartResume h) s = .next { s with paused := s.paused.filter (fun x => x != h.val) } := by
  show execCaptureHartResume h s = _
  rw [execCaptureHartResume, if_neg hs]

theorem captureHartResume_stopped (h : Fin 216) (hs : s.get (L.HA_STATUS.STOPPED 0) = 1) :
    exec (.captureHartResume h) s = .next s := by
  show execCaptureHartResume h s = _
  rw [execCaptureHartResume, if_pos hs]

end Sys2Proof.Machine

namespace Sys2Proof.Machine
/-! # Debug requests (R2, R352) -/

variable {s u : State} {h n a : Nat} {v : Word}

theorem exec_jtagDebugRequest (r : JtagReq) (s : State) : exec (.jtagDebugRequest r) s = execJtagDebugRequest r s := rfl

theorem jtag_idcode_next : exec (.jtagDebugRequest .idcode) s = .next (s.answer (.data 0x5EC19216)) := by
  rw [exec_jtagDebugRequest, execJtagDebugRequest]
  exact State.devCmd_next_of_homes rfl rfl

/-- Without a debug level nothing but the identification register answers. -/
theorem jtag_off_next {r : JtagReq} (hr : r ≠ .idcode) (hs : s.get L.WLD_DBG.SEALED_EN = 0)
    (ho : s.get L.WLD_DBG.OPEN_EN = 0) : exec (.jtagDebugRequest r) s = .next s := by
  rw [exec_jtagDebugRequest, execJtagDebugRequest]
  refine State.devCmd_next_of_homes ?_ rfl
  cases r with
  | idcode => exact absurd rfl hr
  | halt | resume | read | write | readHart | writeHart => simp [hs, ho, State.when]

/-- At the Sealed level the debug module may reach every hart that is in use, of a die that is there. -/
theorem State.jtagMay_sealed (hs : s.get L.WLD_DBG.SEALED_EN = 1) (hh : h < 216) (hu : s.hartUnused h = false)
    (ha : s.dieAway (hartDie h) = false) : s.jtagMay h = true := by
  simp [State.jtagMay, hs, hh, hu, ha]

/-- At the Sealed level an access of HBM is a Sealed one. -/
theorem State.jtagIssuer_sealed (hs : s.get L.WLD_DBG.SEALED_EN = 1) (ha : a ≤ hbmEnd) (w : Bool) :
    s.jtagIssuer a w = ⟨true, none, 0, .jtag⟩ := by
  have hk : ¬ a / 0x10000000000 = 0xF0 := by
    have ha : a ≤ 0x1800000000 := ha
    omega
  simp only [State.jtagIssuer, if_pos hs, if_neg hk]

theorem State.jtagMem_sealed {c : Issuer} (hc : c.sealed = true) (f : State → State) : s.jtagMem c a n f = f s := by
  simp [State.jtagMem, hc]

theorem jtagReg_of_mem (h1 : 1 ≤ n) (h2 : n ≤ 32) : jtagReg n = some n := if_pos ⟨h1, h2⟩

section Sealed
variable (hs : s.get L.WLD_DBG.SEALED_EN = 1)
include hs

/-- At the Sealed level a request that leaves the homes alone is carried out. -/
theorem jtag_halt_next (hm : s.jtagMay h = true) (hsw : s.clusterSwitching (hartDie h) (hartCluster h) = false)
    (hrun : (s.hartSt h).run = .run) :
    exec (.jtagDebugRequest (.halt h)) s = .next ((s.setHart h { s.hartSt h with halted := true }).answer .ok) := by
  rw [exec_jtagDebugRequest, execJtagDebugRequest]
  refine State.devCmd_next_of_homes ?_ rfl
  simp [hs, State.when, State.jtagHalt, hm, hsw, hrun]

theorem jtag_resume_next (hm : s.jtagMay h = true) :
    exec (.jtagDebugRequest (.resume h)) s = .next ((s.setHart h { s.hartSt h with halted := false }).answer .ok) := by
  rw [exec_jtagDebugRequest, execJtagDebugRequest]
  refine State.devCmd_next_of_homes ?_ rfl
  simp [hs, State.when, hm]

theorem jtag_readHart_next (hm : s.jtagMay h = true) (hh : (s.hartSt h).halted = true) (hn : jtagReg n = some n) :
    exec (.jtagDebugRequest (.readHart h n)) s = .next (s.answer (.data (s.hreg h n))) := by
  rw [exec_jtagDebugRequest, execJtagDebugRequest]
  refine State.devCmd_next_of_homes ?_ rfl
  simp [hs, State.when, hm, hh, hn]

theorem jtag_readHart_running (hh : (s.hartSt h).halted = false) :
    exec (.jtagDebugRequest (.readHart h n)) s = .next (s.answer .error) := by
  rw [exec_jtagDebugRequest, execJtagDebugRequest]
  refine State.devCmd_next_of_homes ?_ rfl
  simp [hs, State.when, hh]

theorem jtag_writeHart_next (hm : s.jtagMay h = true) (hh : (s.hartSt h).halted = true) (hn : jtagReg n = some n) :
    exec (.jtagDebugRequest (.writeHart h n v)) s = .next ((s.setHreg h n v).answer .ok) := by
  rw [exec_jtagDebugRequest, execJtagDebugRequest]
  refine State.devCmd_next_of_homes ?_ rfl
  simp [hs, State.when, hm, hh, hn]

theorem jtag_read_next {d : DevAns} (ha : a + n ≤ hbmEnd) (hr : s.devRead 0xFF a n ⟨true, none, 0, .jtag⟩ = (u, d))
    (hw : NoWait s u) : exec (.jtagDebugRequest (.read a n)) s =
      .next (u.answer (if d.err ∨ d.poison then .error else .data (BitVec.ofNat 64 (ofBytesLE d.data)))) := by
  rw [exec_jtagDebugRequest, execJtagDebugRequest]
  refine State.devCmd_next ?_ fun _ => hw.2
  simp [hs, State.when, State.jtagIssuer_sealed hs (Nat.le_of_add_right_le ha), State.jtagMem_sealed, ha, hr]

theorem jtag_write_next {ok : Bool} (ha : a + n ≤ hbmEnd)
    (hr : s.devWrite 0xFF a (bytesLE n v.toNat) false ⟨true, none, 0, .jtag⟩ = (u, ok)) (hw : NoWait s u) :
    exec (.jtagDebugRequest (.write a n v)) s = .next (u.answer (if ok then .ok else .error)) := by
  rw [exec_jtagDebugRequest, execJtagDebugRequest]
  refine State.devCmd_next ?_ fun _ => hw.2
  simp [hs, State.when, State.jtagIssuer_sealed hs (Nat.le_of_add_right_le ha), State.jtagMem_sealed, ha, hr]

end Sealed
end Sys2Proof.Machine

namespace Sys2Proof.Machine
/-! # Captures and debug requests -/

/-- A write of CRN_CAPTURE with a free slot: the lowest one takes the state of the instant (R436). -/
theorem softwareCapture_slot {c : Issuer} {v : Word} {s : State} {k : Nat} (hs : Sends s c)
    (hm : s.managerAccess .cairn c = true) (h63 : v.getLsbD 63 = true) (hres : fieldOf v 4 4 = 0) (hb : s.capBusy = none)
    (hf : s.freeSlot = some k) : exec (.softwareCapture c v) s = .next ((s.answer .ok).captureInto k
      ((s.answer .ok).captureNow 2 (fieldOf v 0 4) (s.get L.WLD_OWN_UNITS.CAIRN = 1) false)) := by
  rw [softwareCapture_captures hs hm h63 hres, State.capture_free (s := s.answer .ok) hb hf]
  rfl

/-- A write of CRN_CAPTURE with no free slot is counted as missed (R439). -/
theorem softwareCapture_missed {c : Issuer} {v : Word} {s : State} (hs : Sends s c)
    (hm : s.managerAccess .cairn c = true) (h63 : v.getLsbD 63 = true) (hres : fieldOf v 4 4 = 0) (hb : s.capBusy = none)
    (hf : s.freeSlot = none) : exec (.softwareCapture c v) s = .next (s.answer .ok).captureMissed := by
  rw [softwareCapture_captures hs hm h63 hres, State.capture_full (s := s.answer .ok) hb hf]

/-- What CORE and TRACE_FREEZE ask of a capture are the bits 0 and 3 of the value written. -/
theorem profile_testBit (v : Word) {i : Nat} (hi : i < 4) : (fieldOf v 0 4).testBit i = v.getLsbD i := by
  simp [fieldOf_testBit, hi]

/-- Settles O59: each command's next state by its own rule, and the laws of what that state holds. -/
theorem capturesAndDebug : Obligations.CapturesAndDebug := by
  unfold Obligations.CapturesAndDebug
  refine ⟨?slot, ?missed, fun _ _ _ hs h => softwareCapture_refused hs h, ?written, ?resumes, ?stopped, ?idcode, ?off, ?harts,
    ?read, ?write⟩
  case slot =>
    intro c v k s hs hw hrel hvi h63 hres hb hk hfree hfull
    refine ⟨_, softwareCapture_slot hs (State.managerAccess_of hw hrel hvi) h63 hres hb
      (State.freeSlot_eq_some hk hfree hfull), State.captureInto_resp _ _, State.captureInto_capBusy _ _,
      State.captureInto_full (by omega) _, State.captureInto_busy _ _, ?_⟩
    obtain ⟨harts, hst, files, gftag, hcap, hharts⟩ := State.pauseHarts_capture (s := s.answer .ok)
      ((s.answer .ok).captureNow 2 (fieldOf v 0 4) (s.get L.WLD_OWN_UNITS.CAIRN = 1) false)
    rw [State.captureInto_slot, State.captureInto_paused, hcap]
    refine ⟨rfl, rfl, rfl, rfl, rfl, rfl, ?_, fun h0 => ?_, fun h3 => ?_, fun j hj => ?_⟩
    · rw [← profile_testBit v (by decide)]; rfl
    · exact hharts ((profile_testBit v (by decide)).trans h0)
    · exact State.captureInto_frozen ((profile_testBit v (by decide)).trans h3) _
    · exact State.rd_captureInto_ne (by rintro rfl; simp at hj) (by rintro rfl; simp at hj) _ _
  case missed =>
    intro c v s hs hw hrel hvi h63 hres hb hfull
    exact ⟨_, softwareCapture_missed hs (State.managerAccess_of hw hrel hvi) h63 hres hb (State.freeSlot_eq_none hfull),
      State.captureMissed_count, State.captureMissed_event, State.captureMissed_same .caps (by decide),
      State.captureMissed_same .paused (by decide), fun _ _ hk => State.rd_captureMissed hk⟩
  case written =>
    intro k s hb
    refine ⟨_, captureWritten_next hb, ?_, ?_, ?_, ?_, ?_, ?_, fun _ => State.launchesEnded_status, fun j _ hj => ?_⟩
    · exact (State.launchesEnded_kept State.capBusy fun _ _ _ => rfl).trans (State.captureEnded_capBusy k)
    · exact (State.launchesEnded_kept (·.get _) fun _ _ _ => rfl).trans (State.captureEnded_busy k)
    · exact (State.launchesEnded_kept (·.get _) fun _ _ _ => rfl).trans (State.captureEnded_count k)
    · exact (State.launchesEnded_kept (·.get _) fun _ _ _ => rfl).trans (State.captureEnded_event k)
    · rw [State.launchesEnded_kept State.caps fun _ _ _ => rfl, State.captureEnded_slot]
    · rw [State.launchesEnded_kept State.caps fun _ _ _ => rfl, State.captureEnded_slot]
    · exact (State.launchesEnded_kept (·.rd j) fun _ _ _ => rfl).trans (State.rd_captureEnded hj k)
  case resumes =>
    intro h s hs
    exact ⟨_, captureHartResume_next h (by omega), fun x => by simp, fun _ _ => rfl⟩
  case stopped => exact fun h s hs => ⟨s, captureHartResume_stopped h hs, rfl⟩
  case idcode => exact fun s => ⟨_, jtag_idcode_next, rfl, rfl, rfl, fun _ _ => rfl⟩
  case off => exact fun r s hr hs ho => ⟨s, jtag_off_next hr hs ho, rfl⟩
  case harts =>
    intro h n v s hs hh hu ha
    have hm := State.jtagMay_sealed hs hh hu ha
    refine ⟨fun hsw hrun => ?_, ?_, fun h1 h32 hhalt => ⟨?_, ?_⟩, fun hrun => ?_⟩
    · exact ⟨_, jtag_halt_next hs hm hsw hrun, rfl, SMap.look_store_same _ _ _ _, rfl, fun _ _ => rfl⟩
    · exact ⟨_, jtag_resume_next hs hm, rfl, SMap.look_store_same _ _ _ _, rfl, fun _ _ => rfl⟩
    · exact ⟨_, jtag_readHart_next hs hm hhalt (jtagReg_of_mem h1 h32), rfl, rfl⟩
    · refine ⟨_, jtag_writeHart_next hs hm hhalt (jtagReg_of_mem h1 h32), rfl, State.hreg_setHreg_same s h n v,
        fun x y _ hy hxy => ?_, fun _ _ => rfl⟩
      exact State.hreg_setHreg_ne s v (by unfold hartKey; omega)
    · exact ⟨_, jtag_readHart_running hs hrun, rfl, rfl⟩
  case read => exact fun a n u d s hs ha hr hw => ⟨_, jtag_read_next hs ha hr hw, rfl, rfl⟩
  case write => exact fun a n v u ok s hs ha hr hw => ⟨_, jtag_write_next hs ha hr hw, rfl, rfl⟩

end Sys2Proof.Machine

namespace Sys2Proof.Machine
/-! # Writes of registers by field type (R10, R11) -/

variable {s : State} {fs : List FieldSpec} {f g : FieldSpec} {w m v d : Word} {i k : Nat}

/-! ### Bits of fields -/

theorem fieldMask_getLsbD {lo n : Nat} (hi : i < 64) : (fieldMask lo n).getLsbD i = decide (lo ≤ i ∧ i < lo + n) := by
  have hn : (2 ^ n - 1).testBit (i - lo) = decide (i - lo < n) := Nat.testBit_two_pow_sub_one n _
  simp only [fieldMask, BitVec.getLsbD_ofNat, Nat.testBit_shiftLeft, hn, hi, decide_true, Bool.true_and, ge_iff_le,
    ← Bool.decide_and]
  exact decide_eq_decide.mpr (by omega)

/-- Two words that agree on the bits of a field have the same field. -/
theorem fieldOf_congr {w' : Word} {lo n : Nat} (h : ∀ i, lo ≤ i → i < lo + n → w.getLsbD i = w'.getLsbD i) :
    fieldOf w lo n = fieldOf w' lo n := by
  apply Nat.eq_of_testBit_eq
  intro j
  rw [fieldOf_testBit, fieldOf_testBit]
  by_cases hj : j < n
  · rw [h (lo + j) (by omega) (by omega)]
  · simp [hj]

/-- The bit stands in the field. -/
abbrev FieldSpec.Covers (f : FieldSpec) (i : Nat) : Prop := f.lo ≤ i ∧ i < f.lo + f.width

/-- The fields of a register lie in its 64 bits, and none of them is empty or meets another. -/
def FieldsApart (fs : List FieldSpec) : Prop :=
  (∀ f ∈ fs, f.lo + f.width ≤ 64 ∧ 0 < f.width) ∧ fs.Pairwise (fun f g => f.lo + f.width ≤ g.lo ∨ g.lo + g.width ≤ f.lo)

theorem FieldsApart.tail (h : FieldsApart (g :: fs)) : FieldsApart fs :=
  ⟨fun f hf => h.1 f (List.mem_cons_of_mem _ hf), (List.pairwise_cons.mp h.2).2⟩

theorem FieldsApart.covers_lt (h : FieldsApart fs) (hf : f ∈ fs) (hi : f.Covers i) : i < 64 := by
  have := (h.1 f hf).1
  have := hi.2
  omega

theorem FieldsApart.not_covers_head (h : FieldsApart (g :: fs)) (hf : f ∈ fs) (hi : f.Covers i) : ¬ g.Covers i := by
  have := (List.pairwise_cons.mp h.2).1 f hf
  unfold FieldSpec.Covers at *
  omega

theorem FieldsApart.not_covers_tail (h : FieldsApart (g :: fs)) (hi : g.Covers i) : ∀ f ∈ fs, ¬ f.Covers i :=
  fun _ hf hc => h.not_covers_head hf hc hi

/-! ### One field -/

/-- What a write of `v` makes of a bit `w` of a field (Table 0.4); `once` says that an RWO field was not written before. -/
def writtenBit (ty : FieldType) (once w v : Bool) : Bool :=
  match ty with
  | .rw => v
  | .rwo => if once then v else w
  | .w1c => w && !v
  | .w1s => w || v
  | .ro | .wo => w

/-- No write has reached the field before; `d` are the bits of RWO fields written before. -/
def FieldSpec.unwritten (f : FieldSpec) (d : Word) : Bool := fieldMask f.lo f.width &&& d = 0

theorem writeField_getLsbD_out (h : ¬ f.Covers i) : (writeField m v d w f).getLsbD i = w.getLsbD i := by
  by_cases hi : i < 64
  · have hx : (fieldMask f.lo f.width &&& m).getLsbD i = false := by
      rw [BitVec.getLsbD_and, fieldMask_getLsbD hi, decide_eq_false h, Bool.false_and]
    unfold writeField
    cases f.ty with
    | rwo =>
      dsimp only
      split <;> simp [-BitVec.getLsbD_eq_getElem, hx, hi]
    | rw | w1c | w1s => simp [-BitVec.getLsbD_eq_getElem, hx, hi]
    | ro | wo => rfl
  · rw [BitVec.getLsbD_of_ge _ _ (by omega), BitVec.getLsbD_of_ge _ _ (by omega)]

theorem writeField_getLsbD_in (h : f.Covers i) (hi : i < 64) (hm : m.getLsbD i = true) :
    (writeField m v d w f).getLsbD i = writtenBit f.ty (f.unwritten d) (w.getLsbD i) (v.getLsbD i) := by
  have hx : (fieldMask f.lo f.width &&& m).getLsbD i = true := by
    rw [BitVec.getLsbD_and, fieldMask_getLsbD hi, hm, decide_eq_true h, Bool.true_and]
  unfold writeField writtenBit FieldSpec.unwritten
  cases f.ty with
  | rwo =>
    dsimp only
    split <;> simp_all [-BitVec.getLsbD_eq_getElem]
  | rw | w1c | w1s => simp [-BitVec.getLsbD_eq_getElem, hx, hi]
  | ro | wo => rfl

/-! ### All fields of a register -/

/-- A write leaves the bits outside the fields alone. -/
theorem foldl_writeField_out (h : ∀ f ∈ fs, ¬ f.Covers i) : (fs.foldl (writeField m v d) w).getLsbD i = w.getLsbD i := by
  induction fs generalizing w with
  | nil => rfl
  | cons g fs ih =>
    rw [List.foldl_cons, ih fun f hf => h f (List.mem_cons_of_mem _ hf), writeField_getLsbD_out (h g List.mem_cons_self)]

/-- Each field takes what its type makes of the value, whatever the others take. -/
theorem foldl_writeField_in (ha : FieldsApart fs) (hf : f ∈ fs) (hi : f.Covers i) (hm : m.getLsbD i = true) :
    (fs.foldl (writeField m v d) w).getLsbD i = writtenBit f.ty (f.unwritten d) (w.getLsbD i) (v.getLsbD i) := by
  induction fs generalizing w with
  | nil => cases hf
  | cons g fs ih =>
    rw [List.foldl_cons]
    rcases List.mem_cons.mp hf with rfl | hf
    · rw [foldl_writeField_out (ha.not_covers_tail hi), writeField_getLsbD_in hi (ha.covers_lt List.mem_cons_self hi) hm]
    · rw [ih ha.tail hf, writeField_getLsbD_out (ha.not_covers_head hf hi)]

/-- The bits of the fields of a type. -/
theorem typeMask_getLsbD (ty : FieldType) (hi : i < 64) :
    (typeMask ty fs m).getLsbD i = true ↔ m.getLsbD i = true ∧ ∃ f ∈ fs, f.ty = ty ∧ f.Covers i := by
  suffices ∀ w : Word, (fs.foldl (fun w f => if f.ty = ty then w ||| (fieldMask f.lo f.width &&& m) else w) w).getLsbD i = true ↔
      w.getLsbD i = true ∨ m.getLsbD i = true ∧ ∃ f ∈ fs, f.ty = ty ∧ f.Covers i by
    rw [typeMask, this]
    simp
  induction fs with
  | nil => simp
  | cons g fs ih =>
    intro w
    rw [List.foldl_cons, ih, List.exists_mem_cons_iff]
    by_cases ht : g.ty = ty
    · rw [if_pos ht, BitVec.getLsbD_or, BitVec.getLsbD_and, fieldMask_getLsbD hi, Bool.or_eq_true, Bool.and_eq_true,
        decide_eq_true_eq]
      tauto
    · rw [if_neg ht]
      tauto

theorem FieldsApart.eq_of_covers (ha : FieldsApart fs) (hf : f ∈ fs) (hg : g ∈ fs) (hi : f.Covers i) (hj : g.Covers i) :
    g = f := by
  induction fs with
  | nil => cases hf
  | cons a fs ih =>
    rcases List.mem_cons.mp hf with e | hf
    · rcases List.mem_cons.mp hg with e' | hg
      · rw [e, e']
      · exact absurd (e ▸ hi) (ha.not_covers_head hg hj)
    · rcases List.mem_cons.mp hg with e' | hg
      · exact absurd (e' ▸ hj) (ha.not_covers_head hf hi)
      · exact ih ha.tail hf hg

/-- A bit of a field is one of the bits of a type exactly if the field has that type. -/
theorem FieldsApart.typeMask_getLsbD (ha : FieldsApart fs) (hf : f ∈ fs) (hi : f.Covers i) (hm : m.getLsbD i = true)
    (ty : FieldType) : (typeMask ty fs m).getLsbD i = decide (f.ty = ty) := by
  rw [Bool.eq_iff_iff, Sys2Proof.Machine.typeMask_getLsbD ty (ha.covers_lt hf hi), decide_eq_true_eq]
  constructor
  · rintro ⟨_, g, hg, hty, hc⟩
    exact ha.eq_of_covers hf hg hi hc ▸ hty
  · exact fun h => ⟨hm, f, hf, h, hi⟩

/-! ### The write of a whole register -/

theorem State.rd_writeByType_same : (s.writeByType k fs m v).rd k =
    fs.foldl (writeField m v (SMap.get s.fieldOps.done k)) (s.rd k) := by
  unfold State.writeByType
  dsimp only
  split <;> exact State.rd_wr_same _ _ _

theorem State.rd_writeByType_ne {j : Nat} (h : j ≠ k) : (s.writeByType k fs m v).rd j = s.rd j := by
  unfold State.writeByType
  dsimp only
  split <;> exact State.rd_wr_ne _ _ h

theorem State.writeByType_done : SMap.get (s.writeByType k fs m v).fieldOps.done k =
    SMap.get s.fieldOps.done k ||| typeMask .rwo fs m := by
  unfold State.writeByType
  dsimp only
  split
  case isTrue h => rw [h]; exact BitVec.or_zero.symm
  case isFalse => exact SMap.look_store_same _ _ _ _

theorem State.writeByType_same : SameBut [.regs, .fieldOps, .tbRegs] s (s.writeByType k fs m v) :=
  (State.writeByType_keeps (by decide) (by decide) (by decide) Keeps.refl k fs m v).frame

/-- What a 64-bit write of `v` makes of a field, by its type (R10, R11). -/
def State.fieldWritten (s : State) (k : Nat) (f : FieldSpec) (v : Word) : Nat :=
  match f.ty with
  | .rw => fieldOf v f.lo f.width
  | .rwo => if SMap.get s.fieldOps.done k &&& fieldMask f.lo f.width = 0 then fieldOf v f.lo f.width
    else fieldOf (s.rd k) f.lo f.width
  | .w1c => fieldOf (s.rd k &&& ~~~(v &&& ~~~SMap.get s.fieldOps.raised k)) f.lo f.width
  | .w1s => fieldOf (s.rd k ||| v) f.lo f.width
  | .ro | .wo => fieldOf (s.rd k) f.lo f.width

/-- The bits that W1C fields see: what hardware has raised in this cycle is not cleared. -/
theorem FieldsApart.w1cSeen_getLsbD (ha : FieldsApart fs) (hf : f ∈ fs) (hi : f.Covers i) :
    (s.w1cSeen k fs v).getLsbD i =
      (v.getLsbD i && !((SMap.get s.fieldOps.raised k).getLsbD i && decide (f.ty = .w1c))) := by
  have h64 := ha.covers_lt hf hi
  have hone : (BitVec.allOnes 64).getLsbD i = true := by rw [BitVec.getLsbD_allOnes]; exact decide_eq_true h64
  rw [State.w1cSeen, BitVec.getLsbD_and, BitVec.getLsbD_not, BitVec.getLsbD_and, ha.typeMask_getLsbD hf hi hone,
    decide_eq_true h64, Bool.true_and]

/-- The bits of a field after a 64-bit write. -/
theorem State.writeByType_getLsbD (ha : FieldsApart fs) (hf : f ∈ fs) (hm : m = BitVec.allOnes 64) (hi : f.Covers i) :
    ((s.writeByType k fs m (s.w1cSeen k fs v)).rd k).getLsbD i =
      writtenBit f.ty (f.unwritten (SMap.get s.fieldOps.done k)) ((s.rd k).getLsbD i)
        (v.getLsbD i && !((SMap.get s.fieldOps.raised k).getLsbD i && decide (f.ty = .w1c))) := by
  have hone : m.getLsbD i = true := by
    rw [hm, BitVec.getLsbD_allOnes]
    exact decide_eq_true (ha.covers_lt hf hi)
  rw [State.rd_writeByType_same, foldl_writeField_in ha hf hi hone, ha.w1cSeen_getLsbD hf hi]

/-- A 64-bit write changes each field as its type says. -/
theorem State.fieldOf_writeByType (ha : FieldsApart fs) (hf : f ∈ fs) (hm : m = BitVec.allOnes 64) :
    fieldOf ((s.writeByType k fs m (s.w1cSeen k fs v)).rd k) f.lo f.width = s.fieldWritten k f v := by
  have hbit := fun i (h1 : f.lo ≤ i) (h2 : i < f.lo + f.width) => State.writeByType_getLsbD (s := s) (k := k) (v := v) ha hf hm ⟨h1, h2⟩
  have h64 := fun i (h1 : f.lo ≤ i) (h2 : i < f.lo + f.width) => ha.covers_lt hf ⟨h1, h2⟩
  unfold State.fieldWritten
  unfold writtenBit at hbit
  cases hty : f.ty with
  | rw | ro | wo => exact fieldOf_congr fun i h1 h2 => by simpa [-BitVec.getLsbD_eq_getElem, hty] using hbit i h1 h2
  | rwo =>
    dsimp only
    rw [BitVec.and_comm]
    split
    case isTrue hd =>
      have hd : f.unwritten (SMap.get s.fieldOps.done k) = true := decide_eq_true hd
      exact fieldOf_congr fun i h1 h2 => by simpa [-BitVec.getLsbD_eq_getElem, hty, hd] using hbit i h1 h2
    case isFalse hd =>
      have hd : f.unwritten (SMap.get s.fieldOps.done k) = false := decide_eq_false hd
      exact fieldOf_congr fun i h1 h2 => by simpa [-BitVec.getLsbD_eq_getElem, hty, hd] using hbit i h1 h2
  | w1c | w1s =>
    exact fieldOf_congr fun i h1 h2 => by simpa [-BitVec.getLsbD_eq_getElem, hty, h64 i h1 h2] using hbit i h1 h2

/-- An RWO field counts as written after a write of its register. -/
theorem State.writeByType_once (ha : FieldsApart fs) (hf : f ∈ fs) (hm : m = BitVec.allOnes 64) (hty : f.ty = .rwo) :
    SMap.get (s.writeByType k fs m v).fieldOps.done k &&& fieldMask f.lo f.width = fieldMask f.lo f.width := by
  rw [State.writeByType_done]
  apply BitVec.eq_of_getLsbD_eq
  intro i hi
  rw [BitVec.getLsbD_and, BitVec.getLsbD_or, fieldMask_getLsbD hi]
  by_cases hc : f.Covers i
  · rw [ha.typeMask_getLsbD hf hc (by rw [hm, BitVec.getLsbD_allOnes]; exact decide_eq_true hi), decide_eq_true hty]
    simp
  · simp [decide_eq_false hc]

/-- A 64-bit access touches all bits of its register (R12). -/
theorem partMask_word {a : Nat} (h : a % 8 = 0) : partMask a 8 = BitVec.allOnes 64 := by
  rw [partMask, h]
  decide

end Sys2Proof.Machine

namespace Sys2Proof.Machine
/-! # Registers of register space, and accesses that reach them (R12, R450, R452, R453) -/

variable {s : State} {c : Issuer} {a n i o k : Nat} {v : Word} {b : Block} {r : RegInst}

/-! ### Registers -/

theorem blockRegs_fieldsApart (b : Block) : ∀ t ∈ blockRegs b, FieldsApart t.fields := by
  unfold FieldsApart
  cases b <;> decide

theorem findTemplate_mem {ts : List RegSpec} (h : findTemplate i o ts = some r) : r.spec ∈ ts := by
  induction ts with
  | nil => cases h
  | cons t ts ih =>
    unfold findTemplate at h
    split at h
    · split at h
      · cases h
        exact List.mem_cons_self
      · exact List.mem_cons_of_mem _ (ih h)
    · exact List.mem_cons_of_mem _ (ih h)

/-- The fields of a register lie apart. -/
theorem findReg_fieldsApart (h : findReg k = some r) : FieldsApart r.spec.fields := by
  unfold findReg at h
  split at h
  · exact blockRegs_fieldsApart _ _ (findTemplate_mem h)
  · split at h
    · cases h
    · exact blockRegs_fieldsApart _ _ (findTemplate_mem h)

/-! ### Logs of blocks -/

theorem blockLog_mono (b : Block) {i j : Nat} (h : i ≤ j) : blockLog b i ≤ blockLog b j := by
  cases b <;> simp only [blockLog] <;> omega

/-- No block has a slot above those of the mesh nodes. -/
theorem slotBlock_of_ge {t : Nat} (h : 0x264 ≤ t) : slotBlock t = none := by
  unfold slotBlock
  repeat rw [if_neg (by omega)]

/-- Every block of a slot, and each of its pages, has one of the 512 logs. -/
theorem slotBlock_blockLog_lt {t : Nat} (h : slotBlock t = some (b, i)) : blockLog b (i + 15) < 512 := by
  have hall : ∀ t < 0x264, ∀ p ∈ slotBlock t, blockLog p.1 (p.2 + 15) < 512 := by decide +kernel
  by_cases ht : t < 0x264
  · exact hall t ht (b, i) h
  · rw [slotBlock_of_ge (by omega)] at h
    cases h

theorem keyBlock_slot (h : keyBlock k = some (b, i, o)) : ∃ j, slotBlock (k / 0x10000) = some (b, j) ∧ i ≤ j + 15 := by
  unfold keyBlock at h
  split at h
  · cases h
  · rename_i b' j hj
    split at h
    · cases h
      exact ⟨j, hj, by omega⟩
    · cases h
      exact ⟨j, hj, by omega⟩
    · cases h
      exact ⟨_, hj, by omega⟩

theorem keyBlock_blockLog_lt (h : keyBlock k = some (b, i, o)) : blockLog b i < 512 := by
  obtain ⟨j, hj, hi⟩ := keyBlock_slot h
  exact (blockLog_mono b hi).trans_lt (slotBlock_blockLog_lt hj)

/-! ### Refusals -/

/-- The access is refused: log `n` records it with a cause and a detail, and an error response answers it. -/
abbrev State.refused (s : State) (n cause detail a : Nat) (c : Issuer) : State := (s.logRec n cause detail a c 0).answer .error

theorem State.refused_refused (hn : n < 512) (cause detail a : Nat) (c : Issuer) : Refused s (s.refused n cause detail a c) :=
  ⟨rfl, fun _ _ hk => State.rd_logRec (s := s) hk hn _ _ _ _ _⟩

theorem State.refused_homes (n cause detail a : Nat) (c : Issuer) : (s.refused n cause detail a c).homes = s.homes :=
  (State.logRec_keeps (F := Kinds.log) (by decide) (by decide) (by decide) (by decide) (by decide) (by decide) Keeps.refl
    n cause detail a c 0).frame .homes (by decide)

/-! ### Writes of register space -/

theorem State.regWrite_nowhere (h : keyBlock (a % 2 ^ 40) = none) : s.regWrite c a n v = s.refused 253 Cause.VIOLATION 0x05 a c := by
  unfold State.regWrite
  simp only [show (0x10000000000 : Nat) = 2 ^ 40 from rfl, h]
  rfl

/-- A block refuses a write: its die is away, its rule forbids it, its size is wrong or no register is there. -/
theorem State.regWrite_refused (h : keyBlock (a % 2 ^ 40) = some (b, i, o))
    (hwhy : (b = .bWLDD ∧ s.dieIn i = false) ∨ s.writeCause b i (findReg (a % 2 ^ 40 / 8 * 8)) c ≠ 0 ∨ sizeOk a n = false ∨
      findReg (a % 2 ^ 40 / 8 * 8) = none) :
    ∃ cause detail, s.regWrite c a n v = s.refused (blockLog b i) cause detail a c := by
  unfold State.regWrite
  simp only [show (0x10000000000 : Nat) = 2 ^ 40 from rfl, h]
  split
  · exact ⟨_, 0, rfl⟩
  split
  · exact ⟨_, 0, rfl⟩
  split
  · exact ⟨_, _, rfl⟩
  split
  · exact ⟨_, _, rfl⟩
  · simp_all

theorem State.regWrite_taken (h : keyBlock (a % 2 ^ 40) = some (b, i, o)) (hdie : b = .bWLDD → s.dieIn i = true)
    (hreg : findReg (a % 2 ^ 40 / 8 * 8) = some r) (hmay : s.writeCause b i (some r) c = 0) (hsize : sizeOk a n = true) :
    s.regWrite c a n v = (s.answer .ok).writeReg b r (a % 2 ^ 40 / 8 * 8) c a n v := by
  have hdie : ¬ (b = .bWLDD ∧ s.dieIn i = false) := fun ⟨hb, hd⟩ => by simp [hdie hb] at hd
  unfold State.regWrite
  simp only [show (0x10000000000 : Nat) = 2 ^ 40 from rfl, h, hreg, hmay, hsize, if_neg hdie]
  simp

/-- A 64-bit write of a register without a rule of its own changes its fields by their types. -/
theorem State.writeReg_byType {f : FieldSpec} (hfields : FieldsApart r.spec.fields) (hf : f ∈ r.spec.fields) (ha : a % 8 = 0)
    (hown : ∀ x, s.writeOwnRule b r k c true x = none) :
    s.writeReg b r k c a 8 v = s.writeByType (bankKey r.spec.reg c.sealed k) r.spec.fields (BitVec.allOnes 64)
      (s.w1cSeen (bankKey r.spec.reg c.sealed k) r.spec.fields v) := by
  have hmask : (fieldMask f.lo f.width &&& BitVec.allOnes 64 == 0) = false := by
    obtain ⟨h64, hpos⟩ := hfields.1 f hf
    have hbit : (fieldMask f.lo f.width).getLsbD f.lo = true := by
      rw [fieldMask_getLsbD (by omega)]
      exact decide_eq_true ⟨le_rfl, by omega⟩
    rw [BitVec.and_allOnes, beq_eq_false_iff_ne]
    intro h0
    simp [h0] at hbit
  have htouch : ¬ (r.spec.fields.all fun f => fieldMask f.lo f.width &&& BitVec.allOnes 64 == 0) = true := by
    rw [List.all_eq_true]
    exact fun h => by rw [h f hf] at hmask; cases hmask
  unfold State.writeReg
  simp only [partMask_word ha, if_neg htouch, ha, beq_self_eq_true, hown, Nat.mul_zero, BitVec.shiftLeft_zero]

/-! ### Reads of register space -/

theorem State.regRead_taken (h : keyBlock (a % 2 ^ 40) = some (b, i, o)) (hdie : b = .bWLDD → s.dieIn i = true)
    (hreg : findReg (a % 2 ^ 40 / 8 * 8) = some r) (hmay : s.readCause b i (some r) c = 0) (hsize : sizeOk a n = true) :
    s.regRead c a n = (s.regValue (a % 2 ^ 40 / 8 * 8) r c).1.answer
      (.data (BitVec.ofNat 64 ((s.regValue (a % 2 ^ 40 / 8 * 8) r c).2 >>> (8 * (a % 8)) % 2 ^ (8 * n)))) := by
  have hdie : ¬ (b = .bWLDD ∧ s.dieIn i = false) := fun ⟨hb, hd⟩ => by simp [hdie hb] at hd
  unfold State.regRead
  simp only [show (0x10000000000 : Nat) = 2 ^ 40 from rfl, h, hreg, hmay, hsize, if_neg hdie]
  simp [partOf]

/-- The registers whose read does more than show them. -/
abbrev readActs : List Reg :=
  [.CRN_WIN, .TB_TIME, .CSQ_IMEM, .CSQ_DMEM, .DL_LANE_CNT, .NOC_RSV_OWN, .NOC_RSV_CNT, .NOC_RSV_DENY, .NOC_EVT,
    .CSQ_SCHED_STAT, .CSQ_SCHED_FRAME, .MGT_GPIO]

theorem State.regValue_plain (h : r.spec.reg ∉ readActs) : s.regValue k r c = (s, s.regCore k r c.sealed) := by
  unfold State.regValue
  split <;> simp_all

/-! ### Where an access of register space arrives -/

theorem State.busWrite_register (h : RegSpace a) : s.busWrite c a n v = s.regWrite c a n v := by
  obtain ⟨hlo, hhi, haplic, hint⟩ := h
  unfold State.busWrite
  simp only [if_pos (And.intro hlo hhi), haplic, hint]

theorem State.busRead_register (h : RegSpace a) : s.busRead c a n = s.regRead c a n := by
  obtain ⟨hlo, hhi, haplic, hint⟩ := h
  unfold State.busRead
  simp only [if_pos (And.intro hlo hhi), haplic, hint]

/-! ### Commands that carry an access of register space -/

section Sender
variable {p : PAddr} {d : Fin 12} (hc : c.agent ≠ .newt) (hin : s.agentIn c = true)
include hc hin

theorem registerWrite_next (hp : RegSpace p.toNat) (hpmp : s.pmpStops c p.toNat n pmpW = false)
    (hh : (s.regWrite (s.tagged c) p.toNat n v).homes = s.homes) :
    exec (.registerWrite c (.addr p n) v) s = .next (s.regWrite (s.tagged c) p.toNat n v) := by
  show execRegisterWrite c (.addr p n) v s = _
  unfold execRegisterWrite
  refine State.devCmd_next_of_homes ?_ hh
  simp only [if_neg hc, if_pos (show _ ∧ _ ∧ _ from ⟨hp.1, hp.2.1, hin⟩), hpmp, State.busWrite_register hp]
  rfl

/-- A write that the register space refuses is answered by an error, and reaches the records only. -/
theorem registerWrite_refused (hp : RegSpace p.toNat) (hpmp : s.pmpStops c p.toNat n pmpW = false) {m cause detail : Nat}
    (hm : m < 512) (h : s.regWrite (s.tagged c) p.toNat n v = s.refused m cause detail p.toNat (s.tagged c)) :
    Completes (.registerWrite c (.addr p n) v) s fun t => Refused s t :=
  ⟨_, registerWrite_next hc hin hp hpmp (by rw [h]; exact State.refused_homes _ _ _ _ _),
    by rw [h]; exact State.refused_refused hm _ _ _ _⟩

theorem ioRd_next (hd : s.dieLinked d = true) (hp : RegSpace p.toNat) (hpmp : s.pmpStops c p.toNat n pmpR = false) :
    exec (.ioRd d c p n) s = .next (s.regRead (s.tagged c) p.toNat n) := by
  show execIoRd d c p n s = _
  simp only [execIoRd, if_neg hc, hd, hin, hpmp, State.busRead_register hp]
  rfl

theorem ioRd_pmp (hd : s.dieLinked d = true) (hpmp : s.pmpStops c p.toNat n pmpR = true) :
    exec (.ioRd d c p n) s = .next (s.answer .accessFault) := by
  show execIoRd d c p n s = _
  simp only [execIoRd, if_neg hc, hd, hin, hpmp]
  rfl

theorem ioWr_pmp (hd : s.dieLinked d = true) (hpmp : s.pmpStops c p.toNat n pmpW = true) :
    exec (.ioWr d c p n v) s = .next (s.answer .accessFault) := by
  show execIoWr d c p n v s = _
  unfold execIoWr
  refine State.devCmd_next_of_homes ?_ rfl
  simp only [if_neg hc, hd, hin, hpmp]
  rfl

end Sender
end Sys2Proof.Machine

namespace Sys2Proof.Machine
/-! # Commands that are one agent's access (R18, R317) -/

variable {s : State} {c : Issuer}

/-! ### The tags of a place -/

theorem State.tagged_agent (s : State) (c : Issuer) : (s.tagged c).agent = c.agent := by
  unfold State.tagged
  split <;> simp_all

theorem State.tagged_tagged (s : State) (c : Issuer) : s.tagged (s.tagged c) = s.tagged c := by
  obtain ⟨w, vi, gen, agent⟩ := c
  cases agent with
  | jtag => simp only [State.tagged, Bool.and_assoc, Bool.and_self]
  | _ => rfl

theorem State.agentIn_tagged (s : State) (c : Issuer) : s.agentIn (s.tagged c) = s.agentIn c := by
  unfold State.agentIn
  rw [State.tagged_agent]

theorem State.pmpStops_tagged (s : State) (c : Issuer) (a n bit : Nat) : s.pmpStops (s.tagged c) a n bit = s.pmpStops c a n bit := by
  unfold State.pmpStops
  rw [State.tagged_agent]

theorem State.reservedFor_tagged (s : State) (c : Issuer) (a : Nat) : s.reservedFor (s.tagged c) a = s.reservedFor c a := by
  unfold State.reservedFor
  rw [State.tagged_agent]

theorem State.issue_tagged (s : State) (c : Issuer) (f : Issuer → State → State) : s.issue (s.tagged c) f = s.issue c f := by
  unfold State.issue
  rw [State.agentIn_tagged, State.tagged_tagged]

theorem State.issue_out (h : s.agentIn c = false) (f : Issuer → State → State) : s.issue c f = s := by
  unfold State.issue
  rw [h]
  rfl

theorem State.devCmd_congr {f g : State → Result} (h : f s = g s) : s.devCmd f = s.devCmd g := by
  unfold State.devCmd
  rw [h]

/-! ### What such a command does for each sender -/

/-- The access acts with the tags of its sender's place, and nothing happens if that sender cannot act. -/
def ActsAsTagged (f : Issuer → State → Result) : Prop :=
  ∀ c s, f c s = f (s.tagged c) s ∧ (s.agentIn c = false → s.devAsked = none → f c s = .next s)

theorem actsAsTagged_issue (g : Issuer → State → State) : ActsAsTagged fun c s => .next (s.issue c g) :=
  fun c s => ⟨congrArg Host.Outcome.next (State.issue_tagged s c g).symm, fun h _ => congrArg Host.Outcome.next (State.issue_out h g)⟩

theorem actsAsTagged_devCmd (g : Issuer → State → State) : ActsAsTagged fun c s => s.devCmd fun s => .next (s.issue c g) :=
  fun c s => ⟨State.devCmd_congr (congrArg Host.Outcome.next (State.issue_tagged s c g).symm),
    fun h _ => State.devCmd_next_of_homes (congrArg Host.Outcome.next (State.issue_out h g)) rfl⟩

theorem actsAsTagged_remoteAccess (a : PAddr) (k : RemoteKind) (reserved : Bool) :
    ActsAsTagged fun c => execRemoteAccess c a k reserved := by
  intro c s
  simp only [execRemoteAccess, State.agentIn_tagged, State.pmpStops_tagged, State.tagged_tagged, State.tagged_agent,
    State.reservedFor_tagged, true_and]
  intro h _
  simp [h]

theorem actsAsTagged_pcieWindowAccess (a : PAddr) (k : RemoteKind) : ActsAsTagged fun c => execPcieWindowAccess c a k := by
  intro c s
  simp only [execPcieWindowAccess, State.agentIn_tagged, State.pmpStops_tagged, State.tagged_tagged, true_and]
  intro h _
  simp [h]

/-- A command that is one agent's access does what its access does, for the sender as its place tags it. -/
theorem access_exec {i : Instr} {f : Issuer → State → Result} (h : access i = some (c, f)) :
    (∀ s, exec i s = f c s) ∧ ActsAsTagged f := by
  cases i with
  | tbTimeRead | tickEnWrite | switchArm | restepWrite | csqStart | csqStop | csqImemWrite | csqFlagSet | msiWrite |
  swopClean | swopInvalidate | swopCleanInvalidate | pitonModeChange | dlHold | dlRetrain | dlClrRec | routeTableWrite
  | epochSwitchRequest | drainRequest | drainRelease | mcReqTest | mcReqRecovery | mcReqLeaveTest | xeKeyload |
  xeKeyClear | xeKeyresAck | sqDoorbell | cqDoorbell | queueEnable | queueDisable | queueFlush | viAdminAck |
  dirtySwap | fabEpochArm | profileCommit | profileAck | ownRelease | ownResAck | iommuInvalidate | iommuInvresAck |
  ksResAck | belayArm | belayPet | ceAck | pwrResAck | packageResetCmd | dieResetCmd | clusterResetCmd | rstResAck |
  tbHold | tbRelease | softwareCapture =>
    cases h
    exact ⟨fun _ => rfl, actsAsTagged_issue _⟩
  | viCreate | viStart | viStop | viReset | viDestroy | viShare | mboxManagerIndex | mboxTenantIndex | mgmtTx | gen |
  derive | importKey | exportKey | erase | persist | attest | measure | svnCommit | ceGo =>
    cases h
    exact ⟨fun _ => rfl, actsAsTagged_devCmd _⟩
  | remoteAccess =>
    cases h
    exact ⟨fun _ => rfl, actsAsTagged_remoteAccess _ _ _⟩
  | pcieWindowAccess =>
    cases h
    exact ⟨fun _ => rfl, actsAsTagged_pcieWindowAccess _ _⟩
  | _ => cases h

end Sys2Proof.Machine

namespace Sys2Proof.Machine
/-! # CSRs of a hart (R142) and the view of a Newt core (R458) -/

variable {s : State} {c : Issuer} {h n : Nat} {v : Nat}

/-! ### Who may write a CSR -/

/-- Machine mode is refused a CSR that does not exist, and a write of a read-only one; nothing else. -/
theorem State.csrCheck_machine (s : State) (h n : Nat) (w : Bool) :
    s.csrCheck h n .m w = if csrExists n = false ∨ w ∧ csrReadOnly n then some .illegal else none := by
  have hlevel : csrLevel n ≤ 3 := Nat.le_of_lt_succ (Nat.mod_lt _ (by decide))
  have hfault : csrFault n .m = none := by simp [csrFault, modeVirtual, modeLevel, hlevel]
  simp [State.csrCheck, hfault, State.counterFault, State.translationFault]

/-- A machine CSR is illegal for a lower mode. -/
theorem State.csrCheck_level {md : PrivMode} (hn : csrLevel n = 3) (hmd : md = .u ∨ md = .s) (w : Bool) :
    s.csrCheck h n md w = some .illegal := by
  have hcustom : ¬ (0x5C0 ≤ n ∧ n ≤ 0x5C3) := fun ⟨_, _⟩ => by unfold csrLevel at hn; omega
  have hfault : csrFault n md = some .illegal := by
    rcases hmd with rfl | rfl <;> simp [csrFault, hcustom, hn, modeLevel]
  simp [State.csrCheck, hfault]

/-- A write of a read-only CSR is illegal in every mode. -/
theorem State.csrCheck_readOnly {md : PrivMode} (hn : csrReadOnly n = true) : s.csrCheck h n md true = some .illegal := by
  simp [State.csrCheck, hn]

/-! ### Writes of CSRs in machine mode -/

theorem State.writeCsr_refused {md : PrivMode} {e : Resp} (he : s.csrCheck h n md true = some e) :
    s.writeCsr h n md v = s.answer e := by
  simp only [State.writeCsr, he]

/-- mscratch takes the value. -/
theorem State.writeCsr_mscratch : s.writeCsr h 0x340 .m v = (s.answer .ok).setCsr h 0x340 v := by
  have hok : s.csrCheck h 0x340 .m true = none := by rw [State.csrCheck_machine]; decide
  simp [State.writeCsr, hok, customCsr, State.writeStdCsr, State.writeIntrCsr, csrReal, csrKeep]

theorem State.writeCsr_skpwr : s.writeCsr h 0x7C2 .m v = (s.answer .ok).put (L.SKPWR.DEPTH h) v := by
  have hok : s.csrCheck h 0x7C2 .m true = none := by rw [State.csrCheck_machine]; decide
  simp [State.writeCsr, hok]

theorem State.writeCsr_skmtimecmp : s.writeCsr h 0x7C3 .m v = (s.answer .ok).put (L.SKMTIMECMP.CMP h) v := by
  have hok : s.csrCheck h 0x7C3 .m true = none := by rw [State.csrCheck_machine]; decide
  simp [State.writeCsr, hok]

/-- A hart that executes writes a CSR other than SKWSW in the mode of its command. -/
theorem registerWrite_csr_next {h : Fin 216} {n : Fin 4096} {md : PrivMode} {v : Word} (hh : s.hartActs h = true)
    (hn : n.val ≠ 0x7C0) {t : State} (ht : (s.inMode h md).writeCsr h n md v.toNat = t) (hhome : t.homes = s.homes) :
    exec (.registerWrite c (.csr h n md) v) s = .next t := by
  show execRegisterWrite c (.csr h n md) v s = _
  unfold execRegisterWrite
  refine State.devCmd_next_of_homes ?_ hhome
  simp [hh, hn, ht]

theorem withField_word (w v : Word) : withField w 0 64 v.toNat = v := by
  unfold withField
  rw [Nat.mod_eq_of_lt v.isLt]
  simp [fieldMask]

theorem hartKey_ne {x y h n : Nat} (hy : y < 0x2000) (hn : n < 0x2000) (hne : x ≠ h ∨ y ≠ n) :
    hartKey x y ≠ hartKey h n := by
  unfold hartKey
  omega

/-! ### Accesses of a Newt core -/

theorem State.writeBytes_answer (r : Resp) (a : Nat) (l : List (BitVec 8)) :
    (s.answer r).writeBytes a l = (s.writeBytes a l).answer r := by
  induction l generalizing s a with
  | nil => rfl
  | cons b l ih => exact ih (s := s.writeByte a b) (a + 1)

theorem State.writeBytes_same (a : Nat) (l : List (BitVec 8)) : SameBut [.mem] s (s.writeBytes a l) :=
  (State.writeBytes_keeps (by decide) Keeps.refl a l).frame

section Newt
variable {d : Fin 12} {a : PAddr} {v : Word} {p : Nat} (hc : c.agent = .newt)

theorem State.newtWrite_none {a : Nat} (h : newtView a n = none) : s.newtWrite a n v = s.answer .accessFault := by
  simp only [State.newtWrite, h]

theorem State.newtWrite_sram {a : Nat} (h : newtView a n = some p) (hp : newtSram ≤ p) :
    s.newtWrite a n v = (s.writeBytes p ((bytesLE n v.toNat).map (BitVec.ofNat 8))).answer .ok := by
  simp only [State.newtWrite, h, if_pos hp, State.writeBytes_answer]

theorem State.newtWrite_bus {a : Nat} (h : newtView a n = some p) (hp : p < newtSram) :
    s.newtWrite a n v = s.busWrite newtIssuer p n v := by
  simp only [State.newtWrite, h, if_neg (Nat.not_le.mpr hp)]

include hc

theorem registerWrite_newt {t : State} (h : s.newtWrite a.toNat n v = t) (hw : s.devAsked = none → t.devAsked = none) :
    exec (.registerWrite c (.addr a n) v) s = .next t := by
  show execRegisterWrite c (.addr a n) v s = _
  unfold execRegisterWrite
  refine State.devCmd_next ?_ hw
  simp only [if_pos hc, h]

theorem ioWr_newt {t : State} (h : s.newtWrite a.toNat n v = t) (hh : t.homes = s.homes) :
    exec (.ioWr d c a n v) s = .next t := by
  show execIoWr d c a n v s = _
  unfold execIoWr
  refine State.devCmd_next_of_homes ?_ hh
  simp only [if_pos hc, h]

theorem ioRd_newt : exec (.ioRd d c a n) s = .next (s.newtRead a.toNat n) := by
  show execIoRd d c a n s = _
  simp only [execIoRd, if_pos hc]

end Newt

theorem State.newtRead_none {a : Nat} (h : newtView a n = none) : s.newtRead a n = s.answer .accessFault := by
  simp only [State.newtRead, h]

theorem State.newtRead_sram {a p : Nat} (h : newtView a n = some p) (hp : newtSram ≤ p) :
    s.newtRead a n = s.answer (.data (BitVec.ofNat 64 (s.readLE p n))) := by
  simp only [State.newtRead, h, if_pos hp]

theorem State.newtRead_bus {a p : Nat} (h : newtView a n = some p) (hp : p < newtSram) :
    s.newtRead a n = s.busRead newtIssuer p n := by
  simp only [State.newtRead, h, if_neg (Nat.not_le.mpr hp)]

end Sys2Proof.Machine

namespace Sys2Proof.Machine
/-! # Registers are written and read -/

/-- A 64-bit write of a register whose fields act by type (R10, R11). -/
theorem registerWrite_byType {c : Issuer} {a : PAddr} {v : Word} {b : Block} {i o key : Nat} {r : RegInst} {f : FieldSpec}
    {s : State} (hc : c.agent ≠ .newt) (hin : s.agentIn c = true) (ha : RegSpace a.toNat) (h8 : a.toNat % 8 = 0)
    (hb : keyBlock (a.toNat % 2 ^ 40) = some (b, i, o)) (hr : findReg (a.toNat % 2 ^ 40) = some r)
    (hdie : b = .bWLDD → s.dieIn i = true) (hpmp : s.pmpStops c a.toNat 8 pmpW = false)
    (hmay : s.writeCause b i (some r) (s.tagged c) = 0)
    (hown : ∀ x, (s.answer .ok).writeOwnRule b r (a.toNat % 2 ^ 40) (s.tagged c) true x = none) (hf : f ∈ r.spec.fields)
    (hkey : key = bankKey r.spec.reg (s.tagged c).sealed (a.toNat % 2 ^ 40)) :
    Completes (.registerWrite c (.addr a 8) v) s fun t => t.resp = .ok ∧ fieldOf (t.rd key) f.lo f.width = s.fieldWritten key f v ∧
      (f.ty = .rwo → SMap.get t.fieldOps.done key &&& fieldMask f.lo f.width = fieldMask f.lo f.width) ∧ SameRegsBut [key] s t := by
  have hfields := findReg_fieldsApart hr
  have halign : a.toNat % 2 ^ 40 / 8 * 8 = a.toNat % 2 ^ 40 := by omega
  have hwrite := State.regWrite_taken (v := v) hb hdie (halign.symm ▸ hr) hmay (show sizeOk a.toNat 8 = true by simp [sizeOk, h8])
  rw [halign, State.writeReg_byType hfields hf h8 hown, ← hkey] at hwrite
  have hsame := State.writeByType_same (s := s.answer .ok) (fs := r.spec.fields) (m := BitVec.allOnes 64) (k := key)
    (v := (s.answer .ok).w1cSeen key r.spec.fields v)
  refine ⟨_, (registerWrite_next hc hin ha hpmp (by rw [hwrite]; exact hsame .homes (by decide))).trans (by rw [hwrite]),
    hsame .resp (by decide), State.fieldOf_writeByType hfields hf rfl, State.writeByType_once hfields hf rfl, fun j hj => ?_⟩
  exact State.rd_writeByType_ne (s := s.answer .ok) (by simpa using hj)

/-- Settles O60: each access by the rule of the path it takes, and the laws of what that path does. -/
theorem registersAreWrittenAndRead : Obligations.RegistersAreWrittenAndRead := by
  unfold Obligations.RegistersAreWrittenAndRead
  refine ⟨?byType, ?nowhere, ?refused, ?read, ?pmp, ?tags, ?csrs, ?illegal, ?newtFaults, ?newtReaches⟩
  case byType =>
    intro c a v b i o key r f s ha h8 hb hr hc hin hdie hpmp hmay hown hf hkey
    exact registerWrite_byType hc hin ha h8 hb hr hdie hpmp hmay hown hf hkey
  case nowhere =>
    intro c a n v s ha hc hin hpmp hb
    exact registerWrite_refused hc hin ha hpmp (by decide) (State.regWrite_nowhere hb)
  case refused =>
    intro c a n v b i o r s ha hc hin hpmp hb hr hwhy
    subst hr
    obtain ⟨cause, detail, hw⟩ := State.regWrite_refused (v := v) hb hwhy
    exact registerWrite_refused hc hin ha hpmp (keyBlock_blockLog_lt hb) hw
  case read =>
    intro d c a n b i o r s hd hc hin ha hpmp hb hr hdie hmay hsize
    exact ⟨_, (ioRd_next hc hin hd ha hpmp).trans (congrArg Host.Outcome.next (State.regRead_taken hb hdie hr hmay hsize)), rfl,
      fun _ _ => rfl, State.regValue_plain⟩
  case pmp =>
    intro d c a n v s hd hc hin
    exact ⟨fun h => ⟨_, ioRd_pmp hc hin hd h, rfl, fun _ _ => rfl⟩,
      fun h _ => ⟨_, ioWr_pmp hc hin hd h, rfl, rfl, fun _ _ => rfl⟩⟩
  case tags =>
    intro i c f s hi
    obtain ⟨hexec, hacts⟩ := access_exec hi
    exact ⟨hexec s, hacts c s⟩
  case csrs =>
    intro c h v s hh
    refine ⟨?_, ?_, ?_⟩
    · refine ⟨_, registerWrite_csr_next hh (by decide) State.writeCsr_mscratch rfl, rfl, ?_, fun x y _ hy hxy => ?_, fun _ _ => rfl⟩
      · exact (State.hreg_setHreg_same _ _ _ _).trans (by simp)
      · exact State.hreg_setHreg_ne _ _ (hartKey_ne hy (by decide) hxy)
    · refine ⟨_, registerWrite_csr_next hh (by decide) State.writeCsr_skpwr rfl, rfl, ?_, rfl, fun j hj => ?_⟩
      · exact State.get_put_same _ _ _ (by simp)
      · exact State.rd_put_ne _ _ (by simpa using hj)
    · refine ⟨_, registerWrite_csr_next hh (by decide) State.writeCsr_skmtimecmp rfl, rfl, ?_, fun j hj => ?_⟩
      · exact (State.rd_put_same _ _ _).trans (withField_word _ v)
      · exact State.rd_put_ne _ _ (by simpa using hj)
  case illegal =>
    intro c h n md v s hh hn hwhy
    have hfault : (s.inMode h md).csrCheck h n md true = some .illegal := by
      rcases hwhy with ⟨hlevel, hmd⟩ | ⟨_, hlow⟩
      · exact State.csrCheck_level hlevel hmd true
      · exact State.csrCheck_readOnly (decide_eq_true (by omega))
    exact ⟨_, registerWrite_csr_next hh hn (State.writeCsr_refused hfault) rfl, rfl, rfl, fun _ _ => rfl⟩
  case newtFaults =>
    intro c d a n v s hc hv
    exact ⟨⟨_, registerWrite_newt hc (State.newtWrite_none hv) id, rfl, fun _ _ => rfl⟩,
      ⟨_, ioWr_newt hc (State.newtWrite_none hv) rfl, rfl, fun _ _ => rfl⟩,
      ⟨_, (ioRd_newt hc).trans (congrArg Host.Outcome.next (State.newtRead_none hv)), rfl, fun _ _ => rfl⟩⟩
  case newtReaches =>
    intro c d a n p v s hc hv
    refine ⟨fun hp => ⟨?_, ?_⟩, fun hp hw => ?_, fun hp => ?_⟩
    · have hsame := State.writeBytes_same (s := s) p ((bytesLE n v.toNat).map (BitVec.ofNat 8))
      exact ⟨_, ioWr_newt hc (State.newtWrite_sram hv hp) (hsame .homes (by decide)), rfl, rfl,
        fun _ _ => State.rd_congr (hsame .regs (by decide))⟩
    · exact ⟨_, (ioRd_newt hc).trans (congrArg Host.Outcome.next (State.newtRead_sram hv hp)), rfl, rfl, fun _ _ => rfl⟩
    · exact ⟨_, registerWrite_newt hc (State.newtWrite_bus hv hp) (fun _ => hw.2), rfl⟩
    · exact ⟨_, (ioRd_newt hc).trans (congrArg Host.Outcome.next (State.newtRead_bus hv hp)), rfl⟩

end Sys2Proof.Machine

namespace Sys2Proof.Machine
/-! # A lockstep mismatch whose interrupt is refused (R134, R137, R430) -/

variable {s : State}

/-- The pair of a cluster has stopped, and the log of its die has the record of the mismatch (R137). -/
def State.mismatchRecorded (s : State) (d c : Nat) (pc : Word) : State :=
  let h := hartOf d c 0
  let s := (s.setHart h { s.hartSt h with run := .stopped }).raise (L.SKLSCFG.MM_SEEN h)
  s.logRec (dieLog d) Cause.MISMATCH 0x01 pc.toNat (s.hartIssuer h .s) h

/-- Without LS_EN a mismatch ends with the rise of the die's wired source. -/
theorem lockstepMismatch_next {d : Fin 12} {c : Fin 9} {pc : Word} (hp : s.pairActive d c = true)
    (hls : ((s.mismatchRecorded d c pc).aplicLine (16 + d) true).get L.CRN_TRIG_CFG.LS_EN ≠ 1) :
    exec (.lockstepMismatch d c pc) s = .next ((s.mismatchRecorded d c pc).aplicLine (16 + d) true) := by
  show execLockstepMismatch d c pc s = _
  rw [execLockstepMismatch, if_pos hp]
  exact if_neg hls

/-- Cluster 0 of die 0 runs a lockstep pair, and the APLIC's root domain delivers source 16, the die's lockstep error, as
identity 1 to the machine file of hart 1, the checker core of that pair: enabled, on its rising edge. -/
def mismatchToChecker : State :=
  ((((State.reset.put (L.SKLSCFG.ACTIVE 0) 1).putAplic aplicRoot 0 0x100).putAplic aplicRoot (4 * 16) 4).putAplic
    aplicRoot 0x1E00 (1 <<< 16)).putAplic aplicRoot (0x3000 + 4 * 16) ((1 <<< 18) + 1)

/-- The state meets the invariant. -/
theorem mismatchToChecker_inv : Inv mismatchToChecker := by
  constructor <;> decide

/-- The mismatch of the pair ends with the rise of source 16. -/
theorem mismatchToChecker_next : exec (.lockstepMismatch 0 0 0) mismatchToChecker =
    .next ((mismatchToChecker.mismatchRecorded 0 0 0).aplicLine 16 true) :=
  lockstepMismatch_next (by decide) (by decide)

/-- The page of the checker core refuses the message of the source (R134), and of two records of one nanosecond the log
keeps the one with the lower cause (R430). -/
theorem mismatchToChecker_refused :
    ((mismatchToChecker.mismatchRecorded 0 0 0).aplicLine 16 true).get (L.ERR_LOG_STAT.CAUSE (dieLog 0)) = Cause.VIOLATION := by
  decide

/-- Refutes O24: in its clause on lockstep mismatches, a log without a record need not keep the one of the mismatch. Where the
die's wired source is sent to the checker core of the pair itself, the refusal of that message is logged in the same
nanosecond with the lower cause VIOLATION, and R430 stores it as the log's first record. -/
theorem not_worldSwitchLockstepAndSampling : ¬ Obligations.WorldSwitchLockstepAndSampling := by
  unfold Obligations.WorldSwitchLockstepAndSampling
  rintro ⟨-, -, -, -, -, -, hmismatch, -⟩
  obtain ⟨t, ht, -, -, -, hfirst, -⟩ := hmismatch 0 0 0 mismatchToChecker (by decide)
  have hcause : t.get (L.ERR_LOG_STAT.CAUSE (dieLog 0)) = Cause.MISMATCH := (hfirst (by decide)).1
  have ht' : _ = t := Host.Outcome.next.inj (mismatchToChecker_next.symm.trans ht)
  rw [← ht', mismatchToChecker_refused] at hcause
  exact absurd hcause (by decide)

end Sys2Proof.Machine

namespace Sys2Proof.Machine
/-! # Piton memory: the end of a change, while the release of a way of the slice is accepted (R158, R162, R329) -/

variable {s t : State} {d sl : Nat}

/-- The ways that change are zero, and the slice shows whether a change or a release still runs. -/
def State.pitonChanged (s : State) (d sl : Nat) : State :=
  let z := s.forAll (onesBelow 16 (SMap.get s.pitonBusy (4 * d + sl))) (fun s w => s.zeroRange (pitonBase d sl w) 0xC0000)
  State.l3Sync { z with pitonBusy := SMap.drop z.pitonBusy (4 * d + sl) } d sl

theorem State.forAll_emptyWay_of_no_lines (h : s.allLines d (uL3 sl) = []) (ws : List Nat) :
    s.forAll ws (fun s w => s.emptyWay d sl w) = s := by
  unfold State.forAll
  induction ws with
  | nil => rfl
  | cons w ws ih =>
    have he : s.emptyWay d sl w = s := by simp [State.emptyWay, h, State.forAll]
    rw [List.foldl_cons, he, ih]

/-- A change in a slice that holds no line ends at once. -/
theorem pitonChangeDone_next {d : Fin 12} {sl : Fin 4} (hw : onesBelow 16 (SMap.get s.pitonBusy (4 * d.val + sl.val)) ≠ [])
    (hl : s.allLines d (uL3 sl) = []) : exec (.pitonChangeDone d sl) s = .next (s.pitonChanged d sl) := by
  show execPitonChangeDone d sl s = _
  unfold execPitonChangeDone
  rw [if_neg hw]
  dsimp only
  rw [State.forAll_emptyWay_of_no_lines hl, hl]
  rfl

/-- A slice shows BUSY while the release of one of its ways runs (R162). -/
theorem State.l3Sync_busy {w : Nat} (hw : w < 16) (h : s.releasing.contains (.l3 (64 * d + 16 * sl + w)) = true) :
    (s.l3Sync d sl).get (L.WLD_L3WAY.BUSY d sl) = 1 := by
  have hm : (List.range 16).any (fun w => s.releasing.contains (.l3 (64 * d + 16 * sl + w))) = true :=
    List.any_eq_true.mpr ⟨w, List.mem_range.mpr hw, h⟩
  unfold State.l3Sync
  dsimp only
  rw [if_pos (.inl hm)]
  exact State.get_put_fit _ _ _ (by simp) (by simp)

theorem State.forAll_zeroRange_releasing (ws : List Nat) :
    (s.forAll ws (fun s w => s.zeroRange (pitonBase d sl w) 0xC0000)).releasing = s.releasing :=
  State.forAll_kept State.releasing (f := fun s w => s.zeroRange (pitonBase d sl w) 0xC0000) (fun _ _ => rfl) ws

/-- Way 4 of slice 0 of die 0 changes to Piton mode, and the Sealed world's release of way 15 of the slice has been accepted
in this nanosecond, in which that way still takes work (R329). -/
def changingWhileReleaseAccepted : State :=
  { State.reset.put (L.WLD_L3WAY.BUSY 0 0) 1 with
    pitonBusy := [(0, 0x10)], releasing := [.l3 15], ownReq := [(1, some ⟨.l3 15, 0⟩)] }

/-- The state meets the invariant. -/
theorem changingWhileReleaseAccepted_inv : Inv changingWhileReleaseAccepted := by
  constructor <;> decide

/-- No way of the slice refuses work for a release. -/
theorem changingWhileReleaseAccepted_takesWork (w : Nat) (hw : w < 16) :
    changingWhileReleaseAccepted.isReleasing (.l3 (64 * (0 : Fin 12).val + 16 * (0 : Fin 4).val + w)) = false := by
  revert w
  decide

/-- Refutes O28: in its clause on the end of a change, BUSY does not read 0 while the release of another way of the slice has
just been accepted: that way does not refuse work before the next nanosecond (R329), but its owner is about to change, which
BUSY shows (R162). -/
theorem not_pitonMemory : ¬ Obligations.PitonMemory := by
  unfold Obligations.PitonMemory
  rintro ⟨-, -, hdone, -⟩
  obtain ⟨t, ht, hbusy, -⟩ := hdone 0 0 0x10 changingWhileReleaseAccepted (by decide) (by decide) (by decide)
    changingWhileReleaseAccepted_takesWork
  have hnext : exec (.pitonChangeDone 0 0) changingWhileReleaseAccepted = .next (changingWhileReleaseAccepted.pitonChanged 0 0) :=
    pitonChangeDone_next (by decide) (by decide)
  have hshown : (changingWhileReleaseAccepted.pitonChanged 0 0).get (L.WLD_L3WAY.BUSY 0 0) = 1 := by
    refine State.l3Sync_busy (w := 15) (by decide) ?_
    show (State.forAll _ _ _).releasing.contains _ = true
    rw [State.forAll_zeroRange_releasing]
    decide
  have ht' : _ = t := Host.Outcome.next.inj (hnext.symm.trans ht)
  rw [← ht'] at hbusy
  exact absurd (hshown.symm.trans hbusy) (by decide)

end Sys2Proof.Machine

namespace Sys2Proof.Machine
/-! # Caches: sparse maps, ways and copies of lines (R143, R144) -/

section SparseMaps
variable {α : Type}

theorem SMap.drop_drop (m : SMap α) (k : Nat) : SMap.drop (SMap.drop m k) k = SMap.drop m k := by
  induction m with
  | nil => rfl
  | cons p t ih =>
    obtain ⟨a, v⟩ := p
    by_cases ha : a = k <;> simp [SMap.drop, ha, ih]

theorem SMap.drop_place (m : SMap α) (k : Nat) (v : α) : SMap.drop (SMap.place k v m) k = SMap.drop m k := by
  induction m with
  | nil => simp [SMap.place, SMap.drop]
  | cons p t ih =>
    obtain ⟨a, u⟩ := p
    by_cases hk : k < a
    · simp [SMap.place, SMap.drop, hk]
    · by_cases ha : a = k <;> simp [SMap.place, SMap.drop, hk, ha, ih]

variable [Inhabited α]

@[simp] theorem SMap.get_drop_same (m : SMap α) (k : Nat) : SMap.get (SMap.drop m k) k = default := SMap.look_drop_same _ m k

theorem SMap.get_drop_ne (m : SMap α) {k j : Nat} (h : j ≠ k) : SMap.get (SMap.drop m k) j = SMap.get m j :=
  SMap.look_drop_ne _ m h

/-- What an entry reads as, if it is not the default, is listed. -/
theorem SMap.mem_of_get_ne {m : SMap α} {k : Nat} (h : SMap.get m k ≠ default) : (k, SMap.get m k) ∈ m := by
  induction m with
  | nil => exact absurd rfl h
  | cons p t ih =>
    obtain ⟨a, v⟩ := p
    by_cases ha : k = a
    · subst ha; simp [SMap.get, SMap.look]
    · have he : SMap.get ((a, v) :: t) k = SMap.get t k := by simp [SMap.get, SMap.look, ha]
      rw [he] at h ⊢
      exact List.mem_cons_of_mem _ (ih h)

theorem SMap.get_eq_default {m : SMap α} {k : Nat} (h : ∀ p ∈ m, p.1 ≠ k) : SMap.get m k = default := by
  by_contra hne
  exact h _ (SMap.mem_of_get_ne hne) rfl

variable [DecidableEq α]

@[simp] theorem SMap.get_set_same (m : SMap α) (k : Nat) (v : α) : SMap.get (SMap.set m k v) k = v := SMap.look_store_same _ m k v

theorem SMap.get_set_ne (m : SMap α) {k j : Nat} (v : α) (h : j ≠ k) : SMap.get (SMap.set m k v) j = SMap.get m j :=
  SMap.look_store_ne _ m v h

/-- A second write to a key leaves nothing of the first. -/
theorem SMap.set_set (m : SMap α) (k : Nat) (v w : α) : SMap.set (SMap.set m k v) k w = SMap.set m k w := by
  have hd : SMap.drop (SMap.set m k v) k = SMap.drop m k := by
    unfold SMap.set SMap.store
    split
    · exact SMap.drop_drop m k
    · rw [SMap.drop_place, SMap.drop_drop]
  unfold SMap.set SMap.store at *
  rw [hd]

end SparseMaps

variable {s t : State} {d u l w d' u' l' w' set set' : Nat} {x y : CLine} {f : CLine → CLine}

/-! ### A way -/

/-- Die, structure, set and way stand in the fields that a key of the caches has for them. -/
structure InCache (d u set w : Nat) : Prop where
  die : d < 12
  unit : u < 64
  set : set < 16384
  way : w < 16

theorem setOf_lt (u l : Nat) : setOf u l < 16384 := by
  unfold setOf setsOf
  split_ifs <;> omega

theorem cacheKey_inj (h : InCache d u set w) (h' : InCache d' u' set' w')
    (he : cacheKey d' u' set' w' = cacheKey d u set w) : d' = d ∧ u' = u ∧ set' = set ∧ w' = w := by
  obtain ⟨-, hu, hs, hw⟩ := h
  obtain ⟨-, hu', hs', hw'⟩ := h'
  unfold cacheKey at he
  omega

theorem cacheKey_lt (h : InCache d u set w) : cacheKey d u set w < 2 ^ 62 := by
  obtain ⟨hd, hu, hs, hw⟩ := h
  unfold cacheKey
  omega

/-- A line written into a way stands there, with good code. -/
@[simp] theorem State.cline_setCline_same (s : State) (d u set w : Nat) (x : CLine) : (s.setCline d u set w x).cline d u set w = x := by
  simp [State.cline, State.setCline]

/-- A write into a way leaves every other way alone. -/
theorem State.cline_setCline_ne (x : CLine) (h : InCache d u set w) (h' : InCache d' u' set' w')
    (hne : ¬ (d' = d ∧ u' = u ∧ set' = set ∧ w' = w)) : (s.setCline d u set w x).cline d' u' set' w' = s.cline d' u' set' w' := by
  have hk : cacheKey d' u' set' w' ≠ cacheKey d u set w := fun e => hne (cacheKey_inj h h' e)
  have hlt := cacheKey_lt h
  have h1 : eccData (cacheKey d' u' set' w') ≠ eccData (cacheKey d u set w) := by unfold eccData; omega
  have h2 : eccData (cacheKey d' u' set' w') ≠ eccTag (cacheKey d u set w) := by unfold eccData eccTag; omega
  simp only [State.cline, State.setCline, SMap.get_set_ne _ _ hk, SMap.get_drop_ne _ h1, SMap.get_drop_ne _ h2]

/-- Two states agree on the caches of the dies. -/
theorem State.cline_congr (hc : s.cache = t.cache) (he : s.ecc = t.ecc) (d u set w : Nat) : s.cline d u set w = t.cline d u set w := by
  unfold State.cline
  rw [hc, he]

/-! ### The way and the copy of a line -/

/-- The way of the line's set holds it. -/
abbrev State.holds (s : State) (d u l w : Nat) : Bool :=
  (s.cline d u (setOf u l) w).valid && (s.cline d u (setOf u l) w).line == l

theorem State.findWay_eq_some_iff : s.findWay d u l = some w ↔ w < 16 ∧ s.holds d u l w = true ∧ ∀ j, j < w → s.holds d u l j = false := by
  show firstBelow 16 (s.holds d u l) = some w ↔ _
  unfold firstBelow
  rw [List.find?_range_eq_some]
  simp only [List.mem_range, Bool.not_eq_eq_eq_not, Bool.not_true]
  tauto

theorem State.findWay_eq_none_iff : s.findWay d u l = none ↔ ∀ j, j < 16 → s.holds d u l j = false := by
  show firstBelow 16 (s.holds d u l) = none ↔ _
  unfold firstBelow
  simp [List.find?_eq_none]

theorem State.findWay_lt (h : s.findWay d u l = some w) : w < 16 := (State.findWay_eq_some_iff.mp h).1

theorem State.findWay_congr (h : ∀ j, j < 16 → s.holds d u l j = t.holds d u l j) : s.findWay d u l = t.findWay d u l := by
  show firstBelow 16 (s.holds d u l) = firstBelow 16 (t.holds d u l)
  unfold firstBelow
  exact List.find?_congr fun j hj => h j (List.mem_range.mp hj)

theorem State.holds_iff : s.holds d u l w = true ↔ (s.cline d u (setOf u l) w).valid = true ∧ (s.cline d u (setOf u l) w).line = l := by
  simp [State.holds]

theorem State.copyIn_eq_some_iff : s.copyIn d u l = some x ↔ ∃ w, s.findWay d u l = some w ∧ s.cline d u (setOf u l) w = x := by
  simp [State.copyIn]

theorem State.copyIn_eq_none_iff : s.copyIn d u l = none ↔ s.findWay d u l = none := by
  simp [State.copyIn]

theorem State.copyIn_of_findWay (h : s.findWay d u l = some w) : s.copyIn d u l = some (s.cline d u (setOf u l) w) := by
  simp [State.copyIn, h]

/-- A copy is valid, and of its line. -/
theorem State.copyIn_tag (h : s.copyIn d u l = some x) : x.valid = true ∧ x.line = l := by
  obtain ⟨w, hw, rfl⟩ := State.copyIn_eq_some_iff.mp h
  exact State.holds_iff.mp (State.findWay_eq_some_iff.mp hw).2.1

/-- Two states whose ways of a line's set agree agree on its copy. -/
theorem State.copyIn_congr (h : ∀ j, j < 16 → s.cline d u (setOf u l) j = t.cline d u (setOf u l) j) : s.copyIn d u l = t.copyIn d u l := by
  have hw : s.findWay d u l = t.findWay d u l := State.findWay_congr fun j hj => by simp only [State.holds, h j hj]
  unfold State.copyIn
  rw [hw]
  cases hf : t.findWay d u l with
  | none => rfl
  | some w => exact congrArg some (h w (State.findWay_lt hf))

theorem State.findWay_isSome : (s.findWay d u l).isSome = (s.copyIn d u l).isSome := by
  simp [State.copyIn]

/-! ### Changes of a copy -/

theorem State.changeCopy_of_findWay (h : s.findWay d u l = some w) (f : CLine → CLine) :
    s.changeCopy d u l f = s.setCline d u (setOf u l) w (f (s.cline d u (setOf u l) w)) := by
  simp [State.changeCopy, h]

theorem State.changeCopy_of_none (h : s.findWay d u l = none) (f : CLine → CLine) : s.changeCopy d u l f = s := by
  simp [State.changeCopy, h]

theorem State.dropCopy_of_none (h : s.findWay d u l = none) : s.dropCopy d u l = s := State.changeCopy_of_none h _

/-- A line of its own tag put into a way of its set, below which no way holds it, is its copy. -/
theorem State.copyIn_setCline_same (hd : d < 12) (hu : u < 64) (hw : w < 16) (hv : x.valid = true) (hl : x.line = l)
    (hlow : ∀ j, j < w → s.holds d u l j = false) : (s.setCline d u (setOf u l) w x).copyIn d u l = some x := by
  have hin : ∀ j, j < 16 → InCache d u (setOf u l) j := fun j hj => ⟨hd, hu, setOf_lt u l, hj⟩
  refine State.copyIn_eq_some_iff.mpr ⟨w, State.findWay_eq_some_iff.mpr ⟨hw, ?_, fun j hj => ?_⟩, State.cline_setCline_same ..⟩
  · simp [State.holds, hv, hl]
  · have hc := State.cline_setCline_ne (s := s) x (hin w hw) (hin j (by omega)) (by omega)
    simpa only [State.holds, hc] using hlow j hj

theorem State.copyIn_changeCopy_same (hd : d < 12) (hu : u < 64) (h : s.copyIn d u l = some x) (hv : (f x).valid = true)
    (hl : (f x).line = l) : (s.changeCopy d u l f).copyIn d u l = some (f x) := by
  obtain ⟨w, hw, rfl⟩ := State.copyIn_eq_some_iff.mp h
  obtain ⟨hlt, -, hlow⟩ := State.findWay_eq_some_iff.mp hw
  rw [State.changeCopy_of_findWay hw]
  exact State.copyIn_setCline_same hd hu hlt hv hl hlow

/-- A change of a copy leaves the ways of every other structure alone. -/
theorem State.cline_changeCopy_ne (hd : d < 12) (hu : u < 64) (h' : InCache d' u' set' w') (hne : ¬ (d' = d ∧ u' = u)) (l : Nat)
    (f : CLine → CLine) : (s.changeCopy d u l f).cline d' u' set' w' = s.cline d' u' set' w' := by
  cases hw : s.findWay d u l with
  | none => rw [State.changeCopy_of_none hw]
  | some w =>
    rw [State.changeCopy_of_findWay hw]
    exact State.cline_setCline_ne _ ⟨hd, hu, setOf_lt u l, State.findWay_lt hw⟩ h' (by tauto)

theorem State.copyIn_changeCopy_ne (hd : d < 12) (hu : u < 64) (hd' : d' < 12) (hu' : u' < 64) (hne : ¬ (d' = d ∧ u' = u))
    (l l' : Nat) (f : CLine → CLine) : (s.changeCopy d u l f).copyIn d' u' l' = s.copyIn d' u' l' :=
  State.copyIn_congr fun _ hj => State.cline_changeCopy_ne hd hu ⟨hd', hu', setOf_lt u' l', hj⟩ hne l f

/-- A line put over a way that holds neither it nor another line leaves that other line's copy alone. -/
theorem State.copyIn_setCline_line_ne (h : InCache d u set w) (hd' : d' < 12) (hu' : u' < 64)
    (hold : ¬ ((s.cline d u set w).valid = true ∧ (s.cline d u set w).line = l')) (hnew : ¬ (x.valid = true ∧ x.line = l')) :
    (s.setCline d u set w x).copyIn d' u' l' = s.copyIn d' u' l' := by
  have hc : ∀ j, j < 16 → ¬ (d' = d ∧ u' = u ∧ setOf u' l' = set ∧ j = w) →
      (s.setCline d u set w x).cline d' u' (setOf u' l') j = s.cline d' u' (setOf u' l') j :=
    fun j hj hne => State.cline_setCline_ne x h ⟨hd', hu', setOf_lt u' l', hj⟩ hne
  have hh : ∀ j, j < 16 → (s.setCline d u set w x).holds d' u' l' j = s.holds d' u' l' j := by
    intro j hj
    by_cases hne : d' = d ∧ u' = u ∧ setOf u' l' = set ∧ j = w
    · obtain ⟨rfl, rfl, rfl, rfl⟩ := hne
      rw [Bool.eq_iff_iff, State.holds_iff, State.holds_iff, State.cline_setCline_same]
      exact iff_of_false hnew hold
    · simp only [State.holds, hc j hj hne]
  unfold State.copyIn
  rw [State.findWay_congr hh]
  cases hf : s.findWay d' u' l' with
  | none => rfl
  | some j =>
    refine congrArg some (hc j (State.findWay_lt hf) ?_)
    rintro ⟨rfl, rfl, rfl, rfl⟩
    exact hold (State.holds_iff.mp (State.findWay_eq_some_iff.mp hf).2.1)

/-- A change of the copy of one line that keeps its tag leaves the copies of the other lines alone. -/
theorem State.copyIn_changeCopy_line_ne (hd : d < 12) (hu : u < 64) (hd' : d' < 12) (hu' : u' < 64) (hl : l' ≠ l)
    (hf : ∀ y, (f y).line = y.line) : (s.changeCopy d u l f).copyIn d' u' l' = s.copyIn d' u' l' := by
  cases hw : s.findWay d u l with
  | none => rw [State.changeCopy_of_none hw]
  | some w =>
    have hline := (State.holds_iff.mp (State.findWay_eq_some_iff.mp hw).2.1).2
    rw [State.changeCopy_of_findWay hw]
    refine State.copyIn_setCline_line_ne ⟨hd, hu, setOf_lt u l, State.findWay_lt hw⟩ hd' hu' ?_ ?_
    · rw [hline]; exact fun h => hl h.2.symm
    · rw [hf, hline]; exact fun h => hl h.2.symm

end Sys2Proof.Machine

namespace Sys2Proof.Machine
/-! # A record in an error log stands (R430) -/

variable {s t r : State} {n m k : Nat}

/-- The registers of the 512 error logs. -/
def logKey (k : Nat) : Prop := R.ERR_LOG_STAT 0 ≤ k ∧ k < R.ERR_LOG_STAT 512

theorem logKey_stat (hn : n < 512) : logKey (R.ERR_LOG_STAT n) := by
  unfold logKey R.ERR_LOG_STAT; omega

theorem logKey.ne (h : logKey k) {j : Nat} (hj : j < R.ERR_LOG_STAT 0 ∨ R.ERR_LOG_STAT 512 ≤ j) : k ≠ j := by
  obtain ⟨h1, h2⟩ := h
  omega

theorem logKey.not_evqKey (h : logKey k) : ¬ evqKey k := by
  unfold logKey R.ERR_LOG_STAT at h
  unfold evqKey R.ERR_EVQ_IDX R.ERR_EVQ
  omega

/-- The register of a log stands through the raising of an event of another block. -/
theorem State.rd_event_logKey (h : logKey k) {l : Loc} (hl : l.key < R.ERR_LOG_STAT 0 ∨ R.ERR_LOG_STAT 512 ≤ l.key) (a en : Nat) :
    (s.event a l en).rd k = s.rd k := State.rd_event_of_not_evqKey h.not_evqKey (h.ne hl) a en

theorem State.rd_captureInto_logKey (h : logKey k) (j : Nat) (c : Capture) : (s.captureInto j c).rd k = s.rd k :=
  State.rd_captureInto_ne (h.ne (.inr (by decide))) (h.ne (.inr (by decide))) j c

theorem State.rd_captureMissed_logKey (h : logKey k) : s.captureMissed.rd k = s.rd k :=
  (State.rd_event_logKey h (.inr (by decide)) _ _).trans (State.rd_inc_ne _ (h.ne (.inr (by decide))))

theorem State.rd_captureOf_logKey (h : logKey k) (p : State) (a b : Nat) (f : Bool) : (s.captureOf p a b f).1.rd k = s.rd k := by
  unfold State.captureOf
  split
  · dsimp only
    split
    · exact (State.rd_when fun x => State.rd_put_ne _ _ (h.ne (.inr (by decide)))).trans (State.rd_congr (State.pauseHarts_regs _))
    · exact State.rd_captureMissed_logKey h
  · split
    · exact State.rd_captureMissed_logKey h
    · exact State.rd_captureInto_logKey h _ _

/-! ### VALID of a log -/

/-- The log has a record. -/
abbrev State.recorded (s : State) (n : Nat) : Prop := s.get (L.ERR_LOG_STAT.VALID n) = 1

theorem State.recorded_of_rd (h : t.rd (R.ERR_LOG_STAT n) = s.rd (R.ERR_LOG_STAT n)) : t.recorded n ↔ s.recorded n := by
  unfold State.recorded State.get
  rw [h]

/-- A count of a log leaves its VALID alone. -/
theorem State.recorded_put_count (n m v : Nat) : (s.put (L.ERR_LOG_STAT.COUNT n) v).recorded m ↔ s.recorded m := by
  by_cases hm : m = n
  · subst hm
    exact Eq.congr_left (State.get_put_beside s v rfl (.inr (by simp)) (by simp))
  · exact State.recorded_of_rd (State.rd_put_ne _ _ (by simp [R.ERR_LOG_STAT]; omega))

/-- A log that takes four words as its first record holds the first of them. -/
theorem State.rd_putRecord_same (ws : List Word) : (s.putRecord n ws).rd (R.ERR_LOG_STAT n) = ws.getD 0 0 := by
  unfold State.putRecord
  rw [State.rd_wr_ne _ _ (by simp [R.ERR_LOG_STAT, R.ERR_LOG_INFO]), State.rd_wr_ne _ _ (by simp [R.ERR_LOG_STAT, R.ERR_LOG_FRAME]),
    State.rd_wr_ne _ _ (by simp [R.ERR_LOG_STAT, R.ERR_LOG_ADDR]), State.rd_wr_same]

theorem State.rd_putRecord_ne (hm : m ≠ n) (ws : List Word) : (s.putRecord n ws).rd (R.ERR_LOG_STAT m) = s.rd (R.ERR_LOG_STAT m) := by
  unfold State.putRecord
  rw [State.rd_wr_ne _ _ (by simp [R.ERR_LOG_STAT, R.ERR_LOG_INFO]; omega),
    State.rd_wr_ne _ _ (by simp [R.ERR_LOG_STAT, R.ERR_LOG_FRAME]; omega),
    State.rd_wr_ne _ _ (by simp [R.ERR_LOG_STAT, R.ERR_LOG_ADDR]; omega), State.rd_wr_ne _ _ (by simp [R.ERR_LOG_STAT]; omega)]

theorem State.recorded_setFresh (ws : List Word) : (s.setFresh n ws).recorded m ↔ s.recorded m := Iff.rfl

/-- A record whose first word has the bit of VALID, as every record has, marks its log. -/
theorem State.takeRecord_recorded (cause : Nat) {ws : List Word} (hv : fieldOf (ws.getD 0 0) 63 1 = 1) :
    (s.takeRecord n cause ws).recorded n := by
  have hput : ∀ c, ((s.putRecord n ws).put (L.ERR_LOG_STAT.COUNT n) c).recorded n := fun c =>
    (State.recorded_put_count n n c).mpr (by unfold State.recorded State.get; rw [State.rd_putRecord_same]; exact hv)
  unfold State.takeRecord
  dsimp only
  split
  · exact (State.recorded_setFresh _).mpr (hput _)
  · rename_i h0
    have h1 : s.recorded n := by
      have := State.get_lt s (L.ERR_LOG_STAT.VALID n)
      simp only at this
      unfold State.recorded
      omega
    split
    · exact h1
    · split
      · rw [State.recorded_setFresh]
        split
        · exact hput _
        · exact h1
      · exact h1

/-- A record in one log leaves the others alone. -/
theorem State.takeRecord_recorded_ne (hm : m ≠ n) (cause : Nat) (ws : List Word) :
    (s.takeRecord n cause ws).recorded m ↔ s.recorded m := by
  have hput : ∀ c, ((s.putRecord n ws).put (L.ERR_LOG_STAT.COUNT n) c).recorded m ↔ s.recorded m := fun c =>
    (State.recorded_put_count n m c).trans (State.recorded_of_rd (State.rd_putRecord_ne hm ws))
  unfold State.takeRecord
  dsimp only
  split
  · exact hput _
  · split
    · exact Iff.rfl
    · split
      · rw [State.recorded_setFresh]
        split
        · exact hput _
        · exact Iff.rfl
      · exact Iff.rfl

/-- The first word of a record has the bit of VALID. -/
theorem record_valid (detail cause : Nat) :
    fieldOf (BitVec.ofNat 64 ((1 <<< 63) + (detail % 256) <<< 8 + cause % 256)) 63 1 = 1 := by
  have h1 : detail % 256 < 256 := Nat.mod_lt _ (by decide)
  have h2 : cause % 256 < 256 := Nat.mod_lt _ (by decide)
  simp only [fieldOf, BitVec.toNat_ofNat, Nat.shiftRight_eq_div_pow, Nat.shiftLeft_eq]
  omega

/-- What a record leaves alone once its log has taken it. -/
theorem State.logRec_recorded_iff (hm : m < 512) (cause detail addr : Nat) (c : Issuer) (aux : Nat) : ∃ ws,
    fieldOf (ws.getD 0 0) 63 1 = 1 ∧
    ((s.logRec n cause detail addr c aux).recorded m ↔ (s.takeRecord n (cause % 256) ws).recorded m) := by
  have hk := logKey_stat hm
  refine ⟨[BitVec.ofNat 64 ((1 <<< 63) + (detail % 256) <<< 8 + cause % 256), BitVec.ofNat 64 (addr % 2 ^ 48 + tagBits c),
    BitVec.ofNat 64 s.frame, BitVec.ofNat 64 (s.offset % 2 ^ 24 + ((aux % 2 ^ 16) <<< 24))], record_valid detail cause, ?_⟩
  unfold State.logRec
  dsimp only
  split
  · exact ((State.recorded_of_rd (State.rd_captureOf_logKey hk _ _ _ _)).trans
      (State.recorded_of_rd (State.rd_evqPush_of_not_evqKey hk.not_evqKey _ _ _ _))).trans (State.recorded_put_count n m _)
  · exact (State.recorded_of_rd (State.rd_evqPush_of_not_evqKey hk.not_evqKey _ _ _ _)).trans (State.recorded_put_count n m _)

theorem State.logRec_recorded_same (hn : n < 512) (cause detail addr : Nat) (c : Issuer) (aux : Nat) :
    (s.logRec n cause detail addr c aux).recorded n := by
  obtain ⟨ws, hv, hiff⟩ := State.logRec_recorded_iff (s := s) (n := n) hn cause detail addr c aux
  exact hiff.mpr (State.takeRecord_recorded _ hv)

theorem State.logRec_recorded_kept (hm : m < 512) (h : s.recorded m) (n cause detail addr : Nat) (c : Issuer) (aux : Nat) :
    (s.logRec n cause detail addr c aux).recorded m := by
  obtain ⟨ws, hv, hiff⟩ := State.logRec_recorded_iff (s := s) (n := n) hm cause detail addr c aux
  refine hiff.mpr ?_
  by_cases he : m = n
  · subst he; exact State.takeRecord_recorded _ hv
  · exact (State.takeRecord_recorded_ne he _ _).mpr h

/-- A stop of the domain leaves no log without the record that it had. -/
theorem State.fatalStop_recorded_kept (hm : m < 512) (h : s.recorded m) (n code line src : Nat) : (s.fatalStop n code line src).recorded m := by
  have hk := logKey_stat hm
  have hha : ∀ (x : State) (i : Nat), ((x.put (L.HA_STATUS.STOPPED i) 1).haEvent i (L.HA_EVT.FATAL i)).rd (R.ERR_LOG_STAT m) =
      x.rd (R.ERR_LOG_STAT m) := fun x i =>
    (State.rd_event_logKey hk (.inr (by simp [R.ERR_LOG_STAT, R.HA_EVT]; omega)) _ _).trans
      (State.rd_put_ne _ _ (hk.ne (.inr (by simp [R.ERR_LOG_STAT, R.HA_STATUS]; omega))))
  have hcsq : ∀ (x : State) (q : Nat), (x.csqStopNow q).rd (R.ERR_LOG_STAT m) = x.rd (R.ERR_LOG_STAT m) := fun x q => by
    unfold State.csqStopNow State.clearSlots
    rw [State.rd_put_ne _ _ (hk.ne (.inr (by simp [R.ERR_LOG_STAT, R.CSQ_STATUS]; omega))),
      State.rd_put_ne _ _ (hk.ne (.inr (by simp [R.ERR_LOG_STAT, R.CSQ_TRACK]; omega))),
      State.rd_put_ne _ _ (hk.ne (.inr (by simp [R.ERR_LOG_STAT, R.CSQ_TRACK]; omega)))]
    rfl
  have hcap : ∀ x : State, x.fatalCapture.rd (R.ERR_LOG_STAT m) = x.rd (R.ERR_LOG_STAT m) := fun x => by
    unfold State.fatalCapture
    dsimp only
    refine (State.rd_captureInto_logKey hk _ _).trans ?_
    split
    · exact State.rd_put_ne _ _ (hk.ne (.inr (by decide)))
    · rfl
  have hend : ∀ x : State, ({ x.put L.PMC_CTL.FREEZE 1 with faultN := true, txIdle := true } : State).fatalCapture.rd (R.ERR_LOG_STAT m) =
      x.rd (R.ERR_LOG_STAT m) := fun x => (hcap _).trans (State.rd_put_ne _ _ (hk.ne (.inr (by decide))))
  unfold State.fatalStop
  split
  · exact (State.recorded_put_count n m _).mpr h
  · exact (State.recorded_of_rd ((hend _).trans ((State.rd_forAll hcsq _).trans (State.rd_forAll hha _)))).mpr
      (State.logRec_recorded_kept hm h n Cause.FATAL code (64 * line) (unitIssuer true) src)

end Sys2Proof.Machine

namespace Sys2Proof.Machine
/-! # Changes of copies write no register and mark no word (R143) -/

variable {r s t : State} {F : List Kind}

/-- The registers stand, and no word of `s` has a mark of an error that it has not in `r`. -/
structure Heals (r s : State) : Prop where
  regs : s.regs = r.regs
  ecc : s.ecc ⊆ r.ecc

theorem Heals.refl (s : State) : Heals s s := ⟨rfl, List.Subset.refl _⟩

theorem Heals.trans (h : Heals r s) (h' : Heals s t) : Heals r t := ⟨h'.regs.trans h.regs, List.Subset.trans h'.ecc h.ecc⟩

/-- An operation that keeps registers and marks, as its list of kinds says. -/
theorem Heals.of_keeps (h : Keeps F r s) (hr : Kind.regs ∉ F) (he : Kind.ecc ∉ F) : Heals r s :=
  ⟨h.frame .regs hr, (h.frame .ecc he : s.ecc = r.ecc) ▸ List.Subset.refl _⟩

theorem Heals.forAll {α : Type} {f : State → α → State} (hf : ∀ x a, Heals x (f x a)) (l : List α) (s : State) : Heals s (s.forAll l f) := by
  unfold State.forAll
  induction l generalizing s with
  | nil => exact .refl s
  | cons a l ih => exact (hf s a).trans (ih _)

/-- A choice between two operations that both keep registers and mark nothing. -/
theorem Heals.ite {p : Prop} [Decidable p] (hs : p → Heals r s) (ht : ¬ p → Heals r t) : Heals r (if p then s else t) := by
  split
  · exact hs ‹_›
  · exact ht ‹_›

theorem Heals.sameRegs (h : Heals r s) (ks : List Nat) : SameRegsBut ks r s := fun _ _ => State.rd_congr h.regs

theorem SMap.drop_subset {α : Type} (m : SMap α) (k : Nat) : SMap.drop m k ⊆ m := by
  induction m with
  | nil => exact List.Subset.refl _
  | cons p t ih =>
    obtain ⟨a, v⟩ := p
    unfold SMap.drop
    split
    · exact List.subset_cons_of_subset _ ih
    · exact List.cons_subset_cons _ ih

/-- A die that meets no uncorrectable error meets none after a change that marks none. -/
theorem Heals.dieEcc (h : Heals r s) {d l : Nat} (hr : r.dieEcc d l = false) : s.dieEcc d l = false := by
  unfold State.dieEcc at *
  rw [List.any_eq_false] at hr ⊢
  exact fun p hp => hr p (h.ecc hp)

/-! ### The changes of copies -/

theorem State.dropEcc_heals (s : State) (k : Nat) : Heals s (s.dropEcc k) := ⟨rfl, SMap.drop_subset _ _⟩

theorem State.setCline_heals (s : State) (d u set w : Nat) (x : CLine) : Heals s (s.setCline d u set w x) :=
  ⟨rfl, List.Subset.trans (SMap.drop_subset _ _) (SMap.drop_subset _ _)⟩

theorem State.changeCopy_heals (s : State) (d u l : Nat) (f : CLine → CLine) : Heals s (s.changeCopy d u l f) := by
  unfold State.changeCopy
  split
  · exact State.setCline_heals _ _ _ _ _ _
  · exact .refl _

theorem State.dropCopy_heals (s : State) (d u l : Nat) : Heals s (s.dropCopy d u l) := State.changeCopy_heals _ _ _ _ _

theorem State.collapse_heals (s : State) (d c l : Nat) : Heals s (s.collapse d c l) :=
  .forAll (fun x k => by
    split
    · split
      · exact (State.changeCopy_heals _ _ _ _ _).trans (State.changeCopy_heals _ _ _ _ _)
      · exact .refl _
    · exact .refl _) _ _

theorem State.collapseDie_heals (s : State) (d l : Nat) : Heals s (s.collapseDie d l) :=
  .forAll (fun x c => x.collapse_heals d c l) _ _

theorem State.dropCluster_heals (s : State) (d c l : Nat) : Heals s (s.dropCluster d c l) :=
  (Heals.forAll (fun x k => (x.dropCopy_heals d (uL1d k) l).trans (State.dropCopy_heals _ _ _ _)) _ _).trans (State.dropCopy_heals _ _ _ _)

theorem State.dropDie_heals (s : State) (d l : Nat) : Heals s (s.dropDie d l) :=
  (Heals.forAll (fun x c => x.dropCluster_heals d c l) _ _).trans (State.dropCopy_heals _ _ _ _)

theorem State.cleanDie_heals (s : State) (d l : Nat) (keepE : Bool) : Heals s (s.cleanDie d l keepE) :=
  (s.collapseDie_heals d l).trans (.forAll (fun x u => x.changeCopy_heals d u l _) _ _)

theorem State.sliceWb_heals (s : State) (d l : Nat) (data : Bytes) (poison keep sealed : Bool) :
    Heals s (s.sliceWb d l data poison keep sealed) :=
  .of_keeps (F := [.out, .slices, .wbTag]) (State.sliceWb_keeps (by decide) (by decide) (by decide) Keeps.refl d l data poison keep sealed)
    (by decide) (by decide)

end Sys2Proof.Machine

namespace Sys2Proof.Machine
/-! # Cache maintenance by set and way (R156, R157) -/

variable {r s t : State} {d u set w op : Nat} {v : Word} {c : Issuer}

/-! ### The operation on lines -/

/-- On a die without an uncorrectable error the operation on a way writes no register. -/
theorem State.swopLine_heals (h : ∀ l, s.dieEcc d l = false) (u set w op : Nat) : Heals s (s.swopLine d u set w op) := by
  have hcollapse : ∀ c l, Heals s (if op = 1 then s else if u < 45 then s.collapse d c l else s) := fun c l => by
    split_ifs
    · exact .refl s
    · exact s.collapse_heals d c l
    · exact .refl s
  have hdrop : ∀ (x : State) c l, Heals x (if u < 36 then x.dropCopy d u l else if u < 45 then x.dropCluster d c l else x.dropCopy d u l) :=
    fun x c l => by
      split_ifs
      · exact x.dropCopy_heals d u l
      · exact x.dropCluster_heals d c l
      · exact x.dropCopy_heals d u l
  have hwb : ∀ (x : State) l (y : CLine) world, Heals x ((x.cleanDie d l true).sliceWb d l y.data y.poison true world) := fun x l y world =>
    (x.cleanDie_heals d l true).trans (State.sliceWb_heals _ _ _ _ _ _ _)
  refine .ite (fun _ => .refl s) fun _ => .ite (fun he => absurd he (Bool.eq_false_iff.mp (h _))) fun _ => .ite (fun _ => .refl s) fun _ =>
    (hcollapse _ _).trans (.ite (fun _ => .ite (fun _ => .ite (fun _ => hwb _ _ _ _) fun _ => (hwb _ _ _ _).trans (hdrop _ _ _)) fun _ =>
      (State.dropDie_heals _ _ _).trans (State.sliceWb_heals _ _ _ _ _ _ _)) fun _ => .ite (fun _ => .refl _) fun _ => hdrop _ _ _)

/-- An invalidation sends nothing: it changes copies alone. -/
theorem State.swopLine_discard_keeps (hr : Keeps [.ecc, .cache] r s) (h : s.dieEcc d (s.cline d u set w).line = false) :
    Keeps [.ecc, .cache] r (s.swopLine d u set w 1) := by
  unfold State.swopLine
  simp only [h, Bool.false_eq_true, if_false, if_true, bne_self_eq_false, Bool.false_and, one_ne_zero]
  exact .ite hr (.ite hr (.ite (State.dropCopy_keeps (by decide) (by decide) hr _ _ _)
    (.ite (State.dropCluster_keeps (by decide) (by decide) hr _ _ _) (State.dropCopy_keeps (by decide) (by decide) hr _ _ _))))

/-- A line of a slice that no transaction holds leaves its way. -/
theorem State.swopLine_discard_slice (hstop : ¬ s.stopped) (h : s.dieEcc d (s.cline d u set w).line = false) (hu : 45 ≤ u)
    (hbusy : s.lineBusy d (s.cline d u set w).line = false) (hway : s.findWay d u (s.cline d u set w).line = some w)
    (hset : setOf u (s.cline d u set w).line = set) : (s.swopLine d u set w 1).cline d u set w = default := by
  have hvalid : (s.cline d u set w).valid = true := by
    have := (State.holds_iff.mp (State.findWay_eq_some_iff.mp hway).2.1).1
    rwa [hset] at this
  have h36 : ¬ u < 36 := by omega
  have h45 : ¬ u < 45 := by omega
  unfold State.swopLine
  simp only [h, hbusy, hvalid, hstop, h36, h45, Bool.true_eq_false, Bool.false_eq_true, if_false, if_true, bne_self_eq_false,
    Bool.false_and, one_ne_zero, ne_eq, not_true_eq_false, false_and, and_false, or_self]
  unfold State.dropCopy
  rw [State.changeCopy_of_findWay hway, hset]
  have hclear := State.cline_setCline_same s d u set w default
  simp only [hclear]

/-- Every line, or the named one: the run keeps what each line's operation keeps. -/
theorem State.swopRun_heals (h : ∀ l, s.dieEcc d l = false) : Heals s (s.swopRun d) := by
  unfold State.swopRun
  split
  · exact .refl s
  · dsimp only
    split
    · unfold State.forAll
      refine List.foldlRecOn (motive := Heals s) _ _ (.refl s) fun x hx p _ => hx.trans (State.swopLine_heals (fun l => hx.dieEcc (h l)) _ _ _ _)
    · exact State.swopLine_heals h _ _ _ _

/-- A run that invalidates sends nothing. -/
theorem State.swopRun_discard_keeps (h : ∀ l, s.dieEcc d l = false) (hop : s.get (L.WLD_SWOP.OP d) = 1) :
    Keeps [.ecc, .cache] s (s.swopRun d) := by
  unfold State.swopRun
  split
  · exact .refl
  · dsimp only
    rw [hop]
    split
    · unfold State.forAll
      refine (List.foldlRecOn (motive := fun x => Keeps [.ecc, .cache] s x ∧ Heals s x) _ _ ⟨.refl, .refl s⟩ fun x hx p _ => ?_).1
      have hx' := fun l => hx.2.dieEcc (h l)
      exact ⟨State.swopLine_discard_keeps hx.1 (hx' _), hx.2.trans (State.swopLine_heals hx' _ _ _ _)⟩
    · exact State.swopLine_discard_keeps .refl (h _)

/-! ### The write that starts it -/

/-- The fields of WLD_SWOP as a write leaves them. -/
def State.takeSwop (s : State) (d : Nat) (v : Word) : State :=
  (((((s.put (L.WLD_SWOP.SET d) (fieldOf v 20 14)).put (L.WLD_SWOP.WAY d) (fieldOf v 16 4)).put (L.WLD_SWOP.ALL d) (fieldOf v 9 1)).put
    (L.WLD_SWOP.UNIT d) (fieldOf v 4 5)).put (L.WLD_SWOP.LEVEL d) (fieldOf v 2 2)).put (L.WLD_SWOP.OP d) (fieldOf v 0 2)

/-- The state in which the operation starts. -/
def State.startSwop (s : State) (d : Nat) (v : Word) : State := (s.takeSwop d v).put (L.WLD_SWSTAT.BUSY d) 1

/-- What a write with GO does for the Sealed world, while no operation runs. -/
theorem State.writeSwop_of_go (hw : c.sealed = true) (hb : s.get (L.WLD_SWSTAT.BUSY d) = 0) (hop : fieldOf v 0 2 ≠ 3)
    (hgo : v.getLsbD 63 = true) : s.writeSwop d c v.toNat =
      if (s.takeSwop d v).swopBad d then ((s.takeSwop d v).raise (L.WLD_SWSTAT.ERR d)).raise (L.WLD_SWSTAT.DONE d)
      else (s.startSwop d v).swopRun d := by
  have hb1 : ¬ s.get (L.WLD_SWSTAT.BUSY d) = 1 := by omega
  unfold State.writeSwop
  rw [if_neg (by simp [hw]), if_neg hb1, if_neg (show ¬ bits v.toNat 1 0 = 3 from hop)]
  exact if_pos hgo

theorem State.get_put_field (s : State) (l : Loc) (v : Word) (h : l.lo + l.width ≤ 64) (lo : Nat) :
    (s.put l (fieldOf v lo l.width)).get l = fieldOf v lo l.width :=
  State.get_put_fit _ _ _ h (Nat.mod_lt _ (Nat.two_pow_pos _))

theorem State.get_put_below (s : State) {l m : Loc} (v : Nat) (hk : m.key = l.key) (h : l.lo + l.width ≤ m.lo) (hm : m.lo + m.width ≤ 64) :
    (s.put l v).get m = s.get m := State.get_put_beside s v hk (.inr h) hm

theorem State.get_takeSwop_op : (s.takeSwop d v).get (L.WLD_SWOP.OP d) = fieldOf v 0 2 := by
  unfold State.takeSwop
  exact State.get_put_field _ (L.WLD_SWOP.OP d) v (by simp) 0

theorem State.get_takeSwop_level : (s.takeSwop d v).get (L.WLD_SWOP.LEVEL d) = fieldOf v 2 2 := by
  unfold State.takeSwop
  rw [State.get_put_below _ _ (by rfl) (by simp) (by simp)]
  exact State.get_put_field _ (L.WLD_SWOP.LEVEL d) v (by simp) 2

theorem State.get_takeSwop_unit : (s.takeSwop d v).get (L.WLD_SWOP.UNIT d) = fieldOf v 4 5 := by
  unfold State.takeSwop
  iterate 2 rw [State.get_put_below _ _ (by rfl) (by simp) (by simp)]
  exact State.get_put_field _ (L.WLD_SWOP.UNIT d) v (by simp) 4

theorem State.get_takeSwop_all : (s.takeSwop d v).get (L.WLD_SWOP.ALL d) = fieldOf v 9 1 := by
  unfold State.takeSwop
  iterate 3 rw [State.get_put_below _ _ (by rfl) (by simp) (by simp)]
  exact State.get_put_field _ (L.WLD_SWOP.ALL d) v (by simp) 9

theorem State.get_takeSwop_way : (s.takeSwop d v).get (L.WLD_SWOP.WAY d) = fieldOf v 16 4 := by
  unfold State.takeSwop
  iterate 4 rw [State.get_put_below _ _ (by rfl) (by simp) (by simp)]
  exact State.get_put_field _ (L.WLD_SWOP.WAY d) v (by simp) 16

theorem State.get_takeSwop_set : (s.takeSwop d v).get (L.WLD_SWOP.SET d) = fieldOf v 20 14 := by
  unfold State.takeSwop
  iterate 5 rw [State.get_put_below _ _ (by rfl) (by simp) (by simp)]
  exact State.get_put_field _ (L.WLD_SWOP.SET d) v (by simp) 20

theorem State.rd_takeSwop_ne {k : Nat} (hk : k ≠ R.WLD_SWOP d) (v : Word) : (s.takeSwop d v).rd k = s.rd k := by
  unfold State.takeSwop
  iterate 6 rw [State.rd_put_ne _ _ hk]

theorem State.pitonWay_takeSwop (sl w : Nat) (v : Word) : (s.takeSwop d v).pitonWay d sl w = s.pitonWay d sl w := by
  have h : (s.takeSwop d v).get (L.WLD_L3WAY.PITON d sl) = s.get (L.WLD_L3WAY.PITON d sl) :=
    State.get_congr (State.rd_takeSwop_ne (by simp [R.WLD_L3WAY, R.WLD_SWOP]; omega) v)
  show _ = _
  unfold State.pitonWay
  rw [h]
  rfl

/-- Whether the place of the operation exists is told by the word of the write. -/
theorem State.swopBad_takeSwop : (s.takeSwop d v).swopBad d = match swopUnit (fieldOf v 2 2) (fieldOf v 4 5) with
    | none => true
    | some u => fieldOf v 9 1 != 1 && (decide (setsOf u ≤ fieldOf v 20 14) || (45 ≤ u && s.pitonWay d (u - 45) (fieldOf v 16 4))) := by
  unfold State.swopBad
  simp only [State.get_takeSwop_level, State.get_takeSwop_unit, State.get_takeSwop_all, State.get_takeSwop_set, State.get_takeSwop_way,
    State.pitonWay_takeSwop] <;> rfl

/-! ### The started operation -/

theorem State.rd_startSwop_ne {k : Nat} (hk : k ≠ R.WLD_SWOP d) (hk' : k ≠ R.WLD_SWSTAT d) (v : Word) : (s.startSwop d v).rd k = s.rd k :=
  (State.rd_put_ne _ _ hk').trans (State.rd_takeSwop_ne hk v)

theorem State.get_startSwop {l : Loc} (hl : l.key = R.WLD_SWOP d) (v : Word) : (s.startSwop d v).get l = (s.takeSwop d v).get l :=
  State.get_put_key _ _ (by rw [hl]; simp)

/-- An access by the Sealed world to the register of a die that is there. -/
theorem State.issue_writeSwop_of_go (hs : Sends s c) (hw : c.sealed = true) (hd : s.dieIn d = true) (hb : s.get (L.WLD_SWSTAT.BUSY d) = 0)
    (hop : fieldOf v 0 2 ≠ 3) (hgo : v.getLsbD 63 = true) :
    s.issue c (fun c s => s.dieAccess d (R.WLD_SWOP d) c (fun s => s.writeSwop d c v.toNat)) =
      if ((s.answer .ok).takeSwop d v).swopBad d then (((s.answer .ok).takeSwop d v).raise (L.WLD_SWSTAT.ERR d)).raise (L.WLD_SWSTAT.DONE d)
      else ((s.answer .ok).startSwop d v).swopRun d := by
  rw [State.issue_of_sends hs]
  unfold State.dieAccess
  rw [if_pos hd]
  exact State.writeSwop_of_go hw hb hop hgo

/-- The place that the write names exists, and lies in no Piton way. -/
theorem State.swopBad_of_place (hu : swopUnit (fieldOf v 2 2) (fieldOf v 4 5) = some u)
    (hplace : fieldOf v 9 1 = 1 ∨ fieldOf v 20 14 < setsOf u ∧ (45 ≤ u → s.pitonWay d (u - 45) (fieldOf v 16 4) = false)) :
    (s.takeSwop d v).swopBad d = false := by
  rw [State.swopBad_takeSwop, hu]
  rcases hplace with hall | ⟨hset, hway⟩
  · simp [hall]
  · by_cases h45 : 45 ≤ u
    · simp [hset, hway h45]
    · simp [hset, h45]

theorem State.swopBad_of_none (hu : swopUnit (fieldOf v 2 2) (fieldOf v 4 5) = none) : (s.takeSwop d v).swopBad d = true := by
  rw [State.swopBad_takeSwop, hu]

/-- What the start leaves: the operation in WLD_SWOP, BUSY, and no other register changed. -/
theorem State.swopRun_startSwop (h : ∀ l, s.dieEcc d l = false) (v : Word) :
    ((s.startSwop d v).swopRun d).resp = s.resp ∧ ((s.startSwop d v).swopRun d).get (L.WLD_SWSTAT.BUSY d) = 1 ∧
    (∀ l : Loc, l.key = R.WLD_SWOP d → ((s.startSwop d v).swopRun d).get l = (s.takeSwop d v).get l) ∧
    SameRegsBut [R.WLD_SWOP d, R.WLD_SWSTAT d] s ((s.startSwop d v).swopRun d) := by
  have hheals : Heals (s.startSwop d v) ((s.startSwop d v).swopRun d) := State.swopRun_heals h
  have hrd : ∀ k, ((s.startSwop d v).swopRun d).rd k = (s.startSwop d v).rd k := fun k => State.rd_congr hheals.regs
  have hkept : Keeps [.regs, .out, .newtIrq, .fieldOps, .paused, .csq, .ecc, .cache, .slices, .wbTag, .faultN, .txIdle, .caps, .capBusy]
      (s.startSwop d v) ((s.startSwop d v).swopRun d) :=
    State.swopRun_keeps (by decide) (by decide) (by decide) (by decide) (by decide) (by decide) (by decide) (by decide) (by decide) (by decide)
      (by decide) (by decide) (by decide) (by decide) .refl d
  refine ⟨(hkept.frame .resp (by decide) : _ = (s.startSwop d v).resp), (State.get_congr (hrd _)).trans (State.get_put_fit _ _ _ (by simp) (by simp)),
    fun l hl => (State.get_congr (hrd _)).trans (State.get_startSwop hl v), fun k hk => (hrd k).trans ?_⟩
  simp only [List.mem_cons, List.not_mem_nil, or_false, not_or] at hk
  exact State.rd_startSwop_ne hk.1 hk.2 v

/-- An invalidation of one way of a slice clears it. -/
theorem State.swopRun_startSwop_slice (hu : swopUnit (fieldOf v 2 2) (fieldOf v 4 5) = some u) (h45 : 45 ≤ u) (hstop : ¬ s.stopped)
    (h : ∀ l, s.dieEcc d l = false) (hop : fieldOf v 0 2 = 1) (hall : fieldOf v 9 1 = 0)
    (hbusy : s.lineBusy d (s.cline d u (fieldOf v 20 14) (fieldOf v 16 4)).line = false)
    (hway : s.findWay d u (s.cline d u (fieldOf v 20 14) (fieldOf v 16 4)).line = some (fieldOf v 16 4))
    (hset : setOf u (s.cline d u (fieldOf v 20 14) (fieldOf v 16 4)).line = fieldOf v 20 14) :
    ((s.startSwop d v).swopRun d).cline d u (fieldOf v 20 14) (fieldOf v 16 4) = default := by
  have hget : ∀ l : Loc, l.key = R.WLD_SWOP d → (s.startSwop d v).get l = (s.takeSwop d v).get l := fun l hl => State.get_startSwop hl v
  have hstop' : ¬ (s.startSwop d v).stopped := by
    have : (s.startSwop d v).get (L.HA_STATUS.STOPPED 0) = s.get (L.HA_STATUS.STOPPED 0) :=
      State.get_congr (State.rd_startSwop_ne (by simp [R.HA_STATUS, R.WLD_SWOP]; omega) (by simp [R.HA_STATUS, R.WLD_SWSTAT]; omega) v)
    unfold State.stopped at *
    rwa [this]
  unfold State.swopRun
  simp only [hget (L.WLD_SWOP.LEVEL d) rfl, hget (L.WLD_SWOP.UNIT d) rfl, hget (L.WLD_SWOP.ALL d) rfl, hget (L.WLD_SWOP.SET d) rfl,
    hget (L.WLD_SWOP.WAY d) rfl, hget (L.WLD_SWOP.OP d) rfl, State.get_takeSwop_level, State.get_takeSwop_unit, State.get_takeSwop_op,
    State.get_takeSwop_all, State.get_takeSwop_set, State.get_takeSwop_way, hu, hop, hall, Nat.zero_ne_one, if_false]
  exact State.swopLine_discard_slice hstop' (h _) h45 hbusy hway hset

/-! ### Refusals and the end -/

theorem State.get_raise_beside (s : State) {l m : Loc} (hk : m.key = l.key) (h : m.lo + m.width ≤ l.lo ∨ l.lo + l.width ≤ m.lo)
    (hm : m.lo + m.width ≤ 64) : (s.raise l).get m = s.get m := State.get_put_beside s 1 hk h hm

/-- A place that does not exist shows ERR and DONE. -/
theorem State.takeSwop_failed (s : State) (d : Nat) (v : Word) {t : State}
    (ht : ((s.takeSwop d v).raise (L.WLD_SWSTAT.ERR d)).raise (L.WLD_SWSTAT.DONE d) = t) :
    t.get (L.WLD_SWSTAT.ERR d) = 1 ∧ t.get (L.WLD_SWSTAT.DONE d) = 1 ∧ t.get (L.WLD_SWSTAT.BUSY d) = s.get (L.WLD_SWSTAT.BUSY d) ∧
    t.cache = s.cache ∧ SameRegsBut [R.WLD_SWOP d, R.WLD_SWSTAT d] s t := by
  subst ht
  refine ⟨?_, State.get_raise_same _ _ (by simp) (by simp), ?_, rfl, fun k hk => ?_⟩
  · rw [State.get_raise_beside _ (by rfl) (.inr (by simp)) (by simp)]
    exact State.get_raise_same _ _ (by simp) (by simp)
  · iterate 2 rw [State.get_raise_beside _ (by rfl) (.inl (by simp)) (by simp)]
    exact State.get_congr (State.rd_takeSwop_ne (by simp) v)
  · simp only [List.mem_cons, List.not_mem_nil, or_false, not_or] at hk
    exact (State.rd_raise_ne _ hk.2).trans ((State.rd_raise_ne _ hk.2).trans (State.rd_takeSwop_ne hk.1 v))

/-- The end clears BUSY and shows DONE. -/
theorem State.showDone (s : State) (d : Nat) {t : State} (ht : (s.put (L.WLD_SWSTAT.BUSY d) 0).raise (L.WLD_SWSTAT.DONE d) = t) :
    t.get (L.WLD_SWSTAT.BUSY d) = 0 ∧ t.get (L.WLD_SWSTAT.DONE d) = 1 ∧ t.cache = s.cache ∧ SameRegsBut [R.WLD_SWSTAT d] s t := by
  subst ht
  refine ⟨?_, State.get_raise_same _ _ (by simp) (by simp), rfl, fun k hk => ?_⟩
  · rw [State.get_raise_beside _ (by rfl) (.inl (by simp)) (by simp)]
    exact State.get_put_fit _ _ _ (by simp) (by simp)
  · rw [List.mem_singleton] at hk
    exact (State.rd_raise_ne _ hk).trans (State.rd_put_ne _ _ hk)

theorem State.logRec_cache (s : State) (n a b x : Nat) (c : Issuer) (aux : Nat) : (s.logRec n a b x c aux).cache = s.cache :=
  (State.logRec_keeps (F := [.regs, .newtIrq, .fieldOps, .paused, .caps, .capBusy]) (by decide) (by decide) (by decide) (by decide) (by decide)
    (by decide) .refl n a b x c aux).frame .cache (by decide)

/-- A write of the Open world, one while an operation runs and one with the reserved operation are refused. -/
theorem State.writeSwop_refused (hd : d < 12) (h : c.sealed = false ∨ s.get (L.WLD_SWSTAT.BUSY d) = 1 ∨ fieldOf v 0 2 = 3) :
    Refused s (s.writeSwop d c v.toNat) ∧ (s.writeSwop d c v.toNat).cache = s.cache := by
  have hn : dieLog d < 512 := by unfold dieLog; omega
  have hviol : ∀ n a, Refused s (s.violation (dieLog d) n a c) ∧ (s.violation (dieLog d) n a c).cache = s.cache :=
    fun n a => ⟨State.violation_refused hn n a c, State.logRec_cache s _ _ _ _ _ _⟩
  unfold State.writeSwop
  by_cases hw : c.sealed = false
  · rw [if_pos hw]
    exact ⟨State.worldError_refused hn _ c, State.logRec_cache s _ _ _ _ _ _⟩
  rw [if_neg hw]
  by_cases hb : s.get (L.WLD_SWSTAT.BUSY d) = 1
  · rw [if_pos hb]
    exact hviol _ _
  rw [if_neg hb, if_pos (show bits v.toNat 1 0 = 3 from (h.resolve_left hw).resolve_left hb)]
  exact hviol _ _

theorem State.issue_writeSwop_refused (hs : Sends s c) (hd : d < 12)
    (h : c.sealed = false ∨ s.get (L.WLD_SWSTAT.BUSY d) = 1 ∨ fieldOf v 0 2 = 3) :
    Refused s (s.issue c (fun c s => s.dieAccess d (R.WLD_SWOP d) c (fun s => s.writeSwop d c v.toNat))) ∧
    (s.issue c (fun c s => s.dieAccess d (R.WLD_SWOP d) c (fun s => s.writeSwop d c v.toNat))).cache = s.cache := by
  rw [State.issue_of_sends hs]
  unfold State.dieAccess
  split
  · exact State.writeSwop_refused (s := s.answer .ok) hd h
  · exact ⟨⟨rfl, fun k _ hk => State.rd_logRec hk (by unfold dieLog; omega) _ _ _ _ _⟩, State.logRec_cache s _ _ _ _ _ _⟩

/-! ### The obligation -/

/-- Settles O27: a started operation is swopRun of the state with BUSY, and what that does to lines writes no register. -/
theorem maintenanceBySetAndWay : Obligations.MaintenanceBySetAndWay := by
  unfold Obligations.MaintenanceBySetAndWay
  refine ⟨fun c d v u s hs hw hd hb hgo hu hstop hecc hplace => ?_, fun c d v s hs hw hd hb hgo hop hu => ?_, fun c d v s hs h => ?_,
    fun d s hb hopen hecc => ?_⟩
  · have hstart : ∀ hop : fieldOf v 0 2 ≠ 3,
        s.issue c (fun c s => s.dieAccess d (R.WLD_SWOP d) c (fun s => s.writeSwop d c v.toNat)) = ((s.answer .ok).startSwop d v).swopRun d :=
      fun hop => by
        rw [State.issue_writeSwop_of_go hs hw hd hb hop hgo, State.swopBad_of_place (s := s.answer .ok) hu hplace]
        exact if_neg (by decide)
    obtain ⟨hresp, hbusy, hget, hsame⟩ := State.swopRun_startSwop (s := s.answer .ok) hecc v
    have hgetOp := (hget (L.WLD_SWOP.OP d) rfl).trans State.get_takeSwop_op
    refine ⟨fun hop => ⟨_, rfl, ?_⟩, fun hop => ⟨_, rfl, ?_⟩, fun hop => ⟨_, rfl, ?_⟩⟩ <;> rw [hstart (by omega)]
    · exact ⟨hresp, hbusy, hgetOp.trans hop, hsame⟩
    · have hout : Keeps [.ecc, .cache] ((s.answer .ok).startSwop d v) (((s.answer .ok).startSwop d v).swopRun d) :=
        State.swopRun_discard_keeps hecc ((State.get_startSwop (l := L.WLD_SWOP.OP d) rfl v).trans (State.get_takeSwop_op.trans hop))
      exact ⟨hresp, hbusy, hgetOp.trans hop, (hget (L.WLD_SWOP.SET d) rfl).trans State.get_takeSwop_set,
        (hget (L.WLD_SWOP.WAY d) rfl).trans State.get_takeSwop_way, hout.frame .out (by decide), hsame,
        fun hall h45 hline hway hset => State.swopRun_startSwop_slice hu h45 hstop hecc hop hall hline hway hset⟩
    · exact ⟨hresp, hbusy, hgetOp.trans hop, hsame⟩
  · refine ⟨_, rfl, ?_⟩
    rw [State.issue_writeSwop_of_go hs hw hd hb hop hgo, if_pos (State.swopBad_of_none hu)]
    obtain ⟨herr, hdone, hbusy, hcache, hsame⟩ := State.takeSwop_failed (s.answer .ok) d v rfl
    exact ⟨herr, hdone, hbusy.trans hb, hcache, hsame⟩
  · have hd := d.isLt
    exact ⟨⟨_, rfl, State.issue_writeSwop_refused hs hd h⟩, ⟨_, rfl, State.issue_writeSwop_refused hs hd h⟩,
      ⟨_, rfl, State.issue_writeSwop_refused hs hd h⟩⟩
  · have hexec : exec (.swopDone d) s = .next (((s.swopRun d).put (L.WLD_SWSTAT.BUSY d) 0).raise (L.WLD_SWSTAT.DONE d)) := by
      show execSwopDone d s = _
      unfold execSwopDone
      simp only [hb, hopen, if_true, Bool.false_eq_true, if_false]
    obtain ⟨hbusy, hdone, hcache, hsame⟩ := State.showDone (s.swopRun d) d rfl
    exact ⟨_, hexec, hbusy, hdone, hcache, fun k hk => (hsame k hk).trans (State.rd_congr (State.swopRun_heals hecc).regs)⟩

end Sys2Proof.Machine

namespace Sys2Proof.Machine
/-! # Lookups and tags: what keeps the ways of a line (R143, R144) -/

variable {r s t : State} {d u l w d' u' l' w' set' : Nat} {x : CLine} {f : CLine → CLine}

/-! ### A lookup without a code error -/

theorem State.dieEcc_of_noMarks (h : NoMarks s d l) : s.dieEcc d l = false := by
  unfold State.dieEcc
  rw [List.any_eq_false]
  intro p hp
  have hw := h p hp
  unfold State.dieWord at hw
  simp only [Bool.or_eq_false_iff, beq_eq_false_iff_ne] at hw
  obtain ⟨hslice, htag⟩ := hw
  simp only [Bool.and_eq_true, Bool.or_eq_true, beq_iff_eq, decide_eq_true_eq, not_and, not_or]
  refine fun _ => ⟨hslice, fun hlt => ?_⟩
  obtain ⟨hge, hlt⟩ := hlt
  have h62 : p.1 < 2 ^ 62 := by
    have : eccHome 0 0 = 2 ^ 62 := rfl
    omega
  have hnd : ¬ eccData 0 ≤ p.1 := by unfold eccData; omega
  have hge' : eccTag 0 ≤ p.1 := hge
  intro hdie hset
  simp only [hnd, hge', h62, hdie.1, and_true, decide_true, decide_false, Bool.false_eq_true, if_false, false_and,
    Bool.or_true, Bool.true_or, Bool.true_and, Bool.and_true, beq_self_eq_true, Bool.and_eq_false_imp, Bool.or_eq_true,
    decide_eq_true_eq, beq_iff_eq, beq_eq_false_iff_ne] at htag
  refine htag ?_ hset
  rcases hdie.2 with h45 | h3
  · exact .inl (by omega)
  · exact .inr h3

theorem State.dieCorrect_of_noMarks (h : NoMarks s d l) : s.dieCorrect d l = s := by
  have hf : s.ecc.filter (fun p => p.2 == 1 && s.dieWord d l p.1) = [] := by
    rw [List.filter_eq_nil_iff]
    exact fun m hm => by simp [h m hm]
  unfold State.dieCorrect
  rw [hf]
  rfl

/-- A lookup that meets no code error changes nothing. -/
theorem State.dieLook_of_noMarks (h : NoMarks s d l) : s.dieLook d l = s := by
  have hf : s.ecc.filter (fun p => p.2 == 2 && s.dieWord d l p.1 && decide (p.1 < 2 ^ 62) &&
      decide ((p.1 - eccTag 0) / 16 / 16384 % 64 < 36)) = [] := by
    rw [List.filter_eq_nil_iff]
    exact fun m hm => by simp [h m hm]
  unfold State.dieLook
  rw [State.dieCorrect_of_noMarks h]
  unfold State.dropBadL1
  rw [hf]
  rfl

/-! ### Operations member by member -/

section Members
variable {α : Type} {P Q : State → Prop} {g : State → α → State} {b : α} {as : List α}

/-- What every member keeps. -/
theorem State.forAll_keepsProp (hP : ∀ x a, a ∈ as → P x → P (g x a)) (h : P s) : P (s.forAll as g) := by
  unfold State.forAll
  exact List.foldlRecOn _ _ h fun x hx a ha => hP x a ha hx

/-- One member brings about what the others keep. -/
theorem State.forAll_reaches (hP : ∀ x a, a ∈ as → a ≠ b → P x → P (g x a)) (hb : ∀ x, P x → Q (g x b)) (hQ : ∀ x a, a ∈ as → a ≠ b → Q x → Q (g x a))
    (hmem : b ∈ as) (hnd : as.Nodup) (h : P s) : Q (s.forAll as g) := by
  induction as generalizing s with
  | nil => cases hmem
  | cons a as ih =>
    obtain ⟨hni, hnd⟩ := List.nodup_cons.mp hnd
    rcases List.mem_cons.mp hmem with rfl | hin
    · refine State.forAll_keepsProp (P := Q) (s := g s b) (fun x a ha => hQ x a (List.mem_cons_of_mem _ ha) ?_) (hb s h)
      rintro rfl
      exact hni ha
    · exact ih (s := g s a) (fun x c hc => hP x c (List.mem_cons_of_mem _ hc)) (fun x c hc => hQ x c (List.mem_cons_of_mem _ hc)) hin hnd
        (hP s a (List.mem_cons_self ..) (fun e => hni (e ▸ hin)) h)

end Members

/-! ### The ways that hold a line -/

/-- Each way of the line's set holds the line as it did, and one that is empty stays so. -/
structure TagsStay (d u l : Nat) (s t : State) : Prop where
  holds : ∀ j, j < 16 → t.holds d u l j = s.holds d u l j
  empty : ∀ j, j < 16 → s.cline d u (setOf u l) j = default → t.cline d u (setOf u l) j = default

theorem TagsStay.refl (s : State) : TagsStay d u l s s := ⟨fun _ _ => rfl, fun _ _ h => h⟩

theorem TagsStay.trans (h : TagsStay d u l r s) (h' : TagsStay d u l s t) : TagsStay d u l r t :=
  ⟨fun j hj => (h'.holds j hj).trans (h.holds j hj), fun j hj he => h'.empty j hj (h.empty j hj he)⟩

theorem TagsStay.of_cline (h : ∀ j, j < 16 → t.cline d u (setOf u l) j = s.cline d u (setOf u l) j) : TagsStay d u l s t :=
  ⟨fun j hj => by simp only [State.holds, h j hj], fun j hj he => (h j hj).trans he⟩

theorem TagsStay.of_same (hc : t.cache = s.cache) (he : t.ecc = s.ecc) : TagsStay d u l s t :=
  .of_cline fun _ _ => State.cline_congr hc he _ _ _ _

theorem TagsStay.forAll {α : Type} {g : State → α → State} {as : List α} (hg : ∀ x a, a ∈ as → TagsStay d u l x (g x a)) :
    TagsStay d u l s (s.forAll as g) :=
  State.forAll_keepsProp (P := TagsStay d u l s) (fun x a ha h => h.trans (hg x a ha)) (.refl s)

theorem TagsStay.when {p : Prop} [Decidable p] {g : State → State} (hg : p → TagsStay d u l s (g s)) : TagsStay d u l s (s.when p g) := by
  unfold State.when
  split
  · exact hg ‹_›
  · exact .refl s

theorem TagsStay.findWay (h : TagsStay d u l s t) : t.findWay d u l = s.findWay d u l := State.findWay_congr h.holds

/-- The way is the one that holds the line, or it is empty. -/
def Tracked (d u l w : Nat) (s : State) : Prop := s.findWay d u l = some w ∨ s.cline d u (setOf u l) w = default

theorem TagsStay.tracked (h : TagsStay d u l s t) (hw : w < 16) (hs : Tracked d u l w s) : Tracked d u l w t :=
  hs.imp (fun hf => h.findWay.trans hf) (h.empty w hw)

/-- A mark that goes changes no tag. -/
theorem TagsStay.of_drop {k : Nat} (hc : t.cache = s.cache) (he : t.ecc = SMap.drop s.ecc k) : TagsStay d u l s t := by
  have hpoison : ∀ n, SMap.get t.ecc n = SMap.get s.ecc n ∨ SMap.get t.ecc n = 0 := fun n => by
    rw [he]
    by_cases hn : n = k
    · subst hn; exact .inr (SMap.get_drop_same _ _)
    · exact .inl (SMap.get_drop_ne _ hn)
  refine ⟨fun j hj => by simp only [State.holds, State.cline, hc], fun j hj hd => ?_⟩
  rcases hpoison (eccData (cacheKey d u (setOf u l) j)) with h | h
  · rw [← hd]
    simp only [State.cline, hc, h]
  · have hp : (SMap.get s.cache (cacheKey d u (setOf u l) j)).poison = false := by
      have := congrArg CLine.poison hd
      simp only [State.cline] at this
      exact (Bool.or_eq_false_iff.mp this).1
    rw [← hd]
    have hfalse : SMap.get s.ecc (eccData (cacheKey d u (setOf u l) j)) ≠ 2 := by
      intro h2
      have := congrArg CLine.poison hd
      simp [State.cline, h2] at this
      exact absurd this (by decide)
    simp only [State.cline, hc, h, hp, beq_eq_false_iff_ne.mpr hfalse]
    rfl

theorem State.dropEcc_tagsStay (s : State) (k : Nat) : TagsStay d u l s (s.dropEcc k) := .of_drop rfl rfl

/-- A change of a copy that keeps its tag. -/
theorem State.changeCopy_tagsStay (hd : d < 12) (hu : u < 64) (hd' : d' < 12) (hu' : u' < 64)
    (hf : ∀ y, (f y).valid = y.valid ∧ (f y).line = y.line) : TagsStay d u l s (s.changeCopy d' u' l' f) := by
  cases hw : s.findWay d' u' l' with
  | none => rw [State.changeCopy_of_none hw]; exact .refl s
  | some w =>
    rw [State.changeCopy_of_findWay hw]
    have hin : InCache d' u' (setOf u' l') w := ⟨hd', hu', setOf_lt _ _, State.findWay_lt hw⟩
    have hc : ∀ j, j < 16 → ¬ (d = d' ∧ u = u' ∧ setOf u l = setOf u' l' ∧ j = w) →
        (s.setCline d' u' (setOf u' l') w (f (s.cline d' u' (setOf u' l') w))).cline d u (setOf u l) j = s.cline d u (setOf u l) j :=
      fun j hj hne => State.cline_setCline_ne _ hin ⟨hd, hu, setOf_lt _ _, hj⟩ hne
    refine ⟨fun j hj => ?_, fun j hj he => ?_⟩
    · by_cases hne : d = d' ∧ u = u' ∧ setOf u l = setOf u' l' ∧ j = w
      · obtain ⟨rfl, rfl, hset, rfl⟩ := hne
        simp only [State.holds, hset, State.cline_setCline_same, hf]
      · simp only [State.holds, hc j hj hne]
    · rw [hc j hj ?_, he]
      rintro ⟨rfl, rfl, hset, rfl⟩
      have hv := (State.holds_iff.mp (State.findWay_eq_some_iff.mp hw).2.1).1
      rw [← hset, he] at hv
      exact absurd hv (by decide)

/-- A line that another structure loses. -/
theorem State.setCline_tagsStay (hd : d < 12) (hu : u < 64) (h : InCache d' u' set' w') (hne : ¬ (d = d' ∧ u = u')) :
    TagsStay d u l s (s.setCline d' u' set' w' x) :=
  .of_cline fun _ hj => State.cline_setCline_ne _ h ⟨hd, hu, setOf_lt _ _, hj⟩ (by tauto)

/-- A way that is emptied holds no line any more; the way below which none holds it stays its way, unless it is the one. -/
theorem State.setCline_tracked (hd : d < 12) (hu : u < 64) (hw : w < 16) (h : InCache d' u' set' w') (hs : Tracked d u l w s) :
    Tracked d u l w (s.setCline d' u' set' w' default) := by
  have hc : ∀ j, j < 16 → ¬ (d = d' ∧ u = u' ∧ setOf u l = set' ∧ j = w') →
      (s.setCline d' u' set' w' default).cline d u (setOf u l) j = s.cline d u (setOf u l) j :=
    fun j hj hne => State.cline_setCline_ne _ h ⟨hd, hu, setOf_lt _ _, hj⟩ hne
  by_cases he : d = d' ∧ u = u' ∧ setOf u l = set' ∧ w = w'
  · obtain ⟨rfl, rfl, rfl, rfl⟩ := he
    exact .inr (State.cline_setCline_same ..)
  rcases hs with hf | hz
  · obtain ⟨-, hhold, hlow⟩ := State.findWay_eq_some_iff.mp hf
    refine .inl (State.findWay_eq_some_iff.mpr ⟨hw, by simpa only [State.holds, hc w hw he] using hhold, fun j hj => ?_⟩)
    by_cases hj' : d = d' ∧ u = u' ∧ setOf u l = set' ∧ j = w'
    · obtain ⟨rfl, rfl, rfl, rfl⟩ := hj'
      simp only [State.holds, State.cline_setCline_same]
      rfl
    · simpa only [State.holds, hc j (by omega) hj'] using hlow j hj
  · exact .inr ((hc w hw he).trans hz)

theorem State.dropCopy_tracked (hd : d < 12) (hu : u < 64) (hw : w < 16) (hd' : d' < 12) (hu' : u' < 64) (hs : Tracked d u l w s) :
    Tracked d u l w (s.dropCopy d' u' l') := by
  cases hf : s.findWay d' u' l' with
  | none => rwa [State.dropCopy_of_none hf]
  | some j =>
    unfold State.dropCopy
    rw [State.changeCopy_of_findWay hf]
    exact State.setCline_tracked hd hu hw ⟨hd', hu', setOf_lt _ _, State.findWay_lt hf⟩ hs

/-- An empty way stays empty when copies go. -/
theorem State.dropCopy_empty (hd : d < 12) (hu : u < 64) (hw : w < 16) (hd' : d' < 12) (hu' : u' < 64)
    (hs : s.cline d u (setOf u l) w = default) : (s.dropCopy d' u' l').cline d u (setOf u l) w = default := by
  cases hf : s.findWay d' u' l' with
  | none => rwa [State.dropCopy_of_none hf]
  | some j =>
    unfold State.dropCopy
    rw [State.changeCopy_of_findWay hf]
    have hin : InCache d' u' (setOf u' l') j := ⟨hd', hu', setOf_lt _ _, State.findWay_lt hf⟩
    by_cases he : d = d' ∧ u = u' ∧ setOf u l = setOf u' l' ∧ w = j
    · obtain ⟨rfl, rfl, hset, rfl⟩ := he
      rw [hset]
      exact State.cline_setCline_same ..
    · rw [State.cline_setCline_ne _ hin ⟨hd, hu, setOf_lt _ _, hw⟩ he, hs]

/-- The drop of the line's copy empties its way. -/
theorem Tracked.dropCopy (hs : Tracked d u l w s) (hd : d < 12) (hu : u < 64) (hw : w < 16) :
    (s.dropCopy d u l).cline d u (setOf u l) w = default := by
  rcases hs with hf | hz
  · unfold State.dropCopy
    rw [State.changeCopy_of_findWay hf]
    exact State.cline_setCline_same ..
  · exact State.dropCopy_empty hd hu hw hd hu hz

end Sys2Proof.Machine

namespace Sys2Proof.Machine
/-! # Cache maintenance by address (R153, R154) -/

variable {r s t : State} {d u l w d' u' l' w' set' : Nat} {x : CLine} {f : CLine → CLine}

theorem mem_onesBelow_lt {n v i : Nat} (h : i ∈ onesBelow n v) : i < n := List.mem_range.mp (List.mem_filter.mp h).1

/-! ### Tags through the operations of a lookup and of a write-back -/

theorem State.logRec_tagsStay (n a b c : Nat) (i : Issuer) (aux : Nat) : TagsStay d u l s (s.logRec n a b c i aux) :=
  .of_same (State.logRec_cache s n a b c i aux)
    ((State.logRec_keeps (F := [.regs, .newtIrq, .fieldOps, .paused, .caps, .capBusy]) (by decide) (by decide) (by decide) (by decide)
      (by decide) (by decide) .refl n a b c i aux).frame .ecc (by decide))

theorem State.homeCorrect_tagsStay (h l' : Nat) : TagsStay d u l s (s.homeCorrect h l') :=
  .forAll fun x p _ => (x.dropEcc_tagsStay p.1).trans (State.logRec_tagsStay _ _ _ _ _ _)

theorem State.dieCorrect_tagsStay (d' l' : Nat) : TagsStay d u l s (s.dieCorrect d' l') :=
  .forAll fun x p _ => (x.dropEcc_tagsStay p.1).trans (State.logRec_tagsStay _ _ _ _ _ _)

section
variable (hd : d < 12) (hu : u < 64) (hd' : d' < 12)
include hd hu hd'

/-- Ways of L1 caches alone are given up. -/
theorem State.dropBadL1_tagsStay (h36 : 36 ≤ u) (l' : Nat) : TagsStay d u l s (s.dropBadL1 d' l') := by
  refine .forAll fun y p hp => ?_
  simp only [List.mem_filter, Bool.and_eq_true, decide_eq_true_eq] at hp
  have hlow : (p.1 - eccTag 0) / 16 / 16384 % 64 < 36 := hp.2.2
  have hin : InCache d' ((p.1 - eccTag 0) / 16 / 16384 % 64) ((p.1 - eccTag 0) / 16 % 16384) ((p.1 - eccTag 0) % 16) :=
    ⟨hd', by omega, Nat.mod_lt _ (by decide), Nat.mod_lt _ (by decide)⟩
  exact (State.logRec_tagsStay _ _ _ _ _ _).trans <| (State.setCline_tagsStay hd hu hin (by omega)).trans <|
    .when fun _ => State.changeCopy_tagsStay hd hu hd' (by unfold uL2; omega) (by exact fun _ => ⟨rfl, rfl⟩)

theorem State.dropBadL1_tracked (hw : w < 16) (l' : Nat) (hs : Tracked d u l w s) : Tracked d u l w (s.dropBadL1 d' l') := by
  refine State.forAll_keepsProp (P := Tracked d u l w) (fun y p hp hy => ?_) hs
  simp only [List.mem_filter, Bool.and_eq_true, decide_eq_true_eq] at hp
  have hlow : (p.1 - eccTag 0) / 16 / 16384 % 64 < 36 := hp.2.2
  have hin : InCache d' ((p.1 - eccTag 0) / 16 / 16384 % 64) ((p.1 - eccTag 0) / 16 % 16384) ((p.1 - eccTag 0) % 16) :=
    ⟨hd', by omega, Nat.mod_lt _ (by decide), Nat.mod_lt _ (by decide)⟩
  have hset := State.setCline_tracked hd hu hw hin ((State.logRec_tagsStay (dieLog d') Cause.UE 0x03 (64 * l') (unitIssuer true) 0).tracked hw hy)
  have hwhen : ∀ (p : Prop) [Decidable p] (z : State) (u' l' : Nat), u' < 64 → TagsStay d u l z (z.when p (fun s =>
      s.changeCopy d' u' l' (fun y => { y with st := 2, poison := true }))) := fun p _ z u' l' hu' =>
    .when fun _ => State.changeCopy_tagsStay hd hu hd' hu' (by exact fun _ => ⟨rfl, rfl⟩)
  exact (hwhen _ _ _ _ (by show 36 + _ / 2 < 64; omega)).tracked hw hset

theorem State.collapse_tagsStay {c : Nat} (hc : c < 9) (l' : Nat) : TagsStay d u l s (s.collapse d' c l') := by
  refine .forAll fun y k hk => ?_
  have hk18 : k < 18 := by
    simp only [List.mem_cons, List.not_mem_nil, or_false] at hk
    omega
  split
  · split
    · exact (State.changeCopy_tagsStay hd hu hd' (by unfold uL1d; omega) (by exact fun _ => ⟨rfl, rfl⟩)).trans
        (State.changeCopy_tagsStay hd hu hd' (by unfold uL2; omega) (by exact fun _ => ⟨rfl, rfl⟩))
    · exact .refl _
  · exact .refl _

theorem State.collapseDie_tagsStay (l' : Nat) : TagsStay d u l s (s.collapseDie d' l') :=
  .forAll fun _ _ hc => State.collapse_tagsStay hd hu hd' (List.mem_range.mp hc) l'

end

theorem State.lineCorrect_tagsStay (hd : d < 12) (hu : u < 64) (h36 : 36 ≤ u) (l' : Nat) (all : Bool) :
    TagsStay d u l s (s.lineCorrect l' all) :=
  (State.homeCorrect_tagsStay _ _).trans (.forAll fun _ _ hd' =>
    (State.dieCorrect_tagsStay _ _).trans (State.dropBadL1_tagsStay hd hu (mem_onesBelow_lt hd') h36 l'))

theorem State.lineCorrect_tracked (hd : d < 12) (hu : u < 64) (hw : w < 16) (l' : Nat) (all : Bool) (hs : Tracked d u l w s) :
    Tracked d u l w (s.lineCorrect l' all) :=
  State.forAll_keepsProp (P := Tracked d u l w) (fun _ _ hd' hx =>
    State.dropBadL1_tracked hd hu (mem_onesBelow_lt hd') hw l' ((State.dieCorrect_tagsStay _ _).tracked hw hx))
    ((State.homeCorrect_tagsStay _ _).tracked hw hs)

/-! ### Modified data goes to memory -/

theorem State.storeLine_tagsStay (line : Nat) (b : Bytes) (p : Bool) : TagsStay d u l s (s.storeLine line b p) := by
  refine .of_drop (k := eccMem line) ((State.storeLine_keeps (F := [.mem, .ecc, .mc, .poison]) (by decide) (by decide) (by decide) (by decide)
    .refl line b p).frame .cache (by decide)) ?_
  exact congrArg (SMap.drop · (eccMem line)) ((State.when_kept State.ecc (by exact fun _ => rfl)).trans (State.writeBytes_same _ _ .ecc (by decide)))

theorem TagsStay.of_keeps {F : List Kind} (h : Keeps F s t) (hc : Kind.cache ∉ F) (he : Kind.ecc ∉ F) : TagsStay d u l s t :=
  .of_same (h.frame .cache hc) (h.frame .ecc he)

/-- A write of a line to memory drops the mark of that line alone. -/
theorem State.memWriteLine_tagsStay (line : Nat) (b : Bytes) (p : Bool) (c : Issuer) : TagsStay d u l s (s.memWriteLine line b p c).1 := by
  have hnote : TagsStay d u l s (s.xeNote line c) :=
    .of_keeps (F := [.regs, .newtIrq, .fieldOps, .paused, .caps, .capBusy])
      (State.xeNote_keeps (by decide) (by decide) (by decide) (by decide) (by decide) (by decide) .refl line c) (by decide) (by decide)
  have hstore : TagsStay d u l s (((s.xeNote line c).storeLine line b p).wqAdd (s.mcOf line) line c.sealed c.vi) :=
    (hnote.trans (State.storeLine_tagsStay line b p)).trans (.of_keeps (F := [.regs, .newtIrq, .fieldOps, .mc])
      (State.wqAdd_keeps (by decide) (by decide) (by decide) (by decide) .refl _ _ _ _) (by decide) (by decide))
  unfold State.memWriteLine
  split
  · split
    · exact hnote
    · exact hstore
  · exact .of_keeps (F := [.regs, .newtIrq, .fieldOps, .paused, .caps, .capBusy])
      (State.mcNotReady_keeps (by decide) (by decide) (by decide) (by decide) (by decide) (by decide) .refl line c) (by decide) (by decide)

theorem State.flushToMemory_tagsStay (hd : d < 12) (hu : u < 64) (l' : Nat) (c : Issuer) : TagsStay d u l s (s.flushToMemory l' c) := by
  refine .forAll fun y d' hd' => ?_
  split
  · exact (State.collapseDie_tagsStay hd hu (List.mem_range.mp hd') l').trans (State.memWriteLine_tagsStay _ _ _ _)
  · exact .refl y

/-! ### The copies go, or become clean -/

/-- The structures of a cluster: the L1 caches of its cores, and its L2. -/
def clusterUnits (c : Nat) : List Nat := [uL1d (2 * c), uL1i (2 * c), uL1d (2 * c + 1), uL1i (2 * c + 1), uL2 c]

/-- The structures of a die that may hold a line. -/
def dieUnits (l : Nat) : List Nat := (List.range 9).flatMap clusterUnits ++ [uL3 (sliceOf l)]

theorem State.dropCluster_eq (s : State) (d c l : Nat) : s.dropCluster d c l = s.forAll (clusterUnits c) (fun s u => s.dropCopy d u l) := by
  unfold State.dropCluster State.forAll clusterUnits
  simp only [List.foldl_cons, List.foldl_nil]

/-- A list of operations each of which is a list of operations. -/
theorem State.forAll_flatMap {α β : Type} (s : State) (as : List α) (g : α → List β) (f : State → β → State) :
    s.forAll (as.flatMap g) f = s.forAll as (fun s a => s.forAll (g a) f) := List.foldl_flatMap

theorem State.forAll_concat {α : Type} (s : State) (as : List α) (a : α) (f : State → α → State) :
    s.forAll (as ++ [a]) f = f (s.forAll as f) a := List.foldl_concat f s a as

theorem State.dropDie_eq (s : State) (d l : Nat) : s.dropDie d l = s.forAll (dieUnits l) (fun s u => s.dropCopy d u l) := by
  unfold dieUnits
  rw [State.forAll_concat, State.forAll_flatMap]
  exact congrArg (fun x : State => x.dropCopy d (uL3 (sliceOf l)) l) (congrArg (s.forAll (List.range 9)) (funext₂ fun x c => x.dropCluster_eq d c l))

theorem clusterUnits_lt : ∀ u ∈ (List.range 9).flatMap clusterUnits, u < 45 := by decide

theorem mem_dieUnits (h : u < 45 ∨ u = uL3 (sliceOf l)) : u ∈ dieUnits l := by
  rcases h with h | rfl
  · refine List.mem_append_left _ ?_
    revert u
    decide
  · exact List.mem_append_right _ (List.mem_singleton_self _)

theorem sliceOf_lt (l : Nat) : sliceOf l < 4 := by
  unfold sliceOf
  exact Nat.xor_lt_two_pow (n := 2) (Nat.xor_lt_two_pow (Nat.xor_lt_two_pow (Nat.mod_lt _ (by decide)) (Nat.mod_lt _ (by decide)))
    (Nat.mod_lt _ (by decide))) (Nat.mod_lt _ (by decide))

theorem mem_dieUnits_lt (h : u ∈ dieUnits l) : u < 64 := by
  rcases List.mem_append.mp h with h | h
  · have := clusterUnits_lt u h
    omega
  · have := sliceOf_lt l
    rw [List.mem_singleton] at h
    unfold uL3 at h
    omega

section
variable (hd : d < 12) (hu : u < 64) (hw : w < 16) (hd' : d' < 12)
include hd hu hw hd'

theorem State.dropDie_tracked (hs : Tracked d u l w s) (l' : Nat) : Tracked d u l w (s.dropDie d' l') := by
  rw [State.dropDie_eq]
  exact State.forAll_keepsProp (P := Tracked d u l w) (fun _ _ hm hx => State.dropCopy_tracked hd hu hw hd' (mem_dieUnits_lt hm) hx) hs

theorem State.dropDie_empty (hs : s.cline d u (setOf u l) w = default) (l' : Nat) :
    (s.dropDie d' l').cline d u (setOf u l) w = default := by
  rw [State.dropDie_eq]
  exact State.forAll_keepsProp (P := fun x => x.cline d u (setOf u l) w = default)
    (fun _ _ hm hx => State.dropCopy_empty hd hu hw hd' (mem_dieUnits_lt hm) hx) hs

end

theorem dieUnits_nodup (l : Nat) : (dieUnits l).Nodup := by
  unfold dieUnits
  rw [List.nodup_append]
  refine ⟨by decide, List.nodup_singleton _, ?_⟩
  intro a ha b hb
  rw [List.mem_singleton] at hb
  have := clusterUnits_lt a ha
  unfold uL3 at hb
  omega

/-- The way of a line that goes from its die is empty then. -/
theorem Tracked.dropDie (hs : Tracked d u l w s) (hd : d < 12) (hw : w < 16) (hu : u < 45 ∨ u = uL3 (sliceOf l)) :
    (s.dropDie d l).cline d u (setOf u l) w = default := by
  have hu64 := mem_dieUnits_lt (mem_dieUnits hu)
  rw [State.dropDie_eq]
  exact State.forAll_reaches (Q := fun x => x.cline d u (setOf u l) w = default)
    (fun _ _ hm _ hx => State.dropCopy_tracked hd hu64 hw hd (mem_dieUnits_lt hm) hx) (fun _ hx => hx.dropCopy hd hu64 hw)
    (fun _ _ hm _ hx => State.dropCopy_empty hd hu64 hw hd (mem_dieUnits_lt hm) hx) (mem_dieUnits hu) (dieUnits_nodup l) hs

/-- Every copy of the package goes. -/
theorem Tracked.dropAll (hs : Tracked d u l w s) (hd : d < 12) (hw : w < 16) (hu : u < 45 ∨ u = uL3 (sliceOf l)) :
    (s.forAll (List.range 12) (fun s d => s.dropDie d l)).cline d u (setOf u l) w = default := by
  have hu64 := mem_dieUnits_lt (mem_dieUnits hu)
  exact State.forAll_reaches (P := Tracked d u l w) (Q := fun x => x.cline d u (setOf u l) w = default)
    (fun _ _ hm _ hx => State.dropDie_tracked hd hu64 hw (List.mem_range.mp hm) hx l) (fun _ hx => hx.dropDie hd hw hu)
    (fun _ _ hm _ hx => State.dropDie_empty hd hu64 hw (List.mem_range.mp hm) hx l) (List.mem_range.mpr hd) List.nodup_range hs

/-! ### A copy becomes clean -/

/-- The way holds the line, and not modified. -/
def CleanIn (d u l w : Nat) (s : State) : Prop := s.findWay d u l = some w ∧ (s.cline d u (setOf u l) w).st ≤ 1

theorem CleanIn.holds (h : CleanIn d u l w s) : (s.cline d u (setOf u l) w).valid = true ∧ (s.cline d u (setOf u l) w).line = l ∧
    (s.cline d u (setOf u l) w).st ≤ 1 := by
  obtain ⟨hv, hl⟩ := State.holds_iff.mp (State.findWay_eq_some_iff.mp h.1).2.1
  exact ⟨hv, hl, h.2⟩

theorem State.mem_holders : u ∈ s.holders d l ↔ (36 ≤ u ∧ u < 45 ∨ u = uL3 (sliceOf l)) ∧ (s.findWay d u l).isSome := by
  unfold State.holders
  rw [List.mem_filter]
  refine and_congr_left fun _ => ?_
  simp only [List.mem_append, List.mem_map, List.mem_range, List.mem_singleton]
  refine or_congr_left ⟨?_, fun h => ⟨u - 36, by omega, by unfold uL2; omega⟩⟩
  rintro ⟨c, hc, rfl⟩
  unfold uL2
  omega

theorem State.holders_nodup (s : State) (d l : Nat) : (s.holders d l).Nodup := by
  refine List.Nodup.filter _ (List.nodup_append.mpr ⟨by decide, List.nodup_singleton _, ?_⟩)
  intro a ha b hb
  rw [List.mem_singleton] at hb
  obtain ⟨c, hc, rfl⟩ := List.mem_map.mp ha
  rw [List.mem_range] at hc
  unfold uL3 at hb
  unfold uL2
  omega

theorem State.mem_holders_lt (h : u ∈ s.holders d l) : u < 64 := by
  rcases (State.mem_holders.mp h).1 with h | h
  · omega
  · have := sliceOf_lt l
    unfold uL3 at h
    omega

/-- The state that a copy is left in. -/
def cleaned (keepE : Bool) (x : CLine) : CLine := { x with st := if keepE && decide (1 ≤ x.st) then 1 else 0 }

section
variable (hd : d < 12) (hu : u < 64) (hw : w < 16)
include hd hu hw

theorem CleanIn.changeCopy_ne (h : CleanIn d u l w s) (hd' : d' < 12) (hu' : u' < 64) (hne : ¬ (d = d' ∧ u = u')) (l' : Nat) (f : CLine → CLine) :
    CleanIn d u l w (s.changeCopy d' u' l' f) := by
  have hc : ∀ j, j < 16 → (s.changeCopy d' u' l' f).cline d u (setOf u l) j = s.cline d u (setOf u l) j :=
    fun j hj => State.cline_changeCopy_ne hd' hu' ⟨hd, hu, setOf_lt u l, hj⟩ hne l' f
  exact ⟨(TagsStay.of_cline hc).findWay.trans h.1, by rw [hc w hw]; exact h.2⟩

omit hw in
theorem State.changeCopy_cleanIn (h : s.findWay d u l = some w) (keepE : Bool) : CleanIn d u l w (s.changeCopy d u l (cleaned keepE)) := by
  refine ⟨(State.changeCopy_tagsStay (f := cleaned keepE) hd hu hd hu fun _ => ⟨rfl, rfl⟩).findWay.trans h, ?_⟩
  rw [State.changeCopy_of_findWay h, State.cline_setCline_same]
  unfold cleaned
  dsimp only
  split <;> omega

/-- The cleaning of a die that holds the line. -/
theorem State.cleanDie_cleanIn (h : s.findWay d u l = some w) (hunit : 36 ≤ u ∧ u < 45 ∨ u = uL3 (sliceOf l)) (keepE : Bool) :
    CleanIn d u l w (s.cleanDie d l keepE) := by
  have hf : (s.collapseDie d l).findWay d u l = some w := (State.collapseDie_tagsStay hd hu hd l).findWay.trans h
  have hmem : u ∈ (s.collapseDie d l).holders d l := State.mem_holders.mpr ⟨hunit, by rw [hf]; rfl⟩
  exact State.forAll_reaches (P := fun x => x.findWay d u l = some w) (Q := CleanIn d u l w)
    (fun _ _ ha _ hx => (State.changeCopy_tagsStay (f := cleaned keepE) hd hu hd (State.mem_holders_lt ha) fun _ => ⟨rfl, rfl⟩).findWay.trans hx)
    (fun _ hx => State.changeCopy_cleanIn hd hu hx keepE)
    (fun _ _ ha hne hx => hx.changeCopy_ne hd hu hw hd (State.mem_holders_lt ha) (by omega) l (cleaned keepE)) hmem (State.holders_nodup _ _ _) hf

/-- The cleaning of another die. -/
theorem CleanIn.cleanDie_ne (h : CleanIn d u l w s) (hd' : d' < 12) (hne : d' ≠ d) (l' : Nat) (keepE : Bool) :
    CleanIn d u l w (s.cleanDie d' l' keepE) := by
  have hch : ∀ (x : State) u' f, u' < 64 → CleanIn d u l w x → CleanIn d u l w (x.changeCopy d' u' l' f) :=
    fun x u' f hu' hx => hx.changeCopy_ne hd hu hw hd' hu' (fun e => hne e.1.symm) l' f
  have hcol : CleanIn d u l w (s.collapseDie d' l') := by
    refine State.forAll_keepsProp (P := CleanIn d u l w) (fun x c hc hx => ?_) h
    refine State.forAll_keepsProp (P := CleanIn d u l w) (fun y k hk hy => ?_) hx
    have hc9 := List.mem_range.mp hc
    simp only [List.mem_cons, List.not_mem_nil, or_false] at hk
    split
    · split
      · have hcore := hch y (uL1d k) (fun z => { z with st := 0 }) (by unfold uL1d; omega) hy
        exact hch _ (uL2 c) _ (by unfold uL2; omega) hcore
      · exact hy
    · exact hy
  exact State.forAll_keepsProp (P := CleanIn d u l w) (fun x a ha hx => hch x a _ (State.mem_holders_lt ha) hx) hcol

end

theorem State.cleanDie_findWay (hd : d < 12) (hu : u < 64) (hd' : d' < 12) (h : s.findWay d u l = some w) (l' : Nat) (keepE : Bool) :
    (s.cleanDie d' l' keepE).findWay d u l = some w :=
  ((State.collapseDie_tagsStay hd hu hd' l').trans (.forAll fun _ _ ha =>
    State.changeCopy_tagsStay (f := cleaned keepE) hd hu hd' (State.mem_holders_lt ha) fun _ => ⟨rfl, rfl⟩)).findWay.trans h

/-- Every copy of the package becomes clean. -/
theorem State.cleanAll_cleanIn (hd : d < 12) (hw : w < 16) (h : s.findWay d u l = some w) (hunit : 36 ≤ u ∧ u < 45 ∨ u = uL3 (sliceOf l))
    (keepE : Bool) : CleanIn d u l w (s.forAll (List.range 12) (fun s d => s.cleanDie d l keepE)) := by
  have hu : u < 64 := mem_dieUnits_lt (mem_dieUnits (hunit.imp_left And.right))
  exact State.forAll_reaches (P := fun x => x.findWay d u l = some w) (Q := CleanIn d u l w)
    (fun _ _ ha _ hx => State.cleanDie_findWay hd hu (List.mem_range.mp ha) hx l keepE)
    (fun _ hx => State.cleanDie_cleanIn hd hu hw hx hunit keepE)
    (fun _ _ ha hne hx => hx.cleanDie_ne hd hu hw (List.mem_range.mp ha) hne l keepE) (List.mem_range.mpr hd) List.nodup_range h

end Sys2Proof.Machine

namespace Sys2Proof.Machine
/-! ### What depends on the caches alone -/

variable {s t : State} {d u l w op inst : Nat} {h : Nat} {md : PrivMode} {c : Issuer}

/-- Two states agree on the lines of the caches and the marks of errors. -/
structure SameCaches (s t : State) : Prop where
  cache : s.cache = t.cache
  ecc : s.ecc = t.ecc

namespace SameCaches

theorem cline (h : SameCaches s t) (d u set w : Nat) : s.cline d u set w = t.cline d u set w := State.cline_congr h.cache h.ecc d u set w

theorem findWay (h : SameCaches s t) (d u l : Nat) : s.findWay d u l = t.findWay d u l :=
  State.findWay_congr fun j _ => by simp only [State.holds, h.cline]

theorem copyIn (h : SameCaches s t) (d u l : Nat) : s.copyIn d u l = t.copyIn d u l := State.copyIn_congr fun _ _ => h.cline _ _ _ _

theorem forAll {α : Type} {g : State → α → State} (hg : ∀ x y a, SameCaches x y → SameCaches (g x a) (g y a)) (h : SameCaches s t) (as : List α) :
    SameCaches (s.forAll as g) (t.forAll as g) := by
  unfold State.forAll
  induction as generalizing s t with
  | nil => exact h
  | cons a as ih => exact ih (hg s t a h)

theorem setCline (h : SameCaches s t) (d u set w : Nat) (x : CLine) : SameCaches (s.setCline d u set w x) (t.setCline d u set w x) := by
  obtain ⟨hc, he⟩ := h
  exact ⟨by simp only [State.setCline, hc], by simp only [State.setCline, he]⟩

theorem changeCopy (h : SameCaches s t) (d u l : Nat) (f : CLine → CLine) : SameCaches (s.changeCopy d u l f) (t.changeCopy d u l f) := by
  cases hw : t.findWay d u l with
  | none => rwa [State.changeCopy_of_none hw, State.changeCopy_of_none ((h.findWay d u l).trans hw)]
  | some w =>
    rw [State.changeCopy_of_findWay hw, State.changeCopy_of_findWay ((h.findWay d u l).trans hw), h.cline]
    exact h.setCline _ _ _ _ _

theorem collapse (h : SameCaches s t) (d c l : Nat) : SameCaches (s.collapse d c l) (t.collapse d c l) :=
  h.forAll (fun x y k hxy => by
    rw [hxy.copyIn]
    split
    · split
      · exact (hxy.changeCopy _ _ _ _).changeCopy _ _ _ _
      · exact hxy
    · exact hxy) _

theorem collapseDie (h : SameCaches s t) (d l : Nat) : SameCaches (s.collapseDie d l) (t.collapseDie d l) :=
  h.forAll (fun _ _ c hxy => hxy.collapse d c l) _

theorem holders (h : SameCaches s t) (d l : Nat) : s.holders d l = t.holders d l := by
  unfold State.holders
  simp only [h.findWay]

theorem modifiedCopy (h : SameCaches s t) (d l : Nat) : s.modifiedCopy d l = t.modifiedCopy d l := by
  unfold State.modifiedCopy
  simp only [h.holders, h.copyIn]

theorem dieLevel (h : SameCaches s t) (d l : Nat) : s.dieLevel d l = t.dieLevel d l := by
  unfold State.dieLevel
  simp only [(h.collapseDie d l).holders, (h.collapseDie d l).copyIn]

theorem dirtyCopy (h : SameCaches s t) (l : Nat) : s.dirtyCopy l = t.dirtyCopy l := by
  unfold State.dirtyCopy
  simp only [(h.collapseDie _ l).modifiedCopy]

end SameCaches

/-! ### The outcomes of a maintenance operation -/

/-- The list of requests of a die takes one more. -/
theorem State.dieSent_sent (s : State) (h l txn op : Nat) (sealed waits : Bool) :
    ((s.dieSent h l txn op sealed waits).dieSt (hartDie h)).sent = (s.dieSt (hartDie h)).sent ++ [⟨h, l, txn, some op, sealed, waits⟩] := by
  unfold State.dieSent State.setDie State.dieSt
  rw [SMap.get_set_same]

/-- An earlier masked write of the die on the line keeps the operation waiting. -/
theorem State.maintain_waits (hl : lineInHbm l = true) {r : DieReq} (hr : r ∈ (s.dieSt (hartDie h)).sent) (hop : r.op = none) (hline : r.line = l) :
    s.maintain h l op c = s.dieSent h l 0 op c.sealed true := by
  have hany : (s.dieSt (hartDie h)).sent.any (fun r => r.op.isNone && r.line == l) = true :=
    List.any_eq_true.mpr ⟨r, hr, by simp [hop, hline]⟩
  unfold State.maintain
  simp only [hl, hany, Bool.true_eq_false, if_false, if_true]

theorem noMaskedWrite_any (hn : NoMaskedWrite s d l) : (s.dieSt d).sent.any (fun r => r.op.isNone && r.line == l) = false := by
  rw [List.any_eq_false]
  intro r hr
  simp only [Bool.and_eq_true, Option.isNone_iff_eq_none, beq_iff_eq, not_and]
  exact hn r hr

/-- A line with an open transaction is asked of its home. -/
theorem State.maintain_asks (hl : lineInHbm l = true) (hopen : s.lineOpen l = true) (hn : NoMaskedWrite s (hartDie h) l) :
    s.maintain h l op c = (((s.nextTxn (hartDie h) (sliceOf l)).1.dieSent h l (s.nextTxn (hartDie h) (sliceOf l)).2 op c.sealed false).toHome .cmo
      { sliceMsg (hartDie h) l c.sealed (s.inReservedWindow h (64 * l)) with
        txn := (s.nextTxn (hartDie h) (sliceOf l)).2, op := op, flag := op == 2 }) := by
  unfold State.maintain
  simp only [hl, noMaskedWrite_any hn, hopen, Bool.true_eq_false, Bool.false_eq_true, if_false, true_or, if_true]

theorem State.maintain_asked {m : CohMsg} (hl : lineInHbm l = true) (hopen : s.lineOpen l = true) (hn : NoMaskedWrite s (hartDie h) l)
    (hm : m = { sliceMsg (hartDie h) l c.sealed (s.inReservedWindow h (64 * l)) with
      txn := SMap.get s.wbTag (64 + 4 * hartDie h + sliceOf l), op := op, flag := op == 2 }) :
    (s.maintain h l op c).regs = s.regs ∧ (s.maintain h l op c).out = s.out ++ [.coh .cmo (0x100 + s.homeOf l) m] := by
  rw [State.maintain_asks hl hopen hn, hm]
  exact ⟨rfl, rfl⟩

/-- The state in which copies go or become clean: errors corrected, and modified data in memory, unless it is discarded. -/
def State.flushed (s : State) (l op : Nat) (c : Issuer) : State :=
  if (op == 2 && !((List.range 12).any (fun d => (s.lineCorrect l (op != 0)).otherWorldCopy d l c.sealed))) = true then s.lineCorrect l (op != 0)
  else (s.lineCorrect l (op != 0)).flushToMemory l c

/-- A line that the package alone answers for, and whose modified data finds room. -/
structure Quiet (s : State) (h l : Nat) : Prop where
  hbm : lineInHbm l = true
  closed : s.lineOpen l = false
  noMasked : NoMaskedWrite s (hartDie h) l
  intact : s.lineFatal l (hartDie h) true = none
  own : s.otherHolds l = false
  room : s.dirtyCopy l = none ∨ s.writeRoom l = true

theorem State.lineFatal_eq_none_iff {all : Bool} : s.lineFatal l d all = none ↔ s.homeEcc (s.homeOf l) l = false ∧
    (onesBelow 12 (s.snooped l all)).find? (fun d => s.dieEcc d l) = none := by
  unfold State.lineFatal
  dsimp only
  split
  · rename_i hecc
    simp [hecc]
  · rename_i hecc
    split
    · rename_i hd
      simp [hd]
    · rename_i hnone
      simp [hecc, hnone]

/-- What a narrower request meets, a wider one meets too. -/
theorem State.lineFatal_none (hn : s.lineFatal l d true = none) (all : Bool) : s.lineFatal l d all = none := by
  obtain ⟨hecc, hfind⟩ := State.lineFatal_eq_none_iff.mp hn
  refine State.lineFatal_eq_none_iff.mpr ⟨hecc, ?_⟩
  unfold State.snooped at *
  dsimp only at *
  rw [if_pos (.inl rfl)] at hfind
  split
  · exact hfind
  · rfl

theorem Quiet.maintain (hq : Quiet s h l) : s.maintain h l op c =
    if op = 0 then (s.flushed l op c).forAll (List.range 12) (fun s d => s.cleanDie d l true)
    else ((s.flushed l op c).forAll (List.range 12) (fun s d => s.dropDie d l)).sfPut ((s.flushed l op c).homeOf l) l 0 0 := by
  obtain ⟨hl, hopen, hn, hfatal, hown, hroom⟩ := hq
  have hdirty : ¬ ((s.dirtyCopy l).isSome = true ∧ s.writeRoom l = false) := by
    rintro ⟨h1, h2⟩
    rcases hroom with h | h
    · rw [h] at h1; cases h1
    · rw [h] at h2; cases h2
  have hasks : ¬ (s.lineOpen l = true ∨ s.otherHolds l = true ∨ (s.dirtyCopy l).isSome = true ∧ s.writeRoom l = false) := by
    rintro (h | h | h)
    · rw [hopen] at h; cases h
    · rw [hown] at h; cases h
    · exact hdirty h
  unfold State.maintain
  dsimp only
  rw [if_neg (by simp [hl]), if_neg (by simp [noMaskedWrite_any hn]), if_neg hasks, State.lineFatal_none hfatal]
  rfl

theorem State.sfPut_tagsStay (h l' st pres : Nat) {u l : Nat} : TagsStay d u l s (s.sfPut h l' st pres) := by
  unfold State.sfPut
  split
  · dsimp only
    have hset : ∀ (set w : Nat) (x : SfEnt), TagsStay d u l s (s.setSf h set w x) := fun set w x =>
      .of_drop (k := eccSf (sfKey h set w)) rfl rfl
    split
    · exact hset _ _ _
    · exact (hset (sfSet l') _ ⟨true, l', st, pres⟩).trans (.of_same (s := s.setSf h (sfSet l') _ ⟨true, l', st, pres⟩) rfl rfl)
  · exact .refl s

/-- The mode of a hart says nothing of a line. -/
theorem Quiet.inMode (hq : Quiet s h l) (md : PrivMode) : Quiet (s.inMode h md) h l :=
  ⟨hq.hbm, hq.closed, hq.noMasked, State.lineFatal_eq_none_iff.mpr (State.lineFatal_eq_none_iff (s := s).mp hq.intact), hq.own,
    hq.room.imp_left ((SameCaches.dirtyCopy (s := s.inMode h md) (t := s) ⟨rfl, rfl⟩ l).trans ·)⟩

/-- Its copies are gone. -/
theorem Quiet.flushes (hq : Quiet s h l) (hop : op ≠ 0) (hd : d < 12) (hf : s.findWay d u l = some w) (hu : u < 45 ∨ u = uL3 (sliceOf l)) :
    (s.maintain h l op c).cline d u (setOf u l) w = default := by
  have hu64 := mem_dieUnits_lt (mem_dieUnits hu)
  have hw := State.findWay_lt hf
  have htracked : Tracked d u l w (s.flushed l op c) := by
    have := State.lineCorrect_tracked (l := l) hd hu64 hw l (op != 0) (.inl hf)
    unfold State.flushed
    split
    · exact this
    · exact (State.flushToMemory_tagsStay hd hu64 l c).tracked hw this
  rw [hq.maintain, if_neg hop]
  exact (State.sfPut_tagsStay _ _ _ _).empty w hw (htracked.dropAll hd hw hu)

/-- Its copies in L2 and L3 are clean. -/
theorem Quiet.cleans (hq : Quiet s h l) (hd : d < 12) (hf : s.findWay d u l = some w) (hu : 36 ≤ u ∧ u < 45 ∨ u = uL3 (sliceOf l)) :
    CleanIn d u l w (s.maintain h l 0 c) := by
  have hu64 : u < 64 := mem_dieUnits_lt (mem_dieUnits (hu.imp_left And.right))
  have h36 : 36 ≤ u := by
    rcases hu with hu | hu
    · exact hu.1
    · unfold uL3 at hu; omega
  have hstay : TagsStay d u l s (s.flushed l 0 c) := by
    unfold State.flushed
    split
    · exact State.lineCorrect_tagsStay hd hu64 h36 l _
    · exact (State.lineCorrect_tagsStay hd hu64 h36 l _).trans (State.flushToMemory_tagsStay hd hu64 l c)
  rw [hq.maintain, if_pos rfl]
  exact State.cleanAll_cleanIn hd (State.findWay_lt hf) (hstay.findWay.trans hf) hu true

/-! ### The instructions -/

theorem State.wcDrain_of_none (hw : (s.hartSt h).wc = none) : s.wcDrain h = s := by
  unfold State.wcDrain
  rw [hw]

/-- The mode of a hart says nothing of its write-combining buffer. -/
theorem State.inMode_wc (s : State) (h : Nat) (md : PrivMode) : ((s.inMode h md).hartSt h).wc = (s.hartSt h).wc := by
  unfold State.inMode State.setHart State.hartSt
  rw [SMap.get_set_same]

theorem State.cbo_fault (hact : s.hartActs h = true) {e : Resp} (hf : s.cboFault h inst md = some e) :
    s.cbo h l inst op md = .next ((s.inMode h md).answer e) := by
  have hf' : (s.inMode h md).cboFault h inst md = some e := hf
  unfold State.cbo
  simp only [hact, hf', Bool.true_eq_false, if_false]

theorem State.cbo_pmp (hact : s.hartActs h = true) (hf : s.cboFault h inst md = none) (hw : s.pmpFault h md (64 * l) 64 pmpW = true)
    (hr : s.pmpFault h md (64 * l) 64 pmpR = true) : s.cbo h l inst op md = .next ((s.inMode h md).answer .accessFault) := by
  have hf' : (s.inMode h md).cboFault h inst md = none := hf
  have hw' : (s.inMode h md).pmpFault h md (64 * l) 64 pmpW = true := hw
  have hr' : (s.inMode h md).pmpFault h md (64 * l) 64 pmpR = true := hr
  unfold State.cbo
  simp only [hact, hf', hw', hr', Bool.true_eq_false, if_false, and_self, if_true]

/-- An instruction that its conditions allow is performed. -/
theorem State.cbo_runs (hr : CboRuns s h inst md l) :
    s.cbo h l inst op md = .next ((s.inMode h md).maintain h l op (s.hartIssuer h md)) := by
  obtain ⟨hact, hstop, hdie, hf, hpmp, hmarks, hwc⟩ := hr
  have hf' : (s.inMode h md).cboFault h inst md = none := hf
  have hpmp' : ¬ ((s.inMode h md).pmpFault h md (64 * l) 64 pmpR = true ∧ (s.inMode h md).pmpFault h md (64 * l) 64 pmpW = true) := by
    rintro ⟨h1, h2⟩
    rcases hpmp with hp | ⟨-, hp⟩
    · exact Bool.noConfusion (hp.symm.trans h2)
    · exact Bool.noConfusion (hp.symm.trans h1)
  have hstop' : ¬ ((s.inMode h md).stopped ∨ (s.inMode h md).dieIn (hartDie h) = false) := by
    rintro (h | h)
    · exact hstop h
    · exact Bool.noConfusion (hdie.symm.trans h)
  have hmarks' : NoMarks (s.inMode h md) (hartDie h) l := hmarks
  have hecc : ¬ (lineInHbm l = true ∧ (s.inMode h md).dieEcc (hartDie h) l = true) := by
    rw [State.dieEcc_of_noMarks hmarks']
    exact fun h => Bool.noConfusion h.2
  unfold State.cbo
  rw [if_neg (by simp [hact])]
  dsimp only
  rw [hf']
  dsimp only
  rw [if_neg hpmp', if_neg hstop', if_neg hecc, State.wcDrain_of_none ((s.inMode_wc h md).trans hwc), State.dieLook_of_noMarks hmarks']
  rfl

end Sys2Proof.Machine

namespace Sys2Proof.Machine
/-! # Accesses of the cores (R148, R165, R166) -/

variable {s t : State} {a b : Access} {d c l h : Nat} {md : PrivMode}

/-! ### The way of an access to its caches -/

/-- The prefetchers learn, and nothing else changes. -/
def OnlyStreams (s t : State) : Prop := ∃ m, t = { s with streams := m }

theorem OnlyStreams.refl (s : State) : OnlyStreams s s := ⟨s.streams, rfl⟩

theorem OnlyStreams.trans {r : State} (h : OnlyStreams r s) (h' : OnlyStreams s t) : OnlyStreams r t := by
  obtain ⟨m, rfl⟩ := h
  obtain ⟨n, rfl⟩ := h'
  exact ⟨n, rfl⟩

theorem State.train_onlyStreams (s : State) (d u key pos : Nat) (sealed : Bool) (h : Nat) : OnlyStreams s (s.train d u key pos sealed h) := by
  unfold State.train
  dsimp only
  split
  · exact ⟨_, rfl⟩
  · split
    · exact ⟨_, rfl⟩
    · exact (State.forAll_keepsProp (P := OnlyStreams s) (fun x k _ hx => hx.trans ⟨_, rfl⟩) (.refl s)).trans ⟨_, rfl⟩

theorem State.trainL2_onlyStreams (s : State) (a : Access) : OnlyStreams s (s.trainL2 a) := by
  unfold State.trainL2
  split
  · exact .refl s
  · exact s.train_onlyStreams _ _ _ _ _ _

/-- A load that misses its L1D, or hits a prefetched line there, is learned from. -/
theorem State.trainL1_onlyStreams (s : State) (a : Access) (o : Option CLine) : OnlyStreams s (match o with
    | some x => s.when (x.pref = true) (fun s => s.train (hartDie a.h) (a.h % 18) a.pc (64 * a.line + a.off) a.sealed a.h)
    | none => (s.train (hartDie a.h) (a.h % 18) a.pc (64 * a.line + a.off) a.sealed a.h).trainL2 a) := by
  split
  · unfold State.when
    split
    · exact s.train_onlyStreams _ _ _ _ _ _
    · exact .refl s
  · exact (s.train_onlyStreams _ _ _ _ _ _).trans (State.trainL2_onlyStreams _ a)

theorem State.trainOn_onlyStreams (s : State) (a : Access) : OnlyStreams s (s.trainOn a) := by
  unfold State.trainOn
  dsimp only
  split
  · exact .refl s
  · exact .refl s
  · split
    · exact .refl s
    · exact s.trainL2_onlyStreams a
  · exact s.trainL1_onlyStreams a _
  · exact s.trainL1_onlyStreams a _
  · exact s.trainL2_onlyStreams a

theorem State.wcBefore_of_none (hwc : (s.hartSt a.h).wc = none) : s.wcBefore a = s := by
  have hjoins : s.wcJoins a = false := by
    unfold State.wcJoins
    rw [hwc]
    split
    · rename_i h; cases h
    · rfl
  unfold State.wcBefore
  rw [hjoins, State.wcDrain_of_none hwc]
  split <;> rfl

/-- Where its buffer stands and no code error is met, an access teaches the prefetchers and reaches its caches. -/
theorem State.hartAccess_eq (hbefore : s.wcBefore a = s) (hmarks : NoMarks s (hartDie a.h) a.line) :
    s.hartAccess a = (s.trainOn a).coreAccess a := by
  have hecc : ¬ (s.endsInL1 a = false ∧ s.dieEcc (hartDie a.h) a.line = true) := by
    rw [State.dieEcc_of_noMarks hmarks]
    exact fun h => Bool.noConfusion h.2
  unfold State.hartAccess
  rw [hbefore, State.dieLook_of_noMarks hmarks]
  exact if_neg hecc

/-- The state in which an access of a hart reaches its caches. -/
def State.atCaches (s : State) (h : Nat) (md : PrivMode) (m : SMap Stream) : State := { s.inMode h md with streams := m }

theorem State.hartAccess_atCaches (hbefore : (s.inMode a.h md).wcBefore a = s.inMode a.h md) (hmarks : NoMarks s (hartDie a.h) a.line) :
    ∃ m, (s.inMode a.h md).hartAccess a = (s.atCaches a.h md m).coreAccess a := by
  obtain ⟨m, hm⟩ := (s.inMode a.h md).trainOn_onlyStreams a
  refine ⟨m, ?_⟩
  rw [State.hartAccess_eq hbefore hmarks, hm]
  rfl

theorem State.wcBefore_inMode (hwc : (s.hartSt a.h).wc = none) : (s.inMode a.h md).wcBefore a = s.inMode a.h md :=
  State.wcBefore_of_none ((s.inMode_wc a.h md).trans hwc)

/-- An access that raises no exception reaches its caches. -/
theorem ringBroadcast_next (hr : RingTakes s a b) : ∃ m, exec (.ringBroadcast a) s = .next ((s.atCaches a.h a.mode m).coreAccess b) := by
  obtain ⟨rfl, hstop, hok, hfault, hwc, hmarks⟩ := hr
  obtain ⟨m, hm⟩ := State.hartAccess_atCaches (s := s) (a := s.accessTagged a) (md := a.mode) (State.wcBefore_inMode hwc) hmarks
  have hfault' : (s.inMode a.h a.mode).accessFault a = none := hfault
  refine ⟨m, ?_⟩
  show execRingBroadcast a s = _
  unfold execRingBroadcast
  rw [if_neg (by simp [hstop, hok])]
  dsimp only
  rw [hfault']
  exact congrArg _ hm

/-! ### A line that no cache of the die holds -/

theorem NoCopy.copyIn (hn : NoCopy s d l) {u : Nat} (hu : u < 49) : s.copyIn d u l = none := State.copyIn_eq_none_iff.mpr (hn u hu)

theorem uL3_lt (l : Nat) : uL3 (sliceOf l) < 49 := by
  have := sliceOf_lt l
  unfold uL3
  omega

/-- A cluster without modified L1D copies has nothing to fold. -/
theorem State.collapse_of_clean (h : ∀ k, k ∈ [2 * c, 2 * c + 1] → ∀ x, s.copyIn d (uL1d k) l = some x → x.st ≠ 2) : s.collapse d c l = s := by
  refine State.forAll_keepsProp (P := fun x => x = s) (fun x k hk hx => ?_) rfl
  subst hx
  split
  · exact if_neg (h k hk _ ‹_›)
  · rfl

theorem State.collapse_of_none (h : ∀ k, k ∈ [2 * c, 2 * c + 1] → s.copyIn d (uL1d k) l = none) : s.collapse d c l = s :=
  State.collapse_of_clean fun k hk x hx => by rw [h k hk] at hx; cases hx

/-- No L1 cache holds anything to fold into an L2. -/
theorem State.collapseDie_of_none (h : ∀ k, k < 18 → s.copyIn d (uL1d k) l = none) : s.collapseDie d l = s := by
  refine State.forAll_keepsProp (P := fun x => x = s) (fun x c hc hx => ?_) rfl
  subst hx
  refine State.collapse_of_none fun k hk => h k ?_
  rw [List.mem_range] at hc
  simp only [List.mem_cons, List.not_mem_nil, or_false] at hk
  omega

theorem NoCopy.collapseDie (hn : NoCopy s d l) : s.collapseDie d l = s :=
  State.collapseDie_of_none fun k hk => hn.copyIn (by unfold uL1d; omega)

theorem NoCopy.holders (hn : NoCopy s d l) : s.holders d l = [] := by
  rw [List.eq_nil_iff_forall_not_mem]
  intro u hu
  obtain ⟨hunit, hsome⟩ := State.mem_holders.mp hu
  have h49 : u < 49 := by
    rcases hunit with h | h
    · omega
    · rw [h]; exact uL3_lt l
  rw [hn u h49] at hsome
  cases hsome

theorem NoCopy.dieLevel (hn : NoCopy s d l) : s.dieLevel d l = 0 := by
  unfold State.dieLevel
  dsimp only
  rw [hn.collapseDie, hn.holders]
  rfl

theorem NoCopy.peerOf (hn : NoCopy s d l) : s.peerOf d l = none := by
  have hnil : ((List.range 9).map uL2).filterMap (fun u => (s.copyIn d u l).map (fun x => (u, x))) = [] := by
    rw [List.filterMap_eq_nil_iff]
    intro u hu
    obtain ⟨c, hc, rfl⟩ := List.mem_map.mp hu
    rw [hn.copyIn (by have := List.mem_range.mp hc; unfold uL2; omega)]
    rfl
  unfold State.peerOf
  rw [hn.copyIn (uL3_lt l), hnil]
  rfl

theorem uL2_hart_lt (h : Nat) : uL2 (hartCluster h) < 45 := by
  unfold uL2 hartCluster
  omega

theorem NoCopy.inL2 (hn : NoCopy s (hartDie a.h) a.line) : s.inL2 a = false := by
  unfold State.inL2
  rw [hn _ (Nat.lt_trans (uL2_hart_lt a.h) (by decide))]
  rfl

/-! ### A transaction of a slice -/

theorem State.sliceTxn_stable (h : s.lineBusy d l = false) : (s.sliceTxn d l).st = .stable := by
  simpa [State.lineBusy] using h

/-- A free entry takes the line, and its request leaves. -/
theorem State.sliceOpen_asks (hfree : s.entryFree d (sliceOf a.line) = true) (st : SliceSt) (k : CohKind) :
    SliceAsks d a st k s (s.sliceOpen d a st k) ∧ (s.sliceOpen d a st k).cache = s.cache ∧ (s.sliceOpen d a st k).regs = s.regs ∧
    (s.sliceOpen d a st k).streams = s.streams := by
  unfold State.sliceOpen
  rw [if_pos hfree]
  refine ⟨⟨?_, rfl⟩, rfl, rfl, rfl⟩
  exact SMap.get_set_same _ _ _

theorem NoCopy.readBroadcast (hn : NoCopy s (hartDie a.h) a.line) (hbusy : s.lineBusy (hartDie a.h) a.line = false) :
    s.readBroadcast a = s.sliceOpen (hartDie a.h) a .isD .rdS := by
  unfold State.readBroadcast
  simp only [State.sliceTxn_stable hbusy, hn.collapseDie, hn.peerOf, if_true]

theorem NoCopy.ownBroadcast (hn : NoCopy s (hartDie a.h) a.line) (hbusy : s.lineBusy (hartDie a.h) a.line = false) :
    s.ownBroadcast a = s.sliceOpen (hartDie a.h) a .ixD .rdX := by
  unfold State.ownBroadcast
  simp only [hbusy, hn.dieLevel, Bool.false_eq_true, if_false]

theorem NoCopy.coreOwns (hn : NoCopy s (hartDie a.h) a.line) (hbusy : s.lineBusy (hartDie a.h) a.line = false) :
    s.coreOwns a = s.sliceOpen (hartDie a.h) a .ixD .rdX := by
  unfold State.coreOwns
  dsimp only
  rw [hn.copyIn (Nat.lt_trans (uL2_hart_lt a.h) (by decide))]
  exact hn.ownBroadcast hbusy

/-- A write-through access, which must find room for its clean. -/
theorem State.coreStore_eq (hroom : s.policy (hartDie a.h) a.sealed a.line = 1 → s.wbRoom (hartDie a.h) (sliceOf a.line) 2 = true) :
    s.coreStore a = match a.kind with
      | .store b => if s.inL2 a = false ∧ s.wnaMiss a then s.maskedWrite a b else s.coreOwns a
      | _ => s.coreOwns a := by
  unfold State.coreStore
  refine if_neg ?_
  rintro ⟨hwt, -, hno⟩
  exact Bool.noConfusion ((hroom hwt).symm.trans hno)

/-- A store outside WNA, an AMO and an SC need ownership. -/
theorem State.coreStore_owns (hroom : s.policy (hartDie a.h) a.sealed a.line = 1 → s.wbRoom (hartDie a.h) (sliceOf a.line) 2 = true)
    (hwna : ∀ b, a.kind = .store b → s.inL2 a = true ∨ s.policy (hartDie a.h) a.sealed a.line ≠ 2) : s.coreStore a = s.coreOwns a := by
  rw [State.coreStore_eq hroom]
  split
  · rename_i b hb
    refine if_neg ?_
    rintro ⟨hin, hmiss⟩
    rcases hwna b hb with h | h
    · exact Bool.noConfusion (hin.symm.trans h)
    · unfold State.wnaMiss at hmiss
      simp [h] at hmiss
  · rfl

/-- A read that no cache of the die serves. -/
theorem NoCopy.coreRead (hn : NoCopy s (hartDie a.h) a.line) (hbusy : s.lineBusy (hartDie a.h) a.line = false)
    (hk : a.kind = .load ∨ a.kind = .fetch ∨ (∃ w, a.kind = .lr w) ∨ a.kind = .prefL1 ∨ a.kind = .prefL2) :
    s.coreAccess a = s.sliceOpen (hartDie a.h) a .isD .rdS := by
  have h1d := hn (uL1d (a.h % 18)) (by unfold uL1d; omega)
  have hd := hn.copyIn (u := uL1d (a.h % 18)) (by unfold uL1d; omega)
  have hi := hn.copyIn (u := uL1i (a.h % 18)) (by unfold uL1i; omega)
  rw [← hn.readBroadcast hbusy]
  unfold State.coreAccess
  rcases hk with h | h | ⟨w, h⟩ | h | h <;>
    simp only [h, hd, hi, h1d, hn.inL2, hbusy, Bool.false_eq_true, if_false, Option.isSome_none, or_self]

/-- A store, an AMO or a successful SC is one of the caches' stores. -/
theorem State.coreAccess_store (hk : accIsAmo a = true ∨ (∃ b, a.kind = .store b) ∨ (∃ b, a.kind = .sc b) ∧ s.reserved a = true) :
    s.coreAccess a = s.coreStore a := by
  unfold State.coreAccess
  rcases hk with h | ⟨b, h⟩ | ⟨⟨b, h⟩, hres⟩
  · unfold accIsAmo at h
    split at h
    · rename_i hk; simp only [hk]
    · cases h
  · simp only [h]
  · simp only [h, hres, if_true]

end Sys2Proof.Machine

namespace Sys2Proof.Machine
/-! # Cache maintenance by address: zeros, and the obligation (R153 to R155) -/

variable {s t : State} {d l h : Nat} {md : PrivMode} {c : Issuer} {b : Bytes}

/-! ### Zeros in Piton memory -/

/-- A byte that serves an access is refused by nothing. -/
theorem State.pitonRefuses_of_byte {x : Nat} (hd : d < 12) (hdev : c.agent ≠ .device) (hb : PitonByte s c d x) : s.pitonRefuses c x = none := by
  obtain ⟨sl, w, o, hsl, hw4, hw16, ho, rfl, haway, hmode, hbusy, hrel, howner, hpoison⟩ := hb
  have hdie : (pitonBase d sl w + o - 0x10000000000) / 0x10000000 = d := by unfold pitonBase; omega
  have hoff : (pitonBase d sl w + o - 0x10000000000) % 0x10000000 = sl * 0x900000 + (w - 4) * 0xC0000 + o := by unfold pitonBase; omega
  have hslice : (sl * 0x900000 + (w - 4) * 0xC0000 + o) / 0x900000 = sl := by omega
  have hway : 4 + (sl * 0x900000 + (w - 4) * 0xC0000 + o) % 0x900000 / 0xC0000 = w := by omega
  have hrefused : ¬ (12 ≤ d ∨ 0x2400000 ≤ sl * 0x900000 + (w - 4) * 0xC0000 + o ∨ c.agent = .device ∨ s.dieAway d = true ∨
      (s.get (L.WLD_L3WAY.PITON d sl)).testBit (w - 4) = false ∨ (SMap.get s.pitonBusy (4 * d + sl)).testBit w = true ∨
      s.isReleasing (.l3 (64 * d + 16 * sl + w)) = true) := by
    rw [haway, hmode, hbusy, hrel]
    rintro (h | h | h | h | h | h | h)
    · omega
    · omega
    · exact hdev h
    all_goals cases h
  unfold State.pitonRefuses
  simp only [hdie, hoff, hslice, hway]
  rw [if_neg hrefused, if_neg (by simp [howner]), if_neg (by simp [hpoison])]

/-- A store each byte of which is served puts its bytes into memory. -/
theorem State.pitonDo_store {a : PAddr} (hs : PitonServes s c a (.store b) d) (hlen : 8 < b.length) :
    s.pitonDo c a (.store b) = ((s.writeBytes a.toNat (b.map (BitVec.ofNat 8))).answer .ok) := by
  obtain ⟨⟨hd, hlo, hhi, hmake, hreach, hpmp⟩, hdev, hal, hbytes⟩ := hs
  have hdie : (a.toNat - 0x10000000000) / 0x10000000 = d := by omega
  have hfirst : ¬ (a.toNat < 0x10000000000 ∨ 12 ≤ d ∨ (s.dieSt d).otherMake = true) := by
    rw [hmake]
    rintro (h | h | h)
    · omega
    · omega
    · cases h
  have hmis : pitonMisaligned (.store b) a.toNat = none := if_neg (by
    rintro ⟨-, h, -⟩
    have : b.length ≤ 8 := h
    omega)
  have hnone : (List.range (pitonShape (.store b)).1).findSome? (fun i => (s.pitonRefuses c (a.toNat + i)).map (fun e => (i, e))) = none := by
    rw [List.findSome?_eq_none_iff]
    intro i hi
    rw [State.pitonRefuses_of_byte hd hdev (hbytes i (List.mem_range.mp hi))]
    rfl
  unfold State.pitonDo
  simp only [hdie, hmis, hnone]
  rw [if_neg hfirst, if_neg (by simp)]

/-- The bytes of memory after a line of zeros. -/
theorem State.readByte_zeros (s : State) (a x : Nat) :
    (s.writeBytes a ((zeros 64).map (BitVec.ofNat 8))).readByte x = if a ≤ x ∧ x < a + 64 then 0 else s.readByte x := by
  have hz : (zeros 64).map (BitVec.ofNat 8) = List.replicate 64 0 := List.map_replicate
  rw [hz]
  split
  · rename_i hx
    obtain ⟨i, rfl⟩ := Nat.exists_eq_add_of_le hx.1
    rw [State.readByte_writeBytes_in s a _ i (by rw [List.length_replicate]; omega), List.getElem_replicate]
  · rename_i hx
    exact State.readByte_writeBytes_out s a _ (by rw [List.length_replicate]; omega)

/-- What a store to memory with its answer leaves. -/
theorem State.stored_answer (s : State) (a : Nat) (bs : List (BitVec 8)) :
    ((s.writeBytes a bs).answer .ok).resp = .ok ∧ ((s.writeBytes a bs).answer .ok).regs = s.regs ∧
    ∀ x, ((s.writeBytes a bs).answer .ok).readByte x = (s.writeBytes a bs).readByte x :=
  ⟨rfl, State.writeBytes_same a bs .regs (by decide), fun _ => rfl⟩

/-! ### CBO_ZERO -/

section
variable {h : Fin 216}

theorem cboZero_fault (hact : s.hartActs h = true) {e : Resp} (hf : s.cboFault h 3 md = some e) :
    exec (.cboZero h md l) s = .next ((s.inMode h md).answer e) := by
  have hf' : (s.inMode h md).cboFault h 3 md = some e := hf
  show execCboZero h md l s = _
  unfold execCboZero
  simp only [hact, hf', Bool.true_eq_false, if_false]

theorem cboZero_pmp (hact : s.hartActs h = true) (hf : s.cboFault h 3 md = none) (hw : s.pmpFault h md (64 * l) 64 pmpW = true) :
    exec (.cboZero h md l) s = .next ((s.inMode h md).answer .accessFault) := by
  have hf' : (s.inMode h md).cboFault h 3 md = none := hf
  have hw' : (s.inMode h md).pmpFault h md (64 * l) 64 pmpW = true := hw
  show execCboZero h md l s = _
  unfold execCboZero
  simp only [hact, hf', hw', Bool.true_eq_false, if_false, if_true]

/-- The store of zeros that cbo.zero makes of a line. -/
def zeroAccess (s : State) (h l : Nat) (md : PrivMode) : Access := ⟨h, l, 0, .store (zeros 64), (s.hartIssuer h md).sealed, false, 0, md⟩

/-- A cbo.zero that its conditions allow is a store in the HBM range, and zeros put at their place outside it. -/
theorem cboZero_runs (hr : CboRuns s h 3 md l) : exec (.cboZero h md l) s =
    if lineInHbm l then
      if (s.inMode h md).stopped ∨ (s.inMode h md).accessOk (zeroAccess s h l md) = false then .next (s.inMode h md)
      else .next ((s.inMode h md).hartAccess ((s.inMode h md).accessTagged (zeroAccess s h l md)))
    else .next ((s.inMode h md).zeroOutside (s.hartIssuer h md) (64 * l)) := by
  obtain ⟨hact, hstop, hdie, hf, hpmp, hmarks, hwc⟩ := hr
  have hf' : (s.inMode h md).cboFault h 3 md = none := hf
  have hw : s.pmpFault h md (64 * l) 64 pmpW = false := hpmp.resolve_right fun h => h.1 rfl
  have hw' : (s.inMode h md).pmpFault h md (64 * l) 64 pmpW = false := hw
  show execCboZero h md l s = _
  unfold execCboZero
  dsimp only
  rw [if_neg (by simp [hact]), hf']
  dsimp only
  rw [if_neg (by simp [hw']), State.wcDrain_of_none ((s.inMode_wc h md).trans hwc)]
  rfl

theorem State.hartActs_inMode (s : State) (h : Nat) (md : PrivMode) : (s.inMode h md).hartActs h = s.hartActs h := by
  unfold State.hartActs State.inMode State.setHart State.hartSt
  rw [SMap.get_set_same]
  rfl

/-- A mode is no condition of an access. -/
theorem State.accessOk_inMode (s : State) (a : Access) (md : PrivMode) : (s.inMode a.h md).accessOk a = s.accessOk a := by
  unfold State.accessOk
  rw [State.hartActs_inMode]
  rfl

/-- In the HBM range it is a store of a hart. -/
theorem cboZero_hbm (hr : CboRuns s h 3 md l) (hl : lineInHbm l = true) (hok : s.accessOk (zeroAccess s h l md) = true) :
    ∃ m, exec (.cboZero h md l) s = .next ((s.atCaches h md m).coreAccess (s.accessTagged (zeroAccess s h l md))) := by
  have ⟨_, hstop, _, _, _, hmarks, hwc⟩ := hr
  obtain ⟨m, hm⟩ := State.hartAccess_atCaches (s := s) (a := s.accessTagged (zeroAccess s h l md)) (md := md) (State.wcBefore_inMode hwc) hmarks
  have hgo : ¬ ((s.inMode h md).stopped ∨ (s.inMode h md).accessOk (zeroAccess s h l md) = false) := by
    rintro (h | h)
    · exact hstop h
    · exact Bool.noConfusion (hok.symm.trans ((s.accessOk_inMode (zeroAccess s _ l md) md).symm.trans h))
  exact ⟨m, (cboZero_runs hr).trans ((if_pos hl).trans ((if_neg hgo).trans (congrArg _ hm)))⟩

/-- In Piton memory the bytes become zero. -/
theorem cboZero_piton (hr : CboRuns s h 3 md l) (hl : 64 * l < 2 ^ 48)
    (hs : PitonServes (s.inMode h md) (s.hartIssuer h md) (BitVec.ofNat 48 (64 * l)) (.store (zeros 64)) d) :
    exec (.cboZero h md l) s = .next (((s.inMode h md).writeBytes (64 * l) ((zeros 64).map (BitVec.ofNat 8))).answer .ok) := by
  have haddr : (BitVec.ofNat 48 (64 * l)).toNat = 64 * l := by rw [BitVec.toNat_ofNat, Nat.mod_eq_of_lt hl]
  have ⟨⟨hd, hlo, hhi, hmake, hreach, _⟩, _, _, _⟩ := hs
  rw [haddr] at hlo hhi
  have hdie : (64 * l - 0x10000000000) / 0x10000000 = d := by omega
  have hnot : ¬ lineInHbm l = true := by
    unfold lineInHbm hbmEnd
    rw [decide_eq_true_eq]
    omega
  have hplace : 0x10000000000 ≤ 64 * l ∧ 64 * l < 0x100C0000000 ∧
      ((s.inMode h md).dieSt ((64 * l - 0x10000000000) / 0x10000000)).otherMake = false := ⟨by omega, by omega, by rw [hdie]; exact hmake⟩
  have hstore := State.pitonDo_store hs (show 8 < (zeros 64).length by decide)
  rw [haddr] at hstore
  rw [cboZero_runs hr, if_neg hnot]
  unfold State.zeroOutside
  rw [if_pos hplace, hdie, State.when_true hreach, hstore]

end

/-! ### The obligation -/

/-- A store that no cache of its die holds, of a hart at its caches, is asked of the home. -/
theorem NoCopy.coreStore_asks {a : Access} (hn : NoCopy s (hartDie a.h) a.line) (hbusy : s.lineBusy (hartDie a.h) a.line = false)
    (hroom : s.policy (hartDie a.h) a.sealed a.line = 1 → s.wbRoom (hartDie a.h) (sliceOf a.line) 2 = true)
    (hkind : accIsAmo a = true ∨ (∃ b, a.kind = .store b) ∧ s.policy (hartDie a.h) a.sealed a.line ≠ 2)
    (hfree : s.entryFree (hartDie a.h) (sliceOf a.line) = true) :
    SliceAsks (hartDie a.h) a .ixD .rdX s (s.coreAccess a) ∧ (s.coreAccess a).cache = s.cache ∧ (s.coreAccess a).regs = s.regs := by
  have howns : s.coreStore a = s.coreOwns a := State.coreStore_owns hroom fun b hb => by
    rcases hkind with h | h
    · unfold accIsAmo at h
      rw [hb] at h
      cases h
    · exact .inr h.2
  rw [State.coreAccess_store (hkind.imp_right fun h => .inl h.1), howns, hn.coreOwns hbusy]
  obtain ⟨hasks, hcache, hregs, -⟩ := State.sliceOpen_asks hfree .ixD .rdX
  exact ⟨hasks, hcache, hregs⟩

/-- Settles O26: the clauses are the cases of maintain, and the ways of a line keep their tags until its copies go. -/
theorem maintenanceByAddress : Obligations.MaintenanceByAddress := by
  unfold Obligations.MaintenanceByAddress
  refine ⟨fun h md l e s hact => ⟨fun hf => ?_, fun hf => ?_, fun hf => ?_, fun hf => ?_⟩, fun h md l s hact hw => ⟨fun hf => ?_, fun hf hr => ?_⟩,
    fun h md l r s hr hl hmem hop hline => ?_, fun h md l m s hl hopen hn hm => ?_,
    fun h md l d u w s hl hopen hn hfatal hown hroom hd hf => ?_, fun h md l a b s hr hl ha htakes hn hbusy hpol hroom hfree => ?_,
    fun h md l d s hr hl hs => ?_⟩
  · exact ⟨_, State.cbo_fault hact hf, rfl, rfl, fun _ _ => rfl⟩
  · exact ⟨_, State.cbo_fault hact hf, rfl, rfl, fun _ _ => rfl⟩
  · exact ⟨_, State.cbo_fault hact hf, rfl, rfl, fun _ _ => rfl⟩
  · exact ⟨_, cboZero_fault hact hf, rfl, rfl, rfl, fun _ _ => rfl⟩
  · exact ⟨_, cboZero_pmp hact hf hw, rfl, rfl, rfl, fun _ _ => rfl⟩
  · exact ⟨_, State.cbo_pmp hact hf hw hr, rfl, rfl, rfl, fun _ _ => rfl⟩
  · refine ⟨_, State.cbo_runs hr, ?_⟩
    rw [State.maintain_waits (s := s.inMode h md) hl hmem hop hline]
    exact ⟨rfl, rfl, rfl, fun _ _ => rfl, State.dieSent_sent (s.inMode h md) _ _ _ _ _ _⟩
  · have hasks := fun op m' => State.maintain_asked (s := s.inMode h md) (h := h) (op := op) (c := s.hartIssuer h md) (m := m') hl hopen hn
    refine ⟨fun hr => ⟨_, State.cbo_runs hr, ?_⟩, fun hr => ⟨_, State.cbo_runs hr, ?_⟩,
      fun hr => ⟨_, State.cbo_runs hr, ?_⟩⟩
    · obtain ⟨hregs, hout⟩ := hasks 0 m (by subst hm; rfl)
      exact ⟨fun _ _ => State.rd_congr hregs, hout⟩
    · obtain ⟨hregs, hout⟩ := hasks 1 { m with op := 1 } (by subst hm; rfl)
      exact ⟨fun _ _ => State.rd_congr hregs, hout⟩
    · obtain ⟨hregs, hout⟩ := hasks (if s.cboDiscards h md then 2 else 1)
        { m with op := if s.cboDiscards h md then 2 else 1, flag := s.cboDiscards h md }
        (by subst hm; cases s.cboDiscards h md <;> rfl)
      exact ⟨fun _ _ => State.rd_congr hregs, hout⟩
  · have hquiet : Quiet (s.inMode h md) h l := Quiet.inMode ⟨hl, hopen, hn, hfatal, hown, hroom⟩ md
    refine ⟨fun hu hr => ⟨_, State.cbo_runs hr, ?_⟩, fun hu hr => ⟨_, State.cbo_runs hr, ?_⟩,
      fun hu hr => ⟨_, State.cbo_runs hr, ?_⟩⟩
    · exact hquiet.flushes (by decide) hd hf hu
    · exact hquiet.flushes (by split <;> decide) hd hf hu
    · exact (hquiet.cleans hd hf hu).holds
  · subst ha
    obtain ⟨rfl, -, hok, -⟩ := htakes
    obtain ⟨m, hm⟩ := cboZero_hbm hr hl hok
    obtain ⟨hasks, -, hregs⟩ := NoCopy.coreStore_asks (s := s.atCaches h md m) (a := s.accessTagged (zeroAccess s h l md)) hn hbusy hroom
      (.inr ⟨⟨_, rfl⟩, hpol⟩) hfree
    exact ⟨_, hm, hasks, fun _ _ => State.rd_congr hregs⟩
  · obtain ⟨hresp, hregs, hbytes⟩ := (s.inMode h md).stored_answer (64 * l) ((zeros 64).map (BitVec.ofNat 8))
    exact ⟨_, cboZero_piton hr hl hs, hresp, fun _ _ => State.rd_congr hregs, fun x => (hbytes x).trans ((s.inMode h md).readByte_zeros _ x)⟩

end Sys2Proof.Machine

namespace Sys2Proof.Machine
/-! # Accesses mark no word and lose no record (R143, R430) -/

variable {r s t : State} {a : Access} {d l k n : Nat}

/-! ### Operations that write no register -/

theorem Heals.of_same (hr : t.regs = s.regs) (he : t.ecc = s.ecc) : Heals s t := ⟨hr, he ▸ List.Subset.refl _⟩

theorem OnlyStreams.heals (h : OnlyStreams s t) : Heals s t := by
  obtain ⟨m, rfl⟩ := h
  exact .of_same rfl rfl

theorem Heals.when {p : Prop} [Decidable p] {f : State → State} (hf : p → Heals s (f s)) : Heals s (s.when p f) := by
  unfold State.when
  exact .ite hf fun _ => .refl s

theorem State.answer_heals (s : State) (x : Resp) : Heals s (s.answer x) := .of_same rfl rfl

theorem State.touchWay_heals (s : State) (d u set w : Nat) : Heals s (s.touchWay d u set w) := .of_same rfl rfl

theorem State.hit_heals (s : State) (d u l : Nat) : Heals s (s.hit d u l) := by
  unfold State.hit
  split
  · exact s.touchWay_heals _ _ _ _
  · exact .refl s

theorem State.sliceWait_heals (s : State) (d : Nat) (a : Access) : Heals s (s.sliceWait d a) := .of_same rfl rfl

theorem State.sliceOpen_heals (s : State) (d : Nat) (a : Access) (st : SliceSt) (k : CohKind) : Heals s (s.sliceOpen d a st k) :=
  .ite (fun _ => .of_same rfl rfl) fun _ => .of_same rfl rfl

theorem State.wcDrain_heals (s : State) (h : Nat) : Heals s (s.wcDrain h) := by
  unfold State.wcDrain
  split
  · exact .of_same rfl rfl
  · exact .refl s

theorem State.maskedWrite_heals (s : State) (a : Access) (b : Bytes) : Heals s (s.maskedWrite a b) :=
  .ite (fun _ => .of_same rfl rfl) fun _ => .of_same rfl rfl

theorem State.unreserve_heals (s : State) (d k : Nat) : Heals s (s.unreserve d k) :=
  .forAll (fun _ _ => .ite (fun _ => State.setCline_heals _ _ _ _ _ _) fun _ => .refl _) _ _

/-! ### Lines that fill ways and leave them -/

/-- A line put into a way, which is the last accessed of its set then. -/
theorem State.put_heals (s : State) (d u set w : Nat) (x : CLine) : Heals s ((s.setCline d u set w x).touchWay d u set w) :=
  (s.setCline_heals d u set w x).trans (State.touchWay_heals _ _ _ _ _)

theorem State.evictL3_heals (s : State) (d sl set w : Nat) : Heals s (s.evictL3 d sl set w) :=
  (s.setCline_heals _ _ _ _ _).trans (.ite (fun _ => State.sliceWb_heals _ _ _ _ _ _ _) fun _ => .refl _)

theorem State.fillL3_heals (s : State) (d l st : Nat) (data : Bytes) (poison sealed : Bool) : Heals s (s.fillL3 d l st data poison sealed).1 := by
  unfold State.fillL3
  dsimp only
  split
  · exact s.put_heals _ _ _ _ _
  · split
    · exact .refl s
    · exact (s.evictL3_heals _ _ _ _).trans (State.put_heals _ _ _ _ _ _)

theorem State.evictL2_heals (s : State) (d c set w : Nat) : Heals s (s.evictL2 d c set w) := by
  refine ((s.collapse_heals d c _).trans (State.dropCluster_heals _ d c _)).trans (.ite (fun _ => .ite (fun _ => State.sliceWb_heals _ _ _ _ _ _ _)
    fun _ => .ite (fun _ => State.fillL3_heals _ _ _ _ _ _ _) fun _ => State.sliceWb_heals _ _ _ _ _ _ _) fun _ => .refl _)

theorem State.fillL2_heals (s : State) (d c l st : Nat) (data : Bytes) (poison : Bool) : Heals s (s.fillL2 d c l st data poison) := by
  unfold State.fillL2
  dsimp only
  split
  · exact s.put_heals _ _ _ _ _
  · split
    · exact .refl s
    · exact (s.evictL2_heals _ _ _ _).trans (State.put_heals _ _ _ _ _ _)

theorem State.fillL1_heals (s : State) (d u l st : Nat) (data : Bytes) (poison pref : Bool) : Heals s (s.fillL1 d u l st data poison pref) := by
  unfold State.fillL1
  dsimp only
  split
  · exact s.put_heals _ _ _ _ _
  · split
    · exact .refl s
    · exact (Heals.ite (fun _ => s.collapse_heals _ _ _) fun _ => .refl s).trans (State.put_heals _ _ _ _ _ _)

/-! ### The ends of stores -/

theorem State.wtClean_heals (s : State) (a : Access) (data : Bytes) (poison : Bool) : Heals s (s.wtClean a data poison) :=
  .ite (fun _ => (s.cleanDie_heals _ _ _).trans (State.sliceWb_heals _ _ _ _ _ _ _)) fun _ => .refl s

theorem State.dropL1_heals (s : State) (d c l : Nat) : Heals s (s.dropL1 d c l) :=
  .forAll (fun x _ => (x.dropCopy_heals _ _ _).trans (State.dropCopy_heals _ _ _ _)) _ _

theorem State.storeDone_heals (s : State) (a : Access) (old data : Bytes) (poison : Bool) : Heals s (s.storeDone a old data poison) := by
  have hun : Heals s (match a.kind with
      | .sc _ => s.unreserve (hartDie a.h) (a.h % 18)
      | _ => s) := by
    split
    · exact s.unreserve_heals _ _
    · exact .refl s
  exact (hun.trans (State.answer_heals _ _)).trans (State.wtClean_heals _ _ _ _)

theorem State.takeOwnership_heals (s : State) (a : Access) : Heals s (s.takeOwnership a) := by
  refine (s.collapseDie_heals (hartDie a.h) a.line).trans ?_
  unfold State.takeOwnership
  dsimp only
  split
  · exact .refl _
  · exact .ite (fun _ => (State.dropDie_heals _ _ _).trans (State.fillL2_heals _ _ _ _ _ _ _)) fun _ =>
      (Heals.forAll (fun _ _ => .ite (fun _ => State.dropCluster_heals _ _ _ _) fun _ => State.dropCopy_heals _ _ _ _) _ _).trans
        (State.changeCopy_heals _ _ _ _ _)

/-! ### Operations that record -/

/-- No word of `s` has a mark that it has not in `r`, and a record of log `n` stands. -/
structure MarksFall (n : Nat) (r s : State) : Prop where
  ecc : s.ecc ⊆ r.ecc
  logged : r.recorded n → s.recorded n

theorem MarksFall.refl (s : State) : MarksFall n s s := ⟨List.Subset.refl _, id⟩

theorem MarksFall.trans (h : MarksFall n r s) (h' : MarksFall n s t) : MarksFall n r t := ⟨List.Subset.trans h'.ecc h.ecc, h'.logged ∘ h.logged⟩

theorem Heals.marksFall (h : Heals r s) : MarksFall n r s := ⟨h.ecc, (State.recorded_of_rd (State.rd_congr h.regs)).mpr⟩

theorem MarksFall.ite {p : Prop} [Decidable p] (hs : p → MarksFall n r s) (ht : ¬ p → MarksFall n r t) : MarksFall n r (if p then s else t) := by
  split
  · exact hs ‹_›
  · exact ht ‹_›

theorem MarksFall.forAll {α : Type} {f : State → α → State} (hf : ∀ x a, MarksFall n x (f x a)) (as : List α) (s : State) :
    MarksFall n s (s.forAll as f) :=
  State.forAll_keepsProp (P := MarksFall n s) (fun x a _ hx => hx.trans (hf x a)) (.refl s)

theorem State.logRec_ecc (s : State) (n a b c : Nat) (i : Issuer) (aux : Nat) : (s.logRec n a b c i aux).ecc = s.ecc :=
  (State.logRec_keeps (F := [.regs, .newtIrq, .fieldOps, .paused, .caps, .capBusy]) (by decide) (by decide) (by decide) (by decide) (by decide)
    (by decide) .refl n a b c i aux).frame .ecc (by decide)

section
variable (hn : n < 512)
include hn

theorem State.logRec_marksFall (s : State) (m a b c : Nat) (i : Issuer) (aux : Nat) : MarksFall n s (s.logRec m a b c i aux) :=
  ⟨(s.logRec_ecc m a b c i aux) ▸ List.Subset.refl _, fun h => State.logRec_recorded_kept hn h m a b c i aux⟩

theorem State.fatalStop_marksFall (s : State) (m code line src : Nat) : MarksFall n s (s.fatalStop m code line src) :=
  ⟨((State.fatalStop_keeps (F := [.regs, .newtIrq, .fieldOps, .paused, .csq, .faultN, .txIdle, .caps, .capBusy]) (by decide) (by decide)
    (by decide) (by decide) (by decide) (by decide) (by decide) (by decide) (by decide) .refl m code line src).frame .ecc (by decide) :
      (s.fatalStop m code line src).ecc = s.ecc) ▸ List.Subset.refl _, fun h => State.fatalStop_recorded_kept hn h m code line src⟩

theorem State.consumePoison_marksFall (s : State) (a : Access) : MarksFall n s (s.consumePoison a) :=
  (State.logRec_marksFall hn s _ _ _ _ _ _).trans (State.answer_heals _ _).marksFall

theorem State.loadDone_marksFall (s : State) (a : Access) (x : CLine) : MarksFall n s (s.loadDone a x) := by
  unfold State.loadDone
  split
  · exact .refl s
  · exact .refl s
  · exact .ite (fun _ => State.consumePoison_marksFall hn s a) fun _ =>
      (((s.unreserve_heals _ _).trans (State.changeCopy_heals _ _ _ _ _)).trans (State.answer_heals _ _)).marksFall
  · exact .ite (fun _ => State.consumePoison_marksFall hn s a) fun _ => (s.answer_heals _).marksFall

theorem State.readFromL2_marksFall (s : State) (a : Access) : MarksFall n s (s.readFromL2 a) := by
  refine (s.collapse_heals (hartDie a.h) (hartCluster a.h) a.line).marksFall.trans ?_
  unfold State.readFromL2
  dsimp only
  split
  · exact .refl _
  · refine (State.hit_heals _ (hartDie a.h) (uL2 (hartCluster a.h)) a.line).marksFall.trans ?_
    split
    · exact .refl _
    · exact (State.fillL1_heals _ _ _ _ _ _ _ _).marksFall.trans (State.loadDone_marksFall hn _ _ _)
    · exact (State.fillL1_heals _ _ _ _ _ _ _ _).marksFall.trans (State.loadDone_marksFall hn _ _ _)

theorem State.storeInto_marksFall (s : State) (a : Access) : MarksFall n s (s.storeInto a) := by
  refine (s.collapseDie_heals (hartDie a.h) a.line).marksFall.trans ?_
  unfold State.storeInto
  dsimp only
  split
  · exact .refl _
  · exact .ite (fun _ => State.consumePoison_marksFall hn _ a) fun _ => Heals.marksFall <|
      (Heals.when fun _ => State.dropL1_heals _ _ _ _).trans <| (State.hit_heals _ _ _ _).trans <|
      (Heals.when fun _ => State.fillL1_heals _ _ _ _ _ _ _ _).trans <|
      (Heals.ite (fun _ => (State.changeCopy_heals _ _ _ _ _).trans (State.changeCopy_heals _ _ _ _ _)) fun _ => State.changeCopy_heals _ _ _ _ _).trans
      (State.storeDone_heals _ _ _ _ _)

theorem State.storeOwned_marksFall (s : State) (a : Access) : MarksFall n s (s.storeOwned a) := by
  unfold State.storeOwned
  dsimp only
  split
  · exact .ite (fun _ => .ite (fun _ => State.consumePoison_marksFall hn s a) fun _ => Heals.marksFall <|
      (s.hit_heals _ _ _).trans <| (State.changeCopy_heals _ _ _ _ _).trans (State.storeDone_heals _ _ _ _ _)) fun _ =>
      State.storeInto_marksFall hn s a
  · exact State.storeInto_marksFall hn s a

theorem State.peerServes_marksFall (s : State) (a : Access) (u : Nat) (x : CLine) : MarksFall n s (s.peerServes a u x) := by
  refine (s.hit_heals (hartDie a.h) u a.line).marksFall.trans ?_
  exact .ite (fun _ => State.loadDone_marksFall hn _ _ _) fun _ =>
    .ite (fun _ => ((State.dropCluster_heals _ _ _ _).trans (State.fillL2_heals _ _ _ _ _ _ _)).marksFall.trans (State.readFromL2_marksFall hn _ _)) fun _ =>
    .ite (fun _ => ((State.dropCopy_heals _ _ _ _).trans (State.fillL2_heals _ _ _ _ _ _ _)).marksFall.trans (State.readFromL2_marksFall hn _ _)) fun _ =>
      (State.fillL2_heals _ _ _ _ _ _ _).marksFall.trans (State.readFromL2_marksFall hn _ _)

theorem State.readBroadcast_marksFall (s : State) (a : Access) : MarksFall n s (s.readBroadcast a) := by
  unfold State.readBroadcast
  dsimp only
  split
  · exact (s.sliceWait_heals _ _).marksFall
  · exact (s.sliceWait_heals _ _).marksFall
  · exact (s.sliceWait_heals _ _).marksFall
  · split
    · exact (s.collapseDie_heals _ _).marksFall.trans (State.peerServes_marksFall hn _ _ _ _)
    · exact .ite (fun _ => (s.sliceOpen_heals _ _ _ _).marksFall) fun _ => (s.sliceWait_heals _ _).marksFall

theorem State.ownBroadcast_marksFall (s : State) (a : Access) : MarksFall n s (s.ownBroadcast a) := by
  unfold State.ownBroadcast
  dsimp only
  split
  · exact (s.sliceWait_heals _ _).marksFall
  · split
    · exact (s.sliceOpen_heals _ _ _ _).marksFall
    · exact (s.sliceOpen_heals _ _ _ _).marksFall
    · exact (s.takeOwnership_heals a).marksFall.trans (State.storeOwned_marksFall hn _ _)

theorem State.coreOwns_marksFall (s : State) (a : Access) : MarksFall n s (s.coreOwns a) := by
  unfold State.coreOwns
  dsimp only
  split
  · exact .ite (fun _ => State.storeOwned_marksFall hn s a) fun _ => State.ownBroadcast_marksFall hn s a
  · exact State.ownBroadcast_marksFall hn s a

theorem State.coreStore_marksFall (s : State) (a : Access) : MarksFall n s (s.coreStore a) := by
  unfold State.coreStore
  dsimp only
  split
  · exact Heals.marksFall (s := { s with ring := s.ring ++ [a] }) (.of_same rfl rfl)
  · split
    · exact .ite (fun _ => (s.maskedWrite_heals _ _).marksFall) fun _ => State.coreOwns_marksFall hn s a
    · exact State.coreOwns_marksFall hn s a

/-- An access whose L1 copy is there, or not. -/
theorem State.coreMiss_marksFall (s : State) (a : Access) : MarksFall n s (if s.inL2 a then s.readFromL2 a else s.readBroadcast a) :=
  .ite (fun _ => State.readFromL2_marksFall hn s a) fun _ => State.readBroadcast_marksFall hn s a

/-- What an access does to a line is marked nowhere, and takes no record away. -/
theorem State.coreAccess_marksFall (s : State) (a : Access) : MarksFall n s (s.coreAccess a) := by
  have hread : ∀ (u : Nat) (x : CLine), MarksFall n s ((s.hit (hartDie a.h) u a.line).loadDone a x) := fun u x =>
    (s.hit_heals _ _ _).marksFall.trans (State.loadDone_marksFall hn _ _ _)
  have hload : MarksFall n s (match s.copyIn (hartDie a.h) (uL1d (a.h % 18)) a.line with
      | some x => ((s.when (x.pref = true) (fun s => s.changeCopy (hartDie a.h) (uL1d (a.h % 18)) a.line (fun y => { y with pref := false }))).hit
          (hartDie a.h) (uL1d (a.h % 18)) a.line).loadDone a x
      | none => if s.inL2 a then s.readFromL2 a else s.readBroadcast a) := by
    split
    · exact ((Heals.when fun _ => State.changeCopy_heals _ _ _ _ _).trans (State.hit_heals _ _ _ _)).marksFall.trans (State.loadDone_marksFall hn _ _ _)
    · exact State.coreMiss_marksFall hn s a
  unfold State.coreAccess
  dsimp only
  split
  · split
    · exact hread _ _
    · exact State.coreMiss_marksFall hn s a
  · exact State.coreStore_marksFall hn s a
  · exact State.coreStore_marksFall hn s a
  · exact .ite (fun _ => State.coreStore_marksFall hn s a) fun _ => ((s.unreserve_heals _ _).trans (State.answer_heals _ _)).marksFall
  · exact .ite (fun _ => .refl s) fun _ => State.readBroadcast_marksFall hn s a
  · exact .ite (fun _ => .refl s) fun _ => State.coreMiss_marksFall hn s a
  · exact hload
  · exact hload

end

end Sys2Proof.Machine

namespace Sys2Proof.Machine
/-! # The lookup of an access corrects and logs (R143) -/

variable {r s t : State} {a : Access} {d l k n : Nat} {md : PrivMode}

theorem SMap.not_mem_drop {α : Type} {m : SMap α} {k : Nat} {p : Nat × α} (h : p ∈ SMap.drop m k) : p.1 ≠ k := by
  induction m with
  | nil => cases h
  | cons q m ih =>
    obtain ⟨j, v⟩ := q
    unfold SMap.drop at h
    split at h
    · exact ih h
    · rcases List.mem_cons.mp h with rfl | h
      · assumption
      · exact ih h

/-- No word at `k` is marked, and log `n` has a record. -/
def Corrected (k n : Nat) (s : State) : Prop := (∀ p ∈ s.ecc, p.1 ≠ k) ∧ s.recorded n

theorem MarksFall.corrected (h : MarksFall n r s) (hr : Corrected k n r) : Corrected k n s :=
  ⟨fun p hp => hr.1 p (h.ecc hp), h.logged hr.2⟩

/-- One member brings about what every member keeps. -/
theorem State.forAll_brings {α : Type} {Q : State → Prop} {g : State → α → State} {b : α} {as : List α} (hb : ∀ x, Q (g x b))
    (hQ : ∀ x a, a ∈ as → Q x → Q (g x a)) (hmem : b ∈ as) : Q (s.forAll as g) := by
  obtain ⟨l1, l2, rfl⟩ := List.append_of_mem hmem
  unfold State.forAll
  rw [List.foldl_append, List.foldl_cons]
  exact List.foldlRecOn _ _ (hb _) fun x hx a ha => hQ x a (List.mem_append_right _ (List.mem_cons_of_mem _ ha)) hx

section
variable (hn : n < 512)
include hn

/-- The correction of one mark. -/
theorem State.correct_marksFall (s : State) (k m : Nat) (x : Nat) : MarksFall n s ((s.dropEcc k).logRec m Cause.CE 0x03 x (unitIssuer true) 0) :=
  (s.dropEcc_heals k).marksFall.trans (State.logRec_marksFall hn _ _ _ _ _ _ _)

theorem State.dropBadL1_marksFall (s : State) (d l : Nat) : MarksFall n s (s.dropBadL1 d l) :=
  .forAll (fun x _ => (State.logRec_marksFall hn x (dieLog d) Cause.UE 0x03 (64 * l) (unitIssuer true) 0).trans
    ((State.setCline_heals _ _ _ _ _ _).trans (Heals.when fun _ => State.changeCopy_heals _ _ _ _ _)).marksFall) _ _

end

theorem dieLog_lt (hd : d < 12) : dieLog d < 512 := by unfold dieLog; omega

/-- A single-bit error that the lookup meets is gone after it, and logged. -/
theorem State.dieLook_corrects (hd : d < 12) (hk : SMap.get s.ecc k = 1) (hw : s.dieWord d l k = true) : Corrected k (dieLog d) (s.dieLook d l) := by
  have hn := dieLog_lt hd
  have hmem : (k, 1) ∈ s.ecc.filter (fun p => p.2 == 1 && s.dieWord d l p.1) := by
    have := SMap.mem_of_get_ne (m := s.ecc) (k := k) (by rw [hk]; decide)
    rw [hk] at this
    exact List.mem_filter.mpr ⟨this, by simpa using hw⟩
  refine (State.dropBadL1_marksFall hn _ d l).corrected (State.forAll_brings (Q := Corrected k (dieLog d)) (fun x => ?_)
    (fun x p _ hx => (State.correct_marksFall hn x p.1 (dieLog d) (64 * l)).corrected hx) hmem)
  refine ⟨fun p hp => ?_, State.logRec_recorded_same hn _ _ _ _ _⟩
  rw [State.logRec_ecc] at hp
  exact SMap.not_mem_drop hp

theorem State.wcBefore_same (s : State) (a : Access) : (s.wcBefore a).ecc = s.ecc ∧ (s.wcBefore a).cache = s.cache := by
  have hdrain : (s.wcDrain a.h).ecc = s.ecc ∧ (s.wcDrain a.h).cache = s.cache := by
    unfold State.wcDrain
    split
    · exact ⟨rfl, rfl⟩
    · exact ⟨rfl, rfl⟩
  unfold State.wcBefore
  split
  · exact ⟨rfl, rfl⟩
  · exact ⟨rfl, rfl⟩
  · split
    · exact ⟨rfl, rfl⟩
    · exact hdrain

theorem State.dieWord_congr (h : t.cache = s.cache) (d l k : Nat) : t.dieWord d l k = s.dieWord d l k := by
  unfold State.dieWord
  rw [h]

/-- An access corrects and logs a single-bit error that its lookup meets. -/
theorem State.hartAccess_corrects (hh : a.h < 216) (hk : SMap.get s.ecc k = 1) (hw : s.dieWord (hartDie a.h) a.line k = true) :
    Corrected k (dieLog (hartDie a.h)) (s.hartAccess a) := by
  have hd : hartDie a.h < 12 := by unfold hartDie; omega
  have hn := dieLog_lt hd
  obtain ⟨hecc, hcache⟩ := s.wcBefore_same a
  have hlook : Corrected k (dieLog (hartDie a.h)) ((s.wcBefore a).dieLook (hartDie a.h) a.line) :=
    State.dieLook_corrects hd (by rw [hecc, hk]) ((State.dieWord_congr hcache _ _ _).trans hw)
  have hrest : ∀ x : State, MarksFall (dieLog (hartDie a.h)) x (if x.endsInL1 a = false ∧ x.dieEcc (hartDie a.h) a.line = true then
      x.fatalStop (dieLog (hartDie a.h)) 0x02 a.line (hartDie a.h) else (x.trainOn a).coreAccess a) := fun x =>
    .ite (fun _ => State.fatalStop_marksFall hn x _ _ _ _) fun _ =>
      (x.trainOn_onlyStreams a).heals.marksFall.trans (State.coreAccess_marksFall hn _ a)
  exact (hrest _).corrected hlook

/-! ### Faults, and the write-combining buffer -/

theorem State.accessOk_hart (h : s.accessOk a = true) : a.h < 216 ∧ lineInHbm a.line = true ∧ a.off < 64 ∧ s.hartActs a.h = true := by
  unfold State.accessOk at h
  simp only [Bool.and_eq_true, decide_eq_true_eq] at h
  obtain ⟨⟨⟨⟨⟨hl, hoff⟩, hact⟩, -⟩, -⟩, -⟩ := h
  have hh : a.h < 216 := by
    have := hact
    unfold State.hartActs at this
    simp only [Bool.and_eq_true, decide_eq_true_eq] at this
    exact this.1.1.1.1.1.1
  exact ⟨hh, decide_eq_true hl, hoff, hact⟩

theorem ringBroadcast_eq (hstop : ¬ s.stopped) (hok : s.accessOk a = true) : exec (.ringBroadcast a) s =
    match s.accessFault a with
    | some e => .next ((s.inMode a.h a.mode).answer e)
    | none => .next ((s.inMode a.h a.mode).hartAccess (s.accessTagged a)) := by
  show execRingBroadcast a s = _
  unfold execRingBroadcast
  rw [if_neg (by simp [hstop, hok])]
  rfl

end Sys2Proof.Machine

namespace Sys2Proof.Machine
/-! # The write-combining buffer (R147) -/

variable {s t : State} {a b : Access} {h : Nat} {md : PrivMode} {w : WcBuf} {x y : Hart} {d : Bytes}

/-! ### Two changes of a hart -/

theorem State.hartSt_setHart (s : State) (h : Nat) (x : Hart) : (s.setHart h x).hartSt h = { x with cycles := s.cycleCount h, cycAt := s.up } :=
  SMap.get_set_same _ _ _

/-- At one instant a hart's count stands through a change of its state. -/
theorem State.cycleCount_of_now (hc : (t.hartSt h).cycAt = t.up) : t.cycleCount h = (t.hartSt h).cycles := by
  unfold State.cycleCount
  rw [hc, Nat.sub_self, Nat.zero_mul, ite_self, Nat.add_zero]

/-- The later of two changes of a hart stands, also with a masked write sent between them. -/
theorem State.setHart_wcSend_setHart (s : State) (h : Nat) (w : WcBuf) (x y : Hart) :
    ((s.setHart h x).wcSend h w).setHart h y = (s.setHart h y).wcSend h w := by
  have hst : ((s.setHart h x).wcSend h w).hartSt h = { x with cycles := s.cycleCount h, cycAt := s.up } := s.hartSt_setHart h x
  have hcount : ((s.setHart h x).wcSend h w).cycleCount h = s.cycleCount h := by
    rw [State.cycleCount_of_now (by rw [hst]; rfl), hst]
  have hmap : SMap.set (SMap.set s.hart h { x with cycles := s.cycleCount h, cycAt := s.up }) h { y with cycles := s.cycleCount h, cycAt := s.up } =
      SMap.set s.hart h { y with cycles := s.cycleCount h, cycAt := s.up } := SMap.set_set _ _ _ _
  show { (s.setHart h x).wcSend h w with
    hart := SMap.set (SMap.set s.hart h { x with cycles := s.cycleCount h, cycAt := s.up }) h
      { y with cycles := ((s.setHart h x).wcSend h w).cycleCount h, cycAt := s.up } } = _
  rw [hcount, hmap]
  rfl

theorem State.setHart_setHart (s : State) (h : Nat) (x y : Hart) : (s.setHart h x).setHart h y = s.setHart h y := by
  have hst := s.hartSt_setHart h x
  have hcount : (s.setHart h x).cycleCount h = s.cycleCount h := by
    rw [State.cycleCount_of_now (by rw [hst]; rfl), hst]
  show { s with
    hart := SMap.set (SMap.set s.hart h { x with cycles := s.cycleCount h, cycAt := s.up }) h
      { y with cycles := (s.setHart h x).cycleCount h, cycAt := s.up } } = _
  rw [hcount, SMap.set_set]
  rfl

/-- The buffer leaves before or after the hart takes its mode. -/
theorem State.wcDrain_inMode (s : State) (h : Nat) (md : PrivMode) : (s.inMode h md).wcDrain h = (s.wcDrain h).inMode h md := by
  cases hw : (s.hartSt h).wc with
  | none => rw [State.wcDrain_of_none hw, State.wcDrain_of_none ((s.inMode_wc h md).trans hw)]
  | some w =>
    have hw' : ((s.inMode h md).hartSt h).wc = some w := (s.inMode_wc h md).trans hw
    have hmode := s.hartSt_setHart h { s.hartSt h with mode := md }
    have hnone : ((s.setHart h { s.hartSt h with wc := none }).wcSend h w).hartSt h = _ := s.hartSt_setHart h { s.hartSt h with wc := none }
    have hl : (s.inMode h md).wcDrain h = (((s.inMode h md).setHart h { (s.inMode h md).hartSt h with wc := none }).wcSend h w) := by
      unfold State.wcDrain
      rw [hw']
    have hr : s.wcDrain h = (s.setHart h { s.hartSt h with wc := none }).wcSend h w := by
      unfold State.wcDrain
      rw [hw]
    rw [hl, hr]
    unfold State.inMode
    rw [State.setHart_setHart, State.setHart_wcSend_setHart, hmode, hnone]

/-! ### An access after the buffer has left -/

theorem State.wcDrain_wc (s : State) (h : Nat) : ((s.wcDrain h).hartSt h).wc = none := by
  unfold State.wcDrain
  split
  · rename_i w hw
    have hst : ((s.setHart h { s.hartSt h with wc := none }).wcSend h w).hartSt h = _ := s.hartSt_setHart h { s.hartSt h with wc := none }
    rw [hst]
  · assumption

theorem State.wcBefore_of_not_joins (hj : s.wcJoins a = false) (h1 : a.kind ≠ .prefL1) (h2 : a.kind ≠ .prefL2) : s.wcBefore a = s.wcDrain a.h := by
  unfold State.wcBefore
  split
  · exact absurd ‹_› h1
  · exact absurd ‹_› h2
  · rw [hj]; rfl

/-- The mode of a hart says nothing of a store that joins its buffer. -/
theorem State.wcJoins_inMode (s : State) (a : Access) (md : PrivMode) : (s.inMode a.h md).wcJoins a = s.wcJoins a := by
  have hmiss : (s.inMode a.h md).wnaMiss a = s.wnaMiss a := by
    unfold State.wnaMiss
    rw [SameCaches.dieLevel (s := s.inMode a.h md) (t := s) ⟨rfl, rfl⟩]
    rfl
  unfold State.wcJoins
  rw [hmiss, State.inMode_wc]

/-- A die whose list of sent requests alone may differ. -/
theorem State.wcDrain_die (s : State) (h d : Nat) : ∃ l, (s.wcDrain h).dieSt d = { s.dieSt d with sent := l } := by
  unfold State.wcDrain
  split
  · by_cases hd : d = hartDie h
    · subst hd
      exact ⟨_, SMap.get_set_same _ _ _⟩
    · exact ⟨_, SMap.get_set_ne _ _ hd⟩
  · exact ⟨_, rfl⟩

theorem State.wcDrain_dieFlags (s : State) (h d : Nat) : ((s.wcDrain h).dieSt d).failed = (s.dieSt d).failed ∧
    ((s.wcDrain h).dieSt d).otherMake = (s.dieSt d).otherMake ∧ ((s.wcDrain h).dieSt d).resetting = (s.dieSt d).resetting ∧
    ((s.wcDrain h).dieSt d).left = (s.dieSt d).left := by
  obtain ⟨l, hl⟩ := s.wcDrain_die h d
  rw [hl]
  exact ⟨rfl, rfl, rfl, rfl⟩

theorem State.wcDrain_regs (s : State) (h : Nat) : (s.wcDrain h).regs = s.regs := (s.wcDrain_heals h).regs

theorem State.wcDrain_hart (s : State) (h : Nat) :
    ((s.wcDrain h).hartSt h).run = (s.hartSt h).run ∧ ((s.wcDrain h).hartSt h).halted = (s.hartSt h).halted := by
  unfold State.wcDrain
  split
  · rename_i w hw
    have hst : ((s.setHart h { s.hartSt h with wc := none }).wcSend h w).hartSt h = _ := s.hartSt_setHart h { s.hartSt h with wc := none }
    rw [hst]
    exact ⟨rfl, rfl⟩
  · exact ⟨rfl, rfl⟩

theorem State.wcDrain_get (s : State) (h : Nat) (l : Loc) : (s.wcDrain h).get l = s.get l := State.get_congr (State.rd_congr (s.wcDrain_regs h))

theorem State.wcDrain_paused (s : State) (h : Nat) : (s.wcDrain h).paused = s.paused := by
  unfold State.wcDrain
  split <;> rfl

/-- The buffer holds nothing that the conditions of an access ask for. -/
theorem State.wcDrain_accessOk (s : State) (a : Access) : (s.wcDrain a.h).accessOk a = s.accessOk a := by
  obtain ⟨hrun, hhalt⟩ := s.wcDrain_hart a.h
  unfold State.accessOk State.hartActs State.hartUnused State.clusterFailed State.coreFailed State.dieAway State.dieIn State.clusterSwitching
    State.pairActive
  simp only [State.wcDrain_get, State.wcDrain_dieFlags, State.wcDrain_paused, hrun, hhalt]

/-- What a buffer that leaves changes. -/
theorem State.wcDrain_eq (s : State) (h : Nat) :
    ∃ hart wbTag die out, s.wcDrain h = { s with hart := hart, wbTag := wbTag, die := die, out := out } := by
  unfold State.wcDrain
  split
  · exact ⟨_, _, _, _, rfl⟩
  · exact ⟨_, _, _, _, rfl⟩

theorem State.wcDrain_accessFault (s : State) (a : Access) : (s.wcDrain a.h).accessFault a = s.accessFault a := by
  obtain ⟨hart, wbTag, die, out, heq⟩ := s.wcDrain_eq a.h
  rw [heq]
  rfl

theorem State.accessTagged_congr (h : t.regs = s.regs) (a : Access) : t.accessTagged a = s.accessTagged a := by
  have hget : ∀ l, t.get l = s.get l := fun l => State.get_congr (State.rd_congr h)
  unfold State.accessTagged State.clusterSealed State.inReservedWindow
  simp only [hget]

/-- What the buffer held leaves as one byte-masked write. -/
theorem State.wcDrain_emptied (s : State) (h : Nat) : WcEmptied h s (s.wcDrain h) := by
  unfold WcEmptied
  cases hw : (s.hartSt h).wc with
  | none =>
    rw [State.wcDrain_of_none hw]
    exact (List.append_nil _).symm
  | some w =>
    unfold State.wcDrain
    rw [hw]
    rfl

/-- After its buffer an access finds the same state, whether it sent the buffer itself or the buffer had left. -/
theorem ringBroadcast_after_wcDrain (hstop : ¬ s.stopped) (hok : s.accessOk a = true) (hfault : s.accessFault a = none)
    (hj : s.wcJoins (s.accessTagged a) = false) (h1 : a.kind ≠ .prefL1) (h2 : a.kind ≠ .prefL2) :
    exec (.ringBroadcast a) (s.wcDrain a.h) = exec (.ringBroadcast a) s := by
  have hstop' : ¬ (s.wcDrain a.h).stopped := by
    unfold State.stopped
    rw [State.wcDrain_get]
    exact hstop
  have hbefore : (s.inMode a.h a.mode).wcBefore (s.accessTagged a) = (s.wcDrain a.h).inMode a.h a.mode :=
    (State.wcBefore_of_not_joins ((s.wcJoins_inMode (s.accessTagged a) a.mode).trans hj) h1 h2).trans (s.wcDrain_inMode a.h a.mode)
  have hnone : ((s.wcDrain a.h).inMode a.h a.mode).wcBefore (s.accessTagged a) = (s.wcDrain a.h).inMode a.h a.mode :=
    State.wcBefore_of_none (a := s.accessTagged a) (((s.wcDrain a.h).inMode_wc a.h a.mode).trans (s.wcDrain_wc a.h))
  rw [ringBroadcast_eq hstop hok, ringBroadcast_eq hstop' (s.wcDrain_accessOk a ▸ hok), State.wcDrain_accessFault, hfault,
    State.accessTagged_congr (s.wcDrain_regs a.h)]
  dsimp only
  unfold State.hartAccess
  rw [hbefore, hnone]

/-! ### Masked writes -/

/-- The buffer after a store has joined it. -/
def State.wcMerged (s : State) (a : Access) (b : Bytes) : WcBuf :=
  { (s.hartSt a.h).wc.getD ⟨a.line, 0, zeros 64, a.sealed, a.reserved⟩ with
    mask := ((s.hartSt a.h).wc.getD ⟨a.line, 0, zeros 64, a.sealed, a.reserved⟩).mask ||| (2 ^ b.length - 1) <<< a.off
    data := putBytes ((s.hartSt a.h).wc.getD ⟨a.line, 0, zeros 64, a.sealed, a.reserved⟩).data a.off b }

theorem State.maskedWrite_same (s : State) (a : Access) (b : Bytes) :
    (s.maskedWrite a b).resp = .ok ∧ (s.maskedWrite a b).cache = s.cache ∧ (s.maskedWrite a b).slices = s.slices := by
  unfold State.maskedWrite
  dsimp only
  split <;> exact ⟨rfl, rfl, rfl⟩

/-- The store joins a buffer that is not full then. -/
theorem State.maskedWrite_joins (hm : (s.wcMerged a d).mask ≠ 2 ^ 64 - 1) :
    (s.maskedWrite a d).out = s.out ∧ ((s.maskedWrite a d).hartSt a.h).wc = some (s.wcMerged a d) := by
  have heq : s.maskedWrite a d = (s.answer .ok).setHart a.h { s.hartSt a.h with wc := some (s.wcMerged a d) } := if_neg hm
  rw [heq, State.hartSt_setHart]
  exact ⟨rfl, rfl⟩

/-- A full buffer leaves. -/
theorem State.maskedWrite_leaves (hm : (s.wcMerged a d).mask = 2 ^ 64 - 1) : ((s.maskedWrite a d).hartSt a.h).wc = none ∧
    (s.maskedWrite a d).out = s.out ++ [.coh .ncWr (0x100 + s.homeOf (s.wcMerged a d).line)
      { sliceMsg (hartDie a.h) (s.wcMerged a d).line (s.wcMerged a d).sealed (s.wcMerged a d).reserved with
        txn := SMap.get s.wbTag (64 + 4 * hartDie a.h + sliceOf (s.wcMerged a d).line), mask := 2 ^ 64 - 1, data := (s.wcMerged a d).data }] := by
  have heq : s.maskedWrite a d = ((s.answer .ok).setHart a.h { s.hartSt a.h with wc := none }).wcSend a.h (s.wcMerged a d) := if_pos hm
  have hst : (((s.answer .ok).setHart a.h { s.hartSt a.h with wc := none }).wcSend a.h (s.wcMerged a d)).hartSt a.h = _ :=
    State.hartSt_setHart (s.answer .ok) a.h { s.hartSt a.h with wc := none }
  rw [heq, hst, ← hm]
  exact ⟨rfl, rfl⟩

/-- Bytes that lie in a line and do not fill it leave a bit of the mask. -/
theorem mask_ne_full {n off : Nat} (hn : n < 64) (hfit : off + n ≤ 64) : (2 ^ n - 1) <<< off ≠ 2 ^ 64 - 1 := by
  rw [Nat.shiftLeft_eq, Nat.sub_mul, ← Nat.pow_add, Nat.one_mul]
  have hle : 2 ^ (n + off) ≤ 2 ^ 64 := Nat.pow_le_pow_right (by decide) (by omega)
  rcases Nat.eq_zero_or_pos off with rfl | hpos
  · have hlt : 2 ^ (n + 0) ≤ 2 ^ 63 := Nat.pow_le_pow_right (by decide) (by omega)
    omega
  · have h2 : 2 ^ 1 ≤ 2 ^ off := Nat.pow_le_pow_right (by decide) hpos
    omega

theorem putBytes_full {old d : Bytes} (ho : old.length = 64) (hd : d.length = 64) : putBytes old 0 d = d := by
  simp [putBytes, ho, hd]

/-- A store that misses its die under WNA. -/
theorem NoCopy.coreStore_masked (hn : NoCopy s (hartDie a.h) a.line) (hk : a.kind = .store d) (hmiss : s.wnaMiss a = true) :
    s.coreAccess a = s.maskedWrite a d := by
  have hpol : s.policy (hartDie a.h) a.sealed a.line = 2 := by
    unfold State.wnaMiss at hmiss
    simp only [Bool.and_eq_true, beq_iff_eq] at hmiss
    exact hmiss.1.1
  rw [State.coreAccess_store (.inr (.inl ⟨d, hk⟩)), State.coreStore_eq fun h => absurd (hpol.symm.trans h) (by decide)]
  simp only [hk]
  exact if_pos ⟨hn.inL2, hmiss⟩

theorem NoCopy.wnaMiss (hn : NoCopy s (hartDie a.h) a.line) (hbusy : s.lineBusy (hartDie a.h) a.line = false)
    (hpol : s.policy (hartDie a.h) a.sealed a.line = 2) : s.wnaMiss a = true := by
  unfold State.wnaMiss
  simp [hn.dieLevel, hbusy, hpol]

theorem State.accessOk_fits (h : s.accessOk a = true) (hk : a.kind = .store d) : a.off + d.length ≤ 64 := by
  unfold State.accessOk accFits at h
  simp only [hk, Bool.and_eq_true, decide_eq_true_eq] at h
  exact h.2.1

end Sys2Proof.Machine

namespace Sys2Proof.Machine
/-! # Accesses that end in L1D (R121, R165) -/

variable {s t : State} {a b : Access} {d u l k set w : Nat} {md : PrivMode} {x : CLine}

theorem hartDie_lt (h : a.h < 216) : hartDie a.h < 12 := by unfold hartDie; omega

theorem uL1d_lt (h : Nat) : uL1d (h % 18) < 18 := by unfold uL1d; omega

/-! ### Reservations -/

/-- A valid way is one of the lines of its structure. -/
theorem State.mem_allLines (hs : set < 16384) (hw : w < 16) (hv : (s.cline d u set w).valid = true) : (set, w) ∈ s.allLines d u := by
  have hget : SMap.get s.cache (cacheKey d u set w) ≠ default := fun h => by
    have hv' : (SMap.get s.cache (cacheKey d u set w)).valid = true := hv
    rw [h] at hv'
    exact absurd hv' (by decide)
  refine List.mem_map.mpr ⟨_, List.mem_filter.mpr ⟨SMap.mem_of_get_ne hget, ?_⟩, ?_⟩
  · have h1 : cacheKey d u set w / 16 / 16384 = d * 64 + u := by unfold cacheKey; omega
    have hv' : (SMap.get s.cache (cacheKey d u set w)).valid = true := hv
    simp [h1, hv']
  · have h1 : cacheKey d u set w / 16 % 16384 = set := by unfold cacheKey; omega
    have h2 : cacheKey d u set w % 16 = w := by unfold cacheKey; omega
    simp only [h1, h2]

theorem State.allLines_lt {p : Nat × Nat} (h : p ∈ s.allLines d u) : p.1 < 16384 ∧ p.2 < 16 := by
  obtain ⟨q, -, rfl⟩ := List.mem_map.mp h
  exact ⟨Nat.mod_lt _ (by decide), Nat.mod_lt _ (by decide)⟩

/-- A line without a reservation. -/
def CLine.freed (x : CLine) : CLine := { x with resv := false }

theorem CLine.freed_of_not (h : x.resv = false) : x.freed = x := by
  cases x
  simp only at h
  subst h
  rfl

section
variable (hd : d < 12) (hk : k < 18)
include hd hk

/-- The ways of the other structures stand. -/
theorem State.unreserve_cline_ne {d' u' : Nat} (h' : InCache d' u' set w) (hne : ¬ (d' = d ∧ u' = k)) :
    (s.unreserve d k).cline d' u' set w = s.cline d' u' set w := by
  refine State.forAll_keepsProp (P := fun x => x.cline d' u' set w = s.cline d' u' set w) (fun x p hp hx => ?_) rfl
  obtain ⟨h1, h2⟩ := State.allLines_lt hp
  dsimp only
  split
  · rw [State.cline_setCline_ne _ ⟨hd, by unfold uL1d; omega, h1, h2⟩ h' (by unfold uL1d; tauto), hx]
  · exact hx

/-- A way of the L1D keeps all but its reservation, and one that holds a line has none then. -/
theorem State.unreserve_cline_same (hs : set < 16384) (hw : w < 16) :
    ((s.unreserve d k).cline d k set w).freed = (s.cline d k set w).freed ∧
    ((s.cline d k set w).valid = true → ((s.unreserve d k).cline d k set w).resv = false) := by
  have hin : InCache d k set w := ⟨hd, by omega, hs, hw⟩
  have hstep : ∀ (x : State) (p : Nat × Nat), p ∈ s.allLines d k →
      (if (x.cline d k p.1 p.2).resv then x.setCline d k p.1 p.2 { x.cline d k p.1 p.2 with resv := false } else x).cline d k set w =
        if p = (set, w) then (x.cline d k set w).freed else x.cline d k set w := fun x p hp => by
    obtain ⟨h1, h2⟩ := State.allLines_lt hp
    by_cases hp' : p = (set, w)
    · subst hp'
      rw [if_pos rfl]
      split
      · exact State.cline_setCline_same ..
      · rename_i hres
        exact (CLine.freed_of_not (by simpa using hres)).symm
    · rw [if_neg hp']
      split
      · refine State.cline_setCline_ne _ ⟨hd, by omega, h1, h2⟩ hin ?_
        rintro ⟨-, -, rfl, rfl⟩
        exact hp' rfl
      · rfl
  refine ⟨State.forAll_keepsProp (P := fun x => (x.cline d k set w).freed = (s.cline d k set w).freed) (fun x p hp hx => ?_) rfl, fun hv =>
    State.forAll_brings (Q := fun x => (x.cline d k set w).resv = false) (b := (set, w)) (fun x => ?_) (fun x p hp hx => ?_)
      (State.mem_allLines hs hw hv)⟩
  · refine (congrArg CLine.freed (hstep x p hp)).trans ?_
    split
    · exact hx
    · exact hx
  · refine (congrArg CLine.resv (hstep x (set, w) (State.mem_allLines hs hw hv))).trans ?_
    rw [if_pos rfl]
    rfl
  · refine (congrArg CLine.resv (hstep x p hp)).trans ?_
    split
    · rfl
    · exact hx

theorem State.unreserve_holds {l j : Nat} (hj : j < 16) : (s.unreserve d k).holds d k l j = s.holds d k l j := by
  have h := (State.unreserve_cline_same (s := s) hd hk (setOf_lt k l) hj).1
  have hv := congrArg CLine.valid h
  have hl := congrArg CLine.line h
  simp only [CLine.freed] at hv hl
  simp only [State.holds, hv, hl]

/-- The L1D copy of a line loses its reservation. -/
theorem State.unreserve_copyIn_same (l : Nat) : (s.unreserve d k).copyIn d k l = (s.copyIn d k l).map CLine.freed := by
  have hway : (s.unreserve d k).findWay d k l = s.findWay d k l := State.findWay_congr fun j hj => State.unreserve_holds hd hk hj
  cases hf : s.findWay d k l with
  | none => rw [State.copyIn_eq_none_iff.mpr hf, State.copyIn_eq_none_iff.mpr (hway.trans hf)]; rfl
  | some w =>
    obtain ⟨hw, hhold, -⟩ := State.findWay_eq_some_iff.mp hf
    obtain ⟨hfreed, hres⟩ := State.unreserve_cline_same (s := s) hd hk (setOf_lt k l) hw
    rw [State.copyIn_of_findWay hf, State.copyIn_of_findWay (hway.trans hf)]
    exact congrArg some ((CLine.freed_of_not (hres (State.holds_iff.mp hhold).1)).symm.trans hfreed)

theorem State.unreserve_copyIn_ne {u : Nat} (hu : u < 64) (hne : u ≠ k) (l : Nat) : (s.unreserve d k).copyIn d u l = s.copyIn d u l :=
  State.copyIn_congr fun _ hj => State.unreserve_cline_ne hd hk ⟨hd, hu, setOf_lt u l, hj⟩ fun h => hne h.2

end

theorem State.unreserve_same (s : State) (d k : Nat) : (s.unreserve d k).out = s.out ∧ (s.unreserve d k).mem = s.mem :=
  have h := State.unreserve_keeps (F := [.ecc, .cache]) (s := s) (by decide) (by decide) .refl d k
  ⟨h.frame .out (by decide), h.frame .mem (by decide)⟩

/-! ### Hits -/

/-- A hit moves the tree alone. -/
theorem State.hit_sameCaches (s : State) (d u l : Nat) : SameCaches (s.hit d u l) s := by
  unfold State.hit
  split
  · exact ⟨rfl, rfl⟩
  · exact ⟨rfl, rfl⟩

/-- A load that hits L1D. -/
def State.loadHit (s : State) (a : Access) (x : CLine) : State :=
  (s.when (x.pref = true) (fun s => s.changeCopy (hartDie a.h) (uL1d (a.h % 18)) a.line (fun y => { y with pref := false }))).hit
    (hartDie a.h) (uL1d (a.h % 18)) a.line

theorem State.coreAccess_load (hk : a.kind = .load ∨ ∃ w, a.kind = .lr w) (hx : s.copyIn (hartDie a.h) (uL1d (a.h % 18)) a.line = some x) :
    s.coreAccess a = (s.loadHit a x).loadDone a x := by
  unfold State.coreAccess
  rcases hk with hk | ⟨w, hk⟩
  · simp only [hk, hx]
    rfl
  · simp only [hk, hx]
    rfl

theorem State.loadHit_heals (s : State) (a : Access) (x : CLine) : Heals s (s.loadHit a x) :=
  (Heals.when fun _ => State.changeCopy_heals _ _ _ _ _).trans (State.hit_heals _ _ _ _)

/-- The copy is no prefetched one any more. -/
theorem State.loadHit_copyIn (hh : a.h < 216) (hx : s.copyIn (hartDie a.h) (uL1d (a.h % 18)) a.line = some x) :
    (s.loadHit a x).copyIn (hartDie a.h) (uL1d (a.h % 18)) a.line = some { x with pref := false } := by
  have htag := State.copyIn_tag hx
  unfold State.loadHit
  rw [(State.hit_sameCaches _ _ _ _).copyIn]
  unfold State.when
  split
  · exact State.copyIn_changeCopy_same (f := fun y => { y with pref := false }) (hartDie_lt hh) (Nat.lt_trans (uL1d_lt _) (by decide)) hx htag.1 htag.2
  · rename_i hp
    rw [hx]
    cases x
    simp only [Bool.not_eq_true] at hp
    subst hp
    rfl

theorem State.loadHit_cache (hp : x.pref = false) (s : State) (a : Access) : (s.loadHit a x).cache = s.cache := by
  unfold State.loadHit
  rw [(State.hit_sameCaches _ _ _ _).cache]
  unfold State.when
  rw [if_neg (by simp [hp])]

end Sys2Proof.Machine

namespace Sys2Proof.Machine
/-! # Lines that leave as WB (R150, R165 to R167) -/

variable {s t : State} {a b : Access} {d c u l set w : Nat} {x : CLine} {data : Bytes} {poison keep sealed : Bool}

/-- Caches alone may differ: registers, what was sent and the slices' identifiers and entries stand. -/
structure CachesOnly (s t : State) : Prop where
  regs : t.regs = s.regs
  out : t.out = s.out
  wbTag : t.wbTag = s.wbTag
  slices : t.slices = s.slices

theorem CachesOnly.of_keeps {F : List Kind} (h : Keeps F s t) (hr : Kind.regs ∉ F) (ho : Kind.out ∉ F) (hw : Kind.wbTag ∉ F)
    (hs : Kind.slices ∉ F) : CachesOnly s t := ⟨h.frame .regs hr, h.frame .out ho, h.frame .wbTag hw, h.frame .slices hs⟩

theorem CachesOnly.refl (s : State) : CachesOnly s s := ⟨rfl, rfl, rfl, rfl⟩

theorem CachesOnly.trans {r : State} (h : CachesOnly r s) (h' : CachesOnly s t) : CachesOnly r t :=
  ⟨h'.regs.trans h.regs, h'.out.trans h.out, h'.wbTag.trans h.wbTag, h'.slices.trans h.slices⟩

theorem CachesOnly.get (h : CachesOnly s t) (l : Loc) : t.get l = s.get l := State.get_congr (State.rd_congr h.regs)

theorem CachesOnly.homeOf (h : CachesOnly s t) (l : Nat) : t.homeOf l = s.homeOf l := by
  unfold State.homeOf State.mcOf State.placeOf
  rw [h.get]

theorem CachesOnly.policy (h : CachesOnly s t) (d : Nat) (sealed : Bool) (l : Nat) : t.policy d sealed l = s.policy d sealed l := by
  unfold State.policy State.wpolEntry State.rd
  rw [h.regs]

theorem CachesOnly.clusterSealed (h : CachesOnly s t) (d c : Nat) : t.clusterSealed d c = s.clusterSealed d c := by
  unfold State.clusterSealed
  rw [h.get]

/-- A line leaves under the next identifier and tag of its slice. -/
theorem CachesOnly.sliceWb (h : CachesOnly s t) (d l : Nat) (data : Bytes) (poison keep sealed : Bool) :
    SliceWrites d l keep data poison sealed s (t.sliceWb d l data poison keep sealed) := by
  have htxn : (t.sliceWb d l data poison keep sealed).sliceTxn d l = _ := SMap.get_set_same _ _ _
  have hid : SMap.get (SMap.set t.wbTag (4 * d + sliceOf l) ((SMap.get t.wbTag (4 * d + sliceOf l) + 1) % 256)) (64 + 4 * d + sliceOf l) =
      SMap.get t.wbTag (64 + 4 * d + sliceOf l) := SMap.get_set_ne _ _ (by omega)
  refine ⟨by rw [htxn], by rw [htxn], ?_⟩
  have hout : (t.sliceWb d l data poison keep sealed).out = t.out ++ [.coh .wb (0x100 + t.homeOf l) { sliceMsg d l sealed false with
      txn := SMap.get (SMap.set t.wbTag (4 * d + sliceOf l) ((SMap.get t.wbTag (4 * d + sliceOf l) + 1) % 256)) (64 + 4 * d + sliceOf l)
      flag := keep, tag := SMap.get t.wbTag (4 * d + sliceOf l), data := data, poison := poison }] := rfl
  rw [hout, hid, h.out, h.wbTag, h.homeOf]

theorem State.sliceWb_same (s : State) (d l : Nat) (data : Bytes) (poison keep sealed : Bool) :
    (s.sliceWb d l data poison keep sealed).cache = s.cache ∧ (s.sliceWb d l data poison keep sealed).ecc = s.ecc := ⟨rfl, rfl⟩

/-! ### An eviction from a slice -/

theorem State.evictL3_empty (s : State) (d sl set w : Nat) : (s.evictL3 d sl set w).cline d (uL3 sl) set w = default := by
  have hset := State.cline_setCline_same s d (uL3 sl) set w default
  unfold State.evictL3
  dsimp only
  split
  · exact hset
  · exact hset

theorem State.evictL3_modified (hx : s.cline d (uL3 c) set w = x) (hv : x.valid = true) (h2 : x.st = 2) :
    SliceWrites d x.line false x.data x.poison (s.wayOwner d c w) s (s.evictL3 d c set w) := by
  subst hx
  have heq : s.evictL3 d c set w = (s.setCline d (uL3 c) set w default).sliceWb d (s.cline d (uL3 c) set w).line (s.cline d (uL3 c) set w).data
      (s.cline d (uL3 c) set w).poison false (s.wayOwner d c w) := if_pos ⟨hv, h2⟩
  rw [heq]
  exact CachesOnly.sliceWb ⟨rfl, rfl, rfl, rfl⟩ _ _ _ _ _ _

theorem State.evictL3_clean (h2 : (s.cline d (uL3 c) set w).st ≠ 2) : s.evictL3 d c set w = s.setCline d (uL3 c) set w default :=
  if_neg fun h => h2 h.2

/-! ### Victims -/

theorem plruWalk_lt (tree : Nat) (allowed : Nat → Bool) : ∀ f n, (n + 1) * 2 ^ f ≤ 32 → plruWalk tree allowed f n < 16 := by
  intro f
  induction f with
  | zero => intro n hn; unfold plruWalk; omega
  | succ f ih =>
    intro n hn
    have hchild : ∀ m, m ≤ 2 * n + 1 → plruWalk tree allowed f m < 16 := fun m hm => ih m <| calc
      (m + 1) * 2 ^ f ≤ (2 * n + 2) * 2 ^ f := Nat.mul_le_mul_right _ (by omega)
      _ = (n + 1) * 2 ^ (f + 1) := by rw [Nat.pow_succ, ← Nat.mul_assoc, Nat.mul_right_comm, Nat.add_one_mul n 2]; ring
      _ ≤ 32 := hn
    unfold plruWalk
    refine hchild _ ?_
    split_ifs <;> omega

theorem plruVictim_lt {tree : Nat} {valid allowed : Nat → Bool} (h : plruVictim tree valid allowed = some w) : w < 16 := by
  unfold plruVictim at h
  split at h
  · rename_i w' hf
    cases h
    unfold firstBelow at hf
    exact List.mem_range.mp (List.mem_of_find?_eq_some hf)
  · split at h
    · cases h
      exact plruWalk_lt tree allowed 4 1 (by decide)
    · cases h

/-! ### An eviction from an L2 -/

section
variable (hd : d < 12) (h' : InCache d u set w)
include hd h'

omit hd in
/-- What a slice evicts or takes leaves the ways of the clusters alone. -/
theorem State.evictL3_cline_ne {sl set' w' : Nat} (hin : InCache d (uL3 sl) set' w') (hu : u ≠ uL3 sl) :
    (s.evictL3 d sl set' w').cline d u set w = s.cline d u set w := by
  have hset := State.cline_setCline_ne (s := s) default hin h' (fun e => hu e.2.1)
  unfold State.evictL3
  dsimp only
  split
  · exact hset
  · exact hset

theorem State.fillL3_cline_ne (hu : u < 45) (l st : Nat) (data : Bytes) (poison sealed : Bool) :
    (s.fillL3 d l st data poison sealed).1.cline d u set w = s.cline d u set w := by
  have hin : ∀ j, j < 16 → InCache d (uL3 (sliceOf l)) (setOf (uL3 (sliceOf l)) l) j := fun j hj =>
    ⟨hd, Nat.lt_trans (uL3_lt l) (by decide), setOf_lt _ _, hj⟩
  have hne : u ≠ uL3 (sliceOf l) := by unfold uL3; omega
  have hput : ∀ (x : State) (j : Nat) (y : CLine), j < 16 →
      ((x.setCline d (uL3 (sliceOf l)) (setOf (uL3 (sliceOf l)) l) j y).touchWay d (uL3 (sliceOf l)) (setOf (uL3 (sliceOf l)) l) j).cline d u set w =
        x.cline d u set w := fun x j y hj => State.cline_setCline_ne (s := x) y (hin j hj) h' (fun e => hne e.2.1)
  unfold State.fillL3
  dsimp only
  split
  · exact hput _ _ _ (State.findWay_lt ‹_›)
  · split
    · rfl
    · have hw := plruVictim_lt ‹_›
      exact (hput _ _ _ hw).trans (State.evictL3_cline_ne h' (hin _ hw) hne)

end

theorem State.dropCluster_cachesOnly (s : State) (d c l : Nat) : CachesOnly s (s.dropCluster d c l) :=
  .of_keeps (F := [.ecc, .cache]) (State.dropCluster_keeps (by decide) (by decide) .refl d c l) (by decide) (by decide) (by decide) (by decide)

theorem clusterUnits_nodup : ∀ c, c < 9 → (clusterUnits c).Nodup := by decide

/-- The way of an L2 is empty once its cluster has dropped the line. -/
theorem State.dropCluster_empty (hd : d < 12) (hc : c < 9) (hf : s.findWay d (uL2 c) l = some w) :
    (s.dropCluster d c l).cline d (uL2 c) (setOf (uL2 c) l) w = default := by
  have hlt : ∀ v ∈ clusterUnits c, v < 64 := fun v hv => by
    have := clusterUnits_lt v (List.mem_flatMap.mpr ⟨c, List.mem_range.mpr hc, hv⟩)
    omega
  have hu : uL2 c < 64 := by unfold uL2; omega
  have hw := State.findWay_lt hf
  rw [State.dropCluster_eq]
  exact State.forAll_reaches (P := Tracked d (uL2 c) l w) (Q := fun x => x.cline d (uL2 c) (setOf (uL2 c) l) w = default)
    (fun _ _ hm _ hx => State.dropCopy_tracked hd hu hw hd (hlt _ hm) hx) (fun _ hx => hx.dropCopy hd hu hw)
    (fun _ _ hm _ hx => State.dropCopy_empty hd hu hw hd (hlt _ hm) hx) (by simp [clusterUnits]) (clusterUnits_nodup c hc) (.inl hf)

/-- An L2 without modified L1D copies of the line gives it up. -/
theorem State.evictL2_eq (hx : s.cline d (uL2 c) set w = x) (hnone : ∀ k, k ∈ [2 * c, 2 * c + 1] → s.copyIn d (uL1d k) x.line = none) :
    s.evictL2 d c set w = if x.valid ∧ x.st = 2 then
      if (s.dropCluster d c x.line).policy d ((s.dropCluster d c x.line).clusterSealed d c) x.line = 3 then
        (s.dropCluster d c x.line).sliceWb d x.line x.data x.poison false ((s.dropCluster d c x.line).clusterSealed d c)
      else if ((s.dropCluster d c x.line).fillL3 d x.line 2 x.data x.poison ((s.dropCluster d c x.line).clusterSealed d c)).2 then
        ((s.dropCluster d c x.line).fillL3 d x.line 2 x.data x.poison ((s.dropCluster d c x.line).clusterSealed d c)).1
      else (s.dropCluster d c x.line).sliceWb d x.line x.data x.poison false ((s.dropCluster d c x.line).clusterSealed d c)
    else s.dropCluster d c x.line := by
  subst hx
  unfold State.evictL2
  dsimp only
  rw [State.collapse_of_none hnone]

theorem State.evictL2_empty (hd : d < 12) (hc : c < 9) (hx : s.cline d (uL2 c) set w = x)
    (hnone : ∀ k, k ∈ [2 * c, 2 * c + 1] → s.copyIn d (uL1d k) x.line = none) (hf : s.findWay d (uL2 c) x.line = some w)
    (hset : setOf (uL2 c) x.line = set) : (s.evictL2 d c set w).cline d (uL2 c) set w = default := by
  have hempty : (s.dropCluster d c x.line).cline d (uL2 c) set w = default := hset ▸ State.dropCluster_empty hd hc hf
  have hin : InCache d (uL2 c) set w := ⟨hd, by unfold uL2; omega, hset ▸ setOf_lt _ _, State.findWay_lt hf⟩
  have hwb : ∀ (y : State) (sealed : Bool), y.cline d (uL2 c) set w = default →
      (y.sliceWb d x.line x.data x.poison false sealed).cline d (uL2 c) set w = default := fun y sealed hy =>
    (State.cline_congr (State.sliceWb_same y d x.line x.data x.poison false sealed).1 (State.sliceWb_same y d x.line x.data x.poison false sealed).2
      _ _ _ _).trans hy
  rw [State.evictL2_eq hx hnone]
  generalize s.dropCluster d c x.line = y at hempty
  by_cases h2 : x.valid = true ∧ x.st = 2
  · rw [if_pos h2]
    by_cases h3 : y.policy d (y.clusterSealed d c) x.line = 3
    · rw [if_pos h3]
      exact hwb y _ hempty
    · rw [if_neg h3]
      by_cases hfill : (y.fillL3 d x.line 2 x.data x.poison (y.clusterSealed d c)).2 = true
      · rw [if_pos hfill]
        exact (State.fillL3_cline_ne hd hin (by unfold uL2; omega) _ _ _ _ _).trans hempty
      · rw [if_neg hfill]
        exact hwb y _ hempty
  · rw [if_neg h2]
    exact hempty

end Sys2Proof.Machine

namespace Sys2Proof.Machine
/-! # Stores into owned lines (R143, R147, R150, R165) -/

variable {s t : State} {a : Access} {d c k l u w : Nat} {x y : CLine} {data old : Bytes} {poison : Bool}

/-! ### The end of a store -/

theorem State.wtClean_of_not (hpol : s.policy (hartDie a.h) a.sealed a.line ≠ 1) (data : Bytes) (poison : Bool) : s.wtClean a data poison = s :=
  if_neg hpol

/-- A store whose hart keeps no reservation for it. -/
theorem State.storeDone_eq (hk : ∀ b, a.kind ≠ .sc b) (old data : Bytes) (poison : Bool) :
    s.storeDone a old data poison = (s.answer (accStoreAnswer a old)).wtClean a data poison := by
  unfold State.storeDone
  split
  · rename_i b hb
    exact absurd hb (hk b)
  · rfl

theorem State.storeDone_sc {b : Bytes} (hk : a.kind = .sc b) (old data : Bytes) (poison : Bool) :
    s.storeDone a old data poison = ((s.unreserve (hartDie a.h) (a.h % 18)).answer (accStoreAnswer a old)).wtClean a data poison := by
  unfold State.storeDone
  rw [hk]

theorem accIsAmo_not_sc (h : accIsAmo a = true ∨ ∃ b, a.kind = .store b) (b : Bytes) : a.kind ≠ .sc b := by
  intro hk
  rcases h with h | ⟨b', h⟩
  · unfold accIsAmo at h
    rw [hk] at h
    cases h
  · rw [hk] at h
    cases h

/-! ### A line that L1D holds modified -/

/-- The state after the bytes went over the L1D copy. -/
def State.l1Stored (s : State) (a : Access) (x : CLine) : State :=
  (s.hit (hartDie a.h) (uL1d (a.h % 18)) a.line).changeCopy (hartDie a.h) (uL1d (a.h % 18)) a.line (fun y => { y with
    data := putBytes x.data a.off (accStored a x.data), poison := x.poison && decide ((accStored a x.data).length < 64) })

theorem State.storeOwned_l1 (hx : s.copyIn (hartDie a.h) (uL1d (a.h % 18)) a.line = some x) (h2 : x.st = 2)
    (hamo : ¬ (x.poison = true ∧ accIsAmo a = true)) : s.storeOwned a = (s.l1Stored a x).storeDone a x.data
      (putBytes x.data a.off (accStored a x.data)) (x.poison && decide ((accStored a x.data).length < 64)) := by
  unfold State.storeOwned
  dsimp only
  rw [hx]
  dsimp only
  rw [if_pos h2, if_neg hamo]
  rfl

theorem State.l1Stored_keeps (s : State) (a : Access) (x : CLine) : Keeps [.ecc, .cache, .plru] s (s.l1Stored a x) :=
  State.changeCopy_keeps (by decide) (by decide) (State.hit_keeps (by decide) .refl _ _ _) _ _ _ _

theorem State.l1Stored_copyIn (hh : a.h < 216) (hx : s.copyIn (hartDie a.h) (uL1d (a.h % 18)) a.line = some x) :
    (s.l1Stored a x).copyIn (hartDie a.h) (uL1d (a.h % 18)) a.line = some { x with
      data := putBytes x.data a.off (accStored a x.data), poison := x.poison && decide ((accStored a x.data).length < 64) } := by
  obtain ⟨hv, hl⟩ := State.copyIn_tag hx
  exact State.copyIn_changeCopy_same (f := fun y => { y with data := putBytes x.data a.off (accStored a x.data), poison := _ }) (hartDie_lt hh)
    (Nat.lt_trans (uL1d_lt _) (by decide)) (((State.hit_sameCaches _ _ _ _).copyIn _ _ _).trans hx) hv hl

theorem State.l1Stored_copyIn_ne (hh : a.h < 216) (hu : u < 64) (hne : u ≠ uL1d (a.h % 18)) (l : Nat) :
    (s.l1Stored a x).copyIn (hartDie a.h) u l = s.copyIn (hartDie a.h) u l :=
  (State.copyIn_changeCopy_ne (hartDie_lt hh) (Nat.lt_trans (uL1d_lt _) (by decide)) (hartDie_lt hh) hu (fun e => hne e.2) _ _ _).trans
    ((State.hit_sameCaches _ _ _ _).copyIn _ _ _)

/-- An access that needs ownership finds it in its L2. -/
theorem State.coreStore_owned (hy : s.copyIn (hartDie a.h) (uL2 (hartCluster a.h)) a.line = some y) (h1 : 1 ≤ y.st)
    (hbusy : s.lineBusy (hartDie a.h) a.line = false)
    (hroom : s.policy (hartDie a.h) a.sealed a.line = 1 → s.wbRoom (hartDie a.h) (sliceOf a.line) 2 = true) : s.coreStore a = s.storeOwned a := by
  have hin : s.inL2 a = true := by
    unfold State.inL2
    rw [State.findWay_isSome, hy]
    rfl
  rw [State.coreStore_owns hroom fun _ _ => .inl hin]
  unfold State.coreOwns
  dsimp only
  rw [hy]
  exact if_pos ⟨h1, hbusy⟩

/-! ### A line that only the L2 of the cluster holds -/

/-- No structure of the die but one holds the line. -/
def OnlyIn (d u l : Nat) (s : State) : Prop := ∀ v, v < 49 → v ≠ u → s.findWay d v l = none

theorem OnlyIn.copyIn {v : Nat} (h : OnlyIn d u l s) (hv : v < 49) (hne : v ≠ u) : s.copyIn d v l = none := State.copyIn_eq_none_iff.mpr (h v hv hne)

theorem OnlyIn.collapseDie (h : OnlyIn d u l s) (hu : 18 ≤ u) : s.collapseDie d l = s :=
  State.collapseDie_of_none fun k hk => h.copyIn (by unfold uL1d; omega) (by unfold uL1d; omega)

/-- The L2 is the one holder. -/
theorem OnlyIn.holders (h : OnlyIn d (uL2 c) l s) (hc : c < 9) (hx : s.copyIn d (uL2 c) l = some x) : s.holders d l = [uL2 c] := by
  have hmem : ∀ u, u ∈ s.holders d l ↔ u = uL2 c := fun u => by
    rw [State.mem_holders]
    constructor
    · rintro ⟨hunit, hsome⟩
      by_contra hne
      have h49 : u < 49 := by
        rcases hunit with hu | hu
        · omega
        · rw [hu]; exact uL3_lt l
      rw [h u h49 hne] at hsome
      cases hsome
    · rintro rfl
      exact ⟨.inl (by unfold uL2; omega), by rw [State.findWay_isSome, hx]; rfl⟩
  have hnd := s.holders_nodup d l
  match hs : s.holders d l with
  | [] => rw [hs] at hmem; simpa using hmem (uL2 c)
  | [v] => rw [hs] at hmem; rw [(hmem v).mp (List.mem_singleton_self v)]
  | v :: v' :: r =>
    rw [hs] at hmem hnd
    have h1 := (hmem v).mp (by simp)
    have h2 := (hmem v').mp (by simp)
    simp [h1, h2] at hnd

theorem OnlyIn.bestHolder (h : OnlyIn d (uL2 c) l s) (hc : c < 9) (hx : s.copyIn d (uL2 c) l = some x) : s.bestHolder d l = some (uL2 c, x) := by
  unfold State.bestHolder
  rw [h.holders hc hx]
  simp [hx]

theorem OnlyIn.dropL1 (h : OnlyIn d (uL2 c) l s) (hc : c < 9) : s.dropL1 d c l = s := by
  refine State.forAll_keepsProp (P := fun x => x = s) (fun x k hk hx => ?_) rfl
  subst hx
  have hk18 : k < 18 := by
    simp only [List.mem_cons, List.not_mem_nil, or_false] at hk
    omega
  rw [State.dropCopy_of_none (h _ (by unfold uL1d; omega) (by unfold uL1d uL2; omega)),
    State.dropCopy_of_none (h _ (by unfold uL1i; omega) (by unfold uL1i uL2; omega))]

/-! ### The L1D takes the line, or has no way for it -/

/-- A fold of another line's copies leaves a line's copies alone. -/
theorem State.copyIn_collapse_line_ne {d' u' l' : Nat} (hd : d < 12) (hc : c < 9) (hd' : d' < 12) (hu' : u' < 64) (hl : l' ≠ l) :
    (s.collapse d c l).copyIn d' u' l' = s.copyIn d' u' l' := by
  refine State.forAll_keepsProp (P := fun x => x.copyIn d' u' l' = s.copyIn d' u' l') (fun x k hk hx => ?_) rfl
  have hk18 : k < 18 := by
    simp only [List.mem_cons, List.not_mem_nil, or_false] at hk
    omega
  have hch : ∀ (z : State) (u : Nat) (f : CLine → CLine), u < 64 → (∀ y, (f y).line = y.line) →
      (z.changeCopy d u l f).copyIn d' u' l' = z.copyIn d' u' l' := fun z u f hu hf => State.copyIn_changeCopy_line_ne hd hu hd' hu' hl hf
  split
  · split
    · rw [hch _ _ _ (by unfold uL2; omega) (by exact fun _ => rfl), hch _ _ _ (by unfold uL1d; omega) (by exact fun _ => rfl), hx]
    · exact hx
  · exact hx

/-- A line that L1D does not hold goes into a way of it, or L1D has none. -/
theorem State.fillL1_takes (hd : d < 12) (hk : k < 18) (hf : s.findWay d k l = none) (st : Nat) (data : Bytes) (poison pref : Bool) :
    s.fillL1 d k l st data poison pref = s ∨
    (s.fillL1 d k l st data poison pref).copyIn d k l = some ⟨true, l, st, data, poison, pref, false⟩ ∧
      ∀ u, u < 64 → u ≠ k → (s.fillL1 d k l st data poison pref).copyIn d u l = s.copyIn d u l := by
  unfold State.fillL1
  dsimp only
  rw [hf]
  dsimp only
  split
  · exact .inl rfl
  · rename_i w hw
    right
    have hw16 := plruVictim_lt hw
    have hin : ∀ j, j < 16 → InCache d k (setOf k l) j := fun j hj => ⟨hd, by omega, setOf_lt _ _, hj⟩
    have hc : (if k < 18 then k else k - 18) / 2 < 9 := by split <;> omega
    generalize hz : (if (s.cline d k (setOf k l) w).valid = true ∧ (s.cline d k (setOf k l) w).st = 2 then
      s.collapse d ((if k < 18 then k else k - 18) / 2) (s.cline d k (setOf k l) w).line else s) = z
    have hcopy : ∀ u, u < 64 → z.copyIn d u l = s.copyIn d u l := fun u hu => by
      subst hz
      by_cases hv : (s.cline d k (setOf k l) w).valid = true ∧ (s.cline d k (setOf k l) w).st = 2
      · rw [if_pos hv]
        refine State.copyIn_collapse_line_ne hd hc hd hu fun hl => ?_
        have hno := State.findWay_eq_none_iff.mp hf w hw16
        rw [Bool.eq_false_iff, ne_eq, State.holds_iff] at hno
        exact hno ⟨hv.1, hl.symm⟩
      · rw [if_neg hv]
    have hnone : z.findWay d k l = none := State.copyIn_eq_none_iff.mp ((hcopy k (by omega)).trans (State.copyIn_eq_none_iff.mpr hf))
    have htouch : SameCaches ((z.setCline d k (setOf k l) w ⟨true, l, st, data, poison, pref, false⟩).touchWay d k (setOf k l) w)
        (z.setCline d k (setOf k l) w ⟨true, l, st, data, poison, pref, false⟩) := ⟨rfl, rfl⟩
    refine ⟨(htouch.copyIn d k l).trans (State.copyIn_setCline_same hd (by omega) hw16 rfl rfl fun j hj =>
      State.findWay_eq_none_iff.mp hnone j (by omega)), fun u hu hne => (htouch.copyIn d u l).trans (Eq.trans (State.copyIn_congr fun j hj => ?_) (hcopy u hu))⟩
    exact State.cline_setCline_ne _ (hin w hw16) ⟨hd, hu, setOf_lt _ _, hj⟩ fun e => hne e.2.1

/-- The state after the bytes of a store went into a line that only the L2 of its cluster held: into L1D, or over the L2. -/
def State.l2Stored (s : State) (a : Access) (data : Bytes) (poison : Bool) : State :=
  if (((s.hit (hartDie a.h) (uL2 (hartCluster a.h)) a.line).fillL1 (hartDie a.h) (uL1d (a.h % 18)) a.line 2 data poison false).findWay
      (hartDie a.h) (uL1d (a.h % 18)) a.line).isSome then
    (((s.hit (hartDie a.h) (uL2 (hartCluster a.h)) a.line).fillL1 (hartDie a.h) (uL1d (a.h % 18)) a.line 2 data poison false).changeCopy
      (hartDie a.h) (uL2 (hartCluster a.h)) a.line (fun y => { y with st := max 1 y.st })).changeCopy
      (hartDie a.h) (uL1d (a.h % 18)) a.line (fun y => { y with resv := false })
  else ((s.hit (hartDie a.h) (uL2 (hartCluster a.h)) a.line).fillL1 (hartDie a.h) (uL1d (a.h % 18)) a.line 2 data poison false).changeCopy
      (hartDie a.h) (uL2 (hartCluster a.h)) a.line (fun y => { y with st := 2, data := data, poison := poison })

theorem State.l2Stored_keeps (s : State) (a : Access) (data : Bytes) (poison : Bool) : Keeps [.ecc, .cache, .plru] s (s.l2Stored a data poison) := by
  have hfill : Keeps [.ecc, .cache, .plru] s
      ((s.hit (hartDie a.h) (uL2 (hartCluster a.h)) a.line).fillL1 (hartDie a.h) (uL1d (a.h % 18)) a.line 2 data poison false) :=
    State.fillL1_keeps (by decide) (by decide) (by decide) (State.hit_keeps (by decide) .refl _ _ _) _ _ _ _ _ _ _
  exact .ite (State.changeCopy_keeps (by decide) (by decide) (State.changeCopy_keeps (by decide) (by decide) hfill _ _ _ _) _ _ _ _)
    (State.changeCopy_keeps (by decide) (by decide) hfill _ _ _ _)

theorem hartCluster_lt (h : Nat) : hartCluster h < 9 := by unfold hartCluster; omega

theorem State.storeOwned_l2 (h : OnlyIn (hartDie a.h) (uL2 (hartCluster a.h)) a.line s)
    (hx : s.copyIn (hartDie a.h) (uL2 (hartCluster a.h)) a.line = some x) (hamo : ¬ (x.poison = true ∧ accIsAmo a = true)) :
    s.storeOwned a = (s.l2Stored a (putBytes x.data a.off (accStored a x.data)) (x.poison && decide ((accStored a x.data).length < 64))).storeDone a
      x.data (putBytes x.data a.off (accStored a x.data)) (x.poison && decide ((accStored a x.data).length < 64)) := by
  have hc := hartCluster_lt a.h
  have hnone : s.copyIn (hartDie a.h) (uL1d (a.h % 18)) a.line = none :=
    h.copyIn (Nat.lt_trans (uL1d_lt _) (by decide)) (by unfold uL1d uL2; omega)
  have h45 : uL2 (hartCluster a.h) < 45 := uL2_hart_lt a.h
  have hsub : uL2 (hartCluster a.h) - 36 = hartCluster a.h := Nat.add_sub_cancel_left ..
  unfold State.storeOwned
  dsimp only
  rw [hnone]
  unfold State.storeInto
  dsimp only
  rw [hnone, h.collapseDie (by unfold uL2; omega), h.bestHolder hc hx]
  dsimp only
  rw [if_neg hamo, State.when_true h45, hsub, h.dropL1 hc, State.when_true rfl]
  simp only [true_and]
  rfl

section
variable (hh : a.h < 216) (h : OnlyIn (hartDie a.h) (uL2 (hartCluster a.h)) a.line s)
  (hx : s.copyIn (hartDie a.h) (uL2 (hartCluster a.h)) a.line = some x) (h1 : 1 ≤ x.st)
include hh h hx h1

/-- Where the bytes are, and what the L2 keeps. -/
theorem State.l2Stored_copies (data : Bytes) (poison : Bool) :
    ((s.l2Stored a data poison).copyIn (hartDie a.h) (uL1d (a.h % 18)) a.line = some ⟨true, a.line, 2, data, poison, false, false⟩ ∧
        (s.l2Stored a data poison).copyIn (hartDie a.h) (uL2 (hartCluster a.h)) a.line = some x ∨
      (s.l2Stored a data poison).copyIn (hartDie a.h) (uL1d (a.h % 18)) a.line = none ∧
        (s.l2Stored a data poison).copyIn (hartDie a.h) (uL2 (hartCluster a.h)) a.line = some { x with st := 2, data := data, poison := poison }) ∧
    ∀ j, j < 18 → j ≠ a.h % 18 → (s.l2Stored a data poison).copyIn (hartDie a.h) (uL1d j) a.line = none := by
  have hd := hartDie_lt hh
  have hu2 : uL2 (hartCluster a.h) < 64 := Nat.lt_trans (uL2_hart_lt a.h) (by decide)
  have hk := uL1d_lt a.h
  have hu1 : uL1d (a.h % 18) < 64 := Nat.lt_trans hk (by decide)
  have hne : uL2 (hartCluster a.h) ≠ uL1d (a.h % 18) := by unfold uL1d uL2; omega
  obtain ⟨hv, hl⟩ := State.copyIn_tag hx
  have hhit : ∀ u, (s.hit (hartDie a.h) (uL2 (hartCluster a.h)) a.line).copyIn (hartDie a.h) u a.line = s.copyIn (hartDie a.h) u a.line :=
    fun u => (State.hit_sameCaches _ _ _ _).copyIn _ _ _
  have hnone := State.copyIn_eq_none_iff.mp ((hhit (uL1d (a.h % 18))).trans (h.copyIn (by omega) hne.symm))
  have hother : ∀ j, j < 18 → j ≠ a.h % 18 → s.copyIn (hartDie a.h) (uL1d j) a.line = none := fun j hj _ =>
    h.copyIn (by unfold uL1d; omega) (by unfold uL1d uL2; omega)
  have hch : ∀ (z : State) (v u : Nat) (f : CLine → CLine), v < 64 → u < 64 → u ≠ v → (z.changeCopy (hartDie a.h) v a.line f).copyIn (hartDie a.h) u a.line =
      z.copyIn (hartDie a.h) u a.line := fun z v u f hv hu hne => State.copyIn_changeCopy_ne hd hv hd hu (fun e => hne e.2) _ _ f
  unfold State.l2Stored
  rcases State.fillL1_takes hd hk hnone 2 data poison false with heq | ⟨hcopy, hrest⟩
  · rw [heq, hnone, if_neg (by decide)]
    refine ⟨.inr ⟨?_, ?_⟩, fun j hj hjk => ?_⟩
    · rw [hch _ _ _ _ hu2 hu1 hne.symm]
      exact State.copyIn_eq_none_iff.mpr hnone
    · exact State.copyIn_changeCopy_same (f := fun y => { y with st := 2, data := data, poison := poison }) hd hu2 ((hhit _).trans hx) hv hl
    · rw [hch _ _ _ _ hu2 (by unfold uL1d; omega) (by unfold uL1d uL2; omega), hhit]
      exact hother j hj hjk
  · generalize (s.hit (hartDie a.h) (uL2 (hartCluster a.h)) a.line).fillL1 (hartDie a.h) (uL1d (a.h % 18)) a.line 2 data poison false = z at hcopy hrest
    rw [if_pos (by rw [State.findWay_isSome, hcopy]; rfl)]
    have hz2 : z.copyIn (hartDie a.h) (uL2 (hartCluster a.h)) a.line = some x := (hrest _ hu2 hne).trans ((hhit _).trans hx)
    refine ⟨.inl ⟨?_, ?_⟩, fun j hj hjk => ?_⟩
    · exact State.copyIn_changeCopy_same (f := fun y => { y with resv := false }) hd hu1 ((hch _ _ _ _ hu2 hu1 hne.symm).trans hcopy) rfl rfl
    · rw [hch _ _ _ _ hu1 hu2 hne, State.copyIn_changeCopy_same (f := fun y => { y with st := max 1 y.st }) hd hu2 hz2 hv hl, Nat.max_eq_right h1]
    · have hj1 : uL1d j < 64 := by unfold uL1d; omega
      have hj2 : uL1d j ≠ uL1d (a.h % 18) := by unfold uL1d; omega
      rw [hch _ _ _ _ hu1 hj1 hj2, hch _ _ _ _ hu2 hj1 (by unfold uL1d uL2; omega), hrest _ hj1 hj2, hhit]
      exact hother j hj hjk

end

end Sys2Proof.Machine

namespace Sys2Proof.Machine
/-! # The clean of a store under WT (R147) -/

variable {s t : State} {a : Access} {d c k l u : Nat} {x v : CLine}

/-- One core of a die alone may hold the line in L1D: its copy, and that of its L2. -/
structure OneCore (d k l : Nat) (v x : CLine) (s : State) : Prop where
  core : s.copyIn d (uL1d k) l = some v
  l2 : s.copyIn d (uL2 (k / 2)) l = some x
  others : ∀ j, j < 18 → j ≠ k → s.copyIn d (uL1d j) l = none

/-- The L2 holds the line, and no L1D copy is modified. -/
structure Folded (d k l : Nat) (x : CLine) (s : State) : Prop where
  l2 : s.copyIn d (uL2 (k / 2)) l = some x
  clean : ∀ j, j < 18 → ∀ y, s.copyIn d (uL1d j) l = some y → y.st ≠ 2

/-- The L2 copy with the data of a modified L1D copy. -/
def CLine.folded (x v : CLine) : CLine := { x with st := 2, data := v.data, poison := v.poison }

theorem Folded.collapse (h : Folded d k l x s) (hc : c < 9) : s.collapse d c l = s :=
  State.collapse_of_clean fun j hj y hy => h.clean j (by simp only [List.mem_cons, List.not_mem_nil, or_false] at hj; omega) y hy

/-- One core's turn of a fold. -/
def State.foldCore (s : State) (d c l k : Nat) : State :=
  match s.copyIn d (uL1d k) l with
  | some x =>
    if x.st = 2 then
      (s.changeCopy d (uL1d k) l (fun y => { y with st := 0 })).changeCopy d (uL2 c) l (fun y => { y with st := 2, data := x.data, poison := x.poison })
    else s
  | none => s

theorem State.collapse_eq (s : State) (d c l : Nat) : s.collapse d c l = s.forAll [2 * c, 2 * c + 1] (fun s k => s.foldCore d c l k) := rfl

theorem State.foldCore_of_clean (h : ∀ y, s.copyIn d (uL1d k) l = some y → y.st ≠ 2) : s.foldCore d c l k = s := by
  unfold State.foldCore
  split
  · exact if_neg (h _ ‹_›)
  · rfl

/-- The turn of the core that holds the line modified. -/
theorem OneCore.foldCore (hd : d < 12) (hk : k < 18) (h : OneCore d k l v x s) (h2 : v.st = 2) : Folded d k l (x.folded v) (s.foldCore d (k / 2) l k) := by
  obtain ⟨hcore, hl2, hothers⟩ := h
  have hu1 : uL1d k < 64 := by unfold uL1d; omega
  have hu2 : uL2 (k / 2) < 64 := by unfold uL2; omega
  have hne : uL2 (k / 2) ≠ uL1d k := by unfold uL1d uL2; omega
  have hch : ∀ (z : State) (v u : Nat) (f : CLine → CLine), v < 64 → u < 64 → u ≠ v → (z.changeCopy d v l f).copyIn d u l = z.copyIn d u l :=
    fun z v u f hv hu hne => State.copyIn_changeCopy_ne hd hv hd hu (fun e => hne e.2) _ _ f
  have heq : s.foldCore d (k / 2) l k = (s.changeCopy d (uL1d k) l (fun y => { y with st := 0 })).changeCopy d (uL2 (k / 2)) l
      (fun y => y.folded v) := by
    unfold State.foldCore
    rw [hcore]
    exact if_pos h2
  have htag1 := State.copyIn_tag hcore
  have htag2 := State.copyIn_tag hl2
  rw [heq]
  refine ⟨State.copyIn_changeCopy_same (f := fun y => y.folded v) hd hu2 ((hch _ _ _ _ hu1 hu2 hne).trans hl2) htag2.1 htag2.2, fun j hj y hy => ?_⟩
  rw [hch _ _ _ _ hu2 (by unfold uL1d; omega) (by unfold uL1d uL2; omega)] at hy
  by_cases hjk : j = k
  · subst hjk
    have hzero := State.copyIn_changeCopy_same (f := fun y => { y with st := 0 }) hd hu1 hcore htag1.1 htag1.2
    rw [hzero] at hy
    cases hy
    exact Nat.zero_ne_add_one 1
  · rw [hch _ _ _ _ hu1 (by unfold uL1d; omega) (by unfold uL1d; omega), hothers j hj hjk] at hy
    cases hy

/-- A core without a copy has nothing to fold. -/
theorem OneCore.foldCore_ne (h : OneCore d k l v x s) {j : Nat} (hj : j < 18) (hne : j ≠ k) : s.foldCore d c l j = s :=
  State.foldCore_of_clean fun y hy => by rw [h.others j hj hne] at hy; cases hy

theorem OneCore.collapse (hd : d < 12) (hk : k < 18) (h : OneCore d k l v x s) (h2 : v.st = 2) : Folded d k l (x.folded v) (s.collapse d (k / 2) l) := by
  have hlt : ∀ j ∈ [2 * (k / 2), 2 * (k / 2) + 1], j < 18 := fun j hj => by
    simp only [List.mem_cons, List.not_mem_nil, or_false] at hj
    omega
  rw [State.collapse_eq]
  exact State.forAll_reaches (b := k) (fun y j hj hne hy => by rwa [hy.foldCore_ne (hlt j hj) hne]) (fun y hy => hy.foldCore hd hk h2)
    (fun y j hj _ hy => by rwa [State.foldCore_of_clean (hy.clean j (hlt j hj))])
    (by simp only [List.mem_cons, List.not_mem_nil, or_false]; omega) (by simp) h

/-- The data of the one modified L1D copy goes into its L2. -/
theorem OneCore.collapseDie (hd : d < 12) (hk : k < 18) (h : OneCore d k l v x s) (h2 : v.st = 2) :
    Folded d k l (x.folded v) (s.collapseDie d l) := by
  have hid : ∀ (y : State) (c : Nat), OneCore d k l v x y → c < 9 → c ≠ k / 2 → y.collapse d c l = y := fun y c hy hc hne =>
    State.collapse_of_none fun j hj => by
      simp only [List.mem_cons, List.not_mem_nil, or_false] at hj
      exact hy.others j (by omega) (by omega)
  exact State.forAll_reaches (b := k / 2) (fun y c hc hne hy => by rwa [hid y c hy (List.mem_range.mp hc) hne]) (fun y hy => hy.collapse hd hk h2)
    (fun y c hc _ hy => by rwa [hy.collapse (List.mem_range.mp hc)]) (List.mem_range.mpr (by omega)) List.nodup_range h

/-! ### The clean -/

/-- A copy of an L2 or a slice after its die has become clean. -/
theorem State.cleanDie_copyIn (hd : d < 12) (hu : 36 ≤ u ∧ u < 45 ∨ u = uL3 (sliceOf l)) (hx : (s.collapseDie d l).copyIn d u l = some x) (keepE : Bool) :
    (s.cleanDie d l keepE).copyIn d u l = some (cleaned keepE x) := by
  have hu64 : u < 64 := mem_dieUnits_lt (mem_dieUnits (hu.imp_left And.right))
  have htag := State.copyIn_tag hx
  have hmem : u ∈ (s.collapseDie d l).holders d l := State.mem_holders.mpr ⟨hu, by rw [State.findWay_isSome, hx]; rfl⟩
  have hne : ∀ (y : State) (v : Nat), v ∈ (s.collapseDie d l).holders d l → v ≠ u → (y.changeCopy d v l (cleaned keepE)).copyIn d u l = y.copyIn d u l :=
    fun y v hv hne => State.copyIn_changeCopy_ne hd (State.mem_holders_lt hv) hd hu64 (fun e => hne e.2.symm) _ _ _
  exact State.forAll_reaches (P := fun y => y.copyIn d u l = some x) (Q := fun y => y.copyIn d u l = some (cleaned keepE x))
    (fun y v hv hvu hy => (hne y v hv hvu).trans hy)
    (fun y hy => State.copyIn_changeCopy_same (f := cleaned keepE) hd hu64 hy htag.1 htag.2)
    (fun y v hv hvu hy => (hne y v hv hvu).trans hy) hmem (State.holders_nodup _ _ _) hx

end Sys2Proof.Machine

namespace Sys2Proof.Machine
/-! # The outcomes of accesses -/

variable {s t : State} {a : Access} {d c k l u w : Nat} {x y : CLine} {data : Bytes} {poison : Bool}

theorem accIsAmo_iff : accIsAmo a = true ↔ ∃ op wide v, a.kind = .amo op wide v := by
  unfold accIsAmo
  split
  · rename_i op wide v h
    exact iff_of_true rfl ⟨op, wide, v, h⟩
  · rename_i h
    refine iff_of_false Bool.false_ne_true ?_
    rintro ⟨op, wide, v, hk⟩
    exact h op wide v hk

/-! ### Loads, LR and SC -/

/-- A load that hits L1D answers, or meets poison. -/
theorem State.load_ends (hh : a.h < 216) (hk : a.kind = .load) (hx : s.copyIn (hartDie a.h) (uL1d (a.h % 18)) a.line = some x) :
    (x.poison = false → (s.coreAccess a).resp = .data (BitVec.ofNat 64 (ofBytesLE ((x.data.drop a.off).take 8)))) ∧
    (x.poison = true → (s.coreAccess a).resp = .accessFault) ∧ (x.pref = false → (s.coreAccess a).cache = s.cache) ∧
    SameRegsButRecords [] s (s.coreAccess a) := by
  have hregs : ∀ j, (s.loadHit a x).rd j = s.rd j := fun _ => State.rd_congr (s.loadHit_heals a x).regs
  have hdone : (s.loadHit a x).loadDone a x = if x.poison then (s.loadHit a x).consumePoison a
      else (s.loadHit a x).answer (.data (BitVec.ofNat 64 (accWord a x.data 8))) := by
    unfold State.loadDone
    simp only [hk]
  rw [State.coreAccess_load (.inl hk) hx, hdone]
  cases hp : x.poison with
  | false => exact ⟨fun _ => rfl, fun h => Bool.noConfusion h, fun hpref => s.loadHit_cache hpref a, fun j _ _ => hregs j⟩
  | true =>
    have hlog : dieLog (hartDie a.h) < 512 := dieLog_lt (hartDie_lt hh)
    exact ⟨fun h => Bool.noConfusion h, fun _ => rfl, fun hpref => (State.logRec_cache _ _ _ _ _ _ _).trans (s.loadHit_cache hpref a),
      fun j _ hj => (State.rd_logRec hj hlog _ _ _ _ _).trans (hregs j)⟩

/-- An LR that hits L1D reserves its line there. -/
theorem State.lr_reserves {wide : Bool} (hh : a.h < 216) (hk : a.kind = .lr wide) (hx : s.copyIn (hartDie a.h) (uL1d (a.h % 18)) a.line = some x)
    (hp : x.poison = false) : LrAnswers a wide x.data (s.coreAccess a) ∧ (s.coreAccess a).regs = s.regs ∧
    (s.coreAccess a).copyIn (hartDie a.h) (uL1d (a.h % 18)) a.line = some { x with pref := false, resv := true } := by
  have hd := hartDie_lt hh
  have hu := uL1d_lt a.h
  have hdone : (s.loadHit a x).loadDone a x = (((s.loadHit a x).unreserve (hartDie a.h) (a.h % 18)).changeCopy (hartDie a.h) (uL1d (a.h % 18)) a.line
      (fun y => { y with resv := true })).answer
      (.data (amoResult (8 * (if wide then 8 else 4)) (accWord a x.data (if wide then 8 else 4)))) := by
    unfold State.loadDone
    simp only [hk, hp, Bool.false_eq_true, if_false]
  have hcopy : ((s.loadHit a x).unreserve (hartDie a.h) (a.h % 18)).copyIn (hartDie a.h) (uL1d (a.h % 18)) a.line =
      some (CLine.freed { x with pref := false }) := by
    rw [State.unreserve_copyIn_same hd hu, State.loadHit_copyIn hh hx]
    rfl
  obtain ⟨hv, hl⟩ := State.copyIn_tag hx
  rw [State.coreAccess_load (.inr ⟨wide, hk⟩) hx, hdone]
  exact ⟨rfl, ((s.loadHit_heals a x).trans ((State.unreserve_heals _ _ _).trans (State.changeCopy_heals _ _ _ _ _))).regs,
    State.copyIn_changeCopy_same (f := fun y => { y with resv := true }) hd (by omega) hcopy hv hl⟩

/-- An SC without its reservation fails, and the hart holds none then. -/
theorem State.sc_fails {b : Bytes} (hk : a.kind = .sc b) (hr : s.reserved a = false) :
    s.coreAccess a = (s.unreserve (hartDie a.h) (a.h % 18)).answer (.data 1) := by
  unfold State.coreAccess
  simp only [hk, hr, Bool.false_eq_true, if_false]

theorem State.unreserve_reserved (hh : a.h < 216) (s : State) : (s.unreserve (hartDie a.h) (a.h % 18)).reserved a = false := by
  unfold State.reserved
  rw [State.unreserve_copyIn_same (hartDie_lt hh) (uL1d_lt a.h)]
  cases s.copyIn (hartDie a.h) (uL1d (a.h % 18)) a.line <;> rfl

theorem State.unreserve_data (hh : a.h < 216) (s : State) (hu : u < 64) (l : Nat) :
    ((s.unreserve (hartDie a.h) (a.h % 18)).copyIn (hartDie a.h) u l).map (fun y => (y.st, y.data)) =
      (s.copyIn (hartDie a.h) u l).map (fun y => (y.st, y.data)) := by
  by_cases hne : u = a.h % 18
  · subst hne
    rw [State.unreserve_copyIn_same (hartDie_lt hh) (uL1d_lt a.h), Option.map_map]
    rfl
  · rw [State.unreserve_copyIn_ne (hartDie_lt hh) (uL1d_lt a.h) hu hne]

/-! ### Stores that L1D serves -/

/-- What such a store may be. -/
def StoresL1 (a : Access) (x : CLine) : Prop :=
  accIsAmo a = true ∧ x.poison = false ∨ (∃ b, a.kind = .store b) ∨ (∃ b, a.kind = .sc b) ∧ x.resv = true

theorem StoresL1.not_poisonedAmo (h : StoresL1 a x) : ¬ (x.poison = true ∧ accIsAmo a = true) := by
  rintro ⟨hp, hamo⟩
  obtain ⟨op, wide, v, hk⟩ := accIsAmo_iff.mp hamo
  rcases h with h | ⟨b, h⟩ | ⟨⟨b, h⟩, -⟩
  · exact Bool.noConfusion (hp.symm.trans h.2)
  · rw [hk] at h; cases h
  · rw [hk] at h; cases h

/-- The reservation that stands after a store of the hart. -/
def keptReservation (a : Access) (x : CLine) : Bool := x.resv && match a.kind with | .sc _ => false | _ => true

/-- A store to a line that L1D holds modified changes that copy alone, and an SC gives up its reservation. -/
theorem State.store_l1 (hh : a.h < 216) (hk : StoresL1 a x) (hx : s.copyIn (hartDie a.h) (uL1d (a.h % 18)) a.line = some x) (h2 : x.st = 2)
    (hy : s.copyIn (hartDie a.h) (uL2 (hartCluster a.h)) a.line = some y) (h1 : 1 ≤ y.st) (hbusy : s.lineBusy (hartDie a.h) a.line = false)
    (hpol : s.policy (hartDie a.h) a.sealed a.line ≠ 1) : ∃ z, s.coreAccess a = z.answer (accStoreAnswer a x.data) ∧ Keeps [.ecc, .cache, .plru] s z ∧
    z.copyIn (hartDie a.h) (uL2 (hartCluster a.h)) a.line = some y ∧
    z.copyIn (hartDie a.h) (uL1d (a.h % 18)) a.line = some { x with
      data := putBytes x.data a.off (accStored a x.data), poison := x.poison && decide ((accStored a x.data).length < 64)
      resv := keptReservation a x } := by
  have hd := hartDie_lt hh
  have hu := uL1d_lt a.h
  have hu2 : uL2 (hartCluster a.h) < 64 := Nat.lt_trans (uL2_hart_lt a.h) (by decide)
  have hne : uL2 (hartCluster a.h) ≠ a.h % 18 := by unfold uL2; omega
  have howned : s.coreAccess a = s.storeOwned a := by
    rw [State.coreAccess_store, State.coreStore_owned hy h1 hbusy fun h => absurd h hpol]
    rcases hk with h | h | ⟨h, hres⟩
    · exact .inl h.1
    · exact .inr (.inl h)
    · refine .inr (.inr ⟨h, ?_⟩)
      unfold State.reserved
      rw [hx]
      exact hres
  have hkeep := s.l1Stored_keeps a x
  have hcopy := State.l1Stored_copyIn hh hx
  have hcopy2 := (State.l1Stored_copyIn_ne (s := s) (x := x) hh hu2 hne a.line).trans hy
  have hclean : ∀ z : State, Keeps [.ecc, .cache, .plru] s z → ∀ r data poison, (z.answer r).wtClean a data poison = z.answer r := fun z hz r data poison =>
    State.wtClean_of_not (s := z.answer r) (by
      rw [CachesOnly.policy (s := s) (t := z.answer r) (.trans (.of_keeps hz (by decide) (by decide) (by decide) (by decide)) ⟨rfl, rfl, rfl, rfl⟩)]
      exact hpol) data poison
  rw [howned, State.storeOwned_l1 hx h2 hk.not_poisonedAmo]
  by_cases hsc : ∃ b, a.kind = .sc b
  · obtain ⟨b, hb⟩ := hsc
    have hkeep' : Keeps [.ecc, .cache, .plru] s ((s.l1Stored a x).unreserve (hartDie a.h) (a.h % 18)) :=
      State.unreserve_keeps (by decide) (by decide) hkeep _ _
    refine ⟨_, (State.storeDone_sc hb _ _ _).trans (hclean _ hkeep' _ _ _), hkeep', (State.unreserve_copyIn_ne hd hu hu2 hne _).trans hcopy2, ?_⟩
    rw [State.unreserve_copyIn_same hd hu, hcopy]
    have hno : keptReservation a x = false := by
      unfold keptReservation
      rw [hb]
      exact Bool.and_false _
    rw [hno]
    rfl
  · have hno : ∀ b, a.kind ≠ .sc b := fun b hb => hsc ⟨b, hb⟩
    refine ⟨_, (State.storeDone_eq hno _ _ _).trans (hclean _ hkeep _ _ _), hkeep, hcopy2, hcopy.trans ?_⟩
    have hres : keptReservation a x = x.resv := by
      unfold keptReservation
      split
      · rename_i b hb
        exact absurd hb (hno b)
      · exact Bool.and_true _
    rw [hres]

theorem State.reserved_of_copyIn (h : s.copyIn (hartDie a.h) (uL1d (a.h % 18)) a.line = some x) : s.reserved a = x.resv := by
  unfold State.reserved
  rw [h]

/-! ### Stores into a line of the L2 -/

theorem State.store_l2 (hk : accIsAmo a = true ∧ x.poison = false ∨ ∃ b, a.kind = .store b)
    (hx : s.copyIn (hartDie a.h) (uL2 (hartCluster a.h)) a.line = some x) (h1 : 1 ≤ x.st) (hbusy : s.lineBusy (hartDie a.h) a.line = false)
    (honly : OnlyIn (hartDie a.h) (uL2 (hartCluster a.h)) a.line s)
    (hroom : s.policy (hartDie a.h) a.sealed a.line = 1 → s.wbRoom (hartDie a.h) (sliceOf a.line) 2 = true) : s.coreAccess a =
    ((s.l2Stored a (putBytes x.data a.off (accStored a x.data)) (x.poison && decide ((accStored a x.data).length < 64))).answer
      (accStoreAnswer a x.data)).wtClean a (putBytes x.data a.off (accStored a x.data)) (x.poison && decide ((accStored a x.data).length < 64)) := by
  have hamo : ¬ (x.poison = true ∧ accIsAmo a = true) := StoresL1.not_poisonedAmo (hk.imp_right .inl)
  have hkind : accIsAmo a = true ∨ ∃ b, a.kind = .store b := hk.imp_left And.left
  rw [State.coreAccess_store (hkind.imp_right .inl), State.coreStore_owned hx h1 hbusy hroom, State.storeOwned_l2 honly hx hamo,
    State.storeDone_eq (accIsAmo_not_sc hkind)]

/-- The state after a store into a line of the L2, before its clean. -/
theorem State.l2Stored_cachesOnly (s : State) (a : Access) (data : Bytes) (poison : Bool) (r : Resp) :
    CachesOnly s ((s.l2Stored a data poison).answer r) :=
  .trans (.of_keeps (s.l2Stored_keeps a data poison) (by decide) (by decide) (by decide) (by decide)) ⟨rfl, rfl, rfl, rfl⟩

/-- After such a store the L1D copies fold into the L2 copy. -/
theorem State.l2Stored_folds (hh : a.h < 216) (h : OnlyIn (hartDie a.h) (uL2 (hartCluster a.h)) a.line s)
    (hx : s.copyIn (hartDie a.h) (uL2 (hartCluster a.h)) a.line = some x) (h1 : 1 ≤ x.st) (data : Bytes) (poison : Bool) :
    ((s.l2Stored a data poison).collapseDie (hartDie a.h) a.line).copyIn (hartDie a.h) (uL2 (hartCluster a.h)) a.line =
      some { x with st := 2, data := data, poison := poison } := by
  obtain ⟨hcopies, hothers⟩ := State.l2Stored_copies hh h hx h1 data poison
  rcases hcopies with ⟨hcore, hl2⟩ | ⟨hcore, hl2⟩
  · exact (OneCore.collapseDie (hartDie_lt hh) (uL1d_lt a.h) ⟨hcore, hl2, hothers⟩ rfl).l2
  · rw [State.collapseDie_of_none fun j hj => ?_]
    · exact hl2
    · by_cases hjk : j = a.h % 18
      · subst hjk; exact hcore
      · exact hothers j hj hjk

/-- Under WT the line is written home, and stays clean in its L2. -/
theorem State.wtClean_writes (hh : a.h < 216) (hst : CachesOnly s t) (hpol : s.policy (hartDie a.h) a.sealed a.line = 1)
    (hx : (t.collapseDie (hartDie a.h) a.line).copyIn (hartDie a.h) (uL2 (hartCluster a.h)) a.line = some x) (data : Bytes) (poison : Bool) :
    SliceWrites (hartDie a.h) a.line true data poison a.sealed s (t.wtClean a data poison) ∧
    (t.wtClean a data poison).copyIn (hartDie a.h) (uL2 (hartCluster a.h)) a.line = some (cleaned true x) := by
  have hunit : 36 ≤ uL2 (hartCluster a.h) ∧ uL2 (hartCluster a.h) < 45 ∨ uL2 (hartCluster a.h) = uL3 (sliceOf a.line) :=
    .inl ⟨Nat.le_add_right _ _, uL2_hart_lt a.h⟩
  have heq : t.wtClean a data poison = (t.cleanDie (hartDie a.h) a.line true).sliceWb (hartDie a.h) a.line data poison true a.sealed :=
    if_pos ((hst.policy _ _ _).trans hpol)
  have hkeep : Keeps [.ecc, .cache] t (t.cleanDie (hartDie a.h) a.line true) := State.cleanDie_keeps (by decide) (by decide) .refl _ _ _
  have hclean := State.cleanDie_copyIn (hartDie_lt hh) hunit hx true
  have honly : CachesOnly t (t.cleanDie (hartDie a.h) a.line true) := .of_keeps hkeep (by decide) (by decide) (by decide) (by decide)
  rw [heq]
  generalize t.cleanDie (hartDie a.h) a.line true = z at hclean honly
  have hsame : SameCaches z (z.sliceWb (hartDie a.h) a.line data poison true a.sealed) := ⟨rfl, rfl⟩
  exact ⟨(hst.trans honly).sliceWb _ _ _ _ _ _, (hsame.copyIn _ _ _).trans hclean⟩

theorem State.wtClean_l2 (hh : a.h < 216) (h : OnlyIn (hartDie a.h) (uL2 (hartCluster a.h)) a.line s)
    (hx : s.copyIn (hartDie a.h) (uL2 (hartCluster a.h)) a.line = some x) (h1 : 1 ≤ x.st) (hpol : s.policy (hartDie a.h) a.sealed a.line = 1)
    (data : Bytes) (poison : Bool) (r : Resp) :
    SliceWrites (hartDie a.h) a.line true data poison a.sealed s (((s.l2Stored a data poison).answer r).wtClean a data poison) ∧
    (((s.l2Stored a data poison).answer r).wtClean a data poison).copyIn (hartDie a.h) (uL2 (hartCluster a.h)) a.line =
      some { x with st := 1, data := data, poison := poison } := by
  have hst := State.l2Stored_cachesOnly s a data poison r
  have hfold := State.l2Stored_folds hh h hx h1 data poison
  generalize s.l2Stored a data poison = z at hst hfold
  have hsame : SameCaches (z.answer r) z := ⟨rfl, rfl⟩
  exact State.wtClean_writes hh hst hpol (((hsame.collapseDie _ _).copyIn _ _ _).trans hfold) data poison

end Sys2Proof.Machine

namespace Sys2Proof.Machine
/-! # Accesses, prefetches and evictions: the obligation (R121, R127, R129, R143, R147, R148, R150, R165, R166, R429) -/

variable {s t : State} {a b : Access} {d : Bytes} {w : WcBuf} {x y : CLine} {k l : Nat}

/-! ### Faults, the buffer and the lookup -/

theorem ringBroadcast_fault {e : Resp} (hstop : ¬ s.stopped) (hok : s.accessOk a = true) (hfault : s.accessFault a = some e) :
    exec (.ringBroadcast a) s = .next ((s.inMode a.h a.mode).answer e) := by
  rw [ringBroadcast_eq hstop hok, hfault]

theorem ringBroadcast_hart (hstop : ¬ s.stopped) (hok : s.accessOk a = true) (hfault : s.accessFault a = none) :
    exec (.ringBroadcast a) s = .next ((s.inMode a.h a.mode).hartAccess (s.accessTagged a)) := by
  rw [ringBroadcast_eq hstop hok, hfault]

theorem ringBroadcast_corrects (hstop : ¬ s.stopped) (hok : s.accessOk a = true) (hfault : s.accessFault a = none) (hk : SMap.get s.ecc k = 1)
    (hw : s.dieWord (hartDie a.h) a.line k = true) : Completes (.ringBroadcast a) s (fun t =>
      SMap.get t.ecc k = 0 ∧ t.get (L.ERR_LOG_STAT.VALID (dieLog (hartDie a.h))) = 1) := by
  obtain ⟨hgone, hlogged⟩ := State.hartAccess_corrects (s := s.inMode a.h a.mode) (a := s.accessTagged a) (State.accessOk_hart hok).1 hk hw
  exact ⟨_, ringBroadcast_hart hstop hok hfault, SMap.get_eq_default hgone, hlogged⟩

/-! ### Accesses that L1D answers -/

/-- An access whose outcome at its caches is known completes so. -/
theorem RingTakes.completes {P : State → Prop} (hr : RingTakes s a b)
    (hP : ∀ m, a.h < 216 → P ((s.atCaches a.h a.mode m).coreAccess (s.accessTagged a))) : Completes (.ringBroadcast a) s P := by
  obtain ⟨m, hm⟩ := ringBroadcast_next hr
  obtain ⟨rfl, -, hok, -⟩ := hr
  exact ⟨_, hm, hP m (State.accessOk_hart hok).1⟩

theorem RingTakes.sc_fails (hr : RingTakes s a b) (hk : a.kind = .sc d) (hres : s.reserved a = false) :
    Completes (.ringBroadcast a) s (fun t => t.resp = .data 1 ∧ t.mem = s.mem ∧ t.out = s.out ∧ t.reserved a = false ∧
      SameRegsBut [] s t ∧ ∀ u, u < 49 → (t.copyIn (hartDie a.h) u a.line).map (fun y => (y.st, y.data)) =
        (s.copyIn (hartDie a.h) u a.line).map (fun y => (y.st, y.data))) := by
  refine hr.completes fun m hh => ?_
  rw [State.sc_fails (s := s.atCaches a.h a.mode m) (a := s.accessTagged a) hk hres]
  obtain ⟨hout, hmem⟩ := State.unreserve_same (s.atCaches a.h a.mode m) (hartDie a.h) (a.h % 18)
  exact ⟨rfl, hmem, hout, State.unreserve_reserved hh (s.atCaches a.h a.mode m),
    (State.unreserve_heals (s.atCaches a.h a.mode m) (hartDie a.h) (a.h % 18)).sameRegs [],
    fun u hu => State.unreserve_data hh (s.atCaches a.h a.mode m) (Nat.lt_trans hu (by decide)) a.line⟩

/-! ### The write-combining buffer -/

theorem State.wcMerged_of_none (h : (s.hartSt a.h).wc = none) :
    s.wcMerged a d = ⟨a.line, (2 ^ d.length - 1) <<< a.off, putBytes (zeros 64) a.off d, a.sealed, a.reserved⟩ := by
  unfold State.wcMerged
  rw [h, Option.getD_none, Nat.zero_or]

theorem State.wcMerged_of_some (h : (s.hartSt a.h).wc = some w) :
    s.wcMerged a d = { w with mask := w.mask ||| (2 ^ d.length - 1) <<< a.off, data := putBytes w.data a.off d } := by
  unfold State.wcMerged
  rw [h, Option.getD_some]

/-- What a masked write into an empty buffer leaves: the store in the buffer, or a whole line sent. -/
theorem State.maskedWrite_first (hwc : (s.hartSt a.h).wc = none) (hfit : a.off + d.length ≤ 64) :
    (d.length < 64 → (s.maskedWrite a d).out = s.out ∧ ((s.maskedWrite a d).hartSt a.h).wc =
      some ⟨a.line, (2 ^ d.length - 1) <<< a.off, putBytes (zeros 64) a.off d, a.sealed, a.reserved⟩) ∧
    (d.length = 64 → ((s.maskedWrite a d).hartSt a.h).wc = none ∧ (s.maskedWrite a d).out = s.out ++ [.coh .ncWr (0x100 + s.homeOf a.line)
      { sliceMsg (hartDie a.h) a.line a.sealed a.reserved with
        txn := SMap.get s.wbTag (64 + 4 * hartDie a.h + sliceOf a.line), mask := 2 ^ 64 - 1, data := d }]) := by
  have hmerged := State.wcMerged_of_none (d := d) hwc
  refine ⟨fun hlt => ?_, fun hfull => ?_⟩
  · have h := State.maskedWrite_joins (s := s) (a := a) (d := d) (by rw [hmerged]; exact mask_ne_full hlt hfit)
    rwa [hmerged] at h
  · have hoff : a.off = 0 := by omega
    have hput : putBytes (zeros 64) a.off d = d := by rw [hoff]; exact putBytes_full (List.length_replicate ..) hfull
    have h := State.maskedWrite_leaves (s := s) (a := a) (d := d) (by rw [hmerged, hfull, hoff]; rfl)
    rwa [hmerged, hput] at h

theorem RingTakes.store_wna (hr : RingTakes s a b) (hk : a.kind = .store d) (hn : NoCopy s (hartDie a.h) a.line)
    (hbusy : s.lineBusy (hartDie a.h) a.line = false) (hpol : s.policy (hartDie a.h) b.sealed a.line = 2) :
    Completes (.ringBroadcast a) s (fun t => t.resp = .ok ∧ t.cache = s.cache ∧ t.slices = s.slices ∧ SameRegsBut [] s t ∧
      (d.length < 64 → t.out = s.out ∧ (t.hartSt a.h).wc =
        some ⟨a.line, (2 ^ d.length - 1) <<< a.off, putBytes (zeros 64) a.off d, b.sealed, b.reserved⟩) ∧
      (d.length = 64 → (t.hartSt a.h).wc = none ∧ t.out = s.out ++ [.coh .ncWr (0x100 + s.homeOf a.line)
        { sliceMsg (hartDie a.h) a.line b.sealed b.reserved with
          txn := SMap.get s.wbTag (64 + 4 * hartDie a.h + sliceOf a.line), mask := 2 ^ 64 - 1, data := d }])) := by
  have hr' := hr
  obtain ⟨rfl, -, hok, -, hwc, -⟩ := hr'
  refine hr.completes fun m hh => ?_
  have hmiss : (s.atCaches a.h a.mode m).wnaMiss (s.accessTagged a) = true := NoCopy.wnaMiss hn hbusy hpol
  rw [NoCopy.coreStore_masked (s := s.atCaches a.h a.mode m) (a := s.accessTagged a) hn hk hmiss]
  obtain ⟨hresp, hcache, hslices⟩ := State.maskedWrite_same (s.atCaches a.h a.mode m) (s.accessTagged a) d
  obtain ⟨hpart, hfull⟩ := State.maskedWrite_first (s := s.atCaches a.h a.mode m) (a := s.accessTagged a) (d := d)
    ((s.inMode_wc a.h a.mode).trans hwc) (State.accessOk_fits hok hk)
  exact ⟨hresp, hcache, hslices, (State.maskedWrite_heals (s.atCaches a.h a.mode m) (s.accessTagged a) d).sameRegs [], hpart, hfull⟩

/-- A store that joins its buffer is one that misses under WNA, and the buffer stays before it. -/
theorem State.wcJoins_store (hj : s.wcJoins a = true) : s.wnaMiss a = true ∧ s.wcBefore a = s := by
  refine ⟨?_, ?_⟩
  · unfold State.wcJoins at hj
    split at hj
    · simp only [Bool.and_eq_true] at hj
      exact hj.2
    · cases hj
  · unfold State.wcBefore
    split
    · rfl
    · rfl
    · exact if_pos hj

theorem State.wnaMiss_atCaches (s : State) (a : Access) (md : PrivMode) (m : SMap Stream) : (s.atCaches a.h md m).wnaMiss a = s.wnaMiss a := by
  unfold State.wnaMiss
  rw [SameCaches.dieLevel (s := s.atCaches a.h md m) (t := s) ⟨rfl, rfl⟩]
  rfl

theorem ringBroadcast_joins (hstop : ¬ s.stopped) (hok : s.accessOk a = true) (hfault : s.accessFault a = none) (hk : a.kind = .store d)
    (hwc : (s.hartSt a.h).wc = some w) (hj : s.wcJoins (s.accessTagged a) = true) (hn : NoCopy s (hartDie a.h) a.line)
    (hmarks : NoMarks s (hartDie a.h) a.line) (hmask : w.mask ||| (2 ^ d.length - 1) <<< a.off ≠ 2 ^ 64 - 1) :
    Completes (.ringBroadcast a) s (fun t => t.resp = .ok ∧ t.cache = s.cache ∧ t.out = s.out ∧ SameRegsBut [] s t ∧
      (t.hartSt a.h).wc = some { w with mask := w.mask ||| (2 ^ d.length - 1) <<< a.off, data := putBytes w.data a.off d }) := by
  have hbefore : (s.inMode a.h a.mode).wcBefore (s.accessTagged a) = s.inMode a.h a.mode :=
    (State.wcJoins_store ((s.wcJoins_inMode (s.accessTagged a) a.mode).trans hj)).2
  obtain ⟨m, hm⟩ := State.hartAccess_atCaches (s := s) (a := s.accessTagged a) (md := a.mode) hbefore hmarks
  have hmasked := NoCopy.coreStore_masked (s := s.atCaches a.h a.mode m) (a := s.accessTagged a) hn hk
    ((s.wnaMiss_atCaches (s.accessTagged a) a.mode m).trans (State.wcJoins_store hj).1)
  have hmerged := State.wcMerged_of_some (s := s.atCaches a.h a.mode m) (a := s.accessTagged a) (d := d)
    ((s.inMode_wc a.h a.mode).trans hwc)
  obtain ⟨hresp, hcache, -⟩ := State.maskedWrite_same (s.atCaches a.h a.mode m) (s.accessTagged a) d
  obtain ⟨hout, hbuf⟩ := State.maskedWrite_joins (s := s.atCaches a.h a.mode m) (a := s.accessTagged a) (d := d) (by rw [hmerged]; exact hmask)
  rw [hmerged] at hbuf
  refine ⟨_, (ringBroadcast_hart hstop hok hfault).trans (congrArg _ (hm.trans hmasked)), hresp, hcache, hout,
    (State.maskedWrite_heals (s.atCaches a.h a.mode m) (s.accessTagged a) d).sameRegs [], hbuf⟩

end Sys2Proof.Machine

namespace Sys2Proof.Machine
/-! # Stores into held lines, prefetches and evictions (R148, R150, R165, R166) -/

variable {s t : State} {a b : Access} {x y : CLine}

/-! ### Stores into held lines -/

theorem RingTakes.store_l1 (hr : RingTakes s a b) (hk : StoresL1 a x) (hx : s.copyIn (hartDie a.h) (uL1d (a.h % 18)) a.line = some x) (h2 : x.st = 2)
    (hy : s.copyIn (hartDie a.h) (uL2 (hartCluster a.h)) a.line = some y) (h1 : 1 ≤ y.st) (hbusy : s.lineBusy (hartDie a.h) a.line = false)
    (hpol : s.policy (hartDie a.h) b.sealed a.line ≠ 1) : Completes (.ringBroadcast a) s (fun t =>
      t.resp = accStoreAnswer a x.data ∧ SameRegsBut [] s t ∧ t.out = s.out ∧ t.mem = s.mem ∧
      t.copyIn (hartDie a.h) (uL2 (hartCluster a.h)) a.line = some y ∧
      t.copyIn (hartDie a.h) (uL1d (a.h % 18)) a.line = some { x with
        data := putBytes x.data a.off (accStored a x.data), poison := x.poison && decide ((accStored a x.data).length < 64),
        resv := t.reserved a } ∧ t.reserved a = keptReservation a x) := by
  have hb : b = s.accessTagged a := hr.1
  subst hb
  refine hr.completes fun m hh => ?_
  obtain ⟨z, hz, hkeep, hl2, hl1⟩ := State.store_l1 (s := s.atCaches a.h a.mode m) (a := s.accessTagged a) hh hk hx h2 hy h1 hbusy hpol
  have hregs : z.regs = s.regs := hkeep.frame .regs (by decide)
  have hout : z.out = s.out := hkeep.frame .out (by decide)
  have hmem : z.mem = s.mem := hkeep.frame .mem (by decide)
  rw [hz]
  have hsame : ∀ r, SameCaches (z.answer r) z := fun _ => ⟨rfl, rfl⟩
  have hres' : ∀ r, (z.answer r).reserved a = keptReservation a x := fun r => State.reserved_of_copyIn (((hsame r).copyIn _ _ _).trans hl1)
  refine ⟨rfl, fun _ _ => State.rd_congr hregs, hout, hmem, ((hsame _).copyIn _ _ _).trans hl2, ?_, hres' _⟩
  rw [hres']
  exact ((hsame _).copyIn _ _ _).trans hl1

/-- Outside WT such a store ends with its bytes in L1D, or in the L2 where L1D has no way for the line. -/
theorem State.store_l2_kept (hh : a.h < 216) (h : OnlyIn (hartDie a.h) (uL2 (hartCluster a.h)) a.line s)
    (hx : s.copyIn (hartDie a.h) (uL2 (hartCluster a.h)) a.line = some x) (h1 : 1 ≤ x.st) (hpol : s.policy (hartDie a.h) a.sealed a.line ≠ 1)
    (data : Bytes) (poison : Bool) (r : Resp) : ((s.l2Stored a data poison).answer r).wtClean a data poison = (s.l2Stored a data poison).answer r ∧
    ((s.l2Stored a data poison).answer r).out = s.out ∧
    (((s.l2Stored a data poison).answer r).copyIn (hartDie a.h) (uL1d (a.h % 18)) a.line = some ⟨true, a.line, 2, data, poison, false, false⟩ ∧
        ((s.l2Stored a data poison).answer r).copyIn (hartDie a.h) (uL2 (hartCluster a.h)) a.line = some x ∨
      ((s.l2Stored a data poison).answer r).findWay (hartDie a.h) (uL1d (a.h % 18)) a.line = none ∧
        ((s.l2Stored a data poison).answer r).copyIn (hartDie a.h) (uL2 (hartCluster a.h)) a.line =
          some { x with st := 2, data := data, poison := poison }) := by
  have hst := State.l2Stored_cachesOnly s a data poison r
  have hcopies := (State.l2Stored_copies hh h hx h1 data poison).1
  generalize s.l2Stored a data poison = z at hst hcopies
  have hsame : SameCaches (z.answer r) z := ⟨rfl, rfl⟩
  refine ⟨State.wtClean_of_not (fun e => hpol ((hst.policy _ _ _).symm.trans e)) data poison, hst.out, ?_⟩
  rw [← State.copyIn_eq_none_iff, hsame.copyIn, hsame.copyIn]
  exact hcopies

theorem State.store_l2_regs (s : State) (a : Access) (data : Bytes) (poison : Bool) (r : Resp) :
    (((s.l2Stored a data poison).answer r).wtClean a data poison).regs = s.regs :=
  (State.wtClean_heals _ _ _ _).regs.trans (State.l2Stored_cachesOnly s a data poison r).regs

theorem State.wtClean_resp (s : State) (a : Access) (data : Bytes) (poison : Bool) : (s.wtClean a data poison).resp = s.resp := by
  have hkeep : Keeps [.ecc, .cache] s (s.cleanDie (hartDie a.h) a.line true) := State.cleanDie_keeps (by decide) (by decide) .refl _ _ _
  have hresp : (s.cleanDie (hartDie a.h) a.line true).resp = s.resp := hkeep.frame .resp (by decide)
  unfold State.wtClean
  dsimp only
  generalize s.cleanDie (hartDie a.h) a.line true = z at hresp
  split
  · exact hresp
  · rfl

theorem RingTakes.store_l2 (hr : RingTakes s a b) (hk : accIsAmo a = true ∧ x.poison = false ∨ ∃ d, a.kind = .store d)
    (hx : s.copyIn (hartDie a.h) (uL2 (hartCluster a.h)) a.line = some x) (h1 : 1 ≤ x.st) (hbusy : s.lineBusy (hartDie a.h) a.line = false)
    (honly : OnlyIn (hartDie a.h) (uL2 (hartCluster a.h)) a.line s)
    (hroom : s.policy (hartDie a.h) b.sealed a.line = 1 → s.wbRoom (hartDie a.h) (sliceOf a.line) 2 = true) :
    Completes (.ringBroadcast a) s (fun t => t.resp = accStoreAnswer a x.data ∧ SameRegsBut [] s t ∧
      (s.policy (hartDie a.h) b.sealed a.line ≠ 1 → t.out = s.out ∧
        (t.copyIn (hartDie a.h) (uL1d (a.h % 18)) a.line = some ⟨true, a.line, 2, putBytes x.data a.off (accStored a x.data),
            x.poison && decide ((accStored a x.data).length < 64), false, false⟩ ∧
          t.copyIn (hartDie a.h) (uL2 (hartCluster a.h)) a.line = some x ∨
        t.findWay (hartDie a.h) (uL1d (a.h % 18)) a.line = none ∧
          t.copyIn (hartDie a.h) (uL2 (hartCluster a.h)) a.line = some { x with
            st := 2, data := putBytes x.data a.off (accStored a x.data),
            poison := x.poison && decide ((accStored a x.data).length < 64) })) ∧
      (s.policy (hartDie a.h) b.sealed a.line = 1 →
        SliceWrites (hartDie a.h) a.line true (putBytes x.data a.off (accStored a x.data))
          (x.poison && decide ((accStored a x.data).length < 64)) b.sealed s t ∧
        t.copyIn (hartDie a.h) (uL2 (hartCluster a.h)) a.line = some { x with
          st := 1, data := putBytes x.data a.off (accStored a x.data),
          poison := x.poison && decide ((accStored a x.data).length < 64) })) := by
  have hb : b = s.accessTagged a := hr.1
  subst hb
  refine hr.completes fun m hh => ?_
  have honly' : OnlyIn (hartDie a.h) (uL2 (hartCluster a.h)) a.line (s.atCaches a.h a.mode m) := honly
  have hregs := State.store_l2_regs (s.atCaches a.h a.mode m) (s.accessTagged a)
  rw [State.store_l2 (s := s.atCaches a.h a.mode m) (a := s.accessTagged a) hk hx h1 hbusy honly' hroom]
  refine ⟨?_, fun _ _ => State.rd_congr (hregs _ _ _), fun hpol => ?_, fun hpol => ?_⟩
  · exact (State.wtClean_resp _ _ _ _).trans rfl
  · obtain ⟨heq, hkept⟩ := State.store_l2_kept (s := s.atCaches a.h a.mode m) (a := s.accessTagged a) hh honly' hx h1 hpol _ _ _
    rw [heq]
    exact hkept
  · exact State.wtClean_l2 (s := s.atCaches a.h a.mode m) (a := s.accessTagged a) hh honly' hx h1 hpol _ _ _

end Sys2Proof.Machine

namespace Sys2Proof.Machine
/-! # Prefetches and evictions, and the obligation on accesses (R148, R150, R165, R166) -/

variable {s t : State} {x : Stream} {y : CLine} {l set : Nat}

/-! ### Prefetches -/

/-- The next line ahead of a stream, inside its page. -/
theorem Stream.nextLine_eq {u : Nat} (hl : (l : Int) = (if u < 18 ∧ x.stride.natAbs < 64 then
      ((x.last / 64 : Nat) : Int) + (if 0 ≤ x.stride then 1 else -1) * ((x.ahead : Int) + 1)
    else if u < 18 then ((x.last : Int) + x.stride * ((x.ahead : Int) + 1)) / 64 else (x.last : Int) + x.stride * ((x.ahead : Int) + 1)))
    (hpage : l / 64 = streamLine u x.last / 64) : x.nextLine u = some l := by
  unfold Stream.nextLine
  simp only [decide_eq_true_eq]
  rw [← hl, Int.toNat_natCast, if_pos ⟨Int.natCast_nonneg l, hpage⟩]

/-- The access by which a stream asks for a line. -/
def Stream.asks (x : Stream) (u l : Nat) : Access := ⟨x.h, l, 0, if u < 18 then .prefL1 else .prefL2, x.sealed, false, 0, .s⟩

theorem Stream.asks_kind (x : Stream) (u l : Nat) : (x.asks u l).kind = .prefL1 ∨ (x.asks u l).kind = .prefL2 := by
  unfold Stream.asks
  dsimp only
  split
  · exact .inl rfl
  · exact .inr rfl

/-- The state after a stream has moved one line ahead. -/
def State.ahead (s : State) (d u k : Nat) (x : Stream) : State :=
  { s with streams := SMap.set s.streams (streamKey d u k) { x with ahead := x.ahead + 1 } }

/-- A confirmed stream whose next line meets no code error asks for it. -/
theorem prefetchIssue_eq {die : Fin 12} {unit : Fin 27} {idx : Fin 32} (hstop : ¬ s.stopped) (hx : s.stream die unit idx = x) (hkey : x.key ≠ 0)
    (hseen : 3 ≤ x.seen) (hen : s.pfEnabled die unit = true) (hruns : s.prefetchRuns die unit = true) (hin : s.dieIn die = true)
    (hahead : x.ahead < (if unit.val < 18 then s.get (L.WLD_PFCTL.L1_DIST die) else s.get (L.WLD_PFCTL.L2_DIST die)))
    (hnext : x.nextLine unit = some l) (hhbm : lineInHbm l = true) (hoff : s.pfOff die x.sealed l = false) (hmarks : NoMarks s die l) :
    exec (.prefetchIssue die unit idx) s = .next ((s.ahead die unit idx x).coreAccess (x.asks unit l)) := by
  have hgo : ¬ (s.stopped ∨ x.key = 0 ∨ x.seen < 3 ∨ s.pfEnabled die unit = false ∨
      (if unit.val < 18 then s.get (L.WLD_PFCTL.L1_DIST die) else s.get (L.WLD_PFCTL.L2_DIST die)) ≤ x.ahead ∨
      s.prefetchRuns die unit = false ∨ s.dieIn die = false) := by
    rw [hen, hruns, hin]
    rintro (h | h | h | h | h | h | h)
    · exact hstop h
    · exact hkey h
    · omega
    · cases h
    · omega
    · cases h
    · cases h
  have hmarks' : NoMarks (s.ahead die unit idx x) die l := hmarks
  have hlook := State.dieLook_of_noMarks hmarks'
  have hecc : ¬ ((s.ahead die unit idx x).dieLook die l).dieEcc die l = true := by
    rw [hlook, State.dieEcc_of_noMarks hmarks']
    exact Bool.false_ne_true
  show execPrefetchIssue die unit idx s = _
  unfold execPrefetchIssue
  simp only [hx]
  rw [if_neg hgo, hnext]
  dsimp only
  rw [if_pos ⟨hhbm, hoff⟩]
  exact (if_neg hecc).trans (congrArg (fun z : State => (.next (z.coreAccess (x.asks unit l)) : Result)) hlook)

theorem State.ahead_asks {die : Fin 12} {unit : Fin 27} {idx : Fin 32} (hdie : hartDie x.h = die.val) (hn : NoCopy s die l)
    (hbusy : s.lineBusy die l = false) (hfree : s.entryFree die (sliceOf l) = true) :
    ((s.ahead die unit idx x).coreAccess (x.asks unit l)).stream die unit idx = { x with ahead := x.ahead + 1 } ∧
    SliceAsks die (x.asks unit l) .isD .rdS s ((s.ahead die unit idx x).coreAccess (x.asks unit l)) ∧
    ((s.ahead die unit idx x).coreAccess (x.asks unit l)).cache = s.cache ∧
    SameRegsBut [] s ((s.ahead die unit idx x).coreAccess (x.asks unit l)) := by
  have hn' : NoCopy (s.ahead die unit idx x) (hartDie x.h) l := by rw [hdie]; exact hn
  have hbusy' : (s.ahead die unit idx x).lineBusy (hartDie x.h) l = false := by rw [hdie]; exact hbusy
  have hfree' : (s.ahead die unit idx x).entryFree die (sliceOf l) = true := hfree
  have hread : (s.ahead die unit idx x).coreAccess (x.asks unit l) = (s.ahead die unit idx x).sliceOpen (hartDie x.h) (x.asks unit l) .isD .rdS :=
    NoCopy.coreRead hn' hbusy' (.inr (.inr (.inr (x.asks_kind unit l))))
  obtain ⟨hasks, hcache, hregs, hstreams⟩ := State.sliceOpen_asks (a := x.asks unit l) hfree' .isD .rdS
  rw [hread, hdie]
  refine ⟨?_, hasks, hcache, fun _ _ => State.rd_congr hregs⟩
  unfold State.stream
  rw [hstreams]
  exact SMap.get_set_same _ _ _

/-! ### Evictions -/

section
variable {die : Fin 12} {unit : Fin 13} {way : Fin 16} (hstop : ¬ s.stopped) (hy : s.cline die (36 + unit.val) set way = y) (hv : y.valid = true)
  (hbusy : s.lineBusy die y.line = false) (hfree : s.wbFree die (sliceOf y.line) = true) (hecc : s.dieEcc die y.line = false)
include hstop hy hv hbusy hfree hecc

theorem l3Eviction_eq : exec (.l3Eviction die unit set way) s =
    if unit.val < 9 then .next (s.evictL2 die unit set way) else .next (s.evictL3 die (unit.val - 9) set way) := by
  subst hy
  have hgo : ¬ (s.stopped ∨ (s.cline die (36 + unit.val) set way).valid = false ∨
      s.lineBusy die (s.cline die (36 + unit.val) set way).line = true ∨
      s.wbFree die (sliceOf (s.cline die (36 + unit.val) set way).line) = false) := by
    rw [hv, hbusy, hfree]
    rintro (h | h | h | h)
    · exact hstop h
    · cases h
    · cases h
    · cases h
  have hecc' : ¬ s.dieEcc die (s.cline die (36 + unit.val) set way).line = true := by
    rw [hecc]
    exact Bool.false_ne_true
  exact (if_neg hgo).trans (if_neg hecc')

theorem l3Eviction_slice (hunit : 9 ≤ unit.val) : Completes (.l3Eviction die unit set way) s (fun t =>
    t.cline die (36 + unit.val) set way = default ∧ SameRegsBut [] s t ∧ (y.st ≠ 2 → t.out = s.out ∧ t.slices = s.slices) ∧
    (y.st = 2 → SliceWrites die y.line false y.data y.poison (s.wayOwner die (unit.val - 9) way) s t)) := by
  have hu : 36 + unit.val = uL3 (unit.val - 9) := by unfold uL3; omega
  have heq := (l3Eviction_eq hstop hy hv hbusy hfree hecc).trans (if_neg (by omega))
  rw [hu] at hy
  refine ⟨_, heq, ?_, (s.evictL3_heals die (unit.val - 9) set way).sameRegs [], fun h2 => ?_, fun h2 => State.evictL3_modified hy hv h2⟩
  · rw [hu]
    exact s.evictL3_empty die (unit.val - 9) set way
  · rw [State.evictL3_clean (by rw [hy]; exact h2)]
    exact ⟨rfl, rfl⟩

theorem l3Eviction_cluster (hunit : unit.val < 9) (hf : s.findWay die (36 + unit.val) y.line = some way.val)
    (hset : Machine.setOf (36 + unit.val) y.line = set) (h0 : s.findWay die (uL1d (2 * unit.val)) y.line = none)
    (h1 : s.findWay die (uL1d (2 * unit.val + 1)) y.line = none) : Completes (.l3Eviction die unit set way) s (fun t =>
      t.cline die (36 + unit.val) set way = default ∧ SameRegsBut [] s t ∧ (y.st ≠ 2 → t.out = s.out ∧ t.slices = s.slices) ∧
      (y.st = 2 → s.policy die (s.clusterSealed die unit) y.line = 3 →
        SliceWrites die y.line false y.data y.poison (s.clusterSealed die unit) s t)) := by
  have heq := (l3Eviction_eq hstop hy hv hbusy hfree hecc).trans (if_pos hunit)
  have hnone : ∀ k, k ∈ [2 * unit.val, 2 * unit.val + 1] → s.copyIn die (uL1d k) y.line = none := fun k hk => by
    simp only [List.mem_cons, List.not_mem_nil, or_false] at hk
    rcases hk with rfl | rfl
    · exact State.copyIn_eq_none_iff.mpr h0
    · exact State.copyIn_eq_none_iff.mpr h1
  have honly := s.dropCluster_cachesOnly die unit y.line
  have hevict := State.evictL2_eq (c := unit.val) hy hnone
  refine ⟨_, heq, State.evictL2_empty die.isLt hunit hy hnone hf hset, (s.evictL2_heals die unit set way).sameRegs [], fun h2 => ?_,
    fun h2 hpol => ?_⟩
  · rw [hevict, if_neg fun h => h2 h.2]
    exact ⟨honly.out, honly.slices⟩
  · rw [hevict, if_pos ⟨hv, h2⟩, honly.clusterSealed, if_pos ((honly.policy _ _ _).trans hpol)]
    exact honly.sliceWb _ _ _ _ _ _

end

/-! ### The obligation -/

/-- Settles O25: every access either ends before its caches (a fault, a buffer that leaves first, a corrected word) or reaches them in a
state that differs in its hart's mode and its prefetchers alone, where the copies that the die holds decide its outcome. -/
theorem cachesServeAccesses : Obligations.CachesServeAccesses := by
  unfold Obligations.CachesServeAccesses
  refine ⟨fun a e s hstop hok hfault => ⟨_, ringBroadcast_fault hstop hok hfault, rfl, rfl, rfl, rfl, fun _ _ => rfl⟩,
    fun a s hstop hok hfault hj h1 h2 => ⟨s.wcDrain_emptied a.h, ?_⟩,
    fun a k s hstop hok hfault hk hw => ringBroadcast_corrects hstop hok hfault hk hw,
    fun a b x s hr hk hx => hr.completes fun m hh => ?_, fun a b w x s hr hk hx hp => hr.completes fun m hh => ?_,
    fun a b d s hr hk hres => hr.sc_fails hk hres, fun a b s hr hk hn hbusy hfree => ?_,
    fun a b s hr hk hn hbusy hroom hfree => ?_, fun a b d s hr hk hn hbusy hpol => hr.store_wna hk hn hbusy hpol,
    fun a d w s hstop hok hfault hk hwc hj hn hmarks hmask => ringBroadcast_joins hstop hok hfault hk hwc hj hn hmarks hmask,
    fun a b x y s hr hk hx h2 hy h1 hbusy hpol => hr.store_l1 hk hx h2 hy h1 hbusy hpol,
    fun a b x s hr hk hx h1 hbusy honly hroom => hr.store_l2 hk hx h1 hbusy honly hroom,
    fun die unit idx x l s hstop hx hkey hseen hen hdie hruns hin hahead hl hpage hhbm hoff hmarks hn hbusy hfree =>
      ⟨_, prefetchIssue_eq hstop hx hkey hseen hen hruns hin hahead (Stream.nextLine_eq hl hpage) hhbm hoff hmarks,
        State.ahead_asks hdie hn hbusy hfree⟩,
    fun die unit set way x s hstop hx hv hbusy hfree hecc hunit => l3Eviction_slice hstop hx hv hbusy hfree hecc hunit,
    fun die unit set way x s hstop hx hv hbusy hfree hecc hunit hf hset h0 h1 =>
      l3Eviction_cluster hstop hx hv hbusy hfree hecc hunit hf hset h0 h1⟩
  · exact ⟨_, ringBroadcast_hart hstop hok hfault,
      (ringBroadcast_after_wcDrain hstop hok hfault hj h1 h2).trans (ringBroadcast_hart hstop hok hfault)⟩
  · exact State.load_ends (s := s.atCaches a.h a.mode m) (a := s.accessTagged a) hh hk hx
  · obtain ⟨hanswer, hregs, hcopy⟩ := State.lr_reserves (s := s.atCaches a.h a.mode m) (a := s.accessTagged a) hh hk hx hp
    exact ⟨hanswer, fun _ _ => State.rd_congr hregs, hcopy⟩
  · have hb : b = s.accessTagged a := hr.1
    subst hb
    refine hr.completes fun m _ => ?_
    have hkind : a.kind = .load ∨ a.kind = .fetch ∨ (∃ w, a.kind = .lr w) ∨ a.kind = .prefL1 ∨ a.kind = .prefL2 := by
      rcases hk with h | h | h | h
      · exact .inl h
      · exact .inr (.inl h)
      · exact .inr (.inr (.inl ⟨_, h⟩))
      · exact .inr (.inr (.inl ⟨_, h⟩))
    rw [NoCopy.coreRead (s := s.atCaches a.h a.mode m) (a := s.accessTagged a) hn hbusy hkind]
    obtain ⟨hasks, hcache, hregs, -⟩ := State.sliceOpen_asks (s := s.atCaches a.h a.mode m) (a := s.accessTagged a) hfree .isD .rdS
    exact ⟨hasks, hcache, fun _ _ => State.rd_congr hregs⟩
  · have hb : b = s.accessTagged a := hr.1
    subst hb
    refine hr.completes fun m _ => ?_
    obtain ⟨hasks, hcache, hregs⟩ := NoCopy.coreStore_asks (s := s.atCaches a.h a.mode m) (a := s.accessTagged a) hn hbusy hroom hk hfree
    exact ⟨hasks, hcache, fun _ _ => State.rd_congr hregs⟩

end Sys2Proof.Machine

namespace Sys2Proof.Machine
/-! # Requests at their home (R172 to R175, R182): what a lookup notes -/

variable {s t u : State} {h l w n : Nat} {k : CohKind} {m : CohMsg}

theorem xor_lt_64 {a b : Nat} (ha : a < 64) (hb : b < 64) : a ^^^ b < 64 := Nat.xor_lt_two_pow (n := 6) ha hb

theorem bits_lt_64 (v lo : Nat) : bits v (lo + 5) lo < 64 := by
  have hw : lo + 5 + 1 - lo = 6 := by omega
  unfold bits
  rw [hw]
  exact Nat.mod_lt _ (by decide)

/-- There are 64 controllers. -/
theorem State.mcOf_lt (s : State) (l : Nat) : s.mcOf l < 64 := by
  unfold State.mcOf State.placeOf Machine.placeOf
  dsimp only
  split
  · exact xor_lt_64 (xor_lt_64 (xor_lt_64 (bits_lt_64 _ 12) (bits_lt_64 _ 18)) (bits_lt_64 _ 24)) (bits_lt_64 _ 30)
  · split
    · exact bits_lt_64 _ 11
    · exact bits_lt_64 _ 29

/-- There are 32 homes. -/
theorem State.homeOf_lt (s : State) (l : Nat) : s.homeOf l < 32 := by
  have := s.mcOf_lt l
  unfold State.homeOf
  omega

theorem not_recordKey_of_le {j : Nat} (hj : 0xC0000 ≤ j) : ¬ recordKey j := fun hr => absurd hr.2 (by omega)

/-! ### The filter as a lookup finds it -/

theorem State.sfEnt_congr (hsf : t.sf = s.sf) (h set w : Nat) : t.sfEnt h set w = s.sfEnt h set w := congrArg (SMap.get · (sfKey h set w)) hsf

theorem State.sfFind_congr (hsf : t.sf = s.sf) (h l : Nat) : t.sfFind h l = s.sfFind h l := by
  unfold State.sfFind
  simp only [State.sfEnt_congr hsf]

theorem State.sfState_congr (hsf : t.sf = s.sf) (hca : t.get (L.HA_STATUS.CA h) = s.get (L.HA_STATUS.CA h)) (l : Nat) :
    t.sfState h l = s.sfState h l := by
  unfold State.sfState
  simp only [State.sfFind_congr hsf, State.sfEnt_congr hsf, hca]

/-! ### What a lookup notes -/

/-- A lookup has noted what it met: records, counts, marks and the order of replacement alone may have changed. -/
structure Noted (s t : State) : Prop where
  out : t.out = s.out
  mem : t.mem = s.mem
  homes : t.homes = s.homes
  sf : t.sf = s.sf
  die : t.die = s.die
  mc : t.mc = s.mc
  xeKeys : t.xeKeys = s.xeKeys
  rd : ∀ {j}, ¬ recordKey j → t.rd j = s.rd j

namespace Noted

theorem of_keeps {F : List Kind} (hk : Keeps F s t) (rd : ∀ {j}, ¬ recordKey j → t.rd j = s.rd j)
    (hF : ∀ k, k ∈ [Kind.out, .mem, .homes, .sf, .die, .mc, .xeKeys] → k ∉ F) : Noted s t where
  out := hk.frame .out (hF _ (by decide))
  mem := hk.frame .mem (hF _ (by decide))
  homes := hk.frame .homes (hF _ (by decide))
  sf := hk.frame .sf (hF _ (by decide))
  die := hk.frame .die (hF _ (by decide))
  mc := hk.frame .mc (hF _ (by decide))
  xeKeys := hk.frame .xeKeys (hF _ (by decide))
  rd := rd

theorem refl (s : State) : Noted s s := ⟨rfl, rfl, rfl, rfl, rfl, rfl, rfl, fun _ => rfl⟩

theorem trans (a : Noted s t) (b : Noted t u) : Noted s u where
  out := b.out.trans a.out
  mem := b.mem.trans a.mem
  homes := b.homes.trans a.homes
  sf := b.sf.trans a.sf
  die := b.die.trans a.die
  mc := b.mc.trans a.mc
  xeKeys := b.xeKeys.trans a.xeKeys
  rd hj := (b.rd hj).trans (a.rd hj)

theorem when {p : Prop} [Decidable p] {f : State → State} (hf : Noted s (f s)) : Noted s (s.when p f) := by
  unfold State.when
  split
  · exact hf
  · exact .refl s

theorem pmc (s : State) (i j e n : Nat) (b : Bool) (v : Option Nat) : Noted s (s.pmc i j e n b v) :=
  .of_keeps (F := [.regs, .resp, .newtIrq, .fieldOps, .files, .aplic, .paused, .caps, .capBusy])
    (State.pmc_keeps (by decide) (by decide) (by decide) (by decide) (by decide) (by decide) (by decide) (by decide) (by decide)
      .refl i j e n b v) (fun hj => State.rd_pmc hj i j e n b v) (by decide)

theorem homeCorrect (s : State) (hh : h < 32) (l : Nat) : Noted s (s.homeCorrect h l) :=
  .of_keeps (F := [.regs, .newtIrq, .fieldOps, .paused, .ecc, .caps, .capBusy])
    (State.homeCorrect_keeps (by decide) (by decide) (by decide) (by decide) (by decide) (by decide) (by decide) .refl h l)
    (fun hj => by
      unfold State.homeCorrect
      exact State.rd_forAll (by exact fun x p => State.rd_logRec hj (by unfold haLog; omega) _ _ _ _ _) _) (by decide)

theorem sfTouch (s : State) (h l : Nat) : Noted s (s.sfTouch h l) :=
  .of_keeps (F := [.sfPlru]) (State.sfTouch_keeps (by decide) .refl h l)
    (fun {j} _ => by unfold State.sfTouch; split <;> rfl) (by decide)

theorem get (a : Noted s t) {c : Loc} (hc : ¬ recordKey c.key) : t.get c = s.get c := State.get_congr (a.rd hc)

theorem mcOf (a : Noted s t) (l : Nat) : t.mcOf l = s.mcOf l :=
  congrArg (fun o => (Machine.placeOf o l).mc) (a.get (by unfold recordKey; decide))

theorem homeOf (a : Noted s t) (l : Nat) : t.homeOf l = s.homeOf l := congrArg (· / 2) (a.mcOf l)

theorem home (a : Noted s t) (h : Nat) : t.home h = s.home h := congrArg (SMap.get · h) a.homes

theorem txnOn (a : Noted s t) (h l : Nat) : t.txnOn h l = s.txnOn h l :=
  congrArg (fun x : Home => x.txns.find? (fun y : HomeTxn => y.line == l)) (a.home h)

theorem entryFor (a : Noted s t) (h : Nat) (k : CohKind) (m : CohMsg) : t.entryFor h k m = s.entryFor h k m := by
  unfold State.entryFor
  rw [a.home]

theorem caching (a : Noted s t) (h : Nat) : t.get (L.HA_STATUS.CA h) = s.get (L.HA_STATUS.CA h) :=
  a.get (not_recordKey_of_le (Nat.le_add_right_of_le (by decide)))

theorem sfState (a : Noted s t) (h l : Nat) : t.sfState h l = s.sfState h l := State.sfState_congr a.sf (a.caching h) l

theorem carrier (a : Noted s t) (d sl : Nat) : t.carrier d sl = s.carrier d sl := by
  have hlink : ∀ n, t.get (L.DL_STATUS.STATE n) = s.get (L.DL_STATUS.STATE n) := fun n => a.get (not_recordKey_of_le (Nat.le_add_right_of_le (by decide)))
  unfold State.carrier
  simp only [hlink]

theorem nakCode (a : Noted s t) (h : Nat) (k : CohKind) (m : CohMsg) : t.nakCode h k m = s.nakCode h k m := by
  unfold State.nakCode State.agentMay State.isCaching
  simp only [a.caching, show t.dieSt m.src = s.dieSt m.src from congrArg (SMap.get · m.src) a.die]

theorem writeRoom (a : Noted s t) (l : Nat) : t.writeRoom l = s.writeRoom l := by
  have hmode : ∀ n, t.mcMode n = s.mcMode n := fun n => a.get (not_recordKey_of_le (Nat.le_add_right_of_le (by decide)))
  unfold State.writeRoom State.mcSt
  simp only [a.mcOf, hmode, a.mc]

theorem isSkelura (a : Noted s t) (d : Nat) : t.isSkelura d = s.isSkelura d := by
  unfold State.isSkelura
  rw [show t.dieSt d = s.dieSt d from congrArg (SMap.get · d) a.die]

end Noted

/-! ### The transactions of a home -/

theorem State.home_setHome (s : State) (h : Nat) (x : Home) : (s.setHome h x).home h = x := SMap.get_set_same s.homes h x

/-- The open transaction on a line, of the home's list. -/
theorem State.txnOn_of_home {x : Home} (hx : s.home h = x) (l : Nat) : s.txnOn h l = x.txns.find? (fun y => y.line == l) := by
  unfold State.txnOn
  rw [hx]

theorem State.txnOn_congr (hh : t.homes = s.homes) (h l : Nat) : t.txnOn h l = s.txnOn h l :=
  State.txnOn_of_home (congrArg (SMap.get · h) hh) l

theorem State.txnOn_setHome (s : State) (h l : Nat) (x : Home) : (s.setHome h x).txnOn h l = x.txns.find? (fun y => y.line == l) :=
  State.txnOn_of_home (s.home_setHome h x) l

theorem State.txnOn_line {y : HomeTxn} (hy : s.txnOn h l = some y) : y.line = l := by
  have := List.find?_some hy
  exact beq_iff_eq.mp this

/-- A change of a transaction that leaves its line alone. -/
theorem State.txnOn_changeTxn {f : HomeTxn → HomeTxn} (hf : ∀ y, (f y).line = y.line) (s : State) (h l l' : Nat) :
    (s.changeTxn h l' f).txnOn h l = (s.txnOn h l).map (fun y => if y.line = l' then f y else y) := by
  have hline : ∀ y : HomeTxn, (if y.line = l' then f y else y).line = y.line := fun y => by split <;> simp [hf]
  refine (s.txnOn_setHome h l _).trans ?_
  rw [List.find?_map]
  simp only [Function.comp_def, hline]
  rfl

/-! ### What goes on at a home beside a transaction -/

/-- The home `h` may have sent more, changed its occupancy and its filter, opened back-invalidations, and noted that a reply waits for
a way of the filter. -/
structure HomeGoesOn (h : Nat) (s t : State) : Prop where
  out : s.out <+: t.out
  mem : t.mem = s.mem
  regs : SameRegsButRecords [R.HA_STATUS h, R.HA_SF_STAT h, R.HA_SF_CNT h] s t
  opened : ∀ {l y}, s.txnOn h l = some y → ∃ w, t.txnOn h l = some { y with allocWait := w }

namespace HomeGoesOn

/-- The transactions stand. -/
theorem of_homes (out : s.out <+: t.out) (mem : t.mem = s.mem) (homes : t.homes = s.homes)
    (regs : SameRegsButRecords [R.HA_STATUS h, R.HA_SF_STAT h, R.HA_SF_CNT h] s t) : HomeGoesOn h s t :=
  ⟨out, mem, regs, fun {l y} hy => ⟨y.allocWait, (State.txnOn_congr homes h l).trans hy⟩⟩

theorem refl (s : State) : HomeGoesOn h s s := of_homes (List.prefix_refl _) rfl rfl (fun _ _ _ => rfl)

theorem trans (a : HomeGoesOn h s t) (b : HomeGoesOn h t u) : HomeGoesOn h s u where
  out := a.out.trans b.out
  mem := b.mem.trans a.mem
  regs j hj hr := (b.regs j hj hr).trans (a.regs j hj hr)
  opened hy := by
    obtain ⟨v, hv⟩ := a.opened hy
    obtain ⟨w, hw⟩ := b.opened hv
    exact ⟨w, hw⟩

theorem of_noted (a : Noted s t) (h : Nat) : HomeGoesOn h s t := of_homes (by rw [a.out]) a.mem a.homes (fun _ _ hr => a.rd hr)

/-- A register of the home's occupancy or of its filter changes. -/
theorem put (s : State) {c : Loc} (hc : c.key ∈ [R.HA_STATUS h, R.HA_SF_STAT h, R.HA_SF_CNT h]) (v : Nat) : HomeGoesOn h s (s.put c v) :=
  of_homes (List.prefix_refl _) rfl rfl (fun _ hj _ => State.rd_put_ne _ _ (fun e => hj (e ▸ hc)))

theorem inc (s : State) {c : Loc} (hc : c.key ∈ [R.HA_STATUS h, R.HA_SF_STAT h, R.HA_SF_CNT h]) : HomeGoesOn h s (s.inc c) := put s hc _

theorem homeSync (s : State) (h : Nat) : HomeGoesOn h s (s.homeSync h) :=
  (put s (by simp) _).trans (put _ (by simp) _)

theorem setSf (s : State) (h set w : Nat) (x : SfEnt) : HomeGoesOn h s (s.setSf h set w x) :=
  (put s (c := L.HA_SF_STAT.VALID h) (by simp) _).trans (of_homes (List.prefix_refl _) rfl rfl (fun _ _ _ => rfl))

theorem sfTouchWay (s : State) (h set w : Nat) : HomeGoesOn h s (s.sfTouchWay h set w) :=
  of_homes (List.prefix_refl _) rfl rfl (fun _ _ _ => rfl)

theorem setHome (s : State) (h : Nat) (x : Home)
    (hx : ∀ l y, s.txnOn h l = some y → ∃ w, x.txns.find? (fun y => y.line == l) = some { y with allocWait := w }) :
    HomeGoesOn h s (s.setHome h x) :=
  ⟨List.prefix_refl _, rfl, fun _ _ _ => rfl, fun {l y} hy => (hx l y hy).imp fun _ hw => (s.txnOn_setHome h l x).trans hw⟩

theorem homeSeq (s : State) (h : Nat) : HomeGoesOn h s (s.homeSeq h).1 := setHome s h _ fun _ y hy => ⟨y.allocWait, hy⟩

/-- A further transaction stands behind those that are open. -/
theorem appendTxn (s : State) (h : Nat) (y : HomeTxn) : HomeGoesOn h s (s.setHome h { s.home h with txns := (s.home h).txns ++ [y] }) :=
  setHome s h _ fun l x hx => ⟨x.allocWait, by
    have hx : (s.home h).txns.find? (fun y => y.line == l) = some x := hx
    rw [List.find?_append, hx]
    rfl⟩

end HomeGoesOn

/-! ### Snoops -/

theorem State.forAll_send_out {α : Type} (s : State) (as : List α) (g : State → α → Out) (hg : ∀ x o, g (State.send x o) = g x) :
    (s.forAll as (fun x a => x.send (g x a))).out = s.out ++ as.map (g s) := by
  unfold State.forAll
  induction as generalizing s with
  | nil => exact (List.append_nil _).symm
  | cons a as ih => rw [List.foldl_cons, ih, hg, State.send_out, List.append_assoc, List.map_cons, List.singleton_append]

theorem Noted.snoopsOf (a : Noted s t) (h : Nat) (k : CohKind) (mask : Nat) (m : CohMsg) (disc : Bool) :
    snoopsOf t h k mask m disc = snoopsOf s h k mask m disc := by
  simp only [Machine.snoopsOf, a.carrier]

theorem snoopsOf_zero (s : State) (h : Nat) (k : CohKind) (m : CohMsg) (disc : Bool) : snoopsOf s h k 0 m disc = [] := by
  have : onesBelow 12 0 = [] := by decide
  simp only [snoopsOf, this, List.map_nil]

theorem State.sendSnoop_out (s : State) (h : Nat) (k : CohKind) (mask : Nat) (m : CohMsg) (disc : Bool) :
    (s.sendSnoop h k mask m disc).out = s.out ++ snoopsOf s h k mask m disc := by
  unfold State.sendSnoop
  split
  · next h0 => rw [h0, snoopsOf_zero, List.append_nil]
  · have hn : Noted s (s.pmc uHA h 3 1 m.sealed m.vi) := .pmc ..
    refine (State.forAll_send_out _ _ (fun x d => .snoop k d ((x.carrier d (sliceOf m.line)).getD (4 * d + sliceOf m.line))
      { homeMsg h m with flag := disc }) (by intros; rfl)).trans ?_
    rw [hn.out]
    exact congrArg (s.out ++ ·) (hn.snoopsOf h k mask m disc)

theorem State.sendSnoop_mcOf (s : State) (h : Nat) (k : CohKind) (mask : Nat) (m : CohMsg) (disc : Bool) (l : Nat) :
    (s.sendSnoop h k mask m disc).mcOf l = s.mcOf l := by
  unfold State.sendSnoop
  split
  · rfl
  · exact (State.forAll_kept (State.mcOf · l) (by exact fun _ _ => rfl) _).trans ((Noted.pmc ..).mcOf l)

theorem HomeGoesOn.sendSnoop (s : State) (h h' : Nat) (k : CohKind) (mask : Nat) (m : CohMsg) (disc : Bool) :
    HomeGoesOn h s (s.sendSnoop h' k mask m disc) := by
  unfold State.sendSnoop
  split
  · exact .refl s
  · exact (HomeGoesOn.of_noted (Noted.pmc ..) h).trans
      (State.forAll_keepsProp (P := HomeGoesOn h _) (fun x d _ hx => hx.trans (.of_homes (List.prefix_append _ _) rfl rfl (fun _ _ _ => rfl)))
        (.refl _))

/-! ### A way of the filter -/

/-- The line of a victim moves to the back-invalidation buffer, and its dies are snooped (R179). -/
def State.invalidatesBack (s : State) (h : Nat) (m : CohMsg) (line pres : Nat) : State :=
  let s := (s.inc (L.HA_SF_CNT.BI h)).pmc uHA h 5 1 m.sealed m.vi
  let q := s.homeSeq h
  let s := q.1
  let bm : CohMsg := { sliceMsg 0 line true false with src := 0x40 + h, txn := q.2 % 2 ^ 16 }
  let x := s.home h
  let s := s.setHome h { x with txns := x.txns ++ [newTxn true .snpI bm pres .snpI s.up false] }
  (s.sendSnoop h .snpI pres bm false).homeSync h

theorem HomeGoesOn.invalidatesBack (s : State) (h : Nat) (m : CohMsg) (line pres : Nat) :
    HomeGoesOn h s (s.invalidatesBack h m line pres) := by
  unfold State.invalidatesBack
  dsimp only
  refine .trans ?_ (.homeSync _ h)
  refine .trans ?_ (.sendSnoop _ h h _ _ _ _)
  refine .trans ?_ (.appendTxn _ h _)
  refine .trans ?_ (.homeSeq _ h)
  refine .trans ?_ (.of_noted (.pmc _ _ _ _ _ _ _) h)
  exact .inc s (by simp)

theorem HomeGoesOn.sfAlloc (s : State) (h : Nat) (m : CohMsg) : HomeGoesOn h s (s.sfAlloc h m).1 := by
  have htake : ∀ w, HomeGoesOn h s ((s.setSf h (sfSet m.line) w ⟨true, m.line, 0, 0⟩).sfTouchWay h (sfSet m.line) w) := fun w =>
    (HomeGoesOn.setSf s h _ w _).trans (.sfTouchWay _ h _ w)
  unfold State.sfAlloc
  dsimp only
  split
  · exact .refl s
  · split
    · exact .refl s
    · next w _ =>
      split
      · split
        · exact .refl s
        · exact (htake w).trans (HomeGoesOn.invalidatesBack _ h m _ _)
      · exact htake w

theorem HomeGoesOn.waitsForWay (s : State) (h l : Nat) : HomeGoesOn h s (s.changeTxn h l (fun y => { y with allocWait := true })) := by
  refine ⟨List.prefix_refl _, rfl, fun _ _ _ => rfl, fun {l' y} hy => ?_⟩
  have hch := s.txnOn_changeTxn (f := fun y => { y with allocWait := true }) (fun _ => rfl) h l' l
  rw [hy, Option.map_some] at hch
  by_cases hl : y.line = l
  · exact ⟨true, by rw [hch, if_pos hl]⟩
  · exact ⟨y.allocWait, by rw [hch, if_neg hl]⟩

/-! # A request opens its transaction (R172, R173, Table 7.6) -/

variable {st : Nat × Nat}

/-- UPG is granted without data: its sender is the owner of the line, or one of its sharers. -/
def homeGrants (k : CohKind) (m : CohMsg) (st : Nat × Nat) : Bool :=
  k == .upg && (st.1 == 2 && st.2 == 1 <<< m.src || st.1 == 1 && st.2.testBit m.src)

/-- The dies that a request has snooped, the snoop, and whether memory is read (Table 7.6). -/
def homePlan (k : CohKind) (m : CohMsg) (st : Nat × Nat) : Nat × CohKind × Bool :=
  match k with
  | .rdS => (if st.1 = 2 then clearBit st.2 m.src else 0, .snpS, true)
  | .rdX | .upg => (clearBit st.2 m.src, .snpI, !homeGrants k m st)
  | .cmo => if m.op = 0 then (if st.1 = 2 then st.2 else 0, .snpC, false) else (st.2, .snpI, false)
  | .ncRd => (if st.1 = 2 then st.2 else 0, .snpC, true)
  | _ => (st.2, .snpI, false)

/-- The snoops of a CMO that discards carry its mark. -/
abbrev homeDiscards (k : CohKind) (m : CohMsg) : Bool := k == .cmo && m.op == 2 && m.flag

/-- The class of a request's memory read. -/
abbrev readClass (k : CohKind) (m : CohMsg) : Nat := if m.reserved then 0 else if k == .ncRd && 12 ≤ m.src then 2 else 1

/-- The transaction that a request opens. -/
def State.openedTxn (s : State) (h : Nat) (k : CohKind) (m : CohMsg) (st : Nat × Nat) : HomeTxn :=
  { newTxn false k m (homePlan k m st).1 (homePlan k m st).2.1 s.up (homePlan k m st).2.2 with
    grant := homeGrants k m st, readId := (s.home h).seq }

/-- The lookup of a request that its home opens, and its counts. -/
def State.arrives (s : State) (h : Nat) (m : CohMsg) : State :=
  ((s.sfTouch h m.line).pmc uHA h 1 1 m.sealed m.vi).when (m.reserved = true) (fun s => s.pmc uHA h 2 1 m.sealed m.vi)

/-- The request's transaction enters the home. -/
def State.enters (s : State) (h : Nat) (k : CohKind) (m : CohMsg) (st : Nat × Nat) : State :=
  (s.homeSeq h).1.setHome h { (s.homeSeq h).1.home h with txns := ((s.homeSeq h).1.home h).txns ++ [s.openedTxn h k m st] }

/-- The snoops of a request leave, and its memory read, under number `id`. -/
def State.asks (s : State) (h : Nat) (k : CohKind) (m : CohMsg) (st : Nat × Nat) (id : Nat) : State :=
  let s := s.sendSnoop h (homePlan k m st).2.1 (homePlan k m st).1 m (homeDiscards k m)
  if (homePlan k m st).2.2 then s.send (.mcRead (s.mcOf m.line) (readClass k m) m.line id) else s

/-- A line in state I is given its way of the filter, or waits for one. -/
def State.takesWay (s : State) (h : Nat) (k : CohKind) (m : CohMsg) (st : Nat × Nat) : State :=
  if (k == .rdS || k == .rdX || k == .upg) && st.1 == 0 then
    if (s.sfAlloc h m).2 then (s.sfAlloc h m).1 else (s.sfAlloc h m).1.changeTxn h m.line (fun t => { t with allocWait := true })
  else s

theorem State.openTxn_eq (s : State) (h : Nat) (k : CohKind) (m : CohMsg) : s.openTxn h k m =
    (((((s.arrives h m).enters h k m ((s.arrives h m).sfState h m.line)).asks h k m ((s.arrives h m).sfState h m.line)
      ((s.arrives h m).home h).seq).takesWay h k m ((s.arrives h m).sfState h m.line)).homeSync h).tryReply h m.line := rfl

theorem Noted.arrives (s : State) (h : Nat) (m : CohMsg) : Noted s (s.arrives h m) :=
  ((Noted.sfTouch s h m.line).trans (.pmc ..)).trans (.when (.pmc ..))

theorem HomeGoesOn.enters (s : State) (h : Nat) (k : CohKind) (m : CohMsg) (st : Nat × Nat) : HomeGoesOn h s (s.enters h k m st) :=
  (HomeGoesOn.homeSeq s h).trans (.appendTxn _ h _)

/-- The class of the memory read, if one is planned. -/
def homeRead (k : CohKind) (m : CohMsg) (st : Nat × Nat) : Option Nat := if (homePlan k m st).2.2 then some (readClass k m) else none

theorem State.asks_out (s : State) (h : Nat) (k : CohKind) (m : CohMsg) (st : Nat × Nat) (id : Nat) : (s.asks h k m st id).out =
    s.out ++ snoopsOf s h (homePlan k m st).2.1 (homePlan k m st).1 m (homeDiscards k m) ++
      (homeRead k m st).toList.map (fun c => Out.mcRead (s.mcOf m.line) c m.line id) := by
  have hsnoop := s.sendSnoop_out h (homePlan k m st).2.1 (homePlan k m st).1 m (homeDiscards k m)
  have hmc := s.sendSnoop_mcOf h (homePlan k m st).2.1 (homePlan k m st).1 m (homeDiscards k m) m.line
  unfold State.asks homeRead
  dsimp only
  split
  · rw [State.send_out, hsnoop, hmc]
    rfl
  · rw [hsnoop]
    exact (List.append_nil _).symm

theorem HomeGoesOn.send (s : State) (h : Nat) (o : Out) : HomeGoesOn h s (s.send o) :=
  of_homes (List.prefix_append _ _) rfl rfl (fun _ _ _ => rfl)

theorem HomeGoesOn.asks (s : State) (h : Nat) (k : CohKind) (m : CohMsg) (st : Nat × Nat) (id : Nat) : HomeGoesOn h s (s.asks h k m st id) := by
  have hsnoop := HomeGoesOn.sendSnoop s h h (homePlan k m st).2.1 (homePlan k m st).1 m (homeDiscards k m)
  unfold State.asks
  dsimp only
  split
  · exact hsnoop.trans (.send _ h _)
  · exact hsnoop

theorem HomeGoesOn.takesWay (s : State) (h : Nat) (k : CohKind) (m : CohMsg) (st : Nat × Nat) : HomeGoesOn h s (s.takesWay h k m st) := by
  unfold State.takesWay
  split
  · split
    · exact .sfAlloc s h m
    · exact (HomeGoesOn.sfAlloc s h m).trans (.waitsForWay _ h m.line)
  · exact .refl s

theorem State.enters_txnOn (hnone : s.txnOn h m.line = none) (k : CohKind) (st : Nat × Nat) :
    (s.enters h k m st).txnOn h m.line = some (s.openedTxn h k m st) := by
  refine ((s.homeSeq h).1.txnOn_setHome h m.line _).trans ?_
  have hnone' : ((s.homeSeq h).1.home h).txns.find? (fun y => y.line == m.line) = none :=
    ((State.txnOn_of_home (s.home_setHome h _) m.line)).trans hnone
  rw [List.find?_append, hnone']
  simp [State.openedTxn, newTxn]

section
variable (s : State) (h : Nat) (k : CohKind) (m : CohMsg) (st : Nat × Nat)

theorem State.enters_out : (s.enters h k m st).out = s.out := rfl

theorem State.enters_mcOf (l : Nat) : (s.enters h k m st).mcOf l = s.mcOf l := rfl

theorem State.enters_snoopsOf (k' : CohKind) (mask : Nat) (disc : Bool) :
    snoopsOf (s.enters h k m st) h k' mask m disc = snoopsOf s h k' mask m disc := rfl

end

/-- A transaction that waits for a snoop's answer or for data does not reply. -/
theorem State.tryReply_of_open {y : HomeTxn} (hy : s.txnOn h l = some y) (hw : y.snoops ≠ 0 ∨ y.needMem = true ∧ y.mem = none ∧ y.data = none) :
    s.tryReply h l = s := by
  unfold State.tryReply
  rw [hy]
  exact if_pos (.inr (hw.imp id fun hmem => .inr (.inl hmem)))

/-- A request opens its transaction, and its home replies later. -/
theorem State.openTxn_opened (hnone : s.txnOn h m.line = none) (hst : s.sfState h m.line = st)
    (hopen : (homePlan k m st).1 ≠ 0 ∨ (homePlan k m st).2.2 = true) :
    HomeOpened h m (homePlan k m st).1 (homePlan k m st).2.1 (homeDiscards k m) (homeRead k m st) s (s.openTxn h k m) := by
  have ha := Noted.arrives s h m
  rw [State.openTxn_eq, (ha.sfState h m.line).trans hst, ha.home h]
  generalize s.arrives h m = a at ha ⊢
  have hnew := State.enters_txnOn ((ha.txnOn h m.line).trans hnone) k st
  have henter := HomeGoesOn.enters a h k m st
  have hask := HomeGoesOn.asks (a.enters h k m st) h k m st (s.home h).seq
  have hout := (a.enters h k m st).asks_out h k m st (s.home h).seq
  generalize (a.enters h k m st).asks h k m st (s.home h).seq = b at hask hout ⊢
  have hgo := (HomeGoesOn.takesWay b h k m st).trans (.homeSync _ h)
  generalize (b.takesWay h k m st).homeSync h = c at hgo ⊢
  obtain ⟨w, hc⟩ := (hask.trans hgo).opened hnew
  rw [State.tryReply_of_open hc (hopen.imp id fun hmem => ⟨hmem, rfl, rfl⟩)]
  have hall := henter.trans (hask.trans hgo)
  refine ⟨?_, ?_, hall.mem.trans ha.mem, fun j hj hr => (hall.regs j hj hr).trans (ha.rd hr)⟩
  · rw [hc]
    unfold homeRead
    split <;> simp_all [State.openedTxn, newTxn]
  · have hsent : b.out = s.out ++ snoopsOf s h (homePlan k m st).2.1 (homePlan k m st).1 m (homeDiscards k m) ++
        (homeRead k m st).toList.map (fun c => Out.mcRead (s.mcOf m.line) c m.line (s.home h).seq) := by
      rw [hout, State.enters_out, State.enters_snoopsOf, State.enters_mcOf, ha.out, ha.snoopsOf, ha.mcOf]
    exact hsent ▸ hgo.out

/-! ### The way of a request to its transaction -/

theorem Noted.homeOpened (a : Noted s t) {mask : Nat} {sk : CohKind} {disc : Bool} {read : Option Nat}
    (ho : HomeOpened h m mask sk disc read t u) : HomeOpened h m mask sk disc read s u := by
  obtain ⟨htxn, hout, hmem, hregs⟩ := ho
  rw [a.out, a.snoopsOf, a.mcOf, a.home] at hout
  exact ⟨htxn, hout, hmem.trans a.mem, fun j hj hr => (hregs j hj hr).trans (a.rd hr)⟩

theorem HomeHears.homeRequest (hh : HomeHears s k m) :
    s.homeRequest k m = .next ((s.homeCorrect (s.homeOf m.line) m.line).homeTake (s.homeOf m.line) k m) := by
  obtain ⟨hstop, hecc, hnak⟩ := hh
  have hnak' := ((Noted.homeCorrect s (s.homeOf_lt m.line) m.line).nakCode (s.homeOf m.line) k m).trans hnak
  unfold State.homeRequest
  dsimp only
  rw [if_neg hstop, if_neg (by rw [hecc]; exact Bool.false_ne_true), hnak']

/-- A message that its home hears leaves the state that the home makes of it, whatever it has noted at its lookup. -/
theorem HomeHears.completes {P : State → Prop} {i : Instr} (hh : HomeHears s k m) (hi : exec i s = s.homeRequest k m)
    (hP : ∀ r, Noted s r → P (r.homeTake (s.homeOf m.line) k m)) : Completes i s P :=
  ⟨_, hi.trans hh.homeRequest, hP _ (.homeCorrect s (s.homeOf_lt m.line) m.line)⟩

/-- A request that the home can open opens its transaction. -/
theorem HomeOpens.homeTake (ho : HomeOpens s k m) (hk : k ≠ .wb) (a : Noted s t) :
    t.homeTake (s.homeOf m.line) k m = t.openTxn (s.homeOf m.line) k m := by
  obtain ⟨-, hnone, hwait, hentry⟩ := ho
  unfold State.homeTake
  rw [if_neg hk, if_neg]
  rw [a.txnOn, a.home, a.entryFor, hnone, hwait, hentry]
  simp

theorem HomeOpens.opens {i : Instr} (ho : HomeOpens s k m) (hk : k ≠ .wb) (hi : exec i s = s.homeRequest k m)
    (hst : s.sfState (s.homeOf m.line) m.line = st) (hopen : (homePlan k m st).1 ≠ 0 ∨ (homePlan k m st).2.2 = true) :
    Completes i s (fun t => HomeOpened (s.homeOf m.line) m (homePlan k m st).1 (homePlan k m st).2.1 (homeDiscards k m) (homeRead k m st) s t) :=
  ho.1.completes hi fun r a => by
    rw [ho.homeTake hk a]
    exact a.homeOpened (State.openTxn_opened ((a.txnOn _ _).trans ho.2.1) ((a.sfState _ _).trans hst) hopen)

section
variable (ho : s.sfState (s.homeOf m.line) m.line = st)
include ho

theorem HomeOpens.rdS (hx : HomeOpens s .rdS m) : Completes (.rdS m) s (fun t =>
    HomeOpened (s.homeOf m.line) m (if st.1 = 2 then clearBit st.2 m.src else 0) .snpS false (some (if m.reserved then 0 else 1)) s t) :=
  hx.opens (by decide) rfl ho (.inr rfl)

theorem HomeOpens.rdX (hx : HomeOpens s .rdX m) : Completes (.rdX m) s (fun t =>
    HomeOpened (s.homeOf m.line) m (clearBit st.2 m.src) .snpI false (some (if m.reserved then 0 else 1)) s t) :=
  hx.opens (by decide) rfl ho (.inr rfl)

/-- An upgrade that is not granted reads as RD_X does. -/
theorem HomeOpens.upg_reads (hx : HomeOpens s .upg m) (hg : homeGrants .upg m st = false) : Completes (.upg m) s (fun t =>
    HomeOpened (s.homeOf m.line) m (clearBit st.2 m.src) .snpI false (some (if m.reserved then 0 else 1)) s t) := by
  have hread : (homePlan .upg m st).2.2 = true := by simp [homePlan, hg]
  have := hx.opens (i := .upg m) (by decide) rfl ho (.inr hread)
  rwa [homeRead, if_pos hread] at this

theorem HomeOpens.upg_snoops (hx : HomeOpens s .upg m) (hg : homeGrants .upg m st = true) (hother : clearBit st.2 m.src ≠ 0) :
    Completes (.upg m) s (fun t => HomeOpened (s.homeOf m.line) m (clearBit st.2 m.src) .snpI false none s t) := by
  have hread : (homePlan .upg m st).2.2 = false := by simp [homePlan, hg]
  have := hx.opens (i := .upg m) (by decide) rfl ho (.inl hother)
  rwa [homeRead, if_neg (by rw [hread]; decide)] at this

theorem HomeOpens.cmo_snoops (hx : HomeOpens s .cmo m) (hdies : st.2 ≠ 0) (hown : m.op = 0 → st.1 = 2) : Completes (.cmo m) s (fun t =>
    HomeOpened (s.homeOf m.line) m st.2 (if m.op = 0 then .snpC else .snpI) (m.op == 2 && m.flag) none s t) := by
  have hplan : homePlan .cmo m st = (st.2, if m.op = 0 then .snpC else .snpI, false) := by
    unfold homePlan
    by_cases h0 : m.op = 0 <;> simp [h0, hown]
  have := hx.opens (i := .cmo m) (by decide) rfl ho (.inl (by rw [hplan]; exact hdies))
  simp only [homeRead, hplan] at this
  exact this

theorem HomeOpens.ncRd (hx : HomeOpens s .ncRd m) : Completes (.ncRd m) s (fun t =>
    HomeOpened (s.homeOf m.line) m (if st.1 = 2 then st.2 else 0) .snpC false
      (some (if m.reserved then 0 else if 12 ≤ m.src then 2 else 1)) s t) := by
  have hclass : readClass .ncRd m = if m.reserved then 0 else if 12 ≤ m.src then 2 else 1 := by simp [readClass]
  exact hclass ▸ hx.opens (i := .ncRd m) (by decide) rfl ho (.inr rfl)

theorem HomeOpens.ncWr (hx : HomeOpens s .ncWr m) (hdies : st.2 ≠ 0) : Completes (.ncWr m) s (fun t =>
    HomeOpened (s.homeOf m.line) m st.2 .snpI false none s t) :=
  hx.opens (by decide) rfl ho (.inl hdies)

end

/-! # A request that its home answers at once -/

variable {x y z : HomeTxn}

/-! ### The entry of a line in the filter -/

theorem State.sfFind_eq_some_iff : s.sfFind h l = some w ↔ ((s.sfEnt h (sfSet l) w).valid = true ∧ (s.sfEnt h (sfSet l) w).line = l) ∧ w < 16 ∧
    ∀ j, j < w → ¬ ((s.sfEnt h (sfSet l) j).valid = true ∧ (s.sfEnt h (sfSet l) j).line = l) := by
  unfold State.sfFind firstBelow
  simp only [List.find?_range_eq_some, Bool.and_eq_true, beq_iff_eq, List.mem_range, Bool.not_eq_true', Bool.and_eq_false_iff, beq_eq_false_iff_ne,
    not_and, ne_eq, Bool.not_eq_true, imp_iff_not_or]

theorem State.sfFind_of_sfState (hst : s.sfState h l = st) (h0 : st.1 ≠ 0) : ∃ w, s.sfFind h l = some w ∧
    (s.sfEnt h (sfSet l) w).pres &&& s.get (L.HA_STATUS.CA h) = st.2 := by
  unfold State.sfState at hst
  split at hst
  · next w hw =>
    dsimp only at hst
    split at hst
    · exact absurd (congrArg Prod.fst hst).symm h0
    · exact ⟨w, hw, congrArg Prod.snd hst⟩
  · exact absurd (congrArg Prod.fst hst).symm h0

theorem State.sfEnt_setSf_same (s : State) (h set w : Nat) (e : SfEnt) : (s.setSf h set w e).sfEnt h set w = e := SMap.get_set_same s.sf _ e

theorem State.sfEnt_setSf_ne (s : State) {h set v w : Nat} (e : SfEnt) (hv : v ≠ w) : (s.setSf h set w e).sfEnt h set v = s.sfEnt h set v :=
  SMap.get_set_ne s.sf e (by unfold sfKey; omega)

theorem State.caching_setSf (s : State) (h set w : Nat) (e : SfEnt) : (s.setSf h set w e).get (L.HA_STATUS.CA h) = s.get (L.HA_STATUS.CA h) :=
  State.get_put_key (l := L.HA_SF_STAT.VALID h) s _ (by dsimp only [R.HA_STATUS, R.HA_SF_STAT]; omega)

/-- The entry of a line takes a state with dies that are caching agents. -/
theorem State.sfState_sfPut {a p : Nat} (hw : s.sfFind h l = some w) (ha : a ≠ 0) (hp : p ≠ 0) (hca : p &&& s.get (L.HA_STATUS.CA h) = p) :
    (s.sfPut h l a p).sfState h l = (a, p) := by
  have heq : s.sfPut h l a p = (s.setSf h (sfSet l) w ⟨true, l, a, p⟩).sfTouchWay h (sfSet l) w := by
    unfold State.sfPut
    rw [hw]
    simp only [if_neg ha]
  obtain ⟨hhit, hlt, hbefore⟩ := State.sfFind_eq_some_iff.mp hw
  have hfind : (s.setSf h (sfSet l) w ⟨true, l, a, p⟩).sfFind h l = some w := by
    refine State.sfFind_eq_some_iff.mpr ⟨?_, hlt, fun j hj => ?_⟩
    · rw [State.sfEnt_setSf_same]
      exact ⟨rfl, rfl⟩
    · rw [State.sfEnt_setSf_ne _ _ (Nat.ne_of_lt hj)]
      exact hbefore j hj
  rw [heq]
  refine (State.sfState_congr (s := s.setSf h (sfSet l) w ⟨true, l, a, p⟩) rfl rfl l).trans ?_
  unfold State.sfState
  rw [hfind]
  simp only [State.sfEnt_setSf_same, State.caching_setSf, hca]
  rw [if_neg (by simp [ha, hp])]

/-! ### A transaction that replies at once -/

theorem clearBit_one_shiftLeft (i : Nat) : clearBit (1 <<< i) i = 0 := by
  unfold clearBit
  split <;> simp_all

theorem one_shiftLeft_ne_zero (i : Nat) : 1 <<< i ≠ 0 := by simp

theorem State.caching_homeSync (s : State) (h : Nat) : (s.homeSync h).get (L.HA_STATUS.CA h) = s.get (L.HA_STATUS.CA h) :=
  (State.get_put_key (l := L.HA_SF_STAT.BI_USED h) _ _ (by dsimp only [R.HA_STATUS, R.HA_SF_STAT]; omega)).trans
    (State.get_put_beside (l := L.HA_STATUS.TRK_USED h) _ _ rfl (.inr (show 0 + 9 ≤ 32 by decide)) (show 32 + 12 ≤ 64 by decide))

/-- The home `h` has opened `y` for the request with nobody to ask and nothing to read, and replies to it now. -/
structure RepliesNow (h : Nat) (k : CohKind) (m : CohMsg) (st : Nat × Nat) (s t : State) (y : HomeTxn) : Prop where
  out : t.out = s.out
  sf : t.sf = s.sf
  caching : t.get (L.HA_STATUS.CA h) = s.get (L.HA_STATUS.CA h)
  opened : t.txnOn h m.line = some y
  req : y.req = m
  kind : y.kind = k
  grant : y.grant = homeGrants k m st
  stale : y.stale = []
  answer : y.answer = (zeros 64, false, false)

theorem State.openTxn_replies (hnone : s.txnOn h m.line = none) (hst : s.sfState h m.line = st) (hk : k ≠ .ncWr)
    (hask : (homePlan k m st).1 = 0) (hread : (homePlan k m st).2.2 = false) (hway : k = .cmo ∨ st.1 ≠ 0) :
    ∃ t y, RepliesNow h k m st s t y ∧ s.openTxn h k m = t.finishTxn h y := by
  have ha := Noted.arrives s h m
  rw [State.openTxn_eq, (ha.sfState h m.line).trans hst]
  generalize s.arrives h m = a at ha ⊢
  have hasks : (a.enters h k m st).asks h k m st (a.home h).seq = a.enters h k m st := by
    unfold State.asks State.sendSnoop
    simp [hask, hread]
  have hways : (a.enters h k m st).takesWay h k m st = a.enters h k m st := by
    unfold State.takesWay
    rcases hway with rfl | h0
    · rfl
    · simp [h0]
  have htxn : ((a.enters h k m st).homeSync h).txnOn h m.line = some (a.openedTxn h k m st) :=
    (State.txnOn_congr rfl h m.line).trans (State.enters_txnOn ((ha.txnOn h m.line).trans hnone) k st)
  refine ⟨(a.enters h k m st).homeSync h, a.openedTxn h k m st,
    ⟨ha.out, ha.sf, ((a.enters h k m st).caching_homeSync h).trans (ha.caching h), htxn, rfl, rfl, rfl, rfl, rfl⟩, ?_⟩
  rw [hasks, hways]
  unfold State.tryReply
  rw [htxn]
  simp [State.openedTxn, newTxn, hask, hread, hk]

theorem State.devAnswer_of_other (hr : k ≠ .ncRd) (hw : k ≠ .ncWr) (s : State) (h : Nat) (m : CohMsg) (b : Bytes) (p e : Bool) :
    s.devAnswer h k m b p e = s := by
  unfold State.devAnswer
  exact if_neg fun hc => hc.2.elim hr hw

/-- A transaction that has replied waits for FACK. -/
theorem State.txnReplied_waits (hr : y.kind ≠ .ncRd) (hw : y.kind ≠ .ncWr) (hl : y.req.line = l) (hz : s.txnOn h l = some z)
    (ans : Bytes × Bool × Bool) :
    s.txnReplied h y ans true = s.changeTxn h l (fun t => { t with replied := true, wantFack := true }) ∧
    (s.txnReplied h y ans true).txnOn h l = some { z with replied := true, wantFack := true } := by
  subst hl
  have htxn := s.txnOn_changeTxn (f := fun t => { t with replied := true, wantFack := true }) (fun _ => rfl) h y.req.line y.req.line
  rw [hz, Option.map_some, if_pos (State.txnOn_line hz)] at htxn
  have heq : s.txnReplied h y ans true = s.changeTxn h y.req.line (fun t => { t with replied := true, wantFack := true }) := by
    unfold State.txnReplied State.tryClose
    rw [State.devAnswer_of_other hr hw, htxn]
    exact if_neg (by simp)
  exact ⟨heq, heq ▸ htxn⟩

theorem State.finishTxn_grants (hk : y.kind = .upg) (hg : y.grant = true) : s.finishTxn h y =
    ((s.sfPut h y.req.line 2 (1 <<< y.req.src)).homeReply h .gntX y.req).txnReplied h y y.answer true := by
  unfold State.finishTxn
  simp only [hk, hg]
  rfl

theorem State.sfPut_same (s : State) (h l a p : Nat) : (s.sfPut h l a p).out = s.out ∧ (s.sfPut h l a p).homes = s.homes :=
  have hk : Keeps [.regs, .ecc, .sf, .sfPlru] s (s.sfPut h l a p) :=
    State.sfPut_keeps (by decide) (by decide) (by decide) (by decide) .refl h l a p
  ⟨hk.frame .out (by decide), hk.frame .homes (by decide)⟩

/-- A grant is sent, its transaction waits for FACK, and the line is its sender's. -/
theorem RepliesNow.grants (hr : RepliesNow h .upg m st s t y) (hg : homeGrants .upg m st = true) (hw : s.sfFind h m.line = some w)
    (hca : (1 <<< m.src) &&& s.get (L.HA_STATUS.CA h) = 1 <<< m.src) :
    (t.finishTxn h y).out = s.out ++ [Out.coh .gntX m.src (homeMsg h m)] ∧
    (t.finishTxn h y).txnOn h m.line = some { y with replied := true, wantFack := true } ∧
    (t.finishTxn h y).sfState h m.line = (2, 1 <<< m.src) := by
  have hput := State.sfState_sfPut (s := t) (a := 2) ((State.sfFind_congr hr.sf h m.line).trans hw) (by decide) (one_shiftLeft_ne_zero m.src)
    (by rw [hr.caching, hca])
  obtain ⟨hout, hhomes⟩ := t.sfPut_same h m.line 2 (1 <<< m.src)
  have heq := State.finishTxn_grants (s := t) (h := h) hr.kind (hr.grant.trans hg)
  rw [hr.req] at heq
  rw [heq]
  generalize t.sfPut h m.line 2 (1 <<< m.src) = b at hput hout hhomes ⊢
  have hb : (b.homeReply h .gntX m).txnOn h m.line = some y :=
    (State.txnOn_congr (s := b) rfl h _).trans ((State.txnOn_congr hhomes h _).trans hr.opened)
  obtain ⟨heq, htxn⟩ := State.txnReplied_waits (by rw [hr.kind]; decide) (by rw [hr.kind]; decide) (congrArg CohMsg.line hr.req) hb y.answer
  refine ⟨?_, htxn, ?_⟩
  · rw [heq]
    exact congrArg (· ++ [_]) (hout.trans hr.out)
  · rw [heq]
    exact (State.sfState_congr (s := b) rfl rfl _).trans hput

/-- UPG of the owner or of the only sharer is granted at once. -/
theorem HomeOpens.upg_granted (hx : HomeOpens s .upg m) (hst : s.sfState (s.homeOf m.line) m.line = (n, 1 <<< m.src)) (hn : n = 1 ∨ n = 2) :
    Completes (.upg m) s (fun t => t.out = s.out ++ [Out.coh .gntX m.src (homeMsg (s.homeOf m.line) m)] ∧
      (t.txnOn (s.homeOf m.line) m.line).map (fun x => (x.replied, x.wantFack)) = some (true, true) ∧
      t.sfState (s.homeOf m.line) m.line = (2, 1 <<< m.src)) := by
  have hn0 : n ≠ 0 := by omega
  have hgrant : homeGrants .upg m (n, 1 <<< m.src) = true := by
    rcases hn with rfl | rfl <;> simp [homeGrants]
  obtain ⟨w, hw, hpres⟩ := State.sfFind_of_sfState hst hn0
  have hca : (1 <<< m.src) &&& s.get (L.HA_STATUS.CA (s.homeOf m.line)) = 1 <<< m.src := by
    rw [← show _ = 1 <<< m.src from hpres, Nat.and_assoc, Nat.and_self]
  refine hx.1.completes (i := .upg m) rfl fun r hr => ?_
  rw [hx.homeTake (by decide) hr]
  obtain ⟨t, y, ht, heq⟩ := State.openTxn_replies (k := .upg) ((hr.txnOn _ _).trans hx.2.1) ((hr.sfState _ _).trans hst) (by decide)
    (clearBit_one_shiftLeft m.src) (by simp [homePlan, hgrant]) (.inr hn0)
  rw [heq]
  obtain ⟨hout, htxn, hsf⟩ := ht.grants hgrant ((State.sfFind_congr hr.sf _ _).trans hw) ((congrArg _ (hr.caching _)).trans hca)
  refine ⟨hout.trans (congrArg (· ++ _) hr.out), ?_, hsf⟩
  rw [htxn]
  rfl

/-! ### A transaction that closes -/

/-- A transaction that a reserved-class request promotes (R174). -/
def HomeTxn.promoted (y : HomeTxn) : HomeTxn := { y with reserved := true, req := { y.req with reserved := true } }

theorem State.txnOn_promote (s : State) (h l : Nat) (m : CohMsg) :
    (s.promote h m).txnOn h l = (s.txnOn h l).map (fun y => if m.reserved = true ∧ y.line = m.line then y.promoted else y) := by
  unfold State.promote
  split
  · next hr =>
    simp only [hr, true_and]
    exact State.txnOn_changeTxn (f := HomeTxn.promoted) (fun _ => rfl) s h l m.line
  · next hr => simp [hr]

theorem State.homeAdmit_txnOn_none (hnone : s.txnOn h l = none) : (s.homeAdmit h).txnOn h l = none := by
  unfold State.homeAdmit
  dsimp only
  split
  · next p _ =>
    have hset : ∀ w v, (s.setHome h { s.home h with held := w, waiting := v }).txnOn h l = none := fun w v =>
      (s.txnOn_setHome h l _).trans hnone
    exact (State.txnOn_congr rfl h l).trans ((State.txnOn_promote _ h l p.2).trans (congrArg (Option.map _) (hset _ _)))
  · exact (State.txnOn_congr rfl h l).trans hnone

/-- A transaction that has replied and waits for nothing closes. -/
theorem State.tryClose_closes (hy : s.txnOn h l = some y) (hr : y.replied = true) (hf : y.wantFack = false) (hs : y.stale = []) :
    (s.tryClose h l).out = s.out ∧ (s.tryClose h l).txnOn h l = none := by
  have hk : Keeps [.regs, .ecc, .homes, .sf, .sfPlru] s (s.tryClose h l) :=
    State.tryClose_keeps (by decide) (by decide) (by decide) (by decide) (by decide) .refl h l
  refine ⟨hk.frame .out (by decide), ?_⟩
  unfold State.tryClose
  rw [hy]
  dsimp only
  rw [if_pos ⟨hr, hf, hs⟩]
  apply State.homeAdmit_txnOn_none
  have hgone : (s.setHome h { s.home h with txns := (s.home h).txns.filter (fun u => u.line != l) }).txnOn h l = none := by
    rw [State.txnOn_setHome, List.find?_filter, List.find?_eq_none]
    simp
  split
  · exact (State.txnOn_congr (State.sfPut_same _ h l 0 0).2 h l).trans hgone
  · exact hgone

/-- A transaction that wants no FACK closes with its reply. -/
theorem State.txnReplied_closes (hr : y.kind ≠ .ncRd) (hw : y.kind ≠ .ncWr) (hl : y.req.line = l) (hz : s.txnOn h l = some z)
    (hs : z.stale = []) (ans : Bytes × Bool × Bool) :
    (s.txnReplied h y ans false).out = s.out ∧ (s.txnReplied h y ans false).txnOn h l = none := by
  subst hl
  have htxn := s.txnOn_changeTxn (f := fun t => { t with replied := true, wantFack := false }) (fun _ => rfl) h y.req.line y.req.line
  rw [hz, Option.map_some, if_pos (State.txnOn_line hz)] at htxn
  unfold State.txnReplied
  rw [State.devAnswer_of_other hr hw]
  exact State.tryClose_closes htxn rfl rfl hs

theorem State.finishTxn_completes (hk : y.kind = .cmo) (ha : y.answer.2.2 = false) : s.finishTxn h y =
    ((if y.req.op = 0 then s else s.sfPut h y.req.line 0 0).homeReply h .cmp y.req).txnReplied h y y.answer false := by
  unfold State.finishTxn
  simp only [hk, ha]
  rfl

/-- A maintenance operation completes, and its transaction is closed. -/
theorem RepliesNow.completes (hr : RepliesNow h .cmo m st s t y) :
    (t.finishTxn h y).out = s.out ++ [Out.coh .cmp m.src (homeMsg h m)] ∧ (t.finishTxn h y).txnOn h m.line = none := by
  have heq := State.finishTxn_completes (s := t) (h := h) hr.kind (congrArg (·.2.2) hr.answer)
  have hsame : (if y.req.op = 0 then t else t.sfPut h y.req.line 0 0).out = t.out ∧
      (if y.req.op = 0 then t else t.sfPut h y.req.line 0 0).homes = t.homes := by
    split
    · exact ⟨rfl, rfl⟩
    · exact t.sfPut_same h y.req.line 0 0
  rw [heq]
  generalize (if y.req.op = 0 then t else t.sfPut h y.req.line 0 0) = b at hsame ⊢
  have hb : (b.homeReply h .cmp y.req).txnOn h m.line = some y :=
    (State.txnOn_congr (s := b) rfl h _).trans ((State.txnOn_congr hsame.2 h _).trans hr.opened)
  obtain ⟨hout, htxn⟩ := State.txnReplied_closes (by rw [hr.kind]; decide) (by rw [hr.kind]; decide) (congrArg CohMsg.line hr.req) hb hr.stale
    y.answer
  refine ⟨hout.trans ?_, htxn⟩
  rw [hr.req]
  exact congrArg (· ++ [_]) (hsame.1.trans hr.out)

/-- CMO without a die to ask completes at once. -/
theorem HomeOpens.cmo_completes (hx : HomeOpens s .cmo m) (hst : s.sfState (s.homeOf m.line) m.line = st)
    (hnobody : if m.op = 0 then st.1 ≠ 2 else st.2 = 0) : Completes (.cmo m) s (fun t =>
      t.out = s.out ++ [Out.coh .cmp m.src (homeMsg (s.homeOf m.line) m)] ∧ t.txnOn (s.homeOf m.line) m.line = none) := by
  have hplan : (homePlan .cmo m st).1 = 0 ∧ (homePlan .cmo m st).2.2 = false := by
    unfold homePlan
    by_cases h0 : m.op = 0 <;> simp_all
  refine hx.1.completes (i := .cmo m) rfl fun r hr => ?_
  rw [hx.homeTake (by decide) hr]
  obtain ⟨t, y, ht, heq⟩ := State.openTxn_replies (k := .cmo) ((hr.txnOn _ _).trans hx.2.1) ((hr.sfState _ _).trans hst) (by decide)
    hplan.1 hplan.2 (.inl rfl)
  rw [heq]
  obtain ⟨hout, htxn⟩ := ht.completes
  exact ⟨hout.trans (congrArg (· ++ _) hr.out), htxn⟩

/-! # A write-back at its home -/

/-! ### The same write in two states -/

/-- The bytes of a line as an engine that treats it so stores them. -/
def XeUse.encrypts (e : XeUse) (l : Nat) (d : Bytes) : Bytes :=
  match e with
  | .key k => xtsCrypt true k l d
  | _ => d

/-- The two states hold the same memory under the same keys, and agree on every register but the records. -/
structure StoresAlike (s t : State) : Prop where
  mem : t.mem = s.mem
  xeKeys : t.xeKeys = s.xeKeys
  rd : ∀ {j}, ¬ recordKey j → t.rd j = s.rd j

theorem Noted.storesAlike (a : Noted s t) : StoresAlike s t := ⟨a.mem, a.xeKeys, a.rd⟩

namespace StoresAlike

theorem get (a : StoresAlike s t) {c : Loc} (hc : ¬ recordKey c.key) : t.get c = s.get c := State.get_congr (a.rd hc)

theorem mcOf (a : StoresAlike s t) (l : Nat) : t.mcOf l = s.mcOf l :=
  congrArg (fun o => (Machine.placeOf o l).mc) (a.get (by unfold recordKey; decide))

theorem mcServes (a : StoresAlike s t) (l : Nat) : t.mcServes l = s.mcServes l := by
  have hmode : ∀ n, t.mcMode n = s.mcMode n := fun n => a.get (not_recordKey_of_le (Nat.le_add_right_of_le (by decide)))
  unfold State.mcServes
  simp only [a.mcOf, hmode]

theorem xeUse (a : StoresAlike s t) (l : Nat) : t.xeUse l = s.xeUse l := by
  have hregion : ∀ r lo w, t.get ⟨R.XE_REGION 0 r, lo, w⟩ = s.get ⟨R.XE_REGION 0 r, lo, w⟩ := fun r lo w =>
    a.get (not_recordKey_of_le (Nat.le_add_right_of_le (by decide)))
  have hkeys : t.get (L.XE_STATUS.KEY_VALID 0) = s.get (L.XE_STATUS.KEY_VALID 0) := a.get (not_recordKey_of_le (by decide))
  unfold State.xeUse State.xeRegion
  simp only [hregion, hkeys, a.xeKeys]

theorem inc (a : StoresAlike s t) {c : Loc} (hc : ¬ recordKey c.key) : StoresAlike (s.inc c) (t.inc c) := by
  refine ⟨a.mem, a.xeKeys, fun {j} hj => ?_⟩
  by_cases hjc : j = c.key
  · have hsame : ∀ x : State, (x.inc c).rd c.key = withField (x.rd c.key) c.lo c.width (satAdd c.width (x.get c) 1) := fun x =>
      x.rd_put_same c _
    rw [hjc, hsame, hsame, a.rd hc, a.get hc]
  · rw [State.rd_inc_ne s hjc, State.rd_inc_ne t hjc, a.rd hj]

theorem logRec (a : StoresAlike s t) (hn : n < 512) (cause b d : Nat) (c : Issuer) (x : Nat) :
    StoresAlike (s.logRec n cause b d c x) (t.logRec n cause b d c x) := by
  have hk : ∀ z : State, Keeps [.regs, .newtIrq, .fieldOps, .paused, .caps, .capBusy] z (z.logRec n cause b d c x) := fun z =>
    State.logRec_keeps (by decide) (by decide) (by decide) (by decide) (by decide) (by decide) .refl n cause b d c x
  have hmem : ∀ z : State, (z.logRec n cause b d c x).mem = z.mem := fun z => (hk z).frame .mem (by decide)
  have hkeys : ∀ z : State, (z.logRec n cause b d c x).xeKeys = z.xeKeys := fun z => (hk z).frame .xeKeys (by decide)
  exact ⟨by rw [hmem, hmem, a.mem], by rw [hkeys, hkeys, a.xeKeys], fun hj => by rw [State.rd_logRec hj hn, State.rd_logRec hj hn, a.rd hj]⟩

theorem xeNote (a : StoresAlike s t) (l : Nat) (c : Issuer) : StoresAlike (s.xeNote l c) (t.xeNote l c) := by
  have hcnt : ∀ i, ¬ recordKey (R.XE_CNT i) := fun i => not_recordKey_of_le (Nat.le_add_right_of_le (by decide))
  unfold State.xeNote
  dsimp only
  rw [a.xeUse, a.mcOf]
  split
  · exact a.inc (hcnt _)
  · exact a
  · exact (a.inc (hcnt _)).logRec (by have := s.mcOf_lt l; unfold xeLog; omega) _ _ _ _ _

theorem writeBytes_mem (hm : t.mem = s.mem) (a : Nat) (b : List (BitVec 8)) : (t.writeBytes a b).mem = (s.writeBytes a b).mem := by
  induction b generalizing s t a with
  | nil => exact hm
  | cons b bs ih => exact ih (by unfold State.writeByte; rw [hm]) (a + 1)

theorem storeLine_mem (a : StoresAlike s t) (l : Nat) (d : Bytes) (p : Bool) : (t.storeLine l d p).mem = (s.storeLine l d p).mem := by
  have hmem : ∀ z : State, (z.storeLine l d p).mem = (z.writeBytes (64 * l) (((z.xeUse l).encrypts l d).map (BitVec.ofNat 8))).mem := by
    intro z
    unfold State.storeLine XeUse.encrypts
    exact State.when_kept State.mem (by exact fun _ => rfl)
  rw [hmem, hmem, a.xeUse]
  exact writeBytes_mem a.mem _ _

/-- A write of a line leaves the same memory and the same answer. -/
theorem memWriteLine (a : StoresAlike s t) (l : Nat) (d : Bytes) (p : Bool) (c : Issuer) :
    (t.memWriteLine l d p c).1.mem = (s.memWriteLine l d p c).1.mem ∧ (t.memWriteLine l d p c).2 = (s.memWriteLine l d p c).2 := by
  have hready : ∀ z : State, (z.mcNotReady l c).mem = z.mem := fun z =>
    (State.mcNotReady_keeps (F := [.regs, .newtIrq, .fieldOps, .paused, .caps, .capBusy]) (by decide) (by decide) (by decide) (by decide)
      (by decide) (by decide) .refl l c).frame .mem (by decide)
  have hwq : ∀ (z : State) i b v, (z.wqAdd i l b v).mem = z.mem := fun z i b v =>
    (State.wqAdd_keeps (F := [.regs, .newtIrq, .fieldOps, .mc]) (by decide) (by decide) (by decide) (by decide) .refl i l b v).frame .mem
      (by decide)
  have hnote := a.xeNote l c
  unfold State.memWriteLine
  rw [a.mcServes, a.xeUse]
  split
  · split
    · exact ⟨hnote.mem, rfl⟩
    · exact ⟨by rw [hwq, hwq, hnote.storeLine_mem], rfl⟩
  · exact ⟨by rw [hready, hready, a.mem], rfl⟩

end StoresAlike

/-! ### A write-back of the owner -/

theorem Noted.homeWrite (a : Noted s t) (m : CohMsg) : (t.homeWrite m m.data m.poison).1.mem = (s.homeWrite m m.data m.poison).1.mem ∧
    (t.homeWrite m m.data m.poison).2 = (s.homeWrite m m.data m.poison).2 := a.storesAlike.memWriteLine _ _ _ _

theorem State.homeWrite_same (s : State) (m : CohMsg) (d : Bytes) (p : Bool) :
    (s.homeWrite m d p).1.out = s.out ∧ (s.homeWrite m d p).1.sf = s.sf :=
  have hk : Keeps [.regs, .mem, .newtIrq, .fieldOps, .paused, .ecc, .mc, .poison, .caps, .capBusy] s (s.homeWrite m d p).1 :=
    State.homeWrite_keeps (by decide) (by decide) (by decide) (by decide) (by decide) (by decide) (by decide) (by decide) (by decide) (by decide)
      .refl m d p
  ⟨hk.frame .out (by decide), hk.frame .sf (by decide)⟩

theorem State.sfPut_mem (s : State) (h l a p : Nat) : (s.sfPut h l a p).mem = s.mem :=
  (State.sfPut_keeps (F := [.regs, .ecc, .sf, .sfPlru]) (by decide) (by decide) (by decide) (by decide) .refl h l a p).frame .mem (by decide)

/-- The entry of a line in state I is free. -/
theorem State.sfEnt_sfPut_zero (hw : s.sfFind h l = some w) (p : Nat) : (s.sfPut h l 0 p).sfEnt h (sfSet l) w = default := by
  unfold State.sfPut
  rw [hw]
  exact s.sfEnt_setSf_same h (sfSet l) w default

/-- The answer to a write-back, by whether memory took it. -/
abbrev wbAnswer (h : Nat) (m : CohMsg) (taken : Bool) : Out :=
  if taken then .coh .wbAck m.src (homeMsg h m) else .coh .cmp m.src { homeMsg h m with err := true }

theorem State.openWb_of_owner (hst : s.sfState h m.line = (2, 1 <<< m.src)) :
    (s.openWb h m).mem = (s.homeWrite m m.data m.poison).1.mem ∧
    (s.openWb h m).out = s.out ++ [wbAnswer h m (s.homeWrite m m.data m.poison).2] ∧
    (m.flag = false → ∀ w, s.sfFind h m.line = some w → (s.openWb h m).sfEnt h (sfSet m.line) w = default) := by
  obtain ⟨hout, hsf⟩ := s.homeWrite_same m m.data m.poison
  have htouch := Noted.sfTouch (s.homeWrite m m.data m.poison).1 h m.line
  have hstep : s.openWb h m = State.send (if m.flag then ((s.homeWrite m m.data m.poison).1.sfTouch h m.line)
      else ((s.homeWrite m m.data m.poison).1.sfTouch h m.line).sfPut h m.line 0 0) (wbAnswer h m (s.homeWrite m m.data m.poison).2) := by
    unfold State.openWb
    dsimp only
    rw [if_pos ⟨congrArg Prod.fst hst, congrArg Prod.snd hst⟩]
    unfold wbAnswer
    split <;> rfl
  rw [hstep]
  generalize (s.homeWrite m m.data m.poison).1.sfTouch h m.line = b at htouch
  refine ⟨?_, ?_, fun hflag w hw => ?_⟩
  · rw [State.send_mem]
    split
    · exact htouch.mem
    · exact (b.sfPut_mem h m.line 0 0).trans htouch.mem
  · refine congrArg (· ++ [_]) (Eq.trans ?_ hout)
    split
    · exact htouch.out
    · exact (b.sfPut_same h m.line 0 0).1.trans htouch.out
  · rw [if_neg (by rw [hflag]; decide)]
    exact State.sfEnt_sfPut_zero (s := b) ((State.sfFind_congr (htouch.sf.trans hsf) h m.line).trans hw) 0

/-- WB of the owner is written and acknowledged. -/
theorem HomeOpens.wb (hx : HomeOpens s .wb m) (hst : s.sfState (s.homeOf m.line) m.line = (2, 1 <<< m.src)) (hroom : s.writeRoom m.line = true) :
    Completes (.wb m) s (fun t => t.mem = (s.homeWrite m m.data m.poison).1.mem ∧
      t.out = s.out ++ [wbAnswer (s.homeOf m.line) m (s.homeWrite m m.data m.poison).2] ∧
      (m.flag = false → ∀ w, s.sfFind (s.homeOf m.line) m.line = some w → t.sfEnt (s.homeOf m.line) (sfSet m.line) w = default)) := by
  obtain ⟨hhears, hnone, hwait, -⟩ := hx
  refine hhears.completes (i := .wb m) rfl fun r hr => ?_
  have htake : r.homeTake (s.homeOf m.line) .wb m = r.openWb (s.homeOf m.line) m := by
    unfold State.homeTake State.homeWb
    rw [if_pos rfl, hr.txnOn, hnone]
    exact if_neg (by rw [hr.home, hr.writeRoom, hwait, hroom]; decide)
  obtain ⟨hmem, hout, hent⟩ := State.openWb_of_owner ((hr.sfState _ _).trans hst)
  obtain ⟨hsame, htaken⟩ := hr.homeWrite m
  rw [htake]
  refine ⟨hmem.trans hsame, ?_, fun hflag w hw => hent hflag w ((State.sfFind_congr hr.sf _ _).trans hw)⟩
  rw [hout, hr.out, htaken]

/-! # A request on a busy line, a stale write-back, and a refused message -/

theorem State.changeTxn_beside (s : State) (h l : Nat) (f : HomeTxn → HomeTxn) : (s.changeTxn h l f).out = s.out ∧
    ((s.changeTxn h l f).home h).waiting = (s.home h).waiting := 
  ⟨rfl, (congrArg Home.waiting (SMap.get_set_same s.homes h _)).trans rfl⟩

/-- A request that waits at its home: nothing is sent, and one of reserved class promotes the transaction on its line. -/
theorem State.homeWait_of_entry (hx : s.txnOn h m.line = some x) (he : s.entryFor h k m = true) :
    (s.homeWait h k m).out = s.out ∧ ((s.homeWait h k m).home h).waiting = (s.home h).waiting ++ [(k, m)] ∧
    (m.reserved = true → ((s.homeWait h k m).txnOn h m.line).map HomeTxn.reserved = some true) := by
  have hstep : s.homeWait h k m =
      ((s.setHome h { s.home h with waiting := (s.home h).waiting ++ [(k, m)] }).promote h m).homeSync h := if_pos he
  have htxn : (s.setHome h { s.home h with waiting := (s.home h).waiting ++ [(k, m)] }).txnOn h m.line = some x :=
    (s.txnOn_setHome h m.line _).trans hx
  have hwait : ((s.setHome h { s.home h with waiting := (s.home h).waiting ++ [(k, m)] }).home h).waiting = (s.home h).waiting ++ [(k, m)] :=
    congrArg Home.waiting (s.home_setHome h _)
  have hout : (s.setHome h { s.home h with waiting := (s.home h).waiting ++ [(k, m)] }).out = s.out := rfl
  rw [hstep]
  generalize s.setHome h { s.home h with waiting := (s.home h).waiting ++ [(k, m)] } = b at htxn hwait hout ⊢
  have hpromote := b.txnOn_promote h m.line m
  have hbeside : (b.promote h m).out = b.out ∧ ((b.promote h m).home h).waiting = (b.home h).waiting := by
    unfold State.promote
    split
    · exact b.changeTxn_beside h m.line HomeTxn.promoted
    · exact ⟨rfl, rfl⟩
  refine ⟨hbeside.1.trans hout, hbeside.2.trans hwait, fun hr => ?_⟩
  have hsync : ((b.promote h m).homeSync h).txnOn h m.line = (b.promote h m).txnOn h m.line := State.txnOn_congr rfl h m.line
  rw [hsync, hpromote, htxn, Option.map_some, if_pos ⟨hr, State.txnOn_line hx⟩]
  rfl

theorem HomeHears.rdS_waits (hh : HomeHears s .rdS m) (hx : s.txnOn (s.homeOf m.line) m.line = some x)
    (he : s.entryFor (s.homeOf m.line) .rdS m = true) : Completes (.rdS m) s (fun t => t.out = s.out ∧
      (t.home (s.homeOf m.line)).waiting = (s.home (s.homeOf m.line)).waiting ++ [(CohKind.rdS, m)] ∧
      (m.reserved = true → (t.txnOn (s.homeOf m.line) m.line).map HomeTxn.reserved = some true)) := by
  refine hh.completes (i := .rdS m) rfl fun r hr => ?_
  have htake : r.homeTake (s.homeOf m.line) .rdS m = r.homeWait (s.homeOf m.line) .rdS m := by
    unfold State.homeTake
    rw [if_neg (by decide), if_pos (.inl (by rw [hr.txnOn, hx]; rfl))]
  obtain ⟨hout, hwait, hreserved⟩ := State.homeWait_of_entry (k := .rdS) ((hr.txnOn _ _).trans hx) ((hr.entryFor _ _ _).trans he)
  rw [htake]
  exact ⟨hout.trans hr.out, hwait.trans (by rw [hr.home]), hreserved⟩

/-! ### A stale write-back -/

/-- What a home does with a stale write-back. -/
structure DiscardsStale (h : Nat) (m : CohMsg) (s t : State) : Prop where
  out : t.out = s.out ++ [Out.coh .wbStale m.src (homeMsg h m)]
  mem : t.mem = s.mem
  homes : t.homes = s.homes
  counted : t.get (L.HA_STALE_CNT.STALE h) = min (s.get (L.HA_STALE_CNT.STALE h) + 1) (2 ^ 32 - 1)
  regs : SameRegsButRecords [R.HA_STALE_CNT h] s t

theorem State.staleWb_discards (s : State) (h : Nat) (m : CohMsg) : DiscardsStale h m s (s.staleWb h m) := by
  have hn : Noted ((s.homeReply h .wbStale m).inc (L.HA_STALE_CNT.STALE h)) (s.staleWb h m) := .pmc ..
  have hcount := State.get_inc_same (s.homeReply h .wbStale m) (L.HA_STALE_CNT.STALE h) (show 0 + 32 ≤ 64 by decide)
  exact ⟨hn.out, hn.mem, hn.homes, (hn.get (not_recordKey_of_le (Nat.le_add_right_of_le (by decide)))).trans hcount, fun j hj hr =>
    (hn.rd hr).trans (State.rd_inc_ne (s.homeReply h .wbStale m) (fun e => hj (List.mem_singleton.mpr e)))⟩

theorem HomeHears.wb_discarded (hh : HomeHears s .wb m) (hx : s.txnOn (s.homeOf m.line) m.line = some x) (hstale : x.stale = [(m.src, m.tag)])
    (hopen : x.replied = false) : Completes (.wb m) s (fun t =>
      t.out = s.out ++ [Out.coh .wbStale m.src (homeMsg (s.homeOf m.line) m)] ∧
      t.txnOn (s.homeOf m.line) m.line = some { x with stale := [] } ∧ t.mem = s.mem ∧
      t.get (L.HA_STALE_CNT.STALE (s.homeOf m.line)) = min (s.get (L.HA_STALE_CNT.STALE (s.homeOf m.line)) + 1) (2 ^ 32 - 1) ∧
      SameRegsButRecords [R.HA_STALE_CNT (s.homeOf m.line)] s t) := by
  refine hh.completes (i := .wb m) rfl fun r hr => ?_
  generalize hh' : s.homeOf m.line = h at hx
  have hx' : r.txnOn h m.line = some x := (hr.txnOn _ _).trans hx
  have herase := r.txnOn_changeTxn (f := fun t => { t with stale := t.stale.erase (m.src, m.tag) }) (fun _ => rfl) h m.line m.line
  rw [hx', Option.map_some, if_pos (State.txnOn_line hx), hstale, List.erase_cons_head] at herase
  have htake : r.homeTake h .wb m =
      ((r.changeTxn h m.line (fun t => { t with stale := t.stale.erase (m.src, m.tag) })).staleWb h m).tryClose h m.line := by
    unfold State.homeTake State.homeWb
    rw [if_pos rfl, hx']
    exact if_pos (by rw [hstale]; simp)
  rw [htake]
  have hbeside : ∀ f : HomeTxn → HomeTxn, (r.changeTxn h m.line f).out = r.out ∧ (r.changeTxn h m.line f).mem = r.mem ∧
      ∀ j, (r.changeTxn h m.line f).rd j = r.rd j := fun _ => ⟨rfl, rfl, fun _ => rfl⟩
  obtain ⟨hout, hmem, hregs⟩ := hbeside (fun t => { t with stale := t.stale.erase (m.src, m.tag) })
  generalize r.changeTxn h m.line (fun t => { t with stale := t.stale.erase (m.src, m.tag) }) = b at herase hout hmem hregs ⊢
  have hdiscard := b.staleWb_discards h m
  have htxn : (b.staleWb h m).txnOn h m.line = some { x with stale := [] } := (State.txnOn_congr hdiscard.homes h _).trans herase
  have hstays : (b.staleWb h m).tryClose h m.line = b.staleWb h m := by
    unfold State.tryClose
    rw [htxn]
    exact if_neg (by simp [hopen])
  rw [hstays]
  refine ⟨by rw [hdiscard.out, hout, hr.out], htxn, hdiscard.mem.trans (hmem.trans hr.mem), ?_, fun j hj hrec => ?_⟩
  · rw [hdiscard.counted, State.get_congr (hregs _), hr.get (not_recordKey_of_le (Nat.le_add_right_of_le (by decide)))]
  · exact (hdiscard.regs j hj hrec).trans ((hregs j).trans (hr.rd hrec))

/-! ### A refused message -/

/-- The registers in which a home notes a refused message. -/
def State.notesNak (s : State) (h code : Nat) (m : CohMsg) : State :=
  (((s.inc (L.HA_NAK_CNT.NAK h)).put (L.HA_NAK_LAST.CODE h) code).put (L.HA_NAK_LAST.AGENT h) m.src).put (L.HA_NAK_LAST.LINE h) m.line

theorem State.get_notesNak (s : State) (h : Nat) {code : Nat} (hcode : code < 256) (m : CohMsg) :
    (s.notesNak h code m).get (L.HA_NAK_LAST.CODE h) = code :=
  (State.get_put_beside (l := L.HA_NAK_LAST.LINE h) (m := L.HA_NAK_LAST.CODE h) _ _ rfl (.inr (show 6 + 42 ≤ 56 by decide))
    (show 56 + 8 ≤ 64 by decide)).trans <|
  (State.get_put_beside (l := L.HA_NAK_LAST.AGENT h) (m := L.HA_NAK_LAST.CODE h) _ _ rfl (.inr (show 48 + 8 ≤ 56 by decide))
    (show 56 + 8 ≤ 64 by decide)).trans <|
  State.get_put_fit _ _ _ (show 56 + 8 ≤ 64 by decide) hcode

/-- A record and an event change registers and what captures touch alone. -/
theorem State.record_same (s : State) (h cause code a : Nat) (c : Issuer) (x : Nat) (l : Loc) (hl : 0x10000 ≤ l.key) :
    Keeps Kinds.log s ((s.logRec (haLog h) cause code a c x).haEvent h l) :=
  State.event_keeps (by decide) (by decide) (by decide)
    (State.logRec_keeps (by decide) (by decide) (by decide) (by decide) (by decide) (by decide) .refl _ _ _ _ _ _) _ _ _ (.inr hl)

theorem State.homeNak_refuses (s : State) (hh : h < 32) {code : Nat} (hcode : code < 256) (m : CohMsg) :
    (s.homeNak h code m).out = s.out ++ [Out.coh .nak m.src { homeMsg h m with tag := code }] ∧
    (s.homeNak h code m).get (L.HA_NAK_LAST.CODE h) = code ∧ (s.homeNak h code m).homes = s.homes := by
  have hlast : ¬ recordKey (L.HA_NAK_LAST.CODE h).key := not_recordKey_of_le (Nat.le_add_right_of_le (by decide))
  have hstep : s.homeNak h code m = (((s.notesNak h code m).logRec (haLog h) Cause.PARTNER code (64 * m.line)
      ⟨m.sealed, m.vi, m.gen, .device⟩ 0).haEvent h (L.HA_EVT.NAK h)).send (.coh .nak m.src { homeMsg h m with tag := code }) := by
    unfold State.homeNak State.notesNak
    rfl
  have hout : (s.notesNak h code m).out = s.out := rfl
  have hhomes : (s.notesNak h code m).homes = s.homes := rfl
  have hcoded := s.get_notesNak h hcode m
  rw [hstep]
  generalize s.notesNak h code m = b at hout hhomes hcoded ⊢
  have hkeep := b.record_same h Cause.PARTNER code (64 * m.line) ⟨m.sealed, m.vi, m.gen, .device⟩ 0 (L.HA_EVT.NAK h)
    (Nat.le_add_right_of_le (by decide))
  have hget : ((b.logRec (haLog h) Cause.PARTNER code (64 * m.line) ⟨m.sealed, m.vi, m.gen, .device⟩ 0).haEvent h (L.HA_EVT.NAK h)).get
      (L.HA_NAK_LAST.CODE h) = b.get (L.HA_NAK_LAST.CODE h) :=
    (State.get_event (l := L.HA_EVT.NAK h) hlast (by dsimp only [R.HA_EVT, R.HA_NAK_LAST]; omega) _ _).trans
      (State.get_logRec hlast (by unfold haLog; omega) _ _ _ _ _)
  generalize (b.logRec (haLog h) Cause.PARTNER code (64 * m.line) ⟨m.sealed, m.vi, m.gen, .device⟩ 0).haEvent h (L.HA_EVT.NAK h) = c
    at hkeep hget ⊢
  have hout' : c.out = b.out := hkeep.frame .out (by decide)
  have hhomes' : c.homes = b.homes := hkeep.frame .homes (by decide)
  rw [State.send_out, State.get_send, State.send_homes]
  exact ⟨by rw [hout', hout], hget.trans hcoded, hhomes'.trans hhomes⟩

/-- A message of no Skelura die that the home refuses under a code of Table 7.9. -/
theorem State.homeRequest_refuses {i : Instr} {code : Nat} (hi : exec i s = s.homeRequest k m) (hstop : ¬ s.stopped)
    (hecc : s.homeEcc (s.homeOf m.line) m.line = false) (hnak : s.nakCode (s.homeOf m.line) k m = some code) (hcode : code < 256)
    (hsrc : s.isSkelura m.src = false) : Completes i s (fun t =>
      t.out = s.out ++ [Out.coh .nak m.src { homeMsg (s.homeOf m.line) m with tag := code }] ∧
      t.get (L.HA_NAK_LAST.CODE (s.homeOf m.line)) = code ∧ t.homes = s.homes) := by
  have hr := Noted.homeCorrect s (s.homeOf_lt m.line) m.line
  have hreq : s.homeRequest k m = .next ((s.homeCorrect (s.homeOf m.line) m.line).homeNak (s.homeOf m.line) code m) := by
    unfold State.homeRequest
    dsimp only
    rw [if_neg hstop, if_neg (by rw [hecc]; exact Bool.false_ne_true), hr.nakCode, hnak]
    unfold State.homeBad
    rw [hr.isSkelura, hsrc]
    rfl
  obtain ⟨hout, hlast, hhomes⟩ := (s.homeCorrect (s.homeOf m.line) m.line).homeNak_refuses (s.homeOf_lt m.line) hcode m
  exact ⟨_, hi.trans hreq, hout.trans (congrArg (· ++ _) hr.out), hlast, hhomes.trans hr.homes⟩

theorem State.rdX_refused (hstop : ¬ s.stopped) (hecc : s.homeEcc (s.homeOf m.line) m.line = false) (hform : m.malformed = false)
    (hlo : 0x10 ≤ m.src) (hhi : m.src < 0x20) (hline : lineInHbm m.line = true) : Completes (.rdX m) s (fun t =>
      t.out = s.out ++ [Out.coh .nak m.src { homeMsg (s.homeOf m.line) m with tag := 0x06 }] ∧
      t.get (L.HA_NAK_LAST.CODE (s.homeOf m.line)) = 0x06 ∧ t.homes = s.homes) := by
  have hdie : decide (m.src < 12) = false := by simp; omega
  refine State.homeRequest_refuses (k := .rdX) rfl hstop hecc ?_ (by decide) (by unfold State.isSkelura; rw [hdie]; rfl)
  have hmay : s.agentMay (s.homeOf m.line) .rdX m.src = some 0x06 := by
    unfold State.agentMay State.isCaching
    rw [hdie]
    rfl
  unfold State.nakCode
  rw [if_neg (by simp [hform]; omega), if_neg (by rw [hline]; decide), hmay]

theorem State.cmo_refused (hstop : ¬ s.stopped) (hecc : s.homeEcc (s.homeOf m.line) m.line = false) (hop : 2 < m.op)
    (hsrc : s.isSkelura m.src = false) : Completes (.cmo m) s (fun t =>
      t.out = s.out ++ [Out.coh .nak m.src { homeMsg (s.homeOf m.line) m with tag := 0x01 }] ∧
      t.get (L.HA_NAK_LAST.CODE (s.homeOf m.line)) = 0x01 ∧ t.homes = s.homes) :=
  State.homeRequest_refuses (k := .cmo) rfl hstop hecc (if_pos (.inr (.inl ⟨rfl, hop⟩))) (by decide) hsrc

/-! # The obligation -/

theorem homeGrants_of_not (h2 : ¬ (st.1 = 2 ∧ st.2 = 1 <<< m.src)) (h1 : ¬ (st.1 = 1 ∧ st.2.testBit m.src = true)) :
    homeGrants .upg m st = false := by
  unfold homeGrants
  simp only [Bool.and_eq_false_iff, Bool.or_eq_false_iff]
  right
  exact ⟨by simpa [imp_iff_not_or] using h2, by simpa [imp_iff_not_or] using h1⟩

/-- Settles O29: a request that its home hears goes to `openTxn`, to `openWb`, to `homeWait` or to `homeNak`; a transaction with a snoop or a
memory read to wait for stays open through all that follows its snoops, and one with neither replies at once. -/
theorem homesOpenTransactions : Obligations.HomesOpenTransactions := by
  unfold Obligations.HomesOpenTransactions
  refine ⟨?_, ?_, ?_, ?_, ?_, ?_, ?_, ?_, ?_, ?_, ?_, ?_, ?_, ?_⟩
  · exact fun m st s hx hst => hx.rdS hst
  · exact fun m st s hx hst => hx.rdX hst
  · exact fun m st s hx hst h2 h1 => hx.upg_reads hst (homeGrants_of_not h2 h1)
  · exact fun m p s hx hst hp hother => hx.upg_snoops hst (by simp [homeGrants, hp]) hother
  · exact fun m n s hx hst hn => hx.upg_granted hst hn
  · exact fun m st s hx hst hdies hown => hx.cmo_snoops hst hdies hown
  · exact fun m st s hx hst hnobody => hx.cmo_completes hst hnobody
  · exact fun m st s hx hst => hx.ncRd hst
  · exact fun m st s hx hst hdies => hx.ncWr hst hdies
  · exact fun m s hx hst hroom => hx.wb hst hroom
  · exact fun m x s hh hx he => hh.rdS_waits hx he
  · exact fun m x s hh hx hstale hopen => hh.wb_discarded hx hstale hopen
  · exact fun m s hstop hecc hform hlo hhi hline => State.rdX_refused hstop hecc hform hlo hhi hline
  · exact fun m s hstop hecc hop hsrc => State.cmo_refused hstop hecc hop hsrc

end Sys2Proof.Machine

namespace Sys2Proof.Machine
/-! # A transaction that completes while a WB that its stale record names still waits (R173, R175) -/

/-- A transaction of RD_S at home 0 that one snoop, to die 1, keeps open, with a stale record of die 4. -/
def readWithStaleRecord : HomeTxn := { newTxn false .rdS { (default : CohMsg) with src := 3 } 0x2 .snpS 0 true with stale := [(4, 9)] }

/-- The WB that the record names. -/
def recordedWb : CohMsg := { (default : CohMsg) with src := 4, tag := 9 }

/-- RSP_KD of die 1. -/
def lastResponse : CohMsg := { (default : CohMsg) with src := 1 }

/-- Home 0 with the transaction, and the WB among its requests that wait; the controller of the line serves it. -/
def recordedWbWaits : State :=
  (State.reset.put (L.MC_STATUS.MODE 0) mcNormal).setHome 0
    { (default : Home) with txns := [readWithStaleRecord], waiting := [(.wb, recordedWb)] }

/-- The state meets the invariant. -/
theorem recordedWbWaits_inv : Inv recordedWbWaits := by
  constructor <;> decide

theorem recordedWbWaits_hears : HomeHears recordedWbWaits .rspKd lastResponse := by decide +kernel

theorem recordedWbWaits_dataTaken : DataTaken recordedWbWaits lastResponse readWithStaleRecord := by decide +kernel

/-- What has been sent in the next state of an outcome. -/
def sentBy (r : Result) : List Out :=
  match r with
  | .next t => t.out
  | .fault _ | .refused _ => []

/-- The last response makes the home judge the WB again, which its record discards: WB_STALE leaves before the data. -/
theorem recordedWbWaits_sends : sentBy (exec (.rspKd lastResponse) recordedWbWaits) =
    [.coh .wbStale 4 (homeMsg 0 recordedWb), .coh .dataS 3 (homeMsg 0 readWithStaleRecord.req)] := by decide +kernel

/-- Refutes O30: its clause on the last response lets the transaction hold a stale record, and a WB that the record names wait; the
response then has the home send WB_STALE as well (Table 7.7), where the clause has DATA_S alone leave. -/
theorem not_homesCompleteTransactions : ¬ Obligations.HomesCompleteTransactions := by
  unfold Obligations.HomesCompleteTransactions
  rintro ⟨-, -, -, -, -, -, -, hlast, -⟩
  obtain ⟨t, ht, hout, -⟩ := hlast lastResponse readWithStaleRecord recordedWbWaits recordedWbWaits_hears (by decide) (by decide) rfl rfl rfl
    recordedWbWaits_dataTaken rfl rfl rfl (by decide)
  have hsent := recordedWbWaits_sends
  rw [ht] at hsent
  have hlen := congrArg List.length (hout.symm.trans hsent)
  exact absurd hlen (by decide)

end Sys2Proof.Machine

namespace Sys2Proof.Machine
/-! # Snoops at a die (R155, R169, Table 7.4) -/

variable {s t : State} {d w : Nat} {k : CohKind} {m : CohMsg} {x : CLine} {y : SliceTxn}

/-! ### The way of a snoop to its slice -/

theorem DieHears.dieSnoop (h : DieHears s d m) (k : CohKind) : s.dieSnoop d k m = .next (s.snoop d k m) := by
  obtain ⟨hstop, hmake, hmarks⟩ := h
  unfold State.dieSnoop
  rw [if_neg (by rw [hmake]; rintro (hs | hm); exacts [hstop hs, Bool.false_ne_true hm]),
    if_neg (by rw [State.dieEcc_of_noMarks hmarks]; exact Bool.false_ne_true), State.dieLook_of_noMarks hmarks]

/-- A snoop that a die hears leaves the state that its slice makes of it. -/
theorem DieHears.completes {P : State → Prop} {i : Instr} (h : DieHears s d m) (k : CohKind) (hi : exec i s = s.dieSnoop d k m)
    (hP : P (s.snoop d k m)) : Completes i s P := ⟨_, hi.trans (h.dieSnoop k), hP⟩

theorem State.respond_answers (hout : t.out = s.out) (hregs : t.regs = s.regs) (d : Nat) (k : CohKind) (m : CohMsg) (x : Option CLine)
    (tag : Nat) : DieAnswers d k m x tag s (t.respond d k m x tag) := by
  have hhome : t.homeOf m.line = s.homeOf m.line := congrArg (fun o => (Machine.placeOf o m.line).mc / 2) (State.get_congr (State.rd_congr hregs))
  show t.out ++ [.coh k (0x100 + t.homeOf m.line) _] = _
  rw [hout, hhome]

theorem CachesOnly.respond (h : CachesOnly s t) (d : Nat) (k : CohKind) (m : CohMsg) (x : Option CLine) (tag : Nat) :
    DieAnswers d k m x tag s (t.respond d k m x tag) := State.respond_answers h.out h.regs d k m x tag

theorem State.dropDie_cachesOnly (s : State) (d l : Nat) : CachesOnly s (s.dropDie d l) :=
  .of_keeps (F := [.ecc, .cache]) (State.dropDie_keeps (by decide) (by decide) .refl d l) (by decide) (by decide) (by decide) (by decide)

theorem State.cleanDie_cachesOnly (s : State) (d l : Nat) (keepE : Bool) : CachesOnly s (s.cleanDie d l keepE) :=
  .of_keeps (F := [.ecc, .cache]) (State.cleanDie_keeps (by decide) (by decide) .refl d l keepE) (by decide) (by decide) (by decide)
    (by decide)

/-! ### A line with a transaction in its slice -/

theorem State.sliceTxn_setSliceTxn_same (s : State) (d l : Nat) (y : SliceTxn) : (s.setSliceTxn d l y).sliceTxn d l = y :=
  SMap.get_set_same s.slices (sliceKey d l) y

theorem State.sliceTxn_congr (h : t.slices = s.slices) (d l : Nat) : t.sliceTxn d l = s.sliceTxn d l := by
  unfold State.sliceTxn
  rw [h]

section
variable (s : State) (d' : Nat) (k : CohKind) (m : CohMsg) (o : Option CLine) (tag : Nat)

theorem State.respond_sliceTxn (d l : Nat) : (s.respond d' k m o tag).sliceTxn d l = s.sliceTxn d l := rfl

theorem State.respond_cline (d u set w : Nat) : (s.respond d' k m o tag).cline d u set w = s.cline d u set w := rfl

end

/-- The slice changes its entry for a line and answers. -/
theorem CachesOnly.setSliceTxn_respond (h : CachesOnly s t) (d l d' : Nat) (y : SliceTxn) (k : CohKind) (m : CohMsg) (x : Option CLine)
    (tag : Nat) : DieAnswers d' k m x tag s ((t.setSliceTxn d l y).respond d' k m x tag) ∧
    ((t.setSliceTxn d l y).respond d' k m x tag).sliceTxn d l = y := by
  have hout : (t.setSliceTxn d l y).out = s.out := h.out
  have hregs : (t.setSliceTxn d l y).regs = s.regs := h.regs
  exact ⟨State.respond_answers hout hregs _ _ _ _ _, (State.respond_sliceTxn _ _ _ _ _ _ _ _).trans (State.sliceTxn_setSliceTxn_same _ _ _ _)⟩

/-- An eviction under way answers with its buffer; one that kept a copy loses it. -/
theorem State.snoop_evicting (hy : s.sliceTxn d m.line = y) (h : y.st = .miA ∨ y.st = .mkA) (k : CohKind) :
    DieAnswers d .rspEvd m (some ⟨true, m.line, 2, y.data, y.poison, false, false⟩) y.tag s (s.snoop d k m) ∧
    ((s.snoop d k m).sliceTxn d m.line).st = .miA := by
  subst hy
  unfold State.snoop
  rcases h with h | h <;> simp only [h]
  · exact ⟨(CachesOnly.refl s).respond _ _ _ _ _, h⟩
  · obtain ⟨hanswer, hentry⟩ := (s.dropDie_cachesOnly d m.line).setSliceTxn_respond d m.line d { s.sliceTxn d m.line with st := .miA } .rspEvd m
      (some ⟨true, m.line, 2, (s.sliceTxn d m.line).data, (s.sliceTxn d m.line).poison, false, false⟩) (s.sliceTxn d m.line).tag
    exact ⟨hanswer, congrArg SliceTxn.st hentry⟩

/-- A fill under way answers without a copy. -/
theorem State.snoop_filling (hy : s.sliceTxn d m.line = y) (h : y.st = .isD ∨ y.st = .ixD) (k : CohKind) :
    DieAnswers d .rspI m none 0 s (s.snoop d k m) ∧ (s.snoop d k m).sliceTxn d m.line = y := by
  subst hy
  have hdrop := s.dropDie_cachesOnly d m.line
  have heq : s.snoop d k m = (s.dropDie d m.line).respond d .rspI m none 0 := by
    unfold State.snoop
    rcases h with h | h <;> simp only [h]
  rw [heq]
  exact ⟨hdrop.respond _ _ _ _ _, (State.respond_sliceTxn _ _ _ _ _ _ _ _).trans (State.sliceTxn_congr hdrop.slices d m.line)⟩

/-- An upgrade keeps its copies but for SNP_I. -/
theorem State.snoop_upgrading (h : (s.sliceTxn d m.line).st = .sxA) (hk : k ≠ .snpI) : s.snoop d k m = s.respond d .rspK m none 0 := by
  unfold State.snoop
  simp only [h]
  exact if_neg hk

theorem State.snoopI_upgrading (hy : s.sliceTxn d m.line = y) (h : y.st = .sxA) :
    DieAnswers d .rspI m none 0 s (s.snoop d .snpI m) ∧ (s.snoop d .snpI m).sliceTxn d m.line = { y with st := .ixD } := by
  subst hy
  have heq : s.snoop d .snpI m =
      ((s.dropDie d m.line).setSliceTxn d m.line { s.sliceTxn d m.line with st := .ixD }).respond d .rspI m none 0 := by
    unfold State.snoop
    simp only [h]
    exact if_pos trivial
  rw [heq]
  exact (s.dropDie_cachesOnly d m.line).setSliceTxn_respond d m.line d _ .rspI m none 0

/-! ### A line that only its slice holds -/

/-- No L1 cache and no L2 of the die holds the line, and the way `w` of its slice does, as `x`. -/
structure SliceHolds (s : State) (d l w : Nat) (x : CLine) : Prop where
  way : s.findWay d (uL3 (sliceOf l)) l = some w
  above : ∀ u, u < 45 → s.findWay d u l = none
  line : s.cline d (uL3 (sliceOf l)) (setOf (uL3 (sliceOf l)) l) w = x

section
variable {l : Nat} (h : SliceHolds s d l w x)
include h

theorem SliceHolds.copyIn : s.copyIn d (uL3 (sliceOf l)) l = some x := State.copyIn_eq_some_iff.mpr ⟨w, h.way, h.line⟩

theorem SliceHolds.collapseDie : s.collapseDie d l = s :=
  State.collapseDie_of_none fun k hk => State.copyIn_eq_none_iff.mpr (h.above k (by omega))

theorem SliceHolds.holders : s.holders d l = [uL3 (sliceOf l)] := by
  have hl2 : ((List.range 9).map uL2).filter (fun u => (s.findWay d u l).isSome) = [] := by
    rw [List.filter_eq_nil_iff]
    intro u hu
    obtain ⟨c, hc, rfl⟩ := List.mem_map.mp hu
    rw [h.above _ (by have := List.mem_range.mp hc; unfold uL2; omega)]
    exact Bool.false_ne_true
  unfold State.holders
  rw [List.filter_append, hl2, List.nil_append, List.filter_singleton, h.way]
  rfl

theorem SliceHolds.dieLevel : s.dieLevel d l = x.st + 1 := by
  unfold State.dieLevel
  dsimp only
  rw [h.collapseDie, h.holders]
  simp [h.copyIn]

theorem SliceHolds.modifiedCopy (h2 : x.st = 2) : s.modifiedCopy d l = some x := by
  unfold State.modifiedCopy
  rw [h.holders]
  simp [h.copyIn, h2]

theorem SliceHolds.otherWorldCopy (sealed : Bool) : s.otherWorldCopy d l sealed = (s.wayOwner d (sliceOf l) w != sealed) := by
  unfold State.otherWorldCopy
  have h45 : ¬ uL3 (sliceOf l) < 45 := by unfold uL3; omega
  have hsl : uL3 (sliceOf l) - 45 = sliceOf l := by unfold uL3; omega
  rw [h.holders]
  simp only [List.any_cons, List.any_nil, Bool.or_false, if_neg h45, h.way, hsl]

theorem SliceHolds.dropDie (hd : d < 12) : (s.dropDie d l).cline d (uL3 (sliceOf l)) (setOf (uL3 (sliceOf l)) l) w = default :=
  Tracked.dropDie (.inl h.way) hd (State.findWay_lt h.way) (.inr rfl)

theorem SliceHolds.cleanDie (keepE : Bool) :
    (s.cleanDie d l keepE).cline d (uL3 (sliceOf l)) (setOf (uL3 (sliceOf l)) l) w = cleaned keepE x := by
  unfold State.cleanDie
  dsimp only
  rw [h.collapseDie, h.holders]
  show (s.changeCopy d (uL3 (sliceOf l)) l (cleaned keepE)).cline _ _ _ _ = _
  rw [State.changeCopy_of_findWay h.way, State.cline_setCline_same, h.line]

end

theorem NoCopy.snoop (hn : NoCopy s d m.line) (hbusy : s.lineBusy d m.line = false) (k : CohKind) :
    s.snoop d k m = s.respond d .rspI m none 0 := by
  unfold State.snoop
  simp only [State.sliceTxn_stable hbusy, hn.collapseDie, hn.dieLevel]

section
variable (hbusy : s.lineBusy d m.line = false) (h : SliceHolds s d m.line w x)
include hbusy h

theorem SliceHolds.snoop_clean (hst : x.st < 2) (k : CohKind) : s.snoop d k m = match k with
    | .snpS => (s.cleanDie d m.line false).respond d .rspK m none 0
    | .snpC => s.respond d .rspK m none 0
    | _ => (s.dropDie d m.line).respond d .rspI m none 0 := by
  unfold State.snoop
  have hlevel : x.st = 0 ∨ x.st = 1 := by omega
  rcases hlevel with hS | hE
  · simp only [State.sliceTxn_stable hbusy, h.collapseDie, h.dieLevel, hS] <;> rfl
  · simp only [State.sliceTxn_stable hbusy, h.collapseDie, h.dieLevel, hE] <;> rfl

theorem SliceHolds.snoop_modified (hst : x.st = 2) (k : CohKind) : s.snoop d k m = match k with
    | .snpS => (s.cleanDie d m.line false).respond d .rspKd m (some x) 0
    | .snpC => (s.cleanDie d m.line true).respond d .rspKd m (some x) 0
    | _ =>
      if m.flag ∧ s.otherWorldCopy d m.line m.sealed = false then (s.dropDie d m.line).respond d .rspI m none 0
      else (s.dropDie d m.line).respond d .rspId m (some x) 0 := by
  unfold State.snoop
  simp only [State.sliceTxn_stable hbusy, h.collapseDie, h.dieLevel, hst, h.modifiedCopy hst] <;> rfl

end

/-! ### The obligation -/

section
variable {d : Fin 12} (hears : DieHears s d m)
include hears

theorem DieHears.absent (hbusy : s.lineBusy d m.line = false) (hn : NoCopy s d m.line) {i : Instr} (k : CohKind)
    (hi : exec i s = s.dieSnoop d k m) : Completes i s (fun t => DieAnswers d .rspI m none 0 s t ∧ t.cache = s.cache ∧ SameRegsBut [] s t) := by
  refine hears.completes k hi ?_
  rw [hn.snoop hbusy]
  exact ⟨(CachesOnly.refl s).respond _ _ _ _ _, rfl, fun _ _ => rfl⟩

theorem DieHears.evicting (hy : s.sliceTxn d m.line = y) (h : y.st = .miA ∨ y.st = .mkA) {i : Instr} (k : CohKind)
    (hi : exec i s = s.dieSnoop d k m) : Completes i s (fun t =>
      DieAnswers d .rspEvd m (some ⟨true, m.line, 2, y.data, y.poison, false, false⟩) y.tag s t ∧ (t.sliceTxn d m.line).st = .miA) :=
  hears.completes k hi (State.snoop_evicting hy h k)

theorem DieHears.filling (hy : s.sliceTxn d m.line = y) (h : y.st = .isD ∨ y.st = .ixD) {i : Instr} (k : CohKind)
    (hi : exec i s = s.dieSnoop d k m) : Completes i s (fun t => DieAnswers d .rspI m none 0 s t ∧ t.sliceTxn d m.line = y) :=
  hears.completes k hi (State.snoop_filling hy h k)

theorem DieHears.upgrading (hy : s.sliceTxn d m.line = y) (h : y.st = .sxA) {i : Instr} {k : CohKind} (hk : k ≠ .snpI)
    (hi : exec i s = s.dieSnoop d k m) : Completes i s (fun t =>
      DieAnswers d .rspK m none 0 s t ∧ t.sliceTxn d m.line = y ∧ t.cache = s.cache) := by
  refine hears.completes k hi ?_
  rw [State.snoop_upgrading (by rw [hy]; exact h) hk]
  exact ⟨(CachesOnly.refl s).respond _ _ _ _ _, hy, rfl⟩

/-- The answers of a die whose slice alone holds the line, clean. -/
theorem DieHears.clean (hbusy : s.lineBusy d m.line = false) (h : SliceHolds s d m.line w x) (hst : x.st < 2) :
    Completes (.snpS d m) s (fun t => DieAnswers d .rspK m none 0 s t ∧
      t.cline d (uL3 (sliceOf m.line)) (setOf (uL3 (sliceOf m.line)) m.line) w = { x with st := 0 }) ∧
    Completes (.snpI d m) s (fun t => DieAnswers d .rspI m none 0 s t ∧
      t.cline d (uL3 (sliceOf m.line)) (setOf (uL3 (sliceOf m.line)) m.line) w = default) ∧
    Completes (.snpC d m) s (fun t => DieAnswers d .rspK m none 0 s t ∧
      t.cline d (uL3 (sliceOf m.line)) (setOf (uL3 (sliceOf m.line)) m.line) w = x) := by
  refine ⟨hears.completes .snpS rfl ?_, hears.completes .snpI rfl ?_, hears.completes .snpC rfl ?_⟩ <;> rw [h.snoop_clean hbusy hst]
  · exact ⟨(s.cleanDie_cachesOnly _ _ _).respond _ _ _ _ _, (State.respond_cline _ _ _ _ _ _ _ _ _ _).trans (h.cleanDie false)⟩
  · exact ⟨(s.dropDie_cachesOnly _ _).respond _ _ _ _ _, (State.respond_cline _ _ _ _ _ _ _ _ _ _).trans (h.dropDie d.isLt)⟩
  · exact ⟨(CachesOnly.refl s).respond _ _ _ _ _, (State.respond_cline _ _ _ _ _ _ _ _ _ _).trans h.line⟩

/-- A discard answers without the data of a line whose copies are all of its own world (R155). -/
theorem DieHears.discards (hbusy : s.lineBusy d m.line = false) (h : SliceHolds s d m.line w x) (hst : x.st = 2) (hflag : m.flag = true) :
    Completes (.snpI d m) s (fun t => (s.wayOwner d (sliceOf m.line) w = m.sealed → DieAnswers d .rspI m none 0 s t) ∧
      (s.wayOwner d (sliceOf m.line) w ≠ m.sealed → DieAnswers d .rspId m (some x) 0 s t) ∧
      t.cline d (uL3 (sliceOf m.line)) (setOf (uL3 (sliceOf m.line)) m.line) w = default) := by
  refine hears.completes .snpI rfl ?_
  rw [h.snoop_modified hbusy hst]
  dsimp only
  rw [h.otherWorldCopy]
  have hdrop := s.dropDie_cachesOnly d m.line
  by_cases hown : s.wayOwner d (sliceOf m.line) w = m.sealed
  · rw [if_pos ⟨hflag, by rw [hown, bne_self_eq_false]⟩]
    exact ⟨fun _ => hdrop.respond _ _ _ _ _, fun hne => absurd hown hne, (State.respond_cline _ _ _ _ _ _ _ _ _ _).trans (h.dropDie d.isLt)⟩
  · rw [if_neg fun hc => hown (bne_eq_false_iff_eq.mp hc.2)]
    exact ⟨fun he => absurd he hown, fun _ => hdrop.respond _ _ _ _ _, (State.respond_cline _ _ _ _ _ _ _ _ _ _).trans (h.dropDie d.isLt)⟩

/-- The answers of a die whose slice alone holds the line, modified. -/
theorem DieHears.modified (hbusy : s.lineBusy d m.line = false) (h : SliceHolds s d m.line w x) (hst : x.st = 2) :
    Completes (.snpS d m) s (fun t => DieAnswers d .rspKd m (some x) 0 s t ∧
      t.cline d (uL3 (sliceOf m.line)) (setOf (uL3 (sliceOf m.line)) m.line) w = { x with st := 0 }) ∧
    (m.flag = false → Completes (.snpI d m) s (fun t => DieAnswers d .rspId m (some x) 0 s t ∧
      t.cline d (uL3 (sliceOf m.line)) (setOf (uL3 (sliceOf m.line)) m.line) w = default)) ∧
    Completes (.snpC d m) s (fun t => DieAnswers d .rspKd m (some x) 0 s t ∧
      t.cline d (uL3 (sliceOf m.line)) (setOf (uL3 (sliceOf m.line)) m.line) w = { x with st := 1 }) := by
  have hkept : cleaned true x = { x with st := 1 } := by
    unfold cleaned
    rw [hst]
    rfl
  refine ⟨hears.completes .snpS rfl ?_, fun hflag => hears.completes .snpI rfl ?_, hears.completes .snpC rfl ?_⟩ <;>
    rw [h.snoop_modified hbusy hst]
  · exact ⟨(s.cleanDie_cachesOnly _ _ _).respond _ _ _ _ _, (State.respond_cline _ _ _ _ _ _ _ _ _ _).trans (h.cleanDie false)⟩
  · dsimp only
    rw [if_neg fun hc => Bool.false_ne_true (hflag.symm.trans hc.1)]
    exact ⟨(s.dropDie_cachesOnly _ _).respond _ _ _ _ _, (State.respond_cline _ _ _ _ _ _ _ _ _ _).trans (h.dropDie d.isLt)⟩
  · exact ⟨(s.cleanDie_cachesOnly _ _ _).respond _ _ _ _ _, (State.respond_cline _ _ _ _ _ _ _ _ _ _).trans ((h.cleanDie true).trans hkept)⟩

end

/-- Settles O31: the slice of the line decides the answer, by the transaction that it has open, or else by the one copy of the die. -/
theorem diesAnswerSnoops : Obligations.DiesAnswerSnoops := by
  unfold Obligations.DiesAnswerSnoops
  refine ⟨fun d m s hears hbusy hn => ⟨hears.absent hbusy hn .snpS rfl, hears.absent hbusy hn .snpI rfl, hears.absent hbusy hn .snpC rfl⟩,
    fun d m w x s hears hbusy hway habove hline hst => hears.clean hbusy ⟨hway, habove, hline⟩ hst,
    fun d m w x s hears hbusy hway habove hline hst => ?_,
    fun d m x s hears hx hst => ⟨hears.evicting hx hst .snpS rfl, hears.evicting hx hst .snpI rfl, hears.evicting hx hst .snpC rfl⟩,
    fun d m x s hears hx hst => ⟨hears.filling hx hst .snpS rfl, hears.filling hx hst .snpI rfl, hears.filling hx hst .snpC rfl⟩,
    fun d m x s hears hx hst => ⟨hears.upgrading hx hst (k := .snpS) (by decide) rfl,
      hears.completes .snpI rfl (State.snoopI_upgrading hx hst), hears.upgrading hx hst (k := .snpC) (by decide) rfl⟩⟩
  have hheld : SliceHolds s d m.line w x := ⟨hway, habove, hline⟩
  obtain ⟨hS, hI, hC⟩ := hears.modified hbusy hheld hst
  exact ⟨hS, hI, hears.discards hbusy hheld hst, hC⟩

end Sys2Proof.Machine

namespace Sys2Proof.Machine
/-! # A grant in a die where another slice than the line's own holds a copy (R144, R165, Table 7.5) -/

/-- A clean copy of line 0. -/
def cleanCopy : CLine := ⟨true, 0, 0, [], false, false, false⟩

/-- A store of hart 0 to line 0. -/
def waitingStore : Access := ⟨0, 0, 0, .store [1], true, false, 0, .m⟩

/-- Line 0 has an upgrade open in its slice 0 of die 0 for the store, and its copies are in the L2 of cluster 0 and in slice 1. -/
def copyInStrangeSlice : State :=
  ((State.reset.setCline 0 (uL2 0) 0 0 cleanCopy).setCline 0 (uL3 1) 0 0 cleanCopy).setSliceTxn 0 0
    { (default : SliceTxn) with st := .sxA, waiting := [waitingStore] }

/-- The state meets the invariant. -/
theorem copyInStrangeSlice_inv : Inv copyInStrangeSlice := by
  constructor <;> decide

theorem copyInStrangeSlice_hears : DieHears copyInStrangeSlice 0 default := by decide +kernel

/-- Where a structure of die 0 holds line 0 in the next state of an outcome. -/
def heldAfter (u : Nat) (r : Result) : Option Nat :=
  match r with
  | .next t => t.findWay 0 u 0
  | .fault _ | .refused _ => none

/-- The other copies that go with a grant are those of the L1 caches, the L2s and the line's own slice. -/
theorem copyInStrangeSlice_kept : heldAfter (uL3 1) (exec (.gntX 0 default) copyInStrangeSlice) = some 0 := by decide +kernel

/-- Refutes O32: its clause on the store that waited for GNT_X has the line in no other structure of the die afterwards, the four
slices among them, but a copy in a slice that is not the line's own (R144), which no hypothesis excludes, is not looked up and stays. -/
theorem not_diesTakeReplies : ¬ Obligations.DiesTakeReplies := by
  unfold Obligations.DiesTakeReplies
  rintro ⟨-, -, -, hgrant, -⟩
  obtain ⟨t, ht, -, -, -, hgone⟩ := hgrant 0 default waitingStore [1] cleanCopy copyInStrangeSlice copyInStrangeSlice_hears (by decide)
    (by decide) rfl (by decide) rfl rfl (by decide +kernel) (by decide +kernel)
  have hkept := copyInStrangeSlice_kept
  rw [ht] at hkept
  exact absurd ((hgone (uL3 1) (by decide) (by decide) (by decide)).symm.trans hkept) (by decide)

end Sys2Proof.Machine
